-- ==== Sys2Proof/Word.lean ====
section
/-!
DEFINITION. Words: the byte, the 32-bit register word, and the plainest bit-field and little-endian arithmetic on
natural numbers (R3: the device's own multi-byte structures are little-endian).
-/
namespace Sys2Proof

/-- One byte of memory. -/
abbrev Byte := BitVec 8

/-- One register word (Register map: registers are 32-bit). -/
abbrev Word := BitVec 32

/-- Bits `hi` down to `lo` of a number, as a number. -/
def bits (hi lo n : Nat) : Nat := (n / 2 ^ lo) % 2 ^ (hi + 1 - lo)

/-- Bit `i` of a number. -/
def bit (i n : Nat) : Bool := (n / 2 ^ i) % 2 == 1

/-- One when the flag holds, else zero. -/
def b2n (b : Bool) : Nat := if b then 1 else 0

/-- The number that a little-endian byte list spells (R3). -/
def ofLE : List Byte → Nat
  | [] => 0
  | b :: r => b.toNat + 256 * ofLE r

/-- The `k` little-endian bytes of a number (R3). -/
def toLE : Nat → Nat → List Byte
  | 0, _ => []
  | k + 1, n => BitVec.ofNat 8 n :: toLE k (n / 256)

/-- The quotient rounded up. -/
def ceilDiv (a b : Nat) : Nat := (a + b - 1) / b

/-- Every number below `n` passes the test. -/
def allBelow (n : Nat) (p : Nat → Bool) : Bool := (List.range n).all p

/-- How many numbers below `n` pass the test. -/
def countBelow (n : Nat) (p : Nat → Bool) : Nat := ((List.range n).filter p).length

/-- The lowest number below `n` that passes the test. -/
def firstBelow (n : Nat) (p : Nat → Bool) : Option Nat := (List.range n).find? p

end Sys2Proof
end

