-- ==== Sys2Proof/Syntax.lean ====
section
/-!
DEFINITION. The commands the block takes: one constructor of `Instr` for each row of the opcode table, with the operands
the command carries. The table gives no row any bits. What an operand cannot take from the device's own state (which
stack trained, which flit arrived) is an observation of the surroundings and stands in the
operand as plain data (log entries 7 and 8).
-/
namespace Sys2Proof

/-- What fuses and the manufacturing record hold (R406 step 1, R449): values specific to the device. -/
structure Fuses where
  /-- DEV_PART.STEPPING. -/
  stepping : Nat
  /-- DEV_PART.MODREV. -/
  modrev : Nat
  /-- The MAC address of host port 0, byte 0 lowest. -/
  mac0 : Nat
  /-- The MAC address of host port 1, byte 0 lowest. -/
  mac1 : Nat
  /-- The channel 0 key digest: 48 bytes (12 words). -/
  ch0Digest : List Word
  /-- The fused least version of a configuration image (R404). -/
  minVersion : Nat
  /-- The part is a production part (SEC_DEV_STAT.PRODUCTION). -/
  production : Bool
  /-- Debug is fused off (R388). -/
  debugOff : Bool
  /-- An image key hash is fused (Table 16.7, FUSES[17]). -/
  keyFused : Bool
  /-- The image key hash: the SHA-384 digest of the installation's image key (R404). -/
  keyHash : List Byte
  /-- The private part of the identity key (IDK), in fuse-protected storage (Table 16.1). -/
  idk : Nat
  /-- The identity certificate (R367): 256 B of the manufacturing record. -/
  idCert : List Byte
deriving DecidableEq, Repr

/-- What one boot attempt finds (R406 steps 3 to 8): masks name the units that failed their training or test. -/
structure BootObs where
  /-- The flash regions the attempt needs are readable (R407 cause 1). -/
  flashOk : Bool
  /-- Stacks not trained after three tries. -/
  failedStacks : Nat
  /-- LPDDR packages not trained after three tries. -/
  failedPkgs : Nat
  /-- Arrays that failed the start-up test. -/
  failedArrays : Nat
  /-- Fabric ports whose SerDes failed its start-up test. -/
  failedFab : Nat
  /-- Host ports whose SerDes failed its start-up test. -/
  failedHost : Nat
  /-- The epoch is read back as written (R407 cause 4). -/
  epochBack : Bool
deriving DecidableEq, Repr

/-- A UDP datagram that a host port receives in an untagged Ethernet II frame with a good checksum and no extension header
(R320, R321): the port, the sender's addresses (source MAC, IPv6 address and UDP port, as one number), the destination IPv6
address and UDP port, and the payload. Every other frame is HOST_FRAME_DROP's. -/
structure Datagram where
  port : Nat
  peer : Nat
  dst : Nat
  dport : Nat
  data : List Byte
deriving DecidableEq, Repr


/-- The commands: one constructor per row of the opcode table. -/
inductive Instr where
  /-- POWER_UP (R406). Rise of MOD_RESET_N: the boot sequencer runs boot steps 1 and 2 (fuses, manufacturing record, epoch E, DRBG, SAK, host ports). -/
  | powerUp (f : Fuses) (entropyFails : Nat) (a : BootObs)
  /-- BOOT_BACKOFF_EXPIRY (R407). The back-off after a failed boot attempt expires and the next attempt begins at step 3. -/
  | bootBackoffExpiry (a : BootObs)
  /-- POWER_FAIL (R402). PWR_FAIL_N stays low for 200 ns: arrays stop, issue stops, the event recorder flushes and the device awaits MOD_RESET_N. -/
  | powerFail
  /-- MOD_RESET_ASSERT (R20). MOD_RESET_N falls: the device stops and keeps nothing. -/
  | modResetAssert
  /-- LIMITER_INTERVAL (R399). End of a 10 us power interval: the limiter compares the mean with the cap and may take one down-step, a duty cut or count a cap miss. -/
  | limiterInterval (meanW : Nat) (msMeanW : Nat) (tempC : Nat)
  /-- LIMITER_UNDO (R399). After 1 ms below cap - 100 W the limiter undoes its most recent down-step. -/
  | limiterUndo
  /-- THERMAL_FAULT (R400). A sensor reads 110 C with all arrays at 0.9 GHz and duty one eighth: every array stops, FAULT_THERM is set and the module fails. -/
  | thermalFault
  /-- THERMAL_FAULT_CLEAR (R400). Every sensor reads below 95 C: arrays resume at 0.9 GHz and duty one eighth. -/
  | thermalFaultClear
  /-- VOLTAGE_GUARD_STRETCH (R401). An island supply droops below its guard level and the guard lengthens the current cycle. -/
  | voltageGuardStretch (island : Nat)
  /-- ADAPTIVE_IDLE_STEP (R397). No run has been on an array for 10 us with EFF_EN = 1: the array moves to its FLOOR point. -/
  | adaptiveIdleStep (arr : Nat)
  /-- JTAG_OPENING_INSTRUCTION (R389). Update of an opening instruction with seal broken and debug not fused off: MCEs refuse access, keys are zeroised, debug-open is set and fabric ports retrain. -/
  | jtagOpeningInstruction (code : Nat) (entropyFails : Nat)
  /-- REGISTER_WRITE (R6). A write to a register without behaviour of its own lands under its access code after the ownership check. -/
  | registerWrite (part addr : Nat) (data : Word)
  /-- PAGE_COMMIT (R7). Write of 0xC011 to PAGE_COMMIT checks the staged fields and either activates them all and increments PAGE_GEN or names the first inconsistent field. -/
  | pageCommit (part addr : Nat) (data : Word)
  /-- PAGE_RESET (R403). A PAGE_CTRL reset request returns the page to its reset values when its state allows, with the further effects of DSP, COL, RAS and HIF channel pages. -/
  | pageReset (part addr : Nat)
  /-- PAGE_ENABLE (R439). Writing ENABLE on a FAB page starts or stops training of the port. -/
  | pageEnable (part addr : Nat) (data : Word)
  /-- PAGE_QUIESCE (R439). Writing QUIESCE on a FAB page makes the port finish started messages and start no new one, or releases it. -/
  | pageQuiesce (part addr : Nat) (data : Word)
  /-- PAGE_ERR_CLEAR (R442). Writing 1 to PAGE_ERR.ERR clears ERR and PAGE_ERR_INFO together unless a new code arrives in the same bus cycle. -/
  | pageErrClear (part addr : Nat) (data : Word)
  /-- DSP_Q_TAIL_WRITE (R57). A write to DSP_Q_TAIL advances the tail, or is ignored and records FORMAT when the value is not below the ring size. -/
  | dspQTailWrite (part q : Nat) (data : Word)
  /-- RUN_SET (R58). Setting DSP_Q_CTRL.RUN lets the queue issue from its head. -/
  | runSet (part q : Nat)
  /-- RUN_CLEAR (R58). Clearing DSP_Q_CTRL.RUN stops issue before the next descriptor; the queue is STOPPING until nothing is in flight. -/
  | runClear (part q : Nat)
  /-- RESUME (R58). Writing RESUME in the HELD state continues issue from the head; otherwise ignored. -/
  | resume (part q : Nat)
  /-- FLUSH (R58). Writing FLUSH discards every unissued descriptor, withdraws held ACQUIREs, moves the head to the tail and ends a hold. -/
  | flush (part q : Nat)
  /-- TOKEN_SET_WRITE (R49). A write to the read/set alias sets VALUE and advances GEN. -/
  | tokenSetWrite (part tok : Nat) (data : Nat)
  /-- TOKEN_ADD_READ (R49). A read of the add alias returns the word and then adds 1 to VALUE. -/
  | tokenAddRead (part tok : Nat)
  /-- TOKEN_ADD_WRITE (R49). A write to the add alias adds the data to VALUE, saturating at 0xFFFF_FFFF. -/
  | tokenAddWrite (part tok : Nat) (data : Nat)
  /-- TOKEN_TEST_DEC_READ (R49). A read of the test-and-decrement alias returns the word and decrements a non-zero VALUE. -/
  | tokenTestDecRead (part tok : Nat)
  /-- TOKEN_TEST_DEC_WRITE (R49). A write to the test-and-decrement alias subtracts the data when VALUE is large enough. -/
  | tokenTestDecWrite (part tok : Nat) (data : Nat)
  /-- TOKEN_CAS_WRITE (R49). A write to the compare-and-set alias sets VALUE and advances GEN when GEN matches. -/
  | tokenCasWrite (part tok : Nat) (data : Nat)
  /-- ARR_SNAP (R80). Writing SNAP copies all nine live array counters to their snapshots in one array cycle. -/
  | arrSnap (part arr : Nat)
  /-- ARR_CLEAR (R80). Writing CLEAR clears the live array counters, after a snapshot when SNAP is also set. -/
  | arrClear (part arr : Nat) (snap : Bool)
  /-- STK_SNAP (R267). Writing SNAP copies the live stack engine counters to their snapshots. -/
  | stkSnap (part stk : Nat)
  /-- STK_CLEAR (R267). Writing CLEAR clears the live stack engine counters. -/
  | stkClear (part stk : Nat) (snap : Bool)
  /-- TPL_CLEAR (R135). Writing TPL_STATE.CLEAR clears the planner's counters. -/
  | tplClear (part planner : Nat)
  /-- CLEAR_PEAK (R410). Writing CLEAR_PEAK clears PWR_PEAK. -/
  | clearPeak (part : Nat)
  /-- MEM_RECLAIM (R237). A write with GO = 1 sends LRECL for every lease held by the named peer and starts the grace period. -/
  | memReclaim (part : Nat) (data : Word)
  /-- DISPATCH_ISSUE (R42). The dispatcher serves a ready queue head: reads and checks the descriptor, captures seed and numeric fields, waits and hands it to its station. -/
  | dispatchIssue
  /-- DESCRIPTOR_COMPLETE (R44). A station finishes a descriptor: writes become visible, the status byte is written, the signal applied and the notification sent. -/
  | descriptorComplete (fid : Nat)
  /-- MOVE (R54). A MOVE copies rows between endpoints in HOS, STK.s or YRD, converting or blocking when asked. -/
  | move (fid : Nat)
  /-- GEMM (R119). A GEMM is planned and computed on the arrays with drain fusion. -/
  | gemm (fid : Nat)
  /-- CONV (R137). A CONV runs a convolution or pooling as an unmaterialised matrix product, or maximum pooling in a stack engine or YRD. -/
  | conv (fid : Nat)
  /-- ATTN (R165). An ATTN computes attention over the paged KV history of its items. -/
  | attn (fid : Nat)
  /-- KVAPP (R158). A KVAPP appends positions to KV streams item by item. -/
  | kvapp (fid : Nat)
  /-- SCAN (R188). A SCAN runs chunked linear recurrences over its items' streams. -/
  | scan (fid : Nat)
  /-- REDUCE (R255). A REDUCE forms sums, sums of squares or pair-mode buffer sums in stack engines. -/
  | reduce (fid : Nat)
  /-- COLL (R301). A COLL is handed to COL to perform a fabric collective. -/
  | coll (fid : Nat)
  /-- EWISE (R260). An EWISE applies an elementwise function, pair accumulation or the pair optimizer step. -/
  | ewise (fid : Nat)
  /-- STATS (R258). A STATS computes one-pass mean and M2 records or merges records. -/
  | stats (fid : Nat)
  /-- SWAP_OUT (R198). A SWAP with OP OUT swaps each named stream out to its siding. -/
  | swapOut (fid : Nat)
  /-- SWAP_IN (R198). A SWAP with OP IN swaps each named stream into a resident slot. -/
  | swapIn (fid : Nat)
  /-- SWAP_SYNC (R198). A SWAP with OP SYNC copies each resident stream's current image to its siding. -/
  | swapSync (fid : Nat)
  /-- FENCE (R47). A FENCE waits until all earlier descriptors of its queue have completed, then completes. -/
  | fence (q : Nat)
  /-- TOKEN_SET (R53). A TOKEN SET descriptor sets VALUE to the operand and advances GEN. -/
  | tokenSet (fid : Nat)
  /-- TOKEN_ADD (R53). A TOKEN ADD descriptor adds the operand to VALUE. -/
  | tokenAdd (fid : Nat)
  /-- TOKEN_ACQUIRE (R53). A TOKEN ACQUIRE is held in the token bank until VALUE reaches the operand, then takes it atomically. -/
  | tokenAcquire (fid : Nat)
  /-- LEASE_ACQUIRE (R233). A LEASE ACQUIRE makes its slots PENDING and sends LREQ to the lender. -/
  | leaseAcquire (fid : Nat)
  /-- LEASE_RELEASE (R238). A LEASE RELEASE makes its slots RELEASING, or frees LOST slots at once. -/
  | leaseRelease (fid : Nat)
  /-- CHECK (R114). A CHECK recomputes the sampled tiles of a target GEMM or CONV and compares them with its outputs. -/
  | check (fid : Nat)
  /-- PLANNER_TAKE (R118). The lowest free tile planner takes a handed-over descriptor, forms its plan and emits work items. -/
  | plannerTake
  /-- RUN_START (R132). Placement lays a slot's run onto an idle granted array as one falls free. -/
  | runStart
  /-- CHUNK_DELIVERY (R129). A multicast delivery of a chunk starts once every receiving array's target half is free. -/
  | chunkDelivery (arr : Nat) (isA : Bool)
  /-- PRELOAD_STALL (R68). Once a starting block is readable the array stalls 128 cycles shifting it into the preload latches. -/
  | preloadStall (arr : Nat)
  /-- TILE_DRAIN (R66). A column's shadow values drain through the drain path once it accepts, applying the drain epilogue. -/
  | tileDrain (arr : Nat)
  /-- STAGING_WRITE_ACK (R69). The write-out of a tile's staging units is acknowledged and the units are freed. -/
  | stagingWriteAck (arr : Nat)
  /-- PARTIAL_COMBINE (R130). YRD applies padd to two partials once both have arrived, following tree_sum. -/
  | partialCombine (fid : Nat)
  /-- OVERFLOW_REPLAY (R106). After an overflowed pass drains, the station reruns the descriptor with output formats advanced. -/
  | overflowReplay (fid : Nat)
  /-- SHADOW_RECOMPUTE (R111). A sampled tile is recomputed in its shadow format on a granted array and its distance judged. -/
  | shadowRecompute (fid : Nat)
  /-- ENGINE_UNIT_START (R266). A stack engine starts a descriptor's placement units once it has a free place among its 8. -/
  | engineUnitStart (fid : Nat)
  /-- KVAPP_ITEM (R160). KVS processes the next KVAPP item: checks it, acquires pages, writes rows, advances LENGTH and signals the stream token. -/
  | kvappItem (fid : Nat)
  /-- ATTN_CAPTURE (R168). KVS captures the lengths of all items of an ATTN and takes references, between KVAPP items. -/
  | attnCapture (fid : Nat)
  /-- ATTN_SEQUENCE_RUN (R169). One sequence runs on one array over its key blocks with the three drain phases of online softmax. -/
  | attnSequenceRun (fid : Nat)
  /-- KVS_CMD_OPEN (R174). OPEN checks a stream entry and makes the stream ACTIVE. -/
  | kvsCmdOpen (part : Nat) (stream : Nat)
  /-- KVS_CMD_CLOSE (R174). CLOSE frees every page of a stream and makes it UNUSED. -/
  | kvsCmdClose (part : Nat) (stream : Nat)
  /-- KVS_CMD_UNPARK (R174). UNPARK makes a PARKED stream ACTIVE. -/
  | kvsCmdUnpark (part : Nat) (stream : Nat)
  /-- KVS_CMD_TRIM (R174). TRIM frees pages wholly below the given position, leaving holes. -/
  | kvsCmdTrim (part : Nat) (stream : Nat)
  /-- KVS_CMD_SET_BUDGET (R174). SET_BUDGET sets a stream's BUDGET. -/
  | kvsCmdSetBudget (part : Nat) (stream : Nat)
  /-- KVS_CMD_ADD_FRAMES (R174). ADD_FRAMES adds a range of frames to the partition's free list. -/
  | kvsCmdAddFrames (part : Nat)
  /-- KVS_CMD_RELEASED (R174). A CLOSE or TRIM that waited for references proceeds once the stream is unreferenced. -/
  | kvsCmdReleased (part : Nat)
  /-- SCAN_ADMIT (R191). SCN admits the next SCAN of a partition once slots allow, taking references or failing it with FORMAT. -/
  | scanAdmit (part : Nat)
  /-- SCAN_CHUNK (R180). One chunk of one head runs tiles V, W, U and Z on an array once its state is ready, and SCN applies the hand-off. -/
  | scanChunk (fid item head : Nat)
  /-- STREAM_SWAP_IN (R197). SCN starts a swap-in into the lowest free slot, evicting the oldest unreferenced resident stream if needed. -/
  | streamSwapIn (part stream : Nat)
  /-- SWAP_IN_COMPLETE (R187). The siding is fully copied into the current image and the stream becomes RESIDENT. -/
  | swapInComplete (part stream : Nat)
  /-- SWAP_OUT_COMPLETE (R187). The current image is fully copied to the siding and the stream becomes SIDED with its slot freed. -/
  | swapOutComplete (part stream : Nat)
  /-- SCN_CMD_OPEN (R199). OPEN checks a recurrent stream entry and its siding and makes the stream SIDED. -/
  | scnCmdOpen (part : Nat) (stream : Nat)
  /-- SCN_CMD_CLOSE (R199). CLOSE writes a resident state back, frees its slot and makes the stream UNUSED. -/
  | scnCmdClose (part : Nat) (stream : Nat)
  /-- SCN_CMD_ZERO (R199). ZERO sets every word of a stream's state to +0. -/
  | scnCmdZero (part : Nat) (stream : Nat)
  /-- SCN_CMD_RELEASED (R199). A CLOSE or ZERO that waited for references and swaps proceeds once both have ended. -/
  | scnCmdReleased (part : Nat)
  /-- COLL_START (R310). A COLL takes a reduction context at COL, checks its group entry and GSEQ, and sends START up both trees or runs locally. -/
  | collStart (fid : Nat)
  /-- SEGMENT_SEND (R308). Once a segment's source is read and the window allows, the member sends it up its tree. -/
  | segmentSend (ctx : Nat) (tree : Nat)
  /-- SEG_DOWN (R305). A result segment arrives and the member writes its elements, sending DONE when all are written. -/
  | segDown (port : Nat)
  /-- VERDICT (R311). A VERDICT arrives: the member completes the COLL with its code, re-forms in REFORM mode, sends END and frees the context. -/
  | verdict (port : Nat)
  /-- COLL_VERDICT_TIMEOUT (R313). No verdict within 2 x TIMEOUT_MS after START: the member completes with MEMBER_LOST. -/
  | collVerdictTimeout (ctx : Nat)
  /-- COL_CMD_OPEN (R318). OPEN checks a group entry and makes it OPEN with NEXT_SEQ and EPOCH 0. -/
  | colCmdOpen (part : Nat) (group : Nat)
  /-- COL_CMD_CLOSE (R318). CLOSE waits until no context of the group is in use, then makes it UNUSED. -/
  | colCmdClose (part : Nat) (group : Nat)
  /-- COL_CMD_ABORT (R318). ABORT sends ABORT with ABORTED_BY_PEER for every context of the group in use. -/
  | colCmdAbort (part : Nat) (group : Nat)
  /-- COL_CLOSE_RELEASED (R318). A CLOSE that waited for contexts completes once none is in use. -/
  | colCloseReleased (part : Nat)
  /-- LREQ (R235). A lender receives LREQ and grants all extents or refuses. -/
  | lreq (port : Nat)
  /-- LGRANT (R235). The borrower receives LGRANT: slots become HELD and the LEASE completes OK. -/
  | lgrant (port : Nat)
  /-- LREFUSE (R235). The borrower receives LREFUSE: slots become FREE and the LEASE completes with CAPACITY. -/
  | lrefuse (port : Nat)
  /-- LKEEP (R235). A keep-alive arrives; the lender answers it, the borrower counts it as an answer. -/
  | lkeep (port : Nat)
  /-- LREL (R238). The lender receives LREL, ends the lease, zeroes its extents and answers LRELACK. -/
  | lrel (port : Nat)
  /-- LRELACK (R238). The borrower receives LRELACK and the RELEASE completes with its slots FREE. -/
  | lrelack (port : Nat)
  /-- LRECL (R237). The borrower receives LRECL: the lease becomes RECLAIMING and the partition is notified. -/
  | lrecl (port : Nat)
  /-- LUNKNOWN (R236). The borrower receives LUNKNOWN and marks the lease LOST. -/
  | lunknown (port : Nat)
  /-- LRD (R299). The lender receives a lease read and answers with LRDATA or LUNKNOWN. -/
  | lrd (port : Nat)
  /-- LWR (R299). The lender receives a lease write, stores it and answers LWACK or LUNKNOWN. -/
  | lwr (port : Nat)
  /-- LRDATA (R299). The borrower receives read data for a lease access. -/
  | lrdata (port : Nat)
  /-- LWACK (R299). The borrower receives the acknowledgement that a lease write is held. -/
  | lwack (port : Nat)
  /-- LEASE_ANSWER_TIMEOUT (R235). No authenticated answer to LREQ within LOST_MS: slots become FREE and the LEASE completes with MEMBER_LOST. -/
  | leaseAnswerTimeout (slot : Nat)
  /-- LEASE_KEEP_TIMER (R235). Every KEEP_MS the borrower sends LKEEP for a HELD or RECLAIMING lease. -/
  | leaseKeepTimer (slot : Nat)
  /-- LEASE_LOST_TIMEOUT (R236). No LKEEP answer or access completion within LOST_MS: the borrower marks the lease LOST. -/
  | leaseLostTimeout (slot : Nat)
  /-- LENDER_KEEP_TIMEOUT (R236). No LKEEP from the borrower within LOST_MS: the lender ends the lease. -/
  | lenderKeepTimeout (leaseId : Nat)
  /-- RECLAIM_GRACE_END (R237). The reclaim grace period ends and the lender ends the lease. -/
  | reclaimGraceEnd (leaseId : Nat)
  /-- RELEASE_LREL_SEND (R238). Once descriptors in flight on the released slots complete, the borrower sends LREL. -/
  | releaseLrelSend (slot : Nat)
  /-- RELEASE_ACK_TIMEOUT (R238). No LRELACK within LOST_MS: the RELEASE completes with OK and its slots become FREE. -/
  | releaseAckTimeout (slot : Nat)
  /-- SEQUENCED_FLIT_RECEIVE (R286). A flit arrives: CRC and sequence are checked, credits and ACK taken, the flit accepted or discarded with a NAK. -/
  | sequencedFlitReceive (port : Nat) (bytes : List Byte) (fecBad threshold : Bool)
  /-- NAK_RECEIVE (R287). A NAK arrives and the transmitter re-sends every held flit from the named number. -/
  | nakReceive (port : Nat) (bytes : List Byte) (fecBad : Bool)
  /-- REPLAY_TIMEOUT (R287). ACK has not advanced for REPLAY_TO_US: the transmitter re-sends from the oldest held flit, retraining after eight. -/
  | replayTimeout (port : Nat)
  /-- MESSAGE_SEND (R289). A message is sent on its lane once the sender holds credits, chosen by the lane arbitration. -/
  | messageSend (port : Nat)
  /-- ESCAPE_TIMEOUT (R291). A VL0 or VL2 message whose HEAD waited ESC_WAIT_US for credit is sent on VL3. -/
  | escapeTimeout (port lane : Nat)
  /-- RETRAIN_REQUEST (R293). A LINK flit with RETRAIN request arrives and the port retrains. -/
  | retrainRequest (port : Nat) (bytes : List Byte) (fecBad : Bool)
  /-- PCS_LOCK_LOSS (R293). The PCS loses lock and the port retrains. -/
  | pcsLockLoss (port : Nat)
  /-- MARGIN_CHECK (R293). The once-per-millisecond eye margin check may make a port-initiated retrain fall due. -/
  | marginCheck (port : Nat) (low : Bool) (gapPassed : Bool)
  /-- PMD_TRAIN_DONE (R292). Auto-negotiation and PMD training end and the port moves to PCS_LOCK, or to BACKOFF on failure. -/
  | pmdTrainDone (port : Nat) (ok : Bool)
  /-- PCS_LOCK_DONE (R292). Lane alignment and RS-FEC lock end and the port moves to FLIT_ALIGN, or to BACKOFF. -/
  | pcsLockDone (port : Nat) (ok : Bool)
  /-- TRAIN_FLIT_RECEIVE (R292). A TRAIN flit arrives; after 16 good ones the flit boundary and partner advertisement are fixed and the port moves to AUTH. -/
  | trainFlitReceive (port : Nat) (bytes : List Byte) (fecBad : Bool)
  /-- AUTH_FLIT_RECEIVE (R382). An AUTH flit arrives; when the partner's chain and proof verify the port becomes UP, otherwise it backs off. -/
  | authFlitReceive (port : Nat) (bytes : List Byte) (fecBad : Bool)
  /-- AUTH_TIMEOUT (R382). No acceptance within 10 ms of entering AUTH: the port goes to BACKOFF. -/
  | authTimeout (port : Nat)
  /-- PORT_BACKOFF_EXPIRY (R292). A port's back-off expires and training restarts at PMD_TRAIN. -/
  | portBackoffExpiry (port : Nat)
  /-- ICMPV6_NEIGHBOR_SOLICITATION (R321). A host port answers a Neighbor Solicitation for one of its addresses. -/
  | icmpv6NeighborSolicitation (port : Nat) (src target : Nat)
  /-- ICMPV6_ECHO_REQUEST (R321). A host port answers an Echo Request for one of its addresses. -/
  | icmpv6EchoRequest (port : Nat) (src target : Nat) (data : List Byte)
  /-- HELLO (R329). A HELLO starts a pending handshake and is answered with HELLO_R, or dropped when four are pending. -/
  | hello (d : Datagram)
  /-- FINISH (R327). A FINISH is checked; on success the session becomes live, keys are derived and READY is sent, else REJECT. -/
  | finish (d : Datagram)
  /-- HANDSHAKE_TIMEOUT (R329). A pending handshake without FINISH for 100 ms is discarded. -/
  | handshakeTimeout (sid : Nat)
  /-- CLOSE (R331). A CLOSE executes after every earlier request and ends the session. -/
  | close (d : Datagram)
  /-- ACKONLY (R330). An acknowledgement arrives, retiring acknowledged device packets and completing MOVEs whose data is all acknowledged. -/
  | ackonly (d : Datagram)
  /-- REG (R332). A REG request runs its accesses in order on the register bus and is answered with REG_R. -/
  | reg (d : Datagram)
  /-- SUBMIT (R333). A SUBMIT writes one queue entry at the tail and advances TAIL in one bus cycle. -/
  | submit (d : Datagram)
  /-- BULK_WR (R334). A BULK_WR is checked and writes its data to device memory, answered when visible. -/
  | bulkWr (d : Datagram)
  /-- BULK_RD (R335). A BULK_RD is checked and answered with BULK_RD_DATA packets. -/
  | bulkRd (d : Datagram)
  /-- SUBSCRIBE (R336). A SUBSCRIBE sets the session's notification mask. -/
  | subscribe (d : Datagram)
  /-- MOVE_FILL (R338). A MOVE_FILL answering a MOVE_PULL writes its data; an unmatched one is discarded. -/
  | moveFill (d : Datagram)
  /-- MOVE_PULL_TIMEOUT (R338). A MOVE_PULL unanswered for LOST_MS completes the MOVE with MEMBER_LOST. -/
  | movePullTimeout (fid : Nat)
  /-- DEVICE_RESEND (R330). A device packet not acknowledged within RTO_US is re-sent, doubling the timeout. -/
  | deviceResend (chan seq : Nat)
  /-- ACK_DELAY_EXPIRY (R330). An unacknowledged host packet held for 20 us with nothing to send triggers an ACKONLY. -/
  | ackDelayExpiry (chan : Nat)
  /-- SESSION_LOSS_TIMEOUT (R331). ACK has not advanced for LOST_MS with packets outstanding and the session ends. -/
  | sessionLossTimeout (chan : Nat)
  /-- SESSION_IDLE_TIMEOUT (R331). Nothing authenticated for IDLE_S seconds and the session ends. -/
  | sessionIdleTimeout (chan : Nat)
  /-- MEMORY_RETRAIN_START (R242). A pseudo-channel or LPDDR channel begins a periodic or forced retrain and holds new requests. -/
  | memoryRetrainStart (lpddr : Bool) (unit ch : Nat) (forced : Bool)
  /-- MEMORY_RETRAIN_END (R241). A retrain ends and held requests proceed in order, or after three failures the channel is permanently failed. -/
  | memoryRetrainEnd (lpddr : Bool) (unit ch : Nat) (ok : Bool) (holdCycles : Nat) (declared : Bool)
  /-- WAY_ZEROISE_DONE (R228). A reassigned scratch way finishes being overwritten with zero and waiting accesses proceed. -/
  | wayZeroiseDone (way : Nat)
  /-- YARD_SCRUB (R415). Each scrub period a yard slice reads every line, writing back corrected lines. -/
  | yardScrub (corrected : Nat)
  /-- ARRAY_UNCORRECTED_ERROR (R81). An uncorrected error in an array fences it, fails the descriptor with HW_FAULT and tears down its partition. -/
  | arrayUncorrectedError (arr detail : Nat) (fid : Option Nat)
  /-- STACK_ENGINE_FAULT (R268). An uncorrected error in a stack engine fails its stack. -/
  | stackEngineFault (stk detail : Nat)
  /-- YARD_SCRATCH_ERROR (R413). An uncorrected error in a yard scratch way fails the access and tears down the way's holder. -/
  | yardScratchError (way : Nat) (fid : Option Nat)
  /-- SHARED_UNIT_ERROR (R417). An uncorrected error in a shared unit or one network flit fails the access with HW_FAULT and holds its queue. -/
  | sharedUnitError (cause : Nat) (blk inst : Nat) (detail : Nat) (fid : Option Nat) (tok : Option Nat)
  /-- HOP_STALL_FAILURE (R279). A hop pool held a packet 10 ms without a credit: the hop has failed and partitions using it are torn down. -/
  | hopStallFailure (segment : Nat) (parts : Nat) (fids : List Nat)
  /-- PRT_CREATE (R346). CREATE resets the partition's pages, generates its keys and makes it ACTIVE. -/
  | prtCreate (part p : Nat) (entropyFails : Nat)
  /-- PRT_DESTROY (R347). DESTROY tears the partition down if needed and returns every resource, leaving it NONE. -/
  | prtDestroy (part p : Nat)
  /-- PRT_SUSPEND (R354). SUSPEND stops the partition's queue and waits for the quiet point. -/
  | prtSuspend (part p : Nat)
  /-- QUIET_POINT (R354). No descriptor that must finish remains: planners stop, work is preempted and the save begins. -/
  | quietPoint (p : Nat)
  /-- SAVE_COMPLETE (R355). Live scratch and recurrent state are saved, arrays and ways released, and the partition becomes SUSPENDED. -/
  | saveComplete (p cycles : Nat)
  /-- PRT_RESUME (R357). RESUME restores the recorded ways and begins writing back the saved tiles. -/
  | prtResume (part p : Nat)
  /-- RESTORE_COMPLETE (R357). The saved tiles are written back and the partition becomes ACTIVE. -/
  | restoreComplete (p : Nat)
  /-- PRT_RESTART (R363). RESTART gives up failed resources, creates new keys, zero-fills memory, resets pages and makes the partition ACTIVE. -/
  | prtRestart (part p : Nat) (entropyFails : Nat)
  /-- ASSIGN (R348). ASSIGN moves UNASSIGNED extents to ZEROING for a partition. -/
  | assign (part target : Nat)
  /-- UNASSIGN (R348). UNASSIGN returns ASSIGNED or LENDABLE extents to UNASSIGNED. -/
  | unassign (part : Nat)
  /-- LEND (R348). LEND makes UNASSIGNED extents LENDABLE. -/
  | lend (part : Nat)
  /-- EXTENT_ZEROED (R348). An extent finishes zero-filling under its owner's key and becomes ASSIGNED. -/
  | extentZeroed (ext : Nat)
  /-- ARRAY_LEAVE_DONE (R352). A leaving array's last run drains and writes out and the array passes to partition 0. -/
  | arrayLeaveDone (arr : Nat)
  /-- ROTATE (R377). ROTATE creates a new memory key set, moves CUR to OLD and starts the sweep. -/
  | rotate (part : Nat)
  /-- ATTEST_P (R387). ATTEST_P writes a signed class P report and the device chain. -/
  | attestP (part : Nat)
  /-- MEASURE (R386). MEASURE appends a SHA-384 measurement of a memory range to the partition's log. -/
  | measure (part : Nat)
  /-- BIND (R385). BIND verifies a weight bundle and release blob and decrypts the body into DST. -/
  | bind (part : Nat)
  /-- JOBKEY_LOAD (R380). JOBKEY_LOAD unwraps a job blob into a job key slot. -/
  | jobkeyLoad (part : Nat)
  /-- JOBKEY_CLEAR (R380). JOBKEY_CLEAR zeroises a job key slot at once. -/
  | jobkeyClear (part : Nat)
  /-- ATTEST_D (R393). ATTEST_D writes a signed class D report and the device chain. -/
  | attestD (part : Nat)
  /-- SWEEP_BLOCK (R378). An MCE re-encrypts one block of epoch OLD under CUR in one step. -/
  | sweepBlock (part mce : Nat)
  /-- SWEEP_END (R379). Every MCE has finished the sweep: the OLD set is zeroised and SWEEPING clears. -/
  | sweepEnd (part : Nat)
  /-- INSTALL_A (R409). INSTALL_A judges the staged image and writes it to slot A, then writes a recovery receipt. -/
  | installA (part : Nat) (flashOk : Bool)
  /-- INSTALL_B (R409). INSTALL_B judges the staged image and writes it to slot B, then writes a recovery receipt. -/
  | installB (part : Nat) (flashOk : Bool)
  /-- BOOT_STAGED (R409). BOOT_STAGED judges the staged image for booting at the next attempt without a flash write. -/
  | bootStaged (part : Nat)
  /-- EVENT_RECORD (R423). The recorder takes one coalesced key from a source and updates or creates its record, or drops it. -/
  | eventRecord (sramError : Option Nat)
  /-- DEFERRED_FLUSH_START (R432). A deferred flush runs once two erased frames are ahead and 1 s has passed. -/
  | deferredFlushStart
  /-- FLUSH_WRITE_COMPLETE (R430). A flush finishes writing its frame and trailer. -/
  | flushWriteComplete
  /-- FRAME_ERASE (R431). The recorder erases a frame ahead of the head. -/
  | frameErase
  /-- EVR_FLUSH (R435). The FLUSH command requests a flush, completing OK whether or not it is deferred. -/
  | evrFlush (part : Nat)
  /-- DUMP (R429). DUMP writes all 4,096 slots to memory in ascending order. -/
  | dump (part : Nat)
  /-- RING_READ (R433). RING_READ copies one flash frame to memory. -/
  | ringRead (part frame : Nat)
  /-- EVR_CLEAR (R426). CLEAR empties every slot and zeroes the drop counters. -/
  | evrClear (part : Nat)
  /-- HOST_PORT_LINK_CHANGE (R320). A host port's link comes up or goes down, and HIF_PORT_STAT.LINK follows it while the port keeps seeking link. -/
  | hostPortLinkChange (port : Nat) (up : Bool)
  /-- HOST_FRAME_DROP (R320). A frame or packet that is not a valid HCT or ICMPv6 packet for the port (wrong EtherType, bad FCS, extension header, wrong address or UDP port, reserved PTYPE, failed tag) is dropped and counted. -/
  | hostFrameDrop (port : Nat)
  /-- STACK_LINK_RETRAIN_END (R413). A stack link retrain, started after three failed CRC retries, ends and the transfer recovers or the stack fails. -/
  | stackLinkRetrainEnd (stk : Nat) (ok : Bool)
  /-- SEAL_SENSE_CHANGE (R388). The seal-sense contact of the sealed debug connector changes, which SEC_DEV_STAT.SEAL_OPEN shows and which decides whether opening instructions act. -/
  | sealSenseChange (isOpen : Bool)
  /-- MR4_TEMPERATURE_REPORT (R248). An LPDDR package's MR4 temperature report sets the refresh multiplier and the code in LPD_REFRESH. -/
  | mr4TemperatureReport (pkg code mult : Nat)
  /-- END_OF_RUN_SWAP (R65). A run's last vector has been read with no further tile assigned, so the end-of-run swap wave runs and the array leaves its run. -/
  | endOfRunSwap (arr feedFreeze drainFreeze bothFreeze : Nat)
deriving DecidableEq, Repr

end Sys2Proof
end

