-- ==== Sys2Proof/Decode.lean ====
section
/-!
DEFINITION. The command that a word spells. The opcode table gives no row any bits: a command of this block is an
operation of a bus, a packet, a pin or an elapsed time, so no word spells one (log entry 11).
-/
namespace Sys2Proof

/-- The command that an instruction word of the table spells: none, for no row of the table has bits. -/
def decodeTableWord (_nbits _w : Nat) : Option Instr := none

end Sys2Proof
end

