-- ==== Sys2Proof/Config.lean ====
section
/-!
DEFINITION. Config: the free values. Each is a constant with no body, so nothing can be proved about the value it gives;
each is named in the assumption log.
-/
namespace Sys2Proof.Config

/-- The cycle count of a stamp (R422): how many cycles an island has counted is timing, which the model leaves out.
Applied to the free-value counter (log entry 5). -/
opaque freeStamp : Nat → BitVec 56

/-- The value v of an inter-arrival or duration event (R420): timing, left out. Applied to the free-value counter (log
entry 5). -/
opaque freeInterval : Nat → BitVec 32

/-- A byte whose content the spec leaves undefined (an output of a class F descriptor, state words after an abandoned
copy-back). Applied to the free-value counter and the address (log entry 4). -/
opaque freeByte : Nat → Nat → BitVec 8

/-- Where ACT 3 to 7 and their derivatives stand within the error that R74 allows, and what they give for an infinity: R74 speaks of a
fixed procedure that the spec does not give. First argument: the ACT code, with 16 added for the derivative (log entry 9). -/
opaque actFn : Nat → BitVec 40 → BitVec 40

/-- The same for the exponential of the drain path (R77; log entry 9). -/
opaque expFn : BitVec 40 → BitVec 40

/-- The place that a miss of the look-aside buffer replaces (R157: replacement is not given and changes only timing and the two
counters). Applied to the free-value counter (log entry 18). -/
opaque labVictim : Nat → BitVec 8

/-- The path detail of a CORRECTED or RECOVERED event (Table 18.3: "path detail", which no table lists). Applied to the source
page's number (log entry 13). -/
opaque pathDetail : Nat → BitVec 16

/-- Whether a lease that the lender answers LUNKNOWN for ended by failed memory (R236: the message does not say). Applied to the
free-value counter (log entry 19). -/
opaque lentFailed : Nat → Bool

/-- Whether flash holds what was written, when the command arrives as a plain register write, which carries no observation. Applied
to the free-value counter (log entry 8). -/
opaque flashHolds : Nat → Bool

/-- How many health tests in a row fail when nothing observes it: where key creation comes by a plain register write, and at the reseed
after 2¹⁶ requests (R366). Taken modulo 17, and applied to the free-value counter (log entry 8). -/
opaque freeFails : Nat → Nat

/-- The entropy input of the DRBG (R366): 48 bytes of the noise source. Applied to a count of the inputs so far, which no reset
restarts (log entry 8). -/
opaque entropy : Nat → BitVec 384

/-- The digest of the boot ROM (Table 16.7): the ROM is not given (log entry 8). -/
opaque bootromDig : BitVec 384

end Sys2Proof.Config
end

