-- ==== Sys2Proof/Machine/Crypto.lean ====
section
/-!
DEFINITION. CRC-32C (R284), and the primitives of the standards that Table 0.7 names (R15): SHA-384, HMAC, HKDF, HMAC_DRBG, AES-256 with its GCM,
GMAC and XTS modes, and ECDSA and ECDH on brainpoolP384r1. Byte strings are in the byte order of the standard (R3); words and
blocks are numbers, most significant byte first (log entry 108).
-/
namespace Sys2Proof

/-- The number that a byte string spells, most significant byte first. -/
def ofBE (l : List Byte) : Nat := l.foldl (fun n b => n * 256 + b.toNat) 0

/-- The `k` bytes of a number, most significant first. -/
def toBE (k n : Nat) : List Byte := (toLE k n).reverse

/-- Bytes `i` to `i + n - 1` of a byte string. -/
def part (i n : Nat) (l : List Byte) : List Byte := (l.drop i).take n

/-- Two byte strings, bit by bit. -/
def xorBytes (a b : List Byte) : List Byte := List.zipWith (fun x y => x ^^^ y) a b

/-- A text as its ASCII bytes. -/
def ascii (t : String) : List Byte := t.toList.map fun c => BitVec.ofNat 8 c.toNat

/-! ### CRC-32C (R284) -/

/-- Eight bits of the reflected division. -/
def crcStep : Nat → Nat → Nat
  | 0, c => c
  | k + 1, c => crcStep k (if c % 2 = 1 then (c / 2) ^^^ 0x82F63B78 else c / 2)

/-- CRC-32C of a byte string. -/
def crc32c (l : List Byte) : Nat := (l.foldl (fun c b => crcStep 8 (c ^^^ b.toNat)) 0xFFFFFFFF) ^^^ 0xFFFFFFFF

/-! ### SHA-384 (FIPS 180-4) -/

/-- The first half of the round constants. -/
def shaK1 : List Nat :=
  [
  0x428A2F98D728AE22, 0x7137449123EF65CD, 0xB5C0FBCFEC4D3B2F, 0xE9B5DBA58189DBBC,
  0x3956C25BF348B538, 0x59F111F1B605D019, 0x923F82A4AF194F9B, 0xAB1C5ED5DA6D8118,
  0xD807AA98A3030242, 0x12835B0145706FBE, 0x243185BE4EE4B28C, 0x550C7DC3D5FFB4E2,
  0x72BE5D74F27B896F, 0x80DEB1FE3B1696B1, 0x9BDC06A725C71235, 0xC19BF174CF692694,
  0xE49B69C19EF14AD2, 0xEFBE4786384F25E3, 0x0FC19DC68B8CD5B5, 0x240CA1CC77AC9C65,
  0x2DE92C6F592B0275, 0x4A7484AA6EA6E483, 0x5CB0A9DCBD41FBD4, 0x76F988DA831153B5,
  0x983E5152EE66DFAB, 0xA831C66D2DB43210, 0xB00327C898FB213F, 0xBF597FC7BEEF0EE4,
  0xC6E00BF33DA88FC2, 0xD5A79147930AA725, 0x06CA6351E003826F, 0x142929670A0E6E70,
  0x27B70A8546D22FFC, 0x2E1B21385C26C926, 0x4D2C6DFC5AC42AED, 0x53380D139D95B3DF,
  0x650A73548BAF63DE, 0x766A0ABB3C77B2A8, 0x81C2C92E47EDAEE6, 0x92722C851482353B]

/-- The second half of the round constants. -/
def shaK2 : List Nat :=
  [
  0xA2BFE8A14CF10364, 0xA81A664BBC423001, 0xC24B8B70D0F89791, 0xC76C51A30654BE30,
  0xD192E819D6EF5218, 0xD69906245565A910, 0xF40E35855771202A, 0x106AA07032BBD1B8,
  0x19A4C116B8D2D0C8, 0x1E376C085141AB53, 0x2748774CDF8EEB99, 0x34B0BCB5E19B48A8,
  0x391C0CB3C5C95A63, 0x4ED8AA4AE3418ACB, 0x5B9CCA4F7763E373, 0x682E6FF3D6B2B8A3,
  0x748F82EE5DEFB2FC, 0x78A5636F43172F60, 0x84C87814A1F0AB72, 0x8CC702081A6439EC,
  0x90BEFFFA23631E28, 0xA4506CEBDE82BDE9, 0xBEF9A3F7B2C67915, 0xC67178F2E372532B,
  0xCA273ECEEA26619C, 0xD186B8C721C0C207, 0xEADA7DD6CDE0EB1E, 0xF57D4F7FEE6ED178,
  0x06F067AA72176FBA, 0x0A637DC5A2C898A6, 0x113F9804BEF90DAE, 0x1B710B35131C471B,
  0x28DB77F523047D84, 0x32CAAB7B40C72493, 0x3C9EBE0A15C9BEBC, 0x431D67C49C100D4C,
  0x4CC5D4BECB3E42B6, 0x597F299CFC657E2A, 0x5FCB6FAB3AD6FAEC, 0x6C44198C4A475817]

/-- The initial hash value. -/
def shaInit : List Nat :=
  [
  0xCBBB9D5DC1059ED8, 0x629A292A367CD507, 0x9159015A3070DD17, 0x152FECD8F70E5939,
  0x67332667FFC00B31, 0x8EB44A8768581511, 0xDB0C2E0D64F98FA7, 0x47B5481DBEFA4FA4]

/-- A 64-bit word turned right. -/
def ror64 (n x : Nat) : Nat := (x >>> n) ||| ((x <<< (64 - n)) % 2 ^ 64)

/-- One round: the eight working words and the sixteen words of the schedule that lie ahead. -/
def shaRound (x : List Nat × List Nat) (k : Nat) : List Nat × List Nat :=
  match x.1, x.2 with
  | [a, b, c, d, e, f, g, h], w :: ws =>
    let t1 := h + (ror64 14 e ^^^ ror64 18 e ^^^ ror64 41 e) + ((e &&& f) ^^^ ((2 ^ 64 - 1 - e) &&& g)) + k + w
    let t2 := (ror64 28 a ^^^ ror64 34 a ^^^ ror64 39 a) + ((a &&& b) ^^^ (a &&& c) ^^^ (b &&& c))
    let w1 := ws.getD 0 0
    let w14 := ws.getD 13 0
    let next := (w + (ror64 1 w1 ^^^ ror64 8 w1 ^^^ (w1 >>> 7)) + ws.getD 8 0 +
      (ror64 19 w14 ^^^ ror64 61 w14 ^^^ (w14 >>> 6))) % 2 ^ 64
    ([(t1 + t2) % 2 ^ 64, a, b, c, (d + t1) % 2 ^ 64, e, f, g], ws ++ [next])
  | _, _ => x

/-- The pieces of `n` bytes of a byte string, at most `k` of them. -/
def pieces (n : Nat) : Nat → List Byte → List (List Byte)
  | 0, _ => []
  | k + 1, l => if l.isEmpty then [] else l.take n :: pieces n k (l.drop n)

/-- One block of 128 bytes is hashed. -/
def shaBlock (h : List Nat) (blk : List Byte) : List Nat :=
  let w := (pieces 8 16 blk).map ofBE
  List.zipWith (fun x y => (x + y) % 2 ^ 64) h ((shaK1 ++ shaK2).foldl shaRound (h, w)).1

/-- SHA-384 of a byte string: 48 bytes. -/
def sha384 (m : List Byte) : List Byte :=
  let zeros := (239 - m.length % 128) % 128
  let padded := m ++ 0x80 :: List.replicate zeros 0 ++ toBE 16 (8 * m.length)
  (((pieces 128 (m.length / 128 + 2) padded).foldl shaBlock shaInit).take 6).flatMap (toBE 8)

/-! ### HMAC, HKDF and HMAC_DRBG (RFC 5869, NIST SP 800-90A) -/

/-- HMAC with SHA-384. -/
def hmac (key m : List Byte) : List Byte :=
  let k := if 128 < key.length then sha384 key else key
  let k := k ++ List.replicate (128 - k.length) 0
  sha384 (k.map (· ^^^ 0x5C) ++ sha384 (k.map (· ^^^ 0x36) ++ m))

/-- The blocks of HKDF's expansion: `n` blocks after block `i`, whose bytes are `t`. -/
def hkdfBlocks (prk info : List Byte) : Nat → Nat → List Byte → List Byte
  | 0, _, _ => []
  | n + 1, i, t =>
    let t := hmac prk (t ++ info ++ [BitVec.ofNat 8 (i + 1)])
    t ++ hkdfBlocks prk info n (i + 1) t

/-- `n` bytes of HKDF-SHA-384 with a salt, input keying material and info; an empty salt is 48 zero bytes. -/
def hkdf (salt ikm info : List Byte) (n : Nat) : List Byte :=
  (hkdfBlocks (hmac (if salt.isEmpty then List.replicate 48 0 else salt) ikm) info (ceilDiv n 48) 0 []).take n

/-- The working state of HMAC_DRBG: Key and V. -/
structure Drbg where
  key : List Byte
  v : List Byte
deriving DecidableEq, Repr

/-- HMAC_DRBG_Update. -/
def drbgUpdate (data : List Byte) (d : Drbg) : Drbg :=
  let k := hmac d.key (d.v ++ 0 :: data)
  let v := hmac k d.v
  if data.isEmpty then ⟨k, v⟩ else
  let k := hmac k (v ++ 1 :: data)
  ⟨k, hmac k v⟩

/-- The generator is instantiated from its seed material: entropy input, nonce and personalisation string. -/
def drbgStart (seed : List Byte) : Drbg := drbgUpdate seed ⟨List.replicate 48 0, List.replicate 48 1⟩

/-- The output blocks of one request. -/
def drbgBlocks (key : List Byte) : Nat → List Byte → List Byte × List Byte
  | 0, v => ([], v)
  | n + 1, v =>
    let v := hmac key v
    let r := drbgBlocks key n v
    (v ++ r.1, r.2)

/-- One request for `n` bytes. -/
def drbgGen (n : Nat) (d : Drbg) : List Byte × Drbg :=
  let r := drbgBlocks d.key (ceilDiv n 48) d.v
  (r.1.take n, drbgUpdate [] ⟨d.key, r.2⟩)

/-! ### AES-256 (FIPS 197) -/

/-- The substitution table, sixteen entries in each number, the lowest in its low byte. -/
def aesBox : List Nat :=
  [0x76ABD7FE2B670130C56F6BF27B777C63, 0xC072A49CAFA2D4ADF04759FA7DC982CA,
   0x1531D871F1E5A534CCF73F362693FDB7, 0x75B227EBE28012079A059618C323C704,
   0x842FE329B3D63B52A05A6E1B1A2C8309, 0xCF584C4A39BECB6A5BB1FC20ED00D153,
   0xA89F3C507F02F94585334D43FBAAEFD0, 0xD2F3FF1021DAB6BCF5389D928F40A351,
   0x73195D643D7EA7C41744975FEC130CCD, 0xDB0B5EDE14B8EE4688902A22DC4F8160,
   0x79E4959162ACD3C25C2406490A3A32E0, 0x08AE7A65EAF4566CA94ED58D6D37C8E7,
   0x8A8BBD4B1F74DDE8C6B4A61C2E2578BA, 0x9E1DC186B95735610EF6034866B53E70,
   0xDF2855CEE9871E9B948ED9691198F8E1, 0x16BB54B00F2D99416842E6BF0D89A18C]

/-- A byte substituted. -/
def aesSub (x : Nat) : Nat := (aesBox.getD (x / 16) 0 >>> (8 * (x % 16))) % 256

/-- Multiplication by x in the field of AES. -/
def aesDbl (x : Nat) : Nat := if x < 128 then 2 * x else (2 * x) % 256 ^^^ 0x1B

/-- The four bytes of a column multiplied by the fixed polynomial. -/
def aesMix (a b c d : Nat) : List Nat :=
  let t := a ^^^ b ^^^ c ^^^ d
  [a ^^^ t ^^^ aesDbl (a ^^^ b), b ^^^ t ^^^ aesDbl (b ^^^ c), c ^^^ t ^^^ aesDbl (c ^^^ d), d ^^^ t ^^^ aesDbl (d ^^^ a)]

/-- The next eight words of the key schedule from the last eight. -/
def aesKey8 (rcon : Nat) (w : List (List Nat)) : List (List Nat) :=
  let x := List.zipWith (fun a b => a ^^^ b)
  let l := (w.getD 7 []).map aesSub
  let a := x (x (w.getD 0 []) (l.drop 1 ++ l.take 1)) [rcon, 0, 0, 0]
  let b := x (w.getD 1 []) a
  let c := x (w.getD 2 []) b
  let d := x (w.getD 3 []) c
  let e := x (w.getD 4 []) (d.map aesSub)
  let f := x (w.getD 5 []) e
  let g := x (w.getD 6 []) f
  [a, b, c, d, e, f, g, x (w.getD 7 []) g]

/-- `n` further steps of the key schedule. -/
def aesKeys : Nat → Nat → List (List Nat) → List (List Nat)
  | 0, _, w => w
  | n + 1, rcon, w => w ++ aesKeys n (aesDbl rcon) (aesKey8 rcon w)

/-- The fifteen round keys of a key of 32 bytes, 16 numbers each. -/
def aesRoundKeys (key : List Byte) : List (List Nat) :=
  let ws := aesKeys 7 1 ((pieces 4 8 key).map fun p => p.map BitVec.toNat)
  (List.range 15).map fun i => ((ws.drop (4 * i)).take 4).flatten

/-- Byte `i` of the state after its rows have been shifted comes from here. -/
def aesShift : List Nat := [0, 5, 10, 15, 4, 9, 14, 3, 8, 13, 2, 7, 12, 1, 6, 11]

/-- The columns of a state, mixed. -/
def aesMixAll : List Nat → List Nat
  | a :: b :: c :: d :: r => aesMix a b c d ++ aesMixAll r
  | _ => []

/-- The rounds that remain, with their keys. -/
def aesRounds : List (List Nat) → List Nat → List Nat
  | [], s => s
  | [k], s => List.zipWith (fun a b => a ^^^ b) (aesShift.map fun i => aesSub (s.getD i 0)) k
  | k :: r, s => aesRounds r (List.zipWith (fun a b => a ^^^ b) (aesMixAll (aesShift.map fun i => aesSub (s.getD i 0))) k)

/-- AES-256 of one block under its round keys. -/
def aesBlock (rk : List (List Nat)) (b : List Byte) : List Byte :=
  match rk with
  | k :: r => (aesRounds r (List.zipWith (fun a b => a ^^^ b) (b.map BitVec.toNat) k)).map (BitVec.ofNat 8)
  | [] => b

/-! ### GCM and GMAC (NIST SP 800-38D) -/

/-- One step of the product in GHASH's field: bit `i` of `x`, counted from the left. -/
def gfStep (x : Nat) (zv : Nat × Nat) (i : Nat) : Nat × Nat :=
  (if x.testBit (127 - i) then zv.1 ^^^ zv.2 else zv.1, if zv.2 % 2 = 1 then (zv.2 / 2) ^^^ 0xE1 <<< 120 else zv.2 / 2)

/-- The product in GHASH's field. -/
def gfMul (x y : Nat) : Nat := ((List.range 128).foldl (gfStep x) (0, y)).1

/-- A byte string filled up with zeros to whole blocks of 16. -/
def pad16 (l : List Byte) : List Byte := l ++ List.replicate ((16 - l.length % 16) % 16) 0

/-- GHASH of whole blocks. -/
def ghash (h : Nat) (l : List Byte) : Nat := (pieces 16 (l.length / 16) l).foldl (fun y b => gfMul (y ^^^ ofBE b) h) 0

/-- The counter block `i` of an IV of 12 bytes. -/
def gcmCtr (iv : List Byte) (i : Nat) : List Byte := iv ++ toBE 4 i

/-- A byte string under the key stream of GCM: encryption and decryption. -/
def gcmCrypt (key iv m : List Byte) : List Byte :=
  let rk := aesRoundKeys key
  (((List.range (ceilDiv m.length 16)).zip (pieces 16 (ceilDiv m.length 16) m)).flatMap fun x =>
    xorBytes x.2 (aesBlock rk (gcmCtr iv (x.1 + 2))))

/-- The tag of 16 bytes over additional data and ciphertext. -/
def gcmTag (key iv aad c : List Byte) : List Byte :=
  let rk := aesRoundKeys key
  let h := ofBE (aesBlock rk (List.replicate 16 0))
  let s := ghash h (pad16 aad ++ pad16 c ++ toBE 8 (8 * aad.length) ++ toBE 8 (8 * c.length))
  xorBytes (toBE 16 s) (aesBlock rk (gcmCtr iv 1))

/-- AES-256-GCM: the ciphertext, and its tag. -/
def gcmSeal (key iv aad m : List Byte) : List Byte × List Byte :=
  let c := gcmCrypt key iv m
  (c, gcmTag key iv aad c)

/-- AES-256-GCM: the plaintext, where the tag matches. -/
def gcmOpen (key iv aad c tag : List Byte) : Option (List Byte) :=
  if gcmTag key iv aad c = tag then some (gcmCrypt key iv c) else none

/-- GMAC: the tag over data that is not encrypted. -/
def gmac (key iv m : List Byte) : List Byte := gcmTag key iv m []

/-! ### XTS (IEEE 1619) -/

/-- The tweak of the next block: a product by the primitive element, bytes least significant first. -/
def xtsNext (t : Nat) : Nat := if t < 2 ^ 127 then 2 * t else (2 * t) % 2 ^ 128 ^^^ 0x87

/-- The blocks of a data unit under a tweak. -/
def xtsBlocks (rk : List (List Nat)) : List (List Byte) → Nat → List Byte
  | [], _ => []
  | b :: r, t => xorBytes (aesBlock rk (xorBytes b (toLE 16 t))) (toLE 16 t) ++ xtsBlocks rk r (xtsNext t)

/-- AES-256-XTS encryption of a data unit of whole blocks: data key, tweak key and the unit's number. -/
def xtsEncrypt (k1 k2 : List Byte) (unit : Nat) (m : List Byte) : List Byte :=
  xtsBlocks (aesRoundKeys k1) (pieces 16 (m.length / 16) m) (ofLE (aesBlock (aesRoundKeys k2) (toLE 16 unit)))

/-! ### brainpoolP384r1 (RFC 5639) -/

/-- The prime of the field. -/
def ecP : Nat := 0x8CB91E82A3386D280F5D6F7E50E641DF152F7109ED5456B412B1DA197FB71123ACD3A729901D1A71874700133107EC53

/-- The coefficient A of the curve. -/
def ecA : Nat := 0x7BC382C63D8C150C3C72080ACE05AFA0C2BEA28E4FB22787139165EFBA91F90F8AA5814A503AD4EB04A8C7DD22CE2826

/-- The coefficient B of the curve. -/
def ecB : Nat := 0x04A8C7DD22CE28268B39B55416F0447C2FB77DE107DCD2A62E880EA53EEB62D57CB4390295DBC9943AB78696FA504C11

/-- The order of the base point. -/
def ecQ : Nat := 0x8CB91E82A3386D280F5D6F7E50E641DF152F7109ED5456B31F166E6CAC0425A7CF3AB6AF6B7FC3103B883202E9046565

/-- The base point. -/
def ecG : Nat × Nat :=
  (0x1D1C64F068CF45FFA2A63A81B7C13F6B8847A3E77EF14FE3DB7FCAFE0CBD10E8E826E03436D646AAEF87B2E247D4AF1E,
   0x8ABE1D7520F9C2A45CB1EB8E95CFD55262B70B29FEEC5864E19C054FF99129280E4646217791811142820341263C5315)

/-- A power modulo `m`, by the exponent's bits from the left, `n` of them. -/
def powMod (m b e : Nat) : Nat → Nat
  | 0 => 1
  | n + 1 =>
    let r := powMod m b (e / 2) n
    if e % 2 = 1 then r * r % m * b % m else r * r % m

/-- The inverse modulo a prime of at most 384 bits. -/
def invMod (m a : Nat) : Nat := powMod m a (m - 2) 384

/-- A point in Jacobian coordinates; Z = 0 is the point at infinity. -/
abbrev EcPoint := Nat × Nat × Nat

/-- The double of a point. -/
def ecDouble (x : EcPoint) : EcPoint :=
  let (x, y, z) := x
  let yy := y * y % ecP
  let s := 4 * x * yy % ecP
  let zz := z * z % ecP
  let m := (3 * x * x + ecA * (zz * zz % ecP)) % ecP
  let x3 := (m * m + 2 * (ecP - s)) % ecP
  (x3, (m * (s + ecP - x3) + 8 * (ecP - yy * yy % ecP)) % ecP, 2 * y * z % ecP)

/-- The sum of two points. -/
def ecAdd (a b : EcPoint) : EcPoint :=
  let (x1, y1, z1) := a
  let (x2, y2, z2) := b
  if z1 = 0 then b else if z2 = 0 then a else
  let p := z1 * z1 % ecP
  let q := z2 * z2 % ecP
  let u1 := x1 * q % ecP
  let u2 := x2 * p % ecP
  let s1 := y1 * (z2 * q % ecP) % ecP
  let s2 := y2 * (z1 * p % ecP) % ecP
  if u1 = u2 then (if s1 = s2 then ecDouble a else (1, 1, 0)) else
  let h := (u2 + ecP - u1) % ecP
  let r := (s2 + ecP - s1) % ecP
  let hh := h * h % ecP
  let hhh := h * hh % ecP
  let v := u1 * hh % ecP
  let x3 := (r * r + (ecP - hhh) + 2 * (ecP - v)) % ecP
  (x3, (r * (v + ecP - x3) + s1 * (ecP - hhh)) % ecP, h * (z1 * z2 % ecP) % ecP)

/-- A multiple of a point, by the low `n` bits of the factor. -/
def ecMul (k : Nat) (a : EcPoint) : Nat → EcPoint
  | 0 => (1, 1, 0)
  | n + 1 =>
    let r := ecDouble (ecMul (k / 2) a n)
    if k % 2 = 1 then ecAdd r a else r

/-- The affine coordinates of a point that is not at infinity. -/
def ecAffine (a : EcPoint) : Nat × Nat :=
  let (x, y, z) := a
  let i := invMod ecP z
  let ii := i * i % ecP
  (x * ii % ecP, y * (i * ii % ecP) % ecP)

/-- An uncompressed point of 97 bytes: 0x04, X, Y (R365). -/
def ecEncode (a : Nat × Nat) : List Byte := 0x04 :: toBE 48 a.1 ++ toBE 48 a.2

/-- The point that 97 bytes encode, where it lies on the curve. -/
def ecDecode (l : List Byte) : Option EcPoint :=
  let x := ofBE (part 1 48 l)
  let y := ofBE (part 49 48 l)
  if l.length = 97 ∧ l.head? = some 0x04 ∧ x < ecP ∧ y < ecP ∧ y * y % ecP = (x * x % ecP * x + ecA * x + ecB) % ecP
  then some (x, y, 1) else none

/-- The public key of a private key. -/
def ecPub (d : Nat) : List Byte := ecEncode (ecAffine (ecMul d (ecG.1, ecG.2, 1) 384))

/-- The x-coordinate of ECDH, 48 bytes: a private key and the other side's public key. -/
def ecdhX (d : Nat) (pub : List Byte) : Option (List Byte) :=
  (ecDecode pub).map fun a => toBE 48 (ecAffine (ecMul d a 384)).1

/-- ECDSA with SHA-384: the signature r, s of 96 bytes of a message under a private key, with the per-message number `k`. -/
def ecSign (d k : Nat) (m : List Byte) : List Byte :=
  let r := (ecAffine (ecMul k (ecG.1, ecG.2, 1) 384)).1 % ecQ
  toBE 48 r ++ toBE 48 (invMod ecQ k * (ofBE (sha384 m) + r * d) % ecQ)

/-- The signature of a message verifies under a public key. -/
def ecVerify (pub m sig : List Byte) : Bool :=
  let r := ofBE (part 0 48 sig)
  let s := ofBE (part 48 48 sig)
  match ecDecode pub with
  | none => false
  | some a =>
    if sig.length ≠ 96 ∨ r = 0 ∨ ecQ ≤ r ∨ s = 0 ∨ ecQ ≤ s then false else
    let w := invMod ecQ s
    let x := ecAdd (ecMul (ofBE (sha384 m) * w % ecQ) (ecG.1, ecG.2, 1) 384) (ecMul (r * w % ecQ) a 384)
    x.2.2 != 0 && (ecAffine x).1 % ecQ == r

/-- A private key from 56 random bytes (log entry 108). -/
def ecKeyOf (l : List Byte) : Nat := ofBE l % (ecQ - 1) + 1

end Sys2Proof
end

