-- ==== Sys2Proof/Machine/Numerics.lean ====
section
/-!
DEFINITION. Numeric formats, A40 arithmetic, rounding, the Osesk generator, compensated pairs and one-pass statistics
(chapter 04). A value is exact: a NaN, an infinity, or a sign with a natural number times a power of two.
-/
namespace Sys2Proof.Machine

/-- A value: NaN, an infinity with its sign, or ± m × 2^e (m odd, or zero with e = 0, so that equal values are equal
data; zero keeps its sign). -/
inductive Val where
  | nan
  | inf (neg : Bool)
  | fin (neg : Bool) (m : Nat) (e : Int)
deriving DecidableEq, Repr

/-- +0. -/
def vZero : Val := .fin false 0 0

/-- The stored formats (Table 0.5), and A40. -/
inductive Fmt where
  | k8 | g8 | k16 | g16 | kp32 | gp32 | i8 | i16 | a40
deriving DecidableEq, Repr

/-- The format of a format code (R13). -/
def fmtOf (c : Nat) : Option Fmt :=
  match c with
  | 0 => some .k8 | 1 => some .g8 | 2 => some .k16 | 3 => some .g16 | 4 => some .kp32 | 5 => some .gp32
  | 8 => some .i8 | 9 => some .i16 | _ => none

/-- The format code of a format (R13). -/
def fmtCode : Fmt → Nat
  | .k8 => 0 | .g8 => 1 | .k16 => 2 | .g16 => 3 | .kp32 => 4 | .gp32 => 5 | .i8 => 8 | .i16 => 9 | .a40 => 15

/-- Stored bytes of an element (Table 0.5). -/
def fmtBytes : Fmt → Nat
  | .k8 | .g8 | .i8 => 1
  | .k16 | .g16 | .i16 => 2
  | .kp32 | .gp32 => 4
  | .a40 => 5

/-- The base format of a pair (R95); another format is its own. -/
def baseFmt : Fmt → Fmt
  | .kp32 => .k16 | .gp32 => .g16 | f => f

/-- The format is a compensated pair. -/
def isPair : Fmt → Bool
  | .kp32 | .gp32 => true | _ => false

/-- Precision p in significant bits (Table 4.1). -/
def fmtP : Fmt → Nat
  | .k8 => 4 | .g8 => 3 | .k16 | .kp32 => 11 | .g16 | .gp32 => 8 | .a40 => 31 | .i8 | .i16 => 0

/-- Emin (Table 4.1). -/
def fmtEmin : Fmt → Int
  | .k8 => -7 | .g8 => -14 | .k16 | .kp32 => -14 | .g16 | .gp32 => -126 | .a40 => -254 | .i8 | .i16 => 0

/-- Exponent bias (Table 4.1). -/
def fmtBias : Fmt → Int
  | .k8 => 8 | .g8 => 15 | .k16 | .kp32 => 15 | .g16 | .gp32 => 127 | .a40 => 255 | .i8 | .i16 => 0

/-- Width of the exponent field (Table 4.1). -/
def fmtEbits : Fmt → Nat
  | .k8 => 4 | .g8 => 5 | .k16 | .kp32 => 5 | .g16 | .gp32 => 8 | .a40 => 9 | .i8 | .i16 => 0

/-- Strip factors of two. -/
def stripTwo : Nat → Nat → Int → Nat × Int
  | 0, m, e => (m, e)
  | k + 1, m, e => if m % 2 = 0 then stripTwo k (m / 2) (e + 1) else (m, e)

/-- ± m × 2^e in the form that `Val` asks for. -/
def mkVal (neg : Bool) (m : Nat) (e : Int) : Val :=
  if m = 0 then .fin neg 0 0
  else let (a, b) := stripTwo (Nat.log2 m + 1) m e
    .fin neg a b

/-- The value of a stored word (R83, R84, R85); for I8 and I16 the two's-complement integer. -/
def decodeWord (f : Fmt) (w : Nat) : Val :=
  match f with
  | .i8 => let v := w % 256
    if v < 128 then mkVal false v 0 else mkVal true (256 - v) 0
  | .i16 => let v := w % 65536
    if v < 32768 then mkVal false v 0 else mkVal true (65536 - v) 0
  | _ =>
    let fb := fmtP f - 1
    let eb := fmtEbits f
    let neg := bit (fb + eb) w
    let ex := bits (fb + eb - 1) fb w
    let fr := w % 2 ^ fb
    if f = .k8 ∧ w % 256 = 0xFF then .nan
    else if ex = 0 then mkVal neg fr (fmtEmin f - fb)
    else if ex = 2 ^ eb - 1 ∧ f ≠ .k8 then (if fr = 0 then .inf neg else .nan)
    else mkVal neg (2 ^ fb + fr) ((ex : Int) - fmtBias f - fb)

/-- The word of a value that the format holds exactly; NaN is canonical (Table 4.2), and in K8 an infinity is written as
the NaN (R87). -/
def encodeWord (f : Fmt) (v : Val) : Nat :=
  let fb := fmtP f - 1
  let eb := fmtEbits f
  match f, v with
  | .i8, .fin neg m e => (if neg then 256 - m * 2 ^ e.toNat else m * 2 ^ e.toNat) % 256
  | .i16, .fin neg m e => (if neg then 65536 - m * 2 ^ e.toNat else m * 2 ^ e.toNat) % 65536
  | .i8, _ => 0
  | .i16, _ => 0
  | .k8, .nan => 0xFF
  | .k8, .inf _ => 0xFF
  | .g8, .nan => 0x7F
  | _, .nan => (2 ^ eb - 1) * 2 ^ fb + 2 ^ (fb - 1)
  | _, .inf neg => b2n neg * 2 ^ (fb + eb) + (2 ^ eb - 1) * 2 ^ fb
  | _, .fin neg m e =>
    let sg := b2n neg * 2 ^ (fb + eb)
    if m = 0 then sg
    else
      let top : Int := (Nat.log2 m : Int) + e
      if top < fmtEmin f then sg + m * 2 ^ (e - (fmtEmin f - fb)).toNat
      else sg + ((top + fmtBias f).toNat) * 2 ^ fb + (m * 2 ^ (e - (top - fb)).toNat - 2 ^ fb)

/-- The largest finite magnitude of a format for a sign (Table 4.2), as (m, e). -/
def fmtMax (f : Fmt) (neg : Bool) : Nat × Int :=
  match f with
  | .k8 => if neg then (224, 0) else (240, 0)
  | .g8 => (57344, 0)
  | .k16 | .kp32 => (65504, 0)
  | .g16 | .gp32 => (255, 120)
  | .a40 => (2 ^ 31 - 1, 225)
  | .i8 => if neg then (128, 0) else (127, 0)
  | .i16 => if neg then (32768, 0) else (32767, 0)

/-- m₁ × 2^e₁ exceeds m₂ × 2^e₂. -/
def magGt (m₁ : Nat) (e₁ : Int) (m₂ : Nat) (e₂ : Int) : Bool :=
  let e := min e₁ e₂
  decide (m₁ * 2 ^ (e₁ - e).toNat > m₂ * 2 ^ (e₂ - e).toNat)

/-- How the bits below the last place decide (R88): nearest-even, or stochastic with the 16 generator bits. -/
inductive RMode where
  | near
  | stoch (r : Nat)
deriving DecidableEq, Repr

/-- ± m × 2^e rounded to a multiple of 2^qe (R88): the units of 2^qe that result. -/
def roundUnits (mode : RMode) (m : Nat) (e qe : Int) : Nat :=
  if qe ≤ e then m * 2 ^ (e - qe).toNat
  else
    let sh := (qe - e).toNat
    let t := m / 2 ^ sh
    let rem := m % 2 ^ sh
    match mode with
    | .near => if 2 * rem > 2 ^ sh ∨ (2 * rem = 2 ^ sh ∧ t % 2 = 1) then t + 1 else t
    | .stoch r => if 65536 * rem / 2 ^ sh + r ≥ 65536 then t + 1 else t

/-- The exponent of the unit in the last place of a format at m × 2^e (R88). -/
def ulpExp (f : Fmt) (m : Nat) (e : Int) : Int :=
  match f with
  | .i8 | .i16 => 0
  | _ => max ((Nat.log2 m : Int) + e) (fmtEmin f) - fmtP f + 1

/-- A value rounded to a floating format, and whether the rounding signals overflow (R88, R89); a NaN or an infinity is
written as it is (R87). -/
def roundTo (f : Fmt) (mode : RMode) (v : Val) : Val × Bool :=
  match v with
  | .fin neg m e =>
    if m = 0 then (v, false)
    else
      let qe := ulpExp f m e
      let u := roundUnits mode m e qe
      let (mm, me) := fmtMax f neg
      if magGt u qe mm me then (.inf neg, true) else (mkVal neg u qe, false)
  | _ => (v, false)

/-- A40 nearest-even (R86); beyond the range, the infinity of the sign. -/
def roundA40 (v : Val) : Val := (roundTo .a40 .near v).1

/-- The negative. -/
def vNeg : Val → Val
  | .nan => .nan | .inf n => .inf (!n) | .fin n m e => .fin (!n) m e

/-- The exact sum of two finite values; an exact zero sum is +0 unless both are −0 (R91). -/
def finAdd (n₁ : Bool) (m₁ : Nat) (e₁ : Int) (n₂ : Bool) (m₂ : Nat) (e₂ : Int) : Val :=
  if m₁ = 0 ∧ m₂ = 0 then .fin (n₁ && n₂) 0 0
  else
    let e := min e₁ e₂
    let a := m₁ * 2 ^ (e₁ - e).toNat
    let b := m₂ * 2 ^ (e₂ - e).toNat
    if n₁ = n₂ then mkVal n₁ (a + b) e
    else if a = b then vZero
    else if a > b then mkVal n₁ (a - b) e else mkVal n₂ (b - a) e

/-- A40 addition (R86, R87). -/
def aAdd (x y : Val) : Val :=
  match x, y with
  | .nan, _ => .nan
  | _, .nan => .nan
  | .inf a, .inf b => if a = b then .inf a else .nan
  | .inf a, _ => .inf a
  | _, .inf b => .inf b
  | .fin n₁ m₁ e₁, .fin n₂ m₂ e₂ => roundA40 (finAdd n₁ m₁ e₁ n₂ m₂ e₂)

/-- A40 subtraction. -/
def aSub (x y : Val) : Val := aAdd x (vNeg y)

/-- The exact product (R86: a product of two stored operands is exact in A40). -/
def vMul (x y : Val) : Val :=
  match x, y with
  | .nan, _ => .nan
  | _, .nan => .nan
  | .inf a, .inf b => .inf (a != b)
  | .inf a, .fin n m _ => if m = 0 then .nan else .inf (a != n)
  | .fin n m _, .inf a => if m = 0 then .nan else .inf (a != n)
  | .fin n₁ m₁ e₁, .fin n₂ m₂ e₂ => if m₁ = 0 ∨ m₂ = 0 then .fin (n₁ != n₂) 0 0 else mkVal (n₁ != n₂) (m₁ * m₂) (e₁ + e₂)

/-- A40 multiplication. -/
def aMul (x y : Val) : Val := roundA40 (vMul x y)

/-- A40 division, correctly rounded: the quotient carries 70 bits and a sticky bit. -/
def aDiv (x y : Val) : Val :=
  match x, y with
  | .nan, _ => .nan
  | _, .nan => .nan
  | .inf _, .inf _ => .nan
  | .inf a, .fin n _ _ => .inf (a != n)
  | .fin n _ _, .inf a => .fin (n != a) 0 0
  | .fin n₁ m₁ e₁, .fin n₂ m₂ e₂ =>
    if m₂ = 0 then (if m₁ = 0 then .nan else .inf (n₁ != n₂))
    else if m₁ = 0 then .fin (n₁ != n₂) 0 0
    else
      let k := 70 + Nat.log2 m₂ - Nat.log2 m₁ + Nat.log2 m₁
      let q := m₁ * 2 ^ k / m₂
      let sticky := if m₁ * 2 ^ k % m₂ = 0 then 0 else 1
      roundA40 (mkVal (n₁ != n₂) (2 * q + sticky) (e₁ - e₂ - k - 1))

/-- The largest number whose square does not exceed `n`, found bit by bit from bit `k`. -/
def isqrtBits : Nat → Nat → Nat → Nat
  | 0, _, r => r
  | k + 1, n, r => let t := r + 2 ^ k
    isqrtBits k n (if t * t ≤ n then t else r)

/-- The integer square root (R125). -/
def isqrt (n : Nat) : Nat := isqrtBits (Nat.log2 n / 2 + 1) n 0

/-- A40 square root, correctly rounded; of a negative value NaN. -/
def aSqrt (x : Val) : Val :=
  match x with
  | .nan => .nan
  | .inf neg => if neg then .nan else .inf false
  | .fin neg m e =>
    if m = 0 then x
    else if neg then .nan
    else
      let k : Nat := 80 + (e % 2).toNat
      let n := m * 2 ^ k
      let q := isqrt n
      let sticky := if q * q = n then 0 else 1
      roundA40 (mkVal false (2 * q + sticky) ((e - k) / 2 - 1))

/-- A value is zero. -/
def vIsZero : Val → Bool
  | .fin _ m _ => m == 0 | _ => false

/-- A value is an infinity or a NaN. -/
def vIsSpecial : Val → Bool
  | .fin _ _ _ => false | _ => true

/-- x < y, false when either is NaN. -/
def vLt (x y : Val) : Bool :=
  match x, y with
  | .nan, _ => false
  | _, .nan => false
  | .inf a, .inf b => a && !b
  | .inf a, _ => a
  | _, .inf b => !b
  | .fin n₁ m₁ e₁, .fin n₂ m₂ e₂ =>
    if m₁ = 0 ∧ m₂ = 0 then false
    else if n₁ && !n₂ then true
    else if !n₁ && n₂ then false
    else if n₁ then magGt m₁ e₁ m₂ e₂ else magGt m₂ e₂ m₁ e₁

/-- The larger; NaN when either is NaN. -/
def vMax (x y : Val) : Val :=
  match x, y with
  | .nan, _ => .nan
  | _, .nan => .nan
  | _, _ => if vLt x y then y else x

/-- The magnitude. -/
def vAbs : Val → Val
  | .nan => .nan | .inf _ => .inf false | .fin _ m e => .fin false m e

/-- A natural number as a value. -/
def vNat (n : Nat) : Val := mkVal false n 0

/-! ### The generator (R92) -/

/-- Rotate a word left. -/
def rotl32 (y : Word) (n : Nat) : Word := (y <<< n) ||| (y >>> (32 - n))

/-- One round of the generator; the keys are added after round 3. -/
def oseskRound (k1 k2 : Word) (s : Word × Word) (i : Nat) : Word × Word :=
  let rot := match i % 4 with | 0 => 8 | 1 => 12 | 2 => 20 | _ => 4
  let x := s.1 + s.2
  let y := rotl32 s.2 rot ^^^ x
  if i = 3 then (x + k1, y + k2 + 1) else (x, y)

/-- The 16 bits that the generator gives (R92). -/
def oseskRng (seed tid idx step : Nat) : Nat :=
  let k0 := BitVec.ofNat 32 seed
  let k1 := BitVec.ofNat 32 (seed / 2 ^ 32)
  let k2 := BitVec.ofNat 32 tid
  let k3 : Word := 0x9E3779B9#32 ^^^ BitVec.ofNat 32 ((idx / 2 ^ 32 % 256) * 2 ^ 24)
  let s0 : Word × Word := (BitVec.ofNat 32 idx + k0, BitVec.ofNat 32 step + k3)
  let s := (List.range 8).foldl (oseskRound k1 k2) s0
  let x := s.1 + k3
  let y := s.2 + k0 + 2
  (x ^^^ y).toNat / 65536

/-- What the roundings of a descriptor draw on (R93): SR, seed, tensor id, step. -/
structure Rnd where
  sr : Bool
  seed : Nat
  tid : Nat
  step : Nat
deriving DecidableEq, Repr

/-- The rounding mode of element `idx`. -/
def modeAt (r : Rnd) (idx : Nat) : RMode :=
  if r.sr then .stoch (oseskRng r.seed r.tid idx r.step) else .near

/-! ### Compensated pairs (R95 to R99) -/

/-- The rounding residual of a sum (R96). -/
def twoSum (a b : Val) : Val × Val :=
  let s := aAdd a b
  let bp := aSub s a
  let ap := aSub s bp
  (s, aAdd (aSub a ap) (aSub b bp))

/-- A pair from an unevaluated sum (R96); the flag says that a rounding overflowed. `f` is the base format. -/
def pairRound (f : Fmt) (mode : RMode) (s r : Val) : Val × Val × Bool :=
  let (v, o₁) := roundTo f .near (aAdd s r)
  if o₁ then (v, vZero, true)
  else if vIsZero v || vIsSpecial v then (v, vZero, false)
  else
    let (e, o₂) := roundTo f mode (aAdd (aSub s v) r)
    (v, e, o₂)

/-- The zero that pair_round(y, 0) adds: of y's sign (R96). -/
def zeroLike : Val → Val
  | .fin n _ _ => .fin n 0 0 | .inf n => .fin n 0 0 | .nan => vZero

/-- pair_round(y, 0). -/
def pairOf (f : Fmt) (mode : RMode) (y : Val) : Val × Val × Bool := pairRound f mode y (zeroLike y)

/-- The sum of two pairs (R97). -/
def padd (f : Fmt) (a b : Val × Val) : Val × Val × Bool :=
  let (s, r) := twoSum a.1 b.1
  pairRound f .near s (aAdd r (aAdd a.2 b.2))

/-- A pair updated by an increment (R98). -/
def pupd (f : Fmt) (mode : RMode) (v e d : Val) : Val × Val × Bool :=
  let (s, r) := twoSum v d
  pairRound f mode s (aAdd r e)

/-- One level of the tree (R99): neighbours are added, an odd last part is carried up; the flag gathers overflow. -/
def treeLevel (f : Fmt) : List (Val × Val) → List (Val × Val) × Bool
  | a :: b :: r =>
    let (v, e, o) := padd f a b
    let (q, o₂) := treeLevel f r
    ((v, e) :: q, o || o₂)
  | l => (l, false)

/-- The tree over the parts (R99); the fuel is at least the number of levels. -/
def treeSum (f : Fmt) : Nat → List (Val × Val) → (Val × Val) × Bool
  | 0, l => (l.headD (vZero, vZero), false)
  | k + 1, l =>
    match l with
    | [] => ((vZero, vZero), false)
    | [a] => (a, false)
    | _ =>
      let (q, o) := treeLevel f l
      let (p, o₂) := treeSum f k q
      (p, o || o₂)

/-- The partial format of a K-split output (R99). -/
def partialFmt : Fmt → Fmt
  | .g8 | .g16 | .gp32 => .gp32
  | _ => .kp32

/-! ### Stored elements -/

/-- An element read from its little-endian bytes as one A40 value: a pair is v + e rounded once (R95). -/
def decodeElem (f : Fmt) (w : Nat) : Val :=
  if isPair f then aAdd (decodeWord (baseFmt f) (w % 65536)) (decodeWord (baseFmt f) (w / 65536))
  else decodeWord f w

/-- An element rounded to a stored format (R88, R90, R95): its word, overflow, and what the event recorder counts
(saturated, special). -/
structure Stored where
  word : Nat
  overflow : Bool
  saturated : Bool
  special : Bool
deriving DecidableEq, Repr

/-- The stored word of a value under a mode; `k8sat` is DSP_Q_NUM.K8_SAT (R89), integers saturate (R90). -/
def storeElem (f : Fmt) (k8sat : Bool) (mode : RMode) (v : Val) : Stored :=
  match f with
  | .i8 | .i16 =>
    match v with
    | .nan => ⟨0, false, false, false⟩
    | .inf neg => ⟨encodeWord f (mkVal neg (fmtMax f neg).1 0), false, true, false⟩
    | .fin neg m e =>
      let u := if m = 0 then 0 else roundUnits mode m e 0
      if u > (fmtMax f neg).1 then ⟨encodeWord f (mkVal neg (fmtMax f neg).1 0), false, true, false⟩
      else ⟨encodeWord f (mkVal neg u 0), false, false, false⟩
  | .kp32 | .gp32 =>
    let b := baseFmt f
    let (p, e, o) := pairOf b mode v
    ⟨encodeWord b p + 65536 * encodeWord b e, o, false, vIsSpecial v⟩
  | _ =>
    let (r, o) := roundTo f mode v
    if o && f == .k8 && k8sat then
      match v with
      | .fin neg _ _ => ⟨if neg then 0xFE else 0x7F, false, true, false⟩
      | _ => ⟨0xFF, false, true, false⟩
    else ⟨encodeWord f r, o, false, vIsSpecial v⟩

/-! ### One-pass mean and variance (R104, R105) -/

/-- A running record: count, mean, M2. -/
structure Welford where
  n : Nat
  mean : Val
  m2 : Val
deriving DecidableEq, Repr

/-- The empty record. -/
def welfordStart : Welford := ⟨0, vZero, vZero⟩

/-- One more value (R104). -/
def welfordAdd (w : Welford) (y : Val) : Welford :=
  if vIsSpecial y then ⟨w.n + 1, .nan, .nan⟩
  else
    let n := w.n + 1
    let delta := aSub y w.mean
    let mean := aAdd w.mean (aDiv delta (vNat n))
    ⟨n, mean, aAdd w.m2 (aMul delta (aSub y mean))⟩

/-- Two records merged (R105). -/
def welfordMerge (a b : Welford) : Welford :=
  let n := a.n + b.n
  if n = 0 then welfordStart
  else
    let delta := aSub b.mean a.mean
    let mean := aAdd a.mean (aMul delta (aDiv (vNat b.n) (vNat n)))
    let t := aDiv (aMul (vNat a.n) (vNat b.n)) (vNat n)
    ⟨n, mean, aAdd (aAdd a.m2 b.m2) (aMul (aMul delta delta) t)⟩

/-! ### Elementary functions (R74, R77)

A function of a finite value is computed with 128 bits and more than 80 correct ones, so that the A40 value nearest to the true one is known;
the value that the device's procedure gives is then free within the error that R74 allows (log entry 9). -/

/-- A number cut to 128 significant bits. -/
def hTrim (v : Val) : Val :=
  match v with
  | .fin n m e => let l := Nat.log2 m
    if l < 128 then v else .fin n (m / 2 ^ (l - 127)) (e + (l - 127))
  | _ => v

/-- A sum. -/
def hAdd (x y : Val) : Val :=
  match x, y with
  | .fin n₁ m₁ e₁, .fin n₂ m₂ e₂ => hTrim (finAdd n₁ m₁ e₁ n₂ m₂ e₂)
  | _, _ => .nan

/-- A product. -/
def hMul (x y : Val) : Val := hTrim (vMul x y)

/-- A quotient by a number that is not zero. -/
def hDiv (x y : Val) : Val :=
  match x, y with
  | .fin n₁ m₁ e₁, .fin n₂ m₂ e₂ =>
    let k := 130 + Nat.log2 m₂
    hTrim (mkVal (n₁ != n₂) (m₁ * 2 ^ k / m₂) (e₁ - e₂ - k))
  | _, _ => .nan

/-- A natural number over 10^6. -/
def hMicro (n : Nat) : Val := hDiv (mkVal false n 0) (mkVal false 1000000 0)

/-- ln 2. -/
def hLn2 : Val := mkVal false 4350955369971217654477563090224794165364344896676135745070 (-192)

/-- 1 ÷ ln 2. -/
def hInvLn2 : Val := mkVal false 9055943544797870567083544809312461607371518589544137143473 (-192)

/-- √(2/π). -/
def hGelu : Val := mkVal false 5008402561253905729789098622498677126536126712276965002674 (-192)

/-- One. -/
def hOne : Val := .fin false 1 0

/-- The nearest integer to a number. -/
def hRound (x : Val) : Int :=
  match x with
  | .fin n m e =>
    let k : Int := if 0 ≤ e then m * 2 ^ e.toNat else (m + 2 ^ ((-e).toNat - 1)) / 2 ^ (-e).toNat
    if n then -k else k
  | _ => 0

/-- A number times a power of two. -/
def hScale (x : Val) (k : Int) : Val :=
  match x with
  | .fin n m e => .fin n m (e + k)
  | _ => x

/-- An integer as a number. -/
def hInt (k : Int) : Val := mkVal (decide (k < 0)) k.natAbs 0

/-- The magnitude is below 2^k. -/
def hSmall (x : Val) (k : Int) : Bool :=
  match x with
  | .fin _ m e => m == 0 || decide ((Nat.log2 m : Int) + e < k)
  | _ => false

/-- e^x of a finite x; beyond ±2^13 a number beyond every format. -/
def hExp (x : Val) : Val :=
  if !hSmall x 13 then .fin false 1 (if vLt x vZero then -11000 else 11000) else
  let k := hRound (hMul x hInvLn2)
  let r := hAdd x (vNeg (hMul (hInt k) hLn2))
  hScale ((List.range 30).foldl (fun a i => hAdd hOne (hDiv (hMul a r) (mkVal false (30 - i) 0))) hOne) k

/-- ln(1 + y) of y from 0 to 1. -/
def hLn1 (y : Val) : Val :=
  if hSmall y (-40) then
    hAdd y (hMul (hMul y y) (hAdd (.fin true 1 (-1)) (hDiv y (mkVal false 3 0))))
  else
    let s := hDiv y (hAdd y (.fin false 1 1))
    let q := hMul s s
    hScale (hMul s ((List.range 45).foldl (fun a i => hAdd (hMul a q) (hDiv hOne (mkVal false (89 - 2 * i) 0))) vZero)) 1

/-- σ(z) = 1 ÷ (1 + e⁻ᶻ). -/
def hSigma (z : Val) : Val :=
  let y := hExp (if vLt vZero z then vNeg z else z)
  hDiv (if vLt vZero z then hOne else y) (hAdd hOne y)

/-- tanh x. -/
def hTanh (x : Val) : Val :=
  let q := hMul x x
  if hSmall x (-16) then
    hMul x (hAdd hOne (hMul q (hAdd (hDiv (.fin true 1 0) (mkVal false 3 0)) (hMul q (hAdd (hDiv (mkVal false 2 0) (mkVal false 15 0))
      (hMul q (hDiv (mkVal true 17 0) (mkVal false 315 0))))))))
  else
    let y := hExp (vNeg (hScale (vAbs x) 1))
    let t := hDiv (hAdd hOne (vNeg y)) (hAdd hOne y)
    if vLt x vZero then vNeg t else t

/-- Twice the argument of the GELU's tanh: 2 √(2/π) (z + 0.044715 z³). -/
def hGeluArg (z : Val) : Val := hScale (hMul hGelu (hMul z (hAdd hOne (hMul (hMicro 44715) (hMul z z))))) 1

/-- ACT 3 to 7 of a finite value (Table 3.9); with t = tanh u, 0.5 (1 + t) is σ(2u). -/
def actTrue (act : Nat) (z : Val) : Val :=
  match act with
  | 3 => hMul z (hSigma (hGeluArg z))
  | 4 => hMul z (hSigma z)
  | 5 => hTanh z
  | 6 => hSigma z
  | _ => hAdd (if vLt vZero z then z else vZero) (hLn1 (hExp (vNeg (vAbs z))))

/-- Their derivatives (Table 3.9); 1 − t² is 4 σ(2u) σ(−2u). -/
def derivTrue (act : Nat) (z : Val) : Val :=
  match act with
  | 3 =>
    let w := hGeluArg z
    let d := hMul hGelu (hAdd hOne (hMul (hMicro 134145) (hMul z z)))
    hMul (hSigma w) (hAdd hOne (hScale (hMul (hMul z (hSigma (vNeg w))) d) 1))
  | 4 => hMul (hSigma z) (hAdd hOne (hMul z (hSigma (vNeg z))))
  | 5 => hScale (hMul (hSigma (hScale z 1)) (hSigma (vNeg (hScale z 1)))) 2
  | 6 => hMul (hSigma z) (hSigma (vNeg z))
  | _ => hSigma z

/-- The A40 value `k` places after another in the order of the values, not beyond the largest finite one. -/
def a40Step (v : Val) (k : Int) : Val :=
  match v with
  | .fin neg m e =>
    let w : Int := encodeWord .a40 (.fin false m e)
    let n := (if neg then -w else w) + k
    let x := decodeWord .a40 (min n.natAbs (511 * 2 ^ 30 - 1))
    if n < 0 then vNeg x else x
  | _ => v

/-- A function as the device's procedure evaluates it: of a finite value, one of the A40 values within nine places of the nearest to the
true value, which are all that lie within 4 units in the last place and a few more; of an infinity a free word; NaN stays NaN (R87). `g`
is the free value. -/
def evalFn (g : BitVec 40 → BitVec 40) (f : Val → Val) (z : Val) : Val :=
  let free := (g (BitVec.ofNat 40 (encodeWord .a40 z))).toNat
  match z with
  | .nan => .nan
  | .inf _ => decodeWord .a40 free
  | _ => a40Step (roundA40 (f z)) ((free % 19 : Nat) - 9)

/-! ### Activations (R74) -/

/-- ACT(z) (Table 3.9). -/
def actVal (act : Nat) (alpha z : Val) : Val :=
  match act with
  | 0 => z
  | 1 => match z with
    | .nan => .nan
    | _ => if vLt vZero z then z else vZero
  | 2 => match z with
    | .nan => .nan
    | _ => if vLt vZero z then z else aMul alpha z
  | k => evalFn (Config.actFn k) (actTrue k) z

/-- ACT′(z) (Table 3.9). -/
def actDeriv (act : Nat) (alpha z : Val) : Val :=
  match act with
  | 0 => vNat 1
  | 1 => match z with
    | .nan => .nan
    | _ => if vLt vZero z then vNat 1 else vZero
  | 2 => match z with
    | .nan => .nan
    | _ => if vLt vZero z then vNat 1 else alpha
  | k => evalFn (Config.actFn (16 + k)) (derivTrue k) z

/-- The exponential of the drain path (R77), with the error bound of R74; of an infinity its limit (log entry 9). -/
def expVal (z : Val) : Val :=
  match z with
  | .inf true => vZero
  | .inf false => z
  | _ => evalFn Config.expFn hExp z

/-! ### Replay and shadow formats (Table 4.5) -/

/-- The replay successor. -/
def replayNext : Fmt → Option Fmt
  | .k8 => some .k16 | .g8 => some .g16 | .k16 => some .g16 | .kp32 => some .gp32 | _ => none

/-- The shadow format; none where a format is not sampled. -/
def shadowFmt : Fmt → Option Fmt
  | .k8 => some .k16 | .g8 => some .g16 | .k16 => some .kp32 | .g16 => some .gp32 | _ => none

/-- The distance of a primary result from a shadow result in ulps of the primary format (R111); none is ∞. -/
def shadowDist (f : Fmt) (y z : Val) : Option Val :=
  match y, z with
  | .nan, .nan => some vZero
  | .inf a, .inf b => if a = b then some vZero else none
  | .fin _ _ _, .fin n m e =>
    let qe := if m = 0 then fmtEmin f - fmtP f + 1 else ulpExp f m e
    some (aDiv (vAbs (aSub y (.fin n m e))) (mkVal false 1 qe))
  | _, _ => none

end Sys2Proof.Machine
end

