-- ==== Sys2Proof/Machine/RegMap.lean ====
section
/-!
DEFINITION. The register map: the kinds of page (Table 19.4), every field of every field map (Tables 1.8 to 19.3) as a
named constant, and for each kind of page the list of its fields with access code and Reset value (R6, R449).
Reserved bits belong to no field (R4).
-/
namespace Sys2Proof.Machine

/-- The access codes of R6. -/
inductive Access where
  | ro | rw | wo | w1c | rws
deriving DecidableEq, Repr

/-- A field: the byte offset of its register in the page, its highest and its lowest bit. -/
structure Fld where
  off : Nat
  hi : Nat
  lo : Nat
deriving DecidableEq, Repr

/-- The same field `k` registers further on (registers in a row lie 4 bytes apart). -/
def fldAt (f : Fld) (k : Nat) : Fld := { f with off := f.off + 4 * k }

/-- A row of a field map. `boot` marks a Reset of "–" (R449). -/
structure FieldDef where
  fld : Fld
  acc : Access
  reset : Nat
  boot : Bool
deriving DecidableEq, Repr

/-- A block of registers (Table 19.4). -/
inductive Block where
  | dev | hif | dsp | tpl | tok | prt | arr | yrd | mem | stk | lpd | mce | kvs | scn | fab | col | sec | pwr | clk
  | ras | evr | boot
deriving DecidableEq, Repr

/-- The kinds of page of Table 19.4. -/
inductive PageKind where
  | dev | hifPort | hifCh | dsp | tpl | tok | prt | prtDev | arr | yrd | memStack | memLease | memPart | stk | lpd | mce | kvs | scn | fab | col | colDev | sec | secDev | pwr | clk | clkDev | ras | evr | boot
deriving DecidableEq, Repr

/-- A page: its block and its instance (R436). -/
structure Page where
  blk : Block
  inst : Nat
deriving DecidableEq, Repr

namespace Fld

/-- Table 1.8, dev page. -/
def DEV_PART : Fld := ⟨0x100, 31, 16⟩
/-- Table 1.8, dev page. -/
def DEV_PART_STEPPING : Fld := ⟨0x100, 15, 8⟩
/-- Table 1.8, dev page. -/
def DEV_PART_MODREV : Fld := ⟨0x100, 7, 0⟩
/-- Table 1.9, dev page. -/
def DEV_INVENTORY_HOST_PORTS : Fld := ⟨0x104, 23, 22⟩
/-- Table 1.9, dev page. -/
def DEV_INVENTORY_FAB_PORTS : Fld := ⟨0x104, 21, 17⟩
/-- Table 1.9, dev page. -/
def DEV_INVENTORY_LPD_PKGS : Fld := ⟨0x104, 16, 12⟩
/-- Table 1.9, dev page. -/
def DEV_INVENTORY_STACKS : Fld := ⟨0x104, 11, 8⟩
/-- Table 1.9, dev page. -/
def DEV_INVENTORY_ARRAYS : Fld := ⟨0x104, 7, 0⟩
/-- Table 1.10, dev page. -/
def DEV_BOOT_EPOCH : Fld := ⟨0x108, 31, 0⟩
/-- Table 14.5, hifPort page. -/
def HIF_PORT_STAT : Fld := ⟨0x100, 0, 0⟩
/-- Table 14.5, hifPort page. -/
def HIF_PORT_CFG_JUMBO : Fld := ⟨0x104, 16, 16⟩
/-- Table 14.5, hifPort page. -/
def HIF_PORT_CFG_UDP_PORT : Fld := ⟨0x104, 15, 0⟩
/-- Table 14.6, hifPort page. -/
def HIF_MAC_LO : Fld := ⟨0x108, 31, 0⟩
/-- Table 14.6, hifPort page. -/
def HIF_MAC_HI : Fld := ⟨0x10c, 15, 0⟩
/-- Table 14.6, hifPort page. -/
def HIF_ADDR : Fld := ⟨0x110, 31, 0⟩
/-- Table 14.7, hifPort page. -/
def HIF_RX_FRAMES : Fld := ⟨0x120, 31, 0⟩
/-- Table 14.7, hifPort page. -/
def HIF_RX_DROP : Fld := ⟨0x124, 31, 0⟩
/-- Table 14.7, hifPort page. -/
def HIF_TX_FRAMES : Fld := ⟨0x128, 31, 0⟩
/-- Table 14.8, hifCh page. -/
def HIF_CH_CFG_IDLE_S : Fld := ⟨0x100, 15, 8⟩
/-- Table 14.8, hifCh page. -/
def HIF_CH_CFG_PART : Fld := ⟨0x100, 4, 1⟩
/-- Table 14.8, hifCh page. -/
def HIF_CH_CFG_ENABLE : Fld := ⟨0x100, 0, 0⟩
/-- Table 14.8, hifCh page. -/
def HIF_CH_KEYDIG : Fld := ⟨0x104, 31, 0⟩
/-- Table 14.8, hifCh page. -/
def HIF_SESS_POL_LOST_MS : Fld := ⟨0x134, 31, 16⟩
/-- Table 14.8, hifCh page. -/
def HIF_SESS_POL_RTO_US : Fld := ⟨0x134, 15, 0⟩
/-- Table 14.8, hifCh page. -/
def HIF_CH_SID : Fld := ⟨0x138, 31, 0⟩
/-- Table 14.9, hifCh page. -/
def HIF_CH_STAT : Fld := ⟨0x13c, 1, 0⟩
/-- Table 14.9, hifCh page. -/
def HIF_CH_AUTH_FAIL : Fld := ⟨0x140, 31, 0⟩
/-- Table 14.9, hifCh page. -/
def HIF_CH_RESENDS : Fld := ⟨0x144, 31, 0⟩
/-- Table 14.9, hifCh page. -/
def HIF_CH_NOROOM : Fld := ⟨0x148, 31, 0⟩
/-- Table 14.9, hifCh page. -/
def HIF_CH_NOTIFY_DROP : Fld := ⟨0x14c, 31, 0⟩
/-- Table 14.9, hifCh page. -/
def HIF_CH_LOST : Fld := ⟨0x150, 31, 0⟩
/-- Table 2.11, dsp page. -/
def DSP_Q_BASE_LO : Fld := ⟨0x100, 31, 12⟩
/-- Table 2.12, dsp page. -/
def DSP_Q_BASE_HI : Fld := ⟨0x104, 15, 0⟩
/-- Table 2.13, dsp page. -/
def DSP_Q_SIZE : Fld := ⟨0x108, 4, 0⟩
/-- Table 2.14, dsp page. -/
def DSP_Q_SEED_LO : Fld := ⟨0x10c, 31, 0⟩
/-- Table 2.14, dsp page. -/
def DSP_Q_SEED_HI : Fld := ⟨0x110, 31, 0⟩
/-- Table 2.15, dsp page. -/
def DSP_Q_TAIL : Fld := ⟨0x114, 11, 0⟩
/-- Table 2.16, dsp page. -/
def DSP_Q_HEAD_HEAD_DESC : Fld := ⟨0x118, 27, 12⟩
/-- Table 2.16, dsp page. -/
def DSP_Q_HEAD_HEAD_ENTRY : Fld := ⟨0x118, 11, 0⟩
/-- Table 2.17, dsp page. -/
def DSP_Q_CTRL_FLUSH : Fld := ⟨0x11c, 2, 2⟩
/-- Table 2.17, dsp page. -/
def DSP_Q_CTRL_RESUME : Fld := ⟨0x11c, 1, 1⟩
/-- Table 2.17, dsp page. -/
def DSP_Q_CTRL_RUN : Fld := ⟨0x11c, 0, 0⟩
/-- Table 2.18, dsp page. -/
def DSP_Q_STAT_HOLD_CODE : Fld := ⟨0x120, 15, 8⟩
/-- Table 2.18, dsp page. -/
def DSP_Q_STAT_QSTATE : Fld := ⟨0x120, 2, 0⟩
/-- Table 2.19, dsp page. -/
def DSP_Q_HOLD_AT_DESC : Fld := ⟨0x124, 27, 12⟩
/-- Table 2.19, dsp page. -/
def DSP_Q_HOLD_AT_ENTRY : Fld := ⟨0x124, 11, 0⟩
/-- Table 2.20, dsp page. -/
def DSP_Q_INFLIGHT : Fld := ⟨0x128, 8, 0⟩
/-- Table 2.20, dsp page. -/
def DSP_Q_ISSUED : Fld := ⟨0x12c, 31, 0⟩
/-- Table 4.8, dsp page. -/
def DSP_Q_NUM_RLOG_LOG2 : Fld := ⟨0x130, 19, 16⟩
/-- Table 4.8, dsp page. -/
def DSP_Q_NUM_SHADOW_THR : Fld := ⟨0x130, 15, 8⟩
/-- Table 4.8, dsp page. -/
def DSP_Q_NUM_SHADOW_LOG2 : Fld := ⟨0x130, 7, 4⟩
/-- Table 4.8, dsp page. -/
def DSP_Q_NUM_K8_SAT : Fld := ⟨0x130, 0, 0⟩
/-- Table 4.9, dsp page. -/
def DSP_Q_RLOG_LO : Fld := ⟨0x134, 31, 4⟩
/-- Table 4.9, dsp page. -/
def DSP_Q_RLOG_HI : Fld := ⟨0x138, 15, 0⟩
/-- Table 4.10, dsp page. -/
def DSP_Q_RLOG_WR : Fld := ⟨0x13c, 31, 0⟩
/-- Table 5.8, dsp page. -/
def DSP_Q_PIN : Fld := ⟨0x140, 31, 0⟩
/-- Table 5.9, dsp page. -/
def DSP_Q_PLAN_GB : Fld := ⟨0x154, 29, 22⟩
/-- Table 5.9, dsp page. -/
def DSP_Q_PLAN_GC : Fld := ⟨0x154, 21, 14⟩
/-- Table 5.9, dsp page. -/
def DSP_Q_PLAN_GR : Fld := ⟨0x154, 13, 6⟩
/-- Table 5.9, dsp page. -/
def DSP_Q_PLAN_L : Fld := ⟨0x154, 5, 0⟩
/-- Table 5.10, dsp page. -/
def DSP_Q_PLAN_SHAPE_G : Fld := ⟨0x158, 15, 8⟩
/-- Table 5.10, dsp page. -/
def DSP_Q_PLAN_SHAPE_NT_CODE : Fld := ⟨0x158, 6, 4⟩
/-- Table 5.10, dsp page. -/
def DSP_Q_PLAN_SHAPE_MT_CODE : Fld := ⟨0x158, 2, 0⟩
/-- Table 5.11, dsp page. -/
def DSP_Q_PLAN_KP : Fld := ⟨0x15c, 24, 0⟩
/-- Table 5.12, dsp page. -/
def DSP_Q_PLAN_SEQ : Fld := ⟨0x160, 31, 0⟩
/-- Table 5.13, dsp page. -/
def DSP_Q_PIN_OVR : Fld := ⟨0x164, 31, 0⟩
/-- Table 5.14, tpl page. -/
def TPL_STATE_CLEAR : Fld := ⟨0x100, 8, 8⟩
/-- Table 5.14, tpl page. -/
def TPL_STATE_QUEUE : Fld := ⟨0x100, 7, 4⟩
/-- Table 5.14, tpl page. -/
def TPL_STATE_BUSY : Fld := ⟨0x100, 0, 0⟩
/-- Table 5.15, tpl page. -/
def TPL_PLANNED : Fld := ⟨0x104, 31, 0⟩
/-- Table 5.15, tpl page. -/
def TPL_ITEMS : Fld := ⟨0x108, 31, 0⟩
/-- Table 5.15, tpl page. -/
def TPL_SPLIT : Fld := ⟨0x10c, 31, 0⟩
/-- Table 5.15, tpl page. -/
def TPL_AFF_FEED : Fld := ⟨0x110, 31, 0⟩
/-- Table 5.15, tpl page. -/
def TPL_AFF_SLICE : Fld := ⟨0x114, 31, 0⟩
/-- Table 5.15, tpl page. -/
def TPL_AFF_NONE : Fld := ⟨0x118, 31, 0⟩
/-- Table 5.15, tpl page. -/
def TPL_DELIVERIES : Fld := ⟨0x11c, 31, 0⟩
/-- Table 2.21, tok page. -/
def TOK_SAT_CNT : Fld := ⟨0x100, 31, 0⟩
/-- Table 2.22, tok page. -/
def TOK_REFUSED_KIND : Fld := ⟨0x104, 17, 17⟩
/-- Table 2.22, tok page. -/
def TOK_REFUSED_PART : Fld := ⟨0x104, 16, 13⟩
/-- Table 2.22, tok page. -/
def TOK_REFUSED_TOKEN : Fld := ⟨0x104, 12, 0⟩
/-- Table 15.7, prt page. -/
def PRT_CMD_OP : Fld := ⟨0x100, 3, 0⟩
/-- Table 15.7, prt page. -/
def PRT_CMD_STAT_CODE : Fld := ⟨0x104, 15, 8⟩
/-- Table 15.7, prt page. -/
def PRT_CMD_STAT_IGNORED : Fld := ⟨0x104, 1, 1⟩
/-- Table 15.7, prt page. -/
def PRT_CMD_STAT_BUSY : Fld := ⟨0x104, 0, 0⟩
/-- Table 15.8, prt page. -/
def PRT_STAT_G : Fld := ⟨0x108, 23, 16⟩
/-- Table 15.8, prt page. -/
def PRT_STAT_LEAVING : Fld := ⟨0x108, 15, 8⟩
/-- Table 15.8, prt page. -/
def PRT_STAT_STATE : Fld := ⟨0x108, 2, 0⟩
/-- Table 15.9, prt page. -/
def PRT_ARR : Fld := ⟨0x10c, 31, 0⟩
/-- Table 15.10, prt page. -/
def PRT_TOK_COUNT : Fld := ⟨0x120, 29, 16⟩
/-- Table 15.10, prt page. -/
def PRT_TOK_FIRST : Fld := ⟨0x120, 12, 0⟩
/-- Table 15.10, prt page. -/
def PRT_SAVE : Fld := ⟨0x124, 20, 0⟩
/-- Table 15.10, prt page. -/
def PRT_SCR_LIVE : Fld := ⟨0x128, 16, 0⟩
/-- Table 15.11, prt page. -/
def PRT_SUSP_CACHE : Fld := ⟨0x12c, 31, 16⟩
/-- Table 15.11, prt page. -/
def PRT_SUSP_SCR_COUNT : Fld := ⟨0x12c, 8, 4⟩
/-- Table 15.11, prt page. -/
def PRT_SUSP_SCR_FIRST : Fld := ⟨0x12c, 3, 0⟩
/-- Table 15.12, prt page. -/
def PRT_SW_CYC : Fld := ⟨0x130, 31, 0⟩
/-- Table 15.12, prt page. -/
def PRT_SUSPENDS : Fld := ⟨0x134, 31, 0⟩
/-- Table 15.12, prt page. -/
def PRT_TEARDOWNS : Fld := ⟨0x138, 31, 0⟩
/-- Table 15.13, prtDev page. -/
def PRT_EXT_CMD_PART : Fld := ⟨0x100, 7, 4⟩
/-- Table 15.13, prtDev page. -/
def PRT_EXT_CMD_OP : Fld := ⟨0x100, 3, 0⟩
/-- Table 15.13, prtDev page. -/
def PRT_EXT_ARG_COUNT : Fld := ⟨0x104, 26, 16⟩
/-- Table 15.13, prtDev page. -/
def PRT_EXT_ARG_FIRST : Fld := ⟨0x104, 10, 0⟩
/-- Table 15.13, prtDev page. -/
def PRT_EXT_STAT_CODE : Fld := ⟨0x108, 15, 8⟩
/-- Table 15.13, prtDev page. -/
def PRT_EXT_STAT_IGNORED : Fld := ⟨0x108, 1, 1⟩
/-- Table 15.13, prtDev page. -/
def PRT_EXT_STAT_BUSY : Fld := ⟨0x108, 0, 0⟩
/-- Table 15.14, prtDev page. -/
def PRT_EXT_QUERY_KIND : Fld := ⟨0x10c, 23, 20⟩
/-- Table 15.14, prtDev page. -/
def PRT_EXT_QUERY_OWNER : Fld := ⟨0x10c, 19, 16⟩
/-- Table 15.14, prtDev page. -/
def PRT_EXT_QUERY_EXTENT : Fld := ⟨0x10c, 10, 0⟩
/-- Table 15.14, prtDev page. -/
def PRT_EXIST : Fld := ⟨0x110, 15, 0⟩
/-- Table 3.10, arr page. -/
def ARR_STATE_STAGING_FREE : Fld := ⟨0x100, 11, 8⟩
/-- Table 3.10, arr page. -/
def ARR_STATE_ACTIVITY : Fld := ⟨0x100, 2, 0⟩
/-- Table 3.11, arr page. -/
def ARR_CNT_CTRL_CLEAR : Fld := ⟨0x104, 1, 1⟩
/-- Table 3.11, arr page. -/
def ARR_CNT_CTRL_SNAP : Fld := ⟨0x104, 0, 0⟩
/-- Table 3.12, arr page. -/
def ARR_RUN_CYC : Fld := ⟨0x108, 31, 0⟩
/-- Table 3.12, arr page. -/
def ARR_BUSY_CNT : Fld := ⟨0x110, 31, 0⟩
/-- Table 3.12, arr page. -/
def ARR_FREEZE_CNT : Fld := ⟨0x118, 31, 0⟩
/-- Table 3.12, arr page. -/
def ARR_FREEZE_FEED : Fld := ⟨0x120, 31, 0⟩
/-- Table 3.12, arr page. -/
def ARR_FREEZE_DRAIN : Fld := ⟨0x128, 31, 0⟩
/-- Table 3.12, arr page. -/
def ARR_STALL_CNT : Fld := ⟨0x130, 31, 0⟩
/-- Table 3.12, arr page. -/
def ARR_MAC_CNT : Fld := ⟨0x138, 31, 0⟩
/-- Table 3.12, arr page. -/
def ARR_TILE_CNT : Fld := ⟨0x140, 31, 0⟩
/-- Table 3.12, arr page. -/
def ARR_RUN_CNT : Fld := ⟨0x148, 31, 0⟩
/-- Table 10.19, yrd page. -/
def YRD_WAYS_MODE3 : Fld := ⟨0x100, 29, 28⟩
/-- Table 10.19, yrd page. -/
def YRD_WAYS_OWNER3 : Fld := ⟨0x100, 27, 24⟩
/-- Table 10.19, yrd page. -/
def YRD_WAYS_MODE2 : Fld := ⟨0x100, 21, 20⟩
/-- Table 10.19, yrd page. -/
def YRD_WAYS_OWNER2 : Fld := ⟨0x100, 19, 16⟩
/-- Table 10.19, yrd page. -/
def YRD_WAYS_MODE1 : Fld := ⟨0x100, 13, 12⟩
/-- Table 10.19, yrd page. -/
def YRD_WAYS_OWNER1 : Fld := ⟨0x100, 11, 8⟩
/-- Table 10.19, yrd page. -/
def YRD_WAYS_MODE0 : Fld := ⟨0x100, 5, 4⟩
/-- Table 10.19, yrd page. -/
def YRD_WAYS_OWNER0 : Fld := ⟨0x100, 3, 0⟩
/-- Table 10.20, yrd page. -/
def YRD_STAT : Fld := ⟨0x110, 15, 0⟩
/-- Table 10.20, yrd page. -/
def YRD_HIT : Fld := ⟨0x114, 31, 0⟩
/-- Table 10.20, yrd page. -/
def YRD_MISS : Fld := ⟨0x118, 31, 0⟩
/-- Table 10.20, yrd page. -/
def YRD_INVAL : Fld := ⟨0x11c, 31, 0⟩
/-- Table 10.9, memStack page. -/
def MEM_STACK_STAT_HELD_PC : Fld := ⟨0x100, 23, 16⟩
/-- Table 10.9, memStack page. -/
def MEM_STACK_STAT_FAILED_PC : Fld := ⟨0x100, 15, 8⟩
/-- Table 10.9, memStack page. -/
def MEM_STACK_STAT_FAILED : Fld := ⟨0x100, 1, 1⟩
/-- Table 10.9, memStack page. -/
def MEM_STACK_STAT_TRAINED : Fld := ⟨0x100, 0, 0⟩
/-- Table 10.10, memStack page. -/
def MEM_PC_HELD_LO : Fld := ⟨0x104, 31, 0⟩
/-- Table 10.10, memStack page. -/
def MEM_PC_HELD_HI : Fld := ⟨0x108, 31, 0⟩
/-- Table 10.10, memStack page. -/
def MEM_PC_FAIL_LO : Fld := ⟨0x10c, 31, 0⟩
/-- Table 10.10, memStack page. -/
def MEM_PC_FAIL_HI : Fld := ⟨0x110, 31, 0⟩
/-- Table 10.11, memStack page. -/
def MEM_RETRAIN_POL_FORCE_THR : Fld := ⟨0x114, 31, 24⟩
/-- Table 10.11, memStack page. -/
def MEM_RETRAIN_POL_MIN_GAP_MS : Fld := ⟨0x114, 15, 2⟩
/-- Table 10.11, memStack page. -/
def MEM_RETRAIN_POL_DEFER : Fld := ⟨0x114, 0, 0⟩
/-- Table 10.12, memStack page. -/
def MEM_RETRAIN_CNT : Fld := ⟨0x118, 31, 0⟩
/-- Table 10.12, memStack page. -/
def MEM_FORCED_CNT : Fld := ⟨0x11c, 31, 0⟩
/-- Table 10.12, memStack page. -/
def MEM_HOLD_MAX : Fld := ⟨0x120, 23, 0⟩
/-- Table 10.13, memLease page. -/
def MEM_LEASE_CFG_GRACE_10MS : Fld := ⟨0x100, 31, 20⟩
/-- Table 10.13, memLease page. -/
def MEM_LEASE_CFG_LOST_MS : Fld := ⟨0x100, 19, 8⟩
/-- Table 10.13, memLease page. -/
def MEM_LEASE_CFG_KEEP_MS : Fld := ⟨0x100, 7, 0⟩
/-- Table 10.14, memLease page. -/
def MEM_LEND_STAT_LENT : Fld := ⟨0x104, 26, 16⟩
/-- Table 10.14, memLease page. -/
def MEM_LEND_STAT_LENDABLE : Fld := ⟨0x104, 10, 0⟩
/-- Table 10.14, memLease page. -/
def MEM_LEASE_HELD : Fld := ⟨0x108, 12, 0⟩
/-- Table 10.14, memLease page. -/
def MEM_RECLAIM_GO : Fld := ⟨0x10c, 31, 31⟩
/-- Table 10.14, memLease page. -/
def MEM_RECLAIM_PEER : Fld := ⟨0x10c, 14, 0⟩
/-- Table 10.14, memLease page. -/
def MEM_LEASE_REFUSED : Fld := ⟨0x110, 31, 0⟩
/-- Table 10.14, memLease page. -/
def MEM_LEASE_LOST : Fld := ⟨0x114, 31, 0⟩
/-- Table 10.14, memLease page. -/
def MEM_LEASE_DROP : Fld := ⟨0x118, 31, 0⟩
/-- Table 10.15, memPart page. -/
def MEM_REG_DEPTH : Fld := ⟨0x100, 23, 12⟩
/-- Table 10.15, memPart page. -/
def MEM_REG_RATE : Fld := ⟨0x100, 8, 0⟩
/-- Table 10.16, memPart page. -/
def MEM_WIN_COUNT : Fld := ⟨0x12c, 24, 12⟩
/-- Table 10.16, memPart page. -/
def MEM_WIN_FIRST : Fld := ⟨0x12c, 11, 0⟩
/-- Table 10.17, memPart page. -/
def MEM_REG_WAIT : Fld := ⟨0x130, 31, 0⟩
/-- Table 10.17, memPart page. -/
def MEM_LEASE_SLOTS : Fld := ⟨0x134, 12, 0⟩
/-- Table 11.10, stk page. -/
def STK_STATE_COPYBACK : Fld := ⟨0x100, 19, 16⟩
/-- Table 11.10, stk page. -/
def STK_STATE_WAITING : Fld := ⟨0x100, 15, 8⟩
/-- Table 11.10, stk page. -/
def STK_STATE_ACTIVE : Fld := ⟨0x100, 3, 0⟩
/-- Table 11.11, stk page. -/
def STK_CNT_CTRL_CLEAR : Fld := ⟨0x104, 1, 1⟩
/-- Table 11.11, stk page. -/
def STK_CNT_CTRL_SNAP : Fld := ⟨0x104, 0, 0⟩
/-- Table 11.12, stk page. -/
def STK_OPS : Fld := ⟨0x108, 31, 0⟩
/-- Table 11.12, stk page. -/
def STK_DESC : Fld := ⟨0x110, 31, 0⟩
/-- Table 11.12, stk page. -/
def STK_RD_BYTES : Fld := ⟨0x118, 31, 0⟩
/-- Table 11.12, stk page. -/
def STK_WR_BYTES : Fld := ⟨0x120, 31, 0⟩
/-- Table 11.12, stk page. -/
def STK_SVC_BYTES : Fld := ⟨0x128, 31, 0⟩
/-- Table 11.12, stk page. -/
def STK_HOLD_BYTES : Fld := ⟨0x130, 31, 0⟩
/-- Table 10.18, lpd page. -/
def LPD_STAT_HELD : Fld := ⟨0x100, 15, 12⟩
/-- Table 10.18, lpd page. -/
def LPD_STAT_FAILED_CH : Fld := ⟨0x100, 11, 8⟩
/-- Table 10.18, lpd page. -/
def LPD_STAT_FAILED : Fld := ⟨0x100, 1, 1⟩
/-- Table 10.18, lpd page. -/
def LPD_STAT_TRAINED : Fld := ⟨0x100, 0, 0⟩
/-- Table 10.18, lpd page. -/
def LPD_RETRAIN_POL_FORCE_THR : Fld := ⟨0x104, 31, 24⟩
/-- Table 10.18, lpd page. -/
def LPD_RETRAIN_POL_MIN_GAP_MS : Fld := ⟨0x104, 15, 2⟩
/-- Table 10.18, lpd page. -/
def LPD_RETRAIN_POL_DEFER : Fld := ⟨0x104, 0, 0⟩
/-- Table 10.18, lpd page. -/
def LPD_RETRAIN_CNT : Fld := ⟨0x108, 31, 0⟩
/-- Table 10.18, lpd page. -/
def LPD_FORCED_CNT : Fld := ⟨0x10c, 31, 0⟩
/-- Table 10.18, lpd page. -/
def LPD_REFRESH_MR4 : Fld := ⟨0x110, 15, 8⟩
/-- Table 10.18, lpd page. -/
def LPD_REFRESH_MULT : Fld := ⟨0x110, 1, 0⟩
/-- Table 16.16, mce page. -/
def MCE_STAT_LPDDR : Fld := ⟨0x100, 2, 2⟩
/-- Table 16.16, mce page. -/
def MCE_STAT_REFUSING : Fld := ⟨0x100, 1, 1⟩
/-- Table 16.16, mce page. -/
def MCE_STAT_ENABLED : Fld := ⟨0x100, 0, 0⟩
/-- Table 16.16, mce page. -/
def MCE_FAIL_LO : Fld := ⟨0x104, 31, 9⟩
/-- Table 16.16, mce page. -/
def MCE_FAIL_HI : Fld := ⟨0x108, 15, 0⟩
/-- Table 16.16, mce page. -/
def MCE_INTEG_FAIL : Fld := ⟨0x10c, 31, 0⟩
/-- Table 16.16, mce page. -/
def MCE_STALE : Fld := ⟨0x110, 31, 0⟩
/-- Table 16.16, mce page. -/
def MCE_SWEPT : Fld := ⟨0x114, 31, 0⟩
/-- Table 16.16, mce page. -/
def MCE_RETAG : Fld := ⟨0x118, 31, 0⟩
/-- Table 16.16, mce page. -/
def MCE_NODE_FAIL : Fld := ⟨0x11c, 31, 0⟩
/-- Table 7.14, kvs page. -/
def KVS_STAB_LO : Fld := ⟨0x100, 31, 6⟩
/-- Table 7.14, kvs page. -/
def KVS_STAB_HI : Fld := ⟨0x104, 15, 0⟩
/-- Table 7.15, kvs page. -/
def KVS_GEOM_LOG2_FRAMES : Fld := ⟨0x108, 20, 16⟩
/-- Table 7.15, kvs page. -/
def KVS_GEOM_DH_CODE : Fld := ⟨0x108, 10, 8⟩
/-- Table 7.15, kvs page. -/
def KVS_GEOM_LOG2_STREAMS : Fld := ⟨0x108, 4, 0⟩
/-- Table 7.16, kvs page. -/
def KVS_AREA_LO : Fld := ⟨0x10c, 31, 12⟩
/-- Table 7.16, kvs page. -/
def KVS_AREA_HI : Fld := ⟨0x110, 15, 0⟩
/-- Table 7.17, kvs page. -/
def KVS_CMD_STREAM : Fld := ⟨0x114, 31, 16⟩
/-- Table 7.17, kvs page. -/
def KVS_CMD_OP : Fld := ⟨0x114, 3, 0⟩
/-- Table 7.17, kvs page. -/
def KVS_CMD_ARG_LO : Fld := ⟨0x118, 31, 0⟩
/-- Table 7.17, kvs page. -/
def KVS_CMD_ARG_HI : Fld := ⟨0x11c, 31, 0⟩
/-- Table 7.18, kvs page. -/
def KVS_CMD_STAT_CODE : Fld := ⟨0x120, 15, 8⟩
/-- Table 7.18, kvs page. -/
def KVS_CMD_STAT_IGNORED : Fld := ⟨0x120, 1, 1⟩
/-- Table 7.18, kvs page. -/
def KVS_CMD_STAT_BUSY : Fld := ⟨0x120, 0, 0⟩
/-- Table 7.19, kvs page. -/
def KVS_FREE : Fld := ⟨0x124, 22, 0⟩
/-- Table 7.19, kvs page. -/
def KVS_FRAMES : Fld := ⟨0x128, 22, 0⟩
/-- Table 7.19, kvs page. -/
def KVS_POOL : Fld := ⟨0x12c, 22, 0⟩
/-- Table 7.19, kvs page. -/
def KVS_OPEN : Fld := ⟨0x130, 16, 0⟩
/-- Table 7.19, kvs page. -/
def KVS_LAST_FAIL : Fld := ⟨0x134, 31, 0⟩
/-- Table 7.19, kvs page. -/
def KVS_LAB_HIT : Fld := ⟨0x138, 31, 0⟩
/-- Table 7.19, kvs page. -/
def KVS_LAB_MISS : Fld := ⟨0x13c, 31, 0⟩
/-- Table 7.19, kvs page. -/
def KVS_EVICT_SCORE : Fld := ⟨0x140, 31, 0⟩
/-- Table 7.19, kvs page. -/
def KVS_EVICT_AGE : Fld := ⟨0x144, 31, 0⟩
/-- Table 7.19, kvs page. -/
def KVS_PARKS : Fld := ⟨0x148, 31, 0⟩
/-- Table 7.19, kvs page. -/
def KVS_APPENDED : Fld := ⟨0x14c, 31, 0⟩
/-- Table 8.12, scn page. -/
def SCN_STAB_LO : Fld := ⟨0x100, 31, 5⟩
/-- Table 8.12, scn page. -/
def SCN_STAB_HI : Fld := ⟨0x104, 15, 0⟩
/-- Table 8.13, scn page. -/
def SCN_GEOM_HM1 : Fld := ⟨0x108, 19, 16⟩
/-- Table 8.13, scn page. -/
def SCN_GEOM_SFMT : Fld := ⟨0x108, 15, 15⟩
/-- Table 8.13, scn page. -/
def SCN_GEOM_P_CODE : Fld := ⟨0x108, 14, 12⟩
/-- Table 8.13, scn page. -/
def SCN_GEOM_N_CODE : Fld := ⟨0x108, 10, 8⟩
/-- Table 8.13, scn page. -/
def SCN_GEOM_LOG2_STREAMS : Fld := ⟨0x108, 4, 0⟩
/-- Table 8.14, scn page. -/
def SCN_SLOTS : Fld := ⟨0x10c, 12, 0⟩
/-- Table 8.15, scn page. -/
def SCN_AREA_LO : Fld := ⟨0x110, 31, 12⟩
/-- Table 8.15, scn page. -/
def SCN_AREA_HI : Fld := ⟨0x114, 15, 0⟩
/-- Table 8.16, scn page. -/
def SCN_CMD_STREAM : Fld := ⟨0x118, 31, 12⟩
/-- Table 8.16, scn page. -/
def SCN_CMD_OP : Fld := ⟨0x118, 3, 0⟩
/-- Table 8.16, scn page. -/
def SCN_CMD_STAT_CODE : Fld := ⟨0x11c, 15, 8⟩
/-- Table 8.16, scn page. -/
def SCN_CMD_STAT_IGNORED : Fld := ⟨0x11c, 1, 1⟩
/-- Table 8.16, scn page. -/
def SCN_CMD_STAT_BUSY : Fld := ⟨0x11c, 0, 0⟩
/-- Table 8.17, scn page. -/
def SCN_RESIDENT : Fld := ⟨0x120, 12, 0⟩
/-- Table 8.17, scn page. -/
def SCN_REFD : Fld := ⟨0x124, 12, 0⟩
/-- Table 8.17, scn page. -/
def SCN_OPEN : Fld := ⟨0x128, 20, 0⟩
/-- Table 8.17, scn page. -/
def SCN_SWAP_IN : Fld := ⟨0x12c, 31, 0⟩
/-- Table 8.17, scn page. -/
def SCN_SWAP_OUT : Fld := ⟨0x130, 31, 0⟩
/-- Table 8.17, scn page. -/
def SCN_SWAP_WAIT : Fld := ⟨0x134, 31, 0⟩
/-- Table 8.17, scn page. -/
def SCN_ADMIT_WAIT : Fld := ⟨0x138, 31, 0⟩
/-- Table 8.17, scn page. -/
def SCN_STEPS : Fld := ⟨0x13c, 31, 0⟩
/-- Table 13.15, fab page. -/
def FAB_LINK_STAT_PARTNER_ID : Fld := ⟨0x100, 22, 8⟩
/-- Table 13.15, fab page. -/
def FAB_LINK_STAT_AUTHED : Fld := ⟨0x100, 7, 7⟩
/-- Table 13.15, fab page. -/
def FAB_LINK_STAT_KIND : Fld := ⟨0x100, 5, 4⟩
/-- Table 13.15, fab page. -/
def FAB_LINK_STAT_STATE : Fld := ⟨0x100, 2, 0⟩
/-- Table 13.16, fab page. -/
def FAB_PARTNER_CTX : Fld := ⟨0x104, 31, 16⟩
/-- Table 13.16, fab page. -/
def FAB_PARTNER_CAPS : Fld := ⟨0x104, 11, 8⟩
/-- Table 13.16, fab page. -/
def FAB_PARTNER_SEGS : Fld := ⟨0x104, 4, 0⟩
/-- Table 13.17, fab page. -/
def FAB_LINK_POL_ERR_THR : Fld := ⟨0x108, 31, 24⟩
/-- Table 13.17, fab page. -/
def FAB_LINK_POL_MIN_GAP_S : Fld := ⟨0x108, 23, 16⟩
/-- Table 13.17, fab page. -/
def FAB_LINK_POL_REPLAY_TO_US : Fld := ⟨0x108, 15, 8⟩
/-- Table 13.17, fab page. -/
def FAB_LINK_POL_DEFER : Fld := ⟨0x108, 0, 0⟩
/-- Table 13.18, fab page. -/
def FAB_LANE_POL_ESC_WAIT_US : Fld := ⟨0x10c, 23, 16⟩
/-- Table 13.18, fab page. -/
def FAB_LANE_POL_W2 : Fld := ⟨0x10c, 7, 4⟩
/-- Table 13.18, fab page. -/
def FAB_LANE_POL_W1 : Fld := ⟨0x10c, 3, 0⟩
/-- Table 13.19, fab page. -/
def FAB_TRAIN_ATTEMPTS : Fld := ⟨0x110, 31, 0⟩
/-- Table 13.19, fab page. -/
def FAB_RETRAINS : Fld := ⟨0x114, 31, 0⟩
/-- Table 13.19, fab page. -/
def FAB_FORCED : Fld := ⟨0x118, 31, 0⟩
/-- Table 13.19, fab page. -/
def FAB_CRC_ERR : Fld := ⟨0x11c, 31, 0⟩
/-- Table 13.19, fab page. -/
def FAB_NAKS : Fld := ⟨0x120, 31, 0⟩
/-- Table 13.19, fab page. -/
def FAB_REPLAYS : Fld := ⟨0x124, 31, 0⟩
/-- Table 13.19, fab page. -/
def FAB_DROP_UNAUTH : Fld := ⟨0x128, 31, 0⟩
/-- Table 13.19, fab page. -/
def FAB_AUTH_FAIL : Fld := ⟨0x12c, 31, 0⟩
/-- Table 13.19, fab page. -/
def FAB_ESCAPES : Fld := ⟨0x130, 31, 0⟩
/-- Table 13.19, fab page. -/
def FAB_PARTNER_CHG : Fld := ⟨0x134, 31, 0⟩
/-- Table 13.21, col page. -/
def COL_GTAB_LO : Fld := ⟨0x100, 31, 6⟩
/-- Table 13.21, col page. -/
def COL_GTAB_HI : Fld := ⟨0x104, 15, 0⟩
/-- Table 13.22, col page. -/
def COL_GEOM_LOG2_GROUPS : Fld := ⟨0x108, 3, 0⟩
/-- Table 13.23, col page. -/
def COL_CMD_GROUP : Fld := ⟨0x10c, 27, 16⟩
/-- Table 13.23, col page. -/
def COL_CMD_OP : Fld := ⟨0x10c, 3, 0⟩
/-- Table 13.23, col page. -/
def COL_CMD_STAT_CODE : Fld := ⟨0x110, 15, 8⟩
/-- Table 13.23, col page. -/
def COL_CMD_STAT_IGNORED : Fld := ⟨0x110, 1, 1⟩
/-- Table 13.23, col page. -/
def COL_CMD_STAT_BUSY : Fld := ⟨0x110, 0, 0⟩
/-- Table 13.24, col page. -/
def COL_OPEN : Fld := ⟨0x114, 12, 0⟩
/-- Table 13.24, col page. -/
def COL_DONE : Fld := ⟨0x118, 31, 0⟩
/-- Table 13.24, col page. -/
def COL_ABORTED : Fld := ⟨0x11c, 31, 0⟩
/-- Table 13.24, col page. -/
def COL_TIMEOUTS : Fld := ⟨0x120, 31, 0⟩
/-- Table 13.24, col page. -/
def COL_SEQMIS : Fld := ⟨0x124, 31, 0⟩
/-- Table 13.24, col page. -/
def COL_REFORMS : Fld := ⟨0x128, 31, 0⟩
/-- Table 13.20, colDev page. -/
def COL_DEV_ID_VALID : Fld := ⟨0x100, 15, 15⟩
/-- Table 13.20, colDev page. -/
def COL_DEV_ID : Fld := ⟨0x100, 14, 0⟩
/-- Table 13.20, colDev page. -/
def COL_CTX_WAITING : Fld := ⟨0x104, 22, 16⟩
/-- Table 13.20, colDev page. -/
def COL_CTX_IN_USE : Fld := ⟨0x104, 6, 0⟩
/-- Table 16.12, sec page. -/
def SEC_CMD_OP : Fld := ⟨0x100, 3, 0⟩
/-- Table 16.12, sec page. -/
def SEC_CMD_ADDR_LO : Fld := ⟨0x104, 31, 6⟩
/-- Table 16.12, sec page. -/
def SEC_CMD_ADDR_HI : Fld := ⟨0x108, 15, 0⟩
/-- Table 16.12, sec page. -/
def SEC_CMD_STAT_CODE : Fld := ⟨0x10c, 15, 8⟩
/-- Table 16.12, sec page. -/
def SEC_CMD_STAT_IGNORED : Fld := ⟨0x10c, 1, 1⟩
/-- Table 16.12, sec page. -/
def SEC_CMD_STAT_BUSY : Fld := ⟨0x10c, 0, 0⟩
/-- Table 16.13, sec page. -/
def SEC_EPOCH_SWEEPING : Fld := ⟨0x110, 4, 4⟩
/-- Table 16.13, sec page. -/
def SEC_EPOCH_OLD : Fld := ⟨0x110, 3, 2⟩
/-- Table 16.13, sec page. -/
def SEC_EPOCH_CUR : Fld := ⟨0x110, 1, 0⟩
/-- Table 16.13, sec page. -/
def SEC_SWEEP_POL : Fld := ⟨0x114, 8, 0⟩
/-- Table 16.13, sec page. -/
def SEC_SWEEP_LEFT : Fld := ⟨0x118, 11, 0⟩
/-- Table 16.13, sec page. -/
def SEC_KEYSLOTS : Fld := ⟨0x11c, 7, 0⟩
/-- Table 16.13, sec page. -/
def SEC_NMEAS : Fld := ⟨0x120, 5, 0⟩
/-- Table 16.13, sec page. -/
def SEC_ROTATIONS : Fld := ⟨0x124, 31, 0⟩
/-- Table 16.13, sec page. -/
def SEC_INTEG_FAIL : Fld := ⟨0x128, 31, 0⟩
/-- Table 16.13, sec page. -/
def SEC_STALE : Fld := ⟨0x12c, 31, 0⟩
/-- Table 16.14, secDev page. -/
def SEC_DEV_STAT_SEAL_OPEN : Fld := ⟨0x100, 3, 3⟩
/-- Table 16.14, secDev page. -/
def SEC_DEV_STAT_PRODUCTION : Fld := ⟨0x100, 2, 2⟩
/-- Table 16.14, secDev page. -/
def SEC_DEV_STAT_SAK_READY : Fld := ⟨0x100, 1, 1⟩
/-- Table 16.14, secDev page. -/
def SEC_DEV_STAT_DEBUG_OPEN : Fld := ⟨0x100, 0, 0⟩
/-- Table 16.14, secDev page. -/
def SEC_DEV_CMD_OP : Fld := ⟨0x104, 3, 0⟩
/-- Table 16.14, secDev page. -/
def SEC_DEV_ADDR_LO : Fld := ⟨0x108, 31, 5⟩
/-- Table 16.14, secDev page. -/
def SEC_DEV_ADDR_HI : Fld := ⟨0x10c, 15, 0⟩
/-- Table 16.14, secDev page. -/
def SEC_DEV_CMD_STAT_CODE : Fld := ⟨0x110, 15, 8⟩
/-- Table 16.14, secDev page. -/
def SEC_DEV_CMD_STAT_IGNORED : Fld := ⟨0x110, 1, 1⟩
/-- Table 16.14, secDev page. -/
def SEC_DEV_CMD_STAT_BUSY : Fld := ⟨0x110, 0, 0⟩
/-- Table 16.14, secDev page. -/
def SEC_ANCHOR_EN : Fld := ⟨0x114, 3, 0⟩
/-- Table 16.15, secDev page. -/
def SEC_ANCHOR : Fld := ⟨0x120, 31, 0⟩
/-- Table 16.15, secDev page. -/
def SEC_LINK_AUTH_FAIL : Fld := ⟨0x1e0, 31, 0⟩
/-- Table 16.15, secDev page. -/
def SEC_ENTROPY_FAIL : Fld := ⟨0x1e4, 31, 0⟩
/-- Table 16.15, secDev page. -/
def SEC_RESEEDS : Fld := ⟨0x1e8, 31, 0⟩
/-- Table 17.7, pwr page. -/
def PWR_STAT_INPUT_W : Fld := ⟨0x100, 26, 16⟩
/-- Table 17.7, pwr page. -/
def PWR_STAT_TJ_MAX : Fld := ⟨0x100, 15, 8⟩
/-- Table 17.7, pwr page. -/
def PWR_STAT_FAULT_THERM : Fld := ⟨0x100, 2, 2⟩
/-- Table 17.7, pwr page. -/
def PWR_STAT_THERM_ACT : Fld := ⟨0x100, 1, 1⟩
/-- Table 17.7, pwr page. -/
def PWR_STAT_POWER_ACT : Fld := ⟨0x100, 0, 0⟩
/-- Table 17.7, pwr page. -/
def PWR_POL : Fld := ⟨0x104, 10, 0⟩
/-- Table 17.7, pwr page. -/
def PWR_PEAK : Fld := ⟨0x108, 10, 0⟩
/-- Table 17.7, pwr page. -/
def PWR_CTRL : Fld := ⟨0x10c, 0, 0⟩
/-- Table 17.8, pwr page. -/
def PWR_STEPS_DOWN : Fld := ⟨0x110, 31, 0⟩
/-- Table 17.8, pwr page. -/
def PWR_STEPS_UP : Fld := ⟨0x114, 31, 0⟩
/-- Table 17.8, pwr page. -/
def PWR_OVERRIDES : Fld := ⟨0x118, 31, 0⟩
/-- Table 17.8, pwr page. -/
def PWR_THERM_STEPS : Fld := ⟨0x11c, 31, 0⟩
/-- Table 17.8, pwr page. -/
def PWR_GUARD : Fld := ⟨0x120, 31, 0⟩
/-- Table 17.8, pwr page. -/
def PWR_CAP_MISS : Fld := ⟨0x124, 31, 0⟩
/-- Table 17.9, clk page. -/
def CLK_POL_EFF_EN : Fld := ⟨0x100, 4, 4⟩
/-- Table 17.9, clk page. -/
def CLK_POL_FLOOR : Fld := ⟨0x100, 3, 2⟩
/-- Table 17.9, clk page. -/
def CLK_POL_CEIL : Fld := ⟨0x100, 1, 0⟩
/-- Table 17.9, clk page. -/
def CLK_OVR : Fld := ⟨0x104, 31, 0⟩
/-- Table 17.9, clkDev page. -/
def CLK_PT : Fld := ⟨0x100, 31, 0⟩
/-- Table 17.9, clkDev page. -/
def CLK_DUTY : Fld := ⟨0x128, 3, 0⟩
/-- Table 18.7, ras page. -/
def RAS_DEV_STAT_CAUSE : Fld := ⟨0x100, 15, 8⟩
/-- Table 18.7, ras page. -/
def RAS_DEV_STAT_FAILED : Fld := ⟨0x100, 0, 0⟩
/-- Table 18.7, ras page. -/
def RAS_FAIL_SRC : Fld := ⟨0x104, 15, 0⟩
/-- Table 18.7, ras page. -/
def RAS_FAIL_INFO : Fld := ⟨0x108, 23, 0⟩
/-- Table 18.7, ras page. -/
def RAS_SCRUB_POL : Fld := ⟨0x10c, 13, 0⟩
/-- Table 18.7, ras page. -/
def RAS_FENCE : Fld := ⟨0x110, 31, 0⟩
/-- Table 18.8, ras page. -/
def RAS_CORR : Fld := ⟨0x124, 31, 0⟩
/-- Table 18.8, ras page. -/
def RAS_RECOV : Fld := ⟨0x128, 31, 0⟩
/-- Table 18.8, ras page. -/
def RAS_UNCORR : Fld := ⟨0x12c, 31, 0⟩
/-- Table 18.8, ras page. -/
def RAS_FATAL : Fld := ⟨0x130, 31, 0⟩
/-- Table 18.8, ras page. -/
def RAS_SCRUBS : Fld := ⟨0x134, 31, 0⟩
/-- Table 18.9, evr page. -/
def EVR_CMD_FRAME : Fld := ⟨0x100, 20, 16⟩
/-- Table 18.9, evr page. -/
def EVR_CMD_OP : Fld := ⟨0x100, 3, 0⟩
/-- Table 18.9, evr page. -/
def EVR_ADDR_LO : Fld := ⟨0x104, 31, 6⟩
/-- Table 18.9, evr page. -/
def EVR_ADDR_HI : Fld := ⟨0x108, 15, 0⟩
/-- Table 18.9, evr page. -/
def EVR_CMD_STAT_CODE : Fld := ⟨0x10c, 15, 8⟩
/-- Table 18.9, evr page. -/
def EVR_CMD_STAT_IGNORED : Fld := ⟨0x10c, 1, 1⟩
/-- Table 18.9, evr page. -/
def EVR_CMD_STAT_BUSY : Fld := ⟨0x10c, 0, 0⟩
/-- Table 18.10, evr page. -/
def EVR_SEL : Fld := ⟨0x110, 11, 0⟩
/-- Table 18.10, evr page. -/
def EVR_REC : Fld := ⟨0x114, 31, 0⟩
/-- Table 18.10, evr page. -/
def EVR_LIVE : Fld := ⟨0x154, 12, 0⟩
/-- Table 18.11, evr page. -/
def EVR_DROP : Fld := ⟨0x158, 31, 0⟩
/-- Table 18.11, evr page. -/
def EVR_RING_AHEAD : Fld := ⟨0x168, 12, 8⟩
/-- Table 18.11, evr page. -/
def EVR_RING_HEAD : Fld := ⟨0x168, 4, 0⟩
/-- Table 18.11, evr page. -/
def EVR_FLUSH_DEFER : Fld := ⟨0x16c, 31, 0⟩
/-- Table 18.11, evr page. -/
def EVR_FSEQ : Fld := ⟨0x170, 31, 0⟩
/-- Table 18.11, evr page. -/
def EVR_POL_AUTO_EN : Fld := ⟨0x174, 2, 2⟩
/-- Table 18.11, evr page. -/
def EVR_POL_FLUSH_SEV : Fld := ⟨0x174, 1, 0⟩
/-- Table 18.11, evr page. -/
def EVR_EVENTS : Fld := ⟨0x178, 31, 0⟩
/-- Table 17.10, boot page. -/
def BOOT_STATE_FAIL : Fld := ⟨0x100, 15, 12⟩
/-- Table 17.10, boot page. -/
def BOOT_STATE_SLOT : Fld := ⟨0x100, 9, 8⟩
/-- Table 17.10, boot page. -/
def BOOT_STATE_STEP : Fld := ⟨0x100, 3, 0⟩
/-- Table 17.10, boot page. -/
def BOOT_ATTEMPTS : Fld := ⟨0x104, 31, 0⟩
/-- Table 17.10, boot page. -/
def BOOT_BACKOFF : Fld := ⟨0x108, 10, 0⟩
/-- Table 17.10, boot page. -/
def BOOT_IMG_A_ACCEPTABLE : Fld := ⟨0x10c, 16, 16⟩
/-- Table 17.10, boot page. -/
def BOOT_IMG_A_VERSION : Fld := ⟨0x10c, 15, 0⟩
/-- Table 17.10, boot page. -/
def BOOT_IMG_B_ACCEPTABLE : Fld := ⟨0x110, 16, 16⟩
/-- Table 17.10, boot page. -/
def BOOT_IMG_B_VERSION : Fld := ⟨0x110, 15, 0⟩
/-- Table 17.10, boot page. -/
def BOOT_CMD_OP : Fld := ⟨0x114, 3, 0⟩
/-- Table 17.10, boot page. -/
def BOOT_CMD_STAT_CODE : Fld := ⟨0x118, 15, 8⟩
/-- Table 17.10, boot page. -/
def BOOT_CMD_STAT_IGNORED : Fld := ⟨0x118, 1, 1⟩
/-- Table 17.10, boot page. -/
def BOOT_CMD_STAT_BUSY : Fld := ⟨0x118, 0, 0⟩
/-- Table 17.10, boot page. -/
def BOOT_STAGE_LO : Fld := ⟨0x11c, 31, 5⟩
/-- Table 17.10, boot page. -/
def BOOT_STAGE_HI : Fld := ⟨0x120, 15, 0⟩
/-- Table 17.10, boot page. -/
def BOOT_STAGE_LEN : Fld := ⟨0x124, 24, 0⟩
/-- Table 19.2, every page. -/
def PAGE_CTRL_RESET : Fld := ⟨0x8, 2, 2⟩
/-- Table 19.2, every page. -/
def PAGE_CTRL_QUIESCE : Fld := ⟨0x8, 1, 1⟩
/-- Table 19.2, every page. -/
def PAGE_CTRL_ENABLE : Fld := ⟨0x8, 0, 0⟩
/-- Table 19.3, every page. -/
def PAGE_ERR_OVER : Fld := ⟨0x10, 1, 1⟩
/-- Table 19.3, every page. -/
def PAGE_ERR_ERR : Fld := ⟨0x10, 0, 0⟩
/-- Table 19.3, every page. -/
def PAGE_ERR_INFO_DETAIL : Fld := ⟨0x14, 23, 8⟩
/-- Table 19.3, every page. -/
def PAGE_ERR_INFO_CODE : Fld := ⟨0x14, 7, 0⟩
/-- Table 19.3, every page. -/
def PAGE_NOTIFY_EN : Fld := ⟨0x18, 4, 0⟩
/-- Table 19.3, every page. -/
def PAGE_COMMIT_KEY : Fld := ⟨0x20, 15, 0⟩
/-- Table 19.3, every page. -/
def PAGE_COMMIT_STAT_FAILED : Fld := ⟨0x24, 31, 31⟩
/-- Table 19.3, every page. -/
def PAGE_COMMIT_STAT_OFFSET : Fld := ⟨0x24, 27, 16⟩
/-- Table 19.3, every page. -/
def PAGE_COMMIT_STAT_LSB : Fld := ⟨0x24, 12, 8⟩
/-- Table 19.3, every page. -/
def PAGE_GEN : Fld := ⟨0x28, 31, 0⟩

end Fld

/-- `n` copies of a row of a field map, 4 bytes apart. -/
def fieldRun (n : Nat) (d : FieldDef) : List FieldDef := (List.range n).map fun k => { d with fld := fldAt d.fld k }

/-- The registers every page holds (Table 19.1) that are stored. -/
def commonFields : List FieldDef :=
  [ ⟨Fld.PAGE_CTRL_RESET, .wo, 0, false⟩, ⟨Fld.PAGE_CTRL_QUIESCE, .rw, 0, false⟩, ⟨Fld.PAGE_CTRL_ENABLE, .rw, 0, false⟩,
    ⟨Fld.PAGE_ERR_OVER, .w1c, 0, false⟩, ⟨Fld.PAGE_ERR_ERR, .w1c, 0, false⟩,
    ⟨Fld.PAGE_ERR_INFO_DETAIL, .ro, 0, false⟩, ⟨Fld.PAGE_ERR_INFO_CODE, .ro, 0, false⟩,
    ⟨Fld.PAGE_NOTIFY_EN, .rw, 0, false⟩, ⟨Fld.PAGE_COMMIT_KEY, .wo, 0, false⟩,
    ⟨Fld.PAGE_COMMIT_STAT_FAILED, .ro, 0, false⟩, ⟨Fld.PAGE_COMMIT_STAT_OFFSET, .ro, 0, false⟩,
    ⟨Fld.PAGE_COMMIT_STAT_LSB, .ro, 0, false⟩, ⟨Fld.PAGE_GEN, .ro, 0, false⟩ ]

/-- The field maps of a dev page. -/
def devFields : List FieldDef :=
    [ ⟨Fld.DEV_PART, .ro, 0x1600, false⟩,
      ⟨Fld.DEV_PART_STEPPING, .ro, 0x0, true⟩,
      ⟨Fld.DEV_PART_MODREV, .ro, 0x0, true⟩,
      ⟨Fld.DEV_INVENTORY_HOST_PORTS, .ro, 0x0, true⟩,
      ⟨Fld.DEV_INVENTORY_FAB_PORTS, .ro, 0x0, true⟩,
      ⟨Fld.DEV_INVENTORY_LPD_PKGS, .ro, 0x0, true⟩,
      ⟨Fld.DEV_INVENTORY_STACKS, .ro, 0x0, true⟩,
      ⟨Fld.DEV_INVENTORY_ARRAYS, .ro, 0x0, true⟩,
      ⟨Fld.DEV_BOOT_EPOCH, .ro, 0x0, true⟩ ]

/-- The field maps of a hifPort page. -/
def hifPortFields : List FieldDef :=
    [ ⟨Fld.HIF_PORT_STAT, .ro, 0x0, false⟩,
      ⟨Fld.HIF_PORT_CFG_JUMBO, .rws, 0x0, false⟩,
      ⟨Fld.HIF_PORT_CFG_UDP_PORT, .rws, 0xc832, false⟩,
      ⟨Fld.HIF_MAC_LO, .ro, 0x0, true⟩,
      ⟨Fld.HIF_MAC_HI, .ro, 0x0, true⟩ ]
    ++ fieldRun 4 ⟨Fld.HIF_ADDR, .rws, 0x0, false⟩
    ++ [ ⟨Fld.HIF_RX_FRAMES, .ro, 0x0, false⟩,
      ⟨Fld.HIF_RX_DROP, .ro, 0x0, false⟩,
      ⟨Fld.HIF_TX_FRAMES, .ro, 0x0, false⟩ ]

/-- The field maps of a hifCh page. -/
def hifChFields : List FieldDef :=
    [ ⟨Fld.HIF_CH_CFG_IDLE_S, .rws, 0x3c, false⟩,
      ⟨Fld.HIF_CH_CFG_PART, .rws, 0x0, false⟩,
      ⟨Fld.HIF_CH_CFG_ENABLE, .rws, 0x0, false⟩ ]
    ++ fieldRun 12 ⟨Fld.HIF_CH_KEYDIG, .rws, 0x0, false⟩
    ++ [ ⟨Fld.HIF_SESS_POL_LOST_MS, .rws, 0x3e8, false⟩,
      ⟨Fld.HIF_SESS_POL_RTO_US, .rws, 0xc8, false⟩,
      ⟨Fld.HIF_CH_SID, .ro, 0x0, false⟩,
      ⟨Fld.HIF_CH_STAT, .ro, 0x0, false⟩,
      ⟨Fld.HIF_CH_AUTH_FAIL, .ro, 0x0, false⟩,
      ⟨Fld.HIF_CH_RESENDS, .ro, 0x0, false⟩,
      ⟨Fld.HIF_CH_NOROOM, .ro, 0x0, false⟩,
      ⟨Fld.HIF_CH_NOTIFY_DROP, .ro, 0x0, false⟩,
      ⟨Fld.HIF_CH_LOST, .ro, 0x0, false⟩ ]

/-- The field maps of a dsp page. -/
def dspFields : List FieldDef :=
    [ ⟨Fld.DSP_Q_BASE_LO, .rws, 0x0, false⟩,
      ⟨Fld.DSP_Q_BASE_HI, .rws, 0x0, false⟩,
      ⟨Fld.DSP_Q_SIZE, .rws, 0x8, false⟩,
      ⟨Fld.DSP_Q_SEED_LO, .rws, 0x0, false⟩,
      ⟨Fld.DSP_Q_SEED_HI, .rws, 0x0, false⟩,
      ⟨Fld.DSP_Q_TAIL, .rw, 0x0, false⟩,
      ⟨Fld.DSP_Q_HEAD_HEAD_DESC, .ro, 0x0, false⟩,
      ⟨Fld.DSP_Q_HEAD_HEAD_ENTRY, .ro, 0x0, false⟩,
      ⟨Fld.DSP_Q_CTRL_FLUSH, .wo, 0x0, false⟩,
      ⟨Fld.DSP_Q_CTRL_RESUME, .wo, 0x0, false⟩,
      ⟨Fld.DSP_Q_CTRL_RUN, .rw, 0x0, false⟩,
      ⟨Fld.DSP_Q_STAT_HOLD_CODE, .ro, 0x0, false⟩,
      ⟨Fld.DSP_Q_STAT_QSTATE, .ro, 0x0, false⟩,
      ⟨Fld.DSP_Q_HOLD_AT_DESC, .ro, 0x0, false⟩,
      ⟨Fld.DSP_Q_HOLD_AT_ENTRY, .ro, 0x0, false⟩,
      ⟨Fld.DSP_Q_INFLIGHT, .ro, 0x0, false⟩,
      ⟨Fld.DSP_Q_ISSUED, .ro, 0x0, false⟩,
      ⟨Fld.DSP_Q_NUM_RLOG_LOG2, .rws, 0x0, false⟩,
      ⟨Fld.DSP_Q_NUM_SHADOW_THR, .rws, 0x2, false⟩,
      ⟨Fld.DSP_Q_NUM_SHADOW_LOG2, .rws, 0xa, false⟩,
      ⟨Fld.DSP_Q_NUM_K8_SAT, .rws, 0x0, false⟩,
      ⟨Fld.DSP_Q_RLOG_LO, .rws, 0x0, false⟩,
      ⟨Fld.DSP_Q_RLOG_HI, .rws, 0x0, false⟩,
      ⟨Fld.DSP_Q_RLOG_WR, .ro, 0x0, false⟩ ]
    ++ fieldRun 5 ⟨Fld.DSP_Q_PIN, .rws, 0x0, false⟩
    ++ [ ⟨Fld.DSP_Q_PLAN_GB, .ro, 0x0, false⟩,
      ⟨Fld.DSP_Q_PLAN_GC, .ro, 0x0, false⟩,
      ⟨Fld.DSP_Q_PLAN_GR, .ro, 0x0, false⟩,
      ⟨Fld.DSP_Q_PLAN_L, .ro, 0x0, false⟩,
      ⟨Fld.DSP_Q_PLAN_SHAPE_G, .ro, 0x0, false⟩,
      ⟨Fld.DSP_Q_PLAN_SHAPE_NT_CODE, .ro, 0x0, false⟩,
      ⟨Fld.DSP_Q_PLAN_SHAPE_MT_CODE, .ro, 0x0, false⟩,
      ⟨Fld.DSP_Q_PLAN_KP, .ro, 0x0, false⟩,
      ⟨Fld.DSP_Q_PLAN_SEQ, .ro, 0x0, false⟩,
      ⟨Fld.DSP_Q_PIN_OVR, .ro, 0x0, false⟩ ]

/-- The field maps of a tpl page. -/
def tplFields : List FieldDef :=
    [ ⟨Fld.TPL_STATE_CLEAR, .wo, 0x0, false⟩,
      ⟨Fld.TPL_STATE_QUEUE, .ro, 0x0, false⟩,
      ⟨Fld.TPL_STATE_BUSY, .ro, 0x0, false⟩,
      ⟨Fld.TPL_PLANNED, .ro, 0x0, false⟩,
      ⟨Fld.TPL_ITEMS, .ro, 0x0, false⟩,
      ⟨Fld.TPL_SPLIT, .ro, 0x0, false⟩,
      ⟨Fld.TPL_AFF_FEED, .ro, 0x0, false⟩,
      ⟨Fld.TPL_AFF_SLICE, .ro, 0x0, false⟩,
      ⟨Fld.TPL_AFF_NONE, .ro, 0x0, false⟩,
      ⟨Fld.TPL_DELIVERIES, .ro, 0x0, false⟩ ]

/-- The field maps of a tok page. -/
def tokFields : List FieldDef :=
    [ ⟨Fld.TOK_SAT_CNT, .ro, 0x0, false⟩,
      ⟨Fld.TOK_REFUSED_KIND, .ro, 0x0, false⟩,
      ⟨Fld.TOK_REFUSED_PART, .ro, 0x0, false⟩,
      ⟨Fld.TOK_REFUSED_TOKEN, .ro, 0x0, false⟩ ]

/-- The field maps of a prt page. PRT_STAT and PRT_ARR of page 0, whose reset columns differ, are computed when read (R350). -/
def prtFields : List FieldDef :=
    [ ⟨Fld.PRT_CMD_OP, .wo, 0x0, false⟩,
      ⟨Fld.PRT_CMD_STAT_CODE, .ro, 0x0, false⟩,
      ⟨Fld.PRT_CMD_STAT_IGNORED, .w1c, 0x0, false⟩,
      ⟨Fld.PRT_CMD_STAT_BUSY, .ro, 0x0, false⟩,
      ⟨Fld.PRT_STAT_G, .ro, 0x0, false⟩,
      ⟨Fld.PRT_STAT_LEAVING, .ro, 0x0, false⟩,
      ⟨Fld.PRT_STAT_STATE, .ro, 0x0, false⟩ ]
    ++ fieldRun 5 ⟨Fld.PRT_ARR, .rws, 0x0, false⟩
    ++ [ ⟨Fld.PRT_TOK_COUNT, .rws, 0x0, false⟩,
      ⟨Fld.PRT_TOK_FIRST, .rws, 0x0, false⟩,
      ⟨Fld.PRT_SAVE, .rws, 0x0, false⟩,
      ⟨Fld.PRT_SCR_LIVE, .rws, 0x0, false⟩,
      ⟨Fld.PRT_SUSP_CACHE, .ro, 0x0, false⟩,
      ⟨Fld.PRT_SUSP_SCR_COUNT, .ro, 0x0, false⟩,
      ⟨Fld.PRT_SUSP_SCR_FIRST, .ro, 0x0, false⟩,
      ⟨Fld.PRT_SW_CYC, .ro, 0x0, false⟩,
      ⟨Fld.PRT_SUSPENDS, .ro, 0x0, false⟩,
      ⟨Fld.PRT_TEARDOWNS, .ro, 0x0, false⟩ ]

/-- The field maps of a prtDev page. -/
def prtDevFields : List FieldDef :=
    [ ⟨Fld.PRT_EXT_CMD_PART, .wo, 0x0, false⟩,
      ⟨Fld.PRT_EXT_CMD_OP, .wo, 0x0, false⟩,
      ⟨Fld.PRT_EXT_ARG_COUNT, .rw, 0x0, false⟩,
      ⟨Fld.PRT_EXT_ARG_FIRST, .rw, 0x0, false⟩,
      ⟨Fld.PRT_EXT_STAT_CODE, .ro, 0x0, false⟩,
      ⟨Fld.PRT_EXT_STAT_IGNORED, .w1c, 0x0, false⟩,
      ⟨Fld.PRT_EXT_STAT_BUSY, .ro, 0x0, false⟩,
      ⟨Fld.PRT_EXT_QUERY_KIND, .ro, 0x0, false⟩,
      ⟨Fld.PRT_EXT_QUERY_OWNER, .ro, 0x0, false⟩,
      ⟨Fld.PRT_EXT_QUERY_EXTENT, .rw, 0x0, false⟩,
      ⟨Fld.PRT_EXIST, .ro, 0x1, false⟩ ]

/-- The field maps of a arr page. -/
def arrFields : List FieldDef :=
    [ ⟨Fld.ARR_STATE_STAGING_FREE, .ro, 0x8, false⟩,
      ⟨Fld.ARR_STATE_ACTIVITY, .ro, 0x0, false⟩,
      ⟨Fld.ARR_CNT_CTRL_CLEAR, .wo, 0x0, false⟩,
      ⟨Fld.ARR_CNT_CTRL_SNAP, .wo, 0x0, false⟩,
      ⟨Fld.ARR_RUN_CYC, .ro, 0x0, false⟩,
      ⟨Fld.ARR_BUSY_CNT, .ro, 0x0, false⟩,
      ⟨Fld.ARR_FREEZE_CNT, .ro, 0x0, false⟩,
      ⟨Fld.ARR_FREEZE_FEED, .ro, 0x0, false⟩,
      ⟨Fld.ARR_FREEZE_DRAIN, .ro, 0x0, false⟩,
      ⟨Fld.ARR_STALL_CNT, .ro, 0x0, false⟩,
      ⟨Fld.ARR_MAC_CNT, .ro, 0x0, false⟩,
      ⟨Fld.ARR_TILE_CNT, .ro, 0x0, false⟩,
      ⟨Fld.ARR_RUN_CNT, .ro, 0x0, false⟩ ]

/-- The field maps of a yrd page. -/
def yrdFields : List FieldDef :=
    fieldRun 4 ⟨Fld.YRD_WAYS_MODE3, .rws, 0x0, false⟩
    ++ fieldRun 4 ⟨Fld.YRD_WAYS_OWNER3, .rws, 0x0, false⟩
    ++ fieldRun 4 ⟨Fld.YRD_WAYS_MODE2, .rws, 0x0, false⟩
    ++ fieldRun 4 ⟨Fld.YRD_WAYS_OWNER2, .rws, 0x0, false⟩
    ++ fieldRun 4 ⟨Fld.YRD_WAYS_MODE1, .rws, 0x0, false⟩
    ++ fieldRun 4 ⟨Fld.YRD_WAYS_OWNER1, .rws, 0x0, false⟩
    ++ fieldRun 4 ⟨Fld.YRD_WAYS_MODE0, .rws, 0x0, false⟩
    ++ fieldRun 4 ⟨Fld.YRD_WAYS_OWNER0, .rws, 0x0, false⟩
    ++ [ ⟨Fld.YRD_STAT, .ro, 0x0, false⟩,
      ⟨Fld.YRD_HIT, .ro, 0x0, false⟩,
      ⟨Fld.YRD_MISS, .ro, 0x0, false⟩,
      ⟨Fld.YRD_INVAL, .ro, 0x0, false⟩ ]

/-- The field maps of a memStack page. -/
def memStackFields : List FieldDef :=
    [ ⟨Fld.MEM_STACK_STAT_HELD_PC, .ro, 0x0, false⟩,
      ⟨Fld.MEM_STACK_STAT_FAILED_PC, .ro, 0x0, false⟩,
      ⟨Fld.MEM_STACK_STAT_FAILED, .ro, 0x0, false⟩,
      ⟨Fld.MEM_STACK_STAT_TRAINED, .ro, 0x0, false⟩,
      ⟨Fld.MEM_PC_HELD_LO, .ro, 0x0, false⟩,
      ⟨Fld.MEM_PC_HELD_HI, .ro, 0x0, false⟩,
      ⟨Fld.MEM_PC_FAIL_LO, .ro, 0x0, false⟩,
      ⟨Fld.MEM_PC_FAIL_HI, .ro, 0x0, false⟩,
      ⟨Fld.MEM_RETRAIN_POL_FORCE_THR, .rws, 0x10, false⟩,
      ⟨Fld.MEM_RETRAIN_POL_MIN_GAP_MS, .rws, 0x0, false⟩,
      ⟨Fld.MEM_RETRAIN_POL_DEFER, .rws, 0x0, false⟩,
      ⟨Fld.MEM_RETRAIN_CNT, .ro, 0x0, false⟩,
      ⟨Fld.MEM_FORCED_CNT, .ro, 0x0, false⟩,
      ⟨Fld.MEM_HOLD_MAX, .ro, 0x0, false⟩ ]

/-- The field maps of a memLease page. -/
def memLeaseFields : List FieldDef :=
    [ ⟨Fld.MEM_LEASE_CFG_GRACE_10MS, .rws, 0x64, false⟩,
      ⟨Fld.MEM_LEASE_CFG_LOST_MS, .rws, 0x64, false⟩,
      ⟨Fld.MEM_LEASE_CFG_KEEP_MS, .rws, 0xa, false⟩,
      ⟨Fld.MEM_LEND_STAT_LENT, .ro, 0x0, false⟩,
      ⟨Fld.MEM_LEND_STAT_LENDABLE, .ro, 0x0, false⟩,
      ⟨Fld.MEM_LEASE_HELD, .ro, 0x0, false⟩,
      ⟨Fld.MEM_RECLAIM_GO, .wo, 0x0, false⟩,
      ⟨Fld.MEM_RECLAIM_PEER, .wo, 0x0, false⟩,
      ⟨Fld.MEM_LEASE_REFUSED, .ro, 0x0, false⟩,
      ⟨Fld.MEM_LEASE_LOST, .ro, 0x0, false⟩,
      ⟨Fld.MEM_LEASE_DROP, .ro, 0x0, false⟩ ]

/-- The field maps of a memPart page. -/
def memPartFields : List FieldDef :=
    fieldRun 11 ⟨Fld.MEM_REG_DEPTH, .rws, 0x100, false⟩
    ++ fieldRun 11 ⟨Fld.MEM_REG_RATE, .rws, 0x100, false⟩
    ++ [ ⟨Fld.MEM_WIN_COUNT, .rws, 0x0, false⟩,
      ⟨Fld.MEM_WIN_FIRST, .rws, 0x0, false⟩,
      ⟨Fld.MEM_REG_WAIT, .ro, 0x0, false⟩,
      ⟨Fld.MEM_LEASE_SLOTS, .ro, 0x0, false⟩ ]

/-- The field maps of a stk page. -/
def stkFields : List FieldDef :=
    [ ⟨Fld.STK_STATE_COPYBACK, .ro, 0x0, false⟩,
      ⟨Fld.STK_STATE_WAITING, .ro, 0x0, false⟩,
      ⟨Fld.STK_STATE_ACTIVE, .ro, 0x0, false⟩,
      ⟨Fld.STK_CNT_CTRL_CLEAR, .wo, 0x0, false⟩,
      ⟨Fld.STK_CNT_CTRL_SNAP, .wo, 0x0, false⟩,
      ⟨Fld.STK_OPS, .ro, 0x0, false⟩,
      ⟨Fld.STK_DESC, .ro, 0x0, false⟩,
      ⟨Fld.STK_RD_BYTES, .ro, 0x0, false⟩,
      ⟨Fld.STK_WR_BYTES, .ro, 0x0, false⟩,
      ⟨Fld.STK_SVC_BYTES, .ro, 0x0, false⟩,
      ⟨Fld.STK_HOLD_BYTES, .ro, 0x0, false⟩ ]

/-- The field maps of a lpd page. -/
def lpdFields : List FieldDef :=
    [ ⟨Fld.LPD_STAT_HELD, .ro, 0x0, false⟩,
      ⟨Fld.LPD_STAT_FAILED_CH, .ro, 0x0, false⟩,
      ⟨Fld.LPD_STAT_FAILED, .ro, 0x0, false⟩,
      ⟨Fld.LPD_STAT_TRAINED, .ro, 0x0, false⟩,
      ⟨Fld.LPD_RETRAIN_POL_FORCE_THR, .rws, 0x10, false⟩,
      ⟨Fld.LPD_RETRAIN_POL_MIN_GAP_MS, .rws, 0x0, false⟩,
      ⟨Fld.LPD_RETRAIN_POL_DEFER, .rws, 0x0, false⟩,
      ⟨Fld.LPD_RETRAIN_CNT, .ro, 0x0, false⟩,
      ⟨Fld.LPD_FORCED_CNT, .ro, 0x0, false⟩,
      ⟨Fld.LPD_REFRESH_MR4, .ro, 0x0, false⟩,
      ⟨Fld.LPD_REFRESH_MULT, .ro, 0x0, false⟩ ]

/-- The field maps of a mce page. -/
def mceFields : List FieldDef :=
    [ ⟨Fld.MCE_STAT_LPDDR, .ro, 0x0, true⟩,
      ⟨Fld.MCE_STAT_REFUSING, .ro, 0x0, true⟩,
      ⟨Fld.MCE_STAT_ENABLED, .ro, 0x0, true⟩,
      ⟨Fld.MCE_FAIL_LO, .ro, 0x0, false⟩,
      ⟨Fld.MCE_FAIL_HI, .ro, 0x0, false⟩,
      ⟨Fld.MCE_INTEG_FAIL, .ro, 0x0, false⟩,
      ⟨Fld.MCE_STALE, .ro, 0x0, false⟩,
      ⟨Fld.MCE_SWEPT, .ro, 0x0, false⟩,
      ⟨Fld.MCE_RETAG, .ro, 0x0, false⟩,
      ⟨Fld.MCE_NODE_FAIL, .ro, 0x0, false⟩ ]

/-- The field maps of a kvs page. -/
def kvsFields : List FieldDef :=
    [ ⟨Fld.KVS_STAB_LO, .rws, 0x0, false⟩,
      ⟨Fld.KVS_STAB_HI, .rws, 0x0, false⟩,
      ⟨Fld.KVS_GEOM_LOG2_FRAMES, .rws, 0xa, false⟩,
      ⟨Fld.KVS_GEOM_DH_CODE, .rws, 0x7, false⟩,
      ⟨Fld.KVS_GEOM_LOG2_STREAMS, .rws, 0xa, false⟩,
      ⟨Fld.KVS_AREA_LO, .rws, 0x0, false⟩,
      ⟨Fld.KVS_AREA_HI, .rws, 0x0, false⟩,
      ⟨Fld.KVS_CMD_STREAM, .wo, 0x0, false⟩,
      ⟨Fld.KVS_CMD_OP, .wo, 0x0, false⟩,
      ⟨Fld.KVS_CMD_ARG_LO, .rw, 0x0, false⟩,
      ⟨Fld.KVS_CMD_ARG_HI, .rw, 0x0, false⟩,
      ⟨Fld.KVS_CMD_STAT_CODE, .ro, 0x0, false⟩,
      ⟨Fld.KVS_CMD_STAT_IGNORED, .w1c, 0x0, false⟩,
      ⟨Fld.KVS_CMD_STAT_BUSY, .ro, 0x0, false⟩,
      ⟨Fld.KVS_FREE, .ro, 0x0, false⟩,
      ⟨Fld.KVS_FRAMES, .ro, 0x0, false⟩,
      ⟨Fld.KVS_POOL, .ro, 0x0, false⟩,
      ⟨Fld.KVS_OPEN, .ro, 0x0, false⟩,
      ⟨Fld.KVS_LAST_FAIL, .ro, 0x0, false⟩,
      ⟨Fld.KVS_LAB_HIT, .ro, 0x0, false⟩,
      ⟨Fld.KVS_LAB_MISS, .ro, 0x0, false⟩,
      ⟨Fld.KVS_EVICT_SCORE, .ro, 0x0, false⟩,
      ⟨Fld.KVS_EVICT_AGE, .ro, 0x0, false⟩,
      ⟨Fld.KVS_PARKS, .ro, 0x0, false⟩,
      ⟨Fld.KVS_APPENDED, .ro, 0x0, false⟩ ]

/-- The field maps of a scn page. -/
def scnFields : List FieldDef :=
    [ ⟨Fld.SCN_STAB_LO, .rws, 0x0, false⟩,
      ⟨Fld.SCN_STAB_HI, .rws, 0x0, false⟩,
      ⟨Fld.SCN_GEOM_HM1, .rws, 0x0, false⟩,
      ⟨Fld.SCN_GEOM_SFMT, .rws, 0x0, false⟩,
      ⟨Fld.SCN_GEOM_P_CODE, .rws, 0x3, false⟩,
      ⟨Fld.SCN_GEOM_N_CODE, .rws, 0x3, false⟩,
      ⟨Fld.SCN_GEOM_LOG2_STREAMS, .rws, 0xa, false⟩,
      ⟨Fld.SCN_SLOTS, .rws, 0x0, false⟩,
      ⟨Fld.SCN_AREA_LO, .rws, 0x0, false⟩,
      ⟨Fld.SCN_AREA_HI, .rws, 0x0, false⟩,
      ⟨Fld.SCN_CMD_STREAM, .wo, 0x0, false⟩,
      ⟨Fld.SCN_CMD_OP, .wo, 0x0, false⟩,
      ⟨Fld.SCN_CMD_STAT_CODE, .ro, 0x0, false⟩,
      ⟨Fld.SCN_CMD_STAT_IGNORED, .w1c, 0x0, false⟩,
      ⟨Fld.SCN_CMD_STAT_BUSY, .ro, 0x0, false⟩,
      ⟨Fld.SCN_RESIDENT, .ro, 0x0, false⟩,
      ⟨Fld.SCN_REFD, .ro, 0x0, false⟩,
      ⟨Fld.SCN_OPEN, .ro, 0x0, false⟩,
      ⟨Fld.SCN_SWAP_IN, .ro, 0x0, false⟩,
      ⟨Fld.SCN_SWAP_OUT, .ro, 0x0, false⟩,
      ⟨Fld.SCN_SWAP_WAIT, .ro, 0x0, false⟩,
      ⟨Fld.SCN_ADMIT_WAIT, .ro, 0x0, false⟩,
      ⟨Fld.SCN_STEPS, .ro, 0x0, false⟩ ]

/-- The field maps of a fab page. -/
def fabFields : List FieldDef :=
    [ ⟨Fld.FAB_LINK_STAT_PARTNER_ID, .ro, 0x0, false⟩,
      ⟨Fld.FAB_LINK_STAT_AUTHED, .ro, 0x0, false⟩,
      ⟨Fld.FAB_LINK_STAT_KIND, .ro, 0x0, false⟩,
      ⟨Fld.FAB_LINK_STAT_STATE, .ro, 0x0, false⟩,
      ⟨Fld.FAB_PARTNER_CTX, .ro, 0x0, false⟩,
      ⟨Fld.FAB_PARTNER_CAPS, .ro, 0x0, false⟩,
      ⟨Fld.FAB_PARTNER_SEGS, .ro, 0x0, false⟩,
      ⟨Fld.FAB_LINK_POL_ERR_THR, .rws, 0x10, false⟩,
      ⟨Fld.FAB_LINK_POL_MIN_GAP_S, .rws, 0x3c, false⟩,
      ⟨Fld.FAB_LINK_POL_REPLAY_TO_US, .rws, 0xa, false⟩,
      ⟨Fld.FAB_LINK_POL_DEFER, .rws, 0x0, false⟩,
      ⟨Fld.FAB_LANE_POL_ESC_WAIT_US, .rws, 0x2, false⟩,
      ⟨Fld.FAB_LANE_POL_W2, .rws, 0x1, false⟩,
      ⟨Fld.FAB_LANE_POL_W1, .rws, 0x1, false⟩,
      ⟨Fld.FAB_TRAIN_ATTEMPTS, .ro, 0x0, false⟩,
      ⟨Fld.FAB_RETRAINS, .ro, 0x0, false⟩,
      ⟨Fld.FAB_FORCED, .ro, 0x0, false⟩,
      ⟨Fld.FAB_CRC_ERR, .ro, 0x0, false⟩,
      ⟨Fld.FAB_NAKS, .ro, 0x0, false⟩,
      ⟨Fld.FAB_REPLAYS, .ro, 0x0, false⟩,
      ⟨Fld.FAB_DROP_UNAUTH, .ro, 0x0, false⟩,
      ⟨Fld.FAB_AUTH_FAIL, .ro, 0x0, false⟩,
      ⟨Fld.FAB_ESCAPES, .ro, 0x0, false⟩,
      ⟨Fld.FAB_PARTNER_CHG, .ro, 0x0, false⟩ ]

/-- The field maps of a col page. -/
def colFields : List FieldDef :=
    [ ⟨Fld.COL_GTAB_LO, .rws, 0x0, false⟩,
      ⟨Fld.COL_GTAB_HI, .rws, 0x0, false⟩,
      ⟨Fld.COL_GEOM_LOG2_GROUPS, .rws, 0x6, false⟩,
      ⟨Fld.COL_CMD_GROUP, .wo, 0x0, false⟩,
      ⟨Fld.COL_CMD_OP, .wo, 0x0, false⟩,
      ⟨Fld.COL_CMD_STAT_CODE, .ro, 0x0, false⟩,
      ⟨Fld.COL_CMD_STAT_IGNORED, .w1c, 0x0, false⟩,
      ⟨Fld.COL_CMD_STAT_BUSY, .ro, 0x0, false⟩,
      ⟨Fld.COL_OPEN, .ro, 0x0, false⟩,
      ⟨Fld.COL_DONE, .ro, 0x0, false⟩,
      ⟨Fld.COL_ABORTED, .ro, 0x0, false⟩,
      ⟨Fld.COL_TIMEOUTS, .ro, 0x0, false⟩,
      ⟨Fld.COL_SEQMIS, .ro, 0x0, false⟩,
      ⟨Fld.COL_REFORMS, .ro, 0x0, false⟩ ]

/-- The field maps of a colDev page. -/
def colDevFields : List FieldDef :=
    [ ⟨Fld.COL_DEV_ID_VALID, .rws, 0x0, false⟩,
      ⟨Fld.COL_DEV_ID, .rws, 0x0, false⟩,
      ⟨Fld.COL_CTX_WAITING, .ro, 0x0, false⟩,
      ⟨Fld.COL_CTX_IN_USE, .ro, 0x0, false⟩ ]

/-- The field maps of a sec page. -/
def secFields : List FieldDef :=
    [ ⟨Fld.SEC_CMD_OP, .wo, 0x0, false⟩,
      ⟨Fld.SEC_CMD_ADDR_LO, .rw, 0x0, false⟩,
      ⟨Fld.SEC_CMD_ADDR_HI, .rw, 0x0, false⟩,
      ⟨Fld.SEC_CMD_STAT_CODE, .ro, 0x0, false⟩,
      ⟨Fld.SEC_CMD_STAT_IGNORED, .w1c, 0x0, false⟩,
      ⟨Fld.SEC_CMD_STAT_BUSY, .ro, 0x0, false⟩,
      ⟨Fld.SEC_EPOCH_SWEEPING, .ro, 0x0, false⟩,
      ⟨Fld.SEC_EPOCH_OLD, .ro, 0x0, false⟩,
      ⟨Fld.SEC_EPOCH_CUR, .ro, 0x0, false⟩,
      ⟨Fld.SEC_SWEEP_POL, .rws, 0x10, false⟩,
      ⟨Fld.SEC_SWEEP_LEFT, .ro, 0x0, false⟩,
      ⟨Fld.SEC_KEYSLOTS, .ro, 0x0, false⟩,
      ⟨Fld.SEC_NMEAS, .ro, 0x0, false⟩,
      ⟨Fld.SEC_ROTATIONS, .ro, 0x0, false⟩,
      ⟨Fld.SEC_INTEG_FAIL, .ro, 0x0, false⟩,
      ⟨Fld.SEC_STALE, .ro, 0x0, false⟩ ]

/-- The field maps of a secDev page. -/
def secDevFields : List FieldDef :=
    [ ⟨Fld.SEC_DEV_STAT_SEAL_OPEN, .ro, 0x0, true⟩,
      ⟨Fld.SEC_DEV_STAT_PRODUCTION, .ro, 0x0, true⟩,
      ⟨Fld.SEC_DEV_STAT_SAK_READY, .ro, 0x0, true⟩,
      ⟨Fld.SEC_DEV_STAT_DEBUG_OPEN, .ro, 0x0, true⟩,
      ⟨Fld.SEC_DEV_CMD_OP, .wo, 0x0, false⟩,
      ⟨Fld.SEC_DEV_ADDR_LO, .rw, 0x0, false⟩,
      ⟨Fld.SEC_DEV_ADDR_HI, .rw, 0x0, false⟩,
      ⟨Fld.SEC_DEV_CMD_STAT_CODE, .ro, 0x0, false⟩,
      ⟨Fld.SEC_DEV_CMD_STAT_IGNORED, .w1c, 0x0, false⟩,
      ⟨Fld.SEC_DEV_CMD_STAT_BUSY, .ro, 0x0, false⟩,
      ⟨Fld.SEC_ANCHOR_EN, .rws, 0x0, false⟩ ]
    ++ fieldRun 48 ⟨Fld.SEC_ANCHOR, .rws, 0x0, false⟩
    ++ [ ⟨Fld.SEC_LINK_AUTH_FAIL, .ro, 0x0, false⟩,
      ⟨Fld.SEC_ENTROPY_FAIL, .ro, 0x0, false⟩,
      ⟨Fld.SEC_RESEEDS, .ro, 0x0, false⟩ ]

/-- The field maps of a pwr page. -/
def pwrFields : List FieldDef :=
    [ ⟨Fld.PWR_STAT_INPUT_W, .ro, 0x0, false⟩,
      ⟨Fld.PWR_STAT_TJ_MAX, .ro, 0x0, false⟩,
      ⟨Fld.PWR_STAT_FAULT_THERM, .ro, 0x0, false⟩,
      ⟨Fld.PWR_STAT_THERM_ACT, .ro, 0x0, false⟩,
      ⟨Fld.PWR_STAT_POWER_ACT, .ro, 0x0, false⟩,
      ⟨Fld.PWR_POL, .rws, 0x7d0, false⟩,
      ⟨Fld.PWR_PEAK, .ro, 0x0, false⟩,
      ⟨Fld.PWR_CTRL, .wo, 0x0, false⟩,
      ⟨Fld.PWR_STEPS_DOWN, .ro, 0x0, false⟩,
      ⟨Fld.PWR_STEPS_UP, .ro, 0x0, false⟩,
      ⟨Fld.PWR_OVERRIDES, .ro, 0x0, false⟩,
      ⟨Fld.PWR_THERM_STEPS, .ro, 0x0, false⟩,
      ⟨Fld.PWR_GUARD, .ro, 0x0, false⟩,
      ⟨Fld.PWR_CAP_MISS, .ro, 0x0, false⟩ ]

/-- The field maps of a clk page. -/
def clkFields : List FieldDef :=
    [ ⟨Fld.CLK_POL_EFF_EN, .rws, 0x1, false⟩,
      ⟨Fld.CLK_POL_FLOOR, .rws, 0x3, false⟩,
      ⟨Fld.CLK_POL_CEIL, .rws, 0x0, false⟩,
      ⟨Fld.CLK_OVR, .ro, 0x0, false⟩ ]

/-- The field maps of a clkDev page. -/
def clkDevFields : List FieldDef :=
    fieldRun 10 ⟨Fld.CLK_PT, .ro, 0xffffffff, false⟩
    ++ [ ⟨Fld.CLK_DUTY, .ro, 0x8, false⟩ ]

/-- The field maps of a ras page. -/
def rasFields : List FieldDef :=
    [ ⟨Fld.RAS_DEV_STAT_CAUSE, .ro, 0x0, false⟩,
      ⟨Fld.RAS_DEV_STAT_FAILED, .ro, 0x0, false⟩,
      ⟨Fld.RAS_FAIL_SRC, .ro, 0x0, false⟩,
      ⟨Fld.RAS_FAIL_INFO, .ro, 0x0, false⟩,
      ⟨Fld.RAS_SCRUB_POL, .rws, 0x64, false⟩ ]
    ++ fieldRun 5 ⟨Fld.RAS_FENCE, .ro, 0x0, false⟩
    ++ [ ⟨Fld.RAS_CORR, .ro, 0x0, false⟩,
      ⟨Fld.RAS_RECOV, .ro, 0x0, false⟩,
      ⟨Fld.RAS_UNCORR, .ro, 0x0, false⟩,
      ⟨Fld.RAS_FATAL, .ro, 0x0, false⟩,
      ⟨Fld.RAS_SCRUBS, .ro, 0x0, false⟩ ]

/-- The field maps of a evr page. -/
def evrFields : List FieldDef :=
    [ ⟨Fld.EVR_CMD_FRAME, .wo, 0x0, false⟩,
      ⟨Fld.EVR_CMD_OP, .wo, 0x0, false⟩,
      ⟨Fld.EVR_ADDR_LO, .rw, 0x0, false⟩,
      ⟨Fld.EVR_ADDR_HI, .rw, 0x800, false⟩,
      ⟨Fld.EVR_CMD_STAT_CODE, .ro, 0x0, false⟩,
      ⟨Fld.EVR_CMD_STAT_IGNORED, .w1c, 0x0, false⟩,
      ⟨Fld.EVR_CMD_STAT_BUSY, .ro, 0x0, false⟩,
      ⟨Fld.EVR_SEL, .rw, 0x0, false⟩ ]
    ++ fieldRun 16 ⟨Fld.EVR_REC, .ro, 0x0, false⟩
    ++ [ ⟨Fld.EVR_LIVE, .ro, 0x0, false⟩ ]
    ++ fieldRun 4 ⟨Fld.EVR_DROP, .ro, 0x0, false⟩
    ++ [ ⟨Fld.EVR_RING_AHEAD, .ro, 0x0, false⟩,
      ⟨Fld.EVR_RING_HEAD, .ro, 0x0, false⟩,
      ⟨Fld.EVR_FLUSH_DEFER, .ro, 0x0, false⟩,
      ⟨Fld.EVR_FSEQ, .ro, 0x0, false⟩,
      ⟨Fld.EVR_POL_AUTO_EN, .rws, 0x1, false⟩,
      ⟨Fld.EVR_POL_FLUSH_SEV, .rws, 0x2, false⟩,
      ⟨Fld.EVR_EVENTS, .ro, 0x0, false⟩ ]

/-- The field maps of a boot page. -/
def bootFields : List FieldDef :=
    [ ⟨Fld.BOOT_STATE_FAIL, .ro, 0x0, false⟩,
      ⟨Fld.BOOT_STATE_SLOT, .ro, 0x0, false⟩,
      ⟨Fld.BOOT_STATE_STEP, .ro, 0x1, false⟩,
      ⟨Fld.BOOT_ATTEMPTS, .ro, 0x0, false⟩,
      ⟨Fld.BOOT_BACKOFF, .ro, 0x0, false⟩,
      ⟨Fld.BOOT_IMG_A_ACCEPTABLE, .ro, 0x0, false⟩,
      ⟨Fld.BOOT_IMG_A_VERSION, .ro, 0x0, false⟩,
      ⟨Fld.BOOT_IMG_B_ACCEPTABLE, .ro, 0x0, false⟩,
      ⟨Fld.BOOT_IMG_B_VERSION, .ro, 0x0, false⟩,
      ⟨Fld.BOOT_CMD_OP, .wo, 0x0, false⟩,
      ⟨Fld.BOOT_CMD_STAT_CODE, .ro, 0x0, false⟩,
      ⟨Fld.BOOT_CMD_STAT_IGNORED, .w1c, 0x0, false⟩,
      ⟨Fld.BOOT_CMD_STAT_BUSY, .ro, 0x0, false⟩,
      ⟨Fld.BOOT_STAGE_LO, .rw, 0x0, false⟩,
      ⟨Fld.BOOT_STAGE_HI, .rw, 0x800, false⟩,
      ⟨Fld.BOOT_STAGE_LEN, .rw, 0x0, false⟩ ]

/-- The field maps of a page of each kind, the common ones apart. -/
def kindFields : PageKind → List FieldDef
  | .dev => devFields
  | .hifPort => hifPortFields
  | .hifCh => hifChFields
  | .dsp => dspFields
  | .tpl => tplFields
  | .tok => tokFields
  | .prt => prtFields
  | .prtDev => prtDevFields
  | .arr => arrFields
  | .yrd => yrdFields
  | .memStack => memStackFields
  | .memLease => memLeaseFields
  | .memPart => memPartFields
  | .stk => stkFields
  | .lpd => lpdFields
  | .mce => mceFields
  | .kvs => kvsFields
  | .scn => scnFields
  | .fab => fabFields
  | .col => colFields
  | .colDev => colDevFields
  | .sec => secFields
  | .secDev => secDevFields
  | .pwr => pwrFields
  | .clk => clkFields
  | .clkDev => clkDevFields
  | .ras => rasFields
  | .evr => evrFields
  | .boot => bootFields

/-- The block codes of Table 19.4. -/
def blockCode : Block → Nat
  | .dev => 0x01
  | .hif => 0x02
  | .dsp => 0x03
  | .tpl => 0x04
  | .tok => 0x05
  | .prt => 0x06
  | .arr => 0x10
  | .yrd => 0x20
  | .mem => 0x30
  | .stk => 0x31
  | .lpd => 0x32
  | .mce => 0x33
  | .kvs => 0x40
  | .scn => 0x41
  | .fab => 0x50
  | .col => 0x51
  | .sec => 0x60
  | .pwr => 0x70
  | .clk => 0x71
  | .ras => 0x80
  | .evr => 0x81
  | .boot => 0x82

/-- Every block, for decoding an address (R436). -/
def allBlocks : List Block :=
  [.dev, .hif, .dsp, .tpl, .tok, .prt, .arr, .yrd, .mem, .stk, .lpd, .mce, .kvs, .scn, .fab, .col, .sec, .pwr, .clk, .ras, .evr, .boot]

/-- The block of a block code, when there is one. -/
def blockOfCode (c : Nat) : Option Block := allBlocks.find? fun b => blockCode b == c

/-- The kind of a page; none where Table 19.4 lists no such page (R436, R444). -/
def pageKind (pg : Page) : Option PageKind :=
  let i := pg.inst
  match pg.blk with
  | .dev => if i = 0 then some .dev else none
  | .hif => if i < 2 then some .hifPort else if 16 ≤ i ∧ i < 80 then some .hifCh else none
  | .dsp => if i < 16 then some .dsp else none
  | .tpl => if i < 16 then some .tpl else none
  | .tok => if i = 0 then some .tok else none
  | .prt => if i < 16 then some .prt else if i = 16 then some .prtDev else none
  | .arr => if i < 160 then some .arr else none
  | .yrd => if i = 0 then some .yrd else none
  | .mem => if i < 8 then some .memStack else if i = 8 then some .memLease
      else if 16 ≤ i ∧ i < 32 then some .memPart else none
  | .stk => if i < 8 then some .stk else none
  | .lpd => if i < 16 then some .lpd else none
  | .mce => if i < 24 then some .mce else none
  | .kvs => if i < 16 then some .kvs else none
  | .scn => if i < 16 then some .scn else none
  | .fab => if i < 16 then some .fab else none
  | .col => if i < 16 then some .col else if i = 16 then some .colDev else none
  | .sec => if i < 16 then some .sec else if i = 16 then some .secDev else none
  | .pwr => if i = 0 then some .pwr else none
  | .clk => if i < 16 then some .clk else if i = 16 then some .clkDev else none
  | .ras => if i = 0 then some .ras else none
  | .evr => if i = 0 then some .evr else none
  | .boot => if i = 0 then some .boot else none

/-- The number of a register: bits [27:0] of its address (R436). -/
def regKey (pg : Page) (off : Nat) : Nat := blockCode pg.blk * 2 ^ 20 + (pg.inst % 256 * 2 ^ 12 + off % 4096)

/-- The page and the offset that bits [27:0] of a register address name (R436). -/
def pageOfKey (k : Nat) : Option (Page × Nat) :=
  match blockOfCode (bits 27 20 k) with
  | some b => some (⟨b, bits 19 12 k⟩, bits 11 0 k)
  | none => none

/-- The fields of a page, the common ones among them. -/
def pageFields (pg : Page) : List FieldDef :=
  match pageKind pg with
  | some kd => commonFields ++ kindFields kd
  | none => []

/-- The Reset value of one field on one page: the table's, and where the table gives a page of its own, that page's
(Tables 15.8, 15.9, 14.8; R441 for the notification enables). -/
def fieldReset (pg : Page) (d : FieldDef) : Nat :=
  if d.fld = Fld.PAGE_NOTIFY_EN then
    match pageKind pg with
    | some .dsp => 0x03
    | some .memPart => 0x0C
    | some .prt => 0x10
    | _ => 0
  else if pg = ⟨.prt, 0⟩ ∧ d.fld = Fld.PRT_STAT_G then 0xA0
  else if pg = ⟨.prt, 0⟩ ∧ d.fld = Fld.PRT_STAT_STATE then 1
  else if pg = ⟨.prt, 0⟩ ∧ 0x10C ≤ d.fld.off ∧ d.fld.off < 0x120 then 0xFFFFFFFF
  else if pg = ⟨.hif, 16⟩ ∧ d.fld = Fld.HIF_CH_CFG_ENABLE then 1
  else d.reset

/-- The whole register at reset. A Reset of "–" counts as 0 here (log entry 1): the boot sequencer loads such a field
before any master can reach its page (R449). -/
def resetWordAt (pg : Page) (off : Nat) : Word :=
  BitVec.ofNat 32 (((pageFields pg).filter fun d => d.fld.off == off).foldl (fun a d => a + fieldReset pg d * 2 ^ d.fld.lo) 0)

/-- The register at reset, by its number. -/
def resetWord (k : Nat) : Word :=
  match pageOfKey k with
  | some (pg, off) => resetWordAt pg off
  | none => 0

/-- The field's value in a register word. -/
def fldGet (f : Fld) (w : Word) : Nat := bits f.hi f.lo w.toNat

/-- The word with the field holding `v` (its low bits), every other bit kept. -/
def fldSet (f : Fld) (w : Word) (v : Nat) : Word :=
  BitVec.ofNat 32 (w.toNat - fldGet f w * 2 ^ f.lo + (v % 2 ^ (f.hi + 1 - f.lo)) * 2 ^ f.lo)

end Sys2Proof.Machine
end

