-- ==== Sys2Proof/Machine/State.lean ====
section
/-!
DEFINITION. The state of the block as plain data: every register, token, queue, engine and table the spec names, and the
queue of the commands that are waiting.
-/
namespace Sys2Proof.Machine

/-- Why the machine stops with a fault. No command of this device stops it: every failure the spec describes is a status
code, a register and an event. -/
inductive Fault where
  /-- Raised by nobody; the type needs a name for the host's interface. Safe. -/
  | none
deriving DecidableEq, Repr

/-- Why the machine refuses a command. -/
inductive Refusal where
  /-- Raised by the dispatch for a row that has no meaning yet. Safe. -/
  | notModelled (mnemonic : String)
deriving DecidableEq, Repr

/-! ### Power, clocks and boot (chapter 17) -/

/-- The device's power mode (R20, R402): held in reset, running, or between a power failure and the reset. -/
inductive PowerMode where
  | inReset | running | failing
deriving DecidableEq, Repr

/-- A down-step of the limiter in force (R399): the arrays it moved down one point, or one eighth of duty. -/
inductive DownStep where
  | points (arrays : List Nat)
  | duty
deriving DecidableEq, Repr

/-- Power, clock and boot state behind the registers. -/
structure Pwr where
  mode : PowerMode
  /-- PWR_FAIL_N is high. -/
  pwrFailN : Bool
  /-- The limiter's down-steps in force, newest first (R399). -/
  steps : List DownStep
  /-- The epoch of this boot (R406). -/
  epoch : Nat
  /-- What fuses and the manufacturing record hold, once a power-up has read them; they stay the device's own (R449). -/
  fuses : Fuses
  known : Bool
  /-- The boot epoch counter that the manufacturing region of flash holds (R406). -/
  counter : Nat
  /-- The staged image that waits for the next attempt (R409 operation 3). -/
  staged : Option (List Byte)
  /-- The back-off after the next failed attempt, in ms (R407). -/
  nextBackoff : Nat
  /-- Host ports whose SerDes failed its start-up test, as a mask (R440). -/
  hostFail : Nat
  /-- SHA-384 input of CONFIG_DIG: the whole image booted (R405). -/
  image : List Byte
  /-- The slot number the image came from: 0 A, 1 B, 2 staged (R405). -/
  imageSlot : Nat
  /-- A boot command that waits for memory: operation, whether flash will hold what is written, stage, length (R228, R241). -/
  parked : Option (Nat × Bool × Nat × Nat)
deriving DecidableEq, Repr

/-! ### The event recorder (chapter 18) -/

/-- An event's key (R420): source page, class, code, detail, partition. -/
structure EvKey where
  src : Page
  cls : Nat
  code : Nat
  detail : Nat
  part : Option Nat
deriving DecidableEq, Repr

/-- What a record or a coalescing place accumulates (Table 18.4). -/
structure EvAcc where
  sev : Nat
  count : Nat
  hist : List Nat
  min : Nat
  max : Nat
  first : Nat
  last : Nat
deriving DecidableEq, Repr

/-- One of the 4,096 record slots (R421). Its GEN counts from the base that a CLEAR advances for every slot (R426). -/
structure Slot where
  gen : Nat
  body : Option (EvKey × EvAcc)
deriving DecidableEq, Repr

/-- A flush in progress (R430): its frame and the cause its header names. -/
structure FlushJob where
  frame : Nat
  cause : Nat
  /-- The header's bytes, and the slots with their GEN base, as they stood when the flush started. -/
  header : List Byte
  slots : Tab Slot
  genBase : Nat
deriving DecidableEq, Repr

/-- The event recorder behind the EVR page. -/
structure Evr where
  /-- Coalescing places of each source: at most 4 keys, oldest first (R425). -/
  coal : Tab (List (EvKey × EvAcc))
  /-- Keys that have had an event since power-up (the first has no v, R420). -/
  seen : List EvKey
  slots : Tab Slot
  genBase : Nat
  /-- Live slots, most recently written first (R424). -/
  recency : List Nat
  /-- The source served last (round robin, R425). -/
  lastSrc : Nat
  /-- Frames that are erased. -/
  erased : List Nat
  /-- The frame that the next flush writes. -/
  head : Nat
  writing : Option FlushJob
  /-- The frame being erased. -/
  erasing : Option Nat
  /-- A flush waits (R432), with its cause. -/
  deferred : Option Nat
  /-- At least one second has passed since the previous flush that was not for power failure (R432). -/
  spaced : Bool
  /-- Frames written since power-up. -/
  written : Nat
  fseq : Nat
  /-- A command that waits for memory: operation, frame, destination (R228, R241). -/
  parked : Option (Nat × Nat × Nat)
deriving DecidableEq, Repr

/-! ### Tokens, queues and flights (chapter 02) -/

/-- A token (Table 2.7), and whether an uncorrected error has poisoned it (R413). -/
structure Token where
  value : Nat
  gen : Nat
  owner : Nat
  poisoned : Bool
deriving DecidableEq, Repr

/-- What a descriptor captures when its issue checks pass (R40, R116, R117, R134). -/
structure Capture where
  seed : Nat
  num : Word
  pins : List Word
  g : Nat
  /-- The block read at issue together with the descriptor (R120, R260), and the pointer or item list. -/
  blk : List Byte
  list : List Byte
deriving DecidableEq, Repr

/-- The entry at the head of a queue, read and accepted (R34). -/
structure HeadEntry where
  ttAddr : Nat
  count : Nat
  tag : Nat
deriving DecidableEq, Repr

/-- The descriptor at the head of a queue, read and judged once (R42). `code` is OK, ZERO_LENGTH or the class F code. -/
structure HeadDesc where
  addr : Nat
  bytes : List Byte
  code : Nat
  cap : Capture
deriving DecidableEq, Repr

/-- The dispatcher's state of one queue behind its DSP page. -/
structure Queue where
  entry : Option HeadEntry
  desc : Option HeadDesc
  /-- The queue is HELD (R46). -/
  held : Bool
  /-- A FLUSH waits for the flights to end (R58). -/
  flushing : Bool
  /-- The number under which the reads of leased memory that the head needs were sent (R239). -/
  ask : Option Nat
deriving DecidableEq, Repr

/-- Who executes a descriptor (Table 2.1, R30). -/
inductive Station where
  | arr | stk (s : Nat) | yrd | kvs | scn | col | hos | disp | tok | mem
deriving DecidableEq, Repr

/-! ### Tile planning and the matrix array (chapters 03 and 05) -/

/-- A plan (R125): the operand format, the matrix shape, and what the planner computed. -/
structure Plan where
  m : Nat
  n : Nat
  k : Nat
  batch : Nat
  mt : Nat
  nt : Nat
  nM : Nat
  nN : Nat
  l : Nat
  kp : Nat
  gr : Nat
  gc : Nat
  gb : Nat
  kmax : Nat
deriving DecidableEq, Repr

/-- A work item (R127): batch, tile row, tile column, part. -/
structure Item where
  b : Nat
  r : Nat
  c : Nat
  l : Nat
deriving DecidableEq, Repr

/-- A chunk in a feeder half (R64, R128): the descriptor, slot and pass it was delivered for, which operand it is, its
batch, its tile row or column, and its K range. -/
structure Chunk where
  fid : Nat
  slot : Nat
  pass : Nat
  isA : Bool
  b : Nat
  idx : Nat
  k0 : Nat
  len : Nat
deriving DecidableEq, Repr

/-- What a place of output staging holds (R69, R130): outputs to be written, a starting block, or a partial of a split
tile at a level and a place of the tree. -/
inductive StagKind where
  | out | start | part (lvl i : Nat)
deriving DecidableEq, Repr

/-- An allocation of output staging (R69). -/
structure Staged where
  fid : Nat
  item : Item
  kind : StagKind
  units : Nat
  /-- Partials: the pairs, row by row. -/
  pairs : List (Val × Val)
  /-- Outputs: the bytes to be written, by address. -/
  writes : List (Nat × List Byte)
deriving DecidableEq, Repr

/-- A run on an array (R65): its descriptor, slot and pass, its items (the current one first), how much of the current
item's part has been accumulated, whether the current tile has started, the MAC cycles of the tiles so far (newest
first) and how many tiles were preloaded. -/
structure ArrRun where
  fid : Nat
  slot : Nat
  pass : Nat
  items : List Item
  kDone : Nat
  started : Bool
  spans : List Nat
  preloads : Nat
deriving DecidableEq, Repr

/-- One array (chapter 03): the run on it, the active and shadow registers and the preload latches of its cells with the
item each belongs to, the four feeder halves (A, A, B, B), output staging, and the nine live counters in the order of
Table 3.12. -/
structure Arr where
  run : Option ArrRun
  active : Option (Item × List Val)
  shadow : Option (Nat × Nat × Item × List Val)
  latch : Option (List Val)
  halves : List (Option Chunk)
  staging : List Staged
  cnt : List Nat
deriving DecidableEq, Repr

/-- A tile planner that is busy (R118): the descriptor it plans and emits. -/
abbrev Planner := Option Nat

/-! ### KVS (chapter 07) and SCN (chapter 08) -/

/-- A partition's KV pool behind its KVS page: the free list in order (R161), the pool pages held, earliest allocated
first, each as (stream, entry index), and a command that waits for references (R174): operation, stream, argument. -/
structure Kvs where
  free : List Nat
  pool : List (Nat × Nat)
  waiting : Option (Nat × Nat × Nat)
deriving DecidableEq, Repr

/-- A resident slot in use (R185): its stream and which of its two images is current. -/
structure ScnSlot where
  slot : Nat
  stream : Nat
  cur : Nat
deriving DecidableEq, Repr

/-- A partition's recurrence state behind its SCN page: the slots in use in the order in which their streams were last
made current or swapped in (oldest first, R197), streams waiting for a swap-in, a command that waits (R199), and the code of each
stream whose last swap-in could not read its siding (R349, R373). -/
structure Scn where
  slots : List ScnSlot
  want : List Nat
  waiting : Option (Nat × Nat)
  lost : List (Nat × Nat)
  /-- The swap-ins that wait for the swap-out of a stream that they evict: (stream, evicted stream) (R197). -/
  evict : List (Nat × Nat)
deriving DecidableEq, Repr

/-! ### Descriptors in flight -/

/-- Which output an overflow is charged to (R106). -/
inductive Charged where
  | primary | pre | stats
deriving DecidableEq, Repr

/-- The progress of a GEMM, a CONV or a CHECK: its planner, plan, pass and drain block, the formats in force, the slots not
yet placed with their items, the tiles whose outputs are not yet written, the sampled tiles not yet recomputed and those of
them that have drained (with their array and their primary values), the overflow met and the page where the descriptor's
first arose, the mismatches of the pass, and the saturated and special elements of each array (R451). -/
structure TileWork where
  planner : Option Nat
  plan : Plan
  pass : Nat
  dblk : List Byte
  ofmt : Fmt
  preFmt : Fmt
  waiting : List (Nat × List Item)
  left : List Nat
  sampled : List Nat
  prim : List (Nat × Nat × List Val)
  ovf : Option Charged
  first : Option Page
  dists : List (Option Val)
  sat : Tab Nat
  special : Tab Nat
deriving DecidableEq, Repr

/-- The progress of an ATTN: the captured lengths of its items, the format of O in force, the sequences still to run, the
hits of each page (sequence, logical page), an overflow that awaits its replay, the page where the first overflow arose, and
the special elements of each array (R168 to R172, R451). -/
structure AttnWork where
  captured : Bool
  caps : List Nat
  ofmt : Fmt
  pass : Nat
  left : List Nat
  hits : List ((Nat × Nat) × Nat)
  ovf : Bool
  first : Option Page
  special : Tab Nat
  /-- Output elements of the sequences without an attended position (R171). -/
  empty : Nat
deriving DecidableEq, Repr

/-- The progress of a KVAPP: the next item, the first failure (index, code) (R164), whether an item overflowed, and the special
elements written. -/
structure KvWork where
  next : Nat
  fail : Option (Nat × Nat)
  ovf : Bool
  special : Nat
deriving DecidableEq, Repr

/-- The progress of a SCAN: whether it is admitted and whether it has waited for that, its D, the format of y, the chunks done
of each (item, head), an overflow of y that awaits its replay, the page where the first overflow arose, and the special
elements of each array (R188 to R195, R451). -/
structure ScanWork where
  admitted : Bool
  waited : Bool
  d : Nat
  ofmt : Fmt
  pass : Nat
  chunks : List ((Nat × Nat) × Nat)
  ovf : Bool
  first : Option Page
  special : Tab Nat
  /-- State words that the hand-offs of the pass wrote as an infinity or a NaN (R87). -/
  hand : Nat
deriving DecidableEq, Repr

/-- The progress of a SWAP: streams not yet handled, streams whose swap it waits for, each with whether that is a swap of its own,
the first failing code. -/
structure SwapWork where
  left : List Nat
  waitFor : List (Nat × Bool)
  fail : Option Nat
deriving DecidableEq, Repr

/-- The progress of a stack engine descriptor or of a MOVE in YRD: the engines that have finished their units of the pass (R266), the
replays so far and the output format in force (R106), whether the last pass overflowed and its replay is due, the page where its
first overflow arose (R451), and whether its copy-back phase has begun (R263). -/
structure StkWork where
  done : List Nat
  pass : Nat
  ofmt : Fmt
  due : Bool
  first : Option Page
  copy : Bool
deriving DecidableEq, Repr

/-- What a station keeps of a descriptor while it works on it. -/
inductive Work where
  | none
  | tiles (w : TileWork)
  | attn (w : AttnWork)
  | kvapp (w : KvWork)
  | scan (w : ScanWork)
  | swap (w : SwapWork)
  | stk (w : StkWork)
  /-- A MOVE to or from a host: bytes or packets still outstanding (R338). -/
  | hos (left : Nat)
  /-- A held ACQUIRE (R53). -/
  | acquire
  /-- A COLL that COL has taken over (R301). -/
  | coll
deriving DecidableEq, Repr

/-- A descriptor in flight: where it came from, its 64 bytes, what it captured, where it runs, the memory as it stood
when it started (R108), its progress, and its result once it has one: code, detail and the replays it took (R106). -/
structure Flight where
  fid : Nat
  q : Nat
  entry : Nat
  desc : Nat
  tag : Nat
  addr : Nat
  bytes : List Byte
  cap : Capture
  /-- DSP_Q_ISSUED after its issue (Table 5.12). -/
  seq : Nat
  station : Station
  snap : Option (List Host.Cell)
  work : Work
  result : Option Nat
  detail : Nat
  replays : Nat
deriving DecidableEq, Repr

/-! ### Memory, yard and leases (chapter 10, chapter 15) -/

/-- The state of an extent (R348). -/
inductive Ext where
  | unassigned | assigned (p : Nat) | lendable | lent | failed | zeroing (p : Nat)
deriving DecidableEq, Repr

/-- The state of a lease at its borrower (R232); its slots share it. FREE slots belong to no lease. -/
inductive LeaseState where
  | pending | held | reclaiming | lost | releasing
deriving DecidableEq, Repr

/-- A lease as the borrower holds it (R232 to R238): `acq` is the ACQUIRE that waits for its answer, `rels` the RELEASEs that wait for
its end, in order of issue. -/
structure Lease where
  part : Nat
  first : Nat
  count : Nat
  peer : Nat
  keysel : Nat
  state : LeaseState
  acq : Option Nat
  rels : List Nat
  /-- Messages this side has sent on the lease (Table 10.6). -/
  seq : Nat
  /-- LREQ has been sent. -/
  asked : Bool
  /-- LREL has been sent. -/
  lrelSent : Bool
  detail : Nat
  /-- The extents that LGRANT named. -/
  exts : List Nat
deriving DecidableEq, Repr

/-- A lease as the lender holds it. -/
structure Lend where
  id : Nat
  borrower : Nat
  exts : List Nat
  reclaiming : Bool
  seq : Nat
  keyid : Nat
deriving DecidableEq, Repr

/-- An access to leased memory (R299): the descriptor that makes it, the lease's first slot, whether it writes, its window
address and length, its TAG, and whether the lender has answered it. -/
structure LeaseAcc where
  fid : Nat
  first : Nat
  isWrite : Bool
  addr : Nat
  len : Nat
  tag : Nat
  done : Bool
deriving DecidableEq, Repr

/-- The yard behind its page: cached lines as (partition, line number, way), most recently used first (R227), and the scratch
ways being overwritten with zero (R228). -/
structure Yard where
  lines : List (Nat × Nat × Nat)
  zeroising : List Nat
deriving DecidableEq, Repr

/-- A channel under retraining is named by its kind, its stack or package, and its number. -/
structure MemChan where
  lpddr : Bool
  unit : Nat
  ch : Nat
deriving DecidableEq, Repr

/-- Retraining (R241 to R243): channels held now, how often each has failed in a row, and the descriptors whose requests
wait, in arrival order; after a retrain they proceed in that order. -/
structure Retrain where
  held : List MemChan
  fails : List (MemChan × Nat)
  waiting : List (MemChan × Nat)
deriving DecidableEq, Repr

/-! ### Partitions (chapter 15) -/

/-- The states of a partition (Table 15.2). -/
inductive PartState where
  | none | active | suspending | suspended | resuming | tearing | torn
deriving DecidableEq, Repr

/-- A partition: its state, whether its quiet point has been reached (R354), and the arrays leaving it (R352). -/
structure Part where
  state : PartState
  quiet : Bool
  leaving : List Nat
deriving DecidableEq, Repr

/-! ### Collectives and the fabric (chapter 13) -/

/-- A reduction context (R307): its COLL, what it took from the group entry, the segments sent and in flight on each tree
(R308), the result segments received, and how it stands: DONE and ABORT sent, the member's own failing code, whether a result
element overflowed here, and the elements clamped and special (R305, R451). -/
structure ColCtx where
  ctx : Nat
  fid : Nat
  part : Nat
  group : Nat
  fgid : Nat
  gseq : Nat
  epoch : Nat
  nmem : Nat
  rank : Nat
  port0 : Nat
  port1 : Nat
  timeoutMs : Nat
  reform : Bool
  keysel : Nat
  /-- How many of the member's own segments have been sent on each tree. -/
  sent : List Nat
  /-- Segments in flight: (tree, segment number). -/
  inflight : List (Nat × Nat)
  /-- Result segments received: (rank whose slice it is, segment number). -/
  got : List (Nat × Nat)
  doneSent : Bool
  abortSent : Bool
  own : Nat
  ovf : Bool
  clamped : Nat
  special : Nat
deriving DecidableEq, Repr

/-- COL behind its pages: contexts in use, COLLs waiting for one in issue order, the partition served last, the command that
waits, of each partition (R318: partition, operation, group), and the groups OPEN with their fabric group ids (Table 13.26). -/
structure Col where
  ctxs : List ColCtx
  waiting : List Nat
  lastPart : Nat
  closing : List (Nat × Nat × Nat)
  opened : List (Nat × Nat × Nat)
deriving DecidableEq, Repr

/-- The states of a port (Table 13.5). -/
inductive PortState where
  | down | pmdTrain | pcsLock | flitAlign | auth | up | backoff
deriving DecidableEq, Repr

/-- A flit (Tables 13.1, 13.2). -/
structure Flit where
  seq : Nat
  ack : Nat
  crcum : Nat
  crvl : Nat
  vl : Nat
  ftype : Nat
  last : Bool
  dst : Nat
  payload : List Byte
deriving DecidableEq, Repr

/-- A TRAIN flit's advertisement (Table 13.3). -/
structure TrainInfo where
  kind : Nat
  idValid : Bool
  id : Nat
  caps : Nat
  segs : Nat
  ctx : Nat
  /-- Receive buffers of VL0 to VL3 in flits. -/
  credits : List Nat
  /-- Bytes 0 to 17 as they were sent (R382). -/
  raw : List Byte
deriving DecidableEq, Repr

/-- A message (R296): the lane it travels on, the lane it belongs to, its destination, its source for round-robin, the
HEAD payload, the body, and the partition and job key slot that protect it. A message waits at its port as plaintext until its turn
comes, and a message received stands in the inbox as plaintext; what is being sent, and every flit, is protected (R297). -/
structure Msg where
  vl : Nat
  home : Nat
  dst : Nat
  src : Nat
  head : List Byte
  body : List Byte
  keyPart : Nat
  keySlot : Nat
deriving DecidableEq, Repr

/-- A fabric port behind its page (R282 to R295). -/
structure Port where
  state : PortState
  authed : Bool
  partner : Option TrainInfo
  prev : Option (Nat × Nat)
  /-- Consecutive failures since UP or enabling. -/
  fails : Nat
  backoffMs : Nat
  trainGood : Nat
  /-- The next SEQ to send, the oldest unacknowledged, and the flits held. -/
  txSeq : Nat
  held : List Flit
  /-- HEAD and BODY flits of the replay buffer that wait for the port to be UP again (R287, log entry 67). -/
  kept : List Flit
  rxSeq : Nat
  /-- A flit has been accepted since the last NAK (R286). -/
  nakReady : Bool
  replays : Nat
  /-- Credits held for each lane, the cumulative counts last seen, and the cumulative counts returned. -/
  credits : List Nat
  seenCum : List Nat
  retCum : List Nat
  crvl : Nat
  /-- Messages ready to be sent, oldest first, and those that have waited for credit. -/
  queue : List Msg
  /-- On each lane, the message being sent and how many of its flits have been sent. -/
  cur : List (Option (Msg × Nat))
  /-- On each lane, the flits of the message being received; and the complete messages not yet consumed. -/
  partials : List (List Flit)
  inbox : List Msg
  lastSrc : List Nat
  /-- Flits sent on VL1 and VL2 while both had flits ready (R290). -/
  wrr : Nat × Nat
  margin : Nat
  serdesFail : Bool
  /-- The port is out of UP for a retrain. -/
  outage : Bool
  /-- The AUTH exchange (R382): AUTH flits that wait for a place in the replay buffer, anchors enabled when it began, own nonce, the
  partner's nonce, and the pieces of its chain so far. -/
  authOut : List Flit
  anchors : List (List Byte)
  nonce : List Byte
  partnerNonce : List Byte
  certs : List (List Byte)
deriving DecidableEq, Repr

/-- The window of counters accepted from one sender under one key (R297). -/
structure IvWin where
  keyid : Nat
  src : Nat
  high : Nat
  seen : List Nat
deriving DecidableEq, Repr

/-! ### Host interface (chapter 14) -/

/-- A device packet that awaits its acknowledgement (R330). -/
structure TxPkt where
  seq : Nat
  /-- It has been sent: at most 256 are sent and unacknowledged (R330). -/
  sent : Bool
  ptype : Nat
  flags : Nat
  body : List Byte
  resends : Nat
  /-- The descriptor whose MOVE the packet carries data for. -/
  fid : Option Nat
deriving DecidableEq, Repr

/-- A request accepted in order and not yet complete (R330, R334): the number its lease accesses carry, its packet type and
body, and whether its writes have been made. -/
structure HReq where
  fid : Nat
  ptype : Nat
  body : List Byte
  started : Bool
deriving DecidableEq, Repr

/-- A live session (R326 to R331). -/
structure Session where
  sid : Nat
  port : Nat
  peer : Nat
  maxData : Nat
  keyHD : List Byte
  keyDH : List Byte
  saltHD : List Byte
  saltDH : List Byte
  ctrTx : Nat
  ctrHigh : Option Nat
  ctrSeen : List Nat
  rxNext : Nat
  /-- Packets received ahead of their turn: SEQ, type, body. -/
  early : List (Nat × Nat × List Byte)
  todo : List HReq
  txNext : Nat
  out : List TxPkt
  mask : Option Nat
  lost : Nat
  ackDue : Bool
deriving DecidableEq, Repr

/-- A channel: its session, and the mask an ended session left (R331). -/
structure Chan where
  session : Option Session
  kept : Nat
deriving DecidableEq, Repr

/-- A pending handshake (R329). -/
structure Handshake where
  chan : Nat
  port : Nat
  peer : Nat
  sid : Nat
  hostEph : List Byte
  hostNonce : List Byte
  hostPub : List Byte
  eph : Nat
  devNonce : List Byte
  reply : List Byte
deriving DecidableEq, Repr

/-- A MOVE_PULL that awaits its MOVE_FILL (R338). -/
structure Pull where
  moveId : Nat
  fid : Nat
  chan : Nat
  offset : Nat
  len : Nat
  addr : Nat
deriving DecidableEq, Repr

/-- The host interface behind its pages. -/
structure Hif where
  pending : List Handshake
  nextSid : Nat
  nextMove : Nat
  pulls : List Pull
deriving DecidableEq, Repr

/-- What the device has sent, newest first: the model's own trace of outputs. A host packet stands there with its port, the
addresses it goes to and its bytes; a flit with its port and its 268 bytes. -/
inductive Out where
  | packet (port peer : Nat) (bytes : List Byte)
  | neighborAdvert (port src target : Nat)
  | echoReply (port src target : Nat) (data : List Byte)
  | flit (port : Nat) (bytes : List Byte)
deriving DecidableEq, Repr

/-! ### Stack engines (chapter 11), security (chapter 16) -/

/-- A stack engine behind its page: descriptors in progress, descriptors waiting, the live counters of Table 11.12. -/
structure Stk where
  active : List Nat
  waiting : List Nat
  cnt : List Nat
deriving DecidableEq, Repr

/-- A memory key set (Table 16.1); all zero when zeroised. -/
structure KeySet where
  kx1 : List Byte
  kx2 : List Byte
  kt : List Byte
deriving DecidableEq, Repr

/-- A job key slot (R380, R381): loaded key with its identifier, and the counter that never goes back. -/
structure JobSlot where
  keyid : Nat
  key : List Byte
  ivctr : Nat
deriving DecidableEq, Repr

/-- The security state of a partition. -/
structure SecPart where
  pka : Nat
  cur : Nat
  old : Nat
  sweeping : Bool
  curSet : KeySet
  oldSet : KeySet
  slots : List JobSlot
  meas : List (List Byte)
  /-- The sweep still to do: for each MCE its extents, ascending, and the next block in the first. -/
  sweep : List (Nat × List Nat × Nat)
deriving DecidableEq, Repr

/-- The security state of the device. -/
structure Sec where
  sak : Nat
  /-- The device's chain, 512 B: the SAK certificate, then the identity certificate (R367). -/
  chain : List Byte
  lend : KeySet
  node : List (List Byte)
  /-- The DRBG, the requests since it was last seeded, and the entropy inputs drawn so far, which no reset restarts (R366). -/
  drbg : Drbg
  sinceSeed : Nat
  draws : Nat
  reportSeq : Nat
  debugOpen : Bool
  sealOpen : Bool
  /-- The current instruction of the test access port, 8 bits (R388). -/
  ir : Nat
  failed : Bool
deriving DecidableEq, Repr

/-- A SEC command that runs (R391): the number its lease accesses carry, its page's instance, its operation, and its result while its writes to leased memory are not yet acknowledged. -/
structure SecJob where
  fid : Nat
  part : Nat
  op : Nat
  result : Option Nat
deriving DecidableEq, Repr

/-- What the MCE knows of one 512 B block apart from its plaintext: the epoch in its tag word and whether its check
fails. -/
structure BlkMeta where
  epoch : Nat
  bad : Bool
deriving DecidableEq, Repr

/-- A node of a freshness tree (R372): the major counter and the minor counters that are not zero. -/
structure Node where
  major : Nat
  minors : Tab Nat
  /-- Its tag does not match. -/
  bad : Bool
deriving DecidableEq, Repr

/-- The MCEs behind their pages: blocks whose tag differs from their extent's base, the base epoch of each extent, and the
freshness nodes, numbered by package, level and node. -/
structure Mce where
  blocks : Tab (Option BlkMeta)
  base : Tab Nat
  nodes : Tab Node
deriving DecidableEq, Repr

/-! ### The state -/

/-- What an unlisted memory byte reads as: zero (R228, R348; log entry 2). -/
def memDefault (_ : Nat) : Byte := 0

/-- What an unlisted flash byte reads as: erased (log entry 3). -/
def flashDefault (_ : Nat) : Byte := 0xFF

/-- A token as power-up leaves it (R52). -/
def tokenDefault (_ : Nat) : Token := ⟨0, 0, 0, false⟩

/-- A queue as power-up leaves it. -/
def queueDefault (_ : Nat) : Queue := ⟨none, none, false, false, none⟩

/-- An array as power-up leaves it: nothing in it, counters zero. -/
def arrDefault (_ : Nat) : Arr := ⟨none, none, none, none, [none, none, none, none], [], [0, 0, 0, 0, 0, 0, 0, 0, 0]⟩

/-- A stack engine as power-up leaves it. -/
def stkDefault (_ : Nat) : Stk := ⟨[], [], [0, 0, 0, 0, 0, 0]⟩

/-- A partition as power-up leaves it: partition 0 is ACTIVE (Table 15.8), every other NONE. -/
def partDefault (p : Nat) : Part := ⟨if p = 0 then .active else .none, false, []⟩

/-- A KV pool as power-up leaves it. -/
def kvsDefault (_ : Nat) : Kvs := ⟨[], [], none⟩

/-- A recurrence state as power-up leaves it. -/
def scnDefault (_ : Nat) : Scn := ⟨[], [], none, [], []⟩

/-- A port as power-up leaves it. -/
def portDefault (_ : Nat) : Port :=
  { state := .down, authed := false, partner := none, prev := none, fails := 0, backoffMs := 0, trainGood := 0,
    txSeq := 0, held := [], kept := [], rxSeq := 0, nakReady := false, replays := 0, credits := [0, 0, 0, 0],
    seenCum := [0, 0, 0, 0], retCum := [0, 0, 0, 0], crvl := 0, queue := [], cur := [none, none, none, none],
    partials := [[], [], [], []], inbox := [], lastSrc := [0, 0, 0, 0], wrr := (0, 0), margin := 0, serdesFail := false,
    outage := false, authOut := [], anchors := [], nonce := [], partnerNonce := [], certs := [] }

/-- A channel as power-up leaves it. -/
def chanDefault (_ : Nat) : Chan := ⟨none, 0⟩

/-- A zeroised key of 32 bytes. -/
def keyZero : List Byte := List.replicate 32 0

/-- A zeroised key set. -/
def keySetZero : KeySet := ⟨keyZero, keyZero, keyZero⟩

/-- A partition's security state as power-up leaves it. -/
def secPartDefault (_ : Nat) : SecPart :=
  ⟨0, 0, 0, false, keySetZero, keySetZero, List.replicate 8 ⟨0, keyZero, 0⟩, [], []⟩

/-- Extents before boot: UNASSIGNED (R348). -/
def extDefault (_ : Nat) : Ext := .unassigned

/-- A record slot as power-up leaves it: free, GEN 0. -/
def slotDefault (_ : Nat) : Slot := ⟨0, none⟩

/-- Fuses before boot has read them. -/
def fusesZero : Fuses := ⟨0, 0, 0, 0, [], 0, false, false, false, [], 0, []⟩

/-- The state of the block. -/
structure State where
  pwr : Pwr
  /-- The stored registers, by address bits [27:0]; unlisted ones hold their Reset value. -/
  regs : Tab Word
  /-- The staging copies of RWS fields. -/
  staged : Tab Word
  /-- The status and the data that the last register-bus access gave (R9). -/
  bus : Nat × Nat
  mem : List Host.Cell
  flash : List Host.Cell
  toks : Tab Token
  queues : Tab Queue
  /-- The queue that the dispatcher served last (R43). -/
  lastServed : Nat
  flights : List Flight
  nextFid : Nat
  planners : Tab Planner
  arrs : Tab Arr
  stks : Tab Stk
  yard : Yard
  retrain : Retrain
  exts : Tab Ext
  leases : List Lease
  lends : List Lend
  accs : List LeaseAcc
  /-- The TAG of the next lease access (R299). -/
  nextTag : Nat
  parts : Tab Part
  kvs : Tab Kvs
  /-- The look-aside buffer: (partition, stream, entry index) of each place (R157). -/
  lab : List (Nat × Nat × Nat)
  scn : Tab Scn
  col : Col
  ports : Tab Port
  ivs : List IvWin
  hif : Hif
  chans : Tab Chan
  sec : Sec
  secs : Tab SecPart
  secJobs : List SecJob
  /-- Requests that are no descriptors and have been ended from outside, each with its code: MEMBER_LOST (R236), HW_FAULT (R243). -/
  lostFids : List (Nat × Nat)
  mce : Mce
  evr : Evr
  out : List Out
  /-- The counter that free values are applied to: the model's own (log entry 4). -/
  freeCtr : Nat
  pending : List Instr
deriving DecidableEq, Repr

/-- The event recorder at power-up. -/
def evrReset : Evr :=
  { coal := [], seen := [], slots := [], genBase := 0, recency := [], lastSrc := 0, erased := [], head := 0, writing := none,
    erasing := none, deferred := none, spaced := true, written := 0, fseq := 0,
    parked := none }

/-- The machine right after reset: MOD_RESET_N is low, every register at its Reset value, nothing in flight, memory with
nothing listed, no command waiting (R20, R403, R449; log entry 6). -/
def State.reset : State :=
  { pwr := ⟨.inReset, true, [], 0, fusesZero, false, 0, none, 1, 0, [], 3, none⟩
    regs := [], staged := [], bus := (0, 0), mem := [], flash := [], toks := [], queues := [], lastServed := 15
    flights := [], nextFid := 0, planners := [], arrs := [], stks := [], yard := ⟨[], []⟩, retrain := ⟨[], [], []⟩
    exts := [], leases := [], lends := [], accs := [], nextTag := 0, parts := [], kvs := [], lab := [], scn := []
    col := ⟨[], [], 15, [], []⟩, ports := [], ivs := [], hif := ⟨[], 1, 1, []⟩, chans := []
    sec := ⟨0, [], keySetZero, List.replicate 16 keyZero, ⟨[], []⟩, 0, 0, 0, false, false, 0x01, false⟩, secs := [], secJobs := [], lostFids := [], mce := ⟨[], [], []⟩
    evr := evrReset, out := [], freeCtr := 0, pending := [] }

end Sys2Proof.Machine
end

