-- ==== Sys2Proof/Machine/Ops.lean ====
section
/-!
DEFINITION. The named operations over registers, events, memory, the yard, the memory crypto engines and tokens: every
meaning is written over these.
-/
namespace Sys2Proof.Machine

/-! ### Registers -/

/-- The stored value of a field on a page. -/
def rg (s : State) (pg : Page) (f : Fld) : Nat := fldGet f (tabGet resetWord s.regs (regKey pg f.off))

/-- The state with a field of a page holding `v` (its low bits). -/
def st (pg : Page) (f : Fld) (v : Nat) (s : State) : State :=
  let k := regKey pg f.off
  { s with regs := tabSet resetWord s.regs k (fldSet f (tabGet resetWord s.regs k) v) }

/-- Add to a field, wrapping at its width (the counters of the field maps). -/
def inc (pg : Page) (f : Fld) (n : Nat) (s : State) : State := st pg f (rg s pg f + n) s

/-- Add to a field, saturating at its width. -/
def incSat (pg : Page) (f : Fld) (n : Nat) (s : State) : State :=
  st pg f (min (rg s pg f + n) (2 ^ (f.hi + 1 - f.lo) - 1)) s

/-- The staged value of an RWS field (R6). -/
def stg (s : State) (pg : Page) (f : Fld) : Nat := fldGet f (tabGet resetWord s.staged (regKey pg f.off))

/-- The hardware itself changes an RWS field: the staging copy follows unless a value waits in it (R8). -/
def stRws (pg : Page) (f : Fld) (v : Nat) (s : State) : State :=
  let k := regKey pg f.off
  if stg s pg f = rg s pg f then st pg f v { s with staged := tabSet resetWord s.staged k (fldSet f (tabGet resetWord s.staged k) v) }
  else st pg f v s

/-- Do something only when the condition holds. -/
def wh (c : Bool) (f : State → State) (s : State) : State := if c then f s else s

/-- The pages by name. -/
abbrev pgDsp (q : Nat) : Page := ⟨.dsp, q⟩
/-- The page of tile planner `i`. -/
abbrev pgTpl (i : Nat) : Page := ⟨.tpl, i⟩
/-- The TOK page. -/
abbrev pgTok : Page := ⟨.tok, 0⟩
/-- The DEV page. -/
abbrev pgDev : Page := ⟨.dev, 0⟩
/-- The PRT page of partition `p`. -/
abbrev pgPrt (p : Nat) : Page := ⟨.prt, p⟩
/-- The PRT device page. -/
abbrev pgPrtDev : Page := ⟨.prt, 16⟩
/-- The page of ARR.`n`. -/
abbrev pgArr (n : Nat) : Page := ⟨.arr, n⟩
/-- The YRD page. -/
abbrev pgYrd : Page := ⟨.yrd, 0⟩
/-- The MEM page of stack `k`. -/
abbrev pgMem (k : Nat) : Page := ⟨.mem, k⟩
/-- The MEM lease page. -/
abbrev pgLease : Page := ⟨.mem, 8⟩
/-- The MEM page of partition `p`. -/
abbrev pgMemP (p : Nat) : Page := ⟨.mem, 16 + p⟩
/-- The STK page. -/
abbrev pgStk (k : Nat) : Page := ⟨.stk, k⟩
/-- The LPD page of package `p`. -/
abbrev pgLpd (p : Nat) : Page := ⟨.lpd, p⟩
/-- The MCE page of instance `i`. -/
abbrev pgMce (i : Nat) : Page := ⟨.mce, i⟩
/-- The KVS page of partition `p`. -/
abbrev pgKvs (p : Nat) : Page := ⟨.kvs, p⟩
/-- The SCN page of partition `p`. -/
abbrev pgScn (p : Nat) : Page := ⟨.scn, p⟩
/-- The FAB page of port `p`. -/
abbrev pgFab (p : Nat) : Page := ⟨.fab, p⟩
/-- The COL page of partition `p`. -/
abbrev pgCol (p : Nat) : Page := ⟨.col, p⟩
/-- The COL device page. -/
abbrev pgColDev : Page := ⟨.col, 16⟩
/-- The SEC page of partition `p`. -/
abbrev pgSec (p : Nat) : Page := ⟨.sec, p⟩
/-- The SEC device page. -/
abbrev pgSecDev : Page := ⟨.sec, 16⟩
/-- The PWR page. -/
abbrev pgPwr : Page := ⟨.pwr, 0⟩
/-- The CLK page of partition `p`. -/
abbrev pgClk (p : Nat) : Page := ⟨.clk, p⟩
/-- The CLK device page. -/
abbrev pgClkDev : Page := ⟨.clk, 16⟩
/-- The RAS page. -/
abbrev pgRas : Page := ⟨.ras, 0⟩
/-- The EVR page. -/
abbrev pgEvr : Page := ⟨.evr, 0⟩
/-- The BOOT page. -/
abbrev pgBoot : Page := ⟨.boot, 0⟩
/-- The HIF page of port `k`. -/
abbrev pgHif (k : Nat) : Page := ⟨.hif, k⟩
/-- The HIF page of channel `c`. -/
abbrev pgCh (c : Nat) : Page := ⟨.hif, 16 + c⟩

/-! ### Status codes (Table 0.3) -/

/-- The code is class F: everything but OK, ZERO_LENGTH, OVERFLOW_REPLAYED and SHADOW_MISMATCH. -/
def isF (c : Nat) : Bool := c != 0x00 && c != 0x01 && c != 0x40 && c != 0x42

/-- Which of two codes of one operation is reported (R11): class F first, the earlier one of two; then SHADOW_MISMATCH,
OVERFLOW_REPLAYED, ZERO_LENGTH, OK. -/
def codeMax (a b : Nat) : Nat :=
  if isF a then a else if isF b then b
  else if a = 0x42 ∨ b = 0x42 then 0x42 else if a = 0x40 ∨ b = 0x40 then 0x40
  else if a = 0x01 ∨ b = 0x01 then 0x01 else 0

/-! ### Free values and events (chapter 18) -/

/-- Take one free value: the counter that the free constants are applied to advances (log entry 4). -/
def tickFree (s : State) : State := { s with freeCtr := s.freeCtr + 1 }

/-- The island of a page (Table 18.5; pages of units on the dispatcher island are 176; log entry 12). -/
def islandOf (pg : Page) : Nat :=
  match pg.blk with
  | .arr => pg.inst
  | .yrd => 160
  | .kvs => 177
  | .scn => 178
  | .col => 179
  | .fab => 180 + pg.inst
  | .hif => 196 + (if pg.inst < 2 then pg.inst else 0)
  | .stk => 206 + pg.inst
  | .mem => if pg.inst < 8 then 206 + pg.inst else 176
  | .lpd => 214 + pg.inst
  | .mce => if pg.inst < 8 then 206 + pg.inst else 206 + pg.inst
  | .sec => 230
  | .pwr | .clk | .boot => 239
  | .ras | .evr => 240
  | .dev | .dsp | .tpl | .tok | .prt => 176

/-- A stamp (R422): the island number and a cycle count, which is timing and free (log entry 5). -/
def stampOf (pg : Page) (ctr : Nat) : Nat := islandOf pg * 2 ^ 56 + (Config.freeStamp ctr).toNat

/-- The LOG bin of v (R420). -/
def binLog (v : Nat) : Nat := if v = 0 then 0 else min 15 (Nat.log2 v + 1)

/-- The LIN bin of v (R420). -/
def binLin (v : Nat) : Nat := min v 15

/-- A histogram with one more in bin `b`, saturating at 4,095 (Table 18.4). -/
def histAdd (h : List Nat) (b n : Nat) : List Nat := h.set b (min 4095 (h.getD b 0 + n))

/-- One event as an accumulation: its severity, its v with its bin, its stamp. -/
def accOne (sev : Nat) (v : Option (Nat × Nat)) (stamp : Nat) : EvAcc :=
  match v with
  | some (x, b) => ⟨sev, 1, histAdd (List.replicate 16 0) b 1, x, x, stamp, stamp⟩
  | none => ⟨sev, 1, List.replicate 16 0, 0xFFFFFFFF, 0, stamp, stamp⟩

/-- A later accumulation merged into an earlier one of the same key (R423, R425). -/
def accMerge (a b : EvAcc) : EvAcc :=
  { sev := a.sev, count := min 0xFFFFFFFF (a.count + b.count)
    hist := (List.range 16).map fun i => min 4095 (a.hist.getD i 0 + b.hist.getD i 0)
    min := Nat.min a.min b.min, max := Nat.max a.max b.max, first := a.first, last := b.last }

/-- The number of a source page (R425). -/
def srcKey (pg : Page) : Nat := blockCode pg.blk * 256 + pg.inst

/-- Every source starts with no keys. -/
def coalDefault (_ : Nat) : List (EvKey × EvAcc) := []

/-- An event with its key reaches its source, which merges it or holds up to four keys; an event of a fifth key is
dropped (R425). -/
def coalesce (k : EvKey) (a : EvAcc) (s : State) : State :=
  let s := { s with evr := { s.evr with seen := if s.evr.seen.contains k then s.evr.seen else k :: s.evr.seen } }
  let l := tabGet coalDefault s.evr.coal (srcKey k.src)
  if l.any (fun e => decide (e.1 = k)) then
    let l' := l.map fun e => if e.1 = k then (k, accMerge e.2 a) else e
    { s with evr := { s.evr with coal := tabSet coalDefault s.evr.coal (srcKey k.src) l' } }
  else if l.length < 4 then
    { s with evr := { s.evr with
        coal := tabSet coalDefault s.evr.coal (srcKey k.src) (l ++ [(k, a)]) } }
  else incSat pgEvr (fldAt Fld.EVR_DROP a.sev) 1 s

/-- The RAS counters of corrected, recovered and uncorrected outcomes (Table 18.8). -/
def rasCount (cls : Nat) (s : State) : State :=
  if cls = 1 then inc pgRas Fld.RAS_CORR 1 s
  else if cls = 2 then inc pgRas Fld.RAS_RECOV 1 s
  else if cls = 3 then inc pgRas Fld.RAS_UNCORR 1 s else s

/-- An event whose v and bin are given (R420). -/
def raiseV (src : Page) (cls code detail : Nat) (part : Option Nat) (sev v b : Nat) (s : State) : State :=
  rasCount cls (tickFree (coalesce ⟨src, cls, code, detail, part⟩ (accOne sev (some (v, b)) (stampOf src s.freeCtr)) s))

/-- An event of an inter-arrival class (R420): the first of its key has no v; a later one's v is timing, and free (log
entry 5). -/
def raise (src : Page) (cls code detail : Nat) (part : Option Nat) (sev : Nat) (s : State) : State :=
  let k : EvKey := ⟨src, cls, code, detail, part⟩
  let v := (Config.freeInterval s.freeCtr).toNat
  let vb := if s.evr.seen.contains k then some (v, binLog v) else none
  rasCount cls (tickFree (coalesce k (accOne sev vb (stampOf src s.freeCtr)) s))

/-- The event that counts a status code met on a page: STATUS on a DSP page; elsewhere TEARDOWN, LEASE or UNCORRECTED for
the codes those classes name, else STATUS of that page (R442, Table 18.3; log entry 13). -/
def countCode (pg : Page) (code detail : Nat) (part : Option Nat) (s : State) : State :=
  if pg.blk = .dsp then raise pg 0x0B code 0 part 1 s
  else if code = 0x71 then raise pg 0x0E code detail part 2 s
  else if code = 0x32 ∧ pg.blk = .mem then raise pg 0x0F code detail part 1 s
  else if code = 0x70 ∨ code = 0x21 ∨ code = 0x22 then raise pg 0x03 code detail part 2 s
  else raise pg 0x0B code 0 part 1 s

/-- PAGE_ERR_INFO takes a code while ERR is 0; a further code sets OVER (R442). Counting is separate. -/
def setErr (pg : Page) (code detail : Nat) (s : State) : State :=
  if rg s pg Fld.PAGE_ERR_ERR = 0 then
    st pg Fld.PAGE_ERR_ERR 1 (st pg Fld.PAGE_ERR_INFO_CODE code (st pg Fld.PAGE_ERR_INFO_DETAIL detail s))
  else st pg Fld.PAGE_ERR_OVER 1 s

/-- A page reports a code: PAGE_ERR_INFO and the event recorder (R442). -/
def pageErr (pg : Page) (code detail : Nat) (part : Option Nat) (s : State) : State :=
  countCode pg code detail part (setErr pg code detail s)

/-- Clearing ERR clears PAGE_ERR_INFO with it (R442). -/
def clearErr (pg : Page) (s : State) : State :=
  st pg Fld.PAGE_ERR_ERR 0 (st pg Fld.PAGE_ERR_INFO_CODE 0 (st pg Fld.PAGE_ERR_INFO_DETAIL 0 s))

/-! ### Address map and ownership (chapter 10) -/

/-- What an address is (R218, Table 10.1). -/
inductive Region where
  | hbm (stack : Nat) | lpd (pkg : Nat) | scratch (way : Nat) | lease (slot : Nat) | none
deriving DecidableEq, Repr

/-- The region of an address: only the data regions, the scratch window and the lease windows are memory. -/
def regionOf (a : Nat) : Region :=
  if a < 2 ^ 39 then (if a % 2 ^ 36 < 0xFC0000000 then .hbm (a / 2 ^ 36) else .none)
  else if 2 ^ 40 ≤ a ∧ a < 2 ^ 41 then
    (if a % 2 ^ 36 < 0xF80000000 then .lpd ((a - 2 ^ 40) / 2 ^ 36) else .none)
  else if 2 ^ 42 ≤ a ∧ a < 2 ^ 43 then .lease ((a - 2 ^ 42) / 2 ^ 30)
  else if 2 ^ 43 ≤ a ∧ a < 2 ^ 43 + 16 * 0x1800000 then .scratch ((a - 2 ^ 43) / 0x1800000)
  else .none

/-- A number that is an extent of R219. -/
def isExtent (e : Nat) : Bool :=
  decide (e < 512 ∧ e % 64 < 63) || decide (1024 ≤ e ∧ e < 2048 ∧ e % 64 < 62)

/-- The MODE field of way `k` (Table 10.19). -/
def fldWayMode (k : Nat) : Fld := ⟨0x100 + 4 * (k / 4), 8 * (k % 4) + 5, 8 * (k % 4) + 4⟩

/-- The OWNER field of way `k` (Table 10.19). -/
def fldWayOwner (k : Nat) : Fld := ⟨0x100 + 4 * (k / 4), 8 * (k % 4) + 3, 8 * (k % 4)⟩

/-- Way `k` has this mode and owner (R225): mode 1 cache, 2 scratch. -/
def wayIs (s : State) (k mode p : Nat) : Bool :=
  rg s pgYrd (fldWayMode k) == mode && rg s pgYrd (fldWayOwner k) == p

/-- The ways of partition `p` in a mode. -/
def waysOf (s : State) (mode p : Nat) : List Nat := (List.range 16).filter fun k => wayIs s k mode p

/-- The first scratch way of `p` and their number (R225). -/
def scratchOf (s : State) (p : Nat) : Nat × Nat :=
  match waysOf s 2 p with
  | [] => (0, 0)
  | k :: r => (k, r.length + 1)

/-- The state of partition `p` (Table 15.2). -/
def partState (s : State) (p : Nat) : PartState := (tabGet partDefault s.parts p).state

/-- Partition `p` exists (R341). -/
def partExists (s : State) (p : Nat) : Bool := partState s p != .none

/-- The scratch sub-window is shut: from the quiet point until the partition is ACTIVE again (R358). -/
def scratchShut (s : State) (p : Nat) : Bool :=
  match partState s p with
  | .suspending => (tabGet partDefault s.parts p).quiet
  | .suspended => true
  | .resuming => true
  | _ => false

/-- The lease that a window slot belongs to. -/
def leaseAt (s : State) (slot : Nat) : Option Lease :=
  s.leases.find? fun l => decide (l.first ≤ slot ∧ slot < l.first + l.count)

/-- Partition `p` owns the address (R220). -/
def ownsAt (s : State) (p a : Nat) : Bool :=
  match regionOf a with
  | .hbm _ => tabGet extDefault s.exts (a / 2 ^ 30) == .assigned p
  | .lpd _ => tabGet extDefault s.exts (a / 2 ^ 30) == .assigned p
  | .scratch k => wayIs s k 2 p && !scratchShut s p
  | .lease n =>
    match leaseAt s n with
    | some l => l.part == p && (l.state == .held || l.state == .reclaiming)
    | none => false
  | .none => false

/-- The address lies in HBM, LPDDR or yard scratch (Table 10.2). -/
def ownTier (a : Nat) : Bool :=
  match regionOf a with
  | .hbm _ | .lpd _ | .scratch _ => true
  | _ => false

/-- The regulator target of an address (R229). -/
def targetOf (a : Nat) : Nat :=
  match regionOf a with
  | .hbm k => k
  | .lpd _ => 8
  | .scratch _ => 9
  | .lease _ => 10
  | .none => 11

/-- The RATE field of target `t` on MEM page 16 + p. -/
def rateOf (s : State) (p t : Nat) : Nat := rg s (pgMemP p) (fldAt Fld.MEM_REG_RATE t)

/-- The target is closed to the partition (R231). -/
def closed (s : State) (p t : Nat) : Bool := rateOf s p t == 0

/-- The pieces of 8 MiB that a range touches: every boundary of extents, ways and slots lies between pieces. -/
def piecesOf (a n : Nat) : List Nat :=
  if n = 0 then [] else
    let k := a / 2 ^ 23
    (a :: (List.range ((a + n - 1) / 2 ^ 23 - k)).map fun i => (k + 1 + i) * 2 ^ 23)

/-- Every byte of the range is memory the partition owns (R220). -/
def ownsRange (s : State) (p a n : Nat) : Bool := (piecesOf a n).all fun x => ownsAt s p x

/-- The range is owned and no part of it is closed to the partition (R39, R231). -/
def opRange (s : State) (p a n : Nat) : Bool :=
  (piecesOf a n).all fun x => ownsAt s p x && !closed s p (targetOf x)

/-- The range is owned and in the tiers of a structure of Table 10.2. -/
def ownStruct (s : State) (p a n : Nat) : Bool := (piecesOf a n).all fun x => ownsAt s p x && ownTier x

/-- The range is owned, in the tiers of a structure, and not closed. -/
def structRange (s : State) (p a n : Nat) : Bool :=
  (piecesOf a n).all fun x => ownsAt s p x && ownTier x && !closed s p (targetOf x)

/-! ### Bytes -/

/-- One byte of memory. -/
def rd1 (s : State) (a : Nat) : Byte := tabGet memDefault s.mem a

/-- `n` bytes of memory from `a`. -/
def rdBytes (s : State) (a n : Nat) : List Byte := (List.range n).map fun i => rd1 s (a + i)

/-- `n` bytes read as a little-endian number (R3). -/
def rdLE (s : State) (a n : Nat) : Nat := ofLE (rdBytes s a n)

/-- A byte list put into a table of bytes. -/
def putBytes (d : Nat → Byte) : Tab Byte → Nat → List Byte → Tab Byte
  | t, _, [] => t
  | t, a, b :: r => putBytes d (tabSet d t a b) (a + 1) r

/-- The state with the bytes stored, and nothing else. -/
def poke (a : Nat) (bs : List Byte) (s : State) : State := { s with mem := putBytes memDefault s.mem a bs }

/-- The state with a range of memory free of content: what an unlisted byte reads as (zero-fill, R228, R348). -/
def zeroFill (a n : Nat) (s : State) : State :=
  { s with mem := s.mem.filter fun c => !decide (a ≤ c.1 ∧ c.1 < a + n) }

/-- Bytes of free content (log entry 4). -/
def freeBytes (ctr a n : Nat) : List Byte := (List.range n).map fun i => Config.freeByte ctr (a + i)

/-- A range left undefined: every byte takes a free value. -/
def scramble (a n : Nat) (s : State) : State := tickFree (poke a (freeBytes s.freeCtr a n) s)

/-! ### Memory crypto engines (chapter 16) -/

/-- The MCE instance of a block number (R394). -/
def mceOf (u : Nat) : Nat := if u < 2 ^ 30 then u / 2 ^ 27 else 8 + (u - 2 ^ 31) / 2 ^ 27

/-- The tag words of an extent's blocks, where no block differs: the epoch, plus 4 where their tags do not match (an extent lent
without having been written under the lend key). Before any use, 0. -/
def baseDefault (_ : Nat) : Nat := 0

/-- Blocks follow their extent's base. -/
def blkDefault (_ : Nat) : Option BlkMeta := none

/-- Freshness nodes start at zero. -/
def nodeDefault (_ : Nat) : Node := ⟨0, [], false⟩

/-- What the tag word of a block says (R370). -/
def blkMeta (s : State) (u : Nat) : BlkMeta :=
  let b := tabGet baseDefault s.mce.base (u / 2 ^ 21)
  (tabGet blkDefault s.mce.blocks u).getD ⟨b % 4, decide (4 ≤ b)⟩

/-- The current epoch of the key set that serves an extent (R368, R376). -/
def curEpoch (s : State) (e : Nat) : Nat :=
  match tabGet extDefault s.exts e with
  | .assigned p => (tabGet secPartDefault s.secs p).cur
  | .zeroing p => (tabGet secPartDefault s.secs p).cur
  | _ => 0

/-- The epoch is live for the key set that serves the extent (R376). -/
def epochLive (s : State) (e ep : Nat) : Bool :=
  match tabGet extDefault s.exts e with
  | .assigned p => let c := tabGet secPartDefault s.secs p; ep == c.cur || (c.sweeping && ep == c.old)
  | .zeroing p => ep == (tabGet secPartDefault s.secs p).cur
  | .lendable => ep == 0
  | .lent => ep == 0
  | _ => false

/-- The key of node `n` of a level (1 to 4) of a package's freshness tree. -/
def nodeKey (pkg level n : Nat) : Nat :=
  pkg * 2 ^ 22 + (if level = 1 then 0 else if level = 2 then 2 ^ 21 else if level = 3 then 2 ^ 21 + 2 ^ 15
    else 2 ^ 21 + 2 ^ 15 + 2 ^ 9) + n

/-- A node on the path of block number `u` fails its check (R373). -/
def pathBad (s : State) (u : Nat) : Bool :=
  if u < 2 ^ 31 then false else
    let pkg := (u - 2 ^ 31) / 2 ^ 27
    let b := u % 2 ^ 27
    (List.range 4).any fun l => (tabGet nodeDefault s.mce.nodes (nodeKey pkg (l + 1) (b / 64 ^ (l + 1)))).bad

/-- The pseudo-channel or channel of a block number (R222, R223). -/
def chanOf (u : Nat) : Nat := if u < 2 ^ 30 then u % 64 else u % 4

/-- The stack or package that holds the block has failed: its extents are FAILED (R243, R348). -/
def unitFailed (s : State) (u : Nat) : Bool := tabGet extDefault s.exts (u / 2 ^ 21) == .failed

/-- The channel that a failed unit's HW_FAULT names (R243): the lowest permanently failed one, where one is. -/
def failedChan (s : State) (u : Nat) : Nat :=
  let f : Option Nat :=
    if u < 2 ^ 30 then
      let pg := pgMem (u / 2 ^ 27)
      let m := rg s pg Fld.MEM_PC_FAIL_LO + 2 ^ 32 * rg s pg Fld.MEM_PC_FAIL_HI
      firstBelow 64 fun i => bit i m
    else
      let m := rg s (pgLpd ((u - 2 ^ 31) / 2 ^ 27)) Fld.LPD_STAT_FAILED_CH
      firstBelow 4 fun i => bit i m
  f.getD (chanOf u)

/-- What a read of a block meets (R243, R371, R373): a code and its detail. `part` says that the read belongs to a partial
write. -/
def blockCheck (s : State) (part : Bool) (u : Nat) : Option (Nat × Nat) :=
  if unitFailed s u then some (0x70, 0x0100 + failedChan s u)
  else if s.sec.debugOpen then some (0x22, 0x0011)
  else if pathBad s u then some (0x21, 0x0003)
  else
    let m := blkMeta s u
    if !epochLive s (u / 2 ^ 21) m.epoch then some (0x22, 0x0010)
    else if m.bad then some (0x21, if part then 0x0002 else 0x0001) else none

/-- The partition that a block belongs to. -/
def blockOwner (s : State) (u : Nat) : Option Nat :=
  match tabGet extDefault s.exts (u / 2 ^ 21) with
  | .assigned p => some p
  | .zeroing p => some p
  | _ => none

/-- A failed block access is recorded: on the MEM or LPD page for a failed unit (R243), else on the MCE page with the
block's address, and in the counters of the partition's SEC page (R371, Tables 16.13, 16.16). -/
def noteBlock (u code detail : Nat) (s : State) : State :=
  if code = 0x70 then
    pageErr (if u < 2 ^ 30 then pgMem (u / 2 ^ 27) else pgLpd ((u - 2 ^ 31) / 2 ^ 27)) code detail (blockOwner s u) s
  else
    let pg := pgMce (mceOf u)
    let s := pageErr pg code detail (blockOwner s u) s
    let s := st pg Fld.MCE_FAIL_LO (u % 2 ^ 23) (st pg Fld.MCE_FAIL_HI (u / 2 ^ 23) s)
    let s := if code = 0x21 then inc pg Fld.MCE_INTEG_FAIL 1 s else inc pg Fld.MCE_STALE 1 s
    let s := wh (detail == 0x0003) (inc pg Fld.MCE_NODE_FAIL 1) s
    match blockOwner s u with
    | some p => if code = 0x21 then inc (pgSec p) Fld.SEC_INTEG_FAIL 1 s else inc (pgSec p) Fld.SEC_STALE 1 s
    | none => s

/-- The minor counter of a child of a node increments; past 63 the major counter does, the minors become 0 and the
children are re-tagged (R373). Answers the table and whether it re-tagged. -/
def nodeTouch (t : Tab Node) (k child : Nat) : Tab Node × Bool :=
  let n := tabGet nodeDefault t k
  let c := tabGet baseDefault n.minors child
  if c < 63 then (tabSet nodeDefault t k { n with minors := tabSet baseDefault n.minors child (c + 1) }, false)
  else (tabSet nodeDefault t k { n with major := n.major + 1, minors := [] }, true)

/-- The counters above a block after a write to it, and how many nodes ran over (R373). -/
def nodesAfter (u : Nat) (n : Tab Node) : Tab Node × Nat :=
  let pkg := (u - 2 ^ 31) / 2 ^ 27
  let b := u % 2 ^ 27
  (List.range 4).foldl (fun (a : Tab Node × Nat) l =>
    let x := nodeTouch a.1 (nodeKey pkg (l + 1) (b / 64 ^ (l + 1))) (b / 64 ^ l % 64)
    (x.1, a.2 + b2n x.2)) (n, 0)

/-- The write of an LPDDR block increments its minor counter and those of the nodes on its path (R373). -/
def freshen (u : Nat) (s : State) : State :=
  if u < 2 ^ 31 then s else
    let r := nodesAfter u s.mce.nodes
    let s := { s with mce := { s.mce with nodes := r.1 } }
    if r.2 = 0 then s else inc (pgMce (8 + (u - 2 ^ 31) / 2 ^ 27)) Fld.MCE_RETAG r.2 s

/-- A block's tag after a write under an epoch: no entry where it follows its extent's base. -/
def tagSet (u ep : Nat) (s : State) : State :=
  let v := if ep = tabGet baseDefault s.mce.base (u / 2 ^ 21) then none else some ⟨ep, false⟩
  { s with mce := { s.mce with blocks := tabSet blkDefault s.mce.blocks u v } }

/-- A write into one block of HBM or LPDDR (R371, R373): a partial write checks the block first; when the check fails
the block is unchanged and the code is answered. -/
def blockWrite (u a : Nat) (bs : List Byte) (s : State) : State × Option Nat :=
  match (if bs.length < 512 ∨ unitFailed s u ∨ s.sec.debugOpen then blockCheck s true u else none) with
  | some (c, d) => (noteBlock u c d s, some c)
  | none => (freshen u (tagSet u (curEpoch s (u / 2 ^ 21)) (poke a bs s)), none)

/-! ### The yard (chapter 10) -/

/-- The xor of the nibbles of a line number (R226). -/
def sliceOfLine (l : Nat) : Nat := (List.range 10).foldl (fun a j => a ^^^ bits (4 * j + 3) (4 * j) l) 0

/-- The set of a line: its slice and the set within it (R226). -/
def setOfLine (l : Nat) : Nat × Nat := (sliceOfLine (l % 2 ^ 39), l / 16 % 3072)

/-- The place of a scratch line is `scratchPlace`; a cached line is a partition, a line number and the way that holds it. The way that
takes a line: its own where it is present, else the lowest way of the partition with room in the set, else that of the least recently
used line of the set, which goes (R227; log entry 112). -/
def lineWay (ways : List Nat) (p l : Nat) (ls : List (Nat × Nat × Nat)) : Nat × Option (Nat × Nat × Nat) :=
  let mine := ls.filter fun e => decide (e.1 = p ∧ setOfLine e.2.1 = setOfLine l)
  match mine.find? fun e => e.2.1 == l with
  | some e => (e.2.2, none)
  | none =>
    match ways.find? fun k => !mine.any fun e => e.2.2 == k with
    | some k => (k, none)
    | none =>
      match mine.getLast? with
      | some v => (v.2.2, some v)
      | none => (0, none)

/-- The lines, most recently used first, after one of partition `p` became the most recent (R227). -/
def lineTake (ways : List Nat) (p l : Nat) (ls : List (Nat × Nat × Nat)) : List (Nat × Nat × Nat) :=
  let x := lineWay ways p l ls
  (p, l, x.1) :: ls.filter fun e => !decide (e.1 = p ∧ e.2.1 = l) && !decide (some e = x.2)

/-- A line of HBM or LPDDR is cached for partitions that hold cache ways. -/
def cacheable (a : Nat) : Bool :=
  match regionOf a with
  | .hbm _ | .lpd _ => true
  | _ => false

/-- Partition `p` has line `l` in a cache way. -/
def inCache (s : State) (p l : Nat) : Bool := s.yard.lines.any fun e => e.1 == p && e.2.1 == l

/-- A line is used, or allocated. -/
def useLine (p l : Nat) (s : State) : State :=
  { s with yard := { s.yard with lines := lineTake (waysOf s 1 p) p l s.yard.lines } }

/-- A read of a line that passes a yard slice (R227): a hit, or a miss that allocates. -/
def yardReadLine (p l : Nat) (s : State) : State :=
  if (waysOf s 1 p).isEmpty ∨ !cacheable (l * 512) then s
  else inc pgYrd (if inCache s p l then Fld.YRD_HIT else Fld.YRD_MISS) 1 (useLine p l s)

/-- A write of a line that passes a yard slice (R227): written through; a present line is updated (a hit), a whole line
is allocated, a partial write of an absent line does not allocate (a miss in both cases). -/
def yardWriteLine (p l : Nat) (whole : Bool) (s : State) : State :=
  if (waysOf s 1 p).isEmpty ∨ !cacheable (l * 512) then s
  else inc pgYrd (if inCache s p l then Fld.YRD_HIT else Fld.YRD_MISS) 1 (wh (inCache s p l || whole) (useLine p l) s)

/-- The cached lines that meet a test are removed, and counted (R227). -/
def dropLines (gone : Nat × Nat × Nat → Bool) (s : State) : State :=
  let n := (s.yard.lines.filter gone).length
  if n = 0 then s
  else inc pgYrd Fld.YRD_INVAL n { s with yard := { s.yard with lines := s.yard.lines.filter fun e => !gone e } }

/-- A write that does not pass the yard removes the line from every slice (R227). -/
def yardKillLine (l : Nat) (s : State) : State := dropLines (fun e => e.2.1 == l) s

/-- A way leaves its holder or its mode: a cache way is invalidated, a scratch way is overwritten with zero (R228). -/
def clearWay (k oldMode mode : Nat) (s : State) : State :=
  let s := wh (oldMode == 1) (fun s => { s with yard := { s.yard with lines := s.yard.lines.filter fun e => e.2.2 != k } }) s
  wh (oldMode == 2 || mode == 2) (fun s =>
    { zeroFill (2 ^ 43 + k * 0x1800000) 0x1800000 s with yard := { s.yard with
        zeroising := if s.yard.zeroising.contains k then s.yard.zeroising else s.yard.zeroising ++ [k] } }) s

/-! ### Fabric messages (chapter 13) -/

/-- A port's state. -/
def portOf (s : State) (p : Nat) : Port := tabGet portDefault s.ports p

/-- The state with a port changed. -/
def setPort (p : Nat) (x : Port) (s : State) : State := { s with ports := tabSet portDefault s.ports p x }

/-- The device's fabric id (R316). -/
def fabId (s : State) : Nat := rg s pgColDev Fld.COL_DEV_ID

/-- A partner leads to device `peer`: it is that device, or a switch. -/
def partnerLeads (near : Bool) (peer : Nat) : Option (Nat × Nat) → Bool
  | some (k, id) => if near then k == 1 && id == peer else k == 2
  | none => false

/-- The kind and id of a port's partner now. -/
def partnerNow (x : Port) : Option (Nat × Nat) := x.partner.map fun t => (t.kind, t.id)

/-- The port on which a message to a device leaves: the lowest-numbered one in UP whose partner is that device, else one in
UP whose partner is a switch, else an enabled one whose last partner was either (log entry 20). -/
def route (s : State) (peer : Nat) : Option Nat :=
  let up (near : Bool) (p : Nat) : Bool := (portOf s p).state == .up && partnerLeads near peer (partnerNow (portOf s p))
  let was (near : Bool) (p : Nat) : Bool := (portOf s p).state != .down && partnerLeads near peer (portOf s p).prev
  ((firstBelow 16 (up true)).or (firstBelow 16 (up false))).or ((firstBelow 16 (was true)).or (firstBelow 16 (was false)))

/-- A message becomes ready at a port (R289). -/
def sendMsg (p : Nat) (m : Msg) (s : State) : State :=
  let x := portOf s p
  setPort p { x with queue := x.queue ++ [m] } s

/-- A message to a device; one that has no route is lost, and its operation ends by its timeout (R235, R294). -/
def sendTo (peer : Nat) (m : Msg) (s : State) : State :=
  match route s peer with
  | some p => sendMsg p m s
  | none => s

/-- A byte string with zeros up to `n` bytes. -/
def padTo (n : Nat) (bs : List Byte) : List Byte := bs ++ List.replicate (n - bs.length) 0

/-- The lane of a message type (Table 13.4). -/
def laneOf (mt : Nat) : Nat := if mt = 0x11 ∨ mt = 0x12 then 1 else if mt = 0x20 ∨ mt = 0x22 then 2 else 0

/-- The header of a lease access (Table 13.7). -/
def accHead (mt id idx off len tag : Nat) : List Byte :=
  padTo 208 (toLE 4 mt ++ toLE 4 id ++ toLE 4 idx ++ toLE 4 off ++ toLE 4 len ++ toLE 4 tag)

/-- A lease's identifier on the borrower (Table 10.6). -/
def leaseId (s : State) (l : Lease) : Nat := fabId s * 2 ^ 12 + l.first

/-- The borrower sends an access to leased memory, widened to whole 32 B units (R299). -/
def leaseAccess (fid : Nat) (le : Lease) (isWrite : Bool) (a n : Nat) (s : State) : State :=
  let lo := a / 32 * 32
  let len := (a + n + 31) / 32 * 32 - lo
  let base := 2 ^ 42 + le.first * 2 ^ 30
  let head := accHead (if isWrite then 0x22 else 0x20) (leaseId s le) ((lo - base) / 2 ^ 30) ((lo - base) % 2 ^ 30) len s.nextTag
  let body := if isWrite then padTo (ceilDiv len 256 * 256) (rdBytes s lo len) else []
  sendTo le.peer ⟨2, 2, le.peer, le.part, head, body, le.part, le.keysel⟩
    { s with
      accs := s.accs ++ [⟨fid, le.first, isWrite, lo, len, s.nextTag, false⟩]
      nextTag := (s.nextTag + 1) % 2 ^ 32 }

/-! ### Accesses of a partition -/

/-- The path an access takes: through the yard, or beside it (a stack engine, a sweep, a command of a block; R227), or beside it for a
borrower of lent memory (R299), or in the save and the restore of a suspended partition (R355). -/
inductive Via where
  | yard | beside | lend | save
deriving DecidableEq, Repr

/-- The 512 B lines of a range: line number, first address in it, bytes in it. -/
def linesOf (a n : Nat) : List (Nat × Nat × Nat) :=
  if n = 0 then [] else
    (List.range ((a + n - 1) / 512 - a / 512 + 1)).map fun i =>
      let l := a / 512 + i
      let lo := max a (l * 512)
      (l, lo, min (a + n) (l * 512 + 512) - lo)

/-- The address is not the partition's: every access is checked against its ownership (R343, R349). What a lease's end or a unit's
failure makes of an access is answered there; lent extents are reached for their borrower alone (R220, R239). -/
def strange (s : State) (via : Via) (p a : Nat) : Bool :=
  match regionOf a with
  | .hbm _ | .lpd _ =>
    match tabGet extDefault s.exts (a / 2 ^ 30) with
    | .assigned q => q != p
    | .lent => via != .lend
    | .failed => false
    | _ => true
  | .scratch k => !wayIs s k 2 p || (scratchShut s p && via != .save)
  | .lease n =>
    match leaseAt s n with
    | some le => le.part != p
    | none => true
  | .none => true

/-- A read of one line for partition `p`: yard lookup and block check. Answers the code it meets. -/
def readLine (via : Via) (p l : Nat) (s : State) : State × Option Nat :=
  if strange s via p (l * 512) then (s, some 0x20) else
  let s := wh (via == .yard) (yardReadLine p l) s
  match regionOf (l * 512) with
  | .hbm _ | .lpd _ =>
    match blockCheck s false l with
    | some (c, d) => (noteBlock l c d s, some c)
    | none => (s, none)
  | .lease n =>
    match leaseAt s n with
    | some le => if le.state = .lost then (pageErr (pgMemP p) 0x32 le.detail (some p) s, some 0x32) else (s, none)
    | none => (s, none)
  | _ => (s, none)

/-- A read of a range for partition `p` (R227, R371): the first code met, if any. The bytes are those of `rdBytes`. -/
def memRead (via : Via) (p a n : Nat) (s : State) : State × Option Nat :=
  (linesOf a n).foldl (fun r x =>
    let y := readLine via p x.1 r.1
    (y.1, r.2.or y.2)) (s, none)

/-- A write of the bytes within one line for partition `p`. A write to leased memory is also sent to the lender (R299);
`fid` is the descriptor that makes it. -/
def writeLine (via : Via) (p fid l a : Nat) (bs : List Byte) (s : State) : State × Option Nat :=
  if strange s via p a then (s, some 0x20) else
  let s := if via = .yard then yardWriteLine p l (bs.length == 512) s else yardKillLine l s
  match regionOf a with
  | .hbm _ | .lpd _ => blockWrite l a bs s
  | .scratch _ => (poke a bs s, none)
  | .lease n =>
    match leaseAt s n with
    | some le =>
      if le.state = .lost then (pageErr (pgMemP p) 0x32 le.detail (some p) s, some 0x32)
      else (leaseAccess fid le true a bs.length (poke a bs s), none)
    | none => (s, none)
  | .none => (s, none)

/-- A write of a range for partition `p` (R227, R371, R373, R299): the first code met, if any. -/
def memWrite (via : Via) (p fid a : Nat) (bs : List Byte) (s : State) : State × Option Nat :=
  (linesOf a bs.length).foldl (fun r x =>
    let y := writeLine via p fid x.1 x.2.1 ((bs.drop (x.2.1 - a)).take x.2.2) r.1
    (y.1, r.2.or y.2)) (s, none)

/-- A write whose code nobody reports. -/
def memPut (via : Via) (p a : Nat) (bs : List Byte) (s : State) : State := (memWrite via p 0 a bs s).1

/-- A range touches a channel (R222, R223). -/
def onChan (c : MemChan) (a n : Nat) : Bool :=
  (linesOf a n).any fun x =>
    match regionOf (x.1 * 512) with
    | .hbm k => !c.lpddr && c.unit == k && c.ch == chanOf x.1
    | .lpd k => c.lpddr && c.unit == k && c.ch == chanOf x.1
    | _ => false

/-- A channel under retraining, or a way being cleared, holds accesses to the range (R228, R241). -/
def heldRange (s : State) (a n : Nat) : Bool :=
  (s.retrain.held.any fun c => onChan c a n) ||
  (s.yard.zeroising.any fun w => (piecesOf a n).any fun x => regionOf x == .scratch w)

/-- The lease still carries accesses: it is in force, or descriptors issued before its RELEASE read it (R238). -/
def leaseOpen (l : Lease) : Bool := l.state == .held || l.state == .reclaiming || l.state == .releasing

/-- The pieces of 64 KiB of a range that lie in an open lease (log entry 21). -/
def leasePieces (s : State) (a n : Nat) : List (Lease × Nat × Nat) :=
  if n = 0 then [] else
    (List.range ((a + n - 1) / 65536 - a / 65536 + 1)).filterMap fun i =>
      let lo := max a ((a / 65536 + i) * 65536)
      let hi := min (a + n) ((a / 65536 + i + 1) * 65536)
      match regionOf lo with
      | .lease k => (leaseAt s k).bind fun l => if leaseOpen l then some (l, lo, hi - lo) else none
      | _ => none

/-- The descriptor has read the piece of leased memory. -/
def pieceRead (s : State) (fid : Nat) (needDone : Bool) (x : Lease × Nat × Nat) : Bool :=
  s.accs.any fun c => c.fid == fid && !c.isWrite && decide (c.addr ≤ x.2.1 ∧ x.2.1 + x.2.2 ≤ c.addr + c.len) && (c.done || !needDone)

/-- A descriptor must wait before it touches a range: a channel or a way holds it, or leased memory in it has not yet been
read from the lender (R228, R239, R241). -/
def heldFor (s : State) (fid a n : Nat) : Bool :=
  heldRange s a n || (leasePieces s a n).any fun x => !pieceRead s fid true x

/-- The channels under retraining that hold accesses to a range. -/
def heldChans (s : State) (a n : Nat) : List MemChan := s.retrain.held.filter fun c => onChan c a n

/-- The reads of leased memory that a descriptor still needs are sent (R299). -/
def fetchLeased (fid : Nat) (l : List (Nat × Nat)) (s : State) : State :=
  (l.flatMap fun x => leasePieces s x.1 x.2).foldl (fun s x =>
    if pieceRead s fid false x then s else leaseAccess fid x.1 false x.2.1 x.2.2 s) s

/-- A request joins those that a channel holds, in arrival order; the 513th stays with its requester (R241). -/
def chanJoin (w : List (MemChan × Nat)) (e : MemChan × Nat) : List (MemChan × Nat) :=
  if w.contains e ∨ 512 ≤ (w.filter fun x => x.1 == e.1).length then w else w ++ [e]

/-- The requests of a descriptor to held channels wait there, in arrival order (R241). -/
def noteChans (fid : Nat) (l : List (Nat × Nat)) (s : State) : State :=
  let new := (l.flatMap fun x => heldChans s x.1 x.2).map fun c => (c, fid)
  { s with retrain := { s.retrain with waiting := new.foldl chanJoin s.retrain.waiting } }

/-- The descriptor waits at no channel that is still held, and has no result: its requests go on. -/
def goesOn (s : State) (fid : Nat) : Bool :=
  (s.flights.any fun f => f.fid == fid && f.result.isNone) &&
    !s.retrain.waiting.any fun w => w.2 == fid && s.retrain.held.contains w.1

/-- After a retrain the held requests proceed in arrival order: one that came later waits for those before it (R241). -/
def behind (s : State) (fid : Nat) (l : List (Nat × Nat)) : Bool :=
  (s.retrain.waiting.takeWhile fun w => w.2 != fid).any fun w =>
    !s.retrain.held.contains w.1 && goesOn s w.2 && l.any fun x => onChan w.1 x.1 x.2

/-- A descriptor's requests proceed: it waits at no channel any more. -/
def proceed (fid : Nat) (s : State) : State :=
  { s with retrain := { s.retrain with waiting := s.retrain.waiting.filter fun w => w.2 != fid } }

/-- The 32 B units that a write covers only in part: in leased memory they are read before they are written (R299; log
entry 111). -/
def edges (a n : Nat) : List (Nat × Nat) :=
  if n = 0 then [] else
    (if a % 32 = 0 then [] else [(a / 32 * 32, 32)]) ++ (if (a + n) % 32 = 0 then [] else [((a + n) / 32 * 32, 32)])

/-- A descriptor must wait before it reads some ranges and writes others. -/
def mustWait (s : State) (fid : Nat) (rd wr : List (Nat × Nat)) : Bool :=
  (rd ++ wr.flatMap fun x => edges x.1 x.2).any (fun x => heldFor s fid x.1 x.2) || wr.any (fun x => heldRange s x.1 x.2) ||
    behind s fid (rd ++ wr)

/-- What a descriptor waits for is noted: held channels, and its reads of leased memory are sent. -/
def noteWait (fid : Nat) (rd wr : List (Nat × Nat)) (s : State) : State :=
  noteChans fid (rd ++ wr) (fetchLeased fid (rd ++ wr.flatMap fun x => edges x.1 x.2) s)

/-- What reads wait for is noted. -/
def noteHeld (fid : Nat) (l : List (Nat × Nat)) (s : State) : State := noteWait fid l [] s

/-- The code with which a request that is no descriptor, of a host or of the security block, has been ended from outside (R236, R243). -/
def lostCode (s : State) (fid : Nat) : Option Nat := (s.lostFids.find? fun x => x.1 == fid).map Prod.snd

/-! ### Steps of a unit on its tables -/

/-- What ends a step of a unit on its tables in memory: a code with the detail of the block that gave it, and where. -/
structure Stop where
  code : Nat
  detail : Nat
  addr : Nat
deriving DecidableEq, Repr

/-- The code of a step that must wait, because a channel or a way holds an access of it (R228, R241); no status code. -/
def heldMark : Nat := 0x100

/-- A step under way: the state so far, and what ended the step. A step that ends so has no effect. -/
abbrev Try := State × Option Stop

/-- What an access to a range would end with; a write needs no check of a block that it covers whole (R371). -/
def stopAt (s : State) (via : Via) (write : Bool) (p a n : Nat) : Option Stop :=
  (linesOf a n).findSome? fun x =>
    if strange s via p x.2.1 then some ⟨0x20, 0, x.2.1⟩
    else if heldRange s x.2.1 x.2.2 then some ⟨heldMark, 0, x.2.1⟩
    else match regionOf x.2.1 with
      | .hbm _ | .lpd _ =>
        if write && x.2.2 == 512 && !unitFailed s x.1 && !s.sec.debugOpen then none
        else (blockCheck s write x.1).map fun c => ⟨c.1, c.2, x.2.1⟩
      | _ => none

/-- The step reads a range beside the yard, or as its path says. -/
def tryRead (via : Via) (p a n : Nat) (r : Try) : Try :=
  match r.2 with
  | some _ => r
  | none => (r.1, stopAt r.1 via false p a n)

/-- The step writes a range. -/
def tryWrite (via : Via) (p a : Nat) (bs : List Byte) (r : Try) : Try :=
  match r.2 with
  | some _ => r
  | none =>
    match stopAt r.1 via true p a bs.length with
    | some e => (r.1, some e)
    | none => (memPut via p a bs r.1, none)

/-- The step changes what is not in memory. -/
def tryDo (f : State → State) (r : Try) : Try :=
  match r.2 with
  | some _ => r
  | none => (f r.1, none)

/-- The state in which a step that ended leaves everything: what it met is recorded (R371), nothing else has changed. -/
def stopped (e : Stop) (s : State) : State :=
  if e.code = 0x20 ∨ e.code = heldMark then s else noteBlock (e.addr / 512) e.code e.detail s

/-! ### Flights -/

/-- The flight with a number. -/
def flightOf (s : State) (fid : Nat) : Option Flight := s.flights.find? fun f => f.fid == fid

/-- A flight changed by `g` when it has number `fid`: what it does may change, not which descriptor it is and where it runs. -/
def updOne (fid : Nat) (g : Flight → Flight) (f : Flight) : Flight :=
  if f.fid = fid then
    { f with
      snap := (g f).snap
      work := (g f).work
      result := (g f).result
      detail := (g f).detail
      replays := (g f).replays }
  else f

/-- Change one flight. -/
def updFlight (fid : Nat) (g : Flight → Flight) (s : State) : State := { s with flights := s.flights.map (updOne fid g) }

/-- A station finishes a descriptor with a code, unless it already has one (R11). -/
def finish (fid code detail : Nat) (s : State) : State :=
  updFlight fid (fun f => match f.result with
    | none => { f with result := some code, detail := detail }
    | some c => { f with result := some (codeMax c code), detail := if isF c || !isF code then f.detail else detail }) s

/-- Descriptors of a queue in flight (Table 2.20). -/
def inflightOf (s : State) (q : Nat) : Nat := (s.flights.filter fun f => f.q == q).length

/-! ### Tokens (chapter 02) -/

/-- The token's word (Table 2.7). -/
def tokWord (t : Token) : Nat := t.value + t.owner * 2 ^ 32 + t.gen * 2 ^ 36

/-- The token. -/
def tok (s : State) (t : Nat) : Token := tabGet tokenDefault s.toks t

/-- The state with a token changed. -/
def setTok (t : Nat) (k : Token) (s : State) : State := { s with toks := tabSet tokenDefault s.toks t k }

/-- VALUE := v, GEN advances (R49). -/
def tokSetV (t v : Nat) (s : State) : State :=
  let k := tok s t
  setTok t { k with value := v % 2 ^ 32, gen := (k.gen + 1) % 4096 } s

/-- VALUE := VALUE + n, saturating (R51): a saturation counts in TOK_SAT_CNT and as an event. -/
def tokAddV (t n : Nat) (part : Option Nat) (s : State) : State :=
  let k := tok s t
  if k.value + n ≤ 0xFFFFFFFF then setTok t { k with value := k.value + n } s
  else raiseV pgTok 0x09 0 4 part 0 1 (binLog 1) (inc pgTok Fld.TOK_SAT_CNT 1 (setTok t { k with value := 0xFFFFFFFF } s))

/-- VALUE := VALUE − n where it is large enough (R49). -/
def tokDec (t n : Nat) (s : State) : State :=
  let k := tok s t
  if n ≤ k.value then setTok t { k with value := k.value - n } s else s

/-- The token a TOKEN descriptor names and its operand (Table 2.9). -/
def tokenBody (f : Flight) : Nat × Nat :=
  (ofLE ((f.bytes.drop 16).take 2) % 2 ^ 13, ofLE ((f.bytes.drop 20).take 4))

/-- The held ACQUIREs of a token, earliest issued first (R53). -/
def heldOn (s : State) (t : Nat) : List Flight :=
  s.flights.filter fun f => f.work == .acquire && f.result.isNone && (tokenBody f).1 == t

/-- Test the held ACQUIREs in order, stopping at the first that cannot take its operand (R50 step 4, R53). -/
def settleList (t : Nat) : List Flight → State → State
  | [], s => s
  | f :: r, s =>
    let n := (tokenBody f).2
    if n ≤ (tok s t).value ∧ !(tok s t).poisoned then
      settleList t r (finish f.fid 0 0 (setTok t { tok s t with value := (tok s t).value - n } s))
    else s

/-- The end of a token bus cycle, which each operation has to itself (log entry 104): the held ACQUIREs of the token are tested (R50). -/
def settle (t : Nat) (s : State) : State := settleList t (heldOn s t) s

/-- A command runs only while the device runs (R20, R402). -/
def on (s : State) : Bool := s.pwr.mode == .running

/-- The boot sequencer has reached DONE. -/
def bootDone (s : State) : Bool := rg s pgBoot Fld.BOOT_STATE_STEP == 10

/-- An access to a page that R408 shuts until the boot sequencer is DONE. -/
def atDone (f : State → State) (s : State) : State := if bootDone s then f s else { s with bus := (0x20, 0) }

end Sys2Proof.Machine
end

