-- ==== Sys2Proof/Machine/HostTx.lean ====
section
/-!
DEFINITION. What the device sends to hosts: sequenced packets of a session, and notifications (R330, R337, R441).
-/
namespace Sys2Proof.Machine

/-- The channel's state. -/
def chan (s : State) (c : Nat) : Chan := tabGet chanDefault s.chans c

/-- The live session of a channel. -/
def sessOf (s : State) (c : Nat) : Option Session := (chan s c).session

/-- Change the live session of a channel. -/
def updSess (c : Nat) (g : Session → Session) (s : State) : State :=
  let k := chan s c
  match k.session with
  | some x => { s with chans := tabSet chanDefault s.chans c { k with session := some (g x) } }
  | none => s

/-- The header of an HCT packet (Table 14.1). -/
def hctHead (ptype chan flags sid ctr seq ack sack len : Nat) : List Byte :=
  toLE 1 1 ++ toLE 1 ptype ++ toLE 1 chan ++ toLE 1 flags ++ toLE 4 sid ++ toLE 8 ctr ++ toLE 4 seq ++ toLE 4 ack ++ toLE 8 sack ++
    toLE 2 len ++ toLE 6 0

/-- The SACK of a session (Table 14.1): the packets received ahead of their turn. -/
def sackOf (x : Session) : Nat :=
  (List.range 64).foldl (fun a i =>
    a + (if x.early.any fun e => e.1 == (x.rxNext + 1 + i) % 2 ^ 32 then 2 ^ i else 0)) 0

/-- The bytes of a protected packet (R324, R325): it takes the session's next counter, and carries the current ACK and SACK (R330). -/
def packetBytes (x : Session) (c ptype flags seq : Nat) (body : List Byte) : List Byte :=
  let h := hctHead ptype c flags x.sid x.ctrTx seq x.rxNext (sackOf x) body.length
  let r := gcmSeal x.keyDH (x.saltDH ++ toLE 8 x.ctrTx) h body
  h ++ r.1 ++ r.2

/-- A frame is sent, and stands in the trace. -/
def sendFrame (port : Nat) (o : Out) (s : State) : State :=
  inc (pgHif port) Fld.HIF_TX_FRAMES 1 { s with out := o :: s.out }

/-- A protected packet goes out on the session's port to the session's peer (R322); it acknowledges what has been received. -/
def sendPacket (c ptype flags seq : Nat) (body : List Byte) (s : State) : State :=
  match sessOf s c with
  | none => s
  | some x =>
    sendFrame x.port (.packet x.port x.peer (packetBytes x c ptype flags seq body))
      (updSess c (fun x => { x with ctrTx := x.ctrTx + 1, ackDue := false }) s)

/-- Send what the window of 256 allows: no packet goes out 256 or more beyond the oldest that is not acknowledged (R330). -/
def pump (c : Nat) (s : State) : State :=
  match sessOf s c with
  | none => s
  | some x =>
    let base := (x.out.map TxPkt.seq).headD 0
    let due (t : TxPkt) : Bool := !t.sent && decide ((t.seq + 2 ^ 32 - base) % 2 ^ 32 < 256)
    (x.out.filter due).foldl (fun s t => sendPacket c t.ptype t.flags t.seq t.body s)
      (updSess c (fun x => { x with out := x.out.map fun t => if due t then { t with sent := true } else t }) s)

/-- Hand a sequenced packet to the session of a channel (R330); nothing when there is no live session. -/
def sendSeq (c ptype flags : Nat) (body : List Byte) (fid : Option Nat) (s : State) : State :=
  pump c (updSess c (fun x =>
    { x with out := x.out ++ [⟨x.txNext, false, ptype, flags, body, 0, fid⟩], txNext := (x.txNext + 1) % 2 ^ 32 }) s)

/-- The mask bit that selects a KIND (R336). -/
def kindBit (kind : Nat) : Nat := if kind ≤ 1 then kind else if kind ≤ 3 then 2 else 3

/-- The page that gates a KIND (R441). -/
def kindPage (kind p : Nat) : Page := if kind ≤ 1 then pgDsp p else if kind ≤ 3 then pgMemP p else pgPrt p

/-- What a notification says (R337). -/
structure Note where
  kind : Nat
  code : Nat
  queue : Nat
  tag : Nat
  entry : Nat
  desc : Nat
  detail : Nat
  slot : Nat
deriving DecidableEq, Repr

/-- The NOTIFY body (R337). -/
def noteBody (n : Note) (lost : Nat) : List Byte :=
  toLE 1 n.kind ++ toLE 1 n.code ++ toLE 1 n.queue ++ toLE 1 0 ++ toLE 4 n.tag ++ toLE 2 n.entry ++ toLE 2 n.desc ++
    toLE 2 n.detail ++ toLE 2 (min lost 0xFFFF) ++ toLE 4 n.slot ++ toLE 12 0

/-- One channel's part in a notification (R331, R337). -/
def notifyChan (n : Note) (c : Nat) (s : State) : State :=
  let k := chan s c
  match k.session with
  | some x =>
    match x.mask with
    | some m =>
      if !bit (kindBit n.kind) m then s
      else if (x.out.filter fun p => p.ptype == 0x30).length < 1024 then
        updSess c (fun x => { x with lost := 0 }) (sendSeq c 0x30 0 (noteBody n x.lost) none s)
      else inc (pgCh c) Fld.HIF_CH_NOTIFY_DROP 1 (updSess c (fun x => { x with lost := min 0xFFFF (x.lost + 1) }) s)
    | none => wh (bit (kindBit n.kind) k.kept) (inc (pgCh c) Fld.HIF_CH_NOTIFY_DROP 1) s
  | none => wh (bit (kindBit n.kind) k.kept) (inc (pgCh c) Fld.HIF_CH_NOTIFY_DROP 1) s

/-- Notify every channel of partition `p` whose mask selects the event, when the source page enables it (R337, R441). -/
def notify (p : Nat) (n : Note) (s : State) : State :=
  if bit n.kind (rg s (kindPage n.kind p) Fld.PAGE_NOTIFY_EN) then
    (List.range 64).foldl (fun s c =>
      if rg s (pgCh c) Fld.HIF_CH_CFG_PART = p then notifyChan n c s else s) s
  else s

end Sys2Proof.Machine
end

