-- ==== Sys2Proof/Machine/Operands.lean ====
section
/-!
DEFINITION. Operand forms: fields of the 64-byte descriptor (Table 2.3), endpoint and address fields (R39), the outcome of
the issue-time checks in their order (R11), and the strided ranges that bodies name.
-/
namespace Sys2Proof.Machine

/-! ### Descriptor header -/

/-- `n` bytes at `off` of a byte list, little-endian. -/
def bF (b : List Byte) (off n : Nat) : Nat := ofLE ((b.drop off).take n)

/-- OPCODE. -/
def dOp (b : List Byte) : Nat := bF b 0 1
/-- NOTIFY. -/
def dNotify (b : List Byte) : Bool := bit 0 (bF b 1 1)
/-- SR. -/
def dSR (b : List Byte) : Bool := bit 1 (bF b 1 1)
/-- NO_WB. -/
def dNoWb (b : List Byte) : Bool := bit 2 (bF b 1 1)
/-- FMT. -/
def dFmt (b : List Byte) : Nat := bF b 2 1 % 16
/-- OFMT. -/
def dOfmt (b : List Byte) : Nat := bF b 2 1 / 16
/-- PART. -/
def dPart (b : List Byte) : Nat := bF b 3 1 % 16
/-- WAIT_TOK. -/
def dWaitTok (b : List Byte) : Nat := bF b 4 2 % 2 ^ 13
/-- WAIT_EN. -/
def dWaitEn (b : List Byte) : Bool := bit 13 (bF b 4 2)
/-- SIG_TOK. -/
def dSigTok (b : List Byte) : Nat := bF b 6 2 % 2 ^ 13
/-- SIG_EN. -/
def dSigEn (b : List Byte) : Bool := bit 13 (bF b 6 2)
/-- WAIT_THR. -/
def dWaitThr (b : List Byte) : Nat := bF b 8 4
/-- SIG_INC. -/
def dSigInc (b : List Byte) : Nat := bF b 12 2
/-- TENSOR_ID. -/
def dTid (b : List Byte) : Nat := bF b 56 4
/-- STEP. -/
def dStep (b : List Byte) : Nat := bF b 60 4
/-- The address of an address field (R39). -/
def dAddr (b : List Byte) (off : Nat) : Nat := bF b off 6
/-- The reserved bits [63:48] of an address field are zero (R39). -/
def dAddrOk (b : List Byte) (off : Nat) : Bool := bF b (off + 6) 2 == 0

/-- Reserved bits of the header are zero (Table 2.3, R5). -/
def hdrReserved (b : List Byte) : Bool :=
  bF b 1 1 / 8 == 0 && bF b 3 1 / 16 == 0 && bF b 4 2 / 2 ^ 14 == 0 && bF b 6 2 / 2 ^ 14 == 0 && bF b 15 1 == 0

/-- Bytes `off` to `off + n - 1` are zero (R5). -/
def zeroAt (b : List Byte) (off n : Nat) : Bool := bF b off n == 0

/-- FMT names a format (R13). -/
def inFmt (b : List Byte) : Option Fmt := fmtOf (dFmt b)
/-- OFMT names a format (R13). -/
def outFmt (b : List Byte) : Option Fmt := fmtOf (dOfmt b)

/-- What the roundings of a descriptor draw on (R93). -/
def rndOf (f : Flight) : Rnd := ⟨dSR f.bytes, f.cap.seed, dTid f.bytes, dStep f.bytes⟩

/-- K8_SAT as captured (R89, R116). -/
def k8satOf (f : Flight) : Bool := fldGet Fld.DSP_Q_NUM_K8_SAT f.cap.num == 1

/-! ### The outcome of checks -/

/-- The conditions of the issue-time checks, in the order of detection (R11); `extra` are codes beyond them, judged last of
class F (BINDING_REFUSED has no place among them). -/
structure Chk where
  violation : Bool
  format : Bool
  align : Bool
  shape : Bool
  capacity : Bool
  zero : Bool
deriving DecidableEq, Repr

/-- Nothing met. -/
def chkNone : Chk := ⟨false, false, false, false, false, false⟩

/-- Conditions of two sets of checks together. -/
def chkOr (a b : Chk) : Chk :=
  ⟨a.violation || b.violation, a.format || b.format, a.align || b.align, a.shape || b.shape, a.capacity || b.capacity,
    a.zero || b.zero⟩

/-- Every code met, in the order of detection (R11). -/
def chkCodes (c : Chk) : List Nat :=
  (if c.violation then [0x20] else []) ++ (if c.format then [0x13] else []) ++ (if c.align then [0x12] else []) ++
  (if c.shape then [0x10] else []) ++ (if c.capacity then [0x11] else []) ++ (if c.zero then [0x01] else [])

/-- The code reported: the first detected, or OK (R11). -/
def chkCode (c : Chk) : Nat := (chkCodes c).headD 0

/-! ### Strided ranges -/

/-- A set of rows in memory: base, number of rows, pitch, bytes of a row. -/
structure Rows where
  base : Nat
  rows : Nat
  pitch : Nat
  len : Nat
deriving DecidableEq, Repr

/-- The address of each row. -/
def Rows.starts (r : Rows) : List Nat := (List.range r.rows).map fun i => r.base + i * r.pitch

/-- Every row satisfies a test on (address, length). -/
def Rows.all (r : Rows) (p : Nat → Nat → Bool) : Bool := r.starts.all fun a => p a r.len

/-- The bytes of every row, row after row. -/
def Rows.read (s : State) (r : Rows) : List (List Byte) := r.starts.map fun a => rdBytes s a r.len

/-- The rows of two sets share a byte. -/
def Rows.overlap (x y : Rows) : Bool :=
  x.len != 0 && y.len != 0 &&
    x.starts.any fun a => y.starts.any fun b => decide (a < b + y.len ∧ b < a + x.len)

/-- The stack that holds the whole row set, when one does: all its rows lie in the data region of one stack. -/
def Rows.inStack (r : Rows) (k : Nat) : Bool := r.all fun a n => (piecesOf a n).all fun x => regionOf x == .hbm k

/-- The rows lie in the yard scratch window. -/
def Rows.inYard (r : Rows) : Bool := r.all fun a n => (piecesOf a n).all fun x =>
  match regionOf x with
  | .scratch _ => true
  | _ => false

/-- Read several ranges in order; the first code met, if any. -/
def readAll (via : Via) (p : Nat) (l : List (Nat × Nat)) (s : State) : State × Option Nat :=
  l.foldl (fun r x =>
    let y := memRead via p x.1 x.2 r.1
    (y.1, r.2.or y.2)) (s, none)

/-- Write several byte lists in order; the first code met, if any. -/
def writeAll (via : Via) (p fid : Nat) (l : List (Nat × List Byte)) (s : State) : State × Option Nat :=
  l.foldl (fun r x =>
    let y := memWrite via p fid x.1 x.2 r.1
    (y.1, r.2.or y.2)) (s, none)

/-! ### Matrices in memory (R121, R204, R255) -/

/-- A matrix: base, rows, columns, element width, pitch, and whether it is in blocked layout. -/
structure Ten where
  base : Nat
  rows : Nat
  cols : Nat
  w : Nat
  pitch : Nat
  blk : Bool
deriving DecidableEq, Repr

/-- The address of element (r, c): plain, or blocked_addr (R204). -/
def Ten.addr (t : Ten) (r c : Nat) : Nat :=
  if t.blk then t.base + r / 16 * t.pitch + c / 16 * (256 * t.w) + (r % 16 * 16 + c % 16) * t.w
  else t.base + r * t.pitch + c * t.w

/-- Bytes of one row, or of one block row. -/
def Ten.rowLen (t : Ten) : Nat := if t.blk then ceilDiv t.cols 16 * (256 * t.w) else t.cols * t.w

/-- Rows, or block rows. -/
def Ten.nRows (t : Ten) : Nat := if t.blk then ceilDiv t.rows 16 else t.rows

/-- The smallest range that holds every element: its length from the base (R123); zero when there is no element. -/
def Ten.extent (t : Ten) : Nat :=
  if t.rows = 0 ∨ t.cols = 0 then 0 else (t.nRows - 1) * t.pitch + t.rowLen

/-- Row (or block row) `i` as a range. -/
def Ten.row (t : Ten) (i : Nat) : Nat × Nat := (t.base + i * t.pitch, t.rowLen)

/-- Every row as a range. -/
def Ten.ranges (t : Ten) : List (Nat × Nat) :=
  if t.rows = 0 ∨ t.cols = 0 then [] else (List.range t.nRows).map t.row

/-- The element widths doubled, as a replay out of a one-byte format does (R107). -/
def Ten.widen (t : Ten) (w : Nat) : Ten := { t with w := w, pitch := t.pitch * (w / t.w) }

/-- Two ranges share a byte. -/
def rangesMeet (a n b k : Nat) : Bool := n != 0 && k != 0 && decide (a < b + k ∧ b < a + n)

/-- Two matrices overlap, judged on their smallest ranges (R123). -/
def Ten.meets (x y : Ten) : Bool := rangesMeet x.base x.extent y.base y.extent

/-- Base and pitch obey the alignment of the layout (Tables 5.5, 11.7). -/
def Ten.aligned (t : Ten) : Bool :=
  if t.blk then t.base % 512 == 0 && t.pitch % 512 == 0 else t.base % 32 == 0 && t.pitch % 32 == 0

/-- The shape rules of the layout: dimensions multiples of 16 when blocked, pitches not below their least (R204). -/
def Ten.shapely (t : Ten) : Bool :=
  if t.blk then t.rows % 16 == 0 && t.cols % 16 == 0 && (decide (t.rows ≤ 16) || decide (t.rowLen ≤ t.pitch))
  else decide (t.rows ≤ 1) || decide (t.rowLen ≤ t.pitch)

/-- `n` bytes of a memory, little-endian. -/
def mLE (m : List Host.Cell) (a n : Nat) : Nat := ofLE ((List.range n).map fun i => tabGet memDefault m (a + i))

/-- The stored word of element (r, c). -/
def Ten.word (m : List Host.Cell) (t : Ten) (r c : Nat) : Nat := mLE m (t.addr r c) t.w

/-- Element (r, c) as one A40 value (R253). -/
def Ten.val (m : List Host.Cell) (t : Ten) (f : Fmt) (r c : Nat) : Val := decodeElem f (t.word m r c)

/-- The two words of a pair as values; a single word has the error +0. -/
def pairVals (f : Fmt) (w : Nat) : Val × Val :=
  if isPair f then (decodeWord (baseFmt f) (w % 65536), decodeWord (baseFmt f) (w / 65536)) else (decodeWord f w, vZero)

/-- The 32-bit word of a pair. -/
def pairWord (b : Fmt) (v e : Val) : Nat := encodeWord b v + 65536 * encodeWord b e

/-- Consecutive writes that touch one another joined into one. -/
def joinWrites (l : List (Nat × List Byte)) : List (Nat × List Byte) :=
  (l.foldl (fun acc x => match acc with
    | (a, bs) :: t => if a + bs.length = x.1 then (a, bs ++ x.2) :: t else x :: acc
    | [] => [x]) []).reverse

/-- The members of a list, each once, in the order of their first place. -/
def uniq {α : Type} [DecidableEq α] (l : List α) : List α :=
  (l.foldl (fun acc x => if acc.contains x then acc else x :: acc) []).reverse

/-- The stacks that hold HBM bytes of a range. -/
def stacksOf (a n : Nat) : List Nat :=
  uniq ((piecesOf a n).filterMap fun x => match regionOf x with
    | .hbm k => some k
    | _ => none)

/-- HBM bytes among ranges: a range lies in one tier. -/
def hbmBytes (l : List (Nat × Nat)) : Nat :=
  (l.filter fun x => !(stacksOf x.1 x.2).isEmpty).foldl (fun a x => a + x.2) 0

/-- Split a byte list into words of `n` bytes, little-endian. -/
def wordsOf (n : Nat) (bs : List Byte) : List Nat :=
  (List.range (bs.length / n)).map fun i => ofLE ((bs.drop (i * n)).take n)

end Sys2Proof.Machine
end

