-- ==== Sys2Proof/Machine/Token.lean ====
section
/-!
DEFINITION. The token bank: the register-bus operations on its aliases and the TOKEN descriptors (R48 to R53).
-/
namespace Sys2Proof.Machine

/-- The operations of the aliases (Table 2.8). -/
inductive TokOp where
  | read | set (w : Nat) | addR | add (w : Nat) | decR | dec (w : Nat) | cas (w : Nat)
deriving DecidableEq, Repr

/-- The effect of an alias on an owned token (R49). -/
def tokApply (op : TokOp) (part t : Nat) (s : State) : State :=
  match op with
  | .read => s
  | .set w => tokSetV t (w % 2 ^ 32) s
  | .addR => tokAddV t 1 (some part) s
  | .add w => tokAddV t (w % 2 ^ 32) (some part) s
  | .decR => if 0 < (tok s t).value then tokDec t 1 s else s
  | .dec w => tokDec t (w % 2 ^ 32) s
  | .cas w => if (tok s t).gen = bits 47 36 w then tokSetV t (w % 2 ^ 32) s else s

/-- Whether the operation is a read, which returns the word as it stood (R49). -/
def tokReads : TokOp → Bool
  | .read | .addR | .decR => true
  | _ => false

/-- A refused access is recorded in TOK_REFUSED: kind 0 ownership, 1 size or alignment (R48). -/
def tokRefuse (kind part t : Nat) (s : State) : State :=
  st pgTok Fld.TOK_REFUSED_KIND kind (st pgTok Fld.TOK_REFUSED_PART part (st pgTok Fld.TOK_REFUSED_TOKEN t s))

/-- An aligned 8-byte access to a token by partition `part` (R48, R49, R50): ownership, then the operation, then the held
ACQUIREs of the token. A poisoned token gives HW_FAULT (R413). -/
def tokAccess (op : TokOp) (part t : Nat) (s : State) : State :=
  let k := tok s t
  if k.owner ≠ part then { tokRefuse 0 part t s with bus := (0x20, 0) }
  else if k.poisoned then { s with bus := (0x70, 0) }
  else { settle t (tokApply op part t s) with bus := (0, if tokReads op then tokWord k else 0) }

/-- TOKEN_SET_WRITE (R49). -/
def execTokenSetWrite (part tok data : Nat) (s : State) : Host.Outcome State Fault Refusal :=
  .next (wh (on s) (atDone (tokAccess (.set data) part tok)) s)

/-- TOKEN_ADD_READ (R49, R51). -/
def execTokenAddRead (part tok : Nat) (s : State) : Host.Outcome State Fault Refusal :=
  .next (wh (on s) (atDone (tokAccess .addR part tok)) s)

/-- TOKEN_ADD_WRITE (R49, R51). -/
def execTokenAddWrite (part tok data : Nat) (s : State) : Host.Outcome State Fault Refusal :=
  .next (wh (on s) (atDone (tokAccess (.add data) part tok)) s)

/-- TOKEN_TEST_DEC_READ (R49). -/
def execTokenTestDecRead (part tok : Nat) (s : State) : Host.Outcome State Fault Refusal :=
  .next (wh (on s) (atDone (tokAccess .decR part tok)) s)

/-- TOKEN_TEST_DEC_WRITE (R49). -/
def execTokenTestDecWrite (part tok data : Nat) (s : State) : Host.Outcome State Fault Refusal :=
  .next (wh (on s) (atDone (tokAccess (.dec data) part tok)) s)

/-- TOKEN_CAS_WRITE (R49). -/
def execTokenCasWrite (part tok data : Nat) (s : State) : Host.Outcome State Fault Refusal :=
  .next (wh (on s) (atDone (tokAccess (.cas data) part tok)) s)

/-- The issue checks of a TOKEN body (R38, R53). -/
def chkToken (s : State) (q : Nat) (b : List Byte) : Chk :=
  { chkNone with
    violation := (tok s (bF b 16 2 % 2 ^ 13)).owner != q
    format := bF b 2 1 != 0 || dSR b || bF b 16 2 / 2 ^ 13 != 0 || decide (3 ≤ bF b 18 1) || !zeroAt b 19 1 ||
      !zeroAt b 24 40 }

/-- A descriptor handed to TOK with an operation, not yet executed (Table 2.9). -/
def tokFlight (s : State) (fid op : Nat) : Option Flight :=
  match flightOf s fid with
  | some f => if f.station = .tok ∧ f.work = .none ∧ f.result = none ∧ bF f.bytes 18 1 = op then some f else none
  | none => none

/-- TOKEN SET: VALUE := OPERAND, GEN advances (R53). -/
def tokenSetF (fid : Nat) (s : State) : State :=
  match tokFlight s fid 0 with
  | some f => let b := tokenBody f; finish fid 0 0 (settle b.1 (tokSetV b.1 b.2 s))
  | none => s

/-- TOKEN ADD: as the add alias (R53). -/
def tokenAddF (fid : Nat) (s : State) : State :=
  match tokFlight s fid 1 with
  | some f => let b := tokenBody f; finish fid 0 0 (settle b.1 (tokAddV b.1 b.2 (some f.q) s))
  | none => s

/-- TOKEN ACQUIRE: it joins the held ACQUIREs, and is tested after them in the same bus cycle (R50, R53; log entry 14). -/
def tokenAcquireF (fid : Nat) (s : State) : State :=
  match tokFlight s fid 2 with
  | some f => settle (tokenBody f).1 (updFlight fid (fun f => { f with work := .acquire }) s)
  | none => s

/-- TOKEN_SET (R53). -/
def execTokenSet (fid : Nat) (s : State) : Host.Outcome State Fault Refusal := .next (wh (on s) (tokenSetF fid) s)

/-- TOKEN_ADD (R53). -/
def execTokenAdd (fid : Nat) (s : State) : Host.Outcome State Fault Refusal := .next (wh (on s) (tokenAddF fid) s)

/-- TOKEN_ACQUIRE (R53). -/
def execTokenAcquire (fid : Nat) (s : State) : Host.Outcome State Fault Refusal := .next (wh (on s) (tokenAcquireF fid) s)

end Sys2Proof.Machine
end

