-- ==== Sys2Proof/Machine/Stk.lean ====
section
/-!
DEFINITION. The stack engines beside the memory: REDUCE, STATS and EWISE, and the copying and converting part of MOVE in a
stack engine or in YRD (chapter 11, R54, R55, R205, R213).
-/
namespace Sys2Proof.Machine

/-! ### What a pass computes -/

/-- One stored element of a pass: the instance that made it (an engine, or YRD), its address, its word and width, what its
rounding met, and the instance of its first overflow. -/
structure Elem where
  src : Option Nat
  addr : Nat
  w : Nat
  sto : Stored
  ovf : Option (Option Nat)
deriving DecidableEq, Repr

/-- An element whose only roundings are those of its storing. -/
def elemAt (src : Option Nat) (addr w : Nat) (x : Stored) : Elem := ⟨src, addr, w, x, if x.overflow then some src else none⟩

/-- The bytes of an element. -/
def Elem.write (e : Elem) : Nat × List Byte := (e.addr, toLE e.w e.sto.word)

/-- A stored word with nothing met. -/
def plainSto (w : Nat) : Stored := ⟨w, false, false, false⟩

/-- A pair rounded from (v, e) under a mode (R256). -/
def pairSto (f : Fmt) (mode : RMode) (v e : Val) : Stored :=
  let r := pairRound (baseFmt f) mode v e
  ⟨pairWord (baseFmt f) r.1 r.2.1, r.2.2, false, vIsSpecial r.1⟩

/-- A placement unit (R252): its index, what it reads, what it writes, its engine operations (Table 11.8). -/
structure Unit' where
  idx : Nat
  rd : List (Nat × Nat)
  wr : List (Nat × Nat)
  ops : Nat
deriving DecidableEq, Repr

/-- The stacks a unit's HBM bytes lie in (R252). -/
def unitStacks (u : Unit') : List Nat := uniq ((u.rd ++ u.wr).flatMap fun x => stacksOf x.1 x.2)

/-- The engine that runs a unit (R252). -/
def unitEngine (u : Unit') : Nat := (unitStacks u).headD (u.idx % 8)

/-- The one member of a list of engines, or YRD where there are several (R252). -/
def meetAt (l : List Nat) : Option Nat :=
  match uniq l with
  | [e] => some e
  | _ => none

/-- Where a combination of two partials is made: their engine, or YRD (R252). -/
def joinAt (a b : Option Nat) : Option Nat := if a = b then a else none

/-- One level of a pairing tree over partials at their instances: neighbours are combined by `g`, an odd last one is carried up;
the first overflow with its instance. -/
def levelAt {α : Type} (g : α → α → α × Bool) :
    List (Option Nat × α) → List (Option Nat × α) × Option (Option Nat)
  | a :: b :: r =>
    let x := g a.2 b.2
    let e := joinAt a.1 b.1
    let y := levelAt g r
    ((e, x.1) :: y.1, if x.2 then some e else y.2)
  | l => (l, none)

/-- The pairing of tree_sum (R99) over partials at their instances: the root with its instance, and the first overflow; the
fuel is at least the number of levels. -/
def treeAt {α : Type} (g : α → α → α × Bool) (d : α) :
    Nat → List (Option Nat × α) → (Option Nat × α) × Option (Option Nat)
  | 0, l => (l.headD (none, d), none)
  | k + 1, l =>
    match l with
    | [] => ((none, d), none)
    | [a] => (a, none)
    | _ =>
      let x := levelAt g l
      let y := treeAt g d k x.1
      (y.1, x.2.or y.2)

/-- padd in a pair format as a combination (R97). -/
def paddAt (f : Fmt) (a b : Val × Val) : (Val × Val) × Bool :=
  let x := padd f a b
  ((x.1, x.2.1), x.2.2)

/-! ### MOVE (R54, R55, R205, R254) -/

/-- LENGTH. -/
def mvLen (b : List Byte) : Nat := bF b 32 4
/-- ROWS. -/
def mvRows (b : List Byte) : Nat := bF b 36 2
/-- MODE. -/
def mvMode (b : List Byte) : Nat := bF b 38 1
/-- The endpoint at `off` names a host (HOST = 1). -/
def epHost (b : List Byte) (off : Nat) : Bool := bit 7 (bF b (off + 7) 1)
/-- CHAN of the endpoint. -/
def epChan (b : List Byte) (off : Nat) : Nat := bF b (off + 6) 1
/-- The MOVE converts. -/
def mvConv (b : List Byte) : Bool := dFmt b != dOfmt b

/-- Columns of the MOVE, and its two matrices for an output width. -/
def mvCols (b : List Byte) : Nat := mvLen b / fmtBytes ((inFmt b).getD .k8)

/-- The source as a matrix. -/
def mvSrc (b : List Byte) : Ten :=
  ⟨dAddr b 16, mvRows b, mvCols b, fmtBytes ((inFmt b).getD .k8), bF b 40 4, mvMode b == 2⟩

/-- The destination as a matrix, as declared. -/
def mvDst (b : List Byte) : Ten :=
  ⟨dAddr b 24, mvRows b, mvCols b, fmtBytes ((outFmt b).getD .k8), bF b 44 4, mvMode b == 1⟩

/-- The place in which a whole endpoint lies: a stack, or the yard scratch window; none where its rows leave it (R26, R31;
log entry 110). -/
def placeOf (t : Ten) : Region :=
  match regionOf t.base, regionOf (t.base + (t.extent - 1)) with
  | .hbm k, .hbm j => if k = j then .hbm k else .none
  | .scratch k, .scratch _ => .scratch k
  | _, _ => .none

/-- Which station runs the MOVE (R31). -/
def mvStation (b : List Byte) : Station :=
  if epHost b 16 || epHost b 24 then .hos
  else match placeOf (mvSrc b), placeOf (mvDst b) with
    | .hbm k, .scratch _ => .stk k
    | .hbm k, .hbm j => if k = j then .stk k else .yrd
    | .scratch _, .hbm k => .stk k
    | _, _ => .yrd

/-- A one-byte output whose ownership is judged over twice its extent (R107). -/
def twice (k8sat : Bool) (o : Option Fmt) : Bool := o == some .g8 || (o == some .k8 && !k8sat)

/-- The matrix over which an output's ownership is judged (R107). -/
def judged (k8sat : Bool) (o : Option Fmt) (t : Ten) : Ten := if twice k8sat o then t.widen 2 else t

/-- K8_SAT of the queue as it stands at the checks (R116). -/
def k8satNow (s : State) (q : Nat) : Bool := rg s (pgDsp q) Fld.DSP_Q_NUM_K8_SAT == 1

/-- Every range of a matrix is owned and open, row by row (R39, R231). -/
def tenOwned (s : State) (p : Nat) (t : Ten) : Bool := t.ranges.all fun x => opRange s p x.1 x.2

/-- The smallest range of a matrix is owned and open (R123, R231). -/
def tenSpanOwned (s : State) (p : Nat) (t : Ten) : Bool := opRange s p t.base t.extent

/-- The channel is one of the partition's (R55). -/
def ownsChan (s : State) (p c : Nat) : Bool := decide (c < 64) && rg s (pgCh c) Fld.HIF_CH_CFG_PART == p

/-- The rows of two row sets share a byte (R55). -/
def rowsMeet (x y : Ten) : Bool := x.ranges.any fun a => y.ranges.any fun b => rangesMeet a.1 a.2 b.1 b.2

/-- The issue checks of a MOVE (R38, R39, R41, R55, R203, R205, R254, R338). -/
def chkMove (s : State) (q : Nat) (b : List Byte) : Chk :=
  let hs := epHost b 16
  let hd := epHost b 24
  let st := mvStation b
  let stk := match st with
    | .stk _ => true
    | _ => false
  let mode := mvMode b
  let src := mvSrc b
  let dst := mvDst b
  let conv := mvConv b
  let blk := mode == 1 || mode == 2
  let bt := if mode == 1 then dst else src
  { violation :=
      (!hs && !tenOwned s q src) || (!hd && !tenOwned s q (judged (k8satNow s q) (outFmt b) dst)) ||
      (hs && !ownsChan s q (epChan b 16)) || (hd && !ownsChan s q (epChan b 24))
    format := (inFmt b).isNone || (outFmt b).isNone || bF b 23 1 % 128 != 0 || bF b 31 1 % 128 != 0 ||
      (!hs && epChan b 16 != 0) || (!hd && epChan b 24 != 0) || !zeroAt b 39 1 || !zeroAt b 48 8 ||
      (!conv && !zeroAt b 56 8) || (hs && hd) || ((mode != 0 || conv) && !stk) || decide (3 ≤ mode) ||
      (blk && bt.w == 1)
    align := dAddr b 16 % 32 != 0 || dAddr b 24 % 32 != 0 || mvLen b % 32 != 0 || bF b 40 4 % 32 != 0 ||
      bF b 44 4 % 32 != 0 || (conv && dst.cols * dst.w % 32 != 0) || (blk && !bt.aligned)
    shape := (decide (1 < mvRows b) && (decide (bF b 40 4 < mvLen b) || decide (bF b 44 4 < mvLen b) ||
        decide (bF b 44 4 < dst.cols * dst.w))) ||
      (blk && !bt.shapely) || (!hs && !hd && rowsMeet src dst)
    capacity := decide (2 ^ 40 < mvRows b * mvCols b)
    zero := mvLen b == 0 || mvRows b == 0 }

/-- The writes of a MOVE that does not convert: rows, or elements moved between layouts. -/
def mvCopy (m : List Host.Cell) (b : List Byte) : List (Nat × List Byte) :=
  let src := mvSrc b
  let dst := mvDst b
  if mvMode b = 0 then
    (List.range src.rows).map fun r =>
      ((dst.row r).1, (List.range (mvLen b)).map fun i => tabGet memDefault m ((src.row r).1 + i))
  else (List.range src.rows).flatMap fun r => (List.range src.cols).map fun c =>
    (dst.addr r c, toLE src.w (src.word m r c))

/-- The elements of a MOVE that converts (R254): index r × columns + c (R93). -/
def mvElems (m : List Host.Cell) (f : Flight) (ofmt : Fmt) (eng : Nat) : List Elem :=
  let b := f.bytes
  let src := mvSrc b
  let dst := (mvDst b).widen (fmtBytes ofmt)
  (List.range src.rows).flatMap fun r => (List.range src.cols).map fun c =>
    elemAt (some eng) (dst.addr r c) dst.w (storeElem ofmt (k8satOf f) (modeAt (rndOf f) (r * src.cols + c))
      (src.val m ((inFmt b).getD .k8) r c))

/-! ### REDUCE (R255 to R257) -/

/-- SQ. -/
def rdSq (b : List Byte) : Bool := bit 0 (bF b 44 1)
/-- AXIS of a REDUCE. -/
def rdAxis (b : List Byte) : Bool := bit 1 (bF b 44 1)
/-- PAIR. -/
def rdPair (b : List Byte) : Bool := bit 2 (bF b 44 1)
/-- BLK of a REDUCE. -/
def rdBlk (b : List Byte) : Bool := bit 3 (bF b 44 1)
/-- U. -/
def rdU (b : List Byte) : Nat := bF b 46 2
/-- BSTRIDE. -/
def rdStride (b : List Byte) : Nat := bF b 48 6

/-- The input of a REDUCE or a STATS; in pair mode buffer `u`. -/
def rdIn (b : List Byte) (blk : Bool) (u : Nat) : Ten :=
  ⟨dAddr b 16 + u * rdStride b, bF b 32 4, bF b 36 4, fmtBytes ((inFmt b).getD .k8), bF b 40 4, blk⟩

/-- The output of a REDUCE in pair mode. -/
def rdOutPair (b : List Byte) : Ten :=
  ⟨dAddr b 24, bF b 32 4, bF b 36 4, fmtBytes ((outFmt b).getD .k8), bF b 40 4, rdBlk b⟩

/-- The output vector of `n` elements of width `w` as one row. -/
def rdOutVec (b : List Byte) (n w : Nat) : Ten := ⟨dAddr b 24, 1, n, w, 0, false⟩

/-- Segments of 16 rows (R256). -/
def segs (rows : Nat) : Nat := ceilDiv rows 16

/-- The rows of segment `q`. -/
def segRows (rows q : Nat) : List Nat := (List.range (min 16 (rows - 16 * q))).map fun i => 16 * q + i

/-- The ranges of segment `q`. -/
def segRanges (t : Ten) (q : Nat) : List (Nat × Nat) :=
  if t.blk then [t.row q] else (segRows t.rows q).map t.row

/-- The HBM bytes of one segment lie in two stacks (R256). -/
def segSplit (t : Ten) : Bool :=
  (List.range (segs t.rows)).any fun q => decide (1 < (uniq ((segRanges t q).flatMap fun x => stacksOf x.1 x.2)).length)

/-- The engine of row (or block row) `i` as a unit of its own, or YRD for a segment whose rows stand in several (R252). -/
def segAt (t : Ten) (q : Nat) : Option Nat :=
  if t.blk then some (unitEngine ⟨q, [t.row q], [], 0⟩)
  else meetAt ((segRows t.rows q).map fun r => unitEngine ⟨r, [t.row r], [], 0⟩)

/-- The units of sums over rows: each row or block row, with `per` operations an element, and `tree` operations a column for each
segment, charged to its first row. -/
def colUnits (t : Ten) (per : Nat) (tree : Nat → Nat) : List Unit' :=
  if t.blk then (List.range t.nRows).map fun q => ⟨q, [t.row q], [], per * t.cols * (segRows t.rows q).length + tree q * t.cols⟩
  else (List.range t.rows).map fun r =>
    ⟨r, [t.row r], [], per * t.cols + if r % 16 = 0 then tree (r / 16) * t.cols else 0⟩

/-- The parts of placement unit `i` in pair mode: one for each stack that holds buffer rows of it, and one alone where none does
(R257). Buffer rows outside HBM go with the first. -/
def pairParts (b : List Byte) (i : Nat) : List Unit' :=
  let out := (rdOutPair b).row i
  let rows := (List.range (rdU b)).map fun u => (rdIn b (rdBlk b) u).row i
  let ops := fun l : List (Nat × Nat) => l.foldl (fun n x => n + 10 * (x.2 / 4)) 0
  match uniq (rows.flatMap fun x => stacksOf x.1 x.2) with
  | [] => [⟨i, rows, [out], ops rows⟩]
  | k :: r => (k :: r).map fun j =>
    let mine := rows.filter fun x => stacksOf x.1 x.2 == [j] || (j == k && (stacksOf x.1 x.2).isEmpty)
    ⟨i, mine, [], ops mine⟩

/-- Where the tree of placement unit `i` is evaluated: in an engine only where every buffer row and the output row lie in its stack,
or where none lies in HBM (R252, R257). -/
def pairAt (b : List Byte) (i : Nat) : Option Nat :=
  let l := ((rdOutPair b).row i :: (List.range (rdU b)).map fun u => (rdIn b (rdBlk b) u).row i).map fun x => stacksOf x.1 x.2
  if l.all fun x => x.isEmpty then some (i % 8)
  else match uniq l with
    | [[k]] => some k
    | _ => none

/-- The units of a REDUCE. -/
def rdUnits (b : List Byte) : List Unit' :=
  let t := rdIn b (rdBlk b) 0
  let k := if rdSq b then 2 else 1
  if rdPair b then (List.range (rdOutPair b).nRows).flatMap (pairParts b)
  else if rdAxis b then
    (List.range t.nRows).map fun i =>
      let per := if t.blk then 16 else 1
      let w := fmtBytes ((outFmt b).getD .k16)
      ⟨i, [t.row i], [(dAddr b 24 + i * per * w, per * w)], k * per * t.cols⟩
  else colUnits t k fun _ => 10

/-- The wider format W of pair mode (R257). -/
def rdWide (b : List Byte) : Fmt := if dFmt b = 5 ∨ dOfmt b = 5 then .gp32 else .kp32

/-- One term of a sum (R256). -/
def rdTerm (m : List Host.Cell) (b : List Byte) (r c : Nat) : Val :=
  let x := (rdIn b (rdBlk b) 0).val m ((inFmt b).getD .k8) r c
  if rdSq b then aMul x x else x

/-- A sum: the first term exactly, each later one with one rounding (R256). -/
def sumTerms : List Val → Val
  | [] => vZero
  | x :: r => r.foldl aAdd x

/-- A rounding of the pair (pv, pe) to an output format (R256). -/
def pairToOut (o : Fmt) (k8sat : Bool) (mode : RMode) (p : Val × Val) : Stored :=
  if isPair o then pairSto o mode p.1 p.2 else storeElem o k8sat mode (aAdd p.1 p.2)

/-- Output element (r, c) of pair mode (R257). -/
def pairElem (m : List Host.Cell) (b : List Byte) (o : Fmt) (r c : Nat) : Elem :=
  let out := rdOutPair b
  let at' := pairAt b (if out.blk then r / 16 else r)
  let ps := (List.range (rdU b)).map fun u => pairVals ((inFmt b).getD .kp32) ((rdIn b (rdBlk b) u).word m r c)
  let x := treeSum (baseFmt (if o = .gp32 then .gp32 else rdWide b)) 13 ps
  let st := pairSto o .near x.1.1 x.1.2
  elemAt at' (out.addr r c) 4 { st with overflow := st.overflow || x.2 }

/-- Column `c` of a REDUCE over rows (R256). -/
def colElem (m : List Host.Cell) (f : Flight) (o : Fmt) (c : Nat) : Elem :=
  let b := f.bytes
  let t := rdIn b (rdBlk b) 0
  let pf := baseFmt (partialFmt o)
  let ps := (List.range (segs t.rows)).map fun q =>
    (segAt t q, pairOf pf .near (sumTerms ((segRows t.rows q).map fun r => rdTerm m b r c)))
  let x := treeAt (paddAt pf) (vZero, vZero) 25 (ps.map fun p => (p.1, (p.2.1, p.2.2.1)))
  let e := elemAt x.1.1 (dAddr b 24 + c * fmtBytes o) (fmtBytes o) (pairToOut o (k8satOf f) (modeAt (rndOf f) c) x.1.2)
  { e with ovf := (((ps.find? fun p => p.2.2.2).map Prod.fst).or x.2).or e.ovf }

/-- The output elements of a REDUCE in a format (R256, R257). -/
def rdElems (m : List Host.Cell) (f : Flight) (o : Fmt) : List Elem :=
  let b := f.bytes
  let t := rdIn b (rdBlk b) 0
  if rdPair b then
    (List.range (rdOutPair b).rows).flatMap fun r => (List.range (rdOutPair b).cols).map fun c => pairElem m b o r c
  else if rdAxis b then
    (List.range t.rows).map fun r =>
      let v := sumTerms ((List.range t.cols).map fun c => rdTerm m b r c)
      elemAt (((rdUnits b)[if t.blk then r / 16 else r]?).map unitEngine) (dAddr b 24 + r * fmtBytes o) (fmtBytes o)
        (storeElem o (k8satOf f) (modeAt (rndOf f) r) v)
  else (List.range t.cols).map (colElem m f o)

/-- A unit in two stacks (R252). -/
def unitSplit (l : List Unit') : Bool := l.any fun u => decide (1 < (unitStacks u).length)

/-- The issue checks of a REDUCE (R255, R257, Table 11.7). -/
def chkReduce (s : State) (q : Nat) (b : List Byte) : Chk :=
  let t := rdIn b (rdBlk b) 0
  let pair := rdPair b
  let w := fmtBytes ((outFmt b).getD .k8)
  let vec := rdOutVec b (if rdAxis b then t.rows else t.cols) w
  let okO := [some Fmt.k16, some .g16, some .kp32, some .gp32].contains (outFmt b)
  let isP := fun o : Option Fmt => o == some Fmt.kp32 || o == some .gp32
  { violation :=
      if pair then ((List.range (rdU b)).any fun u => !tenSpanOwned s q (rdIn b (rdBlk b) u)) ||
        !tenSpanOwned s q (rdOutPair b)
      else !tenSpanOwned s q t || !tenSpanOwned s q vec
    format := (inFmt b).isNone || !okO || !dAddrOk b 16 || !dAddrOk b 24 || !dAddrOk b 48 || bF b 44 1 / 16 != 0 ||
      !zeroAt b 45 1 || (rdBlk b && t.w == 1) || (pair && (rdSq b || rdAxis b)) || (pair && !(isP (inFmt b) && isP (outFmt b))) ||
      (!pair && (rdU b != 0 || rdStride b != 0))
    align := !t.aligned || (if pair then !(rdOutPair b).aligned || rdStride b % (if rdBlk b then 512 else 32) != 0
      else dAddr b 24 % 32 != 0)
    shape := !t.shapely || (pair && !(rdOutPair b).shapely) || (if pair then false else unitSplit (rdUnits b)) ||
      (!pair && !rdAxis b && segSplit t) ||
      (pair && decide (1 < rdU b) && decide (rdStride b < t.extent))
    capacity := decide (2 ^ 24 < t.rows) || decide (2 ^ 24 < t.cols) || decide (2 ^ 40 < t.rows * t.cols) ||
      decide (4096 < rdU b)
    zero := t.rows == 0 || t.cols == 0 || (pair && rdU b == 0) }

/-! ### STATS (R258, R259) -/

/-- MERGE. -/
def saMerge (b : List Byte) : Bool := bit 0 (bF b 44 1)
/-- AXIS of a STATS. -/
def saAxis (b : List Byte) : Bool := bit 1 (bF b 44 1)
/-- BLK of a STATS. -/
def saBlk (b : List Byte) : Bool := bit 2 (bF b 44 1)

/-- The data of a STATS. -/
def saIn (b : List Byte) : Ten :=
  ⟨dAddr b 16, bF b 32 4, bF b 36 4, if saMerge b then 16 else fmtBytes ((inFmt b).getD .k8), bF b 40 4, saBlk b⟩

/-- The number of records a STATS writes. -/
def saOuts (b : List Byte) : Nat := if saAxis b then bF b 32 4 else bF b 36 4

/-- The records written, as a row. -/
def saOut (b : List Byte) : Ten := ⟨dAddr b 24, 1, saOuts b, 16, 0, false⟩

/-- A record: count, mean and M2 as GP32 pairs; the flag says that its rounding overflowed. -/
structure Rec where
  n : Nat
  mean : Val × Val
  m2 : Val × Val
  ovf : Bool
deriving DecidableEq, Repr

/-- A running record rounded to a record (R105). -/
def recOf (w : Welford) : Rec :=
  let a := pairOf .g16 .near w.mean
  let c := pairOf .g16 .near w.m2
  ⟨w.n, (a.1, a.2.1), (c.1, c.2.1), a.2.2 || c.2.2 || decide (0xFFFFFFFF < w.n)⟩

/-- A record read back as A40 values. -/
def recW (r : Rec) : Welford := ⟨r.n, aAdd r.mean.1 r.mean.2, aAdd r.m2.1 r.m2.2⟩

/-- Two records merged and rounded, as a combination (R259). -/
def recMerge (a b : Rec) : Rec × Bool :=
  let r := recOf (welfordMerge (recW a) (recW b))
  (r, r.ovf)

/-- The merge tree (R259): the root and its instance, and the first overflow. Where every record counts nothing, the result is
(0, +0, +0) (R264). -/
def recTree (l : List (Option Nat × Rec)) : (Option Nat × Rec) × Option (Option Nat) :=
  let x := treeAt recMerge (recOf welfordStart) 25 l
  (if x.1.2.n = 0 then (x.1.1, recOf welfordStart) else x.1, x.2)

/-- The 16 bytes of a record (R258). -/
def recBytes (r : Rec) : List Byte :=
  toLE 4 (pairWord .g16 r.mean.1 r.mean.2) ++ toLE 4 (pairWord .g16 r.m2.1 r.m2.2) ++ toLE 4 r.n ++ toLE 4 0

/-- A record read from memory (R258). -/
def recRead (m : List Host.Cell) (a : Nat) : Rec :=
  ⟨mLE m (a + 8) 4, pairVals .gp32 (mLE m a 4), pairVals .gp32 (mLE m (a + 4) 4), false⟩

/-- The units of a STATS. -/
def saUnits (b : List Byte) : List Unit' :=
  let t := saIn b
  if saMerge b then (List.range t.rows).map fun j => ⟨j, [t.row j], [], if j = 0 then 0 else 24 * t.cols⟩
  else if saAxis b then (List.range t.nRows).map fun i =>
    let per := if t.blk then 16 else 1
    ⟨i, [t.row i], [(dAddr b 24 + i * per * 16, per * 16)], 10 * per * t.cols⟩
  else colUnits t 10 fun q => if q = 0 then 0 else 24

/-- One record of a pass: where it was made, and the instance of its first overflow. -/
structure RecAt where
  src : Option Nat
  r : Rec
  ovf : Option (Option Nat)
deriving DecidableEq, Repr

/-- The record of output `k` of a STATS (R259). -/
def saRec (m : List Host.Cell) (b : List Byte) (k : Nat) : RecAt :=
  let t := saIn b
  let f := (inFmt b).getD .k8
  if saAxis b then
    let r := recOf ((List.range t.cols).foldl (fun w c => welfordAdd w (t.val m f k c)) welfordStart)
    let src := ((saUnits b)[if t.blk then k / 16 else k]?).map unitEngine
    ⟨src, r, if r.ovf then some src else none⟩
  else
    let l : List (Option Nat × Rec) :=
      if saMerge b then ((saUnits b).zipIdx.map fun u => (some (unitEngine u.1), recRead m (t.base + u.2 * t.pitch + 16 * k)))
      else (List.range (segs t.rows)).map fun q =>
        (segAt t q, recOf ((segRows t.rows q).foldl (fun w r => welfordAdd w (t.val m f r k)) welfordStart))
    let x := recTree l
    ⟨x.1.1, x.1.2, ((l.find? fun y => y.2.ovf).map Prod.fst).or x.2⟩

/-- The records of a STATS, in order of output (R259). -/
def saRecs (m : List Host.Cell) (b : List Byte) : List RecAt := (List.range (saOuts b)).map (saRec m b)

/-- The issue checks of a STATS (R258, R259, Table 11.7). -/
def chkStats (s : State) (q : Nat) (b : List Byte) : Chk :=
  let t := saIn b
  { violation := !tenSpanOwned s q t || !tenSpanOwned s q (saOut b)
    format := (inFmt b).isNone || outFmt b != some .gp32 || (saMerge b && (inFmt b != some .gp32 || saAxis b || saBlk b)) ||
      (saBlk b && t.w == 1) || bF b 44 1 / 8 != 0 || !zeroAt b 45 11 || !dAddrOk b 16 || !dAddrOk b 24
    align := !t.aligned || dAddr b 24 % 32 != 0
    shape := !t.shapely || unitSplit (saUnits b) || (!saMerge b && !saAxis b && segSplit t)
    capacity := decide (2 ^ 24 < t.rows) || decide (2 ^ 24 < t.cols) || decide (2 ^ 40 < t.rows * t.cols)
    zero := t.rows == 0 || t.cols == 0 }

/-! ### EWISE (R260 to R263, R213, R214) -/

/-- FUNC. -/
def ewFunc (b : List Byte) : Nat := bF b 32 1
/-- ACT. -/
def ewAct (b : List Byte) : Nat := bF b 33 1 % 16
/-- ZFMT. -/
def ewZfmt (b : List Byte) : Nat := bF b 34 1 % 16
/-- BLK of an EWISE. -/
def ewBlk (b : List Byte) : Bool := bit 0 (bF b 35 1)
/-- ROWS. -/
def ewRows (b : List Byte) : Nat := bF b 24 4
/-- COLS. -/
def ewCols (b : List Byte) : Nat := bF b 28 4

/-- The function uses Z (Table 11.6). -/
def ewUsesZ (fn : Nat) : Bool := fn == 1 || fn == 2 || fn == 3 || fn == 5 || fn == 7

/-- Tensor number k of the block: 0 X, 1 Z, 2 Y, 3 V, 4 WC; its width by format (Table 11.5). -/
def ewTen (b k : List Byte) (i w : Nat) : Ten := ⟨bF k (8 * i) 6, ewRows b, ewCols b, w, bF k (48 + 4 * i) 4, ewBlk b⟩

/-- X. -/
def ewX (b k : List Byte) : Ten := ewTen b k 0 (fmtBytes ((inFmt b).getD .k8))
/-- Z. -/
def ewZ (b k : List Byte) : Ten := ewTen b k 1 (fmtBytes ((fmtOf (ewZfmt b)).getD .k8))
/-- Y. -/
def ewY (b k : List Byte) : Ten := ewTen b k 2 (fmtBytes ((outFmt b).getD .k8))
/-- V. -/
def ewV (b k : List Byte) : Ten := ewTen b k 3 4
/-- WC. -/
def ewWC (b k : List Byte) : Ten := ewTen b k 4 2

/-- Parameter P`i`. -/
def ewP (k : List Byte) (i : Nat) : Val := decodeElem .gp32 (bF k (72 + 4 * i) 4)

/-- HOLD_ADDR. -/
def ewHold (k : List Byte) : Nat := bF k 40 6

/-- HB: hold bytes of an element (R263). -/
def ewHB (fn : Nat) : Nat := if fn = 6 then 4 else if fn = 7 then 16 else 0

/-- The tensors that the function reads and those that it writes. -/
def ewReads (b k : List Byte) : List Ten :=
  let fn := ewFunc b
  [ewX b k] ++ (if ewUsesZ fn then [ewZ b k] else []) ++ (if 6 ≤ fn then [ewY b k] else []) ++
    (if fn = 7 then [ewV b k] else [])

/-- The tensors that the function writes. -/
def ewWrites (b k : List Byte) : List Ten :=
  let fn := ewFunc b
  [ewY b k] ++ (if fn = 7 then [ewZ b k, ewV b k, ewWC b k] else [])

/-- The engine operations of one element (Table 11.8). -/
def ewCost (b : List Byte) : Nat :=
  let act := if ewAct b ≤ 2 then 2 else 16
  match ewFunc b with
  | 0 => 1 | 1 => 2 | 2 => 2 | 3 => 4 | 4 => act | 5 => act + 1 | 6 => 12 | _ => 56

/-- The units of an EWISE. -/
def ewUnits (b k : List Byte) : List Unit' :=
  let x := ewX b k
  (List.range x.nRows).map fun i =>
    ⟨i, (ewReads b k).map fun t => t.row i, (ewWrites b k).map fun t => t.row i,
      ewCost b * (if x.blk then 16 else 1) * x.cols⟩

/-- y of FUNC 0 to 5 (Table 11.6). -/
def ewFn (b k : List Byte) (x z : Val) : Val :=
  match ewFunc b with
  | 0 => x
  | 1 => aAdd x z
  | 2 => aMul x z
  | 3 => aAdd (aMul (ewP k 0) x) (aMul (ewP k 1) z)
  | 4 => actVal (ewAct b) (ewP k 0) x
  | _ => aMul x (actDeriv (ewAct b) (ewP k 0) z)

/-- The elements of FUNC 0 to 5 in an output format. -/
def ewElems (m : List Host.Cell) (f : Flight) (o : Fmt) : List Elem :=
  let b := f.bytes
  let k := f.cap.blk
  let es := ewUnits b k
  let y := (ewY b k).widen (fmtBytes o)
  (List.range (ewRows b)).flatMap fun r => (List.range (ewCols b)).map fun c =>
    let x := (ewX b k).val m ((inFmt b).getD .k8) r c
    let z := if ewUsesZ (ewFunc b) then (ewZ b k).val m ((fmtOf (ewZfmt b)).getD .k8) r c else vZero
    elemAt ((es[if ewBlk b then r / 16 else r]?).map unitEngine) (y.addr r c) y.w
      (storeElem o (k8satOf f) (modeAt (rndOf f) (r * ewCols b + c)) (ewFn b k x z))

/-- One state word of PACC or OPT: its address, its width, the word, and whether it is infinite or NaN (R87). -/
structure StWord where
  addr : Nat
  w : Nat
  word : Nat
  special : Bool
deriving DecidableEq, Repr

/-- A pair as a state word. -/
def stPair (a : Nat) (f : Fmt) (n : Val × Val × Bool) : StWord := ⟨a, 4, pairWord f n.1 n.2.1, vIsSpecial n.1⟩

/-- What one element of PACC or OPT computes: its state words, and whether a pair overflowed (R261, R213, R214). -/
def ewState (m : List Host.Cell) (f : Flight) (r c : Nat) : List StWord × Bool :=
  let b := f.bytes
  let k := f.cap.blk
  let i := r * ewCols b + c
  let rnd := rndOf f
  let yf := (outFmt b).getD .kp32
  let y := pairVals yf ((ewY b k).word m r c)
  let x := (ewX b k).val m ((inFmt b).getD .k8) r c
  if ewFunc b = 6 then
    let n := pupd (baseFmt yf) (modeAt rnd i) y.1 y.2 (aMul (ewP k 0) x)
    ([stPair ((ewY b k).addr r c) (baseFmt yf) n], n.2.2)
  else
    let tm := { rnd with tid := rnd.tid ^^^ 0x08000000 }
    let ts := { rnd with tid := rnd.tid ^^^ 0x04000000 }
    let mp := pairVals .gp32 ((ewZ b k).word m r c)
    let sp := pairVals .gp32 ((ewV b k).word m r c)
    let mo := aAdd mp.1 mp.2
    let so := aAdd sp.1 sp.2
    let w := aAdd y.1 y.2
    let mn := pupd .g16 (modeAt tm i) mp.1 mp.2 (aMul (ewP k 1) (aSub x mo))
    let sn := pupd .g16 (modeAt ts i) sp.1 sp.2 (aMul (ewP k 2) (aSub (aMul x x) so))
    let mh := aMul (aAdd mn.1 mn.2.1) (ewP k 5)
    let sh := aMul (aAdd sn.1 sn.2.1) (ewP k 6)
    let u := aDiv mh (aAdd (aSqrt sh) (ewP k 3))
    let d := aMul (aSub vZero (ewP k 0)) (aAdd u (aMul (ewP k 4) w))
    let wn := pupd .k16 (modeAt rnd i) y.1 y.2 d
    ([stPair ((ewY b k).addr r c) .k16 wn, stPair ((ewZ b k).addr r c) .g16 mn, stPair ((ewV b k).addr r c) .g16 sn,
      ⟨(ewWC b k).addr r c, 2, encodeWord .k16 wn.1, vIsSpecial wn.1⟩],
     mn.2.2 || sn.2.2 || wn.2.2)

/-- The hold bytes of an element's state words (R263). -/
def ewHoldBytes (hb : Nat) (l : List StWord) : List Byte :=
  let bs := l.flatMap fun x => toLE x.w x.word
  bs ++ List.replicate (hb - bs.length) 0

/-- A reserved bit of an EWISE's body is set (R5). -/
def ewiseRes (b : List Byte) : Bool :=
  !dAddrOk b 16 || bF b 33 1 / 16 != 0 || bF b 34 1 / 16 != 0 || bF b 35 1 / 2 != 0 || !zeroAt b 36 20

/-- What the body of an EWISE shows by itself, of its issue checks (R260 to R263, Table 11.7). -/
def ewiseOwn (s : State) (q : Nat) (b : List Byte) : Chk :=
  let fn := ewFunc b
  let fl := [some Fmt.k8, some .g8, some .k16, some .g16, some .kp32, some .gp32]
  let usesZ := ewUsesZ fn
  { violation := !opRange s q (dAddr b 16) 128
    format := (inFmt b).isNone || (outFmt b).isNone || ewiseRes b || decide (7 < fn) || decide (7 < ewAct b) ||
      (ewAct b != 0 && fn != 4 && fn != 5) || (ewAct b == 0 && fn == 5) ||
      (usesZ && (fmtOf (ewZfmt b)).isNone) || (!usesZ && ewZfmt b != 0) ||
      (1 ≤ fn && fn ≤ 5 && !fl.contains (outFmt b)) ||
      (fn == 6 && outFmt b != some .kp32 && outFmt b != some .gp32) ||
      (fn == 7 && ((inFmt b != some .gp32 && inFmt b != some .g16) || outFmt b != some .kp32 || ewZfmt b != 5 || !ewBlk b))
    align := dAddr b 16 % 128 != 0
    shape := false
    capacity := decide (2 ^ 24 < ewRows b) || decide (2 ^ 24 < ewCols b) || decide (2 ^ 40 < ewRows b * ewCols b)
    zero := ewRows b == 0 || ewCols b == 0 }

/-- The issue checks of an EWISE on its block (R260 to R263, Table 11.7). -/
def chkEwise (s : State) (q : Nat) (b k : List Byte) : Chk :=
  let fn := ewFunc b
  let sat := k8satNow s q
  let usesZ := ewUsesZ fn
  let x := ewX b k
  let y := ewY b k
  let state := fn == 6 || fn == 7
  let holdN := ewRows b * ewCols b * ewHB fn
  let used := [x, y] ++ (if usesZ then [ewZ b k] else []) ++ (if fn = 7 then [ewV b k, ewWC b k] else [])
  let reads := [x] ++ (if usesZ then [ewZ b k] else []) ++ (if fn = 7 then [ewV b k, ewWC b k] else [])
  let yj := if state then y else judged sat (outFmt b) y
  let pairwise := fun l : List Ten => l.zipIdx.any fun a => l.zipIdx.any fun c => decide (a.2 < c.2) && a.1.meets c.1
  { chkNone with
    violation := used.any (fun t => !tenSpanOwned s q t) || !tenSpanOwned s q yj ||
      (state && !((piecesOf (ewHold k) holdN).all fun a => opRange s q a 1 && match regionOf a with
        | .scratch _ => true
        | _ => false))
    format := (ewBlk b && used.any fun t => t.w == 1) ||
      (List.range 6).any (fun i => !dAddrOk k (8 * i)) || !zeroAt k 68 4 || !zeroAt k 100 28 ||
      (!usesZ && (!zeroAt k 8 8 || !zeroAt k 52 4)) || (fn != 7 && (!zeroAt k 24 16 || !zeroAt k 60 8)) ||
      (!state && !zeroAt k 40 8)
    align := used.any (fun t => !t.aligned) || (state && ewHold k % 32 != 0)
    shape := used.any (fun t => !t.shapely) || unitSplit (ewUnits b k) ||
      (!state && ((decide (¬(y.base = x.base ∧ y.pitch = x.pitch ∧ y.w = x.w)) && yj.meets x) ||
        (usesZ && decide (¬(y.base = (ewZ b k).base ∧ y.pitch = (ewZ b k).pitch ∧ y.w = (ewZ b k).w)) && yj.meets (ewZ b k)) ||
        rangesMeet yj.base yj.extent (dAddr b 16) 128)) ||
      (state && (pairwise ([y] ++ reads) || ([y] ++ reads).any fun t => rangesMeet t.base t.extent (ewHold k) holdN)) }

/-! ### Running a pass -/

/-- The placement units of an engine descriptor. -/
def stkUnits (f : Flight) : List Unit' :=
  match dOp f.bytes with
  | 0x07 => rdUnits f.bytes
  | 0x09 => ewUnits f.bytes f.cap.blk
  | 0x0A => saUnits f.bytes
  | _ =>
    let c := mvSrc f.bytes
    [⟨0, c.ranges, (mvDst f.bytes).ranges, if mvConv f.bytes then c.rows * c.cols else 0⟩]

/-- The engines that a descriptor runs in, each once (R252); none for a MOVE in YRD. -/
def stkEngines (f : Flight) : List Nat :=
  match f.station with
  | .stk _ => uniq ((stkUnits f).map unitEngine)
  | _ => []

/-- The units of a descriptor that engine `k` runs. -/
def unitsAt (f : Flight) (k : Nat) : List Unit' := (stkUnits f).filter fun u => unitEngine u == k

/-- What the descriptor reads. -/
def stkReads (f : Flight) : List (Nat × Nat) := (stkUnits f).flatMap fun u => u.rd

/-- The descriptor updates state in place through a hold area (R263). -/
def holdsState (f : Flight) : Bool := dOp f.bytes == 0x09 && decide (6 ≤ ewFunc f.bytes)

/-- The output matrices as declared widths for a format: what an unrecovered overflow leaves undefined. -/
def stkUndefined (f : Flight) (o : Fmt) : List (Nat × Nat) :=
  match dOp f.bytes with
  | 0x07 => if rdPair f.bytes then (rdOutPair f.bytes).ranges
      else (rdOutVec f.bytes (if rdAxis f.bytes then bF f.bytes 32 4 else bF f.bytes 36 4) (fmtBytes o)).ranges
  | 0x09 => if holdsState f then [(ewHold f.cap.blk, ewRows f.bytes * ewCols f.bytes * ewHB (ewFunc f.bytes))]
      else ((ewY f.bytes f.cap.blk).widen (fmtBytes o)).ranges
  | 0x0A => (saOut f.bytes).ranges
  | _ => ((mvDst f.bytes).widen (fmtBytes o)).ranges

/-- Leave several ranges undefined. -/
def scrambleAll (l : List (Nat × Nat)) (s : State) : State := l.foldl (fun s x => scramble x.1 x.2 s) s

/-- What a pass gives: its writes in order (for PACC and OPT those of the hold area), what the copy-back writes, the instance of its
first overflow, and per instance the K8 and integer saturations and the special values (R451). -/
structure PassOut where
  writes : List (Nat × List Byte)
  back : List (Nat × List Byte)
  ovf : Option (Option Nat)
  sat : List (Option Nat)
  special : List (Option Nat)
deriving DecidableEq, Repr

/-- A pass from its elements. -/
def passOf (l : List Elem) : PassOut :=
  ⟨joinWrites (l.map Elem.write), [], l.findSome? Elem.ovf,
    (l.filter fun e => e.sto.saturated).map Elem.src, (l.filter fun e => e.sto.special).map Elem.src⟩

/-- A pass of PACC or OPT: the state words of each element in the hold area, then in the state tensors (R263). -/
def passState (m : List Host.Cell) (f : Flight) : PassOut :=
  let b := f.bytes
  let us := ewUnits b f.cap.blk
  let hb := ewHB (ewFunc b)
  let xs := (List.range (ewRows b)).flatMap fun r => (List.range (ewCols b)).map fun c =>
    ((us[if ewBlk b then r / 16 else r]?).map unitEngine, ewState m f r c)
  ⟨joinWrites (xs.zipIdx.map fun x => (ewHold f.cap.blk + x.2 * hb, ewHoldBytes hb x.1.2.1)),
    joinWrites (xs.flatMap fun x => x.2.1.map fun y => (y.addr, toLE y.w y.word)),
    (xs.find? fun x => x.2.2).map Prod.fst, [],
    xs.flatMap fun x => (x.2.1.filter fun y => y.special).map fun _ => x.1⟩

/-- A record that stands for an infinity or a NaN (R87; log entry 110). -/
def recSpecial (r : Rec) : Bool := vIsSpecial r.mean.1 || vIsSpecial r.m2.1

/-- One pass of a stack engine descriptor or of a MOVE in YRD over a memory, in an output format. -/
def stkPass (m : List Host.Cell) (f : Flight) (o : Fmt) : PassOut :=
  let b := f.bytes
  match dOp b with
  | 0x07 => passOf (rdElems m f o)
  | 0x09 => if holdsState f then passState m f else passOf (ewElems m f o)
  | 0x0A =>
    let rs := saRecs m b
    ⟨joinWrites (rs.zipIdx.map fun x => (dAddr b 24 + 16 * x.2, recBytes x.1.r)), [], rs.findSome? RecAt.ovf, [],
      (rs.filter fun x => recSpecial x.r).map RecAt.src⟩
  | _ =>
    if mvConv b then passOf (mvElems m f o (match f.station with | .stk k => k | _ => 0))
    else ⟨joinWrites (mvCopy m b), [], none, [], []⟩

/-- The page of an instance: an engine's STK page, or the YRD page (R451). -/
def srcPage (e : Option Nat) : Page :=
  match e with
  | some k => pgStk k
  | none => pgYrd

/-- One event of a class on each instance with a count of elements (R451). -/
def raisePer (cls detail : Nat) (p : Nat) (l : List (Option Nat)) (s : State) : State :=
  (uniq l).foldl (fun s e =>
    let n := (l.filter fun x => decide (x = e)).length
    raiseV (srcPage e) cls 0 detail (some p) 0 n (binLog n) s) s

/-- The descriptor replays: its output has a successor and its opcode replays (R106, R215, R259, R263). -/
def stkReplays (f : Flight) (o : Fmt) : Option Fmt :=
  if dOp f.bytes = 0x0A ∨ holdsState f then none else replayNext o

/-- Add to a live counter of an engine: 0 OPS, 1 DESC, 2 RD, 3 WR, 4 SVC, 5 HOLD (Table 11.12). -/
def stkCount (k i n : Nat) (s : State) : State :=
  let e := tabGet stkDefault s.stks k
  { s with stks := tabSet stkDefault s.stks k { e with cnt := e.cnt.set i ((e.cnt.getD i 0 + n) % 2 ^ 64) } }

/-- Bytes that writes put into the DRAM of stack `k`. -/
def bytesInStack (k : Nat) (ws : List (Nat × List Byte)) : Nat :=
  (ws.filter fun x => decide (regionOf x.1 = .hbm k)).foldl (fun n x => n + x.2.length) 0

/-- DRAM bytes that a descriptor's writes put into each of its engines' stacks (R267). -/
def countWrites (f : Flight) (ws : List (Nat × List Byte)) (s : State) : State :=
  (stkEngines f).foldl (fun s k => stkCount k 3 (bytesInStack k ws) s) s

/-- Bytes that each engine sends to the hold area, or fetches from it (R263, R267). -/
def countHold (f : Flight) (s : State) : State :=
  (stkEngines f).foldl (fun s k =>
    stkCount k 5 ((unitsAt f k).length * ewHB (ewFunc f.bytes) * (if ewBlk f.bytes then 16 else 1) * ewCols f.bytes) s) s

/-- Free a descriptor's places at its engines (R266). -/
def stkLeave (fid : Nat) (s : State) : State :=
  (List.range 8).foldl (fun s k =>
    let e := tabGet stkDefault s.stks k
    { s with stks := tabSet stkDefault s.stks k { e with
        active := e.active.filter fun x => x != fid
        waiting := e.waiting.filter fun x => x != fid } }) s

/-- An engine takes the descriptor when one of its 8 places is free and nobody waits before it; otherwise the descriptor
waits there in arrival order (R266). -/
def stkEnter (fid k : Nat) (s : State) : State :=
  let e := tabGet stkDefault s.stks k
  if e.active.contains fid then s
  else if e.active.length < 8 ∧ (e.waiting.head? = none ∨ e.waiting.head? = some fid) then
    { s with stks := tabSet stkDefault s.stks k { e with
        active := e.active ++ [fid], waiting := e.waiting.filter fun x => x != fid } }
  else if e.waiting.contains fid then s
  else { s with stks := tabSet stkDefault s.stks k { e with waiting := e.waiting ++ [fid] } }

/-- The work of an engine descriptor or a MOVE in YRD, as it starts. -/
def stkWork (f : Flight) : StkWork :=
  match f.work with
  | .stk w => w
  | _ => ⟨[], 0, (outFmt f.bytes).getD .k16, false, none, false⟩

/-- The state with a descriptor's work changed. -/
def setStk (fid : Nat) (w : StkWork) (s : State) : State := updFlight fid (fun f => { f with work := .stk w }) s

/-- The descriptor executes in stack engines or in YRD, and has no result. -/
def stkFlight (s : State) (fid : Nat) : Option Flight :=
  match flightOf s fid with
  | some f =>
    let op := dOp f.bytes
    let here : Bool := match f.station with
      | .stk _ => true
      | .yrd => op == 0x01
      | _ => false
    if here && f.result.isNone && (op == 0x01 || op == 0x07 || op == 0x09 || op == 0x0A) then some f else none
  | none => none

/-- The descriptor takes a place at each engine that has not finished its units (R266). -/
def stkStart (fid : Nat) (s : State) : State :=
  match stkFlight s fid with
  | some f =>
    ((stkEngines f).filter fun k => !(stkWork f).done.contains k).foldl (fun s k => stkEnter fid k s) s
  | none => s

/-- A descriptor of the stack engines ends: its places become free, and each of its engines counts a descriptor completed
(Table 11.12). -/
def stkDone (f : Flight) (code replays : Nat) (s : State) : State :=
  stkLeave f.fid (finish f.fid code 0 (updFlight f.fid (fun g => { g with replays := replays })
    ((stkEngines f).foldl (fun s k => stkCount k 1 1 s) s)))

/-- Engine `k` runs its units of a pass: it reads, computes, and leaves its place unless a copy-back follows (R263, R266). -/
def stkPart (fid k : Nat) (s : State) : State :=
  match stkFlight s fid with
  | some f =>
    let us := unitsAt f k
    let rd := us.flatMap fun u => u.rd
    if !(tabGet stkDefault s.stks k).active.contains fid ∨ (stkWork f).done.contains k then s
    else if mustWait s fid rd [] then noteWait fid rd [] s
    else
      let s := proceed fid s
      let s := updFlight fid (fun g => { g with snap := some (g.snap.getD s.mem) }) s
      let r := readAll .beside f.q rd s
      match r.2 with
      | some c => stkDone f c (stkWork f).pass r.1
      | none =>
        let s := stkCount k 0 (us.foldl (fun n u => n + u.ops) 0) (stkCount k 2 (hbmBytes rd) r.1)
        let w := stkWork f
        setStk fid { w with done := w.done ++ [k] } (wh (!holdsState f) (fun s =>
          let e := tabGet stkDefault s.stks k
          { s with stks := tabSet stkDefault s.stks k { e with active := e.active.filter fun x => x != fid } }) s)
  | none => s

/-- A MOVE in YRD reads its rows through the yard. -/
def yrdReads (f : Flight) (s : State) : State × Option Nat :=
  if f.station = .yrd then readAll .yard f.q (stkReads f) s else (s, none)

/-- The events of a pass whose words are written (R451). -/
def passEvents (f : Flight) (w : StkWork) (p : PassOut) (s : State) : State :=
  let s := raisePer 0x0A 1 f.q p.special (raisePer 0x09 (if isPair w.ofmt then 1 else
    match w.ofmt with | .i8 | .i16 => 2 | _ => 1) f.q p.sat s)
  match w.first with
  | some pg => raiseV pg 0x08 0x40 (fmtCode w.ofmt) (some f.q) 0 w.pass (binLin w.pass) s
  | none => s

/-- A pass whose units are all done ends: in its writes and its outcome, in the copy-back phase of R263, in an overflow that a
replay awaits, or in one that nothing recovers (R106, R108). -/
def stkEnd (f : Flight) (m : List Host.Cell) (s : State) : State :=
  let w := stkWork f
  let p := stkPass m f w.ofmt
  match p.ovf with
  | some src =>
    let first := w.first.getD (srcPage src)
    match stkReplays f w.ofmt with
    | some _ => updFlight f.fid (fun g => { g with snap := some m, work := .stk { w with due := true, first := some first } }) s
    | none =>
      let s := scrambleAll (stkUndefined f w.ofmt) s
      stkDone f 0x41 w.pass (raiseV first 0x08 0x41 (fmtCode w.ofmt) (some f.q) 1 w.pass (binLin w.pass) s)
  | none =>
    let y := writeAll (if f.station = .yrd then .yard else .beside) f.q f.fid p.writes s
    if holdsState f then
      match y.2 with
      | some c => stkDone f c 0 (countHold f y.1)
      | none => setStk f.fid { w with copy := true } (countHold f y.1)
    else stkDone f (y.2.getD (if w.pass = 0 then 0 else 0x40)) w.pass (passEvents f w p (countWrites f p.writes y.1))

/-- The copy-back phase (R263): the hold area is fetched, and the state tensors are written. -/
def stkBack (f : Flight) (s : State) : State :=
  let p := stkPass (f.snap.getD s.mem) f (stkWork f).ofmt
  let wr := p.back.map fun x => (x.1, x.2.length)
  if mustWait s f.fid (stkUndefined f (stkWork f).ofmt) wr then noteWait f.fid (stkUndefined f (stkWork f).ofmt) wr s
  else
    let r := readAll .beside f.q (stkUndefined f (stkWork f).ofmt) (proceed f.fid s)
    match r.2 with
    | some c => stkDone f c 0 r.1
    | none =>
      let y := writeAll .beside f.q f.fid p.back r.1
      stkDone f (y.2.getD 0) 0 (passEvents f (stkWork f) p (countWrites f p.back (countHold f y.1)))

/-- One step of a descriptor's work: the engines with a place for it run their units; the pass ends when every engine has; a
copy-back runs in a step of its own. An overflow awaits OVERFLOW_REPLAY. -/
def stkStep (fid : Nat) (s : State) : State :=
  match stkFlight s fid with
  | some f =>
    if (stkWork f).copy then stkBack f s
    else
      let s := (stkEngines f).foldl (fun s k => stkPart fid k s) (stkStart fid s)
      match stkFlight s fid with
      | some f =>
        let rd := if f.station = .yrd then stkReads f else []
        let wr := stkUndefined f (stkWork f).ofmt
        if (stkEngines f).any fun k => !(stkWork f).done.contains k then s
        else if mustWait s fid rd wr then noteWait fid rd wr s
        else
          let m := f.snap.getD s.mem
          let r := yrdReads f (proceed fid s)
          match r.2 with
          | some c => stkDone f c (stkWork f).pass r.1
          | none => stkEnd f m r.1
      | none => s
  | none => s

/-- The descriptor of an opcode runs as far as it can. -/
def stkGo (op fid : Nat) (s : State) : State :=
  match stkFlight s fid with
  | some f => if dOp f.bytes ≠ op ∨ (stkWork f).due then s else stkStep fid s
  | none => s

/-- A replay of an engine descriptor: the output format advances one step and the descriptor runs again in full (R106). -/
def stkReplay (fid : Nat) (s : State) : State :=
  match stkFlight s fid with
  | some f =>
    let w := stkWork f
    if !w.due then s else
    match stkReplays f w.ofmt with
    | some o => stkStep fid (setStk fid { w with ofmt := o, pass := w.pass + 1, due := false, done := [] } s)
    | none => s
  | none => s

/-- The descriptor uses engine `k`: it has units there that it has not finished (Table 11.9). -/
def usesEngine (f : Flight) (k : Nat) : Bool :=
  (match f.station with
  | .stk _ => true
  | _ => false) && f.result.isNone && (stkEngines f).contains k &&
    (!(stkWork f).done.contains k || (stkWork f).copy)

/-- Descriptors in the copy-back phase at an engine (Table 11.10). -/
def copyBacks (s : State) (k : Nat) : Nat :=
  (s.flights.filter fun f => (tabGet stkDefault s.stks k).active.contains f.fid && (stkWork f).copy).length

/-- ENGINE_UNIT_START (R266). -/
def execEngineUnitStart (fid : Nat) (s : State) : Host.Outcome State Fault Refusal := .next (wh (on s) (stkStart fid) s)

/-- REDUCE (R255). -/
def execReduce (fid : Nat) (s : State) : Host.Outcome State Fault Refusal := .next (wh (on s) (stkGo 0x07 fid) s)

/-- EWISE (R260). -/
def execEwise (fid : Nat) (s : State) : Host.Outcome State Fault Refusal := .next (wh (on s) (stkGo 0x09 fid) s)

/-- STATS (R258). -/
def execStats (fid : Nat) (s : State) : Host.Outcome State Fault Refusal := .next (wh (on s) (stkGo 0x0A fid) s)

/-- Copy an engine's live counters into its snapshot registers (R80, R267). -/
def stkSnapshot (k : Nat) (s : State) : State :=
  (List.range 6).foldl (fun s i =>
    let v := (tabGet stkDefault s.stks k).cnt.getD i 0
    st (pgStk k) (fldAt Fld.STK_OPS (2 * i)) v (st (pgStk k) (fldAt Fld.STK_OPS (2 * i + 1)) (v / 2 ^ 32) s)) s

/-- Clear an engine's live counters (R80, R267). -/
def stkClearCnt (k : Nat) (s : State) : State :=
  { s with stks := tabSet stkDefault s.stks k { tabGet stkDefault s.stks k with cnt := List.replicate 6 0 } }

/-- A write of STK_CNT_CTRL by a partition: the snapshot first, then the clear (R80, R267). -/
def stkCtrl (part k : Nat) (snap clear : Bool) (s : State) : State :=
  if part ≠ 0 ∨ 8 ≤ k then { s with bus := (0x20, 0) }
  else { wh clear (stkClearCnt k) (wh snap (stkSnapshot k) s) with bus := (0, 0) }

/-- STK_SNAP (R267). -/
def execStkSnap (part stk : Nat) (s : State) : Host.Outcome State Fault Refusal :=
  .next (wh (on s) (atDone (stkCtrl part stk true false)) s)

/-- STK_CLEAR (R267). -/
def execStkClear (part stk : Nat) (snap : Bool) (s : State) : Host.Outcome State Fault Refusal :=
  .next (wh (on s) (atDone (stkCtrl part stk snap true)) s)

end Sys2Proof.Machine
end

