-- ==== Sys2Proof/Machine/Product.lean ====
section
/-!
DEFINITION. The matrix products of GEMM and CONV: where their operands and outputs lie, the plan, the sums of a tile, the
drain epilogue and the issue checks (chapters 03, 05, 06, 09; R110 to R114).
-/
namespace Sys2Proof.Machine

/-! ### A product -/

/-- A GEMM or a CONV with the block and the pointer list read at issue, and what its queue gave it then. -/
structure Job where
  bytes : List Byte
  blk : List Byte
  list : List Byte
  seed : Nat
  k8sat : Bool
  g : Nat
deriving DecidableEq, Repr

/-- The product that a flight works on; a CHECK works on its target, which was read at its issue (R114). -/
def jobOf (f : Flight) : Job :=
  if dOp f.bytes = 0x0F then ⟨f.cap.blk.take 64, f.cap.blk.drop 64, f.cap.list, f.cap.seed, false, f.cap.g⟩
  else ⟨f.bytes, f.cap.blk, f.cap.list, f.cap.seed, k8satOf f, f.cap.g⟩

/-- The product is a CONV. -/
def jConv (j : Job) : Bool := dOp j.bytes == 0x03

/-- The flag bit `i` of a GEMM (Table 5.2). -/
def gFlag (b : List Byte) (i : Nat) : Bool := bit i (bF b 38 2)

/-! ### CONV geometry (R136 to R142) -/

/-- H. -/
def cvH (b : List Byte) : Nat := bF b 24 2
/-- W. -/
def cvW (b : List Byte) : Nat := bF b 26 2
/-- C. -/
def cvC (b : List Byte) : Nat := bF b 28 2
/-- O. -/
def cvO (b : List Byte) : Nat := bF b 30 2
/-- NB. -/
def cvNB (b : List Byte) : Nat := bF b 32 2
/-- GROUPS. -/
def cvG (b : List Byte) : Nat := bF b 34 2
/-- FLAGS of a CONV. -/
def cvFlags (b : List Byte) : Nat := bF b 36 2
/-- KH. -/
def cvKH (b : List Byte) : Nat := bF b 38 1
/-- KW. -/
def cvKW (b : List Byte) : Nat := bF b 39 1
/-- POOL. -/
def cvPool (b : List Byte) : Nat := bits 8 7 (cvFlags b)
/-- s of space-to-channel (R139). -/
def cvS (b : List Byte) : Nat := 2 ^ bits 4 3 (cvFlags b)
/-- t of channel-to-space (R142). -/
def cvT (b : List Byte) : Nat := 2 ^ bits 6 5 (cvFlags b)
/-- Hr. -/
def cvHr (b : List Byte) : Nat := cvH b / cvS b
/-- Wr. -/
def cvWr (b : List Byte) : Nat := cvW b / cvS b
/-- Cr. -/
def cvCr (b : List Byte) : Nat := cvC b * cvS b ^ 2
/-- Cg. -/
def cvCg (b : List Byte) : Nat := cvCr b / cvG b
/-- Og. -/
def cvOg (b : List Byte) : Nat := cvO b / cvG b

/-- One output dimension (R138): 0 where no window fits. -/
def cvOut (size pad0 pad1 dil kern stride : Nat) : Nat :=
  if size + pad0 + pad1 < dil * (kern - 1) + 1 then 0 else (size + pad0 + pad1 - dil * (kern - 1) - 1) / stride + 1

/-- OH. -/
def cvOH (b k : List Byte) : Nat := cvOut (cvHr b) (bF k 80 1) (bF k 81 1) (bF k 78 1) (cvKH b) (bF k 76 1)
/-- OW. -/
def cvOW (b k : List Byte) : Nat := cvOut (cvWr b) (bF k 82 1) (bF k 83 1) (bF k 79 1) (cvKW b) (bF k 77 1)
/-- Oc, the channels of a written pixel (R142). -/
def cvOc (b : List Byte) : Nat := cvO b / cvT b ^ 2

/-- Width of an input element. -/
def jw (b : List Byte) : Nat := if dFmt b ≤ 1 then 1 else 2

/-- The format of the B operand (R61). -/
def jFmtB (b : List Byte) : Fmt := if dFmt b ≤ 1 then .k8 else .k16

/-- The address of regrouped element (nb, y, x, c') (R139). -/
def cvIn (b k : List Byte) (nb y x c' : Nat) : Nat :=
  let d := c' / cvC b
  bF k 0 6 + nb * bF k 32 6 + (cvS b * y + d / cvS b) * bF k 56 4 + (cvS b * x + d % cvS b) * bF k 60 4 + c' % cvC b * jw b

/-- The address of window element (ky, kx, channel) of output pixel (oy, ox); none in the padding (R140). -/
def cvWin (b k : List Byte) (nb oy ox ky kx c' : Nat) : Option Nat :=
  let y := oy * bF k 76 1 + ky * bF k 78 1
  let x := ox * bF k 77 1 + kx * bF k 79 1
  if bF k 80 1 ≤ y ∧ y < bF k 80 1 + cvHr b ∧ bF k 82 1 ≤ x ∧ x < bF k 82 1 + cvWr b then
    some (cvIn b k nb (y - bF k 80 1) (x - bF k 82 1) c')
  else none

/-- The place of output element (nb, oy, ox, o) from a base, with the pitches times `mul` and elements of `w` bytes
(R142, R107). -/
def cvPlace (b k : List Byte) (base mul w nb oy ox o : Nat) : Nat :=
  let d := o / cvOc b
  base + (nb * bF k 40 6 + (oy * cvT b + d / cvT b) * bF k 64 4 + (ox * cvT b + d % cvT b) * bF k 68 4) * mul +
    o % cvOc b * w

/-! ### Dimensions and elements -/

/-- M of the product. -/
def jM (j : Job) : Nat := if jConv j then cvOH j.bytes j.blk * cvOW j.bytes j.blk else bF j.bytes 24 4
/-- N of the product. -/
def jN (j : Job) : Nat := if jConv j then cvOg j.bytes else bF j.bytes 28 4
/-- K of the product. -/
def jK (j : Job) : Nat := if jConv j then cvCg j.bytes * cvKH j.bytes * cvKW j.bytes else bF j.bytes 32 4
/-- BATCH of the product. -/
def jBatch (j : Job) : Nat := if jConv j then cvNB j.bytes * cvG j.bytes else bF j.bytes 36 2
/-- NOSPLIT. -/
def jNosplit (j : Job) : Bool := if jConv j then bit 1 (cvFlags j.bytes) else gFlag j.bytes 7
/-- PIN. -/
def jPin (j : Job) : Bool := if jConv j then bit 2 (cvFlags j.bytes) else gFlag j.bytes 8
/-- PRELOAD. -/
def jPreload (j : Job) : Bool := if jConv j then bit 0 (cvFlags j.bytes) else gFlag j.bytes 1
/-- C is in blocked layout. -/
def jCblk (j : Job) : Bool := !jConv j && gFlag j.bytes 4

/-- The base of operand `i` (0 A, 1 B, 2 C, 3 S) in batch `b` (R121); the stride is taken `mul` times (R107). -/
def gBase (j : Job) (i mul b : Nat) : Nat :=
  if gFlag j.bytes 0 then bF j.list (32 * b + 8 * i) 6 else bF j.blk (8 * i) 6 + b * bF j.blk (56 + 8 * i) 6 * mul

/-- A_b of a GEMM as stored. -/
def gA (j : Job) (b : Nat) : Ten :=
  let t := gFlag j.bytes 5
  ⟨gBase j 0 1 b, if t then jK j else jM j, if t then jM j else jK j, jw j.bytes, bF j.blk 40 4, gFlag j.bytes 2⟩

/-- B_b of a GEMM as stored. -/
def gB (j : Job) (b : Nat) : Ten :=
  let t := gFlag j.bytes 6
  ⟨gBase j 1 1 b, if t then jN j else jK j, if t then jK j else jN j, jw j.bytes, bF j.blk 44 4, gFlag j.bytes 3⟩

/-- The declared width of an output element. -/
def jwC (j : Job) : Nat := fmtBytes ((outFmt j.bytes).getD .k8)

/-- C_b of a GEMM in an output width (R107). -/
def gC (j : Job) (w b : Nat) : Ten :=
  ⟨gBase j 2 (w / jwC j) b, jM j, jN j, w, bF j.blk 48 4 * (w / jwC j), gFlag j.bytes 4⟩

/-- SFMT. -/
def jSfmt (j : Job) : Option Fmt := fmtOf (bF j.blk (if jConv j then 86 else 88) 1 % 16)

/-- S_b of a GEMM. -/
def gS (j : Job) (b : Nat) : Ten :=
  ⟨gBase j 3 1 b, jM j, jN j, fmtBytes ((jSfmt j).getD .k16), bF j.blk 52 4, gFlag j.bytes 4⟩

/-- The image, the group, and the pixel of (batch, row) of a CONV. -/
def cvPix (j : Job) (b i : Nat) : Nat × Nat × Nat × Nat :=
  let ow := cvOW j.bytes j.blk
  (b / cvG j.bytes, b % cvG j.bytes, i / ow, i % ow)

/-- The address of element (i, k) of A in batch `b`; none for a pad element (R121, R140). -/
def jAAddr (j : Job) (b i k : Nat) : Option Nat :=
  if jConv j then
    let (nb, g, oy, ox) := cvPix j b i
    let tap := k / cvCg j.bytes
    cvWin j.bytes j.blk nb oy ox (tap / cvKW j.bytes) (tap % cvKW j.bytes) (g * cvCg j.bytes + k % cvCg j.bytes)
  else if gFlag j.bytes 5 then some ((gA j b).addr k i) else some ((gA j b).addr i k)

/-- The address of element (k, n) of B in batch `b`; none for the +1 of average pooling (R121, R141, R147). -/
def jBAddr (j : Job) (b k n : Nat) : Option Nat :=
  if jConv j then
    if cvPool j.bytes = 1 then none
    else some (bF j.blk 8 6 + b % cvG j.bytes * bF j.blk 48 6 + k * bF j.blk 72 4 + n * jw j.bytes)
  else if gFlag j.bytes 6 then some ((gB j b).addr n k) else some ((gB j b).addr k n)

/-- Element (i, k) of A (R60, R140). -/
def jA (m : List Host.Cell) (j : Job) (b i k : Nat) : Val :=
  let f := (inFmt j.bytes).getD .k16
  match jAAddr j b i k with
  | some a => decodeWord f (mLE m a (jw j.bytes))
  | none => decodeWord f (bF j.blk 84 2)

/-- Element (k, n) of B. -/
def jB (m : List Host.Cell) (j : Job) (b k n : Nat) : Val :=
  match jBAddr j b k n with
  | some a => decodeWord (jFmtB j.bytes) (mLE m a (jw j.bytes))
  | none => vNat 1

/-- The address of output element (i, n) in a width (R121, R142). -/
def jCAddr (j : Job) (w b i n : Nat) : Nat :=
  if jConv j then
    let (nb, g, oy, ox) := cvPix j b i
    cvPlace j.bytes j.blk (bF j.blk 16 6) (w / jwC j) w nb oy ox (g * cvOg j.bytes + n)
  else (gC j w b).addr i n

/-- The address of starting value (i, n) (R121, R143). -/
def jSAddr (j : Job) (b i n : Nat) : Nat :=
  if jConv j then
    let (nb, g, oy, ox) := cvPix j b i
    cvPlace j.bytes j.blk (bF j.blk 24 6) 1 (fmtBytes ((jSfmt j).getD .k16)) nb oy ox (g * cvOg j.bytes + n)
  else (gS j b).addr i n

/-- The generator index of output element (i, n) (R93, R142). -/
def jIdx (j : Job) (b i n : Nat) : Nat :=
  if jConv j then
    let (nb, g, oy, ox) := cvPix j b i
    ((nb * cvOH j.bytes j.blk + oy) * cvOW j.bytes j.blk + ox) * cvO j.bytes + g * cvOg j.bytes + n
  else (b * jM j + i) * jN j + n

/-! ### The plan (R125 to R127) -/

/-- The largest power of two not above x. -/
def p2floor (x : Nat) : Nat := if x = 0 then 0 else 2 ^ Nat.log2 x

/-- plan (R125). -/
def planOf (fmt m n k batch : Nat) (nosplit : Bool) (g : Nat) : Plan :=
  let kmax := if fmt ≤ 1 then 1024 else 512
  let nM := ceilDiv m 128
  let mt := 16 * ceilDiv (ceilDiv m nM) 16
  let nN := ceilDiv n 128
  let nt := 16 * ceilDiv (ceilDiv n nN) 16
  let t := batch * nM * nN
  let l0 := if nosplit || k == 0 then 1 else
    let x := min (min (g / t) (k / 256)) 32
    if x < 2 then 1 else x
  let kp := if l0 ≤ 1 then k else 32 * ceilDiv (ceilDiv k l0) 32
  let l := if l0 ≤ 1 then 1 else ceilDiv k kp
  let s := g / l
  let gc := min nN (p2floor (isqrt s))
  let gr := min nM (s / gc)
  let gc := min nN (s / gr)
  let gb := min batch (s / (gr * gc))
  ⟨m, n, k, batch, mt, nt, nM, nN, l, kp, gr, gc, gb, kmax⟩

/-- The plan of a product. -/
def jPlan (j : Job) : Plan := planOf (dFmt j.bytes) (jM j) (jN j) (jK j) (jBatch j) (jNosplit j) j.g

/-- The tile number (R126). -/
def tileNo (p : Plan) (it : Item) : Nat := (it.b * p.nM + it.r) * p.nN + it.c

/-- The tile of a number, part 0. -/
def tileItem (p : Plan) (j : Nat) : Item := ⟨j / p.nN / p.nM, j / p.nN % p.nM, j % p.nN, 0⟩

/-- Output tiles of a plan. -/
def tileCount (p : Plan) : Nat := p.batch * p.nM * p.nN

/-- The slot of an item and the wave it belongs to (R127). -/
def slotOf (p : Plan) (it : Item) : Nat :=
  ((it.b % p.gb * p.gr + it.r % p.gr) * p.gc + it.c % p.gc) * p.l + it.l

/-- The wave of an item, as its corner. -/
def waveOf (p : Plan) (it : Item) : Nat × Nat × Nat := (it.b / p.gb, it.r / p.gr, it.c / p.gc)

/-- Every item of a slot, in the order of its waves (R127). -/
def slotItems (p : Plan) (slot : Nat) : List Item :=
  let l := slot % p.l
  let cc := slot / p.l % p.gc
  let rr := slot / p.l / p.gc % p.gr
  let bb := slot / p.l / p.gc / p.gr
  (List.range (ceilDiv p.batch p.gb)).flatMap fun wb => (List.range (ceilDiv p.nM p.gr)).flatMap fun wr =>
    (List.range (ceilDiv p.nN p.gc)).filterMap fun wc =>
      let it : Item := ⟨wb * p.gb + bb, wr * p.gr + rr, wc * p.gc + cc, l⟩
      if it.b < p.batch ∧ it.r < p.nM ∧ it.c < p.nN then some it else none

/-- Every slot that has items; all of them are one run (R127; log entry 129). -/
def planSlots (p : Plan) : List (Nat × List Item) :=
  if p.k = 0 then [] else
    (((List.range (p.gb * p.gr * p.gc * p.l)).map fun s => (s, slotItems p s)).filter fun x => !x.2.isEmpty)

/-- The K range of a part: first index and count (R125). -/
def partRange (p : Plan) (l : Nat) : Nat × Nat := (l * p.kp, min ((l + 1) * p.kp) p.k - l * p.kp)

/-- Rows of a tile that are used, and its columns (R63). -/
def usedRC (p : Plan) (it : Item) : Nat × Nat := (min p.mt (p.m - it.r * p.mt), min p.nt (p.n - it.c * p.nt))

/-! ### The sums (R60, R68) -/

/-- The used cells after the MACs of `len` K indices from `k0`, in ascending order (R60); row by row. -/
def tileMac (m : List Host.Cell) (j : Job) (p : Plan) (it : Item) (k0 len : Nat) (acc : List Val) : List Val :=
  let (ur, uc) := usedRC p it
  (List.range ur).flatMap fun i => (List.range uc).map fun n =>
    (List.range len).foldl (fun a k =>
      aAdd a (vMul (jA m j it.b (it.r * p.mt + i) (k0 + k)) (jB m j it.b (k0 + k) (it.c * p.nt + n))))
      (acc.getD (i * uc + n) vZero)

/-- The starting values of a tile (R68): S converted to A40, or zeros. -/
def tileStartVals (m : List Host.Cell) (j : Job) (p : Plan) (it : Item) : List Val :=
  let (ur, uc) := usedRC p it
  (List.range ur).flatMap fun i => (List.range uc).map fun n =>
    if jPreload j && p.k != 0 && it.l == 0 then
      let f := (jSfmt j).getD .k16
      decodeElem f (mLE m (jSAddr j it.b (it.r * p.mt + i) (it.c * p.nt + n)) (fmtBytes f))
    else vZero

/-- The sum of one part of a tile. -/
def partVals (m : List Host.Cell) (j : Job) (p : Plan) (it : Item) : List Val :=
  let (k0, len) := partRange p it.l
  tileMac m j p it k0 len (tileStartVals m j p it)

/-- A partial as pairs of the partial format, and whether one overflowed (R99). -/
def partPairs (ofmt : Fmt) (vs : List Val) : List (Val × Val) × Bool :=
  let ps := vs.map fun v => pairOf (baseFmt (partialFmt ofmt)) .near v
  (ps.map fun x => (x.1, x.2.1), ps.any fun x => x.2.2)

/-- Two partials combined element by element (R130). -/
def pairsAdd (ofmt : Fmt) (a b : List (Val × Val)) : List (Val × Val) × Bool :=
  let ps := (a.zip b).map fun x => padd (baseFmt (partialFmt ofmt)) x.1 x.2
  (ps.map fun x => (x.1, x.2.1), ps.any fun x => x.2.2)

/-! ### Drain control (R72 to R76, R209) -/

/-- DRAIN_CTL of a GEMM or a CONV. -/
def jCtl (j : Job) : Nat := bF j.bytes 40 8

/-- The drain block is used (R72). -/
def dcUsed (c : Nat) : Bool := bit 1 c || bit 2 c || bit 8 c || bit 9 c || bit 11 c

/-- A reserved bit of drain control is set (Table 3.7, R5). -/
def drainRes (b : List Byte) (off : Nat) : Bool :=
  let c := bF b off 8
  bits 63 48 c != 0 || bits 15 13 c != 0 || bit 3 c || !dAddrOk b (off + 8)

/-- The issue checks of drain control (R75); `off` is where the 16 bytes stand in the body. -/
def chkDrain (s : State) (q : Nat) (b : List Byte) (off : Nat) : Chk :=
  let c := bF b off 8
  let act := bits 7 4 c
  let softOk := dOp b == 0x04
  { chkNone with
    violation := dcUsed c && !structRange s q (dAddr b (off + 8)) 64
    format := drainRes b off || decide (8 ≤ act) || (bit 10 c && !softOk) ||
      (bit 10 c && (bit 2 c || bit 8 c || bit 9 c || bit 11 c || act != 0)) || (bit 8 c && bit 9 c) || (bit 8 c && act == 0) ||
      (bit 1 c && !bit 0 c) || (!dcUsed c && dAddr b (off + 8) != 0)
    align := dcUsed c && dAddr b (off + 8) % 64 != 0 }

/-- The pre-activation tensor of a drain block: rows b × M + i (R73, R209; log entry 15). -/
def preTen (d : List Byte) (rows cols : Nat) (blk : Bool) : Ten := ⟨bF d 16 6, rows, cols, 2, bF d 24 4, blk⟩

/-- PRE_FMT. -/
def preFmtOf (d : List Byte) : Fmt := (fmtOf (bF d 29 1 % 16)).getD .k16

/-- Statistics records that a product writes (R76, R126). -/
def statCount (c : Nat) (p : Plan) : Nat := if bit 12 c then p.batch * p.nN * p.m else p.batch * p.nM * p.n

/-- The checks of a drain block as a station reads it, before it writes any output (R75, R209). -/
def chkDrainBlk (s : State) (q c : Nat) (d : List Byte) (p : Plan) (blk : Bool) : Chk :=
  let pre := bit 8 c || bit 9 c
  let bf := fmtOf (bF d 28 1 % 16)
  let pt := preTen d (p.batch * p.m) p.n blk
  if !dcUsed c then chkNone else
  { chkNone with
    violation := (bit 1 c && !opRange s q (bF d 0 6) (2 * p.n)) ||
      (bit 2 c && !opRange s q (bF d 8 6) (fmtBytes (bf.getD .k16) * p.n)) || (pre && !tenSpanOwned s q pt) ||
      (bit 11 c && !opRange s q (bF d 32 6) (16 * statCount c p))
    format := (bit 1 c && !dAddrOk d 0) || (bit 2 c && (!dAddrOk d 8 || bF d 28 1 / 16 != 0 ||
        !([some Fmt.k16, some .g16, some .kp32, some .gp32].contains bf))) ||
      (pre && (!dAddrOk d 16 || bF d 29 1 / 16 != 0 || !([some Fmt.k16, some .g16].contains (fmtOf (bF d 29 1 % 16))))) ||
      (bit 11 c && !dAddrOk d 32) || !zeroAt d 30 2 || !zeroAt d 40 24
    align := (bit 1 c && bF d 0 6 % 32 != 0) || (bit 2 c && bF d 8 6 % 32 != 0) ||
      (pre && (bF d 16 6 % (if blk then 512 else 32) != 0 || bF d 24 4 % (if blk then 512 else 32) != 0)) ||
      (bit 11 c && bF d 32 6 % 32 != 0) }

/-- Steps 1 and 2 of the drain path (R73): scale and bias of the column. -/
def drainZ (m : List Host.Cell) (c : Nat) (d : List Byte) (col : Nat) (v : Val) : Val :=
  let v := if bit 0 c then
      aMul v (decodeWord .k16 (if bit 1 c then mLE m (bF d 0 6 + 2 * col) 2 else bits 31 16 c))
    else v
  if bit 2 c then
    let bf := (fmtOf (bF d 28 1 % 16)).getD .k16
    aAdd v (decodeElem bf (mLE m (bF d 8 6 + fmtBytes bf * col) (fmtBytes bf)))
  else v

/-- Step 4 of the drain path (R73, R74): the activation, or the product with its derivative at the stored value. -/
def drainY (c : Nat) (z pre : Val) : Val :=
  let alpha := decodeWord .k16 (bits 47 32 c)
  if bit 8 c then aMul z (actDeriv (bits 7 4 c) alpha pre) else actVal (bits 7 4 c) alpha z

/-- What the drain of a tile gives: its writes, what it charges the first overflow to, the elements that saturated or are
special, and the rounded outputs as values, row by row. -/
structure TileOut where
  writes : List (Nat × List Byte)
  ovf : Option Charged
  sat : Nat
  special : Nat
  ys : List Val
deriving DecidableEq, Repr

/-- The earliest of several overflows: values leave column by column from the last row upward (R66). -/
def firstOver (l : List (Nat × Charged)) : Option Charged :=
  (l.foldl (fun (a : Option (Nat × Charged)) x => match a with
    | some y => if x.1 < y.1 then some x else some y
    | none => some x) none).map Prod.snd

/-- The drain of a tile through steps 1 to 7 of R73, in an output format and a pre-activation format. `rnd` says how the
roundings draw (a shadow rounds to nearest-even). -/
def tileOut (m : List Host.Cell) (j : Job) (p : Plan) (d : List Byte) (ofmt preFmt : Fmt) (rnd : Rnd) (it : Item)
    (vs : List Val) : TileOut :=
  let c := jCtl j
  let (ur, uc) := usedRC p it
  let pt := preTen d (p.batch * p.m) p.n (jCblk j)
  let w := fmtBytes ofmt
  let es := (List.range ur).flatMap fun i => (List.range uc).map fun n =>
    let row := it.r * p.mt + i
    let col := it.c * p.nt + n
    let idx := jIdx j it.b row col
    let z := drainZ m c d col (vs.getD (i * uc + n) vZero)
    let pa := pt.addr (it.b * p.m + row) col
    let ps := storeElem preFmt false (modeAt { rnd with tid := rnd.tid ^^^ 0x80000000 } idx) z
    let pre := decodeElem (preFmtOf d) (mLE m pa 2)
    let sto := storeElem ofmt j.k8sat (modeAt rnd idx) (drainY c z pre)
    (i, n, pa, ps, jCAddr j w it.b row col, sto)
  let ys := es.map fun e => decodeElem ofmt e.2.2.2.2.2.word
  let recs := if !bit 11 c then [] else
    if bit 12 c then (List.range ur).map fun i =>
      (bF d 32 6 + 16 * ((it.b * p.nN + it.c) * p.m + it.r * p.mt + i),
        recOf ((List.range uc).foldl (fun wf n => welfordAdd wf (ys.getD (i * uc + n) vZero)) welfordStart))
    else (List.range uc).map fun n =>
      (bF d 32 6 + 16 * ((it.b * p.nM + it.r) * p.n + it.c * p.nt + n),
        recOf ((List.range ur).foldl (fun wf i => welfordAdd wf (ys.getD ((ur - 1 - i) * uc + n) vZero)) welfordStart))
  let overs := es.flatMap fun e =>
    (if bit 9 c && e.2.2.2.1.overflow then [(e.2.1 + 127 - e.1, Charged.pre)] else []) ++
    (if e.2.2.2.2.2.overflow then [(e.2.1 + 127 - e.1, Charged.primary)] else [])
  { writes := joinWrites (es.map fun e => (e.2.2.2.2.1, toLE w e.2.2.2.2.2.word)) ++
      (if bit 9 c then joinWrites (es.map fun e => (e.2.2.1, toLE 2 e.2.2.2.1.word)) else []) ++
      recs.map fun r => (r.1, toLE 4 (pairWord .g16 r.2.mean.1 r.2.mean.2) ++ toLE 4 (pairWord .g16 r.2.m2.1 r.2.m2.2) ++
        toLE 2 r.2.n ++ toLE 6 0)
    ovf := match firstOver overs with
      | some x => some x
      | none => if recs.any fun r => r.2.ovf then some .stats else none
    sat := (es.filter fun e => e.2.2.2.2.2.saturated).length
    special := (es.filter fun e => e.2.2.2.2.2.special).length + (if bit 9 c then (es.filter fun e => e.2.2.2.1.special).length else 0)
    ys := ys }

/-- A pair of a shadow computation, with the infinity of the sign of a value that exceeded the partial format (R111). -/
structure ShadowPair where
  pair : Val × Val
  excess : Option Val
deriving DecidableEq, Repr

/-- A value as a pair of the partial format. -/
def shadowPart (b : Fmt) (v : Val) : ShadowPair :=
  let p := pairOf b .near v
  ⟨(p.1, p.2.1), if p.2.2 then some p.1 else none⟩

/-- Two shadow pairs added: what exceeded the format stays what it is (R111). -/
def shadowAdd (b : Fmt) (x y : ShadowPair) : ShadowPair :=
  let z := padd b x.pair y.pair
  ⟨(z.1, z.2.1), x.excess.or (y.excess.or (if z.2.2 then some z.1 else none))⟩

/-- One level of the tree of a shadow computation (R99). -/
def shadowLevel (b : Fmt) : List ShadowPair → List ShadowPair
  | x :: y :: r => shadowAdd b x y :: shadowLevel b r
  | l => l

/-- The tree of a shadow computation (R99, R131); the fuel is at least the number of levels. -/
def shadowTree (b : Fmt) : Nat → List ShadowPair → ShadowPair
  | 0, l => l.headD ⟨(vZero, vZero), none⟩
  | k + 1, l => if l.length ≤ 1 then l.headD ⟨(vZero, vZero), none⟩ else shadowTree b k (shadowLevel b l)

/-- The sum that a whole tile drains in a shadow computation: its only part, or the tree over its parts (R99, R131), each with the
infinity that stands for it where a partial exceeded its format (R111). -/
def wholeVals (m : List Host.Cell) (j : Job) (p : Plan) (ofmt : Fmt) (it : Item) : List (Val × Option Val) :=
  if p.l ≤ 1 then (partVals m j p it).map fun v => (v, none)
  else
    let b := baseFmt (partialFmt ofmt)
    let parts := (List.range p.l).map fun l => (partVals m j p { it with l := l }).map (shadowPart b)
    (List.range ((usedRC p it).1 * (usedRC p it).2)).map fun i =>
      let x := shadowTree b 6 (parts.map fun q => q.getD i ⟨(vZero, vZero), none⟩)
      (aAdd x.pair.1 x.pair.2, x.excess)

/-- Units of output staging (R69). -/
def stageUnits (p : Plan) (w : Nat) : Nat := ceilDiv (p.mt * p.nt * w) 32768

/-- Units that a tile's outputs take, its pre-activation tile included (R69). -/
def outUnits (p : Plan) (c : Nat) (ofmt : Fmt) : Nat :=
  stageUnits p (fmtBytes ofmt) + (if bit 8 c || bit 9 c then stageUnits p 2 else 0)

/-! ### Shadow checks (R110 to R112) -/

/-- Tile `t` is sampled at one in 2^`lg` (R110). -/
def isSampled (seed tid step lg t : Nat) : Bool := decide (oseskRng seed (tid ^^^ 0x40000000) t step < 2 ^ (16 - lg))

/-- The largest distance of a tile's elements; none is ∞ (R111). -/
def tileDist (f : Fmt) (ys zs : List Val) : Option Val :=
  (ys.zip zs).foldl (fun a x => match a, shadowDist f x.1 x.2 with
    | some u, some v => some (if vLt u v then v else u)
    | _, _ => none) (some vZero)

/-- The distance exceeds a threshold in ulps (R112). -/
def distOver (d : Option Val) (thr : Nat) : Bool :=
  match d with
  | some v => vLt (vNat thr) v
  | none => true

/-- The bin of a distance (R112). -/
def distBin (d : Option Val) : Nat :=
  match d with
  | none => 15
  | some v => if vIsZero v then 0 else 
      match firstBelow 14 (fun b => vLt v (mkVal false 1 (Int.ofNat b - 6))) with
      | some b => b + 1
      | none => 15

/-- A distance as unsigned fixed point with 8 fraction bits, saturating (R420). -/
def distFix (d : Option Val) : Nat :=
  match d with
  | some (.fin _ m e) => min 0xFFFFFFFF (if 0 ≤ e + 8 then m * 2 ^ (e + 8).toNat else m / 2 ^ (-(e + 8)).toNat)
  | _ => 0xFFFFFFFF

/-! ### Issue checks -/

/-- GEMM's formats on the arrays (R61). -/
def arrFmts (b : List Byte) : Bool := decide (dFmt b ≤ 3) && decide (dOfmt b ≤ 5)

/-- S may be used with this format. -/
def sfmtOk (j : Job) : Bool := [some Fmt.k16, some .g16, some .kp32, some .gp32].contains (jSfmt j)

/-- The exact in-place form of a GEMM (R122). -/
def gInPlace (j : Job) : Bool :=
  jSfmt j == outFmt j.bytes && (dOfmt j.bytes == 3 || dOfmt j.bytes == 5) && bF j.blk 52 4 == bF j.blk 48 4 &&
    allBelow (jBatch j) fun b => gBase j 3 1 b == gBase j 2 1 b

/-- The exact in-place form of a CONV (R143). -/
def cvInPlace (j : Job) : Bool :=
  jSfmt j == outFmt j.bytes && (dOfmt j.bytes == 3 || dOfmt j.bytes == 5) && bF j.blk 24 6 == bF j.blk 16 6

/-- A reserved bit of a GEMM's body is set (R5). -/
def gemmRes (b : List Byte) : Bool := bF b 38 2 / 2 ^ 9 != 0 || !dAddrOk b 16

/-- What the body of a GEMM shows by itself, of its issue checks (Table 5.5); `g` is G. -/
def gemmOwn (s : State) (q g : Nat) (b : List Byte) : Chk :=
  let j : Job := ⟨b, [], [], 0, k8satNow s q, g⟩
  let odd := fun n => n % 16 != 0
  { violation := !structRange s q (dAddr b 16) 128
    format := !arrFmts b || gemmRes b || (jw b == 1 && (gFlag b 2 || gFlag b 3)) || (jwC j == 1 && gFlag b 4)
    align := dAddr b 16 % 128 != 0
    shape := (gFlag b 5 && !gFlag b 2) || (gFlag b 6 && !gFlag b 3) || (gFlag b 2 && (odd (jM j) || odd (jK j))) ||
      (gFlag b 3 && (odd (jK j) || odd (jN j))) || (gFlag b 4 && (odd (jM j) || odd (jN j)))
    capacity := decide (2 ^ 24 < jM j) || decide (2 ^ 24 < jN j) || decide (2 ^ 24 < jK j) ||
      (gFlag b 0 && decide (4096 < jBatch j)) || decide (2 ^ 40 < jBatch j * jM j * jN j) || j.g == 0
    zero := jM j == 0 || jN j == 0 || jBatch j == 0 }

/-- The issue checks of a GEMM on its block and its pointer list (Table 5.5). Base, pitch and stride are judged for no batch
as for one. -/
def chkGemm (s : State) (q : Nat) (j : Job) : Chk :=
  let b := j.bytes
  let k := j.blk
  let ptr := gFlag b 0
  let useS := gFlag b 1
  let bs := List.range (jBatch j)
  let bs1 := List.range (max 1 (jBatch j))
  let ext := fun (t : Ten) => (t.base, t.extent)
  let meets := fun (x : Ten) (y : Nat × Nat) => rangesMeet x.base x.extent y.1 y.2
  let fix := [(dAddr b 16, 128)] ++ (if ptr then [(bF k 32 6, 32 * jBatch j)] else [])
  let opnds := fun i => [gA j i, gB j i, gC j (jwC j) i] ++ (if useS then [gS j i] else [])
  let wide := twice j.k8sat (outFmt b)
  let strideAl := fun (i : Nat) (blk : Bool) => bF k (56 + 8 * i) 6 % (if blk then 512 else 32) != 0
  { chkNone with
    violation := bs.any fun i => (opnds i).any (fun t => !tenSpanOwned s q t) || (wide && !tenSpanOwned s q (gC j 2 i))
    format := (useS && !sfmtOk j) || (!useS && (!zeroAt k 24 8 || !zeroAt k 80 8)) ||
      (!ptr && !zeroAt k 32 8) || (ptr && (!zeroAt k 0 32 || !zeroAt k 56 32)) ||
      (List.range 5).any (fun i => !dAddrOk k (8 * i)) || (List.range 4).any (fun i => !dAddrOk k (56 + 8 * i)) ||
      bF k 88 1 / 16 != 0 || !zeroAt k 89 39 ||
      (ptr && bs.any fun i => (List.range 4).any (fun o => !dAddrOk j.list (32 * i + 8 * o)) ||
        (!useS && !zeroAt j.list (32 * i + 24) 8))
    align := (ptr && bF k 32 6 % 32 != 0) || bs1.any (fun i => (opnds i).any fun t => !t.aligned) ||
      strideAl 0 (gFlag b 2) || strideAl 1 (gFlag b 3) || strideAl 2 (gFlag b 4) || (useS && strideAl 3 (gFlag b 4))
    shape := bs1.any (fun i => (opnds i).any fun t => !t.shapely) ||
      bs.any (fun i => fix.any (fun r => meets (gC j (jwC j) i) r) ||
        bs.any fun o => meets (gC j (jwC j) i) (ext (gA j o)) || meets (gC j (jwC j) i) (ext (gB j o)) ||
          (i != o && meets (gC j (jwC j) i) (ext (gC j (jwC j) o))) ||
          (useS && !gInPlace j && meets (gC j (jwC j) i) (ext (gS j o)))) }

/-- Bytes that the input of a CONV spans (R145). -/
def cvInExt (j : Job) : Nat :=
  let b := j.bytes
  if cvNB b = 0 ∨ cvH b = 0 ∨ cvW b = 0 ∨ cvC b = 0 then 0
  else (cvNB b - 1) * bF j.blk 32 6 + (cvH b - 1) * bF j.blk 56 4 + (cvW b - 1) * bF j.blk 60 4 + cvC b * jw b

/-- Bytes that the weights of a CONV span. -/
def cvWExt (j : Job) : Nat :=
  let b := j.bytes
  if cvPool b ≠ 0 ∨ cvG b = 0 ∨ jK j = 0 ∨ jN j = 0 then 0
  else (cvG b - 1) * bF j.blk 48 6 + (jK j - 1) * bF j.blk 72 4 + jN j * jw b

/-- Bytes that an output of `nb` images spans, with elements of `w` bytes. -/
def cvOutExt (j : Job) (nb w : Nat) : Nat :=
  let b := j.bytes
  let oh := cvOH b j.blk * cvT b
  let ow := cvOW b j.blk * cvT b
  if nb = 0 ∨ oh = 0 ∨ ow = 0 ∨ cvOc b = 0 then 0
  else (nb - 1) * bF j.blk 40 6 + (oh - 1) * bF j.blk 64 4 + (ow - 1) * bF j.blk 68 4 + cvOc b * w

/-- A reserved bit of a CONV's body is set (R5). -/
def convRes (b : List Byte) : Bool := cvFlags b / 2 ^ 9 != 0 || !dAddrOk b 16

/-- What the body of a CONV shows by itself, of its issue checks (Table 6.4, R147, R148). A POOL = 1 that breaks R147 gets
FORMAT, as one that breaks R148 does: Table 6.4 names no code for it (log entry 114). -/
def convOwn (s : State) (q g : Nat) (b : List Byte) : Chk :=
  let pool := cvPool b
  let cz := cvC b == 0 && (pool == 1 || pool == 2)
  let pooled := pool == 1 || pool == 2
  { violation := !structRange s q (dAddr b 16) 128
    format := !arrFmts b || pool == 3 || convRes b || (pooled && (cvG b != cvCr b || cvO b != cvCr b)) ||
      (pool == 2 && (dOfmt b != dFmt b || dSR b || bit 0 (cvFlags b) || bit 1 (cvFlags b) || bit 2 (cvFlags b) || !zeroAt b 40 16))
    align := dAddr b 16 % 128 != 0
    shape := cvKH b == 0 || cvKW b == 0 || (cvG b == 0 && !cz) || cvH b % cvS b != 0 || cvW b % cvS b != 0 ||
      (cvG b != 0 && (cvCr b % cvG b != 0 || cvO b % cvG b != 0)) || cvO b % cvT b ^ 2 != 0
    capacity := decide (2 ^ 24 < cvNB b * cvG b) || (pool ≤ 1 && g == 0)
    zero := cvNB b == 0 || cvH b == 0 || cvW b == 0 || cvO b == 0 }

/-- The issue checks of a CONV on its block (Table 6.4, R147, R148). -/
def chkConv (s : State) (q : Nat) (j : Job) : Chk :=
  let b := j.bytes
  let k := j.blk
  let pool := cvPool b
  let useS := jPreload j
  let w := jw b
  let wC := jwC j
  let wS := fmtBytes ((jSfmt j).getD .k16)
  let inp := (bF k 0 6, cvInExt j)
  let wt := (bF k 8 6, cvWExt j)
  let out := (bF k 16 6, cvOutExt j (cvNB b) wC)
  let sr := (bF k 24 6, cvOutExt j (cvNB b) wS)
  let meets := fun (x y : Nat × Nat) => rangesMeet x.1 x.2 y.1 y.2
  let owned := fun (x : Nat × Nat) => opRange s q x.1 x.2
  let wide := twice j.k8sat (outFmt b)
  let fld := fun (o : Nat) => bF k o 1 == 0
  { violation := !owned inp || !owned wt || !owned out || (useS && !owned sr) || (wide && !owned (out.1, 2 * out.2))
    format := (useS && !sfmtOk j) || (!useS && !zeroAt k 24 8) || (List.range 7).any (fun i => !dAddrOk k (8 * i)) || (w == 1 && !zeroAt k 85 1) ||
      bF k 86 1 / 16 != 0 || !zeroAt k 87 41 ||
      ((pool == 1 || pool == 2) && (!zeroAt k 8 8 || !zeroAt k 48 8 || !zeroAt k 72 4))
    align := [0, 8, 16, 24, 32, 40, 48].any (fun o => bF k o 6 % 32 != 0) ||
      [56, 64, 72].any (fun o => bF k o 4 % 32 != 0) || bF k 60 4 % w != 0 || bF k 68 4 % wC != 0 ||
      (useS && bF k 68 4 % wS != 0)
    shape := [76, 77, 78, 79].any fld || decide (bF k 60 4 < cvC b * w) || (decide (1 < cvH b) && decide (bF k 56 4 < cvW b * bF k 60 4)) ||
      decide (bF k 68 4 < cvOc b * wC) ||
      (decide (1 < cvOH b k * cvT b) && decide (bF k 64 4 < cvOW b k * cvT b * bF k 68 4)) ||
      (decide (1 < cvNB b) && (decide (bF k 32 6 < cvInExt { j with bytes := b.take 32 ++ toLE 2 1 ++ b.drop 34 }) ||
        decide (bF k 40 6 < cvOutExt j 1 wC))) ||
      (pool == 0 && decide (1 < jK j) && decide (bF k 72 4 < cvOg b * w)) ||
      meets out inp || meets out wt || meets out (dAddr b 16, 128) || (useS && !cvInPlace j && meets out sr)
    capacity := decide (2 ^ 24 < jM j) || decide (2 ^ 24 < jN j) || decide (2 ^ 24 < jK j) ||
      decide (2 ^ 40 < cvNB b * cvOH b k * cvOW b k * cvO b)
    zero := cvOH b k == 0 || cvOW b k == 0 }

/-! ### Maximum pooling (R148, R149) -/

/-- The larger of two stored elements: a NaN gives NaN, and max(+0, −0) is +0 (R148). -/
def poolMax (x y : Val) : Val :=
  if vIsZero x && vIsZero y then (match x, y with
    | .fin true _ _, .fin true _ _ => x
    | _, _ => vZero)
  else vMax x y

/-- The addresses that the windows of a maximum pooling read: no row and no column beyond the last window that fits (R138, R148). -/
def poolReads (j : Job) : List Nat :=
  let b := j.bytes
  (List.range (cvNB b)).flatMap fun nb => (List.range (cvOH b j.blk)).flatMap fun oy => (List.range (cvOW b j.blk)).flatMap fun ox =>
    (List.range (cvKH b)).flatMap fun ky => (List.range (cvKW b)).flatMap fun kx => (List.range (cvO b)).filterMap fun o =>
      cvWin b j.blk nb oy ox ky kx o

/-- The engine operations of a maximum pooling: one per window element (Table 11.8). -/
def poolCost (j : Job) : Nat :=
  cvNB j.bytes * cvOH j.bytes j.blk * cvOW j.bytes j.blk * cvO j.bytes * (cvKH j.bytes * cvKW j.bytes)

/-- The writes of a maximum pooling. -/
def poolWrites (m : List Host.Cell) (j : Job) : List (Nat × List Byte) :=
  let b := j.bytes
  let f := (inFmt b).getD .k8
  let w := jw b
  (List.range (cvNB b)).flatMap fun nb => (List.range (cvOH b j.blk)).flatMap fun oy =>
    (List.range (cvOW b j.blk)).flatMap fun ox => (List.range (cvO b)).map fun o =>
      let el := fun (ky kx : Nat) => match cvWin b j.blk nb oy ox ky kx o with
        | some a => decodeWord f (mLE m a w)
        | none => decodeWord f (bF j.blk 84 2)
      let vs := (List.range (cvKH b)).flatMap fun ky => (List.range (cvKW b)).map fun kx => el ky kx
      (cvPlace b j.blk (bF j.blk 16 6) 1 w nb oy ox o, toLE w (encodeWord f (vs.foldl poolMax (vs.headD vZero))))

/-- Which station runs a maximum pooling (R149). -/
def poolStation (j : Job) : Station :=
  match regionOf (bF j.blk 0 6), regionOf (bF j.blk 16 6) with
  | .hbm k, .hbm i => if k = i then .stk k else .yrd
  | .hbm k, .scratch _ => .stk k
  | .scratch _, .hbm k => .stk k
  | _, _ => .yrd

end Sys2Proof.Machine
end

