-- ==== Sys2Proof/Machine/Array.lean ====
section
/-!
DEFINITION. The arrays: whom they belong to, their points, and the work on them: planning, placement, chunk deliveries,
sums, swaps, drains, write-out, partial combination, replay and shadow recomputation of GEMM, CONV and CHECK (chapters 03, 05,
06; R106 to R114; R341 to R352; R396 to R400).
-/
namespace Sys2Proof.Machine

/-! ### Grants and points -/

/-- An array. -/
def arr (s : State) (n : Nat) : Arr := tabGet arrDefault s.arrs n

/-- The state with an array changed. -/
def setArr (n : Nat) (a : Arr) (s : State) : State := { s with arrs := tabSet arrDefault s.arrs n a }

/-- The bit of ARR.`n` among five registers in a row. -/
def arrBit (f : Fld) (n : Nat) : Fld := ⟨f.off + 4 * (n / 32), n % 32, n % 32⟩

/-- ARR.`n` is fenced (R360). -/
def fenced (s : State) (n : Nat) : Bool := rg s pgRas (arrBit Fld.RAS_FENCE n) == 1

/-- ARR.`n` is leaving partition `p` (R352). -/
def leaving (s : State) (p n : Nat) : Bool := (tabGet partDefault s.parts p).leaving.contains n

/-- The partition that a page of ARR.`n` belongs to: the one it is granted to or is leaving, else partition 0 (R79, R350). -/
def arrOwner (s : State) (n : Nat) : Nat :=
  ((List.range 16).find? fun p => p != 0 && (rg s (pgPrt p) (arrBit Fld.PRT_ARR n) == 1 || leaving s p n)).getD 0

/-- ARR.`n` is granted to partition `p` and counts in its G (R350 to R352). -/
def granted (s : State) (p n : Nat) : Bool := arrOwner s n == p && !leaving s p n && !fenced s n

/-- G of partition `p` (R117, R350). -/
def grantCount (s : State) (p : Nat) : Nat := countBelow 160 fun n => granted s p n

/-- A thermal fault has stopped every array (R400). -/
def arraysStopped (s : State) : Bool := rg s pgPwr Fld.PWR_STAT_FAULT_THERM == 1

/-- The point code of ARR.`n` (CLK_PT). -/
def fldPoint (n : Nat) : Fld := ⟨0x100 + 4 * (n / 16), 2 * (n % 16) + 1, 2 * (n % 16)⟩

/-- The points that the limiter holds ARR.`n` down (R399). -/
def limitOf (s : State) (n : Nat) : Nat :=
  (s.pwr.steps.filter fun d => match d with
    | .points l => l.contains n
    | .duty => false).length

/-- A run starts at CEIL, lowered by the limiter's steps in force (R397, R398; log entry 16). -/
def raisePoint (n : Nat) (s : State) : State :=
  st pgClkDev (fldPoint n) (min 3 (rg s (pgClk (arrOwner s n)) Fld.CLK_POL_CEIL + limitOf s n)) s

/-! ### Counters (R71, R80) -/

/-- Add to a live counter of an array: 0 RUN_CYC, 1 BUSY, 2 FREEZE, 3 FEED, 4 DRAIN, 5 STALL, 6 MAC, 7 TILE, 8 RUN. -/
def arrCount (n i k : Nat) (s : State) : State :=
  setArr n { arr s n with cnt := (arr s n).cnt.set i (((arr s n).cnt.getD i 0 + k) % 2 ^ 64) } s

/-- The cycles of a run apart from its stalls and freezes: the MAC cycles of its tiles, the first one first (R71). -/
def runCycles (spans : List Nat) : Nat :=
  match spans with
  | [] => 254
  | c :: r => r.foldl (fun a x => a + max x 128) (254 + c)

/-- Busy cycles of a run (R80). -/
def countBusy (n t : Nat) (s : State) : State := arrCount n 0 t (arrCount n 1 t s)

/-- The busy cycles of a tile of a run: the first one's with the skew of the fill and the drain (R71; log entry 116). -/
def countSpan (n : Nat) (first : Bool) (c : Nat) (s : State) : State := countBusy n (if first then 254 + c else max c 128) s

/-- Freeze cycles by cause (R67, R80). -/
def countFreezes (n feed drain both : Nat) (s : State) : State :=
  let s := arrCount n 0 (feed + drain + both) (arrCount n 2 (feed + drain + both) s)
  arrCount n 3 (feed + both) (arrCount n 4 (drain + both) s)

/-- How many freeze cycles a run met is timing, and free (log entry 5). -/
def countFree (n : Nat) (s : State) : State :=
  let v := fun (i : Nat) => (Config.freeInterval (s.freeCtr + i)).toNat
  countFreezes n (v 0) (v 1) (v 2) (tickFree (tickFree (tickFree s)))

/-- A whole run is counted: its busy cycles and its freezes (R67, R71, R80). -/
def countRun (n : Nat) (spans : List Nat) (s : State) : State := countFree n (countBusy n (runCycles spans) s)

/-- A preload stall (R68). -/
def countStall (n : Nat) (s : State) : State := arrCount n 0 128 (arrCount n 5 128 s)

/-- A tile whose last MAC has been performed (R80). -/
def countTile (n mac : Nat) (s : State) : State := arrCount n 6 mac (arrCount n 7 1 s)

/-- A run that is abandoned: how many cycles the tile at work had, and how many freezes the run, is timing, and free (R80; log
entry 5). -/
def countAbandoned (n : Nat) (s : State) : State :=
  countFree n (tickFree (countBusy n (Config.freeInterval s.freeCtr).toNat s))

/-- MAC cycles of K indices: two indices a cycle for 8-bit operands, a CONV's too (R60, R63; log entry 117). -/
def spanOf (p : Plan) (len : Nat) : Nat := if p.kmax = 1024 then ceilDiv len 2 else len

/-! ### Tile work -/

/-- The work of a flight in progress: none while its partition is preempted (R354). -/
def tileFlight (s : State) (fid : Nat) : Option (Flight × TileWork) :=
  match flightOf s fid with
  | some f => match f.work, f.result with
    | .tiles w, none => if scratchShut s f.q then none else some (f, w)
    | _, _ => none
  | none => none

/-- The flight's work changes. -/
def setTiles (fid : Nat) (w : TileWork) (s : State) : State := updFlight fid (fun f => { f with work := .tiles w }) s

/-- The inputs of a flight as they stood when it started (R108). -/
def snapOf (s : State) (f : Flight) : List Host.Cell := f.snap.getD s.mem

/-- Nothing counted yet. -/
def noCount (_ : Nat) : Nat := 0

/-- Sectors in a row joined into one range. -/
def joinSectors (l : List Nat) : List (Nat × Nat) :=
  (l.foldl (fun acc x => match acc with
    | (a, n) :: t => if a + n = x * 32 then (a, n + 32) :: t else (x * 32, 32) :: acc
    | [] => [(x * 32, 32)]) []).reverse

/-- The 32 B sectors that hold some of the addresses, each once, as ranges (R144). -/
def sectorsAt (l : List Nat) : List (Nat × Nat) := joinSectors (uniq (l.map fun a => a / 32))

/-- The lines of ranges, each once. -/
def linesIn (l : List (Nat × Nat)) : List Nat := uniq (l.flatMap fun x => (linesOf x.1 x.2).map fun y => y.1)

/-- Reads of lines through the yard for partition `p` (R206, R227): the first code met. -/
def readLines (p : Nat) (l : List Nat) (s : State) : State × Option Nat :=
  l.foldl (fun r x =>
    let y := readLine .yard p x r.1
    (y.1, r.2.or y.2)) (s, none)

/-- A descriptor reads ranges through the yard, each line once, and goes on with the lines' first code; what is held or is leased
and not yet read makes it wait (R228, R239, R241). -/
def readThen (f : Flight) (l : List (Nat × Nat)) (go : Option Nat → State → State) (s : State) : State :=
  if mustWait s f.fid l [] then noteHeld f.fid l s
  else
    let y := readLines f.q (linesIn l) (proceed f.fid s)
    go y.2 y.1

/-- Everything of a descriptor leaves the arrays (R106, R354, R361): runs end, latches, shadows and staging are discarded. -/
def clearArrays (fid : Nat) (s : State) : State :=
  (List.range 160).foldl (fun s n =>
    let a := arr s n
    let mine := match a.run with
      | some r => r.fid == fid
      | none => false
    let sh := match a.shadow with
      | some x => if x.1 = fid then none else some x
      | none => none
    let a' := { a with staging := a.staging.filter fun g => g.fid != fid, shadow := sh }
    let a' := if mine then { a' with run := none, active := none, latch := none } else a'
    wh mine (countAbandoned n) (setArr n a' s)) s

/-- The events of a descriptor's elements on each array (R451). -/
def raiseArrays (q cls detail : Nat) (t : Tab Nat) (s : State) : State :=
  t.foldl (fun s e => raiseV (pgArr e.1) cls 0 detail (some q) 0 e.2 (binLog e.2) s) s

/-- The mismatches of a pass (R112, R113): detail 0 in the final pass, 1 in an abandoned one. -/
def raiseMismatches (q detail : Nat) (l : List (Option Val)) (s : State) : State :=
  l.foldl (fun s d => raiseV (pgDsp q) 0x07 0x42 detail (some q) 1 (distFix d) (distBin d) s) s

/-- The output regions of a product in the formats of a pass. -/
def outRanges (j : Job) (w : TileWork) : List (Nat × Nat) :=
  let c := jCtl j
  (if jConv j then [(bF j.blk 16 6, cvOutExt j (cvNB j.bytes) (jwC j) * (fmtBytes w.ofmt / jwC j))]
    else (List.range (jBatch j)).flatMap fun b => (gC j (fmtBytes w.ofmt) b).ranges) ++
  (if bit 9 c then (preTen w.dblk (w.plan.batch * w.plan.m) w.plan.n (jCblk j)).ranges else []) ++
  (if bit 11 c then [(bF w.dblk 32 6, 16 * statCount c w.plan)] else [])

/-- A station gives up: the arrays are cleared and the descriptor has its code; the mismatches found are counted all the same
(R11). -/
def failTiles (fid code : Nat) (s : State) : State :=
  match tileFlight s fid with
  | some (f, w) => finish fid code 0 (raiseMismatches f.q 1 w.dists (clearArrays fid s))
  | none => finish fid code 0 (clearArrays fid s)

/-- The last write of a pass without overflow is acknowledged and every sampled tile is compared: the descriptor has its
result, and what it met is recorded (R106, R112, R451). -/
def tilesDone (fid : Nat) (s : State) : State :=
  match tileFlight s fid with
  | some (f, w) =>
    if !w.left.isEmpty ∨ !w.sampled.isEmpty ∨ w.ovf.isSome then s else
    let q := f.q
    let s := raiseArrays q 0x09 1 w.sat (raiseArrays q 0x0A 1 w.special s)
    let s := raiseMismatches q 0 w.dists s
    let s := match w.first with
      | some pg => raiseV pg 0x08 0x40 (fmtCode w.ofmt) (some q) 0 w.pass (binLin w.pass) s
      | none => s
    let s := updFlight fid (fun f => { f with replays := w.pass }) s
    let s := wh (!w.dists.isEmpty && w.pass != 0) (countCode (pgDsp q) 0x40 0 (some q)) s
    finish fid (if !w.dists.isEmpty then 0x42 else if w.pass ≠ 0 then 0x40 else 0) 0 (clearArrays fid s)
  | none => s

/-- An overflow abandons the pass (R106): what is in the arrays is discarded; an output with a successor awaits its replay,
one without leaves its regions undefined. -/
def passOver (fid : Nat) (ch : Charged) (pg : Page) (s : State) : State :=
  match tileFlight s fid with
  | some (f, w) =>
    let first := w.first.getD pg
    let next := match ch with
      | .primary => replayNext w.ofmt
      | .pre => replayNext w.preFmt
      | .stats => none
    let s := raiseMismatches f.q 1 w.dists (clearArrays fid s)
    let w := { w with ovf := some ch, first := some first, waiting := [], prim := [], dists := [] }
    match next with
    | some _ => setTiles fid w s
    | none =>
      let s := scrambleAll (outRanges (jobOf f) w) s
      let s := raiseV first 0x08 0x41 (fmtCode w.ofmt) (some f.q) 1 w.pass (binLin w.pass) s
      finish fid 0x41 0 (updFlight fid (fun f => { f with replays := w.pass, work := .tiles w }) s)
  | none => s

/-- The sampled tiles of a pass (R110): none where the format is not sampled. -/
def sampledTiles (f : Flight) (j : Job) (p : Plan) (ofmt : Fmt) : List Nat :=
  let lg := fldGet Fld.DSP_Q_NUM_SHADOW_LOG2 f.cap.num
  if lg = 0 ∨ shadowFmt ofmt = none then []
  else (List.range (tileCount p)).filter fun t => isSampled j.seed (dTid j.bytes) (dStep j.bytes) lg t

/-- The vectors that the drain path reads: scales and biases (R73). -/
def drainVecs (c : Nat) (d : List Byte) (p : Plan) : List (Nat × Nat) :=
  (if bit 1 c then [(bF d 0 6, 2 * p.n)] else []) ++
  (if bit 2 c then [(bF d 8 6, fmtBytes ((fmtOf (bF d 28 1 % 16)).getD .k16) * p.n)] else [])

/-- The work of a product as its station starts it; the drain block is still unread. -/
def tileBegin (f : Flight) (j : Job) : TileWork :=
  let p := jPlan j
  let o := (outFmt j.bytes).getD .k16
  { planner := none, plan := p, pass := 0, dblk := [], ofmt := o, preFmt := .k16, waiting := planSlots p
    left := List.range (tileCount p), sampled := sampledTiles f j p o, prim := [], ovf := none, first := none
    dists := [], sat := [], special := [] }

/-- The drain block is read, or not used (R72, R75). -/
def drainReady (f : Flight) (w : TileWork) : Bool := !dcUsed (jCtl (jobOf f)) || !w.dblk.isEmpty

/-- The station reads and checks the drain block and its vectors, before it writes any output (R75). A block in a target closed
since the issue is refused (R231); a read that is held, or leased and not yet fetched, waits. -/
def drainRead (fid : Nat) (s : State) : State :=
  match tileFlight s fid with
  | some (f, w) =>
    let j := jobOf f
    let c := jCtl j
    let a := dAddr j.bytes 48
    if drainReady f w then s
    else if !structRange s f.q a 64 then failTiles fid 0x20 s
    else if mustWait s fid [(a, 64)] [] then noteHeld fid [(a, 64)] s
    else
      let r := memRead .yard f.q a 64 (proceed fid s)
      let d := rdBytes s a 64
      let ch := chkDrainBlk s f.q c d w.plan (jCblk j)
      let vs := drainVecs c d w.plan
      match r.2 with
      | some code => failTiles fid code r.1
      | none =>
        if chkCode ch ≠ 0 then
          failTiles fid (chkCode ch) ((chkCodes ch).tail.foldl (fun s x => countCode (pgDsp f.q) x 0 (some f.q) s) r.1)
        else if mustWait s fid vs [] then noteHeld fid vs s
        else
          let v := readAll .yard f.q vs r.1
          match v.2 with
          | some code => failTiles fid code v.1
          | none => setTiles fid { w with dblk := d, preFmt := preFmtOf d } v.1
  | none => s

/-! ### Planning (R118, R134, R135) -/

/-- A planner is busy while items of its descriptor wait to be placed. -/
def plannerBusy (s : State) (i : Nat) : Bool :=
  match tabGet (fun _ => none) s.planners i with
  | some fid => match tileFlight s fid with
    | some (_, w) => w.planner == some i && !w.waiting.isEmpty
    | none => false
  | none => false

/-- The descriptor goes to the planners: a GEMM, or a CONV that is no maximum pooling. An ATTN and a SCAN run their products without
one (log entry 118). -/
def isTileOp (f : Flight) : Bool := f.station == .arr && (dOp f.bytes == 0x02 || dOp f.bytes == 0x03)

/-- The plan registers of a queue (Tables 5.9 to 5.12). -/
def notePlan (q : Nat) (p : Plan) (g seq : Nat) (s : State) : State :=
  let pg := pgDsp q
  let s := st pg Fld.DSP_Q_PLAN_GB p.gb (st pg Fld.DSP_Q_PLAN_GC p.gc (st pg Fld.DSP_Q_PLAN_GR p.gr (st pg Fld.DSP_Q_PLAN_L p.l s)))
  let s := st pg Fld.DSP_Q_PLAN_SHAPE_G g (st pg Fld.DSP_Q_PLAN_SHAPE_NT_CODE (p.nt / 16 - 1) s)
  st pg Fld.DSP_Q_PLAN_SHAPE_MT_CODE (p.mt / 16 - 1) (st pg Fld.DSP_Q_PLAN_KP p.kp (st pg Fld.DSP_Q_PLAN_SEQ seq s))

/-- The lowest free planner takes the descriptor handed over first and not yet taken, plans it and emits its items. -/
def plannerTake (s : State) : State :=
  match s.flights.find? (fun f => isTileOp f && f.work == .none && f.result.isNone && !scratchShut s f.q), firstBelow 16 (fun i => !plannerBusy s i) with
  | some f, some i =>
    let j := jobOf f
    let w := tileBegin f j
    let p := w.plan
    let pg := pgTpl i
    let s := updFlight f.fid (fun f => { f with snap := some s.mem }) s
    let s := { s with planners := tabSet (fun _ => none) s.planners i (some f.fid) }
    let s := inc pg Fld.TPL_PLANNED 1 (inc pg Fld.TPL_ITEMS (tileCount p * p.l) (st pg Fld.TPL_STATE_QUEUE f.q s))
    let s := wh (decide (1 < p.l)) (inc pg Fld.TPL_SPLIT 1) s
    drainRead f.fid (setTiles f.fid { w with planner := some i } (notePlan f.q p j.g f.seq s))
  | _, _ => s

/-- A counter of the planner that planned the work. -/
def tplInc (w : TileWork) (f : Fld) (s : State) : State :=
  match w.planner with
  | some i => inc (pgTpl i) f 1 s
  | none => s

/-! ### Chunks (R64, R125 to R129) -/

/-- What identifies a chunk's bytes (R129): the operand, the address of its first element, its used rows or columns, and its K
range; an A chunk of a CONV is known by its batch and its tile row (R144). -/
def chunkKey (j : Job) (p : Plan) (c : Chunk) : Bool × Nat × Nat × Nat × Nat :=
  if c.isA then
    if jConv j then (true, c.b, c.idx, c.k0, c.len)
    else (true, (jAAddr j c.b (c.idx * p.mt) c.k0).getD 0, min p.mt (p.m - c.idx * p.mt), c.k0, c.len)
  else (false, (jBAddr j c.b c.k0 (c.idx * p.nt)).getD 0, min p.nt (p.n - c.idx * p.nt), c.k0, c.len)

/-- Two chunks are the same bytes for the same slot, descriptor and pass (R128). -/
def sameChunk (j : Job) (p : Plan) (c d : Chunk) : Bool :=
  c.fid == d.fid && c.slot == d.slot && c.pass == d.pass && chunkKey j p c == chunkKey j p d

/-- The chunks of an item from `k` elements on, for one operand. -/
def itemChunks (p : Plan) (r : ArrRun) (isA : Bool) (it : Item) (k : Nat) : List Chunk :=
  let (k0, len) := partRange p it.l
  (List.range (ceilDiv (len - k) p.kmax)).map fun i =>
    ⟨r.fid, r.slot, r.pass, isA, it.b, if isA then it.r else it.c, k0 + k + i * p.kmax, min p.kmax (len - k - i * p.kmax)⟩

/-- The two chunks that a run reads next, for one operand. -/
def nextChunks (p : Plan) (r : ArrRun) (isA : Bool) : List Chunk :=
  match r.items with
  | [] => []
  | it :: rest =>
    let l := itemChunks p r isA it r.kDone
    let l := match rest with
      | [] => l
      | nx :: _ => l ++ itemChunks p r isA nx 0
    l.take 2

/-- The two halves of one operand. -/
def sideOf (a : Arr) (isA : Bool) : List (Option Chunk) := if isA then a.halves.take 2 else a.halves.drop 2

/-- A half of the array holds the chunk for its run (R128). -/
def holds (j : Job) (p : Plan) (a : Arr) (c : Chunk) : Bool :=
  (sideOf a c.isA).any fun x => match x with
    | some d => sameChunk j p c d
    | none => false

/-- The chunk that an array is due: the first of the next two that no half holds. -/
def dueChunk (j : Job) (p : Plan) (a : Arr) (r : ArrRun) (isA : Bool) : Option Chunk :=
  (nextChunks p r isA).find? fun c => !holds j p a c

/-- The chunk put into a half that holds none of the chunks to be read next. -/
def fillHalf (j : Job) (p : Plan) (a : Arr) (r : ArrRun) (c : Chunk) : Arr :=
  let needs := nextChunks p r c.isA
  let lo := if c.isA then 0 else 2
  let free := fun (i : Nat) => match a.halves.getD i none with
    | some x => !needs.any (sameChunk j p x)
    | none => true
  { a with halves := a.halves.set (if free lo then lo else lo + 1) (some c) }

/-- The sectors that a delivery of a chunk reads (R129, R144). -/
def chunkReads (j : Job) (p : Plan) (c : Chunk) : List (Nat × Nat) :=
  let ks := (List.range c.len).map fun i => c.k0 + i
  if c.isA then
    sectorsAt ((List.range (min p.mt (p.m - c.idx * p.mt))).flatMap fun i =>
      ks.filterMap fun k => jAAddr j c.b (c.idx * p.mt + i) k)
  else
    sectorsAt ((List.range (min p.nt (p.n - c.idx * p.nt))).flatMap fun n =>
      ks.filterMap fun k => jBAddr j c.b k (c.idx * p.nt + n))

/-! ### Runs -/

/-- The array works on: performs every MAC whose chunks are held, starts the next tile when its chunks, its starting block and
an empty shadow allow (R60, R65, R67). The fuel bounds the chunks that can be read without a new delivery. -/
def advance (n : Nat) : Nat → State → State
  | 0, s => s
  | k + 1, s =>
    let a := arr s n
    match a.run with
    | none => s
    | some r =>
      match tileFlight s r.fid, r.items with
      | some (f, w), it :: rest =>
        let p := w.plan
        let j := jobOf f
        let ready := (itemChunks p r true it r.kDone).take 1 ++ (itemChunks p r false it r.kDone).take 1
        if ready.any fun c => !holds j p a c then s
        else if !r.started then
          let need := jPreload j && it.l == 0
          if need && a.latch.isNone then s
          else if a.active.isSome && a.shadow.isSome then s
          else
            let n0 := (usedRC p it).1 * (usedRC p it).2
            let v := a.latch.getD (List.replicate n0 vZero)
            let sh := match a.active with
              | some (i, vs) => some (r.fid, r.pass, i, vs)
              | none => a.shadow
            advance n k (setArr n { a with run := some { r with started := true }, active := some (it, v), shadow := sh, latch := none } s)
        else
          let len := (itemChunks p r true it r.kDone).headD ⟨0, 0, 0, true, 0, 0, 0, 0⟩ |>.len
          let vs := tileMac (snapOf s f) j p it ((partRange p it.l).1 + r.kDone) len ((a.active.map Prod.snd).getD [])
          let done := r.kDone + len
          if done < (partRange p it.l).2 then
            advance n k (setArr n { a with run := some { r with kDone := done }, active := some (it, vs) } s)
          else
            let sp := spanOf p (partRange p it.l).2
            let r' := { r with items := rest, kDone := 0, started := false, spans := sp :: r.spans }
            let s := setArr n { a with run := some r', active := some (it, vs) } s
            advance n k (countSpan n r.spans.isEmpty sp (countTile n (p.mt * p.nt * (partRange p it.l).2) s))
      | _, _ => s

/-- Fuel enough for the two tiles that can pass without a drain. -/
def advanceFuel : Nat := 32

/-- The slice beside an array (R132). -/
def besideSlice (n : Nat) : Nat := n / 10

/-- The slice that holds a line: of scratch by its place in its way, of a cached line by its number (R226). -/
def sliceOf (l : Nat) : Nat :=
  match regionOf (l * 512) with
  | .scratch k => let q := (l * 512 - 2 ^ 43 - k * 0x1800000) / 512
    (q % 16) ^^^ (q / 16 % 16)
  | _ => (setOfLine l).1

/-- How well an array suits a run whose first A chunk begins in a line (R132): 3 it neighbours the slice that holds the line, 4
otherwise. -/
def sliceAff (s : State) (q : Nat) (line : Option Nat) (n : Nat) : Nat :=
  match line with
  | some l =>
    let inYard := inCache s q l || (match regionOf (l * 512) with
      | .scratch _ => true
      | _ => false)
    if inYard && besideSlice n == sliceOf l then 3 else 4
  | none => 4

/-- How well an array suits a run (R132): 1 its halves hold the first A and B chunks, 2 one of them, 3 it neighbours the
slice that holds the first A chunk, 4 otherwise. -/
def affinity (s : State) (f : Flight) (p : Plan) (r : ArrRun) (n : Nat) : Nat :=
  let a := arr s n
  let fa := (nextChunks p r true).head?
  let fb := (nextChunks p r false).head?
  let has := fun (c : Option Chunk) => match c with
    | some x => holds (jobOf f) p a x
    | none => false
  if has fa && has fb then 1
  else if has fa || has fb then 2
  else sliceAff s f.q ((fa.bind fun c => jAAddr (jobOf f) c.b (c.idx * p.mt) c.k0).map fun x => x / 512) n

/-- The best of several arrays by an affinity code: the lowest-numbered of the least code (R132). -/
def bestBy (aff : Nat → Nat) (l : List Nat) : Option Nat := [1, 2, 3, 4].findSome? fun k => l.find? fun n => aff n == k

/-- The best of several arrays for a run of a product. -/
def bestArray (s : State) (f : Flight) (p : Plan) (r : ArrRun) (l : List Nat) : Option Nat := bestBy (affinity s f p r) l

/-- An array is idle: granted to the partition, with no run on it. -/
def idleFor (s : State) (q n : Nat) : Bool := granted s q n && (arr s n).run.isNone

/-- The array is in the pin set captured at issue (R134). -/
def pinned (f : Flight) (n : Nat) : Bool := bit (n % 32) ((f.cap.pins.getD (n / 32) 0).toNat)

/-- The idle arrays granted to a partition. -/
def idleArrays (s : State) (q : Nat) : List Nat := (List.range 160).filter fun n => idleFor s q n

/-- A pin is asked for and leaves a granted array (R132). -/
def pinActs (s : State) (f : Flight) (pin : Bool) : Bool := pin && !allBelow 160 fun n => !(granted s f.q n && pinned f n)

/-- Runs of a descriptor that wait for an array. -/
def waitingRuns (f : Flight) : Nat :=
  match f.work, f.result with
  | .tiles w, none => w.waiting.length
  | .attn w, none => if w.captured && !w.ovf then w.left.length else 0
  | _, _ => 0

/-- Runs of earlier descriptors of the partition that wait for an array: they go first (R132; log entry 119). -/
def runsAhead (s : State) (f : Flight) : Nat :=
  (s.flights.takeWhile fun g => g.fid != f.fid).foldl (fun a g => if g.q = f.q then a + waitingRuns g else a) 0

/-- The arrays that a run of the flight may be placed on (R132). -/
def candidatesBy (s : State) (f : Flight) (pin : Bool) : List Nat :=
  let idle := idleArrays s f.q
  if idle.length ≤ runsAhead s f then []
  else if pinActs s f pin then idle.filter fun n => pinned f n else idle

/-- The arrays that a run of a product may be placed on. -/
def candidates (s : State) (f : Flight) : List Nat := candidatesBy s f (jPin (jobOf f))

/-- A run placed because of its pin elsewhere than it would be without, or whose pin leaves no candidate, is counted (R132); `best` is
where it would be placed without. -/
def countPin (f : Flight) (pin acts : Bool) (best : Option Nat) (n : Nat) (s : State) : State :=
  wh (pin && (!acts || best != some n))
    (fun s => raise (pgDsp f.q) 0x05 0 1 (some f.q) 1 (inc (pgDsp f.q) Fld.DSP_Q_PIN_OVR 1 s)) s

/-- The next run is placed (R132): of the first descriptor that has a slot waiting and a candidate, the lowest slot. A drain block
that could not be read before is read now. -/
def runStart (s : State) : State :=
  if arraysStopped s then s else
  let s := s.flights.foldl (fun s f => drainRead f.fid s) s
  let ready := fun (f : Flight) => match tileFlight s f.fid with
    | some (_, w) => !w.waiting.isEmpty && drainReady f w && !(candidates s f).isEmpty
    | none => false
  match s.flights.find? ready with
  | some f =>
    match tileFlight s f.fid with
    | some (_, w) =>
      match w.waiting with
      | (slot, items) :: rest =>
        let r : ArrRun := ⟨f.fid, slot, w.pass, items, 0, false, [], 0⟩
        match bestArray s f w.plan r (candidates s f) with
        | some n =>
          let k := affinity s f w.plan r n
          let best := bestArray s f w.plan r (idleArrays s f.q)
          let acts := pinActs s f (jPin (jobOf f))
          let s := tplInc w (if k ≤ 2 then Fld.TPL_AFF_FEED else if k = 3 then Fld.TPL_AFF_SLICE else Fld.TPL_AFF_NONE) s
          let s := countPin f (jPin (jobOf f)) acts best n s
          let s := raisePoint n (setTiles f.fid { w with waiting := rest } s)
          advance n advanceFuel (arrCount n 8 1 (setArr n { arr s n with run := some r, active := none, latch := none } s))
        | none => s
      | [] => s
    | none => s
  | none => s

/-- The wave of the item that a chunk belongs to, given the run it is due to. -/
def chunkWave (p : Plan) (r : ArrRun) (c : Chunk) : Option (Nat × Nat × Nat) :=
  ((r.items.take 2).find? fun it => (itemChunks p r c.isA it 0).contains c).map (waveOf p)

/-- The arrays on a run's descriptor and pass. -/
def chunkMates (s : State) (r : ArrRun) : List Nat :=
  (List.range 160).filter fun m => match (arr s m).run with
    | some x => x.fid == r.fid && x.pass == r.pass
    | none => false

/-- Array `m` is due the bytes of a chunk. -/
def chunkDue (s : State) (j : Job) (p : Plan) (isA : Bool) (c : Chunk) (m : Nat) : Bool :=
  match (arr s m).run with
  | some x => (dueChunk j p (arr s m) x isA).map (chunkKey j p) == some (chunkKey j p c)
  | none => false

/-- An item of a wave reads the bytes of a chunk. -/
def itemReads (j : Job) (p : Plan) (r : ArrRun) (isA : Bool) (c : Chunk) (it : Item) : Bool :=
  some (waveOf p it) == chunkWave p r c && (itemChunks p r isA it 0).any fun y => chunkKey j p y == chunkKey j p c

/-- Array `m` still has to read the bytes of a chunk in the chunk's wave, on which it works or to which it comes, but cannot take
them now (R129). -/
def chunkBehind (s : State) (j : Job) (p : Plan) (r : ArrRun) (isA : Bool) (c : Chunk) (m : Nat) : Bool :=
  match (arr s m).run with
  | some x => !chunkDue s j p isA c m && (match x.items with
    | it :: rest => (some (waveOf p it) == chunkWave p r c &&
        ((itemChunks p x isA it x.kDone).any fun y => chunkKey j p y == chunkKey j p c && !holds j p (arr s m) y)) ||
        rest.any (itemReads j p r isA c)
    | [] => false)
  | none => false

/-- A delivery waits: an array of its wave cannot take it yet, or a slot of the wave that reads it can still be placed. -/
def chunkWaits (s : State) (f : Flight) (w : TileWork) (r : ArrRun) (isA : Bool) (c : Chunk) : Bool :=
  let p := w.plan
  let j := jobOf f
  let unplaced := !(candidates s f).isEmpty && w.waiting.any fun x => x.2.any (itemReads j p r isA c)
  unplaced || (chunkMates s r).any (chunkBehind s j p r isA c)

/-- An array takes the chunk it is due, and works on. -/
def takeChunk (j : Job) (p : Plan) (isA : Bool) (m : Nat) (s : State) : State :=
  match (arr s m).run with
  | some x => match dueChunk j p (arr s m) x isA with
    | some d => advance m advanceFuel (setArr m (fillHalf j p (arr s m) x d) s)
    | none => s
  | none => s

/-- A multicast delivery of the chunk that an array is due (R129): to every array on the same descriptor that is due the same
chunk; it waits while an array of the wave that still reads the chunk cannot take it, or while a slot of the wave that reads it
can still be placed. The +1 chunk of an average pooling is a delivery that reads nothing (log entry 120). -/
def chunkDelivery (n : Nat) (isA : Bool) (s : State) : State :=
  if arraysStopped s then s else
  match (arr s n).run with
  | none => s
  | some r =>
    match tileFlight s r.fid with
    | none => s
    | some (f, w) =>
      let p := w.plan
      let j := jobOf f
      match dueChunk j p (arr s n) r isA with
      | none => s
      | some c =>
        if chunkWaits s f w r isA c then s
        else readThen f (chunkReads j p c) (fun code t => match code with
          | some code => failTiles f.fid code t
          | none => ((chunkMates s r).filter (chunkDue s j p isA c)).foldl (fun s m => takeChunk j p isA m s)
              (tplInc w Fld.TPL_DELIVERIES t)) s

/-- Free units of an array's output staging (R69). -/
def stagingFree (s : State) (n : Nat) : Nat := 8 - (arr s n).staging.foldl (fun a g => a + g.units) 0

/-- The addresses of a tile's elements under an address function. -/
def tileAddrs (p : Plan) (it : Item) (g : Nat → Nat → Nat) : List Nat :=
  (List.range (usedRC p it).1).flatMap fun i => (List.range (usedRC p it).2).map fun c => g (it.r * p.mt + i) (it.c * p.nt + c)

/-- The sectors of a tile's starting block (R68). -/
def startReads (j : Job) (p : Plan) (it : Item) : List (Nat × Nat) := sectorsAt (tileAddrs p it fun i c => jSAddr j it.b i c)

/-- The sectors of a tile's stored pre-activation, which DERIV reads (R70, R73, R216). -/
def preReads (j : Job) (p : Plan) (d : List Byte) (it : Item) : List (Nat × Nat) :=
  if bit 8 (jCtl j) then sectorsAt (tileAddrs p it fun i c => (preTen d (p.batch * p.m) p.n (jCblk j)).addr (it.b * p.m + i) c) else []

/-- The product is in the exact in-place form (R122, R143). -/
def jInPlace (j : Job) : Bool := if jConv j then cvInPlace j else gInPlace j

/-- The preload stall of the tile that an array starts next (R68): the starting block is loaded and shifted into the latches.
The block of a sampled in-place tile stays in staging until the tile is compared (R122). -/
def preloadStall (n : Nat) (s : State) : State :=
  if arraysStopped s then s else
  let a := arr s n
  match a.run with
  | none => s
  | some r =>
    match tileFlight s r.fid, r.items with
    | some (f, w), it :: _ =>
      let p := w.plan
      let j := jobOf f
      let units := stageUnits p (fmtBytes ((jSfmt j).getD .k16))
      if !jPreload j || it.l != 0 || r.started || a.latch.isSome || decide (stagingFree s n < units) then s
      else readThen f (startReads j p it) (fun code t => match code with
        | some code => failTiles f.fid code t
        | none =>
          let keep := jInPlace j && w.sampled.contains (tileNo p it)
          let stg := if keep then a.staging ++ [⟨f.fid, it, .start, units, [], []⟩] else a.staging
          let a' := { a with latch := some (tileStartVals (snapOf t f) j p it), run := some { r with preloads := r.preloads + 1 }, staging := stg }
          advance n advanceFuel (countStall n (setArr n a' t))) s
    | _, _ => s

/-- Add to a count of each array. -/
def tabAdd (t : Tab Nat) (n k : Nat) : Tab Nat := tabSet noCount t n (tabGet noCount t n + k)

/-- The outputs of a tile enter the staging of the array that drains it, or the pass ends in an overflow. -/
def stageTile (n : Nat) (f : Flight) (w : TileWork) (it : Item) (vs : List Val) (s : State) : State :=
  let p := w.plan
  let j := jobOf f
  let o := tileOut (snapOf s f) j p w.dblk w.ofmt w.preFmt (rndOf f) it vs
  match o.ovf with
  | some ch => passOver f.fid ch (pgArr n) s
  | none =>
    let t := tileNo p it
    let a := arr s n
    let w := { w with sat := tabAdd w.sat n o.sat, special := tabAdd w.special n o.special }
    let w := if w.sampled.contains t then { w with prim := w.prim ++ [(t, n, o.ys)] } else w
    setTiles f.fid w (setArr n { a with staging := a.staging ++ [⟨f.fid, it, .out, outUnits p (jCtl j) w.ofmt, [], o.writes⟩] } s)

/-- A tile's values pass through the drain path of array `n` (R69, R70, R73): with room in staging, and with DERIV once the stored
pre-activation is readable; `take` takes the values out of the place they come from. -/
def drainTile (n : Nat) (f : Flight) (w : TileWork) (it : Item) (vs : List Val) (take : State → State) (s : State) : State :=
  if stagingFree s n < outUnits w.plan (jCtl (jobOf f)) w.ofmt then s
  else readThen f (preReads (jobOf f) w.plan w.dblk it) (fun code t => match code with
    | some code => failTiles f.fid code t
    | none => stageTile n f w it vs (take t)) s

/-- A partial carried up: the last of an odd level moves on unchanged (R130, Table 5.6). -/
def carryUp (l : Nat) (g : Staged) : Staged :=
  match g.kind with
  | .part v i =>
    let rec go : Nat → Nat → Nat → Nat × Nat
      | 0, v, i => (v, i)
      | k + 1, v, i =>
        let m := ceilDiv l (2 ^ v)
        if m ≠ 1 ∧ m % 2 = 1 ∧ i = m - 1 then go k (v + 1) (i / 2) else (v, i)
    let x := go 6 v i
    { g with kind := .part x.1 x.2 }
  | _ => g

/-- The drain of the shadows of an array (R66, R69, R70): the partial of a split tile goes to staging as pairs, another tile
through the epilogue. Nothing happens without room in staging. -/
def tileDrain (n : Nat) (s : State) : State :=
  if arraysStopped s then s else
  let a := arr s n
  match a.shadow with
  | none => s
  | some (fid, pass, it, vs) =>
    match tileFlight s fid with
    | none => setArr n { a with shadow := none } s
    | some (f, w) =>
      let p := w.plan
      if w.pass ≠ pass || w.ovf.isSome then setArr n { a with shadow := none } s
      else if 1 < p.l then
        let u := stageUnits p 4
        if stagingFree s n < u then s else
        let x := partPairs w.ofmt vs
        if x.2 then passOver fid .primary (pgArr n) s
        else
          let g := carryUp p.l ⟨fid, it, .part 0 it.l, u, x.1, []⟩
          advance n advanceFuel (setArr n { a with shadow := none, staging := a.staging ++ [g] } s)
      else advance n advanceFuel (drainTile n f w it vs (fun t => setArr n { arr t n with shadow := none } t) s)

/-- The acknowledgement of the write-out of the oldest tile in an array's staging: its bytes are in memory and its units are
free (R69). -/
def stagingAck (n : Nat) (s : State) : State :=
  let a := arr s n
  match a.staging.find? fun g => g.kind == .out with
  | none => s
  | some g =>
    match tileFlight s g.fid with
    | none => setArr n { a with staging := a.staging.filter fun x => x != g } s
    | some (f, w) =>
      let wr := g.writes.map fun x => (x.1, x.2.length)
      if mustWait s f.fid [] wr then noteWait f.fid [] wr s
      else
        let y := writeAll .yard f.q f.fid g.writes (proceed f.fid (setArr n { a with staging := a.staging.filter fun x => x != g } s))
        match y.2 with
        | some code => failTiles f.fid code y.1
        | none => tilesDone f.fid (setTiles f.fid { w with left := w.left.filter fun t => t != tileNo w.plan g.item } y.1)

/-- The end-of-run swap (R65, R71): the last tile moves to the shadows and the array leaves its run; the freezes that the
run met are the operands. -/
def endRun (n feed drain both : Nat) (s : State) : State :=
  let a := arr s n
  match a.run, a.active with
  | some r, some (it, vs) =>
    if !r.items.isEmpty ∨ a.shadow.isSome then s
    else countFreezes n feed drain both
      (setArr n { a with run := none, active := none, shadow := some (r.fid, r.pass, it, vs) } s)
  | _, _ => s

/-- The end-of-run swap of a run whose freezes are not given: how many they were is timing, and free (log entry 5). -/
def endRunFree (n : Nat) (s : State) : State :=
  let v := fun (i : Nat) => (Config.freeInterval (s.freeCtr + i)).toNat
  endRun n (v 0) (v 1) (v 2) (wh (arr s n).run.isSome (fun s => tickFree (tickFree (tickFree s))) s)

/-! ### Partials (R130) -/

/-- The staged partials of a descriptor with the arrays that hold them. -/
def partsOf (s : State) (fid : Nat) : List (Nat × Staged) :=
  (List.range 160).flatMap fun n => ((arr s n).staging.filter fun g => g.fid == fid && (match g.kind with
    | .part _ _ => true
    | _ => false)).map fun g => (n, g)

/-- The mate of a partial: the next one on its level, for an even place. -/
def mateOf (l : List (Nat × Staged)) (x : Nat × Staged) : Option (Nat × Staged) :=
  match x.2.kind with
  | .part v i => if i % 2 = 0 then l.find? fun y =>
      y.2.kind == .part v (i + 1) && decide ({ y.2.item with l := 0 } = { x.2.item with l := 0 }) else none
  | _ => none

/-- A partial is the whole sum of its tile: the only place of its level. -/
def isRoot (l : Nat) (g : Staged) : Bool :=
  match g.kind with
  | .part v i => ceilDiv l (2 ^ v) == 1 && i == 0
  | _ => false

/-- YRD combines two partials, or the drain path of part 0's array takes a finished sum through the epilogue. -/
def partialCombine (fid : Nat) (s : State) : State :=
  if arraysStopped s then s else
  match tileFlight s fid with
  | none => s
  | some (f, w) =>
    let p := w.plan
    let ps := partsOf s fid
    match ps.findSome? fun x => (mateOf ps x).map fun y => (x, y) with
    | some (x, y) =>
      let z := pairsAdd w.ofmt x.2.pairs y.2.pairs
      if z.2 then passOver fid .primary pgYrd s
      else
        let (v, i) := match x.2.kind with
          | .part v i => (v, i)
          | _ => (0, 0)
        let g := carryUp p.l { x.2 with kind := .part (v + 1) (i / 2), pairs := z.1 }
        let s := setArr y.1 { arr s y.1 with staging := (arr s y.1).staging.filter fun u => u != y.2 } s
        setArr x.1 { arr s x.1 with staging := (arr s x.1).staging.map fun u => if u = x.2 then g else u } s
    | none =>
      match ps.find? fun x => isRoot p.l x.2 && decide (outUnits p (jCtl (jobOf f)) w.ofmt ≤ stagingFree s x.1) with
      | some x => drainTile x.1 f w { x.2.item with l := 0 } (x.2.pairs.map fun q => aAdd q.1 q.2)
          (fun t => setArr x.1 { arr t x.1 with staging := (arr t x.1).staging.filter fun u => u != x.2 } t) s
      | none => s

/-! ### Replay (R106) -/

/-- The replay of a product: every output format with a successor advances, and the plan of the first pass runs again. -/
def tileReplay (fid : Nat) (s : State) : State :=
  match tileFlight s fid with
  | some (f, w) =>
    if w.ovf.isNone then s else
    let j := jobOf f
    let o := (replayNext w.ofmt).getD w.ofmt
    let pre := (replayNext w.preFmt).getD w.preFmt
    let w := { w with pass := w.pass + 1, ofmt := o, preFmt := pre, waiting := planSlots w.plan, left := List.range (tileCount w.plan) }
    setTiles fid { w with sampled := sampledTiles f j w.plan o, ovf := none, prim := [], dists := [], sat := [], special := [] } s
  | none => s

/-! ### Shadow recomputation (R111 to R114) -/

/-- The threshold of a flight's shadow checks (R112, R114). -/
def shadowThr (f : Flight) : Nat :=
  let t := if dOp f.bytes = 0x0F then bF f.bytes 26 1 else 0
  if t = 0 then fldGet Fld.DSP_Q_NUM_SHADOW_THR f.cap.num else t

/-- The format in which the outputs stand that a flight's shadow checks compare. -/
def shadowOf (f : Flight) (w : TileWork) : Fmt := if dOp f.bytes = 0x0F then (fmtOf (bF f.bytes 24 1 % 16)).getD .k16 else w.ofmt

/-- A free array to recompute on: a granted one other than `n0` when one exists, else the same (R111). -/
def shadowArray (s : State) (q : Nat) (n0 : Option Nat) : Option Nat :=
  let other := fun n => granted s q n && some n != n0
  if allBelow 160 (fun n => !other n) then (match n0 with
    | some n => if granted s q n && (arr s n).run.isNone then some n else none
    | none => none)
  else firstBelow 160 fun n => other n && (arr s n).run.isNone

/-- What a CHECK compares: the outputs of a tile as they stand, and the sectors they lie in. -/
def standing (s : State) (f : Flight) (j : Job) (p : Plan) (it : Item) : List Val × List (Nat × Nat) :=
  let o := (fmtOf (bF f.bytes 24 1 % 16)).getD .k16
  let as := tileAddrs p it fun i c => jCAddr j (fmtBytes o) it.b i c
  (as.map fun a => decodeElem o (mLE (snapOf s f) a (fmtBytes o)), sectorsAt as)

/-- The chunks that the recomputation of a tile has delivered (R111, R131). -/
def shadowChunks (f : Flight) (w : TileWork) (it : Item) : List Chunk :=
  let r : ArrRun := ⟨f.fid, 0, w.pass, [], 0, false, [], 0⟩
  (List.range w.plan.l).flatMap fun l => itemChunks w.plan r true { it with l := l } 0 ++ itemChunks w.plan r false { it with l := l } 0

/-- What the recomputation of a tile reads: its chunks, its starting block unless staging kept it, its stored pre-activation (R111,
R206, R216). -/
def shadowReads (f : Flight) (w : TileWork) (it : Item) : List (Nat × Nat) :=
  let j := jobOf f
  let kept := jInPlace j && dOp f.bytes != 0x0F
  (shadowChunks f w it).flatMap (chunkReads j w.plan) ++
    (if jPreload j && w.plan.k != 0 && !kept then startReads j w.plan it else []) ++ preReads j w.plan w.dblk it

/-- A sampled tile is recomputed in the shadow format on an array and its distance judged. -/
def recompute (n t : Nat) (f : Flight) (w : TileWork) (ys : List Val) (s : State) : State :=
  let p := w.plan
  let j := jobOf f
  let it := tileItem p t
  let y := shadowOf f w
  let z := (shadowFmt y).getD .kp32
  let vs := wholeVals (snapOf s f) j p y it
  let zs := (tileOut (snapOf s f) { j with k8sat := false } p w.dblk z .g16 ⟨false, 0, 0, 0⟩ it (vs.map Prod.fst)).ys
  let d := tileDist y ys ((zs.zip vs).map fun x => x.2.2.getD x.1)
  let s := (shadowChunks f w it).foldl (fun s _ => tplInc w Fld.TPL_DELIVERIES s) s
  let spans := (List.range p.l).map fun l => spanOf p (partRange p l).2
  let s := (List.range p.l).foldl (fun s l => countTile n (p.mt * p.nt * (partRange p l).2) s) s
  let s := if p.k = 0 then s else
    wh (jPreload j) (countStall n) (countRun n spans (arrCount n 8 1 s))
  let s := raiseV (pgDsp f.q) 0x06 0 (fmtCode y) (some f.q) 0 (distFix d) (distBin d) s
  let s := (List.range 160).foldl (fun s m => setArr m
    { arr s m with staging := (arr s m).staging.filter fun g => !(g.fid == f.fid && g.kind == .start && g.item == it) } s) s
  let bad := distOver d (shadowThr f)
  tilesDone f.fid (setTiles f.fid
    { w with sampled := w.sampled.filter fun x => x != t, prim := w.prim.filter fun x => x.1 != t, dists := if bad then w.dists ++ [d] else w.dists } s)

/-- A CHECK starts: its inputs and its target's outputs are those that stand now (R114). A maximum
pooling has no sampled tile (R148). -/
def checkStart (f : Flight) (s : State) : State :=
  let j := jobOf f
  if jConv j ∧ cvPool j.bytes = 2 then finish f.fid 0 0 s else
  let w := tileBegin f j
  let lg := bF f.bytes 25 1
  let ts := (List.range (tileCount w.plan)).filter fun t => isSampled j.seed (dTid j.bytes) (dStep j.bytes) lg t
  setTiles f.fid { w with waiting := [], left := [], sampled := ts } (updFlight f.fid (fun f => { f with snap := some s.mem }) s)

/-- The next sampled tile of a descriptor is recomputed: of a GEMM or a CONV one that has drained, of a CHECK any. -/
def shadowStep (fid : Nat) (s : State) : State :=
  if arraysStopped s then s else
  match tileFlight s fid with
  | some (f, w) =>
    let go := fun (n t : Nat) (ys : List Val) (rd : List (Nat × Nat)) =>
      readThen f (rd ++ shadowReads f w (tileItem w.plan t)) (fun code u => match code with
        | some code => failTiles fid code u
        | none => recompute n t f w ys u) s
    if w.ovf.isSome || !drainReady f w then s
    else if dOp f.bytes = 0x0F then
      match w.sampled.head?, shadowArray s f.q none with
      | some t, some n =>
        let x := standing s f (jobOf f) w.plan (tileItem w.plan t)
        go n t x.1 x.2
      | _, _ => s
    else
      match w.prim with
      | (t, n0, ys) :: _ => (match shadowArray s f.q (some n0) with
        | some n => go n t ys []
        | none => s)
      | [] => s
  | none => s

/-! ### Whole descriptors -/

/-- The outputs of a tile stand in the staging of an array. -/
def stagedOut (s : State) (fid : Nat) (it : Item) : Bool :=
  (List.range 160).any fun n => (arr s n).staging.any fun g => g.fid == fid && g.kind == .out && g.item == it

/-- The outputs of a product with K = 0 (R78): no cell is used; the lowest granted array drains the epilogue of an empty sum
(log entry 17). A tile whose outputs wait in staging is not produced again. -/
def zeroTiles (fid : Nat) (s : State) : State :=
  match tileFlight s fid with
  | some (f, w) =>
    match firstBelow 160 fun n => granted s f.q n with
    | none => s
    | some n =>
      w.left.foldl (fun s t =>
        match tileFlight s fid with
        | some (f, w) =>
          let it := tileItem w.plan t
          let n0 := (usedRC w.plan it).1 * (usedRC w.plan it).2
          if w.ovf.isSome || !drainReady f w || stagedOut s fid it then s
          else stagingAck n (drainTile n f w it (List.replicate n0 vZero) (countTile n 0) s)
        | none => s) s
  | none => s

/-- One round of the work of a descriptor: placements, stalls, deliveries, swaps, drains, write-outs, combinations and
recomputations, as far as each can go. -/
def tileRound (fid : Nat) (s : State) : State :=
  let mine := fun (s : State) (n : Nat) =>
    let a := arr s n
    (match a.run with | some r => r.fid == fid | none => false) || (match a.shadow with | some x => x.1 == fid | none => false) ||
      a.staging.any fun g => g.fid == fid
  let s := match tileFlight s fid with
    | some (_, w) => w.waiting.foldl (fun s _ => runStart s) s
    | none => s
  let s := (List.range 160).foldl (fun s n =>
    if !mine s n then s else
    let s := chunkDelivery n false (chunkDelivery n true (preloadStall n s))
    stagingAck n (tileDrain n (endRunFree n (stagingAck n (tileDrain n s))))) s
  shadowStep fid (partialCombine fid s)

/-- Rounds until the descriptor has its result or awaits a replay; the fuel bounds them. -/
def tileRounds (fid : Nat) : Nat → State → State
  | 0, s => s
  | k + 1, s =>
    match tileFlight s fid with
    | some (_, w) => if w.ovf.isSome then s else tileRounds fid k (tileRound fid s)
    | none => s

/-- Planners take descriptors in issue order until one has taken this one. -/
def takeUntil (fid : Nat) : Nat → State → State
  | 0, s => s
  | k + 1, s =>
    match flightOf s fid with
    | some f => if f.work == .none && f.result.isNone then takeUntil fid k (plannerTake s) else s
    | none => s

/-- Rounds enough for every chunk, swap, drain, combination and recomputation of a pass, one a round. -/
def roundFuel (p : Plan) : Nat := 4 * (tileCount p * p.l * (p.k / p.kmax + 4) + 16)

/-- A GEMM or a CONV on the arrays runs as far as it can. -/
def tileGo (op fid : Nat) (s : State) : State :=
  match flightOf s fid with
  | some f =>
    if !isTileOp f ∨ dOp f.bytes ≠ op then s else
    let s := drainRead fid (takeUntil fid 16 s)
    match tileFlight s fid with
    | some (_, w) =>
      if w.plan.k = 0 then
        let s := zeroTiles fid s
        tileRounds fid (roundFuel w.plan) s
      else tileRounds fid (roundFuel w.plan) s
    | none => s
  | none => s

/-- A maximum pooling runs in a stack engine, as a service and no descriptor of its own, or in YRD (R148, R149, R251, R265). -/
def poolGo (f : Flight) (s : State) : State :=
  let j := jobOf f
  let via := if f.station = .yrd then Via.yard else .beside
  let rd := sectorsAt (poolReads j)
  let ws := poolWrites (snapOf s f) j
  let wr := (joinWrites ws).map fun x => (x.1, x.2.length)
  if mustWait s f.fid rd wr then noteWait f.fid rd wr s else
  let r := readAll via f.q rd (proceed f.fid s)
  match r.2 with
  | some c => finish f.fid c 0 r.1
  | none =>
    let y := writeAll via f.q f.fid (joinWrites ws) r.1
    let eng := match f.station with
      | .stk k => some k
      | _ => none
    let sp := (ws.filter fun x => vIsSpecial (decodeWord ((inFmt j.bytes).getD .k8) (ofLE x.2))).map fun _ => eng
    let s := raisePer 0x0A 1 f.q sp y.1
    let s := match f.station with
      | .stk k => stkCount k 0 (poolCost j) (stkCount k 4 (hbmBytes rd + hbmBytes wr) s)
      | _ => s
    finish f.fid (y.2.getD 0) 0 s

/-- A CONV: maximum pooling in its station, otherwise a product on the arrays. -/
def convGo (fid : Nat) (s : State) : State :=
  match flightOf s fid with
  | some f =>
    if dOp f.bytes = 0x03 ∧ f.station ≠ .arr then (if f.result.isNone && !scratchShut s f.q then poolGo f s else s)
    else tileGo 0x03 fid s
  | none => s

/-- A CHECK recomputes its sampled tiles one after another. -/
def checkRounds (fid : Nat) : Nat → State → State
  | 0, s => s
  | k + 1, s => checkRounds fid k (shadowStep fid s)

/-- A CHECK (R114). -/
def checkGo (fid : Nat) (s : State) : State :=
  match flightOf s fid with
  | some f =>
    if dOp f.bytes ≠ 0x0F ∨ f.result.isSome ∨ scratchShut s f.q then s else
    let s := if f.work = .none then checkStart f s else s
    match tileFlight s fid with
    | some (_, w) => tilesDone fid (checkRounds fid w.sampled.length (drainRead fid s))
    | none => s
  | none => s

/-! ### Registers of an array (R79, R80) -/

/-- The live counters copied into the snapshots (R80). -/
def arrSnapshot (n : Nat) (s : State) : State :=
  (List.range 9).foldl (fun s i =>
    let v := (arr s n).cnt.getD i 0
    st (pgArr n) (fldAt Fld.ARR_RUN_CYC (2 * i)) v (st (pgArr n) (fldAt Fld.ARR_RUN_CYC (2 * i + 1)) (v / 2 ^ 32) s)) s

/-- The live counters cleared. -/
def arrClearCnt (n : Nat) (s : State) : State := setArr n { arr s n with cnt := List.replicate 9 0 } s

/-- A write of ARR_CNT_CTRL by a partition: the snapshot first, then the clear (R80); only the partition that holds the array
reaches its page (R79). -/
def arrCtrl (part n : Nat) (snap clear : Bool) (s : State) : State :=
  if 160 ≤ n ∨ part ≠ arrOwner s n then { s with bus := (0x20, 0) }
  else { wh clear (arrClearCnt n) (wh snap (arrSnapshot n) s) with bus := (0, 0) }

/-- GEMM (R119). -/
def execGemm (fid : Nat) (s : State) : Host.Outcome State Fault Refusal := .next (wh (on s) (tileGo 0x02 fid) s)

/-- CONV (R137). -/
def execConv (fid : Nat) (s : State) : Host.Outcome State Fault Refusal := .next (wh (on s) (convGo fid) s)

/-- CHECK (R114). -/
def execCheck (fid : Nat) (s : State) : Host.Outcome State Fault Refusal := .next (wh (on s) (checkGo fid) s)

/-- PLANNER_TAKE (R118). -/
def execPlannerTake (s : State) : Host.Outcome State Fault Refusal := .next (wh (on s) plannerTake s)

/-- RUN_START (R132). -/
def execRunStart (s : State) : Host.Outcome State Fault Refusal := .next (wh (on s) runStart s)

/-- CHUNK_DELIVERY (R129). -/
def execChunkDelivery (arr : Nat) (isA : Bool) (s : State) : Host.Outcome State Fault Refusal :=
  .next (wh (on s) (chunkDelivery arr isA) s)

/-- PRELOAD_STALL (R68). -/
def execPreloadStall (arr : Nat) (s : State) : Host.Outcome State Fault Refusal := .next (wh (on s) (preloadStall arr) s)

/-- TILE_DRAIN (R66). -/
def execTileDrain (arr : Nat) (s : State) : Host.Outcome State Fault Refusal := .next (wh (on s) (tileDrain arr) s)

/-- STAGING_WRITE_ACK (R69). -/
def execStagingWriteAck (arr : Nat) (s : State) : Host.Outcome State Fault Refusal := .next (wh (on s) (stagingAck arr) s)

/-- PARTIAL_COMBINE (R130). -/
def execPartialCombine (fid : Nat) (s : State) : Host.Outcome State Fault Refusal := .next (wh (on s) (partialCombine fid) s)

/-- SHADOW_RECOMPUTE (R111). -/
def execShadowRecompute (fid : Nat) (s : State) : Host.Outcome State Fault Refusal := .next (wh (on s) (shadowStep fid) s)

/-- END_OF_RUN_SWAP (R65). -/
def execEndOfRunSwap (arr feedFreeze drainFreeze bothFreeze : Nat) (s : State) : Host.Outcome State Fault Refusal :=
  .next (wh (on s && !arraysStopped s) (endRun arr feedFreeze drainFreeze bothFreeze) s)

/-- ARR_SNAP (R80). -/
def execArrSnap (part arr : Nat) (s : State) : Host.Outcome State Fault Refusal :=
  .next (wh (on s) (atDone (arrCtrl part arr true false)) s)

/-- ARR_CLEAR (R80). -/
def execArrClear (part arr : Nat) (snap : Bool) (s : State) : Host.Outcome State Fault Refusal :=
  .next (wh (on s) (atDone (arrCtrl part arr snap true)) s)

/-- A planner's seven counters are 0. -/
def tplReset (planner : Nat) (s : State) : State :=
  (List.range 7).foldl (fun s i => st (pgTpl planner) (fldAt Fld.TPL_PLANNED i) 0 s) s

/-- A clear of a planner's counters by a partition: only partition 0 may. -/
def tplClear (part planner : Nat) (s : State) : State :=
  if part ≠ 0 ∨ 16 ≤ planner then { s with bus := (0x20, 0) }
  else tplReset planner { s with bus := (0, 0) }

/-- TPL_CLEAR (R135): partition 0 clears a planner's seven counters. -/
def execTplClear (part planner : Nat) (s : State) : Host.Outcome State Fault Refusal :=
  .next (wh (on s) (atDone (tplClear part planner)) s)

end Sys2Proof.Machine
end

