-- ==== Sys2Proof/Machine/Ras.lean ====
section
/-!
DEFINITION. Failure of the module, and the event recorder: records, flushes to flash and the EVR commands (R416, R421 to R435).
-/
namespace Sys2Proof.Machine

/-! ### Failure of the module (R416) -/

/-- A cause of Table 18.2: the first one, while CAUSE still reads 0, describes the failure; every one counts, reports on the failed unit's page and raises a
FATAL event (R416, R417). -/
def moduleFail (cause : Nat) (pg : Page) (code detail : Nat) (part : Option Nat) (s : State) : State :=
  let s := inc pgRas Fld.RAS_FATAL 1 s
  let s := wh (rg s pgRas Fld.RAS_DEV_STAT_CAUSE == 0) (fun s =>
    st pgRas Fld.RAS_DEV_STAT_FAILED 1 (st pgRas Fld.RAS_DEV_STAT_CAUSE cause
      (st pgRas Fld.RAS_FAIL_SRC (srcKey pg) (st pgRas Fld.RAS_FAIL_INFO (code + detail * 256) s)))) s
  raise pg 0x03 code detail part 3 (setErr pg code detail s)

/-! ### Records (R421 to R425) -/

/-- The state with the recorder changed. -/
def setEvr (e : Evr) (s : State) : State := { s with evr := e }

/-- A slot. -/
def slotAt (e : Evr) (i : Nat) : Slot := tabGet slotDefault e.slots i

/-- The 64 bytes of a slot (Table 18.4). -/
def slotBytes (genBase : Nat) (x : Slot) : List Byte :=
  let gen := toLE 2 ((genBase + x.gen) % 65536)
  match x.body with
  | none => gen ++ List.replicate 62 0
  | some (k, a) =>
    let part := match k.part with
      | some p => p * 8 + 128
      | none => 0
    let hist := (List.range 16).foldl (fun n i => n + a.hist.getD i 0 * 2 ^ (12 * i)) 0
    gen ++ toLE 1 (blockCode k.src.blk) ++ toLE 1 k.src.inst ++ toLE 1 k.cls ++ toLE 1 (a.sev + part) ++ toLE 1 k.code ++ [0] ++
      toLE 2 k.detail ++ [0, 0] ++ toLE 4 a.count ++ toLE 24 hist ++ toLE 4 a.min ++ toLE 4 a.max ++ toLE 8 a.first ++ toLE 8 a.last

/-- Live records. -/
def liveRecords (e : Evr) : Nat := e.recency.length

/-- A slot takes a body; its GEN advances, and it is the most recently written of the live ones. -/
def slotPut (i : Nat) (b : Option (EvKey × EvAcc)) (e : Evr) : Evr :=
  let r := e.recency.filter fun j => j != i
  { e with
    slots := tabSet slotDefault e.slots i ⟨((slotAt e i).gen + 1) % 65536, b⟩
    recency := if b.isSome then i :: r else r }

/-- The live slot that holds a key. -/
def slotOfEvKey (e : Evr) (k : EvKey) : Option Nat :=
  e.recency.find? fun i => match (slotAt e i).body with
    | some (k', _) => decide (k' = k)
    | none => false

/-- The severity of a live slot. -/
def slotSev (e : Evr) (i : Nat) : Nat :=
  match (slotAt e i).body with
  | some (_, a) => a.sev
  | none => 4

/-- The slot for a new record (R424): the lowest free one, else the least recent of severity at most the event's. -/
def slotFor (e : Evr) (sev : Nat) : Option Nat :=
  if e.recency.length < 4096 then firstBelow 4096 fun i => (slotAt e i).body.isNone
  else e.recency.reverse.find? fun i => decide (slotSev e i ≤ sev)

/-- A coalesced key reaches the recorder (R423, R424). -/
def recordKey (k : EvKey) (a : EvAcc) (s : State) : State :=
  let s := inc pgEvr Fld.EVR_EVENTS a.count s
  match slotOfEvKey s.evr k with
  | some i =>
    (match (slotAt s.evr i).body with
    | some (_, b) => setEvr (slotPut i (some (k, accMerge b a)) s.evr) s
    | none => s)
  | none =>
    match slotFor s.evr a.sev with
    | some i => setEvr (slotPut i (some (k, a)) s.evr) s
    | none => incSat pgEvr (fldAt Fld.EVR_DROP a.sev) 1 s

/-- A record whose SRAM shows an uncorrected error is freed (R427). -/
def freeRecord (i : Nat) (s : State) : State :=
  if (slotAt s.evr i).body.isNone then s
  else incSat pgEvr (fldAt Fld.EVR_DROP (slotSev s.evr i)) 1 (setEvr (slotPut i none s.evr) s)

/-- The source served next, in round-robin order (R425). -/
def nextSource (e : Evr) : Option Nat :=
  let l := e.coal.map Prod.fst
  (l.find? fun k => decide (e.lastSrc < k)).or l.head?

/-! ### Flushes (R430 to R432) -/

/-- How many frames from the head on are erased. -/
def erasedAhead (e : Evr) : Nat :=
  (firstBelow 32 fun k => !e.erased.contains ((e.head + k) % 32)).getD 32

/-- The boot epoch that a frame's header names (Table 18.6): the register, or the epoch of this boot before it is written. -/
def frameEpoch (s : State) : Nat := s.pwr.epoch

/-- A frame's header (Table 18.6). -/
def frameHeader (s : State) (cause : Nat) : List Byte :=
  let h := toLE 2 1 ++ [0, 0] ++ toLE 4 s.evr.fseq ++ toLE 4 (frameEpoch s) ++ toLE 1 cause ++ [0, 0, 0] ++
    toLE 8 (stampOf pgEvr s.freeCtr) ++ (List.range 4).flatMap (fun i => toLE 4 (rg s pgEvr (fldAt Fld.EVR_DROP i))) ++
    toLE 4 (liveRecords s.evr) ++ List.replicate 16 0
  h ++ toLE 4 (crc32c h)

/-- A flush starts: its frame is the head, which moves on (R430). -/
def startFlush (cause : Nat) (s : State) : State :=
  let e := s.evr
  tickFree (setEvr { e with
    writing := some ⟨e.head, cause, frameHeader s cause, e.slots, e.genBase⟩
    erased := e.erased.filter fun f => f != e.head
    head := (e.head + 1) % 32
    fseq := (e.fseq + 1) % 2 ^ 32
    deferred := none
    spaced := if cause = 1 then e.spaced else false } s)

/-- Both conditions of R432 hold. -/
def canFlush (e : Evr) : Bool := decide (2 ≤ erasedAhead e) && e.spaced && e.writing.isNone

/-- A flush is requested: it starts, or it is deferred, or it joins one that is (R432). -/
def requestFlush (cause : Nat) (s : State) : State :=
  if s.evr.deferred.isSome then s
  else if canFlush s.evr then startFlush cause s
  else raise pgEvr 0x10 0 3 none 1
    (inc pgEvr Fld.EVR_FLUSH_DEFER 1 (setEvr { s.evr with deferred := some cause } s))

/-- The bytes of a frame apart from those that are zero between its parts (R430). -/
def frameSlots (j : FlushJob) : List Byte :=
  (List.range 4096).flatMap fun i => slotBytes j.genBase (tabGet slotDefault j.slots i)

/-- A frame's trailer (Table 18.6). -/
def frameTrailer (j : FlushJob) : List Byte :=
  let t := (j.header.drop 4).take 4 ++ toLE 4 (crc32c (frameSlots j)) ++ toLE 4 1 ++ List.replicate 48 0
  t ++ toLE 4 (crc32c t)

/-- The flash address of a frame. -/
def frameAddr (n : Nat) : Nat := 0x2000000 + n * 0x80000

/-- Bytes written into flash. -/
def flashPut (a : Nat) (bs : List Byte) (s : State) : State := { s with flash := putBytes flashDefault s.flash a bs }

/-- The flush writes its frame and its trailer. -/
def flushDone (s : State) : State :=
  match s.evr.writing with
  | some j =>
    setEvr { s.evr with writing := none, written := (s.evr.written + 1) % 65536 }
      (flashPut (frameAddr j.frame) (padTo 4096 j.header ++ frameSlots j ++ frameTrailer j) s)
  | none => s

/-- A power failure abandons a flush in progress and, when a frame is erased, writes the next one (R431, R432). The abandoned
frame holds its header and no trailer (log entry 29). -/
def powerFailFlush (s : State) : State :=
  let s := match s.evr.writing with
    | some j => setEvr { s.evr with writing := none } (flashPut (frameAddr j.frame) j.header s)
    | none => s
  if erasedAhead s.evr = 0 then s else startFlush 1 s

/-- The recorder finishes erasing a frame, or begins the next one ahead of the head (R431). At most 31 frames are kept erased. -/
def eraseFrame (s : State) : State :=
  let e := s.evr
  match e.erasing with
  | some n =>
    let a := frameAddr n
    let e := { e with erased := n :: e.erased.filter (fun f => f != n), erasing := none }
    setEvr e { s with flash := s.flash.filter fun c => !decide (a ≤ c.1 ∧ c.1 < a + 0x80000) }
  | none =>
    if erasedAhead e < 31 then setEvr { e with erasing := some ((e.head + erasedAhead e) % 32) } s else s

/-- The recorder takes one coalesced key (R423, R425); an event of severity at or above FLUSH_SEV requests a flush (R431). -/
def eventRecord (sramError : Option Nat) (s : State) : State :=
  let s := match sramError with
    | some i => freeRecord i s
    | none => s
  match nextSource s.evr with
  | some src =>
    match tabGet coalDefault s.evr.coal src with
    | (k, a) :: rest =>
      let s := setEvr { s.evr with coal := tabSet coalDefault s.evr.coal src rest, lastSrc := src } s
      let s := recordKey k a s
      wh (rg s pgEvr Fld.EVR_POL_AUTO_EN == 1 && decide (rg s pgEvr Fld.EVR_POL_FLUSH_SEV ≤ a.sev)) (requestFlush 2) s
    | [] => s
  | none => s

/-- At least one second has passed since the previous flush, and a deferred one runs (R432). -/
def deferredFlush (s : State) : State :=
  let s := setEvr { s.evr with spaced := true } s
  match s.evr.deferred with
  | some c => if canFlush s.evr then startFlush c s else s
  | none => s

/-! ### The frames at boot (R433) -/

/-- Bytes of flash. -/
def flashBytes (s : State) (a n : Nat) : List Byte := (List.range n).map fun i => tabGet flashDefault s.flash (a + i)

/-- FSEQ of a frame whose header and trailer are valid (R430, R433; log entry 30). -/
def validFrame (s : State) (n : Nat) : Option Nat :=
  let h := flashBytes s (frameAddr n) 64
  let t := flashBytes s (frameAddr n + 266240) 64
  if bF h 4 4 = bF t 0 4 && bF h 60 4 == crc32c (h.take 60) && bF t 60 4 == crc32c (t.take 60) then some (bF h 4 4) else none

/-- Boot step 1: the head and the next FSEQ from the frames in flash (R433). -/
def evrBoot (s : State) : State :=
  let best := (List.range 32).foldl (fun (b : Option (Nat × Nat)) n => match validFrame s n, b with
    | some f, some (g, _) => if g < f then some (f, n) else b
    | some f, none => some (f, n)
    | none, _ => b) none
  let hd := match best with
    | some (_, n) => (n + 1) % 32
    | none => 0
  let fs := match best with
    | some (f, _) => (f + 1) % 2 ^ 32
    | none => 0
  setEvr { s.evr with head := hd, fseq := fs, erasing := some hd } s

/-! ### EVR commands (R435) -/

/-- The destination of an EVR command. -/
def evrAddr (s : State) : Nat := rg s pgEvr Fld.EVR_ADDR_HI * 2 ^ 32 + rg s pgEvr Fld.EVR_ADDR_LO * 64

/-- A command's result. -/
def evrResult (code : Nat) (s : State) : State :=
  st pgEvr Fld.EVR_CMD_STAT_CODE code (st pgEvr Fld.EVR_CMD_STAT_BUSY 0 s)

/-- A command waits for held memory: BUSY stays 1 (R228, R241). -/
def evrPark (op frame a : Nat) (s : State) : State :=
  st pgEvr Fld.EVR_CMD_STAT_BUSY 1 (setEvr { s.evr with parked := some (op, frame, a) } s)

/-- DUMP (R429) to an address. -/
def evrDump (a : Nat) (s : State) : State :=
  if !ownsRange s 0 a 262144 then evrResult 0x20 s
  else if heldRange s a 262144 then evrPark 2 0 a s
  else
    let bs := (List.range 4096).flatMap fun i => slotBytes s.evr.genBase (slotAt s.evr i)
    let r := memWrite .beside 0 0 a bs s
    evrResult (r.2.getD 0) r.1

/-- RING_READ (R433) to an address. -/
def evrRingRead (n a : Nat) (s : State) : State :=
  let busy := s.evr.erasing == some n || (match s.evr.writing with
    | some j => j.frame == n
    | none => false)
  if !(if bootDone s then ownsRange s 0 a 266304 else a == 0x80000000000) then evrResult 0x20 s
  else if busy then evrResult 0x52 s
  else
    let bs := flashBytes s (frameAddr n) 266304
    if !bootDone s then evrResult 0 (poke a bs s)
    else if heldRange s a 266304 then evrPark 3 n a s
    else
      let r := memWrite .beside 0 0 a bs s
      evrResult (r.2.getD 0) r.1

/-- CLEAR: every slot is emptied and its GEN advances, the drop counters become 0 (R426). -/
def evrClear (s : State) : State :=
  let e := s.evr
  let s := setEvr { e with
    slots := e.slots.foldl (fun t x => tabSet slotDefault t x.1 ⟨(slotAt e x.1).gen, none⟩) []
    recency := []
    genBase := (e.genBase + 1) % 65536 } s
  evrResult 0 ((List.range 4).foldl (fun s i => st pgEvr (fldAt Fld.EVR_DROP i) 0 s) s)

/-- A write of EVR_CMD; while a command waits it is ignored (R175, R435). -/
def evrCommand (op frame : Nat) (s : State) : State :=
  if rg s pgEvr Fld.EVR_CMD_STAT_BUSY = 1 then st pgEvr Fld.EVR_CMD_STAT_IGNORED 1 s else
  match op with
  | 1 => evrResult 0 (requestFlush 3 s)
  | 2 => evrDump (evrAddr s) s
  | 3 => evrRingRead (frame % 32) (evrAddr s) s
  | 4 => evrClear s
  | _ => evrResult 0x13 s

/-- A command that waited for memory is taken up again. -/
def evrRetry (s : State) : State :=
  match s.evr.parked with
  | some (op, n, a) =>
    let s := setEvr { s.evr with parked := none } s
    if op = 2 then evrDump a s else evrRingRead n a s
  | none => s

/-- A write that reaches a page of partition 0 (R437). -/
def onZero (part : Nat) (f : State → State) (s : State) : State :=
  if part = 0 then { f s with bus := (0, 0) } else { s with bus := (0x20, 0) }

/-- EVENT_RECORD (R423). -/
def execEventRecord (sramError : Option Nat) (s : State) : Host.Outcome State Fault Refusal :=
  .next (wh (on s) (eventRecord sramError) s)

/-- DEFERRED_FLUSH_START (R432). -/
def execDeferredFlushStart (s : State) : Host.Outcome State Fault Refusal := .next (wh (on s) deferredFlush s)

/-- FLUSH_WRITE_COMPLETE (R430): also after a power failure has been recognised (R402). -/
def execFlushWriteComplete (s : State) : Host.Outcome State Fault Refusal :=
  .next (wh (s.pwr.mode != .inReset) flushDone s)

/-- FRAME_ERASE (R431). -/
def execFrameErase (s : State) : Host.Outcome State Fault Refusal := .next (wh (on s) eraseFrame s)

/-- EVR_FLUSH (R435). -/
def execEvrFlush (part : Nat) (s : State) : Host.Outcome State Fault Refusal :=
  .next (wh (on s) (onZero part (evrCommand 1 0)) s)

/-- DUMP (R429). -/
def execDump (part : Nat) (s : State) : Host.Outcome State Fault Refusal := .next (wh (on s) (onZero part (evrCommand 2 0)) s)

/-- RING_READ (R433). -/
def execRingRead (part frame : Nat) (s : State) : Host.Outcome State Fault Refusal :=
  .next (wh (on s) (onZero part (evrCommand 3 frame)) s)

/-- EVR_CLEAR (R426). -/
def execEvrClear (part : Nat) (s : State) : Host.Outcome State Fault Refusal :=
  .next (wh (on s) (onZero part (evrCommand 4 0)) s)

end Sys2Proof.Machine
end

