-- ==== Sys2Proof/Machine/Drbg.lean ====
section
/-!
DEFINITION. The random numbers of the security block: the DRBG, its entropy and its seeds (R366, R413).
-/
namespace Sys2Proof.Machine

/-- Entropy input of 48 bytes from the noise source (R366; a free value, log entry 8). -/
def drawEntropy (s : State) : List Byte × State :=
  (toLE 48 (Config.entropy s.sec.draws).toNat, { s with sec := { s.sec with draws := s.sec.draws + 1 } })

/-- Health tests fail `fails` times in a row: each failure counts, and the sixteenth fails the security block (R366). Answers whether
entropy passed. -/
def healthTests (fails : Nat) (s : State) : State × Bool :=
  let s := inc pgSecDev Fld.SEC_ENTROPY_FAIL (min fails 16) s
  if 16 ≤ fails then (moduleFail 9 pgSecDev 0x70 0 none { s with sec := { s.sec with failed := true } }, false) else (s, true)

/-- The DRBG is seeded again, after `fails` failed health tests (R366). -/
def seedDrbg (fails : Nat) (s : State) : State :=
  let r := healthTests fails s
  if !r.2 then r.1 else
  let e := drawEntropy r.1
  inc pgSecDev Fld.SEC_RESEEDS 1
    { e.2 with sec := { e.2.sec with drbg := drbgUpdate e.1 e.2.sec.drbg, sinceSeed := 0 } }

/-- The private identity key (Table 16.1). -/
def idkKey (s : State) : Nat := s.pwr.fuses.idk

/-- The public identity key. -/
def idkPub (s : State) : List Byte := ecPub (idkKey s)

/-- The digest of the device's identity key. -/
def identityDig (s : State) : List Byte := sha384 (idkPub s)

/-- The DRBG starts at boot step 2, personalised with the identity key's digest and the boot epoch (R366, R406). -/
def startDrbg (s : State) : State :=
  let e := drawEntropy s
  { e.2 with sec := { e.2.sec with drbg := drbgStart (e.1 ++ identityDig s ++ toLE 4 s.pwr.epoch), sinceSeed := 0 } }

/-- One request of the DRBG for `n` bytes. After every 2¹⁶ requests it is seeded again; how many health tests fail there is a free
value (R366, log entry 8). -/
def drbgTake (n : Nat) (s : State) : List Byte × State :=
  let r := drbgGen n s.sec.drbg
  let s := { s with sec := { s.sec with drbg := r.2, sinceSeed := s.sec.sinceSeed + 1 } }
  (r.1, wh (decide (65536 ≤ s.sec.sinceSeed)) (fun s => tickFree (seedDrbg (Config.freeFails s.freeCtr % 17) s)) s)

/-- A new private key on brainpoolP384r1 (log entry 108). -/
def drbgKey (s : State) : Nat × State :=
  let r := drbgTake 56 s
  (ecKeyOf r.1, r.2)

/-- A signature by a private key over a message; its per-message number comes from the DRBG (R365, log entry 108). -/
def signBy (d : Nat) (m : List Byte) (s : State) : List Byte × State :=
  let k := drbgKey s
  (ecSign d k.1 m, k.2)

end Sys2Proof.Machine
end

