-- ==== Sys2Proof/Machine/Fabric.lean ====
section
/-!
DEFINITION. The fabric ports: flits, sequence and re-send, lanes and credits, training, partner authentication, and the
protection of messages (R282 to R297, R382). A port hears flits from FLIT_ALIGN on; IDLE flits, which fill the link when nothing else is
ready, are not among the flits sent (log entry 66).
-/
namespace Sys2Proof.Machine

/-! ### Job keys -/

/-- Partition `p`'s job key slot `k`, when it is loaded (R380). -/
def jobSlot (s : State) (p k : Nat) : Option JobSlot :=
  match (tabGet secPartDefault s.secs p).slots[k]? with
  | some j => if j.keyid = 0 then none else some j
  | none => none

/-- The partition and slot that hold a key identifier: one at most (R380). -/
def slotOfKey (s : State) (keyid : Nat) : Option (Nat × Nat) :=
  if keyid = 0 then none else
    (List.range 128).findSome? fun i =>
      match jobSlot s (i / 8) (i % 8) with
      | some j => if j.keyid = keyid then some (i / 8, i % 8) else none
      | none => none

/-- Change a job key slot. -/
def setJobSlot (p k : Nat) (j : JobSlot) (s : State) : State :=
  let c := tabGet secPartDefault s.secs p
  { s with secs := tabSet secPartDefault s.secs p { c with slots := c.slots.set k j } }

/-! ### Events of a port -/

/-- An event of class LINK (Table 18.3). -/
def linkEvent (p detail : Nat) (s : State) : State := raise (pgFab p) 0x0C 0 detail none 1 s

/-- An event whose v is a duration, which is timing and free (log entry 5). -/
def raiseDur (src : Page) (cls detail sev : Nat) (s : State) : State :=
  let v := (Config.freeInterval s.freeCtr).toNat
  raiseV src cls 0 detail none sev v (binLog v) s

/-- A recovered error on a path (R413). -/
def recovered (pg : Page) (s : State) : State :=
  raise pg 0x02 0 (Config.pathDetail (2 * 65536 + srcKey pg)).toNat none 1 s

/-- A corrected error on a path (R413). -/
def corrected (pg : Page) (s : State) : State :=
  raise pg 0x01 0 (Config.pathDetail (65536 + srcKey pg)).toNat none 1 s

/-! ### Flits (R282 to R284) -/

/-- The header word of a flit (Table 13.2). -/
def flitWord (f : Flit) : Nat :=
  f.seq * 2 ^ 52 + f.ack * 2 ^ 40 + f.crcum * 2 ^ 30 + f.crvl * 2 ^ 28 + f.vl * 2 ^ 26 + f.ftype * 2 ^ 23 + b2n f.last * 2 ^ 22 +
    f.dst * 2 ^ 7

/-- The 268 bytes of a flit: header, payload and CRC (Table 13.1). -/
def flitBytes (f : Flit) : List Byte :=
  let b := toLE 8 (flitWord f) ++ (padTo 256 f.payload).take 256
  b ++ toLE 4 (crc32c b)

/-- The flit that 268 bytes are; none when its CRC fails or its FTYPE is reserved (R284). -/
def flitOf (b : List Byte) : Option Flit :=
  let w := bF b 0 8
  if b.length ≠ 268 ∨ crc32c (b.take 264) ≠ bF b 264 4 ∨ 6 ≤ bits 25 23 w then none
  else some { seq := bits 63 52 w, ack := bits 51 40 w, crcum := bits 39 30 w, crvl := bits 29 28 w, vl := bits 27 26 w,
              ftype := bits 25 23 w, last := bit 22 w, dst := bits 21 7 w, payload := part 8 256 b }

/-- A flit of a type and a payload, with nothing else set. -/
def flitNew (ftype : Nat) (payload : List Byte) : Flit :=
  { seq := 0, ack := 0, crcum := 0, crvl := 0, vl := 0, ftype := ftype, last := false, dst := 0, payload := padTo 256 payload }

/-! ### Flits out -/

/-- The header fields that every flit sent carries: the current ACK, and the returned credits of each lane in turn (R285,
R289). -/
def stampFlits (x : Port) (l : List Flit) : List Flit :=
  l.zipIdx.map fun y =>
    let v := (x.crvl + y.2) % 4
    { y.1 with ack := x.rxSeq, crvl := v, crcum := x.retCum.getD v 0 }

/-- Flits go out on a port, stamped; the round-robin of CRVL moves on by each (R289). -/
def putFlits (p : Nat) (l : List Flit) (s : State) : State :=
  let x := portOf s p
  setPort p { x with crvl := (x.crvl + l.length) % 4 }
    { s with out := ((stampFlits x l).map fun f => Out.flit p (flitBytes f)).reverse ++ s.out }

/-- Flits under the next sequence numbers of a port (R285). -/
def numberFlits (x : Port) (l : List Flit) : List Flit :=
  l.zipIdx.map fun y => { y.1 with seq := (x.txSeq + y.2) % 4096 }

/-- Sequenced flits are numbered, sent, and kept until an ACK covers them (R285). -/
def pushFlits (p : Nat) (l : List Flit) (s : State) : State :=
  let x := portOf s p
  let l := numberFlits x l
  putFlits p l (setPort p { x with held := x.held ++ l, txSeq := (x.txSeq + l.length) % 4096 } s)

/-- Places of the replay buffer that are free (R285). -/
def heldRoom (x : Port) : Nat := 1024 - (x.held.length + x.kept.length)

/-- A LINK flit (Table 13.3). -/
def linkFlit (ltype expect : Nat) : Flit := flitNew 3 (toLE 4 ltype ++ toLE 4 expect)

/-- The flits of a message: its HEAD and its BODY flits (R296). -/
def msgFlits (m : Msg) : List Flit :=
  let n := ceilDiv m.body.length 256
  { flitNew 1 m.head with vl := m.vl, last := n == 0, dst := m.dst } ::
    (List.range n).map fun i => { flitNew 2 (part (256 * i) 256 m.body) with vl := m.vl, last := i + 1 == n }

/-- How far a source lies after the one served last, in the round (R290). -/
def srcTurn (last src : Nat) : Nat := (src + 2 ^ 20 - 1 - last) % 2 ^ 20

/-- The message that a lane sends next: the one begun, else, unless the port is quiesced, the oldest of the source whose turn
it is (R290, R439). -/
def laneNext (x : Port) (quiet : Bool) (l : Nat) : Option (Msg × Nat) :=
  match x.cur.getD l none with
  | some c => some c
  | none =>
    if quiet then none else
      ((x.queue.filter fun m => m.vl == l).foldl (fun (b : Option Msg) m => match b with
        | none => some m
        | some c => if srcTurn (x.lastSrc.getD l 0) m.src < srcTurn (x.lastSrc.getD l 0) c.src then some m else some c)
        none).map fun m => (m, 0)

/-- A lane can send a flit: a message, a credit and a place in the replay buffer (R285, R289). -/
def laneReady (x : Port) (quiet : Bool) (l : Nat) : Bool :=
  (laneNext x quiet l).isSome && decide (0 < x.credits.getD l 0 ∧ 0 < heldRoom x)

/-- The lane that sends next (R290): VL0, then VL3, then VL1 and VL2 by their weights. -/
def lanePick (x : Port) (quiet : Bool) (w1 w2 : Nat) : Option Nat :=
  if laneReady x quiet 0 then some 0
  else if laneReady x quiet 3 then some 3
  else if laneReady x quiet 1 && laneReady x quiet 2 then
    some (if x.wrr.1 * w2 ≤ x.wrr.2 * w1 then 1 else 2)
  else if laneReady x quiet 1 then some 1
  else if laneReady x quiet 2 then some 2 else none

/-- A message that cannot be protected, or whose protection fails, is dropped and counted (R297, R380). -/
def dropMsg (p mt : Nat) (s : State) : State :=
  let s := linkEvent p 3 (inc (pgFab p) Fld.FAB_AUTH_FAIL 1 s)
  wh (decide (1 ≤ mt ∧ mt ≤ 8)) (inc pgLease Fld.MEM_LEASE_DROP 1) s

/-- A message under its protection (Table 13.6, R297, R381): the BODY flits, all 256 B of each, encrypted, and the HEAD payload with the
protection fields. -/
def sealMsg (s : State) (m : Msg) (j : JobSlot) : Msg :=
  let iv := toLE 4 (fabId s) ++ toLE 8 j.ivctr
  let head := m.head.take 208
  let r := gcmSeal j.key iv head (padTo (256 * ceilDiv m.body.length 256) m.body)
  { m with head := head ++ toLE 4 j.keyid ++ iv ++ r.2 ++ toLE 16 0, body := r.1 }

/-- What a lane sends now: as many flits of its message as its credits and the replay buffer allow. `both`: VL1 and VL2 both had flits
ready (R290). -/
def sendLane (p l : Nat) (m : Msg) (done : Nat) (both : Bool) (s : State) : State :=
  let x := portOf s p
  let all := msgFlits m
  let n := min (all.length - done) (min (x.credits.getD l 0) (heldRoom x))
  pushFlits p ((all.drop done).take n) (setPort p
    { x with
      credits := x.credits.set l (x.credits.getD l 0 - n)
      cur := x.cur.set l (if done + n = all.length then none else some (m, done + n))
      wrr := if both && l == 1 then (x.wrr.1 + n, x.wrr.2) else if both && l == 2 then (x.wrr.1, x.wrr.2 + n) else x.wrr } s)

/-- The messages of a partition that wait at a port are protected at once, in their order, because its keys are about to be
zeroised (R361). -/
def protectWaiting (part p : Nat) (s : State) : State :=
  let x := portOf s p
  let r := x.queue.foldl (fun (a : State × List Msg) m =>
    if m.keyPart ≠ part ∨ bF m.head 208 4 ≠ 0 then (a.1, a.2 ++ [m]) else
    match jobSlot a.1 m.keyPart m.keySlot with
    | none => (a.1, a.2 ++ [m])
    | some j => (setJobSlot m.keyPart m.keySlot { j with ivctr := j.ivctr + 1 } a.1, a.2 ++ [sealMsg a.1 m j])) (s, [])
  setPort p { x with queue := r.2 } r.1

/-- The next message of a port is sent, or sent further (R281, R289, R290, R297). A port carries messages only in UP, and
only once the device has a valid fabric id (R295). -/
def msgSend (p : Nat) (s : State) : State :=
  let x := portOf s p
  let quiet := rg s (pgFab p) Fld.PAGE_CTRL_QUIESCE == 1
  let both := laneReady x quiet 1 && laneReady x quiet 2
  if x.state ≠ .up ∨ rg s pgColDev Fld.COL_DEV_ID_VALID = 0 then s else
  match lanePick x quiet (rg s (pgFab p) Fld.FAB_LANE_POL_W1) (rg s (pgFab p) Fld.FAB_LANE_POL_W2) with
  | none => s
  | some l =>
    match x.cur.getD l none with
    | some (m, n) => sendLane p l m n both s
    | none =>
      match laneNext x false l with
      | none => s
      | some (m, _) =>
        let s := setPort p { x with queue := x.queue.erase m, lastSrc := x.lastSrc.set l m.src } s
        if bF m.head 208 4 ≠ 0 then sendLane p l m 0 both s else
        match jobSlot s m.keyPart m.keySlot with
        | none => dropMsg p (bF m.head 0 1) s
        | some j => sendLane p l (sealMsg s m j) 0 both (setJobSlot m.keyPart m.keySlot { j with ivctr := j.ivctr + 1 } s)

/-- The next message of lane VL0 or VL2, whose HEAD has waited for a credit, moves to VL3, whole (R291). -/
def escape (p l : Nat) (s : State) : State :=
  let x := portOf s p
  if x.state ≠ .up ∨ (l ≠ 0 ∧ l ≠ 2) ∨ x.credits.getD l 0 ≠ 0 ∨ x.cur.getD l none ≠ none then s else
  match laneNext x false l with
  | some (m, _) => inc (pgFab p) Fld.FAB_ESCAPES 1 (setPort p { x with queue := x.queue.replace m { m with vl := 3 } } s)
  | none => s

/-! ### Training (R292 to R295) -/

/-- The port begins an attempt (R292). -/
def pmdStart (p : Nat) (s : State) : State :=
  inc (pgFab p) Fld.FAB_TRAIN_ATTEMPTS 1
    (setPort p { portOf s p with state := .pmdTrain, authed := false, partner := none, trainGood := 0 } s)

/-- A failure at any state leads to BACKOFF, 1 ms at first, doubling up to 1 s (R292). -/
def backOff (p : Nat) (s : State) : State :=
  let x := portOf s p
  setPort p { x with state := .backoff, authed := false, partner := none, backoffMs := min 1000 (2 ^ min 10 x.fails), fails := x.fails + 1 } s

/-- A port in UP retrains (R293): it keeps its replay buffer (R287). -/
def retrainPort (p : Nat) (s : State) : State :=
  let x := portOf s p
  if x.state ≠ .up then s else
  pmdStart p (inc (pgFab p) Fld.FAB_RETRAINS 1
    (setPort p { x with prev := partnerNow x, replays := 0, margin := 0, outage := true } s))

/-- A retrain that policy does not ask for; while DEFER is 1 it counts as forced (R293). -/
def forcedRetrain (p : Nat) (s : State) : State :=
  if (portOf s p).state ≠ .up then s else
  retrainPort p (wh (rg s (pgFab p) Fld.FAB_LINK_POL_DEFER == 1)
    (fun s => raise (pgFab p) 0x05 0 3 none 1 (inc (pgFab p) Fld.FAB_FORCED 1 s)) s)

/-- ENABLE of a FAB page starts or stops training (R315, R439). -/
def fabEnable (p : Nat) (en : Bool) (s : State) : State :=
  let x := portOf s p
  if en then
    if x.state = .down ∧ !x.serdesFail then pmdStart p (setPort p { x with fails := 0 } s) else s
  else if x.state = .down then s
  else setPort p { x with state := .down, authed := false, partner := none, prev := (partnerNow x).or x.prev, outage := false } s

/-- A flit that counts as bad (R284, R286): discarded, counted, and answered by one NAK when a flit has been accepted since
the last. -/
def badFlit (p : Nat) (s : State) : State :=
  let x := portOf s p
  let s := recovered (pgFab p) (linkEvent p 1 (inc (pgFab p) Fld.FAB_CRC_ERR 1 s))
  if !x.nakReady then s else
    putFlits p [linkFlit 1 x.rxSeq] (linkEvent p 2 (inc (pgFab p) Fld.FAB_NAKS 1 (setPort p { x with nakReady := false } s)))

/-- The held flits that an ACK covers (R285). -/
def ackCover (x : Port) (n : Nat) : Nat :=
  let k := (n + x.held.length + 4096 - x.txSeq) % 4096
  if k ≤ x.held.length then k else 0

/-- The ACK and credit fields of a good flit are taken (R285, R289). -/
def takeFields (f : Flit) (x : Port) : Port :=
  let k := ackCover x f.ack
  let l := f.crvl
  { x with
    held := x.held.drop k
    replays := if k = 0 then x.replays else 0
    credits := x.credits.set l (x.credits.getD l 0 + (f.crcum + 1024 - x.seenCum.getD l 0) % 1024)
    seenCum := x.seenCum.set l f.crcum }

/-- `n` receive places of a lane are freed (R289). -/
def freePlaces (l n : Nat) (x : Port) : Port := { x with retCum := x.retCum.set l ((x.retCum.getD l 0 + n) % 1024) }

/-- A port that receives flits: from FLIT_ALIGN on. -/
def hearsFlits (x : Port) : Bool := x.state == .flitAlign || x.state == .auth || x.state == .up

/-- Everything in flight on the port is discarded, and both ends of its link start afresh (R294). -/
def freshLink (t : TrainInfo) (x : Port) : Port :=
  { x with
    txSeq := 0
    held := []
    kept := []
    rxSeq := 0
    nakReady := false
    replays := 0
    credits := t.credits
    seenCum := [0, 0, 0, 0]
    retCum := [0, 0, 0, 0]
    queue := []
    cur := [none, none, none, none]
    partials := [[], [], [], []]
    inbox := [] }

/-- The digest bytes of an anchor (Table 16.15). -/
def anchorBytes (s : State) (k : Nat) : List Byte :=
  (List.range 12).flatMap fun m => toLE 4 (rg s pgSecDev (fldAt Fld.SEC_ANCHOR (12 * k + m)))

/-- An AUTH flit (Table 16.5). -/
def authFlit (step idx count : Nat) (data : List Byte) : Flit :=
  flitNew 4 (toLE 1 step ++ toLE 1 idx ++ toLE 1 count ++ toLE 1 0 ++ data)

/-- AUTH flits go out as the replay buffer has places for them (R285). -/
def authPump (p : Nat) (s : State) : State :=
  let x := portOf s p
  let n := heldRoom x
  pushFlits p (x.authOut.take n) (setPort p { x with authOut := x.authOut.drop n } s)

/-- AUTH flits are to be sent, after those that wait. -/
def authSend (p : Nat) (l : List Flit) (s : State) : State :=
  authPump p (setPort p { portOf s p with authOut := (portOf s p).authOut ++ l } s)

/-- The port enters AUTH and sends its NONCE and its chain (R382). -/
def enterAuth (p : Nat) (s : State) : State :=
  let r := drbgTake 32 s
  let s := r.2
  let anchors := ((List.range 4).filter fun k => bit k (rg s pgSecDev Fld.SEC_ANCHOR_EN)).map (anchorBytes s)
  let x := { portOf s p with state := .auth, nonce := r.1, partnerNonce := [], certs := [], anchors := anchors, authOut := [] }
  let n := ceilDiv s.sec.chain.length 252
  authSend p (authFlit 1 0 1 r.1 :: (List.range n).map fun i => authFlit 2 i n (part (252 * i) 252 s.sec.chain)) (setPort p x s)

/-- Bytes 0 to 17 of the TRAIN flits that a port sends (Table 13.3, R287). -/
def ownTrain (s : State) (p : Nat) : List Byte :=
  toLE 1 1 ++ toLE 1 1 ++ toLE 2 (fabId s + rg s pgColDev Fld.COL_DEV_ID_VALID * 2 ^ 15) ++ toLE 1 p ++ toLE 3 0 ++
    toLE 2 64 ++ toLE 2 512 ++ toLE 2 512 ++ toLE 2 257 ++ toLE 2 0

/-- The advertisement that a TRAIN flit carries (Table 13.3). -/
def trainOf (b : List Byte) : TrainInfo :=
  { kind := bF b 0 1, idValid := bit 15 (bF b 2 2), id := bF b 2 2 % 2 ^ 15, caps := bF b 5 1, segs := bF b 6 1, ctx := bF b 16 2
    credits := (List.range 4).map fun l => bF b (8 + 2 * l) 2, raw := b.take 18 }

/-- What a PROOF signs (R382): "OSK-LINK-1", the signer's nonce and the other one, the signer's TRAIN bytes and the other ones, and
DEBUG. -/
def proofText (nonce other train otherTrain : List Byte) (debug : Nat) : List Byte :=
  ascii "OSK-LINK-1" ++ nonce ++ other ++ train ++ otherTrain ++ toLE 1 debug

/-- The TRAIN bytes of the partner. -/
def partnerTrain (x : Port) : List Byte := (x.partner.map TrainInfo.raw).getD []

/-- The PROOF goes out once the partner's NONCE is known (R382). -/
def sendProof (p : Nat) (s : State) : State :=
  let x := portOf s p
  let r := signBy s.sec.sak (proofText x.nonce x.partnerNonce (ownTrain s p) (partnerTrain x) (b2n s.sec.debugOpen)) s
  authSend p [authFlit 3 0 1 r.1] r.2

/-- The certificates in the pieces of a chain: `n` pieces of 252 B hold as many whole certificates of 256 B as fit. -/
def chainCerts (pieces : List (List Byte)) : List (List Byte) :=
  (List.range (252 * pieces.length / 256)).map fun i => part (256 * i) 256 pieces.flatten

/-- The subject's public key in a certificate (Table 16.2). -/
def certPub (c : List Byte) : List Byte := part 8 97 c

/-- A certificate has the form of Table 16.2. -/
def certForm (c : List Byte) : Bool :=
  bF c 0 2 == 1 && zeroAt c 3 1 && zeroAt c 105 7 && decide (1 ≤ bF c 2 1 ∧ bF c 2 1 ≤ 3) && (bF c 2 1 == 2 || zeroAt c 4 4)

/-- Each certificate is issued by the subject of the next: by its digest, and by its signature (R367, Table 16.2). -/
def chainLinks : List (List Byte) → Bool
  | a :: b :: r => part 112 48 a == sha384 (certPub b) && ecVerify (certPub b) (a.take 160) (part 160 96 a) && chainLinks (b :: r)
  | _ => true

/-- A chain is well formed (R367). -/
def chainOk (cs : List (List Byte)) : Bool := decide (1 ≤ cs.length ∧ cs.length ≤ 3) && cs.all certForm && chainLinks cs

/-- The port accepts its partner, whose PROOF is `sig` (R382). -/
def authJudge (s : State) (p : Nat) (sig : List Byte) : Bool :=
  let x := portOf s p
  let cs := chainCerts x.certs
  let first := cs.headD []
  let proves (d : Nat) : Bool :=
    ecVerify (certPub first) (proofText x.partnerNonce x.nonce (partnerTrain x) (ownTrain s p) d) sig
  match x.partner with
  | some t =>
    chainOk cs && x.anchors.contains (part 112 48 (cs.getLastD [])) &&
      (if t.kind = 1 then bF first 2 1 == 2 && proves 0 else t.kind == 2 && bF first 2 1 == 3 && (proves 0 || proves 1))
  | none => false

/-- AUTH fails: the port backs off and the failure counts (R382). -/
def authFail (p : Nat) (s : State) : State := backOff p (inc pgSecDev Fld.SEC_LINK_AUTH_FAIL 1 s)

/-- Every held flit from an index on is re-sent with the current fields (R285, R287). -/
def resend (p k : Nat) (s : State) : State :=
  let l := (portOf s p).held.drop k
  wh (!l.isEmpty) (fun s => inc (pgFab p) Fld.FAB_REPLAYS l.length (putFlits p l s)) s

/-- The flits kept over a retrain are sent again behind the AUTH flits, under the numbers that follow those (R287, log entry 67). -/
def sendKept (p : Nat) (s : State) : State :=
  let x := portOf s p
  wh (!x.kept.isEmpty) (fun s => inc (pgFab p) Fld.FAB_REPLAYS x.kept.length (pushFlits p x.kept (setPort p { x with kept := [] } s))) s

/-- The port becomes UP (R292); a retrain's outage ends, and re-sending goes on from the oldest flit kept (R287). -/
def portUp (p : Nat) (s : State) : State :=
  let x := portOf s p
  let s := setPort p { x with state := .up, authed := true, fails := 0, margin := 0, outage := false } s
  sendKept p (wh x.outage (raiseDur (pgFab p) 0x04 p 0) s)

/-- A step of the AUTH exchange arrives in its turn (R382): the NONCE, then the pieces of the chain in their order, then the PROOF. -/
def authStep (p : Nat) (b : List Byte) (s : State) : State :=
  let x := portOf s p
  let d := b.drop 4
  match bF b 0 1 with
  | 1 => if x.partnerNonce = [] then sendProof p (setPort p { x with partnerNonce := d.take 32 } s) else authFail p s
  | 2 =>
    if x.partnerNonce ≠ [] ∧ bF b 1 1 = x.certs.length ∧ bF b 1 1 < bF b 2 1 then setPort p { x with certs := x.certs ++ [d] } s
    else authFail p s
  | 3 => if authJudge s p (d.take 96) then portUp p s else authFail p s
  | _ => authFail p s

/-- An AUTH flit (R286, R382). -/
def authIn (p : Nat) (f : Flit) (s : State) : State :=
  let x := portOf s p
  if x.state = .flitAlign ∨ f.seq ≠ x.rxSeq then s else
  let s := setPort p { x with rxSeq := (x.rxSeq + 1) % 4096, nakReady := true } s
  wh (x.state == .auth) (authStep p f.payload) s

/-- The replay buffer when the same partner has returned (R287, log entry 67): the partner's ACK is taken, the AUTH flits of an earlier
exchange are gone, and the flits of messages are kept, to be numbered again behind the AUTH flits. -/
def keepHeld (x : Port) : Port :=
  { x with
    txSeq := (x.txSeq + 4096 - x.held.length) % 4096
    held := []
    kept := (x.held.filter fun f => f.ftype != 4) ++ x.kept }

/-- A TRAIN flit in FLIT_ALIGN (R292, R294). The sixteenth in a row fixes the partner's advertisement; a partner of the same KIND and ID
as before has returned. -/
def trainIn (p : Nat) (f : Flit) (s : State) : State :=
  let x := portOf s p
  if x.state ≠ .flitAlign then s
  else if x.trainGood + 1 < 16 then setPort p { x with trainGood := x.trainGood + 1 } s
  else
    let t := trainOf f.payload
    let now := some (t.kind, t.id)
    let x := { x with trainGood := 0, partner := some t }
    if x.prev = none then enterAuth p (setPort p { freshLink t x with prev := now } s)
    else if x.prev = now then enterAuth p (setPort p (keepHeld (takeFields f x)) s)
    else enterAuth p (linkEvent p 4 (inc (pgFab p) Fld.FAB_PARTNER_CHG 1 (setPort p { freshLink t x with prev := now } s)))

/-! ### Flits in -/

/-- A counter under a key from a sender is accepted: it is above the highest, or in the window of 1,024 below it and new
(R297). Answers the windows after it. -/
def ivAccept (l : List IvWin) (keyid src ctr : Nat) : Option (List IvWin) :=
  match l.find? fun w => w.keyid == keyid && w.src == src with
  | none => some (⟨keyid, src, ctr, []⟩ :: l)
  | some w =>
    let put (w' : IvWin) := l.map fun v => if v.keyid = keyid ∧ v.src = src then w' else v
    if w.high < ctr then some (put { w with high := ctr, seen := (w.high :: w.seen).filter fun c => decide (ctr ≤ c + 1024) })
    else if ctr = w.high ∨ ctr + 1024 < w.high ∨ w.seen.contains ctr then none
    else some (put { w with seen := ctr :: w.seen })

/-- A message type that a device consumes (Table 10.6, Tables 13.7, 13.12). -/
def deviceMsg (mt : Nat) : Bool :=
  decide (1 ≤ mt ∧ mt ≤ 8) || mt == 0x12 || mt == 0x15 || decide (0x20 ≤ mt ∧ mt ≤ 0x23)

/-- The plaintext of a protected message's BODY flits, where its tag holds under a job key that the device has (R297, R380). -/
def openMsg (s : State) (head body : List Byte) : Option (List Byte) :=
  match slotOfKey s (bF head 208 4) with
  | none => none
  | some (q, k) => (jobSlot s q k).bind fun j => gcmOpen j.key (part 212 12 head) (head.take 208) body (part 224 16 head)

/-- A message has arrived whole on a lane (R297): it is kept for its consumer when its protection holds; else it is dropped.
One for another device, or of a type that no device consumes, is consumed without effect (log entry 22); so is every one while the
device has no valid fabric id (R295). -/
def msgIn (p l : Nat) (fs : List Flit) (s : State) : State :=
  let head := (fs.map Flit.payload).headD []
  let mt := bF head 0 1
  let src := bF head 212 4
  let x := portOf s p
  let free := setPort p (freePlaces l fs.length x)
  if rg s pgColDev Fld.COL_DEV_ID_VALID = 0 then free s else
  match openMsg s head ((fs.drop 1).flatMap Flit.payload), ivAccept s.ivs (bF head 208 4) src (bF head 216 8) with
  | some body, some ivs =>
    let s := { s with ivs := ivs }
    let dst := (fs.map Flit.dst).headD 0
    if !deviceMsg mt ∨ (mt ≠ 0x12 ∧ mt ≠ 0x15 ∧ dst ≠ fabId s) then free s
    else setPort p { x with inbox := x.inbox ++ [⟨l, laneOf mt, dst, src, head, body, 0, 0⟩] } s
  | _, _ => dropMsg p mt (free s)

/-- A HEAD or BODY flit in its turn joins its lane's message (R288, R296). -/
def laneIn (p : Nat) (f : Flit) (s : State) : State :=
  let x := portOf s p
  let old := x.partials.getD f.vl []
  let x := if f.ftype = 1 then freePlaces f.vl old.length x else if old.isEmpty then freePlaces f.vl 1 x else x
  let fs := if f.ftype = 1 then [f] else if old.isEmpty then [] else old ++ [f]
  if f.last ∧ !fs.isEmpty then msgIn p f.vl fs (setPort p { x with partials := x.partials.set f.vl [] } s)
  else setPort p { x with partials := x.partials.set f.vl fs } s

/-- A HEAD or BODY flit (R286, R295). -/
def bodyIn (p : Nat) (f : Flit) (s : State) : State :=
  let x := portOf s p
  if x.state ≠ .up then linkEvent p 3 (inc (pgFab p) Fld.FAB_DROP_UNAUTH 1 s)
  else if f.seq ≠ x.rxSeq then s
  else laneIn p f (setPort p { x with rxSeq := (x.rxSeq + 1) % 4096, nakReady := true } s)

/-- A LINK flit (Table 13.3): a NAK re-sends from the number it names (R287), and a RETRAIN request retrains (R293). -/
def linkIn (p : Nat) (f : Flit) (s : State) : State :=
  match bF f.payload 0 1 with
  | 1 => resend p (ackCover (portOf s p) (bF f.payload 4 2 % 4096)) s
  | 2 => forcedRetrain p s
  | _ => s

/-- A good flit by its type (R284 to R289, R292, R295). Before the partner is fixed no flit's ACK and credits are taken; one that is no
TRAIN flit breaks the row of sixteen. -/
def flitIn (p : Nat) (f : Flit) (s : State) : State :=
  let x := portOf s p
  if f.ftype = 5 then trainIn p f s
  else
    let align := x.state == .flitAlign
    let s := setPort p (if align then { x with trainGood := 0 } else takeFields f x) s
    let s := wh (x.state == .auth) (authPump p) s
    match f.ftype with
    | 1 => bodyIn p f s
    | 2 => bodyIn p f s
    | 3 => wh (!align) (linkIn p f) s
    | 4 => authIn p f s
    | _ => s

/-- The bytes of a flit arrive (R282, R284). `fecBad`: an uncorrectable RS-FEC codeword touches it. `threshold`: with this one, ERR_THR
bad flits have been counted within 1 ms (R293). -/
def arrive (p : Nat) (bytes : List Byte) (fecBad threshold : Bool) (s : State) : State :=
  let x := portOf s p
  if !hearsFlits x then s else
  match (if fecBad then none else flitOf bytes) with
  | none => wh threshold (forcedRetrain p) (badFlit p (setPort p { x with trainGood := 0 } s))
  | some f => flitIn p f s

/-- ACK has not advanced for REPLAY_TO_US while flits are held (R287): eight re-sends without an advance start a retrain. -/
def replayOut (p : Nat) (s : State) : State :=
  let x := portOf s p
  if (x.state ≠ .up ∧ x.state ≠ .auth) ∨ x.held.isEmpty then s else
  let s := resend p 0 (setPort p { x with replays := x.replays + 1 } s)
  wh (decide (8 ≤ x.replays + 1)) (forcedRetrain p) s

/-- The millisecond check of the eye margin (R293). -/
def marginIn (p : Nat) (low gapPassed : Bool) (s : State) : State :=
  let x := portOf s p
  if x.state ≠ .up then s else
  let m := if low then x.margin + 1 else 0
  let s := setPort p { x with margin := m } s
  wh (decide (100 ≤ m) && (gapPassed || rg s (pgFab p) Fld.FAB_LINK_POL_MIN_GAP_S == 0) &&
    rg s (pgFab p) Fld.FAB_LINK_POL_DEFER == 0) (retrainPort p) s

/-- The PCS loses lock: a port in UP retrains; one that is still training has failed (R292, R293). -/
def lockLost (p : Nat) (s : State) : State :=
  let x := portOf s p
  if x.state = .up then forcedRetrain p s
  else if x.state = .flitAlign ∨ x.state = .auth then backOff p s else s

/-- A stage of training ends (R292). In FLIT_ALIGN the port sends its TRAIN flits, of which the model's trace shows one (log entry 66). -/
def stageEnd (p : Nat) (at_ next : PortState) (ok : Bool) (s : State) : State :=
  let x := portOf s p
  if x.state ≠ at_ then s
  else if ok then
    wh (next == .flitAlign) (fun s => putFlits p [flitNew 5 (ownTrain s p)] s) (setPort p { x with state := next, trainGood := 0 } s)
  else backOff p s

/-- The first message of a type at a port, when no earlier one of its lane waits before it: the message and the state in which it
has been consumed and its places are free (R289). -/
def takeMsg (p mt : Nat) (s : State) : Option (Msg × State) :=
  let x := portOf s p
  match x.inbox.find? fun m => m.home == laneOf mt with
  | some m =>
    if bF m.head 0 1 = mt then
      some (m, setPort p (freePlaces m.vl (1 + m.body.length / 256) { x with inbox := x.inbox.erase m }) s)
    else none
  | none => none

/-! ### The commands -/

/-- SEQUENCED_FLIT_RECEIVE (R286). -/
def execSequencedFlitReceive (port : Nat) (bytes : List Byte) (fecBad threshold : Bool) (s : State) :
    Host.Outcome State Fault Refusal := .next (wh (on s) (arrive port bytes fecBad threshold) s)

/-- NAK_RECEIVE (R287). -/
def execNakReceive (port : Nat) (bytes : List Byte) (fecBad : Bool) (s : State) : Host.Outcome State Fault Refusal :=
  .next (wh (on s) (arrive port bytes fecBad false) s)

/-- REPLAY_TIMEOUT (R287). -/
def execReplayTimeout (port : Nat) (s : State) : Host.Outcome State Fault Refusal := .next (wh (on s) (replayOut port) s)

/-- MESSAGE_SEND (R289). -/
def execMessageSend (port : Nat) (s : State) : Host.Outcome State Fault Refusal := .next (wh (on s) (msgSend port) s)

/-- ESCAPE_TIMEOUT (R291). -/
def execEscapeTimeout (port lane : Nat) (s : State) : Host.Outcome State Fault Refusal := .next (wh (on s) (escape port lane) s)

/-- RETRAIN_REQUEST (R293). -/
def execRetrainRequest (port : Nat) (bytes : List Byte) (fecBad : Bool) (s : State) : Host.Outcome State Fault Refusal :=
  .next (wh (on s) (arrive port bytes fecBad false) s)

/-- PCS_LOCK_LOSS (R293). -/
def execPcsLockLoss (port : Nat) (s : State) : Host.Outcome State Fault Refusal := .next (wh (on s) (lockLost port) s)

/-- MARGIN_CHECK (R293). -/
def execMarginCheck (port : Nat) (low gapPassed : Bool) (s : State) : Host.Outcome State Fault Refusal :=
  .next (wh (on s) (marginIn port low gapPassed) s)

/-- PMD_TRAIN_DONE (R292). -/
def execPmdTrainDone (port : Nat) (ok : Bool) (s : State) : Host.Outcome State Fault Refusal :=
  .next (wh (on s) (stageEnd port .pmdTrain .pcsLock ok) s)

/-- PCS_LOCK_DONE (R292). -/
def execPcsLockDone (port : Nat) (ok : Bool) (s : State) : Host.Outcome State Fault Refusal :=
  .next (wh (on s) (stageEnd port .pcsLock .flitAlign ok) s)

/-- TRAIN_FLIT_RECEIVE (R292). -/
def execTrainFlitReceive (port : Nat) (bytes : List Byte) (fecBad : Bool) (s : State) : Host.Outcome State Fault Refusal :=
  .next (wh (on s) (arrive port bytes fecBad false) s)

/-- AUTH_FLIT_RECEIVE (R382). -/
def execAuthFlitReceive (port : Nat) (bytes : List Byte) (fecBad : Bool) (s : State) : Host.Outcome State Fault Refusal :=
  .next (wh (on s) (arrive port bytes fecBad false) s)

/-- AUTH_TIMEOUT (R382). -/
def execAuthTimeout (port : Nat) (s : State) : Host.Outcome State Fault Refusal :=
  .next (wh (on s && (portOf s port).state == .auth) (authFail port) s)

/-- PORT_BACKOFF_EXPIRY (R292). -/
def execPortBackoffExpiry (port : Nat) (s : State) : Host.Outcome State Fault Refusal :=
  .next (wh (on s && (portOf s port).state == .backoff) (pmdStart port) s)

end Sys2Proof.Machine
end

