-- ==== Sys2Proof/Machine/Lease.lean ====
section
/-!
DEFINITION. Leases of a neighbour's memory: the borrower's slots and the lender's extents, the lease messages and accesses, and
giving up a descriptor in flight (R232 to R239, R299).
-/
namespace Sys2Proof.Machine

/-! ### Giving up a descriptor -/

/-- A descriptor in flight ends with a code wherever it stands: arrays, engines, held requests and lease accesses are free of it
(R243, R236, R361). -/
def abandon (fid code detail : Nat) (s : State) : State :=
  let s := finish fid code detail (clearArrays fid (stkLeave fid s))
  { s with
    accs := s.accs.filter fun c => c.fid != fid
    col := { s.col with
      waiting := s.col.waiting.filter fun x => x != fid
      ctxs := s.col.ctxs.filter fun c => c.fid != fid }
    retrain := { s.retrain with waiting := s.retrain.waiting.filter fun w => w.2 != fid }
    hif := { s.hif with pulls := s.hif.pulls.filter fun w => w.fid != fid } }

/-- A whole extent is overwritten with zero under the key set that serves it now (R228, R238, R348; log entry 23). -/
def zeroExtent (e : Nat) (s : State) : State :=
  let s := dropLines (fun l => l.2.1 / 2 ^ 21 == e) (zeroFill (e * 2 ^ 30) (2 ^ 30) s)
  { s with
    mce := { s.mce with
      blocks := s.mce.blocks.filter fun b => b.1 / 2 ^ 21 != e
      base := tabSet baseDefault s.mce.base e (curEpoch s e) } }

/-- The state with an extent in a state of R348. -/
def setExt (e : Nat) (x : Ext) (s : State) : State := { s with exts := tabSet extDefault s.exts e x }

/-! ### Messages -/

/-- A lease message's payload (Table 10.6). -/
def leaseMsg (ty arg count id seq : Nat) (exts : List Nat) : List Byte :=
  padTo 208 (toLE 1 ty ++ toLE 1 arg ++ toLE 2 count ++ toLE 4 id ++ toLE 4 seq ++ toLE 4 0 ++ exts.flatMap (toLE 3))

/-- Change the lease that begins at a slot. -/
def updLease (first : Nat) (g : Lease → Lease) (s : State) : State :=
  { s with leases := s.leases.map fun l => if l.first = first then g l else l }

/-- The slots of a lease become FREE. -/
def freeLease (first : Nat) (s : State) : State := { s with leases := s.leases.filter fun l => l.first != first }

/-- The borrower sends a message on a lease. -/
def borrowerSend (l : Lease) (ty arg count : Nat) (s : State) : State :=
  sendTo l.peer ⟨0, 0, l.peer, l.part, leaseMsg ty arg count (leaseId s l) l.seq [], [], l.part, l.keysel⟩
    (updLease l.first (fun l => { l with seq := l.seq + 1 }) s)

/-- The borrower's lease that an incoming message names. -/
def ownLease (s : State) (m : Msg) : Option Lease :=
  let id := bF m.head 4 4
  if bits 26 12 id ≠ fabId s then none else s.leases.find? fun l => l.first == id % 4096

/-- The lease that an incoming message names, where this device is the lender. -/
def lentLease (s : State) (m : Msg) : Option Lend := s.lends.find? fun l => l.id == bF m.head 4 4

/-- An answer goes back on the port that the request came in on, under the same key. -/
def reply (port : Nat) (m : Msg) (vl : Nat) (head body : List Byte) (s : State) : State :=
  match slotOfKey s (bF m.head 208 4) with
  | some (p, k) => sendMsg port ⟨vl, vl, m.src, 16, head, body, p, k⟩ s
  | none => s

/-- LUNKNOWN: this device does not hold the lease (R236). -/
def sayUnknown (port : Nat) (m : Msg) (s : State) : State :=
  reply port m 0 (leaseMsg 8 0 0 (bF m.head 4 4) 0 []) [] s

/-! ### The borrower -/

/-- The issue checks of a LEASE (R233, R380). -/
def chkLease (s : State) (q : Nat) (b : List Byte) : Chk :=
  let op := bF b 16 1
  let slot := bF b 20 2 % 4096
  let n := bF b 22 2
  let first := rg s (pgMemP q) Fld.MEM_WIN_FIRST
  let last := first + rg s (pgMemP q) Fld.MEM_WIN_COUNT
  { violation := decide (slot < first ∨ last ≤ slot ∨ last < slot + n) || closed s q 10 ||
      (op == 0 && (jobSlot s q (bF b 24 1)).isNone)
    format := bF b 2 1 != 0 || dSR b || decide (2 ≤ op) || bF b 17 1 % 4 == 3 || bF b 17 1 / 4 != 0 ||
      (op == 0 && bF b 18 2 % 2 ^ 15 == fabId s) || bF b 18 2 / 2 ^ 15 != 0 || bF b 20 2 / 4096 != 0 || !zeroAt b 25 39 ||
      (op == 1 && !(zeroAt b 17 3 && zeroAt b 24 1))
    align := false
    shape := op == 1 && n != 0 && !(s.leases.any fun l => l.part == q && l.first == slot && l.count == n)
    capacity := decide (64 < n) || (op == 0 && (List.range (min n 4096)).any fun i => (leaseAt s (slot + i)).isSome)
    zero := n == 0 }

/-- What the issue of a LEASE does at once: an ACQUIRE's slots become PENDING, a RELEASE's RELEASING unless they are LOST
(R233, R238). -/
def leaseIssue (f : Flight) (s : State) : State :=
  let b := f.bytes
  let slot := bF b 20 2 % 4096
  if bF b 16 1 = 0 then
    { s with leases := s.leases ++ [
      { part := f.q, first := slot, count := bF b 22 2, peer := bF b 18 2 % 2 ^ 15, keysel := bF b 24 1, state := .pending,
        acq := some f.fid, rels := [], seq := 0, asked := false, lrelSent := false, detail := 0, exts := [] }] }
  else updLease slot (fun l => { l with rels := l.rels ++ [f.fid], state := if l.state = .lost then .lost else .releasing }) s

/-- A LEASE descriptor in flight, with its lease. -/
def leaseFlight (s : State) (fid op : Nat) : Option (Flight × Lease) :=
  match flightOf s fid with
  | some f =>
    if f.station = .mem ∧ f.result = none ∧ bF f.bytes 16 1 = op then
      (s.leases.find? fun l => l.acq == some fid || l.rels.contains fid).map fun l => (f, l)
    else none
  | none => none

/-- ACQUIRE: the borrower sends LREQ (R233, R235). -/
def leaseAcquire (fid : Nat) (s : State) : State :=
  match leaseFlight s fid 0 with
  | some (f, l) =>
    if l.asked then s else
    borrowerSend l 1 (bF f.bytes 17 1 % 4) l.count (updLease l.first (fun l => { l with asked := true }) s)
  | none => s

/-- A lease ends: its slots become FREE, an ACQUIRE that still waits has a code, and every RELEASE completes with OK (R235, R238). -/
def leaseEnds (l : Lease) (code : Nat) (s : State) : State :=
  l.rels.foldl (fun s fid => finish fid 0 0 s) (l.acq.toList.foldl (fun s fid => finish fid code 0 s) (freeLease l.first s))

/-- RELEASE: slots that are LOST become FREE at once, and nothing is sent (R238). -/
def leaseRelease (fid : Nat) (s : State) : State :=
  match leaseFlight s fid 1 with
  | some (_, l) => if l.state = .lost then leaseEnds l 0 s else s
  | none => s

/-- Notify the borrowing partition of a lease event (R236, R237, R337). -/
def leaseNote (kind code : Nat) (l : Lease) (s : State) : State :=
  notify l.part ⟨kind, code, 0xFF, 0, 0, 0, rg s (pgMemP l.part) Fld.PAGE_ERR_INFO_DETAIL, l.first⟩ s

/-- No descriptor issued before the RELEASE that could touch leased memory is still in flight on the lease's partition (log entry 24).
-/
def leaseQuiet (s : State) (l : Lease) : Bool :=
  !s.flights.any fun f => f.q == l.part && f.station != .tok && (f.station != .mem || l.acq == some f.fid) &&
    l.rels.head?.all fun fid => decide (f.fid < fid)

/-- The borrower sends LREL once the descriptors in flight on the slots have completed (R238). -/
def lrelSend (slot : Nat) (s : State) : State :=
  match leaseAt s slot with
  | some l =>
    if l.state = .releasing ∧ !l.lrelSent ∧ leaseQuiet s l then
      borrowerSend l 5 0 l.count (updLease l.first (fun l => { l with lrelSent := true }) s)
    else s
  | none => s

/-- LGRANT (R235). -/
def lgrantIn (port : Nat) (s : State) : State :=
  match takeMsg port 2 s with
  | some (m, s) =>
    match ownLease s m with
    | some l =>
      let exts := (List.range l.count).map fun i => bF m.head (16 + 3 * i) 3 % 2 ^ 18
      match l.acq with
      | some fid => finish fid 0 0 (updLease l.first (fun l =>
          { l with state := if l.state = .pending then .held else l.state, exts := exts, acq := none }) s)
      | none => s
    | none => s
  | none => s

/-- LREFUSE (R235). -/
def lrefuseIn (port : Nat) (s : State) : State :=
  match takeMsg port 3 s with
  | some (m, s) =>
    match ownLease s m with
    | some l => if l.acq.isSome then leaseEnds l 0x11 s else s
    | none => s
  | none => s

/-- LRELACK (R238). -/
def lrelackIn (port : Nat) (s : State) : State :=
  match takeMsg port 6 s with
  | some (m, s) =>
    match ownLease s m with
    | some l => if l.state = .releasing then leaseEnds l 0 s else s
    | none => s
  | none => s

/-- LRECL: the lease becomes RECLAIMING and the partition is notified (R237). -/
def lreclIn (port : Nat) (s : State) : State :=
  match takeMsg port 7 s with
  | some (m, s) =>
    match ownLease s m with
    | some l =>
      if l.state = .held then leaseNote 3 0 l (updLease l.first (fun l => { l with state := .reclaiming }) s) else s
    | none => s
  | none => s

/-- LRDATA: the bytes of a read of leased memory (R299). -/
def lrdataIn (port : Nat) (s : State) : State :=
  match takeMsg port 0x21 s with
  | some (m, s) =>
    match s.accs.find? fun c => c.tag == bF m.head 20 4 && !c.isWrite && !c.done with
    | some c =>
      let bs := m.body.take c.len
      let s := updFlight c.fid (fun f => { f with snap := f.snap.map fun x => putBytes memDefault x c.addr bs }) s
      { poke c.addr bs s with accs := s.accs.map fun d => if d = c then { c with done := true } else d }
    | none => s
  | none => s

/-- LWACK: the lender's memory holds a write (R239, R299). -/
def lwackIn (port : Nat) (s : State) : State :=
  match takeMsg port 0x23 s with
  | some (m, s) => { s with accs := s.accs.filter fun c => !(c.tag == bF m.head 20 4 && c.isWrite) }
  | none => s

/-! ### The lender -/

/-- The lendable extents of a kind: HBM by stacks, LPDDR by packages. -/
def lendables (s : State) (lpd : Bool) : List Nat :=
  (List.range 2048).filter fun e => isExtent e && (decide (1024 ≤ e) == lpd) && tabGet extDefault s.exts e == .lendable

/-- Round-robin over stacks or packages from the lowest, the lowest free extent of each in turn (R235). -/
def grantOrder (l : List Nat) : List Nat :=
  (List.range 64).flatMap fun i =>
    (uniq (l.map fun e => e / 64)).filterMap fun u => (l.filter fun e => e / 64 == u)[i]?

/-- The extents that an LREQ is granted: all of its count or none (R235). -/
def grantOf (s : State) (kind count : Nat) : Option (List Nat) :=
  let h := lendables s false
  let d := lendables s true
  let l := if kind = 1 then h else if kind = 2 then d else if count ≤ h.length then h else d
  if 1 ≤ count ∧ count ≤ 64 ∧ kind < 3 ∧ count ≤ l.length then some ((grantOrder l).take count) else none

/-- The lender ends a lease: its extents are overwritten with zero and become lendable again (R236, R238). -/
def lendEnd (l : Lend) (s : State) : State :=
  let s := l.exts.foldl (fun s e =>
    if tabGet extDefault s.exts e = .lent then zeroExtent e (setExt e .lendable s) else s) s
  { s with lends := s.lends.filter fun x => x.id != l.id }

/-- The lender ends a lease under R236, and counts it. -/
def lendLost (id : Nat) (s : State) : State :=
  match s.lends.find? fun l => l.id == id with
  | some l => inc pgLease Fld.MEM_LEASE_LOST 1 (lendEnd l s)
  | none => s

/-- LREQ (R235): a lease that the borrower still names as its own has ended at the borrower (log entry 25). -/
def lreqIn (port : Nat) (s : State) : State :=
  match takeMsg port 1 s with
  | some (m, s) =>
    let id := bF m.head 4 4
    let s := match lentLease s m with
      | some l => lendEnd l s
      | none => s
    match grantOf s (bF m.head 1 1) (bF m.head 2 2) with
    | some exts =>
      let s := exts.foldl (fun s e => setExt e .lent s) s
      reply port m 0 (leaseMsg 2 0 exts.length id 0 exts) []
        { s with lends := s.lends ++ [⟨id, bits 26 12 id, exts, false, 1, bF m.head 208 4⟩] }
    | none => reply port m 0 (leaseMsg 3 1 0 id 0 []) [] (inc pgLease Fld.MEM_LEASE_REFUSED 1 s)
  | none => s

/-- LKEEP (R235, R236): the lender answers it, or says that it does not hold the lease; at the borrower it is an answer. -/
def lkeepIn (port : Nat) (s : State) : State :=
  match takeMsg port 4 s with
  | some (m, s) =>
    match lentLease s m with
    | some l =>
      reply port m 0 (leaseMsg 4 0 0 l.id l.seq []) []
        { s with lends := s.lends.map fun x => if x.id = l.id then { x with seq := x.seq + 1 } else x }
    | none => if bits 26 12 (bF m.head 4 4) = fabId s then s else sayUnknown port m s
  | none => s

/-- LREL (R238): the lender ends the lease and answers LRELACK; one that it no longer holds has ended already. -/
def lrelIn (port : Nat) (s : State) : State :=
  match takeMsg port 5 s with
  | some (m, s) =>
    match lentLease s m with
    | some l => reply port m 0 (leaseMsg 6 0 0 l.id l.seq []) [] (lendEnd l s)
    | none => reply port m 0 (leaseMsg 6 0 0 (bF m.head 4 4) 0 []) [] s
  | none => s

/-- The bytes of a lent extent that an access names (R299). -/
def accTarget (l : Lend) (m : Msg) : Option (Nat × Nat) :=
  let off := bF m.head 12 4
  let len := bF m.head 16 4
  match l.exts[bF m.head 8 2]? with
  | some e =>
    if off % 32 = 0 ∧ len % 32 = 0 ∧ 32 ≤ len ∧ len ≤ 65536 ∧ off + len ≤ 2 ^ 30 then some (e * 2 ^ 30 + off, len) else none
  | none => none

/-- LRD (R299): the lender answers with LRDATA, or LUNKNOWN where it does not hold the lease. A read that its memory fails is
not answered (log entry 26); one that a retrain holds waits at its port (R241). -/
def lrdIn (port : Nat) (s : State) : State :=
  match takeMsg port 0x20 s with
  | some (m, t) =>
    match (lentLease s m).bind fun l => accTarget l m with
    | some (a, n) =>
      if heldRange s a n then s else
      let s := t
      let r := memRead .lend 0 a n s
      if r.2.isSome then r.1
      else reply port m 0 (accHead 0x21 (bF m.head 4 4) 0 0 n (bF m.head 20 4)) (padTo (ceilDiv n 256 * 256) (rdBytes s a n)) r.1
    | none => sayUnknown port m t
  | none => s

/-- LWR (R299): the lender stores the bytes and answers with LWACK, or LUNKNOWN. -/
def lwrIn (port : Nat) (s : State) : State :=
  match takeMsg port 0x22 s with
  | some (m, t) =>
    match (lentLease s m).bind fun l => accTarget l m with
    | some (a, n) =>
      if heldRange s a n then s else
      let s := t
      let r := memWrite .lend 0 0 a (m.body.take n) s
      if r.2.isSome then r.1 else reply port m 0 (accHead 0x23 (bF m.head 4 4) 0 0 0 (bF m.head 20 4)) [] r.1
    | none => sayUnknown port m t
  | none => s

/-- MEM_RECLAIM (R237): LRECL for every lease held by the peer. -/
def memReclaim (part : Nat) (data : Word) (s : State) : State :=
  if part ≠ 0 then { s with bus := (0x20, 0) } else
  let s := { s with bus := (0, 0) }
  if !bit 31 data.toNat then s else
  let peer := data.toNat % 2 ^ 15
  (s.lends.filter fun l => l.borrower == peer && !l.reclaiming).foldl (fun s l =>
    let s := { s with lends := s.lends.map fun x => if x.id = l.id then { x with reclaiming := true, seq := x.seq + 1 } else x }
    match slotOfKey s l.keyid with
    | some (p, k) => sendTo peer ⟨0, 0, peer, 16, leaseMsg 7 0 0 l.id l.seq [], [], p, k⟩ s
    | none => s) s

/-! ### The commands -/

/-- LEASE_ACQUIRE (R233). -/
def execLeaseAcquire (fid : Nat) (s : State) : Host.Outcome State Fault Refusal := .next (wh (on s) (leaseAcquire fid) s)
/-- LEASE_RELEASE (R238). -/
def execLeaseRelease (fid : Nat) (s : State) : Host.Outcome State Fault Refusal := .next (wh (on s) (leaseRelease fid) s)
/-- LREQ (R235). -/
def execLreq (port : Nat) (s : State) : Host.Outcome State Fault Refusal := .next (wh (on s) (lreqIn port) s)
/-- LGRANT (R235). -/
def execLgrant (port : Nat) (s : State) : Host.Outcome State Fault Refusal := .next (wh (on s) (lgrantIn port) s)
/-- LREFUSE (R235). -/
def execLrefuse (port : Nat) (s : State) : Host.Outcome State Fault Refusal := .next (wh (on s) (lrefuseIn port) s)
/-- LKEEP (R235). -/
def execLkeep (port : Nat) (s : State) : Host.Outcome State Fault Refusal := .next (wh (on s) (lkeepIn port) s)
/-- LREL (R238). -/
def execLrel (port : Nat) (s : State) : Host.Outcome State Fault Refusal := .next (wh (on s) (lrelIn port) s)
/-- LRELACK (R238). -/
def execLrelack (port : Nat) (s : State) : Host.Outcome State Fault Refusal := .next (wh (on s) (lrelackIn port) s)
/-- LRECL (R237). -/
def execLrecl (port : Nat) (s : State) : Host.Outcome State Fault Refusal := .next (wh (on s) (lreclIn port) s)

/-- LRD (R299). -/
def execLrd (port : Nat) (s : State) : Host.Outcome State Fault Refusal := .next (wh (on s) (lrdIn port) s)
/-- LWR (R299). -/
def execLwr (port : Nat) (s : State) : Host.Outcome State Fault Refusal := .next (wh (on s) (lwrIn port) s)

/-- Do something with the lease at a slot when it is in one of some states. -/
def withLease (slot : Nat) (l : List LeaseState) (g : Lease → State → State) (s : State) : State :=
  match leaseAt s slot with
  | some x => if l.contains x.state then g x s else s
  | none => s

/-- LEASE_ANSWER_TIMEOUT (R235). -/
def execLeaseAnswerTimeout (slot : Nat) (s : State) : Host.Outcome State Fault Refusal :=
  .next (wh (on s) (withLease slot [.pending, .releasing] fun l s => wh (l.asked && l.acq.isSome) (leaseEnds l 0x32) s) s)
/-- LEASE_KEEP_TIMER (R235). -/
def execLeaseKeepTimer (slot : Nat) (s : State) : Host.Outcome State Fault Refusal :=
  .next (wh (on s) (withLease slot [.held, .reclaiming] fun l => borrowerSend l 4 0 l.count) s)

/-- LENDER_KEEP_TIMEOUT (R236). -/
def execLenderKeepTimeout (leaseId : Nat) (s : State) : Host.Outcome State Fault Refusal :=
  .next (wh (on s) (lendLost leaseId) s)
/-- RECLAIM_GRACE_END (R237): only a lease being reclaimed ends so. -/
def execReclaimGraceEnd (leaseId : Nat) (s : State) : Host.Outcome State Fault Refusal :=
  .next (wh (on s && s.lends.any fun l => l.id == leaseId && l.reclaiming) (lendLost leaseId) s)
/-- RELEASE_LREL_SEND (R238). -/
def execReleaseLrelSend (slot : Nat) (s : State) : Host.Outcome State Fault Refusal := .next (wh (on s) (lrelSend slot) s)
/-- RELEASE_ACK_TIMEOUT (R238). -/
def execReleaseAckTimeout (slot : Nat) (s : State) : Host.Outcome State Fault Refusal :=
  .next (wh (on s) (withLease slot [.releasing] fun l s => wh l.lrelSent (leaseEnds l 0) s) s)
/-- MEM_RECLAIM (R237). -/
def execMemReclaim (part : Nat) (data : Word) (s : State) : Host.Outcome State Fault Refusal :=
  .next (wh (on s) (atDone (memReclaim part data)) s)

end Sys2Proof.Machine
end

