-- ==== Sys2Proof/Machine/Collect.lean ====
section
/-!
DEFINITION. Station COL: collectives over reduction contexts, their segments and messages, aborts and re-forms, and the group
commands (R301 to R319, R450).
-/
namespace Sys2Proof.Machine

/-! ### Groups -/

/-- The address of a group entry (R318). -/
def cgEntry (s : State) (p g : Nat) : Nat :=
  rg s (pgCol p) Fld.COL_GTAB_LO * 64 + rg s (pgCol p) Fld.COL_GTAB_HI * 2 ^ 32 + 64 * g

/-- Groups of the partition's table. -/
def cgCount (s : State) (p : Nat) : Nat := 2 ^ rg s (pgCol p) Fld.COL_GEOM_LOG2_GROUPS

/-- A field of a group entry (Table 13.25). -/
def cgF (s : State) (p g off n : Nat) : Nat := rdLE s (cgEntry s p g + off) n

/-- COL writes a field of a group entry. -/
def cgPut (p g off n v : Nat) (s : State) : State := memPut .beside p (cgEntry s p g + off) (toLE n v) s

/-- A group entry lies in memory that a retrain or a clearing holds (R228, R241). -/
def cgHeld (s : State) (p g : Nat) : Bool := heldRange s (cgEntry s p g) 64

/-- The 64 bytes of a group entry are read, with the code that the read meets (R371). -/
def cgRead (p g : Nat) (s : State) : State × Option Nat := memRead .beside p (cgEntry s p g) 64 s

/-- Groups of partition `p` that are OPEN (COL_OPEN). -/
def colOpen (s : State) (p : Nat) : Nat := (s.col.opened.filter fun x => x.1 == p).length

/-- The state with COL changed. -/
def setCol (c : Col) (s : State) : State := { s with col := c }

/-! ### The descriptor (R301 to R303) -/

/-- OP. -/
def coOp (b : List Byte) : Nat := bF b 44 1 % 4
/-- COUNT. -/
def coCount (b : List Byte) : Nat := bF b 32 4
/-- GROUP. -/
def coGroup (b : List Byte) : Nat := bF b 36 2 % 4096
/-- ROOT. -/
def coRoot (b : List Byte) : Nat := bF b 38 2
/-- The OP reduces: ALLREDUCE or REDUCE_SCATTER. -/
def coAdds (b : List Byte) : Bool := decide (coOp b ≤ 1)

/-- The wire format (Table 13.10). -/
def wireFmt (b : List Byte) : Fmt :=
  let f := (inFmt b).getD .k16
  if coAdds b then (match f with | .g16 | .gp32 => .gp32 | _ => .kp32) else f

/-- V, the elements of the vector (R301). -/
def coV (b : List Byte) (nmem : Nat) : Nat := if coOp b = 1 ∨ coOp b = 2 then nmem * coCount b else coCount b

/-- The range that a member reads (R301). -/
def coSrc (b : List Byte) (nmem rank : Nat) : Nat × Nat :=
  let w := fmtBytes ((inFmt b).getD .k16)
  (dAddr b 16, if coOp b = 1 then nmem * coCount b * w else if coOp b = 3 ∧ rank ≠ coRoot b then 0 else coCount b * w)

/-- The range that a member writes (R301). -/
def coDst (b : List Byte) (nmem : Nat) : Nat × Nat :=
  (dAddr b 24, (if coOp b = 2 then nmem * coCount b else coCount b) * fmtBytes ((outFmt b).getD .k16))

/-- The issue checks of a COLL (R302, Table 13.11). A group that was never opened is not OPEN wherever its entry would lie; an entry in
memory that the partition has lost, or in a closed target, may not be read (R231, R349). -/
def chkColl (s : State) (q : Nat) (b : List Byte) : Chk :=
  let g := coGroup b
  let known := decide (g < cgCount s q)
  let opened := s.col.opened.any fun x => x.1 == q && x.2.1 == g
  let entry := !closed s q (targetOf (cgEntry s q g)) && (!opened || ownStruct s q (cgEntry s q g) 64)
  let nmem := cgF s q g 8 2
  let rank := cgF s q g 10 2
  let src := coSrc b nmem rank
  let dst := coDst b nmem
  let reads := !(coOp b == 3 && rank != coRoot b)
  let fi := inFmt b
  let fo := outFmt b
  let four := fi == some .k16 || fi == some .g16 || fi == some .kp32 || fi == some .gp32
  { violation := closed s q 10 || (known && !entry) || (reads && !opRange s q src.1 src.2) || !opRange s q dst.1 dst.2
    format := !(if coAdds b then four && (fo == some .k16 || fo == some .g16 || fo == some (wireFmt b))
        else (four || fi == some .i16) && fo == fi) ||
      (known && (!opened || bF (rdBytes s (cgEntry s q g) 64) 0 1 % 4 != 1)) || !dAddrOk b 16 || !dAddrOk b 24 || bF b 36 2 / 4096 != 0 ||
      bF b 44 1 / 4 != 0 || !zeroAt b 45 11 || (coOp b != 3 && coRoot b != 0)
    align := (reads && src.1 % 32 != 0) || dst.1 % 32 != 0
    shape := (reads && rangesMeet src.1 src.2 dst.1 dst.2 && !(coOp b == 0 && src.1 == dst.1 && dFmt b == dOfmt b)) ||
      (known && decide (nmem ≤ coRoot b))
    capacity := !known || decide (2 ^ 36 < coV b nmem)
    zero := coCount b == 0 }

/-- Elements of a whole segment: 64 KiB of wire elements (R303). -/
def segElems (b : List Byte) : Nat := 65536 / fmtBytes (wireFmt b)

/-- A segment: the rank whose slice it cuts (0 where the whole vector is cut), its number, its first element and its element
count (R303). -/
structure Seg where
  rank : Nat
  no : Nat
  e0 : Nat
  len : Nat
deriving DecidableEq, Repr

/-- The tree that a segment travels on (R303). -/
def segTree (b : List Byte) (g : Seg) : Nat := if coOp b = 2 then (g.rank + g.no) % 2 else g.no % 2

/-- The segments of a slice of `n` elements from `e0`. -/
def cutSegs (b : List Byte) (rank e0 n : Nat) : List Seg :=
  let e := segElems b
  (List.range (ceilDiv n e)).map fun i => ⟨rank, i, e0 + i * e, min e (n - i * e)⟩

/-- The segments that a member sends up (R301, R303). -/
def ownSegs (b : List Byte) (nmem rank : Nat) : List Seg :=
  match coOp b with
  | 2 => cutSegs b rank (rank * coCount b) (coCount b)
  | 3 => if rank = coRoot b then cutSegs b 0 0 (coCount b) else []
  | _ => cutSegs b 0 0 (coV b nmem)

/-- A member receives part of a segment. -/
def segMine (b : List Byte) (rank : Nat) (g : Seg) : Bool :=
  coOp b != 1 || decide (g.e0 < (rank + 1) * coCount b ∧ rank * coCount b < g.e0 + g.len)

/-- The result segments that a member receives (R304). -/
def downSegs (b : List Byte) (nmem rank : Nat) : List Seg :=
  (if coOp b = 2 then (List.range nmem).flatMap fun r => cutSegs b r (r * coCount b) (coCount b)
    else cutSegs b 0 0 (coV b nmem)).filter (segMine b rank)

/-- An input element as it travels (R304): a pair where the OP reduces, else its bits. -/
def wireOf (b : List Byte) (m : List Host.Cell) (a : Nat) : Nat :=
  let fi := (inFmt b).getD .k16
  let w := mLE m a (fmtBytes fi)
  if coAdds b then
    let f := baseFmt (wireFmt b)
    let p := pairOf f .near (decodeElem fi w)
    pairWord f p.1 p.2.1
  else w

/-- The address of input element `e` at a member (R301). -/
def srcAt (b : List Byte) (rank e : Nat) : Nat :=
  dAddr b 16 + (if coOp b = 2 then e - rank * coCount b else e) * fmtBytes ((inFmt b).getD .k16)

/-- The address of result element `e` at a member (R301). -/
def dstAt (b : List Byte) (rank e : Nat) : Nat :=
  dAddr b 24 + (if coOp b = 1 then e - rank * coCount b else e) * fmtBytes ((outFmt b).getD .k16)

/-- A result element as it is written (R305): the word, and whether it overflowed, was clamped, is special. Overflow is judged on
the nearest-even rounding. -/
def resultOf (f : Flight) (e w : Nat) : Stored :=
  let b := f.bytes
  let fo := (outFmt b).getD .k16
  if !coAdds b then ⟨w, false, false, false⟩
  else if fo = wireFmt b then ⟨w, false, false, vIsSpecial (pairVals fo w).1⟩
  else
    let v := decodeElem (wireFmt b) w
    let near := storeElem fo false .near v
    let st := storeElem fo false (modeAt (rndOf f) e) v
    if near.overflow then near
    else if st.overflow then
      let neg : Bool := match v with
        | .fin n _ _ => n
        | _ => false
      ⟨encodeWord fo (mkVal neg (fmtMax fo neg).1 (fmtMax fo neg).2), false, true, false⟩
    else st

/-- The elements of a segment that a member writes. -/
def segOwn (b : List Byte) (rank : Nat) (g : Seg) : List Nat :=
  ((List.range g.len).map fun i => g.e0 + i).filter fun e =>
    coOp b != 1 || decide (rank * coCount b ≤ e ∧ e < (rank + 1) * coCount b)

/-- What a member writes of a segment whose wire words are `ws`. -/
def segResults (f : Flight) (rank : Nat) (g : Seg) (ws : List Nat) : List (Nat × Stored) :=
  (segOwn f.bytes rank g).map fun e => (dstAt f.bytes rank e, resultOf f e (ws.getD (e - g.e0) 0))

/-! ### Completion (R311 to R314, R319) -/

/-- A code of Table 13.13. -/
def isAbort (c : Nat) : Bool := [0x30, 0x33, 0x32, 0x41, 0x31, 0x70, 0x21, 0x22, 0x71].contains c

/-- COL gives a COLL its result: the page's error field, its counters and its events (R319, R451). -/
def colFinish (f : Flight) (code detail : Nat) (ovf : Bool) (clamped special : Nat) (s : State) : State :=
  let pg := pgCol f.q
  let ev (cls d sev v b : Nat) (s : State) : State := raiseV pg cls (if cls = 8 then 0x41 else 0) d (some f.q) sev v b s
  let s := wh (isF code) (pageErr pg code detail (some f.q)) s
  let s := wh (!isF code) (inc pg Fld.COL_DONE 1) s
  let s := wh (isAbort code) (inc pg Fld.COL_ABORTED 1) s
  let s := wh (code == 0x30) (inc pg Fld.COL_TIMEOUTS 1) s
  let s := wh (code == 0x33) (inc pg Fld.COL_SEQMIS 1) s
  let s := wh ovf (ev 0x08 (dOfmt f.bytes) 1 0 0) s
  let s := wh (decide (0 < clamped)) (ev 0x09 3 0 clamped (binLog clamped)) s
  let s := wh (decide (0 < special)) (ev 0x0A 1 0 special (binLog special)) s
  finish f.fid code detail s

/-- The destination region is left undefined (R313). -/
def colUndefined (f : Flight) (nmem : Nat) (s : State) : State := scramble (coDst f.bytes nmem).1 (coDst f.bytes nmem).2 s

/-! ### Messages (Table 13.12) -/

/-- The header of a collective message. -/
def colHead (s : State) (c : ColCtx) (mt tree : Nat) (rest : List Byte) : List Byte :=
  padTo 208 (toLE 1 mt ++ toLE 1 tree ++ toLE 2 (fabId s) ++ toLE 4 c.fgid ++ toLE 4 c.gseq ++ toLE 4 c.epoch ++ rest)

/-- The port of a tree. -/
def treePort (c : ColCtx) (tree : Nat) : Nat := if tree = 0 then c.port0 else c.port1

/-- A member sends a collective message on a tree. -/
def colSend (c : ColCtx) (mt tree : Nat) (rest body : List Byte) (s : State) : State :=
  let l := laneOf mt
  sendMsg (treePort c tree) ⟨l, l, 0, 32 + c.ctx, colHead s c mt tree rest, body, c.part, c.keysel⟩ s

/-- ABORT toward the arbiter, once (R313). -/
def colAbort (c : ColCtx) (code detail : Nat) (s : State) : State :=
  let rest := toLE 8 0 ++ toLE 4 c.rank ++ toLE 12 0 ++ toLE 4 code ++ toLE 4 detail
  colSend c 0x14 0 rest [] s

/-- Change a context. -/
def updCtx (n : Nat) (g : ColCtx → ColCtx) (s : State) : State :=
  setCol { s.col with ctxs := s.col.ctxs.map fun c => if c.ctx = n then g c else c } s

/-- A context is freed. -/
def freeCtx (n : Nat) (s : State) : State := setCol { s.col with ctxs := s.col.ctxs.filter fun c => c.ctx != n } s

/-- The context and its descriptor. -/
def ctxOf (s : State) (n : Nat) : Option (ColCtx × Flight) :=
  (s.col.ctxs.find? fun c => c.ctx == n).bind fun c => (flightOf s c.fid).map fun f => (c, f)

/-- The context that an incoming message belongs to (Table 13.12). -/
def ctxFor (s : State) (port : Nat) (m : Msg) : Option (ColCtx × Flight) :=
  (s.col.ctxs.find? fun c => c.nmem != 1 && c.fgid == bF m.head 4 4 && c.gseq == bF m.head 8 4 && c.epoch == bF m.head 12 4 &&
    treePort c (bF m.head 1 1 % 2) == port).bind fun c => (flightOf s c.fid).map fun f => (c, f)

/-- A write of the descriptor to leased memory is not acknowledged (R239). -/
def unacked (s : State) (fid : Nat) : Bool := s.accs.any fun a => a.fid == fid && a.isWrite && !a.done

/-- Every result element is written, and leased memory holds those that lie in it: DONE goes up tree 0 (R239, R311). -/
def colDone (n : Nat) (s : State) : State :=
  match ctxOf s n with
  | some (c, f) =>
    if c.nmem = 1 ∨ c.doneSent ∨ c.abortSent ∨ unacked s c.fid ∨ !(downSegs f.bytes c.nmem c.rank).all (fun g => c.got.contains (g.rank, g.no)) then s
    else colSend c 0x13 0 (toLE 8 0 ++ toLE 4 c.rank) [] (updCtx n (fun c => { c with doneSent := true }) s)
  | none => s

/-- DONE of every collective whose last results have been acknowledged. -/
def colDones (s : State) : State := s.col.ctxs.foldl (fun s c => colDone c.ctx s) s

/-- The member completes with a code, sends END where a verdict has come, and frees its context (R311). -/
def colEnd (c : ColCtx) (f : Flight) (code detail : Nat) (verdict : Bool) (s : State) : State :=
  let s := wh (isF code) (colUndefined f c.nmem) s
  let s := colFinish f code detail (c.ovf && code == 0x41) (if isF code then 0 else c.clamped) (if isF code then 0 else c.special) s
  let rest := toLE 8 0 ++ toLE 4 c.rank
  let s := wh verdict (fun s => colSend c 0x16 1 rest [] (colSend c 0x16 0 rest [] s)) s
  freeCtx c.ctx s

/-- A member meets a cause of abort: it sends ABORT and remembers its own code (R313). A collective of one member completes at
once (R310). -/
def colCause (n code own detail : Nat) (s : State) : State :=
  match ctxOf s n with
  | some (c, f) =>
    if c.nmem = 1 then colEnd c f (if own = 0 then code else own) detail false s
    else if c.abortSent then s else
    colAbort c code detail (updCtx n (fun c => { c with abortSent := true, own := own }) s)
  | none => s

/-! ### Start (R307, R310) -/

/-- COL takes over a COLL (R301, R307): it waits for a context. -/
def collTake (fid : Nat) (s : State) : State :=
  match flightOf s fid with
  | some f =>
    if f.station = .col ∧ f.work = .none ∧ f.result = none then
      updFlight fid (fun f => { f with work := .coll }) (setCol { s.col with waiting := s.col.waiting ++ [fid] } s)
    else s
  | none => s

/-- The partition of a waiting COLL. -/
def partOf (s : State) (fid : Nat) : Nat := ((flightOf s fid).map Flight.q).getD 0

/-- The COLL that is served next: round-robin by partition, in issue order within one (R307). One whose group entry is held by a
retrain or a clearing holds up no other. -/
def nextColl (s : State) : Option Nat :=
  (s.col.waiting.filter fun fid => !((flightOf s fid).any fun f => cgHeld s f.q (coGroup f.bytes))).foldl (fun (b : Option Nat) fid => match b with
    | none => some fid
    | some x =>
      let t (y : Nat) := (partOf s y + 15 - s.col.lastPart) % 16
      if t fid < t x then some fid else some x) none

/-- The context of a COLL of a group of one member. -/
def localCtx (s : State) (fid : Nat) : Option ColCtx := s.col.ctxs.find? fun c => c.fid == fid && c.nmem == 1

/-- A COLL of a group of one member runs wholly on the device (R310). -/
def colLocal (c : ColCtx) (f : Flight) (s : State) : State :=
  let b := f.bytes
  let src := coSrc b 1 c.rank
  if mustWait s f.fid [src] [coDst b 1] then noteWait f.fid [src] [coDst b 1] s else
  let r := memRead .beside f.q src.1 src.2 (proceed f.fid s)
  match r.2 with
  | some code => colEnd c f code 0 false r.1
  | none =>
    let rs := (List.range (coCount b)).map fun e =>
      (dstAt b 0 e, resultOf f e (wireOf b s.mem (srcAt b 0 e)))
    let sp := (rs.filter fun x => x.2.special).length
    let cl := (rs.filter fun x => x.2.saturated).length
    if rs.any fun x => x.2.overflow then colEnd { c with ovf := true } f 0x41 0 false r.1
    else
      let y := writeAll .beside f.q f.fid (joinWrites (rs.map fun x => (x.1, toLE (fmtBytes ((outFmt b).getD .k16)) x.2.word))) r.1
      colEnd { c with clamped := cl, special := sp } f (y.2.getD (if coCount b = 0 then 0x01 else 0)) 0 false y.1

/-- The partner on a tree port can reduce the group's collectives (R310). -/
def treeOk (s : State) (b : List Byte) (p : Nat) : Bool :=
  match (portOf s p).partner with
  | some t => t.kind == 2 && t.segs != 0 &&
    (!coAdds b || (if wireFmt b = .gp32 then bit 1 t.caps else bit 0 t.caps))
  | none => false

/-- The lowest free context. -/
def freeCtxNo (s : State) : Option Nat := firstBelow 64 fun n => !s.col.ctxs.any fun c => c.ctx == n

/-- A COLL starts at COL (R310): `n` is its context. -/
def colStart (f : Flight) (n : Nat) (s : State) : State :=
  let b := f.bytes
  let p := f.q
  let g := coGroup b
  let r := cgRead p g s
  let s := r.1
  let e := rdBytes s (cgEntry s p g) 64
  if r.2.isSome then colFinish f (r.2.getD 0) 0 false 0 0 s
  else if bF e 0 1 % 4 ≠ 1 then colFinish f 0x13 0 false 0 0 s
  else if bF b 40 4 ≠ bF e 16 4 then colFinish f 0x33 0x0010 false 0 0 s
  else
    let nmem := bF e 8 2
    if nmem ≠ 1 ∧ !(treeOk s b (bF e 12 1 % 16) && treeOk s b (bF e 13 1 % 16)) then colFinish f 0x32 0x0001 false 0 0 s
    else
      let c : ColCtx :=
        { ctx := n, fid := f.fid, part := p, group := g, fgid := bF e 4 4 % 2 ^ 20, gseq := bF b 40 4, epoch := bF e 20 4,
          nmem := nmem, rank := bF e 10 2, port0 := bF e 12 1 % 16, port1 := bF e 13 1 % 16, timeoutMs := bF e 2 2,
          reform := bit 0 (bF e 1 1), keysel := bF e 14 1, sent := [0, 0], inflight := [], got := [], doneSent := false,
          abortSent := false, own := 0, ovf := false, clamped := 0, special := 0 }
      let rest := toLE 1 (coOp b) ++ toLE 1 (fmtCode (wireFmt b)) ++ toLE 2 (dOfmt b) ++ toLE 4 (coCount b) ++ toLE 2 c.rank ++
        toLE 2 nmem ++ toLE 2 (coRoot b) ++ toLE 2 c.timeoutMs
      let s := cgPut p g 16 4 (bF e 16 4 + 1) s
      let s := setCol { s.col with ctxs := s.col.ctxs ++ [c] } s
      if nmem = 1 then s else colDone n (colSend c 0x10 1 rest [] (colSend c 0x10 0 rest [] s))

/-- A COLL whose turn it is takes a free context and starts (R307, R310). A COLL of one member that has its context runs. -/
def collStart (fid : Nat) (s : State) : State :=
  match flightOf s fid, localCtx s fid, freeCtxNo s with
  | some f, some c, _ => colLocal c f s
  | some f, none, some n =>
    if nextColl s ≠ some fid then s else
    let t := colStart f n s
    setCol { t.col with waiting := t.col.waiting.filter fun x => x != fid, lastPart := f.q } t
  | _, _, _ => s

/-! ### Segments (R303 to R308) -/

/-- The window of a tree (R308). -/
def colWindow (s : State) (c : ColCtx) (tree : Nat) : Nat :=
  match (portOf s (treePort c tree)).partner with
  | some t => min 16 t.segs
  | none => 0

/-- The member sends its next segment up a tree, once its source is read and the window allows (R308). -/
def segSend (n tree : Nat) (s : State) : State :=
  match ctxOf s n with
  | some (c, f) =>
    let b := f.bytes
    let own := (ownSegs b c.nmem c.rank).filter fun g => segTree b g == tree
    match own[c.sent.getD tree 0]? with
    | none => s
    | some g =>
      let a := srcAt b c.rank g.e0
      let len := g.len * fmtBytes ((inFmt b).getD .k16)
      if c.abortSent ∨ 2 ≤ tree ∨ colWindow s c tree ≤ (c.inflight.filter fun x => x.1 == tree).length then s
      else if mustWait s f.fid [(a, len)] [] then noteHeld f.fid [(a, len)] s
      else
        let r := memRead .beside f.q a len (proceed f.fid s)
        match r.2 with
        | some code => colCause n 0x31 code 0 r.1
        | none =>
          let s := r.1
          let wb := fmtBytes (wireFmt b)
          let body := (List.range g.len).flatMap fun i => toLE wb (wireOf b s.mem (srcAt b c.rank (g.e0 + i)))
          let rest := toLE 8 0 ++ toLE 4 (if coOp b = 2 then c.rank else 0) ++ toLE 4 0 ++ toLE 4 g.no ++ toLE 4 g.len
          let s := updCtx n (fun c => { c with
            sent := c.sent.set tree (c.sent.getD tree 0 + 1)
            inflight := if segMine b c.rank g then c.inflight ++ [(tree, g.no)] else c.inflight }) s
          colSend c 0x11 tree rest (padTo (ceilDiv body.length 256 * 256) body) s
  | none => s

/-- What a member writes of the words of a segment: the runs of result bytes (R305). -/
def segWrites (b : List Byte) (rs : List (Nat × Stored)) : List (Nat × List Byte) :=
  joinWrites (rs.map fun x => (x.1, toLE (fmtBytes ((outFmt b).getD .k16)) x.2.word))

/-- A result segment arrives (R305): its elements are written. One whose place is held by a retrain or a clearing waits at its
port. -/
def segDown (port : Nat) (s : State) : State :=
  match takeMsg port 0x12 s with
  | some (m, t) =>
    match ctxFor s port m with
    | some (c, f) =>
      let b := f.bytes
      let rank := if coOp b = 2 then bF m.head 24 2 else 0
      match (downSegs b c.nmem c.rank).find? fun g => g.rank == rank && g.no == bF m.head 32 4 with
      | some g =>
        if segTree b g ≠ bF m.head 1 1 % 2 ∨ g.len ≠ bF m.head 36 4 ∨ c.got.contains (g.rank, g.no) ∨ c.abortSent then t else
        let rs := segResults f c.rank g (wordsOf (fmtBytes (wireFmt b)) m.body)
        let ws := segWrites b rs
        let tree := segTree b g
        let wr := ws.map fun x => (x.1, x.2.length)
        if mustWait s f.fid [] wr then noteWait f.fid [] wr s else
        let s := updCtx c.ctx (fun c => { c with
          got := (g.rank, g.no) :: c.got
          inflight := if coOp b = 2 ∧ g.rank ≠ c.rank then c.inflight else c.inflight.erase (tree, g.no)
          clamped := c.clamped + (rs.filter fun x => x.2.saturated).length
          special := c.special + (rs.filter fun x => x.2.special).length }) (proceed f.fid t)
        if rs.any fun x => x.2.overflow then
          colCause c.ctx 0x41 0 0 (updCtx c.ctx (fun c => { c with ovf := true }) s)
        else
          let y := writeAll .beside f.q f.fid ws s
          match y.2 with
          | some code => colCause c.ctx 0x31 code 0 y.1
          | none => colDone c.ctx y.1
      | none => t
    | none => t
  | none => s

/-! ### Verdicts (R311 to R314) -/

/-- A re-form: the group entry loses a member (R314). -/
def colReform (c : ColCtx) (lost : Nat) (s : State) : State :=
  let p := c.part
  let g := c.group
  let s := cgPut p g 8 2 (cgF s p g 8 2 - 1) s
  let rank := cgF s p g 10 2
  let s := cgPut p g 10 2 (if lost < rank then rank - 1 else rank) s
  inc (pgCol p) Fld.COL_REFORMS 1 (cgPut p g 20 4 (cgF s p g 20 4 + 1) s)

/-- A VERDICT arrives on tree 0 (R311, R313, R314). One that changes a group entry held by a retrain or a clearing waits at its
port. -/
def verdictIn (port : Nat) (s : State) : State :=
  match takeMsg port 0x15 s with
  | some (m, t) =>
    match ctxFor s port m with
    | some (c, f) =>
      let code := bF m.head 40 1
      let lost := bF m.head 42 2
      if c.reform && cgHeld s c.part c.group then s else
      let s := t
      if bF m.head 1 1 % 2 ≠ 0 then s
      else if code = 0 then colEnd c f (if coCount f.bytes = 0 then 0x01 else 0) 0 true s
      else if code = 0x32 ∧ c.reform ∧ lost ≠ 0xFFFF then colEnd c f 0x32 0x0003 true (colReform c lost s)
      else if c.own ≠ 0 then colEnd c f c.own 0 true s
      else colEnd c f code (if code = 0x33 then 0x0011 else 0) true s
    | none => t
  | none => s

/-- No verdict within 2 × TIMEOUT_MS of START (R313); a COLL of one member has sent none. -/
def verdictTimeout (n : Nat) (s : State) : State :=
  match ctxOf s n with
  | some (c, f) => if c.nmem = 1 then s else colEnd c f 0x32 0x0002 false s
  | none => s

/-! ### A descriptor that ends under way (R236, R313, R417) -/

/-- A descriptor in flight ends with a code under way. A collective that has started sends ABORT and completes on the verdict, with
its own code (R311, R313; log entry 113); COL takes note of one that waits (R319). -/
def endFlight (fid code detail : Nat) (s : State) : State :=
  match s.col.ctxs.find? fun c => c.fid == fid with
  | some c => { colCause c.ctx 0x31 code detail s with accs := s.accs.filter fun a => a.fid != fid }
  | none =>
    match flightOf s fid with
    | some f => if f.station = .col ∧ f.result = none then abandon fid code detail (colFinish f code detail false 0 0 s)
      else abandon fid code detail s
    | none => abandon fid code detail s

/-- The borrower marks a lease LOST (R236): accesses in flight complete with MEMBER_LOST. -/
def leaseLost (l : Lease) (detail : Nat) (s : State) : State :=
  let open_ := uniq ((s.accs.filter fun c => c.first == l.first && !c.done).map LeaseAcc.fid)
  let s := { s with lostFids := s.lostFids ++ (open_.filter fun fid => (flightOf s fid).isNone).map fun fid => (fid, 0x32) }
  let s := open_.foldl (fun s fid => endFlight fid 0x32 0 s) s
  if l.state ≠ .held ∧ l.state ≠ .reclaiming then s else
  let s := updLease l.first (fun l => { l with state := .lost, detail := detail }) s
  leaseNote 2 0x32 l (pageErr (pgMemP l.part) 0x32 detail (some l.part) (inc pgLease Fld.MEM_LEASE_LOST 1 s))

/-- Every lease in force to whose lender no fabric route is left is LOST (R236). -/
def routesLost (s : State) : State :=
  (s.leases.filter fun l => (l.state == .held || l.state == .reclaiming) && (route s l.peer).isNone).foldl
    (fun s l => leaseLost l 1 s) s

/-- LUNKNOWN (R236): a reclaimed lease is known to be one; of another the message does not say why (log entry 19). -/
def lunknownIn (port : Nat) (s : State) : State :=
  match takeMsg port 8 s with
  | some (m, s) =>
    match ownLease s m with
    | some l =>
      if l.state = .reclaiming then leaseLost l 2 s
      else leaseLost l (if Config.lentFailed s.freeCtr then 3 else 1) (tickFree s)
    | none => s
  | none => s

/-! ### Commands (R318, R450) -/

/-- The result of a COL command. -/
def colResult (p code : Nat) (s : State) : State :=
  st (pgCol p) Fld.COL_CMD_STAT_CODE code (st (pgCol p) Fld.COL_CMD_STAT_BUSY 0 s)

/-- A group becomes UNUSED and its fabric group id free; its entry says so wherever it can be reached (R318, R450). -/
def groupClose (p g : Nat) (s : State) : State :=
  let s := wh (ownStruct s p (cgEntry s p g) 64) (cgPut p g 0 1 0) s
  setCol { s.col with opened := s.col.opened.filter fun x => !(x.1 == p && x.2.1 == g) } s

/-- Every OPEN group of a partition is closed (R450). -/
def colCloseAll (p : Nat) (s : State) : State :=
  (s.col.opened.filter fun x => x.1 == p).foldl (fun s x => groupClose p x.2.1 s) s

/-- An OPEN has written the entry. -/
def groupOpened (p g fgid : Nat) (y : State × Option Nat) : State :=
  match y.2 with
  | some c => colResult p c y.1
  | none => colResult p 0 (setCol { y.1.col with opened := y.1.col.opened ++ [(p, g, fgid)] } y.1)

/-- OPEN (Table 13.26), the entry having been read. -/
def groupOpen (p g : Nat) (s : State) : State :=
  let e := rdBytes s (cgEntry s p g) 64
  let nmem := bF e 8 2
  let fgid := bF e 4 4
  let c : Chk := { chkNone with
    violation := (jobSlot s p (bF e 14 1)).isNone
    format := bF e 0 1 / 4 != 0 || bF e 1 1 / 2 != 0 || bF e 2 2 == 0 || fgid / 2 ^ 20 != 0 || decide (nmem < 1 ∨ 32768 < nmem) ||
      decide (nmem ≤ bF e 10 2) || bF e 12 1 / 16 != 0 || bF e 13 1 / 16 != 0 || (decide (1 < nmem) && bF e 12 1 == bF e 13 1) ||
      !zeroAt e 15 1 || !zeroAt e 24 40 || s.col.opened.any fun x => x.2.2 == fgid }
  if bF e 0 1 % 4 ≠ 0 then colResult p 0x13 s
  else if chkCode c ≠ 0 then colResult p (chkCode c) s
  else groupOpened p g fgid (writeAll .beside p 0 [(cgEntry s p g + 16, toLE 8 0), (cgEntry s p g, toLE 1 1)] s)

/-- The contexts of a group in use. -/
def groupCtxs (s : State) (p g : Nat) : List ColCtx := s.col.ctxs.filter fun c => c.part == p && c.group == g

/-- A command of COL waits: for its group's contexts, or for memory that a retrain or a clearing holds (R241, R318). -/
def colPark (p op g : Nat) (s : State) : State := setCol { s.col with closing := s.col.closing ++ [(p, op, g)] } s

/-- A command whose operation and group have been accepted (R318). -/
def colDo (p op g : Nat) (s : State) : State :=
  if !ownStruct s p (cgEntry s p g) 64 then colResult p 0x20 s
  else if cgHeld s p g then colPark p op g s
  else
    let r := cgRead p g s
    let s := r.1
    match r.2 with
    | some c => colResult p c s
    | none =>
      if op = 1 then groupOpen p g s
      else if cgF s p g 0 1 % 4 = 0 then colResult p 0x13 s
      else if op = 2 then
        (if (groupCtxs s p g).isEmpty then colResult p 0 (groupClose p g s) else colPark p op g s)
      else colResult p 0 ((groupCtxs s p g).foldl (fun s c => colCause c.ctx 0x31 0 0 s) s)

/-- A write of COL_CMD by the partition (R318, R175). -/
def colCommand (p op g : Nat) (s : State) : State :=
  let pg := pgCol p
  if rg s pg Fld.COL_CMD_STAT_BUSY = 1 then st pg Fld.COL_CMD_STAT_IGNORED 1 s
  else
    let s := st pg Fld.COL_CMD_STAT_BUSY 1 s
    if op = 0 ∨ 4 ≤ op then colResult p 0x13 s
    else if partState s p = .torn then colResult p 0x71 s
    else if cgCount s p ≤ g then colResult p 0x11 s
    else colDo p op g s

/-- A command that waited is taken up again: a CLOSE completes once no context of its group is in use (R318). -/
def colReleased (p : Nat) (s : State) : State :=
  match s.col.closing.find? fun x => x.1 == p with
  | some (_, op, g) => colDo p op g (setCol { s.col with closing := s.col.closing.filter fun x => x.1 != p } s)
  | none => s

/-- A partition commands its own COL page (R317). -/
def colRow (part op g : Nat) (s : State) : State :=
  if 16 ≤ part then { s with bus := (0x20, 0) } else { colCommand part op g s with bus := (0, 0) }

/-- COLL (R301). -/
def execColl (fid : Nat) (s : State) : Host.Outcome State Fault Refusal := .next (wh (on s) (collTake fid) s)
/-- COLL_START (R310). -/
def execCollStart (fid : Nat) (s : State) : Host.Outcome State Fault Refusal := .next (wh (on s) (collStart fid) s)
/-- SEGMENT_SEND (R308). -/
def execSegmentSend (ctx tree : Nat) (s : State) : Host.Outcome State Fault Refusal := .next (wh (on s) (segSend ctx tree) s)
/-- SEG_DOWN (R305). -/
def execSegDown (port : Nat) (s : State) : Host.Outcome State Fault Refusal := .next (wh (on s) (segDown port) s)
/-- VERDICT (R311). -/
def execVerdict (port : Nat) (s : State) : Host.Outcome State Fault Refusal := .next (wh (on s) (verdictIn port) s)
/-- COLL_VERDICT_TIMEOUT (R313). -/
def execCollVerdictTimeout (ctx : Nat) (s : State) : Host.Outcome State Fault Refusal := .next (wh (on s) (verdictTimeout ctx) s)
/-- COL_CMD_OPEN (R318). -/
def execColCmdOpen (part group : Nat) (s : State) : Host.Outcome State Fault Refusal := .next (wh (on s) (atDone (colRow part 1 group)) s)
/-- COL_CMD_CLOSE (R318). -/
def execColCmdClose (part group : Nat) (s : State) : Host.Outcome State Fault Refusal := .next (wh (on s) (atDone (colRow part 2 group)) s)
/-- COL_CMD_ABORT (R318). -/
def execColCmdAbort (part group : Nat) (s : State) : Host.Outcome State Fault Refusal := .next (wh (on s) (atDone (colRow part 3 group)) s)
/-- COL_CLOSE_RELEASED (R318). -/
def execColCloseReleased (part : Nat) (s : State) : Host.Outcome State Fault Refusal := .next (wh (on s) (colReleased part) s)

end Sys2Proof.Machine
end

