-- ==== Sys2Proof/Machine/Kvs.lean ====
section
/-!
DEFINITION. The KV page unit: streams, page tables, KVAPP, ATTN and the KVS commands (chapter 07).
-/
namespace Sys2Proof.Machine

/-! ### Tables in memory -/

/-- The KV pool of a partition. -/
def kv (s : State) (p : Nat) : Kvs := tabGet kvsDefault s.kvs p

/-- The state with a pool changed. -/
def setKv (p : Nat) (k : Kvs) (s : State) : State := { s with kvs := tabSet kvsDefault s.kvs p k }

/-- DH of a partition (R151). -/
def kvDH (s : State) (p : Nat) : Nat := 16 * (rg s (pgKvs p) Fld.KVS_GEOM_DH_CODE + 1)

/-- Entries of the stream table (R153). -/
def kvStreams (s : State) (p : Nat) : Nat := 2 ^ rg s (pgKvs p) Fld.KVS_GEOM_LOG2_STREAMS

/-- The address of a stream entry (R153). -/
def kvEntry (s : State) (p t : Nat) : Nat :=
  rg s (pgKvs p) Fld.KVS_STAB_LO * 64 + rg s (pgKvs p) Fld.KVS_STAB_HI * 2 ^ 32 + 64 * t

/-- `n` bytes at `off` of a stream entry. -/
def kvF (s : State) (p t off n : Nat) : Nat := rdLE s (kvEntry s p t + off) n

/-- KVS writes `n` bytes at `off` of a stream entry. -/
def kvPut (p t off n v : Nat) (r : Try) : Try := tryWrite .beside p (kvEntry r.1 p t + off) (toLE n v) r

/-- KVS reads a stream entry. -/
def kvRead (p t : Nat) (r : Try) : Try := tryRead .beside p (kvEntry r.1 p t) 64 r

/-- STATE of a stream. -/
def kvState (s : State) (p t : Nat) : Nat := kvF s p t 0 1 % 4
/-- H. -/
def kvH (s : State) (p t : Nat) : Nat := kvF s p t 1 1 % 16 + 1
/-- LENGTH. -/
def kvLength (s : State) (p t : Nat) : Nat := kvF s p t 12 4
/-- BUDGET. -/
def kvBudget (s : State) (p t : Nat) : Nat := kvF s p t 8 4
/-- HELD. -/
def kvHeld (s : State) (p t : Nat) : Nat := kvF s p t 16 4
/-- POOLHELD. -/
def kvPoolHeld (s : State) (p t : Nat) : Nat := kvF s p t 20 4
/-- DIR. -/
def kvDir (s : State) (p t : Nat) : Nat := kvF s p t 24 6
/-- The stream token and its enable. -/
def kvSig (s : State) (p t : Nat) : Nat := kvF s p t 32 2

/-- The directory entry for an entry index. -/
def kvDirEntry (s : State) (p t e : Nat) : Nat := rdLE s (kvDir s p t + 8 * (e / 512)) 8

/-- The address of a leaf entry, where the directory names its leaf table (R155). -/
def kvLeafAt (s : State) (p t e : Nat) : Option Nat :=
  let d := kvDirEntry s p t e
  if bit 0 d then some (bits 47 12 d * 4096 + 8 * (e % 512)) else none

/-- A leaf entry; 0, a hole, where there is none. -/
def kvLeaf (s : State) (p t e : Nat) : Nat :=
  match kvLeafAt s p t e with
  | some a => rdLE s a 8
  | none => 0

/-- The frame of a leaf entry. -/
def leafFrame (l : Nat) : Nat := bits 47 9 l * 512

/-- KVS writes a leaf entry. -/
def kvLeafPut (p t e v : Nat) (r : Try) : Try :=
  match kvLeafAt r.1 p t e with
  | some a => tryWrite .beside p a (toLE 8 v) r
  | none => r

/-- A place in the look-aside buffer is taken for a translation (R157). -/
def labTake (p t e : Nat) (s : State) : State :=
  let l := if s.lab.length < 256 then s.lab ++ [(p, t, e)] else s.lab.set (Config.labVictim s.freeCtr).toNat (p, t, e)
  tickFree { s with lab := l }

/-- The walk of a miss: the directory entry, then the leaf entry where there is one (R157). -/
def kvWalk (p t e : Nat) (r : Try) : Try :=
  let s := r.1
  let r := tryRead .beside p (kvDir s p t + 8 * (e / 512)) 8 r
  match kvLeafAt s p t e with
  | some a => tryDo (labTake p t e) (tryRead .beside p a 8 r)
  | none => r

/-- A translation through the look-aside buffer, of every leaf entry that KVS reads or writes for an operation (R157; log
entry 121): a hit, or a miss with its walk. -/
def kvLook (p t e : Nat) (r : Try) : Try :=
  if r.1.lab.contains (p, t, e) then tryDo (inc (pgKvs p) Fld.KVS_LAB_HIT 1) r
  else tryDo (inc (pgKvs p) Fld.KVS_LAB_MISS 1) (kvWalk p t e r)

/-- Several translations. -/
def kvLooks (p t : Nat) (es : List Nat) (r : Try) : Try := es.foldl (fun r e => kvLook p t e r) r

/-- The address of dimension `d` of position `t` of a page: K, or V above it (R152). -/
def kvElem (dh frame t d : Nat) (v : Bool) : Nat :=
  frame + 512 * (t / 16 * (dh / 16) + d / 16) + (t % 16 * 16 + d % 16) * 2 + (if v then 512 * dh else 0)

/-! ### References (R168) -/

/-- The stream of item `n` of an ATTN, and its range. -/
def atItem (f : Flight) (n : Nat) : Nat × Nat × Nat :=
  (bF f.cap.list (16 * n) 2, bF f.cap.list (16 * n + 4) 4, bF f.cap.list (16 * n + 8) 4)

/-- ITEMS of an ATTN. -/
def atItems (b : List Byte) : Nat := bF b 24 4

/-- The ATTN holds references (R168). -/
def atHolds (f : Flight) : Bool :=
  match f.work with
  | .attn w => w.captured
  | _ => false

/-- An ATTN in flight references the stream. -/
def kvReferenced (s : State) (p t : Nat) : Bool :=
  s.flights.any fun f => f.q == p && atHolds f && (List.range (atItems f.bytes)).any fun n => (atItem f n).1 == t

/-! ### Page sources (R161, R162) -/

/-- The last logical page of a stream; its pages are not eligible. -/
def kvLast (s : State) (p t : Nat) : Nat := (kvLength s p t - 1) / 256

/-- A page may be evicted (R161): unreferenced, not in the last logical page, not acquired by this item. -/
def kvEligible (s : State) (p : Nat) (acq : List (Nat × Nat)) (t e : Nat) : Bool :=
  !kvReferenced s p t && decide (e / kvH s p t < kvLast s p t) && !acq.contains (t, e) && bit 0 (kvLeaf s p t e)

/-- A page leaves its stream: VALID := 0, HELD and POOLHELD fall. -/
def kvDrop (p t e : Nat) (r : Try) : Try :=
  let r := kvLook p t e (kvRead p t r)
  let l := kvLeaf r.1 p t e
  let r := kvPut p t 16 4 (kvHeld r.1 p t - 1) (kvLeafPut p t e (l - l % 2) r)
  let r := if bit 1 l then kvPut p t 20 4 (kvPoolHeld r.1 p t - 1) r else r
  tryDo (fun s => setKv p { kv s p with pool := (kv s p).pool.filter fun x => x != (t, e) } s) r

/-- The eligible page of a stream with the lowest score; ties go to the lowest page, then the lowest head (R161). -/
def kvByScore (s : State) (p t : Nat) (acq : List (Nat × Nat)) : Option Nat :=
  ((List.range (kvLast s p t * kvH s p t)).filter fun e => kvEligible s p acq t e).foldl (fun (b : Option Nat) e =>
    match b with
    | some x => if kvLeaf s p t e / 2 ^ 48 < kvLeaf s p t x / 2 ^ 48 then some e else some x
    | none => some e) none

/-- The stream's own eviction by score comes into question (R161). -/
def kvScores (s : State) (p t : Nat) : Bool :=
  bit 0 (kvF s p t 2 1) && decide (kvBudget s p t ≤ kvHeld s p t - kvPoolHeld s p t) && !kvReferenced s p t

/-- The frame for one new page, from the first source that yields one (R161). -/
def kvFrame (p t : Nat) (acq : List (Nat × Nat)) (r : Try) : Option (Try × Nat) :=
  let s := r.1
  match (kv s p).free with
  | a :: l => some (tryDo (fun s => setKv p { kv s p with free := l } s) r, a)
  | [] =>
    let r := if kvScores s p t then kvLooks p t (List.range (kvLast s p t * kvH s p t)) r else r
    match if kvScores s p t then kvByScore s p t acq else none with
    | some e => some (tryDo (inc (pgKvs p) Fld.KVS_EVICT_SCORE 1) (kvDrop p t e r), leafFrame (kvLeaf s p t e))
    | none =>
      match (kv s p).pool.find? fun x => kvEligible s p acq x.1 x.2 with
      | some (t', e) => some (tryDo (inc (pgKvs p) Fld.KVS_EVICT_AGE 1) (kvDrop p t' e r), leafFrame (kvLeaf s p t' e))
      | none => none

/-- A new page of a stream at an entry index (R161). -/
def kvNewPage (p t e : Nat) (acq : List (Nat × Nat)) (r : Try) : Option Try :=
  match kvFrame p t acq r with
  | none => none
  | some (r, a) =>
    let s := r.1
    let pool := decide (kvBudget s p t ≤ kvHeld s p t - kvPoolHeld s p t)
    let r := kvLeafPut p t e (kvF s p t 6 2 * 2 ^ 48 + a + (if pool then 2 else 0) + 1) r
    let r := kvPut p t 16 4 (kvHeld s p t + 1) r
    some (if pool then
      tryDo (fun s => setKv p { kv s p with pool := (kv s p).pool ++ [(t, e)] } s) (kvPut p t 20 4 (kvPoolHeld s p t + 1) r) else r)

/-- The pages for all heads of a logical page, or none of them (R161, R162). -/
def kvAcquire (p t lp : Nat) (s : State) : Option Try :=
  let h := kvH s p t
  ((List.range h).foldl (fun (r : Option (Try × List (Nat × Nat))) i =>
    match r with
    | some (r, acq) => match kvNewPage p t (lp * h + i) acq r with
      | some r' => some (r', acq ++ [(t, lp * h + i)])
      | none => none
    | none => none) (some ((s, none), []))).map Prod.fst

/-! ### KVAPP (R158 to R164) -/

/-- The issue checks of a KVAPP (R159). -/
def chkKvapp (s : State) (q : Nat) (b : List Byte) : Chk :=
  { violation := !structRange s q (dAddr b 16) (16 * bF b 24 4)
    format := !(dFmt b == 2 || dFmt b == 3) || dOfmt b != 2 || !dAddrOk b 16 || !zeroAt b 32 24
    align := dAddr b 16 % 16 != 0 || bF b 28 4 % 32 != 0
    shape := false
    capacity := decide (65536 < bF b 24 4)
    zero := bF b 24 4 == 0 }

/-- The work of a KVAPP. -/
def kvWork (f : Flight) : KvWork :=
  match f.work with
  | .kvapp w => w
  | _ => ⟨0, none, false, 0⟩

/-- One element of an item's rows: its place and its stored form (R158). -/
def kvRow (s : State) (f : Flight) (n src j hd d : Nat) (v : Bool) : Stored :=
  let dh := kvDH s f.q
  let b := f.bytes
  let m := snapOf s f
  let a := src + j * bF b 28 4 + 4 * dh * hd + (if v then 2 * dh else 0) + 2 * d
  let idx := ((n * 256 + j) * 16 + hd) * 2 * dh + b2n v * dh + d
  let w := mLE m a 2
  if dFmt b = 3 then storeElem .k16 false (modeAt (rndOf f) idx) (decodeWord .g16 w)
  else ⟨w, false, false, vIsSpecial (decodeWord .k16 w)⟩

/-- The checks of one item that precede any effect (step 2 of R160): the first failing one's code. -/
def kvItemCheck (s : State) (f : Flight) (t count src : Nat) (resOk : Bool) : Option Nat :=
  let p := f.q
  let h := kvH s p t
  let dh := kvDH s p
  let pitch := bF f.bytes 28 4
  let len := kvLength s p t
  let row := 4 * h * dh
  let sig := kvSig s p t
  let newLp := (len + count - 1) / 256
  let needs := len == 0 || newLp != (len - 1) / 256
  if !resOk then some 0x13
  else if kvStreams s p ≤ t then some 0x11
  else if kvState s p t = 0 then some 0x13
  else if kvState s p t = 2 then some 0x51
  else if 256 < count ∨ (pitch < row ∧ 1 < count) then some 0x10
  else if src % 32 ≠ 0 then some 0x12
  else if (List.range count).any fun j => !opRange s p (src + j * pitch) row then some 0x20
  else if bit 13 sig ∧ (tok s (sig % 2 ^ 13)).owner ≠ p then some 0x20
  else if 2 ^ 22 < len + count then some 0x11
  else if needs && (List.range h).any fun i => (kvLeafAt s p t (newLp * h + i)).isNone then some 0x11
  else if kvBudget s p t = 0 then some 0x50
  else none

/-- A row element is scattered by the engine of the stack that its frame lies in, else written through the yard (R251). -/
def kvVia (a : Nat) : Via :=
  match regionOf a with
  | .hbm _ => .beside
  | _ => .yard

/-- The rows of an item enter its pages, LENGTH advances and the stream token is signalled (step 6 of R160); with the special
elements written. -/
def kvAppend (f : Flight) (n t count src : Nat) (r : Try) : Try × Nat :=
  let p := f.q
  let h := kvH r.1 p t
  let dh := kvDH r.1 p
  let len := kvLength r.1 p t
  let hds := List.range h
  let lps := uniq ((List.range count).map fun j => (len + j) / 256)
  let r := kvLooks p t (lps.flatMap fun lp => hds.map fun i => lp * h + i) r
  let s := r.1
  let els := (List.range count).flatMap fun j => hds.flatMap fun i =>
    let e := (len + j) / 256 * h + i
    let fr := leafFrame (kvLeaf s p t e)
    [false, true].flatMap fun v => (List.range dh).map fun d =>
      let x := kvRow s f n src j i d v
      (kvElem dh fr ((len + j) % 256) d v, toLE 2 x.word, x.special)
  let r := (joinWrites (els.map fun x => (x.1, x.2.1))).foldl (fun r x => tryWrite (kvVia x.1) p x.1 x.2 r) r
  let r := tryDo (fun s => els.foldl (fun s x => match stacksOf x.1 2 with
    | k :: _ => stkCount k 4 2 s
    | [] => s) s) r
  let sig := kvSig s p t
  let r := tryDo (inc (pgKvs p) Fld.KVS_APPENDED count) (kvPut p t 12 4 (len + count) r)
  (tryDo (wh (bit 13 sig) fun s => settle (sig % 2 ^ 13) (tokAddV (sig % 2 ^ 13) 1 (some p) s)) r, (els.filter fun x => x.2.2).length)

/-- What ends one item of a KVAPP, and its special elements. -/
structure KvItemEnd where
  stop : Option Stop
  special : Nat
deriving DecidableEq, Repr

/-- An item that fails changes nothing (R160); what ended it is recorded. -/
def kvFail (e : Stop) (s : State) : State × KvItemEnd := (stopped e s, ⟨some e, 0⟩)

/-- An item that a check of its own fails. -/
def kvRefuse (c : Nat) (s : State) : State × KvItemEnd := (s, ⟨some ⟨c, 0, 0⟩, 0⟩)

/-- The end of a step of an item. -/
def kvEnd (s : State) (r : Try) (special : Nat) : State × KvItemEnd :=
  match r.2 with
  | some e => kvFail e s
  | none => (r.1, ⟨none, special⟩)

/-- A value that an item appends overflows (R160). -/
def kvOverflows (s : State) (f : Flight) (n t count src : Nat) : Bool :=
  (List.range count).any fun j => (List.range (kvH s f.q t)).any fun i => [false, true].any fun v =>
    (List.range (kvDH s f.q)).any fun d => (kvRow s f n src j i d v).overflow

/-- An item needs pages for the logical page that it appends to (R160). -/
def kvNewPages (s : State) (p t count : Nat) : Bool :=
  let len := kvLength s p t
  len == 0 || (len + count - 1) / 256 != (len - 1) / 256

/-- An item's rows are appended, its pages being held. -/
def kvItemRows (f : Flight) (n t count src : Nat) (s : State) (r : Try) : State × KvItemEnd :=
  let y := kvAppend f n t count src r
  kvEnd s y.1 y.2

/-- The end of an item whose stream is parked. -/
def kvParked (s : State) (r : Try) : State × KvItemEnd :=
  match r.2 with
  | some e => kvFail e s
  | none => kvRefuse 0x50 r.1

/-- An item finds no page: its stream is parked (R161). -/
def kvPark (p t : Nat) (s : State) : State × KvItemEnd :=
  kvParked s (tryDo (inc (pgKvs p) Fld.KVS_PARKS 1) (kvPut p t 0 1 2 (s, none)))

/-- Steps 3 to 6 of R160, for an item whose checks passed and whose source was read. -/
def kvItemRun (f : Flight) (n t count src : Nat) (s : State) : State × KvItemEnd :=
  if kvOverflows s f n t count src then kvRefuse 0x41 s
  else if kvNewPages s f.q t count then
    match kvAcquire f.q t ((kvLength s f.q t + count - 1) / 256) s with
    | some r => kvItemRows f n t count src s r
    | none => kvPark f.q t s
  else kvItemRows f n t count src s (s, none)

/-- One item of a KVAPP (R160). An item whose entry, source or frame cannot be reached fails with that code and changes nothing (R349,
R371). -/
def kvItem (f : Flight) (n : Nat) (s : State) : State × KvItemEnd :=
  let p := f.q
  let m := snapOf s f
  let a := dAddr f.bytes 16 + 16 * n
  let t := mLE m a 2
  let count := mLE m (a + 2) 2
  let src := mLE m (a + 8) 6
  let resOk := mLE m (a + 4) 4 == 0 && mLE m (a + 14) 2 == 0
  let r := tryRead .beside p a 16 (s, none)
  let r' := if !resOk ∨ kvStreams s p ≤ t then r
    else if !structRange s p (kvEntry s p t) 64 then (s, r.2.or (some ⟨0x20, 0, 0⟩)) else kvRead p t r
  match r.2, r'.2 with
  | some e, _ => kvFail e s
  | none, stop =>
    if count = 0 then (s, ⟨none, 0⟩) else
    match stop with
    | some e => kvFail e s
    | none =>
      match kvItemCheck s f t count src resOk with
      | some c => kvRefuse c s
      | none =>
        let r := readAll .yard p ((List.range count).map fun j => (src + j * bF f.bytes 28 4, 4 * kvH s p t * kvDH s p)) s
        match r.2 with
        | some c => kvRefuse c r.1
        | none => kvItemRun f n t count src r.1

/-- The KVAPP is the partition's first that is not finished: its items are the next (R160). -/
def kvTurn (s : State) (fid : Nat) : Option Flight :=
  match flightOf s fid with
  | some f =>
    if dOp f.bytes ≠ 0x05 ∨ f.result.isSome then none
    else match s.flights.find? (fun g => g.q == f.q && dOp g.bytes == 0x05 && g.result.isNone) with
      | some g => if g.fid = fid then some f else none
      | none => none
  | none => none

/-- The ranges of the next item's source, for the channels that may hold it. -/
def kvRanges (s : State) (f : Flight) (n : Nat) : List (Nat × Nat) :=
  let m := snapOf s f
  let a := dAddr f.bytes 16 + 16 * n
  let row := 4 * kvH s f.q (mLE m a 2) * kvDH s f.q
  (List.range (mLE m (a + 2) 2)).map fun j => (mLE m (a + 8) 6 + j * bF f.bytes 28 4, row)

/-- KVS processes the next item of a KVAPP; after the last the descriptor has its result (R160, R164). -/
def kvStep (fid : Nat) (s : State) : State :=
  match kvTurn s fid with
  | some f =>
    let f := { f with snap := some (snapOf s f) }
    let s := updFlight fid (fun g => { g with snap := f.snap }) s
    let w := kvWork f
    let rd := kvRanges s f w.next
    if mustWait s fid rd [] then noteHeld fid rd s else
    let r := kvItem f w.next (proceed fid s)
    let code := r.2.stop.map fun e => e.code
    if code = some heldMark then noteChans fid [((r.2.stop.getD ⟨0, 0, 0⟩).addr, 1)] s else
    let s := wh (w.fail.isSome && code.isSome) (countCode (pgDsp f.q) (code.getD 0) 0 (some f.q)) r.1
    let fail := match w.fail, code with
      | none, some c => some (w.next, c)
      | x, _ => x
    let w := { w with next := w.next + 1, fail := fail, ovf := w.ovf || code == some 0x41, special := w.special + r.2.special }
    let s := updFlight fid (fun f => { f with work := .kvapp w }) s
    if w.next < bF f.bytes 24 4 then s
    else
      let s := wh w.ovf (raiseV (pgKvs f.q) 0x08 0x41 2 (some f.q) 1 0 (binLin 0)) s
      let s := wh (w.special != 0) (raiseV (pgKvs f.q) 0x0A 0 1 (some f.q) 0 w.special (binLog w.special)) s
      match w.fail with
      | some (i, c) => finish fid c 0 (st (pgKvs f.q) Fld.KVS_LAST_FAIL (c * 65536 + i % 65536) s)
      | none => finish fid 0 0 s
  | none => s

/-- Every item of a KVAPP. -/
def kvAll (fid : Nat) : Nat → State → State
  | 0, s => s
  | k + 1, s => kvAll fid k (kvStep fid s)

/-- A KVAPP (R158). -/
def kvGo (fid : Nat) (s : State) : State :=
  match kvTurn s fid with
  | some f => kvAll fid (bF f.bytes 24 4 - (kvWork f).next) s
  | none => s

/-! ### ATTN (R165 to R172) -/

/-- M of an ATTN. -/
def atM (b : List Byte) : Nat := bF b 28 2
/-- Heads of item `n`. -/
def atHeads (s : State) (q : Nat) (list : List Byte) (n : Nat) : Nat := kvH s q (bF list (16 * n) 2)
/-- Sequences of an ATTN. -/
def atSeqs (s : State) (q : Nat) (b list : List Byte) : Nat :=
  (List.range (atItems b)).foldl (fun a n => a + atHeads s q list n) 0

/-- The item and the head of sequence σ. -/
def atSeq (s : State) (q : Nat) (list : List Byte) : Nat → Nat → Nat → Nat × Nat
  | 0, n, x => (n, x)
  | k + 1, n, x =>
    let h := atHeads s q list n
    if x < h then (n, x) else atSeq s q list k (n + 1) (x - h)

/-- Bytes that Q spans. -/
def atQExt (b k : List Byte) (seqs dh : Nat) : Nat :=
  if seqs = 0 ∨ atM b = 0 then 0 else (seqs - 1) * bF k 32 6 + (atM b - 1) * bF k 24 4 + 2 * dh

/-- Bytes that O spans. -/
def atOExt (b k : List Byte) (seqs dh : Nat) : Nat :=
  if seqs = 0 ∨ atM b = 0 then 0
  else (seqs - 1) * bF k 40 6 + (atM b - 1) * bF k 28 4 + dh * fmtBytes ((outFmt b).getD .k16)

/-- A reserved bit of an ATTN's body is set (R5). -/
def attnRes (b : List Byte) : Bool := bF b 30 2 / 4 != 0 || !zeroAt b 32 8 || !dAddrOk b 16 || drainRes b 40

/-- What the body of an ATTN shows by itself, of its issue checks (R166, Table 7.11). -/
def attnOwn (s : State) (q : Nat) (b : List Byte) : Chk :=
  { violation := !structRange s q (dAddr b 16) 64
    format := !(dFmt b == 2 || dFmt b == 3) || !(decide (2 ≤ dOfmt b) && decide (dOfmt b ≤ 5)) ||
      bF b 40 2 != 0x401 || bF b 44 4 != 0 || !zeroAt b 48 8 || attnRes b
    align := dAddr b 16 % 64 != 0
    shape := decide (128 < atM b)
    capacity := decide (65536 < atItems b) || grantCount s q == 0
    zero := atItems b == 0 || atM b == 0 }

/-- The issue checks of an ATTN on its block and its items (R167, Table 7.11). -/
def chkAttn (s : State) (q : Nat) (b k list : List Byte) : Chk :=
  let items := List.range (atItems b)
  let dh := kvDH s q
  let seqs := atSeqs s q b list
  let wC := fmtBytes ((outFmt b).getD .k16)
  let qr := (bF k 0 6, atQExt b k seqs dh)
  let o := (bF k 8 6, atOExt b k seqs dh)
  let il := (bF k 16 6, 16 * atItems b)
  let meets := fun (x y : Nat × Nat) => rangesMeet x.1 x.2 y.1 y.2
  let inTab := fun n => decide (bF list (16 * n) 2 < kvStreams s q)
  { chkNone with
    violation := !opRange s q qr.1 qr.2 || !opRange s q o.1 o.2 ||
      items.any fun n => inTab n && !structRange s q (kvEntry s q (bF list (16 * n) 2)) 64
    format := [0, 8, 16, 32, 40].any (fun i => !dAddrOk k i) || !zeroAt k 48 16 ||
      items.any fun n => !zeroAt list (16 * n + 2) 2 || !zeroAt list (16 * n + 12) 4 ||
        (inTab n && kvState s q (bF list (16 * n) 2) == 0)
    align := il.1 % 16 != 0 || qr.1 % 32 != 0 || o.1 % 32 != 0 || bF k 24 4 % 32 != 0 ||
      bF k 28 4 % 32 != 0 || bF k 32 6 % 32 != 0 || bF k 40 6 % 32 != 0
    shape := items.any (fun n => bF list (16 * n + 8) 4 != 0 && decide (bF list (16 * n + 8) 4 < bF list (16 * n + 4) 4)) ||
      (decide (1 < atM b) && (decide (bF k 24 4 < 2 * dh) || decide (bF k 28 4 < dh * wC))) ||
      (decide (1 < seqs) && (decide (bF k 32 6 < atM b * bF k 24 4) || decide (bF k 40 6 < atM b * bF k 28 4))) ||
      meets o qr || meets o (dAddr b 16, 64) || meets o il
    capacity := items.any (fun n => !inTab n) || decide (2 ^ 18 < seqs * atM b) }

/-- An ATTN in progress. -/
def attnFlight (s : State) (fid : Nat) : Option (Flight × AttnWork) :=
  match flightOf s fid with
  | some f =>
    if dOp f.bytes ≠ 0x04 ∨ f.result.isSome ∨ scratchShut s f.q then none
    else some (f, match f.work with
      | .attn w => w
      | _ => ⟨false, [], (outFmt f.bytes).getD .k16, 0, [], [], false, none, [], 0⟩)
  | none => none

/-- A step of an ATTN on its tables did not pass: it waits, or ends the ATTN. -/
def attnStop (fid : Nat) (e : Stop) (s : State) : State :=
  if e.code = heldMark then noteChans fid [(e.addr, 1)] s else finish fid e.code 0 (stopped e s)

/-- KVS captures the lengths of all items at once and takes the references (R168). -/
def attnCapture (fid : Nat) (s : State) : State :=
  match attnFlight s fid with
  | some (f, w) =>
    if w.captured then s else
    let r := (List.range (atItems f.bytes)).foldl (fun r n => kvRead f.q (atItem f n).1 r) (s, none)
    match r.2 with
    | some e => attnStop fid e s
    | none =>
      let caps := (List.range (atItems f.bytes)).map fun n => kvLength s f.q (atItem f n).1
      let left := List.range (atSeqs s f.q f.bytes f.cap.list)
      updFlight fid (fun f => { f with snap := some s.mem, work := .attn { w with captured := true, caps := caps, left := left } }) s
  | none => s

/-- The attended range of an item: P0 and P1'. -/
def atRange (f : Flight) (w : AttnWork) (n : Nat) : Nat × Nat :=
  let x := atItem f n
  let cap := w.caps.getD n 0
  (x.2.1, if x.2.2 = 0 then cap else min x.2.2 cap)

/-- The running state of a query row (R77): maximum, sum, outputs as pairs, and the best position so far; `nan` marks a row
whose scores include a NaN. -/
structure SoftRow where
  m : Option Val
  l : Val
  o : List (Val × Val)
  best : Option (Val × Nat)
  nan : Bool
deriving DecidableEq, Repr

/-- A scaled score (R77 phase 1). -/
def atScore (m : List Host.Cell) (f : Flight) (dh frame seq i t : Nat) : Val :=
  let fq := (inFmt f.bytes).getD .k16
  let qa := bF f.cap.blk 0 6 + seq * bF f.cap.blk 32 6 + i * bF f.cap.blk 24 4
  let v := (List.range dh).foldl (fun a d =>
    aAdd a (vMul (decodeWord fq (mLE m (qa + 2 * d) 2)) (decodeWord .k16 (mLE m (kvElem dh frame t d false) 2)))) vZero
  aMul v (decodeWord .k16 (bits 31 16 (bF f.bytes 40 8)))

/-- One key block for one query row: its attended positions within the page, of page number `lp` (R77, R169). Answers the row
and whether a staged score or an output overflowed. -/
def softBlock (m : List Host.Cell) (f : Flight) (dh frame seq lp i : Nat) (ts : List Nat) (r : SoftRow) : SoftRow × Bool :=
  let sc := ts.map fun t => (t, atScore m f dh frame seq i t)
  let stg := sc.map fun x => (x.1, pairRound .g16 .near x.2 (zeroLike x.2))
  let ovf := stg.any fun x => x.2.2.2
  let vs := stg.map fun x => (x.1, aAdd x.2.1 x.2.2.1)
  let mx := vs.foldl (fun (a : Option Val) x => match a with
    | some v => some (vMax v x.2)
    | none => some x.2) r.m
  let mn := mx.getD vZero
  let c := match r.m with
    | some v => expVal (aSub v mn)
    | none => vZero
  let rnd := { rndOf f with tid := dTid f.bytes ^^^ 0x20000000 }
  let ps := vs.map fun x =>
    let idx := (seq * atM f.bytes + i) * 2 ^ 22 + lp * 256 + x.1
    (x.1, (roundTo .k16 (modeAt rnd idx) (expVal (aSub x.2 mn))).1)
  let l := ps.foldl (fun a x => aAdd a x.2) (aMul r.l c)
  let o := r.o.zipIdx.map fun e =>
    let u := ps.foldl (fun a x => aAdd a (vMul x.2 (decodeWord .k16 (mLE m (kvElem dh frame x.1 e.2 true) 2)))) vZero
    let t := aAdd (aMul (aAdd e.1.1 e.1.2) c) u
    pairRound .g16 .near t (zeroLike t)
  let best := sc.foldl (fun (a : Option (Val × Nat)) x => match a with
    | some y => if vLt y.1 x.2 then some (x.2, lp * 256 + x.1) else some y
    | none => some (x.2, lp * 256 + x.1)) r.best
  (⟨some mn, l, o.map fun x => (x.1, x.2.1), best, r.nan || sc.any fun x => x.2 == .nan⟩, ovf || o.any fun x => x.2.2)

/-- The key blocks of a sequence that hold an attended position: logical page, frame, and the positions attended (R169). -/
def atBlocks (s : State) (f : Flight) (w : AttnWork) (n h : Nat) : List (Nat × Nat × List Nat) :=
  let t := (atItem f n).1
  let (p0, p1) := atRange f w n
  let hh := kvH s f.q t
  (List.range (ceilDiv p1 256)).flatMap fun lp =>
    let leaf := kvLeaf s f.q t (lp * hh + h)
    [0, 1].filterMap fun kb =>
      let ts := ((List.range 128).map fun i => kb * 128 + i).filter fun x => decide (p0 ≤ lp * 256 + x ∧ lp * 256 + x < p1)
      if bit 0 leaf && !ts.isEmpty then some (lp, leafFrame leaf, ts) else none

/-- What a sequence gives: its output elements, whether something without successor overflowed, the hits of its pages. -/
structure SeqOut where
  els : List (Nat × Stored)
  bad : Bool
  hits : List (Nat × Nat)
deriving DecidableEq, Repr

/-- One sequence over its key blocks (R77, R169, R171, R172). -/
def attnSeq (m : List Host.Cell) (f : Flight) (w : AttnWork) (dh seq : Nat) (bl : List (Nat × Nat × List Nat)) : SeqOut :=
  let rows := (List.range (atM f.bytes)).map fun i =>
    bl.foldl (fun (r : SoftRow × Bool) x =>
      let y := softBlock m f dh x.2.1 seq x.1 i x.2.2 r.1
      (y.1, r.2 || y.2)) (⟨none, vZero, List.replicate dh (vZero, vZero), none, false⟩, false)
  let wC := fmtBytes w.ofmt
  let els := rows.zipIdx.flatMap fun r => r.1.1.o.zipIdx.map fun e =>
    let a := bF f.cap.blk 8 6 + seq * bF f.cap.blk 40 6 + r.2 * bF f.cap.blk 28 4 + e.2 * wC
    let v := if bl.isEmpty then vZero else aDiv (aAdd e.1.1 e.1.2) r.1.1.l
    (a, storeElem w.ofmt false (modeAt (rndOf f) ((seq * atM f.bytes + r.2) * dh + e.2)) v)
  let lps := uniq (bl.map fun x => x.1)
  ⟨els, rows.any fun r => r.2, lps.map fun lp => (lp, (rows.filter fun r =>
    !r.1.nan && (match r.1.best with
      | some b => b.2 / 256 == lp
      | none => false)).length)⟩

/-- The output region of an ATTN. -/
def attnRegion (s : State) (f : Flight) : List (Nat × Nat) :=
  [(bF f.cap.blk 8 6, atOExt f.bytes f.cap.blk (atSeqs s f.q f.bytes f.cap.list) (kvDH s f.q))]

/-- The last sequence of a pass is written: the descriptor has its result (R106, R451). -/
def attnDone (f : Flight) (w : AttnWork) (s : State) : State :=
  let s := raiseArrays f.q 0x0A 1 w.special s
  let s := wh (w.empty != 0) (raiseV (pgKvs f.q) 0x0A 0 2 (some f.q) 0 w.empty (binLog w.empty)) s
  let s := match w.first with
    | some pg => raiseV pg 0x08 0x40 (fmtCode w.ofmt) (some f.q) 0 w.pass (binLin w.pass) s
    | none => s
  finish f.fid (if w.pass = 0 then 0 else 0x40) 0 (updFlight f.fid (fun f => { f with replays := w.pass }) s)

/-- The array that the run of a sequence takes (R132, R169): its first A chunk begins with the sequence's first query row. -/
def attnPlace (s : State) (f : Flight) (seq : Nat) (l : List Nat) : Option Nat :=
  bestBy (sliceAff s f.q (some ((bF f.cap.blk 0 6 + seq * bF f.cap.blk 32 6) / 512))) l

/-- The logical pages of a sequence that hold a position of its range (R169). -/
def atPages (f : Flight) (w : AttnWork) (n : Nat) : List Nat :=
  let (p0, p1) := atRange f w n
  (List.range (ceilDiv p1 256)).filter fun lp => decide (p0 < (lp + 1) * 256)

/-- The next sequence of an ATTN runs on an array (R169). The freezes of its run and of the passes of its drain path are timing
(R77; log entry 5). -/
def attnStep (fid : Nat) (s : State) : State :=
  match attnFlight s fid with
  | some (f, w) =>
    if !w.captured ∨ w.ovf ∨ arraysStopped s then s else
    let pin := bit 0 (bF f.bytes 30 2)
    match w.left, attnPlace s f (w.left.headD 0) (candidatesBy s f pin) with
    | seq :: rest, some n =>
      let p := f.q
      let dh := kvDH s p
      let m := snapOf s f
      let x := atSeq s p f.cap.list (atItems f.bytes) 0 seq
      let t := (atItem f x.1).1
      let hh := kvH s p t
      let bl := atBlocks s f w x.1 x.2
      let qr := (List.range (atM f.bytes)).map fun i => (bF f.cap.blk 0 6 + seq * bF f.cap.blk 32 6 + i * bF f.cap.blk 24 4, 2 * dh)
      let kr := bl.flatMap fun y =>
        let o := 256 * dh * (y.2.2.headD 0 / 128)
        [(y.2.1 + o, 256 * dh), (y.2.1 + 512 * dh + o, 256 * dh)]
      let wr := (List.range (atM f.bytes)).map fun i =>
        (bF f.cap.blk 8 6 + seq * bF f.cap.blk 40 6 + i * bF f.cap.blk 28 4, dh * fmtBytes w.ofmt)
      if mustWait s fid (qr ++ kr) wr then noteWait fid (qr ++ kr) wr s else
      let tr := kvLooks p t ((atPages f w x.1).map fun lp => lp * hh + x.2) (kvRead p t (s, none))
      match tr.2 with
      | some e => attnStop fid e s
      | none =>
      let r := readAll .yard p (qr ++ kr) (proceed fid tr.1)
      match r.2 with
      | some c => finish fid c 0 r.1
      | none =>
        let s := kr.foldl (fun s y => match stacksOf y.1 y.2 with
          | k :: _ => stkCount k 4 y.2 s
          | [] => s) r.1
        let out := attnSeq m f w dh seq bl
        let mt := 16 * ceilDiv (atM f.bytes) 16
        let s := if bl.isEmpty then s else
          let best := attnPlace s f seq (idleArrays s p)
          let s := raisePoint n (countPin f pin (pinActs s f pin) best n (arrCount n 8 1 s))
          let s := bl.foldl (fun s _ => countTile n (mt * dh * 128) (countTile n (mt * 128 * dh) s)) s
          countRun n (bl.flatMap fun _ => [dh, 128]) s
        if out.bad then
          let s := scrambleAll (attnRegion s f) s
          let first := w.first.getD (pgArr n)
          let s := raiseV first 0x08 0x41 5 (some p) 1 w.pass (binLin w.pass) s
          finish fid 0x41 0 (updFlight fid (fun f => { f with replays := w.pass }) s)
        else if out.els.any fun e => e.2.overflow then
          match replayNext w.ofmt with
          | some _ => updFlight fid (fun f => { f with work := .attn { w with ovf := true, first := some (w.first.getD (pgArr n)) } }) s
          | none =>
            let s := scrambleAll (attnRegion s f) s
            let s := raiseV (w.first.getD (pgArr n)) 0x08 0x41 (fmtCode w.ofmt) (some p) 1 w.pass (binLin w.pass) s
            finish fid 0x41 0 (updFlight fid (fun f => { f with replays := w.pass }) s)
        else
          let y := writeAll .yard p fid (joinWrites (out.els.map fun e => (e.1, toLE (fmtBytes w.ofmt) e.2.word))) s
          match y.2 with
          | some c => finish fid c 0 y.1
          | none =>
            let sp := (out.els.filter fun e => e.2.special).length
            let w := { w with left := rest, hits := w.hits ++ out.hits.map (fun h => ((seq, h.1), h.2)), special := tabAdd w.special n sp
                              empty := w.empty + (if bl.isEmpty then atM f.bytes * dh else 0) }
            let s := updFlight fid (fun f => { f with work := .attn w }) y.1
            if rest.isEmpty then attnDone f w s else s
    | _, _ => s
  | none => s

/-- Every sequence of a pass. -/
def attnAll (fid : Nat) : Nat → State → State
  | 0, s => s
  | k + 1, s => attnAll fid k (attnStep fid s)

/-- An ATTN (R165). -/
def attnGo (fid : Nat) (s : State) : State :=
  let s := attnCapture fid s
  match attnFlight s fid with
  | some (_, w) => attnAll fid w.left.length s
  | none => s

/-- The replay of an ATTN: only the final rounding advances; captures and references stay (R170). -/
def attnReplay (fid : Nat) (s : State) : State :=
  match attnFlight s fid with
  | some (f, w) =>
    if !w.ovf then s else
    let o := (replayNext w.ofmt).getD w.ofmt
    let left := List.range (atSeqs s f.q f.bytes f.cap.list)
    updFlight fid (fun f => { f with work := .attn { w with ofmt := o, pass := w.pass + 1, left := left, hits := [], ovf := false, special := [], empty := 0 } }) s
  | none => s

/-- The score updates of an ATTN that completes (R172). -/
def attnScores (f : Flight) (r : Try) : Try :=
  match f.work with
  | .attn w =>
    if dOp f.bytes ≠ 0x04 ∨ !bit 1 (bF f.bytes 30 2) then r else
    w.hits.foldl (fun r x =>
      let y := atSeq r.1 f.q f.cap.list (atItems f.bytes) 0 x.1.1
      let t := (atItem f y.1).1
      let e := x.1.2 * kvH r.1 f.q t + y.2
      let r := kvLook f.q t e r
      let l := kvLeaf r.1 f.q t e
      let sc := min 0xFFFF (l / 2 ^ 48 * kvF r.1 f.q t 4 2 / 256 + 256 * x.2)
      if bit 0 l then kvLeafPut f.q t e (l % 2 ^ 48 + sc * 2 ^ 48) r else r) r
  | _ => r

/-! ### Commands (R174, R175) -/

/-- The result of a KVS command. -/
def kvResult (p code : Nat) (s : State) : State :=
  st (pgKvs p) Fld.KVS_CMD_STAT_CODE code (st (pgKvs p) Fld.KVS_CMD_STAT_BUSY 0 s)

/-- Pages freed to the free list, in ascending entry index (Table 7.13). -/
def kvFreePages (p t : Nat) (es : List Nat) (r : Try) : Try :=
  es.foldl (fun r e =>
    let r := kvLook p t e r
    let l := kvLeaf r.1 p t e
    if bit 0 l then tryDo (fun s => setKv p { kv s p with free := (kv s p).free ++ [leafFrame l] } s) (kvDrop p t e r) else r) r

/-- Entry indices of every page that a stream's positions reach. -/
def kvEntries (s : State) (p t : Nat) : List Nat := List.range (ceilDiv (kvLength s p t) 256 * kvH s p t)

/-- CLOSE of an unreferenced stream. -/
def kvClose (p t : Nat) (s : State) : Try :=
  tryDo (fun s => st (pgKvs p) Fld.KVS_OPEN (rg s (pgKvs p) Fld.KVS_OPEN - 1) s)
    (kvPut p t 0 1 0 (kvFreePages p t (kvEntries s p t) (s, none)))

/-- TRIM of an unreferenced stream below a position. -/
def kvTrim (p t pos : Nat) (s : State) : Try :=
  let h := kvH s p t
  kvFreePages p t ((kvEntries s p t).filter fun e => decide ((e / h + 1) * 256 ≤ pos) && decide (e / h < kvLast s p t)) (s, none)

/-- The checks of OPEN (Table 7.13). -/
def kvOpenChk (s : State) (p t : Nat) : Chk :=
  let bs := rdBytes s (kvEntry s p t) 64
  let sig := bF bs 32 2
  { chkNone with
    violation := !ownStruct s p (bF bs 24 6) 4096 || (bit 13 sig && (tok s (sig % 2 ^ 13)).owner != p)
    format := kvState s p t != 0 || bF bs 0 1 / 4 != 0 || bF bs 1 1 / 16 != 0 || bF bs 2 1 / 2 != 0 || !zeroAt bs 3 1 ||
      decide (256 < bF bs 4 2) || !dAddrOk bs 24 || sig / 2 ^ 14 != 0 || !zeroAt bs 34 30
    align := bF bs 24 6 % 4096 != 0 }

/-- A stream not UNUSED gives FORMAT whatever else OPEN would find (Table 7.13). -/
def kvOpenCode (s : State) (p t : Nat) : Nat := if kvState s p t ≠ 0 then 0x13 else chkCode (kvOpenChk s p t)

/-- OPEN takes effect. -/
def kvOpen (p t : Nat) (s : State) : Try :=
  tryDo (inc (pgKvs p) Fld.KVS_OPEN 1) (kvPut p t 0 1 1 (kvPut p t 12 12 0 (s, none)))

/-- ADD_FRAMES (Table 7.13). -/
def kvAddFrames (p : Nat) (s : State) : State :=
  let pg := pgKvs p
  let hi := rg s pg Fld.KVS_CMD_ARG_HI
  let base := rg s pg Fld.KVS_CMD_ARG_LO + hi % 65536 * 2 ^ 32
  let n := if hi / 65536 = 0 then 65536 else hi / 65536
  let sz := 1024 * kvDH s p
  let c : Chk := { chkNone with
    violation := !ownStruct s p base (n * sz)
    align := base % 512 != 0
    capacity := decide (2 ^ rg s pg Fld.KVS_GEOM_LOG2_FRAMES < rg s pg Fld.KVS_FRAMES + n) }
  if chkCode c ≠ 0 then kvResult p (chkCode c) s
  else kvResult p 0 (inc pg Fld.KVS_FRAMES n
    (setKv p { kv s p with free := (kv s p).free ++ (List.range n).map fun i => base + i * sz } s))

/-- A command that has to wait, for references (R174) or for a held access: BUSY stays 1. -/
def kvWait (p op t arg : Nat) (s : State) : State := setKv p { kv s p with waiting := some (op, t, arg) } s

/-- The end of a command's step: its effect, its wait, or the code of a table that it could not reach. -/
def kvEnds (p op t arg : Nat) (s : State) (r : Try) : State :=
  match r.2 with
  | none => kvResult p 0 r.1
  | some e => if e.code = heldMark then kvWait p op t arg s else kvResult p e.code (stopped e s)

/-- A command on a stream of the table, as one KVS step (R174). -/
def kvRun (p op t arg : Nat) (s : State) : State :=
  let r := kvRead p t (s, none)
  if r.2.isSome then kvEnds p op t arg s r
  else if op = 1 then
    (if kvOpenCode s p t ≠ 0 then kvResult p (kvOpenCode s p t) s else kvEnds p op t arg s (kvOpen p t s))
  else if kvState s p t = 0 then kvResult p 0x13 s
  else if (op = 2 ∨ op = 4) ∧ kvReferenced s p t then kvWait p op t arg s
  else kvEnds p op t arg s (match op with
    | 2 => kvClose p t s
    | 3 => if kvState s p t = 2 then kvPut p t 0 1 1 (s, none) else (s, none)
    | 4 => kvTrim p t arg s
    | _ => kvPut p t 8 4 arg (s, none))

/-- A write of KVS_CMD by the partition (R174, R175). -/
def kvCommand (p op t : Nat) (s : State) : State :=
  let pg := pgKvs p
  if rg s pg Fld.KVS_CMD_STAT_BUSY = 1 then st pg Fld.KVS_CMD_STAT_IGNORED 1 s
  else
    let s := st pg Fld.KVS_CMD_STAT_BUSY 1 s
    if op = 0 ∨ 7 ≤ op then kvResult p 0x13 s
    else if op = 6 then kvAddFrames p s
    else if partState s p = .torn then kvResult p 0x71 s
    else if kvStreams s p ≤ t then kvResult p 0x11 s
    else if !ownStruct s p (kvEntry s p t) 64 then kvResult p 0x20 s
    else kvRun p op t (rg s pg Fld.KVS_CMD_ARG_LO) s

/-- A command that waited proceeds: a CLOSE or a TRIM once its stream is unreferenced (R174), any once nothing holds its tables. -/
def kvReleased (p : Nat) (s : State) : State :=
  match (kv s p).waiting with
  | some (op, t, arg) => kvRun p op t arg (setKv p { kv s p with waiting := none } s)
  | none => s

/-- KVAPP (R158). -/
def execKvapp (fid : Nat) (s : State) : Host.Outcome State Fault Refusal := .next (wh (on s) (kvGo fid) s)

/-- ATTN (R165). -/
def execAttn (fid : Nat) (s : State) : Host.Outcome State Fault Refusal := .next (wh (on s) (attnGo fid) s)

/-- KVAPP_ITEM (R160). -/
def execKvappItem (fid : Nat) (s : State) : Host.Outcome State Fault Refusal := .next (wh (on s) (kvStep fid) s)

/-- ATTN_CAPTURE (R168). -/
def execAttnCapture (fid : Nat) (s : State) : Host.Outcome State Fault Refusal := .next (wh (on s) (attnCapture fid) s)

/-- ATTN_SEQUENCE_RUN (R169). -/
def execAttnSequenceRun (fid : Nat) (s : State) : Host.Outcome State Fault Refusal := .next (wh (on s) (attnStep fid) s)

/-- The partition that commands a KVS page: its own (R176). -/
def kvsRow (part op stream : Nat) (s : State) : State :=
  if 16 ≤ part then { s with bus := (0x20, 0) } else { kvCommand part op stream s with bus := (0, 0) }

/-- KVS_CMD_OPEN (R174). -/
def execKvsCmdOpen (part stream : Nat) (s : State) : Host.Outcome State Fault Refusal := .next (wh (on s) (atDone (kvsRow part 1 stream)) s)

/-- KVS_CMD_CLOSE (R174). -/
def execKvsCmdClose (part stream : Nat) (s : State) : Host.Outcome State Fault Refusal := .next (wh (on s) (atDone (kvsRow part 2 stream)) s)

/-- KVS_CMD_UNPARK (R174). -/
def execKvsCmdUnpark (part stream : Nat) (s : State) : Host.Outcome State Fault Refusal := .next (wh (on s) (atDone (kvsRow part 3 stream)) s)

/-- KVS_CMD_TRIM (R174). -/
def execKvsCmdTrim (part stream : Nat) (s : State) : Host.Outcome State Fault Refusal := .next (wh (on s) (atDone (kvsRow part 4 stream)) s)

/-- KVS_CMD_SET_BUDGET (R174). -/
def execKvsCmdSetBudget (part stream : Nat) (s : State) : Host.Outcome State Fault Refusal := .next (wh (on s) (atDone (kvsRow part 5 stream)) s)

/-- KVS_CMD_ADD_FRAMES (R174). -/
def execKvsCmdAddFrames (part : Nat) (s : State) : Host.Outcome State Fault Refusal := .next (wh (on s) (atDone (kvsRow part 6 0)) s)

/-- KVS_CMD_RELEASED (R174). -/
def execKvsCmdReleased (part : Nat) (s : State) : Host.Outcome State Fault Refusal := .next (wh (on s) (kvReleased part) s)

end Sys2Proof.Machine
end

