-- ==== Sys2Proof/Machine/Scn.lean ====
section
/-!
DEFINITION. The recurrence state unit: recurrent streams, swaps, SCAN, SWAP and the SCN commands (chapter 08).
-/
namespace Sys2Proof.Machine

/-! ### Geometry and the stream table -/

/-- The recurrence state of a partition. -/
def sc (s : State) (p : Nat) : Scn := tabGet scnDefault s.scn p

/-- The state with a partition's recurrence state changed. -/
def setSc (p : Nat) (k : Scn) (s : State) : State := { s with scn := tabSet scnDefault s.scn p k }

/-- H of a partition. -/
def scH (s : State) (p : Nat) : Nat := rg s (pgScn p) Fld.SCN_GEOM_HM1 + 1
/-- N of a partition. -/
def scN (s : State) (p : Nat) : Nat := 16 * (rg s (pgScn p) Fld.SCN_GEOM_N_CODE + 1)
/-- P of a partition. -/
def scP (s : State) (p : Nat) : Nat := 16 * (rg s (pgScn p) Fld.SCN_GEOM_P_CODE + 1)
/-- The state format. -/
def scFmt (s : State) (p : Nat) : Fmt := if rg s (pgScn p) Fld.SCN_GEOM_SFMT = 1 then .gp32 else .kp32
/-- SB (R184). -/
def scSB (s : State) (p : Nat) : Nat := scH s p * scN s p * scP s p * 4
/-- Entries of the stream table. -/
def scStreams (s : State) (p : Nat) : Nat := 2 ^ rg s (pgScn p) Fld.SCN_GEOM_LOG2_STREAMS
/-- SLOTS. -/
def scSlots (s : State) (p : Nat) : Nat := rg s (pgScn p) Fld.SCN_SLOTS

/-- The address of a stream entry (R186). -/
def scEntry (s : State) (p t : Nat) : Nat :=
  rg s (pgScn p) Fld.SCN_STAB_LO * 32 + rg s (pgScn p) Fld.SCN_STAB_HI * 2 ^ 32 + 32 * t

/-- `n` bytes at `off` of a stream entry. -/
def scF (s : State) (p t off n : Nat) : Nat := rdLE s (scEntry s p t + off) n

/-- SCN writes `n` bytes at `off` of a stream entry. -/
def scPut (via : Via) (p t off n v : Nat) (r : Try) : Try := tryWrite via p (scEntry r.1 p t + off) (toLE n v) r

/-- SCN reads a stream entry. -/
def scRead (p t : Nat) (r : Try) : Try := tryRead .beside p (scEntry r.1 p t) 32 r

/-- STATE of a stream: 0 UNUSED, 1 SIDED, 2 RESIDENT, 3 OUTBOUND, 4 INBOUND. -/
def scState (s : State) (p t : Nat) : Nat := scF s p t 0 1 % 8

/-- SIDING. -/
def scSiding (s : State) (p t : Nat) : Nat := scF s p t 8 6

/-- The slot that a stream holds. -/
def scSlotOf (s : State) (p t : Nat) : Option ScnSlot := (sc s p).slots.find? fun x => x.stream == t

/-- The address of image `i` of slot `k` (R185). -/
def scImage (s : State) (p k i : Nat) : Nat :=
  rg s (pgScn p) Fld.SCN_AREA_LO * 4096 + rg s (pgScn p) Fld.SCN_AREA_HI * 2 ^ 32 + (2 * k + i) * scSB s p

/-- Count the bytes that a swap moves at its stack's engine (Tables 11.1, 11.12). -/
def scService (p t : Nat) (s : State) : State :=
  match stacksOf (scSiding s p t) 1 with
  | k :: _ => stkCount k 4 (scSB s p) s
  | [] => s

/-- A stack engine copies a range of memory for a partition, beside the yard. -/
def copyMem (via : Via) (p src dst n : Nat) (r : Try) : Try :=
  let r := tryRead via p src n r
  tryWrite via p dst (rdBytes r.1 src n) r

/-- The current image of a stream's slot is copied to its siding. -/
def scStore (via : Via) (p t : Nat) (r : Try) : Try :=
  match scSlotOf r.1 p t with
  | some x => tryDo (scService p t) (copyMem via p (scImage r.1 p x.slot x.cur) (scSiding r.1 p t) (scSB r.1 p) r)
  | none => r

/-- The siding of a stream is copied to its slot's current image. -/
def scLoad (p t : Nat) (r : Try) : Try :=
  match scSlotOf r.1 p t with
  | some x => tryDo (scService p t) (copyMem .beside p (scSiding r.1 p t) (scImage r.1 p x.slot x.cur) (scSB r.1 p) r)
  | none => r

/-! ### References (R191, R192) -/

/-- Item `n` of a SCAN: stream, first row, length. -/
def scItem (list : List Byte) (n : Nat) : Nat × Nat × Nat :=
  (bF list (16 * n) 4 % 2 ^ 20, bF list (16 * n + 4) 4, bF list (16 * n + 8) 4)

/-- ITEMS of a SCAN. -/
def scItems (b : List Byte) : Nat := bF b 32 4

/-- The distinct streams of items with LEN > 0. -/
def scDistinct (b list : List Byte) : List Nat :=
  uniq ((List.range (scItems b)).filterMap fun n => if (scItem list n).2.2 = 0 then none else some (scItem list n).1)

/-- A SCAN in flight that is admitted. -/
def scanAdmitted (f : Flight) : Bool :=
  match f.work with
  | .scan w => w.admitted
  | _ => false

/-- An admitted SCAN of the partition references the stream. -/
def scReferenced (s : State) (p t : Nat) : Bool :=
  s.flights.any fun f => f.q == p && scanAdmitted f && (scDistinct f.bytes f.cap.list).contains t

/-- The sum of D over the admitted SCANs of a partition that have not completed (R191). -/
def scRefd (s : State) (p : Nat) : Nat :=
  s.flights.foldl (fun a f => if f.q = p ∧ scanAdmitted f then a + (scDistinct f.bytes f.cap.list).length else a) 0

/-! ### Items at work (R193) -/

/-- Lc. -/
def scLc (b : List Byte) : Nat := 64 * 2 ^ (bF b 36 1 % 4)

/-- Chunks of an item. -/
def scChunks (f : Flight) (n : Nat) : Nat := ceilDiv (scItem f.cap.list n).2.2 (scLc f.bytes)

/-- Chunks done of an (item, head). -/
def chunksDone (w : ScanWork) (n h : Nat) : Nat :=
  match w.chunks.find? fun x => x.1 == (n, h) with
  | some x => x.2
  | none => 0

/-- Every head of an item has done its chunks. -/
def itemDone (s : State) (f : Flight) (w : ScanWork) (n : Nat) : Bool :=
  allBelow (scH s f.q) fun h => decide (scChunks f n ≤ chunksDone w n h)

/-- Earlier items of the same stream in a SCAN. -/
def earlierItems (f : Flight) (n : Nat) : List Nat :=
  (List.range n).filter fun i => (scItem f.cap.list i).1 == (scItem f.cap.list n).1 && (scItem f.cap.list i).2.2 != 0

/-- The SCANs admitted before this one that still hold its stream. -/
def earlierScan (s : State) (f : Flight) (t : Nat) : Bool :=
  (s.flights.takeWhile fun g => g.fid != f.fid).any fun g =>
    g.q == f.q && scanAdmitted g && (scDistinct g.bytes g.cap.list).contains t

/-- Item `n` of a SCAN at work needs its stream: every earlier item of the stream is applied, its own chunks are not all done (R193). -/
def itemNeeds (s : State) (f : Flight) (w : ScanWork) (n : Nat) : Bool :=
  (scItem f.cap.list n).2.2 != 0 && !itemDone s f w n && (earlierItems f n).all (itemDone s f w)

/-- An item of an admitted SCAN needs the stream now. -/
def scanNeeds (s : State) (f : Flight) (t : Nat) : Bool :=
  match f.work with
  | .scan w => w.admitted && f.result.isNone && !earlierScan s f t &&
      (List.range (scItems f.bytes)).any fun n => (scItem f.cap.list n).1 == t && itemNeeds s f w n
  | _ => false

/-- An item of some SCAN of the partition needs the stream now. -/
def scNeeded (s : State) (p t : Nat) : Bool := s.flights.any fun f => f.q == p && scanNeeds s f t

/-! ### Swaps (R187, R197) -/

/-- The lowest slot that holds no stream. -/
def scFreeSlot (s : State) (p : Nat) : Option Nat := firstBelow (scSlots s p) fun k => !(sc s p).slots.any fun x => x.slot == k

/-- A swap-out of a RESIDENT stream starts. -/
def swapOutStart (p t : Nat) (r : Try) : Try := if scState r.1 p t = 2 then scPut .beside p t 0 1 3 (scRead p t r) else r

/-- A swap-out is over: the stream is SIDED and its slot free (R187); an item that waits on it is counted (R193). -/
def swapOutEnd (via : Via) (p t : Nat) (s : State) : State :=
  let wait := scState s p t == 3 && scNeeded s p t
  let s := (scPut via p t 0 1 1 (setSc p { sc s p with slots := (sc s p).slots.filter fun y => y.stream != t } s, none)).1
  wh wait (inc (pgScn p) Fld.SCN_SWAP_WAIT 1) (inc (pgScn p) Fld.SCN_SWAP_OUT 1 s)

/-- A swap-out completes: the current image is in the siding (R187). What the copy cannot reach is lost (log entry 122); one that a
channel or a way holds goes on later. -/
def swapOutComplete (p t : Nat) (s : State) : State :=
  if scState s p t ≠ 3 ∨ (scSlotOf s p t).isNone then s else
  let r := scStore .beside p t (scRead p t (s, none))
  match r.2 with
  | some e => if e.code = heldMark then s else swapOutEnd .beside p t (stopped e s)
  | none => swapOutEnd .beside p t r.1

/-- Every swap-out in progress ends. -/
def swapOutsEnd (p : Nat) (s : State) : State :=
  (sc s p).slots.foldl (fun s x => wh (scState s p x.stream == 3) (swapOutComplete p x.stream) s) s

/-- The partition still owns the siding of a stream (R349). -/
def sidingOwned (s : State) (p t : Nat) : Bool := ownsRange s p (scSiding s p t) (scSB s p)

/-- A swap-in cannot go on: the stream stays, or is again, SIDED; every SCAN an item of which needs it ends with the code, and a SWAP IN
that waits finds it (R349, R373). -/
def swapInLost (p t code : Nat) (s : State) : State :=
  let fs := s.flights.filter fun f => f.q == p && scanNeeds s f t
  let s := setSc p { sc s p with
    slots := (sc s p).slots.filter fun y => y.stream != t
    want := (sc s p).want.filter fun x => x != t
    lost := (sc s p).lost.filter (fun x => x.1 != t) ++ [(t, code)]
    evict := (sc s p).evict.filter fun x => x.1 != t } (wh (scState s p t == 4) (fun s => (scPut .beside p t 0 1 1 (s, none)).1) s)
  fs.foldl (fun s f => finish f.fid code 0 s) s

/-- What a step of a swap-in met: held, it is tried again; otherwise the swap-in is lost. -/
def swapInStop (p t : Nat) (e : Stop) (s : State) : State :=
  if e.code = heldMark then s else swapInLost p t e.code (stopped e s)

/-- The end of the step in which a swap-in takes a slot. -/
def swapInTook (p t k : Nat) (s : State) (r : Try) : State :=
  match r.2 with
  | some e => swapInStop p t e s
  | none => setSc p { sc r.1 p with
      slots := (sc r.1 p).slots ++ [⟨k, t, 0⟩]
      lost := (sc r.1 p).lost.filter fun x => x.1 != t
      evict := (sc r.1 p).evict.filter fun x => x.1 != t } r.1

/-- A swap-in takes a free slot (R187). -/
def swapInTake (p t k : Nat) (s : State) : State :=
  swapInTook p t k s (scPut .beside p t 24 2 k (scPut .beside p t 0 1 4 (scRead p t (s, none))))

/-- A swap-in evicts the unreferenced RESIDENT stream that has been current longest, and only one: it waits for that swap-out
(R197). -/
def swapInEvict (p t : Nat) (s : State) : State :=
  if (sc s p).evict.any fun x => x.1 == t && scState s p x.2 == 3 then s else
  match (sc s p).slots.find? fun x => scState s p x.stream == 2 && !scReferenced s p x.stream with
  | some x =>
    let r := swapOutStart p x.stream (s, none)
    match r.2 with
    | some e => swapInStop p t e s
    | none => setSc p { sc r.1 p with evict := (sc r.1 p).evict.filter (fun y => y.1 != t) ++ [(t, x.stream)] } r.1
  | none => s

/-- A swap-in of a SIDED stream starts in the lowest free slot; without one, a stream is evicted first (R197). -/
def swapInStart (p t : Nat) (s : State) : State :=
  if scState s p t ≠ 1 ∨ scratchShut s p then s
  else if !sidingOwned s p t then swapInLost p t 0x20 s
  else
    match scFreeSlot s p with
    | some k => swapInTake p t k s
    | none => swapInEvict p t s

/-- A swap-in completes: the siding is in the current image (R187), or could not be read. -/
def swapInComplete (p t : Nat) (s : State) : State :=
  if scState s p t ≠ 4 ∨ scratchShut s p then s else
  match scSlotOf s p t with
  | some x =>
    let r := scPut .beside p t 0 1 2 (scLoad p t (scRead p t (s, none)))
    match r.2 with
    | some e => swapInStop p t e s
    | none => inc (pgScn p) Fld.SCN_SWAP_IN 1 (setSc p { sc r.1 p with
        slots := ((sc r.1 p).slots.filter fun y => y.stream != t) ++ [x]
        want := (sc r.1 p).want.filter fun y => y != t } r.1)
  | none => s

/-- A stream is wanted resident: by an item's need or by a SWAP IN (R196). -/
def scWanted (s : State) (p t : Nat) : Bool := scNeeded s p t || (sc s p).want.contains t

/-- STREAM_SWAP_IN: a swap-in that is wanted. -/
def streamSwapIn (p t : Nat) (s : State) : State := if scWanted s p t then swapInStart p t s else s

/-- A wanted stream is brought in at once, with the eviction that it takes. -/
def scBringIn (p t : Nat) (s : State) : State :=
  let s := streamSwapIn p t (swapInComplete p t (swapOutComplete p t s))
  swapInComplete p t (streamSwapIn p t (swapOutsEnd p s))

/-! ### SCAN (R188 to R195) -/

/-- The rows that item `n` uses of a tensor with a base, a pitch and a row length: as a range. -/
def scRange (list : List Byte) (base pitch row n : Nat) : Nat × Nat :=
  let x := scItem list n
  (base + x.2.1 * pitch, if x.2.2 = 0 then 0 else (x.2.2 - 1) * pitch + row)

/-- A reserved bit of a SCAN's body is set (R5). -/
def scanRes (b : List Byte) : Bool :=
  bF b 36 1 / 4 != 0 || bF b 37 1 / 2 != 0 || !zeroAt b 38 2 || !dAddrOk b 16 || !dAddrOk b 24 || drainRes b 40

/-- What the body of a SCAN shows by itself, of its issue checks (Table 8.7). -/
def scanOwn (s : State) (q : Nat) (b : List Byte) : Chk :=
  { violation := !structRange s q (dAddr b 16) 64 || !structRange s q (dAddr b 24) (16 * scItems b)
    format := !(dFmt b == 2 || dFmt b == 3) || !(decide (2 ≤ dOfmt b) && decide (dOfmt b ≤ 5)) || bF b 36 1 % 4 == 3 ||
      !zeroAt b 40 16 || scanRes b
    align := dAddr b 16 % 64 != 0 || dAddr b 24 % 16 != 0
    shape := false
    capacity := decide (65536 < scItems b) || grantCount s q == 0
    zero := scItems b == 0 }

/-- The issue checks of a SCAN on its block and its items (Table 8.7). -/
def chkScan (s : State) (q : Nat) (b k list : List Byte) : Chk :=
  let items := List.range (scItems b)
  let h := scH s q
  let n := scN s q
  let p := scP s q
  let w := fmtBytes ((inFmt b).getD .k16)
  let wC := fmtBytes ((outFmt b).getD .k16)
  let il := (dAddr b 24, 16 * scItems b)
  let ten := [(0, 40, h * p * w), (8, 44, 2 * h * n), (16, 48, 2 * h * n), (24, 52, 2 * h), (32, 56, h * p * wC)]
  let rng := fun (t : Nat × Nat × Nat) i => scRange list (bF k t.1 6) (bF k t.2.1 4) t.2.2 i
  let y := fun i => rng (32, 56, h * p * wC) i
  let meets := fun (x y : Nat × Nat) => rangesMeet x.1 x.2 y.1 y.2
  let rows := items.foldl (fun a i => a + (scItem list i).2.2) 0
  let inTab := fun i => decide ((scItem list i).1 < scStreams s q)
  { chkNone with
    violation := items.any fun i => ten.any (fun t => !opRange s q (rng t i).1 (rng t i).2) ||
        (inTab i && !structRange s q (scEntry s q (scItem list i).1) 32)
    format := (List.range 5).any (fun i => !dAddrOk k (8 * i)) || !zeroAt k 60 4 ||
      items.any fun i => bF list (16 * i) 4 / 2 ^ 20 != 0 || !zeroAt list (16 * i + 12) 4 ||
        (inTab i && scState s q (scItem list i).1 == 0)
    align := ten.any fun t => bF k t.1 6 % 32 != 0 || bF k t.2.1 4 % 32 != 0
    shape := (decide (1 < rows) && ten.any fun t => decide (bF k t.2.1 4 < t.2.2)) ||
      items.any fun i => items.any (fun o => (i != o && meets (y i) (y o)) ||
        (ten.take 4).any fun t => meets (y i) (rng t o)) || meets (y i) (dAddr b 16, 64) || meets (y i) il
    capacity := decide (scSlots s q < (scDistinct b list).length) ||
      items.any fun i => !inTab i || decide (2 ^ 20 < (scItem list i).2.2) || decide (2 ^ 24 < (scItem list i).2.1 + (scItem list i).2.2) }

/-- A SCAN in progress. -/
def scanFlight (s : State) (fid : Nat) : Option (Flight × ScanWork) :=
  match flightOf s fid with
  | some f =>
    if dOp f.bytes ≠ 0x06 ∨ f.result.isSome ∨ scratchShut s f.q then none
    else some (f, match f.work with
      | .scan w => w
      | _ => ⟨false, false, 0, (outFmt f.bytes).getD .k16, 0, [], false, none, [], 0⟩)
  | none => none

/-- A step of a SCAN on its tables did not pass: it waits, or ends the SCAN. -/
def scanStop (fid : Nat) (e : Stop) (s : State) : State :=
  if e.code = heldMark then noteChans fid [(e.addr, 1)] s else finish fid e.code 0 (stopped e s)

/-- SCN admits a SCAN: it takes a reference on each of its streams, or counts that it waits (R191). -/
def scanTake (fid : Nat) (s : State) : State :=
  match scanFlight s fid with
  | some (f, w) =>
    let p := f.q
    let ds := scDistinct f.bytes f.cap.list
    if scSlots s p < scRefd s p + ds.length then
      wh (!w.waited) (inc (pgScn p) Fld.SCN_ADMIT_WAIT 1)
        (updFlight fid (fun f => { f with work := .scan { w with waited := true } }) s)
    else
      let r := ds.foldl (fun r t => scPut .beside p t 4 4 (scF r.1 p t 4 4 + 1) r) (s, none)
      match r.2 with
      | some e => scanStop fid e s
      | none => updFlight fid (fun f => { f with
          snap := some r.1.mem, work := .scan { w with admitted := true, d := ds.length } }) r.1
  | none => s

/-- SCN comes to the partition's next SCAN (R191): it reads the entries again, and one whose stream has become UNUSED completes with
FORMAT. -/
def scanAdmit (p : Nat) (s : State) : State :=
  match s.flights.find? (fun f => f.q == p && dOp f.bytes == 0x06 && f.result.isNone && !scanAdmitted f) with
  | none => s
  | some f =>
    match scanFlight s f.fid with
    | none => s
    | some _ =>
      let ds := scDistinct f.bytes f.cap.list
      if ds.any fun t => !ownStruct s p (scEntry s p t) 32 then finish f.fid 0x20 0 s else
      let r := ds.foldl (fun r t => scRead p t r) (s, none)
      match r.2 with
      | some e => scanStop f.fid e s
      | none => if ds.any fun t => scState s p t == 0 then finish f.fid 0x13 0 s else scanTake f.fid s

/-- The item may run its next chunk (R193): every earlier item of its stream is applied and the stream is RESIDENT. -/
def scanReady (s : State) (f : Flight) (w : ScanWork) (n : Nat) : Bool :=
  let t := (scItem f.cap.list n).1
  w.admitted && !w.ovf && decide (n < scItems f.bytes) && scState s f.q t == 2 && !earlierScan s f t &&
    (earlierItems f n).all (itemDone s f w)

/-- What one chunk of one head gives: y elements, new state words with their addresses, how many of those are infinite or NaN, and an
overflow without successor. -/
structure ChunkOut where
  ys : List (Nat × Stored)
  state : List (Nat × Nat)
  special : Nat
  bad : Bool
deriving DecidableEq, Repr

/-- A K16 rounding to nearest-even and whether it overflowed. -/
def toK16 (v : Val) : Val × Bool := roundTo .k16 .near v

/-- The decays of a chunk: g, and the row of L for each step (step 1 of R180). -/
def decays (a : List Val) : List Val × List (List Val) :=
  let r := a.zipIdx.foldl (fun (x : List Val × List (List Val)) e =>
    let g := match x.1.getLast? with
      | some y => aMul y e.1
      | none => e.1
    let row := match x.2.getLast? with
      | some l => l.map (fun v => aMul v e.1) ++ [vNat 1]
      | none => [vNat 1]
    (x.1 ++ [g], x.2 ++ [row])) ([], [])
  r

/-- One chunk of one head (R180, R182). `src` and `dst` are the images it reads and writes, `row` its first row, `len` its
steps, `steps` the stream's count at its start. -/
def chunkOut (m st : List Host.Cell) (f : Flight) (ofmt sf : Fmt) (hh nn pp h t row len steps src dst : Nat) : ChunkOut :=
  let k := f.cap.blk
  let fx := (inFmt f.bytes).getD .k16
  let w := fmtBytes fx
  let js := List.range len
  let ns := List.range nn
  let ps := List.range pp
  let base := baseFmt sf
  let ho := if dFmt f.bytes = 3 ∨ sf = .gp32 then Fmt.g16 else .k16
  let xv := fun (j p : Nat) => decodeWord fx (mLE m (bF k 0 6 + (row + j) * bF k 40 4 + (h * pp + p) * w) w)
  let bv := fun (j n : Nat) => decodeWord .k16 (mLE m (bF k 8 6 + (row + j) * bF k 44 4 + 2 * (h * nn + n)) 2)
  let cv := fun (j n : Nat) => decodeWord .k16 (mLE m (bF k 16 6 + (row + j) * bF k 48 4 + 2 * (h * nn + n)) 2)
  let (g, l) := decays (js.map fun j => decodeWord .k16 (mLE m (bF k 24 6 + (row + j) * bF k 52 4 + 2 * h) 2))
  let at_ := fun (n p : Nat) => 4 * ((h * nn + n) * pp + p)
  let sv := fun (n p : Nat) => decodeWord base (mLE st (src + at_ n p) 2)
  let se := fun (n p : Nat) => decodeWord base (mLE st (src + at_ n p + 2) 2)
  let last := l.getD (len - 1) []
  let glast := g.getD (len - 1) vZero
  let tv := ps.map fun p => js.map fun j =>
    let a := ns.foldl (fun a n => aAdd a (vMul (sv n p) (cv j n))) vZero
    let a := ns.foldl (fun a n => aAdd a (vMul (se n p) (cv j n))) a
    pairOf ho .near (aMul (g.getD j vZero) a)
  let tm := js.map fun j => js.map fun i =>
    if j < i then (vZero, false)
    else toK16 (aMul (ns.foldl (fun a n => aAdd a (vMul (cv j n) (bv i n))) vZero) ((l.getD j []).getD i vZero))
  let tq := js.map fun i => ns.map fun n => toK16 (aMul (last.getD i vZero) (bv i n))
  let ys := js.flatMap fun j => ps.map fun p =>
    let v0 := (tv.getD p []).getD j (vZero, vZero, false)
    let y := js.foldl (fun a i => aAdd a (vMul (xv i p) ((tm.getD j []).getD i (vZero, false)).1)) (aAdd v0.1 v0.2.1)
    (bF k 32 6 + (row + j) * bF k 56 4 + (h * pp + p) * fmtBytes ofmt,
      storeElem ofmt false (modeAt (rndOf f) (((row + j) * hh + h) * pp + p)) y)
  let tz := ps.map fun p => ns.map fun n =>
    pairOf ho .near (js.foldl (fun a i => aAdd a (vMul (xv i p) ((tq.getD i []).getD n (vZero, false)).1)) vZero)
  let rnd := { rndOf f with tid := dTid f.bytes ^^^ 0x10000000, step := steps % 2 ^ 32 }
  let hand := ns.flatMap fun n => ps.map fun p =>
    let zp := (tz.getD p []).getD n (vZero, vZero, false)
    let x := twoSum (aMul glast (sv n p)) (aAdd zp.1 zp.2.1)
    let r := aAdd x.2 (aMul glast (se n p))
    (dst + at_ n p, pairRound base (modeAt rnd (t * 2 ^ 18 + (h * nn + n) * pp + p)) x.1 r)
  ⟨ys, hand.map fun x => (x.1, pairWord base x.2.1 x.2.2.1), (hand.filter fun x => vIsSpecial x.2.1).length,
    (tv.any fun l => l.any fun x => x.2.2) || (tm.any fun l => l.any fun x => x.2) || (tq.any fun l => l.any fun x => x.2) ||
      (tz.any fun l => l.any fun x => x.2.2) || hand.any fun x => x.2.2.2⟩

/-- The tiles of a product on the arrays with the MAC cycles and the MACs of each (R181); of tile W only the blocks that are
not wholly above the diagonal. -/
def chunkTiles (m n k : Nat) (lower : Bool) : List (Nat × Nat) :=
  let p := planOf 2 m n k 1 true 160
  (List.range p.nM).flatMap fun r => (List.range p.nN).filterMap fun c =>
    if lower && decide (r * p.mt + p.mt ≤ c * p.nt) then none else some (k, p.mt * p.nt * k)

/-- The counters of a chunk's run (R181, R80). -/
def countChunk (a nn pp len : Nat) (s : State) : State :=
  let u := chunkTiles pp len len false
  let l := chunkTiles pp len (2 * nn) false ++ chunkTiles len len nn true ++ u ++ chunkTiles pp nn len false
  let s := l.foldl (fun s x => countTile a x.2 s) (raisePoint a (arrCount a 8 1 s))
  u.foldl (fun s _ => countStall a s) (countRun a (l.map Prod.fst) s)

/-- The y rows of a SCAN. -/
def scanRegion (s : State) (f : Flight) (o : Fmt) : List (Nat × Nat) :=
  (List.range (scItems f.bytes)).map fun i =>
    scRange f.cap.list (bF f.cap.blk 32 6) (bF f.cap.blk 56 4) (scH s f.q * scP s f.q * fmtBytes o) i

/-- A SCAN whose every item is done has its result (R195, R451). -/
def scanDone (fid : Nat) (s : State) : State :=
  match scanFlight s fid with
  | some (f, w) =>
    if !w.admitted ∨ w.ovf ∨ !allBelow (scItems f.bytes) (fun n => itemDone s f w n) then s else
    let s := raiseArrays f.q 0x0A 1 w.special s
    let s := wh (w.hand != 0) (raiseV (pgScn f.q) 0x0A 0 1 (some f.q) 0 w.hand (binLog w.hand)) s
    let s := match w.first with
      | some pg => raiseV pg 0x08 0x40 (fmtCode w.ofmt) (some f.q) 0 w.pass (binLin w.pass) s
      | none => s
    finish fid (if w.pass = 0 then 0 else 0x40) 0 (updFlight fid (fun f => { f with replays := w.pass }) s)
  | none => s

/-- What a chunk of a head reads: rows of x, B, C and a, and the state of the head. -/
def scanReads (s : State) (f : Flight) (h row len src : Nat) : List (Nat × Nat) :=
  let k := f.cap.blk
  let nn := scN s f.q
  let pp := scP s f.q
  let w := fmtBytes ((inFmt f.bytes).getD .k16)
  ((List.range len).flatMap fun j =>
    [(bF k 0 6 + (row + j) * bF k 40 4 + h * pp * w, pp * w),
     (bF k 8 6 + (row + j) * bF k 44 4 + 2 * h * nn, 2 * nn),
     (bF k 16 6 + (row + j) * bF k 48 4 + 2 * h * nn, 2 * nn),
     (bF k 24 6 + (row + j) * bF k 52 4 + 2 * h, 2)]) ++ [(src + 4 * h * nn * pp, 4 * nn * pp)]

/-- What a chunk of a head writes: rows of y, and the next state of the head. -/
def scanWrites (s : State) (f : Flight) (ofmt : Fmt) (h row len dst : Nat) : List (Nat × Nat) :=
  let k := f.cap.blk
  let pp := scP s f.q
  let w := fmtBytes ofmt
  ((List.range len).map fun j => (bF k 32 6 + (row + j) * bF k 56 4 + h * pp * w, pp * w)) ++
    [(dst + 4 * h * scN s f.q * pp, 4 * scN s f.q * pp)]

/-- A SCAN ends with an overflow that no replay mends: its y rows are undefined (R106, R108). -/
def scanBad (f : Flight) (w : ScanWork) (pg : Page) (fmt : Nat) (s : State) : State :=
  let s := scrambleAll (scanRegion s f w.ofmt) s
  let s := raiseV (w.first.getD pg) 0x08 0x41 fmt (some f.q) 1 w.pass (binLin w.pass) s
  finish f.fid 0x41 0 (updFlight f.fid (fun f => { f with replays := w.pass }) s)

/-- What a chunk on an array gives takes effect (R180): an overflow, or y rows and the next state. -/
def scanStore (f : Flight) (w : ScanWork) (a n h done : Nat) (o : ChunkOut) (s : State) : State :=
  if o.bad then scanBad f w (pgScn f.q) (fmtCode (scFmt s f.q)) s
  else if o.ys.any fun e => e.2.overflow then
    (match replayNext w.ofmt with
    | some _ => updFlight f.fid (fun f => { f with work := .scan { w with ovf := true, first := some (w.first.getD (pgArr a)) } }) s
    | none => scanBad f w (pgArr a) (fmtCode w.ofmt) s)
  else
    let ws := joinWrites (o.ys.map fun e => (e.1, toLE (fmtBytes w.ofmt) e.2.word)) ++ joinWrites (o.state.map fun e => (e.1, toLE 4 e.2))
    let y := writeAll .yard f.q f.fid ws s
    match y.2 with
    | some c => finish f.fid c 0 y.1
    | none =>
      let w := { w with
        chunks := (w.chunks.filter fun e => e.1 != (n, h)) ++ [((n, h), done + 1)]
        special := tabAdd w.special a (o.ys.filter fun e => e.2.special).length
        hand := w.hand + o.special }
      scanDone f.fid (updFlight f.fid (fun f => { f with work := .scan w }) y.1)

/-- The array that a chunk's run takes (R132, R181): its first A chunk is the head's state. -/
def scanPlace (s : State) (f : Flight) (h src : Nat) (l : List Nat) : Option Nat :=
  bestBy (sliceAff s f.q (some ((src + 4 * h * scN s f.q * scP s f.q) / 512))) l

/-- One chunk of one head of an item (R180). -/
def scanChunk (fid n h : Nat) (s : State) : State :=
  match scanFlight s fid with
  | some (f, w) =>
    let p := f.q
    let x := scItem f.cap.list n
    let done := chunksDone w n h
    let pin := bit 0 (bF f.bytes 37 1)
    if !scanReady s f w n ∨ scH s p ≤ h ∨ scChunks f n ≤ done ∨ arraysStopped s then s else
    match scSlotOf s p x.1 with
    | some sl =>
      let lc := scLc f.bytes
      let row := x.2.1 + done * lc
      let len := min lc (x.2.2 - done * lc)
      let fresh := (earlierItems f n).isEmpty && done == 0
      let src := scImage s p sl.slot (if fresh then sl.cur else 1 - sl.cur)
      let dst := scImage s p sl.slot (1 - sl.cur)
      let steps := scF s p x.1 16 8 + (earlierItems f n).foldl (fun a i => a + (scItem f.cap.list i).2.2) 0 + done * lc
      let rd := scanReads s f h row len src
      let wr := scanWrites s f w.ofmt h row len dst
      if mustWait s fid rd wr then noteWait fid rd wr s else
      match scanPlace s f h src (candidatesBy s f pin) with
      | some a =>
        let best := scanPlace s f h src (idleArrays s p)
        let acts := pinActs s f pin
        let r := readAll .yard p rd (proceed fid s)
        match r.2 with
        | some c => finish fid c 0 r.1
        | none =>
          let o := chunkOut (snapOf s f) s.mem f w.ofmt (scFmt s p) (scH s p) (scN s p) (scP s p) h x.1 row len steps src dst
          scanStore f w a n h done o (countPin f pin acts best a (countChunk a (scN s p) (scP s p) len r.1))
      | none => s
    | none => s
  | none => s

/-- Every chunk of an item's head that can run. -/
def scanHead (fid n h : Nat) : Nat → State → State
  | 0, s => s
  | k + 1, s => scanHead fid n h k (scanChunk fid n h s)

/-- A SCAN runs as far as it can: admission, swap-ins, chunks (R193). -/
def scanGo (fid : Nat) (s : State) : State :=
  match scanFlight s fid with
  | some (f, w) =>
    let s := if w.admitted then s else scanAdmit f.q s
    match scanFlight s fid with
    | some (f, w) =>
      if !w.admitted then s else
      let s := (List.range (scItems f.bytes)).foldl (fun s n =>
        if (scItem f.cap.list n).2.2 = 0 then s else
        let s := scBringIn f.q (scItem f.cap.list n).1 s
        (List.range (scH s f.q)).foldl (fun s h => scanHead fid n h (scChunks f n) s) s) s
      scanDone fid s
    | none => s
  | none => s

/-- The replay of a SCAN: OFMT advances and every item runs again from the current images (R195). -/
def scanReplay (fid : Nat) (s : State) : State :=
  match scanFlight s fid with
  | some (_, w) =>
    if !w.ovf then s else
    let o := (replayNext w.ofmt).getD w.ofmt
    updFlight fid (fun f => { f with work := .scan { w with ofmt := o, pass := w.pass + 1, chunks := [], ovf := false, special := [], hand := 0 } }) s
  | none => s

/-- The steps that a SCAN gives a stream. -/
def scanSteps (f : Flight) (t : Nat) : Nat :=
  (List.range (scItems f.bytes)).foldl (fun a n => if (scItem f.cap.list n).1 = t then a + (scItem f.cap.list n).2.2 else a) 0

/-- The stream's other image becomes its current one. -/
def scanTurn (p t : Nat) (s : State) : State :=
  match scSlotOf s p t with
  | some x => setSc p { sc s p with slots := ((sc s p).slots.filter fun y => y.stream != t) ++ [{ x with cur := 1 - x.cur }] } s
  | none => s

/-- The streams of a SCAN in the order of their slots: those that one step makes current count as equally old, and of them the one in the
lowest slot is evicted first (R197). -/
def bySlot (s : State) (p : Nat) (ds : List Nat) : List Nat :=
  ((ds.foldl (fun (a : Tab (Option Nat)) t => match scSlotOf s p t with
    | some x => tabSet (fun _ => none) a x.slot (some t)
    | none => a) []).map Prod.snd).filterMap id

/-- The references of an admitted SCAN are released, whatever the writes of the entries meet (R194). -/
def scanRelease (f : Flight) (s : State) : State :=
  if scanAdmitted f then (scDistinct f.bytes f.cap.list).foldl (fun s t => (scPut .beside f.q t 4 4 (scF s f.q t 4 4 - 1) (s, none)).1) s else s

/-- SCN acts on a SCAN's final outcome (R194): with class S or W the next images become current and the steps count; the
references are released in any case. -/
def scanOutcome (f : Flight) (r : Try) : Try :=
  match f.work, f.result with
  | .scan w, some code =>
    if !w.admitted then r else
    let p := f.q
    let ds := scDistinct f.bytes f.cap.list
    let r := ds.foldl (fun r t => scPut .beside p t 4 4 (scF r.1 p t 4 4 - 1) (scRead p t r)) r
    if isF code then r else
    let r := ds.foldl (fun r t => scPut .beside p t 16 8 (scF r.1 p t 16 8 + scanSteps f t) r) r
    tryDo (fun s => (bySlot s p ds).foldl (fun s t => scanTurn p t s)
      (inc (pgScn p) Fld.SCN_STEPS ((ds.map (scanSteps f)).foldl (· + ·) 0) s)) r
  | _, _ => r

/-! ### SWAP (R198) -/

/-- The issue checks of a SWAP (R198). -/
def chkSwap (s : State) (q : Nat) (b : List Byte) : Chk :=
  { chkNone with
    format := bF b 2 1 != 0 || dSR b || bF b 16 4 / 2 ^ 20 != 0 || decide (3 ≤ bF b 24 1) || !zeroAt b 25 39
    capacity := decide (scStreams s q < bF b 16 4 % 2 ^ 20 + bF b 20 4)
    zero := bF b 20 4 == 0 }

/-- A SWAP in progress with an operation. -/
def swapFlight (s : State) (fid op : Nat) : Option (Flight × SwapWork) :=
  match flightOf s fid with
  | some f =>
    if dOp f.bytes ≠ 0x0B ∨ bF f.bytes 24 1 ≠ op ∨ f.result.isSome then none
    else some (f, match f.work with
      | .swap w => w
      | _ => ⟨(List.range (bF f.bytes 20 4)).map fun i => bF f.bytes 16 4 % 2 ^ 20 + i, [], none⟩)
  | none => none

/-- A SWAP may not reach the stream: its entry, or the siding that it would copy from or to, is no longer the partition's
(R349). -/
def swapDenied (op p t : Nat) (s : State) : Bool :=
  !ownStruct s p (scEntry s p t) 32 ||
    ((if op = 1 then scState s p t == 1 else scState s p t == 2) && !sidingOwned s p t)

/-- What became of a stream of a SWAP: it is done with a code; it waits, on a swap of the SWAP's own or on another; or an access of the
step is held, and the step is tried again. -/
inductive SwapNow where
  | done (code : Nat)
  | waits (own : Bool)
  | held
deriving DecidableEq, Repr

/-- A step of a SWAP on a stream, with what it means when it passes. -/
def swapTry (ok : SwapNow) (s : State) (r : Try) : State × SwapNow :=
  match r.2 with
  | some e => if e.code = heldMark then (s, .held) else (stopped e s, .done e.code)
  | none => (r.1, ok)

/-- A SWAP IN wants a stream. -/
def swapWant (p t : Nat) (s : State) : State :=
  setSc p { sc s p with
    want := (sc s p).want.filter (fun x => x != t) ++ [t]
    lost := (sc s p).lost.filter fun x => x.1 != t } s

/-- One stream of a SWAP (Table 8.9). -/
def swapStream (op p t : Nat) (s : State) : State × SwapNow :=
  let full := (scFreeSlot s p).isNone && (sc s p).slots.all fun x => scReferenced s p x.stream
  if swapDenied op p t s then (s, .done 0x20)
  else if (scRead p t (s, none)).2.isSome then swapTry .held s (scRead p t (s, none))
  else if scState s p t = 0 then (s, .done 0x13)
  else if scReferenced s p t then (s, .done (if op = 1 then 0 else 0x52))
  else match op, scState s p t with
    | 0, 2 => swapTry (.waits true) s (swapOutStart p t (s, none))
    | 0, 3 => (s, .waits true)
    | 0, 4 => (s, .waits false)
    | 1, 1 => if full then (s, .done 0x11) else (swapInStart p t (swapWant p t s), .waits true)
    | 1, 3 => (swapWant p t s, .waits true)
    | 1, 4 => (s, .waits false)
    | 2, 2 => swapTry (.done 0) s (scStore .beside p t (s, none))
    | 2, 3 => (s, .waits false)
    | 2, 4 => (s, .waits true)
    | _, _ => (s, .done 0)

/-- A stream that a SWAP waits on, looked at again (Table 8.9). -/
def swapAgain (op p t : Nat) (own : Bool) (s : State) : State × SwapNow :=
  if swapDenied op p t s then (s, .done 0x20)
  else match op, own with
    | 0, true => (s, if scState s p t = 3 then .waits true else .done 0)
    | 0, false => match scState s p t with
      | 2 => if scReferenced s p t then (s, .waits false) else swapTry (.waits true) s (swapOutStart p t (scRead p t (s, none)))
      | 3 => (s, .waits true)
      | 4 => (s, .waits false)
      | _ => (s, .done 0)
    | 1, true =>
      if scState s p t = 0 then (setSc p { sc s p with want := (sc s p).want.filter fun x => x != t } s, .done 0)
      else if (sc s p).want.contains t then (swapInStart p t s, .waits true)
      else (s, .done (((sc s p).lost.find? fun x => x.1 == t).getD (t, 0)).2)
    | 1, false => (s, if scState s p t = 4 then .waits false else .done 0)
    | _, true => match scState s p t with
      | 2 => swapTry (.done 0) s (scStore .beside p t (scRead p t (s, none)))
      | 3 | 4 => (s, .waits true)
      | _ => (s, .done 0)
    | _, false => (s, if scState s p t = 3 then .waits false else .done 0)

/-- The first failing code of a SWAP; a failure after the first is counted without ending the SWAP (R198). -/
def swapCode (p code : Nat) (w : SwapWork) (s : State) : State × SwapWork :=
  (wh (w.fail.isSome && code != 0) (countCode (pgDsp p) code 0 (some p)) s,
    { w with fail := if w.fail.isNone && code != 0 then some code else w.fail })

/-- A stream of a SWAP handled, or kept for later behind one whose step is held: streams go in ascending order (R198). -/
def swapFirst (op p t : Nat) (w : SwapWork) (s : State) : State × SwapWork :=
  if !w.left.isEmpty then (s, { w with left := w.left ++ [t] }) else
  let y := swapStream op p t s
  match y.2 with
  | .held => (y.1, { w with left := [t] })
  | .waits own => (y.1, { w with waitFor := w.waitFor ++ [(t, own)] })
  | .done c => swapCode p c w y.1

/-- What a turn of a stream leaves of a SWAP's work. -/
def swapTurned (p : Nat) (w : SwapWork) (x : Nat × Bool) (y : State × SwapNow) : State × SwapWork :=
  match y.2 with
  | .held => (y.1, { w with waitFor := w.waitFor ++ [x] })
  | .waits own => (y.1, { w with waitFor := w.waitFor ++ [(x.1, own)] })
  | .done c => swapCode p c w y.1

/-- One turn of a stream that a SWAP waits on: the swaps in progress end, and it is looked at again. -/
def swapTurn (op p : Nat) (a : State × SwapWork) (x : Nat × Bool) : State × SwapWork :=
  swapTurned p a.2 x (swapAgain op p x.1 x.2 (swapInComplete p x.1 (swapOutsEnd p a.1)))

/-- One turn of every stream that a SWAP waits on. -/
def swapTurns (op p : Nat) (a : State × SwapWork) : State × SwapWork :=
  a.2.waitFor.foldl (swapTurn op p) (a.1, { a.2 with waitFor := [] })

/-- A SWAP handles its streams in ascending order, the swaps that it started run to their ends, and it has its result once
every one has ended (R198). A swap takes three turns at most: an eviction, the swap, its end. -/
def swapGo (op fid : Nat) (s : State) : State :=
  match swapFlight s fid op with
  | some (f, w) =>
    let p := f.q
    let r := w.left.foldl (fun (a : State × SwapWork) t => swapFirst op p t a.2 a.1) (s, { w with left := [] })
    let r := swapTurns op p (swapTurns op p (swapTurns op p r))
    let s := updFlight fid (fun f => { f with work := .swap r.2 }) r.1
    if r.2.waitFor.isEmpty && r.2.left.isEmpty then finish fid (r.2.fail.getD 0) 0 s else s
  | none => s

/-! ### Commands (R199) -/

/-- The result of an SCN command. -/
def scnResult (p code : Nat) (s : State) : State :=
  st (pgScn p) Fld.SCN_CMD_STAT_CODE code (st (pgScn p) Fld.SCN_CMD_STAT_BUSY 0 s)

/-- The stream is free of references and of swaps in progress. -/
def scQuiet (s : State) (p t : Nat) : Bool := !scReferenced s p t && scState s p t != 3 && scState s p t != 4

/-- The pieces of a siding: own HBM, and not elsewhere (Table 10.2). -/
def sidingPiece (s : State) (p x : Nat) : Bool :=
  ownsAt s p x && (match regionOf x with
    | .hbm _ => true
    | _ => false)

/-- The checks of OPEN on a stream entry (Table 8.11). -/
def scnOpenChk (s : State) (p t : Nat) : Chk :=
  let bs := rdBytes s (scEntry s p t) 32
  let a := bF bs 8 6
  { chkNone with
    violation := !(piecesOf a (scSB s p)).all (sidingPiece s p)
    format := bF bs 0 1 / 8 != 0 || !zeroAt bs 1 3 || !dAddrOk bs 8 || bF bs 24 2 / 2 ^ 13 != 0 || !zeroAt bs 26 6
    align := a % 512 != 0
    shape := !(piecesOf a (scSB s p)).all fun x => regionOf x == regionOf a }

/-- OPEN takes effect. -/
def scnOpen (p t : Nat) (s : State) : Try :=
  tryDo (inc (pgScn p) Fld.SCN_OPEN 1) (scPut .beside p t 16 8 0 (scPut .beside p t 4 4 0 (scPut .beside p t 0 1 1 (s, none))))

/-- CLOSE of an unreferenced stream with no swap in progress: a resident state is written back and its slot is freed. -/
def scnClose (p t : Nat) (s : State) : Try :=
  let r := if scState s p t = 2 then
      tryDo (swapOutEnd .beside p t) (scStore .beside p t (s, none))
    else (s, none)
  tryDo (fun s => st (pgScn p) Fld.SCN_OPEN (rg s (pgScn p) Fld.SCN_OPEN - 1) s) (scPut .beside p t 0 1 0 r)

/-- ZERO of an unreferenced stream with no swap in progress. -/
def scnZero (p t : Nat) (s : State) : Try :=
  let a := match scState s p t, scSlotOf s p t with
    | 2, some x => scImage s p x.slot x.cur
    | _, _ => scSiding s p t
  tryWrite .beside p a (List.replicate (scSB s p) 0) (s, none)

/-- A command waits: BUSY stays 1. -/
def scnWait (p op t : Nat) (s : State) : State := setSc p { sc s p with waiting := some (op, t) } s

/-- A step of a command ends: it has taken effect, waits for what is held, or has met a code. -/
def scnEnds (p op t : Nat) (s : State) (r : Try) : State :=
  match r.2 with
  | none => scnResult p 0 r.1
  | some e => if e.code = heldMark then scnWait p op t s else scnResult p e.code (stopped e s)

/-- A command on a stream of the table, as one SCN step (R199); a siding that it needs and the partition has lost refuses it
(R349). -/
def scnRun (p op t : Nat) (s : State) : State :=
  let r := scRead p t (s, none)
  if r.2.isSome then scnEnds p op t s r
  else if op = 1 then
    (if scState s p t ≠ 0 then scnResult p 0x13 s
    else if chkCode (scnOpenChk s p t) ≠ 0 then scnResult p (chkCode (scnOpenChk s p t)) s
    else scnEnds p op t s (scnOpen p t s))
  else if scState s p t = 0 then scnResult p 0x13 s
  else if !scQuiet s p t then scnWait p op t s
  else if (if op = 2 then scState s p t == 2 else scState s p t != 2) && !sidingOwned s p t then scnResult p 0x20 s
  else scnEnds p op t s (if op = 2 then scnClose p t s else scnZero p t s)

/-- A write of SCN_CMD by the partition (R199). -/
def scnCommand (p op t : Nat) (s : State) : State :=
  let pg := pgScn p
  if rg s pg Fld.SCN_CMD_STAT_BUSY = 1 then st pg Fld.SCN_CMD_STAT_IGNORED 1 s
  else
    let s := st pg Fld.SCN_CMD_STAT_BUSY 1 s
    if op = 0 ∨ 4 ≤ op then scnResult p 0x13 s
    else if partState s p = .torn then scnResult p 0x71 s
    else if scStreams s p ≤ t then scnResult p 0x11 s
    else if !ownStruct s p (scEntry s p t) 32 then scnResult p 0x20 s
    else scnRun p op t s

/-- A command that waited proceeds: a CLOSE or a ZERO once its stream is quiet (R199), any once nothing holds its accesses. -/
def scnReleased (p : Nat) (s : State) : State :=
  match (sc s p).waiting with
  | some (op, t) => scnRun p op t (setSc p { sc s p with waiting := none } s)
  | none => s

/-- The partition that commands an SCN page: its own (R200). -/
def scnRow (part op stream : Nat) (s : State) : State :=
  if 16 ≤ part then { s with bus := (0x20, 0) } else { scnCommand part op stream s with bus := (0, 0) }

/-- SCAN (R188). -/
def execScan (fid : Nat) (s : State) : Host.Outcome State Fault Refusal := .next (wh (on s) (scanGo fid) s)

/-- SWAP_OUT (R198). -/
def execSwapOut (fid : Nat) (s : State) : Host.Outcome State Fault Refusal := .next (wh (on s) (swapGo 0 fid) s)

/-- SWAP_IN (R198). -/
def execSwapIn (fid : Nat) (s : State) : Host.Outcome State Fault Refusal := .next (wh (on s) (swapGo 1 fid) s)

/-- SWAP_SYNC (R198). -/
def execSwapSync (fid : Nat) (s : State) : Host.Outcome State Fault Refusal := .next (wh (on s) (swapGo 2 fid) s)

/-- SCAN_ADMIT (R191). -/
def execScanAdmit (part : Nat) (s : State) : Host.Outcome State Fault Refusal := .next (wh (on s) (scanAdmit part) s)

/-- SCAN_CHUNK (R180). -/
def execScanChunk (fid item head : Nat) (s : State) : Host.Outcome State Fault Refusal :=
  .next (wh (on s) (scanChunk fid item head) s)

/-- STREAM_SWAP_IN (R197). -/
def execStreamSwapIn (part stream : Nat) (s : State) : Host.Outcome State Fault Refusal :=
  .next (wh (on s) (streamSwapIn part stream) s)

/-- SWAP_IN_COMPLETE (R187). -/
def execSwapInComplete (part stream : Nat) (s : State) : Host.Outcome State Fault Refusal :=
  .next (wh (on s) (swapInComplete part stream) s)

/-- SWAP_OUT_COMPLETE (R187). -/
def execSwapOutComplete (part stream : Nat) (s : State) : Host.Outcome State Fault Refusal :=
  .next (wh (on s) (swapOutComplete part stream) s)

/-- SCN_CMD_OPEN (R199). -/
def execScnCmdOpen (part stream : Nat) (s : State) : Host.Outcome State Fault Refusal := .next (wh (on s) (atDone (scnRow part 1 stream)) s)

/-- SCN_CMD_CLOSE (R199). -/
def execScnCmdClose (part stream : Nat) (s : State) : Host.Outcome State Fault Refusal := .next (wh (on s) (atDone (scnRow part 2 stream)) s)

/-- SCN_CMD_ZERO (R199). -/
def execScnCmdZero (part stream : Nat) (s : State) : Host.Outcome State Fault Refusal := .next (wh (on s) (atDone (scnRow part 3 stream)) s)

/-- SCN_CMD_RELEASED (R199). -/
def execScnCmdReleased (part : Nat) (s : State) : Host.Outcome State Fault Refusal := .next (wh (on s) (scnReleased part) s)

end Sys2Proof.Machine
end

