-- ==== Sys2Proof/Machine/Queue.lean ====
section
/-!
DEFINITION. The dispatcher: queue entries, issue checks and captures, issue, completion, the held state and the queue controls
(R33 to R47, R57, R58, R109).
-/
namespace Sys2Proof.Machine

/-- The dispatcher's state of a queue. -/
def qu (s : State) (q : Nat) : Queue := tabGet queueDefault s.queues q

/-- The state with a queue changed. -/
def setQu (q : Nat) (x : Queue) (s : State) : State := { s with queues := tabSet queueDefault s.queues q x }

/-- Entries of a ring (R33). -/
def qSize (s : State) (q : Nat) : Nat := 2 ^ rg s (pgDsp q) Fld.DSP_Q_SIZE

/-- The base of a ring. -/
def qRing (s : State) (q : Nat) : Nat := rg s (pgDsp q) Fld.DSP_Q_BASE_HI * 2 ^ 32 + rg s (pgDsp q) Fld.DSP_Q_BASE_LO * 4096

/-- HEAD_ENTRY. -/
def qHead (s : State) (q : Nat) : Nat := rg s (pgDsp q) Fld.DSP_Q_HEAD_HEAD_ENTRY

/-- HEAD_DESC. -/
def qDesc (s : State) (q : Nat) : Nat := rg s (pgDsp q) Fld.DSP_Q_HEAD_HEAD_DESC

/-- TAIL. -/
def qTail (s : State) (q : Nat) : Nat := rg s (pgDsp q) Fld.DSP_Q_TAIL

/-- The queue may issue: RUN is 1, it is not held, and its partition is ACTIVE (R46, R58, R354). Entries
submitted after a FLUSH issue before the flush has ended (log entry 82). -/
def qRuns (s : State) (q : Nat) : Bool :=
  rg s (pgDsp q) Fld.DSP_Q_CTRL_RUN == 1 && !(qu s q).held && partState s q == .active

/-! ### The held state (R46) -/

/-- A class F code meets a queue: the first holds it, a further one is counted (R46). -/
def hold (q code entry desc tag : Nat) (s : State) : State :=
  if (qu s q).held then countCode (pgDsp q) code 0 (some q) s
  else
    let s := setQu q { qu s q with held := true } s
    let s := st (pgDsp q) Fld.DSP_Q_STAT_HOLD_CODE code
      (st (pgDsp q) Fld.DSP_Q_HOLD_AT_ENTRY entry (st (pgDsp q) Fld.DSP_Q_HOLD_AT_DESC desc s))
    let s := pageErr (pgDsp q) code desc (some q) s
    notify q ⟨1, code, q, tag, entry, desc, rg s (pgDsp q) Fld.PAGE_ERR_INFO_DETAIL, 0⟩ s

/-- Conditions that lost are counted all the same (R11). -/
def countLost (q : Nat) (l : List Nat) (s : State) : State := l.foldl (fun s c => countCode (pgDsp q) c 0 (some q) s) s

/-! ### The head entry (R34) -/

/-- The head moves to the next entry. -/
def nextEntry (q : Nat) (s : State) : State :=
  setQu q { qu s q with entry := none, desc := none }
    (st (pgDsp q) Fld.DSP_Q_HEAD_HEAD_ENTRY ((qHead s q + 1) % qSize s q) (st (pgDsp q) Fld.DSP_Q_HEAD_HEAD_DESC 0 s))

/-- The head moves to the next descriptor. -/
def nextDesc (q : Nat) (s : State) : State :=
  match (qu s q).entry with
  | some e =>
    if qDesc s q + 1 < e.count then
      setQu q { qu s q with desc := none } (st (pgDsp q) Fld.DSP_Q_HEAD_HEAD_DESC (qDesc s q + 1) s)
    else nextEntry q s
  | none => s

/-- The entry at the head, read from its address with code `c`: it holds the queue, is consumed without descriptors (and the
next one is looked at), or becomes the current entry; its COUNT is judged last (R11, R34). -/
def entryRead (q a : Nat) (c : Option Nat) (s : State) : State × Bool :=
  match c with
  | some c => (hold q c (qHead s q) 0xFFFF 0 s, false)
  | none =>
    let b := rdBytes s a 16
    let tt := bF b 0 6
    let n := bF b 8 2
    let tag := bF b 12 4
    let c : Chk := { chkNone with
      violation := !structRange s q tt (64 * n)
      format := bF b 6 2 != 0 || bF b 10 2 != 0
      align := tt % 64 != 0 }
    if chkCode c ≠ 0 then
      (countLost q ((chkCodes c).drop 1) (hold q (chkCode c) (qHead s q) 0xFFFF tag (nextEntry q s)), false)
    else if n = 0 then (nextEntry q s, true)
    else (setQu q { qu s q with entry := some ⟨tt, n, tag⟩ } s, false)

/-- One entry looked at. An entry that cannot be read holds the queue where it is (log entry 27). -/
def takeOnce (q : Nat) (s : State) : State × Bool :=
  if (qu s q).entry.isSome ∨ qHead s q = qTail s q then (s, false)
  else if !structRange s q (qRing s q + 16 * qHead s q) 16 then (hold q 0x20 (qHead s q) 0xFFFF 0 s, false)
  else if heldRange s (qRing s q + 16 * qHead s q) 16 then (s, false)
  else
    let r := memRead .beside q (qRing s q + 16 * qHead s q) 16 s
    entryRead q (qRing s q + 16 * qHead s q) r.2 r.1

/-- Read and check the entry at the head; entries of no descriptors are consumed (R34). -/
def takeEntry (q : Nat) : Nat → State → State
  | 0, s => s
  | k + 1, s =>
    let r := takeOnce q s
    if r.2 then takeEntry q k r.1 else r.1

/-! ### Issue checks (R11, R38, R42) -/

/-- The checks of the header: PART and the tokens (R42), reserved bits (R5, R36), the opcode (R12). -/
def chkHeader (s : State) (q : Nat) (b : List Byte) : Chk :=
  { chkNone with
    violation := dPart b != q || (dWaitEn b && (tok s (dWaitTok b)).owner != q) || (dSigEn b && (tok s (dSigTok b)).owner != q)
    format := !hdrReserved b || dOp b == 0 || decide (16 ≤ dOp b) }

/-- The block that the dispatcher reads together with a descriptor (R120, R137, R168, R190, R260). -/
def opBlock (b : List Byte) : Nat × Nat :=
  match dOp b with
  | 0x02 | 0x03 | 0x09 => (dAddr b 16, 128)
  | 0x04 | 0x06 => (dAddr b 16, 64)
  | _ => (0, 0)

/-- The pointer list or item list that it reads with the block. -/
def opList (b blk : List Byte) : Nat × Nat :=
  match dOp b with
  | 0x02 => if gFlag b 0 then (bF blk 32 6, 32 * bF b 36 2) else (0, 0)
  | 0x04 => (bF blk 16 6, 16 * atItems b)
  | 0x06 => (dAddr b 24, 16 * scItems b)
  | _ => (0, 0)

/-- The product that the issue checks of a GEMM or a CONV judge. -/
def headJob (s : State) (q : Nat) (b blk list : List Byte) : Job :=
  ⟨b, blk, list, rg s (pgDsp q) Fld.DSP_Q_SEED_HI * 2 ^ 32 + rg s (pgDsp q) Fld.DSP_Q_SEED_LO, k8satNow s q, grantCount s q⟩

/-- The opcode runs on the arrays, which a closed yard refuses (R231). -/
def onArrays (b : List Byte) : Bool := dOp b == 0x02 || (dOp b == 0x03 && cvPool b != 2) || dOp b == 0x04 || dOp b == 0x06

/-- A reserved bit of the 64 bytes of an opcode with a block is set (R5); the other opcodes read nothing beyond the descriptor
before they are checked. -/
def bodyRes (b : List Byte) : Bool :=
  !hdrReserved b || (match dOp b with
    | 0x02 => gemmRes b || drainRes b 40
    | 0x03 => convRes b || drainRes b 40
    | 0x04 => attnRes b
    | 0x06 => scanRes b
    | 0x09 => ewiseRes b
    | _ => false)

/-- What the 64 bytes of a descriptor with a block show by themselves, of its issue checks. -/
def chkOwn (s : State) (q : Nat) (b : List Byte) : Chk :=
  let yard : Chk := { chkNone with violation := onArrays b && closed s q 9 }
  chkOr (chkOr (chkHeader s q b) yard) (match dOp b with
    | 0x02 => chkOr (gemmOwn s q (grantCount s q) b) (chkDrain s q b 40)
    | 0x03 => chkOr (convOwn s q (grantCount s q) b) (chkDrain s q b 40)
    | 0x04 => attnOwn s q b
    | 0x06 => scanOwn s q b
    | 0x09 => ewiseOwn s q b
    | _ => chkNone)

/-- The checks of the body, by opcode, on what was read with it; a CHECK's are beside them. -/
def chkBody (s : State) (q : Nat) (b blk list : List Byte) : Chk :=
  match dOp b with
    | 0x01 => chkMove s q b
    | 0x02 => chkGemm s q (headJob s q b blk list)
    | 0x03 => chkConv s q (headJob s q b blk list)
    | 0x04 => chkAttn s q b blk list
    | 0x05 => chkKvapp s q b
    | 0x06 => chkScan s q b blk list
    | 0x07 => chkReduce s q b
    | 0x08 => chkColl s q b
    | 0x09 => chkEwise s q b blk
    | 0x0A => chkStats s q b
    | 0x0B => chkSwap s q b
    | 0x0C => { chkNone with format := bF b 2 1 != 0 || dSR b || !zeroAt b 16 48 }
    | 0x0D => chkToken s q b
    | 0x0E => chkLease s q b
    | _ => chkNone

/-- The entries of a unit's table that the checks of a descriptor read: of the streams of an ATTN, a SCAN or a SWAP, of the group
of a COLL (Tables 7.11, 8.7, 13.15). -/
def opEntries (s : State) (q : Nat) (b list : List Byte) : List (Nat × Nat) :=
  let kv := ((List.range (atItems b)).map fun n => bF list (16 * n) 2).filter fun i => decide (i < kvStreams s q)
  let sc := ((List.range (scItems b)).map fun n => (scItem list n).1).filter fun i => decide (i < scStreams s q)
  match dOp b with
  | 0x04 => (uniq kv).map fun i => (kvEntry s q i, 64)
  | 0x06 => (uniq sc).map fun i => (scEntry s q i, 32)
  | 0x08 => if coGroup b < cgCount s q ∧ structRange s q (cgEntry s q (coGroup b)) 64 then [(cgEntry s q (coGroup b), 64)] else []
  | _ => []

/-- What the checks of a descriptor find, by its own 64 bytes and with what was read with it, the block and the list, and the
ranges read. -/
structure Judged where
  own : Chk
  chk : Chk
  blk : List Byte
  list : List Byte
  reads : List (Nat × Nat)
deriving DecidableEq, Repr

/-- The issue checks of a descriptor other than a CHECK. One with a reserved bit set reads nothing beyond itself (R5). Where its
block or list may not be read, the rest is not judged (log entry 115). -/
def judgeOp (s : State) (q : Nat) (b : List Byte) : Judged :=
  let own := chkOwn s q b
  let bad : Chk := { chkNone with violation := true }
  let x := opBlock b
  if bodyRes b then ⟨own, chkNone, [], [], []⟩
  else if !(if dOp b = 0x09 then opRange s q x.1 x.2 else structRange s q x.1 x.2) then ⟨own, bad, [], [], []⟩
  else
    let blk := rdBytes s x.1 x.2
    let y := opList b blk
    if !structRange s q y.1 y.2 then ⟨own, bad, blk, [], [x]⟩
    else
      let list := rdBytes s y.1 y.2
      ⟨own, chkBody s q b blk list, blk, list, [x, y] ++ opEntries s q b list⟩

/-- The formats in which the outputs of a descriptor may stand after replay (R106, R114). -/
def reachable (b : List Byte) : List (Option Fmt) :=
  let a := outFmt b
  let c := a.bind replayNext
  [a, c, c.bind replayNext]

/-- The issue checks of a CHECK: its own body, then its target's checks as if this queue had issued it (R114). -/
def judgeCheck (s : State) (q : Nat) (b : List Byte) : Judged :=
  let t := dAddr b 16
  let res := bF b 2 1 != 0 || dSR b || !dAddrOk b 16 || bF b 24 1 / 16 != 0 || !zeroAt b 27 37
  let own : Chk := chkOr (chkHeader s q b) { chkNone with
    violation := !structRange s q t 64
    format := res || decide (15 < bF b 25 1)
    align := t % 64 != 0 }
  if !structRange s q t 64 || res || !hdrReserved b then ⟨own, chkNone, [], [], []⟩
  else
    let tb := rdBytes s t 64
    let f := fmtOf (bF b 24 1 % 16)
    let bad : Bool := !(dOp tb == 0x02 || dOp tb == 0x03) || f.isNone || !(reachable tb).contains f || f == some .kp32 || f == some .gp32
    let bad : Chk := { chkNone with format := bad }
    if dOp tb ≠ 0x02 ∧ dOp tb ≠ 0x03 then ⟨own, bad, tb, [], [(t, 64)]⟩
    else
      let j := judgeOp s q tb
      ⟨own, chkOr bad (chkOr j.own j.chk), tb ++ j.blk, j.list, (t, 64) :: j.reads⟩

/-- The issue checks of a descriptor. -/
def judge (s : State) (q : Nat) (b : List Byte) : Judged :=
  if dOp b = 0x0F then judgeCheck s q b else judgeOp s q b

/-- The number under which a queue's head reads leased memory. -/
def askOf (q : Nat) (s : State) : Nat × State :=
  match (qu s q).ask with
  | some n => (n, s)
  | none => (s.nextFid, setQu q { qu s q with ask := some s.nextFid } { s with nextFid := s.nextFid + 1 })

/-- The head needs its reads of leased memory no more. -/
def askEnd (q : Nat) (s : State) : State :=
  match (qu s q).ask with
  | some n => proceed n (setQu q { qu s q with ask := none } { s with accs := s.accs.filter fun c => c.fid != n })
  | none => s

/-- The head descriptor is known, with the codes it met, in the order of detection (R11). -/
def descKnown (q a : Nat) (b : List Byte) (codes : List Nat) (cap : Capture) (s : State) : State :=
  countLost q (codes.drop 1) (setQu q { qu s q with desc := some ⟨a, b, codes.headD 0, cap⟩ } s)

/-- Read and judge the descriptor at the head, and capture what it captures (R35, R40, R42). A read that a retrain or a clearing
holds, or that goes to a lender, waits. One that fails gives its code, behind the class F codes that the 64 bytes show by
themselves; a descriptor whose own read fails is taken as one of zero bytes, whose status byte is written (log entry 115). -/
def takeDesc (q : Nat) (s : State) : State :=
  match (qu s q).entry, (qu s q).desc with
  | some e, none =>
    let a := e.ttAddr + 64 * qDesc s q
    if heldRange s a 64 then s else
    let cap0 : Capture := ⟨0, 0, [], 0, [], []⟩
    let r := memRead .beside q a 64 s
    match r.2 with
    | some c => descKnown q a (List.replicate 64 0) [c] cap0 r.1
    | none =>
      let b := rdBytes r.1 a 64
      let j := judge r.1 q b
      let k := askOf q s
      if j.reads.any (fun x => heldFor s k.1 x.1 x.2) then noteHeld k.1 j.reads k.2 else
      let r := readAll .beside q j.reads (askEnd q r.1)
      match r.2 with
      | some c => descKnown q a b ((chkCodes j.own).filter isF ++ [c]) cap0 r.1
      | none =>
        let s := r.1
        let cap : Capture :=
          ⟨rg s (pgDsp q) Fld.DSP_Q_SEED_HI * 2 ^ 32 + rg s (pgDsp q) Fld.DSP_Q_SEED_LO,
            tabGet resetWord s.regs (regKey (pgDsp q) 0x130),
            (List.range 5).map fun i => BitVec.ofNat 32 (rg s (pgDsp q) (fldAt Fld.DSP_Q_PIN i)), grantCount s q, j.blk, j.list⟩
        descKnown q a b (chkCodes (chkOr j.own j.chk)) cap s
  | _, _ => s

/-- A queue that may issue reads its head, in the bus cycle in which the head is reached (R40). -/
def refill (q : Nat) (s : State) : State :=
  if qRuns s q then
    let s := takeEntry q 4096 s
    if qRuns s q then takeDesc q s else s
  else s

/-! ### Completion (R44) -/

/-- What a completion writes and sends: status byte, signal, notification, and the hold (R37, R44 to R46). -/
def report (q : Nat) (b : List Byte) (addr entry desc tag code : Nat) (s : State) : State :=
  let s := wh (!dNoWb b && ownsRange s q (addr + 14) 1) (memPut .beside q (addr + 14) [BitVec.ofNat 8 code]) s
  let s := wh (dSigEn b && !isF code) (fun s => settle (dSigTok b) (tokAddV (dSigTok b) (dSigInc b) (some q) s)) s
  let s := wh (dNotify b) (fun s => notify q ⟨0, code, q, tag, entry, desc, rg s (pgDsp q) Fld.PAGE_ERR_INFO_DETAIL, 0⟩ s) s
  if isF code then hold q code entry desc tag s
  else wh (code != 0) (countCode (pgDsp q) code 0 (some q)) s

/-- A descriptor leaves the head: it counts as issued, and the queue was served (R43). -/
def departHead (q : Nat) (s : State) : State :=
  nextDesc q { inc (pgDsp q) Fld.DSP_Q_ISSUED 1 s with lastServed := q }

/-- A descriptor completes at the head, never having been in flight (R42, R43). -/
def completeHead (q code : Nat) (s : State) : State :=
  match (qu s q).entry, (qu s q).desc with
  | some e, some d =>
    let entry := qHead s q
    let desc := qDesc s q
    report q d.bytes d.addr entry desc e.tag code (departHead q s)
  | _, _ => s

/-- The header wait is met (R42, R413). -/
def waitMet (s : State) (b : List Byte) : Bool :=
  !dWaitEn b || (decide (dWaitThr b ≤ (tok s (dWaitTok b)).value) && !(tok s (dWaitTok b)).poisoned)

/-- The status byte of a descriptor can be written now: no channel and no way holds the write (R228, R241). -/
def canReport (s : State) (b : List Byte) (addr : Nat) : Bool := dNoWb b || !heldRange s (addr + 14) 1

/-- The head of a queue can be served by the dispatcher now (R42); a FENCE once nothing of its queue is in flight and its own
wait is met (R47). -/
def headReady (s : State) (q : Nat) : Bool :=
  match (qu s q).desc with
  | some d =>
    qRuns s q &&
      (if isF d.code then canReport s d.bytes d.addr
      else if dOp d.bytes = 0x0C then canReport s d.bytes d.addr && inflightOf s q == 0 && waitMet s d.bytes
      else if d.code = 0x01 ∧ dOp d.bytes ≠ 0x08 then canReport s d.bytes d.addr && waitMet s d.bytes
      else waitMet s d.bytes && decide (inflightOf s q < 256))
  | none => false

/-! ### Issue (R42, R43) -/

/-- The station or unit that executes a descriptor (Table 2.1, R30, R31, R149, R252). -/
def stationOf (f : Flight) : Station :=
  match dOp f.bytes with
  | 0x01 => mvStation f.bytes
  | 0x02 => .arr
  | 0x03 => if cvPool f.bytes = 2 then poolStation (jobOf f) else .arr
  | 0x04 | 0x05 => .kvs
  | 0x06 | 0x0B => .scn
  | 0x07 | 0x09 | 0x0A => .stk (((stkUnits f).map unitEngine).headD 0)
  | 0x08 => .col
  | 0x0D => .tok
  | 0x0E => .mem
  | _ => .disp

/-- Hand the head descriptor to its station. -/
def handOver (q : Nat) (s : State) : State :=
  match (qu s q).entry, (qu s q).desc with
  | some e, some d =>
    let entry := qHead s q
    let desc := qDesc s q
    let s := departHead q s
    let f : Flight :=
      { fid := s.nextFid, q := q, entry := entry, desc := desc, tag := e.tag, addr := d.addr, bytes := d.bytes, cap := d.cap
        seq := rg s (pgDsp q) Fld.DSP_Q_ISSUED, station := .disp, snap := none, work := .none, result := none, detail := 0
        replays := 0 }
    let f := { f with station := stationOf f }
    let s := { s with
      flights := s.flights ++ [f]
      nextFid := s.nextFid + 1 }
    wh (dOp f.bytes == 0x0E) (leaseIssue f) s
  | _, _ => s

/-- Serve the ready head of a queue (R42, R47). -/
def serve (q : Nat) (s : State) : State :=
  match (qu s q).desc with
  | some d =>
    if isF d.code ∨ dOp d.bytes = 0x0C ∨ (d.code = 0x01 ∧ dOp d.bytes ≠ 0x08) then completeHead q d.code s else handOver q s
  | none => s

/-- The queues in the order of service: round-robin, starting after the one served last (R43). -/
def serveOrder (s : State) : List Nat := (List.range 16).map fun i => (s.lastServed + 1 + i) % 16

/-- The queue whose head is served next (R43). -/
def nextServed (s : State) : Option Nat := (serveOrder s).find? (headReady s)

/-- The dispatcher reads the heads that a hold of memory kept unread, and serves one ready head; the next head of that queue is
read in the same bus cycle (R40, R42, R43). -/
def dispatch (s : State) : State :=
  let s := (serveOrder s).foldl (fun s q => refill q s) s
  match nextServed s with
  | some q => refill q (serve q s)
  | none => s

/-- The head of a queue is a FENCE that passed its checks. -/
def fenceAt (s : State) (q : Nat) : Bool :=
  match (qu s q).desc with
  | some d => dOp d.bytes == 0x0C && d.code == 0
  | none => false

/-- A FENCE completes at the head of its queue when the round comes to it (R43, R47). -/
def fenceGo (q : Nat) (s : State) : State :=
  if nextServed s = some q ∧ fenceAt s q then refill q (serve q s) else s

/-! ### Completion of a flight -/

/-- The final formats of the primary output and of the pre-activation tensor (Table 4.6). -/
def finalFmts (f : Flight) : Nat × Nat :=
  match f.work with
  | .tiles w => (fmtCode w.ofmt, if bit 9 (jCtl (jobOf f)) then fmtCode w.preFmt else 0xF)
  | .attn w => (fmtCode w.ofmt, 0xF)
  | .scan w => (fmtCode w.ofmt, 0xF)
  | .stk w => (fmtCode w.ofmt, 0xF)
  | _ => (dOfmt f.bytes, 0xF)

/-- The record in the replay log of a descriptor that replayed (R109). A log that the partition does not own is not written
(R343). -/
def replayLog (f : Flight) (code : Nat) (s : State) : State :=
  let n := fldGet Fld.DSP_Q_NUM_RLOG_LOG2 f.cap.num
  let pg := pgDsp f.q
  let base := rg s pg Fld.DSP_Q_RLOG_HI * 2 ^ 32 + rg s pg Fld.DSP_Q_RLOG_LO * 16
  let i := rg s pg Fld.DSP_Q_RLOG_WR
  let a := base + 16 * (i % 2 ^ n)
  if n = 0 ∨ f.replays = 0 ∨ !ownStruct s f.q a 16 then s
  else
    let x := finalFmts f
    inc pg Fld.DSP_Q_RLOG_WR 1 (memPut .beside f.q a
      (toLE 6 f.addr ++ toLE 2 i ++ toLE 4 f.tag ++ toLE 1 (dOfmt f.bytes + 16 * x.1) ++ toLE 1 x.2 ++ toLE 1 f.replays ++
        toLE 1 code) s)

/-- A channel or a way holds the write of the record in the replay log. -/
def logHeld (s : State) (f : Flight) : Bool :=
  let n := fldGet Fld.DSP_Q_NUM_RLOG_LOG2 f.cap.num
  let base := rg s (pgDsp f.q) Fld.DSP_Q_RLOG_HI * 2 ^ 32 + rg s (pgDsp f.q) Fld.DSP_Q_RLOG_LO * 16
  n != 0 && f.replays != 0 && heldRange s (base + 16 * (rg s (pgDsp f.q) Fld.DSP_Q_RLOG_WR % 2 ^ n)) 16

/-- A descriptor leaves the flight: nothing of it is left in any unit. -/
def dropFlight (f : Flight) (s : State) : State :=
  let s := { s with
    flights := s.flights.filter fun g => g.fid != f.fid
    accs := s.accs.filter fun c => c.fid != f.fid
    retrain := { s.retrain with waiting := s.retrain.waiting.filter fun w => w.2 != f.fid } }
  wh (inflightOf s f.q == 0) (setQu f.q { qu s f.q with flushing := false }) s

/-- A descriptor with its result is written to the replay log, leaves the flight and is reported: the status byte, the signal, the
notification and the hold (R44). -/
def retire (f : Flight) (code : Nat) (s : State) : State :=
  report f.q f.bytes f.addr f.entry f.desc f.tag code (dropFlight f (replayLog f code s))

/-- A descriptor whose station is done with it completes (R44): no write of it is still unanswered; score updates and images take
effect first. Where these meet a code, the descriptor has that result instead and completes so (log entry 123); where they meet a
held channel or way, it completes later. -/
def completeFlight (fid : Nat) (s : State) : State :=
  match flightOf s fid with
  | some f =>
    match f.result with
    | some code =>
      if s.accs.any (fun c => c.fid == fid && c.isWrite && !c.done) || !canReport s f.bytes f.addr || logHeld s f then s else
      let r := scanOutcome f (if isF code then (s, none) else attnScores f (s, none))
      match r.2 with
      | none => retire f code r.1
      | some e =>
        if e.code = heldMark then s
        else if isF code then retire f code (scanRelease f (stopped e s))
        else finish fid e.code 0 (stopped e s)
    | none => s
  | none => s

/-- After an overflowed pass the station reruns the descriptor with the output formats advanced (R106). -/
def replay (fid : Nat) (s : State) : State :=
  match flightOf s fid with
  | some f =>
    match dOp f.bytes with
    | 0x02 | 0x03 => tileReplay fid s
    | 0x04 => attnReplay fid s
    | 0x06 => scanReplay fid s
    | _ => stkReplay fid s
  | none => s

/-! ### Queue controls (R57, R58) -/

/-- An ACQUIRE that the token bank holds or is about to test. -/
def isAcquire (f : Flight) : Bool := f.station == .tok && bF f.bytes 18 1 == 2 && f.result.isNone

/-- FLUSH: every unissued descriptor is discarded, held ACQUIREs are withdrawn, a hold ends (R58). -/
def flushQueue (q : Nat) (s : State) : State :=
  let s := askEnd q s
  let s := st (pgDsp q) Fld.DSP_Q_HEAD_HEAD_ENTRY (qTail s q) (st (pgDsp q) Fld.DSP_Q_HEAD_HEAD_DESC 0 s)
  let s := { s with flights := s.flights.filter fun f => !(f.q == q && isAcquire f) }
  setQu q ⟨none, none, false, decide (0 < inflightOf s q), none⟩ s

/-- A write that reaches a queue control of queue `q`: its page belongs to partition `q` (R437). -/
def onQueue (part q : Nat) (f : State → State) (s : State) : State :=
  if part = q ∧ q < 16 then { f s with bus := (0, 0) } else { s with bus := (0x20, 0) }

/-- A write of DSP_Q_TAIL, after which an empty queue's head is reached: a value that is no slot of the ring is ignored and
recorded (Table 2.15). -/
def tailWrite (q v : Nat) (s : State) : State :=
  if v < qSize s q then refill q (st (pgDsp q) Fld.DSP_Q_TAIL v s) else pageErr (pgDsp q) 0x13 0 (some q) s

/-- RUN is set; a TORN partition's is not (R361). -/
def runQueue (q : Nat) (s : State) : State :=
  wh (partState s q != .torn) (fun s => refill q (st (pgDsp q) Fld.DSP_Q_CTRL_RUN 1 s)) s

/-- RESUME acts only in the HELD state (R58), and not while the partition is TORN (R361). -/
def resumeQueue (q : Nat) (s : State) : State :=
  wh ((qu s q).held && partState s q != .torn) (fun s => refill q (setQu q { qu s q with held := false } s)) s

/-- DISPATCH_ISSUE (R42). -/
def execDispatchIssue (s : State) : Host.Outcome State Fault Refusal := .next (wh (on s) dispatch s)

/-- DESCRIPTOR_COMPLETE (R44). -/
def execDescriptorComplete (fid : Nat) (s : State) : Host.Outcome State Fault Refusal := .next (wh (on s) (completeFlight fid) s)

/-- FENCE (R47). -/
def execFence (q : Nat) (s : State) : Host.Outcome State Fault Refusal := .next (wh (on s) (fenceGo q) s)

/-- OVERFLOW_REPLAY (R106). -/
def execOverflowReplay (fid : Nat) (s : State) : Host.Outcome State Fault Refusal := .next (wh (on s) (replay fid) s)

/-- DSP_Q_TAIL_WRITE (R57). -/
def execDspQTailWrite (part q : Nat) (data : Word) (s : State) : Host.Outcome State Fault Refusal :=
  .next (wh (on s) (atDone (onQueue part q (tailWrite q (fldGet Fld.DSP_Q_TAIL data)))) s)

/-- RUN_SET (R58). -/
def execRunSet (part q : Nat) (s : State) : Host.Outcome State Fault Refusal :=
  .next (wh (on s) (atDone (onQueue part q (runQueue q))) s)

/-- RUN_CLEAR (R58). -/
def execRunClear (part q : Nat) (s : State) : Host.Outcome State Fault Refusal :=
  .next (wh (on s) (atDone (onQueue part q (st (pgDsp q) Fld.DSP_Q_CTRL_RUN 0))) s)

/-- RESUME (R58). -/
def execResume (part q : Nat) (s : State) : Host.Outcome State Fault Refusal :=
  .next (wh (on s) (atDone (onQueue part q (resumeQueue q))) s)

/-- FLUSH (R58). -/
def execFlush (part q : Nat) (s : State) : Host.Outcome State Fault Refusal :=
  .next (wh (on s) (atDone (onQueue part q (flushQueue q))) s)

end Sys2Proof.Machine
end

