-- ==== Sys2Proof/Machine/Host.lean ====
section
/-!
DEFINITION. Host ports and sessions: ICMPv6, handshakes, the packet header of a live session, acknowledgement and re-send, the
ends of a session, and the MOVE with a host endpoint (R320 to R331, R338, R340).
-/
namespace Sys2Proof.Machine

/-! ### Ports (R320, R321) -/

/-- A host port that exists. -/
def onPort (port : Nat) (f : State → State) (s : State) : State := wh (decide (port < 2)) f s

/-- A frame arrives. -/
def rxFrame (port : Nat) (s : State) : State := inc (pgHif port) Fld.HIF_RX_FRAMES 1 s

/-- A frame or packet is dropped and counted. -/
def rxDrop (port : Nat) (s : State) : State := inc (pgHif port) Fld.HIF_RX_DROP 1 s

/-- The MAC address of a port as six bytes. -/
def macBytes (s : State) (port : Nat) : List Byte :=
  toLE 4 (rg s (pgHif port) Fld.HIF_MAC_LO) ++ toLE 2 (rg s (pgHif port) Fld.HIF_MAC_HI)

/-- The link-local address of a port: fe80::/64 with the modified EUI-64 of its MAC address (R321). -/
def linkLocal (s : State) (port : Nat) : Nat :=
  let m := macBytes s port
  ofBE ([0xFE, 0x80, 0, 0, 0, 0, 0, 0] ++ [m.headD 0 ^^^ 0x02] ++ (m.drop 1).take 2 ++ [0xFF, 0xFE] ++ m.drop 3)

/-- The global address of a port; zero means none (R321). -/
def globalAddr (s : State) (port : Nat) : Nat :=
  ofBE ((List.range 4).flatMap fun m => toLE 4 (rg s (pgHif port) (fldAt Fld.HIF_ADDR m)))

/-- The address is one that the port answers to. -/
def ownAddr (s : State) (port a : Nat) : Bool := a == linkLocal s port || (a != 0 && a == globalAddr s port)

/-- An ICMPv6 request: answered for the port's own addresses, else dropped and counted (R321). -/
def icmp (port target : Nat) (o : Out) (s : State) : State :=
  let s := rxFrame port s
  if ownAddr s port target then sendFrame port o s else rxDrop port s

/-! ### The end of a session (R331) -/

/-- The channel's partition. -/
def chanPart (s : State) (c : Nat) : Nat := rg s (pgCh c) Fld.HIF_CH_CFG_PART

/-- A MOVE of the channel that has started fails with MEMBER_LOST (R338, R340). -/
def moveLost (f : Flight) (c detail : Nat) (s : State) : State :=
  pageErr (pgCh c) 0x32 detail (some f.q) (abandon f.fid 0x32 detail s)

/-- The host channel of a MOVE. -/
def moveChan (f : Flight) : Nat := if epHost f.bytes 24 then epChan f.bytes 24 else epChan f.bytes 16

/-- The MOVEs of a channel that are under way. -/
def movesOf (s : State) (c : Nat) : List Flight :=
  s.flights.filter fun f => f.station == .hos && f.result.isNone && f.work != .none && moveChan f == c

/-- A session ends: its responses are discarded, its MOVEs fail, its keys are gone, its notification mask is kept (R331). -/
def endSession (c : Nat) (lost : Bool) (s : State) : State :=
  match sessOf s c with
  | some x =>
    let ids := x.todo.map HReq.fid
    let s := { s with
      chans := tabSet chanDefault s.chans c ⟨none, x.mask.getD (chan s c).kept⟩
      accs := s.accs.filter fun a => !ids.contains a.fid
      retrain := { s.retrain with waiting := s.retrain.waiting.filter fun w => !ids.contains w.2 } }
    let s := wh lost (fun s => raise (pgCh c) 0x0C 0 5 (some (chanPart s c)) 1 (inc (pgCh c) Fld.HIF_CH_LOST 1 s)) s
    (movesOf s c).foldl (fun s f => moveLost f c 0x0102 s) s
  | none => s

/-! ### Handshakes (R326 to R329) -/

/-- An unprotected packet of a handshake: a tag of zeros stands in its place (log entry 28). -/
def sendPlain (port peer c ptype sid : Nat) (body : List Byte) (s : State) : State :=
  sendFrame port (.packet port peer (hctHead ptype c 0 sid 0 0 0 0 body.length ++ body ++ toLE 16 0)) s

/-- MAXDATA of a port (R323). -/
def maxData (s : State) (port : Nat) : Nat := if rg s (pgHif port) Fld.HIF_PORT_CFG_JUMBO = 1 then 8192 else 1024

/-- H1 of a handshake: the digest of the HELLO body and the HELLO_R body without SIG_D (R326). -/
def handH1 (h : Handshake) : List Byte :=
  sha384 (h.hostEph ++ h.hostNonce ++ h.hostPub ++ h.reply.take (h.reply.length - 96))

/-- A received packet: its type and header fields (Table 14.1), the header's bytes, and the body and the tag as they came. -/
structure HctPkt where
  ptype : Nat
  chan : Nat
  sid : Nat
  ctr : Nat
  seq : Nat
  ack : Nat
  sack : Nat
  head : List Byte
  body : List Byte
  tag : List Byte
deriving DecidableEq, Repr

/-- A packet type that a host sends (Table 14.2). -/
def hostType (t : Nat) : Bool := [0x01, 0x03, 0x06, 0x10, 0x20, 0x22, 0x24, 0x26, 0x28, 0x33].contains t

/-- The packet that a UDP payload is (R324); none where R324 or R325 drops it: a length that is not the header's, another VER, a
reserved PTYPE or one of the wrong direction, a reserved header bit. -/
def hctOf (b : List Byte) : Option HctPkt :=
  let len := bF b 32 2
  if b.length ≠ 56 + len ∨ bF b 0 1 ≠ 1 ∨ !hostType (bF b 1 1) ∨ 64 ≤ bF b 2 1 ∨ 2 ≤ bF b 3 1 ∨ !zeroAt b 34 6 then none
  else some { ptype := bF b 1 1, chan := bF b 2 1, sid := bF b 4 4, ctr := bF b 8 8, seq := bF b 16 4, ack := bF b 20 4,
              sack := bF b 24 8, head := b.take 40, body := part 40 len b, tag := part (40 + len) 16 b }

/-- A new pending handshake: ephemeral key, nonce, session id and HELLO_R (R326, R329). -/
def newHandshake (d : Datagram) (p : HctPkt) (s : State) : State × Handshake :=
  let eph := drbgKey s
  let nonce := drbgTake 32 eph.2
  let sid := s.hif.nextSid
  let cert := s.sec.chain
  let head := ecPub eph.1 ++ nonce.1 ++ toLE 4 sid ++ toLE 2 cert.length ++ cert
  let sig := signBy s.sec.sak (p.body ++ head) nonce.2
  (sig.2,
    { chan := p.chan, port := d.port, peer := d.peer, sid := sid, hostEph := part 0 97 p.body, hostNonce := part 97 32 p.body
      hostPub := part 129 97 p.body, eph := eph.1, devNonce := nonce.1, reply := head ++ sig.1 })

/-- HELLO (R329): a repeat of a pending one is answered again; a fifth is dropped, and every one once the security block has failed
(R413). A HELLO that is not 226 B is dropped (log
entry 28). -/
def helloIn (d : Datagram) (p : HctPkt) (s : State) : State :=
  if p.body.length ≠ 226 ∨ p.sid ≠ 0 ∨ s.sec.failed then rxDrop d.port s else
  match s.hif.pending.find? fun h => h.hostEph == part 0 97 p.body with
  | some h => sendPlain d.port d.peer h.chan 0x02 h.sid h.reply s
  | none =>
    if 4 ≤ s.hif.pending.length then rxDrop d.port s else
    let x := newHandshake d p s
    sendPlain d.port d.peer p.chan 0x02 x.2.sid x.2.reply
      { x.1 with hif := { x.1.hif with
        pending := x.1.hif.pending ++ [x.2]
        nextSid := x.1.hif.nextSid % (2 ^ 32 - 1) + 1 } }

/-- HIF_CH_KEYDIG of a channel, as bytes (Table 14.8). -/
def keyDig (s : State) (c : Nat) : List Byte :=
  (List.range 12).flatMap fun m => toLE 4 (rg s (pgCh c) (fldAt Fld.HIF_CH_KEYDIG m))

/-- The first failure of FINISH (R327), or OK. A handshake whose HOST_EPH is no point of the curve gives no Z and fails with the
signature's code (log entry 28). -/
def finishCode (s : State) (h : Handshake) (sig : List Byte) : Nat :=
  if rg s (pgCh h.chan) Fld.HIF_CH_CFG_ENABLE = 0 ∨ !partExists s (chanPart s h.chan) then 0x20
  else if sha384 h.hostPub ≠ keyDig s h.chan then 0x23
  else if !ecVerify h.hostPub (handH1 h ++ ascii "HCT-FINISH") sig || (ecdhX h.eph h.hostEph).isNone then 0x23 else 0

/-- The session that a handshake gives, with its keys and salts from 72 bytes of HKDF (R328). -/
def newSession (s : State) (h : Handshake) (port peer : Nat) : Session :=
  let z := (ecdhX h.eph h.hostEph).getD []
  let k := hkdf (h.devNonce ++ h.hostNonce) z (ascii "OSK-HCT-1" ++ handH1 h) 72
  { sid := h.sid, port := port, peer := peer, maxData := maxData s port
    keyHD := part 0 32 k, keyDH := part 32 32 k, saltHD := part 64 4 k, saltDH := part 68 4 k
    ctrTx := 0, ctrHigh := none, ctrSeen := [], rxNext := 0, early := [], todo := [], txNext := 0, out := [], mask := none
    lost := 0, ackDue := false }

/-- FINISH (R327): the session becomes live and READY is sent, or REJECT. One that is not 96 B, or longer than R323 allows, is
dropped (log entry 28). -/
def finishIn (d : Datagram) (p : HctPkt) (s : State) : State :=
  if p.body.length ≠ 96 ∨ maxData s d.port + 32 < p.body.length then rxDrop d.port s else
  match s.hif.pending.find? fun h => h.sid == p.sid && h.chan == p.chan with
  | some h =>
    let s := { s with hif := { s.hif with pending := s.hif.pending.filter fun k => k.sid != h.sid } }
    let code := finishCode s h p.body
    if code ≠ 0 then
      sendPlain d.port d.peer h.chan 0x05 h.sid (padTo 16 (toLE 1 code)) (inc (pgCh h.chan) Fld.HIF_CH_AUTH_FAIL 1 s)
    else
      let s := endSession h.chan true s
      let x := newSession s h d.port d.peer
      let s := { s with chans := tabSet chanDefault s.chans h.chan ⟨some x, (chan s h.chan).kept⟩ }
      sendSeq h.chan 0x04 0 (toLE 4 x.maxData ++ toLE 2 256 ++ toLE 10 0) none s
  | none => rxDrop d.port s

/-- A pending handshake without FINISH is discarded (R329). -/
def dropHandshake (sid : Nat) (s : State) : State :=
  { s with hif := { s.hif with pending := s.hif.pending.filter fun h => h.sid != sid } }

/-! ### The header of a packet in a live session (R323, R325, R330) -/

/-- The counter is new: above the highest accepted, or in the window of 1,024 below it and not seen (R325). -/
def ctrNew (x : Session) (ctr : Nat) : Bool :=
  match x.ctrHigh with
  | none => true
  | some h => decide (h < ctr) || (decide (h ≤ ctr + 1024) && !x.ctrSeen.contains ctr)

/-- A counter is accepted. -/
def ctrTake (x : Session) (ctr : Nat) : Session :=
  let h := max ctr (x.ctrHigh.getD ctr)
  { x with ctrHigh := some h, ctrSeen := (ctr :: x.ctrSeen).filter fun c => decide (h ≤ c + 1024) }

/-- ACK and SACK cover a packet (Table 14.1). -/
def covered (ack sack : Nat) (t : TxPkt) : Bool :=
  let d := (t.seq + 2 ^ 32 - ack) % 2 ^ 32
  t.sent && (decide (2 ^ 31 ≤ d) || (decide (1 ≤ d ∧ d ≤ 64) && bit (d - 1) sack))

/-- A MOVE_DATA is acknowledged: the MOVE completes with its last one (R338). -/
def dataAcked (fid : Nat) (s : State) : State :=
  match flightOf s fid with
  | some f =>
    match f.work with
    | .hos n =>
      let s := updFlight fid (fun f => { f with work := .hos (n - 1) }) s
      if n ≤ 1 then finish fid 0 0 s else s
    | _ => s
  | none => s

/-- Acknowledged packets are retired, and the window moves on (R330). -/
def ackIn (c ack sack : Nat) (s : State) : State :=
  match sessOf s c with
  | some x =>
    let gone := x.out.filter (covered ack sack)
    let s := updSess c (fun x => { x with out := x.out.filter fun t => !covered ack sack t }) s
    let s := (gone.filterMap TxPkt.fid).foldl (fun s fid => dataAcked fid s) s
    pump c s
  | none => s

/-- A protected packet is checked; an accepted one retires what it acknowledges, and its sender's addresses are those to which the
session now sends (R322, R323, R325). Answers its plaintext, none where it is dropped. -/
def headerIn (d : Datagram) (p : HctPkt) (s : State) : State × Option (List Byte) :=
  let bad := inc (pgCh p.chan) Fld.HIF_CH_AUTH_FAIL 1 s
  match sessOf s p.chan with
  | some x =>
    if x.maxData + 32 < p.body.length then (rxDrop d.port s, none) else
    match gcmOpen x.keyHD (x.saltHD ++ toLE 8 p.ctr) p.head p.body p.tag with
    | some body =>
      if x.sid ≠ p.sid ∨ !ctrNew x p.ctr then (bad, none)
      else (ackIn p.chan p.ack p.sack (updSess p.chan (fun x => { ctrTake x p.ctr with port := d.port, peer := d.peer }) s), some body)
    | none => (bad, none)
  | none => (bad, none)

/-- The device re-sends a packet that is not acknowledged (R330). -/
def resendPkt (c seq : Nat) (s : State) : State :=
  match (sessOf s c).bind fun x => x.out.find? fun t => t.seq == seq && t.sent with
  | some t =>
    sendPacket c t.ptype t.flags t.seq t.body (inc (pgCh c) Fld.HIF_CH_RESENDS 1 (updSess c (fun x =>
      { x with out := x.out.map fun t => if t.seq = seq then { t with resends := t.resends + 1 } else t }) s))
  | none => s

/-- ACKONLY when a packet has been held unacknowledged with nothing else to send (R330). -/
def ackDelay (c : Nat) (s : State) : State :=
  wh ((sessOf s c).any Session.ackDue) (sendPacket c 0x10 0 0 []) s

/-- ACK has not advanced while packets are outstanding: the session ends (R331). -/
def lossTimeout (c : Nat) (s : State) : State :=
  match sessOf s c with
  | some x => if x.out.any TxPkt.sent then endSession c true s else s
  | none => s

/-! ### MOVE with a host endpoint (R338) -/

/-- The pieces of a MOVE: device address, host offset and length, of at most `n` bytes each, in row order. -/
def movePieces (b : List Byte) (n : Nat) : List (Nat × Nat × Nat) :=
  let dst := epHost b 24
  let dev := if dst then dAddr b 16 else dAddr b 24
  let devPitch := if dst then bF b 40 4 else bF b 44 4
  let hos := if dst then dAddr b 24 else dAddr b 16
  let hosPitch := if dst then bF b 44 4 else bF b 40 4
  (List.range (mvRows b)).flatMap fun r => (List.range (ceilDiv (mvLen b) n)).map fun k =>
    (dev + r * devPitch + k * n, hos + r * hosPitch + k * n, min n (mvLen b - k * n))

/-- The head of the body of MOVE_DATA, MOVE_PULL and MOVE_FILL. -/
def moveHead (id len off : Nat) : List Byte := toLE 4 id ++ toLE 4 len ++ toLE 8 (off % 2 ^ 48)

/-- One MOVE_PULL is sent. -/
def sendPull (f : Flight) (c id : Nat) (x : Nat × Nat × Nat) (s : State) : State :=
  sendSeq c 0x32 0 (moveHead id x.2.2 x.2.1) none { s with hif := { s.hif with
    pulls := s.hif.pulls ++ [⟨id, f.fid, c, x.2.1 % 2 ^ 48, x.2.2, x.1⟩] } }

/-- HOS starts a MOVE (R338): to the host, every row is read and sent; from it, the first 64 pulls are sent. -/
def hosMove (f : Flight) (s : State) : State :=
  let c := moveChan f
  let b := f.bytes
  match sessOf s c with
  | none => moveLost f c 0x0101 s
  | some x =>
    let ps := movePieces b x.maxData
    let id := s.hif.nextMove
    if epHost b 24 then
      let rs := (mvSrc b).ranges
      if rs.any fun r => heldFor s f.fid r.1 r.2 then noteHeld f.fid rs s else
      let r := readAll .yard f.q rs s
      match r.2 with
      | some code => finish f.fid code 0 r.1
      | none =>
        let s := r.1
        let s := { s with hif := { s.hif with nextMove := (id + 1) % 2 ^ 32 } }
        let s := updFlight f.fid (fun f => { f with work := .hos ps.length }) s
        let m := s
        ps.foldl (fun s y => sendSeq c 0x31 0 (moveHead id y.2.2 y.2.1 ++ rdBytes m y.1 y.2.2) (some f.fid) s) s
    else
      let s := { s with hif := { s.hif with nextMove := (id + 1) % 2 ^ 32 } }
      let s := updFlight f.fid (fun f => { f with work := .hos ps.length }) s
      (ps.take 64).foldl (fun s y => sendPull f c id y s) s

/-- A MOVE_FILL that matches a pull writes its data; the next pull is sent, and the last fill completes the MOVE. Answers false
while the memory it writes is held (R338). -/
def fillIn (c : Nat) (body : List Byte) (s : State) : State × Bool :=
  let id := bF body 0 4
  let len := bF body 4 4
  let off := bF body 8 8
  match s.hif.pulls.find? fun w => w.chan == c && w.moveId == id && w.offset == off && w.len == len && body.length == 16 + len with
  | some w =>
    if mustWait s w.fid [] [(w.addr, w.len)] then (noteWait w.fid [] [(w.addr, w.len)] s, false) else
    match flightOf s w.fid, sessOf s c with
    | some f, some x =>
      let s := proceed w.fid { s with hif := { s.hif with pulls := s.hif.pulls.filter fun v => v != w } }
      let y := memWrite .yard f.q f.fid w.addr (body.drop 16) s
      (match y.2 with
      | some code => abandon f.fid code 0 y.1
      | none =>
        match f.work with
        | .hos n =>
          let s := updFlight f.fid (fun f => { f with work := .hos (n - 1) }) y.1
          if n ≤ 1 then finish f.fid 0 0 s
          else
            let ps := movePieces f.bytes x.maxData
            let out := (s.hif.pulls.filter fun v => v.fid == f.fid).length
            (match ps[ps.length - (n - 1) + out]? with
            | some p => sendPull f c id p s
            | none => s)
        | _ => y.1, true)
    | _, _ => (s, true)
  | none => (match sessOf s c with
    | some x => rxDrop x.port s
    | none => s, true)

/-- MOVE: in HOS, a stack engine or YRD (R31). -/
def moveGo (fid : Nat) (s : State) : State :=
  match flightOf s fid with
  | some f =>
    if dOp f.bytes ≠ 0x01 then s
    else if f.station = .hos then (if f.result.isNone ∧ f.work = .none then hosMove f s else s)
    else stkGo 0x01 fid s
  | none => s

/-- A pull has gone unanswered for LOST_MS (R338). -/
def pullTimeout (fid : Nat) (s : State) : State :=
  match flightOf s fid with
  | some f => if s.hif.pulls.any fun w => w.fid == fid then moveLost f (moveChan f) 0x0102 s else s
  | none => s

/-- MOVE (R54). -/
def execMove (fid : Nat) (s : State) : Host.Outcome State Fault Refusal := .next (wh (on s) (moveGo fid) s)

/-- MOVE_PULL_TIMEOUT (R338). -/
def execMovePullTimeout (fid : Nat) (s : State) : Host.Outcome State Fault Refusal := .next (wh (on s) (pullTimeout fid) s)

/-- ICMPV6_NEIGHBOR_SOLICITATION (R321). -/
def execIcmpv6NeighborSolicitation (port src target : Nat) (s : State) : Host.Outcome State Fault Refusal :=
  .next (wh (on s) (onPort port (icmp port target (.neighborAdvert port src target))) s)

/-- ICMPV6_ECHO_REQUEST (R321). -/
def execIcmpv6EchoRequest (port src target : Nat) (data : List Byte) (s : State) : Host.Outcome State Fault Refusal :=
  .next (wh (on s) (onPort port (icmp port target (.echoReply port src target data))) s)

/-- HANDSHAKE_TIMEOUT (R329). -/
def execHandshakeTimeout (sid : Nat) (s : State) : Host.Outcome State Fault Refusal :=
  .next (wh (on s) (dropHandshake sid) s)

/-- DEVICE_RESEND (R330). -/
def execDeviceResend (chan seq : Nat) (s : State) : Host.Outcome State Fault Refusal := .next (wh (on s) (resendPkt chan seq) s)

/-- ACK_DELAY_EXPIRY (R330). -/
def execAckDelayExpiry (chan : Nat) (s : State) : Host.Outcome State Fault Refusal := .next (wh (on s) (ackDelay chan) s)

/-- SESSION_LOSS_TIMEOUT (R331). -/
def execSessionLossTimeout (chan : Nat) (s : State) : Host.Outcome State Fault Refusal := .next (wh (on s) (lossTimeout chan) s)

/-- SESSION_IDLE_TIMEOUT (R331). -/
def execSessionIdleTimeout (chan : Nat) (s : State) : Host.Outcome State Fault Refusal :=
  .next (wh (on s) (endSession chan true) s)

/-- HOST_PORT_LINK_CHANGE (R320). -/
def execHostPortLinkChange (port : Nat) (up : Bool) (s : State) : Host.Outcome State Fault Refusal :=
  .next (wh (on s) (onPort port (st (pgHif port) Fld.HIF_PORT_STAT (b2n up))) s)

/-- HOST_FRAME_DROP (R320). -/
def execHostFrameDrop (port : Nat) (s : State) : Host.Outcome State Fault Refusal :=
  .next (wh (on s) (onPort port (fun s => rxDrop port (rxFrame port s))) s)

end Sys2Proof.Machine
end

