-- ==== Sys2Proof/Machine/Security.lean ====
section
/-!
DEFINITION. The security block: key creation, rotations and sweeps, measurements, weight bundles, job keys, reports, and the debug
opening (R365 to R393).
-/
namespace Sys2Proof.Machine

/-- The security state of partition `p`. -/
def secOf (s : State) (p : Nat) : SecPart := tabGet secPartDefault s.secs p

/-- The state with the security state of a partition. -/
def setSec (p : Nat) (c : SecPart) (s : State) : State := { s with secs := tabSet secPartDefault s.secs p c }

/-! ### Keys (R365, R366) -/

/-- A new memory key set: three keys of one request (Table 16.1, log entry 108). -/
def newKeySet (s : State) : KeySet × State :=
  let r := drbgTake 96 s
  (⟨part 0 32 r.1, part 32 32 r.1, part 64 32 r.1⟩, r.2)

/-- A partition's keys are created (R365, R376): PKA and memory key set of epoch 0; the measurement log is empty (R386). -/
def createKeys (p : Nat) (s : State) : State :=
  let a := drbgKey s
  let b := newKeySet a.2
  let c := secOf s p
  setSec p { c with
    pka := a.1
    cur := 0
    old := 0
    sweeping := false
    curSet := b.1
    oldSet := keySetZero
    meas := []
    sweep := [] } b.2

/-- A job key slot without its key: the counter stays (R380, R381). -/
def emptySlot (j : JobSlot) : JobSlot := { j with keyid := 0, key := keyZero }

/-- The keys of a partition are zeroised and its sweep stops (R365, Table 16.4). -/
def zeroiseKeys (p : Nat) (s : State) : State :=
  let c := secOf s p
  setSec p { c with
    pka := 0
    sweeping := false
    curSet := keySetZero
    oldSet := keySetZero
    slots := c.slots.map emptySlot
    sweep := [] } s

/-! ### Rotation and sweep (R377 to R379) -/

/-- The extents assigned to a partition, ascending. -/
def extentsOf (s : State) (p : Nat) : List Nat := (s.exts.filter fun e => e.2 == .assigned p).map Prod.fst

/-- The MCE that serves an extent (R394). -/
def mceOfExtent (e : Nat) : Nat := if e < 512 then e / 64 else 8 + (e - 1024) / 64

/-- What a sweep of these extents has to do (R378). -/
def sweepList (es : List Nat) : List (Nat × List Nat × Nat) :=
  (List.range 24).filterMap fun m =>
    let l := es.filter fun e => mceOfExtent e == m
    if l.isEmpty then none else some (m, l, 0)

/-- Extents not yet swept (SEC_SWEEP_LEFT). -/
def sweepLeft (c : SecPart) : Nat := c.sweep.foldl (fun a x => a + x.2.1.length) 0

/-- ROTATE (R377): the code. -/
def rotate (p : Nat) (s : State) : State × Nat :=
  let c := secOf s p
  if s.sec.failed then (s, 0x70)
  else if c.sweeping then (s, 0x60)
  else
    let a := newKeySet s
    let s := setSec p { c with
      old := c.cur
      cur := (c.cur + 1) % 4
      sweeping := true
      oldSet := c.curSet
      curSet := a.1
      sweep := sweepList (extentsOf s p) } a.2
    (inc (pgSec p) Fld.SEC_ROTATIONS 1 s, 0)

/-- An extent leaves a partition's sweep at once (Table 16.4). -/
def sweepDrop (p e : Nat) (s : State) : State :=
  let c := secOf s p
  setSec p { c with
    sweep := (c.sweep.map fun x =>
      (x.1, x.2.1.filter (fun y => y != e), if x.2.1.head? = some e then 0 else x.2.2)).filter fun x => !x.2.1.isEmpty } s

/-- The sweep moves on from a block of an extent. -/
def sweepNext (m : Nat) (l : List (Nat × List Nat × Nat)) : List (Nat × List Nat × Nat) :=
  l.filterMap fun x =>
    if x.1 ≠ m then some x
    else if x.2.2 + 1 < 2 ^ 21 then some (x.1, x.2.1, x.2.2 + 1)
    else if x.2.1.length ≤ 1 then none else some (x.1, x.2.1.drop 1, 0)

/-- The sweep of one block (R378, R379): a block of epoch OLD is checked, and encrypted and tagged under CUR; one whose check fails is
left as it is. -/
def sweepBlockOf (p u : Nat) (s : State) : State :=
  let c := secOf s p
  let m := blkMeta s u
  if m.epoch ≠ c.old then s
  else if m.bad || pathBad s u || c.oldSet == keySetZero then
    setErr (pgSec p) 0x21 0x0004 (inc (pgSec p) Fld.SEC_INTEG_FAIL 1
      (inc (pgMce (mceOf u)) Fld.MCE_INTEG_FAIL 1
        (wh (pathBad s u) (inc (pgMce (mceOf u)) Fld.MCE_NODE_FAIL 1)
          (pageErr (pgMce (mceOf u)) 0x21 0x0004 (some p)
            (st (pgMce (mceOf u)) Fld.MCE_FAIL_LO (u % 2 ^ 23) (st (pgMce (mceOf u)) Fld.MCE_FAIL_HI (u / 2 ^ 23) s))))))
  else inc (pgMce (mceOf u)) Fld.MCE_SWEPT 1 (freshen u (tagSet u c.cur (yardKillLine u s)))

/-- The next block of a partition's sweep in one MCE (R378); a held channel holds the sweep like any request. -/
def sweepStep (p m : Nat) (s : State) : State :=
  match (secOf s p).sweep.find? fun x => x.1 == m with
  | some (_, e :: _, n) =>
    let u := e * 2 ^ 21 + n
    if heldRange s (u * 512) 512 then s
    else
      let s := sweepBlockOf p u s
      let c := secOf s p
      setSec p { c with sweep := sweepNext m c.sweep } s
  | _ => s

/-- The end of a sweep (R379). -/
def sweepDone (p : Nat) (s : State) : State :=
  let c := secOf s p
  if c.sweeping && c.sweep.isEmpty then setSec p { c with sweeping := false, oldSet := keySetZero } s else s

/-! ### Reports (R387) -/

/-- The code of a partition's state (Table 15.2). -/
def stateCode : PartState → Nat
  | .none => 0
  | .active => 1
  | .suspending => 2
  | .suspended => 3
  | .resuming => 4
  | .tearing => 5
  | .torn => 6

/-- A stored register as its word. -/
def regWord (s : State) (pg : Page) (off : Nat) : Nat := (tabGet resetWord s.regs (regKey pg off)).toNat

/-- A layout entry (Table 16.8). -/
def layoutEntry (s : State) (p : Nat) : List Byte :=
  let es := extentsOf s p
  let sc := scratchOf s p
  toLE 1 (stateCode (partState s p)) ++ toLE 1 (grantCount s p) ++ toLE 1 sc.1 ++ toLE 1 sc.2 ++
    toLE 2 ((waysOf s 1 p).foldl (fun a k => a + 2 ^ k) 0) ++ toLE 2 (es.filter fun e => decide (e < 512)).length ++
    toLE 2 (es.filter fun e => decide (512 ≤ e)).length ++ toLE 2 (rg s (pgPrt p) Fld.PRT_TOK_COUNT) ++
    toLE 1 (countBelow 64 fun c => rg s (pgCh c) Fld.HIF_CH_CFG_ENABLE == 1 && rg s (pgCh c) Fld.HIF_CH_CFG_PART == p) ++ toLE 3 0

/-- The common part of a report (Table 16.7). -/
def reportHead (s : State) (cls len : Nat) : List Byte :=
  let f := s.pwr.fuses
  toLE 2 1 ++ toLE 1 cls ++ toLE 1 (b2n s.sec.debugOpen) ++ toLE 4 len ++ toLE 4 (rg s pgDev Fld.DEV_BOOT_EPOCH) ++
    toLE 4 s.sec.reportSeq ++ identityDig s ++ toLE 48 Config.bootromDig.toNat ++ sha384 s.pwr.image ++
    toLE 1 s.pwr.imageSlot ++ toLE 1 (rg s pgDev Fld.DEV_PART_STEPPING) ++ toLE 1 (rg s pgDev Fld.DEV_PART_MODREV) ++ toLE 1 0 ++
    toLE 4 (f.minVersion % 65536 + b2n f.production * 2 ^ 16 + b2n f.keyFused * 2 ^ 17 + b2n f.debugOff * 2 ^ 18) ++
    toLE 4 (regWord s pgDev 0x104) ++ toLE 4 0 ++ (List.range 16).flatMap (layoutEntry s)

/-- What class P adds, up to the signature (Table 16.9). -/
def reportP (s : State) (p : Nat) (nonce : List Byte) : List Byte :=
  let c := secOf s p
  toLE 1 p ++ toLE 3 0 ++ nonce ++ ecPub c.pka ++ toLE 3 0 ++ toLE 1 c.meas.length ++ toLE 7 0 ++ c.meas.flatten

/-- A report is signed by the SAK, and the device's chain follows it (R387). -/
def signReport (body : List Byte) (s : State) : State × List Byte :=
  let r := signBy s.sec.sak body { s with sec := { s.sec with reportSeq := (s.sec.reportSeq + 1) % 2 ^ 32 } }
  (r.2, body ++ r.1 ++ s.sec.chain)

/-! ### Commands (R391) -/

/-- A command reads ranges: it waits while a channel holds them or leased memory in them is not yet read, ends with the code that a
read meets, or goes on. The answer is the code, none while it waits. -/
def secRead (p fid : Nat) (l : List (Nat × Nat)) (k : State → State × Option Nat) (s : State) : State × Option Nat :=
  if l.any fun r => heldFor s fid r.1 r.2 then (noteHeld fid l s, none) else
  let r := readAll .beside p l s
  match r.2 with
  | some c => (r.1, some c)
  | none => k r.1

/-- A command writes, and has the code that the write meets, or OK. -/
def secWrite (p fid a : Nat) (bs : List Byte) (s : State) : State × Option Nat :=
  let r := memWrite .beside p fid a bs s
  (r.1, some (r.2.getD 0))

/-- A range is owned; nothing owns more than the address map holds. -/
def secOwns (s : State) (p a n : Nat) : Bool := decide (n ≤ 2 ^ 41) && ownsRange s p a n

/-- The address of a partition's command block. -/
def secAddr (s : State) (p : Nat) : Nat := rg s (pgSec p) Fld.SEC_CMD_ADDR_HI * 2 ^ 32 + rg s (pgSec p) Fld.SEC_CMD_ADDR_LO * 64

/-- ATTEST_P (R387). -/
def attestP (p fid : Nat) (b : List Byte) (s : State) : State × Option Nat :=
  let out := bF b 32 8
  let c : Chk := { chkNone with
    violation := !secOwns s p out 3232
    format := !zeroAt b 40 24
    align := out % 32 != 0 }
  if chkCode c ≠ 0 then (s, some (chkCode c)) else
  let n := (secOf s p).meas.length
  let r := signReport (reportHead s 2 (672 + 64 * n) ++ reportP s p (b.take 32)) s
  secWrite p fid out r.2 r.1

/-- An entry of the measurement log (R386). -/
def measEntry (kind : Nat) (mid dig : List Byte) : List Byte := toLE 1 kind ++ toLE 7 0 ++ mid ++ dig

/-- An entry is appended. -/
def measAdd (p : Nat) (e : List Byte) (s : State) : State :=
  let c := secOf s p
  setSec p { c with meas := c.meas ++ [e] } s

/-- MEASURE (R386). -/
def measureRange (p fid : Nat) (b : List Byte) (s : State) : State × Option Nat :=
  let a := bF b 0 8
  let n := bF b 8 8
  let c : Chk := { chkNone with
    violation := !secOwns s p a n
    format := !zeroAt b 16 48
    align := a % 32 != 0
    capacity := decide (2 ^ 32 < n ∨ 32 ≤ (secOf s p).meas.length)
    zero := n == 0 }
  if chkCode c ≠ 0 then (s, some (chkCode c)) else
  secRead p fid [(a, n)] (fun s => (measAdd p (measEntry 1 (toLE 8 n) (sha384 (rdBytes s a n))) s, some 0)) s

/-- A key that was wrapped to a partition (R380, R384): 44 B of HKDF give the key encryption key and the IV, under which the wrapped key
is opened. None where the sender's key is no point of the curve or the tag fails. -/
def unwrapKey (s : State) (p : Nat) (info eph aad wrapped tag : List Byte) : Option (List Byte) :=
  let d := (secOf s p).pka
  match ecdhX d eph with
  | none => none
  | some z =>
    let k := hkdf [] z (info ++ ecPub d) 44
    gcmOpen (part 0 32 k) (part 32 12 k) aad wrapped tag

/-- The content key that a release blob holds (R384). -/
def blobKey (s : State) (p : Nat) (blob : List Byte) : Option (List Byte) :=
  unwrapKey s p (ascii "OSK-BIND-1" ++ part 104 48 blob) (part 0 97 blob) (blob.take 152) (part 152 32 blob) (part 184 16 blob)

/-- The job key that a job blob holds (R380). -/
def jobBlobKey (s : State) (p : Nat) (blob : List Byte) : Option (List Byte) :=
  unwrapKey s p (ascii "OSK-JOB-1" ++ part 97 4 blob) (part 0 97 blob) (blob.take 104) (part 104 32 blob) (part 136 16 blob)

/-- A device's digest is among those that a bundle lists (Table 16.6). -/
def listed (hdr dig : List Byte) : Bool := (List.range (bF hdr 2 2)).any fun i => part (200 + 48 * i) 48 hdr == dig

/-- The first failure of BIND's step 1 once header and blob are read (R385). -/
def bindCheck (s : State) (p : Nat) (b hdr blob : List Byte) : Nat :=
  let h := bF b 0 8
  let blobA := bF b 8 8
  let body := bF b 16 8
  let dst := bF b 24 8
  let nd := bF hdr 2 2
  let hl := 296 + 48 * nd
  let n := bF hdr 8 8
  if (decide (1 ≤ nd ∧ nd ≤ 64) && !secOwns s p h hl) || !secOwns s p body n || !secOwns s p dst n then 0x20
  else if h % 32 ≠ 0 ∨ blobA % 32 ≠ 0 ∨ body % 32 ≠ 0 ∨ dst % 32 ≠ 0 then 0x12
  else if bF hdr 0 2 ≠ 1 ∨ nd = 0 ∨ 64 < nd ∨ n % 32 ≠ 0 ∨ 2 ^ 40 < n ∨ !zeroAt hdr 4 4 ∨ !zeroAt hdr 28 4 ∨
      !zeroAt hdr 145 55 ∨ !zeroAt b 32 32 ∨ !zeroAt blob 97 7 ∨ rangesMeet dst n body n ∨ rangesMeet dst n h hl then 0x13
  else if 32 ≤ (secOf s p).meas.length then 0x11 else 0

/-- The content key and the digest of a bundle, or the failure of BIND's steps 2 to 5 (R385). -/
def bindKey (s : State) (p : Nat) (hdr sig blob : List Byte) : List Byte ⊕ Nat :=
  if s.sec.debugOpen then .inr 0x61
  else if !ecVerify (part 48 97 hdr) hdr sig then .inr 0x23
  else if !listed hdr (identityDig s) then .inr 0x61
  else if part 104 48 blob ≠ sha384 hdr then .inr 0x61
  else match blobKey s p blob with
    | some k => .inl k
    | none => .inr 0x61

/-- BIND once every range is read (R385 steps 2 to 7). -/
def bindBody (p fid : Nat) (b : List Byte) (s : State) : State × Option Nat :=
  let hl := 200 + 48 * bF (rdBytes s (bF b 0 8) 200) 2 2
  let hdr := rdBytes s (bF b 0 8) hl
  let n := bF hdr 8 8
  let dst := bF b 24 8
  match bindKey s p hdr (rdBytes s (bF b 0 8 + hl) 96) (rdBytes s (bF b 8 8) 200) with
  | .inr c => (s, some c)
  | .inl key =>
    match gcmOpen key (part 16 12 hdr) (sha384 hdr) (rdBytes s (bF b 16 8) n) (part 32 16 hdr) with
    | none =>
      let r := memWrite .beside p fid dst (List.replicate n 0) s
      (r.1, some 0x21)
    | some plain =>
      let r := memWrite .beside p fid dst plain s
      match r.2 with
      | some c => (r.1, some c)
      | none =>
        let s := r.1
        (tickFree (measAdd p (measEntry 2 (freeBytes s.freeCtr 0 8) (sha384 hdr)) s), some 0)

/-- BIND (R385). A header or blob that cannot be read leaves the rest of step 1 unjudged, but not the addresses: ALIGN goes ahead of the
read's code (DEDUCED, log entry 115). -/
def bindBundle (p fid : Nat) (b : List Byte) (s : State) : State × Option Nat :=
  let h := bF b 0 8
  let blobA := bF b 8 8
  let askew := h % 32 != 0 || blobA % 32 != 0 || bF b 16 8 % 32 != 0 || bF b 24 8 % 32 != 0
  if !secOwns s p h 200 || !secOwns s p blobA 200 then (s, some 0x20) else
  let r := secRead p fid [(h, 200), (blobA, 200)] (fun s =>
    let c := bindCheck s p b (rdBytes s h 200) (rdBytes s blobA 200)
    if c ≠ 0 then (s, some c)
    else secRead p fid [(h, 296 + 48 * bF (rdBytes s h 200) 2 2), (bF b 16 8, bF (rdBytes s h 200) 8 8)] (bindBody p fid b) s) s
  (r.1, r.2.map fun c => if askew ∧ c ≠ 0x20 then 0x12 else c)

/-- JOBKEY_LOAD (R380). -/
def jobkeyLoad (p fid : Nat) (b : List Byte) (s : State) : State × Option Nat :=
  let k := bF b 0 1
  let id := bF b 4 4
  let a := bF b 8 8
  let c : Chk := { chkNone with
    violation := !secOwns s p a 152
    format := !zeroAt b 1 3 || !zeroAt b 16 48 || decide (8 ≤ k)
    align := a % 32 != 0 }
  if chkCode c ≠ 0 then (s, some (chkCode c)) else
  secRead p fid [(a, 152)] (fun s =>
    let blob := rdBytes s a 152
    if id = 0 ∨ bF blob 97 4 ≠ id ∨ (slotOfKey s id).isSome ∨ !zeroAt blob 101 3 then (s, some 0x13)
    else if (jobSlot s p k).isSome then (s, some 0x11)
    else if s.sec.debugOpen then (s, some 0x23)
    else match jobBlobKey s p blob with
      | none => (s, some 0x23)
      | some key =>
        let j := (secOf s p).slots.getD k ⟨0, keyZero, 0⟩
        (setJobSlot p k { j with keyid := id, key := key } s, some 0)) s

/-- JOBKEY_CLEAR (R380). -/
def jobkeyClear (p : Nat) (b : List Byte) (s : State) : State × Option Nat :=
  let k := bF b 0 1
  if 8 ≤ k ∨ !zeroAt b 1 63 then (s, some 0x13)
  else (setJobSlot p k (emptySlot ((secOf s p).slots.getD k ⟨0, keyZero, 0⟩)) s, some 0)

/-- An operation with its command block (Table 16.10). -/
def secBlockOp (p : Nat) (j : SecJob) (s : State) : State × Option Nat :=
  let a := secAddr s p
  if partState s p = .torn then (s, some 0x71)
  else if !secOwns s p a 64 then (s, some 0x20)
  else secRead p j.fid [(a, 64)] (fun s =>
    let b := rdBytes s a 64
    match j.op with
    | 2 => attestP p j.fid b s
    | 3 => measureRange p j.fid b s
    | 4 => bindBundle p j.fid b s
    | 5 => jobkeyLoad p j.fid b s
    | _ => jobkeyClear p b s) s

/-- ATTEST_D (R393). -/
def attestD (fid : Nat) (s : State) : State × Option Nat :=
  let out := rg s pgSecDev Fld.SEC_DEV_ADDR_HI * 2 ^ 32 + rg s pgSecDev Fld.SEC_DEV_ADDR_LO * 32
  if !secOwns s 0 out 1040 then (s, some 0x20) else
  let r := signReport (reportHead s 1 528) s
  secWrite 0 fid out r.2 r.1

/-- A command's work: its code, none while it waits; HW_FAULT once the security block has failed (R413). -/
def secWork (j : SecJob) (s : State) : State × Option Nat :=
  if (lostCode s j.fid).isSome then (s, lostCode s j.fid)
  else if s.sec.failed then (s, some 0x70)
  else if j.part = 16 then (if j.op = 1 then attestD j.fid s else (s, some 0x13))
  else if j.op = 1 then (let r := rotate j.part s; (r.1, some r.2))
  else if j.op = 0 ∨ 7 ≤ j.op then (s, some 0x13)
  else secBlockOp j.part j s

/-- The result of a command (R391). -/
def secResult (part code : Nat) (s : State) : State :=
  if part = 16 then st pgSecDev Fld.SEC_DEV_CMD_STAT_CODE code (st pgSecDev Fld.SEC_DEV_CMD_STAT_BUSY 0 s)
  else st (pgSec part) Fld.SEC_CMD_STAT_CODE code (st (pgSec part) Fld.SEC_CMD_STAT_BUSY 0 s)

/-- A command runs, or goes on: it ends once its writes to leased memory are held by the lender. -/
def secGo (j : SecJob) (s : State) : State :=
  let s := { s with secJobs := s.secJobs.filter fun x => x.fid != j.fid }
  let r := match j.result with
    | some c => (s, some ((lostCode s j.fid).getD c))
    | none => secWork j s
  match r.2 with
  | none => { r.1 with secJobs := r.1.secJobs ++ [j] }
  | some c =>
    if r.1.accs.any fun a => a.fid == j.fid && a.isWrite && !a.done then
      { r.1 with secJobs := r.1.secJobs ++ [{ j with result := some c }] }
    else secResult j.part c <| proceed j.fid { r.1 with
      accs := r.1.accs.filter fun a => a.fid != j.fid
      lostFids := r.1.lostFids.filter fun f => f.1 != j.fid }

/-- A write of SEC_CMD or SEC_DEV_CMD (R391, R393). -/
def secCommand (part op : Nat) (s : State) : State :=
  let busy := if part = 16 then rg s pgSecDev Fld.SEC_DEV_CMD_STAT_BUSY else rg s (pgSec part) Fld.SEC_CMD_STAT_BUSY
  if busy = 1 then
    if part = 16 then st pgSecDev Fld.SEC_DEV_CMD_STAT_IGNORED 1 s else st (pgSec part) Fld.SEC_CMD_STAT_IGNORED 1 s
  else
    let s := if part = 16 then st pgSecDev Fld.SEC_DEV_CMD_STAT_BUSY 1 s else st (pgSec part) Fld.SEC_CMD_STAT_BUSY 1 s
    secGo ⟨s.nextFid, part, op, none⟩ { s with nextFid := s.nextFid + 1 }

/-- Commands that waited go on. -/
def secRetry (s : State) : State := s.secJobs.foldl (fun s j => secGo j s) s

/-- The partition that commands a SEC page: its own (R392). -/
def secRow (part op : Nat) (s : State) : State :=
  if 16 ≤ part then { s with bus := (0x20, 0) } else { secCommand part op s with bus := (0, 0) }

/-! ### Debug access (R388 to R390) -/

/-- Every key that Table 16.1 marks for debug opening is zeroised. -/
def openZeroise (s : State) : State :=
  let s := (List.range 16).foldl (fun s p => zeroiseKeys p s) s
  { s with sec := { s.sec with lend := keySetZero, node := s.sec.node.map fun _ => keyZero } }

/-- The sequence that an opening instruction starts, up to the step that makes it current (R389). -/
def debugOpening (entropyFails : Nat) (s : State) : State :=
  let s := (List.range 64).foldl (fun s c => endSession c true s) (openZeroise s)
  let s := seedDrbg entropyFails s
  let s := { s with sec := { s.sec with debugOpen := true } }
  secRetry ((List.range 16).foldl (fun s p => forcedRetrain p s) s)

/-- What IDCODE reads (R388): V is the low nibble of DEV_PART.STEPPING. -/
def jtagIdcode (s : State) : Nat := rg s pgDev Fld.DEV_PART_STEPPING % 16 * 2 ^ 28 + 0x1600A5B

/-- An instruction register code that opens debug access: EXTEST, SAMPLE/PRELOAD, DBG_ACCESS (R388). -/
def jtagOpens (code : Nat) : Bool := code == 0x00 || code == 0x02 || code == 0x10

/-- The update of the test access port's instruction register (R388, R389). An opening instruction acts as BYPASS while the seal is
intact or debug is fused off; every code that R388 does not name acts as BYPASS. -/
def jtagUpdate (code entropyFails : Nat) (s : State) : State :=
  let now (i : Nat) (s : State) : State := { s with sec := { s.sec with ir := i } }
  if code = 0x01 then now 0x01 s
  else if !jtagOpens code || !s.sec.sealOpen || s.pwr.fuses.debugOff then now 0xFF s
  else now code (debugOpening entropyFails s)

/-- ROTATE (R377). -/
def execRotate (part : Nat) (s : State) : Host.Outcome State Fault Refusal := .next (wh (on s) (atDone (secRow part 1)) s)

/-- ATTEST_P (R387). -/
def execAttestP (part : Nat) (s : State) : Host.Outcome State Fault Refusal := .next (wh (on s) (atDone (secRow part 2)) s)

/-- MEASURE (R386). -/
def execMeasure (part : Nat) (s : State) : Host.Outcome State Fault Refusal := .next (wh (on s) (atDone (secRow part 3)) s)

/-- BIND (R385). -/
def execBind (part : Nat) (s : State) : Host.Outcome State Fault Refusal := .next (wh (on s) (atDone (secRow part 4)) s)

/-- JOBKEY_LOAD (R380). -/
def execJobkeyLoad (part : Nat) (s : State) : Host.Outcome State Fault Refusal := .next (wh (on s) (atDone (secRow part 5)) s)

/-- JOBKEY_CLEAR (R380). -/
def execJobkeyClear (part : Nat) (s : State) : Host.Outcome State Fault Refusal := .next (wh (on s) (atDone (secRow part 6)) s)

/-- ATTEST_D (R393). -/
def execAttestD (part : Nat) (s : State) : Host.Outcome State Fault Refusal :=
  .next (wh (on s) (atDone (onZero part (secCommand 16 1))) s)

/-- SWEEP_BLOCK (R378). -/
def execSweepBlock (part mce : Nat) (s : State) : Host.Outcome State Fault Refusal := .next (wh (on s) (sweepStep part mce) s)

/-- SWEEP_END (R379). -/
def execSweepEnd (part : Nat) (s : State) : Host.Outcome State Fault Refusal := .next (wh (on s) (sweepDone part) s)

/-- JTAG_OPENING_INSTRUCTION (R389). -/
def execJtagOpeningInstruction (code entropyFails : Nat) (s : State) : Host.Outcome State Fault Refusal :=
  .next (wh (on s) (jtagUpdate code entropyFails) s)

/-- SEAL_SENSE_CHANGE (R388). -/
def execSealSenseChange (isOpen : Bool) (s : State) : Host.Outcome State Fault Refusal :=
  .next { s with sec := { s.sec with sealOpen := isOpen } }

end Sys2Proof.Machine
end

