-- ==== Sys2Proof/Machine/Partition.lean ====
section
/-!
DEFINITION. Partitions: their commands and states, extents, leaving arrays, context switches, teardown, and a fault of partition 0
(R341 to R363).
-/
namespace Sys2Proof.Machine

/-! ### Pages and queues -/

/-- QSTATE (Table 2.18, R58, R354, R361; log entry 82). -/
def qState (s : State) (q : Nat) : Nat :=
  let run := rg s (pgDsp q) Fld.DSP_Q_CTRL_RUN == 1
  let n := inflightOf s q
  if partState s q = .torn then 0
  else if (qu s q).held then 4
  else if !run && n == 0 then 0
  else if partState s q = .suspending ∨ partState s q = .suspended ∨ partState s q = .resuming then 3
  else if (qu s q).flushing && n != 0 then 6
  else if !run then 5
  else
    let waits := match (qu s q).desc with
      | some d => !isF d.code && !headReady s q
      | none => false
    if waits then 3 else if n ≠ 0 ∨ qHead s q ≠ qTail s q then 2 else 1

/-- The fields of a page that a reset of it leaves as they are (R449, R434). -/
def keptFields (pg : Page) : List Fld :=
  ((pageFields pg).filter fun d => d.boot).map FieldDef.fld ++
    (if pg.blk = .ras then [Fld.RAS_DEV_STAT_FAILED, Fld.RAS_DEV_STAT_CAUSE, Fld.RAS_FAIL_SRC, Fld.RAS_FAIL_INFO] ++
      (List.range 5).map (fldAt Fld.RAS_FENCE) else [])

/-- Every register of a page returns to its reset value, in both copies (R8, R403). -/
def resetRegs (pg : Page) (s : State) : State :=
  let k := regKey pg 0 / 4096
  let kept := (keptFields pg).map fun f => (f, rg s pg f)
  let s := { s with
    regs := s.regs.filter fun e => e.1 / 4096 != k
    staged := s.staged.filter fun e => e.1 / 4096 != k }
  kept.foldl (fun s x => st pg x.1 x.2 s) s

/-- The pages that CREATE and RESTART reset, with what lies behind them (R346, R450). -/
def resetPages (p : Nat) (s : State) : State :=
  let s := resetRegs (pgScn p) (resetRegs (pgKvs p) (resetRegs (pgDsp p) (colCloseAll p (askEnd p s))))
  let s := resetRegs (pgMemP p) (resetRegs (pgCol p) s)
  let s := setSc p (scnDefault p) (setKv p (kvsDefault p) (setQu p (queueDefault p) s))
  { s with lab := s.lab.filter fun e => e.1 != p }

/-- The state with a partition changed. -/
def setPart (p : Nat) (x : Part) (s : State) : State := { s with parts := tabSet partDefault s.parts p x }

/-- The partition as it stands. -/
def prt (s : State) (p : Nat) : Part := tabGet partDefault s.parts p

/-! ### Yard ways (R225, R228) -/

/-- A way takes a mode and an owner: the lines cached in a way that leaves its holder go, and a scratch way is overwritten with
zero. -/
def setWay (k mode owner : Nat) (s : State) : State :=
  let om := rg s pgYrd (fldWayMode k)
  let oo := rg s pgYrd (fldWayOwner k)
  if om = mode ∧ (mode = 0 ∨ oo = owner) then s
  else
    let s := stRws pgYrd (fldWayMode k) mode (stRws pgYrd (fldWayOwner k) (if mode = 0 then 0 else owner) s)
    clearWay k om mode s

/-- A partition's ways become unassigned. -/
def freeWays (p : Nat) (s : State) : State :=
  (List.range 16).foldl (fun s k => wh (rg s pgYrd (fldWayMode k) != 0 && rg s pgYrd (fldWayOwner k) == p) (setWay k 0 0) s) s

/-! ### Teardown (R360, R361) -/

/-- An abandoned descriptor's status byte, where it can be written. -/
def tearByte (f : Flight) (code : Nat) (s : State) : State :=
  wh (!dNoWb f.bytes && ownsRange s f.q (f.addr + 14) 1) (memPut .beside f.q (f.addr + 14) [BitVec.ofNat 8 code]) s

/-- The reduction contexts of a partition abort: the member completes at once, and its destination is undefined (R313, R361). -/
def tearContexts (p code : Nat) (s : State) : State :=
  (s.col.ctxs.filter fun c => c.part == p).foldl (fun s c =>
    let s := if c.abortSent ∨ c.nmem = 1 then s else colAbort c code 0 s
    match flightOf s c.fid with
    | some f => colEnd c f code 0 false s
    | none => freeCtx c.ctx s) s

/-- The leases of a partition are released (R238, R361): LOST slots are free at once, of the others the lender is told. -/
def tearLeases (p : Nat) (s : State) : State :=
  (s.leases.filter fun l => l.part == p).foldl (fun s l =>
    if l.state = .lost ∨ (l.state = .pending ∧ !l.asked) then freeLease l.first s
    else
      let s := updLease l.first (fun l => { l with state := .releasing, acq := none, rels := [], lrelSent := true }) s
      if l.lrelSent then s else borrowerSend l 5 0 l.count s) s

/-- A command of a block that waits ends with PARTITION_TORN_DOWN. -/
def tearCommands (p : Nat) (s : State) : State :=
  let s := wh (kv s p).waiting.isSome (kvResult p 0x71) s
  let s := wh (sc s p).waiting.isSome (scnResult p 0x71) s
  let s := wh (s.col.closing.any fun x => x.1 == p) (colResult p 0x71) s
  let s := (s.secJobs.filter fun j => j.part == p).foldl (fun s j => secResult p 0x71
    { s with
      accs := s.accs.filter fun a => a.fid != j.fid
      lostFids := s.lostFids.filter fun f => f.1 != j.fid }) s
  { s with secJobs := s.secJobs.filter fun j => j.part != p }

/-- Everything of a partition that is in a unit leaves it (R361 steps 4 to 6). -/
def tearUnits (p : Nat) (s : State) : State :=
  let mine := (s.flights.filter fun f => f.q == p).map Flight.fid
  let s := setKv p { kv s p with waiting := none } (setSc p (scnDefault p) s)
  let s := setCol { s.col with
    waiting := s.col.waiting.filter fun fid => !mine.contains fid
    closing := s.col.closing.filter fun x => x.1 != p
    opened := s.col.opened.filter fun x => x.1 != p } s
  { s with
    flights := s.flights.filter fun f => f.q != p
    planners := s.planners.filter fun x => match x.2 with
      | some fid => !mine.contains fid
      | none => true
    lab := s.lab.filter fun e => e.1 != p }

/-- Teardown of a partition other than partition 0 (R360, R361); `met` are the descriptors whose own work met the error. -/
def teardown (p detail : Nat) (met : List Nat) (s : State) : State :=
  if p = 0 ∨ partState s p = .none ∨ partState s p = .torn then s else
  let pg := pgDsp p
  let s := st pg Fld.DSP_Q_HEAD_HEAD_ENTRY (qTail s p) (st pg Fld.DSP_Q_HEAD_HEAD_DESC 0 (st pg Fld.DSP_Q_CTRL_RUN 0 s))
  let s := setQu p (queueDefault p) (askEnd p s)
  let s := tearContexts p 0x71 s
  let s := (s.flights.filter fun f => f.q == p).foldl (fun s f =>
    let code := if met.contains f.fid && detail != 1 then 0x70 else 0x71
    tearByte f code (abandon f.fid code 0 s)) s
  let s := tearLeases p (tearUnits p (tearCommands p s))
  let s := zeroiseKeys p ((List.range 16).foldl (fun s k => protectWaiting p k s) s)
  let busy := rg s (pgPrt p) Fld.PRT_CMD_STAT_BUSY == 1 && detail != 1
  let s := wh busy (fun s => st (pgPrt p) Fld.PRT_CMD_STAT_CODE 0x71 (st (pgPrt p) Fld.PRT_CMD_STAT_BUSY 0 s)) s
  let s := setPart p ⟨.torn, false, []⟩ s
  let s := inc (pgPrt p) Fld.PRT_TEARDOWNS 1 (pageErr (pgPrt p) 0x71 detail (some p) s)
  notify p ⟨4, 0x71, 0xFF, 0, 0, 0, rg s (pgPrt p) Fld.PAGE_ERR_INFO_DETAIL, 0⟩ s

/-- A cause of teardown that concerns partition 0 (R362): the descriptors that met the error fail, queue 0 is held, and the
collectives that used the failed unit abort; these complete with HW_FAULT on their verdict (R311, R313; log entry 113). -/
def faultZero (detail : Nat) (met : List Nat) (s : State) : State :=
  let hit := s.flights.filter fun f => f.q == 0 && met.contains f.fid
  let s := hit.foldl (fun s f => completeFlight f.fid (endFlight f.fid 0x70 0 s)) s
  let s := wh (!(qu s 0).held) (fun s => hold 0 0x70 (qHead s 0) (qDesc s 0) 0 s) s
  pageErr (pgPrt 0) 0x70 detail (some 0) s

/-- A cause of Table 15.5 concerns a partition. -/
def tearCause (p detail : Nat) (met : List Nat) (s : State) : State :=
  if p = 0 then faultZero detail met s else teardown p detail met s

/-! ### Commands (R345 to R347, R363) -/

/-- The result of a partition command. -/
def prtResult (p code : Nat) (s : State) : State :=
  st (pgPrt p) Fld.PRT_CMD_STAT_CODE code (st (pgPrt p) Fld.PRT_CMD_STAT_BUSY 0 s)

/-- CREATE (R346). -/
def prtCreate (p fails : Nat) (s : State) : State :=
  let s := seedDrbg fails s
  if s.sec.failed then prtResult p 0x70 s
  else prtResult p 0 (setPart p ⟨.active, false, []⟩ (createKeys p (resetPages p s)))

/-- A token passes to an owner with VALUE 0 and GEN advanced (R347, R353, R363). -/
def passToken (t owner : Nat) (s : State) : State :=
  let k := tok s t
  setTok t ⟨0, (k.gen + 1) % 4096, owner, false⟩ s

/-- An extent operation ends once no extent is ZEROING (R348). -/
def extSettle (s : State) : State :=
  let filling := s.exts.any fun e => match e.2 with
    | .zeroing _ => true
    | _ => false
  if rg s pgPrtDev Fld.PRT_EXT_STAT_BUSY = 1 ∧ !filling then
    st pgPrtDev Fld.PRT_EXT_STAT_CODE 0 (st pgPrtDev Fld.PRT_EXT_STAT_BUSY 0 s) else s

/-- The extents that a partition holds, those being filled for it among them. -/
def heldExtents (s : State) (p : Nat) : List Nat :=
  (s.exts.filter fun e => e.2 == .assigned p || e.2 == .zeroing p).map Prod.fst

/-- DESTROY (R347, R450). -/
def prtDestroy (p : Nat) (s : State) : State :=
  let s := teardown p 0x0001 [] s
  let s := freeWays p s
  let s := extSettle ((heldExtents s p).foldl (fun s e => setExt e .unassigned s) s)
  let s := zeroiseKeys p s
  let s := (s.toks.filter fun x => x.2.owner == p).foldl (fun s x => passToken x.1 0 s) s
  let s := (List.range 64).foldl (fun s c =>
    wh (rg s (pgCh c) Fld.HIF_CH_CFG_PART == p)
      (fun s => endSession c true (stRws (pgCh c) Fld.HIF_CH_CFG_ENABLE 0 s)) s) s
  let s := stRws (pgMemP p) Fld.MEM_WIN_COUNT 0 s
  setPart p (partDefault p) (resetRegs (pgPrt p) (resetRegs (pgCol p) s))

/-- RESTART (R363). -/
def prtRestart (p fails : Nat) (s : State) : State :=
  let s := seedDrbg fails s
  if s.sec.failed then prtResult p 0x70 s else
  let s := (List.range 160).foldl (fun s n => wh (fenced s n) (stRws (pgPrt p) (arrBit Fld.PRT_ARR n) 0) s) s
  let s := createKeys p s
  let s := (extentsOf s p).foldl (fun s e => zeroExtent e s) s
  let s := (waysOf s 2 p).foldl (fun s k => zeroFill (2 ^ 43 + k * 0x1800000) 0x1800000 s) s
  let s := resetPages p s
  let f := rg s (pgPrt p) Fld.PRT_TOK_FIRST
  let s := (List.range (rg s (pgPrt p) Fld.PRT_TOK_COUNT)).foldl (fun s i => passToken (f + i) p s) s
  prtResult p 0 (setPart p ⟨.active, false, []⟩ s)

/-! ### Context switches (R354 to R358) -/

/-- SUSPEND (R354 step 1). -/
def prtSuspend (p : Nat) (s : State) : State := setPart p { prt s p with state := .suspending, quiet := false } s

/-- The descriptor does not have to run to completion before the quiet point (R354). -/
def preemptible (f : Flight) : Bool :=
  f.result.isNone && ([0x02, 0x03, 0x04, 0x06, 0x0F].contains (dOp f.bytes) || isAcquire f)

/-- The outputs that stand in staging for a descriptor are written out (Table 15.4). -/
def flushStaging (fid : Nat) (s : State) : State :=
  (List.range 160).foldl (fun s n =>
    ((arr s n).staging.filter fun g => g.fid == fid && g.kind == .out).foldl (fun s g =>
      match tileFlight s fid with
      | some (f, w) =>
        let y := writeAll .yard f.q f.fid g.writes (setArr n { arr s n with staging := (arr s n).staging.filter fun x => x != g } s)
        match y.2 with
        | some code => failTiles fid code y.1
        | none => tilesDone fid (setTiles fid { w with left := w.left.filter fun t => t != tileNo w.plan g.item } y.1)
      | none => s) s) s

/-- The finished tile of an array's active registers moves to the shadows, as at the end of a run. -/
def swapFinished (fid n : Nat) (s : State) : State :=
  let a := arr s n
  match a.run, a.active with
  | some r, some (it, vs) =>
    if r.fid = fid ∧ !r.started ∧ a.shadow.isNone then setArr n { a with active := none, shadow := some (fid, r.pass, it, vs) } s else s
  | _, _ => s

/-- The shadows of a descriptor on an array drain, where its tiles are not split (Table 15.4). -/
def drainFor (fid n : Nat) (s : State) : State :=
  match (arr s n).shadow with
  | some x => if x.1 = fid then flushStaging fid (tileDrain n s) else s
  | none => s

/-- A product is preempted (Table 15.4): finished tiles drain and are written out, everything else of it in the arrays is
discarded, and its tiles not yet written are planned to run again. -/
def preemptTiles (fid : Nat) (s : State) : State :=
  match tileFlight s fid with
  | some (_, w) =>
    let s := if 1 < w.plan.l then flushStaging fid s else
      (List.range 160).foldl (fun s n => drainFor fid n (swapFinished fid n (drainFor fid n s))) (flushStaging fid s)
    match tileFlight s fid with
    | some (_, w) =>
      let again := (planSlots w.plan).filterMap fun x =>
        let l := x.2.filter fun it => w.left.contains (tileNo w.plan it)
        if l.isEmpty then none else some (x.1, l)
      setTiles fid { w with waiting := if w.ovf.isSome then [] else again } (clearArrays fid s)
    | none => clearArrays fid s
  | none => s

/-- A SCAN is preempted: it runs again from the current images (Table 15.4, R194). -/
def preemptScan (fid : Nat) (s : State) : State :=
  updFlight fid (fun f => match f.work with
    | .scan w => { f with work := .scan { w with chunks := [], special := [], hand := 0 } }
    | _ => f) s

/-- The quiet point (R354 steps 2 and 3). -/
def quietPoint (p : Nat) (s : State) : State :=
  let mine := s.flights.filter fun f => f.q == p
  if partState s p ≠ .suspending ∨ (prt s p).quiet ∨ !mine.all preemptible then s else
  let s := mine.foldl (fun s f =>
    if dOp f.bytes = 0x06 then preemptScan f.fid s
    else if dOp f.bytes = 0x02 ∨ dOp f.bytes = 0x03 then preemptTiles f.fid s else s) s
  let s := { s with retrain := { s.retrain with waiting := s.retrain.waiting.filter fun w => !mine.any fun f => f.fid == w.2 } }
  setPart p { prt s p with quiet := true } s

/-- The SCN resident area of a partition: its base and its length (R185). -/
def residentArea (s : State) (p : Nat) : Nat × Nat := (scImage s p 0 0, 2 * scSlots s p * scSB s p)

/-- The live scratch of a partition (R355): the first address and the length of the prefix that its scratch ways, first and count,
hold. -/
def livePrefix (s : State) (p first count : Nat) : Nat × Nat :=
  (2 ^ 43 + first * 0x1800000, min (rg s (pgPrt p) Fld.PRT_SCR_LIVE * 4096) (count * 0x1800000))

/-- The pieces of live scratch with their places in the save area (R355): scratch address, save address, length; nothing of the
resident area. -/
def savePieces (s : State) (p first count : Nat) : List (Nat × Nat × Nat) :=
  let x := livePrefix s p first count
  let r := residentArea s p
  (List.range (ceilDiv x.2 32768)).flatMap fun i =>
    let lo := x.1 + i * 32768
    let hi := min (lo + 32768) (x.1 + x.2)
    let dst := i % 8 * 2 ^ 36 + rg s (pgPrt p) Fld.PRT_SAVE * 32768 + i / 8 * 32768
    let a := min (max lo r.1) hi
    let b := min (max a (r.1 + r.2)) hi
    let parts := if r.2 = 0 then [(lo, hi)] else [(lo, a), (max lo b, hi)]
    (parts.filter fun y => decide (y.1 < y.2)).map fun y => (y.1, dst + (y.1 - lo), y.2 - y.1)

/-- The device copies pieces of memory for a context switch, beside every regulator (R355): the first code that a piece meets, which is
then not copied (log entry 124). -/
def switchCopy (p : Nat) (l : List (Nat × Nat × Nat)) (s : State) : State × Option Nat :=
  l.foldl (fun a x =>
    let r := copyMem .save p x.1 x.2.1 x.2.2 (a.1, none)
    match r.2 with
    | some e => (stopped e a.1, a.2.or (some e.code))
    | none => (r.1, a.2)) (s, none)

/-- A stream is SIDED by the save of its partition: a state in its slot goes to its siding, a swap-in in progress is abandoned
(R355). -/
def saveStream (p t : Nat) (s : State) : State :=
  if scState s p t = 2 ∨ scState s p t = 3 then
    (let r := scStore .save p t (s, none)
    match r.2 with
    | some e => swapOutEnd .save p t (stopped e s)
    | none => swapOutEnd .save p t r.1)
  else if scState s p t = 4 then (scPut .save p t 0 1 1 (s, none)).1
  else s

/-- The save of a partition's recurrent streams (R355). -/
def saveStreams (p : Nat) (s : State) : State :=
  let s := (sc s p).slots.foldl (fun s x => saveStream p x.stream s) s
  setSc p { sc s p with slots := [], want := [], evict := [] } s

/-- A channel holds an access of a context switch (R241). -/
def switchHeld (s : State) (p : Nat) (l : List (Nat × Nat × Nat)) : Bool :=
  (l.any fun x => heldRange s x.1 x.2.2 || heldRange s x.2.1 x.2.2) ||
    (sc s p).slots.any fun x => heldRange s (scEntry s p x.stream) 32 || heldRange s (scSiding s p x.stream) (scSB s p)

/-- The save completes (R354 step 4, R355): the partition is SUSPENDED. `cycles` is how long it took. -/
def saveComplete (p cycles : Nat) (s : State) : State :=
  let w := scratchOf s p
  let l := savePieces s p w.1 w.2
  if partState s p ≠ .suspending ∨ !(prt s p).quiet ∨ switchHeld s p l then s else
  let cache := (waysOf s 1 p).foldl (fun a k => a + 2 ^ k) 0
  let r := switchCopy p l s
  let s := saveStreams p r.1
  let pg := pgPrt p
  let s := st pg Fld.PRT_SUSP_CACHE cache (st pg Fld.PRT_SUSP_SCR_COUNT w.2 (st pg Fld.PRT_SUSP_SCR_FIRST w.1 s))
  let s := freeWays p ((List.range 160).foldl (fun s n => stRws pg (arrBit Fld.PRT_ARR n) 0 s) s)
  let s := inc pg Fld.PRT_SUSPENDS 1 (st pg Fld.PRT_SW_CYC cycles s)
  prtResult p (r.2.getD 0) (setPart p ⟨.suspended, true, []⟩ s)

/-- RESUME (R357): the recorded ways return; CAPACITY while a recorded scratch way is assigned. -/
def prtResume (p : Nat) (s : State) : State :=
  let pg := pgPrt p
  let f := rg s pg Fld.PRT_SUSP_SCR_FIRST
  let n := rg s pg Fld.PRT_SUSP_SCR_COUNT
  let ways := (List.range n).map fun i => f + i
  if ways.any fun k => rg s pgYrd (fldWayMode k) != 0 then prtResult p 0x11 s else
  let s := ways.foldl (fun s k => setWay k 2 p s) s
  let s := (List.range 16).foldl (fun s k =>
    wh (bit k (rg s pg Fld.PRT_SUSP_CACHE) && rg s pgYrd (fldWayMode k) == 0) (setWay k 1 p) s) s
  setPart p { prt s p with state := .resuming } s

/-- The saved tiles are back (R357): the partition is ACTIVE and its queue issues again. -/
def restoreComplete (p : Nat) (s : State) : State :=
  let l := (savePieces s p (rg s (pgPrt p) Fld.PRT_SUSP_SCR_FIRST) (rg s (pgPrt p) Fld.PRT_SUSP_SCR_COUNT)).map fun x => (x.2.1, x.1, x.2.2)
  if partState s p ≠ .resuming ∨ switchHeld s p l then s else
  let r := switchCopy p l s
  refill p (prtResult p (r.2.getD 0) (setPart p ⟨.active, false, (prt r.1 p).leaving⟩ r.1))

/-- The states in which a command is accepted (Table 15.2). -/
def prtAccepts (op : Nat) (x : PartState) : Bool :=
  match op, x with
  | 1, .none => true
  | 2, .active => true
  | 2, .suspended => true
  | 2, .torn => true
  | 3, .active => true
  | 4, .suspended => true
  | 5, .torn => true
  | _, _ => false

/-- A write of PRT_CMD on the page of partition `p` (R345). -/
def prtCommand (p op fails : Nat) (s : State) : State :=
  let pg := pgPrt p
  if rg s pg Fld.PRT_CMD_STAT_BUSY = 1 then st pg Fld.PRT_CMD_STAT_IGNORED 1 s
  else if p = 0 ∨ !prtAccepts op (partState s p) then st pg Fld.PRT_CMD_STAT_CODE 0x13 s
  else
    let s := st pg Fld.PRT_CMD_STAT_BUSY 1 s
    match op with
    | 1 => prtCreate p fails s
    | 2 => prtDestroy p s
    | 3 => prtSuspend p s
    | 4 => prtResume p s
    | _ => prtRestart p fails s

/-- A write of PRT_CMD by partition 0, the only one that may (R344). -/
def prtRow (part p op fails : Nat) (s : State) : State :=
  if part = 0 ∧ p < 16 then { prtCommand p op fails s with bus := (0, 0) } else { s with bus := (0x20, 0) }

/-! ### Extents (R348) -/

/-- An ASSIGNED extent of partition `q` may be taken from it. -/
def mayUnassign (s : State) (q : Nat) : Bool :=
  partState s q == .suspended || partState s q == .torn || (qState s q == 0 && inflightOf s q == 0)

/-- The state of an extent allows an operation (Table 15.3). -/
def extAllows (s : State) (op e : Nat) : Bool :=
  match op, tabGet extDefault s.exts e with
  | 1, .unassigned => true
  | 2, .assigned q => mayUnassign s q
  | 2, .lendable => true
  | 3, .unassigned => true
  | _, _ => false

/-- An extent lent as it stands: no tag in it matches under the lend key (R368, R371). -/
def lendRaw (e : Nat) (s : State) : State :=
  setExt e .lendable { s with mce := { s.mce with
    blocks := s.mce.blocks.map fun x => if x.1 / 2 ^ 21 = e then (x.1, x.2.map fun m => { m with bad := true }) else x
    base := tabSet baseDefault s.mce.base e (4 + tabGet baseDefault s.mce.base e % 4) } }

/-- One extent under an operation. -/
def extChange (op target e : Nat) (s : State) : State :=
  match op with
  | 1 => setExt e (.zeroing target) s
  | 2 =>
    (match tabGet extDefault s.exts e with
    | .assigned q => setExt e .unassigned (sweepDrop q e s)
    | _ => setExt e .unassigned s)
  | _ => lendRaw e s

/-- A write of PRT_EXT_CMD (R348). -/
def extCommand (op target : Nat) (s : State) : State :=
  let pg := pgPrtDev
  if rg s pg Fld.PRT_EXT_STAT_BUSY = 1 then st pg Fld.PRT_EXT_STAT_IGNORED 1 s
  else
    let n := rg s pg Fld.PRT_EXT_ARG_COUNT
    let es := (List.range n).map fun i => rg s pg Fld.PRT_EXT_ARG_FIRST + i
    let c : Chk := { chkNone with
      format := op == 0 || decide (4 ≤ op) || (op == 1 && !partExists s target) || es.any fun e => isExtent e && !extAllows s op e
      capacity := es.any fun e => !isExtent e
      zero := n == 0 }
    if chkCode c ≠ 0 then st pg Fld.PRT_EXT_STAT_CODE (chkCode c) s
    else extSettle (st pg Fld.PRT_EXT_STAT_BUSY 1 (es.foldl (fun s e => extChange op target e s) s))

/-- An extent has been filled with zero under its owner's key (R348). -/
def extentZeroed (e : Nat) (s : State) : State :=
  match tabGet extDefault s.exts e with
  | .zeroing p => extSettle (setExt e (.assigned p) (zeroExtent e s))
  | _ => s

/-! ### Leaving arrays (R352) -/

/-- Nothing of a run is left on an array. -/
def arrEmpty (a : Arr) : Bool := a.run.isNone && a.active.isNone && a.shadow.isNone && a.staging.isEmpty

/-- A leaving array with nothing left on it passes to partition 0. -/
def arrayLeft (n : Nat) (s : State) : State :=
  if !arrEmpty (arr s n) then s else
  (List.range 16).foldl (fun s p =>
    wh (leaving s p n) (setPart p { prt s p with leaving := (prt s p).leaving.filter fun m => m != n }) s) s

/-- PRT_CREATE (R346). -/
def execPrtCreate (part p entropyFails : Nat) (s : State) : Host.Outcome State Fault Refusal :=
  .next (wh (on s) (atDone (prtRow part p 1 entropyFails)) s)

/-- PRT_DESTROY (R347). -/
def execPrtDestroy (part p : Nat) (s : State) : Host.Outcome State Fault Refusal := .next (wh (on s) (atDone (prtRow part p 2 0)) s)

/-- PRT_SUSPEND (R354). -/
def execPrtSuspend (part p : Nat) (s : State) : Host.Outcome State Fault Refusal := .next (wh (on s) (atDone (prtRow part p 3 0)) s)

/-- QUIET_POINT (R354). -/
def execQuietPoint (p : Nat) (s : State) : Host.Outcome State Fault Refusal := .next (wh (on s) (quietPoint p) s)

/-- SAVE_COMPLETE (R355). -/
def execSaveComplete (p cycles : Nat) (s : State) : Host.Outcome State Fault Refusal := .next (wh (on s) (saveComplete p cycles) s)

/-- PRT_RESUME (R357). -/
def execPrtResume (part p : Nat) (s : State) : Host.Outcome State Fault Refusal := .next (wh (on s) (atDone (prtRow part p 4 0)) s)

/-- RESTORE_COMPLETE (R357). -/
def execRestoreComplete (p : Nat) (s : State) : Host.Outcome State Fault Refusal := .next (wh (on s) (restoreComplete p) s)

/-- PRT_RESTART (R363). -/
def execPrtRestart (part p entropyFails : Nat) (s : State) : Host.Outcome State Fault Refusal :=
  .next (wh (on s) (atDone (prtRow part p 5 entropyFails)) s)

/-- ASSIGN (R348). -/
def execAssign (part target : Nat) (s : State) : Host.Outcome State Fault Refusal :=
  .next (wh (on s) (atDone (onZero part (extCommand 1 target))) s)

/-- UNASSIGN (R348). -/
def execUnassign (part : Nat) (s : State) : Host.Outcome State Fault Refusal := .next (wh (on s) (atDone (onZero part (extCommand 2 0))) s)

/-- LEND (R348). -/
def execLend (part : Nat) (s : State) : Host.Outcome State Fault Refusal := .next (wh (on s) (atDone (onZero part (extCommand 3 0))) s)

/-- EXTENT_ZEROED (R348). -/
def execExtentZeroed (ext : Nat) (s : State) : Host.Outcome State Fault Refusal := .next (wh (on s) (extentZeroed ext) s)

/-- ARRAY_LEAVE_DONE (R352). -/
def execArrayLeaveDone (arr : Nat) (s : State) : Host.Outcome State Fault Refusal := .next (wh (on s) (arrayLeft arr) s)

end Sys2Proof.Machine
end

