-- ==== Sys2Proof/Machine/Fault.lean ====
section
/-!
DEFINITION. Memory retraining and its failure, failed stacks and packages, and the uncorrected errors of every unit (R81, R241 to R243,
R268, R279, R413 to R418).
-/
namespace Sys2Proof.Machine

/-! ### Retraining (R241, R242) -/

/-- The page of an HBM stack or an LPDDR package. -/
def unitPage (lpddr : Bool) (u : Nat) : Page := if lpddr then pgLpd u else pgMem u

/-- The unit and the channel exist. -/
def chanExists (lpddr : Bool) (u ch : Nat) : Bool := if lpddr then decide (u < 16 ∧ ch < 4) else decide (u < 8 ∧ ch < 64)

/-- The stack or package has failed. -/
def unitGone (s : State) (lpddr : Bool) (u : Nat) : Bool :=
  tabGet extDefault s.exts (if lpddr then 1024 + 64 * u else 64 * u) == .failed

/-- DEFER of a unit's policy. -/
def deferOf (s : State) (lpddr : Bool) (u : Nat) : Nat :=
  if lpddr then rg s (pgLpd u) Fld.LPD_RETRAIN_POL_DEFER else rg s (pgMem u) Fld.MEM_RETRAIN_POL_DEFER

/-- A retrain starts: new requests to the channel are held (R241). `forced` says that it is made against DEFER or MIN_GAP_MS
(R242). -/
def retrainStart (lpddr : Bool) (u ch : Nat) (forced : Bool) (s : State) : State :=
  let c : MemChan := ⟨lpddr, u, ch⟩
  if !chanExists lpddr u ch ∨ unitGone s lpddr u ∨ s.retrain.held.contains c ∨ (!forced ∧ deferOf s lpddr u = 1) then s else
  let pg := unitPage lpddr u
  let s := { s with retrain := { s.retrain with held := s.retrain.held ++ [c] } }
  let s := inc pg (if lpddr then Fld.LPD_RETRAIN_CNT else Fld.MEM_RETRAIN_CNT) 1 s
  wh forced (fun s => raise pg 0x05 0 2 none 1
    (inc pg (if lpddr then Fld.LPD_FORCED_CNT else Fld.MEM_FORCED_CNT) 1 s)) s

/-- Retrains of a channel that have failed in a row. -/
def failsOf (s : State) (c : MemChan) : Nat := ((s.retrain.fails.find? fun x => x.1 == c).map Prod.snd).getD 0

/-- The count of a channel's failed retrains. -/
def setFails (c : MemChan) (n : Nat) (s : State) : State :=
  let rest := s.retrain.fails.filter fun x => x.1 != c
  { s with retrain := { s.retrain with fails := if n = 0 then rest else rest ++ [(c, n)] } }

/-- A retrain ends well: the held requests proceed, in their arrival order (R241). -/
def retrainOk (c : MemChan) (cycles : Nat) (s : State) : State :=
  let pg := unitPage c.lpddr c.unit
  let s := setFails c 0 { s with retrain := { s.retrain with
    held := s.retrain.held.filter fun x => x != c } }
  let s := wh (!c.lpddr && decide (rg s pg Fld.MEM_HOLD_MAX < cycles)) (st pg Fld.MEM_HOLD_MAX (min cycles (2 ^ 24 - 1))) s
  raiseDur pg 0x04 c.ch 0 s

/-! ### A failed stack or package (R243) -/

/-- The extents of a unit (R219). -/
def unitExtents (lpddr : Bool) (u : Nat) : List Nat :=
  if lpddr then (List.range 62).map fun i => 1024 + 64 * u + i else (List.range 63).map fun i => 64 * u + i

/-- An extent fails with its unit (R348): the sweep of its owner goes on without it. -/
def failExtent (e : Nat) (s : State) : State :=
  match tabGet extDefault s.exts e with
  | .assigned p => setExt e .failed (sweepDrop p e s)
  | _ => setExt e .failed s

/-- The descriptors with a request held at a unit, and those that a stack's engine executes (R361). -/
def unitMet (s : State) (lpddr : Bool) (u : Nat) : List Nat :=
  ((s.retrain.waiting.filter fun w => w.1.lpddr == lpddr && w.1.unit == u).map Prod.snd) ++
    (if lpddr then [] else ((s.flights.filter fun f => usesEngine f u).map Flight.fid) ++ (tabGet stkDefault s.stks u).active)

/-- A request of a host or of the security block. -/
def isRequest (s : State) (fid : Nat) : Bool :=
  (s.secJobs.any fun j => j.fid == fid) || !allBelow 64 fun c => !((sessOf s c).any fun x => x.todo.any fun r => r.fid == fid)

/-- The requests held at a failed unit that are no descriptors end with HW_FAULT (R243). -/
def requestsLost (met : List Nat) (s : State) : State :=
  { s with lostFids := s.lostFids ++ (met.filter fun fid => isRequest s fid).map fun fid => (fid, 0x70) }

/-- The descriptors that met the error and are still in flight, their partitions not being torn down, end with HW_FAULT (R243,
R268). -/
def restMet (met : List Nat) (s : State) : State :=
  met.foldl (fun s fid => wh (s.flights.any fun f => f.fid == fid && f.result.isNone) (endFlight fid 0x70 0) s) s

/-- What a unit's failure brings from its second step on (R243): its extents fail, its held requests end, its lends end, and their
owners are torn down, or partition 0 is treated under R362. -/
def unitDown (lpddr : Bool) (u detail : Nat) (s : State) : State :=
  let es := unitExtents lpddr u
  let met := unitMet s lpddr u
  let owners := (List.range 16).filter fun p => es.any fun e => tabGet extDefault s.exts e == .assigned p
  let s := extSettle (es.foldl (fun s e => failExtent e s) s)
  let s := { s with retrain := {
    held := s.retrain.held.filter fun c => !(c.lpddr == lpddr && c.unit == u)
    fails := s.retrain.fails.filter fun x => !(x.1.lpddr == lpddr && x.1.unit == u)
    waiting := s.retrain.waiting.filter fun w => !(w.1.lpddr == lpddr && w.1.unit == u) } }
  let s := (s.lends.filter fun l => l.exts.any fun e => es.contains e).foldl (fun s l => lendLost l.id s) s
  restMet met (owners.foldl (fun s p => tearCause p detail met s) (requestsLost met s))

/-- A channel is permanently failed, and its stack or package with it (R243, R416). -/
def stackFail (c : MemChan) (s : State) : State :=
  if unitGone s c.lpddr c.unit then s else
  let pg := unitPage c.lpddr c.unit
  let s := if c.lpddr then
      st pg Fld.LPD_STAT_FAILED 1 (st pg Fld.LPD_STAT_FAILED_CH (rg s pg Fld.LPD_STAT_FAILED_CH ||| 2 ^ c.ch)
        (st pgDev Fld.DEV_INVENTORY_LPD_PKGS (rg s pgDev Fld.DEV_INVENTORY_LPD_PKGS - 1) s))
    else
      let f := if c.ch < 32 then Fld.MEM_PC_FAIL_LO else Fld.MEM_PC_FAIL_HI
      st pg Fld.MEM_STACK_STAT_FAILED 1 (st pg f (rg s pg f ||| 2 ^ (c.ch % 32))
        (st pgDev Fld.DEV_INVENTORY_STACKS (rg s pgDev Fld.DEV_INVENTORY_STACKS - 1) s))
  unitDown c.lpddr c.unit 3 (moduleFail (if c.lpddr then 4 else 3) pg 0x70 (0x0100 + c.ch) none s)

/-- A retrain ends (R241, R243): the third failure in a row, or a declaration under R418, fails the channel for good; before that a
failed retrain is followed at once by the next, which counts (R245, R248), and the hold stays (log entry 127). -/
def retrainEnd (lpddr : Bool) (u ch : Nat) (ok : Bool) (cycles : Nat) (declared : Bool) (s : State) : State :=
  let c : MemChan := ⟨lpddr, u, ch⟩
  if !chanExists lpddr u ch then s
  else if declared then stackFail c s
  else if !s.retrain.held.contains c then s
  else if ok then retrainOk c cycles s
  else if 2 ≤ failsOf s c then stackFail c s
  else inc (unitPage lpddr u) (if lpddr then Fld.LPD_RETRAIN_CNT else Fld.MEM_RETRAIN_CNT) 1 (setFails c (failsOf s c + 1) s)

/-! ### Stack engines (R268, R413) -/

/-- An uncorrected error in a stack engine, or on its stack link: the engine's page reports it; it is a failure of its stack, which
R243 treats from its second step on (R29, R268). -/
def engineFault (k detail : Nat) (s : State) : State :=
  if 8 ≤ k then s else
  let s := moduleFail 5 (pgStk k) 0x70 detail none s
  if unitGone s false k then s
  else unitDown false k 4 (st pgDev Fld.DEV_INVENTORY_STACKS (rg s pgDev Fld.DEV_INVENTORY_STACKS - 1) s)

/-- A stack link retrain ends (R413): the transfer recovers, or the stack fails with detail 0x0003 (Table 11.13). -/
def linkRetrainEnd (k : Nat) (ok : Bool) (s : State) : State :=
  if 8 ≤ k then s
  else if ok then recovered (pgStk k) s else engineFault k 3 s

/-! ### Arrays (R81) -/

/-- The descriptors whose work on an array meets an error, by the part that Table 3.13 names: a feeder serves the run, staging its
outputs, a drain chain the tile in the shadows, a preload chain the run, a cell the run and the tile in its registers; of another
detail, all of them (log entry 125). `fid` is the ATTN, the SCAN or the recomputation whose pass met it. -/
def arrWork (s : State) (n detail : Nat) (fid : Option Nat) : List Nat :=
  let a := arr s n
  let run := (a.run.map ArrRun.fid).toList
  let shadow := (a.shadow.map Prod.fst).toList
  let staged := a.staging.map Staged.fid
  (match detail with
    | 1 | 2 => run
    | 3 => staged
    | 4 => shadow ++ (if a.latch.isSome then run else [])
    | 5 => run ++ shadow
    | _ => run ++ shadow ++ staged) ++ fid.toList

/-- An uncorrected error in an array: it is fenced until power-off, and the partition that holds it is torn down (R81, R417). -/
def arrayError (n detail : Nat) (fid : Option Nat) (s : State) : State :=
  if 160 ≤ n ∨ fenced s n then s else
  let p := arrOwner s n
  let met := arrWork s n detail fid
  let s := moduleFail 1 (pgArr n) 0x70 detail (some p) s
  let s := st pgRas (arrBit Fld.RAS_FENCE n) 1 (st pgDev Fld.DEV_INVENTORY_ARRAYS (rg s pgDev Fld.DEV_INVENTORY_ARRAYS - 1) s)
  tearCause p 2 met s

/-! ### The yard (R413, R415) -/

/-- A scrub pass of the whole yard ends (R415): each corrected line counts as a corrected error. -/
def scrubPass (correctedLines : Nat) (s : State) : State :=
  (List.range correctedLines).foldl (fun s _ => corrected pgYrd s) (inc pgRas Fld.RAS_SCRUBS 1 s)

/-- An uncorrected error in a scratch way (R362, R413): its holder is torn down; partition 0 loses the way. -/
def scratchError (k : Nat) (fid : Option Nat) (s : State) : State :=
  if 16 ≤ k ∨ rg s pgYrd (fldWayMode k) ≠ 2 then s else
  let p := rg s pgYrd (fldWayOwner k)
  let s := tearCause p 5 fid.toList (moduleFail 2 pgYrd 0x70 0 (some p) s)
  wh (p == 0) (setWay k 0 0) s

/-! ### Shared units (R413, R417) -/

/-- A page that Table 18.2 names for a cause of a shared unit; cause 0 is a report of a DRAM core or an LPDDR link, which is no
cause of module failure. -/
def sharedPage (cause : Nat) (pg : Page) : Bool :=
  match cause, pageKind pg with
  | 0, some .memStack => true
  | 0, some .lpd => true
  | 6, some .ras => true
  | 7, some .ras => true
  | 7, some .tok => true
  | 7, some .dsp => true
  | 7, some .tpl => true
  | 8, some .kvs => true
  | 8, some .scn => true
  | 8, some .col => true
  | 8, some .colDev => true
  | 9, some .secDev => true
  | _, _ => false

/-- The partition that a page of a shared unit names. -/
def sharedPart (pg : Page) : Option Nat :=
  match pageKind pg with
  | some .dsp => some pg.inst
  | some .kvs => some pg.inst
  | some .scn => some pg.inst
  | some .col => some pg.inst
  | _ => none

/-- A command of a station that was waiting when its state met an error completes with HW_FAULT. -/
def commandFault (pg : Page) (s : State) : State :=
  let p := pg.inst
  match pageKind pg with
  | some .kvs => wh (kv s p).waiting.isSome (fun s => kvResult p 0x70 (setKv p { kv s p with waiting := none } s)) s
  | some .scn => wh (sc s p).waiting.isSome (fun s => scnResult p 0x70 (setSc p { sc s p with waiting := none } s)) s
  | some .col =>
    wh (s.col.closing.any fun x => x.1 == p)
      (fun s => colResult p 0x70 (setCol { s.col with closing := s.col.closing.filter fun x => x.1 != p } s)) s
  | _ => s

/-- An uncorrected error in a shared unit, or one flit of the on-die network (R417). Where no descriptor met it: an access of the
register bus reports HW_FAULT, and a queue whose own state met it is held. -/
def sharedError (cause : Nat) (pg : Page) (detail : Nat) (fid t : Option Nat) (s : State) : State :=
  if !sharedPage cause pg then s else
  let s :=
    if cause = 0 then pageErr pg 0x70 (0x0200 + detail) none s
    else moduleFail cause pg 0x70 (if cause = 6 then 0x0300 + detail else detail) (sharedPart pg) s
  let s := wh (cause == 9) (fun s => { s with sec := { s.sec with failed := true } }) s
  let s := match t with
    | some n => wh (cause == 7 && pg.blk == .tok && decide (n < 8192)) (setTok n { tok s n with poisoned := true }) s
    | none => s
  match fid with
  | some f => endFlight f 0x70 0 s
  | none =>
    match pageKind pg with
    | some .dsp => hold pg.inst 0x70 (qHead s pg.inst) (qDesc s pg.inst) 0 s
    | some .ras => wh (cause == 7) (fun s => { s with bus := (0x70, 0) }) s
    | some .tok => { s with bus := (0x70, 0) }
    | _ => wh (cause == 8) (commandFault pg) s

/-! ### A failed hop (R279) -/

/-- A hop of the on-die network fails: every partition with traffic through it is torn down (R279, R417). -/
def hopFail (segment parts : Nat) (fids : List Nat) (s : State) : State :=
  if 8 ≤ segment then s else
  ((List.range 16).filter fun p => bit p parts && partExists s p).foldl (fun s p => tearCause p 6 fids s)
    (moduleFail 6 pgRas 0x70 (0x0300 + segment) none s)

/-! ### Commands -/

/-- MEMORY_RETRAIN_START (R242). -/
def execMemoryRetrainStart (lpddr : Bool) (unit ch : Nat) (forced : Bool) (s : State) : Host.Outcome State Fault Refusal :=
  .next (wh (on s) (retrainStart lpddr unit ch forced) s)

/-- YARD_SCRUB (R415). -/
def execYardScrub (corrected : Nat) (s : State) : Host.Outcome State Fault Refusal := .next (wh (on s) (scrubPass corrected) s)

/-- ARRAY_UNCORRECTED_ERROR (R81). -/
def execArrayUncorrectedError (arr detail : Nat) (fid : Option Nat) (s : State) : Host.Outcome State Fault Refusal :=
  .next (wh (on s) (arrayError arr detail fid) s)

/-- HOP_STALL_FAILURE (R279). -/
def execHopStallFailure (segment parts : Nat) (fids : List Nat) (s : State) : Host.Outcome State Fault Refusal :=
  .next (wh (on s) (hopFail segment parts fids) s)

/-- MR4_TEMPERATURE_REPORT (R248). -/
def execMr4TemperatureReport (pkg code mult : Nat) (s : State) : Host.Outcome State Fault Refusal :=
  .next (wh (on s && decide (pkg < 16 ∧ mult < 3))
    (fun s => st (pgLpd pkg) Fld.LPD_REFRESH_MR4 code (st (pgLpd pkg) Fld.LPD_REFRESH_MULT mult s)) s)

end Sys2Proof.Machine
end

