-- ==== Sys2Proof/Machine/Power.lean ====
section
/-!
DEFINITION. The limiter, adaptive clocks, power failure, the fall of MOD_RESET_N, and the commands of the boot sequencer (R396 to R402,
R409).
-/
namespace Sys2Proof.Machine

/-! ### Points (R396 to R398) -/

/-- The point code of an array. -/
def pointOf (s : State) (n : Nat) : Nat := rg s pgClkDev (fldPoint n)

/-- The floor of an array, as a code (R397). -/
def floorOf (s : State) (n : Nat) : Nat := rg s (pgClk (arrOwner s n)) Fld.CLK_POL_FLOOR

/-- The ceiling of an array, as a code (R397). -/
def ceilOf (s : State) (n : Nat) : Nat := rg s (pgClk (arrOwner s n)) Fld.CLK_POL_CEIL

/-- Of some arrays, those that stand at the highest point present among them: the lowest code. -/
def highest (s : State) (l : List Nat) : List Nat :=
  l.filter fun n => l.all fun m => decide (pointOf s n ≤ pointOf s m)

/-- Arrays move down one point. -/
def pointsDown (l : List Nat) (s : State) : State :=
  l.foldl (fun s n => st pgClkDev (fldPoint n) (min 3 (pointOf s n + 1)) s) s

/-- A step below FLOOR counts once on the PWR page, once on the CLK page of the array's partition, and as an override (R398). -/
def overrideStep (n : Nat) (s : State) : State :=
  raise pgPwr 0x05 0 4 (some (arrOwner s n)) 1 (inc (pgClk (arrOwner s n)) Fld.CLK_OVR 1 (inc pgPwr Fld.PWR_OVERRIDES 1 s))

/-- A down-step is in force: it is counted and raises a POWER event (R399, R400). -/
def stepTaken (therm : Bool) (d : DownStep) (s : State) : State :=
  let s := { s with pwr := { s.pwr with steps := d :: s.pwr.steps } }
  let s := wh therm (inc pgPwr Fld.PWR_THERM_STEPS 1) (inc pgPwr Fld.PWR_STEPS_DOWN 1 s)
  raiseDur pgPwr 0x0D (if therm then 2 else 1) 0 s

/-- One down-step of R399; `hard` says that the envelope or the junction limit asks for it. -/
def downStep (hard therm : Bool) (s : State) : State :=
  let above := (List.range 160).filter fun n => decide (pointOf s n < floorOf s n)
  let fast := (List.range 160).filter fun n => decide (pointOf s n < 3)
  if !above.isEmpty then
    let l := highest s above
    stepTaken therm (.points l) (pointsDown l s)
  else if hard && !fast.isEmpty then
    let l := highest s fast
    stepTaken therm (.points l) (l.foldl (fun s n => overrideStep n s) (pointsDown l s))
  else if hard then
    (if rg s pgClkDev Fld.CLK_DUTY ≤ 1 then s
    else stepTaken therm .duty (st pgClkDev Fld.CLK_DUTY (rg s pgClkDev Fld.CLK_DUTY - 1) s))
  else inc pgPwr Fld.PWR_CAP_MISS 1 s

/-- What the limiter has measured shows on the PWR page (R410). -/
def measured (msMeanW tempC : Nat) (s : State) : State :=
  let w := min msMeanW 0x7FF
  let s := st pgPwr Fld.PWR_STAT_INPUT_W w (st pgPwr Fld.PWR_STAT_TJ_MAX (min tempC 255) s)
  st pgPwr Fld.PWR_STAT_THERM_ACT (b2n (decide (100 ≤ tempC))) (st pgPwr Fld.PWR_PEAK (max w (rg s pgPwr Fld.PWR_PEAK)) s)

/-- The end of a 10 µs interval (R399, R400): the mean of the interval, the mean of the last 1 ms, the hottest sensor. -/
def limiterGo (meanW msMeanW tempC : Nat) (s : State) : State :=
  let s := measured msMeanW tempC s
  let therm := decide (100 ≤ tempC)
  let cap := min (rg s pgPwr Fld.PWR_POL) 2000
  if arraysStopped s ∨ !(therm || decide (cap < meanW)) then s
  else downStep (therm || decide (2000 < meanW)) therm s

/-- An array moves up one point when a step is undone: not above CEIL, and an array that R397 has sent to FLOOR stays there. -/
def pointUp (n : Nat) (s : State) : State :=
  let p := pointOf s n
  let idle := (arr s n).run.isNone && rg s (pgClk (arrOwner s n)) Fld.CLK_POL_EFF_EN == 1
  if p ≤ ceilOf s n ∨ (idle ∧ p = floorOf s n) then s else st pgClkDev (fldPoint n) (p - 1) s

/-- The most recent down-step is undone (R399); none while a thermal fault holds the arrays stopped (R400). -/
def undoStep (s : State) : State :=
  if arraysStopped s then s else
  match s.pwr.steps with
  | [] => s
  | d :: rest =>
    let s := inc pgPwr Fld.PWR_STEPS_UP 1 { s with pwr := { s.pwr with steps := rest } }
    match d with
    | .points l => l.foldl (fun s n => pointUp n s) s
    | .duty => st pgClkDev Fld.CLK_DUTY (min 8 (rg s pgClkDev Fld.CLK_DUTY + 1)) s

/-- A thermal fault (R400): possible only with every array at 0.9 GHz and duty one eighth. -/
def thermalStop (s : State) : State :=
  if arraysStopped s ∨ rg s pgClkDev Fld.CLK_DUTY ≠ 1 ∨ !((List.range 160).all fun n => pointOf s n == 3) then s else
  let s := st pgPwr Fld.PWR_STAT_FAULT_THERM 1 (st pgPwr Fld.PWR_STAT_THERM_ACT 1 (st pgClkDev Fld.CLK_DUTY 0 s))
  raiseDur pgPwr 0x0D 4 3 (moduleFail 10 pgPwr 0x70 0 none s)

/-- The thermal fault ends (R400): the arrays resume at 0.9 GHz and duty one eighth. -/
def thermalResume (s : State) : State :=
  wh (arraysStopped s) (fun s =>
    st pgPwr Fld.PWR_STAT_FAULT_THERM 0 (st pgPwr Fld.PWR_STAT_THERM_ACT 0 (st pgClkDev Fld.CLK_DUTY 1 s))) s

/-- The idle step of adaptive clocking (R397). -/
def idleStep (n : Nat) (s : State) : State :=
  if 160 ≤ n ∨ (arr s n).run.isSome ∨ rg s (pgClk (arrOwner s n)) Fld.CLK_POL_EFF_EN = 0 then s
  else st pgClkDev (fldPoint n) (max (pointOf s n) (floorOf s n)) s

/-! ### Power failure and reset (R20, R402, R403) -/

/-- A power failure is recognised (R402): only the flush goes on. -/
def powerDown (s : State) : State :=
  powerFailFlush { s with pwr := { s.pwr with mode := .failing, pwrFailN := false } }

/-- The flash keeps the header of a frame that was being written (log entry 29). -/
def frameLeft (s : State) : State :=
  match s.evr.writing with
  | some j => flashPut (frameAddr j.frame) j.header s
  | none => s

/-- Nothing is kept but the flash, whose manufacturing region holds the record and the count of boots (Table 1.3, log entry 3), the
fuses and the seal; the free values, the count of entropy inputs and the waiting commands are the model's own. -/
def cleared (s : State) : State :=
  { State.reset with
    pwr := { State.reset.pwr with
      counter := s.pwr.counter
      pwrFailN := s.pwr.pwrFailN
      fuses := s.pwr.fuses
      known := s.pwr.known }
    sec := { State.reset.sec with
      sealOpen := s.sec.sealOpen
      draws := s.sec.draws }
    flash := s.flash
    freeCtr := s.freeCtr
    pending := s.pending }

/-- MOD_RESET_N falls (R20, R403). -/
def resetAssert (s : State) : State := cleared (frameLeft s)

/-! ### Commands of the boot sequencer (R409) -/

/-- BOOT_STAGE. -/
def stageAddr (s : State) : Nat := rg s pgBoot Fld.BOOT_STAGE_HI * 2 ^ 32 + rg s pgBoot Fld.BOOT_STAGE_LO * 32

/-- The result of a boot command. -/
def bootResult (code : Nat) (s : State) : State :=
  st pgBoot Fld.BOOT_CMD_STAT_CODE code (st pgBoot Fld.BOOT_CMD_STAT_BUSY 0 s)

/-- The stage at `a` lies where R409 wants it: its image and its receipt. -/
def stageOk (s : State) (a len : Nat) : Bool :=
  if bootDone s then ownsRange s 0 a (min len 0x1000000) && ownsRange s 0 (a + 0x1000000) 208
  else a == 0x80000000000

/-- A channel or a way holds the stage. -/
def stageHeld (s : State) (a len : Nat) : Bool :=
  bootDone s && (heldRange s a (min len 0x1000000) || heldRange s (a + 0x1000000) 208)

/-- An image's FORMAT and length are those of R404, CAPACITY apart. -/
def imageForm (img : List Byte) (len : Nat) : Bool :=
  bF img 0 2 == 1 && bF img 4 4 == len && decide (352 ≤ len) && (len - 352) % 16 == 0

/-- The image is authentic (R404): PUB hashes to the fused value, and SIG verifies under PUB. -/
def imageAuth (s : State) (img : List Byte) : Bool :=
  s.pwr.fuses.keyFused && sha384 (part 8 97 img) == s.pwr.fuses.keyHash &&
    ecVerify (part 8 97 img) (img.take (img.length - 96)) (img.drop (img.length - 96))

/-- The receipt of R409, up to its signature. -/
def receiptHead (s : State) (slot : Nat) (img : List Byte) : List Byte :=
  sha384 img ++ toLE 1 slot ++ toLE 3 0 ++ toLE 4 s.pwr.epoch ++ List.replicate 56 0

/-- The receipt is written 16 MiB above the stage, and ends the command (R409). -/
def writeReceipt (a slot : Nat) (img : List Byte) (s : State) : State :=
  let h := receiptHead s slot img
  let r := signBy (idkKey s) (ascii "OSK-RECOV-1" ++ h) s
  let y := if bootDone s then memWrite .beside 0 0 (a + 0x1000000) (h ++ r.1) r.2 else (poke (a + 0x1000000) (h ++ r.1) r.2, none)
  bootResult (y.2.getD 0) y.1

/-- The flash address of an image slot (Table 1.3). -/
def slotAddr (slot : Nat) : Nat := slot * 0x1000000

/-- The image that has passed its checks is installed, or staged for the next attempt. -/
def bootInstall (op : Nat) (flashOk : Bool) (a : Nat) (img : List Byte) (s : State) : State :=
  if op = 3 then writeReceipt a 2 img { s with pwr := { s.pwr with staged := some img } }
  else if !flashOk then
    bootResult 0x70 (tickFree (flashPut (slotAddr (op - 1)) (freeBytes s.freeCtr (slotAddr (op - 1)) img.length) s))
  else writeReceipt a (op - 1) img (flashPut (slotAddr (op - 1)) img s)

/-- An operation of BOOT_CMD on a stage (R409): `flashOk` says that flash holds what was written. -/
def bootDo (op : Nat) (flashOk : Bool) (a len : Nat) (s : State) : State :=
  if !stageOk s a len then bootResult 0x20 s
  else if op = 3 ∧ bootDone s then bootResult 0x13 s
  else if stageHeld s a len then
    st pgBoot Fld.BOOT_CMD_STAT_BUSY 1 { s with pwr := { s.pwr with parked := some (op, flashOk, a, len) } }
  else
    let r := if bootDone s then memRead .beside 0 a (min len 0x1000000) s else (s, none)
    let img := rdBytes s a len
    match r.2 with
    | some c => bootResult c r.1
    | none =>
      let s := r.1
      if !imageForm img len then bootResult 0x13 s
      else if 0x1000000 < len then bootResult 0x11 s
      else if !imageAuth s img || decide (bF img 2 2 < s.pwr.fuses.minVersion) then bootResult 0x23 s
      else bootInstall op flashOk a img s

/-- A write of BOOT_CMD; while a command waits it is ignored (R175, R409). -/
def bootCommand (op : Nat) (flashOk : Bool) (s : State) : State :=
  if rg s pgBoot Fld.BOOT_CMD_STAT_BUSY = 1 then st pgBoot Fld.BOOT_CMD_STAT_IGNORED 1 s
  else if op = 0 ∨ 4 ≤ op then bootResult 0x13 s
  else bootDo op flashOk (stageAddr s) (rg s pgBoot Fld.BOOT_STAGE_LEN) s

/-- A boot command that waited for memory is taken up again. -/
def bootRetry (s : State) : State :=
  match s.pwr.parked with
  | some (op, ok, a, len) => bootDo op ok a len { s with pwr := { s.pwr with parked := none } }
  | none => s

/-! ### Commands -/

/-- POWER_FAIL (R402). -/
def execPowerFail (s : State) : Host.Outcome State Fault Refusal := .next (wh (on s) powerDown s)

/-- MOD_RESET_ASSERT (R20). -/
def execModResetAssert (s : State) : Host.Outcome State Fault Refusal := .next (resetAssert s)

/-- LIMITER_INTERVAL (R399). -/
def execLimiterInterval (meanW msMeanW tempC : Nat) (s : State) : Host.Outcome State Fault Refusal :=
  .next (wh (on s) (limiterGo meanW msMeanW tempC) s)

/-- LIMITER_UNDO (R399). -/
def execLimiterUndo (s : State) : Host.Outcome State Fault Refusal := .next (wh (on s) undoStep s)

/-- THERMAL_FAULT (R400). -/
def execThermalFault (s : State) : Host.Outcome State Fault Refusal := .next (wh (on s) thermalStop s)

/-- THERMAL_FAULT_CLEAR (R400). -/
def execThermalFaultClear (s : State) : Host.Outcome State Fault Refusal := .next (wh (on s) thermalResume s)

/-- VOLTAGE_GUARD_STRETCH (R401). -/
def execVoltageGuardStretch (island : Nat) (s : State) : Host.Outcome State Fault Refusal :=
  .next (wh (on s && decide (island < 242)) (fun s => raiseDur pgPwr 0x0D 3 0 (inc pgPwr Fld.PWR_GUARD 1 s)) s)

/-- ADAPTIVE_IDLE_STEP (R397). -/
def execAdaptiveIdleStep (arr : Nat) (s : State) : Host.Outcome State Fault Refusal := .next (wh (on s) (idleStep arr) s)

/-- INSTALL_A (R409). -/
def execInstallA (part : Nat) (flashOk : Bool) (s : State) : Host.Outcome State Fault Refusal :=
  .next (wh (on s) (onZero part (bootCommand 1 flashOk)) s)

/-- INSTALL_B (R409). -/
def execInstallB (part : Nat) (flashOk : Bool) (s : State) : Host.Outcome State Fault Refusal :=
  .next (wh (on s) (onZero part (bootCommand 2 flashOk)) s)

/-- BOOT_STAGED (R409). -/
def execBootStaged (part : Nat) (s : State) : Host.Outcome State Fault Refusal :=
  .next (wh (on s) (onZero part (bootCommand 3 true)) s)

end Sys2Proof.Machine
end

