-- ==== Sys2Proof/Machine/Bus.lean ====
section
/-!
DEFINITION. The register bus: what a page reads as, writes under the access codes, commits, page resets, and accesses to the token
window (R6 to R9, R48, R332, R403, R436 to R445).
-/
namespace Sys2Proof.Machine

/-! ### Ownership (R344, R437, R444) -/

/-- The partition that owns a page (Table 19.4). -/
def pageOwner (s : State) (pg : Page) : Nat :=
  match pageKind pg with
  | some .dsp => pg.inst
  | some .kvs => pg.inst
  | some .scn => pg.inst
  | some .col => pg.inst
  | some .sec => pg.inst
  | some .arr => arrOwner s pg.inst
  | _ => 0

/-- Partition `part` may read the page: its owner, and partition p its own PRT and CLK pages (R344). -/
def mayRead (s : State) (part : Nat) (pg : Page) : Bool :=
  part == pageOwner s pg || ((pageKind pg == some .prt || pageKind pg == some .clk) && part == pg.inst)

/-! ### Reads -/

/-- A word from fields. -/
def word (l : List (Fld × Nat)) : Nat := l.foldl (fun a x => a + (x.2 % 2 ^ (x.1.hi + 1 - x.1.lo)) * 2 ^ x.1.lo) 0

/-- A word from bits. -/
def maskOf (n : Nat) (f : Nat → Bool) : Nat := (List.range n).foldl (fun a i => a + b2n (f i) * 2 ^ i) 0

/-- PAGE_CAPS (Table 19.2). -/
def pageCaps (pg : Page) : Nat :=
  let k := pageKind pg
  let staged := (pageFields pg).any fun d => d.acc == .rws
  let cmd := [some PageKind.kvs, some .scn, some .col, some .sec, some .secDev, some .prt, some .prtDev, some .evr, some .boot].contains k
  let cnt := k == some .arr || k == some .stk
  let note := k == some .dsp || k == some .memPart || k == some .prt
  b2n staged + 2 * b2n cmd + 4 * b2n cnt + 8 * b2n (k != some .arr) + 16 * b2n note

/-- The run on an array can go on in the next cycle (R67): the chunks of its tile are readable, its starting block is in the latches, and
the cells may swap. -/
def runGoes (s : State) (n : Nat) (r : ArrRun) : Bool :=
  let a := arr s n
  match tileFlight s r.fid, r.items with
  | some (f, w), it :: _ =>
    let j := jobOf f
    (((itemChunks w.plan r true it r.kDone).take 1 ++ (itemChunks w.plan r false it r.kDone).take 1).all fun c => holds j w.plan a c) &&
      (r.started || ((!(jPreload j && it.l == 0) || a.latch.isSome) && !(a.active.isSome && a.shadow.isSome)))
  | _, [] => a.shadow.isNone
  | _, _ => true

/-- ACTIVITY of an array (Table 3.10): between two commands a run is STALLED while a starting block stands in the latches of a tile not
yet begun, and FROZEN while it cannot go on (R67, R68; log entry 128). -/
def arrActivity (s : State) (n : Nat) : Nat :=
  let a := arr s n
  match a.run with
  | some r => if !r.started && !r.items.isEmpty && a.latch.isSome then 3 else if runGoes s n r then 1 else 2
  | none => if a.shadow.isSome ∨ !a.staging.isEmpty ∨ a.active.isSome then 4 else 0

/-- A descriptor of a queue is at a station. -/
def atStation (s : State) (st : Station) (q : Nat) : Bool := s.flights.any fun f => f.station == st && f.q == q

/-- The unit of a page has work in progress for its owner (R440; DEDUCED which work counts). -/
def pageActive (s : State) (pg : Page) : Bool :=
  let i := pg.inst
  match pageKind pg with
  | some .dsp => 2 ≤ qState s i
  | some .tpl => plannerBusy s i
  | some .tok => s.flights.any fun f => f.station == .tok
  | some .prt => rg s pg Fld.PRT_CMD_STAT_BUSY == 1
  | some .prtDev => rg s pg Fld.PRT_EXT_STAT_BUSY == 1
  | some .arr => arrActivity s i != 0
  | some .yrd => !s.yard.zeroising.isEmpty || s.flights.any fun f => f.station == .yrd
  | some .stk => !(tabGet stkDefault s.stks i).active.isEmpty || !(tabGet stkDefault s.stks i).waiting.isEmpty
  | some .memLease => s.flights.any fun f => f.station == .mem
  | some .memPart => atStation s .mem (i - 16)
  | some .kvs => rg s pg Fld.KVS_CMD_STAT_BUSY == 1 || atStation s .kvs i
  | some .scn => rg s pg Fld.SCN_CMD_STAT_BUSY == 1 || atStation s .scn i
  | some .col => rg s pg Fld.COL_CMD_STAT_BUSY == 1 || atStation s .col i
  | some .colDev => !s.col.ctxs.isEmpty || !s.col.waiting.isEmpty
  | some .sec => rg s pg Fld.SEC_CMD_STAT_BUSY == 1 || (secOf s i).sweeping
  | some .secDev => rg s pg Fld.SEC_DEV_CMD_STAT_BUSY == 1
  | some .mce => (List.range 16).any fun p => (secOf s p).sweep.any fun x => x.1 == i
  | some .fab => (portOf s i).state != .down
  | some .hifCh =>
    (match sessOf s (i - 16) with
    | some x => !x.todo.isEmpty || !(movesOf s (i - 16)).isEmpty
    | none => false)
  | some .evr => s.evr.writing.isSome || rg s pg Fld.EVR_CMD_STAT_BUSY == 1
  | some .boot => !bootDone s
  | _ => false

/-- The unit of a page is failed or fenced (R440). -/
def pageFault (s : State) (pg : Page) : Bool :=
  let i := pg.inst
  match pageKind pg with
  | some .arr => fenced s i
  | some .memStack => unitGone s false i
  | some .stk => unitGone s false i
  | some .lpd => unitGone s true i
  | some .fab => (portOf s i).serdesFail
  | some .hifPort => bit i s.pwr.hostFail
  | some .sec => s.sec.failed
  | some .secDev => s.sec.failed
  | _ => false

/-- The partition that a page describes, when it is one of Table 19.4's pages of a partition. -/
def pagePart (pg : Page) : Option Nat :=
  match pageKind pg with
  | some .dsp => some pg.inst
  | some .prt => some pg.inst
  | some .memPart => some (pg.inst - 16)
  | some .kvs => some pg.inst
  | some .scn => some pg.inst
  | some .col => some pg.inst
  | some .sec => some pg.inst
  | some .clk => some pg.inst
  | _ => none

/-- PAGE_STATUS.STATE (R440). -/
def pageState (s : State) (pg : Page) : Nat :=
  let off := (pageKind pg == some .fab && rg s pg Fld.PAGE_CTRL_ENABLE == 0) ||
    (match pagePart pg with
    | some p => !partExists s p
    | none => false)
  if pageFault s pg then 5
  else if off then 0
  else if pageKind pg == some .dsp && qState s pg.inst == 4 then 4
  else if pageKind pg == some .fab && rg s pg Fld.PAGE_CTRL_QUIESCE == 1 && (portOf s pg.inst).cur.any Option.isSome then 3
  else if pageActive s pg then 2 else 1

/-- The registers that every page holds, where they are not stored (Tables 19.1 to 19.3). -/
def commonNow (s : State) (pg : Page) (off : Nat) : Option Nat :=
  match off with
  | 0x000 => some (blockCode pg.blk * 2 ^ 24 + pg.inst * 2 ^ 16 + 1)
  | 0x004 => some (pageCaps pg)
  | 0x008 => some (if pageKind pg == some .fab then rg s pg Fld.PAGE_CTRL_ENABLE + 2 * rg s pg Fld.PAGE_CTRL_QUIESCE else 1)
  | 0x00C => some (pageState s pg)
  | 0x01C => some (pageOwner s pg)
  | 0x020 => some 0
  | _ => none

/-- The state of the extent that PRT_EXT_QUERY names (Table 15.14). -/
def extQuery (s : State) (e : Nat) : Nat :=
  let k : Nat × Nat :=
    if !isExtent e then (6, 0) else
    match tabGet extDefault s.exts e with
    | .unassigned => (0, 0)
    | .assigned p => (1, p)
    | .lendable => (2, 0)
    | .lent => (3, 0)
    | .failed => (4, 0)
    | .zeroing p => (5, p)
  k.1 * 2 ^ 20 + k.2 * 2 ^ 16 + e

/-- How many extents are in a state. -/
def extCount (s : State) (x : Ext) : Nat := (s.exts.filter fun e => e.2 == x).length

/-- Lease slots that are not FREE, of one partition or of all (Tables 10.14, 10.17). -/
def slotsHeld (s : State) (p : Option Nat) : Nat :=
  ((s.leases.filter fun l => match p with
    | some q => l.part == q
    | none => true).map Lease.count).sum

/-- The code of a port's state (Table 13.5). -/
def portCode : PortState → Nat
  | .down => 0
  | .pmdTrain => 1
  | .pcsLock => 2
  | .flitAlign => 3
  | .auth => 4
  | .up => 5
  | .backoff => 6

/-- The channels of a unit held for retraining. -/
def heldMask (s : State) (lpddr : Bool) (u n : Nat) : Nat := maskOf n fun c => s.retrain.held.contains ⟨lpddr, u, c⟩

/-- Bits of a word that are set. -/
def ones (n w : Nat) : Nat := countBelow n fun i => bit i w

/-- The bytes of the record slot that EVR_SEL selects, as a word (Table 18.10). -/
def evrRec (s : State) (m : Nat) : Nat :=
  ofLE (((slotBytes s.evr.genBase (slotAt s.evr (rg s pgEvr Fld.EVR_SEL))).drop (4 * m)).take 4)

/-- A register whose value has another home in the state. -/
def homeNow (s : State) (pg : Page) (off : Nat) : Option Nat :=
  let i := pg.inst
  match pageKind pg, off with
  | some .hifCh, 0x138 => some (((sessOf s (i - 16)).map Session.sid).getD 0)
  | some .hifCh, 0x13C => some (if (sessOf s (i - 16)).isSome then 2 else b2n (s.hif.pending.any fun h => h.chan == i - 16))
  | some .dsp, 0x120 => some (word [(Fld.DSP_Q_STAT_HOLD_CODE, rg s pg Fld.DSP_Q_STAT_HOLD_CODE), (Fld.DSP_Q_STAT_QSTATE, qState s i)])
  | some .dsp, 0x128 => some (inflightOf s i)
  | some .tpl, 0x100 =>
    some (word [(Fld.TPL_STATE_QUEUE, rg s pg Fld.TPL_STATE_QUEUE), (Fld.TPL_STATE_BUSY, b2n (plannerBusy s i))])
  | some .prt, 0x108 =>
    some (word [(Fld.PRT_STAT_G, grantCount s i), (Fld.PRT_STAT_LEAVING, (prt s i).leaving.length),
      (Fld.PRT_STAT_STATE, stateCode (partState s i))])
  | some .prtDev, 0x10C => some (extQuery s (rg s pg Fld.PRT_EXT_QUERY_EXTENT))
  | some .prtDev, 0x110 => some (maskOf 16 fun p => partExists s p)
  | some .arr, 0x100 =>
    some (word [(Fld.ARR_STATE_STAGING_FREE, stagingFree s i), (Fld.ARR_STATE_ACTIVITY, arrActivity s i)])
  | some .yrd, 0x110 => some (maskOf 16 fun k => s.yard.zeroising.contains k)
  | some .memStack, 0x100 =>
    let f := rg s pg Fld.MEM_PC_FAIL_LO + 2 ^ 32 * rg s pg Fld.MEM_PC_FAIL_HI
    some (word [(Fld.MEM_STACK_STAT_HELD_PC, ones 64 (heldMask s false i 64)), (Fld.MEM_STACK_STAT_FAILED_PC, ones 64 f),
      (Fld.MEM_STACK_STAT_FAILED, rg s pg Fld.MEM_STACK_STAT_FAILED), (Fld.MEM_STACK_STAT_TRAINED, rg s pg Fld.MEM_STACK_STAT_TRAINED)])
  | some .memStack, 0x104 => some (heldMask s false i 64 % 2 ^ 32)
  | some .memStack, 0x108 => some (heldMask s false i 64 / 2 ^ 32)
  | some .memLease, 0x104 => some (extCount s .lent * 2 ^ 16 + extCount s .lendable)
  | some .memLease, 0x108 => some (slotsHeld s none)
  | some .memPart, 0x134 => some (slotsHeld s (some (i - 16)))
  | some .stk, 0x100 =>
    let e := tabGet stkDefault s.stks i
    some (word [(Fld.STK_STATE_COPYBACK, copyBacks s i), (Fld.STK_STATE_WAITING, min 255 e.waiting.length), (Fld.STK_STATE_ACTIVE, e.active.length)])
  | some .lpd, 0x100 =>
    some (word [(Fld.LPD_STAT_HELD, heldMask s true i 4), (Fld.LPD_STAT_FAILED_CH, rg s pg Fld.LPD_STAT_FAILED_CH),
      (Fld.LPD_STAT_FAILED, rg s pg Fld.LPD_STAT_FAILED), (Fld.LPD_STAT_TRAINED, rg s pg Fld.LPD_STAT_TRAINED)])
  | some .mce, 0x100 => some (4 * b2n (decide (8 ≤ i)) + 2 * b2n s.sec.debugOpen + b2n (!s.sec.debugOpen))
  | some .kvs, 0x124 => some (kv s i).free.length
  | some .kvs, 0x12C => some (kv s i).pool.length
  | some .scn, 0x120 => some (sc s i).slots.length
  | some .scn, 0x124 => some (scRefd s i)
  | some .fab, 0x100 =>
    let x := portOf s i
    let k := (partnerNow x).getD (0, 0)
    some (word [(Fld.FAB_LINK_STAT_PARTNER_ID, k.2), (Fld.FAB_LINK_STAT_AUTHED, b2n x.authed), (Fld.FAB_LINK_STAT_KIND, k.1),
      (Fld.FAB_LINK_STAT_STATE, portCode x.state)])
  | some .fab, 0x104 =>
    some (match (portOf s i).partner with
      | some t => word [(Fld.FAB_PARTNER_CTX, t.ctx), (Fld.FAB_PARTNER_CAPS, t.caps), (Fld.FAB_PARTNER_SEGS, t.segs)]
      | none => 0)
  | some .col, 0x114 => some (colOpen s i)
  | some .colDev, 0x104 => some (min 127 s.col.waiting.length * 2 ^ 16 + s.col.ctxs.length)
  | some .sec, 0x110 =>
    let c := secOf s i
    some (word [(Fld.SEC_EPOCH_SWEEPING, b2n c.sweeping), (Fld.SEC_EPOCH_OLD, c.old), (Fld.SEC_EPOCH_CUR, c.cur)])
  | some .sec, 0x118 => some (sweepLeft (secOf s i))
  | some .sec, 0x11C => some (maskOf 8 fun k => (((secOf s i).slots.getD k ⟨0, keyZero, 0⟩).keyid != 0))
  | some .sec, 0x120 => some (secOf s i).meas.length
  | some .secDev, 0x100 =>
    some (8 * b2n s.sec.sealOpen + 4 * b2n s.pwr.fuses.production + 2 * b2n (!s.sec.chain.isEmpty) + b2n s.sec.debugOpen)
  | some .evr, 0x154 => some (liveRecords s.evr)
  | some .evr, 0x168 =>
    some (s.evr.head + min 31 (erasedAhead s.evr) * 2 ^ 8 + b2n s.evr.erasing.isSome * 2 ^ 14 + b2n s.evr.writing.isSome * 2 ^ 15 +
      s.evr.written * 2 ^ 16)
  | some .evr, 0x170 => some s.evr.fseq
  | some .pwr, 0x100 =>
    some (word [(Fld.PWR_STAT_INPUT_W, rg s pg Fld.PWR_STAT_INPUT_W), (Fld.PWR_STAT_TJ_MAX, rg s pg Fld.PWR_STAT_TJ_MAX),
      (Fld.PWR_STAT_FAULT_THERM, rg s pg Fld.PWR_STAT_FAULT_THERM), (Fld.PWR_STAT_THERM_ACT, rg s pg Fld.PWR_STAT_THERM_ACT),
      (Fld.PWR_STAT_POWER_ACT, b2n (!s.pwr.steps.isEmpty))])
  | _, _ => none

/-- PRT_ARR of partition 0 shows the arrays granted to no partition; EVR_REC shows the selected record. -/
def runNow (s : State) (pg : Page) (off : Nat) : Option Nat :=
  if pg = pgPrt 0 ∧ 0x10C ≤ off ∧ off < 0x120 ∧ off % 4 = 0 then
    some (maskOf 32 fun i => granted s 0 ((off - 0x10C) * 8 + i) && decide ((off - 0x10C) * 8 + i < 160))
  else if pageKind pg = some .evr ∧ 0x114 ≤ off ∧ off < 0x154 ∧ off % 4 = 0 then some (evrRec s ((off - 0x114) / 4))
  else none

/-- What a register reads as (R6, R437): write-only and undefined bits are zero. -/
def regNow (s : State) (pg : Page) (off : Nat) : Nat :=
  ((commonNow s pg off).or ((homeNow s pg off).or (runNow s pg off))).getD (regWord s pg off)

/-! ### What follows a change of active fields -/

/-- The fields of a page, among some, whose active value differs. -/
def changedOf (old new : State) (pg : Page) (l : List Fld) : Bool := l.any fun f => rg old pg f != rg new pg f

/-- An array stands inside FLOOR and CEIL again (R397): at CEIL while a run is on it, else clamped; the limiter's steps stay. -/
def refit (n : Nat) (s : State) : State :=
  if (arr s n).run.isSome then raisePoint n s
  else
    let pg := pgClk (arrOwner s n)
    let ceil := rg s pg Fld.CLK_POL_CEIL
    let pt := rg s pgClkDev (fldPoint n)
    st pgClkDev (fldPoint n) (if limitOf s n = 0 then min (max ceil pt) (max ceil (rg s pg Fld.CLK_POL_FLOOR)) else max ceil pt) s

/-- Every array of a partition stands inside its bounds. -/
def refitAll (p : Nat) (s : State) : State := (List.range 160).foldl (fun s n => wh (arrOwner s n == p) (refit n) s) s

/-- An array is granted: its counters are cleared (R79, R351). -/
def grantArray (n : Nat) (s : State) : State :=
  refit n ((List.range 18).foldl (fun s i => st (pgArr n) (fldAt Fld.ARR_RUN_CYC i) 0 s) (arrClearCnt n s))

/-- The arrays of partition `p` after a change of PRT_ARR (R350 to R352). -/
def arraysChanged (old : State) (p : Nat) (s : State) : State :=
  (List.range 160).foldl (fun s n =>
    let was := rg old (pgPrt p) (arrBit Fld.PRT_ARR n)
    let now := rg s (pgPrt p) (arrBit Fld.PRT_ARR n)
    if was = now then s
    else if now = 1 then
      (if leaving s p n then setPart p { prt s p with leaving := (prt s p).leaving.filter fun m => m != n } s else grantArray n s)
    else if arrEmpty (arr s n) then refit n s
    else setPart p { prt s p with leaving := (prt s p).leaving ++ [n] } s) s

/-- The tokens of partition `p` after a change of PRT_TOK (R353). -/
def tokensChanged (old : State) (p : Nat) (s : State) : State :=
  let f := rg old (pgPrt p) Fld.PRT_TOK_FIRST
  let n := rg old (pgPrt p) Fld.PRT_TOK_COUNT
  let f' := rg s (pgPrt p) Fld.PRT_TOK_FIRST
  let n' := rg s (pgPrt p) Fld.PRT_TOK_COUNT
  let s := ((List.range n).map fun i => f + i).foldl (fun s t => if f' ≤ t ∧ t < f' + n' then s else passToken t 0 s) s
  ((List.range n').map fun i => f' + i).foldl (fun s t => if f ≤ t ∧ t < f + n then s else passToken t p s) s

/-- The ways after a change of YRD_WAYS (R228): `s` holds the new fields, `old` the ones before. -/
def waysChanged (old : State) (s : State) : State :=
  let now := s
  (List.range 16).foldl (fun s k =>
    let m := rg now pgYrd (fldWayMode k)
    let o := rg now pgYrd (fldWayOwner k)
    let om := rg old pgYrd (fldWayMode k)
    let oo := rg old pgYrd (fldWayOwner k)
    if om = m ∧ (m = 0 ∨ oo = o) then s
    else clearWay k om m s) s

/-- A target of a partition is regulated. -/
def regulated (s : State) (p : Nat) : Bool := (List.range 11).any fun t => rg s (pgMemP p) (fldAt Fld.MEM_REG_RATE t) != 256

/-- The requests that a regulator has held since MEM_REG_WAIT was last brought up to date: a free number, none while every target is
unregulated (R229, R247; log entry 105). -/
def regWait (p : Nat) (s : State) : State :=
  if regulated s p then tickFree (inc (pgMemP p) Fld.MEM_REG_WAIT (Config.freeInterval s.freeCtr).toNat s) else s

/-- A fabric port is enabled or disabled (R292, R439); a lease to whose lender no route is left is LOST (R236). -/
def portEnable (p : Nat) (en : Bool) (s : State) : State := wh (!en) routesLost (fabEnable p en s)

/-- The fields whose change ends a channel's session (R331). -/
def sessFields : List Fld :=
  [Fld.HIF_CH_CFG_PART, Fld.HIF_CH_CFG_ENABLE] ++ (List.range 12).map fun m => fldAt Fld.HIF_CH_KEYDIG m

/-- What the unit of a page does when its active fields have changed, by a commit or by a reset. -/
def pageChanged (old : State) (pg : Page) (s : State) : State :=
  let i := pg.inst
  match pageKind pg with
  | some .hifCh => wh (changedOf old s pg sessFields) (endSession (i - 16) true) s
  | some .dsp =>
    let s := wh (changedOf old s pg [Fld.DSP_Q_BASE_LO, Fld.DSP_Q_BASE_HI, Fld.DSP_Q_SIZE]) (fun s =>
      let s := askEnd i s
      setQu i { qu s i with entry := none, desc := none }
        (st pg Fld.DSP_Q_HEAD_HEAD_ENTRY 0 (st pg Fld.DSP_Q_HEAD_HEAD_DESC 0 (st pg Fld.DSP_Q_TAIL 0 s)))) s
    wh (changedOf old s pg [Fld.DSP_Q_NUM_RLOG_LOG2, Fld.DSP_Q_RLOG_LO, Fld.DSP_Q_RLOG_HI]) (st pg Fld.DSP_Q_RLOG_WR 0) s
  | some .prt => tokensChanged old i (arraysChanged old i s)
  | some .yrd => waysChanged old s
  | some .kvs =>
    let geom := [Fld.KVS_GEOM_LOG2_FRAMES, Fld.KVS_GEOM_DH_CODE]
    let s := wh (changedOf old s pg (geom ++ [Fld.KVS_AREA_LO, Fld.KVS_AREA_HI]))
      (fun s => st pg Fld.KVS_FRAMES 0 (setKv i { kv s i with free := [] } s)) s
    wh (changedOf old s pg (Fld.KVS_GEOM_LOG2_STREAMS :: geom)) (fun s => { s with lab := s.lab.filter fun e => e.1 != i }) s
  | some .colDev =>
    wh (changedOf old s pg [Fld.COL_DEV_ID, Fld.COL_DEV_ID_VALID]) (fun s => (List.range 16).foldl (fun s p => retrainPort p s) s) s
  | some .clk => refitAll i s
  | some .fab => wh (changedOf old s pg [Fld.PAGE_CTRL_ENABLE]) (portEnable i (rg s pg Fld.PAGE_CTRL_ENABLE == 1)) s
  | _ => s

/-! ### Commits (R7, R443) -/

/-- The RWS fields of a page that a master may stage; partition 0's PRT page has none (R364), nor has channel 0 its digest
(Table 14.8). -/
def stagedFields (pg : Page) : List Fld :=
  if pg = pgPrt 0 then [] else
  ((pageFields pg).filter fun d => d.acc == .rws && !(pg == pgCh 0 && decide (0x104 ≤ d.fld.off ∧ d.fld.off ≤ 0x130))).map FieldDef.fld

/-- A field is staged with a changed value. -/
def stagedNew (s : State) (pg : Page) (f : Fld) : Bool := stg s pg f != rg s pg f

/-- The fields of a rule, when the rule is broken. -/
def refuse (c : Bool) (l : List Fld) : List Fld := if c then l else []

/-- The fields of a rule on several fields that it refuses: those of them that are staged anew, or all where none is (R443). -/
def among (s : State) (pg : Page) (l : List Fld) : List Fld :=
  let c := l.filter (stagedNew s pg)
  if c.isEmpty then l else c

/-- Two ranges of numbers overlap. -/
def overlaps (f n g m : Nat) : Bool := decide (0 < n ∧ 0 < m ∧ f < g + m ∧ g < f + n)

/-- The rules of a DSP page (R57, R116). -/
def badDsp (s : State) (q : Nat) : List Fld :=
  let pg := pgDsp q
  let v (f : Fld) : Nat := stg s pg f
  let ring := [Fld.DSP_Q_BASE_LO, Fld.DSP_Q_BASE_HI, Fld.DSP_Q_SIZE].filter (stagedNew s pg)
  let log := [Fld.DSP_Q_NUM_RLOG_LOG2, Fld.DSP_Q_RLOG_LO, Fld.DSP_Q_RLOG_HI].filter (stagedNew s pg)
  let n := v Fld.DSP_Q_SIZE
  let r := v Fld.DSP_Q_NUM_RLOG_LOG2
  let pending := qHead s q != qTail s q || qDesc s q != 0
  refuse (n < 6 || 12 < n) [Fld.DSP_Q_SIZE] ++
  refuse (6 ≤ n && n ≤ 12 && !ownStruct s q (v Fld.DSP_Q_BASE_HI * 2 ^ 32 + v Fld.DSP_Q_BASE_LO * 4096) (16 * 2 ^ n))
    (among s pg [Fld.DSP_Q_BASE_LO, Fld.DSP_Q_BASE_HI, Fld.DSP_Q_SIZE]) ++
  refuse (qState s q != 0 || pending) ring ++
  refuse (v Fld.DSP_Q_NUM_SHADOW_THR == 0) [Fld.DSP_Q_NUM_SHADOW_THR] ++
  refuse (12 < r) [Fld.DSP_Q_NUM_RLOG_LOG2] ++
  refuse (0 < r && r ≤ 12 && !ownStruct s q (v Fld.DSP_Q_RLOG_HI * 2 ^ 32 + v Fld.DSP_Q_RLOG_LO * 16) (16 * 2 ^ r))
    (among s pg [Fld.DSP_Q_NUM_RLOG_LOG2, Fld.DSP_Q_RLOG_LO, Fld.DSP_Q_RLOG_HI]) ++
  refuse (qState s q != 0) log

/-- The rules of a PRT page (R350, R353, R359). -/
def badPrt (s : State) (p : Nat) : List Fld :=
  let pg := pgPrt p
  let v (f : Fld) : Nat := stg s pg f
  let may := partState s p == .active || partState s p == .suspended || partState s p == .resuming
  let other (n : Nat) : Bool := (arrOwner s n != p && arrOwner s n != 0) || fenced s n
  let new := (List.range 160).filter fun n => stagedNew s pg (arrBit Fld.PRT_ARR n)
  let arrs := if new.isEmpty then [] else if !may then new.map (arrBit Fld.PRT_ARR) else
    ((List.range 160).filter fun n => v (arrBit Fld.PRT_ARR n) == 1 && other n).map (arrBit Fld.PRT_ARR)
  let f := v Fld.PRT_TOK_FIRST
  let c := v Fld.PRT_TOK_COUNT
  let toks := stagedNew s pg Fld.PRT_TOK_FIRST || stagedNew s pg Fld.PRT_TOK_COUNT
  let clash := (List.range 16).any fun q =>
    q != p && q != 0 && overlaps f c (rg s (pgPrt q) Fld.PRT_TOK_FIRST) (rg s (pgPrt q) Fld.PRT_TOK_COUNT)
  let n := v Fld.PRT_SCR_LIVE
  let o := v Fld.PRT_SAVE
  let save := stagedNew s pg Fld.PRT_SCR_LIVE || stagedNew s pg Fld.PRT_SAVE
  let tiles := ceilDiv (ceilDiv (n * 4096) 32768) 8
  arrs ++
  refuse (toks && (decide (8192 < f + c) || clash)) (among s pg [Fld.PRT_TOK_FIRST, Fld.PRT_TOK_COUNT]) ++
  refuse (toks && (qState s p != 0 || inflightOf s p != 0)) (among s pg [Fld.PRT_TOK_FIRST, Fld.PRT_TOK_COUNT]) ++
  refuse (save && decide (384 * 2 ^ 20 < n * 4096)) [Fld.PRT_SCR_LIVE] ++
  refuse (save && !((List.range 8).all fun k => ownsRange s p (k * 2 ^ 36 + o * 32768) (tiles * 32768)))
    (among s pg [Fld.PRT_SCR_LIVE, Fld.PRT_SAVE])

/-- Way `k` holds part of the SCN resident area of a partition that has a stream open (R228). -/
def holdsResident (s : State) (q k : Nat) : Bool :=
  let x := residentArea s q
  rg s (pgScn q) Fld.SCN_OPEN != 0 && overlaps x.1 x.2 (2 ^ 43 + k * 0x1800000) 0x1800000

/-- The rules of the YRD page (R225, R228, R249). -/
def badYrd (s : State) : List Fld :=
  let m (k : Nat) : Nat := stg s pgYrd (fldWayMode k)
  let o (k : Nat) : Nat := stg s pgYrd (fldWayOwner k)
  (List.range 16).flatMap fun k =>
    let om := rg s pgYrd (fldWayMode k)
    let oo := rg s pgYrd (fldWayOwner k)
    let changed := !(om == m k && (om == 0 || oo == o k))
    let which := if om != m k then fldWayMode k else fldWayOwner k
    let busy := (om != 0 && inflightOf s oo != 0) || (m k != 0 && inflightOf s (o k) != 0)
    let split := m k == 2 && (List.range k).any (fun j => m j == 2 && o j == o k) && !(m (k - 1) == 2 && o (k - 1) == o k)
    refuse (m k == 3 || split) [fldWayMode k] ++
    refuse (m k != 0 && !partExists s (o k)) [fldWayOwner k] ++
    refuse (changed && busy) [which] ++
    refuse (changed && om == 2 && holdsResident s oo k) [which]

/-- The rules of the MEM page of partition `p` (R247). -/
def badMemPart (s : State) (p : Nat) : List Fld :=
  let pg := pgMemP p
  let f := stg s pg Fld.MEM_WIN_FIRST
  let c := stg s pg Fld.MEM_WIN_COUNT
  let clash := (List.range 16).any fun q =>
    q != p && overlaps f c (rg s (pgMemP q) Fld.MEM_WIN_FIRST) (rg s (pgMemP q) Fld.MEM_WIN_COUNT)
  let lost := s.leases.any fun l => l.part == p && !decide (f ≤ l.first ∧ l.first + l.count ≤ f + c)
  ((List.range 11).flatMap fun t =>
    refuse (256 < stg s pg (fldAt Fld.MEM_REG_RATE t)) [fldAt Fld.MEM_REG_RATE t] ++
    refuse (stg s pg (fldAt Fld.MEM_REG_DEPTH t) == 0) [fldAt Fld.MEM_REG_DEPTH t]) ++
  refuse (decide (4096 < f + c) || clash || lost) (among s pg [Fld.MEM_WIN_FIRST, Fld.MEM_WIN_COUNT])

/-- The rules of a KVS page (R177). -/
def badKvs (s : State) (p : Nat) : List Fld :=
  let pg := pgKvs p
  let v (f : Fld) : Nat := stg s pg f
  refuse (rg s pg Fld.KVS_OPEN != 0) ((stagedFields pg).filter (stagedNew s pg)) ++
  refuse (16 < v Fld.KVS_GEOM_LOG2_STREAMS) [Fld.KVS_GEOM_LOG2_STREAMS] ++
  refuse (v Fld.KVS_GEOM_LOG2_FRAMES < 10 || 22 < v Fld.KVS_GEOM_LOG2_FRAMES) [Fld.KVS_GEOM_LOG2_FRAMES] ++
  refuse (!ownStruct s p (v Fld.KVS_STAB_HI * 2 ^ 32 + v Fld.KVS_STAB_LO * 64) (64 * 2 ^ min 16 (v Fld.KVS_GEOM_LOG2_STREAMS)))
    (among s pg [Fld.KVS_STAB_LO, Fld.KVS_STAB_HI, Fld.KVS_GEOM_LOG2_STREAMS]) ++
  refuse (!ownStruct s p (v Fld.KVS_AREA_HI * 2 ^ 32 + v Fld.KVS_AREA_LO * 4096) (32 * 2 ^ min 22 (v Fld.KVS_GEOM_LOG2_FRAMES)))
    (among s pg [Fld.KVS_AREA_LO, Fld.KVS_AREA_HI, Fld.KVS_GEOM_LOG2_FRAMES])

/-- The rules of an SCN page (R201). -/
def badScn (s : State) (p : Nat) : List Fld :=
  let pg := pgScn p
  let v (f : Fld) : Nat := stg s pg f
  let sb := (v Fld.SCN_GEOM_HM1 + 1) * (16 * (v Fld.SCN_GEOM_N_CODE + 1)) * (16 * (v Fld.SCN_GEOM_P_CODE + 1)) * 4
  let rest := (((List.range 16).filter fun q => q != p && partExists s q).map fun q => rg s (pgScn q) Fld.SCN_SLOTS).sum
  let w := scratchOf s p
  let a := v Fld.SCN_AREA_HI * 2 ^ 32 + v Fld.SCN_AREA_LO * 4096
  let n := 2 * v Fld.SCN_SLOTS * sb
  let lo := 2 ^ 43 + w.1 * 0x1800000
  refuse (rg s pg Fld.SCN_OPEN != 0) ((stagedFields pg).filter (stagedNew s pg)) ++
  refuse (20 < v Fld.SCN_GEOM_LOG2_STREAMS) [Fld.SCN_GEOM_LOG2_STREAMS] ++
  refuse (!ownStruct s p (v Fld.SCN_STAB_HI * 2 ^ 32 + v Fld.SCN_STAB_LO * 32) (32 * 2 ^ min 20 (v Fld.SCN_GEOM_LOG2_STREAMS)))
    (among s pg [Fld.SCN_STAB_LO, Fld.SCN_STAB_HI, Fld.SCN_GEOM_LOG2_STREAMS]) ++
  refuse (n != 0 && !decide (lo ≤ a ∧ a + n ≤ lo + w.2 * 0x1800000))
    (among s pg [Fld.SCN_AREA_LO, Fld.SCN_AREA_HI, Fld.SCN_SLOTS, Fld.SCN_GEOM_HM1, Fld.SCN_GEOM_N_CODE, Fld.SCN_GEOM_P_CODE]) ++
  refuse (4096 < v Fld.SCN_SLOTS + rest) [Fld.SCN_SLOTS]

/-- The rules of a COL page (R317). -/
def badCol (s : State) (p : Nat) : List Fld :=
  let pg := pgCol p
  let v (f : Fld) : Nat := stg s pg f
  refuse (colOpen s p != 0) ((stagedFields pg).filter (stagedNew s pg)) ++
  refuse (12 < v Fld.COL_GEOM_LOG2_GROUPS) [Fld.COL_GEOM_LOG2_GROUPS] ++
  refuse (!ownStruct s p (v Fld.COL_GTAB_HI * 2 ^ 32 + v Fld.COL_GTAB_LO * 64) (64 * 2 ^ min 12 (v Fld.COL_GEOM_LOG2_GROUPS)))
    (among s pg [Fld.COL_GTAB_LO, Fld.COL_GTAB_HI, Fld.COL_GEOM_LOG2_GROUPS])

/-- The rules of a HIF channel page (R339). -/
def badChan (s : State) (c : Nat) : List Fld :=
  let pg := pgCh c
  let v (f : Fld) : Nat := stg s pg f
  refuse (v Fld.HIF_CH_CFG_ENABLE == 1 && !partExists s (v Fld.HIF_CH_CFG_PART)) [Fld.HIF_CH_CFG_PART] ++
  refuse (v Fld.HIF_CH_CFG_IDLE_S == 0) [Fld.HIF_CH_CFG_IDLE_S] ++
  refuse (v Fld.HIF_SESS_POL_RTO_US == 0) [Fld.HIF_SESS_POL_RTO_US] ++
  refuse (v Fld.HIF_SESS_POL_LOST_MS == 0) [Fld.HIF_SESS_POL_LOST_MS] ++
  refuse (c == 0 && stagedNew s pg Fld.HIF_CH_CFG_PART) [Fld.HIF_CH_CFG_PART]

/-- The fields whose staged value a rule of the page refuses. -/
def badFields (s : State) (pg : Page) : List Fld :=
  let v (f : Fld) : Nat := stg s pg f
  match pageKind pg with
  | some .hifPort => refuse (v Fld.HIF_PORT_CFG_UDP_PORT == 0) [Fld.HIF_PORT_CFG_UDP_PORT]
  | some .hifCh => badChan s (pg.inst - 16)
  | some .dsp => badDsp s pg.inst
  | some .prt => badPrt s pg.inst
  | some .yrd => badYrd s
  | some .memStack => refuse (v Fld.MEM_RETRAIN_POL_FORCE_THR == 0) [Fld.MEM_RETRAIN_POL_FORCE_THR]
  | some .memLease =>
    refuse (v Fld.MEM_LEASE_CFG_KEEP_MS == 0) [Fld.MEM_LEASE_CFG_KEEP_MS] ++
    refuse (v Fld.MEM_LEASE_CFG_LOST_MS < 2 * v Fld.MEM_LEASE_CFG_KEEP_MS) [Fld.MEM_LEASE_CFG_LOST_MS] ++
    refuse (v Fld.MEM_LEASE_CFG_GRACE_10MS == 0) [Fld.MEM_LEASE_CFG_GRACE_10MS]
  | some .memPart => badMemPart s (pg.inst - 16)
  | some .lpd => refuse (v Fld.LPD_RETRAIN_POL_FORCE_THR == 0) [Fld.LPD_RETRAIN_POL_FORCE_THR]
  | some .kvs => badKvs s pg.inst
  | some .scn => badScn s pg.inst
  | some .fab =>
    [Fld.FAB_LINK_POL_ERR_THR, Fld.FAB_LINK_POL_REPLAY_TO_US, Fld.FAB_LANE_POL_ESC_WAIT_US, Fld.FAB_LANE_POL_W1,
      Fld.FAB_LANE_POL_W2].filter fun f => v f == 0
  | some .col => badCol s pg.inst
  | some .colDev =>
    refuse (!s.col.ctxs.isEmpty) ([Fld.COL_DEV_ID, Fld.COL_DEV_ID_VALID].filter (stagedNew s pg))
  | some .sec => refuse (v Fld.SEC_SWEEP_POL == 0 || 256 < v Fld.SEC_SWEEP_POL) [Fld.SEC_SWEEP_POL]
  | some .pwr => refuse (v Fld.PWR_POL < 1000 || 2000 < v Fld.PWR_POL) [Fld.PWR_POL]
  | some .clk => refuse (v Fld.CLK_POL_FLOOR < v Fld.CLK_POL_CEIL) [Fld.CLK_POL_FLOOR]
  | some .ras => refuse (v Fld.RAS_SCRUB_POL < 10 || 10000 < v Fld.RAS_SCRUB_POL) [Fld.RAS_SCRUB_POL]
  | some .evr => refuse (v Fld.EVR_POL_FLUSH_SEV < 2) [Fld.EVR_POL_FLUSH_SEV]
  | _ => []

/-- The first of some fields: the lowest offset, then the lowest bit (R443). -/
def firstField : List Fld → Option Fld
  | [] => none
  | f :: r =>
    match firstField r with
    | some g => some (if f.off < g.off ∨ (f.off = g.off ∧ f.lo ≤ g.lo) then f else g)
    | none => some f

/-- Write COMMIT_STAT. -/
def commitStat (pg : Page) (failed off lsb : Nat) (s : State) : State :=
  st pg Fld.PAGE_COMMIT_STAT_FAILED failed (st pg Fld.PAGE_COMMIT_STAT_OFFSET off (st pg Fld.PAGE_COMMIT_STAT_LSB lsb s))

/-- A commit: the page's fields become active together, or the first inconsistent one is named (R7, R443). Answers whether it
succeeded. -/
def commit (pg : Page) (s : State) : State × Bool :=
  let l := (stagedFields pg).filter (stagedNew s pg)
  match (if l.isEmpty then none else firstField (badFields s pg)) with
  | some f => (commitStat pg 1 f.off f.lo s, false)
  | none =>
    let old := s
    let s := l.foldl (fun s f => st pg f (stg s pg f) s) (wh (pageKind pg == some .memPart) (regWait (pg.inst - 16)) s)
    (pageChanged old pg (inc pg Fld.PAGE_GEN 1 (commitStat pg 0 0 0 s)), true)

/-! ### Page resets (R403) -/

/-- A page reset request is ignored: a CONTROL event (R403, Table 18.3). -/
def resetIgnored (pg : Page) (s : State) : State := raise pg 0x10 0 1 (pagePart pg) 1 s

/-- Fields that follow the hardware again at once (R449), so that a reset of their page leaves them as they stand. -/
def hardFields (s : State) (pg : Page) : List Fld :=
  match pageKind pg with
  | some .hifPort => [Fld.HIF_PORT_STAT]
  | some .hifCh => if pg = pgCh 0 then (List.range 12).map fun m => fldAt Fld.HIF_CH_KEYDIG m else []
  | some .prt =>
    if partState s pg.inst = .suspended then [Fld.PRT_SUSP_CACHE, Fld.PRT_SUSP_SCR_COUNT, Fld.PRT_SUSP_SCR_FIRST] else []
  | some .memStack =>
    [Fld.MEM_STACK_STAT_FAILED, Fld.MEM_STACK_STAT_TRAINED, Fld.MEM_PC_FAIL_LO, Fld.MEM_PC_FAIL_HI]
  | some .lpd => [Fld.LPD_STAT_FAILED, Fld.LPD_STAT_FAILED_CH, Fld.LPD_STAT_TRAINED, Fld.LPD_REFRESH_MR4, Fld.LPD_REFRESH_MULT]
  | some .pwr =>
    [Fld.PWR_STAT_INPUT_W, Fld.PWR_STAT_TJ_MAX, Fld.PWR_STAT_FAULT_THERM, Fld.PWR_STAT_THERM_ACT]
  | some .clkDev => Fld.CLK_DUTY :: (List.range 10).map fun k => fldAt Fld.CLK_PT k
  | _ => []

/-- Every register of a page returns to its reset value, and its unit follows. -/
def resetPage (pg : Page) (s : State) : State :=
  let old := s
  let kept := (hardFields s pg).map fun f => (f, rg s pg f)
  let s := kept.foldl (fun s x => st pg x.1 x.2 s) (resetRegs pg s)
  let s := match pageKind pg with
    | some .kvs => { setKv pg.inst (kvsDefault pg.inst) s with lab := s.lab.filter fun e => e.1 != pg.inst }
    | some .scn => setSc pg.inst (scnDefault pg.inst) s
    | _ => s
  pageChanged old pg s

/-- A page reset request (R403, R448, R450). -/
def resetRequest (pg : Page) (s : State) : State :=
  let x := pageState s pg
  let idle := x == 0 || x == 1 || x == 4 || (x == 5 && pg.blk != .dsp)
  let never := pg.blk == .dev || pg.blk == .boot || pg == pgSecDev
  let busy := pageKind pg == some .col && s.col.ctxs.any fun c => c.part == pg.inst
  if !idle || never || busy then resetIgnored pg s
  else match pageKind pg with
    | some .dsp => setQu pg.inst (queueDefault pg.inst) (askEnd pg.inst (resetPage pg (flushQueue pg.inst s)))
    | some .col => resetPage pg (colCloseAll pg.inst s)
    | _ => resetPage pg s

/-! ### Writes (R6, R437) -/

/-- PAGE_CTRL: ENABLE and QUIESCE act on FAB pages only (R439). -/
def ctrlWrite (pg : Page) (en qu : Option Bool) (s : State) : State :=
  if pageKind pg ≠ some .fab then s else
  let s := match qu with
    | some b => st pg Fld.PAGE_CTRL_QUIESCE (b2n b) s
    | none => s
  match en with
  | some b => portEnable pg.inst b (st pg Fld.PAGE_CTRL_ENABLE (b2n b) s)
  | none => s

/-- PAGE_ERR: writing 1 to ERR clears it with PAGE_ERR_INFO; OVER is cleared by itself (R442). -/
def errWrite (pg : Page) (w : Nat) (s : State) : State :=
  let s := wh (bit 1 w) (st pg Fld.PAGE_ERR_OVER 0) s
  wh (bit 0 w) (clearErr pg) s

/-- The registers that every page holds. -/
def commonWrite (pg : Page) (off w : Nat) (s : State) : State :=
  match off with
  | 0x008 =>
    let s := ctrlWrite pg (some (bit 0 w)) (some (bit 1 w)) s
    wh (bit 2 w) (resetRequest pg) s
  | 0x010 => errWrite pg w s
  | 0x018 =>
    let d : FieldDef := ⟨Fld.PAGE_NOTIFY_EN, .rw, 0, false⟩
    st pg Fld.PAGE_NOTIFY_EN (w &&& fieldReset pg d) s
  | 0x020 => if w % 65536 = 0xC011 then (commit pg s).1 else s
  | _ => s

/-- One field of a register takes its bits of a written word (R6). -/
def fieldWrite (pg : Page) (w : Nat) (d : FieldDef) (s : State) : State :=
  let v := bits d.fld.hi d.fld.lo w
  match d.acc with
  | .rw => st pg d.fld v s
  | .w1c => st pg d.fld (rg s pg d.fld &&& (2 ^ (d.fld.hi + 1 - d.fld.lo) - 1 - v)) s
  | .rws =>
    if (stagedFields pg).contains d.fld then
      let k := regKey pg d.fld.off
      { s with staged := tabSet resetWord s.staged k (fldSet d.fld (tabGet resetWord s.staged k) v) }
    else s
  | .ro => s
  | .wo => s

/-- The failed health tests that a key creation meets when no observation came with its command: a free number up to sixteen (log
entry 8). -/
def freeFails (s : State) : Nat := Config.freeFails s.freeCtr % 17

/-- A register whose write does something of its own. None where the write only lands. -/
def actionWrite (pg : Page) (off w part : Nat) (s : State) : Option State :=
  let i := pg.inst
  let data : Word := BitVec.ofNat 32 w
  match pageKind pg, off with
  | some .dsp, 0x114 => some (tailWrite i (fldGet Fld.DSP_Q_TAIL data) s)
  | some .dsp, 0x11C =>
    let s := if fldGet Fld.DSP_Q_CTRL_RUN data = 1 then runQueue i s else st pg Fld.DSP_Q_CTRL_RUN 0 s
    let s := wh (fldGet Fld.DSP_Q_CTRL_RESUME data == 1) (resumeQueue i) s
    some (wh (fldGet Fld.DSP_Q_CTRL_FLUSH data == 1) (flushQueue i) s)
  | some .tpl, 0x100 =>
    some (wh (fldGet Fld.TPL_STATE_CLEAR data == 1) (tplReset i) s)
  | some .prt, 0x100 => some (prtCommand i (fldGet Fld.PRT_CMD_OP data) (freeFails s) (tickFree s))
  | some .prtDev, 0x100 => some (extCommand (fldGet Fld.PRT_EXT_CMD_OP data) (fldGet Fld.PRT_EXT_CMD_PART data) s)
  | some .arr, 0x104 =>
    some (arrCtrl part i (fldGet Fld.ARR_CNT_CTRL_SNAP data == 1) (fldGet Fld.ARR_CNT_CTRL_CLEAR data == 1) s)
  | some .stk, 0x104 =>
    some (stkCtrl part i (fldGet Fld.STK_CNT_CTRL_SNAP data == 1) (fldGet Fld.STK_CNT_CTRL_CLEAR data == 1) s)
  | some .memLease, 0x10C => some (memReclaim 0 data s)
  | some .kvs, 0x114 => some (kvCommand i (fldGet Fld.KVS_CMD_OP data) (fldGet Fld.KVS_CMD_STREAM data) s)
  | some .scn, 0x118 => some (scnCommand i (fldGet Fld.SCN_CMD_OP data) (fldGet Fld.SCN_CMD_STREAM data) s)
  | some .col, 0x10C => some (colCommand i (fldGet Fld.COL_CMD_OP data) (fldGet Fld.COL_CMD_GROUP data) s)
  | some .sec, 0x100 => some (secCommand i (fldGet Fld.SEC_CMD_OP data) s)
  | some .secDev, 0x104 => some (secCommand 16 (fldGet Fld.SEC_DEV_CMD_OP data) s)
  | some .pwr, 0x10C => some (wh (fldGet Fld.PWR_CTRL data == 1) (st pg Fld.PWR_PEAK 0) s)
  | some .evr, 0x100 => some (evrCommand (fldGet Fld.EVR_CMD_OP data) (fldGet Fld.EVR_CMD_FRAME data) s)
  | some .boot, 0x114 => some (bootCommand (fldGet Fld.BOOT_CMD_OP data) (Config.flashHolds s.freeCtr) (tickFree s))
  | _, _ => none

/-- A 32-bit write that has passed its checks (R437). -/
def pageWrite (pg : Page) (off w part : Nat) (s : State) : State :=
  if off < 0x100 then commonWrite pg off w s
  else match actionWrite pg off w part s with
    | some s' => s'
    | none => ((pageFields pg).filter fun d => d.fld.off == off).foldl (fun s d => fieldWrite pg w d s) s

/-! ### Accesses (R332, R436, R437) -/

/-- One access of the register bus: its kind as R332 numbers it, and whether a reserved bit of it is set. -/
structure Access1 where
  addr : Nat
  kind : Nat
  rsv : Bool
  data : Nat
deriving DecidableEq, Repr

/-- The token operation that an access to an alias is (Table 2.8). -/
def tokOpOf (al : Nat) (wr : Bool) (w : Nat) : TokOp :=
  match al, wr with
  | 0, true => .set w
  | 1, false => .addR
  | 1, true => .add w
  | 2, false => .decR
  | 2, true => .dec w
  | 3, true => .cas w
  | _, _ => .read

/-- The checks and the effect of an access to the token window (R48, R332). -/
def tokenBus (part : Nat) (x : Access1) (s : State) : State :=
  let off := x.addr - 0xF8000000000
  let t := off % 2 ^ 16 / 8
  if (tok s t).owner ≠ part then { tokRefuse 0 part t s with bus := (0x20, 0) }
  else if 3 < x.kind ∨ x.rsv then { s with bus := (0x13, 0) }
  else if x.kind < 2 ∨ x.addr % 8 ≠ 0 then { tokRefuse 1 part t s with bus := (0x12, 0) }
  else tokAccess (tokOpOf (off / 2 ^ 16) (x.kind % 2 == 1) x.data) part t s

/-- A page that is open before the boot sequencer is DONE (R408). -/
def bootPage (pg : Page) : Bool :=
  match pageKind pg with
  | some .dev => true
  | some .pwr => true
  | some .clk => true
  | some .clkDev => true
  | some .boot => true
  | some .ras => true
  | some .evr => true
  | some .hifPort => true
  | _ => false

/-- A page that exists and is open now. -/
def pageOpen (s : State) (pg : Page) : Bool := (pageKind pg).isSome && (bootDone s || bootPage pg)

/-- One access by partition `part` (R9, R332, R408, R436, R437); its status and the data read stand in `bus`. -/
def access (part : Nat) (x : Access1) (s : State) : State :=
  if 0xF8000000000 ≤ x.addr ∧ x.addr < 0xF8000040000 then atDone (tokenBus part x) s
  else if x.addr / 2 ^ 28 ≠ 0xF000 then { s with bus := (0x20, 0) }
  else match pageOfKey (x.addr % 2 ^ 28) with
    | none => { s with bus := (0x20, 0) }
    | some (pg, off) =>
      let wr := x.kind % 2 == 1
      if !pageOpen s pg || !(if wr then part == pageOwner s pg else mayRead s part pg) then { s with bus := (0x20, 0) }
      else if 1 < x.kind ∨ x.rsv then { s with bus := (0x13, 0) }
      else if off % 4 ≠ 0 then { s with bus := (0x12, 0) }
      else if wr then { pageWrite pg off (x.data % 2 ^ 32) part s with bus := (0, 0) }
      else
        let s := wh (pageKind pg == some .memPart && off == 0x130) (regWait (pg.inst - 16)) s
        { s with bus := (0, regNow s pg off) }

/-- A page that an address names, when `part` may write it. -/
def onPage (part addr : Nat) (f : Page → State → State) (s : State) : State :=
  if addr / 2 ^ 28 ≠ 0xF000 then { s with bus := (0x20, 0) }
  else match pageOfKey (addr % 2 ^ 28) with
    | none => { s with bus := (0x20, 0) }
    | some (pg, _) =>
      if !pageOpen s pg || part != pageOwner s pg then { s with bus := (0x20, 0) }
      else { f pg s with bus := (0, 0) }

/-! ### Commands -/

/-- REGISTER_WRITE (R6). -/
def execRegisterWrite (part addr : Nat) (data : Word) (s : State) : Host.Outcome State Fault Refusal :=
  .next (wh (on s) (access part ⟨addr, 1, false, data.toNat⟩) s)

/-- PAGE_COMMIT (R7). -/
def execPageCommit (part addr : Nat) (data : Word) (s : State) : Host.Outcome State Fault Refusal :=
  .next (wh (on s) (onPage part addr fun pg s => commonWrite pg 0x020 data.toNat s) s)

/-- PAGE_RESET (R403). -/
def execPageReset (part addr : Nat) (s : State) : Host.Outcome State Fault Refusal :=
  .next (wh (on s) (onPage part addr resetRequest) s)

/-- PAGE_ENABLE (R439). -/
def execPageEnable (part addr : Nat) (data : Word) (s : State) : Host.Outcome State Fault Refusal :=
  .next (wh (on s) (onPage part addr fun pg s => ctrlWrite pg (some (bit 0 data.toNat)) none s) s)

/-- PAGE_QUIESCE (R439). -/
def execPageQuiesce (part addr : Nat) (data : Word) (s : State) : Host.Outcome State Fault Refusal :=
  .next (wh (on s) (onPage part addr fun pg s => ctrlWrite pg none (some (bit 1 data.toNat)) s) s)

/-- PAGE_ERR_CLEAR (R442). -/
def execPageErrClear (part addr : Nat) (data : Word) (s : State) : Host.Outcome State Fault Refusal :=
  .next (wh (on s) (onPage part addr fun pg s => errWrite pg data.toNat s) s)

/-- CLEAR_PEAK (R410). -/
def execClearPeak (part : Nat) (s : State) : Host.Outcome State Fault Refusal :=
  .next (wh (on s) (onZero part (st pgPwr Fld.PWR_PEAK 0)) s)

end Sys2Proof.Machine
end

