-- ==== Sys2Proof/Machine/Boot.lean ====
section
/-!
DEFINITION. The boot sequencer: power-up, boot attempts, images and their records (R403 to R408).
-/
namespace Sys2Proof.Machine

/-! ### Images (R404, R405) -/

/-- An image in flash: its bytes as its LENGTH says. -/
def flashImage (s : State) (slot : Nat) : List Byte :=
  let len := ofLE (flashBytes s (slotAddr slot + 4) 4)
  flashBytes s (slotAddr slot) (if len ≤ 0x1000000 then len else 0)

/-- An image is acceptable (R404). -/
def acceptable (s : State) (img : List Byte) : Bool :=
  imageForm img img.length && decide (img.length ≤ 0x1000000) && imageAuth s img && decide (s.pwr.fuses.minVersion ≤ bF img 2 2)

/-- What the sequencer shows of the two images it judged (R412). -/
def showImages (a b : Bool) (s : State) : State :=
  st pgBoot Fld.BOOT_IMG_A_ACCEPTABLE (b2n a) (st pgBoot Fld.BOOT_IMG_A_VERSION (ofLE (flashBytes s (slotAddr 0 + 2) 2))
    (st pgBoot Fld.BOOT_IMG_B_ACCEPTABLE (b2n b) (st pgBoot Fld.BOOT_IMG_B_VERSION (ofLE (flashBytes s (slotAddr 1 + 2) 2)) s)))

/-- The image that an attempt boots, with its slot: the staged one, else the acceptable one of the higher VERSION, A on a tie (R404,
R409). -/
def chooseImage (a b : Option (List Byte)) (staged : Option (List Byte)) : Option (Nat × List Byte) :=
  match staged, a, b with
  | some x, _, _ => some (2, x)
  | none, some x, some y => if bF x 2 2 < bF y 2 2 then some (1, y) else some (0, x)
  | none, some x, none => some (0, x)
  | none, none, some y => some (1, y)
  | none, none, none => none

/-- A page whose RW and RWS registers an image may write (R405). -/
def imagePage (pg : Page) : Bool :=
  match pageKind pg with
  | some .pwr => true
  | some .clk => true
  | some .clkDev => true
  | some .fab => true
  | some .hifPort => true
  | some .memStack => true
  | some .memLease => true
  | _ => false

/-- The register holds a field that an image may write. -/
def imageReg (pg : Page) (off : Nat) : Bool :=
  imagePage pg && (pageFields pg).any fun d => d.fld.off == off && (d.acc == .rw || d.acc == .rws)

/-- One record: the page it writes, its offset and its value; none where the record is rejected (R405). -/
def recordOf (img : List Byte) (n : Nat) : Option (Page × Nat × Nat) :=
  let b := (img.drop (256 + 16 * n)).take 16
  let a := bF b 0 8
  if a / 2 ^ 28 ≠ 0xF000 ∨ !zeroAt b 12 4 then none
  else match pageOfKey (a % 2 ^ 28) with
    | some (pg, off) => if imageReg pg off then some (pg, off, bF b 8 4) else none
    | none => none

/-- The records are applied in order, up to one that is rejected. Answers the pages written and whether all were accepted. -/
def applyRecords (img : List Byte) : List Nat → State → State × List Page × Bool
  | [], s => (s, [], true)
  | n :: r, s =>
    match recordOf img n with
    | none => (s, [], false)
    | some (pg, off, v) =>
      let x := applyRecords img r (pageWrite pg off v 0 s)
      (x.1, pg :: x.2.1, x.2.2)

/-- The pages written are committed, page by page, up to one whose commit fails. -/
def commitPages : List Page → State → State × Bool
  | [], s => (s, true)
  | pg :: r, s =>
    let x := commit pg s
    if x.2 then commitPages r x.1 else (x.1, false)

/-- An image's records (R405). -/
def applyImage (img : List Byte) (s : State) : State × Bool :=
  let x := applyRecords img (List.range ((img.length - 352) / 16)) s
  if x.2.2 then
    commitPages (uniq (x.2.1.filter fun pg => (pageFields pg).any fun d => d.acc == .rws)) x.1
  else (x.1, false)

/-! ### Training and tests (R406 steps 5 and 6) -/

/-- The detail under which an untrained stack or package reports; the spec gives none (log entry 13). -/
def untrainedDetail (pg : Page) : Nat := (Config.pathDetail (3 * 65536 + srcKey pg)).toNat

/-- A stack is trained, or fails (R348, R406). One that has failed stays failed until power-off. -/
def trainStack (bad : Nat) (k : Nat) (s : State) : State :=
  if unitGone s false k then s
  else if bit k bad then
    moduleFail 3 (pgMem k) 0x70 (untrainedDetail (pgMem k)) none
      (st (pgMem k) Fld.MEM_STACK_STAT_TRAINED 0 (st (pgMem k) Fld.MEM_STACK_STAT_FAILED 1
        ((unitExtents false k).foldl (fun s e => setExt e .failed s) s)))
  else st (pgMem k) Fld.MEM_STACK_STAT_TRAINED 1 s

/-- An LPDDR package is trained, or fails. -/
def trainPkg (bad : Nat) (k : Nat) (s : State) : State :=
  if unitGone s true k then s
  else if bit k bad then
    moduleFail 4 (pgLpd k) 0x70 (untrainedDetail (pgLpd k)) none
      (st (pgLpd k) Fld.LPD_STAT_TRAINED 0 (st (pgLpd k) Fld.LPD_STAT_FAILED 1
        ((unitExtents true k).foldl (fun s e => setExt e .failed s) s)))
  else st (pgLpd k) Fld.LPD_STAT_TRAINED 1 s

/-- A fabric port is enabled and trains; one whose SerDes failed its start-up test does not (R406 step 5). -/
def startPort (bad : Nat) (p : Nat) (s : State) : State :=
  let s := wh (bit p bad) (fun s => setPort p { portOf s p with serdesFail := true } s) s
  fabEnable p true (st (pgFab p) Fld.PAGE_CTRL_ENABLE 1 s)

/-- An array's start-up test: one that fails it is fenced, by the cell self-check (R406 step 6). -/
def testArray (bad : Nat) (n : Nat) (s : State) : State :=
  wh (bit n bad && !fenced s n) (fun s => moduleFail 1 (pgArr n) 0x70 5 none (st pgRas (arrBit Fld.RAS_FENCE n) 1 s)) s

/-- DEV_INVENTORY (Table 1.9). -/
def loadInventory (s : State) : State :=
  let n (m : Nat) (f : Nat → Bool) : Nat := countBelow m f
  let t := s
  st pgDev Fld.DEV_INVENTORY_HOST_PORTS (n 2 fun k => !bit k t.pwr.hostFail)
    (st pgDev Fld.DEV_INVENTORY_FAB_PORTS (n 16 fun p => !(portOf t p).serdesFail)
      (st pgDev Fld.DEV_INVENTORY_LPD_PKGS (n 16 fun k => !unitGone t true k)
        (st pgDev Fld.DEV_INVENTORY_STACKS (n 8 fun k => !unitGone t false k)
          (st pgDev Fld.DEV_INVENTORY_ARRAYS (n 160 fun k => !fenced t k) s))))

/-- A port whose SerDes fails its test leaves the module failed, as any shortfall does (R29, R406 step 6); Table 18.2 has no cause for
it, and CAUSE stays as it is (log entry 126). -/
def portShort (s : State) : State :=
  wh (s.pwr.hostFail != 0 || !allBelow 16 fun p => !(portOf s p).serdesFail) (st pgRas Fld.RAS_DEV_STAT_FAILED 1) s

/-- Steps 5 and 6 of an attempt. -/
def trainAll (a : BootObs) (s : State) : State :=
  let s := (List.range 8).foldl (fun s k => trainStack a.failedStacks k s) s
  let s := (List.range 16).foldl (fun s k => trainPkg a.failedPkgs k s) s
  let s := (List.range 16).foldl (fun s p => startPort a.failedFab p s) s
  let s := { s with pwr := { s.pwr with hostFail := s.pwr.hostFail ||| (a.failedHost % 4) } }
  (List.range 160).foldl (fun s n => testArray a.failedArrays n s) (portShort s)

/-! ### Attempts (R406, R407) -/

/-- BOOT_STATE.STEP. -/
def bootStep (k : Nat) (s : State) : State := st pgBoot Fld.BOOT_STATE_STEP k s

/-- An attempt fails: its cause is recorded and the back-off begins (R407). -/
def bootFailed (cause : Nat) (s : State) : State :=
  let b := s.pwr.nextBackoff
  let s := bootStep 9 (st pgBoot Fld.BOOT_STATE_FAIL cause (st pgBoot Fld.BOOT_BACKOFF b s))
  raise pgBoot 0x10 0 2 none 1 { s with pwr := { s.pwr with nextBackoff := if 512 ≤ b then 1000 else 2 * b } }

/-- Steps 7 and 8 (R406, R408). -/
def bootFinish (a : BootObs) (s : State) : State :=
  let s := createKeys 0 s
  if !a.epochBack then bootFailed 4 s else
  let s := { s with pwr := { s.pwr with counter := s.pwr.epoch } }
  let s := loadInventory (st pgDev Fld.DEV_BOOT_EPOCH s.pwr.epoch s)
  let s := (List.range 160).foldl (fun s n => raisePoint n s) s
  bootStep 10 (zeroFill 0x80000000000 0x1000100 s)

/-- One attempt: steps 3 to 8 (R406). -/
def bootAttempt (a : BootObs) (s : State) : State :=
  let s := inc pgBoot Fld.BOOT_ATTEMPTS 1 (st pgBoot Fld.BOOT_BACKOFF 0 s)
  let staged := s.pwr.staged
  let s := { s with pwr := { s.pwr with staged := none } }
  if !a.flashOk then bootFailed 1 s else
  let x := flashImage s 0
  let y := flashImage s 1
  let okA := acceptable s x
  let okB := acceptable s y
  let s := showImages okA okB s
  match chooseImage (if okA then some x else none) (if okB then some y else none) staged with
  | none => bootFailed 2 (st pgBoot Fld.BOOT_STATE_SLOT 3 s)
  | some (slot, img) =>
    let s := st pgBoot Fld.BOOT_STATE_SLOT slot { s with pwr := { s.pwr with image := img, imageSlot := slot } }
    let r := applyImage img s
    if !r.2 then bootFailed 3 r.1 else bootFinish a (trainAll a r.1)

/-- The back-off ends (R407). -/
def backoffEnd (a : BootObs) (s : State) : State :=
  if rg s pgBoot Fld.BOOT_STATE_STEP = 9 then bootAttempt a s else s

/-! ### Power-up (R403, R406 steps 1 and 2) -/

/-- The fields that step 1 loads from fuses and the manufacturing record (R449). -/
def loadFuses (f : Fuses) (s : State) : State :=
  let s := st pgDev Fld.DEV_PART_STEPPING f.stepping (st pgDev Fld.DEV_PART_MODREV f.modrev s)
  let s := st (pgHif 0) Fld.HIF_MAC_LO f.mac0 (st (pgHif 0) Fld.HIF_MAC_HI (f.mac0 / 2 ^ 32) s)
  let s := st (pgHif 1) Fld.HIF_MAC_LO f.mac1 (st (pgHif 1) Fld.HIF_MAC_HI (f.mac1 / 2 ^ 32) s)
  (List.range 12).foldl (fun s m => stRws (pgCh 0) (fldAt Fld.HIF_CH_KEYDIG m) (f.ch0Digest.getD m 0).toNat s) s

/-- Step 1 (R406): fuses and the manufacturing record are read, which the first power-up names and which stay the device's own (R449, log
entry 3); E is the counter plus one; the recorder finds its frames (R433). DEV_BOOT_EPOCH and DEV_INVENTORY follow the hardware from
here until step 8 loads them: the count of boots that flash holds, and the units not known to have failed (log entry 1). -/
def bootOne (f : Fuses) (s : State) : State :=
  let f := if s.pwr.known then s.pwr.fuses else f
  let s := { s with pwr := { s.pwr with
    mode := .running
    pwrFailN := true
    fuses := f
    known := true
    epoch := (s.pwr.counter + 1) % 2 ^ 32 } }
  loadInventory (st pgDev Fld.DEV_BOOT_EPOCH s.pwr.counter (loadFuses f (evrBoot s)))

/-- The certificate of the SAK, up to its signature (Table 16.2). -/
def sakCertHead (s : State) : List Byte :=
  toLE 2 1 ++ [2, 0] ++ toLE 4 s.pwr.epoch ++ ecPub s.sec.sak ++ List.replicate 7 0 ++ identityDig s

/-- The SAK is created and certified by the IDK; the lend set and the node keys are created (R367, Table 16.1). -/
def bootKeys (s : State) : State :=
  let a := drbgKey s
  let s := { a.2 with sec := { a.2.sec with sak := a.1 } }
  let h := sakCertHead s
  let r := signBy (idkKey s) h s
  let s := { r.2 with sec := { r.2.sec with chain := h ++ r.1 ++ r.2.pwr.fuses.idCert } }
  let l := newKeySet s
  let s := { l.2 with sec := { l.2.sec with lend := l.1 } }
  (List.range 16).foldl (fun s k =>
    let r := drbgTake 32 s
    { r.2 with sec := { r.2.sec with node := r.2.sec.node.set k r.1 } }) s

/-- MOD_RESET_N rises (R406): the device boots. While no entropy passes its tests, no key is created and boot stays at step 2 (R366). -/
def powerOn (f : Fuses) (fails : Nat) (a : BootObs) (s : State) : State :=
  if s.pwr.mode ≠ .inReset then s else
  let r := healthTests fails (bootOne f s)
  if r.2 then bootAttempt a (bootKeys (startDrbg r.1)) else bootStep 2 r.1

/-! ### Commands -/

/-- POWER_UP (R406). -/
def execPowerUp (f : Fuses) (entropyFails : Nat) (a : BootObs) (s : State) : Host.Outcome State Fault Refusal :=
  .next (powerOn f entropyFails a s)

/-- BOOT_BACKOFF_EXPIRY (R407). -/
def execBootBackoffExpiry (a : BootObs) (s : State) : Host.Outcome State Fault Refusal := .next (wh (on s) (backoffEnd a) s)

end Sys2Proof.Machine
end

