-- ==== Sys2Proof/Machine/HostReq.lean ====
section
/-!
DEFINITION. Packets from hosts: reception, the order of requests, REG, SUBMIT, bulk transfers, SUBSCRIBE and CLOSE
(R330 to R336, R408), and the events after which held accesses of requests and commands go on.
-/
namespace Sys2Proof.Machine

/-! ### Reception (R330) -/

/-- Bytes of the shared receive pool in use. -/
def poolUsed (s : State) : Nat :=
  (List.range 64).foldl (fun a c => match sessOf s c with
    | some x => x.early.foldl (fun a e => a + e.2.2.length) (x.todo.foldl (fun a r => a + r.body.length) a)
    | none => a) 0

/-- Packets that are next in order leave the window for the requests to execute, numbered from `fid` on. -/
def inOrder : Nat → Nat → Session → Session × Nat
  | 0, fid, x => (x, fid)
  | n + 1, fid, x =>
    match x.early.find? fun e => e.1 == x.rxNext with
    | some e => inOrder n (fid + 1) { x with
        early := x.early.filter fun y => y.1 != e.1
        todo := x.todo ++ [⟨fid, e.2.1, e.2.2, false⟩]
        rxNext := (x.rxNext + 1) % 2 ^ 32 }
    | none => (x, fid)

/-- A sequenced packet is received (R330): outside the window it is dropped, a duplicate is acknowledged again, and one for which the
pool has no room is dropped and counted. -/
def receive (c ptype seq : Nat) (body : List Byte) (s : State) : State :=
  match sessOf s c with
  | none => s
  | some x =>
    let d := (seq + 2 ^ 32 - x.rxNext) % 2 ^ 32
    if 2 ^ 31 ≤ d ∨ x.early.any (fun e => e.1 == seq) then updSess c (fun x => { x with ackDue := true }) s
    else if 256 ≤ d then s
    else if 0x1000000 < poolUsed s + body.length then inc (pgCh c) Fld.HIF_CH_NOROOM 1 s
    else
      let r := inOrder (x.early.length + 1) s.nextFid { x with early := x.early ++ [(seq, ptype, body)], ackDue := true }
      updSess c (fun _ => r.1) { s with nextFid := r.2 }

/-! ### REG (R332, R408) -/

/-- Access `i` of a REG body. -/
def regAccess (body : List Byte) (i : Nat) : Access1 :=
  let b := (body.drop (4 + 24 * i)).take 24
  ⟨bF b 0 6, bF b 8 1, !(zeroAt b 6 2 && zeroAt b 9 7), bF b 16 8⟩

/-- The accesses run in order, each judged on its own; the results so far stand at the front. -/
def regRun (part : Nat) : List Access1 → List Byte → State → State × List Byte
  | [], out, s => (s, out)
  | x :: r, out, s =>
    let s := access part x s
    regRun part r (out ++ toLE 1 s.bus.1 ++ toLE 7 0 ++ toLE 8 s.bus.2) s

/-- A REG request (R332). -/
def regReq (c : Nat) (body : List Byte) (s : State) : State :=
  let n := bF body 0 4
  if n = 0 ∨ 64 < n ∨ body.length ≠ 4 + 24 * n then sendSeq c 0x21 0 (toLE 4 0 ++ toLE 1 0x13) none s
  else
    let r := regRun (chanPart s c) ((List.range n).map (regAccess body)) [] s
    sendSeq c 0x21 0 (toLE 4 n ++ r.2) none r.1

/-! ### SUBMIT (R333) -/

/-- The status and the slot of a SUBMIT, with what it does. An entry that the ring's memory does not take, because the partition no
longer owns it or a block fails, ends it with that code, and the tail stays (R349, R371). -/
def submitDo (q : Nat) (body : List Byte) (s : State) : State × Nat × Nat :=
  let tail := qTail s q
  let size := qSize s q
  if !bootDone s then (s, 0x20, 0)
  else if partState s q = .torn then (s, 0x71, 0)
  else if body.length ≠ 16 then (s, 0x13, 0)
  else if size - 1 ≤ (tail + size - qHead s q) % size then (s, 0x11, 0)
  else
    let r := memWrite .beside q 0 (qRing s q + 16 * tail) body s
    match r.2 with
    | some code => (r.1, code, 0)
    | none => (tailWrite q ((tail + 1) % size) r.1, 0, tail)

/-- A request leaves nothing of its lease accesses and of what it waited for. -/
def dropAccs (fid : Nat) (s : State) : State :=
  proceed fid { s with
    accs := s.accs.filter fun a => a.fid != fid
    lostFids := s.lostFids.filter fun f => f.1 != fid }

/-- A SUBMIT request. Answers false while a channel under retraining holds the slot (R241). -/
def submitReq (c : Nat) (r : HReq) (s : State) : State × Bool :=
  let q := chanPart s c
  let slot := (qRing s q + 16 * qTail s q, 16)
  if (lostCode s r.fid).isNone && heldRange s slot.1 slot.2 then (noteHeld r.fid [slot] s, false) else
  let y := match lostCode s r.fid with
    | some code => (s, code, 0)
    | none => submitDo q r.body s
  (sendSeq c 0x23 0 (toLE 1 y.2.1 ++ toLE 3 0 ++ toLE 2 y.2.2) none (dropAccs r.fid y.1), true)

/-! ### Bulk transfers (R334, R335, R408) -/

/-- The staging area (R408). -/
def inStage (a n : Nat) : Bool := decide (0x80000000000 ≤ a ∧ a + n ≤ 0x80000000000 + 0x1000100)

/-- The checks of a bulk request, in the order of R11. -/
def bulkCode (s : State) (p : Nat) (wr : Bool) (mx : Nat) (body : List Byte) : Nat :=
  let a := bF body 0 6
  let n := bF body 8 4
  if partState s p = .torn then 0x71
  else if !(if bootDone s then opRange s p a n else inStage a n) then 0x20
  else if !zeroAt body 6 2 || !zeroAt body 12 4 || body.length != (if wr then 16 + n else 16) then 0x13
  else if a % 32 ≠ 0 ∨ n % 32 ≠ 0 then 0x12
  else if (if wr then mx else 2 ^ 24) < n then 0x11
  else if n = 0 then 0x01 else 0

/-- BULK_WR_R. -/
def bulkWrAnswer (c fid code : Nat) (s : State) : State × Bool :=
  (sendSeq c 0x25 0 (padTo 16 (toLE 1 code)) none (dropAccs fid s), true)

/-- A write of the request is not yet held by its lender. -/
def writesOpen (s : State) (fid : Nat) : Bool := s.accs.any fun a => a.fid == fid && a.isWrite && !a.done

/-- A BULK_WR (R334): answered once its bytes are visible. -/
def bulkWrReq (c mx : Nat) (r : HReq) (s : State) : State × Bool :=
  let p := chanPart s c
  let a := bF r.body 0 6
  let code := (lostCode s r.fid).getD (bulkCode s p true mx r.body)
  if r.started then
    (if (lostCode s r.fid).isSome then bulkWrAnswer c r.fid code s
    else if partState s p = .torn then bulkWrAnswer c r.fid 0x71 s
    else if writesOpen s r.fid then (s, false) else bulkWrAnswer c r.fid 0 s)
  else if code ≠ 0 then bulkWrAnswer c r.fid code s
  else if !bootDone s then bulkWrAnswer c r.fid 0 (poke a (r.body.drop 16) s)
  else if heldRange s a (r.body.length - 16) then (noteHeld r.fid [(a, r.body.length - 16)] s, false)
  else
    let y := memWrite .yard p r.fid a (r.body.drop 16) s
    match y.2 with
    | some e => bulkWrAnswer c r.fid e y.1
    | none =>
      if writesOpen y.1 r.fid then
        (updSess c (fun x => { x with todo := x.todo.map fun q => if q.fid = r.fid then { q with started := true } else q }) y.1, false)
      else bulkWrAnswer c r.fid 0 y.1

/-- The one packet of a read that fails or reads nothing. -/
def bulkRdEnd (c fid code : Nat) (s : State) : State × Bool :=
  (sendSeq c 0x27 1 (toLE 8 0 ++ toLE 1 code ++ toLE 7 0) none (dropAccs fid s), true)

/-- The packets of a read (R335). -/
def bulkRdData (c fid mx a n : Nat) (s : State) : State × Bool :=
  let k := ceilDiv n mx
  let m := s
  ((List.range k).foldl (fun s i =>
    let len := min mx (n - i * mx)
    sendSeq c 0x27 (b2n (decide (i + 1 = k))) (toLE 4 (i * mx) ++ toLE 4 len ++ toLE 8 0 ++ rdBytes m (a + i * mx) len) none s)
    (dropAccs fid s), true)

/-- A BULK_RD (R335). -/
def bulkRdReq (c mx : Nat) (r : HReq) (s : State) : State × Bool :=
  let p := chanPart s c
  let a := bF r.body 0 6
  let n := bF r.body 8 4
  let code := (lostCode s r.fid).getD (bulkCode s p false mx r.body)
  if code ≠ 0 then bulkRdEnd c r.fid code s
  else if !bootDone s then bulkRdData c r.fid mx a n s
  else if heldFor s r.fid a n then (noteHeld r.fid [(a, n)] s, false)
  else
    let y := memRead .yard p a n s
    match y.2 with
    | some e => bulkRdEnd c r.fid e y.1
    | none => bulkRdData c r.fid mx a n y.1

/-! ### SUBSCRIBE (R331, R336) -/

/-- A SUBSCRIBE: the mask, and the end of what an ended session kept. -/
def subscribeReq (c : Nat) (body : List Byte) (s : State) : State :=
  let m := bF body 0 4
  let ok := decide (m < 16)
  let s := wh ok (fun s =>
    let s := updSess c (fun x => { x with mask := some m }) s
    { s with chans := tabSet chanDefault s.chans c { chan s c with kept := 0 } }) s
  sendSeq c 0x29 0 (toLE 1 (if ok then 0 else 0x13)) none s

/-! ### The order of requests (R330, R334) -/

/-- A request does not start yet: `kept` are the earlier ones that are not complete. -/
def reqWaits (kept : List HReq) (r : HReq) : Bool :=
  let l := kept.filter fun x => x.ptype != 0x33
  if r.ptype = 0x33 ∨ r.ptype = 0x24 then false
  else if r.ptype = 0x26 then l.any fun x => x.ptype == 0x24
  else !l.isEmpty

/-- One request runs; false while memory that it reaches is held, or a lender has not answered. -/
def runReq (c mx : Nat) (r : HReq) (s : State) : State × Bool :=
  match r.ptype with
  | 0x06 => (endSession c false s, true)
  | 0x20 => (regReq c r.body s, true)
  | 0x22 => submitReq c r s
  | 0x24 => bulkWrReq c mx r s
  | 0x26 => bulkRdReq c mx r s
  | 0x28 => (subscribeReq c r.body s, true)
  | 0x33 => fillIn c r.body s
  | _ => (s, true)

/-- The requests of a channel in SEQ order. Once one may not start, no later one does; a MOVE_FILL is none of them. -/
def runList (c sid mx : Nat) : List HReq → List HReq → Bool → State → State
  | _, [], _, s => s
  | kept, r :: rest, stop, s =>
    let wait := decide (r.ptype ≠ 0x33) && (stop || reqWaits kept r)
    if wait then runList c sid mx (kept ++ [r]) rest true s else
    let y := runReq c mx r s
    if (sessOf y.1 c).map Session.sid ≠ some sid then y.1
    else if y.2 then
      runList c sid mx kept rest stop (updSess c (fun x => { x with todo := x.todo.filter fun q => q.fid != r.fid }) y.1)
    else runList c sid mx (kept ++ [r]) rest stop y.1

/-- The requests of a channel that can run, run. -/
def runTodo (c : Nat) (s : State) : State :=
  match sessOf s c with
  | some x => runList c x.sid x.maxData [] x.todo false s
  | none => s

/-- A protected packet from a host (R325, R330): an ACKONLY only acknowledges, and every other type is sequenced. -/
def packetIn (d : Datagram) (p : HctPkt) (s : State) : State :=
  let r := headerIn d p s
  match r.2 with
  | some body => if p.ptype = 0x10 then r.1 else runTodo p.chan (receive p.chan p.ptype p.seq body r.1)
  | none => r.1

/-- A datagram that a host port receives (R320, R321, R324): one for another address or port, or whose payload is no packet of a host, is
dropped and counted. -/
def datagramIn (d : Datagram) (s : State) : State :=
  let s := rxFrame d.port s
  if !ownAddr s d.port d.dst ∨ d.dport ≠ rg s (pgHif d.port) Fld.HIF_PORT_CFG_UDP_PORT then rxDrop d.port s else
  match hctOf d.data with
  | none => rxDrop d.port s
  | some p => match p.ptype with
    | 0x01 => helloIn d p s
    | 0x03 => finishIn d p s
    | _ => packetIn d p s

/-- Accesses that waited may go on: the commands of the security block and the requests of hosts try again. -/
def kick (s : State) : State := (List.range 64).foldl (fun s c => runTodo c s) (secRetry s)

/-- A channel or a way is free again: what waited for it goes on, the commands of the stations too (R228, R241). -/
def freed (s : State) : State :=
  kick (bootRetry (evrRetry ((List.range 16).foldl (fun s p => colReleased p (scnReleased p (kvReleased p s))) s)))

/-! ### Commands -/

/-- HELLO (R329). -/
def execHello (d : Datagram) (s : State) : Host.Outcome State Fault Refusal := .next (wh (on s) (onPort d.port (datagramIn d)) s)

/-- FINISH (R327). -/
def execFinish (d : Datagram) (s : State) : Host.Outcome State Fault Refusal := .next (wh (on s) (onPort d.port (datagramIn d)) s)

/-- CLOSE (R331). -/
def execClose (d : Datagram) (s : State) : Host.Outcome State Fault Refusal := .next (wh (on s) (onPort d.port (datagramIn d)) s)

/-- ACKONLY (R330). -/
def execAckonly (d : Datagram) (s : State) : Host.Outcome State Fault Refusal := .next (wh (on s) (onPort d.port (datagramIn d)) s)

/-- REG (R332). -/
def execReg (d : Datagram) (s : State) : Host.Outcome State Fault Refusal := .next (wh (on s) (onPort d.port (datagramIn d)) s)

/-- SUBMIT (R333). -/
def execSubmit (d : Datagram) (s : State) : Host.Outcome State Fault Refusal := .next (wh (on s) (onPort d.port (datagramIn d)) s)

/-- BULK_WR (R334). -/
def execBulkWr (d : Datagram) (s : State) : Host.Outcome State Fault Refusal := .next (wh (on s) (onPort d.port (datagramIn d)) s)

/-- BULK_RD (R335). -/
def execBulkRd (d : Datagram) (s : State) : Host.Outcome State Fault Refusal := .next (wh (on s) (onPort d.port (datagramIn d)) s)

/-- SUBSCRIBE (R336). -/
def execSubscribe (d : Datagram) (s : State) : Host.Outcome State Fault Refusal := .next (wh (on s) (onPort d.port (datagramIn d)) s)

/-- MOVE_FILL (R338). -/
def execMoveFill (d : Datagram) (s : State) : Host.Outcome State Fault Refusal := .next (wh (on s) (onPort d.port (datagramIn d)) s)

/-- LRDATA (R299). -/
def execLrdata (port : Nat) (s : State) : Host.Outcome State Fault Refusal := .next (wh (on s) (fun s => kick (lrdataIn port s)) s)

/-- LWACK (R299). -/
def execLwack (port : Nat) (s : State) : Host.Outcome State Fault Refusal := .next (wh (on s) (fun s => kick (colDones (lwackIn port s))) s)

/-- LUNKNOWN (R236). -/
def execLunknown (port : Nat) (s : State) : Host.Outcome State Fault Refusal := .next (wh (on s) (fun s => kick (lunknownIn port s)) s)

/-- LEASE_LOST_TIMEOUT (R236). -/
def execLeaseLostTimeout (slot : Nat) (s : State) : Host.Outcome State Fault Refusal :=
  .next (wh (on s) (fun s => kick (withLease slot [.held, .reclaiming] (fun l => leaseLost l 1) s)) s)

/-- MEMORY_RETRAIN_END (R241, R243). -/
def execMemoryRetrainEnd (lpddr : Bool) (unit ch : Nat) (ok : Bool) (holdCycles : Nat) (declared : Bool) (s : State) :
    Host.Outcome State Fault Refusal := .next (wh (on s) (fun s => freed (retrainEnd lpddr unit ch ok holdCycles declared s)) s)

/-- A way has been overwritten, and the accesses that waited go on (R228). -/
def wayDone (k : Nat) (s : State) : State :=
  freed { s with yard := { s.yard with zeroising := s.yard.zeroising.filter fun w => w != k } }

/-- WAY_ZEROISE_DONE (R228). -/
def execWayZeroiseDone (way : Nat) (s : State) : Host.Outcome State Fault Refusal := .next (wh (on s) (wayDone way) s)

/-- STACK_ENGINE_FAULT (R268). -/
def execStackEngineFault (stk detail : Nat) (s : State) : Host.Outcome State Fault Refusal :=
  .next (wh (on s) (fun s => kick (engineFault stk detail s)) s)

/-- STACK_LINK_RETRAIN_END (R413). -/
def execStackLinkRetrainEnd (stk : Nat) (ok : Bool) (s : State) : Host.Outcome State Fault Refusal :=
  .next (wh (on s) (fun s => kick (linkRetrainEnd stk ok s)) s)

/-- YARD_SCRATCH_ERROR (R413). -/
def execYardScratchError (way : Nat) (fid : Option Nat) (s : State) : Host.Outcome State Fault Refusal :=
  .next (wh (on s) (fun s => kick (scratchError way fid s)) s)

/-- SHARED_UNIT_ERROR (R417). -/
def execSharedUnitError (cause blk inst detail : Nat) (fid tok : Option Nat) (s : State) : Host.Outcome State Fault Refusal :=
  .next (wh (on s) (fun s => match blockOfCode blk with
    | some b => kick (sharedError cause ⟨b, inst⟩ detail fid tok s)
    | none => s) s)

end Sys2Proof.Machine
end

