-- ==== Sys2Proof/Machine/Dispatch.lean ====
section
/-!
DEFINITION. The dispatch: each command to its meaning, one arm per constructor of `Instr`.
-/
namespace Sys2Proof.Machine

/-- The command's effect on everything but the queue. -/
def exec (i : Instr) (s : State) : Host.Outcome State Fault Refusal :=
  match i with
  | .powerUp f entropyFails a => Sys2Proof.Machine.execPowerUp f entropyFails a s
  | .bootBackoffExpiry a => Sys2Proof.Machine.execBootBackoffExpiry a s
  | .powerFail => Sys2Proof.Machine.execPowerFail s
  | .modResetAssert => Sys2Proof.Machine.execModResetAssert s
  | .limiterInterval meanW msMeanW tempC => Sys2Proof.Machine.execLimiterInterval meanW msMeanW tempC s
  | .limiterUndo => Sys2Proof.Machine.execLimiterUndo s
  | .thermalFault => Sys2Proof.Machine.execThermalFault s
  | .thermalFaultClear => Sys2Proof.Machine.execThermalFaultClear s
  | .voltageGuardStretch island => Sys2Proof.Machine.execVoltageGuardStretch island s
  | .adaptiveIdleStep arr => Sys2Proof.Machine.execAdaptiveIdleStep arr s
  | .jtagOpeningInstruction code entropyFails => Sys2Proof.Machine.execJtagOpeningInstruction code entropyFails s
  | .registerWrite part addr data => Sys2Proof.Machine.execRegisterWrite part addr data s
  | .pageCommit part addr data => Sys2Proof.Machine.execPageCommit part addr data s
  | .pageReset part addr => Sys2Proof.Machine.execPageReset part addr s
  | .pageEnable part addr data => Sys2Proof.Machine.execPageEnable part addr data s
  | .pageQuiesce part addr data => Sys2Proof.Machine.execPageQuiesce part addr data s
  | .pageErrClear part addr data => Sys2Proof.Machine.execPageErrClear part addr data s
  | .dspQTailWrite part q data => Sys2Proof.Machine.execDspQTailWrite part q data s
  | .runSet part q => Sys2Proof.Machine.execRunSet part q s
  | .runClear part q => Sys2Proof.Machine.execRunClear part q s
  | .resume part q => Sys2Proof.Machine.execResume part q s
  | .flush part q => Sys2Proof.Machine.execFlush part q s
  | .tokenSetWrite part tok data => Sys2Proof.Machine.execTokenSetWrite part tok data s
  | .tokenAddRead part tok => Sys2Proof.Machine.execTokenAddRead part tok s
  | .tokenAddWrite part tok data => Sys2Proof.Machine.execTokenAddWrite part tok data s
  | .tokenTestDecRead part tok => Sys2Proof.Machine.execTokenTestDecRead part tok s
  | .tokenTestDecWrite part tok data => Sys2Proof.Machine.execTokenTestDecWrite part tok data s
  | .tokenCasWrite part tok data => Sys2Proof.Machine.execTokenCasWrite part tok data s
  | .arrSnap part arr => Sys2Proof.Machine.execArrSnap part arr s
  | .arrClear part arr snap => Sys2Proof.Machine.execArrClear part arr snap s
  | .stkSnap part stk => Sys2Proof.Machine.execStkSnap part stk s
  | .stkClear part stk snap => Sys2Proof.Machine.execStkClear part stk snap s
  | .tplClear part planner => Sys2Proof.Machine.execTplClear part planner s
  | .clearPeak part => Sys2Proof.Machine.execClearPeak part s
  | .memReclaim part data => Sys2Proof.Machine.execMemReclaim part data s
  | .dispatchIssue => Sys2Proof.Machine.execDispatchIssue s
  | .descriptorComplete fid => Sys2Proof.Machine.execDescriptorComplete fid s
  | .move fid => Sys2Proof.Machine.execMove fid s
  | .gemm fid => Sys2Proof.Machine.execGemm fid s
  | .conv fid => Sys2Proof.Machine.execConv fid s
  | .attn fid => Sys2Proof.Machine.execAttn fid s
  | .kvapp fid => Sys2Proof.Machine.execKvapp fid s
  | .scan fid => Sys2Proof.Machine.execScan fid s
  | .reduce fid => Sys2Proof.Machine.execReduce fid s
  | .coll fid => Sys2Proof.Machine.execColl fid s
  | .ewise fid => Sys2Proof.Machine.execEwise fid s
  | .stats fid => Sys2Proof.Machine.execStats fid s
  | .swapOut fid => Sys2Proof.Machine.execSwapOut fid s
  | .swapIn fid => Sys2Proof.Machine.execSwapIn fid s
  | .swapSync fid => Sys2Proof.Machine.execSwapSync fid s
  | .fence q => Sys2Proof.Machine.execFence q s
  | .tokenSet fid => Sys2Proof.Machine.execTokenSet fid s
  | .tokenAdd fid => Sys2Proof.Machine.execTokenAdd fid s
  | .tokenAcquire fid => Sys2Proof.Machine.execTokenAcquire fid s
  | .leaseAcquire fid => Sys2Proof.Machine.execLeaseAcquire fid s
  | .leaseRelease fid => Sys2Proof.Machine.execLeaseRelease fid s
  | .check fid => Sys2Proof.Machine.execCheck fid s
  | .plannerTake => Sys2Proof.Machine.execPlannerTake s
  | .runStart => Sys2Proof.Machine.execRunStart s
  | .chunkDelivery arr isA => Sys2Proof.Machine.execChunkDelivery arr isA s
  | .preloadStall arr => Sys2Proof.Machine.execPreloadStall arr s
  | .tileDrain arr => Sys2Proof.Machine.execTileDrain arr s
  | .stagingWriteAck arr => Sys2Proof.Machine.execStagingWriteAck arr s
  | .partialCombine fid => Sys2Proof.Machine.execPartialCombine fid s
  | .overflowReplay fid => Sys2Proof.Machine.execOverflowReplay fid s
  | .shadowRecompute fid => Sys2Proof.Machine.execShadowRecompute fid s
  | .engineUnitStart fid => Sys2Proof.Machine.execEngineUnitStart fid s
  | .kvappItem fid => Sys2Proof.Machine.execKvappItem fid s
  | .attnCapture fid => Sys2Proof.Machine.execAttnCapture fid s
  | .attnSequenceRun fid => Sys2Proof.Machine.execAttnSequenceRun fid s
  | .kvsCmdOpen part stream => Sys2Proof.Machine.execKvsCmdOpen part stream s
  | .kvsCmdClose part stream => Sys2Proof.Machine.execKvsCmdClose part stream s
  | .kvsCmdUnpark part stream => Sys2Proof.Machine.execKvsCmdUnpark part stream s
  | .kvsCmdTrim part stream => Sys2Proof.Machine.execKvsCmdTrim part stream s
  | .kvsCmdSetBudget part stream => Sys2Proof.Machine.execKvsCmdSetBudget part stream s
  | .kvsCmdAddFrames part => Sys2Proof.Machine.execKvsCmdAddFrames part s
  | .kvsCmdReleased part => Sys2Proof.Machine.execKvsCmdReleased part s
  | .scanAdmit part => Sys2Proof.Machine.execScanAdmit part s
  | .scanChunk fid item head => Sys2Proof.Machine.execScanChunk fid item head s
  | .streamSwapIn part stream => Sys2Proof.Machine.execStreamSwapIn part stream s
  | .swapInComplete part stream => Sys2Proof.Machine.execSwapInComplete part stream s
  | .swapOutComplete part stream => Sys2Proof.Machine.execSwapOutComplete part stream s
  | .scnCmdOpen part stream => Sys2Proof.Machine.execScnCmdOpen part stream s
  | .scnCmdClose part stream => Sys2Proof.Machine.execScnCmdClose part stream s
  | .scnCmdZero part stream => Sys2Proof.Machine.execScnCmdZero part stream s
  | .scnCmdReleased part => Sys2Proof.Machine.execScnCmdReleased part s
  | .collStart fid => Sys2Proof.Machine.execCollStart fid s
  | .segmentSend ctx tree => Sys2Proof.Machine.execSegmentSend ctx tree s
  | .segDown port => Sys2Proof.Machine.execSegDown port s
  | .verdict port => Sys2Proof.Machine.execVerdict port s
  | .collVerdictTimeout ctx => Sys2Proof.Machine.execCollVerdictTimeout ctx s
  | .colCmdOpen part group => Sys2Proof.Machine.execColCmdOpen part group s
  | .colCmdClose part group => Sys2Proof.Machine.execColCmdClose part group s
  | .colCmdAbort part group => Sys2Proof.Machine.execColCmdAbort part group s
  | .colCloseReleased part => Sys2Proof.Machine.execColCloseReleased part s
  | .lreq port => Sys2Proof.Machine.execLreq port s
  | .lgrant port => Sys2Proof.Machine.execLgrant port s
  | .lrefuse port => Sys2Proof.Machine.execLrefuse port s
  | .lkeep port => Sys2Proof.Machine.execLkeep port s
  | .lrel port => Sys2Proof.Machine.execLrel port s
  | .lrelack port => Sys2Proof.Machine.execLrelack port s
  | .lrecl port => Sys2Proof.Machine.execLrecl port s
  | .lunknown port => Sys2Proof.Machine.execLunknown port s
  | .lrd port => Sys2Proof.Machine.execLrd port s
  | .lwr port => Sys2Proof.Machine.execLwr port s
  | .lrdata port => Sys2Proof.Machine.execLrdata port s
  | .lwack port => Sys2Proof.Machine.execLwack port s
  | .leaseAnswerTimeout slot => Sys2Proof.Machine.execLeaseAnswerTimeout slot s
  | .leaseKeepTimer slot => Sys2Proof.Machine.execLeaseKeepTimer slot s
  | .leaseLostTimeout slot => Sys2Proof.Machine.execLeaseLostTimeout slot s
  | .lenderKeepTimeout leaseId => Sys2Proof.Machine.execLenderKeepTimeout leaseId s
  | .reclaimGraceEnd leaseId => Sys2Proof.Machine.execReclaimGraceEnd leaseId s
  | .releaseLrelSend slot => Sys2Proof.Machine.execReleaseLrelSend slot s
  | .releaseAckTimeout slot => Sys2Proof.Machine.execReleaseAckTimeout slot s
  | .sequencedFlitReceive port bytes fecBad threshold => Sys2Proof.Machine.execSequencedFlitReceive port bytes fecBad threshold s
  | .nakReceive port bytes fecBad => Sys2Proof.Machine.execNakReceive port bytes fecBad s
  | .replayTimeout port => Sys2Proof.Machine.execReplayTimeout port s
  | .messageSend port => Sys2Proof.Machine.execMessageSend port s
  | .escapeTimeout port lane => Sys2Proof.Machine.execEscapeTimeout port lane s
  | .retrainRequest port bytes fecBad => Sys2Proof.Machine.execRetrainRequest port bytes fecBad s
  | .pcsLockLoss port => Sys2Proof.Machine.execPcsLockLoss port s
  | .marginCheck port low gapPassed => Sys2Proof.Machine.execMarginCheck port low gapPassed s
  | .pmdTrainDone port ok => Sys2Proof.Machine.execPmdTrainDone port ok s
  | .pcsLockDone port ok => Sys2Proof.Machine.execPcsLockDone port ok s
  | .trainFlitReceive port bytes fecBad => Sys2Proof.Machine.execTrainFlitReceive port bytes fecBad s
  | .authFlitReceive port bytes fecBad => Sys2Proof.Machine.execAuthFlitReceive port bytes fecBad s
  | .authTimeout port => Sys2Proof.Machine.execAuthTimeout port s
  | .portBackoffExpiry port => Sys2Proof.Machine.execPortBackoffExpiry port s
  | .icmpv6NeighborSolicitation port src target => Sys2Proof.Machine.execIcmpv6NeighborSolicitation port src target s
  | .icmpv6EchoRequest port src target data => Sys2Proof.Machine.execIcmpv6EchoRequest port src target data s
  | .hello d => Sys2Proof.Machine.execHello d s
  | .finish d => Sys2Proof.Machine.execFinish d s
  | .handshakeTimeout sid => Sys2Proof.Machine.execHandshakeTimeout sid s
  | .close d => Sys2Proof.Machine.execClose d s
  | .ackonly d => Sys2Proof.Machine.execAckonly d s
  | .reg d => Sys2Proof.Machine.execReg d s
  | .submit d => Sys2Proof.Machine.execSubmit d s
  | .bulkWr d => Sys2Proof.Machine.execBulkWr d s
  | .bulkRd d => Sys2Proof.Machine.execBulkRd d s
  | .subscribe d => Sys2Proof.Machine.execSubscribe d s
  | .moveFill d => Sys2Proof.Machine.execMoveFill d s
  | .movePullTimeout fid => Sys2Proof.Machine.execMovePullTimeout fid s
  | .deviceResend chan seq => Sys2Proof.Machine.execDeviceResend chan seq s
  | .ackDelayExpiry chan => Sys2Proof.Machine.execAckDelayExpiry chan s
  | .sessionLossTimeout chan => Sys2Proof.Machine.execSessionLossTimeout chan s
  | .sessionIdleTimeout chan => Sys2Proof.Machine.execSessionIdleTimeout chan s
  | .memoryRetrainStart lpddr unit ch forced => Sys2Proof.Machine.execMemoryRetrainStart lpddr unit ch forced s
  | .memoryRetrainEnd lpddr unit ch ok holdCycles declared => Sys2Proof.Machine.execMemoryRetrainEnd lpddr unit ch ok holdCycles declared s
  | .wayZeroiseDone way => Sys2Proof.Machine.execWayZeroiseDone way s
  | .yardScrub corrected => Sys2Proof.Machine.execYardScrub corrected s
  | .arrayUncorrectedError arr detail fid => Sys2Proof.Machine.execArrayUncorrectedError arr detail fid s
  | .stackEngineFault stk detail => Sys2Proof.Machine.execStackEngineFault stk detail s
  | .yardScratchError way fid => Sys2Proof.Machine.execYardScratchError way fid s
  | .sharedUnitError cause blk inst detail fid tok => Sys2Proof.Machine.execSharedUnitError cause blk inst detail fid tok s
  | .hopStallFailure segment parts fids => Sys2Proof.Machine.execHopStallFailure segment parts fids s
  | .prtCreate part p entropyFails => Sys2Proof.Machine.execPrtCreate part p entropyFails s
  | .prtDestroy part p => Sys2Proof.Machine.execPrtDestroy part p s
  | .prtSuspend part p => Sys2Proof.Machine.execPrtSuspend part p s
  | .quietPoint p => Sys2Proof.Machine.execQuietPoint p s
  | .saveComplete p cycles => Sys2Proof.Machine.execSaveComplete p cycles s
  | .prtResume part p => Sys2Proof.Machine.execPrtResume part p s
  | .restoreComplete p => Sys2Proof.Machine.execRestoreComplete p s
  | .prtRestart part p entropyFails => Sys2Proof.Machine.execPrtRestart part p entropyFails s
  | .assign part target => Sys2Proof.Machine.execAssign part target s
  | .unassign part => Sys2Proof.Machine.execUnassign part s
  | .lend part => Sys2Proof.Machine.execLend part s
  | .extentZeroed ext => Sys2Proof.Machine.execExtentZeroed ext s
  | .arrayLeaveDone arr => Sys2Proof.Machine.execArrayLeaveDone arr s
  | .rotate part => Sys2Proof.Machine.execRotate part s
  | .attestP part => Sys2Proof.Machine.execAttestP part s
  | .measure part => Sys2Proof.Machine.execMeasure part s
  | .bind part => Sys2Proof.Machine.execBind part s
  | .jobkeyLoad part => Sys2Proof.Machine.execJobkeyLoad part s
  | .jobkeyClear part => Sys2Proof.Machine.execJobkeyClear part s
  | .attestD part => Sys2Proof.Machine.execAttestD part s
  | .sweepBlock part mce => Sys2Proof.Machine.execSweepBlock part mce s
  | .sweepEnd part => Sys2Proof.Machine.execSweepEnd part s
  | .installA part flashOk => Sys2Proof.Machine.execInstallA part flashOk s
  | .installB part flashOk => Sys2Proof.Machine.execInstallB part flashOk s
  | .bootStaged part => Sys2Proof.Machine.execBootStaged part s
  | .eventRecord sramError => Sys2Proof.Machine.execEventRecord sramError s
  | .deferredFlushStart => Sys2Proof.Machine.execDeferredFlushStart s
  | .flushWriteComplete => Sys2Proof.Machine.execFlushWriteComplete s
  | .frameErase => Sys2Proof.Machine.execFrameErase s
  | .evrFlush part => Sys2Proof.Machine.execEvrFlush part s
  | .dump part => Sys2Proof.Machine.execDump part s
  | .ringRead part frame => Sys2Proof.Machine.execRingRead part frame s
  | .evrClear part => Sys2Proof.Machine.execEvrClear part s
  | .hostPortLinkChange port up => Sys2Proof.Machine.execHostPortLinkChange port up s
  | .hostFrameDrop port => Sys2Proof.Machine.execHostFrameDrop port s
  | .stackLinkRetrainEnd stk ok => Sys2Proof.Machine.execStackLinkRetrainEnd stk ok s
  | .sealSenseChange isOpen => Sys2Proof.Machine.execSealSenseChange isOpen s
  | .mr4TemperatureReport pkg code mult => Sys2Proof.Machine.execMr4TemperatureReport pkg code mult s
  | .endOfRunSwap arr feedFreeze drainFreeze bothFreeze => Sys2Proof.Machine.execEndOfRunSwap arr feedFreeze drainFreeze bothFreeze s

end Sys2Proof.Machine
end

