-- ==== Sys2Proof/Safety.lean ====
section
/-!
DEFINITION. What counts as a safe run: every command answers a next state, and every table of the state keeps its canonical
form; and the pieces of the state, in which the frame statements speak.
-/
namespace Sys2Proof.Machine

/-- Memory is in its canonical form: addresses strictly rising, no entry equal to what an unlisted address reads as. -/
abbrev Memory.wf (m : List Host.Cell) : Bool := tabWf memDefault m

/-- The descriptors in flight stand in the order of their numbers, each below the next number to be given. -/
def InIssueOrder (l : List Flight) (next : Nat) : Prop :=
  l.Pairwise (fun f g => f.fid < g.fid) ∧ ∀ f, f ∈ l → f.fid < next

/-- Every table of the state is in its canonical form: keys strictly rising, no entry equal to what an unlisted key reads
as; and the descriptors in flight stand in issue order under numbers of their own. -/
structure Canonical (s : State) : Prop where
  mem : Memory.wf s.mem = true
  regs : tabWf resetWord s.regs = true
  staged : tabWf resetWord s.staged = true
  flash : tabWf flashDefault s.flash = true
  toks : tabWf tokenDefault s.toks = true
  queues : tabWf queueDefault s.queues = true
  arrs : tabWf arrDefault s.arrs = true
  stks : tabWf stkDefault s.stks = true
  exts : tabWf extDefault s.exts = true
  parts : tabWf partDefault s.parts = true
  kvs : tabWf kvsDefault s.kvs = true
  scn : tabWf scnDefault s.scn = true
  ports : tabWf portDefault s.ports = true
  flights : InIssueOrder s.flights s.nextFid

/-- The outcome is a next state that satisfies `P`. -/
def NextIs (o : Host.Outcome State Fault Refusal) (P : State → Prop) : Prop := ∃ t, o = .next t ∧ P t

/-- `g` is the descriptor `f` at a later time: the same descriptor in the same station; work that it has started stays started, a
result stays a result. -/
def Continues (f g : Flight) : Prop :=
  { g with
    snap := f.snap
    work := f.work
    result := f.result
    detail := f.detail
    replays := f.replays } = f ∧ (f.work ≠ .none → g.work ≠ .none) ∧ (f.result ≠ none → g.result ≠ none)

/-- The pieces of the state: its fields; the registers block by block; and of the descriptors in flight, that none is lost. -/
inductive Piece where
  /-- Power, mode and boot. -/
  | pwr
  /-- The stored registers of a block's pages. -/
  | regs (b : Block)
  /-- The staging copies of RWS fields. -/
  | staged
  /-- The status and data of the last access on the register bus. -/
  | bus
  /-- Memory. -/
  | mem
  /-- The flash. -/
  | flash
  /-- The tokens. -/
  | toks
  /-- What the queues hold besides their pages. -/
  | queues
  /-- The queue served last. -/
  | lastServed
  /-- The descriptors in flight. -/
  | flights
  /-- Which descriptors are in flight, and that they do not fall back: none leaves, none changes but in its progress. -/
  | descriptors
  /-- The number of the next descriptor. -/
  | nextFid
  /-- The tile planners. -/
  | planners
  /-- The arrays. -/
  | arrs
  /-- The stack engines. -/
  | stks
  /-- The yard behind its page. -/
  | yard
  /-- Memory retraining. -/
  | retrain
  /-- The extents. -/
  | exts
  /-- The borrower's leases. -/
  | leases
  /-- The lender's leases. -/
  | lends
  /-- Accesses to leased memory in progress. -/
  | accs
  /-- The tag of the next lease access. -/
  | nextTag
  /-- The partitions behind their pages. -/
  | parts
  /-- The KV pools. -/
  | kvs
  /-- The look-aside buffer. -/
  | lab
  /-- The recurrence states. -/
  | scn
  /-- The collective unit. -/
  | col
  /-- The fabric ports. -/
  | ports
  /-- The IV windows of the job keys. -/
  | ivs
  /-- The host interface. -/
  | hif
  /-- The host channels. -/
  | chans
  /-- The device's security state. -/
  | sec
  /-- The partitions' security state. -/
  | secs
  /-- SEC commands in progress. -/
  | secJobs
  /-- Lost accesses to leased memory. -/
  | lostFids
  /-- The memory crypto engines. -/
  | mce
  /-- The event recorder. -/
  | evr
  /-- What the block has sent without a sequence number. -/
  | out
  /-- The counter of free values. -/
  | freeCtr
  /-- The queue of commands. -/
  | pending
deriving DecidableEq, Repr

/-- The piece is the same in both states. -/
def Same (k : Piece) (s t : State) : Prop :=
  match k with
  | .pwr => t.pwr = s.pwr
  | .regs b => ∀ k, k / 2 ^ 20 = blockCode b → tabGet resetWord t.regs k = tabGet resetWord s.regs k
  | .staged => t.staged = s.staged
  | .bus => t.bus = s.bus
  | .mem => t.mem = s.mem
  | .flash => t.flash = s.flash
  | .toks => t.toks = s.toks
  | .queues => t.queues = s.queues
  | .lastServed => t.lastServed = s.lastServed
  | .flights => t.flights = s.flights
  | .descriptors => ∀ f, f ∈ s.flights → ∃ g, g ∈ t.flights ∧ Continues f g
  | .nextFid => t.nextFid = s.nextFid
  | .planners => t.planners = s.planners
  | .arrs => t.arrs = s.arrs
  | .stks => t.stks = s.stks
  | .yard => t.yard = s.yard
  | .retrain => t.retrain = s.retrain
  | .exts => t.exts = s.exts
  | .leases => t.leases = s.leases
  | .lends => t.lends = s.lends
  | .accs => t.accs = s.accs
  | .nextTag => t.nextTag = s.nextTag
  | .parts => t.parts = s.parts
  | .kvs => t.kvs = s.kvs
  | .lab => t.lab = s.lab
  | .scn => t.scn = s.scn
  | .col => t.col = s.col
  | .ports => t.ports = s.ports
  | .ivs => t.ivs = s.ivs
  | .hif => t.hif = s.hif
  | .chans => t.chans = s.chans
  | .sec => t.sec = s.sec
  | .secs => t.secs = s.secs
  | .secJobs => t.secJobs = s.secJobs
  | .lostFids => t.lostFids = s.lostFids
  | .mce => t.mce = s.mce
  | .evr => t.evr = s.evr
  | .out => t.out = s.out
  | .freeCtr => t.freeCtr = s.freeCtr
  | .pending => t.pending = s.pending

/-- Only the pieces in `l` differ between the two states. -/
def Only (l : List Piece) (s t : State) : Prop := ∀ k, k ∉ l → Same k s t

/-- Only bits of the fields in `l` differ between the registers of the two states. -/
def OnlyFields (l : List (Page × Fld)) (s t : State) : Prop :=
  ∀ k b, b < 32 → (∀ x, x ∈ l → k ≠ regKey x.1 x.2.off ∨ b < x.2.lo ∨ x.2.hi < b) →
    (tabGet resetWord t.regs k).getLsbD b = (tabGet resetWord s.regs k).getLsbD b

/-- The device is out of reset and no power failure has been recognised. -/
def Running (s : State) : Prop := s.pwr.mode = .running

/-- The device runs and its boot sequencer has reached DONE: every page is open. -/
def Ready (s : State) : Prop := Running s ∧ bootDone s = true

/-- Every piece. -/
def Piece.all : List Piece :=
  allBlocks.map Piece.regs ++ [.pwr, .staged, .bus, .mem, .flash, .toks, .queues, .lastServed, .flights, .descriptors,
    .nextFid, .planners, .arrs, .stks, .yard, .retrain, .exts, .leases, .lends, .accs, .nextTag, .parts, .kvs, .lab,
    .scn, .col, .ports, .ivs, .hif, .chans, .sec, .secs, .secJobs, .lostFids, .mce, .evr, .out, .freeCtr, .pending]

/-- The registers of every block. -/
def allRegs : List Piece := allBlocks.map Piece.regs

/-- What an access to memory can change: the bytes and their freshness, the yard, accesses to leased memory and their messages,
counters, and the records of what was found. -/
def memAccess : List Piece :=
  [.regs .yrd, .regs .mem, .regs .lpd, .regs .mce, .regs .sec, .regs .ras, .regs .evr, .mem, .yard, .accs, .nextTag,
    .ports, .mce, .evr, .freeCtr]

/-- What a change of a partition can change. -/
def teardownTouch : List Piece :=
  [.regs .hif, .regs .dsp, .regs .prt, .regs .yrd, .regs .mem, .regs .lpd, .regs .mce, .regs .kvs, .regs .scn,
    .regs .col, .regs .sec, .regs .ras, .regs .evr, .staged, .bus, .mem, .toks, .queues, .flights, .descriptors,
    .planners, .arrs, .stks, .yard, .retrain, .exts, .leases, .accs, .nextTag, .parts, .kvs, .lab, .scn, .col, .ports,
    .hif, .chans, .sec, .secs, .secJobs, .lostFids, .mce, .evr, .out, .freeCtr]

/-- What a command can change that reaches any unit of the device: a register write, what a host asks for, a fault that ends what
a unit was doing, a completion that such a request waited for. The round of the queues and the IV windows are no part of it. -/
def anyUnit : List Piece :=
  Piece.all.filter fun k => k != .lastServed && k != .ivs && k != .pending

/-- The pieces that a command can change: it leaves every other piece as it was. -/
def touches (i : Instr) : List Piece :=
  match i with
  | .powerUp .. => anyUnit
  | .bootBackoffExpiry .. => anyUnit
  | .powerFail => [.pwr, .flash, .evr, .freeCtr]
  | .modResetAssert => (Piece.all.filter fun k => k != .freeCtr && k != .pending)
  | .limiterInterval .. => [.pwr, .regs .pwr, .regs .clk, .regs .ras, .regs .evr, .evr, .freeCtr]
  | .limiterUndo => [.pwr, .regs .pwr, .regs .clk]
  | .thermalFault => [.regs .pwr, .regs .clk, .regs .ras, .regs .evr, .evr, .freeCtr]
  | .thermalFaultClear => [.regs .pwr, .regs .clk]
  | .voltageGuardStretch .. => [.regs .pwr, .regs .ras, .regs .evr, .evr, .freeCtr]
  | .adaptiveIdleStep .. => [.regs .clk]
  | .jtagOpeningInstruction .. => memAccess ++ [.regs .hif, .regs .fab, .flights, .arrs, .stks, .retrain, .col, .hif,
    .chans, .sec, .secs, .secJobs, .lostFids]
  | .registerWrite .. => anyUnit
  | .pageCommit .. => allRegs ++ [.staged, .bus, .mem, .toks, .queues, .flights, .descriptors, .arrs, .stks, .yard,
    .retrain, .leases, .accs, .nextTag, .parts, .kvs, .lab, .scn, .col, .ports, .hif, .chans, .lostFids, .mce, .evr,
    .out, .freeCtr]
  | .pageReset .. => allRegs ++ [.staged, .bus, .mem, .toks, .queues, .flights, .descriptors, .arrs, .stks, .yard,
    .retrain, .leases, .accs, .nextTag, .parts, .kvs, .lab, .scn, .col, .ports, .hif, .chans, .lostFids, .mce, .evr,
    .out, .freeCtr]
  | .pageEnable .. => allRegs ++ [.bus, .mem, .flights, .arrs, .stks, .retrain, .leases, .accs, .col, .ports, .hif,
    .chans, .lostFids, .evr, .out, .freeCtr]
  | .pageQuiesce .. => allRegs ++ [.bus, .mem, .flights, .arrs, .stks, .retrain, .leases, .accs, .col, .ports, .hif,
    .chans, .lostFids, .evr, .out, .freeCtr]
  | .pageErrClear .. => allRegs ++ [.bus]
  | .dspQTailWrite .. => [.regs .hif, .regs .dsp, .regs .yrd, .regs .mem, .regs .lpd, .regs .mce, .regs .sec,
    .regs .ras, .regs .evr, .bus, .queues, .nextFid, .yard, .retrain, .accs, .nextTag, .ports, .chans, .evr, .out,
    .freeCtr]
  | .runSet .. => [.regs .hif, .regs .dsp, .regs .yrd, .regs .mem, .regs .lpd, .regs .mce, .regs .sec, .regs .ras,
    .regs .evr, .bus, .queues, .nextFid, .yard, .retrain, .accs, .nextTag, .ports, .chans, .evr, .out, .freeCtr]
  | .runClear .. => [.regs .dsp, .bus]
  | .resume .. => [.regs .hif, .regs .dsp, .regs .yrd, .regs .mem, .regs .lpd, .regs .mce, .regs .sec, .regs .ras,
    .regs .evr, .bus, .queues, .nextFid, .yard, .retrain, .accs, .nextTag, .ports, .chans, .evr, .out, .freeCtr]
  | .flush .. => [.regs .dsp, .bus, .queues, .flights, .descriptors, .retrain, .accs]
  | .tokenSetWrite .. => [.regs .tok, .regs .ras, .regs .evr, .bus, .toks, .flights, .evr, .freeCtr]
  | .tokenAddRead .. => [.regs .tok, .regs .ras, .regs .evr, .bus, .toks, .flights, .evr, .freeCtr]
  | .tokenAddWrite .. => [.regs .tok, .regs .ras, .regs .evr, .bus, .toks, .flights, .evr, .freeCtr]
  | .tokenTestDecRead .. => [.regs .tok, .regs .ras, .regs .evr, .bus, .toks, .flights, .evr, .freeCtr]
  | .tokenTestDecWrite .. => [.regs .tok, .regs .ras, .regs .evr, .bus, .toks, .flights, .evr, .freeCtr]
  | .tokenCasWrite .. => [.regs .tok, .regs .ras, .regs .evr, .bus, .toks, .flights, .evr, .freeCtr]
  | .arrSnap .. => [.regs .arr, .bus, .arrs]
  | .arrClear .. => [.regs .arr, .bus, .arrs]
  | .stkSnap .. => [.regs .stk, .bus, .stks]
  | .stkClear .. => [.regs .stk, .bus, .stks]
  | .tplClear .. => [.regs .tpl, .bus]
  | .clearPeak .. => [.regs .pwr, .bus]
  | .memReclaim .. => [.bus, .lends, .ports]
  | .dispatchIssue => memAccess ++ [.regs .hif, .regs .dsp, .regs .tok, .toks, .queues, .lastServed, .flights,
    .nextFid, .retrain, .leases, .chans, .out]
  | .descriptorComplete .. => memAccess ++ [.regs .hif, .regs .dsp, .regs .tok, .regs .kvs, .regs .scn, .toks,
    .queues, .flights, .descriptors, .retrain, .lab, .scn, .chans, .out]
  | .move .. => memAccess ++ [.regs .hif, .flights, .arrs, .stks, .retrain, .col, .hif, .chans, .out]
  | .gemm .. => memAccess ++ [.regs .dsp, .regs .tpl, .regs .clk, .flights, .planners, .arrs, .retrain]
  | .conv .. => memAccess ++ [.regs .dsp, .regs .tpl, .regs .clk, .flights, .planners, .arrs, .stks, .retrain]
  | .attn .. => memAccess ++ [.regs .dsp, .regs .kvs, .regs .clk, .flights, .arrs, .stks, .retrain, .lab]
  | .kvapp .. => memAccess ++ [.regs .tok, .regs .kvs, .toks, .flights, .stks, .retrain, .kvs, .lab]
  | .scan .. => memAccess ++ [.regs .dsp, .regs .scn, .regs .clk, .flights, .arrs, .stks, .retrain, .scn]
  | .reduce .. => memAccess ++ [.flights, .stks, .retrain]
  | .coll .. => [.flights, .col]
  | .ewise .. => memAccess ++ [.flights, .stks, .retrain]
  | .stats .. => memAccess ++ [.flights, .stks, .retrain]
  | .swapOut .. => memAccess ++ [.regs .scn, .flights, .stks, .scn]
  | .swapIn .. => memAccess ++ [.regs .scn, .flights, .stks, .scn]
  | .swapSync .. => memAccess ++ [.regs .scn, .flights, .stks, .scn]
  | .fence .. => memAccess ++ [.regs .hif, .regs .dsp, .regs .tok, .toks, .queues, .lastServed, .flights, .nextFid,
    .retrain, .leases, .chans, .out]
  | .tokenSet .. => [.toks, .flights]
  | .tokenAdd .. => [.regs .tok, .regs .ras, .regs .evr, .toks, .flights, .evr, .freeCtr]
  | .tokenAcquire .. => [.toks, .flights]
  | .leaseAcquire .. => [.leases, .ports]
  | .leaseRelease .. => [.flights, .leases]
  | .check .. => [.regs .tpl, .regs .yrd, .regs .mem, .regs .lpd, .regs .mce, .regs .sec, .regs .ras, .regs .evr,
    .flights, .arrs, .yard, .retrain, .accs, .nextTag, .ports, .evr, .freeCtr]
  | .plannerTake => [.regs .dsp, .regs .tpl, .regs .yrd, .regs .mem, .regs .lpd, .regs .mce, .regs .sec, .regs .ras,
    .regs .evr, .flights, .planners, .arrs, .yard, .retrain, .accs, .nextTag, .ports, .evr, .freeCtr]
  | .runStart => [.regs .dsp, .regs .tpl, .regs .yrd, .regs .mem, .regs .lpd, .regs .mce, .regs .sec, .regs .clk,
    .regs .ras, .regs .evr, .flights, .arrs, .yard, .retrain, .accs, .nextTag, .ports, .evr, .freeCtr]
  | .chunkDelivery .. => [.regs .tpl, .regs .yrd, .regs .mem, .regs .lpd, .regs .mce, .regs .sec, .regs .ras,
    .regs .evr, .flights, .arrs, .yard, .retrain, .accs, .nextTag, .ports, .evr, .freeCtr]
  | .preloadStall .. => [.regs .yrd, .regs .mem, .regs .lpd, .regs .mce, .regs .sec, .regs .ras, .regs .evr, .flights,
    .arrs, .yard, .retrain, .accs, .nextTag, .ports, .evr, .freeCtr]
  | .tileDrain .. => [.regs .yrd, .regs .mem, .regs .lpd, .regs .mce, .regs .sec, .regs .ras, .regs .evr, .mem,
    .flights, .arrs, .yard, .retrain, .accs, .nextTag, .ports, .evr, .freeCtr]
  | .stagingWriteAck .. => memAccess ++ [.flights, .arrs, .retrain]
  | .partialCombine .. => [.regs .yrd, .regs .mem, .regs .lpd, .regs .mce, .regs .sec, .regs .ras, .regs .evr, .mem,
    .flights, .arrs, .yard, .retrain, .accs, .nextTag, .ports, .evr, .freeCtr]
  | .overflowReplay .. => memAccess ++ [.flights, .stks, .retrain]
  | .shadowRecompute .. => [.regs .tpl, .regs .yrd, .regs .mem, .regs .lpd, .regs .mce, .regs .sec, .regs .ras,
    .regs .evr, .flights, .arrs, .yard, .retrain, .accs, .nextTag, .ports, .evr, .freeCtr]
  | .engineUnitStart .. => [.stks]
  | .kvappItem .. => memAccess ++ [.regs .tok, .regs .kvs, .toks, .flights, .stks, .retrain, .kvs, .lab]
  | .attnCapture .. => [.regs .mem, .regs .lpd, .regs .mce, .regs .sec, .regs .ras, .regs .evr, .flights, .retrain,
    .evr, .freeCtr]
  | .attnSequenceRun .. => memAccess ++ [.regs .dsp, .regs .kvs, .regs .clk, .flights, .arrs, .stks, .retrain, .lab]
  | .kvsCmdOpen .. => memAccess ++ [.regs .kvs, .bus, .kvs, .lab]
  | .kvsCmdClose .. => memAccess ++ [.regs .kvs, .bus, .kvs, .lab]
  | .kvsCmdUnpark .. => memAccess ++ [.regs .kvs, .bus, .kvs, .lab]
  | .kvsCmdTrim .. => memAccess ++ [.regs .kvs, .bus, .kvs, .lab]
  | .kvsCmdSetBudget .. => memAccess ++ [.regs .kvs, .bus, .kvs, .lab]
  | .kvsCmdAddFrames .. => memAccess ++ [.regs .kvs, .bus, .kvs, .lab]
  | .kvsCmdReleased .. => memAccess ++ [.regs .kvs, .kvs, .lab]
  | .scanAdmit .. => memAccess ++ [.regs .scn, .flights, .retrain]
  | .scanChunk .. => memAccess ++ [.regs .dsp, .regs .clk, .flights, .arrs, .retrain]
  | .streamSwapIn .. => memAccess ++ [.flights, .scn]
  | .swapInComplete .. => memAccess ++ [.regs .scn, .flights, .stks, .scn]
  | .swapOutComplete .. => memAccess ++ [.regs .scn, .stks, .scn]
  | .scnCmdOpen .. => memAccess ++ [.regs .scn, .bus, .stks, .scn]
  | .scnCmdClose .. => memAccess ++ [.regs .scn, .bus, .stks, .scn]
  | .scnCmdZero .. => memAccess ++ [.regs .scn, .bus, .stks, .scn]
  | .scnCmdReleased .. => memAccess ++ [.regs .scn, .stks, .scn]
  | .collStart .. => memAccess ++ [.regs .col, .flights, .retrain, .col]
  | .segmentSend .. => [.regs .yrd, .regs .mem, .regs .lpd, .regs .mce, .regs .col, .regs .sec, .regs .ras,
    .regs .evr, .mem, .flights, .yard, .retrain, .accs, .nextTag, .col, .ports, .evr, .freeCtr]
  | .segDown .. => memAccess ++ [.regs .col, .flights, .retrain, .col]
  | .verdict .. => memAccess ++ [.regs .col, .flights, .col]
  | .collVerdictTimeout .. => [.regs .col, .regs .ras, .regs .evr, .mem, .flights, .col, .ports, .evr, .freeCtr]
  | .colCmdOpen .. => memAccess ++ [.regs .col, .bus, .flights, .col]
  | .colCmdClose .. => memAccess ++ [.regs .col, .bus, .flights, .col]
  | .colCmdAbort .. => memAccess ++ [.regs .col, .bus, .flights, .col]
  | .colCloseReleased .. => memAccess ++ [.regs .col, .flights, .col]
  | .lreq .. => [.regs .yrd, .regs .mem, .mem, .yard, .exts, .lends, .ports, .mce]
  | .lgrant .. => [.flights, .leases, .ports]
  | .lrefuse .. => [.flights, .leases, .ports]
  | .lkeep .. => [.lends, .ports]
  | .lrel .. => [.regs .yrd, .mem, .yard, .exts, .lends, .ports, .mce]
  | .lrelack .. => [.flights, .leases, .ports]
  | .lrecl .. => [.regs .hif, .leases, .ports, .chans, .out]
  | .lunknown .. => anyUnit
  | .lrd .. => [.regs .yrd, .regs .mem, .regs .lpd, .regs .mce, .regs .sec, .regs .ras, .regs .evr, .yard, .ports,
    .evr, .freeCtr]
  | .lwr .. => memAccess
  | .lrdata .. => anyUnit
  | .lwack .. => anyUnit
  | .leaseAnswerTimeout .. => [.flights, .leases]
  | .leaseKeepTimer .. => [.leases, .ports]
  | .leaseLostTimeout .. => anyUnit
  | .lenderKeepTimeout .. => [.regs .yrd, .regs .mem, .mem, .yard, .exts, .lends, .mce]
  | .reclaimGraceEnd .. => [.regs .yrd, .regs .mem, .mem, .yard, .exts, .lends, .mce]
  | .releaseLrelSend .. => [.leases, .ports]
  | .releaseAckTimeout .. => [.flights, .leases]
  | .sequencedFlitReceive .. => [.regs .mem, .regs .fab, .regs .sec, .regs .ras, .regs .evr, .ports, .ivs, .sec, .evr,
    .out, .freeCtr]
  | .nakReceive .. => [.regs .mem, .regs .fab, .regs .sec, .regs .ras, .regs .evr, .ports, .ivs, .sec, .evr, .out,
    .freeCtr]
  | .replayTimeout .. => [.regs .fab, .regs .ras, .regs .evr, .ports, .evr, .out, .freeCtr]
  | .messageSend .. => [.regs .mem, .regs .fab, .regs .ras, .regs .evr, .ports, .secs, .evr, .out, .freeCtr]
  | .escapeTimeout .. => [.regs .fab, .ports]
  | .retrainRequest .. => [.regs .mem, .regs .fab, .regs .sec, .regs .ras, .regs .evr, .ports, .ivs, .sec, .evr, .out,
    .freeCtr]
  | .pcsLockLoss .. => [.regs .fab, .regs .ras, .regs .evr, .ports, .evr, .freeCtr]
  | .marginCheck .. => [.regs .fab, .ports]
  | .pmdTrainDone .. => [.ports, .out]
  | .pcsLockDone .. => [.ports, .out]
  | .trainFlitReceive .. => [.regs .mem, .regs .fab, .regs .sec, .regs .ras, .regs .evr, .ports, .ivs, .sec, .evr,
    .out, .freeCtr]
  | .authFlitReceive .. => [.regs .mem, .regs .fab, .regs .sec, .regs .ras, .regs .evr, .ports, .ivs, .sec, .evr,
    .out, .freeCtr]
  | .authTimeout .. => [.regs .sec, .ports]
  | .portBackoffExpiry .. => [.regs .fab, .ports]
  | .icmpv6NeighborSolicitation .. => [.regs .hif, .out]
  | .icmpv6EchoRequest .. => [.regs .hif, .out]
  | .hello .. => anyUnit
  | .finish .. => anyUnit
  | .handshakeTimeout .. => [.hif]
  | .close .. => anyUnit
  | .ackonly .. => anyUnit
  | .reg .. => anyUnit
  | .submit .. => anyUnit
  | .bulkWr .. => anyUnit
  | .bulkRd .. => anyUnit
  | .subscribe .. => anyUnit
  | .moveFill .. => anyUnit
  | .movePullTimeout .. => [.regs .hif, .regs .ras, .regs .evr, .flights, .arrs, .stks, .retrain, .accs, .col, .hif,
    .evr, .freeCtr]
  | .deviceResend .. => [.regs .hif, .chans, .out]
  | .ackDelayExpiry .. => [.regs .hif, .chans, .out]
  | .sessionLossTimeout .. => [.regs .hif, .regs .ras, .regs .evr, .flights, .arrs, .stks, .retrain, .accs, .col,
    .hif, .chans, .evr, .freeCtr]
  | .sessionIdleTimeout .. => [.regs .hif, .regs .ras, .regs .evr, .flights, .arrs, .stks, .retrain, .accs, .col,
    .hif, .chans, .evr, .freeCtr]
  | .memoryRetrainStart .. => [.regs .mem, .regs .lpd, .regs .ras, .regs .evr, .retrain, .evr, .freeCtr]
  | .memoryRetrainEnd .. => anyUnit
  | .wayZeroiseDone .. => anyUnit
  | .yardScrub .. => [.regs .ras, .regs .evr, .evr, .freeCtr]
  | .arrayUncorrectedError .. => memAccess ++ [.regs .dev, .regs .hif, .regs .dsp, .regs .tok, .regs .prt, .regs .arr,
    .regs .kvs, .regs .scn, .regs .col, .toks, .queues, .flights, .descriptors, .planners, .arrs, .stks, .retrain,
    .leases, .parts, .kvs, .lab, .scn, .col, .hif, .chans, .secs, .secJobs, .lostFids, .out]
  | .stackEngineFault .. => anyUnit
  | .yardScratchError .. => anyUnit
  | .sharedUnitError .. => anyUnit
  | .hopStallFailure .. => memAccess ++ [.regs .hif, .regs .dsp, .regs .tok, .regs .prt, .regs .kvs, .regs .scn,
    .regs .col, .toks, .queues, .flights, .descriptors, .planners, .arrs, .stks, .retrain, .leases, .parts, .kvs,
    .lab, .scn, .col, .hif, .chans, .secs, .secJobs, .lostFids, .out]
  | .prtCreate .. => teardownTouch
  | .prtDestroy .. => teardownTouch
  | .prtSuspend .. => teardownTouch
  | .quietPoint .. => memAccess ++ [.flights, .arrs, .retrain, .parts]
  | .saveComplete .. => memAccess ++ [.regs .prt, .regs .scn, .staged, .stks, .parts, .scn]
  | .prtResume .. => teardownTouch
  | .restoreComplete .. => memAccess ++ [.regs .hif, .regs .dsp, .regs .prt, .queues, .nextFid, .retrain, .parts,
    .chans, .out]
  | .prtRestart .. => teardownTouch
  | .assign .. => [.regs .prt, .bus, .exts, .secs, .mce]
  | .unassign .. => [.regs .prt, .bus, .exts, .secs, .mce]
  | .lend .. => [.regs .prt, .bus, .exts, .secs, .mce]
  | .extentZeroed .. => [.regs .prt, .regs .yrd, .mem, .yard, .exts, .mce]
  | .arrayLeaveDone .. => [.parts]
  | .rotate .. => memAccess ++ [.bus, .nextFid, .retrain, .sec, .secs, .secJobs, .lostFids]
  | .attestP .. => memAccess ++ [.bus, .nextFid, .retrain, .sec, .secs, .secJobs, .lostFids]
  | .measure .. => memAccess ++ [.bus, .nextFid, .retrain, .sec, .secs, .secJobs, .lostFids]
  | .bind .. => memAccess ++ [.bus, .nextFid, .retrain, .sec, .secs, .secJobs, .lostFids]
  | .jobkeyLoad .. => memAccess ++ [.bus, .nextFid, .retrain, .sec, .secs, .secJobs, .lostFids]
  | .jobkeyClear .. => memAccess ++ [.bus, .nextFid, .retrain, .sec, .secs, .secJobs, .lostFids]
  | .attestD .. => memAccess ++ [.bus, .nextFid, .retrain, .sec, .secs, .secJobs, .lostFids]
  | .sweepBlock .. => [.regs .yrd, .regs .mce, .regs .sec, .regs .ras, .regs .evr, .yard, .secs, .mce, .evr, .freeCtr]
  | .sweepEnd .. => [.secs]
  | .installA .. => memAccess ++ [.pwr, .regs .boot, .bus, .flash, .sec]
  | .installB .. => memAccess ++ [.pwr, .regs .boot, .bus, .flash, .sec]
  | .bootStaged .. => memAccess ++ [.pwr, .regs .boot, .bus, .flash, .sec]
  | .eventRecord .. => [.regs .ras, .regs .evr, .evr, .freeCtr]
  | .deferredFlushStart => [.evr, .freeCtr]
  | .flushWriteComplete => [.flash, .evr]
  | .frameErase => [.flash, .evr]
  | .evrFlush .. => memAccess ++ [.bus]
  | .dump .. => memAccess ++ [.bus]
  | .ringRead .. => memAccess ++ [.bus]
  | .evrClear .. => memAccess ++ [.bus]
  | .hostPortLinkChange .. => [.regs .hif]
  | .hostFrameDrop .. => [.regs .hif]
  | .stackLinkRetrainEnd .. => anyUnit
  | .sealSenseChange .. => [.sec]
  | .mr4TemperatureReport .. => [.regs .lpd]
  | .endOfRunSwap .. => [.arrs]

/-- No access is held: no channel is under retraining, no way is being cleared, and no request waits at a channel (R228, R241). -/
def NothingHeld (s : State) : Prop := s.retrain.held = [] ∧ s.retrain.waiting = [] ∧ s.yard.zeroising = []

/-- Token `k` holds `v`, and every other token is as it was. -/
def TokenIs (k : Nat) (v : Token) (s t : State) : Prop := tok t k = v ∧ ∀ j, j ≠ k → tok t j = tok s j

/-- Token `k` becomes `v`; no other token and nothing but the answer of the bus changes. -/
def TokenBecomes (k : Nat) (v : Token) (s t : State) : Prop := TokenIs k v s t ∧ Only [.toks, .bus] s t

/-- The descriptor `f`, in flight under number `fid`, has been taken up: it is still in flight, the same descriptor, and its
station has work on it or has given its result. -/
def TakenUp (fid : Nat) (f : Flight) (t : State) : Prop :=
  ∃ g, flightOf t fid = some g ∧ Continues f g ∧ (g.work ≠ .none ∨ g.result ≠ none)

/-- The byte that the last write of a list puts at an address. -/
def writtenAt (l : List (Nat × List Byte)) (a : Nat) : Option Byte :=
  l.foldl (fun r x => if x.1 ≤ a ∧ a < x.1 + x.2.length then some (x.2.getD (a - x.1) 0) else r) none

/-- Every byte reads as the last write of the list left it, and as before where none wrote. -/
def MemHolds (l : List (Nat × List Byte)) (s t : State) : Prop := ∀ a, rd1 t a = (writtenAt l a).getD (rd1 s a)

/-- A register field has counted up by `n`; it wraps at its width. -/
def CountsUp (pg : Page) (f : Fld) (n : Nat) (s t : State) : Prop := rg t pg f = (rg s pg f + n) % 2 ^ (f.hi + 1 - f.lo)

/-- Every channel of partition `p` with a session whose mask selects the notification, and room for it, has been handed it (R337). -/
def Notified (p : Nat) (n : Note) (s t : State) : Prop :=
  bit n.kind (rg s (kindPage n.kind p) Fld.PAGE_NOTIFY_EN) = true →
    ∀ c x m, c < 64 → rg s (pgCh c) Fld.HIF_CH_CFG_PART = p → sessOf s c = some x → x.mask = some m → bit (kindBit n.kind) m = true →
      (x.out.filter fun k => k.ptype == 0x30).length < 1024 →
      ∃ y k, sessOf t c = some y ∧ k ∈ y.out ∧ k.seq = x.txNext ∧ k.ptype = 0x30 ∧ k.body = noteBody n x.lost

/-- How often an event has been counted at its source since the recorder last took its key. -/
def keyCount (s : State) (k : EvKey) : Nat :=
  match (tabGet coalDefault s.evr.coal (srcKey k.src)).find? fun e => decide (e.1 = k) with
  | some e => e.2.count
  | none => 0

/-- An event of a key and a severity has been counted: at its source, or among those dropped there; both counts saturate. -/
def Counted (k : EvKey) (sev : Nat) (s t : State) : Prop :=
  keyCount t k = min 0xFFFFFFFF (keyCount s k + 1) ∨ rg s pgEvr (fldAt Fld.EVR_DROP sev) < rg t pgEvr (fldAt Fld.EVR_DROP sev) ∨
    rg t pgEvr (fldAt Fld.EVR_DROP sev) = 0xFFFFFFFF

/-- The commands that are accesses to pages or tokens that stay shut until the boot sequencer is DONE (R408). -/
def needsDone (i : Instr) : Bool :=
  match i with
  | .dspQTailWrite .. => true
  | .runSet .. => true
  | .runClear .. => true
  | .resume .. => true
  | .flush .. => true
  | .tokenSetWrite .. => true
  | .tokenAddRead .. => true
  | .tokenAddWrite .. => true
  | .tokenTestDecRead .. => true
  | .tokenTestDecWrite .. => true
  | .tokenCasWrite .. => true
  | .arrSnap .. => true
  | .arrClear .. => true
  | .tplClear .. => true
  | .stkSnap .. => true
  | .stkClear .. => true
  | .memReclaim .. => true
  | .kvsCmdOpen .. => true
  | .kvsCmdClose .. => true
  | .kvsCmdUnpark .. => true
  | .kvsCmdTrim .. => true
  | .kvsCmdSetBudget .. => true
  | .kvsCmdAddFrames .. => true
  | .scnCmdOpen .. => true
  | .scnCmdClose .. => true
  | .scnCmdZero .. => true
  | .colCmdOpen .. => true
  | .colCmdClose .. => true
  | .colCmdAbort .. => true
  | .rotate .. => true
  | .attestP .. => true
  | .measure .. => true
  | .bind .. => true
  | .jobkeyLoad .. => true
  | .jobkeyClear .. => true
  | .attestD .. => true
  | .prtCreate .. => true
  | .prtDestroy .. => true
  | .prtSuspend .. => true
  | .prtResume .. => true
  | .prtRestart .. => true
  | .assign .. => true
  | .unassign .. => true
  | .lend .. => true
  | _ => false

end Sys2Proof.Machine
end

