-- ==== Sys2Proof/Certificates/Slice0/Obligations.lean ====
section
/-!
DEFINITION. The statements for the provers.
-/
open Sys2Proof Sys2Proof.Machine

/-- With command c at the front of the queue, step is exec of c on the state with the queue's rest. -/
def Obligations.StepRunsTheFrontCommand : Prop :=
  ∀ (c : Instr) (s : State), step { s with pending := c :: s.pending } = exec c { s with pending := s.pending }

/-- With no command waiting, step leaves the state as it is. This is the model's own choice (log entry 10). -/
def Obligations.AnEmptyQueueIdles : Prop :=
  ∀ s : State, s.pending = [] → step s = .next s

/-- At reset every table is in its canonical form and no descriptor is in flight. It rests on readings or choices of the model:
log entries 1 and 6. -/
def Obligations.ResetIsCanonical : Prop :=
  Canonical State.reset ∧ State.reset.flights = []

/-- From every state whose tables are canonical (keys strictly rising, no entry equal to what an unlisted key reads as) and
whose descriptors in flight stand in the order of their numbers, each below the next number to be given, every step leads to
such a state. Equal memories, registers, tokens and tables are then equal data, and a number names one descriptor. -/
def Obligations.EveryStepKeepsTheTables : Prop :=
  ∀ s t : State, Canonical s → step s = .next t → Canonical t

/-- From every state every command answers a next state, and leaves every piece of the state that the table `touches` does not
name for it as it was: memory, flash, the registers of each block, tokens, queues, engines, links, sessions, keys. Where the
table does not name the piece `descriptors`, every descriptor in flight stays in flight, unchanged but in its progress. No
command touches the queue of commands. -/
def Obligations.EveryCommandChangesOnlyItsPieces : Prop :=
  ∀ (c : Instr) (s : State), NextIs (exec c s) (Only (touches c) s) ∧ Piece.pending ∉ touches c

/-- While MOD_RESET_N is low, and once a power failure is recognised, a command other than a power-up, a fall of MOD_RESET_N, a
change of the seal and the end of the flush in progress changes nothing; and a power-up changes nothing unless MOD_RESET_N
is low. It rests on a reading or a choice of the model: log entry 35. -/
def Obligations.OutsideRunningNothingActs : Prop :=
  ∀ (c : Instr) (s : State), ¬Running s →
    (∀ f n a, c = .powerUp f n a → s.pwr.mode ≠ .inReset) → c ≠ .modResetAssert → (∀ b, c ≠ .sealSenseChange b) →
    c ≠ .flushWriteComplete → exec c s = .next s

/-- While the boot sequencer has not reached DONE, every command that is an access to a page or a token that R408 shuts answers
PARTITION_VIOLATION with data 0 and changes nothing else. It rests on a reading or a choice of the model: log entry 98. -/
def Obligations.BeforeDonePagesAnswerViolation : Prop :=
  ∀ (c : Instr) (s : State), Running s → bootDone s = false → needsDone c = true → exec c s = .next { s with bus := (0x20, 0) }

/-- A write by the owner of a token that no ACQUIRE waits on: to the set alias it sets VALUE and advances GEN modulo 4,096; to
the compare-and-set alias it does so if GEN equals bits 47 to 36 of the data, else nothing; to the test-and-decrement alias
it subtracts if VALUE is large enough, else nothing. No other token and nothing else changes; the access answers OK. -/
def Obligations.TokenWindowWrites : Prop :=
  ∀ (part k data : Nat) (s : State), Ready s → (tok s k).owner = part → (tok s k).poisoned = false → heldOn s k = [] →
    let old := tok s k
    let put : Token := { old with
      value := data % 2 ^ 32
      gen := (old.gen + 1) % 4096 }
    NextIs (exec (.tokenSetWrite part k data) s) (fun t => TokenBecomes k put s t ∧ t.bus = (0, 0)) ∧
    NextIs (exec (.tokenCasWrite part k data) s) (fun t =>
      TokenBecomes k (if old.gen = bits 47 36 data then put else old) s t ∧ t.bus = (0, 0)) ∧
    NextIs (exec (.tokenTestDecWrite part k data) s) (fun t =>
      TokenBecomes k (if data % 2 ^ 32 ≤ old.value then { old with value := old.value - data % 2 ^ 32 } else old) s t ∧
        t.bus = (0, 0))

/-- By the owner of a token that no ACQUIRE waits on: a read of the add alias returns the whole word as it stood and adds 1; a
write to it adds the low 32 bits of the data; a read of the test-and-decrement alias returns the word as it stood and
subtracts 1 unless VALUE is 0. These additions stay within 32 bits here. No other token and nothing else changes. -/
def Obligations.TokenWindowReadsAndAdds : Prop :=
  ∀ (part k data : Nat) (s : State), Ready s → (tok s k).owner = part → (tok s k).poisoned = false → heldOn s k = [] →
    let old := tok s k
    (old.value < 0xFFFFFFFF → NextIs (exec (.tokenAddRead part k) s) (fun t =>
      TokenBecomes k { old with value := old.value + 1 } s t ∧ t.bus = (0, tokWord old))) ∧
    (old.value + data % 2 ^ 32 ≤ 0xFFFFFFFF → NextIs (exec (.tokenAddWrite part k data) s) (fun t =>
      TokenBecomes k { old with value := old.value + data % 2 ^ 32 } s t ∧ t.bus = (0, 0))) ∧
    NextIs (exec (.tokenTestDecRead part k) s) (fun t =>
      TokenBecomes k { old with value := old.value - 1 } s t ∧
        t.bus = (0, tokWord old))

/-- An access, through any alias, to a token that another partition owns answers PARTITION_VIOLATION with data 0, records the
token, the partition and KIND 0 in TOK_REFUSED, and changes nothing else. -/
def Obligations.TokenAccessesOfOthersAreRefused : Prop :=
  ∀ (c : Instr) (part k data : Nat) (s : State), Ready s → (tok s k).owner ≠ part → part < 16 → k < 8192 →
    c ∈ [.tokenSetWrite part k data, .tokenAddRead part k, .tokenAddWrite part k data, .tokenTestDecRead part k,
      .tokenTestDecWrite part k data, .tokenCasWrite part k data] →
    NextIs (exec c s) fun t => t.bus = (0x20, 0) ∧ rg t pgTok Fld.TOK_REFUSED_KIND = 0 ∧
      rg t pgTok Fld.TOK_REFUSED_PART = part ∧ rg t pgTok Fld.TOK_REFUSED_TOKEN = k ∧ Only [.regs .tok, .bus] s t ∧
      OnlyFields [(pgTok, Fld.TOK_REFUSED_KIND), (pgTok, Fld.TOK_REFUSED_PART), (pgTok, Fld.TOK_REFUSED_TOKEN)] s t

/-- A TOKEN descriptor that TOK has, on a token on which no ACQUIRE is held: SET sets VALUE to the operand and advances GEN; ADD
adds the operand where the sum fits in 32 bits; both have result OK. ACQUIRE takes the operand from VALUE and has result OK
where VALUE is at least the operand and the token is not poisoned; otherwise the token is unchanged and the ACQUIRE is held
without a result. -/
def Obligations.TokenDescriptors : Prop :=
  ∀ (fid : Nat) (f : Flight) (s : State), Running s → Canonical s → heldOn s (tokenBody f).1 = [] →
    let k := (tokenBody f).1
    let n := (tokenBody f).2
    let old := tok s k
    let ok (t : State) : Prop := ∃ g, flightOf t fid = some g ∧ g.result = some 0
    (tokFlight s fid 0 = some f → NextIs (exec (.tokenSet fid) s) fun t =>
      TokenIs k { old with
        value := n % 2 ^ 32
        gen := (old.gen + 1) % 4096 } s t ∧ ok t) ∧
    (tokFlight s fid 1 = some f → old.value + n ≤ 0xFFFFFFFF → NextIs (exec (.tokenAdd fid) s) fun t =>
      TokenIs k { old with value := old.value + n } s t ∧ ok t) ∧
    (tokFlight s fid 2 = some f → n ≤ old.value → old.poisoned = false → NextIs (exec (.tokenAcquire fid) s) fun t =>
      TokenIs k { old with value := old.value - n } s t ∧ ok t) ∧
    (tokFlight s fid 2 = some f → old.value < n ∨ old.poisoned = true → NextIs (exec (.tokenAcquire fid) s) fun t =>
      TokenIs k old s t ∧ ∃ g, flightOf t fid = some g ∧ g.result = none ∧ g.work = .acquire)

/-- Where one ACQUIRE is held on a token, a write of the set alias whose value reaches the ACQUIRE's operand completes the
ACQUIRE with OK and leaves VALUE reduced by the operand; one whose value does not leaves it held. It rests on readings or
choices of the model: log entries 14 and 104. -/
def Obligations.AWriteServesTheHeldAcquire : Prop :=
  ∀ (part k data : Nat) (f : Flight) (s : State), Ready s → Canonical s → (tok s k).owner = part →
    (tok s k).poisoned = false → heldOn s k = [f] →
    let n := (tokenBody f).2
    NextIs (exec (.tokenSetWrite part k data) s) fun t =>
      if n ≤ data % 2 ^ 32 then
        (tok t k).value = data % 2 ^ 32 - n ∧ ∃ g, flightOf t f.fid = some g ∧ g.result = some 0
      else (tok t k).value = data % 2 ^ 32 ∧ flightOf t f.fid = some f

/-- A write to a queue control of queue q by another partition than q answers PARTITION_VIOLATION with data 0 and changes
nothing else. By the partition of the queue: a write of DSP_Q_TAIL with a value below the ring's size sets TAIL to it, and
with another value leaves TAIL and records the code FORMAT on the page, or OVER where one stands; RUN_SET sets RUN unless
the partition is TORN; RUN_CLEAR clears RUN; RESUME ends the held state unless the partition is TORN, and does nothing in a
queue that is not held. Each answers OK. A head reached by a new tail, by RUN or by RESUME is read in the same bus cycle; a
queue that may not issue reads none. u is the state before that reading: in it no other register bit, queue or piece of the
state has changed, but for the counts and events of a recorded code. It rests on a reading or a choice of the model: log
entry 82. -/
def Obligations.QueueControlWrites : Prop :=
  (∀ (c : Instr) (part q : Nat) (data : Word) (s : State), Ready s → part ≠ q →
    c ∈ [.dspQTailWrite part q data, .runSet part q, .runClear part q, .resume part q, .flush part q] →
    exec c s = .next { s with bus := (0x20, 0) }) ∧
  ∀ (q : Nat) (data : Word) (s : State), Ready s → q < 16 →
    let v := fldGet Fld.DSP_Q_TAIL data
    (∀ u, qRuns u q = false → refill q u = u) ∧
    (v < qSize s q → ∃ u, exec (.dspQTailWrite q q data) s = .next { refill q u with bus := (0, 0) } ∧ qTail u q = v ∧
      Only [.regs .dsp] s u ∧ OnlyFields [(pgDsp q, Fld.DSP_Q_TAIL)] s u) ∧
    (qSize s q ≤ v → NextIs (exec (.dspQTailWrite q q data) s) fun t => t.bus = (0, 0) ∧ qTail t q = qTail s q ∧
      (if rg s (pgDsp q) Fld.PAGE_ERR_ERR = 0 then
        rg t (pgDsp q) Fld.PAGE_ERR_ERR = 1 ∧ rg t (pgDsp q) Fld.PAGE_ERR_INFO_CODE = 0x13
      else rg t (pgDsp q) Fld.PAGE_ERR_OVER = 1) ∧
      Only [.regs .dsp, .regs .ras, .regs .evr, .bus, .evr, .freeCtr] s t) ∧
    (partState s q ≠ .torn → ∃ u, exec (.runSet q q) s = .next { refill q u with bus := (0, 0) } ∧
      rg u (pgDsp q) Fld.DSP_Q_CTRL_RUN = 1 ∧ Only [.regs .dsp] s u ∧ OnlyFields [(pgDsp q, Fld.DSP_Q_CTRL_RUN)] s u) ∧
    (partState s q = .torn → exec (.runSet q q) s = .next { s with bus := (0, 0) }) ∧
    NextIs (exec (.runClear q q) s) (fun t => t.bus = (0, 0) ∧
      rg t (pgDsp q) Fld.DSP_Q_CTRL_RUN = 0 ∧ Only [.regs .dsp, .bus] s t ∧ OnlyFields [(pgDsp q, Fld.DSP_Q_CTRL_RUN)] s t) ∧
    ((qu s q).held = true → partState s q ≠ .torn → ∃ u, exec (.resume q q) s = .next { refill q u with bus := (0, 0) } ∧
      qu u q = { qu s q with held := false } ∧ (∀ p, p ≠ q → qu u p = qu s p) ∧ Only [.queues] s u) ∧
    ((qu s q).held = false ∨ partState s q = .torn → exec (.resume q q) s = .next { s with bus := (0, 0) })

/-- A FLUSH of a queue by its partition moves the head to the tail, discards what stands read at the head and what its reading
still waits for, ends a hold, withdraws the queue's ACQUIREs that have no result, and leaves every other descriptor in
flight; it answers OK; no other queue and no other register bit changes. It rests on a reading or a choice of the model: log
entry 82. -/
def Obligations.FlushDiscardsTheQueue : Prop :=
  ∀ (q : Nat) (s : State), Ready s → q < 16 → NextIs (exec (.flush q q) s) fun t =>
    t.bus = (0, 0) ∧ qHead t q = qTail s q ∧ qDesc t q = 0 ∧
    (qu t q).entry = none ∧ (qu t q).desc = none ∧ (qu t q).held = false ∧ (qu t q).ask = none ∧
    ((qu t q).flushing = true ↔ ∃ f, f ∈ t.flights ∧ f.q = q) ∧ (∀ p, p ≠ q → qu t p = qu s p) ∧
    (∀ f, f ∈ t.flights ↔ f ∈ s.flights ∧ ¬(f.q = q ∧ isAcquire f = true)) ∧
    Only [.regs .dsp, .queues, .flights, .descriptors, .retrain, .accs, .bus] s t ∧
    OnlyFields [(pgDsp q, Fld.DSP_Q_HEAD_HEAD_ENTRY), (pgDsp q, Fld.DSP_Q_HEAD_HEAD_DESC)] s t

/-- The dispatcher reads the heads that stand unread; r is the state after that. Of the queues in the order after the one served
last, the first whose head is ready is served; t is the state after that, and the next head of the queue is read in the same
bus cycle. DSP_Q_ISSUED advances, the queue counts as served last, the head moves on. A descriptor with an operation to run
is in flight then, last in issue order, under the next number, with the place it came from, its bytes, what it captured and
no result; a FENCE, and one whose code is class F, or ZERO_LENGTH where its operation is no COLL, is not handed over, and a
class F code holds the queue. Where no head is ready, the reading is all that happens. It rests on readings or choices of
the model: log entries 36 and 115. -/
def Obligations.TheDispatcherIssuesOneHead : Prop :=
  ∀ s : State, Running s →
    let r := (serveOrder s).foldl (fun s q => refill q s) s
    ((serveOrder r).find? (headReady r) = none → exec .dispatchIssue s = .next r) ∧
    ∀ q e d, (serveOrder r).find? (headReady r) = some q → (qu r q).entry = some e → (qu r q).desc = some d →
      ∃ t, exec .dispatchIssue s = .next (refill q t) ∧
        t.lastServed = q ∧ (qu t q).desc = none ∧
        rg t (pgDsp q) Fld.DSP_Q_ISSUED = (rg r (pgDsp q) Fld.DSP_Q_ISSUED + 1) % 2 ^ 32 ∧
        (if qDesc r q + 1 < e.count then qHead t q = qHead r q ∧ qDesc t q = (qDesc r q + 1) % 2 ^ 16
        else qHead t q = (qHead r q + 1) % qSize r q % 2 ^ 12 ∧ qDesc t q = 0 ∧ (qu t q).entry = none) ∧
        (if isF d.code = true ∨ dOp d.bytes = 0x0C ∨ (d.code = 1 ∧ dOp d.bytes ≠ 8) then
          t.nextFid = r.nextFid ∧ (isF d.code = true → (qu t q).held = true)
        else t.nextFid = r.nextFid + 1 ∧ ∃ f, t.flights = r.flights ++ [f] ∧ f.fid = r.nextFid ∧ f.q = q ∧
          f.entry = qHead r q ∧ f.desc = qDesc r q ∧ f.tag = e.tag ∧ f.addr = d.addr ∧ f.bytes = d.bytes ∧ f.cap = d.cap ∧
          f.seq = rg t (pgDsp q) Fld.DSP_Q_ISSUED ∧ f.station = stationOf f ∧ f.result = none ∧ f.work = .none)

/-- A descriptor whose station has given its result, none of whose writes to leased memory is still unanswered, whose status
byte and replay log record no held channel or way keeps back, and whose score updates or images, where it has any, meet no
code, leaves the flight; every other descriptor stays in flight. A class F code holds its queue, and the first one is
recorded there with the place of the descriptor; another code leaves the held state as it was. Where the header signals a
token, the code is not class F and no ACQUIRE is held on the token, the token's VALUE grows by the increment, to 0xFFFFFFFF
at most. It rests on readings or choices of the model: log entries 37 and 123. -/
def Obligations.ADescriptorCompletes : Prop :=
  ∀ (fid : Nat) (f : Flight) (code : Nat) (s : State), Running s → Canonical s → flightOf s fid = some f →
    f.result = some code → (s.accs.any fun c => c.fid == fid && c.isWrite && !c.done) = false →
    canReport s f.bytes f.addr = true → logHeld s f = false →
    (scanOutcome f (if isF code then (s, none) else attnScores f (s, none))).2 = none →
    NextIs (exec (.descriptorComplete fid) s) fun t =>
      flightOf t fid = none ∧
      (∀ g, g ∈ s.flights → g.fid ≠ fid → ∃ g', g' ∈ t.flights ∧ Continues g g') ∧
      (qu t f.q).held = ((qu s f.q).held || isF code) ∧
      (isF code = true → (qu s f.q).held = false → code < 256 → f.entry < 2 ^ 12 → f.desc < 2 ^ 16 →
        rg t (pgDsp f.q) Fld.DSP_Q_STAT_HOLD_CODE = code ∧ rg t (pgDsp f.q) Fld.DSP_Q_HOLD_AT_ENTRY = f.entry ∧
        rg t (pgDsp f.q) Fld.DSP_Q_HOLD_AT_DESC = f.desc) ∧
      (dSigEn f.bytes = true → isF code = false → heldOn s (dSigTok f.bytes) = [] →
        TokenIs (dSigTok f.bytes) { tok s (dSigTok f.bytes) with
          value := min (((tok s (dSigTok f.bytes)).value + dSigInc f.bytes)) 0xFFFFFFFF } s t) ∧
      (dSigEn f.bytes = false ∨ isF code = true →
        t.toks = s.toks)

/-- A FENCE that passed its checks, at the head to which the round of the queues has come (that of the first queue in order
whose head is ready: its wait met, nothing of its queue in flight), completes; t is the state after that, and the next head
of the queue is read in the same bus cycle: DSP_Q_ISSUED advances, the queue counts as served last and the head moves on;
nothing enters or leaves the flight, the queue is not held, and where no ACQUIRE is held on the token of its signal, that
token's VALUE grows by the increment. While a descriptor of its queue is in flight, or the round has not come to it, the
FENCE changes nothing. -/
def Obligations.AFenceCompletesAtTheHead : Prop :=
  ∀ (q : Nat) (e : HeadEntry) (d : HeadDesc) (s : State), Running s → (qu s q).entry = some e → (qu s q).desc = some d →
    dOp d.bytes = 0x0C → d.code = 0 →
    ((serveOrder s).find? (headReady s) = some q → ∃ t, exec (.fence q) s = .next (refill q t) ∧
      t.lastServed = q ∧ (qu t q).desc = none ∧ (qu t q).held = false ∧ t.nextFid = s.nextFid ∧
      (∀ f, f ∈ s.flights → ∃ g, g ∈ t.flights ∧ Continues f g) ∧
      rg t (pgDsp q) Fld.DSP_Q_ISSUED = (rg s (pgDsp q) Fld.DSP_Q_ISSUED + 1) % 2 ^ 32 ∧
      (if qDesc s q + 1 < e.count then qHead t q = qHead s q ∧ qDesc t q = (qDesc s q + 1) % 2 ^ 16
      else qHead t q = (qHead s q + 1) % qSize s q % 2 ^ 12 ∧ qDesc t q = 0 ∧ (qu t q).entry = none) ∧
      (dSigEn d.bytes = true → heldOn s (dSigTok d.bytes) = [] →
        TokenIs (dSigTok d.bytes) { tok s (dSigTok d.bytes) with
          value := min ((tok s (dSigTok d.bytes)).value + dSigInc d.bytes) 0xFFFFFFFF } s t)) ∧
    (inflightOf s q ≠ 0 ∨ (serveOrder s).find? (headReady s) ≠ some q → exec (.fence q) s = .next s)

/-- While no access is held by a retrain or a clearing, a descriptor in flight without work and without a result, of a partition
that is not preempted, is taken up by its station, and stays the same descriptor: a GEMM or a CONV on the arrays that is the
first of its kind not yet taken, while a planner is free; a CHECK; an ATTN; a KVAPP whose turn it is and whose first item
reads no leased memory that is still to be fetched; a SCAN that is its partition's next to be admitted; each kind of SWAP; a
COLL, which then waits for a context after those that wait already. A maximum pooling that need not wait has its result at
once, and memory holds its maxima where no access of it meets a code. It rests on readings or choices of the model: log
entries 32 and 118. -/
def Obligations.StationsTakeUpTheirDescriptors : Prop :=
  ∀ (fid : Nat) (f : Flight) (s : State), Running s → Canonical s → NothingHeld s → flightOf s fid = some f →
    f.work = .none → f.result = none → scratchShut s f.q = false →
    let first := s.flights.find? fun g => isTileOp g && g.work == .none && g.result.isNone && !scratchShut s g.q
    let free := ∃ i, i < 16 ∧ plannerBusy s i = false
    let rd := sectorsAt (poolReads (jobOf f))
    let ws := joinWrites (poolWrites (snapOf s f) (jobOf f))
    let via := if f.station = .yrd then Via.yard else .beside
    let nextScan := s.flights.find? fun g => g.q == f.q && dOp g.bytes == 6 && g.result.isNone && !scanAdmitted g
    (first = some f → free → dOp f.bytes = 2 → NextIs (exec (.gemm fid) s) (TakenUp fid f)) ∧
    (first = some f → free → dOp f.bytes = 3 → NextIs (exec (.conv fid) s) (TakenUp fid f)) ∧
    (dOp f.bytes = 3 → f.station ≠ .arr → mustWait s fid rd (ws.map fun x => (x.1, x.2.length)) = false →
      NextIs (exec (.conv fid) s) fun t => ∃ g code, flightOf t fid = some g ∧ Continues f g ∧ g.result = some code ∧
        ((readAll via f.q rd (proceed fid s)).2 = none →
          (writeAll via f.q fid ws (readAll via f.q rd (proceed fid s)).1).2 = none → code = 0 ∧ MemHolds ws s t)) ∧
    (dOp f.bytes = 0x0F → NextIs (exec (.check fid) s) (TakenUp fid f)) ∧
    (dOp f.bytes = 4 → NextIs (exec (.attn fid) s) (TakenUp fid f)) ∧
    (kvTurn s fid = some f → 0 < bF f.bytes 24 4 → ((kvRanges s f 0).any fun x => heldFor s fid x.1 x.2) = false →
      NextIs (exec (.kvapp fid) s) (TakenUp fid f)) ∧
    (nextScan = some f → dOp f.bytes = 6 → NextIs (exec (.scan fid) s) (TakenUp fid f)) ∧
    (dOp f.bytes = 0x0B → bF f.bytes 24 1 = 0 → NextIs (exec (.swapOut fid) s) (TakenUp fid f)) ∧
    (dOp f.bytes = 0x0B → bF f.bytes 24 1 = 1 → NextIs (exec (.swapIn fid) s) (TakenUp fid f)) ∧
    (dOp f.bytes = 0x0B → bF f.bytes 24 1 = 2 → NextIs (exec (.swapSync fid) s) (TakenUp fid f)) ∧
    (f.station = .col → NextIs (exec (.coll fid) s) fun t =>
      TakenUp fid f t ∧ t.col.waiting = s.col.waiting ++ [fid] ∧ Only [.flights, .col] s t)

/-- A GEMM, or a CONV on the arrays, whose plan is one tile in one part and one chunk, without a drain block and without a
sampled tile, on idle arrays of which one is granted, while nothing else is under way and none of its accesses is held or
meets a code: its one command leaves the sum of its products over its starting block, through the drain path, in memory,
every other byte as it was, and the result OK. A GEMM or a CONV of any plan whose last tile stands in staging: its command
writes that tile, and the result is OK, OVERFLOW_REPLAYED after replays, or SHADOW_MISMATCH where a mismatch was found. A
CHECK of a maximum pooling or of a target without a sampled tile has the result OK; one with one sampled tile recomputes it
from what stands in memory, and has SHADOW_MISMATCH where the distance exceeds the threshold, else OK; memory stays as it
is. It rests on readings or choices of the model: log entries 32 and 129. -/
def Obligations.ProductsRunToTheirResults : Prop :=
  (∀ (fid op : Nat) (c : Instr) (f : Flight) (s : State), Running s → Canonical s → (op, c) ∈ [(2, .gemm fid), (3, .conv fid)] →
    flightOf s fid = some f → dOp f.bytes = op → f.station = .arr → f.work = .none → f.result = none →
    scratchShut s f.q = false → arraysStopped s = false → s.retrain.waiting = [] →
    (∀ g, g ∈ s.flights → g.work = .none) →
    (s.flights.find? fun g => isTileOp g && g.work == .none && g.result.isNone && !scratchShut s g.q) = some f →
    (∀ n, n < 160 → (arr s n).run = none ∧ (arr s n).shadow = none ∧ (arr s n).staging = [] ∧ (arr s n).halves.length = 4) →
    (∃ n, n < 160 ∧ granted s f.q n = true) →
    let j := jobOf f
    let p := jPlan j
    let o := (outFmt f.bytes).getD .k16
    let it := tileItem p 0
    let chunk (isA : Bool) : Chunk := ⟨fid, 0, 0, isA, 0, 0, 0, p.k⟩
    let rd := chunkReads j p (chunk true) ++ chunkReads j p (chunk false) ++ (if jPreload j then startReads j p it else [])
    let out := tileOut s.mem j p [] o .k16 (rndOf f) it (tileMac s.mem j p it 0 p.k (tileStartVals s.mem j p it))
    tileCount p = 1 → p.l = 1 → 0 < p.k → p.k ≤ p.kmax → dcUsed (jCtl j) = false → sampledTiles f j p o = [] →
    mustWait s fid rd (out.writes.map fun x => (x.1, x.2.length)) = false → (readLines f.q (linesIn rd) s).2 = none →
    out.ovf = none → (writeAll .yard f.q fid out.writes s).2 = none →
    NextIs (exec c s) fun t => MemHolds out.writes s t ∧ ∃ g, flightOf t fid = some g ∧ Continues f g ∧ g.result = some 0) ∧
  (∀ (fid op n t0 : Nat) (c : Instr) (f : Flight) (w : TileWork) (g : Staged) (s : State), Running s → Canonical s →
    (op, c) ∈ [(2, .gemm fid), (3, .conv fid)] → tileFlight s fid = some (f, w) → dOp f.bytes = op → f.station = .arr →
    drainReady f w = true → w.waiting = [] → w.left = [t0] → w.sampled = [] → w.ovf = none → n < 160 →
    (arr s n).run = none → (arr s n).shadow = none → (arr s n).staging = [g] → g.fid = fid → g.kind = .out →
    tileNo w.plan g.item = t0 → g.item = tileItem w.plan t0 →
    (∀ m, m < 160 → m ≠ n → (∀ r, (arr s m).run = some r → r.fid ≠ fid) ∧ (∀ x, (arr s m).shadow = some x → x.1 ≠ fid) ∧
      ∀ x, x ∈ (arr s m).staging → x.fid ≠ fid) →
    mustWait s fid [] (g.writes.map fun x => (x.1, x.2.length)) = false → (writeAll .yard f.q fid g.writes s).2 = none →
    NextIs (exec c s) fun t => MemHolds g.writes s t ∧ ∃ h, flightOf t fid = some h ∧ Continues f h ∧
      h.result = some (if w.dists ≠ [] then 0x42 else if w.pass ≠ 0 then 0x40 else 0)) ∧
  ∀ (fid : Nat) (f : Flight) (s : State), Running s → Canonical s → flightOf s fid = some f → dOp f.bytes = 0x0F →
    f.work = .none → f.result = none → scratchShut s f.q = false → arraysStopped s = false → s.retrain.waiting = [] →
    let j := jobOf f
    let p := jPlan j
    let w := tileBegin f j
    let ts := (List.range (tileCount p)).filter fun t => isSampled j.seed (dTid j.bytes) (dStep j.bytes) (bF f.bytes 25 1) t
    let ends (code : Nat) (t : State) : Prop := t.mem = s.mem ∧ ∃ g, flightOf t fid = some g ∧ Continues f g ∧
      g.result = some code
    (jConv j = true ∧ cvPool j.bytes = 2 → NextIs (exec (.check fid) s) (ends 0)) ∧
    (¬(jConv j = true ∧ cvPool j.bytes = 2) → dcUsed (jCtl j) = false →
      (ts = [] → NextIs (exec (.check fid) s) (ends 0)) ∧
      ∀ t n, ts = [t] → shadowArray s f.q none = some n →
        let it := tileItem p t
        let y := shadowOf f w
        let f' := { f with snap := some s.mem }
        let vs := wholeVals s.mem j p y it
        let zs := (tileOut s.mem { j with k8sat := false } p [] ((shadowFmt y).getD .kp32) .g16 ⟨false, 0, 0, 0⟩ it
          (vs.map Prod.fst)).ys
        let ys := standing s f' j p it
        let d := tileDist y ys.1 ((zs.zip vs).map fun x => x.2.2.getD x.1)
        mustWait s fid (ys.2 ++ shadowReads f w it) [] = false →
          (readLines f.q (linesIn (ys.2 ++ shadowReads f w it)) s).2 = none →
        NextIs (exec (.check fid) s) (ends (if distOver d (shadowThr f) then 0x42 else 0)))

/-- A MOVE in an engine or in YRD, a REDUCE, an EWISE or a STATS without a result and with no replay due takes a place in each
of its engines, and each engine with a place for it runs its units, which read their inputs as they stood when the
descriptor started; s1 is the state then. Where a read met a code, the descriptor has a result. While an engine has not
finished its units, that is all. Once all have, and nothing that the pass still touches is held: where no output overflows
and no write meets a code, memory then holds what the pass writes, every other byte is as it was, the result is OK, or
OVERFLOW_REPLAYED after replays, and the engines are free of it. Where an output overflows that a wider format can take,
nothing is written, and its replay is due. A PACC or an OPT leaves its state words in the hold area first; its next step,
the copy-back phase, puts them into the state tensors, and then has the result OK. It rests on readings or choices of the
model: log entries 32 and 110. -/
def Obligations.EngineDescriptorsRunAPass : Prop :=
  ∀ (fid op : Nat) (c : Instr) (f : Flight) (s : State), Running s → Canonical s →
    (op, c) ∈ [(1, .move fid), (7, .reduce fid), (9, .ewise fid), (0x0A, .stats fid)] →
    stkFlight s fid = some f → dOp f.bytes = op → (stkWork f).due = false →
    let free (t : State) : Prop := ∀ k, k < 8 → fid ∉ (tabGet stkDefault t.stks k).active ∧
      fid ∉ (tabGet stkDefault t.stks k).waiting
    let ends (code : Nat) (t : State) : Prop := ∃ h, flightOf t fid = some h ∧ Continues f h ∧ h.result = some code
    let s1 := (stkEngines f).foldl (fun s k => stkPart fid k s) (stkStart fid s)
    ((stkWork f).copy = false → stkFlight s1 fid = none → NextIs (exec c s) fun t =>
      t.mem = s.mem ∧ ∃ h, flightOf t fid = some h ∧ Continues f h ∧ h.result ≠ none) ∧
    (∀ g, (stkWork f).copy = false → stkFlight s1 fid = some g →
      let w := stkWork g
      let via := if g.station = .yrd then Via.yard else .beside
      let r := yrdReads g (proceed fid s1)
      let p := stkPass (g.snap.getD s1.mem) g w.ofmt
      ((∃ k, k ∈ stkEngines g ∧ k ∉ w.done) → exec c s = .next s1) ∧
      ((∀ k, k ∈ stkEngines g → k ∈ w.done) →
        mustWait s1 fid (if g.station = .yrd then stkReads g else []) (stkUndefined g w.ofmt) = false →
        (∀ code, r.2 = some code → NextIs (exec c s) fun t => t.mem = s.mem ∧ ends code t) ∧
        (r.2 = none → p.ovf = none → (writeAll via g.q fid p.writes r.1).2 = none →
          (holdsState g = false → NextIs (exec c s) fun t =>
            MemHolds p.writes s t ∧ ends (if w.pass = 0 then 0 else 0x40) t ∧ free t) ∧
          (holdsState g = true → NextIs (exec c s) fun t => MemHolds p.writes s t ∧
            ∃ h, flightOf t fid = some h ∧ Continues f h ∧ h.result = none ∧ stkWork h = { w with copy := true })) ∧
        (∀ src o, r.2 = none → p.ovf = some src → stkReplays g w.ofmt = some o → NextIs (exec c s) fun t =>
          t.mem = s.mem ∧ ∃ h, flightOf t fid = some h ∧ Continues f h ∧ h.result = none ∧ (stkWork h).due = true ∧
            (stkWork h).ofmt = w.ofmt ∧ (stkWork h).pass = w.pass) ∧
        (∀ src, r.2 = none → p.ovf = some src → stkReplays g w.ofmt = none → NextIs (exec c s) (ends 0x41)))) ∧
    ((stkWork f).copy = true →
      let p := stkPass (f.snap.getD s.mem) f (stkWork f).ofmt
      let hold := stkUndefined f (stkWork f).ofmt
      let r := readAll .beside f.q hold (proceed fid s)
      mustWait s fid hold (p.back.map fun x => (x.1, x.2.length)) = false → r.2 = none →
      (writeAll .beside f.q fid p.back r.1).2 = none →
      NextIs (exec c s) fun t => MemHolds p.back s t ∧ ends 0 t ∧ free t)

/-- A descriptor of the stack engines takes a place in each of its engines that has not finished its units, that has fewer than
8 descriptors and in which nobody else waits first; elsewhere it waits after those that wait. Other engines, those in which
it had a place or has finished, and everything else stay as they are. -/
def Obligations.AnEngineTakesAtMostEightDescriptors : Prop :=
  ∀ (fid : Nat) (f : Flight) (s : State), Running s → stkFlight s fid = some f → NextIs (exec (.engineUnitStart fid) s) fun t =>
    (∀ k, k ∉ stkEngines f ∨ k ∈ (stkWork f).done → tabGet stkDefault t.stks k = tabGet stkDefault s.stks k) ∧
    (∀ k, k ∈ stkEngines f → k ∉ (stkWork f).done →
      let e := tabGet stkDefault s.stks k
      let e' := tabGet stkDefault t.stks k
      if fid ∈ e.active then e' = e
      else if e.active.length < 8 ∧ (e.waiting.head? = none ∨ e.waiting.head? = some fid) then
        e'.active = e.active ++ [fid] ∧ e'.waiting = e.waiting.filter (fun x => x != fid) ∧ e'.cnt = e.cnt
      else e'.active = e.active ∧ e'.waiting = (if fid ∈ e.waiting then e.waiting else e.waiting ++ [fid]) ∧ e'.cnt = e.cnt) ∧
    Only [.stks] s t

/-- The lowest free planner takes the first GEMM or CONV on the arrays that has no work and no result and whose partition is not
preempted. Its inputs are those that stand now, its plan is made, the planner is its planner, and the planner's counters
grow by one descriptor and by its items; memory stays as it is. A drain block, where the product uses one, is read at once
where none of it is held or still to be fetched: a block that the partition does not own ends the descriptor with
PARTITION_VIOLATION, one whose read meets a code with that code, one that fails its checks with their code; otherwise the
descriptor has it. It rests on readings or choices of the model: log entries 45 and 118. -/
def Obligations.APlannerTakesTheFirstDescriptor : Prop :=
  ∀ (f : Flight) (i : Nat) (s : State), Running s → Canonical s →
    (s.flights.find? fun g => isTileOp g && g.work == .none && g.result.isNone && !scratchShut s g.q) = some f →
    (firstBelow 16 fun i => !plannerBusy s i) = some i →
    let j := jobOf f
    let w := { tileBegin f j with planner := some i }
    let a := dAddr f.bytes 48
    let d := rdBytes s a 64
    let vs := drainVecs (jCtl j) d w.plan
    let ch := chkDrainBlk s f.q (jCtl j) d w.plan (jCblk j)
    let taken (t : State) : Prop := t.mem = s.mem ∧ tabGet (fun _ => none) t.planners i = some f.fid ∧
      (∀ j, j ≠ i → tabGet (fun _ => none) t.planners j = tabGet (fun _ => none) s.planners j) ∧
      rg t (pgTpl i) Fld.TPL_PLANNED = (rg s (pgTpl i) Fld.TPL_PLANNED + 1) % 2 ^ 32 ∧
      rg t (pgTpl i) Fld.TPL_ITEMS = (rg s (pgTpl i) Fld.TPL_ITEMS + tileCount w.plan * w.plan.l) % 2 ^ 32
    let at_ (res : Option Nat) (w : TileWork) (t : State) : Prop := ∃ g, flightOf t f.fid = some g ∧ Continues f g ∧
      g.snap = some s.mem ∧ g.result = res ∧ g.work = .tiles w
    NextIs (exec .plannerTake s) fun t => taken t ∧
      (dcUsed (jCtl j) = false → at_ none w t) ∧
      (dcUsed (jCtl j) = true → structRange s f.q a 64 = false → at_ (some 0x20) w t) ∧
      (dcUsed (jCtl j) = true → structRange s f.q a 64 = true → NothingHeld s →
        ((a, 64) :: vs).any (fun x => heldFor s f.fid x.1 x.2) = false →
        (∀ c, (memRead .yard f.q a 64 s).2 = some c → at_ (some c) w t) ∧
        ((memRead .yard f.q a 64 s).2 = none → chkCode ch ≠ 0 → at_ (some (chkCode ch)) w t) ∧
        ((memRead .yard f.q a 64 s).2 = none → chkCode ch = 0 → (readAll .yard f.q vs s).2 = none →
          at_ none { w with
            dblk := d
            preFmt := preFmtOf d } t))

/-- While no thermal fault stops the arrays and no product waits for its drain block, the first descriptor that has a slot
waiting and an array to take it places its lowest slot: on the candidate of the least affinity code, the lowest numbered of
those; the slot no longer waits, the array has a run of that descriptor, slot and pass, its run counter grows by one, its
clock point is CEIL lowered by the limiter's steps in force, and no other array changes. It rests on readings or choices of
the model: log entries 16, 46 and 119. -/
def Obligations.ARunStartsOnTheBestArray : Prop :=
  ∀ (f g : Flight) (w : TileWork) (slot : Nat) (items : List Item) (rest : List (Nat × List Item)) (s : State), Running s →
    arraysStopped s = false → (∀ h g w, h ∈ s.flights → tileFlight s h.fid = some (g, w) → drainReady g w = true) →
    (s.flights.find? fun g => match tileFlight s g.fid with
      | some (_, w) => !w.waiting.isEmpty && drainReady g w && !(candidates s g).isEmpty
      | none => false) = some f →
    tileFlight s f.fid = some (g, w) → w.waiting = (slot, items) :: rest →
    let r : ArrRun := ⟨f.fid, slot, w.pass, items, 0, false, [], 0⟩
    NextIs (exec .runStart s) fun t => ∃ n, n ∈ candidates s f ∧
      (∀ m, m ∈ candidates s f → affinity s f w.plan r n < affinity s f w.plan r m ∨
        affinity s f w.plan r n = affinity s f w.plan r m ∧ n ≤ m) ∧
      (∃ r', (arr t n).run = some r' ∧ r'.fid = f.fid ∧ r'.slot = slot ∧ r'.pass = w.pass) ∧
      (∃ g', tileFlight t f.fid = some (g', { w with waiting := rest })) ∧
      ((arr s n).cnt.length = 9 → (arr t n).cnt.getD 8 0 = ((arr s n).cnt.getD 8 0 + 1) % 2 ^ 64) ∧
      rg t pgClkDev (fldPoint n) = min 3 (rg s (pgClk (arrOwner s n)) Fld.CLK_POL_CEIL + limitOf s n) ∧
      (∀ m, m ≠ n → arr t m = arr s m) ∧ t.mem = s.mem

/-- A delivery of the chunk that an array is due, which need not wait for another array of its wave and whose sectors need not
wait and meet no code, puts the chunk into a half of that array and of every array on the same descriptor and pass that is
due the same bytes, and counts one delivery with the planner. One that must wait changes nothing; memory never changes. It
rests on readings or choices of the model: log entries 46 and 120. -/
def Obligations.AChunkReachesEveryArrayDueIt : Prop :=
  ∀ (n : Nat) (isA : Bool) (r : ArrRun) (f : Flight) (w : TileWork) (c : Chunk) (s : State), Running s → n < 160 →
    arraysStopped s = false → (arr s n).run = some r → tileFlight s r.fid = some (f, w) →
    dueChunk (jobOf f) w.plan (arr s n) r isA = some c →
    let j := jobOf f
    let rd := chunkReads j w.plan c
    (chunkWaits s f w r isA c = true → exec (.chunkDelivery n isA) s = .next s) ∧
    (chunkWaits s f w r isA c = false → mustWait s f.fid rd [] = false →
      (readLines f.q (linesIn rd) (proceed f.fid s)).2 = none →
      (∀ m, (arr s m).halves.length = 4) → NextIs (exec (.chunkDelivery n isA) s) fun t =>
        t.mem = s.mem ∧ holds j w.plan (arr t n) c = true ∧
        (∀ m r' d, m < 160 → (arr s m).run = some r' → r'.fid = r.fid → r'.pass = r.pass →
          dueChunk j w.plan (arr s m) r' isA = some d → chunkKey j w.plan d = chunkKey j w.plan c →
          holds j w.plan (arr t m) d = true) ∧
        ∀ i, w.planner = some i → rg t (pgTpl i) Fld.TPL_DELIVERIES = (rg s (pgTpl i) Fld.TPL_DELIVERIES + 1) % 2 ^ 32)

/-- While no thermal fault stops the arrays, an array whose next tile needs a starting block that is not yet in its latches, and
whose staging has room for it, loads the block as its flight's inputs stood, where its sectors need not wait and meet no
code: the stall is counted as 128 cycles in STALL and, beyond what a tile that starts then adds to BUSY, in RUN_CYC, the run
counts one preload more, memory and the other arrays stay as they are. -/
def Obligations.APreloadStallLoadsTheStartingBlock : Prop :=
  ∀ (n : Nat) (r : ArrRun) (it : Item) (rest : List Item) (f : Flight) (w : TileWork) (s : State), Running s →
    arraysStopped s = false → (arr s n).run = some r → r.items = it :: rest → tileFlight s r.fid = some (f, w) →
    jPreload (jobOf f) = true → it.l = 0 → r.started = false → (arr s n).latch = none →
    stageUnits w.plan (fmtBytes ((jSfmt (jobOf f)).getD .k16)) ≤ stagingFree s n →
    let rd := startReads (jobOf f) w.plan it
    mustWait s f.fid rd [] = false → (readLines f.q (linesIn rd) (proceed f.fid s)).2 = none → (arr s n).cnt.length = 9 →
    NextIs (exec (.preloadStall n) s) fun t =>
      t.mem = s.mem ∧ (∀ m, m ≠ n → arr t m = arr s m) ∧
      ((arr t n).cnt.getD 0 0 + (arr s n).cnt.getD 1 0) % 2 ^ 64 =
        ((arr s n).cnt.getD 0 0 + (arr t n).cnt.getD 1 0 + 128) % 2 ^ 64 ∧
      (arr t n).cnt.getD 5 0 = ((arr s n).cnt.getD 5 0 + 128) % 2 ^ 64 ∧
      (∃ r', (arr t n).run = some r' ∧ r'.fid = r.fid ∧ r'.slot = r.slot ∧ r'.pass = r.pass ∧ r'.preloads = r.preloads + 1) ∧
      ((arr t n).latch = some (tileStartVals (snapOf s f) (jobOf f) w.plan it) ∨
        ((arr t n).latch = none ∧ (arr t n).active.isSome = true))

/-- While no thermal fault stops the arrays, an array whose run has no item left and whose shadows are empty ends the run: the
tile in its active registers moves to the shadows, and the run's freezes are added to the live counters RUN_CYC, FREEZE,
FEED and DRAIN, a freeze of both causes in both. Other arrays and everything else stay as they are. An array whose shadows
are full, or whose run has items left, does nothing. It rests on readings or choices of the model: log entries 5 and 116. -/
def Obligations.TheEndOfARunMovesItsLastTileToTheShadows : Prop :=
  ∀ (n feed drain both : Nat) (r : ArrRun) (it : Item) (vs : List Val) (s : State), Running s → arraysStopped s = false →
    (arr s n).run = some r → (arr s n).active = some (it, vs) → (arr s n).cnt.length = 9 →
    let c (t : State) (i : Nat) := (arr t n).cnt.getD i 0
    (r.items = [] → (arr s n).shadow = none → NextIs (exec (.endOfRunSwap n feed drain both) s) fun t =>
      (arr t n).run = none ∧ (arr t n).active = none ∧ (arr t n).shadow = some (r.fid, r.pass, it, vs) ∧
      (arr t n).latch = (arr s n).latch ∧ (arr t n).halves = (arr s n).halves ∧ (arr t n).staging = (arr s n).staging ∧
      c t 0 = (c s 0 + (feed + drain + both)) % 2 ^ 64 ∧ c t 1 = c s 1 ∧
      c t 2 = (c s 2 + (feed + drain + both)) % 2 ^ 64 ∧ c t 3 = (c s 3 + (feed + both)) % 2 ^ 64 ∧
      c t 4 = (c s 4 + (drain + both)) % 2 ^ 64 ∧ (∀ i, 5 ≤ i → c t i = c s i) ∧
      (∀ m, m ≠ n → arr t m = arr s m) ∧ Only [.arrs] s t) ∧
    (r.items ≠ [] ∨ (arr s n).shadow ≠ none → exec (.endOfRunSwap n feed drain both) s = .next s)

/-- While no thermal fault stops the arrays, the drain of an array's shadows takes the tile of the descriptor's present pass. Of
a split tile, its partial enters the array's staging as pairs, where there is room for it and no pair overflows. Of another
tile, its outputs enter the staging as bytes to be written, where there is room, the sectors of a derivative's tensor need
not wait and meet no code, and no output overflows. Other arrays and memory stay as they are. Without room shadows and
staging stay as they are; a shadow of an abandoned pass is discarded. -/
def Obligations.ADrainFillsTheStaging : Prop :=
  ∀ (n fid pass : Nat) (it : Item) (vs : List Val) (f : Flight) (w : TileWork) (s : State), Running s →
    arraysStopped s = false → (arr s n).shadow = some (fid, pass, it, vs) → tileFlight s fid = some (f, w) →
    let p := w.plan
    let c := jCtl (jobOf f)
    let u := stageUnits p 4
    let rd := preReads (jobOf f) p w.dblk it
    let y := readLines f.q (linesIn rd) (proceed f.fid s)
    let o := tileOut (snapOf y.1 f) (jobOf f) p w.dblk w.ofmt w.preFmt (rndOf f) it vs
    (w.pass ≠ pass ∨ w.ovf ≠ none → NextIs (exec (.tileDrain n) s) fun t =>
      arr t n = { arr s n with shadow := none } ∧ (∀ m, m ≠ n → arr t m = arr s m) ∧ Only [.arrs] s t) ∧
    (w.pass = pass → w.ovf = none →
      (1 < p.l → stagingFree s n < u → exec (.tileDrain n) s = .next s) ∧
      (1 < p.l → u ≤ stagingFree s n → (partPairs w.ofmt vs).2 = false → NextIs (exec (.tileDrain n) s) fun t =>
        (arr t n).staging = (arr s n).staging ++ [carryUp p.l ⟨fid, it, .part 0 it.l, u, (partPairs w.ofmt vs).1, []⟩] ∧
        (∀ m, m ≠ n → arr t m = arr s m) ∧ Only [.arrs] s t) ∧
      (p.l ≤ 1 → stagingFree s n < outUnits p c w.ofmt → NextIs (exec (.tileDrain n) s) fun t =>
        (arr t n).shadow = (arr s n).shadow ∧ (arr t n).staging = (arr s n).staging ∧ (∀ m, m ≠ n → arr t m = arr s m) ∧
        Only [.arrs] s t) ∧
      (p.l ≤ 1 → outUnits p c w.ofmt ≤ stagingFree s n → mustWait s f.fid rd [] = false → y.2 = none → o.ovf = none →
        NextIs (exec (.tileDrain n) s) fun t =>
        (arr t n).staging = (arr s n).staging ++ [⟨f.fid, it, .out, outUnits p c w.ofmt, [], o.writes⟩] ∧
        (∀ m, m ≠ n → arr t m = arr s m) ∧ t.mem = s.mem))

/-- The acknowledgement of the oldest outputs in an array's staging, of a descriptor at work, where no write of them need wait
or meets a code: memory then holds their bytes and every other byte is as it was, and the staging no longer holds them.
Where the descriptor has tiles left besides, their tile is no longer left to it and no other array changes; where theirs was
the last one and no sampled tile is still to be compared, the descriptor has its result: OK, OVERFLOW_REPLAYED after
replays, or SHADOW_MISMATCH where a mismatch was found. Outputs of a descriptor that is no longer at work are discarded. -/
def Obligations.AnAcknowledgedTileIsInMemory : Prop :=
  ∀ (n : Nat) (g : Staged) (s : State), Running s → (arr s n).staging.find? (fun g => g.kind == .out) = some g →
    let s1 := setArr n { arr s n with staging := (arr s n).staging.filter fun x => x != g } s
    (tileFlight s g.fid = none → exec (.stagingWriteAck n) s = .next s1) ∧
    ∀ f w, tileFlight s g.fid = some (f, w) → mustWait s f.fid [] (g.writes.map fun x => (x.1, x.2.length)) = false →
      (writeAll .yard f.q f.fid g.writes (proceed f.fid s1)).2 = none →
      NextIs (exec (.stagingWriteAck n) s) fun t => MemHolds g.writes s t ∧ g ∉ (arr t n).staging ∧
        ((∃ t, t ∈ w.left ∧ t ≠ tileNo w.plan g.item) →
          (arr t n).staging = (arr s n).staging.filter (fun x => x != g) ∧ (∀ m, m ≠ n → arr t m = arr s m) ∧
          ∃ f', tileFlight t g.fid = some (f', { w with left := w.left.filter fun x => x != tileNo w.plan g.item })) ∧
        ((∀ t, t ∈ w.left → t = tileNo w.plan g.item) → w.sampled = [] → w.ovf = none →
          ∃ h, flightOf t g.fid = some h ∧ h.result = some (if w.dists ≠ [] then 0x42 else if w.pass ≠ 0 then 0x40 else 0))

/-- While no thermal fault stops the arrays and two mates stand in staging, YRD combines the first such two: where no pair
overflows, the sum of their pairs takes the place of the first one, a level up, the second one leaves its staging, and
memory, the other arrays and the descriptor stay as they are. Where a pair overflows, the pass is given up: the descriptor
awaits its replay, or ends with OVERFLOW_UNRECOVERED. -/
def Obligations.PartialsCombineByPairs : Prop :=
  ∀ (fid : Nat) (f : Flight) (w : TileWork) (x y : Nat × Staged) (v i : Nat) (s : State), Running s → Canonical s →
    arraysStopped s = false → tileFlight s fid = some (f, w) →
    ((partsOf s fid).findSome? fun x => (mateOf (partsOf s fid) x).map fun y => (x, y)) = some (x, y) →
    x.2.kind = .part v i →
    let z := pairsAdd w.ofmt x.2.pairs y.2.pairs
    let g := carryUp w.plan.l { x.2 with
      kind := .part (v + 1) (i / 2)
      pairs := z.1 }
    (z.2 = false → NextIs (exec (.partialCombine fid) s) fun t =>
      (∀ m, m ≠ x.1 → m ≠ y.1 → arr t m = arr s m) ∧
      (x.1 ≠ y.1 → (arr t x.1).staging = (arr s x.1).staging.map (fun u => if u = x.2 then g else u) ∧
        (arr t y.1).staging = (arr s y.1).staging.filter fun u => u != y.2) ∧
      (x.1 = y.1 → (arr t x.1).staging =
        ((arr s x.1).staging.filter fun u => u != y.2).map fun u => if u = x.2 then g else u) ∧
      Only [.arrs] s t) ∧
    (z.2 = true → NextIs (exec (.partialCombine fid) s) fun t => ∃ h, flightOf t fid = some h ∧ Continues f h ∧
      (h.result = some 0x41 ∨ ∃ w', h.work = .tiles w' ∧ w'.ovf = some .primary ∧ w'.first = some (w.first.getD pgYrd)))

/-- The replay of a descriptor whose pass overflowed begins its next pass with the next wider output format where there is one:
a GEMM or CONV with every slot and every tile to do again, an ATTN with every sequence, a SCAN with every chunk; a
descriptor in an engine or in YRD begins the pass at once, as far as it can, and may end in it. Where no pass overflowed
nothing changes. -/
def Obligations.AReplayRunsTheNextPass : Prop :=
  ∀ (fid : Nat) (f : Flight) (s : State), Running s → flightOf s fid = some f →
    (∀ w, tileFlight s fid = some (f, w) → dOp f.bytes = 2 ∨ dOp f.bytes = 3 →
      if w.ovf = none then exec (.overflowReplay fid) s = .next s
      else NextIs (exec (.overflowReplay fid) s) fun t => Only [.flights] s t ∧ ∃ g w', tileFlight t fid = some (g, w') ∧
        w'.pass = w.pass + 1 ∧ w'.ofmt = (replayNext w.ofmt).getD w.ofmt ∧ w'.preFmt = (replayNext w.preFmt).getD w.preFmt ∧
        w'.plan = w.plan ∧ w'.waiting = planSlots w.plan ∧ w'.left = List.range (tileCount w.plan) ∧ w'.ovf = none) ∧
    (∀ w, attnFlight s fid = some (f, w) →
      if w.ovf = false then exec (.overflowReplay fid) s = .next s
      else NextIs (exec (.overflowReplay fid) s) fun t => Only [.flights] s t ∧ ∃ g w', attnFlight t fid = some (g, w') ∧
        w'.pass = w.pass + 1 ∧ w'.ofmt = (replayNext w.ofmt).getD w.ofmt ∧ w'.caps = w.caps ∧
        w'.left = List.range (atSeqs s f.q f.bytes f.cap.list) ∧ w'.ovf = false) ∧
    (∀ w, scanFlight s fid = some (f, w) →
      if w.ovf = false then exec (.overflowReplay fid) s = .next s
      else NextIs (exec (.overflowReplay fid) s) fun t => Only [.flights] s t ∧ ∃ g w', scanFlight t fid = some (g, w') ∧
        w'.pass = w.pass + 1 ∧ w'.ofmt = (replayNext w.ofmt).getD w.ofmt ∧ w'.admitted = w.admitted ∧ w'.chunks = [] ∧
        w'.ovf = false) ∧
    (∀ o, stkFlight s fid = some f → (stkWork f).due = true → stkReplays f (stkWork f).ofmt = some o →
      NextIs (exec (.overflowReplay fid) s) fun t => ∃ g, flightOf t fid = some g ∧ Continues f g ∧
        (g.result ≠ none ∨ ((stkWork g).pass = (stkWork f).pass + 1 ∧ (stkWork g).ofmt = o)))

/-- While no thermal fault stops the arrays and an array is free for it, a GEMM or CONV whose pass stands, which has its drain
block where it uses one, and which has more tiles to write recomputes the first sampled tile that has drained, where its
reads need not wait and meet no code: the tile is sampled no longer, its distance from the values as they drained is judged
against the threshold, a distance above it joins the mismatches, and memory stays as it is. -/
def Obligations.AShadowRecomputationJudgesATile : Prop :=
  ∀ (fid t0 n0 n : Nat) (ys : List Val) (rest : List (Nat × Nat × List Val)) (f : Flight) (w : TileWork) (s : State), Running s →
    arraysStopped s = false → tileFlight s fid = some (f, w) → w.ovf = none → drainReady f w = true → dOp f.bytes ≠ 0x0F →
    w.left ≠ [] →
    w.prim = (t0, n0, ys) :: rest → shadowArray s f.q (some n0) = some n →
    let j := jobOf f
    let it := tileItem w.plan t0
    let vs := wholeVals (snapOf s f) j w.plan w.ofmt it
    let zs := (tileOut (snapOf s f) { j with k8sat := false } w.plan w.dblk ((shadowFmt w.ofmt).getD .kp32) .g16
      ⟨false, 0, 0, 0⟩ it (vs.map Prod.fst)).ys
    let d := tileDist w.ofmt ys ((zs.zip vs).map fun x => x.2.2.getD x.1)
    let rd := shadowReads f w it
    mustWait s f.fid rd [] = false → (readLines f.q (linesIn rd) (proceed f.fid s)).2 = none →
    NextIs (exec (.shadowRecompute fid) s) fun t => t.mem = s.mem ∧ ∃ g, tileFlight t fid = some (g, { w with
      sampled := w.sampled.filter fun x => x != t0
      prim := w.prim.filter fun x => x.1 != t0
      dists := if distOver d (shadowThr f) then w.dists ++ [d] else w.dists })

/-- On a token on which no ACQUIRE is held, an addition, by a read or a write of the add alias, by a TOKEN descriptor or by the
signal of a completing descriptor, leaves VALUE at the sum, or at 0xFFFF_FFFF where the sum would exceed it. Where it would,
GEN and OWNER stay, TOK_SAT_CNT is incremented, the event recorder counts it and no other token changes. A subtraction of
the test-and-decrement alias does not raise VALUE: no operation makes VALUE wrap. -/
def Obligations.TokenAdditionsSaturate : Prop :=
  ∀ (part k data fid : Nat) (s : State), Running s → Canonical s → heldOn s k = [] → (tok s k).value ≤ 0xFFFFFFFF →
    let old := tok s k
    let added (p n : Nat) (t : State) : Prop :=
      (tok t k).value = min (old.value + n) 0xFFFFFFFF ∧ (0xFFFFFFFF < old.value + n →
        TokenIs k { old with value := 0xFFFFFFFF } s t ∧
        rg t pgTok Fld.TOK_SAT_CNT = (rg s pgTok Fld.TOK_SAT_CNT + 1) % 2 ^ 32 ∧ Counted ⟨pgTok, 0x09, 0, 4, some p⟩ 0 s t)
    (bootDone s = true → old.owner = part → old.poisoned = false →
      NextIs (exec (.tokenAddRead part k) s) (added part 1) ∧
      NextIs (exec (.tokenAddWrite part k data) s) (added part (data % 2 ^ 32)) ∧
      NextIs (exec (.tokenTestDecRead part k) s) (fun t => (tok t k).value ≤ old.value) ∧
      NextIs (exec (.tokenTestDecWrite part k data) s) (fun t => (tok t k).value ≤ old.value)) ∧
    (∀ f, tokFlight s fid 1 = some f → (tokenBody f).1 = k → NextIs (exec (.tokenAdd fid) s) (added f.q (tokenBody f).2)) ∧
    (∀ f code, flightOf s fid = some f → f.result = some code → isF code = false →
      (s.accs.any fun c => c.fid == fid && c.isWrite && !c.done) = false → canReport s f.bytes f.addr = true →
      logHeld s f = false → (scanOutcome f (attnScores f (s, none))).2 = none → dSigEn f.bytes = true → dSigTok f.bytes = k →
      NextIs (exec (.descriptorComplete fid) s) (added f.q (dSigInc f.bytes)))

/-- A SNAP by the partition that holds the array, or by partition 0 for a stack engine, copies each live counter into the low
and the high word of its snapshot and leaves the live counters; a CLEAR zeroes the live counters, after that copy where it
also snaps, and else leaves the snapshots. TPL_CLEAR by partition 0 zeroes the planner's seven counters; CLEAR_PEAK zeroes
PEAK_W. Each answers OK, and every other register bit and every other unit stay as they are. An access by any other
partition answers PARTITION_VIOLATION with data 0 and changes nothing else. It rests on a reading or a choice of the model:
log entry 116. -/
def Obligations.CountersAreSnappedAndCleared : Prop :=
  ∀ (part n k p : Nat) (snap : Bool) (s : State), Ready s → n < 160 → k < 8 → p < 16 →
    let arrFlds := (List.range 18).map fun i => (pgArr n, fldAt Fld.ARR_RUN_CYC i)
    let stkFlds := (List.range 12).map fun i => (pgStk k, fldAt Fld.STK_OPS i)
    let arrSnapped (t : State) : Prop := OnlyFields arrFlds s t ∧ ∀ i, i < 9 →
      rg t (pgArr n) (fldAt Fld.ARR_RUN_CYC (2 * i)) + 2 ^ 32 * rg t (pgArr n) (fldAt Fld.ARR_RUN_CYC (2 * i + 1)) =
        (arr s n).cnt.getD i 0 % 2 ^ 64
    let stkSnapped (t : State) : Prop := OnlyFields stkFlds s t ∧ ∀ i, i < 6 →
      rg t (pgStk k) (fldAt Fld.STK_OPS (2 * i)) + 2 ^ 32 * rg t (pgStk k) (fldAt Fld.STK_OPS (2 * i + 1)) =
        (tabGet stkDefault s.stks k).cnt.getD i 0 % 2 ^ 64
    let shut := { s with bus := (0x20, 0) }
    (part = arrOwner s n →
      NextIs (exec (.arrSnap part n) s) (fun t => t.bus = (0, 0) ∧ Only [.regs .arr, .bus] s t ∧ arrSnapped t) ∧
      NextIs (exec (.arrClear part n snap) s) (fun t => t.bus = (0, 0) ∧ Only [.regs .arr, .arrs, .bus] s t ∧
        (if snap then arrSnapped t else t.regs = s.regs) ∧ arr t n = { arr s n with cnt := List.replicate 9 0 } ∧
        ∀ m, m ≠ n → arr t m = arr s m)) ∧
    (part ≠ arrOwner s n → exec (.arrSnap part n) s = .next shut ∧ exec (.arrClear part n snap) s = .next shut) ∧
    (part = 0 →
      NextIs (exec (.stkSnap part k) s) (fun t => t.bus = (0, 0) ∧ Only [.regs .stk, .bus] s t ∧ stkSnapped t) ∧
      NextIs (exec (.stkClear part k snap) s) (fun t => t.bus = (0, 0) ∧ Only [.regs .stk, .stks, .bus] s t ∧
        (if snap then stkSnapped t else t.regs = s.regs) ∧
        tabGet stkDefault t.stks k = { tabGet stkDefault s.stks k with cnt := List.replicate 6 0 } ∧
        ∀ m, m ≠ k → tabGet stkDefault t.stks m = tabGet stkDefault s.stks m) ∧
      NextIs (exec (.tplClear part p) s) (fun t => t.bus = (0, 0) ∧ Only [.regs .tpl, .bus] s t ∧
        (∀ i, i < 7 → rg t (pgTpl p) (fldAt Fld.TPL_PLANNED i) = 0) ∧
        OnlyFields ((List.range 7).map fun i => (pgTpl p, fldAt Fld.TPL_PLANNED i)) s t) ∧
      NextIs (exec (.clearPeak part) s) (fun t => t.bus = (0, 0) ∧ Only [.regs .pwr, .bus] s t ∧
        rg t pgPwr Fld.PWR_PEAK = 0 ∧ OnlyFields [(pgPwr, Fld.PWR_PEAK)] s t)) ∧
    (part ≠ 0 → exec (.stkSnap part k) s = .next shut ∧ exec (.stkClear part k snap) s = .next shut ∧
      exec (.tplClear part p) s = .next shut ∧ exec (.clearPeak part) s = .next shut)

/-- A write of a register, and a page control, by a partition that does not own the page, and one to an address that names no
page, answers PARTITION_VIOLATION with data 0 and changes nothing else; so does an access of another partition than 0 to a
command register or control of the pages that partition 0 owns. It rests on a reading or a choice of the model: log entry
98. -/
def Obligations.RegisterAccessesAreChecked : Prop :=
  ∀ (c : Instr) (part addr : Nat) (data : Word) (s : State), Ready s →
    (c ∈ [.registerWrite part addr data, .pageCommit part addr data, .pageReset part addr, .pageEnable part addr data,
        .pageQuiesce part addr data, .pageErrClear part addr data] →
      ¬(0xF8000000000 ≤ addr ∧ addr < 0xF8000040000) →
      (addr / 2 ^ 28 = 0xF000 → ∀ pg off, pageOfKey (addr % 2 ^ 28) = some (pg, off) →
        pageKind pg = none ∨ part ≠ pageOwner s pg) → exec c s = .next { s with bus := (0x20, 0) }) ∧
    (c ∈ [.memReclaim part data, .assign part addr, .unassign part, .lend part, .attestD part, .installA part true,
        .installB part true, .bootStaged part, .evrFlush part, .dump part, .ringRead part addr, .evrClear part,
        .prtCreate part addr 0, .prtDestroy part addr, .prtSuspend part addr, .prtResume part addr, .prtRestart part addr 0] →
      part ≠ 0 → exec c s = .next { s with bus := (0x20, 0) })

/-- A write by the owner of an open page to an aligned register above the common ones, whose write has no effect of its own,
answers OK. Each RW field of the register takes its bits of the data; each W1C field loses the bits that the data sets; each
RWS field that may be staged takes its bits in the staging copy and stays as it is in the active one; RO and WO fields stay.
No bit outside the fields of that register changes, and nothing else. -/
def Obligations.RegisterWritesLandUnderTheirAccessCodes : Prop :=
  ∀ (part addr off : Nat) (data : Word) (pg : Page) (s : State), Ready s → addr / 2 ^ 28 = 0xF000 →
    pageOfKey (addr % 2 ^ 28) = some (pg, off) → (pageKind pg).isSome = true → part = pageOwner s pg → off % 4 = 0 →
    0x100 ≤ off → actionWrite pg off data.toNat part s = none →
    let here := (pageFields pg).filter fun d => d.fld.off == off
    let v (f : Fld) := bits f.hi f.lo data.toNat
    NextIs (exec (.registerWrite part addr data) s) fun t => t.bus = (0, 0) ∧ Only [.regs pg.blk, .staged, .bus] s t ∧
      OnlyFields (here.map fun d => (pg, d.fld)) s t ∧ ∀ d, d ∈ here →
        (d.acc = .rw → rg t pg d.fld = v d.fld) ∧
        (d.acc = .w1c → rg t pg d.fld = rg s pg d.fld &&& (2 ^ (d.fld.hi + 1 - d.fld.lo) - 1 - v d.fld)) ∧
        (d.acc = .rws → rg t pg d.fld = rg s pg d.fld ∧
          stg t pg d.fld = if (stagedFields pg).contains d.fld then v d.fld else stg s pg d.fld) ∧
        (d.acc = .ro ∨ d.acc = .wo → rg t pg d.fld = rg s pg d.fld)

/-- A write of the key 0xC011 to PAGE_COMMIT by the owner of the page checks the staged fields. Where no field is staged with a
changed value, or no rule of the page refuses one, every staged field becomes active in one step, no staging copy changes
and PAGE_GEN increments. Otherwise no active field changes but PAGE_COMMIT_STAT, which names the refused field of the lowest
offset, and of those the lowest bit. A write of another key has no effect. -/
def Obligations.CommitsActTogetherOrNotAtAll : Prop :=
  ∀ (part addr off : Nat) (data : Word) (pg : Page) (s : State), Ready s → addr / 2 ^ 28 = 0xF000 →
    pageOfKey (addr % 2 ^ 28) = some (pg, off) → (pageKind pg).isSome = true → part = pageOwner s pg →
    let stat := [Fld.PAGE_COMMIT_STAT_FAILED, Fld.PAGE_COMMIT_STAT_OFFSET, Fld.PAGE_COMMIT_STAT_LSB].map fun f => (pg, f)
    let changed := (stagedFields pg).any (stagedNew s pg)
    (data.toNat % 65536 ≠ 0xC011 → exec (.pageCommit part addr data) s = .next { s with bus := (0, 0) }) ∧
    (data.toNat % 65536 = 0xC011 → changed = true → badFields s pg ≠ [] →
      NextIs (exec (.pageCommit part addr data) s) fun t => t.bus = (0, 0) ∧ Only [.regs pg.blk, .bus] s t ∧ OnlyFields stat s t ∧
        rg t pg Fld.PAGE_COMMIT_STAT_FAILED = 1 ∧ ∃ f, f ∈ badFields s pg ∧
          rg t pg Fld.PAGE_COMMIT_STAT_OFFSET = f.off % 4096 ∧ rg t pg Fld.PAGE_COMMIT_STAT_LSB = f.lo % 32 ∧
          ∀ g, g ∈ badFields s pg → f.off < g.off ∨ (f.off = g.off ∧ f.lo ≤ g.lo)) ∧
    (data.toNat % 65536 = 0xC011 → changed = false ∨ badFields s pg = [] →
      NextIs (exec (.pageCommit part addr data) s) fun t => t.bus = (0, 0) ∧ rg t pg Fld.PAGE_COMMIT_STAT_FAILED = 0 ∧
        rg t pg Fld.PAGE_GEN = (rg s pg Fld.PAGE_GEN + 1) % 2 ^ 32 ∧ t.staged = s.staged ∧
        (∀ f, f ∈ stagedFields pg → rg t pg f = stg s pg f))

/-- By the owner of an open page, each answers OK. A reset request acts while the page's STATE is OFF, IDLE, HOLD or FAULT, on a
page that may be reset: every field takes its reset value in both copies, but for those that a reset keeps in the active
copy; a HIF channel whose session ends with the reset has none then, and its page holds what that end counts and records.
Otherwise it changes no register of the page's block but counts as a CONTROL event of detail 1. ENABLE and QUIESCE act on
FAB pages only: QUIESCE takes its bit; ENABLE takes its bit, starts the training of a port that is DOWN and has its lanes,
and brings a port DOWN; where no lease is held, nothing else changes with it. A clearing write of PAGE_ERR clears ERR with
PAGE_ERR_INFO, and OVER, where it sets their bits, and nothing else. It rests on readings or choices of the model: log
entries 89 and 91. -/
def Obligations.PageControls : Prop :=
  ∀ (part addr off : Nat) (data : Word) (pg : Page) (s : State), Ready s → addr / 2 ^ 28 = 0xF000 →
    pageOfKey (addr % 2 ^ 28) = some (pg, off) → (pageKind pg).isSome = true → part = pageOwner s pg →
    let x := pageState s pg
    let acts := (x = 0 ∨ x = 1 ∨ x = 4 ∨ (x = 5 ∧ pg.blk ≠ .dsp)) ∧ pg.blk ≠ .dev ∧ pg.blk ≠ .boot ∧ pg ≠ pgSecDev ∧
      ¬(pageKind pg = some .col ∧ ∃ c, c ∈ s.col.ctxs ∧ c.part = pg.inst)
    let en := [Fld.PAGE_ERR_ERR, Fld.PAGE_ERR_OVER, Fld.PAGE_ERR_INFO_CODE, Fld.PAGE_ERR_INFO_DETAIL].map fun f => (pg, f)
    (acts → pageKind pg ≠ some .hifCh → NextIs (exec (.pageReset part addr) s) fun t => t.bus = (0, 0) ∧ ∀ d, d ∈ pageFields pg →
      rg t pg d.fld = (if d.fld ∈ keptFields pg ++ hardFields s pg then rg s pg d.fld
        else fldGet d.fld (resetWord (regKey pg d.fld.off))) ∧
      stg t pg d.fld = fldGet d.fld (resetWord (regKey pg d.fld.off))) ∧
    (acts → pageKind pg = some .hifCh → NextIs (exec (.pageReset part addr) s) fun t => t.bus = (0, 0) ∧
      (∀ d, d ∈ pageFields pg → (pg, d.fld) ∉ (pg, Fld.HIF_CH_LOST) :: en →
        rg t pg d.fld = (if d.fld ∈ keptFields pg ++ hardFields s pg then rg s pg d.fld
          else fldGet d.fld (resetWord (regKey pg d.fld.off)))) ∧
      ((∃ f, f ∈ sessFields ∧ rg t pg f ≠ rg s pg f) → sessOf t (pg.inst - 16) = none)) ∧
    (¬acts → NextIs (exec (.pageReset part addr) s) fun t => t.bus = (0, 0) ∧ Counted ⟨pg, 0x10, 0, 1, pagePart pg⟩ 1 s t ∧
      Only [.regs .ras, .regs .evr, .bus, .evr, .freeCtr] s t) ∧
    (pageKind pg ≠ some .fab → exec (.pageEnable part addr data) s = .next { s with bus := (0, 0) } ∧
      exec (.pageQuiesce part addr data) s = .next { s with bus := (0, 0) }) ∧
    (pageKind pg = some .fab →
      NextIs (exec (.pageQuiesce part addr data) s) (fun t => t.bus = (0, 0) ∧ Only [.regs .fab, .bus] s t ∧
        OnlyFields [(pg, Fld.PAGE_CTRL_QUIESCE)] s t ∧ rg t pg Fld.PAGE_CTRL_QUIESCE = b2n (bit 1 data.toNat)) ∧
      NextIs (exec (.pageEnable part addr data) s) (fun t => t.bus = (0, 0) ∧
        rg t pg Fld.PAGE_CTRL_ENABLE = b2n (bit 0 data.toNat) ∧
        (bit 0 data.toNat = true ∨ s.leases = [] → Only [.regs .fab, .ports, .bus] s t ∧
          OnlyFields [(pg, Fld.PAGE_CTRL_ENABLE), (pg, Fld.FAB_TRAIN_ATTEMPTS)] s t ∧
          ∀ p, p ≠ pg.inst → portOf t p = portOf s p) ∧
        (bit 0 data.toNat = true → (portOf s pg.inst).state = .down → (portOf s pg.inst).serdesFail = false →
          (portOf t pg.inst).state = .pmdTrain ∧ CountsUp pg Fld.FAB_TRAIN_ATTEMPTS 1 s t) ∧
        (bit 0 data.toNat = true → (portOf s pg.inst).state ≠ .down → t.ports = s.ports) ∧
        (bit 0 data.toNat = false → (portOf t pg.inst).state = .down))) ∧
    NextIs (exec (.pageErrClear part addr data) s) fun t => t.bus = (0, 0) ∧ Only [.regs pg.blk, .bus] s t ∧ OnlyFields en s t ∧
      (if bit 0 data.toNat then rg t pg Fld.PAGE_ERR_ERR = 0 ∧ rg t pg Fld.PAGE_ERR_INFO_CODE = 0 ∧
          rg t pg Fld.PAGE_ERR_INFO_DETAIL = 0
        else rg t pg Fld.PAGE_ERR_ERR = rg s pg Fld.PAGE_ERR_ERR ∧
          rg t pg Fld.PAGE_ERR_INFO_CODE = rg s pg Fld.PAGE_ERR_INFO_CODE ∧
          rg t pg Fld.PAGE_ERR_INFO_DETAIL = rg s pg Fld.PAGE_ERR_INFO_DETAIL) ∧
      rg t pg Fld.PAGE_ERR_OVER = if bit 1 data.toNat then 0 else rg s pg Fld.PAGE_ERR_OVER

/-- A stage of training that ends well leads to the next state, and in FLIT_ALIGN the port sends its advertisement; a failure of
any stage, an AUTH that times out or goes wrong, or a partner that is not accepted leads to BACKOFF with the next back-off
of 1, 2, 4 ms up to 1 s; its end starts a training. In FLIT_ALIGN, 16 good TRAIN flits in a row fix the partner and lead to
AUTH: with the partner it had, the flits of messages that it has not acknowledged are kept; with another, the link starts
afresh. A bad flit, or a good one of another type, starts the count again. In AUTH, a NONCE, then the pieces of the chain in
their order, then a PROOF that shows an acceptable partner lead to UP; a step out of its turn is a failure. In UP, a RETRAIN
request, a loss of lock, and the hundredth low margin where policy asks for it retrain the port: it keeps what it holds. A
port that is not yet in FLIT_ALIGN hears no flits; other ports never change. It rests on readings or choices of the model:
log entries 20, 66, 67, 68 and 131. -/
def Obligations.PortsTrainAndAuthenticate : Prop :=
  ∀ (p : Nat) (low gap : Bool) (b : List Byte) (f : Flit) (s : State), Running s → p < 16 →
    let x := portOf s p
    let i := trainOf f.payload
    let others (t : State) : Prop := ∀ q, q ≠ p → portOf t q = portOf s q
    let failed (t : State) : Prop := others t ∧ portOf t p = { x with
      state := .backoff
      authed := false
      partner := none
      backoffMs := min 1000 (2 ^ min 10 x.fails)
      fails := x.fails + 1 }
    let refused (t : State) : Prop := others t ∧ CountsUp pgSecDev Fld.SEC_LINK_AUTH_FAIL 1 s t ∧
      (portOf t p).state = .backoff ∧ (portOf t p).authed = false ∧ (portOf t p).partner = none ∧
      (portOf t p).backoffMs = min 1000 (2 ^ min 10 x.fails) ∧ (portOf t p).fails = x.fails + 1
    let retrained (x : Port) (t : State) : Prop := others t ∧ CountsUp (pgFab p) Fld.FAB_RETRAINS 1 s t ∧
      CountsUp (pgFab p) Fld.FAB_TRAIN_ATTEMPTS 1 s t ∧ portOf t p = { x with
        state := .pmdTrain
        authed := false
        partner := none
        prev := partnerNow x
        trainGood := 0
        replays := 0
        margin := 0
        outage := true }
    let m := if low then x.margin + 1 else 0
    let due := 100 ≤ m ∧ (gap = true ∨ rg s (pgFab p) Fld.FAB_LINK_POL_MIN_GAP_S = 0) ∧ rg s (pgFab p) Fld.FAB_LINK_POL_DEFER = 0
    let now := some (i.kind, i.id)
    let step := bF f.payload 0 1
    let idx := bF f.payload 1 1
    (x.state = .pmdTrain →
      NextIs (exec (.pmdTrainDone p true) s) (fun t => others t ∧ portOf t p = { x with
        state := .pcsLock
        trainGood := 0 }) ∧
      NextIs (exec (.pmdTrainDone p false) s) failed) ∧
    (x.state = .pcsLock →
      NextIs (exec (.pcsLockDone p true) s) (fun t => others t ∧ (∃ c, t.out = .flit p c :: s.out ∧ part 8 18 c = ownTrain s p) ∧
        portOf t p = { x with
          state := .flitAlign
          trainGood := 0
          crvl := (x.crvl + 1) % 4 }) ∧
      NextIs (exec (.pcsLockDone p false) s) failed) ∧
    (x.state = .flitAlign →
      (flitOf b = some f → f.ftype = 5 → x.trainGood < 15 → NextIs (exec (.trainFlitReceive p b false) s) fun t => others t ∧
        portOf t p = { x with trainGood := x.trainGood + 1 }) ∧
      (flitOf b = some f → f.ftype = 5 → 15 ≤ x.trainGood → NextIs (exec (.trainFlitReceive p b false) s) fun t => others t ∧
        (portOf t p).state = .auth ∧ (portOf t p).partner = some i ∧ (portOf t p).prev = now ∧ (portOf t p).nonce.length = 32 ∧
        (if x.prev = now then (portOf t p).queue = x.queue ∧ (portOf t p).inbox = x.inbox ∧ (portOf t p).rxSeq = x.rxSeq ∧
            (portOf t p).kept = (x.held.drop (ackCover x f.ack)).filter (fun g => g.ftype != 4) ++ x.kept
          else (portOf t p).queue = [] ∧ (portOf t p).inbox = [] ∧ (portOf t p).rxSeq = 0 ∧ (portOf t p).kept = [] ∧
            (portOf t p).credits = i.credits) ∧
        (x.prev ≠ none → x.prev ≠ now → CountsUp (pgFab p) Fld.FAB_PARTNER_CHG 1 s t)) ∧
      (flitOf b = some f → f.ftype ≠ 5 → NextIs (exec (.trainFlitReceive p b false) s) fun t => others t ∧
        (portOf t p).trainGood = 0 ∧ (portOf t p).state = .flitAlign) ∧
      NextIs (exec (.trainFlitReceive p b true) s) (fun t => others t ∧ (portOf t p).trainGood = 0 ∧
        (portOf t p).state = .flitAlign ∧ CountsUp (pgFab p) Fld.FAB_CRC_ERR 1 s t)) ∧
    (x.state = .flitAlign ∨ x.state = .auth → NextIs (exec (.pcsLockLoss p) s) failed) ∧
    (x.state = .auth →
      NextIs (exec (.authTimeout p) s) refused ∧
      (flitOf b = some f → f.ftype = 4 → f.seq = x.rxSeq → NextIs (exec (.authFlitReceive p b false) s) fun t =>
        (step = 1 → x.partnerNonce = [] → others t ∧ (portOf t p).state = .auth ∧
          (portOf t p).partnerNonce = (f.payload.drop 4).take 32) ∧
        (step = 2 → x.partnerNonce ≠ [] → idx = x.certs.length → idx < bF f.payload 2 1 → others t ∧
          (portOf t p).state = .auth ∧ (portOf t p).certs = x.certs ++ [f.payload.drop 4]) ∧
        (step = 3 → authJudge s p ((f.payload.drop 4).take 96) = true → others t ∧ (portOf t p).state = .up ∧
          (portOf t p).authed = true ∧ (portOf t p).fails = 0 ∧ (portOf t p).rxSeq = (x.rxSeq + 1) % 4096) ∧
        (step = 1 ∧ x.partnerNonce ≠ [] ∨ step = 2 ∧ (x.partnerNonce = [] ∨ idx ≠ x.certs.length) ∨
          step = 3 ∧ authJudge s p ((f.payload.drop 4).take 96) = false → refused t))) ∧
    (x.state = .backoff → NextIs (exec (.portBackoffExpiry p) s) fun t => others t ∧
      CountsUp (pgFab p) Fld.FAB_TRAIN_ATTEMPTS 1 s t ∧ portOf t p = { x with
        state := .pmdTrain
        authed := false
        partner := none
        trainGood := 0 }) ∧
    (x.state = .up →
      (flitOf b = some f → f.ftype = 3 → step = 2 → NextIs (exec (.retrainRequest p b false) s) (retrained (takeFields f x))) ∧
      NextIs (exec (.pcsLockLoss p) s) (retrained x) ∧
      (due → NextIs (exec (.marginCheck p low gap) s) (retrained x)) ∧
      (¬due → NextIs (exec (.marginCheck p low gap) s) fun t => others t ∧ portOf t p = { x with margin := m })) ∧
    (x.state ≠ .up → exec (.marginCheck p low gap) s = .next s) ∧
    (x.state ≠ .flitAlign → x.state ≠ .auth → x.state ≠ .up → ∀ c, c ∈ [.retrainRequest p b low, .trainFlitReceive p b low,
      .authFlitReceive p b low, .nakReceive p b low, .sequencedFlitReceive p b low gap] → exec c s = .next s)

/-- In UP. A flit whose CRC or type is bad, or that a codeword beyond repair touches, is discarded and counted, and is answered
by one NAK where a flit has been accepted since the last one; with the one that reaches the threshold the port retrains. A
good HEAD or BODY flit out of its turn is discarded; one in its turn advances the expected number, and one that is not the
last joins its lane's message, a HEAD beginning it; a message of one flit is kept for its consumer where its tag, its key
and its counter hold, and else dropped and counted. A NAK, and a time without an advance of ACK, re-send the held flits from
the number named, or all of them, and count them. MESSAGE_SEND sends flits of the lane that arbitration picks: they stand at
the end of the replay buffer, each against a credit of its lane, under the next numbers; a message that begins leaves the
queue, protected under the next counter of its key, or dropped and counted without a key. A message of VL0 or VL2 whose HEAD
waits for a credit moves to VL3, whole, and is counted. It rests on readings or choices of the model: log entries 20, 22,
66, 67, 68 and 131. -/
def Obligations.PortsCarryMessages : Prop :=
  ∀ (p : Nat) (b : List Byte) (f : Flit) (thr : Bool) (l : Nat) (s : State), Running s → p < 16 → (portOf s p).state = .up →
    let x := portOf s p
    let y := takeFields f x
    let others (t : State) : Prop := ∀ q, q ≠ p → portOf t q = portOf s q
    let quiet := rg s (pgFab p) Fld.PAGE_CTRL_QUIESCE == 1
    let sent (z : Port) (l : List Flit) (t : State) : Prop :=
      t.out = ((stampFlits z l).map fun g => Out.flit p (flitBytes g)).reverse ++ s.out
    let valid := rg s pgColDev Fld.COL_DEV_ID_VALID = 1
    let pick := lanePick x quiet (rg s (pgFab p) Fld.FAB_LANE_POL_W1) (rg s (pgFab p) Fld.FAB_LANE_POL_W2)
    (∀ fec, fec = true ∨ flitOf b = none →
      NextIs (exec (.sequencedFlitReceive p b fec false) s) (fun t => others t ∧ CountsUp (pgFab p) Fld.FAB_CRC_ERR 1 s t ∧
        (if x.nakReady then sent x [linkFlit 1 x.rxSeq] t ∧ CountsUp (pgFab p) Fld.FAB_NAKS 1 s t ∧ portOf t p = { x with
            trainGood := 0
            nakReady := false
            crvl := (x.crvl + 1) % 4 }
        else t.out = s.out ∧ portOf t p = { x with trainGood := 0 })) ∧
      NextIs (exec (.sequencedFlitReceive p b fec true) s) (fun t => others t ∧ CountsUp (pgFab p) Fld.FAB_RETRAINS 1 s t ∧
        (portOf t p).state = .pmdTrain ∧ (portOf t p).held = x.held)) ∧
    (flitOf b = some f → f.ftype = 1 ∨ f.ftype = 2 → f.seq ≠ x.rxSeq →
      NextIs (exec (.sequencedFlitReceive p b false thr) s) fun t => others t ∧ portOf t p = y ∧ Only [.ports] s t) ∧
    (flitOf b = some f → f.ftype = 1 ∨ (f.ftype = 2 ∧ x.partials.getD f.vl [] ≠ []) → f.seq = x.rxSeq → f.last = false →
      f.vl < x.partials.length → NextIs (exec (.sequencedFlitReceive p b false thr) s) fun t => others t ∧
        (portOf t p).rxSeq = (x.rxSeq + 1) % 4096 ∧ (portOf t p).nakReady = true ∧ (portOf t p).inbox = x.inbox ∧
        (portOf t p).partials = x.partials.set f.vl (if f.ftype = 1 then [f] else x.partials.getD f.vl [] ++ [f])) ∧
    (flitOf b = some f → f.ftype = 1 → f.seq = x.rxSeq → f.last = true → rg s pgColDev Fld.COL_DEV_ID_VALID ≠ 0 →
      let mt := bF f.payload 0 1
      let win := ivAccept s.ivs (bF f.payload 208 4) (bF f.payload 212 4) (bF f.payload 216 8)
      (openMsg s f.payload [] = none ∨ win = none → NextIs (exec (.sequencedFlitReceive p b false thr) s) fun t => others t ∧
        CountsUp (pgFab p) Fld.FAB_AUTH_FAIL 1 s t ∧ (portOf t p).inbox = x.inbox ∧ t.ivs = s.ivs) ∧
      (∀ body, openMsg s f.payload [] = some body → win ≠ none → deviceMsg mt = true → f.dst = fabId s →
        NextIs (exec (.sequencedFlitReceive p b false thr) s) fun t => others t ∧ win = some t.ivs ∧
          (portOf t p).inbox = x.inbox ++ [⟨f.vl, laneOf mt, f.dst, bF f.payload 212 4, f.payload, body, 0, 0⟩])) ∧
    (flitOf b = some f → f.ftype = 3 → bF f.payload 0 1 = 1 →
      let l := y.held.drop (ackCover y (bF f.payload 4 2 % 4096))
      NextIs (exec (.nakReceive p b false) s) fun t => others t ∧ sent y l t ∧ CountsUp (pgFab p) Fld.FAB_REPLAYS l.length s t ∧
        (portOf t p).held = y.held) ∧
    (x.held ≠ [] → x.replays + 1 < 8 → NextIs (exec (.replayTimeout p) s) fun t => others t ∧ sent x x.held t ∧
      CountsUp (pgFab p) Fld.FAB_REPLAYS x.held.length s t ∧ portOf t p = { x with
        replays := x.replays + 1
        crvl := (x.crvl + x.held.length) % 4 }) ∧
    (x.held ≠ [] → 8 ≤ x.replays + 1 → NextIs (exec (.replayTimeout p) s) fun t => others t ∧ sent x x.held t ∧
      (portOf t p).state = .pmdTrain ∧ (portOf t p).held = x.held) ∧
    (x.held = [] → exec (.replayTimeout p) s = .next s) ∧
    (∀ m n, valid → pick = some l → l < x.credits.length → l < x.cur.length → x.cur.getD l none = some (m, n) →
      n < (msgFlits m).length → NextIs (exec (.messageSend p) s) fun t => others t ∧ ∃ k, 0 < k ∧
        k = min ((msgFlits m).length - n) (min (x.credits.getD l 0) (heldRoom x)) ∧
        (portOf t p).txSeq = (x.txSeq + k) % 4096 ∧ (portOf t p).credits = x.credits.set l (x.credits.getD l 0 - k) ∧
        (portOf t p).held = x.held ++ numberFlits x (((msgFlits m).drop n).take k) ∧
        sent x (numberFlits x (((msgFlits m).drop n).take k)) t ∧
        (portOf t p).cur.getD l none = if n + k = (msgFlits m).length then none else some (m, n + k)) ∧
    (∀ m j, valid → pick = some l → x.cur.getD l none = none → laneNext x false l = some (m, 0) → bF m.head 208 4 = 0 →
      jobSlot s m.keyPart m.keySlot = some j → NextIs (exec (.messageSend p) s) fun t => others t ∧
        (portOf t p).queue = x.queue.erase m ∧ (∃ k, 0 < k ∧
          (portOf t p).held = x.held ++ numberFlits x ((msgFlits (sealMsg s m j)).take k)) ∧
        jobSlot t m.keyPart m.keySlot = some { j with ivctr := j.ivctr + 1 }) ∧
    (∀ m, valid → pick = some l → x.cur.getD l none = none → laneNext x false l = some (m, 0) → bF m.head 208 4 = 0 →
      jobSlot s m.keyPart m.keySlot = none → NextIs (exec (.messageSend p) s) fun t => others t ∧
        (portOf t p).queue = x.queue.erase m ∧ (portOf t p).held = x.held ∧ CountsUp (pgFab p) Fld.FAB_AUTH_FAIL 1 s t) ∧
    (∀ m n, l = 0 ∨ l = 2 → x.credits.getD l 0 = 0 → x.cur.getD l none = none → laneNext x false l = some (m, n) →
      NextIs (exec (.escapeTimeout p l) s) fun t => others t ∧ CountsUp (pgFab p) Fld.FAB_ESCAPES 1 s t ∧ portOf t p = { x with
        queue := x.queue.replace m { m with vl := 3 } })

/-- At the end of an interval the page shows the measured power, the hottest sensor and the peak. Unless a thermal fault stops
the arrays, an interval above the cap, or a sensor of 100 °C or more, leads to one down-step. Where an array runs above its
FLOOR, those of them at their highest point move down one point. Where none does and the envelope or the junction limit asks
for it, the arrays at the highest point present, if that is above 0.9 GHz, move down one point, each counted as an override
on both pages; else the duty falls by one eighth, to one eighth at least. Where neither asks for it, the interval counts as
a miss of the cap. It rests on a reading or a choice of the model: log entry 44. -/
def Obligations.TheLimiterStepsDown : Prop :=
  ∀ (mean ms temp : Nat) (s : State), Running s →
    let therm := 100 ≤ temp
    let hard := therm ∨ 2000 < mean
    let acts := arraysStopped s = false ∧ (therm ∨ min (rg s pgPwr Fld.PWR_POL) 2000 < mean)
    let above (n : Nat) : Prop := n < 160 ∧ pointOf s n < floorOf s n
    let fast (n : Nat) : Prop := n < 160 ∧ pointOf s n < 3
    let top (P : Nat → Prop) (n : Nat) : Prop := P n ∧ ∀ m, P m → pointOf s n ≤ pointOf s m
    let shown (t : State) : Prop := rg t pgPwr Fld.PWR_STAT_INPUT_W = min ms 0x7FF ∧
      rg t pgPwr Fld.PWR_STAT_TJ_MAX = min temp 255 ∧ (rg t pgPwr Fld.PWR_STAT_THERM_ACT = 1 ↔ therm) ∧
      rg t pgPwr Fld.PWR_PEAK = max (min ms 0x7FF) (rg s pgPwr Fld.PWR_PEAK)
    let counted (t : State) : Prop := shown t ∧ CountsUp pgPwr Fld.PWR_STEPS_DOWN 1 s t ∧
      (therm → CountsUp pgPwr Fld.PWR_THERM_STEPS 1 s t)
    let still (t : State) : Prop := ∀ n, n < 160 → pointOf t n = pointOf s n
    let down (P : Nat → Prop) (l : List Nat) (t : State) : Prop := counted t ∧ l.Nodup ∧ (∀ n, n ∈ l ↔ top P n) ∧
      t.pwr.steps = .points l :: s.pwr.steps ∧ rg t pgClkDev Fld.CLK_DUTY = rg s pgClkDev Fld.CLK_DUTY ∧ ∀ n, n < 160 →
        (top P n → pointOf t n = pointOf s n + 1) ∧ (¬top P n → pointOf t n = pointOf s n)
    let go := exec (.limiterInterval mean ms temp) s
    (¬acts → NextIs go fun t => shown t ∧ still t ∧ t.pwr = s.pwr ∧ OnlyFields [(pgPwr, Fld.PWR_STAT_INPUT_W),
      (pgPwr, Fld.PWR_STAT_TJ_MAX), (pgPwr, Fld.PWR_STAT_THERM_ACT), (pgPwr, Fld.PWR_PEAK)] s t) ∧
    (acts → (∃ n, above n) → NextIs go fun t => ∃ l, down above l t ∧
      rg t pgPwr Fld.PWR_OVERRIDES = rg s pgPwr Fld.PWR_OVERRIDES) ∧
    (acts → (∀ n, ¬above n) → hard → (∃ n, fast n) → NextIs go fun t => ∃ l, down fast l t ∧
      CountsUp pgPwr Fld.PWR_OVERRIDES l.length s t ∧
      ∀ p, p < 16 → CountsUp (pgClk p) Fld.CLK_OVR (l.filter fun n => arrOwner s n == p).length s t) ∧
    (acts → (∀ n, ¬above n) → hard → (∀ n, ¬fast n) → 1 < rg s pgClkDev Fld.CLK_DUTY → NextIs go fun t => counted t ∧ still t ∧
      rg t pgClkDev Fld.CLK_DUTY = rg s pgClkDev Fld.CLK_DUTY - 1 ∧ t.pwr.steps = .duty :: s.pwr.steps) ∧
    (acts → (∀ n, ¬above n) → ¬hard → NextIs go fun t => shown t ∧ still t ∧ t.pwr = s.pwr ∧
      CountsUp pgPwr Fld.PWR_CAP_MISS 1 s t)

/-- LIMITER_UNDO takes back the newest down-step, counted: each of its arrays moves up one point, but not above its CEIL, nor
one that idles at its FLOOR; a duty step gives an eighth back; with no step, or while a thermal fault has the arrays
stopped, nothing changes. A thermal fault, possible only with every array at 0.9 GHz and duty one eighth, stops every array
at duty 0 and sets FAULT_THERM; its end clears it and resumes at duty one eighth; no point changes. The idle step puts an
array without a run at its FLOOR where EFF_EN is 1. A stretch of the voltage guard counts in PWR_GUARD and changes no point.
A report of MR4 sets the code and the multiplier of its package. It rests on a reading or a choice of the model: log entry
92. -/
def Obligations.ClocksRecoverAndFollowTheSensors : Prop :=
  ∀ (n island pkg code mult : Nat) (s : State), Running s →
    let still (t : State) : Prop := ∀ k, k < 160 → pointOf t k = pointOf s k
    (s.pwr.steps = [] → exec .limiterUndo s = .next s) ∧
    (arraysStopped s = true → exec .limiterUndo s = .next s) ∧
    (∀ l rest, arraysStopped s = false → s.pwr.steps = .points l :: rest → l.Nodup → (∀ k, k ∈ l → k < 160) →
      NextIs (exec .limiterUndo s) fun t => CountsUp pgPwr Fld.PWR_STEPS_UP 1 s t ∧ t.pwr = { s.pwr with steps := rest } ∧
        ∀ k, k < 160 →
          let stays := pointOf s k ≤ ceilOf s k ∨
            ((arr s k).run = none ∧ rg s (pgClk (arrOwner s k)) Fld.CLK_POL_EFF_EN = 1 ∧ pointOf s k = floorOf s k)
          (k ∈ l → ¬stays → pointOf t k = pointOf s k - 1) ∧ (k ∉ l ∨ stays → pointOf t k = pointOf s k)) ∧
    (∀ rest, arraysStopped s = false → s.pwr.steps = .duty :: rest → NextIs (exec .limiterUndo s) fun t =>
      CountsUp pgPwr Fld.PWR_STEPS_UP 1 s t ∧
      t.pwr = { s.pwr with steps := rest } ∧ still t ∧
      rg t pgClkDev Fld.CLK_DUTY = min 8 (rg s pgClkDev Fld.CLK_DUTY + 1)) ∧
    (arraysStopped s = false → rg s pgClkDev Fld.CLK_DUTY = 1 → (∀ k, k < 160 → pointOf s k = 3) →
      NextIs (exec .thermalFault s) fun t => arraysStopped t = true ∧ rg t pgClkDev Fld.CLK_DUTY = 0 ∧ still t ∧
        rg t pgRas Fld.RAS_DEV_STAT_FAILED = 1 ∧ t.parts = s.parts ∧ t.mem = s.mem ∧ t.flights = s.flights ∧ t.arrs = s.arrs) ∧
    (arraysStopped s = true ∨ rg s pgClkDev Fld.CLK_DUTY ≠ 1 ∨ (∃ k, k < 160 ∧ pointOf s k ≠ 3) →
      exec .thermalFault s = .next s) ∧
    (arraysStopped s = true → NextIs (exec .thermalFaultClear s) fun t => arraysStopped t = false ∧
      rg t pgClkDev Fld.CLK_DUTY = 1 ∧ rg t pgPwr Fld.PWR_STAT_THERM_ACT = 0 ∧ still t ∧ Only [.regs .pwr, .regs .clk] s t) ∧
    (arraysStopped s = false → exec .thermalFaultClear s = .next s) ∧
    (n < 160 → (arr s n).run = none → rg s (pgClk (arrOwner s n)) Fld.CLK_POL_EFF_EN = 1 →
      NextIs (exec (.adaptiveIdleStep n) s) fun t => pointOf t n = max (pointOf s n) (floorOf s n) ∧
        (∀ k, k < 160 → k ≠ n → pointOf t k = pointOf s k) ∧ Only [.regs .clk] s t) ∧
    (island < 242 → NextIs (exec (.voltageGuardStretch island) s) fun t => CountsUp pgPwr Fld.PWR_GUARD 1 s t ∧ still t ∧
      Only [.regs .pwr, .regs .ras, .regs .evr, .evr, .freeCtr] s t) ∧
    (pkg < 16 → mult < 3 → NextIs (exec (.mr4TemperatureReport pkg code mult) s) fun t =>
      rg t (pgLpd pkg) Fld.LPD_REFRESH_MR4 = code % 256 ∧ rg t (pgLpd pkg) Fld.LPD_REFRESH_MULT = mult ∧
      OnlyFields [(pgLpd pkg, Fld.LPD_REFRESH_MR4), (pgLpd pkg, Fld.LPD_REFRESH_MULT)] s t ∧ Only [.regs .lpd] s t)

/-- POWER_UP of a device held in reset always completes with the device running, under the fuses it has had since its first
power-up, for the epoch after the count in flash. Sixteen failed tests of entropy fail the security block and leave boot at
step 2. Otherwise an attempt begins from the state s0, with the keys of the boot made, and is counted; BOOT_BACKOFF_EXPIRY
begins one from the state it finds, where a back-off stands. Unreadable flash ends an attempt with cause 1; neither an
acceptable image nor a staged one, with cause 2; a record of the chosen image that is rejected, with cause 3; an epoch not
read back, with cause 4: STEP is then 9, BACKOFF shows the back-off, and the next one doubles up to 1,000 ms. An image
without records whose epoch is read back is booted: its slot shows, STEP is DONE, the epoch is in flash and in
DEV_BOOT_EPOCH, the staging area reads as zero, and every stack is trained or failed. A device that is not in reset ignores
POWER_UP; one without a back-off ignores BOOT_BACKOFF_EXPIRY. It rests on readings or choices of the model: log entries 1,
3, 8, 71, 72, 93, 95, 96 and 126. -/
def Obligations.BootAttemptsEndInDoneOrInTheirCause : Prop :=
  ∀ (f : Fuses) (ef : Nat) (a : BootObs) (s : State),
    let attempt (o : Host.Outcome State Fault Refusal) (s0 : State) : Prop :=
      let okA := acceptable s0 (flashImage s0 0)
      let okB := acceptable s0 (flashImage s0 1)
      let pick := chooseImage (if okA then some (flashImage s0 0) else none) (if okB then some (flashImage s0 1) else none)
        s0.pwr.staged
      let begun (t : State) : Prop := Running t ∧ CountsUp pgBoot Fld.BOOT_ATTEMPTS 1 s0 t ∧ t.pwr.staged = none
      let failed (cause : Nat) (t : State) : Prop := begun t ∧ rg t pgBoot Fld.BOOT_STATE_STEP = 9 ∧
        rg t pgBoot Fld.BOOT_STATE_FAIL = cause ∧ rg t pgBoot Fld.BOOT_BACKOFF = s0.pwr.nextBackoff % 2 ^ 11 ∧
        t.pwr.nextBackoff = (if 512 ≤ s0.pwr.nextBackoff then 1000 else 2 * s0.pwr.nextBackoff) ∧
        t.pwr.counter = s0.pwr.counter
      let shown (slot : Nat) (t : State) : Prop := rg t pgBoot Fld.BOOT_STATE_SLOT = slot ∧
        rg t pgBoot Fld.BOOT_IMG_A_ACCEPTABLE = b2n okA ∧ rg t pgBoot Fld.BOOT_IMG_B_ACCEPTABLE = b2n okB
      (a.flashOk = false → NextIs o (failed 1)) ∧
      (a.flashOk = true → pick = none → NextIs o fun t => failed 2 t ∧ shown 3 t) ∧
      (∀ slot img, a.flashOk = true → pick = some (slot, img) →
        let records := List.range ((img.length - 352) / 16)
        ((∃ n, n ∈ records ∧ recordOf img n = none) → NextIs o fun t => failed 3 t ∧ shown slot t) ∧
        (records = [] → a.epochBack = false → NextIs o fun t => failed 4 t ∧ shown slot t) ∧
        (records = [] → a.epochBack = true → NextIs o fun t => begun t ∧ shown slot t ∧
          rg t pgBoot Fld.BOOT_STATE_STEP = 10 ∧ t.pwr.image = img ∧ t.pwr.counter = s0.pwr.epoch ∧
          rg t pgDev Fld.DEV_BOOT_EPOCH = s0.pwr.epoch % 2 ^ 32 ∧
          (∀ x, 0x80000000000 ≤ x → x < 0x80001000100 → rd1 t x = 0) ∧
          (∀ k, k < 8 → unitGone s0 false k = false →
            (if bit k a.failedStacks then unitGone t false k = true else rg t (pgMem k) Fld.MEM_STACK_STAT_TRAINED = 1)) ∧
          rg t pgDev Fld.DEV_INVENTORY_STACKS = countBelow 8 fun k => !unitGone t false k))
    let up := exec (.powerUp f ef a) s
    (s.pwr.mode = .inReset → NextIs up fun t => Running t ∧ t.pwr.known = true ∧
      t.pwr.fuses = (if s.pwr.known then s.pwr.fuses else f) ∧ t.pwr.epoch = (s.pwr.counter + 1) % 2 ^ 32) ∧
    (s.pwr.mode = .inReset → 16 ≤ ef → NextIs up fun t => t.sec.failed = true ∧ rg t pgBoot Fld.BOOT_STATE_STEP = 2 ∧
      CountsUp pgSecDev Fld.SEC_ENTROPY_FAIL 16 (bootOne f s) t) ∧
    (s.pwr.mode = .inReset → ef < 16 → attempt up (bootKeys (startDrbg (inc pgSecDev Fld.SEC_ENTROPY_FAIL ef (bootOne f s))))) ∧
    (s.pwr.mode ≠ .inReset → up = .next s) ∧
    (Running s → rg s pgBoot Fld.BOOT_STATE_STEP = 9 → attempt (exec (.bootBackoffExpiry a) s) s) ∧
    (Running s → rg s pgBoot Fld.BOOT_STATE_STEP ≠ 9 →
      exec (.bootBackoffExpiry a) s = .next s)

/-- A fall of MOD_RESET_N leaves the reset state but for the flash, its count of boots and its record, and the contacts; a flush
in progress leaves its header only. A recognised power failure stops everything but the flush: one in progress is abandoned,
and one of cause 1 starts in the frame at the head where one is erased. The seal shows what its contact senses. An opening
instruction with the seal open, on a part whose debug is not fused off, zeroises the keys of every partition, ends every
session, reseeds the DRBG, or fails the security block after sixteen failed tests, opens debug for good, retrains every
fabric port in UP and becomes the current instruction; IDCODE becomes it at once; every other code, and an opening one
otherwise, acts as BYPASS. It rests on readings or choices of the model: log entries 3, 4, 29 and 35. -/
def Obligations.ResetAndPowerFailure : Prop :=
  ∀ (isOpen : Bool) (code ef : Nat) (s : State),
    let jtag := exec (.jtagOpeningInstruction code ef) s
    let bare : Prop := code = 0x00 ∨ code = 0x02 ∨ code = 0x10
    let opens : Prop := bare ∧ s.sec.sealOpen = true ∧ s.pwr.fuses.debugOff = false
    (NextIs (exec .modResetAssert s) fun t =>
      t = { State.reset with
        pwr := { State.reset.pwr with
          counter := s.pwr.counter
          pwrFailN := s.pwr.pwrFailN
          fuses := s.pwr.fuses
          known := s.pwr.known }
        sec := { State.reset.sec with
          sealOpen := s.sec.sealOpen
          draws := s.sec.draws }
        flash := t.flash
        freeCtr := s.freeCtr
        pending := s.pending } ∧
      t.flash = match s.evr.writing with
        | some j => putBytes flashDefault s.flash (frameAddr j.frame) j.header
        | none => s.flash) ∧
    (Running s → NextIs (exec .powerFail s) fun t =>
      t.pwr = { s.pwr with
        mode := .failing
        pwrFailN := false } ∧ Only [.pwr, .flash, .evr, .freeCtr] s t ∧
      t.flash = (match s.evr.writing with
        | some j => putBytes flashDefault s.flash (frameAddr j.frame) j.header
        | none => s.flash) ∧
      (erasedAhead s.evr = 0 → t.evr.writing = none) ∧
      (erasedAhead s.evr ≠ 0 → t.evr.head = (s.evr.head + 1) % 32 ∧
        ∃ j, t.evr.writing = some j ∧ j.frame = s.evr.head ∧ j.cause = 1 ∧ j.slots = s.evr.slots)) ∧
    (NextIs (exec (.sealSenseChange isOpen) s) fun t => t.sec = { s.sec with sealOpen := isOpen } ∧ Only [.sec] s t) ∧
    (Running s → ¬opens → NextIs jtag fun t => Only [.sec] s t ∧
      t.sec = { s.sec with ir := if code = 0x01 then 0x01 else 0xFF }) ∧
    (Running s → opens → s.secJobs = [] → NextIs jtag fun t =>
      t.sec.ir = code ∧ t.sec.debugOpen = true ∧ t.sec.failed = (s.sec.failed || decide (16 ≤ ef)) ∧ t.sec.lend = keySetZero ∧
      (∀ k, k ∈ t.sec.node → k = keyZero) ∧
      CountsUp pgSecDev Fld.SEC_ENTROPY_FAIL (min ef 16) s t ∧
      (ef < 16 → CountsUp pgSecDev Fld.SEC_RESEEDS 1 s t) ∧
      (∀ p, p < 16 → (secOf t p).pka = 0 ∧ (secOf t p).curSet = keySetZero ∧ (secOf t p).oldSet = keySetZero ∧
        (secOf t p).sweeping = false ∧ ∀ j, j ∈ (secOf t p).slots → j.keyid = 0 ∧ j.key = keyZero) ∧
      (∀ c, c < 64 → sessOf t c = none) ∧
      ∀ p, p < 16 → (portOf s p).state = .up → (portOf t p).state = .pmdTrain)

/-- While a boot command waits another one is only marked as ignored. Else one by partition 0 with a stage that does not lie
where the rule wants it completes with PARTITION_VIOLATION, and BOOT_STAGED after DONE with FORMAT. A stage in held memory
makes the command wait. An image that cannot be read completes with the code of the read, one of a wrong form with FORMAT;
of the others, a LENGTH above 16 MiB completes with CAPACITY, a failed hash or signature or a version below the fused least
one with AUTH_FAIL, a failed flash write with HW_FAULT. Else INSTALL_A and INSTALL_B put the image's bytes into their slot's
flash, BOOT_STAGED keeps it for the next attempt and leaves the flash, and the receipt, signed by the identity key, is
written 16 MiB above the stage; the command ends with OK, or with the code of that write. Another partition's command is
refused with PARTITION_VIOLATION. It rests on readings or choices of the model: log entries 42 and 94. -/
def Obligations.BootCommandsJudgeTheStagedImage : Prop :=
  ∀ (slot part : Nat) (flashOk : Bool) (s : State), Running s → slot < 3 →
    let a := stageAddr s
    let len := rg s pgBoot Fld.BOOT_STAGE_LEN
    let img := rdBytes s a len
    let cmd := if slot = 0 then exec (.installA part flashOk) s else if slot = 1 then exec (.installB part flashOk) s
      else exec (.bootStaged part) s
    let rd := if bootDone s then memRead .beside 0 a (min len 0x1000000) s else (s, none)
    let ends (code : Nat) (t : State) : Prop := t.bus = (0, 0) ∧ rg t pgBoot Fld.BOOT_CMD_STAT_CODE = code ∧
      rg t pgBoot Fld.BOOT_CMD_STAT_BUSY = 0
    let only (code : Nat) (t : State) : Prop := ends code t ∧ Only [.regs .boot, .bus] rd.1 t
    let good := imageAuth s img = true ∧ s.pwr.fuses.minVersion ≤ bF img 2 2
    let kept (t : State) : Prop := if slot = 2
      then t.pwr = { s.pwr with staged := some img } ∧ t.flash = s.flash
      else t.pwr = s.pwr ∧ t.flash = putBytes flashDefault s.flash (slotAddr slot) img
    let head := receiptHead s slot img
    let sig (u : State) := signBy (idkKey s) (ascii "OSK-RECOV-1" ++ head) u
    (part ≠ 0 → NextIs cmd fun t => t.bus = (0x20, 0) ∧ Only [.bus] s t) ∧
    (part = 0 → rg s pgBoot Fld.BOOT_CMD_STAT_BUSY = 1 → NextIs cmd fun t => t.bus = (0, 0) ∧
      rg t pgBoot Fld.BOOT_CMD_STAT_IGNORED = 1 ∧ OnlyFields [(pgBoot, Fld.BOOT_CMD_STAT_IGNORED)] s t) ∧
    (part = 0 → rg s pgBoot Fld.BOOT_CMD_STAT_BUSY = 0 →
      (stageOk s a len = false → NextIs cmd fun t => ends 0x20 t ∧ Only [.regs .boot, .bus] s t) ∧
      (stageOk s a len = true → bootDone s = true → slot = 2 → NextIs cmd fun t => ends 0x13 t ∧ Only [.regs .boot, .bus] s t) ∧
      (stageOk s a len = true → bootDone s = true → slot < 2 → stageHeld s a len = true → NextIs cmd fun t =>
        t.bus = (0, 0) ∧ rg t pgBoot Fld.BOOT_CMD_STAT_BUSY = 1 ∧ Only [.regs .boot, .bus, .pwr] s t ∧
        t.pwr = { s.pwr with parked := some (slot + 1, flashOk, a, len) }) ∧
      (stageOk s a len = true → bootDone s = false ∨ slot < 2 → stageHeld s a len = false →
        (∀ c, rd.2 = some c → NextIs cmd (only c)) ∧
        (rd.2 = none → imageForm img len = false → NextIs cmd (only 0x13)) ∧
        (rd.2 = none → imageForm img len = true → 0x1000000 < len → NextIs cmd (only 0x11)) ∧
        (rd.2 = none → imageForm img len = true → len ≤ 0x1000000 → ¬good → NextIs cmd (only 0x23)) ∧
        (rd.2 = none → imageForm img len = true → len ≤ 0x1000000 → good → slot < 2 → flashOk = false →
          NextIs cmd fun t => ends 0x70 t ∧ Only [.regs .boot, .bus, .flash, .freeCtr] rd.1 t) ∧
        (rd.2 = none → imageForm img len = true → len ≤ 0x1000000 → good → flashOk = true ∨ slot = 2 →
          (bootDone s = false → NextIs cmd fun t => ends 0 t ∧ kept t ∧
            rdBytes t (a + 0x1000000) 112 = head ∧ rdBytes t (a + 0x1000070) 96 = (sig s).1 ∧
            ∀ x, x < a + 0x1000000 ∨ a + 0x1000000 + 208 ≤ x → rd1 t x = rd1 s x) ∧
          (bootDone s = true →
            let u := { rd.1 with flash := putBytes flashDefault s.flash (slotAddr slot) img }
            let y := memWrite .beside 0 0 (a + 0x1000000) (head ++ (sig u).1) (sig u).2
            NextIs cmd fun t => ends (y.2.getD 0) t ∧ kept t ∧ t.mem = y.1.mem))))

/-- The recorder takes the oldest key of the source whose turn it is and counts its events. A live record of that key merges
them; else the slot chosen for it takes them as a new record; else they are dropped and counted under their severity. The
record's GEN advances, and no other slot changes. A severity at or above FLUSH_SEV requests a flush where AUTO_EN is 1: it
starts, or is deferred and counted, unless one is deferred already. A record whose SRAM shows an error is freed first,
counted as dropped. It rests on a reading or a choice of the model: log entry 13. -/
def Obligations.TheRecorderKeepsEvents : Prop :=
  ∀ (src i : Nat) (k : EvKey) (acc : EvAcc) (rest : List (EvKey × EvAcc)) (s : State), Running s →
    let e := s.evr
    let flushes := rg s pgEvr Fld.EVR_POL_AUTO_EN = 1 ∧ rg s pgEvr Fld.EVR_POL_FLUSH_SEV ≤ acc.sev
    let others (j : Nat) (t : State) : Prop := ∀ m, m ≠ j → slotAt t.evr m = slotAt e m
    let gen := ((slotAt e i).gen + 1) % 65536
    let went (t : State) : Prop := CountsUp pgEvr Fld.EVR_EVENTS acc.count s t ∧ t.evr.lastSrc = src ∧
      (¬flushes → t.evr.coal = tabSet coalDefault e.coal src rest ∧ t.evr.writing = e.writing ∧ t.evr.deferred = e.deferred) ∧
      (flushes → e.deferred = none → canFlush e = true → t.evr.head = (e.head + 1) % 32 ∧
        ∃ j, t.evr.writing = some j ∧ j.frame = e.head ∧ j.cause = 2) ∧
      (flushes → e.deferred = none → canFlush e = false → t.evr.deferred = some 2 ∧
        CountsUp pgEvr Fld.EVR_FLUSH_DEFER 1 s t ∧ t.evr.writing = e.writing) ∧
      (flushes → e.deferred ≠ none → t.evr.deferred = e.deferred ∧ t.evr.writing = e.writing)
    (nextSource e = some src → tabGet coalDefault e.coal src = (k, acc) :: rest →
      (∀ b, slotOfEvKey e k = some i → (slotAt e i).body = some (k, b) → NextIs (exec (.eventRecord none) s) fun t => went t ∧
        slotAt t.evr i = ⟨gen, some (k, accMerge b acc)⟩ ∧ others i t ∧ t.evr.recency.head? = some i) ∧
      (slotOfEvKey e k = none → slotFor e acc.sev = some i → NextIs (exec (.eventRecord none) s) fun t => went t ∧
        slotAt t.evr i = ⟨gen, some (k, acc)⟩ ∧ others i t ∧ t.evr.recency.head? = some i) ∧
      (slotOfEvKey e k = none → slotFor e acc.sev = none → NextIs (exec (.eventRecord none) s) fun t => went t ∧
        t.evr.slots = e.slots ∧ (acc.sev < 4 → ¬flushes → rg t pgEvr (fldAt Fld.EVR_DROP acc.sev) =
          min (rg s pgEvr (fldAt Fld.EVR_DROP acc.sev) + 1) 0xFFFFFFFF))) ∧
    (e.coal = [] → (slotAt e i).body ≠ none → NextIs (exec (.eventRecord (some i)) s) fun t =>
      slotAt t.evr i = ⟨gen, none⟩ ∧ others i t ∧ i ∉ t.evr.recency ∧
      (slotSev e i < 4 → rg t pgEvr (fldAt Fld.EVR_DROP (slotSev e i)) =
        min (rg s pgEvr (fldAt Fld.EVR_DROP (slotSev e i)) + 1) 0xFFFFFFFF))

/-- The end of a flush puts the frame, its slots and its trailer into flash. One second after the last, a deferred flush starts
where two erased frames are ahead and none is being written. An erasure that ends leaves its frame reading as erased flash;
else, while fewer than 31 frames ahead are erased, the next one begins. While an EVR command waits another one is only
marked as ignored. Else, by partition 0: FLUSH has the code OK and starts a flush of cause 3, or defers it; DUMP writes
every slot to memory, and RING_READ a frame, where the partition owns the range, with PARTITION_VIOLATION elsewhere and
STATE_BUSY for a frame at work; where the memory is held they wait; their code is the one that the write meets, else OK;
CLEAR empties every slot, whose GEN advances, and zeroes the drop counters. Other partitions are refused with
PARTITION_VIOLATION. It rests on readings or choices of the model: log entries 29, 30, 41, 42 and 43. -/
def Obligations.FlushesAndRecorderCommands : Prop :=
  ∀ (frame part : Nat) (s : State),
    let e := s.evr
    let code (c : Nat) (t : State) : Prop := t.bus = (0, 0) ∧ rg t pgEvr Fld.EVR_CMD_STAT_CODE = c ∧
      rg t pgEvr Fld.EVR_CMD_STAT_BUSY = 0
    let frameAt (cause : Nat) (t : State) : Prop := t.evr.head = (e.head + 1) % 32 ∧ t.evr.deferred = none ∧
      t.evr.fseq = (e.fseq + 1) % 2 ^ 32 ∧
      ∃ j, t.evr.writing = some j ∧ j.frame = e.head ∧ j.cause = cause ∧ j.slots = e.slots ∧ j.genBase = e.genBase
    let a := evrAddr s
    let n := frame % 32
    let all := (List.range 4096).flatMap fun i => slotBytes e.genBase (slotAt e i)
    let got := flashBytes s (frameAddr n) 266304
    let busy := e.erasing = some n ∨ ∃ j, e.writing = some j ∧ j.frame = n
    let cmds := [Instr.evrFlush part, .dump part, .ringRead part frame, .evrClear part]
    let stores (bs : List Byte) (t : State) : Prop :=
      let y := memWrite .beside 0 0 a bs s
      code (y.2.getD 0) t ∧ t.mem = y.1.mem ∧ (y.2 = none → MemHolds [(a, bs)] s t)
    let parks (op k : Nat) (t : State) : Prop := t.bus = (0, 0) ∧ rg t pgEvr Fld.EVR_CMD_STAT_BUSY = 1 ∧
      t.evr = { e with parked := some (op, k, a) } ∧ Only [.regs .evr, .evr, .bus] s t
    let only (c : Nat) (t : State) : Prop := code c t ∧ Only [.regs .evr, .bus] s t
    (s.pwr.mode ≠ .inReset → ∀ j, e.writing = some j → NextIs (exec .flushWriteComplete s) fun t =>
      t.evr = { e with
        writing := none
        written := (e.written + 1) % 65536 } ∧ Only [.evr, .flash] s t ∧ t.flash = putBytes flashDefault s.flash
          (frameAddr j.frame) (padTo 4096 j.header ++ frameSlots j ++ frameTrailer j)) ∧
    (Running s →
      (∀ c, e.deferred = some c → canFlush { e with spaced := true } = true →
        NextIs (exec .deferredFlushStart s) (frameAt c)) ∧
      (e.deferred = none ∨ canFlush { e with spaced := true } = false →
        NextIs (exec .deferredFlushStart s) fun t => t = { s with evr := { e with spaced := true } }) ∧
      (∀ n, e.erasing = some n → NextIs (exec .frameErase s) fun t => t.evr.erasing = none ∧ n ∈ t.evr.erased ∧
        Only [.evr, .flash] s t ∧ ∀ x, tabGet flashDefault t.flash x =
          if frameAddr n ≤ x ∧ x < frameAddr n + 0x80000 then flashDefault x else tabGet flashDefault s.flash x) ∧
      (e.erasing = none → erasedAhead e < 31 → NextIs (exec .frameErase s) fun t =>
        t = { s with evr := { e with erasing := some ((e.head + erasedAhead e) % 32) } }) ∧
      (part ≠ 0 → ∀ c, c ∈ cmds → NextIs (exec c s) fun t => t.bus = (0x20, 0) ∧ Only [.bus] s t) ∧
      (part = 0 → rg s pgEvr Fld.EVR_CMD_STAT_BUSY = 1 → ∀ c, c ∈ cmds → NextIs (exec c s) fun t => t.bus = (0, 0) ∧
        rg t pgEvr Fld.EVR_CMD_STAT_IGNORED = 1 ∧ Only [.regs .evr, .bus] s t ∧
        OnlyFields [(pgEvr, Fld.EVR_CMD_STAT_IGNORED)] s t) ∧
      (part = 0 → rg s pgEvr Fld.EVR_CMD_STAT_BUSY = 0 →
        (e.deferred = none → canFlush e = true → NextIs (exec (.evrFlush part) s) fun t => code 0 t ∧ frameAt 3 t) ∧
        (e.deferred = none → canFlush e = false → NextIs (exec (.evrFlush part) s) fun t => code 0 t ∧
          t.evr.deferred = some 3 ∧ t.evr.writing = e.writing ∧ CountsUp pgEvr Fld.EVR_FLUSH_DEFER 1 s t) ∧
        (e.deferred ≠ none → NextIs (exec (.evrFlush part) s) fun t => code 0 t ∧ t.evr = e) ∧
        (ownsRange s 0 a 262144 = false → NextIs (exec (.dump part) s) (only 0x20)) ∧
        (ownsRange s 0 a 262144 = true → heldRange s a 262144 = true → NextIs (exec (.dump part) s) (parks 2 0)) ∧
        (ownsRange s 0 a 262144 = true → heldRange s a 262144 = false → NextIs (exec (.dump part) s) (stores all)) ∧
        (bootDone s = true → ownsRange s 0 a 266304 = false → NextIs (exec (.ringRead part frame) s) (only 0x20)) ∧
        (bootDone s = true → ownsRange s 0 a 266304 = true → busy → NextIs (exec (.ringRead part frame) s) (only 0x52)) ∧
        (bootDone s = true → ownsRange s 0 a 266304 = true → ¬busy → heldRange s a 266304 = true →
          NextIs (exec (.ringRead part frame) s) (parks 3 n)) ∧
        (bootDone s = true → ownsRange s 0 a 266304 = true → ¬busy → heldRange s a 266304 = false →
          NextIs (exec (.ringRead part frame) s) (stores got)) ∧
        (bootDone s = false → a ≠ 0x80000000000 → NextIs (exec (.ringRead part frame) s) (only 0x20)) ∧
        (bootDone s = false → a = 0x80000000000 → busy → NextIs (exec (.ringRead part frame) s) (only 0x52)) ∧
        (bootDone s = false → a = 0x80000000000 → ¬busy → NextIs (exec (.ringRead part frame) s) fun t => code 0 t ∧
          MemHolds [(a, got)] s t) ∧
        NextIs (exec (.evrClear part) s) fun t => code 0 t ∧ t.evr.recency = [] ∧ (∀ i, i < 4 →
          rg t pgEvr (fldAt Fld.EVR_DROP i) = 0) ∧
          ∀ i, (slotAt t.evr i).body = none ∧
            (t.evr.genBase + (slotAt t.evr i).gen) % 65536 = (e.genBase + (slotAt e i).gen + 1) % 65536))

/-- A command on a busy page sets IGNORED and nothing else. On an idle one a command on a stream ends with the first code that
applies: TORN_DOWN for a torn partition, CAPACITY for a stream beyond the table, PARTITION_VIOLATION for an entry that the
partition does not own, FORMAT for a stream of the wrong state. OPEN makes a stream whose entry passes its checks ACTIVE
with LENGTH, HELD and POOLHELD 0; UNPARK makes a PARKED one ACTIVE; SET_BUDGET sets BUDGET; CLOSE and TRIM free their pages,
whose frames join the free list, and CLOSE makes the stream UNUSED, but while the stream is referenced they wait and BUSY
stays; ADD_FRAMES appends its frames. Where an access to a table is held, the command waits; where one meets a code, the
command ends with it, and leaves memory and the pool. A command that waited is taken up again, and then has the same effect.
It rests on readings or choices of the model: log entries 42, 54, 107 and 121. -/
def Obligations.KvsCommands : Prop :=
  ∀ (part t : Nat) (s : State), Ready s → part < 16 →
    let pg := pgKvs part
    let a := kvEntry s part t
    let arg := rg s pg Fld.KVS_CMD_ARG_LO
    let s1 := st pg Fld.KVS_CMD_STAT_BUSY 1 s
    let x := kv s part
    let s2 := setKv part { x with waiting := none } s
    let done (code : Nat) (u : State) : Prop := rg u pg Fld.KVS_CMD_STAT_CODE = code ∧ rg u pg Fld.KVS_CMD_STAT_BUSY = 0
    let only (code : Nat) (u : State) : Prop := u.bus = (0, 0) ∧ done code u ∧ Only [.regs .kvs, .bus] s u ∧
      OnlyFields [(pg, Fld.KVS_CMD_STAT_CODE), (pg, Fld.KVS_CMD_STAT_BUSY)] s u
    let waits (op t arg : Nat) (u : State) : Prop := u.mem = s.mem ∧ kv u part = { x with waiting := some (op, t, arg) }
    let ends (op t arg : Nat) (r : Try) (ok : State → Prop) (u : State) : Prop := match r.2 with
      | none => done 0 u ∧ u.mem = r.1.mem ∧ kv u part = kv r.1 part ∧ ok u
      | some e => if e.code = heldMark then waits op t arg u else done e.code u ∧ u.mem = s.mem ∧
          kv u part = { x with waiting := (kv u part).waiting }
    let starts (op : Nat) (r : Try) (ok : State → Prop) (u : State) : Prop := u.bus = (0, 0) ∧ ends op t arg r ok u ∧
      (∀ e, r.2 = some e → e.code = heldMark → rg u pg Fld.KVS_CMD_STAT_BUSY = 1)
    let freed (u : State) : Prop := x.free <+: (kv u part).free ∧ ∀ y, y ∈ (kv u part).pool → y ∈ x.pool
    let closed (k : Nat) (u : State) : Prop := freed u ∧ rg u pg Fld.KVS_OPEN = rg s pg Fld.KVS_OPEN - 1 ∧
      rd1 u (kvEntry s part k) = 0
    let ops := [Instr.kvsCmdClose part t, .kvsCmdUnpark part t, .kvsCmdTrim part t, .kvsCmdSetBudget part t]
    let all := [(1, Instr.kvsCmdOpen part t), (2, .kvsCmdClose part t), (3, .kvsCmdUnpark part t), (4, .kvsCmdTrim part t),
      (5, .kvsCmdSetBudget part t)]
    let busy := rg s pg Fld.KVS_CMD_STAT_BUSY = 1
    let bad := if partState s part = .torn then 0x71 else if kvStreams s part ≤ t then 0x11
      else if ownStruct s part a 64 = false then 0x20 else 0
    let entry := kvRead part t (s1, none)
    let bs := rdBytes s a 64
    let sig := bF bs 32 2
    let lost := ownStruct s part (bF bs 24 6) 4096 = false ∨ (bit 13 sig = true ∧ (tok s (sig % 2 ^ 13)).owner ≠ part)
    let odd := bF bs 0 1 / 4 ≠ 0 ∨ bF bs 1 1 / 16 ≠ 0 ∨ bF bs 2 1 / 2 ≠ 0 ∨ bF bs 3 1 ≠ 0 ∨ 256 < bF bs 4 2 ∨ bF bs 30 2 ≠ 0 ∨
      sig / 2 ^ 14 ≠ 0 ∨ ∃ b, b ∈ bs.drop 34 ∧ b ≠ 0
    let skew := bF bs 24 6 % 4096 ≠ 0
    let hi := rg s pg Fld.KVS_CMD_ARG_HI
    let base := arg + hi % 65536 * 2 ^ 32
    let n := if hi / 65536 = 0 then 65536 else hi / 65536
    let sz := 1024 * kvDH s part
    (busy → ∀ c, c ∈ .kvsCmdOpen part t :: .kvsCmdAddFrames part :: ops → NextIs (exec c s) fun u => u.bus = (0, 0) ∧
      Only [.regs .kvs, .bus] s u ∧ OnlyFields [(pg, Fld.KVS_CMD_STAT_IGNORED)] s u ∧ rg u pg Fld.KVS_CMD_STAT_IGNORED = 1) ∧
    (¬busy →
      (bad ≠ 0 → ∀ c, c ∈ .kvsCmdOpen part t :: ops → NextIs (exec c s) (only bad)) ∧
      (bad = 0 → entry.2 ≠ none → ∀ y, y ∈ all → NextIs (exec y.2 s) (starts y.1 entry fun _ => True)) ∧
      (bad = 0 → entry.2 = none → kvState s part t = 0 →
        (∀ c, c ∈ ops → NextIs (exec c s) (only 0x13)) ∧
        (lost → NextIs (exec (.kvsCmdOpen part t) s) (only 0x20)) ∧
        (¬lost → odd → NextIs (exec (.kvsCmdOpen part t) s) (only 0x13)) ∧
        (¬lost → ¬odd → skew → NextIs (exec (.kvsCmdOpen part t) s) (only 0x12)) ∧
        (¬lost → ¬odd → ¬skew → NextIs (exec (.kvsCmdOpen part t) s) (starts 1 (kvOpen part t s1) fun u =>
          MemHolds [(a + 12, toLE 12 0), (a, [1])] s u ∧ CountsUp pg Fld.KVS_OPEN 1 s u))) ∧
      (bad = 0 → entry.2 = none → kvState s part t ≠ 0 →
        NextIs (exec (.kvsCmdOpen part t) s) (only 0x13) ∧
        NextIs (exec (.kvsCmdSetBudget part t) s) (starts 5 (kvPut part t 8 4 arg (s1, none)) fun u =>
          MemHolds [(a + 8, toLE 4 arg)] s u) ∧
        (kvState s part t = 2 → NextIs (exec (.kvsCmdUnpark part t) s) (starts 3 (kvPut part t 0 1 1 (s1, none)) fun u =>
          MemHolds [(a, [1])] s u)) ∧
        (kvState s part t ≠ 2 → NextIs (exec (.kvsCmdUnpark part t) s) (only 0)) ∧
        (kvReferenced s part t = true → ∀ y, y ∈ [(2, Instr.kvsCmdClose part t), (4, .kvsCmdTrim part t)] →
          NextIs (exec y.2 s) fun u => u.bus = (0, 0) ∧ rg u pg Fld.KVS_CMD_STAT_BUSY = 1 ∧ waits y.1 t arg u) ∧
        (kvReferenced s part t = false →
          NextIs (exec (.kvsCmdClose part t) s) (starts 2 (kvClose part t s1) (closed t)) ∧
          NextIs (exec (.kvsCmdTrim part t) s) (starts 4 (kvTrim part t arg s1) freed))) ∧
      (ownStruct s part base (n * sz) = false → NextIs (exec (.kvsCmdAddFrames part) s) (only 0x20)) ∧
      (ownStruct s part base (n * sz) = true → base % 512 ≠ 0 → NextIs (exec (.kvsCmdAddFrames part) s) (only 0x12)) ∧
      (ownStruct s part base (n * sz) = true → base % 512 = 0 →
        (2 ^ rg s pg Fld.KVS_GEOM_LOG2_FRAMES < rg s pg Fld.KVS_FRAMES + n →
          NextIs (exec (.kvsCmdAddFrames part) s) (only 0x11)) ∧
        (rg s pg Fld.KVS_FRAMES + n ≤ 2 ^ rg s pg Fld.KVS_GEOM_LOG2_FRAMES →
          NextIs (exec (.kvsCmdAddFrames part) s) fun u => u.bus = (0, 0) ∧ done 0 u ∧ u.mem = s.mem ∧
            CountsUp pg Fld.KVS_FRAMES n s u ∧
            kv u part = { x with free := x.free ++ (List.range n).map fun i => base + i * sz }))) ∧
    (x.waiting = none → exec (.kvsCmdReleased part) s = .next s) ∧
    (∀ op k b, x.waiting = some (op, k, b) →
      ((kvRead part k (s2, none)).2 ≠ none →
        NextIs (exec (.kvsCmdReleased part) s) (ends op k b (kvRead part k (s2, none)) fun _ => True)) ∧
      ((kvRead part k (s2, none)).2 = none → kvState s part k ≠ 0 → op = 2 ∨ op = 4 → kvReferenced s part k = true →
        NextIs (exec (.kvsCmdReleased part) s) (waits op k b)) ∧
      ((kvRead part k (s2, none)).2 = none → kvState s part k ≠ 0 → kvReferenced s part k = false →
        (op = 2 → ownStruct s part (kvEntry s part k) 64 = true →
          NextIs (exec (.kvsCmdReleased part) s) (ends 2 k b (kvClose part k s2) (closed k))) ∧
        (op = 4 → NextIs (exec (.kvsCmdReleased part) s) (ends 4 k b (kvTrim part k b s2) freed))))

/-- KVS processes the next item of the KVAPP whose turn it is: r is what the item does. Memory, the pool and the tokens are then
as r leaves them, the work moves on by one item and keeps the first failure with its index, and after the last item the
descriptor has its result. An item of COUNT 0 does nothing; one that a check refuses ends with that code and changes
nothing; one without a code counts its positions in KVS_APPENDED. A KVAPP that runs to its end does this item after item. A
capture takes the lengths of all items at once, memory as it stands, and every sequence. A sequence runs on the array placed
for it: where no read meets a code and nothing overflows, its outputs enter memory, every other byte is as it was, and the
sequence is no longer left; after the last one the result is OK, or OVERFLOW_REPLAYED after replays. An ATTN that runs to
its end takes its capture, then sequence after sequence. It rests on readings or choices of the model: log entries 32, 51,
52, 53 and 119. -/
def Obligations.KvappItemsAndAttnSequences : Prop :=
  ∀ (fid : Nat) (s : State), Running s → Canonical s →
    (∀ f, kvTurn s fid = some f →
      let w := kvWork f
      let m := snapOf s f
      let g := { f with snap := some m }
      let s1 := updFlight fid (fun h => { h with snap := some m }) s
      let s2 := proceed fid s1
      let at_ := dAddr f.bytes 16 + 16 * w.next
      let t := mLE m at_ 2
      let count := mLE m (at_ + 2) 2
      let src := mLE m (at_ + 8) 6
      let resOk := mLE m (at_ + 4) 4 == 0 && mLE m (at_ + 14) 2 == 0
      let r := kvItem g w.next s2
      let code := r.2.stop.map fun e => e.code
      let fail := match w.fail, code with
        | none, some c => some (w.next, c)
        | x, _ => x
      let listed := (tryRead .beside f.q at_ 16 (s2, none)).2 = none
      let entry := resOk = false ∨ kvStreams s2 f.q ≤ t ∨
        (structRange s2 f.q (kvEntry s2 f.q t) 64 = true ∧ (kvRead f.q t (s2, none)).2 = none)
      let last := decide (bF f.bytes 24 4 ≤ w.next + 1)
      (f.work = .none ∨ (∃ v, f.work = .kvapp v) → mustWait s1 fid (kvRanges s1 g w.next) [] = false → code ≠ some heldMark →
        NextIs (exec (.kvappItem fid) s) fun u => u.mem = r.1.mem ∧ u.kvs = r.1.kvs ∧ u.toks = r.1.toks ∧
          (∃ h, flightOf u fid = some h ∧ Continues f h ∧ ∃ v, h.work = .kvapp v ∧ v.next = w.next + 1 ∧ v.fail = fail ∧
            h.result = if last then some (match fail with
              | some x => x.2
              | none => 0) else none) ∧
          (w.next < bF f.bytes 24 4 → exec (.kvapp fid) s = if last then .next u else exec (.kvapp fid) u)) ∧
      (listed → count = 0 → r = (s2, ⟨none, 0⟩)) ∧
      (∀ c, listed → count ≠ 0 → entry → kvItemCheck s2 g t count src resOk = some c → r = (s2, ⟨some ⟨c, 0, 0⟩, 0⟩)) ∧
      (count ≠ 0 → r.2.stop = none → CountsUp (pgKvs f.q) Fld.KVS_APPENDED count s r.1)) ∧
    (∀ f w, attnFlight s fid = some (f, w) →
      (w.captured = true → exec (.attnCapture fid) s = .next s) ∧
      (w.captured = false →
        ((List.range (atItems f.bytes)).foldl (fun r n => kvRead f.q (atItem f n).1 r) (s, none)).2 = none →
        NextIs (exec (.attnCapture fid) s) fun u => Only [.flights] s u ∧
          (∃ h, flightOf u fid = some h ∧ Continues f h ∧ h.snap = some s.mem ∧ h.work = .attn { w with
            captured := true
            caps := (List.range (atItems f.bytes)).map fun n => kvLength s f.q (atItem f n).1
            left := List.range (atSeqs s f.q f.bytes f.cap.list) }) ∧
          exec (.attn fid) s = exec (.attn fid) u) ∧
      (∀ seq n rest, w.captured = true → w.ovf = false → arraysStopped s = false → w.left = seq :: rest →
        attnPlace s f seq (candidatesBy s f (bit 0 (bF f.bytes 30 2))) = some n →
        let dh := kvDH s f.q
        let x := atSeq s f.q f.cap.list (atItems f.bytes) 0 seq
        let t := (atItem f x.1).1
        let bl := atBlocks s f w x.1 x.2
        let qr := (List.range (atM f.bytes)).map fun i =>
          (bF f.cap.blk 0 6 + seq * bF f.cap.blk 32 6 + i * bF f.cap.blk 24 4, 2 * dh)
        let kr := bl.flatMap fun y => [(y.2.1 + 256 * dh * (y.2.2.headD 0 / 128), 256 * dh),
          (y.2.1 + 512 * dh + 256 * dh * (y.2.2.headD 0 / 128), 256 * dh)]
        let wr := (List.range (atM f.bytes)).map fun i =>
          (bF f.cap.blk 8 6 + seq * bF f.cap.blk 40 6 + i * bF f.cap.blk 28 4, dh * fmtBytes w.ofmt)
        let tr := kvLooks f.q t ((atPages f w x.1).map fun lp => lp * kvH s f.q t + x.2) (kvRead f.q t (s, none))
        let r := readAll .yard f.q (qr ++ kr) (proceed fid tr.1)
        let out := attnSeq (snapOf s f) f w dh seq bl
        let ws := joinWrites (out.els.map fun e => (e.1, toLE (fmtBytes w.ofmt) e.2.word))
        mustWait s fid (qr ++ kr) wr = false → tr.2 = none → r.2 = none → out.bad = false →
        (out.els.any fun e => e.2.overflow) = false → (writeAll .yard f.q fid ws r.1).2 = none →
        NextIs (exec (.attnSequenceRun fid) s) fun u => MemHolds ws s u ∧
          (∃ h v, flightOf u fid = some h ∧ Continues f h ∧ h.work = .attn v ∧ v.left = rest ∧ v.pass = w.pass ∧
            v.caps = w.caps ∧ h.result = if rest = [] then some (if w.pass = 0 then 0 else 0x40) else none) ∧
          exec (.attn fid) s = if rest = [] then .next u else exec (.attn fid) u))

/-- A command on a busy page sets IGNORED and nothing else. On an idle one it ends with the first code that applies: TORN_DOWN
for a torn partition, CAPACITY for a stream beyond the table, PARTITION_VIOLATION for an entry that the partition does not
own, FORMAT for a stream of the wrong state. OPEN makes a stream whose entry passes its checks, its siding in one own HBM
stack, SIDED with no step and no reference; CLOSE of a SIDED one makes it UNUSED, and of a RESIDENT one first writes its
state back to its siding; ZERO clears the state where it stands; a siding that the partition has lost refuses them. While
the stream is referenced or a swap of it is in progress, CLOSE and ZERO wait and BUSY stays. Where an access is held, the
command waits; where one meets a code, the command ends with it. A command that waited is taken up again, and then has the
same effect. It rests on readings or choices of the model: log entries 42, 54 and 107. -/
def Obligations.ScnCommands : Prop :=
  ∀ (part t : Nat) (s : State), Ready s → part < 16 →
    let pg := pgScn part
    let a := scEntry s part t
    let s1 := st pg Fld.SCN_CMD_STAT_BUSY 1 s
    let x := sc s part
    let s2 := setSc part { x with waiting := none } s
    let ended (code : Nat) (u : State) : Prop := rg u pg Fld.SCN_CMD_STAT_CODE = code ∧ rg u pg Fld.SCN_CMD_STAT_BUSY = 0
    let only (code : Nat) (u : State) : Prop := u.bus = (0, 0) ∧ ended code u ∧ Only [.regs .scn, .bus] s u ∧
      OnlyFields [(pg, Fld.SCN_CMD_STAT_CODE), (pg, Fld.SCN_CMD_STAT_BUSY)] s u
    let waits (op k : Nat) (u : State) : Prop := u.mem = s.mem ∧ sc u part = { x with waiting := some (op, k) }
    let ends (op k : Nat) (r : Try) (ok : State → Prop) (u : State) : Prop := match r.2 with
      | none => ended 0 u ∧ u.mem = r.1.mem ∧ sc u part = sc r.1 part ∧ ok u
      | some e => if e.code = heldMark then waits op k u else ended e.code u ∧ u.mem = s.mem ∧
          sc u part = { x with waiting := (sc u part).waiting }
    let starts (op : Nat) (r : Try) (ok : State → Prop) (u : State) : Prop := u.bus = (0, 0) ∧ ends op t r ok u ∧
      (∀ e, r.2 = some e → e.code = heldMark → rg u pg Fld.SCN_CMD_STAT_BUSY = 1)
    let fewer (u : State) : Prop := rg u pg Fld.SCN_OPEN = rg s pg Fld.SCN_OPEN - 1
    let all := [(1, Instr.scnCmdOpen part t), (2, .scnCmdClose part t), (3, .scnCmdZero part t)]
    let busy := rg s pg Fld.SCN_CMD_STAT_BUSY = 1
    let bad := if partState s part = .torn then 0x71 else if scStreams s part ≤ t then 0x11
      else if ownStruct s part a 32 = false then 0x20 else 0
    let entry := scRead part t (s1, none)
    let sb := scSB s part
    let bs := rdBytes s a 32
    let siding := bF bs 8 6
    let lost := ∃ y, y ∈ piecesOf siding sb ∧ (ownsAt s part y = false ∨ ∀ k, regionOf y ≠ .hbm k)
    let odd := bF bs 0 1 / 8 ≠ 0 ∨ bF bs 1 3 ≠ 0 ∨ bF bs 14 2 ≠ 0 ∨ bF bs 24 2 / 2 ^ 13 ≠ 0 ∨ bF bs 26 6 ≠ 0
    let oneStack := ∀ y, y ∈ piecesOf siding sb → regionOf y = regionOf siding
    let zeros := List.replicate sb (0 : Byte)
    let image (y : ScnSlot) := scImage s part y.slot y.cur
    (busy → ∀ y, y ∈ all → NextIs (exec y.2 s) fun u => u.bus = (0, 0) ∧ Only [.regs .scn, .bus] s u ∧
      OnlyFields [(pg, Fld.SCN_CMD_STAT_IGNORED)] s u ∧ rg u pg Fld.SCN_CMD_STAT_IGNORED = 1) ∧
    (¬busy →
      (bad ≠ 0 → ∀ y, y ∈ all → NextIs (exec y.2 s) (only bad)) ∧
      (bad = 0 → entry.2 ≠ none → ∀ y, y ∈ all → NextIs (exec y.2 s) (starts y.1 entry fun _ => True)) ∧
      (bad = 0 → entry.2 = none → scState s part t = 0 →
        NextIs (exec (.scnCmdClose part t) s) (only 0x13) ∧ NextIs (exec (.scnCmdZero part t) s) (only 0x13) ∧
        (lost → NextIs (exec (.scnCmdOpen part t) s) (only 0x20)) ∧
        (¬lost → odd → NextIs (exec (.scnCmdOpen part t) s) (only 0x13)) ∧
        (¬lost → ¬odd → siding % 512 ≠ 0 → NextIs (exec (.scnCmdOpen part t) s) (only 0x12)) ∧
        (¬lost → ¬odd → siding % 512 = 0 → oneStack → NextIs (exec (.scnCmdOpen part t) s) (starts 1 (scnOpen part t s1) fun u =>
          MemHolds [(a, [1]), (a + 4, toLE 4 0), (a + 16, toLE 8 0)] s u ∧ CountsUp pg Fld.SCN_OPEN 1 s u))) ∧
      (bad = 0 → entry.2 = none → scState s part t ≠ 0 → NextIs (exec (.scnCmdOpen part t) s) (only 0x13)) ∧
      (bad = 0 → entry.2 = none → scState s part t ≠ 0 → scQuiet s part t = false →
        ∀ y, y ∈ [(2, Instr.scnCmdClose part t), (3, .scnCmdZero part t)] → NextIs (exec y.2 s) fun u => u.bus = (0, 0) ∧
          rg u pg Fld.SCN_CMD_STAT_BUSY = 1 ∧ waits y.1 t u) ∧
      (bad = 0 → entry.2 = none → scState s part t ≠ 0 → scState s part t ≠ 2 → scQuiet s part t = true →
        NextIs (exec (.scnCmdClose part t) s) (starts 2 (scnClose part t s1) fun u =>
          MemHolds [(a, [0])] s u ∧ sc u part = x ∧ fewer u) ∧
        (sidingOwned s part t = false → NextIs (exec (.scnCmdZero part t) s) (only 0x20)) ∧
        (sidingOwned s part t = true → NextIs (exec (.scnCmdZero part t) s) (starts 3 (scnZero part t s1) fun u => sc u part = x ∧
          ((memWrite .beside part 0 siding zeros s1).2 = none → MemHolds [(siding, zeros)] s u)))) ∧
      (∀ y, bad = 0 → entry.2 = none → scState s part t = 2 → scQuiet s part t = true → scSlotOf s part t = some y →
        (sidingOwned s part t = false → NextIs (exec (.scnCmdClose part t) s) (only 0x20)) ∧
        (sidingOwned s part t = true → NextIs (exec (.scnCmdClose part t) s) (starts 2 (scnClose part t s1) fun u =>
          CountsUp pg Fld.SCN_SWAP_OUT 1 s u ∧ fewer u ∧
          sc u part = { x with slots := x.slots.filter fun z => z.stream != t } ∧
          ((memWrite .beside part 0 siding (rdBytes s (image y) sb) s1).2 = none →
            MemHolds [(siding, rdBytes s (image y) sb), (a, [0])] s u))) ∧
        NextIs (exec (.scnCmdZero part t) s) (starts 3 (scnZero part t s1) fun u => sc u part = x ∧
          ((memWrite .beside part 0 (image y) zeros s1).2 = none → MemHolds [(image y, zeros)] s u)))) ∧
    (x.waiting = none → exec (.scnCmdReleased part) s = .next s) ∧
    (∀ op k, x.waiting = some (op, k) →
      let again := scRead part k (s2, none)
      (again.2 ≠ none → NextIs (exec (.scnCmdReleased part) s) (ends op k again fun _ => True)) ∧
      (again.2 = none → op ≠ 1 → scState s part k ≠ 0 → scQuiet s part k = false →
        NextIs (exec (.scnCmdReleased part) s) (waits op k)) ∧
      (again.2 = none → scState s part k ≠ 0 → scQuiet s part k = true →
        (op = 2 → scState s part k ≠ 2 ∨ sidingOwned s part k = true →
          NextIs (exec (.scnCmdReleased part) s) (ends 2 k (scnClose part k s2) fewer)) ∧
        (op = 3 → scState s part k = 2 ∨ sidingOwned s part k = true →
          NextIs (exec (.scnCmdReleased part) s) (ends 3 k (scnZero part k s2) fun _ => True)) ∧
        (op = 2 ∧ scState s part k = 2 ∨ op = 3 ∧ scState s part k ≠ 2 → sidingOwned s part k = false →
          NextIs (exec (.scnCmdReleased part) s) fun u => ended 0x20 u ∧ sc u part = { x with waiting := none } ∧
            u.mem = s.mem)))

/-- A swap-in of a wanted SIDED stream whose siding the partition owns takes the lowest free slot and becomes INBOUND there;
without a free slot the unreferenced RESIDENT stream that has been current longest starts to swap out, once, and without one
nothing happens; one whose siding is lost ends the SCANs that need it with PARTITION_VIOLATION; while the scratch window is
shut no swap-in starts or ends. A swap-in that completes puts the siding's bytes into the current image, and the stream is
RESIDENT and counted; a swap-out that completes puts the current image into the siding, the stream is SIDED, its slot is
free, and it is counted, as is a wait of an item on it. A step that meets a held access changes nothing; a swap-in that
meets another code is lost with it. A SWAP of one stream completes: OUT with the stream SIDED, IN with it RESIDENT, SYNC
with its image in the siding; a lost entry or siding is PARTITION_VIOLATION, an UNUSED stream FORMAT, a referenced one
STATE_BUSY, though OK for IN, and IN without a slot to gain is CAPACITY. It rests on readings or choices of the model: log
entries 57, 58 and 122. -/
def Obligations.RecurrentStreamsSwap : Prop :=
  ∀ (p t : Nat) (s : State), Running s → Canonical s →
    let x := sc s p
    let a := scEntry s p t
    let sb := scSB s p
    let siding := scSiding s p t
    let rest := x.slots.filter fun z => z.stream != t
    let own (k : Nat) : Prop := ownStruct s p (scEntry s p k) 32 = true
    let open_ := scratchShut s p = false
    let stops (o : Host.Outcome State Fault Refusal) (r : Try) : Prop := ∀ e, r.2 = some e →
      if e.code = heldMark then o = .next s else NextIs o fun u => (t, e.code) ∈ (sc u p).lost ∧ t ∉ (sc u p).want
    let inGo := exec (.streamSwapIn p t) s
    let inEnd := exec (.swapInComplete p t) s
    let outEnd := exec (.swapOutComplete p t) s
    (scWanted s p t = false ∨ scState s p t ≠ 1 ∨ ¬open_ → inGo = .next s) ∧
    (scWanted s p t = true → scState s p t = 1 → open_ →
      (sidingOwned s p t = false → NextIs inGo fun u => (t, 0x20) ∈ (sc u p).lost ∧ t ∉ (sc u p).want ∧
        u.mem = s.mem ∧ ∀ f, f ∈ s.flights → f.q = p → scanNeeds s f t = true →
          ∃ g, flightOf u f.fid = some g ∧ g.result = some 0x20) ∧
      (∀ k, sidingOwned s p t = true → scFreeSlot s p = some k →
        let r := scPut .beside p t 24 2 k (scPut .beside p t 0 1 4 (scRead p t (s, none)))
        stops inGo r ∧ (r.2 = none → NextIs inGo fun u => u.mem = r.1.mem ∧
          sc u p = { x with
            slots := x.slots ++ [⟨k, t, 0⟩]
            lost := x.lost.filter fun y => y.1 != t
            evict := x.evict.filter fun y => y.1 != t } ∧ (own t → MemHolds [(a, [4]), (a + 24, toLE 2 k)] s u))) ∧
      (sidingOwned s p t = true → scFreeSlot s p = none →
        let waiting := x.evict.any fun y => y.1 == t && scState s p y.2 == 3
        let old := x.slots.find? fun y => scState s p y.stream == 2 && !scReferenced s p y.stream
        (waiting = true ∨ old = none → inGo = .next s) ∧
        ∀ y, waiting = false → old = some y →
          let r := swapOutStart p y.stream (s, none)
          stops inGo r ∧ (r.2 = none → NextIs inGo fun u => u.mem = r.1.mem ∧
            sc u p = { x with evict := x.evict.filter (fun z => z.1 != t) ++ [(t, y.stream)] } ∧
            (own y.stream → MemHolds [(scEntry s p y.stream, [3])] s u)))) ∧
    (scState s p t ≠ 4 ∨ scSlotOf s p t = none ∨ ¬open_ → inEnd = .next s) ∧
    (∀ y, scState s p t = 4 → scSlotOf s p t = some y → open_ →
      let img := scImage s p y.slot y.cur
      let r := scPut .beside p t 0 1 2 (scLoad p t (scRead p t (s, none)))
      stops inEnd r ∧ (r.2 = none → NextIs inEnd fun u => u.mem = r.1.mem ∧ CountsUp (pgScn p) Fld.SCN_SWAP_IN 1 s u ∧
        sc u p = { x with
          slots := rest ++ [y]
          want := x.want.filter fun z => z != t } ∧
        (own t → (memWrite .beside p 0 img (rdBytes s siding sb) s).2 = none →
          MemHolds [(img, rdBytes s siding sb), (a, [2])] s u))) ∧
    (scState s p t ≠ 3 ∨ scSlotOf s p t = none → outEnd = .next s) ∧
    (∀ y, scState s p t = 3 → scSlotOf s p t = some y →
      let img := scImage s p y.slot y.cur
      let r := scStore .beside p t (scRead p t (s, none))
      let w := scPut .beside p t 0 1 1 (r.1, none)
      let freed (u : State) : Prop := sc u p = { x with slots := rest } ∧ CountsUp (pgScn p) Fld.SCN_SWAP_OUT 1 s u
      (∀ e, r.2 = some e → if e.code = heldMark then outEnd = .next s else NextIs outEnd freed) ∧
      (r.2 = none → NextIs outEnd fun u => freed u ∧ u.mem = w.1.mem ∧
        CountsUp (pgScn p) Fld.SCN_SWAP_WAIT (if scState r.1 p t == 3 && scNeeded s p t then 1 else 0) s u ∧
        (own t → w.2 = none → (memWrite .beside p 0 siding (rdBytes s img sb) s).2 = none →
          MemHolds [(siding, rdBytes s img sb), (a, [1])] s u))) ∧
    (∀ fid op c f w, (op, c) ∈ [(0, Instr.swapOut fid), (1, .swapIn fid), (2, .swapSync fid)] →
      swapFlight s fid op = some (f, w) → f.q = p → w.left = [t] → w.waitFor = [] → w.fail = none →
      let ends (code : Nat) (v : State) : Prop := NextIs (exec c s) fun u => u.mem = v.mem ∧ u.scn = v.scn ∧
        ∃ g, flightOf u fid = some g ∧ Continues f g ∧ g.result = some code
      let read := (scRead p t (s, none)).2 = none
      let full := scFreeSlot s p = none ∧ ∀ y, y ∈ x.slots → scReferenced s p y.stream = true
      (swapDenied op p t s = true → ends 0x20 s) ∧
      (swapDenied op p t s = false → read →
        (scState s p t = 0 → ends 0x13 s) ∧
        (scState s p t ≠ 0 → scReferenced s p t = true → ends (if op = 1 then 0 else 0x52) s) ∧
        (scReferenced s p t = false →
          (op = 0 → scState s p t = 2 →
            let b := swapOutStart p t (s, none)
            let v := swapOutComplete p t b.1
            b.2 = none → scState v p t = 1 → (∀ y, y ∈ x.slots → y.stream ≠ t → scState s p y.stream ≠ 3 ∧
              scState b.1 p y.stream ≠ 3 ∧ scState v p y.stream ≠ 3) → ends 0 v) ∧
          (op = 1 → scState s p t = 1 → full → ends 0x11 s) ∧
          (op = 1 → scState s p t = 1 → ¬full →
            let b := swapInStart p t (swapWant p t s)
            let v := swapInComplete p t b
            scState b p t = 4 → scState v p t = 2 → (∀ y, y ∈ (sc b p).slots → scState b p y.stream ≠ 3) → ends 0 v) ∧
          (op = 2 → scState s p t = 2 → (scStore .beside p t (s, none)).2 = none → ends 0 (scStore .beside p t (s, none)).1) ∧
          (op ≠ 1 → scState s p t = 1 → ends 0 s))))

/-- The partition's next SCAN not admitted is judged: where a stream's entry is not the partition's any more it ends with
PARTITION_VIOLATION, where a stream is UNUSED with FORMAT; where its streams and those of the admitted SCANs exceed the
slots, it waits, counted once; else it is admitted, with memory as it then stands, and a single stream's references grow by
one; an entry that cannot be read ends it, and one that is held makes it wait. A chunk of a head of an item whose stream is
RESIDENT and whose earlier items are applied runs on the array placed for it: where no read meets a code and nothing
overflows, its rows of y and its next state enter memory, every other byte is as it was, one chunk more of that head is
done, and after the last chunk of all the SCAN has its result. A SCAN not yet admitted that runs to its end is admitted and
goes on; one of a single item with one chunk left does that chunk. It rests on readings or choices of the model: log entries
32, 55 and 119. -/
def Obligations.ScansAreAdmittedAndRunChunks : Prop :=
  ∀ (p fid n h : Nat) (s : State), Running s → Canonical s →
    (∀ f w, s.flights.find? (fun f => f.q == p && dOp f.bytes == 6 && f.result.isNone && !scanAdmitted f) = some f →
      scanFlight s f.fid = some (f, w) →
      let ds := scDistinct f.bytes f.cap.list
      let lost := ∃ t, t ∈ ds ∧ ownStruct s p (scEntry s p t) 32 = false
      let unused := ∃ t, t ∈ ds ∧ scState s p t = 0
      let full := scSlots s p < scRefd s p + ds.length
      let rd : Try := ds.foldl (fun r t => scRead p t r) (s, none)
      let wr : Try := ds.foldl (fun r t => scPut .beside p t 4 4 (scF r.1 p t 4 4 + 1) r) (s, none)
      let go := exec (.scanAdmit p) s
      let is (P : Flight → Prop) (u : State) : Prop := ∃ g, flightOf u f.fid = some g ∧ Continues f g ∧ P g
      let stops (r : Try) : Prop := ∀ e, r.2 = some e → NextIs go fun u => u.mem = s.mem ∧
        is (fun g => g.result = if e.code = heldMark then none else some e.code) u
      (lost → NextIs go fun u => is (fun g => g.result = some 0x20) u ∧ Only [.flights] s u) ∧
      (¬lost → stops rd) ∧
      (¬lost → rd.2 = none → unused → NextIs go fun u => is (fun g => g.result = some 0x13) u ∧ Only [.flights] s u) ∧
      (¬lost → rd.2 = none → ¬unused → full → NextIs go fun u =>
        is (fun g => g.result = none ∧ g.work = .scan { w with waited := true }) u ∧ Only [.flights, .regs .scn] s u ∧
        CountsUp (pgScn p) Fld.SCN_ADMIT_WAIT (if w.waited then 0 else 1) s u) ∧
      (¬lost → rd.2 = none → ¬unused → ¬full → stops wr ∧ (wr.2 = none → NextIs go fun u => u.mem = wr.1.mem ∧
        is (fun g => g.result = none ∧ g.snap = some u.mem ∧ g.work = .scan { w with
          admitted := true
          d := ds.length }) u ∧ (ds = [] → u.mem = s.mem) ∧
        (∀ t, ds = [t] → MemHolds [(scEntry s p t + 4, toLE 4 (scF s p t 4 4 + 1))] s u) ∧
        exec (.scan f.fid) s = exec (.scan f.fid) u))) ∧
    (∀ f w a sl, scanFlight s fid = some (f, w) → scanReady s f w n = true → h < scH s f.q →
      chunksDone w n h < scChunks f n → arraysStopped s = false → scSlotOf s f.q (scItem f.cap.list n).1 = some sl →
      let q := f.q
      let x := scItem f.cap.list n
      let dn := chunksDone w n h
      let lc := scLc f.bytes
      let row := x.2.1 + dn * lc
      let len := min lc (x.2.2 - dn * lc)
      let src := scImage s q sl.slot (if (earlierItems f n).isEmpty && dn == 0 then sl.cur else 1 - sl.cur)
      let dst := scImage s q sl.slot (1 - sl.cur)
      let steps := scF s q x.1 16 8 + (earlierItems f n).foldl (fun b i => b + (scItem f.cap.list i).2.2) 0 + dn * lc
      let rd := scanReads s f h row len src
      let r := readAll .yard q rd (proceed fid s)
      let o := chunkOut (snapOf s f) s.mem f w.ofmt (scFmt s q) (scH s q) (scN s q) (scP s q) h x.1 row len steps src dst
      let ws := joinWrites (o.ys.map fun e => (e.1, toLE (fmtBytes w.ofmt) e.2.word)) ++
        joinWrites (o.state.map fun e => (e.1, toLE 4 e.2))
      let sole := scItems f.bytes = 1 ∧ dn + 1 = scChunks f n ∧ (∀ k, k < scH s q → k ≠ h → scChunks f n ≤ chunksDone w n k) ∧
        ∀ y, y ∈ (sc s q).slots → scState s q y.stream ≠ 3
      mustWait s fid rd (scanWrites s f w.ofmt h row len dst) = false →
      scanPlace s f h src (candidatesBy s f (bit 0 (bF f.bytes 37 1))) = some a →
      r.2 = none → o.bad = false → (o.ys.any fun e => e.2.overflow) = false → (writeAll .yard q fid ws r.1).2 = none →
      NextIs (exec (.scanChunk fid n h) s) fun u => MemHolds ws s u ∧
        (∃ g v, flightOf u fid = some g ∧ Continues f g ∧ g.work = .scan v ∧ chunksDone v n h = dn + 1 ∧
          (∀ n' h', (n', h') ≠ (n, h) → chunksDone v n' h' = chunksDone w n' h') ∧
          g.result = if allBelow (scItems f.bytes) (fun i => itemDone s f v i)
            then some (if w.pass = 0 then 0 else 0x40) else none) ∧
        (sole → exec (.scan fid) s = .next u))

/-- A command on a busy page sets IGNORED and nothing else. On an idle one it ends with the first code that applies: TORN_DOWN
for a torn partition, CAPACITY for a group beyond the table, PARTITION_VIOLATION for an entry that the partition does not
own, the code that the read of the entry meets, FORMAT for an OPEN of a group that is not UNUSED and for a CLOSE or an ABORT
of one that is. An OPEN whose entry passes its checks opens the group and its fabric group id with NEXT_SEQ and EPOCH 0;
CLOSE makes the group UNUSED, and waits while a context of it is in use; ABORT sends an ABORT with ABORTED_BY_PEER toward
the arbiter for every context of it, and ends the COLL of a group of one member with that code. A command on a held entry
waits. One that waited is taken up again, and a CLOSE then completes once no context of its group is in use. It rests on
readings or choices of the model: log entries 31, 42, 70 and 107. -/
def Obligations.ColCommands : Prop :=
  ∀ (part g : Nat) (s : State), Ready s → part < 16 →
    let pg := pgCol part
    let a := cgEntry s part g
    let s1 := st pg Fld.COL_CMD_STAT_BUSY 1 s
    let ended (code : Nat) (u : State) : Prop := rg u pg Fld.COL_CMD_STAT_CODE = code ∧ rg u pg Fld.COL_CMD_STAT_BUSY = 0
    let done (code : Nat) (u : State) : Prop := u.bus = (0, 0) ∧ ended code u
    let only (code : Nat) (u : State) : Prop := done code u ∧ Only [.regs .col, .bus] s u ∧
      OnlyFields [(pg, Fld.COL_CMD_STAT_CODE), (pg, Fld.COL_CMD_STAT_BUSY)] s u
    let parks (op : Nat) (u : State) : Prop := u.bus = (0, 0) ∧ rg u pg Fld.COL_CMD_STAT_BUSY = 1 ∧ u.mem = s.mem ∧
      u.col = { s.col with closing := s.col.closing ++ [(part, op, g)] }
    let all := [(1, Instr.colCmdOpen part g), (2, .colCmdClose part g), (3, .colCmdAbort part g)]
    let busy := rg s pg Fld.COL_CMD_STAT_BUSY = 1
    let bad := if partState s part = .torn then 0x71 else if cgCount s part ≤ g then 0x11
      else if ownStruct s part a 64 = false then 0x20 else 0
    let free := cgHeld s part g = false
    let read := (cgRead part g s1).2
    let e := rdBytes s a 64
    let unused := bF e 0 1 % 4 = 0
    let nmem := bF e 8 2
    let fgid := bF e 4 4
    let lost := jobSlot s part (bF e 14 1) = none
    let odd := bF e 0 1 / 4 ≠ 0 ∨ bF e 1 1 / 2 ≠ 0 ∨ bF e 2 2 = 0 ∨ fgid / 2 ^ 20 ≠ 0 ∨ nmem < 1 ∨ 32768 < nmem ∨
      nmem ≤ bF e 10 2 ∨
      bF e 12 1 / 16 ≠ 0 ∨ bF e 13 1 / 16 ≠ 0 ∨ (1 < nmem ∧ bF e 12 1 = bF e 13 1) ∨ bF e 15 1 ≠ 0 ∨ bF e 24 40 ≠ 0 ∨
      ∃ x, x ∈ s.col.opened ∧ x.2.2 = fgid
    let opens := writeAll .beside part 0 [(a + 16, toLE 8 0), (a, toLE 1 1)] s1
    let others := s.col.opened.filter fun x => !(x.1 == part && x.2.1 == g)
    let cleared (v u : State) : Prop := (writeAll .beside part 0 [(a, toLE 1 0)] v).2 = none → MemHolds [(a, toLE 1 0)] s u
    let used (c : ColCtx) : Prop := c ∈ s.col.ctxs ∧ c.part = part ∧ c.group = g
    (busy → ∀ y, y ∈ all → NextIs (exec y.2 s) fun u => u.bus = (0, 0) ∧ Only [.regs .col, .bus] s u ∧
      OnlyFields [(pg, Fld.COL_CMD_STAT_IGNORED)] s u ∧ rg u pg Fld.COL_CMD_STAT_IGNORED = 1) ∧
    (¬busy →
      (bad ≠ 0 → ∀ y, y ∈ all → NextIs (exec y.2 s) (only bad)) ∧
      (bad = 0 → ¬free → ∀ y, y ∈ all → NextIs (exec y.2 s) (parks y.1)) ∧
      (∀ code, bad = 0 → free → read = some code → ∀ y, y ∈ all → NextIs (exec y.2 s) fun u => done code u ∧
        u.mem = s.mem ∧ u.col = s.col) ∧
      (bad = 0 → free → read = none → unused →
        NextIs (exec (.colCmdClose part g) s) (only 0x13) ∧ NextIs (exec (.colCmdAbort part g) s) (only 0x13) ∧
        (lost → NextIs (exec (.colCmdOpen part g) s) (only 0x20)) ∧
        (¬lost → odd → NextIs (exec (.colCmdOpen part g) s) (only 0x13)) ∧
        (¬lost → ¬odd → NextIs (exec (.colCmdOpen part g) s) fun u => done (opens.2.getD 0) u ∧ u.mem = opens.1.mem ∧
          u.col = { s.col with opened := s.col.opened ++ if opens.2 = none then [(part, g, fgid)] else [] } ∧
          (opens.2 = none → MemHolds [(a + 16, toLE 8 0), (a, toLE 1 1)] s u))) ∧
      (bad = 0 → free → read = none → ¬unused →
        NextIs (exec (.colCmdOpen part g) s) (only 0x13) ∧
        ((∃ c, used c) → NextIs (exec (.colCmdClose part g) s) (parks 2)) ∧
        ((¬∃ c, used c) → NextIs (exec (.colCmdClose part g) s) fun u => done 0 u ∧ u.col = { s.col with opened := others } ∧
          cleared s1 u) ∧
        ((∀ c, used c → c.nmem ≠ 1) → NextIs (exec (.colCmdAbort part g) s) fun u => done 0 u ∧ u.mem = s.mem ∧
          u.flights = s.flights ∧ u.col.opened = s.col.opened ∧
          ∀ c f, used c → ctxOf s c.ctx = some (c, f) → c.abortSent = false →
            ctxOf u c.ctx = some ({ c with
              abortSent := true
              own := 0 }, f) ∧
            ∃ m, m ∈ (portOf u c.port0).queue ∧ m.vl = 0 ∧
              m.head = colHead s c 0x14 0 (toLE 8 0 ++ toLE 4 c.rank ++ toLE 12 0 ++ toLE 4 0x31 ++ toLE 4 0)) ∧
        (∀ c f, groupCtxs s part g = [c] → c.nmem = 1 → ctxOf s c.ctx = some (c, f) → f.result = none →
          NextIs (exec (.colCmdAbort part g) s) fun u => done 0 u ∧ u.ports = s.ports ∧
            u.col = { s.col with ctxs := s.col.ctxs.filter fun x => x.ctx != c.ctx } ∧
            ∃ h, flightOf u f.fid = some h ∧ h.result = some 0x31))) ∧
    ((s.col.closing.find? fun x => x.1 == part) = none → exec (.colCloseReleased part) s = .next s) ∧
    (∀ op, (s.col.closing.find? fun x => x.1 == part) = some (part, op, g) →
      let left := s.col.closing.filter fun x => x.1 != part
      let z := setCol { s.col with closing := left } s
      let own := ownStruct s part a 64 = true
      let go := exec (.colCloseReleased part) s
      let again (u : State) : Prop := u.mem = s.mem ∧ u.col = { s.col with closing := left ++ [(part, op, g)] }
      (¬own → NextIs go fun u => ended 0x20 u ∧ u.col = z.col ∧ u.mem = s.mem) ∧
      (own → ¬free → NextIs go again) ∧
      (∀ code, own → free → (cgRead part g z).2 = some code → NextIs go fun u => ended code u ∧ u.col = z.col ∧ u.mem = s.mem) ∧
      (own → free → (cgRead part g z).2 = none → op = 2 → ¬unused →
        ((∃ c, used c) → NextIs go again) ∧
        ((¬∃ c, used c) → NextIs go fun u => ended 0 u ∧ u.col = { z.col with opened := others } ∧ cleared z u)))

/-- COL takes a COLL into the list of those that wait for a context. The one whose turn it is takes the lowest free context.
With an entry that is not OPEN, a GSEQ that is not NEXT_SEQ, or a partner that cannot reduce it ends at once with FORMAT,
SEQ_MISMATCH (detail 0x0010) or MEMBER_LOST (detail 0x0001) and sends nothing. Else NEXT_SEQ advances; a group of more than
one member sends START up both trees; a group of one member next runs on the device, writes its results and is free of its
context. A member sends its next segment up a tree while the window allows, with its elements in wire form; it writes a
result segment's elements on arrival, and sends DONE once the last are written and acknowledged; an overflow or a failed
access sends ABORT. A verdict OK ends the COLL with OK or ZERO_LENGTH; in a REFORM group MEMBER_LOST takes the lost member
out of the entry; else the member's own code stands before the verdict's. END goes up both trees and the context is free.
Without a verdict in time the COLL ends with MEMBER_LOST, detail 0x0002. It rests on readings or choices of the model: log
entries 31, 69, 70 and 113. -/
def Obligations.CollectivesRun : Prop :=
  ∀ (fid n tree port : Nat) (s : State), Running s →
    let sends (p vl : Nat) (head : List Byte) (u : State) : Prop := ∃ m, m ∈ (portOf u p).queue ∧ m.vl = vl ∧ m.head = head
    let aborts (c : ColCtx) (code detail : Nat) (u : State) : Prop :=
      sends c.port0 0 (colHead s c 0x14 0 (toLE 8 0 ++ toLE 4 c.rank ++ toLE 12 0 ++ toLE 4 code ++ toLE 4 detail)) u
    let dones (c : ColCtx) (u : State) : Prop := sends c.port0 0 (colHead s c 0x13 0 (toLE 8 0 ++ toLE 4 c.rank)) u
    let outcome (x code detail : Nat) (u : State) : Prop :=
      ∃ h, flightOf u x = some h ∧ h.result = some code ∧ h.detail = detail
    let without (c : ColCtx) (u : State) : Prop := u.col = { s.col with ctxs := s.col.ctxs.filter fun x => x.ctx != c.ctx }
    let keeps (dst : Nat × Nat) (u : State) : Prop := ∀ a, (a < dst.1 ∨ dst.1 + dst.2 ≤ a) → rd1 u a = rd1 s a
    let start := exec (.collStart fid) s
    (∀ f, flightOf s fid = some f → f.station = .col → f.work = .none → f.result = none →
      NextIs (exec (.coll fid) s) fun u => Only [.flights, .col] s u ∧ flightOf u fid = some { f with work := .coll } ∧
        u.col = { s.col with waiting := s.col.waiting ++ [fid] }) ∧
    (∀ f n, flightOf s fid = some f → f.result = none → localCtx s fid = none → freeCtxNo s = some n → nextColl s = some fid →
      let b := f.bytes
      let a := cgEntry s f.q (coGroup b)
      let e := rdBytes s a 64
      let nmem := bF e 8 2
      let next := toLE 4 (bF e 16 4 + 1)
      let ready := treeOk s b (bF e 12 1 % 16) = true ∧ treeOk s b (bF e 13 1 % 16) = true
      let col := { s.col with
        waiting := s.col.waiting.filter fun x => x != fid
        lastPart := f.q }
      let ends (code detail : Nat) : Prop := NextIs start fun u => outcome fid code detail u ∧ u.col = col ∧
        u.ports = s.ports ∧ u.mem = s.mem
      (∀ code, (cgRead f.q (coGroup b) s).2 = some code → ends code 0) ∧
      ((cgRead f.q (coGroup b) s).2 = none →
        (bF e 0 1 % 4 ≠ 1 → ends 0x13 0) ∧
        (bF e 0 1 % 4 = 1 → bF b 40 4 ≠ bF e 16 4 → ends 0x33 0x0010) ∧
        (bF e 0 1 % 4 = 1 → bF b 40 4 = bF e 16 4 → nmem ≠ 1 → ¬ready → ends 0x32 0x0001) ∧
        (bF e 0 1 % 4 = 1 → bF b 40 4 = bF e 16 4 → nmem = 1 ∨ ready → NextIs start fun u =>
          u.flights = s.flights ∧ ((memWrite .beside f.q 0 (a + 16) next s).2 = none → MemHolds [(a + 16, next)] s u) ∧
          ∃ c : ColCtx, u.col = { col with ctxs := s.col.ctxs ++ [c] } ∧
            (c.ctx, c.fid, c.part, c.group, c.fgid, c.gseq, c.epoch) =
              (n, f.fid, f.q, coGroup b, bF e 4 4 % 2 ^ 20, bF b 40 4, bF e 20 4) ∧
            (c.nmem, c.rank, c.port0, c.port1, c.timeoutMs, c.reform, c.keysel) =
              (nmem, bF e 10 2, bF e 12 1 % 16, bF e 13 1 % 16, bF e 2 2, bit 0 (bF e 1 1), bF e 14 1) ∧
            c.sent = [0, 0] ∧ c.inflight = [] ∧ c.got = [] ∧ c.abortSent = false ∧
            (nmem = 1 → u.ports = s.ports ∧ c.doneSent = false) ∧
            (nmem ≠ 1 → c.doneSent = ((downSegs b nmem c.rank).isEmpty && !unacked s fid) ∧ (c.doneSent = true → dones c u) ∧
              ∀ t, t < 2 → sends (treePort c t) 0 (colHead s c 0x10 t (toLE 1 (coOp b) ++ toLE 1 (fmtCode (wireFmt b)) ++
                toLE 2 (dOfmt b) ++ toLE 4 (coCount b) ++ toLE 2 c.rank ++ toLE 2 nmem ++ toLE 2 (coRoot b) ++
                toLE 2 c.timeoutMs)) u)))) ∧
    (∀ f c, flightOf s fid = some f → f.result = none → localCtx s fid = some c →
      let b := f.bytes
      let src := coSrc b 1 c.rank
      let dst := coDst b 1
      let r := memRead .beside f.q src.1 src.2 (proceed fid s)
      let rs := (List.range (coCount b)).map fun i => (dstAt b 0 i, resultOf f i (wireOf b s.mem (srcAt b 0 i)))
      let ws := joinWrites (rs.map fun x : Nat × Stored => (x.1, toLE (fmtBytes ((outFmt b).getD .k16)) x.2.word))
      let y := writeAll .beside f.q fid ws r.1
      mustWait s fid [src] [dst] = false →
      (∀ code, r.2 = some code → NextIs start fun u => outcome fid code 0 u ∧ without c u) ∧
      (r.2 = none → (∃ x : Nat × Stored, x ∈ rs ∧ x.2.overflow = true) → NextIs start fun u => outcome fid 0x41 0 u ∧
        without c u) ∧
      (r.2 = none → (∀ x : Nat × Stored, x ∈ rs → x.2.overflow = false) → NextIs start fun u => without c u ∧
        outcome fid (y.2.getD (if coCount b = 0 then 0x01 else 0)) 0 u ∧ (y.2 = none → MemHolds ws s u))) ∧
    (∀ c f, ctxOf s n = some (c, f) →
      let b := f.bytes
      (∀ g, c.abortSent = false → tree < 2 →
        ((ownSegs b c.nmem c.rank).filter fun g => segTree b g == tree)[c.sent.getD tree 0]? = some g →
        (c.inflight.filter fun x => x.1 == tree).length < colWindow s c tree →
        let a := srcAt b c.rank g.e0
        let len := g.len * fmtBytes ((inFmt b).getD .k16)
        let r := memRead .beside f.q a len (proceed f.fid s)
        let body := (List.range g.len).flatMap fun i => toLE (fmtBytes (wireFmt b)) (wireOf b s.mem (srcAt b c.rank (g.e0 + i)))
        mustWait s f.fid [(a, len)] [] = false →
        (∀ code, c.nmem ≠ 1 → r.2 = some code → NextIs (exec (.segmentSend n tree) s) fun u => u.mem = s.mem ∧
          aborts c 0x31 0 u ∧
          ctxOf u n = some ({ c with
            abortSent := true
            own := code }, f)) ∧
        (r.2 = none → NextIs (exec (.segmentSend n tree) s) fun u => u.mem = s.mem ∧
          ctxOf u n = some ({ c with
            sent := c.sent.set tree (c.sent.getD tree 0 + 1)
            inflight := if segMine b c.rank g then c.inflight ++ [(tree, g.no)] else c.inflight }, f) ∧
          ∃ m, m ∈ (portOf u (treePort c tree)).queue ∧ m.vl = 1 ∧
            m.body = body ++ List.replicate (ceilDiv body.length 256 * 256 - body.length) 0 ∧
            m.head = colHead s c 0x11 tree (toLE 8 0 ++ toLE 4 (if coOp b = 2 then c.rank else 0) ++ toLE 4 0 ++
              toLE 4 g.no ++ toLE 4 g.len))) ∧
      (c.nmem = 1 → exec (.collVerdictTimeout n) s = .next s) ∧
      (c.nmem ≠ 1 → f.result = none → NextIs (exec (.collVerdictTimeout n) s) fun u => outcome f.fid 0x32 0x0002 u ∧
        u.ports = s.ports ∧ without c u ∧ keeps (coDst b c.nmem) u)) ∧
    (∀ m s1 c f, takeMsg port 0x12 s = some (m, s1) → ctxFor s port m = some (c, f) → ctxOf s c.ctx = some (c, f) →
      let b := f.bytes
      ∀ g, ((downSegs b c.nmem c.rank).find? fun g => g.rank == (if coOp b = 2 then bF m.head 24 2 else 0) &&
          g.no == bF m.head 32 4) = some g →
        segTree b g = bF m.head 1 1 % 2 → g.len = bF m.head 36 4 → (g.rank, g.no) ∉ c.got → c.abortSent = false →
        let rs := segResults f c.rank g (wordsOf (fmtBytes (wireFmt b)) m.body)
        let ws := segWrites b rs
        let y := writeAll .beside f.q f.fid ws s
        let c1 := { c with
          got := (g.rank, g.no) :: c.got
          inflight := if coOp b = 2 ∧ g.rank ≠ c.rank then c.inflight else c.inflight.erase (segTree b g, g.no)
          clamped := c.clamped + (rs.filter fun x : Nat × Stored => x.2.saturated).length
          special := c.special + (rs.filter fun x : Nat × Stored => x.2.special).length }
        let last := ((downSegs b c.nmem c.rank).all fun x => c1.got.contains (x.rank, x.no)) && !unacked y.1 f.fid
        mustWait s f.fid [] (ws.map fun x => (x.1, x.2.length)) = false →
        ((∃ x : Nat × Stored, x ∈ rs ∧ x.2.overflow = true) → NextIs (exec (.segDown port) s) fun u => u.mem = s.mem ∧
          aborts c 0x41 0 u ∧
          ctxOf u c.ctx = some ({ c1 with
            ovf := true
            abortSent := true
            own := 0 }, f)) ∧
        ((∀ x : Nat × Stored, x ∈ rs → x.2.overflow = false) →
          (∀ code, y.2 = some code → NextIs (exec (.segDown port) s) fun u => aborts c 0x31 0 u ∧
            ctxOf u c.ctx = some ({ c1 with
              abortSent := true
              own := code }, f)) ∧
          (y.2 = none → NextIs (exec (.segDown port) s) fun u => MemHolds ws s u ∧
            ctxOf u c.ctx = some ({ c1 with doneSent := c.doneSent || last }, f) ∧
            (c.doneSent = false → last = true → dones c u)))) ∧
    (∀ m s1 c f, takeMsg port 0x15 s = some (m, s1) → ctxFor s port m = some (c, f) → bF m.head 1 1 % 2 = 0 →
      f.result = none →
      let b := f.bytes
      let code := bF m.head 40 1
      let lost := bF m.head 42 2
      let dst := coDst b c.nmem
      let a := cgEntry s c.part c.group
      let rank := cgF s c.part c.group 10 2
      let ws := [(a + 8, toLE 2 (cgF s c.part c.group 8 2 - 1)), (a + 10, toLE 2 (if lost < rank then rank - 1 else rank)),
        (a + 20, toLE 4 (cgF s c.part c.group 20 4 + 1))]
      let reform := code = 0x32 ∧ c.reform = true ∧ lost ≠ 0xFFFF
      let ends (x detail : Nat) (u : State) : Prop := outcome f.fid x detail u ∧ without c u ∧
        ∀ t, t < 2 → sends (treePort c t) 0 (colHead s c 0x16 t (toLE 8 0 ++ toLE 4 c.rank)) u
      let verdict := exec (.verdict port) s
      ((c.reform && cgHeld s c.part c.group) = true → verdict = .next s) ∧
      ((c.reform && cgHeld s c.part c.group) = false →
        (code = 0 → NextIs verdict fun u => ends (if coCount b = 0 then 0x01 else 0) 0 u ∧ u.mem = s.mem) ∧
        (reform → NextIs verdict fun u => ends 0x32 0x0003 u ∧
          CountsUp (pgCol c.part) Fld.COL_REFORMS 1 s u ∧
          ((writeAll .beside c.part 0 ws s).2 = none → ∀ a, (a < dst.1 ∨ dst.1 + dst.2 ≤ a) →
            rd1 u a = (writtenAt ws a).getD (rd1 s a))) ∧
        (code ≠ 0 → ¬reform → c.own ≠ 0 → NextIs verdict fun u => ends c.own 0 u ∧ keeps dst u) ∧
        (code ≠ 0 → ¬reform → c.own = 0 → NextIs verdict fun u =>
          ends code (if code = 0x33 then 0x0011 else 0) u ∧ keeps dst u)))

/-- ACQUIRE sends LREQ; LGRANT makes the slots HELD with the extents it names and the LEASE completes with OK; LREFUSE frees
them with CAPACITY, silence with MEMBER_LOST. While a lease is HELD or RECLAIMING its keep timer sends LKEEP. LRECL makes a
HELD lease RECLAIMING and notifies the partition. LUNKNOWN and silence make the lease LOST: the descriptors whose accesses
are in flight complete with MEMBER_LOST, but for collectives that have started, the MEM page holds the detail, the lease
counts in MEM_LEASE_LOST and the partition is notified. RELEASE frees LOST slots at once with OK; else LREL is sent once the
earlier descriptors of the partition have completed, and LRELACK or silence frees the slots with OK. LRDATA puts a read's
bytes in place, where the descriptor has captured memory there too, and LWACK ends a write. Then accesses that waited try
again; where none waits, that changes nothing. A message for another lease, or at another time, changes nothing but what its
consumption does. It rests on readings or choices of the model: log entries 19, 24, 33, 61, 78 and 113. -/
def Obligations.LeasesAtTheBorrower : Prop :=
  ∀ (fid slot port : Nat) (s : State), Running s →
    let outcome (x code : Nat) (u : State) : Prop := ∃ h, flightOf u x = some h ∧ h.result = some code
    let sends (l : Lease) (ty arg : Nat) (u : State) : Prop := ∀ p, route s l.peer = some p → ∃ m, m ∈ (portOf u p).queue ∧
      m.vl = 0 ∧ m.dst = l.peer ∧ (m.keyPart, m.keySlot) = (l.part, l.keysel) ∧
        m.head = leaseMsg ty arg l.count (leaseId s l) l.seq []
    let turns (l : Lease) (g : Lease → Lease) (u : State) : Prop :=
      u.leases = s.leases.map fun x => if x.first = l.first then g x else x
    let frees (l : Lease) (u : State) : Prop := u.leases = s.leases.filter fun x => x.first != l.first
    let open_ (x : Nat) : Prop := ∃ f, flightOf s x = some f ∧ f.result = none
    let released (l : Lease) (u : State) : Prop := frees l u ∧ ∀ x, x ∈ l.rels → l.acq ≠ some x → open_ x → outcome x 0 u
    let lost (l : Lease) (detail : Nat → Prop) (u : State) : Prop :=
      (∀ f c, flightOf s f.fid = some f → f.result = none → c ∈ s.accs → c.fid = f.fid → c.first = l.first → c.done = false →
        (∀ k, k ∈ s.col.ctxs → k.fid ≠ f.fid) → outcome f.fid 0x32 u) ∧
      (l.state ≠ .held → l.state ≠ .reclaiming → u.leases = s.leases) ∧
      (l.state = .held ∨ l.state = .reclaiming → ∃ d, detail d ∧ CountsUp pgLease Fld.MEM_LEASE_LOST 1 s u ∧
        turns l (fun x => { x with
          state := .lost
          detail := d }) u ∧
        rg u (pgMemP l.part) Fld.PAGE_ERR_ERR = 1 ∧
        (rg s (pgMemP l.part) Fld.PAGE_ERR_ERR = 0 → rg u (pgMemP l.part) Fld.PAGE_ERR_INFO_CODE = 0x32 ∧
          rg u (pgMemP l.part) Fld.PAGE_ERR_INFO_DETAIL = d) ∧
        Notified l.part ⟨2, 0x32, 0xFF, 0, 0, 0, rg u (pgMemP l.part) Fld.PAGE_ERR_INFO_DETAIL, l.first⟩ s u)
    ((∀ c x, sessOf s c = some x → x.todo = []) → s.secJobs = [] → kick s = s) ∧
    (∀ f l, leaseFlight s fid 0 = some (f, l) → l.asked = false → NextIs (exec (.leaseAcquire fid) s) fun u =>
      sends l 1 (bF f.bytes 17 1 % 4) u ∧ u.flights = s.flights ∧ turns l (fun x => { x with
        asked := true
        seq := x.seq + 1 }) u) ∧
    (∀ f l, leaseFlight s fid 1 = some (f, l) →
      (l.state = .lost → NextIs (exec (.leaseRelease fid) s) fun u => outcome fid 0 u ∧ released l u ∧ u.ports = s.ports) ∧
      (l.state ≠ .lost → exec (.leaseRelease fid) s = .next s)) ∧
    (∀ m s1 l, takeMsg port 2 s = some (m, s1) → ownLease s1 m = some l →
      (l.acq = none → exec (.lgrant port) s = .next s1) ∧
      (l.acq = some fid → open_ fid → NextIs (exec (.lgrant port) s) fun u => outcome fid 0 u ∧ u.ports = s1.ports ∧
        turns l (fun x => { x with
          state := if x.state = .pending then .held else x.state
          exts := (List.range l.count).map fun i => bF m.head (16 + 3 * i) 3 % 2 ^ 18
          acq := none }) u)) ∧
    (∀ m s1 l, takeMsg port 3 s = some (m, s1) → ownLease s1 m = some l →
      (l.acq = none → exec (.lrefuse port) s = .next s1) ∧
      (l.acq = some fid → open_ fid → NextIs (exec (.lrefuse port) s) fun u => outcome fid 0x11 u ∧ released l u)) ∧
    (∀ m s1 l, takeMsg port 6 s = some (m, s1) → ownLease s1 m = some l →
      (l.state ≠ .releasing → exec (.lrelack port) s = .next s1) ∧
      (l.state = .releasing → NextIs (exec (.lrelack port) s) (released l))) ∧
    (∀ m s1 l, takeMsg port 7 s = some (m, s1) → ownLease s1 m = some l →
      (l.state ≠ .held → exec (.lrecl port) s = .next s1) ∧
      (l.state = .held → NextIs (exec (.lrecl port) s) fun u => u.flights = s.flights ∧
        turns l (fun x => { x with state := .reclaiming }) u ∧
        Notified l.part ⟨3, 0, 0xFF, 0, 0, 0, rg s (pgMemP l.part) Fld.PAGE_ERR_INFO_DETAIL, l.first⟩ s u)) ∧
    (∀ m s1 l, takeMsg port 8 s = some (m, s1) → ownLease s1 m = some l → ∃ u, exec (.lunknown port) s = .next (kick u) ∧
      lost l (fun d => if l.state = .reclaiming then d = 2 else d = 1 ∨ d = 3) u) ∧
    (∀ m s1 c, takeMsg port 0x21 s = some (m, s1) →
      (s.accs.find? fun c => c.tag == bF m.head 20 4 && !c.isWrite && !c.done) = some c → ∃ u,
        exec (.lrdata port) s = .next (kick u) ∧ MemHolds [(c.addr, m.body.take c.len)] s u ∧
        u.flights = s.flights.map (fun f => if f.fid = c.fid then
          { f with snap := f.snap.map fun x => putBytes memDefault x c.addr (m.body.take c.len) } else f) ∧
        u.accs = s.accs.map fun d => if d = c then { c with done := true } else d) ∧
    (∀ m s1, takeMsg port 0x23 s = some (m, s1) →
      let z := { s1 with accs := s.accs.filter fun c => !(c.tag == bF m.head 20 4 && c.isWrite) }
      exec (.lwack port) s = .next (kick (colDones z)) ∧ (s.col.ctxs = [] → colDones z = z)) ∧
    (∀ l, leaseAt s slot = some l →
      (l.state = .pending ∨ l.state = .releasing → l.asked = true → l.acq = some fid → open_ fid →
        NextIs (exec (.leaseAnswerTimeout slot) s) fun u => outcome fid 0x32 u ∧ released l u) ∧
      (l.state = .held ∨ l.state = .reclaiming → NextIs (exec (.leaseKeepTimer slot) s) fun u => sends l 4 0 u ∧
          turns l (fun x => { x with seq := x.seq + 1 }) u) ∧
      (l.state = .held ∨ l.state = .reclaiming → ∃ u, exec (.leaseLostTimeout slot) s = .next (kick u) ∧
        lost l (fun d => d = 1) u) ∧
      (l.state = .releasing → l.lrelSent = false →
        (leaseQuiet s l = true → NextIs (exec (.releaseLrelSend slot) s) fun u =>
          sends l 5 0 u ∧ turns l (fun x => { x with
            lrelSent := true
            seq := x.seq + 1 }) u) ∧
        (leaseQuiet s l = false → exec (.releaseLrelSend slot) s = .next s)) ∧
      (l.state = .releasing → l.lrelSent = true → NextIs (exec (.releaseAckTimeout slot) s) (released l)))

/-- LREQ is granted all of its count of extents or none: the extents become lent and LGRANT names them, or LREFUSE is sent and
counts. LKEEP is answered with LKEEP, an access or LKEEP of a lease that is not held with LUNKNOWN. LREL ends the lease and
is answered with LRELACK; missing LKEEPs and the end of the grace period end it and count in MEM_LEASE_LOST: its extents
read as zero and are lendable again. LRD is answered with the bytes, LWR stores its bytes and is answered with LWACK; an
access that the memory fails is not answered, and one that a retrain holds waits at its port. MEM_RECLAIM, by partition 0
and with GO set, sends LRECL for every lease that the peer holds and leaves every other lease as it was. Answers leave on
the port of the request, under its key. It rests on readings or choices of the model: log entries 25, 26 and 61. -/
def Obligations.LeasesAtTheLender : Prop :=
  ∀ (port id part : Nat) (data : Word) (s : State), Running s →
    let lent (z : State) (l : Lend) (e : Nat) : Prop := e ∈ l.exts ∧ tabGet extDefault z.exts e = .lent
    let ended (z : State) (l : Lend) (u : State) : Prop := u.lends = z.lends.filter (fun x => x.id != l.id) ∧
      (∀ e, lent z l e → tabGet extDefault u.exts e = .lendable) ∧
      (∀ e, ¬lent z l e → tabGet extDefault u.exts e = tabGet extDefault z.exts e) ∧
      (∀ a, lent z l (a / 2 ^ 30) → rd1 u a = 0) ∧ (∀ a, ¬lent z l (a / 2 ^ 30) → rd1 u a = rd1 z a)
    let answers (z : State) (m : Msg) (vl : Nat) (head body : List Byte) (u : State) : Prop :=
      ∀ p k, slotOfKey z (bF m.head 208 4) = some (p, k) → ∃ x, x ∈ (portOf u port).queue ∧ x.vl = vl ∧ x.dst = m.src ∧
        x.head = head ∧ x.body = body ∧ (x.keyPart, x.keySlot) = (p, k)
    let unknown (z : State) (m : Msg) (u : State) : Prop := answers z m 0 (leaseMsg 8 0 0 (bF m.head 4 4) 0 []) [] u ∧
      u.lends = z.lends ∧ u.exts = z.exts ∧ u.mem = z.mem
    let zeros (n : Nat) (bs : List Byte) : List Byte := bs ++ List.replicate (n - bs.length) 0
    (∀ m s1, takeMsg port 1 s = some (m, s1) →
      let z := match lentLease s1 m with
        | some l => lendEnd l s1
        | none => s1
      let kind := bF m.head 1 1
      let count := bF m.head 2 2
      (∀ exts, grantOf z kind count = some exts → exts.length = count ∧
        (∀ e, e ∈ exts → isExtent e = true ∧ tabGet extDefault z.exts e = .lendable ∧ (kind = 1 → e < 1024) ∧ (kind = 2 →
          1024 ≤ e)) ∧
        NextIs (exec (.lreq port) s) fun u => answers s1 m 0 (leaseMsg 2 0 exts.length (bF m.head 4 4) 0 exts) [] u ∧
          (∀ e, e ∈ exts → tabGet extDefault u.exts e = .lent) ∧
          (∀ e, e ∉ exts → tabGet extDefault u.exts e = tabGet extDefault z.exts e) ∧
          u.lends = z.lends ++ [⟨bF m.head 4 4, bits 26 12 (bF m.head 4 4), exts, false, 1, bF m.head 208 4⟩]) ∧
      (grantOf z kind count = none → NextIs (exec (.lreq port) s) fun u =>
        answers s1 m 0 (leaseMsg 3 1 0 (bF m.head 4 4) 0 []) [] u ∧ CountsUp pgLease Fld.MEM_LEASE_REFUSED 1 s u ∧
        u.lends = z.lends ∧ u.exts = z.exts)) ∧
    (∀ m s1, takeMsg port 4 s = some (m, s1) →
      (∀ l, lentLease s1 m = some l → NextIs (exec (.lkeep port) s) fun u => answers s1 m 0 (leaseMsg 4 0 0 l.id l.seq []) [] u ∧
        u.lends = s.lends.map fun x => if x.id = l.id then { x with seq := x.seq + 1 } else x) ∧
      (lentLease s1 m = none → bits 26 12 (bF m.head 4 4) = fabId s → exec (.lkeep port) s = .next s1) ∧
      (lentLease s1 m = none → bits 26 12 (bF m.head 4 4) ≠ fabId s → NextIs (exec (.lkeep port) s) (unknown s1 m))) ∧
    (∀ m s1, takeMsg port 5 s = some (m, s1) →
      (∀ l, lentLease s1 m = some l → NextIs (exec (.lrel port) s) fun u => ended s1 l u ∧
        answers s1 m 0 (leaseMsg 6 0 0 l.id l.seq []) [] u) ∧
      (lentLease s1 m = none → NextIs (exec (.lrel port) s) fun u => u.lends = s.lends ∧ u.exts = s.exts ∧ u.mem = s.mem ∧
        answers s1 m 0 (leaseMsg 6 0 0 (bF m.head 4 4) 0 []) [] u)) ∧
    (∀ m s1, takeMsg port 0x20 s = some (m, s1) →
      (((lentLease s1 m).bind fun l => accTarget l m) = none → NextIs (exec (.lrd port) s) (unknown s1 m)) ∧
      (∀ a n, ((lentLease s1 m).bind fun l => accTarget l m) = some (a, n) →
        let r := memRead .lend 0 a n s1
        (heldRange s a n = true → exec (.lrd port) s = .next s) ∧
        (heldRange s a n = false → r.2 ≠ none → exec (.lrd port) s = .next r.1) ∧
        (heldRange s a n = false → r.2 = none → NextIs (exec (.lrd port) s) fun u => u.mem = s.mem ∧ u.lends = s.lends ∧
          answers s1 m 0 (accHead 0x21 (bF m.head 4 4) 0 0 n (bF m.head 20 4)) (zeros (ceilDiv n 256 * 256) (rdBytes s a n))
            u))) ∧
    (∀ m s1, takeMsg port 0x22 s = some (m, s1) →
      (((lentLease s1 m).bind fun l => accTarget l m) = none → NextIs (exec (.lwr port) s) (unknown s1 m)) ∧
      (∀ a n, ((lentLease s1 m).bind fun l => accTarget l m) = some (a, n) →
        let r := memWrite .lend 0 0 a (m.body.take n) s1
        (heldRange s a n = true → exec (.lwr port) s = .next s) ∧
        (heldRange s a n = false → r.2 ≠ none → exec (.lwr port) s = .next r.1) ∧
        (heldRange s a n = false → r.2 = none → NextIs (exec (.lwr port) s) fun u => MemHolds [(a, m.body.take n)] s u ∧
          u.lends = s.lends ∧
          answers s1 m 0 (accHead 0x23 (bF m.head 4 4) 0 0 0 (bF m.head 20 4)) [] u))) ∧
    (∀ l, (s.lends.find? fun x => x.id == id) = some l →
      NextIs (exec (.lenderKeepTimeout id) s) (fun u => ended s l u ∧ CountsUp pgLease Fld.MEM_LEASE_LOST 1 s u ∧
        u.ports = s.ports) ∧
      (l.reclaiming = true → NextIs (exec (.reclaimGraceEnd id) s) fun u => ended s l u ∧
        CountsUp pgLease Fld.MEM_LEASE_LOST 1 s u ∧ u.ports = s.ports)) ∧
    ((∀ l, l ∈ s.lends → l.id = id → l.reclaiming = false) → exec (.reclaimGraceEnd id) s = .next s) ∧
    (bootDone s = true →
      let peer := data.toNat % 2 ^ 15
      let meant (l : Lend) : Prop := l.borrower = peer ∧ l.reclaiming = false
      (part ≠ 0 → exec (.memReclaim part data) s = .next { s with bus := (0x20, 0) }) ∧
      (part = 0 → bit 31 data.toNat = false → exec (.memReclaim part data) s = .next { s with bus := (0, 0) }) ∧
      (part = 0 → bit 31 data.toNat = true → NextIs (exec (.memReclaim part data) s) fun u => u.bus = (0, 0) ∧ u.exts = s.exts ∧
        (∀ l, l ∈ s.lends → meant l →
          (∃ x, x ∈ u.lends ∧ (x.id, x.borrower, x.exts, x.reclaiming, x.keyid) = (l.id, l.borrower, l.exts, true, l.keyid)) ∧
          ∀ p k q, slotOfKey s l.keyid = some (p, k) → route s peer = some q → ∃ m, m ∈ (portOf u q).queue ∧ m.vl = 0 ∧
            m.dst = peer ∧ (m.keyPart, m.keySlot) = (p, k) ∧ m.head = leaseMsg 7 0 0 l.id l.seq []) ∧
        (∀ l, l ∈ s.lends → (∀ y, y ∈ s.lends → y.id = l.id → ¬meant y) → l ∈ u.lends)))

/-- A port answers ICMPv6 requests to its own addresses and drops others; it drops a datagram for another address or port, or
whose payload is no packet of a host. A HELLO is answered with HELLO_R under a new session id, a repeated one with the same
HELLO_R; a fifth pending one, a malformed one and every one after the security block has failed is dropped. FINISH makes the
session live with the keys of R328 and sends READY, after ending a live one on the channel; or it is answered with REJECT
and the first code that applies, and counts. A protected packet of no session, or with a bad tag, id or counter, counts in
HIF_CH_AUTH_FAIL and changes no session; an accepted one takes its counter and source and retires the packets that its ACK
and SACK cover, whose MOVE completes with its last. A CLOSE in its turn ends the session; a loss or an idle limit ends it
and counts: its mask is kept and its MOVEs fail with MEMBER_LOST. A re-send counts; ACKONLY follows a packet that was held
unacknowledged. Frames and packets dropped count. It rests on readings or choices of the model: log entries 28, 38, 39, 103
and 131. -/
def Obligations.HostSessions : Prop :=
  ∀ (port c sid seq src target : Nat) (data : List Byte) (d : Datagram) (up : Bool) (s : State), Running s →
    let rx (k : Nat) (u : State) : Prop := CountsUp (pgHif k) Fld.HIF_RX_FRAMES 1 s u
    let dropped (k : Nat) (u : State) : Prop := rx k u ∧ CountsUp (pgHif k) Fld.HIF_RX_DROP 1 s u ∧ Only [.regs .hif] s u
    let own (k a : Nat) : Prop := a = linkLocal s k ∨ (a ≠ 0 ∧ a = globalAddr s k)
    let tx (k : Nat) (o : Out) (u : State) : Prop := CountsUp (pgHif k) Fld.HIF_TX_FRAMES 1 s u ∧ u.out = o :: s.out
    let plain (p : HctPkt) (ptype sid : Nat) (body : List Byte) : Out := .packet d.port d.peer
      (hctHead ptype p.chan 0 sid 0 0 0 0 body.length ++ body ++ List.replicate 16 0)
    let fails (b : Nat) (u : State) : Prop := ∀ f, f ∈ movesOf s b → flightOf s f.fid = some f →
      ∃ g, flightOf u f.fid = some g ∧ g.result = some 0x32 ∧ g.detail = 0x0102
    let ended (x : Session) (u : State) : Prop := sessOf u c = none ∧ (chan u c).kept = x.mask.getD (chan s c).kept ∧ fails c u ∧
      CountsUp (pgCh c) Fld.HIF_CH_LOST 1 s u ∧ Counted ⟨pgCh c, 0x0C, 0, 5, some (chanPart s c)⟩ 1 s u
    let mine : Prop := d.port < 2 ∧ own d.port d.dst ∧ d.dport = rg s (pgHif d.port) Fld.HIF_PORT_CFG_UDP_PORT
    let hosts := [Instr.hello d, .finish d, .close d, .ackonly d, .reg d, .submit d, .bulkWr d, .bulkRd d, .subscribe d, .moveFill d
      ]
    (port < 2 → NextIs (exec (.hostPortLinkChange port up) s) (fun u => Only [.regs .hif] s u ∧
        OnlyFields [(pgHif port, Fld.HIF_PORT_STAT)] s u ∧ rg u (pgHif port) Fld.HIF_PORT_STAT = b2n up) ∧
      NextIs (exec (.hostFrameDrop port) s) (dropped port) ∧
      (own port target →
        NextIs (exec (.icmpv6NeighborSolicitation port src target) s) (fun u => rx port u ∧
          tx port (.neighborAdvert port src target) u) ∧
        NextIs (exec (.icmpv6EchoRequest port src target data) s) fun u => rx port u ∧
          tx port (.echoReply port src target data) u) ∧
      (¬own port target → NextIs (exec (.icmpv6NeighborSolicitation port src target) s) (dropped port) ∧
        NextIs (exec (.icmpv6EchoRequest port src target data) s) (dropped port))) ∧
    (d.port < 2 → ¬mine ∨ hctOf d.data = none → ∀ i, i ∈ hosts → NextIs (exec i s) (dropped d.port)) ∧
    (∀ p, mine → hctOf d.data = some p → p.ptype = 0x01 →
      let odd := p.body.length ≠ 226 ∨ p.sid ≠ 0 ∨ s.sec.failed = true
      let twin := s.hif.pending.find? fun k => k.hostEph == p.body.take 97
      (odd → NextIs (exec (.hello d) s) (dropped d.port)) ∧
      (∀ k, ¬odd → twin = some k → NextIs (exec (.hello d) s) fun u => u.hif = s.hif ∧ rx d.port u ∧
        tx d.port (plain { p with chan := k.chan } 0x02 k.sid k.reply) u) ∧
      (¬odd → twin = none → 4 ≤ s.hif.pending.length → NextIs (exec (.hello d) s) (dropped d.port)) ∧
      (¬odd → twin = none → s.hif.pending.length < 4 → NextIs (exec (.hello d) s) fun u => ∃ k n,
        u.hif = { s.hif with
          pending := s.hif.pending ++ [k]
          nextSid := s.hif.nextSid % (2 ^ 32 - 1) + 1 } ∧
        (k.chan, k.port, k.peer, k.sid) = (p.chan, d.port, d.peer, s.hif.nextSid) ∧
        (k.hostEph, k.hostNonce, k.hostPub) = (p.body.take 97, (p.body.drop 97).take 32, (p.body.drop 129).take 97) ∧
        (let cert := s.sec.chain
        let r := ecPub k.eph ++ k.devNonce ++ toLE 4 k.sid ++ toLE 2 cert.length ++ cert
        k.reply = r ++ ecSign s.sec.sak n (p.body ++ r)) ∧
        rx d.port u ∧ tx d.port (plain p 0x02 k.sid k.reply) u)) ∧
    (∀ p, mine → hctOf d.data = some p → p.ptype = 0x03 →
      let known := s.hif.pending.find? fun k => k.sid == p.sid && k.chan == p.chan
      (p.body.length ≠ 96 ∨ known = none → NextIs (exec (.finish d) s) (dropped d.port)) ∧
      (∀ k, p.body.length = 96 → known = some k →
        let rest := { s.hif with pending := s.hif.pending.filter fun y => y.sid != k.sid }
        let h1 := sha384 (k.hostEph ++ k.hostNonce ++ k.hostPub ++ k.reply.take (k.reply.length - 96))
        let z := ecdhX k.eph k.hostEph
        let keys := hkdf (k.devNonce ++ k.hostNonce) (z.getD []) (ascii "OSK-HCT-1" ++ h1) 72
        let code := if rg s (pgCh k.chan) Fld.HIF_CH_CFG_ENABLE = 0 ∨ partExists s (chanPart s k.chan) = false then 0x20
          else if sha384 k.hostPub ≠ (List.range 12).flatMap (fun m => toLE 4 (rg s (pgCh k.chan) (fldAt Fld.HIF_CH_KEYDIG m)))
          then 0x23 else if ecVerify k.hostPub (h1 ++ ascii "HCT-FINISH") p.body = false ∨ z = none then 0x23 else 0
        (code ≠ 0 → NextIs (exec (.finish d) s) fun u => u.hif = rest ∧ u.chans = s.chans ∧
          CountsUp (pgCh k.chan) Fld.HIF_CH_AUTH_FAIL 1 s u ∧ rx d.port u ∧
          tx d.port (plain { p with chan := k.chan } 0x05 k.sid (toLE 1 code ++ List.replicate 15 0)) u) ∧
        (code = 0 → NextIs (exec (.finish d) s) fun u => u.hif.pending = rest.pending ∧
          ((sessOf s k.chan).isSome = true → fails k.chan u ∧ CountsUp (pgCh k.chan) Fld.HIF_CH_LOST 1 s u) ∧
          ∃ x, sessOf u k.chan = some x ∧ (x.sid, x.port, x.peer, x.maxData) = (k.sid, d.port, d.peer, maxData s d.port) ∧
            x.keyHD = keys.take 32 ∧ x.keyDH = (keys.drop 32).take 32 ∧
            x.saltHD = (keys.drop 64).take 4 ∧ x.saltDH = (keys.drop 68).take 4 ∧
            x.rxNext = 0 ∧ x.early = [] ∧ x.todo = [] ∧ x.mask = none ∧ x.txNext = 1 ∧
              x.out.map (fun t => (t.seq, t.ptype, t.body)) =
              [(0, 0x04, toLE 4 x.maxData ++ toLE 2 256 ++ toLE 10 0)]))) ∧
    exec (.handshakeTimeout sid) s = .next { s with hif := { s.hif with
      pending := s.hif.pending.filter fun k => k.sid != sid } } ∧
    (∀ p, mine → hctOf d.data = some p → p.ptype ≠ 0x01 → p.ptype ≠ 0x03 →
      let good (x : Session) (b : List Byte) : Prop := x.sid = p.sid ∧ ctrNew x p.ctr = true ∧
        gcmOpen x.keyHD (x.saltHD ++ toLE 8 p.ctr) p.head p.body p.tag = some b
      ((∀ x, sessOf s p.chan = some x → p.body.length ≤ x.maxData + 32 ∧ ∀ b, ¬good x b) → ∀ i, i ∈ hosts →
        NextIs (exec i s) fun u => rx d.port u ∧ CountsUp (pgCh p.chan) Fld.HIF_CH_AUTH_FAIL 1 s u ∧ Only [.regs .hif] s u) ∧
      (∀ x, sessOf s p.chan = some x → x.maxData + 32 < p.body.length → ∀ i, i ∈ hosts → NextIs (exec i s) (dropped d.port)) ∧
      (∀ x b, sessOf s p.chan = some x → p.body.length ≤ x.maxData + 32 → good x b →
        let gone := x.out.filter (covered p.ack p.sack)
        let num (fid : Nat) : Nat := (gone.filter fun t => t.fid == some fid).length
        (p.ptype = 0x10 → NextIs (exec (.ackonly d) s) fun u => rx d.port u ∧
          (∃ y, sessOf u p.chan = some y ∧
            (y.sid, y.port, y.peer, y.ctrHigh) = (x.sid, d.port, d.peer, some (max p.ctr (x.ctrHigh.getD p.ctr))) ∧
            p.ctr ∈ y.ctrSeen ∧ y.out.map TxPkt.seq = (x.out.filter fun t => !covered p.ack p.sack t).map TxPkt.seq ∧
            (∀ t, t ∈ y.out → (t.seq + 2 ^ 32 - (y.out.map TxPkt.seq).headD 0) % 2 ^ 32 < 256 → t.sent = true) ∧
            y.todo = x.todo ∧ y.early = x.early ∧ y.rxNext = x.rxNext) ∧
          ∀ f n, flightOf s f.fid = some f → f.work = .hos n → f.result = none →
            (num f.fid < n → ∃ g, flightOf u f.fid = some g ∧ g.work = .hos (n - num f.fid) ∧ g.result = none) ∧
            (1 ≤ num f.fid → n ≤ num f.fid → ∃ g, flightOf u f.fid = some g ∧ g.result = some 0)) ∧
        (p.ptype = 0x06 → x.early = [] → x.todo = [] → p.seq = x.rxNext → poolUsed s + b.length ≤ 0x1000000 →
          NextIs (exec (.close d) s) fun u =>
          sessOf u p.chan = none ∧ (chan u p.chan).kept = x.mask.getD (chan s p.chan).kept ∧
          ∀ f, f ∈ movesOf s p.chan → flightOf s f.fid = some f → ∃ g, flightOf u f.fid = some g ∧ g.result ≠ none))) ∧
    (∀ x, sessOf s c = some x → c < 64 → x.port < 2 →
      let sent (ptype flags seq : Nat) (body : List Byte) (u : State) : Prop :=
        tx x.port (.packet x.port x.peer (packetBytes x c ptype flags seq body)) u ∧ Only [.regs .hif, .chans, .out] s u
      ((∃ t, t ∈ x.out ∧ t.sent = true) → NextIs (exec (.sessionLossTimeout c) s) (ended x)) ∧
      ((∀ t, t ∈ x.out → t.sent = false) → exec (.sessionLossTimeout c) s = .next s) ∧
      NextIs (exec (.sessionIdleTimeout c) s) (ended x) ∧
      (∀ t, (x.out.find? fun t => t.seq == seq && t.sent) = some t → NextIs (exec (.deviceResend c seq) s) fun u =>
        CountsUp (pgCh c) Fld.HIF_CH_RESENDS 1 s u ∧ sent t.ptype t.flags t.seq t.body u ∧ sessOf u c = some { x with
          ctrTx := x.ctrTx + 1
          ackDue := false
          out := x.out.map fun t => if t.seq = seq then { t with resends := t.resends + 1 } else t }) ∧
      ((∀ t, t ∈ x.out → t.seq = seq → t.sent = false) → exec (.deviceResend c seq) s = .next s) ∧
      (x.ackDue = true → NextIs (exec (.ackDelayExpiry c) s) fun u => sent 0x10 0 0 [] u ∧ sessOf u c = some { x with
        ctrTx := x.ctrTx + 1
        ackDue := false }) ∧
      (x.ackDue = false → exec (.ackDelayExpiry c) s = .next s))

/-- A sequenced packet out of its turn is kept, acknowledged again or dropped, and executes nothing. In its turn, on a session
with nothing waiting: REG runs its accesses in order and answers the status and data of each, or FORMAT; SUBMIT writes its
entry at the tail of the ring and advances TAIL, or answers the first code that applies; BULK_WR writes its bytes and
answers OK once they are visible, BULK_RD answers its bytes in packets of MAXDATA, and each of them the first code that its
checks meet; before boot is done they reach the staging area; SUBSCRIBE sets the mask and ends what the channel kept, or
answers FORMAT. A MOVE_FILL that matches a pull writes its data; the last completes the MOVE, and one that matches none is
dropped. A pull unanswered for LOST_MS ends the MOVE with MEMBER_LOST, detail 0x0102. Every answer takes the session's next
number, behind what the submitted entry makes its queue send. It rests on readings or choices of the model: log entries 40,
42, 99, 100, 101 and 102. -/
def Obligations.HostRequests : Prop :=
  ∀ (fid : Nat) (d : Datagram) (p : HctPkt) (b : List Byte) (s : State), Running s →
    let c := p.chan
    let q := chanPart s c
    let head (x : Session) : Prop := hctOf d.data = some p ∧ d.port < 2 ∧ ownAddr s d.port d.dst = true ∧
      d.dport = rg s (pgHif d.port) Fld.HIF_PORT_CFG_UDP_PORT ∧ sessOf s c = some x ∧ x.txNext < 2 ^ 32 ∧
      p.body.length ≤ x.maxData + 32 ∧ x.sid = p.sid ∧ ctrNew x p.ctr = true ∧
      gcmOpen x.keyHD (x.saltHD ++ toLE 8 p.ctr) p.head p.body p.tag = some b ∧
      x.todo = [] ∧ (∀ e, e ∈ x.early → e.1 ≠ x.rxNext)
    let turn (x : Session) (ptype : Nat) : Prop := head x ∧ p.ptype = ptype ∧ x.early = [] ∧ p.seq = x.rxNext ∧
      poolUsed s + b.length ≤ 0x1000000 ∧ lostCode s s.nextFid = none
    let pieces : List Piece := [.regs .hif, .flights, .chans, .nextFid, .descriptors, .out]
    let apart (z : State) : Prop := Only pieces s z
    let quiet (x : Session) (u : State) : Prop := ∃ y, sessOf u c = some y ∧ y.sid = x.sid ∧ y.todo = [] ∧
      y.rxNext = (x.rxNext + 1) % 2 ^ 32
    let answer (x : Session) (n ptype flags : Nat) (body : List Byte) (u : State) : Prop := ∃ y k, sessOf u c = some y ∧
      k ∈ y.out ∧
      k.seq = (x.txNext + n) % 2 ^ 32 ∧ k.ptype = ptype ∧ k.flags = flags ∧ k.body = body
    let done (x : Session) (ptype flags : Nat) (body : List Byte) (u : State) : Prop := quiet x u ∧ answer x 0 ptype flags body u
    let mask := bF b 0 4
    let n := bF b 0 4
    let tail := qTail s q
    let size := qSize s q
    let slot := qRing s q + 16 * tail
    let a := bF b 0 6
    let len := bF b 8 4
    let torn := partState s q = .torn
    let sub := if bootDone s = false then 0x20 else if torn then 0x71 else if b.length ≠ 16 then 0x13
      else if size - 1 ≤ (tail + size - qHead s q) % size then 0x11 else 0
    let bulk (wr : Bool) (most : Nat) : Nat := if torn then 0x71
      else if (if bootDone s then opRange s q a len else decide (0x80000000000 ≤ a ∧
        a + len ≤ 0x80000000000 + 0x1000100)) = false then 0x20
      else if bF b 6 2 ≠ 0 ∨ bF b 12 4 ≠ 0 ∨ b.length ≠ (if wr then 16 + len else 16) then 0x13
      else if a % 32 ≠ 0 ∨ len % 32 ≠ 0 then 0x12 else if most < len then 0x11 else if len = 0 then 0x01 else 0
    let bytes := b.drop 16
    (∀ x, head x → p.ptype ≠ 0x01 → p.ptype ≠ 0x03 → p.ptype ≠ 0x10 →
      ∀ i, i ∈ [Instr.close d, .reg d, .submit d, .bulkWr d, .bulkRd d, .subscribe d, .moveFill d] →
      let e := (p.seq + 2 ^ 32 - x.rxNext) % 2 ^ 32
      let stays (u : State) : Prop := apart u ∧ ∃ y, sessOf u c = some y ∧ y.sid = x.sid ∧ y.todo = [] ∧ y.rxNext = x.rxNext
      let kept (l : List (Nat × Nat × List Byte)) (u : State) : Prop := ∃ y, sessOf u c = some y ∧ y.early = l
      let fresh := ∀ y, y ∈ x.early → y.1 ≠ p.seq
      (2 ^ 31 ≤ e ∨ ¬fresh → NextIs (exec i s) fun u => stays u ∧ kept x.early u ∧
        ∃ y, sessOf u c = some y ∧ y.ackDue = true) ∧
      (e < 2 ^ 31 → 256 ≤ e → fresh → NextIs (exec i s) fun u => stays u ∧ kept x.early u) ∧
      (e < 256 → fresh → 0x1000000 < poolUsed s + b.length → NextIs (exec i s) fun u =>
        stays u ∧ kept x.early u ∧ CountsUp (pgCh c) Fld.HIF_CH_NOROOM 1 s u) ∧
      (0 < e → e < 256 → fresh → poolUsed s + b.length ≤ 0x1000000 → NextIs (exec i s) fun u =>
        stays u ∧ kept (x.early ++ [(p.seq, p.ptype, b)]) u)) ∧
    (∀ x, turn x 0x20 →
      (n = 0 ∨ 64 < n ∨ b.length ≠ 4 + 24 * n → NextIs (exec (.reg d) s) fun u => apart u ∧
        done x 0x21 0 (toLE 4 0 ++ toLE 1 0x13) u) ∧
      (1 ≤ n → n ≤ 64 → b.length = 4 + 24 * n →
        let z := receive c 0x20 p.seq b (headerIn d p (rxFrame d.port s)).1
        let r := regRun q ((List.range n).map (regAccess b)) [] z
        apart z ∧ ((∃ y, sessOf r.1 c = some y ∧ y.sid = x.sid ∧ y.txNext = x.txNext ∧ y.todo.length = 1) →
          NextIs (exec (.reg d) s) fun u =>
          Only [.regs .hif, .chans, .out] r.1 u ∧ answer x 0 0x21 0 (toLE 4 n ++ r.2) u))) ∧
    (∀ x, turn x 0x22 → heldRange s slot 16 = false →
      let w := memWrite .beside q 0 slot b s
      (sub ≠ 0 → NextIs (exec (.submit d) s) fun u => Only (.accs :: .lostFids :: .retrain :: pieces) s u ∧
        done x 0x23 0 (toLE 1 sub ++ toLE 3 0 ++ toLE 2 0) u) ∧
      (∀ code, sub = 0 → w.2 = some code → NextIs (exec (.submit d) s) fun u => qTail u q = tail ∧
        done x 0x23 0 (toLE 1 code ++ toLE 3 0 ++ toLE 2 0) u) ∧
      (sub = 0 → w.2 = none → NextIs (exec (.submit d) s) fun u => MemHolds [(slot, b)] s u ∧
        qTail u q = (tail + 1) % size % 2 ^ 12 ∧
        (∃ y k, sessOf u c = some y ∧ k ∈ y.out ∧ k.ptype = 0x23 ∧ k.body = toLE 1 0 ++ toLE 3 0 ++ toLE 2 tail) ∧
        (qRuns s q = false → done x 0x23 0 (toLE 1 0 ++ toLE 3 0 ++ toLE 2 tail) u))) ∧
    (∀ x, turn x 0x24 →
      let w := memWrite .yard q s.nextFid a bytes s
      let told (code : Nat) (u : State) : Prop := done x 0x25 0 (toLE 1 code ++ List.replicate 15 0) u
      let code := bulk true x.maxData
      (code ≠ 0 → NextIs (exec (.bulkWr d) s) fun u => u.mem = s.mem ∧ told code u) ∧
      (code = 0 → bootDone s = false → NextIs (exec (.bulkWr d) s) fun u => MemHolds [(a, bytes)] s u ∧ told 0 u) ∧
      (code = 0 → bootDone s = true → heldRange s a len = false → (∀ e, e ∈ s.accs → e.fid ≠ s.nextFid) →
        (∀ k, w.2 = some k → NextIs (exec (.bulkWr d) s) (told k)) ∧
        (w.2 = none → NextIs (exec (.bulkWr d) s) fun u => MemHolds [(a, bytes)] s u ∧
          ((∀ e, e ∈ piecesOf a len → ownTier e = true) → told 0 u) ∧
          ((∃ e, e ∈ u.accs ∧ e.fid = s.nextFid) → ∃ y, sessOf u c = some y ∧ y.todo = [⟨s.nextFid, 0x24, b, true⟩])))) ∧
    (∀ x, turn x 0x26 →
      let code := bulk false (2 ^ 24)
      let told (code : Nat) (u : State) : Prop := u.mem = s.mem ∧ done x 0x27 1 (toLE 8 0 ++ toLE 1 code ++ toLE 7 0) u
      (code ≠ 0 → NextIs (exec (.bulkRd d) s) (told code)) ∧
      (∀ k, code = 0 → bootDone s = true → heldFor s s.nextFid a len = false → (memRead .yard q a len s).2 = some k →
        NextIs (exec (.bulkRd d) s) (told k)) ∧
      (code = 0 → 0 < x.maxData → (bootDone s = true → heldFor s s.nextFid a len = false ∧
          (memRead .yard q a len s).2 = none) → NextIs (exec (.bulkRd d) s) fun u => u.mem = s.mem ∧ quiet x u ∧
        ∀ i, i < ceilDiv len x.maxData →
          let m := min x.maxData (len - i * x.maxData)
          answer x i 0x27 (b2n (decide (i + 1 = ceilDiv len x.maxData))) (toLE 4 (i * x.maxData) ++ toLE 4 m ++ toLE 8 0 ++
            rdBytes s (a + i * x.maxData) m) u)) ∧
    (∀ x, turn x 0x28 →
      (mask < 16 → NextIs (exec (.subscribe d) s) fun u => done x 0x29 0 (toLE 1 0) u ∧ (chan u c).kept = 0 ∧
        ∃ y, sessOf u c = some y ∧ y.mask = some mask) ∧
      (16 ≤ mask → NextIs (exec (.subscribe d) s) fun u => done x 0x29 0 (toLE 1 0x13) u ∧ (chan u c).kept = (chan s c).kept ∧
        ∃ y, sessOf u c = some y ∧ y.mask = x.mask)) ∧
    (∀ x, turn x 0x33 →
      let pull := s.hif.pulls.find? fun w => w.chan == c && w.moveId == bF b 0 4 && w.offset == bF b 8 8 &&
        w.len == bF b 4 4 && b.length == 16 + bF b 4 4
      (pull = none → NextIs (exec (.moveFill d) s) fun u => apart u ∧ quiet x u ∧
        CountsUp (pgHif d.port) Fld.HIF_RX_DROP 1 s u) ∧
      ∀ w f m, pull = some w → mustWait s w.fid [] [(w.addr, w.len)] = false → flightOf s w.fid = some f → f.work = .hos m →
        f.result = none → (∀ t, t ∈ x.out → t.fid ≠ some w.fid) → (memWrite .yard f.q f.fid w.addr bytes s).2 = none →
          NextIs (exec (.moveFill d) s) fun u => quiet x u ∧
          MemHolds [(w.addr, bytes)] s u ∧ (∃ g, flightOf u w.fid = some g ∧ (m ≤ 1 → g.result = some 0) ∧
            (1 < m → g.work = .hos (m - 1) ∧ g.result = none)) ∧
          (∃ l, u.hif.pulls = (s.hif.pulls.filter fun v => v != w) ++ l ∧ l.length ≤ 1 ∧ (m ≤ 1 → l = []) ∧
            ∀ v, v ∈ l → v.moveId = w.moveId ∧ v.fid = w.fid ∧ v.chan = c)) ∧
    (∀ f, flightOf s fid = some f →
      ((∃ w, w ∈ s.hif.pulls ∧ w.fid = fid) → f.result = none → NextIs (exec (.movePullTimeout fid) s) fun u =>
        (∃ g, flightOf u fid = some g ∧ g.result = some 0x32 ∧ g.detail = 0x0102) ∧
        u.hif.pulls = s.hif.pulls.filter fun w => w.fid != fid) ∧
      ((∀ w, w ∈ s.hif.pulls → w.fid ≠ fid) → exec (.movePullTimeout fid) s = .next s))

/-- A retrain holds its channel and counts, a forced one also as an override; a good end releases the requests held, a failed
one is followed by the next; the third in a row, or a declaration, fails the stack or package: its extents are FAILED,
nothing is held at it, its lends end, the module has FAILED, and the owners of its extents are torn down, partition 0
reporting the cause on its PRT page. A fault of a stack engine and a failed stack link do the same under their own causes,
and report themselves where the stack has failed already. An uncorrected error fences an array, takes a scratch way, or
fails a shared unit, and tears down their holder; a failed hop tears down every partition with traffic on it. The descriptor
that met a shared unit's error ends with HW_FAULT; a scrub counts. A fenced array, a stack or package that a declaration
names again, and a unit that does not exist, change nothing. The first cause of a module failure describes it, a further one
leaves that as it is. Where a channel or a way is free again what waited for it tries again. It rests on readings or choices
of the model: log entries 84, 86, 87, 125 and 127. -/
def Obligations.FaultsTakeUnitsOutOfService : Prop :=
  ∀ (lpddr ok declared forced : Bool) (k ch cycles detail corrected cause blk parts : Nat) (fid t : Option Nat) (fids : List Nat)
      (s : State), Running s → Canonical s →
    let c : MemChan := ⟨lpddr, k, ch⟩
    let pg := unitPage lpddr k
    let torn (p why : Nat) (u : State) : Prop := partState u p = .torn ∧ (∀ f, f ∈ u.flights → f.q ≠ p) ∧
      rg u (pgDsp p) Fld.DSP_Q_CTRL_RUN = 0 ∧ (secOf u p).curSet = keySetZero ∧ (secOf u p).oldSet = keySetZero ∧
      rg u (pgPrt p) Fld.PAGE_ERR_ERR = 1 ∧ (rg s (pgPrt p) Fld.PAGE_ERR_ERR = 0 →
        rg u (pgPrt p) Fld.PAGE_ERR_INFO_CODE = 0x71 ∧ rg u (pgPrt p) Fld.PAGE_ERR_INFO_DETAIL = why)
    let lives (p : Nat) : Prop := p ≠ 0 ∧ p < 16 ∧ partState s p ≠ .none ∧ partState s p ≠ .torn
    let hit (p why : Nat) (u : State) : Prop := (lives p → torn p why u) ∧ (p = 0 → rg u (pgPrt 0) Fld.PAGE_ERR_ERR = 1 ∧
      (qu u 0).held = true)
    let failed (x : Nat) (g : Page) (code : Nat) (u : State) : Prop := rg u g Fld.PAGE_ERR_ERR = 1 ∧
      (rg s pgRas Fld.RAS_DEV_STAT_CAUSE = 0 → rg u pgRas Fld.RAS_DEV_STAT_FAILED = 1 ∧ rg u pgRas Fld.RAS_DEV_STAT_CAUSE = x ∧
        rg u pgRas Fld.RAS_FAIL_SRC = srcKey g ∧ rg u pgRas Fld.RAS_FAIL_INFO = 0x70 + code * 256) ∧
      (rg s pgRas Fld.RAS_DEV_STAT_CAUSE ≠ 0 → ∀ f, f ∈ [Fld.RAS_DEV_STAT_FAILED, Fld.RAS_DEV_STAT_CAUSE, Fld.RAS_FAIL_SRC,
        Fld.RAS_FAIL_INFO] → rg u pgRas f = rg s pgRas f) ∧
      (rg s g Fld.PAGE_ERR_ERR = 0 → rg u g Fld.PAGE_ERR_INFO_CODE = 0x70 ∧ rg u g Fld.PAGE_ERR_INFO_DETAIL = code)
    let down (l : Bool) (why : Nat) (u : State) : Prop := (∀ e, e ∈ unitExtents l k → tabGet extDefault u.exts e = .failed) ∧
      (∀ x, x ∈ u.retrain.held → ¬(x.lpddr = l ∧ x.unit = k)) ∧ (∀ x e, x ∈ u.lends → e ∈ x.exts → e ∉ unitExtents l k) ∧
      ∀ p, p < 16 → (∃ e, e ∈ unitExtents l k ∧ tabGet extDefault s.exts e = .assigned p) → hit p why u
    let gone := tabGet extDefault s.exts (if lpddr then 1024 + 64 * k else 64 * k) = .failed
    let there := if lpddr then k < 16 ∧ ch < 4 else k < 8 ∧ ch < 64
    let held := c ∈ s.retrain.held
    let n := failsOf s c
    let goes := there ∧ ¬gone ∧ ¬held ∧ (forced = true ∨ deferOf s lpddr k ≠ 1)
    let others := s.retrain.fails.filter fun x => x.1 != c
    let start := exec (.memoryRetrainStart lpddr k ch forced) s
    let stop := exec (.memoryRetrainEnd lpddr k ch ok cycles declared) s
    (goes → NextIs start fun u => u.retrain = { s.retrain with held := s.retrain.held ++ [c] } ∧
      CountsUp pg (if lpddr then Fld.LPD_RETRAIN_CNT else Fld.MEM_RETRAIN_CNT) 1 s u ∧
      (forced = true → CountsUp pg (if lpddr then Fld.LPD_FORCED_CNT else Fld.MEM_FORCED_CNT) 1 s u ∧
        Counted ⟨pg, 0x05, 0, 2, none⟩ 1 s u)) ∧
    (¬goes → start = .next s) ∧
    (there → declared = false → held → ok = true → ∃ u, stop = .next (freed u) ∧ u.retrain = {
        held := s.retrain.held.filter fun x => x != c
        fails := others
        waiting := s.retrain.waiting } ∧ Counted ⟨pg, 0x04, 0, ch, none⟩ 0 s u ∧
      (lpddr = false → rg u pg Fld.MEM_HOLD_MAX =
        if rg s pg Fld.MEM_HOLD_MAX < cycles then min cycles (2 ^ 24 - 1) else rg s pg Fld.MEM_HOLD_MAX)) ∧
    (there → declared = false → held → ok = false → n < 2 →
      ∃ u, stop = .next (freed u) ∧ u.retrain = { s.retrain with fails := others ++ [(c, n + 1)] } ∧
      CountsUp pg (if lpddr then Fld.LPD_RETRAIN_CNT else Fld.MEM_RETRAIN_CNT) 1 s u) ∧
    (there → ¬gone → declared = true ∨ (held ∧ ok = false ∧ 2 ≤ n) → ∃ u, stop = .next (freed u) ∧ down lpddr 3 u ∧
      failed (if lpddr then 4 else 3) pg (0x0100 + ch) u ∧
      rg u pg (if lpddr then Fld.LPD_STAT_FAILED else Fld.MEM_STACK_STAT_FAILED) = 1) ∧
    (¬there ∨ (declared = false ∧ ¬held) ∨ (declared = true ∧ gone) → stop = .next (freed s)) ∧
    exec (.wayZeroiseDone k) s = .next (freed { s with yard := { s.yard with
      zeroising := s.yard.zeroising.filter fun w => w != k } }) ∧
    NextIs (exec (.yardScrub corrected) s) (fun u => CountsUp pgRas Fld.RAS_SCRUBS 1 s u ∧
      CountsUp pgRas Fld.RAS_CORR corrected s u ∧ Only [.regs .ras, .regs .evr, .evr, .freeCtr] s u) ∧
    (k < 160 → fenced s k = false → NextIs (exec (.arrayUncorrectedError k detail fid) s) fun u => fenced u k = true ∧
      failed 1 (pgArr k) (detail % 65536) u ∧ hit (arrOwner s k) 2 u) ∧
    (160 ≤ k ∨ fenced s k = true → exec (.arrayUncorrectedError k detail fid) s = .next s) ∧
    (k < 8 → tabGet extDefault s.exts (64 * k) ≠ .failed → ∃ u, exec (.stackEngineFault k detail) s = .next (kick u) ∧
      down false 4 u ∧ failed 5 (pgStk k) (detail % 65536) u) ∧
    (k < 8 → tabGet extDefault s.exts (64 * k) = .failed → ∃ u, exec (.stackEngineFault k detail) s = .next (kick u) ∧
      failed 5 (pgStk k) (detail % 65536) u ∧ u.exts = s.exts ∧ u.flights = s.flights) ∧
    (8 ≤ k → exec (.stackEngineFault k detail) s = .next (kick s) ∧ exec (.stackLinkRetrainEnd k ok) s = .next (kick s)) ∧
    exec (.stackLinkRetrainEnd k false) s = exec (.stackEngineFault k 3) s ∧
    (k < 8 → ∃ u, exec (.stackLinkRetrainEnd k true) s = .next (kick u) ∧
      CountsUp pgRas Fld.RAS_RECOV 1 s u ∧ Only [.regs .ras, .regs .evr, .evr, .freeCtr] s u) ∧
    (k < 16 → rg s pgYrd (fldWayMode k) = 2 → ∃ u, exec (.yardScratchError k fid) s = .next (kick u) ∧ failed 2 pgYrd 0 u ∧
      hit (rg s pgYrd (fldWayOwner k)) 5 u ∧ (rg s pgYrd (fldWayOwner k) = 0 → rg u pgYrd (fldWayMode k) = 0 ∧
        k ∈ u.yard.zeroising)) ∧
    (16 ≤ k ∨ rg s pgYrd (fldWayMode k) ≠ 2 → exec (.yardScratchError k fid) s = .next (kick s)) ∧
    (blockOfCode blk = none → exec (.sharedUnitError cause blk k detail fid t) s = .next s) ∧
    (∀ b, blockOfCode blk = some b →
      let g : Page := ⟨b, k⟩
      (sharedPage cause g = false → exec (.sharedUnitError cause blk k detail fid t) s = .next (kick s)) ∧
      (sharedPage cause g = true → ∃ u, exec (.sharedUnitError cause blk k detail fid t) s = .next (kick u) ∧
        rg u g Fld.PAGE_ERR_ERR = 1 ∧ (cause ≠ 0 → rg s pgRas Fld.RAS_DEV_STAT_CAUSE = 0 →
          rg u pgRas Fld.RAS_DEV_STAT_FAILED = 1 ∧ rg u pgRas Fld.RAS_DEV_STAT_CAUSE = cause) ∧ (cause = 9 →
            u.sec.failed = true) ∧
        (∀ x, t = some x → cause = 7 → b = .tok → x < 8192 → (tok u x).poisoned = true) ∧
        (∀ x f, fid = some x → flightOf s x = some f → f.result = none → (∀ y, y ∈ s.col.ctxs → y.fid ≠ x) →
          ∃ h, flightOf u x = some h ∧ h.result = some 0x70) ∧
        (fid = none → b = .kvs → (kv u k).waiting = none ∧ ((kv s k).waiting.isSome → rg u g Fld.KVS_CMD_STAT_CODE = 0x70)) ∧
        (fid = none → b = .scn → (sc u k).waiting = none ∧ ((sc s k).waiting.isSome → rg u g Fld.SCN_CMD_STAT_CODE = 0x70)) ∧
        (fid = none → b = .dsp → (qu u k).held = true) ∧ (fid = none → b = .tok → u.bus = (0x70, 0)))) ∧
    (k < 8 → NextIs (exec (.hopStallFailure k parts fids) s) fun u => failed 6 pgRas (0x0300 + k) u ∧
      ∀ p, p < 16 → bit p parts = true → partState s p ≠ .none → hit p 6 u) ∧
    (8 ≤ k → exec (.hopStallFailure k parts fids) s = .next s)

/-- Only partition 0 commands partitions and extents; a command on a busy page sets IGNORED, one that the partition's state does
not accept, and one on partition 0, gives FORMAT and changes no state. CREATE and RESTART make a partition ACTIVE with reset
pages and new keys, RESTART with its memory zero and its tokens passed anew; DESTROY leaves nothing with it and its PRT and
COL pages at their reset values; SUSPEND lets it come to the quiet point, the save puts live scratch into the save area,
records the ways and makes it SUSPENDED without arrays and ways; RESUME returns the ways, or gives CAPACITY where one is
taken; the restore brings the scratch back and makes it ACTIVE. Save and restore wait for held memory, and their result is
the first code that a copy meets. ASSIGN, UNASSIGN and LEND change the extents they name, all of them or none, and their
operation ends once no extent is being filled; an extent filled with zero is ASSIGNED. An empty array has left its
partition. It rests on readings or choices of the model: log entries 79, 80, 81, 83, 85, 89 and 124. -/
def Obligations.PartitionsAreMadeSwitchedAndEnded : Prop :=
  ∀ (part p fails cycles e n : Nat) (s : State), Ready s → Canonical s →
    let g := pgPrt p
    let x := partState s p
    let busy := rg s g Fld.PRT_CMD_STAT_BUSY = 1
    let cmds := [Instr.prtCreate part p fails, .prtDestroy part p, .prtSuspend part p, .prtResume part p,
      .prtRestart part p fails]
    let quits (code : Nat) (u : State) : Prop := rg u g Fld.PRT_CMD_STAT_CODE = code ∧ rg u g Fld.PRT_CMD_STAT_BUSY = 0
    let ended (code : Nat) (u : State) : Prop := u.bus = (0, 0) ∧ quits code u
    let cleared (l : List Page) (u : State) : Prop := ∀ h, h ∈ l → ∀ d, d ∈ pageFields h → d.fld ∉ keptFields h →
      rg u h d.fld = fldGet d.fld (resetWord (regKey h d.fld.off))
    let fresh (u : State) : Prop := partState u p = .active ∧ (secOf u p).pka = (drbgKey (seedDrbg fails s)).1 ∧
      (secOf u p).curSet = (newKeySet (drbgKey (seedDrbg fails s)).2).1 ∧ (secOf u p).oldSet = keySetZero ∧ (secOf u p).cur = 0 ∧
      (secOf u p).sweeping = false ∧ (secOf u p).meas = [] ∧ kv u p = kvsDefault p ∧ sc u p = scnDefault p ∧
        qu u p = queueDefault p ∧
      cleared [pgDsp p, pgKvs p, pgScn p, pgCol p, pgMemP p] u
    let passed (t owner : Nat) (u : State) : Prop := tok u t = ⟨0, ((tok s t).gen + 1) % 4096, owner, false⟩
    let way (k mode owner : Nat) (u : State) : Prop := rg u pgYrd (fldWayMode k) = mode ∧ rg u pgYrd (fldWayOwner k) = owner
    let first := rg s g Fld.PRT_SUSP_SCR_FIRST
    let count := rg s g Fld.PRT_SUSP_SCR_COUNT
    let zeros (b : Nat) (u : State) : Prop := ∀ a, a / 2 ^ 30 = b → rd1 u a = 0
    (part ≠ 0 ∨ 16 ≤ p → ∀ c, c ∈ cmds → exec c s = .next { s with bus := (0x20, 0) }) ∧
    (part = 0 → p < 16 → busy → ∀ c, c ∈ cmds → NextIs (exec c s) fun u => u.bus = (0, 0) ∧ Only [.regs .prt, .bus] s u ∧
      OnlyFields [(g, Fld.PRT_CMD_STAT_IGNORED)] s u ∧ rg u g Fld.PRT_CMD_STAT_IGNORED = 1) ∧
    (part = 0 → p < 16 → ¬busy →
      let bad (u : State) : Prop := u.bus = (0, 0) ∧ Only [.regs .prt, .bus] s u ∧ OnlyFields [(g, Fld.PRT_CMD_STAT_CODE)] s u ∧
        rg u g Fld.PRT_CMD_STAT_CODE = 0x13
      let keyless (u : State) : Prop := ended 0x70 u ∧ u.parts = s.parts ∧ u.sec.failed = true
      (p = 0 ∨ x ≠ .none → NextIs (exec (.prtCreate part p fails) s) bad) ∧
      (p = 0 ∨ (x ≠ .active ∧ x ≠ .suspended ∧ x ≠ .torn) → NextIs (exec (.prtDestroy part p) s) bad) ∧
      (p = 0 ∨ x ≠ .active → NextIs (exec (.prtSuspend part p) s) bad) ∧
      (p = 0 ∨ x ≠ .suspended → NextIs (exec (.prtResume part p) s) bad) ∧
      (p = 0 ∨ x ≠ .torn → NextIs (exec (.prtRestart part p fails) s) bad) ∧
      (p ≠ 0 → x = .none → s.sec.failed = true ∨ 16 ≤ fails → NextIs (exec (.prtCreate part p fails) s) keyless) ∧
      (p ≠ 0 → x = .none → s.sec.failed = false → fails < 16 → NextIs (exec (.prtCreate part p fails) s) fun u => ended 0 u ∧
        fresh u) ∧
      (p ≠ 0 → x = .torn → s.sec.failed = true ∨ 16 ≤ fails → NextIs (exec (.prtRestart part p fails) s) keyless) ∧
      (p ≠ 0 → x = .torn → s.sec.failed = false → fails < 16 → NextIs (exec (.prtRestart part p fails) s) fun u => ended 0 u ∧
        fresh u ∧ (∀ b, tabGet extDefault s.exts b = .assigned p → zeros b u) ∧
        (∀ k, k < 160 → fenced s k = true → rg u g (arrBit Fld.PRT_ARR k) = 0) ∧
        ∀ i, i < rg s g Fld.PRT_TOK_COUNT → passed (rg s g Fld.PRT_TOK_FIRST + i) p u) ∧
      (p ≠ 0 → x = .active ∨ x = .suspended ∨ x = .torn → NextIs (exec (.prtDestroy part p) s) fun u => ended 0 u ∧
        partState u p = .none ∧ cleared [g, pgCol p] u ∧ (x ≠ .torn → ∀ f, f ∈ u.flights → f.q ≠ p) ∧
        (∀ b, tabGet extDefault s.exts b = .assigned p ∨ tabGet extDefault s.exts b = .zeroing p →
          tabGet extDefault u.exts b = .unassigned) ∧
        (∀ k, k < 16 → rg s pgYrd (fldWayMode k) ≠ 0 → rg s pgYrd (fldWayOwner k) = p → way k 0 0 u) ∧
        (∀ t, (tok s t).owner = p → passed t 0 u) ∧ (∀ t, (tok s t).owner ≠ p → tok u t = tok s t) ∧
        (∀ c, c < 64 → rg s (pgCh c) Fld.HIF_CH_CFG_PART = p → rg u (pgCh c) Fld.HIF_CH_CFG_ENABLE = 0 ∧ sessOf u c = none) ∧
        (secOf u p).curSet = keySetZero ∧ (secOf u p).oldSet = keySetZero) ∧
      (p ≠ 0 → x = .active → NextIs (exec (.prtSuspend part p) s) fun u => u.bus = (0, 0) ∧ Only [.regs .prt, .parts, .bus] s u ∧
        OnlyFields [(g, Fld.PRT_CMD_STAT_BUSY)] s u ∧ rg u g Fld.PRT_CMD_STAT_BUSY = 1 ∧ prt u p = { prt s p with
          state := .suspending
          quiet := false } ∧ ∀ q, q ≠ p → prt u q = prt s q) ∧
      (p ≠ 0 → x = .suspended → first + count ≤ 16 →
        ((∃ k, first ≤ k ∧ k < first + count ∧ rg s pgYrd (fldWayMode k) ≠ 0) → NextIs (exec (.prtResume part p) s) fun u =>
          ended 0x11 u ∧ u.parts = s.parts) ∧
        ((∀ k, first ≤ k → k < first + count → rg s pgYrd (fldWayMode k) = 0) → NextIs (exec (.prtResume part p) s) fun u =>
          u.bus = (0, 0) ∧ rg u g Fld.PRT_CMD_STAT_BUSY = 1 ∧ partState u p = .resuming ∧
          (∀ k, first ≤ k → k < first + count → way k 2 p u) ∧
          ∀ k, k < 16 → (k < first ∨ first + count ≤ k) → bit k (rg s g Fld.PRT_SUSP_CACHE) = true →
            rg s pgYrd (fldWayMode k) = 0 → way k 1 p u))) ∧
    (x = .suspending → (prt s p).quiet = false → (∀ f, f ∈ s.flights → f.q = p → preemptible f = true) →
      NextIs (exec (.quietPoint p) s) fun u => prt u p = { prt s p with quiet := true } ∧ ∀ q, q ≠ p → prt u q = prt s q) ∧
    (x ≠ .suspending ∨ (prt s p).quiet = true ∨ (∃ f, f ∈ s.flights ∧ f.q = p ∧ preemptible f = false) →
      exec (.quietPoint p) s = .next s) ∧
    (let w := scratchOf s p
    let l := savePieces s p w.1 w.2
    let ws := l.map fun y => (y.2.1, rdBytes s y.1 y.2.2)
    let copied := switchCopy p l s
    (x = .suspending → (prt s p).quiet = true → switchHeld s p l = false → p < 16 →
      NextIs (exec (.saveComplete p cycles) s) fun u => quits (copied.2.getD 0) u ∧ prt u p = ⟨.suspended, true, []⟩ ∧
        CountsUp g Fld.PRT_SUSPENDS 1 s u ∧ rg u g Fld.PRT_SUSP_SCR_FIRST = w.1 % 16 ∧ rg u g Fld.PRT_SUSP_SCR_COUNT = w.2 % 32 ∧
        (∀ k, k < 160 → rg u g (arrBit Fld.PRT_ARR k) = 0) ∧ (∀ k, k < 16 → rg u pgYrd (fldWayMode k) ≠ 0 →
          rg u pgYrd (fldWayOwner k) ≠ p) ∧ (sc u p).slots = [] ∧
        ((sc s p).slots = [] → copied.2 = none → ∀ a, a < 2 ^ 41 → rd1 u a = (writtenAt ws a).getD (rd1 s a))) ∧
    (x ≠ .suspending ∨ (prt s p).quiet = false ∨ switchHeld s p l = true → exec (.saveComplete p cycles) s = .next s)) ∧
    (let l := (savePieces s p first count).map fun y => (y.2.1, y.1, y.2.2)
    let copied := switchCopy p l s
    (x = .resuming → switchHeld s p l = false → p < 16 → NextIs (exec (.restoreComplete p) s) fun u =>
      quits (copied.2.getD 0) u ∧ partState u p = .active ∧
      (copied.2 = none → MemHolds (l.map fun y => (y.2.1, rdBytes s y.1 y.2.2)) s u)) ∧
    (x ≠ .resuming ∨ switchHeld s p l = true → exec (.restoreComplete p) s = .next s)) ∧
    (let d := pgPrtDev
    let es := (List.range (rg s d Fld.PRT_EXT_ARG_COUNT)).map fun i => rg s d Fld.PRT_EXT_ARG_FIRST + i
    let ops := [(1, Instr.assign part p), (2, .unassign part), (3, .lend part)]
    let filling (u : State) : Prop := ∃ b q, tabGet extDefault u.exts b = .zeroing q
    let settled (u : State) : Prop := (filling u → rg u d Fld.PRT_EXT_STAT_BUSY = 1) ∧
      (¬filling u → rg u d Fld.PRT_EXT_STAT_BUSY = 0 ∧ rg u d Fld.PRT_EXT_STAT_CODE = 0)
    (part ≠ 0 → ∀ o, o ∈ ops → exec o.2 s = .next { s with bus := (0x20, 0) }) ∧
    (part = 0 → rg s d Fld.PRT_EXT_STAT_BUSY = 1 → ∀ o, o ∈ ops → NextIs (exec o.2 s) fun u => u.bus = (0, 0) ∧
      Only [.regs .prt, .bus] s u ∧ OnlyFields [(d, Fld.PRT_EXT_STAT_IGNORED)] s u ∧ rg u d Fld.PRT_EXT_STAT_IGNORED = 1) ∧
    (part = 0 → rg s d Fld.PRT_EXT_STAT_BUSY = 0 → ∀ o, o ∈ ops →
      let code := if (o.1 = 1 ∧ x = .none) ∨ (∃ b, b ∈ es ∧ isExtent b = true ∧ extAllows s o.1 b = false) then 0x13
        else if ∃ b, b ∈ es ∧ isExtent b = false then 0x11 else if es = [] then 0x01 else 0
      (code ≠ 0 → NextIs (exec o.2 s) fun u => u.bus = (0, 0) ∧ Only [.regs .prt, .bus] s u ∧
        OnlyFields [(d, Fld.PRT_EXT_STAT_CODE)] s u ∧ rg u d Fld.PRT_EXT_STAT_CODE = code) ∧
      (code = 0 → NextIs (exec o.2 s) fun u => u.bus = (0, 0) ∧ u.mem = s.mem ∧ settled u ∧
        (∀ b, b ∈ es → tabGet extDefault u.exts b = if o.1 = 1 then .zeroing p else if o.1 = 2 then .unassigned else .lendable) ∧
        ∀ b, b ∉ es → tabGet extDefault u.exts b = tabGet extDefault s.exts b)) ∧
    (∀ q, tabGet extDefault s.exts e = .zeroing q → NextIs (exec (.extentZeroed e) s) fun u => zeros e u ∧
      (∀ a, a / 2 ^ 30 ≠ e → rd1 u a = rd1 s a) ∧ tabGet extDefault u.exts e = .assigned q ∧
      (∀ b, b ≠ e → tabGet extDefault u.exts b = tabGet extDefault s.exts b) ∧ (rg s d Fld.PRT_EXT_STAT_BUSY = 1 → settled u)) ∧
    ((∀ q, tabGet extDefault s.exts e ≠ .zeroing q) → exec (.extentZeroed e) s = .next s)) ∧
    (arrEmpty (arr s n) = true → NextIs (exec (.arrayLeaveDone n) s) fun u => Only [.parts] s u ∧ ∀ q m, q < 16 →
      leaving u q m = (leaving s q m && decide (m ≠ n))) ∧
    (arrEmpty (arr s n) = false → exec (.arrayLeaveDone n) s = .next s)

/-- A command on a busy page sets IGNORED; once the block has failed each ends with HW_FAULT. ROTATE makes the next epoch's key
set and starts a sweep, and ends with ROTATE_BUSY during one. The others end with the first code that applies: the partition
torn down, the command block not owned, then the checks of their own fields and ranges. ATTEST_P writes a signed report with
the device's chain; MEASURE appends the digest of a range to the log; BIND stores a weight bundle's plaintext and appends to
the log, or stores zeros where the body fails its tag; JOBKEY_LOAD fills an empty slot, JOBKEY_CLEAR empties one and keeps
its counter. ATTEST_D is partition 0's and reports on the device. A sweep re-tags each block of the old epoch under the new
one and leaves one that fails its check as it is; its end zeroises the old key set. It rests on readings or choices of the
model: log entries 8, 64, 73, 74, 75, 76, 108, 115 and 130. -/
def Obligations.SecurityCommands : Prop :=
  ∀ (q m : Nat) (s : State), Ready s → q < 16 → lostCode s s.nextFid = none →
    (∀ j, j ∈ s.secJobs → j.fid ≠ s.nextFid) → (∀ c, c ∈ s.accs → c.fid ≠ s.nextFid) →
    let pg := pgSec q
    let c := secOf s q
    let rotate := Instr.rotate q
    let attest := Instr.attestP q
    let measure := Instr.measure q
    let bind := Instr.bind q
    let load := Instr.jobkeyLoad q
    let clear := Instr.jobkeyClear q
    let blocks := [attest, measure, bind, load, clear]
    let busy := rg s pg Fld.SEC_CMD_STAT_BUSY = 1
    let torn := partState s q = .torn
    let done (code : Nat) (u : State) : Prop := u.bus = (0, 0) ∧ rg u pg Fld.SEC_CMD_STAT_CODE = code ∧
      rg u pg Fld.SEC_CMD_STAT_BUSY = 0
    let only (code : Nat) (u : State) : Prop := done code u ∧ u.mem = s.mem ∧ u.secs = s.secs
    let leaves (x : SecPart) (u : State) : Prop := done 0 u ∧ u.mem = s.mem ∧ secOf u q = x
    let a := secAddr s q
    let b := rdBytes s a 64
    let has (x n : Nat) : Bool := secOwns s q x n
    let reads (x n : Nat) : Prop := (∀ f, heldFor s f x n = false) ∧ (memRead .beside q x n s).2 = none
    let takes (x : Nat) (bs : List Byte) : Prop := (∀ e, e ∈ piecesOf x bs.length → ownTier e = true) ∧
      (memWrite .beside q s.nextFid x bs s).2 = none
    let signed (body : List Byte) : List Byte :=
      body ++ (signBy s.sec.sak body s).1 ++ s.sec.chain
    let reports (out : Nat) (report : List Byte) (u : State) : Prop := MemHolds [(out, report)] s u ∧ u.secs = s.secs ∧
      u.sec.reportSeq = (s.sec.reportSeq + 1) % 2 ^ 32
    (busy → ∀ i, i ∈ rotate :: blocks → NextIs (exec i s) fun u => u.bus = (0, 0) ∧ Only [.regs .sec, .bus] s u ∧
      OnlyFields [(pg, Fld.SEC_CMD_STAT_IGNORED)] s u ∧ rg u pg Fld.SEC_CMD_STAT_IGNORED = 1) ∧
    (¬busy → s.sec.failed = true → ∀ i, i ∈ rotate :: blocks → NextIs (exec i s) (only 0x70)) ∧
    (¬busy → s.sec.failed = false →
      (c.sweeping = true → NextIs (exec rotate s) (only 0x60)) ∧
      (c.sweeping = false → NextIs (exec rotate s) fun u => CountsUp pg Fld.SEC_ROTATIONS 1 s u ∧ leaves { c with
        old := c.cur
        cur := (c.cur + 1) % 4
        sweeping := true
        oldSet := c.curSet
        curSet := (newKeySet s).1
        sweep := sweepList (extentsOf s q) } u) ∧
      (torn → ∀ i, i ∈ blocks → NextIs (exec i s) (only 0x71)) ∧
      (¬torn → has a 64 = false → ∀ i, i ∈ blocks → NextIs (exec i s) (only 0x20)) ∧
      (¬torn → has a 64 = true → reads a 64 →
        (let out := bF b 32 8
        let code := if has out 3232 = false then 0x20 else if bF b 40 24 ≠ 0 then 0x13 else if out % 32 ≠ 0 then 0x12 else 0
        let report := signed (reportHead s 2 (672 + 64 * c.meas.length) ++ reportP s q (b.take 32))
        (code ≠ 0 → NextIs (exec attest s) (only code)) ∧
        (code = 0 → takes out report → NextIs (exec attest s) fun u => done 0 u ∧ reports out report u)) ∧
        (let x := bF b 0 8
        let n := bF b 8 8
        let code := if has x n = false then 0x20 else if bF b 16 48 ≠ 0 then 0x13 else if x % 32 ≠ 0 then 0x12
          else if 2 ^ 32 < n ∨ 32 ≤ c.meas.length then 0x11 else if n = 0 then 0x01 else 0
        (code ≠ 0 → NextIs (exec measure s) (only code)) ∧
        (code = 0 → reads x n → NextIs (exec measure s) (leaves { c with
          meas := c.meas ++ [measEntry 1 (toLE 8 n) (sha384 (rdBytes s x n))] }))) ∧
        (let h := bF b 0 8
        let l := bF b 8 8
        let hdr := rdBytes s h 200
        let blob := rdBytes s l 200
        let n := bF hdr 8 8
        let hl := 200 + 48 * bF hdr 2 2
        let all := rdBytes s h hl
        let src := bF b 16 8
        let dst := bF b 24 8
        let owned := has h 200 = true ∧ has l 200 = true
        let step1 := bindCheck s q b hdr blob
        let pub := rdBytes s (h + 48) 97
        let key := blobKey s q blob
        let later := if s.sec.debugOpen then 0x61 else if ecVerify pub all (rdBytes s (h + hl) 96) = false then 0x23
          else if listed all (identityDig s) = false ∨ rdBytes s (l + 104) 48 ≠ sha384 all ∨ key = none then 0x61 else 0
        (¬owned → NextIs (exec bind s) (only 0x20)) ∧
        (owned → reads h 200 → reads l 200 → step1 ≠ 0 → NextIs (exec bind s) (only step1)) ∧
        (owned → reads h 200 → reads l 200 → step1 = 0 → reads h (hl + 96) → reads src n →
          (later ≠ 0 → NextIs (exec bind s) (only later)) ∧
          ∀ k, later = 0 → key = some k →
            let plain := gcmOpen k (rdBytes s (h + 16) 12) (sha384 all) (rdBytes s src n) (rdBytes s (h + 32) 16)
            (plain = none → takes dst (List.replicate n 0) → NextIs (exec bind s) fun u => done 0x21 u ∧
              MemHolds [(dst, List.replicate n 0)] s u ∧ u.secs = s.secs) ∧
            ∀ bs, plain = some bs → takes dst bs → NextIs (exec bind s) fun u => done 0 u ∧ MemHolds [(dst, bs)] s u ∧
              ∃ mid : List Byte, mid.length = 8 ∧ secOf u q = { c with meas := c.meas ++ [measEntry 2 mid (sha384 all)] })) ∧
        (let k := bF b 0 1
        let id := bF b 4 4
        let x := bF b 8 8
        let blob := rdBytes s x 152
        let j := c.slots.getD k ⟨0, keyZero, 0⟩
        let early := if has x 152 = false then 0x20 else if bF b 1 3 ≠ 0 ∨ bF b 16 48 ≠ 0 ∨ 8 ≤ k then 0x13
          else if x % 32 ≠ 0 then 0x12 else 0
        let later := if id = 0 ∨ bF blob 97 4 ≠ id ∨ (slotOfKey s id).isSome ∨ bF blob 101 3 ≠ 0 then 0x13
          else if (jobSlot s q k).isSome then 0x11 else if jobBlobKey s q blob = none ∨ s.sec.debugOpen = true then 0x23 else 0
        (early ≠ 0 → NextIs (exec load s) (only early)) ∧
        (early = 0 → reads x 152 → later ≠ 0 → NextIs (exec load s) (only later)) ∧
        (∀ w, early = 0 → reads x 152 → later = 0 → jobBlobKey s q blob = some w →
          NextIs (exec load s) (leaves { c with slots := c.slots.set k { j with
            keyid := id
            key := w } })) ∧
        (8 ≤ k ∨ bF b 1 63 ≠ 0 → NextIs (exec clear s) (only 0x13)) ∧
        (k < 8 → bF b 1 63 = 0 → NextIs (exec clear s) (leaves { c with slots := c.slots.set k { j with
          keyid := 0
          key := keyZero } }))))) ∧
    (let d := pgSecDev
    let out := rg s d Fld.SEC_DEV_ADDR_HI * 2 ^ 32 + rg s d Fld.SEC_DEV_ADDR_LO * 32
    let report := signed (reportHead s 1 528)
    let ends (code : Nat) (u : State) : Prop := u.bus = (0, 0) ∧ rg u d Fld.SEC_DEV_CMD_STAT_CODE = code ∧
      rg u d Fld.SEC_DEV_CMD_STAT_BUSY = 0
    (q ≠ 0 → exec (.attestD q) s = .next { s with bus := (0x20, 0) }) ∧
    (q = 0 → rg s d Fld.SEC_DEV_CMD_STAT_BUSY = 1 → NextIs (exec (.attestD q) s) fun u => u.bus = (0, 0) ∧
      Only [.regs .sec, .bus] s u ∧ OnlyFields [(d, Fld.SEC_DEV_CMD_STAT_IGNORED)] s u ∧
      rg u d Fld.SEC_DEV_CMD_STAT_IGNORED = 1) ∧
    (q = 0 → rg s d Fld.SEC_DEV_CMD_STAT_BUSY = 0 →
      (s.sec.failed = true → NextIs (exec (.attestD q) s) fun u => ends 0x70 u ∧ u.mem = s.mem) ∧
      (s.sec.failed = false → has out 1040 = false → NextIs (exec (.attestD q) s) fun u => ends 0x20 u ∧ u.mem = s.mem) ∧
      (s.sec.failed = false → has out 1040 = true → takes out report → NextIs (exec (.attestD q) s) fun u =>
        ends 0 u ∧ reports out report u))) ∧
    (let moves (u : State) : Prop := secOf u q = { c with sweep := sweepNext m c.sweep } ∧ u.mem = s.mem
    (∀ m' e r n, (c.sweep.find? fun x => x.1 == m) = some (m', e :: r, n) →
      let blk := e * 2 ^ 21 + n
      let k := blkMeta s blk
      let bad := k.bad = true ∨ pathBad s blk = true ∨ c.oldSet = keySetZero
      (heldRange s (blk * 512) 512 = true → exec (.sweepBlock q m) s = .next s) ∧
      (heldRange s (blk * 512) 512 = false →
        (k.epoch ≠ c.old → NextIs (exec (.sweepBlock q m) s) fun u => moves u ∧ Only [.secs] s u) ∧
        (k.epoch = c.old → bad → NextIs (exec (.sweepBlock q m) s) fun u => moves u ∧ u.mce = s.mce ∧
          CountsUp pg Fld.SEC_INTEG_FAIL 1 s u ∧ CountsUp (pgMce (mceOf blk)) Fld.MCE_INTEG_FAIL 1 s u ∧
          rg u (pgMce (mceOf blk)) Fld.PAGE_ERR_ERR = 1 ∧ rg u pg Fld.PAGE_ERR_ERR = 1) ∧
        (k.epoch = c.old → ¬bad → c.cur < 4 → NextIs (exec (.sweepBlock q m) s) fun u => moves u ∧
          blkMeta u blk = ⟨c.cur, false⟩ ∧ (∀ y, y ≠ blk → blkMeta u y = blkMeta s y) ∧
          CountsUp (pgMce (mceOf blk)) Fld.MCE_SWEPT 1 s u))) ∧
    ((∀ x, x ∈ c.sweep → x.1 ≠ m) → exec (.sweepBlock q m) s = .next s)) ∧
    (c.sweeping = true → c.sweep = [] → NextIs (exec (.sweepEnd q) s) fun u => Only [.secs] s u ∧ secOf u q = { c with
      sweeping := false
      oldSet := keySetZero }) ∧
    (c.sweeping = false ∨ c.sweep ≠ [] → exec (.sweepEnd q) s = .next s)
end

