-- ==== Sys2Proof/Laws/Tab.lean ====
section
/-!
SUPPORT. Sparse tables: what a table reads as after a write, and that every table operation keeps the canonical form.
-/
namespace Sys2Proof

variable {α : Type}

/-! ### Reading after a write -/

theorem tabGet_tabErase (d : Nat → α) (t : Tab α) (k j : Nat) :
    tabGet d (tabErase t k) j = if j = k then d k else tabGet d t j := by
  induction t with
  | nil => by_cases h : j = k <;> simp [tabErase, tabGet, h]
  | cons e r ih =>
    obtain ⟨a, v⟩ := e
    simp only [tabErase]
    by_cases hak : a = k
    · rw [if_pos hak, ih]
      by_cases h : j = k
      · simp [h]
      · have : a ≠ j := fun e => h (e ▸ hak)
        simp [h, tabGet, this]
    · rw [if_neg hak]
      simp only [tabGet, ih]
      by_cases haj : a = j
      · have : j ≠ k := fun e => hak (haj.trans e)
        simp [haj, this]
      · simp [haj]

theorem tabErase_absent (t : Tab α) (k : Nat) : ∀ e ∈ tabErase t k, e.1 ≠ k := by
  induction t with
  | nil => simp [tabErase]
  | cons e r ih =>
    obtain ⟨a, v⟩ := e
    simp only [tabErase]
    split
    · exact ih
    · rename_i h
      intro x hx
      rcases List.mem_cons.mp hx with rfl | hx
      · exact h
      · exact ih x hx

theorem tabGet_tabInsert (d : Nat → α) (t : Tab α) (k j : Nat) (v : α) (hk : ∀ e ∈ t, e.1 ≠ k) :
    tabGet d (tabInsert k v t) j = if j = k then v else tabGet d t j := by
  induction t with
  | nil =>
    by_cases h : j = k
    · simp [tabInsert, tabGet, h]
    · simp [tabInsert, tabGet, h, Ne.symm h]
  | cons e r ih =>
    obtain ⟨a, w⟩ := e
    have ha : a ≠ k := hk _ List.mem_cons_self
    have ih := ih fun e he => hk e (List.mem_cons_of_mem _ he)
    simp only [tabInsert]
    split
    · by_cases h : j = k
      · simp [tabGet, h]
      · simp [tabGet, h, Ne.symm h]
    · simp only [tabGet, ih]
      by_cases haj : a = j
      · subst haj
        simp [ha]
      · simp [haj]

/-- A table reads at every key as before, but at the key written. -/
theorem tabGet_tabSet [DecidableEq α] (d : Nat → α) (t : Tab α) (k j : Nat) (v : α) :
    tabGet d (tabSet d t k v) j = if j = k then v else tabGet d t j := by
  unfold tabSet
  split
  · rename_i h
    rw [tabGet_tabErase, h]
  · rw [tabGet_tabInsert d _ k j v (tabErase_absent t k), tabGet_tabErase]
    by_cases h : j = k <;> simp [h]

@[simp] theorem tabGet_tabSet_same [DecidableEq α] (d : Nat → α) (t : Tab α) (k : Nat) (v : α) :
    tabGet d (tabSet d t k v) k = v := by simp [tabGet_tabSet]

theorem tabGet_tabSet_other [DecidableEq α] (d : Nat → α) (t : Tab α) (k j : Nat) (v : α) (h : j ≠ k) :
    tabGet d (tabSet d t k v) j = tabGet d t j := by simp [tabGet_tabSet, h]

/-! ### The canonical form -/

theorem tabWfFrom_weaken [DecidableEq α] (d : Nat → α) (t : Tab α) (lo lo' : Nat) (h : lo ≤ lo')
    (hw : tabWfFrom d (some lo') t = true) : tabWfFrom d (some lo) t = true := by
  cases t with
  | nil => rfl
  | cons e r =>
    simp only [tabWfFrom, Bool.and_eq_true, decide_eq_true_eq] at hw ⊢
    exact ⟨⟨Nat.lt_of_le_of_lt h hw.1.1, hw.1.2⟩, hw.2⟩

theorem tabWfFrom_none [DecidableEq α] (d : Nat → α) (t : Tab α) (lo : Nat)
    (hw : tabWfFrom d (some lo) t = true) : tabWfFrom d none t = true := by
  cases t with
  | nil => rfl
  | cons e r =>
    simp only [tabWfFrom, Bool.and_eq_true, decide_eq_true_eq, Bool.true_and] at hw ⊢
    exact ⟨hw.1.2, hw.2⟩

theorem tabWfFrom_filter [DecidableEq α] (d : Nat → α) (t : Tab α) (lo : Option Nat) (p : Nat × α → Bool)
    (hw : tabWfFrom d lo t = true) : tabWfFrom d lo (t.filter p) = true := by
  induction t generalizing lo with
  | nil => simp [tabWfFrom]
  | cons e r ih =>
    obtain ⟨a, v⟩ := e
    simp only [tabWfFrom, Bool.and_eq_true] at hw
    rw [List.filter_cons]
    split
    · simp only [tabWfFrom, Bool.and_eq_true]
      exact ⟨hw.1, ih _ hw.2⟩
    · cases lo with
      | none => exact tabWfFrom_none d _ a (ih _ hw.2)
      | some l =>
        have : l < a := by simpa using hw.1.1
        exact tabWfFrom_weaken d _ l a (Nat.le_of_lt this) (ih _ hw.2)

theorem tabWf_filter [DecidableEq α] (d : Nat → α) (t : Tab α) (p : Nat × α → Bool) (hw : tabWf d t = true) :
    tabWf d (t.filter p) = true := tabWfFrom_filter d t none p hw

theorem tabErase_eq_filter (t : Tab α) (k : Nat) : tabErase t k = t.filter fun e => decide (e.1 ≠ k) := by
  induction t with
  | nil => rfl
  | cons e r ih =>
    obtain ⟨a, v⟩ := e
    by_cases h : a = k <;> simp [tabErase, h, ih]

theorem tabWf_tabErase [DecidableEq α] (d : Nat → α) (t : Tab α) (k : Nat) (hw : tabWf d t = true) :
    tabWf d (tabErase t k) = true := by
  rw [tabErase_eq_filter]
  exact tabWf_filter d t _ hw

theorem tabWfFrom_tabInsert [DecidableEq α] (d : Nat → α) (t : Tab α) (lo : Option Nat) (k : Nat) (v : α) (hv : v ≠ d k)
    (hk : ∀ e ∈ t, e.1 ≠ k) (hlo : ∀ l, lo = some l → l < k) (hw : tabWfFrom d lo t = true) :
    tabWfFrom d lo (tabInsert k v t) = true := by
  induction t generalizing lo with
  | nil =>
    simp only [tabInsert, tabWfFrom, Bool.and_eq_true, decide_eq_true_eq, and_true]
    refine ⟨?_, hv⟩
    cases lo with
    | none => rfl
    | some l => simpa using hlo l rfl
  | cons e r ih =>
    obtain ⟨a, w⟩ := e
    simp only [tabWfFrom, Bool.and_eq_true] at hw
    have ha : a ≠ k := hk _ List.mem_cons_self
    simp only [tabInsert]
    split
    · rename_i hlt
      simp only [tabWfFrom, Bool.and_eq_true, decide_eq_true_eq]
      refine ⟨⟨?_, hv⟩, ⟨hlt, by simpa using hw.1.2⟩, hw.2⟩
      cases lo with
      | none => rfl
      | some l => simpa using hlo l rfl
    · rename_i hge
      simp only [tabWfFrom, Bool.and_eq_true]
      refine ⟨hw.1, ih (some a) (fun e he => hk e (List.mem_cons_of_mem _ he)) ?_ hw.2⟩
      intro l hl
      cases hl
      omega

theorem tabWf_tabSet [DecidableEq α] (d : Nat → α) (t : Tab α) (k : Nat) (v : α) (hw : tabWf d t = true) :
    tabWf d (tabSet d t k v) = true := by
  unfold tabSet
  split
  · exact tabWf_tabErase d t k hw
  · rename_i h
    exact tabWfFrom_tabInsert d _ none k v h (tabErase_absent t k) (by simp) (tabWf_tabErase d t k hw)

@[simp] theorem tabWf_nil [DecidableEq α] (d : Nat → α) : tabWf d ([] : Tab α) = true := rfl

end Sys2Proof
end

