-- ==== Sys2Proof/Laws/Reach.lean ====
section
/-!
SUPPORT. What an operation can change: `Reach L a s` says that `s` differs from `a` in the pieces `L` at most, and is canonical
where `a` is. One lemma per piece says it of an update; every operation of the machine has such a lemma.
-/
namespace Sys2Proof.Machine

set_option linter.unusedTactic false
set_option linter.unreachableTactic false
set_option linter.unusedSimpArgs false

/-- From `a`, only the pieces in `L` have changed, and the tables are canonical if they were. -/
structure Reach (L : List Piece) (a s : State) : Prop where
  frame : ∀ k, k ∉ L → Same k a s
  canon : Canonical a → Canonical s

theorem tabWf_putBytes {d : Nat → Byte} {bs : List Byte} : ∀ {t : Tab Byte} {a : Nat}, tabWf d t = true →
    tabWf d (putBytes d t a bs) = true := by
  induction bs with
  | nil => intro t a h; exact h
  | cons b bs ih => intro t a h; exact ih (tabWf_tabSet d t a b h)

theorem inIssueOrder_filter {p : Flight → Bool} {l : List Flight} {n : Nat} (h : InIssueOrder l n) :
    InIssueOrder (l.filter p) n := ⟨h.1.filter _, fun f hf => h.2 f (List.mem_filter.mp hf).1⟩

theorem updOne_fid (fid : Nat) (g : Flight → Flight) (f : Flight) : (updOne fid g f).fid = f.fid := by
  unfold updOne
  split <;> rfl

/-- What a change of a flight may do to its progress. -/
abbrev Grows (f g : Flight) : Prop := (f.work ≠ .none → g.work ≠ .none) ∧ (f.result ≠ none → g.result ≠ none)

theorem continues_rfl (f : Flight) : Continues f f := ⟨rfl, fun h => h, fun h => h⟩

theorem continues_trans {f g h : Flight} (a : Continues f g) (b : Continues g h) : Continues f h := by
  refine ⟨?_, fun e => b.2.1 (a.2.1 e), fun e => b.2.2 (a.2.2 e)⟩
  have ha := a.1
  have hb := b.1
  cases f
  cases g
  cases h
  simp only [Flight.mk.injEq] at ha hb ⊢
  simp_all

theorem continues_upd {fid : Nat} {g : Flight → Flight} (hg : ∀ f, Grows f (g f)) (f : Flight) :
    Continues f (updOne fid g f) := by
  unfold updOne
  split
  · exact ⟨rfl, hg f⟩
  · exact continues_rfl f

theorem inIssueOrder_upd {fid : Nat} {g : Flight → Flight} {l : List Flight} {n : Nat} (h : InIssueOrder l n) :
    InIssueOrder (l.map (updOne fid g)) n := by
  refine ⟨List.pairwise_map.mpr (h.1.imp fun {x y} hxy => ?_), fun f hf => ?_⟩
  · rw [updOne_fid, updOne_fid]
    exact hxy
  · obtain ⟨x, hx, rfl⟩ := List.mem_map.mp hf
    rw [updOne_fid]
    exact h.2 x hx

theorem inIssueOrder_push {l : List Flight} {n : Nat} {f : Flight} (e : f.fid = n) (h : InIssueOrder l n) :
    InIssueOrder (l ++ [f]) (n + 1) := by
  refine ⟨List.pairwise_append.mpr ⟨h.1, List.pairwise_singleton _ _, fun x hx y hy => ?_⟩, fun x hx => ?_⟩
  · rw [List.mem_singleton.mp hy, e]
    exact h.2 x hx
  · rcases List.mem_append.mp hx with hx | hx
    · exact Nat.lt_succ_of_lt (h.2 x hx)
    · rw [List.mem_singleton.mp hx, e]
      exact Nat.lt_succ_self n

namespace Reach

variable {L M : List Piece} {a s : State}

theorem rfl' : Reach L a a :=
  ⟨fun k _ => by cases k <;> first | rfl | exact fun _ _ => rfl | exact fun f h => ⟨f, h, continues_rfl f⟩, fun h => h⟩

theorem mono (h : Reach L a s) (hs : ∀ k, k ∈ L → k ∈ M) : Reach M a s := ⟨fun k hk => h.1 k fun e => hk (hs k e), h.2⟩

theorem same (h : Reach L a s) (k : Piece) (hk : k ∉ L) : Same k a s := h.1 k hk

theorem ite {c : Prop} [Decidable c] {x y : State} (hx : Reach L a x) (hy : Reach L a y) : Reach L a (if c then x else y) := by
  split
  · exact hx
  · exact hy

theorem wh {c : Bool} {f : State → State} (hf : ∀ t, Reach L a t → Reach L a (f t)) (h : Reach L a s) :
    Reach L a (Machine.wh c f s) := by
  unfold Machine.wh
  split
  · exact hf s h
  · exact h

theorem foldl {α : Type} {f : State → α → State} {l : List α} (hf : ∀ t x, Reach L a t → Reach L a (f t x)) (h : Reach L a s) :
    Reach L a (l.foldl f s) := by
  induction l generalizing s with
  | nil => exact h
  | cons x l ih => exact ih (hf s x h)

theorem flights (h : Reach L a s) (hk : Piece.flights ∈ L) (hd : Piece.descriptors ∈ L) {v}
    (hv : ∀ n, InIssueOrder s.flights n → InIssueOrder v n) : Reach L a { s with flights := v } :=
  ⟨fun k hn => by cases k <;> first | exact absurd hk hn | exact absurd hd hn | exact h.1 _ hn,
    fun hc => let c := h.2 hc; { c with flights := hv _ c.flights }⟩

theorem updFlights (h : Reach L a s) (hk : Piece.flights ∈ L) {fid : Nat} {g : Flight → Flight}
    (hg : ∀ f, Grows f (g f)) : Reach L a { s with flights := s.flights.map (updOne fid g) } := by
  refine ⟨fun k hn => ?_, fun hc => let c := h.2 hc; { c with flights := inIssueOrder_upd c.flights }⟩
  cases k
  case descriptors =>
    intro f hf
    obtain ⟨x, hx, hc⟩ := h.1 _ hn f hf
    exact ⟨_, List.mem_map_of_mem hx, continues_trans hc (continues_upd hg x)⟩
  all_goals first | exact absurd hk hn | exact h.1 _ hn

theorem nextFid (h : Reach L a s) (hk : Piece.nextFid ∈ L) {v} (hv : s.nextFid ≤ v) : Reach L a { s with nextFid := v } :=
  ⟨fun k hn => by cases k <;> first | exact absurd hk hn | exact h.1 _ hn,
    fun hc => let c := h.2 hc; { c with flights := ⟨c.flights.1, fun f hf => Nat.lt_of_lt_of_le (c.flights.2 f hf) hv⟩ }⟩

theorem issueOne (h : Reach L a s) (hk0 : Piece.flights ∈ L) (hk1 : Piece.nextFid ∈ L) {f : Flight} (e : f.fid = s.nextFid) :
    Reach L a { s with flights := s.flights ++ [f], nextFid := s.nextFid + 1 } := by
  refine ⟨fun k hn => ?_, fun hc => let c := h.2 hc; { c with flights := inIssueOrder_push e c.flights }⟩
  cases k
  case descriptors =>
    intro x hx
    obtain ⟨y, hy, hc⟩ := h.1 _ hn x hx
    exact ⟨y, List.mem_append_left _ hy, hc⟩
  all_goals first | exact absurd hk0 hn | exact absurd hk1 hn | exact h.1 _ hn

/-- The number of a register stands in its page's block. -/
theorem regKey_blk (pg : Page) (off : Nat) : regKey pg off / 2 ^ 20 = blockCode pg.blk := by
  unfold regKey
  omega

theorem blockCode_inj : ∀ b c : Block, blockCode b = blockCode c → b = c := by
  intro b c
  cases b <;> cases c <;> decide

theorem tabGet_filter {α : Type} (d : Nat → α) (p : Nat × α → Bool) (k : Nat) (hp : ∀ v, p (k, v) = true) :
    ∀ t : Tab α, tabGet d (t.filter p) k = tabGet d t k
  | [] => rfl
  | (a, v) :: r => by
    by_cases e : p (a, v) = true
    · rw [List.filter_cons_of_pos e]
      unfold tabGet
      split
      · rfl
      · exact tabGet_filter d p k hp r
    · rw [List.filter_cons_of_neg e, tabGet_filter d p k hp r, tabGet, if_neg]
      intro hk
      exact e (hk ▸ hp v)

/-- A register of another block is another register, on another page. -/
theorem page_ne {pg : Page} {b : Block} {k off : Nat} (hb : k / 2 ^ 20 = blockCode b) (h : b ≠ pg.blk) :
    k / 4096 ≠ regKey pg off / 4096 := by
  intro e
  have h1 := regKey_blk pg off
  have h2 : k / 2 ^ 20 = regKey pg off / 2 ^ 20 := by
    rw [show (2 : Nat) ^ 20 = 4096 * 256 from rfl, ← Nat.div_div_eq_div_mul, ← Nat.div_div_eq_div_mul, e]
  exact h (blockCode_inj _ _ (hb.symm.trans (h2.trans h1)))

theorem not_blk {pg : Page} {b : Block} (hk : Piece.regs pg.blk ∈ L) (hn : Piece.regs b ∉ L) : b ≠ pg.blk :=
  fun e => hn (e ▸ hk)

theorem regs_other {pg : Page} {b : Block} (off : Nat) (v : Word) (t : Tab Word) (hn : b ≠ pg.blk) (k : Nat)
    (hb : k / 2 ^ 20 = blockCode b) : tabGet resetWord (tabSet resetWord t (regKey pg off) v) k = tabGet resetWord t k :=
  tabGet_tabSet_other _ _ _ _ _ fun e => page_ne (off := off) hb hn (by rw [e])

theorem regs {v : Tab Word} (h : Reach L a s)
    (hk : ∀ b, Piece.regs b ∉ L → ∀ k, k / 2 ^ 20 = blockCode b → tabGet resetWord v k = tabGet resetWord s.regs k)
    (hv : tabWf resetWord s.regs = true → tabWf resetWord v = true) : Reach L a { s with regs := v } := by
  refine ⟨fun k hn => ?_, fun hc => let c := h.2 hc; { c with regs := hv c.regs }⟩
  cases k
  case regs b => exact fun k hb => (hk b hn k hb).trans (h.1 (.regs b) hn k hb)
  all_goals exact h.1 _ hn

theorem setReg {pg : Page} {off : Nat} {v : Word} (h : Reach L a s) (hk : Piece.regs pg.blk ∈ L) :
    Reach L a { s with regs := tabSet resetWord s.regs (regKey pg off) v } :=
  regs h (fun _ hn k hb => regs_other off v s.regs (not_blk hk hn) k hb) (tabWf_tabSet _ _ _ _)

/-- A page's registers return to what an unlisted one holds. -/
theorem dropPage {pg : Page} (h : Reach L a s) (hk : Piece.regs pg.blk ∈ L) :
    Reach L a { s with regs := s.regs.filter fun e => e.1 / 4096 != regKey pg 0 / 4096 } :=
  regs h (fun _ hn k hb => tabGet_filter _ (fun e => e.1 / 4096 != regKey pg 0 / 4096) k
      (fun _ => bne_iff_ne.mpr (page_ne hb (not_blk hk hn))) _)
    (tabWf_filter _ _ _)

theorem pwr (h : Reach L a s) (hk : Piece.pwr ∈ L) {v} : Reach L a { s with pwr := v } :=
  ⟨fun k hn => by cases k <;> first | exact absurd hk hn | exact h.1 _ hn, fun hc => { h.2 hc with }⟩

theorem staged (h : Reach L a s) (hk : Piece.staged ∈ L) {v} (hv : tabWf resetWord s.staged = true → tabWf resetWord v = true) :
    Reach L a { s with staged := v } :=
  ⟨fun k hn => by cases k <;> first | exact absurd hk hn | exact h.1 _ hn,
    fun hc => let c := h.2 hc; { c with staged := hv c.staged }⟩

theorem bus (h : Reach L a s) (hk : Piece.bus ∈ L) {v} : Reach L a { s with bus := v } :=
  ⟨fun k hn => by cases k <;> first | exact absurd hk hn | exact h.1 _ hn, fun hc => { h.2 hc with }⟩

theorem mem (h : Reach L a s) (hk : Piece.mem ∈ L) {v} (hv : tabWf memDefault s.mem = true → tabWf memDefault v = true) :
    Reach L a { s with mem := v } :=
  ⟨fun k hn => by cases k <;> first | exact absurd hk hn | exact h.1 _ hn,
    fun hc => let c := h.2 hc; { c with mem := hv c.mem }⟩

theorem flash (h : Reach L a s) (hk : Piece.flash ∈ L) {v} (hv : tabWf flashDefault s.flash = true → tabWf flashDefault v = true) :
    Reach L a { s with flash := v } :=
  ⟨fun k hn => by cases k <;> first | exact absurd hk hn | exact h.1 _ hn,
    fun hc => let c := h.2 hc; { c with flash := hv c.flash }⟩

theorem toks (h : Reach L a s) (hk : Piece.toks ∈ L) {v} (hv : tabWf tokenDefault s.toks = true → tabWf tokenDefault v = true) :
    Reach L a { s with toks := v } :=
  ⟨fun k hn => by cases k <;> first | exact absurd hk hn | exact h.1 _ hn,
    fun hc => let c := h.2 hc; { c with toks := hv c.toks }⟩

theorem queues (h : Reach L a s) (hk : Piece.queues ∈ L) {v} (hv : tabWf queueDefault s.queues = true → tabWf queueDefault v = true) :
    Reach L a { s with queues := v } :=
  ⟨fun k hn => by cases k <;> first | exact absurd hk hn | exact h.1 _ hn,
    fun hc => let c := h.2 hc; { c with queues := hv c.queues }⟩

theorem lastServed (h : Reach L a s) (hk : Piece.lastServed ∈ L) {v} : Reach L a { s with lastServed := v } :=
  ⟨fun k hn => by cases k <;> first | exact absurd hk hn | exact h.1 _ hn, fun hc => { h.2 hc with }⟩

theorem planners (h : Reach L a s) (hk : Piece.planners ∈ L) {v} : Reach L a { s with planners := v } :=
  ⟨fun k hn => by cases k <;> first | exact absurd hk hn | exact h.1 _ hn, fun hc => { h.2 hc with }⟩

theorem arrs (h : Reach L a s) (hk : Piece.arrs ∈ L) {v} (hv : tabWf arrDefault s.arrs = true → tabWf arrDefault v = true) :
    Reach L a { s with arrs := v } :=
  ⟨fun k hn => by cases k <;> first | exact absurd hk hn | exact h.1 _ hn,
    fun hc => let c := h.2 hc; { c with arrs := hv c.arrs }⟩

theorem stks (h : Reach L a s) (hk : Piece.stks ∈ L) {v} (hv : tabWf stkDefault s.stks = true → tabWf stkDefault v = true) :
    Reach L a { s with stks := v } :=
  ⟨fun k hn => by cases k <;> first | exact absurd hk hn | exact h.1 _ hn,
    fun hc => let c := h.2 hc; { c with stks := hv c.stks }⟩

theorem yard (h : Reach L a s) (hk : Piece.yard ∈ L) {v} : Reach L a { s with yard := v } :=
  ⟨fun k hn => by cases k <;> first | exact absurd hk hn | exact h.1 _ hn, fun hc => { h.2 hc with }⟩

theorem retrain (h : Reach L a s) (hk : Piece.retrain ∈ L) {v} : Reach L a { s with retrain := v } :=
  ⟨fun k hn => by cases k <;> first | exact absurd hk hn | exact h.1 _ hn, fun hc => { h.2 hc with }⟩

theorem exts (h : Reach L a s) (hk : Piece.exts ∈ L) {v} (hv : tabWf extDefault s.exts = true → tabWf extDefault v = true) :
    Reach L a { s with exts := v } :=
  ⟨fun k hn => by cases k <;> first | exact absurd hk hn | exact h.1 _ hn,
    fun hc => let c := h.2 hc; { c with exts := hv c.exts }⟩

theorem leases (h : Reach L a s) (hk : Piece.leases ∈ L) {v} : Reach L a { s with leases := v } :=
  ⟨fun k hn => by cases k <;> first | exact absurd hk hn | exact h.1 _ hn, fun hc => { h.2 hc with }⟩

theorem lends (h : Reach L a s) (hk : Piece.lends ∈ L) {v} : Reach L a { s with lends := v } :=
  ⟨fun k hn => by cases k <;> first | exact absurd hk hn | exact h.1 _ hn, fun hc => { h.2 hc with }⟩

theorem accs (h : Reach L a s) (hk : Piece.accs ∈ L) {v} : Reach L a { s with accs := v } :=
  ⟨fun k hn => by cases k <;> first | exact absurd hk hn | exact h.1 _ hn, fun hc => { h.2 hc with }⟩

theorem nextTag (h : Reach L a s) (hk : Piece.nextTag ∈ L) {v} : Reach L a { s with nextTag := v } :=
  ⟨fun k hn => by cases k <;> first | exact absurd hk hn | exact h.1 _ hn, fun hc => { h.2 hc with }⟩

theorem parts (h : Reach L a s) (hk : Piece.parts ∈ L) {v} (hv : tabWf partDefault s.parts = true → tabWf partDefault v = true) :
    Reach L a { s with parts := v } :=
  ⟨fun k hn => by cases k <;> first | exact absurd hk hn | exact h.1 _ hn,
    fun hc => let c := h.2 hc; { c with parts := hv c.parts }⟩

theorem kvs (h : Reach L a s) (hk : Piece.kvs ∈ L) {v} (hv : tabWf kvsDefault s.kvs = true → tabWf kvsDefault v = true) :
    Reach L a { s with kvs := v } :=
  ⟨fun k hn => by cases k <;> first | exact absurd hk hn | exact h.1 _ hn,
    fun hc => let c := h.2 hc; { c with kvs := hv c.kvs }⟩

theorem lab (h : Reach L a s) (hk : Piece.lab ∈ L) {v} : Reach L a { s with lab := v } :=
  ⟨fun k hn => by cases k <;> first | exact absurd hk hn | exact h.1 _ hn, fun hc => { h.2 hc with }⟩

theorem scn (h : Reach L a s) (hk : Piece.scn ∈ L) {v} (hv : tabWf scnDefault s.scn = true → tabWf scnDefault v = true) :
    Reach L a { s with scn := v } :=
  ⟨fun k hn => by cases k <;> first | exact absurd hk hn | exact h.1 _ hn,
    fun hc => let c := h.2 hc; { c with scn := hv c.scn }⟩

theorem col (h : Reach L a s) (hk : Piece.col ∈ L) {v} : Reach L a { s with col := v } :=
  ⟨fun k hn => by cases k <;> first | exact absurd hk hn | exact h.1 _ hn, fun hc => { h.2 hc with }⟩

theorem ports (h : Reach L a s) (hk : Piece.ports ∈ L) {v} (hv : tabWf portDefault s.ports = true → tabWf portDefault v = true) :
    Reach L a { s with ports := v } :=
  ⟨fun k hn => by cases k <;> first | exact absurd hk hn | exact h.1 _ hn,
    fun hc => let c := h.2 hc; { c with ports := hv c.ports }⟩

theorem ivs (h : Reach L a s) (hk : Piece.ivs ∈ L) {v} : Reach L a { s with ivs := v } :=
  ⟨fun k hn => by cases k <;> first | exact absurd hk hn | exact h.1 _ hn, fun hc => { h.2 hc with }⟩

theorem hif (h : Reach L a s) (hk : Piece.hif ∈ L) {v} : Reach L a { s with hif := v } :=
  ⟨fun k hn => by cases k <;> first | exact absurd hk hn | exact h.1 _ hn, fun hc => { h.2 hc with }⟩

theorem chans (h : Reach L a s) (hk : Piece.chans ∈ L) {v} : Reach L a { s with chans := v } :=
  ⟨fun k hn => by cases k <;> first | exact absurd hk hn | exact h.1 _ hn, fun hc => { h.2 hc with }⟩

theorem sec (h : Reach L a s) (hk : Piece.sec ∈ L) {v} : Reach L a { s with sec := v } :=
  ⟨fun k hn => by cases k <;> first | exact absurd hk hn | exact h.1 _ hn, fun hc => { h.2 hc with }⟩

theorem secs (h : Reach L a s) (hk : Piece.secs ∈ L) {v} : Reach L a { s with secs := v } :=
  ⟨fun k hn => by cases k <;> first | exact absurd hk hn | exact h.1 _ hn, fun hc => { h.2 hc with }⟩

theorem secJobs (h : Reach L a s) (hk : Piece.secJobs ∈ L) {v} : Reach L a { s with secJobs := v } :=
  ⟨fun k hn => by cases k <;> first | exact absurd hk hn | exact h.1 _ hn, fun hc => { h.2 hc with }⟩

theorem lostFids (h : Reach L a s) (hk : Piece.lostFids ∈ L) {v} : Reach L a { s with lostFids := v } :=
  ⟨fun k hn => by cases k <;> first | exact absurd hk hn | exact h.1 _ hn, fun hc => { h.2 hc with }⟩

theorem mce (h : Reach L a s) (hk : Piece.mce ∈ L) {v} : Reach L a { s with mce := v } :=
  ⟨fun k hn => by cases k <;> first | exact absurd hk hn | exact h.1 _ hn, fun hc => { h.2 hc with }⟩

theorem evr (h : Reach L a s) (hk : Piece.evr ∈ L) {v} : Reach L a { s with evr := v } :=
  ⟨fun k hn => by cases k <;> first | exact absurd hk hn | exact h.1 _ hn, fun hc => { h.2 hc with }⟩

theorem out (h : Reach L a s) (hk : Piece.out ∈ L) {v} : Reach L a { s with out := v } :=
  ⟨fun k hn => by cases k <;> first | exact absurd hk hn | exact h.1 _ hn, fun hc => { h.2 hc with }⟩

theorem freeCtr (h : Reach L a s) (hk : Piece.freeCtr ∈ L) {v} : Reach L a { s with freeCtr := v } :=
  ⟨fun k hn => by cases k <;> first | exact absurd hk hn | exact h.1 _ hn, fun hc => { h.2 hc with }⟩

theorem pending (h : Reach L a s) (hk : Piece.pending ∈ L) {v} : Reach L a { s with pending := v } :=
  ⟨fun k hn => by cases k <;> first | exact absurd hk hn | exact h.1 _ hn, fun hc => { h.2 hc with }⟩

theorem accs_lostFids (h : Reach L a s) (hk0 : Piece.accs ∈ L) (hk1 : Piece.lostFids ∈ L) {v0} {v1} :
    Reach L a { s with accs := v0, lostFids := v1 } := Reach.lostFids (Reach.accs h hk0 (v := v0)) hk1 (v := v1)

theorem accs_nextTag (h : Reach L a s) (hk0 : Piece.accs ∈ L) (hk1 : Piece.nextTag ∈ L) {v0} {v1} :
    Reach L a { s with accs := v0, nextTag := v1 } := Reach.nextTag (Reach.accs h hk0 (v := v0)) hk1 (v := v1)

theorem flights_planners_lab (h : Reach L a s) (hk0 : Piece.flights ∈ L) (hd : Piece.descriptors ∈ L) (hk1 : Piece.planners ∈ L) (hk2 : Piece.lab ∈ L) {v0} {v1} {v2} (hv0 : ∀ n, InIssueOrder s.flights n → InIssueOrder v0 n) :
    Reach L a { s with flights := v0, planners := v1, lab := v2 } := Reach.lab (Reach.planners (Reach.flights h hk0 hd (v := v0) hv0) hk1 (v := v1)) hk2 (v := v2)

theorem flights_retrain_accs (h : Reach L a s) (hk0 : Piece.flights ∈ L) (hd : Piece.descriptors ∈ L) (hk1 : Piece.retrain ∈ L) (hk2 : Piece.accs ∈ L) {v0} {v1} {v2} (hv0 : ∀ n, InIssueOrder s.flights n → InIssueOrder v0 n) :
    Reach L a { s with flights := v0, retrain := v1, accs := v2 } := Reach.accs (Reach.retrain (Reach.flights h hk0 hd (v := v0) hv0) hk1 (v := v1)) hk2 (v := v2)

theorem pwr_sec (h : Reach L a s) (hk0 : Piece.pwr ∈ L) (hk1 : Piece.sec ∈ L) {v0} {v1} :
    Reach L a { s with pwr := v0, sec := v1 } := Reach.sec (Reach.pwr h hk0 (v := v0)) hk1 (v := v1)

theorem retrain_accs_chans (h : Reach L a s) (hk0 : Piece.retrain ∈ L) (hk1 : Piece.accs ∈ L) (hk2 : Piece.chans ∈ L) {v0} {v1} {v2} :
    Reach L a { s with retrain := v0, accs := v1, chans := v2 } := Reach.chans (Reach.accs (Reach.retrain h hk0 (v := v0)) hk1 (v := v1)) hk2 (v := v2)

theorem retrain_accs_col_hif (h : Reach L a s) (hk0 : Piece.retrain ∈ L) (hk1 : Piece.accs ∈ L) (hk2 : Piece.col ∈ L) (hk3 : Piece.hif ∈ L) {v0} {v1} {v2} {v3} :
    Reach L a { s with retrain := v0, accs := v1, col := v2, hif := v3 } := Reach.hif (Reach.col (Reach.accs (Reach.retrain h hk0 (v := v0)) hk1 (v := v1)) hk2 (v := v2)) hk3 (v := v3)

end Reach

/-- The outcome is a next state that differs from `a` in the pieces `L` at most. -/
structure ReachE (L : List Piece) (a : State) (o : Host.Outcome State Fault Refusal) : Prop where
  out : NextIs o (Reach L a)

theorem ReachE.next {L : List Piece} {a t : State} (h : Reach L a t) : ReachE L a (.next t) := ⟨t, rfl, h⟩

/-- Whatever the operation answers, only the pieces named in `L` differ from `a`'s and the tables stay canonical. -/
structure ReachO {β : Type} (L : List Piece) (a : State) (g : β → State) (o : Option β) : Prop where
  out : ∀ r, o = some r → Reach L a (g r)

/-- The state of a pair differs from `a` in the pieces `L` at most. -/
structure ReachP {β : Type} (L : List Piece) (a : State) (x : State × β) : Prop where
  out : Reach L a x.1

namespace ReachP

variable {L : List Piece} {a : State} {β : Type}

theorem pair_iff {s : State} {y : β} : ReachP L a (s, y) ↔ Reach L a s := ⟨fun h => h.out, fun h => ⟨h⟩⟩

theorem ite {c : Prop} [Decidable c] {x y : State × β} (hx : ReachP L a x) (hy : ReachP L a y) :
    ReachP L a (if c then x else y) := by
  split
  · exact hx
  · exact hy

theorem foldl {α : Type} {f : State × β → α → State × β} {l : List α} {z : State × β}
    (hf : ∀ t x, ReachP L a t → ReachP L a (f t x)) (h : ReachP L a z) : ReachP L a (l.foldl f z) := by
  induction l generalizing z with
  | nil => exact h
  | cons x l ih => exact ih (hf z x h)

/-- The state of a pair that a match took apart. -/
theorem use {x : State × β} {y : β} {t : State} (e : x = (t, y)) (h : ReachP L a x) : Reach L a t := by
  subst e
  exact h.out

/-- The state of a pair that a match took apart, where it stands second. -/
theorem ofPair {x : β × State} {y : β} {t : State} (e : x = (y, t)) (h : Reach L a x.2) : Reach L a t := by
  subst e
  exact h

end ReachP

namespace ReachO

variable {L : List Piece} {a : State}

theorem none {β : Type} {g : β → State} : ReachO L a g Option.none := ⟨fun _ e => nomatch e⟩

theorem some {β : Type} {g : β → State} {x : β} (h : Reach L a (g x)) : ReachO L a g (Option.some x) :=
  ⟨fun _ e => Option.some.inj e ▸ h⟩

theorem use {o : Option State} {t : State} (e : o = Option.some t) (h : ReachO L a (fun x => x) o) : Reach L a t := h.out t e

theorem useFst {β : Type} {o : Option (State × β)} {t : State} {y : β} (e : o = Option.some (t, y))
    (h : ReachO L a Prod.fst o) : Reach L a t := h.out _ e

theorem useSnd {β : Type} {o : Option (β × State)} {t : State} {y : β} (e : o = Option.some (y, t))
    (h : ReachO L a Prod.snd o) : Reach L a t := h.out _ e

theorem usePair {β : Type} {o : Option (State × β)} {r : State × β} (e : o = Option.some r)
    (h : ReachO L a Prod.fst o) : ReachP L a r := ⟨h.out _ e⟩

theorem useNest {β γ : Type} {o : Option ((State × β) × γ)} {r : State × β} {y : γ} (e : o = Option.some (r, y))
    (h : ReachO L a (fun x => x.1.1) o) : ReachP L a r := ⟨h.out _ e⟩

end ReachO

end Sys2Proof.Machine
end

