-- ==== Sys2Proof/Laws/ReachOps.lean ====
section
/-!
SUPPORT. What each operation of Machine/Ops.lean can change.
-/
namespace Sys2Proof.Machine

set_option linter.unusedTactic false
set_option linter.unreachableTactic false
set_option linter.unusedSimpArgs false

theorem st_reach {L a s x0 x1 x2} (h_x0 : Piece.regs x0.blk ∈ L) (h : Reach L a s) : Reach L a (st x0 x1 x2 s) :=
  Reach.setReg h h_x0

theorem inc_reach {L a s x0 x1 x2} (h_x0 : Piece.regs x0.blk ∈ L) (h : Reach L a s) : Reach L a (inc x0 x1 x2 s) := by
  unfold inc
  with_reducible repeat'
    (first | assumption | intro _ | extract_lets | apply st_reach | apply Reach.foldl | apply Reach.ite | split |
      (dsimp +zetaDelta only))

theorem freshen_reach {L a s x0} (h_mce_regs : Piece.regs .mce ∈ L) (h_mce : Piece.mce ∈ L) (h : Reach L a s) : Reach L a
    (freshen x0 s) := by
  unfold freshen
  with_reducible repeat'
    (first | assumption | intro _ | extract_lets | apply inc_reach | apply ReachP.ite | apply ReachP.foldl |
      apply ReachP.out | apply Reach.foldl | apply Reach.ite | split | apply Reach.mce | (simp only [ReachP.pair_iff]) |
      (dsimp +zetaDelta only))

theorem tagSet_reach {L a s x0 x1} (h_mce : Piece.mce ∈ L) (h : Reach L a s) : Reach L a (tagSet x0 x1 s) := by
  unfold tagSet
  with_reducible repeat'
    (first | assumption | intro _ | extract_lets | apply Reach.foldl | apply Reach.ite | split | apply Reach.mce |
      (dsimp +zetaDelta only))

theorem setErr_reach {L a s x0 x1 x2} (h_x0 : Piece.regs x0.blk ∈ L) (h : Reach L a s) : Reach L a (setErr x0 x1 x2 s) := by
  unfold setErr
  with_reducible repeat'
    (first | assumption | intro _ | extract_lets | apply st_reach | apply Reach.foldl | apply Reach.ite | split |
      (dsimp +zetaDelta only))

theorem incSat_reach {L a s x0 x1 x2} (h_x0 : Piece.regs x0.blk ∈ L) (h : Reach L a s) : Reach L a (incSat x0 x1 x2 s) := by
  unfold incSat
  with_reducible repeat'
    (first | assumption | intro _ | extract_lets | apply st_reach | apply Reach.foldl | apply Reach.ite | split |
      (dsimp +zetaDelta only))

theorem coalesce_reach {L a s x0 x1} (h_evr_regs : Piece.regs .evr ∈ L) (h_evr : Piece.evr ∈ L) (h : Reach L a s) : Reach L a
    (coalesce x0 x1 s) := by
  unfold coalesce
  with_reducible repeat'
    (first | assumption | intro _ | extract_lets | apply incSat_reach | apply ReachP.ite | apply ReachP.foldl |
      apply ReachP.out | apply Reach.foldl | apply Reach.ite | split | apply Reach.evr | (simp only [ReachP.pair_iff]) |
      (dsimp +zetaDelta only))

theorem tickFree_reach {L a s} (h_freeCtr : Piece.freeCtr ∈ L) (h : Reach L a s) : Reach L a (tickFree s) := by
  unfold tickFree
  with_reducible repeat'
    (first | assumption | intro _ | extract_lets | apply Reach.foldl | apply Reach.ite | split | apply Reach.freeCtr |
      (dsimp +zetaDelta only))

theorem rasCount_reach {L a s x0} (h_ras_regs : Piece.regs .ras ∈ L) (h : Reach L a s) : Reach L a (rasCount x0 s) := by
  unfold rasCount
  with_reducible repeat'
    (first | assumption | intro _ | extract_lets | apply inc_reach | apply Reach.foldl | apply Reach.ite | split |
      (dsimp +zetaDelta only))

theorem raise_reach {L a s x0 x1 x2 x3 x4 x5} (h_ras_regs : Piece.regs .ras ∈ L) (h_evr_regs : Piece.regs .evr ∈ L)
    (h_evr : Piece.evr ∈ L) (h_freeCtr : Piece.freeCtr ∈ L) (h : Reach L a s) : Reach L a (raise x0 x1 x2 x3 x4 x5 s) := by
  unfold raise
  with_reducible repeat'
    (first | assumption | intro _ | extract_lets | apply coalesce_reach | apply tickFree_reach | apply rasCount_reach |
      apply Reach.foldl | apply Reach.ite | split | (dsimp +zetaDelta only))

theorem countCode_reach {L a s x0 x1 x2 x3} (h_ras_regs : Piece.regs .ras ∈ L) (h_evr_regs : Piece.regs .evr ∈ L)
    (h_evr : Piece.evr ∈ L) (h_freeCtr : Piece.freeCtr ∈ L) (h : Reach L a s) : Reach L a (countCode x0 x1 x2 x3 s) := by
  unfold countCode
  with_reducible repeat'
    (first | assumption | intro _ | extract_lets | apply raise_reach | apply Reach.foldl | apply Reach.ite | split |
      (dsimp +zetaDelta only))

theorem pageErr_reach {L a s x0 x1 x2 x3} (h_ras_regs : Piece.regs .ras ∈ L) (h_evr_regs : Piece.regs .evr ∈ L)
    (h_x0 : Piece.regs x0.blk ∈ L) (h_evr : Piece.evr ∈ L) (h_freeCtr : Piece.freeCtr ∈ L) (h : Reach L a s) : Reach L a
    (pageErr x0 x1 x2 x3 s) := by
  unfold pageErr
  with_reducible repeat'
    (first | assumption | intro _ | extract_lets | apply setErr_reach | apply countCode_reach | apply Reach.foldl |
      apply Reach.ite | split | (dsimp +zetaDelta only))

theorem wh_reach {L a s x0 x1} (hf : ∀ t, Reach L a t → Reach L a (x1 t)) (h : Reach L a s) : Reach L a (wh x0 x1 s) := by
  unfold wh
  with_reducible repeat'
    (first | assumption | intro _ | extract_lets | apply Reach.foldl | apply Reach.ite | split | apply hf |
      (dsimp +zetaDelta only))

theorem noteBlock_reach {L a s x0 x1 x2} (h_mem_regs : Piece.regs .mem ∈ L) (h_lpd_regs : Piece.regs .lpd ∈ L)
    (h_mce_regs : Piece.regs .mce ∈ L) (h_sec_regs : Piece.regs .sec ∈ L) (h_ras_regs : Piece.regs .ras ∈ L)
    (h_evr_regs : Piece.regs .evr ∈ L) (h_evr : Piece.evr ∈ L) (h_freeCtr : Piece.freeCtr ∈ L) (h : Reach L a s) : Reach L a
    (noteBlock x0 x1 x2 s) := by
  unfold noteBlock
  with_reducible repeat'
    (first | assumption | intro _ | extract_lets | apply pageErr_reach | apply st_reach | apply inc_reach | apply wh_reach |
      apply Reach.foldl | apply Reach.ite | split | (dsimp +zetaDelta only))

theorem poke_reach {L a s x0 x1} (h_mem : Piece.mem ∈ L) (h : Reach L a s) : Reach L a (poke x0 x1 s) := by
  unfold poke
  with_reducible repeat'
    (first | assumption | intro _ | extract_lets | apply Reach.foldl | apply Reach.ite | split | apply Reach.mem |
      apply tabWf_tabSet | apply tabWf_putBytes | apply tabWf_filter | (dsimp +zetaDelta only))

theorem blockWrite_reach {L a s x0 x1 x2} (h_mem_regs : Piece.regs .mem ∈ L) (h_lpd_regs : Piece.regs .lpd ∈ L)
    (h_mce_regs : Piece.regs .mce ∈ L) (h_sec_regs : Piece.regs .sec ∈ L) (h_ras_regs : Piece.regs .ras ∈ L)
    (h_evr_regs : Piece.regs .evr ∈ L) (h_mem : Piece.mem ∈ L) (h_mce : Piece.mce ∈ L) (h_evr : Piece.evr ∈ L)
    (h_freeCtr : Piece.freeCtr ∈ L) (h : Reach L a s) : ReachP L a (blockWrite x0 x1 x2 s) := by
  unfold blockWrite
  with_reducible repeat'
    (first | assumption | intro _ | extract_lets | apply freshen_reach | apply tagSet_reach | apply noteBlock_reach |
      apply poke_reach | apply ReachP.ite | apply ReachP.foldl | apply ReachP.out | apply Reach.foldl | apply Reach.ite |
      split | (simp only [ReachP.pair_iff]) | (dsimp +zetaDelta only))

theorem setPort_reach {L a s x0 x1} (h_ports : Piece.ports ∈ L) (h : Reach L a s) : Reach L a (setPort x0 x1 s) := by
  unfold setPort
  with_reducible repeat'
    (first | assumption | intro _ | extract_lets | apply Reach.foldl | apply Reach.ite | split | apply Reach.ports |
      apply tabWf_tabSet | apply tabWf_putBytes | apply tabWf_filter | (dsimp +zetaDelta only))

theorem sendMsg_reach {L a s x0 x1} (h_ports : Piece.ports ∈ L) (h : Reach L a s) : Reach L a (sendMsg x0 x1 s) := by
  unfold sendMsg
  with_reducible repeat'
    (first | assumption | intro _ | extract_lets | apply setPort_reach | apply Reach.foldl | apply Reach.ite | split |
      (dsimp +zetaDelta only))

theorem sendTo_reach {L a s x0 x1} (h_ports : Piece.ports ∈ L) (h : Reach L a s) : Reach L a (sendTo x0 x1 s) := by
  unfold sendTo
  with_reducible repeat'
    (first | assumption | intro _ | extract_lets | apply sendMsg_reach | apply Reach.foldl | apply Reach.ite | split |
      (dsimp +zetaDelta only))

theorem leaseAccess_reach {L a s x0 x1 x2 x3 x4} (h_accs : Piece.accs ∈ L) (h_nextTag : Piece.nextTag ∈ L)
    (h_ports : Piece.ports ∈ L) (h : Reach L a s) : Reach L a (leaseAccess x0 x1 x2 x3 x4 s) := by
  unfold leaseAccess
  with_reducible repeat'
    (first | assumption | intro _ | extract_lets | apply sendTo_reach | apply Reach.foldl | apply Reach.ite | split |
      apply Reach.accs_nextTag | apply Reach.accs | apply Reach.nextTag | (dsimp +zetaDelta only))

theorem dropLines_reach {L a s x0} (h_yrd_regs : Piece.regs .yrd ∈ L) (h_yard : Piece.yard ∈ L) (h : Reach L a s) : Reach L a
    (dropLines x0 s) := by
  unfold dropLines
  with_reducible repeat'
    (first | assumption | intro _ | extract_lets | apply inc_reach | apply Reach.foldl | apply Reach.ite | split |
      apply Reach.yard | (dsimp +zetaDelta only))

theorem yardKillLine_reach {L a s x0} (h_yrd_regs : Piece.regs .yrd ∈ L) (h_yard : Piece.yard ∈ L) (h : Reach L a s) : Reach L
    a (yardKillLine x0 s) := by
  unfold yardKillLine
  with_reducible repeat'
    (first | assumption | intro _ | extract_lets | apply dropLines_reach | apply ReachP.ite | apply ReachP.foldl |
      apply ReachP.out | apply Reach.foldl | apply Reach.ite | split | (simp only [ReachP.pair_iff]) | (dsimp +zetaDelta only))

theorem useLine_reach {L a s x0 x1} (h_yard : Piece.yard ∈ L) (h : Reach L a s) : Reach L a (useLine x0 x1 s) := by
  unfold useLine
  with_reducible repeat'
    (first | assumption | intro _ | extract_lets | apply Reach.foldl | apply Reach.ite | split | apply Reach.yard |
      (dsimp +zetaDelta only))

theorem yardWriteLine_reach {L a s x0 x1 x2} (h_yrd_regs : Piece.regs .yrd ∈ L) (h_yard : Piece.yard ∈ L) (h : Reach L a s) :
    Reach L a (yardWriteLine x0 x1 x2 s) := by
  unfold yardWriteLine
  with_reducible repeat'
    (first | assumption | intro _ | extract_lets | apply useLine_reach | apply inc_reach | apply wh_reach |
      apply Reach.foldl | apply Reach.ite | split | (dsimp +zetaDelta only))

theorem writeLine_reach {L a s x0 x1 x2 x3 x4 x5} (h_yrd_regs : Piece.regs .yrd ∈ L) (h_mem_regs : Piece.regs .mem ∈ L)
    (h_lpd_regs : Piece.regs .lpd ∈ L) (h_mce_regs : Piece.regs .mce ∈ L) (h_sec_regs : Piece.regs .sec ∈ L)
    (h_ras_regs : Piece.regs .ras ∈ L) (h_evr_regs : Piece.regs .evr ∈ L) (h_mem : Piece.mem ∈ L) (h_yard : Piece.yard ∈ L)
    (h_accs : Piece.accs ∈ L) (h_nextTag : Piece.nextTag ∈ L) (h_ports : Piece.ports ∈ L) (h_mce : Piece.mce ∈ L)
    (h_evr : Piece.evr ∈ L) (h_freeCtr : Piece.freeCtr ∈ L) (h : Reach L a s) : ReachP L a (writeLine x0 x1 x2 x3 x4 x5 s) := by
  unfold writeLine
  with_reducible repeat'
    (first | assumption | intro _ | extract_lets | (refine ReachP.use (by assumption) ?_) | apply blockWrite_reach |
      apply pageErr_reach | apply leaseAccess_reach | apply yardKillLine_reach | apply yardWriteLine_reach | apply poke_reach |
      apply ReachP.ite | apply ReachP.foldl | apply ReachP.out | apply Reach.foldl | apply Reach.ite | split |
      (simp only [ReachP.pair_iff]) | (dsimp +zetaDelta only))

theorem noteChans_reach {L a s x0 x1} (h_retrain : Piece.retrain ∈ L) (h : Reach L a s) : Reach L a (noteChans x0 x1 s) := by
  unfold noteChans
  with_reducible repeat'
    (first | assumption | intro _ | extract_lets | apply ReachP.ite | apply ReachP.foldl | apply ReachP.out |
      apply Reach.foldl | apply Reach.ite | split | apply Reach.retrain | (simp only [ReachP.pair_iff]) |
      (dsimp +zetaDelta only))

theorem fetchLeased_reach {L a s x0 x1} (h_accs : Piece.accs ∈ L) (h_nextTag : Piece.nextTag ∈ L) (h_ports : Piece.ports ∈ L)
    (h : Reach L a s) : Reach L a (fetchLeased x0 x1 s) := by
  unfold fetchLeased
  with_reducible repeat'
    (first | assumption | intro _ | extract_lets | apply leaseAccess_reach | apply ReachP.ite | apply ReachP.foldl |
      apply ReachP.out | apply Reach.foldl | apply Reach.ite | split | (simp only [ReachP.pair_iff]) | (dsimp +zetaDelta only))

theorem noteWait_reach {L a s x0 x1 x2} (h_retrain : Piece.retrain ∈ L) (h_accs : Piece.accs ∈ L)
    (h_nextTag : Piece.nextTag ∈ L) (h_ports : Piece.ports ∈ L) (h : Reach L a s) : Reach L a (noteWait x0 x1 x2 s) := by
  unfold noteWait
  with_reducible repeat'
    (first | assumption | intro _ | extract_lets | apply noteChans_reach | apply fetchLeased_reach | apply ReachP.ite |
      apply ReachP.foldl | apply ReachP.out | apply Reach.foldl | apply Reach.ite | split | (simp only [ReachP.pair_iff]) |
      (dsimp +zetaDelta only))

theorem noteHeld_reach {L a s x0 x1} (h_retrain : Piece.retrain ∈ L) (h_accs : Piece.accs ∈ L) (h_nextTag : Piece.nextTag ∈ L)
    (h_ports : Piece.ports ∈ L) (h : Reach L a s) : Reach L a (noteHeld x0 x1 s) := by
  unfold noteHeld
  with_reducible repeat'
    (first | assumption | intro _ | extract_lets | apply noteWait_reach | apply Reach.foldl | apply Reach.ite | split |
      (dsimp +zetaDelta only))

theorem zeroFill_reach {L a s x0 x1} (h_mem : Piece.mem ∈ L) (h : Reach L a s) : Reach L a (zeroFill x0 x1 s) := by
  unfold zeroFill
  with_reducible repeat'
    (first | assumption | intro _ | extract_lets | apply ReachP.ite | apply ReachP.foldl | apply ReachP.out |
      apply Reach.foldl | apply Reach.ite | split | apply Reach.mem | apply tabWf_tabSet | apply tabWf_putBytes |
      apply tabWf_filter | (simp only [ReachP.pair_iff]) | (dsimp +zetaDelta only))

theorem setTok_reach {L a s x0 x1} (h_toks : Piece.toks ∈ L) (h : Reach L a s) : Reach L a (setTok x0 x1 s) := by
  unfold setTok
  with_reducible repeat'
    (first | assumption | intro _ | extract_lets | apply Reach.foldl | apply Reach.ite | split | apply Reach.toks |
      apply tabWf_tabSet | apply tabWf_putBytes | apply tabWf_filter | (dsimp +zetaDelta only))

theorem tokDec_reach {L a s x0 x1} (h_toks : Piece.toks ∈ L) (h : Reach L a s) : Reach L a (tokDec x0 x1 s) := by
  unfold tokDec
  with_reducible repeat'
    (first | assumption | intro _ | extract_lets | apply setTok_reach | apply Reach.foldl | apply Reach.ite | split |
      (dsimp +zetaDelta only))

theorem yardReadLine_reach {L a s x0 x1} (h_yrd_regs : Piece.regs .yrd ∈ L) (h_yard : Piece.yard ∈ L) (h : Reach L a s) :
    Reach L a (yardReadLine x0 x1 s) := by
  unfold yardReadLine
  with_reducible repeat'
    (first | assumption | intro _ | extract_lets | apply useLine_reach | apply inc_reach | apply Reach.foldl |
      apply Reach.ite | split | (dsimp +zetaDelta only))

theorem readLine_reach {L a s x0 x1 x2} (h_yrd_regs : Piece.regs .yrd ∈ L) (h_mem_regs : Piece.regs .mem ∈ L)
    (h_lpd_regs : Piece.regs .lpd ∈ L) (h_mce_regs : Piece.regs .mce ∈ L) (h_sec_regs : Piece.regs .sec ∈ L)
    (h_ras_regs : Piece.regs .ras ∈ L) (h_evr_regs : Piece.regs .evr ∈ L) (h_yard : Piece.yard ∈ L) (h_evr : Piece.evr ∈ L)
    (h_freeCtr : Piece.freeCtr ∈ L) (h : Reach L a s) : ReachP L a (readLine x0 x1 x2 s) := by
  unfold readLine
  with_reducible repeat'
    (first | assumption | intro _ | extract_lets | apply pageErr_reach | apply yardReadLine_reach | apply noteBlock_reach |
      apply wh_reach | apply ReachP.ite | apply ReachP.foldl | apply ReachP.out | apply Reach.foldl | apply Reach.ite | split |
      (simp only [ReachP.pair_iff]) | (dsimp +zetaDelta only))

theorem memRead_reach {L a s x0 x1 x2 x3} (h_yrd_regs : Piece.regs .yrd ∈ L) (h_mem_regs : Piece.regs .mem ∈ L)
    (h_lpd_regs : Piece.regs .lpd ∈ L) (h_mce_regs : Piece.regs .mce ∈ L) (h_sec_regs : Piece.regs .sec ∈ L)
    (h_ras_regs : Piece.regs .ras ∈ L) (h_evr_regs : Piece.regs .evr ∈ L) (h_yard : Piece.yard ∈ L) (h_evr : Piece.evr ∈ L)
    (h_freeCtr : Piece.freeCtr ∈ L) (h : Reach L a s) : ReachP L a (memRead x0 x1 x2 x3 s) := by
  unfold memRead
  with_reducible repeat'
    (first | assumption | intro _ | extract_lets | (refine ReachP.use (by assumption) ?_) | apply readLine_reach |
      apply ReachP.ite | apply ReachP.foldl | apply ReachP.out | apply Reach.foldl | apply Reach.ite | split |
      (simp only [ReachP.pair_iff]) | (dsimp +zetaDelta only))

theorem raiseV_reach {L a s x0 x1 x2 x3 x4 x5 x6 x7} (h_ras_regs : Piece.regs .ras ∈ L) (h_evr_regs : Piece.regs .evr ∈ L)
    (h_evr : Piece.evr ∈ L) (h_freeCtr : Piece.freeCtr ∈ L) (h : Reach L a s) : Reach L a (raiseV x0 x1 x2 x3 x4 x5 x6 x7 s) := by
  unfold raiseV
  with_reducible repeat'
    (first | assumption | intro _ | extract_lets | apply coalesce_reach | apply tickFree_reach | apply rasCount_reach |
      apply Reach.foldl | apply Reach.ite | split | (dsimp +zetaDelta only))

theorem tokAddV_reach {L a s x0 x1 x2} (h_tok_regs : Piece.regs .tok ∈ L) (h_ras_regs : Piece.regs .ras ∈ L)
    (h_evr_regs : Piece.regs .evr ∈ L) (h_toks : Piece.toks ∈ L) (h_evr : Piece.evr ∈ L) (h_freeCtr : Piece.freeCtr ∈ L)
    (h : Reach L a s) : Reach L a (tokAddV x0 x1 x2 s) := by
  unfold tokAddV
  with_reducible repeat'
    (first | assumption | intro _ | extract_lets | apply setTok_reach | apply raiseV_reach | apply inc_reach |
      apply Reach.foldl | apply Reach.ite | split | (dsimp +zetaDelta only))

theorem updFlight_reach {L a s x0 x1} (h_flights : Piece.flights ∈ L) (hg : ∀ f, Grows f (x1 f)) (h : Reach L a s) :
    Reach L a (updFlight x0 x1 s) := Reach.updFlights h h_flights hg

theorem finish_reach {L a s x0 x1 x2} (h_flights : Piece.flights ∈ L) (h : Reach L a s) : Reach L a (finish x0 x1 x2 s) := by
  refine updFlight_reach h_flights (fun f => ?_) h
  split <;> exact ⟨fun h => h, fun _ => nofun⟩

theorem settleList_reach {L a s x0 x1} (h_toks : Piece.toks ∈ L) (h_flights : Piece.flights ∈ L) (h : Reach L a s) : Reach L a
    (settleList x0 x1 s) := by
  induction x1 generalizing x0 s
  case nil =>
    rw [settleList]
    with_reducible repeat'
      (first | assumption | apply ih | intro _ | extract_lets | apply finish_reach | apply setTok_reach | apply ReachP.ite |
        apply ReachP.foldl | apply ReachP.out | apply Reach.foldl | apply Reach.ite | split | (simp only [ReachP.pair_iff]) |
        (dsimp +zetaDelta only))
  case cons x r ih =>
    rw [settleList]
    with_reducible repeat'
      (first | assumption | apply ih | intro _ | extract_lets | apply finish_reach | apply setTok_reach | apply ReachP.ite |
        apply ReachP.foldl | apply ReachP.out | apply Reach.foldl | apply Reach.ite | split | (simp only [ReachP.pair_iff]) |
        (dsimp +zetaDelta only))

theorem settle_reach {L a s x0} (h_toks : Piece.toks ∈ L) (h_flights : Piece.flights ∈ L) (h : Reach L a s) : Reach L a
    (settle x0 s) := by
  unfold settle
  with_reducible repeat'
    (first | assumption | intro _ | extract_lets | apply settleList_reach | apply Reach.foldl | apply Reach.ite | split |
      (dsimp +zetaDelta only))

theorem clearErr_reach {L a s x0} (h_x0 : Piece.regs x0.blk ∈ L) (h : Reach L a s) : Reach L a (clearErr x0 s) := by
  unfold clearErr
  with_reducible repeat'
    (first | assumption | intro _ | extract_lets | apply st_reach | apply Reach.foldl | apply Reach.ite | split |
      (dsimp +zetaDelta only))

theorem memWrite_reach {L a s x0 x1 x2 x3 x4} (h_yrd_regs : Piece.regs .yrd ∈ L) (h_mem_regs : Piece.regs .mem ∈ L)
    (h_lpd_regs : Piece.regs .lpd ∈ L) (h_mce_regs : Piece.regs .mce ∈ L) (h_sec_regs : Piece.regs .sec ∈ L)
    (h_ras_regs : Piece.regs .ras ∈ L) (h_evr_regs : Piece.regs .evr ∈ L) (h_mem : Piece.mem ∈ L) (h_yard : Piece.yard ∈ L)
    (h_accs : Piece.accs ∈ L) (h_nextTag : Piece.nextTag ∈ L) (h_ports : Piece.ports ∈ L) (h_mce : Piece.mce ∈ L)
    (h_evr : Piece.evr ∈ L) (h_freeCtr : Piece.freeCtr ∈ L) (h : Reach L a s) : ReachP L a (memWrite x0 x1 x2 x3 x4 s) := by
  unfold memWrite
  with_reducible repeat'
    (first | assumption | intro _ | extract_lets | (refine ReachP.use (by assumption) ?_) | apply writeLine_reach |
      apply ReachP.ite | apply ReachP.foldl | apply ReachP.out | apply Reach.foldl | apply Reach.ite | split |
      (simp only [ReachP.pair_iff]) | (dsimp +zetaDelta only))

theorem memPut_reach {L a s x0 x1 x2 x3} (h_yrd_regs : Piece.regs .yrd ∈ L) (h_mem_regs : Piece.regs .mem ∈ L)
    (h_lpd_regs : Piece.regs .lpd ∈ L) (h_mce_regs : Piece.regs .mce ∈ L) (h_sec_regs : Piece.regs .sec ∈ L)
    (h_ras_regs : Piece.regs .ras ∈ L) (h_evr_regs : Piece.regs .evr ∈ L) (h_mem : Piece.mem ∈ L) (h_yard : Piece.yard ∈ L)
    (h_accs : Piece.accs ∈ L) (h_nextTag : Piece.nextTag ∈ L) (h_ports : Piece.ports ∈ L) (h_mce : Piece.mce ∈ L)
    (h_evr : Piece.evr ∈ L) (h_freeCtr : Piece.freeCtr ∈ L) (h : Reach L a s) : Reach L a (memPut x0 x1 x2 x3 s) := by
  unfold memPut
  with_reducible repeat'
    (first | assumption | intro _ | extract_lets | (refine ReachP.use (by assumption) ?_) | apply memWrite_reach |
      apply ReachP.ite | apply ReachP.foldl | apply ReachP.out | apply Reach.foldl | apply Reach.ite | split |
      (simp only [ReachP.pair_iff]) | (dsimp +zetaDelta only))

theorem tryWrite_reach {L a x0 x1 x2 x3 r} (h_yrd_regs : Piece.regs .yrd ∈ L) (h_mem_regs : Piece.regs .mem ∈ L)
    (h_lpd_regs : Piece.regs .lpd ∈ L) (h_mce_regs : Piece.regs .mce ∈ L) (h_sec_regs : Piece.regs .sec ∈ L)
    (h_ras_regs : Piece.regs .ras ∈ L) (h_evr_regs : Piece.regs .evr ∈ L) (h_mem : Piece.mem ∈ L) (h_yard : Piece.yard ∈ L)
    (h_accs : Piece.accs ∈ L) (h_nextTag : Piece.nextTag ∈ L) (h_ports : Piece.ports ∈ L) (h_mce : Piece.mce ∈ L)
    (h_evr : Piece.evr ∈ L) (h_freeCtr : Piece.freeCtr ∈ L) (h : ReachP L a r) : ReachP L a (tryWrite x0 x1 x2 x3 r) := by
  unfold tryWrite
  with_reducible repeat'
    (first | assumption | intro _ | extract_lets | apply memPut_reach | apply ReachP.ite | apply ReachP.foldl |
      apply ReachP.out | apply Reach.foldl | apply Reach.ite | split | (simp only [ReachP.pair_iff]) | (dsimp +zetaDelta only))

theorem stRws_reach {L a s x0 x1 x2} (h_x0 : Piece.regs x0.blk ∈ L) (h_staged : Piece.staged ∈ L) (h : Reach L a s) : Reach L
    a (stRws x0 x1 x2 s) := by
  unfold stRws
  with_reducible repeat'
    (first | assumption | intro _ | extract_lets | apply st_reach | apply Reach.foldl | apply Reach.ite | split |
      apply Reach.staged | apply tabWf_tabSet | apply tabWf_putBytes | apply tabWf_filter | (dsimp +zetaDelta only))

theorem proceed_reach {L a s x0} (h_retrain : Piece.retrain ∈ L) (h : Reach L a s) : Reach L a (proceed x0 s) := by
  unfold proceed
  with_reducible repeat'
    (first | assumption | intro _ | extract_lets | apply ReachP.ite | apply ReachP.foldl | apply ReachP.out |
      apply Reach.foldl | apply Reach.ite | split | apply Reach.retrain | (simp only [ReachP.pair_iff]) |
      (dsimp +zetaDelta only))

theorem stopped_reach {L a s x0} (h_mem_regs : Piece.regs .mem ∈ L) (h_lpd_regs : Piece.regs .lpd ∈ L)
    (h_mce_regs : Piece.regs .mce ∈ L) (h_sec_regs : Piece.regs .sec ∈ L) (h_ras_regs : Piece.regs .ras ∈ L)
    (h_evr_regs : Piece.regs .evr ∈ L) (h_evr : Piece.evr ∈ L) (h_freeCtr : Piece.freeCtr ∈ L) (h : Reach L a s) : Reach L a
    (stopped x0 s) := by
  unfold stopped
  with_reducible repeat'
    (first | assumption | intro _ | extract_lets | apply noteBlock_reach | apply Reach.foldl | apply Reach.ite | split |
      (dsimp +zetaDelta only))

theorem tryDo_reach {L a x0 r} (hf : ∀ t, Reach L a t → Reach L a (x0 t)) (h : ReachP L a r) : ReachP L a (tryDo x0 r) := by
  unfold tryDo
  with_reducible repeat'
    (first | assumption | intro _ | extract_lets | apply ReachP.ite | apply ReachP.foldl | apply ReachP.out |
      apply Reach.foldl | apply Reach.ite | split | apply hf | (simp only [ReachP.pair_iff]) | (dsimp +zetaDelta only))

theorem tokSetV_reach {L a s x0 x1} (h_toks : Piece.toks ∈ L) (h : Reach L a s) : Reach L a (tokSetV x0 x1 s) := by
  unfold tokSetV
  with_reducible repeat'
    (first | assumption | intro _ | extract_lets | apply setTok_reach | apply Reach.foldl | apply Reach.ite | split |
      (dsimp +zetaDelta only))

theorem atDone_reach {L a s x0} (h_bus : Piece.bus ∈ L) (hf : ∀ t, Reach L a t → Reach L a (x0 t)) (h : Reach L a s) : Reach L
    a (atDone x0 s) := by
  unfold atDone
  with_reducible repeat'
    (first | assumption | intro _ | extract_lets | apply Reach.foldl | apply Reach.ite | split | apply hf | apply Reach.bus |
      (dsimp +zetaDelta only))

theorem scramble_reach {L a s x0 x1} (h_mem : Piece.mem ∈ L) (h_freeCtr : Piece.freeCtr ∈ L) (h : Reach L a s) : Reach L a
    (scramble x0 x1 s) := by
  unfold scramble
  with_reducible repeat'
    (first | assumption | intro _ | extract_lets | apply tickFree_reach | apply poke_reach | apply Reach.foldl |
      apply Reach.ite | split | (dsimp +zetaDelta only))

theorem tryRead_reach {L a x0 x1 x2 x3 r} (h : ReachP L a r) : ReachP L a (tryRead x0 x1 x2 x3 r) := by
  unfold tryRead
  with_reducible repeat'
    (first | assumption | intro _ | extract_lets | apply ReachP.ite | apply ReachP.foldl | apply ReachP.out |
      apply Reach.foldl | apply Reach.ite | split | (simp only [ReachP.pair_iff]) | (dsimp +zetaDelta only))

theorem clearWay_reach {L a s x0 x1 x2} (h_mem : Piece.mem ∈ L) (h_yard : Piece.yard ∈ L) (h : Reach L a s) : Reach L a
    (clearWay x0 x1 x2 s) := by
  unfold clearWay
  with_reducible repeat'
    (first | assumption | intro _ | extract_lets | apply zeroFill_reach | apply wh_reach | apply ReachP.ite |
      apply ReachP.foldl | apply ReachP.out | apply Reach.foldl | apply Reach.ite | split | apply Reach.yard |
      (simp only [ReachP.pair_iff]) | (dsimp +zetaDelta only))

end Sys2Proof.Machine
end

