-- ==== Sys2Proof/Laws/ReachHostTx.lean ====
section
/-!
SUPPORT. What each operation of Machine/HostTx.lean can change.
-/
namespace Sys2Proof.Machine

set_option linter.unusedTactic false
set_option linter.unreachableTactic false
set_option linter.unusedSimpArgs false

theorem updSess_reach {L a s x0 x1} (h_chans : Piece.chans ∈ L) (h : Reach L a s) : Reach L a (updSess x0 x1 s) := by
  unfold updSess
  with_reducible repeat'
    (first | assumption | intro _ | extract_lets | apply Reach.foldl | apply Reach.ite | split | apply Reach.chans |
      (dsimp +zetaDelta only))

theorem sendFrame_reach {L a s x0 x1} (h_hif_regs : Piece.regs .hif ∈ L) (h_out : Piece.out ∈ L) (h : Reach L a s) : Reach L a
    (sendFrame x0 x1 s) := by
  unfold sendFrame
  with_reducible repeat'
    (first | assumption | intro _ | extract_lets | apply inc_reach | apply Reach.foldl | apply Reach.ite | split |
      apply Reach.out | (dsimp +zetaDelta only))

theorem sendPacket_reach {L a s x0 x1 x2 x3 x4} (h_hif_regs : Piece.regs .hif ∈ L) (h_chans : Piece.chans ∈ L)
    (h_out : Piece.out ∈ L) (h : Reach L a s) : Reach L a (sendPacket x0 x1 x2 x3 x4 s) := by
  unfold sendPacket
  with_reducible repeat'
    (first | assumption | intro _ | extract_lets | apply sendFrame_reach | apply updSess_reach | apply Reach.foldl |
      apply Reach.ite | split | (dsimp +zetaDelta only))

theorem pump_reach {L a s x0} (h_hif_regs : Piece.regs .hif ∈ L) (h_chans : Piece.chans ∈ L) (h_out : Piece.out ∈ L)
    (h : Reach L a s) : Reach L a (pump x0 s) := by
  unfold pump
  with_reducible repeat'
    (first | assumption | intro _ | extract_lets | apply sendPacket_reach | apply updSess_reach | apply Reach.foldl |
      apply Reach.ite | split | (dsimp +zetaDelta only))

theorem sendSeq_reach {L a s x0 x1 x2 x3 x4} (h_hif_regs : Piece.regs .hif ∈ L) (h_chans : Piece.chans ∈ L)
    (h_out : Piece.out ∈ L) (h : Reach L a s) : Reach L a (sendSeq x0 x1 x2 x3 x4 s) := by
  unfold sendSeq
  with_reducible repeat'
    (first | assumption | intro _ | extract_lets | apply pump_reach | apply updSess_reach | apply Reach.foldl |
      apply Reach.ite | split | (dsimp +zetaDelta only))

theorem notifyChan_reach {L a s x0 x1} (h_hif_regs : Piece.regs .hif ∈ L) (h_chans : Piece.chans ∈ L) (h_out : Piece.out ∈ L)
    (h : Reach L a s) : Reach L a (notifyChan x0 x1 s) := by
  unfold notifyChan
  with_reducible repeat'
    (first | assumption | intro _ | extract_lets | apply sendSeq_reach | apply inc_reach | apply wh_reach |
      apply updSess_reach | apply Reach.foldl | apply Reach.ite | split | (dsimp +zetaDelta only))

theorem notify_reach {L a s x0 x1} (h_hif_regs : Piece.regs .hif ∈ L) (h_chans : Piece.chans ∈ L) (h_out : Piece.out ∈ L)
    (h : Reach L a s) : Reach L a (notify x0 x1 s) := by
  unfold notify
  with_reducible repeat'
    (first | assumption | intro _ | extract_lets | apply notifyChan_reach | apply Reach.foldl | apply Reach.ite | split |
      (dsimp +zetaDelta only))

end Sys2Proof.Machine
end

