-- ==== Sys2Proof/Laws/ReachOperands.lean ====
section
/-!
SUPPORT. What each operation of Machine/Operands.lean can change.
-/
namespace Sys2Proof.Machine

set_option linter.unusedTactic false
set_option linter.unreachableTactic false
set_option linter.unusedSimpArgs false

theorem writeAll_reach {L a s x0 x1 x2 x3} (h_yrd_regs : Piece.regs .yrd ∈ L) (h_mem_regs : Piece.regs .mem ∈ L)
    (h_lpd_regs : Piece.regs .lpd ∈ L) (h_mce_regs : Piece.regs .mce ∈ L) (h_sec_regs : Piece.regs .sec ∈ L)
    (h_ras_regs : Piece.regs .ras ∈ L) (h_evr_regs : Piece.regs .evr ∈ L) (h_mem : Piece.mem ∈ L) (h_yard : Piece.yard ∈ L)
    (h_accs : Piece.accs ∈ L) (h_nextTag : Piece.nextTag ∈ L) (h_ports : Piece.ports ∈ L) (h_mce : Piece.mce ∈ L)
    (h_evr : Piece.evr ∈ L) (h_freeCtr : Piece.freeCtr ∈ L) (h : Reach L a s) : ReachP L a (writeAll x0 x1 x2 x3 s) := by
  unfold writeAll
  with_reducible repeat'
    (first | assumption | intro _ | extract_lets | (refine ReachP.use (by assumption) ?_) | apply memWrite_reach |
      apply ReachP.ite | apply ReachP.foldl | apply ReachP.out | apply Reach.foldl | apply Reach.ite | split |
      (simp only [ReachP.pair_iff]) | (dsimp +zetaDelta only))

theorem readAll_reach {L a s x0 x1 x2} (h_yrd_regs : Piece.regs .yrd ∈ L) (h_mem_regs : Piece.regs .mem ∈ L)
    (h_lpd_regs : Piece.regs .lpd ∈ L) (h_mce_regs : Piece.regs .mce ∈ L) (h_sec_regs : Piece.regs .sec ∈ L)
    (h_ras_regs : Piece.regs .ras ∈ L) (h_evr_regs : Piece.regs .evr ∈ L) (h_yard : Piece.yard ∈ L) (h_evr : Piece.evr ∈ L)
    (h_freeCtr : Piece.freeCtr ∈ L) (h : Reach L a s) : ReachP L a (readAll x0 x1 x2 s) := by
  unfold readAll
  with_reducible repeat'
    (first | assumption | intro _ | extract_lets | (refine ReachP.use (by assumption) ?_) | apply memRead_reach |
      apply ReachP.ite | apply ReachP.foldl | apply ReachP.out | apply Reach.foldl | apply Reach.ite | split |
      (simp only [ReachP.pair_iff]) | (dsimp +zetaDelta only))

end Sys2Proof.Machine
end

