-- ==== Sys2Proof/Laws/ReachToken.lean ====
section
/-!
SUPPORT. What each operation of Machine/Token.lean can change.
-/
namespace Sys2Proof.Machine

set_option linter.unusedTactic false
set_option linter.unreachableTactic false
set_option linter.unusedSimpArgs false

theorem tokenAddF_reach {L a s x0} (h_tok_regs : Piece.regs .tok ∈ L) (h_ras_regs : Piece.regs .ras ∈ L)
    (h_evr_regs : Piece.regs .evr ∈ L) (h_toks : Piece.toks ∈ L) (h_flights : Piece.flights ∈ L) (h_evr : Piece.evr ∈ L)
    (h_freeCtr : Piece.freeCtr ∈ L) (h : Reach L a s) : Reach L a (tokenAddF x0 s) := by
  unfold tokenAddF
  with_reducible repeat'
    (first | assumption | intro _ | extract_lets | apply tokAddV_reach | apply settle_reach | apply finish_reach |
      apply ReachP.ite | apply ReachP.foldl | apply ReachP.out | apply Reach.foldl | apply Reach.ite | split |
      (simp only [ReachP.pair_iff]) | (dsimp +zetaDelta only))

theorem tokApply_reach {L a s x0 x1 x2} (h_tok_regs : Piece.regs .tok ∈ L) (h_ras_regs : Piece.regs .ras ∈ L)
    (h_evr_regs : Piece.regs .evr ∈ L) (h_toks : Piece.toks ∈ L) (h_evr : Piece.evr ∈ L) (h_freeCtr : Piece.freeCtr ∈ L)
    (h : Reach L a s) : Reach L a (tokApply x0 x1 x2 s) := by
  unfold tokApply
  with_reducible repeat'
    (first | assumption | intro _ | extract_lets | apply tokAddV_reach | apply tokDec_reach | apply tokSetV_reach |
      apply Reach.foldl | apply Reach.ite | split | (dsimp +zetaDelta only))

theorem tokRefuse_reach {L a s x0 x1 x2} (h_tok_regs : Piece.regs .tok ∈ L) (h : Reach L a s) : Reach L a
    (tokRefuse x0 x1 x2 s) := by
  unfold tokRefuse
  with_reducible repeat'
    (first | assumption | intro _ | extract_lets | apply st_reach | apply Reach.foldl | apply Reach.ite | split |
      (dsimp +zetaDelta only))

theorem tokAccess_reach {L a s x0 x1 x2} (h_tok_regs : Piece.regs .tok ∈ L) (h_ras_regs : Piece.regs .ras ∈ L)
    (h_evr_regs : Piece.regs .evr ∈ L) (h_bus : Piece.bus ∈ L) (h_toks : Piece.toks ∈ L) (h_flights : Piece.flights ∈ L)
    (h_evr : Piece.evr ∈ L) (h_freeCtr : Piece.freeCtr ∈ L) (h : Reach L a s) : Reach L a (tokAccess x0 x1 x2 s) := by
  unfold tokAccess
  with_reducible repeat'
    (first | assumption | intro _ | extract_lets | apply settle_reach | apply tokApply_reach | apply tokRefuse_reach |
      apply Reach.foldl | apply Reach.ite | split | apply Reach.bus | (dsimp +zetaDelta only))

theorem tokenSetF_reach {L a s x0} (h_toks : Piece.toks ∈ L) (h_flights : Piece.flights ∈ L) (h : Reach L a s) : Reach L a
    (tokenSetF x0 s) := by
  unfold tokenSetF
  with_reducible repeat'
    (first | assumption | intro _ | extract_lets | apply settle_reach | apply finish_reach | apply tokSetV_reach |
      apply ReachP.ite | apply ReachP.foldl | apply ReachP.out | apply Reach.foldl | apply Reach.ite | split |
      (simp only [ReachP.pair_iff]) | (dsimp +zetaDelta only))

theorem tokenAcquireF_reach {L a s x0} (h_toks : Piece.toks ∈ L) (h_flights : Piece.flights ∈ L) (h : Reach L a s) : Reach L a
    (tokenAcquireF x0 s) := by
  unfold tokenAcquireF
  with_reducible repeat'
    (first | assumption | intro _ | extract_lets | apply settle_reach | apply updFlight_reach | apply ReachP.ite |
      apply ReachP.foldl | apply ReachP.out | apply Reach.foldl | apply Reach.ite | split | (simp only [ReachP.pair_iff]) |
      (exact ⟨fun h => h, fun h => h⟩) | (refine ⟨fun _ e => ?_, fun h => h⟩; cases e) | (dsimp +zetaDelta only))

end Sys2Proof.Machine
end

