-- ==== Sys2Proof/Laws/ReachStk.lean ====
section
/-!
SUPPORT. What each operation of Machine/Stk.lean can change.
-/
namespace Sys2Proof.Machine

set_option linter.unusedTactic false
set_option linter.unreachableTactic false
set_option linter.unusedSimpArgs false

theorem scrambleAll_reach {L a s x0} (h_mem : Piece.mem ∈ L) (h_freeCtr : Piece.freeCtr ∈ L) (h : Reach L a s) : Reach L a
    (scrambleAll x0 s) := by
  unfold scrambleAll
  with_reducible repeat'
    (first | assumption | intro _ | extract_lets | apply scramble_reach | apply ReachP.ite | apply ReachP.foldl |
      apply ReachP.out | apply Reach.foldl | apply Reach.ite | split | (simp only [ReachP.pair_iff]) | (dsimp +zetaDelta only))

theorem raisePer_reach {L a s x0 x1 x2 x3} (h_ras_regs : Piece.regs .ras ∈ L) (h_evr_regs : Piece.regs .evr ∈ L)
    (h_evr : Piece.evr ∈ L) (h_freeCtr : Piece.freeCtr ∈ L) (h : Reach L a s) : Reach L a (raisePer x0 x1 x2 x3 s) := by
  unfold raisePer
  with_reducible repeat'
    (first | assumption | intro _ | extract_lets | apply raiseV_reach | apply Reach.foldl | apply Reach.ite | split |
      (dsimp +zetaDelta only))

theorem passEvents_reach {L a s x0 x1 x2} (h_ras_regs : Piece.regs .ras ∈ L) (h_evr_regs : Piece.regs .evr ∈ L)
    (h_evr : Piece.evr ∈ L) (h_freeCtr : Piece.freeCtr ∈ L) (h : Reach L a s) : Reach L a (passEvents x0 x1 x2 s) := by
  unfold passEvents
  with_reducible repeat'
    (first | assumption | intro _ | extract_lets | apply raiseV_reach | apply raisePer_reach | apply Reach.foldl |
      apply Reach.ite | split | (dsimp +zetaDelta only))

theorem stkCount_reach {L a s x0 x1 x2} (h_stks : Piece.stks ∈ L) (h : Reach L a s) : Reach L a (stkCount x0 x1 x2 s) := by
  unfold stkCount
  with_reducible repeat'
    (first | assumption | intro _ | extract_lets | apply Reach.foldl | apply Reach.ite | split | apply Reach.stks |
      apply tabWf_tabSet | apply tabWf_putBytes | apply tabWf_filter | (dsimp +zetaDelta only))

theorem stkLeave_reach {L a s x0} (h_stks : Piece.stks ∈ L) (h : Reach L a s) : Reach L a (stkLeave x0 s) := by
  unfold stkLeave
  with_reducible repeat'
    (first | assumption | intro _ | extract_lets | apply Reach.foldl | apply Reach.ite | split | apply Reach.stks |
      apply tabWf_tabSet | apply tabWf_putBytes | apply tabWf_filter | (dsimp +zetaDelta only))

theorem stkDone_reach {L a s x0 x1 x2} (h_flights : Piece.flights ∈ L) (h_stks : Piece.stks ∈ L) (h : Reach L a s) : Reach L a
    (stkDone x0 x1 x2 s) := by
  unfold stkDone
  with_reducible repeat'
    (first | assumption | intro _ | extract_lets | apply updFlight_reach | apply finish_reach | apply stkCount_reach |
      apply stkLeave_reach | apply Reach.foldl | apply Reach.ite | split | (exact ⟨fun h => h, fun h => h⟩) |
      (refine ⟨fun _ e => ?_, fun h => h⟩; cases e) | (dsimp +zetaDelta only))

theorem countHold_reach {L a s x0} (h_stks : Piece.stks ∈ L) (h : Reach L a s) : Reach L a (countHold x0 s) := by
  unfold countHold
  with_reducible repeat'
    (first | assumption | intro _ | extract_lets | apply stkCount_reach | apply Reach.foldl | apply Reach.ite | split |
      (dsimp +zetaDelta only))

theorem countWrites_reach {L a s x0 x1} (h_stks : Piece.stks ∈ L) (h : Reach L a s) : Reach L a (countWrites x0 x1 s) := by
  unfold countWrites
  with_reducible repeat'
    (first | assumption | intro _ | extract_lets | apply stkCount_reach | apply Reach.foldl | apply Reach.ite | split |
      (dsimp +zetaDelta only))

theorem stkBack_reach {L a s x0} (h_yrd_regs : Piece.regs .yrd ∈ L) (h_mem_regs : Piece.regs .mem ∈ L)
    (h_lpd_regs : Piece.regs .lpd ∈ L) (h_mce_regs : Piece.regs .mce ∈ L) (h_sec_regs : Piece.regs .sec ∈ L)
    (h_ras_regs : Piece.regs .ras ∈ L) (h_evr_regs : Piece.regs .evr ∈ L) (h_mem : Piece.mem ∈ L) (h_flights : Piece.flights ∈ L)
    (h_stks : Piece.stks ∈ L) (h_yard : Piece.yard ∈ L) (h_retrain : Piece.retrain ∈ L) (h_accs : Piece.accs ∈ L)
    (h_nextTag : Piece.nextTag ∈ L) (h_ports : Piece.ports ∈ L) (h_mce : Piece.mce ∈ L) (h_evr : Piece.evr ∈ L)
    (h_freeCtr : Piece.freeCtr ∈ L) (h : Reach L a s) : Reach L a (stkBack x0 s) := by
  unfold stkBack
  with_reducible repeat'
    (first | assumption | intro _ | extract_lets | (refine ReachP.use (by assumption) ?_) | apply proceed_reach |
      apply stkDone_reach | apply writeAll_reach | apply passEvents_reach | apply readAll_reach | apply noteWait_reach |
      apply countHold_reach | apply countWrites_reach | apply ReachP.ite | apply ReachP.foldl | apply ReachP.out |
      apply Reach.foldl | apply Reach.ite | split | (simp only [ReachP.pair_iff]) | (dsimp +zetaDelta only))

theorem setStk_reach {L a s x0 x1} (h_flights : Piece.flights ∈ L) (h : Reach L a s) : Reach L a (setStk x0 x1 s) := by
  unfold setStk
  with_reducible repeat'
    (first | assumption | intro _ | extract_lets | apply updFlight_reach | apply Reach.foldl | apply Reach.ite | split |
      (exact ⟨fun h => h, fun h => h⟩) | (refine ⟨fun _ e => ?_, fun h => h⟩; cases e) | (dsimp +zetaDelta only))

theorem stkPart_reach {L a s x0 x1} (h_yrd_regs : Piece.regs .yrd ∈ L) (h_mem_regs : Piece.regs .mem ∈ L)
    (h_lpd_regs : Piece.regs .lpd ∈ L) (h_mce_regs : Piece.regs .mce ∈ L) (h_sec_regs : Piece.regs .sec ∈ L)
    (h_ras_regs : Piece.regs .ras ∈ L) (h_evr_regs : Piece.regs .evr ∈ L) (h_flights : Piece.flights ∈ L)
    (h_stks : Piece.stks ∈ L) (h_yard : Piece.yard ∈ L) (h_retrain : Piece.retrain ∈ L) (h_accs : Piece.accs ∈ L)
    (h_nextTag : Piece.nextTag ∈ L) (h_ports : Piece.ports ∈ L) (h_evr : Piece.evr ∈ L) (h_freeCtr : Piece.freeCtr ∈ L)
    (h : Reach L a s) : Reach L a (stkPart x0 x1 s) := by
  unfold stkPart
  with_reducible repeat'
    (first | assumption | intro _ | extract_lets | (refine ReachP.use (by assumption) ?_) | apply proceed_reach |
      apply stkDone_reach | apply updFlight_reach | apply stkCount_reach | apply readAll_reach | apply noteWait_reach |
      apply wh_reach | apply setStk_reach | apply ReachP.ite | apply ReachP.foldl | apply ReachP.out | apply Reach.foldl |
      apply Reach.ite | split | apply Reach.stks | apply tabWf_tabSet | apply tabWf_putBytes | apply tabWf_filter |
      (simp only [ReachP.pair_iff]) | (exact ⟨fun h => h, fun h => h⟩) | (refine ⟨fun _ e => ?_, fun h => h⟩; cases e) |
      (dsimp +zetaDelta only))

theorem stkEnter_reach {L a s x0 x1} (h_stks : Piece.stks ∈ L) (h : Reach L a s) : Reach L a (stkEnter x0 x1 s) := by
  unfold stkEnter
  with_reducible repeat'
    (first | assumption | intro _ | extract_lets | apply Reach.foldl | apply Reach.ite | split | apply Reach.stks |
      apply tabWf_tabSet | apply tabWf_putBytes | apply tabWf_filter | (dsimp +zetaDelta only))

theorem stkStart_reach {L a s x0} (h_stks : Piece.stks ∈ L) (h : Reach L a s) : Reach L a (stkStart x0 s) := by
  unfold stkStart
  with_reducible repeat'
    (first | assumption | intro _ | extract_lets | apply stkEnter_reach | apply Reach.foldl | apply Reach.ite | split |
      (dsimp +zetaDelta only))

theorem yrdReads_reach {L a s x0} (h_yrd_regs : Piece.regs .yrd ∈ L) (h_mem_regs : Piece.regs .mem ∈ L)
    (h_lpd_regs : Piece.regs .lpd ∈ L) (h_mce_regs : Piece.regs .mce ∈ L) (h_sec_regs : Piece.regs .sec ∈ L)
    (h_ras_regs : Piece.regs .ras ∈ L) (h_evr_regs : Piece.regs .evr ∈ L) (h_yard : Piece.yard ∈ L) (h_evr : Piece.evr ∈ L)
    (h_freeCtr : Piece.freeCtr ∈ L) (h : Reach L a s) : ReachP L a (yrdReads x0 s) := by
  unfold yrdReads
  with_reducible repeat'
    (first | assumption | intro _ | extract_lets | (refine ReachP.use (by assumption) ?_) | apply readAll_reach |
      apply ReachP.ite | apply ReachP.foldl | apply ReachP.out | apply Reach.foldl | apply Reach.ite | split |
      (simp only [ReachP.pair_iff]) | (dsimp +zetaDelta only))

theorem stkEnd_reach {L a s x0 x1} (h_yrd_regs : Piece.regs .yrd ∈ L) (h_mem_regs : Piece.regs .mem ∈ L)
    (h_lpd_regs : Piece.regs .lpd ∈ L) (h_mce_regs : Piece.regs .mce ∈ L) (h_sec_regs : Piece.regs .sec ∈ L)
    (h_ras_regs : Piece.regs .ras ∈ L) (h_evr_regs : Piece.regs .evr ∈ L) (h_mem : Piece.mem ∈ L) (h_flights : Piece.flights ∈ L)
    (h_stks : Piece.stks ∈ L) (h_yard : Piece.yard ∈ L) (h_accs : Piece.accs ∈ L) (h_nextTag : Piece.nextTag ∈ L)
    (h_ports : Piece.ports ∈ L) (h_mce : Piece.mce ∈ L) (h_evr : Piece.evr ∈ L) (h_freeCtr : Piece.freeCtr ∈ L) (h : Reach L a s)
    : Reach L a (stkEnd x0 x1 s) := by
  unfold stkEnd
  with_reducible repeat'
    (first | assumption | intro _ | extract_lets | (refine ReachP.use (by assumption) ?_) | apply stkDone_reach |
      apply writeAll_reach | apply updFlight_reach | apply raiseV_reach | apply passEvents_reach | apply countHold_reach |
      apply countWrites_reach | apply scrambleAll_reach | apply setStk_reach | apply ReachP.ite | apply ReachP.foldl |
      apply ReachP.out | apply Reach.foldl | apply Reach.ite | split | (simp only [ReachP.pair_iff]) |
      (exact ⟨fun h => h, fun h => h⟩) | (refine ⟨fun _ e => ?_, fun h => h⟩; cases e) | (dsimp +zetaDelta only))

theorem stkStep_reach {L a s x0} (h_yrd_regs : Piece.regs .yrd ∈ L) (h_mem_regs : Piece.regs .mem ∈ L)
    (h_lpd_regs : Piece.regs .lpd ∈ L) (h_mce_regs : Piece.regs .mce ∈ L) (h_sec_regs : Piece.regs .sec ∈ L)
    (h_ras_regs : Piece.regs .ras ∈ L) (h_evr_regs : Piece.regs .evr ∈ L) (h_mem : Piece.mem ∈ L) (h_flights : Piece.flights ∈ L)
    (h_stks : Piece.stks ∈ L) (h_yard : Piece.yard ∈ L) (h_retrain : Piece.retrain ∈ L) (h_accs : Piece.accs ∈ L)
    (h_nextTag : Piece.nextTag ∈ L) (h_ports : Piece.ports ∈ L) (h_mce : Piece.mce ∈ L) (h_evr : Piece.evr ∈ L)
    (h_freeCtr : Piece.freeCtr ∈ L) (h : Reach L a s) : Reach L a (stkStep x0 s) := by
  unfold stkStep
  with_reducible repeat'
    (first | assumption | intro _ | extract_lets | (refine ReachP.use (by assumption) ?_) | apply proceed_reach |
      apply stkDone_reach | apply stkBack_reach | apply stkPart_reach | apply stkStart_reach | apply noteWait_reach |
      apply yrdReads_reach | apply stkEnd_reach | apply ReachP.ite | apply ReachP.foldl | apply ReachP.out | apply Reach.foldl |
      apply Reach.ite | split | (simp only [ReachP.pair_iff]) | (dsimp +zetaDelta only))

theorem stkReplay_reach {L a s x0} (h_yrd_regs : Piece.regs .yrd ∈ L) (h_mem_regs : Piece.regs .mem ∈ L)
    (h_lpd_regs : Piece.regs .lpd ∈ L) (h_mce_regs : Piece.regs .mce ∈ L) (h_sec_regs : Piece.regs .sec ∈ L)
    (h_ras_regs : Piece.regs .ras ∈ L) (h_evr_regs : Piece.regs .evr ∈ L) (h_mem : Piece.mem ∈ L) (h_flights : Piece.flights ∈ L)
    (h_stks : Piece.stks ∈ L) (h_yard : Piece.yard ∈ L) (h_retrain : Piece.retrain ∈ L) (h_accs : Piece.accs ∈ L)
    (h_nextTag : Piece.nextTag ∈ L) (h_ports : Piece.ports ∈ L) (h_mce : Piece.mce ∈ L) (h_evr : Piece.evr ∈ L)
    (h_freeCtr : Piece.freeCtr ∈ L) (h : Reach L a s) : Reach L a (stkReplay x0 s) := by
  unfold stkReplay
  with_reducible repeat'
    (first | assumption | intro _ | extract_lets | apply stkStep_reach | apply setStk_reach | apply Reach.foldl |
      apply Reach.ite | split | (dsimp +zetaDelta only))

theorem stkSnapshot_reach {L a s x0} (h_stk_regs : Piece.regs .stk ∈ L) (h : Reach L a s) : Reach L a (stkSnapshot x0 s) := by
  unfold stkSnapshot
  with_reducible repeat'
    (first | assumption | intro _ | extract_lets | apply st_reach | apply Reach.foldl | apply Reach.ite | split |
      (dsimp +zetaDelta only))

theorem stkClearCnt_reach {L a s x0} (h_stks : Piece.stks ∈ L) (h : Reach L a s) : Reach L a (stkClearCnt x0 s) := by
  unfold stkClearCnt
  with_reducible repeat'
    (first | assumption | intro _ | extract_lets | apply Reach.foldl | apply Reach.ite | split | apply Reach.stks |
      apply tabWf_tabSet | apply tabWf_putBytes | apply tabWf_filter | (dsimp +zetaDelta only))

theorem stkGo_reach {L a s x0 x1} (h_yrd_regs : Piece.regs .yrd ∈ L) (h_mem_regs : Piece.regs .mem ∈ L)
    (h_lpd_regs : Piece.regs .lpd ∈ L) (h_mce_regs : Piece.regs .mce ∈ L) (h_sec_regs : Piece.regs .sec ∈ L)
    (h_ras_regs : Piece.regs .ras ∈ L) (h_evr_regs : Piece.regs .evr ∈ L) (h_mem : Piece.mem ∈ L) (h_flights : Piece.flights ∈ L)
    (h_stks : Piece.stks ∈ L) (h_yard : Piece.yard ∈ L) (h_retrain : Piece.retrain ∈ L) (h_accs : Piece.accs ∈ L)
    (h_nextTag : Piece.nextTag ∈ L) (h_ports : Piece.ports ∈ L) (h_mce : Piece.mce ∈ L) (h_evr : Piece.evr ∈ L)
    (h_freeCtr : Piece.freeCtr ∈ L) (h : Reach L a s) : Reach L a (stkGo x0 x1 s) := by
  unfold stkGo
  with_reducible repeat'
    (first | assumption | intro _ | extract_lets | apply stkStep_reach | apply Reach.foldl | apply Reach.ite | split |
      (dsimp +zetaDelta only))

theorem stkCtrl_reach {L a s x0 x1 x2 x3} (h_stk_regs : Piece.regs .stk ∈ L) (h_bus : Piece.bus ∈ L) (h_stks : Piece.stks ∈ L)
    (h : Reach L a s) : Reach L a (stkCtrl x0 x1 x2 x3 s) := by
  unfold stkCtrl
  with_reducible repeat'
    (first | assumption | intro _ | extract_lets | apply stkClearCnt_reach | apply stkSnapshot_reach | apply wh_reach |
      apply Reach.foldl | apply Reach.ite | split | apply Reach.bus | (dsimp +zetaDelta only))

end Sys2Proof.Machine
end

