-- ==== Sys2Proof/Laws/ReachArray.lean ====
section
/-!
SUPPORT. What each operation of Machine/Array.lean can change.
-/
namespace Sys2Proof.Machine

set_option linter.unusedTactic false
set_option linter.unreachableTactic false
set_option linter.unusedSimpArgs false

theorem setArr_reach {L a s x0 x1} (h_arrs : Piece.arrs ∈ L) (h : Reach L a s) : Reach L a (setArr x0 x1 s) := by
  unfold setArr
  with_reducible repeat'
    (first | assumption | intro _ | extract_lets | apply Reach.foldl | apply Reach.ite | split | apply Reach.arrs |
      apply tabWf_tabSet | apply tabWf_putBytes | apply tabWf_filter | (dsimp +zetaDelta only))

theorem arrCount_reach {L a s x0 x1 x2} (h_arrs : Piece.arrs ∈ L) (h : Reach L a s) : Reach L a (arrCount x0 x1 x2 s) := by
  unfold arrCount
  with_reducible repeat'
    (first | assumption | intro _ | extract_lets | apply setArr_reach | apply Reach.foldl | apply Reach.ite | split |
      (dsimp +zetaDelta only))

theorem countStall_reach {L a s x0} (h_arrs : Piece.arrs ∈ L) (h : Reach L a s) : Reach L a (countStall x0 s) := by
  unfold countStall
  with_reducible repeat'
    (first | assumption | intro _ | extract_lets | apply arrCount_reach | apply Reach.foldl | apply Reach.ite | split |
      (dsimp +zetaDelta only))

theorem countBusy_reach {L a s x0 x1} (h_arrs : Piece.arrs ∈ L) (h : Reach L a s) : Reach L a (countBusy x0 x1 s) := by
  unfold countBusy
  with_reducible repeat'
    (first | assumption | intro _ | extract_lets | apply arrCount_reach | apply Reach.foldl | apply Reach.ite | split |
      (dsimp +zetaDelta only))

theorem countSpan_reach {L a s x0 x1 x2} (h_arrs : Piece.arrs ∈ L) (h : Reach L a s) : Reach L a (countSpan x0 x1 x2 s) := by
  unfold countSpan
  with_reducible repeat'
    (first | assumption | intro _ | extract_lets | apply countBusy_reach | apply Reach.foldl | apply Reach.ite | split |
      (dsimp +zetaDelta only))

theorem countTile_reach {L a s x0 x1} (h_arrs : Piece.arrs ∈ L) (h : Reach L a s) : Reach L a (countTile x0 x1 s) := by
  unfold countTile
  with_reducible repeat'
    (first | assumption | intro _ | extract_lets | apply arrCount_reach | apply Reach.foldl | apply Reach.ite | split |
      (dsimp +zetaDelta only))

theorem advance_reach {L a s x0 x1} (h_arrs : Piece.arrs ∈ L) (h : Reach L a s) : Reach L a (advance x0 x1 s) := by
  induction x1 generalizing x0 s
  case zero =>
    rw [advance]
    with_reducible repeat'
      (first | assumption | apply ih | intro _ | extract_lets | apply setArr_reach | apply countSpan_reach |
        apply countTile_reach | apply ReachP.ite | apply ReachP.foldl | apply ReachP.out | apply Reach.foldl | apply Reach.ite |
        split | (simp only [ReachP.pair_iff]) | (dsimp +zetaDelta only))
  case succ n ih =>
    rw [advance]
    with_reducible repeat'
      (first | assumption | apply ih | intro _ | extract_lets | apply setArr_reach | apply countSpan_reach |
        apply countTile_reach | apply ReachP.ite | apply ReachP.foldl | apply ReachP.out | apply Reach.foldl | apply Reach.ite |
        split | (simp only [ReachP.pair_iff]) | (dsimp +zetaDelta only))

theorem countFreezes_reach {L a s x0 x1 x2 x3} (h_arrs : Piece.arrs ∈ L) (h : Reach L a s) : Reach L a
    (countFreezes x0 x1 x2 x3 s) := by
  unfold countFreezes
  with_reducible repeat'
    (first | assumption | intro _ | extract_lets | apply arrCount_reach | apply Reach.foldl | apply Reach.ite | split |
      (dsimp +zetaDelta only))

theorem countFree_reach {L a s x0} (h_arrs : Piece.arrs ∈ L) (h_freeCtr : Piece.freeCtr ∈ L) (h : Reach L a s) : Reach L a
    (countFree x0 s) := by
  unfold countFree
  with_reducible repeat'
    (first | assumption | intro _ | extract_lets | apply countFreezes_reach | apply tickFree_reach | apply Reach.foldl |
      apply Reach.ite | split | (dsimp +zetaDelta only))

theorem countAbandoned_reach {L a s x0} (h_arrs : Piece.arrs ∈ L) (h_freeCtr : Piece.freeCtr ∈ L) (h : Reach L a s) : Reach L
    a (countAbandoned x0 s) := by
  unfold countAbandoned
  with_reducible repeat'
    (first | assumption | intro _ | extract_lets | apply countFree_reach | apply tickFree_reach | apply countBusy_reach |
      apply Reach.foldl | apply Reach.ite | split | (dsimp +zetaDelta only))

theorem clearArrays_reach {L a s x0} (h_arrs : Piece.arrs ∈ L) (h_freeCtr : Piece.freeCtr ∈ L) (h : Reach L a s) : Reach L a
    (clearArrays x0 s) := by
  unfold clearArrays
  with_reducible repeat'
    (first | assumption | intro _ | extract_lets | apply setArr_reach | apply countAbandoned_reach | apply wh_reach |
      apply ReachP.ite | apply ReachP.foldl | apply ReachP.out | apply Reach.foldl | apply Reach.ite | split |
      (simp only [ReachP.pair_iff]) | (dsimp +zetaDelta only))

theorem raiseMismatches_reach {L a s x0 x1 x2} (h_ras_regs : Piece.regs .ras ∈ L) (h_evr_regs : Piece.regs .evr ∈ L)
    (h_evr : Piece.evr ∈ L) (h_freeCtr : Piece.freeCtr ∈ L) (h : Reach L a s) : Reach L a (raiseMismatches x0 x1 x2 s) := by
  unfold raiseMismatches
  with_reducible repeat'
    (first | assumption | intro _ | extract_lets | apply raiseV_reach | apply Reach.foldl | apply Reach.ite | split |
      (dsimp +zetaDelta only))

theorem failTiles_reach {L a s x0 x1} (h_ras_regs : Piece.regs .ras ∈ L) (h_evr_regs : Piece.regs .evr ∈ L)
    (h_flights : Piece.flights ∈ L) (h_arrs : Piece.arrs ∈ L) (h_evr : Piece.evr ∈ L) (h_freeCtr : Piece.freeCtr ∈ L)
    (h : Reach L a s) : Reach L a (failTiles x0 x1 s) := by
  unfold failTiles
  with_reducible repeat'
    (first | assumption | intro _ | extract_lets | apply finish_reach | apply clearArrays_reach |
      apply raiseMismatches_reach | apply Reach.foldl | apply Reach.ite | split | (dsimp +zetaDelta only))

theorem readLines_reach {L a s x0 x1} (h_yrd_regs : Piece.regs .yrd ∈ L) (h_mem_regs : Piece.regs .mem ∈ L)
    (h_lpd_regs : Piece.regs .lpd ∈ L) (h_mce_regs : Piece.regs .mce ∈ L) (h_sec_regs : Piece.regs .sec ∈ L)
    (h_ras_regs : Piece.regs .ras ∈ L) (h_evr_regs : Piece.regs .evr ∈ L) (h_yard : Piece.yard ∈ L) (h_evr : Piece.evr ∈ L)
    (h_freeCtr : Piece.freeCtr ∈ L) (h : Reach L a s) : ReachP L a (readLines x0 x1 s) := by
  unfold readLines
  with_reducible repeat'
    (first | assumption | intro _ | extract_lets | (refine ReachP.use (by assumption) ?_) | apply readLine_reach |
      apply ReachP.ite | apply ReachP.foldl | apply ReachP.out | apply Reach.foldl | apply Reach.ite | split |
      (simp only [ReachP.pair_iff]) | (dsimp +zetaDelta only))

theorem readThen_reach {L a s x0 x1 x2} (h_yrd_regs : Piece.regs .yrd ∈ L) (h_mem_regs : Piece.regs .mem ∈ L)
    (h_lpd_regs : Piece.regs .lpd ∈ L) (h_mce_regs : Piece.regs .mce ∈ L) (h_sec_regs : Piece.regs .sec ∈ L)
    (h_ras_regs : Piece.regs .ras ∈ L) (h_evr_regs : Piece.regs .evr ∈ L) (h_yard : Piece.yard ∈ L)
    (h_retrain : Piece.retrain ∈ L) (h_accs : Piece.accs ∈ L) (h_nextTag : Piece.nextTag ∈ L) (h_ports : Piece.ports ∈ L)
    (h_evr : Piece.evr ∈ L) (h_freeCtr : Piece.freeCtr ∈ L) (hf : ∀ y0 t, Reach L a t → Reach L a (x2 y0 t)) (h : Reach L a s) :
    Reach L a (readThen x0 x1 x2 s) := by
  unfold readThen
  with_reducible repeat'
    (first | assumption | intro _ | extract_lets | (refine ReachP.use (by assumption) ?_) | apply proceed_reach |
      apply noteHeld_reach | apply readLines_reach | apply ReachP.ite | apply ReachP.foldl | apply ReachP.out |
      apply Reach.foldl | apply Reach.ite | split | apply hf | (simp only [ReachP.pair_iff]) | (dsimp +zetaDelta only))

theorem preloadStall_reach {L a s x0} (h_yrd_regs : Piece.regs .yrd ∈ L) (h_mem_regs : Piece.regs .mem ∈ L)
    (h_lpd_regs : Piece.regs .lpd ∈ L) (h_mce_regs : Piece.regs .mce ∈ L) (h_sec_regs : Piece.regs .sec ∈ L)
    (h_ras_regs : Piece.regs .ras ∈ L) (h_evr_regs : Piece.regs .evr ∈ L) (h_flights : Piece.flights ∈ L)
    (h_arrs : Piece.arrs ∈ L) (h_yard : Piece.yard ∈ L) (h_retrain : Piece.retrain ∈ L) (h_accs : Piece.accs ∈ L)
    (h_nextTag : Piece.nextTag ∈ L) (h_ports : Piece.ports ∈ L) (h_evr : Piece.evr ∈ L) (h_freeCtr : Piece.freeCtr ∈ L)
    (h : Reach L a s) : Reach L a (preloadStall x0 s) := by
  unfold preloadStall
  with_reducible repeat'
    (first | assumption | intro _ | extract_lets | apply setArr_reach | apply countStall_reach | apply advance_reach |
      apply failTiles_reach | apply readThen_reach | apply Reach.foldl | apply Reach.ite | split | (dsimp +zetaDelta only))

theorem poolGo_reach {L a s x0} (h_yrd_regs : Piece.regs .yrd ∈ L) (h_mem_regs : Piece.regs .mem ∈ L)
    (h_lpd_regs : Piece.regs .lpd ∈ L) (h_mce_regs : Piece.regs .mce ∈ L) (h_sec_regs : Piece.regs .sec ∈ L)
    (h_ras_regs : Piece.regs .ras ∈ L) (h_evr_regs : Piece.regs .evr ∈ L) (h_mem : Piece.mem ∈ L) (h_flights : Piece.flights ∈ L)
    (h_stks : Piece.stks ∈ L) (h_yard : Piece.yard ∈ L) (h_retrain : Piece.retrain ∈ L) (h_accs : Piece.accs ∈ L)
    (h_nextTag : Piece.nextTag ∈ L) (h_ports : Piece.ports ∈ L) (h_mce : Piece.mce ∈ L) (h_evr : Piece.evr ∈ L)
    (h_freeCtr : Piece.freeCtr ∈ L) (h : Reach L a s) : Reach L a (poolGo x0 s) := by
  unfold poolGo
  with_reducible repeat'
    (first | assumption | intro _ | extract_lets | (refine ReachP.use (by assumption) ?_) | apply proceed_reach |
      apply writeAll_reach | apply finish_reach | apply stkCount_reach | apply readAll_reach | apply noteWait_reach |
      apply raisePer_reach | apply ReachP.ite | apply ReachP.foldl | apply ReachP.out | apply Reach.foldl | apply Reach.ite |
      split | (simp only [ReachP.pair_iff]) | (dsimp +zetaDelta only))

theorem setTiles_reach {L a s x0 x1} (h_flights : Piece.flights ∈ L) (h : Reach L a s) : Reach L a (setTiles x0 x1 s) := by
  unfold setTiles
  with_reducible repeat'
    (first | assumption | intro _ | extract_lets | apply updFlight_reach | apply Reach.foldl | apply Reach.ite | split |
      (exact ⟨fun h => h, fun h => h⟩) | (refine ⟨fun _ e => ?_, fun h => h⟩; cases e) | (dsimp +zetaDelta only))

theorem drainRead_reach {L a s x0} (h_yrd_regs : Piece.regs .yrd ∈ L) (h_mem_regs : Piece.regs .mem ∈ L)
    (h_lpd_regs : Piece.regs .lpd ∈ L) (h_mce_regs : Piece.regs .mce ∈ L) (h_sec_regs : Piece.regs .sec ∈ L)
    (h_ras_regs : Piece.regs .ras ∈ L) (h_evr_regs : Piece.regs .evr ∈ L) (h_flights : Piece.flights ∈ L)
    (h_arrs : Piece.arrs ∈ L) (h_yard : Piece.yard ∈ L) (h_retrain : Piece.retrain ∈ L) (h_accs : Piece.accs ∈ L)
    (h_nextTag : Piece.nextTag ∈ L) (h_ports : Piece.ports ∈ L) (h_evr : Piece.evr ∈ L) (h_freeCtr : Piece.freeCtr ∈ L)
    (h : Reach L a s) : Reach L a (drainRead x0 s) := by
  unfold drainRead
  with_reducible repeat'
    (first | assumption | intro _ | extract_lets | (refine ReachP.use (by assumption) ?_) | apply proceed_reach |
      apply setTiles_reach | apply countCode_reach | apply readAll_reach | apply failTiles_reach | apply noteHeld_reach |
      apply memRead_reach | apply ReachP.ite | apply ReachP.foldl | apply ReachP.out | apply Reach.foldl | apply Reach.ite |
      split | (simp only [ReachP.pair_iff]) | (dsimp +zetaDelta only))

theorem countPin_reach {L a s x0 x1 x2 x3 x4} (h_dsp_regs : Piece.regs .dsp ∈ L) (h_ras_regs : Piece.regs .ras ∈ L)
    (h_evr_regs : Piece.regs .evr ∈ L) (h_evr : Piece.evr ∈ L) (h_freeCtr : Piece.freeCtr ∈ L) (h : Reach L a s) : Reach L a
    (countPin x0 x1 x2 x3 x4 s) := by
  unfold countPin
  with_reducible repeat'
    (first | assumption | intro _ | extract_lets | apply inc_reach | apply raise_reach | apply wh_reach | apply Reach.foldl |
      apply Reach.ite | split | (dsimp +zetaDelta only))

theorem tplInc_reach {L a s x0 x1} (h_tpl_regs : Piece.regs .tpl ∈ L) (h : Reach L a s) : Reach L a (tplInc x0 x1 s) := by
  unfold tplInc
  with_reducible repeat'
    (first | assumption | intro _ | extract_lets | apply inc_reach | apply Reach.foldl | apply Reach.ite | split |
      (dsimp +zetaDelta only))

theorem raisePoint_reach {L a s x0} (h_clk_regs : Piece.regs .clk ∈ L) (h : Reach L a s) : Reach L a (raisePoint x0 s) := by
  unfold raisePoint
  with_reducible repeat'
    (first | assumption | intro _ | extract_lets | apply st_reach | apply Reach.foldl | apply Reach.ite | split |
      (dsimp +zetaDelta only))

theorem runStart_reach {L a s} (h_dsp_regs : Piece.regs .dsp ∈ L) (h_tpl_regs : Piece.regs .tpl ∈ L)
    (h_yrd_regs : Piece.regs .yrd ∈ L) (h_mem_regs : Piece.regs .mem ∈ L) (h_lpd_regs : Piece.regs .lpd ∈ L)
    (h_mce_regs : Piece.regs .mce ∈ L) (h_sec_regs : Piece.regs .sec ∈ L) (h_clk_regs : Piece.regs .clk ∈ L)
    (h_ras_regs : Piece.regs .ras ∈ L) (h_evr_regs : Piece.regs .evr ∈ L) (h_flights : Piece.flights ∈ L)
    (h_arrs : Piece.arrs ∈ L) (h_yard : Piece.yard ∈ L) (h_retrain : Piece.retrain ∈ L) (h_accs : Piece.accs ∈ L)
    (h_nextTag : Piece.nextTag ∈ L) (h_ports : Piece.ports ∈ L) (h_evr : Piece.evr ∈ L) (h_freeCtr : Piece.freeCtr ∈ L)
    (h : Reach L a s) : Reach L a (runStart s) := by
  unfold runStart
  with_reducible repeat'
    (first | assumption | intro _ | extract_lets | apply setArr_reach | apply drainRead_reach | apply setTiles_reach |
      apply advance_reach | apply arrCount_reach | apply countPin_reach | apply tplInc_reach | apply raisePoint_reach |
      apply Reach.foldl | apply Reach.ite | split | (dsimp +zetaDelta only))

theorem passOver_reach {L a s x0 x1 x2} (h_ras_regs : Piece.regs .ras ∈ L) (h_evr_regs : Piece.regs .evr ∈ L)
    (h_mem : Piece.mem ∈ L) (h_flights : Piece.flights ∈ L) (h_arrs : Piece.arrs ∈ L) (h_evr : Piece.evr ∈ L)
    (h_freeCtr : Piece.freeCtr ∈ L) (h : Reach L a s) : Reach L a (passOver x0 x1 x2 s) := by
  unfold passOver
  with_reducible repeat'
    (first | assumption | intro _ | extract_lets | apply setTiles_reach | apply updFlight_reach | apply finish_reach |
      apply raiseV_reach | apply clearArrays_reach | apply scrambleAll_reach | apply raiseMismatches_reach | apply Reach.foldl |
      apply Reach.ite | split | (exact ⟨fun h => h, fun h => h⟩) | (refine ⟨fun _ e => ?_, fun h => h⟩; cases e) |
      (dsimp +zetaDelta only))

theorem stageTile_reach {L a s x0 x1 x2 x3 x4} (h_ras_regs : Piece.regs .ras ∈ L) (h_evr_regs : Piece.regs .evr ∈ L)
    (h_mem : Piece.mem ∈ L) (h_flights : Piece.flights ∈ L) (h_arrs : Piece.arrs ∈ L) (h_evr : Piece.evr ∈ L)
    (h_freeCtr : Piece.freeCtr ∈ L) (h : Reach L a s) : Reach L a (stageTile x0 x1 x2 x3 x4 s) := by
  unfold stageTile
  with_reducible repeat'
    (first | assumption | intro _ | extract_lets | apply setArr_reach | apply setTiles_reach | apply passOver_reach |
      apply Reach.foldl | apply Reach.ite | split | (dsimp +zetaDelta only))

theorem drainTile_reach {L a s x0 x1 x2 x3 x4 x5} (h_yrd_regs : Piece.regs .yrd ∈ L) (h_mem_regs : Piece.regs .mem ∈ L)
    (h_lpd_regs : Piece.regs .lpd ∈ L) (h_mce_regs : Piece.regs .mce ∈ L) (h_sec_regs : Piece.regs .sec ∈ L)
    (h_ras_regs : Piece.regs .ras ∈ L) (h_evr_regs : Piece.regs .evr ∈ L) (h_mem : Piece.mem ∈ L) (h_flights : Piece.flights ∈ L)
    (h_arrs : Piece.arrs ∈ L) (h_yard : Piece.yard ∈ L) (h_retrain : Piece.retrain ∈ L) (h_accs : Piece.accs ∈ L)
    (h_nextTag : Piece.nextTag ∈ L) (h_ports : Piece.ports ∈ L) (h_evr : Piece.evr ∈ L) (h_freeCtr : Piece.freeCtr ∈ L) (hf : ∀ t,
    Reach L a t → Reach L a (x5 t)) (h : Reach L a s) : Reach L a (drainTile x0 x1 x2 x3 x4 x5 s) := by
  unfold drainTile
  with_reducible repeat'
    (first | assumption | intro _ | extract_lets | apply failTiles_reach | apply readThen_reach | apply stageTile_reach |
      apply Reach.foldl | apply Reach.ite | split | apply hf | (dsimp +zetaDelta only))

theorem tileDrain_reach {L a s x0} (h_yrd_regs : Piece.regs .yrd ∈ L) (h_mem_regs : Piece.regs .mem ∈ L)
    (h_lpd_regs : Piece.regs .lpd ∈ L) (h_mce_regs : Piece.regs .mce ∈ L) (h_sec_regs : Piece.regs .sec ∈ L)
    (h_ras_regs : Piece.regs .ras ∈ L) (h_evr_regs : Piece.regs .evr ∈ L) (h_mem : Piece.mem ∈ L) (h_flights : Piece.flights ∈ L)
    (h_arrs : Piece.arrs ∈ L) (h_yard : Piece.yard ∈ L) (h_retrain : Piece.retrain ∈ L) (h_accs : Piece.accs ∈ L)
    (h_nextTag : Piece.nextTag ∈ L) (h_ports : Piece.ports ∈ L) (h_evr : Piece.evr ∈ L) (h_freeCtr : Piece.freeCtr ∈ L)
    (h : Reach L a s) : Reach L a (tileDrain x0 s) := by
  unfold tileDrain
  with_reducible repeat'
    (first | assumption | intro _ | extract_lets | apply setArr_reach | apply advance_reach | apply drainTile_reach |
      apply passOver_reach | apply ReachP.ite | apply ReachP.foldl | apply ReachP.out | apply Reach.foldl | apply Reach.ite |
      split | (simp only [ReachP.pair_iff]) | (dsimp +zetaDelta only))

theorem takeChunk_reach {L a s x0 x1 x2 x3} (h_arrs : Piece.arrs ∈ L) (h : Reach L a s) : Reach L a (takeChunk x0 x1 x2 x3 s)
    := by
  unfold takeChunk
  with_reducible repeat'
    (first | assumption | intro _ | extract_lets | apply setArr_reach | apply advance_reach | apply Reach.foldl |
      apply Reach.ite | split | (dsimp +zetaDelta only))

theorem chunkDelivery_reach {L a s x0 x1} (h_tpl_regs : Piece.regs .tpl ∈ L) (h_yrd_regs : Piece.regs .yrd ∈ L)
    (h_mem_regs : Piece.regs .mem ∈ L) (h_lpd_regs : Piece.regs .lpd ∈ L) (h_mce_regs : Piece.regs .mce ∈ L)
    (h_sec_regs : Piece.regs .sec ∈ L) (h_ras_regs : Piece.regs .ras ∈ L) (h_evr_regs : Piece.regs .evr ∈ L)
    (h_flights : Piece.flights ∈ L) (h_arrs : Piece.arrs ∈ L) (h_yard : Piece.yard ∈ L) (h_retrain : Piece.retrain ∈ L)
    (h_accs : Piece.accs ∈ L) (h_nextTag : Piece.nextTag ∈ L) (h_ports : Piece.ports ∈ L) (h_evr : Piece.evr ∈ L)
    (h_freeCtr : Piece.freeCtr ∈ L) (h : Reach L a s) : Reach L a (chunkDelivery x0 x1 s) := by
  unfold chunkDelivery
  with_reducible repeat'
    (first | assumption | intro _ | extract_lets | apply takeChunk_reach | apply failTiles_reach | apply readThen_reach |
      apply tplInc_reach | apply Reach.foldl | apply Reach.ite | split | (dsimp +zetaDelta only))

theorem raiseArrays_reach {L a s x0 x1 x2 x3} (h_ras_regs : Piece.regs .ras ∈ L) (h_evr_regs : Piece.regs .evr ∈ L)
    (h_evr : Piece.evr ∈ L) (h_freeCtr : Piece.freeCtr ∈ L) (h : Reach L a s) : Reach L a (raiseArrays x0 x1 x2 x3 s) := by
  unfold raiseArrays
  with_reducible repeat'
    (first | assumption | intro _ | extract_lets | apply raiseV_reach | apply ReachP.ite | apply ReachP.foldl |
      apply ReachP.out | apply Reach.foldl | apply Reach.ite | split | (simp only [ReachP.pair_iff]) | (dsimp +zetaDelta only))

theorem tilesDone_reach {L a s x0} (h_ras_regs : Piece.regs .ras ∈ L) (h_evr_regs : Piece.regs .evr ∈ L)
    (h_flights : Piece.flights ∈ L) (h_arrs : Piece.arrs ∈ L) (h_evr : Piece.evr ∈ L) (h_freeCtr : Piece.freeCtr ∈ L)
    (h : Reach L a s) : Reach L a (tilesDone x0 s) := by
  unfold tilesDone
  with_reducible repeat'
    (first | assumption | intro _ | extract_lets | apply raiseArrays_reach | apply updFlight_reach | apply finish_reach |
      apply raiseV_reach | apply countCode_reach | apply clearArrays_reach | apply wh_reach | apply raiseMismatches_reach |
      apply Reach.foldl | apply Reach.ite | split | (exact ⟨fun h => h, fun h => h⟩) |
      (refine ⟨fun _ e => ?_, fun h => h⟩; cases e) | (dsimp +zetaDelta only))

theorem stagingAck_reach {L a s x0} (h_yrd_regs : Piece.regs .yrd ∈ L) (h_mem_regs : Piece.regs .mem ∈ L)
    (h_lpd_regs : Piece.regs .lpd ∈ L) (h_mce_regs : Piece.regs .mce ∈ L) (h_sec_regs : Piece.regs .sec ∈ L)
    (h_ras_regs : Piece.regs .ras ∈ L) (h_evr_regs : Piece.regs .evr ∈ L) (h_mem : Piece.mem ∈ L) (h_flights : Piece.flights ∈ L)
    (h_arrs : Piece.arrs ∈ L) (h_yard : Piece.yard ∈ L) (h_retrain : Piece.retrain ∈ L) (h_accs : Piece.accs ∈ L)
    (h_nextTag : Piece.nextTag ∈ L) (h_ports : Piece.ports ∈ L) (h_mce : Piece.mce ∈ L) (h_evr : Piece.evr ∈ L)
    (h_freeCtr : Piece.freeCtr ∈ L) (h : Reach L a s) : Reach L a (stagingAck x0 s) := by
  unfold stagingAck
  with_reducible repeat'
    (first | assumption | intro _ | extract_lets | (refine ReachP.use (by assumption) ?_) | apply setArr_reach |
      apply proceed_reach | apply setTiles_reach | apply writeAll_reach | apply tilesDone_reach | apply failTiles_reach |
      apply noteWait_reach | apply ReachP.ite | apply ReachP.foldl | apply ReachP.out | apply Reach.foldl | apply Reach.ite |
      split | (simp only [ReachP.pair_iff]) | (dsimp +zetaDelta only))

theorem endRun_reach {L a s x0 x1 x2 x3} (h_arrs : Piece.arrs ∈ L) (h : Reach L a s) : Reach L a (endRun x0 x1 x2 x3 s) := by
  unfold endRun
  with_reducible repeat'
    (first | assumption | intro _ | extract_lets | apply setArr_reach | apply countFreezes_reach | apply Reach.foldl |
      apply Reach.ite | split | (dsimp +zetaDelta only))

theorem endRunFree_reach {L a s x0} (h_arrs : Piece.arrs ∈ L) (h_freeCtr : Piece.freeCtr ∈ L) (h : Reach L a s) : Reach L a
    (endRunFree x0 s) := by
  unfold endRunFree
  with_reducible repeat'
    (first | assumption | intro _ | extract_lets | apply endRun_reach | apply tickFree_reach | apply wh_reach |
      apply Reach.foldl | apply Reach.ite | split | (dsimp +zetaDelta only))

theorem countRun_reach {L a s x0 x1} (h_arrs : Piece.arrs ∈ L) (h_freeCtr : Piece.freeCtr ∈ L) (h : Reach L a s) : Reach L a
    (countRun x0 x1 s) := by
  unfold countRun
  with_reducible repeat'
    (first | assumption | intro _ | extract_lets | apply countFree_reach | apply countBusy_reach | apply Reach.foldl |
      apply Reach.ite | split | (dsimp +zetaDelta only))

theorem recompute_reach {L a s x0 x1 x2 x3 x4} (h_tpl_regs : Piece.regs .tpl ∈ L) (h_ras_regs : Piece.regs .ras ∈ L)
    (h_evr_regs : Piece.regs .evr ∈ L) (h_flights : Piece.flights ∈ L) (h_arrs : Piece.arrs ∈ L) (h_evr : Piece.evr ∈ L)
    (h_freeCtr : Piece.freeCtr ∈ L) (h : Reach L a s) : Reach L a (recompute x0 x1 x2 x3 x4 s) := by
  unfold recompute
  with_reducible repeat'
    (first | assumption | intro _ | extract_lets | apply setArr_reach | apply countStall_reach | apply setTiles_reach |
      apply tilesDone_reach | apply raiseV_reach | apply arrCount_reach | apply tplInc_reach | apply countRun_reach |
      apply countTile_reach | apply wh_reach | apply ReachP.ite | apply ReachP.foldl | apply ReachP.out | apply Reach.foldl |
      apply Reach.ite | split | (simp only [ReachP.pair_iff]) | (dsimp +zetaDelta only))

theorem shadowStep_reach {L a s x0} (h_tpl_regs : Piece.regs .tpl ∈ L) (h_yrd_regs : Piece.regs .yrd ∈ L)
    (h_mem_regs : Piece.regs .mem ∈ L) (h_lpd_regs : Piece.regs .lpd ∈ L) (h_mce_regs : Piece.regs .mce ∈ L)
    (h_sec_regs : Piece.regs .sec ∈ L) (h_ras_regs : Piece.regs .ras ∈ L) (h_evr_regs : Piece.regs .evr ∈ L)
    (h_flights : Piece.flights ∈ L) (h_arrs : Piece.arrs ∈ L) (h_yard : Piece.yard ∈ L) (h_retrain : Piece.retrain ∈ L)
    (h_accs : Piece.accs ∈ L) (h_nextTag : Piece.nextTag ∈ L) (h_ports : Piece.ports ∈ L) (h_evr : Piece.evr ∈ L)
    (h_freeCtr : Piece.freeCtr ∈ L) (h : Reach L a s) : Reach L a (shadowStep x0 s) := by
  unfold shadowStep
  with_reducible repeat'
    (first | assumption | intro _ | extract_lets | apply failTiles_reach | apply readThen_reach | apply recompute_reach |
      apply ReachP.ite | apply ReachP.foldl | apply ReachP.out | apply Reach.foldl | apply Reach.ite | split |
      (simp only [ReachP.pair_iff]) | (dsimp +zetaDelta only))

theorem partialCombine_reach {L a s x0} (h_yrd_regs : Piece.regs .yrd ∈ L) (h_mem_regs : Piece.regs .mem ∈ L)
    (h_lpd_regs : Piece.regs .lpd ∈ L) (h_mce_regs : Piece.regs .mce ∈ L) (h_sec_regs : Piece.regs .sec ∈ L)
    (h_ras_regs : Piece.regs .ras ∈ L) (h_evr_regs : Piece.regs .evr ∈ L) (h_mem : Piece.mem ∈ L) (h_flights : Piece.flights ∈ L)
    (h_arrs : Piece.arrs ∈ L) (h_yard : Piece.yard ∈ L) (h_retrain : Piece.retrain ∈ L) (h_accs : Piece.accs ∈ L)
    (h_nextTag : Piece.nextTag ∈ L) (h_ports : Piece.ports ∈ L) (h_evr : Piece.evr ∈ L) (h_freeCtr : Piece.freeCtr ∈ L)
    (h : Reach L a s) : Reach L a (partialCombine x0 s) := by
  unfold partialCombine
  with_reducible repeat'
    (first | assumption | intro _ | extract_lets | apply setArr_reach | apply drainTile_reach | apply passOver_reach |
      apply ReachP.ite | apply ReachP.foldl | apply ReachP.out | apply Reach.foldl | apply Reach.ite | split |
      (simp only [ReachP.pair_iff]) | (dsimp +zetaDelta only))

theorem tileRound_reach {L a s x0} (h_dsp_regs : Piece.regs .dsp ∈ L) (h_tpl_regs : Piece.regs .tpl ∈ L)
    (h_yrd_regs : Piece.regs .yrd ∈ L) (h_mem_regs : Piece.regs .mem ∈ L) (h_lpd_regs : Piece.regs .lpd ∈ L)
    (h_mce_regs : Piece.regs .mce ∈ L) (h_sec_regs : Piece.regs .sec ∈ L) (h_clk_regs : Piece.regs .clk ∈ L)
    (h_ras_regs : Piece.regs .ras ∈ L) (h_evr_regs : Piece.regs .evr ∈ L) (h_mem : Piece.mem ∈ L) (h_flights : Piece.flights ∈ L)
    (h_arrs : Piece.arrs ∈ L) (h_yard : Piece.yard ∈ L) (h_retrain : Piece.retrain ∈ L) (h_accs : Piece.accs ∈ L)
    (h_nextTag : Piece.nextTag ∈ L) (h_ports : Piece.ports ∈ L) (h_mce : Piece.mce ∈ L) (h_evr : Piece.evr ∈ L)
    (h_freeCtr : Piece.freeCtr ∈ L) (h : Reach L a s) : Reach L a (tileRound x0 s) := by
  unfold tileRound
  with_reducible repeat'
    (first | assumption | intro _ | extract_lets | apply runStart_reach | apply tileDrain_reach | apply chunkDelivery_reach |
      apply stagingAck_reach | apply endRunFree_reach | apply preloadStall_reach | apply shadowStep_reach |
      apply partialCombine_reach | apply ReachP.ite | apply ReachP.foldl | apply ReachP.out | apply Reach.foldl |
      apply Reach.ite | split | (simp only [ReachP.pair_iff]) | (dsimp +zetaDelta only))

theorem tileRounds_reach {L a s x0 x1} (h_dsp_regs : Piece.regs .dsp ∈ L) (h_tpl_regs : Piece.regs .tpl ∈ L)
    (h_yrd_regs : Piece.regs .yrd ∈ L) (h_mem_regs : Piece.regs .mem ∈ L) (h_lpd_regs : Piece.regs .lpd ∈ L)
    (h_mce_regs : Piece.regs .mce ∈ L) (h_sec_regs : Piece.regs .sec ∈ L) (h_clk_regs : Piece.regs .clk ∈ L)
    (h_ras_regs : Piece.regs .ras ∈ L) (h_evr_regs : Piece.regs .evr ∈ L) (h_mem : Piece.mem ∈ L) (h_flights : Piece.flights ∈ L)
    (h_arrs : Piece.arrs ∈ L) (h_yard : Piece.yard ∈ L) (h_retrain : Piece.retrain ∈ L) (h_accs : Piece.accs ∈ L)
    (h_nextTag : Piece.nextTag ∈ L) (h_ports : Piece.ports ∈ L) (h_mce : Piece.mce ∈ L) (h_evr : Piece.evr ∈ L)
    (h_freeCtr : Piece.freeCtr ∈ L) (h : Reach L a s) : Reach L a (tileRounds x0 x1 s) := by
  induction x1 generalizing x0 s
  case zero =>
    rw [tileRounds]
    with_reducible repeat'
      (first | assumption | apply ih | intro _ | extract_lets | apply tileRound_reach | apply Reach.foldl | apply Reach.ite |
        split | (dsimp +zetaDelta only))
  case succ n ih =>
    rw [tileRounds]
    with_reducible repeat'
      (first | assumption | apply ih | intro _ | extract_lets | apply tileRound_reach | apply Reach.foldl | apply Reach.ite |
        split | (dsimp +zetaDelta only))

theorem zeroTiles_reach {L a s x0} (h_yrd_regs : Piece.regs .yrd ∈ L) (h_mem_regs : Piece.regs .mem ∈ L)
    (h_lpd_regs : Piece.regs .lpd ∈ L) (h_mce_regs : Piece.regs .mce ∈ L) (h_sec_regs : Piece.regs .sec ∈ L)
    (h_ras_regs : Piece.regs .ras ∈ L) (h_evr_regs : Piece.regs .evr ∈ L) (h_mem : Piece.mem ∈ L) (h_flights : Piece.flights ∈ L)
    (h_arrs : Piece.arrs ∈ L) (h_yard : Piece.yard ∈ L) (h_retrain : Piece.retrain ∈ L) (h_accs : Piece.accs ∈ L)
    (h_nextTag : Piece.nextTag ∈ L) (h_ports : Piece.ports ∈ L) (h_mce : Piece.mce ∈ L) (h_evr : Piece.evr ∈ L)
    (h_freeCtr : Piece.freeCtr ∈ L) (h : Reach L a s) : Reach L a (zeroTiles x0 s) := by
  unfold zeroTiles
  with_reducible repeat'
    (first | assumption | intro _ | extract_lets | apply drainTile_reach | apply stagingAck_reach | apply countTile_reach |
      apply ReachP.ite | apply ReachP.foldl | apply ReachP.out | apply Reach.foldl | apply Reach.ite | split |
      (simp only [ReachP.pair_iff]) | (dsimp +zetaDelta only))

theorem notePlan_reach {L a s x0 x1 x2 x3} (h_dsp_regs : Piece.regs .dsp ∈ L) (h : Reach L a s) : Reach L a
    (notePlan x0 x1 x2 x3 s) := by
  unfold notePlan
  with_reducible repeat'
    (first | assumption | intro _ | extract_lets | apply st_reach | apply Reach.foldl | apply Reach.ite | split |
      (dsimp +zetaDelta only))

theorem plannerTake_reach {L a s} (h_dsp_regs : Piece.regs .dsp ∈ L) (h_tpl_regs : Piece.regs .tpl ∈ L)
    (h_yrd_regs : Piece.regs .yrd ∈ L) (h_mem_regs : Piece.regs .mem ∈ L) (h_lpd_regs : Piece.regs .lpd ∈ L)
    (h_mce_regs : Piece.regs .mce ∈ L) (h_sec_regs : Piece.regs .sec ∈ L) (h_ras_regs : Piece.regs .ras ∈ L)
    (h_evr_regs : Piece.regs .evr ∈ L) (h_flights : Piece.flights ∈ L) (h_planners : Piece.planners ∈ L) (h_arrs : Piece.arrs ∈ L)
    (h_yard : Piece.yard ∈ L) (h_retrain : Piece.retrain ∈ L) (h_accs : Piece.accs ∈ L) (h_nextTag : Piece.nextTag ∈ L)
    (h_ports : Piece.ports ∈ L) (h_evr : Piece.evr ∈ L) (h_freeCtr : Piece.freeCtr ∈ L) (h : Reach L a s) : Reach L a
    (plannerTake s) := by
  unfold plannerTake
  with_reducible repeat'
    (first | assumption | intro _ | extract_lets | apply drainRead_reach | apply setTiles_reach | apply updFlight_reach |
      apply st_reach | apply inc_reach | apply notePlan_reach | apply wh_reach | apply Reach.foldl | apply Reach.ite | split |
      apply Reach.planners | (exact ⟨fun h => h, fun h => h⟩) | (refine ⟨fun _ e => ?_, fun h => h⟩; cases e) |
      (dsimp +zetaDelta only))

theorem takeUntil_reach {L a s x0 x1} (h_dsp_regs : Piece.regs .dsp ∈ L) (h_tpl_regs : Piece.regs .tpl ∈ L)
    (h_yrd_regs : Piece.regs .yrd ∈ L) (h_mem_regs : Piece.regs .mem ∈ L) (h_lpd_regs : Piece.regs .lpd ∈ L)
    (h_mce_regs : Piece.regs .mce ∈ L) (h_sec_regs : Piece.regs .sec ∈ L) (h_ras_regs : Piece.regs .ras ∈ L)
    (h_evr_regs : Piece.regs .evr ∈ L) (h_flights : Piece.flights ∈ L) (h_planners : Piece.planners ∈ L) (h_arrs : Piece.arrs ∈ L)
    (h_yard : Piece.yard ∈ L) (h_retrain : Piece.retrain ∈ L) (h_accs : Piece.accs ∈ L) (h_nextTag : Piece.nextTag ∈ L)
    (h_ports : Piece.ports ∈ L) (h_evr : Piece.evr ∈ L) (h_freeCtr : Piece.freeCtr ∈ L) (h : Reach L a s) : Reach L a
    (takeUntil x0 x1 s) := by
  induction x1 generalizing x0 s
  case zero =>
    rw [takeUntil]
    with_reducible repeat'
      (first | assumption | apply ih | intro _ | extract_lets | apply plannerTake_reach | apply Reach.foldl |
        apply Reach.ite | split | (dsimp +zetaDelta only))
  case succ n ih =>
    rw [takeUntil]
    with_reducible repeat'
      (first | assumption | apply ih | intro _ | extract_lets | apply plannerTake_reach | apply Reach.foldl |
        apply Reach.ite | split | (dsimp +zetaDelta only))

theorem tileGo_reach {L a s x0 x1} (h_dsp_regs : Piece.regs .dsp ∈ L) (h_tpl_regs : Piece.regs .tpl ∈ L)
    (h_yrd_regs : Piece.regs .yrd ∈ L) (h_mem_regs : Piece.regs .mem ∈ L) (h_lpd_regs : Piece.regs .lpd ∈ L)
    (h_mce_regs : Piece.regs .mce ∈ L) (h_sec_regs : Piece.regs .sec ∈ L) (h_clk_regs : Piece.regs .clk ∈ L)
    (h_ras_regs : Piece.regs .ras ∈ L) (h_evr_regs : Piece.regs .evr ∈ L) (h_mem : Piece.mem ∈ L) (h_flights : Piece.flights ∈ L)
    (h_planners : Piece.planners ∈ L) (h_arrs : Piece.arrs ∈ L) (h_yard : Piece.yard ∈ L) (h_retrain : Piece.retrain ∈ L)
    (h_accs : Piece.accs ∈ L) (h_nextTag : Piece.nextTag ∈ L) (h_ports : Piece.ports ∈ L) (h_mce : Piece.mce ∈ L)
    (h_evr : Piece.evr ∈ L) (h_freeCtr : Piece.freeCtr ∈ L) (h : Reach L a s) : Reach L a (tileGo x0 x1 s) := by
  unfold tileGo
  with_reducible repeat'
    (first | assumption | intro _ | extract_lets | apply tileRounds_reach | apply drainRead_reach | apply zeroTiles_reach |
      apply takeUntil_reach | apply Reach.foldl | apply Reach.ite | split | (dsimp +zetaDelta only))

theorem convGo_reach {L a s x0} (h_dsp_regs : Piece.regs .dsp ∈ L) (h_tpl_regs : Piece.regs .tpl ∈ L)
    (h_yrd_regs : Piece.regs .yrd ∈ L) (h_mem_regs : Piece.regs .mem ∈ L) (h_lpd_regs : Piece.regs .lpd ∈ L)
    (h_mce_regs : Piece.regs .mce ∈ L) (h_sec_regs : Piece.regs .sec ∈ L) (h_clk_regs : Piece.regs .clk ∈ L)
    (h_ras_regs : Piece.regs .ras ∈ L) (h_evr_regs : Piece.regs .evr ∈ L) (h_mem : Piece.mem ∈ L) (h_flights : Piece.flights ∈ L)
    (h_planners : Piece.planners ∈ L) (h_arrs : Piece.arrs ∈ L) (h_stks : Piece.stks ∈ L) (h_yard : Piece.yard ∈ L)
    (h_retrain : Piece.retrain ∈ L) (h_accs : Piece.accs ∈ L) (h_nextTag : Piece.nextTag ∈ L) (h_ports : Piece.ports ∈ L)
    (h_mce : Piece.mce ∈ L) (h_evr : Piece.evr ∈ L) (h_freeCtr : Piece.freeCtr ∈ L) (h : Reach L a s) : Reach L a (convGo x0 s) :=
    by
  unfold convGo
  with_reducible repeat'
    (first | assumption | intro _ | extract_lets | apply poolGo_reach | apply tileGo_reach | apply Reach.foldl |
      apply Reach.ite | split | (dsimp +zetaDelta only))

theorem checkRounds_reach {L a s x0 x1} (h_tpl_regs : Piece.regs .tpl ∈ L) (h_yrd_regs : Piece.regs .yrd ∈ L)
    (h_mem_regs : Piece.regs .mem ∈ L) (h_lpd_regs : Piece.regs .lpd ∈ L) (h_mce_regs : Piece.regs .mce ∈ L)
    (h_sec_regs : Piece.regs .sec ∈ L) (h_ras_regs : Piece.regs .ras ∈ L) (h_evr_regs : Piece.regs .evr ∈ L)
    (h_flights : Piece.flights ∈ L) (h_arrs : Piece.arrs ∈ L) (h_yard : Piece.yard ∈ L) (h_retrain : Piece.retrain ∈ L)
    (h_accs : Piece.accs ∈ L) (h_nextTag : Piece.nextTag ∈ L) (h_ports : Piece.ports ∈ L) (h_evr : Piece.evr ∈ L)
    (h_freeCtr : Piece.freeCtr ∈ L) (h : Reach L a s) : Reach L a (checkRounds x0 x1 s) := by
  induction x1 generalizing x0 s
  case zero =>
    rw [checkRounds]
    with_reducible repeat'
      (first | assumption | apply ih | intro _ | extract_lets | apply shadowStep_reach | apply Reach.foldl | apply Reach.ite |
        split | (dsimp +zetaDelta only))
  case succ n ih =>
    rw [checkRounds]
    with_reducible repeat'
      (first | assumption | apply ih | intro _ | extract_lets | apply shadowStep_reach | apply Reach.foldl | apply Reach.ite |
        split | (dsimp +zetaDelta only))

theorem checkStart_reach {L a s x0} (h_flights : Piece.flights ∈ L) (h : Reach L a s) : Reach L a (checkStart x0 s) := by
  unfold checkStart
  with_reducible repeat'
    (first | assumption | intro _ | extract_lets | apply setTiles_reach | apply updFlight_reach | apply finish_reach |
      apply Reach.foldl | apply Reach.ite | split | (exact ⟨fun h => h, fun h => h⟩) |
      (refine ⟨fun _ e => ?_, fun h => h⟩; cases e) | (dsimp +zetaDelta only))

theorem checkGo_reach {L a s x0} (h_tpl_regs : Piece.regs .tpl ∈ L) (h_yrd_regs : Piece.regs .yrd ∈ L)
    (h_mem_regs : Piece.regs .mem ∈ L) (h_lpd_regs : Piece.regs .lpd ∈ L) (h_mce_regs : Piece.regs .mce ∈ L)
    (h_sec_regs : Piece.regs .sec ∈ L) (h_ras_regs : Piece.regs .ras ∈ L) (h_evr_regs : Piece.regs .evr ∈ L)
    (h_flights : Piece.flights ∈ L) (h_arrs : Piece.arrs ∈ L) (h_yard : Piece.yard ∈ L) (h_retrain : Piece.retrain ∈ L)
    (h_accs : Piece.accs ∈ L) (h_nextTag : Piece.nextTag ∈ L) (h_ports : Piece.ports ∈ L) (h_evr : Piece.evr ∈ L)
    (h_freeCtr : Piece.freeCtr ∈ L) (h : Reach L a s) : Reach L a (checkGo x0 s) := by
  unfold checkGo
  with_reducible repeat'
    (first | assumption | intro _ | extract_lets | apply drainRead_reach | apply tilesDone_reach | apply checkRounds_reach |
      apply checkStart_reach | apply Reach.foldl | apply Reach.ite | split | (dsimp +zetaDelta only))

theorem tplReset_reach {L a s x0} (h_tpl_regs : Piece.regs .tpl ∈ L) (h : Reach L a s) : Reach L a (tplReset x0 s) := by
  unfold tplReset
  with_reducible repeat'
    (first | assumption | intro _ | extract_lets | apply st_reach | apply Reach.foldl | apply Reach.ite | split |
      (dsimp +zetaDelta only))

theorem tplClear_reach {L a s x0 x1} (h_tpl_regs : Piece.regs .tpl ∈ L) (h_bus : Piece.bus ∈ L) (h : Reach L a s) : Reach L a
    (tplClear x0 x1 s) := by
  unfold tplClear
  with_reducible repeat'
    (first | assumption | intro _ | extract_lets | apply tplReset_reach | apply Reach.foldl | apply Reach.ite | split |
      apply Reach.bus | (dsimp +zetaDelta only))

theorem arrClearCnt_reach {L a s x0} (h_arrs : Piece.arrs ∈ L) (h : Reach L a s) : Reach L a (arrClearCnt x0 s) := by
  unfold arrClearCnt
  with_reducible repeat'
    (first | assumption | intro _ | extract_lets | apply setArr_reach | apply Reach.foldl | apply Reach.ite | split |
      (dsimp +zetaDelta only))

theorem arrSnapshot_reach {L a s x0} (h_arr_regs : Piece.regs .arr ∈ L) (h : Reach L a s) : Reach L a (arrSnapshot x0 s) := by
  unfold arrSnapshot
  with_reducible repeat'
    (first | assumption | intro _ | extract_lets | apply st_reach | apply Reach.foldl | apply Reach.ite | split |
      (dsimp +zetaDelta only))

theorem arrCtrl_reach {L a s x0 x1 x2 x3} (h_arr_regs : Piece.regs .arr ∈ L) (h_bus : Piece.bus ∈ L) (h_arrs : Piece.arrs ∈ L)
    (h : Reach L a s) : Reach L a (arrCtrl x0 x1 x2 x3 s) := by
  unfold arrCtrl
  with_reducible repeat'
    (first | assumption | intro _ | extract_lets | apply arrClearCnt_reach | apply arrSnapshot_reach | apply wh_reach |
      apply Reach.foldl | apply Reach.ite | split | apply Reach.bus | (dsimp +zetaDelta only))

theorem tileReplay_reach {L a s x0} (h_flights : Piece.flights ∈ L) (h : Reach L a s) : Reach L a (tileReplay x0 s) := by
  unfold tileReplay
  with_reducible repeat'
    (first | assumption | intro _ | extract_lets | apply setTiles_reach | apply Reach.foldl | apply Reach.ite | split |
      (dsimp +zetaDelta only))

end Sys2Proof.Machine
end

