-- ==== Sys2Proof/Laws/ReachKvs.lean ====
section
/-!
SUPPORT. What each operation of Machine/Kvs.lean can change.
-/
namespace Sys2Proof.Machine

set_option linter.unusedTactic false
set_option linter.unreachableTactic false
set_option linter.unusedSimpArgs false

theorem kvPut_reach {L a x0 x1 x2 x3 x4 r} (h_yrd_regs : Piece.regs .yrd ∈ L) (h_mem_regs : Piece.regs .mem ∈ L)
    (h_lpd_regs : Piece.regs .lpd ∈ L) (h_mce_regs : Piece.regs .mce ∈ L) (h_sec_regs : Piece.regs .sec ∈ L)
    (h_ras_regs : Piece.regs .ras ∈ L) (h_evr_regs : Piece.regs .evr ∈ L) (h_mem : Piece.mem ∈ L) (h_yard : Piece.yard ∈ L)
    (h_accs : Piece.accs ∈ L) (h_nextTag : Piece.nextTag ∈ L) (h_ports : Piece.ports ∈ L) (h_mce : Piece.mce ∈ L)
    (h_evr : Piece.evr ∈ L) (h_freeCtr : Piece.freeCtr ∈ L) (h : ReachP L a r) : ReachP L a (kvPut x0 x1 x2 x3 x4 r) := by
  unfold kvPut
  with_reducible repeat'
    (first | assumption | intro _ | extract_lets | (refine ReachP.use (by assumption) ?_) | apply tryWrite_reach |
      apply ReachP.ite | apply ReachP.foldl | apply ReachP.out | apply Reach.foldl | apply Reach.ite | split |
      (simp only [ReachP.pair_iff]) | (dsimp +zetaDelta only))

theorem kvLeafPut_reach {L a x0 x1 x2 x3 r} (h_yrd_regs : Piece.regs .yrd ∈ L) (h_mem_regs : Piece.regs .mem ∈ L)
    (h_lpd_regs : Piece.regs .lpd ∈ L) (h_mce_regs : Piece.regs .mce ∈ L) (h_sec_regs : Piece.regs .sec ∈ L)
    (h_ras_regs : Piece.regs .ras ∈ L) (h_evr_regs : Piece.regs .evr ∈ L) (h_mem : Piece.mem ∈ L) (h_yard : Piece.yard ∈ L)
    (h_accs : Piece.accs ∈ L) (h_nextTag : Piece.nextTag ∈ L) (h_ports : Piece.ports ∈ L) (h_mce : Piece.mce ∈ L)
    (h_evr : Piece.evr ∈ L) (h_freeCtr : Piece.freeCtr ∈ L) (h : ReachP L a r) : ReachP L a (kvLeafPut x0 x1 x2 x3 r) := by
  unfold kvLeafPut
  with_reducible repeat'
    (first | assumption | intro _ | extract_lets | (refine ReachP.use (by assumption) ?_) | apply tryWrite_reach |
      apply ReachP.ite | apply ReachP.foldl | apply ReachP.out | apply Reach.foldl | apply Reach.ite | split |
      (simp only [ReachP.pair_iff]) | (dsimp +zetaDelta only))

theorem kvRead_reach {L a x0 x1 r} (h : ReachP L a r) : ReachP L a (kvRead x0 x1 r) := by
  unfold kvRead
  with_reducible repeat'
    (first | assumption | intro _ | extract_lets | (refine ReachP.use (by assumption) ?_) | apply tryRead_reach |
      apply ReachP.ite | apply ReachP.foldl | apply ReachP.out | apply Reach.foldl | apply Reach.ite | split |
      (simp only [ReachP.pair_iff]) | (dsimp +zetaDelta only))

theorem labTake_reach {L a s x0 x1 x2} (h_lab : Piece.lab ∈ L) (h_freeCtr : Piece.freeCtr ∈ L) (h : Reach L a s) : Reach L a
    (labTake x0 x1 x2 s) := by
  unfold labTake
  with_reducible repeat'
    (first | assumption | intro _ | extract_lets | apply tickFree_reach | apply Reach.foldl | apply Reach.ite | split |
      apply Reach.lab | (dsimp +zetaDelta only))

theorem kvWalk_reach {L a x0 x1 x2 r} (h_lab : Piece.lab ∈ L) (h_freeCtr : Piece.freeCtr ∈ L) (h : ReachP L a r) : ReachP L a
    (kvWalk x0 x1 x2 r) := by
  unfold kvWalk
  with_reducible repeat'
    (first | assumption | intro _ | extract_lets | (refine ReachP.use (by assumption) ?_) | apply tryDo_reach |
      apply tryRead_reach | apply labTake_reach | apply ReachP.ite | apply ReachP.foldl | apply ReachP.out | apply Reach.foldl |
      apply Reach.ite | split | (simp only [ReachP.pair_iff]) | (dsimp +zetaDelta only))

theorem kvLook_reach {L a x0 x1 x2 r} (h_kvs_regs : Piece.regs .kvs ∈ L) (h_lab : Piece.lab ∈ L)
    (h_freeCtr : Piece.freeCtr ∈ L) (h : ReachP L a r) : ReachP L a (kvLook x0 x1 x2 r) := by
  unfold kvLook
  with_reducible repeat'
    (first | assumption | intro _ | extract_lets | (refine ReachP.use (by assumption) ?_) | apply tryDo_reach |
      apply kvWalk_reach | apply inc_reach | apply ReachP.ite | apply ReachP.foldl | apply ReachP.out | apply Reach.foldl |
      apply Reach.ite | split | (simp only [ReachP.pair_iff]) | (dsimp +zetaDelta only))

theorem kvLooks_reach {L a x0 x1 x2 r} (h_kvs_regs : Piece.regs .kvs ∈ L) (h_lab : Piece.lab ∈ L)
    (h_freeCtr : Piece.freeCtr ∈ L) (h : ReachP L a r) : ReachP L a (kvLooks x0 x1 x2 r) := by
  unfold kvLooks
  with_reducible repeat'
    (first | assumption | intro _ | extract_lets | (refine ReachP.use (by assumption) ?_) | apply kvLook_reach |
      apply ReachP.ite | apply ReachP.foldl | apply ReachP.out | apply Reach.foldl | apply Reach.ite | split |
      (simp only [ReachP.pair_iff]) | (dsimp +zetaDelta only))

theorem kvAppend_reach {L a x0 x1 x2 x3 x4 r} (h_tok_regs : Piece.regs .tok ∈ L) (h_yrd_regs : Piece.regs .yrd ∈ L)
    (h_mem_regs : Piece.regs .mem ∈ L) (h_lpd_regs : Piece.regs .lpd ∈ L) (h_mce_regs : Piece.regs .mce ∈ L)
    (h_kvs_regs : Piece.regs .kvs ∈ L) (h_sec_regs : Piece.regs .sec ∈ L) (h_ras_regs : Piece.regs .ras ∈ L)
    (h_evr_regs : Piece.regs .evr ∈ L) (h_mem : Piece.mem ∈ L) (h_toks : Piece.toks ∈ L) (h_flights : Piece.flights ∈ L)
    (h_stks : Piece.stks ∈ L) (h_yard : Piece.yard ∈ L) (h_accs : Piece.accs ∈ L) (h_nextTag : Piece.nextTag ∈ L)
    (h_lab : Piece.lab ∈ L) (h_ports : Piece.ports ∈ L) (h_mce : Piece.mce ∈ L) (h_evr : Piece.evr ∈ L)
    (h_freeCtr : Piece.freeCtr ∈ L) (h : ReachP L a r) : ReachP L a (kvAppend x0 x1 x2 x3 x4 r).1 := by
  unfold kvAppend
  with_reducible repeat'
    (first | assumption | intro _ | extract_lets | (refine ReachP.use (by assumption) ?_) | apply kvLooks_reach |
      apply tryDo_reach | apply kvPut_reach | apply tokAddV_reach | apply settle_reach | apply stkCount_reach |
      apply tryWrite_reach | apply inc_reach | apply wh_reach | apply ReachP.ite | apply ReachP.foldl | apply ReachP.out |
      apply Reach.foldl | apply Reach.ite | split | (simp only [ReachP.pair_iff]) | (dsimp +zetaDelta only))

theorem kvFail_reach {L a s x0} (h_mem_regs : Piece.regs .mem ∈ L) (h_lpd_regs : Piece.regs .lpd ∈ L)
    (h_mce_regs : Piece.regs .mce ∈ L) (h_sec_regs : Piece.regs .sec ∈ L) (h_ras_regs : Piece.regs .ras ∈ L)
    (h_evr_regs : Piece.regs .evr ∈ L) (h_evr : Piece.evr ∈ L) (h_freeCtr : Piece.freeCtr ∈ L) (h : Reach L a s) : ReachP L a
    (kvFail x0 s) := by
  unfold kvFail
  with_reducible repeat'
    (first | assumption | intro _ | extract_lets | apply stopped_reach | apply ReachP.ite | apply ReachP.foldl |
      apply ReachP.out | apply Reach.foldl | apply Reach.ite | split | (simp only [ReachP.pair_iff]) | (dsimp +zetaDelta only))

theorem kvEnd_reach {L a s r x2} (h_mem_regs : Piece.regs .mem ∈ L) (h_lpd_regs : Piece.regs .lpd ∈ L)
    (h_mce_regs : Piece.regs .mce ∈ L) (h_sec_regs : Piece.regs .sec ∈ L) (h_ras_regs : Piece.regs .ras ∈ L)
    (h_evr_regs : Piece.regs .evr ∈ L) (h_evr : Piece.evr ∈ L) (h_freeCtr : Piece.freeCtr ∈ L) (h : Reach L a s)
    (hr : ReachP L a r) : ReachP L a (kvEnd s r x2) := by
  unfold kvEnd
  with_reducible repeat'
    (first | assumption | intro _ | extract_lets | (refine ReachP.use (by assumption) ?_) | apply kvFail_reach |
      apply ReachP.ite | apply ReachP.foldl | apply ReachP.out | apply Reach.foldl | apply Reach.ite | split |
      (simp only [ReachP.pair_iff]) | (dsimp +zetaDelta only))

theorem kvItemRows_reach {L a s x0 x1 x2 x3 x4 r} (h_tok_regs : Piece.regs .tok ∈ L) (h_yrd_regs : Piece.regs .yrd ∈ L)
    (h_mem_regs : Piece.regs .mem ∈ L) (h_lpd_regs : Piece.regs .lpd ∈ L) (h_mce_regs : Piece.regs .mce ∈ L)
    (h_kvs_regs : Piece.regs .kvs ∈ L) (h_sec_regs : Piece.regs .sec ∈ L) (h_ras_regs : Piece.regs .ras ∈ L)
    (h_evr_regs : Piece.regs .evr ∈ L) (h_mem : Piece.mem ∈ L) (h_toks : Piece.toks ∈ L) (h_flights : Piece.flights ∈ L)
    (h_stks : Piece.stks ∈ L) (h_yard : Piece.yard ∈ L) (h_accs : Piece.accs ∈ L) (h_nextTag : Piece.nextTag ∈ L)
    (h_lab : Piece.lab ∈ L) (h_ports : Piece.ports ∈ L) (h_mce : Piece.mce ∈ L) (h_evr : Piece.evr ∈ L)
    (h_freeCtr : Piece.freeCtr ∈ L) (h : Reach L a s) (hr : ReachP L a r) : ReachP L a (kvItemRows x0 x1 x2 x3 x4 s r) := by
  unfold kvItemRows
  with_reducible repeat'
    (first | assumption | intro _ | extract_lets | (refine ReachP.use (by assumption) ?_) | apply kvAppend_reach |
      apply kvEnd_reach | apply ReachP.ite | apply ReachP.foldl | apply ReachP.out | apply Reach.foldl | apply Reach.ite |
      split | (simp only [ReachP.pair_iff]) | (dsimp +zetaDelta only))

theorem kvRefuse_reach {L a s x0} (h : Reach L a s) : ReachP L a (kvRefuse x0 s) := by
  unfold kvRefuse
  with_reducible repeat'
    (first | assumption | intro _ | extract_lets | apply ReachP.ite | apply ReachP.foldl | apply ReachP.out |
      apply Reach.foldl | apply Reach.ite | split | (simp only [ReachP.pair_iff]) | (dsimp +zetaDelta only))

theorem kvParked_reach {L a s r} (h_mem_regs : Piece.regs .mem ∈ L) (h_lpd_regs : Piece.regs .lpd ∈ L)
    (h_mce_regs : Piece.regs .mce ∈ L) (h_sec_regs : Piece.regs .sec ∈ L) (h_ras_regs : Piece.regs .ras ∈ L)
    (h_evr_regs : Piece.regs .evr ∈ L) (h_evr : Piece.evr ∈ L) (h_freeCtr : Piece.freeCtr ∈ L) (h : Reach L a s)
    (hr : ReachP L a r) : ReachP L a (kvParked s r) := by
  unfold kvParked
  with_reducible repeat'
    (first | assumption | intro _ | extract_lets | (refine ReachP.use (by assumption) ?_) | apply kvRefuse_reach |
      apply kvFail_reach | apply ReachP.ite | apply ReachP.foldl | apply ReachP.out | apply Reach.foldl | apply Reach.ite |
      split | (simp only [ReachP.pair_iff]) | (dsimp +zetaDelta only))

theorem kvPark_reach {L a s x0 x1} (h_yrd_regs : Piece.regs .yrd ∈ L) (h_mem_regs : Piece.regs .mem ∈ L)
    (h_lpd_regs : Piece.regs .lpd ∈ L) (h_mce_regs : Piece.regs .mce ∈ L) (h_kvs_regs : Piece.regs .kvs ∈ L)
    (h_sec_regs : Piece.regs .sec ∈ L) (h_ras_regs : Piece.regs .ras ∈ L) (h_evr_regs : Piece.regs .evr ∈ L)
    (h_mem : Piece.mem ∈ L) (h_yard : Piece.yard ∈ L) (h_accs : Piece.accs ∈ L) (h_nextTag : Piece.nextTag ∈ L)
    (h_ports : Piece.ports ∈ L) (h_mce : Piece.mce ∈ L) (h_evr : Piece.evr ∈ L) (h_freeCtr : Piece.freeCtr ∈ L) (h : Reach L a s)
    : ReachP L a (kvPark x0 x1 s) := by
  unfold kvPark
  with_reducible repeat'
    (first | assumption | intro _ | extract_lets | (refine ReachP.use (by assumption) ?_) | apply tryDo_reach |
      apply kvPut_reach | apply kvParked_reach | apply inc_reach | apply ReachP.ite | apply ReachP.foldl | apply ReachP.out |
      apply Reach.foldl | apply Reach.ite | split | (simp only [ReachP.pair_iff]) | (dsimp +zetaDelta only))

theorem setKv_reach {L a s x0 x1} (h_kvs : Piece.kvs ∈ L) (h : Reach L a s) : Reach L a (setKv x0 x1 s) := by
  unfold setKv
  with_reducible repeat'
    (first | assumption | intro _ | extract_lets | apply Reach.foldl | apply Reach.ite | split | apply Reach.kvs |
      apply tabWf_tabSet | apply tabWf_putBytes | apply tabWf_filter | (dsimp +zetaDelta only))

theorem kvDrop_reach {L a x0 x1 x2 r} (h_yrd_regs : Piece.regs .yrd ∈ L) (h_mem_regs : Piece.regs .mem ∈ L)
    (h_lpd_regs : Piece.regs .lpd ∈ L) (h_mce_regs : Piece.regs .mce ∈ L) (h_kvs_regs : Piece.regs .kvs ∈ L)
    (h_sec_regs : Piece.regs .sec ∈ L) (h_ras_regs : Piece.regs .ras ∈ L) (h_evr_regs : Piece.regs .evr ∈ L)
    (h_mem : Piece.mem ∈ L) (h_yard : Piece.yard ∈ L) (h_accs : Piece.accs ∈ L) (h_nextTag : Piece.nextTag ∈ L)
    (h_kvs : Piece.kvs ∈ L) (h_lab : Piece.lab ∈ L) (h_ports : Piece.ports ∈ L) (h_mce : Piece.mce ∈ L) (h_evr : Piece.evr ∈ L)
    (h_freeCtr : Piece.freeCtr ∈ L) (h : ReachP L a r) : ReachP L a (kvDrop x0 x1 x2 r) := by
  unfold kvDrop
  with_reducible repeat'
    (first | assumption | intro _ | extract_lets | (refine ReachP.use (by assumption) ?_) | apply kvRead_reach |
      apply tryDo_reach | apply kvPut_reach | apply kvLook_reach | apply setKv_reach | apply kvLeafPut_reach |
      apply ReachP.ite | apply ReachP.foldl | apply ReachP.out | apply Reach.foldl | apply Reach.ite | split |
      (simp only [ReachP.pair_iff]) | (dsimp +zetaDelta only))

theorem kvFrame_reach {L a x0 x1 x2 r} (h_yrd_regs : Piece.regs .yrd ∈ L) (h_mem_regs : Piece.regs .mem ∈ L)
    (h_lpd_regs : Piece.regs .lpd ∈ L) (h_mce_regs : Piece.regs .mce ∈ L) (h_kvs_regs : Piece.regs .kvs ∈ L)
    (h_sec_regs : Piece.regs .sec ∈ L) (h_ras_regs : Piece.regs .ras ∈ L) (h_evr_regs : Piece.regs .evr ∈ L)
    (h_mem : Piece.mem ∈ L) (h_yard : Piece.yard ∈ L) (h_accs : Piece.accs ∈ L) (h_nextTag : Piece.nextTag ∈ L)
    (h_kvs : Piece.kvs ∈ L) (h_lab : Piece.lab ∈ L) (h_ports : Piece.ports ∈ L) (h_mce : Piece.mce ∈ L) (h_evr : Piece.evr ∈ L)
    (h_freeCtr : Piece.freeCtr ∈ L) (h : ReachP L a r) : ReachO L a (fun x => x.1.1) (kvFrame x0 x1 x2 r) := by
  unfold kvFrame
  with_reducible repeat'
    (first | assumption | intro _ | extract_lets | (refine ReachP.use (by assumption) ?_) | apply kvLooks_reach |
      apply tryDo_reach | apply kvDrop_reach | apply inc_reach | apply setKv_reach | apply ReachO.none | apply ReachO.some |
      apply ReachP.ite | apply ReachP.foldl | apply ReachP.out | apply Reach.foldl | apply Reach.ite | split |
      (simp only [ReachP.pair_iff]) | (dsimp +zetaDelta only))

theorem kvNewPage_reach {L a x0 x1 x2 x3 r} (h_yrd_regs : Piece.regs .yrd ∈ L) (h_mem_regs : Piece.regs .mem ∈ L)
    (h_lpd_regs : Piece.regs .lpd ∈ L) (h_mce_regs : Piece.regs .mce ∈ L) (h_kvs_regs : Piece.regs .kvs ∈ L)
    (h_sec_regs : Piece.regs .sec ∈ L) (h_ras_regs : Piece.regs .ras ∈ L) (h_evr_regs : Piece.regs .evr ∈ L)
    (h_mem : Piece.mem ∈ L) (h_yard : Piece.yard ∈ L) (h_accs : Piece.accs ∈ L) (h_nextTag : Piece.nextTag ∈ L)
    (h_kvs : Piece.kvs ∈ L) (h_lab : Piece.lab ∈ L) (h_ports : Piece.ports ∈ L) (h_mce : Piece.mce ∈ L) (h_evr : Piece.evr ∈ L)
    (h_freeCtr : Piece.freeCtr ∈ L) (h : ReachP L a r) : ReachO L a Prod.fst (kvNewPage x0 x1 x2 x3 r) := by
  unfold kvNewPage
  with_reducible repeat'
    (first | assumption | intro _ | extract_lets | (refine ReachP.use (by assumption) ?_) | apply tryDo_reach |
      apply kvPut_reach | apply setKv_reach | apply kvLeafPut_reach | apply ReachO.none | apply ReachO.some |
      (refine ReachO.useNest (by assumption) ?_) | apply kvFrame_reach | apply ReachP.ite | apply ReachP.foldl |
      apply ReachP.out | apply Reach.foldl | apply Reach.ite | split | (simp only [ReachP.pair_iff]) | (dsimp +zetaDelta only))

theorem kvAcquire_fold {L a} {p t lp h : Nat}
    (h_yrd_regs : Piece.regs .yrd ∈ L)
    (h_mem_regs : Piece.regs .mem ∈ L)
    (h_lpd_regs : Piece.regs .lpd ∈ L)
    (h_mce_regs : Piece.regs .mce ∈ L)
    (h_kvs_regs : Piece.regs .kvs ∈ L)
    (h_sec_regs : Piece.regs .sec ∈ L)
    (h_ras_regs : Piece.regs .ras ∈ L)
    (h_evr_regs : Piece.regs .evr ∈ L)
    (h_mem : Piece.mem ∈ L)
    (h_yard : Piece.yard ∈ L)
    (h_accs : Piece.accs ∈ L)
    (h_nextTag : Piece.nextTag ∈ L)
    (h_kvs : Piece.kvs ∈ L)
    (h_lab : Piece.lab ∈ L)
    (h_ports : Piece.ports ∈ L)
    (h_mce : Piece.mce ∈ L)
    (h_evr : Piece.evr ∈ L)
    (h_freeCtr : Piece.freeCtr ∈ L) (l : List Nat) :
    ∀ r : Option (Try × List (Nat × Nat)), ReachO L a (fun x => x.1.1) r →
      ReachO L a (fun x => x.1.1) (l.foldl (fun (r : Option (Try × List (Nat × Nat))) i =>
        match r with
        | some (r, acq) => match kvNewPage p t (lp * h + i) acq r with
          | some r' => some (r', acq ++ [(t, lp * h + i)])
          | none => none
        | none => none) r) := by
  induction l with
  | nil => exact fun r hr => hr
  | cons i l ih =>
    intro r hr
    apply ih
    dsimp only
    split
    · split
      · refine ReachO.some (ReachO.out (g := Prod.fst) ?_ _ (by assumption))
        apply kvNewPage_reach <;> first
          | assumption
          | exact ⟨hr.out _ rfl⟩
      · exact ReachO.none
    · exact ReachO.none

theorem kvAcquire_reach {L a s x0 x1 x2}
    (h_yrd_regs : Piece.regs .yrd ∈ L)
    (h_mem_regs : Piece.regs .mem ∈ L)
    (h_lpd_regs : Piece.regs .lpd ∈ L)
    (h_mce_regs : Piece.regs .mce ∈ L)
    (h_kvs_regs : Piece.regs .kvs ∈ L)
    (h_sec_regs : Piece.regs .sec ∈ L)
    (h_ras_regs : Piece.regs .ras ∈ L)
    (h_evr_regs : Piece.regs .evr ∈ L)
    (h_mem : Piece.mem ∈ L)
    (h_yard : Piece.yard ∈ L)
    (h_accs : Piece.accs ∈ L)
    (h_nextTag : Piece.nextTag ∈ L)
    (h_kvs : Piece.kvs ∈ L)
    (h_lab : Piece.lab ∈ L)
    (h_ports : Piece.ports ∈ L)
    (h_mce : Piece.mce ∈ L)
    (h_evr : Piece.evr ∈ L)
    (h_freeCtr : Piece.freeCtr ∈ L) (h : Reach L a s) :
    ReachO L a Prod.fst (kvAcquire x0 x1 x2 s) := by
  unfold kvAcquire
  refine ⟨fun r hr => ?_⟩
  obtain ⟨y, hy, rfl⟩ := Option.map_eq_some_iff.mp hr
  exact (kvAcquire_fold h_yrd_regs h_mem_regs h_lpd_regs h_mce_regs h_kvs_regs h_sec_regs h_ras_regs h_evr_regs h_mem h_yard h_accs h_nextTag h_kvs h_lab h_ports h_mce h_evr h_freeCtr _ _ (ReachO.some h)).out y hy

theorem kvItemRun_reach {L a s x0 x1 x2 x3 x4} (h_tok_regs : Piece.regs .tok ∈ L) (h_yrd_regs : Piece.regs .yrd ∈ L)
    (h_mem_regs : Piece.regs .mem ∈ L) (h_lpd_regs : Piece.regs .lpd ∈ L) (h_mce_regs : Piece.regs .mce ∈ L)
    (h_kvs_regs : Piece.regs .kvs ∈ L) (h_sec_regs : Piece.regs .sec ∈ L) (h_ras_regs : Piece.regs .ras ∈ L)
    (h_evr_regs : Piece.regs .evr ∈ L) (h_mem : Piece.mem ∈ L) (h_toks : Piece.toks ∈ L) (h_flights : Piece.flights ∈ L)
    (h_stks : Piece.stks ∈ L) (h_yard : Piece.yard ∈ L) (h_accs : Piece.accs ∈ L) (h_nextTag : Piece.nextTag ∈ L)
    (h_kvs : Piece.kvs ∈ L) (h_lab : Piece.lab ∈ L) (h_ports : Piece.ports ∈ L) (h_mce : Piece.mce ∈ L) (h_evr : Piece.evr ∈ L)
    (h_freeCtr : Piece.freeCtr ∈ L) (h : Reach L a s) : ReachP L a (kvItemRun x0 x1 x2 x3 x4 s) := by
  unfold kvItemRun
  with_reducible repeat'
    (first | assumption | intro _ | extract_lets | (refine ReachP.use (by assumption) ?_) | apply kvItemRows_reach |
      apply kvRefuse_reach | apply kvPark_reach | (refine ReachO.useFst (by assumption) ?_) |
      (refine ReachO.usePair (by assumption) ?_) | apply kvAcquire_reach | apply ReachP.ite | apply ReachP.foldl |
      apply ReachP.out | apply Reach.foldl | apply Reach.ite | split | (simp only [ReachP.pair_iff]) | (dsimp +zetaDelta only))

theorem kvItem_reach {L a s x0 x1} (h_tok_regs : Piece.regs .tok ∈ L) (h_yrd_regs : Piece.regs .yrd ∈ L)
    (h_mem_regs : Piece.regs .mem ∈ L) (h_lpd_regs : Piece.regs .lpd ∈ L) (h_mce_regs : Piece.regs .mce ∈ L)
    (h_kvs_regs : Piece.regs .kvs ∈ L) (h_sec_regs : Piece.regs .sec ∈ L) (h_ras_regs : Piece.regs .ras ∈ L)
    (h_evr_regs : Piece.regs .evr ∈ L) (h_mem : Piece.mem ∈ L) (h_toks : Piece.toks ∈ L) (h_flights : Piece.flights ∈ L)
    (h_stks : Piece.stks ∈ L) (h_yard : Piece.yard ∈ L) (h_accs : Piece.accs ∈ L) (h_nextTag : Piece.nextTag ∈ L)
    (h_kvs : Piece.kvs ∈ L) (h_lab : Piece.lab ∈ L) (h_ports : Piece.ports ∈ L) (h_mce : Piece.mce ∈ L) (h_evr : Piece.evr ∈ L)
    (h_freeCtr : Piece.freeCtr ∈ L) (h : Reach L a s) : ReachP L a (kvItem x0 x1 s) := by
  unfold kvItem
  with_reducible repeat'
    (first | assumption | intro _ | extract_lets | (refine ReachP.use (by assumption) ?_) | apply kvRead_reach |
      apply kvItemRun_reach | apply readAll_reach | apply tryRead_reach | apply kvRefuse_reach | apply kvFail_reach |
      apply ReachP.ite | apply ReachP.foldl | apply ReachP.out | apply Reach.foldl | apply Reach.ite | split |
      (simp only [ReachP.pair_iff]) | (dsimp +zetaDelta only))

theorem kvStep_reach {L a s x0} (h_tok_regs : Piece.regs .tok ∈ L) (h_yrd_regs : Piece.regs .yrd ∈ L)
    (h_mem_regs : Piece.regs .mem ∈ L) (h_lpd_regs : Piece.regs .lpd ∈ L) (h_mce_regs : Piece.regs .mce ∈ L)
    (h_kvs_regs : Piece.regs .kvs ∈ L) (h_sec_regs : Piece.regs .sec ∈ L) (h_ras_regs : Piece.regs .ras ∈ L)
    (h_evr_regs : Piece.regs .evr ∈ L) (h_mem : Piece.mem ∈ L) (h_toks : Piece.toks ∈ L) (h_flights : Piece.flights ∈ L)
    (h_stks : Piece.stks ∈ L) (h_yard : Piece.yard ∈ L) (h_retrain : Piece.retrain ∈ L) (h_accs : Piece.accs ∈ L)
    (h_nextTag : Piece.nextTag ∈ L) (h_kvs : Piece.kvs ∈ L) (h_lab : Piece.lab ∈ L) (h_ports : Piece.ports ∈ L)
    (h_mce : Piece.mce ∈ L) (h_evr : Piece.evr ∈ L) (h_freeCtr : Piece.freeCtr ∈ L) (h : Reach L a s) : Reach L a (kvStep x0 s) :=
    by
  unfold kvStep
  with_reducible repeat'
    (first | assumption | intro _ | extract_lets | (refine ReachP.use (by assumption) ?_) | apply proceed_reach |
      apply updFlight_reach | apply finish_reach | apply noteChans_reach | apply raiseV_reach | apply st_reach |
      apply countCode_reach | apply noteHeld_reach | apply kvItem_reach | apply wh_reach | apply ReachP.ite |
      apply ReachP.foldl | apply ReachP.out | apply Reach.foldl | apply Reach.ite | split | (simp only [ReachP.pair_iff]) |
      (exact ⟨fun h => h, fun h => h⟩) | (refine ⟨fun _ e => ?_, fun h => h⟩; cases e) | (dsimp +zetaDelta only))

theorem attnStop_reach {L a s x0 x1} (h_mem_regs : Piece.regs .mem ∈ L) (h_lpd_regs : Piece.regs .lpd ∈ L)
    (h_mce_regs : Piece.regs .mce ∈ L) (h_sec_regs : Piece.regs .sec ∈ L) (h_ras_regs : Piece.regs .ras ∈ L)
    (h_evr_regs : Piece.regs .evr ∈ L) (h_flights : Piece.flights ∈ L) (h_retrain : Piece.retrain ∈ L) (h_evr : Piece.evr ∈ L)
    (h_freeCtr : Piece.freeCtr ∈ L) (h : Reach L a s) : Reach L a (attnStop x0 x1 s) := by
  unfold attnStop
  with_reducible repeat'
    (first | assumption | intro _ | extract_lets | apply finish_reach | apply noteChans_reach | apply stopped_reach |
      apply Reach.foldl | apply Reach.ite | split | (dsimp +zetaDelta only))

theorem attnDone_reach {L a s x0 x1} (h_ras_regs : Piece.regs .ras ∈ L) (h_evr_regs : Piece.regs .evr ∈ L)
    (h_flights : Piece.flights ∈ L) (h_evr : Piece.evr ∈ L) (h_freeCtr : Piece.freeCtr ∈ L) (h : Reach L a s) : Reach L a
    (attnDone x0 x1 s) := by
  unfold attnDone
  with_reducible repeat'
    (first | assumption | intro _ | extract_lets | apply raiseArrays_reach | apply updFlight_reach | apply finish_reach |
      apply raiseV_reach | apply wh_reach | apply Reach.foldl | apply Reach.ite | split | (exact ⟨fun h => h, fun h => h⟩) |
      (refine ⟨fun _ e => ?_, fun h => h⟩; cases e) | (dsimp +zetaDelta only))

theorem attnStep_reach {L a s x0} (h_dsp_regs : Piece.regs .dsp ∈ L) (h_yrd_regs : Piece.regs .yrd ∈ L)
    (h_mem_regs : Piece.regs .mem ∈ L) (h_lpd_regs : Piece.regs .lpd ∈ L) (h_mce_regs : Piece.regs .mce ∈ L)
    (h_kvs_regs : Piece.regs .kvs ∈ L) (h_sec_regs : Piece.regs .sec ∈ L) (h_clk_regs : Piece.regs .clk ∈ L)
    (h_ras_regs : Piece.regs .ras ∈ L) (h_evr_regs : Piece.regs .evr ∈ L) (h_mem : Piece.mem ∈ L) (h_flights : Piece.flights ∈ L)
    (h_arrs : Piece.arrs ∈ L) (h_stks : Piece.stks ∈ L) (h_yard : Piece.yard ∈ L) (h_retrain : Piece.retrain ∈ L)
    (h_accs : Piece.accs ∈ L) (h_nextTag : Piece.nextTag ∈ L) (h_lab : Piece.lab ∈ L) (h_ports : Piece.ports ∈ L)
    (h_mce : Piece.mce ∈ L) (h_evr : Piece.evr ∈ L) (h_freeCtr : Piece.freeCtr ∈ L) (h : Reach L a s) : Reach L a (attnStep x0 s)
    := by
  unfold attnStep
  with_reducible repeat'
    (first | assumption | intro _ | extract_lets | (refine ReachP.use (by assumption) ?_) | apply kvLooks_reach |
      apply kvRead_reach | apply proceed_reach | apply writeAll_reach | apply updFlight_reach | apply finish_reach |
      apply raiseV_reach | apply stkCount_reach | apply readAll_reach | apply attnStop_reach | apply arrCount_reach |
      apply countPin_reach | apply noteWait_reach | apply attnDone_reach | apply countRun_reach | apply raisePoint_reach |
      apply countTile_reach | apply scrambleAll_reach | apply ReachP.ite | apply ReachP.foldl | apply ReachP.out |
      apply Reach.foldl | apply Reach.ite | split | (simp only [ReachP.pair_iff]) | (exact ⟨fun h => h, fun h => h⟩) |
      (refine ⟨fun _ e => ?_, fun h => h⟩; cases e) | (dsimp +zetaDelta only))

theorem kvResult_reach {L a s x0 x1} (h_kvs_regs : Piece.regs .kvs ∈ L) (h : Reach L a s) : Reach L a (kvResult x0 x1 s) := by
  unfold kvResult
  with_reducible repeat'
    (first | assumption | intro _ | extract_lets | apply st_reach | apply Reach.foldl | apply Reach.ite | split |
      (dsimp +zetaDelta only))

theorem kvWait_reach {L a s x0 x1 x2 x3} (h_kvs : Piece.kvs ∈ L) (h : Reach L a s) : Reach L a (kvWait x0 x1 x2 x3 s) := by
  unfold kvWait
  with_reducible repeat'
    (first | assumption | intro _ | extract_lets | apply setKv_reach | apply Reach.foldl | apply Reach.ite | split |
      (dsimp +zetaDelta only))

theorem kvEnds_reach {L a s x0 x1 x2 x3 r} (h_mem_regs : Piece.regs .mem ∈ L) (h_lpd_regs : Piece.regs .lpd ∈ L)
    (h_mce_regs : Piece.regs .mce ∈ L) (h_kvs_regs : Piece.regs .kvs ∈ L) (h_sec_regs : Piece.regs .sec ∈ L)
    (h_ras_regs : Piece.regs .ras ∈ L) (h_evr_regs : Piece.regs .evr ∈ L) (h_kvs : Piece.kvs ∈ L) (h_evr : Piece.evr ∈ L)
    (h_freeCtr : Piece.freeCtr ∈ L) (h : Reach L a s) (hr : ReachP L a r) : Reach L a (kvEnds x0 x1 x2 x3 s r) := by
  unfold kvEnds
  with_reducible repeat'
    (first | assumption | intro _ | extract_lets | apply stopped_reach | apply kvResult_reach | apply kvWait_reach |
      apply ReachP.ite | apply ReachP.foldl | apply ReachP.out | apply Reach.foldl | apply Reach.ite | split |
      (simp only [ReachP.pair_iff]) | (dsimp +zetaDelta only))

theorem kvOpen_reach {L a s x0 x1} (h_yrd_regs : Piece.regs .yrd ∈ L) (h_mem_regs : Piece.regs .mem ∈ L)
    (h_lpd_regs : Piece.regs .lpd ∈ L) (h_mce_regs : Piece.regs .mce ∈ L) (h_kvs_regs : Piece.regs .kvs ∈ L)
    (h_sec_regs : Piece.regs .sec ∈ L) (h_ras_regs : Piece.regs .ras ∈ L) (h_evr_regs : Piece.regs .evr ∈ L)
    (h_mem : Piece.mem ∈ L) (h_yard : Piece.yard ∈ L) (h_accs : Piece.accs ∈ L) (h_nextTag : Piece.nextTag ∈ L)
    (h_ports : Piece.ports ∈ L) (h_mce : Piece.mce ∈ L) (h_evr : Piece.evr ∈ L) (h_freeCtr : Piece.freeCtr ∈ L) (h : Reach L a s)
    : ReachP L a (kvOpen x0 x1 s) := by
  unfold kvOpen
  with_reducible repeat'
    (first | assumption | intro _ | extract_lets | (refine ReachP.use (by assumption) ?_) | apply tryDo_reach |
      apply kvPut_reach | apply inc_reach | apply ReachP.ite | apply ReachP.foldl | apply ReachP.out | apply Reach.foldl |
      apply Reach.ite | split | (simp only [ReachP.pair_iff]) | (dsimp +zetaDelta only))

theorem kvFreePages_reach {L a x0 x1 x2 r} (h_yrd_regs : Piece.regs .yrd ∈ L) (h_mem_regs : Piece.regs .mem ∈ L)
    (h_lpd_regs : Piece.regs .lpd ∈ L) (h_mce_regs : Piece.regs .mce ∈ L) (h_kvs_regs : Piece.regs .kvs ∈ L)
    (h_sec_regs : Piece.regs .sec ∈ L) (h_ras_regs : Piece.regs .ras ∈ L) (h_evr_regs : Piece.regs .evr ∈ L)
    (h_mem : Piece.mem ∈ L) (h_yard : Piece.yard ∈ L) (h_accs : Piece.accs ∈ L) (h_nextTag : Piece.nextTag ∈ L)
    (h_kvs : Piece.kvs ∈ L) (h_lab : Piece.lab ∈ L) (h_ports : Piece.ports ∈ L) (h_mce : Piece.mce ∈ L) (h_evr : Piece.evr ∈ L)
    (h_freeCtr : Piece.freeCtr ∈ L) (h : ReachP L a r) : ReachP L a (kvFreePages x0 x1 x2 r) := by
  unfold kvFreePages
  with_reducible repeat'
    (first | assumption | intro _ | extract_lets | (refine ReachP.use (by assumption) ?_) | apply tryDo_reach |
      apply kvLook_reach | apply kvDrop_reach | apply setKv_reach | apply ReachP.ite | apply ReachP.foldl | apply ReachP.out |
      apply Reach.foldl | apply Reach.ite | split | (simp only [ReachP.pair_iff]) | (dsimp +zetaDelta only))

theorem kvClose_reach {L a s x0 x1} (h_yrd_regs : Piece.regs .yrd ∈ L) (h_mem_regs : Piece.regs .mem ∈ L)
    (h_lpd_regs : Piece.regs .lpd ∈ L) (h_mce_regs : Piece.regs .mce ∈ L) (h_kvs_regs : Piece.regs .kvs ∈ L)
    (h_sec_regs : Piece.regs .sec ∈ L) (h_ras_regs : Piece.regs .ras ∈ L) (h_evr_regs : Piece.regs .evr ∈ L)
    (h_mem : Piece.mem ∈ L) (h_yard : Piece.yard ∈ L) (h_accs : Piece.accs ∈ L) (h_nextTag : Piece.nextTag ∈ L)
    (h_kvs : Piece.kvs ∈ L) (h_lab : Piece.lab ∈ L) (h_ports : Piece.ports ∈ L) (h_mce : Piece.mce ∈ L) (h_evr : Piece.evr ∈ L)
    (h_freeCtr : Piece.freeCtr ∈ L) (h : Reach L a s) : ReachP L a (kvClose x0 x1 s) := by
  unfold kvClose
  with_reducible repeat'
    (first | assumption | intro _ | extract_lets | (refine ReachP.use (by assumption) ?_) | apply tryDo_reach |
      apply kvPut_reach | apply kvFreePages_reach | apply st_reach | apply ReachP.ite | apply ReachP.foldl | apply ReachP.out |
      apply Reach.foldl | apply Reach.ite | split | (simp only [ReachP.pair_iff]) | (dsimp +zetaDelta only))

theorem kvTrim_reach {L a s x0 x1 x2} (h_yrd_regs : Piece.regs .yrd ∈ L) (h_mem_regs : Piece.regs .mem ∈ L)
    (h_lpd_regs : Piece.regs .lpd ∈ L) (h_mce_regs : Piece.regs .mce ∈ L) (h_kvs_regs : Piece.regs .kvs ∈ L)
    (h_sec_regs : Piece.regs .sec ∈ L) (h_ras_regs : Piece.regs .ras ∈ L) (h_evr_regs : Piece.regs .evr ∈ L)
    (h_mem : Piece.mem ∈ L) (h_yard : Piece.yard ∈ L) (h_accs : Piece.accs ∈ L) (h_nextTag : Piece.nextTag ∈ L)
    (h_kvs : Piece.kvs ∈ L) (h_lab : Piece.lab ∈ L) (h_ports : Piece.ports ∈ L) (h_mce : Piece.mce ∈ L) (h_evr : Piece.evr ∈ L)
    (h_freeCtr : Piece.freeCtr ∈ L) (h : Reach L a s) : ReachP L a (kvTrim x0 x1 x2 s) := by
  unfold kvTrim
  with_reducible repeat'
    (first | assumption | intro _ | extract_lets | (refine ReachP.use (by assumption) ?_) | apply kvFreePages_reach |
      apply ReachP.ite | apply ReachP.foldl | apply ReachP.out | apply Reach.foldl | apply Reach.ite | split |
      (simp only [ReachP.pair_iff]) | (dsimp +zetaDelta only))

theorem kvRun_reach {L a s x0 x1 x2 x3} (h_yrd_regs : Piece.regs .yrd ∈ L) (h_mem_regs : Piece.regs .mem ∈ L)
    (h_lpd_regs : Piece.regs .lpd ∈ L) (h_mce_regs : Piece.regs .mce ∈ L) (h_kvs_regs : Piece.regs .kvs ∈ L)
    (h_sec_regs : Piece.regs .sec ∈ L) (h_ras_regs : Piece.regs .ras ∈ L) (h_evr_regs : Piece.regs .evr ∈ L)
    (h_mem : Piece.mem ∈ L) (h_yard : Piece.yard ∈ L) (h_accs : Piece.accs ∈ L) (h_nextTag : Piece.nextTag ∈ L)
    (h_kvs : Piece.kvs ∈ L) (h_lab : Piece.lab ∈ L) (h_ports : Piece.ports ∈ L) (h_mce : Piece.mce ∈ L) (h_evr : Piece.evr ∈ L)
    (h_freeCtr : Piece.freeCtr ∈ L) (h : Reach L a s) : Reach L a (kvRun x0 x1 x2 x3 s) := by
  unfold kvRun
  with_reducible repeat'
    (first | assumption | intro _ | extract_lets | (refine ReachP.use (by assumption) ?_) | apply kvRead_reach |
      apply kvPut_reach | apply kvEnds_reach | apply kvOpen_reach | apply kvClose_reach | apply kvTrim_reach |
      apply kvResult_reach | apply kvWait_reach | apply ReachP.ite | apply ReachP.foldl | apply ReachP.out | apply Reach.foldl |
      apply Reach.ite | split | (simp only [ReachP.pair_iff]) | (dsimp +zetaDelta only))

theorem kvAddFrames_reach {L a s x0} (h_kvs_regs : Piece.regs .kvs ∈ L) (h_kvs : Piece.kvs ∈ L) (h : Reach L a s) : Reach L a
    (kvAddFrames x0 s) := by
  unfold kvAddFrames
  with_reducible repeat'
    (first | assumption | intro _ | extract_lets | apply inc_reach | apply setKv_reach | apply kvResult_reach |
      apply Reach.foldl | apply Reach.ite | split | (dsimp +zetaDelta only))

theorem kvCommand_reach {L a s x0 x1 x2} (h_yrd_regs : Piece.regs .yrd ∈ L) (h_mem_regs : Piece.regs .mem ∈ L)
    (h_lpd_regs : Piece.regs .lpd ∈ L) (h_mce_regs : Piece.regs .mce ∈ L) (h_kvs_regs : Piece.regs .kvs ∈ L)
    (h_sec_regs : Piece.regs .sec ∈ L) (h_ras_regs : Piece.regs .ras ∈ L) (h_evr_regs : Piece.regs .evr ∈ L)
    (h_mem : Piece.mem ∈ L) (h_yard : Piece.yard ∈ L) (h_accs : Piece.accs ∈ L) (h_nextTag : Piece.nextTag ∈ L)
    (h_kvs : Piece.kvs ∈ L) (h_lab : Piece.lab ∈ L) (h_ports : Piece.ports ∈ L) (h_mce : Piece.mce ∈ L) (h_evr : Piece.evr ∈ L)
    (h_freeCtr : Piece.freeCtr ∈ L) (h : Reach L a s) : Reach L a (kvCommand x0 x1 x2 s) := by
  unfold kvCommand
  with_reducible repeat'
    (first | assumption | intro _ | extract_lets | apply st_reach | apply kvRun_reach | apply kvAddFrames_reach |
      apply kvResult_reach | apply Reach.foldl | apply Reach.ite | split | (dsimp +zetaDelta only))

theorem kvReleased_reach {L a s x0} (h_yrd_regs : Piece.regs .yrd ∈ L) (h_mem_regs : Piece.regs .mem ∈ L)
    (h_lpd_regs : Piece.regs .lpd ∈ L) (h_mce_regs : Piece.regs .mce ∈ L) (h_kvs_regs : Piece.regs .kvs ∈ L)
    (h_sec_regs : Piece.regs .sec ∈ L) (h_ras_regs : Piece.regs .ras ∈ L) (h_evr_regs : Piece.regs .evr ∈ L)
    (h_mem : Piece.mem ∈ L) (h_yard : Piece.yard ∈ L) (h_accs : Piece.accs ∈ L) (h_nextTag : Piece.nextTag ∈ L)
    (h_kvs : Piece.kvs ∈ L) (h_lab : Piece.lab ∈ L) (h_ports : Piece.ports ∈ L) (h_mce : Piece.mce ∈ L) (h_evr : Piece.evr ∈ L)
    (h_freeCtr : Piece.freeCtr ∈ L) (h : Reach L a s) : Reach L a (kvReleased x0 s) := by
  unfold kvReleased
  with_reducible repeat'
    (first | assumption | intro _ | extract_lets | apply kvRun_reach | apply setKv_reach | apply Reach.foldl |
      apply Reach.ite | split | (dsimp +zetaDelta only))

theorem kvsRow_reach {L a s x0 x1 x2} (h_yrd_regs : Piece.regs .yrd ∈ L) (h_mem_regs : Piece.regs .mem ∈ L)
    (h_lpd_regs : Piece.regs .lpd ∈ L) (h_mce_regs : Piece.regs .mce ∈ L) (h_kvs_regs : Piece.regs .kvs ∈ L)
    (h_sec_regs : Piece.regs .sec ∈ L) (h_ras_regs : Piece.regs .ras ∈ L) (h_evr_regs : Piece.regs .evr ∈ L)
    (h_bus : Piece.bus ∈ L) (h_mem : Piece.mem ∈ L) (h_yard : Piece.yard ∈ L) (h_accs : Piece.accs ∈ L)
    (h_nextTag : Piece.nextTag ∈ L) (h_kvs : Piece.kvs ∈ L) (h_lab : Piece.lab ∈ L) (h_ports : Piece.ports ∈ L)
    (h_mce : Piece.mce ∈ L) (h_evr : Piece.evr ∈ L) (h_freeCtr : Piece.freeCtr ∈ L) (h : Reach L a s) : Reach L a
    (kvsRow x0 x1 x2 s) := by
  unfold kvsRow
  with_reducible repeat'
    (first | assumption | intro _ | extract_lets | apply kvCommand_reach | apply Reach.foldl | apply Reach.ite | split |
      apply Reach.bus | (dsimp +zetaDelta only))

theorem attnCapture_reach {L a s x0} (h_mem_regs : Piece.regs .mem ∈ L) (h_lpd_regs : Piece.regs .lpd ∈ L)
    (h_mce_regs : Piece.regs .mce ∈ L) (h_sec_regs : Piece.regs .sec ∈ L) (h_ras_regs : Piece.regs .ras ∈ L)
    (h_evr_regs : Piece.regs .evr ∈ L) (h_flights : Piece.flights ∈ L) (h_retrain : Piece.retrain ∈ L) (h_evr : Piece.evr ∈ L)
    (h_freeCtr : Piece.freeCtr ∈ L) (h : Reach L a s) : Reach L a (attnCapture x0 s) := by
  unfold attnCapture
  with_reducible repeat'
    (first | assumption | intro _ | extract_lets | (refine ReachP.use (by assumption) ?_) | apply kvRead_reach |
      apply updFlight_reach | apply attnStop_reach | apply ReachP.ite | apply ReachP.foldl | apply ReachP.out |
      apply Reach.foldl | apply Reach.ite | split | (simp only [ReachP.pair_iff]) | (exact ⟨fun h => h, fun h => h⟩) |
      (refine ⟨fun _ e => ?_, fun h => h⟩; cases e) | (dsimp +zetaDelta only))

theorem kvAll_reach {L a s x0 x1} (h_tok_regs : Piece.regs .tok ∈ L) (h_yrd_regs : Piece.regs .yrd ∈ L)
    (h_mem_regs : Piece.regs .mem ∈ L) (h_lpd_regs : Piece.regs .lpd ∈ L) (h_mce_regs : Piece.regs .mce ∈ L)
    (h_kvs_regs : Piece.regs .kvs ∈ L) (h_sec_regs : Piece.regs .sec ∈ L) (h_ras_regs : Piece.regs .ras ∈ L)
    (h_evr_regs : Piece.regs .evr ∈ L) (h_mem : Piece.mem ∈ L) (h_toks : Piece.toks ∈ L) (h_flights : Piece.flights ∈ L)
    (h_stks : Piece.stks ∈ L) (h_yard : Piece.yard ∈ L) (h_retrain : Piece.retrain ∈ L) (h_accs : Piece.accs ∈ L)
    (h_nextTag : Piece.nextTag ∈ L) (h_kvs : Piece.kvs ∈ L) (h_lab : Piece.lab ∈ L) (h_ports : Piece.ports ∈ L)
    (h_mce : Piece.mce ∈ L) (h_evr : Piece.evr ∈ L) (h_freeCtr : Piece.freeCtr ∈ L) (h : Reach L a s) : Reach L a (kvAll x0 x1 s)
    := by
  induction x1 generalizing x0 s
  case zero =>
    rw [kvAll]
    with_reducible repeat'
      (first | assumption | apply ih | intro _ | extract_lets | apply kvStep_reach | apply Reach.foldl | apply Reach.ite |
        split | (dsimp +zetaDelta only))
  case succ n ih =>
    rw [kvAll]
    with_reducible repeat'
      (first | assumption | apply ih | intro _ | extract_lets | apply kvStep_reach | apply Reach.foldl | apply Reach.ite |
        split | (dsimp +zetaDelta only))

theorem kvGo_reach {L a s x0} (h_tok_regs : Piece.regs .tok ∈ L) (h_yrd_regs : Piece.regs .yrd ∈ L)
    (h_mem_regs : Piece.regs .mem ∈ L) (h_lpd_regs : Piece.regs .lpd ∈ L) (h_mce_regs : Piece.regs .mce ∈ L)
    (h_kvs_regs : Piece.regs .kvs ∈ L) (h_sec_regs : Piece.regs .sec ∈ L) (h_ras_regs : Piece.regs .ras ∈ L)
    (h_evr_regs : Piece.regs .evr ∈ L) (h_mem : Piece.mem ∈ L) (h_toks : Piece.toks ∈ L) (h_flights : Piece.flights ∈ L)
    (h_stks : Piece.stks ∈ L) (h_yard : Piece.yard ∈ L) (h_retrain : Piece.retrain ∈ L) (h_accs : Piece.accs ∈ L)
    (h_nextTag : Piece.nextTag ∈ L) (h_kvs : Piece.kvs ∈ L) (h_lab : Piece.lab ∈ L) (h_ports : Piece.ports ∈ L)
    (h_mce : Piece.mce ∈ L) (h_evr : Piece.evr ∈ L) (h_freeCtr : Piece.freeCtr ∈ L) (h : Reach L a s) : Reach L a (kvGo x0 s) :=
    by
  unfold kvGo
  with_reducible repeat'
    (first | assumption | intro _ | extract_lets | apply kvAll_reach | apply Reach.foldl | apply Reach.ite | split |
      (dsimp +zetaDelta only))

theorem attnAll_reach {L a s x0 x1} (h_dsp_regs : Piece.regs .dsp ∈ L) (h_yrd_regs : Piece.regs .yrd ∈ L)
    (h_mem_regs : Piece.regs .mem ∈ L) (h_lpd_regs : Piece.regs .lpd ∈ L) (h_mce_regs : Piece.regs .mce ∈ L)
    (h_kvs_regs : Piece.regs .kvs ∈ L) (h_sec_regs : Piece.regs .sec ∈ L) (h_clk_regs : Piece.regs .clk ∈ L)
    (h_ras_regs : Piece.regs .ras ∈ L) (h_evr_regs : Piece.regs .evr ∈ L) (h_mem : Piece.mem ∈ L) (h_flights : Piece.flights ∈ L)
    (h_arrs : Piece.arrs ∈ L) (h_stks : Piece.stks ∈ L) (h_yard : Piece.yard ∈ L) (h_retrain : Piece.retrain ∈ L)
    (h_accs : Piece.accs ∈ L) (h_nextTag : Piece.nextTag ∈ L) (h_lab : Piece.lab ∈ L) (h_ports : Piece.ports ∈ L)
    (h_mce : Piece.mce ∈ L) (h_evr : Piece.evr ∈ L) (h_freeCtr : Piece.freeCtr ∈ L) (h : Reach L a s) : Reach L a
    (attnAll x0 x1 s) := by
  induction x1 generalizing x0 s
  case zero =>
    rw [attnAll]
    with_reducible repeat'
      (first | assumption | apply ih | intro _ | extract_lets | apply attnStep_reach | apply Reach.foldl | apply Reach.ite |
        split | (dsimp +zetaDelta only))
  case succ n ih =>
    rw [attnAll]
    with_reducible repeat'
      (first | assumption | apply ih | intro _ | extract_lets | apply attnStep_reach | apply Reach.foldl | apply Reach.ite |
        split | (dsimp +zetaDelta only))

theorem attnGo_reach {L a s x0} (h_dsp_regs : Piece.regs .dsp ∈ L) (h_yrd_regs : Piece.regs .yrd ∈ L)
    (h_mem_regs : Piece.regs .mem ∈ L) (h_lpd_regs : Piece.regs .lpd ∈ L) (h_mce_regs : Piece.regs .mce ∈ L)
    (h_kvs_regs : Piece.regs .kvs ∈ L) (h_sec_regs : Piece.regs .sec ∈ L) (h_clk_regs : Piece.regs .clk ∈ L)
    (h_ras_regs : Piece.regs .ras ∈ L) (h_evr_regs : Piece.regs .evr ∈ L) (h_mem : Piece.mem ∈ L) (h_flights : Piece.flights ∈ L)
    (h_arrs : Piece.arrs ∈ L) (h_stks : Piece.stks ∈ L) (h_yard : Piece.yard ∈ L) (h_retrain : Piece.retrain ∈ L)
    (h_accs : Piece.accs ∈ L) (h_nextTag : Piece.nextTag ∈ L) (h_lab : Piece.lab ∈ L) (h_ports : Piece.ports ∈ L)
    (h_mce : Piece.mce ∈ L) (h_evr : Piece.evr ∈ L) (h_freeCtr : Piece.freeCtr ∈ L) (h : Reach L a s) : Reach L a (attnGo x0 s) :=
    by
  unfold attnGo
  with_reducible repeat'
    (first | assumption | intro _ | extract_lets | apply attnCapture_reach | apply attnAll_reach | apply Reach.foldl |
      apply Reach.ite | split | (dsimp +zetaDelta only))

theorem attnReplay_reach {L a s x0} (h_flights : Piece.flights ∈ L) (h : Reach L a s) : Reach L a (attnReplay x0 s) := by
  unfold attnReplay
  with_reducible repeat'
    (first | assumption | intro _ | extract_lets | apply updFlight_reach | apply Reach.foldl | apply Reach.ite | split |
      (exact ⟨fun h => h, fun h => h⟩) | (refine ⟨fun _ e => ?_, fun h => h⟩; cases e) | (dsimp +zetaDelta only))

theorem attnScores_reach {L a x0 r} (h_yrd_regs : Piece.regs .yrd ∈ L) (h_mem_regs : Piece.regs .mem ∈ L)
    (h_lpd_regs : Piece.regs .lpd ∈ L) (h_mce_regs : Piece.regs .mce ∈ L) (h_kvs_regs : Piece.regs .kvs ∈ L)
    (h_sec_regs : Piece.regs .sec ∈ L) (h_ras_regs : Piece.regs .ras ∈ L) (h_evr_regs : Piece.regs .evr ∈ L)
    (h_mem : Piece.mem ∈ L) (h_yard : Piece.yard ∈ L) (h_accs : Piece.accs ∈ L) (h_nextTag : Piece.nextTag ∈ L)
    (h_lab : Piece.lab ∈ L) (h_ports : Piece.ports ∈ L) (h_mce : Piece.mce ∈ L) (h_evr : Piece.evr ∈ L)
    (h_freeCtr : Piece.freeCtr ∈ L) (h : ReachP L a r) : ReachP L a (attnScores x0 r) := by
  unfold attnScores
  with_reducible repeat'
    (first | assumption | intro _ | extract_lets | (refine ReachP.use (by assumption) ?_) | apply kvLook_reach |
      apply kvLeafPut_reach | apply ReachP.ite | apply ReachP.foldl | apply ReachP.out | apply Reach.foldl | apply Reach.ite |
      split | (simp only [ReachP.pair_iff]) | (dsimp +zetaDelta only))

end Sys2Proof.Machine
end

