-- ==== Sys2Proof/Laws/ReachScn.lean ====
section
/-!
SUPPORT. What each operation of Machine/Scn.lean can change.
-/
namespace Sys2Proof.Machine

set_option linter.unusedTactic false
set_option linter.unreachableTactic false
set_option linter.unusedSimpArgs false

theorem copyMem_reach {L a x0 x1 x2 x3 x4 r} (h_yrd_regs : Piece.regs .yrd ∈ L) (h_mem_regs : Piece.regs .mem ∈ L)
    (h_lpd_regs : Piece.regs .lpd ∈ L) (h_mce_regs : Piece.regs .mce ∈ L) (h_sec_regs : Piece.regs .sec ∈ L)
    (h_ras_regs : Piece.regs .ras ∈ L) (h_evr_regs : Piece.regs .evr ∈ L) (h_mem : Piece.mem ∈ L) (h_yard : Piece.yard ∈ L)
    (h_accs : Piece.accs ∈ L) (h_nextTag : Piece.nextTag ∈ L) (h_ports : Piece.ports ∈ L) (h_mce : Piece.mce ∈ L)
    (h_evr : Piece.evr ∈ L) (h_freeCtr : Piece.freeCtr ∈ L) (h : ReachP L a r) : ReachP L a (copyMem x0 x1 x2 x3 x4 r) := by
  unfold copyMem
  with_reducible repeat'
    (first | assumption | intro _ | extract_lets | (refine ReachP.use (by assumption) ?_) | apply tryWrite_reach |
      apply tryRead_reach | apply ReachP.ite | apply ReachP.foldl | apply ReachP.out | apply Reach.foldl | apply Reach.ite |
      split | (simp only [ReachP.pair_iff]) | (dsimp +zetaDelta only))

theorem scService_reach {L a s x0 x1} (h_stks : Piece.stks ∈ L) (h : Reach L a s) : Reach L a (scService x0 x1 s) := by
  unfold scService
  with_reducible repeat'
    (first | assumption | intro _ | extract_lets | apply stkCount_reach | apply Reach.foldl | apply Reach.ite | split |
      (dsimp +zetaDelta only))

theorem scStore_reach {L a x0 x1 x2 r} (h_yrd_regs : Piece.regs .yrd ∈ L) (h_mem_regs : Piece.regs .mem ∈ L)
    (h_lpd_regs : Piece.regs .lpd ∈ L) (h_mce_regs : Piece.regs .mce ∈ L) (h_sec_regs : Piece.regs .sec ∈ L)
    (h_ras_regs : Piece.regs .ras ∈ L) (h_evr_regs : Piece.regs .evr ∈ L) (h_mem : Piece.mem ∈ L) (h_stks : Piece.stks ∈ L)
    (h_yard : Piece.yard ∈ L) (h_accs : Piece.accs ∈ L) (h_nextTag : Piece.nextTag ∈ L) (h_ports : Piece.ports ∈ L)
    (h_mce : Piece.mce ∈ L) (h_evr : Piece.evr ∈ L) (h_freeCtr : Piece.freeCtr ∈ L) (h : ReachP L a r) : ReachP L a
    (scStore x0 x1 x2 r) := by
  unfold scStore
  with_reducible repeat'
    (first | assumption | intro _ | extract_lets | (refine ReachP.use (by assumption) ?_) | apply tryDo_reach |
      apply copyMem_reach | apply scService_reach | apply ReachP.ite | apply ReachP.foldl | apply ReachP.out |
      apply Reach.foldl | apply Reach.ite | split | (simp only [ReachP.pair_iff]) | (dsimp +zetaDelta only))

theorem scPut_reach {L a x0 x1 x2 x3 x4 x5 r} (h_yrd_regs : Piece.regs .yrd ∈ L) (h_mem_regs : Piece.regs .mem ∈ L)
    (h_lpd_regs : Piece.regs .lpd ∈ L) (h_mce_regs : Piece.regs .mce ∈ L) (h_sec_regs : Piece.regs .sec ∈ L)
    (h_ras_regs : Piece.regs .ras ∈ L) (h_evr_regs : Piece.regs .evr ∈ L) (h_mem : Piece.mem ∈ L) (h_yard : Piece.yard ∈ L)
    (h_accs : Piece.accs ∈ L) (h_nextTag : Piece.nextTag ∈ L) (h_ports : Piece.ports ∈ L) (h_mce : Piece.mce ∈ L)
    (h_evr : Piece.evr ∈ L) (h_freeCtr : Piece.freeCtr ∈ L) (h : ReachP L a r) : ReachP L a (scPut x0 x1 x2 x3 x4 x5 r) := by
  unfold scPut
  with_reducible repeat'
    (first | assumption | intro _ | extract_lets | (refine ReachP.use (by assumption) ?_) | apply tryWrite_reach |
      apply ReachP.ite | apply ReachP.foldl | apply ReachP.out | apply Reach.foldl | apply Reach.ite | split |
      (simp only [ReachP.pair_iff]) | (dsimp +zetaDelta only))

theorem setSc_reach {L a s x0 x1} (h_scn : Piece.scn ∈ L) (h : Reach L a s) : Reach L a (setSc x0 x1 s) := by
  unfold setSc
  with_reducible repeat'
    (first | assumption | intro _ | extract_lets | apply Reach.foldl | apply Reach.ite | split | apply Reach.scn |
      apply tabWf_tabSet | apply tabWf_putBytes | apply tabWf_filter | (dsimp +zetaDelta only))

theorem swapOutEnd_reach {L a s x0 x1 x2} (h_yrd_regs : Piece.regs .yrd ∈ L) (h_mem_regs : Piece.regs .mem ∈ L)
    (h_lpd_regs : Piece.regs .lpd ∈ L) (h_mce_regs : Piece.regs .mce ∈ L) (h_scn_regs : Piece.regs .scn ∈ L)
    (h_sec_regs : Piece.regs .sec ∈ L) (h_ras_regs : Piece.regs .ras ∈ L) (h_evr_regs : Piece.regs .evr ∈ L)
    (h_mem : Piece.mem ∈ L) (h_yard : Piece.yard ∈ L) (h_accs : Piece.accs ∈ L) (h_nextTag : Piece.nextTag ∈ L)
    (h_scn : Piece.scn ∈ L) (h_ports : Piece.ports ∈ L) (h_mce : Piece.mce ∈ L) (h_evr : Piece.evr ∈ L)
    (h_freeCtr : Piece.freeCtr ∈ L) (h : Reach L a s) : Reach L a (swapOutEnd x0 x1 x2 s) := by
  unfold swapOutEnd
  with_reducible repeat'
    (first | assumption | intro _ | extract_lets | (refine ReachP.use (by assumption) ?_) | apply scPut_reach |
      apply inc_reach | apply setSc_reach | apply wh_reach | apply ReachP.ite | apply ReachP.foldl | apply ReachP.out |
      apply Reach.foldl | apply Reach.ite | split | (simp only [ReachP.pair_iff]) | (dsimp +zetaDelta only))

theorem scanStop_reach {L a s x0 x1} (h_mem_regs : Piece.regs .mem ∈ L) (h_lpd_regs : Piece.regs .lpd ∈ L)
    (h_mce_regs : Piece.regs .mce ∈ L) (h_sec_regs : Piece.regs .sec ∈ L) (h_ras_regs : Piece.regs .ras ∈ L)
    (h_evr_regs : Piece.regs .evr ∈ L) (h_flights : Piece.flights ∈ L) (h_retrain : Piece.retrain ∈ L) (h_evr : Piece.evr ∈ L)
    (h_freeCtr : Piece.freeCtr ∈ L) (h : Reach L a s) : Reach L a (scanStop x0 x1 s) := by
  unfold scanStop
  with_reducible repeat'
    (first | assumption | intro _ | extract_lets | apply finish_reach | apply noteChans_reach | apply stopped_reach |
      apply Reach.foldl | apply Reach.ite | split | (dsimp +zetaDelta only))

theorem scanTake_reach {L a s x0} (h_yrd_regs : Piece.regs .yrd ∈ L) (h_mem_regs : Piece.regs .mem ∈ L)
    (h_lpd_regs : Piece.regs .lpd ∈ L) (h_mce_regs : Piece.regs .mce ∈ L) (h_scn_regs : Piece.regs .scn ∈ L)
    (h_sec_regs : Piece.regs .sec ∈ L) (h_ras_regs : Piece.regs .ras ∈ L) (h_evr_regs : Piece.regs .evr ∈ L)
    (h_mem : Piece.mem ∈ L) (h_flights : Piece.flights ∈ L) (h_yard : Piece.yard ∈ L) (h_retrain : Piece.retrain ∈ L)
    (h_accs : Piece.accs ∈ L) (h_nextTag : Piece.nextTag ∈ L) (h_ports : Piece.ports ∈ L) (h_mce : Piece.mce ∈ L)
    (h_evr : Piece.evr ∈ L) (h_freeCtr : Piece.freeCtr ∈ L) (h : Reach L a s) : Reach L a (scanTake x0 s) := by
  unfold scanTake
  with_reducible repeat'
    (first | assumption | intro _ | extract_lets | (refine ReachP.use (by assumption) ?_) | apply scPut_reach |
      apply updFlight_reach | apply scanStop_reach | apply inc_reach | apply wh_reach | apply ReachP.ite | apply ReachP.foldl |
      apply ReachP.out | apply Reach.foldl | apply Reach.ite | split | (simp only [ReachP.pair_iff]) |
      (exact ⟨fun h => h, fun h => h⟩) | (refine ⟨fun _ e => ?_, fun h => h⟩; cases e) | (dsimp +zetaDelta only))

theorem swapInLost_reach {L a s x0 x1 x2} (h_yrd_regs : Piece.regs .yrd ∈ L) (h_mem_regs : Piece.regs .mem ∈ L)
    (h_lpd_regs : Piece.regs .lpd ∈ L) (h_mce_regs : Piece.regs .mce ∈ L) (h_sec_regs : Piece.regs .sec ∈ L)
    (h_ras_regs : Piece.regs .ras ∈ L) (h_evr_regs : Piece.regs .evr ∈ L) (h_mem : Piece.mem ∈ L) (h_flights : Piece.flights ∈ L)
    (h_yard : Piece.yard ∈ L) (h_accs : Piece.accs ∈ L) (h_nextTag : Piece.nextTag ∈ L) (h_scn : Piece.scn ∈ L)
    (h_ports : Piece.ports ∈ L) (h_mce : Piece.mce ∈ L) (h_evr : Piece.evr ∈ L) (h_freeCtr : Piece.freeCtr ∈ L) (h : Reach L a s)
    : Reach L a (swapInLost x0 x1 x2 s) := by
  unfold swapInLost
  with_reducible repeat'
    (first | assumption | intro _ | extract_lets | (refine ReachP.use (by assumption) ?_) | apply scPut_reach |
      apply finish_reach | apply setSc_reach | apply wh_reach | apply ReachP.ite | apply ReachP.foldl | apply ReachP.out |
      apply Reach.foldl | apply Reach.ite | split | (simp only [ReachP.pair_iff]) | (dsimp +zetaDelta only))

theorem scRead_reach {L a x0 x1 r} (h : ReachP L a r) : ReachP L a (scRead x0 x1 r) := by
  unfold scRead
  with_reducible repeat'
    (first | assumption | intro _ | extract_lets | (refine ReachP.use (by assumption) ?_) | apply tryRead_reach |
      apply ReachP.ite | apply ReachP.foldl | apply ReachP.out | apply Reach.foldl | apply Reach.ite | split |
      (simp only [ReachP.pair_iff]) | (dsimp +zetaDelta only))

theorem swapInStop_reach {L a s x0 x1 x2} (h_yrd_regs : Piece.regs .yrd ∈ L) (h_mem_regs : Piece.regs .mem ∈ L)
    (h_lpd_regs : Piece.regs .lpd ∈ L) (h_mce_regs : Piece.regs .mce ∈ L) (h_sec_regs : Piece.regs .sec ∈ L)
    (h_ras_regs : Piece.regs .ras ∈ L) (h_evr_regs : Piece.regs .evr ∈ L) (h_mem : Piece.mem ∈ L) (h_flights : Piece.flights ∈ L)
    (h_yard : Piece.yard ∈ L) (h_accs : Piece.accs ∈ L) (h_nextTag : Piece.nextTag ∈ L) (h_scn : Piece.scn ∈ L)
    (h_ports : Piece.ports ∈ L) (h_mce : Piece.mce ∈ L) (h_evr : Piece.evr ∈ L) (h_freeCtr : Piece.freeCtr ∈ L) (h : Reach L a s)
    : Reach L a (swapInStop x0 x1 x2 s) := by
  unfold swapInStop
  with_reducible repeat'
    (first | assumption | intro _ | extract_lets | apply swapInLost_reach | apply stopped_reach | apply Reach.foldl |
      apply Reach.ite | split | (dsimp +zetaDelta only))

theorem swapInTook_reach {L a s x0 x1 x2 r} (h_yrd_regs : Piece.regs .yrd ∈ L) (h_mem_regs : Piece.regs .mem ∈ L)
    (h_lpd_regs : Piece.regs .lpd ∈ L) (h_mce_regs : Piece.regs .mce ∈ L) (h_sec_regs : Piece.regs .sec ∈ L)
    (h_ras_regs : Piece.regs .ras ∈ L) (h_evr_regs : Piece.regs .evr ∈ L) (h_mem : Piece.mem ∈ L) (h_flights : Piece.flights ∈ L)
    (h_yard : Piece.yard ∈ L) (h_accs : Piece.accs ∈ L) (h_nextTag : Piece.nextTag ∈ L) (h_scn : Piece.scn ∈ L)
    (h_ports : Piece.ports ∈ L) (h_mce : Piece.mce ∈ L) (h_evr : Piece.evr ∈ L) (h_freeCtr : Piece.freeCtr ∈ L) (h : Reach L a s)
    (hr : ReachP L a r) : Reach L a (swapInTook x0 x1 x2 s r) := by
  unfold swapInTook
  with_reducible repeat'
    (first | assumption | intro _ | extract_lets | apply swapInStop_reach | apply setSc_reach | apply ReachP.ite |
      apply ReachP.foldl | apply ReachP.out | apply Reach.foldl | apply Reach.ite | split | (simp only [ReachP.pair_iff]) |
      (dsimp +zetaDelta only))

theorem swapInTake_reach {L a s x0 x1 x2} (h_yrd_regs : Piece.regs .yrd ∈ L) (h_mem_regs : Piece.regs .mem ∈ L)
    (h_lpd_regs : Piece.regs .lpd ∈ L) (h_mce_regs : Piece.regs .mce ∈ L) (h_sec_regs : Piece.regs .sec ∈ L)
    (h_ras_regs : Piece.regs .ras ∈ L) (h_evr_regs : Piece.regs .evr ∈ L) (h_mem : Piece.mem ∈ L) (h_flights : Piece.flights ∈ L)
    (h_yard : Piece.yard ∈ L) (h_accs : Piece.accs ∈ L) (h_nextTag : Piece.nextTag ∈ L) (h_scn : Piece.scn ∈ L)
    (h_ports : Piece.ports ∈ L) (h_mce : Piece.mce ∈ L) (h_evr : Piece.evr ∈ L) (h_freeCtr : Piece.freeCtr ∈ L) (h : Reach L a s)
    : Reach L a (swapInTake x0 x1 x2 s) := by
  unfold swapInTake
  with_reducible repeat'
    (first | assumption | intro _ | extract_lets | (refine ReachP.use (by assumption) ?_) | apply scRead_reach |
      apply scPut_reach | apply swapInTook_reach | apply ReachP.ite | apply ReachP.foldl | apply ReachP.out |
      apply Reach.foldl | apply Reach.ite | split | (simp only [ReachP.pair_iff]) | (dsimp +zetaDelta only))

theorem swapOutStart_reach {L a x0 x1 r} (h_yrd_regs : Piece.regs .yrd ∈ L) (h_mem_regs : Piece.regs .mem ∈ L)
    (h_lpd_regs : Piece.regs .lpd ∈ L) (h_mce_regs : Piece.regs .mce ∈ L) (h_sec_regs : Piece.regs .sec ∈ L)
    (h_ras_regs : Piece.regs .ras ∈ L) (h_evr_regs : Piece.regs .evr ∈ L) (h_mem : Piece.mem ∈ L) (h_yard : Piece.yard ∈ L)
    (h_accs : Piece.accs ∈ L) (h_nextTag : Piece.nextTag ∈ L) (h_ports : Piece.ports ∈ L) (h_mce : Piece.mce ∈ L)
    (h_evr : Piece.evr ∈ L) (h_freeCtr : Piece.freeCtr ∈ L) (h : ReachP L a r) : ReachP L a (swapOutStart x0 x1 r) := by
  unfold swapOutStart
  with_reducible repeat'
    (first | assumption | intro _ | extract_lets | (refine ReachP.use (by assumption) ?_) | apply scRead_reach |
      apply scPut_reach | apply ReachP.ite | apply ReachP.foldl | apply ReachP.out | apply Reach.foldl | apply Reach.ite |
      split | (simp only [ReachP.pair_iff]) | (dsimp +zetaDelta only))

theorem swapInEvict_reach {L a s x0 x1} (h_yrd_regs : Piece.regs .yrd ∈ L) (h_mem_regs : Piece.regs .mem ∈ L)
    (h_lpd_regs : Piece.regs .lpd ∈ L) (h_mce_regs : Piece.regs .mce ∈ L) (h_sec_regs : Piece.regs .sec ∈ L)
    (h_ras_regs : Piece.regs .ras ∈ L) (h_evr_regs : Piece.regs .evr ∈ L) (h_mem : Piece.mem ∈ L) (h_flights : Piece.flights ∈ L)
    (h_yard : Piece.yard ∈ L) (h_accs : Piece.accs ∈ L) (h_nextTag : Piece.nextTag ∈ L) (h_scn : Piece.scn ∈ L)
    (h_ports : Piece.ports ∈ L) (h_mce : Piece.mce ∈ L) (h_evr : Piece.evr ∈ L) (h_freeCtr : Piece.freeCtr ∈ L) (h : Reach L a s)
    : Reach L a (swapInEvict x0 x1 s) := by
  unfold swapInEvict
  with_reducible repeat'
    (first | assumption | intro _ | extract_lets | (refine ReachP.use (by assumption) ?_) | apply swapOutStart_reach |
      apply swapInStop_reach | apply setSc_reach | apply ReachP.ite | apply ReachP.foldl | apply ReachP.out |
      apply Reach.foldl | apply Reach.ite | split | (simp only [ReachP.pair_iff]) | (dsimp +zetaDelta only))

theorem swapInStart_reach {L a s x0 x1} (h_yrd_regs : Piece.regs .yrd ∈ L) (h_mem_regs : Piece.regs .mem ∈ L)
    (h_lpd_regs : Piece.regs .lpd ∈ L) (h_mce_regs : Piece.regs .mce ∈ L) (h_sec_regs : Piece.regs .sec ∈ L)
    (h_ras_regs : Piece.regs .ras ∈ L) (h_evr_regs : Piece.regs .evr ∈ L) (h_mem : Piece.mem ∈ L) (h_flights : Piece.flights ∈ L)
    (h_yard : Piece.yard ∈ L) (h_accs : Piece.accs ∈ L) (h_nextTag : Piece.nextTag ∈ L) (h_scn : Piece.scn ∈ L)
    (h_ports : Piece.ports ∈ L) (h_mce : Piece.mce ∈ L) (h_evr : Piece.evr ∈ L) (h_freeCtr : Piece.freeCtr ∈ L) (h : Reach L a s)
    : Reach L a (swapInStart x0 x1 s) := by
  unfold swapInStart
  with_reducible repeat'
    (first | assumption | intro _ | extract_lets | apply swapInLost_reach | apply swapInTake_reach | apply swapInEvict_reach |
      apply Reach.foldl | apply Reach.ite | split | (dsimp +zetaDelta only))

theorem streamSwapIn_reach {L a s x0 x1} (h_yrd_regs : Piece.regs .yrd ∈ L) (h_mem_regs : Piece.regs .mem ∈ L)
    (h_lpd_regs : Piece.regs .lpd ∈ L) (h_mce_regs : Piece.regs .mce ∈ L) (h_sec_regs : Piece.regs .sec ∈ L)
    (h_ras_regs : Piece.regs .ras ∈ L) (h_evr_regs : Piece.regs .evr ∈ L) (h_mem : Piece.mem ∈ L) (h_flights : Piece.flights ∈ L)
    (h_yard : Piece.yard ∈ L) (h_accs : Piece.accs ∈ L) (h_nextTag : Piece.nextTag ∈ L) (h_scn : Piece.scn ∈ L)
    (h_ports : Piece.ports ∈ L) (h_mce : Piece.mce ∈ L) (h_evr : Piece.evr ∈ L) (h_freeCtr : Piece.freeCtr ∈ L) (h : Reach L a s)
    : Reach L a (streamSwapIn x0 x1 s) := by
  unfold streamSwapIn
  with_reducible repeat'
    (first | assumption | intro _ | extract_lets | apply swapInStart_reach | apply Reach.foldl | apply Reach.ite | split |
      (dsimp +zetaDelta only))

theorem scLoad_reach {L a x0 x1 r} (h_yrd_regs : Piece.regs .yrd ∈ L) (h_mem_regs : Piece.regs .mem ∈ L)
    (h_lpd_regs : Piece.regs .lpd ∈ L) (h_mce_regs : Piece.regs .mce ∈ L) (h_sec_regs : Piece.regs .sec ∈ L)
    (h_ras_regs : Piece.regs .ras ∈ L) (h_evr_regs : Piece.regs .evr ∈ L) (h_mem : Piece.mem ∈ L) (h_stks : Piece.stks ∈ L)
    (h_yard : Piece.yard ∈ L) (h_accs : Piece.accs ∈ L) (h_nextTag : Piece.nextTag ∈ L) (h_ports : Piece.ports ∈ L)
    (h_mce : Piece.mce ∈ L) (h_evr : Piece.evr ∈ L) (h_freeCtr : Piece.freeCtr ∈ L) (h : ReachP L a r) : ReachP L a
    (scLoad x0 x1 r) := by
  unfold scLoad
  with_reducible repeat'
    (first | assumption | intro _ | extract_lets | (refine ReachP.use (by assumption) ?_) | apply tryDo_reach |
      apply copyMem_reach | apply scService_reach | apply ReachP.ite | apply ReachP.foldl | apply ReachP.out |
      apply Reach.foldl | apply Reach.ite | split | (simp only [ReachP.pair_iff]) | (dsimp +zetaDelta only))

theorem swapInComplete_reach {L a s x0 x1} (h_yrd_regs : Piece.regs .yrd ∈ L) (h_mem_regs : Piece.regs .mem ∈ L)
    (h_lpd_regs : Piece.regs .lpd ∈ L) (h_mce_regs : Piece.regs .mce ∈ L) (h_scn_regs : Piece.regs .scn ∈ L)
    (h_sec_regs : Piece.regs .sec ∈ L) (h_ras_regs : Piece.regs .ras ∈ L) (h_evr_regs : Piece.regs .evr ∈ L)
    (h_mem : Piece.mem ∈ L) (h_flights : Piece.flights ∈ L) (h_stks : Piece.stks ∈ L) (h_yard : Piece.yard ∈ L)
    (h_accs : Piece.accs ∈ L) (h_nextTag : Piece.nextTag ∈ L) (h_scn : Piece.scn ∈ L) (h_ports : Piece.ports ∈ L)
    (h_mce : Piece.mce ∈ L) (h_evr : Piece.evr ∈ L) (h_freeCtr : Piece.freeCtr ∈ L) (h : Reach L a s) : Reach L a
    (swapInComplete x0 x1 s) := by
  unfold swapInComplete
  with_reducible repeat'
    (first | assumption | intro _ | extract_lets | (refine ReachP.use (by assumption) ?_) | apply scLoad_reach |
      apply scRead_reach | apply scPut_reach | apply inc_reach | apply swapInStop_reach | apply setSc_reach | apply ReachP.ite |
      apply ReachP.foldl | apply ReachP.out | apply Reach.foldl | apply Reach.ite | split | (simp only [ReachP.pair_iff]) |
      (dsimp +zetaDelta only))

theorem swapOutComplete_reach {L a s x0 x1} (h_yrd_regs : Piece.regs .yrd ∈ L) (h_mem_regs : Piece.regs .mem ∈ L)
    (h_lpd_regs : Piece.regs .lpd ∈ L) (h_mce_regs : Piece.regs .mce ∈ L) (h_scn_regs : Piece.regs .scn ∈ L)
    (h_sec_regs : Piece.regs .sec ∈ L) (h_ras_regs : Piece.regs .ras ∈ L) (h_evr_regs : Piece.regs .evr ∈ L)
    (h_mem : Piece.mem ∈ L) (h_stks : Piece.stks ∈ L) (h_yard : Piece.yard ∈ L) (h_accs : Piece.accs ∈ L)
    (h_nextTag : Piece.nextTag ∈ L) (h_scn : Piece.scn ∈ L) (h_ports : Piece.ports ∈ L) (h_mce : Piece.mce ∈ L)
    (h_evr : Piece.evr ∈ L) (h_freeCtr : Piece.freeCtr ∈ L) (h : Reach L a s) : Reach L a (swapOutComplete x0 x1 s) := by
  unfold swapOutComplete
  with_reducible repeat'
    (first | assumption | intro _ | extract_lets | (refine ReachP.use (by assumption) ?_) | apply scRead_reach |
      apply scStore_reach | apply stopped_reach | apply swapOutEnd_reach | apply ReachP.ite | apply ReachP.foldl |
      apply ReachP.out | apply Reach.foldl | apply Reach.ite | split | (simp only [ReachP.pair_iff]) | (dsimp +zetaDelta only))

theorem swapOutsEnd_reach {L a s x0} (h_yrd_regs : Piece.regs .yrd ∈ L) (h_mem_regs : Piece.regs .mem ∈ L)
    (h_lpd_regs : Piece.regs .lpd ∈ L) (h_mce_regs : Piece.regs .mce ∈ L) (h_scn_regs : Piece.regs .scn ∈ L)
    (h_sec_regs : Piece.regs .sec ∈ L) (h_ras_regs : Piece.regs .ras ∈ L) (h_evr_regs : Piece.regs .evr ∈ L)
    (h_mem : Piece.mem ∈ L) (h_stks : Piece.stks ∈ L) (h_yard : Piece.yard ∈ L) (h_accs : Piece.accs ∈ L)
    (h_nextTag : Piece.nextTag ∈ L) (h_scn : Piece.scn ∈ L) (h_ports : Piece.ports ∈ L) (h_mce : Piece.mce ∈ L)
    (h_evr : Piece.evr ∈ L) (h_freeCtr : Piece.freeCtr ∈ L) (h : Reach L a s) : Reach L a (swapOutsEnd x0 s) := by
  unfold swapOutsEnd
  with_reducible repeat'
    (first | assumption | intro _ | extract_lets | apply swapOutComplete_reach | apply wh_reach | apply Reach.foldl |
      apply Reach.ite | split | (dsimp +zetaDelta only))

theorem scBringIn_reach {L a s x0 x1} (h_yrd_regs : Piece.regs .yrd ∈ L) (h_mem_regs : Piece.regs .mem ∈ L)
    (h_lpd_regs : Piece.regs .lpd ∈ L) (h_mce_regs : Piece.regs .mce ∈ L) (h_scn_regs : Piece.regs .scn ∈ L)
    (h_sec_regs : Piece.regs .sec ∈ L) (h_ras_regs : Piece.regs .ras ∈ L) (h_evr_regs : Piece.regs .evr ∈ L)
    (h_mem : Piece.mem ∈ L) (h_flights : Piece.flights ∈ L) (h_stks : Piece.stks ∈ L) (h_yard : Piece.yard ∈ L)
    (h_accs : Piece.accs ∈ L) (h_nextTag : Piece.nextTag ∈ L) (h_scn : Piece.scn ∈ L) (h_ports : Piece.ports ∈ L)
    (h_mce : Piece.mce ∈ L) (h_evr : Piece.evr ∈ L) (h_freeCtr : Piece.freeCtr ∈ L) (h : Reach L a s) : Reach L a
    (scBringIn x0 x1 s) := by
  unfold scBringIn
  with_reducible repeat'
    (first | assumption | intro _ | extract_lets | apply swapInComplete_reach | apply swapOutComplete_reach |
      apply streamSwapIn_reach | apply swapOutsEnd_reach | apply Reach.foldl | apply Reach.ite | split |
      (dsimp +zetaDelta only))

theorem scanDone_reach {L a s x0} (h_ras_regs : Piece.regs .ras ∈ L) (h_evr_regs : Piece.regs .evr ∈ L)
    (h_flights : Piece.flights ∈ L) (h_evr : Piece.evr ∈ L) (h_freeCtr : Piece.freeCtr ∈ L) (h : Reach L a s) : Reach L a
    (scanDone x0 s) := by
  unfold scanDone
  with_reducible repeat'
    (first | assumption | intro _ | extract_lets | apply raiseArrays_reach | apply updFlight_reach | apply finish_reach |
      apply raiseV_reach | apply wh_reach | apply Reach.foldl | apply Reach.ite | split | (exact ⟨fun h => h, fun h => h⟩) |
      (refine ⟨fun _ e => ?_, fun h => h⟩; cases e) | (dsimp +zetaDelta only))

theorem scanBad_reach {L a s x0 x1 x2 x3} (h_ras_regs : Piece.regs .ras ∈ L) (h_evr_regs : Piece.regs .evr ∈ L)
    (h_mem : Piece.mem ∈ L) (h_flights : Piece.flights ∈ L) (h_evr : Piece.evr ∈ L) (h_freeCtr : Piece.freeCtr ∈ L)
    (h : Reach L a s) : Reach L a (scanBad x0 x1 x2 x3 s) := by
  unfold scanBad
  with_reducible repeat'
    (first | assumption | intro _ | extract_lets | apply updFlight_reach | apply finish_reach | apply raiseV_reach |
      apply scrambleAll_reach | apply Reach.foldl | apply Reach.ite | split | (exact ⟨fun h => h, fun h => h⟩) |
      (refine ⟨fun _ e => ?_, fun h => h⟩; cases e) | (dsimp +zetaDelta only))

theorem scanStore_reach {L a s x0 x1 x2 x3 x4 x5 x6} (h_yrd_regs : Piece.regs .yrd ∈ L) (h_mem_regs : Piece.regs .mem ∈ L)
    (h_lpd_regs : Piece.regs .lpd ∈ L) (h_mce_regs : Piece.regs .mce ∈ L) (h_sec_regs : Piece.regs .sec ∈ L)
    (h_ras_regs : Piece.regs .ras ∈ L) (h_evr_regs : Piece.regs .evr ∈ L) (h_mem : Piece.mem ∈ L) (h_flights : Piece.flights ∈ L)
    (h_yard : Piece.yard ∈ L) (h_accs : Piece.accs ∈ L) (h_nextTag : Piece.nextTag ∈ L) (h_ports : Piece.ports ∈ L)
    (h_mce : Piece.mce ∈ L) (h_evr : Piece.evr ∈ L) (h_freeCtr : Piece.freeCtr ∈ L) (h : Reach L a s) : Reach L a
    (scanStore x0 x1 x2 x3 x4 x5 x6 s) := by
  unfold scanStore
  with_reducible repeat'
    (first | assumption | intro _ | extract_lets | (refine ReachP.use (by assumption) ?_) | apply writeAll_reach |
      apply updFlight_reach | apply finish_reach | apply scanDone_reach | apply scanBad_reach | apply ReachP.ite |
      apply ReachP.foldl | apply ReachP.out | apply Reach.foldl | apply Reach.ite | split | (simp only [ReachP.pair_iff]) |
      (exact ⟨fun h => h, fun h => h⟩) | (refine ⟨fun _ e => ?_, fun h => h⟩; cases e) | (dsimp +zetaDelta only))

theorem countChunk_reach {L a s x0 x1 x2 x3} (h_clk_regs : Piece.regs .clk ∈ L) (h_arrs : Piece.arrs ∈ L)
    (h_freeCtr : Piece.freeCtr ∈ L) (h : Reach L a s) : Reach L a (countChunk x0 x1 x2 x3 s) := by
  unfold countChunk
  with_reducible repeat'
    (first | assumption | intro _ | extract_lets | apply countStall_reach | apply arrCount_reach | apply countRun_reach |
      apply raisePoint_reach | apply countTile_reach | apply ReachP.ite | apply ReachP.foldl | apply ReachP.out |
      apply Reach.foldl | apply Reach.ite | split | (simp only [ReachP.pair_iff]) | (dsimp +zetaDelta only))

theorem scanChunk_reach {L a s x0 x1 x2} (h_dsp_regs : Piece.regs .dsp ∈ L) (h_yrd_regs : Piece.regs .yrd ∈ L)
    (h_mem_regs : Piece.regs .mem ∈ L) (h_lpd_regs : Piece.regs .lpd ∈ L) (h_mce_regs : Piece.regs .mce ∈ L)
    (h_sec_regs : Piece.regs .sec ∈ L) (h_clk_regs : Piece.regs .clk ∈ L) (h_ras_regs : Piece.regs .ras ∈ L)
    (h_evr_regs : Piece.regs .evr ∈ L) (h_mem : Piece.mem ∈ L) (h_flights : Piece.flights ∈ L) (h_arrs : Piece.arrs ∈ L)
    (h_yard : Piece.yard ∈ L) (h_retrain : Piece.retrain ∈ L) (h_accs : Piece.accs ∈ L) (h_nextTag : Piece.nextTag ∈ L)
    (h_ports : Piece.ports ∈ L) (h_mce : Piece.mce ∈ L) (h_evr : Piece.evr ∈ L) (h_freeCtr : Piece.freeCtr ∈ L) (h : Reach L a s)
    : Reach L a (scanChunk x0 x1 x2 s) := by
  unfold scanChunk
  with_reducible repeat'
    (first | assumption | intro _ | extract_lets | (refine ReachP.use (by assumption) ?_) | apply proceed_reach |
      apply finish_reach | apply scanStore_reach | apply readAll_reach | apply countPin_reach | apply noteWait_reach |
      apply countChunk_reach | apply ReachP.ite | apply ReachP.foldl | apply ReachP.out | apply Reach.foldl | apply Reach.ite |
      split | (simp only [ReachP.pair_iff]) | (dsimp +zetaDelta only))

theorem scanHead_reach {L a s x0 x1 x2 x3} (h_dsp_regs : Piece.regs .dsp ∈ L) (h_yrd_regs : Piece.regs .yrd ∈ L)
    (h_mem_regs : Piece.regs .mem ∈ L) (h_lpd_regs : Piece.regs .lpd ∈ L) (h_mce_regs : Piece.regs .mce ∈ L)
    (h_sec_regs : Piece.regs .sec ∈ L) (h_clk_regs : Piece.regs .clk ∈ L) (h_ras_regs : Piece.regs .ras ∈ L)
    (h_evr_regs : Piece.regs .evr ∈ L) (h_mem : Piece.mem ∈ L) (h_flights : Piece.flights ∈ L) (h_arrs : Piece.arrs ∈ L)
    (h_yard : Piece.yard ∈ L) (h_retrain : Piece.retrain ∈ L) (h_accs : Piece.accs ∈ L) (h_nextTag : Piece.nextTag ∈ L)
    (h_ports : Piece.ports ∈ L) (h_mce : Piece.mce ∈ L) (h_evr : Piece.evr ∈ L) (h_freeCtr : Piece.freeCtr ∈ L) (h : Reach L a s)
    : Reach L a (scanHead x0 x1 x2 x3 s) := by
  induction x3 generalizing x0 x1 x2 s
  case zero =>
    rw [scanHead]
    with_reducible repeat'
      (first | assumption | apply ih | intro _ | extract_lets | apply scanChunk_reach | apply Reach.foldl | apply Reach.ite |
        split | (dsimp +zetaDelta only))
  case succ n ih =>
    rw [scanHead]
    with_reducible repeat'
      (first | assumption | apply ih | intro _ | extract_lets | apply scanChunk_reach | apply Reach.foldl | apply Reach.ite |
        split | (dsimp +zetaDelta only))

theorem scanAdmit_reach {L a s x0} (h_yrd_regs : Piece.regs .yrd ∈ L) (h_mem_regs : Piece.regs .mem ∈ L)
    (h_lpd_regs : Piece.regs .lpd ∈ L) (h_mce_regs : Piece.regs .mce ∈ L) (h_scn_regs : Piece.regs .scn ∈ L)
    (h_sec_regs : Piece.regs .sec ∈ L) (h_ras_regs : Piece.regs .ras ∈ L) (h_evr_regs : Piece.regs .evr ∈ L)
    (h_mem : Piece.mem ∈ L) (h_flights : Piece.flights ∈ L) (h_yard : Piece.yard ∈ L) (h_retrain : Piece.retrain ∈ L)
    (h_accs : Piece.accs ∈ L) (h_nextTag : Piece.nextTag ∈ L) (h_ports : Piece.ports ∈ L) (h_mce : Piece.mce ∈ L)
    (h_evr : Piece.evr ∈ L) (h_freeCtr : Piece.freeCtr ∈ L) (h : Reach L a s) : Reach L a (scanAdmit x0 s) := by
  unfold scanAdmit
  with_reducible repeat'
    (first | assumption | intro _ | extract_lets | (refine ReachP.use (by assumption) ?_) | apply scRead_reach |
      apply finish_reach | apply scanStop_reach | apply scanTake_reach | apply ReachP.ite | apply ReachP.foldl |
      apply ReachP.out | apply Reach.foldl | apply Reach.ite | split | (simp only [ReachP.pair_iff]) | (dsimp +zetaDelta only))

theorem scanGo_reach {L a s x0} (h_dsp_regs : Piece.regs .dsp ∈ L) (h_yrd_regs : Piece.regs .yrd ∈ L)
    (h_mem_regs : Piece.regs .mem ∈ L) (h_lpd_regs : Piece.regs .lpd ∈ L) (h_mce_regs : Piece.regs .mce ∈ L)
    (h_scn_regs : Piece.regs .scn ∈ L) (h_sec_regs : Piece.regs .sec ∈ L) (h_clk_regs : Piece.regs .clk ∈ L)
    (h_ras_regs : Piece.regs .ras ∈ L) (h_evr_regs : Piece.regs .evr ∈ L) (h_mem : Piece.mem ∈ L) (h_flights : Piece.flights ∈ L)
    (h_arrs : Piece.arrs ∈ L) (h_stks : Piece.stks ∈ L) (h_yard : Piece.yard ∈ L) (h_retrain : Piece.retrain ∈ L)
    (h_accs : Piece.accs ∈ L) (h_nextTag : Piece.nextTag ∈ L) (h_scn : Piece.scn ∈ L) (h_ports : Piece.ports ∈ L)
    (h_mce : Piece.mce ∈ L) (h_evr : Piece.evr ∈ L) (h_freeCtr : Piece.freeCtr ∈ L) (h : Reach L a s) : Reach L a (scanGo x0 s) :=
    by
  unfold scanGo
  with_reducible repeat'
    (first | assumption | intro _ | extract_lets | apply scBringIn_reach | apply scanDone_reach | apply scanHead_reach |
      apply scanAdmit_reach | apply ReachP.ite | apply ReachP.foldl | apply ReachP.out | apply Reach.foldl | apply Reach.ite |
      split | (simp only [ReachP.pair_iff]) | (dsimp +zetaDelta only))

theorem scnResult_reach {L a s x0 x1} (h_scn_regs : Piece.regs .scn ∈ L) (h : Reach L a s) : Reach L a (scnResult x0 x1 s) :=
    by
  unfold scnResult
  with_reducible repeat'
    (first | assumption | intro _ | extract_lets | apply st_reach | apply Reach.foldl | apply Reach.ite | split |
      (dsimp +zetaDelta only))

theorem scnWait_reach {L a s x0 x1 x2} (h_scn : Piece.scn ∈ L) (h : Reach L a s) : Reach L a (scnWait x0 x1 x2 s) := by
  unfold scnWait
  with_reducible repeat'
    (first | assumption | intro _ | extract_lets | apply setSc_reach | apply Reach.foldl | apply Reach.ite | split |
      (dsimp +zetaDelta only))

theorem scnEnds_reach {L a s x0 x1 x2 r} (h_mem_regs : Piece.regs .mem ∈ L) (h_lpd_regs : Piece.regs .lpd ∈ L)
    (h_mce_regs : Piece.regs .mce ∈ L) (h_scn_regs : Piece.regs .scn ∈ L) (h_sec_regs : Piece.regs .sec ∈ L)
    (h_ras_regs : Piece.regs .ras ∈ L) (h_evr_regs : Piece.regs .evr ∈ L) (h_scn : Piece.scn ∈ L) (h_evr : Piece.evr ∈ L)
    (h_freeCtr : Piece.freeCtr ∈ L) (h : Reach L a s) (hr : ReachP L a r) : Reach L a (scnEnds x0 x1 x2 s r) := by
  unfold scnEnds
  with_reducible repeat'
    (first | assumption | intro _ | extract_lets | apply scnResult_reach | apply stopped_reach | apply scnWait_reach |
      apply ReachP.ite | apply ReachP.foldl | apply ReachP.out | apply Reach.foldl | apply Reach.ite | split |
      (simp only [ReachP.pair_iff]) | (dsimp +zetaDelta only))

theorem swapCode_reach {L a s x0 x1 x2} (h_ras_regs : Piece.regs .ras ∈ L) (h_evr_regs : Piece.regs .evr ∈ L)
    (h_evr : Piece.evr ∈ L) (h_freeCtr : Piece.freeCtr ∈ L) (h : Reach L a s) : ReachP L a (swapCode x0 x1 x2 s) := by
  unfold swapCode
  with_reducible repeat'
    (first | assumption | intro _ | extract_lets | apply countCode_reach | apply wh_reach | apply ReachP.ite |
      apply ReachP.foldl | apply ReachP.out | apply Reach.foldl | apply Reach.ite | split | (simp only [ReachP.pair_iff]) |
      (dsimp +zetaDelta only))

theorem swapTurned_reach {L a x0 x1 x2 r} (h_ras_regs : Piece.regs .ras ∈ L) (h_evr_regs : Piece.regs .evr ∈ L)
    (h_evr : Piece.evr ∈ L) (h_freeCtr : Piece.freeCtr ∈ L) (h : ReachP L a r) : ReachP L a (swapTurned x0 x1 x2 r) := by
  unfold swapTurned
  with_reducible repeat'
    (first | assumption | intro _ | extract_lets | (refine ReachP.use (by assumption) ?_) | apply swapCode_reach |
      apply ReachP.ite | apply ReachP.foldl | apply ReachP.out | apply Reach.foldl | apply Reach.ite | split |
      (simp only [ReachP.pair_iff]) | (dsimp +zetaDelta only))

theorem swapTry_reach {L a s x0 r} (h_mem_regs : Piece.regs .mem ∈ L) (h_lpd_regs : Piece.regs .lpd ∈ L)
    (h_mce_regs : Piece.regs .mce ∈ L) (h_sec_regs : Piece.regs .sec ∈ L) (h_ras_regs : Piece.regs .ras ∈ L)
    (h_evr_regs : Piece.regs .evr ∈ L) (h_evr : Piece.evr ∈ L) (h_freeCtr : Piece.freeCtr ∈ L) (h : Reach L a s)
    (hr : ReachP L a r) : ReachP L a (swapTry x0 s r) := by
  unfold swapTry
  with_reducible repeat'
    (first | assumption | intro _ | extract_lets | apply stopped_reach | apply ReachP.ite | apply ReachP.foldl |
      apply ReachP.out | apply Reach.foldl | apply Reach.ite | split | (simp only [ReachP.pair_iff]) | (dsimp +zetaDelta only))

theorem swapAgain_reach {L a s x0 x1 x2 x3} (h_yrd_regs : Piece.regs .yrd ∈ L) (h_mem_regs : Piece.regs .mem ∈ L)
    (h_lpd_regs : Piece.regs .lpd ∈ L) (h_mce_regs : Piece.regs .mce ∈ L) (h_sec_regs : Piece.regs .sec ∈ L)
    (h_ras_regs : Piece.regs .ras ∈ L) (h_evr_regs : Piece.regs .evr ∈ L) (h_mem : Piece.mem ∈ L) (h_flights : Piece.flights ∈ L)
    (h_stks : Piece.stks ∈ L) (h_yard : Piece.yard ∈ L) (h_accs : Piece.accs ∈ L) (h_nextTag : Piece.nextTag ∈ L)
    (h_scn : Piece.scn ∈ L) (h_ports : Piece.ports ∈ L) (h_mce : Piece.mce ∈ L) (h_evr : Piece.evr ∈ L)
    (h_freeCtr : Piece.freeCtr ∈ L) (h : Reach L a s) : ReachP L a (swapAgain x0 x1 x2 x3 s) := by
  unfold swapAgain
  with_reducible repeat'
    (first | assumption | intro _ | extract_lets | (refine ReachP.use (by assumption) ?_) | apply scRead_reach |
      apply scStore_reach | apply swapOutStart_reach | apply swapInStart_reach | apply swapTry_reach | apply setSc_reach |
      apply ReachP.ite | apply ReachP.foldl | apply ReachP.out | apply Reach.foldl | apply Reach.ite | split |
      (simp only [ReachP.pair_iff]) | (dsimp +zetaDelta only))

theorem swapTurn_reach {L a x0 x1 r x3} (h_yrd_regs : Piece.regs .yrd ∈ L) (h_mem_regs : Piece.regs .mem ∈ L)
    (h_lpd_regs : Piece.regs .lpd ∈ L) (h_mce_regs : Piece.regs .mce ∈ L) (h_scn_regs : Piece.regs .scn ∈ L)
    (h_sec_regs : Piece.regs .sec ∈ L) (h_ras_regs : Piece.regs .ras ∈ L) (h_evr_regs : Piece.regs .evr ∈ L)
    (h_mem : Piece.mem ∈ L) (h_flights : Piece.flights ∈ L) (h_stks : Piece.stks ∈ L) (h_yard : Piece.yard ∈ L)
    (h_accs : Piece.accs ∈ L) (h_nextTag : Piece.nextTag ∈ L) (h_scn : Piece.scn ∈ L) (h_ports : Piece.ports ∈ L)
    (h_mce : Piece.mce ∈ L) (h_evr : Piece.evr ∈ L) (h_freeCtr : Piece.freeCtr ∈ L) (h : ReachP L a r) : ReachP L a
    (swapTurn x0 x1 r x3) := by
  unfold swapTurn
  with_reducible repeat'
    (first | assumption | intro _ | extract_lets | (refine ReachP.use (by assumption) ?_) | apply swapInComplete_reach |
      apply swapTurned_reach | apply swapAgain_reach | apply swapOutsEnd_reach | apply ReachP.ite | apply ReachP.foldl |
      apply ReachP.out | apply Reach.foldl | apply Reach.ite | split | (simp only [ReachP.pair_iff]) | (dsimp +zetaDelta only))

theorem swapTurns_reach {L a x0 x1 r} (h_yrd_regs : Piece.regs .yrd ∈ L) (h_mem_regs : Piece.regs .mem ∈ L)
    (h_lpd_regs : Piece.regs .lpd ∈ L) (h_mce_regs : Piece.regs .mce ∈ L) (h_scn_regs : Piece.regs .scn ∈ L)
    (h_sec_regs : Piece.regs .sec ∈ L) (h_ras_regs : Piece.regs .ras ∈ L) (h_evr_regs : Piece.regs .evr ∈ L)
    (h_mem : Piece.mem ∈ L) (h_flights : Piece.flights ∈ L) (h_stks : Piece.stks ∈ L) (h_yard : Piece.yard ∈ L)
    (h_accs : Piece.accs ∈ L) (h_nextTag : Piece.nextTag ∈ L) (h_scn : Piece.scn ∈ L) (h_ports : Piece.ports ∈ L)
    (h_mce : Piece.mce ∈ L) (h_evr : Piece.evr ∈ L) (h_freeCtr : Piece.freeCtr ∈ L) (h : ReachP L a r) : ReachP L a
    (swapTurns x0 x1 r) := by
  unfold swapTurns
  with_reducible repeat'
    (first | assumption | intro _ | extract_lets | (refine ReachP.use (by assumption) ?_) | apply swapTurn_reach |
      apply ReachP.ite | apply ReachP.foldl | apply ReachP.out | apply Reach.foldl | apply Reach.ite | split |
      (simp only [ReachP.pair_iff]) | (dsimp +zetaDelta only))

theorem swapWant_reach {L a s x0 x1} (h_scn : Piece.scn ∈ L) (h : Reach L a s) : Reach L a (swapWant x0 x1 s) := by
  unfold swapWant
  with_reducible repeat'
    (first | assumption | intro _ | extract_lets | apply setSc_reach | apply ReachP.ite | apply ReachP.foldl |
      apply ReachP.out | apply Reach.foldl | apply Reach.ite | split | (simp only [ReachP.pair_iff]) | (dsimp +zetaDelta only))

theorem swapStream_reach {L a s x0 x1 x2} (h_yrd_regs : Piece.regs .yrd ∈ L) (h_mem_regs : Piece.regs .mem ∈ L)
    (h_lpd_regs : Piece.regs .lpd ∈ L) (h_mce_regs : Piece.regs .mce ∈ L) (h_sec_regs : Piece.regs .sec ∈ L)
    (h_ras_regs : Piece.regs .ras ∈ L) (h_evr_regs : Piece.regs .evr ∈ L) (h_mem : Piece.mem ∈ L) (h_flights : Piece.flights ∈ L)
    (h_stks : Piece.stks ∈ L) (h_yard : Piece.yard ∈ L) (h_accs : Piece.accs ∈ L) (h_nextTag : Piece.nextTag ∈ L)
    (h_scn : Piece.scn ∈ L) (h_ports : Piece.ports ∈ L) (h_mce : Piece.mce ∈ L) (h_evr : Piece.evr ∈ L)
    (h_freeCtr : Piece.freeCtr ∈ L) (h : Reach L a s) : ReachP L a (swapStream x0 x1 x2 s) := by
  unfold swapStream
  with_reducible repeat'
    (first | assumption | intro _ | extract_lets | (refine ReachP.use (by assumption) ?_) | apply scRead_reach |
      apply scStore_reach | apply swapOutStart_reach | apply swapInStart_reach | apply swapTry_reach | apply swapWant_reach |
      apply ReachP.ite | apply ReachP.foldl | apply ReachP.out | apply Reach.foldl | apply Reach.ite | split |
      (simp only [ReachP.pair_iff]) | (dsimp +zetaDelta only))

theorem swapFirst_reach {L a s x0 x1 x2 x3} (h_yrd_regs : Piece.regs .yrd ∈ L) (h_mem_regs : Piece.regs .mem ∈ L)
    (h_lpd_regs : Piece.regs .lpd ∈ L) (h_mce_regs : Piece.regs .mce ∈ L) (h_sec_regs : Piece.regs .sec ∈ L)
    (h_ras_regs : Piece.regs .ras ∈ L) (h_evr_regs : Piece.regs .evr ∈ L) (h_mem : Piece.mem ∈ L) (h_flights : Piece.flights ∈ L)
    (h_stks : Piece.stks ∈ L) (h_yard : Piece.yard ∈ L) (h_accs : Piece.accs ∈ L) (h_nextTag : Piece.nextTag ∈ L)
    (h_scn : Piece.scn ∈ L) (h_ports : Piece.ports ∈ L) (h_mce : Piece.mce ∈ L) (h_evr : Piece.evr ∈ L)
    (h_freeCtr : Piece.freeCtr ∈ L) (h : Reach L a s) : ReachP L a (swapFirst x0 x1 x2 x3 s) := by
  unfold swapFirst
  with_reducible repeat'
    (first | assumption | intro _ | extract_lets | (refine ReachP.use (by assumption) ?_) | apply swapStream_reach |
      apply swapCode_reach | apply ReachP.ite | apply ReachP.foldl | apply ReachP.out | apply Reach.foldl | apply Reach.ite |
      split | (simp only [ReachP.pair_iff]) | (dsimp +zetaDelta only))

theorem swapGo_reach {L a s x0 x1} (h_yrd_regs : Piece.regs .yrd ∈ L) (h_mem_regs : Piece.regs .mem ∈ L)
    (h_lpd_regs : Piece.regs .lpd ∈ L) (h_mce_regs : Piece.regs .mce ∈ L) (h_scn_regs : Piece.regs .scn ∈ L)
    (h_sec_regs : Piece.regs .sec ∈ L) (h_ras_regs : Piece.regs .ras ∈ L) (h_evr_regs : Piece.regs .evr ∈ L)
    (h_mem : Piece.mem ∈ L) (h_flights : Piece.flights ∈ L) (h_stks : Piece.stks ∈ L) (h_yard : Piece.yard ∈ L)
    (h_accs : Piece.accs ∈ L) (h_nextTag : Piece.nextTag ∈ L) (h_scn : Piece.scn ∈ L) (h_ports : Piece.ports ∈ L)
    (h_mce : Piece.mce ∈ L) (h_evr : Piece.evr ∈ L) (h_freeCtr : Piece.freeCtr ∈ L) (h : Reach L a s) : Reach L a (swapGo x0 x1 s)
    := by
  unfold swapGo
  with_reducible repeat'
    (first | assumption | intro _ | extract_lets | (refine ReachP.use (by assumption) ?_) | apply swapTurns_reach |
      apply updFlight_reach | apply finish_reach | apply swapFirst_reach | apply ReachP.ite | apply ReachP.foldl |
      apply ReachP.out | apply Reach.foldl | apply Reach.ite | split | (simp only [ReachP.pair_iff]) |
      (exact ⟨fun h => h, fun h => h⟩) | (refine ⟨fun _ e => ?_, fun h => h⟩; cases e) | (dsimp +zetaDelta only))

theorem scnClose_reach {L a s x0 x1} (h_yrd_regs : Piece.regs .yrd ∈ L) (h_mem_regs : Piece.regs .mem ∈ L)
    (h_lpd_regs : Piece.regs .lpd ∈ L) (h_mce_regs : Piece.regs .mce ∈ L) (h_scn_regs : Piece.regs .scn ∈ L)
    (h_sec_regs : Piece.regs .sec ∈ L) (h_ras_regs : Piece.regs .ras ∈ L) (h_evr_regs : Piece.regs .evr ∈ L)
    (h_mem : Piece.mem ∈ L) (h_stks : Piece.stks ∈ L) (h_yard : Piece.yard ∈ L) (h_accs : Piece.accs ∈ L)
    (h_nextTag : Piece.nextTag ∈ L) (h_scn : Piece.scn ∈ L) (h_ports : Piece.ports ∈ L) (h_mce : Piece.mce ∈ L)
    (h_evr : Piece.evr ∈ L) (h_freeCtr : Piece.freeCtr ∈ L) (h : Reach L a s) : ReachP L a (scnClose x0 x1 s) := by
  unfold scnClose
  with_reducible repeat'
    (first | assumption | intro _ | extract_lets | (refine ReachP.use (by assumption) ?_) | apply scStore_reach |
      apply tryDo_reach | apply scPut_reach | apply st_reach | apply swapOutEnd_reach | apply ReachP.ite | apply ReachP.foldl |
      apply ReachP.out | apply Reach.foldl | apply Reach.ite | split | (simp only [ReachP.pair_iff]) | (dsimp +zetaDelta only))

theorem scnZero_reach {L a s x0 x1} (h_yrd_regs : Piece.regs .yrd ∈ L) (h_mem_regs : Piece.regs .mem ∈ L)
    (h_lpd_regs : Piece.regs .lpd ∈ L) (h_mce_regs : Piece.regs .mce ∈ L) (h_sec_regs : Piece.regs .sec ∈ L)
    (h_ras_regs : Piece.regs .ras ∈ L) (h_evr_regs : Piece.regs .evr ∈ L) (h_mem : Piece.mem ∈ L) (h_yard : Piece.yard ∈ L)
    (h_accs : Piece.accs ∈ L) (h_nextTag : Piece.nextTag ∈ L) (h_ports : Piece.ports ∈ L) (h_mce : Piece.mce ∈ L)
    (h_evr : Piece.evr ∈ L) (h_freeCtr : Piece.freeCtr ∈ L) (h : Reach L a s) : ReachP L a (scnZero x0 x1 s) := by
  unfold scnZero
  with_reducible repeat'
    (first | assumption | intro _ | extract_lets | (refine ReachP.use (by assumption) ?_) | apply tryWrite_reach |
      apply ReachP.ite | apply ReachP.foldl | apply ReachP.out | apply Reach.foldl | apply Reach.ite | split |
      (simp only [ReachP.pair_iff]) | (dsimp +zetaDelta only))

theorem scnOpen_reach {L a s x0 x1} (h_yrd_regs : Piece.regs .yrd ∈ L) (h_mem_regs : Piece.regs .mem ∈ L)
    (h_lpd_regs : Piece.regs .lpd ∈ L) (h_mce_regs : Piece.regs .mce ∈ L) (h_scn_regs : Piece.regs .scn ∈ L)
    (h_sec_regs : Piece.regs .sec ∈ L) (h_ras_regs : Piece.regs .ras ∈ L) (h_evr_regs : Piece.regs .evr ∈ L)
    (h_mem : Piece.mem ∈ L) (h_yard : Piece.yard ∈ L) (h_accs : Piece.accs ∈ L) (h_nextTag : Piece.nextTag ∈ L)
    (h_ports : Piece.ports ∈ L) (h_mce : Piece.mce ∈ L) (h_evr : Piece.evr ∈ L) (h_freeCtr : Piece.freeCtr ∈ L) (h : Reach L a s)
    : ReachP L a (scnOpen x0 x1 s) := by
  unfold scnOpen
  with_reducible repeat'
    (first | assumption | intro _ | extract_lets | (refine ReachP.use (by assumption) ?_) | apply tryDo_reach |
      apply scPut_reach | apply inc_reach | apply ReachP.ite | apply ReachP.foldl | apply ReachP.out | apply Reach.foldl |
      apply Reach.ite | split | (simp only [ReachP.pair_iff]) | (dsimp +zetaDelta only))

theorem scnRun_reach {L a s x0 x1 x2} (h_yrd_regs : Piece.regs .yrd ∈ L) (h_mem_regs : Piece.regs .mem ∈ L)
    (h_lpd_regs : Piece.regs .lpd ∈ L) (h_mce_regs : Piece.regs .mce ∈ L) (h_scn_regs : Piece.regs .scn ∈ L)
    (h_sec_regs : Piece.regs .sec ∈ L) (h_ras_regs : Piece.regs .ras ∈ L) (h_evr_regs : Piece.regs .evr ∈ L)
    (h_mem : Piece.mem ∈ L) (h_stks : Piece.stks ∈ L) (h_yard : Piece.yard ∈ L) (h_accs : Piece.accs ∈ L)
    (h_nextTag : Piece.nextTag ∈ L) (h_scn : Piece.scn ∈ L) (h_ports : Piece.ports ∈ L) (h_mce : Piece.mce ∈ L)
    (h_evr : Piece.evr ∈ L) (h_freeCtr : Piece.freeCtr ∈ L) (h : Reach L a s) : Reach L a (scnRun x0 x1 x2 s) := by
  unfold scnRun
  with_reducible repeat'
    (first | assumption | intro _ | extract_lets | (refine ReachP.use (by assumption) ?_) | apply scnResult_reach |
      apply scRead_reach | apply scnEnds_reach | apply scnClose_reach | apply scnZero_reach | apply scnOpen_reach |
      apply scnWait_reach | apply ReachP.ite | apply ReachP.foldl | apply ReachP.out | apply Reach.foldl | apply Reach.ite |
      split | (simp only [ReachP.pair_iff]) | (dsimp +zetaDelta only))

theorem scnCommand_reach {L a s x0 x1 x2} (h_yrd_regs : Piece.regs .yrd ∈ L) (h_mem_regs : Piece.regs .mem ∈ L)
    (h_lpd_regs : Piece.regs .lpd ∈ L) (h_mce_regs : Piece.regs .mce ∈ L) (h_scn_regs : Piece.regs .scn ∈ L)
    (h_sec_regs : Piece.regs .sec ∈ L) (h_ras_regs : Piece.regs .ras ∈ L) (h_evr_regs : Piece.regs .evr ∈ L)
    (h_mem : Piece.mem ∈ L) (h_stks : Piece.stks ∈ L) (h_yard : Piece.yard ∈ L) (h_accs : Piece.accs ∈ L)
    (h_nextTag : Piece.nextTag ∈ L) (h_scn : Piece.scn ∈ L) (h_ports : Piece.ports ∈ L) (h_mce : Piece.mce ∈ L)
    (h_evr : Piece.evr ∈ L) (h_freeCtr : Piece.freeCtr ∈ L) (h : Reach L a s) : Reach L a (scnCommand x0 x1 x2 s) := by
  unfold scnCommand
  with_reducible repeat'
    (first | assumption | intro _ | extract_lets | apply scnResult_reach | apply scnRun_reach | apply st_reach |
      apply Reach.foldl | apply Reach.ite | split | (dsimp +zetaDelta only))

theorem scnRow_reach {L a s x0 x1 x2} (h_yrd_regs : Piece.regs .yrd ∈ L) (h_mem_regs : Piece.regs .mem ∈ L)
    (h_lpd_regs : Piece.regs .lpd ∈ L) (h_mce_regs : Piece.regs .mce ∈ L) (h_scn_regs : Piece.regs .scn ∈ L)
    (h_sec_regs : Piece.regs .sec ∈ L) (h_ras_regs : Piece.regs .ras ∈ L) (h_evr_regs : Piece.regs .evr ∈ L)
    (h_bus : Piece.bus ∈ L) (h_mem : Piece.mem ∈ L) (h_stks : Piece.stks ∈ L) (h_yard : Piece.yard ∈ L) (h_accs : Piece.accs ∈ L)
    (h_nextTag : Piece.nextTag ∈ L) (h_scn : Piece.scn ∈ L) (h_ports : Piece.ports ∈ L) (h_mce : Piece.mce ∈ L)
    (h_evr : Piece.evr ∈ L) (h_freeCtr : Piece.freeCtr ∈ L) (h : Reach L a s) : Reach L a (scnRow x0 x1 x2 s) := by
  unfold scnRow
  with_reducible repeat'
    (first | assumption | intro _ | extract_lets | apply scnCommand_reach | apply Reach.foldl | apply Reach.ite | split |
      apply Reach.bus | (dsimp +zetaDelta only))

theorem scanReplay_reach {L a s x0} (h_flights : Piece.flights ∈ L) (h : Reach L a s) : Reach L a (scanReplay x0 s) := by
  unfold scanReplay
  with_reducible repeat'
    (first | assumption | intro _ | extract_lets | apply updFlight_reach | apply Reach.foldl | apply Reach.ite | split |
      (exact ⟨fun h => h, fun h => h⟩) | (refine ⟨fun _ e => ?_, fun h => h⟩; cases e) | (dsimp +zetaDelta only))

theorem scnReleased_reach {L a s x0} (h_yrd_regs : Piece.regs .yrd ∈ L) (h_mem_regs : Piece.regs .mem ∈ L)
    (h_lpd_regs : Piece.regs .lpd ∈ L) (h_mce_regs : Piece.regs .mce ∈ L) (h_scn_regs : Piece.regs .scn ∈ L)
    (h_sec_regs : Piece.regs .sec ∈ L) (h_ras_regs : Piece.regs .ras ∈ L) (h_evr_regs : Piece.regs .evr ∈ L)
    (h_mem : Piece.mem ∈ L) (h_stks : Piece.stks ∈ L) (h_yard : Piece.yard ∈ L) (h_accs : Piece.accs ∈ L)
    (h_nextTag : Piece.nextTag ∈ L) (h_scn : Piece.scn ∈ L) (h_ports : Piece.ports ∈ L) (h_mce : Piece.mce ∈ L)
    (h_evr : Piece.evr ∈ L) (h_freeCtr : Piece.freeCtr ∈ L) (h : Reach L a s) : Reach L a (scnReleased x0 s) := by
  unfold scnReleased
  with_reducible repeat'
    (first | assumption | intro _ | extract_lets | apply scnRun_reach | apply setSc_reach | apply Reach.foldl |
      apply Reach.ite | split | (dsimp +zetaDelta only))

theorem scanRelease_reach {L a s x0} (h_yrd_regs : Piece.regs .yrd ∈ L) (h_mem_regs : Piece.regs .mem ∈ L)
    (h_lpd_regs : Piece.regs .lpd ∈ L) (h_mce_regs : Piece.regs .mce ∈ L) (h_sec_regs : Piece.regs .sec ∈ L)
    (h_ras_regs : Piece.regs .ras ∈ L) (h_evr_regs : Piece.regs .evr ∈ L) (h_mem : Piece.mem ∈ L) (h_yard : Piece.yard ∈ L)
    (h_accs : Piece.accs ∈ L) (h_nextTag : Piece.nextTag ∈ L) (h_ports : Piece.ports ∈ L) (h_mce : Piece.mce ∈ L)
    (h_evr : Piece.evr ∈ L) (h_freeCtr : Piece.freeCtr ∈ L) (h : Reach L a s) : Reach L a (scanRelease x0 s) := by
  unfold scanRelease
  with_reducible repeat'
    (first | assumption | intro _ | extract_lets | (refine ReachP.use (by assumption) ?_) | apply scPut_reach |
      apply ReachP.ite | apply ReachP.foldl | apply ReachP.out | apply Reach.foldl | apply Reach.ite | split |
      (simp only [ReachP.pair_iff]) | (dsimp +zetaDelta only))

theorem scanTurn_reach {L a s x0 x1} (h_scn : Piece.scn ∈ L) (h : Reach L a s) : Reach L a (scanTurn x0 x1 s) := by
  unfold scanTurn
  with_reducible repeat'
    (first | assumption | intro _ | extract_lets | apply setSc_reach | apply Reach.foldl | apply Reach.ite | split |
      (dsimp +zetaDelta only))

theorem scanOutcome_reach {L a x0 r} (h_yrd_regs : Piece.regs .yrd ∈ L) (h_mem_regs : Piece.regs .mem ∈ L)
    (h_lpd_regs : Piece.regs .lpd ∈ L) (h_mce_regs : Piece.regs .mce ∈ L) (h_scn_regs : Piece.regs .scn ∈ L)
    (h_sec_regs : Piece.regs .sec ∈ L) (h_ras_regs : Piece.regs .ras ∈ L) (h_evr_regs : Piece.regs .evr ∈ L)
    (h_mem : Piece.mem ∈ L) (h_yard : Piece.yard ∈ L) (h_accs : Piece.accs ∈ L) (h_nextTag : Piece.nextTag ∈ L)
    (h_scn : Piece.scn ∈ L) (h_ports : Piece.ports ∈ L) (h_mce : Piece.mce ∈ L) (h_evr : Piece.evr ∈ L)
    (h_freeCtr : Piece.freeCtr ∈ L) (h : ReachP L a r) : ReachP L a (scanOutcome x0 r) := by
  unfold scanOutcome
  with_reducible repeat'
    (first | assumption | intro _ | extract_lets | (refine ReachP.use (by assumption) ?_) | apply scRead_reach |
      apply tryDo_reach | apply scPut_reach | apply scanTurn_reach | apply inc_reach | apply ReachP.ite | apply ReachP.foldl |
      apply ReachP.out | apply Reach.foldl | apply Reach.ite | split | (simp only [ReachP.pair_iff]) | (dsimp +zetaDelta only))

end Sys2Proof.Machine
end

