-- ==== Sys2Proof/Laws/ReachRas.lean ====
section
/-!
SUPPORT. What each operation of Machine/Ras.lean can change.
-/
namespace Sys2Proof.Machine

set_option linter.unusedTactic false
set_option linter.unreachableTactic false
set_option linter.unusedSimpArgs false

theorem setEvr_reach {L a s x0} (h_evr : Piece.evr ∈ L) (h : Reach L a s) : Reach L a (setEvr x0 s) := by
  unfold setEvr
  with_reducible repeat'
    (first | assumption | intro _ | extract_lets | apply Reach.foldl | apply Reach.ite | split | apply Reach.evr |
      (dsimp +zetaDelta only))

theorem startFlush_reach {L a s x0} (h_evr : Piece.evr ∈ L) (h_freeCtr : Piece.freeCtr ∈ L) (h : Reach L a s) : Reach L a
    (startFlush x0 s) := by
  unfold startFlush
  with_reducible repeat'
    (first | assumption | intro _ | extract_lets | apply setEvr_reach | apply tickFree_reach | apply Reach.foldl |
      apply Reach.ite | split | (dsimp +zetaDelta only))

theorem deferredFlush_reach {L a s} (h_evr : Piece.evr ∈ L) (h_freeCtr : Piece.freeCtr ∈ L) (h : Reach L a s) : Reach L a
    (deferredFlush s) := by
  unfold deferredFlush
  with_reducible repeat'
    (first | assumption | intro _ | extract_lets | apply setEvr_reach | apply startFlush_reach | apply Reach.foldl |
      apply Reach.ite | split | (dsimp +zetaDelta only))

theorem requestFlush_reach {L a s x0} (h_ras_regs : Piece.regs .ras ∈ L) (h_evr_regs : Piece.regs .evr ∈ L)
    (h_evr : Piece.evr ∈ L) (h_freeCtr : Piece.freeCtr ∈ L) (h : Reach L a s) : Reach L a (requestFlush x0 s) := by
  unfold requestFlush
  with_reducible repeat'
    (first | assumption | intro _ | extract_lets | apply inc_reach | apply setEvr_reach | apply raise_reach |
      apply startFlush_reach | apply Reach.foldl | apply Reach.ite | split | (dsimp +zetaDelta only))

theorem freeRecord_reach {L a s x0} (h_evr_regs : Piece.regs .evr ∈ L) (h_evr : Piece.evr ∈ L) (h : Reach L a s) : Reach L a
    (freeRecord x0 s) := by
  unfold freeRecord
  with_reducible repeat'
    (first | assumption | intro _ | extract_lets | apply setEvr_reach | apply incSat_reach | apply Reach.foldl |
      apply Reach.ite | split | (dsimp +zetaDelta only))

theorem recordKey_reach {L a s x0 x1} (h_evr_regs : Piece.regs .evr ∈ L) (h_evr : Piece.evr ∈ L) (h : Reach L a s) : Reach L a
    (recordKey x0 x1 s) := by
  unfold recordKey
  with_reducible repeat'
    (first | assumption | intro _ | extract_lets | apply inc_reach | apply setEvr_reach | apply incSat_reach |
      apply Reach.foldl | apply Reach.ite | split | (dsimp +zetaDelta only))

theorem eventRecord_reach {L a s x0} (h_ras_regs : Piece.regs .ras ∈ L) (h_evr_regs : Piece.regs .evr ∈ L)
    (h_evr : Piece.evr ∈ L) (h_freeCtr : Piece.freeCtr ∈ L) (h : Reach L a s) : Reach L a (eventRecord x0 s) := by
  unfold eventRecord
  with_reducible repeat'
    (first | assumption | intro _ | extract_lets | apply requestFlush_reach | apply setEvr_reach | apply freeRecord_reach |
      apply recordKey_reach | apply wh_reach | apply Reach.foldl | apply Reach.ite | split | (dsimp +zetaDelta only))

theorem evrPark_reach {L a s x0 x1 x2} (h_evr_regs : Piece.regs .evr ∈ L) (h_evr : Piece.evr ∈ L) (h : Reach L a s) : Reach L
    a (evrPark x0 x1 x2 s) := by
  unfold evrPark
  with_reducible repeat'
    (first | assumption | intro _ | extract_lets | apply st_reach | apply setEvr_reach | apply Reach.foldl | apply Reach.ite |
      split | (dsimp +zetaDelta only))

theorem evrResult_reach {L a s x0} (h_evr_regs : Piece.regs .evr ∈ L) (h : Reach L a s) : Reach L a (evrResult x0 s) := by
  unfold evrResult
  with_reducible repeat'
    (first | assumption | intro _ | extract_lets | apply st_reach | apply Reach.foldl | apply Reach.ite | split |
      (dsimp +zetaDelta only))

theorem evrDump_reach {L a s x0} (h_yrd_regs : Piece.regs .yrd ∈ L) (h_mem_regs : Piece.regs .mem ∈ L)
    (h_lpd_regs : Piece.regs .lpd ∈ L) (h_mce_regs : Piece.regs .mce ∈ L) (h_sec_regs : Piece.regs .sec ∈ L)
    (h_ras_regs : Piece.regs .ras ∈ L) (h_evr_regs : Piece.regs .evr ∈ L) (h_mem : Piece.mem ∈ L) (h_yard : Piece.yard ∈ L)
    (h_accs : Piece.accs ∈ L) (h_nextTag : Piece.nextTag ∈ L) (h_ports : Piece.ports ∈ L) (h_mce : Piece.mce ∈ L)
    (h_evr : Piece.evr ∈ L) (h_freeCtr : Piece.freeCtr ∈ L) (h : Reach L a s) : Reach L a (evrDump x0 s) := by
  unfold evrDump
  with_reducible repeat'
    (first | assumption | intro _ | extract_lets | (refine ReachP.use (by assumption) ?_) | apply evrPark_reach |
      apply memWrite_reach | apply evrResult_reach | apply ReachP.ite | apply ReachP.foldl | apply ReachP.out |
      apply Reach.foldl | apply Reach.ite | split | (simp only [ReachP.pair_iff]) | (dsimp +zetaDelta only))

theorem evrRingRead_reach {L a s x0 x1} (h_yrd_regs : Piece.regs .yrd ∈ L) (h_mem_regs : Piece.regs .mem ∈ L)
    (h_lpd_regs : Piece.regs .lpd ∈ L) (h_mce_regs : Piece.regs .mce ∈ L) (h_sec_regs : Piece.regs .sec ∈ L)
    (h_ras_regs : Piece.regs .ras ∈ L) (h_evr_regs : Piece.regs .evr ∈ L) (h_mem : Piece.mem ∈ L) (h_yard : Piece.yard ∈ L)
    (h_accs : Piece.accs ∈ L) (h_nextTag : Piece.nextTag ∈ L) (h_ports : Piece.ports ∈ L) (h_mce : Piece.mce ∈ L)
    (h_evr : Piece.evr ∈ L) (h_freeCtr : Piece.freeCtr ∈ L) (h : Reach L a s) : Reach L a (evrRingRead x0 x1 s) := by
  unfold evrRingRead
  with_reducible repeat'
    (first | assumption | intro _ | extract_lets | (refine ReachP.use (by assumption) ?_) | apply evrPark_reach |
      apply memWrite_reach | apply evrResult_reach | apply poke_reach | apply ReachP.ite | apply ReachP.foldl |
      apply ReachP.out | apply Reach.foldl | apply Reach.ite | split | (simp only [ReachP.pair_iff]) | (dsimp +zetaDelta only))

theorem evrRetry_reach {L a s} (h_yrd_regs : Piece.regs .yrd ∈ L) (h_mem_regs : Piece.regs .mem ∈ L)
    (h_lpd_regs : Piece.regs .lpd ∈ L) (h_mce_regs : Piece.regs .mce ∈ L) (h_sec_regs : Piece.regs .sec ∈ L)
    (h_ras_regs : Piece.regs .ras ∈ L) (h_evr_regs : Piece.regs .evr ∈ L) (h_mem : Piece.mem ∈ L) (h_yard : Piece.yard ∈ L)
    (h_accs : Piece.accs ∈ L) (h_nextTag : Piece.nextTag ∈ L) (h_ports : Piece.ports ∈ L) (h_mce : Piece.mce ∈ L)
    (h_evr : Piece.evr ∈ L) (h_freeCtr : Piece.freeCtr ∈ L) (h : Reach L a s) : Reach L a (evrRetry s) := by
  unfold evrRetry
  with_reducible repeat'
    (first | assumption | intro _ | extract_lets | apply evrDump_reach | apply evrRingRead_reach | apply setEvr_reach |
      apply Reach.foldl | apply Reach.ite | split | (dsimp +zetaDelta only))

theorem onZero_reach {L a s x0 x1} (h_bus : Piece.bus ∈ L) (hf : ∀ t, Reach L a t → Reach L a (x1 t)) (h : Reach L a s) :
    Reach L a (onZero x0 x1 s) := by
  unfold onZero
  with_reducible repeat'
    (first | assumption | intro _ | extract_lets | apply Reach.foldl | apply Reach.ite | split | apply hf | apply Reach.bus |
      (dsimp +zetaDelta only))

theorem evrClear_reach {L a s} (h_evr_regs : Piece.regs .evr ∈ L) (h_evr : Piece.evr ∈ L) (h : Reach L a s) : Reach L a
    (evrClear s) := by
  unfold evrClear
  with_reducible repeat'
    (first | assumption | intro _ | extract_lets | apply evrResult_reach | apply st_reach | apply setEvr_reach |
      apply ReachP.ite | apply ReachP.foldl | apply ReachP.out | apply Reach.foldl | apply Reach.ite | split |
      (simp only [ReachP.pair_iff]) | (dsimp +zetaDelta only))

theorem evrCommand_reach {L a s x0 x1} (h_yrd_regs : Piece.regs .yrd ∈ L) (h_mem_regs : Piece.regs .mem ∈ L)
    (h_lpd_regs : Piece.regs .lpd ∈ L) (h_mce_regs : Piece.regs .mce ∈ L) (h_sec_regs : Piece.regs .sec ∈ L)
    (h_ras_regs : Piece.regs .ras ∈ L) (h_evr_regs : Piece.regs .evr ∈ L) (h_mem : Piece.mem ∈ L) (h_yard : Piece.yard ∈ L)
    (h_accs : Piece.accs ∈ L) (h_nextTag : Piece.nextTag ∈ L) (h_ports : Piece.ports ∈ L) (h_mce : Piece.mce ∈ L)
    (h_evr : Piece.evr ∈ L) (h_freeCtr : Piece.freeCtr ∈ L) (h : Reach L a s) : Reach L a (evrCommand x0 x1 s) := by
  unfold evrCommand
  with_reducible repeat'
    (first | assumption | intro _ | extract_lets | apply evrClear_reach | apply evrDump_reach | apply evrRingRead_reach |
      apply requestFlush_reach | apply evrResult_reach | apply st_reach | apply Reach.foldl | apply Reach.ite | split |
      (dsimp +zetaDelta only))

theorem evrBoot_reach {L a s} (h_evr : Piece.evr ∈ L) (h : Reach L a s) : Reach L a (evrBoot s) := by
  unfold evrBoot
  with_reducible repeat'
    (first | assumption | intro _ | extract_lets | apply setEvr_reach | apply Reach.foldl | apply Reach.ite | split |
      (dsimp +zetaDelta only))

theorem moduleFail_reach {L a s x0 x1 x2 x3 x4} (h_ras_regs : Piece.regs .ras ∈ L) (h_evr_regs : Piece.regs .evr ∈ L)
    (h_x1 : Piece.regs x1.blk ∈ L) (h_evr : Piece.evr ∈ L) (h_freeCtr : Piece.freeCtr ∈ L) (h : Reach L a s) : Reach L a
    (moduleFail x0 x1 x2 x3 x4 s) := by
  unfold moduleFail
  with_reducible repeat'
    (first | assumption | intro _ | extract_lets | apply setErr_reach | apply st_reach | apply inc_reach | apply raise_reach |
      apply wh_reach | apply Reach.foldl | apply Reach.ite | split | (dsimp +zetaDelta only))

theorem eraseFrame_reach {L a s} (h_flash : Piece.flash ∈ L) (h_evr : Piece.evr ∈ L) (h : Reach L a s) : Reach L a
    (eraseFrame s) := by
  unfold eraseFrame
  with_reducible repeat'
    (first | assumption | intro _ | extract_lets | apply setEvr_reach | apply ReachP.ite | apply ReachP.foldl |
      apply ReachP.out | apply Reach.foldl | apply Reach.ite | split | apply Reach.flash | apply tabWf_tabSet |
      apply tabWf_putBytes | apply tabWf_filter | (simp only [ReachP.pair_iff]) | (dsimp +zetaDelta only))

theorem flashPut_reach {L a s x0 x1} (h_flash : Piece.flash ∈ L) (h : Reach L a s) : Reach L a (flashPut x0 x1 s) := by
  unfold flashPut
  with_reducible repeat'
    (first | assumption | intro _ | extract_lets | apply Reach.foldl | apply Reach.ite | split | apply Reach.flash |
      apply tabWf_tabSet | apply tabWf_putBytes | apply tabWf_filter | (dsimp +zetaDelta only))

theorem flushDone_reach {L a s} (h_flash : Piece.flash ∈ L) (h_evr : Piece.evr ∈ L) (h : Reach L a s) : Reach L a
    (flushDone s) := by
  unfold flushDone
  with_reducible repeat'
    (first | assumption | intro _ | extract_lets | apply setEvr_reach | apply flashPut_reach | apply Reach.foldl |
      apply Reach.ite | split | (dsimp +zetaDelta only))

theorem powerFailFlush_reach {L a s} (h_flash : Piece.flash ∈ L) (h_evr : Piece.evr ∈ L) (h_freeCtr : Piece.freeCtr ∈ L)
    (h : Reach L a s) : Reach L a (powerFailFlush s) := by
  unfold powerFailFlush
  with_reducible repeat'
    (first | assumption | intro _ | extract_lets | apply setEvr_reach | apply flashPut_reach | apply startFlush_reach |
      apply Reach.foldl | apply Reach.ite | split | (dsimp +zetaDelta only))

end Sys2Proof.Machine
end

