-- ==== Sys2Proof/Laws/ReachDrbg.lean ====
section
/-!
SUPPORT. What each operation of Machine/Drbg.lean can change.
-/
namespace Sys2Proof.Machine

set_option linter.unusedTactic false
set_option linter.unreachableTactic false
set_option linter.unusedSimpArgs false

theorem healthTests_reach {L a s x0} (h_sec_regs : Piece.regs .sec ∈ L) (h_ras_regs : Piece.regs .ras ∈ L)
    (h_evr_regs : Piece.regs .evr ∈ L) (h_sec : Piece.sec ∈ L) (h_evr : Piece.evr ∈ L) (h_freeCtr : Piece.freeCtr ∈ L)
    (h : Reach L a s) : ReachP L a (healthTests x0 s) := by
  unfold healthTests
  with_reducible repeat'
    (first | assumption | intro _ | extract_lets | apply inc_reach | apply moduleFail_reach | apply ReachP.ite |
      apply ReachP.foldl | apply ReachP.out | apply Reach.foldl | apply Reach.ite | split | apply Reach.sec |
      (simp only [ReachP.pair_iff]) | (dsimp +zetaDelta only))

theorem drawEntropy_reach {L a s} (h_sec : Piece.sec ∈ L) (h : Reach L a s) : Reach L a (drawEntropy s).2 := by
  unfold drawEntropy
  with_reducible repeat'
    (first | assumption | intro _ | extract_lets | apply ReachP.ite | apply ReachP.foldl | apply ReachP.out |
      apply Reach.foldl | apply Reach.ite | split | apply Reach.sec | (simp only [ReachP.pair_iff]) | (dsimp +zetaDelta only))

theorem seedDrbg_reach {L a s x0} (h_sec_regs : Piece.regs .sec ∈ L) (h_ras_regs : Piece.regs .ras ∈ L)
    (h_evr_regs : Piece.regs .evr ∈ L) (h_sec : Piece.sec ∈ L) (h_evr : Piece.evr ∈ L) (h_freeCtr : Piece.freeCtr ∈ L)
    (h : Reach L a s) : Reach L a (seedDrbg x0 s) := by
  unfold seedDrbg
  with_reducible repeat'
    (first | assumption | intro _ | extract_lets | (refine ReachP.ofPair (by assumption) ?_) |
      (refine ReachP.use (by assumption) ?_) | apply healthTests_reach | apply inc_reach | apply drawEntropy_reach |
      apply ReachP.ite | apply ReachP.foldl | apply ReachP.out | apply Reach.foldl | apply Reach.ite | split | apply Reach.sec |
      (simp only [ReachP.pair_iff]) | (dsimp +zetaDelta only))

theorem drbgTake_reach {L a s x0} (h_sec_regs : Piece.regs .sec ∈ L) (h_ras_regs : Piece.regs .ras ∈ L)
    (h_evr_regs : Piece.regs .evr ∈ L) (h_sec : Piece.sec ∈ L) (h_evr : Piece.evr ∈ L) (h_freeCtr : Piece.freeCtr ∈ L)
    (h : Reach L a s) : Reach L a (drbgTake x0 s).2 := by
  unfold drbgTake
  with_reducible repeat'
    (first | assumption | intro _ | extract_lets | apply seedDrbg_reach | apply tickFree_reach | apply wh_reach |
      apply ReachP.ite | apply ReachP.foldl | apply ReachP.out | apply Reach.foldl | apply Reach.ite | split | apply Reach.sec |
      (simp only [ReachP.pair_iff]) | (dsimp +zetaDelta only))

theorem startDrbg_reach {L a s} (h_sec : Piece.sec ∈ L) (h : Reach L a s) : Reach L a (startDrbg s) := by
  unfold startDrbg
  with_reducible repeat'
    (first | assumption | intro _ | extract_lets | (refine ReachP.ofPair (by assumption) ?_) | apply drawEntropy_reach |
      apply ReachP.ite | apply ReachP.foldl | apply ReachP.out | apply Reach.foldl | apply Reach.ite | split | apply Reach.sec |
      (simp only [ReachP.pair_iff]) | (dsimp +zetaDelta only))

theorem drbgKey_reach {L a s} (h_sec_regs : Piece.regs .sec ∈ L) (h_ras_regs : Piece.regs .ras ∈ L)
    (h_evr_regs : Piece.regs .evr ∈ L) (h_sec : Piece.sec ∈ L) (h_evr : Piece.evr ∈ L) (h_freeCtr : Piece.freeCtr ∈ L)
    (h : Reach L a s) : Reach L a (drbgKey s).2 := by
  unfold drbgKey
  with_reducible repeat'
    (first | assumption | intro _ | extract_lets | (refine ReachP.ofPair (by assumption) ?_) | apply drbgTake_reach |
      apply ReachP.ite | apply ReachP.foldl | apply ReachP.out | apply Reach.foldl | apply Reach.ite | split |
      (simp only [ReachP.pair_iff]) | (dsimp +zetaDelta only))

theorem signBy_reach {L a s x0 x1} (h_sec_regs : Piece.regs .sec ∈ L) (h_ras_regs : Piece.regs .ras ∈ L)
    (h_evr_regs : Piece.regs .evr ∈ L) (h_sec : Piece.sec ∈ L) (h_evr : Piece.evr ∈ L) (h_freeCtr : Piece.freeCtr ∈ L)
    (h : Reach L a s) : Reach L a (signBy x0 x1 s).2 := by
  unfold signBy
  with_reducible repeat'
    (first | assumption | intro _ | extract_lets | (refine ReachP.ofPair (by assumption) ?_) | apply drbgKey_reach |
      apply ReachP.ite | apply ReachP.foldl | apply ReachP.out | apply Reach.foldl | apply Reach.ite | split |
      (simp only [ReachP.pair_iff]) | (dsimp +zetaDelta only))

end Sys2Proof.Machine
end

