-- ==== Sys2Proof/Laws/ReachFabric.lean ====
section
/-!
SUPPORT. What each operation of Machine/Fabric.lean can change.
-/
namespace Sys2Proof.Machine

set_option linter.unusedTactic false
set_option linter.unreachableTactic false
set_option linter.unusedSimpArgs false

theorem recovered_reach {L a s x0} (h_ras_regs : Piece.regs .ras ∈ L) (h_evr_regs : Piece.regs .evr ∈ L)
    (h_evr : Piece.evr ∈ L) (h_freeCtr : Piece.freeCtr ∈ L) (h : Reach L a s) : Reach L a (recovered x0 s) := by
  unfold recovered
  with_reducible repeat'
    (first | assumption | intro _ | extract_lets | apply raise_reach | apply Reach.foldl | apply Reach.ite | split |
      (dsimp +zetaDelta only))

theorem putFlits_reach {L a s x0 x1} (h_ports : Piece.ports ∈ L) (h_out : Piece.out ∈ L) (h : Reach L a s) : Reach L a
    (putFlits x0 x1 s) := by
  unfold putFlits
  with_reducible repeat'
    (first | assumption | intro _ | extract_lets | apply setPort_reach | apply Reach.foldl | apply Reach.ite | split |
      apply Reach.out | (dsimp +zetaDelta only))

theorem linkEvent_reach {L a s x0 x1} (h_ras_regs : Piece.regs .ras ∈ L) (h_evr_regs : Piece.regs .evr ∈ L)
    (h_evr : Piece.evr ∈ L) (h_freeCtr : Piece.freeCtr ∈ L) (h : Reach L a s) : Reach L a (linkEvent x0 x1 s) := by
  unfold linkEvent
  with_reducible repeat'
    (first | assumption | intro _ | extract_lets | apply raise_reach | apply Reach.foldl | apply Reach.ite | split |
      (dsimp +zetaDelta only))

theorem badFlit_reach {L a s x0} (h_fab_regs : Piece.regs .fab ∈ L) (h_ras_regs : Piece.regs .ras ∈ L)
    (h_evr_regs : Piece.regs .evr ∈ L) (h_ports : Piece.ports ∈ L) (h_evr : Piece.evr ∈ L) (h_out : Piece.out ∈ L)
    (h_freeCtr : Piece.freeCtr ∈ L) (h : Reach L a s) : Reach L a (badFlit x0 s) := by
  unfold badFlit
  with_reducible repeat'
    (first | assumption | intro _ | extract_lets | apply recovered_reach | apply putFlits_reach | apply linkEvent_reach |
      apply inc_reach | apply setPort_reach | apply Reach.foldl | apply Reach.ite | split | (dsimp +zetaDelta only))

theorem pushFlits_reach {L a s x0 x1} (h_ports : Piece.ports ∈ L) (h_out : Piece.out ∈ L) (h : Reach L a s) : Reach L a
    (pushFlits x0 x1 s) := by
  unfold pushFlits
  with_reducible repeat'
    (first | assumption | intro _ | extract_lets | apply putFlits_reach | apply setPort_reach | apply Reach.foldl |
      apply Reach.ite | split | (dsimp +zetaDelta only))

theorem authPump_reach {L a s x0} (h_ports : Piece.ports ∈ L) (h_out : Piece.out ∈ L) (h : Reach L a s) : Reach L a
    (authPump x0 s) := by
  unfold authPump
  with_reducible repeat'
    (first | assumption | intro _ | extract_lets | apply pushFlits_reach | apply setPort_reach | apply Reach.foldl |
      apply Reach.ite | split | (dsimp +zetaDelta only))

theorem resend_reach {L a s x0 x1} (h_fab_regs : Piece.regs .fab ∈ L) (h_ports : Piece.ports ∈ L) (h_out : Piece.out ∈ L)
    (h : Reach L a s) : Reach L a (resend x0 x1 s) := by
  unfold resend
  with_reducible repeat'
    (first | assumption | intro _ | extract_lets | apply putFlits_reach | apply inc_reach | apply wh_reach |
      apply Reach.foldl | apply Reach.ite | split | (dsimp +zetaDelta only))

theorem pmdStart_reach {L a s x0} (h_fab_regs : Piece.regs .fab ∈ L) (h_ports : Piece.ports ∈ L) (h : Reach L a s) : Reach L a
    (pmdStart x0 s) := by
  unfold pmdStart
  with_reducible repeat'
    (first | assumption | intro _ | extract_lets | apply inc_reach | apply setPort_reach | apply Reach.foldl |
      apply Reach.ite | split | (dsimp +zetaDelta only))

theorem retrainPort_reach {L a s x0} (h_fab_regs : Piece.regs .fab ∈ L) (h_ports : Piece.ports ∈ L) (h : Reach L a s) : Reach
    L a (retrainPort x0 s) := by
  unfold retrainPort
  with_reducible repeat'
    (first | assumption | intro _ | extract_lets | apply pmdStart_reach | apply inc_reach | apply setPort_reach |
      apply Reach.foldl | apply Reach.ite | split | (dsimp +zetaDelta only))

theorem forcedRetrain_reach {L a s x0} (h_fab_regs : Piece.regs .fab ∈ L) (h_ras_regs : Piece.regs .ras ∈ L)
    (h_evr_regs : Piece.regs .evr ∈ L) (h_ports : Piece.ports ∈ L) (h_evr : Piece.evr ∈ L) (h_freeCtr : Piece.freeCtr ∈ L)
    (h : Reach L a s) : Reach L a (forcedRetrain x0 s) := by
  unfold forcedRetrain
  with_reducible repeat'
    (first | assumption | intro _ | extract_lets | apply retrainPort_reach | apply inc_reach | apply raise_reach |
      apply wh_reach | apply Reach.foldl | apply Reach.ite | split | (dsimp +zetaDelta only))

theorem linkIn_reach {L a s x0 x1} (h_fab_regs : Piece.regs .fab ∈ L) (h_ras_regs : Piece.regs .ras ∈ L)
    (h_evr_regs : Piece.regs .evr ∈ L) (h_ports : Piece.ports ∈ L) (h_evr : Piece.evr ∈ L) (h_out : Piece.out ∈ L)
    (h_freeCtr : Piece.freeCtr ∈ L) (h : Reach L a s) : Reach L a (linkIn x0 x1 s) := by
  unfold linkIn
  with_reducible repeat'
    (first | assumption | intro _ | extract_lets | apply resend_reach | apply forcedRetrain_reach | apply Reach.foldl |
      apply Reach.ite | split | (dsimp +zetaDelta only))

theorem authSend_reach {L a s x0 x1} (h_ports : Piece.ports ∈ L) (h_out : Piece.out ∈ L) (h : Reach L a s) : Reach L a
    (authSend x0 x1 s) := by
  unfold authSend
  with_reducible repeat'
    (first | assumption | intro _ | extract_lets | apply authPump_reach | apply setPort_reach | apply Reach.foldl |
      apply Reach.ite | split | (dsimp +zetaDelta only))

theorem sendProof_reach {L a s x0} (h_sec_regs : Piece.regs .sec ∈ L) (h_ras_regs : Piece.regs .ras ∈ L)
    (h_evr_regs : Piece.regs .evr ∈ L) (h_ports : Piece.ports ∈ L) (h_sec : Piece.sec ∈ L) (h_evr : Piece.evr ∈ L)
    (h_out : Piece.out ∈ L) (h_freeCtr : Piece.freeCtr ∈ L) (h : Reach L a s) : Reach L a (sendProof x0 s) := by
  unfold sendProof
  with_reducible repeat'
    (first | assumption | intro _ | extract_lets | (refine ReachP.ofPair (by assumption) ?_) | apply authSend_reach |
      apply signBy_reach | apply ReachP.ite | apply ReachP.foldl | apply ReachP.out | apply Reach.foldl | apply Reach.ite |
      split | (simp only [ReachP.pair_iff]) | (dsimp +zetaDelta only))

theorem backOff_reach {L a s x0} (h_ports : Piece.ports ∈ L) (h : Reach L a s) : Reach L a (backOff x0 s) := by
  unfold backOff
  with_reducible repeat'
    (first | assumption | intro _ | extract_lets | apply setPort_reach | apply Reach.foldl | apply Reach.ite | split |
      (dsimp +zetaDelta only))

theorem authFail_reach {L a s x0} (h_sec_regs : Piece.regs .sec ∈ L) (h_ports : Piece.ports ∈ L) (h : Reach L a s) : Reach L a
    (authFail x0 s) := by
  unfold authFail
  with_reducible repeat'
    (first | assumption | intro _ | extract_lets | apply backOff_reach | apply inc_reach | apply Reach.foldl |
      apply Reach.ite | split | (dsimp +zetaDelta only))

theorem raiseDur_reach {L a s x0 x1 x2 x3} (h_ras_regs : Piece.regs .ras ∈ L) (h_evr_regs : Piece.regs .evr ∈ L)
    (h_evr : Piece.evr ∈ L) (h_freeCtr : Piece.freeCtr ∈ L) (h : Reach L a s) : Reach L a (raiseDur x0 x1 x2 x3 s) := by
  unfold raiseDur
  with_reducible repeat'
    (first | assumption | intro _ | extract_lets | apply raiseV_reach | apply Reach.foldl | apply Reach.ite | split |
      (dsimp +zetaDelta only))

theorem sendKept_reach {L a s x0} (h_fab_regs : Piece.regs .fab ∈ L) (h_ports : Piece.ports ∈ L) (h_out : Piece.out ∈ L)
    (h : Reach L a s) : Reach L a (sendKept x0 s) := by
  unfold sendKept
  with_reducible repeat'
    (first | assumption | intro _ | extract_lets | apply inc_reach | apply pushFlits_reach | apply wh_reach |
      apply setPort_reach | apply Reach.foldl | apply Reach.ite | split | (dsimp +zetaDelta only))

theorem portUp_reach {L a s x0} (h_fab_regs : Piece.regs .fab ∈ L) (h_ras_regs : Piece.regs .ras ∈ L)
    (h_evr_regs : Piece.regs .evr ∈ L) (h_ports : Piece.ports ∈ L) (h_evr : Piece.evr ∈ L) (h_out : Piece.out ∈ L)
    (h_freeCtr : Piece.freeCtr ∈ L) (h : Reach L a s) : Reach L a (portUp x0 s) := by
  unfold portUp
  with_reducible repeat'
    (first | assumption | intro _ | extract_lets | apply raiseDur_reach | apply sendKept_reach | apply wh_reach |
      apply setPort_reach | apply Reach.foldl | apply Reach.ite | split | (dsimp +zetaDelta only))

theorem authStep_reach {L a s x0 x1} (h_fab_regs : Piece.regs .fab ∈ L) (h_sec_regs : Piece.regs .sec ∈ L)
    (h_ras_regs : Piece.regs .ras ∈ L) (h_evr_regs : Piece.regs .evr ∈ L) (h_ports : Piece.ports ∈ L) (h_sec : Piece.sec ∈ L)
    (h_evr : Piece.evr ∈ L) (h_out : Piece.out ∈ L) (h_freeCtr : Piece.freeCtr ∈ L) (h : Reach L a s) : Reach L a
    (authStep x0 x1 s) := by
  unfold authStep
  with_reducible repeat'
    (first | assumption | intro _ | extract_lets | apply sendProof_reach | apply authFail_reach | apply portUp_reach |
      apply setPort_reach | apply Reach.foldl | apply Reach.ite | split | (dsimp +zetaDelta only))

theorem authIn_reach {L a s x0 x1} (h_fab_regs : Piece.regs .fab ∈ L) (h_sec_regs : Piece.regs .sec ∈ L)
    (h_ras_regs : Piece.regs .ras ∈ L) (h_evr_regs : Piece.regs .evr ∈ L) (h_ports : Piece.ports ∈ L) (h_sec : Piece.sec ∈ L)
    (h_evr : Piece.evr ∈ L) (h_out : Piece.out ∈ L) (h_freeCtr : Piece.freeCtr ∈ L) (h : Reach L a s) : Reach L a (authIn x0 x1 s)
    := by
  unfold authIn
  with_reducible repeat'
    (first | assumption | intro _ | extract_lets | apply authStep_reach | apply wh_reach | apply setPort_reach |
      apply Reach.foldl | apply Reach.ite | split | (dsimp +zetaDelta only))

theorem dropMsg_reach {L a s x0 x1} (h_mem_regs : Piece.regs .mem ∈ L) (h_fab_regs : Piece.regs .fab ∈ L)
    (h_ras_regs : Piece.regs .ras ∈ L) (h_evr_regs : Piece.regs .evr ∈ L) (h_evr : Piece.evr ∈ L) (h_freeCtr : Piece.freeCtr ∈ L)
    (h : Reach L a s) : Reach L a (dropMsg x0 x1 s) := by
  unfold dropMsg
  with_reducible repeat'
    (first | assumption | intro _ | extract_lets | apply linkEvent_reach | apply inc_reach | apply wh_reach |
      apply Reach.foldl | apply Reach.ite | split | (dsimp +zetaDelta only))

theorem msgIn_reach {L a s x0 x1 x2} (h_mem_regs : Piece.regs .mem ∈ L) (h_fab_regs : Piece.regs .fab ∈ L)
    (h_ras_regs : Piece.regs .ras ∈ L) (h_evr_regs : Piece.regs .evr ∈ L) (h_ports : Piece.ports ∈ L) (h_ivs : Piece.ivs ∈ L)
    (h_evr : Piece.evr ∈ L) (h_freeCtr : Piece.freeCtr ∈ L) (h : Reach L a s) : Reach L a (msgIn x0 x1 x2 s) := by
  unfold msgIn
  with_reducible repeat'
    (first | assumption | intro _ | extract_lets | apply dropMsg_reach | apply setPort_reach | apply Reach.foldl |
      apply Reach.ite | split | apply Reach.ivs | (dsimp +zetaDelta only))

theorem laneIn_reach {L a s x0 x1} (h_mem_regs : Piece.regs .mem ∈ L) (h_fab_regs : Piece.regs .fab ∈ L)
    (h_ras_regs : Piece.regs .ras ∈ L) (h_evr_regs : Piece.regs .evr ∈ L) (h_ports : Piece.ports ∈ L) (h_ivs : Piece.ivs ∈ L)
    (h_evr : Piece.evr ∈ L) (h_freeCtr : Piece.freeCtr ∈ L) (h : Reach L a s) : Reach L a (laneIn x0 x1 s) := by
  unfold laneIn
  with_reducible repeat'
    (first | assumption | intro _ | extract_lets | apply msgIn_reach | apply setPort_reach | apply Reach.foldl |
      apply Reach.ite | split | (dsimp +zetaDelta only))

theorem bodyIn_reach {L a s x0 x1} (h_mem_regs : Piece.regs .mem ∈ L) (h_fab_regs : Piece.regs .fab ∈ L)
    (h_ras_regs : Piece.regs .ras ∈ L) (h_evr_regs : Piece.regs .evr ∈ L) (h_ports : Piece.ports ∈ L) (h_ivs : Piece.ivs ∈ L)
    (h_evr : Piece.evr ∈ L) (h_freeCtr : Piece.freeCtr ∈ L) (h : Reach L a s) : Reach L a (bodyIn x0 x1 s) := by
  unfold bodyIn
  with_reducible repeat'
    (first | assumption | intro _ | extract_lets | apply laneIn_reach | apply linkEvent_reach | apply inc_reach |
      apply setPort_reach | apply Reach.foldl | apply Reach.ite | split | (dsimp +zetaDelta only))

theorem enterAuth_reach {L a s x0} (h_sec_regs : Piece.regs .sec ∈ L) (h_ras_regs : Piece.regs .ras ∈ L)
    (h_evr_regs : Piece.regs .evr ∈ L) (h_ports : Piece.ports ∈ L) (h_sec : Piece.sec ∈ L) (h_evr : Piece.evr ∈ L)
    (h_out : Piece.out ∈ L) (h_freeCtr : Piece.freeCtr ∈ L) (h : Reach L a s) : Reach L a (enterAuth x0 s) := by
  unfold enterAuth
  with_reducible repeat'
    (first | assumption | intro _ | extract_lets | (refine ReachP.ofPair (by assumption) ?_) | apply authSend_reach |
      apply drbgTake_reach | apply setPort_reach | apply ReachP.ite | apply ReachP.foldl | apply ReachP.out |
      apply Reach.foldl | apply Reach.ite | split | (simp only [ReachP.pair_iff]) | (dsimp +zetaDelta only))

theorem trainIn_reach {L a s x0 x1} (h_fab_regs : Piece.regs .fab ∈ L) (h_sec_regs : Piece.regs .sec ∈ L)
    (h_ras_regs : Piece.regs .ras ∈ L) (h_evr_regs : Piece.regs .evr ∈ L) (h_ports : Piece.ports ∈ L) (h_sec : Piece.sec ∈ L)
    (h_evr : Piece.evr ∈ L) (h_out : Piece.out ∈ L) (h_freeCtr : Piece.freeCtr ∈ L) (h : Reach L a s) : Reach L a
    (trainIn x0 x1 s) := by
  unfold trainIn
  with_reducible repeat'
    (first | assumption | intro _ | extract_lets | apply linkEvent_reach | apply inc_reach | apply enterAuth_reach |
      apply setPort_reach | apply Reach.foldl | apply Reach.ite | split | (dsimp +zetaDelta only))

theorem flitIn_reach {L a s x0 x1} (h_mem_regs : Piece.regs .mem ∈ L) (h_fab_regs : Piece.regs .fab ∈ L)
    (h_sec_regs : Piece.regs .sec ∈ L) (h_ras_regs : Piece.regs .ras ∈ L) (h_evr_regs : Piece.regs .evr ∈ L)
    (h_ports : Piece.ports ∈ L) (h_ivs : Piece.ivs ∈ L) (h_sec : Piece.sec ∈ L) (h_evr : Piece.evr ∈ L) (h_out : Piece.out ∈ L)
    (h_freeCtr : Piece.freeCtr ∈ L) (h : Reach L a s) : Reach L a (flitIn x0 x1 s) := by
  unfold flitIn
  with_reducible repeat'
    (first | assumption | intro _ | extract_lets | apply authPump_reach | apply linkIn_reach | apply authIn_reach |
      apply bodyIn_reach | apply trainIn_reach | apply wh_reach | apply setPort_reach | apply Reach.foldl | apply Reach.ite |
      split | (dsimp +zetaDelta only))

theorem arrive_reach {L a s x0 x1 x2 x3} (h_mem_regs : Piece.regs .mem ∈ L) (h_fab_regs : Piece.regs .fab ∈ L)
    (h_sec_regs : Piece.regs .sec ∈ L) (h_ras_regs : Piece.regs .ras ∈ L) (h_evr_regs : Piece.regs .evr ∈ L)
    (h_ports : Piece.ports ∈ L) (h_ivs : Piece.ivs ∈ L) (h_sec : Piece.sec ∈ L) (h_evr : Piece.evr ∈ L) (h_out : Piece.out ∈ L)
    (h_freeCtr : Piece.freeCtr ∈ L) (h : Reach L a s) : Reach L a (arrive x0 x1 x2 x3 s) := by
  unfold arrive
  with_reducible repeat'
    (first | assumption | intro _ | extract_lets | apply badFlit_reach | apply flitIn_reach | apply forcedRetrain_reach |
      apply wh_reach | apply setPort_reach | apply Reach.foldl | apply Reach.ite | split | (dsimp +zetaDelta only))

theorem fabEnable_reach {L a s x0 x1} (h_fab_regs : Piece.regs .fab ∈ L) (h_ports : Piece.ports ∈ L) (h : Reach L a s) : Reach
    L a (fabEnable x0 x1 s) := by
  unfold fabEnable
  with_reducible repeat'
    (first | assumption | intro _ | extract_lets | apply pmdStart_reach | apply setPort_reach | apply Reach.foldl |
      apply Reach.ite | split | (dsimp +zetaDelta only))

theorem takeMsg_reach {L a s x0 x1} (h_ports : Piece.ports ∈ L) (h : Reach L a s) : ReachO L a Prod.snd (takeMsg x0 x1 s) :=
    by
  unfold takeMsg
  with_reducible repeat'
    (first | assumption | intro _ | extract_lets | apply setPort_reach | apply ReachO.none | apply ReachO.some |
      apply Reach.foldl | apply Reach.ite | split | (dsimp +zetaDelta only))

theorem marginIn_reach {L a s x0 x1 x2} (h_fab_regs : Piece.regs .fab ∈ L) (h_ports : Piece.ports ∈ L) (h : Reach L a s) :
    Reach L a (marginIn x0 x1 x2 s) := by
  unfold marginIn
  with_reducible repeat'
    (first | assumption | intro _ | extract_lets | apply retrainPort_reach | apply wh_reach | apply setPort_reach |
      apply Reach.foldl | apply Reach.ite | split | (dsimp +zetaDelta only))

theorem stageEnd_reach {L a s x0 x1 x2 x3} (h_ports : Piece.ports ∈ L) (h_out : Piece.out ∈ L) (h : Reach L a s) : Reach L a
    (stageEnd x0 x1 x2 x3 s) := by
  unfold stageEnd
  with_reducible repeat'
    (first | assumption | intro _ | extract_lets | apply putFlits_reach | apply backOff_reach | apply wh_reach |
      apply setPort_reach | apply Reach.foldl | apply Reach.ite | split | (dsimp +zetaDelta only))

theorem corrected_reach {L a s x0} (h_ras_regs : Piece.regs .ras ∈ L) (h_evr_regs : Piece.regs .evr ∈ L)
    (h_evr : Piece.evr ∈ L) (h_freeCtr : Piece.freeCtr ∈ L) (h : Reach L a s) : Reach L a (corrected x0 s) := by
  unfold corrected
  with_reducible repeat'
    (first | assumption | intro _ | extract_lets | apply raise_reach | apply Reach.foldl | apply Reach.ite | split |
      (dsimp +zetaDelta only))

theorem sendLane_reach {L a s x0 x1 x2 x3 x4} (h_ports : Piece.ports ∈ L) (h_out : Piece.out ∈ L) (h : Reach L a s) : Reach L
    a (sendLane x0 x1 x2 x3 x4 s) := by
  unfold sendLane
  with_reducible repeat'
    (first | assumption | intro _ | extract_lets | apply pushFlits_reach | apply setPort_reach | apply ReachP.ite |
      apply ReachP.foldl | apply ReachP.out | apply Reach.foldl | apply Reach.ite | split | (simp only [ReachP.pair_iff]) |
      (dsimp +zetaDelta only))

theorem setJobSlot_reach {L a s x0 x1 x2} (h_secs : Piece.secs ∈ L) (h : Reach L a s) : Reach L a (setJobSlot x0 x1 x2 s) :=
    by
  unfold setJobSlot
  with_reducible repeat'
    (first | assumption | intro _ | extract_lets | apply Reach.foldl | apply Reach.ite | split | apply Reach.secs |
      (dsimp +zetaDelta only))

theorem msgSend_reach {L a s x0} (h_mem_regs : Piece.regs .mem ∈ L) (h_fab_regs : Piece.regs .fab ∈ L)
    (h_ras_regs : Piece.regs .ras ∈ L) (h_evr_regs : Piece.regs .evr ∈ L) (h_ports : Piece.ports ∈ L) (h_secs : Piece.secs ∈ L)
    (h_evr : Piece.evr ∈ L) (h_out : Piece.out ∈ L) (h_freeCtr : Piece.freeCtr ∈ L) (h : Reach L a s) : Reach L a (msgSend x0 s)
    := by
  unfold msgSend
  with_reducible repeat'
    (first | assumption | intro _ | extract_lets | apply sendLane_reach | apply dropMsg_reach | apply setJobSlot_reach |
      apply setPort_reach | apply Reach.foldl | apply Reach.ite | split | (dsimp +zetaDelta only))

theorem replayOut_reach {L a s x0} (h_fab_regs : Piece.regs .fab ∈ L) (h_ras_regs : Piece.regs .ras ∈ L)
    (h_evr_regs : Piece.regs .evr ∈ L) (h_ports : Piece.ports ∈ L) (h_evr : Piece.evr ∈ L) (h_out : Piece.out ∈ L)
    (h_freeCtr : Piece.freeCtr ∈ L) (h : Reach L a s) : Reach L a (replayOut x0 s) := by
  unfold replayOut
  with_reducible repeat'
    (first | assumption | intro _ | extract_lets | apply resend_reach | apply forcedRetrain_reach | apply wh_reach |
      apply setPort_reach | apply Reach.foldl | apply Reach.ite | split | (dsimp +zetaDelta only))

theorem lockLost_reach {L a s x0} (h_fab_regs : Piece.regs .fab ∈ L) (h_ras_regs : Piece.regs .ras ∈ L)
    (h_evr_regs : Piece.regs .evr ∈ L) (h_ports : Piece.ports ∈ L) (h_evr : Piece.evr ∈ L) (h_freeCtr : Piece.freeCtr ∈ L)
    (h : Reach L a s) : Reach L a (lockLost x0 s) := by
  unfold lockLost
  with_reducible repeat'
    (first | assumption | intro _ | extract_lets | apply backOff_reach | apply forcedRetrain_reach | apply Reach.foldl |
      apply Reach.ite | split | (dsimp +zetaDelta only))

theorem protectWaiting_reach {L a s x0 x1} (h_ports : Piece.ports ∈ L) (h_secs : Piece.secs ∈ L) (h : Reach L a s) : Reach L a
    (protectWaiting x0 x1 s) := by
  unfold protectWaiting
  with_reducible repeat'
    (first | assumption | intro _ | extract_lets | apply setJobSlot_reach | apply setPort_reach | apply ReachP.ite |
      apply ReachP.foldl | apply ReachP.out | apply Reach.foldl | apply Reach.ite | split | (simp only [ReachP.pair_iff]) |
      (dsimp +zetaDelta only))

theorem escape_reach {L a s x0 x1} (h_fab_regs : Piece.regs .fab ∈ L) (h_ports : Piece.ports ∈ L) (h : Reach L a s) : Reach L
    a (escape x0 x1 s) := by
  unfold escape
  with_reducible repeat'
    (first | assumption | intro _ | extract_lets | apply inc_reach | apply setPort_reach | apply Reach.foldl |
      apply Reach.ite | split | (dsimp +zetaDelta only))

end Sys2Proof.Machine
end

