-- ==== Sys2Proof/Laws/ReachLease.lean ====
section
/-!
SUPPORT. What each operation of Machine/Lease.lean can change.
-/
namespace Sys2Proof.Machine

set_option linter.unusedTactic false
set_option linter.unreachableTactic false
set_option linter.unusedSimpArgs false

theorem reply_reach {L a s x0 x1 x2 x3 x4} (h_ports : Piece.ports ∈ L) (h : Reach L a s) : Reach L a (reply x0 x1 x2 x3 x4 s)
    := by
  unfold reply
  with_reducible repeat'
    (first | assumption | intro _ | extract_lets | apply sendMsg_reach | apply Reach.foldl | apply Reach.ite | split |
      (dsimp +zetaDelta only))

theorem sayUnknown_reach {L a s x0 x1} (h_ports : Piece.ports ∈ L) (h : Reach L a s) : Reach L a (sayUnknown x0 x1 s) := by
  unfold sayUnknown
  with_reducible repeat'
    (first | assumption | intro _ | extract_lets | apply reply_reach | apply Reach.foldl | apply Reach.ite | split |
      (dsimp +zetaDelta only))

theorem lwrIn_reach {L a s x0} (h_yrd_regs : Piece.regs .yrd ∈ L) (h_mem_regs : Piece.regs .mem ∈ L)
    (h_lpd_regs : Piece.regs .lpd ∈ L) (h_mce_regs : Piece.regs .mce ∈ L) (h_sec_regs : Piece.regs .sec ∈ L)
    (h_ras_regs : Piece.regs .ras ∈ L) (h_evr_regs : Piece.regs .evr ∈ L) (h_mem : Piece.mem ∈ L) (h_yard : Piece.yard ∈ L)
    (h_accs : Piece.accs ∈ L) (h_nextTag : Piece.nextTag ∈ L) (h_ports : Piece.ports ∈ L) (h_mce : Piece.mce ∈ L)
    (h_evr : Piece.evr ∈ L) (h_freeCtr : Piece.freeCtr ∈ L) (h : Reach L a s) : Reach L a (lwrIn x0 s) := by
  unfold lwrIn
  with_reducible repeat'
    (first | assumption | intro _ | extract_lets | (refine ReachP.use (by assumption) ?_) | apply memWrite_reach |
      apply reply_reach | apply sayUnknown_reach | (refine ReachO.useSnd (by assumption) ?_) | apply takeMsg_reach |
      apply ReachP.ite | apply ReachP.foldl | apply ReachP.out | apply Reach.foldl | apply Reach.ite | split |
      (simp only [ReachP.pair_iff]) | (dsimp +zetaDelta only))

theorem lkeepIn_reach {L a s x0} (h_lends : Piece.lends ∈ L) (h_ports : Piece.ports ∈ L) (h : Reach L a s) : Reach L a
    (lkeepIn x0 s) := by
  unfold lkeepIn
  with_reducible repeat'
    (first | assumption | intro _ | extract_lets | apply reply_reach | apply sayUnknown_reach |
      (refine ReachO.useSnd (by assumption) ?_) | apply takeMsg_reach | apply Reach.foldl | apply Reach.ite | split |
      apply Reach.lends | (dsimp +zetaDelta only))

theorem withLease_reach {L a s x0 x1 x2} (hf : ∀ y0 t, Reach L a t → Reach L a (x2 y0 t)) (h : Reach L a s) : Reach L a
    (withLease x0 x1 x2 s) := by
  unfold withLease
  with_reducible repeat'
    (first | assumption | intro _ | extract_lets | apply Reach.foldl | apply Reach.ite | split | apply hf |
      (dsimp +zetaDelta only))

theorem freeLease_reach {L a s x0} (h_leases : Piece.leases ∈ L) (h : Reach L a s) : Reach L a (freeLease x0 s) := by
  unfold freeLease
  with_reducible repeat'
    (first | assumption | intro _ | extract_lets | apply Reach.foldl | apply Reach.ite | split | apply Reach.leases |
      (dsimp +zetaDelta only))

theorem leaseEnds_reach {L a s x0 x1} (h_flights : Piece.flights ∈ L) (h_leases : Piece.leases ∈ L) (h : Reach L a s) : Reach
    L a (leaseEnds x0 x1 s) := by
  unfold leaseEnds
  with_reducible repeat'
    (first | assumption | intro _ | extract_lets | apply finish_reach | apply freeLease_reach | apply Reach.foldl |
      apply Reach.ite | split | (dsimp +zetaDelta only))

theorem zeroExtent_reach {L a s x0} (h_yrd_regs : Piece.regs .yrd ∈ L) (h_mem : Piece.mem ∈ L) (h_yard : Piece.yard ∈ L)
    (h_mce : Piece.mce ∈ L) (h : Reach L a s) : Reach L a (zeroExtent x0 s) := by
  unfold zeroExtent
  with_reducible repeat'
    (first | assumption | intro _ | extract_lets | apply dropLines_reach | apply zeroFill_reach | apply ReachP.ite |
      apply ReachP.foldl | apply ReachP.out | apply Reach.foldl | apply Reach.ite | split | apply Reach.mce |
      (simp only [ReachP.pair_iff]) | (dsimp +zetaDelta only))

theorem setExt_reach {L a s x0 x1} (h_exts : Piece.exts ∈ L) (h : Reach L a s) : Reach L a (setExt x0 x1 s) := by
  unfold setExt
  with_reducible repeat'
    (first | assumption | intro _ | extract_lets | apply Reach.foldl | apply Reach.ite | split | apply Reach.exts |
      apply tabWf_tabSet | apply tabWf_putBytes | apply tabWf_filter | (dsimp +zetaDelta only))

theorem lendEnd_reach {L a s x0} (h_yrd_regs : Piece.regs .yrd ∈ L) (h_mem : Piece.mem ∈ L) (h_yard : Piece.yard ∈ L)
    (h_exts : Piece.exts ∈ L) (h_lends : Piece.lends ∈ L) (h_mce : Piece.mce ∈ L) (h : Reach L a s) : Reach L a (lendEnd x0 s) :=
    by
  unfold lendEnd
  with_reducible repeat'
    (first | assumption | intro _ | extract_lets | apply zeroExtent_reach | apply setExt_reach | apply Reach.foldl |
      apply Reach.ite | split | apply Reach.lends | (dsimp +zetaDelta only))

theorem lreqIn_reach {L a s x0} (h_yrd_regs : Piece.regs .yrd ∈ L) (h_mem_regs : Piece.regs .mem ∈ L) (h_mem : Piece.mem ∈ L)
    (h_yard : Piece.yard ∈ L) (h_exts : Piece.exts ∈ L) (h_lends : Piece.lends ∈ L) (h_ports : Piece.ports ∈ L)
    (h_mce : Piece.mce ∈ L) (h : Reach L a s) : Reach L a (lreqIn x0 s) := by
  unfold lreqIn
  with_reducible repeat'
    (first | assumption | intro _ | extract_lets | apply inc_reach | apply lendEnd_reach | apply setExt_reach |
      apply reply_reach | (refine ReachO.useSnd (by assumption) ?_) | apply takeMsg_reach | apply Reach.foldl |
      apply Reach.ite | split | apply Reach.lends | (dsimp +zetaDelta only))

theorem updLease_reach {L a s x0 x1} (h_leases : Piece.leases ∈ L) (h : Reach L a s) : Reach L a (updLease x0 x1 s) := by
  unfold updLease
  with_reducible repeat'
    (first | assumption | intro _ | extract_lets | apply Reach.foldl | apply Reach.ite | split | apply Reach.leases |
      (dsimp +zetaDelta only))

theorem borrowerSend_reach {L a s x0 x1 x2 x3} (h_leases : Piece.leases ∈ L) (h_ports : Piece.ports ∈ L) (h : Reach L a s) :
    Reach L a (borrowerSend x0 x1 x2 x3 s) := by
  unfold borrowerSend
  with_reducible repeat'
    (first | assumption | intro _ | extract_lets | apply sendTo_reach | apply updLease_reach | apply Reach.foldl |
      apply Reach.ite | split | (dsimp +zetaDelta only))

theorem lrelSend_reach {L a s x0} (h_leases : Piece.leases ∈ L) (h_ports : Piece.ports ∈ L) (h : Reach L a s) : Reach L a
    (lrelSend x0 s) := by
  unfold lrelSend
  with_reducible repeat'
    (first | assumption | intro _ | extract_lets | apply borrowerSend_reach | apply updLease_reach | apply Reach.foldl |
      apply Reach.ite | split | (dsimp +zetaDelta only))

theorem lgrantIn_reach {L a s x0} (h_flights : Piece.flights ∈ L) (h_leases : Piece.leases ∈ L) (h_ports : Piece.ports ∈ L)
    (h : Reach L a s) : Reach L a (lgrantIn x0 s) := by
  unfold lgrantIn
  with_reducible repeat'
    (first | assumption | intro _ | extract_lets | apply finish_reach | apply updLease_reach |
      (refine ReachO.useSnd (by assumption) ?_) | apply takeMsg_reach | apply Reach.foldl | apply Reach.ite | split |
      (dsimp +zetaDelta only))

theorem lendLost_reach {L a s x0} (h_yrd_regs : Piece.regs .yrd ∈ L) (h_mem_regs : Piece.regs .mem ∈ L)
    (h_mem : Piece.mem ∈ L) (h_yard : Piece.yard ∈ L) (h_exts : Piece.exts ∈ L) (h_lends : Piece.lends ∈ L)
    (h_mce : Piece.mce ∈ L) (h : Reach L a s) : Reach L a (lendLost x0 s) := by
  unfold lendLost
  with_reducible repeat'
    (first | assumption | intro _ | extract_lets | apply inc_reach | apply lendEnd_reach | apply Reach.foldl |
      apply Reach.ite | split | (dsimp +zetaDelta only))

theorem lrdIn_reach {L a s x0} (h_yrd_regs : Piece.regs .yrd ∈ L) (h_mem_regs : Piece.regs .mem ∈ L)
    (h_lpd_regs : Piece.regs .lpd ∈ L) (h_mce_regs : Piece.regs .mce ∈ L) (h_sec_regs : Piece.regs .sec ∈ L)
    (h_ras_regs : Piece.regs .ras ∈ L) (h_evr_regs : Piece.regs .evr ∈ L) (h_yard : Piece.yard ∈ L) (h_ports : Piece.ports ∈ L)
    (h_evr : Piece.evr ∈ L) (h_freeCtr : Piece.freeCtr ∈ L) (h : Reach L a s) : Reach L a (lrdIn x0 s) := by
  unfold lrdIn
  with_reducible repeat'
    (first | assumption | intro _ | extract_lets | (refine ReachP.use (by assumption) ?_) | apply reply_reach |
      apply memRead_reach | apply sayUnknown_reach | (refine ReachO.useSnd (by assumption) ?_) | apply takeMsg_reach |
      apply ReachP.ite | apply ReachP.foldl | apply ReachP.out | apply Reach.foldl | apply Reach.ite | split |
      (simp only [ReachP.pair_iff]) | (dsimp +zetaDelta only))

theorem lrefuseIn_reach {L a s x0} (h_flights : Piece.flights ∈ L) (h_leases : Piece.leases ∈ L) (h_ports : Piece.ports ∈ L)
    (h : Reach L a s) : Reach L a (lrefuseIn x0 s) := by
  unfold lrefuseIn
  with_reducible repeat'
    (first | assumption | intro _ | extract_lets | apply leaseEnds_reach | (refine ReachO.useSnd (by assumption) ?_) |
      apply takeMsg_reach | apply Reach.foldl | apply Reach.ite | split | (dsimp +zetaDelta only))

theorem lwackIn_reach {L a s x0} (h_accs : Piece.accs ∈ L) (h_ports : Piece.ports ∈ L) (h : Reach L a s) : Reach L a
    (lwackIn x0 s) := by
  unfold lwackIn
  with_reducible repeat'
    (first | assumption | intro _ | extract_lets | (refine ReachO.useSnd (by assumption) ?_) | apply takeMsg_reach |
      apply Reach.foldl | apply Reach.ite | split | apply Reach.accs | (dsimp +zetaDelta only))

theorem lrelIn_reach {L a s x0} (h_yrd_regs : Piece.regs .yrd ∈ L) (h_mem : Piece.mem ∈ L) (h_yard : Piece.yard ∈ L)
    (h_exts : Piece.exts ∈ L) (h_lends : Piece.lends ∈ L) (h_ports : Piece.ports ∈ L) (h_mce : Piece.mce ∈ L) (h : Reach L a s) :
    Reach L a (lrelIn x0 s) := by
  unfold lrelIn
  with_reducible repeat'
    (first | assumption | intro _ | extract_lets | apply lendEnd_reach | apply reply_reach |
      (refine ReachO.useSnd (by assumption) ?_) | apply takeMsg_reach | apply Reach.foldl | apply Reach.ite | split |
      (dsimp +zetaDelta only))

theorem lrdataIn_reach {L a s x0} (h_mem : Piece.mem ∈ L) (h_flights : Piece.flights ∈ L) (h_accs : Piece.accs ∈ L)
    (h_ports : Piece.ports ∈ L) (h : Reach L a s) : Reach L a (lrdataIn x0 s) := by
  unfold lrdataIn
  with_reducible repeat'
    (first | assumption | intro _ | extract_lets | apply updFlight_reach | apply poke_reach |
      (refine ReachO.useSnd (by assumption) ?_) | apply takeMsg_reach | apply Reach.foldl | apply Reach.ite | split |
      apply Reach.accs | (exact ⟨fun h => h, fun h => h⟩) | (refine ⟨fun _ e => ?_, fun h => h⟩; cases e) |
      (dsimp +zetaDelta only))

theorem leaseRelease_reach {L a s x0} (h_flights : Piece.flights ∈ L) (h_leases : Piece.leases ∈ L) (h : Reach L a s) : Reach
    L a (leaseRelease x0 s) := by
  unfold leaseRelease
  with_reducible repeat'
    (first | assumption | intro _ | extract_lets | apply leaseEnds_reach | apply Reach.foldl | apply Reach.ite | split |
      (dsimp +zetaDelta only))

theorem leaseIssue_reach {L a s x0} (h_leases : Piece.leases ∈ L) (h : Reach L a s) : Reach L a (leaseIssue x0 s) := by
  unfold leaseIssue
  with_reducible repeat'
    (first | assumption | intro _ | extract_lets | apply updLease_reach | apply Reach.foldl | apply Reach.ite | split |
      apply Reach.leases | (dsimp +zetaDelta only))

theorem leaseNote_reach {L a s x0 x1 x2} (h_hif_regs : Piece.regs .hif ∈ L) (h_chans : Piece.chans ∈ L)
    (h_out : Piece.out ∈ L) (h : Reach L a s) : Reach L a (leaseNote x0 x1 x2 s) := by
  unfold leaseNote
  with_reducible repeat'
    (first | assumption | intro _ | extract_lets | apply notify_reach | apply Reach.foldl | apply Reach.ite | split |
      (dsimp +zetaDelta only))

theorem leaseAcquire_reach {L a s x0} (h_leases : Piece.leases ∈ L) (h_ports : Piece.ports ∈ L) (h : Reach L a s) : Reach L a
    (leaseAcquire x0 s) := by
  unfold leaseAcquire
  with_reducible repeat'
    (first | assumption | intro _ | extract_lets | apply borrowerSend_reach | apply updLease_reach | apply Reach.foldl |
      apply Reach.ite | split | (dsimp +zetaDelta only))

theorem abandon_reach {L a s x0 x1 x2} (h_flights : Piece.flights ∈ L) (h_arrs : Piece.arrs ∈ L) (h_stks : Piece.stks ∈ L)
    (h_retrain : Piece.retrain ∈ L) (h_accs : Piece.accs ∈ L) (h_col : Piece.col ∈ L) (h_hif : Piece.hif ∈ L)
    (h_freeCtr : Piece.freeCtr ∈ L) (h : Reach L a s) : Reach L a (abandon x0 x1 x2 s) := by
  unfold abandon
  with_reducible repeat'
    (first | assumption | intro _ | extract_lets | apply finish_reach | apply stkLeave_reach | apply clearArrays_reach |
      apply ReachP.ite | apply ReachP.foldl | apply ReachP.out | apply Reach.foldl | apply Reach.ite | split |
      apply Reach.retrain_accs_col_hif | apply Reach.retrain | apply Reach.accs | apply Reach.col | apply Reach.hif |
      (simp only [ReachP.pair_iff]) | (dsimp +zetaDelta only))

theorem lreclIn_reach {L a s x0} (h_hif_regs : Piece.regs .hif ∈ L) (h_leases : Piece.leases ∈ L) (h_ports : Piece.ports ∈ L)
    (h_chans : Piece.chans ∈ L) (h_out : Piece.out ∈ L) (h : Reach L a s) : Reach L a (lreclIn x0 s) := by
  unfold lreclIn
  with_reducible repeat'
    (first | assumption | intro _ | extract_lets | apply leaseNote_reach | apply updLease_reach |
      (refine ReachO.useSnd (by assumption) ?_) | apply takeMsg_reach | apply Reach.foldl | apply Reach.ite | split |
      (dsimp +zetaDelta only))

theorem lrelackIn_reach {L a s x0} (h_flights : Piece.flights ∈ L) (h_leases : Piece.leases ∈ L) (h_ports : Piece.ports ∈ L)
    (h : Reach L a s) : Reach L a (lrelackIn x0 s) := by
  unfold lrelackIn
  with_reducible repeat'
    (first | assumption | intro _ | extract_lets | apply leaseEnds_reach | (refine ReachO.useSnd (by assumption) ?_) |
      apply takeMsg_reach | apply Reach.foldl | apply Reach.ite | split | (dsimp +zetaDelta only))

theorem memReclaim_reach {L a s x0 x1} (h_bus : Piece.bus ∈ L) (h_lends : Piece.lends ∈ L) (h_ports : Piece.ports ∈ L)
    (h : Reach L a s) : Reach L a (memReclaim x0 x1 s) := by
  unfold memReclaim
  with_reducible repeat'
    (first | assumption | intro _ | extract_lets | apply sendTo_reach | apply Reach.foldl | apply Reach.ite | split |
      apply Reach.bus | apply Reach.lends | (dsimp +zetaDelta only))

end Sys2Proof.Machine
end

