-- ==== Sys2Proof/Laws/ReachCollect.lean ====
section
/-!
SUPPORT. What each operation of Machine/Collect.lean can change.
-/
namespace Sys2Proof.Machine

set_option linter.unusedTactic false
set_option linter.unreachableTactic false
set_option linter.unusedSimpArgs false

theorem colFinish_reach {L a s x0 x1 x2 x3 x4 x5} (h_col_regs : Piece.regs .col ∈ L) (h_ras_regs : Piece.regs .ras ∈ L)
    (h_evr_regs : Piece.regs .evr ∈ L) (h_flights : Piece.flights ∈ L) (h_evr : Piece.evr ∈ L) (h_freeCtr : Piece.freeCtr ∈ L)
    (h : Reach L a s) : Reach L a (colFinish x0 x1 x2 x3 x4 x5 s) := by
  unfold colFinish
  with_reducible repeat'
    (first | assumption | intro _ | extract_lets | apply pageErr_reach | apply finish_reach | apply raiseV_reach |
      apply inc_reach | apply wh_reach | apply Reach.foldl | apply Reach.ite | split | (dsimp +zetaDelta only))

theorem colUndefined_reach {L a s x0 x1} (h_mem : Piece.mem ∈ L) (h_freeCtr : Piece.freeCtr ∈ L) (h : Reach L a s) : Reach L a
    (colUndefined x0 x1 s) := by
  unfold colUndefined
  with_reducible repeat'
    (first | assumption | intro _ | extract_lets | apply scramble_reach | apply ReachP.ite | apply ReachP.foldl |
      apply ReachP.out | apply Reach.foldl | apply Reach.ite | split | (simp only [ReachP.pair_iff]) | (dsimp +zetaDelta only))

theorem setCol_reach {L a s x0} (h_col : Piece.col ∈ L) (h : Reach L a s) : Reach L a (setCol x0 s) := by
  unfold setCol
  with_reducible repeat'
    (first | assumption | intro _ | extract_lets | apply Reach.foldl | apply Reach.ite | split | apply Reach.col |
      (dsimp +zetaDelta only))

theorem freeCtx_reach {L a s x0} (h_col : Piece.col ∈ L) (h : Reach L a s) : Reach L a (freeCtx x0 s) := by
  unfold freeCtx
  with_reducible repeat'
    (first | assumption | intro _ | extract_lets | apply setCol_reach | apply Reach.foldl | apply Reach.ite | split |
      (dsimp +zetaDelta only))

theorem colSend_reach {L a s x0 x1 x2 x3 x4} (h_ports : Piece.ports ∈ L) (h : Reach L a s) : Reach L a
    (colSend x0 x1 x2 x3 x4 s) := by
  unfold colSend
  with_reducible repeat'
    (first | assumption | intro _ | extract_lets | apply sendMsg_reach | apply Reach.foldl | apply Reach.ite | split |
      (dsimp +zetaDelta only))

theorem colEnd_reach {L a s x0 x1 x2 x3 x4} (h_col_regs : Piece.regs .col ∈ L) (h_ras_regs : Piece.regs .ras ∈ L)
    (h_evr_regs : Piece.regs .evr ∈ L) (h_mem : Piece.mem ∈ L) (h_flights : Piece.flights ∈ L) (h_col : Piece.col ∈ L)
    (h_ports : Piece.ports ∈ L) (h_evr : Piece.evr ∈ L) (h_freeCtr : Piece.freeCtr ∈ L) (h : Reach L a s) : Reach L a
    (colEnd x0 x1 x2 x3 x4 s) := by
  unfold colEnd
  with_reducible repeat'
    (first | assumption | intro _ | extract_lets | apply colFinish_reach | apply colUndefined_reach | apply freeCtx_reach |
      apply colSend_reach | apply wh_reach | apply Reach.foldl | apply Reach.ite | split | (dsimp +zetaDelta only))

theorem verdictTimeout_reach {L a s x0} (h_col_regs : Piece.regs .col ∈ L) (h_ras_regs : Piece.regs .ras ∈ L)
    (h_evr_regs : Piece.regs .evr ∈ L) (h_mem : Piece.mem ∈ L) (h_flights : Piece.flights ∈ L) (h_col : Piece.col ∈ L)
    (h_ports : Piece.ports ∈ L) (h_evr : Piece.evr ∈ L) (h_freeCtr : Piece.freeCtr ∈ L) (h : Reach L a s) : Reach L a
    (verdictTimeout x0 s) := by
  unfold verdictTimeout
  with_reducible repeat'
    (first | assumption | intro _ | extract_lets | apply colEnd_reach | apply Reach.foldl | apply Reach.ite | split |
      (dsimp +zetaDelta only))

theorem cgPut_reach {L a s x0 x1 x2 x3 x4} (h_yrd_regs : Piece.regs .yrd ∈ L) (h_mem_regs : Piece.regs .mem ∈ L)
    (h_lpd_regs : Piece.regs .lpd ∈ L) (h_mce_regs : Piece.regs .mce ∈ L) (h_sec_regs : Piece.regs .sec ∈ L)
    (h_ras_regs : Piece.regs .ras ∈ L) (h_evr_regs : Piece.regs .evr ∈ L) (h_mem : Piece.mem ∈ L) (h_yard : Piece.yard ∈ L)
    (h_accs : Piece.accs ∈ L) (h_nextTag : Piece.nextTag ∈ L) (h_ports : Piece.ports ∈ L) (h_mce : Piece.mce ∈ L)
    (h_evr : Piece.evr ∈ L) (h_freeCtr : Piece.freeCtr ∈ L) (h : Reach L a s) : Reach L a (cgPut x0 x1 x2 x3 x4 s) := by
  unfold cgPut
  with_reducible repeat'
    (first | assumption | intro _ | extract_lets | apply memPut_reach | apply Reach.foldl | apply Reach.ite | split |
      (dsimp +zetaDelta only))

theorem groupClose_reach {L a s x0 x1} (h_yrd_regs : Piece.regs .yrd ∈ L) (h_mem_regs : Piece.regs .mem ∈ L)
    (h_lpd_regs : Piece.regs .lpd ∈ L) (h_mce_regs : Piece.regs .mce ∈ L) (h_sec_regs : Piece.regs .sec ∈ L)
    (h_ras_regs : Piece.regs .ras ∈ L) (h_evr_regs : Piece.regs .evr ∈ L) (h_mem : Piece.mem ∈ L) (h_yard : Piece.yard ∈ L)
    (h_accs : Piece.accs ∈ L) (h_nextTag : Piece.nextTag ∈ L) (h_col : Piece.col ∈ L) (h_ports : Piece.ports ∈ L)
    (h_mce : Piece.mce ∈ L) (h_evr : Piece.evr ∈ L) (h_freeCtr : Piece.freeCtr ∈ L) (h : Reach L a s) : Reach L a
    (groupClose x0 x1 s) := by
  unfold groupClose
  with_reducible repeat'
    (first | assumption | intro _ | extract_lets | apply cgPut_reach | apply setCol_reach | apply wh_reach |
      apply ReachP.ite | apply ReachP.foldl | apply ReachP.out | apply Reach.foldl | apply Reach.ite | split |
      (simp only [ReachP.pair_iff]) | (dsimp +zetaDelta only))

theorem colReform_reach {L a s x0 x1} (h_yrd_regs : Piece.regs .yrd ∈ L) (h_mem_regs : Piece.regs .mem ∈ L)
    (h_lpd_regs : Piece.regs .lpd ∈ L) (h_mce_regs : Piece.regs .mce ∈ L) (h_col_regs : Piece.regs .col ∈ L)
    (h_sec_regs : Piece.regs .sec ∈ L) (h_ras_regs : Piece.regs .ras ∈ L) (h_evr_regs : Piece.regs .evr ∈ L)
    (h_mem : Piece.mem ∈ L) (h_yard : Piece.yard ∈ L) (h_accs : Piece.accs ∈ L) (h_nextTag : Piece.nextTag ∈ L)
    (h_ports : Piece.ports ∈ L) (h_mce : Piece.mce ∈ L) (h_evr : Piece.evr ∈ L) (h_freeCtr : Piece.freeCtr ∈ L) (h : Reach L a s)
    : Reach L a (colReform x0 x1 s) := by
  unfold colReform
  with_reducible repeat'
    (first | assumption | intro _ | extract_lets | apply cgPut_reach | apply inc_reach | apply Reach.foldl | apply Reach.ite |
      split | (dsimp +zetaDelta only))

theorem colResult_reach {L a s x0 x1} (h_col_regs : Piece.regs .col ∈ L) (h : Reach L a s) : Reach L a (colResult x0 x1 s) :=
    by
  unfold colResult
  with_reducible repeat'
    (first | assumption | intro _ | extract_lets | apply st_reach | apply Reach.foldl | apply Reach.ite | split |
      (dsimp +zetaDelta only))

theorem colPark_reach {L a s x0 x1 x2} (h_col : Piece.col ∈ L) (h : Reach L a s) : Reach L a (colPark x0 x1 x2 s) := by
  unfold colPark
  with_reducible repeat'
    (first | assumption | intro _ | extract_lets | apply setCol_reach | apply Reach.foldl | apply Reach.ite | split |
      (dsimp +zetaDelta only))

theorem updCtx_reach {L a s x0 x1} (h_col : Piece.col ∈ L) (h : Reach L a s) : Reach L a (updCtx x0 x1 s) := by
  unfold updCtx
  with_reducible repeat'
    (first | assumption | intro _ | extract_lets | apply setCol_reach | apply Reach.foldl | apply Reach.ite | split |
      (dsimp +zetaDelta only))

theorem colAbort_reach {L a s x0 x1 x2} (h_ports : Piece.ports ∈ L) (h : Reach L a s) : Reach L a (colAbort x0 x1 x2 s) := by
  unfold colAbort
  with_reducible repeat'
    (first | assumption | intro _ | extract_lets | apply colSend_reach | apply Reach.foldl | apply Reach.ite | split |
      (dsimp +zetaDelta only))

theorem colCause_reach {L a s x0 x1 x2 x3} (h_col_regs : Piece.regs .col ∈ L) (h_ras_regs : Piece.regs .ras ∈ L)
    (h_evr_regs : Piece.regs .evr ∈ L) (h_mem : Piece.mem ∈ L) (h_flights : Piece.flights ∈ L) (h_col : Piece.col ∈ L)
    (h_ports : Piece.ports ∈ L) (h_evr : Piece.evr ∈ L) (h_freeCtr : Piece.freeCtr ∈ L) (h : Reach L a s) : Reach L a
    (colCause x0 x1 x2 x3 s) := by
  unfold colCause
  with_reducible repeat'
    (first | assumption | intro _ | extract_lets | apply updCtx_reach | apply colAbort_reach | apply colEnd_reach |
      apply Reach.foldl | apply Reach.ite | split | (dsimp +zetaDelta only))

theorem groupOpened_reach {L a x0 x1 x2 r} (h_col_regs : Piece.regs .col ∈ L) (h_col : Piece.col ∈ L) (h : ReachP L a r) :
    Reach L a (groupOpened x0 x1 x2 r) := by
  unfold groupOpened
  with_reducible repeat'
    (first | assumption | intro _ | extract_lets | apply colResult_reach | apply setCol_reach | apply ReachP.ite |
      apply ReachP.foldl | apply ReachP.out | apply Reach.foldl | apply Reach.ite | split | (simp only [ReachP.pair_iff]) |
      (dsimp +zetaDelta only))

theorem groupOpen_reach {L a s x0 x1} (h_yrd_regs : Piece.regs .yrd ∈ L) (h_mem_regs : Piece.regs .mem ∈ L)
    (h_lpd_regs : Piece.regs .lpd ∈ L) (h_mce_regs : Piece.regs .mce ∈ L) (h_col_regs : Piece.regs .col ∈ L)
    (h_sec_regs : Piece.regs .sec ∈ L) (h_ras_regs : Piece.regs .ras ∈ L) (h_evr_regs : Piece.regs .evr ∈ L)
    (h_mem : Piece.mem ∈ L) (h_yard : Piece.yard ∈ L) (h_accs : Piece.accs ∈ L) (h_nextTag : Piece.nextTag ∈ L)
    (h_col : Piece.col ∈ L) (h_ports : Piece.ports ∈ L) (h_mce : Piece.mce ∈ L) (h_evr : Piece.evr ∈ L)
    (h_freeCtr : Piece.freeCtr ∈ L) (h : Reach L a s) : Reach L a (groupOpen x0 x1 s) := by
  unfold groupOpen
  with_reducible repeat'
    (first | assumption | intro _ | extract_lets | (refine ReachP.use (by assumption) ?_) | apply writeAll_reach |
      apply colResult_reach | apply groupOpened_reach | apply ReachP.ite | apply ReachP.foldl | apply ReachP.out |
      apply Reach.foldl | apply Reach.ite | split | (simp only [ReachP.pair_iff]) | (dsimp +zetaDelta only))

theorem cgRead_reach {L a s x0 x1} (h_yrd_regs : Piece.regs .yrd ∈ L) (h_mem_regs : Piece.regs .mem ∈ L)
    (h_lpd_regs : Piece.regs .lpd ∈ L) (h_mce_regs : Piece.regs .mce ∈ L) (h_sec_regs : Piece.regs .sec ∈ L)
    (h_ras_regs : Piece.regs .ras ∈ L) (h_evr_regs : Piece.regs .evr ∈ L) (h_yard : Piece.yard ∈ L) (h_evr : Piece.evr ∈ L)
    (h_freeCtr : Piece.freeCtr ∈ L) (h : Reach L a s) : ReachP L a (cgRead x0 x1 s) := by
  unfold cgRead
  with_reducible repeat'
    (first | assumption | intro _ | extract_lets | (refine ReachP.use (by assumption) ?_) | apply memRead_reach |
      apply ReachP.ite | apply ReachP.foldl | apply ReachP.out | apply Reach.foldl | apply Reach.ite | split |
      (simp only [ReachP.pair_iff]) | (dsimp +zetaDelta only))

theorem colDo_reach {L a s x0 x1 x2} (h_yrd_regs : Piece.regs .yrd ∈ L) (h_mem_regs : Piece.regs .mem ∈ L)
    (h_lpd_regs : Piece.regs .lpd ∈ L) (h_mce_regs : Piece.regs .mce ∈ L) (h_col_regs : Piece.regs .col ∈ L)
    (h_sec_regs : Piece.regs .sec ∈ L) (h_ras_regs : Piece.regs .ras ∈ L) (h_evr_regs : Piece.regs .evr ∈ L)
    (h_mem : Piece.mem ∈ L) (h_flights : Piece.flights ∈ L) (h_yard : Piece.yard ∈ L) (h_accs : Piece.accs ∈ L)
    (h_nextTag : Piece.nextTag ∈ L) (h_col : Piece.col ∈ L) (h_ports : Piece.ports ∈ L) (h_mce : Piece.mce ∈ L)
    (h_evr : Piece.evr ∈ L) (h_freeCtr : Piece.freeCtr ∈ L) (h : Reach L a s) : Reach L a (colDo x0 x1 x2 s) := by
  unfold colDo
  with_reducible repeat'
    (first | assumption | intro _ | extract_lets | (refine ReachP.use (by assumption) ?_) | apply groupClose_reach |
      apply colResult_reach | apply colPark_reach | apply colCause_reach | apply groupOpen_reach | apply cgRead_reach |
      apply ReachP.ite | apply ReachP.foldl | apply ReachP.out | apply Reach.foldl | apply Reach.ite | split |
      (simp only [ReachP.pair_iff]) | (dsimp +zetaDelta only))

theorem colCommand_reach {L a s x0 x1 x2} (h_yrd_regs : Piece.regs .yrd ∈ L) (h_mem_regs : Piece.regs .mem ∈ L)
    (h_lpd_regs : Piece.regs .lpd ∈ L) (h_mce_regs : Piece.regs .mce ∈ L) (h_col_regs : Piece.regs .col ∈ L)
    (h_sec_regs : Piece.regs .sec ∈ L) (h_ras_regs : Piece.regs .ras ∈ L) (h_evr_regs : Piece.regs .evr ∈ L)
    (h_mem : Piece.mem ∈ L) (h_flights : Piece.flights ∈ L) (h_yard : Piece.yard ∈ L) (h_accs : Piece.accs ∈ L)
    (h_nextTag : Piece.nextTag ∈ L) (h_col : Piece.col ∈ L) (h_ports : Piece.ports ∈ L) (h_mce : Piece.mce ∈ L)
    (h_evr : Piece.evr ∈ L) (h_freeCtr : Piece.freeCtr ∈ L) (h : Reach L a s) : Reach L a (colCommand x0 x1 x2 s) := by
  unfold colCommand
  with_reducible repeat'
    (first | assumption | intro _ | extract_lets | apply colDo_reach | apply colResult_reach | apply st_reach |
      apply Reach.foldl | apply Reach.ite | split | (dsimp +zetaDelta only))

theorem colRow_reach {L a s x0 x1 x2} (h_yrd_regs : Piece.regs .yrd ∈ L) (h_mem_regs : Piece.regs .mem ∈ L)
    (h_lpd_regs : Piece.regs .lpd ∈ L) (h_mce_regs : Piece.regs .mce ∈ L) (h_col_regs : Piece.regs .col ∈ L)
    (h_sec_regs : Piece.regs .sec ∈ L) (h_ras_regs : Piece.regs .ras ∈ L) (h_evr_regs : Piece.regs .evr ∈ L)
    (h_bus : Piece.bus ∈ L) (h_mem : Piece.mem ∈ L) (h_flights : Piece.flights ∈ L) (h_yard : Piece.yard ∈ L)
    (h_accs : Piece.accs ∈ L) (h_nextTag : Piece.nextTag ∈ L) (h_col : Piece.col ∈ L) (h_ports : Piece.ports ∈ L)
    (h_mce : Piece.mce ∈ L) (h_evr : Piece.evr ∈ L) (h_freeCtr : Piece.freeCtr ∈ L) (h : Reach L a s) : Reach L a
    (colRow x0 x1 x2 s) := by
  unfold colRow
  with_reducible repeat'
    (first | assumption | intro _ | extract_lets | apply colCommand_reach | apply Reach.foldl | apply Reach.ite | split |
      apply Reach.bus | (dsimp +zetaDelta only))

theorem colDone_reach {L a s x0} (h_col : Piece.col ∈ L) (h_ports : Piece.ports ∈ L) (h : Reach L a s) : Reach L a
    (colDone x0 s) := by
  unfold colDone
  with_reducible repeat'
    (first | assumption | intro _ | extract_lets | apply updCtx_reach | apply colSend_reach | apply Reach.foldl |
      apply Reach.ite | split | (dsimp +zetaDelta only))

theorem segDown_reach {L a s x0} (h_yrd_regs : Piece.regs .yrd ∈ L) (h_mem_regs : Piece.regs .mem ∈ L)
    (h_lpd_regs : Piece.regs .lpd ∈ L) (h_mce_regs : Piece.regs .mce ∈ L) (h_col_regs : Piece.regs .col ∈ L)
    (h_sec_regs : Piece.regs .sec ∈ L) (h_ras_regs : Piece.regs .ras ∈ L) (h_evr_regs : Piece.regs .evr ∈ L)
    (h_mem : Piece.mem ∈ L) (h_flights : Piece.flights ∈ L) (h_yard : Piece.yard ∈ L) (h_retrain : Piece.retrain ∈ L)
    (h_accs : Piece.accs ∈ L) (h_nextTag : Piece.nextTag ∈ L) (h_col : Piece.col ∈ L) (h_ports : Piece.ports ∈ L)
    (h_mce : Piece.mce ∈ L) (h_evr : Piece.evr ∈ L) (h_freeCtr : Piece.freeCtr ∈ L) (h : Reach L a s) : Reach L a (segDown x0 s)
    := by
  unfold segDown
  with_reducible repeat'
    (first | assumption | intro _ | extract_lets | (refine ReachP.use (by assumption) ?_) | apply proceed_reach |
      apply writeAll_reach | apply updCtx_reach | apply colCause_reach | apply noteWait_reach | apply colDone_reach |
      (refine ReachO.useSnd (by assumption) ?_) | apply takeMsg_reach | apply ReachP.ite | apply ReachP.foldl |
      apply ReachP.out | apply Reach.foldl | apply Reach.ite | split | (simp only [ReachP.pair_iff]) | (dsimp +zetaDelta only))

theorem endFlight_reach {L a s x0 x1 x2} (h_col_regs : Piece.regs .col ∈ L) (h_ras_regs : Piece.regs .ras ∈ L)
    (h_evr_regs : Piece.regs .evr ∈ L) (h_mem : Piece.mem ∈ L) (h_flights : Piece.flights ∈ L) (h_arrs : Piece.arrs ∈ L)
    (h_stks : Piece.stks ∈ L) (h_retrain : Piece.retrain ∈ L) (h_accs : Piece.accs ∈ L) (h_col : Piece.col ∈ L)
    (h_ports : Piece.ports ∈ L) (h_hif : Piece.hif ∈ L) (h_evr : Piece.evr ∈ L) (h_freeCtr : Piece.freeCtr ∈ L) (h : Reach L a s)
    : Reach L a (endFlight x0 x1 x2 s) := by
  unfold endFlight
  with_reducible repeat'
    (first | assumption | intro _ | extract_lets | apply colFinish_reach | apply abandon_reach | apply colCause_reach |
      apply Reach.foldl | apply Reach.ite | split | apply Reach.accs | (dsimp +zetaDelta only))

theorem leaseLost_reach {L a s x0 x1} (h_hif_regs : Piece.regs .hif ∈ L) (h_mem_regs : Piece.regs .mem ∈ L)
    (h_col_regs : Piece.regs .col ∈ L) (h_ras_regs : Piece.regs .ras ∈ L) (h_evr_regs : Piece.regs .evr ∈ L)
    (h_mem : Piece.mem ∈ L) (h_flights : Piece.flights ∈ L) (h_arrs : Piece.arrs ∈ L) (h_stks : Piece.stks ∈ L)
    (h_retrain : Piece.retrain ∈ L) (h_leases : Piece.leases ∈ L) (h_accs : Piece.accs ∈ L) (h_col : Piece.col ∈ L)
    (h_ports : Piece.ports ∈ L) (h_hif : Piece.hif ∈ L) (h_chans : Piece.chans ∈ L) (h_lostFids : Piece.lostFids ∈ L)
    (h_evr : Piece.evr ∈ L) (h_out : Piece.out ∈ L) (h_freeCtr : Piece.freeCtr ∈ L) (h : Reach L a s) : Reach L a
    (leaseLost x0 x1 s) := by
  unfold leaseLost
  with_reducible repeat'
    (first | assumption | intro _ | extract_lets | apply pageErr_reach | apply endFlight_reach | apply inc_reach |
      apply leaseNote_reach | apply updLease_reach | apply Reach.foldl | apply Reach.ite | split | apply Reach.lostFids |
      (dsimp +zetaDelta only))

theorem routesLost_reach {L a s} (h_hif_regs : Piece.regs .hif ∈ L) (h_mem_regs : Piece.regs .mem ∈ L)
    (h_col_regs : Piece.regs .col ∈ L) (h_ras_regs : Piece.regs .ras ∈ L) (h_evr_regs : Piece.regs .evr ∈ L)
    (h_mem : Piece.mem ∈ L) (h_flights : Piece.flights ∈ L) (h_arrs : Piece.arrs ∈ L) (h_stks : Piece.stks ∈ L)
    (h_retrain : Piece.retrain ∈ L) (h_leases : Piece.leases ∈ L) (h_accs : Piece.accs ∈ L) (h_col : Piece.col ∈ L)
    (h_ports : Piece.ports ∈ L) (h_hif : Piece.hif ∈ L) (h_chans : Piece.chans ∈ L) (h_lostFids : Piece.lostFids ∈ L)
    (h_evr : Piece.evr ∈ L) (h_out : Piece.out ∈ L) (h_freeCtr : Piece.freeCtr ∈ L) (h : Reach L a s) : Reach L a (routesLost s)
    := by
  unfold routesLost
  with_reducible repeat'
    (first | assumption | intro _ | extract_lets | apply leaseLost_reach | apply Reach.foldl | apply Reach.ite | split |
      (dsimp +zetaDelta only))

theorem segSend_reach {L a s x0 x1} (h_yrd_regs : Piece.regs .yrd ∈ L) (h_mem_regs : Piece.regs .mem ∈ L)
    (h_lpd_regs : Piece.regs .lpd ∈ L) (h_mce_regs : Piece.regs .mce ∈ L) (h_col_regs : Piece.regs .col ∈ L)
    (h_sec_regs : Piece.regs .sec ∈ L) (h_ras_regs : Piece.regs .ras ∈ L) (h_evr_regs : Piece.regs .evr ∈ L)
    (h_mem : Piece.mem ∈ L) (h_flights : Piece.flights ∈ L) (h_yard : Piece.yard ∈ L) (h_retrain : Piece.retrain ∈ L)
    (h_accs : Piece.accs ∈ L) (h_nextTag : Piece.nextTag ∈ L) (h_col : Piece.col ∈ L) (h_ports : Piece.ports ∈ L)
    (h_evr : Piece.evr ∈ L) (h_freeCtr : Piece.freeCtr ∈ L) (h : Reach L a s) : Reach L a (segSend x0 x1 s) := by
  unfold segSend
  with_reducible repeat'
    (first | assumption | intro _ | extract_lets | (refine ReachP.use (by assumption) ?_) | apply proceed_reach |
      apply updCtx_reach | apply colCause_reach | apply noteHeld_reach | apply colSend_reach | apply memRead_reach |
      apply ReachP.ite | apply ReachP.foldl | apply ReachP.out | apply Reach.foldl | apply Reach.ite | split |
      (simp only [ReachP.pair_iff]) | (dsimp +zetaDelta only))

theorem verdictIn_reach {L a s x0} (h_yrd_regs : Piece.regs .yrd ∈ L) (h_mem_regs : Piece.regs .mem ∈ L)
    (h_lpd_regs : Piece.regs .lpd ∈ L) (h_mce_regs : Piece.regs .mce ∈ L) (h_col_regs : Piece.regs .col ∈ L)
    (h_sec_regs : Piece.regs .sec ∈ L) (h_ras_regs : Piece.regs .ras ∈ L) (h_evr_regs : Piece.regs .evr ∈ L)
    (h_mem : Piece.mem ∈ L) (h_flights : Piece.flights ∈ L) (h_yard : Piece.yard ∈ L) (h_accs : Piece.accs ∈ L)
    (h_nextTag : Piece.nextTag ∈ L) (h_col : Piece.col ∈ L) (h_ports : Piece.ports ∈ L) (h_mce : Piece.mce ∈ L)
    (h_evr : Piece.evr ∈ L) (h_freeCtr : Piece.freeCtr ∈ L) (h : Reach L a s) : Reach L a (verdictIn x0 s) := by
  unfold verdictIn
  with_reducible repeat'
    (first | assumption | intro _ | extract_lets | apply colReform_reach | apply colEnd_reach |
      (refine ReachO.useSnd (by assumption) ?_) | apply takeMsg_reach | apply Reach.foldl | apply Reach.ite | split |
      (dsimp +zetaDelta only))

theorem colReleased_reach {L a s x0} (h_yrd_regs : Piece.regs .yrd ∈ L) (h_mem_regs : Piece.regs .mem ∈ L)
    (h_lpd_regs : Piece.regs .lpd ∈ L) (h_mce_regs : Piece.regs .mce ∈ L) (h_col_regs : Piece.regs .col ∈ L)
    (h_sec_regs : Piece.regs .sec ∈ L) (h_ras_regs : Piece.regs .ras ∈ L) (h_evr_regs : Piece.regs .evr ∈ L)
    (h_mem : Piece.mem ∈ L) (h_flights : Piece.flights ∈ L) (h_yard : Piece.yard ∈ L) (h_accs : Piece.accs ∈ L)
    (h_nextTag : Piece.nextTag ∈ L) (h_col : Piece.col ∈ L) (h_ports : Piece.ports ∈ L) (h_mce : Piece.mce ∈ L)
    (h_evr : Piece.evr ∈ L) (h_freeCtr : Piece.freeCtr ∈ L) (h : Reach L a s) : Reach L a (colReleased x0 s) := by
  unfold colReleased
  with_reducible repeat'
    (first | assumption | intro _ | extract_lets | apply colDo_reach | apply setCol_reach | apply ReachP.ite |
      apply ReachP.foldl | apply ReachP.out | apply Reach.foldl | apply Reach.ite | split | (simp only [ReachP.pair_iff]) |
      (dsimp +zetaDelta only))

theorem collTake_reach {L a s x0} (h_flights : Piece.flights ∈ L) (h_col : Piece.col ∈ L) (h : Reach L a s) : Reach L a
    (collTake x0 s) := by
  unfold collTake
  with_reducible repeat'
    (first | assumption | intro _ | extract_lets | apply updFlight_reach | apply setCol_reach | apply Reach.foldl |
      apply Reach.ite | split | (exact ⟨fun h => h, fun h => h⟩) | (refine ⟨fun _ e => ?_, fun h => h⟩; cases e) |
      (dsimp +zetaDelta only))

theorem colLocal_reach {L a s x0 x1} (h_yrd_regs : Piece.regs .yrd ∈ L) (h_mem_regs : Piece.regs .mem ∈ L)
    (h_lpd_regs : Piece.regs .lpd ∈ L) (h_mce_regs : Piece.regs .mce ∈ L) (h_col_regs : Piece.regs .col ∈ L)
    (h_sec_regs : Piece.regs .sec ∈ L) (h_ras_regs : Piece.regs .ras ∈ L) (h_evr_regs : Piece.regs .evr ∈ L)
    (h_mem : Piece.mem ∈ L) (h_flights : Piece.flights ∈ L) (h_yard : Piece.yard ∈ L) (h_retrain : Piece.retrain ∈ L)
    (h_accs : Piece.accs ∈ L) (h_nextTag : Piece.nextTag ∈ L) (h_col : Piece.col ∈ L) (h_ports : Piece.ports ∈ L)
    (h_mce : Piece.mce ∈ L) (h_evr : Piece.evr ∈ L) (h_freeCtr : Piece.freeCtr ∈ L) (h : Reach L a s) : Reach L a
    (colLocal x0 x1 s) := by
  unfold colLocal
  with_reducible repeat'
    (first | assumption | intro _ | extract_lets | (refine ReachP.use (by assumption) ?_) | apply proceed_reach |
      apply writeAll_reach | apply noteWait_reach | apply colEnd_reach | apply memRead_reach | apply ReachP.ite |
      apply ReachP.foldl | apply ReachP.out | apply Reach.foldl | apply Reach.ite | split | (simp only [ReachP.pair_iff]) |
      (dsimp +zetaDelta only))

theorem colStart_reach {L a s x0 x1} (h_yrd_regs : Piece.regs .yrd ∈ L) (h_mem_regs : Piece.regs .mem ∈ L)
    (h_lpd_regs : Piece.regs .lpd ∈ L) (h_mce_regs : Piece.regs .mce ∈ L) (h_col_regs : Piece.regs .col ∈ L)
    (h_sec_regs : Piece.regs .sec ∈ L) (h_ras_regs : Piece.regs .ras ∈ L) (h_evr_regs : Piece.regs .evr ∈ L)
    (h_mem : Piece.mem ∈ L) (h_flights : Piece.flights ∈ L) (h_yard : Piece.yard ∈ L) (h_accs : Piece.accs ∈ L)
    (h_nextTag : Piece.nextTag ∈ L) (h_col : Piece.col ∈ L) (h_ports : Piece.ports ∈ L) (h_mce : Piece.mce ∈ L)
    (h_evr : Piece.evr ∈ L) (h_freeCtr : Piece.freeCtr ∈ L) (h : Reach L a s) : Reach L a (colStart x0 x1 s) := by
  unfold colStart
  with_reducible repeat'
    (first | assumption | intro _ | extract_lets | (refine ReachP.use (by assumption) ?_) | apply colFinish_reach |
      apply cgPut_reach | apply setCol_reach | apply colSend_reach | apply colDone_reach | apply cgRead_reach |
      apply ReachP.ite | apply ReachP.foldl | apply ReachP.out | apply Reach.foldl | apply Reach.ite | split |
      (simp only [ReachP.pair_iff]) | (dsimp +zetaDelta only))

theorem collStart_reach {L a s x0} (h_yrd_regs : Piece.regs .yrd ∈ L) (h_mem_regs : Piece.regs .mem ∈ L)
    (h_lpd_regs : Piece.regs .lpd ∈ L) (h_mce_regs : Piece.regs .mce ∈ L) (h_col_regs : Piece.regs .col ∈ L)
    (h_sec_regs : Piece.regs .sec ∈ L) (h_ras_regs : Piece.regs .ras ∈ L) (h_evr_regs : Piece.regs .evr ∈ L)
    (h_mem : Piece.mem ∈ L) (h_flights : Piece.flights ∈ L) (h_yard : Piece.yard ∈ L) (h_retrain : Piece.retrain ∈ L)
    (h_accs : Piece.accs ∈ L) (h_nextTag : Piece.nextTag ∈ L) (h_col : Piece.col ∈ L) (h_ports : Piece.ports ∈ L)
    (h_mce : Piece.mce ∈ L) (h_evr : Piece.evr ∈ L) (h_freeCtr : Piece.freeCtr ∈ L) (h : Reach L a s) : Reach L a (collStart x0 s)
    := by
  unfold collStart
  with_reducible repeat'
    (first | assumption | intro _ | extract_lets | apply colLocal_reach | apply colStart_reach | apply setCol_reach |
      apply Reach.foldl | apply Reach.ite | split | (dsimp +zetaDelta only))

theorem colDones_reach {L a s} (h_col : Piece.col ∈ L) (h_ports : Piece.ports ∈ L) (h : Reach L a s) : Reach L a (colDones s)
    := by
  unfold colDones
  with_reducible repeat'
    (first | assumption | intro _ | extract_lets | apply colDone_reach | apply Reach.foldl | apply Reach.ite | split |
      (dsimp +zetaDelta only))

theorem lunknownIn_reach {L a s x0} (h_hif_regs : Piece.regs .hif ∈ L) (h_mem_regs : Piece.regs .mem ∈ L)
    (h_col_regs : Piece.regs .col ∈ L) (h_ras_regs : Piece.regs .ras ∈ L) (h_evr_regs : Piece.regs .evr ∈ L)
    (h_mem : Piece.mem ∈ L) (h_flights : Piece.flights ∈ L) (h_arrs : Piece.arrs ∈ L) (h_stks : Piece.stks ∈ L)
    (h_retrain : Piece.retrain ∈ L) (h_leases : Piece.leases ∈ L) (h_accs : Piece.accs ∈ L) (h_col : Piece.col ∈ L)
    (h_ports : Piece.ports ∈ L) (h_hif : Piece.hif ∈ L) (h_chans : Piece.chans ∈ L) (h_lostFids : Piece.lostFids ∈ L)
    (h_evr : Piece.evr ∈ L) (h_out : Piece.out ∈ L) (h_freeCtr : Piece.freeCtr ∈ L) (h : Reach L a s) : Reach L a
    (lunknownIn x0 s) := by
  unfold lunknownIn
  with_reducible repeat'
    (first | assumption | intro _ | extract_lets | apply leaseLost_reach | apply tickFree_reach |
      (refine ReachO.useSnd (by assumption) ?_) | apply takeMsg_reach | apply Reach.foldl | apply Reach.ite | split |
      (dsimp +zetaDelta only))

theorem colCloseAll_reach {L a s x0} (h_yrd_regs : Piece.regs .yrd ∈ L) (h_mem_regs : Piece.regs .mem ∈ L)
    (h_lpd_regs : Piece.regs .lpd ∈ L) (h_mce_regs : Piece.regs .mce ∈ L) (h_sec_regs : Piece.regs .sec ∈ L)
    (h_ras_regs : Piece.regs .ras ∈ L) (h_evr_regs : Piece.regs .evr ∈ L) (h_mem : Piece.mem ∈ L) (h_yard : Piece.yard ∈ L)
    (h_accs : Piece.accs ∈ L) (h_nextTag : Piece.nextTag ∈ L) (h_col : Piece.col ∈ L) (h_ports : Piece.ports ∈ L)
    (h_mce : Piece.mce ∈ L) (h_evr : Piece.evr ∈ L) (h_freeCtr : Piece.freeCtr ∈ L) (h : Reach L a s) : Reach L a
    (colCloseAll x0 s) := by
  unfold colCloseAll
  with_reducible repeat'
    (first | assumption | intro _ | extract_lets | apply groupClose_reach | apply ReachP.ite | apply ReachP.foldl |
      apply ReachP.out | apply Reach.foldl | apply Reach.ite | split | (simp only [ReachP.pair_iff]) | (dsimp +zetaDelta only))

end Sys2Proof.Machine
end

