-- ==== Sys2Proof/Laws/ReachQueue.lean ====
section
/-!
SUPPORT. What each operation of Machine/Queue.lean can change.
-/
namespace Sys2Proof.Machine

set_option linter.unusedTactic false
set_option linter.unreachableTactic false
set_option linter.unusedSimpArgs false

theorem onQueue_reach {L a s x0 x1 x2} (h_bus : Piece.bus ∈ L) (hf : ∀ t, Reach L a t → Reach L a (x2 t)) (h : Reach L a s) :
    Reach L a (onQueue x0 x1 x2 s) := by
  unfold onQueue
  with_reducible repeat'
    (first | assumption | intro _ | extract_lets | apply Reach.foldl | apply Reach.ite | split | apply hf | apply Reach.bus |
      (dsimp +zetaDelta only))

theorem setQu_reach {L a s x0 x1} (h_queues : Piece.queues ∈ L) (h : Reach L a s) : Reach L a (setQu x0 x1 s) := by
  unfold setQu
  with_reducible repeat'
    (first | assumption | intro _ | extract_lets | apply Reach.foldl | apply Reach.ite | split | apply Reach.queues |
      apply tabWf_tabSet | apply tabWf_putBytes | apply tabWf_filter | (dsimp +zetaDelta only))

theorem askEnd_reach {L a s x0} (h_queues : Piece.queues ∈ L) (h_retrain : Piece.retrain ∈ L) (h_accs : Piece.accs ∈ L)
    (h : Reach L a s) : Reach L a (askEnd x0 s) := by
  unfold askEnd
  with_reducible repeat'
    (first | assumption | intro _ | extract_lets | apply proceed_reach | apply setQu_reach | apply Reach.foldl |
      apply Reach.ite | split | apply Reach.accs | (dsimp +zetaDelta only))

theorem askOf_reach {L a s x0} (h_queues : Piece.queues ∈ L) (h_nextFid : Piece.nextFid ∈ L) (h : Reach L a s) : Reach L a
    (askOf x0 s).2 := by
  unfold askOf
  with_reducible repeat'
    (first | assumption | intro _ | extract_lets | apply setQu_reach | apply ReachP.ite | apply ReachP.foldl |
      apply ReachP.out | apply Reach.foldl | apply Reach.ite | split | apply Reach.nextFid | (simp only [ReachP.pair_iff]) |
      (exact Nat.le_succ _) | (exact inOrder_le) | (dsimp +zetaDelta only))

theorem countLost_reach {L a s x0 x1} (h_ras_regs : Piece.regs .ras ∈ L) (h_evr_regs : Piece.regs .evr ∈ L)
    (h_evr : Piece.evr ∈ L) (h_freeCtr : Piece.freeCtr ∈ L) (h : Reach L a s) : Reach L a (countLost x0 x1 s) := by
  unfold countLost
  with_reducible repeat'
    (first | assumption | intro _ | extract_lets | apply countCode_reach | apply Reach.foldl | apply Reach.ite | split |
      (dsimp +zetaDelta only))

theorem descKnown_reach {L a s x0 x1 x2 x3 x4} (h_ras_regs : Piece.regs .ras ∈ L) (h_evr_regs : Piece.regs .evr ∈ L)
    (h_queues : Piece.queues ∈ L) (h_evr : Piece.evr ∈ L) (h_freeCtr : Piece.freeCtr ∈ L) (h : Reach L a s) : Reach L a
    (descKnown x0 x1 x2 x3 x4 s) := by
  unfold descKnown
  with_reducible repeat'
    (first | assumption | intro _ | extract_lets | apply countLost_reach | apply setQu_reach | apply Reach.foldl |
      apply Reach.ite | split | (dsimp +zetaDelta only))

theorem takeDesc_reach {L a s x0} (h_yrd_regs : Piece.regs .yrd ∈ L) (h_mem_regs : Piece.regs .mem ∈ L)
    (h_lpd_regs : Piece.regs .lpd ∈ L) (h_mce_regs : Piece.regs .mce ∈ L) (h_sec_regs : Piece.regs .sec ∈ L)
    (h_ras_regs : Piece.regs .ras ∈ L) (h_evr_regs : Piece.regs .evr ∈ L) (h_queues : Piece.queues ∈ L)
    (h_nextFid : Piece.nextFid ∈ L) (h_yard : Piece.yard ∈ L) (h_retrain : Piece.retrain ∈ L) (h_accs : Piece.accs ∈ L)
    (h_nextTag : Piece.nextTag ∈ L) (h_ports : Piece.ports ∈ L) (h_evr : Piece.evr ∈ L) (h_freeCtr : Piece.freeCtr ∈ L)
    (h : Reach L a s) : Reach L a (takeDesc x0 s) := by
  unfold takeDesc
  with_reducible repeat'
    (first | assumption | intro _ | extract_lets | (refine ReachP.ofPair (by assumption) ?_) |
      (refine ReachP.use (by assumption) ?_) | apply askEnd_reach | apply askOf_reach | apply descKnown_reach |
      apply readAll_reach | apply noteHeld_reach | apply memRead_reach | apply ReachP.ite | apply ReachP.foldl |
      apply ReachP.out | apply Reach.foldl | apply Reach.ite | split | (simp only [ReachP.pair_iff]) | (dsimp +zetaDelta only))

theorem hold_reach {L a s x0 x1 x2 x3 x4} (h_hif_regs : Piece.regs .hif ∈ L) (h_dsp_regs : Piece.regs .dsp ∈ L)
    (h_ras_regs : Piece.regs .ras ∈ L) (h_evr_regs : Piece.regs .evr ∈ L) (h_queues : Piece.queues ∈ L)
    (h_chans : Piece.chans ∈ L) (h_evr : Piece.evr ∈ L) (h_out : Piece.out ∈ L) (h_freeCtr : Piece.freeCtr ∈ L) (h : Reach L a s)
    : Reach L a (hold x0 x1 x2 x3 x4 s) := by
  unfold hold
  with_reducible repeat'
    (first | assumption | intro _ | extract_lets | apply pageErr_reach | apply st_reach | apply countCode_reach |
      apply notify_reach | apply setQu_reach | apply Reach.foldl | apply Reach.ite | split | (dsimp +zetaDelta only))

theorem nextEntry_reach {L a s x0} (h_dsp_regs : Piece.regs .dsp ∈ L) (h_queues : Piece.queues ∈ L) (h : Reach L a s) : Reach
    L a (nextEntry x0 s) := by
  unfold nextEntry
  with_reducible repeat'
    (first | assumption | intro _ | extract_lets | apply st_reach | apply setQu_reach | apply Reach.foldl | apply Reach.ite |
      split | (dsimp +zetaDelta only))

theorem entryRead_reach {L a s x0 x1 x2} (h_hif_regs : Piece.regs .hif ∈ L) (h_dsp_regs : Piece.regs .dsp ∈ L)
    (h_ras_regs : Piece.regs .ras ∈ L) (h_evr_regs : Piece.regs .evr ∈ L) (h_queues : Piece.queues ∈ L)
    (h_chans : Piece.chans ∈ L) (h_evr : Piece.evr ∈ L) (h_out : Piece.out ∈ L) (h_freeCtr : Piece.freeCtr ∈ L) (h : Reach L a s)
    : ReachP L a (entryRead x0 x1 x2 s) := by
  unfold entryRead
  with_reducible repeat'
    (first | assumption | intro _ | extract_lets | apply countLost_reach | apply nextEntry_reach | apply hold_reach |
      apply setQu_reach | apply ReachP.ite | apply ReachP.foldl | apply ReachP.out | apply Reach.foldl | apply Reach.ite |
      split | (simp only [ReachP.pair_iff]) | (dsimp +zetaDelta only))

theorem takeOnce_reach {L a s x0} (h_hif_regs : Piece.regs .hif ∈ L) (h_dsp_regs : Piece.regs .dsp ∈ L)
    (h_yrd_regs : Piece.regs .yrd ∈ L) (h_mem_regs : Piece.regs .mem ∈ L) (h_lpd_regs : Piece.regs .lpd ∈ L)
    (h_mce_regs : Piece.regs .mce ∈ L) (h_sec_regs : Piece.regs .sec ∈ L) (h_ras_regs : Piece.regs .ras ∈ L)
    (h_evr_regs : Piece.regs .evr ∈ L) (h_queues : Piece.queues ∈ L) (h_yard : Piece.yard ∈ L) (h_chans : Piece.chans ∈ L)
    (h_evr : Piece.evr ∈ L) (h_out : Piece.out ∈ L) (h_freeCtr : Piece.freeCtr ∈ L) (h : Reach L a s) : ReachP L a (takeOnce x0 s)
    := by
  unfold takeOnce
  with_reducible repeat'
    (first | assumption | intro _ | extract_lets | (refine ReachP.use (by assumption) ?_) | apply hold_reach |
      apply entryRead_reach | apply memRead_reach | apply ReachP.ite | apply ReachP.foldl | apply ReachP.out |
      apply Reach.foldl | apply Reach.ite | split | (simp only [ReachP.pair_iff]) | (dsimp +zetaDelta only))

theorem takeEntry_reach {L a s x0 x1} (h_hif_regs : Piece.regs .hif ∈ L) (h_dsp_regs : Piece.regs .dsp ∈ L)
    (h_yrd_regs : Piece.regs .yrd ∈ L) (h_mem_regs : Piece.regs .mem ∈ L) (h_lpd_regs : Piece.regs .lpd ∈ L)
    (h_mce_regs : Piece.regs .mce ∈ L) (h_sec_regs : Piece.regs .sec ∈ L) (h_ras_regs : Piece.regs .ras ∈ L)
    (h_evr_regs : Piece.regs .evr ∈ L) (h_queues : Piece.queues ∈ L) (h_yard : Piece.yard ∈ L) (h_chans : Piece.chans ∈ L)
    (h_evr : Piece.evr ∈ L) (h_out : Piece.out ∈ L) (h_freeCtr : Piece.freeCtr ∈ L) (h : Reach L a s) : Reach L a
    (takeEntry x0 x1 s) := by
  induction x1 generalizing x0 s
  case zero =>
    rw [takeEntry]
    with_reducible repeat'
      (first | assumption | apply ih | intro _ | extract_lets | (refine ReachP.use (by assumption) ?_) |
        apply takeOnce_reach | apply ReachP.ite | apply ReachP.foldl | apply ReachP.out | apply Reach.foldl | apply Reach.ite |
        split | (simp only [ReachP.pair_iff]) | (dsimp +zetaDelta only))
  case succ n ih =>
    rw [takeEntry]
    with_reducible repeat'
      (first | assumption | apply ih | intro _ | extract_lets | (refine ReachP.use (by assumption) ?_) |
        apply takeOnce_reach | apply ReachP.ite | apply ReachP.foldl | apply ReachP.out | apply Reach.foldl | apply Reach.ite |
        split | (simp only [ReachP.pair_iff]) | (dsimp +zetaDelta only))

theorem refill_reach {L a s x0} (h_hif_regs : Piece.regs .hif ∈ L) (h_dsp_regs : Piece.regs .dsp ∈ L)
    (h_yrd_regs : Piece.regs .yrd ∈ L) (h_mem_regs : Piece.regs .mem ∈ L) (h_lpd_regs : Piece.regs .lpd ∈ L)
    (h_mce_regs : Piece.regs .mce ∈ L) (h_sec_regs : Piece.regs .sec ∈ L) (h_ras_regs : Piece.regs .ras ∈ L)
    (h_evr_regs : Piece.regs .evr ∈ L) (h_queues : Piece.queues ∈ L) (h_nextFid : Piece.nextFid ∈ L) (h_yard : Piece.yard ∈ L)
    (h_retrain : Piece.retrain ∈ L) (h_accs : Piece.accs ∈ L) (h_nextTag : Piece.nextTag ∈ L) (h_ports : Piece.ports ∈ L)
    (h_chans : Piece.chans ∈ L) (h_evr : Piece.evr ∈ L) (h_out : Piece.out ∈ L) (h_freeCtr : Piece.freeCtr ∈ L) (h : Reach L a s)
    : Reach L a (refill x0 s) := by
  unfold refill
  with_reducible repeat'
    (first | assumption | intro _ | extract_lets | apply takeDesc_reach | apply takeEntry_reach | apply Reach.foldl |
      apply Reach.ite | split | (dsimp +zetaDelta only))

theorem resumeQueue_reach {L a s x0} (h_hif_regs : Piece.regs .hif ∈ L) (h_dsp_regs : Piece.regs .dsp ∈ L)
    (h_yrd_regs : Piece.regs .yrd ∈ L) (h_mem_regs : Piece.regs .mem ∈ L) (h_lpd_regs : Piece.regs .lpd ∈ L)
    (h_mce_regs : Piece.regs .mce ∈ L) (h_sec_regs : Piece.regs .sec ∈ L) (h_ras_regs : Piece.regs .ras ∈ L)
    (h_evr_regs : Piece.regs .evr ∈ L) (h_queues : Piece.queues ∈ L) (h_nextFid : Piece.nextFid ∈ L) (h_yard : Piece.yard ∈ L)
    (h_retrain : Piece.retrain ∈ L) (h_accs : Piece.accs ∈ L) (h_nextTag : Piece.nextTag ∈ L) (h_ports : Piece.ports ∈ L)
    (h_chans : Piece.chans ∈ L) (h_evr : Piece.evr ∈ L) (h_out : Piece.out ∈ L) (h_freeCtr : Piece.freeCtr ∈ L) (h : Reach L a s)
    : Reach L a (resumeQueue x0 s) := by
  unfold resumeQueue
  with_reducible repeat'
    (first | assumption | intro _ | extract_lets | apply refill_reach | apply setQu_reach | apply wh_reach |
      apply Reach.foldl | apply Reach.ite | split | (dsimp +zetaDelta only))

theorem nextDesc_reach {L a s x0} (h_dsp_regs : Piece.regs .dsp ∈ L) (h_queues : Piece.queues ∈ L) (h : Reach L a s) : Reach L
    a (nextDesc x0 s) := by
  unfold nextDesc
  with_reducible repeat'
    (first | assumption | intro _ | extract_lets | apply nextEntry_reach | apply st_reach | apply setQu_reach |
      apply Reach.foldl | apply Reach.ite | split | (dsimp +zetaDelta only))

theorem departHead_reach {L a s x0} (h_dsp_regs : Piece.regs .dsp ∈ L) (h_queues : Piece.queues ∈ L)
    (h_lastServed : Piece.lastServed ∈ L) (h : Reach L a s) : Reach L a (departHead x0 s) := by
  unfold departHead
  with_reducible repeat'
    (first | assumption | intro _ | extract_lets | apply nextDesc_reach | apply inc_reach | apply Reach.foldl |
      apply Reach.ite | split | apply Reach.lastServed | (dsimp +zetaDelta only))

theorem handOver_reach {L a s x0} (h_dsp_regs : Piece.regs .dsp ∈ L) (h_queues : Piece.queues ∈ L)
    (h_lastServed : Piece.lastServed ∈ L) (h_flights : Piece.flights ∈ L) (h_nextFid : Piece.nextFid ∈ L)
    (h_leases : Piece.leases ∈ L) (h : Reach L a s) : Reach L a (handOver x0 s) := by
  unfold handOver
  with_reducible repeat'
    (first | assumption | intro _ | extract_lets | apply leaseIssue_reach | apply departHead_reach | apply wh_reach |
      apply Reach.foldl | apply Reach.ite | split | apply Reach.issueOne | apply Reach.flights | apply Reach.nextFid |
      apply inIssueOrder_filter | (exact (by rfl)) | (dsimp +zetaDelta only))

theorem report_reach {L a s x0 x1 x2 x3 x4 x5 x6} (h_hif_regs : Piece.regs .hif ∈ L) (h_dsp_regs : Piece.regs .dsp ∈ L)
    (h_tok_regs : Piece.regs .tok ∈ L) (h_yrd_regs : Piece.regs .yrd ∈ L) (h_mem_regs : Piece.regs .mem ∈ L)
    (h_lpd_regs : Piece.regs .lpd ∈ L) (h_mce_regs : Piece.regs .mce ∈ L) (h_sec_regs : Piece.regs .sec ∈ L)
    (h_ras_regs : Piece.regs .ras ∈ L) (h_evr_regs : Piece.regs .evr ∈ L) (h_mem : Piece.mem ∈ L) (h_toks : Piece.toks ∈ L)
    (h_queues : Piece.queues ∈ L) (h_flights : Piece.flights ∈ L) (h_yard : Piece.yard ∈ L) (h_accs : Piece.accs ∈ L)
    (h_nextTag : Piece.nextTag ∈ L) (h_ports : Piece.ports ∈ L) (h_chans : Piece.chans ∈ L) (h_mce : Piece.mce ∈ L)
    (h_evr : Piece.evr ∈ L) (h_out : Piece.out ∈ L) (h_freeCtr : Piece.freeCtr ∈ L) (h : Reach L a s) : Reach L a
    (report x0 x1 x2 x3 x4 x5 x6 s) := by
  unfold report
  with_reducible repeat'
    (first | assumption | intro _ | extract_lets | apply tokAddV_reach | apply settle_reach | apply countCode_reach |
      apply memPut_reach | apply hold_reach | apply notify_reach | apply wh_reach | apply Reach.foldl | apply Reach.ite |
      split | (dsimp +zetaDelta only))

theorem completeHead_reach {L a s x0 x1} (h_hif_regs : Piece.regs .hif ∈ L) (h_dsp_regs : Piece.regs .dsp ∈ L)
    (h_tok_regs : Piece.regs .tok ∈ L) (h_yrd_regs : Piece.regs .yrd ∈ L) (h_mem_regs : Piece.regs .mem ∈ L)
    (h_lpd_regs : Piece.regs .lpd ∈ L) (h_mce_regs : Piece.regs .mce ∈ L) (h_sec_regs : Piece.regs .sec ∈ L)
    (h_ras_regs : Piece.regs .ras ∈ L) (h_evr_regs : Piece.regs .evr ∈ L) (h_mem : Piece.mem ∈ L) (h_toks : Piece.toks ∈ L)
    (h_queues : Piece.queues ∈ L) (h_lastServed : Piece.lastServed ∈ L) (h_flights : Piece.flights ∈ L) (h_yard : Piece.yard ∈ L)
    (h_accs : Piece.accs ∈ L) (h_nextTag : Piece.nextTag ∈ L) (h_ports : Piece.ports ∈ L) (h_chans : Piece.chans ∈ L)
    (h_mce : Piece.mce ∈ L) (h_evr : Piece.evr ∈ L) (h_out : Piece.out ∈ L) (h_freeCtr : Piece.freeCtr ∈ L) (h : Reach L a s) :
    Reach L a (completeHead x0 x1 s) := by
  unfold completeHead
  with_reducible repeat'
    (first | assumption | intro _ | extract_lets | apply report_reach | apply departHead_reach | apply Reach.foldl |
      apply Reach.ite | split | (dsimp +zetaDelta only))

theorem serve_reach {L a s x0} (h_hif_regs : Piece.regs .hif ∈ L) (h_dsp_regs : Piece.regs .dsp ∈ L)
    (h_tok_regs : Piece.regs .tok ∈ L) (h_yrd_regs : Piece.regs .yrd ∈ L) (h_mem_regs : Piece.regs .mem ∈ L)
    (h_lpd_regs : Piece.regs .lpd ∈ L) (h_mce_regs : Piece.regs .mce ∈ L) (h_sec_regs : Piece.regs .sec ∈ L)
    (h_ras_regs : Piece.regs .ras ∈ L) (h_evr_regs : Piece.regs .evr ∈ L) (h_mem : Piece.mem ∈ L) (h_toks : Piece.toks ∈ L)
    (h_queues : Piece.queues ∈ L) (h_lastServed : Piece.lastServed ∈ L) (h_flights : Piece.flights ∈ L)
    (h_nextFid : Piece.nextFid ∈ L) (h_yard : Piece.yard ∈ L) (h_leases : Piece.leases ∈ L) (h_accs : Piece.accs ∈ L)
    (h_nextTag : Piece.nextTag ∈ L) (h_ports : Piece.ports ∈ L) (h_chans : Piece.chans ∈ L) (h_mce : Piece.mce ∈ L)
    (h_evr : Piece.evr ∈ L) (h_out : Piece.out ∈ L) (h_freeCtr : Piece.freeCtr ∈ L) (h : Reach L a s) : Reach L a (serve x0 s) :=
    by
  unfold serve
  with_reducible repeat'
    (first | assumption | intro _ | extract_lets | apply handOver_reach | apply completeHead_reach | apply Reach.foldl |
      apply Reach.ite | split | (dsimp +zetaDelta only))

theorem replayLog_reach {L a s x0 x1} (h_dsp_regs : Piece.regs .dsp ∈ L) (h_yrd_regs : Piece.regs .yrd ∈ L)
    (h_mem_regs : Piece.regs .mem ∈ L) (h_lpd_regs : Piece.regs .lpd ∈ L) (h_mce_regs : Piece.regs .mce ∈ L)
    (h_sec_regs : Piece.regs .sec ∈ L) (h_ras_regs : Piece.regs .ras ∈ L) (h_evr_regs : Piece.regs .evr ∈ L)
    (h_mem : Piece.mem ∈ L) (h_yard : Piece.yard ∈ L) (h_accs : Piece.accs ∈ L) (h_nextTag : Piece.nextTag ∈ L)
    (h_ports : Piece.ports ∈ L) (h_mce : Piece.mce ∈ L) (h_evr : Piece.evr ∈ L) (h_freeCtr : Piece.freeCtr ∈ L) (h : Reach L a s)
    : Reach L a (replayLog x0 x1 s) := by
  unfold replayLog
  with_reducible repeat'
    (first | assumption | intro _ | extract_lets | apply memPut_reach | apply inc_reach | apply ReachP.ite |
      apply ReachP.foldl | apply ReachP.out | apply Reach.foldl | apply Reach.ite | split | (simp only [ReachP.pair_iff]) |
      (dsimp +zetaDelta only))

theorem tailWrite_reach {L a s x0 x1} (h_hif_regs : Piece.regs .hif ∈ L) (h_dsp_regs : Piece.regs .dsp ∈ L)
    (h_yrd_regs : Piece.regs .yrd ∈ L) (h_mem_regs : Piece.regs .mem ∈ L) (h_lpd_regs : Piece.regs .lpd ∈ L)
    (h_mce_regs : Piece.regs .mce ∈ L) (h_sec_regs : Piece.regs .sec ∈ L) (h_ras_regs : Piece.regs .ras ∈ L)
    (h_evr_regs : Piece.regs .evr ∈ L) (h_queues : Piece.queues ∈ L) (h_nextFid : Piece.nextFid ∈ L) (h_yard : Piece.yard ∈ L)
    (h_retrain : Piece.retrain ∈ L) (h_accs : Piece.accs ∈ L) (h_nextTag : Piece.nextTag ∈ L) (h_ports : Piece.ports ∈ L)
    (h_chans : Piece.chans ∈ L) (h_evr : Piece.evr ∈ L) (h_out : Piece.out ∈ L) (h_freeCtr : Piece.freeCtr ∈ L) (h : Reach L a s)
    : Reach L a (tailWrite x0 x1 s) := by
  unfold tailWrite
  with_reducible repeat'
    (first | assumption | intro _ | extract_lets | apply refill_reach | apply pageErr_reach | apply st_reach |
      apply Reach.foldl | apply Reach.ite | split | (dsimp +zetaDelta only))

theorem runQueue_reach {L a s x0} (h_hif_regs : Piece.regs .hif ∈ L) (h_dsp_regs : Piece.regs .dsp ∈ L)
    (h_yrd_regs : Piece.regs .yrd ∈ L) (h_mem_regs : Piece.regs .mem ∈ L) (h_lpd_regs : Piece.regs .lpd ∈ L)
    (h_mce_regs : Piece.regs .mce ∈ L) (h_sec_regs : Piece.regs .sec ∈ L) (h_ras_regs : Piece.regs .ras ∈ L)
    (h_evr_regs : Piece.regs .evr ∈ L) (h_queues : Piece.queues ∈ L) (h_nextFid : Piece.nextFid ∈ L) (h_yard : Piece.yard ∈ L)
    (h_retrain : Piece.retrain ∈ L) (h_accs : Piece.accs ∈ L) (h_nextTag : Piece.nextTag ∈ L) (h_ports : Piece.ports ∈ L)
    (h_chans : Piece.chans ∈ L) (h_evr : Piece.evr ∈ L) (h_out : Piece.out ∈ L) (h_freeCtr : Piece.freeCtr ∈ L) (h : Reach L a s)
    : Reach L a (runQueue x0 s) := by
  unfold runQueue
  with_reducible repeat'
    (first | assumption | intro _ | extract_lets | apply refill_reach | apply st_reach | apply wh_reach | apply Reach.foldl |
      apply Reach.ite | split | (dsimp +zetaDelta only))

theorem dropFlight_reach {L a s x0} (h_queues : Piece.queues ∈ L) (h_flights : Piece.flights ∈ L)
    (h_descriptors : Piece.descriptors ∈ L) (h_retrain : Piece.retrain ∈ L) (h_accs : Piece.accs ∈ L) (h : Reach L a s) : Reach L
    a (dropFlight x0 s) := by
  unfold dropFlight
  with_reducible repeat'
    (first | assumption | intro _ | extract_lets | apply setQu_reach | apply wh_reach | apply ReachP.ite |
      apply ReachP.foldl | apply ReachP.out | apply Reach.foldl | apply Reach.ite | split | apply Reach.flights_retrain_accs |
      apply Reach.flights | apply Reach.retrain | apply Reach.accs | (simp only [ReachP.pair_iff]) | apply inIssueOrder_filter |
      (dsimp +zetaDelta only))

theorem retire_reach {L a s x0 x1} (h_hif_regs : Piece.regs .hif ∈ L) (h_dsp_regs : Piece.regs .dsp ∈ L)
    (h_tok_regs : Piece.regs .tok ∈ L) (h_yrd_regs : Piece.regs .yrd ∈ L) (h_mem_regs : Piece.regs .mem ∈ L)
    (h_lpd_regs : Piece.regs .lpd ∈ L) (h_mce_regs : Piece.regs .mce ∈ L) (h_sec_regs : Piece.regs .sec ∈ L)
    (h_ras_regs : Piece.regs .ras ∈ L) (h_evr_regs : Piece.regs .evr ∈ L) (h_mem : Piece.mem ∈ L) (h_toks : Piece.toks ∈ L)
    (h_queues : Piece.queues ∈ L) (h_flights : Piece.flights ∈ L) (h_descriptors : Piece.descriptors ∈ L)
    (h_yard : Piece.yard ∈ L) (h_retrain : Piece.retrain ∈ L) (h_accs : Piece.accs ∈ L) (h_nextTag : Piece.nextTag ∈ L)
    (h_ports : Piece.ports ∈ L) (h_chans : Piece.chans ∈ L) (h_mce : Piece.mce ∈ L) (h_evr : Piece.evr ∈ L)
    (h_out : Piece.out ∈ L) (h_freeCtr : Piece.freeCtr ∈ L) (h : Reach L a s) : Reach L a (retire x0 x1 s) := by
  unfold retire
  with_reducible repeat'
    (first | assumption | intro _ | extract_lets | apply report_reach | apply dropFlight_reach | apply replayLog_reach |
      apply Reach.foldl | apply Reach.ite | split | (dsimp +zetaDelta only))

theorem completeFlight_reach {L a s x0} (h_hif_regs : Piece.regs .hif ∈ L) (h_dsp_regs : Piece.regs .dsp ∈ L)
    (h_tok_regs : Piece.regs .tok ∈ L) (h_yrd_regs : Piece.regs .yrd ∈ L) (h_mem_regs : Piece.regs .mem ∈ L)
    (h_lpd_regs : Piece.regs .lpd ∈ L) (h_mce_regs : Piece.regs .mce ∈ L) (h_kvs_regs : Piece.regs .kvs ∈ L)
    (h_scn_regs : Piece.regs .scn ∈ L) (h_sec_regs : Piece.regs .sec ∈ L) (h_ras_regs : Piece.regs .ras ∈ L)
    (h_evr_regs : Piece.regs .evr ∈ L) (h_mem : Piece.mem ∈ L) (h_toks : Piece.toks ∈ L) (h_queues : Piece.queues ∈ L)
    (h_flights : Piece.flights ∈ L) (h_descriptors : Piece.descriptors ∈ L) (h_yard : Piece.yard ∈ L)
    (h_retrain : Piece.retrain ∈ L) (h_accs : Piece.accs ∈ L) (h_nextTag : Piece.nextTag ∈ L) (h_lab : Piece.lab ∈ L)
    (h_scn : Piece.scn ∈ L) (h_ports : Piece.ports ∈ L) (h_chans : Piece.chans ∈ L) (h_mce : Piece.mce ∈ L)
    (h_evr : Piece.evr ∈ L) (h_out : Piece.out ∈ L) (h_freeCtr : Piece.freeCtr ∈ L) (h : Reach L a s) : Reach L a
    (completeFlight x0 s) := by
  unfold completeFlight
  with_reducible repeat'
    (first | assumption | intro _ | extract_lets | (refine ReachP.use (by assumption) ?_) | apply scanRelease_reach |
      apply finish_reach | apply stopped_reach | apply attnScores_reach | apply retire_reach | apply scanOutcome_reach |
      apply ReachP.ite | apply ReachP.foldl | apply ReachP.out | apply Reach.foldl | apply Reach.ite | split |
      (simp only [ReachP.pair_iff]) | (dsimp +zetaDelta only))

theorem flushQueue_reach {L a s x0} (h_dsp_regs : Piece.regs .dsp ∈ L) (h_queues : Piece.queues ∈ L)
    (h_flights : Piece.flights ∈ L) (h_descriptors : Piece.descriptors ∈ L) (h_retrain : Piece.retrain ∈ L)
    (h_accs : Piece.accs ∈ L) (h : Reach L a s) : Reach L a (flushQueue x0 s) := by
  unfold flushQueue
  with_reducible repeat'
    (first | assumption | intro _ | extract_lets | apply askEnd_reach | apply st_reach | apply setQu_reach |
      apply Reach.foldl | apply Reach.ite | split | apply Reach.flights | apply inIssueOrder_filter | (dsimp +zetaDelta only))

theorem fenceGo_reach {L a s x0} (h_hif_regs : Piece.regs .hif ∈ L) (h_dsp_regs : Piece.regs .dsp ∈ L)
    (h_tok_regs : Piece.regs .tok ∈ L) (h_yrd_regs : Piece.regs .yrd ∈ L) (h_mem_regs : Piece.regs .mem ∈ L)
    (h_lpd_regs : Piece.regs .lpd ∈ L) (h_mce_regs : Piece.regs .mce ∈ L) (h_sec_regs : Piece.regs .sec ∈ L)
    (h_ras_regs : Piece.regs .ras ∈ L) (h_evr_regs : Piece.regs .evr ∈ L) (h_mem : Piece.mem ∈ L) (h_toks : Piece.toks ∈ L)
    (h_queues : Piece.queues ∈ L) (h_lastServed : Piece.lastServed ∈ L) (h_flights : Piece.flights ∈ L)
    (h_nextFid : Piece.nextFid ∈ L) (h_yard : Piece.yard ∈ L) (h_retrain : Piece.retrain ∈ L) (h_leases : Piece.leases ∈ L)
    (h_accs : Piece.accs ∈ L) (h_nextTag : Piece.nextTag ∈ L) (h_ports : Piece.ports ∈ L) (h_chans : Piece.chans ∈ L)
    (h_mce : Piece.mce ∈ L) (h_evr : Piece.evr ∈ L) (h_out : Piece.out ∈ L) (h_freeCtr : Piece.freeCtr ∈ L) (h : Reach L a s) :
    Reach L a (fenceGo x0 s) := by
  unfold fenceGo
  with_reducible repeat'
    (first | assumption | intro _ | extract_lets | apply refill_reach | apply serve_reach | apply Reach.foldl |
      apply Reach.ite | split | (dsimp +zetaDelta only))

theorem dispatch_reach {L a s} (h_hif_regs : Piece.regs .hif ∈ L) (h_dsp_regs : Piece.regs .dsp ∈ L)
    (h_tok_regs : Piece.regs .tok ∈ L) (h_yrd_regs : Piece.regs .yrd ∈ L) (h_mem_regs : Piece.regs .mem ∈ L)
    (h_lpd_regs : Piece.regs .lpd ∈ L) (h_mce_regs : Piece.regs .mce ∈ L) (h_sec_regs : Piece.regs .sec ∈ L)
    (h_ras_regs : Piece.regs .ras ∈ L) (h_evr_regs : Piece.regs .evr ∈ L) (h_mem : Piece.mem ∈ L) (h_toks : Piece.toks ∈ L)
    (h_queues : Piece.queues ∈ L) (h_lastServed : Piece.lastServed ∈ L) (h_flights : Piece.flights ∈ L)
    (h_nextFid : Piece.nextFid ∈ L) (h_yard : Piece.yard ∈ L) (h_retrain : Piece.retrain ∈ L) (h_leases : Piece.leases ∈ L)
    (h_accs : Piece.accs ∈ L) (h_nextTag : Piece.nextTag ∈ L) (h_ports : Piece.ports ∈ L) (h_chans : Piece.chans ∈ L)
    (h_mce : Piece.mce ∈ L) (h_evr : Piece.evr ∈ L) (h_out : Piece.out ∈ L) (h_freeCtr : Piece.freeCtr ∈ L) (h : Reach L a s) :
    Reach L a (dispatch s) := by
  unfold dispatch
  with_reducible repeat'
    (first | assumption | intro _ | extract_lets | apply refill_reach | apply serve_reach | apply Reach.foldl |
      apply Reach.ite | split | (dsimp +zetaDelta only))

theorem replay_reach {L a s x0} (h_yrd_regs : Piece.regs .yrd ∈ L) (h_mem_regs : Piece.regs .mem ∈ L)
    (h_lpd_regs : Piece.regs .lpd ∈ L) (h_mce_regs : Piece.regs .mce ∈ L) (h_sec_regs : Piece.regs .sec ∈ L)
    (h_ras_regs : Piece.regs .ras ∈ L) (h_evr_regs : Piece.regs .evr ∈ L) (h_mem : Piece.mem ∈ L) (h_flights : Piece.flights ∈ L)
    (h_stks : Piece.stks ∈ L) (h_yard : Piece.yard ∈ L) (h_retrain : Piece.retrain ∈ L) (h_accs : Piece.accs ∈ L)
    (h_nextTag : Piece.nextTag ∈ L) (h_ports : Piece.ports ∈ L) (h_mce : Piece.mce ∈ L) (h_evr : Piece.evr ∈ L)
    (h_freeCtr : Piece.freeCtr ∈ L) (h : Reach L a s) : Reach L a (replay x0 s) := by
  unfold replay
  with_reducible repeat'
    (first | assumption | intro _ | extract_lets | apply scanReplay_reach | apply tileReplay_reach | apply attnReplay_reach |
      apply stkReplay_reach | apply Reach.foldl | apply Reach.ite | split | (dsimp +zetaDelta only))

end Sys2Proof.Machine
end

