-- ==== Sys2Proof/Laws/ReachHost.lean ====
section
/-!
SUPPORT. What each operation of Machine/Host.lean can change.
-/
namespace Sys2Proof.Machine

set_option linter.unusedTactic false
set_option linter.unreachableTactic false
set_option linter.unusedSimpArgs false

theorem sendPlain_reach {L a s x0 x1 x2 x3 x4 x5} (h_hif_regs : Piece.regs .hif ∈ L) (h_out : Piece.out ∈ L) (h : Reach L a s)
    : Reach L a (sendPlain x0 x1 x2 x3 x4 x5 s) := by
  unfold sendPlain
  with_reducible repeat'
    (first | assumption | intro _ | extract_lets | apply sendFrame_reach | apply Reach.foldl | apply Reach.ite | split |
      (dsimp +zetaDelta only))

theorem onPort_reach {L a s x0 x1} (hf : ∀ t, Reach L a t → Reach L a (x1 t)) (h : Reach L a s) : Reach L a (onPort x0 x1 s)
    := by
  unfold onPort
  with_reducible repeat'
    (first | assumption | intro _ | extract_lets | apply wh_reach | apply Reach.foldl | apply Reach.ite | split | apply hf |
      (dsimp +zetaDelta only))

theorem moveLost_reach {L a s x0 x1 x2} (h_hif_regs : Piece.regs .hif ∈ L) (h_ras_regs : Piece.regs .ras ∈ L)
    (h_evr_regs : Piece.regs .evr ∈ L) (h_flights : Piece.flights ∈ L) (h_arrs : Piece.arrs ∈ L) (h_stks : Piece.stks ∈ L)
    (h_retrain : Piece.retrain ∈ L) (h_accs : Piece.accs ∈ L) (h_col : Piece.col ∈ L) (h_hif : Piece.hif ∈ L)
    (h_evr : Piece.evr ∈ L) (h_freeCtr : Piece.freeCtr ∈ L) (h : Reach L a s) : Reach L a (moveLost x0 x1 x2 s) := by
  unfold moveLost
  with_reducible repeat'
    (first | assumption | intro _ | extract_lets | apply pageErr_reach | apply abandon_reach | apply Reach.foldl |
      apply Reach.ite | split | (dsimp +zetaDelta only))

theorem endSession_reach {L a s x0 x1} (h_hif_regs : Piece.regs .hif ∈ L) (h_ras_regs : Piece.regs .ras ∈ L)
    (h_evr_regs : Piece.regs .evr ∈ L) (h_flights : Piece.flights ∈ L) (h_arrs : Piece.arrs ∈ L) (h_stks : Piece.stks ∈ L)
    (h_retrain : Piece.retrain ∈ L) (h_accs : Piece.accs ∈ L) (h_col : Piece.col ∈ L) (h_hif : Piece.hif ∈ L)
    (h_chans : Piece.chans ∈ L) (h_evr : Piece.evr ∈ L) (h_freeCtr : Piece.freeCtr ∈ L) (h : Reach L a s) : Reach L a
    (endSession x0 x1 s) := by
  unfold endSession
  with_reducible repeat'
    (first | assumption | intro _ | extract_lets | apply moveLost_reach | apply inc_reach | apply raise_reach |
      apply wh_reach | apply ReachP.ite | apply ReachP.foldl | apply ReachP.out | apply Reach.foldl | apply Reach.ite | split |
      apply Reach.retrain_accs_chans | apply Reach.retrain | apply Reach.accs | apply Reach.chans |
      (simp only [ReachP.pair_iff]) | (dsimp +zetaDelta only))

theorem dataAcked_reach {L a s x0} (h_flights : Piece.flights ∈ L) (h : Reach L a s) : Reach L a (dataAcked x0 s) := by
  unfold dataAcked
  with_reducible repeat'
    (first | assumption | intro _ | extract_lets | apply updFlight_reach | apply finish_reach | apply Reach.foldl |
      apply Reach.ite | split | (exact ⟨fun h => h, fun h => h⟩) | (refine ⟨fun _ e => ?_, fun h => h⟩; cases e) |
      (dsimp +zetaDelta only))

theorem ackIn_reach {L a s x0 x1 x2} (h_hif_regs : Piece.regs .hif ∈ L) (h_flights : Piece.flights ∈ L)
    (h_chans : Piece.chans ∈ L) (h_out : Piece.out ∈ L) (h : Reach L a s) : Reach L a (ackIn x0 x1 x2 s) := by
  unfold ackIn
  with_reducible repeat'
    (first | assumption | intro _ | extract_lets | apply dataAcked_reach | apply pump_reach | apply updSess_reach |
      apply Reach.foldl | apply Reach.ite | split | (dsimp +zetaDelta only))

theorem rxDrop_reach {L a s x0} (h_hif_regs : Piece.regs .hif ∈ L) (h : Reach L a s) : Reach L a (rxDrop x0 s) := by
  unfold rxDrop
  with_reducible repeat'
    (first | assumption | intro _ | extract_lets | apply inc_reach | apply Reach.foldl | apply Reach.ite | split |
      (dsimp +zetaDelta only))

theorem rxFrame_reach {L a s x0} (h_hif_regs : Piece.regs .hif ∈ L) (h : Reach L a s) : Reach L a (rxFrame x0 s) := by
  unfold rxFrame
  with_reducible repeat'
    (first | assumption | intro _ | extract_lets | apply inc_reach | apply Reach.foldl | apply Reach.ite | split |
      (dsimp +zetaDelta only))

theorem icmp_reach {L a s x0 x1 x2} (h_hif_regs : Piece.regs .hif ∈ L) (h_out : Piece.out ∈ L) (h : Reach L a s) : Reach L a
    (icmp x0 x1 x2 s) := by
  unfold icmp
  with_reducible repeat'
    (first | assumption | intro _ | extract_lets | apply rxDrop_reach | apply sendFrame_reach | apply rxFrame_reach |
      apply Reach.foldl | apply Reach.ite | split | (dsimp +zetaDelta only))

theorem newHandshake_reach {L a s x0 x1} (h_sec_regs : Piece.regs .sec ∈ L) (h_ras_regs : Piece.regs .ras ∈ L)
    (h_evr_regs : Piece.regs .evr ∈ L) (h_sec : Piece.sec ∈ L) (h_evr : Piece.evr ∈ L) (h_freeCtr : Piece.freeCtr ∈ L)
    (h : Reach L a s) : ReachP L a (newHandshake x0 x1 s) := by
  unfold newHandshake
  with_reducible repeat'
    (first | assumption | intro _ | extract_lets | (refine ReachP.ofPair (by assumption) ?_) | apply drbgKey_reach |
      apply drbgTake_reach | apply signBy_reach | apply ReachP.ite | apply ReachP.foldl | apply ReachP.out | apply Reach.foldl |
      apply Reach.ite | split | (simp only [ReachP.pair_iff]) | (dsimp +zetaDelta only))

theorem helloIn_reach {L a s x0 x1} (h_hif_regs : Piece.regs .hif ∈ L) (h_sec_regs : Piece.regs .sec ∈ L)
    (h_ras_regs : Piece.regs .ras ∈ L) (h_evr_regs : Piece.regs .evr ∈ L) (h_hif : Piece.hif ∈ L) (h_sec : Piece.sec ∈ L)
    (h_evr : Piece.evr ∈ L) (h_out : Piece.out ∈ L) (h_freeCtr : Piece.freeCtr ∈ L) (h : Reach L a s) : Reach L a
    (helloIn x0 x1 s) := by
  unfold helloIn
  with_reducible repeat'
    (first | assumption | intro _ | extract_lets | (refine ReachP.use (by assumption) ?_) | apply newHandshake_reach |
      apply rxDrop_reach | apply sendPlain_reach | apply ReachP.ite | apply ReachP.foldl | apply ReachP.out |
      apply Reach.foldl | apply Reach.ite | split | apply Reach.hif | (simp only [ReachP.pair_iff]) | (dsimp +zetaDelta only))

theorem resendPkt_reach {L a s x0 x1} (h_hif_regs : Piece.regs .hif ∈ L) (h_chans : Piece.chans ∈ L) (h_out : Piece.out ∈ L)
    (h : Reach L a s) : Reach L a (resendPkt x0 x1 s) := by
  unfold resendPkt
  with_reducible repeat'
    (first | assumption | intro _ | extract_lets | apply sendPacket_reach | apply inc_reach | apply updSess_reach |
      apply Reach.foldl | apply Reach.ite | split | (dsimp +zetaDelta only))

theorem sendPull_reach {L a s x0 x1 x2 x3} (h_hif_regs : Piece.regs .hif ∈ L) (h_hif : Piece.hif ∈ L)
    (h_chans : Piece.chans ∈ L) (h_out : Piece.out ∈ L) (h : Reach L a s) : Reach L a (sendPull x0 x1 x2 x3 s) := by
  unfold sendPull
  with_reducible repeat'
    (first | assumption | intro _ | extract_lets | apply sendSeq_reach | apply ReachP.ite | apply ReachP.foldl |
      apply ReachP.out | apply Reach.foldl | apply Reach.ite | split | apply Reach.hif | (simp only [ReachP.pair_iff]) |
      (dsimp +zetaDelta only))

theorem hosMove_reach {L a s x0} (h_hif_regs : Piece.regs .hif ∈ L) (h_yrd_regs : Piece.regs .yrd ∈ L)
    (h_mem_regs : Piece.regs .mem ∈ L) (h_lpd_regs : Piece.regs .lpd ∈ L) (h_mce_regs : Piece.regs .mce ∈ L)
    (h_sec_regs : Piece.regs .sec ∈ L) (h_ras_regs : Piece.regs .ras ∈ L) (h_evr_regs : Piece.regs .evr ∈ L)
    (h_flights : Piece.flights ∈ L) (h_arrs : Piece.arrs ∈ L) (h_stks : Piece.stks ∈ L) (h_yard : Piece.yard ∈ L)
    (h_retrain : Piece.retrain ∈ L) (h_accs : Piece.accs ∈ L) (h_nextTag : Piece.nextTag ∈ L) (h_col : Piece.col ∈ L)
    (h_ports : Piece.ports ∈ L) (h_hif : Piece.hif ∈ L) (h_chans : Piece.chans ∈ L) (h_evr : Piece.evr ∈ L)
    (h_out : Piece.out ∈ L) (h_freeCtr : Piece.freeCtr ∈ L) (h : Reach L a s) : Reach L a (hosMove x0 s) := by
  unfold hosMove
  with_reducible repeat'
    (first | assumption | intro _ | extract_lets | (refine ReachP.use (by assumption) ?_) | apply moveLost_reach |
      apply sendSeq_reach | apply updFlight_reach | apply finish_reach | apply readAll_reach | apply noteHeld_reach |
      apply sendPull_reach | apply ReachP.ite | apply ReachP.foldl | apply ReachP.out | apply Reach.foldl | apply Reach.ite |
      split | apply Reach.hif | (simp only [ReachP.pair_iff]) | (exact ⟨fun h => h, fun h => h⟩) |
      (refine ⟨fun _ e => ?_, fun h => h⟩; cases e) | (dsimp +zetaDelta only))

theorem pullTimeout_reach {L a s x0} (h_hif_regs : Piece.regs .hif ∈ L) (h_ras_regs : Piece.regs .ras ∈ L)
    (h_evr_regs : Piece.regs .evr ∈ L) (h_flights : Piece.flights ∈ L) (h_arrs : Piece.arrs ∈ L) (h_stks : Piece.stks ∈ L)
    (h_retrain : Piece.retrain ∈ L) (h_accs : Piece.accs ∈ L) (h_col : Piece.col ∈ L) (h_hif : Piece.hif ∈ L)
    (h_evr : Piece.evr ∈ L) (h_freeCtr : Piece.freeCtr ∈ L) (h : Reach L a s) : Reach L a (pullTimeout x0 s) := by
  unfold pullTimeout
  with_reducible repeat'
    (first | assumption | intro _ | extract_lets | apply moveLost_reach | apply Reach.foldl | apply Reach.ite | split |
      (dsimp +zetaDelta only))

theorem moveGo_reach {L a s x0} (h_hif_regs : Piece.regs .hif ∈ L) (h_yrd_regs : Piece.regs .yrd ∈ L)
    (h_mem_regs : Piece.regs .mem ∈ L) (h_lpd_regs : Piece.regs .lpd ∈ L) (h_mce_regs : Piece.regs .mce ∈ L)
    (h_sec_regs : Piece.regs .sec ∈ L) (h_ras_regs : Piece.regs .ras ∈ L) (h_evr_regs : Piece.regs .evr ∈ L)
    (h_mem : Piece.mem ∈ L) (h_flights : Piece.flights ∈ L) (h_arrs : Piece.arrs ∈ L) (h_stks : Piece.stks ∈ L)
    (h_yard : Piece.yard ∈ L) (h_retrain : Piece.retrain ∈ L) (h_accs : Piece.accs ∈ L) (h_nextTag : Piece.nextTag ∈ L)
    (h_col : Piece.col ∈ L) (h_ports : Piece.ports ∈ L) (h_hif : Piece.hif ∈ L) (h_chans : Piece.chans ∈ L)
    (h_mce : Piece.mce ∈ L) (h_evr : Piece.evr ∈ L) (h_out : Piece.out ∈ L) (h_freeCtr : Piece.freeCtr ∈ L) (h : Reach L a s) :
    Reach L a (moveGo x0 s) := by
  unfold moveGo
  with_reducible repeat'
    (first | assumption | intro _ | extract_lets | apply stkGo_reach | apply hosMove_reach | apply Reach.foldl |
      apply Reach.ite | split | (dsimp +zetaDelta only))

theorem fillIn_reach {L a s x0 x1} (h_hif_regs : Piece.regs .hif ∈ L) (h_yrd_regs : Piece.regs .yrd ∈ L)
    (h_mem_regs : Piece.regs .mem ∈ L) (h_lpd_regs : Piece.regs .lpd ∈ L) (h_mce_regs : Piece.regs .mce ∈ L)
    (h_sec_regs : Piece.regs .sec ∈ L) (h_ras_regs : Piece.regs .ras ∈ L) (h_evr_regs : Piece.regs .evr ∈ L)
    (h_mem : Piece.mem ∈ L) (h_flights : Piece.flights ∈ L) (h_arrs : Piece.arrs ∈ L) (h_stks : Piece.stks ∈ L)
    (h_yard : Piece.yard ∈ L) (h_retrain : Piece.retrain ∈ L) (h_accs : Piece.accs ∈ L) (h_nextTag : Piece.nextTag ∈ L)
    (h_col : Piece.col ∈ L) (h_ports : Piece.ports ∈ L) (h_hif : Piece.hif ∈ L) (h_chans : Piece.chans ∈ L)
    (h_mce : Piece.mce ∈ L) (h_evr : Piece.evr ∈ L) (h_out : Piece.out ∈ L) (h_freeCtr : Piece.freeCtr ∈ L) (h : Reach L a s) :
    ReachP L a (fillIn x0 x1 s) := by
  unfold fillIn
  with_reducible repeat'
    (first | assumption | intro _ | extract_lets | (refine ReachP.use (by assumption) ?_) | apply proceed_reach |
      apply memWrite_reach | apply updFlight_reach | apply finish_reach | apply abandon_reach | apply rxDrop_reach |
      apply sendPull_reach | apply noteWait_reach | apply ReachP.ite | apply ReachP.foldl | apply ReachP.out |
      apply Reach.foldl | apply Reach.ite | split | apply Reach.hif | (simp only [ReachP.pair_iff]) |
      (exact ⟨fun h => h, fun h => h⟩) | (refine ⟨fun _ e => ?_, fun h => h⟩; cases e) | (dsimp +zetaDelta only))

theorem dropHandshake_reach {L a s x0} (h_hif : Piece.hif ∈ L) (h : Reach L a s) : Reach L a (dropHandshake x0 s) := by
  unfold dropHandshake
  with_reducible repeat'
    (first | assumption | intro _ | extract_lets | apply Reach.foldl | apply Reach.ite | split | apply Reach.hif |
      (dsimp +zetaDelta only))

theorem lossTimeout_reach {L a s x0} (h_hif_regs : Piece.regs .hif ∈ L) (h_ras_regs : Piece.regs .ras ∈ L)
    (h_evr_regs : Piece.regs .evr ∈ L) (h_flights : Piece.flights ∈ L) (h_arrs : Piece.arrs ∈ L) (h_stks : Piece.stks ∈ L)
    (h_retrain : Piece.retrain ∈ L) (h_accs : Piece.accs ∈ L) (h_col : Piece.col ∈ L) (h_hif : Piece.hif ∈ L)
    (h_chans : Piece.chans ∈ L) (h_evr : Piece.evr ∈ L) (h_freeCtr : Piece.freeCtr ∈ L) (h : Reach L a s) : Reach L a
    (lossTimeout x0 s) := by
  unfold lossTimeout
  with_reducible repeat'
    (first | assumption | intro _ | extract_lets | apply endSession_reach | apply Reach.foldl | apply Reach.ite | split |
      (dsimp +zetaDelta only))

theorem headerIn_reach {L a s x0 x1} (h_hif_regs : Piece.regs .hif ∈ L) (h_flights : Piece.flights ∈ L)
    (h_chans : Piece.chans ∈ L) (h_out : Piece.out ∈ L) (h : Reach L a s) : ReachP L a (headerIn x0 x1 s) := by
  unfold headerIn
  with_reducible repeat'
    (first | assumption | intro _ | extract_lets | apply ackIn_reach | apply rxDrop_reach | apply inc_reach |
      apply updSess_reach | apply ReachP.ite | apply ReachP.foldl | apply ReachP.out | apply Reach.foldl | apply Reach.ite |
      split | (simp only [ReachP.pair_iff]) | (dsimp +zetaDelta only))

theorem ackDelay_reach {L a s x0} (h_hif_regs : Piece.regs .hif ∈ L) (h_chans : Piece.chans ∈ L) (h_out : Piece.out ∈ L)
    (h : Reach L a s) : Reach L a (ackDelay x0 s) := by
  unfold ackDelay
  with_reducible repeat'
    (first | assumption | intro _ | extract_lets | apply sendPacket_reach | apply wh_reach | apply Reach.foldl |
      apply Reach.ite | split | (dsimp +zetaDelta only))

theorem finishIn_reach {L a s x0 x1} (h_hif_regs : Piece.regs .hif ∈ L) (h_ras_regs : Piece.regs .ras ∈ L)
    (h_evr_regs : Piece.regs .evr ∈ L) (h_flights : Piece.flights ∈ L) (h_arrs : Piece.arrs ∈ L) (h_stks : Piece.stks ∈ L)
    (h_retrain : Piece.retrain ∈ L) (h_accs : Piece.accs ∈ L) (h_col : Piece.col ∈ L) (h_hif : Piece.hif ∈ L)
    (h_chans : Piece.chans ∈ L) (h_evr : Piece.evr ∈ L) (h_out : Piece.out ∈ L) (h_freeCtr : Piece.freeCtr ∈ L) (h : Reach L a s)
    : Reach L a (finishIn x0 x1 s) := by
  unfold finishIn
  with_reducible repeat'
    (first | assumption | intro _ | extract_lets | apply sendSeq_reach | apply rxDrop_reach | apply sendPlain_reach |
      apply inc_reach | apply endSession_reach | apply Reach.foldl | apply Reach.ite | split | apply Reach.hif |
      apply Reach.chans | (dsimp +zetaDelta only))

end Sys2Proof.Machine
end

