-- ==== Sys2Proof/Laws/ReachSecurity.lean ====
section
/-!
SUPPORT. What each operation of Machine/Security.lean can change.
-/
namespace Sys2Proof.Machine

set_option linter.unusedTactic false
set_option linter.unreachableTactic false
set_option linter.unusedSimpArgs false

theorem setSec_reach {L a s x0 x1} (h_secs : Piece.secs ∈ L) (h : Reach L a s) : Reach L a (setSec x0 x1 s) := by
  unfold setSec
  with_reducible repeat'
    (first | assumption | intro _ | extract_lets | apply Reach.foldl | apply Reach.ite | split | apply Reach.secs |
      (dsimp +zetaDelta only))

theorem zeroiseKeys_reach {L a s x0} (h_secs : Piece.secs ∈ L) (h : Reach L a s) : Reach L a (zeroiseKeys x0 s) := by
  unfold zeroiseKeys
  with_reducible repeat'
    (first | assumption | intro _ | extract_lets | apply setSec_reach | apply Reach.foldl | apply Reach.ite | split |
      (dsimp +zetaDelta only))

theorem openZeroise_reach {L a s} (h_sec : Piece.sec ∈ L) (h_secs : Piece.secs ∈ L) (h : Reach L a s) : Reach L a
    (openZeroise s) := by
  unfold openZeroise
  with_reducible repeat'
    (first | assumption | intro _ | extract_lets | apply zeroiseKeys_reach | apply Reach.foldl | apply Reach.ite | split |
      apply Reach.sec | (dsimp +zetaDelta only))

theorem signReport_reach {L a s x0} (h_sec_regs : Piece.regs .sec ∈ L) (h_ras_regs : Piece.regs .ras ∈ L)
    (h_evr_regs : Piece.regs .evr ∈ L) (h_sec : Piece.sec ∈ L) (h_evr : Piece.evr ∈ L) (h_freeCtr : Piece.freeCtr ∈ L)
    (h : Reach L a s) : ReachP L a (signReport x0 s) := by
  unfold signReport
  with_reducible repeat'
    (first | assumption | intro _ | extract_lets | (refine ReachP.ofPair (by assumption) ?_) | apply signBy_reach |
      apply ReachP.ite | apply ReachP.foldl | apply ReachP.out | apply Reach.foldl | apply Reach.ite | split | apply Reach.sec |
      (simp only [ReachP.pair_iff]) | (dsimp +zetaDelta only))

theorem secWrite_reach {L a s x0 x1 x2 x3} (h_yrd_regs : Piece.regs .yrd ∈ L) (h_mem_regs : Piece.regs .mem ∈ L)
    (h_lpd_regs : Piece.regs .lpd ∈ L) (h_mce_regs : Piece.regs .mce ∈ L) (h_sec_regs : Piece.regs .sec ∈ L)
    (h_ras_regs : Piece.regs .ras ∈ L) (h_evr_regs : Piece.regs .evr ∈ L) (h_mem : Piece.mem ∈ L) (h_yard : Piece.yard ∈ L)
    (h_accs : Piece.accs ∈ L) (h_nextTag : Piece.nextTag ∈ L) (h_ports : Piece.ports ∈ L) (h_mce : Piece.mce ∈ L)
    (h_evr : Piece.evr ∈ L) (h_freeCtr : Piece.freeCtr ∈ L) (h : Reach L a s) : ReachP L a (secWrite x0 x1 x2 x3 s) := by
  unfold secWrite
  with_reducible repeat'
    (first | assumption | intro _ | extract_lets | (refine ReachP.use (by assumption) ?_) | apply memWrite_reach |
      apply ReachP.ite | apply ReachP.foldl | apply ReachP.out | apply Reach.foldl | apply Reach.ite | split |
      (simp only [ReachP.pair_iff]) | (dsimp +zetaDelta only))

theorem attestP_reach {L a s x0 x1 x2} (h_yrd_regs : Piece.regs .yrd ∈ L) (h_mem_regs : Piece.regs .mem ∈ L)
    (h_lpd_regs : Piece.regs .lpd ∈ L) (h_mce_regs : Piece.regs .mce ∈ L) (h_sec_regs : Piece.regs .sec ∈ L)
    (h_ras_regs : Piece.regs .ras ∈ L) (h_evr_regs : Piece.regs .evr ∈ L) (h_mem : Piece.mem ∈ L) (h_yard : Piece.yard ∈ L)
    (h_accs : Piece.accs ∈ L) (h_nextTag : Piece.nextTag ∈ L) (h_ports : Piece.ports ∈ L) (h_sec : Piece.sec ∈ L)
    (h_mce : Piece.mce ∈ L) (h_evr : Piece.evr ∈ L) (h_freeCtr : Piece.freeCtr ∈ L) (h : Reach L a s) : ReachP L a
    (attestP x0 x1 x2 s) := by
  unfold attestP
  with_reducible repeat'
    (first | assumption | intro _ | extract_lets | (refine ReachP.use (by assumption) ?_) | apply signReport_reach |
      apply secWrite_reach | apply ReachP.ite | apply ReachP.foldl | apply ReachP.out | apply Reach.foldl | apply Reach.ite |
      split | (simp only [ReachP.pair_iff]) | (dsimp +zetaDelta only))

theorem sweepBlockOf_reach {L a s x0 x1} (h_yrd_regs : Piece.regs .yrd ∈ L) (h_mce_regs : Piece.regs .mce ∈ L)
    (h_sec_regs : Piece.regs .sec ∈ L) (h_ras_regs : Piece.regs .ras ∈ L) (h_evr_regs : Piece.regs .evr ∈ L)
    (h_yard : Piece.yard ∈ L) (h_mce : Piece.mce ∈ L) (h_evr : Piece.evr ∈ L) (h_freeCtr : Piece.freeCtr ∈ L) (h : Reach L a s) :
    Reach L a (sweepBlockOf x0 x1 s) := by
  unfold sweepBlockOf
  with_reducible repeat'
    (first | assumption | intro _ | extract_lets | apply freshen_reach | apply tagSet_reach | apply pageErr_reach |
      apply yardKillLine_reach | apply setErr_reach | apply st_reach | apply inc_reach | apply wh_reach | apply Reach.foldl |
      apply Reach.ite | split | (dsimp +zetaDelta only))

theorem newKeySet_reach {L a s} (h_sec_regs : Piece.regs .sec ∈ L) (h_ras_regs : Piece.regs .ras ∈ L)
    (h_evr_regs : Piece.regs .evr ∈ L) (h_sec : Piece.sec ∈ L) (h_evr : Piece.evr ∈ L) (h_freeCtr : Piece.freeCtr ∈ L)
    (h : Reach L a s) : Reach L a (newKeySet s).2 := by
  unfold newKeySet
  with_reducible repeat'
    (first | assumption | intro _ | extract_lets | (refine ReachP.ofPair (by assumption) ?_) | apply drbgTake_reach |
      apply ReachP.ite | apply ReachP.foldl | apply ReachP.out | apply Reach.foldl | apply Reach.ite | split |
      (simp only [ReachP.pair_iff]) | (dsimp +zetaDelta only))

theorem createKeys_reach {L a s x0} (h_sec_regs : Piece.regs .sec ∈ L) (h_ras_regs : Piece.regs .ras ∈ L)
    (h_evr_regs : Piece.regs .evr ∈ L) (h_sec : Piece.sec ∈ L) (h_secs : Piece.secs ∈ L) (h_evr : Piece.evr ∈ L)
    (h_freeCtr : Piece.freeCtr ∈ L) (h : Reach L a s) : Reach L a (createKeys x0 s) := by
  unfold createKeys
  with_reducible repeat'
    (first | assumption | intro _ | extract_lets | (refine ReachP.ofPair (by assumption) ?_) | apply newKeySet_reach |
      apply drbgKey_reach | apply setSec_reach | apply ReachP.ite | apply ReachP.foldl | apply ReachP.out | apply Reach.foldl |
      apply Reach.ite | split | (simp only [ReachP.pair_iff]) | (dsimp +zetaDelta only))

theorem secResult_reach {L a s x0 x1} (h_sec_regs : Piece.regs .sec ∈ L) (h : Reach L a s) : Reach L a (secResult x0 x1 s) :=
    by
  unfold secResult
  with_reducible repeat'
    (first | assumption | intro _ | extract_lets | apply st_reach | apply Reach.foldl | apply Reach.ite | split |
      (dsimp +zetaDelta only))

theorem sweepStep_reach {L a s x0 x1} (h_yrd_regs : Piece.regs .yrd ∈ L) (h_mce_regs : Piece.regs .mce ∈ L)
    (h_sec_regs : Piece.regs .sec ∈ L) (h_ras_regs : Piece.regs .ras ∈ L) (h_evr_regs : Piece.regs .evr ∈ L)
    (h_yard : Piece.yard ∈ L) (h_secs : Piece.secs ∈ L) (h_mce : Piece.mce ∈ L) (h_evr : Piece.evr ∈ L)
    (h_freeCtr : Piece.freeCtr ∈ L) (h : Reach L a s) : Reach L a (sweepStep x0 x1 s) := by
  unfold sweepStep
  with_reducible repeat'
    (first | assumption | intro _ | extract_lets | apply sweepBlockOf_reach | apply setSec_reach | apply ReachP.ite |
      apply ReachP.foldl | apply ReachP.out | apply Reach.foldl | apply Reach.ite | split | (simp only [ReachP.pair_iff]) |
      (dsimp +zetaDelta only))

theorem attestD_reach {L a s x0} (h_yrd_regs : Piece.regs .yrd ∈ L) (h_mem_regs : Piece.regs .mem ∈ L)
    (h_lpd_regs : Piece.regs .lpd ∈ L) (h_mce_regs : Piece.regs .mce ∈ L) (h_sec_regs : Piece.regs .sec ∈ L)
    (h_ras_regs : Piece.regs .ras ∈ L) (h_evr_regs : Piece.regs .evr ∈ L) (h_mem : Piece.mem ∈ L) (h_yard : Piece.yard ∈ L)
    (h_accs : Piece.accs ∈ L) (h_nextTag : Piece.nextTag ∈ L) (h_ports : Piece.ports ∈ L) (h_sec : Piece.sec ∈ L)
    (h_mce : Piece.mce ∈ L) (h_evr : Piece.evr ∈ L) (h_freeCtr : Piece.freeCtr ∈ L) (h : Reach L a s) : ReachP L a (attestD x0 s)
    := by
  unfold attestD
  with_reducible repeat'
    (first | assumption | intro _ | extract_lets | (refine ReachP.use (by assumption) ?_) | apply signReport_reach |
      apply secWrite_reach | apply ReachP.ite | apply ReachP.foldl | apply ReachP.out | apply Reach.foldl | apply Reach.ite |
      split | (simp only [ReachP.pair_iff]) | (dsimp +zetaDelta only))

theorem measAdd_reach {L a s x0 x1} (h_secs : Piece.secs ∈ L) (h : Reach L a s) : Reach L a (measAdd x0 x1 s) := by
  unfold measAdd
  with_reducible repeat'
    (first | assumption | intro _ | extract_lets | apply setSec_reach | apply Reach.foldl | apply Reach.ite | split |
      (dsimp +zetaDelta only))

theorem bindBody_reach {L a s x0 x1 x2} (h_yrd_regs : Piece.regs .yrd ∈ L) (h_mem_regs : Piece.regs .mem ∈ L)
    (h_lpd_regs : Piece.regs .lpd ∈ L) (h_mce_regs : Piece.regs .mce ∈ L) (h_sec_regs : Piece.regs .sec ∈ L)
    (h_ras_regs : Piece.regs .ras ∈ L) (h_evr_regs : Piece.regs .evr ∈ L) (h_mem : Piece.mem ∈ L) (h_yard : Piece.yard ∈ L)
    (h_accs : Piece.accs ∈ L) (h_nextTag : Piece.nextTag ∈ L) (h_ports : Piece.ports ∈ L) (h_secs : Piece.secs ∈ L)
    (h_mce : Piece.mce ∈ L) (h_evr : Piece.evr ∈ L) (h_freeCtr : Piece.freeCtr ∈ L) (h : Reach L a s) : ReachP L a
    (bindBody x0 x1 x2 s) := by
  unfold bindBody
  with_reducible repeat'
    (first | assumption | intro _ | extract_lets | (refine ReachP.use (by assumption) ?_) | apply memWrite_reach |
      apply measAdd_reach | apply tickFree_reach | apply ReachP.ite | apply ReachP.foldl | apply ReachP.out |
      apply Reach.foldl | apply Reach.ite | split | (simp only [ReachP.pair_iff]) | (dsimp +zetaDelta only))

theorem secRead_reach {L a s x0 x1 x2 x3} (h_yrd_regs : Piece.regs .yrd ∈ L) (h_mem_regs : Piece.regs .mem ∈ L)
    (h_lpd_regs : Piece.regs .lpd ∈ L) (h_mce_regs : Piece.regs .mce ∈ L) (h_sec_regs : Piece.regs .sec ∈ L)
    (h_ras_regs : Piece.regs .ras ∈ L) (h_evr_regs : Piece.regs .evr ∈ L) (h_yard : Piece.yard ∈ L)
    (h_retrain : Piece.retrain ∈ L) (h_accs : Piece.accs ∈ L) (h_nextTag : Piece.nextTag ∈ L) (h_ports : Piece.ports ∈ L)
    (h_evr : Piece.evr ∈ L) (h_freeCtr : Piece.freeCtr ∈ L) (hf : ∀ t, Reach L a t → ReachP L a (x3 t)) (h : Reach L a s) : ReachP
    L a (secRead x0 x1 x2 x3 s) := by
  unfold secRead
  with_reducible repeat'
    (first | assumption | intro _ | extract_lets | (refine ReachP.use (by assumption) ?_) | apply readAll_reach |
      apply noteHeld_reach | apply ReachP.ite | apply ReachP.foldl | apply ReachP.out | apply Reach.foldl | apply Reach.ite |
      split | apply hf | (simp only [ReachP.pair_iff]) | (dsimp +zetaDelta only))

theorem bindBundle_reach {L a s x0 x1 x2} (h_yrd_regs : Piece.regs .yrd ∈ L) (h_mem_regs : Piece.regs .mem ∈ L)
    (h_lpd_regs : Piece.regs .lpd ∈ L) (h_mce_regs : Piece.regs .mce ∈ L) (h_sec_regs : Piece.regs .sec ∈ L)
    (h_ras_regs : Piece.regs .ras ∈ L) (h_evr_regs : Piece.regs .evr ∈ L) (h_mem : Piece.mem ∈ L) (h_yard : Piece.yard ∈ L)
    (h_retrain : Piece.retrain ∈ L) (h_accs : Piece.accs ∈ L) (h_nextTag : Piece.nextTag ∈ L) (h_ports : Piece.ports ∈ L)
    (h_secs : Piece.secs ∈ L) (h_mce : Piece.mce ∈ L) (h_evr : Piece.evr ∈ L) (h_freeCtr : Piece.freeCtr ∈ L) (h : Reach L a s) :
    ReachP L a (bindBundle x0 x1 x2 s) := by
  unfold bindBundle
  with_reducible repeat'
    (first | assumption | intro _ | extract_lets | (refine ReachP.use (by assumption) ?_) | apply bindBody_reach |
      apply secRead_reach | apply ReachP.ite | apply ReachP.foldl | apply ReachP.out | apply Reach.foldl | apply Reach.ite |
      split | (simp only [ReachP.pair_iff]) | (dsimp +zetaDelta only))

theorem jobkeyClear_reach {L a s x0 x1} (h_secs : Piece.secs ∈ L) (h : Reach L a s) : ReachP L a (jobkeyClear x0 x1 s) := by
  unfold jobkeyClear
  with_reducible repeat'
    (first | assumption | intro _ | extract_lets | apply setJobSlot_reach | apply ReachP.ite | apply ReachP.foldl |
      apply ReachP.out | apply Reach.foldl | apply Reach.ite | split | (simp only [ReachP.pair_iff]) | (dsimp +zetaDelta only))

theorem measureRange_reach {L a s x0 x1 x2} (h_yrd_regs : Piece.regs .yrd ∈ L) (h_mem_regs : Piece.regs .mem ∈ L)
    (h_lpd_regs : Piece.regs .lpd ∈ L) (h_mce_regs : Piece.regs .mce ∈ L) (h_sec_regs : Piece.regs .sec ∈ L)
    (h_ras_regs : Piece.regs .ras ∈ L) (h_evr_regs : Piece.regs .evr ∈ L) (h_yard : Piece.yard ∈ L)
    (h_retrain : Piece.retrain ∈ L) (h_accs : Piece.accs ∈ L) (h_nextTag : Piece.nextTag ∈ L) (h_ports : Piece.ports ∈ L)
    (h_secs : Piece.secs ∈ L) (h_evr : Piece.evr ∈ L) (h_freeCtr : Piece.freeCtr ∈ L) (h : Reach L a s) : ReachP L a
    (measureRange x0 x1 x2 s) := by
  unfold measureRange
  with_reducible repeat'
    (first | assumption | intro _ | extract_lets | (refine ReachP.use (by assumption) ?_) | apply measAdd_reach |
      apply secRead_reach | apply ReachP.ite | apply ReachP.foldl | apply ReachP.out | apply Reach.foldl | apply Reach.ite |
      split | (simp only [ReachP.pair_iff]) | (dsimp +zetaDelta only))

theorem jobkeyLoad_reach {L a s x0 x1 x2} (h_yrd_regs : Piece.regs .yrd ∈ L) (h_mem_regs : Piece.regs .mem ∈ L)
    (h_lpd_regs : Piece.regs .lpd ∈ L) (h_mce_regs : Piece.regs .mce ∈ L) (h_sec_regs : Piece.regs .sec ∈ L)
    (h_ras_regs : Piece.regs .ras ∈ L) (h_evr_regs : Piece.regs .evr ∈ L) (h_yard : Piece.yard ∈ L)
    (h_retrain : Piece.retrain ∈ L) (h_accs : Piece.accs ∈ L) (h_nextTag : Piece.nextTag ∈ L) (h_ports : Piece.ports ∈ L)
    (h_secs : Piece.secs ∈ L) (h_evr : Piece.evr ∈ L) (h_freeCtr : Piece.freeCtr ∈ L) (h : Reach L a s) : ReachP L a
    (jobkeyLoad x0 x1 x2 s) := by
  unfold jobkeyLoad
  with_reducible repeat'
    (first | assumption | intro _ | extract_lets | (refine ReachP.use (by assumption) ?_) | apply secRead_reach |
      apply setJobSlot_reach | apply ReachP.ite | apply ReachP.foldl | apply ReachP.out | apply Reach.foldl | apply Reach.ite |
      split | (simp only [ReachP.pair_iff]) | (dsimp +zetaDelta only))

theorem secBlockOp_reach {L a s x0 x1} (h_yrd_regs : Piece.regs .yrd ∈ L) (h_mem_regs : Piece.regs .mem ∈ L)
    (h_lpd_regs : Piece.regs .lpd ∈ L) (h_mce_regs : Piece.regs .mce ∈ L) (h_sec_regs : Piece.regs .sec ∈ L)
    (h_ras_regs : Piece.regs .ras ∈ L) (h_evr_regs : Piece.regs .evr ∈ L) (h_mem : Piece.mem ∈ L) (h_yard : Piece.yard ∈ L)
    (h_retrain : Piece.retrain ∈ L) (h_accs : Piece.accs ∈ L) (h_nextTag : Piece.nextTag ∈ L) (h_ports : Piece.ports ∈ L)
    (h_sec : Piece.sec ∈ L) (h_secs : Piece.secs ∈ L) (h_mce : Piece.mce ∈ L) (h_evr : Piece.evr ∈ L)
    (h_freeCtr : Piece.freeCtr ∈ L) (h : Reach L a s) : ReachP L a (secBlockOp x0 x1 s) := by
  unfold secBlockOp
  with_reducible repeat'
    (first | assumption | intro _ | extract_lets | (refine ReachP.use (by assumption) ?_) | apply bindBundle_reach |
      apply attestP_reach | apply jobkeyClear_reach | apply measureRange_reach | apply secRead_reach | apply jobkeyLoad_reach |
      apply ReachP.ite | apply ReachP.foldl | apply ReachP.out | apply Reach.foldl | apply Reach.ite | split |
      (simp only [ReachP.pair_iff]) | (dsimp +zetaDelta only))

theorem rotate_reach {L a s x0} (h_sec_regs : Piece.regs .sec ∈ L) (h_ras_regs : Piece.regs .ras ∈ L)
    (h_evr_regs : Piece.regs .evr ∈ L) (h_sec : Piece.sec ∈ L) (h_secs : Piece.secs ∈ L) (h_evr : Piece.evr ∈ L)
    (h_freeCtr : Piece.freeCtr ∈ L) (h : Reach L a s) : ReachP L a (rotate x0 s) := by
  unfold rotate
  with_reducible repeat'
    (first | assumption | intro _ | extract_lets | (refine ReachP.ofPair (by assumption) ?_) | apply newKeySet_reach |
      apply inc_reach | apply setSec_reach | apply ReachP.ite | apply ReachP.foldl | apply ReachP.out | apply Reach.foldl |
      apply Reach.ite | split | (simp only [ReachP.pair_iff]) | (dsimp +zetaDelta only))

theorem secWork_reach {L a s x0} (h_yrd_regs : Piece.regs .yrd ∈ L) (h_mem_regs : Piece.regs .mem ∈ L)
    (h_lpd_regs : Piece.regs .lpd ∈ L) (h_mce_regs : Piece.regs .mce ∈ L) (h_sec_regs : Piece.regs .sec ∈ L)
    (h_ras_regs : Piece.regs .ras ∈ L) (h_evr_regs : Piece.regs .evr ∈ L) (h_mem : Piece.mem ∈ L) (h_yard : Piece.yard ∈ L)
    (h_retrain : Piece.retrain ∈ L) (h_accs : Piece.accs ∈ L) (h_nextTag : Piece.nextTag ∈ L) (h_ports : Piece.ports ∈ L)
    (h_sec : Piece.sec ∈ L) (h_secs : Piece.secs ∈ L) (h_mce : Piece.mce ∈ L) (h_evr : Piece.evr ∈ L)
    (h_freeCtr : Piece.freeCtr ∈ L) (h : Reach L a s) : ReachP L a (secWork x0 s) := by
  unfold secWork
  with_reducible repeat'
    (first | assumption | intro _ | extract_lets | (refine ReachP.use (by assumption) ?_) | apply attestD_reach |
      apply secBlockOp_reach | apply rotate_reach | apply ReachP.ite | apply ReachP.foldl | apply ReachP.out |
      apply Reach.foldl | apply Reach.ite | split | (simp only [ReachP.pair_iff]) | (dsimp +zetaDelta only))

theorem secGo_reach {L a s x0} (h_yrd_regs : Piece.regs .yrd ∈ L) (h_mem_regs : Piece.regs .mem ∈ L)
    (h_lpd_regs : Piece.regs .lpd ∈ L) (h_mce_regs : Piece.regs .mce ∈ L) (h_sec_regs : Piece.regs .sec ∈ L)
    (h_ras_regs : Piece.regs .ras ∈ L) (h_evr_regs : Piece.regs .evr ∈ L) (h_mem : Piece.mem ∈ L) (h_yard : Piece.yard ∈ L)
    (h_retrain : Piece.retrain ∈ L) (h_accs : Piece.accs ∈ L) (h_nextTag : Piece.nextTag ∈ L) (h_ports : Piece.ports ∈ L)
    (h_sec : Piece.sec ∈ L) (h_secs : Piece.secs ∈ L) (h_secJobs : Piece.secJobs ∈ L) (h_lostFids : Piece.lostFids ∈ L)
    (h_mce : Piece.mce ∈ L) (h_evr : Piece.evr ∈ L) (h_freeCtr : Piece.freeCtr ∈ L) (h : Reach L a s) : Reach L a (secGo x0 s) :=
    by
  unfold secGo
  with_reducible repeat'
    (first | assumption | intro _ | extract_lets | (refine ReachP.use (by assumption) ?_) | apply secWork_reach |
      apply proceed_reach | apply secResult_reach | apply ReachP.ite | apply ReachP.foldl | apply ReachP.out |
      apply Reach.foldl | apply Reach.ite | split | apply Reach.accs_lostFids | apply Reach.accs | apply Reach.secJobs |
      apply Reach.lostFids | (simp only [ReachP.pair_iff]) | (dsimp +zetaDelta only))

theorem sweepDone_reach {L a s x0} (h_secs : Piece.secs ∈ L) (h : Reach L a s) : Reach L a (sweepDone x0 s) := by
  unfold sweepDone
  with_reducible repeat'
    (first | assumption | intro _ | extract_lets | apply setSec_reach | apply Reach.foldl | apply Reach.ite | split |
      (dsimp +zetaDelta only))

theorem secCommand_reach {L a s x0 x1} (h_yrd_regs : Piece.regs .yrd ∈ L) (h_mem_regs : Piece.regs .mem ∈ L)
    (h_lpd_regs : Piece.regs .lpd ∈ L) (h_mce_regs : Piece.regs .mce ∈ L) (h_sec_regs : Piece.regs .sec ∈ L)
    (h_ras_regs : Piece.regs .ras ∈ L) (h_evr_regs : Piece.regs .evr ∈ L) (h_mem : Piece.mem ∈ L) (h_nextFid : Piece.nextFid ∈ L)
    (h_yard : Piece.yard ∈ L) (h_retrain : Piece.retrain ∈ L) (h_accs : Piece.accs ∈ L) (h_nextTag : Piece.nextTag ∈ L)
    (h_ports : Piece.ports ∈ L) (h_sec : Piece.sec ∈ L) (h_secs : Piece.secs ∈ L) (h_secJobs : Piece.secJobs ∈ L)
    (h_lostFids : Piece.lostFids ∈ L) (h_mce : Piece.mce ∈ L) (h_evr : Piece.evr ∈ L) (h_freeCtr : Piece.freeCtr ∈ L)
    (h : Reach L a s) : Reach L a (secCommand x0 x1 s) := by
  unfold secCommand
  with_reducible repeat'
    (first | assumption | intro _ | extract_lets | apply st_reach | apply secGo_reach | apply Reach.foldl | apply Reach.ite |
      split | apply Reach.nextFid | (exact Nat.le_succ _) | (exact inOrder_le) | (dsimp +zetaDelta only))

theorem secRow_reach {L a s x0 x1} (h_yrd_regs : Piece.regs .yrd ∈ L) (h_mem_regs : Piece.regs .mem ∈ L)
    (h_lpd_regs : Piece.regs .lpd ∈ L) (h_mce_regs : Piece.regs .mce ∈ L) (h_sec_regs : Piece.regs .sec ∈ L)
    (h_ras_regs : Piece.regs .ras ∈ L) (h_evr_regs : Piece.regs .evr ∈ L) (h_bus : Piece.bus ∈ L) (h_mem : Piece.mem ∈ L)
    (h_nextFid : Piece.nextFid ∈ L) (h_yard : Piece.yard ∈ L) (h_retrain : Piece.retrain ∈ L) (h_accs : Piece.accs ∈ L)
    (h_nextTag : Piece.nextTag ∈ L) (h_ports : Piece.ports ∈ L) (h_sec : Piece.sec ∈ L) (h_secs : Piece.secs ∈ L)
    (h_secJobs : Piece.secJobs ∈ L) (h_lostFids : Piece.lostFids ∈ L) (h_mce : Piece.mce ∈ L) (h_evr : Piece.evr ∈ L)
    (h_freeCtr : Piece.freeCtr ∈ L) (h : Reach L a s) : Reach L a (secRow x0 x1 s) := by
  unfold secRow
  with_reducible repeat'
    (first | assumption | intro _ | extract_lets | apply secCommand_reach | apply Reach.foldl | apply Reach.ite | split |
      apply Reach.bus | (dsimp +zetaDelta only))

theorem secRetry_reach {L a s} (h_yrd_regs : Piece.regs .yrd ∈ L) (h_mem_regs : Piece.regs .mem ∈ L)
    (h_lpd_regs : Piece.regs .lpd ∈ L) (h_mce_regs : Piece.regs .mce ∈ L) (h_sec_regs : Piece.regs .sec ∈ L)
    (h_ras_regs : Piece.regs .ras ∈ L) (h_evr_regs : Piece.regs .evr ∈ L) (h_mem : Piece.mem ∈ L) (h_yard : Piece.yard ∈ L)
    (h_retrain : Piece.retrain ∈ L) (h_accs : Piece.accs ∈ L) (h_nextTag : Piece.nextTag ∈ L) (h_ports : Piece.ports ∈ L)
    (h_sec : Piece.sec ∈ L) (h_secs : Piece.secs ∈ L) (h_secJobs : Piece.secJobs ∈ L) (h_lostFids : Piece.lostFids ∈ L)
    (h_mce : Piece.mce ∈ L) (h_evr : Piece.evr ∈ L) (h_freeCtr : Piece.freeCtr ∈ L) (h : Reach L a s) : Reach L a (secRetry s) :=
    by
  unfold secRetry
  with_reducible repeat'
    (first | assumption | intro _ | extract_lets | apply secGo_reach | apply Reach.foldl | apply Reach.ite | split |
      (dsimp +zetaDelta only))

theorem debugOpening_reach {L a s x0} (h_hif_regs : Piece.regs .hif ∈ L) (h_yrd_regs : Piece.regs .yrd ∈ L)
    (h_mem_regs : Piece.regs .mem ∈ L) (h_lpd_regs : Piece.regs .lpd ∈ L) (h_mce_regs : Piece.regs .mce ∈ L)
    (h_fab_regs : Piece.regs .fab ∈ L) (h_sec_regs : Piece.regs .sec ∈ L) (h_ras_regs : Piece.regs .ras ∈ L)
    (h_evr_regs : Piece.regs .evr ∈ L) (h_mem : Piece.mem ∈ L) (h_flights : Piece.flights ∈ L) (h_arrs : Piece.arrs ∈ L)
    (h_stks : Piece.stks ∈ L) (h_yard : Piece.yard ∈ L) (h_retrain : Piece.retrain ∈ L) (h_accs : Piece.accs ∈ L)
    (h_nextTag : Piece.nextTag ∈ L) (h_col : Piece.col ∈ L) (h_ports : Piece.ports ∈ L) (h_hif : Piece.hif ∈ L)
    (h_chans : Piece.chans ∈ L) (h_sec : Piece.sec ∈ L) (h_secs : Piece.secs ∈ L) (h_secJobs : Piece.secJobs ∈ L)
    (h_lostFids : Piece.lostFids ∈ L) (h_mce : Piece.mce ∈ L) (h_evr : Piece.evr ∈ L) (h_freeCtr : Piece.freeCtr ∈ L)
    (h : Reach L a s) : Reach L a (debugOpening x0 s) := by
  unfold debugOpening
  with_reducible repeat'
    (first | assumption | intro _ | extract_lets | apply secRetry_reach | apply seedDrbg_reach | apply openZeroise_reach |
      apply endSession_reach | apply forcedRetrain_reach | apply Reach.foldl | apply Reach.ite | split | apply Reach.sec |
      (dsimp +zetaDelta only))

theorem jtagUpdate_reach {L a s x0 x1} (h_hif_regs : Piece.regs .hif ∈ L) (h_yrd_regs : Piece.regs .yrd ∈ L)
    (h_mem_regs : Piece.regs .mem ∈ L) (h_lpd_regs : Piece.regs .lpd ∈ L) (h_mce_regs : Piece.regs .mce ∈ L)
    (h_fab_regs : Piece.regs .fab ∈ L) (h_sec_regs : Piece.regs .sec ∈ L) (h_ras_regs : Piece.regs .ras ∈ L)
    (h_evr_regs : Piece.regs .evr ∈ L) (h_mem : Piece.mem ∈ L) (h_flights : Piece.flights ∈ L) (h_arrs : Piece.arrs ∈ L)
    (h_stks : Piece.stks ∈ L) (h_yard : Piece.yard ∈ L) (h_retrain : Piece.retrain ∈ L) (h_accs : Piece.accs ∈ L)
    (h_nextTag : Piece.nextTag ∈ L) (h_col : Piece.col ∈ L) (h_ports : Piece.ports ∈ L) (h_hif : Piece.hif ∈ L)
    (h_chans : Piece.chans ∈ L) (h_sec : Piece.sec ∈ L) (h_secs : Piece.secs ∈ L) (h_secJobs : Piece.secJobs ∈ L)
    (h_lostFids : Piece.lostFids ∈ L) (h_mce : Piece.mce ∈ L) (h_evr : Piece.evr ∈ L) (h_freeCtr : Piece.freeCtr ∈ L)
    (h : Reach L a s) : Reach L a (jtagUpdate x0 x1 s) := by
  unfold jtagUpdate
  with_reducible repeat'
    (first | assumption | intro _ | extract_lets | apply debugOpening_reach | apply Reach.foldl | apply Reach.ite | split |
      apply Reach.sec | (dsimp +zetaDelta only))

theorem sweepDrop_reach {L a s x0 x1} (h_secs : Piece.secs ∈ L) (h : Reach L a s) : Reach L a (sweepDrop x0 x1 s) := by
  unfold sweepDrop
  with_reducible repeat'
    (first | assumption | intro _ | extract_lets | apply setSec_reach | apply ReachP.ite | apply ReachP.foldl |
      apply ReachP.out | apply Reach.foldl | apply Reach.ite | split | (simp only [ReachP.pair_iff]) | (dsimp +zetaDelta only))

end Sys2Proof.Machine
end

