-- ==== Sys2Proof/Laws/ReachPartition.lean ====
section
/-!
SUPPORT. What each operation of Machine/Partition.lean can change.
-/
namespace Sys2Proof.Machine

set_option linter.unusedTactic false
set_option linter.unreachableTactic false
set_option linter.unusedSimpArgs false

theorem saveStream_reach {L a s x0 x1} (h_yrd_regs : Piece.regs .yrd ∈ L) (h_mem_regs : Piece.regs .mem ∈ L)
    (h_lpd_regs : Piece.regs .lpd ∈ L) (h_mce_regs : Piece.regs .mce ∈ L) (h_scn_regs : Piece.regs .scn ∈ L)
    (h_sec_regs : Piece.regs .sec ∈ L) (h_ras_regs : Piece.regs .ras ∈ L) (h_evr_regs : Piece.regs .evr ∈ L)
    (h_mem : Piece.mem ∈ L) (h_stks : Piece.stks ∈ L) (h_yard : Piece.yard ∈ L) (h_accs : Piece.accs ∈ L)
    (h_nextTag : Piece.nextTag ∈ L) (h_scn : Piece.scn ∈ L) (h_ports : Piece.ports ∈ L) (h_mce : Piece.mce ∈ L)
    (h_evr : Piece.evr ∈ L) (h_freeCtr : Piece.freeCtr ∈ L) (h : Reach L a s) : Reach L a (saveStream x0 x1 s) := by
  unfold saveStream
  with_reducible repeat'
    (first | assumption | intro _ | extract_lets | (refine ReachP.use (by assumption) ?_) | apply scStore_reach |
      apply scPut_reach | apply stopped_reach | apply swapOutEnd_reach | apply ReachP.ite | apply ReachP.foldl |
      apply ReachP.out | apply Reach.foldl | apply Reach.ite | split | (simp only [ReachP.pair_iff]) | (dsimp +zetaDelta only))

theorem saveStreams_reach {L a s x0} (h_yrd_regs : Piece.regs .yrd ∈ L) (h_mem_regs : Piece.regs .mem ∈ L)
    (h_lpd_regs : Piece.regs .lpd ∈ L) (h_mce_regs : Piece.regs .mce ∈ L) (h_scn_regs : Piece.regs .scn ∈ L)
    (h_sec_regs : Piece.regs .sec ∈ L) (h_ras_regs : Piece.regs .ras ∈ L) (h_evr_regs : Piece.regs .evr ∈ L)
    (h_mem : Piece.mem ∈ L) (h_stks : Piece.stks ∈ L) (h_yard : Piece.yard ∈ L) (h_accs : Piece.accs ∈ L)
    (h_nextTag : Piece.nextTag ∈ L) (h_scn : Piece.scn ∈ L) (h_ports : Piece.ports ∈ L) (h_mce : Piece.mce ∈ L)
    (h_evr : Piece.evr ∈ L) (h_freeCtr : Piece.freeCtr ∈ L) (h : Reach L a s) : Reach L a (saveStreams x0 s) := by
  unfold saveStreams
  with_reducible repeat'
    (first | assumption | intro _ | extract_lets | apply saveStream_reach | apply setSc_reach | apply Reach.foldl |
      apply Reach.ite | split | (dsimp +zetaDelta only))

theorem setWay_reach {L a s x0 x1 x2} (h_yrd_regs : Piece.regs .yrd ∈ L) (h_staged : Piece.staged ∈ L) (h_mem : Piece.mem ∈ L)
    (h_yard : Piece.yard ∈ L) (h : Reach L a s) : Reach L a (setWay x0 x1 x2 s) := by
  unfold setWay
  with_reducible repeat'
    (first | assumption | intro _ | extract_lets | apply clearWay_reach | apply stRws_reach | apply Reach.foldl |
      apply Reach.ite | split | (dsimp +zetaDelta only))

theorem freeWays_reach {L a s x0} (h_yrd_regs : Piece.regs .yrd ∈ L) (h_staged : Piece.staged ∈ L) (h_mem : Piece.mem ∈ L)
    (h_yard : Piece.yard ∈ L) (h : Reach L a s) : Reach L a (freeWays x0 s) := by
  unfold freeWays
  with_reducible repeat'
    (first | assumption | intro _ | extract_lets | apply setWay_reach | apply wh_reach | apply Reach.foldl | apply Reach.ite |
      split | (dsimp +zetaDelta only))

theorem switchCopy_reach {L a s x0 x1} (h_yrd_regs : Piece.regs .yrd ∈ L) (h_mem_regs : Piece.regs .mem ∈ L)
    (h_lpd_regs : Piece.regs .lpd ∈ L) (h_mce_regs : Piece.regs .mce ∈ L) (h_sec_regs : Piece.regs .sec ∈ L)
    (h_ras_regs : Piece.regs .ras ∈ L) (h_evr_regs : Piece.regs .evr ∈ L) (h_mem : Piece.mem ∈ L) (h_yard : Piece.yard ∈ L)
    (h_accs : Piece.accs ∈ L) (h_nextTag : Piece.nextTag ∈ L) (h_ports : Piece.ports ∈ L) (h_mce : Piece.mce ∈ L)
    (h_evr : Piece.evr ∈ L) (h_freeCtr : Piece.freeCtr ∈ L) (h : Reach L a s) : ReachP L a (switchCopy x0 x1 s) := by
  unfold switchCopy
  with_reducible repeat'
    (first | assumption | intro _ | extract_lets | (refine ReachP.use (by assumption) ?_) | apply copyMem_reach |
      apply stopped_reach | apply ReachP.ite | apply ReachP.foldl | apply ReachP.out | apply Reach.foldl | apply Reach.ite |
      split | (simp only [ReachP.pair_iff]) | (dsimp +zetaDelta only))

theorem setPart_reach {L a s x0 x1} (h_parts : Piece.parts ∈ L) (h : Reach L a s) : Reach L a (setPart x0 x1 s) := by
  unfold setPart
  with_reducible repeat'
    (first | assumption | intro _ | extract_lets | apply Reach.foldl | apply Reach.ite | split | apply Reach.parts |
      apply tabWf_tabSet | apply tabWf_putBytes | apply tabWf_filter | (dsimp +zetaDelta only))

theorem prtResult_reach {L a s x0 x1} (h_prt_regs : Piece.regs .prt ∈ L) (h : Reach L a s) : Reach L a (prtResult x0 x1 s) :=
    by
  unfold prtResult
  with_reducible repeat'
    (first | assumption | intro _ | extract_lets | apply st_reach | apply Reach.foldl | apply Reach.ite | split |
      (dsimp +zetaDelta only))

theorem saveComplete_reach {L a s x0 x1} (h_prt_regs : Piece.regs .prt ∈ L) (h_yrd_regs : Piece.regs .yrd ∈ L)
    (h_mem_regs : Piece.regs .mem ∈ L) (h_lpd_regs : Piece.regs .lpd ∈ L) (h_mce_regs : Piece.regs .mce ∈ L)
    (h_scn_regs : Piece.regs .scn ∈ L) (h_sec_regs : Piece.regs .sec ∈ L) (h_ras_regs : Piece.regs .ras ∈ L)
    (h_evr_regs : Piece.regs .evr ∈ L) (h_staged : Piece.staged ∈ L) (h_mem : Piece.mem ∈ L) (h_stks : Piece.stks ∈ L)
    (h_yard : Piece.yard ∈ L) (h_accs : Piece.accs ∈ L) (h_nextTag : Piece.nextTag ∈ L) (h_parts : Piece.parts ∈ L)
    (h_scn : Piece.scn ∈ L) (h_ports : Piece.ports ∈ L) (h_mce : Piece.mce ∈ L) (h_evr : Piece.evr ∈ L)
    (h_freeCtr : Piece.freeCtr ∈ L) (h : Reach L a s) : Reach L a (saveComplete x0 x1 s) := by
  unfold saveComplete
  with_reducible repeat'
    (first | assumption | intro _ | extract_lets | (refine ReachP.use (by assumption) ?_) | apply freeWays_reach |
      apply switchCopy_reach | apply st_reach | apply setPart_reach | apply stRws_reach | apply inc_reach |
      apply prtResult_reach | apply saveStreams_reach | apply ReachP.ite | apply ReachP.foldl | apply ReachP.out |
      apply Reach.foldl | apply Reach.ite | split | (simp only [ReachP.pair_iff]) | (dsimp +zetaDelta only))

theorem extSettle_reach {L a s} (h_prt_regs : Piece.regs .prt ∈ L) (h : Reach L a s) : Reach L a (extSettle s) := by
  unfold extSettle
  with_reducible repeat'
    (first | assumption | intro _ | extract_lets | apply st_reach | apply ReachP.ite | apply ReachP.foldl | apply ReachP.out |
      apply Reach.foldl | apply Reach.ite | split | (simp only [ReachP.pair_iff]) | (dsimp +zetaDelta only))

theorem extentZeroed_reach {L a s x0} (h_prt_regs : Piece.regs .prt ∈ L) (h_yrd_regs : Piece.regs .yrd ∈ L)
    (h_mem : Piece.mem ∈ L) (h_yard : Piece.yard ∈ L) (h_exts : Piece.exts ∈ L) (h_mce : Piece.mce ∈ L) (h : Reach L a s) : Reach
    L a (extentZeroed x0 s) := by
  unfold extentZeroed
  with_reducible repeat'
    (first | assumption | intro _ | extract_lets | apply extSettle_reach | apply zeroExtent_reach | apply setExt_reach |
      apply Reach.foldl | apply Reach.ite | split | (dsimp +zetaDelta only))

theorem preemptScan_reach {L a s x0} (h_flights : Piece.flights ∈ L) (h : Reach L a s) : Reach L a (preemptScan x0 s) := by
  refine updFlight_reach h_flights (fun f => ?_) h
  split
  · exact ⟨fun _ => nofun, fun h => h⟩
  · exact ⟨fun h => h, fun h => h⟩

theorem swapFinished_reach {L a s x0 x1} (h_arrs : Piece.arrs ∈ L) (h : Reach L a s) : Reach L a (swapFinished x0 x1 s) := by
  unfold swapFinished
  with_reducible repeat'
    (first | assumption | intro _ | extract_lets | apply setArr_reach | apply Reach.foldl | apply Reach.ite | split |
      (dsimp +zetaDelta only))

theorem flushStaging_reach {L a s x0} (h_yrd_regs : Piece.regs .yrd ∈ L) (h_mem_regs : Piece.regs .mem ∈ L)
    (h_lpd_regs : Piece.regs .lpd ∈ L) (h_mce_regs : Piece.regs .mce ∈ L) (h_sec_regs : Piece.regs .sec ∈ L)
    (h_ras_regs : Piece.regs .ras ∈ L) (h_evr_regs : Piece.regs .evr ∈ L) (h_mem : Piece.mem ∈ L) (h_flights : Piece.flights ∈ L)
    (h_arrs : Piece.arrs ∈ L) (h_yard : Piece.yard ∈ L) (h_accs : Piece.accs ∈ L) (h_nextTag : Piece.nextTag ∈ L)
    (h_ports : Piece.ports ∈ L) (h_mce : Piece.mce ∈ L) (h_evr : Piece.evr ∈ L) (h_freeCtr : Piece.freeCtr ∈ L) (h : Reach L a s)
    : Reach L a (flushStaging x0 s) := by
  unfold flushStaging
  with_reducible repeat'
    (first | assumption | intro _ | extract_lets | (refine ReachP.use (by assumption) ?_) | apply setArr_reach |
      apply setTiles_reach | apply writeAll_reach | apply tilesDone_reach | apply failTiles_reach | apply ReachP.ite |
      apply ReachP.foldl | apply ReachP.out | apply Reach.foldl | apply Reach.ite | split | (simp only [ReachP.pair_iff]) |
      (dsimp +zetaDelta only))

theorem drainFor_reach {L a s x0 x1} (h_yrd_regs : Piece.regs .yrd ∈ L) (h_mem_regs : Piece.regs .mem ∈ L)
    (h_lpd_regs : Piece.regs .lpd ∈ L) (h_mce_regs : Piece.regs .mce ∈ L) (h_sec_regs : Piece.regs .sec ∈ L)
    (h_ras_regs : Piece.regs .ras ∈ L) (h_evr_regs : Piece.regs .evr ∈ L) (h_mem : Piece.mem ∈ L) (h_flights : Piece.flights ∈ L)
    (h_arrs : Piece.arrs ∈ L) (h_yard : Piece.yard ∈ L) (h_retrain : Piece.retrain ∈ L) (h_accs : Piece.accs ∈ L)
    (h_nextTag : Piece.nextTag ∈ L) (h_ports : Piece.ports ∈ L) (h_mce : Piece.mce ∈ L) (h_evr : Piece.evr ∈ L)
    (h_freeCtr : Piece.freeCtr ∈ L) (h : Reach L a s) : Reach L a (drainFor x0 x1 s) := by
  unfold drainFor
  with_reducible repeat'
    (first | assumption | intro _ | extract_lets | apply tileDrain_reach | apply flushStaging_reach | apply ReachP.ite |
      apply ReachP.foldl | apply ReachP.out | apply Reach.foldl | apply Reach.ite | split | (simp only [ReachP.pair_iff]) |
      (dsimp +zetaDelta only))

theorem preemptTiles_reach {L a s x0} (h_yrd_regs : Piece.regs .yrd ∈ L) (h_mem_regs : Piece.regs .mem ∈ L)
    (h_lpd_regs : Piece.regs .lpd ∈ L) (h_mce_regs : Piece.regs .mce ∈ L) (h_sec_regs : Piece.regs .sec ∈ L)
    (h_ras_regs : Piece.regs .ras ∈ L) (h_evr_regs : Piece.regs .evr ∈ L) (h_mem : Piece.mem ∈ L) (h_flights : Piece.flights ∈ L)
    (h_arrs : Piece.arrs ∈ L) (h_yard : Piece.yard ∈ L) (h_retrain : Piece.retrain ∈ L) (h_accs : Piece.accs ∈ L)
    (h_nextTag : Piece.nextTag ∈ L) (h_ports : Piece.ports ∈ L) (h_mce : Piece.mce ∈ L) (h_evr : Piece.evr ∈ L)
    (h_freeCtr : Piece.freeCtr ∈ L) (h : Reach L a s) : Reach L a (preemptTiles x0 s) := by
  unfold preemptTiles
  with_reducible repeat'
    (first | assumption | intro _ | extract_lets | apply setTiles_reach | apply swapFinished_reach |
      apply flushStaging_reach | apply clearArrays_reach | apply drainFor_reach | apply ReachP.ite | apply ReachP.foldl |
      apply ReachP.out | apply Reach.foldl | apply Reach.ite | split | (simp only [ReachP.pair_iff]) | (dsimp +zetaDelta only))

theorem quietPoint_reach {L a s x0} (h_yrd_regs : Piece.regs .yrd ∈ L) (h_mem_regs : Piece.regs .mem ∈ L)
    (h_lpd_regs : Piece.regs .lpd ∈ L) (h_mce_regs : Piece.regs .mce ∈ L) (h_sec_regs : Piece.regs .sec ∈ L)
    (h_ras_regs : Piece.regs .ras ∈ L) (h_evr_regs : Piece.regs .evr ∈ L) (h_mem : Piece.mem ∈ L) (h_flights : Piece.flights ∈ L)
    (h_arrs : Piece.arrs ∈ L) (h_yard : Piece.yard ∈ L) (h_retrain : Piece.retrain ∈ L) (h_accs : Piece.accs ∈ L)
    (h_nextTag : Piece.nextTag ∈ L) (h_parts : Piece.parts ∈ L) (h_ports : Piece.ports ∈ L) (h_mce : Piece.mce ∈ L)
    (h_evr : Piece.evr ∈ L) (h_freeCtr : Piece.freeCtr ∈ L) (h : Reach L a s) : Reach L a (quietPoint x0 s) := by
  unfold quietPoint
  with_reducible repeat'
    (first | assumption | intro _ | extract_lets | apply preemptScan_reach | apply setPart_reach | apply preemptTiles_reach |
      apply ReachP.ite | apply ReachP.foldl | apply ReachP.out | apply Reach.foldl | apply Reach.ite | split |
      apply Reach.retrain | (simp only [ReachP.pair_iff]) | (dsimp +zetaDelta only))

theorem passToken_reach {L a s x0 x1} (h_toks : Piece.toks ∈ L) (h : Reach L a s) : Reach L a (passToken x0 x1 s) := by
  unfold passToken
  with_reducible repeat'
    (first | assumption | intro _ | extract_lets | apply setTok_reach | apply Reach.foldl | apply Reach.ite | split |
      (dsimp +zetaDelta only))

theorem resetRegs_reach {L a s x0} (h_x0 : Piece.regs x0.blk ∈ L) (h_staged : Piece.staged ∈ L) (h : Reach L a s) :
    Reach L a (resetRegs x0 s) := by
  unfold resetRegs
  apply Reach.foldl
  · intro t x ht
    exact st_reach h_x0 ht
  · exact Reach.staged (Reach.dropPage h h_x0) h_staged (tabWf_filter _ _ _)

theorem resetPages_reach {L a s x0} (h_dsp_regs : Piece.regs .dsp ∈ L) (h_yrd_regs : Piece.regs .yrd ∈ L)
    (h_mem_regs : Piece.regs .mem ∈ L) (h_lpd_regs : Piece.regs .lpd ∈ L) (h_mce_regs : Piece.regs .mce ∈ L)
    (h_kvs_regs : Piece.regs .kvs ∈ L) (h_scn_regs : Piece.regs .scn ∈ L) (h_col_regs : Piece.regs .col ∈ L)
    (h_sec_regs : Piece.regs .sec ∈ L) (h_ras_regs : Piece.regs .ras ∈ L) (h_evr_regs : Piece.regs .evr ∈ L)
    (h_staged : Piece.staged ∈ L) (h_mem : Piece.mem ∈ L) (h_queues : Piece.queues ∈ L) (h_yard : Piece.yard ∈ L)
    (h_retrain : Piece.retrain ∈ L) (h_accs : Piece.accs ∈ L) (h_nextTag : Piece.nextTag ∈ L) (h_kvs : Piece.kvs ∈ L)
    (h_lab : Piece.lab ∈ L) (h_scn : Piece.scn ∈ L) (h_col : Piece.col ∈ L) (h_ports : Piece.ports ∈ L) (h_mce : Piece.mce ∈ L)
    (h_evr : Piece.evr ∈ L) (h_freeCtr : Piece.freeCtr ∈ L) (h : Reach L a s) : Reach L a (resetPages x0 s) := by
  unfold resetPages
  with_reducible repeat'
    (first | assumption | intro _ | extract_lets | apply askEnd_reach | apply colCloseAll_reach | apply resetRegs_reach |
      apply setKv_reach | apply setQu_reach | apply setSc_reach | apply ReachP.ite | apply ReachP.foldl | apply ReachP.out |
      apply Reach.foldl | apply Reach.ite | split | apply Reach.lab | (simp only [ReachP.pair_iff]) | (dsimp +zetaDelta only))

theorem prtRestart_reach {L a s x0 x1} (h_dsp_regs : Piece.regs .dsp ∈ L) (h_prt_regs : Piece.regs .prt ∈ L)
    (h_yrd_regs : Piece.regs .yrd ∈ L) (h_mem_regs : Piece.regs .mem ∈ L) (h_lpd_regs : Piece.regs .lpd ∈ L)
    (h_mce_regs : Piece.regs .mce ∈ L) (h_kvs_regs : Piece.regs .kvs ∈ L) (h_scn_regs : Piece.regs .scn ∈ L)
    (h_col_regs : Piece.regs .col ∈ L) (h_sec_regs : Piece.regs .sec ∈ L) (h_ras_regs : Piece.regs .ras ∈ L)
    (h_evr_regs : Piece.regs .evr ∈ L) (h_staged : Piece.staged ∈ L) (h_mem : Piece.mem ∈ L) (h_toks : Piece.toks ∈ L)
    (h_queues : Piece.queues ∈ L) (h_yard : Piece.yard ∈ L) (h_retrain : Piece.retrain ∈ L) (h_accs : Piece.accs ∈ L)
    (h_nextTag : Piece.nextTag ∈ L) (h_parts : Piece.parts ∈ L) (h_kvs : Piece.kvs ∈ L) (h_lab : Piece.lab ∈ L)
    (h_scn : Piece.scn ∈ L) (h_col : Piece.col ∈ L) (h_ports : Piece.ports ∈ L) (h_sec : Piece.sec ∈ L) (h_secs : Piece.secs ∈ L)
    (h_mce : Piece.mce ∈ L) (h_evr : Piece.evr ∈ L) (h_freeCtr : Piece.freeCtr ∈ L) (h : Reach L a s) : Reach L a
    (prtRestart x0 x1 s) := by
  unfold prtRestart
  with_reducible repeat'
    (first | assumption | intro _ | extract_lets | apply seedDrbg_reach | apply passToken_reach | apply resetPages_reach |
      apply setPart_reach | apply stRws_reach | apply zeroExtent_reach | apply zeroFill_reach | apply createKeys_reach |
      apply prtResult_reach | apply wh_reach | apply Reach.foldl | apply Reach.ite | split | (dsimp +zetaDelta only))

theorem tearCommands_reach {L a s x0} (h_kvs_regs : Piece.regs .kvs ∈ L) (h_scn_regs : Piece.regs .scn ∈ L)
    (h_col_regs : Piece.regs .col ∈ L) (h_sec_regs : Piece.regs .sec ∈ L) (h_accs : Piece.accs ∈ L)
    (h_secJobs : Piece.secJobs ∈ L) (h_lostFids : Piece.lostFids ∈ L) (h : Reach L a s) : Reach L a (tearCommands x0 s) := by
  unfold tearCommands
  with_reducible repeat'
    (first | assumption | intro _ | extract_lets | apply scnResult_reach | apply secResult_reach | apply colResult_reach |
      apply kvResult_reach | apply wh_reach | apply ReachP.ite | apply ReachP.foldl | apply ReachP.out | apply Reach.foldl |
      apply Reach.ite | split | apply Reach.accs_lostFids | apply Reach.accs | apply Reach.secJobs | apply Reach.lostFids |
      (simp only [ReachP.pair_iff]) | (dsimp +zetaDelta only))

theorem tearByte_reach {L a s x0 x1} (h_yrd_regs : Piece.regs .yrd ∈ L) (h_mem_regs : Piece.regs .mem ∈ L)
    (h_lpd_regs : Piece.regs .lpd ∈ L) (h_mce_regs : Piece.regs .mce ∈ L) (h_sec_regs : Piece.regs .sec ∈ L)
    (h_ras_regs : Piece.regs .ras ∈ L) (h_evr_regs : Piece.regs .evr ∈ L) (h_mem : Piece.mem ∈ L) (h_yard : Piece.yard ∈ L)
    (h_accs : Piece.accs ∈ L) (h_nextTag : Piece.nextTag ∈ L) (h_ports : Piece.ports ∈ L) (h_mce : Piece.mce ∈ L)
    (h_evr : Piece.evr ∈ L) (h_freeCtr : Piece.freeCtr ∈ L) (h : Reach L a s) : Reach L a (tearByte x0 x1 s) := by
  unfold tearByte
  with_reducible repeat'
    (first | assumption | intro _ | extract_lets | apply memPut_reach | apply wh_reach | apply Reach.foldl | apply Reach.ite |
      split | (dsimp +zetaDelta only))

theorem tearContexts_reach {L a s x0 x1} (h_col_regs : Piece.regs .col ∈ L) (h_ras_regs : Piece.regs .ras ∈ L)
    (h_evr_regs : Piece.regs .evr ∈ L) (h_mem : Piece.mem ∈ L) (h_flights : Piece.flights ∈ L) (h_col : Piece.col ∈ L)
    (h_ports : Piece.ports ∈ L) (h_evr : Piece.evr ∈ L) (h_freeCtr : Piece.freeCtr ∈ L) (h : Reach L a s) : Reach L a
    (tearContexts x0 x1 s) := by
  unfold tearContexts
  with_reducible repeat'
    (first | assumption | intro _ | extract_lets | apply colAbort_reach | apply freeCtx_reach | apply colEnd_reach |
      apply Reach.foldl | apply Reach.ite | split | (dsimp +zetaDelta only))

theorem tearLeases_reach {L a s x0} (h_leases : Piece.leases ∈ L) (h_ports : Piece.ports ∈ L) (h : Reach L a s) : Reach L a
    (tearLeases x0 s) := by
  unfold tearLeases
  with_reducible repeat'
    (first | assumption | intro _ | extract_lets | apply borrowerSend_reach | apply freeLease_reach | apply updLease_reach |
      apply Reach.foldl | apply Reach.ite | split | (dsimp +zetaDelta only))

theorem tearUnits_reach {L a s x0} (h_flights : Piece.flights ∈ L) (h_descriptors : Piece.descriptors ∈ L)
    (h_planners : Piece.planners ∈ L) (h_kvs : Piece.kvs ∈ L) (h_lab : Piece.lab ∈ L) (h_scn : Piece.scn ∈ L)
    (h_col : Piece.col ∈ L) (h : Reach L a s) : Reach L a (tearUnits x0 s) := by
  unfold tearUnits
  with_reducible repeat'
    (first | assumption | intro _ | extract_lets | apply setCol_reach | apply setKv_reach | apply setSc_reach |
      apply ReachP.ite | apply ReachP.foldl | apply ReachP.out | apply Reach.foldl | apply Reach.ite | split |
      apply Reach.flights_planners_lab | apply Reach.flights | apply Reach.planners | apply Reach.lab |
      (simp only [ReachP.pair_iff]) | apply inIssueOrder_filter | (dsimp +zetaDelta only))

theorem teardown_reach {L a s x0 x1 x2} (h_hif_regs : Piece.regs .hif ∈ L) (h_dsp_regs : Piece.regs .dsp ∈ L)
    (h_prt_regs : Piece.regs .prt ∈ L) (h_yrd_regs : Piece.regs .yrd ∈ L) (h_mem_regs : Piece.regs .mem ∈ L)
    (h_lpd_regs : Piece.regs .lpd ∈ L) (h_mce_regs : Piece.regs .mce ∈ L) (h_kvs_regs : Piece.regs .kvs ∈ L)
    (h_scn_regs : Piece.regs .scn ∈ L) (h_col_regs : Piece.regs .col ∈ L) (h_sec_regs : Piece.regs .sec ∈ L)
    (h_ras_regs : Piece.regs .ras ∈ L) (h_evr_regs : Piece.regs .evr ∈ L) (h_mem : Piece.mem ∈ L) (h_queues : Piece.queues ∈ L)
    (h_flights : Piece.flights ∈ L) (h_descriptors : Piece.descriptors ∈ L) (h_planners : Piece.planners ∈ L)
    (h_arrs : Piece.arrs ∈ L) (h_stks : Piece.stks ∈ L) (h_yard : Piece.yard ∈ L) (h_retrain : Piece.retrain ∈ L)
    (h_leases : Piece.leases ∈ L) (h_accs : Piece.accs ∈ L) (h_nextTag : Piece.nextTag ∈ L) (h_parts : Piece.parts ∈ L)
    (h_kvs : Piece.kvs ∈ L) (h_lab : Piece.lab ∈ L) (h_scn : Piece.scn ∈ L) (h_col : Piece.col ∈ L) (h_ports : Piece.ports ∈ L)
    (h_hif : Piece.hif ∈ L) (h_chans : Piece.chans ∈ L) (h_secs : Piece.secs ∈ L) (h_secJobs : Piece.secJobs ∈ L)
    (h_lostFids : Piece.lostFids ∈ L) (h_mce : Piece.mce ∈ L) (h_evr : Piece.evr ∈ L) (h_out : Piece.out ∈ L)
    (h_freeCtr : Piece.freeCtr ∈ L) (h : Reach L a s) : Reach L a (teardown x0 x1 x2 s) := by
  unfold teardown
  with_reducible repeat'
    (first | assumption | intro _ | extract_lets | apply zeroiseKeys_reach | apply tearCommands_reach | apply pageErr_reach |
      apply askEnd_reach | apply abandon_reach | apply st_reach | apply setPart_reach | apply tearByte_reach |
      apply tearContexts_reach | apply inc_reach | apply notify_reach | apply setQu_reach | apply tearLeases_reach |
      apply wh_reach | apply tearUnits_reach | apply protectWaiting_reach | apply Reach.foldl | apply Reach.ite | split |
      (dsimp +zetaDelta only))

theorem prtDestroy_reach {L a s x0} (h_hif_regs : Piece.regs .hif ∈ L) (h_dsp_regs : Piece.regs .dsp ∈ L)
    (h_prt_regs : Piece.regs .prt ∈ L) (h_yrd_regs : Piece.regs .yrd ∈ L) (h_mem_regs : Piece.regs .mem ∈ L)
    (h_lpd_regs : Piece.regs .lpd ∈ L) (h_mce_regs : Piece.regs .mce ∈ L) (h_kvs_regs : Piece.regs .kvs ∈ L)
    (h_scn_regs : Piece.regs .scn ∈ L) (h_col_regs : Piece.regs .col ∈ L) (h_sec_regs : Piece.regs .sec ∈ L)
    (h_ras_regs : Piece.regs .ras ∈ L) (h_evr_regs : Piece.regs .evr ∈ L) (h_staged : Piece.staged ∈ L) (h_mem : Piece.mem ∈ L)
    (h_toks : Piece.toks ∈ L) (h_queues : Piece.queues ∈ L) (h_flights : Piece.flights ∈ L)
    (h_descriptors : Piece.descriptors ∈ L) (h_planners : Piece.planners ∈ L) (h_arrs : Piece.arrs ∈ L) (h_stks : Piece.stks ∈ L)
    (h_yard : Piece.yard ∈ L) (h_retrain : Piece.retrain ∈ L) (h_exts : Piece.exts ∈ L) (h_leases : Piece.leases ∈ L)
    (h_accs : Piece.accs ∈ L) (h_nextTag : Piece.nextTag ∈ L) (h_parts : Piece.parts ∈ L) (h_kvs : Piece.kvs ∈ L)
    (h_lab : Piece.lab ∈ L) (h_scn : Piece.scn ∈ L) (h_col : Piece.col ∈ L) (h_ports : Piece.ports ∈ L) (h_hif : Piece.hif ∈ L)
    (h_chans : Piece.chans ∈ L) (h_secs : Piece.secs ∈ L) (h_secJobs : Piece.secJobs ∈ L) (h_lostFids : Piece.lostFids ∈ L)
    (h_mce : Piece.mce ∈ L) (h_evr : Piece.evr ∈ L) (h_out : Piece.out ∈ L) (h_freeCtr : Piece.freeCtr ∈ L) (h : Reach L a s) :
    Reach L a (prtDestroy x0 s) := by
  unfold prtDestroy
  with_reducible repeat'
    (first | assumption | intro _ | extract_lets | apply teardown_reach | apply extSettle_reach | apply zeroiseKeys_reach |
      apply freeWays_reach | apply passToken_reach | apply resetRegs_reach | apply setPart_reach | apply stRws_reach |
      apply endSession_reach | apply wh_reach | apply setExt_reach | apply ReachP.ite | apply ReachP.foldl | apply ReachP.out |
      apply Reach.foldl | apply Reach.ite | split | (simp only [ReachP.pair_iff]) | (dsimp +zetaDelta only))

theorem prtCreate_reach {L a s x0 x1} (h_dsp_regs : Piece.regs .dsp ∈ L) (h_prt_regs : Piece.regs .prt ∈ L)
    (h_yrd_regs : Piece.regs .yrd ∈ L) (h_mem_regs : Piece.regs .mem ∈ L) (h_lpd_regs : Piece.regs .lpd ∈ L)
    (h_mce_regs : Piece.regs .mce ∈ L) (h_kvs_regs : Piece.regs .kvs ∈ L) (h_scn_regs : Piece.regs .scn ∈ L)
    (h_col_regs : Piece.regs .col ∈ L) (h_sec_regs : Piece.regs .sec ∈ L) (h_ras_regs : Piece.regs .ras ∈ L)
    (h_evr_regs : Piece.regs .evr ∈ L) (h_staged : Piece.staged ∈ L) (h_mem : Piece.mem ∈ L) (h_queues : Piece.queues ∈ L)
    (h_yard : Piece.yard ∈ L) (h_retrain : Piece.retrain ∈ L) (h_accs : Piece.accs ∈ L) (h_nextTag : Piece.nextTag ∈ L)
    (h_parts : Piece.parts ∈ L) (h_kvs : Piece.kvs ∈ L) (h_lab : Piece.lab ∈ L) (h_scn : Piece.scn ∈ L) (h_col : Piece.col ∈ L)
    (h_ports : Piece.ports ∈ L) (h_sec : Piece.sec ∈ L) (h_secs : Piece.secs ∈ L) (h_mce : Piece.mce ∈ L) (h_evr : Piece.evr ∈ L)
    (h_freeCtr : Piece.freeCtr ∈ L) (h : Reach L a s) : Reach L a (prtCreate x0 x1 s) := by
  unfold prtCreate
  with_reducible repeat'
    (first | assumption | intro _ | extract_lets | apply seedDrbg_reach | apply resetPages_reach | apply setPart_reach |
      apply createKeys_reach | apply prtResult_reach | apply Reach.foldl | apply Reach.ite | split | (dsimp +zetaDelta only))

theorem prtResume_reach {L a s x0} (h_prt_regs : Piece.regs .prt ∈ L) (h_yrd_regs : Piece.regs .yrd ∈ L)
    (h_staged : Piece.staged ∈ L) (h_mem : Piece.mem ∈ L) (h_yard : Piece.yard ∈ L) (h_parts : Piece.parts ∈ L) (h : Reach L a s)
    : Reach L a (prtResume x0 s) := by
  unfold prtResume
  with_reducible repeat'
    (first | assumption | intro _ | extract_lets | apply setWay_reach | apply setPart_reach | apply prtResult_reach |
      apply wh_reach | apply Reach.foldl | apply Reach.ite | split | (dsimp +zetaDelta only))

theorem prtSuspend_reach {L a s x0} (h_parts : Piece.parts ∈ L) (h : Reach L a s) : Reach L a (prtSuspend x0 s) := by
  unfold prtSuspend
  with_reducible repeat'
    (first | assumption | intro _ | extract_lets | apply setPart_reach | apply Reach.foldl | apply Reach.ite | split |
      (dsimp +zetaDelta only))

theorem prtCommand_reach {L a s x0 x1 x2} (h_hif_regs : Piece.regs .hif ∈ L) (h_dsp_regs : Piece.regs .dsp ∈ L)
    (h_prt_regs : Piece.regs .prt ∈ L) (h_yrd_regs : Piece.regs .yrd ∈ L) (h_mem_regs : Piece.regs .mem ∈ L)
    (h_lpd_regs : Piece.regs .lpd ∈ L) (h_mce_regs : Piece.regs .mce ∈ L) (h_kvs_regs : Piece.regs .kvs ∈ L)
    (h_scn_regs : Piece.regs .scn ∈ L) (h_col_regs : Piece.regs .col ∈ L) (h_sec_regs : Piece.regs .sec ∈ L)
    (h_ras_regs : Piece.regs .ras ∈ L) (h_evr_regs : Piece.regs .evr ∈ L) (h_staged : Piece.staged ∈ L) (h_mem : Piece.mem ∈ L)
    (h_toks : Piece.toks ∈ L) (h_queues : Piece.queues ∈ L) (h_flights : Piece.flights ∈ L)
    (h_descriptors : Piece.descriptors ∈ L) (h_planners : Piece.planners ∈ L) (h_arrs : Piece.arrs ∈ L) (h_stks : Piece.stks ∈ L)
    (h_yard : Piece.yard ∈ L) (h_retrain : Piece.retrain ∈ L) (h_exts : Piece.exts ∈ L) (h_leases : Piece.leases ∈ L)
    (h_accs : Piece.accs ∈ L) (h_nextTag : Piece.nextTag ∈ L) (h_parts : Piece.parts ∈ L) (h_kvs : Piece.kvs ∈ L)
    (h_lab : Piece.lab ∈ L) (h_scn : Piece.scn ∈ L) (h_col : Piece.col ∈ L) (h_ports : Piece.ports ∈ L) (h_hif : Piece.hif ∈ L)
    (h_chans : Piece.chans ∈ L) (h_sec : Piece.sec ∈ L) (h_secs : Piece.secs ∈ L) (h_secJobs : Piece.secJobs ∈ L)
    (h_lostFids : Piece.lostFids ∈ L) (h_mce : Piece.mce ∈ L) (h_evr : Piece.evr ∈ L) (h_out : Piece.out ∈ L)
    (h_freeCtr : Piece.freeCtr ∈ L) (h : Reach L a s) : Reach L a (prtCommand x0 x1 x2 s) := by
  unfold prtCommand
  with_reducible repeat'
    (first | assumption | intro _ | extract_lets | apply prtRestart_reach | apply prtDestroy_reach | apply st_reach |
      apply prtCreate_reach | apply prtResume_reach | apply prtSuspend_reach | apply Reach.foldl | apply Reach.ite | split |
      (dsimp +zetaDelta only))

theorem prtRow_reach {L a s x0 x1 x2 x3} (h_hif_regs : Piece.regs .hif ∈ L) (h_dsp_regs : Piece.regs .dsp ∈ L)
    (h_prt_regs : Piece.regs .prt ∈ L) (h_yrd_regs : Piece.regs .yrd ∈ L) (h_mem_regs : Piece.regs .mem ∈ L)
    (h_lpd_regs : Piece.regs .lpd ∈ L) (h_mce_regs : Piece.regs .mce ∈ L) (h_kvs_regs : Piece.regs .kvs ∈ L)
    (h_scn_regs : Piece.regs .scn ∈ L) (h_col_regs : Piece.regs .col ∈ L) (h_sec_regs : Piece.regs .sec ∈ L)
    (h_ras_regs : Piece.regs .ras ∈ L) (h_evr_regs : Piece.regs .evr ∈ L) (h_staged : Piece.staged ∈ L) (h_bus : Piece.bus ∈ L)
    (h_mem : Piece.mem ∈ L) (h_toks : Piece.toks ∈ L) (h_queues : Piece.queues ∈ L) (h_flights : Piece.flights ∈ L)
    (h_descriptors : Piece.descriptors ∈ L) (h_planners : Piece.planners ∈ L) (h_arrs : Piece.arrs ∈ L) (h_stks : Piece.stks ∈ L)
    (h_yard : Piece.yard ∈ L) (h_retrain : Piece.retrain ∈ L) (h_exts : Piece.exts ∈ L) (h_leases : Piece.leases ∈ L)
    (h_accs : Piece.accs ∈ L) (h_nextTag : Piece.nextTag ∈ L) (h_parts : Piece.parts ∈ L) (h_kvs : Piece.kvs ∈ L)
    (h_lab : Piece.lab ∈ L) (h_scn : Piece.scn ∈ L) (h_col : Piece.col ∈ L) (h_ports : Piece.ports ∈ L) (h_hif : Piece.hif ∈ L)
    (h_chans : Piece.chans ∈ L) (h_sec : Piece.sec ∈ L) (h_secs : Piece.secs ∈ L) (h_secJobs : Piece.secJobs ∈ L)
    (h_lostFids : Piece.lostFids ∈ L) (h_mce : Piece.mce ∈ L) (h_evr : Piece.evr ∈ L) (h_out : Piece.out ∈ L)
    (h_freeCtr : Piece.freeCtr ∈ L) (h : Reach L a s) : Reach L a (prtRow x0 x1 x2 x3 s) := by
  unfold prtRow
  with_reducible repeat'
    (first | assumption | intro _ | extract_lets | apply prtCommand_reach | apply Reach.foldl | apply Reach.ite | split |
      apply Reach.bus | (dsimp +zetaDelta only))

theorem lendRaw_reach {L a s x0} (h_exts : Piece.exts ∈ L) (h_mce : Piece.mce ∈ L) (h : Reach L a s) : Reach L a
    (lendRaw x0 s) := by
  unfold lendRaw
  with_reducible repeat'
    (first | assumption | intro _ | extract_lets | apply setExt_reach | apply ReachP.ite | apply ReachP.foldl |
      apply ReachP.out | apply Reach.foldl | apply Reach.ite | split | apply Reach.mce | (simp only [ReachP.pair_iff]) |
      (dsimp +zetaDelta only))

theorem extChange_reach {L a s x0 x1 x2} (h_exts : Piece.exts ∈ L) (h_secs : Piece.secs ∈ L) (h_mce : Piece.mce ∈ L)
    (h : Reach L a s) : Reach L a (extChange x0 x1 x2 s) := by
  unfold extChange
  with_reducible repeat'
    (first | assumption | intro _ | extract_lets | apply lendRaw_reach | apply sweepDrop_reach | apply setExt_reach |
      apply Reach.foldl | apply Reach.ite | split | (dsimp +zetaDelta only))

theorem extCommand_reach {L a s x0 x1} (h_prt_regs : Piece.regs .prt ∈ L) (h_exts : Piece.exts ∈ L) (h_secs : Piece.secs ∈ L)
    (h_mce : Piece.mce ∈ L) (h : Reach L a s) : Reach L a (extCommand x0 x1 s) := by
  unfold extCommand
  with_reducible repeat'
    (first | assumption | intro _ | extract_lets | apply extSettle_reach | apply extChange_reach | apply st_reach |
      apply Reach.foldl | apply Reach.ite | split | (dsimp +zetaDelta only))

theorem faultZero_reach {L a s x0 x1} (h_hif_regs : Piece.regs .hif ∈ L) (h_dsp_regs : Piece.regs .dsp ∈ L)
    (h_tok_regs : Piece.regs .tok ∈ L) (h_prt_regs : Piece.regs .prt ∈ L) (h_yrd_regs : Piece.regs .yrd ∈ L)
    (h_mem_regs : Piece.regs .mem ∈ L) (h_lpd_regs : Piece.regs .lpd ∈ L) (h_mce_regs : Piece.regs .mce ∈ L)
    (h_kvs_regs : Piece.regs .kvs ∈ L) (h_scn_regs : Piece.regs .scn ∈ L) (h_col_regs : Piece.regs .col ∈ L)
    (h_sec_regs : Piece.regs .sec ∈ L) (h_ras_regs : Piece.regs .ras ∈ L) (h_evr_regs : Piece.regs .evr ∈ L)
    (h_mem : Piece.mem ∈ L) (h_toks : Piece.toks ∈ L) (h_queues : Piece.queues ∈ L) (h_flights : Piece.flights ∈ L)
    (h_descriptors : Piece.descriptors ∈ L) (h_arrs : Piece.arrs ∈ L) (h_stks : Piece.stks ∈ L) (h_yard : Piece.yard ∈ L)
    (h_retrain : Piece.retrain ∈ L) (h_accs : Piece.accs ∈ L) (h_nextTag : Piece.nextTag ∈ L) (h_lab : Piece.lab ∈ L)
    (h_scn : Piece.scn ∈ L) (h_col : Piece.col ∈ L) (h_ports : Piece.ports ∈ L) (h_hif : Piece.hif ∈ L)
    (h_chans : Piece.chans ∈ L) (h_mce : Piece.mce ∈ L) (h_evr : Piece.evr ∈ L) (h_out : Piece.out ∈ L)
    (h_freeCtr : Piece.freeCtr ∈ L) (h : Reach L a s) : Reach L a (faultZero x0 x1 s) := by
  unfold faultZero
  with_reducible repeat'
    (first | assumption | intro _ | extract_lets | apply pageErr_reach | apply endFlight_reach | apply hold_reach |
      apply completeFlight_reach | apply wh_reach | apply Reach.foldl | apply Reach.ite | split | (dsimp +zetaDelta only))

theorem tearCause_reach {L a s x0 x1 x2} (h_hif_regs : Piece.regs .hif ∈ L) (h_dsp_regs : Piece.regs .dsp ∈ L)
    (h_tok_regs : Piece.regs .tok ∈ L) (h_prt_regs : Piece.regs .prt ∈ L) (h_yrd_regs : Piece.regs .yrd ∈ L)
    (h_mem_regs : Piece.regs .mem ∈ L) (h_lpd_regs : Piece.regs .lpd ∈ L) (h_mce_regs : Piece.regs .mce ∈ L)
    (h_kvs_regs : Piece.regs .kvs ∈ L) (h_scn_regs : Piece.regs .scn ∈ L) (h_col_regs : Piece.regs .col ∈ L)
    (h_sec_regs : Piece.regs .sec ∈ L) (h_ras_regs : Piece.regs .ras ∈ L) (h_evr_regs : Piece.regs .evr ∈ L)
    (h_mem : Piece.mem ∈ L) (h_toks : Piece.toks ∈ L) (h_queues : Piece.queues ∈ L) (h_flights : Piece.flights ∈ L)
    (h_descriptors : Piece.descriptors ∈ L) (h_planners : Piece.planners ∈ L) (h_arrs : Piece.arrs ∈ L) (h_stks : Piece.stks ∈ L)
    (h_yard : Piece.yard ∈ L) (h_retrain : Piece.retrain ∈ L) (h_leases : Piece.leases ∈ L) (h_accs : Piece.accs ∈ L)
    (h_nextTag : Piece.nextTag ∈ L) (h_parts : Piece.parts ∈ L) (h_kvs : Piece.kvs ∈ L) (h_lab : Piece.lab ∈ L)
    (h_scn : Piece.scn ∈ L) (h_col : Piece.col ∈ L) (h_ports : Piece.ports ∈ L) (h_hif : Piece.hif ∈ L)
    (h_chans : Piece.chans ∈ L) (h_secs : Piece.secs ∈ L) (h_secJobs : Piece.secJobs ∈ L) (h_lostFids : Piece.lostFids ∈ L)
    (h_mce : Piece.mce ∈ L) (h_evr : Piece.evr ∈ L) (h_out : Piece.out ∈ L) (h_freeCtr : Piece.freeCtr ∈ L) (h : Reach L a s) :
    Reach L a (tearCause x0 x1 x2 s) := by
  unfold tearCause
  with_reducible repeat'
    (first | assumption | intro _ | extract_lets | apply teardown_reach | apply faultZero_reach | apply Reach.foldl |
      apply Reach.ite | split | (dsimp +zetaDelta only))

theorem arrayLeft_reach {L a s x0} (h_parts : Piece.parts ∈ L) (h : Reach L a s) : Reach L a (arrayLeft x0 s) := by
  unfold arrayLeft
  with_reducible repeat'
    (first | assumption | intro _ | extract_lets | apply setPart_reach | apply wh_reach | apply Reach.foldl |
      apply Reach.ite | split | (dsimp +zetaDelta only))

theorem restoreComplete_reach {L a s x0} (h_hif_regs : Piece.regs .hif ∈ L) (h_dsp_regs : Piece.regs .dsp ∈ L)
    (h_prt_regs : Piece.regs .prt ∈ L) (h_yrd_regs : Piece.regs .yrd ∈ L) (h_mem_regs : Piece.regs .mem ∈ L)
    (h_lpd_regs : Piece.regs .lpd ∈ L) (h_mce_regs : Piece.regs .mce ∈ L) (h_sec_regs : Piece.regs .sec ∈ L)
    (h_ras_regs : Piece.regs .ras ∈ L) (h_evr_regs : Piece.regs .evr ∈ L) (h_mem : Piece.mem ∈ L) (h_queues : Piece.queues ∈ L)
    (h_nextFid : Piece.nextFid ∈ L) (h_yard : Piece.yard ∈ L) (h_retrain : Piece.retrain ∈ L) (h_accs : Piece.accs ∈ L)
    (h_nextTag : Piece.nextTag ∈ L) (h_parts : Piece.parts ∈ L) (h_ports : Piece.ports ∈ L) (h_chans : Piece.chans ∈ L)
    (h_mce : Piece.mce ∈ L) (h_evr : Piece.evr ∈ L) (h_out : Piece.out ∈ L) (h_freeCtr : Piece.freeCtr ∈ L) (h : Reach L a s) :
    Reach L a (restoreComplete x0 s) := by
  unfold restoreComplete
  with_reducible repeat'
    (first | assumption | intro _ | extract_lets | (refine ReachP.use (by assumption) ?_) | apply refill_reach |
      apply switchCopy_reach | apply setPart_reach | apply prtResult_reach | apply ReachP.ite | apply ReachP.foldl |
      apply ReachP.out | apply Reach.foldl | apply Reach.ite | split | (simp only [ReachP.pair_iff]) | (dsimp +zetaDelta only))

end Sys2Proof.Machine
end

