-- ==== Sys2Proof/Laws/ReachFault.lean ====
section
/-!
SUPPORT. What each operation of Machine/Fault.lean can change.
-/
namespace Sys2Proof.Machine

set_option linter.unusedTactic false
set_option linter.unreachableTactic false
set_option linter.unusedSimpArgs false

theorem unitPage_regs {L : List Piece} {x0 x1} (h_mem : Piece.regs .mem ∈ L) (h_lpd : Piece.regs .lpd ∈ L) :
    Piece.regs (unitPage x0 x1).blk ∈ L := by
  unfold unitPage
  split <;> assumption

theorem restMet_reach {L a s x0} (h_col_regs : Piece.regs .col ∈ L) (h_ras_regs : Piece.regs .ras ∈ L)
    (h_evr_regs : Piece.regs .evr ∈ L) (h_mem : Piece.mem ∈ L) (h_flights : Piece.flights ∈ L) (h_arrs : Piece.arrs ∈ L)
    (h_stks : Piece.stks ∈ L) (h_retrain : Piece.retrain ∈ L) (h_accs : Piece.accs ∈ L) (h_col : Piece.col ∈ L)
    (h_ports : Piece.ports ∈ L) (h_hif : Piece.hif ∈ L) (h_evr : Piece.evr ∈ L) (h_freeCtr : Piece.freeCtr ∈ L) (h : Reach L a s)
    : Reach L a (restMet x0 s) := by
  unfold restMet
  with_reducible repeat'
    (first | assumption | intro _ | extract_lets | apply endFlight_reach | apply wh_reach | apply Reach.foldl |
      apply Reach.ite | split | (dsimp +zetaDelta only))

theorem failExtent_reach {L a s x0} (h_exts : Piece.exts ∈ L) (h_secs : Piece.secs ∈ L) (h : Reach L a s) : Reach L a
    (failExtent x0 s) := by
  unfold failExtent
  with_reducible repeat'
    (first | assumption | intro _ | extract_lets | apply sweepDrop_reach | apply setExt_reach | apply Reach.foldl |
      apply Reach.ite | split | (dsimp +zetaDelta only))

theorem requestsLost_reach {L a s x0} (h_lostFids : Piece.lostFids ∈ L) (h : Reach L a s) : Reach L a (requestsLost x0 s) :=
    by
  unfold requestsLost
  with_reducible repeat'
    (first | assumption | intro _ | extract_lets | apply Reach.foldl | apply Reach.ite | split | apply Reach.lostFids |
      (dsimp +zetaDelta only))

theorem unitDown_reach {L a s x0 x1 x2} (h_hif_regs : Piece.regs .hif ∈ L) (h_dsp_regs : Piece.regs .dsp ∈ L)
    (h_tok_regs : Piece.regs .tok ∈ L) (h_prt_regs : Piece.regs .prt ∈ L) (h_yrd_regs : Piece.regs .yrd ∈ L)
    (h_mem_regs : Piece.regs .mem ∈ L) (h_lpd_regs : Piece.regs .lpd ∈ L) (h_mce_regs : Piece.regs .mce ∈ L)
    (h_kvs_regs : Piece.regs .kvs ∈ L) (h_scn_regs : Piece.regs .scn ∈ L) (h_col_regs : Piece.regs .col ∈ L)
    (h_sec_regs : Piece.regs .sec ∈ L) (h_ras_regs : Piece.regs .ras ∈ L) (h_evr_regs : Piece.regs .evr ∈ L)
    (h_mem : Piece.mem ∈ L) (h_toks : Piece.toks ∈ L) (h_queues : Piece.queues ∈ L) (h_flights : Piece.flights ∈ L)
    (h_descriptors : Piece.descriptors ∈ L) (h_planners : Piece.planners ∈ L) (h_arrs : Piece.arrs ∈ L) (h_stks : Piece.stks ∈ L)
    (h_yard : Piece.yard ∈ L) (h_retrain : Piece.retrain ∈ L) (h_exts : Piece.exts ∈ L) (h_leases : Piece.leases ∈ L)
    (h_lends : Piece.lends ∈ L) (h_accs : Piece.accs ∈ L) (h_nextTag : Piece.nextTag ∈ L) (h_parts : Piece.parts ∈ L)
    (h_kvs : Piece.kvs ∈ L) (h_lab : Piece.lab ∈ L) (h_scn : Piece.scn ∈ L) (h_col : Piece.col ∈ L) (h_ports : Piece.ports ∈ L)
    (h_hif : Piece.hif ∈ L) (h_chans : Piece.chans ∈ L) (h_secs : Piece.secs ∈ L) (h_secJobs : Piece.secJobs ∈ L)
    (h_lostFids : Piece.lostFids ∈ L) (h_mce : Piece.mce ∈ L) (h_evr : Piece.evr ∈ L) (h_out : Piece.out ∈ L)
    (h_freeCtr : Piece.freeCtr ∈ L) (h : Reach L a s) : Reach L a (unitDown x0 x1 x2 s) := by
  unfold unitDown
  with_reducible repeat'
    (first | assumption | intro _ | extract_lets | apply lendLost_reach | apply extSettle_reach | apply restMet_reach |
      apply tearCause_reach | apply failExtent_reach | apply requestsLost_reach | apply ReachP.ite | apply ReachP.foldl |
      apply ReachP.out | apply Reach.foldl | apply Reach.ite | split | apply Reach.retrain | (simp only [ReachP.pair_iff]) |
      (dsimp +zetaDelta only))

theorem scrubPass_reach {L a s x0} (h_ras_regs : Piece.regs .ras ∈ L) (h_evr_regs : Piece.regs .evr ∈ L)
    (h_evr : Piece.evr ∈ L) (h_freeCtr : Piece.freeCtr ∈ L) (h : Reach L a s) : Reach L a (scrubPass x0 s) := by
  unfold scrubPass
  with_reducible repeat'
    (first | assumption | intro _ | extract_lets | apply corrected_reach | apply inc_reach | apply Reach.foldl |
      apply Reach.ite | split | (dsimp +zetaDelta only))

theorem engineFault_reach {L a s x0 x1} (h_dev_regs : Piece.regs .dev ∈ L) (h_hif_regs : Piece.regs .hif ∈ L)
    (h_dsp_regs : Piece.regs .dsp ∈ L) (h_tok_regs : Piece.regs .tok ∈ L) (h_prt_regs : Piece.regs .prt ∈ L)
    (h_yrd_regs : Piece.regs .yrd ∈ L) (h_mem_regs : Piece.regs .mem ∈ L) (h_stk_regs : Piece.regs .stk ∈ L)
    (h_lpd_regs : Piece.regs .lpd ∈ L) (h_mce_regs : Piece.regs .mce ∈ L) (h_kvs_regs : Piece.regs .kvs ∈ L)
    (h_scn_regs : Piece.regs .scn ∈ L) (h_col_regs : Piece.regs .col ∈ L) (h_sec_regs : Piece.regs .sec ∈ L)
    (h_ras_regs : Piece.regs .ras ∈ L) (h_evr_regs : Piece.regs .evr ∈ L) (h_mem : Piece.mem ∈ L) (h_toks : Piece.toks ∈ L)
    (h_queues : Piece.queues ∈ L) (h_flights : Piece.flights ∈ L) (h_descriptors : Piece.descriptors ∈ L)
    (h_planners : Piece.planners ∈ L) (h_arrs : Piece.arrs ∈ L) (h_stks : Piece.stks ∈ L) (h_yard : Piece.yard ∈ L)
    (h_retrain : Piece.retrain ∈ L) (h_exts : Piece.exts ∈ L) (h_leases : Piece.leases ∈ L) (h_lends : Piece.lends ∈ L)
    (h_accs : Piece.accs ∈ L) (h_nextTag : Piece.nextTag ∈ L) (h_parts : Piece.parts ∈ L) (h_kvs : Piece.kvs ∈ L)
    (h_lab : Piece.lab ∈ L) (h_scn : Piece.scn ∈ L) (h_col : Piece.col ∈ L) (h_ports : Piece.ports ∈ L) (h_hif : Piece.hif ∈ L)
    (h_chans : Piece.chans ∈ L) (h_secs : Piece.secs ∈ L) (h_secJobs : Piece.secJobs ∈ L) (h_lostFids : Piece.lostFids ∈ L)
    (h_mce : Piece.mce ∈ L) (h_evr : Piece.evr ∈ L) (h_out : Piece.out ∈ L) (h_freeCtr : Piece.freeCtr ∈ L) (h : Reach L a s) :
    Reach L a (engineFault x0 x1 s) := by
  unfold engineFault
  with_reducible repeat'
    (first | assumption | intro _ | extract_lets | apply unitDown_reach | apply st_reach | apply moduleFail_reach |
      apply Reach.foldl | apply Reach.ite | split | (dsimp +zetaDelta only))

theorem linkRetrainEnd_reach {L a s x0 x1} (h_dev_regs : Piece.regs .dev ∈ L) (h_hif_regs : Piece.regs .hif ∈ L)
    (h_dsp_regs : Piece.regs .dsp ∈ L) (h_tok_regs : Piece.regs .tok ∈ L) (h_prt_regs : Piece.regs .prt ∈ L)
    (h_yrd_regs : Piece.regs .yrd ∈ L) (h_mem_regs : Piece.regs .mem ∈ L) (h_stk_regs : Piece.regs .stk ∈ L)
    (h_lpd_regs : Piece.regs .lpd ∈ L) (h_mce_regs : Piece.regs .mce ∈ L) (h_kvs_regs : Piece.regs .kvs ∈ L)
    (h_scn_regs : Piece.regs .scn ∈ L) (h_col_regs : Piece.regs .col ∈ L) (h_sec_regs : Piece.regs .sec ∈ L)
    (h_ras_regs : Piece.regs .ras ∈ L) (h_evr_regs : Piece.regs .evr ∈ L) (h_mem : Piece.mem ∈ L) (h_toks : Piece.toks ∈ L)
    (h_queues : Piece.queues ∈ L) (h_flights : Piece.flights ∈ L) (h_descriptors : Piece.descriptors ∈ L)
    (h_planners : Piece.planners ∈ L) (h_arrs : Piece.arrs ∈ L) (h_stks : Piece.stks ∈ L) (h_yard : Piece.yard ∈ L)
    (h_retrain : Piece.retrain ∈ L) (h_exts : Piece.exts ∈ L) (h_leases : Piece.leases ∈ L) (h_lends : Piece.lends ∈ L)
    (h_accs : Piece.accs ∈ L) (h_nextTag : Piece.nextTag ∈ L) (h_parts : Piece.parts ∈ L) (h_kvs : Piece.kvs ∈ L)
    (h_lab : Piece.lab ∈ L) (h_scn : Piece.scn ∈ L) (h_col : Piece.col ∈ L) (h_ports : Piece.ports ∈ L) (h_hif : Piece.hif ∈ L)
    (h_chans : Piece.chans ∈ L) (h_secs : Piece.secs ∈ L) (h_secJobs : Piece.secJobs ∈ L) (h_lostFids : Piece.lostFids ∈ L)
    (h_mce : Piece.mce ∈ L) (h_evr : Piece.evr ∈ L) (h_out : Piece.out ∈ L) (h_freeCtr : Piece.freeCtr ∈ L) (h : Reach L a s) :
    Reach L a (linkRetrainEnd x0 x1 s) := by
  unfold linkRetrainEnd
  with_reducible repeat'
    (first | assumption | intro _ | extract_lets | apply recovered_reach | apply engineFault_reach | apply Reach.foldl |
      apply Reach.ite | split | (dsimp +zetaDelta only))

theorem retrainStart_reach {L a s x0 x1 x2 x3} (h_mem_regs : Piece.regs .mem ∈ L) (h_lpd_regs : Piece.regs .lpd ∈ L)
    (h_ras_regs : Piece.regs .ras ∈ L) (h_evr_regs : Piece.regs .evr ∈ L) (h_retrain : Piece.retrain ∈ L) (h_evr : Piece.evr ∈ L)
    (h_freeCtr : Piece.freeCtr ∈ L) (h : Reach L a s) : Reach L a (retrainStart x0 x1 x2 x3 s) := by
  unfold retrainStart
  with_reducible repeat'
    (first | assumption | intro _ | extract_lets | apply inc_reach | apply raise_reach | apply wh_reach | apply Reach.foldl |
      apply Reach.ite | split | apply Reach.retrain | apply unitPage_regs | (dsimp +zetaDelta only))

theorem setFails_reach {L a s x0 x1} (h_retrain : Piece.retrain ∈ L) (h : Reach L a s) : Reach L a (setFails x0 x1 s) := by
  unfold setFails
  with_reducible repeat'
    (first | assumption | intro _ | extract_lets | apply ReachP.ite | apply ReachP.foldl | apply ReachP.out |
      apply Reach.foldl | apply Reach.ite | split | apply Reach.retrain | (simp only [ReachP.pair_iff]) |
      (dsimp +zetaDelta only))

theorem retrainOk_reach {L a s x0 x1} (h_mem_regs : Piece.regs .mem ∈ L) (h_lpd_regs : Piece.regs .lpd ∈ L)
    (h_ras_regs : Piece.regs .ras ∈ L) (h_evr_regs : Piece.regs .evr ∈ L) (h_retrain : Piece.retrain ∈ L) (h_evr : Piece.evr ∈ L)
    (h_freeCtr : Piece.freeCtr ∈ L) (h : Reach L a s) : Reach L a (retrainOk x0 x1 s) := by
  unfold retrainOk
  with_reducible repeat'
    (first | assumption | intro _ | extract_lets | apply st_reach | apply raiseDur_reach | apply setFails_reach |
      apply wh_reach | apply Reach.foldl | apply Reach.ite | split | apply Reach.retrain | apply unitPage_regs |
      (dsimp +zetaDelta only))

theorem commandFault_reach {L a s x0} (h_kvs_regs : Piece.regs .kvs ∈ L) (h_scn_regs : Piece.regs .scn ∈ L)
    (h_col_regs : Piece.regs .col ∈ L) (h_kvs : Piece.kvs ∈ L) (h_scn : Piece.scn ∈ L) (h_col : Piece.col ∈ L) (h : Reach L a s) :
    Reach L a (commandFault x0 s) := by
  unfold commandFault
  with_reducible repeat'
    (first | assumption | intro _ | extract_lets | apply scnResult_reach | apply colResult_reach | apply setCol_reach |
      apply setKv_reach | apply kvResult_reach | apply setSc_reach | apply wh_reach | apply ReachP.ite | apply ReachP.foldl |
      apply ReachP.out | apply Reach.foldl | apply Reach.ite | split | (simp only [ReachP.pair_iff]) | (dsimp +zetaDelta only))

theorem hopFail_reach {L a s x0 x1 x2} (h_hif_regs : Piece.regs .hif ∈ L) (h_dsp_regs : Piece.regs .dsp ∈ L)
    (h_tok_regs : Piece.regs .tok ∈ L) (h_prt_regs : Piece.regs .prt ∈ L) (h_yrd_regs : Piece.regs .yrd ∈ L)
    (h_mem_regs : Piece.regs .mem ∈ L) (h_lpd_regs : Piece.regs .lpd ∈ L) (h_mce_regs : Piece.regs .mce ∈ L)
    (h_kvs_regs : Piece.regs .kvs ∈ L) (h_scn_regs : Piece.regs .scn ∈ L) (h_col_regs : Piece.regs .col ∈ L)
    (h_sec_regs : Piece.regs .sec ∈ L) (h_ras_regs : Piece.regs .ras ∈ L) (h_evr_regs : Piece.regs .evr ∈ L)
    (h_mem : Piece.mem ∈ L) (h_toks : Piece.toks ∈ L) (h_queues : Piece.queues ∈ L) (h_flights : Piece.flights ∈ L)
    (h_descriptors : Piece.descriptors ∈ L) (h_planners : Piece.planners ∈ L) (h_arrs : Piece.arrs ∈ L) (h_stks : Piece.stks ∈ L)
    (h_yard : Piece.yard ∈ L) (h_retrain : Piece.retrain ∈ L) (h_leases : Piece.leases ∈ L) (h_accs : Piece.accs ∈ L)
    (h_nextTag : Piece.nextTag ∈ L) (h_parts : Piece.parts ∈ L) (h_kvs : Piece.kvs ∈ L) (h_lab : Piece.lab ∈ L)
    (h_scn : Piece.scn ∈ L) (h_col : Piece.col ∈ L) (h_ports : Piece.ports ∈ L) (h_hif : Piece.hif ∈ L)
    (h_chans : Piece.chans ∈ L) (h_secs : Piece.secs ∈ L) (h_secJobs : Piece.secJobs ∈ L) (h_lostFids : Piece.lostFids ∈ L)
    (h_mce : Piece.mce ∈ L) (h_evr : Piece.evr ∈ L) (h_out : Piece.out ∈ L) (h_freeCtr : Piece.freeCtr ∈ L) (h : Reach L a s) :
    Reach L a (hopFail x0 x1 x2 s) := by
  unfold hopFail
  with_reducible repeat'
    (first | assumption | intro _ | extract_lets | apply tearCause_reach | apply moduleFail_reach | apply Reach.foldl |
      apply Reach.ite | split | (dsimp +zetaDelta only))

theorem arrayError_reach {L a s x0 x1 x2} (h_dev_regs : Piece.regs .dev ∈ L) (h_hif_regs : Piece.regs .hif ∈ L)
    (h_dsp_regs : Piece.regs .dsp ∈ L) (h_tok_regs : Piece.regs .tok ∈ L) (h_prt_regs : Piece.regs .prt ∈ L)
    (h_arr_regs : Piece.regs .arr ∈ L) (h_yrd_regs : Piece.regs .yrd ∈ L) (h_mem_regs : Piece.regs .mem ∈ L)
    (h_lpd_regs : Piece.regs .lpd ∈ L) (h_mce_regs : Piece.regs .mce ∈ L) (h_kvs_regs : Piece.regs .kvs ∈ L)
    (h_scn_regs : Piece.regs .scn ∈ L) (h_col_regs : Piece.regs .col ∈ L) (h_sec_regs : Piece.regs .sec ∈ L)
    (h_ras_regs : Piece.regs .ras ∈ L) (h_evr_regs : Piece.regs .evr ∈ L) (h_mem : Piece.mem ∈ L) (h_toks : Piece.toks ∈ L)
    (h_queues : Piece.queues ∈ L) (h_flights : Piece.flights ∈ L) (h_descriptors : Piece.descriptors ∈ L)
    (h_planners : Piece.planners ∈ L) (h_arrs : Piece.arrs ∈ L) (h_stks : Piece.stks ∈ L) (h_yard : Piece.yard ∈ L)
    (h_retrain : Piece.retrain ∈ L) (h_leases : Piece.leases ∈ L) (h_accs : Piece.accs ∈ L) (h_nextTag : Piece.nextTag ∈ L)
    (h_parts : Piece.parts ∈ L) (h_kvs : Piece.kvs ∈ L) (h_lab : Piece.lab ∈ L) (h_scn : Piece.scn ∈ L) (h_col : Piece.col ∈ L)
    (h_ports : Piece.ports ∈ L) (h_hif : Piece.hif ∈ L) (h_chans : Piece.chans ∈ L) (h_secs : Piece.secs ∈ L)
    (h_secJobs : Piece.secJobs ∈ L) (h_lostFids : Piece.lostFids ∈ L) (h_mce : Piece.mce ∈ L) (h_evr : Piece.evr ∈ L)
    (h_out : Piece.out ∈ L) (h_freeCtr : Piece.freeCtr ∈ L) (h : Reach L a s) : Reach L a (arrayError x0 x1 x2 s) := by
  unfold arrayError
  with_reducible repeat'
    (first | assumption | intro _ | extract_lets | apply tearCause_reach | apply st_reach | apply moduleFail_reach |
      apply Reach.foldl | apply Reach.ite | split | (dsimp +zetaDelta only))

theorem stackFail_reach {L a s x0} (h_dev_regs : Piece.regs .dev ∈ L) (h_hif_regs : Piece.regs .hif ∈ L)
    (h_dsp_regs : Piece.regs .dsp ∈ L) (h_tok_regs : Piece.regs .tok ∈ L) (h_prt_regs : Piece.regs .prt ∈ L)
    (h_yrd_regs : Piece.regs .yrd ∈ L) (h_mem_regs : Piece.regs .mem ∈ L) (h_lpd_regs : Piece.regs .lpd ∈ L)
    (h_mce_regs : Piece.regs .mce ∈ L) (h_kvs_regs : Piece.regs .kvs ∈ L) (h_scn_regs : Piece.regs .scn ∈ L)
    (h_col_regs : Piece.regs .col ∈ L) (h_sec_regs : Piece.regs .sec ∈ L) (h_ras_regs : Piece.regs .ras ∈ L)
    (h_evr_regs : Piece.regs .evr ∈ L) (h_mem : Piece.mem ∈ L) (h_toks : Piece.toks ∈ L) (h_queues : Piece.queues ∈ L)
    (h_flights : Piece.flights ∈ L) (h_descriptors : Piece.descriptors ∈ L) (h_planners : Piece.planners ∈ L)
    (h_arrs : Piece.arrs ∈ L) (h_stks : Piece.stks ∈ L) (h_yard : Piece.yard ∈ L) (h_retrain : Piece.retrain ∈ L)
    (h_exts : Piece.exts ∈ L) (h_leases : Piece.leases ∈ L) (h_lends : Piece.lends ∈ L) (h_accs : Piece.accs ∈ L)
    (h_nextTag : Piece.nextTag ∈ L) (h_parts : Piece.parts ∈ L) (h_kvs : Piece.kvs ∈ L) (h_lab : Piece.lab ∈ L)
    (h_scn : Piece.scn ∈ L) (h_col : Piece.col ∈ L) (h_ports : Piece.ports ∈ L) (h_hif : Piece.hif ∈ L)
    (h_chans : Piece.chans ∈ L) (h_secs : Piece.secs ∈ L) (h_secJobs : Piece.secJobs ∈ L) (h_lostFids : Piece.lostFids ∈ L)
    (h_mce : Piece.mce ∈ L) (h_evr : Piece.evr ∈ L) (h_out : Piece.out ∈ L) (h_freeCtr : Piece.freeCtr ∈ L) (h : Reach L a s) :
    Reach L a (stackFail x0 s) := by
  unfold stackFail
  with_reducible repeat'
    (first | assumption | intro _ | extract_lets | apply unitDown_reach | apply st_reach | apply moduleFail_reach |
      apply Reach.foldl | apply Reach.ite | split | apply unitPage_regs | (dsimp +zetaDelta only))

theorem retrainEnd_reach {L a s x0 x1 x2 x3 x4 x5} (h_dev_regs : Piece.regs .dev ∈ L) (h_hif_regs : Piece.regs .hif ∈ L)
    (h_dsp_regs : Piece.regs .dsp ∈ L) (h_tok_regs : Piece.regs .tok ∈ L) (h_prt_regs : Piece.regs .prt ∈ L)
    (h_yrd_regs : Piece.regs .yrd ∈ L) (h_mem_regs : Piece.regs .mem ∈ L) (h_lpd_regs : Piece.regs .lpd ∈ L)
    (h_mce_regs : Piece.regs .mce ∈ L) (h_kvs_regs : Piece.regs .kvs ∈ L) (h_scn_regs : Piece.regs .scn ∈ L)
    (h_col_regs : Piece.regs .col ∈ L) (h_sec_regs : Piece.regs .sec ∈ L) (h_ras_regs : Piece.regs .ras ∈ L)
    (h_evr_regs : Piece.regs .evr ∈ L) (h_mem : Piece.mem ∈ L) (h_toks : Piece.toks ∈ L) (h_queues : Piece.queues ∈ L)
    (h_flights : Piece.flights ∈ L) (h_descriptors : Piece.descriptors ∈ L) (h_planners : Piece.planners ∈ L)
    (h_arrs : Piece.arrs ∈ L) (h_stks : Piece.stks ∈ L) (h_yard : Piece.yard ∈ L) (h_retrain : Piece.retrain ∈ L)
    (h_exts : Piece.exts ∈ L) (h_leases : Piece.leases ∈ L) (h_lends : Piece.lends ∈ L) (h_accs : Piece.accs ∈ L)
    (h_nextTag : Piece.nextTag ∈ L) (h_parts : Piece.parts ∈ L) (h_kvs : Piece.kvs ∈ L) (h_lab : Piece.lab ∈ L)
    (h_scn : Piece.scn ∈ L) (h_col : Piece.col ∈ L) (h_ports : Piece.ports ∈ L) (h_hif : Piece.hif ∈ L)
    (h_chans : Piece.chans ∈ L) (h_secs : Piece.secs ∈ L) (h_secJobs : Piece.secJobs ∈ L) (h_lostFids : Piece.lostFids ∈ L)
    (h_mce : Piece.mce ∈ L) (h_evr : Piece.evr ∈ L) (h_out : Piece.out ∈ L) (h_freeCtr : Piece.freeCtr ∈ L) (h : Reach L a s) :
    Reach L a (retrainEnd x0 x1 x2 x3 x4 x5 s) := by
  unfold retrainEnd
  with_reducible repeat'
    (first | assumption | intro _ | extract_lets | apply stackFail_reach | apply setFails_reach | apply inc_reach |
      apply retrainOk_reach | apply Reach.foldl | apply Reach.ite | split | apply unitPage_regs | (dsimp +zetaDelta only))

theorem scratchError_reach {L a s x0 x1} (h_hif_regs : Piece.regs .hif ∈ L) (h_dsp_regs : Piece.regs .dsp ∈ L)
    (h_tok_regs : Piece.regs .tok ∈ L) (h_prt_regs : Piece.regs .prt ∈ L) (h_yrd_regs : Piece.regs .yrd ∈ L)
    (h_mem_regs : Piece.regs .mem ∈ L) (h_lpd_regs : Piece.regs .lpd ∈ L) (h_mce_regs : Piece.regs .mce ∈ L)
    (h_kvs_regs : Piece.regs .kvs ∈ L) (h_scn_regs : Piece.regs .scn ∈ L) (h_col_regs : Piece.regs .col ∈ L)
    (h_sec_regs : Piece.regs .sec ∈ L) (h_ras_regs : Piece.regs .ras ∈ L) (h_evr_regs : Piece.regs .evr ∈ L)
    (h_staged : Piece.staged ∈ L) (h_mem : Piece.mem ∈ L) (h_toks : Piece.toks ∈ L) (h_queues : Piece.queues ∈ L)
    (h_flights : Piece.flights ∈ L) (h_descriptors : Piece.descriptors ∈ L) (h_planners : Piece.planners ∈ L)
    (h_arrs : Piece.arrs ∈ L) (h_stks : Piece.stks ∈ L) (h_yard : Piece.yard ∈ L) (h_retrain : Piece.retrain ∈ L)
    (h_leases : Piece.leases ∈ L) (h_accs : Piece.accs ∈ L) (h_nextTag : Piece.nextTag ∈ L) (h_parts : Piece.parts ∈ L)
    (h_kvs : Piece.kvs ∈ L) (h_lab : Piece.lab ∈ L) (h_scn : Piece.scn ∈ L) (h_col : Piece.col ∈ L) (h_ports : Piece.ports ∈ L)
    (h_hif : Piece.hif ∈ L) (h_chans : Piece.chans ∈ L) (h_secs : Piece.secs ∈ L) (h_secJobs : Piece.secJobs ∈ L)
    (h_lostFids : Piece.lostFids ∈ L) (h_mce : Piece.mce ∈ L) (h_evr : Piece.evr ∈ L) (h_out : Piece.out ∈ L)
    (h_freeCtr : Piece.freeCtr ∈ L) (h : Reach L a s) : Reach L a (scratchError x0 x1 s) := by
  unfold scratchError
  with_reducible repeat'
    (first | assumption | intro _ | extract_lets | apply tearCause_reach | apply setWay_reach | apply moduleFail_reach |
      apply wh_reach | apply Reach.foldl | apply Reach.ite | split | (dsimp +zetaDelta only))

theorem sharedError_reach {L a s x0 x1 x2 x3 x4} (h_hif_regs : Piece.regs .hif ∈ L) (h_dsp_regs : Piece.regs .dsp ∈ L)
    (h_kvs_regs : Piece.regs .kvs ∈ L) (h_scn_regs : Piece.regs .scn ∈ L) (h_col_regs : Piece.regs .col ∈ L)
    (h_ras_regs : Piece.regs .ras ∈ L) (h_evr_regs : Piece.regs .evr ∈ L) (h_x1 : Piece.regs x1.blk ∈ L) (h_bus : Piece.bus ∈ L)
    (h_mem : Piece.mem ∈ L) (h_toks : Piece.toks ∈ L) (h_queues : Piece.queues ∈ L) (h_flights : Piece.flights ∈ L)
    (h_arrs : Piece.arrs ∈ L) (h_stks : Piece.stks ∈ L) (h_retrain : Piece.retrain ∈ L) (h_accs : Piece.accs ∈ L)
    (h_kvs : Piece.kvs ∈ L) (h_scn : Piece.scn ∈ L) (h_col : Piece.col ∈ L) (h_ports : Piece.ports ∈ L) (h_hif : Piece.hif ∈ L)
    (h_chans : Piece.chans ∈ L) (h_sec : Piece.sec ∈ L) (h_evr : Piece.evr ∈ L) (h_out : Piece.out ∈ L)
    (h_freeCtr : Piece.freeCtr ∈ L) (h : Reach L a s) : Reach L a (sharedError x0 x1 x2 x3 x4 s) := by
  unfold sharedError
  with_reducible repeat'
    (first | assumption | intro _ | extract_lets | apply pageErr_reach | apply commandFault_reach | apply setTok_reach |
      apply endFlight_reach | apply hold_reach | apply moduleFail_reach | apply wh_reach | apply Reach.foldl | apply Reach.ite |
      split | apply Reach.bus | apply Reach.sec | (dsimp +zetaDelta only))

end Sys2Proof.Machine
end

