-- ==== Sys2Proof/Laws/ReachPower.lean ====
section
/-!
SUPPORT. What each operation of Machine/Power.lean can change.
-/
namespace Sys2Proof.Machine

set_option linter.unusedTactic false
set_option linter.unreachableTactic false
set_option linter.unusedSimpArgs false

theorem measured_reach {L a s x0 x1} (h_pwr_regs : Piece.regs .pwr ∈ L) (h : Reach L a s) : Reach L a (measured x0 x1 s) := by
  unfold measured
  with_reducible repeat'
    (first | assumption | intro _ | extract_lets | apply st_reach | apply Reach.foldl | apply Reach.ite | split |
      (dsimp +zetaDelta only))

theorem overrideStep_reach {L a s x0} (h_pwr_regs : Piece.regs .pwr ∈ L) (h_clk_regs : Piece.regs .clk ∈ L)
    (h_ras_regs : Piece.regs .ras ∈ L) (h_evr_regs : Piece.regs .evr ∈ L) (h_evr : Piece.evr ∈ L) (h_freeCtr : Piece.freeCtr ∈ L)
    (h : Reach L a s) : Reach L a (overrideStep x0 s) := by
  unfold overrideStep
  with_reducible repeat'
    (first | assumption | intro _ | extract_lets | apply inc_reach | apply raise_reach | apply Reach.foldl | apply Reach.ite |
      split | (dsimp +zetaDelta only))

theorem thermalResume_reach {L a s} (h_pwr_regs : Piece.regs .pwr ∈ L) (h_clk_regs : Piece.regs .clk ∈ L) (h : Reach L a s) :
    Reach L a (thermalResume s) := by
  unfold thermalResume
  with_reducible repeat'
    (first | assumption | intro _ | extract_lets | apply st_reach | apply wh_reach | apply Reach.foldl | apply Reach.ite |
      split | (dsimp +zetaDelta only))

theorem bootResult_reach {L a s x0} (h_boot_regs : Piece.regs .boot ∈ L) (h : Reach L a s) : Reach L a (bootResult x0 s) := by
  unfold bootResult
  with_reducible repeat'
    (first | assumption | intro _ | extract_lets | apply st_reach | apply Reach.foldl | apply Reach.ite | split |
      (dsimp +zetaDelta only))

theorem writeReceipt_reach {L a s x0 x1 x2} (h_yrd_regs : Piece.regs .yrd ∈ L) (h_mem_regs : Piece.regs .mem ∈ L)
    (h_lpd_regs : Piece.regs .lpd ∈ L) (h_mce_regs : Piece.regs .mce ∈ L) (h_sec_regs : Piece.regs .sec ∈ L)
    (h_ras_regs : Piece.regs .ras ∈ L) (h_evr_regs : Piece.regs .evr ∈ L) (h_boot_regs : Piece.regs .boot ∈ L)
    (h_mem : Piece.mem ∈ L) (h_yard : Piece.yard ∈ L) (h_accs : Piece.accs ∈ L) (h_nextTag : Piece.nextTag ∈ L)
    (h_ports : Piece.ports ∈ L) (h_sec : Piece.sec ∈ L) (h_mce : Piece.mce ∈ L) (h_evr : Piece.evr ∈ L)
    (h_freeCtr : Piece.freeCtr ∈ L) (h : Reach L a s) : Reach L a (writeReceipt x0 x1 x2 s) := by
  unfold writeReceipt
  with_reducible repeat'
    (first | assumption | intro _ | extract_lets | (refine ReachP.ofPair (by assumption) ?_) |
      (refine ReachP.use (by assumption) ?_) | apply memWrite_reach | apply signBy_reach | apply bootResult_reach |
      apply poke_reach | apply ReachP.ite | apply ReachP.foldl | apply ReachP.out | apply Reach.foldl | apply Reach.ite |
      split | (simp only [ReachP.pair_iff]) | (dsimp +zetaDelta only))

theorem cleared_reach {L a s}
    (h_pwr : Piece.pwr ∈ L)
    (h_regs : ∀ b, Piece.regs b ∈ L)
    (h_staged : Piece.staged ∈ L)
    (h_bus : Piece.bus ∈ L)
    (h_mem : Piece.mem ∈ L)
    (h_toks : Piece.toks ∈ L)
    (h_queues : Piece.queues ∈ L)
    (h_lastServed : Piece.lastServed ∈ L)
    (h_flights : Piece.flights ∈ L)
    (h_descriptors : Piece.descriptors ∈ L)
    (h_nextFid : Piece.nextFid ∈ L)
    (h_planners : Piece.planners ∈ L)
    (h_arrs : Piece.arrs ∈ L)
    (h_stks : Piece.stks ∈ L)
    (h_yard : Piece.yard ∈ L)
    (h_retrain : Piece.retrain ∈ L)
    (h_exts : Piece.exts ∈ L)
    (h_leases : Piece.leases ∈ L)
    (h_lends : Piece.lends ∈ L)
    (h_accs : Piece.accs ∈ L)
    (h_nextTag : Piece.nextTag ∈ L)
    (h_parts : Piece.parts ∈ L)
    (h_kvs : Piece.kvs ∈ L)
    (h_lab : Piece.lab ∈ L)
    (h_scn : Piece.scn ∈ L)
    (h_col : Piece.col ∈ L)
    (h_ports : Piece.ports ∈ L)
    (h_ivs : Piece.ivs ∈ L)
    (h_hif : Piece.hif ∈ L)
    (h_chans : Piece.chans ∈ L)
    (h_sec : Piece.sec ∈ L)
    (h_secs : Piece.secs ∈ L)
    (h_secJobs : Piece.secJobs ∈ L)
    (h_lostFids : Piece.lostFids ∈ L)
    (h_mce : Piece.mce ∈ L)
    (h_evr : Piece.evr ∈ L)
    (h_out : Piece.out ∈ L) (h : Reach L a s) :
    Reach L a (cleared s) := by
  refine ⟨fun k hk => ?_, fun hc => ?_⟩
  · cases k <;> first
      | contradiction
      | exact absurd (h_regs _) hk
      | exact h.frame _ hk
  · exact ⟨rfl, rfl, rfl, (h.canon hc).flash, rfl, rfl, rfl, rfl, rfl, rfl, rfl, rfl, rfl,
      ⟨List.Pairwise.nil, fun _ hf => absurd hf List.not_mem_nil⟩⟩

theorem idleStep_reach {L a s x0} (h_clk_regs : Piece.regs .clk ∈ L) (h : Reach L a s) : Reach L a (idleStep x0 s) := by
  unfold idleStep
  with_reducible repeat'
    (first | assumption | intro _ | extract_lets | apply st_reach | apply Reach.foldl | apply Reach.ite | split |
      (dsimp +zetaDelta only))

theorem bootInstall_reach {L a s x0 x1 x2 x3} (h_pwr : Piece.pwr ∈ L) (h_yrd_regs : Piece.regs .yrd ∈ L)
    (h_mem_regs : Piece.regs .mem ∈ L) (h_lpd_regs : Piece.regs .lpd ∈ L) (h_mce_regs : Piece.regs .mce ∈ L)
    (h_sec_regs : Piece.regs .sec ∈ L) (h_ras_regs : Piece.regs .ras ∈ L) (h_evr_regs : Piece.regs .evr ∈ L)
    (h_boot_regs : Piece.regs .boot ∈ L) (h_mem : Piece.mem ∈ L) (h_flash : Piece.flash ∈ L) (h_yard : Piece.yard ∈ L)
    (h_accs : Piece.accs ∈ L) (h_nextTag : Piece.nextTag ∈ L) (h_ports : Piece.ports ∈ L) (h_sec : Piece.sec ∈ L)
    (h_mce : Piece.mce ∈ L) (h_evr : Piece.evr ∈ L) (h_freeCtr : Piece.freeCtr ∈ L) (h : Reach L a s) : Reach L a
    (bootInstall x0 x1 x2 x3 s) := by
  unfold bootInstall
  with_reducible repeat'
    (first | assumption | intro _ | extract_lets | apply writeReceipt_reach | apply tickFree_reach | apply flashPut_reach |
      apply bootResult_reach | apply Reach.foldl | apply Reach.ite | split | apply Reach.pwr | (dsimp +zetaDelta only))

theorem bootDo_reach {L a s x0 x1 x2 x3} (h_pwr : Piece.pwr ∈ L) (h_yrd_regs : Piece.regs .yrd ∈ L)
    (h_mem_regs : Piece.regs .mem ∈ L) (h_lpd_regs : Piece.regs .lpd ∈ L) (h_mce_regs : Piece.regs .mce ∈ L)
    (h_sec_regs : Piece.regs .sec ∈ L) (h_ras_regs : Piece.regs .ras ∈ L) (h_evr_regs : Piece.regs .evr ∈ L)
    (h_boot_regs : Piece.regs .boot ∈ L) (h_mem : Piece.mem ∈ L) (h_flash : Piece.flash ∈ L) (h_yard : Piece.yard ∈ L)
    (h_accs : Piece.accs ∈ L) (h_nextTag : Piece.nextTag ∈ L) (h_ports : Piece.ports ∈ L) (h_sec : Piece.sec ∈ L)
    (h_mce : Piece.mce ∈ L) (h_evr : Piece.evr ∈ L) (h_freeCtr : Piece.freeCtr ∈ L) (h : Reach L a s) : Reach L a
    (bootDo x0 x1 x2 x3 s) := by
  unfold bootDo
  with_reducible repeat'
    (first | assumption | intro _ | extract_lets | (refine ReachP.use (by assumption) ?_) | apply st_reach |
      apply bootResult_reach | apply bootInstall_reach | apply memRead_reach | apply ReachP.ite | apply ReachP.foldl |
      apply ReachP.out | apply Reach.foldl | apply Reach.ite | split | apply Reach.pwr | (simp only [ReachP.pair_iff]) |
      (dsimp +zetaDelta only))

theorem bootCommand_reach {L a s x0 x1} (h_pwr : Piece.pwr ∈ L) (h_yrd_regs : Piece.regs .yrd ∈ L)
    (h_mem_regs : Piece.regs .mem ∈ L) (h_lpd_regs : Piece.regs .lpd ∈ L) (h_mce_regs : Piece.regs .mce ∈ L)
    (h_sec_regs : Piece.regs .sec ∈ L) (h_ras_regs : Piece.regs .ras ∈ L) (h_evr_regs : Piece.regs .evr ∈ L)
    (h_boot_regs : Piece.regs .boot ∈ L) (h_mem : Piece.mem ∈ L) (h_flash : Piece.flash ∈ L) (h_yard : Piece.yard ∈ L)
    (h_accs : Piece.accs ∈ L) (h_nextTag : Piece.nextTag ∈ L) (h_ports : Piece.ports ∈ L) (h_sec : Piece.sec ∈ L)
    (h_mce : Piece.mce ∈ L) (h_evr : Piece.evr ∈ L) (h_freeCtr : Piece.freeCtr ∈ L) (h : Reach L a s) : Reach L a
    (bootCommand x0 x1 s) := by
  unfold bootCommand
  with_reducible repeat'
    (first | assumption | intro _ | extract_lets | apply st_reach | apply bootDo_reach | apply bootResult_reach |
      apply Reach.foldl | apply Reach.ite | split | (dsimp +zetaDelta only))

theorem thermalStop_reach {L a s} (h_pwr_regs : Piece.regs .pwr ∈ L) (h_clk_regs : Piece.regs .clk ∈ L)
    (h_ras_regs : Piece.regs .ras ∈ L) (h_evr_regs : Piece.regs .evr ∈ L) (h_evr : Piece.evr ∈ L) (h_freeCtr : Piece.freeCtr ∈ L)
    (h : Reach L a s) : Reach L a (thermalStop s) := by
  unfold thermalStop
  with_reducible repeat'
    (first | assumption | intro _ | extract_lets | apply st_reach | apply raiseDur_reach | apply moduleFail_reach |
      apply Reach.foldl | apply Reach.ite | split | (dsimp +zetaDelta only))

theorem stepTaken_reach {L a s x0 x1} (h_pwr : Piece.pwr ∈ L) (h_pwr_regs : Piece.regs .pwr ∈ L)
    (h_ras_regs : Piece.regs .ras ∈ L) (h_evr_regs : Piece.regs .evr ∈ L) (h_evr : Piece.evr ∈ L) (h_freeCtr : Piece.freeCtr ∈ L)
    (h : Reach L a s) : Reach L a (stepTaken x0 x1 s) := by
  unfold stepTaken
  with_reducible repeat'
    (first | assumption | intro _ | extract_lets | apply raiseDur_reach | apply inc_reach | apply wh_reach |
      apply Reach.foldl | apply Reach.ite | split | apply Reach.pwr | (dsimp +zetaDelta only))

theorem pointsDown_reach {L a s x0} (h_clk_regs : Piece.regs .clk ∈ L) (h : Reach L a s) : Reach L a (pointsDown x0 s) := by
  unfold pointsDown
  with_reducible repeat'
    (first | assumption | intro _ | extract_lets | apply st_reach | apply Reach.foldl | apply Reach.ite | split |
      (dsimp +zetaDelta only))

theorem downStep_reach {L a s x0 x1} (h_pwr : Piece.pwr ∈ L) (h_pwr_regs : Piece.regs .pwr ∈ L)
    (h_clk_regs : Piece.regs .clk ∈ L) (h_ras_regs : Piece.regs .ras ∈ L) (h_evr_regs : Piece.regs .evr ∈ L)
    (h_evr : Piece.evr ∈ L) (h_freeCtr : Piece.freeCtr ∈ L) (h : Reach L a s) : Reach L a (downStep x0 x1 s) := by
  unfold downStep
  with_reducible repeat'
    (first | assumption | intro _ | extract_lets | apply stepTaken_reach | apply st_reach | apply inc_reach |
      apply pointsDown_reach | apply overrideStep_reach | apply Reach.foldl | apply Reach.ite | split | (dsimp +zetaDelta only))

theorem limiterGo_reach {L a s x0 x1 x2} (h_pwr : Piece.pwr ∈ L) (h_pwr_regs : Piece.regs .pwr ∈ L)
    (h_clk_regs : Piece.regs .clk ∈ L) (h_ras_regs : Piece.regs .ras ∈ L) (h_evr_regs : Piece.regs .evr ∈ L)
    (h_evr : Piece.evr ∈ L) (h_freeCtr : Piece.freeCtr ∈ L) (h : Reach L a s) : Reach L a (limiterGo x0 x1 x2 s) := by
  unfold limiterGo
  with_reducible repeat'
    (first | assumption | intro _ | extract_lets | apply downStep_reach | apply measured_reach | apply Reach.foldl |
      apply Reach.ite | split | (dsimp +zetaDelta only))

theorem pointUp_reach {L a s x0} (h_clk_regs : Piece.regs .clk ∈ L) (h : Reach L a s) : Reach L a (pointUp x0 s) := by
  unfold pointUp
  with_reducible repeat'
    (first | assumption | intro _ | extract_lets | apply st_reach | apply Reach.foldl | apply Reach.ite | split |
      (dsimp +zetaDelta only))

theorem frameLeft_reach {L a s} (h_flash : Piece.flash ∈ L) (h : Reach L a s) : Reach L a (frameLeft s) := by
  unfold frameLeft
  with_reducible repeat'
    (first | assumption | intro _ | extract_lets | apply flashPut_reach | apply Reach.foldl | apply Reach.ite | split |
      (dsimp +zetaDelta only))

theorem resetAssert_reach {L a s} (h_pwr : Piece.pwr ∈ L) (h_regs : ∀ b, Piece.regs b ∈ L) (h_staged : Piece.staged ∈ L)
    (h_bus : Piece.bus ∈ L) (h_mem : Piece.mem ∈ L) (h_flash : Piece.flash ∈ L) (h_toks : Piece.toks ∈ L)
    (h_queues : Piece.queues ∈ L) (h_lastServed : Piece.lastServed ∈ L) (h_flights : Piece.flights ∈ L)
    (h_descriptors : Piece.descriptors ∈ L) (h_nextFid : Piece.nextFid ∈ L) (h_planners : Piece.planners ∈ L)
    (h_arrs : Piece.arrs ∈ L) (h_stks : Piece.stks ∈ L) (h_yard : Piece.yard ∈ L) (h_retrain : Piece.retrain ∈ L)
    (h_exts : Piece.exts ∈ L) (h_leases : Piece.leases ∈ L) (h_lends : Piece.lends ∈ L) (h_accs : Piece.accs ∈ L)
    (h_nextTag : Piece.nextTag ∈ L) (h_parts : Piece.parts ∈ L) (h_kvs : Piece.kvs ∈ L) (h_lab : Piece.lab ∈ L)
    (h_scn : Piece.scn ∈ L) (h_col : Piece.col ∈ L) (h_ports : Piece.ports ∈ L) (h_ivs : Piece.ivs ∈ L) (h_hif : Piece.hif ∈ L)
    (h_chans : Piece.chans ∈ L) (h_sec : Piece.sec ∈ L) (h_secs : Piece.secs ∈ L) (h_secJobs : Piece.secJobs ∈ L)
    (h_lostFids : Piece.lostFids ∈ L) (h_mce : Piece.mce ∈ L) (h_evr : Piece.evr ∈ L) (h_out : Piece.out ∈ L) (h : Reach L a s) :
    Reach L a (resetAssert s) := by
  unfold resetAssert
  with_reducible repeat'
    (first | assumption | intro _ | extract_lets | apply cleared_reach | apply frameLeft_reach | apply Reach.foldl |
      apply Reach.ite | split | apply h_regs | (dsimp +zetaDelta only))

theorem bootRetry_reach {L a s} (h_pwr : Piece.pwr ∈ L) (h_yrd_regs : Piece.regs .yrd ∈ L) (h_mem_regs : Piece.regs .mem ∈ L)
    (h_lpd_regs : Piece.regs .lpd ∈ L) (h_mce_regs : Piece.regs .mce ∈ L) (h_sec_regs : Piece.regs .sec ∈ L)
    (h_ras_regs : Piece.regs .ras ∈ L) (h_evr_regs : Piece.regs .evr ∈ L) (h_boot_regs : Piece.regs .boot ∈ L)
    (h_mem : Piece.mem ∈ L) (h_flash : Piece.flash ∈ L) (h_yard : Piece.yard ∈ L) (h_accs : Piece.accs ∈ L)
    (h_nextTag : Piece.nextTag ∈ L) (h_ports : Piece.ports ∈ L) (h_sec : Piece.sec ∈ L) (h_mce : Piece.mce ∈ L)
    (h_evr : Piece.evr ∈ L) (h_freeCtr : Piece.freeCtr ∈ L) (h : Reach L a s) : Reach L a (bootRetry s) := by
  unfold bootRetry
  with_reducible repeat'
    (first | assumption | intro _ | extract_lets | apply bootDo_reach | apply Reach.foldl | apply Reach.ite | split |
      apply Reach.pwr | (dsimp +zetaDelta only))

theorem undoStep_reach {L a s} (h_pwr : Piece.pwr ∈ L) (h_pwr_regs : Piece.regs .pwr ∈ L) (h_clk_regs : Piece.regs .clk ∈ L)
    (h : Reach L a s) : Reach L a (undoStep s) := by
  unfold undoStep
  with_reducible repeat'
    (first | assumption | intro _ | extract_lets | apply st_reach | apply inc_reach | apply pointUp_reach |
      apply Reach.foldl | apply Reach.ite | split | apply Reach.pwr | (dsimp +zetaDelta only))

theorem powerDown_reach {L a s} (h_pwr : Piece.pwr ∈ L) (h_flash : Piece.flash ∈ L) (h_evr : Piece.evr ∈ L)
    (h_freeCtr : Piece.freeCtr ∈ L) (h : Reach L a s) : Reach L a (powerDown s) := by
  unfold powerDown
  with_reducible repeat'
    (first | assumption | intro _ | extract_lets | apply powerFailFlush_reach | apply Reach.foldl | apply Reach.ite | split |
      apply Reach.pwr | (dsimp +zetaDelta only))

end Sys2Proof.Machine
end

