-- ==== Sys2Proof/Laws/ReachBus.lean ====
section
/-!
SUPPORT. What each operation of Machine/Bus.lean can change.
-/
namespace Sys2Proof.Machine

set_option linter.unusedTactic false
set_option linter.unreachableTactic false
set_option linter.unusedSimpArgs false

theorem portEnable_reach {L a s x0 x1} (h_hif_regs : Piece.regs .hif ∈ L) (h_mem_regs : Piece.regs .mem ∈ L)
    (h_fab_regs : Piece.regs .fab ∈ L) (h_col_regs : Piece.regs .col ∈ L) (h_ras_regs : Piece.regs .ras ∈ L)
    (h_evr_regs : Piece.regs .evr ∈ L) (h_mem : Piece.mem ∈ L) (h_flights : Piece.flights ∈ L) (h_arrs : Piece.arrs ∈ L)
    (h_stks : Piece.stks ∈ L) (h_retrain : Piece.retrain ∈ L) (h_leases : Piece.leases ∈ L) (h_accs : Piece.accs ∈ L)
    (h_col : Piece.col ∈ L) (h_ports : Piece.ports ∈ L) (h_hif : Piece.hif ∈ L) (h_chans : Piece.chans ∈ L)
    (h_lostFids : Piece.lostFids ∈ L) (h_evr : Piece.evr ∈ L) (h_out : Piece.out ∈ L) (h_freeCtr : Piece.freeCtr ∈ L)
    (h : Reach L a s) : Reach L a (portEnable x0 x1 s) := by
  unfold portEnable
  with_reducible repeat'
    (first | assumption | intro _ | extract_lets | apply fabEnable_reach | apply routesLost_reach | apply wh_reach |
      apply Reach.foldl | apply Reach.ite | split | (dsimp +zetaDelta only))

theorem commitStat_reach {L a s x0 x1 x2 x3} (h_x0 : Piece.regs x0.blk ∈ L) (h : Reach L a s) : Reach L a
    (commitStat x0 x1 x2 x3 s) := by
  unfold commitStat
  with_reducible repeat'
    (first | assumption | intro _ | extract_lets | apply st_reach | apply Reach.foldl | apply Reach.ite | split |
      (dsimp +zetaDelta only))

theorem refit_reach {L a s x0} (h_clk_regs : Piece.regs .clk ∈ L) (h : Reach L a s) : Reach L a (refit x0 s) := by
  unfold refit
  with_reducible repeat'
    (first | assumption | intro _ | extract_lets | apply st_reach | apply raisePoint_reach | apply Reach.foldl |
      apply Reach.ite | split | (dsimp +zetaDelta only))

theorem regWait_reach {L a s x0} (h_mem_regs : Piece.regs .mem ∈ L) (h_freeCtr : Piece.freeCtr ∈ L) (h : Reach L a s) : Reach
    L a (regWait x0 s) := by
  unfold regWait
  with_reducible repeat'
    (first | assumption | intro _ | extract_lets | apply inc_reach | apply tickFree_reach | apply Reach.foldl |
      apply Reach.ite | split | (dsimp +zetaDelta only))

theorem refitAll_reach {L a s x0} (h_clk_regs : Piece.regs .clk ∈ L) (h : Reach L a s) : Reach L a (refitAll x0 s) := by
  unfold refitAll
  with_reducible repeat'
    (first | assumption | intro _ | extract_lets | apply refit_reach | apply wh_reach | apply Reach.foldl | apply Reach.ite |
      split | (dsimp +zetaDelta only))

theorem waysChanged_reach {L a s x0} (h_mem : Piece.mem ∈ L) (h_yard : Piece.yard ∈ L) (h : Reach L a s) : Reach L a
    (waysChanged x0 s) := by
  unfold waysChanged
  with_reducible repeat'
    (first | assumption | intro _ | extract_lets | apply clearWay_reach | apply Reach.foldl | apply Reach.ite | split |
      (dsimp +zetaDelta only))

theorem grantArray_reach {L a s x0} (h_arr_regs : Piece.regs .arr ∈ L) (h_clk_regs : Piece.regs .clk ∈ L)
    (h_arrs : Piece.arrs ∈ L) (h : Reach L a s) : Reach L a (grantArray x0 s) := by
  unfold grantArray
  with_reducible repeat'
    (first | assumption | intro _ | extract_lets | apply st_reach | apply refit_reach | apply arrClearCnt_reach |
      apply Reach.foldl | apply Reach.ite | split | (dsimp +zetaDelta only))

theorem arraysChanged_reach {L a s x0 x1} (h_arr_regs : Piece.regs .arr ∈ L) (h_clk_regs : Piece.regs .clk ∈ L)
    (h_arrs : Piece.arrs ∈ L) (h_parts : Piece.parts ∈ L) (h : Reach L a s) : Reach L a (arraysChanged x0 x1 s) := by
  unfold arraysChanged
  with_reducible repeat'
    (first | assumption | intro _ | extract_lets | apply setPart_reach | apply refit_reach | apply grantArray_reach |
      apply Reach.foldl | apply Reach.ite | split | (dsimp +zetaDelta only))

theorem tokensChanged_reach {L a s x0 x1} (h_toks : Piece.toks ∈ L) (h : Reach L a s) : Reach L a (tokensChanged x0 x1 s) :=
    by
  unfold tokensChanged
  with_reducible repeat'
    (first | assumption | intro _ | extract_lets | apply passToken_reach | apply Reach.foldl | apply Reach.ite | split |
      (dsimp +zetaDelta only))

theorem pageChanged_reach {L a s x0 x1} (h_hif_regs : Piece.regs .hif ∈ L) (h_arr_regs : Piece.regs .arr ∈ L)
    (h_mem_regs : Piece.regs .mem ∈ L) (h_fab_regs : Piece.regs .fab ∈ L) (h_col_regs : Piece.regs .col ∈ L)
    (h_clk_regs : Piece.regs .clk ∈ L) (h_ras_regs : Piece.regs .ras ∈ L) (h_evr_regs : Piece.regs .evr ∈ L)
    (h_x1 : Piece.regs x1.blk ∈ L) (h_mem : Piece.mem ∈ L) (h_toks : Piece.toks ∈ L) (h_queues : Piece.queues ∈ L)
    (h_flights : Piece.flights ∈ L) (h_arrs : Piece.arrs ∈ L) (h_stks : Piece.stks ∈ L) (h_yard : Piece.yard ∈ L)
    (h_retrain : Piece.retrain ∈ L) (h_leases : Piece.leases ∈ L) (h_accs : Piece.accs ∈ L) (h_parts : Piece.parts ∈ L)
    (h_kvs : Piece.kvs ∈ L) (h_lab : Piece.lab ∈ L) (h_col : Piece.col ∈ L) (h_ports : Piece.ports ∈ L) (h_hif : Piece.hif ∈ L)
    (h_chans : Piece.chans ∈ L) (h_lostFids : Piece.lostFids ∈ L) (h_evr : Piece.evr ∈ L) (h_out : Piece.out ∈ L)
    (h_freeCtr : Piece.freeCtr ∈ L) (h : Reach L a s) : Reach L a (pageChanged x0 x1 s) := by
  unfold pageChanged
  with_reducible repeat'
    (first | assumption | intro _ | extract_lets | apply retrainPort_reach | apply refitAll_reach | apply askEnd_reach |
      apply waysChanged_reach | apply arraysChanged_reach | apply portEnable_reach | apply st_reach | apply endSession_reach |
      apply setKv_reach | apply setQu_reach | apply tokensChanged_reach | apply wh_reach | apply ReachP.ite |
      apply ReachP.foldl | apply ReachP.out | apply Reach.foldl | apply Reach.ite | split | apply Reach.lab |
      (simp only [ReachP.pair_iff]) | (dsimp +zetaDelta only))

theorem commit_reach {L a s x0} (h_hif_regs : Piece.regs .hif ∈ L) (h_arr_regs : Piece.regs .arr ∈ L)
    (h_mem_regs : Piece.regs .mem ∈ L) (h_fab_regs : Piece.regs .fab ∈ L) (h_col_regs : Piece.regs .col ∈ L)
    (h_clk_regs : Piece.regs .clk ∈ L) (h_ras_regs : Piece.regs .ras ∈ L) (h_evr_regs : Piece.regs .evr ∈ L)
    (h_x0 : Piece.regs x0.blk ∈ L) (h_mem : Piece.mem ∈ L) (h_toks : Piece.toks ∈ L) (h_queues : Piece.queues ∈ L)
    (h_flights : Piece.flights ∈ L) (h_arrs : Piece.arrs ∈ L) (h_stks : Piece.stks ∈ L) (h_yard : Piece.yard ∈ L)
    (h_retrain : Piece.retrain ∈ L) (h_leases : Piece.leases ∈ L) (h_accs : Piece.accs ∈ L) (h_parts : Piece.parts ∈ L)
    (h_kvs : Piece.kvs ∈ L) (h_lab : Piece.lab ∈ L) (h_col : Piece.col ∈ L) (h_ports : Piece.ports ∈ L) (h_hif : Piece.hif ∈ L)
    (h_chans : Piece.chans ∈ L) (h_lostFids : Piece.lostFids ∈ L) (h_evr : Piece.evr ∈ L) (h_out : Piece.out ∈ L)
    (h_freeCtr : Piece.freeCtr ∈ L) (h : Reach L a s) : ReachP L a (commit x0 s) := by
  unfold commit
  with_reducible repeat'
    (first | assumption | intro _ | extract_lets | apply regWait_reach | apply commitStat_reach | apply st_reach |
      apply inc_reach | apply pageChanged_reach | apply wh_reach | apply ReachP.ite | apply ReachP.foldl | apply ReachP.out |
      apply Reach.foldl | apply Reach.ite | split | (simp only [ReachP.pair_iff]) | (dsimp +zetaDelta only))

theorem onPage_reach {L a s x0 x1 x2} (h_bus : Piece.bus ∈ L) (hf : ∀ y0 t, Reach L a t → Reach L a (x2 y0 t))
    (h : Reach L a s) : Reach L a (onPage x0 x1 x2 s) := by
  unfold onPage
  with_reducible repeat'
    (first | assumption | intro _ | extract_lets | apply Reach.foldl | apply Reach.ite | split | apply hf | apply Reach.bus |
      (dsimp +zetaDelta only))

theorem ctrlWrite_reach {L a s x0 x1 x2} (h_hif_regs : Piece.regs .hif ∈ L) (h_mem_regs : Piece.regs .mem ∈ L)
    (h_fab_regs : Piece.regs .fab ∈ L) (h_col_regs : Piece.regs .col ∈ L) (h_ras_regs : Piece.regs .ras ∈ L)
    (h_evr_regs : Piece.regs .evr ∈ L) (h_x0 : Piece.regs x0.blk ∈ L) (h_mem : Piece.mem ∈ L) (h_flights : Piece.flights ∈ L)
    (h_arrs : Piece.arrs ∈ L) (h_stks : Piece.stks ∈ L) (h_retrain : Piece.retrain ∈ L) (h_leases : Piece.leases ∈ L)
    (h_accs : Piece.accs ∈ L) (h_col : Piece.col ∈ L) (h_ports : Piece.ports ∈ L) (h_hif : Piece.hif ∈ L)
    (h_chans : Piece.chans ∈ L) (h_lostFids : Piece.lostFids ∈ L) (h_evr : Piece.evr ∈ L) (h_out : Piece.out ∈ L)
    (h_freeCtr : Piece.freeCtr ∈ L) (h : Reach L a s) : Reach L a (ctrlWrite x0 x1 x2 s) := by
  unfold ctrlWrite
  with_reducible repeat'
    (first | assumption | intro _ | extract_lets | apply portEnable_reach | apply st_reach | apply Reach.foldl |
      apply Reach.ite | split | (dsimp +zetaDelta only))

theorem fieldWrite_reach {L a s x0 x1 x2} (h_x0 : Piece.regs x0.blk ∈ L) (h_staged : Piece.staged ∈ L) (h : Reach L a s) :
    Reach L a (fieldWrite x0 x1 x2 s) := by
  unfold fieldWrite
  with_reducible repeat'
    (first | assumption | intro _ | extract_lets | apply st_reach | apply Reach.foldl | apply Reach.ite | split |
      apply Reach.staged | apply tabWf_tabSet | apply tabWf_putBytes | apply tabWf_filter | (dsimp +zetaDelta only))

theorem actionWrite_reach {L a s x0 x1 x2 x3} (h_pwr : Piece.pwr ∈ L) (h_hif_regs : Piece.regs .hif ∈ L)
    (h_dsp_regs : Piece.regs .dsp ∈ L) (h_tpl_regs : Piece.regs .tpl ∈ L) (h_prt_regs : Piece.regs .prt ∈ L)
    (h_arr_regs : Piece.regs .arr ∈ L) (h_yrd_regs : Piece.regs .yrd ∈ L) (h_mem_regs : Piece.regs .mem ∈ L)
    (h_stk_regs : Piece.regs .stk ∈ L) (h_lpd_regs : Piece.regs .lpd ∈ L) (h_mce_regs : Piece.regs .mce ∈ L)
    (h_kvs_regs : Piece.regs .kvs ∈ L) (h_scn_regs : Piece.regs .scn ∈ L) (h_col_regs : Piece.regs .col ∈ L)
    (h_sec_regs : Piece.regs .sec ∈ L) (h_ras_regs : Piece.regs .ras ∈ L) (h_evr_regs : Piece.regs .evr ∈ L)
    (h_boot_regs : Piece.regs .boot ∈ L) (h_x0 : Piece.regs x0.blk ∈ L) (h_staged : Piece.staged ∈ L) (h_bus : Piece.bus ∈ L)
    (h_mem : Piece.mem ∈ L) (h_flash : Piece.flash ∈ L) (h_toks : Piece.toks ∈ L) (h_queues : Piece.queues ∈ L)
    (h_flights : Piece.flights ∈ L) (h_descriptors : Piece.descriptors ∈ L) (h_nextFid : Piece.nextFid ∈ L)
    (h_planners : Piece.planners ∈ L) (h_arrs : Piece.arrs ∈ L) (h_stks : Piece.stks ∈ L) (h_yard : Piece.yard ∈ L)
    (h_retrain : Piece.retrain ∈ L) (h_exts : Piece.exts ∈ L) (h_leases : Piece.leases ∈ L) (h_lends : Piece.lends ∈ L)
    (h_accs : Piece.accs ∈ L) (h_nextTag : Piece.nextTag ∈ L) (h_parts : Piece.parts ∈ L) (h_kvs : Piece.kvs ∈ L)
    (h_lab : Piece.lab ∈ L) (h_scn : Piece.scn ∈ L) (h_col : Piece.col ∈ L) (h_ports : Piece.ports ∈ L) (h_hif : Piece.hif ∈ L)
    (h_chans : Piece.chans ∈ L) (h_sec : Piece.sec ∈ L) (h_secs : Piece.secs ∈ L) (h_secJobs : Piece.secJobs ∈ L)
    (h_lostFids : Piece.lostFids ∈ L) (h_mce : Piece.mce ∈ L) (h_evr : Piece.evr ∈ L) (h_out : Piece.out ∈ L)
    (h_freeCtr : Piece.freeCtr ∈ L) (h : Reach L a s) : ReachO L a (fun x => x) (actionWrite x0 x1 x2 x3 s) := by
  unfold actionWrite
  with_reducible repeat'
    (first | assumption | intro _ | extract_lets | apply resumeQueue_reach | apply extCommand_reach | apply memReclaim_reach |
      apply tplReset_reach | apply flushQueue_reach | apply st_reach | apply scnCommand_reach | apply secCommand_reach |
      apply evrCommand_reach | apply tailWrite_reach | apply tickFree_reach | apply arrCtrl_reach | apply stkCtrl_reach |
      apply wh_reach | apply bootCommand_reach | apply kvCommand_reach | apply prtCommand_reach | apply colCommand_reach |
      apply runQueue_reach | apply ReachO.none | apply ReachO.some | apply Reach.foldl | apply Reach.ite | split |
      (dsimp +zetaDelta only))

theorem resetIgnored_reach {L a s x0} (h_ras_regs : Piece.regs .ras ∈ L) (h_evr_regs : Piece.regs .evr ∈ L)
    (h_evr : Piece.evr ∈ L) (h_freeCtr : Piece.freeCtr ∈ L) (h : Reach L a s) : Reach L a (resetIgnored x0 s) := by
  unfold resetIgnored
  with_reducible repeat'
    (first | assumption | intro _ | extract_lets | apply raise_reach | apply Reach.foldl | apply Reach.ite | split |
      (dsimp +zetaDelta only))

theorem resetPage_reach {L a s x0} (h_hif_regs : Piece.regs .hif ∈ L) (h_arr_regs : Piece.regs .arr ∈ L)
    (h_mem_regs : Piece.regs .mem ∈ L) (h_fab_regs : Piece.regs .fab ∈ L) (h_col_regs : Piece.regs .col ∈ L)
    (h_clk_regs : Piece.regs .clk ∈ L) (h_ras_regs : Piece.regs .ras ∈ L) (h_evr_regs : Piece.regs .evr ∈ L)
    (h_x0 : Piece.regs x0.blk ∈ L) (h_staged : Piece.staged ∈ L) (h_mem : Piece.mem ∈ L) (h_toks : Piece.toks ∈ L)
    (h_queues : Piece.queues ∈ L) (h_flights : Piece.flights ∈ L) (h_arrs : Piece.arrs ∈ L) (h_stks : Piece.stks ∈ L)
    (h_yard : Piece.yard ∈ L) (h_retrain : Piece.retrain ∈ L) (h_leases : Piece.leases ∈ L) (h_accs : Piece.accs ∈ L)
    (h_parts : Piece.parts ∈ L) (h_kvs : Piece.kvs ∈ L) (h_lab : Piece.lab ∈ L) (h_scn : Piece.scn ∈ L) (h_col : Piece.col ∈ L)
    (h_ports : Piece.ports ∈ L) (h_hif : Piece.hif ∈ L) (h_chans : Piece.chans ∈ L) (h_lostFids : Piece.lostFids ∈ L)
    (h_evr : Piece.evr ∈ L) (h_out : Piece.out ∈ L) (h_freeCtr : Piece.freeCtr ∈ L) (h : Reach L a s) : Reach L a (resetPage x0 s)
    := by
  unfold resetPage
  with_reducible repeat'
    (first | assumption | intro _ | extract_lets | apply resetRegs_reach | apply st_reach | apply setKv_reach |
      apply pageChanged_reach | apply setSc_reach | apply ReachP.ite | apply ReachP.foldl | apply ReachP.out |
      apply Reach.foldl | apply Reach.ite | split | apply Reach.lab | (simp only [ReachP.pair_iff]) | (dsimp +zetaDelta only))

theorem resetRequest_reach {L a s x0} (h_hif_regs : Piece.regs .hif ∈ L) (h_dsp_regs : Piece.regs .dsp ∈ L)
    (h_arr_regs : Piece.regs .arr ∈ L) (h_yrd_regs : Piece.regs .yrd ∈ L) (h_mem_regs : Piece.regs .mem ∈ L)
    (h_lpd_regs : Piece.regs .lpd ∈ L) (h_mce_regs : Piece.regs .mce ∈ L) (h_fab_regs : Piece.regs .fab ∈ L)
    (h_col_regs : Piece.regs .col ∈ L) (h_sec_regs : Piece.regs .sec ∈ L) (h_clk_regs : Piece.regs .clk ∈ L)
    (h_ras_regs : Piece.regs .ras ∈ L) (h_evr_regs : Piece.regs .evr ∈ L) (h_x0 : Piece.regs x0.blk ∈ L)
    (h_staged : Piece.staged ∈ L) (h_mem : Piece.mem ∈ L) (h_toks : Piece.toks ∈ L) (h_queues : Piece.queues ∈ L)
    (h_flights : Piece.flights ∈ L) (h_descriptors : Piece.descriptors ∈ L) (h_arrs : Piece.arrs ∈ L) (h_stks : Piece.stks ∈ L)
    (h_yard : Piece.yard ∈ L) (h_retrain : Piece.retrain ∈ L) (h_leases : Piece.leases ∈ L) (h_accs : Piece.accs ∈ L)
    (h_nextTag : Piece.nextTag ∈ L) (h_parts : Piece.parts ∈ L) (h_kvs : Piece.kvs ∈ L) (h_lab : Piece.lab ∈ L)
    (h_scn : Piece.scn ∈ L) (h_col : Piece.col ∈ L) (h_ports : Piece.ports ∈ L) (h_hif : Piece.hif ∈ L)
    (h_chans : Piece.chans ∈ L) (h_lostFids : Piece.lostFids ∈ L) (h_mce : Piece.mce ∈ L) (h_evr : Piece.evr ∈ L)
    (h_out : Piece.out ∈ L) (h_freeCtr : Piece.freeCtr ∈ L) (h : Reach L a s) : Reach L a (resetRequest x0 s) := by
  unfold resetRequest
  with_reducible repeat'
    (first | assumption | intro _ | extract_lets | apply resetPage_reach | apply askEnd_reach | apply flushQueue_reach |
      apply colCloseAll_reach | apply resetIgnored_reach | apply setQu_reach | apply Reach.foldl | apply Reach.ite | split |
      (dsimp +zetaDelta only))

theorem errWrite_reach {L a s x0 x1} (h_x0 : Piece.regs x0.blk ∈ L) (h : Reach L a s) : Reach L a (errWrite x0 x1 s) := by
  unfold errWrite
  with_reducible repeat'
    (first | assumption | intro _ | extract_lets | apply st_reach | apply clearErr_reach | apply wh_reach |
      apply Reach.foldl | apply Reach.ite | split | (dsimp +zetaDelta only))

theorem commonWrite_reach {L a s x0 x1 x2} (h_hif_regs : Piece.regs .hif ∈ L) (h_dsp_regs : Piece.regs .dsp ∈ L)
    (h_arr_regs : Piece.regs .arr ∈ L) (h_yrd_regs : Piece.regs .yrd ∈ L) (h_mem_regs : Piece.regs .mem ∈ L)
    (h_lpd_regs : Piece.regs .lpd ∈ L) (h_mce_regs : Piece.regs .mce ∈ L) (h_fab_regs : Piece.regs .fab ∈ L)
    (h_col_regs : Piece.regs .col ∈ L) (h_sec_regs : Piece.regs .sec ∈ L) (h_clk_regs : Piece.regs .clk ∈ L)
    (h_ras_regs : Piece.regs .ras ∈ L) (h_evr_regs : Piece.regs .evr ∈ L) (h_x0 : Piece.regs x0.blk ∈ L)
    (h_staged : Piece.staged ∈ L) (h_mem : Piece.mem ∈ L) (h_toks : Piece.toks ∈ L) (h_queues : Piece.queues ∈ L)
    (h_flights : Piece.flights ∈ L) (h_descriptors : Piece.descriptors ∈ L) (h_arrs : Piece.arrs ∈ L) (h_stks : Piece.stks ∈ L)
    (h_yard : Piece.yard ∈ L) (h_retrain : Piece.retrain ∈ L) (h_leases : Piece.leases ∈ L) (h_accs : Piece.accs ∈ L)
    (h_nextTag : Piece.nextTag ∈ L) (h_parts : Piece.parts ∈ L) (h_kvs : Piece.kvs ∈ L) (h_lab : Piece.lab ∈ L)
    (h_scn : Piece.scn ∈ L) (h_col : Piece.col ∈ L) (h_ports : Piece.ports ∈ L) (h_hif : Piece.hif ∈ L)
    (h_chans : Piece.chans ∈ L) (h_lostFids : Piece.lostFids ∈ L) (h_mce : Piece.mce ∈ L) (h_evr : Piece.evr ∈ L)
    (h_out : Piece.out ∈ L) (h_freeCtr : Piece.freeCtr ∈ L) (h : Reach L a s) : Reach L a (commonWrite x0 x1 x2 s) := by
  unfold commonWrite
  with_reducible repeat'
    (first | assumption | intro _ | extract_lets | (refine ReachP.use (by assumption) ?_) | apply resetRequest_reach |
      apply commit_reach | apply st_reach | apply errWrite_reach | apply wh_reach | apply ctrlWrite_reach | apply ReachP.ite |
      apply ReachP.foldl | apply ReachP.out | apply Reach.foldl | apply Reach.ite | split | (simp only [ReachP.pair_iff]) |
      (dsimp +zetaDelta only))

theorem pageWrite_reach {L a s x0 x1 x2 x3} (h_pwr : Piece.pwr ∈ L) (h_hif_regs : Piece.regs .hif ∈ L)
    (h_dsp_regs : Piece.regs .dsp ∈ L) (h_tpl_regs : Piece.regs .tpl ∈ L) (h_prt_regs : Piece.regs .prt ∈ L)
    (h_arr_regs : Piece.regs .arr ∈ L) (h_yrd_regs : Piece.regs .yrd ∈ L) (h_mem_regs : Piece.regs .mem ∈ L)
    (h_stk_regs : Piece.regs .stk ∈ L) (h_lpd_regs : Piece.regs .lpd ∈ L) (h_mce_regs : Piece.regs .mce ∈ L)
    (h_kvs_regs : Piece.regs .kvs ∈ L) (h_scn_regs : Piece.regs .scn ∈ L) (h_fab_regs : Piece.regs .fab ∈ L)
    (h_col_regs : Piece.regs .col ∈ L) (h_sec_regs : Piece.regs .sec ∈ L) (h_clk_regs : Piece.regs .clk ∈ L)
    (h_ras_regs : Piece.regs .ras ∈ L) (h_evr_regs : Piece.regs .evr ∈ L) (h_boot_regs : Piece.regs .boot ∈ L)
    (h_x0 : Piece.regs x0.blk ∈ L) (h_staged : Piece.staged ∈ L) (h_bus : Piece.bus ∈ L) (h_mem : Piece.mem ∈ L)
    (h_flash : Piece.flash ∈ L) (h_toks : Piece.toks ∈ L) (h_queues : Piece.queues ∈ L) (h_flights : Piece.flights ∈ L)
    (h_descriptors : Piece.descriptors ∈ L) (h_nextFid : Piece.nextFid ∈ L) (h_planners : Piece.planners ∈ L)
    (h_arrs : Piece.arrs ∈ L) (h_stks : Piece.stks ∈ L) (h_yard : Piece.yard ∈ L) (h_retrain : Piece.retrain ∈ L)
    (h_exts : Piece.exts ∈ L) (h_leases : Piece.leases ∈ L) (h_lends : Piece.lends ∈ L) (h_accs : Piece.accs ∈ L)
    (h_nextTag : Piece.nextTag ∈ L) (h_parts : Piece.parts ∈ L) (h_kvs : Piece.kvs ∈ L) (h_lab : Piece.lab ∈ L)
    (h_scn : Piece.scn ∈ L) (h_col : Piece.col ∈ L) (h_ports : Piece.ports ∈ L) (h_hif : Piece.hif ∈ L)
    (h_chans : Piece.chans ∈ L) (h_sec : Piece.sec ∈ L) (h_secs : Piece.secs ∈ L) (h_secJobs : Piece.secJobs ∈ L)
    (h_lostFids : Piece.lostFids ∈ L) (h_mce : Piece.mce ∈ L) (h_evr : Piece.evr ∈ L) (h_out : Piece.out ∈ L)
    (h_freeCtr : Piece.freeCtr ∈ L) (h : Reach L a s) : Reach L a (pageWrite x0 x1 x2 x3 s) := by
  unfold pageWrite
  with_reducible repeat'
    (first | assumption | intro _ | extract_lets | apply commonWrite_reach | apply fieldWrite_reach |
      (refine ReachO.use (by assumption) ?_) | apply actionWrite_reach | apply Reach.foldl | apply Reach.ite | split |
      (dsimp +zetaDelta only))

theorem tokenBus_reach {L a s x0 x1} (h_tok_regs : Piece.regs .tok ∈ L) (h_ras_regs : Piece.regs .ras ∈ L)
    (h_evr_regs : Piece.regs .evr ∈ L) (h_bus : Piece.bus ∈ L) (h_toks : Piece.toks ∈ L) (h_flights : Piece.flights ∈ L)
    (h_evr : Piece.evr ∈ L) (h_freeCtr : Piece.freeCtr ∈ L) (h : Reach L a s) : Reach L a (tokenBus x0 x1 s) := by
  unfold tokenBus
  with_reducible repeat'
    (first | assumption | intro _ | extract_lets | apply tokAccess_reach | apply tokRefuse_reach | apply Reach.foldl |
      apply Reach.ite | split | apply Reach.bus | (dsimp +zetaDelta only))

theorem access_reach {L a s x0 x1} (h_pwr : Piece.pwr ∈ L) (h_regs : ∀ b, Piece.regs b ∈ L) (h_staged : Piece.staged ∈ L)
    (h_bus : Piece.bus ∈ L) (h_mem : Piece.mem ∈ L) (h_flash : Piece.flash ∈ L) (h_toks : Piece.toks ∈ L)
    (h_queues : Piece.queues ∈ L) (h_flights : Piece.flights ∈ L) (h_descriptors : Piece.descriptors ∈ L)
    (h_nextFid : Piece.nextFid ∈ L) (h_planners : Piece.planners ∈ L) (h_arrs : Piece.arrs ∈ L) (h_stks : Piece.stks ∈ L)
    (h_yard : Piece.yard ∈ L) (h_retrain : Piece.retrain ∈ L) (h_exts : Piece.exts ∈ L) (h_leases : Piece.leases ∈ L)
    (h_lends : Piece.lends ∈ L) (h_accs : Piece.accs ∈ L) (h_nextTag : Piece.nextTag ∈ L) (h_parts : Piece.parts ∈ L)
    (h_kvs : Piece.kvs ∈ L) (h_lab : Piece.lab ∈ L) (h_scn : Piece.scn ∈ L) (h_col : Piece.col ∈ L) (h_ports : Piece.ports ∈ L)
    (h_hif : Piece.hif ∈ L) (h_chans : Piece.chans ∈ L) (h_sec : Piece.sec ∈ L) (h_secs : Piece.secs ∈ L)
    (h_secJobs : Piece.secJobs ∈ L) (h_lostFids : Piece.lostFids ∈ L) (h_mce : Piece.mce ∈ L) (h_evr : Piece.evr ∈ L)
    (h_out : Piece.out ∈ L) (h_freeCtr : Piece.freeCtr ∈ L) (h : Reach L a s) : Reach L a (access x0 x1 s) := by
  unfold access
  with_reducible repeat'
    (first | assumption | intro _ | extract_lets | apply regWait_reach | apply pageWrite_reach | apply tokenBus_reach |
      apply atDone_reach | apply wh_reach | apply Reach.foldl | apply Reach.ite | split | apply Reach.bus | apply h_regs |
      (dsimp +zetaDelta only))

end Sys2Proof.Machine
end

