-- ==== Sys2Proof/Laws/ReachBoot.lean ====
section
/-!
SUPPORT. What each operation of Machine/Boot.lean can change.
-/
namespace Sys2Proof.Machine

set_option linter.unusedTactic false
set_option linter.unreachableTactic false
set_option linter.unusedSimpArgs false

theorem bootStep_reach {L a s x0} (h_boot_regs : Piece.regs .boot ∈ L) (h : Reach L a s) : Reach L a (bootStep x0 s) := by
  unfold bootStep
  with_reducible repeat'
    (first | assumption | intro _ | extract_lets | apply st_reach | apply Reach.foldl | apply Reach.ite | split |
      (dsimp +zetaDelta only))

theorem bootFailed_reach {L a s x0} (h_pwr : Piece.pwr ∈ L) (h_ras_regs : Piece.regs .ras ∈ L)
    (h_evr_regs : Piece.regs .evr ∈ L) (h_boot_regs : Piece.regs .boot ∈ L) (h_evr : Piece.evr ∈ L)
    (h_freeCtr : Piece.freeCtr ∈ L) (h : Reach L a s) : Reach L a (bootFailed x0 s) := by
  unfold bootFailed
  with_reducible repeat'
    (first | assumption | intro _ | extract_lets | apply bootStep_reach | apply st_reach | apply raise_reach |
      apply Reach.foldl | apply Reach.ite | split | apply Reach.pwr | (dsimp +zetaDelta only))

theorem showImages_reach {L a s x0 x1} (h_boot_regs : Piece.regs .boot ∈ L) (h : Reach L a s) : Reach L a (showImages x0 x1 s)
    := by
  unfold showImages
  with_reducible repeat'
    (first | assumption | intro _ | extract_lets | apply st_reach | apply Reach.foldl | apply Reach.ite | split |
      (dsimp +zetaDelta only))

theorem loadInventory_reach {L a s} (h_dev_regs : Piece.regs .dev ∈ L) (h : Reach L a s) : Reach L a (loadInventory s) := by
  unfold loadInventory
  with_reducible repeat'
    (first | assumption | intro _ | extract_lets | apply st_reach | apply Reach.foldl | apply Reach.ite | split |
      (dsimp +zetaDelta only))

theorem bootFinish_reach {L a s x0} (h_pwr : Piece.pwr ∈ L) (h_dev_regs : Piece.regs .dev ∈ L)
    (h_sec_regs : Piece.regs .sec ∈ L) (h_clk_regs : Piece.regs .clk ∈ L) (h_ras_regs : Piece.regs .ras ∈ L)
    (h_evr_regs : Piece.regs .evr ∈ L) (h_boot_regs : Piece.regs .boot ∈ L) (h_mem : Piece.mem ∈ L) (h_sec : Piece.sec ∈ L)
    (h_secs : Piece.secs ∈ L) (h_evr : Piece.evr ∈ L) (h_freeCtr : Piece.freeCtr ∈ L) (h : Reach L a s) : Reach L a
    (bootFinish x0 s) := by
  unfold bootFinish
  with_reducible repeat'
    (first | assumption | intro _ | extract_lets | apply bootStep_reach | apply bootFailed_reach | apply st_reach |
      apply zeroFill_reach | apply createKeys_reach | apply loadInventory_reach | apply raisePoint_reach | apply Reach.foldl |
      apply Reach.ite | split | apply Reach.pwr | (dsimp +zetaDelta only))

theorem testArray_reach {L a s x0 x1} (h_arr_regs : Piece.regs .arr ∈ L) (h_ras_regs : Piece.regs .ras ∈ L)
    (h_evr_regs : Piece.regs .evr ∈ L) (h_evr : Piece.evr ∈ L) (h_freeCtr : Piece.freeCtr ∈ L) (h : Reach L a s) : Reach L a
    (testArray x0 x1 s) := by
  unfold testArray
  with_reducible repeat'
    (first | assumption | intro _ | extract_lets | apply st_reach | apply moduleFail_reach | apply wh_reach |
      apply Reach.foldl | apply Reach.ite | split | (dsimp +zetaDelta only))

theorem startPort_reach {L a s x0 x1} (h_fab_regs : Piece.regs .fab ∈ L) (h_ports : Piece.ports ∈ L) (h : Reach L a s) : Reach
    L a (startPort x0 x1 s) := by
  unfold startPort
  with_reducible repeat'
    (first | assumption | intro _ | extract_lets | apply fabEnable_reach | apply st_reach | apply wh_reach |
      apply setPort_reach | apply Reach.foldl | apply Reach.ite | split | (dsimp +zetaDelta only))

theorem portShort_reach {L a s} (h_ras_regs : Piece.regs .ras ∈ L) (h : Reach L a s) : Reach L a (portShort s) := by
  unfold portShort
  with_reducible repeat'
    (first | assumption | intro _ | extract_lets | apply st_reach | apply wh_reach | apply Reach.foldl | apply Reach.ite |
      split | (dsimp +zetaDelta only))

theorem trainStack_reach {L a s x0 x1} (h_mem_regs : Piece.regs .mem ∈ L) (h_ras_regs : Piece.regs .ras ∈ L)
    (h_evr_regs : Piece.regs .evr ∈ L) (h_exts : Piece.exts ∈ L) (h_evr : Piece.evr ∈ L) (h_freeCtr : Piece.freeCtr ∈ L)
    (h : Reach L a s) : Reach L a (trainStack x0 x1 s) := by
  unfold trainStack
  with_reducible repeat'
    (first | assumption | intro _ | extract_lets | apply st_reach | apply moduleFail_reach | apply setExt_reach |
      apply Reach.foldl | apply Reach.ite | split | (dsimp +zetaDelta only))

theorem trainPkg_reach {L a s x0 x1} (h_lpd_regs : Piece.regs .lpd ∈ L) (h_ras_regs : Piece.regs .ras ∈ L)
    (h_evr_regs : Piece.regs .evr ∈ L) (h_exts : Piece.exts ∈ L) (h_evr : Piece.evr ∈ L) (h_freeCtr : Piece.freeCtr ∈ L)
    (h : Reach L a s) : Reach L a (trainPkg x0 x1 s) := by
  unfold trainPkg
  with_reducible repeat'
    (first | assumption | intro _ | extract_lets | apply st_reach | apply moduleFail_reach | apply setExt_reach |
      apply Reach.foldl | apply Reach.ite | split | (dsimp +zetaDelta only))

theorem trainAll_reach {L a s x0} (h_pwr : Piece.pwr ∈ L) (h_arr_regs : Piece.regs .arr ∈ L)
    (h_mem_regs : Piece.regs .mem ∈ L) (h_lpd_regs : Piece.regs .lpd ∈ L) (h_fab_regs : Piece.regs .fab ∈ L)
    (h_ras_regs : Piece.regs .ras ∈ L) (h_evr_regs : Piece.regs .evr ∈ L) (h_exts : Piece.exts ∈ L) (h_ports : Piece.ports ∈ L)
    (h_evr : Piece.evr ∈ L) (h_freeCtr : Piece.freeCtr ∈ L) (h : Reach L a s) : Reach L a (trainAll x0 s) := by
  unfold trainAll
  with_reducible repeat'
    (first | assumption | intro _ | extract_lets | apply testArray_reach | apply startPort_reach | apply portShort_reach |
      apply trainStack_reach | apply trainPkg_reach | apply Reach.foldl | apply Reach.ite | split | apply Reach.pwr |
      (dsimp +zetaDelta only))

theorem commitPages_reach {L a s x0} (h_regs : ∀ b, Piece.regs b ∈ L) (h_mem : Piece.mem ∈ L) (h_toks : Piece.toks ∈ L)
    (h_queues : Piece.queues ∈ L) (h_flights : Piece.flights ∈ L) (h_arrs : Piece.arrs ∈ L) (h_stks : Piece.stks ∈ L)
    (h_yard : Piece.yard ∈ L) (h_retrain : Piece.retrain ∈ L) (h_leases : Piece.leases ∈ L) (h_accs : Piece.accs ∈ L)
    (h_parts : Piece.parts ∈ L) (h_kvs : Piece.kvs ∈ L) (h_lab : Piece.lab ∈ L) (h_col : Piece.col ∈ L)
    (h_ports : Piece.ports ∈ L) (h_hif : Piece.hif ∈ L) (h_chans : Piece.chans ∈ L) (h_lostFids : Piece.lostFids ∈ L)
    (h_evr : Piece.evr ∈ L) (h_out : Piece.out ∈ L) (h_freeCtr : Piece.freeCtr ∈ L) (h : Reach L a s) : ReachP L a
    (commitPages x0 s) := by
  induction x0 generalizing s
  case nil =>
    rw [commitPages]
    with_reducible repeat'
      (first | assumption | apply ih | intro _ | extract_lets | (refine ReachP.use (by assumption) ?_) | apply commit_reach |
        apply ReachP.ite | apply ReachP.foldl | apply ReachP.out | apply Reach.foldl | apply Reach.ite | split |
        (simp only [ReachP.pair_iff]) | apply h_regs | (dsimp +zetaDelta only))
  case cons x r ih =>
    rw [commitPages]
    with_reducible repeat'
      (first | assumption | apply ih | intro _ | extract_lets | (refine ReachP.use (by assumption) ?_) | apply commit_reach |
        apply ReachP.ite | apply ReachP.foldl | apply ReachP.out | apply Reach.foldl | apply Reach.ite | split |
        (simp only [ReachP.pair_iff]) | apply h_regs | (dsimp +zetaDelta only))

theorem applyRecords_reach {L a s x0 x1} (h_pwr : Piece.pwr ∈ L) (h_regs : ∀ b, Piece.regs b ∈ L)
    (h_staged : Piece.staged ∈ L) (h_bus : Piece.bus ∈ L) (h_mem : Piece.mem ∈ L) (h_flash : Piece.flash ∈ L)
    (h_toks : Piece.toks ∈ L) (h_queues : Piece.queues ∈ L) (h_flights : Piece.flights ∈ L)
    (h_descriptors : Piece.descriptors ∈ L) (h_nextFid : Piece.nextFid ∈ L) (h_planners : Piece.planners ∈ L)
    (h_arrs : Piece.arrs ∈ L) (h_stks : Piece.stks ∈ L) (h_yard : Piece.yard ∈ L) (h_retrain : Piece.retrain ∈ L)
    (h_exts : Piece.exts ∈ L) (h_leases : Piece.leases ∈ L) (h_lends : Piece.lends ∈ L) (h_accs : Piece.accs ∈ L)
    (h_nextTag : Piece.nextTag ∈ L) (h_parts : Piece.parts ∈ L) (h_kvs : Piece.kvs ∈ L) (h_lab : Piece.lab ∈ L)
    (h_scn : Piece.scn ∈ L) (h_col : Piece.col ∈ L) (h_ports : Piece.ports ∈ L) (h_hif : Piece.hif ∈ L)
    (h_chans : Piece.chans ∈ L) (h_sec : Piece.sec ∈ L) (h_secs : Piece.secs ∈ L) (h_secJobs : Piece.secJobs ∈ L)
    (h_lostFids : Piece.lostFids ∈ L) (h_mce : Piece.mce ∈ L) (h_evr : Piece.evr ∈ L) (h_out : Piece.out ∈ L)
    (h_freeCtr : Piece.freeCtr ∈ L) (h : Reach L a s) : ReachP L a (applyRecords x0 x1 s) := by
  induction x1 generalizing x0 s
  case nil =>
    rw [applyRecords]
    with_reducible repeat'
      (first | assumption | apply ih | intro _ | extract_lets | apply pageWrite_reach | apply ReachP.ite |
        apply ReachP.foldl | apply ReachP.out | apply Reach.foldl | apply Reach.ite | split | (simp only [ReachP.pair_iff]) |
        apply h_regs | (dsimp +zetaDelta only))
  case cons x r ih =>
    rw [applyRecords]
    with_reducible repeat'
      (first | assumption | apply ih | intro _ | extract_lets | apply pageWrite_reach | apply ReachP.ite |
        apply ReachP.foldl | apply ReachP.out | apply Reach.foldl | apply Reach.ite | split | (simp only [ReachP.pair_iff]) |
        apply h_regs | (dsimp +zetaDelta only))

theorem applyImage_reach {L a s x0} (h_pwr : Piece.pwr ∈ L) (h_regs : ∀ b, Piece.regs b ∈ L) (h_staged : Piece.staged ∈ L)
    (h_bus : Piece.bus ∈ L) (h_mem : Piece.mem ∈ L) (h_flash : Piece.flash ∈ L) (h_toks : Piece.toks ∈ L)
    (h_queues : Piece.queues ∈ L) (h_flights : Piece.flights ∈ L) (h_descriptors : Piece.descriptors ∈ L)
    (h_nextFid : Piece.nextFid ∈ L) (h_planners : Piece.planners ∈ L) (h_arrs : Piece.arrs ∈ L) (h_stks : Piece.stks ∈ L)
    (h_yard : Piece.yard ∈ L) (h_retrain : Piece.retrain ∈ L) (h_exts : Piece.exts ∈ L) (h_leases : Piece.leases ∈ L)
    (h_lends : Piece.lends ∈ L) (h_accs : Piece.accs ∈ L) (h_nextTag : Piece.nextTag ∈ L) (h_parts : Piece.parts ∈ L)
    (h_kvs : Piece.kvs ∈ L) (h_lab : Piece.lab ∈ L) (h_scn : Piece.scn ∈ L) (h_col : Piece.col ∈ L) (h_ports : Piece.ports ∈ L)
    (h_hif : Piece.hif ∈ L) (h_chans : Piece.chans ∈ L) (h_sec : Piece.sec ∈ L) (h_secs : Piece.secs ∈ L)
    (h_secJobs : Piece.secJobs ∈ L) (h_lostFids : Piece.lostFids ∈ L) (h_mce : Piece.mce ∈ L) (h_evr : Piece.evr ∈ L)
    (h_out : Piece.out ∈ L) (h_freeCtr : Piece.freeCtr ∈ L) (h : Reach L a s) : ReachP L a (applyImage x0 s) := by
  unfold applyImage
  with_reducible repeat'
    (first | assumption | intro _ | extract_lets | (refine ReachP.use (by assumption) ?_) | apply commitPages_reach |
      apply applyRecords_reach | apply ReachP.ite | apply ReachP.foldl | apply ReachP.out | apply Reach.foldl |
      apply Reach.ite | split | (simp only [ReachP.pair_iff]) | apply h_regs | (dsimp +zetaDelta only))

theorem bootAttempt_reach {L a s x0} (h_pwr : Piece.pwr ∈ L) (h_regs : ∀ b, Piece.regs b ∈ L) (h_staged : Piece.staged ∈ L)
    (h_bus : Piece.bus ∈ L) (h_mem : Piece.mem ∈ L) (h_flash : Piece.flash ∈ L) (h_toks : Piece.toks ∈ L)
    (h_queues : Piece.queues ∈ L) (h_flights : Piece.flights ∈ L) (h_descriptors : Piece.descriptors ∈ L)
    (h_nextFid : Piece.nextFid ∈ L) (h_planners : Piece.planners ∈ L) (h_arrs : Piece.arrs ∈ L) (h_stks : Piece.stks ∈ L)
    (h_yard : Piece.yard ∈ L) (h_retrain : Piece.retrain ∈ L) (h_exts : Piece.exts ∈ L) (h_leases : Piece.leases ∈ L)
    (h_lends : Piece.lends ∈ L) (h_accs : Piece.accs ∈ L) (h_nextTag : Piece.nextTag ∈ L) (h_parts : Piece.parts ∈ L)
    (h_kvs : Piece.kvs ∈ L) (h_lab : Piece.lab ∈ L) (h_scn : Piece.scn ∈ L) (h_col : Piece.col ∈ L) (h_ports : Piece.ports ∈ L)
    (h_hif : Piece.hif ∈ L) (h_chans : Piece.chans ∈ L) (h_sec : Piece.sec ∈ L) (h_secs : Piece.secs ∈ L)
    (h_secJobs : Piece.secJobs ∈ L) (h_lostFids : Piece.lostFids ∈ L) (h_mce : Piece.mce ∈ L) (h_evr : Piece.evr ∈ L)
    (h_out : Piece.out ∈ L) (h_freeCtr : Piece.freeCtr ∈ L) (h : Reach L a s) : Reach L a (bootAttempt x0 s) := by
  unfold bootAttempt
  with_reducible repeat'
    (first | assumption | intro _ | extract_lets | (refine ReachP.use (by assumption) ?_) | apply bootFailed_reach |
      apply st_reach | apply showImages_reach | apply inc_reach | apply bootFinish_reach | apply trainAll_reach |
      apply applyImage_reach | apply ReachP.ite | apply ReachP.foldl | apply ReachP.out | apply Reach.foldl | apply Reach.ite |
      split | apply Reach.pwr | (simp only [ReachP.pair_iff]) | apply h_regs | (dsimp +zetaDelta only))

theorem backoffEnd_reach {L a s x0} (h_pwr : Piece.pwr ∈ L) (h_regs : ∀ b, Piece.regs b ∈ L) (h_staged : Piece.staged ∈ L)
    (h_bus : Piece.bus ∈ L) (h_mem : Piece.mem ∈ L) (h_flash : Piece.flash ∈ L) (h_toks : Piece.toks ∈ L)
    (h_queues : Piece.queues ∈ L) (h_flights : Piece.flights ∈ L) (h_descriptors : Piece.descriptors ∈ L)
    (h_nextFid : Piece.nextFid ∈ L) (h_planners : Piece.planners ∈ L) (h_arrs : Piece.arrs ∈ L) (h_stks : Piece.stks ∈ L)
    (h_yard : Piece.yard ∈ L) (h_retrain : Piece.retrain ∈ L) (h_exts : Piece.exts ∈ L) (h_leases : Piece.leases ∈ L)
    (h_lends : Piece.lends ∈ L) (h_accs : Piece.accs ∈ L) (h_nextTag : Piece.nextTag ∈ L) (h_parts : Piece.parts ∈ L)
    (h_kvs : Piece.kvs ∈ L) (h_lab : Piece.lab ∈ L) (h_scn : Piece.scn ∈ L) (h_col : Piece.col ∈ L) (h_ports : Piece.ports ∈ L)
    (h_hif : Piece.hif ∈ L) (h_chans : Piece.chans ∈ L) (h_sec : Piece.sec ∈ L) (h_secs : Piece.secs ∈ L)
    (h_secJobs : Piece.secJobs ∈ L) (h_lostFids : Piece.lostFids ∈ L) (h_mce : Piece.mce ∈ L) (h_evr : Piece.evr ∈ L)
    (h_out : Piece.out ∈ L) (h_freeCtr : Piece.freeCtr ∈ L) (h : Reach L a s) : Reach L a (backoffEnd x0 s) := by
  unfold backoffEnd
  with_reducible repeat'
    (first | assumption | intro _ | extract_lets | apply bootAttempt_reach | apply Reach.foldl | apply Reach.ite | split |
      apply h_regs | (dsimp +zetaDelta only))

theorem bootKeys_reach {L a s} (h_sec_regs : Piece.regs .sec ∈ L) (h_ras_regs : Piece.regs .ras ∈ L)
    (h_evr_regs : Piece.regs .evr ∈ L) (h_sec : Piece.sec ∈ L) (h_evr : Piece.evr ∈ L) (h_freeCtr : Piece.freeCtr ∈ L)
    (h : Reach L a s) : Reach L a (bootKeys s) := by
  unfold bootKeys
  with_reducible repeat'
    (first | assumption | intro _ | extract_lets | (refine ReachP.ofPair (by assumption) ?_) | apply newKeySet_reach |
      apply drbgKey_reach | apply drbgTake_reach | apply signBy_reach | apply ReachP.ite | apply ReachP.foldl |
      apply ReachP.out | apply Reach.foldl | apply Reach.ite | split | apply Reach.sec | (simp only [ReachP.pair_iff]) |
      (dsimp +zetaDelta only))

theorem loadFuses_reach {L a s x0} (h_dev_regs : Piece.regs .dev ∈ L) (h_hif_regs : Piece.regs .hif ∈ L)
    (h_staged : Piece.staged ∈ L) (h : Reach L a s) : Reach L a (loadFuses x0 s) := by
  unfold loadFuses
  with_reducible repeat'
    (first | assumption | intro _ | extract_lets | apply st_reach | apply stRws_reach | apply Reach.foldl | apply Reach.ite |
      split | (dsimp +zetaDelta only))

theorem bootOne_reach {L a s x0} (h_pwr : Piece.pwr ∈ L) (h_dev_regs : Piece.regs .dev ∈ L) (h_hif_regs : Piece.regs .hif ∈ L)
    (h_staged : Piece.staged ∈ L) (h_evr : Piece.evr ∈ L) (h : Reach L a s) : Reach L a (bootOne x0 s) := by
  unfold bootOne
  with_reducible repeat'
    (first | assumption | intro _ | extract_lets | apply st_reach | apply evrBoot_reach | apply loadInventory_reach |
      apply loadFuses_reach | apply Reach.foldl | apply Reach.ite | split | apply Reach.pwr | (dsimp +zetaDelta only))

theorem powerOn_reach {L a s x0 x1 x2} (h_pwr : Piece.pwr ∈ L) (h_regs : ∀ b, Piece.regs b ∈ L) (h_staged : Piece.staged ∈ L)
    (h_bus : Piece.bus ∈ L) (h_mem : Piece.mem ∈ L) (h_flash : Piece.flash ∈ L) (h_toks : Piece.toks ∈ L)
    (h_queues : Piece.queues ∈ L) (h_flights : Piece.flights ∈ L) (h_descriptors : Piece.descriptors ∈ L)
    (h_nextFid : Piece.nextFid ∈ L) (h_planners : Piece.planners ∈ L) (h_arrs : Piece.arrs ∈ L) (h_stks : Piece.stks ∈ L)
    (h_yard : Piece.yard ∈ L) (h_retrain : Piece.retrain ∈ L) (h_exts : Piece.exts ∈ L) (h_leases : Piece.leases ∈ L)
    (h_lends : Piece.lends ∈ L) (h_accs : Piece.accs ∈ L) (h_nextTag : Piece.nextTag ∈ L) (h_parts : Piece.parts ∈ L)
    (h_kvs : Piece.kvs ∈ L) (h_lab : Piece.lab ∈ L) (h_scn : Piece.scn ∈ L) (h_col : Piece.col ∈ L) (h_ports : Piece.ports ∈ L)
    (h_hif : Piece.hif ∈ L) (h_chans : Piece.chans ∈ L) (h_sec : Piece.sec ∈ L) (h_secs : Piece.secs ∈ L)
    (h_secJobs : Piece.secJobs ∈ L) (h_lostFids : Piece.lostFids ∈ L) (h_mce : Piece.mce ∈ L) (h_evr : Piece.evr ∈ L)
    (h_out : Piece.out ∈ L) (h_freeCtr : Piece.freeCtr ∈ L) (h : Reach L a s) : Reach L a (powerOn x0 x1 x2 s) := by
  unfold powerOn
  with_reducible repeat'
    (first | assumption | intro _ | extract_lets | (refine ReachP.use (by assumption) ?_) | apply bootStep_reach |
      apply startDrbg_reach | apply healthTests_reach | apply bootKeys_reach | apply bootAttempt_reach | apply bootOne_reach |
      apply ReachP.ite | apply ReachP.foldl | apply ReachP.out | apply Reach.foldl | apply Reach.ite | split |
      (simp only [ReachP.pair_iff]) | apply h_regs | (dsimp +zetaDelta only))

end Sys2Proof.Machine
end

