-- ==== Sys2Proof/Laws/ReachHostReq.lean ====
section
/-!
SUPPORT. What each operation of Machine/HostReq.lean can change.
-/
namespace Sys2Proof.Machine

set_option linter.unusedTactic false
set_option linter.unreachableTactic false
set_option linter.unusedSimpArgs false

theorem dropAccs_reach {L a s x0} (h_retrain : Piece.retrain ∈ L) (h_accs : Piece.accs ∈ L) (h_lostFids : Piece.lostFids ∈ L)
    (h : Reach L a s) : Reach L a (dropAccs x0 s) := by
  unfold dropAccs
  with_reducible repeat'
    (first | assumption | intro _ | extract_lets | apply proceed_reach | apply ReachP.ite | apply ReachP.foldl |
      apply ReachP.out | apply Reach.foldl | apply Reach.ite | split | apply Reach.accs_lostFids | apply Reach.accs |
      apply Reach.lostFids | (simp only [ReachP.pair_iff]) | (dsimp +zetaDelta only))

theorem bulkWrAnswer_reach {L a s x0 x1 x2} (h_hif_regs : Piece.regs .hif ∈ L) (h_retrain : Piece.retrain ∈ L)
    (h_accs : Piece.accs ∈ L) (h_chans : Piece.chans ∈ L) (h_lostFids : Piece.lostFids ∈ L) (h_out : Piece.out ∈ L)
    (h : Reach L a s) : ReachP L a (bulkWrAnswer x0 x1 x2 s) := by
  unfold bulkWrAnswer
  with_reducible repeat'
    (first | assumption | intro _ | extract_lets | apply sendSeq_reach | apply dropAccs_reach | apply ReachP.ite |
      apply ReachP.foldl | apply ReachP.out | apply Reach.foldl | apply Reach.ite | split | (simp only [ReachP.pair_iff]) |
      (dsimp +zetaDelta only))

theorem bulkWrReq_reach {L a s x0 x1 x2} (h_hif_regs : Piece.regs .hif ∈ L) (h_yrd_regs : Piece.regs .yrd ∈ L)
    (h_mem_regs : Piece.regs .mem ∈ L) (h_lpd_regs : Piece.regs .lpd ∈ L) (h_mce_regs : Piece.regs .mce ∈ L)
    (h_sec_regs : Piece.regs .sec ∈ L) (h_ras_regs : Piece.regs .ras ∈ L) (h_evr_regs : Piece.regs .evr ∈ L)
    (h_mem : Piece.mem ∈ L) (h_yard : Piece.yard ∈ L) (h_retrain : Piece.retrain ∈ L) (h_accs : Piece.accs ∈ L)
    (h_nextTag : Piece.nextTag ∈ L) (h_ports : Piece.ports ∈ L) (h_chans : Piece.chans ∈ L) (h_lostFids : Piece.lostFids ∈ L)
    (h_mce : Piece.mce ∈ L) (h_evr : Piece.evr ∈ L) (h_out : Piece.out ∈ L) (h_freeCtr : Piece.freeCtr ∈ L) (h : Reach L a s) :
    ReachP L a (bulkWrReq x0 x1 x2 s) := by
  unfold bulkWrReq
  with_reducible repeat'
    (first | assumption | intro _ | extract_lets | (refine ReachP.use (by assumption) ?_) | apply bulkWrAnswer_reach |
      apply memWrite_reach | apply noteHeld_reach | apply updSess_reach | apply poke_reach | apply ReachP.ite |
      apply ReachP.foldl | apply ReachP.out | apply Reach.foldl | apply Reach.ite | split | (simp only [ReachP.pair_iff]) |
      (dsimp +zetaDelta only))

theorem bulkRdData_reach {L a s x0 x1 x2 x3 x4} (h_hif_regs : Piece.regs .hif ∈ L) (h_retrain : Piece.retrain ∈ L)
    (h_accs : Piece.accs ∈ L) (h_chans : Piece.chans ∈ L) (h_lostFids : Piece.lostFids ∈ L) (h_out : Piece.out ∈ L)
    (h : Reach L a s) : ReachP L a (bulkRdData x0 x1 x2 x3 x4 s) := by
  unfold bulkRdData
  with_reducible repeat'
    (first | assumption | intro _ | extract_lets | apply sendSeq_reach | apply dropAccs_reach | apply ReachP.ite |
      apply ReachP.foldl | apply ReachP.out | apply Reach.foldl | apply Reach.ite | split | (simp only [ReachP.pair_iff]) |
      (dsimp +zetaDelta only))

theorem bulkRdEnd_reach {L a s x0 x1 x2} (h_hif_regs : Piece.regs .hif ∈ L) (h_retrain : Piece.retrain ∈ L)
    (h_accs : Piece.accs ∈ L) (h_chans : Piece.chans ∈ L) (h_lostFids : Piece.lostFids ∈ L) (h_out : Piece.out ∈ L)
    (h : Reach L a s) : ReachP L a (bulkRdEnd x0 x1 x2 s) := by
  unfold bulkRdEnd
  with_reducible repeat'
    (first | assumption | intro _ | extract_lets | apply sendSeq_reach | apply dropAccs_reach | apply ReachP.ite |
      apply ReachP.foldl | apply ReachP.out | apply Reach.foldl | apply Reach.ite | split | (simp only [ReachP.pair_iff]) |
      (dsimp +zetaDelta only))

theorem bulkRdReq_reach {L a s x0 x1 x2} (h_hif_regs : Piece.regs .hif ∈ L) (h_yrd_regs : Piece.regs .yrd ∈ L)
    (h_mem_regs : Piece.regs .mem ∈ L) (h_lpd_regs : Piece.regs .lpd ∈ L) (h_mce_regs : Piece.regs .mce ∈ L)
    (h_sec_regs : Piece.regs .sec ∈ L) (h_ras_regs : Piece.regs .ras ∈ L) (h_evr_regs : Piece.regs .evr ∈ L)
    (h_yard : Piece.yard ∈ L) (h_retrain : Piece.retrain ∈ L) (h_accs : Piece.accs ∈ L) (h_nextTag : Piece.nextTag ∈ L)
    (h_ports : Piece.ports ∈ L) (h_chans : Piece.chans ∈ L) (h_lostFids : Piece.lostFids ∈ L) (h_evr : Piece.evr ∈ L)
    (h_out : Piece.out ∈ L) (h_freeCtr : Piece.freeCtr ∈ L) (h : Reach L a s) : ReachP L a (bulkRdReq x0 x1 x2 s) := by
  unfold bulkRdReq
  with_reducible repeat'
    (first | assumption | intro _ | extract_lets | (refine ReachP.use (by assumption) ?_) | apply bulkRdData_reach |
      apply noteHeld_reach | apply bulkRdEnd_reach | apply memRead_reach | apply ReachP.ite | apply ReachP.foldl |
      apply ReachP.out | apply Reach.foldl | apply Reach.ite | split | (simp only [ReachP.pair_iff]) | (dsimp +zetaDelta only))

theorem subscribeReq_reach {L a s x0 x1} (h_hif_regs : Piece.regs .hif ∈ L) (h_chans : Piece.chans ∈ L)
    (h_out : Piece.out ∈ L) (h : Reach L a s) : Reach L a (subscribeReq x0 x1 s) := by
  unfold subscribeReq
  with_reducible repeat'
    (first | assumption | intro _ | extract_lets | apply sendSeq_reach | apply wh_reach | apply updSess_reach |
      apply Reach.foldl | apply Reach.ite | split | apply Reach.chans | (dsimp +zetaDelta only))

theorem regRun_reach {L a s x0 x1 x2} (h_pwr : Piece.pwr ∈ L) (h_regs : ∀ b, Piece.regs b ∈ L) (h_staged : Piece.staged ∈ L)
    (h_bus : Piece.bus ∈ L) (h_mem : Piece.mem ∈ L) (h_flash : Piece.flash ∈ L) (h_toks : Piece.toks ∈ L)
    (h_queues : Piece.queues ∈ L) (h_flights : Piece.flights ∈ L) (h_descriptors : Piece.descriptors ∈ L)
    (h_nextFid : Piece.nextFid ∈ L) (h_planners : Piece.planners ∈ L) (h_arrs : Piece.arrs ∈ L) (h_stks : Piece.stks ∈ L)
    (h_yard : Piece.yard ∈ L) (h_retrain : Piece.retrain ∈ L) (h_exts : Piece.exts ∈ L) (h_leases : Piece.leases ∈ L)
    (h_lends : Piece.lends ∈ L) (h_accs : Piece.accs ∈ L) (h_nextTag : Piece.nextTag ∈ L) (h_parts : Piece.parts ∈ L)
    (h_kvs : Piece.kvs ∈ L) (h_lab : Piece.lab ∈ L) (h_scn : Piece.scn ∈ L) (h_col : Piece.col ∈ L) (h_ports : Piece.ports ∈ L)
    (h_hif : Piece.hif ∈ L) (h_chans : Piece.chans ∈ L) (h_sec : Piece.sec ∈ L) (h_secs : Piece.secs ∈ L)
    (h_secJobs : Piece.secJobs ∈ L) (h_lostFids : Piece.lostFids ∈ L) (h_mce : Piece.mce ∈ L) (h_evr : Piece.evr ∈ L)
    (h_out : Piece.out ∈ L) (h_freeCtr : Piece.freeCtr ∈ L) (h : Reach L a s) : ReachP L a (regRun x0 x1 x2 s) := by
  induction x1 generalizing x0 x2 s
  case nil =>
    rw [regRun]
    with_reducible repeat'
      (first | assumption | apply ih | intro _ | extract_lets | apply access_reach | apply ReachP.ite | apply ReachP.foldl |
        apply ReachP.out | apply Reach.foldl | apply Reach.ite | split | (simp only [ReachP.pair_iff]) | apply h_regs |
        (dsimp +zetaDelta only))
  case cons x r ih =>
    rw [regRun]
    with_reducible repeat'
      (first | assumption | apply ih | intro _ | extract_lets | apply access_reach | apply ReachP.ite | apply ReachP.foldl |
        apply ReachP.out | apply Reach.foldl | apply Reach.ite | split | (simp only [ReachP.pair_iff]) | apply h_regs |
        (dsimp +zetaDelta only))

theorem regReq_reach {L a s x0 x1} (h_pwr : Piece.pwr ∈ L) (h_regs : ∀ b, Piece.regs b ∈ L) (h_staged : Piece.staged ∈ L)
    (h_bus : Piece.bus ∈ L) (h_mem : Piece.mem ∈ L) (h_flash : Piece.flash ∈ L) (h_toks : Piece.toks ∈ L)
    (h_queues : Piece.queues ∈ L) (h_flights : Piece.flights ∈ L) (h_descriptors : Piece.descriptors ∈ L)
    (h_nextFid : Piece.nextFid ∈ L) (h_planners : Piece.planners ∈ L) (h_arrs : Piece.arrs ∈ L) (h_stks : Piece.stks ∈ L)
    (h_yard : Piece.yard ∈ L) (h_retrain : Piece.retrain ∈ L) (h_exts : Piece.exts ∈ L) (h_leases : Piece.leases ∈ L)
    (h_lends : Piece.lends ∈ L) (h_accs : Piece.accs ∈ L) (h_nextTag : Piece.nextTag ∈ L) (h_parts : Piece.parts ∈ L)
    (h_kvs : Piece.kvs ∈ L) (h_lab : Piece.lab ∈ L) (h_scn : Piece.scn ∈ L) (h_col : Piece.col ∈ L) (h_ports : Piece.ports ∈ L)
    (h_hif : Piece.hif ∈ L) (h_chans : Piece.chans ∈ L) (h_sec : Piece.sec ∈ L) (h_secs : Piece.secs ∈ L)
    (h_secJobs : Piece.secJobs ∈ L) (h_lostFids : Piece.lostFids ∈ L) (h_mce : Piece.mce ∈ L) (h_evr : Piece.evr ∈ L)
    (h_out : Piece.out ∈ L) (h_freeCtr : Piece.freeCtr ∈ L) (h : Reach L a s) : Reach L a (regReq x0 x1 s) := by
  unfold regReq
  with_reducible repeat'
    (first | assumption | intro _ | extract_lets | (refine ReachP.use (by assumption) ?_) | apply sendSeq_reach |
      apply regRun_reach | apply ReachP.ite | apply ReachP.foldl | apply ReachP.out | apply Reach.foldl | apply Reach.ite |
      split | (simp only [ReachP.pair_iff]) | apply h_regs | (dsimp +zetaDelta only))

theorem submitDo_reach {L a s x0 x1} (h_hif_regs : Piece.regs .hif ∈ L) (h_dsp_regs : Piece.regs .dsp ∈ L)
    (h_yrd_regs : Piece.regs .yrd ∈ L) (h_mem_regs : Piece.regs .mem ∈ L) (h_lpd_regs : Piece.regs .lpd ∈ L)
    (h_mce_regs : Piece.regs .mce ∈ L) (h_sec_regs : Piece.regs .sec ∈ L) (h_ras_regs : Piece.regs .ras ∈ L)
    (h_evr_regs : Piece.regs .evr ∈ L) (h_mem : Piece.mem ∈ L) (h_queues : Piece.queues ∈ L) (h_nextFid : Piece.nextFid ∈ L)
    (h_yard : Piece.yard ∈ L) (h_retrain : Piece.retrain ∈ L) (h_accs : Piece.accs ∈ L) (h_nextTag : Piece.nextTag ∈ L)
    (h_ports : Piece.ports ∈ L) (h_chans : Piece.chans ∈ L) (h_mce : Piece.mce ∈ L) (h_evr : Piece.evr ∈ L)
    (h_out : Piece.out ∈ L) (h_freeCtr : Piece.freeCtr ∈ L) (h : Reach L a s) : ReachP L a (submitDo x0 x1 s) := by
  unfold submitDo
  with_reducible repeat'
    (first | assumption | intro _ | extract_lets | (refine ReachP.use (by assumption) ?_) | apply memWrite_reach |
      apply tailWrite_reach | apply ReachP.ite | apply ReachP.foldl | apply ReachP.out | apply Reach.foldl | apply Reach.ite |
      split | (simp only [ReachP.pair_iff]) | (dsimp +zetaDelta only))

theorem submitReq_reach {L a s x0 x1} (h_hif_regs : Piece.regs .hif ∈ L) (h_dsp_regs : Piece.regs .dsp ∈ L)
    (h_yrd_regs : Piece.regs .yrd ∈ L) (h_mem_regs : Piece.regs .mem ∈ L) (h_lpd_regs : Piece.regs .lpd ∈ L)
    (h_mce_regs : Piece.regs .mce ∈ L) (h_sec_regs : Piece.regs .sec ∈ L) (h_ras_regs : Piece.regs .ras ∈ L)
    (h_evr_regs : Piece.regs .evr ∈ L) (h_mem : Piece.mem ∈ L) (h_queues : Piece.queues ∈ L) (h_nextFid : Piece.nextFid ∈ L)
    (h_yard : Piece.yard ∈ L) (h_retrain : Piece.retrain ∈ L) (h_accs : Piece.accs ∈ L) (h_nextTag : Piece.nextTag ∈ L)
    (h_ports : Piece.ports ∈ L) (h_chans : Piece.chans ∈ L) (h_lostFids : Piece.lostFids ∈ L) (h_mce : Piece.mce ∈ L)
    (h_evr : Piece.evr ∈ L) (h_out : Piece.out ∈ L) (h_freeCtr : Piece.freeCtr ∈ L) (h : Reach L a s) : ReachP L a
    (submitReq x0 x1 s) := by
  unfold submitReq
  with_reducible repeat'
    (first | assumption | intro _ | extract_lets | (refine ReachP.use (by assumption) ?_) | apply sendSeq_reach |
      apply noteHeld_reach | apply dropAccs_reach | apply submitDo_reach | apply ReachP.ite | apply ReachP.foldl |
      apply ReachP.out | apply Reach.foldl | apply Reach.ite | split | (simp only [ReachP.pair_iff]) | (dsimp +zetaDelta only))

theorem runReq_reach {L a s x0 x1 x2} (h_pwr : Piece.pwr ∈ L) (h_regs : ∀ b, Piece.regs b ∈ L) (h_staged : Piece.staged ∈ L)
    (h_bus : Piece.bus ∈ L) (h_mem : Piece.mem ∈ L) (h_flash : Piece.flash ∈ L) (h_toks : Piece.toks ∈ L)
    (h_queues : Piece.queues ∈ L) (h_flights : Piece.flights ∈ L) (h_descriptors : Piece.descriptors ∈ L)
    (h_nextFid : Piece.nextFid ∈ L) (h_planners : Piece.planners ∈ L) (h_arrs : Piece.arrs ∈ L) (h_stks : Piece.stks ∈ L)
    (h_yard : Piece.yard ∈ L) (h_retrain : Piece.retrain ∈ L) (h_exts : Piece.exts ∈ L) (h_leases : Piece.leases ∈ L)
    (h_lends : Piece.lends ∈ L) (h_accs : Piece.accs ∈ L) (h_nextTag : Piece.nextTag ∈ L) (h_parts : Piece.parts ∈ L)
    (h_kvs : Piece.kvs ∈ L) (h_lab : Piece.lab ∈ L) (h_scn : Piece.scn ∈ L) (h_col : Piece.col ∈ L) (h_ports : Piece.ports ∈ L)
    (h_hif : Piece.hif ∈ L) (h_chans : Piece.chans ∈ L) (h_sec : Piece.sec ∈ L) (h_secs : Piece.secs ∈ L)
    (h_secJobs : Piece.secJobs ∈ L) (h_lostFids : Piece.lostFids ∈ L) (h_mce : Piece.mce ∈ L) (h_evr : Piece.evr ∈ L)
    (h_out : Piece.out ∈ L) (h_freeCtr : Piece.freeCtr ∈ L) (h : Reach L a s) : ReachP L a (runReq x0 x1 x2 s) := by
  unfold runReq
  with_reducible repeat'
    (first | assumption | intro _ | extract_lets | (refine ReachP.use (by assumption) ?_) | apply bulkWrReq_reach |
      apply fillIn_reach | apply bulkRdReq_reach | apply endSession_reach | apply subscribeReq_reach | apply regReq_reach |
      apply submitReq_reach | apply ReachP.ite | apply ReachP.foldl | apply ReachP.out | apply Reach.foldl | apply Reach.ite |
      split | (simp only [ReachP.pair_iff]) | apply h_regs | (dsimp +zetaDelta only))

theorem runList_reach {L a s x0 x1 x2 x3 x4 x5} (h_pwr : Piece.pwr ∈ L) (h_regs : ∀ b, Piece.regs b ∈ L)
    (h_staged : Piece.staged ∈ L) (h_bus : Piece.bus ∈ L) (h_mem : Piece.mem ∈ L) (h_flash : Piece.flash ∈ L)
    (h_toks : Piece.toks ∈ L) (h_queues : Piece.queues ∈ L) (h_flights : Piece.flights ∈ L)
    (h_descriptors : Piece.descriptors ∈ L) (h_nextFid : Piece.nextFid ∈ L) (h_planners : Piece.planners ∈ L)
    (h_arrs : Piece.arrs ∈ L) (h_stks : Piece.stks ∈ L) (h_yard : Piece.yard ∈ L) (h_retrain : Piece.retrain ∈ L)
    (h_exts : Piece.exts ∈ L) (h_leases : Piece.leases ∈ L) (h_lends : Piece.lends ∈ L) (h_accs : Piece.accs ∈ L)
    (h_nextTag : Piece.nextTag ∈ L) (h_parts : Piece.parts ∈ L) (h_kvs : Piece.kvs ∈ L) (h_lab : Piece.lab ∈ L)
    (h_scn : Piece.scn ∈ L) (h_col : Piece.col ∈ L) (h_ports : Piece.ports ∈ L) (h_hif : Piece.hif ∈ L)
    (h_chans : Piece.chans ∈ L) (h_sec : Piece.sec ∈ L) (h_secs : Piece.secs ∈ L) (h_secJobs : Piece.secJobs ∈ L)
    (h_lostFids : Piece.lostFids ∈ L) (h_mce : Piece.mce ∈ L) (h_evr : Piece.evr ∈ L) (h_out : Piece.out ∈ L)
    (h_freeCtr : Piece.freeCtr ∈ L) (h : Reach L a s) : Reach L a (runList x0 x1 x2 x3 x4 x5 s) := by
  induction x4 generalizing x0 x1 x2 x3 x5 s
  case nil =>
    rw [runList]
    with_reducible repeat'
      (first | assumption | apply ih | intro _ | extract_lets | (refine ReachP.use (by assumption) ?_) | apply runReq_reach |
        apply updSess_reach | apply ReachP.ite | apply ReachP.foldl | apply ReachP.out | apply Reach.foldl | apply Reach.ite |
        split | (simp only [ReachP.pair_iff]) | apply h_regs | (dsimp +zetaDelta only))
  case cons x r ih =>
    rw [runList]
    with_reducible repeat'
      (first | assumption | apply ih | intro _ | extract_lets | (refine ReachP.use (by assumption) ?_) | apply runReq_reach |
        apply updSess_reach | apply ReachP.ite | apply ReachP.foldl | apply ReachP.out | apply Reach.foldl | apply Reach.ite |
        split | (simp only [ReachP.pair_iff]) | apply h_regs | (dsimp +zetaDelta only))

theorem runTodo_reach {L a s x0} (h_pwr : Piece.pwr ∈ L) (h_regs : ∀ b, Piece.regs b ∈ L) (h_staged : Piece.staged ∈ L)
    (h_bus : Piece.bus ∈ L) (h_mem : Piece.mem ∈ L) (h_flash : Piece.flash ∈ L) (h_toks : Piece.toks ∈ L)
    (h_queues : Piece.queues ∈ L) (h_flights : Piece.flights ∈ L) (h_descriptors : Piece.descriptors ∈ L)
    (h_nextFid : Piece.nextFid ∈ L) (h_planners : Piece.planners ∈ L) (h_arrs : Piece.arrs ∈ L) (h_stks : Piece.stks ∈ L)
    (h_yard : Piece.yard ∈ L) (h_retrain : Piece.retrain ∈ L) (h_exts : Piece.exts ∈ L) (h_leases : Piece.leases ∈ L)
    (h_lends : Piece.lends ∈ L) (h_accs : Piece.accs ∈ L) (h_nextTag : Piece.nextTag ∈ L) (h_parts : Piece.parts ∈ L)
    (h_kvs : Piece.kvs ∈ L) (h_lab : Piece.lab ∈ L) (h_scn : Piece.scn ∈ L) (h_col : Piece.col ∈ L) (h_ports : Piece.ports ∈ L)
    (h_hif : Piece.hif ∈ L) (h_chans : Piece.chans ∈ L) (h_sec : Piece.sec ∈ L) (h_secs : Piece.secs ∈ L)
    (h_secJobs : Piece.secJobs ∈ L) (h_lostFids : Piece.lostFids ∈ L) (h_mce : Piece.mce ∈ L) (h_evr : Piece.evr ∈ L)
    (h_out : Piece.out ∈ L) (h_freeCtr : Piece.freeCtr ∈ L) (h : Reach L a s) : Reach L a (runTodo x0 s) := by
  unfold runTodo
  with_reducible repeat'
    (first | assumption | intro _ | extract_lets | apply runList_reach | apply Reach.foldl | apply Reach.ite | split |
      apply h_regs | (dsimp +zetaDelta only))

theorem kick_reach {L a s} (h_pwr : Piece.pwr ∈ L) (h_regs : ∀ b, Piece.regs b ∈ L) (h_staged : Piece.staged ∈ L)
    (h_bus : Piece.bus ∈ L) (h_mem : Piece.mem ∈ L) (h_flash : Piece.flash ∈ L) (h_toks : Piece.toks ∈ L)
    (h_queues : Piece.queues ∈ L) (h_flights : Piece.flights ∈ L) (h_descriptors : Piece.descriptors ∈ L)
    (h_nextFid : Piece.nextFid ∈ L) (h_planners : Piece.planners ∈ L) (h_arrs : Piece.arrs ∈ L) (h_stks : Piece.stks ∈ L)
    (h_yard : Piece.yard ∈ L) (h_retrain : Piece.retrain ∈ L) (h_exts : Piece.exts ∈ L) (h_leases : Piece.leases ∈ L)
    (h_lends : Piece.lends ∈ L) (h_accs : Piece.accs ∈ L) (h_nextTag : Piece.nextTag ∈ L) (h_parts : Piece.parts ∈ L)
    (h_kvs : Piece.kvs ∈ L) (h_lab : Piece.lab ∈ L) (h_scn : Piece.scn ∈ L) (h_col : Piece.col ∈ L) (h_ports : Piece.ports ∈ L)
    (h_hif : Piece.hif ∈ L) (h_chans : Piece.chans ∈ L) (h_sec : Piece.sec ∈ L) (h_secs : Piece.secs ∈ L)
    (h_secJobs : Piece.secJobs ∈ L) (h_lostFids : Piece.lostFids ∈ L) (h_mce : Piece.mce ∈ L) (h_evr : Piece.evr ∈ L)
    (h_out : Piece.out ∈ L) (h_freeCtr : Piece.freeCtr ∈ L) (h : Reach L a s) : Reach L a (kick s) := by
  unfold kick
  with_reducible repeat'
    (first | assumption | intro _ | extract_lets | apply secRetry_reach | apply runTodo_reach | apply Reach.foldl |
      apply Reach.ite | split | apply h_regs | (dsimp +zetaDelta only))

theorem inOrder_le {n fid : Nat} {x : Session} : fid ≤ (inOrder n fid x).2 := by
  induction n generalizing fid x with
  | zero => exact Nat.le_refl _
  | succ n ih =>
    unfold inOrder
    split
    · exact Nat.le_trans (Nat.le_succ _) ih
    · exact Nat.le_refl _

theorem receive_reach {L a s x0 x1 x2 x3} (h_hif_regs : Piece.regs .hif ∈ L) (h_nextFid : Piece.nextFid ∈ L)
    (h_chans : Piece.chans ∈ L) (h : Reach L a s) : Reach L a (receive x0 x1 x2 x3 s) := by
  unfold receive
  with_reducible repeat'
    (first | assumption | intro _ | extract_lets | apply inc_reach | apply updSess_reach | apply ReachP.ite |
      apply ReachP.foldl | apply ReachP.out | apply Reach.foldl | apply Reach.ite | split | apply Reach.nextFid |
      (simp only [ReachP.pair_iff]) | (exact Nat.le_succ _) | (exact inOrder_le) | (dsimp +zetaDelta only))

theorem packetIn_reach {L a s x0 x1} (h_pwr : Piece.pwr ∈ L) (h_regs : ∀ b, Piece.regs b ∈ L) (h_staged : Piece.staged ∈ L)
    (h_bus : Piece.bus ∈ L) (h_mem : Piece.mem ∈ L) (h_flash : Piece.flash ∈ L) (h_toks : Piece.toks ∈ L)
    (h_queues : Piece.queues ∈ L) (h_flights : Piece.flights ∈ L) (h_descriptors : Piece.descriptors ∈ L)
    (h_nextFid : Piece.nextFid ∈ L) (h_planners : Piece.planners ∈ L) (h_arrs : Piece.arrs ∈ L) (h_stks : Piece.stks ∈ L)
    (h_yard : Piece.yard ∈ L) (h_retrain : Piece.retrain ∈ L) (h_exts : Piece.exts ∈ L) (h_leases : Piece.leases ∈ L)
    (h_lends : Piece.lends ∈ L) (h_accs : Piece.accs ∈ L) (h_nextTag : Piece.nextTag ∈ L) (h_parts : Piece.parts ∈ L)
    (h_kvs : Piece.kvs ∈ L) (h_lab : Piece.lab ∈ L) (h_scn : Piece.scn ∈ L) (h_col : Piece.col ∈ L) (h_ports : Piece.ports ∈ L)
    (h_hif : Piece.hif ∈ L) (h_chans : Piece.chans ∈ L) (h_sec : Piece.sec ∈ L) (h_secs : Piece.secs ∈ L)
    (h_secJobs : Piece.secJobs ∈ L) (h_lostFids : Piece.lostFids ∈ L) (h_mce : Piece.mce ∈ L) (h_evr : Piece.evr ∈ L)
    (h_out : Piece.out ∈ L) (h_freeCtr : Piece.freeCtr ∈ L) (h : Reach L a s) : Reach L a (packetIn x0 x1 s) := by
  unfold packetIn
  with_reducible repeat'
    (first | assumption | intro _ | extract_lets | (refine ReachP.use (by assumption) ?_) | apply headerIn_reach |
      apply runTodo_reach | apply receive_reach | apply ReachP.ite | apply ReachP.foldl | apply ReachP.out | apply Reach.foldl |
      apply Reach.ite | split | (simp only [ReachP.pair_iff]) | apply h_regs | (dsimp +zetaDelta only))

theorem datagramIn_reach {L a s x0} (h_pwr : Piece.pwr ∈ L) (h_regs : ∀ b, Piece.regs b ∈ L) (h_staged : Piece.staged ∈ L)
    (h_bus : Piece.bus ∈ L) (h_mem : Piece.mem ∈ L) (h_flash : Piece.flash ∈ L) (h_toks : Piece.toks ∈ L)
    (h_queues : Piece.queues ∈ L) (h_flights : Piece.flights ∈ L) (h_descriptors : Piece.descriptors ∈ L)
    (h_nextFid : Piece.nextFid ∈ L) (h_planners : Piece.planners ∈ L) (h_arrs : Piece.arrs ∈ L) (h_stks : Piece.stks ∈ L)
    (h_yard : Piece.yard ∈ L) (h_retrain : Piece.retrain ∈ L) (h_exts : Piece.exts ∈ L) (h_leases : Piece.leases ∈ L)
    (h_lends : Piece.lends ∈ L) (h_accs : Piece.accs ∈ L) (h_nextTag : Piece.nextTag ∈ L) (h_parts : Piece.parts ∈ L)
    (h_kvs : Piece.kvs ∈ L) (h_lab : Piece.lab ∈ L) (h_scn : Piece.scn ∈ L) (h_col : Piece.col ∈ L) (h_ports : Piece.ports ∈ L)
    (h_hif : Piece.hif ∈ L) (h_chans : Piece.chans ∈ L) (h_sec : Piece.sec ∈ L) (h_secs : Piece.secs ∈ L)
    (h_secJobs : Piece.secJobs ∈ L) (h_lostFids : Piece.lostFids ∈ L) (h_mce : Piece.mce ∈ L) (h_evr : Piece.evr ∈ L)
    (h_out : Piece.out ∈ L) (h_freeCtr : Piece.freeCtr ∈ L) (h : Reach L a s) : Reach L a (datagramIn x0 s) := by
  unfold datagramIn
  with_reducible repeat'
    (first | assumption | intro _ | extract_lets | apply finishIn_reach | apply packetIn_reach | apply rxDrop_reach |
      apply rxFrame_reach | apply helloIn_reach | apply Reach.foldl | apply Reach.ite | split | apply h_regs |
      (dsimp +zetaDelta only))

theorem freed_reach {L a s} (h_pwr : Piece.pwr ∈ L) (h_regs : ∀ b, Piece.regs b ∈ L) (h_staged : Piece.staged ∈ L)
    (h_bus : Piece.bus ∈ L) (h_mem : Piece.mem ∈ L) (h_flash : Piece.flash ∈ L) (h_toks : Piece.toks ∈ L)
    (h_queues : Piece.queues ∈ L) (h_flights : Piece.flights ∈ L) (h_descriptors : Piece.descriptors ∈ L)
    (h_nextFid : Piece.nextFid ∈ L) (h_planners : Piece.planners ∈ L) (h_arrs : Piece.arrs ∈ L) (h_stks : Piece.stks ∈ L)
    (h_yard : Piece.yard ∈ L) (h_retrain : Piece.retrain ∈ L) (h_exts : Piece.exts ∈ L) (h_leases : Piece.leases ∈ L)
    (h_lends : Piece.lends ∈ L) (h_accs : Piece.accs ∈ L) (h_nextTag : Piece.nextTag ∈ L) (h_parts : Piece.parts ∈ L)
    (h_kvs : Piece.kvs ∈ L) (h_lab : Piece.lab ∈ L) (h_scn : Piece.scn ∈ L) (h_col : Piece.col ∈ L) (h_ports : Piece.ports ∈ L)
    (h_hif : Piece.hif ∈ L) (h_chans : Piece.chans ∈ L) (h_sec : Piece.sec ∈ L) (h_secs : Piece.secs ∈ L)
    (h_secJobs : Piece.secJobs ∈ L) (h_lostFids : Piece.lostFids ∈ L) (h_mce : Piece.mce ∈ L) (h_evr : Piece.evr ∈ L)
    (h_out : Piece.out ∈ L) (h_freeCtr : Piece.freeCtr ∈ L) (h : Reach L a s) : Reach L a (freed s) := by
  unfold freed
  with_reducible repeat'
    (first | assumption | intro _ | extract_lets | apply evrRetry_reach | apply colReleased_reach | apply scnReleased_reach |
      apply bootRetry_reach | apply kvReleased_reach | apply kick_reach | apply Reach.foldl | apply Reach.ite | split |
      apply h_regs | (dsimp +zetaDelta only))

theorem wayDone_reach {L a s x0} (h_pwr : Piece.pwr ∈ L) (h_regs : ∀ b, Piece.regs b ∈ L) (h_staged : Piece.staged ∈ L)
    (h_bus : Piece.bus ∈ L) (h_mem : Piece.mem ∈ L) (h_flash : Piece.flash ∈ L) (h_toks : Piece.toks ∈ L)
    (h_queues : Piece.queues ∈ L) (h_flights : Piece.flights ∈ L) (h_descriptors : Piece.descriptors ∈ L)
    (h_nextFid : Piece.nextFid ∈ L) (h_planners : Piece.planners ∈ L) (h_arrs : Piece.arrs ∈ L) (h_stks : Piece.stks ∈ L)
    (h_yard : Piece.yard ∈ L) (h_retrain : Piece.retrain ∈ L) (h_exts : Piece.exts ∈ L) (h_leases : Piece.leases ∈ L)
    (h_lends : Piece.lends ∈ L) (h_accs : Piece.accs ∈ L) (h_nextTag : Piece.nextTag ∈ L) (h_parts : Piece.parts ∈ L)
    (h_kvs : Piece.kvs ∈ L) (h_lab : Piece.lab ∈ L) (h_scn : Piece.scn ∈ L) (h_col : Piece.col ∈ L) (h_ports : Piece.ports ∈ L)
    (h_hif : Piece.hif ∈ L) (h_chans : Piece.chans ∈ L) (h_sec : Piece.sec ∈ L) (h_secs : Piece.secs ∈ L)
    (h_secJobs : Piece.secJobs ∈ L) (h_lostFids : Piece.lostFids ∈ L) (h_mce : Piece.mce ∈ L) (h_evr : Piece.evr ∈ L)
    (h_out : Piece.out ∈ L) (h_freeCtr : Piece.freeCtr ∈ L) (h : Reach L a s) : Reach L a (wayDone x0 s) := by
  unfold wayDone
  with_reducible repeat'
    (first | assumption | intro _ | extract_lets | apply freed_reach | apply Reach.foldl | apply Reach.ite | split |
      apply Reach.yard | apply h_regs | (dsimp +zetaDelta only))

end Sys2Proof.Machine
end

