-- ==== Sys2Proof/Laws/ReachExec.lean ====
section
/-!
SUPPORT. What each command can change.
-/
namespace Sys2Proof.Machine

set_option linter.unusedTactic false
set_option linter.unreachableTactic false
set_option linter.unusedSimpArgs false

theorem execTokenAdd_reach {L x0 s} (h_tok_regs : Piece.regs .tok ∈ L) (h_ras_regs : Piece.regs .ras ∈ L)
    (h_evr_regs : Piece.regs .evr ∈ L) (h_toks : Piece.toks ∈ L) (h_flights : Piece.flights ∈ L) (h_evr : Piece.evr ∈ L)
    (h_freeCtr : Piece.freeCtr ∈ L) : ReachE L s (execTokenAdd x0 s) := by
  unfold execTokenAdd
  with_reducible repeat'
    (first | assumption | apply ReachE.next | intro _ | extract_lets | apply tokenAddF_reach | apply wh_reach |
      apply Reach.foldl | apply Reach.ite | split | (exact Reach.rfl') | (dsimp +zetaDelta only))

theorem execTokenAddWrite_reach {L x0 x1 x2 s} (h_tok_regs : Piece.regs .tok ∈ L) (h_ras_regs : Piece.regs .ras ∈ L)
    (h_evr_regs : Piece.regs .evr ∈ L) (h_bus : Piece.bus ∈ L) (h_toks : Piece.toks ∈ L) (h_flights : Piece.flights ∈ L)
    (h_evr : Piece.evr ∈ L) (h_freeCtr : Piece.freeCtr ∈ L) : ReachE L s (execTokenAddWrite x0 x1 x2 s) := by
  unfold execTokenAddWrite
  with_reducible repeat'
    (first | assumption | apply ReachE.next | intro _ | extract_lets | apply tokAccess_reach | apply atDone_reach |
      apply wh_reach | apply Reach.foldl | apply Reach.ite | split | (exact Reach.rfl') | (dsimp +zetaDelta only))

theorem execTokenCasWrite_reach {L x0 x1 x2 s} (h_tok_regs : Piece.regs .tok ∈ L) (h_ras_regs : Piece.regs .ras ∈ L)
    (h_evr_regs : Piece.regs .evr ∈ L) (h_bus : Piece.bus ∈ L) (h_toks : Piece.toks ∈ L) (h_flights : Piece.flights ∈ L)
    (h_evr : Piece.evr ∈ L) (h_freeCtr : Piece.freeCtr ∈ L) : ReachE L s (execTokenCasWrite x0 x1 x2 s) := by
  unfold execTokenCasWrite
  with_reducible repeat'
    (first | assumption | apply ReachE.next | intro _ | extract_lets | apply tokAccess_reach | apply atDone_reach |
      apply wh_reach | apply Reach.foldl | apply Reach.ite | split | (exact Reach.rfl') | (dsimp +zetaDelta only))

theorem execTokenTestDecRead_reach {L x0 x1 s} (h_tok_regs : Piece.regs .tok ∈ L) (h_ras_regs : Piece.regs .ras ∈ L)
    (h_evr_regs : Piece.regs .evr ∈ L) (h_bus : Piece.bus ∈ L) (h_toks : Piece.toks ∈ L) (h_flights : Piece.flights ∈ L)
    (h_evr : Piece.evr ∈ L) (h_freeCtr : Piece.freeCtr ∈ L) : ReachE L s (execTokenTestDecRead x0 x1 s) := by
  unfold execTokenTestDecRead
  with_reducible repeat'
    (first | assumption | apply ReachE.next | intro _ | extract_lets | apply tokAccess_reach | apply atDone_reach |
      apply wh_reach | apply Reach.foldl | apply Reach.ite | split | (exact Reach.rfl') | (dsimp +zetaDelta only))

theorem execTokenSet_reach {L x0 s} (h_toks : Piece.toks ∈ L) (h_flights : Piece.flights ∈ L) : ReachE L s (execTokenSet x0 s)
    := by
  unfold execTokenSet
  with_reducible repeat'
    (first | assumption | apply ReachE.next | intro _ | extract_lets | apply tokenSetF_reach | apply wh_reach |
      apply Reach.foldl | apply Reach.ite | split | (exact Reach.rfl') | (dsimp +zetaDelta only))

theorem execTokenAddRead_reach {L x0 x1 s} (h_tok_regs : Piece.regs .tok ∈ L) (h_ras_regs : Piece.regs .ras ∈ L)
    (h_evr_regs : Piece.regs .evr ∈ L) (h_bus : Piece.bus ∈ L) (h_toks : Piece.toks ∈ L) (h_flights : Piece.flights ∈ L)
    (h_evr : Piece.evr ∈ L) (h_freeCtr : Piece.freeCtr ∈ L) : ReachE L s (execTokenAddRead x0 x1 s) := by
  unfold execTokenAddRead
  with_reducible repeat'
    (first | assumption | apply ReachE.next | intro _ | extract_lets | apply tokAccess_reach | apply atDone_reach |
      apply wh_reach | apply Reach.foldl | apply Reach.ite | split | (exact Reach.rfl') | (dsimp +zetaDelta only))

theorem execTokenTestDecWrite_reach {L x0 x1 x2 s} (h_tok_regs : Piece.regs .tok ∈ L) (h_ras_regs : Piece.regs .ras ∈ L)
    (h_evr_regs : Piece.regs .evr ∈ L) (h_bus : Piece.bus ∈ L) (h_toks : Piece.toks ∈ L) (h_flights : Piece.flights ∈ L)
    (h_evr : Piece.evr ∈ L) (h_freeCtr : Piece.freeCtr ∈ L) : ReachE L s (execTokenTestDecWrite x0 x1 x2 s) := by
  unfold execTokenTestDecWrite
  with_reducible repeat'
    (first | assumption | apply ReachE.next | intro _ | extract_lets | apply tokAccess_reach | apply atDone_reach |
      apply wh_reach | apply Reach.foldl | apply Reach.ite | split | (exact Reach.rfl') | (dsimp +zetaDelta only))

theorem execTokenAcquire_reach {L x0 s} (h_toks : Piece.toks ∈ L) (h_flights : Piece.flights ∈ L) : ReachE L s
    (execTokenAcquire x0 s) := by
  unfold execTokenAcquire
  with_reducible repeat'
    (first | assumption | apply ReachE.next | intro _ | extract_lets | apply tokenAcquireF_reach | apply wh_reach |
      apply Reach.foldl | apply Reach.ite | split | (exact Reach.rfl') | (dsimp +zetaDelta only))

theorem execTokenSetWrite_reach {L x0 x1 x2 s} (h_tok_regs : Piece.regs .tok ∈ L) (h_ras_regs : Piece.regs .ras ∈ L)
    (h_evr_regs : Piece.regs .evr ∈ L) (h_bus : Piece.bus ∈ L) (h_toks : Piece.toks ∈ L) (h_flights : Piece.flights ∈ L)
    (h_evr : Piece.evr ∈ L) (h_freeCtr : Piece.freeCtr ∈ L) : ReachE L s (execTokenSetWrite x0 x1 x2 s) := by
  unfold execTokenSetWrite
  with_reducible repeat'
    (first | assumption | apply ReachE.next | intro _ | extract_lets | apply tokAccess_reach | apply atDone_reach |
      apply wh_reach | apply Reach.foldl | apply Reach.ite | split | (exact Reach.rfl') | (dsimp +zetaDelta only))

theorem execReduce_reach {L x0 s} (h_yrd_regs : Piece.regs .yrd ∈ L) (h_mem_regs : Piece.regs .mem ∈ L)
    (h_lpd_regs : Piece.regs .lpd ∈ L) (h_mce_regs : Piece.regs .mce ∈ L) (h_sec_regs : Piece.regs .sec ∈ L)
    (h_ras_regs : Piece.regs .ras ∈ L) (h_evr_regs : Piece.regs .evr ∈ L) (h_mem : Piece.mem ∈ L) (h_flights : Piece.flights ∈ L)
    (h_stks : Piece.stks ∈ L) (h_yard : Piece.yard ∈ L) (h_retrain : Piece.retrain ∈ L) (h_accs : Piece.accs ∈ L)
    (h_nextTag : Piece.nextTag ∈ L) (h_ports : Piece.ports ∈ L) (h_mce : Piece.mce ∈ L) (h_evr : Piece.evr ∈ L)
    (h_freeCtr : Piece.freeCtr ∈ L) : ReachE L s (execReduce x0 s) := by
  unfold execReduce
  with_reducible repeat'
    (first | assumption | apply ReachE.next | intro _ | extract_lets | apply stkGo_reach | apply wh_reach |
      apply Reach.foldl | apply Reach.ite | split | (exact Reach.rfl') | (dsimp +zetaDelta only))

theorem execStkSnap_reach {L x0 x1 s} (h_stk_regs : Piece.regs .stk ∈ L) (h_bus : Piece.bus ∈ L) (h_stks : Piece.stks ∈ L) :
    ReachE L s (execStkSnap x0 x1 s) := by
  unfold execStkSnap
  with_reducible repeat'
    (first | assumption | apply ReachE.next | intro _ | extract_lets | apply atDone_reach | apply stkCtrl_reach |
      apply wh_reach | apply Reach.foldl | apply Reach.ite | split | (exact Reach.rfl') | (dsimp +zetaDelta only))

theorem execEngineUnitStart_reach {L x0 s} (h_stks : Piece.stks ∈ L) : ReachE L s (execEngineUnitStart x0 s) := by
  unfold execEngineUnitStart
  with_reducible repeat'
    (first | assumption | apply ReachE.next | intro _ | extract_lets | apply stkStart_reach | apply wh_reach |
      apply Reach.foldl | apply Reach.ite | split | (exact Reach.rfl') | (dsimp +zetaDelta only))

theorem execStkClear_reach {L x0 x1 x2 s} (h_stk_regs : Piece.regs .stk ∈ L) (h_bus : Piece.bus ∈ L) (h_stks : Piece.stks ∈ L)
    : ReachE L s (execStkClear x0 x1 x2 s) := by
  unfold execStkClear
  with_reducible repeat'
    (first | assumption | apply ReachE.next | intro _ | extract_lets | apply atDone_reach | apply stkCtrl_reach |
      apply wh_reach | apply Reach.foldl | apply Reach.ite | split | (exact Reach.rfl') | (dsimp +zetaDelta only))

theorem execStats_reach {L x0 s} (h_yrd_regs : Piece.regs .yrd ∈ L) (h_mem_regs : Piece.regs .mem ∈ L)
    (h_lpd_regs : Piece.regs .lpd ∈ L) (h_mce_regs : Piece.regs .mce ∈ L) (h_sec_regs : Piece.regs .sec ∈ L)
    (h_ras_regs : Piece.regs .ras ∈ L) (h_evr_regs : Piece.regs .evr ∈ L) (h_mem : Piece.mem ∈ L) (h_flights : Piece.flights ∈ L)
    (h_stks : Piece.stks ∈ L) (h_yard : Piece.yard ∈ L) (h_retrain : Piece.retrain ∈ L) (h_accs : Piece.accs ∈ L)
    (h_nextTag : Piece.nextTag ∈ L) (h_ports : Piece.ports ∈ L) (h_mce : Piece.mce ∈ L) (h_evr : Piece.evr ∈ L)
    (h_freeCtr : Piece.freeCtr ∈ L) : ReachE L s (execStats x0 s) := by
  unfold execStats
  with_reducible repeat'
    (first | assumption | apply ReachE.next | intro _ | extract_lets | apply stkGo_reach | apply wh_reach |
      apply Reach.foldl | apply Reach.ite | split | (exact Reach.rfl') | (dsimp +zetaDelta only))

theorem execEwise_reach {L x0 s} (h_yrd_regs : Piece.regs .yrd ∈ L) (h_mem_regs : Piece.regs .mem ∈ L)
    (h_lpd_regs : Piece.regs .lpd ∈ L) (h_mce_regs : Piece.regs .mce ∈ L) (h_sec_regs : Piece.regs .sec ∈ L)
    (h_ras_regs : Piece.regs .ras ∈ L) (h_evr_regs : Piece.regs .evr ∈ L) (h_mem : Piece.mem ∈ L) (h_flights : Piece.flights ∈ L)
    (h_stks : Piece.stks ∈ L) (h_yard : Piece.yard ∈ L) (h_retrain : Piece.retrain ∈ L) (h_accs : Piece.accs ∈ L)
    (h_nextTag : Piece.nextTag ∈ L) (h_ports : Piece.ports ∈ L) (h_mce : Piece.mce ∈ L) (h_evr : Piece.evr ∈ L)
    (h_freeCtr : Piece.freeCtr ∈ L) : ReachE L s (execEwise x0 s) := by
  unfold execEwise
  with_reducible repeat'
    (first | assumption | apply ReachE.next | intro _ | extract_lets | apply stkGo_reach | apply wh_reach |
      apply Reach.foldl | apply Reach.ite | split | (exact Reach.rfl') | (dsimp +zetaDelta only))

theorem execCheck_reach {L x0 s} (h_tpl_regs : Piece.regs .tpl ∈ L) (h_yrd_regs : Piece.regs .yrd ∈ L)
    (h_mem_regs : Piece.regs .mem ∈ L) (h_lpd_regs : Piece.regs .lpd ∈ L) (h_mce_regs : Piece.regs .mce ∈ L)
    (h_sec_regs : Piece.regs .sec ∈ L) (h_ras_regs : Piece.regs .ras ∈ L) (h_evr_regs : Piece.regs .evr ∈ L)
    (h_flights : Piece.flights ∈ L) (h_arrs : Piece.arrs ∈ L) (h_yard : Piece.yard ∈ L) (h_retrain : Piece.retrain ∈ L)
    (h_accs : Piece.accs ∈ L) (h_nextTag : Piece.nextTag ∈ L) (h_ports : Piece.ports ∈ L) (h_evr : Piece.evr ∈ L)
    (h_freeCtr : Piece.freeCtr ∈ L) : ReachE L s (execCheck x0 s) := by
  unfold execCheck
  with_reducible repeat'
    (first | assumption | apply ReachE.next | intro _ | extract_lets | apply checkGo_reach | apply wh_reach |
      apply Reach.foldl | apply Reach.ite | split | (exact Reach.rfl') | (dsimp +zetaDelta only))

theorem execPreloadStall_reach {L x0 s} (h_yrd_regs : Piece.regs .yrd ∈ L) (h_mem_regs : Piece.regs .mem ∈ L)
    (h_lpd_regs : Piece.regs .lpd ∈ L) (h_mce_regs : Piece.regs .mce ∈ L) (h_sec_regs : Piece.regs .sec ∈ L)
    (h_ras_regs : Piece.regs .ras ∈ L) (h_evr_regs : Piece.regs .evr ∈ L) (h_flights : Piece.flights ∈ L)
    (h_arrs : Piece.arrs ∈ L) (h_yard : Piece.yard ∈ L) (h_retrain : Piece.retrain ∈ L) (h_accs : Piece.accs ∈ L)
    (h_nextTag : Piece.nextTag ∈ L) (h_ports : Piece.ports ∈ L) (h_evr : Piece.evr ∈ L) (h_freeCtr : Piece.freeCtr ∈ L) : ReachE L
    s (execPreloadStall x0 s) := by
  unfold execPreloadStall
  with_reducible repeat'
    (first | assumption | apply ReachE.next | intro _ | extract_lets | apply preloadStall_reach | apply wh_reach |
      apply Reach.foldl | apply Reach.ite | split | (exact Reach.rfl') | (dsimp +zetaDelta only))

theorem execRunStart_reach {L s} (h_dsp_regs : Piece.regs .dsp ∈ L) (h_tpl_regs : Piece.regs .tpl ∈ L)
    (h_yrd_regs : Piece.regs .yrd ∈ L) (h_mem_regs : Piece.regs .mem ∈ L) (h_lpd_regs : Piece.regs .lpd ∈ L)
    (h_mce_regs : Piece.regs .mce ∈ L) (h_sec_regs : Piece.regs .sec ∈ L) (h_clk_regs : Piece.regs .clk ∈ L)
    (h_ras_regs : Piece.regs .ras ∈ L) (h_evr_regs : Piece.regs .evr ∈ L) (h_flights : Piece.flights ∈ L)
    (h_arrs : Piece.arrs ∈ L) (h_yard : Piece.yard ∈ L) (h_retrain : Piece.retrain ∈ L) (h_accs : Piece.accs ∈ L)
    (h_nextTag : Piece.nextTag ∈ L) (h_ports : Piece.ports ∈ L) (h_evr : Piece.evr ∈ L) (h_freeCtr : Piece.freeCtr ∈ L) : ReachE L
    s (execRunStart s) := by
  unfold execRunStart
  with_reducible repeat'
    (first | assumption | apply ReachE.next | intro _ | extract_lets | apply runStart_reach | apply wh_reach |
      apply Reach.foldl | apply Reach.ite | split | (exact Reach.rfl') | (dsimp +zetaDelta only))

theorem execChunkDelivery_reach {L x0 x1 s} (h_tpl_regs : Piece.regs .tpl ∈ L) (h_yrd_regs : Piece.regs .yrd ∈ L)
    (h_mem_regs : Piece.regs .mem ∈ L) (h_lpd_regs : Piece.regs .lpd ∈ L) (h_mce_regs : Piece.regs .mce ∈ L)
    (h_sec_regs : Piece.regs .sec ∈ L) (h_ras_regs : Piece.regs .ras ∈ L) (h_evr_regs : Piece.regs .evr ∈ L)
    (h_flights : Piece.flights ∈ L) (h_arrs : Piece.arrs ∈ L) (h_yard : Piece.yard ∈ L) (h_retrain : Piece.retrain ∈ L)
    (h_accs : Piece.accs ∈ L) (h_nextTag : Piece.nextTag ∈ L) (h_ports : Piece.ports ∈ L) (h_evr : Piece.evr ∈ L)
    (h_freeCtr : Piece.freeCtr ∈ L) : ReachE L s (execChunkDelivery x0 x1 s) := by
  unfold execChunkDelivery
  with_reducible repeat'
    (first | assumption | apply ReachE.next | intro _ | extract_lets | apply chunkDelivery_reach | apply wh_reach |
      apply Reach.foldl | apply Reach.ite | split | (exact Reach.rfl') | (dsimp +zetaDelta only))

theorem execArrClear_reach {L x0 x1 x2 s} (h_arr_regs : Piece.regs .arr ∈ L) (h_bus : Piece.bus ∈ L) (h_arrs : Piece.arrs ∈ L)
    : ReachE L s (execArrClear x0 x1 x2 s) := by
  unfold execArrClear
  with_reducible repeat'
    (first | assumption | apply ReachE.next | intro _ | extract_lets | apply atDone_reach | apply arrCtrl_reach |
      apply wh_reach | apply Reach.foldl | apply Reach.ite | split | (exact Reach.rfl') | (dsimp +zetaDelta only))

theorem execStagingWriteAck_reach {L x0 s} (h_yrd_regs : Piece.regs .yrd ∈ L) (h_mem_regs : Piece.regs .mem ∈ L)
    (h_lpd_regs : Piece.regs .lpd ∈ L) (h_mce_regs : Piece.regs .mce ∈ L) (h_sec_regs : Piece.regs .sec ∈ L)
    (h_ras_regs : Piece.regs .ras ∈ L) (h_evr_regs : Piece.regs .evr ∈ L) (h_mem : Piece.mem ∈ L) (h_flights : Piece.flights ∈ L)
    (h_arrs : Piece.arrs ∈ L) (h_yard : Piece.yard ∈ L) (h_retrain : Piece.retrain ∈ L) (h_accs : Piece.accs ∈ L)
    (h_nextTag : Piece.nextTag ∈ L) (h_ports : Piece.ports ∈ L) (h_mce : Piece.mce ∈ L) (h_evr : Piece.evr ∈ L)
    (h_freeCtr : Piece.freeCtr ∈ L) : ReachE L s (execStagingWriteAck x0 s) := by
  unfold execStagingWriteAck
  with_reducible repeat'
    (first | assumption | apply ReachE.next | intro _ | extract_lets | apply stagingAck_reach | apply wh_reach |
      apply Reach.foldl | apply Reach.ite | split | (exact Reach.rfl') | (dsimp +zetaDelta only))

theorem execShadowRecompute_reach {L x0 s} (h_tpl_regs : Piece.regs .tpl ∈ L) (h_yrd_regs : Piece.regs .yrd ∈ L)
    (h_mem_regs : Piece.regs .mem ∈ L) (h_lpd_regs : Piece.regs .lpd ∈ L) (h_mce_regs : Piece.regs .mce ∈ L)
    (h_sec_regs : Piece.regs .sec ∈ L) (h_ras_regs : Piece.regs .ras ∈ L) (h_evr_regs : Piece.regs .evr ∈ L)
    (h_flights : Piece.flights ∈ L) (h_arrs : Piece.arrs ∈ L) (h_yard : Piece.yard ∈ L) (h_retrain : Piece.retrain ∈ L)
    (h_accs : Piece.accs ∈ L) (h_nextTag : Piece.nextTag ∈ L) (h_ports : Piece.ports ∈ L) (h_evr : Piece.evr ∈ L)
    (h_freeCtr : Piece.freeCtr ∈ L) : ReachE L s (execShadowRecompute x0 s) := by
  unfold execShadowRecompute
  with_reducible repeat'
    (first | assumption | apply ReachE.next | intro _ | extract_lets | apply wh_reach | apply shadowStep_reach |
      apply Reach.foldl | apply Reach.ite | split | (exact Reach.rfl') | (dsimp +zetaDelta only))

theorem execGemm_reach {L x0 s} (h_dsp_regs : Piece.regs .dsp ∈ L) (h_tpl_regs : Piece.regs .tpl ∈ L)
    (h_yrd_regs : Piece.regs .yrd ∈ L) (h_mem_regs : Piece.regs .mem ∈ L) (h_lpd_regs : Piece.regs .lpd ∈ L)
    (h_mce_regs : Piece.regs .mce ∈ L) (h_sec_regs : Piece.regs .sec ∈ L) (h_clk_regs : Piece.regs .clk ∈ L)
    (h_ras_regs : Piece.regs .ras ∈ L) (h_evr_regs : Piece.regs .evr ∈ L) (h_mem : Piece.mem ∈ L) (h_flights : Piece.flights ∈ L)
    (h_planners : Piece.planners ∈ L) (h_arrs : Piece.arrs ∈ L) (h_yard : Piece.yard ∈ L) (h_retrain : Piece.retrain ∈ L)
    (h_accs : Piece.accs ∈ L) (h_nextTag : Piece.nextTag ∈ L) (h_ports : Piece.ports ∈ L) (h_mce : Piece.mce ∈ L)
    (h_evr : Piece.evr ∈ L) (h_freeCtr : Piece.freeCtr ∈ L) : ReachE L s (execGemm x0 s) := by
  unfold execGemm
  with_reducible repeat'
    (first | assumption | apply ReachE.next | intro _ | extract_lets | apply tileGo_reach | apply wh_reach |
      apply Reach.foldl | apply Reach.ite | split | (exact Reach.rfl') | (dsimp +zetaDelta only))

theorem execPartialCombine_reach {L x0 s} (h_yrd_regs : Piece.regs .yrd ∈ L) (h_mem_regs : Piece.regs .mem ∈ L)
    (h_lpd_regs : Piece.regs .lpd ∈ L) (h_mce_regs : Piece.regs .mce ∈ L) (h_sec_regs : Piece.regs .sec ∈ L)
    (h_ras_regs : Piece.regs .ras ∈ L) (h_evr_regs : Piece.regs .evr ∈ L) (h_mem : Piece.mem ∈ L) (h_flights : Piece.flights ∈ L)
    (h_arrs : Piece.arrs ∈ L) (h_yard : Piece.yard ∈ L) (h_retrain : Piece.retrain ∈ L) (h_accs : Piece.accs ∈ L)
    (h_nextTag : Piece.nextTag ∈ L) (h_ports : Piece.ports ∈ L) (h_evr : Piece.evr ∈ L) (h_freeCtr : Piece.freeCtr ∈ L) : ReachE L
    s (execPartialCombine x0 s) := by
  unfold execPartialCombine
  with_reducible repeat'
    (first | assumption | apply ReachE.next | intro _ | extract_lets | apply wh_reach | apply partialCombine_reach |
      apply Reach.foldl | apply Reach.ite | split | (exact Reach.rfl') | (dsimp +zetaDelta only))

theorem execPlannerTake_reach {L s} (h_dsp_regs : Piece.regs .dsp ∈ L) (h_tpl_regs : Piece.regs .tpl ∈ L)
    (h_yrd_regs : Piece.regs .yrd ∈ L) (h_mem_regs : Piece.regs .mem ∈ L) (h_lpd_regs : Piece.regs .lpd ∈ L)
    (h_mce_regs : Piece.regs .mce ∈ L) (h_sec_regs : Piece.regs .sec ∈ L) (h_ras_regs : Piece.regs .ras ∈ L)
    (h_evr_regs : Piece.regs .evr ∈ L) (h_flights : Piece.flights ∈ L) (h_planners : Piece.planners ∈ L) (h_arrs : Piece.arrs ∈ L)
    (h_yard : Piece.yard ∈ L) (h_retrain : Piece.retrain ∈ L) (h_accs : Piece.accs ∈ L) (h_nextTag : Piece.nextTag ∈ L)
    (h_ports : Piece.ports ∈ L) (h_evr : Piece.evr ∈ L) (h_freeCtr : Piece.freeCtr ∈ L) : ReachE L s (execPlannerTake s) := by
  unfold execPlannerTake
  with_reducible repeat'
    (first | assumption | apply ReachE.next | intro _ | extract_lets | apply plannerTake_reach | apply wh_reach |
      apply Reach.foldl | apply Reach.ite | split | (exact Reach.rfl') | (dsimp +zetaDelta only))

theorem execEndOfRunSwap_reach {L x0 x1 x2 x3 s} (h_arrs : Piece.arrs ∈ L) : ReachE L s (execEndOfRunSwap x0 x1 x2 x3 s) := by
  unfold execEndOfRunSwap
  with_reducible repeat'
    (first | assumption | apply ReachE.next | intro _ | extract_lets | apply endRun_reach | apply wh_reach |
      apply Reach.foldl | apply Reach.ite | split | (exact Reach.rfl') | (dsimp +zetaDelta only))

theorem execTplClear_reach {L x0 x1 s} (h_tpl_regs : Piece.regs .tpl ∈ L) (h_bus : Piece.bus ∈ L) : ReachE L s
    (execTplClear x0 x1 s) := by
  unfold execTplClear
  with_reducible repeat'
    (first | assumption | apply ReachE.next | intro _ | extract_lets | apply atDone_reach | apply tplClear_reach |
      apply wh_reach | apply Reach.foldl | apply Reach.ite | split | (exact Reach.rfl') | (dsimp +zetaDelta only))

theorem execTileDrain_reach {L x0 s} (h_yrd_regs : Piece.regs .yrd ∈ L) (h_mem_regs : Piece.regs .mem ∈ L)
    (h_lpd_regs : Piece.regs .lpd ∈ L) (h_mce_regs : Piece.regs .mce ∈ L) (h_sec_regs : Piece.regs .sec ∈ L)
    (h_ras_regs : Piece.regs .ras ∈ L) (h_evr_regs : Piece.regs .evr ∈ L) (h_mem : Piece.mem ∈ L) (h_flights : Piece.flights ∈ L)
    (h_arrs : Piece.arrs ∈ L) (h_yard : Piece.yard ∈ L) (h_retrain : Piece.retrain ∈ L) (h_accs : Piece.accs ∈ L)
    (h_nextTag : Piece.nextTag ∈ L) (h_ports : Piece.ports ∈ L) (h_evr : Piece.evr ∈ L) (h_freeCtr : Piece.freeCtr ∈ L) : ReachE L
    s (execTileDrain x0 s) := by
  unfold execTileDrain
  with_reducible repeat'
    (first | assumption | apply ReachE.next | intro _ | extract_lets | apply tileDrain_reach | apply wh_reach |
      apply Reach.foldl | apply Reach.ite | split | (exact Reach.rfl') | (dsimp +zetaDelta only))

theorem execConv_reach {L x0 s} (h_dsp_regs : Piece.regs .dsp ∈ L) (h_tpl_regs : Piece.regs .tpl ∈ L)
    (h_yrd_regs : Piece.regs .yrd ∈ L) (h_mem_regs : Piece.regs .mem ∈ L) (h_lpd_regs : Piece.regs .lpd ∈ L)
    (h_mce_regs : Piece.regs .mce ∈ L) (h_sec_regs : Piece.regs .sec ∈ L) (h_clk_regs : Piece.regs .clk ∈ L)
    (h_ras_regs : Piece.regs .ras ∈ L) (h_evr_regs : Piece.regs .evr ∈ L) (h_mem : Piece.mem ∈ L) (h_flights : Piece.flights ∈ L)
    (h_planners : Piece.planners ∈ L) (h_arrs : Piece.arrs ∈ L) (h_stks : Piece.stks ∈ L) (h_yard : Piece.yard ∈ L)
    (h_retrain : Piece.retrain ∈ L) (h_accs : Piece.accs ∈ L) (h_nextTag : Piece.nextTag ∈ L) (h_ports : Piece.ports ∈ L)
    (h_mce : Piece.mce ∈ L) (h_evr : Piece.evr ∈ L) (h_freeCtr : Piece.freeCtr ∈ L) : ReachE L s (execConv x0 s) := by
  unfold execConv
  with_reducible repeat'
    (first | assumption | apply ReachE.next | intro _ | extract_lets | apply convGo_reach | apply wh_reach |
      apply Reach.foldl | apply Reach.ite | split | (exact Reach.rfl') | (dsimp +zetaDelta only))

theorem execArrSnap_reach {L x0 x1 s} (h_arr_regs : Piece.regs .arr ∈ L) (h_bus : Piece.bus ∈ L) (h_arrs : Piece.arrs ∈ L) :
    ReachE L s (execArrSnap x0 x1 s) := by
  unfold execArrSnap
  with_reducible repeat'
    (first | assumption | apply ReachE.next | intro _ | extract_lets | apply atDone_reach | apply arrCtrl_reach |
      apply wh_reach | apply Reach.foldl | apply Reach.ite | split | (exact Reach.rfl') | (dsimp +zetaDelta only))

theorem execAttnSequenceRun_reach {L x0 s} (h_dsp_regs : Piece.regs .dsp ∈ L) (h_yrd_regs : Piece.regs .yrd ∈ L)
    (h_mem_regs : Piece.regs .mem ∈ L) (h_lpd_regs : Piece.regs .lpd ∈ L) (h_mce_regs : Piece.regs .mce ∈ L)
    (h_kvs_regs : Piece.regs .kvs ∈ L) (h_sec_regs : Piece.regs .sec ∈ L) (h_clk_regs : Piece.regs .clk ∈ L)
    (h_ras_regs : Piece.regs .ras ∈ L) (h_evr_regs : Piece.regs .evr ∈ L) (h_mem : Piece.mem ∈ L) (h_flights : Piece.flights ∈ L)
    (h_arrs : Piece.arrs ∈ L) (h_stks : Piece.stks ∈ L) (h_yard : Piece.yard ∈ L) (h_retrain : Piece.retrain ∈ L)
    (h_accs : Piece.accs ∈ L) (h_nextTag : Piece.nextTag ∈ L) (h_lab : Piece.lab ∈ L) (h_ports : Piece.ports ∈ L)
    (h_mce : Piece.mce ∈ L) (h_evr : Piece.evr ∈ L) (h_freeCtr : Piece.freeCtr ∈ L) : ReachE L s (execAttnSequenceRun x0 s) := by
  unfold execAttnSequenceRun
  with_reducible repeat'
    (first | assumption | apply ReachE.next | intro _ | extract_lets | apply attnStep_reach | apply wh_reach |
      apply Reach.foldl | apply Reach.ite | split | (exact Reach.rfl') | (dsimp +zetaDelta only))

theorem execKvsCmdReleased_reach {L x0 s} (h_yrd_regs : Piece.regs .yrd ∈ L) (h_mem_regs : Piece.regs .mem ∈ L)
    (h_lpd_regs : Piece.regs .lpd ∈ L) (h_mce_regs : Piece.regs .mce ∈ L) (h_kvs_regs : Piece.regs .kvs ∈ L)
    (h_sec_regs : Piece.regs .sec ∈ L) (h_ras_regs : Piece.regs .ras ∈ L) (h_evr_regs : Piece.regs .evr ∈ L)
    (h_mem : Piece.mem ∈ L) (h_yard : Piece.yard ∈ L) (h_accs : Piece.accs ∈ L) (h_nextTag : Piece.nextTag ∈ L)
    (h_kvs : Piece.kvs ∈ L) (h_lab : Piece.lab ∈ L) (h_ports : Piece.ports ∈ L) (h_mce : Piece.mce ∈ L) (h_evr : Piece.evr ∈ L)
    (h_freeCtr : Piece.freeCtr ∈ L) : ReachE L s (execKvsCmdReleased x0 s) := by
  unfold execKvsCmdReleased
  with_reducible repeat'
    (first | assumption | apply ReachE.next | intro _ | extract_lets | apply kvReleased_reach | apply wh_reach |
      apply Reach.foldl | apply Reach.ite | split | (exact Reach.rfl') | (dsimp +zetaDelta only))

theorem execKvsCmdClose_reach {L x0 x1 s} (h_yrd_regs : Piece.regs .yrd ∈ L) (h_mem_regs : Piece.regs .mem ∈ L)
    (h_lpd_regs : Piece.regs .lpd ∈ L) (h_mce_regs : Piece.regs .mce ∈ L) (h_kvs_regs : Piece.regs .kvs ∈ L)
    (h_sec_regs : Piece.regs .sec ∈ L) (h_ras_regs : Piece.regs .ras ∈ L) (h_evr_regs : Piece.regs .evr ∈ L)
    (h_bus : Piece.bus ∈ L) (h_mem : Piece.mem ∈ L) (h_yard : Piece.yard ∈ L) (h_accs : Piece.accs ∈ L)
    (h_nextTag : Piece.nextTag ∈ L) (h_kvs : Piece.kvs ∈ L) (h_lab : Piece.lab ∈ L) (h_ports : Piece.ports ∈ L)
    (h_mce : Piece.mce ∈ L) (h_evr : Piece.evr ∈ L) (h_freeCtr : Piece.freeCtr ∈ L) : ReachE L s (execKvsCmdClose x0 x1 s) := by
  unfold execKvsCmdClose
  with_reducible repeat'
    (first | assumption | apply ReachE.next | intro _ | extract_lets | apply kvsRow_reach | apply atDone_reach |
      apply wh_reach | apply Reach.foldl | apply Reach.ite | split | (exact Reach.rfl') | (dsimp +zetaDelta only))

theorem execAttnCapture_reach {L x0 s} (h_mem_regs : Piece.regs .mem ∈ L) (h_lpd_regs : Piece.regs .lpd ∈ L)
    (h_mce_regs : Piece.regs .mce ∈ L) (h_sec_regs : Piece.regs .sec ∈ L) (h_ras_regs : Piece.regs .ras ∈ L)
    (h_evr_regs : Piece.regs .evr ∈ L) (h_flights : Piece.flights ∈ L) (h_retrain : Piece.retrain ∈ L) (h_evr : Piece.evr ∈ L)
    (h_freeCtr : Piece.freeCtr ∈ L) : ReachE L s (execAttnCapture x0 s) := by
  unfold execAttnCapture
  with_reducible repeat'
    (first | assumption | apply ReachE.next | intro _ | extract_lets | apply attnCapture_reach | apply wh_reach |
      apply Reach.foldl | apply Reach.ite | split | (exact Reach.rfl') | (dsimp +zetaDelta only))

theorem execKvapp_reach {L x0 s} (h_tok_regs : Piece.regs .tok ∈ L) (h_yrd_regs : Piece.regs .yrd ∈ L)
    (h_mem_regs : Piece.regs .mem ∈ L) (h_lpd_regs : Piece.regs .lpd ∈ L) (h_mce_regs : Piece.regs .mce ∈ L)
    (h_kvs_regs : Piece.regs .kvs ∈ L) (h_sec_regs : Piece.regs .sec ∈ L) (h_ras_regs : Piece.regs .ras ∈ L)
    (h_evr_regs : Piece.regs .evr ∈ L) (h_mem : Piece.mem ∈ L) (h_toks : Piece.toks ∈ L) (h_flights : Piece.flights ∈ L)
    (h_stks : Piece.stks ∈ L) (h_yard : Piece.yard ∈ L) (h_retrain : Piece.retrain ∈ L) (h_accs : Piece.accs ∈ L)
    (h_nextTag : Piece.nextTag ∈ L) (h_kvs : Piece.kvs ∈ L) (h_lab : Piece.lab ∈ L) (h_ports : Piece.ports ∈ L)
    (h_mce : Piece.mce ∈ L) (h_evr : Piece.evr ∈ L) (h_freeCtr : Piece.freeCtr ∈ L) : ReachE L s (execKvapp x0 s) := by
  unfold execKvapp
  with_reducible repeat'
    (first | assumption | apply ReachE.next | intro _ | extract_lets | apply kvGo_reach | apply wh_reach | apply Reach.foldl |
      apply Reach.ite | split | (exact Reach.rfl') | (dsimp +zetaDelta only))

theorem execKvsCmdUnpark_reach {L x0 x1 s} (h_yrd_regs : Piece.regs .yrd ∈ L) (h_mem_regs : Piece.regs .mem ∈ L)
    (h_lpd_regs : Piece.regs .lpd ∈ L) (h_mce_regs : Piece.regs .mce ∈ L) (h_kvs_regs : Piece.regs .kvs ∈ L)
    (h_sec_regs : Piece.regs .sec ∈ L) (h_ras_regs : Piece.regs .ras ∈ L) (h_evr_regs : Piece.regs .evr ∈ L)
    (h_bus : Piece.bus ∈ L) (h_mem : Piece.mem ∈ L) (h_yard : Piece.yard ∈ L) (h_accs : Piece.accs ∈ L)
    (h_nextTag : Piece.nextTag ∈ L) (h_kvs : Piece.kvs ∈ L) (h_lab : Piece.lab ∈ L) (h_ports : Piece.ports ∈ L)
    (h_mce : Piece.mce ∈ L) (h_evr : Piece.evr ∈ L) (h_freeCtr : Piece.freeCtr ∈ L) : ReachE L s (execKvsCmdUnpark x0 x1 s) := by
  unfold execKvsCmdUnpark
  with_reducible repeat'
    (first | assumption | apply ReachE.next | intro _ | extract_lets | apply kvsRow_reach | apply atDone_reach |
      apply wh_reach | apply Reach.foldl | apply Reach.ite | split | (exact Reach.rfl') | (dsimp +zetaDelta only))

theorem execAttn_reach {L x0 s} (h_dsp_regs : Piece.regs .dsp ∈ L) (h_yrd_regs : Piece.regs .yrd ∈ L)
    (h_mem_regs : Piece.regs .mem ∈ L) (h_lpd_regs : Piece.regs .lpd ∈ L) (h_mce_regs : Piece.regs .mce ∈ L)
    (h_kvs_regs : Piece.regs .kvs ∈ L) (h_sec_regs : Piece.regs .sec ∈ L) (h_clk_regs : Piece.regs .clk ∈ L)
    (h_ras_regs : Piece.regs .ras ∈ L) (h_evr_regs : Piece.regs .evr ∈ L) (h_mem : Piece.mem ∈ L) (h_flights : Piece.flights ∈ L)
    (h_arrs : Piece.arrs ∈ L) (h_stks : Piece.stks ∈ L) (h_yard : Piece.yard ∈ L) (h_retrain : Piece.retrain ∈ L)
    (h_accs : Piece.accs ∈ L) (h_nextTag : Piece.nextTag ∈ L) (h_lab : Piece.lab ∈ L) (h_ports : Piece.ports ∈ L)
    (h_mce : Piece.mce ∈ L) (h_evr : Piece.evr ∈ L) (h_freeCtr : Piece.freeCtr ∈ L) : ReachE L s (execAttn x0 s) := by
  unfold execAttn
  with_reducible repeat'
    (first | assumption | apply ReachE.next | intro _ | extract_lets | apply attnGo_reach | apply wh_reach |
      apply Reach.foldl | apply Reach.ite | split | (exact Reach.rfl') | (dsimp +zetaDelta only))

theorem execKvsCmdSetBudget_reach {L x0 x1 s} (h_yrd_regs : Piece.regs .yrd ∈ L) (h_mem_regs : Piece.regs .mem ∈ L)
    (h_lpd_regs : Piece.regs .lpd ∈ L) (h_mce_regs : Piece.regs .mce ∈ L) (h_kvs_regs : Piece.regs .kvs ∈ L)
    (h_sec_regs : Piece.regs .sec ∈ L) (h_ras_regs : Piece.regs .ras ∈ L) (h_evr_regs : Piece.regs .evr ∈ L)
    (h_bus : Piece.bus ∈ L) (h_mem : Piece.mem ∈ L) (h_yard : Piece.yard ∈ L) (h_accs : Piece.accs ∈ L)
    (h_nextTag : Piece.nextTag ∈ L) (h_kvs : Piece.kvs ∈ L) (h_lab : Piece.lab ∈ L) (h_ports : Piece.ports ∈ L)
    (h_mce : Piece.mce ∈ L) (h_evr : Piece.evr ∈ L) (h_freeCtr : Piece.freeCtr ∈ L) : ReachE L s (execKvsCmdSetBudget x0 x1 s) :=
    by
  unfold execKvsCmdSetBudget
  with_reducible repeat'
    (first | assumption | apply ReachE.next | intro _ | extract_lets | apply kvsRow_reach | apply atDone_reach |
      apply wh_reach | apply Reach.foldl | apply Reach.ite | split | (exact Reach.rfl') | (dsimp +zetaDelta only))

theorem execKvsCmdAddFrames_reach {L x0 s} (h_yrd_regs : Piece.regs .yrd ∈ L) (h_mem_regs : Piece.regs .mem ∈ L)
    (h_lpd_regs : Piece.regs .lpd ∈ L) (h_mce_regs : Piece.regs .mce ∈ L) (h_kvs_regs : Piece.regs .kvs ∈ L)
    (h_sec_regs : Piece.regs .sec ∈ L) (h_ras_regs : Piece.regs .ras ∈ L) (h_evr_regs : Piece.regs .evr ∈ L)
    (h_bus : Piece.bus ∈ L) (h_mem : Piece.mem ∈ L) (h_yard : Piece.yard ∈ L) (h_accs : Piece.accs ∈ L)
    (h_nextTag : Piece.nextTag ∈ L) (h_kvs : Piece.kvs ∈ L) (h_lab : Piece.lab ∈ L) (h_ports : Piece.ports ∈ L)
    (h_mce : Piece.mce ∈ L) (h_evr : Piece.evr ∈ L) (h_freeCtr : Piece.freeCtr ∈ L) : ReachE L s (execKvsCmdAddFrames x0 s) := by
  unfold execKvsCmdAddFrames
  with_reducible repeat'
    (first | assumption | apply ReachE.next | intro _ | extract_lets | apply kvsRow_reach | apply atDone_reach |
      apply wh_reach | apply Reach.foldl | apply Reach.ite | split | (exact Reach.rfl') | (dsimp +zetaDelta only))

theorem execKvsCmdOpen_reach {L x0 x1 s} (h_yrd_regs : Piece.regs .yrd ∈ L) (h_mem_regs : Piece.regs .mem ∈ L)
    (h_lpd_regs : Piece.regs .lpd ∈ L) (h_mce_regs : Piece.regs .mce ∈ L) (h_kvs_regs : Piece.regs .kvs ∈ L)
    (h_sec_regs : Piece.regs .sec ∈ L) (h_ras_regs : Piece.regs .ras ∈ L) (h_evr_regs : Piece.regs .evr ∈ L)
    (h_bus : Piece.bus ∈ L) (h_mem : Piece.mem ∈ L) (h_yard : Piece.yard ∈ L) (h_accs : Piece.accs ∈ L)
    (h_nextTag : Piece.nextTag ∈ L) (h_kvs : Piece.kvs ∈ L) (h_lab : Piece.lab ∈ L) (h_ports : Piece.ports ∈ L)
    (h_mce : Piece.mce ∈ L) (h_evr : Piece.evr ∈ L) (h_freeCtr : Piece.freeCtr ∈ L) : ReachE L s (execKvsCmdOpen x0 x1 s) := by
  unfold execKvsCmdOpen
  with_reducible repeat'
    (first | assumption | apply ReachE.next | intro _ | extract_lets | apply kvsRow_reach | apply atDone_reach |
      apply wh_reach | apply Reach.foldl | apply Reach.ite | split | (exact Reach.rfl') | (dsimp +zetaDelta only))

theorem execKvappItem_reach {L x0 s} (h_tok_regs : Piece.regs .tok ∈ L) (h_yrd_regs : Piece.regs .yrd ∈ L)
    (h_mem_regs : Piece.regs .mem ∈ L) (h_lpd_regs : Piece.regs .lpd ∈ L) (h_mce_regs : Piece.regs .mce ∈ L)
    (h_kvs_regs : Piece.regs .kvs ∈ L) (h_sec_regs : Piece.regs .sec ∈ L) (h_ras_regs : Piece.regs .ras ∈ L)
    (h_evr_regs : Piece.regs .evr ∈ L) (h_mem : Piece.mem ∈ L) (h_toks : Piece.toks ∈ L) (h_flights : Piece.flights ∈ L)
    (h_stks : Piece.stks ∈ L) (h_yard : Piece.yard ∈ L) (h_retrain : Piece.retrain ∈ L) (h_accs : Piece.accs ∈ L)
    (h_nextTag : Piece.nextTag ∈ L) (h_kvs : Piece.kvs ∈ L) (h_lab : Piece.lab ∈ L) (h_ports : Piece.ports ∈ L)
    (h_mce : Piece.mce ∈ L) (h_evr : Piece.evr ∈ L) (h_freeCtr : Piece.freeCtr ∈ L) : ReachE L s (execKvappItem x0 s) := by
  unfold execKvappItem
  with_reducible repeat'
    (first | assumption | apply ReachE.next | intro _ | extract_lets | apply wh_reach | apply kvStep_reach |
      apply Reach.foldl | apply Reach.ite | split | (exact Reach.rfl') | (dsimp +zetaDelta only))

theorem execKvsCmdTrim_reach {L x0 x1 s} (h_yrd_regs : Piece.regs .yrd ∈ L) (h_mem_regs : Piece.regs .mem ∈ L)
    (h_lpd_regs : Piece.regs .lpd ∈ L) (h_mce_regs : Piece.regs .mce ∈ L) (h_kvs_regs : Piece.regs .kvs ∈ L)
    (h_sec_regs : Piece.regs .sec ∈ L) (h_ras_regs : Piece.regs .ras ∈ L) (h_evr_regs : Piece.regs .evr ∈ L)
    (h_bus : Piece.bus ∈ L) (h_mem : Piece.mem ∈ L) (h_yard : Piece.yard ∈ L) (h_accs : Piece.accs ∈ L)
    (h_nextTag : Piece.nextTag ∈ L) (h_kvs : Piece.kvs ∈ L) (h_lab : Piece.lab ∈ L) (h_ports : Piece.ports ∈ L)
    (h_mce : Piece.mce ∈ L) (h_evr : Piece.evr ∈ L) (h_freeCtr : Piece.freeCtr ∈ L) : ReachE L s (execKvsCmdTrim x0 x1 s) := by
  unfold execKvsCmdTrim
  with_reducible repeat'
    (first | assumption | apply ReachE.next | intro _ | extract_lets | apply kvsRow_reach | apply atDone_reach |
      apply wh_reach | apply Reach.foldl | apply Reach.ite | split | (exact Reach.rfl') | (dsimp +zetaDelta only))

theorem execStreamSwapIn_reach {L x0 x1 s} (h_yrd_regs : Piece.regs .yrd ∈ L) (h_mem_regs : Piece.regs .mem ∈ L)
    (h_lpd_regs : Piece.regs .lpd ∈ L) (h_mce_regs : Piece.regs .mce ∈ L) (h_sec_regs : Piece.regs .sec ∈ L)
    (h_ras_regs : Piece.regs .ras ∈ L) (h_evr_regs : Piece.regs .evr ∈ L) (h_mem : Piece.mem ∈ L) (h_flights : Piece.flights ∈ L)
    (h_yard : Piece.yard ∈ L) (h_accs : Piece.accs ∈ L) (h_nextTag : Piece.nextTag ∈ L) (h_scn : Piece.scn ∈ L)
    (h_ports : Piece.ports ∈ L) (h_mce : Piece.mce ∈ L) (h_evr : Piece.evr ∈ L) (h_freeCtr : Piece.freeCtr ∈ L) : ReachE L s
    (execStreamSwapIn x0 x1 s) := by
  unfold execStreamSwapIn
  with_reducible repeat'
    (first | assumption | apply ReachE.next | intro _ | extract_lets | apply streamSwapIn_reach | apply wh_reach |
      apply Reach.foldl | apply Reach.ite | split | (exact Reach.rfl') | (dsimp +zetaDelta only))

theorem execSwapInComplete_reach {L x0 x1 s} (h_yrd_regs : Piece.regs .yrd ∈ L) (h_mem_regs : Piece.regs .mem ∈ L)
    (h_lpd_regs : Piece.regs .lpd ∈ L) (h_mce_regs : Piece.regs .mce ∈ L) (h_scn_regs : Piece.regs .scn ∈ L)
    (h_sec_regs : Piece.regs .sec ∈ L) (h_ras_regs : Piece.regs .ras ∈ L) (h_evr_regs : Piece.regs .evr ∈ L)
    (h_mem : Piece.mem ∈ L) (h_flights : Piece.flights ∈ L) (h_stks : Piece.stks ∈ L) (h_yard : Piece.yard ∈ L)
    (h_accs : Piece.accs ∈ L) (h_nextTag : Piece.nextTag ∈ L) (h_scn : Piece.scn ∈ L) (h_ports : Piece.ports ∈ L)
    (h_mce : Piece.mce ∈ L) (h_evr : Piece.evr ∈ L) (h_freeCtr : Piece.freeCtr ∈ L) : ReachE L s (execSwapInComplete x0 x1 s) :=
    by
  unfold execSwapInComplete
  with_reducible repeat'
    (first | assumption | apply ReachE.next | intro _ | extract_lets | apply swapInComplete_reach | apply wh_reach |
      apply Reach.foldl | apply Reach.ite | split | (exact Reach.rfl') | (dsimp +zetaDelta only))

theorem execSwapOut_reach {L x0 s} (h_yrd_regs : Piece.regs .yrd ∈ L) (h_mem_regs : Piece.regs .mem ∈ L)
    (h_lpd_regs : Piece.regs .lpd ∈ L) (h_mce_regs : Piece.regs .mce ∈ L) (h_scn_regs : Piece.regs .scn ∈ L)
    (h_sec_regs : Piece.regs .sec ∈ L) (h_ras_regs : Piece.regs .ras ∈ L) (h_evr_regs : Piece.regs .evr ∈ L)
    (h_mem : Piece.mem ∈ L) (h_flights : Piece.flights ∈ L) (h_stks : Piece.stks ∈ L) (h_yard : Piece.yard ∈ L)
    (h_accs : Piece.accs ∈ L) (h_nextTag : Piece.nextTag ∈ L) (h_scn : Piece.scn ∈ L) (h_ports : Piece.ports ∈ L)
    (h_mce : Piece.mce ∈ L) (h_evr : Piece.evr ∈ L) (h_freeCtr : Piece.freeCtr ∈ L) : ReachE L s (execSwapOut x0 s) := by
  unfold execSwapOut
  with_reducible repeat'
    (first | assumption | apply ReachE.next | intro _ | extract_lets | apply swapGo_reach | apply wh_reach |
      apply Reach.foldl | apply Reach.ite | split | (exact Reach.rfl') | (dsimp +zetaDelta only))

theorem execScnCmdClose_reach {L x0 x1 s} (h_yrd_regs : Piece.regs .yrd ∈ L) (h_mem_regs : Piece.regs .mem ∈ L)
    (h_lpd_regs : Piece.regs .lpd ∈ L) (h_mce_regs : Piece.regs .mce ∈ L) (h_scn_regs : Piece.regs .scn ∈ L)
    (h_sec_regs : Piece.regs .sec ∈ L) (h_ras_regs : Piece.regs .ras ∈ L) (h_evr_regs : Piece.regs .evr ∈ L)
    (h_bus : Piece.bus ∈ L) (h_mem : Piece.mem ∈ L) (h_stks : Piece.stks ∈ L) (h_yard : Piece.yard ∈ L) (h_accs : Piece.accs ∈ L)
    (h_nextTag : Piece.nextTag ∈ L) (h_scn : Piece.scn ∈ L) (h_ports : Piece.ports ∈ L) (h_mce : Piece.mce ∈ L)
    (h_evr : Piece.evr ∈ L) (h_freeCtr : Piece.freeCtr ∈ L) : ReachE L s (execScnCmdClose x0 x1 s) := by
  unfold execScnCmdClose
  with_reducible repeat'
    (first | assumption | apply ReachE.next | intro _ | extract_lets | apply scnRow_reach | apply atDone_reach |
      apply wh_reach | apply Reach.foldl | apply Reach.ite | split | (exact Reach.rfl') | (dsimp +zetaDelta only))

theorem execScnCmdOpen_reach {L x0 x1 s} (h_yrd_regs : Piece.regs .yrd ∈ L) (h_mem_regs : Piece.regs .mem ∈ L)
    (h_lpd_regs : Piece.regs .lpd ∈ L) (h_mce_regs : Piece.regs .mce ∈ L) (h_scn_regs : Piece.regs .scn ∈ L)
    (h_sec_regs : Piece.regs .sec ∈ L) (h_ras_regs : Piece.regs .ras ∈ L) (h_evr_regs : Piece.regs .evr ∈ L)
    (h_bus : Piece.bus ∈ L) (h_mem : Piece.mem ∈ L) (h_stks : Piece.stks ∈ L) (h_yard : Piece.yard ∈ L) (h_accs : Piece.accs ∈ L)
    (h_nextTag : Piece.nextTag ∈ L) (h_scn : Piece.scn ∈ L) (h_ports : Piece.ports ∈ L) (h_mce : Piece.mce ∈ L)
    (h_evr : Piece.evr ∈ L) (h_freeCtr : Piece.freeCtr ∈ L) : ReachE L s (execScnCmdOpen x0 x1 s) := by
  unfold execScnCmdOpen
  with_reducible repeat'
    (first | assumption | apply ReachE.next | intro _ | extract_lets | apply scnRow_reach | apply atDone_reach |
      apply wh_reach | apply Reach.foldl | apply Reach.ite | split | (exact Reach.rfl') | (dsimp +zetaDelta only))

theorem execSwapIn_reach {L x0 s} (h_yrd_regs : Piece.regs .yrd ∈ L) (h_mem_regs : Piece.regs .mem ∈ L)
    (h_lpd_regs : Piece.regs .lpd ∈ L) (h_mce_regs : Piece.regs .mce ∈ L) (h_scn_regs : Piece.regs .scn ∈ L)
    (h_sec_regs : Piece.regs .sec ∈ L) (h_ras_regs : Piece.regs .ras ∈ L) (h_evr_regs : Piece.regs .evr ∈ L)
    (h_mem : Piece.mem ∈ L) (h_flights : Piece.flights ∈ L) (h_stks : Piece.stks ∈ L) (h_yard : Piece.yard ∈ L)
    (h_accs : Piece.accs ∈ L) (h_nextTag : Piece.nextTag ∈ L) (h_scn : Piece.scn ∈ L) (h_ports : Piece.ports ∈ L)
    (h_mce : Piece.mce ∈ L) (h_evr : Piece.evr ∈ L) (h_freeCtr : Piece.freeCtr ∈ L) : ReachE L s (execSwapIn x0 s) := by
  unfold execSwapIn
  with_reducible repeat'
    (first | assumption | apply ReachE.next | intro _ | extract_lets | apply swapGo_reach | apply wh_reach |
      apply Reach.foldl | apply Reach.ite | split | (exact Reach.rfl') | (dsimp +zetaDelta only))

theorem execScnCmdReleased_reach {L x0 s} (h_yrd_regs : Piece.regs .yrd ∈ L) (h_mem_regs : Piece.regs .mem ∈ L)
    (h_lpd_regs : Piece.regs .lpd ∈ L) (h_mce_regs : Piece.regs .mce ∈ L) (h_scn_regs : Piece.regs .scn ∈ L)
    (h_sec_regs : Piece.regs .sec ∈ L) (h_ras_regs : Piece.regs .ras ∈ L) (h_evr_regs : Piece.regs .evr ∈ L)
    (h_mem : Piece.mem ∈ L) (h_stks : Piece.stks ∈ L) (h_yard : Piece.yard ∈ L) (h_accs : Piece.accs ∈ L)
    (h_nextTag : Piece.nextTag ∈ L) (h_scn : Piece.scn ∈ L) (h_ports : Piece.ports ∈ L) (h_mce : Piece.mce ∈ L)
    (h_evr : Piece.evr ∈ L) (h_freeCtr : Piece.freeCtr ∈ L) : ReachE L s (execScnCmdReleased x0 s) := by
  unfold execScnCmdReleased
  with_reducible repeat'
    (first | assumption | apply ReachE.next | intro _ | extract_lets | apply scnReleased_reach | apply wh_reach |
      apply Reach.foldl | apply Reach.ite | split | (exact Reach.rfl') | (dsimp +zetaDelta only))

theorem execSwapSync_reach {L x0 s} (h_yrd_regs : Piece.regs .yrd ∈ L) (h_mem_regs : Piece.regs .mem ∈ L)
    (h_lpd_regs : Piece.regs .lpd ∈ L) (h_mce_regs : Piece.regs .mce ∈ L) (h_scn_regs : Piece.regs .scn ∈ L)
    (h_sec_regs : Piece.regs .sec ∈ L) (h_ras_regs : Piece.regs .ras ∈ L) (h_evr_regs : Piece.regs .evr ∈ L)
    (h_mem : Piece.mem ∈ L) (h_flights : Piece.flights ∈ L) (h_stks : Piece.stks ∈ L) (h_yard : Piece.yard ∈ L)
    (h_accs : Piece.accs ∈ L) (h_nextTag : Piece.nextTag ∈ L) (h_scn : Piece.scn ∈ L) (h_ports : Piece.ports ∈ L)
    (h_mce : Piece.mce ∈ L) (h_evr : Piece.evr ∈ L) (h_freeCtr : Piece.freeCtr ∈ L) : ReachE L s (execSwapSync x0 s) := by
  unfold execSwapSync
  with_reducible repeat'
    (first | assumption | apply ReachE.next | intro _ | extract_lets | apply swapGo_reach | apply wh_reach |
      apply Reach.foldl | apply Reach.ite | split | (exact Reach.rfl') | (dsimp +zetaDelta only))

theorem execSwapOutComplete_reach {L x0 x1 s} (h_yrd_regs : Piece.regs .yrd ∈ L) (h_mem_regs : Piece.regs .mem ∈ L)
    (h_lpd_regs : Piece.regs .lpd ∈ L) (h_mce_regs : Piece.regs .mce ∈ L) (h_scn_regs : Piece.regs .scn ∈ L)
    (h_sec_regs : Piece.regs .sec ∈ L) (h_ras_regs : Piece.regs .ras ∈ L) (h_evr_regs : Piece.regs .evr ∈ L)
    (h_mem : Piece.mem ∈ L) (h_stks : Piece.stks ∈ L) (h_yard : Piece.yard ∈ L) (h_accs : Piece.accs ∈ L)
    (h_nextTag : Piece.nextTag ∈ L) (h_scn : Piece.scn ∈ L) (h_ports : Piece.ports ∈ L) (h_mce : Piece.mce ∈ L)
    (h_evr : Piece.evr ∈ L) (h_freeCtr : Piece.freeCtr ∈ L) : ReachE L s (execSwapOutComplete x0 x1 s) := by
  unfold execSwapOutComplete
  with_reducible repeat'
    (first | assumption | apply ReachE.next | intro _ | extract_lets | apply swapOutComplete_reach | apply wh_reach |
      apply Reach.foldl | apply Reach.ite | split | (exact Reach.rfl') | (dsimp +zetaDelta only))

theorem execScnCmdZero_reach {L x0 x1 s} (h_yrd_regs : Piece.regs .yrd ∈ L) (h_mem_regs : Piece.regs .mem ∈ L)
    (h_lpd_regs : Piece.regs .lpd ∈ L) (h_mce_regs : Piece.regs .mce ∈ L) (h_scn_regs : Piece.regs .scn ∈ L)
    (h_sec_regs : Piece.regs .sec ∈ L) (h_ras_regs : Piece.regs .ras ∈ L) (h_evr_regs : Piece.regs .evr ∈ L)
    (h_bus : Piece.bus ∈ L) (h_mem : Piece.mem ∈ L) (h_stks : Piece.stks ∈ L) (h_yard : Piece.yard ∈ L) (h_accs : Piece.accs ∈ L)
    (h_nextTag : Piece.nextTag ∈ L) (h_scn : Piece.scn ∈ L) (h_ports : Piece.ports ∈ L) (h_mce : Piece.mce ∈ L)
    (h_evr : Piece.evr ∈ L) (h_freeCtr : Piece.freeCtr ∈ L) : ReachE L s (execScnCmdZero x0 x1 s) := by
  unfold execScnCmdZero
  with_reducible repeat'
    (first | assumption | apply ReachE.next | intro _ | extract_lets | apply scnRow_reach | apply atDone_reach |
      apply wh_reach | apply Reach.foldl | apply Reach.ite | split | (exact Reach.rfl') | (dsimp +zetaDelta only))

theorem execScanChunk_reach {L x0 x1 x2 s} (h_dsp_regs : Piece.regs .dsp ∈ L) (h_yrd_regs : Piece.regs .yrd ∈ L)
    (h_mem_regs : Piece.regs .mem ∈ L) (h_lpd_regs : Piece.regs .lpd ∈ L) (h_mce_regs : Piece.regs .mce ∈ L)
    (h_sec_regs : Piece.regs .sec ∈ L) (h_clk_regs : Piece.regs .clk ∈ L) (h_ras_regs : Piece.regs .ras ∈ L)
    (h_evr_regs : Piece.regs .evr ∈ L) (h_mem : Piece.mem ∈ L) (h_flights : Piece.flights ∈ L) (h_arrs : Piece.arrs ∈ L)
    (h_yard : Piece.yard ∈ L) (h_retrain : Piece.retrain ∈ L) (h_accs : Piece.accs ∈ L) (h_nextTag : Piece.nextTag ∈ L)
    (h_ports : Piece.ports ∈ L) (h_mce : Piece.mce ∈ L) (h_evr : Piece.evr ∈ L) (h_freeCtr : Piece.freeCtr ∈ L) : ReachE L s
    (execScanChunk x0 x1 x2 s) := by
  unfold execScanChunk
  with_reducible repeat'
    (first | assumption | apply ReachE.next | intro _ | extract_lets | apply scanChunk_reach | apply wh_reach |
      apply Reach.foldl | apply Reach.ite | split | (exact Reach.rfl') | (dsimp +zetaDelta only))

theorem execScan_reach {L x0 s} (h_dsp_regs : Piece.regs .dsp ∈ L) (h_yrd_regs : Piece.regs .yrd ∈ L)
    (h_mem_regs : Piece.regs .mem ∈ L) (h_lpd_regs : Piece.regs .lpd ∈ L) (h_mce_regs : Piece.regs .mce ∈ L)
    (h_scn_regs : Piece.regs .scn ∈ L) (h_sec_regs : Piece.regs .sec ∈ L) (h_clk_regs : Piece.regs .clk ∈ L)
    (h_ras_regs : Piece.regs .ras ∈ L) (h_evr_regs : Piece.regs .evr ∈ L) (h_mem : Piece.mem ∈ L) (h_flights : Piece.flights ∈ L)
    (h_arrs : Piece.arrs ∈ L) (h_stks : Piece.stks ∈ L) (h_yard : Piece.yard ∈ L) (h_retrain : Piece.retrain ∈ L)
    (h_accs : Piece.accs ∈ L) (h_nextTag : Piece.nextTag ∈ L) (h_scn : Piece.scn ∈ L) (h_ports : Piece.ports ∈ L)
    (h_mce : Piece.mce ∈ L) (h_evr : Piece.evr ∈ L) (h_freeCtr : Piece.freeCtr ∈ L) : ReachE L s (execScan x0 s) := by
  unfold execScan
  with_reducible repeat'
    (first | assumption | apply ReachE.next | intro _ | extract_lets | apply scanGo_reach | apply wh_reach |
      apply Reach.foldl | apply Reach.ite | split | (exact Reach.rfl') | (dsimp +zetaDelta only))

theorem execScanAdmit_reach {L x0 s} (h_yrd_regs : Piece.regs .yrd ∈ L) (h_mem_regs : Piece.regs .mem ∈ L)
    (h_lpd_regs : Piece.regs .lpd ∈ L) (h_mce_regs : Piece.regs .mce ∈ L) (h_scn_regs : Piece.regs .scn ∈ L)
    (h_sec_regs : Piece.regs .sec ∈ L) (h_ras_regs : Piece.regs .ras ∈ L) (h_evr_regs : Piece.regs .evr ∈ L)
    (h_mem : Piece.mem ∈ L) (h_flights : Piece.flights ∈ L) (h_yard : Piece.yard ∈ L) (h_retrain : Piece.retrain ∈ L)
    (h_accs : Piece.accs ∈ L) (h_nextTag : Piece.nextTag ∈ L) (h_ports : Piece.ports ∈ L) (h_mce : Piece.mce ∈ L)
    (h_evr : Piece.evr ∈ L) (h_freeCtr : Piece.freeCtr ∈ L) : ReachE L s (execScanAdmit x0 s) := by
  unfold execScanAdmit
  with_reducible repeat'
    (first | assumption | apply ReachE.next | intro _ | extract_lets | apply scanAdmit_reach | apply wh_reach |
      apply Reach.foldl | apply Reach.ite | split | (exact Reach.rfl') | (dsimp +zetaDelta only))

theorem execDeferredFlushStart_reach {L s} (h_evr : Piece.evr ∈ L) (h_freeCtr : Piece.freeCtr ∈ L) : ReachE L s
    (execDeferredFlushStart s) := by
  unfold execDeferredFlushStart
  with_reducible repeat'
    (first | assumption | apply ReachE.next | intro _ | extract_lets | apply wh_reach | apply deferredFlush_reach |
      apply Reach.foldl | apply Reach.ite | split | (exact Reach.rfl') | (dsimp +zetaDelta only))

theorem execEvrClear_reach {L x0 s} (h_yrd_regs : Piece.regs .yrd ∈ L) (h_mem_regs : Piece.regs .mem ∈ L)
    (h_lpd_regs : Piece.regs .lpd ∈ L) (h_mce_regs : Piece.regs .mce ∈ L) (h_sec_regs : Piece.regs .sec ∈ L)
    (h_ras_regs : Piece.regs .ras ∈ L) (h_evr_regs : Piece.regs .evr ∈ L) (h_bus : Piece.bus ∈ L) (h_mem : Piece.mem ∈ L)
    (h_yard : Piece.yard ∈ L) (h_accs : Piece.accs ∈ L) (h_nextTag : Piece.nextTag ∈ L) (h_ports : Piece.ports ∈ L)
    (h_mce : Piece.mce ∈ L) (h_evr : Piece.evr ∈ L) (h_freeCtr : Piece.freeCtr ∈ L) : ReachE L s (execEvrClear x0 s) := by
  unfold execEvrClear
  with_reducible repeat'
    (first | assumption | apply ReachE.next | intro _ | extract_lets | apply onZero_reach | apply evrCommand_reach |
      apply wh_reach | apply Reach.foldl | apply Reach.ite | split | (exact Reach.rfl') | (dsimp +zetaDelta only))

theorem execDump_reach {L x0 s} (h_yrd_regs : Piece.regs .yrd ∈ L) (h_mem_regs : Piece.regs .mem ∈ L)
    (h_lpd_regs : Piece.regs .lpd ∈ L) (h_mce_regs : Piece.regs .mce ∈ L) (h_sec_regs : Piece.regs .sec ∈ L)
    (h_ras_regs : Piece.regs .ras ∈ L) (h_evr_regs : Piece.regs .evr ∈ L) (h_bus : Piece.bus ∈ L) (h_mem : Piece.mem ∈ L)
    (h_yard : Piece.yard ∈ L) (h_accs : Piece.accs ∈ L) (h_nextTag : Piece.nextTag ∈ L) (h_ports : Piece.ports ∈ L)
    (h_mce : Piece.mce ∈ L) (h_evr : Piece.evr ∈ L) (h_freeCtr : Piece.freeCtr ∈ L) : ReachE L s (execDump x0 s) := by
  unfold execDump
  with_reducible repeat'
    (first | assumption | apply ReachE.next | intro _ | extract_lets | apply onZero_reach | apply evrCommand_reach |
      apply wh_reach | apply Reach.foldl | apply Reach.ite | split | (exact Reach.rfl') | (dsimp +zetaDelta only))

theorem execFrameErase_reach {L s} (h_flash : Piece.flash ∈ L) (h_evr : Piece.evr ∈ L) : ReachE L s (execFrameErase s) := by
  unfold execFrameErase
  with_reducible repeat'
    (first | assumption | apply ReachE.next | intro _ | extract_lets | apply eraseFrame_reach | apply wh_reach |
      apply Reach.foldl | apply Reach.ite | split | (exact Reach.rfl') | (dsimp +zetaDelta only))

theorem execEventRecord_reach {L x0 s} (h_ras_regs : Piece.regs .ras ∈ L) (h_evr_regs : Piece.regs .evr ∈ L)
    (h_evr : Piece.evr ∈ L) (h_freeCtr : Piece.freeCtr ∈ L) : ReachE L s (execEventRecord x0 s) := by
  unfold execEventRecord
  with_reducible repeat'
    (first | assumption | apply ReachE.next | intro _ | extract_lets | apply eventRecord_reach | apply wh_reach |
      apply Reach.foldl | apply Reach.ite | split | (exact Reach.rfl') | (dsimp +zetaDelta only))

theorem execRingRead_reach {L x0 x1 s} (h_yrd_regs : Piece.regs .yrd ∈ L) (h_mem_regs : Piece.regs .mem ∈ L)
    (h_lpd_regs : Piece.regs .lpd ∈ L) (h_mce_regs : Piece.regs .mce ∈ L) (h_sec_regs : Piece.regs .sec ∈ L)
    (h_ras_regs : Piece.regs .ras ∈ L) (h_evr_regs : Piece.regs .evr ∈ L) (h_bus : Piece.bus ∈ L) (h_mem : Piece.mem ∈ L)
    (h_yard : Piece.yard ∈ L) (h_accs : Piece.accs ∈ L) (h_nextTag : Piece.nextTag ∈ L) (h_ports : Piece.ports ∈ L)
    (h_mce : Piece.mce ∈ L) (h_evr : Piece.evr ∈ L) (h_freeCtr : Piece.freeCtr ∈ L) : ReachE L s (execRingRead x0 x1 s) := by
  unfold execRingRead
  with_reducible repeat'
    (first | assumption | apply ReachE.next | intro _ | extract_lets | apply onZero_reach | apply evrCommand_reach |
      apply wh_reach | apply Reach.foldl | apply Reach.ite | split | (exact Reach.rfl') | (dsimp +zetaDelta only))

theorem execEvrFlush_reach {L x0 s} (h_yrd_regs : Piece.regs .yrd ∈ L) (h_mem_regs : Piece.regs .mem ∈ L)
    (h_lpd_regs : Piece.regs .lpd ∈ L) (h_mce_regs : Piece.regs .mce ∈ L) (h_sec_regs : Piece.regs .sec ∈ L)
    (h_ras_regs : Piece.regs .ras ∈ L) (h_evr_regs : Piece.regs .evr ∈ L) (h_bus : Piece.bus ∈ L) (h_mem : Piece.mem ∈ L)
    (h_yard : Piece.yard ∈ L) (h_accs : Piece.accs ∈ L) (h_nextTag : Piece.nextTag ∈ L) (h_ports : Piece.ports ∈ L)
    (h_mce : Piece.mce ∈ L) (h_evr : Piece.evr ∈ L) (h_freeCtr : Piece.freeCtr ∈ L) : ReachE L s (execEvrFlush x0 s) := by
  unfold execEvrFlush
  with_reducible repeat'
    (first | assumption | apply ReachE.next | intro _ | extract_lets | apply onZero_reach | apply evrCommand_reach |
      apply wh_reach | apply Reach.foldl | apply Reach.ite | split | (exact Reach.rfl') | (dsimp +zetaDelta only))

theorem execFlushWriteComplete_reach {L s} (h_flash : Piece.flash ∈ L) (h_evr : Piece.evr ∈ L) : ReachE L s
    (execFlushWriteComplete s) := by
  unfold execFlushWriteComplete
  with_reducible repeat'
    (first | assumption | apply ReachE.next | intro _ | extract_lets | apply flushDone_reach | apply wh_reach |
      apply Reach.foldl | apply Reach.ite | split | (exact Reach.rfl') | (dsimp +zetaDelta only))

theorem execTrainFlitReceive_reach {L x0 x1 x2 s} (h_mem_regs : Piece.regs .mem ∈ L) (h_fab_regs : Piece.regs .fab ∈ L)
    (h_sec_regs : Piece.regs .sec ∈ L) (h_ras_regs : Piece.regs .ras ∈ L) (h_evr_regs : Piece.regs .evr ∈ L)
    (h_ports : Piece.ports ∈ L) (h_ivs : Piece.ivs ∈ L) (h_sec : Piece.sec ∈ L) (h_evr : Piece.evr ∈ L) (h_out : Piece.out ∈ L)
    (h_freeCtr : Piece.freeCtr ∈ L) : ReachE L s (execTrainFlitReceive x0 x1 x2 s) := by
  unfold execTrainFlitReceive
  with_reducible repeat'
    (first | assumption | apply ReachE.next | intro _ | extract_lets | apply arrive_reach | apply wh_reach |
      apply Reach.foldl | apply Reach.ite | split | (exact Reach.rfl') | (dsimp +zetaDelta only))

theorem execAuthFlitReceive_reach {L x0 x1 x2 s} (h_mem_regs : Piece.regs .mem ∈ L) (h_fab_regs : Piece.regs .fab ∈ L)
    (h_sec_regs : Piece.regs .sec ∈ L) (h_ras_regs : Piece.regs .ras ∈ L) (h_evr_regs : Piece.regs .evr ∈ L)
    (h_ports : Piece.ports ∈ L) (h_ivs : Piece.ivs ∈ L) (h_sec : Piece.sec ∈ L) (h_evr : Piece.evr ∈ L) (h_out : Piece.out ∈ L)
    (h_freeCtr : Piece.freeCtr ∈ L) : ReachE L s (execAuthFlitReceive x0 x1 x2 s) := by
  unfold execAuthFlitReceive
  with_reducible repeat'
    (first | assumption | apply ReachE.next | intro _ | extract_lets | apply arrive_reach | apply wh_reach |
      apply Reach.foldl | apply Reach.ite | split | (exact Reach.rfl') | (dsimp +zetaDelta only))

theorem execMarginCheck_reach {L x0 x1 x2 s} (h_fab_regs : Piece.regs .fab ∈ L) (h_ports : Piece.ports ∈ L) : ReachE L s
    (execMarginCheck x0 x1 x2 s) := by
  unfold execMarginCheck
  with_reducible repeat'
    (first | assumption | apply ReachE.next | intro _ | extract_lets | apply marginIn_reach | apply wh_reach |
      apply Reach.foldl | apply Reach.ite | split | (exact Reach.rfl') | (dsimp +zetaDelta only))

theorem execPmdTrainDone_reach {L x0 x1 s} (h_ports : Piece.ports ∈ L) (h_out : Piece.out ∈ L) : ReachE L s
    (execPmdTrainDone x0 x1 s) := by
  unfold execPmdTrainDone
  with_reducible repeat'
    (first | assumption | apply ReachE.next | intro _ | extract_lets | apply stageEnd_reach | apply wh_reach |
      apply Reach.foldl | apply Reach.ite | split | (exact Reach.rfl') | (dsimp +zetaDelta only))

theorem execSequencedFlitReceive_reach {L x0 x1 x2 x3 s} (h_mem_regs : Piece.regs .mem ∈ L) (h_fab_regs : Piece.regs .fab ∈ L)
    (h_sec_regs : Piece.regs .sec ∈ L) (h_ras_regs : Piece.regs .ras ∈ L) (h_evr_regs : Piece.regs .evr ∈ L)
    (h_ports : Piece.ports ∈ L) (h_ivs : Piece.ivs ∈ L) (h_sec : Piece.sec ∈ L) (h_evr : Piece.evr ∈ L) (h_out : Piece.out ∈ L)
    (h_freeCtr : Piece.freeCtr ∈ L) : ReachE L s (execSequencedFlitReceive x0 x1 x2 x3 s) := by
  unfold execSequencedFlitReceive
  with_reducible repeat'
    (first | assumption | apply ReachE.next | intro _ | extract_lets | apply arrive_reach | apply wh_reach |
      apply Reach.foldl | apply Reach.ite | split | (exact Reach.rfl') | (dsimp +zetaDelta only))

theorem execMessageSend_reach {L x0 s} (h_mem_regs : Piece.regs .mem ∈ L) (h_fab_regs : Piece.regs .fab ∈ L)
    (h_ras_regs : Piece.regs .ras ∈ L) (h_evr_regs : Piece.regs .evr ∈ L) (h_ports : Piece.ports ∈ L) (h_secs : Piece.secs ∈ L)
    (h_evr : Piece.evr ∈ L) (h_out : Piece.out ∈ L) (h_freeCtr : Piece.freeCtr ∈ L) : ReachE L s (execMessageSend x0 s) := by
  unfold execMessageSend
  with_reducible repeat'
    (first | assumption | apply ReachE.next | intro _ | extract_lets | apply msgSend_reach | apply wh_reach |
      apply Reach.foldl | apply Reach.ite | split | (exact Reach.rfl') | (dsimp +zetaDelta only))

theorem execAuthTimeout_reach {L x0 s} (h_sec_regs : Piece.regs .sec ∈ L) (h_ports : Piece.ports ∈ L) : ReachE L s
    (execAuthTimeout x0 s) := by
  unfold execAuthTimeout
  with_reducible repeat'
    (first | assumption | apply ReachE.next | intro _ | extract_lets | apply authFail_reach | apply wh_reach |
      apply Reach.foldl | apply Reach.ite | split | (exact Reach.rfl') | (dsimp +zetaDelta only))

theorem execNakReceive_reach {L x0 x1 x2 s} (h_mem_regs : Piece.regs .mem ∈ L) (h_fab_regs : Piece.regs .fab ∈ L)
    (h_sec_regs : Piece.regs .sec ∈ L) (h_ras_regs : Piece.regs .ras ∈ L) (h_evr_regs : Piece.regs .evr ∈ L)
    (h_ports : Piece.ports ∈ L) (h_ivs : Piece.ivs ∈ L) (h_sec : Piece.sec ∈ L) (h_evr : Piece.evr ∈ L) (h_out : Piece.out ∈ L)
    (h_freeCtr : Piece.freeCtr ∈ L) : ReachE L s (execNakReceive x0 x1 x2 s) := by
  unfold execNakReceive
  with_reducible repeat'
    (first | assumption | apply ReachE.next | intro _ | extract_lets | apply arrive_reach | apply wh_reach |
      apply Reach.foldl | apply Reach.ite | split | (exact Reach.rfl') | (dsimp +zetaDelta only))

theorem execPortBackoffExpiry_reach {L x0 s} (h_fab_regs : Piece.regs .fab ∈ L) (h_ports : Piece.ports ∈ L) : ReachE L s
    (execPortBackoffExpiry x0 s) := by
  unfold execPortBackoffExpiry
  with_reducible repeat'
    (first | assumption | apply ReachE.next | intro _ | extract_lets | apply pmdStart_reach | apply wh_reach |
      apply Reach.foldl | apply Reach.ite | split | (exact Reach.rfl') | (dsimp +zetaDelta only))

theorem execReplayTimeout_reach {L x0 s} (h_fab_regs : Piece.regs .fab ∈ L) (h_ras_regs : Piece.regs .ras ∈ L)
    (h_evr_regs : Piece.regs .evr ∈ L) (h_ports : Piece.ports ∈ L) (h_evr : Piece.evr ∈ L) (h_out : Piece.out ∈ L)
    (h_freeCtr : Piece.freeCtr ∈ L) : ReachE L s (execReplayTimeout x0 s) := by
  unfold execReplayTimeout
  with_reducible repeat'
    (first | assumption | apply ReachE.next | intro _ | extract_lets | apply replayOut_reach | apply wh_reach |
      apply Reach.foldl | apply Reach.ite | split | (exact Reach.rfl') | (dsimp +zetaDelta only))

theorem execPcsLockLoss_reach {L x0 s} (h_fab_regs : Piece.regs .fab ∈ L) (h_ras_regs : Piece.regs .ras ∈ L)
    (h_evr_regs : Piece.regs .evr ∈ L) (h_ports : Piece.ports ∈ L) (h_evr : Piece.evr ∈ L) (h_freeCtr : Piece.freeCtr ∈ L) :
    ReachE L s (execPcsLockLoss x0 s) := by
  unfold execPcsLockLoss
  with_reducible repeat'
    (first | assumption | apply ReachE.next | intro _ | extract_lets | apply lockLost_reach | apply wh_reach |
      apply Reach.foldl | apply Reach.ite | split | (exact Reach.rfl') | (dsimp +zetaDelta only))

theorem execPcsLockDone_reach {L x0 x1 s} (h_ports : Piece.ports ∈ L) (h_out : Piece.out ∈ L) : ReachE L s
    (execPcsLockDone x0 x1 s) := by
  unfold execPcsLockDone
  with_reducible repeat'
    (first | assumption | apply ReachE.next | intro _ | extract_lets | apply stageEnd_reach | apply wh_reach |
      apply Reach.foldl | apply Reach.ite | split | (exact Reach.rfl') | (dsimp +zetaDelta only))

theorem execRetrainRequest_reach {L x0 x1 x2 s} (h_mem_regs : Piece.regs .mem ∈ L) (h_fab_regs : Piece.regs .fab ∈ L)
    (h_sec_regs : Piece.regs .sec ∈ L) (h_ras_regs : Piece.regs .ras ∈ L) (h_evr_regs : Piece.regs .evr ∈ L)
    (h_ports : Piece.ports ∈ L) (h_ivs : Piece.ivs ∈ L) (h_sec : Piece.sec ∈ L) (h_evr : Piece.evr ∈ L) (h_out : Piece.out ∈ L)
    (h_freeCtr : Piece.freeCtr ∈ L) : ReachE L s (execRetrainRequest x0 x1 x2 s) := by
  unfold execRetrainRequest
  with_reducible repeat'
    (first | assumption | apply ReachE.next | intro _ | extract_lets | apply arrive_reach | apply wh_reach |
      apply Reach.foldl | apply Reach.ite | split | (exact Reach.rfl') | (dsimp +zetaDelta only))

theorem execEscapeTimeout_reach {L x0 x1 s} (h_fab_regs : Piece.regs .fab ∈ L) (h_ports : Piece.ports ∈ L) : ReachE L s
    (execEscapeTimeout x0 x1 s) := by
  unfold execEscapeTimeout
  with_reducible repeat'
    (first | assumption | apply ReachE.next | intro _ | extract_lets | apply escape_reach | apply wh_reach |
      apply Reach.foldl | apply Reach.ite | split | (exact Reach.rfl') | (dsimp +zetaDelta only))

theorem execLwr_reach {L x0 s} (h_yrd_regs : Piece.regs .yrd ∈ L) (h_mem_regs : Piece.regs .mem ∈ L)
    (h_lpd_regs : Piece.regs .lpd ∈ L) (h_mce_regs : Piece.regs .mce ∈ L) (h_sec_regs : Piece.regs .sec ∈ L)
    (h_ras_regs : Piece.regs .ras ∈ L) (h_evr_regs : Piece.regs .evr ∈ L) (h_mem : Piece.mem ∈ L) (h_yard : Piece.yard ∈ L)
    (h_accs : Piece.accs ∈ L) (h_nextTag : Piece.nextTag ∈ L) (h_ports : Piece.ports ∈ L) (h_mce : Piece.mce ∈ L)
    (h_evr : Piece.evr ∈ L) (h_freeCtr : Piece.freeCtr ∈ L) : ReachE L s (execLwr x0 s) := by
  unfold execLwr
  with_reducible repeat'
    (first | assumption | apply ReachE.next | intro _ | extract_lets | apply lwrIn_reach | apply wh_reach |
      apply Reach.foldl | apply Reach.ite | split | (exact Reach.rfl') | (dsimp +zetaDelta only))

theorem execLkeep_reach {L x0 s} (h_lends : Piece.lends ∈ L) (h_ports : Piece.ports ∈ L) : ReachE L s (execLkeep x0 s) := by
  unfold execLkeep
  with_reducible repeat'
    (first | assumption | apply ReachE.next | intro _ | extract_lets | apply lkeepIn_reach | apply wh_reach |
      apply Reach.foldl | apply Reach.ite | split | (exact Reach.rfl') | (dsimp +zetaDelta only))

theorem execReleaseAckTimeout_reach {L x0 s} (h_flights : Piece.flights ∈ L) (h_leases : Piece.leases ∈ L) : ReachE L s
    (execReleaseAckTimeout x0 s) := by
  unfold execReleaseAckTimeout
  with_reducible repeat'
    (first | assumption | apply ReachE.next | intro _ | extract_lets | apply withLease_reach | apply leaseEnds_reach |
      apply wh_reach | apply Reach.foldl | apply Reach.ite | split | (exact Reach.rfl') | (dsimp +zetaDelta only))

theorem execLreq_reach {L x0 s} (h_yrd_regs : Piece.regs .yrd ∈ L) (h_mem_regs : Piece.regs .mem ∈ L) (h_mem : Piece.mem ∈ L)
    (h_yard : Piece.yard ∈ L) (h_exts : Piece.exts ∈ L) (h_lends : Piece.lends ∈ L) (h_ports : Piece.ports ∈ L)
    (h_mce : Piece.mce ∈ L) : ReachE L s (execLreq x0 s) := by
  unfold execLreq
  with_reducible repeat'
    (first | assumption | apply ReachE.next | intro _ | extract_lets | apply lreqIn_reach | apply wh_reach |
      apply Reach.foldl | apply Reach.ite | split | (exact Reach.rfl') | (dsimp +zetaDelta only))

theorem execLgrant_reach {L x0 s} (h_flights : Piece.flights ∈ L) (h_leases : Piece.leases ∈ L) (h_ports : Piece.ports ∈ L) :
    ReachE L s (execLgrant x0 s) := by
  unfold execLgrant
  with_reducible repeat'
    (first | assumption | apply ReachE.next | intro _ | extract_lets | apply lgrantIn_reach | apply wh_reach |
      apply Reach.foldl | apply Reach.ite | split | (exact Reach.rfl') | (dsimp +zetaDelta only))

theorem execReclaimGraceEnd_reach {L x0 s} (h_yrd_regs : Piece.regs .yrd ∈ L) (h_mem_regs : Piece.regs .mem ∈ L)
    (h_mem : Piece.mem ∈ L) (h_yard : Piece.yard ∈ L) (h_exts : Piece.exts ∈ L) (h_lends : Piece.lends ∈ L)
    (h_mce : Piece.mce ∈ L) : ReachE L s (execReclaimGraceEnd x0 s) := by
  unfold execReclaimGraceEnd
  with_reducible repeat'
    (first | assumption | apply ReachE.next | intro _ | extract_lets | apply lendLost_reach | apply wh_reach |
      apply Reach.foldl | apply Reach.ite | split | (exact Reach.rfl') | (dsimp +zetaDelta only))

theorem execLeaseAnswerTimeout_reach {L x0 s} (h_flights : Piece.flights ∈ L) (h_leases : Piece.leases ∈ L) : ReachE L s
    (execLeaseAnswerTimeout x0 s) := by
  unfold execLeaseAnswerTimeout
  with_reducible repeat'
    (first | assumption | apply ReachE.next | intro _ | extract_lets | apply withLease_reach | apply leaseEnds_reach |
      apply wh_reach | apply Reach.foldl | apply Reach.ite | split | (exact Reach.rfl') | (dsimp +zetaDelta only))

theorem execLrefuse_reach {L x0 s} (h_flights : Piece.flights ∈ L) (h_leases : Piece.leases ∈ L) (h_ports : Piece.ports ∈ L) :
    ReachE L s (execLrefuse x0 s) := by
  unfold execLrefuse
  with_reducible repeat'
    (first | assumption | apply ReachE.next | intro _ | extract_lets | apply lrefuseIn_reach | apply wh_reach |
      apply Reach.foldl | apply Reach.ite | split | (exact Reach.rfl') | (dsimp +zetaDelta only))

theorem execLrel_reach {L x0 s} (h_yrd_regs : Piece.regs .yrd ∈ L) (h_mem : Piece.mem ∈ L) (h_yard : Piece.yard ∈ L)
    (h_exts : Piece.exts ∈ L) (h_lends : Piece.lends ∈ L) (h_ports : Piece.ports ∈ L) (h_mce : Piece.mce ∈ L) : ReachE L s
    (execLrel x0 s) := by
  unfold execLrel
  with_reducible repeat'
    (first | assumption | apply ReachE.next | intro _ | extract_lets | apply lrelIn_reach | apply wh_reach |
      apply Reach.foldl | apply Reach.ite | split | (exact Reach.rfl') | (dsimp +zetaDelta only))

theorem execLeaseRelease_reach {L x0 s} (h_flights : Piece.flights ∈ L) (h_leases : Piece.leases ∈ L) : ReachE L s
    (execLeaseRelease x0 s) := by
  unfold execLeaseRelease
  with_reducible repeat'
    (first | assumption | apply ReachE.next | intro _ | extract_lets | apply leaseRelease_reach | apply wh_reach |
      apply Reach.foldl | apply Reach.ite | split | (exact Reach.rfl') | (dsimp +zetaDelta only))

theorem execLeaseAcquire_reach {L x0 s} (h_leases : Piece.leases ∈ L) (h_ports : Piece.ports ∈ L) : ReachE L s
    (execLeaseAcquire x0 s) := by
  unfold execLeaseAcquire
  with_reducible repeat'
    (first | assumption | apply ReachE.next | intro _ | extract_lets | apply leaseAcquire_reach | apply wh_reach |
      apply Reach.foldl | apply Reach.ite | split | (exact Reach.rfl') | (dsimp +zetaDelta only))

theorem execReleaseLrelSend_reach {L x0 s} (h_leases : Piece.leases ∈ L) (h_ports : Piece.ports ∈ L) : ReachE L s
    (execReleaseLrelSend x0 s) := by
  unfold execReleaseLrelSend
  with_reducible repeat'
    (first | assumption | apply ReachE.next | intro _ | extract_lets | apply lrelSend_reach | apply wh_reach |
      apply Reach.foldl | apply Reach.ite | split | (exact Reach.rfl') | (dsimp +zetaDelta only))

theorem execLrecl_reach {L x0 s} (h_hif_regs : Piece.regs .hif ∈ L) (h_leases : Piece.leases ∈ L) (h_ports : Piece.ports ∈ L)
    (h_chans : Piece.chans ∈ L) (h_out : Piece.out ∈ L) : ReachE L s (execLrecl x0 s) := by
  unfold execLrecl
  with_reducible repeat'
    (first | assumption | apply ReachE.next | intro _ | extract_lets | apply lreclIn_reach | apply wh_reach |
      apply Reach.foldl | apply Reach.ite | split | (exact Reach.rfl') | (dsimp +zetaDelta only))

theorem execLrelack_reach {L x0 s} (h_flights : Piece.flights ∈ L) (h_leases : Piece.leases ∈ L) (h_ports : Piece.ports ∈ L) :
    ReachE L s (execLrelack x0 s) := by
  unfold execLrelack
  with_reducible repeat'
    (first | assumption | apply ReachE.next | intro _ | extract_lets | apply lrelackIn_reach | apply wh_reach |
      apply Reach.foldl | apply Reach.ite | split | (exact Reach.rfl') | (dsimp +zetaDelta only))

theorem execLeaseKeepTimer_reach {L x0 s} (h_leases : Piece.leases ∈ L) (h_ports : Piece.ports ∈ L) : ReachE L s
    (execLeaseKeepTimer x0 s) := by
  unfold execLeaseKeepTimer
  with_reducible repeat'
    (first | assumption | apply ReachE.next | intro _ | extract_lets | apply borrowerSend_reach | apply withLease_reach |
      apply wh_reach | apply Reach.foldl | apply Reach.ite | split | (exact Reach.rfl') | (dsimp +zetaDelta only))

theorem execLenderKeepTimeout_reach {L x0 s} (h_yrd_regs : Piece.regs .yrd ∈ L) (h_mem_regs : Piece.regs .mem ∈ L)
    (h_mem : Piece.mem ∈ L) (h_yard : Piece.yard ∈ L) (h_exts : Piece.exts ∈ L) (h_lends : Piece.lends ∈ L)
    (h_mce : Piece.mce ∈ L) : ReachE L s (execLenderKeepTimeout x0 s) := by
  unfold execLenderKeepTimeout
  with_reducible repeat'
    (first | assumption | apply ReachE.next | intro _ | extract_lets | apply lendLost_reach | apply wh_reach |
      apply Reach.foldl | apply Reach.ite | split | (exact Reach.rfl') | (dsimp +zetaDelta only))

theorem execMemReclaim_reach {L x0 x1 s} (h_bus : Piece.bus ∈ L) (h_lends : Piece.lends ∈ L) (h_ports : Piece.ports ∈ L) :
    ReachE L s (execMemReclaim x0 x1 s) := by
  unfold execMemReclaim
  with_reducible repeat'
    (first | assumption | apply ReachE.next | intro _ | extract_lets | apply memReclaim_reach | apply atDone_reach |
      apply wh_reach | apply Reach.foldl | apply Reach.ite | split | (exact Reach.rfl') | (dsimp +zetaDelta only))

theorem execLrd_reach {L x0 s} (h_yrd_regs : Piece.regs .yrd ∈ L) (h_mem_regs : Piece.regs .mem ∈ L)
    (h_lpd_regs : Piece.regs .lpd ∈ L) (h_mce_regs : Piece.regs .mce ∈ L) (h_sec_regs : Piece.regs .sec ∈ L)
    (h_ras_regs : Piece.regs .ras ∈ L) (h_evr_regs : Piece.regs .evr ∈ L) (h_yard : Piece.yard ∈ L) (h_ports : Piece.ports ∈ L)
    (h_evr : Piece.evr ∈ L) (h_freeCtr : Piece.freeCtr ∈ L) : ReachE L s (execLrd x0 s) := by
  unfold execLrd
  with_reducible repeat'
    (first | assumption | apply ReachE.next | intro _ | extract_lets | apply lrdIn_reach | apply wh_reach |
      apply Reach.foldl | apply Reach.ite | split | (exact Reach.rfl') | (dsimp +zetaDelta only))

theorem execColCmdClose_reach {L x0 x1 s} (h_yrd_regs : Piece.regs .yrd ∈ L) (h_mem_regs : Piece.regs .mem ∈ L)
    (h_lpd_regs : Piece.regs .lpd ∈ L) (h_mce_regs : Piece.regs .mce ∈ L) (h_col_regs : Piece.regs .col ∈ L)
    (h_sec_regs : Piece.regs .sec ∈ L) (h_ras_regs : Piece.regs .ras ∈ L) (h_evr_regs : Piece.regs .evr ∈ L)
    (h_bus : Piece.bus ∈ L) (h_mem : Piece.mem ∈ L) (h_flights : Piece.flights ∈ L) (h_yard : Piece.yard ∈ L)
    (h_accs : Piece.accs ∈ L) (h_nextTag : Piece.nextTag ∈ L) (h_col : Piece.col ∈ L) (h_ports : Piece.ports ∈ L)
    (h_mce : Piece.mce ∈ L) (h_evr : Piece.evr ∈ L) (h_freeCtr : Piece.freeCtr ∈ L) : ReachE L s (execColCmdClose x0 x1 s) := by
  unfold execColCmdClose
  with_reducible repeat'
    (first | assumption | apply ReachE.next | intro _ | extract_lets | apply colRow_reach | apply atDone_reach |
      apply wh_reach | apply Reach.foldl | apply Reach.ite | split | (exact Reach.rfl') | (dsimp +zetaDelta only))

theorem execVerdict_reach {L x0 s} (h_yrd_regs : Piece.regs .yrd ∈ L) (h_mem_regs : Piece.regs .mem ∈ L)
    (h_lpd_regs : Piece.regs .lpd ∈ L) (h_mce_regs : Piece.regs .mce ∈ L) (h_col_regs : Piece.regs .col ∈ L)
    (h_sec_regs : Piece.regs .sec ∈ L) (h_ras_regs : Piece.regs .ras ∈ L) (h_evr_regs : Piece.regs .evr ∈ L)
    (h_mem : Piece.mem ∈ L) (h_flights : Piece.flights ∈ L) (h_yard : Piece.yard ∈ L) (h_accs : Piece.accs ∈ L)
    (h_nextTag : Piece.nextTag ∈ L) (h_col : Piece.col ∈ L) (h_ports : Piece.ports ∈ L) (h_mce : Piece.mce ∈ L)
    (h_evr : Piece.evr ∈ L) (h_freeCtr : Piece.freeCtr ∈ L) : ReachE L s (execVerdict x0 s) := by
  unfold execVerdict
  with_reducible repeat'
    (first | assumption | apply ReachE.next | intro _ | extract_lets | apply verdictIn_reach | apply wh_reach |
      apply Reach.foldl | apply Reach.ite | split | (exact Reach.rfl') | (dsimp +zetaDelta only))

theorem execSegmentSend_reach {L x0 x1 s} (h_yrd_regs : Piece.regs .yrd ∈ L) (h_mem_regs : Piece.regs .mem ∈ L)
    (h_lpd_regs : Piece.regs .lpd ∈ L) (h_mce_regs : Piece.regs .mce ∈ L) (h_col_regs : Piece.regs .col ∈ L)
    (h_sec_regs : Piece.regs .sec ∈ L) (h_ras_regs : Piece.regs .ras ∈ L) (h_evr_regs : Piece.regs .evr ∈ L)
    (h_mem : Piece.mem ∈ L) (h_flights : Piece.flights ∈ L) (h_yard : Piece.yard ∈ L) (h_retrain : Piece.retrain ∈ L)
    (h_accs : Piece.accs ∈ L) (h_nextTag : Piece.nextTag ∈ L) (h_col : Piece.col ∈ L) (h_ports : Piece.ports ∈ L)
    (h_evr : Piece.evr ∈ L) (h_freeCtr : Piece.freeCtr ∈ L) : ReachE L s (execSegmentSend x0 x1 s) := by
  unfold execSegmentSend
  with_reducible repeat'
    (first | assumption | apply ReachE.next | intro _ | extract_lets | apply wh_reach | apply segSend_reach |
      apply Reach.foldl | apply Reach.ite | split | (exact Reach.rfl') | (dsimp +zetaDelta only))

theorem execColl_reach {L x0 s} (h_flights : Piece.flights ∈ L) (h_col : Piece.col ∈ L) : ReachE L s (execColl x0 s) := by
  unfold execColl
  with_reducible repeat'
    (first | assumption | apply ReachE.next | intro _ | extract_lets | apply collTake_reach | apply wh_reach |
      apply Reach.foldl | apply Reach.ite | split | (exact Reach.rfl') | (dsimp +zetaDelta only))

theorem execCollStart_reach {L x0 s} (h_yrd_regs : Piece.regs .yrd ∈ L) (h_mem_regs : Piece.regs .mem ∈ L)
    (h_lpd_regs : Piece.regs .lpd ∈ L) (h_mce_regs : Piece.regs .mce ∈ L) (h_col_regs : Piece.regs .col ∈ L)
    (h_sec_regs : Piece.regs .sec ∈ L) (h_ras_regs : Piece.regs .ras ∈ L) (h_evr_regs : Piece.regs .evr ∈ L)
    (h_mem : Piece.mem ∈ L) (h_flights : Piece.flights ∈ L) (h_yard : Piece.yard ∈ L) (h_retrain : Piece.retrain ∈ L)
    (h_accs : Piece.accs ∈ L) (h_nextTag : Piece.nextTag ∈ L) (h_col : Piece.col ∈ L) (h_ports : Piece.ports ∈ L)
    (h_mce : Piece.mce ∈ L) (h_evr : Piece.evr ∈ L) (h_freeCtr : Piece.freeCtr ∈ L) : ReachE L s (execCollStart x0 s) := by
  unfold execCollStart
  with_reducible repeat'
    (first | assumption | apply ReachE.next | intro _ | extract_lets | apply collStart_reach | apply wh_reach |
      apply Reach.foldl | apply Reach.ite | split | (exact Reach.rfl') | (dsimp +zetaDelta only))

theorem execColCloseReleased_reach {L x0 s} (h_yrd_regs : Piece.regs .yrd ∈ L) (h_mem_regs : Piece.regs .mem ∈ L)
    (h_lpd_regs : Piece.regs .lpd ∈ L) (h_mce_regs : Piece.regs .mce ∈ L) (h_col_regs : Piece.regs .col ∈ L)
    (h_sec_regs : Piece.regs .sec ∈ L) (h_ras_regs : Piece.regs .ras ∈ L) (h_evr_regs : Piece.regs .evr ∈ L)
    (h_mem : Piece.mem ∈ L) (h_flights : Piece.flights ∈ L) (h_yard : Piece.yard ∈ L) (h_accs : Piece.accs ∈ L)
    (h_nextTag : Piece.nextTag ∈ L) (h_col : Piece.col ∈ L) (h_ports : Piece.ports ∈ L) (h_mce : Piece.mce ∈ L)
    (h_evr : Piece.evr ∈ L) (h_freeCtr : Piece.freeCtr ∈ L) : ReachE L s (execColCloseReleased x0 s) := by
  unfold execColCloseReleased
  with_reducible repeat'
    (first | assumption | apply ReachE.next | intro _ | extract_lets | apply colReleased_reach | apply wh_reach |
      apply Reach.foldl | apply Reach.ite | split | (exact Reach.rfl') | (dsimp +zetaDelta only))

theorem execSegDown_reach {L x0 s} (h_yrd_regs : Piece.regs .yrd ∈ L) (h_mem_regs : Piece.regs .mem ∈ L)
    (h_lpd_regs : Piece.regs .lpd ∈ L) (h_mce_regs : Piece.regs .mce ∈ L) (h_col_regs : Piece.regs .col ∈ L)
    (h_sec_regs : Piece.regs .sec ∈ L) (h_ras_regs : Piece.regs .ras ∈ L) (h_evr_regs : Piece.regs .evr ∈ L)
    (h_mem : Piece.mem ∈ L) (h_flights : Piece.flights ∈ L) (h_yard : Piece.yard ∈ L) (h_retrain : Piece.retrain ∈ L)
    (h_accs : Piece.accs ∈ L) (h_nextTag : Piece.nextTag ∈ L) (h_col : Piece.col ∈ L) (h_ports : Piece.ports ∈ L)
    (h_mce : Piece.mce ∈ L) (h_evr : Piece.evr ∈ L) (h_freeCtr : Piece.freeCtr ∈ L) : ReachE L s (execSegDown x0 s) := by
  unfold execSegDown
  with_reducible repeat'
    (first | assumption | apply ReachE.next | intro _ | extract_lets | apply segDown_reach | apply wh_reach |
      apply Reach.foldl | apply Reach.ite | split | (exact Reach.rfl') | (dsimp +zetaDelta only))

theorem execColCmdOpen_reach {L x0 x1 s} (h_yrd_regs : Piece.regs .yrd ∈ L) (h_mem_regs : Piece.regs .mem ∈ L)
    (h_lpd_regs : Piece.regs .lpd ∈ L) (h_mce_regs : Piece.regs .mce ∈ L) (h_col_regs : Piece.regs .col ∈ L)
    (h_sec_regs : Piece.regs .sec ∈ L) (h_ras_regs : Piece.regs .ras ∈ L) (h_evr_regs : Piece.regs .evr ∈ L)
    (h_bus : Piece.bus ∈ L) (h_mem : Piece.mem ∈ L) (h_flights : Piece.flights ∈ L) (h_yard : Piece.yard ∈ L)
    (h_accs : Piece.accs ∈ L) (h_nextTag : Piece.nextTag ∈ L) (h_col : Piece.col ∈ L) (h_ports : Piece.ports ∈ L)
    (h_mce : Piece.mce ∈ L) (h_evr : Piece.evr ∈ L) (h_freeCtr : Piece.freeCtr ∈ L) : ReachE L s (execColCmdOpen x0 x1 s) := by
  unfold execColCmdOpen
  with_reducible repeat'
    (first | assumption | apply ReachE.next | intro _ | extract_lets | apply colRow_reach | apply atDone_reach |
      apply wh_reach | apply Reach.foldl | apply Reach.ite | split | (exact Reach.rfl') | (dsimp +zetaDelta only))

theorem execColCmdAbort_reach {L x0 x1 s} (h_yrd_regs : Piece.regs .yrd ∈ L) (h_mem_regs : Piece.regs .mem ∈ L)
    (h_lpd_regs : Piece.regs .lpd ∈ L) (h_mce_regs : Piece.regs .mce ∈ L) (h_col_regs : Piece.regs .col ∈ L)
    (h_sec_regs : Piece.regs .sec ∈ L) (h_ras_regs : Piece.regs .ras ∈ L) (h_evr_regs : Piece.regs .evr ∈ L)
    (h_bus : Piece.bus ∈ L) (h_mem : Piece.mem ∈ L) (h_flights : Piece.flights ∈ L) (h_yard : Piece.yard ∈ L)
    (h_accs : Piece.accs ∈ L) (h_nextTag : Piece.nextTag ∈ L) (h_col : Piece.col ∈ L) (h_ports : Piece.ports ∈ L)
    (h_mce : Piece.mce ∈ L) (h_evr : Piece.evr ∈ L) (h_freeCtr : Piece.freeCtr ∈ L) : ReachE L s (execColCmdAbort x0 x1 s) := by
  unfold execColCmdAbort
  with_reducible repeat'
    (first | assumption | apply ReachE.next | intro _ | extract_lets | apply colRow_reach | apply atDone_reach |
      apply wh_reach | apply Reach.foldl | apply Reach.ite | split | (exact Reach.rfl') | (dsimp +zetaDelta only))

theorem execCollVerdictTimeout_reach {L x0 s} (h_col_regs : Piece.regs .col ∈ L) (h_ras_regs : Piece.regs .ras ∈ L)
    (h_evr_regs : Piece.regs .evr ∈ L) (h_mem : Piece.mem ∈ L) (h_flights : Piece.flights ∈ L) (h_col : Piece.col ∈ L)
    (h_ports : Piece.ports ∈ L) (h_evr : Piece.evr ∈ L) (h_freeCtr : Piece.freeCtr ∈ L) : ReachE L s (execCollVerdictTimeout x0 s)
    := by
  unfold execCollVerdictTimeout
  with_reducible repeat'
    (first | assumption | apply ReachE.next | intro _ | extract_lets | apply verdictTimeout_reach | apply wh_reach |
      apply Reach.foldl | apply Reach.ite | split | (exact Reach.rfl') | (dsimp +zetaDelta only))

theorem execResume_reach {L x0 x1 s} (h_hif_regs : Piece.regs .hif ∈ L) (h_dsp_regs : Piece.regs .dsp ∈ L)
    (h_yrd_regs : Piece.regs .yrd ∈ L) (h_mem_regs : Piece.regs .mem ∈ L) (h_lpd_regs : Piece.regs .lpd ∈ L)
    (h_mce_regs : Piece.regs .mce ∈ L) (h_sec_regs : Piece.regs .sec ∈ L) (h_ras_regs : Piece.regs .ras ∈ L)
    (h_evr_regs : Piece.regs .evr ∈ L) (h_bus : Piece.bus ∈ L) (h_queues : Piece.queues ∈ L) (h_nextFid : Piece.nextFid ∈ L)
    (h_yard : Piece.yard ∈ L) (h_retrain : Piece.retrain ∈ L) (h_accs : Piece.accs ∈ L) (h_nextTag : Piece.nextTag ∈ L)
    (h_ports : Piece.ports ∈ L) (h_chans : Piece.chans ∈ L) (h_evr : Piece.evr ∈ L) (h_out : Piece.out ∈ L)
    (h_freeCtr : Piece.freeCtr ∈ L) : ReachE L s (execResume x0 x1 s) := by
  unfold execResume
  with_reducible repeat'
    (first | assumption | apply ReachE.next | intro _ | extract_lets | apply onQueue_reach | apply resumeQueue_reach |
      apply atDone_reach | apply wh_reach | apply Reach.foldl | apply Reach.ite | split | (exact Reach.rfl') |
      (dsimp +zetaDelta only))

theorem execRunClear_reach {L x0 x1 s} (h_dsp_regs : Piece.regs .dsp ∈ L) (h_bus : Piece.bus ∈ L) : ReachE L s
    (execRunClear x0 x1 s) := by
  unfold execRunClear
  with_reducible repeat'
    (first | assumption | apply ReachE.next | intro _ | extract_lets | apply onQueue_reach | apply st_reach |
      apply atDone_reach | apply wh_reach | apply Reach.foldl | apply Reach.ite | split | (exact Reach.rfl') |
      (dsimp +zetaDelta only))

theorem execDescriptorComplete_reach {L x0 s} (h_hif_regs : Piece.regs .hif ∈ L) (h_dsp_regs : Piece.regs .dsp ∈ L)
    (h_tok_regs : Piece.regs .tok ∈ L) (h_yrd_regs : Piece.regs .yrd ∈ L) (h_mem_regs : Piece.regs .mem ∈ L)
    (h_lpd_regs : Piece.regs .lpd ∈ L) (h_mce_regs : Piece.regs .mce ∈ L) (h_kvs_regs : Piece.regs .kvs ∈ L)
    (h_scn_regs : Piece.regs .scn ∈ L) (h_sec_regs : Piece.regs .sec ∈ L) (h_ras_regs : Piece.regs .ras ∈ L)
    (h_evr_regs : Piece.regs .evr ∈ L) (h_mem : Piece.mem ∈ L) (h_toks : Piece.toks ∈ L) (h_queues : Piece.queues ∈ L)
    (h_flights : Piece.flights ∈ L) (h_descriptors : Piece.descriptors ∈ L) (h_yard : Piece.yard ∈ L)
    (h_retrain : Piece.retrain ∈ L) (h_accs : Piece.accs ∈ L) (h_nextTag : Piece.nextTag ∈ L) (h_lab : Piece.lab ∈ L)
    (h_scn : Piece.scn ∈ L) (h_ports : Piece.ports ∈ L) (h_chans : Piece.chans ∈ L) (h_mce : Piece.mce ∈ L)
    (h_evr : Piece.evr ∈ L) (h_out : Piece.out ∈ L) (h_freeCtr : Piece.freeCtr ∈ L) : ReachE L s (execDescriptorComplete x0 s) :=
    by
  unfold execDescriptorComplete
  with_reducible repeat'
    (first | assumption | apply ReachE.next | intro _ | extract_lets | apply completeFlight_reach | apply wh_reach |
      apply Reach.foldl | apply Reach.ite | split | (exact Reach.rfl') | (dsimp +zetaDelta only))

theorem execFlush_reach {L x0 x1 s} (h_dsp_regs : Piece.regs .dsp ∈ L) (h_bus : Piece.bus ∈ L) (h_queues : Piece.queues ∈ L)
    (h_flights : Piece.flights ∈ L) (h_descriptors : Piece.descriptors ∈ L) (h_retrain : Piece.retrain ∈ L)
    (h_accs : Piece.accs ∈ L) : ReachE L s (execFlush x0 x1 s) := by
  unfold execFlush
  with_reducible repeat'
    (first | assumption | apply ReachE.next | intro _ | extract_lets | apply onQueue_reach | apply flushQueue_reach |
      apply atDone_reach | apply wh_reach | apply Reach.foldl | apply Reach.ite | split | (exact Reach.rfl') |
      (dsimp +zetaDelta only))

theorem execFence_reach {L x0 s} (h_hif_regs : Piece.regs .hif ∈ L) (h_dsp_regs : Piece.regs .dsp ∈ L)
    (h_tok_regs : Piece.regs .tok ∈ L) (h_yrd_regs : Piece.regs .yrd ∈ L) (h_mem_regs : Piece.regs .mem ∈ L)
    (h_lpd_regs : Piece.regs .lpd ∈ L) (h_mce_regs : Piece.regs .mce ∈ L) (h_sec_regs : Piece.regs .sec ∈ L)
    (h_ras_regs : Piece.regs .ras ∈ L) (h_evr_regs : Piece.regs .evr ∈ L) (h_mem : Piece.mem ∈ L) (h_toks : Piece.toks ∈ L)
    (h_queues : Piece.queues ∈ L) (h_lastServed : Piece.lastServed ∈ L) (h_flights : Piece.flights ∈ L)
    (h_nextFid : Piece.nextFid ∈ L) (h_yard : Piece.yard ∈ L) (h_retrain : Piece.retrain ∈ L) (h_leases : Piece.leases ∈ L)
    (h_accs : Piece.accs ∈ L) (h_nextTag : Piece.nextTag ∈ L) (h_ports : Piece.ports ∈ L) (h_chans : Piece.chans ∈ L)
    (h_mce : Piece.mce ∈ L) (h_evr : Piece.evr ∈ L) (h_out : Piece.out ∈ L) (h_freeCtr : Piece.freeCtr ∈ L) : ReachE L s
    (execFence x0 s) := by
  unfold execFence
  with_reducible repeat'
    (first | assumption | apply ReachE.next | intro _ | extract_lets | apply fenceGo_reach | apply wh_reach |
      apply Reach.foldl | apply Reach.ite | split | (exact Reach.rfl') | (dsimp +zetaDelta only))

theorem execDispatchIssue_reach {L s} (h_hif_regs : Piece.regs .hif ∈ L) (h_dsp_regs : Piece.regs .dsp ∈ L)
    (h_tok_regs : Piece.regs .tok ∈ L) (h_yrd_regs : Piece.regs .yrd ∈ L) (h_mem_regs : Piece.regs .mem ∈ L)
    (h_lpd_regs : Piece.regs .lpd ∈ L) (h_mce_regs : Piece.regs .mce ∈ L) (h_sec_regs : Piece.regs .sec ∈ L)
    (h_ras_regs : Piece.regs .ras ∈ L) (h_evr_regs : Piece.regs .evr ∈ L) (h_mem : Piece.mem ∈ L) (h_toks : Piece.toks ∈ L)
    (h_queues : Piece.queues ∈ L) (h_lastServed : Piece.lastServed ∈ L) (h_flights : Piece.flights ∈ L)
    (h_nextFid : Piece.nextFid ∈ L) (h_yard : Piece.yard ∈ L) (h_retrain : Piece.retrain ∈ L) (h_leases : Piece.leases ∈ L)
    (h_accs : Piece.accs ∈ L) (h_nextTag : Piece.nextTag ∈ L) (h_ports : Piece.ports ∈ L) (h_chans : Piece.chans ∈ L)
    (h_mce : Piece.mce ∈ L) (h_evr : Piece.evr ∈ L) (h_out : Piece.out ∈ L) (h_freeCtr : Piece.freeCtr ∈ L) : ReachE L s
    (execDispatchIssue s) := by
  unfold execDispatchIssue
  with_reducible repeat'
    (first | assumption | apply ReachE.next | intro _ | extract_lets | apply wh_reach | apply dispatch_reach |
      apply Reach.foldl | apply Reach.ite | split | (exact Reach.rfl') | (dsimp +zetaDelta only))

theorem execDspQTailWrite_reach {L x0 x1 x2 s} (h_hif_regs : Piece.regs .hif ∈ L) (h_dsp_regs : Piece.regs .dsp ∈ L)
    (h_yrd_regs : Piece.regs .yrd ∈ L) (h_mem_regs : Piece.regs .mem ∈ L) (h_lpd_regs : Piece.regs .lpd ∈ L)
    (h_mce_regs : Piece.regs .mce ∈ L) (h_sec_regs : Piece.regs .sec ∈ L) (h_ras_regs : Piece.regs .ras ∈ L)
    (h_evr_regs : Piece.regs .evr ∈ L) (h_bus : Piece.bus ∈ L) (h_queues : Piece.queues ∈ L) (h_nextFid : Piece.nextFid ∈ L)
    (h_yard : Piece.yard ∈ L) (h_retrain : Piece.retrain ∈ L) (h_accs : Piece.accs ∈ L) (h_nextTag : Piece.nextTag ∈ L)
    (h_ports : Piece.ports ∈ L) (h_chans : Piece.chans ∈ L) (h_evr : Piece.evr ∈ L) (h_out : Piece.out ∈ L)
    (h_freeCtr : Piece.freeCtr ∈ L) : ReachE L s (execDspQTailWrite x0 x1 x2 s) := by
  unfold execDspQTailWrite
  with_reducible repeat'
    (first | assumption | apply ReachE.next | intro _ | extract_lets | apply onQueue_reach | apply tailWrite_reach |
      apply atDone_reach | apply wh_reach | apply Reach.foldl | apply Reach.ite | split | (exact Reach.rfl') |
      (dsimp +zetaDelta only))

theorem execOverflowReplay_reach {L x0 s} (h_yrd_regs : Piece.regs .yrd ∈ L) (h_mem_regs : Piece.regs .mem ∈ L)
    (h_lpd_regs : Piece.regs .lpd ∈ L) (h_mce_regs : Piece.regs .mce ∈ L) (h_sec_regs : Piece.regs .sec ∈ L)
    (h_ras_regs : Piece.regs .ras ∈ L) (h_evr_regs : Piece.regs .evr ∈ L) (h_mem : Piece.mem ∈ L) (h_flights : Piece.flights ∈ L)
    (h_stks : Piece.stks ∈ L) (h_yard : Piece.yard ∈ L) (h_retrain : Piece.retrain ∈ L) (h_accs : Piece.accs ∈ L)
    (h_nextTag : Piece.nextTag ∈ L) (h_ports : Piece.ports ∈ L) (h_mce : Piece.mce ∈ L) (h_evr : Piece.evr ∈ L)
    (h_freeCtr : Piece.freeCtr ∈ L) : ReachE L s (execOverflowReplay x0 s) := by
  unfold execOverflowReplay
  with_reducible repeat'
    (first | assumption | apply ReachE.next | intro _ | extract_lets | apply replay_reach | apply wh_reach |
      apply Reach.foldl | apply Reach.ite | split | (exact Reach.rfl') | (dsimp +zetaDelta only))

theorem execRunSet_reach {L x0 x1 s} (h_hif_regs : Piece.regs .hif ∈ L) (h_dsp_regs : Piece.regs .dsp ∈ L)
    (h_yrd_regs : Piece.regs .yrd ∈ L) (h_mem_regs : Piece.regs .mem ∈ L) (h_lpd_regs : Piece.regs .lpd ∈ L)
    (h_mce_regs : Piece.regs .mce ∈ L) (h_sec_regs : Piece.regs .sec ∈ L) (h_ras_regs : Piece.regs .ras ∈ L)
    (h_evr_regs : Piece.regs .evr ∈ L) (h_bus : Piece.bus ∈ L) (h_queues : Piece.queues ∈ L) (h_nextFid : Piece.nextFid ∈ L)
    (h_yard : Piece.yard ∈ L) (h_retrain : Piece.retrain ∈ L) (h_accs : Piece.accs ∈ L) (h_nextTag : Piece.nextTag ∈ L)
    (h_ports : Piece.ports ∈ L) (h_chans : Piece.chans ∈ L) (h_evr : Piece.evr ∈ L) (h_out : Piece.out ∈ L)
    (h_freeCtr : Piece.freeCtr ∈ L) : ReachE L s (execRunSet x0 x1 s) := by
  unfold execRunSet
  with_reducible repeat'
    (first | assumption | apply ReachE.next | intro _ | extract_lets | apply onQueue_reach | apply atDone_reach |
      apply wh_reach | apply runQueue_reach | apply Reach.foldl | apply Reach.ite | split | (exact Reach.rfl') |
      (dsimp +zetaDelta only))

theorem execSessionIdleTimeout_reach {L x0 s} (h_hif_regs : Piece.regs .hif ∈ L) (h_ras_regs : Piece.regs .ras ∈ L)
    (h_evr_regs : Piece.regs .evr ∈ L) (h_flights : Piece.flights ∈ L) (h_arrs : Piece.arrs ∈ L) (h_stks : Piece.stks ∈ L)
    (h_retrain : Piece.retrain ∈ L) (h_accs : Piece.accs ∈ L) (h_col : Piece.col ∈ L) (h_hif : Piece.hif ∈ L)
    (h_chans : Piece.chans ∈ L) (h_evr : Piece.evr ∈ L) (h_freeCtr : Piece.freeCtr ∈ L) : ReachE L s (execSessionIdleTimeout x0 s)
    := by
  unfold execSessionIdleTimeout
  with_reducible repeat'
    (first | assumption | apply ReachE.next | intro _ | extract_lets | apply endSession_reach | apply wh_reach |
      apply Reach.foldl | apply Reach.ite | split | (exact Reach.rfl') | (dsimp +zetaDelta only))

theorem execHostFrameDrop_reach {L x0 s} (h_hif_regs : Piece.regs .hif ∈ L) : ReachE L s (execHostFrameDrop x0 s) := by
  unfold execHostFrameDrop
  with_reducible repeat'
    (first | assumption | apply ReachE.next | intro _ | extract_lets | apply rxDrop_reach | apply rxFrame_reach |
      apply wh_reach | apply onPort_reach | apply Reach.foldl | apply Reach.ite | split | (exact Reach.rfl') |
      (dsimp +zetaDelta only))

theorem execIcmpv6EchoRequest_reach {L x0 x1 x2 x3 s} (h_hif_regs : Piece.regs .hif ∈ L) (h_out : Piece.out ∈ L) : ReachE L s
    (execIcmpv6EchoRequest x0 x1 x2 x3 s) := by
  unfold execIcmpv6EchoRequest
  with_reducible repeat'
    (first | assumption | apply ReachE.next | intro _ | extract_lets | apply icmp_reach | apply wh_reach |
      apply onPort_reach | apply Reach.foldl | apply Reach.ite | split | (exact Reach.rfl') | (dsimp +zetaDelta only))

theorem execDeviceResend_reach {L x0 x1 s} (h_hif_regs : Piece.regs .hif ∈ L) (h_chans : Piece.chans ∈ L)
    (h_out : Piece.out ∈ L) : ReachE L s (execDeviceResend x0 x1 s) := by
  unfold execDeviceResend
  with_reducible repeat'
    (first | assumption | apply ReachE.next | intro _ | extract_lets | apply resendPkt_reach | apply wh_reach |
      apply Reach.foldl | apply Reach.ite | split | (exact Reach.rfl') | (dsimp +zetaDelta only))

theorem execMove_reach {L x0 s} (h_hif_regs : Piece.regs .hif ∈ L) (h_yrd_regs : Piece.regs .yrd ∈ L)
    (h_mem_regs : Piece.regs .mem ∈ L) (h_lpd_regs : Piece.regs .lpd ∈ L) (h_mce_regs : Piece.regs .mce ∈ L)
    (h_sec_regs : Piece.regs .sec ∈ L) (h_ras_regs : Piece.regs .ras ∈ L) (h_evr_regs : Piece.regs .evr ∈ L)
    (h_mem : Piece.mem ∈ L) (h_flights : Piece.flights ∈ L) (h_arrs : Piece.arrs ∈ L) (h_stks : Piece.stks ∈ L)
    (h_yard : Piece.yard ∈ L) (h_retrain : Piece.retrain ∈ L) (h_accs : Piece.accs ∈ L) (h_nextTag : Piece.nextTag ∈ L)
    (h_col : Piece.col ∈ L) (h_ports : Piece.ports ∈ L) (h_hif : Piece.hif ∈ L) (h_chans : Piece.chans ∈ L)
    (h_mce : Piece.mce ∈ L) (h_evr : Piece.evr ∈ L) (h_out : Piece.out ∈ L) (h_freeCtr : Piece.freeCtr ∈ L) : ReachE L s
    (execMove x0 s) := by
  unfold execMove
  with_reducible repeat'
    (first | assumption | apply ReachE.next | intro _ | extract_lets | apply moveGo_reach | apply wh_reach |
      apply Reach.foldl | apply Reach.ite | split | (exact Reach.rfl') | (dsimp +zetaDelta only))

theorem execIcmpv6NeighborSolicitation_reach {L x0 x1 x2 s} (h_hif_regs : Piece.regs .hif ∈ L) (h_out : Piece.out ∈ L) :
    ReachE L s (execIcmpv6NeighborSolicitation x0 x1 x2 s) := by
  unfold execIcmpv6NeighborSolicitation
  with_reducible repeat'
    (first | assumption | apply ReachE.next | intro _ | extract_lets | apply icmp_reach | apply wh_reach |
      apply onPort_reach | apply Reach.foldl | apply Reach.ite | split | (exact Reach.rfl') | (dsimp +zetaDelta only))

theorem execHandshakeTimeout_reach {L x0 s} (h_hif : Piece.hif ∈ L) : ReachE L s (execHandshakeTimeout x0 s) := by
  unfold execHandshakeTimeout
  with_reducible repeat'
    (first | assumption | apply ReachE.next | intro _ | extract_lets | apply dropHandshake_reach | apply wh_reach |
      apply Reach.foldl | apply Reach.ite | split | (exact Reach.rfl') | (dsimp +zetaDelta only))

theorem execMovePullTimeout_reach {L x0 s} (h_hif_regs : Piece.regs .hif ∈ L) (h_ras_regs : Piece.regs .ras ∈ L)
    (h_evr_regs : Piece.regs .evr ∈ L) (h_flights : Piece.flights ∈ L) (h_arrs : Piece.arrs ∈ L) (h_stks : Piece.stks ∈ L)
    (h_retrain : Piece.retrain ∈ L) (h_accs : Piece.accs ∈ L) (h_col : Piece.col ∈ L) (h_hif : Piece.hif ∈ L)
    (h_evr : Piece.evr ∈ L) (h_freeCtr : Piece.freeCtr ∈ L) : ReachE L s (execMovePullTimeout x0 s) := by
  unfold execMovePullTimeout
  with_reducible repeat'
    (first | assumption | apply ReachE.next | intro _ | extract_lets | apply pullTimeout_reach | apply wh_reach |
      apply Reach.foldl | apply Reach.ite | split | (exact Reach.rfl') | (dsimp +zetaDelta only))

theorem execSessionLossTimeout_reach {L x0 s} (h_hif_regs : Piece.regs .hif ∈ L) (h_ras_regs : Piece.regs .ras ∈ L)
    (h_evr_regs : Piece.regs .evr ∈ L) (h_flights : Piece.flights ∈ L) (h_arrs : Piece.arrs ∈ L) (h_stks : Piece.stks ∈ L)
    (h_retrain : Piece.retrain ∈ L) (h_accs : Piece.accs ∈ L) (h_col : Piece.col ∈ L) (h_hif : Piece.hif ∈ L)
    (h_chans : Piece.chans ∈ L) (h_evr : Piece.evr ∈ L) (h_freeCtr : Piece.freeCtr ∈ L) : ReachE L s (execSessionLossTimeout x0 s)
    := by
  unfold execSessionLossTimeout
  with_reducible repeat'
    (first | assumption | apply ReachE.next | intro _ | extract_lets | apply lossTimeout_reach | apply wh_reach |
      apply Reach.foldl | apply Reach.ite | split | (exact Reach.rfl') | (dsimp +zetaDelta only))

theorem execHostPortLinkChange_reach {L x0 x1 s} (h_hif_regs : Piece.regs .hif ∈ L) : ReachE L s
    (execHostPortLinkChange x0 x1 s) := by
  unfold execHostPortLinkChange
  with_reducible repeat'
    (first | assumption | apply ReachE.next | intro _ | extract_lets | apply st_reach | apply wh_reach | apply onPort_reach |
      apply Reach.foldl | apply Reach.ite | split | (exact Reach.rfl') | (dsimp +zetaDelta only))

theorem execAckDelayExpiry_reach {L x0 s} (h_hif_regs : Piece.regs .hif ∈ L) (h_chans : Piece.chans ∈ L)
    (h_out : Piece.out ∈ L) : ReachE L s (execAckDelayExpiry x0 s) := by
  unfold execAckDelayExpiry
  with_reducible repeat'
    (first | assumption | apply ReachE.next | intro _ | extract_lets | apply ackDelay_reach | apply wh_reach |
      apply Reach.foldl | apply Reach.ite | split | (exact Reach.rfl') | (dsimp +zetaDelta only))

theorem execSweepEnd_reach {L x0 s} (h_secs : Piece.secs ∈ L) : ReachE L s (execSweepEnd x0 s) := by
  unfold execSweepEnd
  with_reducible repeat'
    (first | assumption | apply ReachE.next | intro _ | extract_lets | apply sweepDone_reach | apply wh_reach |
      apply Reach.foldl | apply Reach.ite | split | (exact Reach.rfl') | (dsimp +zetaDelta only))

theorem execJobkeyLoad_reach {L x0 s} (h_yrd_regs : Piece.regs .yrd ∈ L) (h_mem_regs : Piece.regs .mem ∈ L)
    (h_lpd_regs : Piece.regs .lpd ∈ L) (h_mce_regs : Piece.regs .mce ∈ L) (h_sec_regs : Piece.regs .sec ∈ L)
    (h_ras_regs : Piece.regs .ras ∈ L) (h_evr_regs : Piece.regs .evr ∈ L) (h_bus : Piece.bus ∈ L) (h_mem : Piece.mem ∈ L)
    (h_nextFid : Piece.nextFid ∈ L) (h_yard : Piece.yard ∈ L) (h_retrain : Piece.retrain ∈ L) (h_accs : Piece.accs ∈ L)
    (h_nextTag : Piece.nextTag ∈ L) (h_ports : Piece.ports ∈ L) (h_sec : Piece.sec ∈ L) (h_secs : Piece.secs ∈ L)
    (h_secJobs : Piece.secJobs ∈ L) (h_lostFids : Piece.lostFids ∈ L) (h_mce : Piece.mce ∈ L) (h_evr : Piece.evr ∈ L)
    (h_freeCtr : Piece.freeCtr ∈ L) : ReachE L s (execJobkeyLoad x0 s) := by
  unfold execJobkeyLoad
  with_reducible repeat'
    (first | assumption | apply ReachE.next | intro _ | extract_lets | apply secRow_reach | apply atDone_reach |
      apply wh_reach | apply Reach.foldl | apply Reach.ite | split | (exact Reach.rfl') | (dsimp +zetaDelta only))

theorem execMeasure_reach {L x0 s} (h_yrd_regs : Piece.regs .yrd ∈ L) (h_mem_regs : Piece.regs .mem ∈ L)
    (h_lpd_regs : Piece.regs .lpd ∈ L) (h_mce_regs : Piece.regs .mce ∈ L) (h_sec_regs : Piece.regs .sec ∈ L)
    (h_ras_regs : Piece.regs .ras ∈ L) (h_evr_regs : Piece.regs .evr ∈ L) (h_bus : Piece.bus ∈ L) (h_mem : Piece.mem ∈ L)
    (h_nextFid : Piece.nextFid ∈ L) (h_yard : Piece.yard ∈ L) (h_retrain : Piece.retrain ∈ L) (h_accs : Piece.accs ∈ L)
    (h_nextTag : Piece.nextTag ∈ L) (h_ports : Piece.ports ∈ L) (h_sec : Piece.sec ∈ L) (h_secs : Piece.secs ∈ L)
    (h_secJobs : Piece.secJobs ∈ L) (h_lostFids : Piece.lostFids ∈ L) (h_mce : Piece.mce ∈ L) (h_evr : Piece.evr ∈ L)
    (h_freeCtr : Piece.freeCtr ∈ L) : ReachE L s (execMeasure x0 s) := by
  unfold execMeasure
  with_reducible repeat'
    (first | assumption | apply ReachE.next | intro _ | extract_lets | apply secRow_reach | apply atDone_reach |
      apply wh_reach | apply Reach.foldl | apply Reach.ite | split | (exact Reach.rfl') | (dsimp +zetaDelta only))

theorem execAttestD_reach {L x0 s} (h_yrd_regs : Piece.regs .yrd ∈ L) (h_mem_regs : Piece.regs .mem ∈ L)
    (h_lpd_regs : Piece.regs .lpd ∈ L) (h_mce_regs : Piece.regs .mce ∈ L) (h_sec_regs : Piece.regs .sec ∈ L)
    (h_ras_regs : Piece.regs .ras ∈ L) (h_evr_regs : Piece.regs .evr ∈ L) (h_bus : Piece.bus ∈ L) (h_mem : Piece.mem ∈ L)
    (h_nextFid : Piece.nextFid ∈ L) (h_yard : Piece.yard ∈ L) (h_retrain : Piece.retrain ∈ L) (h_accs : Piece.accs ∈ L)
    (h_nextTag : Piece.nextTag ∈ L) (h_ports : Piece.ports ∈ L) (h_sec : Piece.sec ∈ L) (h_secs : Piece.secs ∈ L)
    (h_secJobs : Piece.secJobs ∈ L) (h_lostFids : Piece.lostFids ∈ L) (h_mce : Piece.mce ∈ L) (h_evr : Piece.evr ∈ L)
    (h_freeCtr : Piece.freeCtr ∈ L) : ReachE L s (execAttestD x0 s) := by
  unfold execAttestD
  with_reducible repeat'
    (first | assumption | apply ReachE.next | intro _ | extract_lets | apply onZero_reach | apply secCommand_reach |
      apply atDone_reach | apply wh_reach | apply Reach.foldl | apply Reach.ite | split | (exact Reach.rfl') |
      (dsimp +zetaDelta only))

theorem execSweepBlock_reach {L x0 x1 s} (h_yrd_regs : Piece.regs .yrd ∈ L) (h_mce_regs : Piece.regs .mce ∈ L)
    (h_sec_regs : Piece.regs .sec ∈ L) (h_ras_regs : Piece.regs .ras ∈ L) (h_evr_regs : Piece.regs .evr ∈ L)
    (h_yard : Piece.yard ∈ L) (h_secs : Piece.secs ∈ L) (h_mce : Piece.mce ∈ L) (h_evr : Piece.evr ∈ L)
    (h_freeCtr : Piece.freeCtr ∈ L) : ReachE L s (execSweepBlock x0 x1 s) := by
  unfold execSweepBlock
  with_reducible repeat'
    (first | assumption | apply ReachE.next | intro _ | extract_lets | apply sweepStep_reach | apply wh_reach |
      apply Reach.foldl | apply Reach.ite | split | (exact Reach.rfl') | (dsimp +zetaDelta only))

theorem execBind_reach {L x0 s} (h_yrd_regs : Piece.regs .yrd ∈ L) (h_mem_regs : Piece.regs .mem ∈ L)
    (h_lpd_regs : Piece.regs .lpd ∈ L) (h_mce_regs : Piece.regs .mce ∈ L) (h_sec_regs : Piece.regs .sec ∈ L)
    (h_ras_regs : Piece.regs .ras ∈ L) (h_evr_regs : Piece.regs .evr ∈ L) (h_bus : Piece.bus ∈ L) (h_mem : Piece.mem ∈ L)
    (h_nextFid : Piece.nextFid ∈ L) (h_yard : Piece.yard ∈ L) (h_retrain : Piece.retrain ∈ L) (h_accs : Piece.accs ∈ L)
    (h_nextTag : Piece.nextTag ∈ L) (h_ports : Piece.ports ∈ L) (h_sec : Piece.sec ∈ L) (h_secs : Piece.secs ∈ L)
    (h_secJobs : Piece.secJobs ∈ L) (h_lostFids : Piece.lostFids ∈ L) (h_mce : Piece.mce ∈ L) (h_evr : Piece.evr ∈ L)
    (h_freeCtr : Piece.freeCtr ∈ L) : ReachE L s (execBind x0 s) := by
  unfold execBind
  with_reducible repeat'
    (first | assumption | apply ReachE.next | intro _ | extract_lets | apply secRow_reach | apply atDone_reach |
      apply wh_reach | apply Reach.foldl | apply Reach.ite | split | (exact Reach.rfl') | (dsimp +zetaDelta only))

theorem execSealSenseChange_reach {L x0 s} (h_sec : Piece.sec ∈ L) : ReachE L s (execSealSenseChange x0 s) :=
  ReachE.next (Reach.sec Reach.rfl' h_sec)

theorem execAttestP_reach {L x0 s} (h_yrd_regs : Piece.regs .yrd ∈ L) (h_mem_regs : Piece.regs .mem ∈ L)
    (h_lpd_regs : Piece.regs .lpd ∈ L) (h_mce_regs : Piece.regs .mce ∈ L) (h_sec_regs : Piece.regs .sec ∈ L)
    (h_ras_regs : Piece.regs .ras ∈ L) (h_evr_regs : Piece.regs .evr ∈ L) (h_bus : Piece.bus ∈ L) (h_mem : Piece.mem ∈ L)
    (h_nextFid : Piece.nextFid ∈ L) (h_yard : Piece.yard ∈ L) (h_retrain : Piece.retrain ∈ L) (h_accs : Piece.accs ∈ L)
    (h_nextTag : Piece.nextTag ∈ L) (h_ports : Piece.ports ∈ L) (h_sec : Piece.sec ∈ L) (h_secs : Piece.secs ∈ L)
    (h_secJobs : Piece.secJobs ∈ L) (h_lostFids : Piece.lostFids ∈ L) (h_mce : Piece.mce ∈ L) (h_evr : Piece.evr ∈ L)
    (h_freeCtr : Piece.freeCtr ∈ L) : ReachE L s (execAttestP x0 s) := by
  unfold execAttestP
  with_reducible repeat'
    (first | assumption | apply ReachE.next | intro _ | extract_lets | apply secRow_reach | apply atDone_reach |
      apply wh_reach | apply Reach.foldl | apply Reach.ite | split | (exact Reach.rfl') | (dsimp +zetaDelta only))

theorem execRotate_reach {L x0 s} (h_yrd_regs : Piece.regs .yrd ∈ L) (h_mem_regs : Piece.regs .mem ∈ L)
    (h_lpd_regs : Piece.regs .lpd ∈ L) (h_mce_regs : Piece.regs .mce ∈ L) (h_sec_regs : Piece.regs .sec ∈ L)
    (h_ras_regs : Piece.regs .ras ∈ L) (h_evr_regs : Piece.regs .evr ∈ L) (h_bus : Piece.bus ∈ L) (h_mem : Piece.mem ∈ L)
    (h_nextFid : Piece.nextFid ∈ L) (h_yard : Piece.yard ∈ L) (h_retrain : Piece.retrain ∈ L) (h_accs : Piece.accs ∈ L)
    (h_nextTag : Piece.nextTag ∈ L) (h_ports : Piece.ports ∈ L) (h_sec : Piece.sec ∈ L) (h_secs : Piece.secs ∈ L)
    (h_secJobs : Piece.secJobs ∈ L) (h_lostFids : Piece.lostFids ∈ L) (h_mce : Piece.mce ∈ L) (h_evr : Piece.evr ∈ L)
    (h_freeCtr : Piece.freeCtr ∈ L) : ReachE L s (execRotate x0 s) := by
  unfold execRotate
  with_reducible repeat'
    (first | assumption | apply ReachE.next | intro _ | extract_lets | apply secRow_reach | apply atDone_reach |
      apply wh_reach | apply Reach.foldl | apply Reach.ite | split | (exact Reach.rfl') | (dsimp +zetaDelta only))

theorem execJobkeyClear_reach {L x0 s} (h_yrd_regs : Piece.regs .yrd ∈ L) (h_mem_regs : Piece.regs .mem ∈ L)
    (h_lpd_regs : Piece.regs .lpd ∈ L) (h_mce_regs : Piece.regs .mce ∈ L) (h_sec_regs : Piece.regs .sec ∈ L)
    (h_ras_regs : Piece.regs .ras ∈ L) (h_evr_regs : Piece.regs .evr ∈ L) (h_bus : Piece.bus ∈ L) (h_mem : Piece.mem ∈ L)
    (h_nextFid : Piece.nextFid ∈ L) (h_yard : Piece.yard ∈ L) (h_retrain : Piece.retrain ∈ L) (h_accs : Piece.accs ∈ L)
    (h_nextTag : Piece.nextTag ∈ L) (h_ports : Piece.ports ∈ L) (h_sec : Piece.sec ∈ L) (h_secs : Piece.secs ∈ L)
    (h_secJobs : Piece.secJobs ∈ L) (h_lostFids : Piece.lostFids ∈ L) (h_mce : Piece.mce ∈ L) (h_evr : Piece.evr ∈ L)
    (h_freeCtr : Piece.freeCtr ∈ L) : ReachE L s (execJobkeyClear x0 s) := by
  unfold execJobkeyClear
  with_reducible repeat'
    (first | assumption | apply ReachE.next | intro _ | extract_lets | apply secRow_reach | apply atDone_reach |
      apply wh_reach | apply Reach.foldl | apply Reach.ite | split | (exact Reach.rfl') | (dsimp +zetaDelta only))

theorem execJtagOpeningInstruction_reach {L x0 x1 s} (h_hif_regs : Piece.regs .hif ∈ L) (h_yrd_regs : Piece.regs .yrd ∈ L)
    (h_mem_regs : Piece.regs .mem ∈ L) (h_lpd_regs : Piece.regs .lpd ∈ L) (h_mce_regs : Piece.regs .mce ∈ L)
    (h_fab_regs : Piece.regs .fab ∈ L) (h_sec_regs : Piece.regs .sec ∈ L) (h_ras_regs : Piece.regs .ras ∈ L)
    (h_evr_regs : Piece.regs .evr ∈ L) (h_mem : Piece.mem ∈ L) (h_flights : Piece.flights ∈ L) (h_arrs : Piece.arrs ∈ L)
    (h_stks : Piece.stks ∈ L) (h_yard : Piece.yard ∈ L) (h_retrain : Piece.retrain ∈ L) (h_accs : Piece.accs ∈ L)
    (h_nextTag : Piece.nextTag ∈ L) (h_col : Piece.col ∈ L) (h_ports : Piece.ports ∈ L) (h_hif : Piece.hif ∈ L)
    (h_chans : Piece.chans ∈ L) (h_sec : Piece.sec ∈ L) (h_secs : Piece.secs ∈ L) (h_secJobs : Piece.secJobs ∈ L)
    (h_lostFids : Piece.lostFids ∈ L) (h_mce : Piece.mce ∈ L) (h_evr : Piece.evr ∈ L) (h_freeCtr : Piece.freeCtr ∈ L) : ReachE L s
    (execJtagOpeningInstruction x0 x1 s) := by
  unfold execJtagOpeningInstruction
  with_reducible repeat'
    (first | assumption | apply ReachE.next | intro _ | extract_lets | apply jtagUpdate_reach | apply wh_reach |
      apply Reach.foldl | apply Reach.ite | split | (exact Reach.rfl') | (dsimp +zetaDelta only))

theorem execQuietPoint_reach {L x0 s} (h_yrd_regs : Piece.regs .yrd ∈ L) (h_mem_regs : Piece.regs .mem ∈ L)
    (h_lpd_regs : Piece.regs .lpd ∈ L) (h_mce_regs : Piece.regs .mce ∈ L) (h_sec_regs : Piece.regs .sec ∈ L)
    (h_ras_regs : Piece.regs .ras ∈ L) (h_evr_regs : Piece.regs .evr ∈ L) (h_mem : Piece.mem ∈ L) (h_flights : Piece.flights ∈ L)
    (h_arrs : Piece.arrs ∈ L) (h_yard : Piece.yard ∈ L) (h_retrain : Piece.retrain ∈ L) (h_accs : Piece.accs ∈ L)
    (h_nextTag : Piece.nextTag ∈ L) (h_parts : Piece.parts ∈ L) (h_ports : Piece.ports ∈ L) (h_mce : Piece.mce ∈ L)
    (h_evr : Piece.evr ∈ L) (h_freeCtr : Piece.freeCtr ∈ L) : ReachE L s (execQuietPoint x0 s) := by
  unfold execQuietPoint
  with_reducible repeat'
    (first | assumption | apply ReachE.next | intro _ | extract_lets | apply quietPoint_reach | apply wh_reach |
      apply Reach.foldl | apply Reach.ite | split | (exact Reach.rfl') | (dsimp +zetaDelta only))

theorem execPrtSuspend_reach {L x0 x1 s} (h_hif_regs : Piece.regs .hif ∈ L) (h_dsp_regs : Piece.regs .dsp ∈ L)
    (h_prt_regs : Piece.regs .prt ∈ L) (h_yrd_regs : Piece.regs .yrd ∈ L) (h_mem_regs : Piece.regs .mem ∈ L)
    (h_lpd_regs : Piece.regs .lpd ∈ L) (h_mce_regs : Piece.regs .mce ∈ L) (h_kvs_regs : Piece.regs .kvs ∈ L)
    (h_scn_regs : Piece.regs .scn ∈ L) (h_col_regs : Piece.regs .col ∈ L) (h_sec_regs : Piece.regs .sec ∈ L)
    (h_ras_regs : Piece.regs .ras ∈ L) (h_evr_regs : Piece.regs .evr ∈ L) (h_staged : Piece.staged ∈ L) (h_bus : Piece.bus ∈ L)
    (h_mem : Piece.mem ∈ L) (h_toks : Piece.toks ∈ L) (h_queues : Piece.queues ∈ L) (h_flights : Piece.flights ∈ L)
    (h_descriptors : Piece.descriptors ∈ L) (h_planners : Piece.planners ∈ L) (h_arrs : Piece.arrs ∈ L) (h_stks : Piece.stks ∈ L)
    (h_yard : Piece.yard ∈ L) (h_retrain : Piece.retrain ∈ L) (h_exts : Piece.exts ∈ L) (h_leases : Piece.leases ∈ L)
    (h_accs : Piece.accs ∈ L) (h_nextTag : Piece.nextTag ∈ L) (h_parts : Piece.parts ∈ L) (h_kvs : Piece.kvs ∈ L)
    (h_lab : Piece.lab ∈ L) (h_scn : Piece.scn ∈ L) (h_col : Piece.col ∈ L) (h_ports : Piece.ports ∈ L) (h_hif : Piece.hif ∈ L)
    (h_chans : Piece.chans ∈ L) (h_sec : Piece.sec ∈ L) (h_secs : Piece.secs ∈ L) (h_secJobs : Piece.secJobs ∈ L)
    (h_lostFids : Piece.lostFids ∈ L) (h_mce : Piece.mce ∈ L) (h_evr : Piece.evr ∈ L) (h_out : Piece.out ∈ L)
    (h_freeCtr : Piece.freeCtr ∈ L) : ReachE L s (execPrtSuspend x0 x1 s) := by
  unfold execPrtSuspend
  with_reducible repeat'
    (first | assumption | apply ReachE.next | intro _ | extract_lets | apply prtRow_reach | apply atDone_reach |
      apply wh_reach | apply Reach.foldl | apply Reach.ite | split | (exact Reach.rfl') | (dsimp +zetaDelta only))

theorem execLend_reach {L x0 s} (h_prt_regs : Piece.regs .prt ∈ L) (h_bus : Piece.bus ∈ L) (h_exts : Piece.exts ∈ L)
    (h_secs : Piece.secs ∈ L) (h_mce : Piece.mce ∈ L) : ReachE L s (execLend x0 s) := by
  unfold execLend
  with_reducible repeat'
    (first | assumption | apply ReachE.next | intro _ | extract_lets | apply onZero_reach | apply extCommand_reach |
      apply atDone_reach | apply wh_reach | apply Reach.foldl | apply Reach.ite | split | (exact Reach.rfl') |
      (dsimp +zetaDelta only))

theorem execPrtDestroy_reach {L x0 x1 s} (h_hif_regs : Piece.regs .hif ∈ L) (h_dsp_regs : Piece.regs .dsp ∈ L)
    (h_prt_regs : Piece.regs .prt ∈ L) (h_yrd_regs : Piece.regs .yrd ∈ L) (h_mem_regs : Piece.regs .mem ∈ L)
    (h_lpd_regs : Piece.regs .lpd ∈ L) (h_mce_regs : Piece.regs .mce ∈ L) (h_kvs_regs : Piece.regs .kvs ∈ L)
    (h_scn_regs : Piece.regs .scn ∈ L) (h_col_regs : Piece.regs .col ∈ L) (h_sec_regs : Piece.regs .sec ∈ L)
    (h_ras_regs : Piece.regs .ras ∈ L) (h_evr_regs : Piece.regs .evr ∈ L) (h_staged : Piece.staged ∈ L) (h_bus : Piece.bus ∈ L)
    (h_mem : Piece.mem ∈ L) (h_toks : Piece.toks ∈ L) (h_queues : Piece.queues ∈ L) (h_flights : Piece.flights ∈ L)
    (h_descriptors : Piece.descriptors ∈ L) (h_planners : Piece.planners ∈ L) (h_arrs : Piece.arrs ∈ L) (h_stks : Piece.stks ∈ L)
    (h_yard : Piece.yard ∈ L) (h_retrain : Piece.retrain ∈ L) (h_exts : Piece.exts ∈ L) (h_leases : Piece.leases ∈ L)
    (h_accs : Piece.accs ∈ L) (h_nextTag : Piece.nextTag ∈ L) (h_parts : Piece.parts ∈ L) (h_kvs : Piece.kvs ∈ L)
    (h_lab : Piece.lab ∈ L) (h_scn : Piece.scn ∈ L) (h_col : Piece.col ∈ L) (h_ports : Piece.ports ∈ L) (h_hif : Piece.hif ∈ L)
    (h_chans : Piece.chans ∈ L) (h_sec : Piece.sec ∈ L) (h_secs : Piece.secs ∈ L) (h_secJobs : Piece.secJobs ∈ L)
    (h_lostFids : Piece.lostFids ∈ L) (h_mce : Piece.mce ∈ L) (h_evr : Piece.evr ∈ L) (h_out : Piece.out ∈ L)
    (h_freeCtr : Piece.freeCtr ∈ L) : ReachE L s (execPrtDestroy x0 x1 s) := by
  unfold execPrtDestroy
  with_reducible repeat'
    (first | assumption | apply ReachE.next | intro _ | extract_lets | apply prtRow_reach | apply atDone_reach |
      apply wh_reach | apply Reach.foldl | apply Reach.ite | split | (exact Reach.rfl') | (dsimp +zetaDelta only))

theorem execExtentZeroed_reach {L x0 s} (h_prt_regs : Piece.regs .prt ∈ L) (h_yrd_regs : Piece.regs .yrd ∈ L)
    (h_mem : Piece.mem ∈ L) (h_yard : Piece.yard ∈ L) (h_exts : Piece.exts ∈ L) (h_mce : Piece.mce ∈ L) : ReachE L s
    (execExtentZeroed x0 s) := by
  unfold execExtentZeroed
  with_reducible repeat'
    (first | assumption | apply ReachE.next | intro _ | extract_lets | apply extentZeroed_reach | apply wh_reach |
      apply Reach.foldl | apply Reach.ite | split | (exact Reach.rfl') | (dsimp +zetaDelta only))

theorem execPrtResume_reach {L x0 x1 s} (h_hif_regs : Piece.regs .hif ∈ L) (h_dsp_regs : Piece.regs .dsp ∈ L)
    (h_prt_regs : Piece.regs .prt ∈ L) (h_yrd_regs : Piece.regs .yrd ∈ L) (h_mem_regs : Piece.regs .mem ∈ L)
    (h_lpd_regs : Piece.regs .lpd ∈ L) (h_mce_regs : Piece.regs .mce ∈ L) (h_kvs_regs : Piece.regs .kvs ∈ L)
    (h_scn_regs : Piece.regs .scn ∈ L) (h_col_regs : Piece.regs .col ∈ L) (h_sec_regs : Piece.regs .sec ∈ L)
    (h_ras_regs : Piece.regs .ras ∈ L) (h_evr_regs : Piece.regs .evr ∈ L) (h_staged : Piece.staged ∈ L) (h_bus : Piece.bus ∈ L)
    (h_mem : Piece.mem ∈ L) (h_toks : Piece.toks ∈ L) (h_queues : Piece.queues ∈ L) (h_flights : Piece.flights ∈ L)
    (h_descriptors : Piece.descriptors ∈ L) (h_planners : Piece.planners ∈ L) (h_arrs : Piece.arrs ∈ L) (h_stks : Piece.stks ∈ L)
    (h_yard : Piece.yard ∈ L) (h_retrain : Piece.retrain ∈ L) (h_exts : Piece.exts ∈ L) (h_leases : Piece.leases ∈ L)
    (h_accs : Piece.accs ∈ L) (h_nextTag : Piece.nextTag ∈ L) (h_parts : Piece.parts ∈ L) (h_kvs : Piece.kvs ∈ L)
    (h_lab : Piece.lab ∈ L) (h_scn : Piece.scn ∈ L) (h_col : Piece.col ∈ L) (h_ports : Piece.ports ∈ L) (h_hif : Piece.hif ∈ L)
    (h_chans : Piece.chans ∈ L) (h_sec : Piece.sec ∈ L) (h_secs : Piece.secs ∈ L) (h_secJobs : Piece.secJobs ∈ L)
    (h_lostFids : Piece.lostFids ∈ L) (h_mce : Piece.mce ∈ L) (h_evr : Piece.evr ∈ L) (h_out : Piece.out ∈ L)
    (h_freeCtr : Piece.freeCtr ∈ L) : ReachE L s (execPrtResume x0 x1 s) := by
  unfold execPrtResume
  with_reducible repeat'
    (first | assumption | apply ReachE.next | intro _ | extract_lets | apply prtRow_reach | apply atDone_reach |
      apply wh_reach | apply Reach.foldl | apply Reach.ite | split | (exact Reach.rfl') | (dsimp +zetaDelta only))

theorem execUnassign_reach {L x0 s} (h_prt_regs : Piece.regs .prt ∈ L) (h_bus : Piece.bus ∈ L) (h_exts : Piece.exts ∈ L)
    (h_secs : Piece.secs ∈ L) (h_mce : Piece.mce ∈ L) : ReachE L s (execUnassign x0 s) := by
  unfold execUnassign
  with_reducible repeat'
    (first | assumption | apply ReachE.next | intro _ | extract_lets | apply onZero_reach | apply extCommand_reach |
      apply atDone_reach | apply wh_reach | apply Reach.foldl | apply Reach.ite | split | (exact Reach.rfl') |
      (dsimp +zetaDelta only))

theorem execRestoreComplete_reach {L x0 s} (h_hif_regs : Piece.regs .hif ∈ L) (h_dsp_regs : Piece.regs .dsp ∈ L)
    (h_prt_regs : Piece.regs .prt ∈ L) (h_yrd_regs : Piece.regs .yrd ∈ L) (h_mem_regs : Piece.regs .mem ∈ L)
    (h_lpd_regs : Piece.regs .lpd ∈ L) (h_mce_regs : Piece.regs .mce ∈ L) (h_sec_regs : Piece.regs .sec ∈ L)
    (h_ras_regs : Piece.regs .ras ∈ L) (h_evr_regs : Piece.regs .evr ∈ L) (h_mem : Piece.mem ∈ L) (h_queues : Piece.queues ∈ L)
    (h_nextFid : Piece.nextFid ∈ L) (h_yard : Piece.yard ∈ L) (h_retrain : Piece.retrain ∈ L) (h_accs : Piece.accs ∈ L)
    (h_nextTag : Piece.nextTag ∈ L) (h_parts : Piece.parts ∈ L) (h_ports : Piece.ports ∈ L) (h_chans : Piece.chans ∈ L)
    (h_mce : Piece.mce ∈ L) (h_evr : Piece.evr ∈ L) (h_out : Piece.out ∈ L) (h_freeCtr : Piece.freeCtr ∈ L) : ReachE L s
    (execRestoreComplete x0 s) := by
  unfold execRestoreComplete
  with_reducible repeat'
    (first | assumption | apply ReachE.next | intro _ | extract_lets | apply wh_reach | apply restoreComplete_reach |
      apply Reach.foldl | apply Reach.ite | split | (exact Reach.rfl') | (dsimp +zetaDelta only))

theorem execPrtRestart_reach {L x0 x1 x2 s} (h_hif_regs : Piece.regs .hif ∈ L) (h_dsp_regs : Piece.regs .dsp ∈ L)
    (h_prt_regs : Piece.regs .prt ∈ L) (h_yrd_regs : Piece.regs .yrd ∈ L) (h_mem_regs : Piece.regs .mem ∈ L)
    (h_lpd_regs : Piece.regs .lpd ∈ L) (h_mce_regs : Piece.regs .mce ∈ L) (h_kvs_regs : Piece.regs .kvs ∈ L)
    (h_scn_regs : Piece.regs .scn ∈ L) (h_col_regs : Piece.regs .col ∈ L) (h_sec_regs : Piece.regs .sec ∈ L)
    (h_ras_regs : Piece.regs .ras ∈ L) (h_evr_regs : Piece.regs .evr ∈ L) (h_staged : Piece.staged ∈ L) (h_bus : Piece.bus ∈ L)
    (h_mem : Piece.mem ∈ L) (h_toks : Piece.toks ∈ L) (h_queues : Piece.queues ∈ L) (h_flights : Piece.flights ∈ L)
    (h_descriptors : Piece.descriptors ∈ L) (h_planners : Piece.planners ∈ L) (h_arrs : Piece.arrs ∈ L) (h_stks : Piece.stks ∈ L)
    (h_yard : Piece.yard ∈ L) (h_retrain : Piece.retrain ∈ L) (h_exts : Piece.exts ∈ L) (h_leases : Piece.leases ∈ L)
    (h_accs : Piece.accs ∈ L) (h_nextTag : Piece.nextTag ∈ L) (h_parts : Piece.parts ∈ L) (h_kvs : Piece.kvs ∈ L)
    (h_lab : Piece.lab ∈ L) (h_scn : Piece.scn ∈ L) (h_col : Piece.col ∈ L) (h_ports : Piece.ports ∈ L) (h_hif : Piece.hif ∈ L)
    (h_chans : Piece.chans ∈ L) (h_sec : Piece.sec ∈ L) (h_secs : Piece.secs ∈ L) (h_secJobs : Piece.secJobs ∈ L)
    (h_lostFids : Piece.lostFids ∈ L) (h_mce : Piece.mce ∈ L) (h_evr : Piece.evr ∈ L) (h_out : Piece.out ∈ L)
    (h_freeCtr : Piece.freeCtr ∈ L) : ReachE L s (execPrtRestart x0 x1 x2 s) := by
  unfold execPrtRestart
  with_reducible repeat'
    (first | assumption | apply ReachE.next | intro _ | extract_lets | apply prtRow_reach | apply atDone_reach |
      apply wh_reach | apply Reach.foldl | apply Reach.ite | split | (exact Reach.rfl') | (dsimp +zetaDelta only))

theorem execAssign_reach {L x0 x1 s} (h_prt_regs : Piece.regs .prt ∈ L) (h_bus : Piece.bus ∈ L) (h_exts : Piece.exts ∈ L)
    (h_secs : Piece.secs ∈ L) (h_mce : Piece.mce ∈ L) : ReachE L s (execAssign x0 x1 s) := by
  unfold execAssign
  with_reducible repeat'
    (first | assumption | apply ReachE.next | intro _ | extract_lets | apply onZero_reach | apply extCommand_reach |
      apply atDone_reach | apply wh_reach | apply Reach.foldl | apply Reach.ite | split | (exact Reach.rfl') |
      (dsimp +zetaDelta only))

theorem execArrayLeaveDone_reach {L x0 s} (h_parts : Piece.parts ∈ L) : ReachE L s (execArrayLeaveDone x0 s) := by
  unfold execArrayLeaveDone
  with_reducible repeat'
    (first | assumption | apply ReachE.next | intro _ | extract_lets | apply arrayLeft_reach | apply wh_reach |
      apply Reach.foldl | apply Reach.ite | split | (exact Reach.rfl') | (dsimp +zetaDelta only))

theorem execSaveComplete_reach {L x0 x1 s} (h_prt_regs : Piece.regs .prt ∈ L) (h_yrd_regs : Piece.regs .yrd ∈ L)
    (h_mem_regs : Piece.regs .mem ∈ L) (h_lpd_regs : Piece.regs .lpd ∈ L) (h_mce_regs : Piece.regs .mce ∈ L)
    (h_scn_regs : Piece.regs .scn ∈ L) (h_sec_regs : Piece.regs .sec ∈ L) (h_ras_regs : Piece.regs .ras ∈ L)
    (h_evr_regs : Piece.regs .evr ∈ L) (h_staged : Piece.staged ∈ L) (h_mem : Piece.mem ∈ L) (h_stks : Piece.stks ∈ L)
    (h_yard : Piece.yard ∈ L) (h_accs : Piece.accs ∈ L) (h_nextTag : Piece.nextTag ∈ L) (h_parts : Piece.parts ∈ L)
    (h_scn : Piece.scn ∈ L) (h_ports : Piece.ports ∈ L) (h_mce : Piece.mce ∈ L) (h_evr : Piece.evr ∈ L)
    (h_freeCtr : Piece.freeCtr ∈ L) : ReachE L s (execSaveComplete x0 x1 s) := by
  unfold execSaveComplete
  with_reducible repeat'
    (first | assumption | apply ReachE.next | intro _ | extract_lets | apply saveComplete_reach | apply wh_reach |
      apply Reach.foldl | apply Reach.ite | split | (exact Reach.rfl') | (dsimp +zetaDelta only))

theorem execPrtCreate_reach {L x0 x1 x2 s} (h_hif_regs : Piece.regs .hif ∈ L) (h_dsp_regs : Piece.regs .dsp ∈ L)
    (h_prt_regs : Piece.regs .prt ∈ L) (h_yrd_regs : Piece.regs .yrd ∈ L) (h_mem_regs : Piece.regs .mem ∈ L)
    (h_lpd_regs : Piece.regs .lpd ∈ L) (h_mce_regs : Piece.regs .mce ∈ L) (h_kvs_regs : Piece.regs .kvs ∈ L)
    (h_scn_regs : Piece.regs .scn ∈ L) (h_col_regs : Piece.regs .col ∈ L) (h_sec_regs : Piece.regs .sec ∈ L)
    (h_ras_regs : Piece.regs .ras ∈ L) (h_evr_regs : Piece.regs .evr ∈ L) (h_staged : Piece.staged ∈ L) (h_bus : Piece.bus ∈ L)
    (h_mem : Piece.mem ∈ L) (h_toks : Piece.toks ∈ L) (h_queues : Piece.queues ∈ L) (h_flights : Piece.flights ∈ L)
    (h_descriptors : Piece.descriptors ∈ L) (h_planners : Piece.planners ∈ L) (h_arrs : Piece.arrs ∈ L) (h_stks : Piece.stks ∈ L)
    (h_yard : Piece.yard ∈ L) (h_retrain : Piece.retrain ∈ L) (h_exts : Piece.exts ∈ L) (h_leases : Piece.leases ∈ L)
    (h_accs : Piece.accs ∈ L) (h_nextTag : Piece.nextTag ∈ L) (h_parts : Piece.parts ∈ L) (h_kvs : Piece.kvs ∈ L)
    (h_lab : Piece.lab ∈ L) (h_scn : Piece.scn ∈ L) (h_col : Piece.col ∈ L) (h_ports : Piece.ports ∈ L) (h_hif : Piece.hif ∈ L)
    (h_chans : Piece.chans ∈ L) (h_sec : Piece.sec ∈ L) (h_secs : Piece.secs ∈ L) (h_secJobs : Piece.secJobs ∈ L)
    (h_lostFids : Piece.lostFids ∈ L) (h_mce : Piece.mce ∈ L) (h_evr : Piece.evr ∈ L) (h_out : Piece.out ∈ L)
    (h_freeCtr : Piece.freeCtr ∈ L) : ReachE L s (execPrtCreate x0 x1 x2 s) := by
  unfold execPrtCreate
  with_reducible repeat'
    (first | assumption | apply ReachE.next | intro _ | extract_lets | apply prtRow_reach | apply atDone_reach |
      apply wh_reach | apply Reach.foldl | apply Reach.ite | split | (exact Reach.rfl') | (dsimp +zetaDelta only))

theorem execYardScrub_reach {L x0 s} (h_ras_regs : Piece.regs .ras ∈ L) (h_evr_regs : Piece.regs .evr ∈ L)
    (h_evr : Piece.evr ∈ L) (h_freeCtr : Piece.freeCtr ∈ L) : ReachE L s (execYardScrub x0 s) := by
  unfold execYardScrub
  with_reducible repeat'
    (first | assumption | apply ReachE.next | intro _ | extract_lets | apply scrubPass_reach | apply wh_reach |
      apply Reach.foldl | apply Reach.ite | split | (exact Reach.rfl') | (dsimp +zetaDelta only))

theorem execMemoryRetrainStart_reach {L x0 x1 x2 x3 s} (h_mem_regs : Piece.regs .mem ∈ L) (h_lpd_regs : Piece.regs .lpd ∈ L)
    (h_ras_regs : Piece.regs .ras ∈ L) (h_evr_regs : Piece.regs .evr ∈ L) (h_retrain : Piece.retrain ∈ L) (h_evr : Piece.evr ∈ L)
    (h_freeCtr : Piece.freeCtr ∈ L) : ReachE L s (execMemoryRetrainStart x0 x1 x2 x3 s) := by
  unfold execMemoryRetrainStart
  with_reducible repeat'
    (first | assumption | apply ReachE.next | intro _ | extract_lets | apply wh_reach | apply retrainStart_reach |
      apply Reach.foldl | apply Reach.ite | split | (exact Reach.rfl') | (dsimp +zetaDelta only))

theorem execHopStallFailure_reach {L x0 x1 x2 s} (h_hif_regs : Piece.regs .hif ∈ L) (h_dsp_regs : Piece.regs .dsp ∈ L)
    (h_tok_regs : Piece.regs .tok ∈ L) (h_prt_regs : Piece.regs .prt ∈ L) (h_yrd_regs : Piece.regs .yrd ∈ L)
    (h_mem_regs : Piece.regs .mem ∈ L) (h_lpd_regs : Piece.regs .lpd ∈ L) (h_mce_regs : Piece.regs .mce ∈ L)
    (h_kvs_regs : Piece.regs .kvs ∈ L) (h_scn_regs : Piece.regs .scn ∈ L) (h_col_regs : Piece.regs .col ∈ L)
    (h_sec_regs : Piece.regs .sec ∈ L) (h_ras_regs : Piece.regs .ras ∈ L) (h_evr_regs : Piece.regs .evr ∈ L)
    (h_mem : Piece.mem ∈ L) (h_toks : Piece.toks ∈ L) (h_queues : Piece.queues ∈ L) (h_flights : Piece.flights ∈ L)
    (h_descriptors : Piece.descriptors ∈ L) (h_planners : Piece.planners ∈ L) (h_arrs : Piece.arrs ∈ L) (h_stks : Piece.stks ∈ L)
    (h_yard : Piece.yard ∈ L) (h_retrain : Piece.retrain ∈ L) (h_leases : Piece.leases ∈ L) (h_accs : Piece.accs ∈ L)
    (h_nextTag : Piece.nextTag ∈ L) (h_parts : Piece.parts ∈ L) (h_kvs : Piece.kvs ∈ L) (h_lab : Piece.lab ∈ L)
    (h_scn : Piece.scn ∈ L) (h_col : Piece.col ∈ L) (h_ports : Piece.ports ∈ L) (h_hif : Piece.hif ∈ L)
    (h_chans : Piece.chans ∈ L) (h_secs : Piece.secs ∈ L) (h_secJobs : Piece.secJobs ∈ L) (h_lostFids : Piece.lostFids ∈ L)
    (h_mce : Piece.mce ∈ L) (h_evr : Piece.evr ∈ L) (h_out : Piece.out ∈ L) (h_freeCtr : Piece.freeCtr ∈ L) : ReachE L s
    (execHopStallFailure x0 x1 x2 s) := by
  unfold execHopStallFailure
  with_reducible repeat'
    (first | assumption | apply ReachE.next | intro _ | extract_lets | apply hopFail_reach | apply wh_reach |
      apply Reach.foldl | apply Reach.ite | split | (exact Reach.rfl') | (dsimp +zetaDelta only))

theorem execMr4TemperatureReport_reach {L x0 x1 x2 s} (h_lpd_regs : Piece.regs .lpd ∈ L) : ReachE L s
    (execMr4TemperatureReport x0 x1 x2 s) := by
  unfold execMr4TemperatureReport
  with_reducible repeat'
    (first | assumption | apply ReachE.next | intro _ | extract_lets | apply st_reach | apply wh_reach | apply Reach.foldl |
      apply Reach.ite | split | (exact Reach.rfl') | (dsimp +zetaDelta only))

theorem execArrayUncorrectedError_reach {L x0 x1 x2 s} (h_dev_regs : Piece.regs .dev ∈ L) (h_hif_regs : Piece.regs .hif ∈ L)
    (h_dsp_regs : Piece.regs .dsp ∈ L) (h_tok_regs : Piece.regs .tok ∈ L) (h_prt_regs : Piece.regs .prt ∈ L)
    (h_arr_regs : Piece.regs .arr ∈ L) (h_yrd_regs : Piece.regs .yrd ∈ L) (h_mem_regs : Piece.regs .mem ∈ L)
    (h_lpd_regs : Piece.regs .lpd ∈ L) (h_mce_regs : Piece.regs .mce ∈ L) (h_kvs_regs : Piece.regs .kvs ∈ L)
    (h_scn_regs : Piece.regs .scn ∈ L) (h_col_regs : Piece.regs .col ∈ L) (h_sec_regs : Piece.regs .sec ∈ L)
    (h_ras_regs : Piece.regs .ras ∈ L) (h_evr_regs : Piece.regs .evr ∈ L) (h_mem : Piece.mem ∈ L) (h_toks : Piece.toks ∈ L)
    (h_queues : Piece.queues ∈ L) (h_flights : Piece.flights ∈ L) (h_descriptors : Piece.descriptors ∈ L)
    (h_planners : Piece.planners ∈ L) (h_arrs : Piece.arrs ∈ L) (h_stks : Piece.stks ∈ L) (h_yard : Piece.yard ∈ L)
    (h_retrain : Piece.retrain ∈ L) (h_leases : Piece.leases ∈ L) (h_accs : Piece.accs ∈ L) (h_nextTag : Piece.nextTag ∈ L)
    (h_parts : Piece.parts ∈ L) (h_kvs : Piece.kvs ∈ L) (h_lab : Piece.lab ∈ L) (h_scn : Piece.scn ∈ L) (h_col : Piece.col ∈ L)
    (h_ports : Piece.ports ∈ L) (h_hif : Piece.hif ∈ L) (h_chans : Piece.chans ∈ L) (h_secs : Piece.secs ∈ L)
    (h_secJobs : Piece.secJobs ∈ L) (h_lostFids : Piece.lostFids ∈ L) (h_mce : Piece.mce ∈ L) (h_evr : Piece.evr ∈ L)
    (h_out : Piece.out ∈ L) (h_freeCtr : Piece.freeCtr ∈ L) : ReachE L s (execArrayUncorrectedError x0 x1 x2 s) := by
  unfold execArrayUncorrectedError
  with_reducible repeat'
    (first | assumption | apply ReachE.next | intro _ | extract_lets | apply arrayError_reach | apply wh_reach |
      apply Reach.foldl | apply Reach.ite | split | (exact Reach.rfl') | (dsimp +zetaDelta only))

theorem execThermalFaultClear_reach {L s} (h_pwr_regs : Piece.regs .pwr ∈ L) (h_clk_regs : Piece.regs .clk ∈ L) : ReachE L s
    (execThermalFaultClear s) := by
  unfold execThermalFaultClear
  with_reducible repeat'
    (first | assumption | apply ReachE.next | intro _ | extract_lets | apply thermalResume_reach | apply wh_reach |
      apply Reach.foldl | apply Reach.ite | split | (exact Reach.rfl') | (dsimp +zetaDelta only))

theorem execAdaptiveIdleStep_reach {L x0 s} (h_clk_regs : Piece.regs .clk ∈ L) : ReachE L s (execAdaptiveIdleStep x0 s) := by
  unfold execAdaptiveIdleStep
  with_reducible repeat'
    (first | assumption | apply ReachE.next | intro _ | extract_lets | apply idleStep_reach | apply wh_reach |
      apply Reach.foldl | apply Reach.ite | split | (exact Reach.rfl') | (dsimp +zetaDelta only))

theorem execInstallA_reach {L x0 x1 s} (h_pwr : Piece.pwr ∈ L) (h_yrd_regs : Piece.regs .yrd ∈ L)
    (h_mem_regs : Piece.regs .mem ∈ L) (h_lpd_regs : Piece.regs .lpd ∈ L) (h_mce_regs : Piece.regs .mce ∈ L)
    (h_sec_regs : Piece.regs .sec ∈ L) (h_ras_regs : Piece.regs .ras ∈ L) (h_evr_regs : Piece.regs .evr ∈ L)
    (h_boot_regs : Piece.regs .boot ∈ L) (h_bus : Piece.bus ∈ L) (h_mem : Piece.mem ∈ L) (h_flash : Piece.flash ∈ L)
    (h_yard : Piece.yard ∈ L) (h_accs : Piece.accs ∈ L) (h_nextTag : Piece.nextTag ∈ L) (h_ports : Piece.ports ∈ L)
    (h_sec : Piece.sec ∈ L) (h_mce : Piece.mce ∈ L) (h_evr : Piece.evr ∈ L) (h_freeCtr : Piece.freeCtr ∈ L) : ReachE L s
    (execInstallA x0 x1 s) := by
  unfold execInstallA
  with_reducible repeat'
    (first | assumption | apply ReachE.next | intro _ | extract_lets | apply onZero_reach | apply wh_reach |
      apply bootCommand_reach | apply Reach.foldl | apply Reach.ite | split | (exact Reach.rfl') | (dsimp +zetaDelta only))

theorem execBootStaged_reach {L x0 s} (h_pwr : Piece.pwr ∈ L) (h_yrd_regs : Piece.regs .yrd ∈ L)
    (h_mem_regs : Piece.regs .mem ∈ L) (h_lpd_regs : Piece.regs .lpd ∈ L) (h_mce_regs : Piece.regs .mce ∈ L)
    (h_sec_regs : Piece.regs .sec ∈ L) (h_ras_regs : Piece.regs .ras ∈ L) (h_evr_regs : Piece.regs .evr ∈ L)
    (h_boot_regs : Piece.regs .boot ∈ L) (h_bus : Piece.bus ∈ L) (h_mem : Piece.mem ∈ L) (h_flash : Piece.flash ∈ L)
    (h_yard : Piece.yard ∈ L) (h_accs : Piece.accs ∈ L) (h_nextTag : Piece.nextTag ∈ L) (h_ports : Piece.ports ∈ L)
    (h_sec : Piece.sec ∈ L) (h_mce : Piece.mce ∈ L) (h_evr : Piece.evr ∈ L) (h_freeCtr : Piece.freeCtr ∈ L) : ReachE L s
    (execBootStaged x0 s) := by
  unfold execBootStaged
  with_reducible repeat'
    (first | assumption | apply ReachE.next | intro _ | extract_lets | apply onZero_reach | apply wh_reach |
      apply bootCommand_reach | apply Reach.foldl | apply Reach.ite | split | (exact Reach.rfl') | (dsimp +zetaDelta only))

theorem execThermalFault_reach {L s} (h_pwr_regs : Piece.regs .pwr ∈ L) (h_clk_regs : Piece.regs .clk ∈ L)
    (h_ras_regs : Piece.regs .ras ∈ L) (h_evr_regs : Piece.regs .evr ∈ L) (h_evr : Piece.evr ∈ L) (h_freeCtr : Piece.freeCtr ∈ L)
    : ReachE L s (execThermalFault s) := by
  unfold execThermalFault
  with_reducible repeat'
    (first | assumption | apply ReachE.next | intro _ | extract_lets | apply thermalStop_reach | apply wh_reach |
      apply Reach.foldl | apply Reach.ite | split | (exact Reach.rfl') | (dsimp +zetaDelta only))

theorem execInstallB_reach {L x0 x1 s} (h_pwr : Piece.pwr ∈ L) (h_yrd_regs : Piece.regs .yrd ∈ L)
    (h_mem_regs : Piece.regs .mem ∈ L) (h_lpd_regs : Piece.regs .lpd ∈ L) (h_mce_regs : Piece.regs .mce ∈ L)
    (h_sec_regs : Piece.regs .sec ∈ L) (h_ras_regs : Piece.regs .ras ∈ L) (h_evr_regs : Piece.regs .evr ∈ L)
    (h_boot_regs : Piece.regs .boot ∈ L) (h_bus : Piece.bus ∈ L) (h_mem : Piece.mem ∈ L) (h_flash : Piece.flash ∈ L)
    (h_yard : Piece.yard ∈ L) (h_accs : Piece.accs ∈ L) (h_nextTag : Piece.nextTag ∈ L) (h_ports : Piece.ports ∈ L)
    (h_sec : Piece.sec ∈ L) (h_mce : Piece.mce ∈ L) (h_evr : Piece.evr ∈ L) (h_freeCtr : Piece.freeCtr ∈ L) : ReachE L s
    (execInstallB x0 x1 s) := by
  unfold execInstallB
  with_reducible repeat'
    (first | assumption | apply ReachE.next | intro _ | extract_lets | apply onZero_reach | apply wh_reach |
      apply bootCommand_reach | apply Reach.foldl | apply Reach.ite | split | (exact Reach.rfl') | (dsimp +zetaDelta only))

theorem execVoltageGuardStretch_reach {L x0 s} (h_pwr_regs : Piece.regs .pwr ∈ L) (h_ras_regs : Piece.regs .ras ∈ L)
    (h_evr_regs : Piece.regs .evr ∈ L) (h_evr : Piece.evr ∈ L) (h_freeCtr : Piece.freeCtr ∈ L) : ReachE L s
    (execVoltageGuardStretch x0 s) := by
  unfold execVoltageGuardStretch
  with_reducible repeat'
    (first | assumption | apply ReachE.next | intro _ | extract_lets | apply raiseDur_reach | apply inc_reach |
      apply wh_reach | apply Reach.foldl | apply Reach.ite | split | (exact Reach.rfl') | (dsimp +zetaDelta only))

theorem execPowerFail_reach {L s} (h_pwr : Piece.pwr ∈ L) (h_flash : Piece.flash ∈ L) (h_evr : Piece.evr ∈ L)
    (h_freeCtr : Piece.freeCtr ∈ L) : ReachE L s (execPowerFail s) := by
  unfold execPowerFail
  with_reducible repeat'
    (first | assumption | apply ReachE.next | intro _ | extract_lets | apply powerDown_reach | apply wh_reach |
      apply Reach.foldl | apply Reach.ite | split | (exact Reach.rfl') | (dsimp +zetaDelta only))

theorem execLimiterInterval_reach {L x0 x1 x2 s} (h_pwr : Piece.pwr ∈ L) (h_pwr_regs : Piece.regs .pwr ∈ L)
    (h_clk_regs : Piece.regs .clk ∈ L) (h_ras_regs : Piece.regs .ras ∈ L) (h_evr_regs : Piece.regs .evr ∈ L)
    (h_evr : Piece.evr ∈ L) (h_freeCtr : Piece.freeCtr ∈ L) : ReachE L s (execLimiterInterval x0 x1 x2 s) := by
  unfold execLimiterInterval
  with_reducible repeat'
    (first | assumption | apply ReachE.next | intro _ | extract_lets | apply limiterGo_reach | apply wh_reach |
      apply Reach.foldl | apply Reach.ite | split | (exact Reach.rfl') | (dsimp +zetaDelta only))

theorem execLimiterUndo_reach {L s} (h_pwr : Piece.pwr ∈ L) (h_pwr_regs : Piece.regs .pwr ∈ L)
    (h_clk_regs : Piece.regs .clk ∈ L) : ReachE L s (execLimiterUndo s) := by
  unfold execLimiterUndo
  with_reducible repeat'
    (first | assumption | apply ReachE.next | intro _ | extract_lets | apply undoStep_reach | apply wh_reach |
      apply Reach.foldl | apply Reach.ite | split | (exact Reach.rfl') | (dsimp +zetaDelta only))

theorem execModResetAssert_reach {L s} (h_pwr : Piece.pwr ∈ L) (h_regs : ∀ b, Piece.regs b ∈ L) (h_staged : Piece.staged ∈ L)
    (h_bus : Piece.bus ∈ L) (h_mem : Piece.mem ∈ L) (h_flash : Piece.flash ∈ L) (h_toks : Piece.toks ∈ L)
    (h_queues : Piece.queues ∈ L) (h_lastServed : Piece.lastServed ∈ L) (h_flights : Piece.flights ∈ L)
    (h_descriptors : Piece.descriptors ∈ L) (h_nextFid : Piece.nextFid ∈ L) (h_planners : Piece.planners ∈ L)
    (h_arrs : Piece.arrs ∈ L) (h_stks : Piece.stks ∈ L) (h_yard : Piece.yard ∈ L) (h_retrain : Piece.retrain ∈ L)
    (h_exts : Piece.exts ∈ L) (h_leases : Piece.leases ∈ L) (h_lends : Piece.lends ∈ L) (h_accs : Piece.accs ∈ L)
    (h_nextTag : Piece.nextTag ∈ L) (h_parts : Piece.parts ∈ L) (h_kvs : Piece.kvs ∈ L) (h_lab : Piece.lab ∈ L)
    (h_scn : Piece.scn ∈ L) (h_col : Piece.col ∈ L) (h_ports : Piece.ports ∈ L) (h_ivs : Piece.ivs ∈ L) (h_hif : Piece.hif ∈ L)
    (h_chans : Piece.chans ∈ L) (h_sec : Piece.sec ∈ L) (h_secs : Piece.secs ∈ L) (h_secJobs : Piece.secJobs ∈ L)
    (h_lostFids : Piece.lostFids ∈ L) (h_mce : Piece.mce ∈ L) (h_evr : Piece.evr ∈ L) (h_out : Piece.out ∈ L) : ReachE L s
    (execModResetAssert s) := by
  unfold execModResetAssert
  with_reducible repeat'
    (first | assumption | apply ReachE.next | intro _ | extract_lets | apply resetAssert_reach | apply Reach.foldl |
      apply Reach.ite | split | apply h_regs | (exact Reach.rfl') | (dsimp +zetaDelta only))

theorem execPageEnable_reach {L x0 x1 x2 s} (h_regs : ∀ b, Piece.regs b ∈ L) (h_bus : Piece.bus ∈ L) (h_mem : Piece.mem ∈ L)
    (h_flights : Piece.flights ∈ L) (h_arrs : Piece.arrs ∈ L) (h_stks : Piece.stks ∈ L) (h_retrain : Piece.retrain ∈ L)
    (h_leases : Piece.leases ∈ L) (h_accs : Piece.accs ∈ L) (h_col : Piece.col ∈ L) (h_ports : Piece.ports ∈ L)
    (h_hif : Piece.hif ∈ L) (h_chans : Piece.chans ∈ L) (h_lostFids : Piece.lostFids ∈ L) (h_evr : Piece.evr ∈ L)
    (h_out : Piece.out ∈ L) (h_freeCtr : Piece.freeCtr ∈ L) : ReachE L s (execPageEnable x0 x1 x2 s) := by
  unfold execPageEnable
  with_reducible repeat'
    (first | assumption | apply ReachE.next | intro _ | extract_lets | apply onPage_reach | apply wh_reach |
      apply ctrlWrite_reach | apply Reach.foldl | apply Reach.ite | split | apply h_regs | (exact Reach.rfl') |
      (dsimp +zetaDelta only))

theorem execPageReset_reach {L x0 x1 s} (h_regs : ∀ b, Piece.regs b ∈ L) (h_staged : Piece.staged ∈ L) (h_bus : Piece.bus ∈ L)
    (h_mem : Piece.mem ∈ L) (h_toks : Piece.toks ∈ L) (h_queues : Piece.queues ∈ L) (h_flights : Piece.flights ∈ L)
    (h_descriptors : Piece.descriptors ∈ L) (h_arrs : Piece.arrs ∈ L) (h_stks : Piece.stks ∈ L) (h_yard : Piece.yard ∈ L)
    (h_retrain : Piece.retrain ∈ L) (h_leases : Piece.leases ∈ L) (h_accs : Piece.accs ∈ L) (h_nextTag : Piece.nextTag ∈ L)
    (h_parts : Piece.parts ∈ L) (h_kvs : Piece.kvs ∈ L) (h_lab : Piece.lab ∈ L) (h_scn : Piece.scn ∈ L) (h_col : Piece.col ∈ L)
    (h_ports : Piece.ports ∈ L) (h_hif : Piece.hif ∈ L) (h_chans : Piece.chans ∈ L) (h_lostFids : Piece.lostFids ∈ L)
    (h_mce : Piece.mce ∈ L) (h_evr : Piece.evr ∈ L) (h_out : Piece.out ∈ L) (h_freeCtr : Piece.freeCtr ∈ L) : ReachE L s
    (execPageReset x0 x1 s) := by
  unfold execPageReset
  with_reducible repeat'
    (first | assumption | apply ReachE.next | intro _ | extract_lets | apply onPage_reach | apply resetRequest_reach |
      apply wh_reach | apply Reach.foldl | apply Reach.ite | split | apply h_regs | (exact Reach.rfl') |
      (dsimp +zetaDelta only))

theorem execClearPeak_reach {L x0 s} (h_pwr_regs : Piece.regs .pwr ∈ L) (h_bus : Piece.bus ∈ L) : ReachE L s
    (execClearPeak x0 s) := by
  unfold execClearPeak
  with_reducible repeat'
    (first | assumption | apply ReachE.next | intro _ | extract_lets | apply onZero_reach | apply st_reach | apply wh_reach |
      apply Reach.foldl | apply Reach.ite | split | (exact Reach.rfl') | (dsimp +zetaDelta only))

theorem execPageErrClear_reach {L x0 x1 x2 s} (h_regs : ∀ b, Piece.regs b ∈ L) (h_bus : Piece.bus ∈ L) : ReachE L s
    (execPageErrClear x0 x1 x2 s) := by
  unfold execPageErrClear
  with_reducible repeat'
    (first | assumption | apply ReachE.next | intro _ | extract_lets | apply onPage_reach | apply errWrite_reach |
      apply wh_reach | apply Reach.foldl | apply Reach.ite | split | apply h_regs | (exact Reach.rfl') |
      (dsimp +zetaDelta only))

theorem execPageCommit_reach {L x0 x1 x2 s} (h_regs : ∀ b, Piece.regs b ∈ L) (h_staged : Piece.staged ∈ L)
    (h_bus : Piece.bus ∈ L) (h_mem : Piece.mem ∈ L) (h_toks : Piece.toks ∈ L) (h_queues : Piece.queues ∈ L)
    (h_flights : Piece.flights ∈ L) (h_descriptors : Piece.descriptors ∈ L) (h_arrs : Piece.arrs ∈ L) (h_stks : Piece.stks ∈ L)
    (h_yard : Piece.yard ∈ L) (h_retrain : Piece.retrain ∈ L) (h_leases : Piece.leases ∈ L) (h_accs : Piece.accs ∈ L)
    (h_nextTag : Piece.nextTag ∈ L) (h_parts : Piece.parts ∈ L) (h_kvs : Piece.kvs ∈ L) (h_lab : Piece.lab ∈ L)
    (h_scn : Piece.scn ∈ L) (h_col : Piece.col ∈ L) (h_ports : Piece.ports ∈ L) (h_hif : Piece.hif ∈ L)
    (h_chans : Piece.chans ∈ L) (h_lostFids : Piece.lostFids ∈ L) (h_mce : Piece.mce ∈ L) (h_evr : Piece.evr ∈ L)
    (h_out : Piece.out ∈ L) (h_freeCtr : Piece.freeCtr ∈ L) : ReachE L s (execPageCommit x0 x1 x2 s) := by
  unfold execPageCommit
  with_reducible repeat'
    (first | assumption | apply ReachE.next | intro _ | extract_lets | apply onPage_reach | apply commonWrite_reach |
      apply wh_reach | apply Reach.foldl | apply Reach.ite | split | apply h_regs | (exact Reach.rfl') |
      (dsimp +zetaDelta only))

theorem execRegisterWrite_reach {L x0 x1 x2 s} (h_pwr : Piece.pwr ∈ L) (h_regs : ∀ b, Piece.regs b ∈ L)
    (h_staged : Piece.staged ∈ L) (h_bus : Piece.bus ∈ L) (h_mem : Piece.mem ∈ L) (h_flash : Piece.flash ∈ L)
    (h_toks : Piece.toks ∈ L) (h_queues : Piece.queues ∈ L) (h_flights : Piece.flights ∈ L)
    (h_descriptors : Piece.descriptors ∈ L) (h_nextFid : Piece.nextFid ∈ L) (h_planners : Piece.planners ∈ L)
    (h_arrs : Piece.arrs ∈ L) (h_stks : Piece.stks ∈ L) (h_yard : Piece.yard ∈ L) (h_retrain : Piece.retrain ∈ L)
    (h_exts : Piece.exts ∈ L) (h_leases : Piece.leases ∈ L) (h_lends : Piece.lends ∈ L) (h_accs : Piece.accs ∈ L)
    (h_nextTag : Piece.nextTag ∈ L) (h_parts : Piece.parts ∈ L) (h_kvs : Piece.kvs ∈ L) (h_lab : Piece.lab ∈ L)
    (h_scn : Piece.scn ∈ L) (h_col : Piece.col ∈ L) (h_ports : Piece.ports ∈ L) (h_hif : Piece.hif ∈ L)
    (h_chans : Piece.chans ∈ L) (h_sec : Piece.sec ∈ L) (h_secs : Piece.secs ∈ L) (h_secJobs : Piece.secJobs ∈ L)
    (h_lostFids : Piece.lostFids ∈ L) (h_mce : Piece.mce ∈ L) (h_evr : Piece.evr ∈ L) (h_out : Piece.out ∈ L)
    (h_freeCtr : Piece.freeCtr ∈ L) : ReachE L s (execRegisterWrite x0 x1 x2 s) := by
  unfold execRegisterWrite
  with_reducible repeat'
    (first | assumption | apply ReachE.next | intro _ | extract_lets | apply access_reach | apply wh_reach |
      apply Reach.foldl | apply Reach.ite | split | apply h_regs | (exact Reach.rfl') | (dsimp +zetaDelta only))

theorem execPageQuiesce_reach {L x0 x1 x2 s} (h_regs : ∀ b, Piece.regs b ∈ L) (h_bus : Piece.bus ∈ L) (h_mem : Piece.mem ∈ L)
    (h_flights : Piece.flights ∈ L) (h_arrs : Piece.arrs ∈ L) (h_stks : Piece.stks ∈ L) (h_retrain : Piece.retrain ∈ L)
    (h_leases : Piece.leases ∈ L) (h_accs : Piece.accs ∈ L) (h_col : Piece.col ∈ L) (h_ports : Piece.ports ∈ L)
    (h_hif : Piece.hif ∈ L) (h_chans : Piece.chans ∈ L) (h_lostFids : Piece.lostFids ∈ L) (h_evr : Piece.evr ∈ L)
    (h_out : Piece.out ∈ L) (h_freeCtr : Piece.freeCtr ∈ L) : ReachE L s (execPageQuiesce x0 x1 x2 s) := by
  unfold execPageQuiesce
  with_reducible repeat'
    (first | assumption | apply ReachE.next | intro _ | extract_lets | apply onPage_reach | apply wh_reach |
      apply ctrlWrite_reach | apply Reach.foldl | apply Reach.ite | split | apply h_regs | (exact Reach.rfl') |
      (dsimp +zetaDelta only))

theorem execBootBackoffExpiry_reach {L x0 s} (h_pwr : Piece.pwr ∈ L) (h_regs : ∀ b, Piece.regs b ∈ L)
    (h_staged : Piece.staged ∈ L) (h_bus : Piece.bus ∈ L) (h_mem : Piece.mem ∈ L) (h_flash : Piece.flash ∈ L)
    (h_toks : Piece.toks ∈ L) (h_queues : Piece.queues ∈ L) (h_flights : Piece.flights ∈ L)
    (h_descriptors : Piece.descriptors ∈ L) (h_nextFid : Piece.nextFid ∈ L) (h_planners : Piece.planners ∈ L)
    (h_arrs : Piece.arrs ∈ L) (h_stks : Piece.stks ∈ L) (h_yard : Piece.yard ∈ L) (h_retrain : Piece.retrain ∈ L)
    (h_exts : Piece.exts ∈ L) (h_leases : Piece.leases ∈ L) (h_lends : Piece.lends ∈ L) (h_accs : Piece.accs ∈ L)
    (h_nextTag : Piece.nextTag ∈ L) (h_parts : Piece.parts ∈ L) (h_kvs : Piece.kvs ∈ L) (h_lab : Piece.lab ∈ L)
    (h_scn : Piece.scn ∈ L) (h_col : Piece.col ∈ L) (h_ports : Piece.ports ∈ L) (h_hif : Piece.hif ∈ L)
    (h_chans : Piece.chans ∈ L) (h_sec : Piece.sec ∈ L) (h_secs : Piece.secs ∈ L) (h_secJobs : Piece.secJobs ∈ L)
    (h_lostFids : Piece.lostFids ∈ L) (h_mce : Piece.mce ∈ L) (h_evr : Piece.evr ∈ L) (h_out : Piece.out ∈ L)
    (h_freeCtr : Piece.freeCtr ∈ L) : ReachE L s (execBootBackoffExpiry x0 s) := by
  unfold execBootBackoffExpiry
  with_reducible repeat'
    (first | assumption | apply ReachE.next | intro _ | extract_lets | apply backoffEnd_reach | apply wh_reach |
      apply Reach.foldl | apply Reach.ite | split | apply h_regs | (exact Reach.rfl') | (dsimp +zetaDelta only))

theorem execPowerUp_reach {L x0 x1 x2 s} (h_pwr : Piece.pwr ∈ L) (h_regs : ∀ b, Piece.regs b ∈ L)
    (h_staged : Piece.staged ∈ L) (h_bus : Piece.bus ∈ L) (h_mem : Piece.mem ∈ L) (h_flash : Piece.flash ∈ L)
    (h_toks : Piece.toks ∈ L) (h_queues : Piece.queues ∈ L) (h_flights : Piece.flights ∈ L)
    (h_descriptors : Piece.descriptors ∈ L) (h_nextFid : Piece.nextFid ∈ L) (h_planners : Piece.planners ∈ L)
    (h_arrs : Piece.arrs ∈ L) (h_stks : Piece.stks ∈ L) (h_yard : Piece.yard ∈ L) (h_retrain : Piece.retrain ∈ L)
    (h_exts : Piece.exts ∈ L) (h_leases : Piece.leases ∈ L) (h_lends : Piece.lends ∈ L) (h_accs : Piece.accs ∈ L)
    (h_nextTag : Piece.nextTag ∈ L) (h_parts : Piece.parts ∈ L) (h_kvs : Piece.kvs ∈ L) (h_lab : Piece.lab ∈ L)
    (h_scn : Piece.scn ∈ L) (h_col : Piece.col ∈ L) (h_ports : Piece.ports ∈ L) (h_hif : Piece.hif ∈ L)
    (h_chans : Piece.chans ∈ L) (h_sec : Piece.sec ∈ L) (h_secs : Piece.secs ∈ L) (h_secJobs : Piece.secJobs ∈ L)
    (h_lostFids : Piece.lostFids ∈ L) (h_mce : Piece.mce ∈ L) (h_evr : Piece.evr ∈ L) (h_out : Piece.out ∈ L)
    (h_freeCtr : Piece.freeCtr ∈ L) : ReachE L s (execPowerUp x0 x1 x2 s) := by
  unfold execPowerUp
  with_reducible repeat'
    (first | assumption | apply ReachE.next | intro _ | extract_lets | apply powerOn_reach | apply Reach.foldl |
      apply Reach.ite | split | apply h_regs | (exact Reach.rfl') | (dsimp +zetaDelta only))

theorem execBulkWr_reach {L x0 s} (h_pwr : Piece.pwr ∈ L) (h_regs : ∀ b, Piece.regs b ∈ L) (h_staged : Piece.staged ∈ L)
    (h_bus : Piece.bus ∈ L) (h_mem : Piece.mem ∈ L) (h_flash : Piece.flash ∈ L) (h_toks : Piece.toks ∈ L)
    (h_queues : Piece.queues ∈ L) (h_flights : Piece.flights ∈ L) (h_descriptors : Piece.descriptors ∈ L)
    (h_nextFid : Piece.nextFid ∈ L) (h_planners : Piece.planners ∈ L) (h_arrs : Piece.arrs ∈ L) (h_stks : Piece.stks ∈ L)
    (h_yard : Piece.yard ∈ L) (h_retrain : Piece.retrain ∈ L) (h_exts : Piece.exts ∈ L) (h_leases : Piece.leases ∈ L)
    (h_lends : Piece.lends ∈ L) (h_accs : Piece.accs ∈ L) (h_nextTag : Piece.nextTag ∈ L) (h_parts : Piece.parts ∈ L)
    (h_kvs : Piece.kvs ∈ L) (h_lab : Piece.lab ∈ L) (h_scn : Piece.scn ∈ L) (h_col : Piece.col ∈ L) (h_ports : Piece.ports ∈ L)
    (h_hif : Piece.hif ∈ L) (h_chans : Piece.chans ∈ L) (h_sec : Piece.sec ∈ L) (h_secs : Piece.secs ∈ L)
    (h_secJobs : Piece.secJobs ∈ L) (h_lostFids : Piece.lostFids ∈ L) (h_mce : Piece.mce ∈ L) (h_evr : Piece.evr ∈ L)
    (h_out : Piece.out ∈ L) (h_freeCtr : Piece.freeCtr ∈ L) : ReachE L s (execBulkWr x0 s) := by
  unfold execBulkWr
  with_reducible repeat'
    (first | assumption | apply ReachE.next | intro _ | extract_lets | apply wh_reach | apply onPort_reach |
      apply datagramIn_reach | apply Reach.foldl | apply Reach.ite | split | apply h_regs | (exact Reach.rfl') |
      (dsimp +zetaDelta only))

theorem execStackLinkRetrainEnd_reach {L x0 x1 s} (h_pwr : Piece.pwr ∈ L) (h_regs : ∀ b, Piece.regs b ∈ L)
    (h_staged : Piece.staged ∈ L) (h_bus : Piece.bus ∈ L) (h_mem : Piece.mem ∈ L) (h_flash : Piece.flash ∈ L)
    (h_toks : Piece.toks ∈ L) (h_queues : Piece.queues ∈ L) (h_flights : Piece.flights ∈ L)
    (h_descriptors : Piece.descriptors ∈ L) (h_nextFid : Piece.nextFid ∈ L) (h_planners : Piece.planners ∈ L)
    (h_arrs : Piece.arrs ∈ L) (h_stks : Piece.stks ∈ L) (h_yard : Piece.yard ∈ L) (h_retrain : Piece.retrain ∈ L)
    (h_exts : Piece.exts ∈ L) (h_leases : Piece.leases ∈ L) (h_lends : Piece.lends ∈ L) (h_accs : Piece.accs ∈ L)
    (h_nextTag : Piece.nextTag ∈ L) (h_parts : Piece.parts ∈ L) (h_kvs : Piece.kvs ∈ L) (h_lab : Piece.lab ∈ L)
    (h_scn : Piece.scn ∈ L) (h_col : Piece.col ∈ L) (h_ports : Piece.ports ∈ L) (h_hif : Piece.hif ∈ L)
    (h_chans : Piece.chans ∈ L) (h_sec : Piece.sec ∈ L) (h_secs : Piece.secs ∈ L) (h_secJobs : Piece.secJobs ∈ L)
    (h_lostFids : Piece.lostFids ∈ L) (h_mce : Piece.mce ∈ L) (h_evr : Piece.evr ∈ L) (h_out : Piece.out ∈ L)
    (h_freeCtr : Piece.freeCtr ∈ L) : ReachE L s (execStackLinkRetrainEnd x0 x1 s) := by
  unfold execStackLinkRetrainEnd
  with_reducible repeat'
    (first | assumption | apply ReachE.next | intro _ | extract_lets | apply linkRetrainEnd_reach | apply kick_reach |
      apply wh_reach | apply Reach.foldl | apply Reach.ite | split | apply h_regs | (exact Reach.rfl') |
      (dsimp +zetaDelta only))

theorem execSubscribe_reach {L x0 s} (h_pwr : Piece.pwr ∈ L) (h_regs : ∀ b, Piece.regs b ∈ L) (h_staged : Piece.staged ∈ L)
    (h_bus : Piece.bus ∈ L) (h_mem : Piece.mem ∈ L) (h_flash : Piece.flash ∈ L) (h_toks : Piece.toks ∈ L)
    (h_queues : Piece.queues ∈ L) (h_flights : Piece.flights ∈ L) (h_descriptors : Piece.descriptors ∈ L)
    (h_nextFid : Piece.nextFid ∈ L) (h_planners : Piece.planners ∈ L) (h_arrs : Piece.arrs ∈ L) (h_stks : Piece.stks ∈ L)
    (h_yard : Piece.yard ∈ L) (h_retrain : Piece.retrain ∈ L) (h_exts : Piece.exts ∈ L) (h_leases : Piece.leases ∈ L)
    (h_lends : Piece.lends ∈ L) (h_accs : Piece.accs ∈ L) (h_nextTag : Piece.nextTag ∈ L) (h_parts : Piece.parts ∈ L)
    (h_kvs : Piece.kvs ∈ L) (h_lab : Piece.lab ∈ L) (h_scn : Piece.scn ∈ L) (h_col : Piece.col ∈ L) (h_ports : Piece.ports ∈ L)
    (h_hif : Piece.hif ∈ L) (h_chans : Piece.chans ∈ L) (h_sec : Piece.sec ∈ L) (h_secs : Piece.secs ∈ L)
    (h_secJobs : Piece.secJobs ∈ L) (h_lostFids : Piece.lostFids ∈ L) (h_mce : Piece.mce ∈ L) (h_evr : Piece.evr ∈ L)
    (h_out : Piece.out ∈ L) (h_freeCtr : Piece.freeCtr ∈ L) : ReachE L s (execSubscribe x0 s) := by
  unfold execSubscribe
  with_reducible repeat'
    (first | assumption | apply ReachE.next | intro _ | extract_lets | apply wh_reach | apply onPort_reach |
      apply datagramIn_reach | apply Reach.foldl | apply Reach.ite | split | apply h_regs | (exact Reach.rfl') |
      (dsimp +zetaDelta only))

theorem execFinish_reach {L x0 s} (h_pwr : Piece.pwr ∈ L) (h_regs : ∀ b, Piece.regs b ∈ L) (h_staged : Piece.staged ∈ L)
    (h_bus : Piece.bus ∈ L) (h_mem : Piece.mem ∈ L) (h_flash : Piece.flash ∈ L) (h_toks : Piece.toks ∈ L)
    (h_queues : Piece.queues ∈ L) (h_flights : Piece.flights ∈ L) (h_descriptors : Piece.descriptors ∈ L)
    (h_nextFid : Piece.nextFid ∈ L) (h_planners : Piece.planners ∈ L) (h_arrs : Piece.arrs ∈ L) (h_stks : Piece.stks ∈ L)
    (h_yard : Piece.yard ∈ L) (h_retrain : Piece.retrain ∈ L) (h_exts : Piece.exts ∈ L) (h_leases : Piece.leases ∈ L)
    (h_lends : Piece.lends ∈ L) (h_accs : Piece.accs ∈ L) (h_nextTag : Piece.nextTag ∈ L) (h_parts : Piece.parts ∈ L)
    (h_kvs : Piece.kvs ∈ L) (h_lab : Piece.lab ∈ L) (h_scn : Piece.scn ∈ L) (h_col : Piece.col ∈ L) (h_ports : Piece.ports ∈ L)
    (h_hif : Piece.hif ∈ L) (h_chans : Piece.chans ∈ L) (h_sec : Piece.sec ∈ L) (h_secs : Piece.secs ∈ L)
    (h_secJobs : Piece.secJobs ∈ L) (h_lostFids : Piece.lostFids ∈ L) (h_mce : Piece.mce ∈ L) (h_evr : Piece.evr ∈ L)
    (h_out : Piece.out ∈ L) (h_freeCtr : Piece.freeCtr ∈ L) : ReachE L s (execFinish x0 s) := by
  unfold execFinish
  with_reducible repeat'
    (first | assumption | apply ReachE.next | intro _ | extract_lets | apply wh_reach | apply onPort_reach |
      apply datagramIn_reach | apply Reach.foldl | apply Reach.ite | split | apply h_regs | (exact Reach.rfl') |
      (dsimp +zetaDelta only))

theorem execLwack_reach {L x0 s} (h_pwr : Piece.pwr ∈ L) (h_regs : ∀ b, Piece.regs b ∈ L) (h_staged : Piece.staged ∈ L)
    (h_bus : Piece.bus ∈ L) (h_mem : Piece.mem ∈ L) (h_flash : Piece.flash ∈ L) (h_toks : Piece.toks ∈ L)
    (h_queues : Piece.queues ∈ L) (h_flights : Piece.flights ∈ L) (h_descriptors : Piece.descriptors ∈ L)
    (h_nextFid : Piece.nextFid ∈ L) (h_planners : Piece.planners ∈ L) (h_arrs : Piece.arrs ∈ L) (h_stks : Piece.stks ∈ L)
    (h_yard : Piece.yard ∈ L) (h_retrain : Piece.retrain ∈ L) (h_exts : Piece.exts ∈ L) (h_leases : Piece.leases ∈ L)
    (h_lends : Piece.lends ∈ L) (h_accs : Piece.accs ∈ L) (h_nextTag : Piece.nextTag ∈ L) (h_parts : Piece.parts ∈ L)
    (h_kvs : Piece.kvs ∈ L) (h_lab : Piece.lab ∈ L) (h_scn : Piece.scn ∈ L) (h_col : Piece.col ∈ L) (h_ports : Piece.ports ∈ L)
    (h_hif : Piece.hif ∈ L) (h_chans : Piece.chans ∈ L) (h_sec : Piece.sec ∈ L) (h_secs : Piece.secs ∈ L)
    (h_secJobs : Piece.secJobs ∈ L) (h_lostFids : Piece.lostFids ∈ L) (h_mce : Piece.mce ∈ L) (h_evr : Piece.evr ∈ L)
    (h_out : Piece.out ∈ L) (h_freeCtr : Piece.freeCtr ∈ L) : ReachE L s (execLwack x0 s) := by
  unfold execLwack
  with_reducible repeat'
    (first | assumption | apply ReachE.next | intro _ | extract_lets | apply colDones_reach | apply kick_reach |
      apply wh_reach | apply lwackIn_reach | apply Reach.foldl | apply Reach.ite | split | apply h_regs | (exact Reach.rfl') |
      (dsimp +zetaDelta only))

theorem execStackEngineFault_reach {L x0 x1 s} (h_pwr : Piece.pwr ∈ L) (h_regs : ∀ b, Piece.regs b ∈ L)
    (h_staged : Piece.staged ∈ L) (h_bus : Piece.bus ∈ L) (h_mem : Piece.mem ∈ L) (h_flash : Piece.flash ∈ L)
    (h_toks : Piece.toks ∈ L) (h_queues : Piece.queues ∈ L) (h_flights : Piece.flights ∈ L)
    (h_descriptors : Piece.descriptors ∈ L) (h_nextFid : Piece.nextFid ∈ L) (h_planners : Piece.planners ∈ L)
    (h_arrs : Piece.arrs ∈ L) (h_stks : Piece.stks ∈ L) (h_yard : Piece.yard ∈ L) (h_retrain : Piece.retrain ∈ L)
    (h_exts : Piece.exts ∈ L) (h_leases : Piece.leases ∈ L) (h_lends : Piece.lends ∈ L) (h_accs : Piece.accs ∈ L)
    (h_nextTag : Piece.nextTag ∈ L) (h_parts : Piece.parts ∈ L) (h_kvs : Piece.kvs ∈ L) (h_lab : Piece.lab ∈ L)
    (h_scn : Piece.scn ∈ L) (h_col : Piece.col ∈ L) (h_ports : Piece.ports ∈ L) (h_hif : Piece.hif ∈ L)
    (h_chans : Piece.chans ∈ L) (h_sec : Piece.sec ∈ L) (h_secs : Piece.secs ∈ L) (h_secJobs : Piece.secJobs ∈ L)
    (h_lostFids : Piece.lostFids ∈ L) (h_mce : Piece.mce ∈ L) (h_evr : Piece.evr ∈ L) (h_out : Piece.out ∈ L)
    (h_freeCtr : Piece.freeCtr ∈ L) : ReachE L s (execStackEngineFault x0 x1 s) := by
  unfold execStackEngineFault
  with_reducible repeat'
    (first | assumption | apply ReachE.next | intro _ | extract_lets | apply kick_reach | apply engineFault_reach |
      apply wh_reach | apply Reach.foldl | apply Reach.ite | split | apply h_regs | (exact Reach.rfl') |
      (dsimp +zetaDelta only))

theorem execClose_reach {L x0 s} (h_pwr : Piece.pwr ∈ L) (h_regs : ∀ b, Piece.regs b ∈ L) (h_staged : Piece.staged ∈ L)
    (h_bus : Piece.bus ∈ L) (h_mem : Piece.mem ∈ L) (h_flash : Piece.flash ∈ L) (h_toks : Piece.toks ∈ L)
    (h_queues : Piece.queues ∈ L) (h_flights : Piece.flights ∈ L) (h_descriptors : Piece.descriptors ∈ L)
    (h_nextFid : Piece.nextFid ∈ L) (h_planners : Piece.planners ∈ L) (h_arrs : Piece.arrs ∈ L) (h_stks : Piece.stks ∈ L)
    (h_yard : Piece.yard ∈ L) (h_retrain : Piece.retrain ∈ L) (h_exts : Piece.exts ∈ L) (h_leases : Piece.leases ∈ L)
    (h_lends : Piece.lends ∈ L) (h_accs : Piece.accs ∈ L) (h_nextTag : Piece.nextTag ∈ L) (h_parts : Piece.parts ∈ L)
    (h_kvs : Piece.kvs ∈ L) (h_lab : Piece.lab ∈ L) (h_scn : Piece.scn ∈ L) (h_col : Piece.col ∈ L) (h_ports : Piece.ports ∈ L)
    (h_hif : Piece.hif ∈ L) (h_chans : Piece.chans ∈ L) (h_sec : Piece.sec ∈ L) (h_secs : Piece.secs ∈ L)
    (h_secJobs : Piece.secJobs ∈ L) (h_lostFids : Piece.lostFids ∈ L) (h_mce : Piece.mce ∈ L) (h_evr : Piece.evr ∈ L)
    (h_out : Piece.out ∈ L) (h_freeCtr : Piece.freeCtr ∈ L) : ReachE L s (execClose x0 s) := by
  unfold execClose
  with_reducible repeat'
    (first | assumption | apply ReachE.next | intro _ | extract_lets | apply wh_reach | apply onPort_reach |
      apply datagramIn_reach | apply Reach.foldl | apply Reach.ite | split | apply h_regs | (exact Reach.rfl') |
      (dsimp +zetaDelta only))

theorem execHello_reach {L x0 s} (h_pwr : Piece.pwr ∈ L) (h_regs : ∀ b, Piece.regs b ∈ L) (h_staged : Piece.staged ∈ L)
    (h_bus : Piece.bus ∈ L) (h_mem : Piece.mem ∈ L) (h_flash : Piece.flash ∈ L) (h_toks : Piece.toks ∈ L)
    (h_queues : Piece.queues ∈ L) (h_flights : Piece.flights ∈ L) (h_descriptors : Piece.descriptors ∈ L)
    (h_nextFid : Piece.nextFid ∈ L) (h_planners : Piece.planners ∈ L) (h_arrs : Piece.arrs ∈ L) (h_stks : Piece.stks ∈ L)
    (h_yard : Piece.yard ∈ L) (h_retrain : Piece.retrain ∈ L) (h_exts : Piece.exts ∈ L) (h_leases : Piece.leases ∈ L)
    (h_lends : Piece.lends ∈ L) (h_accs : Piece.accs ∈ L) (h_nextTag : Piece.nextTag ∈ L) (h_parts : Piece.parts ∈ L)
    (h_kvs : Piece.kvs ∈ L) (h_lab : Piece.lab ∈ L) (h_scn : Piece.scn ∈ L) (h_col : Piece.col ∈ L) (h_ports : Piece.ports ∈ L)
    (h_hif : Piece.hif ∈ L) (h_chans : Piece.chans ∈ L) (h_sec : Piece.sec ∈ L) (h_secs : Piece.secs ∈ L)
    (h_secJobs : Piece.secJobs ∈ L) (h_lostFids : Piece.lostFids ∈ L) (h_mce : Piece.mce ∈ L) (h_evr : Piece.evr ∈ L)
    (h_out : Piece.out ∈ L) (h_freeCtr : Piece.freeCtr ∈ L) : ReachE L s (execHello x0 s) := by
  unfold execHello
  with_reducible repeat'
    (first | assumption | apply ReachE.next | intro _ | extract_lets | apply wh_reach | apply onPort_reach |
      apply datagramIn_reach | apply Reach.foldl | apply Reach.ite | split | apply h_regs | (exact Reach.rfl') |
      (dsimp +zetaDelta only))

theorem execAckonly_reach {L x0 s} (h_pwr : Piece.pwr ∈ L) (h_regs : ∀ b, Piece.regs b ∈ L) (h_staged : Piece.staged ∈ L)
    (h_bus : Piece.bus ∈ L) (h_mem : Piece.mem ∈ L) (h_flash : Piece.flash ∈ L) (h_toks : Piece.toks ∈ L)
    (h_queues : Piece.queues ∈ L) (h_flights : Piece.flights ∈ L) (h_descriptors : Piece.descriptors ∈ L)
    (h_nextFid : Piece.nextFid ∈ L) (h_planners : Piece.planners ∈ L) (h_arrs : Piece.arrs ∈ L) (h_stks : Piece.stks ∈ L)
    (h_yard : Piece.yard ∈ L) (h_retrain : Piece.retrain ∈ L) (h_exts : Piece.exts ∈ L) (h_leases : Piece.leases ∈ L)
    (h_lends : Piece.lends ∈ L) (h_accs : Piece.accs ∈ L) (h_nextTag : Piece.nextTag ∈ L) (h_parts : Piece.parts ∈ L)
    (h_kvs : Piece.kvs ∈ L) (h_lab : Piece.lab ∈ L) (h_scn : Piece.scn ∈ L) (h_col : Piece.col ∈ L) (h_ports : Piece.ports ∈ L)
    (h_hif : Piece.hif ∈ L) (h_chans : Piece.chans ∈ L) (h_sec : Piece.sec ∈ L) (h_secs : Piece.secs ∈ L)
    (h_secJobs : Piece.secJobs ∈ L) (h_lostFids : Piece.lostFids ∈ L) (h_mce : Piece.mce ∈ L) (h_evr : Piece.evr ∈ L)
    (h_out : Piece.out ∈ L) (h_freeCtr : Piece.freeCtr ∈ L) : ReachE L s (execAckonly x0 s) := by
  unfold execAckonly
  with_reducible repeat'
    (first | assumption | apply ReachE.next | intro _ | extract_lets | apply wh_reach | apply onPort_reach |
      apply datagramIn_reach | apply Reach.foldl | apply Reach.ite | split | apply h_regs | (exact Reach.rfl') |
      (dsimp +zetaDelta only))

theorem execSharedUnitError_reach {L x0 x1 x2 x3 x4 x5 s} (h_pwr : Piece.pwr ∈ L) (h_regs : ∀ b, Piece.regs b ∈ L)
    (h_staged : Piece.staged ∈ L) (h_bus : Piece.bus ∈ L) (h_mem : Piece.mem ∈ L) (h_flash : Piece.flash ∈ L)
    (h_toks : Piece.toks ∈ L) (h_queues : Piece.queues ∈ L) (h_flights : Piece.flights ∈ L)
    (h_descriptors : Piece.descriptors ∈ L) (h_nextFid : Piece.nextFid ∈ L) (h_planners : Piece.planners ∈ L)
    (h_arrs : Piece.arrs ∈ L) (h_stks : Piece.stks ∈ L) (h_yard : Piece.yard ∈ L) (h_retrain : Piece.retrain ∈ L)
    (h_exts : Piece.exts ∈ L) (h_leases : Piece.leases ∈ L) (h_lends : Piece.lends ∈ L) (h_accs : Piece.accs ∈ L)
    (h_nextTag : Piece.nextTag ∈ L) (h_parts : Piece.parts ∈ L) (h_kvs : Piece.kvs ∈ L) (h_lab : Piece.lab ∈ L)
    (h_scn : Piece.scn ∈ L) (h_col : Piece.col ∈ L) (h_ports : Piece.ports ∈ L) (h_hif : Piece.hif ∈ L)
    (h_chans : Piece.chans ∈ L) (h_sec : Piece.sec ∈ L) (h_secs : Piece.secs ∈ L) (h_secJobs : Piece.secJobs ∈ L)
    (h_lostFids : Piece.lostFids ∈ L) (h_mce : Piece.mce ∈ L) (h_evr : Piece.evr ∈ L) (h_out : Piece.out ∈ L)
    (h_freeCtr : Piece.freeCtr ∈ L) : ReachE L s (execSharedUnitError x0 x1 x2 x3 x4 x5 s) := by
  unfold execSharedUnitError
  with_reducible repeat'
    (first | assumption | apply ReachE.next | intro _ | extract_lets | apply kick_reach | apply sharedError_reach |
      apply wh_reach | apply Reach.foldl | apply Reach.ite | split | apply h_regs | (exact Reach.rfl') |
      (dsimp +zetaDelta only))

theorem execReg_reach {L x0 s} (h_pwr : Piece.pwr ∈ L) (h_regs : ∀ b, Piece.regs b ∈ L) (h_staged : Piece.staged ∈ L)
    (h_bus : Piece.bus ∈ L) (h_mem : Piece.mem ∈ L) (h_flash : Piece.flash ∈ L) (h_toks : Piece.toks ∈ L)
    (h_queues : Piece.queues ∈ L) (h_flights : Piece.flights ∈ L) (h_descriptors : Piece.descriptors ∈ L)
    (h_nextFid : Piece.nextFid ∈ L) (h_planners : Piece.planners ∈ L) (h_arrs : Piece.arrs ∈ L) (h_stks : Piece.stks ∈ L)
    (h_yard : Piece.yard ∈ L) (h_retrain : Piece.retrain ∈ L) (h_exts : Piece.exts ∈ L) (h_leases : Piece.leases ∈ L)
    (h_lends : Piece.lends ∈ L) (h_accs : Piece.accs ∈ L) (h_nextTag : Piece.nextTag ∈ L) (h_parts : Piece.parts ∈ L)
    (h_kvs : Piece.kvs ∈ L) (h_lab : Piece.lab ∈ L) (h_scn : Piece.scn ∈ L) (h_col : Piece.col ∈ L) (h_ports : Piece.ports ∈ L)
    (h_hif : Piece.hif ∈ L) (h_chans : Piece.chans ∈ L) (h_sec : Piece.sec ∈ L) (h_secs : Piece.secs ∈ L)
    (h_secJobs : Piece.secJobs ∈ L) (h_lostFids : Piece.lostFids ∈ L) (h_mce : Piece.mce ∈ L) (h_evr : Piece.evr ∈ L)
    (h_out : Piece.out ∈ L) (h_freeCtr : Piece.freeCtr ∈ L) : ReachE L s (execReg x0 s) := by
  unfold execReg
  with_reducible repeat'
    (first | assumption | apply ReachE.next | intro _ | extract_lets | apply wh_reach | apply onPort_reach |
      apply datagramIn_reach | apply Reach.foldl | apply Reach.ite | split | apply h_regs | (exact Reach.rfl') |
      (dsimp +zetaDelta only))

theorem execMemoryRetrainEnd_reach {L x0 x1 x2 x3 x4 x5 s} (h_pwr : Piece.pwr ∈ L) (h_regs : ∀ b, Piece.regs b ∈ L)
    (h_staged : Piece.staged ∈ L) (h_bus : Piece.bus ∈ L) (h_mem : Piece.mem ∈ L) (h_flash : Piece.flash ∈ L)
    (h_toks : Piece.toks ∈ L) (h_queues : Piece.queues ∈ L) (h_flights : Piece.flights ∈ L)
    (h_descriptors : Piece.descriptors ∈ L) (h_nextFid : Piece.nextFid ∈ L) (h_planners : Piece.planners ∈ L)
    (h_arrs : Piece.arrs ∈ L) (h_stks : Piece.stks ∈ L) (h_yard : Piece.yard ∈ L) (h_retrain : Piece.retrain ∈ L)
    (h_exts : Piece.exts ∈ L) (h_leases : Piece.leases ∈ L) (h_lends : Piece.lends ∈ L) (h_accs : Piece.accs ∈ L)
    (h_nextTag : Piece.nextTag ∈ L) (h_parts : Piece.parts ∈ L) (h_kvs : Piece.kvs ∈ L) (h_lab : Piece.lab ∈ L)
    (h_scn : Piece.scn ∈ L) (h_col : Piece.col ∈ L) (h_ports : Piece.ports ∈ L) (h_hif : Piece.hif ∈ L)
    (h_chans : Piece.chans ∈ L) (h_sec : Piece.sec ∈ L) (h_secs : Piece.secs ∈ L) (h_secJobs : Piece.secJobs ∈ L)
    (h_lostFids : Piece.lostFids ∈ L) (h_mce : Piece.mce ∈ L) (h_evr : Piece.evr ∈ L) (h_out : Piece.out ∈ L)
    (h_freeCtr : Piece.freeCtr ∈ L) : ReachE L s (execMemoryRetrainEnd x0 x1 x2 x3 x4 x5 s) := by
  unfold execMemoryRetrainEnd
  with_reducible repeat'
    (first | assumption | apply ReachE.next | intro _ | extract_lets | apply retrainEnd_reach | apply freed_reach |
      apply wh_reach | apply Reach.foldl | apply Reach.ite | split | apply h_regs | (exact Reach.rfl') |
      (dsimp +zetaDelta only))

theorem execBulkRd_reach {L x0 s} (h_pwr : Piece.pwr ∈ L) (h_regs : ∀ b, Piece.regs b ∈ L) (h_staged : Piece.staged ∈ L)
    (h_bus : Piece.bus ∈ L) (h_mem : Piece.mem ∈ L) (h_flash : Piece.flash ∈ L) (h_toks : Piece.toks ∈ L)
    (h_queues : Piece.queues ∈ L) (h_flights : Piece.flights ∈ L) (h_descriptors : Piece.descriptors ∈ L)
    (h_nextFid : Piece.nextFid ∈ L) (h_planners : Piece.planners ∈ L) (h_arrs : Piece.arrs ∈ L) (h_stks : Piece.stks ∈ L)
    (h_yard : Piece.yard ∈ L) (h_retrain : Piece.retrain ∈ L) (h_exts : Piece.exts ∈ L) (h_leases : Piece.leases ∈ L)
    (h_lends : Piece.lends ∈ L) (h_accs : Piece.accs ∈ L) (h_nextTag : Piece.nextTag ∈ L) (h_parts : Piece.parts ∈ L)
    (h_kvs : Piece.kvs ∈ L) (h_lab : Piece.lab ∈ L) (h_scn : Piece.scn ∈ L) (h_col : Piece.col ∈ L) (h_ports : Piece.ports ∈ L)
    (h_hif : Piece.hif ∈ L) (h_chans : Piece.chans ∈ L) (h_sec : Piece.sec ∈ L) (h_secs : Piece.secs ∈ L)
    (h_secJobs : Piece.secJobs ∈ L) (h_lostFids : Piece.lostFids ∈ L) (h_mce : Piece.mce ∈ L) (h_evr : Piece.evr ∈ L)
    (h_out : Piece.out ∈ L) (h_freeCtr : Piece.freeCtr ∈ L) : ReachE L s (execBulkRd x0 s) := by
  unfold execBulkRd
  with_reducible repeat'
    (first | assumption | apply ReachE.next | intro _ | extract_lets | apply wh_reach | apply onPort_reach |
      apply datagramIn_reach | apply Reach.foldl | apply Reach.ite | split | apply h_regs | (exact Reach.rfl') |
      (dsimp +zetaDelta only))

theorem execSubmit_reach {L x0 s} (h_pwr : Piece.pwr ∈ L) (h_regs : ∀ b, Piece.regs b ∈ L) (h_staged : Piece.staged ∈ L)
    (h_bus : Piece.bus ∈ L) (h_mem : Piece.mem ∈ L) (h_flash : Piece.flash ∈ L) (h_toks : Piece.toks ∈ L)
    (h_queues : Piece.queues ∈ L) (h_flights : Piece.flights ∈ L) (h_descriptors : Piece.descriptors ∈ L)
    (h_nextFid : Piece.nextFid ∈ L) (h_planners : Piece.planners ∈ L) (h_arrs : Piece.arrs ∈ L) (h_stks : Piece.stks ∈ L)
    (h_yard : Piece.yard ∈ L) (h_retrain : Piece.retrain ∈ L) (h_exts : Piece.exts ∈ L) (h_leases : Piece.leases ∈ L)
    (h_lends : Piece.lends ∈ L) (h_accs : Piece.accs ∈ L) (h_nextTag : Piece.nextTag ∈ L) (h_parts : Piece.parts ∈ L)
    (h_kvs : Piece.kvs ∈ L) (h_lab : Piece.lab ∈ L) (h_scn : Piece.scn ∈ L) (h_col : Piece.col ∈ L) (h_ports : Piece.ports ∈ L)
    (h_hif : Piece.hif ∈ L) (h_chans : Piece.chans ∈ L) (h_sec : Piece.sec ∈ L) (h_secs : Piece.secs ∈ L)
    (h_secJobs : Piece.secJobs ∈ L) (h_lostFids : Piece.lostFids ∈ L) (h_mce : Piece.mce ∈ L) (h_evr : Piece.evr ∈ L)
    (h_out : Piece.out ∈ L) (h_freeCtr : Piece.freeCtr ∈ L) : ReachE L s (execSubmit x0 s) := by
  unfold execSubmit
  with_reducible repeat'
    (first | assumption | apply ReachE.next | intro _ | extract_lets | apply wh_reach | apply onPort_reach |
      apply datagramIn_reach | apply Reach.foldl | apply Reach.ite | split | apply h_regs | (exact Reach.rfl') |
      (dsimp +zetaDelta only))

theorem execLrdata_reach {L x0 s} (h_pwr : Piece.pwr ∈ L) (h_regs : ∀ b, Piece.regs b ∈ L) (h_staged : Piece.staged ∈ L)
    (h_bus : Piece.bus ∈ L) (h_mem : Piece.mem ∈ L) (h_flash : Piece.flash ∈ L) (h_toks : Piece.toks ∈ L)
    (h_queues : Piece.queues ∈ L) (h_flights : Piece.flights ∈ L) (h_descriptors : Piece.descriptors ∈ L)
    (h_nextFid : Piece.nextFid ∈ L) (h_planners : Piece.planners ∈ L) (h_arrs : Piece.arrs ∈ L) (h_stks : Piece.stks ∈ L)
    (h_yard : Piece.yard ∈ L) (h_retrain : Piece.retrain ∈ L) (h_exts : Piece.exts ∈ L) (h_leases : Piece.leases ∈ L)
    (h_lends : Piece.lends ∈ L) (h_accs : Piece.accs ∈ L) (h_nextTag : Piece.nextTag ∈ L) (h_parts : Piece.parts ∈ L)
    (h_kvs : Piece.kvs ∈ L) (h_lab : Piece.lab ∈ L) (h_scn : Piece.scn ∈ L) (h_col : Piece.col ∈ L) (h_ports : Piece.ports ∈ L)
    (h_hif : Piece.hif ∈ L) (h_chans : Piece.chans ∈ L) (h_sec : Piece.sec ∈ L) (h_secs : Piece.secs ∈ L)
    (h_secJobs : Piece.secJobs ∈ L) (h_lostFids : Piece.lostFids ∈ L) (h_mce : Piece.mce ∈ L) (h_evr : Piece.evr ∈ L)
    (h_out : Piece.out ∈ L) (h_freeCtr : Piece.freeCtr ∈ L) : ReachE L s (execLrdata x0 s) := by
  unfold execLrdata
  with_reducible repeat'
    (first | assumption | apply ReachE.next | intro _ | extract_lets | apply lrdataIn_reach | apply kick_reach |
      apply wh_reach | apply Reach.foldl | apply Reach.ite | split | apply h_regs | (exact Reach.rfl') |
      (dsimp +zetaDelta only))

theorem execLeaseLostTimeout_reach {L x0 s} (h_pwr : Piece.pwr ∈ L) (h_regs : ∀ b, Piece.regs b ∈ L)
    (h_staged : Piece.staged ∈ L) (h_bus : Piece.bus ∈ L) (h_mem : Piece.mem ∈ L) (h_flash : Piece.flash ∈ L)
    (h_toks : Piece.toks ∈ L) (h_queues : Piece.queues ∈ L) (h_flights : Piece.flights ∈ L)
    (h_descriptors : Piece.descriptors ∈ L) (h_nextFid : Piece.nextFid ∈ L) (h_planners : Piece.planners ∈ L)
    (h_arrs : Piece.arrs ∈ L) (h_stks : Piece.stks ∈ L) (h_yard : Piece.yard ∈ L) (h_retrain : Piece.retrain ∈ L)
    (h_exts : Piece.exts ∈ L) (h_leases : Piece.leases ∈ L) (h_lends : Piece.lends ∈ L) (h_accs : Piece.accs ∈ L)
    (h_nextTag : Piece.nextTag ∈ L) (h_parts : Piece.parts ∈ L) (h_kvs : Piece.kvs ∈ L) (h_lab : Piece.lab ∈ L)
    (h_scn : Piece.scn ∈ L) (h_col : Piece.col ∈ L) (h_ports : Piece.ports ∈ L) (h_hif : Piece.hif ∈ L)
    (h_chans : Piece.chans ∈ L) (h_sec : Piece.sec ∈ L) (h_secs : Piece.secs ∈ L) (h_secJobs : Piece.secJobs ∈ L)
    (h_lostFids : Piece.lostFids ∈ L) (h_mce : Piece.mce ∈ L) (h_evr : Piece.evr ∈ L) (h_out : Piece.out ∈ L)
    (h_freeCtr : Piece.freeCtr ∈ L) : ReachE L s (execLeaseLostTimeout x0 s) := by
  unfold execLeaseLostTimeout
  with_reducible repeat'
    (first | assumption | apply ReachE.next | intro _ | extract_lets | apply leaseLost_reach | apply withLease_reach |
      apply kick_reach | apply wh_reach | apply Reach.foldl | apply Reach.ite | split | apply h_regs | (exact Reach.rfl') |
      (dsimp +zetaDelta only))

theorem execLunknown_reach {L x0 s} (h_pwr : Piece.pwr ∈ L) (h_regs : ∀ b, Piece.regs b ∈ L) (h_staged : Piece.staged ∈ L)
    (h_bus : Piece.bus ∈ L) (h_mem : Piece.mem ∈ L) (h_flash : Piece.flash ∈ L) (h_toks : Piece.toks ∈ L)
    (h_queues : Piece.queues ∈ L) (h_flights : Piece.flights ∈ L) (h_descriptors : Piece.descriptors ∈ L)
    (h_nextFid : Piece.nextFid ∈ L) (h_planners : Piece.planners ∈ L) (h_arrs : Piece.arrs ∈ L) (h_stks : Piece.stks ∈ L)
    (h_yard : Piece.yard ∈ L) (h_retrain : Piece.retrain ∈ L) (h_exts : Piece.exts ∈ L) (h_leases : Piece.leases ∈ L)
    (h_lends : Piece.lends ∈ L) (h_accs : Piece.accs ∈ L) (h_nextTag : Piece.nextTag ∈ L) (h_parts : Piece.parts ∈ L)
    (h_kvs : Piece.kvs ∈ L) (h_lab : Piece.lab ∈ L) (h_scn : Piece.scn ∈ L) (h_col : Piece.col ∈ L) (h_ports : Piece.ports ∈ L)
    (h_hif : Piece.hif ∈ L) (h_chans : Piece.chans ∈ L) (h_sec : Piece.sec ∈ L) (h_secs : Piece.secs ∈ L)
    (h_secJobs : Piece.secJobs ∈ L) (h_lostFids : Piece.lostFids ∈ L) (h_mce : Piece.mce ∈ L) (h_evr : Piece.evr ∈ L)
    (h_out : Piece.out ∈ L) (h_freeCtr : Piece.freeCtr ∈ L) : ReachE L s (execLunknown x0 s) := by
  unfold execLunknown
  with_reducible repeat'
    (first | assumption | apply ReachE.next | intro _ | extract_lets | apply lunknownIn_reach | apply kick_reach |
      apply wh_reach | apply Reach.foldl | apply Reach.ite | split | apply h_regs | (exact Reach.rfl') |
      (dsimp +zetaDelta only))

theorem execMoveFill_reach {L x0 s} (h_pwr : Piece.pwr ∈ L) (h_regs : ∀ b, Piece.regs b ∈ L) (h_staged : Piece.staged ∈ L)
    (h_bus : Piece.bus ∈ L) (h_mem : Piece.mem ∈ L) (h_flash : Piece.flash ∈ L) (h_toks : Piece.toks ∈ L)
    (h_queues : Piece.queues ∈ L) (h_flights : Piece.flights ∈ L) (h_descriptors : Piece.descriptors ∈ L)
    (h_nextFid : Piece.nextFid ∈ L) (h_planners : Piece.planners ∈ L) (h_arrs : Piece.arrs ∈ L) (h_stks : Piece.stks ∈ L)
    (h_yard : Piece.yard ∈ L) (h_retrain : Piece.retrain ∈ L) (h_exts : Piece.exts ∈ L) (h_leases : Piece.leases ∈ L)
    (h_lends : Piece.lends ∈ L) (h_accs : Piece.accs ∈ L) (h_nextTag : Piece.nextTag ∈ L) (h_parts : Piece.parts ∈ L)
    (h_kvs : Piece.kvs ∈ L) (h_lab : Piece.lab ∈ L) (h_scn : Piece.scn ∈ L) (h_col : Piece.col ∈ L) (h_ports : Piece.ports ∈ L)
    (h_hif : Piece.hif ∈ L) (h_chans : Piece.chans ∈ L) (h_sec : Piece.sec ∈ L) (h_secs : Piece.secs ∈ L)
    (h_secJobs : Piece.secJobs ∈ L) (h_lostFids : Piece.lostFids ∈ L) (h_mce : Piece.mce ∈ L) (h_evr : Piece.evr ∈ L)
    (h_out : Piece.out ∈ L) (h_freeCtr : Piece.freeCtr ∈ L) : ReachE L s (execMoveFill x0 s) := by
  unfold execMoveFill
  with_reducible repeat'
    (first | assumption | apply ReachE.next | intro _ | extract_lets | apply wh_reach | apply onPort_reach |
      apply datagramIn_reach | apply Reach.foldl | apply Reach.ite | split | apply h_regs | (exact Reach.rfl') |
      (dsimp +zetaDelta only))

theorem execWayZeroiseDone_reach {L x0 s} (h_pwr : Piece.pwr ∈ L) (h_regs : ∀ b, Piece.regs b ∈ L)
    (h_staged : Piece.staged ∈ L) (h_bus : Piece.bus ∈ L) (h_mem : Piece.mem ∈ L) (h_flash : Piece.flash ∈ L)
    (h_toks : Piece.toks ∈ L) (h_queues : Piece.queues ∈ L) (h_flights : Piece.flights ∈ L)
    (h_descriptors : Piece.descriptors ∈ L) (h_nextFid : Piece.nextFid ∈ L) (h_planners : Piece.planners ∈ L)
    (h_arrs : Piece.arrs ∈ L) (h_stks : Piece.stks ∈ L) (h_yard : Piece.yard ∈ L) (h_retrain : Piece.retrain ∈ L)
    (h_exts : Piece.exts ∈ L) (h_leases : Piece.leases ∈ L) (h_lends : Piece.lends ∈ L) (h_accs : Piece.accs ∈ L)
    (h_nextTag : Piece.nextTag ∈ L) (h_parts : Piece.parts ∈ L) (h_kvs : Piece.kvs ∈ L) (h_lab : Piece.lab ∈ L)
    (h_scn : Piece.scn ∈ L) (h_col : Piece.col ∈ L) (h_ports : Piece.ports ∈ L) (h_hif : Piece.hif ∈ L)
    (h_chans : Piece.chans ∈ L) (h_sec : Piece.sec ∈ L) (h_secs : Piece.secs ∈ L) (h_secJobs : Piece.secJobs ∈ L)
    (h_lostFids : Piece.lostFids ∈ L) (h_mce : Piece.mce ∈ L) (h_evr : Piece.evr ∈ L) (h_out : Piece.out ∈ L)
    (h_freeCtr : Piece.freeCtr ∈ L) : ReachE L s (execWayZeroiseDone x0 s) := by
  unfold execWayZeroiseDone
  with_reducible repeat'
    (first | assumption | apply ReachE.next | intro _ | extract_lets | apply wayDone_reach | apply wh_reach |
      apply Reach.foldl | apply Reach.ite | split | apply h_regs | (exact Reach.rfl') | (dsimp +zetaDelta only))

theorem execYardScratchError_reach {L x0 x1 s} (h_pwr : Piece.pwr ∈ L) (h_regs : ∀ b, Piece.regs b ∈ L)
    (h_staged : Piece.staged ∈ L) (h_bus : Piece.bus ∈ L) (h_mem : Piece.mem ∈ L) (h_flash : Piece.flash ∈ L)
    (h_toks : Piece.toks ∈ L) (h_queues : Piece.queues ∈ L) (h_flights : Piece.flights ∈ L)
    (h_descriptors : Piece.descriptors ∈ L) (h_nextFid : Piece.nextFid ∈ L) (h_planners : Piece.planners ∈ L)
    (h_arrs : Piece.arrs ∈ L) (h_stks : Piece.stks ∈ L) (h_yard : Piece.yard ∈ L) (h_retrain : Piece.retrain ∈ L)
    (h_exts : Piece.exts ∈ L) (h_leases : Piece.leases ∈ L) (h_lends : Piece.lends ∈ L) (h_accs : Piece.accs ∈ L)
    (h_nextTag : Piece.nextTag ∈ L) (h_parts : Piece.parts ∈ L) (h_kvs : Piece.kvs ∈ L) (h_lab : Piece.lab ∈ L)
    (h_scn : Piece.scn ∈ L) (h_col : Piece.col ∈ L) (h_ports : Piece.ports ∈ L) (h_hif : Piece.hif ∈ L)
    (h_chans : Piece.chans ∈ L) (h_sec : Piece.sec ∈ L) (h_secs : Piece.secs ∈ L) (h_secJobs : Piece.secJobs ∈ L)
    (h_lostFids : Piece.lostFids ∈ L) (h_mce : Piece.mce ∈ L) (h_evr : Piece.evr ∈ L) (h_out : Piece.out ∈ L)
    (h_freeCtr : Piece.freeCtr ∈ L) : ReachE L s (execYardScratchError x0 x1 s) := by
  unfold execYardScratchError
  with_reducible repeat'
    (first | assumption | apply ReachE.next | intro _ | extract_lets | apply scratchError_reach | apply kick_reach |
      apply wh_reach | apply Reach.foldl | apply Reach.ite | split | apply h_regs | (exact Reach.rfl') |
      (dsimp +zetaDelta only))

end Sys2Proof.Machine
end

