-- ==== Sys2Proof/Laws/Memory.lean ====
section
/-!
SUPPORT. Memory: a write that meets no code stores its bytes, and no write changes a byte outside its range.
-/
namespace Sys2Proof.Machine

theorem tabGet_putBytes (d : Nat → Byte) (bs : List Byte) : ∀ (t : Tab Byte) (a x : Nat),
    tabGet d (putBytes d t a bs) x = if a ≤ x ∧ x < a + bs.length then bs.getD (x - a) 0 else tabGet d t x := by
  induction bs with
  | nil =>
    intro t a x
    rw [if_neg (by simp only [List.length_nil]; omega)]
    rfl
  | cons b bs ih =>
    intro t a x
    unfold putBytes
    rw [ih]
    by_cases h : x = a
    · subst h
      rw [if_neg (by omega), if_pos (by simp only [List.length_cons]; omega), tabGet_tabSet_same, Nat.sub_self]
      rfl
    · rw [tabGet_tabSet_other _ _ _ _ _ h]
      by_cases h2 : a + 1 ≤ x ∧ x < a + 1 + bs.length
      · rw [if_pos h2, if_pos (by simp only [List.length_cons]; omega)]
        obtain ⟨k, hk⟩ : ∃ k, x - a = k + 1 := ⟨x - a - 1, by omega⟩
        rw [hk, List.getD_cons_succ, show x - (a + 1) = k by omega]
      · rw [if_neg h2, if_neg (by simp only [List.length_cons]; omega)]

theorem rd1_poke (a : Nat) (bs : List Byte) (s : State) (x : Nat) :
    rd1 (poke a bs s) x = if a ≤ x ∧ x < a + bs.length then bs.getD (x - a) 0 else rd1 s x :=
  tabGet_putBytes _ _ _ _ _

/-- What has been stored reads back, from any place of it on. -/
theorem rdBytes_poke_within {a : Nat} {bs : List Byte} {s : State} {i n : Nat} (h : i + n ≤ bs.length) :
    rdBytes (poke a bs s) (a + i) n = (bs.drop i).take n := by
  apply List.ext_getElem
  · simp [rdBytes]
    omega
  · intro k h1 h2
    have hk : k < n := by simpa [rdBytes] using h1
    have hb : i + k < bs.length := by omega
    simp [rdBytes, rd1_poke, Nat.add_assoc, hb]

/-- What has been stored reads back. -/
theorem rdBytes_poke (a : Nat) (bs : List Byte) (s : State) : rdBytes (poke a bs s) a bs.length = bs := by
  simpa using rdBytes_poke_within (a := a) (s := s) (i := 0) (Nat.le_of_eq (Nat.zero_add bs.length))

/-- What stands beside the bytes stored reads as before. -/
theorem rdBytes_poke_beside {a x n : Nat} {bs : List Byte} {s : State} (h : x + n ≤ a ∨ a + bs.length ≤ x) :
    rdBytes (poke a bs s) x n = rdBytes s x n := by
  refine List.map_congr_left fun i hi => ?_
  rw [rd1_poke, if_neg]
  have := List.mem_range.mp hi
  omega

/-- Where memory is the same, so is what it reads as. -/
theorem rd1_of_mem {s t : State} (h : t.mem = s.mem) (x : Nat) : rd1 t x = rd1 s x := by
  unfold rd1
  rw [h]

/-- An operation that does not reach memory leaves what it reads as. -/
theorem rd1_of_reach {L : List Piece} {s t : State} (h : Reach L s t) (hn : Piece.mem ∉ L) (x : Nat) : rd1 t x = rd1 s x :=
  rd1_of_mem (h.frame .mem hn) x

theorem noteBlock_mem (u c d : Nat) (s : State) : (noteBlock u c d s).mem = s.mem :=
  (noteBlock_reach (L := [.regs .mem, .regs .lpd, .regs .mce, .regs .sec, .regs .ras, .regs .evr, .evr, .freeCtr])
    (by decide) (by decide) (by decide) (by decide) (by decide) (by decide) (by decide) (by decide)
    Reach.rfl').frame .mem (by decide)

/-- A write that met no code stored its bytes; one that met a code stored none. -/
def Wrote (a : Nat) (bs : List Byte) (s : State) (r : State × Option Nat) : Prop :=
  ∀ x, (r.2 = none → rd1 r.1 x = rd1 (poke a bs s) x) ∧ (r.2 ≠ none → rd1 r.1 x = rd1 s x)

theorem wrote_of_mem {a : Nat} {bs : List Byte} {s y : State} {r : State × Option Nat} (h : y.mem = s.mem)
    (hw : Wrote a bs y r) : Wrote a bs s r := by
  intro x
  have := hw x
  rw [rd1_poke, rd1_of_mem h] at this
  rw [rd1_poke]
  exact this

theorem wrote_bytes {a : Nat} {bs : List Byte} {s t : State} (h : t.mem = (poke a bs s).mem) : Wrote a bs s (t, none) :=
  fun x => ⟨fun _ => rd1_of_mem h x, fun h => absurd rfl h⟩

theorem wrote_nothing {a c : Nat} {bs : List Byte} {s t : State} (h : t.mem = s.mem) : Wrote a bs s (t, some c) :=
  fun x => ⟨fun e => (nomatch e), fun _ => rd1_of_mem h x⟩

theorem blockWrite_wrote (u a : Nat) (bs : List Byte) (s : State) : Wrote a bs s (blockWrite u a bs s) := by
  unfold blockWrite
  split
  · exact wrote_nothing (noteBlock_mem _ _ _ _)
  · exact wrote_bytes ((freshen_reach (L := [.regs .mce, .mce]) (by decide) (by decide) Reach.rfl').frame .mem (by decide))

/-- The state before the bytes of a line are stored: the yard has seen the write. -/
theorem yard_mem (via : Via) (p l : Nat) (w : Bool) (s : State) :
    (if via = .yard then yardWriteLine p l w s else yardKillLine l s).mem = s.mem := by
  split
  · exact (yardWriteLine_reach (L := [.regs .yrd, .yard]) (by decide) (by decide) Reach.rfl').frame .mem (by decide)
  · exact (yardKillLine_reach (L := [.regs .yrd, .yard]) (by decide) (by decide) Reach.rfl').frame .mem (by decide)

theorem yard_leases (via : Via) (p l : Nat) (w : Bool) (s : State) :
    (if via = .yard then yardWriteLine p l w s else yardKillLine l s).leases = s.leases := by
  split
  · exact (yardWriteLine_reach (L := [.regs .yrd, .yard]) (by decide) (by decide) Reach.rfl').frame .leases (by decide)
  · exact (yardKillLine_reach (L := [.regs .yrd, .yard]) (by decide) (by decide) Reach.rfl').frame .leases (by decide)

theorem writeLine_wrote (via : Via) (p fid l a : Nat) (bs : List Byte) (s : State) :
    Wrote a bs s (writeLine via p fid l a bs s) := by
  unfold writeLine
  split
  · exact wrote_nothing rfl
  · rename_i hs
    have hm := yard_mem via p l (bs.length == 512) s
    have hl := yard_leases via p l (bs.length == 512) s
    generalize (if via = .yard then yardWriteLine p l (bs.length == 512) s else yardKillLine l s) = y at hm hl
    apply wrote_of_mem hm
    dsimp only
    split
    · exact blockWrite_wrote l a bs y
    · exact blockWrite_wrote l a bs y
    · exact wrote_bytes rfl
    · rename_i n hr
      have ha : leaseAt y n = leaseAt s n := by
        unfold leaseAt
        rw [hl]
      unfold strange at hs
      rw [hr] at hs
      dsimp only at hs
      rw [ha]
      split
      · rename_i le he
        split
        · exact wrote_nothing ((pageErr_reach (L := [.regs .mem, .regs .ras, .regs .evr, .evr, .freeCtr]) (by decide)
            (by decide) (show Piece.regs .mem ∈ _ by decide) (by decide) (by decide) Reach.rfl').frame .mem (by decide))
        · exact wrote_bytes ((leaseAccess_reach (L := [.accs, .nextTag, .ports]) (by decide) (by decide) (by decide)
            Reach.rfl').frame .mem (by decide))
      · rename_i he
        rw [he] at hs
        exact absurd rfl hs
    · rename_i hr
      unfold strange at hs
      rw [hr] at hs
      exact absurd rfl hs

/-- The lines of a range up to the `m`-th, written in order. -/
theorem writeLines (via : Via) (p fid a : Nat) (bs : List Byte) (s : State) (m : Nat) :
    let step := fun (r : State × Option Nat) (i : Nat) =>
      let l := a / 512 + i
      let lo := max a (l * 512)
      let y := writeLine via p fid l lo ((bs.drop (lo - a)).take (min (a + bs.length) (l * 512 + 512) - lo)) r.1
      (y.1, r.2.or y.2)
    let r := (List.range m).foldl step (s, none)
    ∀ x, (x < a ∨ a + bs.length ≤ x → rd1 r.1 x = rd1 s x) ∧
      (r.2 = none → a ≤ x → x < a + bs.length → x < (a / 512 + m) * 512 → rd1 r.1 x = bs.getD (x - a) 0) := by
  induction m with
  | zero =>
    intro step r x
    exact ⟨fun _ => rfl, fun _ h1 _ h3 => absurd h3 (by omega)⟩
  | succ m ih =>
    intro step r x
    have hr : r = step ((List.range m).foldl step (s, none)) m := by
      show (List.range (m + 1)).foldl step (s, none) = _
      rw [List.range_succ, List.foldl_append]
      rfl
    have ih := ih x
    generalize (List.range m).foldl step (s, none) = q at hr ih
    have hw := writeLine_wrote via p fid (a / 512 + m) (max a ((a / 512 + m) * 512))
      ((bs.drop (max a ((a / 512 + m) * 512) - a)).take
        (min (a + bs.length) ((a / 512 + m) * 512 + 512) - max a ((a / 512 + m) * 512))) q.1 x
    rw [hr]
    dsimp only [step]
    generalize writeLine via p fid (a / 512 + m) (max a ((a / 512 + m) * 512))
      ((bs.drop (max a ((a / 512 + m) * 512) - a)).take
        (min (a + bs.length) ((a / 512 + m) * 512 + 512) - max a ((a / 512 + m) * 512))) q.1 = y at hw
    rw [rd1_poke, List.length_take, List.length_drop] at hw
    constructor
    · intro hx
      rw [← ih.1 hx]
      by_cases hy : y.2 = none
      · rw [hw.1 hy, if_neg (by omega)]
      · exact hw.2 hy
    · intro hn h1 h2 h3
      have hq : q.2 = none := by
        cases h : q.2 with
        | none => rfl
        | some c =>
          rw [h] at hn
          exact nomatch hn
      have hy : y.2 = none := by
        rw [hq] at hn
        exact hn
      rw [hw.1 hy]
      by_cases hx : (a / 512 + m) * 512 ≤ x
      · rw [if_pos (by omega)]
        rw [List.getD_eq_getElem?_getD, List.getElem?_take, if_pos (by omega), List.getElem?_drop,
          show max a ((a / 512 + m) * 512) - a + (x - max a ((a / 512 + m) * 512)) = x - a by omega,
          ← List.getD_eq_getElem?_getD]
      · rw [if_neg (by omega)]
        exact ih.2 hq h1 h2 (Nat.not_le.mp hx)

theorem memWrite_eq (via : Via) (p fid a : Nat) (bs : List Byte) (s : State) (h : bs.length ≠ 0) :
    memWrite via p fid a bs s = (List.range ((a + bs.length - 1) / 512 - a / 512 + 1)).foldl
      (fun (r : State × Option Nat) (i : Nat) =>
        let l := a / 512 + i
        let lo := max a (l * 512)
        let y := writeLine via p fid l lo ((bs.drop (lo - a)).take (min (a + bs.length) (l * 512 + 512) - lo)) r.1
        (y.1, r.2.or y.2)) (s, none) := by
  unfold memWrite linesOf
  rw [if_neg h, List.foldl_map]

/-- A write changes no byte outside its range, and stores every byte of its range where it meets no code. -/
theorem memWrite_rd1 (via : Via) (p fid a : Nat) (bs : List Byte) (s : State) (x : Nat) :
    (x < a ∨ a + bs.length ≤ x → rd1 (memWrite via p fid a bs s).1 x = rd1 s x) ∧
    ((memWrite via p fid a bs s).2 = none → a ≤ x → x < a + bs.length →
      rd1 (memWrite via p fid a bs s).1 x = bs.getD (x - a) 0) := by
  by_cases h : bs.length = 0
  · unfold memWrite linesOf
    rw [if_pos h]
    exact ⟨fun _ => rfl, fun _ h1 h2 => absurd h2 (by omega)⟩
  · rw [memWrite_eq _ _ _ _ _ _ h]
    have := writeLines via p fid a bs s ((a + bs.length - 1) / 512 - a / 512 + 1) x
    exact ⟨this.1, fun hn h1 h2 => this.2 hn h1 h2 (by omega)⟩

/-- Writes that meet no code leave memory as the last of them left each byte. -/
theorem writeAll_holds (via : Via) (p fid : Nat) (l : List (Nat × List Byte)) : ∀ s : State,
    (writeAll via p fid l s).2 = none → MemHolds l s (writeAll via p fid l s).1 := by
  suffices h : ∀ (l : List (Nat × List Byte)) (s s0 : State) (c : Option Nat) (w : Nat → Option Byte),
      (∀ x, rd1 s x = (w x).getD (rd1 s0 x)) →
      (l.foldl (fun (r : State × Option Nat) x =>
        let y := memWrite via p fid x.1 x.2 r.1
        (y.1, r.2.or y.2)) (s, c)).2 = none →
      ∀ x, rd1 (l.foldl (fun (r : State × Option Nat) x =>
        let y := memWrite via p fid x.1 x.2 r.1
        (y.1, r.2.or y.2)) (s, c)).1 x =
        (l.foldl (fun r y => if y.1 ≤ x ∧ x < y.1 + y.2.length then some (y.2.getD (x - y.1) 0) else r) (w x)).getD (rd1 s0 x) by
    intro s hn
    exact h l s s none (fun _ => none) (fun _ => rfl) hn
  intro l
  induction l with
  | nil => exact fun s s0 c w hw _ x => hw x
  | cons e l ih =>
    intro s s0 c w hw hn x
    have hc : ∀ (l : List (Nat × List Byte)) (s : State) (c : Option Nat), (l.foldl (fun (r : State × Option Nat) x =>
        let y := memWrite via p fid x.1 x.2 r.1
        (y.1, r.2.or y.2)) (s, c)).2 = none → c = none := by
      intro l
      induction l with
      | nil => exact fun _ _ h => h
      | cons e l ih =>
        intro s c h
        have h' := ih _ _ h
        cases c with
        | none => rfl
        | some c => exact (nomatch h')
    have he : (memWrite via p fid e.1 e.2 s).2 = none := by
      have h' := hc l _ _ hn
      cases c with
      | none => exact h'
      | some c => exact (nomatch h')
    refine ih _ s0 _ (fun x => if e.1 ≤ x ∧ x < e.1 + e.2.length then some (e.2.getD (x - e.1) 0) else w x) ?_ hn x
    intro x
    have hx := memWrite_rd1 via p fid e.1 e.2 s x
    by_cases h : e.1 ≤ x ∧ x < e.1 + e.2.length
    · rw [if_pos h]
      exact hx.2 he h.1 h.2
    · rw [if_neg h, ← hw x]
      exact hx.1 (by omega)

end Sys2Proof.Machine
end

