-- ==== Sys2Proof/Laws/Regs.lean ====
section
/-!
SUPPORT. Registers: a field that is written reads as written, and no other bit of any register changes.
-/
namespace Sys2Proof.Machine

/-- A field of a 32-bit register of a page. -/
def Fld.ok (f : Fld) : Bool := decide (f.lo ≤ f.hi ∧ f.hi < 32 ∧ f.off < 4096)

theorem bits_split (n lo w : Nat) : n = 2 ^ (lo + w) * (n / 2 ^ (lo + w)) + (2 ^ lo * (n / 2 ^ lo % 2 ^ w) + n % 2 ^ lo) := by
  have h1 := Nat.div_add_mod n (2 ^ lo)
  have h2 := Nat.div_add_mod (n / 2 ^ lo) (2 ^ w)
  have h3 : n / 2 ^ lo / 2 ^ w = n / 2 ^ (lo + w) := by rw [Nat.div_div_eq_div_mul, ← Nat.pow_add]
  rw [h3] at h2
  have h4 : 2 ^ (lo + w) * (n / 2 ^ (lo + w)) = 2 ^ lo * (2 ^ w * (n / 2 ^ (lo + w))) := by
    rw [← Nat.mul_assoc, ← Nat.pow_add]
  rw [h4, ← Nat.add_assoc, ← Nat.mul_add, h2, h1]

/-- The number that `fldSet` makes, taken apart. -/
theorem fldSet_nat (n lo w v : Nat) :
    n - n / 2 ^ lo % 2 ^ w * 2 ^ lo + v * 2 ^ lo = 2 ^ (lo + w) * (n / 2 ^ (lo + w)) + (2 ^ lo * v + n % 2 ^ lo) := by
  have h := bits_split n lo w
  have e1 : n / 2 ^ lo % 2 ^ w * 2 ^ lo = 2 ^ lo * (n / 2 ^ lo % 2 ^ w) := Nat.mul_comm _ _
  have e2 : v * 2 ^ lo = 2 ^ lo * v := Nat.mul_comm _ _
  omega

theorem testBit_fldSet_nat (n lo w v j : Nat) (hv : v < 2 ^ w) :
    (n - n / 2 ^ lo % 2 ^ w * 2 ^ lo + v * 2 ^ lo).testBit j =
      if lo ≤ j ∧ j < lo + w then v.testBit (j - lo) else n.testBit j := by
  rw [fldSet_nat]
  have hl : n % 2 ^ lo < 2 ^ lo := Nat.mod_lt _ (Nat.two_pow_pos _)
  have hm : 2 ^ lo * v + n % 2 ^ lo < 2 ^ (lo + w) := by
    rw [Nat.pow_add]
    calc 2 ^ lo * v + n % 2 ^ lo < 2 ^ lo * v + 2 ^ lo := Nat.add_lt_add_left hl _
      _ = 2 ^ lo * (v + 1) := by rw [Nat.mul_add, Nat.mul_one]
      _ ≤ 2 ^ lo * 2 ^ w := Nat.mul_le_mul_left _ hv
  rw [Nat.testBit_two_pow_mul_add _ hm, Nat.testBit_two_pow_mul_add _ hl]
  by_cases h1 : j < lo + w
  · rw [if_pos h1]
    by_cases h2 : j < lo
    · rw [if_pos h2, if_neg (fun h => absurd h.1 (Nat.not_le.mpr h2)), Nat.testBit_mod_two_pow]
      simp [h2]
    · rw [if_neg h2, if_pos ⟨Nat.not_lt.mp h2, h1⟩]
  · rw [if_neg h1, if_neg (fun h => h1 h.2), Nat.testBit_div_two_pow]
    congr 1
    omega

theorem fldSet_bit (f : Fld) (w : Word) (v j : Nat) (hf : f.ok = true) (hj : j < 32) :
    (fldSet f w v).getLsbD j = if f.lo ≤ j ∧ j ≤ f.hi then v.testBit (j - f.lo) else w.getLsbD j := by
  simp only [Fld.ok, decide_eq_true_eq] at hf
  have e : f.lo + (f.hi + 1 - f.lo) = f.hi + 1 := by omega
  unfold fldSet fldGet bits
  rw [BitVec.getLsbD_ofNat, testBit_fldSet_nat _ _ _ _ _ (Nat.mod_lt _ (Nat.two_pow_pos _)), e]
  by_cases h : f.lo ≤ j ∧ j < f.hi + 1
  · have h' : f.lo ≤ j ∧ j ≤ f.hi := ⟨h.1, Nat.lt_succ_iff.mp h.2⟩
    have h2 : j - f.lo < f.hi + 1 - f.lo := by omega
    rw [if_pos h, if_pos h', Nat.testBit_mod_two_pow]
    simp [hj, h2]
  · have h' : ¬(f.lo ≤ j ∧ j ≤ f.hi) := fun g => h ⟨g.1, Nat.lt_succ_iff.mpr g.2⟩
    rw [if_neg h, if_neg h']
    simp [hj, BitVec.getLsbD]

theorem testBit_bits (hi lo n j : Nat) : (bits hi lo n).testBit j = (decide (j < hi + 1 - lo) && n.testBit (lo + j)) := by
  unfold bits
  rw [Nat.testBit_mod_two_pow, Nat.testBit_div_two_pow, Nat.add_comm j lo]

theorem fldGet_bit (f : Fld) (w : Word) (j : Nat) :
    (fldGet f w).testBit j = (decide (j < f.hi + 1 - f.lo) && w.getLsbD (f.lo + j)) := by
  unfold fldGet
  rw [testBit_bits]
  rfl

theorem fldGet_fldSet (f : Fld) (w : Word) (v : Nat) (hf : f.ok = true) : fldGet f (fldSet f w v) = v % 2 ^ (f.hi + 1 - f.lo) := by
  apply Nat.eq_of_testBit_eq
  intro j
  rw [fldGet_bit, Nat.testBit_mod_two_pow]
  by_cases h : j < f.hi + 1 - f.lo
  · have hf' := hf
    simp only [Fld.ok, decide_eq_true_eq] at hf'
    rw [fldSet_bit f w v _ hf (by omega), if_pos ⟨Nat.le_add_right _ _, by omega⟩]
    simp [h]
  · simp [h]

/-- Two fields share no bit. -/
def Fld.apart (f g : Fld) : Bool := decide (f.off ≠ g.off ∨ f.hi < g.lo ∨ g.hi < f.lo)

theorem fldGet_fldSet_apart (f g : Fld) (w : Word) (v : Nat) (hf : f.ok = true) (hg : g.ok = true)
    (h : f.hi < g.lo ∨ g.hi < f.lo) : fldGet g (fldSet f w v) = fldGet g w := by
  apply Nat.eq_of_testBit_eq
  intro j
  rw [fldGet_bit, fldGet_bit]
  by_cases hj : j < g.hi + 1 - g.lo
  · simp only [Fld.ok, decide_eq_true_eq] at hg
    rw [fldSet_bit f w v _ hf (by omega), if_neg (by omega)]
  · simp [hj]

theorem rg_st_same (s : State) (pg : Page) (f : Fld) (v : Nat) (hf : f.ok = true) :
    rg (st pg f v s) pg f = v % 2 ^ (f.hi + 1 - f.lo) := by
  unfold rg st
  simp only [tabGet_tabSet_same, fldGet_fldSet _ _ _ hf]

theorem rg_st_key (s : State) (pg pg' : Page) (f g : Fld) (v : Nat) (h : regKey pg' g.off ≠ regKey pg f.off) :
    rg (st pg f v s) pg' g = rg s pg' g := by
  unfold rg st
  simp only [tabGet_tabSet_other _ _ _ _ _ h]

theorem rg_st_apart (s : State) (pg : Page) (f g : Fld) (v : Nat) (hf : f.ok = true) (hg : g.ok = true)
    (h : f.apart g = true) : rg (st pg f v s) pg g = rg s pg g := by
  simp only [Fld.apart, decide_eq_true_eq] at h
  by_cases e : g.off = f.off
  · unfold rg st
    rw [e]
    simp only [tabGet_tabSet_same]
    exact fldGet_fldSet_apart f g _ v hf hg (h.resolve_left fun n => n e.symm)
  · apply rg_st_key
    simp only [Fld.ok, decide_eq_true_eq] at hf hg
    unfold regKey
    omega

end Sys2Proof.Machine
end

