-- ==== Sys2Proof/Laws/Access.lean ====
section
/-!
SUPPORT. What the outcome of an access to memory depends on: extents, partitions, leases, memory crypto state, keys, the debug
opening and the yard's ways. Two states that agree on these give every read and write the same code.
-/
namespace Sys2Proof.Machine

/-- The states agree on whom memory belongs to and on the keys that serve it. -/
structure BaseSame (s t : State) : Prop where
  exts : t.exts = s.exts
  parts : t.parts = s.parts
  leases : t.leases = s.leases
  secs : t.secs = s.secs
  fuse : t.sec.debugOpen = s.sec.debugOpen
  ways : ∀ k m p, k < 16 → wayIs t k m p = wayIs s k m p

/-- The states agree on everything that the outcome of an access depends on. -/
structure AccessSame (s t : State) : Prop where
  base : BaseSame s t
  mce : t.mce = s.mce

namespace BaseSame

theorem refl (s : State) : BaseSame s s := ⟨rfl, rfl, rfl, rfl, rfl, fun _ _ _ _ => rfl⟩

theorem trans {s t u : State} (h : BaseSame s t) (g : BaseSame t u) : BaseSame s u :=
  ⟨g.exts.trans h.exts, g.parts.trans h.parts, g.leases.trans h.leases, g.secs.trans h.secs, g.fuse.trans h.fuse,
    fun k m p hk => (g.ways k m p hk).trans (h.ways k m p hk)⟩

theorem symm {s t : State} (h : BaseSame s t) : BaseSame t s :=
  ⟨h.exts.symm, h.parts.symm, h.leases.symm, h.secs.symm, h.fuse.symm, fun k m p hk => (h.ways k m p hk).symm⟩

end BaseSame

namespace AccessSame

theorem refl (s : State) : AccessSame s s := ⟨.refl s, rfl⟩

theorem trans {s t u : State} (h : AccessSame s t) (g : AccessSame t u) : AccessSame s u :=
  ⟨h.base.trans g.base, g.mce.trans h.mce⟩

theorem symm {s t : State} (h : AccessSame s t) : AccessSame t s := ⟨h.base.symm, h.mce.symm⟩

end AccessSame

/-- Registers of the yard's block that stay as they are keep its ways. -/
theorem wayIs_of_regs {s t : State} (h : Same (.regs .yrd) s t) (k m p : Nat) : wayIs t k m p = wayIs s k m p := by
  have e : ∀ off, regKey pgYrd off / 2 ^ 20 = blockCode .yrd := by
    intro off
    unfold regKey
    have : off % 4096 < 4096 := Nat.mod_lt _ (by decide)
    simp only
    omega
  unfold wayIs rg
  rw [h _ (e _), h _ (e _)]

/-- An operation that does not reach the pieces that accesses depend on keeps the agreement. -/
theorem base_of_reach {L : List Piece} {s t : State} (h : Reach L s t)
    (hn : ∀ k, k ∈ [Piece.exts, .parts, .leases, .secs, .sec, .regs .yrd] → k ∉ L) : BaseSame s t :=
  ⟨h.frame .exts (hn _ (by decide)), h.frame .parts (hn _ (by decide)), h.frame .leases (hn _ (by decide)),
    h.frame .secs (hn _ (by decide)), congrArg Sec.debugOpen (h.frame .sec (hn _ (by decide))),
    fun k m p _ => wayIs_of_regs (h.frame (.regs .yrd) (hn _ (by decide))) k m p⟩

theorem access_of_reach {L : List Piece} {s t : State} (h : Reach L s t)
    (hn : ∀ k, k ∈ [Piece.exts, .parts, .leases, .secs, .sec, .regs .yrd] → k ∉ L) (hm : Piece.mce ∉ L) : AccessSame s t :=
  ⟨base_of_reach h hn, h.frame .mce hm⟩

/-- A counter of the yard keeps its ways. -/
theorem wayIs_st (f : Fld) (hf : f.ok = true) (ho : 0x110 ≤ f.off) (v k m p : Nat) (hk : k < 16) (s : State) :
    wayIs (st pgYrd f v s) k m p = wayIs s k m p := by
  have e (g : Fld) (hg : g.off = 0x100 + 4 * (k / 4)) : rg (st pgYrd f v s) pgYrd g = rg s pgYrd g := by
    apply rg_st_key
    simp only [Fld.ok, decide_eq_true_eq] at hf
    unfold regKey
    rw [hg]
    have : (0x100 + 4 * (k / 4)) % 4096 = 0x100 + 4 * (k / 4) := Nat.mod_eq_of_lt (by omega)
    rw [this, Nat.mod_eq_of_lt hf.2.2]
    omega
  unfold wayIs
  rw [e _ rfl, e _ rfl]

theorem base_yard (f : Fld) (hf : f.ok = true) (ho : 0x110 ≤ f.off) (v : Nat) (s : State) (y : Yard) :
    AccessSame s (st pgYrd f v { s with yard := y }) :=
  ⟨⟨rfl, rfl, rfl, rfl, rfl, fun k m p hk => (wayIs_st f hf ho v k m p hk _).trans rfl⟩, rfl⟩

theorem access_yardReadLine (p l : Nat) (s : State) : AccessSame s (yardReadLine p l s) := by
  unfold yardReadLine inc useLine
  split
  · exact .refl s
  · split
    · exact base_yard _ (by decide) (by decide) _ _ _
    · exact base_yard _ (by decide) (by decide) _ _ _

theorem access_yardWriteLine (p l : Nat) (w : Bool) (s : State) : AccessSame s (yardWriteLine p l w s) := by
  unfold yardWriteLine inc useLine wh
  split
  · exact .refl s
  · split <;> split
    · exact base_yard _ (by decide) (by decide) _ _ _
    · exact base_yard _ (by decide) (by decide) _ s s.yard
    · exact base_yard _ (by decide) (by decide) _ _ _
    · exact base_yard _ (by decide) (by decide) _ s s.yard

theorem access_yardKillLine (l : Nat) (s : State) : AccessSame s (yardKillLine l s) := by
  unfold yardKillLine dropLines inc
  dsimp only
  split
  · exact .refl s
  · exact base_yard _ (by decide) (by decide) _ _ _

theorem access_noteBlock (u c d : Nat) (s : State) : AccessSame s (noteBlock u c d s) :=
  access_of_reach (noteBlock_reach (L := [.regs .mem, .regs .lpd, .regs .mce, .regs .sec, .regs .ras, .regs .evr, .evr, .freeCtr])
    (by decide) (by decide) (by decide) (by decide) (by decide) (by decide) (by decide) (by decide) Reach.rfl')
    (by decide) (by decide)

theorem access_pageErr (p c d : Nat) (o : Option Nat) (s : State) : AccessSame s (pageErr (pgMemP p) c d o s) :=
  access_of_reach (pageErr_reach (L := [.regs .mem, .regs .ras, .regs .evr, .evr, .freeCtr]) (by decide)
    (by decide) (show Piece.regs .mem ∈ _ by decide) (by decide) (by decide) Reach.rfl') (by decide) (by decide)

theorem scratch_lt {a k : Nat} (h : regionOf a = .scratch k) : k < 16 := by
  unfold regionOf at h
  split at h
  · split at h <;> cases h
  · split at h
    · split at h <;> cases h
    · split at h
      · cases h
      · split at h
        · cases h
          omega
        · cases h

variable {s t : State}

theorem leaseAt_same (h : BaseSame s t) (n : Nat) : leaseAt t n = leaseAt s n := by
  unfold leaseAt
  rw [h.leases]

theorem strange_same (h : BaseSame s t) (via : Via) (p a : Nat) : strange t via p a = strange s via p a := by
  have hp : scratchShut t p = scratchShut s p := by
    unfold scratchShut partState
    rw [h.parts]
  unfold strange
  rw [h.exts]
  cases hr : regionOf a with
  | hbm _ => rfl
  | lpd _ => rfl
  | scratch k => simp only [hp, h.ways k 2 p (scratch_lt hr)]
  | lease n => simp only [leaseAt_same h]
  | none => rfl

theorem unitFailed_same (h : BaseSame s t) (u : Nat) : unitFailed t u = unitFailed s u := by
  unfold unitFailed
  rw [h.exts]

/-- The code and the detail below: whether a check fails, and how, does not depend on what a failed unit's registers say. -/
theorem blockCheck_same (h : AccessSame s t) (w : Bool) (u : Nat) :
    (blockCheck t w u).map Prod.fst = (blockCheck s w u).map Prod.fst := by
  have hp : pathBad t u = pathBad s u := by
    unfold pathBad
    rw [h.mce]
  have hm : blkMeta t u = blkMeta s u := by
    unfold blkMeta
    rw [h.mce]
  have he (e : Nat) : epochLive t (u / 2 ^ 21) e = epochLive s (u / 2 ^ 21) e := by
    unfold epochLive
    rw [h.base.exts, h.base.secs]
  unfold blockCheck
  rw [unitFailed_same h.base, h.base.fuse, hp, hm]
  simp only [he]
  repeat (first | rfl | split)

theorem blockCheck_code (h : AccessSame s t) (w : Bool) (u : Nat) :
    (∃ d e c, blockCheck t w u = some (c, d) ∧ blockCheck s w u = some (c, e)) ∨
      (blockCheck t w u = none ∧ blockCheck s w u = none) := by
  have e := blockCheck_same h w u
  cases ht : blockCheck t w u with
  | none =>
    rw [ht] at e
    cases hs : blockCheck s w u with
    | none => exact .inr ⟨rfl, rfl⟩
    | some x =>
      rw [hs] at e
      cases e
  | some x =>
    rw [ht] at e
    cases hs : blockCheck s w u with
    | none =>
      rw [hs] at e
      cases e
    | some y =>
      rw [hs] at e
      have e : x.1 = y.1 := Option.some.inj e
      refine .inl ⟨x.2, y.2, x.1, rfl, ?_⟩
      rw [e]

/-- The state in which a read of a line meets its checks. -/
theorem access_readState (via : Via) (p l : Nat) (s : State) : AccessSame s (wh (via == .yard) (yardReadLine p l) s) := by
  unfold wh
  split
  · exact access_yardReadLine p l s
  · exact .refl s

theorem readLine_access (via : Via) (p l : Nat) (s : State) : AccessSame s (readLine via p l s).1 := by
  unfold readLine
  have hy := access_readState via p l s
  generalize wh (via == .yard) (yardReadLine p l) s = y at hy
  split
  · exact .refl s
  · dsimp only
    split
    · split
      · exact hy.trans (access_noteBlock _ _ _ _)
      · exact hy
    · split
      · exact hy.trans (access_noteBlock _ _ _ _)
      · exact hy
    · split
      · split
        · refine hy.trans ?_
          exact access_pageErr p 0x32 _ (some p) _
        · exact hy
      · exact hy
    · exact hy

theorem readLine_code (h : AccessSame s t) (via : Via) (p l : Nat) : (readLine via p l t).2 = (readLine via p l s).2 := by
  unfold readLine
  have hx := (access_readState via p l s).symm.trans (h.trans (access_readState via p l t))
  generalize wh (via == .yard) (yardReadLine p l) s = y at hx
  generalize wh (via == .yard) (yardReadLine p l) t = z at hx
  rw [strange_same h.base]
  split
  · rfl
  · dsimp only
    cases hr : regionOf (l * 512) with
    | hbm _ =>
      dsimp only
      rcases blockCheck_code hx false l with ⟨d, e, c, h1, h2⟩ | ⟨h1, h2⟩ <;> rw [h1, h2]
    | lpd _ =>
      dsimp only
      rcases blockCheck_code hx false l with ⟨d, e, c, h1, h2⟩ | ⟨h1, h2⟩ <;> rw [h1, h2]
    | scratch _ => rfl
    | lease n =>
      dsimp only
      rw [leaseAt_same hx.base]
      split
      · split <;> rfl
      · rfl
    | none => rfl

/-- Two states that agree give a read the same code, and agree after it. -/
theorem memRead_access (h : AccessSame s t) (via : Via) (p a n : Nat) :
    (memRead via p a n t).2 = (memRead via p a n s).2 ∧ AccessSame s (memRead via p a n s).1 := by
  unfold memRead
  suffices ∀ (l : List (Nat × Nat × Nat)) (x y : State × Option Nat), AccessSame s x.1 → AccessSame s y.1 → y.2 = x.2 →
      (l.foldl (fun r x => let y := readLine via p x.1 r.1; (y.1, r.2.or y.2)) y).2 =
        (l.foldl (fun r x => let y := readLine via p x.1 r.1; (y.1, r.2.or y.2)) x).2 ∧
      AccessSame s (l.foldl (fun r x => let y := readLine via p x.1 r.1; (y.1, r.2.or y.2)) x).1 from
    this _ (s, none) (t, none) (.refl s) h rfl
  intro l
  induction l with
  | nil => exact fun x y hx _ e => ⟨e, hx⟩
  | cons i l ih =>
    intro x y hx hy e
    refine ih _ _ (hx.trans (readLine_access via p i.1 x.1)) (hy.trans (readLine_access via p i.1 y.1)) ?_
    dsimp only
    rw [e, readLine_code (hx.symm.trans hy)]

theorem readAll_access (h : AccessSame s t) (via : Via) (p : Nat) (l : List (Nat × Nat)) :
    (readAll via p l t).2 = (readAll via p l s).2 ∧ AccessSame s (readAll via p l s).1 := by
  unfold readAll
  suffices ∀ (l : List (Nat × Nat)) (x y : State × Option Nat), AccessSame s x.1 → AccessSame s y.1 → y.2 = x.2 →
      (l.foldl (fun r x => let y := memRead via p x.1 x.2 r.1; (y.1, r.2.or y.2)) y).2 =
        (l.foldl (fun r x => let y := memRead via p x.1 x.2 r.1; (y.1, r.2.or y.2)) x).2 ∧
      AccessSame s (l.foldl (fun r x => let y := memRead via p x.1 x.2 r.1; (y.1, r.2.or y.2)) x).1 from
    this _ (s, none) (t, none) (.refl s) h rfl
  intro l
  induction l with
  | nil => exact fun x y hx _ e => ⟨e, hx⟩
  | cons i l ih =>
    intro x y hx hy e
    refine ih _ _ (hx.trans (memRead_access (.refl x.1) via p i.1 i.2).2)
      (hy.trans (memRead_access (.refl y.1) via p i.1 i.2).2) ?_
    dsimp only
    rw [e, (memRead_access (hx.symm.trans hy) via p i.1 i.2).1]

/-! ### Writes -/

theorem access_poke (h : AccessSame s t) (a : Nat) (bs : List Byte) : AccessSame (poke a bs s) (poke a bs t) := by
  refine ⟨⟨h.base.exts, h.base.parts, h.base.leases, h.base.secs, h.base.fuse, ?_⟩, h.mce⟩
  exact fun k m p hk => h.base.ways k m p hk

/-- The engine's records after a block's tag is set. -/
def tagged (u e : Nat) (m : Mce) : Mce :=
  { m with blocks := tabSet blkDefault m.blocks u (if e = tabGet baseDefault m.base (u / 2 ^ 21) then none else some ⟨e, false⟩) }

theorem tagSet_mce (u e : Nat) (s : State) : (tagSet u e s).mce = tagged u e s.mce := by
  unfold tagSet tagged
  rfl

theorem base_tagSet (u e : Nat) (s : State) : BaseSame s (tagSet u e s) :=
  base_of_reach (tagSet_reach (L := [.mce]) (by decide) Reach.rfl') (by decide)

theorem access_tagSet (h : AccessSame s t) (u e : Nat) : AccessSame (tagSet u e s) (tagSet u e t) := by
  refine ⟨((base_tagSet u e s).symm.trans h.base).trans (base_tagSet u e t), ?_⟩
  rw [tagSet_mce, tagSet_mce, h.mce]

theorem base_freshen (u : Nat) (s : State) : BaseSame s (freshen u s) :=
  base_of_reach (freshen_reach (L := [.regs .mce, .mce]) (by decide) (by decide) Reach.rfl') (by decide)

theorem mce_setRegs (r : Tab Word) (s : State) : ({ s with regs := r } : State).mce = s.mce := rfl

theorem mce_inc (pg : Page) (f : Fld) (n : Nat) (s : State) : (inc pg f n s).mce = s.mce := by
  unfold inc st
  extract_lets k
  exact mce_setRegs _ s

theorem freshen_mce (u : Nat) (s : State) :
    (freshen u s).mce = if u < 2 ^ 31 then s.mce else { s.mce with nodes := (nodesAfter u s.mce.nodes).1 } := by
  unfold freshen
  by_cases h : u < 2 ^ 31
  · rw [if_pos h, if_pos h]
  · rw [if_neg h, if_neg h]
    generalize nodesAfter u s.mce.nodes = q
    by_cases hq : q.2 = 0
    · simp only [if_pos hq]
    · simp only [if_neg hq, mce_inc]

theorem access_freshen (h : AccessSame s t) (u : Nat) : AccessSame (freshen u s) (freshen u t) :=
  ⟨((base_freshen u s).symm.trans h.base).trans (base_freshen u t), by rw [freshen_mce, freshen_mce, h.mce]⟩

theorem curEpoch_same (h : BaseSame s t) (e : Nat) : curEpoch t e = curEpoch s e := by
  unfold curEpoch
  rw [h.exts, h.secs]

theorem blockWrite_access (h : AccessSame s t) (u a : Nat) (bs : List Byte) :
    (blockWrite u a bs t).2 = (blockWrite u a bs s).2 ∧ AccessSame (blockWrite u a bs s).1 (blockWrite u a bs t).1 := by
  unfold blockWrite
  rw [unitFailed_same h.base, h.base.fuse, curEpoch_same h.base]
  have good : AccessSame (freshen u (tagSet u (curEpoch s (u / 2 ^ 21)) (poke a bs s)))
      (freshen u (tagSet u (curEpoch s (u / 2 ^ 21)) (poke a bs t))) :=
    access_freshen (access_tagSet (access_poke h a bs) u _) u
  by_cases hc : bs.length < 512 ∨ unitFailed s u ∨ s.sec.debugOpen
  · rw [if_pos hc, if_pos hc]
    rcases blockCheck_code h true u with ⟨d, e, c, h1, h2⟩ | ⟨h1, h2⟩
    · rw [h1, h2]
      exact ⟨rfl, (access_noteBlock _ _ _ _).symm.trans (h.trans (access_noteBlock _ _ _ _))⟩
    · rw [h1, h2]
      exact ⟨rfl, good⟩
  · rw [if_neg hc, if_neg hc]
    exact ⟨rfl, good⟩

theorem access_leaseAccess (fid : Nat) (le : Lease) (w : Bool) (a n : Nat) (s : State) :
    AccessSame s (leaseAccess fid le w a n s) :=
  access_of_reach (leaseAccess_reach (L := [.accs, .nextTag, .ports]) (by decide) (by decide) (by decide) Reach.rfl')
    (by decide) (by decide)

theorem access_writeState (via : Via) (p l : Nat) (w : Bool) (s : State) :
    AccessSame s (if via = .yard then yardWriteLine p l w s else yardKillLine l s) := by
  split
  · exact access_yardWriteLine p l w s
  · exact access_yardKillLine l s

theorem writeLine_access (h : AccessSame s t) (via : Via) (p fid l a : Nat) (bs : List Byte) :
    (writeLine via p fid l a bs t).2 = (writeLine via p fid l a bs s).2 ∧
      AccessSame (writeLine via p fid l a bs s).1 (writeLine via p fid l a bs t).1 := by
  unfold writeLine
  have hx := (access_writeState via p l (bs.length == 512) s).symm.trans (h.trans (access_writeState via p l (bs.length == 512) t))
  generalize (if via = .yard then yardWriteLine p l (bs.length == 512) s else yardKillLine l s) = y at hx
  generalize (if via = .yard then yardWriteLine p l (bs.length == 512) t else yardKillLine l t) = z at hx
  rw [strange_same h.base]
  split
  · exact ⟨rfl, h⟩
  · dsimp only
    cases hr : regionOf a with
    | hbm _ => exact blockWrite_access hx l a bs
    | lpd _ => exact blockWrite_access hx l a bs
    | scratch _ => exact ⟨rfl, access_poke hx a bs⟩
    | lease n =>
      dsimp only
      rw [leaseAt_same hx.base]
      split
      · split
        · refine ⟨rfl, ?_⟩
          exact (access_pageErr p 0x32 _ (some p) y).symm.trans (hx.trans (access_pageErr p 0x32 _ (some p) z))
        · exact ⟨rfl, (access_leaseAccess _ _ _ _ _ _).symm.trans ((access_poke hx a bs).trans (access_leaseAccess _ _ _ _ _ _))⟩
      · exact ⟨rfl, hx⟩
    | none => exact ⟨rfl, hx⟩

/-- Two states that agree give a write the same code, and agree after it. -/
theorem memWrite_access (h : AccessSame s t) (via : Via) (p fid a : Nat) (bs : List Byte) :
    (memWrite via p fid a bs t).2 = (memWrite via p fid a bs s).2 ∧
      AccessSame (memWrite via p fid a bs s).1 (memWrite via p fid a bs t).1 := by
  unfold memWrite
  suffices ∀ (l : List (Nat × Nat × Nat)) (x y : State × Option Nat), AccessSame x.1 y.1 → y.2 = x.2 →
      (l.foldl (fun r x => let y := writeLine via p fid x.1 x.2.1 ((bs.drop (x.2.1 - a)).take x.2.2) r.1; (y.1, r.2.or y.2)) y).2 =
        (l.foldl (fun r x => let y := writeLine via p fid x.1 x.2.1 ((bs.drop (x.2.1 - a)).take x.2.2) r.1; (y.1, r.2.or y.2)) x).2 ∧
      AccessSame
        (l.foldl (fun r x => let y := writeLine via p fid x.1 x.2.1 ((bs.drop (x.2.1 - a)).take x.2.2) r.1; (y.1, r.2.or y.2)) x).1
        (l.foldl (fun r x => let y := writeLine via p fid x.1 x.2.1 ((bs.drop (x.2.1 - a)).take x.2.2) r.1; (y.1, r.2.or y.2)) y).1 from
    this _ (s, none) (t, none) h rfl
  intro l
  induction l with
  | nil => exact fun x y hx e => ⟨e, hx⟩
  | cons i l ih =>
    intro x y hx e
    have hw := writeLine_access hx via p fid i.1 i.2.1 ((bs.drop (i.2.1 - a)).take i.2.2)
    refine ih _ _ hw.2 ?_
    dsimp only
    rw [e, hw.1]

theorem writeAll_access (h : AccessSame s t) (via : Via) (p fid : Nat) (l : List (Nat × List Byte)) :
    (writeAll via p fid l t).2 = (writeAll via p fid l s).2 ∧ AccessSame (writeAll via p fid l s).1 (writeAll via p fid l t).1 := by
  unfold writeAll
  suffices ∀ (l : List (Nat × List Byte)) (x y : State × Option Nat), AccessSame x.1 y.1 → y.2 = x.2 →
      (l.foldl (fun r x => let y := memWrite via p fid x.1 x.2 r.1; (y.1, r.2.or y.2)) y).2 =
        (l.foldl (fun r x => let y := memWrite via p fid x.1 x.2 r.1; (y.1, r.2.or y.2)) x).2 ∧
      AccessSame (l.foldl (fun r x => let y := memWrite via p fid x.1 x.2 r.1; (y.1, r.2.or y.2)) x).1
        (l.foldl (fun r x => let y := memWrite via p fid x.1 x.2 r.1; (y.1, r.2.or y.2)) y).1 from
    this _ (s, none) (t, none) h rfl
  intro l
  induction l with
  | nil => exact fun x y hx e => ⟨e, hx⟩
  | cons i l ih =>
    intro x y hx e
    have hw := memWrite_access hx via p fid i.1 i.2
    refine ih _ _ hw.2 ?_
    dsimp only
    rw [e, hw.1]

/-! ### Writes into yard scratch -/

/-- A line of yard scratch that the partition may use. -/
def usable (s : State) (p a : Nat) : Bool :=
  match regionOf a with
  | .scratch _ => !strange s .beside p a
  | _ => false

theorem writeLine_scratch (s t : State) (p fid l a : Nat) (bs : List Byte) (h : AccessSame s t) (hu : usable s p a = true) :
    (writeLine .beside p fid l a bs t).2 = none ∧ AccessSame s (writeLine .beside p fid l a bs t).1 := by
  unfold usable at hu
  unfold writeLine
  rw [strange_same h.base]
  cases hr : regionOf a with
  | scratch k =>
    rw [hr] at hu
    simp only [Bool.not_eq_true'] at hu
    rw [if_neg (by rw [hu]; decide)]
    have hy := access_writeState .beside p l (bs.length == 512) t
    refine ⟨rfl, h.trans (hy.trans ?_)⟩
    exact ⟨⟨rfl, rfl, rfl, rfl, rfl, fun _ _ _ _ => rfl⟩, rfl⟩
  | _ =>
    rw [hr] at hu
    cases hu

theorem memWrite_scratch (s : State) (p fid a : Nat) (bs : List Byte) (n : Nat) (hn : bs.length = n)
    (h : ((linesOf a n).all fun x => usable s p x.2.1) = true) : (memWrite .beside p fid a bs s).2 = none := by
  unfold memWrite
  rw [hn]
  suffices ∀ (l : List (Nat × Nat × Nat)) (r : State × Option Nat), (l.all fun x => usable s p x.2.1) = true → AccessSame s r.1 → r.2 = none →
      (l.foldl (fun r x => let y := writeLine .beside p fid x.1 x.2.1 ((bs.drop (x.2.1 - a)).take x.2.2) r.1; (y.1, r.2.or y.2)) r).2 = none from
    this _ _ h (.refl s) rfl
  intro l
  induction l with
  | nil => exact fun r _ _ h => h
  | cons i l ih =>
    intro r hl hr h0
    simp only [List.all_cons, Bool.and_eq_true] at hl
    have hw := writeLine_scratch s r.1 p fid i.1 i.2.1 ((bs.drop (i.2.1 - a)).take i.2.2) hr hl.1
    refine ih _ hl.2 hw.2 ?_
    dsimp only
    rw [h0, hw.1]
    rfl

end Sys2Proof.Machine
end

