-- ==== Sys2Proof/Laws/State.lean ====
section
/-!
SUPPORT. The named updates of State, read field by field: an update changes its own field and every other field reads through it.
-/
namespace Sys2Proof.Machine


/-! ### st -/

@[simp] theorem st_pwr (pg : Page) (f : Fld) (v : Nat) (s : State) : (st pg f v s).pwr = s.pwr := by cases s; rfl
@[simp] theorem st_staged (pg : Page) (f : Fld) (v : Nat) (s : State) : (st pg f v s).staged = s.staged := by cases s; rfl
@[simp] theorem st_bus (pg : Page) (f : Fld) (v : Nat) (s : State) : (st pg f v s).bus = s.bus := by cases s; rfl
@[simp] theorem st_mem (pg : Page) (f : Fld) (v : Nat) (s : State) : (st pg f v s).mem = s.mem := by cases s; rfl
@[simp] theorem st_flash (pg : Page) (f : Fld) (v : Nat) (s : State) : (st pg f v s).flash = s.flash := by cases s; rfl
@[simp] theorem st_toks (pg : Page) (f : Fld) (v : Nat) (s : State) : (st pg f v s).toks = s.toks := by cases s; rfl
@[simp] theorem st_queues (pg : Page) (f : Fld) (v : Nat) (s : State) : (st pg f v s).queues = s.queues := by cases s; rfl
@[simp] theorem st_lastServed (pg : Page) (f : Fld) (v : Nat) (s : State) : (st pg f v s).lastServed = s.lastServed := by cases s; rfl
@[simp] theorem st_flights (pg : Page) (f : Fld) (v : Nat) (s : State) : (st pg f v s).flights = s.flights := by cases s; rfl
@[simp] theorem st_nextFid (pg : Page) (f : Fld) (v : Nat) (s : State) : (st pg f v s).nextFid = s.nextFid := by cases s; rfl
@[simp] theorem st_planners (pg : Page) (f : Fld) (v : Nat) (s : State) : (st pg f v s).planners = s.planners := by cases s; rfl
@[simp] theorem st_arrs (pg : Page) (f : Fld) (v : Nat) (s : State) : (st pg f v s).arrs = s.arrs := by cases s; rfl
@[simp] theorem st_stks (pg : Page) (f : Fld) (v : Nat) (s : State) : (st pg f v s).stks = s.stks := by cases s; rfl
@[simp] theorem st_yard (pg : Page) (f : Fld) (v : Nat) (s : State) : (st pg f v s).yard = s.yard := by cases s; rfl
@[simp] theorem st_retrain (pg : Page) (f : Fld) (v : Nat) (s : State) : (st pg f v s).retrain = s.retrain := by cases s; rfl
@[simp] theorem st_exts (pg : Page) (f : Fld) (v : Nat) (s : State) : (st pg f v s).exts = s.exts := by cases s; rfl
@[simp] theorem st_leases (pg : Page) (f : Fld) (v : Nat) (s : State) : (st pg f v s).leases = s.leases := by cases s; rfl
@[simp] theorem st_lends (pg : Page) (f : Fld) (v : Nat) (s : State) : (st pg f v s).lends = s.lends := by cases s; rfl
@[simp] theorem st_accs (pg : Page) (f : Fld) (v : Nat) (s : State) : (st pg f v s).accs = s.accs := by cases s; rfl
@[simp] theorem st_nextTag (pg : Page) (f : Fld) (v : Nat) (s : State) : (st pg f v s).nextTag = s.nextTag := by cases s; rfl
@[simp] theorem st_parts (pg : Page) (f : Fld) (v : Nat) (s : State) : (st pg f v s).parts = s.parts := by cases s; rfl
@[simp] theorem st_kvs (pg : Page) (f : Fld) (v : Nat) (s : State) : (st pg f v s).kvs = s.kvs := by cases s; rfl
@[simp] theorem st_lab (pg : Page) (f : Fld) (v : Nat) (s : State) : (st pg f v s).lab = s.lab := by cases s; rfl
@[simp] theorem st_scn (pg : Page) (f : Fld) (v : Nat) (s : State) : (st pg f v s).scn = s.scn := by cases s; rfl
@[simp] theorem st_col (pg : Page) (f : Fld) (v : Nat) (s : State) : (st pg f v s).col = s.col := by cases s; rfl
@[simp] theorem st_ports (pg : Page) (f : Fld) (v : Nat) (s : State) : (st pg f v s).ports = s.ports := by cases s; rfl
@[simp] theorem st_ivs (pg : Page) (f : Fld) (v : Nat) (s : State) : (st pg f v s).ivs = s.ivs := by cases s; rfl
@[simp] theorem st_hif (pg : Page) (f : Fld) (v : Nat) (s : State) : (st pg f v s).hif = s.hif := by cases s; rfl
@[simp] theorem st_chans (pg : Page) (f : Fld) (v : Nat) (s : State) : (st pg f v s).chans = s.chans := by cases s; rfl
@[simp] theorem st_sec (pg : Page) (f : Fld) (v : Nat) (s : State) : (st pg f v s).sec = s.sec := by cases s; rfl
@[simp] theorem st_secs (pg : Page) (f : Fld) (v : Nat) (s : State) : (st pg f v s).secs = s.secs := by cases s; rfl
@[simp] theorem st_secJobs (pg : Page) (f : Fld) (v : Nat) (s : State) : (st pg f v s).secJobs = s.secJobs := by cases s; rfl
@[simp] theorem st_lostFids (pg : Page) (f : Fld) (v : Nat) (s : State) : (st pg f v s).lostFids = s.lostFids := by cases s; rfl
@[simp] theorem st_mce (pg : Page) (f : Fld) (v : Nat) (s : State) : (st pg f v s).mce = s.mce := by cases s; rfl
@[simp] theorem st_evr (pg : Page) (f : Fld) (v : Nat) (s : State) : (st pg f v s).evr = s.evr := by cases s; rfl
@[simp] theorem st_out (pg : Page) (f : Fld) (v : Nat) (s : State) : (st pg f v s).out = s.out := by cases s; rfl
@[simp] theorem st_freeCtr (pg : Page) (f : Fld) (v : Nat) (s : State) : (st pg f v s).freeCtr = s.freeCtr := by cases s; rfl
@[simp] theorem st_pending (pg : Page) (f : Fld) (v : Nat) (s : State) : (st pg f v s).pending = s.pending := by cases s; rfl

/-! ### inc -/

@[simp] theorem inc_pwr (pg : Page) (f : Fld) (v : Nat) (s : State) : (inc pg f v s).pwr = s.pwr := st_pwr _ _ _ s
@[simp] theorem inc_staged (pg : Page) (f : Fld) (v : Nat) (s : State) : (inc pg f v s).staged = s.staged := st_staged _ _ _ s
@[simp] theorem inc_bus (pg : Page) (f : Fld) (v : Nat) (s : State) : (inc pg f v s).bus = s.bus := st_bus _ _ _ s
@[simp] theorem inc_mem (pg : Page) (f : Fld) (v : Nat) (s : State) : (inc pg f v s).mem = s.mem := st_mem _ _ _ s
@[simp] theorem inc_flash (pg : Page) (f : Fld) (v : Nat) (s : State) : (inc pg f v s).flash = s.flash := st_flash _ _ _ s
@[simp] theorem inc_toks (pg : Page) (f : Fld) (v : Nat) (s : State) : (inc pg f v s).toks = s.toks := st_toks _ _ _ s
@[simp] theorem inc_queues (pg : Page) (f : Fld) (v : Nat) (s : State) : (inc pg f v s).queues = s.queues := st_queues _ _ _ s
@[simp] theorem inc_lastServed (pg : Page) (f : Fld) (v : Nat) (s : State) : (inc pg f v s).lastServed = s.lastServed := st_lastServed _ _ _ s
@[simp] theorem inc_flights (pg : Page) (f : Fld) (v : Nat) (s : State) : (inc pg f v s).flights = s.flights := st_flights _ _ _ s
@[simp] theorem inc_nextFid (pg : Page) (f : Fld) (v : Nat) (s : State) : (inc pg f v s).nextFid = s.nextFid := st_nextFid _ _ _ s
@[simp] theorem inc_planners (pg : Page) (f : Fld) (v : Nat) (s : State) : (inc pg f v s).planners = s.planners := st_planners _ _ _ s
@[simp] theorem inc_arrs (pg : Page) (f : Fld) (v : Nat) (s : State) : (inc pg f v s).arrs = s.arrs := st_arrs _ _ _ s
@[simp] theorem inc_stks (pg : Page) (f : Fld) (v : Nat) (s : State) : (inc pg f v s).stks = s.stks := st_stks _ _ _ s
@[simp] theorem inc_yard (pg : Page) (f : Fld) (v : Nat) (s : State) : (inc pg f v s).yard = s.yard := st_yard _ _ _ s
@[simp] theorem inc_retrain (pg : Page) (f : Fld) (v : Nat) (s : State) : (inc pg f v s).retrain = s.retrain := st_retrain _ _ _ s
@[simp] theorem inc_exts (pg : Page) (f : Fld) (v : Nat) (s : State) : (inc pg f v s).exts = s.exts := st_exts _ _ _ s
@[simp] theorem inc_leases (pg : Page) (f : Fld) (v : Nat) (s : State) : (inc pg f v s).leases = s.leases := st_leases _ _ _ s
@[simp] theorem inc_lends (pg : Page) (f : Fld) (v : Nat) (s : State) : (inc pg f v s).lends = s.lends := st_lends _ _ _ s
@[simp] theorem inc_accs (pg : Page) (f : Fld) (v : Nat) (s : State) : (inc pg f v s).accs = s.accs := st_accs _ _ _ s
@[simp] theorem inc_nextTag (pg : Page) (f : Fld) (v : Nat) (s : State) : (inc pg f v s).nextTag = s.nextTag := st_nextTag _ _ _ s
@[simp] theorem inc_parts (pg : Page) (f : Fld) (v : Nat) (s : State) : (inc pg f v s).parts = s.parts := st_parts _ _ _ s
@[simp] theorem inc_kvs (pg : Page) (f : Fld) (v : Nat) (s : State) : (inc pg f v s).kvs = s.kvs := st_kvs _ _ _ s
@[simp] theorem inc_lab (pg : Page) (f : Fld) (v : Nat) (s : State) : (inc pg f v s).lab = s.lab := st_lab _ _ _ s
@[simp] theorem inc_scn (pg : Page) (f : Fld) (v : Nat) (s : State) : (inc pg f v s).scn = s.scn := st_scn _ _ _ s
@[simp] theorem inc_col (pg : Page) (f : Fld) (v : Nat) (s : State) : (inc pg f v s).col = s.col := st_col _ _ _ s
@[simp] theorem inc_ports (pg : Page) (f : Fld) (v : Nat) (s : State) : (inc pg f v s).ports = s.ports := st_ports _ _ _ s
@[simp] theorem inc_ivs (pg : Page) (f : Fld) (v : Nat) (s : State) : (inc pg f v s).ivs = s.ivs := st_ivs _ _ _ s
@[simp] theorem inc_hif (pg : Page) (f : Fld) (v : Nat) (s : State) : (inc pg f v s).hif = s.hif := st_hif _ _ _ s
@[simp] theorem inc_chans (pg : Page) (f : Fld) (v : Nat) (s : State) : (inc pg f v s).chans = s.chans := st_chans _ _ _ s
@[simp] theorem inc_sec (pg : Page) (f : Fld) (v : Nat) (s : State) : (inc pg f v s).sec = s.sec := st_sec _ _ _ s
@[simp] theorem inc_secs (pg : Page) (f : Fld) (v : Nat) (s : State) : (inc pg f v s).secs = s.secs := st_secs _ _ _ s
@[simp] theorem inc_secJobs (pg : Page) (f : Fld) (v : Nat) (s : State) : (inc pg f v s).secJobs = s.secJobs := st_secJobs _ _ _ s
@[simp] theorem inc_lostFids (pg : Page) (f : Fld) (v : Nat) (s : State) : (inc pg f v s).lostFids = s.lostFids := st_lostFids _ _ _ s
@[simp] theorem inc_mce (pg : Page) (f : Fld) (v : Nat) (s : State) : (inc pg f v s).mce = s.mce := st_mce _ _ _ s
@[simp] theorem inc_evr (pg : Page) (f : Fld) (v : Nat) (s : State) : (inc pg f v s).evr = s.evr := st_evr _ _ _ s
@[simp] theorem inc_out (pg : Page) (f : Fld) (v : Nat) (s : State) : (inc pg f v s).out = s.out := st_out _ _ _ s
@[simp] theorem inc_freeCtr (pg : Page) (f : Fld) (v : Nat) (s : State) : (inc pg f v s).freeCtr = s.freeCtr := st_freeCtr _ _ _ s
@[simp] theorem inc_pending (pg : Page) (f : Fld) (v : Nat) (s : State) : (inc pg f v s).pending = s.pending := st_pending _ _ _ s

/-! ### poke -/

@[simp] theorem poke_pwr (a : Nat) (bs : List Byte) (s : State) : (poke a bs s).pwr = s.pwr := by cases s; rfl
@[simp] theorem poke_regs (a : Nat) (bs : List Byte) (s : State) : (poke a bs s).regs = s.regs := by cases s; rfl
@[simp] theorem poke_staged (a : Nat) (bs : List Byte) (s : State) : (poke a bs s).staged = s.staged := by cases s; rfl
@[simp] theorem poke_bus (a : Nat) (bs : List Byte) (s : State) : (poke a bs s).bus = s.bus := by cases s; rfl
@[simp] theorem poke_flash (a : Nat) (bs : List Byte) (s : State) : (poke a bs s).flash = s.flash := by cases s; rfl
@[simp] theorem poke_toks (a : Nat) (bs : List Byte) (s : State) : (poke a bs s).toks = s.toks := by cases s; rfl
@[simp] theorem poke_queues (a : Nat) (bs : List Byte) (s : State) : (poke a bs s).queues = s.queues := by cases s; rfl
@[simp] theorem poke_lastServed (a : Nat) (bs : List Byte) (s : State) : (poke a bs s).lastServed = s.lastServed := by cases s; rfl
@[simp] theorem poke_flights (a : Nat) (bs : List Byte) (s : State) : (poke a bs s).flights = s.flights := by cases s; rfl
@[simp] theorem poke_nextFid (a : Nat) (bs : List Byte) (s : State) : (poke a bs s).nextFid = s.nextFid := by cases s; rfl
@[simp] theorem poke_planners (a : Nat) (bs : List Byte) (s : State) : (poke a bs s).planners = s.planners := by cases s; rfl
@[simp] theorem poke_arrs (a : Nat) (bs : List Byte) (s : State) : (poke a bs s).arrs = s.arrs := by cases s; rfl
@[simp] theorem poke_stks (a : Nat) (bs : List Byte) (s : State) : (poke a bs s).stks = s.stks := by cases s; rfl
@[simp] theorem poke_yard (a : Nat) (bs : List Byte) (s : State) : (poke a bs s).yard = s.yard := by cases s; rfl
@[simp] theorem poke_retrain (a : Nat) (bs : List Byte) (s : State) : (poke a bs s).retrain = s.retrain := by cases s; rfl
@[simp] theorem poke_exts (a : Nat) (bs : List Byte) (s : State) : (poke a bs s).exts = s.exts := by cases s; rfl
@[simp] theorem poke_leases (a : Nat) (bs : List Byte) (s : State) : (poke a bs s).leases = s.leases := by cases s; rfl
@[simp] theorem poke_lends (a : Nat) (bs : List Byte) (s : State) : (poke a bs s).lends = s.lends := by cases s; rfl
@[simp] theorem poke_accs (a : Nat) (bs : List Byte) (s : State) : (poke a bs s).accs = s.accs := by cases s; rfl
@[simp] theorem poke_nextTag (a : Nat) (bs : List Byte) (s : State) : (poke a bs s).nextTag = s.nextTag := by cases s; rfl
@[simp] theorem poke_parts (a : Nat) (bs : List Byte) (s : State) : (poke a bs s).parts = s.parts := by cases s; rfl
@[simp] theorem poke_kvs (a : Nat) (bs : List Byte) (s : State) : (poke a bs s).kvs = s.kvs := by cases s; rfl
@[simp] theorem poke_lab (a : Nat) (bs : List Byte) (s : State) : (poke a bs s).lab = s.lab := by cases s; rfl
@[simp] theorem poke_scn (a : Nat) (bs : List Byte) (s : State) : (poke a bs s).scn = s.scn := by cases s; rfl
@[simp] theorem poke_col (a : Nat) (bs : List Byte) (s : State) : (poke a bs s).col = s.col := by cases s; rfl
@[simp] theorem poke_ports (a : Nat) (bs : List Byte) (s : State) : (poke a bs s).ports = s.ports := by cases s; rfl
@[simp] theorem poke_ivs (a : Nat) (bs : List Byte) (s : State) : (poke a bs s).ivs = s.ivs := by cases s; rfl
@[simp] theorem poke_hif (a : Nat) (bs : List Byte) (s : State) : (poke a bs s).hif = s.hif := by cases s; rfl
@[simp] theorem poke_chans (a : Nat) (bs : List Byte) (s : State) : (poke a bs s).chans = s.chans := by cases s; rfl
@[simp] theorem poke_sec (a : Nat) (bs : List Byte) (s : State) : (poke a bs s).sec = s.sec := by cases s; rfl
@[simp] theorem poke_secs (a : Nat) (bs : List Byte) (s : State) : (poke a bs s).secs = s.secs := by cases s; rfl
@[simp] theorem poke_secJobs (a : Nat) (bs : List Byte) (s : State) : (poke a bs s).secJobs = s.secJobs := by cases s; rfl
@[simp] theorem poke_lostFids (a : Nat) (bs : List Byte) (s : State) : (poke a bs s).lostFids = s.lostFids := by cases s; rfl
@[simp] theorem poke_mce (a : Nat) (bs : List Byte) (s : State) : (poke a bs s).mce = s.mce := by cases s; rfl
@[simp] theorem poke_evr (a : Nat) (bs : List Byte) (s : State) : (poke a bs s).evr = s.evr := by cases s; rfl
@[simp] theorem poke_out (a : Nat) (bs : List Byte) (s : State) : (poke a bs s).out = s.out := by cases s; rfl
@[simp] theorem poke_freeCtr (a : Nat) (bs : List Byte) (s : State) : (poke a bs s).freeCtr = s.freeCtr := by cases s; rfl
@[simp] theorem poke_pending (a : Nat) (bs : List Byte) (s : State) : (poke a bs s).pending = s.pending := by cases s; rfl

/-! ### zeroFill -/

@[simp] theorem zeroFill_pwr (a n : Nat) (s : State) : (zeroFill a n s).pwr = s.pwr := by cases s; rfl
@[simp] theorem zeroFill_regs (a n : Nat) (s : State) : (zeroFill a n s).regs = s.regs := by cases s; rfl
@[simp] theorem zeroFill_staged (a n : Nat) (s : State) : (zeroFill a n s).staged = s.staged := by cases s; rfl
@[simp] theorem zeroFill_bus (a n : Nat) (s : State) : (zeroFill a n s).bus = s.bus := by cases s; rfl
@[simp] theorem zeroFill_flash (a n : Nat) (s : State) : (zeroFill a n s).flash = s.flash := by cases s; rfl
@[simp] theorem zeroFill_toks (a n : Nat) (s : State) : (zeroFill a n s).toks = s.toks := by cases s; rfl
@[simp] theorem zeroFill_queues (a n : Nat) (s : State) : (zeroFill a n s).queues = s.queues := by cases s; rfl
@[simp] theorem zeroFill_lastServed (a n : Nat) (s : State) : (zeroFill a n s).lastServed = s.lastServed := by cases s; rfl
@[simp] theorem zeroFill_flights (a n : Nat) (s : State) : (zeroFill a n s).flights = s.flights := by cases s; rfl
@[simp] theorem zeroFill_nextFid (a n : Nat) (s : State) : (zeroFill a n s).nextFid = s.nextFid := by cases s; rfl
@[simp] theorem zeroFill_planners (a n : Nat) (s : State) : (zeroFill a n s).planners = s.planners := by cases s; rfl
@[simp] theorem zeroFill_arrs (a n : Nat) (s : State) : (zeroFill a n s).arrs = s.arrs := by cases s; rfl
@[simp] theorem zeroFill_stks (a n : Nat) (s : State) : (zeroFill a n s).stks = s.stks := by cases s; rfl
@[simp] theorem zeroFill_yard (a n : Nat) (s : State) : (zeroFill a n s).yard = s.yard := by cases s; rfl
@[simp] theorem zeroFill_retrain (a n : Nat) (s : State) : (zeroFill a n s).retrain = s.retrain := by cases s; rfl
@[simp] theorem zeroFill_exts (a n : Nat) (s : State) : (zeroFill a n s).exts = s.exts := by cases s; rfl
@[simp] theorem zeroFill_leases (a n : Nat) (s : State) : (zeroFill a n s).leases = s.leases := by cases s; rfl
@[simp] theorem zeroFill_lends (a n : Nat) (s : State) : (zeroFill a n s).lends = s.lends := by cases s; rfl
@[simp] theorem zeroFill_accs (a n : Nat) (s : State) : (zeroFill a n s).accs = s.accs := by cases s; rfl
@[simp] theorem zeroFill_nextTag (a n : Nat) (s : State) : (zeroFill a n s).nextTag = s.nextTag := by cases s; rfl
@[simp] theorem zeroFill_parts (a n : Nat) (s : State) : (zeroFill a n s).parts = s.parts := by cases s; rfl
@[simp] theorem zeroFill_kvs (a n : Nat) (s : State) : (zeroFill a n s).kvs = s.kvs := by cases s; rfl
@[simp] theorem zeroFill_lab (a n : Nat) (s : State) : (zeroFill a n s).lab = s.lab := by cases s; rfl
@[simp] theorem zeroFill_scn (a n : Nat) (s : State) : (zeroFill a n s).scn = s.scn := by cases s; rfl
@[simp] theorem zeroFill_col (a n : Nat) (s : State) : (zeroFill a n s).col = s.col := by cases s; rfl
@[simp] theorem zeroFill_ports (a n : Nat) (s : State) : (zeroFill a n s).ports = s.ports := by cases s; rfl
@[simp] theorem zeroFill_ivs (a n : Nat) (s : State) : (zeroFill a n s).ivs = s.ivs := by cases s; rfl
@[simp] theorem zeroFill_hif (a n : Nat) (s : State) : (zeroFill a n s).hif = s.hif := by cases s; rfl
@[simp] theorem zeroFill_chans (a n : Nat) (s : State) : (zeroFill a n s).chans = s.chans := by cases s; rfl
@[simp] theorem zeroFill_sec (a n : Nat) (s : State) : (zeroFill a n s).sec = s.sec := by cases s; rfl
@[simp] theorem zeroFill_secs (a n : Nat) (s : State) : (zeroFill a n s).secs = s.secs := by cases s; rfl
@[simp] theorem zeroFill_secJobs (a n : Nat) (s : State) : (zeroFill a n s).secJobs = s.secJobs := by cases s; rfl
@[simp] theorem zeroFill_lostFids (a n : Nat) (s : State) : (zeroFill a n s).lostFids = s.lostFids := by cases s; rfl
@[simp] theorem zeroFill_mce (a n : Nat) (s : State) : (zeroFill a n s).mce = s.mce := by cases s; rfl
@[simp] theorem zeroFill_evr (a n : Nat) (s : State) : (zeroFill a n s).evr = s.evr := by cases s; rfl
@[simp] theorem zeroFill_out (a n : Nat) (s : State) : (zeroFill a n s).out = s.out := by cases s; rfl
@[simp] theorem zeroFill_freeCtr (a n : Nat) (s : State) : (zeroFill a n s).freeCtr = s.freeCtr := by cases s; rfl
@[simp] theorem zeroFill_pending (a n : Nat) (s : State) : (zeroFill a n s).pending = s.pending := by cases s; rfl

/-! ### flashPut -/

@[simp] theorem flashPut_pwr (a : Nat) (bs : List Byte) (s : State) : (flashPut a bs s).pwr = s.pwr := by cases s; rfl
@[simp] theorem flashPut_regs (a : Nat) (bs : List Byte) (s : State) : (flashPut a bs s).regs = s.regs := by cases s; rfl
@[simp] theorem flashPut_staged (a : Nat) (bs : List Byte) (s : State) : (flashPut a bs s).staged = s.staged := by cases s; rfl
@[simp] theorem flashPut_bus (a : Nat) (bs : List Byte) (s : State) : (flashPut a bs s).bus = s.bus := by cases s; rfl
@[simp] theorem flashPut_mem (a : Nat) (bs : List Byte) (s : State) : (flashPut a bs s).mem = s.mem := by cases s; rfl
@[simp] theorem flashPut_toks (a : Nat) (bs : List Byte) (s : State) : (flashPut a bs s).toks = s.toks := by cases s; rfl
@[simp] theorem flashPut_queues (a : Nat) (bs : List Byte) (s : State) : (flashPut a bs s).queues = s.queues := by cases s; rfl
@[simp] theorem flashPut_lastServed (a : Nat) (bs : List Byte) (s : State) : (flashPut a bs s).lastServed = s.lastServed := by cases s; rfl
@[simp] theorem flashPut_flights (a : Nat) (bs : List Byte) (s : State) : (flashPut a bs s).flights = s.flights := by cases s; rfl
@[simp] theorem flashPut_nextFid (a : Nat) (bs : List Byte) (s : State) : (flashPut a bs s).nextFid = s.nextFid := by cases s; rfl
@[simp] theorem flashPut_planners (a : Nat) (bs : List Byte) (s : State) : (flashPut a bs s).planners = s.planners := by cases s; rfl
@[simp] theorem flashPut_arrs (a : Nat) (bs : List Byte) (s : State) : (flashPut a bs s).arrs = s.arrs := by cases s; rfl
@[simp] theorem flashPut_stks (a : Nat) (bs : List Byte) (s : State) : (flashPut a bs s).stks = s.stks := by cases s; rfl
@[simp] theorem flashPut_yard (a : Nat) (bs : List Byte) (s : State) : (flashPut a bs s).yard = s.yard := by cases s; rfl
@[simp] theorem flashPut_retrain (a : Nat) (bs : List Byte) (s : State) : (flashPut a bs s).retrain = s.retrain := by cases s; rfl
@[simp] theorem flashPut_exts (a : Nat) (bs : List Byte) (s : State) : (flashPut a bs s).exts = s.exts := by cases s; rfl
@[simp] theorem flashPut_leases (a : Nat) (bs : List Byte) (s : State) : (flashPut a bs s).leases = s.leases := by cases s; rfl
@[simp] theorem flashPut_lends (a : Nat) (bs : List Byte) (s : State) : (flashPut a bs s).lends = s.lends := by cases s; rfl
@[simp] theorem flashPut_accs (a : Nat) (bs : List Byte) (s : State) : (flashPut a bs s).accs = s.accs := by cases s; rfl
@[simp] theorem flashPut_nextTag (a : Nat) (bs : List Byte) (s : State) : (flashPut a bs s).nextTag = s.nextTag := by cases s; rfl
@[simp] theorem flashPut_parts (a : Nat) (bs : List Byte) (s : State) : (flashPut a bs s).parts = s.parts := by cases s; rfl
@[simp] theorem flashPut_kvs (a : Nat) (bs : List Byte) (s : State) : (flashPut a bs s).kvs = s.kvs := by cases s; rfl
@[simp] theorem flashPut_lab (a : Nat) (bs : List Byte) (s : State) : (flashPut a bs s).lab = s.lab := by cases s; rfl
@[simp] theorem flashPut_scn (a : Nat) (bs : List Byte) (s : State) : (flashPut a bs s).scn = s.scn := by cases s; rfl
@[simp] theorem flashPut_col (a : Nat) (bs : List Byte) (s : State) : (flashPut a bs s).col = s.col := by cases s; rfl
@[simp] theorem flashPut_ports (a : Nat) (bs : List Byte) (s : State) : (flashPut a bs s).ports = s.ports := by cases s; rfl
@[simp] theorem flashPut_ivs (a : Nat) (bs : List Byte) (s : State) : (flashPut a bs s).ivs = s.ivs := by cases s; rfl
@[simp] theorem flashPut_hif (a : Nat) (bs : List Byte) (s : State) : (flashPut a bs s).hif = s.hif := by cases s; rfl
@[simp] theorem flashPut_chans (a : Nat) (bs : List Byte) (s : State) : (flashPut a bs s).chans = s.chans := by cases s; rfl
@[simp] theorem flashPut_sec (a : Nat) (bs : List Byte) (s : State) : (flashPut a bs s).sec = s.sec := by cases s; rfl
@[simp] theorem flashPut_secs (a : Nat) (bs : List Byte) (s : State) : (flashPut a bs s).secs = s.secs := by cases s; rfl
@[simp] theorem flashPut_secJobs (a : Nat) (bs : List Byte) (s : State) : (flashPut a bs s).secJobs = s.secJobs := by cases s; rfl
@[simp] theorem flashPut_lostFids (a : Nat) (bs : List Byte) (s : State) : (flashPut a bs s).lostFids = s.lostFids := by cases s; rfl
@[simp] theorem flashPut_mce (a : Nat) (bs : List Byte) (s : State) : (flashPut a bs s).mce = s.mce := by cases s; rfl
@[simp] theorem flashPut_evr (a : Nat) (bs : List Byte) (s : State) : (flashPut a bs s).evr = s.evr := by cases s; rfl
@[simp] theorem flashPut_out (a : Nat) (bs : List Byte) (s : State) : (flashPut a bs s).out = s.out := by cases s; rfl
@[simp] theorem flashPut_freeCtr (a : Nat) (bs : List Byte) (s : State) : (flashPut a bs s).freeCtr = s.freeCtr := by cases s; rfl
@[simp] theorem flashPut_pending (a : Nat) (bs : List Byte) (s : State) : (flashPut a bs s).pending = s.pending := by cases s; rfl

/-! ### setTok -/

@[simp] theorem setTok_pwr (n : Nat) (x : Token) (s : State) : (setTok n x s).pwr = s.pwr := by cases s; rfl
@[simp] theorem setTok_regs (n : Nat) (x : Token) (s : State) : (setTok n x s).regs = s.regs := by cases s; rfl
@[simp] theorem setTok_staged (n : Nat) (x : Token) (s : State) : (setTok n x s).staged = s.staged := by cases s; rfl
@[simp] theorem setTok_bus (n : Nat) (x : Token) (s : State) : (setTok n x s).bus = s.bus := by cases s; rfl
@[simp] theorem setTok_mem (n : Nat) (x : Token) (s : State) : (setTok n x s).mem = s.mem := by cases s; rfl
@[simp] theorem setTok_flash (n : Nat) (x : Token) (s : State) : (setTok n x s).flash = s.flash := by cases s; rfl
@[simp] theorem setTok_queues (n : Nat) (x : Token) (s : State) : (setTok n x s).queues = s.queues := by cases s; rfl
@[simp] theorem setTok_lastServed (n : Nat) (x : Token) (s : State) : (setTok n x s).lastServed = s.lastServed := by cases s; rfl
@[simp] theorem setTok_flights (n : Nat) (x : Token) (s : State) : (setTok n x s).flights = s.flights := by cases s; rfl
@[simp] theorem setTok_nextFid (n : Nat) (x : Token) (s : State) : (setTok n x s).nextFid = s.nextFid := by cases s; rfl
@[simp] theorem setTok_planners (n : Nat) (x : Token) (s : State) : (setTok n x s).planners = s.planners := by cases s; rfl
@[simp] theorem setTok_arrs (n : Nat) (x : Token) (s : State) : (setTok n x s).arrs = s.arrs := by cases s; rfl
@[simp] theorem setTok_stks (n : Nat) (x : Token) (s : State) : (setTok n x s).stks = s.stks := by cases s; rfl
@[simp] theorem setTok_yard (n : Nat) (x : Token) (s : State) : (setTok n x s).yard = s.yard := by cases s; rfl
@[simp] theorem setTok_retrain (n : Nat) (x : Token) (s : State) : (setTok n x s).retrain = s.retrain := by cases s; rfl
@[simp] theorem setTok_exts (n : Nat) (x : Token) (s : State) : (setTok n x s).exts = s.exts := by cases s; rfl
@[simp] theorem setTok_leases (n : Nat) (x : Token) (s : State) : (setTok n x s).leases = s.leases := by cases s; rfl
@[simp] theorem setTok_lends (n : Nat) (x : Token) (s : State) : (setTok n x s).lends = s.lends := by cases s; rfl
@[simp] theorem setTok_accs (n : Nat) (x : Token) (s : State) : (setTok n x s).accs = s.accs := by cases s; rfl
@[simp] theorem setTok_nextTag (n : Nat) (x : Token) (s : State) : (setTok n x s).nextTag = s.nextTag := by cases s; rfl
@[simp] theorem setTok_parts (n : Nat) (x : Token) (s : State) : (setTok n x s).parts = s.parts := by cases s; rfl
@[simp] theorem setTok_kvs (n : Nat) (x : Token) (s : State) : (setTok n x s).kvs = s.kvs := by cases s; rfl
@[simp] theorem setTok_lab (n : Nat) (x : Token) (s : State) : (setTok n x s).lab = s.lab := by cases s; rfl
@[simp] theorem setTok_scn (n : Nat) (x : Token) (s : State) : (setTok n x s).scn = s.scn := by cases s; rfl
@[simp] theorem setTok_col (n : Nat) (x : Token) (s : State) : (setTok n x s).col = s.col := by cases s; rfl
@[simp] theorem setTok_ports (n : Nat) (x : Token) (s : State) : (setTok n x s).ports = s.ports := by cases s; rfl
@[simp] theorem setTok_ivs (n : Nat) (x : Token) (s : State) : (setTok n x s).ivs = s.ivs := by cases s; rfl
@[simp] theorem setTok_hif (n : Nat) (x : Token) (s : State) : (setTok n x s).hif = s.hif := by cases s; rfl
@[simp] theorem setTok_chans (n : Nat) (x : Token) (s : State) : (setTok n x s).chans = s.chans := by cases s; rfl
@[simp] theorem setTok_sec (n : Nat) (x : Token) (s : State) : (setTok n x s).sec = s.sec := by cases s; rfl
@[simp] theorem setTok_secs (n : Nat) (x : Token) (s : State) : (setTok n x s).secs = s.secs := by cases s; rfl
@[simp] theorem setTok_secJobs (n : Nat) (x : Token) (s : State) : (setTok n x s).secJobs = s.secJobs := by cases s; rfl
@[simp] theorem setTok_lostFids (n : Nat) (x : Token) (s : State) : (setTok n x s).lostFids = s.lostFids := by cases s; rfl
@[simp] theorem setTok_mce (n : Nat) (x : Token) (s : State) : (setTok n x s).mce = s.mce := by cases s; rfl
@[simp] theorem setTok_evr (n : Nat) (x : Token) (s : State) : (setTok n x s).evr = s.evr := by cases s; rfl
@[simp] theorem setTok_out (n : Nat) (x : Token) (s : State) : (setTok n x s).out = s.out := by cases s; rfl
@[simp] theorem setTok_freeCtr (n : Nat) (x : Token) (s : State) : (setTok n x s).freeCtr = s.freeCtr := by cases s; rfl
@[simp] theorem setTok_pending (n : Nat) (x : Token) (s : State) : (setTok n x s).pending = s.pending := by cases s; rfl

/-! ### setQu -/

@[simp] theorem setQu_pwr (n : Nat) (x : Queue) (s : State) : (setQu n x s).pwr = s.pwr := by cases s; rfl
@[simp] theorem setQu_regs (n : Nat) (x : Queue) (s : State) : (setQu n x s).regs = s.regs := by cases s; rfl
@[simp] theorem setQu_staged (n : Nat) (x : Queue) (s : State) : (setQu n x s).staged = s.staged := by cases s; rfl
@[simp] theorem setQu_bus (n : Nat) (x : Queue) (s : State) : (setQu n x s).bus = s.bus := by cases s; rfl
@[simp] theorem setQu_mem (n : Nat) (x : Queue) (s : State) : (setQu n x s).mem = s.mem := by cases s; rfl
@[simp] theorem setQu_flash (n : Nat) (x : Queue) (s : State) : (setQu n x s).flash = s.flash := by cases s; rfl
@[simp] theorem setQu_toks (n : Nat) (x : Queue) (s : State) : (setQu n x s).toks = s.toks := by cases s; rfl
@[simp] theorem setQu_lastServed (n : Nat) (x : Queue) (s : State) : (setQu n x s).lastServed = s.lastServed := by cases s; rfl
@[simp] theorem setQu_flights (n : Nat) (x : Queue) (s : State) : (setQu n x s).flights = s.flights := by cases s; rfl
@[simp] theorem setQu_nextFid (n : Nat) (x : Queue) (s : State) : (setQu n x s).nextFid = s.nextFid := by cases s; rfl
@[simp] theorem setQu_planners (n : Nat) (x : Queue) (s : State) : (setQu n x s).planners = s.planners := by cases s; rfl
@[simp] theorem setQu_arrs (n : Nat) (x : Queue) (s : State) : (setQu n x s).arrs = s.arrs := by cases s; rfl
@[simp] theorem setQu_stks (n : Nat) (x : Queue) (s : State) : (setQu n x s).stks = s.stks := by cases s; rfl
@[simp] theorem setQu_yard (n : Nat) (x : Queue) (s : State) : (setQu n x s).yard = s.yard := by cases s; rfl
@[simp] theorem setQu_retrain (n : Nat) (x : Queue) (s : State) : (setQu n x s).retrain = s.retrain := by cases s; rfl
@[simp] theorem setQu_exts (n : Nat) (x : Queue) (s : State) : (setQu n x s).exts = s.exts := by cases s; rfl
@[simp] theorem setQu_leases (n : Nat) (x : Queue) (s : State) : (setQu n x s).leases = s.leases := by cases s; rfl
@[simp] theorem setQu_lends (n : Nat) (x : Queue) (s : State) : (setQu n x s).lends = s.lends := by cases s; rfl
@[simp] theorem setQu_accs (n : Nat) (x : Queue) (s : State) : (setQu n x s).accs = s.accs := by cases s; rfl
@[simp] theorem setQu_nextTag (n : Nat) (x : Queue) (s : State) : (setQu n x s).nextTag = s.nextTag := by cases s; rfl
@[simp] theorem setQu_parts (n : Nat) (x : Queue) (s : State) : (setQu n x s).parts = s.parts := by cases s; rfl
@[simp] theorem setQu_kvs (n : Nat) (x : Queue) (s : State) : (setQu n x s).kvs = s.kvs := by cases s; rfl
@[simp] theorem setQu_lab (n : Nat) (x : Queue) (s : State) : (setQu n x s).lab = s.lab := by cases s; rfl
@[simp] theorem setQu_scn (n : Nat) (x : Queue) (s : State) : (setQu n x s).scn = s.scn := by cases s; rfl
@[simp] theorem setQu_col (n : Nat) (x : Queue) (s : State) : (setQu n x s).col = s.col := by cases s; rfl
@[simp] theorem setQu_ports (n : Nat) (x : Queue) (s : State) : (setQu n x s).ports = s.ports := by cases s; rfl
@[simp] theorem setQu_ivs (n : Nat) (x : Queue) (s : State) : (setQu n x s).ivs = s.ivs := by cases s; rfl
@[simp] theorem setQu_hif (n : Nat) (x : Queue) (s : State) : (setQu n x s).hif = s.hif := by cases s; rfl
@[simp] theorem setQu_chans (n : Nat) (x : Queue) (s : State) : (setQu n x s).chans = s.chans := by cases s; rfl
@[simp] theorem setQu_sec (n : Nat) (x : Queue) (s : State) : (setQu n x s).sec = s.sec := by cases s; rfl
@[simp] theorem setQu_secs (n : Nat) (x : Queue) (s : State) : (setQu n x s).secs = s.secs := by cases s; rfl
@[simp] theorem setQu_secJobs (n : Nat) (x : Queue) (s : State) : (setQu n x s).secJobs = s.secJobs := by cases s; rfl
@[simp] theorem setQu_lostFids (n : Nat) (x : Queue) (s : State) : (setQu n x s).lostFids = s.lostFids := by cases s; rfl
@[simp] theorem setQu_mce (n : Nat) (x : Queue) (s : State) : (setQu n x s).mce = s.mce := by cases s; rfl
@[simp] theorem setQu_evr (n : Nat) (x : Queue) (s : State) : (setQu n x s).evr = s.evr := by cases s; rfl
@[simp] theorem setQu_out (n : Nat) (x : Queue) (s : State) : (setQu n x s).out = s.out := by cases s; rfl
@[simp] theorem setQu_freeCtr (n : Nat) (x : Queue) (s : State) : (setQu n x s).freeCtr = s.freeCtr := by cases s; rfl
@[simp] theorem setQu_pending (n : Nat) (x : Queue) (s : State) : (setQu n x s).pending = s.pending := by cases s; rfl

/-! ### updFlight -/

@[simp] theorem updFlight_pwr (n : Nat) (g : Flight → Flight) (s : State) : (updFlight n g s).pwr = s.pwr := by cases s; rfl
@[simp] theorem updFlight_regs (n : Nat) (g : Flight → Flight) (s : State) : (updFlight n g s).regs = s.regs := by cases s; rfl
@[simp] theorem updFlight_staged (n : Nat) (g : Flight → Flight) (s : State) : (updFlight n g s).staged = s.staged := by cases s; rfl
@[simp] theorem updFlight_bus (n : Nat) (g : Flight → Flight) (s : State) : (updFlight n g s).bus = s.bus := by cases s; rfl
@[simp] theorem updFlight_mem (n : Nat) (g : Flight → Flight) (s : State) : (updFlight n g s).mem = s.mem := by cases s; rfl
@[simp] theorem updFlight_flash (n : Nat) (g : Flight → Flight) (s : State) : (updFlight n g s).flash = s.flash := by cases s; rfl
@[simp] theorem updFlight_toks (n : Nat) (g : Flight → Flight) (s : State) : (updFlight n g s).toks = s.toks := by cases s; rfl
@[simp] theorem updFlight_queues (n : Nat) (g : Flight → Flight) (s : State) : (updFlight n g s).queues = s.queues := by cases s; rfl
@[simp] theorem updFlight_lastServed (n : Nat) (g : Flight → Flight) (s : State) : (updFlight n g s).lastServed = s.lastServed := by cases s; rfl
@[simp] theorem updFlight_nextFid (n : Nat) (g : Flight → Flight) (s : State) : (updFlight n g s).nextFid = s.nextFid := by cases s; rfl
@[simp] theorem updFlight_planners (n : Nat) (g : Flight → Flight) (s : State) : (updFlight n g s).planners = s.planners := by cases s; rfl
@[simp] theorem updFlight_arrs (n : Nat) (g : Flight → Flight) (s : State) : (updFlight n g s).arrs = s.arrs := by cases s; rfl
@[simp] theorem updFlight_stks (n : Nat) (g : Flight → Flight) (s : State) : (updFlight n g s).stks = s.stks := by cases s; rfl
@[simp] theorem updFlight_yard (n : Nat) (g : Flight → Flight) (s : State) : (updFlight n g s).yard = s.yard := by cases s; rfl
@[simp] theorem updFlight_retrain (n : Nat) (g : Flight → Flight) (s : State) : (updFlight n g s).retrain = s.retrain := by cases s; rfl
@[simp] theorem updFlight_exts (n : Nat) (g : Flight → Flight) (s : State) : (updFlight n g s).exts = s.exts := by cases s; rfl
@[simp] theorem updFlight_leases (n : Nat) (g : Flight → Flight) (s : State) : (updFlight n g s).leases = s.leases := by cases s; rfl
@[simp] theorem updFlight_lends (n : Nat) (g : Flight → Flight) (s : State) : (updFlight n g s).lends = s.lends := by cases s; rfl
@[simp] theorem updFlight_accs (n : Nat) (g : Flight → Flight) (s : State) : (updFlight n g s).accs = s.accs := by cases s; rfl
@[simp] theorem updFlight_nextTag (n : Nat) (g : Flight → Flight) (s : State) : (updFlight n g s).nextTag = s.nextTag := by cases s; rfl
@[simp] theorem updFlight_parts (n : Nat) (g : Flight → Flight) (s : State) : (updFlight n g s).parts = s.parts := by cases s; rfl
@[simp] theorem updFlight_kvs (n : Nat) (g : Flight → Flight) (s : State) : (updFlight n g s).kvs = s.kvs := by cases s; rfl
@[simp] theorem updFlight_lab (n : Nat) (g : Flight → Flight) (s : State) : (updFlight n g s).lab = s.lab := by cases s; rfl
@[simp] theorem updFlight_scn (n : Nat) (g : Flight → Flight) (s : State) : (updFlight n g s).scn = s.scn := by cases s; rfl
@[simp] theorem updFlight_col (n : Nat) (g : Flight → Flight) (s : State) : (updFlight n g s).col = s.col := by cases s; rfl
@[simp] theorem updFlight_ports (n : Nat) (g : Flight → Flight) (s : State) : (updFlight n g s).ports = s.ports := by cases s; rfl
@[simp] theorem updFlight_ivs (n : Nat) (g : Flight → Flight) (s : State) : (updFlight n g s).ivs = s.ivs := by cases s; rfl
@[simp] theorem updFlight_hif (n : Nat) (g : Flight → Flight) (s : State) : (updFlight n g s).hif = s.hif := by cases s; rfl
@[simp] theorem updFlight_chans (n : Nat) (g : Flight → Flight) (s : State) : (updFlight n g s).chans = s.chans := by cases s; rfl
@[simp] theorem updFlight_sec (n : Nat) (g : Flight → Flight) (s : State) : (updFlight n g s).sec = s.sec := by cases s; rfl
@[simp] theorem updFlight_secs (n : Nat) (g : Flight → Flight) (s : State) : (updFlight n g s).secs = s.secs := by cases s; rfl
@[simp] theorem updFlight_secJobs (n : Nat) (g : Flight → Flight) (s : State) : (updFlight n g s).secJobs = s.secJobs := by cases s; rfl
@[simp] theorem updFlight_lostFids (n : Nat) (g : Flight → Flight) (s : State) : (updFlight n g s).lostFids = s.lostFids := by cases s; rfl
@[simp] theorem updFlight_mce (n : Nat) (g : Flight → Flight) (s : State) : (updFlight n g s).mce = s.mce := by cases s; rfl
@[simp] theorem updFlight_evr (n : Nat) (g : Flight → Flight) (s : State) : (updFlight n g s).evr = s.evr := by cases s; rfl
@[simp] theorem updFlight_out (n : Nat) (g : Flight → Flight) (s : State) : (updFlight n g s).out = s.out := by cases s; rfl
@[simp] theorem updFlight_freeCtr (n : Nat) (g : Flight → Flight) (s : State) : (updFlight n g s).freeCtr = s.freeCtr := by cases s; rfl
@[simp] theorem updFlight_pending (n : Nat) (g : Flight → Flight) (s : State) : (updFlight n g s).pending = s.pending := by cases s; rfl

/-! ### setArr -/

@[simp] theorem setArr_pwr (n : Nat) (x : Arr) (s : State) : (setArr n x s).pwr = s.pwr := by cases s; rfl
@[simp] theorem setArr_regs (n : Nat) (x : Arr) (s : State) : (setArr n x s).regs = s.regs := by cases s; rfl
@[simp] theorem setArr_staged (n : Nat) (x : Arr) (s : State) : (setArr n x s).staged = s.staged := by cases s; rfl
@[simp] theorem setArr_bus (n : Nat) (x : Arr) (s : State) : (setArr n x s).bus = s.bus := by cases s; rfl
@[simp] theorem setArr_mem (n : Nat) (x : Arr) (s : State) : (setArr n x s).mem = s.mem := by cases s; rfl
@[simp] theorem setArr_flash (n : Nat) (x : Arr) (s : State) : (setArr n x s).flash = s.flash := by cases s; rfl
@[simp] theorem setArr_toks (n : Nat) (x : Arr) (s : State) : (setArr n x s).toks = s.toks := by cases s; rfl
@[simp] theorem setArr_queues (n : Nat) (x : Arr) (s : State) : (setArr n x s).queues = s.queues := by cases s; rfl
@[simp] theorem setArr_lastServed (n : Nat) (x : Arr) (s : State) : (setArr n x s).lastServed = s.lastServed := by cases s; rfl
@[simp] theorem setArr_flights (n : Nat) (x : Arr) (s : State) : (setArr n x s).flights = s.flights := by cases s; rfl
@[simp] theorem setArr_nextFid (n : Nat) (x : Arr) (s : State) : (setArr n x s).nextFid = s.nextFid := by cases s; rfl
@[simp] theorem setArr_planners (n : Nat) (x : Arr) (s : State) : (setArr n x s).planners = s.planners := by cases s; rfl
@[simp] theorem setArr_stks (n : Nat) (x : Arr) (s : State) : (setArr n x s).stks = s.stks := by cases s; rfl
@[simp] theorem setArr_yard (n : Nat) (x : Arr) (s : State) : (setArr n x s).yard = s.yard := by cases s; rfl
@[simp] theorem setArr_retrain (n : Nat) (x : Arr) (s : State) : (setArr n x s).retrain = s.retrain := by cases s; rfl
@[simp] theorem setArr_exts (n : Nat) (x : Arr) (s : State) : (setArr n x s).exts = s.exts := by cases s; rfl
@[simp] theorem setArr_leases (n : Nat) (x : Arr) (s : State) : (setArr n x s).leases = s.leases := by cases s; rfl
@[simp] theorem setArr_lends (n : Nat) (x : Arr) (s : State) : (setArr n x s).lends = s.lends := by cases s; rfl
@[simp] theorem setArr_accs (n : Nat) (x : Arr) (s : State) : (setArr n x s).accs = s.accs := by cases s; rfl
@[simp] theorem setArr_nextTag (n : Nat) (x : Arr) (s : State) : (setArr n x s).nextTag = s.nextTag := by cases s; rfl
@[simp] theorem setArr_parts (n : Nat) (x : Arr) (s : State) : (setArr n x s).parts = s.parts := by cases s; rfl
@[simp] theorem setArr_kvs (n : Nat) (x : Arr) (s : State) : (setArr n x s).kvs = s.kvs := by cases s; rfl
@[simp] theorem setArr_lab (n : Nat) (x : Arr) (s : State) : (setArr n x s).lab = s.lab := by cases s; rfl
@[simp] theorem setArr_scn (n : Nat) (x : Arr) (s : State) : (setArr n x s).scn = s.scn := by cases s; rfl
@[simp] theorem setArr_col (n : Nat) (x : Arr) (s : State) : (setArr n x s).col = s.col := by cases s; rfl
@[simp] theorem setArr_ports (n : Nat) (x : Arr) (s : State) : (setArr n x s).ports = s.ports := by cases s; rfl
@[simp] theorem setArr_ivs (n : Nat) (x : Arr) (s : State) : (setArr n x s).ivs = s.ivs := by cases s; rfl
@[simp] theorem setArr_hif (n : Nat) (x : Arr) (s : State) : (setArr n x s).hif = s.hif := by cases s; rfl
@[simp] theorem setArr_chans (n : Nat) (x : Arr) (s : State) : (setArr n x s).chans = s.chans := by cases s; rfl
@[simp] theorem setArr_sec (n : Nat) (x : Arr) (s : State) : (setArr n x s).sec = s.sec := by cases s; rfl
@[simp] theorem setArr_secs (n : Nat) (x : Arr) (s : State) : (setArr n x s).secs = s.secs := by cases s; rfl
@[simp] theorem setArr_secJobs (n : Nat) (x : Arr) (s : State) : (setArr n x s).secJobs = s.secJobs := by cases s; rfl
@[simp] theorem setArr_lostFids (n : Nat) (x : Arr) (s : State) : (setArr n x s).lostFids = s.lostFids := by cases s; rfl
@[simp] theorem setArr_mce (n : Nat) (x : Arr) (s : State) : (setArr n x s).mce = s.mce := by cases s; rfl
@[simp] theorem setArr_evr (n : Nat) (x : Arr) (s : State) : (setArr n x s).evr = s.evr := by cases s; rfl
@[simp] theorem setArr_out (n : Nat) (x : Arr) (s : State) : (setArr n x s).out = s.out := by cases s; rfl
@[simp] theorem setArr_freeCtr (n : Nat) (x : Arr) (s : State) : (setArr n x s).freeCtr = s.freeCtr := by cases s; rfl
@[simp] theorem setArr_pending (n : Nat) (x : Arr) (s : State) : (setArr n x s).pending = s.pending := by cases s; rfl

/-! ### setExt -/

@[simp] theorem setExt_pwr (n : Nat) (x : Ext) (s : State) : (setExt n x s).pwr = s.pwr := by cases s; rfl
@[simp] theorem setExt_regs (n : Nat) (x : Ext) (s : State) : (setExt n x s).regs = s.regs := by cases s; rfl
@[simp] theorem setExt_staged (n : Nat) (x : Ext) (s : State) : (setExt n x s).staged = s.staged := by cases s; rfl
@[simp] theorem setExt_bus (n : Nat) (x : Ext) (s : State) : (setExt n x s).bus = s.bus := by cases s; rfl
@[simp] theorem setExt_mem (n : Nat) (x : Ext) (s : State) : (setExt n x s).mem = s.mem := by cases s; rfl
@[simp] theorem setExt_flash (n : Nat) (x : Ext) (s : State) : (setExt n x s).flash = s.flash := by cases s; rfl
@[simp] theorem setExt_toks (n : Nat) (x : Ext) (s : State) : (setExt n x s).toks = s.toks := by cases s; rfl
@[simp] theorem setExt_queues (n : Nat) (x : Ext) (s : State) : (setExt n x s).queues = s.queues := by cases s; rfl
@[simp] theorem setExt_lastServed (n : Nat) (x : Ext) (s : State) : (setExt n x s).lastServed = s.lastServed := by cases s; rfl
@[simp] theorem setExt_flights (n : Nat) (x : Ext) (s : State) : (setExt n x s).flights = s.flights := by cases s; rfl
@[simp] theorem setExt_nextFid (n : Nat) (x : Ext) (s : State) : (setExt n x s).nextFid = s.nextFid := by cases s; rfl
@[simp] theorem setExt_planners (n : Nat) (x : Ext) (s : State) : (setExt n x s).planners = s.planners := by cases s; rfl
@[simp] theorem setExt_arrs (n : Nat) (x : Ext) (s : State) : (setExt n x s).arrs = s.arrs := by cases s; rfl
@[simp] theorem setExt_stks (n : Nat) (x : Ext) (s : State) : (setExt n x s).stks = s.stks := by cases s; rfl
@[simp] theorem setExt_yard (n : Nat) (x : Ext) (s : State) : (setExt n x s).yard = s.yard := by cases s; rfl
@[simp] theorem setExt_retrain (n : Nat) (x : Ext) (s : State) : (setExt n x s).retrain = s.retrain := by cases s; rfl
@[simp] theorem setExt_leases (n : Nat) (x : Ext) (s : State) : (setExt n x s).leases = s.leases := by cases s; rfl
@[simp] theorem setExt_lends (n : Nat) (x : Ext) (s : State) : (setExt n x s).lends = s.lends := by cases s; rfl
@[simp] theorem setExt_accs (n : Nat) (x : Ext) (s : State) : (setExt n x s).accs = s.accs := by cases s; rfl
@[simp] theorem setExt_nextTag (n : Nat) (x : Ext) (s : State) : (setExt n x s).nextTag = s.nextTag := by cases s; rfl
@[simp] theorem setExt_parts (n : Nat) (x : Ext) (s : State) : (setExt n x s).parts = s.parts := by cases s; rfl
@[simp] theorem setExt_kvs (n : Nat) (x : Ext) (s : State) : (setExt n x s).kvs = s.kvs := by cases s; rfl
@[simp] theorem setExt_lab (n : Nat) (x : Ext) (s : State) : (setExt n x s).lab = s.lab := by cases s; rfl
@[simp] theorem setExt_scn (n : Nat) (x : Ext) (s : State) : (setExt n x s).scn = s.scn := by cases s; rfl
@[simp] theorem setExt_col (n : Nat) (x : Ext) (s : State) : (setExt n x s).col = s.col := by cases s; rfl
@[simp] theorem setExt_ports (n : Nat) (x : Ext) (s : State) : (setExt n x s).ports = s.ports := by cases s; rfl
@[simp] theorem setExt_ivs (n : Nat) (x : Ext) (s : State) : (setExt n x s).ivs = s.ivs := by cases s; rfl
@[simp] theorem setExt_hif (n : Nat) (x : Ext) (s : State) : (setExt n x s).hif = s.hif := by cases s; rfl
@[simp] theorem setExt_chans (n : Nat) (x : Ext) (s : State) : (setExt n x s).chans = s.chans := by cases s; rfl
@[simp] theorem setExt_sec (n : Nat) (x : Ext) (s : State) : (setExt n x s).sec = s.sec := by cases s; rfl
@[simp] theorem setExt_secs (n : Nat) (x : Ext) (s : State) : (setExt n x s).secs = s.secs := by cases s; rfl
@[simp] theorem setExt_secJobs (n : Nat) (x : Ext) (s : State) : (setExt n x s).secJobs = s.secJobs := by cases s; rfl
@[simp] theorem setExt_lostFids (n : Nat) (x : Ext) (s : State) : (setExt n x s).lostFids = s.lostFids := by cases s; rfl
@[simp] theorem setExt_mce (n : Nat) (x : Ext) (s : State) : (setExt n x s).mce = s.mce := by cases s; rfl
@[simp] theorem setExt_evr (n : Nat) (x : Ext) (s : State) : (setExt n x s).evr = s.evr := by cases s; rfl
@[simp] theorem setExt_out (n : Nat) (x : Ext) (s : State) : (setExt n x s).out = s.out := by cases s; rfl
@[simp] theorem setExt_freeCtr (n : Nat) (x : Ext) (s : State) : (setExt n x s).freeCtr = s.freeCtr := by cases s; rfl
@[simp] theorem setExt_pending (n : Nat) (x : Ext) (s : State) : (setExt n x s).pending = s.pending := by cases s; rfl

/-! ### updLease -/

@[simp] theorem updLease_pwr (n : Nat) (g : Lease → Lease) (s : State) : (updLease n g s).pwr = s.pwr := by cases s; rfl
@[simp] theorem updLease_regs (n : Nat) (g : Lease → Lease) (s : State) : (updLease n g s).regs = s.regs := by cases s; rfl
@[simp] theorem updLease_staged (n : Nat) (g : Lease → Lease) (s : State) : (updLease n g s).staged = s.staged := by cases s; rfl
@[simp] theorem updLease_bus (n : Nat) (g : Lease → Lease) (s : State) : (updLease n g s).bus = s.bus := by cases s; rfl
@[simp] theorem updLease_mem (n : Nat) (g : Lease → Lease) (s : State) : (updLease n g s).mem = s.mem := by cases s; rfl
@[simp] theorem updLease_flash (n : Nat) (g : Lease → Lease) (s : State) : (updLease n g s).flash = s.flash := by cases s; rfl
@[simp] theorem updLease_toks (n : Nat) (g : Lease → Lease) (s : State) : (updLease n g s).toks = s.toks := by cases s; rfl
@[simp] theorem updLease_queues (n : Nat) (g : Lease → Lease) (s : State) : (updLease n g s).queues = s.queues := by cases s; rfl
@[simp] theorem updLease_lastServed (n : Nat) (g : Lease → Lease) (s : State) : (updLease n g s).lastServed = s.lastServed := by cases s; rfl
@[simp] theorem updLease_flights (n : Nat) (g : Lease → Lease) (s : State) : (updLease n g s).flights = s.flights := by cases s; rfl
@[simp] theorem updLease_nextFid (n : Nat) (g : Lease → Lease) (s : State) : (updLease n g s).nextFid = s.nextFid := by cases s; rfl
@[simp] theorem updLease_planners (n : Nat) (g : Lease → Lease) (s : State) : (updLease n g s).planners = s.planners := by cases s; rfl
@[simp] theorem updLease_arrs (n : Nat) (g : Lease → Lease) (s : State) : (updLease n g s).arrs = s.arrs := by cases s; rfl
@[simp] theorem updLease_stks (n : Nat) (g : Lease → Lease) (s : State) : (updLease n g s).stks = s.stks := by cases s; rfl
@[simp] theorem updLease_yard (n : Nat) (g : Lease → Lease) (s : State) : (updLease n g s).yard = s.yard := by cases s; rfl
@[simp] theorem updLease_retrain (n : Nat) (g : Lease → Lease) (s : State) : (updLease n g s).retrain = s.retrain := by cases s; rfl
@[simp] theorem updLease_exts (n : Nat) (g : Lease → Lease) (s : State) : (updLease n g s).exts = s.exts := by cases s; rfl
@[simp] theorem updLease_lends (n : Nat) (g : Lease → Lease) (s : State) : (updLease n g s).lends = s.lends := by cases s; rfl
@[simp] theorem updLease_accs (n : Nat) (g : Lease → Lease) (s : State) : (updLease n g s).accs = s.accs := by cases s; rfl
@[simp] theorem updLease_nextTag (n : Nat) (g : Lease → Lease) (s : State) : (updLease n g s).nextTag = s.nextTag := by cases s; rfl
@[simp] theorem updLease_parts (n : Nat) (g : Lease → Lease) (s : State) : (updLease n g s).parts = s.parts := by cases s; rfl
@[simp] theorem updLease_kvs (n : Nat) (g : Lease → Lease) (s : State) : (updLease n g s).kvs = s.kvs := by cases s; rfl
@[simp] theorem updLease_lab (n : Nat) (g : Lease → Lease) (s : State) : (updLease n g s).lab = s.lab := by cases s; rfl
@[simp] theorem updLease_scn (n : Nat) (g : Lease → Lease) (s : State) : (updLease n g s).scn = s.scn := by cases s; rfl
@[simp] theorem updLease_col (n : Nat) (g : Lease → Lease) (s : State) : (updLease n g s).col = s.col := by cases s; rfl
@[simp] theorem updLease_ports (n : Nat) (g : Lease → Lease) (s : State) : (updLease n g s).ports = s.ports := by cases s; rfl
@[simp] theorem updLease_ivs (n : Nat) (g : Lease → Lease) (s : State) : (updLease n g s).ivs = s.ivs := by cases s; rfl
@[simp] theorem updLease_hif (n : Nat) (g : Lease → Lease) (s : State) : (updLease n g s).hif = s.hif := by cases s; rfl
@[simp] theorem updLease_chans (n : Nat) (g : Lease → Lease) (s : State) : (updLease n g s).chans = s.chans := by cases s; rfl
@[simp] theorem updLease_sec (n : Nat) (g : Lease → Lease) (s : State) : (updLease n g s).sec = s.sec := by cases s; rfl
@[simp] theorem updLease_secs (n : Nat) (g : Lease → Lease) (s : State) : (updLease n g s).secs = s.secs := by cases s; rfl
@[simp] theorem updLease_secJobs (n : Nat) (g : Lease → Lease) (s : State) : (updLease n g s).secJobs = s.secJobs := by cases s; rfl
@[simp] theorem updLease_lostFids (n : Nat) (g : Lease → Lease) (s : State) : (updLease n g s).lostFids = s.lostFids := by cases s; rfl
@[simp] theorem updLease_mce (n : Nat) (g : Lease → Lease) (s : State) : (updLease n g s).mce = s.mce := by cases s; rfl
@[simp] theorem updLease_evr (n : Nat) (g : Lease → Lease) (s : State) : (updLease n g s).evr = s.evr := by cases s; rfl
@[simp] theorem updLease_out (n : Nat) (g : Lease → Lease) (s : State) : (updLease n g s).out = s.out := by cases s; rfl
@[simp] theorem updLease_freeCtr (n : Nat) (g : Lease → Lease) (s : State) : (updLease n g s).freeCtr = s.freeCtr := by cases s; rfl
@[simp] theorem updLease_pending (n : Nat) (g : Lease → Lease) (s : State) : (updLease n g s).pending = s.pending := by cases s; rfl

/-! ### freeLease -/

@[simp] theorem freeLease_pwr (n : Nat) (s : State) : (freeLease n s).pwr = s.pwr := by cases s; rfl
@[simp] theorem freeLease_regs (n : Nat) (s : State) : (freeLease n s).regs = s.regs := by cases s; rfl
@[simp] theorem freeLease_staged (n : Nat) (s : State) : (freeLease n s).staged = s.staged := by cases s; rfl
@[simp] theorem freeLease_bus (n : Nat) (s : State) : (freeLease n s).bus = s.bus := by cases s; rfl
@[simp] theorem freeLease_mem (n : Nat) (s : State) : (freeLease n s).mem = s.mem := by cases s; rfl
@[simp] theorem freeLease_flash (n : Nat) (s : State) : (freeLease n s).flash = s.flash := by cases s; rfl
@[simp] theorem freeLease_toks (n : Nat) (s : State) : (freeLease n s).toks = s.toks := by cases s; rfl
@[simp] theorem freeLease_queues (n : Nat) (s : State) : (freeLease n s).queues = s.queues := by cases s; rfl
@[simp] theorem freeLease_lastServed (n : Nat) (s : State) : (freeLease n s).lastServed = s.lastServed := by cases s; rfl
@[simp] theorem freeLease_flights (n : Nat) (s : State) : (freeLease n s).flights = s.flights := by cases s; rfl
@[simp] theorem freeLease_nextFid (n : Nat) (s : State) : (freeLease n s).nextFid = s.nextFid := by cases s; rfl
@[simp] theorem freeLease_planners (n : Nat) (s : State) : (freeLease n s).planners = s.planners := by cases s; rfl
@[simp] theorem freeLease_arrs (n : Nat) (s : State) : (freeLease n s).arrs = s.arrs := by cases s; rfl
@[simp] theorem freeLease_stks (n : Nat) (s : State) : (freeLease n s).stks = s.stks := by cases s; rfl
@[simp] theorem freeLease_yard (n : Nat) (s : State) : (freeLease n s).yard = s.yard := by cases s; rfl
@[simp] theorem freeLease_retrain (n : Nat) (s : State) : (freeLease n s).retrain = s.retrain := by cases s; rfl
@[simp] theorem freeLease_exts (n : Nat) (s : State) : (freeLease n s).exts = s.exts := by cases s; rfl
@[simp] theorem freeLease_lends (n : Nat) (s : State) : (freeLease n s).lends = s.lends := by cases s; rfl
@[simp] theorem freeLease_accs (n : Nat) (s : State) : (freeLease n s).accs = s.accs := by cases s; rfl
@[simp] theorem freeLease_nextTag (n : Nat) (s : State) : (freeLease n s).nextTag = s.nextTag := by cases s; rfl
@[simp] theorem freeLease_parts (n : Nat) (s : State) : (freeLease n s).parts = s.parts := by cases s; rfl
@[simp] theorem freeLease_kvs (n : Nat) (s : State) : (freeLease n s).kvs = s.kvs := by cases s; rfl
@[simp] theorem freeLease_lab (n : Nat) (s : State) : (freeLease n s).lab = s.lab := by cases s; rfl
@[simp] theorem freeLease_scn (n : Nat) (s : State) : (freeLease n s).scn = s.scn := by cases s; rfl
@[simp] theorem freeLease_col (n : Nat) (s : State) : (freeLease n s).col = s.col := by cases s; rfl
@[simp] theorem freeLease_ports (n : Nat) (s : State) : (freeLease n s).ports = s.ports := by cases s; rfl
@[simp] theorem freeLease_ivs (n : Nat) (s : State) : (freeLease n s).ivs = s.ivs := by cases s; rfl
@[simp] theorem freeLease_hif (n : Nat) (s : State) : (freeLease n s).hif = s.hif := by cases s; rfl
@[simp] theorem freeLease_chans (n : Nat) (s : State) : (freeLease n s).chans = s.chans := by cases s; rfl
@[simp] theorem freeLease_sec (n : Nat) (s : State) : (freeLease n s).sec = s.sec := by cases s; rfl
@[simp] theorem freeLease_secs (n : Nat) (s : State) : (freeLease n s).secs = s.secs := by cases s; rfl
@[simp] theorem freeLease_secJobs (n : Nat) (s : State) : (freeLease n s).secJobs = s.secJobs := by cases s; rfl
@[simp] theorem freeLease_lostFids (n : Nat) (s : State) : (freeLease n s).lostFids = s.lostFids := by cases s; rfl
@[simp] theorem freeLease_mce (n : Nat) (s : State) : (freeLease n s).mce = s.mce := by cases s; rfl
@[simp] theorem freeLease_evr (n : Nat) (s : State) : (freeLease n s).evr = s.evr := by cases s; rfl
@[simp] theorem freeLease_out (n : Nat) (s : State) : (freeLease n s).out = s.out := by cases s; rfl
@[simp] theorem freeLease_freeCtr (n : Nat) (s : State) : (freeLease n s).freeCtr = s.freeCtr := by cases s; rfl
@[simp] theorem freeLease_pending (n : Nat) (s : State) : (freeLease n s).pending = s.pending := by cases s; rfl

/-! ### setPart -/

@[simp] theorem setPart_pwr (n : Nat) (x : Part) (s : State) : (setPart n x s).pwr = s.pwr := by cases s; rfl
@[simp] theorem setPart_regs (n : Nat) (x : Part) (s : State) : (setPart n x s).regs = s.regs := by cases s; rfl
@[simp] theorem setPart_staged (n : Nat) (x : Part) (s : State) : (setPart n x s).staged = s.staged := by cases s; rfl
@[simp] theorem setPart_bus (n : Nat) (x : Part) (s : State) : (setPart n x s).bus = s.bus := by cases s; rfl
@[simp] theorem setPart_mem (n : Nat) (x : Part) (s : State) : (setPart n x s).mem = s.mem := by cases s; rfl
@[simp] theorem setPart_flash (n : Nat) (x : Part) (s : State) : (setPart n x s).flash = s.flash := by cases s; rfl
@[simp] theorem setPart_toks (n : Nat) (x : Part) (s : State) : (setPart n x s).toks = s.toks := by cases s; rfl
@[simp] theorem setPart_queues (n : Nat) (x : Part) (s : State) : (setPart n x s).queues = s.queues := by cases s; rfl
@[simp] theorem setPart_lastServed (n : Nat) (x : Part) (s : State) : (setPart n x s).lastServed = s.lastServed := by cases s; rfl
@[simp] theorem setPart_flights (n : Nat) (x : Part) (s : State) : (setPart n x s).flights = s.flights := by cases s; rfl
@[simp] theorem setPart_nextFid (n : Nat) (x : Part) (s : State) : (setPart n x s).nextFid = s.nextFid := by cases s; rfl
@[simp] theorem setPart_planners (n : Nat) (x : Part) (s : State) : (setPart n x s).planners = s.planners := by cases s; rfl
@[simp] theorem setPart_arrs (n : Nat) (x : Part) (s : State) : (setPart n x s).arrs = s.arrs := by cases s; rfl
@[simp] theorem setPart_stks (n : Nat) (x : Part) (s : State) : (setPart n x s).stks = s.stks := by cases s; rfl
@[simp] theorem setPart_yard (n : Nat) (x : Part) (s : State) : (setPart n x s).yard = s.yard := by cases s; rfl
@[simp] theorem setPart_retrain (n : Nat) (x : Part) (s : State) : (setPart n x s).retrain = s.retrain := by cases s; rfl
@[simp] theorem setPart_exts (n : Nat) (x : Part) (s : State) : (setPart n x s).exts = s.exts := by cases s; rfl
@[simp] theorem setPart_leases (n : Nat) (x : Part) (s : State) : (setPart n x s).leases = s.leases := by cases s; rfl
@[simp] theorem setPart_lends (n : Nat) (x : Part) (s : State) : (setPart n x s).lends = s.lends := by cases s; rfl
@[simp] theorem setPart_accs (n : Nat) (x : Part) (s : State) : (setPart n x s).accs = s.accs := by cases s; rfl
@[simp] theorem setPart_nextTag (n : Nat) (x : Part) (s : State) : (setPart n x s).nextTag = s.nextTag := by cases s; rfl
@[simp] theorem setPart_kvs (n : Nat) (x : Part) (s : State) : (setPart n x s).kvs = s.kvs := by cases s; rfl
@[simp] theorem setPart_lab (n : Nat) (x : Part) (s : State) : (setPart n x s).lab = s.lab := by cases s; rfl
@[simp] theorem setPart_scn (n : Nat) (x : Part) (s : State) : (setPart n x s).scn = s.scn := by cases s; rfl
@[simp] theorem setPart_col (n : Nat) (x : Part) (s : State) : (setPart n x s).col = s.col := by cases s; rfl
@[simp] theorem setPart_ports (n : Nat) (x : Part) (s : State) : (setPart n x s).ports = s.ports := by cases s; rfl
@[simp] theorem setPart_ivs (n : Nat) (x : Part) (s : State) : (setPart n x s).ivs = s.ivs := by cases s; rfl
@[simp] theorem setPart_hif (n : Nat) (x : Part) (s : State) : (setPart n x s).hif = s.hif := by cases s; rfl
@[simp] theorem setPart_chans (n : Nat) (x : Part) (s : State) : (setPart n x s).chans = s.chans := by cases s; rfl
@[simp] theorem setPart_sec (n : Nat) (x : Part) (s : State) : (setPart n x s).sec = s.sec := by cases s; rfl
@[simp] theorem setPart_secs (n : Nat) (x : Part) (s : State) : (setPart n x s).secs = s.secs := by cases s; rfl
@[simp] theorem setPart_secJobs (n : Nat) (x : Part) (s : State) : (setPart n x s).secJobs = s.secJobs := by cases s; rfl
@[simp] theorem setPart_lostFids (n : Nat) (x : Part) (s : State) : (setPart n x s).lostFids = s.lostFids := by cases s; rfl
@[simp] theorem setPart_mce (n : Nat) (x : Part) (s : State) : (setPart n x s).mce = s.mce := by cases s; rfl
@[simp] theorem setPart_evr (n : Nat) (x : Part) (s : State) : (setPart n x s).evr = s.evr := by cases s; rfl
@[simp] theorem setPart_out (n : Nat) (x : Part) (s : State) : (setPart n x s).out = s.out := by cases s; rfl
@[simp] theorem setPart_freeCtr (n : Nat) (x : Part) (s : State) : (setPart n x s).freeCtr = s.freeCtr := by cases s; rfl
@[simp] theorem setPart_pending (n : Nat) (x : Part) (s : State) : (setPart n x s).pending = s.pending := by cases s; rfl

/-! ### setKv -/

@[simp] theorem setKv_pwr (n : Nat) (x : Kvs) (s : State) : (setKv n x s).pwr = s.pwr := by cases s; rfl
@[simp] theorem setKv_regs (n : Nat) (x : Kvs) (s : State) : (setKv n x s).regs = s.regs := by cases s; rfl
@[simp] theorem setKv_staged (n : Nat) (x : Kvs) (s : State) : (setKv n x s).staged = s.staged := by cases s; rfl
@[simp] theorem setKv_bus (n : Nat) (x : Kvs) (s : State) : (setKv n x s).bus = s.bus := by cases s; rfl
@[simp] theorem setKv_mem (n : Nat) (x : Kvs) (s : State) : (setKv n x s).mem = s.mem := by cases s; rfl
@[simp] theorem setKv_flash (n : Nat) (x : Kvs) (s : State) : (setKv n x s).flash = s.flash := by cases s; rfl
@[simp] theorem setKv_toks (n : Nat) (x : Kvs) (s : State) : (setKv n x s).toks = s.toks := by cases s; rfl
@[simp] theorem setKv_queues (n : Nat) (x : Kvs) (s : State) : (setKv n x s).queues = s.queues := by cases s; rfl
@[simp] theorem setKv_lastServed (n : Nat) (x : Kvs) (s : State) : (setKv n x s).lastServed = s.lastServed := by cases s; rfl
@[simp] theorem setKv_flights (n : Nat) (x : Kvs) (s : State) : (setKv n x s).flights = s.flights := by cases s; rfl
@[simp] theorem setKv_nextFid (n : Nat) (x : Kvs) (s : State) : (setKv n x s).nextFid = s.nextFid := by cases s; rfl
@[simp] theorem setKv_planners (n : Nat) (x : Kvs) (s : State) : (setKv n x s).planners = s.planners := by cases s; rfl
@[simp] theorem setKv_arrs (n : Nat) (x : Kvs) (s : State) : (setKv n x s).arrs = s.arrs := by cases s; rfl
@[simp] theorem setKv_stks (n : Nat) (x : Kvs) (s : State) : (setKv n x s).stks = s.stks := by cases s; rfl
@[simp] theorem setKv_yard (n : Nat) (x : Kvs) (s : State) : (setKv n x s).yard = s.yard := by cases s; rfl
@[simp] theorem setKv_retrain (n : Nat) (x : Kvs) (s : State) : (setKv n x s).retrain = s.retrain := by cases s; rfl
@[simp] theorem setKv_exts (n : Nat) (x : Kvs) (s : State) : (setKv n x s).exts = s.exts := by cases s; rfl
@[simp] theorem setKv_leases (n : Nat) (x : Kvs) (s : State) : (setKv n x s).leases = s.leases := by cases s; rfl
@[simp] theorem setKv_lends (n : Nat) (x : Kvs) (s : State) : (setKv n x s).lends = s.lends := by cases s; rfl
@[simp] theorem setKv_accs (n : Nat) (x : Kvs) (s : State) : (setKv n x s).accs = s.accs := by cases s; rfl
@[simp] theorem setKv_nextTag (n : Nat) (x : Kvs) (s : State) : (setKv n x s).nextTag = s.nextTag := by cases s; rfl
@[simp] theorem setKv_parts (n : Nat) (x : Kvs) (s : State) : (setKv n x s).parts = s.parts := by cases s; rfl
@[simp] theorem setKv_lab (n : Nat) (x : Kvs) (s : State) : (setKv n x s).lab = s.lab := by cases s; rfl
@[simp] theorem setKv_scn (n : Nat) (x : Kvs) (s : State) : (setKv n x s).scn = s.scn := by cases s; rfl
@[simp] theorem setKv_col (n : Nat) (x : Kvs) (s : State) : (setKv n x s).col = s.col := by cases s; rfl
@[simp] theorem setKv_ports (n : Nat) (x : Kvs) (s : State) : (setKv n x s).ports = s.ports := by cases s; rfl
@[simp] theorem setKv_ivs (n : Nat) (x : Kvs) (s : State) : (setKv n x s).ivs = s.ivs := by cases s; rfl
@[simp] theorem setKv_hif (n : Nat) (x : Kvs) (s : State) : (setKv n x s).hif = s.hif := by cases s; rfl
@[simp] theorem setKv_chans (n : Nat) (x : Kvs) (s : State) : (setKv n x s).chans = s.chans := by cases s; rfl
@[simp] theorem setKv_sec (n : Nat) (x : Kvs) (s : State) : (setKv n x s).sec = s.sec := by cases s; rfl
@[simp] theorem setKv_secs (n : Nat) (x : Kvs) (s : State) : (setKv n x s).secs = s.secs := by cases s; rfl
@[simp] theorem setKv_secJobs (n : Nat) (x : Kvs) (s : State) : (setKv n x s).secJobs = s.secJobs := by cases s; rfl
@[simp] theorem setKv_lostFids (n : Nat) (x : Kvs) (s : State) : (setKv n x s).lostFids = s.lostFids := by cases s; rfl
@[simp] theorem setKv_mce (n : Nat) (x : Kvs) (s : State) : (setKv n x s).mce = s.mce := by cases s; rfl
@[simp] theorem setKv_evr (n : Nat) (x : Kvs) (s : State) : (setKv n x s).evr = s.evr := by cases s; rfl
@[simp] theorem setKv_out (n : Nat) (x : Kvs) (s : State) : (setKv n x s).out = s.out := by cases s; rfl
@[simp] theorem setKv_freeCtr (n : Nat) (x : Kvs) (s : State) : (setKv n x s).freeCtr = s.freeCtr := by cases s; rfl
@[simp] theorem setKv_pending (n : Nat) (x : Kvs) (s : State) : (setKv n x s).pending = s.pending := by cases s; rfl

/-! ### setSc -/

@[simp] theorem setSc_pwr (n : Nat) (x : Scn) (s : State) : (setSc n x s).pwr = s.pwr := by cases s; rfl
@[simp] theorem setSc_regs (n : Nat) (x : Scn) (s : State) : (setSc n x s).regs = s.regs := by cases s; rfl
@[simp] theorem setSc_staged (n : Nat) (x : Scn) (s : State) : (setSc n x s).staged = s.staged := by cases s; rfl
@[simp] theorem setSc_bus (n : Nat) (x : Scn) (s : State) : (setSc n x s).bus = s.bus := by cases s; rfl
@[simp] theorem setSc_mem (n : Nat) (x : Scn) (s : State) : (setSc n x s).mem = s.mem := by cases s; rfl
@[simp] theorem setSc_flash (n : Nat) (x : Scn) (s : State) : (setSc n x s).flash = s.flash := by cases s; rfl
@[simp] theorem setSc_toks (n : Nat) (x : Scn) (s : State) : (setSc n x s).toks = s.toks := by cases s; rfl
@[simp] theorem setSc_queues (n : Nat) (x : Scn) (s : State) : (setSc n x s).queues = s.queues := by cases s; rfl
@[simp] theorem setSc_lastServed (n : Nat) (x : Scn) (s : State) : (setSc n x s).lastServed = s.lastServed := by cases s; rfl
@[simp] theorem setSc_flights (n : Nat) (x : Scn) (s : State) : (setSc n x s).flights = s.flights := by cases s; rfl
@[simp] theorem setSc_nextFid (n : Nat) (x : Scn) (s : State) : (setSc n x s).nextFid = s.nextFid := by cases s; rfl
@[simp] theorem setSc_planners (n : Nat) (x : Scn) (s : State) : (setSc n x s).planners = s.planners := by cases s; rfl
@[simp] theorem setSc_arrs (n : Nat) (x : Scn) (s : State) : (setSc n x s).arrs = s.arrs := by cases s; rfl
@[simp] theorem setSc_stks (n : Nat) (x : Scn) (s : State) : (setSc n x s).stks = s.stks := by cases s; rfl
@[simp] theorem setSc_yard (n : Nat) (x : Scn) (s : State) : (setSc n x s).yard = s.yard := by cases s; rfl
@[simp] theorem setSc_retrain (n : Nat) (x : Scn) (s : State) : (setSc n x s).retrain = s.retrain := by cases s; rfl
@[simp] theorem setSc_exts (n : Nat) (x : Scn) (s : State) : (setSc n x s).exts = s.exts := by cases s; rfl
@[simp] theorem setSc_leases (n : Nat) (x : Scn) (s : State) : (setSc n x s).leases = s.leases := by cases s; rfl
@[simp] theorem setSc_lends (n : Nat) (x : Scn) (s : State) : (setSc n x s).lends = s.lends := by cases s; rfl
@[simp] theorem setSc_accs (n : Nat) (x : Scn) (s : State) : (setSc n x s).accs = s.accs := by cases s; rfl
@[simp] theorem setSc_nextTag (n : Nat) (x : Scn) (s : State) : (setSc n x s).nextTag = s.nextTag := by cases s; rfl
@[simp] theorem setSc_parts (n : Nat) (x : Scn) (s : State) : (setSc n x s).parts = s.parts := by cases s; rfl
@[simp] theorem setSc_kvs (n : Nat) (x : Scn) (s : State) : (setSc n x s).kvs = s.kvs := by cases s; rfl
@[simp] theorem setSc_lab (n : Nat) (x : Scn) (s : State) : (setSc n x s).lab = s.lab := by cases s; rfl
@[simp] theorem setSc_col (n : Nat) (x : Scn) (s : State) : (setSc n x s).col = s.col := by cases s; rfl
@[simp] theorem setSc_ports (n : Nat) (x : Scn) (s : State) : (setSc n x s).ports = s.ports := by cases s; rfl
@[simp] theorem setSc_ivs (n : Nat) (x : Scn) (s : State) : (setSc n x s).ivs = s.ivs := by cases s; rfl
@[simp] theorem setSc_hif (n : Nat) (x : Scn) (s : State) : (setSc n x s).hif = s.hif := by cases s; rfl
@[simp] theorem setSc_chans (n : Nat) (x : Scn) (s : State) : (setSc n x s).chans = s.chans := by cases s; rfl
@[simp] theorem setSc_sec (n : Nat) (x : Scn) (s : State) : (setSc n x s).sec = s.sec := by cases s; rfl
@[simp] theorem setSc_secs (n : Nat) (x : Scn) (s : State) : (setSc n x s).secs = s.secs := by cases s; rfl
@[simp] theorem setSc_secJobs (n : Nat) (x : Scn) (s : State) : (setSc n x s).secJobs = s.secJobs := by cases s; rfl
@[simp] theorem setSc_lostFids (n : Nat) (x : Scn) (s : State) : (setSc n x s).lostFids = s.lostFids := by cases s; rfl
@[simp] theorem setSc_mce (n : Nat) (x : Scn) (s : State) : (setSc n x s).mce = s.mce := by cases s; rfl
@[simp] theorem setSc_evr (n : Nat) (x : Scn) (s : State) : (setSc n x s).evr = s.evr := by cases s; rfl
@[simp] theorem setSc_out (n : Nat) (x : Scn) (s : State) : (setSc n x s).out = s.out := by cases s; rfl
@[simp] theorem setSc_freeCtr (n : Nat) (x : Scn) (s : State) : (setSc n x s).freeCtr = s.freeCtr := by cases s; rfl
@[simp] theorem setSc_pending (n : Nat) (x : Scn) (s : State) : (setSc n x s).pending = s.pending := by cases s; rfl

/-! ### setCol -/

@[simp] theorem setCol_pwr (x : Col) (s : State) : (setCol x s).pwr = s.pwr := by cases s; rfl
@[simp] theorem setCol_regs (x : Col) (s : State) : (setCol x s).regs = s.regs := by cases s; rfl
@[simp] theorem setCol_staged (x : Col) (s : State) : (setCol x s).staged = s.staged := by cases s; rfl
@[simp] theorem setCol_bus (x : Col) (s : State) : (setCol x s).bus = s.bus := by cases s; rfl
@[simp] theorem setCol_mem (x : Col) (s : State) : (setCol x s).mem = s.mem := by cases s; rfl
@[simp] theorem setCol_flash (x : Col) (s : State) : (setCol x s).flash = s.flash := by cases s; rfl
@[simp] theorem setCol_toks (x : Col) (s : State) : (setCol x s).toks = s.toks := by cases s; rfl
@[simp] theorem setCol_queues (x : Col) (s : State) : (setCol x s).queues = s.queues := by cases s; rfl
@[simp] theorem setCol_lastServed (x : Col) (s : State) : (setCol x s).lastServed = s.lastServed := by cases s; rfl
@[simp] theorem setCol_flights (x : Col) (s : State) : (setCol x s).flights = s.flights := by cases s; rfl
@[simp] theorem setCol_nextFid (x : Col) (s : State) : (setCol x s).nextFid = s.nextFid := by cases s; rfl
@[simp] theorem setCol_planners (x : Col) (s : State) : (setCol x s).planners = s.planners := by cases s; rfl
@[simp] theorem setCol_arrs (x : Col) (s : State) : (setCol x s).arrs = s.arrs := by cases s; rfl
@[simp] theorem setCol_stks (x : Col) (s : State) : (setCol x s).stks = s.stks := by cases s; rfl
@[simp] theorem setCol_yard (x : Col) (s : State) : (setCol x s).yard = s.yard := by cases s; rfl
@[simp] theorem setCol_retrain (x : Col) (s : State) : (setCol x s).retrain = s.retrain := by cases s; rfl
@[simp] theorem setCol_exts (x : Col) (s : State) : (setCol x s).exts = s.exts := by cases s; rfl
@[simp] theorem setCol_leases (x : Col) (s : State) : (setCol x s).leases = s.leases := by cases s; rfl
@[simp] theorem setCol_lends (x : Col) (s : State) : (setCol x s).lends = s.lends := by cases s; rfl
@[simp] theorem setCol_accs (x : Col) (s : State) : (setCol x s).accs = s.accs := by cases s; rfl
@[simp] theorem setCol_nextTag (x : Col) (s : State) : (setCol x s).nextTag = s.nextTag := by cases s; rfl
@[simp] theorem setCol_parts (x : Col) (s : State) : (setCol x s).parts = s.parts := by cases s; rfl
@[simp] theorem setCol_kvs (x : Col) (s : State) : (setCol x s).kvs = s.kvs := by cases s; rfl
@[simp] theorem setCol_lab (x : Col) (s : State) : (setCol x s).lab = s.lab := by cases s; rfl
@[simp] theorem setCol_scn (x : Col) (s : State) : (setCol x s).scn = s.scn := by cases s; rfl
@[simp] theorem setCol_ports (x : Col) (s : State) : (setCol x s).ports = s.ports := by cases s; rfl
@[simp] theorem setCol_ivs (x : Col) (s : State) : (setCol x s).ivs = s.ivs := by cases s; rfl
@[simp] theorem setCol_hif (x : Col) (s : State) : (setCol x s).hif = s.hif := by cases s; rfl
@[simp] theorem setCol_chans (x : Col) (s : State) : (setCol x s).chans = s.chans := by cases s; rfl
@[simp] theorem setCol_sec (x : Col) (s : State) : (setCol x s).sec = s.sec := by cases s; rfl
@[simp] theorem setCol_secs (x : Col) (s : State) : (setCol x s).secs = s.secs := by cases s; rfl
@[simp] theorem setCol_secJobs (x : Col) (s : State) : (setCol x s).secJobs = s.secJobs := by cases s; rfl
@[simp] theorem setCol_lostFids (x : Col) (s : State) : (setCol x s).lostFids = s.lostFids := by cases s; rfl
@[simp] theorem setCol_mce (x : Col) (s : State) : (setCol x s).mce = s.mce := by cases s; rfl
@[simp] theorem setCol_evr (x : Col) (s : State) : (setCol x s).evr = s.evr := by cases s; rfl
@[simp] theorem setCol_out (x : Col) (s : State) : (setCol x s).out = s.out := by cases s; rfl
@[simp] theorem setCol_freeCtr (x : Col) (s : State) : (setCol x s).freeCtr = s.freeCtr := by cases s; rfl
@[simp] theorem setCol_pending (x : Col) (s : State) : (setCol x s).pending = s.pending := by cases s; rfl

/-! ### setPort -/

@[simp] theorem setPort_pwr (n : Nat) (x : Port) (s : State) : (setPort n x s).pwr = s.pwr := by cases s; rfl
@[simp] theorem setPort_regs (n : Nat) (x : Port) (s : State) : (setPort n x s).regs = s.regs := by cases s; rfl
@[simp] theorem setPort_staged (n : Nat) (x : Port) (s : State) : (setPort n x s).staged = s.staged := by cases s; rfl
@[simp] theorem setPort_bus (n : Nat) (x : Port) (s : State) : (setPort n x s).bus = s.bus := by cases s; rfl
@[simp] theorem setPort_mem (n : Nat) (x : Port) (s : State) : (setPort n x s).mem = s.mem := by cases s; rfl
@[simp] theorem setPort_flash (n : Nat) (x : Port) (s : State) : (setPort n x s).flash = s.flash := by cases s; rfl
@[simp] theorem setPort_toks (n : Nat) (x : Port) (s : State) : (setPort n x s).toks = s.toks := by cases s; rfl
@[simp] theorem setPort_queues (n : Nat) (x : Port) (s : State) : (setPort n x s).queues = s.queues := by cases s; rfl
@[simp] theorem setPort_lastServed (n : Nat) (x : Port) (s : State) : (setPort n x s).lastServed = s.lastServed := by cases s; rfl
@[simp] theorem setPort_flights (n : Nat) (x : Port) (s : State) : (setPort n x s).flights = s.flights := by cases s; rfl
@[simp] theorem setPort_nextFid (n : Nat) (x : Port) (s : State) : (setPort n x s).nextFid = s.nextFid := by cases s; rfl
@[simp] theorem setPort_planners (n : Nat) (x : Port) (s : State) : (setPort n x s).planners = s.planners := by cases s; rfl
@[simp] theorem setPort_arrs (n : Nat) (x : Port) (s : State) : (setPort n x s).arrs = s.arrs := by cases s; rfl
@[simp] theorem setPort_stks (n : Nat) (x : Port) (s : State) : (setPort n x s).stks = s.stks := by cases s; rfl
@[simp] theorem setPort_yard (n : Nat) (x : Port) (s : State) : (setPort n x s).yard = s.yard := by cases s; rfl
@[simp] theorem setPort_retrain (n : Nat) (x : Port) (s : State) : (setPort n x s).retrain = s.retrain := by cases s; rfl
@[simp] theorem setPort_exts (n : Nat) (x : Port) (s : State) : (setPort n x s).exts = s.exts := by cases s; rfl
@[simp] theorem setPort_leases (n : Nat) (x : Port) (s : State) : (setPort n x s).leases = s.leases := by cases s; rfl
@[simp] theorem setPort_lends (n : Nat) (x : Port) (s : State) : (setPort n x s).lends = s.lends := by cases s; rfl
@[simp] theorem setPort_accs (n : Nat) (x : Port) (s : State) : (setPort n x s).accs = s.accs := by cases s; rfl
@[simp] theorem setPort_nextTag (n : Nat) (x : Port) (s : State) : (setPort n x s).nextTag = s.nextTag := by cases s; rfl
@[simp] theorem setPort_parts (n : Nat) (x : Port) (s : State) : (setPort n x s).parts = s.parts := by cases s; rfl
@[simp] theorem setPort_kvs (n : Nat) (x : Port) (s : State) : (setPort n x s).kvs = s.kvs := by cases s; rfl
@[simp] theorem setPort_lab (n : Nat) (x : Port) (s : State) : (setPort n x s).lab = s.lab := by cases s; rfl
@[simp] theorem setPort_scn (n : Nat) (x : Port) (s : State) : (setPort n x s).scn = s.scn := by cases s; rfl
@[simp] theorem setPort_col (n : Nat) (x : Port) (s : State) : (setPort n x s).col = s.col := by cases s; rfl
@[simp] theorem setPort_ivs (n : Nat) (x : Port) (s : State) : (setPort n x s).ivs = s.ivs := by cases s; rfl
@[simp] theorem setPort_hif (n : Nat) (x : Port) (s : State) : (setPort n x s).hif = s.hif := by cases s; rfl
@[simp] theorem setPort_chans (n : Nat) (x : Port) (s : State) : (setPort n x s).chans = s.chans := by cases s; rfl
@[simp] theorem setPort_sec (n : Nat) (x : Port) (s : State) : (setPort n x s).sec = s.sec := by cases s; rfl
@[simp] theorem setPort_secs (n : Nat) (x : Port) (s : State) : (setPort n x s).secs = s.secs := by cases s; rfl
@[simp] theorem setPort_secJobs (n : Nat) (x : Port) (s : State) : (setPort n x s).secJobs = s.secJobs := by cases s; rfl
@[simp] theorem setPort_lostFids (n : Nat) (x : Port) (s : State) : (setPort n x s).lostFids = s.lostFids := by cases s; rfl
@[simp] theorem setPort_mce (n : Nat) (x : Port) (s : State) : (setPort n x s).mce = s.mce := by cases s; rfl
@[simp] theorem setPort_evr (n : Nat) (x : Port) (s : State) : (setPort n x s).evr = s.evr := by cases s; rfl
@[simp] theorem setPort_out (n : Nat) (x : Port) (s : State) : (setPort n x s).out = s.out := by cases s; rfl
@[simp] theorem setPort_freeCtr (n : Nat) (x : Port) (s : State) : (setPort n x s).freeCtr = s.freeCtr := by cases s; rfl
@[simp] theorem setPort_pending (n : Nat) (x : Port) (s : State) : (setPort n x s).pending = s.pending := by cases s; rfl

/-! ### setSec -/

@[simp] theorem setSec_pwr (n : Nat) (x : SecPart) (s : State) : (setSec n x s).pwr = s.pwr := by cases s; rfl
@[simp] theorem setSec_regs (n : Nat) (x : SecPart) (s : State) : (setSec n x s).regs = s.regs := by cases s; rfl
@[simp] theorem setSec_staged (n : Nat) (x : SecPart) (s : State) : (setSec n x s).staged = s.staged := by cases s; rfl
@[simp] theorem setSec_bus (n : Nat) (x : SecPart) (s : State) : (setSec n x s).bus = s.bus := by cases s; rfl
@[simp] theorem setSec_mem (n : Nat) (x : SecPart) (s : State) : (setSec n x s).mem = s.mem := by cases s; rfl
@[simp] theorem setSec_flash (n : Nat) (x : SecPart) (s : State) : (setSec n x s).flash = s.flash := by cases s; rfl
@[simp] theorem setSec_toks (n : Nat) (x : SecPart) (s : State) : (setSec n x s).toks = s.toks := by cases s; rfl
@[simp] theorem setSec_queues (n : Nat) (x : SecPart) (s : State) : (setSec n x s).queues = s.queues := by cases s; rfl
@[simp] theorem setSec_lastServed (n : Nat) (x : SecPart) (s : State) : (setSec n x s).lastServed = s.lastServed := by cases s; rfl
@[simp] theorem setSec_flights (n : Nat) (x : SecPart) (s : State) : (setSec n x s).flights = s.flights := by cases s; rfl
@[simp] theorem setSec_nextFid (n : Nat) (x : SecPart) (s : State) : (setSec n x s).nextFid = s.nextFid := by cases s; rfl
@[simp] theorem setSec_planners (n : Nat) (x : SecPart) (s : State) : (setSec n x s).planners = s.planners := by cases s; rfl
@[simp] theorem setSec_arrs (n : Nat) (x : SecPart) (s : State) : (setSec n x s).arrs = s.arrs := by cases s; rfl
@[simp] theorem setSec_stks (n : Nat) (x : SecPart) (s : State) : (setSec n x s).stks = s.stks := by cases s; rfl
@[simp] theorem setSec_yard (n : Nat) (x : SecPart) (s : State) : (setSec n x s).yard = s.yard := by cases s; rfl
@[simp] theorem setSec_retrain (n : Nat) (x : SecPart) (s : State) : (setSec n x s).retrain = s.retrain := by cases s; rfl
@[simp] theorem setSec_exts (n : Nat) (x : SecPart) (s : State) : (setSec n x s).exts = s.exts := by cases s; rfl
@[simp] theorem setSec_leases (n : Nat) (x : SecPart) (s : State) : (setSec n x s).leases = s.leases := by cases s; rfl
@[simp] theorem setSec_lends (n : Nat) (x : SecPart) (s : State) : (setSec n x s).lends = s.lends := by cases s; rfl
@[simp] theorem setSec_accs (n : Nat) (x : SecPart) (s : State) : (setSec n x s).accs = s.accs := by cases s; rfl
@[simp] theorem setSec_nextTag (n : Nat) (x : SecPart) (s : State) : (setSec n x s).nextTag = s.nextTag := by cases s; rfl
@[simp] theorem setSec_parts (n : Nat) (x : SecPart) (s : State) : (setSec n x s).parts = s.parts := by cases s; rfl
@[simp] theorem setSec_kvs (n : Nat) (x : SecPart) (s : State) : (setSec n x s).kvs = s.kvs := by cases s; rfl
@[simp] theorem setSec_lab (n : Nat) (x : SecPart) (s : State) : (setSec n x s).lab = s.lab := by cases s; rfl
@[simp] theorem setSec_scn (n : Nat) (x : SecPart) (s : State) : (setSec n x s).scn = s.scn := by cases s; rfl
@[simp] theorem setSec_col (n : Nat) (x : SecPart) (s : State) : (setSec n x s).col = s.col := by cases s; rfl
@[simp] theorem setSec_ports (n : Nat) (x : SecPart) (s : State) : (setSec n x s).ports = s.ports := by cases s; rfl
@[simp] theorem setSec_ivs (n : Nat) (x : SecPart) (s : State) : (setSec n x s).ivs = s.ivs := by cases s; rfl
@[simp] theorem setSec_hif (n : Nat) (x : SecPart) (s : State) : (setSec n x s).hif = s.hif := by cases s; rfl
@[simp] theorem setSec_chans (n : Nat) (x : SecPart) (s : State) : (setSec n x s).chans = s.chans := by cases s; rfl
@[simp] theorem setSec_sec (n : Nat) (x : SecPart) (s : State) : (setSec n x s).sec = s.sec := by cases s; rfl
@[simp] theorem setSec_secJobs (n : Nat) (x : SecPart) (s : State) : (setSec n x s).secJobs = s.secJobs := by cases s; rfl
@[simp] theorem setSec_lostFids (n : Nat) (x : SecPart) (s : State) : (setSec n x s).lostFids = s.lostFids := by cases s; rfl
@[simp] theorem setSec_mce (n : Nat) (x : SecPart) (s : State) : (setSec n x s).mce = s.mce := by cases s; rfl
@[simp] theorem setSec_evr (n : Nat) (x : SecPart) (s : State) : (setSec n x s).evr = s.evr := by cases s; rfl
@[simp] theorem setSec_out (n : Nat) (x : SecPart) (s : State) : (setSec n x s).out = s.out := by cases s; rfl
@[simp] theorem setSec_freeCtr (n : Nat) (x : SecPart) (s : State) : (setSec n x s).freeCtr = s.freeCtr := by cases s; rfl
@[simp] theorem setSec_pending (n : Nat) (x : SecPart) (s : State) : (setSec n x s).pending = s.pending := by cases s; rfl

/-! ### setEvr -/

@[simp] theorem setEvr_pwr (x : Evr) (s : State) : (setEvr x s).pwr = s.pwr := by cases s; rfl
@[simp] theorem setEvr_regs (x : Evr) (s : State) : (setEvr x s).regs = s.regs := by cases s; rfl
@[simp] theorem setEvr_staged (x : Evr) (s : State) : (setEvr x s).staged = s.staged := by cases s; rfl
@[simp] theorem setEvr_bus (x : Evr) (s : State) : (setEvr x s).bus = s.bus := by cases s; rfl
@[simp] theorem setEvr_mem (x : Evr) (s : State) : (setEvr x s).mem = s.mem := by cases s; rfl
@[simp] theorem setEvr_flash (x : Evr) (s : State) : (setEvr x s).flash = s.flash := by cases s; rfl
@[simp] theorem setEvr_toks (x : Evr) (s : State) : (setEvr x s).toks = s.toks := by cases s; rfl
@[simp] theorem setEvr_queues (x : Evr) (s : State) : (setEvr x s).queues = s.queues := by cases s; rfl
@[simp] theorem setEvr_lastServed (x : Evr) (s : State) : (setEvr x s).lastServed = s.lastServed := by cases s; rfl
@[simp] theorem setEvr_flights (x : Evr) (s : State) : (setEvr x s).flights = s.flights := by cases s; rfl
@[simp] theorem setEvr_nextFid (x : Evr) (s : State) : (setEvr x s).nextFid = s.nextFid := by cases s; rfl
@[simp] theorem setEvr_planners (x : Evr) (s : State) : (setEvr x s).planners = s.planners := by cases s; rfl
@[simp] theorem setEvr_arrs (x : Evr) (s : State) : (setEvr x s).arrs = s.arrs := by cases s; rfl
@[simp] theorem setEvr_stks (x : Evr) (s : State) : (setEvr x s).stks = s.stks := by cases s; rfl
@[simp] theorem setEvr_yard (x : Evr) (s : State) : (setEvr x s).yard = s.yard := by cases s; rfl
@[simp] theorem setEvr_retrain (x : Evr) (s : State) : (setEvr x s).retrain = s.retrain := by cases s; rfl
@[simp] theorem setEvr_exts (x : Evr) (s : State) : (setEvr x s).exts = s.exts := by cases s; rfl
@[simp] theorem setEvr_leases (x : Evr) (s : State) : (setEvr x s).leases = s.leases := by cases s; rfl
@[simp] theorem setEvr_lends (x : Evr) (s : State) : (setEvr x s).lends = s.lends := by cases s; rfl
@[simp] theorem setEvr_accs (x : Evr) (s : State) : (setEvr x s).accs = s.accs := by cases s; rfl
@[simp] theorem setEvr_nextTag (x : Evr) (s : State) : (setEvr x s).nextTag = s.nextTag := by cases s; rfl
@[simp] theorem setEvr_parts (x : Evr) (s : State) : (setEvr x s).parts = s.parts := by cases s; rfl
@[simp] theorem setEvr_kvs (x : Evr) (s : State) : (setEvr x s).kvs = s.kvs := by cases s; rfl
@[simp] theorem setEvr_lab (x : Evr) (s : State) : (setEvr x s).lab = s.lab := by cases s; rfl
@[simp] theorem setEvr_scn (x : Evr) (s : State) : (setEvr x s).scn = s.scn := by cases s; rfl
@[simp] theorem setEvr_col (x : Evr) (s : State) : (setEvr x s).col = s.col := by cases s; rfl
@[simp] theorem setEvr_ports (x : Evr) (s : State) : (setEvr x s).ports = s.ports := by cases s; rfl
@[simp] theorem setEvr_ivs (x : Evr) (s : State) : (setEvr x s).ivs = s.ivs := by cases s; rfl
@[simp] theorem setEvr_hif (x : Evr) (s : State) : (setEvr x s).hif = s.hif := by cases s; rfl
@[simp] theorem setEvr_chans (x : Evr) (s : State) : (setEvr x s).chans = s.chans := by cases s; rfl
@[simp] theorem setEvr_sec (x : Evr) (s : State) : (setEvr x s).sec = s.sec := by cases s; rfl
@[simp] theorem setEvr_secs (x : Evr) (s : State) : (setEvr x s).secs = s.secs := by cases s; rfl
@[simp] theorem setEvr_secJobs (x : Evr) (s : State) : (setEvr x s).secJobs = s.secJobs := by cases s; rfl
@[simp] theorem setEvr_lostFids (x : Evr) (s : State) : (setEvr x s).lostFids = s.lostFids := by cases s; rfl
@[simp] theorem setEvr_mce (x : Evr) (s : State) : (setEvr x s).mce = s.mce := by cases s; rfl
@[simp] theorem setEvr_out (x : Evr) (s : State) : (setEvr x s).out = s.out := by cases s; rfl
@[simp] theorem setEvr_freeCtr (x : Evr) (s : State) : (setEvr x s).freeCtr = s.freeCtr := by cases s; rfl
@[simp] theorem setEvr_pending (x : Evr) (s : State) : (setEvr x s).pending = s.pending := by cases s; rfl

/-! ### tickFree -/

@[simp] theorem tickFree_pwr (s : State) : (tickFree s).pwr = s.pwr := by cases s; rfl
@[simp] theorem tickFree_regs (s : State) : (tickFree s).regs = s.regs := by cases s; rfl
@[simp] theorem tickFree_staged (s : State) : (tickFree s).staged = s.staged := by cases s; rfl
@[simp] theorem tickFree_bus (s : State) : (tickFree s).bus = s.bus := by cases s; rfl
@[simp] theorem tickFree_mem (s : State) : (tickFree s).mem = s.mem := by cases s; rfl
@[simp] theorem tickFree_flash (s : State) : (tickFree s).flash = s.flash := by cases s; rfl
@[simp] theorem tickFree_toks (s : State) : (tickFree s).toks = s.toks := by cases s; rfl
@[simp] theorem tickFree_queues (s : State) : (tickFree s).queues = s.queues := by cases s; rfl
@[simp] theorem tickFree_lastServed (s : State) : (tickFree s).lastServed = s.lastServed := by cases s; rfl
@[simp] theorem tickFree_flights (s : State) : (tickFree s).flights = s.flights := by cases s; rfl
@[simp] theorem tickFree_nextFid (s : State) : (tickFree s).nextFid = s.nextFid := by cases s; rfl
@[simp] theorem tickFree_planners (s : State) : (tickFree s).planners = s.planners := by cases s; rfl
@[simp] theorem tickFree_arrs (s : State) : (tickFree s).arrs = s.arrs := by cases s; rfl
@[simp] theorem tickFree_stks (s : State) : (tickFree s).stks = s.stks := by cases s; rfl
@[simp] theorem tickFree_yard (s : State) : (tickFree s).yard = s.yard := by cases s; rfl
@[simp] theorem tickFree_retrain (s : State) : (tickFree s).retrain = s.retrain := by cases s; rfl
@[simp] theorem tickFree_exts (s : State) : (tickFree s).exts = s.exts := by cases s; rfl
@[simp] theorem tickFree_leases (s : State) : (tickFree s).leases = s.leases := by cases s; rfl
@[simp] theorem tickFree_lends (s : State) : (tickFree s).lends = s.lends := by cases s; rfl
@[simp] theorem tickFree_accs (s : State) : (tickFree s).accs = s.accs := by cases s; rfl
@[simp] theorem tickFree_nextTag (s : State) : (tickFree s).nextTag = s.nextTag := by cases s; rfl
@[simp] theorem tickFree_parts (s : State) : (tickFree s).parts = s.parts := by cases s; rfl
@[simp] theorem tickFree_kvs (s : State) : (tickFree s).kvs = s.kvs := by cases s; rfl
@[simp] theorem tickFree_lab (s : State) : (tickFree s).lab = s.lab := by cases s; rfl
@[simp] theorem tickFree_scn (s : State) : (tickFree s).scn = s.scn := by cases s; rfl
@[simp] theorem tickFree_col (s : State) : (tickFree s).col = s.col := by cases s; rfl
@[simp] theorem tickFree_ports (s : State) : (tickFree s).ports = s.ports := by cases s; rfl
@[simp] theorem tickFree_ivs (s : State) : (tickFree s).ivs = s.ivs := by cases s; rfl
@[simp] theorem tickFree_hif (s : State) : (tickFree s).hif = s.hif := by cases s; rfl
@[simp] theorem tickFree_chans (s : State) : (tickFree s).chans = s.chans := by cases s; rfl
@[simp] theorem tickFree_sec (s : State) : (tickFree s).sec = s.sec := by cases s; rfl
@[simp] theorem tickFree_secs (s : State) : (tickFree s).secs = s.secs := by cases s; rfl
@[simp] theorem tickFree_secJobs (s : State) : (tickFree s).secJobs = s.secJobs := by cases s; rfl
@[simp] theorem tickFree_lostFids (s : State) : (tickFree s).lostFids = s.lostFids := by cases s; rfl
@[simp] theorem tickFree_mce (s : State) : (tickFree s).mce = s.mce := by cases s; rfl
@[simp] theorem tickFree_evr (s : State) : (tickFree s).evr = s.evr := by cases s; rfl
@[simp] theorem tickFree_out (s : State) : (tickFree s).out = s.out := by cases s; rfl
@[simp] theorem tickFree_pending (s : State) : (tickFree s).pending = s.pending := by cases s; rfl

/-! ### The field that an update writes -/

@[simp] theorem poke_mem (a : Nat) (bs : List Byte) (s : State) : (poke a bs s).mem = putBytes memDefault s.mem a bs := rfl
@[simp] theorem flashPut_flash (a : Nat) (bs : List Byte) (s : State) : (flashPut a bs s).flash = putBytes flashDefault s.flash a bs := rfl
@[simp] theorem setTok_toks (n : Nat) (x : Token) (s : State) : (setTok n x s).toks = tabSet tokenDefault s.toks n x := rfl
@[simp] theorem setQu_queues (n : Nat) (x : Queue) (s : State) : (setQu n x s).queues = tabSet queueDefault s.queues n x := rfl
@[simp] theorem updFlight_flights (n : Nat) (g : Flight → Flight) (s : State) : (updFlight n g s).flights = s.flights.map (updOne n g) := rfl
@[simp] theorem setArr_arrs (n : Nat) (x : Arr) (s : State) : (setArr n x s).arrs = tabSet arrDefault s.arrs n x := rfl
@[simp] theorem setExt_exts (n : Nat) (x : Ext) (s : State) : (setExt n x s).exts = tabSet extDefault s.exts n x := rfl
@[simp] theorem freeLease_leases (n : Nat) (s : State) : (freeLease n s).leases = s.leases.filter fun l => l.first != n := rfl
@[simp] theorem setPart_parts (n : Nat) (x : Part) (s : State) : (setPart n x s).parts = tabSet partDefault s.parts n x := rfl
@[simp] theorem setKv_kvs (n : Nat) (x : Kvs) (s : State) : (setKv n x s).kvs = tabSet kvsDefault s.kvs n x := rfl
@[simp] theorem setSc_scn (n : Nat) (x : Scn) (s : State) : (setSc n x s).scn = tabSet scnDefault s.scn n x := rfl
@[simp] theorem setCol_col (x : Col) (s : State) : (setCol x s).col = x := rfl
@[simp] theorem setPort_ports (n : Nat) (x : Port) (s : State) : (setPort n x s).ports = tabSet portDefault s.ports n x := rfl
@[simp] theorem setSec_secs (n : Nat) (x : SecPart) (s : State) : (setSec n x s).secs = tabSet secPartDefault s.secs n x := rfl
@[simp] theorem setEvr_evr (x : Evr) (s : State) : (setEvr x s).evr = x := rfl
@[simp] theorem tickFree_freeCtr (s : State) : (tickFree s).freeCtr = s.freeCtr + 1 := rfl

end Sys2Proof.Machine
end

