-- ==== Sys2Proof/Machine/Dram.lean ====
section
/-!
DEFINITION. Where a byte lies and what the DRAM holds: the placement of HBM, LPDDR and scratch addresses (R222, R223, R226), and the
encrypted blocks, tag words and freshness nodes (R368 to R372). `State.mem` holds the plaintext; what the DRAM holds is a function of
the state, given here for every block whose key set is live (log entry 109).
-/
namespace Sys2Proof.Machine

/-! ### Placement (R222, R223, R226) -/

/-- Where a 512 B unit lies in a stack or package: the pseudo-channel or channel; the stack id or the rank; bank group, bank, row, and
the part of the row. -/
structure DramPlace where
  chan : Nat
  rank : Nat
  bg : Nat
  ba : Nat
  row : Nat
  col : Nat
deriving DecidableEq, Repr

/-- The place of an address of a stack's data region (R222). -/
def hbmPlace (a : Nat) : DramPlace :=
  let u := bits 35 9 a
  let w := bits 26 6 u
  let row := bits 20 7 w
  { chan := bits 5 0 u, rank := bits 6 5 w ^^^ bits 5 4 row, bg := bits 2 1 w ^^^ bits 1 0 row, ba := bits 4 3 w ^^^ bits 3 2 row,
    row := row, col := bits 0 0 w }

/-- The place of an address of a package's data region (R223). -/
def lpdPlace (a : Nat) : DramPlace :=
  let u := bits 35 9 a
  let w := bits 26 2 u
  let row := bits 24 7 w
  { chan := bits 1 0 u, rank := bits 6 6 w ^^^ bits 4 4 row, bg := bits 3 2 w ^^^ bits 1 0 row, ba := bits 5 4 w ^^^ bits 3 2 row,
    row := row, col := bits 1 0 w }

/-- The slice and the position of the line that holds scratch offset `q` of a way (R226). -/
def scratchPlace (q : Nat) : Nat × Nat :=
  let l := bits 24 9 q
  (bits 3 0 l ^^^ bits 7 4 l, l / 16)

/-! ### Encrypted blocks and their tags (R368 to R371) -/

/-- The key set of an epoch that serves a block, by the state of its extent; none where the epoch is not live (R368, R376). -/
def blockKeys (s : State) (u ep : Nat) : Option KeySet :=
  let own (p : Nat) : Option KeySet :=
    let c := tabGet secPartDefault s.secs p
    if ep = c.cur then some c.curSet else if c.sweeping ∧ ep = c.old then some c.oldSet else none
  match tabGet extDefault s.exts (u / 2 ^ 21) with
  | .assigned p => own p
  | .zeroing p => own p
  | .lendable => if ep = 0 then some s.sec.lend else none
  | .lent => if ep = 0 then some s.sec.lend else none
  | _ => none

/-- The ciphertext of a block: AES-256-XTS of its 512 B, whose unit number is A[47:9] (R369). -/
def blockCipher (s : State) (u : Nat) : Option (List Byte) :=
  (blockKeys s u (blkMeta s u).epoch).map fun k => xtsEncrypt k.kx1 k.kx2 u (rdBytes s (512 * u) 512)

/-- The freshness value of child `i` of a node: major and minor counter, 55 bits (R372). -/
def freshOf (n : Node) (i : Nat) : Nat := n.major % 2 ^ 49 * 64 + tabGet baseDefault n.minors i

/-- The freshness node `n` of a level of a package's tree (Table 16.3). -/
def nodeAt (s : State) (pkg level n : Nat) : Node := tabGet nodeDefault s.mce.nodes (nodeKey pkg level n)

/-- The freshness value of a block: 0 in HBM (R370, R372). -/
def blockFresh (s : State) (u : Nat) : Nat :=
  if u < 2 ^ 31 then 0 else freshOf (nodeAt s ((u - 2 ^ 31) / 2 ^ 27) 1 (u % 2 ^ 27 / 64)) (u % 64)

/-- The IV of a block's tag (R370). -/
def tagIv (s : State) (u ep : Nat) : List Byte := toLE 12 (u + ep * 2 ^ 39 + blockFresh s u * 2 ^ 41)

/-- The address of a block's tag word (R370). -/
def tagAddr (u : Nat) : Nat :=
  if u < 2 ^ 30 then u / 2 ^ 27 * 2 ^ 36 + 0xFC0000000 + 8 * (u % 2 ^ 27)
  else 2 ^ 40 + (u - 2 ^ 31) / 2 ^ 27 * 2 ^ 36 + 0xF80000000 + 8 * (u % 2 ^ 27)

/-- The tag word of a block: its epoch, and the 62 leading bits of the GMAC of its ciphertext (R370). A block that fails its check holds
their complement. -/
def tagWord (s : State) (u : Nat) : Option Nat :=
  let m := blkMeta s u
  match blockKeys s u m.epoch, blockCipher s u with
  | some k, some c =>
    let g := ofBE (gmac k.kt (tagIv s u m.epoch) c) / 2 ^ 66
    some (m.epoch + 4 * (if m.bad then 2 ^ 62 - 1 - g else g))
  | _, _ => none

/-! ### Freshness nodes (R372) -/

/-- Bytes 0 to 55 of a node: the major counter and the 64 minor counters. -/
def nodeBytes (n : Node) : List Byte :=
  toLE 8 (n.major % 2 ^ 49) ++ toLE 48 ((List.range 64).foldl (fun a i => a + tabGet baseDefault n.minors i * 2 ^ (6 * i)) 0)

/-- The offset in its package of node `n` of level 1, 2 or 3 (Table 16.3); the root is on die. -/
def nodeOffset (level n : Nat) : Nat :=
  (if level = 1 then 0xFBE000000 else if level = 2 then 0xFC5C00000 else 0xFC5DF0000) + 64 * n

/-- The IV of a node's tag: its place in the package, the package, and its own freshness value in its parent. -/
def nodeIv (s : State) (pkg level n : Nat) : List Byte :=
  toLE 12 (nodeOffset level n / 64 + pkg * 2 ^ 30 + freshOf (nodeAt s pkg (level + 1) (n / 64)) (n % 64) * 2 ^ 34)

/-- The 64 B of a node that the package holds: its counters, and the leading half of their GMAC under the package's node key. A node that
fails its check holds the complement. -/
def nodeImage (s : State) (pkg level n : Nat) : List Byte :=
  let x := nodeAt s pkg level n
  let g := ofBE (gmac (s.sec.node.getD pkg keyZero) (nodeIv s pkg level n) (nodeBytes x)) / 2 ^ 64
  nodeBytes x ++ toLE 8 (if x.bad then 2 ^ 64 - 1 - g else g)

end Sys2Proof.Machine
end

