-- ==== Sys2Proof/WellFormed.lean ====
section
/-!
DEFINITION. Well-formed commands: every operand lies in the range that the spec gives the thing it names (partitions
0 to 15, queues 0 to 15, tokens 0 to 8191, arrays 0 to 159, ports, flits of 268 bytes, ...).
-/
namespace Sys2Proof

/-- A flit is 268 bytes (R282). -/
def flitWf (bytes : List Byte) : Bool := decide (bytes.length = 268)

/-- The addresses and the payload of a datagram have their widths. -/
def datagramWf (d : Datagram) : Bool :=
  decide (d.port < 2 ∧ d.dst < 2 ^ 128 ∧ d.dport < 2 ^ 16 ∧ d.data.length < 2 ^ 16)

/-- Fuse values have their widths. -/
def fusesWf (f : Fuses) : Bool :=
  decide (f.stepping < 256 ∧ f.modrev < 256 ∧ f.mac0 < 2 ^ 48 ∧ f.mac1 < 2 ^ 48 ∧ f.ch0Digest.length = 12 ∧
    f.minVersion < 2 ^ 16 ∧ f.keyHash.length = 48 ∧ 0 < f.idk ∧ f.idk < 2 ^ 384 ∧ f.idCert.length = 256)

/-- The masks of a boot attempt name units the device has. -/
def bootObsWf (a : BootObs) : Bool :=
  decide (a.failedStacks < 2 ^ 8 ∧ a.failedPkgs < 2 ^ 16 ∧ a.failedArrays < 2 ^ 160 ∧ a.failedFab < 2 ^ 16 ∧
    a.failedHost < 4)

/-- Every operand of the command is in range. -/
def Instr.wf (i : Instr) : Bool :=
  match i with
  | .powerUp f _ a => fusesWf f && bootObsWf a
  | .bootBackoffExpiry a => bootObsWf a
  | .powerFail => true
  | .modResetAssert => true
  | .limiterInterval _ _ _ => true
  | .limiterUndo => true
  | .thermalFault => true
  | .thermalFaultClear => true
  | .voltageGuardStretch island => decide (island < 242)
  | .adaptiveIdleStep arr => decide (arr < 160)
  | .jtagOpeningInstruction _ _ => true
  | .registerWrite part addr _ => decide (part < 16 ∧ addr < 2 ^ 48)
  | .pageCommit part addr _ => decide (part < 16 ∧ addr < 2 ^ 48)
  | .pageReset part addr => decide (part < 16 ∧ addr < 2 ^ 48)
  | .pageEnable part addr _ => decide (part < 16 ∧ addr < 2 ^ 48)
  | .pageQuiesce part addr _ => decide (part < 16 ∧ addr < 2 ^ 48)
  | .pageErrClear part addr _ => decide (part < 16 ∧ addr < 2 ^ 48)
  | .dspQTailWrite part q _ => decide (part < 16 ∧ q < 16)
  | .runSet part q => decide (part < 16 ∧ q < 16)
  | .runClear part q => decide (part < 16 ∧ q < 16)
  | .resume part q => decide (part < 16 ∧ q < 16)
  | .flush part q => decide (part < 16 ∧ q < 16)
  | .tokenSetWrite part tok data => decide (part < 16 ∧ tok < 8192 ∧ data < 2 ^ 64)
  | .tokenAddRead part tok => decide (part < 16 ∧ tok < 8192)
  | .tokenAddWrite part tok data => decide (part < 16 ∧ tok < 8192 ∧ data < 2 ^ 64)
  | .tokenTestDecRead part tok => decide (part < 16 ∧ tok < 8192)
  | .tokenTestDecWrite part tok data => decide (part < 16 ∧ tok < 8192 ∧ data < 2 ^ 64)
  | .tokenCasWrite part tok data => decide (part < 16 ∧ tok < 8192 ∧ data < 2 ^ 64)
  | .arrSnap part arr => decide (part < 16 ∧ arr < 160)
  | .arrClear part arr _ => decide (part < 16 ∧ arr < 160)
  | .stkSnap part stk => decide (part < 16 ∧ stk < 8)
  | .stkClear part stk _ => decide (part < 16 ∧ stk < 8)
  | .tplClear part planner => decide (part < 16 ∧ planner < 16)
  | .clearPeak part => decide (part < 16)
  | .memReclaim part _ => decide (part < 16)
  | .dispatchIssue => true
  | .descriptorComplete _ => true
  | .move _ => true
  | .gemm _ => true
  | .conv _ => true
  | .attn _ => true
  | .kvapp _ => true
  | .scan _ => true
  | .reduce _ => true
  | .coll _ => true
  | .ewise _ => true
  | .stats _ => true
  | .swapOut _ => true
  | .swapIn _ => true
  | .swapSync _ => true
  | .fence q => decide (q < 16)
  | .tokenSet _ => true
  | .tokenAdd _ => true
  | .tokenAcquire _ => true
  | .leaseAcquire _ => true
  | .leaseRelease _ => true
  | .check _ => true
  | .plannerTake => true
  | .runStart => true
  | .chunkDelivery arr _ => decide (arr < 160)
  | .preloadStall arr => decide (arr < 160)
  | .tileDrain arr => decide (arr < 160)
  | .stagingWriteAck arr => decide (arr < 160)
  | .partialCombine _ => true
  | .overflowReplay _ => true
  | .shadowRecompute _ => true
  | .engineUnitStart _ => true
  | .kvappItem _ => true
  | .attnCapture _ => true
  | .attnSequenceRun _ => true
  | .kvsCmdOpen part stream => decide (part < 16 ∧ stream < 65536)
  | .kvsCmdClose part stream => decide (part < 16 ∧ stream < 65536)
  | .kvsCmdUnpark part stream => decide (part < 16 ∧ stream < 65536)
  | .kvsCmdTrim part stream => decide (part < 16 ∧ stream < 65536)
  | .kvsCmdSetBudget part stream => decide (part < 16 ∧ stream < 65536)
  | .kvsCmdAddFrames part => decide (part < 16)
  | .kvsCmdReleased part => decide (part < 16)
  | .scanAdmit part => decide (part < 16)
  | .scanChunk _ _ _ => true
  | .streamSwapIn part stream => decide (part < 16 ∧ stream < 2 ^ 20)
  | .swapInComplete part stream => decide (part < 16 ∧ stream < 2 ^ 20)
  | .swapOutComplete part stream => decide (part < 16 ∧ stream < 2 ^ 20)
  | .scnCmdOpen part stream => decide (part < 16 ∧ stream < 2 ^ 20)
  | .scnCmdClose part stream => decide (part < 16 ∧ stream < 2 ^ 20)
  | .scnCmdZero part stream => decide (part < 16 ∧ stream < 2 ^ 20)
  | .scnCmdReleased part => decide (part < 16)
  | .collStart _ => true
  | .segmentSend ctx tree => decide (ctx < 64 ∧ tree < 2)
  | .segDown port => decide (port < 16)
  | .verdict port => decide (port < 16)
  | .collVerdictTimeout ctx => decide (ctx < 64)
  | .colCmdOpen part group => decide (part < 16 ∧ group < 4096)
  | .colCmdClose part group => decide (part < 16 ∧ group < 4096)
  | .colCmdAbort part group => decide (part < 16 ∧ group < 4096)
  | .colCloseReleased part => decide (part < 16)
  | .lreq port => decide (port < 16)
  | .lgrant port => decide (port < 16)
  | .lrefuse port => decide (port < 16)
  | .lkeep port => decide (port < 16)
  | .lrel port => decide (port < 16)
  | .lrelack port => decide (port < 16)
  | .lrecl port => decide (port < 16)
  | .lunknown port => decide (port < 16)
  | .lrd port => decide (port < 16)
  | .lwr port => decide (port < 16)
  | .lrdata port => decide (port < 16)
  | .lwack port => decide (port < 16)
  | .leaseAnswerTimeout slot => decide (slot < 4096)
  | .leaseKeepTimer slot => decide (slot < 4096)
  | .leaseLostTimeout slot => decide (slot < 4096)
  | .lenderKeepTimeout _ => true
  | .reclaimGraceEnd _ => true
  | .releaseLrelSend slot => decide (slot < 4096)
  | .releaseAckTimeout slot => decide (slot < 4096)
  | .sequencedFlitReceive port bytes _ _ => decide (port < 16 ∧ flitWf bytes)
  | .nakReceive port bytes _ => decide (port < 16 ∧ flitWf bytes)
  | .replayTimeout port => decide (port < 16)
  | .messageSend port => decide (port < 16)
  | .escapeTimeout port lane => decide (port < 16 ∧ lane < 4)
  | .retrainRequest port bytes _ => decide (port < 16 ∧ flitWf bytes)
  | .pcsLockLoss port => decide (port < 16)
  | .marginCheck port _ _ => decide (port < 16)
  | .pmdTrainDone port _ => decide (port < 16)
  | .pcsLockDone port _ => decide (port < 16)
  | .trainFlitReceive port bytes _ => decide (port < 16 ∧ flitWf bytes)
  | .authFlitReceive port bytes _ => decide (port < 16 ∧ flitWf bytes)
  | .authTimeout port => decide (port < 16)
  | .portBackoffExpiry port => decide (port < 16)
  | .icmpv6NeighborSolicitation port _ _ => decide (port < 2)
  | .icmpv6EchoRequest port _ _ _ => decide (port < 2)
  | .hello d => datagramWf d
  | .finish d => datagramWf d
  | .handshakeTimeout sid => decide (sid < 2 ^ 32)
  | .close d => datagramWf d
  | .ackonly d => datagramWf d
  | .reg d => datagramWf d
  | .submit d => datagramWf d
  | .bulkWr d => datagramWf d
  | .bulkRd d => datagramWf d
  | .subscribe d => datagramWf d
  | .moveFill d => datagramWf d
  | .movePullTimeout _ => true
  | .deviceResend chan _ => decide (chan < 64)
  | .ackDelayExpiry chan => decide (chan < 64)
  | .sessionLossTimeout chan => decide (chan < 64)
  | .sessionIdleTimeout chan => decide (chan < 64)
  | .memoryRetrainStart lpddr unit ch _ => if lpddr then decide (unit < 16 ∧ ch < 4) else decide (unit < 8 ∧ ch < 64)
  | .memoryRetrainEnd lpddr unit ch _ _ _ => if lpddr then decide (unit < 16 ∧ ch < 4) else decide (unit < 8 ∧ ch < 64)
  | .wayZeroiseDone way => decide (way < 16)
  | .yardScrub _ => true
  | .arrayUncorrectedError arr _ _ => decide (arr < 160)
  | .stackEngineFault stk _ => decide (stk < 8)
  | .yardScratchError way _ => decide (way < 16)
  | .sharedUnitError _ _ _ _ _ _ => true
  | .hopStallFailure segment parts _ => decide (segment < 8 ∧ parts < 2 ^ 16)
  | .prtCreate part p _ => decide (part < 16 ∧ p < 16)
  | .prtDestroy part p => decide (part < 16 ∧ p < 16)
  | .prtSuspend part p => decide (part < 16 ∧ p < 16)
  | .quietPoint p => decide (p < 16)
  | .saveComplete p _ => decide (p < 16)
  | .prtResume part p => decide (part < 16 ∧ p < 16)
  | .restoreComplete p => decide (p < 16)
  | .prtRestart part p _ => decide (part < 16 ∧ p < 16)
  | .assign part _ => decide (part < 16)
  | .unassign part => decide (part < 16)
  | .lend part => decide (part < 16)
  | .extentZeroed ext => decide (ext < 2048)
  | .arrayLeaveDone arr => decide (arr < 160)
  | .rotate part => decide (part < 16)
  | .attestP part => decide (part < 16)
  | .measure part => decide (part < 16)
  | .bind part => decide (part < 16)
  | .jobkeyLoad part => decide (part < 16)
  | .jobkeyClear part => decide (part < 16)
  | .attestD part => decide (part < 16)
  | .sweepBlock part mce => decide (part < 16 ∧ mce < 24)
  | .sweepEnd part => decide (part < 16)
  | .installA part _ => decide (part < 16)
  | .installB part _ => decide (part < 16)
  | .bootStaged part => decide (part < 16)
  | .eventRecord _ => true
  | .deferredFlushStart => true
  | .flushWriteComplete => true
  | .frameErase => true
  | .evrFlush part => decide (part < 16)
  | .dump part => decide (part < 16)
  | .ringRead part frame => decide (part < 16 ∧ frame < 32)
  | .evrClear part => decide (part < 16)
  | .hostPortLinkChange port _ => decide (port < 2)
  | .hostFrameDrop port => decide (port < 2)
  | .stackLinkRetrainEnd stk _ => decide (stk < 8)
  | .sealSenseChange _ => true
  | .mr4TemperatureReport _ _ _ => true
  | .endOfRunSwap arr _ _ _ => decide (arr < 160)

end Sys2Proof
end

