-- ==== Sys2Proof/Tests/Slice0.lean ====
section
/-!
SUPPORT. Tests of the model, each on a small state: WellFormed refuses what it should; for every statement with hypotheses a
state and operands that meet them; and single commands against the numbers of the spec.
-/
namespace Sys2Proof.Tests
open Sys2Proof.Machine

-- One test at a time: each runs in the kernel.
set_option Elab.async false

-- The kernel evaluates hashes and signatures, whose terms are deep.
set_option maxRecDepth 100000

/-! ### Building states -/

/-- Sixty-four bytes (or `n`) with the fields given as offset, length and value. -/
def bytesWith (n : Nat) (l : List (Nat × Nat × Nat)) : List Byte :=
  (List.range n).map fun i => BitVec.ofNat 8 (l.foldl (fun a x => if x.1 ≤ i ∧ i < x.1 + x.2.1 then x.2.2 / 256 ^ (i - x.1) else a) 0)

/-- A capture of nothing. -/
def capNone : Capture := ⟨0, 0, [], 0, [], []⟩

/-- A descriptor in flight. -/
def flight (fid q : Nat) (st : Station) (b : List Byte) : Flight := ⟨fid, q, 0, 0, 0, 0, b, capNone, 1, st, none, .none, none, 0, 0⟩

/-- The device runs; boot has not reached DONE. -/
def booting : State := { State.reset with pwr := { State.reset.pwr with mode := .running } }

/-- The device runs, boot is DONE. -/
def up : State := st pgBoot Fld.BOOT_STATE_STEP 10 booting

/-- The state with descriptors in flight. -/
def flying (l : List Flight) (s : State) : State := { s with flights := l, nextFid := l.length }

/-- What Canonical asks, as a test. -/
def canonical (s : State) : Bool :=
  Memory.wf s.mem && tabWf resetWord s.regs && tabWf resetWord s.staged && tabWf flashDefault s.flash &&
  tabWf tokenDefault s.toks && tabWf queueDefault s.queues && tabWf arrDefault s.arrs && tabWf stkDefault s.stks &&
  tabWf extDefault s.exts && tabWf partDefault s.parts && tabWf kvsDefault s.kvs && tabWf scnDefault s.scn &&
  tabWf portDefault s.ports && decide (s.flights.Pairwise fun f g => f.fid < g.fid) &&
  s.flights.all fun f => decide (f.fid < s.nextFid)

theorem canonical_of {s : State} (h : canonical s = true) : Canonical s := by
  simp only [canonical, Bool.and_eq_true, decide_eq_true_eq, List.all_eq_true] at h
  obtain ⟨⟨⟨⟨⟨⟨⟨⟨⟨⟨⟨⟨⟨⟨h1, h2⟩, h3⟩, h4⟩, h5⟩, h6⟩, h7⟩, h8⟩, h9⟩, h10⟩, h11⟩, h12⟩, h13⟩, h14⟩, h15⟩ := h
  exact ⟨h1, h2, h3, h4, h5, h6, h7, h8, h9, h10, h11, h12, h13, h14, h15⟩

theorem ready_of {s : State} (h : decide (s.pwr.mode = .running) && bootDone s) : Ready s := by
  simp only [Bool.and_eq_true, decide_eq_true_eq] at h
  exact h

theorem running_of {s : State} (h : on s = true) : Running s := by
  simp only [on, beq_iff_eq] at h
  exact h

theorem up_ready : Ready up := ready_of (by decide +kernel)

/-- The command answers a next state that passes the test. -/
def after (i : Instr) (s : State) (p : State → Bool) : Bool :=
  match exec i s with
  | .next t => p t
  | _ => false

/-! ### Steps, reset, tokens -/

theorem test_hyp_EveryStepKeepsTheTables : Canonical State.reset ∧ step State.reset = .next State.reset :=
  ⟨canonical_of (by decide +kernel), rfl⟩

/-- The states in which nothing acts: in reset, and failing. -/
theorem test_hyp_OutsideRunningNothingActs : ¬Running State.reset ∧ ¬Running { up with pwr := { up.pwr with mode := .failing } } :=
  ⟨(by intro h; cases h), (by intro h; cases h)⟩

theorem test_hyp_BeforeDonePagesAnswerViolation : Running booting ∧ bootDone booting = false ∧ needsDone (.flush 0 0) = true :=
  ⟨rfl, by decide +kernel, rfl⟩

/-- The last token, one below its top, its generation about to wrap. -/
def tokTop : State := setTok 8191 ⟨0xFFFFFFFE, 4095, 3, false⟩ up

theorem test_hyp_TokenWindowWrites : Ready tokTop ∧ (tok tokTop 8191).owner = 3 ∧ (tok tokTop 8191).poisoned = false ∧
    heldOn tokTop 8191 = [] :=
  ⟨ready_of (by decide +kernel), by decide +kernel⟩

theorem test_hyp_TokenWindowReadsAndAdds : Ready tokTop ∧ (tok tokTop 8191).owner = 3 ∧ (tok tokTop 8191).poisoned = false ∧
    heldOn tokTop 8191 = [] ∧ (tok tokTop 8191).value < 0xFFFFFFFF ∧ (tok tokTop 8191).value + 1 % 2 ^ 32 ≤ 0xFFFFFFFF :=
  ⟨ready_of (by decide +kernel), by decide +kernel⟩

/-- A set write takes the value and wraps the generation. -/
theorem test_tokenSet : after (.tokenSetWrite 3 8191 7) tokTop (fun t => tok t 8191 == ⟨7, 0, 3, false⟩ && t.bus == (0, 0)) := by
  decide +kernel

/-- The compare-and-set alias looks at bits 47 to 36 of the data. -/
theorem test_tokenCas : after (.tokenCasWrite 3 8191 (4095 * 2 ^ 36 + 9)) tokTop (fun t => tok t 8191 == ⟨9, 0, 3, false⟩) ∧
    after (.tokenCasWrite 3 8191 (4094 * 2 ^ 36 + 9)) tokTop (fun t => tok t 8191 == tok tokTop 8191) := by decide +kernel

/-- The add alias returns the word as it stood: value, owner at bit 32, generation at bit 36. -/
theorem test_tokenAdd : after (.tokenAddRead 3 8191) tokTop (fun t => (tok t 8191).value == 0xFFFFFFFF &&
    t.bus == (0, 0xFFFFFFFE + 3 * 2 ^ 32 + 4095 * 2 ^ 36)) ∧
    after (.tokenAddWrite 3 8191 1) tokTop (fun t => (tok t 8191).value == 0xFFFFFFFF) := by decide +kernel

/-- Test-and-decrement does nothing at 0 and below its operand. -/
theorem test_tokenTestDec : after (.tokenTestDecRead 0 5) up (fun t => tok t 5 == tok up 5 && t.bus == (0, 0)) ∧
    after (.tokenTestDecWrite 3 8191 0xFFFFFFFF) tokTop (fun t => (tok t 8191).value == 0xFFFFFFFE) := by decide +kernel

theorem test_hyp_TokenAccessesOfOthersAreRefused : Ready tokTop ∧ (tok tokTop 8191).owner ≠ 15 ∧ 15 < 16 ∧ 8191 < 8192 :=
  ⟨ready_of (by decide +kernel), by decide +kernel⟩

/-- TOKEN descriptors on token 7 with operand 3: SET, ADD, ACQUIRE, and an ACQUIRE that cannot take its operand. -/
def tokDesc (fid op n : Nat) : Flight := flight fid 0 .tok (bytesWith 64 [(0, 1, 0x0D), (16, 2, 7), (18, 1, op), (20, 4, n)])
def tokWork : State := setTok 7 ⟨3, 0, 0, false⟩ (flying [tokDesc 0 0 3, tokDesc 1 1 0xFFFFFFFC, tokDesc 2 2 3, tokDesc 3 2 4] up)

theorem test_hyp_TokenDescriptors : Running tokWork ∧ Canonical tokWork ∧ heldOn tokWork 7 = [] ∧
    tokFlight tokWork 0 0 = some (tokDesc 0 0 3) ∧ tokFlight tokWork 1 1 = some (tokDesc 1 1 0xFFFFFFFC) ∧
    (tok tokWork 7).value + 0xFFFFFFFC ≤ 0xFFFFFFFF ∧ tokFlight tokWork 2 2 = some (tokDesc 2 2 3) ∧ 3 ≤ (tok tokWork 7).value ∧
    tokFlight tokWork 3 2 = some (tokDesc 3 2 4) ∧ (tok tokWork 7).value < 4 ∧
    [tokDesc 0 0 3, tokDesc 1 1 0xFFFFFFFC, tokDesc 2 2 3, tokDesc 3 2 4].map tokenBody = [(7, 3), (7, 0xFFFFFFFC), (7, 3), (7, 4)] :=
  ⟨rfl, canonical_of (by decide +kernel), by decide +kernel⟩

/-- An ACQUIRE takes its operand; one that cannot is held. -/
theorem test_acquire : after (.tokenAcquire 2) tokWork (fun t => (tok t 7).value == 0 && ((flightOf t 2).map fun f => f.result) == some (some 0)) ∧
    after (.tokenAcquire 3) tokWork (fun t => (tok t 7).value == 3 && ((flightOf t 3).map fun f => f.work) == some .acquire) := by
  decide +kernel

def heldAcq : Flight := { tokDesc 0 2 4 with work := .acquire }
def tokHeld : State := flying [heldAcq] up

theorem test_hyp_AWriteServesTheHeldAcquire : Ready tokHeld ∧ Canonical tokHeld ∧ (tok tokHeld 7).owner = 0 ∧
    (tok tokHeld 7).poisoned = false ∧ heldOn tokHeld 7 = [heldAcq] :=
  ⟨ready_of (by decide +kernel), canonical_of (by decide +kernel), by decide +kernel⟩

/-- A write of exactly the operand completes the ACQUIRE and leaves 0; one less leaves it held. -/
theorem test_heldAcquire : after (.tokenSetWrite 0 7 4) tokHeld (fun t => (tok t 7).value == 0 && ((flightOf t 0).bind fun f => f.result) == some 0) ∧
    after (.tokenSetWrite 0 7 3) tokHeld (fun t => (tok t 7).value == 3 && ((flightOf t 0).bind fun f => f.result) == none) := by
  decide +kernel

/-! ### Queues -/

/-- Queue 15 held, its partition active; queue 14's partition torn down; both rings of two entries. -/
def queues : State :=
  { st (pgDsp 15) Fld.DSP_Q_SIZE 1 up with
    queues := [(15, ⟨none, none, true, false, none⟩)]
    parts := [(14, { partDefault 14 with state := .torn })] }

theorem test_hyp_QueueControlWrites : Ready queues ∧ fldGet Fld.DSP_Q_TAIL (1 : Word) < qSize queues 15 ∧
    qSize queues 15 ≤ fldGet Fld.DSP_Q_TAIL (2 : Word) ∧ partState queues 15 ≠ .torn ∧ partState queues 14 = .torn ∧
    (qu queues 15).held = true ∧ (qu queues 13).held = false :=
  ⟨ready_of (by decide +kernel), by decide +kernel⟩

theorem test_dspQTail : after (.dspQTailWrite 15 15 1) queues (fun t => qTail t 15 == 1) ∧
    after (.dspQTailWrite 15 15 2) queues (fun t => qTail t 15 == 0 && rg t (pgDsp 15) Fld.PAGE_ERR_INFO_CODE == 0x13) := by
  decide +kernel

theorem test_hyp_FlushDiscardsTheQueue : Ready queues ∧ 15 < 16 := ⟨ready_of (by decide +kernel), by decide⟩

theorem test_resume_flush : after (.resume 15 15) queues (fun t => !(qu t 15).held) ∧
    after (.flush 15 15) (st (pgDsp 15) Fld.DSP_Q_TAIL 1 queues) (fun t => qHead t 15 == 1 && !(qu t 15).held) := by decide +kernel

/-- Queue 3 runs with a head read: the first of `count` descriptors, with a code. -/
def headAt (count op code : Nat) : State :=
  st (pgDsp 3) Fld.DSP_Q_SIZE 1 (st (pgDsp 3) Fld.DSP_Q_CTRL_RUN 1
    { up with
      queues := [(3, ⟨some ⟨0, count, 9⟩, some ⟨0, bytesWith 64 [(0, 1, op), (6, 2, 0x2000 + 5), (12, 2, 2)], code, capNone⟩, false, false, none⟩)]
      parts := [(3, { partDefault 3 with state := .active })] })

theorem test_hyp_TheDispatcherIssuesOneHead : Running up ∧ (serveOrder up).find? (headReady up) = none ∧
    [(1, 0), (2, 0), (1, 1), (1, 0x13)].all (fun x : Nat × Nat =>
      let s := headAt x.1 1 x.2
      let r := (serveOrder s).foldl (fun s q => refill q s) s
      on s && (serveOrder r).find? (headReady r) == some 3 && (qu r 3).entry.isSome && (qu r 3).desc.isSome) :=
  ⟨rfl, by decide +kernel⟩

/-- The last descriptor of an entry takes the entry with it; the next one of two stays; a class F code holds the queue. -/
theorem test_dispatchIssue : after .dispatchIssue (headAt 1 1 0) (fun t => t.nextFid == 1 && qHead t 3 == 1 && t.lastServed == 3) ∧
    after .dispatchIssue (headAt 2 1 0) (fun t => qHead t 3 == 0 && qDesc t 3 == 1 && rg t (pgDsp 3) Fld.DSP_Q_ISSUED == 1) ∧
    after .dispatchIssue (headAt 1 1 0x13) (fun t => t.nextFid == 0 && (qu t 3).held) := by decide +kernel

/-- Descriptors with a result: OK with a signal of 2 on token 5, and ALIGN. -/
def doneFlight (fid code : Nat) : Flight :=
  { flight fid 3 .yrd (bytesWith 64 [(0, 1, 1), (6, 2, 0x2000 + 5), (12, 2, 2)]) with result := some code, entry := 4095, desc := 65535 }
def doneTwo : State := setTok 5 ⟨0xFFFFFFFE, 0, 3, false⟩ (flying [doneFlight 0 0, doneFlight 1 0x12] up)

theorem test_hyp_ADescriptorCompletes : Running doneTwo ∧ Canonical doneTwo ∧ flightOf doneTwo 0 = some (doneFlight 0 0) ∧
    flightOf doneTwo 1 = some (doneFlight 1 0x12) ∧ (doneTwo.accs.any fun c => c.fid == 0 && c.isWrite && !c.done) = false ∧
    [doneFlight 0 0, doneFlight 1 0x12].all (fun f => canReport doneTwo f.bytes f.addr && !logHeld doneTwo f &&
      (scanOutcome f (if isF (f.result.getD 0) then (doneTwo, none) else attnScores f (doneTwo, none))).2.isNone) ∧
    isF 0x12 = true ∧ (qu doneTwo 3).held = false ∧ isF 0 = false ∧ dSigEn (doneFlight 0 0).bytes = true ∧
    dSigTok (doneFlight 0 0).bytes = 5 ∧ heldOn doneTwo 5 = [] :=
  ⟨rfl, canonical_of (by decide +kernel), by decide +kernel⟩

/-- A completion signals, and the signal stops at the top of VALUE; a class F code holds the queue and says where. -/
theorem test_descriptorComplete : after (.descriptorComplete 0) doneTwo (fun t => (tok t 5).value == 0xFFFFFFFF && (flightOf t 0).isNone) ∧
    after (.descriptorComplete 1) doneTwo (fun t => (tok t 5).value == 0xFFFFFFFE && (qu t 3).held &&
      rg t (pgDsp 3) Fld.DSP_Q_STAT_HOLD_CODE == 0x12 && rg t (pgDsp 3) Fld.DSP_Q_HOLD_AT_DESC == 65535) := by decide +kernel

theorem test_hyp_AFenceCompletesAtTheHead : ∃ e d, Running (headAt 1 0x0C 0) ∧ (qu (headAt 1 0x0C 0) 3).entry = some e ∧
    (qu (headAt 1 0x0C 0) 3).desc = some d ∧ (serveOrder (headAt 1 0x0C 0)).find? (headReady (headAt 1 0x0C 0)) = some 3 ∧ dOp d.bytes = 0x0C ∧ d.code = 0 ∧
    dSigEn d.bytes = true ∧
    heldOn (headAt 1 0x0C 0) (dSigTok d.bytes) = [] ∧ inflightOf (flying [doneFlight 0 0] (headAt 1 0x0C 0)) 3 ≠ 0 :=
  ⟨_, _, rfl, rfl, rfl, by decide +kernel⟩

/-- A FENCE with nothing in flight signals and moves the head on; with a descriptor in flight it waits. -/
theorem test_fence : after (.fence 3) (headAt 1 0x0C 0) (fun t => (tok t 5).value == 2 && qHead t 3 == 1) ∧
    after (.fence 3) (flying [doneFlight 0 0] (headAt 1 0x0C 0)) (fun t => t == flying [doneFlight 0 0] (headAt 1 0x0C 0)) := by
  decide +kernel

/-! ### Stations -/

/-- One descriptor of each kind that a station takes up, in the order 2, 3, 3 (a maximum pooling, here of nothing), F, 4, 5, 6, B (three kinds), 8. -/
def stationFlights : List Flight :=
  [flight 0 1 .arr (bytesWith 64 [(0, 1, 2)]), flight 1 1 .arr (bytesWith 64 [(0, 1, 3)]), flight 2 1 (.stk 0) (bytesWith 64 [(0, 1, 3)]),
    flight 3 1 .disp (bytesWith 64 [(0, 1, 0x0F)]), flight 4 1 .kvs (bytesWith 64 [(0, 1, 4)]),
    flight 5 1 .kvs (bytesWith 64 [(0, 1, 5), (24, 4, 1)]), flight 6 1 .scn (bytesWith 64 [(0, 1, 6)]),
    flight 7 1 .scn (bytesWith 64 [(0, 1, 0x0B)]), flight 8 1 .scn (bytesWith 64 [(0, 1, 0x0B), (24, 1, 1)]),
    flight 9 1 .scn (bytesWith 64 [(0, 1, 0x0B), (24, 1, 2)]), flight 10 1 .col (bytesWith 64 [(0, 1, 8)])]
def stations : State := flying stationFlights up
def onlyConv : State := flying [flight 0 1 .arr (bytesWith 64 [(0, 1, 3)])] up

theorem test_hyp_StationsTakeUpTheirDescriptors : Running stations ∧ Canonical stations ∧ Running onlyConv ∧ Canonical onlyConv ∧
    (stationFlights.all fun f => decide (flightOf stations f.fid = some f) && f.work == .none && f.result.isNone &&
      !scratchShut stations f.q) ∧
    [stations, onlyConv].all (fun s => s.flights.find? (fun g => isTileOp g && g.work == .none && g.result.isNone && !scratchShut s g.q)
      == s.flights.head? && !plannerBusy s 15) ∧
    NothingHeld stations ∧ NothingHeld onlyConv ∧ (stationFlights[5]?.all fun f => !(kvRanges stations f 0).any fun x => heldFor stations 5 x.1 x.2) ∧
    kvTurn stations 5 = stationFlights[5]? ∧
    stations.flights.find? (fun g => g.q == 1 && dOp g.bytes == 6 && g.result.isNone && !scanAdmitted g) = stationFlights[6]? ∧
    stationFlights.map (fun f => (dOp f.bytes, bF f.bytes 24 1)) = [(2, 0), (3, 0), (3, 0), (0x0F, 0), (4, 0), (5, 1), (6, 0),
      (0x0B, 0), (0x0B, 1), (0x0B, 2), (8, 0)] :=
  ⟨rfl, canonical_of (by decide +kernel), rfl, canonical_of (by decide +kernel), by decide +kernel, by decide +kernel,
    ⟨rfl, rfl, rfl⟩, ⟨rfl, rfl, rfl⟩, by decide +kernel⟩

/-- A COLL waits for a context. -/
theorem test_coll : after (.coll 10) stations (fun t => t.col.waiting == [10]) := by decide +kernel

/-! ### Products -/

/-- The state after a command. -/
def nxt (i : Instr) (s : State) : State :=
  match exec i s with
  | .next t => t
  | _ => s

/-- The device runs; partition 1 is active and holds the first extent of HBM and every array. -/
def mine : State :=
  [0, 32, 64, 96, 128].foldl (fun s n =>
      { s with regs := tabSet resetWord s.regs (regKey (pgPrt 1) (arrBit Fld.PRT_ARR n).off) 0xFFFFFFFF })
    { up with
      exts := [(0, .assigned 1)]
      parts := [(1, { partDefault 1 with state := .active })] }

/-- A GEMM of queue 1, of 1 by 1 by k, in K16, with flags and room for runs on two arrays. -/
def gemmOf (fid k flags : Nat) : Flight :=
  { flight fid 1 .arr (bytesWith 64 [(0, 1, 2), (2, 1, 0x22), (24, 4, 1), (28, 4, 1), (32, 4, k), (36, 2, 1), (38, 2, flags)]) with
    cap := { capNone with
      g := 2
      blk := bytesWith 128 [(0, 6, 0x1000), (8, 6, 0x2000), (16, 6, 0x3000), (24, 6, 0x4000), (40, 4, 2 * k), (44, 4, 2),
        (48, 4, 2), (52, 4, 2), (88, 1, 2)] } }

/-- The work of a descriptor changed, by hand. -/
def reworked (fid : Nat) (g : TileWork → TileWork) (s : State) : State :=
  match tileFlight s fid with
  | some (_, w) => setTiles fid (g w) s
  | none => s

/-- The first slot of descriptor 0 placed on array 0. -/
def placed (s : State) : State :=
  reworked 0 (fun w => { w with waiting := w.waiting.tail }) (setArr 0 { arr s 0 with run := some ⟨0, 0, 0, [⟨0, 0, 0, 0⟩], 0, false, [], 0⟩ } s)

/-- Fresh; planned; placed on an array; with its first operand chunk; its last one. -/
def gemm0 : State := poke 0x1000 [1, 2, 3, 4] (poke 0x2000 [5, 6, 7, 8] (flying [gemmOf 0 2 0] mine))
def gemm1 : State := nxt .plannerTake gemm0
def gemm2 : State := placed gemm1
def gemm3 : State := nxt (.chunkDelivery 0 true) gemm2
def gemm4 : State := nxt (.chunkDelivery 0 false) gemm3

/-- The test holds of the descriptor and its tiles. -/
def tilesOf (s : State) (fid : Nat) (p : Flight → TileWork → Bool) : Bool :=
  match tileFlight s fid with
  | some (f, w) => p f w
  | none => false

/-- A GEMM whose drain control is `dc`, with its drain block at `a`. -/
def gemmDrain (dc a : Nat) : Flight :=
  { gemmOf 0 2 0 with bytes := bytesWith 64 [(0, 1, 2), (2, 1, 0x22), (24, 4, 1), (28, 4, 1), (32, 4, 2), (36, 2, 1), (40, 8, dc),
    (48, 6, a)] }

/-- Its drain block lies in an extent that nobody owns; its read fails its tag; a reserved byte of it is set; it is right. -/
def gemmLost : State := flying [gemmDrain 4 (2 ^ 30)] mine
def gemmTorn : State :=
  { flying [gemmDrain 4 0x5000] mine with mce := { mine.mce with blocks := [(40, some ⟨0, true⟩)] } }
def gemmOdd : State := poke 0x5000 (bytesWith 64 [(8, 6, 0x6000), (28, 1, 2), (30, 2, 1)]) (flying [gemmDrain 4 0x5000] mine)
def gemmBias : State := poke 0x5000 (bytesWith 64 [(8, 6, 0x6000), (28, 1, 2)]) (flying [gemmDrain 4 0x5000] mine)

/-- The drain block of the first descriptor, the vectors it names, and the code of its checks. -/
def drainBlock (s : State) (f : Flight) : Option Nat × List (Nat × Nat) × Nat :=
  let w := tileBegin f (jobOf f)
  let d := rdBytes s (dAddr f.bytes 48) 64
  ((memRead .yard f.q (dAddr f.bytes 48) 64 s).2, drainVecs (jCtl (jobOf f)) d w.plan,
    chkCode (chkDrainBlk s f.q (jCtl (jobOf f)) d w.plan (jCblk (jobOf f))))

theorem test_hyp_APlannerTakesTheFirstDescriptor : [gemm0, gemmLost, gemmTorn, gemmOdd, gemmBias].all (fun s => on s && canonical s) ∧
    [gemm0, gemmLost, gemmTorn, gemmOdd, gemmBias].all (fun s =>
      s.flights.find? (fun g => isTileOp g && g.work == .none && g.result.isNone && !scratchShut s g.q) == s.flights.head? &&
      (firstBelow 16 fun i => !plannerBusy s i) == some 0) ∧
    gemm0.flights.all (fun f => !dcUsed (jCtl (jobOf f))) ∧
    gemmLost.flights.all (fun f => dcUsed (jCtl (jobOf f)) && !structRange gemmLost 1 (2 ^ 30) 64) ∧
    [gemmTorn, gemmOdd, gemmBias].all (fun s => s.flights.all (fun f => dcUsed (jCtl (jobOf f)) && structRange s 1 0x5000 64 &&
      !((0x5000, 64) :: (drainBlock s f).2.1).any (fun x => heldFor s 0 x.1 x.2)) &&
      s.retrain.held.isEmpty && s.retrain.waiting.isEmpty && s.yard.zeroising.isEmpty) ∧
    gemmTorn.flights.map (fun f => (drainBlock gemmTorn f).1) = [some 0x21] ∧
    gemmOdd.flights.map (fun f => ((drainBlock gemmOdd f).1, (drainBlock gemmOdd f).2.2)) = [(none, 0x13)] ∧
    gemmBias.flights.map (fun f => ((drainBlock gemmBias f).1, (drainBlock gemmBias f).2.2,
      (readAll .yard 1 (drainBlock gemmBias f).2.1 gemmBias).2)) = [(none, 0, none)] := by decide +kernel

theorem test_plannerTake : after .plannerTake gemm0 (fun t => rg t (pgTpl 0) Fld.TPL_PLANNED == 1 && rg t (pgTpl 0) Fld.TPL_ITEMS == 1) ∧
    [(gemmLost, some 0x20), (gemmTorn, some 0x21), (gemmOdd, some 0x13), (gemmBias, none)].all (fun x =>
      after .plannerTake x.1 fun t => ((flightOf t 0).bind fun f => f.result) == x.2) := by decide +kernel

theorem test_hyp_ARunStartsOnTheBestArray : Running gemm1 ∧ arraysStopped gemm1 = false ∧
    gemm1.flights.all (fun h => tilesOf gemm1 h.fid drainReady) ∧
    (gemm1.flights.find? fun g => match tileFlight gemm1 g.fid with
      | some (_, w) => !w.waiting.isEmpty && drainReady g w && !(candidates gemm1 g).isEmpty
      | none => false) = gemm1.flights.head? ∧ gemm1.flights.length = 1 ∧
    tilesOf gemm1 0 (fun _ w => w.waiting.length == 1) ∧ (arr gemm1 0).cnt.length = 9 := by
  refine ⟨running_of (by decide +kernel), ?_⟩
  decide +kernel

/-- The lowest free array takes the run, at clock point CEIL. -/
theorem test_runStart : after .runStart gemm1 (fun t => (arr t 0).run.isSome && rg t pgClkDev (fldPoint 0) == 0) := by decide +kernel

/-- A GEMM of one tile row and two tile columns: its two slots share the chunks of A. -/
def wide : State := placed (nxt .plannerTake (flying [{ gemmOf 0 2 0 with
  bytes := bytesWith 64 [(0, 1, 2), (2, 1, 0x22), (24, 4, 1), (28, 4, 129), (32, 4, 2), (36, 2, 1)] }] mine))

theorem test_hyp_AChunkReachesEveryArrayDueIt : Running gemm2 ∧ Running wide ∧
    [(gemm2, false), (wide, true)].all (fun x => !arraysStopped x.1 &&
      match (arr x.1 0).run with
      | some r => tilesOf x.1 0 fun f w => match dueChunk (jobOf f) w.plan (arr x.1 0) r true with
        | some c => chunkWaits x.1 f w r true c == x.2 && (x.2 || (!mustWait x.1 f.fid (chunkReads (jobOf f) w.plan c) [] &&
            (readLines f.q (linesIn (chunkReads (jobOf f) w.plan c)) (proceed f.fid x.1)).2.isNone && (arr x.1 159).halves.length == 4))
        | none => false
      | none => false) := by
  refine ⟨running_of (by decide +kernel), running_of (by decide +kernel), ?_⟩
  decide +kernel

/-- Both chunks delivered, the tile is worked out: 2 times 128 cycles, 256 cells, two preemptible columns. -/
theorem test_chunkDelivery : after (.chunkDelivery 0 true) gemm2 (fun t => (arr t 0).halves.length == 4 &&
      rg t (pgTpl 0) Fld.TPL_DELIVERIES == 1) ∧
    after (.chunkDelivery 0 false) gemm3 (fun t => (arr t 0).active.isSome && ((arr t 0).run.map fun r => r.items) == some []) ∧
    after (.chunkDelivery 0 true) wide (fun t => t == wide) := by decide +kernel

/-- The same product with a starting block. -/
def preload : State := placed (nxt .plannerTake (flying [gemmOf 0 2 2] mine))

theorem test_hyp_APreloadStallLoadsTheStartingBlock : Running preload ∧ arraysStopped preload = false ∧
    ((arr preload 0).run.any fun r => tilesOf preload 0 fun f w => match r.items with
        | it :: _ => jPreload (jobOf f) && it.l == 0 && !r.started && (arr preload 0).latch.isNone &&
          decide (stageUnits w.plan (fmtBytes ((jSfmt (jobOf f)).getD .k16)) ≤ stagingFree preload 0) &&
          !mustWait preload f.fid (startReads (jobOf f) w.plan it) [] &&
          (readLines f.q (linesIn (startReads (jobOf f) w.plan it)) (proceed f.fid preload)).2.isNone
        | [] => false) ∧ (arr preload 0).cnt.length = 9 := by
  refine ⟨running_of (by decide +kernel), ?_⟩
  decide +kernel

theorem test_preloadStall : after (.preloadStall 0) preload (fun t => (arr t 0).cnt.getD 5 0 == 128 && (arr t 0).cnt.getD 0 0 == 128) := by
  decide +kernel

/-- The worked tile, and the same array with shadows that are still full. -/
def fullShadows : State := setArr 0 { arr gemm4 0 with shadow := some (7, 0, ⟨0, 0, 0, 0⟩, []) } gemm4

theorem test_hyp_TheEndOfARunMovesItsLastTileToTheShadows : Running gemm4 ∧ Running fullShadows ∧
    [gemm4, fullShadows].all (fun s => !arraysStopped s && (arr s 0).run.isSome && (arr s 0).active.isSome &&
      (arr s 0).cnt.length == 9) ∧
    ((arr gemm4 0).run.map fun r => r.items) = some [] ∧ (arr gemm4 0).shadow = none ∧ (arr fullShadows 0).shadow ≠ none := by
  refine ⟨running_of (by decide +kernel), running_of (by decide +kernel), ?_⟩
  decide +kernel

/-- RUN_CYC, BUSY, FREEZE, FEED and DRAIN with freezes of 1, 2 and 3 cycles, the last of both causes (R80). -/
theorem test_endOfRunSwap : after (.endOfRunSwap 0 1 2 3) gemm4 (fun t => (arr t 0).cnt.take 5 == [262, 256, 6, 4, 5] &&
    (arr t 0).shadow.isSome) := by decide +kernel

/-- Shadows with a tile: of an abandoned pass; of a whole product; and without room in staging. -/
def drains : State := setArr 0 { arr gemm1 0 with shadow := some (0, 0, ⟨0, 0, 0, 0⟩, [vNat 1]) } gemm1
def drainsOld : State := setArr 0 { arr gemm1 0 with shadow := some (0, 1, ⟨0, 0, 0, 0⟩, [vNat 1]) } gemm1
def drainsFull : State := setArr 0 { arr drains 0 with staging := [⟨9, ⟨0, 0, 0, 0⟩, .out, 8, [], []⟩] } drains

/-- A product in two parts, with a partial in the shadows; without room; and with both partials in staging. -/
def split : State := nxt .plannerTake (flying [gemmOf 0 512 0] mine)
def splitDrains : State := setArr 0 { arr split 0 with shadow := some (0, 0, ⟨0, 0, 0, 1⟩, [vNat 1]) } split
def splitFull : State := setArr 0 { arr splitDrains 0 with staging := [⟨9, ⟨0, 0, 0, 0⟩, .out, 8, [], []⟩] } splitDrains

theorem test_hyp_ADrainFillsTheStaging : Running drains ∧ Running splitDrains ∧
    [drains, drainsOld, drainsFull, splitDrains, splitFull].all (fun s => !arraysStopped s && (arr s 0).shadow.isSome) ∧
    tilesOf drainsOld 0 (fun _ w => w.pass != 1) ∧
    [(drains, true), (drainsFull, false)].all (fun x => tilesOf x.1 0 fun f w =>
      let rd := preReads (jobOf f) w.plan w.dblk ⟨0, 0, 0, 0⟩
      let y := readLines f.q (linesIn rd) (proceed f.fid x.1)
      let o := tileOut (snapOf y.1 f) (jobOf f) w.plan w.dblk w.ofmt w.preFmt (rndOf f) ⟨0, 0, 0, 0⟩ [vNat 1]
      w.pass == 0 && w.ovf.isNone && decide (w.plan.l ≤ 1) && !mustWait x.1 f.fid rd [] && y.2.isNone && o.ovf.isNone &&
        decide (outUnits w.plan (jCtl (jobOf f)) w.ofmt ≤ stagingFree x.1 0) == x.2) ∧
    [(splitDrains, true), (splitFull, false)].all (fun x => tilesOf x.1 0 fun _ w => decide (1 < w.plan.l) &&
      !(partPairs w.ofmt [vNat 1]).2 && decide (stageUnits w.plan 4 ≤ stagingFree x.1 0) == x.2) := by
  refine ⟨running_of (by decide +kernel), running_of (by decide +kernel), ?_⟩
  decide +kernel

theorem test_tileDrain : after (.tileDrain 0) drains (fun t => (arr t 0).staging.length == 1 && (arr t 0).shadow.isNone) ∧
    after (.tileDrain 0) drainsOld (fun t => (arr t 0).staging.isEmpty && (arr t 0).shadow.isNone) ∧
    after (.tileDrain 0) drainsFull (fun t => t == drainsFull) := by decide +kernel

/-- The outputs of tile 0 of two in staging, of the last tile, and outputs of a descriptor that is gone. -/
def staged (fid : Nat) : Staged := ⟨fid, ⟨0, 0, 0, 0⟩, .out, 1, [], [(0x3000, [1, 2])]⟩
def acked (fid : Nat) : State := setArr 1 { arr wide 1 with staging := [staged fid] } wide

def ackedLast : State := reworked 0 (fun w => { w with left := [0], waiting := [] }) (acked 0)

theorem test_hyp_AnAcknowledgedTileIsInMemory : Running (acked 0) ∧ Running (acked 9) ∧ Running ackedLast ∧
    ((arr ackedLast 1).staging.find? fun g => g.kind == .out) = some (staged 0) ∧
    tilesOf ackedLast 0 (fun f w => w.left.all (fun t => t == tileNo w.plan (staged 0).item) && w.sampled.isEmpty && w.ovf.isNone &&
      !mustWait ackedLast f.fid [] [(0x3000, 2)] &&
      (writeAll .yard f.q f.fid (staged 0).writes (setArr 1 { arr ackedLast 1 with staging := [] } ackedLast)).2.isNone) ∧
    [0, 9].all (fun fid => ((arr (acked fid) 1).staging.find? fun g => g.kind == .out) == some (staged fid)) ∧
    tileFlight (acked 9) 9 = none ∧
    tilesOf (acked 0) 0 (fun f w => !mustWait (acked 0) f.fid [] ((staged 0).writes.map fun x => (x.1, x.2.length)) &&
      (writeAll .yard f.q f.fid (staged 0).writes (setArr 1 { arr (acked 0) 1 with staging := [] } (acked 0))).2.isNone &&
      w.left.any fun t => t != tileNo w.plan (staged 0).item) := by
  refine ⟨running_of (by decide +kernel), running_of (by decide +kernel), running_of (by decide +kernel), ?_⟩
  decide +kernel

theorem test_stagingWriteAck : after (.stagingWriteAck 1) (acked 0) (fun t => rd1 t 0x3000 == 1 && rd1 t 0x3001 == 2 &&
    tilesOf t 0 fun _ w => w.left == [1]) := by decide +kernel

/-- Two partials, on two arrays or one, with sums that fit or do not. -/
def partialAt (i e : Nat) : Staged := ⟨0, ⟨0, 0, 0, i⟩, .part 0 i, 2, [(.fin false 1 e, vNat 0)], []⟩
def mates (a b e : Nat) : State :=
  let s := setArr a { arr split a with staging := [partialAt 0 e] } split
  setArr b { arr s b with staging := (arr s b).staging ++ [partialAt 1 e] } s

theorem test_hyp_PartialsCombineByPairs : [(0, 1, 0), (3, 3, 0), (0, 159, 127)].all (fun x =>
    let s := mates x.1 x.2.1 x.2.2
    on s && canonical s && !arraysStopped s &&
      (((partsOf s 0).findSome? fun u => (mateOf (partsOf s 0) u).map fun y => (u, y)) ==
        some ((x.1, partialAt 0 x.2.2), (x.2.1, partialAt 1 x.2.2))) &&
      tilesOf s 0 fun _ w => (pairsAdd w.ofmt (partialAt 0 x.2.2).pairs (partialAt 1 x.2.2).pairs).2 == decide (x.2.2 = 127)) := by
  decide +kernel

theorem test_partialCombine : after (.partialCombine 0) (mates 0 1 0) (fun t => (arr t 1).staging.isEmpty &&
    (arr t 0).staging.map (fun g => g.kind) == [.part 1 0]) := by decide +kernel

/-! ### Whole products -/

/-- The product 1.0 · 3.0 + 2.0 · 4.0 in K16. -/
def gemmRun : State :=
  poke 0x1000 [0x00, 0x3C, 0x00, 0x40] (poke 0x2000 [0x00, 0x42, 0x00, 0x44] (flying [gemmOf 0 2 0] mine))

/-- A CONV of one pixel, one channel and one output in K16; POOL as given. -/
def convBytes (pool : Nat) : List Byte :=
  bytesWith 64 [(0, 1, 3), (2, 1, 0x22), (24, 2, 1), (26, 2, 1), (28, 2, 1), (30, 2, 1), (32, 2, 1), (34, 2, 1), (36, 2, pool * 128),
    (38, 1, 1), (39, 1, 1)]
def convBlk : List Byte :=
  bytesWith 128 [(0, 6, 0x1000), (8, 6, 0x2000), (16, 6, 0x3000), (56, 4, 2), (60, 4, 2), (64, 4, 2), (68, 4, 2), (72, 4, 2),
    (76, 1, 1), (77, 1, 1), (78, 1, 1), (79, 1, 1)]
def convOf (pool : Nat) (st : Station) : Flight :=
  { flight 0 1 st (convBytes pool) with cap := { capNone with g := 2, blk := convBlk } }
def convRun : State := poke 0x1000 [0x00, 0x40] (poke 0x2000 [0x00, 0x42] (flying [convOf 0 .arr] mine))
def poolRun : State := poke 0x1000 [0x00, 0x40] (flying [convOf 2 (.stk 0)] mine)

/-- A CHECK of a product; its rate and its threshold. -/
def checkOf (target : List Byte) (blk : List Byte) (rate thr : Nat) : Flight :=
  { flight 0 1 .disp (bytesWith 64 [(0, 1, 0x0F), (24, 1, 2), (25, 1, rate), (26, 1, thr)]) with
    cap := { capNone with g := 2, blk := target ++ blk } }
def checkRun (rate thr : Nat) : State :=
  poke 0x3000 [0x80, 0x49] (poke 0x1000 [0x00, 0x3C, 0x00, 0x40] (poke 0x2000 [0x00, 0x42, 0x00, 0x44]
    (flying [checkOf (gemmOf 0 2 0).bytes (gemmOf 0 2 0).cap.blk rate thr] mine)))
/-- Something else stands in the staging of the array that recomputes, whose counters take free values (log entry 5). -/
def besides (s : State) : State := setArr 0 { arr s 0 with staging := [⟨9, ⟨0, 0, 0, 0⟩, .out, 8, [], []⟩] } s
def checkPool : State := flying [checkOf (convBytes 2) convBlk 0 0] mine

/-- The last tile of a product stands in the staging of array 5. -/
def lastTile (fl : Flight) : State :=
  let s := reworked 0 (fun w => { w with waiting := [] }) (nxt .plannerTake (flying [fl] mine))
  setArr 5 { arr s 5 with staging := [staged 0] } s

theorem test_hyp_ProductsRunToTheirResults : [(gemmRun, 2), (convRun, 3)].all fun x => on x.1 && canonical x.1 && !arraysStopped x.1 &&
    x.1.retrain.waiting.isEmpty && (List.range 160).all (fun n => (arr x.1 n).run.isNone && (arr x.1 n).shadow.isNone &&
      (arr x.1 n).staging.isEmpty && (arr x.1 n).halves.length == 4) && granted x.1 1 0 &&
    x.1.flights.all fun f =>
      let j := jobOf f
      let p := jPlan j
      let o := (outFmt f.bytes).getD .k16
      let it := tileItem p 0
      let chunk (isA : Bool) : Chunk := ⟨0, 0, 0, isA, 0, 0, 0, p.k⟩
      let rd := chunkReads j p (chunk true) ++ chunkReads j p (chunk false)
      let out := tileOut x.1.mem j p [] o .k16 (rndOf f) it (tileMac x.1.mem j p it 0 p.k (tileStartVals x.1.mem j p it))
      dOp f.bytes == x.2 && f.station == .arr && f.work == .none && f.result.isNone && !scratchShut x.1 f.q && isTileOp f &&
        tileCount p == 1 && p.l == 1 && decide (0 < p.k ∧ p.k ≤ p.kmax) && !dcUsed (jCtl j) && !jPreload j &&
        (sampledTiles f j p o).isEmpty && !mustWait x.1 0 rd (out.writes.map fun y => (y.1, y.2.length)) &&
        (readLines f.q (linesIn rd) x.1).2.isNone && out.ovf.isNone && (writeAll .yard f.q 0 out.writes x.1).2.isNone := by
  decide +kernel

theorem test_hyp_ProductsRunToTheirResults_last : [gemmOf 0 2 0, convOf 0 .arr].all fun fl =>
    let s := lastTile fl
    on s && canonical s && tilesOf s 0 (fun f w => dOp f.bytes == dOp fl.bytes && f.station == .arr && drainReady f w &&
      w.waiting.isEmpty && w.left == [0] && w.sampled.isEmpty && w.ovf.isNone && tileNo w.plan (staged 0).item == 0 &&
      (staged 0).item == tileItem w.plan 0) && (arr s 5).staging == [staged 0] && (arr s 5).run.isNone && (arr s 5).shadow.isNone &&
    (List.range 160).all (fun m => (arr s m).run.isNone && (arr s m).shadow.isNone && (m == 5 || (arr s m).staging.isEmpty)) &&
    !mustWait s 0 [] ((staged 0).writes.map fun x => (x.1, x.2.length)) && (writeAll .yard 1 0 (staged 0).writes s).2.isNone := by
  decide +kernel

theorem test_hyp_ProductsRunToTheirResults_check : [checkRun 0 0, checkRun 15 0, checkPool].all (fun s => on s && canonical s &&
      !arraysStopped s && s.retrain.waiting.isEmpty && s.flights.all fun f => dOp f.bytes == 0x0F && f.work == .none && f.result.isNone &&
        !scratchShut s f.q) ∧
    checkPool.flights.all (fun f => jConv (jobOf f) && cvPool (jobOf f).bytes == 2) ∧
    [(checkRun 0 0, [0]), (checkRun 15 0, [])].all (fun x => x.1.flights.all fun f =>
      let j := jobOf f
      let p := jPlan j
      let rd := (standing x.1 { f with snap := some x.1.mem } j p (tileItem p 0)).2 ++ shadowReads f (tileBegin f j) (tileItem p 0)
      !jConv j && !dcUsed (jCtl j) && (List.range (tileCount p)).filter (fun t => isSampled j.seed (dTid j.bytes) (dStep j.bytes)
        (bF f.bytes 25 1) t) == x.2 && (shadowArray x.1 f.q none).isSome && !mustWait x.1 0 rd [] &&
        (readLines f.q (linesIn rd) x.1).2.isNone) := by decide +kernel

/-- 11 is 0x4980 in K16, 6 is 0x4600; the write of the last tile ends the product. -/
theorem test_gemm_conv : after (.stagingWriteAck 5) (lastTile (gemmOf 0 2 0)) (fun t => rd1 t 0x3000 == 1 &&
      ((flightOf t 0).bind fun f => f.result) == some 0) ∧
    after (.gemm 0) gemmRun (fun t => rd1 t 0x3000 == 0x80 && rd1 t 0x3001 == 0x49 &&
      ((flightOf t 0).bind fun f => f.result) == some 0) ∧
    after (.conv 0) convRun (fun t => rd1 t 0x3000 == 0x00 && rd1 t 0x3001 == 0x46 &&
      ((flightOf t 0).bind fun f => f.result) == some 0) := by decide +kernel

/-- A maximum pooling copies a single element; a CHECK of the right product, and of one off by an ulp. -/
theorem test_pool_check : after (.conv 0) poolRun (fun t => rd1 t 0x3001 == 0x40 && ((flightOf t 0).bind fun f => f.result) == some 0) ∧
    after (.check 0) (besides (checkRun 0 0)) (fun t => ((flightOf t 0).bind fun f => f.result) == some 0) ∧
    after (.check 0) (besides (poke 0x3000 [0x81] (checkRun 0 0))) (fun t => ((flightOf t 0).bind fun f => f.result) == some 0x42) := by
  decide +kernel
/-! ### Stack engines -/

/-- A MOVE, a REDUCE, an EWISE and a STATS of one element of K16 in the first stack. -/
def stkBytes (op : Nat) : List Byte :=
  bytesWith 64 (if op = 9 then [(0, 1, 9), (2, 1, 0x22), (24, 4, 1), (28, 4, 1), (34, 1, 2)]
    else [(0, 1, op), (2, 1, 0x22), (16, 6, 0x1000), (24, 6, 0x2000), (32, 4, if op = 1 then 2 else 1), (36, 2, 1), (40, 4, 2)])
def stkFl (op : Nat) : Flight :=
  { flight 0 1 (.stk 0) (stkBytes op) with
    cap := { capNone with blk := bytesWith 128 [(0, 6, 0x1000), (8, 6, 0x1800), (16, 6, 0x2000), (48, 4, 2), (52, 4, 2), (56, 4, 2)] } }
def engine (op : Nat) : State := poke 0x1000 [0x34, 0x12] (flying [stkFl op] mine)
/-- An EWISE of one element, its function, its formats and the bytes of its two inputs. -/
def ewise (fn fmts zfmt x : Nat) : State :=
  let s := { mine with regs := tabSet resetWord mine.regs (regKey pgYrd 0x100) 0x21 }
  poke 0x1800 (toLE 2 x) (poke 0x1000 (toLE 2 x) (flying [{ flight 0 1 (.stk 0) (bytesWith 64 [(0, 1, 9), (2, 1, fmts), (24, 4, 1),
      (28, 4, 1), (32, 1, fn), (34, 1, zfmt)]) with
    cap := { capNone with blk := bytesWith 128 [(0, 6, 0x1000), (8, 6, if fn = 6 then 0 else 0x1800), (16, 6, 0x2000),
      (40, 6, if fn = 6 then 2 ^ 43 else 0), (48, 4, 2), (52, 4, if fn = 6 then 0 else 2), (56, 4, 4)] } }] s))
/-- The sum of the two largest K16 numbers; the product of the two largest G16 numbers in GP32; a PACC. -/
def engineOver : State := ewise 1 0x22 2 0x7BFF
def engineMax : State := ewise 2 0x53 3 0x7F7F
def enginePacc : State := ewise 6 0x42 0 0
/-- A MOVE whose source nobody owns, in an engine and in YRD. -/
def engineLost : State := { engine 1 with exts := [] }
def yrdLost : State := { flying [{ stkFl 1 with station := .yrd }] mine with exts := [] }
def yrdMove : State := poke 0x1000 [0x34, 0x12] (flying [{ stkFl 1 with station := .yrd }] mine)
/-- Eight descriptors are in the first engine; a ninth waits. -/
def engineFull : State := { engine 1 with stks := [(0, { stkDefault 0 with active := [10, 11, 12, 13, 14, 15, 16, 17] })] }

/-- The state once the engines that have a place have run the units. -/
def unitsRun (s : State) (f : Flight) : State := (stkEngines f).foldl (fun s k => stkPart 0 k s) (stkStart 0 s)
/-- The test holds of the pass that the descriptor ends. -/
def passTest (s : State) (p : State → Flight → State × Option Nat → PassOut → Bool) : Bool :=
  match s.flights.head? with
  | some f => (match stkFlight (unitsRun s f) 0 with
    | some g => (stkEngines g).all (fun k => (stkWork g).done.contains k) &&
      !mustWait (unitsRun s f) 0 (if g.station = .yrd then stkReads g else []) (stkUndefined g (stkWork g).ofmt) &&
      p (unitsRun s f) g (yrdReads g (proceed 0 (unitsRun s f))) (stkPass (g.snap.getD (unitsRun s f).mem) g (stkWork g).ofmt)
    | none => false)
  | none => false
/-- After the compute phase of the PACC. -/
def paccCopy : State := nxt (.ewise 0) enginePacc

theorem test_hyp_EngineDescriptorsRunAPass : [(engine 1, 1), (engine 7, 7), (engine 9, 9), (engine 10, 0x0A), (engineLost, 1),
      (engineOver, 9), (engineMax, 9), (enginePacc, 9), (yrdLost, 1), (yrdMove, 1), (engineFull, 1), (paccCopy, 9)].all (fun x =>
        on x.1 && canonical x.1 && x.1.flights.length == 1 && x.1.flights.all fun f => stkFlight x.1 0 == some f &&
          dOp f.bytes == x.2 && !(stkWork f).due) ∧
    engineLost.flights.all (fun f => !(stkWork f).copy && (stkFlight (unitsRun engineLost f) 0).isNone) ∧
    engineFull.flights.all (fun f => ((stkFlight (unitsRun engineFull f) 0).any fun g => (stkEngines g).any fun k =>
      !(stkWork g).done.contains k)) ∧
    passTest yrdLost (fun _ _ r _ => r.2 == some 0x20) ∧
    [(engine 1, false), (engine 7, false), (engine 9, false), (engine 10, false), (yrdMove, false), (enginePacc, true)].all (fun x =>
      passTest x.1 fun _ g r p => !(stkWork g).copy && r.2.isNone && p.ovf.isNone && holdsState g == x.2 &&
        (writeAll (if g.station = .yrd then .yard else .beside) g.q 0 p.writes r.1).2.isNone) ∧
    passTest engineOver (fun _ g r p => r.2.isNone && p.ovf.isSome && (stkReplays g (stkWork g).ofmt).isSome) ∧
    passTest engineMax (fun _ g r p => r.2.isNone && p.ovf.isSome && (stkReplays g (stkWork g).ofmt).isNone) ∧
    paccCopy.flights.all (fun f =>
      let p := stkPass (f.snap.getD paccCopy.mem) f (stkWork f).ofmt
      let hold := stkUndefined f (stkWork f).ofmt
      let r := readAll .beside f.q hold (proceed 0 paccCopy)
      (stkWork f).copy && !mustWait paccCopy 0 hold (p.back.map fun x => (x.1, x.2.length)) && r.2.isNone &&
        (writeAll .beside f.q 0 p.back r.1).2.isNone) := by decide +kernel

/-- A MOVE copies; a sum overflows in K16 and runs again in a wider format. -/
theorem test_move : after (.move 0) (engine 1) (fun t => rd1 t 0x2000 == 0x34 && rd1 t 0x2001 == 0x12) ∧
    after (.ewise 0) engineOver (fun t => rd1 t 0x2000 == 0 && ((flightOf t 0).map fun f => (stkWork f).due) == some true) ∧
    after (.move 0) yrdMove (fun t => rd1 t 0x2001 == 0x12) ∧
    after (.ewise 0) engineMax (fun t => ((flightOf t 0).bind fun f => f.result) == some 0x41) ∧
    after (.ewise 0) paccCopy (fun t => ((flightOf t 0).bind fun f => f.result) == some 0) := by decide +kernel

theorem test_hyp_AnEngineTakesAtMostEightDescriptors : [engine 1, engineFull].all fun s =>
    on s && stkFlight s 0 == some (stkFl 1) && stkEngines (stkFl 1) == [0] := by decide +kernel

theorem test_engineUnitStart : after (.engineUnitStart 0) engineFull (fun t => (tabGet stkDefault t.stks 0).waiting == [0]) ∧
    after (.engineUnitStart 0) (engine 1) (fun t => (tabGet stkDefault t.stks 0).active == [0]) := by decide +kernel

/-! ### Replays and shadows -/

def gemmOver : State := reworked 0 (fun w => { w with ovf := some .primary, left := [], waiting := [] }) gemm1
def attnOver : State := flying [{ flight 0 1 .kvs (bytesWith 64 [(0, 1, 4), (2, 1, 0x22)]) with
  work := .attn ⟨true, [], .k16, 0, [], [], true, none, [], 0⟩ }] mine
def scanOver : State := flying [{ flight 0 1 .scn (bytesWith 64 [(0, 1, 6), (2, 1, 0x22)]) with
  work := .scan ⟨true, false, 0, .k16, 0, [], true, none, [], 0⟩ }] mine
def engineDue : State := nxt (.ewise 0) engineOver

theorem test_hyp_AReplayRunsTheNextPass : [gemm1, gemmOver, attnOver, scanOver, engineDue].all (fun s => on s && (flightOf s 0).isSome) ∧
    tilesOf gemm1 0 (fun f w => w.ovf.isNone && dOp f.bytes == 2) ∧ tilesOf gemmOver 0 (fun f w => w.ovf.isSome && dOp f.bytes == 2) ∧
    ((attnFlight attnOver 0).any fun x => x.2.ovf) ∧ ((scanFlight scanOver 0).any fun x => x.2.ovf) ∧
    ((stkFlight engineDue 0).any fun f => (stkWork f).due && (stkReplays f (stkWork f).ofmt).isSome) := by decide +kernel

/-- K16 is replayed in the next wider format (R106); the sum of the two largest K16 numbers is 131008 there. -/
theorem test_overflowReplay : after (.overflowReplay 0) gemmOver (fun t => tilesOf t 0 fun _ w => w.ofmt == .g16 && w.pass == 1 &&
      w.left == [0]) ∧
    after (.overflowReplay 0) engineDue (fun t => ((flightOf t 0).bind fun f => f.result) == some 0x40) := by decide +kernel

/-- A tile of two that was sampled has drained on array 0. -/
def sampled : State := reworked 0 (fun w => { w with sampled := [0], prim := [(0, 0, [vNat 0])] }) wide

theorem test_hyp_AShadowRecomputationJudgesATile : on sampled = true ∧ arraysStopped sampled = false ∧
    tilesOf sampled 0 (fun f w => w.ovf.isNone && drainReady f w && dOp f.bytes != 0x0F && !w.left.isEmpty &&
      !mustWait sampled 0 (shadowReads f w (tileItem w.plan 0)) [] &&
      (readLines f.q (linesIn (shadowReads f w (tileItem w.plan 0))) (proceed 0 sampled)).2.isNone &&
      w.prim == [(0, 0, [vNat 0])] && (shadowArray sampled f.q (some 0)).isSome) := by decide +kernel

/-! ### Tokens and counters -/

theorem test_hyp_TokenAdditionsSaturate : Canonical tokWork ∧ Canonical doneTwo ∧ Canonical tokTop ∧
    [(tokWork, 7), (doneTwo, 5), (tokTop, 8191)].all (fun x => on x.1 && (heldOn x.1 x.2).isEmpty &&
      decide ((tok x.1 x.2).value ≤ 0xFFFFFFFF)) ∧ bootDone tokTop = true ∧ (tok tokTop 8191).owner = 3 ∧
    (tok tokTop 8191).poisoned = false ∧ (tokFlight tokWork 1 1).map (fun f => (tokenBody f).1) = some 7 ∧
    (flightOf doneTwo 0).all (fun f => f.result == some 0 && canReport doneTwo f.bytes f.addr && !logHeld doneTwo f &&
      (scanOutcome f (attnScores f (doneTwo, none))).2.isNone && dSigEn f.bytes && dSigTok f.bytes == 5) ∧ isF 0 = false ∧
    doneTwo.accs = [] :=
  ⟨canonical_of (by decide +kernel), canonical_of (by decide +kernel), canonical_of (by decide +kernel), by decide +kernel⟩

theorem test_tokenSaturates : after (.tokenAddWrite 3 8191 2) tokTop (fun t => (tok t 8191).value == 0xFFFFFFFF &&
    rg t pgTok Fld.TOK_SAT_CNT == 1 && (tok t 8191).gen == 4095) := by decide +kernel

/-- Array 159 is granted to partition 1; the accesses of another partition and of the owner. -/
theorem test_hyp_CountersAreSnappedAndCleared : Ready mine ∧ 159 < 160 ∧ 7 < 8 ∧ 15 < 16 ∧ arrOwner mine 159 = 1 :=
  ⟨ready_of (by decide +kernel), by decide +kernel⟩

theorem test_arrClear : after (.arrClear 1 159 true) (setArr 159 { arr mine 159 with cnt := [2 ^ 32 + 5, 0, 0, 0, 0, 0, 0, 0, 0] } mine)
      (fun t => rg t (pgArr 159) Fld.ARR_RUN_CYC == 5 && rg t (pgArr 159) (fldAt Fld.ARR_RUN_CYC 1) == 1 &&
        (arr t 159).cnt.getD 0 0 == 0) ∧
    after (.arrSnap 0 159) mine (fun t => t.bus == (0x20, 0)) := by decide +kernel

/-! ### The register bus -/

/-- The address of a register (R436). -/
def regAddr (pg : Page) (off : Nat) : Nat := 0xF000 * 2 ^ 28 + regKey pg off

theorem test_hyp_RegisterAccessesAreChecked : Ready mine ∧
    [regAddr (pgDsp 0) 0x100, regAddr (pgKvs 2) 0x118, 0x1000, 2 ^ 44 - 4, 0xF8000000000 - 4, 0xF8000040000].all (fun addr =>
      decide ¬(0xF8000000000 ≤ addr ∧ addr < 0xF8000040000) && (addr / 2 ^ 28 != 0xF000 ||
        match pageOfKey (addr % 2 ^ 28) with
        | some (pg, _) => (pageKind pg).isNone || 1 != pageOwner mine pg
        | none => true)) :=
  ⟨ready_of (by decide +kernel), by decide +kernel⟩

/-- Another partition's page and an address without a page. -/
theorem test_registerWrite_refused : after (.registerWrite 1 (regAddr (pgKvs 2) 0x118) 5) mine (fun t => t.bus == (0x20, 0)) ∧
    after (.registerWrite 1 0x1000 5) mine (fun t => t.bus == (0x20, 0)) := by decide +kernel

/-- Registers of KVS page 1 and DSP page 1 that a write of partition 1 lands in: RW, W1C, RWS and RO. -/
theorem test_hyp_RegisterWritesLandUnderTheirAccessCodes : Ready mine ∧
    [(pgKvs 1, 280, Access.rw), (pgKvs 1, 288, .w1c), (pgDsp 1, 256, .rws), (pgKvs 1, 0xFFC, .ro)].all (fun x =>
      decide (regAddr x.1 x.2.1 / 2 ^ 28 = 0xF000) && pageOfKey (regAddr x.1 x.2.1 % 2 ^ 28) == some (x.1, x.2.1) &&
      (pageKind x.1).isSome && pageOwner mine x.1 == 1 && x.2.1 % 4 == 0 && decide (0x100 ≤ x.2.1) &&
      (actionWrite x.1 x.2.1 0xFFFFFFFF 1 mine).isNone &&
      (x.2.1 == 0xFFC || (pageFields x.1).any fun d => d.fld.off == x.2.1 && d.acc == x.2.2)) :=
  ⟨ready_of (by decide +kernel), by decide +kernel⟩

/-- A staged field takes the data in its staging copy alone. -/
theorem test_registerWrite_staged : after (.registerWrite 1 (regAddr (pgDsp 1) 256) 0x5000) mine (fun t =>
    stg t (pgDsp 1) Fld.DSP_Q_BASE_LO == 5 && rg t (pgDsp 1) Fld.DSP_Q_BASE_LO == 0 && t.bus == (0, 0)) := by decide +kernel

/-- A cap of 5 W and one of 1,500 W staged on the PWR page. -/
def stagedCap (w : Nat) : State := nxt (.registerWrite 0 (regAddr pgPwr Fld.PWR_POL.off) (BitVec.ofNat 32 (w * 2 ^ Fld.PWR_POL.lo))) mine

theorem test_hyp_CommitsActTogetherOrNotAtAll : [5, 1500].all (fun w => on (stagedCap w) && bootDone (stagedCap w) &&
      pageOfKey (regAddr pgPwr 0x14 % 2 ^ 28) == some (pgPwr, 0x14) && (pageKind pgPwr).isSome && pageOwner (stagedCap w) pgPwr == 0 &&
      ((stagedFields pgPwr).any (stagedNew (stagedCap w) pgPwr)) && (badFields (stagedCap w) pgPwr).isEmpty == (w == 1500)) ∧
    (0xC011 : Word).toNat % 65536 = 0xC011 ∧ (0xC010 : Word).toNat % 65536 ≠ 0xC011 ∧
    (stagedFields pgPwr).any (stagedNew mine pgPwr) = false := by decide +kernel

theorem test_pageCommit : after (.pageCommit 0 (regAddr pgPwr 0x14) 0xC011) (stagedCap 1500) (fun t => rg t pgPwr Fld.PWR_POL == 1500 &&
      rg t pgPwr Fld.PAGE_GEN == rg mine pgPwr Fld.PAGE_GEN + 1) ∧
    after (.pageCommit 0 (regAddr pgPwr 0x14) 0xC011) (stagedCap 5) (fun t => rg t pgPwr Fld.PWR_POL == rg mine pgPwr Fld.PWR_POL &&
      rg t pgPwr Fld.PAGE_COMMIT_STAT_FAILED == 1 && rg t pgPwr Fld.PAGE_COMMIT_STAT_OFFSET == Fld.PWR_POL.off) := by decide +kernel

/-- A page that may be reset, one that may not (DEV), and a FAB page with its port down, in training, and up. -/
def fabIn (p : Nat) (x : PortState) : State := setPort p { portOf mine p with state := x } mine

theorem test_hyp_PageControls : Ready mine ∧ [(pgKvs 1, 1), (pgDev, 0), (pgFab 15, 0), (pgCh 3, 0)].all (fun x =>
      pageOfKey (regAddr x.1 0x10 % 2 ^ 28) == some (x.1, 0x10) && (pageKind x.1).isSome && pageOwner mine x.1 == x.2) ∧
    pageState mine (pgKvs 1) ∈ [0, 1, 4, 5] ∧ pageState mine (pgCh 3) ∈ [0, 1, 4, 5] ∧ pageKind (pgCh 3) = some .hifCh ∧
    mine.leases = [] ∧ pageKind (pgKvs 1) ≠ some .hifCh ∧ pageKind (pgKvs 1) ≠ some .fab ∧
    mine.col.ctxs = [] ∧ pageKind (pgFab 15) = some .fab ∧ (portOf mine 15).state = .down ∧ (portOf mine 15).serdesFail = false ∧
    [PortState.pmdTrain, .up].all (fun x => on (fabIn 15 x) && bootDone (fabIn 15 x) && (portOf (fabIn 15 x) 15).state == x) :=
  ⟨ready_of (by decide +kernel), by decide +kernel⟩

/-- A reset returns a field to its reset value; DEV has no reset; clearing ERR clears the code too. -/
theorem test_pageControls : after (.pageReset 1 (regAddr (pgDsp 1) 0x10)) (st (pgDsp 1) Fld.DSP_Q_SIZE 7 mine) (fun t =>
      rg t (pgDsp 1) Fld.DSP_Q_SIZE == rg State.reset (pgDsp 1) Fld.DSP_Q_SIZE && t.bus == (0, 0)) ∧
    after (.pageReset 0 (regAddr pgDev 0x10)) (st pgDev Fld.PAGE_ERR_ERR 1 mine) (fun t => rg t pgDev Fld.PAGE_ERR_ERR == 1) ∧
    after (.pageErrClear 1 (regAddr (pgKvs 1) 0x10) 1) (setErr (pgKvs 1) 0x12 3 mine) (fun t => rg t (pgKvs 1) Fld.PAGE_ERR_ERR == 0 &&
      rg t (pgKvs 1) Fld.PAGE_ERR_INFO_CODE == 0) ∧
    after (.pageQuiesce 0 (regAddr (pgFab 15) 0x10) 2) mine (fun t => rg t (pgFab 15) Fld.PAGE_CTRL_QUIESCE == 1) := by decide +kernel

/-- Enabling a port that is down trains it; clearing ENABLE takes it down. -/
theorem test_pageEnable : after (.pageEnable 0 (regAddr (pgFab 15) 0x10) 1) mine (fun t => (portOf t 15).state == .pmdTrain &&
      rg t (pgFab 15) Fld.FAB_TRAIN_ATTEMPTS == 1) ∧
    after (.pageEnable 0 (regAddr (pgFab 15) 0x10) 0) (fabIn 15 .up) (fun t => (portOf t 15).state == .down) := by decide +kernel

/-! ### Ports -/

def mkFlit (ty seq : Nat) (last : Bool) (pl : List Byte) : Flit :=
  { ftype := ty, vl := 1, seq := seq, ack := 0, crvl := 0, crcum := 0, dst := 0, last := last, payload := padTo 256 pl }
/-- The flit arrives as its 268 bytes. -/
def arrives (f : Flit) : Bool := flitOf (flitBytes f) == some f

def jobKey : List Byte := List.replicate 32 5
def portIn (g : Port → Port) : State :=
  { setPort 15 (g (portDefault 15)) up with
    secs := [(3, { secPartDefault 3 with slots := (secPartDefault 3).slots.set 7 ⟨0xABCD, jobKey, 9⟩ })] }
def pmdTrain : State := portIn fun x => { x with state := .pmdTrain }
def pcsLock : State := portIn fun x => { x with state := .pcsLock }
def align14 : State := portIn fun x => { x with state := .flitAlign, trainGood := 14 }
def align15 (prev : Option (Nat × Nat)) : State := portIn fun x => { x with state := .flitAlign, trainGood := 15, prev := prev }
/-- The advertisement of a switch with number 5. -/
def advert : List Byte := bytesWith 18 [(0, 1, 2), (2, 2, 0x8005), (8, 2, 7), (10, 2, 7), (12, 2, 7), (14, 2, 7)]
/-- A chain of one certificate, for private key 5, under an anchor, in its two pieces. -/
def certOf : List Byte := toLE 2 1 ++ [3, 0, 0, 0, 0, 0] ++ ecPub 5 ++ toLE 7 0 ++ toLE 48 1 ++ toLE 96 0
def certPieces : List (List Byte) := [certOf.take 252, padTo 252 (certOf.drop 252)]
def inAuth (other : List Byte) (certs : List (List Byte)) : State :=
  portIn fun x => { x with
    state := .auth, rxSeq := 4095, partner := some (trainOf advert), anchors := [toLE 48 1], nonce := List.replicate 32 1
    partnerNonce := other, certs := certs }
def inProof : State := inAuth (List.replicate 32 2) certPieces
def proofOf : List Byte :=
  ecSign 5 7 (proofText (List.replicate 32 2) (List.replicate 32 1) advert (ownTrain inProof 15) 0)
def backedOff : State := portIn fun x => { x with state := .backoff, fails := 10 }
def upWith (margin : Nat) : State := portIn fun x => { x with state := .up, margin := margin }
def authFlit (pl : List Byte) : Flit := mkFlit 4 4095 true pl

theorem test_hyp_PortsTrainAndAuthenticate : [pmdTrain, pcsLock, align14, align15 none, align15 (some (2, 5)), align15 (some (1, 5)),
      inAuth [] [], inProof, backedOff, upWith 98, upWith 99].all (fun s => on s) ∧
    (portOf pmdTrain 15).state = .pmdTrain ∧ (portOf pcsLock 15).state = .pcsLock ∧ (portOf align14 15).trainGood < 15 ∧
    15 ≤ (portOf (align15 none) 15).trainGood ∧ (portOf (align15 none) 15).prev = none ∧
    [mkFlit 5 0 false advert, mkFlit 0 0 false [], authFlit [1], authFlit [2, 0, 2], authFlit [3], mkFlit 3 0 false [2]].all arrives ∧
    (portOf (align15 (some (2, 5))) 15).prev = some ((trainOf advert).kind, (trainOf advert).id) ∧
    (portOf (align15 (some (1, 5))) 15).prev ≠ some ((trainOf advert).kind, (trainOf advert).id) ∧
    [inAuth [] [], inAuth [2] [], inProof].all (fun s => (portOf s 15).state == .auth && (portOf s 15).rxSeq == 4095) ∧
    (portOf (inAuth [] []) 15).partnerNonce = [] ∧ (portOf (inAuth [2] []) 15).partnerNonce ≠ [] ∧
    (portOf (inAuth [2] []) 15).certs.length = 0 ∧ (portOf inProof 15).certs.length ≠ 0 ∧
    [[1], [2, 0, 2], [3]].map (fun l => bF (authFlit l).payload 0 1) = [1, 2, 3] ∧
    bF (authFlit [2, 0, 2]).payload 1 1 = 0 ∧ 0 < bF (authFlit [2, 0, 2]).payload 2 1 ∧
    (((authFlit ([3, 0, 0, 0] ++ proofOf)).payload.drop 4).take 96) = proofOf ∧ authJudge inProof 15 proofOf = true ∧
    authJudge inProof 15 (List.replicate 96 0) = false ∧
    (portOf backedOff 15).state = .backoff ∧
    rg (upWith 99) (pgFab 15) Fld.FAB_LINK_POL_DEFER = 0 ∧ 100 ≤ (portOf (upWith 99) 15).margin + 1 ∧
    ¬(100 ≤ (portOf (upWith 98) 15).margin + 1) := by decide +kernel

/-- The eleventh failure backs off for the full second; 16 good TRAIN flits lead to AUTH; the hundredth low margin retrains. -/
theorem test_training : after (.pmdTrainDone 15 false) (portIn fun x => { x with state := .pmdTrain, fails := 10 }) (fun t =>
      (portOf t 15).backoffMs == 1000 && (portOf t 15).state == .backoff) ∧
    after (.trainFlitReceive 15 (flitBytes (mkFlit 5 0 false advert)) false) align14 (fun t =>
      (portOf t 15).state == .flitAlign && (portOf t 15).trainGood == 15) ∧
    after (.trainFlitReceive 15 (flitBytes (mkFlit 5 0 false advert)) false) (align15 none) (fun t => (portOf t 15).state == .auth) ∧
    after (.marginCheck 15 true true) (upWith 99) (fun t => (portOf t 15).state == .pmdTrain) ∧
    after (.marginCheck 15 true true) (upWith 98) (fun t => (portOf t 15).state == .up && (portOf t 15).margin == 99) := by
  decide +kernel

/-- A right PROOF leads to UP. -/
theorem test_proof : after (.authFlitReceive 15 (flitBytes (authFlit ([3, 0, 0, 0] ++ proofOf))) false) inProof (fun t =>
    (portOf t 15).state == .up && (portOf t 15).authed) := by decide +kernel

/-- A message that port 15 sends, whose key stands in slot 7 of partition 3, and one of two flits. -/
def msgOf (vl slot : Nat) (body : List Byte) : Msg := ⟨vl, vl, 2, 1, padTo 256 (toLE 4 1), body, 3, slot⟩
def idValid (s : State) : State := st pgColDev Fld.COL_DEV_ID 6 (st pgColDev Fld.COL_DEV_ID_VALID 1 s)
def receives : State := idValid (portIn fun x => { x with state := .up, rxSeq := 5, nakReady := true })
def midMessage : State := portIn fun x => { x with state := .up, rxSeq := 5, partials := [[], [mkFlit 1 4 false []], [], []] }
def holdsTwo : State := portIn fun x => { x with state := .up, txSeq := 2, held := [mkFlit 2 0 false [], mkFlit 2 1 false []], replays := 6 }
def holdsLate : State := portIn fun x => { x with state := .up, txSeq := 2, held := [mkFlit 2 0 false [], mkFlit 2 1 false []], replays := 7 }
def sending : State := idValid (portIn fun x => { x with state := .up, credits := [0, 2, 0, 0], cur := [none, some (msgOf 1 7 [1], 1), none, none] })
def begins (slot : Nat) : State :=
  idValid (portIn fun x => { x with state := .up, credits := [1, 0, 0, 0], queue := [msgOf 0 slot [1]] })
def blocked : State := portIn fun x => { x with state := .up, queue := [msgOf 0 7 []] }

/-- A message of one flit: type 2 (LGRANT), counter 9, of device 6 to itself, sealed; and one under a key nobody holds. -/
def oneFlit : Flit :=
  { mkFlit 1 5 true (sealMsg receives { msgOf 0 7 [] with head := padTo 256 (toLE 4 2) } ⟨0xABCD, jobKey, 9⟩).head with dst := 6, vl := 0 }
def noKey : Flit := { mkFlit 1 5 true (bytesWith 256 [(0, 1, 2), (208, 4, 0xABCE)]) with dst := 6, vl := 0 }
def keyOf (f : Flit) : Nat × Nat × Nat := (bF f.payload 208 4, bF f.payload 212 4, bF f.payload 216 8)

theorem test_hyp_PortsCarryMessages : [receives, midMessage, holdsTwo, holdsLate, sending, begins 7, begins 6, blocked].all (fun s =>
      on s && (portOf s 15).state == .up) ∧ (flitOf []).isNone ∧
    [mkFlit 1 6 false [], mkFlit 2 5 false [], mkFlit 1 5 false [], oneFlit, noKey, mkFlit 3 0 false [1]].all arrives ∧
    (mkFlit 1 6 false []).seq ≠ (portOf receives 15).rxSeq ∧ (mkFlit 2 5 false []).seq = (portOf midMessage 15).rxSeq ∧
    (portOf midMessage 15).partials.getD 1 [] ≠ [] ∧ 1 < (portOf midMessage 15).partials.length ∧
    oneFlit.seq = (portOf receives 15).rxSeq ∧ rg receives pgColDev Fld.COL_DEV_ID_VALID ≠ 0 ∧
    openMsg receives noKey.payload [] = none ∧ openMsg receives oneFlit.payload [] = some [] ∧
    (ivAccept receives.ivs (keyOf oneFlit).1 (keyOf oneFlit).2.1 (keyOf oneFlit).2.2).isSome ∧
    deviceMsg (bF oneFlit.payload 0 1) = true ∧ oneFlit.dst = fabId receives ∧
    (portOf holdsTwo 15).held ≠ [] ∧ (portOf holdsTwo 15).replays + 1 < 8 ∧ 8 ≤ (portOf holdsLate 15).replays + 1 ∧
    (portOf receives 15).held = [] ∧
    [(sending, 1), (begins 7, 0), (begins 6, 0)].all (fun x => rg x.1 pgColDev Fld.COL_DEV_ID_VALID == 1 &&
      lanePick (portOf x.1 15) (rg x.1 (pgFab 15) Fld.PAGE_CTRL_QUIESCE == 1) (rg x.1 (pgFab 15) Fld.FAB_LANE_POL_W1)
        (rg x.1 (pgFab 15) Fld.FAB_LANE_POL_W2) == some x.2) ∧
    (portOf sending 15).cur.getD 1 none = some (msgOf 1 7 [1], 1) ∧ 1 < (msgFlits (msgOf 1 7 [1])).length ∧
    [6, 7].all (fun i => (portOf (begins i) 15).cur.getD 0 none == none &&
      laneNext (portOf (begins i) 15) false 0 == some (msgOf 0 i [1], 0)) ∧
    bF (msgOf 0 7 [1]).head 208 4 = 0 ∧ jobSlot (begins 7) 3 7 = some ⟨0xABCD, jobKey, 9⟩ ∧ jobSlot (begins 6) 3 6 = none ∧
    (portOf blocked 15).credits.getD 0 0 = 0 ∧ (portOf blocked 15).cur.getD 0 none = none ∧
    laneNext (portOf blocked 15) false 0 = some (msgOf 0 7 [], 0) := by decide +kernel

/-- A message of one flit in its turn reaches the inbox; the eighth time-out in a row retrains; a blocked message moves to VL3. -/
theorem test_messages : after (.sequencedFlitReceive 15 (flitBytes oneFlit) false false) receives (fun t =>
      (portOf t 15).inbox.length == 1 && (portOf t 15).rxSeq == 6) ∧
    after (.sequencedFlitReceive 15 (flitBytes noKey) false false) receives (fun t => (portOf t 15).inbox.isEmpty &&
      rg t (pgFab 15) Fld.FAB_AUTH_FAIL == 1) ∧
    after (.replayTimeout 15) holdsLate (fun t => (portOf t 15).state == .pmdTrain) ∧
    after (.escapeTimeout 15 0) blocked (fun t => (portOf t 15).queue.map (fun m => m.vl) == [3] && rg t (pgFab 15) Fld.FAB_ESCAPES == 1) ∧
    after (.nakReceive 15 (flitBytes (mkFlit 3 0 false [1, 0, 0, 0, 1])) false) holdsTwo (fun t =>
      rg t (pgFab 15) Fld.FAB_REPLAYS == 1) := by decide +kernel

/-- CRC-32C of "123456789" is 0xE3069283 (the check value of Table 0.7's polynomial). -/
theorem test_crc32c : crc32c (ascii "123456789") = 0xE3069283 := by decide +kernel

/-- SHA-384 of "abc" begins with CB00753F (FIPS 180-4). -/
theorem test_sha384 : (sha384 (ascii "abc")).take 4 = [0xCB, 0x00, 0x75, 0x3F] := by decide +kernel
/-! ### Power, clocks, boot -/

/-- Arrays at the points of a word of 16 each; partition 1's floor and the cap set. -/
def clocked (points : Word) (floor cap : Nat) (s : State) : State :=
  [0, 1, 2, 3, 4, 5, 6, 7, 8, 9].foldl (fun s i => { s with regs := tabSet resetWord s.regs (regKey pgClkDev (fldPoint (16 * i)).off) points })
    (st (pgClk 1) Fld.CLK_POL_FLOOR floor (st pgPwr Fld.PWR_POL cap s))
def allTest (p : Nat → Bool) : Bool := (List.range 160).all p
def above (s : State) (n : Nat) : Bool := decide (pointOf s n < floorOf s n)
def fast (s : State) (n : Nat) : Bool := decide (pointOf s n < 3)

theorem test_hyp_TheLimiterStepsDown : [clocked 0 3 1500 mine, clocked 0 0 1500 mine, clocked 0xFFFFFFFF 0 1500 mine].all (fun s =>
      on s && !arraysStopped s && rg s pgPwr Fld.PWR_POL == 1500) ∧
    ¬(100 ≤ 99 ∨ min 1500 2000 < 1500) ∧ min 1500 2000 < 1501 ∧ ¬(100 ≤ 99 ∨ 2000 < 1501) ∧ (100 ≤ 100 ∨ 2000 < 0) ∧ (100 ≤ 99 ∨ 2000 < 2001) ∧
    above (clocked 0 3 1500 mine) 159 ∧ allTest (fun n => !above (clocked 0 0 1500 mine) n) ∧ fast (clocked 0 0 1500 mine) 0 ∧
    allTest (fun n => !above (clocked 0xFFFFFFFF 0 1500 mine) n && !fast (clocked 0xFFFFFFFF 0 1500 mine) n) ∧
    1 < rg (clocked 0xFFFFFFFF 0 1500 mine) pgClkDev Fld.CLK_DUTY := by decide +kernel

/-- Above the cap the fast arrays move down one point; at 0.9 GHz with the junction limit reached, the duty falls. -/
theorem test_limiterInterval : after (.limiterInterval 1501 1501 99) (clocked 0 3 1500 mine) (fun t => pointOf t 0 == 1 && pointOf t 159 == 1) ∧
    after (.limiterInterval 0 0 100) (clocked 0xFFFFFFFF 0 1500 mine) (fun t => rg t pgClkDev Fld.CLK_DUTY == 7) := by
  decide +kernel

/-- A step of two arrays to take back; a step of duty; every array at 0.9 GHz and one eighth; the arrays stopped. -/
def steps (l : List DownStep) : State := { clocked 0x55555555 3 1500 mine with pwr := { mine.pwr with steps := l } }
def hot : State := st pgClkDev Fld.CLK_DUTY 1 (clocked 0xFFFFFFFF 0 1500 mine)
def stopped : State := nxt .thermalFault hot

theorem test_hyp_ClocksRecoverAndFollowTheSensors : [steps [], steps [.points [0, 159]], steps [.duty], hot, stopped].all (fun s => on s) ∧
    (steps []).pwr.steps = [] ∧ (steps [.points [0, 159]]).pwr.steps = [.points [0, 159]] ∧ [0, 159].Nodup ∧
    (steps [.duty]).pwr.steps = [.duty] ∧ arraysStopped hot = false ∧ rg hot pgClkDev Fld.CLK_DUTY = 1 ∧
    allTest (fun n => pointOf hot n == 3) ∧ arraysStopped stopped = true ∧ arraysStopped (steps []) = false ∧
    rg (steps []) pgClkDev Fld.CLK_DUTY ≠ 1 ∧ (arr (steps []) 159).run = none ∧
    rg (st (pgClk 1) Fld.CLK_POL_EFF_EN 1 (steps [])) (pgClk (arrOwner (steps []) 159)) Fld.CLK_POL_EFF_EN = 1 ∧
    241 < 242 ∧ 15 < 16 ∧ 2 < 3 := by decide +kernel

theorem test_limiterUndo : after .limiterUndo (steps [.points [0, 159]]) (fun t => pointOf t 0 == 0 && pointOf t 1 == 1 && pointOf t 159 == 0) ∧
    after .thermalFaultClear stopped (fun t => rg t pgClkDev Fld.CLK_DUTY == 1) ∧
    after (.mr4TemperatureReport 15 3 2) up (fun t => rg t (pgLpd 15) Fld.LPD_REFRESH_MULT == 2) := by decide +kernel

/-- Boot backs off; a stage for the next attempt: an empty configuration, and one whose record names no page. -/
def backingOff (st' : Option (List Byte)) : State :=
  let s := st pgBoot Fld.BOOT_STATE_STEP 9 booting
  { s with pwr := { s.pwr with staged := st' } }
/-- The public key of private key 5 and its digest, written out. -/
def pub5 : List Byte :=
  4 :: toBE 48 0xd3ec4dfce2647725100dabea7b5f59f465848a4b4fbb6080ac96ddf237f84f4fbc1247651c2770d2cebab9fd2412dfb ++
    toBE 48 0x20168ac65e9bb101ebaa167fa90635f939f00d1d90ed0c6d97495c4579bb950ce059c219dfbbc32b3f9b162e47634690
def digest5 : List Byte := toBE 48 0xddc1993107abcea43a91cd23f0203aa8b2cec155effb28029c2ad03a6638da12b8e147bcf34c44ab1b143f3012662e3a
/-- An image with MIN_VERSION 1, for image key 5, its signature under that key written out, and the fuses of that key. -/
def goodImage : List Byte := toLE 2 1 ++ toLE 2 1 ++ toLE 4 352 ++ pub5 ++ toLE 151 0 ++
  toBE 48 0x6460f955efdcbf3bf7393081ddf04a64747781bc8956c1e5ff47be522f7f758244ae054e91e8aa160c76dc7302bcf181 ++
    toBE 48 0x13e9b20fc0e78ebc035ce12e888a26327cd802a62fe299ec5eb3e695fc7fa7280008dd86911fb514fda58ea8c637a1a1
def badImage : List Byte := bytesWith 368 [(0, 2, 1), (4, 4, 368)]
def fuses (minVersion : Nat) : Fuses := { fusesZero with minVersion := minVersion, keyFused := true, keyHash := digest5, idk := 11 }
def fused (minVersion : Nat) (s : State) : State := { s with pwr := { s.pwr with fuses := fuses minVersion, known := true } }
def obs (flash epoch : Bool) : BootObs := ⟨flash, 0, 0, 0, 0, 0, epoch⟩
theorem test_imageKey : pub5 = ecPub 5 ∧ digest5 = sha384 pub5 ∧ ecVerify pub5 (goodImage.take 256) (goodImage.drop 256) = true := by decide +kernel

/-- Bytes from an address on, as a table. -/
def cells (d : Nat → Byte) (a : Nat) (bs : List Byte) : Tab Byte :=
  (bs.zipIdx a).filterMap fun x => if x.1 = d x.2 then none else some (x.2, x.1)
/-- A device in reset with an image in region A, and the state from which its attempt begins. -/
def unpowered : State :=
  { State.reset with flash := cells flashDefault (slotAddr 0) goodImage }
def begun : State := bootKeys (startDrbg (inc pgSecDev Fld.SEC_ENTROPY_FAIL 3 (bootOne (fuses 1) unpowered)))

theorem goodImage_form : imageForm goodImage 352 = true := by decide +kernel
theorem begun_regions : flashImage begun 0 = goodImage ∧ flashImage begun 1 = [] := by decide +kernel
theorem begun_accepts : acceptable begun goodImage = true ∧ acceptable begun [] = false ∧ begun.pwr.staged = none := by decide +kernel

/-- The first attempt chooses the image of region A. -/
theorem begun_chooses : chooseImage (if acceptable begun (flashImage begun 0) then some (flashImage begun 0) else none)
      (if acceptable begun (flashImage begun 1) then some (flashImage begun 1) else none) begun.pwr.staged = some (0, goodImage) := by
  rw [begun_regions.1, begun_regions.2, begun_accepts.1, begun_accepts.2.1, begun_accepts.2.2]
  rfl

theorem test_hyp_BootAttemptsEndInDoneOrInTheirCause : State.reset.pwr.mode = .inReset ∧ unpowered.pwr.mode = .inReset ∧ 3 < 16 ∧ 16 ≤ 16 ∧
    up.pwr.mode ≠ .inReset ∧ rg up pgBoot Fld.BOOT_STATE_STEP ≠ 9 ∧
    [backingOff none, backingOff (some goodImage), backingOff (some badImage)].all (fun s => on s && rg s pgBoot Fld.BOOT_STATE_STEP == 9) ∧
    (obs false true).flashOk = false ∧ (obs true true).flashOk = true ∧
    chooseImage (if acceptable (backingOff none) (flashImage (backingOff none) 0) then some [] else none)
      (if acceptable (backingOff none) (flashImage (backingOff none) 1) then some [] else none) (backingOff none).pwr.staged = none ∧
    (chooseImage none none (backingOff (some goodImage)).pwr.staged = some (2, goodImage)) ∧
    (chooseImage none none (backingOff (some badImage)).pwr.staged = some (2, badImage)) ∧ recordOf badImage 0 = none ∧
    (badImage.length - 352) / 16 = 1 ∧ (goodImage.length - 352) / 16 = 0 ∧ (obs true false).epochBack = false := by decide +kernel

/-- A failed attempt shows its cause and backs off; a good one ends in DONE. -/
theorem test_boot : after (.bootBackoffExpiry (obs false true)) (backingOff none) (fun t => rg t pgBoot Fld.BOOT_STATE_FAIL == 1 &&
      rg t pgBoot Fld.BOOT_STATE_STEP == 9) ∧
    after (.bootBackoffExpiry (obs true true)) (backingOff (some badImage)) (fun t => rg t pgBoot Fld.BOOT_STATE_FAIL == 3) ∧
    after (.powerUp (fuses 1) 3 (obs true false)) unpowered (fun t => rg t pgBoot Fld.BOOT_STATE_FAIL == 4 &&
      rg t pgBoot Fld.BOOT_IMG_A_ACCEPTABLE == 1) := by decide +kernel

/-- A device with the seal open, one with it closed, one with a flush in progress and frames ahead erased, and none. -/
def unsealed : State := { up with sec := { up.sec with sealOpen := true } }
def frames (l : List Nat) (w : Option FlushJob) : State := { up with evr := { up.evr with erased := l, writing := w } }

theorem test_hyp_ResetAndPowerFailure : Running up ∧ up.sec.sealOpen = false ∧ Running unsealed ∧ unsealed.sec.sealOpen = true ∧
    unsealed.pwr.fuses.debugOff = false ∧ unsealed.secJobs = [] ∧ erasedAhead up.evr = 0 ∧ erasedAhead (frames [0] none).evr ≠ 0 :=
  ⟨rfl, rfl, rfl, rfl, rfl, rfl, by decide +kernel⟩

/-- A fall of MOD_RESET_N keeps the flash and the count of boots; a power failure writes the header of a flush in progress. -/
theorem test_modReset : after .modResetAssert { mine with pwr := { mine.pwr with counter := 9 } } (fun t => t.pwr.mode == .inReset &&
      t.pwr.counter == 9 && t.exts == []) ∧
    after .powerFail (frames [0] (some ⟨0, 2, [7], [], 0⟩)) (fun t => t.pwr.mode == .failing && tabGet flashDefault t.flash (frameAddr 0) == 7) ∧
    after (.jtagOpeningInstruction 0 0) unsealed (fun t => t.sec.debugOpen && t.sec.ir == 0) ∧
    after (.jtagOpeningInstruction 0 0) up (fun t => t == { up with sec := { up.sec with ir := 0xFF } }) := by
  decide +kernel

/-- A stage of `len` bytes: after DONE at address 0, which partition 0 holds; before DONE in yard scratch. -/
def holds0 : State := { up with exts := [(0, .assigned 0)] }
def stage (len : Nat) (img : List Byte) : State :=
  poke 0 img (st pgBoot Fld.BOOT_STAGE_HI 0 (st pgBoot Fld.BOOT_STAGE_LEN len (fused 1 holds0)))
def stageLate (len : Nat) (img : List Byte) : State :=
  poke 0x80000000000 img (st pgBoot Fld.BOOT_STAGE_LEN len (fused 1 booting))
def stageHeld0 : State := { stage 352 goodImage with retrain := ⟨[⟨false, 0, 0⟩], [], []⟩ }
def stageBad : State := { stage 352 goodImage with mce := ⟨[(0, some ⟨0, true⟩)], [], []⟩ }

/-- The stage holds the image. -/
theorem stage_image : rdBytes (stage 352 goodImage) 0 352 = goodImage ∧ rdBytes (stageLate 352 goodImage) 0x80000000000 352 = goodImage ∧
    stageAddr (stage 352 goodImage) = 0 ∧ stageAddr (stageLate 352 goodImage) = 0x80000000000 :=
  ⟨rdBytes_poke _ goodImage _, rdBytes_poke _ goodImage _, by decide +kernel, by decide +kernel⟩

theorem test_hyp_BootCommandsJudgeTheStagedImage : [up, stage 352 goodImage, stage 352 [], stageBad, stageLate 352 goodImage].all (fun s => on s) ∧
    on stageHeld0 = true ∧ stageOk stageHeld0 0 352 = true ∧ bootDone stageHeld0 = true ∧ stageHeld stageHeld0 0 352 = true ∧
    [stage 352 goodImage, stage 352 [], stageBad].all (fun s => !stageHeld s 0 352) ∧ stageOk up 0 0 = false ∧
    imageAuth (stage 352 goodImage) goodImage = true ∧ imageAuth (stageLate 352 goodImage) goodImage = true ∧
    imageAuth (fused 2 (stage 352 goodImage)) (goodImage.take 351) = false ∧ bF goodImage 2 2 < (fuses 2).minVersion ∧
    rg stageHeld0 pgBoot Fld.BOOT_CMD_STAT_BUSY = 0 ∧ rg (st pgBoot Fld.BOOT_CMD_STAT_BUSY 1 up) pgBoot Fld.BOOT_CMD_STAT_BUSY = 1 ∧
    bootDone (stage 352 []) = true ∧ bootDone (stageLate 352 []) = false ∧
    [stage 352 goodImage, stage 352 [], stageBad, stageLate 352 goodImage].all (fun s => stageOk s (stageAddr s) 352 && rg s pgBoot Fld.BOOT_STAGE_LEN == 352) ∧
    (memRead .beside 0 (stageAddr stageBad) (min 352 0x1000000) stageBad).2 ≠ none ∧
    (memRead .beside 0 (stageAddr (stage 352 [])) (min 352 0x1000000) (stage 352 [])).2 = none ∧
    imageForm (rdBytes (stage 352 []) 0 352) 352 = false ∧
    (stage 352 goodImage).pwr.fuses.minVersion ≤ bF goodImage 2 2 := by decide +kernel

/-- INSTALL_A puts the image into flash; what is no image, and BOOT_STAGED after DONE, is FORMAT. -/
theorem test_install : after (.installA 0 true) (stage 352 goodImage) (fun t => rg t pgBoot Fld.BOOT_CMD_STAT_CODE == 0 &&
      tabGet flashDefault t.flash 0 == 1 && tabGet flashDefault t.flash 4 == 0x60) ∧
    after (.installB 0 true) (stageLate 352 []) (fun t => rg t pgBoot Fld.BOOT_CMD_STAT_CODE == 0x13) ∧
    after (.bootStaged 0) (stage 352 goodImage) (fun t => rg t pgBoot Fld.BOOT_CMD_STAT_CODE == 0x13) := by decide +kernel

/-- A field of bytes read from memory is the number that stands there. -/
theorem bF_rdBytes (s : State) (a n off k : Nat) (h : off + k ≤ n) : bF (rdBytes s a n) off k = rdLE s (a + off) k := by
  have e : ((rdBytes s a n).drop off).take k = rdBytes s (a + off) k := by
    apply List.ext_getElem
    · simp only [rdBytes, List.length_take, List.length_drop, List.length_map, List.length_range]
      omega
    · intro i h1 h2
      simp only [rdBytes, List.getElem_take, List.getElem_drop, List.getElem_map, List.getElem_range, Nat.add_assoc]
  unfold bF rdLE
  rw [e]

/-- A stage of 16 MiB and a record more, before DONE. -/
def stageBig : State := stageLate 0x1000010 [1, 0, 0, 0, 0x10, 0, 0, 1]

theorem test_hyp_BootCommandsJudgeTheStagedImage_big : Running stageBig ∧ bootDone stageBig = false ∧
    rg stageBig pgBoot Fld.BOOT_STAGE_LEN = 0x1000010 ∧ stageOk stageBig (stageAddr stageBig) 0x1000010 = true ∧
    imageForm (rdBytes stageBig (stageAddr stageBig) 0x1000010) 0x1000010 = true ∧ 0x1000000 < 0x1000010 := by
  refine ⟨running_of (by decide +kernel), by decide +kernel, by decide +kernel, by decide +kernel, ?_, by decide⟩
  unfold imageForm
  rw [bF_rdBytes _ _ _ _ _ (by decide), bF_rdBytes _ _ _ _ _ (by decide)]
  decide +kernel

/-! ### The event recorder -/

def evKey (n : Nat) : EvKey := ⟨pgTok, 9, 0, n, none⟩
def acc (sev : Nat) : EvAcc := ⟨sev, 3, [], 0, 0, 1, 2⟩
/-- Event 1 waits at its source; `rec` says what the recorder holds, `h` how its flushes stand. -/
def recorder (sev : Nat) (h : Evr → Evr) : State :=
  { up with evr := h { up.evr with coal := [(5, [(evKey 1, acc sev), (evKey 2, acc 0)])] } }
def holding (e : Evr) : Evr := { e with slots := [(4095, ⟨65535, some (evKey 1, acc 0)⟩)], recency := [4095] }
def crowded (e : Evr) : Evr := { e with slots := [(0, ⟨0, some (evKey 9, acc 3)⟩)], recency := List.replicate 4096 0 }
def flushing (e : Evr) : Evr := { e with erased := [0, 1], spaced := true }
def waitingFlush (e : Evr) : Evr := { e with deferred := some 2 }
def quietEvr (s : State) : State := { s with evr := { s.evr with coal := [] } }

theorem test_hyp_TheRecorderKeepsEvents : [recorder 0 id, recorder 0 holding, recorder 3 flushing, recorder 3 waitingFlush, recorder 2 crowded].all
      (fun s => on s && nextSource s.evr == some 5 && ((tabGet coalDefault s.evr.coal 5).map Prod.fst).head? == some (evKey 1)) ∧
    slotOfEvKey (recorder 0 holding).evr (evKey 1) = some 4095 ∧ (slotAt (recorder 0 holding).evr 4095).body = some (evKey 1, acc 0) ∧
    slotOfEvKey (recorder 0 id).evr (evKey 1) = none ∧ slotFor (recorder 0 id).evr 0 = some 0 ∧
    slotOfEvKey (recorder 2 crowded).evr (evKey 1) = none ∧ slotFor (recorder 2 crowded).evr 2 = none ∧
    rg up pgEvr Fld.EVR_POL_AUTO_EN = 1 ∧ rg up pgEvr Fld.EVR_POL_FLUSH_SEV ≤ 3 ∧ ¬(rg up pgEvr Fld.EVR_POL_FLUSH_SEV ≤ 0) ∧
    canFlush (recorder 3 flushing).evr = true ∧ (recorder 3 flushing).evr.deferred = none ∧ canFlush (recorder 3 id).evr = false ∧
    (recorder 3 waitingFlush).evr.deferred ≠ none ∧ (quietEvr (recorder 0 holding)).evr.coal = [] ∧
    (slotAt (quietEvr (recorder 0 holding)).evr 4095).body ≠ none := by decide +kernel

/-- A live record takes the events, its GEN wraps; a flush of cause 2 starts; a record that fails is freed. -/
theorem test_eventRecord : after (.eventRecord none) (recorder 0 holding) (fun t => (slotAt t.evr 4095).gen == 0 &&
      ((slotAt t.evr 4095).body.map fun b => b.2.count) == some 6) ∧
    after (.eventRecord none) (recorder 3 flushing) (fun t => t.evr.head == 1 && (t.evr.writing.map fun j => j.cause) == some 2) ∧
    after (.eventRecord (some 4095)) (quietEvr (recorder 0 holding)) (fun t => (slotAt t.evr 4095).body.isNone && t.evr.recency.isEmpty) := by
  decide +kernel

/-- The recorder's range in the first extent, and in yard scratch that partition 0 holds. -/
def scratch0 : State := st pgYrd (fldWayMode 0) 2 up
def erasing : State := { up with evr := { up.evr with erasing := some 31 } }
def heldScratch : State := { scratch0 with yard := { scratch0.yard with zeroising := [0] } }
def writingBoot : State := { booting with evr := { booting.evr with writing := some ⟨31, 2, [], [], 0⟩ } }
def elsewhere : State := st pgEvr Fld.EVR_ADDR_LO 1 booting
def bothFlush : State := recorder 0 fun e => waitingFlush (flushing e)
def writing0 : State := { scratch0 with evr := { scratch0.evr with writing := some ⟨31, 2, [], [], 0⟩ } }

theorem test_hyp_FlushesAndRecorderCommands : (frames [0] (some ⟨0, 2, [7], [], 0⟩)).evr.writing ≠ none ∧
    [up, erasing, scratch0, writing0, recorder 0 waitingFlush, recorder 0 flushing].all (fun s => on s && s.pwr.mode != .inReset && bootDone s) ∧
    (recorder 0 waitingFlush).evr.deferred = some 2 ∧ erasing.evr.erasing = some 31 ∧ up.evr.erasing = none ∧ erasedAhead up.evr < 31 ∧
    (recorder 0 flushing).evr.deferred = none ∧ canFlush (recorder 0 flushing).evr = true ∧ canFlush up.evr = false ∧ up.evr.deferred = none ∧
    ownsRange up 0 (evrAddr up) 262144 = false ∧ ownsRange scratch0 0 (evrAddr scratch0) 266304 = true ∧
    ownsRange scratch0 0 (evrAddr scratch0) 262144 = true ∧ writing0.evr.writing.any (fun j => j.frame == 31) ∧
    scratch0.evr.writing = none ∧ scratch0.evr.erasing = none ∧ ownsRange up 0 (evrAddr up) 266304 = false ∧
    canFlush { bothFlush.evr with spaced := true } = true ∧ bothFlush.evr.deferred = some 2 ∧ on bothFlush = true ∧
    canFlush { up.evr with spaced := true } = false ∧ heldRange scratch0 (evrAddr scratch0) 266304 = false ∧
    heldRange scratch0 (evrAddr scratch0) 262144 = false ∧ on heldScratch = true ∧ bootDone heldScratch = true ∧
    heldRange heldScratch (evrAddr heldScratch) 262144 = true ∧ heldRange heldScratch (evrAddr heldScratch) 266304 = true ∧
    ownsRange heldScratch 0 (evrAddr heldScratch) 266304 = true ∧ ownsRange heldScratch 0 (evrAddr heldScratch) 262144 = true ∧
    rg up pgEvr Fld.EVR_CMD_STAT_BUSY = 0 ∧ rg (st pgEvr Fld.EVR_CMD_STAT_BUSY 1 up) pgEvr Fld.EVR_CMD_STAT_BUSY = 1 ∧
    [booting, writingBoot, elsewhere].all (fun s => on s && !bootDone s) ∧ evrAddr elsewhere ≠ 0x80000000000 ∧
    evrAddr writingBoot = 0x80000000000 ∧ writingBoot.evr.writing.any (fun j => j.frame == 31) ∧ booting.evr.writing = none ∧
    on booting = true ∧ bootDone booting = false ∧ evrAddr booting = 0x80000000000 := by decide +kernel

theorem length_flashBytes (s : State) (a n : Nat) : (flashBytes s a n).length = n := by
  simp only [flashBytes, List.length_map, List.length_range]

theorem length_flatMap64 (f : Nat → List Byte) (h : ∀ i, (f i).length = 64) (l : List Nat) : (l.flatMap f).length = 64 * l.length := by
  induction l with
  | nil => rfl
  | cons i l ih =>
    rw [List.flatMap_cons, List.length_append, List.length_cons, h, ih]
    omega

theorem length_emptySlots : ((List.range 4096).flatMap fun i => slotBytes scratch0.evr.genBase (slotAt scratch0.evr i)).length = 262144 := by
  rw [length_flatMap64 _ (fun _ => rfl), List.length_range]

/-- The recorder's range takes the whole of a DUMP and of a RING_READ. -/
theorem test_hyp_FlushesAndRecorderCommands_writes :
    (memWrite .beside 0 0 (evrAddr scratch0) ((List.range 4096).flatMap fun i => slotBytes scratch0.evr.genBase (slotAt scratch0.evr i))
      scratch0).2 = none ∧
    (memWrite .beside 0 0 (evrAddr scratch0) (flashBytes scratch0 (frameAddr (31 % 32)) 266304) scratch0).2 = none :=
  ⟨memWrite_scratch _ _ _ _ _ _ length_emptySlots (by decide +kernel), memWrite_scratch _ _ _ _ _ _ (length_flashBytes _ _ _) (by decide +kernel)⟩

/-! ### KV streams -/

/-- The stream table of partition 1 has two streams at address 0; stream 1's entry has the fields given. -/
def kvTable (l : List (Nat × Nat × Nat)) : State := poke 64 (bytesWith 64 l) (st (pgKvs 1) Fld.KVS_GEOM_DH_CODE 0 (st (pgKvs 1) Fld.KVS_GEOM_LOG2_STREAMS 1 mine))
def kvBusy : State := st (pgKvs 1) Fld.KVS_CMD_STAT_BUSY 1 (kvTable [])
def kvTorn : State := { kvTable [] with parts := [(1, { partDefault 1 with state := .torn })] }
def kvFrames (arg hi frames : Nat) : State :=
  st (pgKvs 1) Fld.KVS_CMD_ARG_LO arg (st (pgKvs 1) Fld.KVS_CMD_ARG_HI hi (st (pgKvs 1) Fld.KVS_FRAMES frames (st (pgKvs 1) Fld.KVS_GEOM_LOG2_FRAMES 0 (kvTable []))))
/-- An ATTN that has captured stream 1. -/
def attn1 (left : List Nat) : Flight :=
  { flight 0 1 .kvs (bytesWith 64 [(0, 1, 4), (2, 1, 0x22), (24, 4, 1), (28, 2, 1)]) with
    work := .attn ⟨true, [0], .k16, 0, left, [], false, none, [], 0⟩
    cap := { capNone with list := bytesWith 16 [(0, 2, 1)], blk := bytesWith 128 [(0, 6, 0x20000), (8, 6, 0x21000)] } }
def kvShared : State := flying [attn1 [0]] (kvTable [(0, 1, 1), (24, 6, 0x8000)])
def kvWaits (s : State) : State := { s with kvs := [(1, ⟨[], [], some (2, 1, 0)⟩)] }

/-- A command on stream 1 of partition 1: its BUSY is set, and its entry has been read. -/
def kvStarted (s : State) : Try := (st (pgKvs 1) Fld.KVS_CMD_STAT_BUSY 1 s, none)
/-- The 64 B of memory at address 64 do not pass their check. -/
def kvRotten : State := { kvTable [] with mce := { mine.mce with blocks := [(0, some ⟨0, true⟩)] } }
/-- The code that ends a command, and none for one that waits or runs on. -/
def endCode (r : Try) : Option Nat := r.2.map fun e => e.code

theorem test_hyp_KvsCommands : [kvBusy, kvTorn, kvTable [], kvTable [(0, 1, 1)], kvTable [(0, 1, 2)], kvShared, kvRotten, kvWaits kvShared,
      kvWaits (kvTable [(0, 1, 1)]), kvWaits kvRotten, kvFrames 0x10000 0x10000 0].all (fun s => on s && bootDone s) ∧
    rg kvBusy (pgKvs 1) Fld.KVS_CMD_STAT_BUSY = 1 ∧ rg (kvTable []) (pgKvs 1) Fld.KVS_CMD_STAT_BUSY = 0 ∧ partState kvTorn 1 = .torn ∧
    kvStreams (kvTable []) 1 ≤ 2 ∧ ¬(kvStreams (kvTable []) 1 ≤ 1) ∧
    ownStruct { kvTable [] with exts := [] } 1 (kvEntry (kvTable []) 1 1) 64 = false ∧
    ownStruct (kvTable []) 1 (kvEntry (kvTable []) 1 1) 64 = true ∧ kvState (kvTable []) 1 1 = 0 ∧
    endCode (kvRead 1 1 (kvStarted kvRotten)) = some 0x21 ∧ endCode (kvRead 1 1 (kvStarted (kvTable []))) = none ∧
    endCode (kvRead 1 1 (kvStarted (kvTable [(0, 1, 1)]))) = none ∧ endCode (kvRead 1 1 (kvStarted kvShared)) = none ∧
    ownStruct (kvTable []) 1 (2 ^ 30) 4096 = false ∧ ownStruct (kvTable []) 1 0x8000 4096 = true ∧
    bF (rdBytes (kvTable [(24, 6, 2 ^ 30)]) 64 64) 24 6 = 2 ^ 30 ∧ bF (rdBytes (kvTable [(3, 1, 1)]) 64 64) 3 1 ≠ 0 ∧
    bit 13 (bF (rdBytes (kvTable [(32, 2, 0x2005)]) 64 64) 32 2) = true ∧ (tok (kvTable []) 5).owner ≠ 1 ∧
    bF (rdBytes (kvTable [(4, 2, 257)]) 64 64) 4 2 = 257 ∧ bF (rdBytes (kvTable [(24, 6, 0x8010)]) 64 64) 24 6 % 4096 ≠ 0 ∧
    bF (rdBytes (kvTable [(24, 6, 0x8000)]) 64 64) 24 6 = 0x8000 ∧
    (kvOpen 1 1 (kvStarted (kvTable [(24, 6, 0x8000)])).1).2.isNone ∧ (kvPut 1 1 8 4 0 (kvStarted (kvTable [(0, 1, 1)]))).2.isNone ∧
    (kvPut 1 1 0 1 1 (kvStarted (kvTable [(0, 1, 2)]))).2.isNone ∧
    kvState (kvTable [(0, 1, 1)]) 1 1 = 1 ∧ kvState (kvTable [(0, 1, 2)]) 1 1 = 2 ∧ kvState kvShared 1 1 = 1 ∧
    kvReferenced kvShared 1 1 = true ∧ kvReferenced (kvTable [(0, 1, 1)]) 1 1 = false ∧
    (kvClose 1 1 (kvStarted (kvTable [(0, 1, 1)])).1).2.isNone ∧ (kvTrim 1 1 0 (kvStarted (kvTable [(0, 1, 1)])).1).2.isNone := by
  decide +kernel

/-- `ADD_FRAMES` at the edges of its conditions, and a command that waits, of either kind. -/
theorem test_hyp_KvsCommands_frames :
    ownStruct mine 1 (2 ^ 30) (1024 * kvDH (kvTable []) 1) = false ∧ ownStruct mine 1 0x10001 (1024 * kvDH (kvTable []) 1) = true ∧
    ownStruct mine 1 0x10000 (1024 * kvDH (kvTable []) 1) = true ∧
    2 ^ rg (kvFrames 0 0x10000 1) (pgKvs 1) Fld.KVS_GEOM_LOG2_FRAMES < rg (kvFrames 0 0x10000 1) (pgKvs 1) Fld.KVS_FRAMES + 1 ∧
    ¬(2 ^ rg (kvFrames 0 0x10000 0) (pgKvs 1) Fld.KVS_GEOM_LOG2_FRAMES < rg (kvFrames 0 0x10000 0) (pgKvs 1) Fld.KVS_FRAMES + 1) ∧
    rg (kvFrames 0x10000 0x10000 0) (pgKvs 1) Fld.KVS_CMD_ARG_HI / 65536 = 1 ∧ (kv (kvTable []) 1).waiting = none ∧
    (kv (kvWaits kvShared) 1).waiting = some (2, 1, 0) ∧ endCode (kvRead 1 1 (kvStarted (kvWaits kvRotten))) = some 0x21 ∧
    endCode (kvRead 1 1 (setKv 1 ⟨[], [], none⟩ (kvWaits kvShared), none)) = none ∧
    ownStruct (kvWaits (kvTable [(0, 1, 1)])) 1 (kvEntry (kvTable []) 1 1) 64 = true := by decide +kernel

/-- OPEN makes a stream ACTIVE; a referenced one waits with CLOSE; frames enter the free list. -/
theorem test_kvs : after (.kvsCmdOpen 1 1) (kvTable [(24, 6, 0x8000)]) (fun t => kvState t 1 1 == 1 && rg t (pgKvs 1) Fld.KVS_OPEN == 1 &&
      rg t (pgKvs 1) Fld.KVS_CMD_STAT_CODE == 0) ∧
    after (.kvsCmdClose 1 1) kvShared (fun t => rg t (pgKvs 1) Fld.KVS_CMD_STAT_BUSY == 1) ∧
    after (.kvsCmdSetBudget 1 1) kvRotten (fun t => rg t (pgKvs 1) Fld.KVS_CMD_STAT_CODE == 0x21 && rg t (pgKvs 1) Fld.KVS_CMD_STAT_BUSY == 0) ∧
    after (.kvsCmdReleased 1) (kvWaits (kvTable [(0, 1, 1)])) (fun t => kvState t 1 1 == 0) ∧
    after (.kvsCmdAddFrames 1) (kvFrames 0x10000 0x10000 0) (fun t => (kv t 1).free == [0x10000]) := by decide +kernel

/-- A KVAPP of one item of `count` positions to stream 1, which holds one position in a page at 0x100000. -/
def kvOne (state count : Nat) : State :=
  poke 0x20000 (bytesWith 16 [(0, 2, 1), (2, 2, count), (8, 6, 0x30000)])
    (poke 0x9000 (toLE 8 0x100001) (poke 0x8000 (toLE 8 0x9001)
      (flying [flight 0 1 .kvs (bytesWith 64 [(0, 1, 5), (2, 1, 0x22), (16, 6, 0x20000), (24, 4, 1), (28, 4, 64)])]
        (kvTable [(0, 1, state), (8, 4, 4), (12, 4, 1), (24, 6, 0x8000)]))))

/-- The test holds of what the first item of the KVAPP does: the flight, the state before and what the item gives. -/
def itemOf (s : State) (p : Flight → State → State × KvItemEnd → Bool) : Bool :=
  match kvTurn s 0 with
  | some f => p f (proceed 0 (updFlight 0 (fun h => { h with snap := some (snapOf s f) }) s))
      (kvItem { f with snap := some (snapOf s f) } 0 (proceed 0 (updFlight 0 (fun h => { h with snap := some (snapOf s f) }) s)))
  | none => false

theorem test_hyp_KvappItemsAndAttnSequences : [kvOne 1 0, kvOne 0 1, kvOne 1 1].all (fun s => on s && canonical s &&
      itemOf s fun f s2 r => f.work == .none && (kvWork f).next == 0 && !mustWait s2 0 (kvRanges s2 f 0) [] &&
        r.2.stop.map (fun e => e.code) != some heldMark && (tryRead .beside 1 0x20000 16 (s2, none)).2.isNone) ∧
    [kvOne 0 1].all (fun s => itemOf s fun f s2 _ => mLE (snapOf s f) 0x20002 2 == 1 && decide (1 < kvStreams s2 1) &&
      structRange s2 1 (kvEntry s2 1 1) 64 && (kvRead 1 1 (s2, none)).2.isNone &&
      kvItemCheck s2 { f with snap := some (snapOf s f) } 1 1 0x30000 true == some 0x13) ∧
    itemOf (kvOne 1 0) (fun f _ _ => mLE (snapOf (kvOne 1 0) f) 0x20002 2 == 0) ∧
    itemOf (kvOne 1 1) (fun f _ r => mLE (snapOf (kvOne 1 1) f) 0x20002 2 == 1 && r.2.stop.isNone) := by decide +kernel

theorem test_kvappItem : after (.kvappItem 0) (kvOne 1 1) (fun t => kvLength t 1 1 == 2 && rg t (pgKvs 1) Fld.KVS_APPENDED == 1) := by
  decide +kernel

/-- An ATTN of one row over a stream of no position: its output is zero. -/
def attnFresh : State := flying [{ attn1 [0] with work := .none }] (kvTable [(0, 1, 1)])
theorem test_hyp_KvappItemsAndAttnSequences_attn : on kvShared = true ∧ canonical kvShared = true ∧ on attnFresh = true ∧
    canonical attnFresh = true ∧ ((attnFlight attnFresh 0).any fun x => !x.2.captured && (kvRead 1 1 (attnFresh, none)).2.isNone) ∧
    ((attnFlight kvShared 0).any fun x => x.2.captured && !x.2.ovf && x.2.left == [0] &&
      attnPlace kvShared x.1 0 (candidatesBy kvShared x.1 (bit 0 (bF x.1.bytes 30 2))) == some 0 &&
      atBlocks kvShared x.1 x.2 0 0 == [] && atPages x.1 x.2 0 == [] && !mustWait kvShared 0 [(0x20000, 32)] [(0x21000, 32)] &&
      (kvRead 1 1 (kvShared, none)).2.isNone && (readAll .yard 1 [(0x20000, 32)] (proceed 0 kvShared)).2.isNone &&
      !(attnSeq (snapOf kvShared x.1) x.1 x.2 16 0 []).bad && !((attnSeq (snapOf kvShared x.1) x.1 x.2 16 0 []).els.any fun e => e.2.overflow) &&
      (writeAll .yard 1 0 (joinWrites ((attnSeq (snapOf kvShared x.1) x.1 x.2 16 0 []).els.map fun e => (e.1, toLE 2 e.2.word)))
        (readAll .yard 1 [(0x20000, 32)] (proceed 0 kvShared)).1).2.isNone) ∧ arraysStopped kvShared = false := by decide +kernel
/-! ### Recurrence streams -/

/-- The stream table of partition 1 stands at address 0; one head of 16 by 16, images from 0x40000; entry 1 as given. -/
def scTable (l : List (Nat × Nat × Nat)) : State :=
  poke 32 (bytesWith 32 l) (st (pgScn 1) Fld.SCN_GEOM_HM1 0 (st (pgScn 1) Fld.SCN_GEOM_N_CODE 0 (st (pgScn 1) Fld.SCN_GEOM_P_CODE 0
    (st (pgScn 1) Fld.SCN_GEOM_SFMT 0 (st (pgScn 1) Fld.SCN_GEOM_LOG2_STREAMS 1 (st (pgScn 1) Fld.SCN_STAB_LO 0 (st (pgScn 1) Fld.SCN_STAB_HI 0
      (st (pgScn 1) Fld.SCN_AREA_LO 0x40 (st (pgScn 1) Fld.SCN_AREA_HI 0 (st (pgScn 1) Fld.SCN_SLOTS 1 mine))))))))))
def scIn (state : Nat) (slots : List ScnSlot) (want : List Nat) : State :=
  setSc 1 ⟨slots, want, none, [], []⟩ (scTable [(0, 1, state), (8, 6, 0x10000)])
def scBusy : State := st (pgScn 1) Fld.SCN_CMD_STAT_BUSY 1 (scTable [])
def scWaits (op state : Nat) (siding : Nat) : State := setSc 1 ⟨[], [], some (op, 1), [], []⟩ (scTable [(0, 1, state), (8, 6, siding)])

/-- A SCAN of one step of stream 1, admitted or not. -/
def scan1 (work : Work) : Flight :=
  { flight 0 1 .scn (bytesWith 64 [(0, 1, 6), (2, 1, 0x22), (32, 4, 1)]) with
    work := work
    cap := { capNone with
      list := bytesWith 16 [(0, 4, 1), (8, 4, 1)]
      blk := bytesWith 128 [(0, 6, 0x20000), (8, 6, 0x21000), (16, 6, 0x22000), (24, 6, 0x23000), (32, 6, 0x24000)] } }
def admitted : Work := .scan ⟨true, false, 1, .k16, 0, [], false, none, [], 0⟩

/-- A command on stream 1 of partition 1: its BUSY is set. -/
def scStarted (s : State) : State := st (pgScn 1) Fld.SCN_CMD_STAT_BUSY 1 s
/-- The 512 B of memory at address 0 do not pass their check. -/
def rotten (s : State) : State := { s with mce := { s.mce with blocks := [(0, some ⟨0, true⟩)] } }

theorem test_hyp_ScnCommands : [scBusy, scTable [], { scTable [] with parts := [(1, { partDefault 1 with state := .torn })] },
      { scTable [] with exts := [] }, scIn 1 [] [], scIn 2 [⟨0, 1, 1⟩] [], scIn 3 [⟨0, 1, 1⟩] [], rotten (scTable [])].all
      (fun s => on s && bootDone s) ∧
    rg scBusy (pgScn 1) Fld.SCN_CMD_STAT_BUSY = 1 ∧ rg (scTable []) (pgScn 1) Fld.SCN_CMD_STAT_BUSY = 0 ∧ scStreams (scTable []) 1 = 2 ∧
    ownStruct { scTable [] with exts := [] } 1 (scEntry (scTable []) 1 1) 32 = false ∧
    ownStruct (scTable []) 1 (scEntry (scTable []) 1 1) 32 = true ∧ scState (scTable []) 1 1 = 0 ∧ scSB (scTable []) 1 = 1024 ∧
    endCode (scRead 1 1 (scStarted (rotten (scTable [])), none)) = some 0x21 ∧
    [scTable [], scIn 1 [] [], scIn 2 [⟨0, 1, 1⟩] [], scIn 3 [⟨0, 1, 1⟩] []].all (fun s => (scRead 1 1 (scStarted s, none)).2.isNone) ∧
    (piecesOf (2 ^ 30) 1024).any (fun y => !ownsAt (scTable []) 1 y) ∧
    (piecesOf 0x10000 1024).all (fun y => ownsAt (scTable []) 1 y && regionOf y == .hbm 0) ∧
    bF (rdBytes (scTable [(1, 1, 1), (8, 6, 0x10000)]) 32 32) 1 3 ≠ 0 ∧ 0x10010 % 512 ≠ 0 ∧ 0x10000 % 512 = 0 ∧
    regionOf 0x80000000000 = .scratch 0 ∧
    (scnOpen 1 1 (scStarted (scTable [(8, 6, 0x10000)]))).2.isNone := by decide +kernel

theorem test_hyp_ScnCommands_open : scState (scIn 3 [⟨0, 1, 1⟩] []) 1 1 = 3 ∧ scQuiet (scIn 3 [⟨0, 1, 1⟩] []) 1 1 = false ∧
    scState (scIn 1 [] []) 1 1 = 1 ∧ scQuiet (scIn 1 [] []) 1 1 = true ∧ sidingOwned (scIn 1 [] []) 1 1 = true ∧
    scQuiet (scTable [(0, 1, 1), (8, 6, 2 ^ 30)]) 1 1 = true ∧ sidingOwned (scTable [(0, 1, 1), (8, 6, 2 ^ 30)]) 1 1 = false ∧
    (scnClose 1 1 (scStarted (scIn 1 [] []))).2.isNone ∧ (scnZero 1 1 (scStarted (scIn 1 [] []))).2.isNone ∧
    (memWrite .beside 1 0 0x10000 (List.replicate 1024 0) (scStarted (scIn 1 [] []))).2 = none ∧
    scState (scIn 2 [⟨0, 1, 1⟩] []) 1 1 = 2 ∧ scQuiet (scIn 2 [⟨0, 1, 1⟩] []) 1 1 = true ∧
    scSlotOf (scIn 2 [⟨0, 1, 1⟩] []) 1 1 = some ⟨0, 1, 1⟩ ∧ sidingOwned (scIn 2 [⟨0, 1, 1⟩] []) 1 1 = true ∧
    (scnClose 1 1 (scStarted (scIn 2 [⟨0, 1, 1⟩] []))).2.isNone ∧ (scnZero 1 1 (scStarted (scIn 2 [⟨0, 1, 1⟩] []))).2.isNone ∧
    (memWrite .beside 1 0 0x10000 (List.replicate 1024 0) (scStarted (scIn 2 [⟨0, 1, 1⟩] []))).2 = none ∧
    (memWrite .beside 1 0 (scImage (scIn 2 [⟨0, 1, 1⟩] []) 1 0 1) (List.replicate 1024 0) (scStarted (scIn 2 [⟨0, 1, 1⟩] []))).2 =
      none := by decide +kernel

/-- A command that waits, of each kind, and the states in which it is taken up again. -/
theorem test_hyp_ScnCommands_waiting : [scWaits 2 1 0x10000, scWaits 3 1 (2 ^ 30), scWaits 3 3 0x10000, rotten (scWaits 2 1 0x10000)].all
      (fun s => on s && bootDone s && (sc s 1).waiting.isSome) ∧ (sc (scTable []) 1).waiting = none ∧
    (sc (scWaits 2 1 0x10000) 1).waiting = some (2, 1) ∧ (sc (scWaits 3 1 (2 ^ 30)) 1).waiting = some (3, 1) ∧
    endCode (scRead 1 1 (rotten (scWaits 2 1 0x10000), none)) = some 0x21 ∧
    [scWaits 2 1 0x10000, scWaits 3 1 (2 ^ 30), scWaits 3 3 0x10000].all
      (fun s => (scRead 1 1 (setSc 1 { sc s 1 with waiting := none } s, none)).2.isNone) ∧
    scQuiet (scWaits 3 3 0x10000) 1 1 = false ∧ scState (scWaits 3 3 0x10000) 1 1 = 3 ∧
    scQuiet (scWaits 2 1 0x10000) 1 1 = true ∧ scState (scWaits 2 1 0x10000) 1 1 = 1 ∧ sidingOwned (scWaits 3 1 0x10000) 1 1 = true ∧
    scQuiet (scWaits 3 1 (2 ^ 30)) 1 1 = true ∧ sidingOwned (scWaits 3 1 (2 ^ 30)) 1 1 = false := by decide +kernel

/-- OPEN makes a stream SIDED; ZERO of one in a swap waits. -/
theorem test_scn : after (.scnCmdOpen 1 1) (scTable [(8, 6, 0x10000)]) (fun t => scState t 1 1 == 1 && rg t (pgScn 1) Fld.SCN_OPEN == 1) ∧
    after (.scnCmdZero 1 1) (scIn 3 [⟨0, 1, 1⟩] []) (fun t => rg t (pgScn 1) Fld.SCN_CMD_STAT_BUSY == 1) ∧
    after (.scnCmdReleased 1) (scWaits 2 1 0x10000) (fun t => scState t 1 1 == 0) := by decide +kernel

/-- Stream 1 wanted: with a free slot; with stream 0 in the only slot, free to go or needed; its siding lost; its siding unreadable. -/
def full (state0 : Nat) : State := poke 0 [BitVec.ofNat 8 state0] (scIn 1 [⟨0, 0, 0⟩] [1])
def shut : State := { scIn 4 [⟨0, 1, 0⟩] [1] with parts := [(1, { partDefault 1 with state := .suspended })] }
def lostSiding : State := setSc 1 ⟨[], [1], none, [], []⟩ (scTable [(0, 1, 1), (8, 6, 2 ^ 30)])
def unreadable : State := setSc 1 ⟨[⟨0, 1, 0⟩], [1], none, [], []⟩ (scTable [(0, 1, 4), (8, 6, 2 ^ 30)])

/-- The swap-in of stream 1 has begun to swap stream 0 out. -/
def evicting : State := setSc 1 { sc (full 3) 1 with evict := [(1, 0)] } (full 3)
/-- A SWAP of stream 1, and the state it meets. -/
def swap1 (op : Nat) (s : State) : State := flying [flight 0 1 .scn (bytesWith 64 [(0, 1, 11), (16, 4, 1), (20, 4, 1), (24, 1, op)])] s
def swapReady (op : Nat) (s : State) : Bool := on s && canonical s && (swapFlight s 0 op).any fun x =>
  x.1.q == 1 && x.2.left == [1] && x.2.waitFor == [] && x.2.fail == none

theorem test_hyp_RecurrentStreamsSwap : [scIn 1 [] [], scIn 1 [] [1], full 2, full 3, evicting, shut, lostSiding, unreadable,
      rotten (scIn 1 [] [1]), rotten (full 2), rotten (scIn 4 [⟨0, 1, 1⟩] []), rotten (scIn 3 [⟨0, 1, 1⟩] []),
      scIn 4 [⟨0, 1, 1⟩] [], scIn 3 [⟨0, 1, 1⟩] []].all (fun s => on s && canonical s) ∧
    scWanted (scIn 1 [] []) 1 1 = false ∧ scratchShut shut 1 = true ∧ scWanted (scIn 1 [] [1]) 1 1 = true ∧
    scState (scIn 1 [] [1]) 1 1 = 1 ∧ scratchShut (scIn 1 [] [1]) 1 = false ∧ sidingOwned (scIn 1 [] [1]) 1 1 = true ∧
    scFreeSlot (scIn 1 [] [1]) 1 = some 0 ∧ sidingOwned lostSiding 1 1 = false ∧ scWanted lostSiding 1 1 = true ∧
    (scRead 1 1 (scIn 1 [] [1], none)).2 = none ∧ endCode (scRead 1 1 (rotten (scIn 1 [] [1]), none)) = some 0x21 ∧
    ownStruct (scIn 1 [] [1]) 1 (scEntry (scIn 1 [] [1]) 1 1) 32 = true ∧
    [(full 2, some ⟨0, 0, 0⟩), (full 3, none), (evicting, none)].all (fun x : State × Option ScnSlot => scWanted x.1 1 1 && scState x.1 1 1 == 1 &&
      sidingOwned x.1 1 1 && (scFreeSlot x.1 1).isNone &&
      ((sc x.1 1).slots.find? fun y => scState x.1 1 y.stream == 2 && !scReferenced x.1 1 y.stream) == x.2) ∧
    ((sc evicting 1).evict.any fun y => y.1 == 1 && scState evicting 1 y.2 == 3) = true ∧ (sc (full 2) 1).evict = [] ∧
    (swapOutStart 1 0 (full 2, none)).2 = none ∧ endCode (swapOutStart 1 0 (rotten (full 2), none)) = some 0x21 := by decide +kernel

theorem test_hyp_RecurrentStreamsSwap_ends : let i := scIn 4 [⟨0, 1, 1⟩] []
    let o := scIn 3 [⟨0, 1, 1⟩] []
    scState i 1 1 = 4 ∧ scSlotOf i 1 1 = some ⟨0, 1, 1⟩ ∧ scratchShut i 1 = false ∧
    (scPut .beside 1 1 0 1 2 (scLoad 1 1 (scRead 1 1 (i, none)))).2 = none ∧
    (memWrite .beside 1 0 (scImage i 1 0 1) (rdBytes i (scSiding i 1 1) 1024) i).2 = none ∧
    endCode (scLoad 1 1 (scRead 1 1 (rotten i, none))) = some 0x21 ∧ endCode (scLoad 1 1 (scRead 1 1 (unreadable, none))) = some 0x20 ∧
    scState o 1 1 = 3 ∧ scSlotOf o 1 1 = some ⟨0, 1, 1⟩ ∧ (scStore .beside 1 1 (scRead 1 1 (o, none))).2 = none ∧
    (scPut .beside 1 1 0 1 1 ((scStore .beside 1 1 (scRead 1 1 (o, none))).1, none)).2 = none ∧
    (memWrite .beside 1 0 (scSiding o 1 1) (rdBytes o (scImage o 1 0 1) 1024) o).2 = none ∧
    endCode (scStore .beside 1 1 (scRead 1 1 (rotten o, none))) = some 0x21 := by decide +kernel

theorem test_hyp_RecurrentStreamsSwap_descriptors : swapReady 0 (swap1 0 (scIn 2 [⟨0, 1, 1⟩] [])) = true ∧ swapReady 0 (swap1 0 (scIn 0 [] [])) = true ∧
    swapReady 1 (swap1 1 (scIn 1 [] [])) = true ∧ swapReady 2 (swap1 2 (scIn 2 [⟨0, 1, 1⟩] [])) = true ∧
    swapDenied 1 1 1 (swap1 1 (scTable [(0, 1, 1), (8, 6, 2 ^ 30)])) = true ∧
    [scIn 0 [] [], scIn 1 [] [], scIn 2 [⟨0, 1, 1⟩] []].all (fun s => [0, 1, 2].all fun op => !swapDenied op 1 1 (swap1 op s) &&
      (scRead 1 1 (swap1 op s, none)).2.isNone && !scReferenced (swap1 op s) 1 1) ∧
    scReferenced (flying [scan1 admitted] (scIn 2 [⟨0, 1, 0⟩] [])) 1 1 = true ∧
    (let s := swap1 0 (scIn 2 [⟨0, 1, 1⟩] [])
     (swapOutStart 1 1 (s, none)).2.isNone && scState (swapOutComplete 1 1 (swapOutStart 1 1 (s, none)).1) 1 1 == 1) = true ∧
    (let s := swap1 1 (scIn 1 [] [])
     scState (swapInStart 1 1 (swapWant 1 1 s)) 1 1 == 4 && scState (swapInComplete 1 1 (swapInStart 1 1 (swapWant 1 1 s))) 1 1 == 2) = true ∧
    (scStore .beside 1 1 (swap1 2 (scIn 2 [⟨0, 1, 1⟩] []), none)).2 = none ∧
    scFreeSlot (st (pgScn 1) Fld.SCN_SLOTS 0 (scIn 1 [] [])) 1 = none := by decide +kernel

theorem test_swap : after (.streamSwapIn 1 1) (scIn 1 [] [1]) (fun t => (sc t 1).slots == [⟨0, 1, 0⟩] && scState t 1 1 == 4) ∧
    after (.streamSwapIn 1 1) (full 2) (fun t => scState t 1 0 == 3) ∧
    after (.swapInComplete 1 1) (poke 0x10000 [7] (scIn 4 [⟨0, 1, 1⟩] [])) (fun t => rd1 t 0x40400 == 7 && scState t 1 1 == 2) ∧
    after (.swapOutComplete 1 1) (scIn 3 [⟨0, 1, 1⟩] []) (fun t => scState t 1 1 == 1 && (sc t 1).slots.isEmpty) := by decide +kernel

def scanNew (state : Nat) : State := flying [scan1 .none] (scIn state [⟨0, 1, 0⟩] [])
def scanLost : State := { scanNew 2 with exts := [] }
def scanFull : State := flying [scan1 .none] (st (pgScn 1) Fld.SCN_SLOTS 0 (scIn 2 [⟨0, 1, 0⟩] []))
def scanEmpty : State := flying [{ scan1 .none with cap := capNone, bytes := bytesWith 64 [(0, 1, 6), (2, 1, 0x22)] }] (scIn 2 [⟨0, 1, 0⟩] [])
def scanRuns : State := flying [scan1 admitted] (scIn 2 [⟨0, 1, 0⟩] [])

/-- What the first chunk of the SCAN computes. -/
def chunkOf (s : State) (f : Flight) : ChunkOut :=
  chunkOut (snapOf s f) s.mem f .k16 (scFmt s 1) 1 16 16 0 1 0 1 0 (scImage s 1 0 0) (scImage s 1 0 1)

theorem test_hyp_ScansAreAdmittedAndRunChunks : [scanNew 2, scanNew 0, scanLost, scanFull, scanRuns, rotten (scanNew 2)].all
      (fun s => on s && canonical s) ∧
    [scanNew 2, scanNew 0, scanLost, scanFull, rotten (scanNew 2)].all (fun s =>
      (s.flights.find? fun f => f.q == 1 && dOp f.bytes == 6 && f.result.isNone && !scanAdmitted f) == some (scan1 .none) &&
      (scanFlight s 0).isSome) ∧ scDistinct (scan1 .none).bytes (scan1 .none).cap.list = [1] ∧
    ownStruct scanLost 1 (scEntry scanLost 1 1) 32 = false ∧ ownStruct (scanNew 2) 1 (scEntry (scanNew 2) 1 1) 32 = true ∧
    endCode (scRead 1 1 (rotten (scanNew 2), none)) = some 0x21 ∧ (scRead 1 1 (scanNew 2, none)).2 = none ∧
    (scRead 1 1 (scanNew 0, none)).2 = none ∧ (scRead 1 1 (scanFull, none)).2 = none ∧
    scState (scanNew 0) 1 1 = 0 ∧ scState (scanNew 2) 1 1 = 2 ∧ scSlots scanFull 1 < scRefd scanFull 1 + 1 ∧
    ¬(scSlots (scanNew 2) 1 < scRefd (scanNew 2) 1 + 1) ∧ (scPut .beside 1 1 4 4 1 (scanNew 2, none)).2 = none ∧
    (scanEmpty.flights.find? fun f => f.q == 1 && dOp f.bytes == 6 && f.result.isNone && !scanAdmitted f) = scanEmpty.flights.head? ∧
    on scanEmpty = true ∧ canonical scanEmpty = true ∧ (scanEmpty.flights.all fun f => scDistinct f.bytes f.cap.list == []) = true := by
  decide +kernel

theorem test_scan : after (.scanAdmit 1) (scanNew 2) (fun t => rd1 t 36 == 1 && t.flights.all scanAdmitted) ∧
    after (.scanAdmit 1) (scanNew 0) (fun t => t.flights.all fun f => f.result == some 0x13) := by decide +kernel

/-- Writes that follow each other from an address on. -/
def chained : Nat → List (Nat × List Byte) → Bool
  | _, [] => true
  | a, x :: l => decide (a = x.1) && chained (a + x.2.length) l

theorem joinWrites_chained (a : Nat) (b : List Byte) (l : List (Nat × List Byte)) (h : chained a ((a, b) :: l) = true) :
    joinWrites ((a, b) :: l) = [(a, b ++ l.flatMap Prod.snd)] := by
  unfold joinWrites
  rw [List.foldl_cons]
  simp only [chained, decide_true, Bool.true_and] at h
  suffices ∀ (l : List (Nat × List Byte)) (b : List Byte), chained (a + b.length) l = true →
      l.foldl (fun acc x => match acc with
        | (a, bs) :: t => if a + bs.length = x.1 then (a, bs ++ x.2) :: t else x :: acc
        | [] => [x]) [(a, b)] = [(a, b ++ l.flatMap Prod.snd)] from congrArg List.reverse (this l b h)
  intro l
  induction l with
  | nil => simp
  | cons x l ih =>
    intro b h
    simp only [chained, Bool.and_eq_true, decide_eq_true_eq] at h
    rw [List.foldl_cons]
    simp only [h.1, if_true]
    rw [ih (b ++ x.2) (by rw [List.length_append, ← Nat.add_assoc]; exact h.1 ▸ h.2), List.flatMap_cons, List.append_assoc]

/-- The state words of the chunk as writes. -/
def stateWrites : List (Nat × List Byte) := (chunkOf scanRuns (scan1 admitted)).state.map fun e => (e.1, toLE 4 e.2)

theorem joined_state : joinWrites stateWrites = [(0x40400, stateWrites.flatMap Prod.snd)] := by
  have h : stateWrites.head? = some (0x40400, (stateWrites.headD (0, [])).2) ∧ chained 0x40400 stateWrites = true := by decide +kernel
  generalize stateWrites = l at h
  obtain ⟨h1, h2⟩ := h
  cases l with
  | nil => cases h1
  | cons x l =>
    have : x.1 = 0x40400 := congrArg Prod.fst (Option.some.inj h1)
    obtain ⟨a, b⟩ := x
    cases this
    rw [joinWrites_chained _ _ _ h2, List.flatMap_cons]

theorem test_hyp_ScansAreAdmittedAndRunChunks_chunk :
    let rd := scanReads scanRuns (scan1 admitted) 0 0 1 (scImage scanRuns 1 0 0)
    ((scanFlight scanRuns 0).any fun x => scanReady scanRuns x.1 x.2 0 && decide (0 < scH scanRuns 1) &&
      decide (chunksDone x.2 0 0 < scChunks x.1 0) && decide (scItems x.1.bytes = 1) && decide (scChunks x.1 0 = 1)) = true ∧
    arraysStopped scanRuns = false ∧ scSlotOf scanRuns 1 1 = some ⟨0, 1, 0⟩ ∧ scH scanRuns 1 = 1 ∧
    ((sc scanRuns 1).slots.all fun y => scState scanRuns 1 y.stream != 3) = true ∧
    mustWait scanRuns 0 rd (scanWrites scanRuns (scan1 admitted) .k16 0 0 1 (scImage scanRuns 1 0 1)) = false ∧
    scanPlace scanRuns (scan1 admitted) 0 (scImage scanRuns 1 0 0) (candidatesBy scanRuns (scan1 admitted) false) = some 0 ∧
    bit 0 (bF (scan1 admitted).bytes 37 1) = false ∧ (readAll .yard 1 rd (proceed 0 scanRuns)).2 = none ∧
    (chunkOf scanRuns (scan1 admitted)).bad = false ∧ ((chunkOf scanRuns (scan1 admitted)).ys.any fun e => e.2.overflow) = false ∧
    (writeAll .yard 1 0 (joinWrites ((chunkOf scanRuns (scan1 admitted)).ys.map fun e => (e.1, toLE 2 e.2.word)) ++
      joinWrites stateWrites) (readAll .yard 1 rd (proceed 0 scanRuns)).1).2 = none := by
  rw [joined_state]
  decide +kernel

/-! ### Collectives -/

/-- Partition 1 has key slot 0; its group table stands at address 0, with the one entry as given. -/
def groups (l : List (Nat × Nat × Nat)) : State :=
  poke 0 (bytesWith 64 l) (st (pgCol 1) Fld.COL_GEOM_LOG2_GROUPS 0 { mine with secs := [(1, { secPartDefault 1 with slots := (secPartDefault 1).slots.set 0 ⟨0xABCD, jobKey, 9⟩ })] })

/-- A group of four members, rank 1, ports 2 and 3, timeout 5 ms. -/
def entry (state : Nat) : List (Nat × Nat × Nat) :=
  [(0, 1, state), (2, 2, 5), (4, 4, 77), (8, 2, 4), (10, 2, 1), (12, 1, 2), (13, 1, 3), (16, 4, 6)]

/-- A context of group 0 for the COLL `fid`. -/
def ctxOn (fid : Nat) : ColCtx :=
  { ctx := 0, fid := fid, part := 1, group := 0, fgid := 77, gseq := 6, epoch := 0, nmem := 4, rank := 1, port0 := 2, port1 := 3,
    timeoutMs := 5, reform := false, keysel := 0, sent := [0, 0], inflight := [], got := [], doneSent := false, abortSent := false,
    own := 0, ovf := false, clamped := 0, special := 0 }

/-- An ALLREDUCE of 16 elements in K16 from 0x20000 to 0x30000, with GSEQ 6. -/
def coll (work : Work) : Flight :=
  { flight 0 1 .col (bytesWith 64 [(0, 1, 8), (2, 1, 0x22), (16, 6, 0x20000), (24, 6, 0x30000), (32, 4, 16), (40, 4, 6)]) with work := work }

def groupBusy : State := st (pgCol 1) Fld.COL_CMD_STAT_BUSY 1 (groups (entry 0))
def groupUsed : State := setCol { State.reset.col with opened := [(1, 0, 77)], ctxs := [ctxOn 0] } (flying [coll .coll] (groups (entry 1)))
def groupFree : State := setCol { State.reset.col with opened := [(1, 0, 77)] } (groups (entry 1))
def groupWaits : State := setCol { groupFree.col with closing := [(1, 2, 0)] } groupFree
def groupStuck : State := setCol { groupUsed.col with closing := [(1, 2, 0)] } groupUsed
/-- The channel of address 0 retrains: what reads or writes there waits. -/
def heldAt0 (s : State) : State := { s with retrain := { s.retrain with held := [⟨false, 0, 0⟩] } }
/-- The context of a group of one member. -/
def groupOne : State := setCol { groupUsed.col with ctxs := [{ ctxOn 0 with nmem := 1, rank := 0 }] } groupUsed

theorem test_hyp_ColCommands : [groupBusy, groups (entry 0), { groups (entry 0) with parts := [(1, { partDefault 1 with state := .torn })] },
      { groups (entry 0) with exts := [] }, { groups (entry 0) with secs := [] }, groups [], groupUsed, groupFree, groupOne,
      heldAt0 groupFree, rotten groupFree].all (fun s => on s && bootDone s) ∧
    rg groupBusy (pgCol 1) Fld.COL_CMD_STAT_BUSY = 1 ∧ rg (groups (entry 0)) (pgCol 1) Fld.COL_CMD_STAT_BUSY = 0 ∧
    cgCount (groups (entry 0)) 1 = 1 ∧ ownStruct { groups (entry 0) with exts := [] } 1 0 64 = false ∧
    ownStruct (groups (entry 0)) 1 0 64 = true ∧ cgHeld (heldAt0 groupFree) 1 0 = true ∧ cgHeld groupFree 1 0 = false ∧
    (cgRead 1 0 (st (pgCol 1) Fld.COL_CMD_STAT_BUSY 1 (rotten groupFree))).2 = some 0x21 ∧
    (cgRead 1 0 (st (pgCol 1) Fld.COL_CMD_STAT_BUSY 1 groupFree)).2 = none ∧
    bF (rdBytes (groups (entry 0)) 0 64) 0 1 = 0 ∧
    jobSlot { groups (entry 0) with secs := [] } 1 0 = none ∧ jobSlot (groups (entry 0)) 1 0 ≠ none ∧
    bF (rdBytes (groups []) 0 64) 2 2 = 0 ∧ jobSlot (groups []) 1 (bF (rdBytes (groups []) 0 64) 14 1) ≠ none ∧
    (writeAll .beside 1 0 [(16, toLE 8 0), (0, toLE 1 1)] (st (pgCol 1) Fld.COL_CMD_STAT_BUSY 1 (groups (entry 0)))).2 = none ∧
    bF (rdBytes groupUsed 0 64) 0 1 % 4 = 1 ∧ ctxOn 0 ∈ groupUsed.col.ctxs ∧ ctxOf groupUsed 0 = some (ctxOn 0, coll .coll) ∧
    (groupUsed.col.ctxs.all fun c => c.nmem != 1 && !c.abortSent) = true ∧ groupFree.col.ctxs = [] ∧
    (writeAll .beside 1 0 [(0, toLE 1 0)] (st (pgCol 1) Fld.COL_CMD_STAT_BUSY 1 groupFree)).2 = none ∧
    groupCtxs groupOne 1 0 = [{ ctxOn 0 with nmem := 1, rank := 0 }] ∧ (ctxOf groupOne 0).isSome = true := by decide +kernel

theorem test_hyp_ColCommands_waiting : [groupWaits, groupStuck, heldAt0 groupWaits, rotten groupWaits, { groupWaits with exts := [] }].all
      (fun s => on s && bootDone s && (s.col.closing.find? fun x => x.1 == 1) == some (1, 2, 0)) ∧
    (groupFree.col.closing.find? fun x => x.1 == 1) = none ∧ groupWaits.col.ctxs = [] ∧ groupStuck.col.ctxs ≠ [] ∧
    ownStruct groupWaits 1 0 64 = true ∧ ownStruct { groupWaits with exts := [] } 1 0 64 = false ∧ cgHeld (heldAt0 groupWaits) 1 0 = true ∧
    cgHeld groupWaits 1 0 = false ∧ (cgRead 1 0 (setCol { groupWaits.col with closing := [] } (rotten groupWaits))).2 = some 0x21 ∧
    (cgRead 1 0 (setCol { groupWaits.col with closing := [] } groupWaits)).2 = none ∧ bF (rdBytes groupWaits 0 64) 0 1 % 4 = 1 ∧
    (writeAll .beside 1 0 [(0, toLE 1 0)] (setCol { groupWaits.col with closing := [] } groupWaits)).2 = none := by decide +kernel

/-- An entry that says four members and rank 4 is not opened. -/
theorem test_colCmd : after (.colCmdOpen 1 0) (groups (entry 0)) (fun t => cgF t 1 0 0 1 == 1 && cgF t 1 0 16 4 == 0) ∧
    after (.colCmdOpen 1 0) (poke 10 [4] (groups (entry 0))) (fun t => rg t (pgCol 1) Fld.COL_CMD_STAT_CODE == 0x13) ∧
    after (.colCmdClose 1 0) groupFree (fun t => cgF t 1 0 0 1 == 0 && t.col.opened.isEmpty) ∧
    after (.colCmdClose 1 0) groupUsed (fun t => t.col.closing == [(1, 2, 0)] && rg t (pgCol 1) Fld.COL_CMD_STAT_BUSY == 1) := by
  decide +kernel

/-- The COLL waits for a context, in a group whose entry is as given, with partners that reduce on ports 2 and 3 (or not). -/
def collWaits (l : List (Nat × Nat × Nat)) (partner : Option TrainInfo) : State :=
  setCol { State.reset.col with opened := [(1, 0, 77)], waiting := [0] }
    (setPort 3 { portDefault 3 with partner := partner } (setPort 2 { portDefault 2 with partner := partner }
      (flying [coll .coll] (groups l))))
def reducer : TrainInfo := ⟨2, true, 5, 1, 8, 0, [7, 7, 7, 7], []⟩
def alone (l : List (Nat × Nat × Nat)) : State := collWaits (l ++ [(8, 2, 1), (10, 2, 0), (0, 1, 1), (16, 4, 6)]) none
def colls : List State := [collWaits (entry 0) none, collWaits (entry 1 ++ [(16, 4, 7)]) none, collWaits (entry 1) none,
  collWaits (entry 1) (some reducer), alone []]

theorem test_hyp_CollectivesRun : flightOf (collWaits (entry 1) none) 0 = some (coll .coll) ∧
    on (flying [coll .none] (groups (entry 1))) = true ∧ flightOf (flying [coll .none] (groups (entry 1))) 0 = some (coll .none) ∧
    (coll .none).station = .col ∧ (coll .none).work = .none ∧ (coll .none).result = none ∧
    (rotten (collWaits (entry 1) none) :: colls).all (fun s => on s && decide (flightOf s 0 = some (coll .coll)) && freeCtxNo s == some 0 &&
      nextColl s == some 0 && (localCtx s 0).isNone) ∧ colls.all (fun s => (cgRead 1 0 s).2.isNone) ∧
    (cgRead 1 0 (rotten (collWaits (entry 1) none))).2 = some 0x21 ∧ cgEntry (collWaits (entry 0) none) 1 0 = 0 ∧
    bF (rdBytes (collWaits (entry 0) none) 0 64) 0 1 % 4 ≠ 1 ∧ bF (rdBytes (collWaits (entry 1) none) 0 64) 0 1 % 4 = 1 ∧
    bF (rdBytes (collWaits (entry 1 ++ [(16, 4, 7)]) none) 0 64) 16 4 ≠ 6 ∧ bF (rdBytes (collWaits (entry 1) none) 0 64) 16 4 = 6 ∧
    treeOk (collWaits (entry 1) none) (coll .coll).bytes 2 = false ∧ treeOk (collWaits (entry 1) (some reducer)) (coll .coll).bytes 2 = true ∧
    treeOk (collWaits (entry 1) (some reducer)) (coll .coll).bytes 3 = true ∧ bF (rdBytes (alone []) 0 64) 8 2 = 1 ∧
    (memWrite .beside 1 0 16 (toLE 4 7) (collWaits (entry 1) (some reducer))).2 = none := by
  decide +kernel

/-- The local COLL from G16 to K16, which cannot hold 2^17. -/
def collOvf : Flight :=
  { coll .coll with
    bytes := bytesWith 64 [(0, 1, 8), (2, 1, 0x23), (16, 6, 0x20000), (24, 6, 0x30000), (32, 4, 1), (40, 4, 6)] }
/-- The COLL has its context: it next runs on the device. -/
def local_ (f : Flight) (s : State) : State :=
  setCol { s.col with waiting := [], ctxs := [{ ctxOn 0 with nmem := 1, rank := 0 }] } { s with flights := [f] }
def aloneOvf : State := poke 0x20000 [0, 0x48] (local_ collOvf (alone []))
def aloneRuns : State := local_ (coll .coll) (alone [])
/-- The 512 B of memory at 0x20000 do not pass their check. -/
def rottenSrc (s : State) : State := { s with mce := { s.mce with blocks := [(0x100, some ⟨0, true⟩)] } }

/-- The results of a local COLL. -/
def localResults (f : Flight) (s : State) : List (Nat × Stored) :=
  (List.range (coCount f.bytes)).map fun i => (dstAt f.bytes 0 i, resultOf f i (wireOf f.bytes s.mem (srcAt f.bytes 0 i)))

theorem test_hyp_CollectivesRun_local : [(aloneRuns, coll .coll), (aloneOvf, collOvf), (rottenSrc aloneRuns, coll .coll)].all (fun x =>
      on x.1 && !mustWait x.1 0 [coSrc x.2.bytes 1 0] [coDst x.2.bytes 1] &&
      flightOf x.1 0 == some x.2 && (localCtx x.1 0).any fun c => c.rank == 0) ∧
    (memRead .beside 1 0x20000 32 (proceed 0 aloneRuns)).2 = none ∧ (memRead .beside 1 0x20000 2 (proceed 0 aloneOvf)).2 = none ∧
    (memRead .beside 1 0x20000 32 (proceed 0 (rottenSrc aloneRuns))).2 = some 0x21 ∧
    (localResults (coll .coll) aloneRuns).all (fun x => !x.2.overflow) ∧ (localResults collOvf aloneOvf).all (fun x => x.2.overflow) ∧
    (writeAll .beside 1 0 (joinWrites ((localResults (coll .coll) aloneRuns).map fun x => (x.1, toLE 2 x.2.word)))
       (memRead .beside 1 0x20000 32 (proceed 0 aloneRuns)).1).2 = none := by decide +kernel

/-- 2^17 has no K16: the COLL ends with OVERFLOW. The start of a COLL takes the context that it next runs in. -/
theorem test_collLocal : after (.collStart 0) aloneOvf (fun t => (flightOf t 0).any (fun f => f.result == some 0x41) && t.col.ctxs.isEmpty) ∧
    after (.collStart 0) (alone []) (fun t => (localCtx t 0).isSome && cgF t 1 0 16 4 == 7) ∧
    after (.collStart 0) aloneRuns (fun t => (flightOf t 0).any fun f => f.result == some 0) := by
  decide +kernel

/-- The COLL runs in context 0; its partners take four segments. -/
def runsIn (c : ColCtx) (f : Flight) : State :=
  setCol { State.reset.col with opened := [(1, 0, 77)], ctxs := [c] } (setPort 3 { portDefault 3 with partner := some reducer }
    (setPort 2 { portDefault 2 with partner := some reducer } (flying [f] (groups (entry 1)))))
def runs : State := runsIn (ctxOn 0) (coll .coll)

/-- A message of the arbiter to the COLL: SEG_DOWN of the one segment, or VERDICT. -/
def fromTree (mt : Nat) (l : List (Nat × Nat × Nat)) (body : List Byte) : Msg :=
  ⟨laneOf mt, laneOf mt, 9, 32, bytesWith 208 ([(0, 1, mt), (4, 4, 77), (8, 4, 6)] ++ l), body, 1, 0⟩
def hears (m : Msg) (c : ColCtx) (f : Flight) : State :=
  setPort 2 { portDefault 2 with partner := some reducer, inbox := [m] } (runsIn c f)
def segMsg : Msg := fromTree 0x12 [(36, 4, 16)] (List.replicate 64 0)
def segOvf : Msg := fromTree 0x12 [(36, 4, 1)] [0, 0x48, 0, 0]

/-- The 512 B of memory at 0x30000 do not pass their check. -/
def rottenDst (s : State) : State := { s with mce := { s.mce with blocks := [(0x180, some ⟨0, true⟩)] } }

/-- The message at port 2 of a state, the context it is for, and its segment. -/
def heardAs (mt : Nat) (s : State) : Option (Msg × ColCtx × Flight) :=
  (takeMsg 2 mt s).bind fun x => (ctxFor x.2 2 x.1).bind fun y => if ctxOf s y.1.ctx = some y then some (x.1, y) else none
def segOf (s : State) : Option Seg :=
  (heardAs 0x12 s).bind fun x => ((downSegs x.2.2.bytes x.2.1.nmem x.2.1.rank).find? fun g => g.rank == 0 && g.no == bF x.1.head 32 4).bind
    fun g => if segTree x.2.2.bytes g = bF x.1.head 1 1 % 2 ∧ g.len = bF x.1.head 36 4 ∧ (g.rank, g.no) ∉ x.2.1.got ∧ ¬x.2.1.abortSent
      then some g else none

/-- What the member writes of the segment at port 2. -/
def segGives (s : State) : List (Nat × Stored) :=
  match heardAs 0x12 s, segOf s with
  | some x, some g => segResults x.2.2 1 g (wordsOf (fmtBytes (wireFmt x.2.2.bytes)) x.1.body)
  | _, _ => []

def verdictAs (code own : Nat) (reform : Bool) : State :=
  hears (fromTree 0x15 [(40, 1, code), (42, 2, if reform then 2 else 0xFFFF)] [])
    { ctxOn 0 with
      own := own
      reform := reform } (coll .coll)
def verdicts : List State := [verdictAs 0 0 false, verdictAs 0x32 0 true, verdictAs 0x41 0x22 false, verdictAs 0x33 0 false]
def sends16 (s : State) : Bool := on s && ctxOf s 0 == some (ctxOn 0, coll .coll) && decide (colWindow s (ctxOn 0) 0 = 8) &&
  !mustWait s 0 [(0x20000, 32)] []

theorem test_hyp_CollectivesRun_messages : sends16 runs = true ∧ sends16 (rottenSrc runs) = true ∧
    ((ownSegs (coll .coll).bytes 4 1).filter fun g => segTree (coll .coll).bytes g == 0)[0]? = some ⟨0, 0, 0, 16⟩ ∧
    (memRead .beside 1 0x20000 32 (proceed 0 runs)).2 = none ∧ (memRead .beside 1 0x20000 32 (proceed 0 (rottenSrc runs))).2 = some 0x21 ∧
    (ctxOf (setCol { runs.col with ctxs := [{ ctxOn 0 with nmem := 1 }] } runs) 0).isSome = true ∧
    [hears segMsg (ctxOn 0) (coll .coll), hears segOvf (ctxOn 0) collOvf].all (fun s => on s && (heardAs 0x12 s).isSome && (segOf s).isSome &&
      !mustWait s 0 [] [(0x30000, 32)]) ∧
    (segGives (hears segMsg (ctxOn 0) (coll .coll))).all (fun x => !x.2.overflow) ∧
    (segGives (hears segOvf (ctxOn 0) collOvf)).any (fun x => x.2.overflow) ∧
    (segWrites (coll .coll).bytes (segGives (hears segMsg (ctxOn 0) (coll .coll)))).map (fun x => (x.1, x.2.length)) = [(0x30000, 32)] ∧
    (writeAll .beside 1 0 (segWrites (coll .coll).bytes (segGives (hears segMsg (ctxOn 0) (coll .coll))))
      (hears segMsg (ctxOn 0) (coll .coll))).2 = none ∧
    (writeAll .beside 1 0 [(0x30000, [0])] (rottenDst (hears segMsg (ctxOn 0) (coll .coll)))).2 = some 0x21 ∧
    verdicts.all (fun s => on s && (heardAs 0x15 s).any fun x => bF x.1.head 1 1 % 2 == 0 && x.2.2.result.isNone) ∧
    (cgHeld (verdictAs 0x32 0 true) 1 0 = false ∧ cgHeld (heldAt0 (verdictAs 0x32 0 true)) 1 0 = true) ∧
    (verdicts.map fun s => (heardAs 0x15 s).map fun x => (bF x.1.head 40 1, bF x.1.head 42 2, x.2.1.reform, x.2.1.own)) =
      [some (0, 0xFFFF, false, 0), some (0x32, 2, true, 0), some (0x41, 0xFFFF, false, 0x22), some (0x33, 0xFFFF, false, 0)] ∧
    (writeAll .beside 1 0 [(8, toLE 2 3), (10, toLE 2 1), (20, toLE 4 1)] (verdictAs 0x32 0 true)).2 = none := by decide +kernel

theorem test_segments : after (.segmentSend 0 0) runs (fun t => (portOf t 2).queue.map (fun m => (m.vl, bF m.head 0 1, bF m.head 36 4)) == [(1, 0x11, 16)]) ∧
    after (.segDown 2) (hears segMsg (ctxOn 0) (coll .coll)) (fun t => (portOf t 2).queue.map (fun m => bF m.head 0 1) == [0x13]) ∧
    after (.verdict 2) (verdictAs 0 0 false) (fun t => (flightOf t 0).any (fun f => f.result == some 0) &&
      (portOf t 3).queue.map (fun m => bF m.head 0 1) == [0x16]) ∧
    after (.collVerdictTimeout 0) runs (fun t => t.col.ctxs.isEmpty && (portOf t 2).queue.isEmpty) := by decide +kernel

/-! ### Leases -/

/-- Partition 1 has key ABCD in slot 0. -/
def keyed : State := { mine with secs := [(1, { secPartDefault 1 with slots := (secPartDefault 1).slots.set 0 ⟨0xABCD, jobKey, 9⟩ })] }

/-- Partition 1's lease of slots 4 and 5 from device 9: the ACQUIRE that waits for it and the RELEASEs. -/
def leased (st : LeaseState) (acq : Option Nat) (rels : List Nat) (asked lrelSent : Bool) : Lease :=
  ⟨1, 4, 2, 9, 0, st, acq, rels, 0, asked, lrelSent, 0, []⟩

/-- A LEASE in flight: OP 0 ACQUIRE, OP 1 RELEASE. -/
def leaseDesc (fid op : Nat) : Flight := flight fid 1 .mem (bytesWith 64 [(16, 1, op), (18, 2, 9), (20, 2, 4), (22, 2, 2)])

/-- The lease with flights, and a message of the lender at port 3. -/
def leasing (l : Lease) (fs : List Flight) (msgs : List Msg) : State :=
  { setPort 3 { portDefault 3 with state := .up, inbox := msgs } (flying fs keyed) with leases := [l] }
def lenderSays (mt : Nat) (l : List (Nat × Nat × Nat)) (body : List Byte) : Msg :=
  ⟨laneOf mt, laneOf mt, 0, 9, bytesWith 212 ([(0, 1, mt), (4, 4, 4), (208, 4, 0xABCD)] ++ l), body, 1, 0⟩

/-- The lease that a message at port 3 names. -/
def leaseHeard (mt : Nat) (s : State) : Option Lease := (takeMsg 3 mt s).bind fun x => ownLease x.2 x.1

def access (wr : Bool) : LeaseAcc := ⟨0, 4, wr, 0x100000000000, 32, 7, false⟩
def held_ : Lease := leased .held none [] true false
def pending_ (asked : Bool) : Lease := leased .pending (some 0) [] asked false
def releasing_ (sent : Bool) : Lease := leased .releasing none [0] true sent
def reading : State := { leasing held_ [] [lenderSays 0x21 [(20, 4, 7)] (List.replicate 256 3)] with accs := [access false] }
def heldLease : State := { leasing held_ [flight 0 1 (.stk 0) []] [lenderSays 8 [] []] with accs := [access false] }
def pendingLease (msgs : List Msg) : State := leasing (pending_ true) [leaseDesc 0 0] msgs
def releasing (sent : Bool) (msgs : List Msg) : State := leasing (releasing_ sent) [leaseDesc 0 1] msgs

theorem test_hyp_LeasesAtTheBorrower : [reading, heldLease, pendingLease [], releasing true [], releasing false []].all (fun s => on s) ∧
    (keyed.secJobs = [] ∧ (List.range 64).all fun c => (sessOf keyed c).all fun x => x.todo.isEmpty) ∧
    leaseFlight (leasing (pending_ false) [leaseDesc 0 0] []) 0 0 = some (leaseDesc 0 0, pending_ false) ∧
    leaseFlight (leasing (leased .lost none [0] true false) [leaseDesc 0 1] []) 0 1 = some (leaseDesc 0 1, leased .lost none [0] true false) ∧
    leaseFlight (releasing false []) 0 1 = some (leaseDesc 0 1, releasing_ false) ∧
    [2, 3].all (fun mt => leaseHeard mt (pendingLease [lenderSays mt [] []]) == some (pending_ true) &&
      leaseHeard mt (releasing true [lenderSays mt [] []]) == some (releasing_ true)) ∧
    (flightOf (pendingLease []) 0 = some (leaseDesc 0 0) ∧ (leaseDesc 0 0).result = none) ∧
    leaseHeard 6 (releasing true [lenderSays 6 [] []]) = some (releasing_ true) ∧
    leaseHeard 6 (pendingLease [lenderSays 6 [] []]) = some (pending_ true) ∧
    leaseHeard 7 (leasing held_ [] [lenderSays 7 [] []]) = some held_ ∧
    leaseHeard 7 (releasing true [lenderSays 7 [] []]) = some (releasing_ true) ∧
    leaseHeard 8 heldLease = some held_ ∧
    leaseHeard 8 (leasing (leased .reclaiming none [] true false) [] [lenderSays 8 [] []]) = some (leased .reclaiming none [] true false) ∧
    leaseHeard 8 (releasing true [lenderSays 8 [] []]) = some (releasing_ true) ∧
    access false ∈ heldLease.accs ∧ flightOf heldLease 0 = some (flight 0 1 (.stk 0) []) ∧ heldLease.col.ctxs = [] ∧
    (takeMsg 3 0x21 reading).isSome ∧
    (reading.accs.find? fun c => c.tag == 7 && !c.isWrite && !c.done) = some (access false) ∧
    (takeMsg 3 0x23 (leasing held_ [] [lenderSays 0x23 [] []])).isSome := by
  decide +kernel

theorem test_hyp_LeasesAtTheBorrower_timers : leaseAt (pendingLease []) 4 = some (pending_ true) ∧ leaseAt heldLease 4 = some held_ ∧
    leaseAt (leasing (leased .releasing (some 0) [1] true false) [leaseDesc 0 0, leaseDesc 1 1] []) 5 =
      some (leased .releasing (some 0) [1] true false) ∧
    leaseAt (releasing false []) 5 = some (releasing_ false) ∧ leaseQuiet (releasing false []) (releasing_ false) = true ∧
    leaseAt (releasing true []) 5 = some (releasing_ true) ∧
    (let l := leased .releasing none [1] true false
     let s := leasing l [flight 0 1 (.stk 0) [], leaseDesc 1 1] []
     on s ∧ leaseAt s 4 = some l ∧ leaseQuiet s l = false) := by
  decide +kernel

theorem test_lease : after (.lgrant 3) (pendingLease [lenderSays 2 [(16, 3, 70), (19, 3, 71)] []]) (fun t => (t.leases.map fun l => (l.state, l.exts)) ==
      [(.held, [70, 71])] && (flightOf t 0).any fun f => f.result == some 0) ∧
    after (.lrefuse 3) (pendingLease [lenderSays 3 [(1, 1, 1)] []]) (fun t => t.leases.isEmpty &&
      (flightOf t 0).any fun f => f.result == some 0x11) ∧
    after (.lrdata 3) reading (fun t => rd1 t 0x100000000000 == 3 && rd1 t 0x10000000001F == 3 && rd1 t 0x100000000020 == 0) ∧
    after (.releaseAckTimeout 4) (releasing true []) (fun t => t.leases.isEmpty && (flightOf t 0).any fun f => f.result == some 0) := by
  decide +kernel

/-- The lender's side: a lease of extent 2 to device 9, extent 3 free to lend; a message of device 9 at port 3. -/
def lend (id : Nat) (reclaiming : Bool) : Lend := ⟨id, 9, [2], reclaiming, 1, 0xABCD⟩
def lender (l : Lend) (msgs : List Msg) : State :=
  { setPort 3 { portDefault 3 with state := .up, inbox := msgs, partner := some ⟨1, true, 9, 0, 0, 0, [7, 7, 7, 7], []⟩ } keyed with
    exts := [(0, .assigned 1), (2, .lent), (3, .lendable)], lends := [l] }

def borrowerSays (mt id : Nat) (l : List (Nat × Nat × Nat)) (body : List Byte) : Msg :=
  ⟨laneOf mt, laneOf mt, 0, 9, bytesWith 212 ([(0, 1, mt), (4, 4, id), (208, 4, 0xABCD)] ++ l), body, 1, 0⟩

/-- A request of device 9 on its lease 0x9004 finds the lease; one on 0x9005 finds none. -/
def asks (mt id : Nat) (l : List (Nat × Nat × Nat)) : State := lender (lend 0x9004 false) [borrowerSays mt id l (List.replicate 256 3)]
def lendHeard (mt : Nat) (s : State) : Option (Option Lend) := (takeMsg 3 mt s).map fun x => lentLease x.2 x.1
def targetHeard (mt : Nat) (s : State) : Option (Option (Nat × Nat)) :=
  (takeMsg 3 mt s).map fun x => (lentLease x.2 x.1).bind fun l => accTarget l x.1
def reclaimable : State := { lender (lend 0x9004 false) [] with lends := [lend 0x9004 false, { lend 0x8004 false with borrower := 8 }] }

/-- The 512 B of memory at 0x80000000 do not pass their check. -/
def lentRotten (s : State) : State := { s with mce := { s.mce with blocks := [(0x400000, some ⟨0, true⟩)] } }

theorem test_hyp_LeasesAtTheLender : on (asks 1 0x9005 []) ∧ slotOfKey (asks 1 0x9005 []) 0xABCD = some (1, 0) ∧
    lendHeard 1 (asks 1 0x9005 [(1, 1, 1), (2, 2, 1)]) = some none ∧
    lendHeard 1 (asks 1 0x9004 [(1, 1, 1), (2, 2, 1)]) = some (some (lend 0x9004 false)) ∧
    grantOf (asks 1 0x9005 []) 1 1 = some [3] ∧ grantOf (asks 1 0x9005 []) 2 1 = none ∧
    lendHeard 4 (asks 4 0x9004 []) = some (some (lend 0x9004 false)) ∧ lendHeard 4 (asks 4 0x9005 []) = some none ∧
    lendHeard 4 (asks 4 0 []) = some none ∧ fabId (asks 4 0 []) = 0 ∧ bits 26 12 0x9005 = 9 ∧
    lendHeard 5 (asks 5 0x9004 []) = some (some (lend 0x9004 false)) ∧ lendHeard 5 (asks 5 0x9005 []) = some none ∧
    [0x20, 0x22].all (fun mt => targetHeard mt (asks mt 0x9005 []) == some none &&
      targetHeard mt (asks mt 0x9004 [(12, 4, 32), (16, 4, 256)]) == some (some (0x80000020, 256))) ∧
    [0x20, 0x22].all (fun mt => heldRange (asks mt 0x9004 [(12, 4, 32), (16, 4, 256)]) 0x80000020 256 == false &&
      heldRange (heldAt0 (asks mt 0x9004 [(12, 4, 32), (16, 4, 256)])) 0x80000020 256) ∧
    (memRead .lend 0 0x80000020 256 (asks 0x20 0x9004 [])).2 = none ∧
    (memWrite .lend 0 0 0x80000020 (List.replicate 256 3) (asks 0x22 0x9004 [])).2 = none ∧
    (let s := lentRotten (asks 0x20 0x9004 [])
     (memRead .lend 0 0x80000020 256 s).2 ≠ none ∧ (memWrite .lend 0 0 0x80000020 (List.replicate 256 3) s).2 ≠ none) ∧
    ((asks 1 0x9005 []).lends.find? fun x => x.id == 0x9004) = some (lend 0x9004 false) ∧
    ((lender (lend 0x9004 true) []).lends.find? fun x => x.id == 0x9004) = some (lend 0x9004 true) ∧
    bootDone reclaimable = true ∧ bit 31 0x80000009 = true ∧ bit 31 9 = false ∧ lend 0x9004 false ∈ reclaimable.lends ∧
    route reclaimable 9 = some 3 := by decide +kernel

theorem test_lender : after (.lreq 3) (asks 1 0x9005 [(1, 1, 1), (2, 2, 1)]) (fun t => tabGet extDefault t.exts 3 == .lent &&
      (portOf t 3).queue.map (fun m => (bF m.head 0 1, bF m.head 16 3)) == [(2, 3)]) ∧
    after (.lrel 3) (poke 0x80000000 [5] (asks 5 0x9004 [])) (fun t => tabGet extDefault t.exts 2 == .lendable && rd1 t 0x80000000 == 0) ∧
    after (.lwr 3) (asks 0x22 0x9004 [(12, 4, 32), (16, 4, 32)]) (fun t => rd1 t 0x80000020 == 3 && rd1 t 0x80000040 == 0) ∧
    after (.memReclaim 0 0x80000009) reclaimable (fun t => (t.lends.map Lend.reclaiming) == [true, false] &&
      (portOf t 3).queue.map (fun m => bF m.head 0 1) == [7]) := by decide +kernel

/-! ### Host sessions -/

/-- The key and the salt of the host's packets. -/
def hostKey : List Byte := List.replicate 32 8
def hostSalt : List Byte := [1, 2, 3, 4]

/-- A live session of device 6 on port 0: SID 5, nothing sent or received. -/
def sessNew : Session :=
  { sid := 5, port := 0, peer := 6, maxData := 1024, keyHD := hostKey, keyDH := hostKey, saltHD := hostSalt, saltDH := hostSalt, ctrTx := 0,
    ctrHigh := none, ctrSeen := [], rxNext := 0, early := [], todo := [], txNext := 1, out := [], mask := none, lost := 0, ackDue := false }

/-- Channel 3 belongs to partition 1 and is enabled, with a session. -/
def hosted (x : Option Session) (fs : List Flight) : State :=
  { st (pgCh 3) Fld.HIF_CH_CFG_PART 1 (st (pgCh 3) Fld.HIF_CH_CFG_ENABLE 1 (flying fs mine)) with chans := [(3, ⟨x, 0⟩)] }

/-- A datagram of device 6 to port 0: a packet of channel 3 in the clear, or one protected by the host's key. -/
def sendTo (b : List Byte) : Datagram := ⟨0, 6, linkLocal mine 0, rg mine (pgHif 0) Fld.HIF_PORT_CFG_UDP_PORT, b⟩
def clear (ptype sid : Nat) (body : List Byte) : Datagram :=
  sendTo (hctHead ptype 3 0 sid 0 0 0 0 body.length ++ body ++ List.replicate 16 0)
def sealedBy (key : List Byte) (ptype ctr seq ack : Nat) (body : List Byte) : Datagram :=
  let h := hctHead ptype 3 0 5 ctr seq ack 0 body.length
  let r := gcmSeal key (hostSalt ++ toLE 8 ctr) h body
  sendTo (h ++ r.1 ++ r.2)
def pkt (ptype ctr seq ack : Nat) (body : List Byte) : Datagram := sealedBy hostKey ptype ctr seq ack body

/-- The datagram is the port's own, and the packet in it passes the test. -/
def holdsPkt (s : State) (d : Datagram) (p : HctPkt → Bool) : Bool :=
  decide (d.port < 2) && ownAddr s d.port d.dst && d.dport == rg s (pgHif d.port) Fld.HIF_PORT_CFG_UDP_PORT && (hctOf d.data).any p
/-- The plaintext of a packet that the session of its channel accepts. -/
def opened (s : State) (p : HctPkt) : Option (List Byte) := (sessOf s p.chan).bind fun x =>
  if p.body.length ≤ x.maxData + 32 ∧ x.sid = p.sid ∧ ctrNew x p.ctr then gcmOpen x.keyHD (x.saltHD ++ toLE 8 p.ctr) p.head p.body p.tag else none
def sentPkt (seq : Nat) (sent : Bool) (fid : Option Nat) : TxPkt := ⟨seq, sent, 0x30, 0, [], 0, fid⟩
def ackedSess : Session := { sessNew with out := [sentPkt 0 true (some 0), sentPkt 1 true (some 1), sentPkt 2 true none, sentPkt 3 false none] }

/-- A MOVE from memory to channel 3 of which `n` packets are unacknowledged. -/
def moveOut (fid n : Nat) : Flight :=
  { flight fid 1 .hos (bytesWith 64 [(0, 1, 1), (24, 8, 2 ^ 63 + 3 * 2 ^ 48)]) with work := .hos n }

def handshake (sid : Nat) (n : Nat) : Handshake :=
  ⟨3, 0, 6, sid, List.replicate 97 (BitVec.ofNat 8 n), List.replicate 32 0, List.replicate 97 0, 0, [], []⟩
def helloOf (n : Nat) : Datagram := clear 0x01 0 (List.replicate 226 (BitVec.ofNat 8 n))
def greeted (l : List Handshake) (x : Option Session) : State := { hosted x [] with hif := { (hosted x []).hif with pending := l } }
def fourHands : List Handshake := [handshake 1 1, handshake 2 2, handshake 3 3, handshake 4 4]

theorem test_hyp_HostSessions : [hosted none [], hosted (some sessNew) [], hosted (some ackedSess) [moveOut 0 2, moveOut 1 1],
      greeted fourHands (some sessNew)].all (fun s => on s) ∧
    linkLocal (hosted none []) 0 ≠ 7 ∧ globalAddr (hosted none []) 0 = 0 ∧ ownAddr (hosted none []) 0 7 = false ∧
    (sendTo []).port < 2 ∧ hctOf (sendTo []).data = none ∧ holdsPkt (hosted none []) { sendTo [] with dport := 1 } (fun _ => true) = false ∧
    rg mine (pgHif 0) Fld.HIF_PORT_CFG_UDP_PORT ≠ 1 ∧
    holdsPkt (hosted none []) (helloOf 9) (fun p => p.ptype == 1 && p.sid == 0 && p.body.length == 226) ∧
    holdsPkt (hosted none []) (clear 1 0 (List.replicate 225 0)) (fun p => p.ptype == 1 && p.body.length == 225) ∧
    holdsPkt (hosted none []) (clear 1 4 (List.replicate 226 0)) (fun p => p.ptype == 1 && p.sid == 4) ∧
    (hosted none []).sec.failed = false ∧
    ((greeted fourHands none).hif.pending.find? fun k => k.hostEph == List.replicate 97 9) = none ∧
    ((greeted fourHands none).hif.pending.find? fun k => k.hostEph == List.replicate 97 2) = some (handshake 2 2) ∧
    (greeted fourHands none).hif.pending.length = 4 ∧ (greeted [] none).hif.pending.length < 4 ∧
    holdsPkt (hosted none []) (clear 3 9 (List.replicate 96 0)) (fun p => p.ptype == 3 && p.body.length == 96 && p.chan == 3 && p.sid == 9) ∧
    holdsPkt (hosted none []) (clear 3 2 (List.replicate 95 0)) (fun p => p.ptype == 3 && p.body.length == 95) ∧
    ((greeted fourHands none).hif.pending.find? fun k => k.sid == 9 && k.chan == 3) = none := by decide +kernel

/-- The public keys of the host's private keys 3 and 4, and the digest of the first, written out. -/
def pub3 : List Byte :=
  4 :: toBE 48 0x7b63205bf00ddae73b17452b6a27ebf53df581348c6949f83ee1b6fcc7463bbe3c11ef6596a3b8897d7cc85b3035f11f ++
    toBE 48 0x761d3a4a5f8093775521a326bc02baaf7b2eb481ead16a5c7b2bd39462363e0373c0edaea3b8f59381d7129d48772eb3
def pub4 : List Byte :=
  4 :: toBE 48 0xdd5393f5c8859560675d5abc72ebc2ae45a6dca90945dba8d4462d702c844e11a345294d5446828e48921ec979f4a32 ++
    toBE 48 0x80ffdfa1ea4fdf56ad184f44d3ab5005832cf70a0254f70f071ec79036c5f4676fce80c25f70c7af103b90824e878ba2
def digest3 : List Byte := toBE 48 0xa4a9704fadb90eeee697ef0eee98e34f2bdca1d4e11fd7a49b2cb2a343d8f1744397072f4af36686707dc094664de375
/-- A handshake, and the host's signature of it written out: its long-term key is 3 and its ephemeral one 4. -/
def handed : Handshake := { handshake 2 0 with
  hostEph := pub4
  hostPub := pub3
  eph := 6
  reply := List.replicate 100 7 }
def finished : Datagram := clear 3 2
  (toBE 48 0x318ccbf708397f07aba57e45a1b99b3da92b638fab9b5123cb8050cb12ff55d02ca04884153f3ca5be9a6fa4d102fdcc ++
    toBE 48 0x60ceee422d97a3b1b6b84e7fd1c0d48edd0bcf553393e1fa6e6c9db2076042090d43139ba2bb393cbceec5963885a15e)
/-- Channel 3 holds the digest of a host key. -/
def expects (dig : List Byte) (s : State) : State :=
  (List.range 12).foldl (fun s m => st (pgCh 3) (fldAt Fld.HIF_CH_KEYDIG m) (bF dig (4 * m) 4) s) s
def known : State := expects digest3 (greeted [handed] (some sessNew))

theorem test_hyp_HostSessions_finish : on known ∧
    holdsPkt known finished (fun p => p.ptype == 3 && p.body.length == 96 && p.sid == 2 && finishCode known handed p.body == 0) ∧
    holdsPkt known (clear 3 2 (List.replicate 96 7)) (fun p => p.body.length == 96 && finishCode known handed p.body == 0x23) ∧
    (known.hif.pending.find? fun k => k.sid == 2 && k.chan == 3) = some handed ∧ (sessOf known 3).isSome ∧
    rg known (pgCh 3) Fld.HIF_CH_CFG_ENABLE = 1 ∧ chanPart known 3 = 1 ∧ partExists known 1 = true ∧
    rg (st (pgCh 3) Fld.HIF_CH_CFG_ENABLE 0 known) (pgCh 3) Fld.HIF_CH_CFG_ENABLE = 0 ∧
    keyDig known 3 = sha384 pub3 ∧ keyDig (greeted [handed] none) 3 ≠ digest3 ∧ ecdhX 6 pub4 ≠ none ∧
    ecdhX 6 (List.replicate 97 0) = none := by decide +kernel

theorem test_finish : after (.finish finished) known (fun t => (sessOf t 3).any (fun x => x.sid == 2 && x.txNext == 1 && x.keyHD.length == 32) &&
      t.hif.pending.isEmpty && rg t (pgCh 3) Fld.HIF_CH_LOST == 1 && t.out.length == 1) ∧
    after (.finish (clear 3 2 (List.replicate 96 7))) known (fun t => rg t (pgCh 3) Fld.HIF_CH_AUTH_FAIL == 1 && t.hif.pending.isEmpty &&
      sessOf t 3 == some sessNew) := by decide +kernel

theorem test_hyp_HostSessions_packets : let s := hosted (some ackedSess) [moveOut 0 2, moveOut 1 1]
    holdsPkt s (pkt 0x10 0 0 2 []) (fun p => p.ptype == 0x10 && opened s p == some []) ∧
    holdsPkt (hosted (some sessNew) []) (pkt 6 0 0 0 []) (fun p => p.ptype == 6 && opened (hosted (some sessNew) []) p == some [] &&
      p.seq == sessNew.rxNext) ∧
    holdsPkt s (sealedBy keyZero 0x10 0 0 2 []) (fun p => (sessOf s p.chan).all fun x => decide (p.body.length ≤ x.maxData + 32) &&
      (gcmOpen x.keyHD (x.saltHD ++ toLE 8 p.ctr) p.head p.body p.tag).isNone) ∧
    holdsPkt (hosted none []) (pkt 0x10 0 0 2 []) (fun p => (sessOf (hosted none []) p.chan).isNone) ∧
    holdsPkt s (clear 0x10 5 (List.replicate 1057 0)) (fun p => (sessOf s p.chan).any fun x => x.maxData + 32 < p.body.length) ∧
    ctrNew { sessNew with ctrHigh := some 9, ctrSeen := [9] } 9 = false ∧ ctrNew { sessNew with ctrHigh := some 1034, ctrSeen := [] } 9 = false ∧
    ctrNew { sessNew with ctrHigh := some 1033, ctrSeen := [] } 9 = true ∧
    [0, 1].all (fun i => (flightOf s i).any fun f => f.work == .hos (2 - i) && f.result.isNone) ∧
    ((ackedSess.out.filter (covered 2 0)).map TxPkt.fid) = [some 0, some 1] ∧ poolUsed (hosted (some sessNew) []) = 0 ∧
    movesOf (hosted (some ackedSess) [moveOut 0 2]) 3 = [moveOut 0 2] ∧ sessOf s 3 = some ackedSess ∧
    ({ sessNew with ackDue := true }.ackDue) = true ∧ sessNew.ackDue = false ∧ ackedSess.out.all (fun t => t.sent) = false ∧
    (ackedSess.out.find? fun t => t.seq == 0 && t.sent) = some (sentPkt 0 true (some 0)) ∧ sessNew.out = [] := by decide +kernel

theorem test_host : after (.ackonly (pkt 0x10 0 0 2 [])) (hosted (some ackedSess) [moveOut 0 2, moveOut 1 1]) (fun t =>
      (flightOf t 0).any (fun f => f.work == .hos 1) && (flightOf t 1).any (fun f => f.result == some 0) &&
      (sessOf t 3).any fun x => x.out.map (fun y => (y.seq, y.sent)) == [(2, true), (3, true)]) ∧
    after (.ackonly (sealedBy keyZero 0x10 0 0 2 [])) (hosted (some ackedSess) []) (fun t => rg t (pgCh 3) Fld.HIF_CH_AUTH_FAIL == 1 &&
      sessOf t 3 == some ackedSess) ∧
    after (.close (pkt 6 0 0 0 [])) (hosted (some sessNew) []) (fun t => sessOf t 3 == none) ∧
    after (.sessionIdleTimeout 3) (hosted (some ackedSess) [moveOut 0 2]) (fun t => rg t (pgCh 3) Fld.HIF_CH_LOST == 1 &&
      (flightOf t 0).any fun f => f.result == some 0x32 && f.detail == 0x0102) := by decide +kernel

/-! ### Host requests -/

/-- A packet of a request in its turn. -/
def req (ptype : Nat) (body : List Byte) : Datagram := pkt ptype 0 0 0 body

/-- Partition 1's ring of 4 entries stands at 0x10000, empty, or full. -/
def ring (tail : Nat) (x : Session) : State :=
  st (pgDsp 1) Fld.DSP_Q_TAIL tail (st (pgDsp 1) Fld.DSP_Q_BASE_LO 0x10 (st (pgDsp 1) Fld.DSP_Q_SIZE 2 (hosted (some x) [])))
def bulkBody (a len : Nat) (l : List Byte) : List Byte := toLE 6 a ++ toLE 2 0 ++ toLE 4 len ++ toLE 4 0 ++ l
def bulk : List Byte := bulkBody 0x20000 32 (List.replicate 32 7)
def regBody : List Byte := toLE 4 1 ++ toLE 24 0

/-- A MOVE of 32 bytes from channel 3 into memory, with its pull. -/
def thePull : Pull := ⟨1, 0, 3, 0, 32, 0x20000⟩
def pulling (n : Nat) (l : List Pull) : State :=
  { hosted (some sessNew) [{ flight 0 1 .hos (bytesWith 64 [(0, 1, 1), (16, 8, 2 ^ 63 + 3 * 2 ^ 48), (24, 6, 0x20000)]) with work := .hos n }] with
    hif := { (hosted none []).hif with pulls := l } }
def fill : List Byte := toLE 4 1 ++ toLE 4 32 ++ toLE 8 0 ++ List.replicate 32 7
def waitsFor : Session := { sessNew with early := [(7, 0x20, [])] }

/-- The device before boot is done. -/
def hostedBoot : State := st pgBoot Fld.BOOT_STATE_STEP 5 (hosted (some sessNew) [])

/-- Partition 1 holds a lease of slots 4 and 5. -/
def hostedLease : State := { hosted (some sessNew) [] with leases := [⟨1, 4, 2, 9, 0, .held, none, [], 0, true, false, 0, [70, 71]⟩] }

/-- A stored packet fills the pool. -/
theorem pool_full (l : List Byte) : poolUsed (hosted (some { sessNew with early := [(7, 0x20, l)] }) []) = 0 + l.length := by rfl

theorem test_hyp_HostRequests_pool : 0x1000000 < poolUsed (hosted (some { sessNew with early := [(7, 0x20, List.replicate 0x1000000 0)] }) []) + 1 := by
  rw [pool_full, List.length_replicate]
  decide

/-- The packet stands in its turn, with this plaintext. -/
def inTurn (s : State) (d : Datagram) (ptype : Nat) (b : List Byte) : Bool := on s && holdsPkt s d fun p => p.ptype == ptype &&
  opened s p == some b && p.chan == 3 && (sessOf s 3).any fun x => decide (x.txNext < 2 ^ 32) && x.todo.isEmpty && x.early.isEmpty &&
    p.seq == x.rxNext && decide (poolUsed s + b.length ≤ 0x1000000) && (lostCode s s.nextFid).isNone

/-- The number of a packet against the session's next one: old, too far ahead, ahead, and kept already. -/
theorem test_hyp_HostRequests_turn : [(0, 8), (300, 0), (1, 0), (7, 0)].all (fun x =>
      let s := hosted (some { waitsFor with rxNext := x.2 }) []
      on s && holdsPkt s (pkt 0x20 0 x.1 0 regBody) fun p => opened s p == some regBody && p.seq == x.1) ∧
    waitsFor.todo = [] ∧ (waitsFor.early.all fun e => e.1 != 0 && e.1 != 8) = true ∧ poolUsed (hosted (some waitsFor) []) = 0 ∧
    2 ^ 31 ≤ (0 + 2 ^ 32 - 8) % 2 ^ 32 ∧ (300 + 2 ^ 32 - 0) % 2 ^ 32 = 300 ∧ 0 < (1 + 2 ^ 32 - 0) % 2 ^ 32 ∧ (7, 0x20, []) ∈ waitsFor.early := by
  decide +kernel

theorem test_hyp_HostRequests : regBody.length = 4 + 24 * 1 ∧ bF regBody 0 4 = 1 ∧ inTurn (hosted (some sessNew) []) (req 0x20 regBody) 0x20 regBody ∧
    inTurn (hosted (some sessNew) []) (req 0x20 []) 0x20 [] ∧ bF [] 0 4 = 0 ∧
    (let s := hosted (some sessNew) []
     let d := req 0x20 regBody
     (hctOf d.data).any fun p =>
       (sessOf (regRun 1 ((List.range 1).map (regAccess regBody)) [] (receive 3 0x20 0 regBody (headerIn d p (rxFrame 0 s)).1)).1 3).any fun y =>
         y.sid == 5 && y.txNext == 1 && y.todo.length == 1) ∧
    [ring 0 sessNew, ring 3 sessNew, { ring 0 sessNew with exts := [] }].all (fun s => inTurn s (req 0x22 (List.replicate 16 9)) 0x22 (List.replicate 16 9) &&
      !heldRange s (qRing s 1 + 16 * qTail s 1) 16) ∧
    qTail (ring 0 sessNew) 1 = 0 ∧ qHead (ring 0 sessNew) 1 = 0 ∧ qSize (ring 0 sessNew) 1 = 4 ∧ qRing (ring 0 sessNew) 1 = 0x10000 ∧
    qTail (ring 3 sessNew) 1 = 3 ∧ partState (ring 0 sessNew) 1 ≠ .torn ∧ bootDone (ring 0 sessNew) = true ∧ qRuns (ring 0 sessNew) 1 = false ∧
    (memWrite .beside 1 0 0x10000 (List.replicate 16 9) (ring 0 sessNew)).2 = none ∧
    (memWrite .beside 1 0 0x10000 (List.replicate 16 9) { ring 0 sessNew with exts := [] }).2 = some 0x20 := by decide +kernel

theorem test_hyp_HostRequests_bulk : let s := hosted (some sessNew) []
    [(s, bulk), (s, bulkBody 0x20001 32 []), (hostedBoot, bulkBody 0x80000000000 32 (List.replicate 32 7)),
      (hostedLease, bulkBody 0x40100000000 32 (List.replicate 32 7)), (rottenSrc s, bulkBody 0x20000 32 (List.replicate 32 7))].all
      (fun x => inTurn x.1 (req 0x24 x.2) 0x24 x.2) ∧
    [(s, bulkBody 0x20000 32 []), (s, bulk), (hostedBoot, bulkBody 0x80000000000 32 []), (rottenSrc s, bulkBody 0x20000 32 [])].all
      (fun x => inTurn x.1 (req 0x26 x.2) 0x26 x.2) ∧
    (bF bulk 0 6, bF bulk 8 4, bF bulk 6 2, bF bulk 12 4, bulk.length) = (0x20000, 32, 0, 0, 48) ∧
    opRange s 1 0x20000 32 = true ∧ heldRange s 0x20000 32 = false ∧
    (memWrite .yard 1 s.nextFid 0x20000 (List.replicate 32 7) s).2 = none ∧
    (memWrite .yard 1 0 0x20000 (List.replicate 32 7) (rottenSrc s)).2 = some 0x21 ∧
    s.accs = [] ∧ (piecesOf 0x20000 32).all ownTier ∧ 0x20001 % 32 ≠ 0 ∧ (bulkBody 0x20000 32 []).length = 16 ∧ bootDone hostedBoot = false ∧
    (memRead .yard 1 0x20000 32 s).2 = none ∧ (memRead .yard 1 0x20000 32 (rottenSrc s)).2 = some 0x21 ∧ heldFor s s.nextFid 0x20000 32 = false ∧
    opRange hostedLease 1 0x40100000000 32 = true ∧ heldRange hostedLease 0x40100000000 32 = false ∧
    (memWrite .yard 1 hostedLease.nextFid 0x40100000000 (List.replicate 32 7) hostedLease).2 = none := by decide +kernel

theorem test_hyp_HostRequests_rest : [toLE 4 15, toLE 4 16].all (fun b => inTurn (hosted (some sessNew) []) (req 0x28 b) 0x28 b) ∧
    [pulling 1 [thePull], pulling 2 [thePull], pulling 1 []].all (fun s => inTurn s (req 0x33 fill) 0x33 fill) ∧
    ((pulling 1 [thePull]).hif.pulls.find? fun w => w.chan == 3 && w.moveId == bF fill 0 4 && w.offset == bF fill 8 8 &&
      w.len == bF fill 4 4 && fill.length == 16 + bF fill 4 4) = some thePull ∧ (pulling 1 []).hif.pulls = [] ∧
    [1, 2].all (fun n => !mustWait (pulling n [thePull]) 0 [] [(0x20000, 32)] && (flightOf (pulling n [thePull]) 0).any fun f =>
      f.work == .hos n && f.result.isNone) ∧ (memWrite .yard 1 0 0x20000 (fill.drop 16) (pulling 1 [thePull])).2 = none ∧
    (memWrite .yard 1 0 0x20000 (fill.drop 16) (pulling 2 [thePull])).2 = none ∧ sessNew.out = [] := by decide +kernel

/-- SUBMIT writes the ring at TAIL; BULK_WR writes memory; a lease's bytes go to the lender; SUBSCRIBE takes the mask. -/
theorem test_requests : after (.submit (req 0x22 (List.replicate 16 9))) (ring 0 sessNew) (fun t => rd1 t 0x1000F == 9 && qTail t 1 == 1) ∧
    after (.bulkWr (req 0x24 bulk)) (hosted (some sessNew) []) (fun t => rd1 t 0x20000 == 7 && rd1 t 0x2001F == 7 && rd1 t 0x20020 == 0 &&
      (sessOf t 3).any fun x => x.rxNext == 1 && x.out.map (fun y => (y.ptype, bF y.body 0 1)) == [(0x25, 0)]) ∧
    after (.bulkWr (req 0x24 (bulkBody 0x40100000000 32 (List.replicate 32 7)))) hostedLease (fun t => t.accs.any fun e => e.fid == hostedLease.nextFid) ∧
    after (.bulkRd (req 0x26 (bulkBody 0x20000 32 []))) (poke 0x20000 [8] (hosted (some sessNew) [])) (fun t =>
      (sessOf t 3).any fun x => x.out.map (fun y => (y.ptype, y.flags, bF y.body 4 4, bF y.body 16 1)) == [(0x27, 1, 32, 8)]) ∧
    after (.subscribe (req 0x28 (toLE 4 5))) (hosted (some sessNew) []) (fun t => (sessOf t 3).any fun x => x.mask == some 5) ∧
    after (.moveFill (req 0x33 fill)) (pulling 1 [thePull]) (fun t => rd1 t 0x20000 == 7 && (flightOf t 0).any fun f => f.result == some 0) := by
  decide +kernel

/-! ### Faults -/

def retrains (held : Bool) (n : Nat) : State :=
  { mine with retrain := { mine.retrain with
    held := if held then [⟨false, 0, 2⟩] else []
    fails := if n = 0 then [] else [(⟨false, 0, 2⟩, n)] } }
def stackGone : State := { mine with exts := [(0, .failed)] }
def scratchWay (p : Nat) : State := st pgYrd (fldWayOwner 3) p (st pgYrd (fldWayMode 3) 2 mine)
def deferred : State := st (pgMem 0) Fld.MEM_RETRAIN_POL_DEFER 1 mine
def fencedOne : State := st pgRas (arrBit Fld.RAS_FENCE 0) 1 mine
def meets : State := flying [flight 0 1 (.stk 0) []] mine
/-- The package 2 of LPDDR, with channel 3 in its third retrain. -/
def retrainsLpd : State := { mine with retrain := { mine.retrain with held := [⟨true, 2, 3⟩], fails := [(⟨true, 2, 3⟩, 2)] } }

/-- The number of a block in a path detail. -/
def blkNo (b : Block) : Nat := blockCode b

theorem test_hyp_FaultsTakeUnitsOutOfService : [retrains false 0, retrains true 0, retrains true 2, stackGone, scratchWay 1, deferred, fencedOne,
      meets, retrainsLpd, kvWaits kvShared, scWaits 2 1 0x10000].all (fun s => on s && canonical s) ∧
    tabGet extDefault mine.exts 0 = .assigned 1 ∧ deferOf mine false 0 ≠ 1 ∧ deferOf deferred false 0 = 1 ∧
    0 ∈ unitExtents false 0 ∧ partState mine 1 = .active ∧ failsOf (retrains true 0) ⟨false, 0, 2⟩ < 2 ∧
    2 ≤ failsOf (retrains true 2) ⟨false, 0, 2⟩ ∧ tabGet extDefault stackGone.exts 0 = .failed ∧
    rg mine pgRas Fld.RAS_DEV_STAT_FAILED = 0 ∧ rg mine (pgPrt 1) Fld.PAGE_ERR_ERR = 0 ∧ fenced mine 0 = false ∧
    fenced fencedOne 0 = true ∧ arrOwner mine 0 = 1 ∧ rg (scratchWay 1) pgYrd (fldWayMode 3) = 2 ∧
    rg (scratchWay 1) pgYrd (fldWayOwner 3) = 1 ∧ rg (scratchWay 0) pgYrd (fldWayOwner 3) = 0 ∧ rg mine pgYrd (fldWayMode 3) ≠ 2 ∧
    blockOfCode 255 = none ∧ blockOfCode (blkNo .dsp) = some .dsp ∧ blockOfCode (blkNo .tok) = some .tok ∧ sharedPage 7 ⟨.dsp, 1⟩ = true ∧
    sharedPage 7 ⟨.tok, 0⟩ = true ∧ sharedPage 6 ⟨.tok, 0⟩ = false ∧
    sharedPage 0 (pgMem 0) = true ∧ (kv (kvWaits kvShared) 1).waiting.isSome ∧ sharedPage 8 (pgKvs 1) = true ∧ blockOfCode (blkNo .kvs) = some .kvs ∧
    (sc (scWaits 2 1 0x10000) 1).waiting.isSome ∧ sharedPage 8 (pgScn 1) = true ∧ blockOfCode (blkNo .scn) = some .scn ∧
    ⟨true, 2, 3⟩ ∈ retrainsLpd.retrain.held ∧ failsOf retrainsLpd ⟨true, 2, 3⟩ = 2 ∧ tabGet extDefault retrainsLpd.exts (1024 + 64 * 2) ≠ .failed ∧ blockOfCode (blkNo pgSecDev.blk) = some pgSecDev.blk ∧ sharedPage 9 pgSecDev = true ∧
    flightOf meets 0 = some (flight 0 1 (.stk 0) []) ∧ meets.col.ctxs = [] ∧ bit 1 2 = true := by decide +kernel

/-- The third failed retrain takes the stack and tears partition 1 down; a fenced array tears its holder down. -/
theorem test_faults : after (.memoryRetrainStart false 0 2 false) mine (fun t => t.retrain.held == [⟨false, 0, 2⟩] &&
      rg t (pgMem 0) Fld.MEM_RETRAIN_CNT == 1) ∧
    after (.memoryRetrainEnd false 0 2 true 700 false) (retrains true 1) (fun t => t.retrain.held.isEmpty && t.retrain.fails.isEmpty &&
      rg t (pgMem 0) Fld.MEM_HOLD_MAX == 700) ∧
    after (.memoryRetrainEnd false 0 2 false 0 false) (retrains true 2) (fun t => tabGet extDefault t.exts 0 == .failed &&
      partState t 1 == .torn && rg t pgRas Fld.RAS_DEV_STAT_CAUSE == 3) ∧
    after (.arrayUncorrectedError 7 0 none) mine (fun t => fenced t 7 && partState t 1 == .torn && rg t pgRas Fld.RAS_DEV_STAT_CAUSE == 1) ∧
    after (.sharedUnitError 7 (blkNo .tok) 0 0 none (some 5)) mine (fun t => (tok t 5).poisoned && rg t pgRas Fld.RAS_DEV_STAT_CAUSE == 7) := by
  decide +kernel

/-! ### Partitions -/

/-- Partition 1 in a state. -/
def inState (x : PartState) (quiet : Bool) (s : State) : State := setPart 1 { partDefault 1 with state := x, quiet := quiet } s
def prtBusy : State := st (pgPrt 1) Fld.PRT_CMD_STAT_BUSY 1 mine
def failedSec (x : PartState) : State := { inState x false mine with sec := { mine.sec with failed := true } }
def taken : State := st (pgPrt 1) Fld.PRT_SUSP_SCR_COUNT 2 (st (pgPrt 1) Fld.PRT_SUSP_SCR_FIRST 2 (inState .suspended false (st pgYrd (fldWayMode 2) 2 mine)))
def roomFor : State := st (pgPrt 1) Fld.PRT_SUSP_CACHE 1 (st (pgPrt 1) Fld.PRT_SUSP_SCR_COUNT 2 (st (pgPrt 1) Fld.PRT_SUSP_SCR_FIRST 4
  (inState .suspended false mine)))

/-- One way of scratch with 4 KiB live, saved to the first extent of HBM. -/
def saving (x : PartState) : State := st (pgPrt 1) Fld.PRT_SUSP_SCR_COUNT 1 (st (pgPrt 1) Fld.PRT_SCR_LIVE 1 (st (pgPrt 1) Fld.PRT_SAVE 1
  (inState x true (st pgYrd (fldWayOwner 0) 1 (st pgYrd (fldWayMode 0) 2 mine)))))
def extents (first count busy : Nat) (l : List (Nat × Ext)) : State :=
  st pgPrtDev Fld.PRT_EXT_STAT_BUSY busy (st pgPrtDev Fld.PRT_EXT_ARG_FIRST first (st pgPrtDev Fld.PRT_EXT_ARG_COUNT count { mine with exts := l }))
def busyArray : State := setArr 4 { arrDefault 4 with active := some (⟨0, 0, 0, 0⟩, []) } mine

theorem test_hyp_PartitionsAreMadeSwitchedAndEnded : (on prtBusy && bootDone prtBusy && canonical prtBusy) ∧
    rg prtBusy (pgPrt 1) Fld.PRT_CMD_STAT_BUSY = 1 ∧
    [mine, inState .none false mine, inState .torn false mine, inState .suspended false mine, taken, roomFor].all (fun s =>
      on s && bootDone s && canonical s && rg s (pgPrt 1) Fld.PRT_CMD_STAT_BUSY == 0) ∧ partState mine 1 = .active ∧
    partState (inState .none false mine) 1 = .none ∧ partState (inState .torn false mine) 1 = .torn ∧
    partState (inState .suspended false mine) 1 = .suspended ∧ mine.sec.failed = false ∧
    [PartState.none, .torn].all (fun x => partState (failedSec x) 1 == x && (failedSec x).sec.failed && canonical (failedSec x)) ∧
    rg taken (pgPrt 1) Fld.PRT_SUSP_SCR_FIRST = 2 ∧ rg taken (pgPrt 1) Fld.PRT_SUSP_SCR_COUNT = 2 ∧ rg taken pgYrd (fldWayMode 2) ≠ 0 ∧
    [4, 5, 0].all (fun k => rg roomFor pgYrd (fldWayMode k) == 0) ∧ bit 0 (rg roomFor (pgPrt 1) Fld.PRT_SUSP_CACHE) ∧
    partState (inState .suspending false (flying [gemmOf 0 4 0] mine)) 1 = .suspending ∧ preemptible (gemmOf 0 4 0) = true ∧
    preemptible (flight 0 1 (.stk 0) []) = false ∧ canonical (inState .suspending false (flying [gemmOf 0 4 0] mine)) ∧
    [saving .suspending, saving .resuming].all (fun s => on s && bootDone s && canonical s && (prt s 1).quiet &&
      decide (scratchOf s 1 = (0, 1)) && (sc s 1).slots.isEmpty && decide (savePieces s 1 0 1 = [(2 ^ 43, 32768, 4096)])) ∧
    partState (saving .suspending) 1 = .suspending ∧ partState (saving .resuming) 1 = .resuming ∧
    switchHeld (saving .suspending) 1 [(2 ^ 43, 32768, 4096)] = false ∧ switchHeld (saving .resuming) 1 [(32768, 2 ^ 43, 4096)] = false ∧
    switchHeld (heldAt0 (saving .suspending)) 1 [(2 ^ 43, 32768, 4096)] = true ∧
    switchHeld (heldAt0 (saving .resuming)) 1 [(32768, 2 ^ 43, 4096)] = true ∧
    (switchCopy 1 [(2 ^ 43, 32768, 4096)] (saving .suspending)).2 = none ∧
    (switchCopy 1 [(32768, 2 ^ 43, 4096)] (saving .resuming)).2 = none ∧
    (switchCopy 1 [(2 ^ 43, 32768, 4096)] { saving .suspending with exts := [] }).2 = some 0x20 ∧
    arrEmpty (arr mine 4) = true ∧ arrEmpty (arr busyArray 4) = false ∧ canonical busyArray := by decide +kernel

theorem test_hyp_PartitionsAreMadeSwitchedAndEnded_extents :
    [extents 2 2 0 [], extents 2 2 0 [(2, .lendable), (3, .lendable)], extents 2 2 0 [(2, .zeroing 1)], extents 63 1 0 [], extents 2 0 0 [],
      extents 2 2 1 []].all (fun s => on s && bootDone s && canonical s) ∧
    rg (extents 2 2 1 []) pgPrtDev Fld.PRT_EXT_STAT_BUSY = 1 ∧ rg (extents 2 2 0 []) pgPrtDev Fld.PRT_EXT_STAT_BUSY = 0 ∧
    rg (extents 2 2 0 []) pgPrtDev Fld.PRT_EXT_ARG_FIRST = 2 ∧ rg (extents 2 2 0 []) pgPrtDev Fld.PRT_EXT_ARG_COUNT = 2 ∧
    isExtent 2 = true ∧ isExtent 3 = true ∧ isExtent 63 = false ∧
    [1, 3].all (fun o => [2, 3].all fun b => extAllows (extents 2 2 0 []) o b) ∧
    [2, 3].all (fun b => extAllows (extents 2 2 0 [(2, .lendable), (3, .lendable)]) 2 b) ∧
    extAllows (extents 2 2 0 [(2, .zeroing 1)]) 1 2 = false ∧ rg (extents 2 0 0 []) pgPrtDev Fld.PRT_EXT_ARG_COUNT = 0 ∧
    tabGet extDefault (extents 2 2 1 [(2, .zeroing 1)]).exts 2 = .zeroing 1 := by decide +kernel

theorem test_partitions : after (.prtDestroy 0 1) (inState .suspended false mine) (fun t => partState t 1 == .none &&
      tabGet extDefault t.exts 0 == .unassigned) ∧
    after (.prtSuspend 0 1) mine (fun t => partState t 1 == .suspending && rg t (pgPrt 1) Fld.PRT_CMD_STAT_BUSY == 1) ∧
    after (.prtResume 0 1) taken (fun t => rg t (pgPrt 1) Fld.PRT_CMD_STAT_CODE == 0x11) ∧
    after (.prtResume 0 1) roomFor (fun t => partState t 1 == .resuming && rg t pgYrd (fldWayOwner 5) == 1 && rg t pgYrd (fldWayMode 5) == 2 &&
      rg t pgYrd (fldWayMode 0) == 1) ∧
    after (.assign 0 1) (extents 2 2 0 []) (fun t => tabGet extDefault t.exts 3 == .zeroing 1 && rg t pgPrtDev Fld.PRT_EXT_STAT_BUSY == 1) ∧
    after (.extentZeroed 2) (extents 2 1 1 [(2, .zeroing 1)]) (fun t => tabGet extDefault t.exts 2 == .assigned 1 &&
      rg t pgPrtDev Fld.PRT_EXT_STAT_BUSY == 0) := by decide +kernel

/-! ### Security -/

/-- Partition 1's command block at address 0, as given. -/
def secState (l : List (Nat × Nat × Nat)) : State := poke 0 (bytesWith 64 l) mine
def secBusy : State := st (pgSec 1) Fld.SEC_CMD_STAT_BUSY 1 mine
def secFailed : State := { mine with sec := { mine.sec with failed := true } }
def withSec (c : SecPart) (s : State) : State := { s with secs := [(1, c)] }
def theKey : KeySet := ⟨jobKey, jobKey, jobKey⟩
def sweeping (l : List (Nat × List Nat × Nat)) : SecPart :=
  { secPartDefault 1 with
    cur := 1
    old := 0
    sweeping := true
    oldSet := theKey
    sweep := l }

/-- ATTEST_P into 0x1000; MEASURE of 32 bytes at 0x2000. -/
def attestBlock : List (Nat × Nat × Nat) := [(32, 8, 0x1000)]
def measureBlock : List (Nat × Nat × Nat) := [(0, 8, 0x2000), (8, 8, 32)]

/-- Public keys of the private keys 7 (a publisher) and 9 (a sender), and the digest of that of 11 (the device's IDK), written out. -/
def pub7 : List Byte :=
  4 :: toBE 48 0x6460f955efdcbf3bf7393081ddf04a64747781bc8956c1e5ff47be522f7f758244ae054e91e8aa160c76dc7302bcf181 ++
    toBE 48 0x7a30d2af9219e43d33be0b515a36f3c95c17b17dcad568ef85f51eae54657c72ed3ca9972dd90da5fc54207824db4187
def pub9 : List Byte :=
  4 :: toBE 48 0x318ccbf708397f07aba57e45a1b99b3da92b638fab9b5123cb8050cb12ff55d02ca04884153f3ca5be9a6fa4d102fdcc ++
    toBE 48 0x6c64153906e5540a6f5562626e4cf07a0a7709206e67fcd6519b9cb144a5af68a892df80129727a5f0c4d7c799bdd7a
def digest11 : List Byte := toBE 48 0xc3874be9519651b63ce16854536a1155f727eb459168fb172cfdf9849c03ad5fa7c70b53c920a3e4a4857b2c16d10c3f
/-- The header of a bundle of 32 bytes for this device with tag 09 .. 09, its digest, its signature, and a body that has this tag under
the content key 06 .. 06; a blob with that key for the partition with PKA 13. -/
def bundle : List Byte := toLE 2 1 ++ toLE 2 1 ++ toLE 4 0 ++ toLE 8 32 ++ toLE 16 0 ++ List.replicate 16 9 ++ pub7 ++
  List.replicate 55 0 ++ digest11
def bundleDig : List Byte := toBE 48 0x175598f1f2fda2cde76ffc723c86ab007e1d94cb33cdfa782b7d50a344a6ff4db8f979e0ac91e8e454e33393657afef3
def bundleSig : List Byte :=
  toBE 48 0xd3ec4dfce2647725100dabea7b5f59f465848a4b4fbb6080ac96ddf237f84f4fbc1247651c2770d2cebab9fd2412dfb ++
  toBE 48 0x335ad1ea3ea6cd9e092a47d4a0ae20d87ff166de0400dbe0b79df33b9507f4bb487f3cc27746fc435bc5d164360e5471
def bundleBody : List Byte := List.replicate 16 0 ++ toBE 16 0xd3fcb6b201eb27b06d6a847fbe9686ab
def releaseBlob : List Byte := pub9 ++ toLE 7 0 ++ bundleDig ++
  toBE 48 0x17aed9b279023b1b4b030b5d11074c7c21174d52d5b3f3d39ef2b842f358dedd87a4c61cbad494ed82bb15eec403c64c
/-- A partition with PKA 13 on a device with IDK 11. -/
def keyedDev (s : State) : State :=
  { withSec { secPartDefault 1 with pka := 13 } s with pwr := { s.pwr with fuses := { s.pwr.fuses with idk := 11 } } }
/-- BIND of the bundle: header at 0x1000, blob at 0x2000, body at 0x3000, into 0x4000. -/
def bindBlock : List (Nat × Nat × Nat) := [(0, 8, 0x1000), (8, 8, 0x2000), (16, 8, 0x3000), (24, 8, 0x4000)]
def bindState (body : List Byte) : State :=
  poke 0x3000 body (poke 0x2000 releaseBlob (poke 0x1000 (bundle ++ bundleSig) (keyedDev (secState bindBlock))))

/-- JOBKEY_LOAD of slot 2, identifier 77, from a blob at 0x1000 (or at 0x1010) with the key 06 .. 06. -/
def jobBlob : List Byte := pub9 ++ toLE 4 77 ++ toLE 3 0 ++
  toBE 48 0x95b73b3df651d8a3bf2854882a6bf985e6dbb0d62d0e59490027f6f7c02bb97c6fbc957b293c68a10d3953441bc0d8d1
def loadState (a : Nat) : State := poke 0x1000 jobBlob (keyedDev (secState [(0, 1, 2), (4, 4, 77), (8, 8, a)]))
def slotTaken : State :=
  withSec { secPartDefault 1 with
    pka := 13
    slots := (secPartDefault 1).slots.set 2 ⟨5, jobKey, 9⟩ } (loadState 0x1000)

/-- A signed report of a given body. -/
def signedOf (s : State) (body : List Byte) : List Byte := body ++ (signBy s.sec.sak body s).1 ++ s.sec.chain

/-- Readable, and writable outside leases. -/
def readsAt (s : State) (x n : Nat) : Bool := ((List.range 8).all (fun f => !heldFor s f x n) && s.retrain.held.isEmpty && s.yard.zeroising.isEmpty && (memRead .beside 1 x n s).2.isNone)
def takesAt (p : Nat) (s : State) (x : Nat) (bs : List Byte) : Bool :=
  (piecesOf x bs.length).all ownTier && (memWrite .beside p s.nextFid x bs s).2.isNone

theorem test_hyp_SecurityCommands : [secBusy, secFailed, mine, withSec (sweeping []) mine, secState attestBlock, secState measureBlock, bindState [],
      loadState 0x1000].all (fun s => on s && bootDone s && s.lostFids.isEmpty && s.secJobs.isEmpty && s.accs.isEmpty) ∧
    rg secBusy (pgSec 1) Fld.SEC_CMD_STAT_BUSY = 1 ∧ rg mine (pgSec 1) Fld.SEC_CMD_STAT_BUSY = 0 ∧ mine.sec.failed = false ∧
    secFailed.sec.failed = true ∧ (secOf (withSec (sweeping []) mine) 1).sweeping = true ∧ (secOf mine 1).sweeping = false ∧
    partState mine 1 ≠ .torn ∧ partState (setPart 1 { partDefault 1 with state := .torn } mine) 1 = .torn ∧
    secAddr mine 1 = 0 ∧ secOwns { mine with exts := [] } 1 0 64 = false ∧ secOwns mine 1 0 64 = true ∧ readsAt (secState attestBlock) 0 64 ∧
    (let s := secState attestBlock
     bF (rdBytes s 0 64) 32 8 = 0x1000 ∧ secOwns s 1 0x1000 3232 = true ∧ bF (rdBytes s 0 64) 40 24 = 0) ∧
    bF (rdBytes (secState [(32, 8, 2 ^ 36)]) 0 64) 32 8 = 2 ^ 36 ∧ secOwns mine 1 (2 ^ 36) 3232 = false ∧
    (let s := secState measureBlock
     bF (rdBytes s 0 64) 0 8 = 0x2000 ∧ bF (rdBytes s 0 64) 8 8 = 32 ∧ secOwns s 1 0x2000 32 = true ∧ bF (rdBytes s 0 64) 16 48 = 0 ∧
     (secOf s 1).meas.length < 32 ∧ readsAt s 0x2000 32) ∧ bF (rdBytes (secState attestBlock) 0 64) 16 48 ≠ 0 := by decide +kernel

/-- The bundle and the blob hold for their keys, and the body for its tag; a body of zeros fails it. -/
theorem test_bundle : ecVerify pub7 bundle bundleSig = true ∧ sha384 bundle = bundleDig ∧ identityDig (bindState []) = digest11 ∧
    listed bundle digest11 = true ∧ blobKey (bindState []) 1 releaseBlob = some (List.replicate 32 6) ∧
    (gcmOpen (List.replicate 32 6) (toLE 12 0) bundleDig bundleBody (List.replicate 16 9)).isSome ∧
    gcmOpen (List.replicate 32 6) (toLE 12 0) bundleDig (toLE 32 0) (List.replicate 16 9) = none ∧
    jobBlobKey (loadState 0x1000) 1 jobBlob = some (List.replicate 32 6) := by decide +kernel

theorem bundle_lengths : bundle.length = 248 ∧ bundleSig.length = 96 ∧ releaseBlob.length = 200 ∧ jobBlob.length = 152 := by decide +kernel

/-- Header, signature, blob and body of the BIND stand in memory. -/
theorem test_bundle_stands (body : List Byte) (h : body.length = 32) :
    rdBytes (bindState body) 0x1000 248 = bundle ∧ rdBytes (bindState body) (0x1000 + 248) 96 = bundleSig ∧
    rdBytes (bindState body) 0x2000 200 = releaseBlob ∧ rdBytes (bindState body) 0x3000 32 = body := by
  have hl := bundle_lengths
  have hb : (bundle ++ bundleSig).length = 344 := by rw [List.length_append, hl.1, hl.2.1]
  refine ⟨?_, ?_, ?_, ?_⟩ <;> unfold bindState
  · rw [rdBytes_poke_beside (by omega), rdBytes_poke_beside (by omega)]
    rw [show (0x1000 : Nat) = 0x1000 + 0 from rfl, rdBytes_poke_within (by omega), List.drop_zero, ← hl.1, List.take_left]
  · rw [rdBytes_poke_beside (by omega), rdBytes_poke_beside (by omega), rdBytes_poke_within (by omega), ← hl.1, List.drop_left, ← hl.2.1,
      List.take_length]
  · rw [rdBytes_poke_beside (by omega), ← hl.2.2.1, rdBytes_poke]
  · rw [← h, rdBytes_poke]

theorem test_jobBlob_stands : rdBytes (loadState 0x1000) 0x1000 152 = jobBlob := by
  rw [loadState, ← bundle_lengths.2.2.2, rdBytes_poke]

def unowned (s : State) : State := { s with exts := [] }
def debugged (s : State) : State := { s with sec := { s.sec with debugOpen := true } }

theorem test_hyp_SecurityCommands_bind :
    [bindState bundleBody, bindState (toLE 32 0)].all (fun s => on s && bootDone s && !s.sec.failed && rg s (pgSec 1) Fld.SEC_CMD_STAT_BUSY == 0 &&
     secOwns s 1 0x1000 200 && secOwns s 1 0x2000 200 && readsAt s 0x1000 200 && readsAt s 0x2000 200 && readsAt s 0x1000 344 &&
     readsAt s 0x3000 32 && bindCheck s 1 (bytesWith 64 bindBlock) bundle releaseBlob == 0 && !s.sec.debugOpen) ∧
    takesAt 1 (bindState []) 0x4000 (List.replicate 32 0) ∧ bF bundle 8 8 = 32 ∧ bF bundle 2 2 = 1 ∧
    bindCheck (bindState []) 1 (bytesWith 64 bindBlock) (2 :: bundle.drop 1) releaseBlob = 0x13 ∧
    secOwns (unowned (bindState [])) 1 0x1000 200 = false ∧ (debugged (bindState [])).sec.debugOpen = true := by decide +kernel

theorem test_hyp_SecurityCommands_keys :
    (let s := loadState 0x1000
     secOwns s 1 0x1000 152 = true ∧ readsAt s 0x1000 152 ∧ bF (rdBytes s 0 64) 0 1 = 2 ∧ bF (rdBytes s 0 64) 1 3 = 0 ∧
     bF (rdBytes s 0 64) 16 48 = 0 ∧ bF (rdBytes s 0 64) 4 4 = 77 ∧ bF (rdBytes s 0x1000 152) 97 4 = 77 ∧ slotOfKey s 77 = none ∧
     bF (rdBytes s 0x1000 152) 101 3 = 0 ∧ jobSlot s 1 2 = none ∧ s.sec.debugOpen = false) ∧ jobSlot slotTaken 1 2 ≠ none ∧
    slotOfKey slotTaken 77 = none ∧ readsAt slotTaken 0x1000 152 ∧
    bF (rdBytes (loadState 0x1010) 0 64) 8 8 % 32 ≠ 0 ∧ bF (rdBytes (secState [(0, 1, 2)]) 0 64) 1 63 = 0 := by decide +kernel

/-- Partition 0 holds the first extent; its report goes to address 0. -/
def attester : State := { mine with exts := [(0, .assigned 0)] }

theorem test_hyp_SecurityCommands_reports :
    takesAt 1 (secState attestBlock) 0x1000 (signedOf (secState attestBlock) (reportHead (secState attestBlock) 2 672 ++
      reportP (secState attestBlock) 1 ((rdBytes (secState attestBlock) 0 64).take 32))) ∧
    rg attester pgSecDev Fld.SEC_DEV_CMD_STAT_BUSY = 0 ∧ secOwns attester 0 0 1040 = true ∧ secOwns mine 0 0 1040 = false ∧
    rg attester pgSecDev Fld.SEC_DEV_ADDR_LO = 0 ∧ rg attester pgSecDev Fld.SEC_DEV_ADDR_HI = 0 ∧
    takesAt 0 attester 0 (signedOf attester (reportHead attester 1 528)) ∧
    rg (st pgSecDev Fld.SEC_DEV_CMD_STAT_BUSY 1 mine) pgSecDev Fld.SEC_DEV_CMD_STAT_BUSY = 1 := by decide +kernel

/-- The sweep stands at block 5 of extent 0; the block is of the old epoch, or fails its check, or is of the new one. -/
def sweeps (b : BlkMeta) : State :=
  { withSec (sweeping [(0, [0], 5)]) mine with mce := { mine.mce with blocks := [(5, some b)] } }
def heldBlock : State := { sweeps ⟨0, false⟩ with retrain := { mine.retrain with held := [⟨false, 0, 5⟩] } }

theorem test_hyp_SecurityCommands_sweep : [sweeps ⟨0, false⟩, sweeps ⟨0, true⟩, sweeps ⟨1, false⟩, heldBlock].all (fun s => on s && bootDone s &&
      ((secOf s 1).sweep.find? fun x => x.1 == 0) == some (0, [0], 5)) ∧ heldRange (sweeps ⟨0, false⟩) (5 * 512) 512 = false ∧
    heldRange heldBlock (5 * 512) 512 = true ∧ blkMeta (sweeps ⟨0, false⟩) 5 = ⟨0, false⟩ ∧ blkMeta (sweeps ⟨0, true⟩) 5 = ⟨0, true⟩ ∧
    blkMeta (sweeps ⟨1, false⟩) 5 = ⟨1, false⟩ ∧ pathBad (sweeps ⟨0, false⟩) 5 = false ∧
    (secOf (sweeps ⟨0, false⟩) 1).oldSet ≠ keySetZero ∧ (secOf (sweeps ⟨0, false⟩) 1).cur = 1 ∧
    (withSec (sweeping []) mine).secs = [(1, sweeping [])] ∧ (sweeping []).sweep = [] := by decide +kernel

theorem test_security : after (.rotate 1) mine (fun t => (secOf t 1).cur == 1 && (secOf t 1).sweeping && (secOf t 1).sweep == [(0, [0], 0)]) ∧
    after (.measure 1) (secState measureBlock) (fun t => (secOf t 1).meas.length == 1 && rg t (pgSec 1) Fld.SEC_CMD_STAT_CODE == 0) ∧
    after (.jobkeyLoad 1) (loadState 0x1000) (fun t => ((secOf t 1).slots.map JobSlot.keyid) == [0, 0, 77, 0, 0, 0, 0, 0]) ∧
    after (.bind 1) (unowned (bindState [])) (fun t => rg t (pgSec 1) Fld.SEC_CMD_STAT_CODE == 0x20) ∧
    after (.sweepBlock 1 0) (sweeps ⟨0, false⟩) (fun t => blkMeta t 5 == ⟨1, false⟩) ∧
    after (.sweepEnd 1) (withSec (sweeping []) mine) (fun t => (secOf t 1).oldSet == keySetZero) := by decide +kernel

/-! ### Well-formed commands: one refused term for each check -/

def dgram : Datagram := sendTo []
def flitNone : List Byte := List.replicate 268 0

theorem test_wf_numbers : [Instr.pageCommit 16 0 0, .registerWrite 0 (2 ^ 48) 0, .dspQTailWrite 0 16 0, .runSet 0 16, .tokenAddRead 0 8192,
      .tokenSetWrite 0 0 (2 ^ 64), .arrSnap 0 160, .stkSnap 0 8, .tplClear 0 16, .fence 16, .chunkDelivery 160 true, .kvsCmdOpen 0 65536,
      .kvsCmdReleased 16, .scnCmdOpen 0 (2 ^ 20), .streamSwapIn 0 (2 ^ 20), .segmentSend 64 0, .segmentSend 0 2, .segDown 16, .verdict 16,
      .collVerdictTimeout 64, .colCmdOpen 0 4096, .lreq 16, .leaseKeepTimer 4096, .messageSend 16, .hostFrameDrop 2, .handshakeTimeout (2 ^ 32),
      .deviceResend 64 0, .memoryRetrainStart true 16 0 false, .memoryRetrainStart false 8 0 false, .wayZeroiseDone 16,
      .arrayUncorrectedError 160 0 none, .stackEngineFault 8 0, .hopStallFailure 8 0 [], .prtCreate 0 16 0, .quietPoint 16, .extentZeroed 2048,
      .sweepBlock 0 24, .ringRead 0 32, .voltageGuardStretch 242, .adaptiveIdleStep 160].all (fun i => !i.wf) := by decide +kernel

theorem test_wf_parts : [Instr.sequencedFlitReceive 0 [] false false, .nakReceive 0 (List.replicate 269 0) 0,
      .close { dgram with port := 2 }, .reg { dgram with dport := 65536 }, .hello { dgram with dst := 2 ^ 128 },
      .powerUp fusesZero 0 (obs true true)].all (fun i => !i.wf) ∧
    [Instr.sequencedFlitReceive 0 flitNone false false, .close dgram, .segmentSend 63 1, .sweepBlock 15 23,
      .powerUp { fusesZero with ch0Digest := List.replicate 12 0, keyHash := toLE 48 0, idk := 1, idCert := toLE 256 0 } 0 (obs true true)].all
      Instr.wf := by decide +kernel

end Sys2Proof.Tests
end

section
/-!
PROOFS. The register bus (R6, R437): the fields of a page share no bit, so a written word reaches each field of the register under
the field's own access code and no other bit.
-/
namespace Sys2Proof.Machine

/-! ### The fields of a page -/

/-- Every row of every field map lies in one 32-bit register, and no two rows share a bit. -/
theorem kindFields_wf (kd : PageKind) :
    (∀ d ∈ commonFields ++ kindFields kd, d.fld.ok = true) ∧
    (commonFields ++ kindFields kd).Pairwise fun d e => d.fld.apart e.fld = true := by
  cases kd <;> decide +kernel

theorem pageFields_of_kind {pg : Page} {kd : PageKind} (hk : pageKind pg = some kd) :
    pageFields pg = commonFields ++ kindFields kd := by
  simp only [pageFields, hk]

theorem pageFields_wf (pg : Page) :
    (∀ d ∈ pageFields pg, d.fld.ok = true) ∧ (pageFields pg).Pairwise fun d e => d.fld.apart e.fld = true := by
  cases hk : pageKind pg with
  | none => simp [pageFields, hk]
  | some kd => exact pageFields_of_kind hk ▸ kindFields_wf kd

theorem Fld.apart_comm (f g : Fld) : f.apart g = g.apart f := by
  simp only [Fld.apart, ne_comm, or_comm (a := f.hi < g.lo)]

theorem pageFields_apart {pg : Page} {d e : FieldDef} (hd : d ∈ pageFields pg) (he : e ∈ pageFields pg) (h : d ≠ e) :
    d.fld.apart e.fld = true :=
  have : Std.Symm fun d e : FieldDef => d.fld.apart e.fld = true := ⟨fun _ _ => (Fld.apart_comm _ _).trans⟩
  (pageFields_wf pg).2.forall hd he h

/-! ### The staging copy -/

/-- The state with the staging copy of a field holding `v`: what `fieldWrite` does to an RWS field. -/
def stage (pg : Page) (f : Fld) (v : Nat) (s : State) : State :=
  { s with staged := tabSet resetWord s.staged (regKey pg f.off) (fldSet f (tabGet resetWord s.staged (regKey pg f.off)) v) }

@[simp] theorem stage_regs (pg : Page) (f : Fld) (v : Nat) (s : State) : (stage pg f v s).regs = s.regs := by cases s; rfl
@[simp] theorem rg_stage (pg pg' : Page) (f g : Fld) (v : Nat) (s : State) : rg (stage pg f v s) pg' g = rg s pg' g := by
  rw [rg, stage_regs, rg]
@[simp] theorem stg_st (pg pg' : Page) (f g : Fld) (v : Nat) (s : State) : stg (st pg f v s) pg' g = stg s pg' g := by
  rw [stg, st_staged, stg]

theorem stg_stage_same (pg : Page) (f : Fld) (v : Nat) (s : State) (hf : f.ok = true) :
    stg (stage pg f v s) pg f = v % 2 ^ (f.hi + 1 - f.lo) :=
  rg_st_same { s with regs := s.staged } pg f v hf

theorem stg_stage_apart (pg : Page) (f g : Fld) (v : Nat) (s : State) (hf : f.ok = true) (hg : g.ok = true)
    (h : f.apart g = true) : stg (stage pg f v s) pg g = stg s pg g :=
  rg_st_apart { s with regs := s.staged } pg f g v hf hg h

/-! ### Only bits of some fields change -/

theorem OnlyFields.refl (l : List (Page × Fld)) (s : State) : OnlyFields l s s := fun _ _ _ _ => rfl

theorem OnlyFields.trans {l : List (Page × Fld)} {s t u : State} (h : OnlyFields l s t) (h' : OnlyFields l t u) :
    OnlyFields l s u := fun k b hb hx => (h' k b hb hx).trans (h k b hb hx)

theorem OnlyFields.of_regs {l : List (Page × Fld)} {s t : State} (h : t.regs = s.regs) : OnlyFields l s t :=
  fun _ _ _ _ => by rw [h]

theorem OnlyFields.foldl {α : Type} {l : List (Page × Fld)} {g : State → α → State} {xs : List α}
    (hg : ∀ x ∈ xs, ∀ t, OnlyFields l t (g t x)) (s : State) : OnlyFields l s (xs.foldl g s) := by
  induction xs generalizing s with
  | nil => exact .refl l s
  | cons x xs ih =>
    exact (hg x List.mem_cons_self s).trans (ih (fun y hy => hg y (List.mem_cons_of_mem x hy)) _)

theorem onlyFields_st {l : List (Page × Fld)} {pg : Page} {f : Fld} (v : Nat) (s : State) (hf : f.ok = true) (hl : (pg, f) ∈ l) :
    OnlyFields l s (st pg f v s) := by
  intro k b hb hx
  show (tabGet resetWord (tabSet _ _ _ _) k).getLsbD b = _
  by_cases hk : k = regKey pg f.off
  · subst hk
    have hout : ¬(f.lo ≤ b ∧ b ≤ f.hi) := by
      rcases hx _ hl with h | h | h
      · exact absurd rfl h
      all_goals simp only at h; omega
    rw [tabGet_tabSet_same, fldSet_bit f _ v b hf hb, if_neg hout]
  · rw [tabGet_tabSet_other _ _ _ _ _ hk]

/-! ### One field of a written word (R6) -/

/-- What the active copy of a field holds after a write of the word `w`, by the field's access code. -/
def landed (w : Nat) (d : FieldDef) (old : Nat) : Nat :=
  match d.acc with
  | .rw => bits d.fld.hi d.fld.lo w
  | .w1c => old &&& (2 ^ (d.fld.hi + 1 - d.fld.lo) - 1 - bits d.fld.hi d.fld.lo w)
  | _ => old

/-- What the staging copy of a field holds after a write of the word `w`. -/
def stagedAs (pg : Page) (w : Nat) (d : FieldDef) (old : Nat) : Nat :=
  if d.acc = .rws ∧ (stagedFields pg).contains d.fld then bits d.fld.hi d.fld.lo w else old

theorem bits_mod (hi lo n : Nat) : bits hi lo n % 2 ^ (hi + 1 - lo) = bits hi lo n := Nat.mod_mod _ _

theorem rg_mod (s : State) (pg : Page) (f : Fld) : rg s pg f % 2 ^ (f.hi + 1 - f.lo) = rg s pg f := bits_mod _ _ _

theorem stg_mod (s : State) (pg : Page) (f : Fld) : stg s pg f % 2 ^ (f.hi + 1 - f.lo) = stg s pg f := bits_mod _ _ _

/-- A written word goes into the active copy of a field, into its staging copy, or nowhere. -/
theorem fieldWrite_eq (pg : Page) (w : Nat) (d : FieldDef) (s : State) :
    fieldWrite pg w d s = match d.acc with
      | .rw => st pg d.fld (landed w d (rg s pg d.fld)) s
      | .w1c => st pg d.fld (landed w d (rg s pg d.fld)) s
      | .rws => if (stagedFields pg).contains d.fld then stage pg d.fld (bits d.fld.hi d.fld.lo w) s else s
      | _ => s := by
  unfold fieldWrite landed stage
  cases d.acc <;> rfl

theorem fieldWrite_cases (pg : Page) (w : Nat) (d : FieldDef) (s : State) :
    (∃ v, fieldWrite pg w d s = st pg d.fld v s) ∨ (∃ v, fieldWrite pg w d s = stage pg d.fld v s) ∨
    fieldWrite pg w d s = s := by
  rw [fieldWrite_eq]
  cases d.acc with
  | rw => exact .inl ⟨_, rfl⟩
  | w1c => exact .inl ⟨_, rfl⟩
  | rws =>
    simp only
    split
    · exact .inr (.inl ⟨_, rfl⟩)
    · exact .inr (.inr rfl)
  | ro => exact .inr (.inr rfl)
  | wo => exact .inr (.inr rfl)

theorem fieldWrite_onlyFields {l : List (Page × Fld)} (pg : Page) (w : Nat) (d : FieldDef) (s : State) (hd : d.fld.ok = true)
    (hl : (pg, d.fld) ∈ l) : OnlyFields l s (fieldWrite pg w d s) := by
  rcases fieldWrite_cases pg w d s with ⟨v, h⟩ | ⟨v, h⟩ | h <;> rw [h]
  · exact onlyFields_st v s hd hl
  · exact .of_regs (stage_regs ..)
  · exact .refl l s

/-- A field that shares no bit with the written one stays in both copies. -/
theorem fieldWrite_apart (pg : Page) (w : Nat) (d : FieldDef) (g : Fld) (s : State) (hd : d.fld.ok = true) (hg : g.ok = true)
    (h : d.fld.apart g = true) :
    rg (fieldWrite pg w d s) pg g = rg s pg g ∧ stg (fieldWrite pg w d s) pg g = stg s pg g := by
  rcases fieldWrite_cases pg w d s with ⟨v, e⟩ | ⟨v, e⟩ | e <;> rw [e]
  · exact ⟨rg_st_apart s pg d.fld g v hd hg h, stg_st ..⟩
  · exact ⟨rg_stage .., stg_stage_apart pg d.fld g v s hd hg h⟩
  · exact ⟨rfl, rfl⟩

theorem fieldWrite_same (pg : Page) (w : Nat) (d : FieldDef) (s : State) (hd : d.fld.ok = true) :
    rg (fieldWrite pg w d s) pg d.fld = landed w d (rg s pg d.fld) ∧
    stg (fieldWrite pg w d s) pg d.fld = stagedAs pg w d (stg s pg d.fld) := by
  rw [fieldWrite_eq]
  unfold stagedAs landed
  cases d.acc with
  | rw => simp [rg_st_same _ _ _ _ hd, bits_mod]
  | w1c =>
    have hlt : rg s pg d.fld < 2 ^ (d.fld.hi + 1 - d.fld.lo) := Nat.mod_lt _ (Nat.two_pow_pos _)
    simp [rg_st_same _ _ _ _ hd, Nat.mod_eq_of_lt (Nat.lt_of_le_of_lt Nat.and_le_left hlt)]
  | rws =>
    by_cases hc : (stagedFields pg).contains d.fld = true
    · rw [if_pos hc, if_pos ⟨rfl, hc⟩]
      exact ⟨rg_stage .., (stg_stage_same pg d.fld _ s hd).trans (bits_mod ..)⟩
    · rw [if_neg hc, if_neg fun h => hc h.2]
      exact ⟨rfl, rfl⟩
  | ro => simp
  | wo => simp

/-! ### A written word in every field of its register -/

theorem foldl_fieldWrite_apart {pg : Page} {l : List FieldDef} {g : Fld} (w : Nat) (hok : ∀ d ∈ l, d.fld.ok = true)
    (hg : g.ok = true) (h : ∀ d ∈ l, d.fld.apart g = true) (s : State) :
    rg (l.foldl (fun s d => fieldWrite pg w d s) s) pg g = rg s pg g ∧
    stg (l.foldl (fun s d => fieldWrite pg w d s) s) pg g = stg s pg g := by
  induction l generalizing s with
  | nil => exact ⟨rfl, rfl⟩
  | cons x xs ih =>
    have hx := fieldWrite_apart pg w x g s (hok x List.mem_cons_self) hg (h x List.mem_cons_self)
    have hxs := ih (fun d hd => hok d (List.mem_cons_of_mem x hd)) (fun d hd => h d (List.mem_cons_of_mem x hd))
      (fieldWrite pg w x s)
    exact ⟨hxs.1.trans hx.1, hxs.2.trans hx.2⟩

/-- Each of some fields that share no bit takes its bits of the word as if it were written alone. -/
theorem foldl_fieldWrite_at {pg : Page} {l : List FieldDef} (w : Nat) (hok : ∀ d ∈ l, d.fld.ok = true)
    (hap : l.Pairwise fun d e => d.fld.apart e.fld = true) {d : FieldDef} (hd : d ∈ l) (s : State) :
    rg (l.foldl (fun s d => fieldWrite pg w d s) s) pg d.fld = landed w d (rg s pg d.fld) ∧
    stg (l.foldl (fun s d => fieldWrite pg w d s) s) pg d.fld = stagedAs pg w d (stg s pg d.fld) := by
  induction l generalizing s with
  | nil => cases hd
  | cons x xs ih =>
    obtain ⟨hx, hxs⟩ := List.pairwise_cons.mp hap
    have hok' : ∀ e ∈ xs, e.fld.ok = true := fun e he => hok e (List.mem_cons_of_mem x he)
    rw [List.foldl_cons]
    rcases List.mem_cons.mp hd with rfl | hin
    · have rest := foldl_fieldWrite_apart (pg := pg) w hok' (hok d hd)
        (fun e he => (Fld.apart_comm _ _).trans (hx e he)) (fieldWrite pg w d s)
      have here := fieldWrite_same pg w d s (hok d hd)
      exact ⟨rest.1.trans here.1, rest.2.trans here.2⟩
    · have first := fieldWrite_apart pg w x d.fld s (hok x List.mem_cons_self) (hok d hd) (hx d hin)
      have rest := ih hok' hxs hin (fieldWrite pg w x s)
      rwa [first.1, first.2] at rest

/-! ### Accesses that pass their checks -/

/-- The state with OK, and data 0, as the answer of the register bus. -/
def answerOk (s : State) : State := { s with bus := (0, 0) }

@[simp] theorem answerOk_bus (s : State) : (answerOk s).bus = (0, 0) := by cases s; rfl
@[simp] theorem answerOk_regs (s : State) : (answerOk s).regs = s.regs := by cases s; rfl
@[simp] theorem answerOk_staged (s : State) : (answerOk s).staged = s.staged := by cases s; rfl
@[simp] theorem rg_answerOk (s : State) (pg : Page) (f : Fld) : rg (answerOk s) pg f = rg s pg f := by
  rw [rg, answerOk_regs, rg]
@[simp] theorem stg_answerOk (s : State) (pg : Page) (f : Fld) : stg (answerOk s) pg f = stg s pg f := by
  rw [stg, answerOk_staged, stg]

theorem answerOk_only {L : List Piece} {s t : State} (h : Reach L s t) (hL : Piece.bus ∈ L) : Only L s (answerOk t) :=
  (h.bus hL).frame

theorem OnlyFields.answerOk {l : List (Page × Fld)} {s t : State} (h : OnlyFields l s t) : OnlyFields l s (answerOk t) :=
  h.trans (.of_regs (answerOk_regs t))

theorem on_of_running {s : State} (h : Running s) : on s = true := beq_iff_eq.mpr h

theorem pageOpen_of_boot {s : State} {pg : Page} (hb : bootDone s = true) (hk : (pageKind pg).isSome = true) :
    pageOpen s pg = true := by
  simp [pageOpen, hb, hk]

/-- An aligned 32-bit write by the owner of an open page takes effect and answers OK (R437). -/
theorem access_write {part addr off w : Nat} {pg : Page} {s : State} (hb : bootDone s = true) (ha : addr / 2 ^ 28 = 0xF000)
    (hp : pageOfKey (addr % 2 ^ 28) = some (pg, off)) (hk : (pageKind pg).isSome = true) (ho : part = pageOwner s pg)
    (hoff : off % 4 = 0) :
    access part ⟨addr, 1, false, w⟩ s = answerOk (pageWrite pg off (w % 2 ^ 32) part s) := by
  have hwin : ¬(0xF8000000000 ≤ addr ∧ addr < 0xF8000040000) := by omega
  unfold access
  simp only [hwin, ha, hp, pageOpen_of_boot hb hk, ← ho, hoff]
  simp [answerOk]

/-- An operation on a page by the owner of the open page takes effect and answers OK. -/
theorem onPage_owner {part addr off : Nat} {pg : Page} {s : State} (f : Page → State → State) (hb : bootDone s = true)
    (ha : addr / 2 ^ 28 = 0xF000) (hp : pageOfKey (addr % 2 ^ 28) = some (pg, off)) (hk : (pageKind pg).isSome = true)
    (ho : part = pageOwner s pg) : onPage part addr f s = answerOk (f pg s) := by
  unfold onPage
  simp only [ha, hp, pageOpen_of_boot hb hk, ← ho]
  simp [answerOk]

theorem exec_registerWrite {part addr : Nat} {data : Word} {s : State} (h : Running s) :
    exec (.registerWrite part addr data) s = .next (access part ⟨addr, 1, false, data.toNat⟩ s) := by
  show Host.Outcome.next (wh (on s) _ s) = _
  rw [wh, if_pos (on_of_running h)]

theorem exec_pageCommit {part addr : Nat} {data : Word} {s : State} (h : Running s) :
    exec (.pageCommit part addr data) s =
      .next (onPage part addr (fun pg s => commonWrite pg 0x020 data.toNat s) s) := by
  show Host.Outcome.next (wh (on s) _ s) = _
  rw [wh, if_pos (on_of_running h)]

/-- The fields of the register at an offset of a page. -/
def fieldsAt (pg : Page) (off : Nat) : List FieldDef := (pageFields pg).filter fun d => d.fld.off == off

theorem fieldsAt_wf (pg : Page) (off : Nat) :
    (∀ d ∈ fieldsAt pg off, d.fld.ok = true) ∧ (fieldsAt pg off).Pairwise fun d e => d.fld.apart e.fld = true :=
  ⟨fun _ hd => (pageFields_wf pg).1 _ (List.mem_filter.mp hd).1, (pageFields_wf pg).2.filter _⟩

theorem pageWrite_lands {pg : Page} {off w part : Nat} {s : State} (hoff : 0x100 ≤ off) (ha : actionWrite pg off w part s = none) :
    pageWrite pg off w part s = (fieldsAt pg off).foldl (fun s d => fieldWrite pg w d s) s := by
  unfold pageWrite
  rw [if_neg (Nat.not_lt.mpr hoff), ha]
  rfl

/-- Settles O35: the fields of a register share no bit, so each takes its bits of the data under its own access code, and
what a single field's write can reach bounds what the whole write can reach. -/
theorem registerWritesLandUnderTheirAccessCodes : Obligations.RegisterWritesLandUnderTheirAccessCodes := by
  unfold Obligations.RegisterWritesLandUnderTheirAccessCodes
  intro part addr off data pg s hr ha hp hk ho hal hoff hact here v
  obtain ⟨hok, hap⟩ := fieldsAt_wf pg off
  have hdata : data.toNat % 2 ^ 32 = data.toNat := Nat.mod_eq_of_lt data.isLt
  let t := (fieldsAt pg off).foldl (fun s d => fieldWrite pg data.toNat d s) s
  have hstep : exec (.registerWrite part addr data) s = .next (answerOk t) := by
    rw [exec_registerWrite hr.1, access_write hr.2 ha hp hk ho hal, hdata, pageWrite_lands hoff hact]
  refine ⟨answerOk t, hstep, answerOk_bus t, ?frame, ?fields, fun d hd => ?value⟩
  case frame =>
    have hreach : Reach [.regs pg.blk, .staged, .bus] s t :=
      Reach.foldl (fun _ _ => fieldWrite_reach (by simp) (by simp)) Reach.rfl'
    exact answerOk_only hreach (by simp)
  case fields =>
    exact (OnlyFields.foldl (fun d hd u =>
      fieldWrite_onlyFields pg _ d u (hok d hd) (List.mem_map_of_mem (f := fun d => (pg, d.fld)) hd)) s).answerOk
  case value =>
    obtain ⟨hrg, hstg⟩ := foldl_fieldWrite_at data.toNat hok hap hd s
    rw [rg_answerOk, stg_answerOk]
    unfold landed at hrg
    unfold stagedAs at hstg
    refine ⟨fun h => ?_, fun h => ?_, fun h => ⟨?_, ?_⟩, ?_⟩
    · simpa only [h] using hrg
    · simpa only [h] using hrg
    · simpa only [h] using hrg
    · simpa only [h, true_and] using hstg
    · rintro (h | h) <;> simpa only [h] using hrg

end Sys2Proof.Machine
end

section
/-!
PROOFS. Commits (R7, R443): the first refused field, the staged fields becoming active together, and that what the unit of a page then
does leaves the fields of the commit as the commit wrote them.
-/
namespace Sys2Proof.Machine

/-! ### Fields of a page by name -/

/-- A row of the page's field maps is about `f`. -/
def IsField (pg : Page) (f : Fld) : Prop := ∃ d ∈ pageFields pg, d.fld = f

theorem IsField.ok {pg : Page} {f : Fld} (h : IsField pg f) : f.ok = true := by
  obtain ⟨d, hd, rfl⟩ := h
  exact (pageFields_wf pg).1 d hd

/-- A write of one field of a page leaves every other field of the page. -/
theorem rg_st_other {pg : Page} {f g : Fld} (v : Nat) (s : State) (hf : IsField pg f) (hg : IsField pg g) (hne : f ≠ g) :
    rg (st pg g v s) pg f = rg s pg f := by
  have hgo := hg.ok
  have hfo := hf.ok
  obtain ⟨d, hd, rfl⟩ := hf
  obtain ⟨e, he, rfl⟩ := hg
  exact rg_st_apart s pg e.fld d.fld v hgo hfo (pageFields_apart he hd fun h => hne (h ▸ rfl))

/-- The fields of a page of a kind. -/
def kindFlds (kd : PageKind) : List Fld := (commonFields ++ kindFields kd).map FieldDef.fld

/-- Its RWS fields. -/
def rwsFlds (kd : PageKind) : List Fld := ((commonFields ++ kindFields kd).filter fun d => d.acc == .rws).map FieldDef.fld

theorem isField_of_kind {pg : Page} {kd : PageKind} {f : Fld} (hk : pageKind pg = some kd) (hf : f ∈ kindFlds kd) :
    IsField pg f := by
  obtain ⟨d, hd, rfl⟩ := List.mem_map.mp hf
  exact ⟨d, pageFields_of_kind hk ▸ hd, rfl⟩

theorem isField_of_common {pg : Page} {f : Fld} (hk : (pageKind pg).isSome = true) (hf : f ∈ commonFields.map FieldDef.fld) :
    IsField pg f := by
  obtain ⟨kd, hk⟩ := Option.isSome_iff_exists.mp hk
  exact isField_of_kind hk (by rw [kindFlds, List.map_append]; exact List.mem_append_left _ hf)

theorem isField_of_staged {pg : Page} {f : Fld} (hf : f ∈ stagedFields pg) : IsField pg f := by
  unfold stagedFields at hf
  split at hf
  · cases hf
  · obtain ⟨d, hd, rfl⟩ := List.mem_map.mp hf
    exact ⟨d, (List.mem_filter.mp hd).1, rfl⟩

theorem rwsFlds_of_staged {pg : Page} {kd : PageKind} {f : Fld} (hk : pageKind pg = some kd) (hf : f ∈ stagedFields pg) :
    f ∈ rwsFlds kd := by
  unfold stagedFields at hf
  split at hf
  · cases hf
  · obtain ⟨d, hd, rfl⟩ := List.mem_map.mp hf
    obtain ⟨hd, hacc⟩ := List.mem_filter.mp hd
    rw [pageFields_of_kind hk] at hd
    exact List.mem_map_of_mem (List.mem_filter.mpr ⟨hd, (Bool.and_eq_true_iff.mp hacc).1⟩)

/-- No register that every page holds has an RWS field. -/
theorem common_not_rws (kd : PageKind) : ∀ f ∈ commonFields.map FieldDef.fld, f ∉ rwsFlds kd := by
  cases kd <;> decide +kernel

theorem common_not_staged {pg : Page} {f : Fld} (hk : (pageKind pg).isSome = true) (hf : f ∈ commonFields.map FieldDef.fld) :
    f ∉ stagedFields pg := by
  obtain ⟨kd, hk⟩ := Option.isSome_iff_exists.mp hk
  exact fun h => common_not_rws kd f hf (rwsFlds_of_staged hk h)

/-! ### Pages by kind -/

/-- The block of the pages of a kind. -/
def kindBlock : PageKind → Block
  | .dev => .dev
  | .hifPort | .hifCh => .hif
  | .dsp => .dsp
  | .tpl => .tpl
  | .tok => .tok
  | .prt | .prtDev => .prt
  | .arr => .arr
  | .yrd => .yrd
  | .memStack | .memLease | .memPart => .mem
  | .stk => .stk
  | .lpd => .lpd
  | .mce => .mce
  | .kvs => .kvs
  | .scn => .scn
  | .fab => .fab
  | .col | .colDev => .col
  | .sec | .secDev => .sec
  | .pwr => .pwr
  | .clk | .clkDev => .clk
  | .ras => .ras
  | .evr => .evr
  | .boot => .boot

theorem blk_of_kind {pg : Page} {kd : PageKind} (hk : pageKind pg = some kd) : pg.blk = kindBlock kd := by
  obtain ⟨b, i⟩ := pg
  cases b <;> simp only [pageKind] at hk <;> split_ifs at hk <;> cases hk <;> rfl

theorem pgCh_of_kind {pg : Page} (hk : pageKind pg = some .hifCh) : pg = pgCh (pg.inst - 16) := by
  obtain ⟨b, i⟩ := pg
  obtain rfl : b = .hif := blk_of_kind hk
  simp only [pageKind] at hk
  split_ifs at hk <;> cases hk
  simp only [Page.mk.injEq, true_and]
  omega

theorem pgMemP_of_kind {pg : Page} (hk : pageKind pg = some .memPart) : pg = pgMemP (pg.inst - 16) := by
  obtain ⟨b, i⟩ := pg
  obtain rfl : b = .mem := blk_of_kind hk
  simp only [pageKind] at hk
  split_ifs at hk <;> cases hk
  simp only [Page.mk.injEq, true_and]
  omega

theorem pgClk_of_kind {pg : Page} (hk : pageKind pg = some .clk) : pg = pgClk pg.inst ∧ pg.inst < 16 := by
  obtain ⟨b, i⟩ := pg
  obtain rfl : b = .clk := blk_of_kind hk
  simp only [pageKind] at hk
  split_ifs at hk <;> cases hk
  exact ⟨rfl, by assumption⟩

/-! ### What keeps the fields of a commit -/

/-- The fields that a successful commit sets: the staged ones, FAILED of PAGE_COMMIT_STAT, and PAGE_GEN. -/
def commitFields (pg : Page) : List Fld := Fld.PAGE_COMMIT_STAT_FAILED :: Fld.PAGE_GEN :: stagedFields pg

/-- Every field of a commit of the page reads in `t` as it does in `s`. -/
def CommitKept (pg : Page) (s t : State) : Prop := ∀ f ∈ commitFields pg, rg t pg f = rg s pg f

theorem isField_of_commit {pg : Page} {f : Fld} (hk : (pageKind pg).isSome = true) (hf : f ∈ commitFields pg) : IsField pg f := by
  rcases List.mem_cons.mp hf with rfl | hf
  · exact isField_of_common hk (by decide)
  · rcases List.mem_cons.mp hf with rfl | hf
    · exact isField_of_common hk (by decide)
    · exact isField_of_staged hf

theorem rg_of_regs {s t : State} (h : t.regs = s.regs) (pg : Page) (f : Fld) : rg t pg f = rg s pg f := by
  rw [rg, h, rg]

namespace CommitKept

variable {pg : Page} {s t u : State}

theorem refl : CommitKept pg s s := fun _ _ => rfl

theorem trans (h : CommitKept pg s t) (h' : CommitKept pg t u) : CommitKept pg s u :=
  fun f hf => (h' f hf).trans (h f hf)

theorem of_regs (h : t.regs = s.regs) : CommitKept pg s t := fun f _ => rg_of_regs h pg f

theorem wh {c : Bool} {g : State → State} (h : ∀ t, CommitKept pg t (g t)) (s : State) : CommitKept pg s (Machine.wh c g s) := by
  unfold Machine.wh
  split
  · exact h s
  · exact refl

theorem foldl {α : Type} {g : State → α → State} (h : ∀ t x, CommitKept pg t (g t x)) (l : List α) (s : State) :
    CommitKept pg s (l.foldl g s) := by
  induction l generalizing s with
  | nil => exact refl
  | cons x l ih => exact (h s x).trans (ih (g s x))

/-- An operation that reaches no register of the page's block. -/
theorem of_reach {L : List Piece} {kd : PageKind} (hk : pageKind pg = some kd) (hL : Piece.regs (kindBlock kd) ∉ L)
    (h : Reach L s t) : CommitKept pg s t := by
  intro f _
  unfold rg
  rw [h.frame _ hL _ ((Reach.regKey_blk pg f.off).trans (congrArg blockCode (blk_of_kind hk)))]

/-- A write of another field of the page. -/
theorem st_own {kd : PageKind} (hk : pageKind pg = some kd) {g : Fld} (v : Nat) (s : State)
    (hg : g ∈ kindFlds kd ∧ g ∉ Fld.PAGE_COMMIT_STAT_FAILED :: Fld.PAGE_GEN :: rwsFlds kd) : CommitKept pg s (st pg g v s) := by
  intro f hf
  refine rg_st_other v s (isField_of_commit (by rw [hk]; rfl) hf) (isField_of_kind hk hg.1) ?_
  rintro rfl
  obtain ⟨hfailed, hgen, hrws⟩ : f ≠ Fld.PAGE_COMMIT_STAT_FAILED ∧ f ≠ Fld.PAGE_GEN ∧ f ∉ rwsFlds kd := by
    simpa only [List.mem_cons, not_or] using hg.2
  rcases List.mem_cons.mp hf with h | hf
  · exact hfailed h
  · rcases List.mem_cons.mp hf with h | hf
    · exact hgen h
    · exact hrws (rwsFlds_of_staged hk hf)

end CommitKept

/-! ### The units' own steps after a commit -/

/-- The pieces that counting an event changes. -/
abbrev eventPieces : List Piece := [.regs .ras, .regs .evr, .evr, .freeCtr]

theorem setErr_commitKept {pg : Page} (hk : pageKind pg = some .hifCh) (code detail : Nat) (s : State) :
    CommitKept pg s (setErr pg code detail s) := by
  have h (g : Fld) (hg : g ∈ [Fld.PAGE_ERR_ERR, Fld.PAGE_ERR_OVER, Fld.PAGE_ERR_INFO_CODE, Fld.PAGE_ERR_INFO_DETAIL]) (v : Nat)
      (t : State) : CommitKept pg t (st pg g v t) :=
    .st_own hk v t ((by decide +kernel : ∀ g ∈ [Fld.PAGE_ERR_ERR, Fld.PAGE_ERR_OVER, Fld.PAGE_ERR_INFO_CODE,
      Fld.PAGE_ERR_INFO_DETAIL], g ∈ kindFlds .hifCh ∧ g ∉ Fld.PAGE_COMMIT_STAT_FAILED :: Fld.PAGE_GEN :: rwsFlds .hifCh) g hg)
  unfold setErr
  split
  · exact ((h Fld.PAGE_ERR_INFO_DETAIL (by simp) _ _).trans (h Fld.PAGE_ERR_INFO_CODE (by simp) _ _)).trans
      (h Fld.PAGE_ERR_ERR (by simp) _ _)
  · exact h Fld.PAGE_ERR_OVER (by simp) _ _

theorem moveLost_commitKept {c : Nat} (hk : pageKind (pgCh c) = some .hifCh) (f : Flight) (detail : Nat) (s : State) :
    CommitKept (pgCh c) s (moveLost f c detail s) := by
  have habandon : Reach [.flights, .arrs, .stks, .retrain, .accs, .col, .hif, .freeCtr] s (abandon f.fid 0x32 detail s) :=
    abandon_reach (by decide) (by decide) (by decide) (by decide) (by decide) (by decide) (by decide) (by decide) .rfl'
  have hcount (t : State) : Reach eventPieces t (countCode (pgCh c) 0x32 detail (some f.q) t) :=
    countCode_reach (by decide) (by decide) (by decide) (by decide) .rfl'
  exact ((CommitKept.of_reach hk (by decide) habandon).trans (setErr_commitKept hk _ _ _)).trans
    (.of_reach hk (by decide) (hcount _))

/-- The end of a session counts and records on its channel's page, and writes no field that is staged there. -/
theorem endSession_commitKept {c : Nat} (hk : pageKind (pgCh c) = some .hifCh) (lost : Bool) (s : State) :
    CommitKept (pgCh c) s (endSession c lost s) := by
  have hlost (t : State) :
      CommitKept (pgCh c) t (raise (pgCh c) 0x0C 0 5 (some (chanPart t c)) 1 (inc (pgCh c) Fld.HIF_CH_LOST 1 t)) :=
    (CommitKept.st_own hk _ t (by decide +kernel)).trans
      (.of_reach hk (by decide) (raise_reach (L := eventPieces) (by decide) (by decide) (by decide) (by decide) .rfl'))
  unfold endSession
  split
  · refine CommitKept.trans ?_ (CommitKept.foldl (fun t f => moveLost_commitKept hk f _ t) _ _)
    exact CommitKept.trans (.of_regs rfl) (.wh hlost _)
  · exact .refl

/-- A new ring or log of a queue moves its head, its tail and its log's write place. -/
theorem dspChanged_commitKept {pg : Page} (hk : pageKind pg = some .dsp) (old s : State) : CommitKept pg s (pageChanged old pg s) := by
  unfold pageChanged
  simp only [hk]
  have hring (t : State) : CommitKept pg t (setQu pg.inst { qu (askEnd pg.inst t) pg.inst with entry := none, desc := none }
      (st pg Fld.DSP_Q_HEAD_HEAD_ENTRY 0 (st pg Fld.DSP_Q_HEAD_HEAD_DESC 0 (st pg Fld.DSP_Q_TAIL 0 (askEnd pg.inst t))))) := by
    have hask : Reach [.queues, .retrain, .accs] t (askEnd pg.inst t) :=
      askEnd_reach (by decide) (by decide) (by decide) .rfl'
    exact ((((CommitKept.of_reach hk (by decide) hask).trans (.st_own hk _ _ (by decide +kernel))).trans
      (.st_own hk _ _ (by decide +kernel))).trans (.st_own hk _ _ (by decide +kernel))).trans (.of_regs (setQu_regs ..))
  exact (CommitKept.wh hring s).trans (.wh (fun t => .st_own hk _ t (by decide +kernel)) _)

theorem kvsChanged_commitKept {pg : Page} (hk : pageKind pg = some .kvs) (old s : State) : CommitKept pg s (pageChanged old pg s) := by
  unfold pageChanged
  simp only [hk]
  have harea (t : State) :
      CommitKept pg t (st pg Fld.KVS_FRAMES 0 (setKv pg.inst { kv t pg.inst with free := [] } t)) :=
    CommitKept.trans (.of_regs (setKv_regs ..)) (.st_own hk _ _ (by decide +kernel))
  exact (CommitKept.wh harea s).trans (.wh (fun t => .of_regs (by cases t; rfl)) _)

/-- The points of the arrays stand on the CLK device page, not on a partition's page. -/
theorem refitAll_commitKept {pg : Page} (hk : pageKind pg = some .clk) (s : State) : CommitKept pg s (refitAll pg.inst s) := by
  obtain ⟨hpg, hi⟩ := pgClk_of_kind hk
  have hpoint (f : Fld) (v : Nat) (t : State) : CommitKept pg t (st pgClkDev f v t) := by
    intro g _
    refine rg_st_key t pgClkDev pg f g v ?_
    rw [hpg]
    simp only [regKey]
    omega
  refine CommitKept.foldl (fun t n => .wh (fun u => ?_) t) _ s
  unfold refit raisePoint
  split
  · exact hpoint _ _ u
  · exact hpoint _ _ u

/-- What the unit of a page does about its new active fields leaves the fields of the commit; a commit changes no ENABLE. -/
theorem pageChanged_commitKept {pg : Page} (old s : State) (hen : changedOf old s pg [Fld.PAGE_CTRL_ENABLE] = false) :
    CommitKept pg s (pageChanged old pg s) := by
  cases hk : pageKind pg with
  | none => simp only [pageChanged, hk]; exact .refl
  | some kd =>
    cases kd with
    | dsp => exact dspChanged_commitKept hk old s
    | kvs => exact kvsChanged_commitKept hk old s
    | hifCh =>
      simp only [pageChanged, hk]
      refine .wh (fun t => ?_) s
      have e := pgCh_of_kind hk
      rw [e] at hk
      have h := endSession_commitKept hk true t
      rwa [← e] at h
    | prt =>
      have harr : Reach [.regs .arr, .regs .clk, .arrs, .parts] s (arraysChanged old pg.inst s) :=
        arraysChanged_reach (by decide) (by decide) (by decide) (by decide) .rfl'
      have htok (t : State) : Reach [.toks] t (tokensChanged old pg.inst t) := tokensChanged_reach (by decide) .rfl'
      simp only [pageChanged, hk]
      exact (CommitKept.of_reach hk (by decide) harr).trans (.of_reach hk (by decide) (htok _))
    | yrd =>
      simp only [pageChanged, hk]
      exact .of_reach hk (by decide) (waysChanged_reach (L := [.mem, .yard]) (by decide) (by decide) .rfl')
    | colDev =>
      simp only [pageChanged, hk]
      refine .wh (CommitKept.foldl (fun t p => ?_) _) s
      exact .of_reach hk (by decide) (retrainPort_reach (L := [.regs .fab, .ports]) (by decide) (by decide) .rfl')
    | clk => simp only [pageChanged, hk]; exact refitAll_commitKept hk s
    | fab => simp only [pageChanged, hk, hen]; exact .refl
    | dev | hifPort | tpl | tok | prtDev | arr | memStack | memLease | memPart | stk | lpd | mce | scn | col | sec | secDev | pwr
    | clkDev | ras | evr | boot => simp only [pageChanged, hk]; exact .refl

/-! ### The staged fields become active together -/

/-- The state in which each field of a list has taken its staged value. -/
def activated (pg : Page) (l : List Fld) (s : State) : State := l.foldl (fun s f => st pg f (stg s pg f) s) s

theorem activated_cons (pg : Page) (f : Fld) (l : List Fld) (s : State) :
    activated pg (f :: l) s = activated pg l (st pg f (stg s pg f) s) := by
  rw [activated, List.foldl_cons, activated]

theorem rg_activated {pg : Page} {g : Fld} (hg : IsField pg g) {l : List Fld} (hl : ∀ f ∈ l, IsField pg f) (s : State) :
    rg (activated pg l s) pg g = if g ∈ l then stg s pg g else rg s pg g := by
  induction l generalizing s with
  | nil => simp [activated]
  | cons f l ih =>
    rw [activated_cons, ih (fun x hx => hl x (List.mem_cons_of_mem f hx)), stg_st]
    by_cases hin : g ∈ l
    · simp [hin]
    · by_cases hgf : g = f
      · subst hgf
        simp [hin, rg_st_same _ _ _ _ hg.ok, stg_mod]
      · simp [hin, hgf, rg_st_other _ s hg (hl f List.mem_cons_self) hgf]

/-- MEM_REG_WAIT is brought up to date before a commit of the MEM page of a partition. -/
def waited (pg : Page) (s : State) : State := wh (pageKind pg == some .memPart) (regWait (pg.inst - 16)) s

theorem waited_staged (pg : Page) (s : State) : (waited pg s).staged = s.staged := by
  unfold waited wh regWait
  split
  · split
    · rw [tickFree_staged, inc_staged]
    · rfl
  · rfl

/-- No field that is staged, or that every page holds, is MEM_REG_WAIT. -/
theorem rg_waited {pg : Page} {g : Fld} (hk : (pageKind pg).isSome = true)
    (hg : g ∈ commonFields.map FieldDef.fld ∨ g ∈ stagedFields pg) (s : State) : rg (waited pg s) pg g = rg s pg g := by
  unfold waited wh
  split
  case isFalse => rfl
  case isTrue hm =>
    have hm : pageKind pg = some .memPart := beq_iff_eq.mp hm
    have hne : g ≠ Fld.MEM_REG_WAIT := by
      rintro rfl
      rcases hg with h | h
      · exact absurd h (by decide +kernel)
      · exact absurd (rwsFlds_of_staged hm h) (by decide +kernel)
    have hfield : IsField pg g := hg.elim (isField_of_common hk) isField_of_staged
    unfold regWait
    rw [← pgMemP_of_kind hm]
    split
    · rw [rg_of_regs (tickFree_regs _)]
      exact rg_st_other _ s hfield (isField_of_kind hm (by decide +kernel)) hne
    · rfl

/-- The fields staged with a changed value. -/
def newFields (pg : Page) (s : State) : List Fld := (stagedFields pg).filter (stagedNew s pg)

/-- The registers after a commit that no rule refuses, before the unit of the page follows. -/
def commitDone (pg : Page) (s : State) : State :=
  inc pg Fld.PAGE_GEN 1 (commitStat pg 0 0 0 (activated pg (newFields pg s) (waited pg s)))

theorem isField_of_new {pg : Page} {s : State} : ∀ f ∈ newFields pg s, IsField pg f :=
  fun _ hf => isField_of_staged (List.mem_filter.mp hf).1

theorem common_not_new {pg : Page} {f : Fld} {s : State} (hk : (pageKind pg).isSome = true)
    (hf : f ∈ commonFields.map FieldDef.fld) : f ∉ newFields pg s :=
  fun h => common_not_staged hk hf (List.mem_filter.mp h).1

theorem rg_commitStat_other {pg : Page} {f : Fld} (hk : (pageKind pg).isSome = true) (hf : IsField pg f)
    (hn : f ∉ [Fld.PAGE_COMMIT_STAT_FAILED, Fld.PAGE_COMMIT_STAT_OFFSET, Fld.PAGE_COMMIT_STAT_LSB]) (failed off lsb : Nat)
    (s : State) : rg (commitStat pg failed off lsb s) pg f = rg s pg f := by
  simp only [List.mem_cons, List.not_mem_nil, or_false, not_or] at hn
  obtain ⟨hfailed, hoff, hlsb⟩ := hn
  unfold commitStat
  rw [rg_st_other _ _ hf (isField_of_common hk (by decide)) hfailed,
    rg_st_other _ _ hf (isField_of_common hk (by decide)) hoff, rg_st_other _ _ hf (isField_of_common hk (by decide)) hlsb]

theorem rg_commitStat {pg : Page} (hk : (pageKind pg).isSome = true) (failed off lsb : Nat) (s : State) :
    rg (commitStat pg failed off lsb s) pg Fld.PAGE_COMMIT_STAT_FAILED = failed % 2 ∧
    rg (commitStat pg failed off lsb s) pg Fld.PAGE_COMMIT_STAT_OFFSET = off % 4096 ∧
    rg (commitStat pg failed off lsb s) pg Fld.PAGE_COMMIT_STAT_LSB = lsb % 32 := by
  have hfailed : IsField pg Fld.PAGE_COMMIT_STAT_FAILED := isField_of_common hk (by decide)
  have hoff : IsField pg Fld.PAGE_COMMIT_STAT_OFFSET := isField_of_common hk (by decide)
  have hlsb : IsField pg Fld.PAGE_COMMIT_STAT_LSB := isField_of_common hk (by decide)
  unfold commitStat
  refine ⟨?_, ?_, ?_⟩
  · exact rg_st_same _ _ _ _ hfailed.ok
  · rw [rg_st_other _ _ hoff hfailed (by decide)]
    exact rg_st_same _ _ _ _ hoff.ok
  · rw [rg_st_other _ _ hlsb hfailed (by decide), rg_st_other _ _ hlsb hoff (by decide)]
    exact rg_st_same _ _ _ _ hlsb.ok

/-- A field that the commit does not report in. -/
theorem rg_commitDone {pg : Page} {f : Fld} (hk : (pageKind pg).isSome = true)
    (hf : f ∈ commonFields.map FieldDef.fld ∨ f ∈ stagedFields pg)
    (hn : f ∉ [Fld.PAGE_COMMIT_STAT_FAILED, Fld.PAGE_COMMIT_STAT_OFFSET, Fld.PAGE_COMMIT_STAT_LSB]) (hgen : f ≠ Fld.PAGE_GEN)
    (s : State) : rg (commitDone pg s) pg f = if f ∈ newFields pg s then stg s pg f else rg s pg f := by
  have hfield : IsField pg f := hf.elim (isField_of_common hk) isField_of_staged
  unfold commitDone inc
  rw [rg_st_other _ _ hfield (isField_of_common hk (by decide)) hgen, rg_commitStat_other hk hfield hn,
    rg_activated hfield isField_of_new, rg_waited hk hf]
  rw [stg, waited_staged, ← stg]

theorem rg_commitDone_staged {pg : Page} {f : Fld} (hk : (pageKind pg).isSome = true) (hf : f ∈ stagedFields pg) (s : State) :
    rg (commitDone pg s) pg f = stg s pg f := by
  have hcommon (g : Fld) (hg : g ∈ commonFields.map FieldDef.fld) : f ≠ g := fun h => common_not_staged hk hg (h ▸ hf)
  have hn : f ∉ [Fld.PAGE_COMMIT_STAT_FAILED, Fld.PAGE_COMMIT_STAT_OFFSET, Fld.PAGE_COMMIT_STAT_LSB] := fun h =>
    hcommon f ((by decide : ∀ g ∈ [Fld.PAGE_COMMIT_STAT_FAILED, Fld.PAGE_COMMIT_STAT_OFFSET, Fld.PAGE_COMMIT_STAT_LSB],
      g ∈ commonFields.map FieldDef.fld) f h) rfl
  rw [rg_commitDone hk (.inr hf) hn (hcommon _ (by decide))]
  split
  · rfl
  next hnew =>
    have hold : stagedNew s pg f = false := Bool.eq_false_iff.mpr fun h => hnew (List.mem_filter.mpr ⟨hf, h⟩)
    exact (bne_eq_false_iff_eq.mp hold).symm

theorem rg_commitDone_gen {pg : Page} (hk : (pageKind pg).isSome = true) (s : State) :
    rg (commitDone pg s) pg Fld.PAGE_GEN = (rg s pg Fld.PAGE_GEN + 1) % 2 ^ 32 := by
  have hgen : IsField pg Fld.PAGE_GEN := isField_of_common hk (by decide)
  have hbefore : rg (commitStat pg 0 0 0 (activated pg (newFields pg s) (waited pg s))) pg Fld.PAGE_GEN = rg s pg Fld.PAGE_GEN := by
    rw [rg_commitStat_other hk hgen (by decide), rg_activated hgen isField_of_new, if_neg (common_not_new hk (by decide)),
      rg_waited hk (.inl (by decide))]
  unfold commitDone inc
  rw [rg_st_same _ _ _ _ hgen.ok, hbefore]
  rfl

theorem rg_commitDone_failed {pg : Page} (hk : (pageKind pg).isSome = true) (s : State) :
    rg (commitDone pg s) pg Fld.PAGE_COMMIT_STAT_FAILED = 0 := by
  unfold commitDone inc
  rw [rg_st_other _ _ (isField_of_common hk (by decide)) (isField_of_common hk (by decide)) (by decide)]
  exact (rg_commitStat hk 0 0 0 _).1

theorem commitDone_keeps_enable {pg : Page} (hk : (pageKind pg).isSome = true) (s : State) :
    changedOf s (commitDone pg s) pg [Fld.PAGE_CTRL_ENABLE] = false := by
  simp [changedOf, rg_commitDone hk (f := Fld.PAGE_CTRL_ENABLE) (.inl (by decide)) (by decide) (by decide),
    common_not_new hk (f := Fld.PAGE_CTRL_ENABLE) (by decide)]

/-! ### The outcome of a commit -/

/-- `firstField` finds a field of a list that has one, and no field of the list stands before it. -/
theorem firstField_first : ∀ {l : List Fld}, l ≠ [] → ∃ f, firstField l = some f ∧ f ∈ l ∧
    ∀ g ∈ l, f.off < g.off ∨ (f.off = g.off ∧ f.lo ≤ g.lo)
  | [], h => absurd rfl h
  | [f], _ => ⟨f, rfl, List.mem_cons_self, fun g hg => by rw [List.mem_singleton.mp hg]; exact .inr ⟨rfl, Nat.le_refl _⟩⟩
  | f :: e :: r, _ => by
    obtain ⟨m, hm, hin, hmin⟩ := firstField_first (l := e :: r) (by simp)
    rw [firstField, hm]
    simp only
    split
    case isTrue hlt =>
      refine ⟨f, rfl, List.mem_cons_self, fun g hg => ?_⟩
      rcases List.mem_cons.mp hg with rfl | hg
      · exact .inr ⟨rfl, Nat.le_refl _⟩
      · have := hmin g hg
        omega
    case isFalse hge =>
      refine ⟨m, rfl, List.mem_cons_of_mem f hin, fun g hg => ?_⟩
      rcases List.mem_cons.mp hg with rfl | hg
      · omega
      · exact hmin g hg

theorem newFields_eq_nil {pg : Page} {s : State} : newFields pg s = [] ↔ (stagedFields pg).any (stagedNew s pg) = false := by
  simp [newFields, List.filter_eq_nil_iff]

theorem commit_refused {pg : Page} {s : State} {f : Fld} (hc : (stagedFields pg).any (stagedNew s pg) = true)
    (hf : firstField (badFields s pg) = some f) : (commit pg s).1 = commitStat pg 1 f.off f.lo s := by
  have hne : ((stagedFields pg).filter (stagedNew s pg)).isEmpty = false := by
    rw [List.isEmpty_eq_false_iff, ← newFields, Ne, newFields_eq_nil, hc]
    decide
  simp only [commit, hne, hf, Bool.false_eq_true, if_false]

theorem commit_done {pg : Page} {s : State} (h : (stagedFields pg).any (stagedNew s pg) = false ∨ badFields s pg = []) :
    (commit pg s).1 = pageChanged s pg (commitDone pg s) := by
  have hnone : (if ((stagedFields pg).filter (stagedNew s pg)).isEmpty then none else firstField (badFields s pg)) = none := by
    rcases h with h | h
    · rw [← newFields, newFields_eq_nil.mpr h]
      rfl
    · rw [h]
      exact ite_self _
  simp only [commit, hnone]
  rfl

/-- A commit changes no staging copy. -/
theorem commit_staged (pg : Page) (s : State) : (commit pg s).1.staged = s.staged := by
  have hall : ∀ k, k ≠ .staged → k ∈ Piece.all.filter (· != .staged) := by
    intro k hk
    cases k with
    | regs b => cases b <;> decide
    | staged => exact absurd rfl hk
    | _ => decide
  have h : ReachP (Piece.all.filter (· != .staged)) s (commit pg s) := by
    apply commit_reach (h := Reach.rfl') <;> exact hall _ nofun
  exact h.out.frame .staged (by decide)

theorem commitStat_onlyFields {pg : Page} (hk : (pageKind pg).isSome = true) (failed off lsb : Nat) (s : State) :
    OnlyFields ([Fld.PAGE_COMMIT_STAT_FAILED, Fld.PAGE_COMMIT_STAT_OFFSET, Fld.PAGE_COMMIT_STAT_LSB].map fun f => (pg, f)) s
      (commitStat pg failed off lsb s) := by
  have hst (f : Fld) (hf : f ∈ commonFields.map FieldDef.fld)
      (hl : f ∈ [Fld.PAGE_COMMIT_STAT_FAILED, Fld.PAGE_COMMIT_STAT_OFFSET, Fld.PAGE_COMMIT_STAT_LSB]) (v : Nat) (t : State) :=
    onlyFields_st v t (isField_of_common hk hf).ok (List.mem_map_of_mem (f := fun f => (pg, f)) hl)
  exact ((hst _ (by decide) (by decide) lsb s).trans (hst _ (by decide) (by decide) off _)).trans
    (hst _ (by decide) (by decide) failed _)

theorem exec_pageCommit_owner {part addr off : Nat} {data : Word} {pg : Page} {s : State} (hr : Ready s)
    (ha : addr / 2 ^ 28 = 0xF000) (hp : pageOfKey (addr % 2 ^ 28) = some (pg, off)) (hk : (pageKind pg).isSome = true)
    (ho : part = pageOwner s pg) : exec (.pageCommit part addr data) s =
      .next (answerOk (if data.toNat % 65536 = 0xC011 then (commit pg s).1 else s)) := by
  rw [exec_pageCommit hr.1, onPage_owner _ hr.2 ha hp hk ho]
  rfl

/-- Settles O36: a refused commit writes PAGE_COMMIT_STAT alone; one that is not refused writes the staged fields, and no unit's
step after it writes one of them again. -/
theorem commitsActTogetherOrNotAtAll : Obligations.CommitsActTogetherOrNotAtAll := by
  unfold Obligations.CommitsActTogetherOrNotAtAll
  intro part addr off data pg s hr ha hp hk ho stat changed
  have hstep := exec_pageCommit_owner (data := data) hr ha hp hk ho
  refine ⟨fun hkey => ?wrongKey, fun hkey hch hbad => ?refused, fun hkey hgood => ?done⟩
  case wrongKey => rw [hstep, if_neg hkey, answerOk]
  case refused =>
    obtain ⟨f, hfirst, hmem, hmin⟩ := firstField_first hbad
    obtain ⟨hfailed, hoff, hlsb⟩ := rg_commitStat hk 1 f.off f.lo s
    rw [if_pos hkey, commit_refused hch hfirst] at hstep
    have hreach : Reach [.regs pg.blk, .bus] s (commitStat pg 1 f.off f.lo s) := commitStat_reach (by simp) .rfl'
    refine ⟨_, hstep, answerOk_bus _, answerOk_only hreach (by simp), (commitStat_onlyFields hk 1 f.off f.lo s).answerOk, ?_, f, hmem, ?_⟩
    · rw [rg_answerOk, hfailed]
    · rw [rg_answerOk, rg_answerOk]
      exact ⟨hoff, hlsb, hmin⟩
  case done =>
    rw [if_pos hkey] at hstep
    have hkept : CommitKept pg (commitDone pg s) (commit pg s).1 := by
      rw [commit_done hgood]
      exact pageChanged_commitKept s _ (commitDone_keeps_enable hk s)
    refine ⟨_, hstep, answerOk_bus _, ?_, ?_, (answerOk_staged _).trans (commit_staged pg s), fun f hf => ?_⟩
    · rw [rg_answerOk, hkept _ (by simp [commitFields]), rg_commitDone_failed hk]
    · rw [rg_answerOk, hkept _ (by simp [commitFields]), rg_commitDone_gen hk]
    · rw [rg_answerOk, hkept f (by simp [commitFields, hf]), rg_commitDone_staged hk hf]

end Sys2Proof.Machine
end

section
/-!
PROOFS. Reset, power failure and the debug opening (R20, R388, R389, R402): what a flush in progress leaves in flash, and the stages of
an opening, each with what it establishes and the pieces that bound what it can undo.
-/
namespace Sys2Proof.Machine

/-! ### Steps over a list, and fields across an operation -/

/-- What one step of a run establishes, and every step keeps, holds after the run; `P` is what every step keeps until then. -/
theorem foldl_establishes {α : Type} {P Q : State → Prop} {f : State → α → State} {i : α} {l : List α} (hi : i ∈ l)
    (hP : ∀ t x, P t → P (f t x)) (hstep : ∀ t, P t → Q (f t i)) (hQ : ∀ t x, Q t → Q (f t x)) (s : State) (hs : P s) :
    Q (l.foldl f s) := by
  induction l generalizing s with
  | nil => cases hi
  | cons x l ih =>
    rw [List.foldl_cons]
    rcases List.mem_cons.mp hi with rfl | hin
    · exact List.foldlRecOn l f (hstep s hs) fun t ht y _ => hQ t y ht
    · exact ih hin _ (hP s x hs)

/-- An operation that does not reach a block leaves the fields of its pages. -/
theorem rg_of_reach {L : List Piece} {s t : State} {pg : Page} (h : Reach L s t) (hL : Piece.regs pg.blk ∉ L) (f : Fld) :
    rg t pg f = rg s pg f := by
  unfold rg
  rw [h.frame _ hL _ (Reach.regKey_blk pg f.off)]

theorem chans_of_reach {L : List Piece} {s t : State} (h : Reach L s t) (hL : Piece.chans ∉ L) : t.chans = s.chans :=
  h.frame .chans hL

theorem ports_of_reach {L : List Piece} {s t : State} (h : Reach L s t) (hL : Piece.ports ∉ L) : t.ports = s.ports :=
  h.frame .ports hL

theorem countsUp_inc {pg : Page} {f : Fld} (hf : f.ok = true) (n : Nat) (s : State) : CountsUp pg f n s (inc pg f n s) :=
  rg_st_same s pg f _ hf

/-- A count carries over to states in which the field reads the same. -/
theorem CountsUp.congr {pg : Page} {f : Fld} {n : Nat} {s t s' t' : State} (h : CountsUp pg f n s t)
    (hs : rg s pg f = rg s' pg f) (ht : rg t' pg f = rg t pg f) : CountsUp pg f n s' t' := by
  rw [CountsUp, ht, ← hs]
  exact h

theorem wh_running {s : State} (h : Running s) (f : State → State) : wh (on s) f s = f s := by
  rw [wh, if_pos (on_of_running h)]

theorem only_sec (s : State) (v : Sec) : Only [.sec] s { s with sec := v } :=
  (Reach.rfl'.sec (by simp)).frame

/-! ### Flushes that a reset or a power failure meets (R402, R431) -/

theorem frameLeft_flash (s : State) : (frameLeft s).flash = match s.evr.writing with
    | some j => putBytes flashDefault s.flash (frameAddr j.frame) j.header
    | none => s.flash := by
  unfold frameLeft
  cases s.evr.writing <;> rfl

/-- A reset keeps of the state only what the header of the frame does not touch. -/
theorem resetAssert_eq (s : State) : resetAssert s = { cleared s with flash := (frameLeft s).flash } := by
  unfold resetAssert frameLeft
  cases s.evr.writing <;> rfl

/-- The flush in progress is abandoned: its frame holds the header alone (log entry 29). -/
def flushAbandoned (s : State) : State := setEvr { s.evr with writing := none } (frameLeft s)

theorem flushAbandoned_flash (s : State) : (flushAbandoned s).flash = (frameLeft s).flash := setEvr_flash _ _

theorem powerFailFlush_eq (s : State) : powerFailFlush s =
    if erasedAhead s.evr = 0 then flushAbandoned s else startFlush 1 (flushAbandoned s) := by
  unfold powerFailFlush flushAbandoned frameLeft
  cases hw : s.evr.writing with
  | some j => rfl
  | none =>
    have hsame : setEvr { s.evr with writing := none } s = s := by rw [← hw]; rfl
    simp only [hsame]

theorem startFlush_flash (cause : Nat) (s : State) : (startFlush cause s).flash = s.flash := by
  rw [startFlush, tickFree_flash, setEvr_flash]

theorem powerFailFlush_flash (s : State) : (powerFailFlush s).flash = (frameLeft s).flash := by
  rw [powerFailFlush_eq, ← flushAbandoned_flash]
  split
  · rfl
  · exact startFlush_flash 1 _

theorem powerFailFlush_none {s : State} (h : erasedAhead s.evr = 0) : (powerFailFlush s).evr.writing = none := by
  rw [powerFailFlush_eq, if_pos h]
  rfl

/-- A power failure flushes the records into the frame at the head, where frames are erased. -/
theorem powerFailFlush_starts {s : State} (h : erasedAhead s.evr ≠ 0) :
    (powerFailFlush s).evr.head = (s.evr.head + 1) % 32 ∧
    ∃ j, (powerFailFlush s).evr.writing = some j ∧ j.frame = s.evr.head ∧ j.cause = 1 ∧ j.slots = s.evr.slots := by
  rw [powerFailFlush_eq, if_neg h]
  exact ⟨rfl, _, rfl, rfl, rfl, rfl⟩

/-! ### Keys (R365, R389) -/

/-- No key of partition `p` is left, and no sweep of it runs. -/
def KeysZeroised (p : Nat) (s : State) : Prop :=
  (secOf s p).pka = 0 ∧ (secOf s p).curSet = keySetZero ∧ (secOf s p).oldSet = keySetZero ∧ (secOf s p).sweeping = false ∧
    ∀ j, j ∈ (secOf s p).slots → j.keyid = 0 ∧ j.key = keyZero

theorem secOf_setSec (p q : Nat) (c : SecPart) (s : State) : secOf (setSec p c s) q = if q = p then c else secOf s q :=
  tabGet_tabSet _ _ _ _ _

theorem zeroiseKeys_zeroised (p : Nat) (s : State) : KeysZeroised p (zeroiseKeys p s) := by
  unfold KeysZeroised zeroiseKeys
  rw [secOf_setSec, if_pos rfl]
  refine ⟨rfl, rfl, rfl, rfl, fun j hj => ?_⟩
  obtain ⟨k, _, rfl⟩ := List.mem_map.mp hj
  exact ⟨rfl, rfl⟩

theorem zeroiseKeys_keeps_zeroised (p q : Nat) (s : State) (h : KeysZeroised q s) : KeysZeroised q (zeroiseKeys p s) := by
  by_cases e : q = p
  · exact e ▸ zeroiseKeys_zeroised q s
  · have hother : secOf (zeroiseKeys p s) q = secOf s q := by rw [zeroiseKeys, secOf_setSec, if_neg e]
    rwa [KeysZeroised, hother]

theorem KeysZeroised.congr {p : Nat} {s t : State} (h : KeysZeroised p s) (hsecs : t.secs = s.secs) : KeysZeroised p t := by
  have hsec : secOf t p = secOf s p := by rw [secOf, hsecs, secOf]
  rwa [KeysZeroised, hsec]

/-- The keys of every partition are zeroised. -/
def partitionsZeroised (s : State) : State := (List.range 16).foldl (fun s p => zeroiseKeys p s) s

theorem partitionsZeroised_reach (s : State) : Reach [.secs] s (partitionsZeroised s) :=
  .foldl (fun _ _ => zeroiseKeys_reach (by decide)) .rfl'

theorem partitionsZeroised_zeroised {p : Nat} (hp : p < 16) (s : State) : KeysZeroised p (partitionsZeroised s) :=
  foldl_establishes (P := fun _ => True) (Q := KeysZeroised p) (List.mem_range.mpr hp) (fun _ _ h => h)
    (fun t _ => zeroiseKeys_zeroised p t) (fun t x => zeroiseKeys_keeps_zeroised x p t) s trivial

/-- The device's lending keys and node keys are zeroised. -/
def deviceZeroised (s : State) : State :=
  { s with sec := { s.sec with lend := keySetZero, node := s.sec.node.map fun _ => keyZero } }

theorem openZeroise_reaches (s : State) : Reach [.sec, .secs] s (openZeroise s) :=
  openZeroise_reach (by decide) (by decide) .rfl'

theorem openZeroise_eq (s : State) : openZeroise s = deviceZeroised (partitionsZeroised s) := rfl

theorem deviceZeroised_secs (s : State) : (deviceZeroised s).secs = s.secs := rfl

theorem openZeroise_secs (s : State) : (openZeroise s).secs = (partitionsZeroised s).secs := by
  rw [openZeroise_eq, deviceZeroised_secs]

theorem openZeroise_sec (s : State) :
    (openZeroise s).sec = { s.sec with lend := keySetZero, node := s.sec.node.map fun _ => keyZero } := by
  have hsec : (partitionsZeroised s).sec = s.sec := (partitionsZeroised_reach s).frame .sec (by decide)
  rw [openZeroise_eq, deviceZeroised, hsec]

/-! ### Sessions (R331, R389) -/

/-- What the end of sessions can change. -/
abbrev sessionPieces : List Piece :=
  [.regs .hif, .regs .ras, .regs .evr, .flights, .arrs, .stks, .retrain, .accs, .col, .hif, .chans, .evr, .freeCtr]

/-- Every session of the device ends. -/
def sessionsEnded (s : State) : State := (List.range 64).foldl (fun s c => endSession c true s) s

theorem sessionsEnded_reach (s : State) : Reach sessionPieces s (sessionsEnded s) := by
  refine .foldl (fun _ _ => ?_) .rfl'
  apply endSession_reach <;> decide

/-- A session's end leaves its channel without a session, and every other channel as it was. -/
theorem endSession_sessOf (c d : Nat) (lost : Bool) (s : State) :
    sessOf (endSession c lost s) d = if d = c then none else sessOf s d := by
  have hmoves (l : List Flight) (t : State) :
      Reach (sessionPieces.erase .chans) t (l.foldl (fun t f => moveLost f c 0x0102 t) t) := by
    refine .foldl (fun _ _ => ?_) .rfl'
    apply moveLost_reach <;> decide
  have hlost (t : State) : Reach (.regs .hif :: eventPieces) t (wh lost (fun t => raise (pgCh c) 0x0C 0 5 (some (chanPart t c)) 1
      (inc (pgCh c) Fld.HIF_CH_LOST 1 t)) t) :=
    .wh (fun u hu => raise_reach (by decide) (by decide) (by decide) (by decide) (inc_reach List.mem_cons_self hu)) .rfl'
  unfold endSession
  split
  case h_1 x hx =>
    rw [sessOf, chan, chans_of_reach (hmoves _ _) (by decide), chans_of_reach (hlost _) (by decide), tabGet_tabSet]
    split <;> rfl
  case h_2 hx =>
    split
    · next e => rw [e, hx]
    · rfl

theorem sessionsEnded_sessOf {c : Nat} (hc : c < 64) (s : State) : sessOf (sessionsEnded s) c = none :=
  foldl_establishes (P := fun _ => True) (Q := fun t => sessOf t c = none) (List.mem_range.mpr hc) (fun _ _ h => h)
    (fun t _ => by rw [endSession_sessOf, if_pos rfl])
    (fun t x h => by rw [endSession_sessOf, h, ite_self]) s trivial

/-! ### Fresh entropy (R366) -/

/-- What a new seed of the DRBG can change. -/
abbrev seedPieces : List Piece := [.regs .sec, .regs .ras, .regs .evr, .sec, .evr, .freeCtr]

theorem seedDrbg_reaches (ef : Nat) (s : State) : Reach seedPieces s (seedDrbg ef s) := by
  apply seedDrbg_reach _ _ _ _ _ _ .rfl' <;> decide

theorem healthTests_pass {ef : Nat} (h : ef < 16) (s : State) :
    healthTests ef s = (inc pgSecDev Fld.SEC_ENTROPY_FAIL ef s, true) := by
  rw [healthTests, if_neg (Nat.not_le.mpr h), Nat.min_eq_left (Nat.le_of_lt h)]

/-- The security block fails (R366, Table 18.2). -/
def secBlockFailed (s : State) : State :=
  moduleFail 9 pgSecDev 0x70 0 none { s with sec := { s.sec with failed := true } }

theorem healthTests_fail {ef : Nat} (h : 16 ≤ ef) (s : State) :
    healthTests ef s = (secBlockFailed (inc pgSecDev Fld.SEC_ENTROPY_FAIL 16 s), false) := by
  rw [healthTests, if_pos h, Nat.min_eq_right h, secBlockFailed]

theorem secBlockFailed_sec (s : State) : (secBlockFailed s).sec = { s.sec with failed := true } := by
  have h : Reach [.regs .sec, .regs .ras, .regs .evr, .evr, .freeCtr] { s with sec := { s.sec with failed := true } }
      (secBlockFailed s) := by
    apply moduleFail_reach _ _ _ _ _ .rfl' <;> decide
  exact h.frame .sec (by decide)

theorem isField_secDev {f : Fld} (h : f ∈ kindFlds .secDev) : IsField pgSecDev f := isField_of_kind rfl h

/-- The status code that a page reports stands in fields of their own. -/
theorem rg_setErr_other {pg : Page} {f : Fld} (hf : IsField pg f) (hk : (pageKind pg).isSome = true)
    (hn : f ∉ [Fld.PAGE_ERR_ERR, Fld.PAGE_ERR_OVER, Fld.PAGE_ERR_INFO_CODE, Fld.PAGE_ERR_INFO_DETAIL]) (code detail : Nat)
    (s : State) : rg (setErr pg code detail s) pg f = rg s pg f := by
  simp only [List.mem_cons, List.not_mem_nil, or_false, not_or] at hn
  obtain ⟨herr, hover, hcode, hdetail⟩ := hn
  unfold setErr
  split
  · rw [rg_st_other _ _ hf (isField_of_common hk (by decide)) herr, rg_st_other _ _ hf (isField_of_common hk (by decide)) hcode,
      rg_st_other _ _ hf (isField_of_common hk (by decide)) hdetail]
  · exact rg_st_other _ _ hf (isField_of_common hk (by decide)) hover

/-- The failure of the security block counts on the RAS page and reports on its own; its count of failed tests stays. -/
theorem rg_secBlockFailed (s : State) :
    rg (secBlockFailed s) pgSecDev Fld.SEC_ENTROPY_FAIL = rg s pgSecDev Fld.SEC_ENTROPY_FAIL := by
  unfold secBlockFailed moduleFail
  extract_lets u v w
  have hras : Reach [.sec, .regs .ras] s w :=
    .wh (fun t ht => st_reach (by decide) (st_reach (by decide) (st_reach (by decide) (st_reach (by decide) ht))))
      (inc_reach (by decide) (Reach.rfl'.sec (by decide)))
  have hraise : Reach eventPieces (setErr pgSecDev 0x70 0 w) (raise pgSecDev 0x03 0x70 0 none 3 (setErr pgSecDev 0x70 0 w)) :=
    raise_reach (by decide) (by decide) (by decide) (by decide) .rfl'
  rw [rg_of_reach hraise (by decide), rg_setErr_other (isField_secDev (by decide +kernel)) rfl (by decide),
    rg_of_reach hras (by decide)]

/-- The DRBG after a new seed, and the counts that go with it. -/
theorem seedDrbg_pass {ef : Nat} (h : ef < 16) (s : State) : ∃ d n k, seedDrbg ef s =
    inc pgSecDev Fld.SEC_RESEEDS 1 { inc pgSecDev Fld.SEC_ENTROPY_FAIL ef s with
      sec := { s.sec with drbg := d, sinceSeed := n, draws := k } } := by
  rw [seedDrbg, healthTests_pass h]
  exact ⟨_, _, _, rfl⟩

theorem seedDrbg_fail {ef : Nat} (h : 16 ≤ ef) (s : State) :
    seedDrbg ef s = secBlockFailed (inc pgSecDev Fld.SEC_ENTROPY_FAIL 16 s) := by
  rw [seedDrbg, healthTests_fail h]
  rfl

/-- Besides the DRBG only FAILED of the security block changes. -/
theorem seedDrbg_sec (ef : Nat) (s : State) : ∃ d n k, (seedDrbg ef s).sec =
    { s.sec with drbg := d, sinceSeed := n, draws := k, failed := s.sec.failed || decide (16 ≤ ef) } := by
  by_cases h : 16 ≤ ef
  · refine ⟨s.sec.drbg, s.sec.sinceSeed, s.sec.draws, ?_⟩
    rw [seedDrbg_fail h, secBlockFailed_sec, inc_sec, decide_eq_true h, Bool.or_true]
  · obtain ⟨d, n, k, hseed⟩ := seedDrbg_pass (Nat.not_le.mp h) s
    refine ⟨d, n, k, ?_⟩
    rw [hseed, inc_sec, decide_eq_false h, Bool.or_false]

theorem seedDrbg_entropyFail (ef : Nat) (s : State) : CountsUp pgSecDev Fld.SEC_ENTROPY_FAIL (min ef 16) s (seedDrbg ef s) := by
  have hcount := countsUp_inc (pg := pgSecDev) (f := Fld.SEC_ENTROPY_FAIL) rfl (min ef 16) s
  by_cases h : 16 ≤ ef
  · rw [Nat.min_eq_right h] at hcount ⊢
    exact hcount.congr rfl (by rw [seedDrbg_fail h, rg_secBlockFailed])
  · obtain ⟨d, n, k, hseed⟩ := seedDrbg_pass (Nat.not_le.mp h) s
    rw [Nat.min_eq_left (Nat.le_of_not_le h)] at hcount ⊢
    refine hcount.congr rfl ?_
    rw [hseed, inc, rg_st_apart _ _ _ _ _ rfl rfl rfl]
    rfl

theorem seedDrbg_reseeds {ef : Nat} (h : ef < 16) (s : State) : CountsUp pgSecDev Fld.SEC_RESEEDS 1 s (seedDrbg ef s) := by
  obtain ⟨d, n, k, hseed⟩ := seedDrbg_pass h s
  rw [hseed]
  exact (countsUp_inc rfl 1 _).congr (rg_st_apart s pgSecDev Fld.SEC_ENTROPY_FAIL Fld.SEC_RESEEDS _ rfl rfl rfl) rfl

/-! ### Ports (R293, R389) -/

/-- What a retrain of ports can change. -/
abbrev retrainPieces : List Piece := [.regs .fab, .regs .ras, .regs .evr, .ports, .evr, .freeCtr]

/-- Every port in UP retrains. -/
def portsRetrained (s : State) : State := (List.range 16).foldl (fun s p => forcedRetrain p s) s

theorem portsRetrained_reach (s : State) : Reach retrainPieces s (portsRetrained s) := by
  refine .foldl (fun _ _ => ?_) .rfl'
  apply forcedRetrain_reach <;> decide

theorem portOf_setPort (p q : Nat) (x : Port) (s : State) : portOf (setPort p x s) q = if q = p then x else portOf s q :=
  tabGet_tabSet _ _ _ _ _

theorem portOf_of_ports {s t : State} (h : t.ports = s.ports) (p : Nat) : portOf t p = portOf s p := by
  rw [portOf, h, portOf]

/-- A retrain of a port in UP leaves it in PMD_TRAIN, and every other port as it was. -/
theorem retrainPort_state (p q : Nat) (s : State) : (portOf (retrainPort p s) q).state =
    if q = p ∧ (portOf s p).state = .up then .pmdTrain else (portOf s q).state := by
  unfold retrainPort
  by_cases hup : (portOf s p).state = .up
  · simp only [hup, ne_eq, not_true_eq_false, if_false, pmdStart, portOf_of_ports (inc_ports ..), portOf_setPort]
    by_cases e : q = p <;> simp [e]
  · simp [hup]

theorem forcedRetrain_state (p q : Nat) (s : State) : (portOf (forcedRetrain p s) q).state =
    if q = p ∧ (portOf s p).state = .up then .pmdTrain else (portOf s q).state := by
  have hcount (c : Bool) : Reach (.regs .fab :: eventPieces) s (wh c (fun s => raise (pgFab p) 0x05 0 3 none 1
      (inc (pgFab p) Fld.FAB_FORCED 1 s)) s) :=
    .wh (fun u hu => raise_reach (by decide) (by decide) (by decide) (by decide) (inc_reach List.mem_cons_self hu)) .rfl'
  unfold forcedRetrain
  by_cases hup : (portOf s p).state = .up
  · rw [if_neg (not_not.mpr hup), retrainPort_state]
    simp only [portOf_of_ports (ports_of_reach (hcount _) (by decide))]
  · rw [if_pos hup, if_neg fun h => hup h.2]

/-- The port is in UP, or already in PMD_TRAIN. -/
def UpOrTraining (p : Nat) (s : State) : Prop := (portOf s p).state = .up ∨ (portOf s p).state = .pmdTrain

theorem portsRetrained_state {p : Nat} (hp : p < 16) {s : State} (h : (portOf s p).state = .up) :
    (portOf (portsRetrained s) p).state = .pmdTrain := by
  refine foldl_establishes (P := UpOrTraining p) (Q := fun t => (portOf t p).state = .pmdTrain) (List.mem_range.mpr hp)
    (fun t q ht => ?_) (fun t ht => ?_) (fun t q ht => ?_) s (.inl h)
  · unfold UpOrTraining
    rw [forcedRetrain_state]
    split
    · exact .inr rfl
    · exact ht
  · rw [forcedRetrain_state]
    split
    · rfl
    · next hnot => exact ht.resolve_left fun hup => hnot ⟨rfl, hup⟩
  · rw [forcedRetrain_state, ht, ite_self]

/-! ### The debug opening (R388, R389) -/

/-- Debug access is open. -/
def debugOpened (s : State) : State := { s with sec := { s.sec with debugOpen := true } }

/-- An opening up to the retrains of the ports. -/
def opened (ef : Nat) (s : State) : State := debugOpened (seedDrbg ef (sessionsEnded (openZeroise s)))

/-- Where no SEC command waits, an opening ends with the retrains. -/
theorem debugOpening_eq {ef : Nat} {s : State} (h : s.secJobs = []) : debugOpening ef s = portsRetrained (opened ef s) := by
  have hjobs : (portsRetrained (opened ef s)).secJobs = [] := by
    calc (portsRetrained (opened ef s)).secJobs
      _ = (opened ef s).secJobs := (portsRetrained_reach _).frame .secJobs (by decide)
      _ = (sessionsEnded (openZeroise s)).secJobs := (seedDrbg_reaches ef _).frame .secJobs (by decide)
      _ = (openZeroise s).secJobs := (sessionsEnded_reach _).frame .secJobs (by decide)
      _ = s.secJobs := (openZeroise_reaches s).frame .secJobs (by decide)
      _ = [] := h
  show secRetry (portsRetrained (opened ef s)) = _
  rw [secRetry, hjobs, List.foldl_nil]

/-- Nothing after the zeroising writes a partition's keys. -/
theorem opening_zeroised {p : Nat} (hp : p < 16) (ef : Nat) (s : State) : KeysZeroised p (portsRetrained (opened ef s)) := by
  refine (partitionsZeroised_zeroised hp s).congr ?_
  calc (portsRetrained (opened ef s)).secs
    _ = (opened ef s).secs := (portsRetrained_reach _).frame .secs (by decide)
    _ = (sessionsEnded (openZeroise s)).secs := (seedDrbg_reaches ef _).frame .secs (by decide)
    _ = (openZeroise s).secs := (sessionsEnded_reach _).frame .secs (by decide)
    _ = (partitionsZeroised s).secs := openZeroise_secs s

theorem opening_sessOf {c : Nat} (hc : c < 64) (ef : Nat) (s : State) : sessOf (portsRetrained (opened ef s)) c = none := by
  have hchans : (portsRetrained (opened ef s)).chans = (sessionsEnded (openZeroise s)).chans :=
    ((portsRetrained_reach _).frame .chans (by decide)).trans ((seedDrbg_reaches ef _).frame .chans (by decide))
  rw [sessOf, chan, hchans, ← chan, ← sessOf]
  exact sessionsEnded_sessOf hc _

theorem opening_ports {p : Nat} (hp : p < 16) (ef : Nat) {s : State} (h : (portOf s p).state = .up) :
    (portOf (portsRetrained (opened ef s)) p).state = .pmdTrain := by
  have hports : (opened ef s).ports = s.ports := by
    calc (opened ef s).ports
      _ = (sessionsEnded (openZeroise s)).ports := (seedDrbg_reaches ef _).frame .ports (by decide)
      _ = (openZeroise s).ports := (sessionsEnded_reach _).frame .ports (by decide)
      _ = s.ports := (openZeroise_reaches s).frame .ports (by decide)
  exact portsRetrained_state hp (by rwa [portOf_of_ports hports])

/-- The device's security state after an opening: only the DRBG's own fields are left open. -/
theorem opening_sec (ef : Nat) (s : State) : ∃ d n k, (portsRetrained (opened ef s)).sec = { s.sec with
    lend := keySetZero, node := s.sec.node.map fun _ => keyZero, drbg := d, sinceSeed := n, draws := k, debugOpen := true
    failed := s.sec.failed || decide (16 ≤ ef) } := by
  obtain ⟨d, n, k, hseed⟩ := seedDrbg_sec ef (sessionsEnded (openZeroise s))
  have hsessions : (sessionsEnded (openZeroise s)).sec = (openZeroise s).sec := (sessionsEnded_reach _).frame .sec (by decide)
  have hports : (portsRetrained (opened ef s)).sec = (opened ef s).sec := (portsRetrained_reach _).frame .sec (by decide)
  refine ⟨d, n, k, ?_⟩
  rw [hports, opened, debugOpened, hseed, hsessions, openZeroise_sec]

/-- A count on the SEC device page across the reseed is the same count across the whole opening. -/
theorem opening_countsUp {ef n : Nat} {f : Fld} {s : State}
    (h : CountsUp pgSecDev f n (sessionsEnded (openZeroise s)) (seedDrbg ef (sessionsEnded (openZeroise s)))) :
    CountsUp pgSecDev f n s (portsRetrained (opened ef s)) := by
  exact h.congr ((rg_of_reach (sessionsEnded_reach _) (by decide) f).trans (rg_of_reach (openZeroise_reaches s) (by decide) f))
    (rg_of_reach (portsRetrained_reach (opened ef s)) (by decide) f)

/-- The test access port's current instruction is `i`. -/
def setIr (i : Nat) (s : State) : State := { s with sec := { s.sec with ir := i } }

/-- The update of the instruction register: an opening code opens debug access where the seal and the fuses let it (R388, R389). -/
theorem jtagUpdate_eq (code ef : Nat) (s : State) : jtagUpdate code ef s =
    if (code = 0x00 ∨ code = 0x02 ∨ code = 0x10) ∧ s.sec.sealOpen = true ∧ s.pwr.fuses.debugOff = false then
      setIr code (debugOpening ef s)
    else setIr (if code = 0x01 then 0x01 else 0xFF) s := by
  have hcode : jtagOpens code = true ↔ code = 0x00 ∨ code = 0x02 ∨ code = 0x10 := by simp [jtagOpens, or_assoc]
  split
  case isTrue h =>
    obtain ⟨hbare, hseal, hfuse⟩ := h
    have hid : code ≠ 0x01 := by omega
    simp [jtagUpdate, hid, hcode.mpr hbare, hseal, hfuse, setIr]
  case isFalse h =>
    by_cases hid : code = 0x01
    · simp [jtagUpdate, hid, setIr]
    · have hclosed : (!jtagOpens code || !s.sec.sealOpen || s.pwr.fuses.debugOff) = true := by
        by_contra hc
        exact h (by simpa [← hcode, and_assoc] using hc)
      simp only [jtagUpdate, hid, hclosed, if_true, if_false, setIr]

/-! ### The statement -/

theorem exec_powerFail {s : State} (h : Running s) : exec .powerFail s = .next (powerDown s) :=
  congrArg Host.Outcome.next (wh_running h powerDown)

theorem exec_jtagOpeningInstruction {code ef : Nat} {s : State} (h : Running s) :
    exec (.jtagOpeningInstruction code ef) s = .next (jtagUpdate code ef s) :=
  congrArg Host.Outcome.next (wh_running h (jtagUpdate code ef))

/-- Settles O43: a reset and a power failure leave of a flush its header, and each stage of a debug opening establishes its clause, which
no later stage reaches. -/
theorem resetAndPowerFailure : Obligations.ResetAndPowerFailure := by
  unfold Obligations.ResetAndPowerFailure
  intro isOpen code ef s jtag bare opens
  refine ⟨?reset, fun hr => ?powerFail, ?sealSense, fun hr hno => ?bypass, fun hr hopens hjobs => ?opening⟩
  case reset =>
    refine ⟨resetAssert s, rfl, ?_, ?_⟩
    · rw [resetAssert_eq]
      rfl
    · rw [resetAssert_eq]
      exact frameLeft_flash s
  case powerFail =>
    let u : State := { s with pwr := { s.pwr with mode := .failing, pwrFailN := false } }
    have hu : Reach [.flash, .evr, .freeCtr] u (powerDown s) :=
      powerFailFlush_reach (by decide) (by decide) (by decide) .rfl'
    have hs : Reach [.pwr, .flash, .evr, .freeCtr] s (powerDown s) :=
      powerDown_reach (by decide) (by decide) (by decide) (by decide) .rfl'
    exact ⟨powerDown s, exec_powerFail hr, hu.frame .pwr (by decide), hs.frame,
      (powerFailFlush_flash u).trans (frameLeft_flash u), powerFailFlush_none (s := u), powerFailFlush_starts (s := u)⟩
  case sealSense => exact ⟨_, rfl, rfl, only_sec s _⟩
  case bypass =>
    have hstep : exec (.jtagOpeningInstruction code ef) s = .next (setIr (if code = 0x01 then 0x01 else 0xFF) s) := by
      rw [exec_jtagOpeningInstruction hr, jtagUpdate_eq, if_neg hno]
    exact ⟨_, hstep, only_sec s _, rfl⟩
  case opening =>
    have hstep : exec (.jtagOpeningInstruction code ef) s = .next (setIr code (portsRetrained (opened ef s))) := by
      rw [exec_jtagOpeningInstruction hr, jtagUpdate_eq, if_pos hopens, debugOpening_eq hjobs]
    obtain ⟨d, n, k, hsec⟩ := opening_sec ef s
    have hfails := opening_countsUp (s := s) (seedDrbg_entropyFail ef _)
    have hreseeds (h : ef < 16) := opening_countsUp (s := s) (seedDrbg_reseeds h _)
    have hkeys (p : Nat) (hp : p < 16) := opening_zeroised hp ef s
    have hsessions (c : Nat) (hc : c < 64) := opening_sessOf hc ef s
    have hports (p : Nat) (hp : p < 16) (h : (portOf s p).state = .up) := opening_ports hp ef h
    -- The later goals are about the state reached, not about how it was reached.
    generalize portsRetrained (opened ef s) = t at *
    have hnode : t.sec.node = s.sec.node.map fun _ => keyZero := congrArg Sec.node hsec
    refine ⟨setIr code t, hstep, rfl, congrArg Sec.debugOpen hsec, congrArg Sec.failed hsec, congrArg Sec.lend hsec,
      fun key hkey => ?_, hfails, hreseeds, hkeys, hsessions, hports⟩
    obtain ⟨_, _, rfl⟩ := List.mem_map.mp (hnode ▸ hkey : key ∈ s.sec.node.map fun _ => keyZero)
    rfl

end Sys2Proof.Machine
end

section
/-!
PROOFS. Tokens (R48 to R53): what one operation of the token bank leaves on a token, when the held ACQUIREs of the token come to it,
and what an access by another partition leaves.
-/
namespace Sys2Proof.Machine

/-! ### One token changes -/

theorem tok_of_toks {s t : State} (h : t.toks = s.toks) (j : Nat) : tok t j = tok s j := by rw [tok, tok, h]

theorem tok_setTok (k j : Nat) (v : Token) (s : State) : tok (setTok k v s) j = if j = k then v else tok s j :=
  tabGet_tabSet _ _ _ _ _

@[simp] theorem tok_setTok_same (k : Nat) (v : Token) (s : State) : tok (setTok k v s) k = v := by rw [tok_setTok, if_pos rfl]

theorem tokenIs_setTok (k : Nat) (v : Token) (s : State) : TokenIs k v s (setTok k v s) :=
  ⟨tok_setTok_same k v s, fun j hj => by rw [tok_setTok, if_neg hj]⟩

theorem TokenIs.of_toks {k : Nat} {v : Token} {s s' t t' : State} (h : TokenIs k v s t) (hs : s'.toks = s.toks)
    (ht : t'.toks = t.toks) : TokenIs k v s' t' :=
  ⟨(tok_of_toks ht k).trans h.1, fun j hj => ((tok_of_toks ht j).trans (h.2 j hj)).trans (tok_of_toks hs j).symm⟩

theorem TokenBecomes.refl (k : Nat) (s : State) : TokenBecomes k (tok s k) s s :=
  ⟨⟨rfl, fun _ _ => rfl⟩, Reach.rfl'.frame⟩

theorem tokenBecomes_setTok (k : Nat) (v : Token) (s : State) : TokenBecomes k v s (setTok k v s) :=
  ⟨tokenIs_setTok k v s, (setTok_reach (by decide) .rfl').frame⟩

/-- The state with an answer of the register bus. -/
def answered (b : Nat × Nat) (s : State) : State := { s with bus := b }

@[simp] theorem tok_answered (b : Nat × Nat) (s : State) (k : Nat) : tok (answered b s) k = tok s k := rfl
@[simp] theorem flightOf_answered (b : Nat × Nat) (s : State) (fid : Nat) : flightOf (answered b s) fid = flightOf s fid := rfl

/-- The answer of the bus is no part of what changes on a token. -/
theorem TokenBecomes.answered {k : Nat} {v : Token} {s t : State} {b : Nat × Nat} (h : TokenBecomes k v s t) :
    TokenBecomes k v s (answered b t) := by
  refine ⟨h.1.of_toks rfl rfl, fun p hp => ?_⟩
  have hsame := h.2 p hp
  cases p
  case bus => exact absurd (by decide) hp
  all_goals exact hsame

/-- An operation under a condition leaves the token as it was where the condition fails. -/
theorem TokenBecomes.ite {c : Prop} [Decidable c] {k : Nat} {v : Token} {s t : State} (h : c → TokenBecomes k v s t) :
    TokenBecomes k (if c then v else tok s k) s (if c then t else s) := by
  split
  next hc => exact h hc
  next => exact .refl k s

/-! ### The operations (R49, R51) -/

/-- A token with VALUE set and GEN advanced (R49). -/
def renewed (v : Nat) (old : Token) : Token := { old with value := v % 2 ^ 32, gen := (old.gen + 1) % 4096 }

theorem tokSetV_eq (k v : Nat) (s : State) : tokSetV k v s = setTok k (renewed v (tok s k)) s := rfl

theorem tokAddV_fits {k n : Nat} {part : Option Nat} {s : State} (h : (tok s k).value + n ≤ 0xFFFFFFFF) :
    tokAddV k n part s = setTok k { tok s k with value := (tok s k).value + n } s := if_pos h

theorem tokDec_becomes (k n : Nat) (s : State) :
    TokenBecomes k (if n ≤ (tok s k).value then { tok s k with value := (tok s k).value - n } else tok s k) s (tokDec k n s) :=
  .ite fun _ => tokenBecomes_setTok ..

theorem tokApply_set (part k w : Nat) (s : State) : tokApply (.set w) part k s = setTok k (renewed w (tok s k)) s := by
  show tokSetV k (w % 2 ^ 32) s = _
  rw [tokSetV_eq, renewed, renewed, Nat.mod_mod]

theorem tokApply_set_becomes (part k w : Nat) (s : State) :
    TokenBecomes k (renewed w (tok s k)) s (tokApply (.set w) part k s) :=
  tokApply_set part k w s ▸ tokenBecomes_setTok ..

theorem tokApply_cas_becomes (part k w : Nat) (s : State) :
    TokenBecomes k (if (tok s k).gen = bits 47 36 w then renewed w (tok s k) else tok s k) s (tokApply (.cas w) part k s) :=
  .ite fun _ => tokApply_set_becomes part k w s

theorem tokAddV_becomes {k n : Nat} {part : Option Nat} {s : State} (h : (tok s k).value + n ≤ 0xFFFFFFFF) :
    TokenBecomes k { tok s k with value := (tok s k).value + n } s (tokAddV k n part s) :=
  tokAddV_fits h ▸ tokenBecomes_setTok ..

/-- A decrement of a token whose VALUE is 0 leaves it, which is what taking 1 from 0 gives. -/
theorem tokApply_decR_becomes (part k : Nat) (s : State) :
    TokenBecomes k { tok s k with value := (tok s k).value - 1 } s (tokApply .decR part k s) := by
  have hput : (if 0 < (tok s k).value then { tok s k with value := (tok s k).value - 1 } else tok s k) =
      { tok s k with value := (tok s k).value - 1 } := by
    split
    next => rfl
    next h => rw [show (tok s k).value - 1 = (tok s k).value by omega]
  refine hput ▸ TokenBecomes.ite fun h => ?_
  simpa only [if_pos (show 1 ≤ (tok s k).value from h)] using tokDec_becomes k 1 s

/-! ### Held ACQUIREs (R50, R53) -/

theorem heldOn_of_flights {s t : State} (h : t.flights = s.flights) (k : Nat) : heldOn t k = heldOn s k := by
  rw [heldOn, heldOn, h]

theorem settle_none {s : State} {k : Nat} (h : heldOn s k = []) : settle k s = s := by rw [settle, h, settleList]

/-- The one held ACQUIRE of a token takes its operand and has its result, or waits on. -/
theorem settle_one {s : State} {k : Nat} {f : Flight} (h : heldOn s k = [f]) : settle k s =
    if (tokenBody f).2 ≤ (tok s k).value ∧ (tok s k).poisoned = false then
      finish f.fid 0 0 (setTok k { tok s k with value := (tok s k).value - (tokenBody f).2 } s)
    else s := by
  simp [settle, h, settleList]

theorem tokApply_flights (op : TokOp) (part k : Nat) (s : State) : (tokApply op part k s).flights = s.flights :=
  (tokApply_reach (L := [.regs .tok, .regs .ras, .regs .evr, .toks, .evr, .freeCtr]) (by decide) (by decide) (by decide) (by decide)
    (by decide) (by decide) .rfl').frame .flights (by decide)

/-! ### Accesses to the token window (R48, R49) -/

/-- An access by partition `part` to token `k`, as the commands of the token window make it. -/
def tokCommand (op : TokOp) (part k : Nat) (s : State) : Host.Outcome State Fault Refusal :=
  .next (wh (on s) (atDone (tokAccess op part k)) s)

theorem exec_tokenSetWrite (part k data : Nat) (s : State) :
    exec (.tokenSetWrite part k data) s = tokCommand (.set data) part k s := rfl
theorem exec_tokenAddRead (part k : Nat) (s : State) :
    exec (.tokenAddRead part k) s = tokCommand .addR part k s := rfl
theorem exec_tokenAddWrite (part k data : Nat) (s : State) :
    exec (.tokenAddWrite part k data) s = tokCommand (.add data) part k s := rfl
theorem exec_tokenTestDecRead (part k : Nat) (s : State) :
    exec (.tokenTestDecRead part k) s = tokCommand .decR part k s := rfl
theorem exec_tokenTestDecWrite (part k data : Nat) (s : State) :
    exec (.tokenTestDecWrite part k data) s = tokCommand (.dec data) part k s := rfl
theorem exec_tokenCasWrite (part k data : Nat) (s : State) :
    exec (.tokenCasWrite part k data) s = tokCommand (.cas data) part k s := rfl

theorem atDone_ready {s : State} (h : Ready s) (f : State → State) : wh (on s) (atDone f) s = f s := by
  rw [wh_running h.1, atDone, if_pos h.2]

theorem tokCommand_owner {op : TokOp} {part k : Nat} {s : State} (hr : Ready s) (ho : (tok s k).owner = part)
    (hp : (tok s k).poisoned = false) : tokCommand op part k s =
      .next (answered (0, if tokReads op then tokWord (tok s k) else 0) (settle k (tokApply op part k s))) := by
  rw [tokCommand, atDone_ready hr, tokAccess]
  simp [ho, hp, answered]

/-- Where no ACQUIRE is held, nothing follows the operation of the access. -/
theorem tokCommand_unheld {op : TokOp} {part k : Nat} {s : State} (hr : Ready s) (ho : (tok s k).owner = part)
    (hp : (tok s k).poisoned = false) (hh : heldOn s k = []) : tokCommand op part k s =
      .next (answered (0, if tokReads op then tokWord (tok s k) else 0) (tokApply op part k s)) := by
  rw [tokCommand_owner hr ho hp, settle_none ((heldOn_of_flights (tokApply_flights ..) k).trans hh)]

theorem tokCommand_becomes {op : TokOp} {part k : Nat} {v : Token} {s : State} (hr : Ready s) (ho : (tok s k).owner = part)
    (hp : (tok s k).poisoned = false) (hh : heldOn s k = []) (h : TokenBecomes k v s (tokApply op part k s)) :
    NextIs (tokCommand op part k s) fun t =>
      TokenBecomes k v s t ∧ t.bus = (0, if tokReads op then tokWord (tok s k) else 0) :=
  ⟨_, tokCommand_unheld hr ho hp hh, h.answered, rfl⟩

/-- Settles O8: each write leaves what its operation leaves on the token. -/
theorem tokenWindowWrites : Obligations.TokenWindowWrites := by
  unfold Obligations.TokenWindowWrites
  intro part k data s hr ho hp hh old put
  refine ⟨?set, ?cas, ?dec⟩
  case set => exact tokCommand_becomes (op := .set data) hr ho hp hh (tokApply_set_becomes ..)
  case cas => exact tokCommand_becomes (op := .cas data) hr ho hp hh (tokApply_cas_becomes ..)
  case dec => exact tokCommand_becomes (op := .dec data) hr ho hp hh (tokDec_becomes ..)

/-- Settles O9: a read answers the word as it stood, whatever its operation then leaves on the token. -/
theorem tokenWindowReadsAndAdds : Obligations.TokenWindowReadsAndAdds := by
  unfold Obligations.TokenWindowReadsAndAdds
  intro part k data s hr ho hp hh old
  refine ⟨fun hfit => ?addRead, fun hfit => ?addWrite, ?decRead⟩
  case addRead => exact tokCommand_becomes (op := .addR) hr ho hp hh (tokAddV_becomes hfit)
  case addWrite => exact tokCommand_becomes (op := .add data) hr ho hp hh (tokAddV_becomes hfit)
  case decRead => exact tokCommand_becomes (op := .decR) hr ho hp hh (tokApply_decR_becomes ..)

/-- The fields of TOK_REFUSED. -/
def refusedFields : List (Page × Fld) :=
  [(pgTok, Fld.TOK_REFUSED_KIND), (pgTok, Fld.TOK_REFUSED_PART), (pgTok, Fld.TOK_REFUSED_TOKEN)]

theorem tokRefuse_onlyFields (kind part k : Nat) (s : State) : OnlyFields refusedFields s (tokRefuse kind part k s) :=
  ((onlyFields_st k s (by decide) (by decide)).trans (onlyFields_st part _ (by decide) (by decide))).trans
    (onlyFields_st kind _ (by decide) (by decide))

theorem rg_tokRefuse {part k : Nat} (kind : Nat) (s : State) (hp : part < 16) (hk : k < 8192) :
    rg (tokRefuse kind part k s) pgTok Fld.TOK_REFUSED_KIND = kind % 2 ∧
    rg (tokRefuse kind part k s) pgTok Fld.TOK_REFUSED_PART = part ∧
    rg (tokRefuse kind part k s) pgTok Fld.TOK_REFUSED_TOKEN = k := by
  unfold tokRefuse
  refine ⟨rg_st_same _ _ _ _ (by decide), ?_, ?_⟩
  · rw [rg_st_apart _ _ _ _ _ (by decide) (by decide) (by decide), rg_st_same _ _ _ _ (by decide)]
    exact Nat.mod_eq_of_lt hp
  · rw [rg_st_apart _ _ _ _ _ (by decide) (by decide) (by decide), rg_st_apart _ _ _ _ _ (by decide) (by decide) (by decide),
      rg_st_same _ _ _ _ (by decide)]
    exact Nat.mod_eq_of_lt hk

theorem tokCommand_other {op : TokOp} {part k : Nat} {s : State} (hr : Ready s) (ho : (tok s k).owner ≠ part) :
    tokCommand op part k s = .next (answered (0x20, 0) (tokRefuse 0 part k s)) := by
  rw [tokCommand, atDone_ready hr, tokAccess, if_pos ho]
  rfl

/-- Settles O10: the refusal comes before the operation, so it is the same for every operation. -/
theorem tokenAccessesOfOthersAreRefused : Obligations.TokenAccessesOfOthersAreRefused := by
  unfold Obligations.TokenAccessesOfOthersAreRefused
  intro c part k data s hr ho hpart hk hc
  obtain ⟨op, hop⟩ : ∃ op, exec c s = tokCommand op part k s := by
    simp only [List.mem_cons, List.not_mem_nil, or_false] at hc
    rcases hc with rfl | rfl | rfl | rfl | rfl | rfl
    exacts [⟨_, exec_tokenSetWrite ..⟩, ⟨_, exec_tokenAddRead ..⟩, ⟨_, exec_tokenAddWrite ..⟩, ⟨_, exec_tokenTestDecRead ..⟩,
      ⟨_, exec_tokenTestDecWrite ..⟩, ⟨_, exec_tokenCasWrite ..⟩]
  obtain ⟨hkind, hpt, htok⟩ := rg_tokRefuse 0 s hpart hk
  refine ⟨_, hop.trans (tokCommand_other hr ho), rfl, hkind, hpt, htok, ?_, ?_⟩
  · exact ((tokRefuse_reach (by decide) .rfl').bus (by decide)).frame
  · exact (tokRefuse_onlyFields 0 part k s).trans (.of_regs rfl)

end Sys2Proof.Machine
end


section
/-!
PROOFS. TOKEN descriptors (R50, R53): the descriptor of a number in flight, what a change of it leaves, and what SET, ADD and ACQUIRE
leave of the token and of the descriptor.
-/
namespace Sys2Proof.Machine

/-! ### The descriptor of a number -/

theorem flightOf_mem {s : State} {fid : Nat} {f : Flight} (h : flightOf s fid = some f) : f ∈ s.flights ∧ f.fid = fid :=
  ⟨List.mem_of_find?_eq_some h, beq_iff_eq.mp (List.find?_some (p := fun g : Flight => g.fid == fid) h)⟩

theorem flightOf_of_flights {s t : State} (h : t.flights = s.flights) (fid : Nat) : flightOf t fid = flightOf s fid := by
  rw [flightOf, flightOf, h]

/-- A number names one descriptor: the one found splits the flight into others. -/
theorem flights_split {s : State} (hc : Canonical s) {f : Flight} (hf : f ∈ s.flights) :
    ∃ as bs, s.flights = as ++ f :: bs ∧ (∀ g ∈ as, g.fid ≠ f.fid) ∧ ∀ g ∈ bs, g.fid ≠ f.fid := by
  obtain ⟨as, bs, h⟩ := List.append_of_mem hf
  obtain ⟨-, hfbs, hcross⟩ := List.pairwise_append.mp (h ▸ hc.flights.1)
  obtain ⟨hbs, -⟩ := List.pairwise_cons.mp hfbs
  exact ⟨as, bs, h, fun g hg => Nat.ne_of_lt (hcross g hg f List.mem_cons_self), fun g hg => Nat.ne_of_gt (hbs g hg)⟩

theorem flightOf_of_mem {s : State} (hc : Canonical s) {f : Flight} (hf : f ∈ s.flights) : flightOf s f.fid = some f := by
  obtain ⟨as, bs, h, has, -⟩ := flights_split hc hf
  rw [flightOf, h, List.find?_append, List.find?_eq_none.mpr fun g hg => by simpa using has g hg]
  simp

theorem flightOf_updFlight {s : State} {fid : Nat} {f : Flight} (g : Flight → Flight) (h : flightOf s fid = some f) :
    flightOf (updFlight fid g s) fid = some (updOne fid g f) := by
  have hp : ((fun f : Flight => f.fid == fid) ∘ updOne fid g) = fun f => f.fid == fid :=
    funext fun x => by simp [updOne_fid]
  rw [flightOf, updFlight_flights, List.find?_map, hp]
  exact congrArg (Option.map (updOne fid g)) h

/-- A descriptor that had no result has the one it is finished with. -/
theorem finish_result {s : State} {fid : Nat} {f : Flight} (code detail : Nat) (h : flightOf s fid = some f)
    (hn : f.result = none) : ∃ g, flightOf (finish fid code detail s) fid = some g ∧ g.result = some code := by
  refine ⟨_, flightOf_updFlight _ h, ?_⟩
  simp [updOne, (flightOf_mem h).2, hn]

theorem tok_finish (fid code detail k : Nat) (s : State) : tok (finish fid code detail s) k = tok s k :=
  tok_of_toks (updFlight_toks ..) k

theorem TokenIs.finish {k fid code detail : Nat} {v : Token} {s t : State} (h : TokenIs k v s t) :
    TokenIs k v s (finish fid code detail t) := h.of_toks rfl (updFlight_toks ..)

/-! ### SET and ADD -/

theorem exec_tokenSet {fid : Nat} {s : State} (h : Running s) : exec (.tokenSet fid) s = .next (tokenSetF fid s) :=
  congrArg Host.Outcome.next (wh_running h _)

theorem exec_tokenAdd {fid : Nat} {s : State} (h : Running s) : exec (.tokenAdd fid) s = .next (tokenAddF fid s) :=
  congrArg Host.Outcome.next (wh_running h _)

theorem exec_tokenAcquire {fid : Nat} {s : State} (h : Running s) : exec (.tokenAcquire fid) s = .next (tokenAcquireF fid s) :=
  congrArg Host.Outcome.next (wh_running h _)

theorem tokFlight_some {s : State} {fid op : Nat} {f : Flight} (h : tokFlight s fid op = some f) :
    flightOf s fid = some f ∧ f.result = none := by
  unfold tokFlight at h
  split at h
  next f' hf =>
    split at h
    next hw =>
      obtain ⟨-, -, hn, -⟩ := hw
      cases h
      exact ⟨hf, hn⟩
    next => cases h
  next => cases h

theorem tokAddV_flights (k n : Nat) (part : Option Nat) (s : State) : (tokAddV k n part s).flights = s.flights :=
  (tokAddV_reach (L := [.regs .tok, .regs .ras, .regs .evr, .toks, .evr, .freeCtr]) (by decide) (by decide) (by decide) (by decide)
    (by decide) (by decide) .rfl').frame .flights (by decide)

theorem tokenSetF_unheld {s : State} {fid : Nat} {f : Flight} (h : tokFlight s fid 0 = some f)
    (hh : heldOn s (tokenBody f).1 = []) :
    tokenSetF fid s = finish fid 0 0 (setTok (tokenBody f).1 (renewed (tokenBody f).2 (tok s (tokenBody f).1)) s) := by
  unfold tokenSetF
  simp only [h]
  rw [tokSetV_eq, settle_none ((heldOn_of_flights (setTok_flights ..) _).trans hh)]

theorem tokenAddF_unheld {s : State} {fid : Nat} {f : Flight} (h : tokFlight s fid 1 = some f)
    (hh : heldOn s (tokenBody f).1 = []) :
    tokenAddF fid s = finish fid 0 0 (tokAddV (tokenBody f).1 (tokenBody f).2 (some f.q) s) := by
  unfold tokenAddF
  simp only [h]
  rw [settle_none ((heldOn_of_flights (tokAddV_flights ..) _).trans hh)]

/-! ### ACQUIRE -/

/-- The descriptor as a held ACQUIRE. -/
def waiting (f : Flight) : Flight := { f with work := .acquire }

/-- An ACQUIRE with its token joins those that the token bank holds. -/
def acquired (fid : Nat) (s : State) : State := updFlight fid waiting s

theorem flightOf_acquired {s : State} {fid : Nat} {f : Flight} (h : flightOf s fid = some f) :
    flightOf (acquired fid s) fid = some (waiting f) := by
  rw [acquired, flightOf_updFlight _ h, updOne, if_pos (flightOf_mem h).2, waiting]

/-- Where none was held, the ACQUIRE that joins is the one held. -/
theorem heldOn_acquired {s : State} (hc : Canonical s) {fid : Nat} {f : Flight} (h : flightOf s fid = some f)
    (hn : f.result = none) (hh : heldOn s (tokenBody f).1 = []) : heldOn (acquired fid s) (tokenBody f).1 = [waiting f] := by
  obtain ⟨hmem, rfl⟩ := flightOf_mem h
  obtain ⟨as, bs, hs, has, hbs⟩ := flights_split hc hmem
  have hkeep (l : List Flight) (hl : ∀ g ∈ l, g.fid ≠ f.fid) : l.map (updOne f.fid waiting) = l :=
    (List.map_congr_left fun g hg => if_neg (hl g hg)).trans l.map_id
  have hf : updOne f.fid waiting f = waiting f := if_pos rfl
  have hnone := List.filter_eq_nil_iff.mp hh
  rw [hs] at hnone
  have has' := List.filter_eq_nil_iff.mpr fun g hg => hnone g (List.mem_append_left _ hg)
  have hbs' := List.filter_eq_nil_iff.mpr fun g hg => hnone g (List.mem_append_right _ (List.mem_cons_of_mem _ hg))
  have hheld : ((waiting f).work == .acquire && (waiting f).result.isNone && (tokenBody (waiting f)).1 == (tokenBody f).1) = true := by
    simp [waiting, hn, tokenBody]
  rw [heldOn, acquired, updFlight_flights, hs, List.map_append, List.map_cons, hkeep as has, hkeep bs hbs, hf,
    List.filter_append, List.filter_cons, if_pos hheld, has', hbs', List.nil_append]

theorem tokenAcquireF_eq {s : State} (hc : Canonical s) {fid : Nat} {f : Flight} (h : tokFlight s fid 2 = some f)
    (hh : heldOn s (tokenBody f).1 = []) : tokenAcquireF fid s =
      if (tokenBody f).2 ≤ (tok s (tokenBody f).1).value ∧ (tok s (tokenBody f).1).poisoned = false then
        finish fid 0 0 (setTok (tokenBody f).1
          { tok s (tokenBody f).1 with value := (tok s (tokenBody f).1).value - (tokenBody f).2 } (acquired fid s))
      else acquired fid s := by
  obtain ⟨hf, hn⟩ := tokFlight_some h
  have htok : tok (acquired fid s) (tokenBody f).1 = tok s (tokenBody f).1 := tok_of_toks (updFlight_toks ..) _
  have hone := settle_one (heldOn_acquired hc hf hn hh)
  rw [htok] at hone
  obtain ⟨-, rfl⟩ := flightOf_mem hf
  unfold tokenAcquireF
  simp only [h]
  exact hone

/-- Settles O11: SET and ADD act on the token at once; an ACQUIRE joins the held ones and is the only one of them. -/
theorem tokenDescriptors : Obligations.TokenDescriptors := by
  unfold Obligations.TokenDescriptors
  intro fid f s hr hc hh k n old ok
  refine ⟨fun h => ?set, fun h hfit => ?add, fun h hle hp => ?taken, fun h hshort => ?held⟩
  case set =>
    obtain ⟨hf, hn⟩ := tokFlight_some h
    refine ⟨_, (exec_tokenSet hr).trans (congrArg _ (tokenSetF_unheld h hh)), (tokenIs_setTok ..).finish, ?_⟩
    exact finish_result 0 0 ((flightOf_of_flights (setTok_flights ..) fid).trans hf) hn
  case add =>
    obtain ⟨hf, hn⟩ := tokFlight_some h
    refine ⟨_, (exec_tokenAdd hr).trans (congrArg _ (tokenAddF_unheld h hh)), (tokAddV_becomes hfit).1.finish, ?_⟩
    exact finish_result 0 0 ((flightOf_of_flights (tokAddV_flights ..) fid).trans hf) hn
  case taken =>
    obtain ⟨hf, hn⟩ := tokFlight_some h
    refine ⟨_, (exec_tokenAcquire hr).trans (congrArg _ ((tokenAcquireF_eq hc h hh).trans (if_pos ⟨hle, hp⟩))), ?_, ?_⟩
    · exact ((tokenIs_setTok ..).of_toks (updFlight_toks ..).symm rfl).finish
    · exact finish_result 0 0 ((flightOf_of_flights (setTok_flights ..) fid).trans (flightOf_acquired hf)) hn
  case held =>
    obtain ⟨hf, hn⟩ := tokFlight_some h
    have hno : ¬(n ≤ old.value ∧ old.poisoned = false) := fun ⟨hle, hp⟩ => by
      rcases hshort with hlt | hpois
      · exact Nat.not_lt.mpr hle hlt
      · exact absurd (hp.symm.trans hpois) (by decide)
    refine ⟨_, (exec_tokenAcquire hr).trans (congrArg _ ((tokenAcquireF_eq hc h hh).trans (if_neg hno))), ?_, ?_⟩
    · exact TokenIs.of_toks ⟨rfl, fun _ _ => rfl⟩ rfl (updFlight_toks ..)
    · exact ⟨_, flightOf_acquired hf, hn, rfl⟩

/-! ### A write that a held ACQUIRE waits for (R50) -/

theorem heldOn_mem {s : State} {k : Nat} {f : Flight} (h : f ∈ heldOn s k) : f ∈ s.flights ∧ f.result = none := by
  obtain ⟨hf, hp⟩ := List.mem_filter.mp h
  simp only [Bool.and_eq_true, Option.isNone_iff_eq_none] at hp
  exact ⟨hf, hp.1.2⟩

/-- Settles O12: the write is the operation, and the one held ACQUIRE is tested on what it leaves. -/
theorem aWriteServesTheHeldAcquire : Obligations.AWriteServesTheHeldAcquire := by
  unfold Obligations.AWriteServesTheHeldAcquire
  intro part k data f s hr hc ho hp hh n
  let u := setTok k (renewed data (tok s k)) s
  have hheld : heldOn u k = [f] := (heldOn_of_flights (setTok_flights ..) k).trans hh
  obtain ⟨hf, hn⟩ := heldOn_mem (hh ▸ List.mem_singleton_self f : f ∈ heldOn s k)
  have hfind : flightOf u f.fid = some f := (flightOf_of_flights (setTok_flights ..) _).trans (flightOf_of_mem hc hf)
  have htok : tok u k = renewed data (tok s k) := tok_setTok_same ..
  have hsettle := settle_one hheld
  rw [htok] at hsettle
  have hstep := (exec_tokenSetWrite part k data s).trans (tokCommand_owner (op := .set data) hr ho hp)
  rw [tokApply_set] at hstep
  refine ⟨_, hstep, ?_⟩
  simp only [tok_answered, flightOf_answered]
  split
  next hle =>
    rw [hsettle, if_pos ⟨hle, hp⟩]
    refine ⟨?_, finish_result 0 0 ((flightOf_of_flights (setTok_flights ..) _).trans hfind) hn⟩
    rw [tok_finish, tok_setTok_same]
    rfl
  next hgt =>
    rw [hsettle, if_neg fun h => hgt h.1]
    exact ⟨congrArg Token.value htok, hfind⟩

end Sys2Proof.Machine
end


section
/-!
PROOFS. Events of the TOK page (R51, R425): an event is counted at its source or among those dropped there, and an operation of
another unit leaves what the source has counted of them.
-/
namespace Sys2Proof.Machine

/-! ### The places of a source -/

/-- How often a key stands counted in the places of a source. -/
def countIn (l : List (EvKey × EvAcc)) (k : EvKey) : Nat :=
  match l.find? fun e => decide (e.1 = k) with
  | some e => e.2.count
  | none => 0

/-- The places of a source with one more event merged into those of its key. -/
def mergedIn (k : EvKey) (a : EvAcc) (l : List (EvKey × EvAcc)) : List (EvKey × EvAcc) :=
  l.map fun e => if e.1 = k then (k, accMerge e.2 a) else e

theorem keyCount_eq (s : State) (k : EvKey) : keyCount s k = countIn (tabGet coalDefault s.evr.coal (srcKey k.src)) k := rfl

theorem countIn_cons (e : EvKey × EvAcc) (l : List (EvKey × EvAcc)) (k : EvKey) :
    countIn (e :: l) k = if e.1 = k then e.2.count else countIn l k := by
  unfold countIn
  by_cases h : e.1 = k <;> simp [h]

theorem mergedIn_cons (k : EvKey) (a : EvAcc) (e : EvKey × EvAcc) (l : List (EvKey × EvAcc)) :
    mergedIn k a (e :: l) = (if e.1 = k then (k, accMerge e.2 a) else e) :: mergedIn k a l := rfl

theorem countIn_merged_other {j k : EvKey} (a : EvAcc) (h : j ≠ k) (l : List (EvKey × EvAcc)) :
    countIn (mergedIn k a l) j = countIn l j := by
  induction l with
  | nil => rfl
  | cons e l ih =>
    rw [mergedIn_cons, countIn_cons, countIn_cons, ih]
    by_cases he : e.1 = k
    · simp [he, h.symm]
    · simp [he]

theorem countIn_merged_same {k : EvKey} {a : EvAcc} {l : List (EvKey × EvAcc)} (h : l.any (fun e => decide (e.1 = k)) = true) :
    countIn (mergedIn k a l) k = min 0xFFFFFFFF (countIn l k + a.count) := by
  induction l with
  | nil => cases h
  | cons e l ih =>
    rw [mergedIn_cons, countIn_cons, countIn_cons]
    by_cases he : e.1 = k
    · simp [he, accMerge]
    · rw [List.any_cons, decide_eq_false he, Bool.false_or] at h
      simp [he, ih h]

theorem countIn_append_other {j k : EvKey} (a : EvAcc) (h : j ≠ k) (l : List (EvKey × EvAcc)) :
    countIn (l ++ [(k, a)]) j = countIn l j := by
  induction l with
  | nil => simp [countIn_cons, h.symm]
  | cons e l ih => rw [List.cons_append, countIn_cons, countIn_cons, ih]

theorem countIn_append_same {k : EvKey} (a : EvAcc) {l : List (EvKey × EvAcc)} (h : l.any (fun e => decide (e.1 = k)) = false) :
    countIn (l ++ [(k, a)]) k = a.count ∧ countIn l k = 0 := by
  induction l with
  | nil => exact ⟨by simp [countIn_cons], rfl⟩
  | cons e l ih =>
    rw [List.any_cons, Bool.or_eq_false_iff, decide_eq_false_iff_not] at h
    obtain ⟨he, hl⟩ := h
    rw [List.cons_append, countIn_cons, countIn_cons, if_neg he, if_neg he]
    exact ih hl

/-! ### One event (R425) -/

/-- The counter of dropped events of a severity. -/
def dropped (s : State) (sev : Nat) : Nat := rg s pgEvr (fldAt Fld.EVR_DROP sev)

theorem drop_ok {sev : Nat} (h : sev < 4) : (fldAt Fld.EVR_DROP sev).ok = true := by
  interval_cases sev <;> rfl

/-- The counter of its severity saturates, and no other counter of dropped events changes. -/
theorem dropped_incSat {sev i : Nat} (hs : sev < 4) (hi : i < 4) (s : State) :
    dropped (incSat pgEvr (fldAt Fld.EVR_DROP sev) 1 s) i = if i = sev then min (dropped s i + 1) 0xFFFFFFFF else dropped s i := by
  unfold dropped incSat
  split
  next h =>
    subst h
    rw [rg_st_same _ _ _ _ (drop_ok hi)]
    show min _ (2 ^ 32 - 1) % 2 ^ 32 = _
    omega
  next h =>
    refine rg_st_key _ _ _ _ _ _ ?_
    simp only [regKey, fldAt, Fld.EVR_DROP]
    omega

theorem dropped_lt (s : State) (sev : Nat) : dropped s sev ≤ 0xFFFFFFFF :=
  Nat.le_of_lt_succ (Nat.mod_lt _ (Nat.two_pow_pos 32))

/-- The recorder behind its page with the key among those seen. -/
def sawKey (k : EvKey) (s : State) : State :=
  { s with evr := { s.evr with seen := if s.evr.seen.contains k then s.evr.seen else k :: s.evr.seen } }

/-- The places of a source become `l`. -/
def setPlaces (pg : Page) (l : List (EvKey × EvAcc)) (s : State) : State :=
  { s with evr := { s.evr with coal := tabSet coalDefault s.evr.coal (srcKey pg) l } }

/-- The places of a source. -/
def places (s : State) (pg : Page) : List (EvKey × EvAcc) := tabGet coalDefault s.evr.coal (srcKey pg)

theorem coalesce_eq (k : EvKey) (a : EvAcc) (s : State) : coalesce k a s =
    if (places s k.src).any (fun e => decide (e.1 = k)) then setPlaces k.src (mergedIn k a (places s k.src)) (sawKey k s)
    else if (places s k.src).length < 4 then setPlaces k.src (places s k.src ++ [(k, a)]) (sawKey k s)
    else incSat pgEvr (fldAt Fld.EVR_DROP a.sev) 1 (sawKey k s) := rfl

theorem keyCount_setPlaces (pg : Page) (l : List (EvKey × EvAcc)) (s : State) (j : EvKey) :
    keyCount (setPlaces pg l s) j = if srcKey j.src = srcKey pg then countIn l j else keyCount s j := by
  rw [keyCount_eq, keyCount_eq, setPlaces]
  simp only [tabGet_tabSet]
  split <;> rfl

theorem dropped_setPlaces (pg : Page) (l : List (EvKey × EvAcc)) (s : State) (i : Nat) :
    dropped (setPlaces pg l s) i = dropped s i := rfl

/-- An event of one key leaves what is counted of another, and no counter of dropped events falls. -/
theorem coalesce_other {j k : EvKey} {a : EvAcc} (hne : j ≠ k) (s : State) :
    keyCount (coalesce k a s) j = keyCount s j := by
  have hsame {l : List (EvKey × EvAcc)} (hl : countIn l j = countIn (places s k.src) j) :
      keyCount (setPlaces k.src l (sawKey k s)) j = keyCount s j := by
    rw [keyCount_setPlaces]
    split
    next hsrc => rw [hl, keyCount_eq, hsrc, places]
    next => rfl
  rw [coalesce_eq]
  split
  · exact hsame (countIn_merged_other a hne _)
  · split
    · exact hsame (countIn_append_other a hne _)
    · have hevr : (incSat pgEvr (fldAt Fld.EVR_DROP a.sev) 1 (sawKey k s)).evr = (sawKey k s).evr := st_evr ..
      rw [keyCount_eq, hevr]
      rfl

theorem coalesce_dropped {k : EvKey} {a : EvAcc} (ha : a.sev < 4) {i : Nat} (hi : i < 4) (s : State) :
    dropped s i ≤ dropped (coalesce k a s) i := by
  rw [coalesce_eq]
  split
  · exact Nat.le_refl _
  · split
    · exact Nat.le_refl _
    · rw [dropped_incSat ha hi]
      have hlt : dropped (sawKey k s) i ≤ 0xFFFFFFFF := dropped_lt ..
      show dropped (sawKey k s) i ≤ _
      split <;> omega

/-- An event is counted at its source or among those dropped there. -/
theorem coalesce_counted {k : EvKey} {a : EvAcc} (ha : a.sev < 4) (hone : a.count = 1) (s : State) :
    Counted k a.sev s (coalesce k a s) := by
  have hat {l : List (EvKey × EvAcc)} (hl : countIn l k = min 0xFFFFFFFF (countIn (places s k.src) k + 1)) :
      Counted k a.sev s (setPlaces k.src l (sawKey k s)) :=
    .inl ((keyCount_setPlaces ..).trans ((if_pos rfl).trans hl))
  rw [coalesce_eq]
  split
  next hany => exact hat (hone ▸ countIn_merged_same hany)
  next hany =>
    split
    next =>
      obtain ⟨hnew, hold⟩ := countIn_append_same a (Bool.not_eq_true _ ▸ hany)
      exact hat (by rw [hnew, hold, hone]; rfl)
    next =>
      have hd := dropped_incSat ha ha (sawKey k s)
      rw [if_pos rfl] at hd
      by_cases hmax : dropped (sawKey k s) a.sev < 0xFFFFFFFF
      · refine .inr (.inl ?_)
        show dropped (sawKey k s) a.sev < dropped _ _
        omega
      · refine .inr (.inr ?_)
        show dropped _ _ = _
        omega

/-! ### Operations of other units -/

/-- What is counted of the TOK page's events stays, and no counter of dropped events falls. -/
structure EventsKept (s t : State) : Prop where
  count : ∀ k : EvKey, k.src.blk = .tok → keyCount t k = keyCount s k
  drop : ∀ sev, sev < 4 → dropped s sev ≤ dropped t sev

namespace EventsKept

variable {s t u : State}

theorem refl (s : State) : EventsKept s s := ⟨fun _ _ => rfl, fun _ _ => Nat.le_refl _⟩

theorem trans (h : EventsKept s t) (h' : EventsKept t u) : EventsKept s u :=
  ⟨fun k hk => (h'.count k hk).trans (h.count k hk), fun i hi => Nat.le_trans (h.drop i hi) (h'.drop i hi)⟩

/-- An operation that does not reach the recorder leaves what is counted. -/
theorem of_reach {L : List Piece} (h : Reach L s t) (he : Piece.evr ∉ L) (hr : Piece.regs .evr ∉ L) : EventsKept s t := by
  have hevr : t.evr = s.evr := h.frame .evr he
  exact ⟨fun k _ => by rw [keyCount_eq, keyCount_eq, hevr], fun _ _ => Nat.le_of_eq (rg_of_reach (pg := pgEvr) h hr _).symm⟩

theorem wh {c : Bool} {f : State → State} (h : ∀ t, EventsKept t (f t)) (s : State) : EventsKept s (Machine.wh c f s) := by
  unfold Machine.wh
  split
  · exact h s
  · exact refl s

theorem foldl {α : Type} {f : State → α → State} (h : ∀ t x, EventsKept t (f t x)) (l : List α) (s : State) :
    EventsKept s (l.foldl f s) :=
  List.foldlRecOn l f (refl s) fun t ht x _ => ht.trans (h t x)

/-- The same of a step that also answers something. -/
theorem foldlFst {α β : Type} {f : State × β → α → State × β} (h : ∀ r x, EventsKept r.1 (f r x).1) (l : List α) (r : State × β) :
    EventsKept r.1 (l.foldl f r).1 :=
  List.foldlRecOn l f (motive := fun q => EventsKept r.1 q.1) (refl r.1) fun q hq x _ => hq.trans (h q x)

end EventsKept

/-- An event counted between two operations of other units is counted by the whole. -/
theorem Counted.congr {k : EvKey} {sev : Nat} {s' s t t' : State} (hk : k.src.blk = .tok) (hsev : sev < 4)
    (hs : EventsKept s' s) (h : Counted k sev s t) (ht : EventsKept t t') : Counted k sev s' t' := by
  rcases h with hcount | hdrop | hmax
  · exact .inl (by rw [ht.count k hk, hcount, hs.count k hk])
  · exact .inr (.inl (Nat.lt_of_le_of_lt (hs.drop sev hsev) (Nat.lt_of_lt_of_le hdrop (ht.drop sev hsev))))
  · exact .inr (.inr (Nat.le_antisymm (dropped_lt t' sev) (hmax ▸ ht.drop sev hsev)))

theorem accOne_sev (sev : Nat) (v : Option (Nat × Nat)) (stamp : Nat) : (accOne sev v stamp).sev = sev := by
  cases v <;> rfl

theorem accOne_count (sev : Nat) (v : Option (Nat × Nat)) (stamp : Nat) : (accOne sev v stamp).count = 1 := by
  cases v <;> rfl

theorem coalesce_eventsKept {k : EvKey} {a : EvAcc} (hk : k.src.blk ≠ .tok) (ha : a.sev < 4) (s : State) :
    EventsKept s (coalesce k a s) :=
  ⟨fun _ hj => coalesce_other (fun e => hk ((congrArg (fun k : EvKey => k.src.blk) e).symm.trans hj)) s,
    fun _ hi => coalesce_dropped ha hi s⟩

/-- What follows the count of an event: the free value it took, and the RAS page's counter of its class. -/
theorem raised_eventsKept (cls : Nat) (s : State) : EventsKept s (rasCount cls (tickFree s)) :=
  .of_reach (rasCount_reach (L := [.regs .ras, .freeCtr]) (by decide) (tickFree_reach (by decide) .rfl')) (by decide) (by decide)

theorem raise_eventsKept {src : Page} {cls code detail sev : Nat} {part : Option Nat} (hsrc : src.blk ≠ .tok) (hsev : sev < 4)
    (s : State) : EventsKept s (raise src cls code detail part sev s) :=
  (coalesce_eventsKept (by exact hsrc) (by rwa [accOne_sev]) s).trans (raised_eventsKept cls _)

theorem raiseV_counted {src : Page} {cls code detail sev v b : Nat} {part : Option Nat} (hsrc : src.blk = .tok) (hsev : sev < 4)
    (s : State) : Counted ⟨src, cls, code, detail, part⟩ sev s (raiseV src cls code detail part sev v b s) := by
  have hone := coalesce_counted (k := ⟨src, cls, code, detail, part⟩) (a := accOne sev (some (v, b)) (stampOf src s.freeCtr))
    hsev rfl s
  exact hone.congr hsrc hsev (.refl s) (raised_eventsKept cls _)

/-- The page of a unit whose events are neither the TOK page's nor kept by the recorder's own page. -/
def elsewhere (pg : Page) : Bool := pg.blk != .tok && pg.blk != .evr

theorem elsewhere_blk {pg : Page} (h : elsewhere pg = true) : pg.blk ≠ .tok ∧ pg.blk ≠ .evr := by
  simpa [elsewhere] using h

theorem countCode_eventsKept {pg : Page} (h : elsewhere pg = true) (code detail : Nat) (part : Option Nat) (s : State) :
    EventsKept s (countCode pg code detail part s) := by
  have hpg := (elsewhere_blk h).1
  unfold countCode
  split
  · exact raise_eventsKept hpg (by decide) s
  · split
    · exact raise_eventsKept hpg (by decide) s
    · split
      · exact raise_eventsKept hpg (by decide) s
      · split <;> exact raise_eventsKept hpg (by decide) s

theorem pageErr_eventsKept {pg : Page} (h : elsewhere pg = true) (code detail : Nat) (part : Option Nat) (s : State) :
    EventsKept s (pageErr pg code detail part s) :=
  (EventsKept.of_reach (setErr_reach (L := [.regs pg.blk]) (by simp) .rfl') (by simp)
    (by simpa using (elsewhere_blk h).2.symm)).trans (countCode_eventsKept h code detail part _)

/-! ### Accesses to memory -/

theorem noteBlock_eventsKept (u code detail : Nat) (s : State) : EventsKept s (noteBlock u code detail s) := by
  unfold noteBlock
  split
  · split <;> exact pageErr_eventsKept rfl _ _ _ s
  · have herr := pageErr_eventsKept (pg := pgMce (mceOf u)) rfl code detail (blockOwner s u) s
    dsimp only
    generalize pageErr (pgMce (mceOf u)) code detail (blockOwner s u) s = t at herr
    have hat : Reach [.regs .mce, .regs .sec] t (st (pgMce (mceOf u)) Fld.MCE_FAIL_LO (u % 2 ^ 23)
      (st (pgMce (mceOf u)) Fld.MCE_FAIL_HI (u / 2 ^ 23) t)) := st_reach (by simp) (st_reach (by simp) .rfl')
    generalize st (pgMce (mceOf u)) Fld.MCE_FAIL_LO (u % 2 ^ 23) (st (pgMce (mceOf u)) Fld.MCE_FAIL_HI (u / 2 ^ 23) t) = v at hat
    have hcounts := wh_reach (x0 := detail == 0x0003) (x1 := inc (pgMce (mceOf u)) Fld.MCE_NODE_FAIL 1)
      (fun _ => inc_reach (by simp)) (.ite (c := code = 0x21) (inc_reach (x0 := pgMce (mceOf u)) (x1 := Fld.MCE_INTEG_FAIL)
        (x2 := 1) (by simp) hat) (inc_reach (x0 := pgMce (mceOf u)) (x1 := Fld.MCE_STALE) (x2 := 1) (by simp) hat))
    refine herr.trans (.of_reach (L := [.regs .mce, .regs .sec]) ?_ (by decide) (by decide))
    split
    · exact .ite (inc_reach (by simp) hcounts) (inc_reach (by simp) hcounts)
    · exact hcounts

theorem blockWrite_eventsKept (u a : Nat) (bs : List Byte) (s : State) : EventsKept s (blockWrite u a bs s).1 := by
  unfold blockWrite
  split
  · exact noteBlock_eventsKept _ _ _ s
  · exact .of_reach (L := [.regs .mce, .mce, .mem]) (freshen_reach (by decide) (by decide) (tagSet_reach (by decide)
      (poke_reach (by decide) .rfl'))) (by decide) (by decide)

theorem writeLine_eventsKept (via : Via) (p fid l a : Nat) (bs : List Byte) (s : State) :
    EventsKept s (writeLine via p fid l a bs s).1 := by
  unfold writeLine
  split
  · exact .refl s
  · have hyard : EventsKept s (if via = .yard then yardWriteLine p l (bs.length == 512) s else yardKillLine l s) :=
      .of_reach (L := [.regs .yrd, .yard]) (.ite (yardWriteLine_reach (by decide) (by decide) .rfl')
        (yardKillLine_reach (by decide) (by decide) .rfl')) (by decide) (by decide)
    dsimp only
    generalize (if via = .yard then yardWriteLine p l (bs.length == 512) s else yardKillLine l s) = y at hyard
    have hpoke : EventsKept y (poke a bs y) := .of_reach (L := [.mem]) (poke_reach (by decide) .rfl') (by decide) (by decide)
    refine hyard.trans ?_
    split
    · exact blockWrite_eventsKept l a bs y
    · exact blockWrite_eventsKept l a bs y
    · exact hpoke
    · split
      · split
        · exact pageErr_eventsKept (pg := pgMemP p) rfl 0x32 _ (some p) y
        · exact hpoke.trans (.of_reach (L := [.accs, .nextTag, .ports]) (leaseAccess_reach (by decide) (by decide) (by decide)
            .rfl') (by decide) (by decide))
      · exact .refl y
    · exact .refl y

theorem memWrite_eventsKept (via : Via) (p fid a : Nat) (bs : List Byte) (s : State) :
    EventsKept s (memWrite via p fid a bs s).1 := by
  unfold memWrite
  refine EventsKept.foldlFst (fun r x => ?_) _ (s, none)
  exact writeLine_eventsKept via p fid x.1 x.2.1 _ r.1

theorem memPut_eventsKept (via : Via) (p a : Nat) (bs : List Byte) (s : State) : EventsKept s (memPut via p a bs s) :=
  memWrite_eventsKept ..

/-! ### What follows a final outcome (R172, R194) -/

theorem tryRead_fst (via : Via) (p a n : Nat) (r : Try) : (tryRead via p a n r).1 = r.1 := by
  unfold tryRead
  split <;> rfl

theorem tryWrite_eventsKept (via : Via) (p a : Nat) (bs : List Byte) (r : Try) : EventsKept r.1 (tryWrite via p a bs r).1 := by
  unfold tryWrite
  split
  · exact .refl _
  · split
    · exact .refl _
    · exact memPut_eventsKept ..

theorem kvLook_eventsKept (p t e : Nat) (r : Try) : EventsKept r.1 (kvLook p t e r).1 :=
  .of_reach (L := [.regs .kvs, .lab, .freeCtr]) (kvLook_reach (by decide) (by decide) (by decide) ⟨.rfl'⟩).out (by decide) (by decide)

theorem kvLeafPut_eventsKept (p t e v : Nat) (r : Try) : EventsKept r.1 (kvLeafPut p t e v r).1 := by
  unfold kvLeafPut
  split
  · exact tryWrite_eventsKept ..
  · exact .refl _

theorem attnScores_eventsKept (f : Flight) (r : Try) : EventsKept r.1 (attnScores f r).1 := by
  unfold attnScores
  split
  · split
    · exact .refl _
    · refine .foldlFst (fun r x => ?_) _ r
      dsimp only
      have hlook := kvLook_eventsKept f.q (atItem f (atSeq r.1 f.q f.cap.list (atItems f.bytes) 0 x.1.1).1).1
        (x.1.2 * kvH r.1 f.q (atItem f (atSeq r.1 f.q f.cap.list (atItems f.bytes) 0 x.1.1).1).1 +
          (atSeq r.1 f.q f.cap.list (atItems f.bytes) 0 x.1.1).2) r
      split
      · exact hlook.trans (kvLeafPut_eventsKept ..)
      · exact hlook
  · exact .refl _

theorem scPut_eventsKept (via : Via) (p t off n v : Nat) (r : Try) : EventsKept r.1 (scPut via p t off n v r).1 :=
  tryWrite_eventsKept ..

theorem scRead_fst (p t : Nat) (r : Try) : (scRead p t r).1 = r.1 := tryRead_fst ..

/-- The references of a SCAN's streams are given back, entry by entry. -/
theorem scanRefs_eventsKept (p : Nat) (ds : List Nat) (r : Try) :
    EventsKept r.1 (ds.foldl (fun r t => scPut .beside p t 4 4 (scF r.1 p t 4 4 - 1) (scRead p t r)) r).1 := by
  refine .foldlFst (fun r t => ?_) _ r
  have h := scPut_eventsKept .beside p t 4 4 (scF r.1 p t 4 4 - 1) (scRead p t r)
  rwa [scRead_fst] at h

/-- The steps of a SCAN count in its streams' entries. -/
theorem scanCounts_eventsKept (f : Flight) (ds : List Nat) (r : Try) :
    EventsKept r.1 (ds.foldl (fun r t => scPut .beside f.q t 16 8 (scF r.1 f.q t 16 8 + scanSteps f t) r) r).1 := by
  refine .foldlFst (fun r t => ?_) ds r
  exact tryWrite_eventsKept ..

theorem scanOutcome_eventsKept (f : Flight) (r : Try) : EventsKept r.1 (scanOutcome f r).1 := by
  unfold scanOutcome
  split
  next w code _ _ =>
    split
    · exact .refl _
    · have hrefs := scanRefs_eventsKept f.q (scDistinct f.bytes f.cap.list) r
      dsimp only
      generalize (scDistinct f.bytes f.cap.list).foldl
        (fun r t => scPut .beside f.q t 4 4 (scF r.1 f.q t 4 4 - 1) (scRead f.q t r)) r = r1 at hrefs
      split
      · exact hrefs
      · have hsteps := hrefs.trans (scanCounts_eventsKept f (scDistinct f.bytes f.cap.list) r1)
        generalize (scDistinct f.bytes f.cap.list).foldl
          (fun r t => scPut .beside f.q t 16 8 (scF r.1 f.q t 16 8 + scanSteps f t) r) r1 = r2 at hsteps
        exact hsteps.trans (.of_reach (L := [.regs .scn, .scn]) (tryDo_reach (fun t ht => .foldl (fun _ _ =>
          scanTurn_reach (by decide)) (inc_reach (by simp) ht)) ⟨.rfl'⟩).out (by decide) (by decide))
  · exact .refl _

end Sys2Proof.Machine
end


section
/-!
PROOFS. Queue controls (R57, R58): the dispatcher's state of one queue, and what each control of the queue's page leaves of it and of
the page.
-/
namespace Sys2Proof.Machine

/-! ### One queue changes -/

theorem qu_of_queues {s t : State} (h : t.queues = s.queues) (q : Nat) : qu t q = qu s q := by rw [qu, qu, h]

theorem qu_of_reach {L : List Piece} {s t : State} (h : Reach L s t) (hL : Piece.queues ∉ L) (q : Nat) : qu t q = qu s q :=
  qu_of_queues (h.frame .queues hL) q

theorem qu_setQu (q p : Nat) (x : Queue) (s : State) : qu (setQu q x s) p = if p = q then x else qu s p := tabGet_tabSet _ _ _ _ _

@[simp] theorem qu_setQu_same (q : Nat) (x : Queue) (s : State) : qu (setQu q x s) q = x := by rw [qu_setQu, if_pos rfl]

theorem qu_setQu_other {q p : Nat} (h : p ≠ q) (x : Queue) (s : State) : qu (setQu q x s) p = qu s p := by
  rw [qu_setQu, if_neg h]

@[simp] theorem qu_st (pg : Page) (f : Fld) (v q : Nat) (s : State) : qu (st pg f v s) q = qu s q := qu_of_queues (st_queues ..) q

@[simp] theorem rg_setQu (q : Nat) (x : Queue) (pg : Page) (f : Fld) (s : State) : rg (setQu q x s) pg f = rg s pg f :=
  rg_of_regs (setQu_regs ..) pg f

/-! ### Accesses to the controls (R437) -/

/-- A write of partition `part` to a control of queue `q`, as the commands of the controls make it. -/
def queueCommand (f : State → State) (part q : Nat) (s : State) : Host.Outcome State Fault Refusal :=
  .next (wh (on s) (atDone (onQueue part q f)) s)

theorem exec_dspQTailWrite (part q : Nat) (data : Word) (s : State) :
    exec (.dspQTailWrite part q data) s = queueCommand (tailWrite q (fldGet Fld.DSP_Q_TAIL data)) part q s := rfl
theorem exec_runSet (part q : Nat) (s : State) : exec (.runSet part q) s = queueCommand (runQueue q) part q s := rfl
theorem exec_runClear (part q : Nat) (s : State) :
    exec (.runClear part q) s = queueCommand (st (pgDsp q) Fld.DSP_Q_CTRL_RUN 0) part q s := rfl
theorem exec_resume (part q : Nat) (s : State) : exec (.resume part q) s = queueCommand (resumeQueue q) part q s := rfl
theorem exec_flush (part q : Nat) (s : State) : exec (.flush part q) s = queueCommand (flushQueue q) part q s := rfl

theorem queueCommand_own {f : State → State} {q : Nat} {s : State} (hr : Ready s) (hq : q < 16) :
    queueCommand f q q s = .next (answerOk (f s)) := by
  rw [queueCommand, atDone_ready hr, onQueue, if_pos ⟨rfl, hq⟩, answerOk]

theorem queueCommand_other {f : State → State} {part q : Nat} {s : State} (hr : Ready s) (h : part ≠ q) :
    queueCommand f part q s = .next { s with bus := (0x20, 0) } := by
  rw [queueCommand, atDone_ready hr, onQueue, if_neg fun e => h e.1]

/-! ### Codes of a queue's page (R442) -/

theorem countCode_only (pg : Page) (code detail : Nat) (part : Option Nat) (s : State) :
    Reach [.regs .ras, .regs .evr, .evr, .freeCtr] s (countCode pg code detail part s) :=
  countCode_reach (by decide) (by decide) (by decide) (by decide) .rfl'

theorem rg_pageErr_dsp (q code detail : Nat) (part : Option Nat) (f : Fld) (s : State) :
    rg (pageErr (pgDsp q) code detail part s) (pgDsp q) f = rg (setErr (pgDsp q) code detail s) (pgDsp q) f :=
  rg_of_reach (pg := pgDsp q) (countCode_only ..) (by simp) f

/-- The fields of a page in which it records a code. -/
def errFields : List Fld := [Fld.PAGE_ERR_ERR, Fld.PAGE_ERR_OVER, Fld.PAGE_ERR_INFO_CODE, Fld.PAGE_ERR_INFO_DETAIL]

/-- A field with no bit in common with some fields. -/
def Fld.beside (l : List Fld) (f : Fld) : Bool := f.ok && l.all fun g => g.ok && g.apart f

theorem rg_st_beside {l : List Fld} {f g : Fld} (h : f.beside l = true) (hg : g ∈ l) (pg : Page) (v : Nat) (s : State) :
    rg (st pg g v s) pg f = rg s pg f := by
  simp only [Fld.beside, Bool.and_eq_true, List.all_eq_true] at h
  obtain ⟨hf, hl⟩ := h
  exact rg_st_apart s pg g f v (hl g hg).1 hf (hl g hg).2

theorem rg_setErr_beside {f : Fld} (h : f.beside errFields = true) (pg : Page) (code detail : Nat) (s : State) :
    rg (setErr pg code detail s) pg f = rg s pg f := by
  unfold setErr
  split
  · rw [rg_st_beside h (by decide), rg_st_beside h (by decide), rg_st_beside h (by decide)]
  · rw [rg_st_beside h (by decide)]

/-- A code stands on the page where none stood; else OVER says that one was met. -/
theorem rg_setErr (pg : Page) (code detail : Nat) (s : State) :
    if rg s pg Fld.PAGE_ERR_ERR = 0 then rg (setErr pg code detail s) pg Fld.PAGE_ERR_ERR = 1 ∧
      rg (setErr pg code detail s) pg Fld.PAGE_ERR_INFO_CODE = code % 2 ^ 8
    else rg (setErr pg code detail s) pg Fld.PAGE_ERR_OVER = 1 := by
  unfold setErr
  split
  · refine ⟨rg_st_same _ _ _ _ (by decide), ?_⟩
    rw [rg_st_apart _ _ _ _ _ (by decide) (by decide) (by decide)]
    exact rg_st_same _ _ _ _ (by decide)
  · exact rg_st_same _ _ _ _ (by decide)

/-! ### Tail, RUN and RESUME -/

theorem refill_stopped {q : Nat} {s : State} (h : qRuns s q = false) : refill q s = s := by
  rw [refill, h]
  rfl

theorem st_dsp_only (q : Nat) (f : Fld) (v : Nat) (s : State) : Only [.regs .dsp] s (st (pgDsp q) f v s) :=
  (st_reach (by simp) .rfl').frame

/-- Settles O13: a control acts only for the partition of its queue, and each clause is one case of the control's own condition. -/
theorem queueControlWrites : Obligations.QueueControlWrites := by
  unfold Obligations.QueueControlWrites
  refine ⟨fun c part q data s hr hne hc => ?others, fun q data s hr hq => ?own⟩
  case others =>
    simp only [List.mem_cons, List.not_mem_nil, or_false] at hc
    rcases hc with rfl | rfl | rfl | rfl | rfl <;> exact queueCommand_other hr hne
  case own =>
    refine ⟨fun u h => refill_stopped h, fun hv => ?tail, fun hv => ?badTail, fun hp => ?run, fun hp => ?runTorn, ?runClear,
      fun hh hp => ?resume, fun hh => ?noResume⟩
    case tail =>
      refine ⟨st (pgDsp q) Fld.DSP_Q_TAIL (fldGet Fld.DSP_Q_TAIL data) s, ?_, ?_, st_dsp_only _ _ _ _,
        onlyFields_st _ _ (by decide) (by simp)⟩
      · rw [exec_dspQTailWrite, queueCommand_own hr hq, tailWrite, if_pos hv, answerOk]
      · exact (rg_st_same _ _ _ _ (by decide)).trans (bits_mod ..)
    case badTail =>
      have hstep : exec (.dspQTailWrite q q data) s = .next (answerOk (pageErr (pgDsp q) 0x13 0 (some q) s)) := by
        rw [exec_dspQTailWrite, queueCommand_own hr hq, tailWrite, if_neg (Nat.not_lt.mpr hv)]
      refine ⟨_, hstep, rfl, ?_, ?_,
        answerOk_only (pageErr_reach (by decide) (by decide) (by simp) (by decide) (by decide) .rfl') (by decide)⟩
      · rw [qTail, rg_answerOk, rg_pageErr_dsp, rg_setErr_beside (by decide), qTail]
      · simp only [rg_answerOk, rg_pageErr_dsp]
        exact rg_setErr ..
    case run =>
      refine ⟨st (pgDsp q) Fld.DSP_Q_CTRL_RUN 1 s, ?_, rg_st_same _ _ _ _ (by decide), st_dsp_only _ _ _ _,
        onlyFields_st _ _ (by decide) (by simp)⟩
      rw [exec_runSet, queueCommand_own hr hq, runQueue, wh, if_pos (bne_iff_ne.mpr hp), answerOk]
    case runTorn =>
      rw [exec_runSet, queueCommand_own hr hq, runQueue, wh, if_neg (by simp [hp]), answerOk]
    case runClear =>
      refine ⟨_, (exec_runClear ..).trans (queueCommand_own hr hq), rfl, ?_, ?_, ?_⟩
      · rw [rg_answerOk]
        exact rg_st_same _ _ _ _ (by decide)
      · exact answerOk_only (st_reach (by simp) .rfl') (by decide)
      · exact (onlyFields_st _ _ (by decide) (by simp)).answerOk
    case resume =>
      refine ⟨setQu q { qu s q with held := false } s, ?_, qu_setQu_same .., fun p hp => qu_setQu_other hp ..,
        (setQu_reach (by decide) .rfl').frame⟩
      rw [exec_resume, queueCommand_own hr hq, resumeQueue, wh, if_pos (by simp [hh, hp]), answerOk]
    case noResume =>
      rw [exec_resume, queueCommand_own hr hq, resumeQueue, wh, if_neg (by rcases hh with h | h <;> simp [h]), answerOk]

/-! ### FLUSH (R58) -/

theorem qu_askEnd_other {q p : Nat} (h : p ≠ q) (s : State) : qu (askEnd q s) p = qu s p := by
  unfold askEnd
  split
  · exact (qu_of_queues rfl p).trans ((qu_setQu_other h _ _).trans (qu_of_queues rfl p))
  · rfl

/-- What the head still waited for is given up: neither a register nor a descriptor in flight is touched. -/
theorem askEnd_only (q : Nat) (s : State) : Reach [.queues, .retrain, .accs] s (askEnd q s) :=
  askEnd_reach (by decide) (by decide) (by decide) .rfl'

/-- A flush after the head has given up what it waited for: the head at the tail, the queue's ACQUIREs withdrawn. -/
def headAtTail (q : Nat) (s : State) : State :=
  { st (pgDsp q) Fld.DSP_Q_HEAD_HEAD_ENTRY (qTail s q) (st (pgDsp q) Fld.DSP_Q_HEAD_HEAD_DESC 0 s) with
    flights := s.flights.filter fun f => !(f.q == q && isAcquire f) }

theorem headAtTail_regs (q : Nat) (s : State) : (headAtTail q s).regs =
    (st (pgDsp q) Fld.DSP_Q_HEAD_HEAD_ENTRY (qTail s q) (st (pgDsp q) Fld.DSP_Q_HEAD_HEAD_DESC 0 s)).regs := rfl

theorem flushQueue_eq (q : Nat) (s : State) : flushQueue q s =
    setQu q ⟨none, none, false, decide (0 < inflightOf (headAtTail q (askEnd q s)) q), none⟩ (headAtTail q (askEnd q s)) := rfl

theorem inflightOf_pos {s : State} {q : Nat} : 0 < inflightOf s q ↔ ∃ f, f ∈ s.flights ∧ f.q = q := by
  simp [inflightOf, List.length_pos_iff_exists_mem]

theorem askEnd_regs (q : Nat) (s : State) : (askEnd q s).regs = s.regs := by
  unfold askEnd
  split <;> rfl

theorem flushQueue_regs (q : Nat) (s : State) : (flushQueue q s).regs = (st (pgDsp q) Fld.DSP_Q_HEAD_HEAD_ENTRY
    (qTail (askEnd q s) q) (st (pgDsp q) Fld.DSP_Q_HEAD_HEAD_DESC 0 (askEnd q s))).regs :=
  (setQu_regs ..).trans (headAtTail_regs ..)

theorem st_regs_congr {s t : State} (h : t.regs = s.regs) (pg : Page) (f : Fld) (v : Nat) :
    (st pg f v t).regs = (st pg f v s).regs := by
  unfold st
  simp only [h]

theorem rg_flushQueue (q : Nat) (f : Fld) (s : State) : rg (flushQueue q s) (pgDsp q) f =
    rg (st (pgDsp q) Fld.DSP_Q_HEAD_HEAD_ENTRY (qTail s q) (st (pgDsp q) Fld.DSP_Q_HEAD_HEAD_DESC 0 s)) (pgDsp q) f := by
  have hregs := askEnd_regs q s
  have htail : qTail (askEnd q s) q = qTail s q := rg_of_regs hregs ..
  have hdesc := st_regs_congr hregs (pgDsp q) Fld.DSP_Q_HEAD_HEAD_DESC 0
  rw [rg_of_regs (flushQueue_regs q s), htail]
  exact rg_of_regs (st_regs_congr hdesc ..) (pgDsp q) f

theorem flushQueue_head (q : Nat) (s : State) : qHead (flushQueue q s) q = qTail s q ∧ qDesc (flushQueue q s) q = 0 := by
  refine ⟨?_, ?_⟩
  · rw [qHead, rg_flushQueue, rg_st_same _ _ _ _ (by decide)]
    exact rg_mod s (pgDsp q) Fld.DSP_Q_TAIL
  · rw [qDesc, rg_flushQueue, rg_st_apart _ _ _ _ _ (by decide) (by decide) (by decide), rg_st_same _ _ _ _ (by decide)]
    rfl

theorem flushQueue_onlyFields (q : Nat) (s : State) :
    OnlyFields [(pgDsp q, Fld.DSP_Q_HEAD_HEAD_ENTRY), (pgDsp q, Fld.DSP_Q_HEAD_HEAD_DESC)] s (flushQueue q s) :=
  (((OnlyFields.of_regs (askEnd_regs q s)).trans (onlyFields_st 0 _ (by decide) (by simp))).trans
    (onlyFields_st _ _ (by decide) (by simp))).trans (.of_regs (flushQueue_regs q s))

theorem flushQueue_flights (q : Nat) (s : State) :
    (flushQueue q s).flights = s.flights.filter fun f => !(f.q == q && isAcquire f) :=
  congrArg (List.filter _) ((askEnd_only q s).frame .flights (by decide))

theorem flushQueue_qu (q : Nat) (s : State) : qu (flushQueue q s) q =
    ⟨none, none, false, decide (0 < inflightOf (flushQueue q s) q), none⟩ := qu_setQu_same ..

theorem flushQueue_qu_other {q p : Nat} (h : p ≠ q) (s : State) : qu (flushQueue q s) p = qu s p :=
  (qu_setQu_other h ..).trans (qu_askEnd_other h s)

/-- Settles O14: the flush leaves a fresh queue whose head is its tail; only its own ACQUIREs leave the flight. -/
theorem flushDiscardsTheQueue : Obligations.FlushDiscardsTheQueue := by
  unfold Obligations.FlushDiscardsTheQueue
  intro q s hr hq
  obtain ⟨hhead, hdesc⟩ := flushQueue_head q s
  have hqu : qu (answerOk (flushQueue q s)) q = _ := flushQueue_qu q s
  refine ⟨_, (exec_flush ..).trans (queueCommand_own hr hq), rfl, ?head, ?desc, ?_, ?_, ?_, ?_, ?flushing,
    fun p hp => flushQueue_qu_other hp s, fun f => ?flights, ?only, (flushQueue_onlyFields q s).answerOk⟩
  case head => rwa [qHead, rg_answerOk]
  case desc => rwa [qDesc, rg_answerOk]
  case flushing =>
    rw [hqu]
    exact decide_eq_true_iff.trans inflightOf_pos
  case flights =>
    show f ∈ (flushQueue q s).flights ↔ _
    rw [flushQueue_flights, List.mem_filter, Bool.not_eq_true', ← Bool.not_eq_true, Bool.and_eq_true, beq_iff_eq]
  case only =>
    exact answerOk_only (flushQueue_reach (by decide) (by decide) (by decide) (by decide) (by decide) (by decide) .rfl') (by decide)
  all_goals rw [hqu]

end Sys2Proof.Machine
end


section
/-!
PROOFS. Completion (R44 to R46, R51): additions to a token, what the report of a descriptor leaves, and a descriptor's way out of the
flight.
-/
namespace Sys2Proof.Machine

/-! ### Additions to a token (R51) -/

/-- The tokens, TOK_SAT_CNT and what is counted of the TOK page's events are as they were. -/
structure TokensKept (s t : State) : Prop where
  toks : t.toks = s.toks
  satCnt : rg t pgTok Fld.TOK_SAT_CNT = rg s pgTok Fld.TOK_SAT_CNT
  events : EventsKept s t

theorem TokensKept.refl (s : State) : TokensKept s s := ⟨rfl, rfl, .refl s⟩

theorem TokensKept.trans {s t u : State} (h : TokensKept s t) (h' : TokensKept t u) : TokensKept s u :=
  ⟨h'.toks.trans h.toks, h'.satCnt.trans h.satCnt, h.events.trans h'.events⟩

theorem TokensKept.of_reach {L : List Piece} {s t : State} (h : Reach L s t) (ht : Piece.toks ∉ L) (hr : Piece.regs .tok ∉ L)
    (he : EventsKept s t) : TokensKept s t := ⟨h.frame .toks ht, rg_of_reach (pg := pgTok) h hr _, he⟩

/-- An addition of `n` to token `k` on behalf of partition `p`: VALUE stops at its top, and there the stop is counted. -/
structure Added (k p n : Nat) (s t : State) : Prop where
  token : TokenIs k { tok s k with value := min ((tok s k).value + n) 0xFFFFFFFF } s t
  counted : 0xFFFFFFFF < (tok s k).value + n → rg t pgTok Fld.TOK_SAT_CNT = (rg s pgTok Fld.TOK_SAT_CNT + 1) % 2 ^ 32 ∧
    Counted ⟨pgTok, 0x09, 0, 4, some p⟩ 0 s t

theorem Added.congr {k p n : Nat} {s' s t t' : State} (hs : TokensKept s' s) (h : Added k p n s t) (ht : TokensKept t t') :
    Added k p n s' t' := by
  have hk : tok s k = tok s' k := tok_of_toks hs.toks k
  refine ⟨hk ▸ h.token.of_toks hs.toks.symm ht.toks, fun hover => ?_⟩
  obtain ⟨hsat, hcount⟩ := h.counted (hk ▸ hover)
  exact ⟨by rw [ht.satCnt, hsat, hs.satCnt], hcount.congr rfl (by decide) hs.events ht.events⟩

/-- The token at the top, with the stop counted in TOK_SAT_CNT. -/
def stoppedAtTop (k : Nat) (s : State) : State :=
  inc pgTok Fld.TOK_SAT_CNT 1 (setTok k { tok s k with value := 0xFFFFFFFF } s)

theorem tokAddV_over {k n : Nat} {part : Option Nat} {s : State} (h : 0xFFFFFFFF < (tok s k).value + n) :
    tokAddV k n part s = raiseV pgTok 0x09 0 4 part 0 1 (binLog 1) (stoppedAtTop k s) := if_neg (Nat.not_le.mpr h)

theorem stoppedAtTop_events (k : Nat) (s : State) : EventsKept s (stoppedAtTop k s) :=
  .of_reach (L := [.regs .tok, .toks]) (inc_reach (by decide) (setTok_reach (by decide) .rfl')) (by decide) (by decide)

theorem raiseV_tok_only (cls code detail sev v b : Nat) (part : Option Nat) (s : State) :
    Reach [.regs .ras, .regs .evr, .evr, .freeCtr] s (raiseV pgTok cls code detail part sev v b s) :=
  raiseV_reach (by decide) (by decide) (by decide) (by decide) .rfl'

theorem tokAddV_added (k p n : Nat) (s : State) : Added k p n s (tokAddV k n (some p) s) := by
  by_cases hfit : (tok s k).value + n ≤ 0xFFFFFFFF
  · refine ⟨?_, fun h => absurd hfit (Nat.not_le.mpr h)⟩
    rw [Nat.min_eq_left hfit]
    exact (tokAddV_becomes hfit).1
  · have hover := Nat.lt_of_not_le hfit
    have hraise := raiseV_tok_only 0x09 0 4 0 1 (binLog 1) (some p) (stoppedAtTop k s)
    rw [tokAddV_over hover]
    refine ⟨?_, fun _ => ⟨?_, (raiseV_counted rfl (by decide) _).congr rfl (by decide) (stoppedAtTop_events k s) (.refl _)⟩⟩
    · rw [Nat.min_eq_right (Nat.le_of_lt hover)]
      exact (tokenIs_setTok k _ s).of_toks rfl ((hraise.frame .toks (by decide)).trans (inc_toks ..))
    · rw [rg_of_reach (pg := pgTok) hraise (by decide), stoppedAtTop, inc, rg_st_same _ _ _ _ (by decide)]
      rfl

/-! ### The numbers in flight -/

/-- The numbers of the descriptors in flight. -/
def fids (s : State) : List Nat := s.flights.map Flight.fid

theorem flightOf_none {s : State} {fid : Nat} : flightOf s fid = none ↔ fid ∉ fids s := by
  simp [flightOf, fids]

theorem fids_updFlight (fid : Nat) (g : Flight → Flight) (s : State) : fids (updFlight fid g s) = fids s := by
  simp [fids, Function.comp_def, updOne_fid]

theorem fids_of_reach {L : List Piece} {s t : State} (h : Reach L s t) (hL : Piece.flights ∉ L) : fids t = fids s :=
  congrArg (List.map Flight.fid) (h.frame .flights hL)

theorem fids_settle (k : Nat) (s : State) : fids (settle k s) = fids s := by
  unfold settle
  generalize heldOn s k = l
  induction l generalizing s with
  | nil => rfl
  | cons f l ih =>
    rw [settleList]
    split
    · exact (ih _).trans ((fids_updFlight ..).trans (congrArg (List.map Flight.fid) (setTok_flights ..)))
    · rfl

/-! ### The report of a descriptor (R37, R44 to R46) -/

/-- The status byte is written. -/
def reportWritten (q : Nat) (b : List Byte) (addr code : Nat) (s : State) : State :=
  wh (!dNoWb b && ownsRange s q (addr + 14) 1) (memPut .beside q (addr + 14) [BitVec.ofNat 8 code]) s

/-- The token of the header is signalled. -/
def reportSignalled (q : Nat) (b : List Byte) (code : Nat) (s : State) : State :=
  wh (dSigEn b && !isF code) (fun s => settle (dSigTok b) (tokAddV (dSigTok b) (dSigInc b) (some q) s)) s

/-- The notification goes out. -/
def reportNotified (q : Nat) (b : List Byte) (entry desc tag code : Nat) (s : State) : State :=
  wh (dNotify b) (fun s => notify q ⟨0, code, q, tag, entry, desc, rg s (pgDsp q) Fld.PAGE_ERR_INFO_DETAIL, 0⟩ s) s

/-- The code holds the queue, or counts on its page. -/
def reportClosed (q entry desc tag code : Nat) (s : State) : State :=
  if isF code then hold q code entry desc tag s else wh (code != 0) (countCode (pgDsp q) code 0 (some q)) s

theorem report_eq (q : Nat) (b : List Byte) (addr entry desc tag code : Nat) (s : State) :
    report q b addr entry desc tag code s = reportClosed q entry desc tag code
      (reportNotified q b entry desc tag code (reportSignalled q b code (reportWritten q b addr code s))) := rfl

theorem reportWritten_reach (q : Nat) (b : List Byte) (addr code : Nat) (s : State) :
    Reach memAccess s (reportWritten q b addr code s) :=
  wh_reach (fun _ => memPut_reach (by decide) (by decide) (by decide) (by decide) (by decide) (by decide) (by decide) (by decide)
    (by decide) (by decide) (by decide) (by decide) (by decide) (by decide) (by decide)) .rfl'

theorem reportWritten_tokens (q : Nat) (b : List Byte) (addr code : Nat) (s : State) :
    TokensKept s (reportWritten q b addr code s) :=
  .of_reach (reportWritten_reach ..) (by decide) (by decide) (.wh (fun _ => memPut_eventsKept ..) s)

theorem reportSignalled_reach (q : Nat) (b : List Byte) (code : Nat) (s : State) :
    Reach [.regs .tok, .regs .ras, .regs .evr, .toks, .flights, .evr, .freeCtr] s (reportSignalled q b code s) :=
  wh_reach (fun _ h => settle_reach (by decide) (by decide) (tokAddV_reach (by decide) (by decide) (by decide) (by decide)
    (by decide) (by decide) h)) .rfl'

theorem fids_reportSignalled (q : Nat) (b : List Byte) (code : Nat) (s : State) : fids (reportSignalled q b code s) = fids s := by
  unfold reportSignalled wh
  split
  · exact (fids_settle ..).trans (congrArg (List.map Flight.fid) (tokAddV_flights ..))
  · rfl

theorem reportSignalled_added {q code : Nat} {b : List Byte} {s : State} (hsig : dSigEn b = true) (hF : isF code = false)
    (hh : heldOn s (dSigTok b) = []) : Added (dSigTok b) q (dSigInc b) s (reportSignalled q b code s) := by
  have hstep : reportSignalled q b code s = tokAddV (dSigTok b) (dSigInc b) (some q) s := by
    rw [reportSignalled, wh, if_pos (by simp [hsig, hF]), settle_none ((heldOn_of_flights (tokAddV_flights ..) _).trans hh)]
  exact hstep ▸ tokAddV_added ..

theorem reportSignalled_none {q code : Nat} {b : List Byte} (h : dSigEn b = false ∨ isF code = true) (s : State) :
    reportSignalled q b code s = s := by
  rw [reportSignalled, wh, if_neg (by rcases h with h | h <;> simp [h])]

theorem reportNotified_reach (q : Nat) (b : List Byte) (entry desc tag code : Nat) (s : State) :
    Reach [.regs .hif, .chans, .out] s (reportNotified q b entry desc tag code s) :=
  wh_reach (fun _ => notify_reach (by decide) (by decide) (by decide)) .rfl'

theorem reportNotified_tokens (q : Nat) (b : List Byte) (entry desc tag code : Nat) (s : State) :
    TokensKept s (reportNotified q b entry desc tag code s) :=
  have h := reportNotified_reach q b entry desc tag code s
  .of_reach h (by decide) (by decide) (.of_reach h (by decide) (by decide))

/-- The pieces that the hold of a queue can change. -/
def holdPieces : List Piece :=
  [.regs .hif, .regs .dsp, .regs .ras, .regs .evr, .queues, .chans, .evr, .out, .freeCtr]

theorem reportClosed_reach (q entry desc tag code : Nat) (s : State) : Reach holdPieces s (reportClosed q entry desc tag code s) :=
  .ite (hold_reach (by decide) (by decide) (by decide) (by decide) (by decide) (by decide) (by decide) (by decide) (by decide) .rfl')
    (wh_reach (fun _ => countCode_reach (by decide) (by decide) (by decide) (by decide)) .rfl')

theorem reportClosed_tokens {code : Nat} (hF : isF code = false) (q entry desc tag : Nat) (s : State) :
    TokensKept s (reportClosed q entry desc tag code s) := by
  refine .of_reach (reportClosed_reach ..) (by decide) (by decide) ?_
  rw [reportClosed, hF]
  exact .wh (fun _ => countCode_eventsKept rfl ..) s

/-! ### The hold (R46) -/

/-- The fields of a queue's page that a hold can write. -/
def holdFields : List Fld :=
  errFields ++ [Fld.DSP_Q_STAT_HOLD_CODE, Fld.DSP_Q_HOLD_AT_ENTRY, Fld.DSP_Q_HOLD_AT_DESC]

/-- A queue that was not held records the code and the place before anything is sent. -/
def heldAt (q code entry desc : Nat) (s : State) : State :=
  st (pgDsp q) Fld.DSP_Q_STAT_HOLD_CODE code (st (pgDsp q) Fld.DSP_Q_HOLD_AT_ENTRY entry
    (st (pgDsp q) Fld.DSP_Q_HOLD_AT_DESC desc (setQu q { qu s q with held := true } s)))

/-- The code of a hold is reported. -/
def holdReported (q code entry desc tag : Nat) (s : State) : State :=
  let s := pageErr (pgDsp q) code desc (some q) s
  notify q ⟨1, code, q, tag, entry, desc, rg s (pgDsp q) Fld.PAGE_ERR_INFO_DETAIL, 0⟩ s

theorem hold_eq (q code entry desc tag : Nat) (s : State) : hold q code entry desc tag s =
    if (qu s q).held then countCode (pgDsp q) code 0 (some q) s else holdReported q code entry desc tag (heldAt q code entry desc s) :=
  rfl

theorem notify_only (q : Nat) (n : Note) (s : State) : Reach [.regs .hif, .chans, .out] s (notify q n s) :=
  notify_reach (by decide) (by decide) (by decide) .rfl'

theorem holdReported_qu (q code entry desc tag p : Nat) (s : State) : qu (holdReported q code entry desc tag s) p = qu s p :=
  (qu_of_reach (notify_only ..) (by decide) p).trans (qu_of_reach (L := [.regs .dsp, .regs .ras, .regs .evr, .evr, .freeCtr])
    (pageErr_reach (by decide) (by decide) (by simp) (by decide) (by decide) .rfl') (by decide) p)

theorem rg_holdReported {f : Fld} (hf : f.beside errFields = true) (q code entry desc tag : Nat) (s : State) :
    rg (holdReported q code entry desc tag s) (pgDsp q) f = rg s (pgDsp q) f := by
  rw [holdReported, rg_of_reach (pg := pgDsp q) (notify_only ..) (by simp), rg_pageErr_dsp, rg_setErr_beside hf]

theorem hold_qu (q code entry desc tag : Nat) (s : State) :
    qu (hold q code entry desc tag s) q = { qu s q with held := true } := by
  rw [hold_eq]
  split
  next h =>
    rw [qu_of_reach (countCode_only ..) (by decide)]
    generalize qu s q = x at h
    cases x
    cases h
    rfl
  next => rw [holdReported_qu, heldAt, qu_st, qu_st, qu_st, qu_setQu_same]

theorem beside_append {l m : List Fld} {f : Fld} (h : f.beside (l ++ m) = true) : f.beside l = true ∧ f.beside m = true := by
  simp only [Fld.beside, List.all_append, Bool.and_eq_true] at h ⊢
  exact ⟨⟨h.1, h.2.1⟩, h.1, h.2.2⟩

theorem rg_hold {f : Fld} (hf : f.beside holdFields = true) (q code entry desc tag : Nat) (s : State) :
    rg (hold q code entry desc tag s) (pgDsp q) f = rg s (pgDsp q) f := by
  obtain ⟨herr, hat⟩ := beside_append hf
  rw [hold_eq]
  split
  · exact rg_of_reach (pg := pgDsp q) (countCode_only ..) (by simp) f
  · rw [rg_holdReported herr, heldAt, rg_st_beside hat (by decide), rg_st_beside hat (by decide), rg_st_beside hat (by decide),
      rg_setQu]

theorem hold_records {q : Nat} {s : State} (h : (qu s q).held = false) (code entry desc tag : Nat) :
    rg (hold q code entry desc tag s) (pgDsp q) Fld.DSP_Q_STAT_HOLD_CODE = code % 2 ^ 8 ∧
    rg (hold q code entry desc tag s) (pgDsp q) Fld.DSP_Q_HOLD_AT_ENTRY = entry % 2 ^ 12 ∧
    rg (hold q code entry desc tag s) (pgDsp q) Fld.DSP_Q_HOLD_AT_DESC = desc % 2 ^ 16 := by
  rw [hold_eq, if_neg (by simp [h]), rg_holdReported (by decide), rg_holdReported (by decide), rg_holdReported (by decide), heldAt]
  refine ⟨rg_st_same _ _ _ _ (by decide), ?_, ?_⟩
  · rw [rg_st_apart _ _ _ _ _ (by decide) (by decide) (by decide)]
    exact rg_st_same _ _ _ _ (by decide)
  · rw [rg_st_apart _ _ _ _ _ (by decide) (by decide) (by decide), rg_st_apart _ _ _ _ _ (by decide) (by decide) (by decide)]
    exact rg_st_same _ _ _ _ (by decide)

theorem reportClosed_qu (q entry desc tag code : Nat) (s : State) :
    qu (reportClosed q entry desc tag code s) q = { qu s q with held := (qu s q).held || isF code } := by
  unfold reportClosed
  split
  next h => rw [hold_qu, h, Bool.or_true]
  next h =>
    rw [Bool.eq_false_of_not_eq_true h, Bool.or_false]
    exact qu_of_reach (wh_reach (L := [.regs .ras, .regs .evr, .evr, .freeCtr]) (fun _ => countCode_reach (by decide) (by decide)
      (by decide) (by decide)) .rfl') (by decide) q

theorem rg_reportClosed {f : Fld} (hf : f.beside holdFields = true) (q entry desc tag code : Nat) (s : State) :
    rg (reportClosed q entry desc tag code s) (pgDsp q) f = rg s (pgDsp q) f := by
  unfold reportClosed
  split
  · exact rg_hold hf ..
  · exact rg_of_reach (pg := pgDsp q) (wh_reach (L := [.regs .ras, .regs .evr, .evr, .freeCtr]) (fun _ => countCode_reach (by decide)
      (by decide) (by decide) (by decide)) .rfl') (by simp) f

/-! ### The report as a whole -/

theorem Same.trans {a s t : State} {k : Piece} (h : Same k a s) (h' : Same k s t) : Same k a t := by
  cases k
  case regs b => exact fun n hn => (h' n hn).trans (h n hn)
  case descriptors =>
    intro f hf
    obtain ⟨g, hg, hfg⟩ := h f hf
    obtain ⟨x, hx, hgx⟩ := h' g hg
    exact ⟨x, hx, continues_trans hfg hgx⟩
  all_goals exact Eq.trans h' h

theorem Reach.comp {L M : List Piece} {a s t : State} (h : Reach L a s) (h' : Reach M s t) : Reach (L ++ M) a t :=
  ⟨fun k hk => (h.frame k fun e => hk (List.mem_append_left _ e)).trans (h'.frame k fun e => hk (List.mem_append_right _ e)),
    fun hc => h'.canon (h.canon hc)⟩

/-- The report up to where the code holds the queue or counts. -/
def reportSent (q : Nat) (b : List Byte) (addr entry desc tag code : Nat) (s : State) : State :=
  reportNotified q b entry desc tag code (reportSignalled q b code (reportWritten q b addr code s))

/-- None of that reaches the dispatcher's side of a queue. -/
theorem reportSent_reach (q : Nat) (b : List Byte) (addr entry desc tag code : Nat) (s : State) :
    Reach (memAccess ++ [.regs .tok, .regs .ras, .regs .evr, .toks, .flights, .evr, .freeCtr] ++ [.regs .hif, .chans, .out]) s
      (reportSent q b addr entry desc tag code s) :=
  ((reportWritten_reach ..).comp (reportSignalled_reach ..)).comp (reportNotified_reach ..)

theorem report_reaches (q : Nat) (b : List Byte) (addr entry desc tag code : Nat) (s : State) :
    Reach (memAccess ++ [.regs .tok, .regs .ras, .regs .evr, .toks, .flights, .evr, .freeCtr] ++ [.regs .hif, .chans, .out] ++
      holdPieces) s (report q b addr entry desc tag code s) :=
  (reportSent_reach ..).comp (reportClosed_reach ..)

theorem report_qu (q : Nat) (b : List Byte) (addr entry desc tag code : Nat) (s : State) :
    qu (report q b addr entry desc tag code s) q = { qu s q with held := (qu s q).held || isF code } := by
  rw [report_eq, reportClosed_qu]
  exact qu_of_reach (reportSent_reach q b addr entry desc tag code s) (by decide) q ▸ rfl

theorem rg_reportSent (q : Nat) (b : List Byte) (addr entry desc tag code : Nat) (f : Fld) (s : State) :
    rg (reportSent q b addr entry desc tag code s) (pgDsp q) f = rg s (pgDsp q) f :=
  rg_of_reach (pg := pgDsp q) (reportSent_reach ..) (show Piece.regs .dsp ∉ _ by decide) f

theorem rg_report {f : Fld} (hf : f.beside holdFields = true) (q : Nat) (b : List Byte) (addr entry desc tag code : Nat) (s : State) :
    rg (report q b addr entry desc tag code s) (pgDsp q) f = rg s (pgDsp q) f := by
  rw [report_eq, rg_reportClosed hf]
  exact rg_reportSent q b addr entry desc tag code f s

/-- A class F code of a descriptor holds its queue, and where none held it yet the place is recorded. -/
theorem report_records {q code : Nat} {s : State} (hF : isF code = true) (h : (qu s q).held = false) (b : List Byte)
    (addr entry desc tag : Nat) :
    rg (report q b addr entry desc tag code s) (pgDsp q) Fld.DSP_Q_STAT_HOLD_CODE = code % 2 ^ 8 ∧
    rg (report q b addr entry desc tag code s) (pgDsp q) Fld.DSP_Q_HOLD_AT_ENTRY = entry % 2 ^ 12 ∧
    rg (report q b addr entry desc tag code s) (pgDsp q) Fld.DSP_Q_HOLD_AT_DESC = desc % 2 ^ 16 := by
  rw [report_eq, reportClosed, if_pos hF]
  exact hold_records (qu_of_reach (reportSent_reach q b addr entry desc tag code s) (by decide) q ▸ h) code entry desc tag

theorem fids_report (q : Nat) (b : List Byte) (addr entry desc tag code : Nat) (s : State) :
    fids (report q b addr entry desc tag code s) = fids s := by
  rw [report_eq, fids_of_reach (reportClosed_reach ..) (by decide), fids_of_reach (reportNotified_reach ..) (by decide),
    fids_reportSignalled, fids_of_reach (reportWritten_reach ..) (by decide)]

theorem toks_of_reach {L : List Piece} {s t : State} (h : Reach L s t) (hL : Piece.toks ∉ L) : t.toks = s.toks := h.frame .toks hL

theorem report_toks {q code : Nat} {b : List Byte} (h : dSigEn b = false ∨ isF code = true) (addr entry desc tag : Nat) (s : State) :
    (report q b addr entry desc tag code s).toks = s.toks := by
  rw [report_eq, reportSignalled_none h, toks_of_reach (reportClosed_reach ..) (by decide),
    toks_of_reach (reportNotified_reach ..) (by decide), toks_of_reach (reportWritten_reach ..) (by decide)]

/-- The signal of a descriptor whose code is not class F is one addition to the token of its header. -/
theorem report_added {q code : Nat} {b : List Byte} {s : State} (hsig : dSigEn b = true) (hF : isF code = false)
    (hh : heldOn s (dSigTok b) = []) (addr entry desc tag : Nat) :
    Added (dSigTok b) q (dSigInc b) s (report q b addr entry desc tag code s) := by
  have hwritten := reportWritten_reach q b addr code s
  have hheld := (heldOn_of_flights (hwritten.frame .flights (by decide)) (dSigTok b)).trans hh
  exact (reportSignalled_added hsig hF hheld).congr (reportWritten_tokens ..)
    ((reportNotified_tokens ..).trans (reportClosed_tokens hF ..))

/-! ### The way out of the flight (R44) -/

/-- The pieces that the score updates and the images of a descriptor can change. -/
def outcomePieces : List Piece := memAccess ++ [.regs .kvs, .regs .scn, .lab, .scn]

/-- A descriptor's score updates or images, where it has any, take effect. -/
def outcomeOf (f : Flight) (code : Nat) (s : State) : Try :=
  scanOutcome f (if isF code then (s, none) else attnScores f (s, none))

theorem outcomeOf_reach (f : Flight) (code : Nat) (s : State) : Reach outcomePieces s (outcomeOf f code s).1 := by
  have hs : ReachP outcomePieces s (s, (none : Option Stop)) := ⟨.rfl'⟩
  exact (scanOutcome_reach (by decide) (by decide) (by decide) (by decide) (by decide) (by decide) (by decide) (by decide)
    (by decide) (by decide) (by decide) (by decide) (by decide) (by decide) (by decide) (by decide) (by decide) (.ite hs
    (attnScores_reach (by decide) (by decide) (by decide) (by decide) (by decide) (by decide) (by decide) (by decide)
    (by decide) (by decide) (by decide) (by decide) (by decide) (by decide) (by decide) (by decide) (by decide) hs))).out

theorem outcomeOf_tokens (f : Flight) (code : Nat) (s : State) : TokensKept s (outcomeOf f code s).1 := by
  refine .of_reach (outcomeOf_reach ..) (by decide) (by decide) (EventsKept.trans ?_ (scanOutcome_eventsKept ..))
  split
  · exact .refl s
  · exact attnScores_eventsKept f (s, none)

theorem replayLog_reaches (f : Flight) (code : Nat) (s : State) : Reach (.regs .dsp :: memAccess) s (replayLog f code s) :=
  replayLog_reach (by decide) (by decide) (by decide) (by decide) (by decide) (by decide) (by decide) (by decide) (by decide)
    (by decide) (by decide) (by decide) (by decide) (by decide) (by decide) (by decide) .rfl'

theorem replayLog_tokens (f : Flight) (code : Nat) (s : State) : TokensKept s (replayLog f code s) := by
  refine .of_reach (replayLog_reaches ..) (by decide) (by decide) ?_
  unfold replayLog
  dsimp only
  split
  · exact .refl s
  · exact (memPut_eventsKept ..).trans (.of_reach (L := [.regs .dsp]) (inc_reach (by simp) .rfl') (by decide) (by decide))

theorem dropFlight_flights (f : Flight) (s : State) :
    (dropFlight f s).flights = s.flights.filter fun g => g.fid != f.fid := by
  unfold dropFlight wh
  dsimp only
  split
  · exact setQu_flights ..
  · rfl

theorem dropFlight_held (f : Flight) (p : Nat) (s : State) : (qu (dropFlight f s) p).held = (qu s p).held := by
  unfold dropFlight wh
  dsimp only
  split
  · rw [qu_setQu]
    split
    next h => rw [h]; rfl
    next => rfl
  · rfl

theorem dropFlight_tokens (f : Flight) (s : State) : TokensKept s (dropFlight f s) :=
  have h : Reach [.queues, .flights, .descriptors, .retrain, .accs] s (dropFlight f s) :=
    dropFlight_reach (by decide) (by decide) (by decide) (by decide) (by decide) .rfl'
  .of_reach h (by decide) (by decide) (.of_reach h (by decide) (by decide))

/-- The state in which a descriptor that completes is reported: what follows its outcome has taken effect, and it has left the
flight. -/
def leftFlight (f : Flight) (code : Nat) (s : State) : State := dropFlight f (replayLog f code (outcomeOf f code s).1)

theorem leftFlight_flights (f : Flight) (code : Nat) (s : State) :
    (leftFlight f code s).flights = s.flights.filter fun g => g.fid != f.fid := by
  have hout : (outcomeOf f code s).1.flights = s.flights := (outcomeOf_reach f code s).frame .flights (by decide)
  have hlog : (replayLog f code (outcomeOf f code s).1).flights = _ := (replayLog_reaches f code _).frame .flights (by decide)
  rw [leftFlight, dropFlight_flights, hlog, hout]

theorem leftFlight_held (f : Flight) (code p : Nat) (s : State) : (qu (leftFlight f code s) p).held = (qu s p).held := by
  rw [leftFlight, dropFlight_held, qu_of_reach (replayLog_reaches ..) (by decide), qu_of_reach (outcomeOf_reach ..) (by decide)]

theorem leftFlight_tokens (f : Flight) (code : Nat) (s : State) : TokensKept s (leftFlight f code s) :=
  ((outcomeOf_tokens ..).trans (replayLog_tokens ..)).trans (dropFlight_tokens ..)

theorem leftFlight_heldOn {s : State} {k : Nat} (h : heldOn s k = []) (f : Flight) (code : Nat) :
    heldOn (leftFlight f code s) k = [] := by
  rw [heldOn, leftFlight_flights, List.filter_comm]
  exact (congrArg (List.filter _) h).trans List.filter_nil

/-- A descriptor is done: its station has given its result, its writes are answered, nothing keeps back its status byte or its
record in the replay log, and what follows its outcome meets no code. -/
structure Completes (s : State) (fid : Nat) (f : Flight) (code : Nat) : Prop where
  flight : flightOf s fid = some f
  result : f.result = some code
  answered : (s.accs.any fun c => c.fid == fid && c.isWrite && !c.done) = false
  status : canReport s f.bytes f.addr = true
  log : logHeld s f = false
  outcome : (outcomeOf f code s).2 = none

theorem completeFlight_reports {s : State} {fid code : Nat} {f : Flight} (h : Completes s fid f code) :
    completeFlight fid s = report f.q f.bytes f.addr f.entry f.desc f.tag code (leftFlight f code s) := by
  obtain ⟨hf, hr, hw, hc, hl, ho⟩ := h
  unfold outcomeOf at ho
  unfold completeFlight
  simp only [hf, hr, hw, hc, hl, ho, Bool.not_true, Bool.or_self, Bool.false_eq_true, if_false]
  rfl

theorem exec_descriptorComplete {fid : Nat} {s : State} (h : Running s) :
    exec (.descriptorComplete fid) s = .next (completeFlight fid s) := congrArg Host.Outcome.next (wh_running h _)

/-- Settles O16: the descriptor leaves the flight, and the report then finds the queue and the token as they were. -/
theorem aDescriptorCompletes : Obligations.ADescriptorCompletes := by
  unfold Obligations.ADescriptorCompletes
  intro fid f code s hr hc hf hres hw hcan hl ho
  have hfid := (flightOf_mem hf).2
  have hdone : Completes s fid f code := ⟨hf, hres, hw, hcan, hl, ho⟩
  refine ⟨_, (exec_descriptorComplete hr).trans (congrArg _ (completeFlight_reports hdone)), ?left, fun g hg hne => ?others, ?held,
    fun hF hno hcode hentry hdesc => ?place, fun hsig hF hh => ?signal, fun hsig => ?unsignalled⟩
  case left =>
    rw [flightOf_none, fids_report, fids, leftFlight_flights]
    simp [hfid]
  case others =>
    have hin : g ∈ (leftFlight f code s).flights := by
      rw [leftFlight_flights, List.mem_filter]
      exact ⟨hg, bne_iff_ne.mpr (hfid ▸ hne)⟩
    exact (report_reaches ..).frame .descriptors (by decide) g hin
  case held => rw [report_qu, leftFlight_held]
  case place =>
    have hplace := report_records hF ((leftFlight_held f code f.q s).trans hno) f.bytes f.addr f.entry f.desc f.tag
    rwa [Nat.mod_eq_of_lt (show code < 2 ^ 8 from hcode), Nat.mod_eq_of_lt hentry, Nat.mod_eq_of_lt hdesc] at hplace
  case signal =>
    exact (Added.congr (leftFlight_tokens f code s) (report_added hsig hF (leftFlight_heldOn hh f code) ..) (.refl _)).token
  case unsignalled => exact (report_toks hsig ..).trans (leftFlight_tokens f code s).toks

/-! ### Every addition saturates (R51) -/

theorem tokensKept_answered (b : Nat × Nat) (s : State) : TokensKept s (answered b s) :=
  ⟨rfl, rfl, fun _ _ => rfl, fun _ _ => Nat.le_refl _⟩

theorem tokensKept_finish (fid code detail : Nat) (s : State) : TokensKept s (finish fid code detail s) :=
  have h : Reach [.flights] s (finish fid code detail s) := finish_reach (by decide) .rfl'
  .of_reach h (by decide) (by decide) (.of_reach h (by decide) (by decide))

/-- What an addition has left, as the statement says it. -/
theorem Added.saturates {k p n : Nat} {s t : State} (h : Added k p n s t) :
    (tok t k).value = min ((tok s k).value + n) 0xFFFFFFFF ∧ (0xFFFFFFFF < (tok s k).value + n →
      TokenIs k { tok s k with value := 0xFFFFFFFF } s t ∧ rg t pgTok Fld.TOK_SAT_CNT = (rg s pgTok Fld.TOK_SAT_CNT + 1) % 2 ^ 32 ∧
        Counted ⟨pgTok, 0x09, 0, 4, some p⟩ 0 s t) := by
  refine ⟨congrArg Token.value h.token.1, fun hover => ⟨?_, h.counted hover⟩⟩
  have htoken := h.token
  rwa [Nat.min_eq_right (Nat.le_of_lt hover)] at htoken

/-- Settles O32: every addition of the block is the one addition of the token bank, with nothing beside it that reaches the tokens. -/
theorem tokenAdditionsSaturate : Obligations.TokenAdditionsSaturate := by
  unfold Obligations.TokenAdditionsSaturate
  intro part k data fid s hr hc hh hv old added
  refine ⟨fun hb ho hp => ⟨?addRead, ?addWrite, ?decRead, ?decWrite⟩, fun f hf hk => ?descriptor,
    fun f code hf hres hF hw hcan hl ho hsig hk => ?signal⟩
  case addRead =>
    exact ⟨_, tokCommand_unheld (op := .addR) ⟨hr, hb⟩ ho hp hh,
      ((tokAddV_added ..).congr (.refl s) (tokensKept_answered ..)).saturates⟩
  case addWrite =>
    exact ⟨_, tokCommand_unheld (op := .add data) ⟨hr, hb⟩ ho hp hh,
      ((tokAddV_added ..).congr (.refl s) (tokensKept_answered ..)).saturates⟩
  case decRead =>
    obtain ⟨t, ht, hbecomes, -⟩ := tokCommand_becomes (op := .decR) ⟨hr, hb⟩ ho hp hh (tokApply_decR_becomes part k s)
    refine ⟨t, ht, ?_⟩
    show (tok t k).value ≤ (tok s k).value
    rw [hbecomes.1.1]
    exact Nat.sub_le ..
  case decWrite =>
    obtain ⟨t, ht, hbecomes, -⟩ := tokCommand_becomes (op := .dec data) ⟨hr, hb⟩ ho hp hh (tokDec_becomes k (data % 2 ^ 32) s)
    refine ⟨t, ht, ?_⟩
    show (tok t k).value ≤ (tok s k).value
    rw [hbecomes.1.1]
    split
    · exact Nat.sub_le ..
    · exact Nat.le_refl _
  case descriptor =>
    subst hk
    exact ⟨_, (exec_tokenAdd hr).trans (congrArg _ (tokenAddF_unheld hf hh)),
      ((tokAddV_added ..).congr (.refl s) (tokensKept_finish ..)).saturates⟩
  case signal =>
    subst hk
    have hdone : Completes s fid f code := ⟨hf, hres, hw, hcan, hl, by rw [outcomeOf, hF]; exact ho⟩
    exact ⟨_, (exec_descriptorComplete hr).trans (congrArg _ (completeFlight_reports hdone)),
      ((report_added hsig hF (leftFlight_heldOn hh f code) ..).congr (leftFlight_tokens f code s) (.refl _)).saturates⟩

end Sys2Proof.Machine
end

section
/-!
PROOFS. Issue (R42, R43, R46, R47): the head that the dispatcher serves moves on, and its descriptor is in flight or complete.
-/
namespace Sys2Proof.Machine

/-! ### The head moves on -/

/-- The head of queue `q`, whose entry was `e`, has been served. -/
structure HeadMoved (q : Nat) (e : HeadEntry) (s t : State) : Prop where
  last : t.lastServed = q
  unread : (qu t q).desc = none
  issued : rg t (pgDsp q) Fld.DSP_Q_ISSUED = (rg s (pgDsp q) Fld.DSP_Q_ISSUED + 1) % 2 ^ 32
  place : if qDesc s q + 1 < e.count then qHead t q = qHead s q ∧ qDesc t q = (qDesc s q + 1) % 2 ^ 16
    else qHead t q = (qHead s q + 1) % qSize s q % 2 ^ 12 ∧ qDesc t q = 0 ∧ (qu t q).entry = none

/-- What follows the head's move may write the fields of a hold and hold the queue. -/
theorem HeadMoved.congr {q : Nat} {e : HeadEntry} {s t t' : State} (h : HeadMoved q e s t) (hlast : t'.lastServed = t.lastServed)
    (hdesc : (qu t' q).desc = (qu t q).desc) (hentry : (qu t' q).entry = (qu t q).entry)
    (hr : ∀ f : Fld, f.beside holdFields = true → rg t' (pgDsp q) f = rg t (pgDsp q) f) : HeadMoved q e s t' := by
  obtain ⟨hl, hu, hi, hp⟩ := h
  refine ⟨hlast.trans hl, hdesc.trans hu, (hr _ (by decide)).trans hi, ?_⟩
  have hhead : qHead t' q = qHead t q := hr Fld.DSP_Q_HEAD_HEAD_ENTRY (by decide)
  have hat : qDesc t' q = qDesc t q := hr Fld.DSP_Q_HEAD_HEAD_DESC (by decide)
  rwa [hhead, hat, hentry]

/-- The queue counts as served last, and its descriptor as issued. -/
def countedServed (q : Nat) (s : State) : State := { inc (pgDsp q) Fld.DSP_Q_ISSUED 1 s with lastServed := q }

theorem departHead_eq (q : Nat) (s : State) : departHead q s = nextDesc q (countedServed q s) := rfl

theorem qu_countedServed (q p : Nat) (s : State) : qu (countedServed q s) p = qu s p :=
  (qu_of_queues (s := inc (pgDsp q) Fld.DSP_Q_ISSUED 1 s) rfl p).trans (qu_st ..)

theorem rg_countedServed {f : Fld} (hf : f.beside [Fld.DSP_Q_ISSUED] = true) (q : Nat) (s : State) :
    rg (countedServed q s) (pgDsp q) f = rg s (pgDsp q) f := rg_st_beside hf (List.mem_singleton.mpr rfl) (pgDsp q) _ s

theorem countedServed_issued (q : Nat) (s : State) :
    rg (countedServed q s) (pgDsp q) Fld.DSP_Q_ISSUED = (rg s (pgDsp q) Fld.DSP_Q_ISSUED + 1) % 2 ^ 32 :=
  rg_st_same s _ _ _ (by decide)

theorem nextDesc_within {q : Nat} {e : HeadEntry} {s : State} (he : (qu s q).entry = some e) (h : qDesc s q + 1 < e.count) :
    nextDesc q s = setQu q { qu s q with desc := none } (st (pgDsp q) Fld.DSP_Q_HEAD_HEAD_DESC (qDesc s q + 1) s) := by
  simp only [nextDesc, he, h, if_true]

theorem nextDesc_last {q : Nat} {e : HeadEntry} {s : State} (he : (qu s q).entry = some e) (h : ¬ qDesc s q + 1 < e.count) :
    nextDesc q s = nextEntry q s := by
  simp only [nextDesc, he, h, if_false]

theorem qu_nextEntry (q : Nat) (s : State) : qu (nextEntry q s) q = { qu s q with entry := none, desc := none } :=
  qu_setQu_same ..

theorem rg_nextEntry {f : Fld} (hf : f.beside [Fld.DSP_Q_HEAD_HEAD_ENTRY, Fld.DSP_Q_HEAD_HEAD_DESC] = true) (q : Nat) (s : State) :
    rg (nextEntry q s) (pgDsp q) f = rg s (pgDsp q) f := by
  rw [nextEntry, rg_setQu, rg_st_beside hf (by decide), rg_st_beside hf (by decide)]

theorem qHead_nextEntry (q : Nat) (s : State) : qHead (nextEntry q s) q = (qHead s q + 1) % qSize s q % 2 ^ 12 :=
  (rg_setQu ..).trans (rg_st_same _ _ _ _ (by decide))

theorem qDesc_nextEntry (q : Nat) (s : State) : qDesc (nextEntry q s) q = 0 :=
  (rg_setQu ..).trans ((rg_st_apart _ _ _ _ _ (by decide) (by decide) (by decide)).trans (rg_st_same _ _ _ _ (by decide)))

theorem departHead_only (q : Nat) (s : State) : Reach [.regs .dsp, .queues, .lastServed] s (departHead q s) :=
  departHead_reach (by simp) (by decide) (by decide) .rfl'

theorem departHead_flights (q : Nat) (s : State) : (departHead q s).flights = s.flights :=
  (departHead_only q s).frame .flights (by decide)

theorem departHead_nextFid (q : Nat) (s : State) : (departHead q s).nextFid = s.nextFid :=
  (departHead_only q s).frame .nextFid (by decide)

theorem departHead_tokens (q : Nat) (s : State) : TokensKept s (departHead q s) :=
  .of_reach (departHead_only q s) (by decide) (by decide) (.of_reach (departHead_only q s) (by decide) (by decide))

theorem nextDesc_lastServed (q : Nat) (s : State) : (nextDesc q s).lastServed = s.lastServed :=
  (nextDesc_reach (L := [.regs .dsp, .queues]) (by simp) (by decide) .rfl').frame .lastServed (by decide)

theorem departHead_moved {q : Nat} {e : HeadEntry} {s : State} (he : (qu s q).entry = some e) :
    HeadMoved q e s (departHead q s) := by
  have hlast : (departHead q s).lastServed = q := nextDesc_lastServed q (countedServed q s)
  have hentry : (qu (countedServed q s) q).entry = some e := (congrArg Queue.entry (qu_countedServed q q s)).trans he
  have hat : qDesc (countedServed q s) q = qDesc s q := rg_countedServed (by decide) q s
  have hhead : qHead (countedServed q s) q = qHead s q := rg_countedServed (by decide) q s
  have hsize : qSize (countedServed q s) q = qSize s q := congrArg (2 ^ ·) (rg_countedServed (by decide) q s)
  by_cases hin : qDesc s q + 1 < e.count
  · have hstep := (departHead_eq q s).trans (nextDesc_within hentry (hat ▸ hin))
    rw [hstep] at hlast ⊢
    refine ⟨hlast, by rw [qu_setQu_same], ?_, ?_⟩
    · rw [rg_setQu, rg_st_apart _ _ _ _ _ (by decide) (by decide) (by decide), countedServed_issued]
    · rw [if_pos hin, hat]
      exact ⟨(rg_setQu ..).trans ((rg_st_apart _ _ _ _ _ (by decide) (by decide) (by decide)).trans hhead),
        (rg_setQu ..).trans (rg_st_same _ _ _ _ (by decide))⟩
  · have hstep := (departHead_eq q s).trans (nextDesc_last hentry (hat ▸ hin))
    rw [hstep] at hlast ⊢
    refine ⟨hlast, by rw [qu_nextEntry], ?_, ?_⟩
    · rw [rg_nextEntry (by decide), countedServed_issued]
    · rw [if_neg hin, qHead_nextEntry, hhead, hsize, qDesc_nextEntry, qu_nextEntry]
      exact ⟨rfl, rfl, rfl⟩

theorem nextDesc_held (q : Nat) (s : State) : (qu (nextDesc q s) q).held = (qu s q).held := by
  unfold nextDesc
  split
  · split
    · rw [qu_setQu_same]
    · rw [qu_nextEntry]
  · rfl

theorem departHead_held (q : Nat) (s : State) : (qu (departHead q s) q).held = (qu s q).held :=
  (nextDesc_held ..).trans (congrArg Queue.held (qu_countedServed q q s))

/-! ### The head that is served (R42, R43) -/

/-- The descriptor completes at the head: it is a FENCE, its code is class F, or it is empty (R42, R47). -/
def EndsAtHead (d : HeadDesc) : Prop := isF d.code = true ∨ dOp d.bytes = 0x0C ∨ (d.code = 0x01 ∧ dOp d.bytes ≠ 0x08)

theorem serve_completes {q : Nat} {d : HeadDesc} {s : State} (hd : (qu s q).desc = some d) (h : EndsAtHead d) :
    serve q s = completeHead q d.code s := by
  simp only [serve, hd]
  exact if_pos h

theorem serve_handsOver {q : Nat} {d : HeadDesc} {s : State} (hd : (qu s q).desc = some d) (h : ¬ EndsAtHead d) :
    serve q s = handOver q s := by
  simp only [serve, hd]
  exact if_neg h

theorem completeHead_eq {q : Nat} {e : HeadEntry} {d : HeadDesc} {s : State} (he : (qu s q).entry = some e)
    (hd : (qu s q).desc = some d) (code : Nat) : completeHead q code s =
      report q d.bytes d.addr (qHead s q) (qDesc s q) e.tag code (departHead q s) := by
  simp only [completeHead, he, hd]

section
variable {q : Nat} {e : HeadEntry} {d : HeadDesc} {s : State} (he : (qu s q).entry = some e) (hd : (qu s q).desc = some d)
include he hd

theorem completeHead_moved (code : Nat) : HeadMoved q e s (completeHead q code s) := by
  rw [completeHead_eq he hd]
  exact (departHead_moved he).congr ((report_reaches ..).frame .lastServed (by decide)) (by rw [report_qu]) (by rw [report_qu])
    fun f hf => rg_report hf ..

theorem completeHead_nextFid (code : Nat) : (completeHead q code s).nextFid = s.nextFid := by
  rw [completeHead_eq he hd, ← departHead_nextFid q s]
  exact (report_reaches ..).frame .nextFid (by decide)

theorem completeHead_held (code : Nat) : (qu (completeHead q code s) q).held = ((qu s q).held || isF code) := by
  rw [completeHead_eq he hd, report_qu, departHead_held]

theorem completeHead_continues (code : Nat) {f : Flight} (hf : f ∈ s.flights) :
    ∃ g, g ∈ (completeHead q code s).flights ∧ Continues f g := by
  rw [completeHead_eq he hd]
  exact (report_reaches ..).frame .descriptors (by decide) f (departHead_flights q s ▸ hf)

theorem completeHead_added {code : Nat} (hsig : dSigEn d.bytes = true) (hF : isF code = false)
    (hh : heldOn s (dSigTok d.bytes) = []) :
    Added (dSigTok d.bytes) q (dSigInc d.bytes) s (completeHead q code s) := by
  rw [completeHead_eq he hd]
  have hheld := (heldOn_of_flights (departHead_flights q s) (dSigTok d.bytes)).trans hh
  exact (report_added hsig hF hheld ..).congr (departHead_tokens q s) (.refl _)

end

/-- The descriptor at the head as it goes into the flight. -/
def issuedFlight (q : Nat) (e : HeadEntry) (d : HeadDesc) (s : State) : Flight :=
  let f : Flight :=
    { fid := s.nextFid, q := q, entry := qHead s q, desc := qDesc s q, tag := e.tag, addr := d.addr, bytes := d.bytes, cap := d.cap
      seq := rg (departHead q s) (pgDsp q) Fld.DSP_Q_ISSUED, station := .disp, snap := none, work := .none, result := none
      detail := 0, replays := 0 }
  { f with station := stationOf f }

/-- The descriptor is in flight, under the next number. -/
def issuedOne (q : Nat) (e : HeadEntry) (d : HeadDesc) (s : State) : State :=
  { departHead q s with flights := s.flights ++ [issuedFlight q e d s], nextFid := s.nextFid + 1 }

theorem handOver_eq {q : Nat} {e : HeadEntry} {d : HeadDesc} {s : State} (he : (qu s q).entry = some e)
    (hd : (qu s q).desc = some d) :
    handOver q s = wh (dOp d.bytes == 0x0E) (leaseIssue (issuedFlight q e d s)) (issuedOne q e d s) := by
  simp only [handOver, he, hd, issuedOne, issuedFlight, departHead_flights, departHead_nextFid]

/-- Beyond the flight a LEASE has its lease; nothing else is touched. -/
theorem handOver_only {q : Nat} {e : HeadEntry} {d : HeadDesc} {s : State} (he : (qu s q).entry = some e)
    (hd : (qu s q).desc = some d) : Reach [.leases] (issuedOne q e d s) (handOver q s) :=
  handOver_eq he hd ▸ wh_reach (fun _ => leaseIssue_reach (by decide)) .rfl'

theorem handOver_moved {q : Nat} {e : HeadEntry} {d : HeadDesc} {s : State} (he : (qu s q).entry = some e)
    (hd : (qu s q).desc = some d) : HeadMoved q e s (handOver q s) := by
  have hq : qu (handOver q s) q = qu (departHead q s) q := qu_of_reach (handOver_only he hd) (by decide) q
  exact (departHead_moved he).congr ((handOver_only he hd).frame .lastServed (by decide)) (by rw [hq]) (by rw [hq])
    fun f _ => rg_of_reach (pg := pgDsp q) (handOver_only he hd) (by simp) f

theorem serve_moved {q : Nat} {e : HeadEntry} {d : HeadDesc} {s : State} (he : (qu s q).entry = some e)
    (hd : (qu s q).desc = some d) : HeadMoved q e s (serve q s) := by
  by_cases hend : EndsAtHead d
  · exact serve_completes hd hend ▸ completeHead_moved he hd _
  · exact serve_handsOver hd hend ▸ handOver_moved he hd

/-- The state in which the dispatcher chooses: it has read the heads that stood unread. -/
def headsRead (s : State) : State := (serveOrder s).foldl (fun s q => refill q s) s

theorem exec_dispatchIssue {s : State} (h : Running s) : exec .dispatchIssue s = .next (dispatch s) :=
  congrArg Host.Outcome.next (wh_running h _)

theorem dispatch_none {s : State} (h : nextServed (headsRead s) = none) : dispatch s = headsRead s := by
  unfold headsRead at h
  simp only [dispatch, h]
  rfl

theorem dispatch_some {s : State} {q : Nat} (h : nextServed (headsRead s) = some q) :
    dispatch s = refill q (serve q (headsRead s)) := by
  unfold headsRead at h
  simp only [dispatch, h]
  rfl

/-- Settles O15: a head that ends where it stands is reported there; any other is in flight. -/
theorem theDispatcherIssuesOneHead : Obligations.TheDispatcherIssuesOneHead := by
  unfold Obligations.TheDispatcherIssuesOneHead
  intro s hr r
  have hexec := exec_dispatchIssue hr
  refine ⟨fun hnone => hexec.trans (congrArg _ (dispatch_none hnone)), fun q e d hq he hd => ?_⟩
  obtain ⟨hlast, hunread, hissued, hplace⟩ := serve_moved he hd
  refine ⟨serve q r, hexec.trans (congrArg _ (dispatch_some hq)), hlast, hunread, hissued, hplace, ?_⟩
  by_cases hend : EndsAtHead d
  · rw [serve_completes hd hend]
    refine if_pos hend ▸ ⟨completeHead_nextFid he hd _, fun hF => ?_⟩
    rw [completeHead_held he hd, hF, Bool.or_true]
  · rw [serve_handsOver hd hend]
    have honly := handOver_only he hd
    have hseq : rg (handOver q r) (pgDsp q) Fld.DSP_Q_ISSUED = (issuedFlight q e d r).seq :=
      rg_of_reach (pg := pgDsp q) honly (by simp) _
    refine if_neg hend ▸ ⟨honly.frame .nextFid (by decide), issuedFlight q e d r, honly.frame .flights (by decide), rfl, rfl, rfl, rfl,
      rfl, rfl, rfl, rfl, hseq.symm, rfl, rfl, rfl⟩

/-! ### A FENCE at the head (R47) -/

theorem exec_fence {q : Nat} {s : State} (h : Running s) : exec (.fence q) s = .next (fenceGo q s) :=
  congrArg Host.Outcome.next (wh_running h _)

theorem headReady_runs {s : State} {q : Nat} (h : headReady s q = true) : qRuns s q = true := by
  unfold headReady at h
  split at h
  · exact (Bool.and_eq_true_iff.mp h).1
  · exact absurd h Bool.false_ne_true

theorem qRuns_unheld {s : State} {q : Nat} (h : qRuns s q = true) : (qu s q).held = false := by
  simp only [qRuns, Bool.and_eq_true, Bool.not_eq_true'] at h
  exact h.1.2

/-- The head of queue `q` is a FENCE that passed its checks. -/
structure FenceAtHead (q : Nat) (d : HeadDesc) (s : State) : Prop where
  read : (qu s q).desc = some d
  op : dOp d.bytes = 0x0C
  passed : d.code = 0

theorem FenceAtHead.drained {q : Nat} {d : HeadDesc} {s : State} (h : FenceAtHead q d s) (hready : headReady s q = true) :
    inflightOf s q = 0 := by
  obtain ⟨hd, hop, hcode⟩ := h
  have hF : isF 0 = false := rfl
  simp only [headReady, hd, hop, hcode, hF, Bool.false_eq_true, if_false, if_true, Bool.and_eq_true, beq_iff_eq] at hready
  exact hready.2.1.2

theorem FenceAtHead.ends {q : Nat} {d : HeadDesc} {s : State} (h : FenceAtHead q d s) : EndsAtHead d := .inr (.inl h.op)

theorem fenceGo_served {q : Nat} {d : HeadDesc} {s : State} (h : FenceAtHead q d s) (hnext : nextServed s = some q) :
    fenceGo q s = refill q (completeHead q 0 s) := by
  have hat : fenceAt s q = true := by simp [fenceAt, h.read, h.op, h.passed]
  rw [fenceGo, if_pos ⟨hnext, hat⟩, serve_completes h.read h.ends, h.passed]

theorem fenceGo_waits {q : Nat} {s : State} (h : nextServed s ≠ some q) : fenceGo q s = s := if_neg fun hgo => h hgo.1

/-- Settles O17: a FENCE whose turn has come is reported at the head; a head that is not ready is not served. -/
theorem aFenceCompletesAtTheHead : Obligations.AFenceCompletesAtTheHead := by
  unfold Obligations.AFenceCompletesAtTheHead
  intro q e d s hr he hd hop hcode
  have hfence : FenceAtHead q d s := ⟨hd, hop, hcode⟩
  refine ⟨fun hnext => ?served, fun hwait => ?waits⟩
  case served =>
    have hunheld := qRuns_unheld (headReady_runs (List.find?_some hnext))
    have hheld : (qu (completeHead q 0 s) q).held = false := by rw [completeHead_held he hd, hunheld]; rfl
    obtain ⟨hlast, hunread, hissued, hplace⟩ := completeHead_moved he hd 0
    exact ⟨completeHead q 0 s, (exec_fence hr).trans (congrArg _ (fenceGo_served hfence hnext)), hlast, hunread, hheld,
      completeHead_nextFid he hd 0, fun f hf => completeHead_continues he hd 0 hf, hissued, hplace,
      fun hsig hh => (completeHead_added he hd hsig rfl hh).token⟩
  case waits =>
    have hnot : nextServed s ≠ some q := fun hnext => hwait.elim (fun hbusy => hbusy (hfence.drained (List.find?_some hnext)))
      fun hother => hother hnext
    exact (exec_fence hr).trans (congrArg _ (fenceGo_waits hnot))

end Sys2Proof.Machine
end

section
/-!
PROOFS. The arrays (R60, R65, R71, R80): what an operation leaves of each array, its counters, and what an array that works on keeps.
-/
namespace Sys2Proof.Machine

/-! ### Fields across an operation -/

theorem mem_of_reach {L : List Piece} {s t : State} (h : Reach L s t) (hL : Piece.mem ∉ L) : t.mem = s.mem := h.frame .mem hL

theorem flights_of_reach {L : List Piece} {s t : State} (h : Reach L s t) (hL : Piece.flights ∉ L) : t.flights = s.flights :=
  h.frame .flights hL

theorem parts_of_reach {L : List Piece} {s t : State} (h : Reach L s t) (hL : Piece.parts ∉ L) : t.parts = s.parts :=
  h.frame .parts hL

theorem arrs_of_reach {L : List Piece} {s t : State} (h : Reach L s t) (hL : Piece.arrs ∉ L) : t.arrs = s.arrs := h.frame .arrs hL

/-! ### One array changes -/

theorem arr_of_arrs {s t : State} (h : t.arrs = s.arrs) (n : Nat) : arr t n = arr s n := by rw [arr, arr, h]

theorem arr_of_reach {L : List Piece} {s t : State} (h : Reach L s t) (hL : Piece.arrs ∉ L) (n : Nat) : arr t n = arr s n :=
  arr_of_arrs (arrs_of_reach h hL) n

theorem arr_setArr (n m : Nat) (a : Arr) (s : State) : arr (setArr n a s) m = if m = n then a else arr s m := tabGet_tabSet _ _ _ _ _

@[simp] theorem arr_setArr_same (n : Nat) (a : Arr) (s : State) : arr (setArr n a s) n = a := by rw [arr_setArr, if_pos rfl]

theorem arr_setArr_other {n m : Nat} (h : m ≠ n) (a : Arr) (s : State) : arr (setArr n a s) m = arr s m := by
  rw [arr_setArr, if_neg h]

/-- Array `n` became `a`, and nothing else changed. -/
structure ArrBecomes (n : Nat) (a : Arr) (s t : State) : Prop where
  here : arr t n = a
  others : ∀ m, m ≠ n → arr t m = arr s m
  only : Reach [.arrs] s t

theorem arrBecomes_setArr (n : Nat) (a : Arr) (s : State) : ArrBecomes n a s (setArr n a s) :=
  ⟨arr_setArr_same n a s, fun _ h => arr_setArr_other h a s, setArr_reach (by simp) .rfl'⟩

theorem Reach.arrs_trans {s t u : State} (h : Reach [.arrs] s t) (h' : Reach [.arrs] t u) : Reach [.arrs] s u :=
  (h.comp h').mono (by simp)

theorem ArrBecomes.trans {n : Nat} {a b : Arr} {s t u : State} (h : ArrBecomes n a s t) (h' : ArrBecomes n b t u) :
    ArrBecomes n b s u :=
  ⟨h'.here, fun m hm => (h'.others m hm).trans (h.others m hm), h.only.arrs_trans h'.only⟩

/-! ### Counters (R71, R80) -/

/-- An array with `k` added to its live counter `i`. -/
def Arr.counted (a : Arr) (i k : Nat) : Arr := { a with cnt := a.cnt.set i ((a.cnt.getD i 0 + k) % 2 ^ 64) }

theorem arrCount_becomes (n i k : Nat) (s : State) : ArrBecomes n ((arr s n).counted i k) s (arrCount n i k s) :=
  arrBecomes_setArr ..

theorem ArrBecomes.count {n : Nat} {a : Arr} {s t : State} (h : ArrBecomes n a s t) (i k : Nat) :
    ArrBecomes n (a.counted i k) s (arrCount n i k t) := h.trans (h.here ▸ arrCount_becomes ..)

@[simp] theorem Arr.counted_length (a : Arr) (i k : Nat) : (a.counted i k).cnt.length = a.cnt.length := List.length_set

theorem Arr.counted_cnt {a : Arr} (h : a.cnt.length = 9) {i : Nat} (hi : i < 9) (k j : Nat) :
    (a.counted i k).cnt.getD j 0 = if j = i then (a.cnt.getD i 0 + k) % 2 ^ 64 else a.cnt.getD j 0 := by
  by_cases hj : j = i
  · rw [if_pos hj]
    simp [counted, List.getD_eq_getElem?_getD, hj, h, hi]
  · rw [if_neg hj]
    simp [counted, List.getD_eq_getElem?_getD, List.getElem?_set_ne (Ne.symm hj)]

/-- An array with the freezes of a run counted, by cause. -/
def Arr.frozen (a : Arr) (feed drain both : Nat) : Arr :=
  (((a.counted 2 (feed + drain + both)).counted 0 (feed + drain + both)).counted 4 (drain + both)).counted 3 (feed + both)

theorem ArrBecomes.freeze {n : Nat} {a : Arr} {s t : State} (h : ArrBecomes n a s t) (feed drain both : Nat) :
    ArrBecomes n (a.frozen feed drain both) s (countFreezes n feed drain both t) :=
  (((h.count ..).count ..).count ..).count ..

/-- An array with a preload stall counted. -/
def Arr.stalled (a : Arr) : Arr := (a.counted 5 128).counted 0 128

theorem ArrBecomes.stall {n : Nat} {a : Arr} {s t : State} (h : ArrBecomes n a s t) : ArrBecomes n a.stalled s (countStall n t) :=
  (h.count ..).count ..

/-- An array with a tile counted whose last MAC has been performed. -/
def Arr.tiled (a : Arr) (mac busy : Nat) : Arr :=
  (((a.counted 7 1).counted 6 mac).counted 1 busy).counted 0 busy

theorem ArrBecomes.tile {n : Nat} {a : Arr} {s t : State} (h : ArrBecomes n a s t) (mac c : Nat) (first : Bool) :
    ArrBecomes n (a.tiled mac (if first then 254 + c else max c 128)) s (countSpan n first c (countTile n mac t)) :=
  (((h.count ..).count ..).count ..).count ..

/-! ### An array works on (R60, R65, R67) -/

/-- What a run is known by, and how many of its tiles were preloaded. -/
def ArrRun.origin (r : ArrRun) : Nat × Nat × Nat × Nat := (r.fid, r.slot, r.pass, r.preloads)

/-- What holds of an array `b` that was `a` and has worked on: full shadows and staging are as they were, the run is the same one, the
latches empty only into the active registers, and RUN_CYC has grown as BUSY has. -/
structure WorkedOn (a b : Arr) : Prop where
  staging : b.staging = a.staging
  shadow : a.shadow.isSome = true → b.shadow = a.shadow
  run : b.run.map ArrRun.origin = a.run.map ArrRun.origin
  latch : b.latch = a.latch ∨ b.latch = none ∧ b.active.isSome = true
  active : a.active.isSome = true → b.active.isSome = true
  length : b.cnt.length = a.cnt.length
  stalls : a.cnt.length = 9 → b.cnt.getD 5 0 = a.cnt.getD 5 0
  busy : a.cnt.length = 9 →
    (b.cnt.getD 0 0 + a.cnt.getD 1 0) % 2 ^ 64 = (a.cnt.getD 0 0 + b.cnt.getD 1 0) % 2 ^ 64

theorem WorkedOn.refl (a : Arr) : WorkedOn a a :=
  ⟨rfl, fun _ => rfl, rfl, .inl rfl, id, rfl, fun _ => rfl, fun _ => rfl⟩

theorem WorkedOn.trans {a b c : Arr} (h : WorkedOn a b) (h' : WorkedOn b c) : WorkedOn a c where
  staging := h'.staging.trans h.staging
  shadow hs := (h'.shadow (h.shadow hs ▸ hs)).trans (h.shadow hs)
  run := h'.run.trans h.run
  latch := by
    rcases h'.latch with heq | hnone
    · rw [heq]
      exact h.latch.imp_right fun ⟨hn, ha⟩ => ⟨hn, h'.active ha⟩
    · exact .inr hnone
  active := h'.active ∘ h.active
  length := h'.length.trans h.length
  stalls h9 := (h'.stalls (h.length.trans h9)).trans (h.stalls h9)
  busy h9 := by
    have hab := h.busy h9
    have hbc := h'.busy (h.length.trans h9)
    omega

/-- A tile starts: the active registers move to the shadows, which are empty where there is anything to move. -/
theorem workedOn_start {a : Arr} {r : ArrRun} (hr : a.run = some r) (hroom : ¬(a.active.isSome && a.shadow.isSome) = true)
    (x : Item × List Val) : WorkedOn a { a with
      run := some { r with started := true }
      active := some x
      shadow := match a.active with
        | some (i, vs) => some (r.fid, r.pass, i, vs)
        | none => a.shadow
      latch := none } where
  staging := rfl
  shadow hs := by
    cases ha : a.active with
    | none => rfl
    | some y => exact absurd (by rw [ha, hs]; rfl) hroom
  run := by rw [hr]; rfl
  latch := .inr ⟨rfl, rfl⟩
  active _ := rfl
  length := rfl
  stalls _ := rfl
  busy _ := rfl

/-- A chunk is summed up. -/
theorem workedOn_sum {a : Arr} {r r' : ArrRun} (hr : a.run = some r) (ho : r'.origin = r.origin) (x : Item × List Val) :
    WorkedOn a { a with run := some r', active := some x } where
  staging := rfl
  shadow _ := rfl
  run := by rw [hr]; exact congrArg some ho
  latch := .inl rfl
  active _ := rfl
  length := rfl
  stalls _ := rfl
  busy _ := rfl

/-- A tile ends: what it adds to BUSY it adds to RUN_CYC. -/
theorem workedOn_tiled (a : Arr) (mac busy : Nat) : WorkedOn a (a.tiled mac busy) where
  staging := rfl
  shadow _ := rfl
  run := rfl
  latch := .inl rfl
  active := id
  length := by simp [Arr.tiled]
  stalls h9 := by
    simp only [Arr.tiled, Arr.counted_length, h9, Arr.counted_cnt, Nat.reduceLT, if_false, Nat.reduceEqDiff]
  busy h9 := by
    simp only [Arr.tiled, Arr.counted_length, h9, Arr.counted_cnt, Nat.reduceLT, if_true, if_false, Nat.reduceEqDiff]
    omega

/-- Array `n` has worked on, and nothing else changed. -/
structure ArrayWorked (n : Nat) (s t : State) : Prop where
  here : WorkedOn (arr s n) (arr t n)
  others : ∀ m, m ≠ n → arr t m = arr s m
  only : Reach [.arrs] s t

theorem ArrayWorked.refl (n : Nat) (s : State) : ArrayWorked n s s := ⟨.refl _, fun _ _ => rfl, .rfl'⟩

theorem ArrayWorked.trans {n : Nat} {s t u : State} (h : ArrayWorked n s t) (h' : ArrayWorked n t u) : ArrayWorked n s u :=
  ⟨h.here.trans h'.here, fun m hm => (h'.others m hm).trans (h.others m hm), h.only.arrs_trans h'.only⟩

theorem ArrBecomes.worked {n : Nat} {a : Arr} {s t : State} (h : ArrBecomes n a s t) (hw : WorkedOn (arr s n) a) :
    ArrayWorked n s t := ⟨h.here ▸ hw, h.others, h.only⟩

theorem advance_worked (n k : Nat) (s : State) : ArrayWorked n s (advance n k s) := by
  induction k generalizing s with
  | zero => exact .refl n s
  | succ k ih =>
    rw [advance]
    dsimp only
    split
    next => exact .refl n s
    next r hr =>
      split
      next f w it rest hf hi =>
        split
        next => exact .refl n s
        next =>
          split
          next =>
            split
            next => exact .refl n s
            next =>
              split
              next => exact .refl n s
              next hroom =>
                refine ArrayWorked.trans ?_ (ih _)
                exact (arrBecomes_setArr ..).worked (workedOn_start hr hroom _)
          next =>
            split
            next =>
              refine ArrayWorked.trans ?_ (ih _)
              exact (arrBecomes_setArr ..).worked (workedOn_sum hr (by rfl) _)
            next =>
              refine ArrayWorked.trans ?_ (ih _)
              exact ((arrBecomes_setArr ..).tile ..).worked ((workedOn_sum hr (by rfl) _).trans (workedOn_tiled ..))
      next => exact .refl n s

/-- An array that became `a` and worked on. -/
theorem ArrBecomes.advance {n : Nat} {a : Arr} {s t : State} (h : ArrBecomes n a s t) (k : Nat) :
    WorkedOn a (arr (advance n k t) n) ∧ (∀ m, m ≠ n → arr (advance n k t) m = arr s m) ∧ Reach [.arrs] s (advance n k t) := by
  obtain ⟨hhere, hothers, honly⟩ := advance_worked n k t
  exact ⟨h.here ▸ hhere, fun m hm => (hothers m hm).trans (h.others m hm), h.only.arrs_trans honly⟩

/-! ### The end of a run (R65, R71) -/

theorem exec_endOfRunSwap {n feed drain both : Nat} {s : State} (h : Running s) (hs : arraysStopped s = false) :
    exec (.endOfRunSwap n feed drain both) s = .next (endRun n feed drain both s) := by
  show Host.Outcome.next (wh (on s && !arraysStopped s) _ s) = _
  rw [on_of_running h, hs]
  rfl

/-- The array after its run has ended: its last tile is in the shadows. -/
def Arr.ended (a : Arr) (r : ArrRun) (it : Item) (vs : List Val) : Arr :=
  { a with run := none, active := none, shadow := some (r.fid, r.pass, it, vs) }

theorem endRun_eq {n : Nat} {r : ArrRun} {it : Item} {vs : List Val} {s : State} (hr : (arr s n).run = some r)
    (ha : (arr s n).active = some (it, vs)) (feed drain both : Nat) :
    endRun n feed drain both s = if r.items = [] ∧ (arr s n).shadow = none then
      countFreezes n feed drain both (setArr n ((arr s n).ended r it vs) s) else s := by
  unfold endRun
  simp only [hr, ha]
  rw [← ite_not]
  simp [Arr.ended]

theorem Arr.frozen_cnt {a : Arr} (h : a.cnt.length = 9) (feed drain both j : Nat) :
    (a.frozen feed drain both).cnt.getD j 0 =
      if j = 3 then (a.cnt.getD 3 0 + (feed + both)) % 2 ^ 64 else
      if j = 4 then (a.cnt.getD 4 0 + (drain + both)) % 2 ^ 64 else
      if j = 0 then (a.cnt.getD 0 0 + (feed + drain + both)) % 2 ^ 64 else
      if j = 2 then (a.cnt.getD 2 0 + (feed + drain + both)) % 2 ^ 64 else a.cnt.getD j 0 := by
  simp only [frozen, counted_length, h, counted_cnt, Nat.reduceLT, Nat.reduceEqDiff, if_false]

/-- Settles O26: where the run has no item left and the shadows are empty, one move of the last tile and four additions are all. -/
theorem theEndOfARunMovesItsLastTileToTheShadows : Obligations.TheEndOfARunMovesItsLastTileToTheShadows := by
  unfold Obligations.TheEndOfARunMovesItsLastTileToTheShadows
  intro n feed drain both r it vs s hrun hstop hr ha h9 c
  have hstep := exec_endOfRunSwap (n := n) (feed := feed) (drain := drain) (both := both) hrun hstop
  rw [endRun_eq hr ha] at hstep
  refine ⟨fun hi hs => ?ends, fun hnot => ?nothing⟩
  case ends =>
    rw [if_pos ⟨hi, hs⟩] at hstep
    obtain ⟨hhere, hothers, honly⟩ := (arrBecomes_setArr n ((arr s n).ended r it vs) s).freeze feed drain both
    have hc := Arr.frozen_cnt (a := (arr s n).ended r it vs) h9 feed drain both
    refine ⟨_, hstep, ?_⟩
    simp only [c, hhere]
    refine ⟨rfl, rfl, rfl, rfl, rfl, rfl, hc 0, hc 1, hc 2, hc 3, hc 4, fun i hi => ?_, hothers, honly.frame⟩
    rw [hc i, if_neg (by omega), if_neg (by omega), if_neg (by omega), if_neg (by omega)]
    rfl
  case nothing =>
    rwa [if_neg fun h => hnot.elim (fun hi => hi h.1) fun hs => hs h.2] at hstep

end Sys2Proof.Machine
end

section
/-!
PROOFS. Preload stalls and drains (R66, R68 to R70, R121, R130): the reads that a tile needs, and what enters the latches and the staging.
-/
namespace Sys2Proof.Machine

/-! ### The descriptor of a tile -/

theorem tileFlight_congr {s t : State} (hf : t.flights = s.flights) (hp : t.parts = s.parts) (fid : Nat) :
    tileFlight t fid = tileFlight s fid := by
  unfold tileFlight scratchShut partState
  rw [flightOf_of_flights hf, hp]

theorem tileFlight_iff {s : State} {fid : Nat} {f : Flight} {w : TileWork} :
    tileFlight s fid = some (f, w) ↔
      flightOf s fid = some f ∧ f.work = .tiles w ∧ f.result = none ∧ scratchShut s f.q = false := by
  refine ⟨fun h => ?_, fun ⟨hf, hw, hr, hs⟩ => by simp [tileFlight, hf, hw, hr, hs]⟩
  unfold tileFlight at h
  split at h
  next g hg =>
    split at h
    next w' hw hr =>
      split at h
      next => cases h
      next hs =>
        cases h
        exact ⟨hg, hw, hr, Bool.eq_false_iff.mpr hs⟩
    next => cases h
  next => cases h

/-! ### Reads that need not wait (R206, R227) -/

/-- The pieces that a descriptor's reads through the yard can change. -/
def readPieces : List Piece :=
  [.regs .yrd, .regs .mem, .regs .lpd, .regs .mce, .regs .sec, .regs .ras, .regs .evr, .yard, .retrain, .evr, .freeCtr]

/-- The reads of a descriptor through the yard, once it proceeds. -/
def linesRead (f : Flight) (l : List (Nat × Nat)) (s : State) : State × Option Nat :=
  readLines f.q (linesIn l) (proceed f.fid s)

theorem linesRead_reach (f : Flight) (l : List (Nat × Nat)) (s : State) : Reach readPieces s (linesRead f l s).1 :=
  (readLines_reach (by decide) (by decide) (by decide) (by decide) (by decide) (by decide) (by decide) (by decide) (by decide)
    (by decide) (proceed_reach (by decide) .rfl')).out

theorem linesRead_arr (f : Flight) (l : List (Nat × Nat)) (s : State) (n : Nat) : arr (linesRead f l s).1 n = arr s n :=
  arr_of_reach (linesRead_reach f l s) (by decide) n

theorem linesRead_mem (f : Flight) (l : List (Nat × Nat)) (s : State) : (linesRead f l s).1.mem = s.mem :=
  mem_of_reach (linesRead_reach f l s) (by decide)

theorem readThen_ready {f : Flight} {l : List (Nat × Nat)} {s : State} (hw : mustWait s f.fid l [] = false)
    (hc : (linesRead f l s).2 = none) (go : Option Nat → State → State) : readThen f l go s = go none (linesRead f l s).1 := by
  rw [readThen, hw, if_neg Bool.false_ne_true]
  exact congrArg (fun c => go c _) hc

theorem snapOf_congr {s t : State} (h : t.mem = s.mem) (f : Flight) : snapOf t f = snapOf s f := by rw [snapOf, h, snapOf]

/-! ### The starting block of a tile (R68, R121) -/

theorem exec_preloadStall {n : Nat} {s : State} (h : Running s) : exec (.preloadStall n) s = .next (preloadStall n s) :=
  congrArg Host.Outcome.next (wh_running h _)

/-- The next tile of array `n` needs a starting block that its latches do not hold, and its staging has room for it. -/
structure PreloadDue (n : Nat) (r : ArrRun) (it : Item) (rest : List Item) (f : Flight) (w : TileWork) (s : State) : Prop where
  run : (arr s n).run = some r
  items : r.items = it :: rest
  flight : tileFlight s r.fid = some (f, w)
  preload : jPreload (jobOf f) = true
  first : it.l = 0
  waits : r.started = false
  empty : (arr s n).latch = none
  room : stageUnits w.plan (fmtBytes ((jSfmt (jobOf f)).getD .k16)) ≤ stagingFree s n

/-- The array with the starting block of item `it` in its latches, from the memory of `t`; a sampled in-place tile's block stays in
staging (R122). -/
def Arr.preloaded (a : Arr) (r : ArrRun) (it : Item) (f : Flight) (w : TileWork) (t : State) : Arr :=
  { a with
    latch := some (tileStartVals (snapOf t f) (jobOf f) w.plan it)
    run := some { r with preloads := r.preloads + 1 }
    staging := if jInPlace (jobOf f) && w.sampled.contains (tileNo w.plan it) then
      a.staging ++ [⟨f.fid, it, .start, stageUnits w.plan (fmtBytes ((jSfmt (jobOf f)).getD .k16)), [], []⟩] else a.staging }

theorem preloadStall_loads {n : Nat} {r : ArrRun} {it : Item} {rest : List Item} {f : Flight} {w : TileWork} {s : State}
    (hstop : arraysStopped s = false) (h : PreloadDue n r it rest f w s)
    (hw : mustWait s f.fid (startReads (jobOf f) w.plan it) [] = false)
    (hc : (linesRead f (startReads (jobOf f) w.plan it) s).2 = none) :
    let t := (linesRead f (startReads (jobOf f) w.plan it) s).1
    preloadStall n s = advance n advanceFuel (countStall n (setArr n ((arr s n).preloaded r it f w t) t)) := by
  obtain ⟨hr, hi, hf, hp, hl, hs, he, hroom⟩ := h
  obtain ⟨fid, slot, pass, items, kDone, started, spans, preloads⟩ := r
  obtain rfl : items = it :: rest := hi
  obtain rfl : started = false := hs
  unfold preloadStall
  simp only [hstop, hr, hf, hp, hl, he, Nat.not_lt.mpr hroom, Bool.false_eq_true, if_false, Bool.not_true, bne_self_eq_false,
    Option.isSome_none, decide_false, Bool.or_self]
  rw [readThen_ready hw hc]
  rfl

/-- Settles O25: the block enters the latches and the stall is counted, and what the array then works on starts from there. -/
theorem aPreloadStallLoadsTheStartingBlock : Obligations.APreloadStallLoadsTheStartingBlock := by
  unfold Obligations.APreloadStallLoadsTheStartingBlock
  intro n r it rest f w s hrun hstop hr hi hf hp hl hs he hroom rd hw hc h9
  have hdue : PreloadDue n r it rest f w s := ⟨hr, hi, hf, hp, hl, hs, he, hroom⟩
  let t := (linesRead f rd s).1
  let a := (arr s n).preloaded r it f w t
  obtain ⟨hworked, hothers, honly⟩ := (arrBecomes_setArr n a t).stall.advance advanceFuel
  have h9a : a.cnt.length = 9 := h9
  have h9' : a.stalled.cnt.length = 9 := by simpa [Arr.stalled] using h9a
  have hcnt : ∀ j, a.stalled.cnt.getD j 0 = if j = 0 then ((arr s n).cnt.getD 0 0 + 128) % 2 ^ 64 else
      if j = 5 then ((arr s n).cnt.getD 5 0 + 128) % 2 ^ 64 else (arr s n).cnt.getD j 0 := fun j => by
    simp only [Arr.stalled, Arr.counted_length, h9a, Arr.counted_cnt, Nat.reduceLT, Nat.reduceEqDiff, if_false]
    rfl
  have hstep : preloadStall n s = advance n advanceFuel (countStall n (setArr n a t)) := preloadStall_loads hstop hdue hw hc
  refine ⟨_, (exec_preloadStall hrun).trans (congrArg _ hstep), ?mem, fun m hm => ?others, ?busy,
    ?stall, ?run, ?latch⟩
  case mem => exact (mem_of_reach honly (by decide)).trans (linesRead_mem f rd s)
  case others => exact (hothers m hm).trans (linesRead_arr f rd s m)
  case busy =>
    have hbusy := hworked.busy h9'
    rw [hcnt 0, hcnt 1, if_pos rfl, if_neg (by decide), if_neg (by decide)] at hbusy
    omega
  case stall =>
    have hstalls := hworked.stalls h9'
    rwa [hcnt 5, if_neg (by decide), if_pos rfl] at hstalls
  case run =>
    obtain ⟨r', hr', horigin⟩ := Option.map_eq_some_iff.mp hworked.run
    obtain ⟨hfid, hslot, hpass, hpre⟩ : r'.fid = r.fid ∧ r'.slot = r.slot ∧ r'.pass = r.pass ∧ r'.preloads = r.preloads + 1 := by
      simpa [ArrRun.origin] using horigin
    exact ⟨r', hr', hfid, hslot, hpass, hpre⟩
  case latch =>
    refine hworked.latch.imp_left fun heq => heq.trans ?_
    exact congrArg (fun m => some (tileStartVals m (jobOf f) w.plan it)) (snapOf_congr (linesRead_mem f rd s) f)

/-! ### The drain of the shadows (R66, R69, R70, R130) -/

theorem exec_tileDrain {n : Nat} {s : State} (h : Running s) : exec (.tileDrain n) s = .next (tileDrain n s) :=
  congrArg Host.Outcome.next (wh_running h _)

/-- The shadows of array `n` hold a tile of a descriptor at work. -/
structure TileInShadow (n fid pass : Nat) (it : Item) (vs : List Val) (f : Flight) (w : TileWork) (s : State) : Prop where
  running : arraysStopped s = false
  shadow : (arr s n).shadow = some (fid, pass, it, vs)
  flight : tileFlight s fid = some (f, w)

section
variable {n fid pass : Nat} {it : Item} {vs : List Val} {f : Flight} {w : TileWork} {s : State}

/-- The shadows of array `n` are emptied. -/
def shadowTaken (n : Nat) (t : State) : State := setArr n { arr t n with shadow := none } t

theorem tileDrain_abandoned (h : TileInShadow n fid pass it vs f w s) (hp : w.pass ≠ pass ∨ w.ovf ≠ none) :
    tileDrain n s = shadowTaken n s := by
  obtain ⟨hstop, hs, hf⟩ := h
  have hgone : (w.pass ≠ pass || w.ovf.isSome) = true := by
    rw [Bool.or_eq_true, decide_eq_true_eq, Option.isSome_iff_ne_none]
    exact hp
  unfold tileDrain
  simp only [hstop, hs, hf, hgone, Bool.false_eq_true, if_false, if_true]
  rfl

/-- A partial enters the staging as pairs (R130). -/
def partialOf (fid : Nat) (it : Item) (vs : List Val) (w : TileWork) : Staged :=
  carryUp w.plan.l ⟨fid, it, .part 0 it.l, stageUnits w.plan 4, (partPairs w.ofmt vs).1, []⟩

theorem tileDrain_split (h : TileInShadow n fid pass it vs f w s) (hp : w.pass = pass) (ho : w.ovf = none) (hl : 1 < w.plan.l) :
    tileDrain n s = if stagingFree s n < stageUnits w.plan 4 then s
      else if (partPairs w.ofmt vs).2 then passOver fid .primary (pgArr n) s
      else advance n advanceFuel
        (setArr n { arr s n with shadow := none, staging := (arr s n).staging ++ [partialOf fid it vs w] } s) := by
  obtain ⟨hstop, hs, hf⟩ := h
  unfold tileDrain
  simp only [hstop, hs, hf, hp, ho, hl, Bool.false_eq_true, if_false, if_true, ne_eq, not_true_eq_false, decide_false,
    Option.isSome_none, Bool.or_self]
  rfl

theorem tileDrain_whole (h : TileInShadow n fid pass it vs f w s) (hp : w.pass = pass) (ho : w.ovf = none) (hl : w.plan.l ≤ 1) :
    tileDrain n s = advance n advanceFuel (drainTile n f w it vs (shadowTaken n) s) := by
  obtain ⟨hstop, hs, hf⟩ := h
  unfold tileDrain
  simp only [hstop, hs, hf, hp, ho, Nat.not_lt.mpr hl, Bool.false_eq_true, if_false, ne_eq, not_true_eq_false, decide_false,
    Option.isSome_none, Bool.or_self]
  rfl

end

/-- What a tile's drain gives: outputs, bytes to be written, and the first overflow. -/
abbrev drainOut (f : Flight) (w : TileWork) (it : Item) (vs : List Val) (t : State) :=
  tileOut (snapOf t f) (jobOf f) w.plan w.dblk w.ofmt w.preFmt (rndOf f) it vs

/-- The outputs of a tile as they wait in staging. -/
def outputsOf (f : Flight) (w : TileWork) (it : Item) (vs : List Val) (t : State) : Staged :=
  ⟨f.fid, it, .out, outUnits w.plan (jCtl (jobOf f)) w.ofmt, [], (drainOut f w it vs t).writes⟩

theorem stageTile_arrays {n : Nat} {f : Flight} {w : TileWork} {it : Item} {vs : List Val} {t : State}
    (ho : (drainOut f w it vs t).ovf = none) :
    (stageTile n f w it vs t).arrs =
      (setArr n { arr t n with staging := (arr t n).staging ++ [outputsOf f w it vs t] } t).arrs ∧
    (stageTile n f w it vs t).mem = t.mem := by
  unfold stageTile
  simp only [ho]
  split <;> exact ⟨rfl, rfl⟩

theorem drainTile_noRoom {n : Nat} {f : Flight} {w : TileWork} {s : State}
    (h : stagingFree s n < outUnits w.plan (jCtl (jobOf f)) w.ofmt) (it : Item) (vs : List Val) (take : State → State) :
    drainTile n f w it vs take s = s := if_pos h

theorem drainTile_stages {n : Nat} {f : Flight} {w : TileWork} {it : Item} {s : State}
    (hroom : outUnits w.plan (jCtl (jobOf f)) w.ofmt ≤ stagingFree s n)
    (hw : mustWait s f.fid (preReads (jobOf f) w.plan w.dblk it) [] = false)
    (hc : (linesRead f (preReads (jobOf f) w.plan w.dblk it) s).2 = none) (vs : List Val) (take : State → State) :
    drainTile n f w it vs take s =
      stageTile n f w it vs (take (linesRead f (preReads (jobOf f) w.plan w.dblk it) s).1) := by
  rw [drainTile, if_neg (Nat.not_lt.mpr hroom), readThen_ready hw hc]

/-- Settles O27: the tile leaves the shadows for the staging, and the array works on; where there is no room, full shadows stay. -/
theorem aDrainFillsTheStaging : Obligations.ADrainFillsTheStaging := by
  unfold Obligations.ADrainFillsTheStaging
  intro n fid pass it vs f w s hrun hstop hs hf p c u rd y o
  have htile : TileInShadow n fid pass it vs f w s := ⟨hstop, hs, hf⟩
  refine ⟨fun hgone => ?abandoned, fun hp ho => ⟨fun hl hfull => ?splitFull, fun hl hroom hfits => ?split, fun hl hfull => ?full,
    fun hl hroom hw hc hfits => ?whole⟩⟩
  case abandoned =>
    obtain ⟨hhere, hothers, honly⟩ := arrBecomes_setArr n { arr s n with shadow := none } s
    exact ⟨_, (exec_tileDrain hrun).trans (congrArg _ (tileDrain_abandoned htile hgone)), hhere, hothers, honly.frame⟩
  case splitFull =>
    exact (exec_tileDrain hrun).trans (congrArg _ ((tileDrain_split htile hp ho hl).trans (if_pos hfull)))
  case split =>
    have hstep := tileDrain_split htile hp ho hl
    rw [if_neg (Nat.not_lt.mpr hroom), if_neg (Bool.eq_false_iff.mp hfits)] at hstep
    obtain ⟨hworked, hothers, honly⟩ := (arrBecomes_setArr n
      { arr s n with shadow := none, staging := (arr s n).staging ++ [partialOf fid it vs w] } s).advance advanceFuel
    exact ⟨_, (exec_tileDrain hrun).trans (congrArg _ hstep), hworked.staging, hothers, honly.frame⟩
  case full =>
    have hstep := tileDrain_whole htile hp ho hl
    rw [drainTile_noRoom hfull] at hstep
    obtain ⟨hworked, hothers, honly⟩ := advance_worked n advanceFuel s
    exact ⟨_, (exec_tileDrain hrun).trans (congrArg _ hstep), hworked.shadow (hs ▸ rfl), hworked.staging, hothers, honly.frame⟩
  case whole =>
    have hstep := tileDrain_whole htile hp ho hl
    rw [drainTile_stages hroom hw hc] at hstep
    let t := (linesRead f rd s).1
    obtain ⟨harrs, hmem⟩ := stageTile_arrays (n := n) (t := shadowTaken n t) hfits
    obtain ⟨hworked, hothers, honly⟩ := advance_worked n advanceFuel (stageTile n f w it vs (shadowTaken n t))
    refine ⟨_, (exec_tileDrain hrun).trans (congrArg _ hstep), hworked.staging.trans ?_, fun m hm => (hothers m hm).trans ?_,
      (mem_of_reach honly (by decide)).trans (hmem.trans ((setArr_mem ..).trans (linesRead_mem f rd s)))⟩
    · rw [arr_of_arrs harrs, arr_setArr_same, shadowTaken, arr_setArr_same, linesRead_arr]
      rfl
    · rw [arr_of_arrs harrs, arr_setArr_other hm, shadowTaken, arr_setArr_other hm, linesRead_arr]

end Sys2Proof.Machine
end

section
/-!
PROOFS. The write-out of a tile (R69, R106, R112): its bytes in memory, its units of staging free, and the result of the descriptor with
the last one.
-/
namespace Sys2Proof.Machine

/-! ### What leaves the arrays with a descriptor -/

/-- No array holds more in its staging than it held. -/
structure StagingShrinks (s t : State) : Prop where
  subset : ∀ m, (arr t m).staging ⊆ (arr s m).staging

theorem StagingShrinks.refl (s : State) : StagingShrinks s s := ⟨fun _ _ h => h⟩

theorem StagingShrinks.trans {s t u : State} (h : StagingShrinks s t) (h' : StagingShrinks t u) : StagingShrinks s u :=
  ⟨fun m _ hx => h.subset m (h'.subset m hx)⟩

theorem stagingShrinks_of_arrs {s t : State} (h : t.arrs = s.arrs) : StagingShrinks s t := ⟨fun m _ hx => arr_of_arrs h m ▸ hx⟩

theorem ArrBecomes.shrinks {n : Nat} {a : Arr} {s t : State} (h : ArrBecomes n a s t) (ha : a.staging ⊆ (arr s n).staging) :
    StagingShrinks s t := by
  refine ⟨fun m => ?_⟩
  by_cases hm : m = n
  · rw [hm, h.here]
    exact ha
  · rw [h.others m hm]
    exact fun _ hx => hx

theorem countBusy_shrinks (n k : Nat) (s : State) : StagingShrinks s (countBusy n k s) :=
  ((arrCount_becomes n 1 k s).count 0 k).shrinks fun _ hx => hx

theorem countFreezes_shrinks (n feed drain both : Nat) (s : State) : StagingShrinks s (countFreezes n feed drain both s) :=
  ((((arrCount_becomes n 2 _ s).count ..).count ..).count ..).shrinks fun _ hx => hx

theorem countFree_shrinks (n : Nat) (s : State) : StagingShrinks s (countFree n s) :=
  StagingShrinks.trans (t := tickFree (tickFree (tickFree s))) (stagingShrinks_of_arrs (by simp)) (countFreezes_shrinks ..)

theorem countAbandoned_shrinks (n : Nat) (s : State) : StagingShrinks s (countAbandoned n s) :=
  (countBusy_shrinks n _ s).trans (.trans (stagingShrinks_of_arrs (tickFree_arrs _)) (countFree_shrinks ..))

/-- The array works on a run of descriptor `fid`. -/
def Arr.runs (a : Arr) (fid : Nat) : Bool :=
  match a.run with
  | some r => r.fid == fid
  | none => false

/-- What the array keeps when descriptor `fid` leaves it. -/
def Arr.cleared (a : Arr) (fid : Nat) : Arr :=
  let kept := { a with
    staging := a.staging.filter fun g => g.fid != fid
    shadow := match a.shadow with
      | some x => if x.1 = fid then none else some x
      | none => none }
  if a.runs fid then { kept with run := none, active := none, latch := none } else kept

theorem Arr.cleared_staging (a : Arr) (fid : Nat) : (a.cleared fid).staging = a.staging.filter fun g => g.fid != fid := by
  unfold Arr.cleared
  dsimp only
  split <;> rfl

theorem clearArrays_eq (fid : Nat) (s : State) : clearArrays fid s = (List.range 160).foldl (fun s n =>
    wh ((arr s n).runs fid) (countAbandoned n) (setArr n ((arr s n).cleared fid) s)) s := rfl

theorem clearArrays_shrinks (fid : Nat) (s : State) : StagingShrinks s (clearArrays fid s) := by
  rw [clearArrays_eq]
  refine List.foldlRecOn (motive := StagingShrinks s) _ _ (.refl s) fun t h n _ => h.trans ?_
  have hset : StagingShrinks t (setArr n ((arr t n).cleared fid) t) :=
    (arrBecomes_setArr ..).shrinks (Arr.cleared_staging .. ▸ List.filter_subset_self _)
  unfold wh
  split
  · exact hset.trans (countAbandoned_shrinks ..)
  · exact hset

/-! ### The result of a product (R106, R112, R451) -/

/-- What the last pass of a product met is recorded. -/
def tilesRecorded (q : Nat) (w : TileWork) (s : State) : State :=
  let s := raiseMismatches q 0 w.dists (raiseArrays q 0x09 1 w.sat (raiseArrays q 0x0A 1 w.special s))
  match w.first with
  | some pg => raiseV pg 0x08 0x40 (fmtCode w.ofmt) (some q) 0 w.pass (binLin w.pass) s
  | none => s

/-- The pieces that records of events can change. -/
def recordPieces : List Piece := [.regs .ras, .regs .evr, .evr, .freeCtr]

theorem tilesRecorded_reach (q : Nat) (w : TileWork) (s : State) : Reach recordPieces s (tilesRecorded q w s) := by
  have h : Reach recordPieces s (raiseMismatches q 0 w.dists (raiseArrays q 0x09 1 w.sat (raiseArrays q 0x0A 1 w.special s))) :=
    raiseMismatches_reach (by decide) (by decide) (by decide) (by decide) (raiseArrays_reach (by decide) (by decide) (by decide)
      (by decide) (raiseArrays_reach (by decide) (by decide) (by decide) (by decide) .rfl'))
  unfold tilesRecorded
  dsimp only
  split
  · exact raiseV_reach (by decide) (by decide) (by decide) (by decide) h
  · exact h

/-- The state in which a product's descriptor is given its result, before its arrays are cleared. -/
def tilesCounted (fid q : Nat) (w : TileWork) (s : State) : State :=
  wh (!w.dists.isEmpty && w.pass != 0) (countCode (pgDsp q) 0x40 0 (some q))
    (updFlight fid (fun f => { f with replays := w.pass }) (tilesRecorded q w s))

/-- The code of a product whose last pass met no overflow. -/
def tilesCode (w : TileWork) : Nat := if w.dists ≠ [] then 0x42 else if w.pass ≠ 0 then 0x40 else 0

/-- A product has its result once no tile is left to write or to compare and no overflow awaits its replay. -/
theorem tilesDone_eq {s : State} {fid : Nat} {f : Flight} {w : TileWork} (h : tileFlight s fid = some (f, w)) :
    tilesDone fid s = if w.left = [] ∧ w.sampled = [] ∧ w.ovf = none then
      finish fid (tilesCode w) 0 (clearArrays fid (tilesCounted fid f.q w s)) else s := by
  unfold tilesDone
  simp only [h]
  rw [← ite_not]
  simp only [Bool.not_eq_true', List.isEmpty_eq_false_iff, Option.isSome_iff_ne_none, not_or, not_not, tilesCode]
  rfl

theorem tilesCounted_reach (fid q : Nat) (w : TileWork) (s : State) : Reach (.flights :: recordPieces) s (tilesCounted fid q w s) :=
  wh_reach (fun _ => countCode_reach (by decide) (by decide) (by decide) (by decide))
    (updFlight_reach (by decide) (fun _ => ⟨id, id⟩) ((tilesRecorded_reach q w s).mono (by decide)))

theorem tilesDone_shrinks (fid : Nat) (s : State) : StagingShrinks s (tilesDone fid s) := by
  cases h : tileFlight s fid with
  | none =>
    unfold tilesDone
    rw [h]
    exact .refl s
  | some x =>
    rw [tilesDone_eq h]
    split
    · have hcounted := stagingShrinks_of_arrs (arrs_of_reach (tilesCounted_reach fid x.1.q x.2 s) (by decide))
      exact (hcounted.trans (clearArrays_shrinks ..)).trans (stagingShrinks_of_arrs (updFlight_arrs ..))
    · exact .refl s

theorem clearArrays_flights (fid : Nat) (s : State) : (clearArrays fid s).flights = s.flights :=
  flights_of_reach (L := [.arrs, .freeCtr]) (clearArrays_reach (by decide) (by decide) .rfl') (by decide)

/-- The descriptor of a product that is done has its code. -/
theorem tilesDone_result {s : State} {fid : Nat} {f : Flight} {w : TileWork} (h : tileFlight s fid = some (f, w))
    (hl : w.left = []) (hs : w.sampled = []) (ho : w.ovf = none) :
    ∃ g, flightOf (tilesDone fid s) fid = some g ∧ g.result = some (tilesCode w) := by
  obtain ⟨hf, -, hr, -⟩ := tileFlight_iff.mp h
  rw [tilesDone_eq h, if_pos ⟨hl, hs, ho⟩]
  have hrec : flightOf (tilesRecorded f.q w s) fid = some f :=
    (flightOf_of_flights (flights_of_reach (tilesRecorded_reach f.q w s) (by decide)) fid).trans hf
  have hcounted : (tilesCounted fid f.q w s).flights =
      (updFlight fid (fun f => { f with replays := w.pass }) (tilesRecorded f.q w s)).flights :=
    flights_of_reach (L := recordPieces) (wh_reach (fun _ => countCode_reach (by decide) (by decide) (by decide) (by decide)) .rfl')
      (by decide)
  refine finish_result _ 0 ((flightOf_of_flights (clearArrays_flights ..) fid).trans
    ((flightOf_of_flights hcounted fid).trans (flightOf_updFlight _ hrec))) ?_
  rw [updOne, if_pos (flightOf_mem hf).2]
  exact hr

theorem tilesDone_mem (fid : Nat) (s : State) : (tilesDone fid s).mem = s.mem :=
  mem_of_reach (L := [.regs .ras, .regs .evr, .flights, .arrs, .evr, .freeCtr]) (tilesDone_reach (by decide) (by decide) (by decide)
    (by decide) (by decide) (by decide) .rfl') (by decide)

/-! ### The acknowledgement (R69) -/

theorem exec_stagingWriteAck {n : Nat} {s : State} (h : Running s) : exec (.stagingWriteAck n) s = .next (stagingAck n s) :=
  congrArg Host.Outcome.next (wh_running h _)

/-- The outputs `g` have left the staging of array `n`. -/
def unstaged (n : Nat) (g : Staged) (s : State) : State :=
  setArr n { arr s n with staging := (arr s n).staging.filter fun x => x != g } s

/-- The writes of outputs `g`, once they are free to proceed. -/
def outputsWritten (n : Nat) (f : Flight) (g : Staged) (s : State) : State × Option Nat :=
  writeAll .yard f.q f.fid g.writes (proceed f.fid (unstaged n g s))

theorem outputsWritten_reach (n : Nat) (f : Flight) (g : Staged) (s : State) :
    Reach (.retrain :: memAccess) (unstaged n g s) (outputsWritten n f g s).1 :=
  (writeAll_reach (by decide) (by decide) (by decide) (by decide) (by decide) (by decide) (by decide) (by decide) (by decide)
    (by decide) (by decide) (by decide) (by decide) (by decide) (by decide) (proceed_reach (by decide) .rfl')).out

theorem outputsWritten_arr (n m : Nat) (f : Flight) (g : Staged) (s : State) :
    arr (outputsWritten n f g s).1 m = arr (unstaged n g s) m := arr_of_reach (outputsWritten_reach n f g s) (by decide) m

theorem outputsWritten_tileFlight (n : Nat) (f : Flight) (g : Staged) (s : State) (fid : Nat) :
    tileFlight (outputsWritten n f g s).1 fid = tileFlight s fid :=
  have h := outputsWritten_reach n f g s
  tileFlight_congr ((flights_of_reach h (by decide)).trans (setArr_flights ..))
    ((parts_of_reach h (by decide)).trans (setArr_parts ..)) fid

theorem stagingAck_gone {n : Nat} {g : Staged} {s : State} (hg : (arr s n).staging.find? (fun g => g.kind == .out) = some g)
    (hf : tileFlight s g.fid = none) : stagingAck n s = unstaged n g s := by
  unfold stagingAck
  simp only [hg, hf]
  rfl

/-- A tile's work with tile `t` written. -/
def TileWork.written (w : TileWork) (t : Nat) : TileWork := { w with left := w.left.filter fun x => x != t }

theorem stagingAck_writes {n : Nat} {g : Staged} {f : Flight} {w : TileWork} {s : State}
    (hg : (arr s n).staging.find? (fun g => g.kind == .out) = some g) (hf : tileFlight s g.fid = some (f, w))
    (hw : mustWait s f.fid [] (g.writes.map fun x => (x.1, x.2.length)) = false) (hc : (outputsWritten n f g s).2 = none) :
    stagingAck n s = tilesDone f.fid (setTiles f.fid (w.written (tileNo w.plan g.item)) (outputsWritten n f g s).1) := by
  have hcode : (match (outputsWritten n f g s).2 with
    | some code => failTiles f.fid code (outputsWritten n f g s).1
    | none => tilesDone f.fid (setTiles f.fid (w.written (tileNo w.plan g.item)) (outputsWritten n f g s).1)) =
      tilesDone f.fid (setTiles f.fid (w.written (tileNo w.plan g.item)) (outputsWritten n f g s).1) := by rw [hc]
  unfold stagingAck
  simp only [hg, hf, hw, Bool.false_eq_true, if_false]
  exact hcode

theorem tileFlight_setTiles {s : State} {fid : Nat} {f : Flight} {w : TileWork} (h : tileFlight s fid = some (f, w)) (w' : TileWork) :
    tileFlight (setTiles fid w' s) fid = some ({ f with work := .tiles w' }, w') := by
  obtain ⟨hf, -, hr, hs⟩ := tileFlight_iff.mp h
  refine tileFlight_iff.mpr ⟨?_, rfl, hr, hs⟩
  rw [setTiles, flightOf_updFlight _ hf, updOne, if_pos (flightOf_mem hf).2]

theorem TileWork.written_left (w : TileWork) (t : Nat) : (w.written t).left = [] ↔ ∀ x, x ∈ w.left → x = t := by
  simp [written]

/-- Settles O28: the writes leave memory as the staged bytes say, and only the last tile's acknowledgement ends the product. -/
theorem anAcknowledgedTileIsInMemory : Obligations.AnAcknowledgedTileIsInMemory := by
  unfold Obligations.AnAcknowledgedTileIsInMemory
  intro n g s hrun hg s1
  refine ⟨fun hf => (exec_stagingWriteAck hrun).trans (congrArg _ (stagingAck_gone hg hf)), fun f w hf hw hc => ?_⟩
  obtain ⟨hflight, -⟩ := tileFlight_iff.mp hf
  have hfid : f.fid = g.fid := (flightOf_mem hflight).2
  have hc : (outputsWritten n f g s).2 = none := hc
  have hstep := (exec_stagingWriteAck hrun).trans (congrArg _ (stagingAck_writes hg hf hw hc))
  let w' := w.written (tileNo w.plan g.item)
  let u := setTiles f.fid w' (outputsWritten n f g s).1
  have hu (m : Nat) : arr u m = arr (unstaged n g s) m := (arr_of_arrs (updFlight_arrs ..) m).trans (outputsWritten_arr n m f g s)
  have hstaging : (arr u n).staging = (arr s n).staging.filter fun x => x != g := by
    rw [hu, unstaged, arr_setArr_same]
  have hwork : tileFlight u f.fid = some ({ f with work := .tiles w' }, w') :=
    tileFlight_setTiles ((outputsWritten_tileFlight ..).trans (hfid ▸ hf)) w'
  refine ⟨tilesDone f.fid u, hstep, ?memory, fun hin => ?unstaged, fun ⟨t, ht, hne⟩ => ?more, fun hlast hs ho => ?last⟩
  case memory =>
    intro a
    have hwritten := writeAll_holds .yard f.q f.fid g.writes (proceed f.fid (unstaged n g s)) hc a
    have hmem : (tilesDone f.fid u).mem = (outputsWritten n f g s).1.mem := (tilesDone_mem ..).trans (updFlight_mem ..)
    exact (rd1_of_mem hmem a).trans hwritten
  case unstaged =>
    have hkept := (tilesDone_shrinks f.fid u).subset n hin
    rw [hstaging, List.mem_filter] at hkept
    simp at hkept
  case more =>
    have hleft : w'.left ≠ [] := fun h => hne ((w.written_left _).mp h t ht)
    have hsame : tilesDone f.fid u = u := (tilesDone_eq hwork).trans (if_neg fun h => hleft h.1)
    rw [hsame]
    exact ⟨hstaging, fun m hm => (hu m).trans (arr_setArr_other hm ..), _, hfid ▸ hwork⟩
  case last =>
    obtain ⟨h, hh, hcode⟩ := tilesDone_result hwork ((w.written_left _).mpr hlast) hs ho
    exact ⟨h, hfid ▸ hh, hcode⟩

end Sys2Proof.Machine
end

section
/-!
PROOFS. Counters of the register pages (R80, R135, R267, R410): the words of registers in a row, a snapshot of live counters in pairs of
words, and what each SNAP and CLEAR leaves.
-/
namespace Sys2Proof.Machine

/-! ### Registers in a row -/

/-- The field fills its register, and `n` registers from it on lie in its page. -/
def Fld.row (f : Fld) (n : Nat) : Bool := decide (f.lo = 0 ∧ f.hi = 31 ∧ f.off + 4 * n ≤ 4096)

/-- The fields of `n` registers in a row. -/
def rowFields (pg : Page) (f : Fld) (n : Nat) : List (Page × Fld) := (List.range n).map fun i => (pg, fldAt f i)

theorem mem_rowFields {pg : Page} {f : Fld} {n i : Nat} (hi : i < n) : (pg, fldAt f i) ∈ rowFields pg f n :=
  List.mem_map.mpr ⟨i, List.mem_range.mpr hi, rfl⟩

theorem Fld.row_ok {f : Fld} {n i : Nat} (h : f.row n = true) (hi : i < n) : (fldAt f i).ok = true := by
  obtain ⟨hlo, hhi, hoff⟩ := of_decide_eq_true h
  exact decide_eq_true (show f.lo ≤ f.hi ∧ f.hi < 32 ∧ f.off + 4 * i < 4096 by omega)

theorem fldAt_apart (f : Fld) {i j : Nat} (h : i ≠ j) : (fldAt f i).apart (fldAt f j) = true :=
  decide_eq_true (.inl (by simp only [fldAt]; omega))

theorem rg_st_row_same {f : Fld} {n i : Nat} (h : f.row n = true) (hi : i < n) (pg : Page) (v : Nat) (s : State) :
    rg (st pg (fldAt f i) v s) pg (fldAt f i) = v % 2 ^ 32 := by
  have hw : (fldAt f i).hi + 1 - (fldAt f i).lo = 32 := by
    obtain ⟨hlo, hhi, -⟩ := of_decide_eq_true h
    exact show f.hi + 1 - f.lo = 32 by omega
  rw [rg_st_same s pg _ v (Fld.row_ok h hi), hw]

theorem rg_st_row_other {f : Fld} {n i j : Nat} (h : f.row n = true) (hi : i < n) (hj : j < n) (hne : i ≠ j) (pg : Page) (v : Nat)
    (s : State) : rg (st pg (fldAt f i) v s) pg (fldAt f j) = rg s pg (fldAt f j) :=
  rg_st_apart s pg _ _ v (Fld.row_ok h hi) (Fld.row_ok h hj) (fldAt_apart f hne)

theorem onlyFields_st_row {f : Fld} {n i : Nat} (h : f.row n = true) (hi : i < n) (pg : Page) (v : Nat) (s : State) :
    OnlyFields (rowFields pg f n) s (st pg (fldAt f i) v s) := onlyFields_st v s (Fld.row_ok h hi) (mem_rowFields hi)

/-- The first `m` registers of a row cleared. -/
def rowCleared (pg : Page) (f : Fld) (m : Nat) (s : State) : State := (List.range m).foldl (fun s i => st pg (fldAt f i) 0 s) s

theorem rowCleared_onlyFields {f : Fld} {n : Nat} (h : f.row n = true) (pg : Page) (s : State) :
    OnlyFields (rowFields pg f n) s (rowCleared pg f n s) :=
  .foldl (fun _ hi t => onlyFields_st_row h (List.mem_range.mp hi) pg 0 t) s

theorem rg_rowCleared {f : Fld} {n m : Nat} (h : f.row n = true) (hm : m ≤ n) (pg : Page) (s : State) {i : Nat} (hi : i < m) :
    rg (rowCleared pg f m s) pg (fldAt f i) = 0 := by
  induction m with
  | zero => exact absurd hi (Nat.not_lt_zero i)
  | succ m ih =>
    rw [rowCleared, List.range_succ, List.foldl_append]
    rcases Nat.lt_succ_iff_lt_or_eq.mp hi with hlt | rfl
    · exact (rg_st_row_other h hm (by omega) (by omega) ..).trans (ih (by omega) hlt)
    · exact (rg_st_row_same h hm ..).trans (Nat.zero_mod _)

/-! ### Snapshots (R80) -/

/-- Counters, as `c` reads them, copied into pairs of registers in a row: the low word and the high word of each. -/
def countersCopied (pg : Page) (f : Fld) (c : State → Nat → Nat) (m : Nat) (s : State) : State :=
  (List.range m).foldl (fun s i => st pg (fldAt f (2 * i)) (c s i) (st pg (fldAt f (2 * i + 1)) (c s i / 2 ^ 32) s)) s

/-- Only the row's registers differ, and they hold the counters `c` modulo 2^64. -/
def HoldsCounters (pg : Page) (f : Fld) (m : Nat) (c : Nat → Nat) (s t : State) : Prop :=
  OnlyFields (rowFields pg f (2 * m)) s t ∧
    ∀ i, i < m → rg t pg (fldAt f (2 * i)) + 2 ^ 32 * rg t pg (fldAt f (2 * i + 1)) = c i % 2 ^ 64

theorem HoldsCounters.of_regs {pg : Page} {f : Fld} {m : Nat} {c : Nat → Nat} {s t t' : State} (h : HoldsCounters pg f m c s t)
    (hr : t'.regs = t.regs) : HoldsCounters pg f m c s t' := by
  refine ⟨h.1.trans (.of_regs hr), fun i hi => ?_⟩
  rw [rg_of_regs hr, rg_of_regs hr]
  exact h.2 i hi

theorem countersCopied_onlyFields {f : Fld} {m : Nat} (h : f.row (2 * m) = true) (pg : Page) (c : State → Nat → Nat) (s : State) :
    OnlyFields (rowFields pg f (2 * m)) s (countersCopied pg f c m s) :=
  .foldl (fun i hi t => by
    have hi := List.mem_range.mp hi
    exact (onlyFields_st_row (i := 2 * i + 1) h (by omega) pg _ t).trans (onlyFields_st_row (i := 2 * i) h (by omega) pg _ _)) s

theorem countersCopied_succ (pg : Page) (f : Fld) (c : State → Nat → Nat) (m : Nat) (s : State) :
    countersCopied pg f c (m + 1) s = st pg (fldAt f (2 * m)) (c (countersCopied pg f c m s) m)
      (st pg (fldAt f (2 * m + 1)) (c (countersCopied pg f c m s) m / 2 ^ 32) (countersCopied pg f c m s)) := by
  rw [countersCopied, List.range_succ, List.foldl_append]
  rfl

theorem two_words (v : Nat) : v % 2 ^ 32 + 2 ^ 32 * (v / 2 ^ 32 % 2 ^ 32) = v % 2 ^ 64 := by omega

/-- The words of a snapshot are those of the counters, which no write of a register changes. -/
theorem countersCopied_words {f : Fld} {n : Nat} (h : f.row (2 * n) = true) (pg : Page) {c : State → Nat → Nat}
    (hc : ∀ f v s, c (st pg f v s) = c s) (s : State) {m : Nat} (hm : m ≤ n) :
    c (countersCopied pg f c m s) = c s ∧ ∀ i, i < m →
      rg (countersCopied pg f c m s) pg (fldAt f (2 * i)) + 2 ^ 32 * rg (countersCopied pg f c m s) pg (fldAt f (2 * i + 1)) =
        c s i % 2 ^ 64 := by
  induction m with
  | zero => exact ⟨rfl, fun i hi => absurd hi (Nat.not_lt_zero i)⟩
  | succ m ih =>
    obtain ⟨hkept, hwords⟩ := ih (by omega)
    rw [countersCopied_succ]
    refine ⟨(hc ..).trans ((hc ..).trans hkept), fun i hi => ?_⟩
    rcases Nat.lt_succ_iff_lt_or_eq.mp hi with hlt | rfl
    · rw [rg_st_row_other h (by omega) (by omega) (by omega), rg_st_row_other h (by omega) (by omega) (by omega),
        rg_st_row_other h (by omega) (by omega) (by omega), rg_st_row_other h (by omega) (by omega) (by omega)]
      exact hwords i hlt
    · rw [rg_st_row_same h (by omega), rg_st_row_other h (by omega) (by omega) (by omega), rg_st_row_same h (by omega), hkept]
      exact two_words _

theorem countersCopied_holds {f : Fld} {m : Nat} (h : f.row (2 * m) = true) (pg : Page) {c : State → Nat → Nat}
    (hc : ∀ f v s, c (st pg f v s) = c s) (s : State) : HoldsCounters pg f m (c s) s (countersCopied pg f c m s) :=
  ⟨countersCopied_onlyFields h pg c s, (countersCopied_words h pg hc s (Nat.le_refl m)).2⟩

/-! ### The counters of an array (R79, R80) -/

/-- The live counters of array `n` by number. -/
def arrCounters (n : Nat) (s : State) (i : Nat) : Nat := (arr s n).cnt.getD i 0

theorem arrSnapshot_holds (n : Nat) (s : State) :
    HoldsCounters (pgArr n) Fld.ARR_RUN_CYC 9 (arrCounters n s) s (arrSnapshot n s) :=
  countersCopied_holds (c := arrCounters n) (by decide) _ (fun _ _ _ => funext fun _ => rfl) s

theorem arrSnapped_reach {L : List Piece} (hL : Piece.regs .arr ∈ L) (n : Nat) (snap : Bool) (s : State) :
    Reach L s (wh snap (arrSnapshot n) s) := wh_reach (fun _ => arrSnapshot_reach hL) .rfl'

theorem arrSnapped_holds {n : Nat} {snap : Bool} {s t : State} (h : t.regs = (wh snap (arrSnapshot n) s).regs) :
    if snap then HoldsCounters (pgArr n) Fld.ARR_RUN_CYC 9 (arrCounters n s) s t else t.regs = s.regs := by
  cases snap
  · exact h
  · exact (arrSnapshot_holds n s).of_regs h

theorem arrCtrl_owner {part n : Nat} {s : State} (hn : n < 160) (ho : part = arrOwner s n) (snap clear : Bool) :
    arrCtrl part n snap clear s = answerOk (wh clear (arrClearCnt n) (wh snap (arrSnapshot n) s)) :=
  if_neg fun h => h.elim (Nat.not_le.mpr hn) fun hne => hne ho

theorem arrCtrl_other {part n : Nat} {s : State} (ho : part ≠ arrOwner s n) (snap clear : Bool) :
    arrCtrl part n snap clear s = { s with bus := (0x20, 0) } := if_pos (.inr ho)

theorem exec_arrSnap {part n : Nat} {s : State} (hr : Ready s) :
    exec (.arrSnap part n) s = .next (arrCtrl part n true false s) := congrArg Host.Outcome.next (atDone_ready hr _)

theorem exec_arrClear {part n : Nat} {snap : Bool} {s : State} (hr : Ready s) :
    exec (.arrClear part n snap) s = .next (arrCtrl part n snap true s) := congrArg Host.Outcome.next (atDone_ready hr _)

/-! ### The counters of a stack engine (R80, R267) -/

/-- The live counters of stack engine `k` by number. -/
def stkCounters (k : Nat) (s : State) (i : Nat) : Nat := (tabGet stkDefault s.stks k).cnt.getD i 0

theorem stkSnapshot_holds (k : Nat) (s : State) :
    HoldsCounters (pgStk k) Fld.STK_OPS 6 (stkCounters k s) s (stkSnapshot k s) :=
  countersCopied_holds (c := stkCounters k) (by decide) _ (fun _ _ _ => funext fun _ => rfl) s

theorem stkSnapped_reach {L : List Piece} (hL : Piece.regs .stk ∈ L) (k : Nat) (snap : Bool) (s : State) :
    Reach L s (wh snap (stkSnapshot k) s) := wh_reach (fun _ => stkSnapshot_reach hL) .rfl'

theorem stkSnapped_holds {k : Nat} {snap : Bool} {s t : State} (h : t.regs = (wh snap (stkSnapshot k) s).regs) :
    if snap then HoldsCounters (pgStk k) Fld.STK_OPS 6 (stkCounters k s) s t else t.regs = s.regs := by
  cases snap
  · exact h
  · exact (stkSnapshot_holds k s).of_regs h

theorem stkSnapped_stks (k : Nat) (snap : Bool) (s : State) : (wh snap (stkSnapshot k) s).stks = s.stks :=
  (stkSnapped_reach (L := [.regs .stk]) (by simp) k snap s).frame .stks (by simp)

theorem stkCtrl_zero {k : Nat} (hk : k < 8) (snap clear : Bool) (s : State) :
    stkCtrl 0 k snap clear s = answerOk (wh clear (stkClearCnt k) (wh snap (stkSnapshot k) s)) :=
  if_neg fun h => h.elim (fun hne => hne rfl) (Nat.not_le.mpr hk)

theorem stkCtrl_other {part : Nat} (ho : part ≠ 0) (k : Nat) (snap clear : Bool) (s : State) :
    stkCtrl part k snap clear s = { s with bus := (0x20, 0) } := if_pos (.inl ho)

theorem exec_stkSnap {part k : Nat} {s : State} (hr : Ready s) :
    exec (.stkSnap part k) s = .next (stkCtrl part k true false s) := congrArg Host.Outcome.next (atDone_ready hr _)

theorem exec_stkClear {part k : Nat} {snap : Bool} {s : State} (hr : Ready s) :
    exec (.stkClear part k snap) s = .next (stkCtrl part k snap true s) := congrArg Host.Outcome.next (atDone_ready hr _)

/-! ### TPL_CLEAR and CLEAR_PEAK (R135, R410) -/

theorem exec_tplClear {part p : Nat} {s : State} (hr : Ready s) : exec (.tplClear part p) s = .next (tplClear part p s) :=
  congrArg Host.Outcome.next (atDone_ready hr _)

theorem tplReset_eq (p : Nat) (s : State) : tplReset p s = rowCleared (pgTpl p) Fld.TPL_PLANNED 7 s := rfl

theorem tplClear_zero {p : Nat} (hp : p < 16) (s : State) :
    tplClear 0 p s = rowCleared (pgTpl p) Fld.TPL_PLANNED 7 (answerOk s) := by
  rw [tplClear, if_neg (by omega), tplReset_eq, answerOk]

theorem tplClear_other {part : Nat} (ho : part ≠ 0) (p : Nat) (s : State) : tplClear part p s = { s with bus := (0x20, 0) } :=
  if_pos (.inl ho)

theorem rowCleared_bus (pg : Page) (f : Fld) (m : Nat) (s : State) : (rowCleared pg f m s).bus = s.bus :=
  List.foldlRecOn (motive := fun t : State => t.bus = s.bus) _ _ rfl fun _ h _ _ => (st_bus ..).trans h

theorem exec_clearPeak_zero {s : State} (hr : Running s) : exec (.clearPeak 0) s = .next (answerOk (st pgPwr Fld.PWR_PEAK 0 s)) :=
  congrArg Host.Outcome.next ((wh_running hr _).trans (if_pos rfl))

theorem exec_clearPeak_other {part : Nat} {s : State} (hr : Running s) (ho : part ≠ 0) :
    exec (.clearPeak part) s = .next { s with bus := (0x20, 0) } :=
  congrArg Host.Outcome.next ((wh_running hr _).trans (if_neg ho))

/-- Settles O33: a snapshot copies every live counter into its two words, and a clear comes after it. -/
theorem countersAreSnappedAndCleared : Obligations.CountersAreSnappedAndCleared := by
  unfold Obligations.CountersAreSnappedAndCleared
  intro part n k p snap s hr hn hk hp arrFlds stkFlds arrSnapped stkSnapped shut
  refine ⟨fun ho => ⟨?arrSnap, ?arrClear⟩, fun ho => ?arrOther, ?zero, fun ho => ?other⟩
  case arrSnap =>
    exact ⟨_, (exec_arrSnap hr).trans (congrArg _ (arrCtrl_owner hn ho ..)), rfl,
      answerOk_only (arrSnapped_reach (by simp) n true s) (by simp), arrSnapped_holds (snap := true) rfl⟩
  case arrClear =>
    have harr (m : Nat) : arr (wh snap (arrSnapshot n) s) m = arr s m :=
      arr_of_reach (arrSnapped_reach (L := [.regs .arr]) (by simp) n snap s) (by simp) m
    exact ⟨_, (exec_arrClear hr).trans (congrArg _ (arrCtrl_owner hn ho ..)), rfl,
      answerOk_only (arrClearCnt_reach (by simp) (arrSnapped_reach (by simp) n snap s)) (by simp), arrSnapped_holds rfl,
      (arr_setArr_same ..).trans (by rw [harr]), fun m hm => (arr_setArr_other hm ..).trans (harr m)⟩
  case arrOther =>
    exact ⟨(exec_arrSnap hr).trans (congrArg _ (arrCtrl_other ho ..)), (exec_arrClear hr).trans (congrArg _ (arrCtrl_other ho ..))⟩
  case zero =>
    rintro rfl
    refine ⟨?stkSnap, ?stkClear, ?tplClear, ?clearPeak⟩
    case stkSnap =>
      exact ⟨_, (exec_stkSnap hr).trans (congrArg _ (stkCtrl_zero hk ..)), rfl,
        answerOk_only (stkSnapped_reach (by simp) k true s) (by simp), stkSnapped_holds (snap := true) rfl⟩
    case stkClear =>
      exact ⟨_, (exec_stkClear hr).trans (congrArg _ (stkCtrl_zero hk ..)), rfl,
        answerOk_only (stkClearCnt_reach (by simp) (stkSnapped_reach (by simp) k snap s)) (by simp), stkSnapped_holds rfl,
        (tabGet_tabSet_same ..).trans (by rw [stkSnapped_stks]),
        fun m hm => (tabGet_tabSet_other _ _ _ _ _ hm).trans (by rw [stkSnapped_stks])⟩
    case tplClear =>
      have hbus : Reach [.regs .tpl, .bus] s (answerOk s) := .bus .rfl' (by simp)
      exact ⟨_, (exec_tplClear hr).trans (congrArg _ (tplClear_zero hp s)), rowCleared_bus .., (tplReset_reach (by simp) hbus).frame,
        fun i hi => rg_rowCleared (by decide) (Nat.le_refl 7) _ _ hi,
        (OnlyFields.of_regs (answerOk_regs s)).trans (rowCleared_onlyFields (f := Fld.TPL_PLANNED) (n := 7) (by decide) _ _)⟩
    case clearPeak =>
      exact ⟨_, exec_clearPeak_zero hr.1, rfl, answerOk_only (st_reach (by simp) .rfl') (by simp), rg_st_same _ _ _ _ (by decide),
        (onlyFields_st _ s (by decide) (by simp)).answerOk⟩
  case other =>
    exact ⟨(exec_stkSnap hr).trans (congrArg _ (stkCtrl_other ho ..)), (exec_stkClear hr).trans (congrArg _ (stkCtrl_other ho ..)),
      (exec_tplClear hr).trans (congrArg _ (tplClear_other ho ..)), exec_clearPeak_other hr.1 ho⟩

end Sys2Proof.Machine
end

section
/-!
PROOFS. Shadow recomputation (R110 to R112): a sampled tile is judged, and nothing else of its descriptor's work changes.
-/
namespace Sys2Proof.Machine

/-! ### A sampled tile is judged (R111, R112) -/

theorem exec_shadowRecompute {fid : Nat} {s : State} (h : Running s) : exec (.shadowRecompute fid) s = .next (shadowStep fid s) :=
  congrArg Host.Outcome.next (wh_running h _)

/-- The distance of the values that tile `t` drained from those of its recomputation (R112). -/
def recomputedDist (s : State) (f : Flight) (w : TileWork) (t : Nat) (ys : List Val) : Option Val :=
  let it := tileItem w.plan t
  let vs := wholeVals (snapOf s f) (jobOf f) w.plan (shadowOf f w) it
  let zs := (tileOut (snapOf s f) { jobOf f with k8sat := false } w.plan w.dblk ((shadowFmt (shadowOf f w)).getD .kp32) .g16
    ⟨false, 0, 0, 0⟩ it (vs.map Prod.fst)).ys
  tileDist (shadowOf f w) ys ((zs.zip vs).map fun x => x.2.2.getD x.1)

theorem recomputedDist_congr {s t : State} (h : t.mem = s.mem) (f : Flight) (w : TileWork) (k : Nat) (ys : List Val) :
    recomputedDist t f w k ys = recomputedDist s f w k ys := by
  unfold recomputedDist
  rw [snapOf_congr h]

theorem shadowOf_product {f : Flight} (h : dOp f.bytes ≠ 0x0F) (w : TileWork) : shadowOf f w = w.ofmt := if_neg h

/-- A product's work after tile `t` has been judged at distance `d` against threshold `thr`. -/
def TileWork.judged (w : TileWork) (t : Nat) (d : Option Val) (thr : Nat) : TileWork :=
  { w with
    sampled := w.sampled.filter fun x => x != t
    prim := w.prim.filter fun x => x.1 != t
    dists := if distOver d thr then w.dists ++ [d] else w.dists }

/-- The pieces that a recomputation's counts and records can change, and the starting block that staging kept for it. -/
def recomputePieces : List Piece := [.regs .tpl, .regs .ras, .regs .evr, .arrs, .evr, .freeCtr]

/-- Beside what it counts and records, a recomputation judges its tile. -/
theorem recompute_judges (n t : Nat) (f : Flight) (w : TileWork) (ys : List Val) (s : State) :
    ∃ u, Reach recomputePieces s u ∧ recompute n t f w ys s =
      tilesDone f.fid (setTiles f.fid (w.judged t (recomputedDist s f w t ys) (shadowThr f)) u) := by
  refine ⟨_, Reach.foldl (fun _ _ => setArr_reach (by decide)) ?_, rfl⟩
  refine raiseV_reach (by decide) (by decide) (by decide) (by decide) ?_
  have hmacs : Reach recomputePieces s ((List.range w.plan.l).foldl
      (fun s l => countTile n (w.plan.mt * w.plan.nt * (partRange w.plan l).2) s)
      ((shadowChunks f w (tileItem w.plan t)).foldl (fun s _ => tplInc w Fld.TPL_DELIVERIES s) s)) :=
    Reach.foldl (fun _ _ => countTile_reach (by decide)) (Reach.foldl (fun _ _ => tplInc_reach (by decide)) .rfl')
  exact Reach.ite hmacs (wh_reach (fun _ => countStall_reach (by decide))
    (countRun_reach (by decide) (by decide) (arrCount_reach (by decide) hmacs)))

/-- The first sampled tile that has drained is due on array `n`. -/
structure ShadowDue (fid t n : Nat) (ys : List Val) (f : Flight) (w : TileWork) (s : State) : Prop where
  running : arraysStopped s = false
  flight : tileFlight s fid = some (f, w)
  stands : w.ovf = none
  drain : drainReady f w = true
  product : dOp f.bytes ≠ 0x0F
  drained : ∃ n0 rest, w.prim = (t, n0, ys) :: rest ∧ shadowArray s f.q (some n0) = some n

theorem shadowStep_recomputes {fid t n : Nat} {ys : List Val} {f : Flight} {w : TileWork} {s : State}
    (h : ShadowDue fid t n ys f w s) (hw : mustWait s f.fid (shadowReads f w (tileItem w.plan t)) [] = false)
    (hc : (linesRead f (shadowReads f w (tileItem w.plan t)) s).2 = none) :
    shadowStep fid s = recompute n t f w ys (linesRead f (shadowReads f w (tileItem w.plan t)) s).1 := by
  obtain ⟨hstop, hf, ho, hd, hop, n0, rest, hp, hn⟩ := h
  unfold shadowStep
  simp only [hstop, hf, ho, hd, hop, hp, hn, Bool.false_eq_true, if_false, Option.isSome_none, Bool.not_true, Bool.or_self,
    List.nil_append]
  rw [readThen_ready hw hc]

/-- Settles O31: the reads leave memory, so the tile is judged against the inputs as they stood; a tile left to write keeps the
product at work. -/
theorem aShadowRecomputationJudgesATile : Obligations.AShadowRecomputationJudgesATile := by
  unfold Obligations.AShadowRecomputationJudgesATile
  intro fid t0 n0 n ys rest f w s hrun hstop hf ho hd hop hleft hp hn j it vs zs d rd hw hc
  have hfid : f.fid = fid := (flightOf_mem (tileFlight_iff.mp hf).1).2
  let t := (linesRead f rd s).1
  have hmem : t.mem = s.mem := linesRead_mem f rd s
  have hdist : recomputedDist t f w t0 ys = d := by
    rw [recomputedDist_congr hmem, recomputedDist, shadowOf_product hop]
  obtain ⟨u, hu, hjudged⟩ := recompute_judges n t0 f w ys t
  have hreads := linesRead_reach f rd s
  have hflight : tileFlight u f.fid = some (f, w) := by
    rw [tileFlight_congr ((flights_of_reach hu (by decide)).trans (flights_of_reach hreads (by decide)))
      ((parts_of_reach hu (by decide)).trans (parts_of_reach hreads (by decide))), hfid, hf]
  have hwork := tileFlight_setTiles hflight (w.judged t0 d (shadowThr f))
  have hstep : shadowStep fid s = setTiles f.fid (w.judged t0 d (shadowThr f)) u := by
    rw [shadowStep_recomputes ⟨hstop, hf, ho, hd, hop, n0, rest, hp, hn⟩ hw hc, hjudged, hdist, tilesDone_eq hwork]
    exact if_neg fun h => hleft h.1
  rw [← hfid] at hstep ⊢
  refine ⟨_, (exec_shadowRecompute hrun).trans (congrArg _ hstep), ?_, _, hwork⟩
  exact (updFlight_mem ..).trans ((mem_of_reach hu (by decide)).trans hmem)

end Sys2Proof.Machine
end


section
/-!
PROOFS. Passes of the stack engines and of YRD (R106, R108, R252, R263, R266): the steps of a pass, and what each leaves of memory and
of its descriptor.
-/
namespace Sys2Proof.Machine

/-! ### Reads and writes of ranges -/

theorem readAll_pieces (via : Via) (q : Nat) (l : List (Nat × Nat)) (s : State) : Reach readPieces s (readAll via q l s).1 :=
  (readAll_reach (by decide) (by decide) (by decide) (by decide) (by decide) (by decide) (by decide) (by decide) (by decide)
    (by decide) .rfl').out

theorem writeAll_pieces (via : Via) (q fid : Nat) (l : List (Nat × List Byte)) (s : State) :
    Reach memAccess s (writeAll via q fid l s).1 :=
  (writeAll_reach (by decide) (by decide) (by decide) (by decide) (by decide) (by decide) (by decide) (by decide) (by decide)
    (by decide) (by decide) (by decide) (by decide) (by decide) (by decide) .rfl').out

/-- Writes onto the memory of `s` that leave the memory of `t`. -/
theorem MemHolds.of_mem {l : List (Nat × List Byte)} {s s' t t' : State} (h : MemHolds l s t) (hs : s.mem = s'.mem)
    (ht : t'.mem = t.mem) : MemHolds l s' t' := fun a => by
  rw [rd1_of_mem ht, h a, rd1_of_mem hs]

/-! ### A descriptor at the engines -/

/-- The descriptor executes in stack engines, or in YRD. -/
def Flight.atEngines (f : Flight) : Bool :=
  (match f.station with
  | .stk _ => true
  | .yrd => dOp f.bytes == 0x01
  | _ => false) && (dOp f.bytes == 0x01 || dOp f.bytes == 0x07 || dOp f.bytes == 0x09 || dOp f.bytes == 0x0A)

theorem stkFlight_iff {s : State} {fid : Nat} {f : Flight} :
    stkFlight s fid = some f ↔ flightOf s fid = some f ∧ f.atEngines = true ∧ f.result = none := by
  unfold stkFlight Flight.atEngines
  cases flightOf s fid with
  | none => simp
  | some g =>
    simp only [Option.ite_none_right_eq_some, Option.some.injEq, Bool.and_eq_true, Option.isNone_iff_eq_none]
    constructor
    · rintro ⟨⟨⟨hh, hr⟩, ho⟩, rfl⟩
      exact ⟨rfl, ⟨hh, ho⟩, hr⟩
    · rintro ⟨rfl, ⟨hh, ho⟩, hr⟩
      exact ⟨⟨⟨hh, hr⟩, ho⟩, rfl⟩

theorem Continues.atEngines {f g : Flight} (h : Continues f g) : g.atEngines = f.atEngines := (congrArg Flight.atEngines h.1 :)

/-! ### The end of a descriptor (R266) -/

theorem stkDone_mem (f : Flight) (code replays : Nat) (s : State) : (stkDone f code replays s).mem = s.mem :=
  mem_of_reach (L := [.flights, .stks]) (stkDone_reach (by decide) (by decide) .rfl') (by decide)

/-- A descriptor of the engines is finished before its places become free. -/
theorem stkDone_flights (f : Flight) (code replays : Nat) (s : State) :
    (stkDone f code replays s).flights =
      (finish f.fid code 0 (updFlight f.fid (fun g => { g with replays := replays }) s)).flights := by
  have hcounted : ((stkEngines f).foldl (fun s k => stkCount k 1 1 s) s).flights = s.flights :=
    flights_of_reach (L := [.stks]) (Reach.foldl (fun _ _ => stkCount_reach (by decide)) .rfl') (by decide)
  refine (flights_of_reach (L := [.stks]) (stkLeave_reach (by decide) .rfl') (by decide)).trans ?_
  simp only [finish, updFlight_flights, hcounted]

theorem stkDone_result {s : State} {fid : Nat} {f g : Flight} (hfid : f.fid = fid) (hg : flightOf s fid = some g)
    (hr : g.result = none) (code replays : Nat) :
    ∃ h, flightOf (stkDone f code replays s) fid = some h ∧ h.result = some code := by
  subst hfid
  simp only [flightOf_of_flights (stkDone_flights ..)]
  refine finish_result code 0 (flightOf_updFlight _ hg) ?_
  rw [updOne, if_pos (flightOf_mem hg).2]
  exact hr

/-- No engine holds a place or a turn for the descriptor. -/
def EnginesFree (fid : Nat) (t : State) : Prop :=
  ∀ k, k < 8 → fid ∉ (tabGet stkDefault t.stks k).active ∧ fid ∉ (tabGet stkDefault t.stks k).waiting

theorem stkLeave_free (fid : Nat) (s : State) : EnginesFree fid (stkLeave fid s) := by
  intro k hk
  refine foldl_establishes (P := fun _ => True)
    (Q := fun t => fid ∉ (tabGet stkDefault t.stks k).active ∧ fid ∉ (tabGet stkDefault t.stks k).waiting)
    (List.mem_range.mpr hk) (fun _ _ _ => trivial) (fun t _ => ?_) (fun t j ht => ?_) s trivial
  · simp
  · dsimp only
    rw [tabGet_tabSet]
    split
    next h =>
      subst h
      simp
    next => exact ht

/-! ### The pass of a descriptor (R106) -/

/-- Descriptor `fid` is still `f`, and it has a result or is in replay `p` with output format `o`. -/
def InPass (fid : Nat) (f : Flight) (p : Nat) (o : Fmt) (t : State) : Prop :=
  ∃ g, flightOf t fid = some g ∧ Continues f g ∧ (g.result ≠ none ∨ (stkWork g).pass = p ∧ (stkWork g).ofmt = o)

section
variable {fid p : Nat} {f g : Flight} {o : Fmt} {s t : State}

theorem inPass_start (hf : flightOf s fid = some f) : InPass fid f (stkWork f).pass (stkWork f).ofmt s :=
  ⟨f, hf, continues_rfl f, .inr ⟨rfl, rfl⟩⟩

theorem InPass.continues (h : InPass fid f p o s) (hg : flightOf s fid = some g) : Continues f g := by
  obtain ⟨g', hg', hc, -⟩ := h
  exact Option.some.inj (hg'.symm.trans hg) ▸ hc

theorem InPass.work (h : InPass fid f p o s) (hg : stkFlight s fid = some g) :
    (stkWork g).pass = p ∧ (stkWork g).ofmt = o := by
  obtain ⟨hflight, -, hr⟩ := stkFlight_iff.mp hg
  obtain ⟨g', hg', -, hwork⟩ := h
  obtain rfl := Option.some.inj (hg'.symm.trans hflight)
  exact hwork.resolve_left (absurd hr)

theorem InPass.of_flights (h : InPass fid f p o s) (ht : t.flights = s.flights) : InPass fid f p o t := by
  obtain ⟨g, hg, hrest⟩ := h
  exact ⟨g, (flightOf_of_flights ht fid).trans hg, hrest⟩

theorem InPass.of_reach {L : List Piece} (h : InPass fid f p o s) (ht : Reach L s t) (hL : Piece.flights ∉ L) :
    InPass fid f p o t :=
  h.of_flights (flights_of_reach ht hL)

/-- A change of what else the descriptor's flight holds. -/
theorem InPass.keep (h : InPass fid f p o s) (u : Flight → Flight) (hu : ∀ g, (u g).work = g.work ∧ (u g).result = g.result) :
    InPass fid f p o (updFlight fid u s) := by
  obtain ⟨g, hg, hc, hwork⟩ := h
  refine ⟨_, flightOf_updFlight u hg, continues_trans hc (continues_upd (fun g => ?_) g), ?_⟩
  · rw [Grows, (hu g).1, (hu g).2]
    exact ⟨id, id⟩
  · rw [updOne, if_pos (flightOf_mem hg).2]
    simp only [stkWork, (hu g).1, (hu g).2]
    exact hwork

/-- A change of its work. -/
theorem InPass.setWork (h : InPass fid f p o s) (w : StkWork) (u : Flight → Flight)
    (hu : ∀ g, (u g).work = .stk w ∧ (u g).result = g.result) : InPass fid f w.pass w.ofmt (updFlight fid u s) := by
  obtain ⟨g, hg, hc, -⟩ := h
  refine ⟨_, flightOf_updFlight u hg, continues_trans hc (continues_upd (fun g => ?_) g), .inr ?_⟩
  · rw [Grows, (hu g).1, (hu g).2]
    exact ⟨fun _ => nofun, id⟩
  · rw [updOne, if_pos (flightOf_mem hg).2]
    simp only [stkWork, (hu g).1, and_self]

theorem InPass.finish (h : InPass fid f p o s) (code detail : Nat) : InPass fid f p o (finish fid code detail s) := by
  obtain ⟨g, hg, hc, -⟩ := h
  refine ⟨_, flightOf_updFlight _ hg, continues_trans hc (continues_upd (fun g => ?_) g), .inl ?_⟩
  · split <;> exact ⟨id, fun _ => nofun⟩
  · rw [updOne, if_pos (flightOf_mem hg).2]
    dsimp only
    split <;> nofun

theorem InPass.wait (h : InPass fid f p o s) (i : Nat) (rd wr : List (Nat × Nat)) : InPass fid f p o (noteWait i rd wr s) :=
  h.of_reach (L := [.retrain, .accs, .nextTag, .ports]) (noteWait_reach (by decide) (by decide) (by decide) (by decide) .rfl')
    (by decide)

theorem InPass.done (h : InPass fid f p o s) (hg : g.fid = fid) (code replays : Nat) :
    InPass fid f p o (stkDone g code replays s) := by
  subst hg
  exact ((h.keep (fun g => { g with replays := replays }) fun _ => ⟨rfl, rfl⟩).finish code 0).of_flights (stkDone_flights ..)

end

/-! ### The units of a pass (R252, R266) -/

/-- The pieces that the engines' work on their units can change: what reads change, places and counts of the engines, and what a
descriptor that waits asks for. -/
def unitPieces : List Piece := readPieces ++ [.flights, .stks, .accs, .nextTag, .ports]

/-- The descriptor proceeds, from its inputs as they stand where none has started before (R108). -/
def inputsTaken (fid : Nat) (s : State) : State :=
  updFlight fid (fun g => { g with snap := some (g.snap.getD (proceed fid s).mem) }) (proceed fid s)

/-- The reads of engine `k`'s units. -/
def unitsRead (fid k : Nat) (f : Flight) (s : State) : State × Option Nat :=
  readAll .beside f.q ((unitsAt f k).flatMap fun u => u.rd) (inputsTaken fid s)

theorem unitsRead_reach (fid k : Nat) (f : Flight) (s : State) : Reach readPieces (inputsTaken fid s) (unitsRead fid k f s).1 :=
  readAll_pieces ..

theorem inputsTaken_inPass {fid p : Nat} {f : Flight} {o : Fmt} {s : State} (h : InPass fid f p o s) :
    InPass fid f p o (inputsTaken fid s) :=
  InPass.keep (s := proceed fid s) (h.of_flights rfl) _ fun _ => ⟨rfl, rfl⟩

/-- An engine has nothing to do for the descriptor, or lets it wait, or ends it with the code that a read met, or has finished its
units. -/
theorem stkPart_cases {fid : Nat} {g : Flight} {s : State} (hg : stkFlight s fid = some g) (k : Nat) :
    stkPart fid k s = s ∨ (∃ rd, stkPart fid k s = noteWait fid rd [] s) ∨
    (∃ c, stkPart fid k s = stkDone g c (stkWork g).pass (unitsRead fid k g s).1) ∨
    ∃ u, Reach [.stks] (unitsRead fid k g s).1 u ∧
      stkPart fid k s = setStk fid { stkWork g with done := (stkWork g).done ++ [k] } u := by
  unfold stkPart
  simp only [hg]
  split
  next => exact .inl rfl
  next =>
    split
    next => exact .inr (.inl ⟨_, rfl⟩)
    next =>
      refine .inr (.inr ?_)
      split
      next c hc => exact .inl ⟨c, rfl⟩
      next => exact .inr ⟨_, wh_reach (fun _ ht => .stks ht (by decide) (tabWf_tabSet _ _ _ _))
        (stkCount_reach (by decide) (stkCount_reach (by decide) .rfl')), rfl⟩

theorem stkPart_inPass {fid p : Nat} {f : Flight} {o : Fmt} {s : State} (h : InPass fid f p o s) (k : Nat) :
    InPass fid f p o (stkPart fid k s) := by
  cases hg : stkFlight s fid with
  | none =>
    unfold stkPart
    rwa [hg]
  | some g =>
    have hread : InPass fid f p o (unitsRead fid k g s).1 :=
      (inputsTaken_inPass h).of_reach (unitsRead_reach fid k g s) (by decide)
    obtain heq | ⟨rd, heq⟩ | ⟨c, heq⟩ | ⟨u, hu, heq⟩ := stkPart_cases hg k <;> rw [heq]
    · exact h
    · exact h.wait fid rd []
    · exact hread.done (flightOf_mem (stkFlight_iff.mp hg).1).2 ..
    · obtain ⟨hp, ho⟩ := h.work hg
      subst hp ho
      exact (hread.of_reach hu (by decide)).setWork { stkWork g with done := (stkWork g).done ++ [k] } _ fun _ => ⟨rfl, rfl⟩

/-- The descriptor takes its places, and each engine with a place for it runs its units. -/
def enginesRun (fid : Nat) (f : Flight) (s : State) : State := (stkEngines f).foldl (fun s k => stkPart fid k s) (stkStart fid s)

theorem enginesRun_reach (fid : Nat) (f : Flight) (s : State) : Reach unitPieces s (enginesRun fid f s) :=
  Reach.foldl (fun _ _ => stkPart_reach (by decide) (by decide) (by decide) (by decide) (by decide) (by decide) (by decide)
    (by decide) (by decide) (by decide) (by decide) (by decide) (by decide) (by decide) (by decide) (by decide))
    (stkStart_reach (by decide) .rfl')

theorem enginesRun_mem (fid : Nat) (f : Flight) (s : State) : (enginesRun fid f s).mem = s.mem :=
  mem_of_reach (enginesRun_reach fid f s) (by decide)

theorem enginesRun_inPass {fid p : Nat} {f : Flight} {o : Fmt} {s : State} (h : InPass fid f p o s) (g : Flight) :
    InPass fid f p o (enginesRun fid g s) :=
  List.foldlRecOn (motive := InPass fid f p o) _ _
    (h.of_reach (stkStart_reach (L := [.stks]) (by decide) .rfl') (by decide)) fun _ ht k _ => stkPart_inPass ht k

/-! ### The end of a pass (R106, R108, R263) -/

/-- What a descriptor reads at the end of its pass, once it proceeds. -/
def passRead (f : Flight) (s : State) : State × Option Nat := yrdReads f (proceed f.fid s)

theorem passRead_reach (f : Flight) (s : State) : Reach readPieces s (passRead f s).1 :=
  (yrdReads_reach (by decide) (by decide) (by decide) (by decide) (by decide) (by decide) (by decide) (by decide) (by decide)
    (by decide) (proceed_reach (by decide) .rfl')).out

section
variable {fid : Nat} {f g : Flight} {s : State}

/-- The pass that descriptor `fid` runs, `g` once its engines have run their units, has every unit done and waits for nothing. -/
structure PassEnds (fid : Nat) (f g : Flight) (s : State) : Prop where
  flight : stkFlight s fid = some f
  computes : (stkWork f).copy = false
  stays : stkFlight (enginesRun fid f s) fid = some g
  finished : ∀ k, k ∈ stkEngines g → k ∈ (stkWork g).done
  free : mustWait (enginesRun fid f s) fid (if g.station = .yrd then stkReads g else []) (stkUndefined g (stkWork g).ofmt) = false

theorem stkStep_back (hf : stkFlight s fid = some f) (hc : (stkWork f).copy = true) : stkStep fid s = stkBack f s := by
  unfold stkStep
  simp only [hf, hc, if_true]

theorem stkStep_lost (hf : stkFlight s fid = some f) (hc : (stkWork f).copy = false)
    (hl : stkFlight (enginesRun fid f s) fid = none) : stkStep fid s = enginesRun fid f s := by
  rw [enginesRun] at hl
  unfold stkStep
  simp only [hf, hc, hl, Bool.false_eq_true, if_false]
  rfl

theorem stkStep_unfinished (hf : stkFlight s fid = some f) (hc : (stkWork f).copy = false)
    (hg : stkFlight (enginesRun fid f s) fid = some g) (hk : ∃ k, k ∈ stkEngines g ∧ k ∉ (stkWork g).done) :
    stkStep fid s = enginesRun fid f s := by
  have hany : ((stkEngines g).any fun k => !(stkWork g).done.contains k) = true := by simpa using hk
  rw [enginesRun] at hg
  unfold stkStep
  simp only [hf, hc, hg, hany, Bool.false_eq_true, if_false, if_true]
  rfl

theorem stkStep_waits (hf : stkFlight s fid = some f) (hc : (stkWork f).copy = false)
    (hg : stkFlight (enginesRun fid f s) fid = some g) (hall : ∀ k, k ∈ stkEngines g → k ∈ (stkWork g).done)
    (hw : mustWait (enginesRun fid f s) fid (if g.station = .yrd then stkReads g else [])
      (stkUndefined g (stkWork g).ofmt) = true) :
    ∃ rd wr, stkStep fid s = noteWait fid rd wr (enginesRun fid f s) := by
  have hany : ((stkEngines g).any fun k => !(stkWork g).done.contains k) = false := by simpa using hall
  rw [enginesRun] at hg hw
  unfold stkStep
  simp only [hf, hc, hg, hany, hw, Bool.false_eq_true, if_false, if_true]
  exact ⟨_, _, rfl⟩

theorem PassEnds.fid_eq (h : PassEnds fid f g s) : g.fid = fid := (flightOf_mem (stkFlight_iff.mp h.stays).1).2

theorem PassEnds.step_eq (h : PassEnds fid f g s) : stkStep fid s = (passRead g (enginesRun fid f s)).2.elim
    (stkEnd g (g.snap.getD (enginesRun fid f s).mem) (passRead g (enginesRun fid f s)).1)
    fun c => stkDone g c (stkWork g).pass (passRead g (enginesRun fid f s)).1 := by
  obtain rfl := h.fid_eq
  obtain ⟨hf, hc, hg, hall, hw⟩ := h
  have hany : ((stkEngines g).any fun k => !(stkWork g).done.contains k) = false := by simpa using hall
  rw [enginesRun] at hg hw
  unfold stkStep passRead enginesRun
  simp only [hf, hc, hg, hany, hw, Bool.false_eq_true, if_false]
  split
  next c hr => rw [hr, Option.elim_some]
  next hr => rw [hr, Option.elim_none]

theorem PassEnds.step_code (h : PassEnds fid f g s) {c : Nat} (hr : (passRead g (enginesRun fid f s)).2 = some c) :
    stkStep fid s = stkDone g c (stkWork g).pass (passRead g (enginesRun fid f s)).1 := by
  rw [h.step_eq, hr, Option.elim_some]

theorem PassEnds.step_end (h : PassEnds fid f g s) (hr : (passRead g (enginesRun fid f s)).2 = none) :
    stkStep fid s = stkEnd g (g.snap.getD (enginesRun fid f s).mem) (passRead g (enginesRun fid f s)).1 := by
  rw [h.step_eq, hr, Option.elim_none]

end

/-! ### What a pass leaves (R106, R108, R263) -/

/-- What pass `m` of descriptor `g` gives. -/
abbrev passOut (g : Flight) (m : List Host.Cell) : PassOut := stkPass m g (stkWork g).ofmt

/-- The writes of a pass, made through the yard or beside it. -/
def passWritten (g : Flight) (p : PassOut) (s : State) : State × Option Nat :=
  writeAll (if g.station = .yrd then .yard else .beside) g.q g.fid p.writes s

theorem passWritten_reach (g : Flight) (p : PassOut) (s : State) : Reach memAccess s (passWritten g p s).1 :=
  writeAll_pieces ..

/-- The reads of the hold area in the copy-back phase (R263). -/
def backRead (f : Flight) (s : State) : State × Option Nat :=
  readAll .beside f.q (stkUndefined f (stkWork f).ofmt) (proceed f.fid s)

theorem backRead_reach (f : Flight) (s : State) : Reach readPieces s (backRead f s).1 :=
  (Reach.comp (L := [.retrain]) (proceed_reach (by decide) .rfl') (readAll_pieces ..)).mono (by decide)

/-- The writes of the copy-back phase. -/
def backWritten (f : Flight) (p : PassOut) (s : State) : State × Option Nat := writeAll .beside f.q f.fid p.back s

theorem backWritten_reach (f : Flight) (p : PassOut) (s : State) : Reach memAccess s (backWritten f p s).1 := writeAll_pieces ..

/-- The pieces that counts and records of written words can change. -/
def countPieces : List Piece := [.stks, .regs .ras, .regs .evr, .evr, .freeCtr]

/-- The writes `ws` of a pass are counted, and what the pass met is recorded. -/
def passCounted (g : Flight) (p : PassOut) (ws : List (Nat × List Byte)) (s : State) : State :=
  passEvents g (stkWork g) p (countWrites g ws s)

theorem passCounted_reach (g : Flight) (p : PassOut) (ws : List (Nat × List Byte)) {s t : State} (h : Reach countPieces s t) :
    Reach countPieces s (passCounted g p ws t) :=
  passEvents_reach (by decide) (by decide) (by decide) (by decide) (countWrites_reach (by decide) h)

section
variable {g : Flight} {m : List Host.Cell} {s : State}

theorem stkEnd_written (hovf : (passOut g m).ovf = none) (hw : (passWritten g (passOut g m) s).2 = none)
    (hh : holdsState g = false) :
    stkEnd g m s = stkDone g (if (stkWork g).pass = 0 then 0 else 0x40) (stkWork g).pass
      (passCounted g (passOut g m) (passOut g m).writes (passWritten g (passOut g m) s).1) := by
  rw [passWritten] at hw
  unfold stkEnd
  simp only [hovf, hh, hw, Bool.false_eq_true, if_false, Option.getD_none]
  rfl

theorem stkEnd_held (hovf : (passOut g m).ovf = none) (hw : (passWritten g (passOut g m) s).2 = none)
    (hh : holdsState g = true) :
    stkEnd g m s = setStk g.fid { stkWork g with copy := true } (countHold g (passWritten g (passOut g m) s).1) := by
  rw [passWritten] at hw
  unfold stkEnd
  simp only [hovf, hh, hw, if_true]
  rfl

/-- The work of a descriptor whose pass overflowed at `src`: its replay is due. -/
def StkWork.overflowed (w : StkWork) (src : Option Nat) : StkWork :=
  { w with due := true, first := some (w.first.getD (srcPage src)) }

theorem stkEnd_overflowed {src : Option Nat} {o : Fmt} (hovf : (passOut g m).ovf = some src)
    (hr : stkReplays g (stkWork g).ofmt = some o) :
    stkEnd g m s = updFlight g.fid (fun f => { f with snap := some m, work := .stk ((stkWork g).overflowed src) }) s := by
  unfold stkEnd
  simp only [hovf, hr]
  rfl

theorem stkEnd_unrecovered {src : Option Nat} (hovf : (passOut g m).ovf = some src) (hr : stkReplays g (stkWork g).ofmt = none) :
    ∃ u, Reach [.mem, .regs .ras, .regs .evr, .evr, .freeCtr] s u ∧ stkEnd g m s = stkDone g 0x41 (stkWork g).pass u := by
  unfold stkEnd
  simp only [hovf, hr]
  exact ⟨_, raiseV_reach (by decide) (by decide) (by decide) (by decide) (scrambleAll_reach (by decide) (by decide) .rfl'), rfl⟩

end

/-! ### What a step keeps of the descriptor -/

section
variable {fid p : Nat} {f g : Flight} {o : Fmt} {s : State}

/-- The pieces that the end of a pass can change, beside the descriptor and who waits at channels. -/
def endPieces : List Piece := .stks :: memAccess

/-- A pass ends in an overflow that a replay awaits, in the copy-back phase, or in a result. -/
theorem stkEnd_cases (g : Flight) (m : List Host.Cell) (s : State) :
    (∃ src, stkEnd g m s = updFlight g.fid (fun f => { f with snap := some m, work := .stk ((stkWork g).overflowed src) }) s) ∨
    ∃ u, Reach endPieces s u ∧ (stkEnd g m s = setStk g.fid { stkWork g with copy := true } u ∨
      ∃ c n, stkEnd g m s = stkDone g c n u) := by
  have hwritten : Reach endPieces s (passWritten g (passOut g m) s).1 := (passWritten_reach g _ s).mono (by decide)
  unfold stkEnd
  dsimp only
  split
  next src hsrc =>
    split
    next => exact .inl ⟨src, rfl⟩
    next => exact .inr ⟨_, raiseV_reach (by decide) (by decide) (by decide) (by decide)
      (scrambleAll_reach (by decide) (by decide) .rfl'), .inr ⟨_, _, rfl⟩⟩
  next =>
    refine .inr ?_
    split
    next =>
      split
      next => exact ⟨_, countHold_reach (by decide) hwritten, .inr ⟨_, _, rfl⟩⟩
      next => exact ⟨_, countHold_reach (by decide) hwritten, .inl rfl⟩
    next => exact ⟨_, passEvents_reach (by decide) (by decide) (by decide) (by decide) (countWrites_reach (by decide) hwritten),
      .inr ⟨_, _, rfl⟩⟩

theorem stkEnd_inPass (h : InPass fid f (stkWork g).pass (stkWork g).ofmt s) (hg : g.fid = fid) (m : List Host.Cell) :
    InPass fid f (stkWork g).pass (stkWork g).ofmt (stkEnd g m s) := by
  subst hg
  obtain ⟨src, heq⟩ | ⟨u, hu, heq | ⟨c, n, heq⟩⟩ := stkEnd_cases g m s <;> rw [heq]
  · exact h.setWork ((stkWork g).overflowed src) _ fun _ => ⟨rfl, rfl⟩
  · exact (h.of_reach hu (by decide)).setWork { stkWork g with copy := true } _ fun _ => ⟨rfl, rfl⟩
  · exact (h.of_reach hu (by decide)).done rfl c n

/-- A copy-back waits, or ends the descriptor. -/
theorem stkBack_cases (f : Flight) (s : State) : (∃ rd wr, stkBack f s = noteWait f.fid rd wr s) ∨
    ∃ u c, Reach (.retrain :: endPieces) s u ∧ stkBack f s = stkDone f c 0 u := by
  unfold stkBack
  dsimp only
  split
  next => exact .inl ⟨_, _, rfl⟩
  next =>
    refine .inr ?_
    have hread : Reach (.retrain :: endPieces) s (backRead f s).1 := (backRead_reach f s).mono (by decide)
    split
    next => exact ⟨_, _, hread, rfl⟩
    next =>
      have hwritten : Reach (.retrain :: endPieces) s (backWritten f (passOut f (f.snap.getD s.mem)) (backRead f s).1).1 :=
        (hread.comp (backWritten_reach ..)).mono (by decide)
      exact ⟨_, _, passEvents_reach (by decide) (by decide) (by decide) (by decide) (countWrites_reach (by decide)
        (countHold_reach (by decide) hwritten)), rfl⟩

theorem stkBack_inPass (h : InPass fid f p o s) (hg : g.fid = fid) : InPass fid f p o (stkBack g s) := by
  obtain ⟨rd, wr, heq⟩ | ⟨u, c, hu, heq⟩ := stkBack_cases g s <;> rw [heq]
  · exact h.wait _ rd wr
  · exact (h.of_reach hu (by decide)).done hg c 0

/-- A step keeps the pass of the descriptor, unless it ends it. -/
theorem stkStep_inPass (h : InPass fid f p o s) : InPass fid f p o (stkStep fid s) := by
  cases hf : stkFlight s fid with
  | none =>
    unfold stkStep
    rwa [hf]
  | some d =>
    cases hc : (stkWork d).copy with
    | true =>
      rw [stkStep_back hf hc]
      exact stkBack_inPass h (flightOf_mem (stkFlight_iff.mp hf).1).2
    | false =>
      have hrun := enginesRun_inPass h d
      cases hg : stkFlight (enginesRun fid d s) fid with
      | none => rwa [stkStep_lost hf hc hg]
      | some g =>
        by_cases hk : ∃ k, k ∈ stkEngines g ∧ k ∉ (stkWork g).done
        · rwa [stkStep_unfinished hf hc hg hk]
        · have hall : ∀ k, k ∈ stkEngines g → k ∈ (stkWork g).done := by simpa using hk
          cases hw : mustWait (enginesRun fid d s) fid (if g.station = .yrd then stkReads g else [])
              (stkUndefined g (stkWork g).ofmt) with
          | true =>
            obtain ⟨rd, wr, heq⟩ := stkStep_waits hf hc hg hall hw
            rw [heq]
            exact hrun.wait fid rd wr
          | false =>
            have hends : PassEnds fid d g s := ⟨hf, hc, hg, hall, hw⟩
            have hread := hrun.of_reach (passRead_reach g _) (by decide)
            obtain ⟨hp, ho⟩ := hrun.work hg
            subst hp ho
            cases hr : (passRead g (enginesRun fid d s)).2 with
            | some c =>
              rw [hends.step_code hr]
              exact hread.done hends.fid_eq ..
            | none =>
              rw [hends.step_end hr]
              exact stkEnd_inPass hread hends.fid_eq _

/-- A descriptor that a step leaves in flight is the same descriptor. -/
theorem stkStep_continues (hf : stkFlight s fid = some f) (hg : flightOf (stkStep fid s) fid = some g) : Continues f g :=
  (stkStep_inPass (inPass_start (stkFlight_iff.mp hf).1)).continues hg

end

/-! ### The descriptors of the engines (R106, R108, R252, R263, R266) -/

section
variable {fid : Nat} {f g : Flight} {s : State}

theorem moveGo_engines (hf : stkFlight s fid = some f) (hop : dOp f.bytes = 1) : moveGo fid s = stkGo 1 fid s := by
  obtain ⟨hflight, hat, -⟩ := stkFlight_iff.mp hf
  have hhos : f.station ≠ .hos := by
    intro h
    simp [Flight.atEngines, h] at hat
  unfold moveGo
  simp only [hflight, hop, hhos, ne_eq, not_true_eq_false, if_false]

theorem stkGo_step {op : Nat} (hf : stkFlight s fid = some f) (hop : dOp f.bytes = op) (hdue : (stkWork f).due = false) :
    stkGo op fid s = stkStep fid s := by
  unfold stkGo
  simp only [hf, hop, hdue, ne_eq, not_true_eq_false, Bool.false_eq_true, or_self, if_false]

/-- The command of each opcode is one step of the descriptor's work. -/
theorem exec_engines {op : Nat} {c : Instr} (h : Running s)
    (hc : (op, c) ∈ [(1, Instr.move fid), (7, .reduce fid), (9, .ewise fid), (0x0A, .stats fid)]) (hf : stkFlight s fid = some f)
    (hop : dOp f.bytes = op) (hdue : (stkWork f).due = false) : exec c s = .next (stkStep fid s) := by
  have hgo := stkGo_step hf hop hdue
  simp only [List.mem_cons, Prod.mk.injEq, List.not_mem_nil, or_false] at hc
  obtain ⟨rfl, rfl⟩ | ⟨rfl, rfl⟩ | ⟨rfl, rfl⟩ | ⟨rfl, rfl⟩ := hc
  · exact congrArg Host.Outcome.next ((wh_running h _).trans ((moveGo_engines hf hop).trans hgo))
  all_goals exact congrArg Host.Outcome.next ((wh_running h _).trans hgo)

theorem passRead_mem (g : Flight) (s : State) : (passRead g s).1.mem = s.mem := mem_of_reach (passRead_reach g s) (by decide)

theorem PassEnds.read_mem (_ : PassEnds fid f g s) : (passRead g (enginesRun fid f s)).1.mem = s.mem :=
  (passRead_mem ..).trans (enginesRun_mem fid f s)

theorem PassEnds.read_flight (h : PassEnds fid f g s) : flightOf (passRead g (enginesRun fid f s)).1 fid = some g :=
  (flightOf_of_flights (flights_of_reach (passRead_reach g _) (by decide)) fid).trans (stkFlight_iff.mp h.stays).1

/-- Descriptor `fid` is still `f`, with result `code`. -/
def EndsWith (fid : Nat) (f : Flight) (code : Nat) (t : State) : Prop :=
  ∃ h, flightOf t fid = some h ∧ Continues f h ∧ h.result = some code

/-- Descriptor `fid` is still `f`, without a result and with work `w`. -/
def WorksOn (fid : Nat) (f : Flight) (w : StkWork) (t : State) : Prop :=
  ∃ h, flightOf t fid = some h ∧ Continues f h ∧ h.result = none ∧ stkWork h = w

theorem endsWith_of_done {code n : Nat} {u : State} (hf : stkFlight s fid = some f) (hg : flightOf u fid = some g)
    (hr : g.result = none) (heq : stkStep fid s = stkDone g code n u) : EndsWith fid f code (stkStep fid s) := by
  obtain ⟨h, hh, hcode⟩ := stkDone_result (flightOf_mem hg).2 hg hr code n
  rw [← heq] at hh
  exact ⟨h, hh, stkStep_continues hf hh, hcode⟩

theorem worksOn_of_update {w : StkWork} {v : Flight → Flight} {u : State} (hf : stkFlight s fid = some f)
    (hg : flightOf u fid = some g) (hr : g.result = none) (heq : stkStep fid s = updFlight fid v u)
    (hv : (v g).work = .stk w ∧ (v g).result = g.result) : WorksOn fid f w (stkStep fid s) := by
  have hh := flightOf_updFlight v hg
  rw [← heq] at hh
  refine ⟨_, hh, stkStep_continues hf hh, ?_⟩
  rw [updOne, if_pos (flightOf_mem hg).2]
  simp only [stkWork, hv, hr, and_self]

theorem PassEnds.result (h : PassEnds fid f g s) : g.result = none := (stkFlight_iff.mp h.stays).2.2

/-- What the pass of a descriptor gives, from its inputs as they stood when it started. -/
abbrev passAfter (fid : Nat) (f g : Flight) (s : State) : PassOut := passOut g (g.snap.getD (enginesRun fid f s).mem)

theorem PassEnds.written_flight (h : PassEnds fid f g s) (p : PassOut) {t : State}
    (ht : Reach countPieces (passWritten g p (passRead g (enginesRun fid f s)).1).1 t) : flightOf t fid = some g :=
  (flightOf_of_flights ((flights_of_reach ht (by decide)).trans (flights_of_reach (passWritten_reach ..) (by decide))) fid).trans
    h.read_flight

theorem PassEnds.refused (h : PassEnds fid f g s) {c : Nat} (hr : (passRead g (enginesRun fid f s)).2 = some c) :
    (stkStep fid s).mem = s.mem ∧ EndsWith fid f c (stkStep fid s) := by
  have heq := h.step_code hr
  refine ⟨?_, endsWith_of_done h.flight h.read_flight h.result heq⟩
  rw [heq, stkDone_mem, h.read_mem]

theorem PassEnds.written (h : PassEnds fid f g s) (hr : (passRead g (enginesRun fid f s)).2 = none)
    (hovf : (passAfter fid f g s).ovf = none)
    (hw : (passWritten g (passAfter fid f g s) (passRead g (enginesRun fid f s)).1).2 = none) (hh : holdsState g = false) :
    MemHolds (passAfter fid f g s).writes s (stkStep fid s) ∧
    EndsWith fid f (if (stkWork g).pass = 0 then 0 else 0x40) (stkStep fid s) ∧ EnginesFree fid (stkStep fid s) := by
  have heq := (h.step_end hr).trans (stkEnd_written hovf hw hh)
  have hcounted := passCounted_reach g (passAfter fid f g s) (passAfter fid f g s).writes
    (.rfl' (a := (passWritten g (passAfter fid f g s) (passRead g (enginesRun fid f s)).1).1))
  refine ⟨?_, endsWith_of_done h.flight (h.written_flight _ hcounted) h.result heq, ?_⟩
  · exact (writeAll_holds _ _ _ _ _ hw).of_mem h.read_mem (heq ▸ (stkDone_mem ..).trans (mem_of_reach hcounted (by decide)))
  · rw [heq, stkDone, h.fid_eq]
    exact stkLeave_free fid _

theorem PassEnds.held (h : PassEnds fid f g s) (hr : (passRead g (enginesRun fid f s)).2 = none)
    (hovf : (passAfter fid f g s).ovf = none)
    (hw : (passWritten g (passAfter fid f g s) (passRead g (enginesRun fid f s)).1).2 = none) (hh : holdsState g = true) :
    MemHolds (passAfter fid f g s).writes s (stkStep fid s) ∧ WorksOn fid f { stkWork g with copy := true } (stkStep fid s) := by
  have heq := (h.step_end hr).trans (stkEnd_held hovf hw hh)
  have hcounted : Reach countPieces (passWritten g (passAfter fid f g s) (passRead g (enginesRun fid f s)).1).1 (countHold g _) :=
    countHold_reach (by decide) .rfl'
  rw [h.fid_eq] at heq
  refine ⟨?_, worksOn_of_update h.flight (h.written_flight _ hcounted) h.result heq ⟨rfl, rfl⟩⟩
  exact (writeAll_holds _ _ _ _ _ hw).of_mem h.read_mem (heq ▸ (updFlight_mem ..).trans (mem_of_reach hcounted (by decide)))

theorem PassEnds.overflowed (h : PassEnds fid f g s) (hr : (passRead g (enginesRun fid f s)).2 = none) {src : Option Nat}
    {o : Fmt} (hovf : (passAfter fid f g s).ovf = some src) (ho : stkReplays g (stkWork g).ofmt = some o) :
    (stkStep fid s).mem = s.mem ∧ WorksOn fid f ((stkWork g).overflowed src) (stkStep fid s) := by
  have heq := (h.step_end hr).trans (stkEnd_overflowed hovf ho)
  rw [h.fid_eq] at heq
  refine ⟨?_, worksOn_of_update h.flight h.read_flight h.result heq ⟨rfl, rfl⟩⟩
  rw [heq, updFlight_mem, h.read_mem]

theorem PassEnds.unrecovered (h : PassEnds fid f g s) (hr : (passRead g (enginesRun fid f s)).2 = none) {src : Option Nat}
    (hovf : (passAfter fid f g s).ovf = some src) (ho : stkReplays g (stkWork g).ofmt = none) :
    EndsWith fid f 0x41 (stkStep fid s) := by
  obtain ⟨u, hu, heq⟩ := stkEnd_unrecovered hovf ho
  exact endsWith_of_done h.flight ((flightOf_of_flights (flights_of_reach hu (by decide)) fid).trans h.read_flight) h.result
    ((h.step_end hr).trans heq)

/-- A descriptor that runs no longer once its engines have run their units has a result. -/
theorem enginesRun_lost (hf : stkFlight s fid = some f) (hl : stkFlight (enginesRun fid f s) fid = none) :
    ∃ h, flightOf (enginesRun fid f s) fid = some h ∧ Continues f h ∧ h.result ≠ none := by
  obtain ⟨hflight, hat, -⟩ := stkFlight_iff.mp hf
  obtain ⟨h, hh, hc, -⟩ := enginesRun_inPass (inPass_start hflight) f
  refine ⟨h, hh, hc, fun hr => ?_⟩
  rw [stkFlight_iff.mpr ⟨hh, hc.atEngines.trans hat, hr⟩] at hl
  cases hl

theorem stkBack_done {p : PassOut} (hp : p = passOut f (f.snap.getD s.mem))
    (hw : mustWait s f.fid (stkUndefined f (stkWork f).ofmt) (p.back.map fun x => (x.1, x.2.length)) = false)
    (hr : (backRead f s).2 = none) (hy : (backWritten f p (backRead f s).1).2 = none) :
    stkBack f s = stkDone f 0 0 (passCounted f p p.back (countHold f (backWritten f p (backRead f s).1).1)) := by
  subst hp
  rw [backWritten] at hy
  rw [backRead] at hr hy
  unfold stkBack
  simp only [hw, hr, hy, Bool.false_eq_true, if_false, Option.getD_none]
  rfl

/-- The copy-back phase puts the state words into the state tensors and ends the descriptor. -/
theorem stkStep_copiesBack (hf : stkFlight s fid = some f) (hc : (stkWork f).copy = true) {p : PassOut}
    (hp : p = passOut f (f.snap.getD s.mem))
    (hw : mustWait s f.fid (stkUndefined f (stkWork f).ofmt) (p.back.map fun x => (x.1, x.2.length)) = false)
    (hr : (backRead f s).2 = none) (hy : (backWritten f p (backRead f s).1).2 = none) :
    MemHolds p.back s (stkStep fid s) ∧ EndsWith fid f 0 (stkStep fid s) ∧ EnginesFree fid (stkStep fid s) := by
  obtain ⟨hflight, -, hres⟩ := stkFlight_iff.mp hf
  have heq := (stkStep_back hf hc).trans (stkBack_done hp hw hr hy)
  have hcounted := passCounted_reach f p p.back
    (countHold_reach (x0 := f) (by decide) (.rfl' (a := (backWritten f p (backRead f s).1).1)))
  refine ⟨?_, endsWith_of_done hf ?_ hres heq, ?_⟩
  · exact (writeAll_holds _ _ _ _ _ hy).of_mem (mem_of_reach (backRead_reach f s) (by decide))
      (heq ▸ (stkDone_mem ..).trans (mem_of_reach hcounted (by decide)))
  · exact (flightOf_of_flights ((flights_of_reach hcounted (by decide)).trans ((flights_of_reach (backWritten_reach ..)
      (by decide)).trans (flights_of_reach (backRead_reach f s) (by decide)))) fid).trans hflight
  · rw [heq, stkDone, (flightOf_mem hflight).2]
    exact stkLeave_free fid _

end

/-- Settles O20: the command is one step of the descriptor's work, and each clause is one of the ways in which a step can end. -/
theorem engineDescriptorsRunAPass : Obligations.EngineDescriptorsRunAPass := by
  unfold Obligations.EngineDescriptorsRunAPass
  intro fid op c f s hrun _ hc hf hop hdue free ends s1
  have hstep := exec_engines hrun hc hf hop hdue
  refine ⟨fun hcopy hl => ?lost, fun g hcopy hg => ⟨fun hk => ?unfinished, fun hall hw => ?ended⟩, fun hcopy => ?copyBack⟩
  case lost =>
    rw [stkStep_lost hf hcopy hl] at hstep
    exact ⟨_, hstep, enginesRun_mem fid f s, enginesRun_lost hf hl⟩
  case unfinished => exact hstep.trans (congrArg _ (stkStep_unfinished hf hcopy hg hk))
  case ended =>
    have h : PassEnds fid f g s := ⟨hf, hcopy, hg, hall, hw⟩
    obtain rfl := h.fid_eq
    refine ⟨fun code hr => ⟨_, hstep, h.refused hr⟩, fun hr hovf hy => ⟨fun hh => ⟨_, hstep, h.written hr hovf hy hh⟩,
      fun hh => ⟨_, hstep, h.held hr hovf hy hh⟩⟩, fun src o hr hovf ho => ?overflowed,
      fun src hr hovf ho => ⟨_, hstep, h.unrecovered hr hovf ho⟩⟩
    obtain ⟨hmem, d, hd, hcont, hres, hwork⟩ := h.overflowed hr hovf ho
    exact ⟨_, hstep, hmem, d, hd, hcont, hres, hwork ▸ ⟨rfl, rfl, rfl⟩⟩
  case copyBack =>
    intro p hold r hw hr hy
    obtain rfl := (flightOf_mem (stkFlight_iff.mp hf).1).2
    exact ⟨_, hstep, stkStep_copiesBack hf hcopy rfl hw hr hy⟩

end Sys2Proof.Machine
end

section
/-!
PROOFS. Replays (R106, R170, R195): the next pass of each kind of descriptor begins with the next wider output format.
-/
namespace Sys2Proof.Machine

/-! ### A descriptor's work begins again -/

/-- Descriptor `fid` has work `w`. -/
def reworked (fid : Nat) (w : Work) (s : State) : State := updFlight fid (fun f => { f with work := w }) s

theorem reworked_only (fid : Nat) {w : Work} (hw : w ≠ .none) (s : State) : Only [.flights] s (reworked fid w s) := by
  have h : Reach [.flights] s (reworked fid w s) := updFlight_reach (by decide) (fun _ => ⟨fun _ => hw, id⟩) .rfl'
  exact h.frame

theorem flightOf_reworked {s : State} {fid : Nat} {f : Flight} (hf : flightOf s fid = some f) (w : Work) :
    flightOf (reworked fid w s) fid = some { f with work := w } := by
  rw [reworked, flightOf_updFlight _ hf, updOne, if_pos (flightOf_mem hf).2]

theorem exec_overflowReplay {fid : Nat} {s : State} (h : Running s) : exec (.overflowReplay fid) s = .next (replay fid s) :=
  congrArg Host.Outcome.next (wh_running h _)

section
variable {fid : Nat} {f : Flight} {s : State}

/-! ### GEMM and CONV (R106) -/

/-- A product's work at the start of its next pass. -/
def TileWork.nextPass (w : TileWork) (f : Flight) : TileWork :=
  { w with
    pass := w.pass + 1
    ofmt := (replayNext w.ofmt).getD w.ofmt
    preFmt := (replayNext w.preFmt).getD w.preFmt
    waiting := planSlots w.plan
    left := List.range (tileCount w.plan)
    sampled := sampledTiles f (jobOf f) w.plan ((replayNext w.ofmt).getD w.ofmt)
    ovf := none
    prim := []
    dists := []
    sat := []
    special := [] }

theorem replay_tiles {w : TileWork} (hf : tileFlight s fid = some (f, w)) (hop : dOp f.bytes = 2 ∨ dOp f.bytes = 3) :
    replay fid s = if w.ovf = none then s else reworked fid (.tiles (w.nextPass f)) s := by
  have hflight := (tileFlight_iff.mp hf).1
  have hgo : replay fid s = tileReplay fid s := by
    obtain hop | hop := hop <;> simp only [replay, hflight, hop]
  rw [hgo, tileReplay]
  simp only [hf, Option.isNone_iff_eq_none]
  rfl

/-! ### ATTN (R170) -/

theorem attnFlight_some {w : AttnWork} (h : attnFlight s fid = some (f, w)) :
    flightOf s fid = some f ∧ dOp f.bytes = 4 ∧ f.result = none ∧ scratchShut s f.q = false := by
  unfold attnFlight at h
  split at h
  next g hg =>
    split at h
    next => cases h
    next hok =>
      simp only [Option.some.injEq, Prod.mk.injEq] at h
      obtain ⟨rfl, -⟩ := h
      simpa [hg] using hok
  next => cases h

theorem attnFlight_of_work {w : AttnWork} (hf : flightOf s fid = some f) (hop : dOp f.bytes = 4) (hr : f.result = none)
    (hs : scratchShut s f.q = false) (hw : f.work = .attn w) : attnFlight s fid = some (f, w) := by
  simp [attnFlight, hf, hop, hr, hs, hw]

/-- An ATTN's work at the start of its next pass: captures stay. -/
def AttnWork.nextPass (w : AttnWork) (f : Flight) (s : State) : AttnWork :=
  { w with
    ofmt := (replayNext w.ofmt).getD w.ofmt
    pass := w.pass + 1
    left := List.range (atSeqs s f.q f.bytes f.cap.list)
    hits := []
    ovf := false
    special := []
    empty := 0 }

theorem replay_attn {w : AttnWork} (hf : attnFlight s fid = some (f, w)) :
    replay fid s = if w.ovf = false then s else reworked fid (.attn (w.nextPass f s)) s := by
  obtain ⟨hflight, hop, -⟩ := attnFlight_some hf
  unfold replay
  simp only [hflight, hop]
  rw [attnReplay]
  simp only [hf, Bool.not_eq_true']
  rfl

/-! ### SCAN (R195) -/

theorem scanFlight_some {w : ScanWork} (h : scanFlight s fid = some (f, w)) :
    flightOf s fid = some f ∧ dOp f.bytes = 6 ∧ f.result = none ∧ scratchShut s f.q = false := by
  unfold scanFlight at h
  split at h
  next g hg =>
    split at h
    next => cases h
    next hok =>
      simp only [Option.some.injEq, Prod.mk.injEq] at h
      obtain ⟨rfl, -⟩ := h
      simpa [hg] using hok
  next => cases h

theorem scanFlight_of_work {w : ScanWork} (hf : flightOf s fid = some f) (hop : dOp f.bytes = 6) (hr : f.result = none)
    (hs : scratchShut s f.q = false) (hw : f.work = .scan w) : scanFlight s fid = some (f, w) := by
  simp [scanFlight, hf, hop, hr, hs, hw]

/-- A SCAN's work at the start of its next pass: its admission stays. -/
def ScanWork.nextPass (w : ScanWork) : ScanWork :=
  { w with
    ofmt := (replayNext w.ofmt).getD w.ofmt
    pass := w.pass + 1
    chunks := []
    ovf := false
    special := []
    hand := 0 }

theorem replay_scan {w : ScanWork} (hf : scanFlight s fid = some (f, w)) :
    replay fid s = if w.ovf = false then s else reworked fid (.scan w.nextPass) s := by
  obtain ⟨hflight, hop, -⟩ := scanFlight_some hf
  unfold replay
  simp only [hflight, hop]
  rw [scanReplay]
  simp only [hf, Bool.not_eq_true']
  rfl

/-! ### The engines (R106) -/

/-- An engine descriptor's work at the start of its next pass, in output format `o`. -/
def StkWork.nextPass (w : StkWork) (o : Fmt) : StkWork := { w with ofmt := o, pass := w.pass + 1, due := false, done := [] }

theorem Flight.opcode_atEngines (h : f.atEngines = true) :
    dOp f.bytes = 0x01 ∨ dOp f.bytes = 0x07 ∨ dOp f.bytes = 0x09 ∨ dOp f.bytes = 0x0A := by
  have hop := (Bool.and_eq_true_iff.mp h).2
  simpa [or_assoc] using hop

theorem replay_engines {o : Fmt} (hf : stkFlight s fid = some f) (hdue : (stkWork f).due = true)
    (ho : stkReplays f (stkWork f).ofmt = some o) :
    replay fid s = stkStep fid (reworked fid (.stk ((stkWork f).nextPass o)) s) := by
  obtain ⟨hflight, hat, -⟩ := stkFlight_iff.mp hf
  have hgo : replay fid s = stkReplay fid s := by
    unfold replay
    obtain hop | hop | hop | hop := Flight.opcode_atEngines hat <;> simp only [hflight, hop]
  rw [hgo, stkReplay]
  simp only [hf, hdue, ho, Bool.not_true, Bool.false_eq_true, if_false]
  rfl

end

/-- Settles O30: each replay puts the descriptor's work at the start of its next pass, and an engine descriptor then takes a step,
which keeps that pass or ends it. -/
theorem aReplayRunsTheNextPass : Obligations.AReplayRunsTheNextPass := by
  unfold Obligations.AReplayRunsTheNextPass
  intro fid f s hrun hflight
  have hstep := exec_overflowReplay (fid := fid) hrun
  refine ⟨fun w hf hop => ?tiles, fun w hf => ?attn, fun w hf => ?scan, fun o hf hdue ho => ?engines⟩
  case tiles =>
    rw [replay_tiles hf hop] at hstep
    split
    next hno => rwa [if_pos hno] at hstep
    next hovf =>
      rw [if_neg hovf] at hstep
      obtain ⟨-, -, hr, hs⟩ := tileFlight_iff.mp hf
      exact ⟨_, hstep, reworked_only fid (by nofun) s, _, w.nextPass f,
        tileFlight_iff.mpr ⟨flightOf_reworked hflight _, rfl, hr, hs⟩, rfl, rfl, rfl, rfl, rfl, rfl, rfl⟩
  case attn =>
    rw [replay_attn hf] at hstep
    split
    next hno => rwa [if_pos hno] at hstep
    next hovf =>
      rw [if_neg hovf] at hstep
      obtain ⟨-, hop, hr, hs⟩ := attnFlight_some hf
      exact ⟨_, hstep, reworked_only fid (by nofun) s, _, w.nextPass f s,
        attnFlight_of_work (flightOf_reworked hflight _) hop hr hs rfl, rfl, rfl, rfl, rfl, rfl⟩
  case scan =>
    rw [replay_scan hf] at hstep
    split
    next hno => rwa [if_pos hno] at hstep
    next hovf =>
      rw [if_neg hovf] at hstep
      obtain ⟨-, hop, hr, hs⟩ := scanFlight_some hf
      exact ⟨_, hstep, reworked_only fid (by nofun) s, _, w.nextPass,
        scanFlight_of_work (flightOf_reworked hflight _) hop hr hs rfl, rfl, rfl, rfl, rfl, rfl⟩
  case engines =>
    rw [replay_engines hf hdue ho] at hstep
    have hnext : InPass fid f ((stkWork f).pass + 1) o (reworked fid (.stk ((stkWork f).nextPass o)) s) :=
      (inPass_start hflight).setWork ((stkWork f).nextPass o) _ fun _ => ⟨rfl, rfl⟩
    exact ⟨_, hstep, stkStep_inPass hnext⟩

end Sys2Proof.Machine
end

section
/-!
PROOFS. A product whose queue captured no granted array (R117, R127): its plan has no slot, and no round brings it to a result.
-/
namespace Sys2Proof.Machine

/-- Rounds of a state that a round leaves as it is. -/
theorem tileRounds_fixed {fid : Nat} {s : State} (h : tileRound fid s = s) (k : Nat) : tileRounds fid k s = s := by
  induction k with
  | zero => rfl
  | succ k ih =>
    rw [tileRounds, h, ih]
    split
    · split <;> rfl
    · rfl

/-- A GEMM of one element by one in K8 with every address 0, whose queue captured a G of 0 at its issue. -/
def slotless : Flight :=
  { fid := 0, q := 0, entry := 0, desc := 0, tag := 0, addr := 0
    bytes := [2] ++ List.replicate 23 0 ++ [1, 0, 0, 0, 1, 0, 0, 0, 1, 0, 0, 0, 1, 0] ++ List.replicate 26 0
    cap := ⟨0, 0, [], 0, [], []⟩, seq := 1, station := .arr, snap := none, work := .none, result := none, detail := 0, replays := 0 }

/-- The device runs, partition 0 holds the first extent and every array, and the GEMM is all that is in flight. -/
def slotlessRun : State :=
  { State.reset with
    pwr := { State.reset.pwr with mode := .running }
    exts := [(0, .assigned 0)]
    flights := [slotless]
    nextFid := 1 }

/-- The state once a planner has taken it. -/
def slotlessTaken : State := plannerTake slotlessRun

theorem slotless_taken : drainRead 0 (takeUntil 0 16 slotlessRun) = slotlessTaken := by decide +kernel

theorem slotless_works : (tileFlight slotlessTaken 0).map (fun x => x.2.plan.k) = some 1 := by decide +kernel

theorem slotless_round : tileRound 0 slotlessTaken = slotlessTaken := by decide +kernel

theorem slotless_unfinished : (flightOf slotlessTaken 0).bind Flight.result = none := by decide +kernel

/-- Its command leaves it where the planner left it. -/
theorem slotless_gemm : exec (.gemm 0) slotlessRun = .next slotlessTaken := by
  have hf : flightOf slotlessRun 0 = some slotless := by decide +kernel
  have hop : ¬((!isTileOp slotless) = true ∨ dOp slotless.bytes ≠ 2) := by decide +kernel
  have hgo : tileGo 2 0 slotlessRun = slotlessTaken := by
    obtain ⟨⟨f, w⟩, hw, hk⟩ := Option.map_eq_some_iff.mp slotless_works
    have hk0 : w.plan.k ≠ 0 := hk ▸ Nat.one_ne_zero
    unfold tileGo
    simp only [hf, if_neg hop, slotless_taken, hw, if_neg hk0]
    exact tileRounds_fixed slotless_round _
  exact congrArg Host.Outcome.next ((wh_running (show Running slotlessRun from rfl) _).trans hgo)

/-- Refutes O19: a GEMM whose captured G is 0 meets every hypothesis on its plan, and its plan has no slot, so that no array ever runs
it: its command ends without a result. -/
theorem not_productsRunToTheirResults : ¬ Obligations.ProductsRunToTheirResults := by
  unfold Obligations.ProductsRunToTheirResults
  rintro ⟨hproducts, -, -⟩
  have hcanon : Canonical slotlessRun :=
    ⟨rfl, rfl, rfl, rfl, rfl, rfl, rfl, rfl, by decide +kernel, rfl, rfl, rfl, rfl,
      List.pairwise_singleton _ _, by decide +kernel⟩
  have hidle : ∀ n, n < 160 → (arr slotlessRun n).run = none ∧ (arr slotlessRun n).shadow = none ∧
      (arr slotlessRun n).staging = [] ∧ (arr slotlessRun n).halves.length = 4 := fun _ _ => ⟨rfl, rfl, rfl, rfl⟩
  obtain ⟨t, ht, -, g, hg, -, hresult⟩ := hproducts 0 2 (.gemm 0) slotless slotlessRun rfl hcanon List.mem_cons_self (by decide +kernel)
    (by decide +kernel) rfl rfl rfl (by decide +kernel) (by decide +kernel) rfl (by decide +kernel) (by decide +kernel) hidle
    ⟨0, by decide, by decide +kernel⟩ (by decide +kernel) (by decide +kernel) (by decide +kernel) (by decide +kernel)
    (by decide +kernel) (by decide +kernel) (by decide +kernel) (by decide +kernel) (by decide +kernel) (by decide +kernel)
  rw [slotless_gemm] at ht
  obtain rfl : slotlessTaken = t := Host.Outcome.next.inj ht
  have hnone := slotless_unfinished
  rw [hg, Option.bind_some, hresult] at hnone
  cases hnone

end Sys2Proof.Machine
end

section
/-!
PROOFS. Partials (R106, R130): two mates in staging become their sum, or their overflow ends the pass.
-/
namespace Sys2Proof.Machine

theorem exec_partialCombine {fid : Nat} {s : State} (h : Running s) : exec (.partialCombine fid) s = .next (partialCombine fid s) :=
  congrArg Host.Outcome.next (wh_running h _)

/-! ### One descriptor changes -/

/-- What a change of descriptor `fid` makes of it; which descriptor it is and where it runs stays. -/
theorem flightOf_updFlight_eq {s : State} {fid : Nat} {f : Flight} (g : Flight → Flight) (h : flightOf s fid = some f) :
    flightOf (updFlight fid g s) fid = some { f with
      snap := (g f).snap, work := (g f).work, result := (g f).result, detail := (g f).detail, replays := (g f).replays } := by
  rw [flightOf_updFlight g h, updOne, if_pos (flightOf_mem h).2]

/-- A descriptor without a result has the one it is finished with, and no more changes. -/
theorem finish_flight {s : State} {fid : Nat} {f : Flight} (h : flightOf s fid = some f) (hr : f.result = none)
    (code detail : Nat) :
    flightOf (finish fid code detail s) fid = some { f with result := some code, detail := detail } := by
  rw [finish, flightOf_updFlight_eq _ h]
  simp only [hr]

/-! ### A pass that overflows (R106) -/

/-- A product's work after its pass has overflowed; `pg` is the page that met the overflow. -/
def TileWork.overflowed (w : TileWork) (ch : Charged) (pg : Page) : TileWork :=
  { w with ovf := some ch, first := some (w.first.getD pg), waiting := [], prim := [], dists := [] }

/-- What an abandoned pass of a product left on the arrays is discarded and its mismatches are recorded. -/
def passAbandoned (fid q : Nat) (w : TileWork) (s : State) : State := raiseMismatches q 1 w.dists (clearArrays fid s)

theorem passAbandoned_flights (fid q : Nat) (w : TileWork) (s : State) : (passAbandoned fid q w s).flights = s.flights :=
  (flights_of_reach (L := recordPieces) (raiseMismatches_reach (by decide) (by decide) (by decide) (by decide) .rfl')
    (by decide)).trans (clearArrays_flights fid s)

/-- The work is set and nothing else, or the descriptor has its result once the regions are undefined and the overflow is
  recorded. -/
theorem passOver_cases {fid : Nat} {f : Flight} {w : TileWork} {s : State} (h : tileFlight s fid = some (f, w)) (ch : Charged)
    (pg : Page) : passOver fid ch pg s = setTiles fid (w.overflowed ch pg) (passAbandoned fid f.q w s) ∨
    ∃ u, Reach (.mem :: recordPieces) (passAbandoned fid f.q w s) u ∧ passOver fid ch pg s =
      finish fid 0x41 0 (updFlight fid (fun f => { f with replays := w.pass, work := .tiles (w.overflowed ch pg) }) u) := by
  unfold passOver
  simp only [h]
  split
  next => exact .inl rfl
  next =>
    exact .inr ⟨_, raiseV_reach (by decide) (by decide) (by decide) (by decide) (scrambleAll_reach (by decide) (by decide) .rfl'),
      rfl⟩

/-- The descriptor of an overflowed pass awaits its replay, or has its result. -/
theorem passOver_result {fid : Nat} {f : Flight} {w : TileWork} {s : State} (h : tileFlight s fid = some (f, w)) (ch : Charged)
    (pg : Page) : ∃ g, flightOf (passOver fid ch pg s) fid = some g ∧ Continues f g ∧
      (g.result = some 0x41 ∨ g.work = .tiles (w.overflowed ch pg)) := by
  obtain ⟨hf, -, hr, -⟩ := tileFlight_iff.mp h
  have hfid : f.fid = fid := (flightOf_mem hf).2
  have hflight := (flightOf_of_flights (passAbandoned_flights fid f.q w s) fid).trans hf
  obtain heq | ⟨u, hu, heq⟩ := passOver_cases h ch pg <;> rw [heq]
  · exact ⟨_, flightOf_reworked hflight _, ⟨rfl, fun _ => nofun, id⟩, .inr rfl⟩
  · have hu := (flightOf_of_flights (flights_of_reach hu (by decide)) fid).trans hflight
    exact ⟨_, finish_flight (flightOf_updFlight_eq _ hu) hr 0x41 0, ⟨rfl, fun _ => nofun, fun _ => nofun⟩, .inl rfl⟩

/-! ### Mates (R130) -/

/-- The staged entry `g` of array `n` has become `g'`. -/
def restaged (n : Nat) (g g' : Staged) (s : State) : State :=
  setArr n { arr s n with staging := (arr s n).staging.map fun u => if u = g then g' else u } s

/-- The first two mates of a descriptor in staging, `x` at place `i` of level `v`, while the arrays run. -/
structure Mates (fid : Nat) (f : Flight) (w : TileWork) (x y : Nat × Staged) (v i : Nat) (s : State) : Prop where
  running : arraysStopped s = false
  flight : tileFlight s fid = some (f, w)
  first : ((partsOf s fid).findSome? fun x => (mateOf (partsOf s fid) x).map fun y => (x, y)) = some (x, y)
  kind : x.2.kind = .part v i

section
variable {fid : Nat} {f : Flight} {w : TileWork} {x y : Nat × Staged} {v i : Nat} {s : State}

/-- The sum of two mates as it stands in staging. -/
def mateSum (w : TileWork) (x y : Staged) (v i : Nat) : Staged :=
  carryUp w.plan.l { x with kind := .part (v + 1) (i / 2), pairs := (pairsAdd w.ofmt x.pairs y.pairs).1 }

theorem partialCombine_sum (h : Mates fid f w x y v i s) (hz : (pairsAdd w.ofmt x.2.pairs y.2.pairs).2 = false) :
    partialCombine fid s = restaged x.1 x.2 (mateSum w x.2 y.2 v i) (unstaged y.1 y.2 s) := by
  obtain ⟨hstop, hf, hxy, hk⟩ := h
  unfold partialCombine
  simp only [hstop, hf, hxy, hk, hz, Bool.false_eq_true, if_false]
  rfl

theorem partialCombine_overflow (h : Mates fid f w x y v i s) (hz : (pairsAdd w.ofmt x.2.pairs y.2.pairs).2 = true) :
    partialCombine fid s = passOver fid .primary pgYrd s := by
  obtain ⟨hstop, hf, hxy, hk⟩ := h
  unfold partialCombine
  simp only [hstop, hf, hxy, hk, hz, Bool.false_eq_true, if_false, if_true]

end

/-- Settles O29: the sum takes the first mate's place once the second one has left its staging; an overflow gives the pass up. -/
theorem partialsCombineByPairs : Obligations.PartialsCombineByPairs := by
  unfold Obligations.PartialsCombineByPairs
  intro fid f w x y v i s hrun _ hstop hf hxy hk z g
  have hmates : Mates fid f w x y v i s := ⟨hstop, hf, hxy, hk⟩
  refine ⟨fun hz => ?sum, fun hz => ?overflow⟩
  case sum =>
    refine ⟨_, (exec_partialCombine hrun).trans (congrArg _ (partialCombine_sum hmates hz)), fun m hx hy => ?others,
      fun hne => ⟨?first, ?second⟩, fun heq => ?both, ?only⟩
    case others => exact (arr_setArr_other hx ..).trans (arr_setArr_other hy ..)
    case first =>
      rw [restaged, arr_setArr_same, unstaged, arr_setArr_other hne]
      rfl
    case second => rw [restaged, arr_setArr_other (Ne.symm hne), unstaged, arr_setArr_same]
    case both =>
      rw [restaged, arr_setArr_same, unstaged, heq, arr_setArr_same]
      rfl
    case only => exact (setArr_reach (by decide) (setArr_reach (by decide) .rfl')).frame
  case overflow =>
    obtain ⟨h, hh, hc, hend⟩ := passOver_result hf .primary pgYrd
    exact ⟨_, (exec_partialCombine hrun).trans (congrArg _ (partialCombine_overflow hmates hz)), h, hh, hc,
      hend.imp_right fun hw => ⟨_, hw, rfl, rfl⟩⟩

end Sys2Proof.Machine
end

section
/-!
PROOFS. Placement (R132, R133, R397, R398): the array that a waiting slot takes, and what the start of its run leaves.
-/
namespace Sys2Proof.Machine

theorem exec_runStart {s : State} (h : Running s) : exec .runStart s = .next (runStart s) :=
    congrArg Host.Outcome.next (wh_running h _)

/-! ### The best array (R132) -/

/-- In a rising list the first element that meets a test is the least. -/
theorem find?_least {l : List Nat} {p : Nat → Bool} {n m : Nat} (hl : l.Pairwise (· < ·)) (hn : l.find? p = some n) (hm : m ∈ l)
    (hp : p m = true) : n ≤ m := by
  obtain ⟨-, as, bs, rfl, has⟩ := List.find?_eq_some_iff_append.mp hn
  rcases List.mem_append.mp hm with hin | hin
  · exact absurd hp (by simpa using has m hin)
  · rcases List.mem_cons.mp hin with rfl | hin
    · exact Nat.le_refl _
    · exact Nat.le_of_lt ((List.pairwise_cons.mp (List.pairwise_append.mp hl).2.1).1 m hin)

/-- Array `n` is the best of a list by an affinity code: of the least code, and the lowest of those. -/
structure Best (aff : Nat → Nat) (l : List Nat) (n : Nat) : Prop where
  mem : n ∈ l
  least : ∀ m, m ∈ l → aff n < aff m ∨ aff n = aff m ∧ n ≤ m

/-- An affinity code is one of 1 to 4. -/
def IsAffinity (aff : Nat → Nat) : Prop := ∀ n, aff n ∈ [1, 2, 3, 4]

theorem bestBy_best {aff : Nat → Nat} {l : List Nat} {n : Nat} (ha : IsAffinity aff) (hl : l.Pairwise (· < ·))
    (h : bestBy aff l = some n) : Best aff l n := by
  obtain ⟨ks, k, rest, hcodes, hfound, hnone⟩ := List.findSome?_eq_some_iff.mp h
  have hk : aff n = k := beq_iff_eq.mp (List.find?_some (p := fun m => aff m == k) hfound)
  refine ⟨List.mem_of_find?_eq_some hfound, fun m hm => ?_⟩
  have hcode : aff m ∈ ks ++ k :: rest := hcodes ▸ ha m
  have hrising : (ks ++ k :: rest).Pairwise (· < ·) := hcodes ▸ (by decide)
  rcases List.mem_append.mp hcode with hin | hin
  · exact absurd (beq_self_eq_true _) (List.find?_eq_none.mp (hnone _ hin) m hm)
  · rcases List.mem_cons.mp hin with heq | hin
    · exact .inr ⟨hk.trans heq.symm, find?_least hl hfound hm (beq_iff_eq.mpr heq)⟩
    · exact .inl (hk ▸ (List.pairwise_cons.mp (List.pairwise_append.mp hrising).2.1).1 _ hin)

theorem bestBy_isSome {aff : Nat → Nat} {l : List Nat} (ha : IsAffinity aff) (hl : l ≠ []) : ∃ n, bestBy aff l = some n := by
  obtain ⟨m, hm⟩ := List.exists_mem_of_ne_nil l hl
  refine Option.isSome_iff_exists.mp (List.findSome?_isSome_iff.mpr ⟨aff m, ha m, ?_⟩)
  exact List.find?_isSome.mpr ⟨m, hm, beq_self_eq_true _⟩

theorem sliceAff_isAffinity (s : State) (q : Nat) (line : Option Nat) : IsAffinity (sliceAff s q line) := by
  intro n
  unfold sliceAff
  split
  · exact iteInduction (motive := (· ∈ [1, 2, 3, 4])) (fun _ => by decide) fun _ => by decide
  · decide

theorem affinity_isAffinity (s : State) (f : Flight) (p : Plan) (r : ArrRun) : IsAffinity (affinity s f p r) := by
  intro n
  unfold affinity
  dsimp only
  split
  · simp
  · split
    · simp
    · exact sliceAff_isAffinity ..

theorem idleArrays_rising (s : State) (q : Nat) : (idleArrays s q).Pairwise (· < ·) := List.pairwise_lt_range.filter _

theorem candidates_sublist (s : State) (f : Flight) : (candidates s f).Sublist (idleArrays s f.q) := by
  unfold candidates candidatesBy
  dsimp only
  split
  · exact List.nil_sublist _
  · split
    · exact List.filter_sublist
    · exact .refl _

theorem candidates_lt {s : State} {f : Flight} {n : Nat} (h : n ∈ candidates s f) : n < 160 :=
  List.mem_range.mp (List.mem_filter.mp ((candidates_sublist s f).subset h)).1

theorem bestArray_best {s : State} {f : Flight} {p : Plan} {r : ArrRun} {n : Nat}
    (h : bestArray s f p r (candidates s f) = some n) : Best (affinity s f p r) (candidates s f) n :=
  bestBy_best (affinity_isAffinity s f p r) ((idleArrays_rising s f.q).sublist (candidates_sublist s f)) h

/-! ### The clock point (R397, R398) -/

theorem fldPoint_ok {n : Nat} (h : n < 160) : (fldPoint n).ok = true := by
  refine decide_eq_true ?_
  simp only [fldPoint]
  omega

/-- The point that a run on array `n` starts at. -/
def startPoint (n : Nat) (s : State) : Nat := min 3 (rg s (pgClk (arrOwner s n)) Fld.CLK_POL_CEIL + limitOf s n)

theorem rg_raisePoint {n : Nat} (h : n < 160) (s : State) : rg (raisePoint n s) pgClkDev (fldPoint n) = startPoint n s := by
  refine (rg_st_same _ _ _ _ (fldPoint_ok h)).trans (Nat.mod_eq_of_lt ?_)
  have hwidth : (fldPoint n).hi + 1 - (fldPoint n).lo = 2 := by
    simp only [fldPoint]
    omega
  rw [hwidth]
  omega

theorem arrOwner_congr {s t : State} (hr : Same (.regs .prt) s t) (hp : t.parts = s.parts) (n : Nat) :
    arrOwner t n = arrOwner s n := by
  have hreg : ∀ p f, rg t (pgPrt p) f = rg s (pgPrt p) f := fun p f => by
    unfold rg
    rw [hr _ (Reach.regKey_blk (pgPrt p) f.off)]
  unfold arrOwner leaving
  simp only [hreg, hp]

theorem startPoint_of_reach {L : List Piece} {s t : State} (h : Reach L s t)
    (hL : ∀ k, k ∈ [Piece.regs .prt, .regs .clk, .parts, .pwr] → k ∉ L) (n : Nat) : startPoint n t = startPoint n s := by
  have hpwr : t.pwr = s.pwr := h.frame .pwr (hL _ (by decide))
  rw [startPoint, arrOwner_congr (h.frame _ (hL _ (by decide))) (parts_of_reach h (hL _ (by decide))),
    rg_of_reach (pg := pgClk _) h (hL (.regs .clk) (by decide)), limitOf, hpwr]
  rfl

/-! ### What working on keeps -/

/-- A relation that every step of an array's work keeps holds after the array has worked on. -/
theorem advance_keeps {R : Arr → Arr → Prop} (hrefl : ∀ a, R a a) (htrans : ∀ a b c, R a b → R b c → R a c)
    (hset : ∀ a run active shadow latch, R a { a with run := run, active := active, shadow := shadow, latch := latch })
    (htile : ∀ a mac busy, R a (Arr.tiled a mac busy)) (n k : Nat) (s : State) : R (arr s n) (arr (advance n k s) n) := by
  induction k generalizing s with
  | zero => exact hrefl _
  | succ k ih =>
    rw [advance]
    dsimp only
    split
    next => exact hrefl _
    next r hr =>
      split
      next f w it rest hf hi =>
        split
        next => exact hrefl _
        next =>
          split
          next =>
            split
            next => exact hrefl _
            next =>
              split
              next => exact hrefl _
              next =>
                refine htrans _ _ _ ?_ (ih _)
                rw [arr_setArr_same]
                exact hset ..
          next =>
            split
            next =>
              refine htrans _ _ _ ?_ (ih _)
              rw [arr_setArr_same]
              exact hset _ _ _ (arr s n).shadow (arr s n).latch
            next =>
              refine htrans _ _ _ ?_ (ih _)
              rw [((arrBecomes_setArr ..).tile ..).here]
              exact htrans _ _ _ (hset _ _ _ (arr s n).shadow (arr s n).latch) (htile ..)
      next => exact hrefl _

theorem advance_halves (n k : Nat) (s : State) : (arr (advance n k s) n).halves = (arr s n).halves :=
  advance_keeps (R := fun a b => b.halves = a.halves) (fun _ => rfl) (fun _ _ _ h h' => h'.trans h) (fun _ _ _ _ _ => rfl)
    (fun _ _ _ => rfl) n k s

/-- Working on leaves the count of runs. -/
theorem advance_runs (n k : Nat) {s : State} (h9 : (arr s n).cnt.length = 9) :
    (arr (advance n k s) n).cnt.getD 8 0 = (arr s n).cnt.getD 8 0 := by
  refine (advance_keeps (R := fun a b => a.cnt.length = 9 → b.cnt.length = 9 ∧ b.cnt.getD 8 0 = a.cnt.getD 8 0)
    (fun _ h => ⟨h, rfl⟩) (fun _ _ _ h h' h9 => ?_) (fun _ _ _ _ _ h => ⟨h, rfl⟩) (fun a mac busy h9 => ⟨?_, ?_⟩) n k s h9).2
  · obtain ⟨hb, hab⟩ := h h9
    obtain ⟨hc, hbc⟩ := h' hb
    exact ⟨hc, hbc.trans hab⟩
  · simpa [Arr.tiled] using h9
  · simp only [Arr.tiled, Arr.counted_length, h9, Arr.counted_cnt, Nat.reduceLT, if_false, Nat.reduceEqDiff]

/-! ### The start of a run (R132, R133) -/

/-- A product whose drain block, where it uses one, has been read reads it no more. -/
theorem drainRead_ready {fid : Nat} {s : State} (h : ∀ g w, tileFlight s fid = some (g, w) → drainReady g w = true) :
    drainRead fid s = s := by
  unfold drainRead
  split
  next g w hf => exact if_pos (h g w hf)
  next => rfl

theorem drainReads_ready {s : State} {l : List Flight}
    (h : ∀ f g w, f ∈ l → tileFlight s f.fid = some (g, w) → drainReady g w = true) :
    l.foldl (fun s f => drainRead f.fid s) s = s := by
  induction l with
  | nil => rfl
  | cons f l ih =>
    rw [List.foldl_cons, drainRead_ready fun g w => h f g w List.mem_cons_self]
    exact ih fun f g w hf => h f g w (List.mem_cons_of_mem _ hf)

/-- A descriptor with a slot waiting, its drain block read, and an array to take it. -/
def placeable (s : State) (f : Flight) : Bool :=
  match tileFlight s f.fid with
  | some (_, w) => !w.waiting.isEmpty && drainReady f w && !(candidates s f).isEmpty
  | none => false

/-- The run of a slot as it starts. -/
def newRun (f : Flight) (w : TileWork) (slot : Nat) (items : List Item) : ArrRun := ⟨f.fid, slot, w.pass, items, 0, false, [], 0⟩

/-- The first placeable descriptor is `f`, its lowest slot is `slot`, and no product waits for its drain block. -/
structure RunDue (f g : Flight) (w : TileWork) (slot : Nat) (items : List Item) (rest : List (Nat × List Item)) (s : State) :
    Prop where
  running : arraysStopped s = false
  blocks : ∀ h g w, h ∈ s.flights → tileFlight s h.fid = some (g, w) → drainReady g w = true
  first : s.flights.find? (placeable s) = some f
  flight : tileFlight s f.fid = some (g, w)
  waiting : w.waiting = (slot, items) :: rest

section
variable {f g : Flight} {w : TileWork} {slot n : Nat} {items : List Item} {rest : List (Nat × List Item)} {s : State}

theorem RunDue.candidates_ne (h : RunDue f g w slot items rest s) : candidates s f ≠ [] := by
  have hp := List.find?_some h.first
  simp only [placeable, h.flight, Bool.and_eq_true, Bool.not_eq_true', List.isEmpty_eq_false_iff] at hp
  exact hp.2

/-- A placement is counted with the planner, and with the queue where a pin decided it. -/
def placementCounted (f : Flight) (w : TileWork) (r : ArrRun) (n : Nat) (s : State) : State :=
  let k := affinity s f w.plan r n
  countPin f (jPin (jobOf f)) (pinActs s f (jPin (jobOf f))) (bestArray s f w.plan r (idleArrays s f.q)) n
    (tplInc w (if k ≤ 2 then Fld.TPL_AFF_FEED else if k = 3 then Fld.TPL_AFF_SLICE else Fld.TPL_AFF_NONE) s)

/-- The pieces that counts of a placement can change. -/
def placementPieces : List Piece := [.regs .dsp, .regs .tpl, .regs .ras, .regs .evr, .evr, .freeCtr]

theorem placementCounted_reach (f : Flight) (w : TileWork) (r : ArrRun) (n : Nat) (s : State) :
    Reach placementPieces s (placementCounted f w r n s) :=
  countPin_reach (by decide) (by decide) (by decide) (by decide) (by decide) (tplInc_reach (by decide) .rfl')

/-- The slot waits no more, and the array's clock point is that of a start. -/
def slotTaken (f : Flight) (w : TileWork) (rest : List (Nat × List Item)) (n : Nat) (s : State) : State :=
  raisePoint n (setTiles f.fid { w with waiting := rest } s)

/-- The array with a run that has just been placed on it. -/
def Arr.placed (a : Arr) (r : ArrRun) : Arr := { a with run := some r, active := none, latch := none }

/-- The slot has been taken, and its run stands on array `n` and is counted there. -/
def runPlaced (f : Flight) (w : TileWork) (r : ArrRun) (rest : List (Nat × List Item)) (n : Nat) (s : State) : State :=
  let u := slotTaken f w rest n (placementCounted f w r n s)
  arrCount n 8 1 (setArr n ((arr u n).placed r) u)

theorem runStart_places (h : RunDue f g w slot items rest s)
    (hn : bestArray s f w.plan (newRun f w slot items) (candidates s f) = some n) :
    runStart s = advance n advanceFuel (runPlaced f w (newRun f w slot items) rest n s) := by
  obtain ⟨hstop, hblocks, hfirst, hf, hw⟩ := h
  unfold runStart
  simp only [hstop, drainReads_ready hblocks, Bool.false_eq_true, if_false]
  split
  next f' hfind =>
    obtain rfl : f' = f := Option.some.inj (hfind.symm.trans hfirst)
    unfold newRun at hn
    simp only [hf, hw, hn]
    rfl
  next hnone => cases hnone.symm.trans hfirst

theorem slotTaken_reach (f : Flight) (w : TileWork) (rest : List (Nat × List Item)) (n : Nat) (s : State) :
    Reach [.regs .clk, .flights] s (slotTaken f w rest n s) :=
  raisePoint_reach (by decide) (setTiles_reach (by decide) .rfl')

theorem runPlaced_becomes (f : Flight) (w : TileWork) (r : ArrRun) (rest : List (Nat × List Item)) (n : Nat) (s : State) :
    ArrBecomes n (((arr s n).placed r).counted 8 1) (slotTaken f w rest n (placementCounted f w r n s))
      (runPlaced f w r rest n s) := by
  have hsame : arr (slotTaken f w rest n (placementCounted f w r n s)) n = arr s n :=
    (arr_of_reach (slotTaken_reach ..) (by decide) n).trans (arr_of_reach (placementCounted_reach ..) (by decide) n)
  rw [← hsame]
  exact (arrBecomes_setArr ..).count ..

end

/-- Settles O23: the best candidate takes the slot; what the array then works on leaves its run, its count of runs and its point. -/
theorem aRunStartsOnTheBestArray : Obligations.ARunStartsOnTheBestArray := by
  unfold Obligations.ARunStartsOnTheBestArray
  intro f g w slot items rest s hrun hstop hblocks hfirst hf hw r
  have hdue : RunDue f g w slot items rest s := ⟨hstop, hblocks, hfirst, hf, hw⟩
  obtain ⟨n, hn⟩ : ∃ n, bestArray s f w.plan r (candidates s f) = some n :=
    bestBy_isSome (affinity_isAffinity s f w.plan r) hdue.candidates_ne
  have hstep : runStart s = advance n advanceFuel (runPlaced f w r rest n s) := runStart_places hdue hn
  obtain ⟨hmem, hleast⟩ := bestArray_best hn
  have hlt : n < 160 := candidates_lt hmem
  have hcounted := placementCounted_reach f w r n s
  have htaken := slotTaken_reach f w rest n (placementCounted f w r n s)
  have hbefore (m : Nat) : arr (slotTaken f w rest n (placementCounted f w r n s)) m = arr s m :=
    (arr_of_reach htaken (by decide) m).trans (arr_of_reach hcounted (by decide) m)
  have hplaced := runPlaced_becomes f w r rest n s
  obtain ⟨hworked, hothers, honly⟩ := hplaced.advance advanceFuel
  refine ⟨_, (exec_runStart hrun).trans (congrArg _ hstep), n, hmem, hleast, ?run, ?slot, fun h9 => ?count,
    ?point, fun m hm => (hothers m hm).trans (hbefore m), ?mem⟩
  case run =>
    obtain ⟨r', hr', horigin⟩ := Option.map_eq_some_iff.mp hworked.run
    obtain ⟨hfid, hslot, hpass, -⟩ : r'.fid = f.fid ∧ r'.slot = slot ∧ r'.pass = w.pass ∧ r'.preloads = 0 := by
      simpa [ArrRun.origin] using horigin
    exact ⟨r', hr', hfid, hslot, hpass⟩
  case slot =>
    have hwork : tileFlight (placementCounted f w r n s) f.fid = some (g, w) :=
      (tileFlight_congr (flights_of_reach hcounted (by decide)) (parts_of_reach hcounted (by decide)) _).trans hf
    refine ⟨{ g with work := .tiles { w with waiting := rest } }, ?_⟩
    rw [tileFlight_congr (flights_of_reach honly (by decide)) (parts_of_reach honly (by decide))]
    exact (tileFlight_congr (st_flights ..) (st_parts ..) _).trans (tileFlight_setTiles hwork _)
  case count =>
    have h9' : ((arr s n).placed r).cnt.length = 9 := h9
    rw [advance_runs n advanceFuel (by rw [hplaced.here, Arr.counted_length, h9']), hplaced.here, Arr.counted_cnt h9' (by decide),
      if_pos rfl]
    rfl
  case point =>
    have hset : Reach [.flights] (placementCounted f w r n s)
      (setTiles f.fid { w with waiting := rest } (placementCounted f w r n s)) :=
      setTiles_reach (by decide) .rfl'
    rw [rg_of_reach (pg := pgClkDev) honly (by decide)]
    exact (rg_raisePoint hlt _).trans ((startPoint_of_reach hset (by decide) n).trans (startPoint_of_reach hcounted (by decide) n))
  case mem =>
    exact (mem_of_reach honly (by decide)).trans ((mem_of_reach htaken (by decide)).trans (mem_of_reach hcounted (by decide)))

end Sys2Proof.Machine
end

section
/-!
PROOFS. Chunk delivery (R128, R129): the array that takes a chunk, the arrays that take it with it, and what a delivery leaves.
-/
namespace Sys2Proof.Machine

theorem exec_chunkDelivery {n : Nat} {isA : Bool} {s : State} (h : Running s) :
    exec (.chunkDelivery n isA) s = .next (chunkDelivery n isA s) := congrArg Host.Outcome.next (wh_running h _)

/-! ### The halves of an array (R128) -/

theorem sameChunk_self (j : Job) (p : Plan) (c : Chunk) : sameChunk j p c c = true := by simp [sameChunk]

theorem holds_of_mem {j : Job} {p : Plan} {a : Arr} {c : Chunk} (h : some c ∈ sideOf a c.isA) : holds j p a c = true :=
  List.any_eq_true.mpr ⟨some c, h, sameChunk_self j p c⟩

theorem holds_congr {a b : Arr} (h : b.halves = a.halves) (j : Job) (p : Plan) (c : Chunk) : holds j p b c = holds j p a c := by
  unfold holds sideOf
  rw [h]

/-- What either half of an operand's side is set to stands on that side. -/
theorem mem_side_set {l : List (Option Chunk)} (hl : l.length = 4) (x : Option Chunk) (isA : Bool) (b : Prop) [Decidable b] :
    let l' := l.set (if b then (if isA then 0 else 2) else (if isA then 0 else 2) + 1) x
    x ∈ (if isA then l'.take 2 else l'.drop 2) := by
  obtain ⟨h0, h1, h2, h3, rfl⟩ := List.length_eq_four.mp hl
  cases isA <;> by_cases hb : b <;> simp [hb]

theorem fillHalf_holds {j : Job} {p : Plan} {a : Arr} (h4 : a.halves.length = 4) (r : ArrRun) (c : Chunk) :
    holds j p (fillHalf j p a r c) c = true :=
  holds_of_mem (mem_side_set h4 (some c) c.isA _)

/-! ### The arrays that take a chunk (R129) -/

/-- An array with the chunk it is due in a half. -/
def Arr.chunkTaken (a : Arr) (j : Job) (p : Plan) (isA : Bool) : Arr :=
  match a.run with
  | some x => match dueChunk j p a x isA with
    | some d => fillHalf j p a x d
    | none => a
  | none => a

theorem chunkTaken_of_due {j : Job} {p : Plan} {a : Arr} {x : ArrRun} {isA : Bool} {d : Chunk} (hr : a.run = some x)
    (hd : dueChunk j p a x isA = some d) : a.chunkTaken j p isA = fillHalf j p a x d := by simp only [Arr.chunkTaken, hr, hd]

/-- The arrays of a delivery take their chunks, one after the other. -/
def chunksTaken (j : Job) (p : Plan) (isA : Bool) (l : List Nat) (s : State) : State :=
  l.foldl (fun s m => takeChunk j p isA m s) s

section
variable {j : Job} {p : Plan} {isA : Bool} {m n : Nat} {s : State} {l : List Nat}

theorem takeChunk_halves : (arr (takeChunk j p isA m s) m).halves = ((arr s m).chunkTaken j p isA).halves := by
  unfold takeChunk
  split
  next x hx =>
    split
    next d hd => rw [advance_halves, arr_setArr_same, chunkTaken_of_due hx hd]
    next hd => simp only [Arr.chunkTaken, hx, hd]
  next hx => simp only [Arr.chunkTaken, hx]

theorem takeChunk_others (h : n ≠ m) : arr (takeChunk j p isA m s) n = arr s n := by
  unfold takeChunk
  split
  next x hx =>
    split
    next d hd => exact ((advance_worked m _ _).others n h).trans (arr_setArr_other h _ _)
    next => rfl
  next => rfl

theorem chunksTaken_others (h : n ∉ l) : arr (chunksTaken j p isA l s) n = arr s n := by
  induction l generalizing s with
  | nil => rfl
  | cons m l ih =>
    obtain ⟨hm, hl⟩ : n ≠ m ∧ n ∉ l := by simpa using h
    exact (ih hl).trans (takeChunk_others hm)

theorem chunksTaken_halves (hl : l.Nodup) (h : n ∈ l) :
    (arr (chunksTaken j p isA l s) n).halves = ((arr s n).chunkTaken j p isA).halves := by
  induction l generalizing s with
  | nil => cases h
  | cons m l ih =>
    obtain ⟨hm, hl⟩ := List.nodup_cons.mp hl
    rcases List.mem_cons.mp h with rfl | hin
    · exact (congrArg Arr.halves (chunksTaken_others hm)).trans takeChunk_halves
    · have hne : n ≠ m := fun he => hm (he ▸ hin)
      exact (ih hl hin).trans (congrArg (fun a => (a.chunkTaken j p isA).halves) (takeChunk_others hne))

theorem chunksTaken_reach : Reach [.arrs] s (chunksTaken j p isA l s) :=
  Reach.foldl (fun _ _ h => takeChunk_reach (by decide) h) .rfl'

theorem chunksTaken_holds {x : ArrRun} {d : Chunk} (h4 : (arr s n).halves.length = 4) (hl : l.Nodup) (h : n ∈ l)
    (hr : (arr s n).run = some x) (hd : dueChunk j p (arr s n) x isA = some d) :
    holds j p (arr (chunksTaken j p isA l s) n) d = true := by
  rw [holds_congr (chunksTaken_halves hl h), chunkTaken_of_due hr hd]
  exact fillHalf_holds h4 x d

end

/-- The arrays that a delivery reaches. -/
def chunkTakers (j : Job) (p : Plan) (r : ArrRun) (isA : Bool) (c : Chunk) (s : State) : List Nat :=
  (chunkMates s r).filter (chunkDue s j p isA c)

theorem chunkTakers_nodup (j : Job) (p : Plan) (r : ArrRun) (isA : Bool) (c : Chunk) (s : State) :
    (chunkTakers j p r isA c s).Nodup := (List.nodup_range.filter _).filter _

theorem mem_chunkTakers {j : Job} {p : Plan} {r r' : ArrRun} {isA : Bool} {c d : Chunk} {s : State} {m : Nat} (hm : m < 160)
    (hr : (arr s m).run = some r') (hfid : r'.fid = r.fid) (hpass : r'.pass = r.pass) (hd : dueChunk j p (arr s m) r' isA = some d)
    (hkey : chunkKey j p d = chunkKey j p c) : m ∈ chunkTakers j p r isA c s := by
  simp [chunkTakers, chunkMates, chunkDue, hm, hr, hfid, hpass, hd, hkey]

/-! ### A delivery -/

/-- The running array `n` is due chunk `c` of a descriptor with tile work. -/
structure DeliveryDue (n : Nat) (isA : Bool) (r : ArrRun) (f : Flight) (w : TileWork) (c : Chunk) (s : State) : Prop where
  running : arraysStopped s = false
  run : (arr s n).run = some r
  flight : tileFlight s r.fid = some (f, w)
  due : dueChunk (jobOf f) w.plan (arr s n) r isA = some c

section
variable {n : Nat} {isA : Bool} {r : ArrRun} {f : Flight} {w : TileWork} {c : Chunk} {s : State}

/-- The state in which a delivery's arrays take the chunk: its lines read, the delivery counted with the planner. -/
def deliveryRead (f : Flight) (w : TileWork) (c : Chunk) (s : State) : State :=
  tplInc w Fld.TPL_DELIVERIES (linesRead f (chunkReads (jobOf f) w.plan c) s).1

theorem chunkDelivery_waits (h : DeliveryDue n isA r f w c s) (hw : chunkWaits s f w r isA c = true) :
    chunkDelivery n isA s = s := by
  simp only [chunkDelivery, h.running, h.run, h.flight, h.due, hw, Bool.false_eq_true, if_false, if_true]

theorem chunkDelivery_delivers (h : DeliveryDue n isA r f w c s) (hw : chunkWaits s f w r isA c = false)
    (hready : mustWait s f.fid (chunkReads (jobOf f) w.plan c) [] = false)
    (hcode : (linesRead f (chunkReads (jobOf f) w.plan c) s).2 = none) :
    chunkDelivery n isA s =
      chunksTaken (jobOf f) w.plan isA (chunkTakers (jobOf f) w.plan r isA c s) (deliveryRead f w c s) := by
  simp only [chunkDelivery, h.running, h.run, h.flight, h.due, hw, Bool.false_eq_true, if_false, readThen_ready hready hcode]
  rfl

theorem deliveryRead_arr (f : Flight) (w : TileWork) (c : Chunk) (s : State) (m : Nat) : arr (deliveryRead f w c s) m = arr s m :=
  (arr_of_reach (tplInc_reach (L := [.regs .tpl]) (by decide) .rfl') (by decide) m).trans (linesRead_arr ..)

theorem deliveryRead_mem (f : Flight) (w : TileWork) (c : Chunk) (s : State) : (deliveryRead f w c s).mem = s.mem :=
  (mem_of_reach (tplInc_reach (L := [.regs .tpl]) (by decide) .rfl') (by decide)).trans (linesRead_mem ..)

theorem deliveryRead_counts {i : Nat} (hi : w.planner = some i) (f : Flight) (c : Chunk) (s : State) :
    CountsUp (pgTpl i) Fld.TPL_DELIVERIES 1 s (deliveryRead f w c s) := by
  unfold deliveryRead tplInc
  rw [hi]
  exact (countsUp_inc (by decide) 1 _).congr (rg_of_reach (pg := pgTpl i) (linesRead_reach ..) (by simp [readPieces]) _) rfl

end

/-- Settles O24: each array that is due the bytes takes its chunk once, and working on leaves its halves. -/
theorem aChunkReachesEveryArrayDueIt : Obligations.AChunkReachesEveryArrayDueIt := by
  unfold Obligations.AChunkReachesEveryArrayDueIt
  intro n isA r f w c s hrun hn hstop hr hf hc j rd
  have hdue : DeliveryDue n isA r f w c s := ⟨hstop, hr, hf, hc⟩
  rw [exec_chunkDelivery hrun]
  refine ⟨fun hw => by rw [chunkDelivery_waits hdue hw], fun hw hready hcode h4 => ?_⟩
  refine ⟨_, congrArg _ (chunkDelivery_delivers hdue hw hready hcode), ?mem, ?here, fun m r' d hm hr' hfid hpass hd hkey => ?mate,
    fun i hi => ?count⟩
  case mem => exact (mem_of_reach chunksTaken_reach (by decide)).trans (deliveryRead_mem ..)
  case here =>
    exact chunksTaken_holds (by rw [deliveryRead_arr, h4]) (chunkTakers_nodup ..) (mem_chunkTakers hn hr rfl rfl hc rfl)
      (by rw [deliveryRead_arr, hr]) (by rw [deliveryRead_arr]; exact hc)
  case mate =>
    exact chunksTaken_holds (by rw [deliveryRead_arr, h4]) (chunkTakers_nodup ..) (mem_chunkTakers hm hr' hfid hpass hd hkey)
      (by rw [deliveryRead_arr, hr']) (by rw [deliveryRead_arr]; exact hd)
  case count => exact (deliveryRead_counts hi f c s).congr rfl (rg_of_reach (pg := pgTpl i) chunksTaken_reach (by simp) _)

end Sys2Proof.Machine
end

section
/-!
PROOFS. Planning (R75, R118, R134, R135): what a planner leaves of the descriptor it takes,
  and how the read of its drain block ends.
-/
namespace Sys2Proof.Machine

theorem exec_plannerTake {s : State} (h : Running s) : exec .plannerTake s = .next (plannerTake s) :=
  congrArg Host.Outcome.next (wh_running h _)

/-! ### What ownership and waiting depend on (R220, R228, R231, R239) -/

section
variable {L : List Piece} {s t : State}

theorem ownsAt_same (h : BaseSame s t) (p a : Nat) : ownsAt t p a = ownsAt s p a := by
  have hshut : scratchShut t p = scratchShut s p := by rw [scratchShut, partState, h.parts, scratchShut, partState]
  unfold ownsAt
  cases hr : regionOf a with
  | hbm k => simp only [h.exts]
  | lpd k => simp only [h.exts]
  | scratch k => simp only [hshut, h.ways k 2 p (scratch_lt hr)]
  | lease n => simp only [leaseAt_same h]
  | none => rfl

/-- The pieces that the outcome of an access depends on. -/
def accessPieces : List Piece := [.exts, .parts, .leases, .secs, .sec, .regs .yrd]

theorem closed_of_reach (h : Reach L s t) (hL : Piece.regs .mem ∉ L) (p k : Nat) : closed t p k = closed s p k := by
  rw [closed, rateOf, rg_of_reach (pg := pgMemP p) h hL]
  rfl

theorem structRange_of_reach (h : Reach L s t) (hL : ∀ k, k ∈ accessPieces → k ∉ L) (hm : Piece.regs .mem ∉ L) (p a n : Nat) :
    structRange t p a n = structRange s p a n := by
  simp only [structRange, ownsAt_same (base_of_reach h hL), closed_of_reach h hm]

theorem opRange_of_reach (h : Reach L s t) (hL : ∀ k, k ∈ accessPieces → k ∉ L) (hm : Piece.regs .mem ∉ L) (p a n : Nat) :
    opRange t p a n = opRange s p a n := by
  simp only [opRange, ownsAt_same (base_of_reach h hL), closed_of_reach h hm]

theorem chkDrainBlk_of_reach (h : Reach L s t) (hL : ∀ k, k ∈ accessPieces → k ∉ L) (hm : Piece.regs .mem ∉ L) (q c : Nat)
    (d : List Byte) (p : Plan) (blk : Bool) : chkDrainBlk t q c d p blk = chkDrainBlk s q c d p blk := by
  simp only [chkDrainBlk, tenSpanOwned, opRange_of_reach h hL hm]

theorem rdBytes_of_mem (h : t.mem = s.mem) (a n : Nat) : rdBytes t a n = rdBytes s a n := by
  unfold rdBytes rd1
  rw [h]

theorem heldRange_of_reach (h : Reach L s t) (hL : ∀ k, k ∈ [Piece.retrain, .yard] → k ∉ L) (a n : Nat) :
    heldRange t a n = heldRange s a n := by
  have hretrain : t.retrain = s.retrain := h.frame .retrain (hL _ (by decide))
  have hyard : t.yard = s.yard := h.frame .yard (hL _ (by decide))
  rw [heldRange, hretrain, hyard, heldRange]

theorem heldFor_of_reach (h : Reach L s t) (hL : ∀ k, k ∈ [Piece.retrain, .yard, .leases, .accs] → k ∉ L) (fid a n : Nat) :
    heldFor t fid a n = heldFor s fid a n := by
  have hleases : t.leases = s.leases := h.frame .leases (hL _ (by decide))
  have haccs : t.accs = s.accs := h.frame .accs (hL _ (by decide))
  have hrange := heldRange_of_reach h (fun k hk => hL k (by revert k; decide)) a n
  unfold heldFor leasePieces leaseAt pieceRead
  rw [hrange, hleases, haccs]

theorem nothingHeld_of_reach (h : Reach L s t) (hL : ∀ k, k ∈ [Piece.retrain, .yard] → k ∉ L) (hs : NothingHeld s) :
    NothingHeld t := by
  have hretrain : t.retrain = s.retrain := h.frame .retrain (hL _ (by decide))
  have hyard : t.yard = s.yard := h.frame .yard (hL _ (by decide))
  rw [NothingHeld, hretrain, hyard]
  exact hs

/-- Where nothing waits, a read waits for the ranges that are held or still to be fetched, and for nothing else. -/
theorem mustWait_reads (h : NothingHeld s) (fid : Nat) (l : List (Nat × Nat)) :
    mustWait s fid l [] = l.any fun x => heldFor s fid x.1 x.2 := by
  obtain ⟨-, hwaiting, -⟩ := h
  simp [mustWait, behind, hwaiting]

end

/-! ### How the read of a drain block ends (R75) -/

/-- A station that gives up leaves its descriptor with the code. -/
theorem flightOf_failTiles {s : State} {fid : Nat} {g : Flight} {w : TileWork} (h : tileFlight s fid = some (g, w)) (code : Nat) :
    flightOf (failTiles fid code s) fid = some { g with result := some code, detail := 0 } := by
  obtain ⟨hf, -, hr, -⟩ := tileFlight_iff.mp h
  unfold failTiles
  simp only [h]
  exact finish_flight ((flightOf_of_flights (passAbandoned_flights fid g.q w s) fid).trans hf) hr code 0

/-- The drain block of product `g` is used and still unread, in memory that the partition may read. -/
structure BlockDue (fid : Nat) (g : Flight) (w : TileWork) (s : State) : Prop where
  flight : tileFlight s fid = some (g, w)
  unread : drainReady g w = false

section
variable {fid : Nat} {g : Flight} {w : TileWork} {s : State}

/-- The address of a product's drain block. -/
def blockAt (g : Flight) : Nat := dAddr (jobOf g).bytes 48

/-- The checks of a product's drain block as it stands in memory. -/
def blockChecks (g : Flight) (w : TileWork) (s : State) : Chk :=
  chkDrainBlk s g.q (jCtl (jobOf g)) (rdBytes s (blockAt g) 64) w.plan (jCblk (jobOf g))

/-- The vectors that a product's drain block names. -/
def blockVecs (g : Flight) (w : TileWork) (s : State) : List (Nat × Nat) :=
  drainVecs (jCtl (jobOf g)) (rdBytes s (blockAt g) 64) w.plan

/-- The read of a product's drain block, once it proceeds. -/
def blockRead (fid : Nat) (g : Flight) (s : State) : State × Option Nat := memRead .yard g.q (blockAt g) 64 (proceed fid s)

theorem blockRead_reach (fid : Nat) (g : Flight) (s : State) : Reach readPieces s (blockRead fid g s).1 :=
  (memRead_reach (by decide) (by decide) (by decide) (by decide) (by decide) (by decide) (by decide) (by decide) (by decide)
    (by decide) (proceed_reach (by decide) .rfl')).out

/-- The state after the read of a drain block that fails its checks, each condition after the first one counted. -/
def blockCounted (fid : Nat) (g : Flight) (w : TileWork) (s : State) : State :=
  (chkCodes (blockChecks g w s)).tail.foldl (fun s x => countCode (pgDsp g.q) x 0 (some g.q) s) (blockRead fid g s).1

theorem blockCounted_reach (fid : Nat) (g : Flight) (w : TileWork) (s : State) : Reach readPieces s (blockCounted fid g w s) :=
  Reach.foldl (fun _ _ h => countCode_reach (by decide) (by decide) (by decide) (by decide) h) (blockRead_reach fid g s)

/-- The read of the vectors that a drain block names. -/
def vecsRead (fid : Nat) (g : Flight) (w : TileWork) (s : State) : State × Option Nat :=
  readAll .yard g.q (blockVecs g w s) (blockRead fid g s).1

theorem vecsRead_reach (fid : Nat) (g : Flight) (w : TileWork) (s : State) : Reach readPieces s (vecsRead fid g w s).1 :=
  (readAll_reach (by decide) (by decide) (by decide) (by decide) (by decide) (by decide) (by decide) (by decide) (by decide)
    (by decide) (blockRead_reach fid g s)).out

theorem drainRead_strange (h : BlockDue fid g w s) (hs : structRange s g.q (blockAt g) 64 = false) :
    drainRead fid s = failTiles fid 0x20 s := by
  unfold blockAt at hs
  simp only [drainRead, h.flight, h.unread, hs, Bool.false_eq_true, if_false, Bool.not_false, if_true]

/-- Nothing makes the reads of the block or of its vectors wait. -/
structure BlockFree (fid : Nat) (g : Flight) (w : TileWork) (s : State) : Prop where
  owned : structRange s g.q (blockAt g) 64 = true
  block : mustWait s fid [(blockAt g, 64)] [] = false
  vecs : mustWait s fid (blockVecs g w s) [] = false

theorem drainRead_code (h : BlockDue fid g w s) (hr : BlockFree fid g w s) {c : Nat} (hc : (blockRead fid g s).2 = some c) :
    drainRead fid s = failTiles fid c (blockRead fid g s).1 := by
  obtain ⟨howned, hblock, -⟩ := hr
  unfold blockAt at howned hblock
  unfold blockRead blockAt at hc
  simp only [drainRead, h.flight, h.unread, howned, hblock, hc, Bool.false_eq_true, if_false, Bool.not_true]
  rfl

theorem drainRead_checks (h : BlockDue fid g w s) (hr : BlockFree fid g w s) (hc : (blockRead fid g s).2 = none)
    (hk : chkCode (blockChecks g w s) ≠ 0) :
    drainRead fid s = failTiles fid (chkCode (blockChecks g w s)) (blockCounted fid g w s) := by
  obtain ⟨howned, hblock, -⟩ := hr
  unfold blockAt at howned hblock
  unfold blockRead blockAt at hc
  unfold blockChecks blockAt at hk
  simp only [drainRead, h.flight, h.unread, howned, hblock, hc, Bool.false_eq_true, if_false, Bool.not_true]
  exact if_pos hk

theorem drainRead_reads (h : BlockDue fid g w s) (hr : BlockFree fid g w s) (hc : (blockRead fid g s).2 = none)
    (hk : chkCode (blockChecks g w s) = 0) (hv : (vecsRead fid g w s).2 = none) :
    drainRead fid s = setTiles fid { w with
      dblk := rdBytes s (blockAt g) 64
      preFmt := preFmtOf (rdBytes s (blockAt g) 64) } (vecsRead fid g w s).1 := by
  obtain ⟨howned, hblock, hvecs⟩ := hr
  unfold blockAt at howned hblock
  unfold blockVecs blockAt at hvecs
  unfold blockChecks blockAt at hk
  unfold vecsRead blockVecs blockRead blockAt at hv
  unfold blockRead blockAt at hc
  simp only [drainRead, h.flight, h.unread, howned, hblock, hc, hk, hvecs, hv, Bool.false_eq_true, if_false, Bool.not_true, ne_eq,
    not_true_eq_false]
  rfl

theorem tileFlight_read {t : State} (h : Reach readPieces s t) (hf : tileFlight s fid = some (g, w)) :
    tileFlight t fid = some (g, w) :=
  (tileFlight_congr (flights_of_reach h (by decide)) (parts_of_reach h (by decide)) fid).trans hf

end

/-! ### A planner takes a descriptor (R118, R134, R135) -/

/-- The work of a product that planner `i` has planned. -/
def planWork (f : Flight) (i : Nat) : TileWork := { tileBegin f (jobOf f) with planner := some i }

/-- A planned descriptor, its inputs those of memory `m`. -/
def Flight.planned (f : Flight) (i : Nat) (m : List Host.Cell) : Flight := { f with snap := some m, work := .tiles (planWork f i) }

/-- Planner `i` counts the items of a descriptor of queue `q`. -/
def itemsCounted (p : Plan) (i q : Nat) (s : State) : State :=
  inc (pgTpl i) Fld.TPL_ITEMS (tileCount p * p.l) (st (pgTpl i) Fld.TPL_STATE_QUEUE q s)

/-- Planner `i` counts a descriptor of queue `q` and its items. -/
def planCounted (p : Plan) (i q : Nat) (s : State) : State :=
  wh (decide (1 < p.l)) (inc (pgTpl i) Fld.TPL_SPLIT 1) (inc (pgTpl i) Fld.TPL_PLANNED 1 (itemsCounted p i q s))

/-- Planner `i` has the descriptor, whose inputs are those that stand now. -/
def planTaken (f : Flight) (i : Nat) (s : State) : State :=
  let s := updFlight f.fid (fun f => { f with snap := some s.mem }) s
  { s with planners := tabSet (fun _ => none) s.planners i (some f.fid) }

/-- The state in which planner `i` has planned descriptor `f`; its drain block is still unread. -/
def plannedState (f : Flight) (i : Nat) (s : State) : State :=
  let p := (planWork f i).plan
  setTiles f.fid (planWork f i) (notePlan f.q p (jobOf f).g f.seq (planCounted p i f.q (planTaken f i s)))

/-- Descriptor `f` is the first one for a planner, and `i` is the lowest free planner. -/
structure PlanDue (f : Flight) (i : Nat) (s : State) : Prop where
  first : (s.flights.find? fun g => isTileOp g && g.work == .none && g.result.isNone && !scratchShut s g.q) = some f
  free : (firstBelow 16 fun i => !plannerBusy s i) = some i

section
variable {f : Flight} {i : Nat} {s : State}

theorem plannerTake_plans (h : PlanDue f i s) : plannerTake s = drainRead f.fid (plannedState f i s) := by
  unfold plannerTake
  simp only [h.first, h.free]
  rfl

theorem PlanDue.mem (h : PlanDue f i s) : f ∈ s.flights := List.mem_of_find?_eq_some h.first

theorem PlanDue.fresh (h : PlanDue f i s) : isTileOp f = true ∧ f.work = .none ∧ f.result = none ∧ scratchShut s f.q = false := by
  have hp := List.find?_some h.first
  simpa [and_assoc] using hp

theorem jobOf_bytes {f : Flight} (h : isTileOp f = true) : (jobOf f).bytes = f.bytes := by
  have hop : dOp f.bytes ≠ 0x0F := by
    rcases (by simpa [isTileOp] using h : _ ∧ (dOp f.bytes = 0x02 ∨ dOp f.bytes = 0x03)).2 with e | e <;> simp [e]
  rw [jobOf, if_neg hop]

/-- The pieces that planning can change. -/
def planPieces : List Piece := [.regs .dsp, .regs .tpl, .flights, .planners]

theorem planners_of_reach {L : List Piece} {s t : State} (h : Reach L s t) (hL : Piece.planners ∉ L) : t.planners = s.planners :=
  h.frame .planners hL

theorem planTaken_reach (f : Flight) (i : Nat) (s : State) : Reach [.flights, .planners] s (planTaken f i s) :=
  Reach.planners (s := updFlight f.fid (fun f => { f with snap := some s.mem }) s)
    (updFlight_reach (by decide) (fun _ => ⟨id, id⟩) .rfl') (by decide)

theorem planCounted_reach (p : Plan) (i q : Nat) (s : State) : Reach [.regs .tpl] s (planCounted p i q s) :=
  Reach.wh (fun _ h => inc_reach (by simp) h) (inc_reach (by simp) (inc_reach (by simp) (st_reach (by simp) .rfl')))

theorem notePlan_only (q : Nat) (p : Plan) (g seq : Nat) (s : State) : Reach [.regs .dsp] s (notePlan q p g seq s) :=
  notePlan_reach (by decide) .rfl'

/-- Counting and noting a plan change registers alone. -/
theorem planNoted_reach (p : Plan) (i q g seq : Nat) (s : State) :
    Reach [.regs .tpl, .regs .dsp] s (notePlan q p g seq (planCounted p i q s)) :=
  ((planCounted_reach p i q s).comp (notePlan_only q p g seq _)).mono (by decide)

theorem plannedState_reach (f : Flight) (i : Nat) (s : State) : Reach planPieces s (plannedState f i s) :=
  setTiles_reach (by decide) (((planTaken_reach f i s).comp (planNoted_reach ..)).mono (by decide))

theorem flightOf_plannedState (h : flightOf s f.fid = some f) : flightOf (plannedState f i s) f.fid = some (f.planned i s.mem) := by
  have htaken : flightOf (planTaken f i s) f.fid = some { f with snap := some s.mem } := flightOf_updFlight_eq _ h
  have hnoted := flightOf_of_flights (flights_of_reach (planNoted_reach (planWork f i).plan i f.q (jobOf f).g f.seq
    (planTaken f i s))
    (by decide)) f.fid
  exact flightOf_updFlight_eq _ (hnoted.trans htaken)

theorem tileFlight_plannedState (hc : Canonical s) (h : PlanDue f i s) :
    tileFlight (plannedState f i s) f.fid = some (f.planned i s.mem, planWork f i) := by
  obtain ⟨-, -, hr, hshut⟩ := h.fresh
  refine tileFlight_iff.mpr ⟨flightOf_plannedState (flightOf_of_mem hc h.mem), rfl, hr, ?_⟩
  rw [scratchShut, partState, parts_of_reach (plannedState_reach f i s) (by decide)]
  exact hshut

theorem planners_plannedState (f : Flight) (i : Nat) (s : State) :
    (plannedState f i s).planners = tabSet (fun _ => none) s.planners i (some f.fid) := by
  have hnoted : (plannedState f i s).planners = (planTaken f i s).planners := planners_of_reach
    ((planNoted_reach ..).comp (setTiles_reach (L := [.flights]) (by decide) .rfl')) (by decide)
  rw [hnoted, planTaken, updFlight_planners]

theorem rg_inc_beside {f g : Fld} (h : f.beside [g] = true) (pg : Page) (n : Nat) (s : State) :
    rg (inc pg g n s) pg f = rg s pg f :=
  rg_st_beside h List.mem_cons_self ..

/-- Counting a split touches no other counter. -/
theorem rg_planCounted {f : Fld} (h : f.beside [Fld.TPL_SPLIT] = true) (p : Plan) (i q : Nat) (s : State) :
    rg (planCounted p i q s) (pgTpl i) f = rg (inc (pgTpl i) Fld.TPL_PLANNED 1 (itemsCounted p i q s)) (pgTpl i) f := by
  unfold planCounted wh
  split
  · exact rg_inc_beside h ..
  · rfl

theorem rg_planQueue {f : Fld} (h : f.beside [Fld.TPL_STATE_QUEUE] = true) (i q : Nat) (s : State) :
    rg (st (pgTpl i) Fld.TPL_STATE_QUEUE q s) (pgTpl i) f = rg s (pgTpl i) f := rg_st_beside h List.mem_cons_self ..

theorem planCounted_planned (p : Plan) (i q : Nat) (s : State) :
    CountsUp (pgTpl i) Fld.TPL_PLANNED 1 s (planCounted p i q s) :=
  (countsUp_inc (by decide) 1 (itemsCounted p i q s)).congr ((rg_inc_beside (by decide) ..).trans (rg_planQueue (by decide) ..))
    (rg_planCounted (by decide) ..)

theorem planCounted_items (p : Plan) (i q : Nat) (s : State) :
    CountsUp (pgTpl i) Fld.TPL_ITEMS (tileCount p * p.l) s (planCounted p i q s) :=
  (countsUp_inc (by decide) _ (st (pgTpl i) Fld.TPL_STATE_QUEUE q s)).congr (rg_planQueue (by decide) ..)
    ((rg_planCounted (by decide) ..).trans (rg_inc_beside (by decide) ..))

/-- What planning adds to a counter of the planner stands after it. -/
theorem CountsUp.plannedState {fld : Fld} {n : Nat}
    (h : ∀ t, CountsUp (pgTpl i) fld n t (planCounted (planWork f i).plan i f.q t)) :
      CountsUp (pgTpl i) fld n s (plannedState f i s) :=
  (h _).congr (rg_of_reach (pg := pgTpl i) (planTaken_reach f i s) (by simp) _)
    ((rg_of_reach (pg := pgTpl i) (setTiles_reach (L := [.flights]) (by decide) .rfl') (by simp) _).trans
      (rg_of_reach (pg := pgTpl i) (notePlan_only ..) (by simp) _))

end

/-! ### The descriptor that a planner leaves -/

/-- The pieces that the read of a drain block can change. -/
def drainPieces : List Piece := readPieces ++ [.flights, .arrs, .accs, .nextTag, .ports]

theorem drainRead_only (fid : Nat) (s : State) : Reach drainPieces s (drainRead fid s) :=
  drainRead_reach (by decide) (by decide) (by decide) (by decide) (by decide) (by decide) (by decide) (by decide) (by decide)
    (by decide) (by decide) (by decide) (by decide) (by decide) (by decide) (by decide) .rfl'

/-- Descriptor `f`, its inputs those of memory `m`, has a result and tile work in state `t`. -/
def ProductStands (f : Flight) (m : List Host.Cell) (res : Option Nat) (w : TileWork) (t : State) : Prop :=
  ∃ g, flightOf t f.fid = some g ∧ Continues f g ∧ g.snap = some m ∧ g.result = res ∧ g.work = .tiles w

theorem continues_planned (f : Flight) (i : Nat) (m : List Host.Cell) : Continues f (f.planned i m) := ⟨rfl, fun _ => nofun, id⟩

section
variable {f : Flight} {i : Nat} {s : State}

/-- The drain block of a product that uses one is due once the product is planned. -/
theorem PlanDue.blockDue (h : PlanDue f i s) (hc : Canonical s) (hd : dcUsed (jCtl (jobOf f)) = true) :
    BlockDue f.fid (f.planned i s.mem) (planWork f i) (plannedState f i s) :=
  ⟨tileFlight_plannedState hc h, show (!dcUsed (jCtl (jobOf f)) || _) = false by rw [hd]; rfl⟩

theorem productStands_failed (h : PlanDue f i s) (hc : Canonical s) {u : State} (hu : Reach readPieces (plannedState f i s) u)
    (code : Nat) :
    ProductStands f s.mem (some code) (planWork f i) (failTiles f.fid code u) :=
  ⟨_, flightOf_failTiles (tileFlight_read hu (tileFlight_plannedState hc h)) code, ⟨rfl, fun _ => nofun, fun _ => nofun⟩, rfl,
    rfl, rfl⟩

theorem productStands_read (h : PlanDue f i s) (hc : Canonical s) {u : State} (hu : Reach readPieces (plannedState f i s) u)
    (w : TileWork) :
    ProductStands f s.mem none w (setTiles f.fid w u) := by
  obtain ⟨-, -, hr, -⟩ := h.fresh
  obtain ⟨hf, -, -, -⟩ := tileFlight_iff.mp (tileFlight_setTiles (tileFlight_read hu (tileFlight_plannedState hc h)) w)
  exact ⟨_, hf, ⟨rfl, fun _ => nofun, id⟩, rfl, hr, rfl⟩

theorem productStands_planned (h : PlanDue f i s) (hc : Canonical s) :
    ProductStands f s.mem none (planWork f i) (plannedState f i s) :=
  ⟨_, flightOf_plannedState (flightOf_of_mem hc h.mem), continues_planned .., rfl, h.fresh.2.2.1, rfl⟩

/-! ### The drain block where planning has left memory and ownership as they were -/

theorem plannedState_mem (f : Flight) (i : Nat) (s : State) : (plannedState f i s).mem = s.mem :=
  mem_of_reach (plannedState_reach f i s) (by decide)

theorem blockAt_eq (h : isTileOp f = true) : blockAt f = dAddr f.bytes 48 := congrArg (dAddr · 48) (jobOf_bytes h)

theorem structRange_planned (p a n : Nat) : structRange (plannedState f i s) p a n = structRange s p a n :=
  structRange_of_reach (plannedState_reach f i s) (by decide) (by decide) p a n

theorem blockVecs_planned (w : TileWork) : blockVecs (f.planned i s.mem) w (plannedState f i s) = blockVecs f w s := by
  rw [blockVecs, rdBytes_of_mem (plannedState_mem f i s)]
  rfl

theorem blockChecks_planned (w : TileWork) : blockChecks (f.planned i s.mem) w (plannedState f i s) = blockChecks f w s := by
  rw [blockChecks, chkDrainBlk_of_reach (plannedState_reach f i s) (by decide) (by decide), rdBytes_of_mem (plannedState_mem f i s)]
  rfl

theorem mustWait_planned {l : List (Nat × Nat)} (hn : NothingHeld s) (hl : (l.any fun x => heldFor s f.fid x.1 x.2) = false) :
    mustWait (plannedState f i s) f.fid l [] = false := by
  have hplan := plannedState_reach f i s
  rw [mustWait_reads (nothingHeld_of_reach hplan (by decide) hn)]
  simpa only [heldFor_of_reach hplan (by decide)] using hl

theorem blockFree_planned (hn : NothingHeld s) (hs : structRange s f.q (blockAt f) 64 = true)
    (hl : (((blockAt f, 64) :: blockVecs f (planWork f i) s).any fun x => heldFor s f.fid x.1 x.2) = false) :
    BlockFree f.fid (f.planned i s.mem) (planWork f i) (plannedState f i s) := by
  rw [List.any_cons, Bool.or_eq_false_iff] at hl
  obtain ⟨hblock, hvecs⟩ := hl
  refine ⟨(structRange_planned ..).trans hs, mustWait_planned (l := [(blockAt f, 64)]) hn (by simpa using hblock), ?_⟩
  rw [blockVecs_planned]
  exact mustWait_planned hn hvecs

theorem proceed_planned_access : AccessSame s (proceed f.fid (plannedState f i s)) :=
  access_of_reach ((plannedState_reach f i s).comp (proceed_reach (L := [.retrain]) (by decide) .rfl')) (by decide) (by decide)

theorem blockRead_planned : (blockRead f.fid (f.planned i s.mem) (plannedState f i s)).2 = (memRead .yard f.q (blockAt f) 64 s).2 :=
  (memRead_access proceed_planned_access .yard f.q (blockAt f) 64).1

theorem vecsRead_planned (w : TileWork) :
    (vecsRead f.fid (f.planned i s.mem) w (plannedState f i s)).2 = (readAll .yard f.q (blockVecs f w s) s).2 := by
  rw [vecsRead, blockVecs_planned]
  exact (readAll_access (proceed_planned_access.trans (memRead_access (.refl _) .yard f.q (blockAt f) 64).2) ..).1

end

/-- Settles O22: the drain block is read where planning has left memory and ownership as they were. -/
theorem aPlannerTakesTheFirstDescriptor : Obligations.APlannerTakesTheFirstDescriptor := by
  unfold Obligations.APlannerTakesTheFirstDescriptor
  intro f i s hrun hc hfirst hlowest j w a d vs ch taken at_
  have hdue : PlanDue f i s := ⟨hfirst, hlowest⟩
  have hread := drainRead_only f.fid (plannedState f i s)
  have haddr : blockAt f = a := blockAt_eq hdue.fresh.1
  refine ⟨_, (exec_plannerTake hrun).trans (congrArg _ (plannerTake_plans hdue)), ?taken, fun hno => ?unused, fun hd hs => ?strange,
    fun hd hs hnone hfree => ?reads⟩
  case taken =>
    have hplanners : (drainRead f.fid (plannedState f i s)).planners = tabSet (fun _ => none) s.planners i (some f.fid) :=
      (planners_of_reach hread (by decide)).trans (planners_plannedState f i s)
    have hreg (fld : Fld) : rg (drainRead f.fid (plannedState f i s)) (pgTpl i) fld = rg (plannedState f i s) (pgTpl i) fld :=
      rg_of_reach (pg := pgTpl i) hread (by simp [drainPieces, readPieces]) fld
    refine ⟨(mem_of_reach hread (by decide)).trans (plannedState_mem f i s), ?_, fun k hk => ?_, ?_, ?_⟩
    · rw [hplanners, tabGet_tabSet_same]
    · rw [hplanners, tabGet_tabSet_other _ _ _ _ _ hk]
    · exact (CountsUp.plannedState (planCounted_planned _ _ _)).congr rfl (hreg _)
    · exact (CountsUp.plannedState (planCounted_items _ _ _)).congr rfl (hreg _)
  case unused =>
    have hready : drainReady (f.planned i s.mem) (planWork f i) = true :=
      show (!dcUsed (jCtl (jobOf f)) || _) = true by rw [show dcUsed (jCtl (jobOf f)) = false from hno]; rfl
    rw [drainRead_ready fun g w' hg => by
      obtain ⟨rfl, rfl⟩ := Prod.mk.inj (Option.some.inj (hg.symm.trans (tileFlight_plannedState hc hdue)))
      exact hready]
    exact productStands_planned hdue hc
  case strange =>
    rw [drainRead_strange (hdue.blockDue hc hd) ((structRange_planned ..).trans (haddr ▸ hs))]
    exact productStands_failed hdue hc .rfl' 0x20
  case reads =>
    have hblock := hdue.blockDue hc hd
    have hbytes : rdBytes (plannedState f i s) (blockAt f) 64 = d := haddr ▸ rdBytes_of_mem (plannedState_mem f i s) _ _
    have hvecs : blockVecs f (planWork f i) s = vs := by
      rw [blockVecs, haddr]
      rfl
    have hchecks : blockChecks (f.planned i s.mem) (planWork f i) (plannedState f i s) = ch := by
      rw [blockChecks_planned, blockChecks, haddr]
      rfl
    have hcode : (blockRead f.fid (f.planned i s.mem) (plannedState f i s)).2 = (memRead .yard f.q a 64 s).2 :=
      haddr ▸ blockRead_planned
    have hfreed := blockFree_planned hnone (haddr ▸ hs) (by rw [hvecs, haddr]; exact hfree)
    refine ⟨fun c hcd => ?code, fun hnc hk => ?checks, fun hnc hk hv => ?ok⟩
    case code =>
      rw [drainRead_code hblock hfreed (hcode.trans hcd)]
      exact productStands_failed hdue hc (blockRead_reach ..) c
    case checks =>
      rw [drainRead_checks hblock hfreed (hcode.trans hnc) (by rw [hchecks]; exact hk), hchecks]
      exact productStands_failed hdue hc (blockCounted_reach ..) _
    case ok =>
      have hread := drainRead_reads hblock hfreed (hcode.trans hnc) (by rw [hchecks]; exact hk)
        ((vecsRead_planned _).trans (hvecs ▸ hv))
      rw [hread]
      exact hbytes ▸ productStands_read hdue hc (vecsRead_reach ..) _

end Sys2Proof.Machine
end

section
/-!
PROOFS. Steps of a unit on its tables while no access is held (R228, R241): what keeps it so, and that no such step ends as one that
must wait.
-/
namespace Sys2Proof.Machine

/-! ### What keeps accesses held or free -/

/-- The states agree on the channels and the ways that hold accesses. -/
structure HoldsSame (s t : State) : Prop where
  held : t.retrain.held = s.retrain.held
  zeroising : t.yard.zeroising = s.yard.zeroising

namespace HoldsSame

variable {s t u : State}

theorem refl (s : State) : HoldsSame s s := ⟨rfl, rfl⟩

theorem trans (h : HoldsSame s t) (g : HoldsSame t u) : HoldsSame s u := ⟨g.held.trans h.held, g.zeroising.trans h.zeroising⟩

theorem of_reach {L : List Piece} (h : Reach L s t) (hL : ∀ k, k ∈ [Piece.retrain, .yard] → k ∉ L) : HoldsSame s t :=
  ⟨congrArg Retrain.held (h.frame .retrain (hL _ (by decide))), congrArg Yard.zeroising (h.frame .yard (hL _ (by decide)))⟩

theorem foldl {α : Type} {f : State → α → State} (hf : ∀ t x, HoldsSame t (f t x)) (l : List α) (s : State) :
    HoldsSame s (l.foldl f s) := by
  induction l generalizing s with
  | nil => exact .refl s
  | cons x l ih => exact (hf s x).trans (ih _)

theorem foldlFst {α β : Type} {f : State × β → α → State × β} (hf : ∀ r x, HoldsSame r.1 (f r x).1) (l : List α) (r : State × β) :
    HoldsSame r.1 (l.foldl f r).1 := by
  induction l generalizing r with
  | nil => exact .refl _
  | cons x l ih => exact (hf r x).trans (ih _)

theorem wh {c : Bool} {f : State → State} (hf : ∀ t, HoldsSame t (f t)) (s : State) : HoldsSame s (Machine.wh c f s) := by
  unfold Machine.wh
  split
  · exact hf s
  · exact .refl s

theorem inc (pg : Page) (f : Fld) (n : Nat) (s : State) : HoldsSame s (inc pg f n s) :=
  ⟨congrArg Retrain.held (inc_retrain ..), congrArg Yard.zeroising (inc_yard ..)⟩

/-- The cached lines of the yard change, and its ways stay. -/
theorem lines (s : State) (ls : List (Nat × Nat × Nat)) : HoldsSame s { s with yard := { s.yard with lines := ls } } := ⟨rfl, rfl⟩

theorem yardReadLine (p l : Nat) (s : State) : HoldsSame s (yardReadLine p l s) := by
  unfold Machine.yardReadLine
  split
  · exact .refl s
  · exact (lines s _).trans (.inc ..)

theorem yardWriteLine (p l : Nat) (whole : Bool) (s : State) : HoldsSame s (yardWriteLine p l whole s) := by
  unfold Machine.yardWriteLine
  split
  · exact .refl s
  · exact (HoldsSame.wh (fun t => lines t _) s).trans (.inc ..)

theorem yardKillLine (l : Nat) (s : State) : HoldsSame s (yardKillLine l s) := by
  unfold Machine.yardKillLine dropLines
  dsimp only
  split
  · exact .refl s
  · exact (lines s _).trans (.inc ..)

theorem noteBlock (u c d : Nat) (s : State) : HoldsSame s (noteBlock u c d s) :=
  .of_reach (noteBlock_reach (L := [.regs .mem, .regs .lpd, .regs .mce, .regs .sec, .regs .ras, .regs .evr, .evr, .freeCtr])
    (by decide) (by decide) (by decide) (by decide) (by decide) (by decide) (by decide) (by decide) .rfl') (by decide)

theorem pageErr (p c d : Nat) (o : Option Nat) (s : State) : HoldsSame s (pageErr (pgMemP p) c d o s) :=
  .of_reach (pageErr_reach (L := [.regs (pgMemP p).blk, .regs .ras, .regs .evr, .evr, .freeCtr])
    (by simp) (by simp) (by simp) (by simp) (by simp) .rfl') (by simp)

theorem blockWrite (l a : Nat) (bs : List Byte) (s : State) : HoldsSame s (blockWrite l a bs s).1 :=
  .of_reach (blockWrite_reach
    (L := [.regs .mem, .regs .lpd, .regs .mce, .regs .sec, .regs .ras, .regs .evr, .mem, .mce, .evr, .freeCtr])
    (by decide) (by decide) (by decide) (by decide) (by decide) (by decide) (by decide) (by decide) (by decide) (by decide)
    .rfl').out (by decide)

theorem poke (a : Nat) (bs : List Byte) (s : State) : HoldsSame s (poke a bs s) :=
  .of_reach (poke_reach (L := [.mem]) (by decide) .rfl') (by decide)

theorem leaseAccess (fid : Nat) (le : Lease) (w : Bool) (a n : Nat) (s : State) : HoldsSame s (leaseAccess fid le w a n s) :=
  .of_reach (leaseAccess_reach (L := [.accs, .nextTag, .ports]) (by decide) (by decide) (by decide) .rfl') (by decide)

theorem readLine (via : Via) (p l : Nat) (s : State) : HoldsSame s (readLine via p l s).1 := by
  unfold Machine.readLine
  split
  · exact .refl s
  · refine (HoldsSame.wh (c := via == .yard) (HoldsSame.yardReadLine p l) s).trans ?_
    dsimp only
    split
    · split
      · exact noteBlock ..
      · exact .refl _
    · split
      · exact noteBlock ..
      · exact .refl _
    · split
      · split
        · exact pageErr p 0x32 _ (some p) _
        · exact .refl _
      · exact .refl _
    · exact .refl _

/-- Accesses made one after the other keep what each of them keeps. -/
theorem accesses {α : Type} {f : State → α → State × Option Nat} (hf : ∀ t x, HoldsSame t (f t x).1) (l : List α) (s : State) :
    HoldsSame s (l.foldl (fun r x => ((f r.1 x).1, r.2.or (f r.1 x).2)) (s, none)).1 :=
  foldlFst (f := fun r x => ((f r.1 x).1, r.2.or (f r.1 x).2)) (fun r x => hf r.1 x) l (s, none)

theorem memRead (via : Via) (p a n : Nat) (s : State) : HoldsSame s (memRead via p a n s).1 :=
  accesses (f := fun t (x : Nat × Nat × Nat) => Machine.readLine via p x.1 t) (fun t x => readLine via p x.1 t) (linesOf a n) s

theorem readAll (via : Via) (p : Nat) (l : List (Nat × Nat)) (s : State) : HoldsSame s (readAll via p l s).1 :=
  accesses (f := fun t (x : Nat × Nat) => Machine.memRead via p x.1 x.2 t) (fun t x => memRead via p x.1 x.2 t) l s

theorem writeLine (via : Via) (p fid l a : Nat) (bs : List Byte) (s : State) : HoldsSame s (writeLine via p fid l a bs s).1 := by
  unfold Machine.writeLine
  split
  · exact .refl s
  · have hyard :
        HoldsSame s (if via = .yard then Machine.yardWriteLine p l (bs.length == 512) s else Machine.yardKillLine l s) := by
      split
      · exact yardWriteLine ..
      · exact yardKillLine ..
    refine hyard.trans ?_
    dsimp only
    generalize (if via = .yard then Machine.yardWriteLine p l (bs.length == 512) s else Machine.yardKillLine l s) = y
    split
    · exact blockWrite ..
    · exact blockWrite ..
    · exact poke ..
    · split
      · split
        · exact pageErr p 0x32 _ (some p) _
        · exact (poke ..).trans (leaseAccess ..)
      · exact .refl _
    · exact .refl _

theorem memPut (via : Via) (p a : Nat) (bs : List Byte) (s : State) : HoldsSame s (memPut via p a bs s) :=
  accesses (f := fun t (x : Nat × Nat × Nat) => Machine.writeLine via p 0 x.1 x.2.1 ((bs.drop (x.2.1 - a)).take x.2.2) t)
    (fun t x => writeLine via p 0 x.1 x.2.1 _ t) (linesOf a bs.length) s

end HoldsSame

/-! ### Codes while nothing is held -/

/-- No channel and no way holds an access. -/
structure Unheld (s : State) : Prop where
  held : s.retrain.held = []
  zeroising : s.yard.zeroising = []

theorem NothingHeld.unheld {s : State} (h : NothingHeld s) : Unheld s := ⟨h.1, h.2.2⟩

theorem Unheld.of_same {s t : State} (h : Unheld s) (hs : HoldsSame s t) : Unheld t :=
  ⟨hs.held.trans h.held, hs.zeroising.trans h.zeroising⟩

theorem heldRange_unheld {s : State} (h : Unheld s) (a n : Nat) : heldRange s a n = false := by
  rw [heldRange, h.held, h.zeroising]
  rfl

theorem blockCheck_ne_heldMark {s : State} {w : Bool} {u : Nat} {x : Nat × Nat} (h : blockCheck s w u = some x) :
    x.1 ≠ heldMark := by
  have hcodes : x.1 = 0x70 ∨ x.1 = 0x22 ∨ x.1 = 0x21 := by
    unfold blockCheck at h
    dsimp only at h
    split at h
    next => exact .inl (Option.some.inj h ▸ rfl)
    next =>
      split at h
      next => exact .inr (.inl (Option.some.inj h ▸ rfl))
      next =>
        split at h
        next => exact .inr (.inr (Option.some.inj h ▸ rfl))
        next =>
          split at h
          next => exact .inr (.inl (Option.some.inj h ▸ rfl))
          next =>
            split at h
            next => exact .inr (.inr (Option.some.inj h ▸ rfl))
            next => cases h
  rcases hcodes with e | e | e <;> rw [e] <;> decide

theorem stopAt_ne_heldMark {s : State} (h : Unheld s) {via : Via} {w : Bool} {p a n : Nat} {e : Stop}
    (he : stopAt s via w p a n = some e) :
    e.code ≠ heldMark := by
  obtain ⟨x, -, hx⟩ := List.exists_of_findSome?_eq_some he
  rw [heldRange_unheld h] at hx
  split at hx
  · exact Option.some.inj hx ▸ (by decide : (0x20 : Nat) ≠ heldMark)
  · simp only [Bool.false_eq_true, if_false] at hx
    have hblock {w : Bool} {u : Nat} (hm : (blockCheck s w u).map (fun c => (⟨c.1, c.2, x.2.1⟩ : Stop)) = some e) :
      e.code ≠ heldMark := by
      obtain ⟨c, hc, rfl⟩ := Option.map_eq_some_iff.mp hm
      exact blockCheck_ne_heldMark hc
    split at hx
    · split at hx
      · cases hx
      · exact hblock hx
    · split at hx
      · cases hx
      · exact hblock hx
    · cases hx

theorem readLine_ne_heldMark {s : State} {via : Via} {p l c : Nat} (h : (readLine via p l s).2 = some c) : c ≠ heldMark := by
  unfold readLine at h
  split at h
  · cases h
    decide
  · dsimp only at h
    split at h
    · split at h
      next hb =>
        cases h
        exact blockCheck_ne_heldMark hb
      next => cases h
    · split at h
      next hb =>
        cases h
        exact blockCheck_ne_heldMark hb
      next => cases h
    · split at h
      · split at h
        · cases h
          decide
        · cases h
      · cases h
    · cases h

/-- What every step of a fold keeps off holds off for the first code of them all. -/
theorem firstCode_ne {α : Type} {f : State → α → State × Option Nat} {m : Nat} (hf : ∀ t x c, (f t x).2 = some c → c ≠ m)
    (l : List α)
    (r : State × Option Nat) (hr : ∀ c, r.2 = some c → c ≠ m) :
    ∀ c, (l.foldl (fun r x => ((f r.1 x).1, r.2.or (f r.1 x).2)) r).2 = some c → c ≠ m := by
  induction l generalizing r with
  | nil => exact hr
  | cons x l ih =>
    refine ih _ fun c hc => ?_
    rcases Option.or_eq_some_iff.mp hc with h | ⟨-, h⟩
    · exact hr c h
    · exact hf r.1 x c h

theorem memRead_ne_heldMark (via : Via) (p a n : Nat) (s : State) : ∀ c, (memRead via p a n s).2 = some c → c ≠ heldMark :=
  firstCode_ne (f := fun t (x : Nat × Nat × Nat) => readLine via p x.1 t) (fun _ _ _ => readLine_ne_heldMark) (linesOf a n)
    (s, none)
    fun _ h => nomatch h

theorem readAll_ne_heldMark (via : Via) (p : Nat) (l : List (Nat × Nat)) (s : State) :
    ∀ c, (readAll via p l s).2 = some c → c ≠ heldMark :=
  firstCode_ne (f := fun t (x : Nat × Nat) => memRead via p x.1 x.2 t) (fun t x => memRead_ne_heldMark via p x.1 x.2 t) l (s, none)
    fun _ h => nomatch h

/-! ### Steps on tables -/

/-- A step under way that no held access has met, in a state in which none is held. -/
structure Clear (r : Try) : Prop where
  unheld : Unheld r.1
  stop : ∀ e, r.2 = some e → e.code ≠ heldMark

namespace Clear

variable {r : Try}

theorem start {s : State} (h : Unheld s) : Clear (s, none) := ⟨h, fun _ he => nomatch he⟩

theorem tryRead (h : Clear r) (via : Via) (p a n : Nat) : Clear (tryRead via p a n r) := by
  unfold Machine.tryRead
  split
  next => exact h
  next => exact ⟨h.unheld, fun _ => stopAt_ne_heldMark h.unheld⟩

theorem tryWrite (h : Clear r) (via : Via) (p a : Nat) (bs : List Byte) : Clear (tryWrite via p a bs r) := by
  unfold Machine.tryWrite
  split
  next => exact h
  next =>
    split
    next e he => exact ⟨h.unheld, fun e' he' => Option.some.inj he' ▸ stopAt_ne_heldMark h.unheld he⟩
    next => exact ⟨h.unheld.of_same (.memPut ..), fun _ he => nomatch he⟩

theorem tryDo (h : Clear r) {f : State → State} (hf : HoldsSame r.1 (f r.1)) : Clear (tryDo f r) := by
  unfold Machine.tryDo
  split
  next => exact h
  next => exact ⟨h.unheld.of_same hf, fun _ he => nomatch he⟩

theorem foldl {α : Type} {f : Try → α → Try} (hf : ∀ r x, Clear r → Clear (f r x)) (l : List α) (h : Clear r) :
    Clear (l.foldl f r) := by
  induction l generalizing r with
  | nil => exact h
  | cons x l ih => exact ih (hf r x h)

theorem ite {c : Prop} [Decidable c] {r' : Try} (h : Clear r) (h' : Clear r') : Clear (if c then r else r') := by
  split
  · exact h
  · exact h'

end Clear

end Sys2Proof.Machine
end

section
/-!
PROOFS. An item of a KVAPP while no access is held (R160, R161): no step of it ends as one that must wait.
-/
namespace Sys2Proof.Machine

/-! ### Entries, translations and pages (R153, R157, R161) -/

namespace Clear

variable {r : Try}

theorem tryWrites {α : Type} (h : Clear r) (via : α → Via) (p : Nat) (at_ : α → Nat) (bs : α → List Byte) (l : List α) :
    Clear (l.foldl (fun r x => Machine.tryWrite (via x) p (at_ x) (bs x) r) r) :=
  h.foldl (fun _ _ h => h.tryWrite ..) l

theorem kvPut (h : Clear r) (p t off n v : Nat) : Clear (kvPut p t off n v r) := h.tryWrite ..

theorem kvRead (h : Clear r) (p t : Nat) : Clear (kvRead p t r) := h.tryRead ..

theorem kvLeafPut (h : Clear r) (p t e v : Nat) : Clear (kvLeafPut p t e v r) := by
  unfold Machine.kvLeafPut
  split
  · exact h.tryWrite ..
  · exact h

theorem kvCount (h : Clear r) (pg : Page) (f : Fld) (n : Nat) : Clear (Machine.tryDo (inc pg f n) r) := h.tryDo (.inc ..)

theorem kvPool (h : Clear r) (p : Nat) (k : State → Kvs) : Clear (Machine.tryDo (fun s => setKv p (k s) s) r) :=
  h.tryDo (.of_reach (setKv_reach (L := [.kvs]) (by decide) .rfl') (by decide))

theorem kvWalk (h : Clear r) (p t e : Nat) : Clear (kvWalk p t e r) := by
  unfold Machine.kvWalk
  dsimp only
  split
  · exact ((h.tryRead ..).tryRead ..).tryDo
      (.of_reach (labTake_reach (L := [.lab, .freeCtr]) (by decide) (by decide) .rfl') (by decide))
  · exact h.tryRead ..

theorem kvLook (h : Clear r) (p t e : Nat) : Clear (kvLook p t e r) := (h.kvCount ..).ite ((h.kvWalk ..).kvCount ..)

theorem kvLooks (h : Clear r) (p t : Nat) (es : List Nat) : Clear (kvLooks p t es r) := h.foldl (fun _ _ h => h.kvLook ..) es

theorem kvDrop (h : Clear r) (p t e : Nat) : Clear (kvDrop p t e r) := by
  unfold Machine.kvDrop
  dsimp only
  exact ((((((h.kvRead ..).kvLook ..).kvLeafPut ..).kvPut ..).kvPut ..).ite
    ((((h.kvRead ..).kvLook ..).kvLeafPut ..).kvPut ..)).kvPool ..

theorem kvFrame (h : Clear r) {p t a : Nat} {acq : List (Nat × Nat)} {r' : Try} (hr : kvFrame p t acq r = some (r', a)) :
    Clear r' := by
  unfold Machine.kvFrame at hr
  dsimp only at hr
  split at hr
  next =>
    cases hr
    exact h.kvPool p fun s => { kv s p with free := _ }
  next =>
    have hlooks := (h.kvLooks p t (List.range (kvLast r.1 p t * kvH r.1 p t))).ite (c := kvScores r.1 p t = true) h
    split at hr
    next =>
      cases hr
      exact (hlooks.kvDrop ..).kvCount ..
    next =>
      split at hr
      next =>
        cases hr
        exact (hlooks.kvDrop ..).kvCount ..
      next => cases hr

theorem kvNewPage (h : Clear r) {p t e : Nat} {acq : List (Nat × Nat)} {r' : Try} (hr : kvNewPage p t e acq r = some r') :
    Clear r' := by
  unfold Machine.kvNewPage at hr
  split at hr
  next => cases hr
  next r1 a hframe =>
    have hclear := h.kvFrame hframe
    cases hr
    exact ((((hclear.kvLeafPut ..).kvPut ..).kvPut ..).kvPool ..).ite ((hclear.kvLeafPut ..).kvPut ..)

end Clear

/-- The pages acquired so far, where there are any. -/
def ClearPages (x : Option (Try × List (Nat × Nat))) : Prop := ∀ r acq, x = some (r, acq) → Clear r

theorem kvAcquire_clear {p t lp : Nat} {s : State} {r : Try} (h : Unheld s) (hr : kvAcquire p t lp s = some r) : Clear r := by
  unfold kvAcquire at hr
  obtain ⟨⟨r1, acq1⟩, hfold, rfl⟩ := Option.map_eq_some_iff.mp hr
  refine (List.foldlRecOn (motive := ClearPages) _ _ ?start fun x hx i _ => ?step) r1 acq1 hfold
  case start =>
    rintro r acq ⟨⟩
    exact .start h
  case step =>
    intro r acq hstep
    split at hstep
    next r0 acq0 =>
      split at hstep
      next r2 hpage =>
        cases hstep
        exact (hx r0 acq0 rfl).kvNewPage hpage
      next => cases hstep
    next => cases hstep

/-! ### Rows (R158, R160) -/

theorem Clear.kvAppend {r : Try} (h : Clear r) (f : Flight) (n t count src : Nat) : Clear (kvAppend f n t count src r).1 := by
  unfold Machine.kvAppend
  dsimp only
  refine ((((((h.kvLooks ..).tryWrites ..).tryDo ?counts).kvPut ..).kvCount ..).tryDo ?token)
  case counts =>
    refine .foldl (fun t x => ?_) _ _
    split
    · exact .of_reach (stkCount_reach (L := [.stks]) (by decide) .rfl') (by decide)
    · exact .refl t
  case token =>
    exact .wh (fun s => .of_reach (settle_reach (L := [.regs .tok, .regs .ras, .regs .evr, .toks, .evr, .freeCtr, .flights])
      (by decide) (by decide)
      (tokAddV_reach (by decide) (by decide) (by decide) (by decide) (by decide) (by decide) .rfl')) (by decide)) _

/-! ### Items (R160) -/

/-- What ended an item is no held access. -/
def NotHeldEnd (y : State × KvItemEnd) : Prop := ∀ e, y.2.stop = some e → e.code ≠ heldMark

theorem kvFail_notHeld {e : Stop} (h : e.code ≠ heldMark) (s : State) : NotHeldEnd (kvFail e s) := by
  rintro e' ⟨⟩
  exact h

theorem kvRefuse_notHeld {c : Nat} (h : c ≠ heldMark) (s : State) : NotHeldEnd (kvRefuse c s) := by
  rintro e' ⟨⟩
  exact h

theorem kvEnd_notHeld {r : Try} (h : Clear r) (s : State) (special : Nat) : NotHeldEnd (kvEnd s r special) := by
  unfold kvEnd
  split
  next e he => exact kvFail_notHeld (h.stop e he) s
  next => exact fun _ he => nomatch he

theorem kvParked_notHeld {r : Try} (h : Clear r) (s : State) : NotHeldEnd (kvParked s r) := by
  unfold kvParked
  split
  next e he => exact kvFail_notHeld (h.stop e he) s
  next => exact kvRefuse_notHeld (by decide) _

theorem kvPark_notHeld {s : State} (h : Unheld s) (p t : Nat) : NotHeldEnd (kvPark p t s) :=
  kvParked_notHeld (((Clear.start h).kvPut p t 0 1 2).kvCount _ _ _) s

theorem kvItemRun_notHeld {s : State} (h : Unheld s) (f : Flight) (n t count src : Nat) :
    NotHeldEnd (kvItemRun f n t count src s) := by
  unfold kvItemRun
  split
  · exact kvRefuse_notHeld (by decide) s
  · split
    · split
      next r hr => exact kvEnd_notHeld ((kvAcquire_clear h hr).kvAppend ..) _ _
      next => exact kvPark_notHeld h _ _
    · exact kvEnd_notHeld ((Clear.start h).kvAppend ..) _ _

/-- A list of checks keeps off a code that none of them gives. -/
theorem checks_ne {c : Prop} [Decidable c] {a m : Nat} {x : Option Nat} (ha : a ≠ m) (hx : ∀ b, x = some b → b ≠ m) :
    ∀ b, (if c then some a else x) = some b → b ≠ m := by
  intro b hb
  split at hb
  · exact Option.some.inj hb ▸ ha
  · exact hx b hb

theorem kvItemCheck_ne_heldMark (s : State) (f : Flight) (t count src : Nat) (resOk : Bool) :
    ∀ c, kvItemCheck s f t count src resOk = some c → c ≠ heldMark := by
  unfold kvItemCheck
  exact checks_ne (by decide) <| checks_ne (by decide) <| checks_ne (by decide) <| checks_ne (by decide) <| checks_ne (by decide) <|
    checks_ne (by decide) <| checks_ne (by decide) <| checks_ne (by decide) <| checks_ne (by decide) <| checks_ne (by decide) <|
    checks_ne (by decide) fun _ h => nomatch h

/-- The reads that open an item: its entry of the list, then the stream's entry. -/
def kvEntered (p t a : Nat) (resOk : Bool) (s : State) : Try :=
  let r := tryRead .beside p a 16 (s, none)
  if !resOk ∨ kvStreams s p ≤ t then r
  else if !structRange s p (kvEntry s p t) 64 then (s, r.2.or (some ⟨0x20, 0, 0⟩)) else kvRead p t r

theorem kvEntered_clear {s : State} (h : Unheld s) (p t a : Nat) (resOk : Bool) : Clear (kvEntered p t a resOk s) := by
  have hread := (Clear.start h).tryRead .beside p a 16
  unfold kvEntered
  refine hread.ite (Clear.ite ⟨h, fun e he => ?_⟩ (hread.kvRead p t))
  rcases Option.or_eq_some_iff.mp he with he | ⟨-, he⟩
  · exact hread.stop e he
  · exact Option.some.inj he ▸ (by decide : (0x20 : Nat) ≠ heldMark)

theorem kvItem_notHeld {s : State} (h : Unheld s) (f : Flight) (n : Nat) : NotHeldEnd (kvItem f n s) := by
  unfold kvItem
  dsimp only
  split
  next e he => exact kvFail_notHeld (((Clear.start h).tryRead ..).stop e he) s
  next =>
    split
    · exact fun _ he => nomatch he
    · split
      next e he => exact kvFail_notHeld ((kvEntered_clear h ..).stop e he) s
      next =>
        split
        next c hc => exact kvRefuse_notHeld (kvItemCheck_ne_heldMark _ _ _ _ _ _ c hc) s
        next =>
          split
          next c hc => exact kvRefuse_notHeld (readAll_ne_heldMark _ _ _ _ c hc) _
          next => exact kvItemRun_notHeld (h.of_same (.readAll ..)) _ _ _ _ _

end Sys2Proof.Machine
end

section
/-!
PROOFS. Stations take up their descriptors (R114, R118, R168): once a descriptor has work or
a result, the rest of its command keeps it so.
-/
namespace Sys2Proof.Machine

/-! ### Descriptors that stay in flight -/

/-- The pieces that the work of a station on a descriptor can change. -/
def stationPieces : List Piece :=
  [.regs .dsp, .regs .tok, .regs .tpl, .regs .yrd, .regs .mem, .regs .lpd, .regs .mce, .regs .kvs, .regs .scn, .regs .sec,
    .regs .clk, .regs .ras, .regs .evr, .mem, .toks, .flights, .planners, .arrs, .stks, .yard, .retrain, .accs, .nextTag, .kvs,
    .lab, .scn, .ports, .mce, .evr, .freeCtr]

/-- Descriptor `f` is still in flight under number `fid`, the same descriptor. -/
structure Stands (fid : Nat) (f : Flight) (t : State) : Prop where
  flight : ∃ g, flightOf t fid = some g ∧ Continues f g
  canon : Canonical t

/-- Descriptor `f` has been taken up. -/
structure Taken (fid : Nat) (f : Flight) (t : State) : Prop where
  up : TakenUp fid f t
  canon : Canonical t

theorem continues_fid {f g : Flight} (h : Continues f g) : g.fid = f.fid := by
  have hfid := congrArg Flight.fid h.1
  exact hfid

/-- What keeps every descriptor in flight keeps the one of a number. -/
theorem flightOf_of_reach {L : List Piece} {fid : Nat} {g : Flight} {s t : State} (h : Reach L s t) (hL : Piece.descriptors ∉ L)
    (hc : Canonical s) (hg : flightOf s fid = some g) : ∃ g', flightOf t fid = some g' ∧ Continues g g' := by
  obtain ⟨hin, rfl⟩ := flightOf_mem hg
  obtain ⟨g', hg', hcont⟩ : ∃ g', g' ∈ t.flights ∧ Continues g g' := h.frame .descriptors hL g hin
  exact ⟨g', continues_fid hcont ▸ flightOf_of_mem (h.canon hc) hg', hcont⟩

section
variable {fid : Nat} {f : Flight} {s t : State}

theorem stands_self (hc : Canonical s) (h : flightOf s fid = some f) : Stands fid f s := ⟨⟨f, h, continues_rfl f⟩, hc⟩

theorem Stands.reach (hf : Stands fid f s) (h : Reach stationPieces s t) : Stands fid f t := by
  obtain ⟨⟨g, hg, hfg⟩, hc⟩ := hf
  obtain ⟨g', hg', hgg⟩ := flightOf_of_reach h (by decide) hc hg
  exact ⟨⟨g', hg', continues_trans hfg hgg⟩, h.canon hc⟩

theorem Taken.reach (hf : Taken fid f s) (h : Reach stationPieces s t) : Taken fid f t := by
  obtain ⟨⟨g, hg, hfg, htaken⟩, hc⟩ := hf
  obtain ⟨g', hg', hgg⟩ := flightOf_of_reach h (by decide) hc hg
  exact ⟨⟨g', hg', continues_trans hfg hgg, htaken.imp hgg.2.1 hgg.2.2⟩, h.canon hc⟩

/-- A change that gives a descriptor work or a result takes it up. -/
theorem Stands.takes {g : Flight → Flight} (hf : Stands fid f s) (hg : ∀ x, Grows x (g x))
    (htaken : ∀ x, (g x).work ≠ .none ∨ (g x).result ≠ none) : Taken fid f (updFlight fid g s) := by
  obtain ⟨⟨x, hx, hfx⟩, hc⟩ := hf
  refine ⟨⟨_, flightOf_updFlight g hx, continues_trans hfx (continues_upd hg x), ?_⟩,
    (updFlight_reach (L := [.flights]) (by decide) hg .rfl').canon hc⟩
  rw [updOne, if_pos (flightOf_mem hx).2]
  exact htaken x

theorem Stands.works (hf : Stands fid f s) {w : Work} (hw : w ≠ .none) (m : Flight → Option (List Host.Cell)) :
    Taken fid f (updFlight fid (fun x => { x with snap := m x, work := w }) s) :=
  hf.takes (fun _ => ⟨fun _ => hw, id⟩) fun _ => .inl hw

theorem Stands.finishes (hf : Stands fid f s) (code detail : Nat) : Taken fid f (finish fid code detail s) := by
  refine hf.takes (fun x => ?_) fun x => .inr ?_
  · split <;> exact ⟨id, fun _ => nofun⟩
  · split <;> exact nofun

end

section
variable {fid : Nat} {f : Flight} {s : State}

/-! ### GEMM and CONV on the arrays (R118) -/

/-- The rounds of a product that a planner has taken. -/
def tilesOn (fid : Nat) (s : State) : State :=
  match tileFlight s fid with
  | some (_, w) =>
    if w.plan.k = 0 then tileRounds fid (roundFuel w.plan) (zeroTiles fid s) else tileRounds fid (roundFuel w.plan) s
  | none => s

theorem tileRounds_station (fid k : Nat) {a s : State} (h : Reach stationPieces a s) : Reach stationPieces a (tileRounds fid k s) :=
  tileRounds_reach (by decide) (by decide) (by decide) (by decide) (by decide) (by decide) (by decide) (by decide) (by decide)
    (by decide) (by decide) (by decide) (by decide) (by decide) (by decide) (by decide) (by decide) (by decide) (by decide)
    (by decide) (by decide) h

theorem drainRead_station (fid : Nat) {a s : State} (h : Reach stationPieces a s) : Reach stationPieces a (drainRead fid s) :=
  drainRead_reach (by decide) (by decide) (by decide) (by decide) (by decide) (by decide) (by decide) (by decide) (by decide)
    (by decide) (by decide) (by decide) (by decide) (by decide) (by decide) (by decide) h

theorem takeUntil_station (fid k : Nat) {a s : State} (h : Reach stationPieces a s) : Reach stationPieces a (takeUntil fid k s) :=
  takeUntil_reach (by decide) (by decide) (by decide) (by decide) (by decide) (by decide) (by decide) (by decide) (by decide)
    (by decide) (by decide) (by decide) (by decide) (by decide) (by decide) (by decide) (by decide) (by decide) (by decide) h

theorem tilesOn_station (fid : Nat) {a s : State} (h : Reach stationPieces a s) : Reach stationPieces a (tilesOn fid s) := by
  unfold tilesOn
  split
  · split
    · exact tileRounds_station _ _ (zeroTiles_reach (by decide) (by decide) (by decide) (by decide) (by decide) (by decide)
        (by decide) (by decide) (by decide) (by decide) (by decide) (by decide) (by decide) (by decide) (by decide) (by decide)
        (by decide) (by decide)
        h)
    · exact tileRounds_station _ _ h
  · exact h

theorem tileGo_plans {i : Nat} (h : PlanDue f i s) (hf : flightOf s fid = some f) {op : Nat} (hop : dOp f.bytes = op) :
    tileGo op fid s = tilesOn fid (drainRead fid (takeUntil fid 15 (drainRead fid (plannedState f i s)))) := by
  obtain ⟨htile, hw, hr, -⟩ := h.fresh
  have htake : takeUntil fid 16 s = takeUntil fid 15 (drainRead fid (plannedState f i s)) := by
    rw [takeUntil]
    simp only [hf, hw, hr, beq_self_eq_true, Option.isNone_none, Bool.and_self, if_true, plannerTake_plans h]
    rw [(flightOf_mem hf).2]
  unfold tileGo
  simp only [hf, htile, hop, ne_eq, not_true_eq_false, or_self, if_false, Bool.not_true, Bool.false_eq_true, htake]
  generalize drainRead fid (takeUntil fid 15 (drainRead fid (plannedState f i s))) = u
  rfl

theorem tileGo_takes {i : Nat} (h : PlanDue f i s) (hc : Canonical s) (hf : flightOf s fid = some f) {op : Nat}
    (hop : dOp f.bytes = op) :
    Taken fid f (tileGo op fid s) := by
  rw [tileGo_plans h hf hop]
  obtain rfl := (flightOf_mem hf).2
  have hplanned : Taken f.fid f (plannedState f i s) :=
    ⟨⟨_, flightOf_plannedState hf, continues_planned .., .inl nofun⟩, (plannedState_reach f i s).canon hc⟩
  exact hplanned.reach (tilesOn_station _ (drainRead_station _ (takeUntil_station _ _ (drainRead_station _ .rfl'))))

/-! ### CHECK (R114) -/

theorem checkStart_takes (hc : Canonical s) (hf : flightOf s f.fid = some f) : Taken f.fid f (checkStart f s) := by
  unfold checkStart
  dsimp only
  split
  · exact (stands_self hc hf).finishes 0 0
  · have hsnap : Reach stationPieces s (updFlight f.fid (fun f => { f with snap := some s.mem }) s) :=
      updFlight_reach (by decide) (fun _ => ⟨id, id⟩) .rfl'
    exact ((stands_self hc hf).reach hsnap).works (w := .tiles _) nofun Flight.snap

/-- The recomputations of a CHECK that has started. -/
def checksOn (fid : Nat) (s : State) : State :=
  match tileFlight s fid with
  | some (_, w) => tilesDone fid (checkRounds fid w.sampled.length (drainRead fid s))
  | none => s

theorem checksOn_reach (fid : Nat) (s : State) : Reach stationPieces s (checksOn fid s) := by
  unfold checksOn
  split
  · exact tilesDone_reach (by decide) (by decide) (by decide) (by decide) (by decide) (by decide)
      (checkRounds_reach (by decide) (by decide) (by decide) (by decide) (by decide) (by decide) (by decide) (by decide) (by decide)
        (by decide) (by decide) (by decide) (by decide) (by decide) (by decide) (by decide) (by decide) (drainRead_station _ .rfl'))
  · exact .rfl'

theorem checkGo_takes (hc : Canonical s) (hf : flightOf s fid = some f) (hop : dOp f.bytes = 0x0F) (hw : f.work = .none)
    (hr : f.result = none) (hs : scratchShut s f.q = false) : Taken fid f (checkGo fid s) := by
  obtain rfl := (flightOf_mem hf).2
  have hgo : checkGo f.fid s = checksOn f.fid (checkStart f s) := by
    unfold checkGo
    simp only [hf, hop, hr, hs, hw, ne_eq, not_true_eq_false, Option.isSome_none, Bool.false_eq_true, or_self, if_false, if_true]
    rfl
  exact hgo ▸ (checkStart_takes hc hf).reach (checksOn_reach ..)

/-! ### ATTN (R168) -/

theorem stopped_station (e : Stop) (s : State) : Reach stationPieces s (stopped e s) :=
  stopped_reach (by decide) (by decide) (by decide) (by decide) (by decide) (by decide) (by decide) (by decide) .rfl'

theorem attnStop_takes (hf : Stands fid f s) {e : Stop} (he : e.code ≠ heldMark) : Taken fid f (attnStop fid e s) := by
  rw [attnStop, if_neg he]
  exact (hf.reach (stopped_station e s)).finishes e.code 0

theorem attnCapture_takes (hc : Canonical s) (hn : Unheld s) (hf : flightOf s fid = some f) (hop : dOp f.bytes = 4)
    (hw : f.work = .none)
    (hr : f.result = none) (hs : scratchShut s f.q = false) : Taken fid f (attnCapture fid s) := by
  unfold attnCapture attnFlight
  simp only [hf, hop, hr, hs, hw, ne_eq, not_true_eq_false, Option.isSome_none, Bool.false_eq_true, or_self, if_false]
  split
  next e he => exact attnStop_takes (stands_self hc hf) (((Clear.start hn).foldl (fun _ _ h => h.kvRead ..) _).stop e he)
  next => exact (stands_self hc hf).works (w := .attn _) nofun fun _ => some s.mem

/-- The sequences of an ATTN that has captured its lengths. -/
def attnsOn (fid : Nat) (s : State) : State :=
  match attnFlight s fid with
  | some (_, w) => attnAll fid w.left.length s
  | none => s

theorem attnsOn_reach (fid : Nat) (s : State) : Reach stationPieces s (attnsOn fid s) := by
  unfold attnsOn
  split
  · exact attnAll_reach (by decide) (by decide) (by decide) (by decide) (by decide) (by decide) (by decide) (by decide) (by decide)
      (by decide) (by decide) (by decide) (by decide) (by decide) (by decide) (by decide) (by decide) (by decide) (by decide)
      (by decide) (by decide) (by decide) (by decide) .rfl'
  · exact .rfl'

theorem attnGo_takes (hc : Canonical s) (hn : Unheld s) (hf : flightOf s fid = some f) (hop : dOp f.bytes = 4) (hw : f.work = .none)
    (hr : f.result = none) (hs : scratchShut s f.q = false) : Taken fid f (attnGo fid s) :=
  (attnCapture_takes hc hn hf hop hw hr hs).reach (attnsOn_reach ..)

end

end Sys2Proof.Machine
end

section
/-!
PROOFS. The other stations take up their descriptors (R148, R149, R160, R191, R198, R301, R307): KVAPP, SCAN, SWAP, COLL and maximum
poolings.
-/
namespace Sys2Proof.Machine

section
variable {fid : Nat} {f : Flight} {s : State}

/-! ### KVAPP (R160) -/

/-- A KVAPP whose items are next, with the memory that it started from. -/
def kvStarted (f : Flight) (s : State) : Flight := { f with snap := some (snapOf s f) }

/-- The state in which a KVAPP starts on an item. -/
def kvStarts (fid : Nat) (f : Flight) (s : State) : State := updFlight fid (fun g => { g with snap := some (snapOf s f) }) s

/-- An item of a KVAPP that need not wait, once its requests proceed. -/
def kvItemOf (fid : Nat) (f : Flight) (s : State) : State × KvItemEnd :=
  kvItem (kvStarted f s) (kvWork f).next (proceed fid (kvStarts fid f s))

theorem kvStarts_reach (fid : Nat) (f : Flight) (s : State) : Reach [.flights] s (kvStarts fid f s) :=
  updFlight_reach (by decide) (fun _ => ⟨id, id⟩) .rfl'

theorem kvItemOf_reach (fid : Nat) (f : Flight) (s : State) : Reach stationPieces s (kvItemOf fid f s).1 :=
  (kvItem_reach (by decide) (by decide) (by decide) (by decide) (by decide) (by decide) (by decide) (by decide) (by decide)
    (by decide) (by decide) (by decide) (by decide) (by decide) (by decide) (by decide) (by decide) (by decide) (by decide)
    (by decide) (by decide)
    (by decide)
    (proceed_reach (by decide) ((kvStarts_reach fid f s).mono (by decide)))).out

theorem kvItemOf_notHeld (hn : Unheld s) : NotHeldEnd (kvItemOf fid f s) := by
  refine kvItem_notHeld (hn.of_same (HoldsSame.trans (.of_reach (kvStarts_reach fid f s) (by decide)) ?_)) _ _
  exact ⟨rfl, rfl⟩

/-- The reads of an item do not depend on what a KVAPP noted as it started. -/
theorem kvRanges_kvStarts (n : Nat) : kvRanges (kvStarts fid f s) (kvStarted f s) n = kvRanges s f n := by
  have hmem : (kvStarts fid f s).mem = s.mem := updFlight_mem ..
  have hregs : (kvStarts fid f s).regs = s.regs := updFlight_regs ..
  unfold kvRanges kvH kvF kvEntry kvDH rdLE rdBytes rd1 rg snapOf
  rw [hmem, hregs]
  rfl

theorem kvTurn_some (h : kvTurn s fid = some f) : flightOf s fid = some f ∧ dOp f.bytes = 5 ∧ f.result = none := by
  unfold kvTurn at h
  split at h
  next g hg =>
    split at h
    next => cases h
    next hok =>
      split at h
      next => 
        split at h
        next =>
          cases h
          simpa [hg] using hok
        next => cases h
      next => cases h
  next => cases h

/-- The end of an item: after the last one the KVAPP has its result. -/
def kvClosed (fid : Nat) (f : Flight) (w : KvWork) (s : State) : State :=
  if w.next < bF f.bytes 24 4 then s
  else
    let s := wh w.ovf (raiseV (pgKvs f.q) 0x08 0x41 2 (some f.q) 1 0 (binLin 0)) s
    let s := wh (w.special != 0) (raiseV (pgKvs f.q) 0x0A 0 1 (some f.q) 0 w.special (binLog w.special)) s
    match w.fail with
    | some (i, c) => finish fid c 0 (st (pgKvs f.q) Fld.KVS_LAST_FAIL (c * 65536 + i % 65536) s)
    | none => finish fid 0 0 s

theorem raiseV_station (pg : Page) (cls code detail : Nat) (part : Option Nat) (aux val bin : Nat) {a s : State}
    (h : Reach stationPieces a s) : Reach stationPieces a (raiseV pg cls code detail part aux val bin s) :=
  raiseV_reach (by decide) (by decide) (by decide) (by decide) h

theorem kvClosed_reach (fid : Nat) (f : Flight) (w : KvWork) (s : State) : Reach stationPieces s (kvClosed fid f w s) := by
  unfold kvClosed
  split
  · exact .rfl'
  · have hraised := Reach.wh (c := w.special != 0)
      (fun _ h => raiseV_station (pgKvs f.q) 0x0A 0 1 (some f.q) 0 w.special (binLog w.special) h)
      (Reach.wh (c := w.ovf) (fun _ h => raiseV_station (pgKvs f.q) 0x08 0x41 2 (some f.q) 1 0 (binLin 0) h)
        (.rfl' : Reach stationPieces s s))
    dsimp only
    split
    · exact finish_reach (by decide) (st_reach (by simp [stationPieces]) hraised)
    · exact finish_reach (by decide) hraised

/-- A KVAPP's work after an item. -/
def KvWork.after (w : KvWork) (y : KvItemEnd) : KvWork :=
  let code := y.stop.map fun e => e.code
  { w with
    next := w.next + 1
    fail := match w.fail, code with
      | none, some c => some (w.next, c)
      | x, _ => x
    ovf := w.ovf || code == some 0x41
    special := w.special + y.special }

/-- The state after an item, its failure counted where it is not the first one. -/
def kvCounted (fid : Nat) (f : Flight) (s : State) : State :=
  let y := kvItemOf fid f s
  let code := y.2.stop.map fun e => e.code
  wh ((kvWork f).fail.isSome && code.isSome) (countCode (pgDsp f.q) (code.getD 0) 0 (some f.q)) y.1

theorem kvCounted_reach (fid : Nat) (f : Flight) (s : State) : Reach stationPieces s (kvCounted fid f s) :=
  Reach.wh (fun _ h => countCode_reach (by decide) (by decide) (by decide) (by decide) h) (kvItemOf_reach fid f s)

/-- A KVAPP whose turn it is and whose next item need not wait handles that item. -/
theorem kvStep_handles (hturn : kvTurn s fid = some f)
    (hwait : mustWait (kvStarts fid f s) fid (kvRanges (kvStarts fid f s) (kvStarted f s) (kvWork f).next) [] = false)
    (hstop : (kvItemOf fid f s).2.stop.map (fun e => e.code) ≠ some heldMark) :
    kvStep fid s = kvClosed fid f ((kvWork f).after (kvItemOf fid f s).2)
      (reworked fid (.kvapp ((kvWork f).after (kvItemOf fid f s).2)) (kvCounted fid f s)) := by
  unfold kvStep
  rw [hturn]
  dsimp only
  split
  next h => exact absurd (hwait.symm.trans h) nofun
  next =>
    split
    next h => exact absurd h hstop
    next => rfl

theorem kvStep_takes (hc : Canonical s) (hn : NothingHeld s) (hturn : kvTurn s fid = some f)
    (hfree : ((kvRanges s f (kvWork f).next).any fun x => heldFor s fid x.1 x.2) = false) : Taken fid f (kvStep fid s) := by
  obtain ⟨hf, -, -⟩ := kvTurn_some hturn
  have hstarts := kvStarts_reach fid f s
  have hwait : mustWait (kvStarts fid f s) fid (kvRanges (kvStarts fid f s) (kvStarted f s) (kvWork f).next) [] = false := by
    rw [kvRanges_kvStarts, mustWait_reads (nothingHeld_of_reach hstarts (by decide) hn)]
    simpa only [heldFor_of_reach hstarts (by decide)] using hfree
  have hstop : (kvItemOf fid f s).2.stop.map (fun e => e.code) ≠ some heldMark := fun h => by
    obtain ⟨e, he, hcode⟩ := Option.map_eq_some_iff.mp h
    exact kvItemOf_notHeld hn.unheld e he hcode
  rw [kvStep_handles hturn hwait hstop]
  exact (((stands_self hc hf).reach (kvCounted_reach fid f s)).works (w := .kvapp _) nofun Flight.snap).reach (kvClosed_reach ..)

theorem kvAll_station (fid k : Nat) (s : State) : Reach stationPieces s (kvAll fid k s) :=
  kvAll_reach (by decide) (by decide) (by decide) (by decide) (by decide) (by decide) (by decide) (by decide) (by decide)
    (by decide) (by decide) (by decide) (by decide) (by decide) (by decide) (by decide) (by decide) (by decide) (by decide)
    (by decide) (by decide) (by decide) (by decide) .rfl'

theorem kvGo_takes (hc : Canonical s) (hn : NothingHeld s) (hw : f.work = .none) (hturn : kvTurn s fid = some f)
    (hitems : 0 < bF f.bytes 24 4) (hfree : ((kvRanges s f 0).any fun x => heldFor s fid x.1 x.2) = false) :
    Taken fid f (kvGo fid s) := by
  have hnext : (kvWork f).next = 0 := by rw [kvWork, hw]
  obtain ⟨k, hk⟩ := Nat.exists_eq_succ_of_ne_zero (Nat.ne_of_gt hitems)
  unfold kvGo
  rw [hturn]
  dsimp only
  rw [hnext, hk, Nat.sub_zero, kvAll]
  exact (kvStep_takes hc hn hturn (by rw [hnext]; exact hfree)).reach (kvAll_station ..)

/-! ### SCAN (R191) -/

theorem Clear.scRead {r : Try} (h : Clear r) (p t : Nat) : Clear (scRead p t r) := h.tryRead ..

theorem Clear.scPut {r : Try} (h : Clear r) (via : Via) (p t off n v : Nat) : Clear (scPut via p t off n v r) := h.tryWrite ..

theorem scanStop_takes (hf : Stands fid f s) {e : Stop} (he : e.code ≠ heldMark) : Taken fid f (scanStop fid e s) := by
  rw [scanStop, if_neg he]
  exact (hf.reach (stopped_station e s)).finishes e.code 0

/-- The references that SCN takes on the streams of a SCAN. -/
def scanRefs (p : Nat) (ds : List Nat) (s : State) : Try :=
  ds.foldl (fun r t => scPut .beside p t 4 4 (scF r.1 p t 4 4 + 1) r) (s, none)

theorem scanRefs_reach (p : Nat) (ds : List Nat) (s : State) : Reach stationPieces s (scanRefs p ds s).1 :=
  (ReachP.foldl (fun _ _ h => scPut_reach (by decide) (by decide) (by decide) (by decide) (by decide) (by decide) (by decide)
    (by decide) (by decide) (by decide) (by decide) (by decide) (by decide) (by decide) (by decide) h)
    (ReachP.pair_iff.mpr .rfl')).out

theorem scanRefs_clear (hn : Unheld s) (p : Nat) (ds : List Nat) : Clear (scanRefs p ds s) :=
  (Clear.start hn).foldl (fun _ _ h => h.scPut ..) ds

/-- A SCAN without a result whose partition is not preempted is one in progress. -/
theorem scanFlight_of (hf : flightOf s fid = some f) (hop : dOp f.bytes = 6) (hr : f.result = none) (hs : scratchShut s f.q = false)
    (hw : f.work = .none) :
    scanFlight s fid = some (f, ⟨false, false, 0, (outFmt f.bytes).getD .k16, 0, [], false, none, [], 0⟩) := by
  simp only [scanFlight, hf, hop, hr, hs, hw, ne_eq, not_true_eq_false, Option.isSome_none, Bool.false_eq_true, or_self, if_false]

theorem scanTake_takes (hc : Canonical s) (hn : Unheld s) (hf : flightOf s fid = some f) (hop : dOp f.bytes = 6)
    (hw : f.work = .none)
    (hr : f.result = none) (hs : scratchShut s f.q = false) : Taken fid f (scanTake fid s) := by
  unfold scanTake
  rw [scanFlight_of hf hop hr hs hw]
  dsimp only
  split
  · exact ((stands_self hc hf).works (w := .scan _) nofun Flight.snap).reach
      (Reach.wh (fun _ h => inc_reach (by simp [stationPieces]) h) .rfl')
  · split
    next e he => exact scanStop_takes (stands_self hc hf) ((scanRefs_clear hn ..).stop e he)
    next => exact ((stands_self hc hf).reach (scanRefs_reach ..)).works (w := .scan _) nofun fun _ => some _

theorem scanAdmit_takes (hc : Canonical s) (hn : Unheld s) (hf : flightOf s fid = some f) (hop : dOp f.bytes = 6)
    (hw : f.work = .none)
    (hr : f.result = none) (hs : scratchShut s f.q = false)
    (hnext : (s.flights.find? fun g => g.q == f.q && dOp g.bytes == 6 && g.result.isNone && !scanAdmitted g) = some f) :
    Taken fid f (scanAdmit f.q s) := by
  obtain rfl := (flightOf_mem hf).2
  unfold scanAdmit
  rw [hnext]
  dsimp only
  rw [scanFlight_of hf hop hr hs hw]
  dsimp only
  split
  · exact (stands_self hc hf).finishes 0x20 0
  · split
    next e he => exact scanStop_takes (stands_self hc hf) (((Clear.start hn).foldl (fun _ _ h => h.scRead ..) _).stop e he)
    next =>
      split
      · exact (stands_self hc hf).finishes 0x13 0
      · exact scanTake_takes hc hn hf hop hw hr hs

/-- The items of a SCAN that has been admitted. -/
def scansOn (fid : Nat) (s : State) : State :=
  match scanFlight s fid with
  | some (f, w) =>
    if !w.admitted then s else
    scanDone fid ((List.range (scItems f.bytes)).foldl (fun s n =>
      if (scItem f.cap.list n).2.2 = 0 then s else
      (List.range (scH (scBringIn f.q (scItem f.cap.list n).1 s) f.q)).foldl (fun s h => scanHead fid n h (scChunks f n) s)
        (scBringIn f.q (scItem f.cap.list n).1 s)) s)
  | none => s

theorem scBringIn_station (p t : Nat) {a s : State} (h : Reach stationPieces a s) : Reach stationPieces a (scBringIn p t s) :=
  scBringIn_reach (by decide) (by decide) (by decide) (by decide) (by decide) (by decide) (by decide) (by decide) (by decide)
    (by decide) (by decide) (by decide) (by decide) (by decide) (by decide) (by decide) (by decide) (by decide) (by decide) h

theorem scanHead_station (fid n h k : Nat) {a s : State} (hr : Reach stationPieces a s) :
    Reach stationPieces a (scanHead fid n h k s) :=
  scanHead_reach (by decide) (by decide) (by decide) (by decide) (by decide) (by decide) (by decide) (by decide) (by decide)
    (by decide) (by decide) (by decide) (by decide) (by decide) (by decide) (by decide) (by decide) (by decide) (by decide)
    (by decide) hr

theorem scansOn_reach (fid : Nat) (s : State) : Reach stationPieces s (scansOn fid s) := by
  unfold scansOn
  split
  · split
    · exact .rfl'
    · refine scanDone_reach (by decide) (by decide) (by decide) (by decide) (by decide) (Reach.foldl (fun t n h => ?_) .rfl')
      split
      · exact h
      · exact Reach.foldl (fun _ _ h => scanHead_station _ _ _ _ h) (scBringIn_station _ _ h)
  · exact .rfl'

theorem scanGo_takes (hc : Canonical s) (hn : Unheld s) (hf : flightOf s fid = some f) (hop : dOp f.bytes = 6) (hw : f.work = .none)
    (hr : f.result = none) (hs : scratchShut s f.q = false)
    (hnext : (s.flights.find? fun g => g.q == f.q && dOp g.bytes == 6 && g.result.isNone && !scanAdmitted g) = some f) :
    Taken fid f (scanGo fid s) := by
  have hgo : scanGo fid s = scansOn fid (scanAdmit f.q s) := by
    unfold scanGo
    rw [scanFlight_of hf hop hr hs hw]
    rfl
  exact hgo ▸ (scanAdmit_takes hc hn hf hop hw hr hs hnext).reach (scansOn_reach ..)

/-! ### SWAP (R198) -/

/-- The streams of a SWAP in progress handled, and looked at again three times. -/
def swapsOn (op p : Nat) (w : SwapWork) (s : State) : State × SwapWork :=
  swapTurns op p (swapTurns op p (swapTurns op p (w.left.foldl (fun a t => swapFirst op p t a.2 a.1) (s, { w with left := [] }))))

theorem swapTurns_station (op p : Nat) {a : State} {r : State × SwapWork} (h : ReachP stationPieces a r) :
    ReachP stationPieces a (swapTurns op p r) :=
  swapTurns_reach (by decide) (by decide) (by decide) (by decide) (by decide) (by decide) (by decide) (by decide) (by decide)
    (by decide) (by decide) (by decide) (by decide) (by decide) (by decide) (by decide) (by decide) (by decide) (by decide) h

theorem swapsOn_reach (op p : Nat) (w : SwapWork) (s : State) : Reach stationPieces s (swapsOn op p w s).1 :=
  (swapTurns_station _ _ (swapTurns_station _ _ (swapTurns_station _ _
    (ReachP.foldl (fun _ _ h => swapFirst_reach (by decide) (by decide) (by decide) (by decide) (by decide) (by decide)
    (by decide) (by decide) (by decide) (by decide) (by decide) (by decide) (by decide) (by decide) (by decide) (by decide)
    (by decide) (by decide) h.out) (ReachP.pair_iff.mpr .rfl'))))).out

theorem swapGo_takes (hc : Canonical s) (hf : flightOf s fid = some f) {op : Nat} (hop : dOp f.bytes = 0x0B)
    (hkind : bF f.bytes 24 1 = op)
    (hr : f.result = none) : Taken fid f (swapGo op fid s) := by
  obtain ⟨w, hw⟩ : ∃ w, swapFlight s fid op = some (f, w) := by
    simp [swapFlight, hf, hop, hkind, hr]
  have hworks := ((stands_self hc hf).reach (swapsOn_reach op f.q w s)).works (w := .swap (swapsOn op f.q w s).2) nofun Flight.snap
  unfold swapGo
  rw [hw]
  dsimp only
  split
  · exact hworks.reach (finish_reach (by decide) .rfl')
  · exact hworks

/-! ### COLL (R301, R307) -/

theorem collTake_waits (hf : flightOf s fid = some f) (hcol : f.station = .col) (hw : f.work = .none) (hr : f.result = none) :
    collTake fid s = reworked fid .coll (setCol { s.col with waiting := s.col.waiting ++ [fid] } s) := by
  unfold collTake
  simp only [hf, hcol, hw, hr, and_self, if_true]
  rfl

/-! ### Maximum pooling (R148, R149) -/

/-- The path of a maximum pooling's accesses. -/
def poolVia (f : Flight) : Via := if f.station = .yrd then .yard else .beside

/-- The maxima of a pooling, as they are written. -/
def poolMaxima (f : Flight) (s : State) : List (Nat × List Byte) := joinWrites (poolWrites (snapOf s f) (jobOf f))

/-- The reads of a maximum pooling that need not wait. -/
def poolRead (f : Flight) (s : State) : State × Option Nat :=
  readAll (poolVia f) f.q (sectorsAt (poolReads (jobOf f))) (proceed f.fid s)

/-- The writes of a maximum pooling whose reads met no code. -/
def poolWritten (f : Flight) (s : State) : State × Option Nat :=
  writeAll (poolVia f) f.q f.fid (poolMaxima f s) (poolRead f s).1

/-- The pieces that the counts of a maximum pooling can change. -/
def poolPieces : List Piece := [.regs .ras, .regs .evr, .evr, .freeCtr, .stks]

/-- A pooling that need not wait ends with the code of its reads, or with that of its writes once its counts are kept. -/
theorem poolGo_ends (hwait : mustWait s f.fid (sectorsAt (poolReads (jobOf f)))
    ((poolMaxima f s).map fun x => (x.1, x.2.length)) = false) :
    (∃ c, (poolRead f s).2 = some c ∧ poolGo f s = finish f.fid c 0 (poolRead f s).1) ∨
    ∃ u, Reach poolPieces (poolWritten f s).1 u ∧ poolGo f s = finish f.fid ((poolWritten f s).2.getD 0) 0 u := by
  unfold poolGo
  dsimp only
  split
  next h => exact absurd (hwait.symm.trans h) nofun
  next =>
    split
    next c hc => exact .inl ⟨c, hc, rfl⟩
    next =>
      refine .inr ⟨_, ?_, rfl⟩
      split
      · exact stkCount_reach (by decide) (stkCount_reach (by decide)
          (raisePer_reach (by decide) (by decide) (by decide) (by decide) .rfl'))
      · exact raisePer_reach (by decide) (by decide) (by decide) (by decide) .rfl'

theorem poolRead_reach (f : Flight) (s : State) : Reach readPieces s (poolRead f s).1 :=
  (readAll_reach (by decide) (by decide) (by decide) (by decide) (by decide) (by decide) (by decide) (by decide) (by decide)
    (by decide)
    (proceed_reach (by decide) .rfl')).out

theorem poolGo_result (hf : flightOf s f.fid = some f) (hr : f.result = none)
    (hwait : mustWait s f.fid (sectorsAt (poolReads (jobOf f))) ((poolMaxima f s).map fun x => (x.1, x.2.length)) = false) :
    ∃ g code, flightOf (poolGo f s) f.fid = some g ∧ Continues f g ∧ g.result = some code ∧
      ((poolRead f s).2 = none → (poolWritten f s).2 = none → code = 0 ∧ MemHolds (poolMaxima f s) s (poolGo f s)) := by
  have hread := poolRead_reach f s
  have hwrite := writeAll_pieces (poolVia f) f.q f.fid (poolMaxima f s) (poolRead f s).1
  have hstill : flightOf (poolRead f s).1 f.fid = some f :=
    (flightOf_of_flights (flights_of_reach hread (by decide)) f.fid).trans hf
  obtain ⟨c, hcode, heq⟩ | ⟨u, hu, heq⟩ := poolGo_ends hwait <;> rw [heq]
  · exact ⟨_, c, finish_flight hstill hr c 0, ⟨rfl, id, fun _ => nofun⟩, rfl, fun hnone => nomatch hnone.symm.trans hcode⟩
  · have hflights : u.flights = (poolRead f s).1.flights :=
      (flights_of_reach hu (by decide)).trans (flights_of_reach hwrite (by decide))
    refine ⟨_, _, finish_flight ((flightOf_of_flights hflights f.fid).trans hstill) hr _ 0, ⟨rfl, id, fun _ => nofun⟩, rfl,
      fun _ hnone => ⟨by rw [hnone]; rfl, ?_⟩⟩
    exact (writeAll_holds (poolVia f) f.q f.fid (poolMaxima f s) (poolRead f s).1 hnone).of_mem (mem_of_reach hread (by decide))
      ((updFlight_mem ..).trans (mem_of_reach hu (by decide)))

end

/-- What a command that runs while the device runs leaves. -/
theorem nextIs_running {s : State} {g : State → State} {P : State → Prop} (h : Running s) (hp : P (g s)) :
    NextIs (.next (wh (on s) g s)) P := ⟨_, congrArg Host.Outcome.next (wh_running h g), hp⟩

/-- Settles O18: each station first gives the descriptor work or a result; what follows in the command keeps descriptors. -/
theorem stationsTakeUpTheirDescriptors : Obligations.StationsTakeUpTheirDescriptors := by
  unfold Obligations.StationsTakeUpTheirDescriptors
  intro fid f s hrun hc hn hf hw hr hs first free rd ws via nextScan
  have hfid : f.fid = fid := (flightOf_mem hf).2
  have hplan (hfirst : first = some f) (hfree : free) : ∃ i, PlanDue f i s := by
    obtain ⟨i, hi, hidle⟩ := hfree
    obtain ⟨k, hk⟩ := Option.isSome_iff_exists.mp
      (List.find?_isSome.mpr ⟨i, List.mem_range.mpr hi, by rw [hidle]; rfl⟩ : (firstBelow 16 fun i => !plannerBusy s i).isSome)
    exact ⟨k, hfirst, hk⟩
  refine ⟨fun hfirst hfree hop => ?gemm, fun hfirst hfree hop => ?conv, fun hop hst hwait => ?pool, fun hop => ?check,
    fun hop => ?attn,
    fun hturn hitems hfree => ?kvapp, fun hnext hop => ?scan, fun hop hkind => ?swapOut, fun hop hkind => ?swapIn,
    fun hop hkind => ?swapSync, fun hcol => ?coll⟩
  case gemm =>
    obtain ⟨i, hdue⟩ := hplan hfirst hfree
    exact nextIs_running hrun (tileGo_takes hdue hc hf hop).up
  case conv =>
    obtain ⟨i, hdue⟩ := hplan hfirst hfree
    have hgo : convGo fid s = tileGo 3 fid s := by
      have harr : f.station = .arr := by
        have htile := hdue.fresh.1
        simp only [isTileOp, Bool.and_eq_true, beq_iff_eq] at htile
        exact htile.1
      simp only [convGo, hf, harr, ne_eq, not_true_eq_false, and_false, if_false]
    exact nextIs_running hrun (hgo ▸ (tileGo_takes hdue hc hf hop).up)
  case pool =>
    obtain rfl := hfid
    have hgo : convGo f.fid s = poolGo f s := by
      simp only [convGo, hf, hop, hst, hr, hs, ne_eq, not_false_eq_true, and_self, if_true, Option.isNone_none, Bool.not_false,
        Bool.and_self]
    exact nextIs_running hrun (hgo ▸ poolGo_result hf hr hwait)
  case check => exact nextIs_running hrun (checkGo_takes hc hf hop hw hr hs).up
  case attn => exact nextIs_running hrun (attnGo_takes hc hn.unheld hf hop hw hr hs).up
  case kvapp => exact nextIs_running hrun (kvGo_takes hc hn hw hturn hitems hfree).up
  case scan => exact nextIs_running hrun (scanGo_takes hc hn.unheld hf hop hw hr hs hnext).up
  case swapOut => exact nextIs_running hrun (swapGo_takes hc hf hop hkind hr).up
  case swapIn => exact nextIs_running hrun (swapGo_takes hc hf hop hkind hr).up
  case swapSync => exact nextIs_running hrun (swapGo_takes hc hf hop hkind hr).up
  case coll =>
    refine nextIs_running hrun ?_
    rw [collTake_waits hf hcol hw hr]
    refine ⟨?_, ?_, ?_⟩
    · exact ⟨_, flightOf_reworked hf .coll, ⟨rfl, fun _ => nofun, id⟩, .inl nofun⟩
    · exact congrArg Col.waiting (updFlight_col ..)
    · exact (updFlight_reach (L := [.flights, .col]) (x1 := fun f => { f with work := .coll }) (by decide)
        (fun _ => ⟨fun _ => nofun, id⟩) (setCol_reach (by decide) .rfl')).frame

end Sys2Proof.Machine
end

section
/-!
PROOFS. Steps of KVS on its tables (R157, R161, R371): what such a step is made of, the fields of the KVS page that it leaves, and the
codes that it ends with.
-/
namespace Sys2Proof.Machine

/-! ### What a step on tables is made of -/

/-- From `r` a step went on to another one by reads, by writes, and by acts that relate the states before and after them by `K`. -/
inductive TableSteps (K : State → State → Prop) (r : Try) : Try → Prop
  | start : TableSteps K r r
  | read {r' : Try} (h : TableSteps K r r') (via : Via) (p a n : Nat) : TableSteps K r (tryRead via p a n r')
  | write {r' : Try} (h : TableSteps K r r') (via : Via) (p a : Nat) (bs : List Byte) : TableSteps K r (tryWrite via p a bs r')
  | act {r' : Try} {f : State → State} (h : TableSteps K r r') (hf : K r'.1 (f r'.1)) : TableSteps K r (tryDo f r')

namespace TableSteps

variable {K M : State → State → Prop} {r r' : Try}

theorem ite {c : Prop} [Decidable c] {x y : Try} (hx : TableSteps K r x) (hy : TableSteps K r y) :
    TableSteps K r (if c then x else y) := by
  split
  · exact hx
  · exact hy

theorem foldl {α : Type} {f : Try → α → Try} (hf : ∀ x a, TableSteps K r x → TableSteps K r (f x a)) (l : List α)
    (h : TableSteps K r r') : TableSteps K r (l.foldl f r') := by
  induction l generalizing r' with
  | nil => exact h
  | cons a l ih => exact ih (hf r' a h)

/-- A relation that writes keep and that goes on from state to state holds over the whole step. -/
theorem state (hrefl : ∀ s, K s s) (htrans : ∀ s t u, K s t → K t u → K s u)
    (hput : ∀ via p a bs s, K s (memPut via p a bs s)) (h : TableSteps K r r') : K r.1 r'.1 := by
  induction h with
  | start => exact hrefl _
  | read _ via p a n ih => rwa [tryRead_fst]
  | write _ via p a bs ih =>
    unfold tryWrite
    split
    · exact ih
    · split
      · exact ih
      · exact htrans _ _ _ ih (hput ..)
  | act _ hf ih =>
    unfold tryDo
    split
    · exact ih
    · exact htrans _ _ _ ih hf

theorem mono (hKM : ∀ s t, K s t → M s t) (h : TableSteps K r r') : TableSteps M r r' := by
  induction h with
  | start => exact .start
  | read _ via p a n ih => exact ih.read via p a n
  | write _ via p a bs ih => exact ih.write via p a bs
  | act _ hf ih => exact ih.act (hKM _ _ hf)

theorem trans {x : Try} (h : TableSteps K r r') (h' : TableSteps K r' x) : TableSteps K r x := by
  induction h' with
  | start => exact h
  | read _ via p a n ih => exact ih.read via p a n
  | write _ via p a bs ih => exact ih.write via p a bs
  | act _ hf ih => exact ih.act hf

end TableSteps

/-! ### The codes that end a step (R371) -/

/-- A step that has ended has a status code, or is one that must wait. -/
def Coded (r : Try) : Prop := ∀ e, r.2 = some e → e.code < 256 ∨ e.code = heldMark

theorem coded_start (s : State) : Coded (s, none) := fun _ he => nomatch he

theorem blockCheck_code_lt {s : State} {w : Bool} {u : Nat} {x : Nat × Nat} (h : blockCheck s w u = some x) : x.1 < 256 := by
  unfold blockCheck at h
  grind

theorem stopAt_code {s : State} {via : Via} {w : Bool} {p a n : Nat} {e : Stop} (he : stopAt s via w p a n = some e) :
    e.code < 256 ∨ e.code = heldMark := by
  obtain ⟨x, -, hx⟩ := List.exists_of_findSome?_eq_some he
  have hblock {w : Bool} {u : Nat} (hm : (blockCheck s w u).map (fun c => (⟨c.1, c.2, x.2.1⟩ : Stop)) = some e) : e.code < 256 := by
    obtain ⟨c, hc, rfl⟩ := Option.map_eq_some_iff.mp hm
    exact blockCheck_code_lt hc
  split at hx
  next => exact .inl (Option.some.inj hx ▸ (by decide : 0x20 < 256))
  next =>
    split at hx
    next => exact .inr (Option.some.inj hx ▸ rfl)
    next =>
      split at hx
      · split at hx
        · cases hx
        · exact .inl (hblock hx)
      · split at hx
        · cases hx
        · exact .inl (hblock hx)
      · cases hx

theorem TableSteps.coded {K : State → State → Prop} {r r' : Try} (h : TableSteps K r r') (hr : Coded r) : Coded r' := by
  induction h with
  | start => exact hr
  | read _ via p a n ih =>
    unfold tryRead
    split
    · exact ih
    · exact fun e he => stopAt_code he
  | write _ via p a bs ih =>
    unfold tryWrite
    split
    · exact ih
    · split
      next e he => exact fun e' he' => stopAt_code (he.trans he')
      next => exact coded_start _
  | act _ _ ih =>
    unfold tryDo
    split
    · exact ih
    · exact coded_start _

/-! ### The fields of the KVS page -/

/-- The fields of the KVS page that its own steps write: the counters of a step on its tables, and the status of a command. -/
def kvWorking : List Fld :=
  [Fld.KVS_LAB_HIT, Fld.KVS_LAB_MISS, Fld.KVS_EVICT_SCORE, Fld.KVS_EVICT_AGE, Fld.KVS_CMD_STAT_CODE, Fld.KVS_CMD_STAT_BUSY]

/-- The KVS page of a partition is the same beside those fields. -/
def PageKept (p : Nat) (s t : State) : Prop := ∀ f, f.beside kvWorking = true → rg t (pgKvs p) f = rg s (pgKvs p) f

namespace PageKept

variable {p : Nat} {s t u : State}

theorem refl (p : Nat) (s : State) : PageKept p s s := fun _ _ => rfl

theorem trans (h : PageKept p s t) (h' : PageKept p t u) : PageKept p s u := fun f hf => (h' f hf).trans (h f hf)

theorem of_regs (h : t.regs = s.regs) : PageKept p s t := fun f _ => rg_of_regs h (pgKvs p) f

theorem of_reach {L : List Piece} (h : Reach L s t) (hL : Piece.regs .kvs ∉ L) : PageKept p s t :=
  fun f _ => rg_of_reach (pg := pgKvs p) h hL f

theorem st {f : Fld} (hf : f ∈ kvWorking) (v : Nat) (s : State) : PageKept p s (st (pgKvs p) f v s) :=
  fun _ hg => rg_st_beside hg hf (pgKvs p) v s

theorem inc {f : Fld} (hf : f ∈ kvWorking) (n : Nat) (s : State) : PageKept p s (inc (pgKvs p) f n s) := .st hf _ s

theorem entry (h : PageKept p s t) (k : Nat) : kvEntry t p k = kvEntry s p k := by
  rw [kvEntry, h _ (by decide), h _ (by decide), kvEntry]

theorem streams (h : PageKept p s t) : kvStreams t p = kvStreams s p := by rw [kvStreams, h _ (by decide), kvStreams]

theorem dh (h : PageKept p s t) : kvDH t p = kvDH s p := by rw [kvDH, h _ (by decide), kvDH]

theorem kvF (h : PageKept p s t) (hm : t.mem = s.mem) (k off n : Nat) : kvF t p k off n = kvF s p k off n := by
  rw [Machine.kvF, h.entry, rdLE, rdBytes_of_mem hm, ← rdLE, Machine.kvF]

end PageKept

theorem memPut_reaches (via : Via) (p a : Nat) (bs : List Byte) (s : State) : Reach memAccess s (memPut via p a bs s) :=
  memPut_reach (by decide) (by decide) (by decide) (by decide) (by decide) (by decide) (by decide) (by decide) (by decide)
    (by decide) (by decide) (by decide) (by decide) (by decide) (by decide) .rfl'

/-! ### Frames given back (Table 7.13) -/

/-- The pool of a partition from which frames have come to the free list: that list has grown at its end, and the pages of the pool were
in it before. -/
def PoolFreed (p : Nat) (s t : State) : Prop :=
  (kv s p).free <+: (kv t p).free ∧ ∀ y, y ∈ (kv t p).pool → y ∈ (kv s p).pool

theorem PoolFreed.trans {p : Nat} {s t u : State} (h : PoolFreed p s t) (h' : PoolFreed p t u) : PoolFreed p s u :=
  ⟨h.1.trans h'.1, fun y hy => h.2 y (h'.2 y hy)⟩

theorem kv_of_kvs {s t : State} (h : t.kvs = s.kvs) (p : Nat) : kv t p = kv s p := by rw [kv, h, kv]

theorem kv_of_reach {L : List Piece} {s t : State} (h : Reach L s t) (hL : Piece.kvs ∉ L) (p : Nat) : kv t p = kv s p :=
  kv_of_kvs (h.frame .kvs hL) p

theorem PoolFreed.of_kv {p : Nat} {s t : State} (h : kv t p = kv s p) : PoolFreed p s t := by
  rw [PoolFreed, h]
  exact ⟨List.prefix_refl _, fun _ => id⟩

@[simp] theorem kv_setKv_same (p : Nat) (k : Kvs) (s : State) : kv (setKv p k s) p = k := tabGet_tabSet_same ..

/-- What a step that frees pages leaves: the page and the pool, and the descriptors in flight. -/
structure Freeing (p : Nat) (s t : State) : Prop where
  page : PageKept p s t
  pool : PoolFreed p s t
  flights : t.flights = s.flights

namespace Freeing

variable {p : Nat} {s t u : State}

theorem refl (p : Nat) (s : State) : Freeing p s s := ⟨.refl p s, .of_kv rfl, rfl⟩

theorem trans (h : Freeing p s t) (h' : Freeing p t u) : Freeing p s u :=
  ⟨h.page.trans h'.page, h.pool.trans h'.pool, h'.flights.trans h.flights⟩

theorem of_reach {L : List Piece} (h : Reach L s t) (hr : Piece.regs .kvs ∉ L) (hk : Piece.kvs ∉ L)
    (hf : Piece.flights ∉ L) : Freeing p s t :=
  ⟨.of_reach h hr, .of_kv (kv_of_reach h hk p), h.frame .flights hf⟩

theorem inc {f : Fld} (hf : f ∈ kvWorking) (n : Nat) (s : State) : Freeing p s (inc (pgKvs p) f n s) :=
  ⟨.inc hf n s, .of_kv (kv_of_kvs (inc_kvs ..) p), inc_flights ..⟩

theorem setKv {k : Kvs} (hfree : (kv s p).free <+: k.free) (hpool : ∀ y, y ∈ k.pool → y ∈ (kv s p).pool) :
    Freeing p s (setKv p k s) :=
  ⟨.of_regs (setKv_regs ..), by rw [PoolFreed, kv_setKv_same]; exact ⟨hfree, hpool⟩, setKv_flights ..⟩

end Freeing

/-! ### The operations on entries and pages -/

namespace TableSteps

variable {K : State → State → Prop} {p : Nat} {r r' : Try}

theorem kvRead (h : TableSteps K r r') (p t : Nat) : TableSteps K r (kvRead p t r') := h.read ..

theorem kvPut (h : TableSteps K r r') (p t off n v : Nat) : TableSteps K r (kvPut p t off n v r') := h.write ..

theorem kvLeafPut (h : TableSteps K r r') (p t e v : Nat) : TableSteps K r (kvLeafPut p t e v r') := by
  unfold Machine.kvLeafPut
  split
  · exact h.write ..
  · exact h

theorem kvWalk (h : TableSteps (Freeing p) r r') (t e : Nat) : TableSteps (Freeing p) r (kvWalk p t e r') := by
  unfold Machine.kvWalk
  dsimp only
  split
  · exact ((h.read ..).read ..).act
      (.of_reach (labTake_reach (L := [.lab, .freeCtr]) (by decide) (by decide) .rfl') (by decide) (by decide) (by decide))
  · exact h.read ..

theorem kvLook (h : TableSteps (Freeing p) r r') (t e : Nat) : TableSteps (Freeing p) r (kvLook p t e r') :=
  (h.act (.inc (by decide) 1 _)).ite ((h.kvWalk t e).act (.inc (by decide) 1 _))

theorem kvLooks (h : TableSteps (Freeing p) r r') (t : Nat) (es : List Nat) : TableSteps (Freeing p) r (kvLooks p t es r') :=
  h.foldl (fun _ e hx => hx.kvLook t e) es

theorem kvDrop (h : TableSteps (Freeing p) r r') (t e : Nat) : TableSteps (Freeing p) r (kvDrop p t e r') := by
  have hlook := (h.kvRead p t).kvLook t e
  unfold Machine.kvDrop
  exact ((((hlook.kvLeafPut ..).kvPut ..).kvPut ..).ite ((hlook.kvLeafPut ..).kvPut ..)).act
    (.setKv (List.prefix_refl _) fun _ => List.mem_of_mem_filter)

theorem kvFreePages (h : TableSteps (Freeing p) r r') (t : Nat) (es : List Nat) :
    TableSteps (Freeing p) r (kvFreePages p t es r') := by
  refine h.foldl (fun x e hx => ?_) es
  have hlook := hx.kvLook t e
  refine TableSteps.ite ((hlook.kvDrop t e).act (.setKv ?_ fun _ => id)) hlook
  exact List.prefix_append ..

end TableSteps

theorem TableSteps.freeing {p : Nat} {r r' : Try} (h : TableSteps (Freeing p) r r') : Freeing p r.1 r'.1 :=
  h.state (.refl p) (fun _ _ _ => .trans) fun via q a bs s => .of_reach (memPut_reaches via q a bs s) (by decide) (by decide)
    (by decide)

end Sys2Proof.Machine
end

section
/-!
PROOFS. Fields of a stream entry in memory (R153, R371): a write of KVS that no code stops stores its bytes and leaves every other one.
-/
namespace Sys2Proof.Machine

/-! ### Writes one after the other -/

theorem writtenAt_append (l m : List (Nat × List Byte)) (a : Nat) : writtenAt (l ++ m) a = (writtenAt m a).or (writtenAt l a) := by
  unfold writtenAt
  rw [List.foldl_append]
  generalize List.foldl _ none l = b
  induction m using List.reverseRecOn with
  | nil => rfl
  | append_singleton m x ih =>
    simp only [List.foldl_append, List.foldl_cons, List.foldl_nil, ih]
    split <;> rfl

theorem MemHolds.append {l m : List (Nat × List Byte)} {s t u : State} (h : MemHolds l s t) (h' : MemHolds m t u) :
    MemHolds (l ++ m) s u := fun a => by
  rw [h' a, h a, writtenAt_append]
  cases writtenAt m a <;> rfl

/-! ### Writes within one line -/

theorem toLE_length (n v : Nat) : (toLE n v).length = n := by
  induction n generalizing v with
  | zero => rfl
  | succ n ih => exact congrArg (· + 1) (ih _)

theorem linesOf_one {a n : Nat} (hn : 0 < n) (h : a % 512 + n ≤ 512) : linesOf a n = [(a / 512, a, n)] := by
  have hlines : (a + n - 1) / 512 - a / 512 = 0 := by omega
  have hlo : max a (a / 512 * 512) = a := by omega
  have hlen : min (a + n) (a / 512 * 512 + 512) - a = n := by omega
  rw [linesOf, if_neg (Nat.ne_of_gt hn), hlines]
  simp [hlo, hlen]

/-- A write of part of a line that no check stops. -/
theorem stopAt_passes {s : State} {via : Via} {p a n : Nat} (hline : linesOf a n = [(a / 512, a, n)]) (hn : n < 512)
    (hstop : stopAt s via true p a n = none) :
    strange s via p a = false ∧
      ((∃ k, regionOf a = .hbm k) ∨ (∃ k, regionOf a = .lpd k) → blockCheck s true (a / 512) = none) := by
  have hwhole : (n == 512) = false := beq_eq_false_iff_ne.mpr (Nat.ne_of_lt hn)
  rw [stopAt, hline, List.findSome?_singleton] at hstop
  simp only [hwhole, Bool.and_false, Bool.false_and, Bool.false_eq_true, if_false] at hstop
  split at hstop
  next => cases hstop
  next hstrange =>
    refine ⟨Bool.eq_false_iff.mpr hstrange, fun hdram => ?_⟩
    split at hstop
    next => cases hstop
    next => rcases hdram with ⟨k, hk⟩ | ⟨k, hk⟩ <;> simpa [hk] using hstop

/-- A write of part of a line that no check stops, outside leased memory, meets no code. -/
theorem writeLine_stores {s : State} {via : Via} {p a : Nat} {bs : List Byte} (hline : linesOf a bs.length = [(a / 512, a, bs.length)])
    (hn : bs.length < 512) (hstop : stopAt s via true p a bs.length = none) (hlease : ∀ n, regionOf a ≠ .lease n) (fid : Nat) :
    (writeLine via p fid (a / 512) a bs s).2 = none := by
  obtain ⟨hstrange, hcheck⟩ := stopAt_passes hline hn hstop
  have hseen := access_writeState via p (a / 512) (bs.length == 512) s
  have hblock (hdram : (∃ k, regionOf a = .hbm k) ∨ ∃ k, regionOf a = .lpd k) :
      (blockWrite (a / 512) a bs
        (if via = .yard then yardWriteLine p (a / 512) (bs.length == 512) s else yardKillLine (a / 512) s)).2 = none := by
    rcases blockCheck_code hseen true (a / 512) with ⟨d, e, c, -, hs⟩ | ⟨ht, -⟩
    · exact absurd (hs.symm.trans (hcheck hdram)) nofun
    · rw [blockWrite, ht, ite_self]
  unfold writeLine
  rw [hstrange, if_neg Bool.false_ne_true]
  dsimp only
  split
  next k hk => exact hblock (.inl ⟨k, hk⟩)
  next k hk => exact hblock (.inr ⟨k, hk⟩)
  next => rfl
  next n hk => exact absurd hk (hlease n)
  next => rfl

theorem memPut_holds {s : State} {via : Via} {p a : Nat} {bs : List Byte} (hline : linesOf a bs.length = [(a / 512, a, bs.length)])
    (hn : bs.length < 512) (hstop : stopAt s via true p a bs.length = none) (hlease : ∀ n, regionOf a ≠ .lease n) :
    MemHolds [(a, bs)] s (memPut via p a bs s) := by
  have hwrite : (memWrite via p 0 a bs s).2 = none := by
    rw [memWrite, hline]
    simpa using writeLine_stores hline hn hstop hlease 0
  exact writeAll_holds via p 0 [(a, bs)] s hwrite

/-! ### Stream entries (R153) -/

theorem kvEntry_aligned (s : State) (p t : Nat) : kvEntry s p t % 64 = 0 := by
  unfold kvEntry
  omega

theorem regionOf_lease {a n : Nat} (h : regionOf a = .lease n) : 2 ^ 42 ≤ a ∧ a < 2 ^ 43 := by
  unfold regionOf at h
  grind

theorem ownTier_not_leased {a : Nat} (h : ownTier a = true) : ¬(2 ^ 42 ≤ a ∧ a < 2 ^ 43) := by
  intro hrange
  have hlease : regionOf a = .lease ((a - 2 ^ 42) / 2 ^ 30) := by
    rw [regionOf, if_neg (by omega), if_neg (by omega), if_pos hrange]
  rw [ownTier, hlease] at h
  cases h

theorem ownTier_of_ownStruct {s : State} {p a n : Nat} (hn : 0 < n) (h : ownStruct s p a n = true) : ownTier a = true := by
  rw [ownStruct, piecesOf, if_neg (Nat.ne_of_gt hn)] at h
  simp only [List.all_cons, Bool.and_eq_true] at h
  exact h.1.2

/-- A step that wrote a field of a stream entry was under way, and has stored the field and nothing else. -/
theorem kvPut_holds {p t off n v : Nat} {r : Try} (htier : ownTier (kvEntry r.1 p t) = true) (hoff : off + n ≤ 64) (hn : 0 < n)
    (h : (kvPut p t off n v r).2 = none) :
    r.2 = none ∧ MemHolds [(kvEntry r.1 p t + off, toLE n v)] r.1 (kvPut p t off n v r).1 := by
  have halign := kvEntry_aligned r.1 p t
  have hline : linesOf (kvEntry r.1 p t + off) (toLE n v).length =
      [((kvEntry r.1 p t + off) / 512, kvEntry r.1 p t + off, (toLE n v).length)] := by
    rw [toLE_length]
    exact linesOf_one hn (by omega)
  unfold kvPut tryWrite at h ⊢
  split at h
  next e he => exact absurd (he.symm.trans h) nofun
  next hr =>
    split at h
    next => cases h
    next hstop =>
      refine ⟨hr, ?_⟩
      refine memPut_holds hline (by rw [toLE_length]; omega) hstop fun m hm => ?_
      have hrange := regionOf_lease hm
      have hout := ownTier_not_leased htier
      omega

end Sys2Proof.Machine
end

section
/-!
PROOFS. The KVS commands (R174, R175): the result, the wait and the end of a command, and the command that its page takes up.
-/
namespace Sys2Proof.Machine

/-! ### The result of a command -/

/-- A command has ended with a code. -/
def KvDone (p code : Nat) (u : State) : Prop :=
  rg u (pgKvs p) Fld.KVS_CMD_STAT_CODE = code ∧ rg u (pgKvs p) Fld.KVS_CMD_STAT_BUSY = 0

@[simp] theorem kvResult_mem (p code : Nat) (s : State) : (kvResult p code s).mem = s.mem := by simp [kvResult]
@[simp] theorem kvResult_kvs (p code : Nat) (s : State) : (kvResult p code s).kvs = s.kvs := by simp [kvResult]

theorem kvResult_done {p code : Nat} (h : code < 256) (s : State) : KvDone p code (kvResult p code s) := by
  refine ⟨?_, ?_⟩
  · rw [kvResult, rg_st_same _ _ _ _ (by decide)]
    exact Nat.mod_eq_of_lt h
  · rw [kvResult, rg_st_beside (l := [Fld.KVS_CMD_STAT_CODE]) (by decide) (by decide), rg_st_same _ _ _ _ (by decide)]
    rfl

theorem kvResult_page (p code : Nat) (s : State) : PageKept p s (kvResult p code s) :=
  (PageKept.st (by decide) 0 s).trans (.st (by decide) code _)

/-- The fields that hold how a command stands. -/
def kvStatus (p : Nat) : List (Page × Fld) := [(pgKvs p, Fld.KVS_CMD_STAT_CODE), (pgKvs p, Fld.KVS_CMD_STAT_BUSY)]

/-- The state in which a command is at work. -/
def kvBusied (p : Nat) (s : State) : State := st (pgKvs p) Fld.KVS_CMD_STAT_BUSY 1 s

theorem kvBusied_reach (p : Nat) (s : State) : Reach [.regs .kvs] s (kvBusied p s) := st_reach (List.mem_singleton_self _) .rfl'

theorem kvBusied_page (p : Nat) (s : State) : PageKept p s (kvBusied p s) := .st (by decide) 1 s

theorem kvBusied_onlyFields (p : Nat) (s : State) : OnlyFields (kvStatus p) s (kvBusied p s) :=
  onlyFields_st 1 s (by decide) (by simp [kvStatus])

theorem rg_kvBusied_busy (p : Nat) (s : State) : rg (kvBusied p s) (pgKvs p) Fld.KVS_CMD_STAT_BUSY = 1 :=
  rg_st_same _ _ _ _ (by decide)

theorem kvResult_onlyFields (p code : Nat) (s : State) : OnlyFields (kvStatus p) s (kvResult p code s) :=
  (onlyFields_st 0 s (by decide) (by simp [kvStatus])).trans (onlyFields_st code _ (by decide) (by simp [kvStatus]))

/-- A command has ended with a code, and left everything else as it was. -/
def KvOnly (p code : Nat) (s u : State) : Prop :=
  u.bus = (0, 0) ∧ KvDone p code u ∧ Only [.regs .kvs, .bus] s u ∧ OnlyFields (kvStatus p) s u

theorem kvOnly_refused {p code : Nat} (h : code < 256) (s : State) : KvOnly p code s (answerOk (kvResult p code (kvBusied p s))) := by
  refine ⟨answerOk_bus _, ?_, answerOk_only ?_ (by decide), .answerOk ?_⟩
  · simpa only [KvDone, rg_answerOk] using kvResult_done h (kvBusied p s)
  · exact kvResult_reach (by decide) ((kvBusied_reach p s).mono (by decide))
  · exact (kvBusied_onlyFields p s).trans (kvResult_onlyFields p code _)

/-! ### How a command's step ends -/

/-- A command waits: memory is as it was, and the pool but for the command that it holds. -/
def KvWaits (p op t arg : Nat) (s u : State) : Prop := u.mem = s.mem ∧ kv u p = { kv s p with waiting := some (op, t, arg) }

/-- A command's step has ended as the step `r` on the tables did: with its effect, with a wait, or with a code that leaves memory and
the pool. -/
def KvEnds (p op t arg : Nat) (s : State) (r : Try) (ok : State → Prop) (u : State) : Prop :=
  match r.2 with
  | none => KvDone p 0 u ∧ u.mem = r.1.mem ∧ kv u p = kv r.1 p ∧ ok u
  | some e => if e.code = heldMark then KvWaits p op t arg s u else KvDone p e.code u ∧ u.mem = s.mem ∧
      kv u p = { kv s p with waiting := (kv u p).waiting }

/-- A state that shows the memory, the pools and the registers of another one. -/
structure Shows (v u : State) : Prop where
  mem : u.mem = v.mem
  kvs : u.kvs = v.kvs
  regs : u.regs = v.regs

theorem shows_self (v : State) : Shows v v := ⟨rfl, rfl, rfl⟩

theorem shows_answerOk (v : State) : Shows v (answerOk v) := ⟨rfl, rfl, answerOk_regs v⟩

theorem Shows.done {p code : Nat} {u v : State} (h : Shows v u) (hd : KvDone p code v) : KvDone p code u := by
  simpa only [KvDone, rg_of_regs h.regs] using hd

theorem Shows.kv {u v : State} (h : Shows v u) (p : Nat) : kv u p = kv v p := kv_of_kvs h.kvs p

/-- State `v` is `s` once a command of the partition has been taken up: its status and what the page holds of a command may differ. -/
structure KvTaken (p : Nat) (s v : State) : Prop where
  reach : Reach [.regs .kvs, .kvs] s v
  page : PageKept p s v
  pool : ∀ w, { kv v p with waiting := w } = { kv s p with waiting := w }

theorem kvTaken_busied (p : Nat) (s : State) : KvTaken p s (kvBusied p s) :=
  ⟨(kvBusied_reach p s).mono (by decide), kvBusied_page p s, fun w => by rw [kv_of_reach (kvBusied_reach p s) (by decide)]⟩

/-- The state in which the page holds no command. -/
def kvCleared (p : Nat) (s : State) : State := setKv p { kv s p with waiting := none } s

theorem kvTaken_cleared (p : Nat) (s : State) : KvTaken p s (kvCleared p s) :=
  ⟨setKv_reach (by decide) .rfl', .of_regs (setKv_regs ..), fun w => by rw [kvCleared, kv_setKv_same]⟩

theorem KvTaken.mem {p : Nat} {s v : State} (h : KvTaken p s v) : v.mem = s.mem := mem_of_reach h.reach (by decide)

theorem kvWait_waits {p op t arg : Nat} {s v u : State} (hv : KvTaken p s v) (hu : Shows (kvWait p op t arg v) u) :
    KvWaits p op t arg s u := by
  refine ⟨hu.mem.trans ((setKv_mem ..).trans hv.mem), (hu.kv p).trans ?_⟩
  rw [kvWait, kv_setKv_same, hv.pool]

theorem stopped_only (e : Stop) (s : State) :
    Reach [.regs .mem, .regs .lpd, .regs .mce, .regs .sec, .regs .ras, .regs .evr, .evr, .freeCtr] s (stopped e s) :=
  stopped_reach (by decide) (by decide) (by decide) (by decide) (by decide) (by decide) (by decide) (by decide) .rfl'

/-- State `u` is `t` after the result of a command: memory and the pools are the same, and the page but for its status. -/
structure KvAfter (p : Nat) (t u : State) : Prop where
  mem : u.mem = t.mem
  kvs : u.kvs = t.kvs
  page : PageKept p t u

theorem Shows.after {p code : Nat} {t u : State} (h : Shows (kvResult p code t) u) : KvAfter p t u :=
  ⟨h.mem.trans (kvResult_mem ..), h.kvs.trans (kvResult_kvs ..), (kvResult_page p code t).trans (.of_regs h.regs)⟩

theorem KvAfter.kv {p : Nat} {t u : State} (h : KvAfter p t u) : kv u p = kv t p := kv_of_kvs h.kvs p

/-- A command's step ends as its step on the tables did. -/
theorem kvEnds_ends {p op t arg : Nat} {s v u : State} {r : Try} {ok : State → Prop} (hv : KvTaken p s v) (hr : Coded r)
    (hu : Shows (kvEnds p op t arg v r) u) (hok : r.2 = none → KvAfter p r.1 u → ok u) : KvEnds p op t arg s r ok u := by
  unfold KvEnds
  unfold kvEnds at hu
  split
  next hnone =>
    rw [hnone] at hu
    have hafter : KvAfter p r.1 u := Shows.after hu
    exact ⟨hu.done (kvResult_done (by decide) _), hafter.mem, hafter.kv, hok hnone hafter⟩
  next e he =>
    rw [he] at hu
    dsimp only at hu
    split
    next hheld =>
      rw [if_pos hheld] at hu
      exact kvWait_waits hv hu
    next hheld =>
      rw [if_neg hheld] at hu
      have hstop := stopped_only e v
      have hafter : KvAfter p (stopped e v) u := Shows.after hu
      refine ⟨hu.done (kvResult_done ((hr e he).resolve_right hheld) _),
        hafter.mem.trans ((mem_of_reach hstop (by decide)).trans hv.mem), ?_⟩
      rw [hafter.kv, kv_of_reach hstop (by decide) p]
      exact hv.pool _

/-- A command that its page took up has answered, and stays at work where it waits. -/
def KvStarts (p op t arg : Nat) (s : State) (r : Try) (ok : State → Prop) (u : State) : Prop :=
  u.bus = (0, 0) ∧ KvEnds p op t arg s r ok u ∧
    ∀ e, r.2 = some e → e.code = heldMark → rg u (pgKvs p) Fld.KVS_CMD_STAT_BUSY = 1

theorem rg_kvWait_busy (p op t arg : Nat) (s : State) :
    rg (kvWait p op t arg (kvBusied p s)) (pgKvs p) Fld.KVS_CMD_STAT_BUSY = 1 :=
  (rg_of_regs (setKv_regs ..) _ _).trans (rg_kvBusied_busy p s)

theorem kvEnds_starts {p op t arg : Nat} {s : State} {r : Try} {ok : State → Prop} (hr : Coded r)
    (hok : ∀ u, r.2 = none → KvAfter p r.1 u → ok u) :
    KvStarts p op t arg s r ok (answerOk (kvEnds p op t arg (kvBusied p s) r)) := by
  refine ⟨answerOk_bus _, kvEnds_ends (kvTaken_busied p s) hr (shows_answerOk _) (hok _), fun e he hheld => ?_⟩
  rw [rg_answerOk, kvEnds, he]
  dsimp only
  rw [if_pos hheld, rg_kvWait_busy]

end Sys2Proof.Machine
end

section
/-!
PROOFS. What the KVS commands do (R174, R175, Table 7.13): the command that a page takes up, the checks of OPEN, and what each command
leaves of its stream's entry and of the pool.
-/
namespace Sys2Proof.Machine

/-! ### The commands -/

/-- The commands on a stream, each with its code. -/
def kvCmds (p t : Nat) : List (Nat × Instr) :=
  [(1, .kvsCmdOpen p t), (2, .kvsCmdClose p t), (3, .kvsCmdUnpark p t), (4, .kvsCmdTrim p t), (5, .kvsCmdSetBudget p t)]

theorem exec_kvCmds {p t : Nat} {s : State} (hr : Ready s) (hp : p < 16) {y : Nat × Instr} (hy : y ∈ kvCmds p t) :
    exec y.2 s = .next (answerOk (kvCommand p y.1 t s)) := by
  have hrow (op : Nat) : wh (on s) (atDone (kvsRow p op t)) s = answerOk (kvCommand p op t s) := by
    rw [atDone_ready hr, kvsRow, if_neg (Nat.not_le.mpr hp), answerOk]
  simp only [kvCmds, List.mem_cons, List.not_mem_nil, or_false] at hy
  rcases hy with rfl | rfl | rfl | rfl | rfl <;> exact congrArg Host.Outcome.next (hrow _)

theorem exec_kvsCmdAddFrames {p : Nat} {s : State} (hr : Ready s) (hp : p < 16) :
    exec (.kvsCmdAddFrames p) s = .next (answerOk (kvCommand p 6 0 s)) := by
  refine congrArg Host.Outcome.next ((atDone_ready hr _).trans ?_)
  rw [kvsRow, if_neg (Nat.not_le.mpr hp), answerOk]

theorem exec_kvsCmdReleased {p : Nat} {s : State} (hr : Running s) : exec (.kvsCmdReleased p) s = .next (kvReleased p s) :=
  congrArg Host.Outcome.next (wh_running hr _)

theorem kvCmds_op {p t : Nat} {y : Nat × Instr} (hy : y ∈ kvCmds p t) : 1 ≤ y.1 ∧ y.1 ≤ 5 := by
  simp only [kvCmds, List.mem_cons, List.not_mem_nil, or_false] at hy
  rcases hy with rfl | rfl | rfl | rfl | rfl <;> exact ⟨by simp, by simp⟩

theorem kvCommand_busy {p : Nat} {s : State} (h : rg s (pgKvs p) Fld.KVS_CMD_STAT_BUSY = 1) (op t : Nat) :
    kvCommand p op t s = st (pgKvs p) Fld.KVS_CMD_STAT_IGNORED 1 s := if_pos h

/-- The first code of a command on a stream that does not depend on the stream's entry. -/
def kvBad (s : State) (p t : Nat) : Nat :=
  if partState s p = .torn then 0x71 else if kvStreams s p ≤ t then 0x11
    else if ownStruct s p (kvEntry s p t) 64 = false then 0x20 else 0

theorem kvBad_lt (s : State) (p t : Nat) : kvBad s p t < 256 := by
  unfold kvBad
  split_ifs <;> decide

theorem ownStruct_same {s t : State} (h : BaseSame s t) (p a n : Nat) : ownStruct t p a n = ownStruct s p a n := by
  simp only [ownStruct, ownsAt_same h]

theorem KvTaken.base {p : Nat} {s v : State} (h : KvTaken p s v) : BaseSame s v := base_of_reach h.reach (by decide)

theorem kvCommand_idle {p op t : Nat} {s : State} (h : rg s (pgKvs p) Fld.KVS_CMD_STAT_BUSY ≠ 1) (hop : 1 ≤ op ∧ op ≤ 5) :
    kvCommand p op t s = if kvBad s p t ≠ 0 then kvResult p (kvBad s p t) (kvBusied p s)
      else kvRun p op t (rg s (pgKvs p) Fld.KVS_CMD_ARG_LO) (kvBusied p s) := by
  have hv := kvTaken_busied p s
  have hparts : partState (kvBusied p s) p = partState s p := by
    rw [partState, parts_of_reach (kvBusied_reach p s) (by decide), partState]
  have hchecks : kvCommand p op t s = if partState (kvBusied p s) p = .torn then kvResult p 0x71 (kvBusied p s)
      else if kvStreams (kvBusied p s) p ≤ t then kvResult p 0x11 (kvBusied p s)
      else if !ownStruct (kvBusied p s) p (kvEntry (kvBusied p s) p t) 64 then kvResult p 0x20 (kvBusied p s)
      else kvRun p op t (rg (kvBusied p s) (pgKvs p) Fld.KVS_CMD_ARG_LO) (kvBusied p s) :=
    (if_neg h).trans ((if_neg (by omega)).trans (if_neg (by omega)))
  rw [hchecks, hparts, hv.page.streams, hv.page.entry, ownStruct_same hv.base, hv.page Fld.KVS_CMD_ARG_LO (by decide), kvBad]
  split
  · rfl
  · split
    · rfl
    · cases ownStruct s p (kvEntry s p t) 64 <;> rfl

/-! ### A command on a stream of the table -/

section
variable {p op t arg : Nat} {v : State}

theorem kvRun_stops (h : (kvRead p t (v, none)).2 ≠ none) : kvRun p op t arg v = kvEnds p op t arg v (kvRead p t (v, none)) :=
  if_pos (Option.isSome_iff_ne_none.mpr h)

theorem kvRun_opens (h : (kvRead p t (v, none)).2 = none) : kvRun p 1 t arg v =
    if kvOpenCode v p t ≠ 0 then kvResult p (kvOpenCode v p t) v else kvEnds p 1 t arg v (kvOpen p t v) := by
  simp [kvRun, h]

theorem kvRun_unused (h : (kvRead p t (v, none)).2 = none) (hop : op ≠ 1) (hs : kvState v p t = 0) :
    kvRun p op t arg v = kvResult p 0x13 v := by
  simp [kvRun, h, hop, hs]

theorem kvRun_waits (h : (kvRead p t (v, none)).2 = none) (hop : op = 2 ∨ op = 4) (hs : kvState v p t ≠ 0)
    (href : kvReferenced v p t = true) : kvRun p op t arg v = kvWait p op t arg v := by
  have hne : op ≠ 1 := by omega
  simp [kvRun, h, hop, hne, hs, href]

theorem kvRun_closes (h : (kvRead p t (v, none)).2 = none) (hs : kvState v p t ≠ 0) (href : kvReferenced v p t = false) :
    kvRun p 2 t arg v = kvEnds p 2 t arg v (kvClose p t v) := by
  simp [kvRun, h, hs, href]

theorem kvRun_trims (h : (kvRead p t (v, none)).2 = none) (hs : kvState v p t ≠ 0) (href : kvReferenced v p t = false) :
    kvRun p 4 t arg v = kvEnds p 4 t arg v (kvTrim p t arg v) := by
  simp [kvRun, h, hs, href]

theorem kvRun_unparks (h : (kvRead p t (v, none)).2 = none) (hs : kvState v p t = 2) :
    kvRun p 3 t arg v = kvEnds p 3 t arg v (kvPut p t 0 1 1 (v, none)) := by
  simp [kvRun, h, hs]

theorem kvRun_unparked (h : (kvRead p t (v, none)).2 = none) (hs : kvState v p t ≠ 0) (hp : kvState v p t ≠ 2) :
    kvRun p 3 t arg v = kvResult p 0 v := by
  simp [kvRun, h, hs, hp, kvEnds]

theorem kvRun_budgets (h : (kvRead p t (v, none)).2 = none) (hs : kvState v p t ≠ 0) :
    kvRun p 5 t arg v = kvEnds p 5 t arg v (kvPut p t 8 4 arg (v, none)) := by
  simp [kvRun, h, hs]

end

/-! ### What taking up a command leaves (R174) -/

section
variable {p : Nat} {s v : State}

theorem KvTaken.state (h : KvTaken p s v) (t : Nat) : kvState v p t = kvState s p t := by
  rw [kvState, h.page.kvF h.mem, kvState]

theorem KvTaken.referenced (h : KvTaken p s v) (t : Nat) : kvReferenced v p t = kvReferenced s p t := by
  rw [kvReferenced, flights_of_reach h.reach (by decide), kvReferenced]

theorem KvTaken.openCode (h : KvTaken p s v) (t : Nat) : kvOpenCode v p t = kvOpenCode s p t := by
  have htok (k : Nat) : tok v k = tok s k := tok_of_toks (toks_of_reach h.reach (by decide)) k
  simp only [kvOpenCode, kvOpenChk, h.state, h.page.entry, rdBytes_of_mem h.mem, ownStruct_same h.base, htok]

end

end Sys2Proof.Machine
end

section
/-!
PROOFS. The effects of the KVS commands (Table 7.13): the checks of OPEN, and what each command leaves of its stream's entry, of the
count of open streams and of the pool.
-/
namespace Sys2Proof.Machine

/-! ### The checks of OPEN and of ADD_FRAMES (R11) -/

theorem chkCode_eq (c : Chk) : chkCode c = if c.violation then 0x20 else if c.format then 0x13 else if c.align then 0x12
    else if c.shape then 0x10 else if c.capacity then 0x11 else if c.zero then 1 else 0 := by
  obtain ⟨v, f, a, h, k, z⟩ := c
  revert v f a h k z
  decide

theorem ofLE_eq_zero {l : List Byte} : ofLE l = 0 ↔ ∀ b, b ∈ l → b = 0 := by
  induction l with
  | nil => simp [ofLE]
  | cons b l ih =>
    have hhead : b.toNat = 0 ↔ b = 0 := BitVec.toNat_inj (y := 0)
    simp [ofLE, ih, hhead]

theorem rdBytes_length (s : State) (a n : Nat) : (rdBytes s a n).length = n := by simp [rdBytes]

/-- The directory of a stream or its token is not the partition's. -/
def EntryLost (s : State) (p : Nat) (bs : List Byte) : Prop :=
  ownStruct s p (bF bs 24 6) 4096 = false ∨ (bit 13 (bF bs 32 2) = true ∧ (tok s (bF bs 32 2 % 2 ^ 13)).owner ≠ p)

/-- A field of a stream entry has a value that it may not have. -/
def EntryOdd (bs : List Byte) : Prop :=
  bF bs 0 1 / 4 ≠ 0 ∨ bF bs 1 1 / 16 ≠ 0 ∨ bF bs 2 1 / 2 ≠ 0 ∨ bF bs 3 1 ≠ 0 ∨ 256 < bF bs 4 2 ∨ bF bs 30 2 ≠ 0 ∨
    bF bs 32 2 / 2 ^ 14 ≠ 0 ∨ ∃ b, b ∈ bs.drop 34 ∧ b ≠ 0

section
variable {s : State} {p t : Nat}

theorem kvOpenChk_violation :
    (kvOpenChk s p t).violation = true ↔ EntryLost s p (rdBytes s (kvEntry s p t) 64) := by
  simp [kvOpenChk, EntryLost]

theorem kvOpenChk_format (h : kvState s p t = 0) :
    (kvOpenChk s p t).format = true ↔ EntryOdd (rdBytes s (kvEntry s p t) 64) := by
  have htail : ((rdBytes s (kvEntry s p t) 64).drop 34).take 30 = (rdBytes s (kvEntry s p t) 64).drop 34 :=
    List.take_of_length_le (by simp [rdBytes_length])
  have hzero : bF (rdBytes s (kvEntry s p t) 64) 34 30 = 0 ↔ ∀ b, b ∈ (rdBytes s (kvEntry s p t) 64).drop 34 → b = 0 := by
    rw [bF, htail, ofLE_eq_zero]
  simp [kvOpenChk, h, EntryOdd, dAddrOk, zeroAt, or_assoc, hzero]

/-- The code of OPEN on an unused stream. -/
theorem kvOpenCode_eq (h : kvState s p t = 0) : kvOpenCode s p t = if (kvOpenChk s p t).violation then 0x20
    else if (kvOpenChk s p t).format then 0x13 else if bF (rdBytes s (kvEntry s p t) 64) 24 6 % 4096 ≠ 0 then 0x12 else 0 := by
  have hrest : (kvOpenChk s p t).shape = false ∧ (kvOpenChk s p t).capacity = false ∧ (kvOpenChk s p t).zero = false := by
    simp only [kvOpenChk, chkNone, and_self]
  have halign : (kvOpenChk s p t).align = (bF (rdBytes s (kvEntry s p t) 64) 24 6 % 4096 != 0) := by simp only [kvOpenChk]
  obtain ⟨hshape, hcapacity, hzero⟩ := hrest
  rw [kvOpenCode, if_neg (not_not_intro h), chkCode_eq, hshape, hcapacity, hzero, halign]
  simp only [bne_iff_ne, Bool.false_eq_true, if_false]

theorem kvOpenCode_lost (h : kvState s p t = 0) (hl : EntryLost s p (rdBytes s (kvEntry s p t) 64)) :
    kvOpenCode s p t = 0x20 := by
  rw [kvOpenCode_eq h, if_pos (kvOpenChk_violation.mpr hl)]

theorem kvOpenCode_odd (h : kvState s p t = 0) (hl : ¬EntryLost s p (rdBytes s (kvEntry s p t) 64))
    (ho : EntryOdd (rdBytes s (kvEntry s p t) 64)) : kvOpenCode s p t = 0x13 := by
  rw [kvOpenCode_eq h, if_neg (kvOpenChk_violation.not.mpr hl), if_pos ((kvOpenChk_format h).mpr ho)]

theorem kvOpenCode_sound (h : kvState s p t = 0) (hl : ¬EntryLost s p (rdBytes s (kvEntry s p t) 64))
    (ho : ¬EntryOdd (rdBytes s (kvEntry s p t) 64)) :
    kvOpenCode s p t = if bF (rdBytes s (kvEntry s p t) 64) 24 6 % 4096 ≠ 0 then 0x12 else 0 := by
  rw [kvOpenCode_eq h, if_neg (kvOpenChk_violation.not.mpr hl), if_neg ((kvOpenChk_format h).not.mpr ho)]

theorem kvOpenCode_used (h : kvState s p t ≠ 0) : kvOpenCode s p t = 0x13 := if_pos h

end

/-! ### Effects -/

theorem tryDo_ok {f : State → State} {r : Try} (h : (tryDo f r).2 = none) : r.2 = none ∧ (tryDo f r).1 = f r.1 := by
  unfold tryDo at h ⊢
  split at h
  next e he => exact absurd (he.symm.trans h) nofun
  next hr => exact ⟨hr, rfl⟩

section
variable {p t arg off n x : Nat} {s v u : State}

theorem KvTaken.tier (h : KvTaken p s v) (hown : ownStruct s p (kvEntry s p t) 64 = true) : ownTier (kvEntry v p t) = true := by
  rw [h.page.entry]
  exact ownTier_of_ownStruct (by decide) hown

/-- A field of the stream's entry, written as a command's effect. -/
theorem kvPut_effect (hv : KvTaken p s v) (hown : ownStruct s p (kvEntry s p t) 64 = true) (hoff : off + n ≤ 64) (hn : 0 < n)
    (h : (kvPut p t off n x (v, none)).2 = none) (hu : KvAfter p (kvPut p t off n x (v, none)).1 u) :
    MemHolds [(kvEntry s p t + off, toLE n x)] s u := by
  have hput := (kvPut_holds (r := (v, none)) (hv.tier hown) hoff hn h).2
  rw [hv.page.entry] at hput
  exact hput.of_mem hv.mem hu.mem

theorem kvOpen_effect (hv : KvTaken p s v) (hown : ownStruct s p (kvEntry s p t) 64 = true) (h : (kvOpen p t v).2 = none)
    (hu : KvAfter p (kvOpen p t v).1 u) :
    MemHolds [(kvEntry s p t + 12, toLE 12 0), (kvEntry s p t, [1])] s u ∧ CountsUp (pgKvs p) Fld.KVS_OPEN 1 s u := by
  obtain ⟨hputs, hend⟩ := tryDo_ok h
  have hzeroed : Freeing p v (kvPut p t 12 12 0 (v, none)).1 := ((TableSteps.start (r := (v, none))).kvPut p t 12 12 0).freeing
  have hputs_page : PageKept p v (kvPut p t 0 1 1 (kvPut p t 12 12 0 (v, none))).1 :=
    (((TableSteps.start (r := (v, none))).kvPut p t 12 12 0).kvPut p t 0 1 1 : TableSteps (Freeing p) (v, none) _).freeing.page
  have hentry : kvEntry (kvPut p t 12 12 0 (v, none)).1 p t = kvEntry s p t := by rw [hzeroed.page.entry, hv.page.entry]
  obtain ⟨hzero, hactive⟩ := kvPut_holds (by rw [hentry, ← hv.page.entry]; exact hv.tier hown) (by decide) (by decide) hputs
  obtain ⟨-, hlength⟩ := kvPut_holds (r := (v, none)) (hv.tier hown) (by decide) (by decide) hzero
  rw [hentry] at hactive
  rw [hv.page.entry] at hlength
  have hmem := (hlength.append hactive).of_mem hv.mem (t' := u) (by rw [hu.mem, kvOpen, hend, inc_mem])
  refine ⟨hmem, ?_⟩
  rw [CountsUp, hu.page _ (by decide), kvOpen, hend]
  rw [countsUp_inc (by decide), hputs_page _ (by decide), hv.page _ (by decide)]

theorem kvTaken_freed {w : State} (hv : KvTaken p s v) (h : PoolFreed p v w) (hu : KvAfter p w u) : PoolFreed p s u := by
  obtain ⟨hfree, hpages, -⟩ := Kvs.mk.inj (hv.pool none)
  rw [PoolFreed, hu.kv, ← hfree, ← hpages]
  exact h

/-- A stream has been closed: its frames are free, one stream fewer is open, and its entry's first byte, with STATE, is 0. -/
def KvClosed (p t : Nat) (s u : State) : Prop :=
  PoolFreed p s u ∧ rg u (pgKvs p) Fld.KVS_OPEN = rg s (pgKvs p) Fld.KVS_OPEN - 1 ∧ rd1 u (kvEntry s p t) = 0

theorem kvFreePages_freeing (p t : Nat) (es : List Nat) (v : State) : Freeing p v (kvFreePages p t es (v, none)).1 :=
  ((TableSteps.start (r := (v, none))).kvFreePages t es).freeing

theorem kvClose_effect (hv : KvTaken p s v) (hown : ownStruct s p (kvEntry s p t) 64 = true) (h : (kvClose p t v).2 = none)
    (hu : KvAfter p (kvClose p t v).1 u) : KvClosed p t s u := by
  obtain ⟨hput, hend⟩ := tryDo_ok h
  have hfreed := kvFreePages_freeing p t (kvEntries v p t) v
  have hwhole : Freeing p v (kvPut p t 0 1 0 (kvFreePages p t (kvEntries v p t) (v, none))).1 :=
    (((TableSteps.start (r := (v, none))).kvFreePages t (kvEntries v p t)).kvPut p t 0 1 0).freeing
  have hentry : kvEntry (kvFreePages p t (kvEntries v p t) (v, none)).1 p t = kvEntry s p t := by
    rw [hfreed.page.entry, hv.page.entry]
  have hunused := (kvPut_holds (by rw [hentry, ← hv.page.entry]; exact hv.tier hown) (by decide) (by decide) hput).2
  refine ⟨kvTaken_freed hv ?_ hu, ?_, ?_⟩
  · rw [kvClose, hend]
    exact hwhole.pool.trans (.of_kv (kv_of_kvs (st_kvs ..) p))
  · have hcount : rg (kvPut p t 0 1 0 (kvFreePages p t (kvEntries v p t) (v, none))).1 (pgKvs p) Fld.KVS_OPEN =
        rg s (pgKvs p) Fld.KVS_OPEN := (hwhole.page _ (by decide)).trans (hv.page _ (by decide))
    have hlt : rg s (pgKvs p) Fld.KVS_OPEN - 1 < 2 ^ 17 :=
      Nat.lt_of_le_of_lt (Nat.sub_le _ 1) (Nat.mod_lt _ (by decide))
    rw [hu.page _ (by decide), kvClose, hend, rg_st_same _ _ _ _ (by decide), hcount]
    exact Nat.mod_eq_of_lt hlt
  · rw [hentry] at hunused
    rw [rd1_of_mem hu.mem, kvClose, hend, rd1_of_mem (st_mem ..), hunused]
    simp [writtenAt, toLE]

theorem kvTrim_effect (hv : KvTaken p s v) (hu : KvAfter p (kvTrim p t arg v).1 u) : PoolFreed p s u :=
  kvTaken_freed hv (kvFreePages_freeing p t _ v).pool hu

/-! ### Codes -/

theorem kvRead_coded (p t : Nat) (v : State) : Coded (kvRead p t (v, none)) :=
  (TableSteps.start (K := fun _ _ => True)).kvRead p t |>.coded (coded_start v)

theorem kvPut_coded (p t off n x : Nat) (v : State) : Coded (kvPut p t off n x (v, none)) :=
  (TableSteps.start (K := fun _ _ => True)).kvPut p t off n x |>.coded (coded_start v)

theorem kvOpen_coded (p t : Nat) (v : State) : Coded (kvOpen p t v) :=
  (((TableSteps.start (K := fun _ _ => True)).kvPut ..).kvPut ..).act trivial |>.coded (coded_start v)

theorem kvClose_coded (p t : Nat) (v : State) : Coded (kvClose p t v) := by
  have hfreed := (TableSteps.start (r := (v, none))).kvFreePages (p := p) t (kvEntries v p t)
  exact ((hfreed.mono (M := fun _ _ => True) fun _ _ _ => trivial).kvPut ..).act trivial |>.coded (coded_start v)

theorem kvTrim_coded (p t pos : Nat) (v : State) : Coded (kvTrim p t pos v) :=
  ((TableSteps.start (r := (v, none))).kvFreePages t _).coded (coded_start v)

end

end Sys2Proof.Machine
end

section
/-!
PROOFS. The KVS commands as their pages take them (R174, R175, Table 7.13): each command by the state of its stream, ADD_FRAMES, and a
command that waited.
-/
namespace Sys2Proof.Machine

/-! ### A command on a stream, taken up -/

/-- A command on stream `t` that passes the checks before its entry is read, on an idle page. -/
structure KvPasses (p t : Nat) (s : State) : Prop where
  ready : Ready s
  part : p < 16
  idle : rg s (pgKvs p) Fld.KVS_CMD_STAT_BUSY ≠ 1
  good : kvBad s p t = 0

section
variable {p t : Nat} {s : State}

/-- The argument of a command. -/
def kvArg (s : State) (p : Nat) : Nat := rg s (pgKvs p) Fld.KVS_CMD_ARG_LO

theorem KvPasses.own (h : KvPasses p t s) : ownStruct s p (kvEntry s p t) 64 = true := by
  have hgood := h.good
  unfold kvBad at hgood
  split_ifs at hgood with _ _ hown
  exact Bool.not_eq_false _ ▸ hown

theorem KvPasses.runs (h : KvPasses p t s) {y : Nat × Instr} (hy : y ∈ kvCmds p t) {P : State → Prop}
    (hP : P (answerOk (kvRun p y.1 t (kvArg s p) (kvBusied p s)))) : NextIs (exec y.2 s) P := by
  refine ⟨_, exec_kvCmds h.ready h.part hy, ?_⟩
  rw [kvCommand_idle h.idle (kvCmds_op hy), if_neg (not_not_intro h.good)]
  exact hP

/-- The entry of the stream is read without a stop. -/
def EntryRead (p t : Nat) (s : State) : Prop := (kvRead p t (kvBusied p s, none)).2 = none

theorem KvPasses.stops (h : KvPasses p t s) (hread : ¬EntryRead p t s) {y : Nat × Instr} (hy : y ∈ kvCmds p t) :
    NextIs (exec y.2 s) (KvStarts p y.1 t (kvArg s p) s (kvRead p t (kvBusied p s, none)) fun _ => True) := by
  refine h.runs hy ?_
  rw [kvRun_stops hread]
  exact kvEnds_starts (kvRead_coded p t _) fun _ _ _ => trivial

theorem kvState_busied : kvState (kvBusied p s) p t = kvState s p t := (kvTaken_busied p s).state t

/-! ### An unused stream -/

theorem KvPasses.unused (h : KvPasses p t s) (hread : EntryRead p t s) (hs : kvState s p t = 0) {y : Nat × Instr}
    (hy : y ∈ kvCmds p t) (hop : y.1 ≠ 1) : NextIs (exec y.2 s) (KvOnly p 0x13 s) := by
  refine h.runs hy ?_
  rw [kvRun_unused hread hop (kvState_busied.trans hs)]
  exact kvOnly_refused (by decide) s

theorem KvPasses.openRefused (h : KvPasses p t s) (hread : EntryRead p t s) {code : Nat} (hcode : kvOpenCode s p t = code)
    (hne : code ≠ 0) (hlt : code < 256) : NextIs (exec (.kvsCmdOpen p t) s) (KvOnly p code s) := by
  refine h.runs (y := (1, .kvsCmdOpen p t)) (by simp [kvCmds]) ?_
  rw [kvRun_opens hread, (kvTaken_busied p s).openCode, hcode, if_pos hne]
  exact kvOnly_refused hlt s

theorem KvPasses.opens (h : KvPasses p t s) (hread : EntryRead p t s) (hcode : kvOpenCode s p t = 0) :
    NextIs (exec (.kvsCmdOpen p t) s) (KvStarts p 1 t (kvArg s p) s (kvOpen p t (kvBusied p s)) fun u =>
      MemHolds [(kvEntry s p t + 12, toLE 12 0), (kvEntry s p t, [1])] s u ∧ CountsUp (pgKvs p) Fld.KVS_OPEN 1 s u) := by
  refine h.runs (y := (1, .kvsCmdOpen p t)) (by simp [kvCmds]) ?_
  rw [kvRun_opens hread, (kvTaken_busied p s).openCode, if_neg (not_not_intro hcode)]
  exact kvEnds_starts (kvOpen_coded p t _) fun u => kvOpen_effect (kvTaken_busied p s) h.own

/-! ### A stream in use -/

theorem KvPasses.budgets (h : KvPasses p t s) (hread : EntryRead p t s) (hs : kvState s p t ≠ 0) :
    NextIs (exec (.kvsCmdSetBudget p t) s) (KvStarts p 5 t (kvArg s p) s (kvPut p t 8 4 (kvArg s p) (kvBusied p s, none)) fun u =>
      MemHolds [(kvEntry s p t + 8, toLE 4 (kvArg s p))] s u) := by
  refine h.runs (y := (5, .kvsCmdSetBudget p t)) (by simp [kvCmds]) ?_
  rw [kvRun_budgets hread (kvState_busied.trans_ne hs)]
  exact kvEnds_starts (kvPut_coded p t 8 4 (kvArg s p) (kvBusied p s)) fun u =>
    kvPut_effect (kvTaken_busied p s) h.own (by decide) (by decide)

theorem KvPasses.unparks (h : KvPasses p t s) (hread : EntryRead p t s) (hs : kvState s p t = 2) :
    NextIs (exec (.kvsCmdUnpark p t) s) (KvStarts p 3 t (kvArg s p) s (kvPut p t 0 1 1 (kvBusied p s, none)) fun u =>
      MemHolds [(kvEntry s p t, [1])] s u) := by
  refine h.runs (y := (3, .kvsCmdUnpark p t)) (by simp [kvCmds]) ?_
  rw [kvRun_unparks hread (kvState_busied.trans hs)]
  refine kvEnds_starts (kvPut_coded p t 0 1 1 (kvBusied p s)) fun u hnone hu => ?_
  have hput : MemHolds [(kvEntry s p t + 0, toLE 1 1)] s u :=
    kvPut_effect (kvTaken_busied p s) h.own (by decide) (by decide) hnone hu
  exact hput

theorem KvPasses.unparked (h : KvPasses p t s) (hread : EntryRead p t s) (hs : kvState s p t ≠ 0) (hp : kvState s p t ≠ 2) :
    NextIs (exec (.kvsCmdUnpark p t) s) (KvOnly p 0 s) := by
  refine h.runs (y := (3, .kvsCmdUnpark p t)) (by simp [kvCmds]) ?_
  rw [kvRun_unparked hread (kvState_busied.trans_ne hs) (kvState_busied.trans_ne hp)]
  exact kvOnly_refused (by decide) s

/-- CLOSE and TRIM wait while the stream is referenced (R174). -/
theorem KvPasses.waits (h : KvPasses p t s) (hread : EntryRead p t s) (hs : kvState s p t ≠ 0)
    (href : kvReferenced s p t = true) {y : Nat × Instr} (hy : y ∈ kvCmds p t) (hop : y.1 = 2 ∨ y.1 = 4) :
    NextIs (exec y.2 s) fun u => u.bus = (0, 0) ∧ rg u (pgKvs p) Fld.KVS_CMD_STAT_BUSY = 1 ∧
      KvWaits p y.1 t (kvArg s p) s u := by
  refine h.runs hy ?_
  rw [kvRun_waits hread hop (kvState_busied.trans_ne hs) (((kvTaken_busied p s).referenced t).trans href)]
  exact ⟨answerOk_bus _, (rg_answerOk ..).trans (rg_kvWait_busy ..), kvWait_waits (kvTaken_busied p s) (shows_answerOk _)⟩

theorem KvPasses.closes (h : KvPasses p t s) (hread : EntryRead p t s) (hs : kvState s p t ≠ 0)
    (href : kvReferenced s p t = false) :
    NextIs (exec (.kvsCmdClose p t) s) (KvStarts p 2 t (kvArg s p) s (kvClose p t (kvBusied p s)) (KvClosed p t s)) := by
  refine h.runs (y := (2, .kvsCmdClose p t)) (by simp [kvCmds]) ?_
  rw [kvRun_closes hread (kvState_busied.trans_ne hs) (((kvTaken_busied p s).referenced t).trans href)]
  exact kvEnds_starts (kvClose_coded p t _) fun u => kvClose_effect (kvTaken_busied p s) h.own

theorem KvPasses.trims (h : KvPasses p t s) (hread : EntryRead p t s) (hs : kvState s p t ≠ 0)
    (href : kvReferenced s p t = false) :
    NextIs (exec (.kvsCmdTrim p t) s)
      (KvStarts p 4 t (kvArg s p) s (kvTrim p t (kvArg s p) (kvBusied p s)) (PoolFreed p s)) := by
  refine h.runs (y := (4, .kvsCmdTrim p t)) (by simp [kvCmds]) ?_
  rw [kvRun_trims hread (kvState_busied.trans_ne hs) (((kvTaken_busied p s).referenced t).trans href)]
  exact kvEnds_starts (kvTrim_coded p t _ _) fun u _ => kvTrim_effect (kvTaken_busied p s)

/-! ### ADD_FRAMES (Table 7.13) -/

/-- The first frame that ADD_FRAMES adds. -/
def framesBase (s : State) (p : Nat) : Nat := kvArg s p + rg s (pgKvs p) Fld.KVS_CMD_ARG_HI % 65536 * 2 ^ 32

/-- How many frames ADD_FRAMES adds. -/
def framesCount (s : State) (p : Nat) : Nat :=
  if rg s (pgKvs p) Fld.KVS_CMD_ARG_HI / 65536 = 0 then 65536 else rg s (pgKvs p) Fld.KVS_CMD_ARG_HI / 65536

/-- The bytes of a frame. -/
def frameSize (s : State) (p : Nat) : Nat := 1024 * kvDH s p

/-- The frames that ADD_FRAMES adds. -/
def framesAdded (s : State) (p : Nat) : List Nat := (List.range (framesCount s p)).map fun i => framesBase s p + i * frameSize s p

/-- The frames have entered the free list of the partition. -/
def framesEntered (p : Nat) (s : State) : State :=
  inc (pgKvs p) Fld.KVS_FRAMES (framesCount s p)
    (setKv p { kv s p with free := (kv s p).free ++ framesAdded s p } (kvBusied p s))

/-- The checks of ADD_FRAMES. -/
def framesCode (s : State) (p : Nat) : Nat :=
  if ownStruct s p (framesBase s p) (framesCount s p * frameSize s p) = false then 0x20
  else if framesBase s p % 512 ≠ 0 then 0x12
  else if 2 ^ rg s (pgKvs p) Fld.KVS_GEOM_LOG2_FRAMES < rg s (pgKvs p) Fld.KVS_FRAMES + framesCount s p then 0x11 else 0

theorem kvCommand_addFrames (h : rg s (pgKvs p) Fld.KVS_CMD_STAT_BUSY ≠ 1) : kvCommand p 6 0 s =
    if framesCode s p ≠ 0 then kvResult p (framesCode s p) (kvBusied p s) else kvResult p 0 (framesEntered p s) := by
  have hv := kvTaken_busied p s
  have hframes : kvCommand p 6 0 s = kvAddFrames p (kvBusied p s) := (if_neg h).trans ((if_neg (by decide)).trans (if_pos rfl))
  have hpool : kv (kvBusied p s) p = kv s p := kv_of_reach (kvBusied_reach p s) (by decide) p
  have hcode (own : Bool) (base : Nat) (full : Bool) : chkCode { chkNone with
      violation := !own
      align := base % 512 != 0
      capacity := full } = if own = false then 0x20 else if base % 512 ≠ 0 then 0x12 else if full then 0x11 else 0 := by
    rw [chkCode_eq]
    simp [chkNone]
  rw [hframes, kvAddFrames]
  simp only [hcode, hv.page Fld.KVS_CMD_ARG_HI (by decide), hv.page Fld.KVS_CMD_ARG_LO (by decide),
    hv.page Fld.KVS_GEOM_LOG2_FRAMES (by decide), hv.page Fld.KVS_FRAMES (by decide), hv.page.dh, ownStruct_same hv.base, hpool,
    decide_eq_true_eq]
  rfl

theorem framesCode_lost (h : ownStruct s p (framesBase s p) (framesCount s p * frameSize s p) = false) : framesCode s p = 0x20 :=
  if_pos h

theorem framesCode_skew (h : ownStruct s p (framesBase s p) (framesCount s p * frameSize s p) = true)
    (hskew : framesBase s p % 512 ≠ 0) : framesCode s p = 0x12 := by
  rw [framesCode, if_neg (by simp [h]), if_pos hskew]

theorem framesCode_room (h : ownStruct s p (framesBase s p) (framesCount s p * frameSize s p) = true)
    (halign : framesBase s p % 512 = 0) : framesCode s p =
      if 2 ^ rg s (pgKvs p) Fld.KVS_GEOM_LOG2_FRAMES < rg s (pgKvs p) Fld.KVS_FRAMES + framesCount s p then 0x11 else 0 := by
  rw [framesCode, if_neg (by simp [h]), if_neg (not_not_intro halign)]

theorem framesEntered_page (p : Nat) (s : State) :
    kv (framesEntered p s) p = { kv s p with free := (kv s p).free ++ framesAdded s p } ∧ (framesEntered p s).mem = s.mem ∧
      CountsUp (pgKvs p) Fld.KVS_FRAMES (framesCount s p) s (framesEntered p s) := by
  have hv := kvTaken_busied p s
  refine ⟨?_, ?_, ?_⟩
  · rw [framesEntered, kv_of_kvs (inc_kvs ..), kv_setKv_same]
  · rw [framesEntered, inc_mem, setKv_mem, hv.mem]
  · exact (countsUp_inc (by decide) _ _).congr ((rg_of_regs (setKv_regs ..) _ _).trans (hv.page _ (by decide))) rfl

theorem addFrames_refused (hr : Ready s) (hp : p < 16) (h : rg s (pgKvs p) Fld.KVS_CMD_STAT_BUSY ≠ 1) {code : Nat}
    (hcode : framesCode s p = code) (hne : code ≠ 0) (hlt : code < 256) :
    NextIs (exec (.kvsCmdAddFrames p) s) (KvOnly p code s) := by
  refine ⟨_, exec_kvsCmdAddFrames hr hp, ?_⟩
  rw [kvCommand_addFrames h, hcode, if_pos hne]
  exact kvOnly_refused hlt s

theorem addFrames_adds (hr : Ready s) (hp : p < 16) (h : rg s (pgKvs p) Fld.KVS_CMD_STAT_BUSY ≠ 1) (hcode : framesCode s p = 0) :
    NextIs (exec (.kvsCmdAddFrames p) s) fun u => u.bus = (0, 0) ∧ KvDone p 0 u ∧ u.mem = s.mem ∧
      CountsUp (pgKvs p) Fld.KVS_FRAMES (framesCount s p) s u ∧
      kv u p = { kv s p with free := (kv s p).free ++ framesAdded s p } := by
  refine ⟨_, exec_kvsCmdAddFrames hr hp, ?_⟩
  rw [kvCommand_addFrames h, hcode, if_neg (not_not_intro rfl)]
  have hshows := shows_answerOk (kvResult p 0 (framesEntered p s))
  have hafter : KvAfter p (framesEntered p s) (answerOk (kvResult p 0 (framesEntered p s))) := hshows.after
  obtain ⟨hkv, hmem, hcount⟩ := framesEntered_page p s
  exact ⟨answerOk_bus _, hshows.done (kvResult_done (by decide) _), hafter.mem.trans hmem,
    hcount.congr rfl (hafter.page _ (by decide)), hafter.kv.trans hkv⟩

/-! ### A command that waited (R174) -/

theorem kvReleased_none (h : (kv s p).waiting = none) : kvReleased p s = s := by rw [kvReleased, h]

theorem kvReleased_runs {op k b : Nat} (h : (kv s p).waiting = some (op, k, b)) :
    kvReleased p s = kvRun p op k b (kvCleared p s) := by rw [kvReleased, h, kvCleared]

/-- A command that waited ends as its step on the tables does. -/
theorem released_ends {op k b : Nat} (hr : Running s) (hw : (kv s p).waiting = some (op, k, b)) {r : Try} {ok : State → Prop}
    (hrun : kvRun p op k b (kvCleared p s) = kvEnds p op k b (kvCleared p s) r) (hcoded : Coded r)
    (hok : ∀ u, r.2 = none → KvAfter p r.1 u → ok u) :
    NextIs (exec (.kvsCmdReleased p) s) (KvEnds p op k b s r ok) := by
  refine ⟨_, exec_kvsCmdReleased hr, ?_⟩
  rw [kvReleased_runs hw, hrun]
  exact kvEnds_ends (kvTaken_cleared p s) hcoded (shows_self _) (hok _)

end

/-- The list of the statement's commands, among those with their codes. -/
theorem mem_kvCmds {p t : Nat} {c : Instr}
    (hc : c ∈ [Instr.kvsCmdClose p t, .kvsCmdUnpark p t, .kvsCmdTrim p t, .kvsCmdSetBudget p t]) :
    ∃ op, (op, c) ∈ kvCmds p t ∧ op ≠ 1 := by
  simp only [List.mem_cons, List.not_mem_nil, or_false] at hc
  rcases hc with rfl | rfl | rfl | rfl
  · exact ⟨2, by simp [kvCmds], by decide⟩
  · exact ⟨3, by simp [kvCmds], by decide⟩
  · exact ⟨4, by simp [kvCmds], by decide⟩
  · exact ⟨5, by simp [kvCmds], by decide⟩

theorem kvBusy_ignored {p op t : Nat} {s : State} (hbusy : rg s (pgKvs p) Fld.KVS_CMD_STAT_BUSY = 1) :
    (answerOk (kvCommand p op t s)).bus = (0, 0) ∧ Only [.regs .kvs, .bus] s (answerOk (kvCommand p op t s)) ∧
      OnlyFields [(pgKvs p, Fld.KVS_CMD_STAT_IGNORED)] s (answerOk (kvCommand p op t s)) ∧
      rg (answerOk (kvCommand p op t s)) (pgKvs p) Fld.KVS_CMD_STAT_IGNORED = 1 := by
  rw [kvCommand_busy hbusy]
  exact ⟨answerOk_bus _, answerOk_only (st_reach (by simp) .rfl') (by decide),
    (onlyFields_st 1 s (by decide) (List.mem_singleton_self _)).answerOk,
    (rg_answerOk ..).trans (rg_st_same _ _ _ _ (by decide))⟩

/-! ### The cases of the statement -/

section
variable {p t : Nat} {s : State}

theorem kvBad_refuses (hr : Ready s) (hp : p < 16) (hidle : rg s (pgKvs p) Fld.KVS_CMD_STAT_BUSY ≠ 1) (hbad : kvBad s p t ≠ 0)
    {y : Nat × Instr} (hy : y ∈ kvCmds p t) : NextIs (exec y.2 s) (KvOnly p (kvBad s p t) s) := by
  refine ⟨_, exec_kvCmds hr hp hy, ?_⟩
  rw [kvCommand_idle hidle (kvCmds_op hy), if_pos hbad]
  exact kvOnly_refused (kvBad_lt s p t) s

/-- The list of every command on a stream, among those with their codes. -/
theorem mem_kvCmds_open {c : Instr}
    (hc : c ∈ [Instr.kvsCmdOpen p t, .kvsCmdClose p t, .kvsCmdUnpark p t, .kvsCmdTrim p t, .kvsCmdSetBudget p t]) :
    ∃ op, (op, c) ∈ kvCmds p t := by
  rcases List.mem_cons.mp hc with rfl | hc
  · exact ⟨1, by simp [kvCmds]⟩
  · obtain ⟨op, hop, -⟩ := mem_kvCmds hc
    exact ⟨op, hop⟩

theorem kvBusy_refuses (hr : Ready s) (hp : p < 16) (hbusy : rg s (pgKvs p) Fld.KVS_CMD_STAT_BUSY = 1) {c : Instr}
    (hc : c ∈ Instr.kvsCmdOpen p t :: .kvsCmdAddFrames p ::
      [Instr.kvsCmdClose p t, .kvsCmdUnpark p t, .kvsCmdTrim p t, .kvsCmdSetBudget p t]) :
    NextIs (exec c s) fun u => u.bus = (0, 0) ∧ Only [.regs .kvs, .bus] s u ∧
      OnlyFields [(pgKvs p, Fld.KVS_CMD_STAT_IGNORED)] s u ∧ rg u (pgKvs p) Fld.KVS_CMD_STAT_IGNORED = 1 := by
  rcases List.mem_cons.mp hc with rfl | hc
  · exact ⟨_, exec_kvCmds hr hp (p := p) (t := t) (y := (1, .kvsCmdOpen p t)) (by simp [kvCmds]), kvBusy_ignored hbusy⟩
  rcases List.mem_cons.mp hc with rfl | hc
  · exact ⟨_, exec_kvsCmdAddFrames hr hp, kvBusy_ignored hbusy⟩
  · obtain ⟨op, hop, -⟩ := mem_kvCmds hc
    exact ⟨_, exec_kvCmds hr hp hop, kvBusy_ignored hbusy⟩

/-- A command that waited on a stream that is still referenced goes on waiting. -/
theorem released_waits {op k b : Nat} (hr : Running s) (hw : (kv s p).waiting = some (op, k, b))
    (hread : (kvRead p k (kvCleared p s, none)).2 = none) (hs : kvState s p k ≠ 0) (hop : op = 2 ∨ op = 4)
    (href : kvReferenced s p k = true) : NextIs (exec (.kvsCmdReleased p) s) (KvWaits p op k b s) := by
  have hv := kvTaken_cleared p s
  refine ⟨_, exec_kvsCmdReleased hr, ?_⟩
  rw [kvReleased_runs hw, kvRun_waits hread hop ((hv.state k).trans_ne hs) ((hv.referenced k).trans href)]
  exact kvWait_waits hv (shows_self _)

end

/-- Settles O47: the commands by the state of their stream, each as a step on its tables. -/
theorem kvsCommands : Obligations.KvsCommands := by
  unfold Obligations.KvsCommands
  intro part t s hr hp pg a arg s1 x s2 done only waits ends starts freed closed ops all busy bad entry bs sig lost odd skew hi base n sz
  have hends : ends = fun op t arg => KvEnds part op t arg s := by
    funext op t arg ⟨v, o⟩ ok u
    cases o <;> rfl
  have hstarts : starts = fun op => KvStarts part op t arg s := by
    funext op r ok u
    exact congrArg (fun x => u.bus = (0, 0) ∧ x r ok u ∧ _) (congrFun (congrFun (congrFun hends op) t) arg)
  clear_value starts ends
  subst hstarts hends
  refine ⟨fun hbusy c hc => kvBusy_refuses hr hp hbusy hc, fun hidle => ⟨?bad, ?stops, ?unused, ?used, ?alien, ?skewed, ?frames⟩,
    fun hempty => ?empty, fun op k b hw => ?released⟩
  case bad =>
    intro hbad c hc
    obtain ⟨op, hop⟩ := mem_kvCmds_open hc
    exact kvBad_refuses hr hp hidle hbad hop
  case stops => exact fun hgood hread y hy => (KvPasses.mk hr hp hidle hgood).stops hread hy
  case unused =>
    intro hgood hread hs
    have h : KvPasses part t s := ⟨hr, hp, hidle, hgood⟩
    refine ⟨fun c hc => ?_, fun hlost => ?_, fun hlost hodd => ?_, fun hlost hodd hskew => ?_, fun hlost hodd hskew => ?_⟩
    · obtain ⟨op, hop, hne⟩ := mem_kvCmds hc
      exact h.unused hread hs hop hne
    · exact h.openRefused hread (kvOpenCode_lost hs hlost) (by decide) (by decide)
    · exact h.openRefused hread (kvOpenCode_odd hs hlost hodd) (by decide) (by decide)
    · exact h.openRefused hread ((kvOpenCode_sound hs hlost hodd).trans (if_pos hskew)) (by decide) (by decide)
    · exact h.opens hread ((kvOpenCode_sound hs hlost hodd).trans (if_neg hskew))
  case used =>
    intro hgood hread hs
    have h : KvPasses part t s := ⟨hr, hp, hidle, hgood⟩
    refine ⟨h.openRefused hread (kvOpenCode_used hs) (by decide) (by decide), h.budgets hread hs, h.unparks hread,
      h.unparked hread hs, fun href y hy => ?_, fun href => ⟨h.closes hread hs href, h.trims hread hs href⟩⟩
    simp only [List.mem_cons, List.not_mem_nil, or_false] at hy
    rcases hy with rfl | rfl
    · exact h.waits hread hs href (y := (2, .kvsCmdClose part t)) (by simp [kvCmds]) (.inl rfl)
    · exact h.waits hread hs href (y := (4, .kvsCmdTrim part t)) (by simp [kvCmds]) (.inr rfl)
  case alien => exact fun hown => addFrames_refused hr hp hidle (framesCode_lost hown) (by decide) (by decide)
  case skewed => exact fun hown hskew => addFrames_refused hr hp hidle (framesCode_skew hown hskew) (by decide) (by decide)
  case frames =>
    intro hown halign
    refine ⟨fun hfull => ?_, fun hroom => ?_⟩
    · exact addFrames_refused hr hp hidle ((framesCode_room hown halign).trans (if_pos hfull)) (by decide) (by decide)
    · exact addFrames_adds hr hp hidle ((framesCode_room hown halign).trans (if_neg (Nat.not_lt.mpr hroom)))
  case empty => exact (exec_kvsCmdReleased hr.1).trans (congrArg Host.Outcome.next (kvReleased_none hempty))
  case released =>
    have hv : KvTaken part s s2 := kvTaken_cleared part s
    refine ⟨fun hread => released_ends hr.1 hw (kvRun_stops hread) (kvRead_coded part k s2) fun _ _ _ => trivial,
      fun hread hs hop href => released_waits hr.1 hw hread hs hop href, fun hread hs href => ⟨?_, ?_⟩⟩
    · rintro rfl hown
      exact released_ends hr.1 hw (kvRun_closes hread ((hv.state k).trans_ne hs) ((hv.referenced k).trans href))
        (kvClose_coded part k s2) fun u => kvClose_effect hv hown
    · rintro rfl
      exact released_ends hr.1 hw (kvRun_trims hread ((hv.state k).trans_ne hs) ((hv.referenced k).trans href))
        (kvTrim_coded part k b s2) fun u _ => kvTrim_effect hv

end Sys2Proof.Machine
end

section
/-!
PROOFS. Descriptors in flight that go on while none joins or leaves (R53, R160): held ACQUIREs that are served, and whose turn it is
among the KVAPPs of a partition.
-/
namespace Sys2Proof.Machine

/-! ### Descriptors that go on -/

/-- Each descriptor in flight has gone on as `P` says; none has joined, none has left. -/
def FlightsGo (P : Flight → Flight → Prop) (s t : State) : Prop :=
  ∃ u : Flight → Flight, (∀ x, P x (u x)) ∧ t.flights = s.flights.map u

/-- A descriptor that is no held ACQUIRE is as it was; such an ACQUIRE may have been served. -/
def ServedAs (f g : Flight) : Prop := Continues f g ∧ (f.work ≠ .acquire → g = f)

/-- Held ACQUIREs may have been served; the other descriptors in flight are as they were. -/
abbrev Served (s t : State) : Prop := FlightsGo ServedAs s t

section
variable {P : Flight → Flight → Prop} {s t u : State}

theorem FlightsGo.of_flights (hP : ∀ x, P x x) (h : t.flights = s.flights) : FlightsGo P s t :=
  ⟨id, hP, h.trans (List.map_id _).symm⟩

theorem FlightsGo.trans (hP : ∀ x y z, P x y → P y z → P x z) (h : FlightsGo P s t) (h' : FlightsGo P t u) : FlightsGo P s u := by
  obtain ⟨a, ha, ht⟩ := h
  obtain ⟨b, hb, hu⟩ := h'
  exact ⟨b ∘ a, fun x => hP _ _ _ (ha x) (hb _), by rw [hu, ht, List.map_map]⟩

theorem FlightsGo.mono {Q : Flight → Flight → Prop} (hPQ : ∀ x y, P x y → Q x y) (h : FlightsGo P s t) : FlightsGo Q s t :=
  let ⟨a, ha, ht⟩ := h
  ⟨a, fun x => hPQ _ _ (ha x), ht⟩

theorem flightsGo_updFlight (fid : Nat) {g : Flight → Flight} (hg : ∀ x, Grows x (g x)) (s : State) :
    FlightsGo Continues s (updFlight fid g s) := ⟨updOne fid g, continues_upd hg, updFlight_flights ..⟩

theorem Served.of_flights (h : t.flights = s.flights) : Served s t :=
  FlightsGo.of_flights (fun x => ⟨continues_rfl x, fun _ => rfl⟩) h

theorem Served.trans (h : Served s t) (h' : Served t u) : Served s u := by
  refine FlightsGo.trans (fun x y z hxy hyz => ⟨continues_trans hxy.1 hyz.1, fun hx => ?_⟩) h h'
  obtain rfl := hxy.2 hx
  exact hyz.2 hx

theorem Served.goes (h : Served s t) : FlightsGo Continues s t := h.mono fun _ _ hxy => hxy.1

theorem FlightsGo.flightOf (hP : ∀ x y, P x y → Continues x y) (h : FlightsGo P s t) {fid : Nat} {f : Flight}
    (hf : flightOf s fid = some f) : ∃ g, Machine.flightOf t fid = some g ∧ P f g := by
  obtain ⟨a, ha, ht⟩ := h
  have hfid : (fun x : Flight => x.fid == fid) ∘ a = fun x => x.fid == fid :=
    funext fun x => congrArg (· == fid) (continues_fid (hP _ _ (ha x)))
  refine ⟨a f, ?_, ha f⟩
  rw [Machine.flightOf, ht, List.find?_map, hfid]
  exact congrArg (Option.map a) hf

theorem Served.flightOf (h : Served s t) {fid : Nat} {f : Flight} (hf : flightOf s fid = some f) (hw : f.work ≠ .acquire) :
    Machine.flightOf t fid = some f := by
  obtain ⟨g, hg, -, hsame⟩ := FlightsGo.flightOf (fun _ _ hxy => hxy.1) h hf
  exact hg.trans (congrArg some (hsame hw))

end

/-! ### The held ACQUIREs of a token (R50, R53) -/

/-- A descriptor as `finish` leaves it (R11). -/
def finishing (code detail : Nat) (f : Flight) : Flight :=
  match f.result with
  | none => { f with result := some code, detail := detail }
  | some c => { f with result := some (codeMax c code), detail := if isF c || !isF code then f.detail else detail }

theorem finish_eq (fid code detail : Nat) (s : State) : finish fid code detail s = updFlight fid (finishing code detail) s := rfl

theorem finishing_work (code detail : Nat) (f : Flight) : (finishing code detail f).work = f.work := by
  unfold finishing
  split <;> rfl

theorem finishing_grows (code detail : Nat) (f : Flight) : Grows f (finishing code detail f) := by
  unfold finishing
  split <;> exact ⟨id, fun _ => nofun⟩

/-- A held ACQUIRE may change. -/
theorem served_updFlight {s : State} {fid : Nat} {g : Flight → Flight} (hg : ∀ x, Grows x (g x))
    (h : ∀ x ∈ s.flights, x.fid = fid → x.work = .acquire) : Served s (updFlight fid g s) := by
  refine ⟨fun x => if x.work = .acquire then updOne fid g x else x, fun x => ?goes, ?flights⟩
  case goes =>
    dsimp only
    split
    next hw => exact ⟨continues_upd hg x, fun hne => absurd hw hne⟩
    next => exact ⟨continues_rfl x, fun _ => rfl⟩
  case flights =>
    rw [updFlight_flights]
    refine List.map_congr_left fun x hx => ?_
    split
    next => rfl
    next hw => exact if_neg fun hfid => hw (h x hx hfid)

theorem updOne_work {fid : Nat} {g : Flight → Flight} (hg : ∀ x, (g x).work = x.work) (f : Flight) :
    (updOne fid g f).work = f.work := by
  unfold updOne
  split
  · exact hg f
  · rfl

theorem served_settleList {k : Nat} {l : List Flight} {s : State}
    (h : ∀ f ∈ l, ∀ x ∈ s.flights, x.fid = f.fid → x.work = .acquire) : Served s (settleList k l s) := by
  induction l generalizing s with
  | nil => exact .of_flights rfl
  | cons f l ih =>
    rw [settleList]
    split
    next =>
      have hset := setTok_flights k { tok s k with value := (tok s k).value - (tokenBody f).2 } s
      generalize setTok k _ s = u at hset ⊢
      rw [finish_eq]
      refine (Served.of_flights hset).trans ((served_updFlight (finishing_grows 0 0) ?head).trans (ih fun g hg x hx hfid => ?tail))
      case head =>
        rw [hset]
        exact h f List.mem_cons_self
      case tail =>
        rw [updFlight_flights, hset] at hx
        obtain ⟨y, hy, rfl⟩ := List.mem_map.mp hx
        rw [updOne_work (finishing_work 0 0)]
        exact h g (List.mem_cons_of_mem _ hg) y hy (updOne_fid .. ▸ hfid)
    next => exact .of_flights rfl

theorem fids_nodup {s : State} (hc : Canonical s) : (fids s).Nodup :=
  List.pairwise_map.mpr (hc.flights.1.imp Nat.ne_of_lt)

theorem served_settle {s : State} (hn : (fids s).Nodup) (k : Nat) : Served s (settle k s) := by
  refine served_settleList fun f hf x hx hfid => ?_
  obtain ⟨hmem, hheld⟩ := List.mem_filter.mp hf
  obtain rfl := List.inj_on_of_nodup_map hn hx hmem hfid
  simp only [Bool.and_eq_true, beq_iff_eq] at hheld
  exact hheld.1.1

/-! ### Whose turn it is (R160) -/

theorem Continues.bytes {f g : Flight} (h : Continues f g) : g.bytes = f.bytes := by
  have hbytes := congrArg Flight.bytes h.1
  exact hbytes

theorem Continues.queue {f g : Flight} (h : Continues f g) : g.q = f.q := by
  have hqueue := congrArg Flight.q h.1
  exact hqueue

/-- A KVAPP of queue `q` that is not finished. -/
def kvPending (q : Nat) (g : Flight) : Bool := g.q == q && dOp g.bytes == 0x05 && g.result.isNone

theorem kvTurn_eq_some {s : State} (hc : Canonical s) {fid : Nat} {f : Flight} :
    kvTurn s fid = some f ↔ flightOf s fid = some f ∧ dOp f.bytes = 5 ∧ f.result = none ∧
      s.flights.find? (kvPending f.q) = some f := by
  refine ⟨fun h => ?_, fun ⟨hf, hop, hr, hfirst⟩ => ?_⟩
  · obtain ⟨hf, hop, hr⟩ := kvTurn_some h
    refine ⟨hf, hop, hr, ?_⟩
    simp only [kvTurn, hf, hop, hr, ne_eq, not_true_eq_false, Option.isSome_none, Bool.false_eq_true, or_self, if_false] at h
    split at h
    next g hg =>
      split at h
      next hfid =>
        have hsame := flightOf_of_mem hc (List.mem_of_find?_eq_some hg)
        rw [hfid, hf] at hsame
        exact Option.some.inj hsame ▸ hg
      next => cases h
    next => cases h
  · have hfind : s.flights.find? (fun g => g.q == f.q && dOp g.bytes == 0x05 && g.result.isNone) = some f := hfirst
    simp only [kvTurn, hf, hop, hr, ne_eq, not_true_eq_false, Option.isSome_none, Bool.false_eq_true, or_self, if_false, hfind,
      (flightOf_mem hf).2, if_true]

/-- While the descriptors go on, a KVAPP whose turn it is keeps it until it is finished. -/
theorem kvTurn_goes {s t : State} (hs : Canonical s) (ht : Canonical t) (h : FlightsGo Continues s t) {fid : Nat} {f g : Flight}
    (hturn : kvTurn s fid = some f) (hg : flightOf t fid = some g) (hr : g.result = none) : kvTurn t fid = some g := by
  obtain ⟨hf, hop, -, hfirst⟩ := (kvTurn_eq_some hs).mp hturn
  obtain ⟨g', hg', hfg⟩ := h.flightOf (fun _ _ => id) hf
  obtain rfl : g = g' := Option.some.inj (hg.symm.trans hg')
  obtain ⟨a, ha, hflights⟩ := h
  refine (kvTurn_eq_some ht).mpr ⟨hg, by rw [hfg.bytes, hop], hr, ?_⟩
  obtain ⟨-, as, bs, hsplit, has⟩ := List.find?_eq_some_iff_append.mp hfirst
  have hat : a f = g := by
    have hmem : a f ∈ t.flights := hflights ▸ List.mem_map_of_mem (flightOf_mem hf).1
    have hfind := flightOf_of_mem ht hmem
    rw [continues_fid (ha f), (flightOf_mem hf).2, hg] at hfind
    exact (Option.some.inj hfind).symm
  rw [hfg.queue]
  refine List.find?_eq_some_iff_append.mpr ⟨by simp [kvPending, hfg.queue, hfg.bytes, hop, hr], as.map a, bs.map a, ?_, ?_⟩
  · rw [hflights, hsplit, List.map_append, List.map_cons, hat]
  · intro y hy
    obtain ⟨x, hx, rfl⟩ := List.mem_map.mp hy
    have hnot := has x hx
    have hdone := (ha x).2.2
    simp only [kvPending, (ha x).queue, (ha x).bytes] at hnot ⊢
    cases hres : x.result with
    | none => simp_all
    | some c =>
      have hsome := hdone (by rw [hres]; exact nofun)
      simp [Option.isNone_eq_false_iff.mpr (Option.isSome_iff_ne_none.mpr hsome)]

end Sys2Proof.Machine
end

section
/-!
PROOFS. The items of a KVAPP (R160 to R163): how an item ends, the descriptors that it leaves in flight, and the count of the positions
that it appends.
-/
namespace Sys2Proof.Machine

/-! ### Pages and rows (R160, R161) -/

/-- What the steps of an item keep: the page of KVS beside its working fields, and the descriptors in flight. -/
structure Paging (p : Nat) (s t : State) : Prop where
  page : PageKept p s t
  flights : t.flights = s.flights

namespace Paging

variable {p : Nat} {s t u : State}

theorem trans (h : Paging p s t) (h' : Paging p t u) : Paging p s u := ⟨h.page.trans h'.page, h'.flights.trans h.flights⟩

theorem of_reach {L : List Piece} (h : Reach L s t) (hr : Piece.regs .kvs ∉ L) (hf : Piece.flights ∉ L) : Paging p s t :=
  ⟨.of_reach h hr, h.frame .flights hf⟩

theorem inc {f : Fld} (hf : f ∈ kvWorking) (n : Nat) (s : State) : Paging p s (inc (pgKvs p) f n s) := ⟨.inc hf n s, inc_flights ..⟩

theorem setKv (k : Kvs) (s : State) : Paging p s (setKv p k s) := ⟨.of_regs (setKv_regs ..), setKv_flights ..⟩

end Paging

theorem TableSteps.paging {p : Nat} {r r' : Try} (h : TableSteps (Paging p) r r') : Paging p r.1 r'.1 :=
  h.state (fun s => ⟨.refl p s, rfl⟩) (fun _ _ _ => .trans) fun via q a bs s =>
    .of_reach (memPut_reaches via q a bs s) (by decide) (by decide)

theorem TableSteps.ofFreeing {p : Nat} {r r' x : Try} (h : TableSteps (Paging p) r r') (hx : TableSteps (Freeing p) r' x) :
    TableSteps (Paging p) r x :=
  h.trans (hx.mono fun _ _ hk => ⟨hk.page, hk.flights⟩)

section
variable {p t : Nat} {acq : List (Nat × Nat)} {r r' : Try}

theorem kvFrame_steps {x : Try × Nat} (h : TableSteps (Paging p) r r') (hx : kvFrame p t acq r' = some x) :
    TableSteps (Paging p) r x.1 := by
  have hlooks : TableSteps (Paging p) r
      (if kvScores r'.1 p t then kvLooks p t (List.range (kvLast r'.1 p t * kvH r'.1 p t)) r' else r') :=
    TableSteps.ite (h.ofFreeing (TableSteps.start.kvLooks t _)) h
  unfold kvFrame at hx
  dsimp only at hx
  split at hx
  next =>
    cases hx
    exact h.act (.setKv _ _)
  next =>
    split at hx
    next =>
      cases hx
      exact (hlooks.ofFreeing (TableSteps.start.kvDrop t _)).act (.inc (by decide) 1 _)
    next =>
      split at hx
      next =>
        cases hx
        exact (hlooks.ofFreeing (TableSteps.start.kvDrop _ _)).act (.inc (by decide) 1 _)
      next => cases hx

theorem kvNewPage_steps {e : Nat} {x : Try} (h : TableSteps (Paging p) r r') (hx : kvNewPage p t e acq r' = some x) :
    TableSteps (Paging p) r x := by
  unfold kvNewPage at hx
  split at hx
  next => cases hx
  next hframe =>
    have hentered (v held : Nat) := ((kvFrame_steps h hframe).kvLeafPut p t e v).kvPut p t 16 4 held
    cases hx
    exact TableSteps.ite (((hentered _ _).kvPut ..).act (.setKv _ _)) (hentered _ _)

/-- The pages acquired so far, where there are any, are steps on the tables. -/
def PagesSteps (p : Nat) (s : State) (x : Option (Try × List (Nat × Nat))) : Prop :=
  ∀ y, x = some y → TableSteps (Paging p) (s, none) y.1

theorem kvAcquire_steps {lp : Nat} {s : State} (h : kvAcquire p t lp s = some r) : TableSteps (Paging p) (s, none) r := by
  unfold kvAcquire at h
  obtain ⟨y, hfold, rfl⟩ := Option.map_eq_some_iff.mp h
  refine (List.foldlRecOn (motive := PagesSteps p s) _ _ ?start fun x hx i _ => ?step) y hfold
  case start =>
    rintro y ⟨⟩
    exact .start
  case step =>
    intro y hstep
    split at hstep
    next r0 acq0 =>
      split at hstep
      next hpage =>
        cases hstep
        exact kvNewPage_steps (hx _ rfl) hpage
      next => cases hstep
    next => cases hstep

end

/-- What appending the rows of an item does: steps on the tables, LENGTH, the count of positions, and the stream's token. -/
theorem kvAppend_steps {f : Flight} {n t count src : Nat} {r0 r : Try} (h : TableSteps (Paging f.q) r0 r) :
    ∃ (x : Try) (len sig : Nat), TableSteps (Paging f.q) r0 x ∧ (kvAppend f n t count src r).1 =
      tryDo (wh (bit 13 sig) fun s => settle (sig % 2 ^ 13) (tokAddV (sig % 2 ^ 13) 1 (some f.q) s))
        (tryDo (inc (pgKvs f.q) Fld.KVS_APPENDED count) (kvPut f.q t 12 4 len x)) := by
  refine ⟨_, _, _, ?_, rfl⟩
  refine TableSteps.act (TableSteps.foldl (fun _ _ hx => hx.write ..) _ (h.ofFreeing (TableSteps.start.kvLooks t _))) ?_
  refine .of_reach (L := [.stks]) (Reach.foldl (fun _ _ hx => ?_) .rfl') (by decide) (by decide)
  split
  · exact stkCount_reach (by decide) hx
  · exact hx

/-- An appending that no code stops counts its positions. -/
theorem kvAppend_counts {f : Flight} {n t count src : Nat} {s : State} {r : Try} (h : TableSteps (Paging f.q) (s, none) r)
    (hend : (kvAppend f n t count src r).1.2 = none) :
    CountsUp (pgKvs f.q) Fld.KVS_APPENDED count s (kvAppend f n t count src r).1.1 := by
  obtain ⟨x, len, sig, hx, hall⟩ := kvAppend_steps (n := n) (t := t) (count := count) (src := src) h
  rw [hall] at hend ⊢
  obtain ⟨hcounted, htoken⟩ := tryDo_ok hend
  obtain ⟨-, hcount⟩ := tryDo_ok hcounted
  have hrows := (hx.kvPut f.q t 12 4 len).paging.page
  have hsettled (u : State) : Reach [.regs .tok, .regs .ras, .regs .evr, .toks, .evr, .freeCtr, .flights] u
      (wh (bit 13 sig) (fun s => settle (sig % 2 ^ 13) (tokAddV (sig % 2 ^ 13) 1 (some f.q) s)) u) :=
    wh_reach (fun _ hr => settle_reach (by decide) (by decide) (tokAddV_reach (by decide) (by decide) (by decide) (by decide)
      (by decide) (by decide) hr)) .rfl'
  have hbeside : Piece.regs (pgKvs f.q).blk ∉
      [.regs .tok, .regs .ras, .regs .evr, .toks, .evr, .freeCtr, .flights] := fun hmem => by simp at hmem
  rw [htoken, hcount]
  exact (countsUp_inc (by decide) _ _).congr (hrows _ (by decide)) (rg_of_reach (pg := pgKvs f.q) (hsettled _) hbeside _)

theorem tryDo_flights {g : State → State} (hg : ∀ u, (g u).flights = u.flights) (r : Try) : (tryDo g r).1.flights = r.1.flights := by
  unfold tryDo
  split
  · rfl
  · exact hg _

theorem served_tryDo {g : State → State} {s : State} {r : Try} (hr : r.1.flights = s.flights) (hg : Served r.1 (g r.1)) :
    Served s (tryDo g r).1 := by
  have hs : Served s r.1 := .of_flights hr
  unfold tryDo
  split
  · exact hs
  · exact hs.trans hg

/-- Beside held ACQUIREs that the stream's token serves, an appending leaves the descriptors in flight. -/
theorem kvAppend_served {f : Flight} {n t count src : Nat} {s : State} {r : Try} (hn : (fids s).Nodup)
    (h : TableSteps (Paging f.q) (s, none) r) : Served s (kvAppend f n t count src r).1.1 := by
  obtain ⟨x, len, sig, hx, hall⟩ := kvAppend_steps (n := n) (t := t) (count := count) (src := src) h
  rw [hall]
  have hcounted : (tryDo (inc (pgKvs f.q) Fld.KVS_APPENDED count) (kvPut f.q t 12 4 len x)).1.flights = s.flights :=
    (tryDo_flights (inc_flights _ _ _) _).trans (hx.kvPut f.q t 12 4 len).paging.flights
  generalize tryDo (inc (pgKvs f.q) Fld.KVS_APPENDED count) (kvPut f.q t 12 4 len x) = y at hcounted ⊢
  refine served_tryDo hcounted ?_
  unfold wh
  split
  · have hadded := tokAddV_flights (sig % 2 ^ 13) 1 (some f.q) y.1
    refine (Served.of_flights hadded).trans (served_settle ?_ _)
    rwa [fids, hadded, hcounted]
  · exact .of_flights rfl

/-! ### How an item ends (R160) -/

theorem stopped_flights (e : Stop) (s : State) : (stopped e s).flights = s.flights := (stopped_only e s).frame .flights (by decide)

section
variable {f : Flight} {n t count src : Nat} {s : State} {r : Try}

theorem kvItemRows_served (hn : (fids s).Nodup) (h : TableSteps (Paging f.q) (s, none) r) :
    Served s (kvItemRows f n t count src s r).1 := by
  unfold kvItemRows kvEnd
  dsimp only
  split
  · exact .of_flights (stopped_flights ..)
  · exact kvAppend_served hn h

theorem kvItemRows_counts (h : TableSteps (Paging f.q) (s, none) r) (hend : (kvItemRows f n t count src s r).2.stop = none) :
    CountsUp (pgKvs f.q) Fld.KVS_APPENDED count s (kvItemRows f n t count src s r).1 := by
  unfold kvItemRows kvEnd at hend ⊢
  dsimp only at hend ⊢
  split at hend
  next => cases hend
  next hnone => exact hnone ▸ kvAppend_counts h hnone

theorem kvParked_flights (h : r.1.flights = s.flights) : (kvParked s r).1.flights = s.flights := by
  unfold kvParked
  split
  · exact stopped_flights ..
  · exact h

theorem kvPark_flights (p t : Nat) (s : State) : (kvPark p t s).1.flights = s.flights := by
  have hput : TableSteps (Paging p) (s, none) (kvPut p t 0 1 2 (s, none)) := TableSteps.start.kvPut ..
  unfold kvPark
  exact kvParked_flights ((tryDo_flights (inc_flights _ _ _) _).trans hput.paging.flights)

theorem kvParked_stops (s : State) (r : Try) : (kvParked s r).2.stop ≠ none := by
  unfold kvParked
  split <;> exact nofun

theorem kvPark_stops (p t : Nat) (s : State) : (kvPark p t s).2.stop ≠ none := by
  unfold kvPark
  exact kvParked_stops _ _

theorem kvItemRun_served (hn : (fids s).Nodup) : Served s (kvItemRun f n t count src s).1 := by
  unfold kvItemRun
  split
  · exact .of_flights rfl
  · split
    · split
      next hacquire => exact kvItemRows_served hn (kvAcquire_steps hacquire)
      next => exact .of_flights (kvPark_flights ..)
    · exact kvItemRows_served hn .start

theorem kvItemRun_counts (hend : (kvItemRun f n t count src s).2.stop = none) :
    CountsUp (pgKvs f.q) Fld.KVS_APPENDED count s (kvItemRun f n t count src s).1 := by
  revert hend
  unfold kvItemRun
  split
  · exact nofun
  · split
    · split
      next hacquire => exact kvItemRows_counts (kvAcquire_steps hacquire)
      next => exact fun hend => absurd hend (kvPark_stops _ _ _)
    · exact kvItemRows_counts .start

end

end Sys2Proof.Machine
end

section
/-!
PROOFS. The steps of a KVAPP (R158, R160, R164): an item by its entry of the list and its checks, and the item that KVS processes for the
KVAPP whose turn it is.
-/
namespace Sys2Proof.Machine

/-! ### An item by its entry (R160) -/

section
variable {f : Flight} {n : Nat} {s : State}

/-- The place of an item in the list. -/
def itemAt (f : Flight) (n : Nat) : Nat := dAddr f.bytes 16 + 16 * n

/-- The stream that an item names. -/
def itemStream (s : State) (f : Flight) (n : Nat) : Nat := mLE (snapOf s f) (itemAt f n) 2

/-- The COUNT of an item. -/
def itemCount (s : State) (f : Flight) (n : Nat) : Nat := mLE (snapOf s f) (itemAt f n + 2) 2

/-- The source of an item's rows. -/
def itemSrc (s : State) (f : Flight) (n : Nat) : Nat := mLE (snapOf s f) (itemAt f n + 8) 6

/-- The reserved fields of an item are 0. -/
def itemSound (s : State) (f : Flight) (n : Nat) : Bool :=
  mLE (snapOf s f) (itemAt f n + 4) 4 == 0 && mLE (snapOf s f) (itemAt f n + 14) 2 == 0

/-- The item's entry of the list is read without a stop. -/
def ItemListed (s : State) (f : Flight) (n : Nat) : Prop := (tryRead .beside f.q (itemAt f n) 16 (s, none)).2 = none

/-- The stream's entry is read without a stop, or the item ends with a code before it is. -/
def ItemEntered (s : State) (f : Flight) (n : Nat) : Prop :=
  itemSound s f n = false ∨ kvStreams s f.q ≤ itemStream s f n ∨
    (structRange s f.q (kvEntry s f.q (itemStream s f n)) 64 = true ∧ (kvRead f.q (itemStream s f n) (s, none)).2 = none)

theorem kvEntered_passes (hl : ItemListed s f n) (he : ItemEntered s f n) :
    (kvEntered f.q (itemStream s f n) (itemAt f n) (itemSound s f n) s).2 = none := by
  unfold kvEntered
  have hread : tryRead .beside f.q (itemAt f n) 16 (s, none) = (s, none) := Prod.ext (tryRead_fst ..) hl
  split
  next => exact hl
  next hno =>
    obtain hbad | hbeyond | ⟨hown, hentry⟩ := he
    · exact absurd (.inl (by rw [hbad]; rfl)) hno
    · exact absurd (.inr hbeyond) hno
    · rw [hread, hown]
      exact hentry

theorem kvItem_empty (hl : ItemListed s f n) (hc : itemCount s f n = 0) : kvItem f n s = (s, ⟨none, 0⟩) := by
  unfold kvItem
  dsimp only
  split
  next e he => exact absurd (he.symm.trans hl) nofun
  next => exact if_pos hc

theorem kvItem_checked {c : Nat} (hl : ItemListed s f n) (hc : itemCount s f n ≠ 0) (he : ItemEntered s f n)
    (hcheck : kvItemCheck s f (itemStream s f n) (itemCount s f n) (itemSrc s f n) (itemSound s f n) = some c) :
    kvItem f n s = kvRefuse c s := by
  unfold kvItem
  dsimp only
  split
  next e hstop => exact absurd (hstop.symm.trans hl) nofun
  next =>
    refine (if_neg hc).trans ?_
    split
    next e hstop => exact absurd (hstop.symm.trans (kvEntered_passes hl he)) nofun
    next =>
      split
      next c' hc' => exact congrArg (kvRefuse · s) (Option.some.inj (hc'.symm.trans hcheck))
      next hc' => exact absurd (hc'.symm.trans hcheck) nofun

theorem readAll_paging (via : Via) (q : Nat) (l : List (Nat × Nat)) (p : Nat) (s : State) : Paging p s (readAll via q l s).1 :=
  .of_reach (readAll_pieces via q l s) (by decide) (by decide)

/-- An item of some positions that ends without a code has run. -/
theorem kvItem_counts (hc : itemCount s f n ≠ 0) (hend : (kvItem f n s).2.stop = none) :
    CountsUp (pgKvs f.q) Fld.KVS_APPENDED (itemCount s f n) s (kvItem f n s).1 := by
  revert hend
  unfold kvItem
  dsimp only
  split
  next => exact nofun
  next =>
    split
    next hzero => exact absurd hzero hc
    next =>
      split
      next => exact nofun
      next =>
        split
        next => exact nofun
        next =>
          split
          next => exact nofun
          next => exact fun hend => (kvItemRun_counts hend).congr ((readAll_paging ..).page _ (by decide)) rfl

theorem kvItem_served (hn : (fids s).Nodup) : Served s (kvItem f n s).1 := by
  unfold kvItem
  dsimp only
  split
  next => exact .of_flights (stopped_flights ..)
  next =>
    split
    · exact .of_flights rfl
    · split
      next => exact .of_flights (stopped_flights ..)
      next =>
        split
        next => exact .of_flights rfl
        next =>
          have hread (l : List (Nat × Nat)) : (readAll .yard f.q l s).1.flights = s.flights := (readAll_paging _ _ _ f.q _).flights
          split
          next => exact .of_flights (hread _)
          next => exact (Served.of_flights (hread _)).trans (kvItemRun_served (by rwa [fids, hread]))

end

end Sys2Proof.Machine
end

section
/-!
PROOFS. The item that KVS processes for the KVAPP whose turn it is (R160, R164): what its step leaves, and that a KVAPP which runs to its
end goes on from there.
-/
namespace Sys2Proof.Machine

theorem exec_kvappItem {fid : Nat} {s : State} (h : Running s) : exec (.kvappItem fid) s = .next (kvStep fid s) :=
  congrArg Host.Outcome.next (wh_running h _)

theorem exec_kvapp {fid : Nat} {s : State} (h : Running s) : exec (.kvapp fid) s = .next (kvGo fid s) :=
  congrArg Host.Outcome.next (wh_running h _)

theorem running_of_reach {L : List Piece} {s t : State} (h : Reach L s t) (hL : Piece.pwr ∉ L) (hs : Running s) : Running t := by
  have hpwr : t.pwr = s.pwr := h.frame .pwr hL
  rwa [Running, hpwr]

theorem goes_trans {s t u : State} (h : FlightsGo Continues s t) (h' : FlightsGo Continues t u) : FlightsGo Continues s u :=
  h.trans (fun _ _ _ => continues_trans) h'

theorem goes_of_flights {s t : State} (h : t.flights = s.flights) : FlightsGo Continues s t := .of_flights continues_rfl h

/-- The code that a KVAPP ends with: that of its first failed item. -/
def KvWork.code (w : KvWork) : Nat :=
  match w.fail with
  | some x => x.2
  | none => 0

/-- What the end of an item changes beside memory, the pool and the tokens: registers, and the descriptors in flight. -/
def closePieces : List Piece := [.regs .kvs, .regs .ras, .regs .evr, .evr, .freeCtr, .flights]

section
variable {fid : Nat} {f g : Flight} {w : KvWork} {s : State}

/-! ### The end of an item (R164) -/

/-- The state in which a KVAPP that has handled its last item has its result. -/
def kvReported (f : Flight) (w : KvWork) (s : State) : State :=
  let s := wh w.ovf (raiseV (pgKvs f.q) 0x08 0x41 2 (some f.q) 1 0 (binLin 0)) s
  let s := wh (w.special != 0) (raiseV (pgKvs f.q) 0x0A 0 1 (some f.q) 0 w.special (binLog w.special)) s
  match w.fail with
  | some (i, c) => st (pgKvs f.q) Fld.KVS_LAST_FAIL (c * 65536 + i % 65536) s
  | none => s

theorem kvReported_reach (f : Flight) (w : KvWork) (s : State) :
    Reach [.regs .kvs, .regs .ras, .regs .evr, .evr, .freeCtr] s (kvReported f w s) := by
  have hraise (cls code detail aux val bin : Nat) (t : State) (h : Reach [.regs .kvs, .regs .ras, .regs .evr, .evr, .freeCtr] s t) :
      Reach [.regs .kvs, .regs .ras, .regs .evr, .evr, .freeCtr] s
        (raiseV (pgKvs f.q) cls code detail (some f.q) aux val bin t) :=
    raiseV_reach (by decide) (by decide) (by decide) (by decide) h
  have hraised := wh_reach (x0 := w.special != 0) (hraise 0x0A 0 1 0 w.special (binLog w.special))
    (wh_reach (x0 := w.ovf) (hraise 0x08 0x41 2 1 0 (binLin 0)) .rfl')
  unfold kvReported
  dsimp only
  split
  · exact st_reach (by simp) hraised
  · exact hraised

theorem kvClosed_eq (fid : Nat) (f : Flight) (w : KvWork) (s : State) :
    kvClosed fid f w s = if w.next < bF f.bytes 24 4 then s else finish fid w.code 0 (kvReported f w s) := by
  unfold kvClosed
  split
  · rfl
  · unfold KvWork.code kvReported
    cases w.fail <;> rfl

/-- A KVAPP after an item, as its descriptor shows it. -/
def kvShown (f g : Flight) (w : KvWork) : Flight :=
  if w.next < bF f.bytes 24 4 then { g with work := .kvapp w }
  else { g with work := .kvapp w, result := some w.code, detail := 0 }

theorem kvClosed_flight (hg : flightOf s fid = some g) (hr : g.result = none) :
    flightOf (kvClosed fid f w (reworked fid (.kvapp w) s)) fid = some (kvShown f g w) := by
  have hwork := flightOf_reworked hg (.kvapp w)
  rw [kvClosed_eq, kvShown]
  split
  · exact hwork
  · have hreported := flightOf_of_flights ((kvReported_reach f w (reworked fid (.kvapp w) s)).frame .flights (by decide)) fid
    exact finish_flight (hreported.trans hwork) hr w.code 0

theorem kvClosed_goes (fid : Nat) (f : Flight) (w : KvWork) (s : State) : FlightsGo Continues s (kvClosed fid f w s) := by
  rw [kvClosed_eq]
  split
  · exact goes_of_flights rfl
  · rw [finish_eq]
    exact goes_trans (goes_of_flights ((kvReported_reach f w s).frame .flights (by decide)))
      (flightsGo_updFlight fid (finishing_grows w.code 0) _)

theorem kvClosed_close (fid : Nat) (f : Flight) (w : KvWork) {a s : State} (h : Reach closePieces a s) :
    Reach closePieces a (kvClosed fid f w s) := by
  rw [kvClosed_eq]
  split
  · exact h
  · exact finish_reach (by decide) ((h.comp (kvReported_reach f w s)).mono (by decide))

/-! ### The item (R160) -/

theorem kvStarts_flight (hf : flightOf s fid = some f) : flightOf (kvStarts fid f s) fid = some (kvStarted f s) :=
  flightOf_updFlight_eq _ hf

theorem kvStarts_goes (fid : Nat) (f : Flight) (s : State) : FlightsGo Continues s (kvStarts fid f s) :=
  flightsGo_updFlight fid (g := fun g => { g with snap := some (snapOf s f) }) (fun _ => ⟨id, id⟩) s

theorem reworked_goes (fid : Nat) {w : Work} (hw : w ≠ .none) (s : State) : FlightsGo Continues s (reworked fid w s) :=
  flightsGo_updFlight fid (g := fun g => { g with work := w }) (fun _ => ⟨fun _ => hw, id⟩) s

theorem kvItemOf_served (hc : Canonical s) : Served (kvStarts fid f s) (kvItemOf fid f s).1 := by
  have hn : (fids (proceed fid (kvStarts fid f s))).Nodup := by
    rw [fids_of_reach (proceed_reach (L := [.retrain]) (by decide) .rfl') (by decide), kvStarts, fids_updFlight]
    exact fids_nodup hc
  have hproceed : (proceed fid (kvStarts fid f s)).flights = (kvStarts fid f s).flights :=
    (proceed_reach (L := [.retrain]) (by decide) .rfl').frame .flights (by decide)
  exact (Served.of_flights hproceed).trans (kvItem_served hn)

theorem kvCounted_close (fid : Nat) (f : Flight) (s : State) :
    Reach [.regs .ras, .regs .evr, .evr, .freeCtr] (kvItemOf fid f s).1 (kvCounted fid f s) :=
  wh_reach (fun _ h => countCode_reach (by decide) (by decide) (by decide) (by decide) h) .rfl'

theorem kvCounted_served (hc : Canonical s) : Served (kvStarts fid f s) (kvCounted fid f s) :=
  (kvItemOf_served hc).trans (.of_flights ((kvCounted_close fid f s).frame .flights (by decide)))

/-- A KVAPP whose turn it is, whose next item waits for nothing. -/
structure KvHandles (fid : Nat) (f : Flight) (s : State) : Prop where
  canon : Canonical s
  turn : kvTurn s fid = some f
  work : f.work ≠ .acquire
  free : mustWait (kvStarts fid f s) fid (kvRanges (kvStarts fid f s) (kvStarted f s) (kvWork f).next) [] = false
  unheld : (kvItemOf fid f s).2.stop.map (fun e => e.code) ≠ some heldMark

namespace KvHandles

variable (h : KvHandles fid f s)
include h

theorem step : kvStep fid s = kvClosed fid f ((kvWork f).after (kvItemOf fid f s).2)
    (reworked fid (.kvapp ((kvWork f).after (kvItemOf fid f s).2)) (kvCounted fid f s)) := kvStep_handles h.turn h.free h.unheld

theorem reach_item : Reach closePieces (kvItemOf fid f s).1 (kvStep fid s) := by
  rw [h.step]
  exact kvClosed_close _ _ _ (updFlight_reach (by decide) (fun _ => ⟨fun _ => nofun, id⟩)
    ((kvCounted_close fid f s).mono (by decide)))

theorem reach : Reach stationPieces s (kvStep fid s) := ((kvItemOf_reach fid f s).comp h.reach_item).mono (by decide)

theorem flight : flightOf (kvStep fid s) fid = some (kvShown f (kvStarted f s) ((kvWork f).after (kvItemOf fid f s).2)) := by
  obtain ⟨hf, -, hr⟩ := kvTurn_some h.turn
  rw [h.step]
  exact kvClosed_flight ((kvCounted_served h.canon).flightOf (kvStarts_flight hf) h.work) hr

theorem goes : FlightsGo Continues s (kvStep fid s) := by
  have hcounted : FlightsGo Continues s (kvCounted fid f s) := goes_trans (kvStarts_goes fid f s) (kvCounted_served h.canon).goes
  rw [h.step]
  exact goes_trans hcounted (goes_trans (reworked_goes fid (by simp) _) (kvClosed_goes ..))

/-- A KVAPP that runs to its end goes on after the item (R160). -/
theorem runs (hitems : (kvWork f).next < bF f.bytes 24 4) :
    kvGo fid s = if bF f.bytes 24 4 ≤ (kvWork f).next + 1 then kvStep fid s else kvGo fid (kvStep fid s) := by
  obtain ⟨k, hk⟩ : ∃ k, bF f.bytes 24 4 - (kvWork f).next = k + 1 := ⟨bF f.bytes 24 4 - (kvWork f).next - 1, by omega⟩
  have hgo : kvGo fid s = kvAll fid k (kvStep fid s) := by
    simp only [kvGo, h.turn, hk, kvAll]
  rw [hgo]
  split
  next hlast =>
    obtain rfl : k = 0 := by omega
    rfl
  next hmore =>
    have hshown : kvShown f (kvStarted f s) ((kvWork f).after (kvItemOf fid f s).2) =
        { kvStarted f s with work := .kvapp ((kvWork f).after (kvItemOf fid f s).2) } := if_pos (Nat.lt_of_not_le hmore)
    have hflight := h.flight
    rw [hshown] at hflight
    have hturn := kvTurn_goes h.canon (h.reach.canon h.canon) h.goes h.turn hflight (kvTurn_some h.turn).2.2
    have hnext : bF f.bytes 24 4 - ((kvWork f).next + 1) = k := by omega
    simp only [kvGo, hturn]
    exact congrArg (fun n => kvAll fid n (kvStep fid s)) hnext.symm

end KvHandles

end

end Sys2Proof.Machine
end

section
/-!
PROOFS. The capture of an ATTN and its sequences (R77, R168, R169): what the capture takes, what a sequence that no code stops leaves, and
that an ATTN which runs to its end goes on from there.
-/
namespace Sys2Proof.Machine

theorem exec_attnCapture {fid : Nat} {s : State} (h : Running s) : exec (.attnCapture fid) s = .next (attnCapture fid s) :=
  congrArg Host.Outcome.next (wh_running h _)

theorem exec_attnSequenceRun {fid : Nat} {s : State} (h : Running s) : exec (.attnSequenceRun fid) s = .next (attnStep fid s) :=
  congrArg Host.Outcome.next (wh_running h _)

theorem exec_attn {fid : Nat} {s : State} (h : Running s) : exec (.attn fid) s = .next (attnGo fid s) :=
  congrArg Host.Outcome.next (wh_running h _)

theorem scratchShut_of_parts {s t : State} (h : t.parts = s.parts) (p : Nat) : scratchShut t p = scratchShut s p := by
  simp only [scratchShut, partState, h]

section
variable {fid : Nat} {f g : Flight} {w v : AttnWork} {s t : State}

/-- An ATTN that goes on to work `v` without a result is one in progress. -/
theorem attnFlight_goes (h : attnFlight s fid = some (f, w)) (hparts : t.parts = s.parts) (hg : flightOf t fid = some g)
    (hbytes : g.bytes = f.bytes) (hq : g.q = f.q) (hr : g.result = none) (hw : g.work = .attn v) : attnFlight t fid = some (g, v) := by
  obtain ⟨-, hop, -, hopen⟩ := attnFlight_some h
  exact attnFlight_of_work hg (by rw [hbytes, hop]) hr (by rw [scratchShut_of_parts hparts, hq, hopen]) hw

/-! ### The capture (R168) -/

theorem attnCapture_captured (h : attnFlight s fid = some (f, w)) (hcap : w.captured = true) : attnCapture fid s = s := by
  simp only [attnCapture, h, hcap, if_true]

/-- The reads of the entries of all items. -/
def attnEntries (f : Flight) (s : State) : Try :=
  (List.range (atItems f.bytes)).foldl (fun r n => kvRead f.q (atItem f n).1 r) (s, none)

/-- The work of an ATTN that has captured its lengths, with every sequence left. -/
def AttnWork.capturing (w : AttnWork) (f : Flight) (s : State) : AttnWork :=
  { w with
    captured := true
    caps := (List.range (atItems f.bytes)).map fun n => kvLength s f.q (atItem f n).1
    left := List.range (atSeqs s f.q f.bytes f.cap.list) }

/-- The state in which an ATTN has captured its lengths and memory. -/
def attnCaptured (fid : Nat) (f : Flight) (w : AttnWork) (s : State) : State :=
  updFlight fid (fun g => { g with snap := some s.mem, work := .attn (w.capturing f s) }) s

theorem attnCapture_takes_all (h : attnFlight s fid = some (f, w)) (hcap : w.captured = false) (hread : (attnEntries f s).2 = none) :
    attnCapture fid s = attnCaptured fid f w s := by
  simp only [attnCapture, h, hcap, Bool.false_eq_true, if_false]
  split
  next e he => exact absurd (he.symm.trans hread) nofun
  next => rfl

theorem attnCaptured_reach (fid : Nat) (f : Flight) (w : AttnWork) (s : State) : Reach [.flights] s (attnCaptured fid f w s) :=
  updFlight_reach (by decide) (fun _ => ⟨fun _ => nofun, id⟩) .rfl'

theorem attnCaptured_flight (hf : flightOf s fid = some f) :
    flightOf (attnCaptured fid f w s) fid = some { f with snap := some s.mem, work := .attn (w.capturing f s) } :=
  flightOf_updFlight_eq _ hf

/-- An ATTN that runs to its end goes on after its capture. -/
theorem attnGo_capture (h : attnFlight s fid = some (f, w)) (hcap : w.captured = false) (hread : (attnEntries f s).2 = none) :
    attnGo fid s = attnGo fid (attnCaptured fid f w s) := by
  have hflight := attnCaptured_flight (w := w) (attnFlight_some h).1
  have hnext : attnFlight (attnCaptured fid f w s) fid = some (_, w.capturing f s) :=
    attnFlight_goes h (parts_of_reach (attnCaptured_reach fid f w s) (by decide)) hflight rfl rfl (attnFlight_some h).2.2.1 rfl
  rw [attnGo, attnGo, attnCapture_captured hnext rfl, attnCapture_takes_all h hcap hread]

/-! ### A sequence (R77, R169) -/

/-- The item and the head of a sequence. -/
def seqItem (s : State) (f : Flight) (seq : Nat) : Nat × Nat := atSeq s f.q f.cap.list (atItems f.bytes) 0 seq

/-- The key blocks of a sequence. -/
def seqBlocks (s : State) (f : Flight) (w : AttnWork) (seq : Nat) : List (Nat × Nat × List Nat) :=
  atBlocks s f w (seqItem s f seq).1 (seqItem s f seq).2

/-- The keys and the values of a sequence's blocks. -/
def seqBlockReads (s : State) (f : Flight) (w : AttnWork) (seq : Nat) : List (Nat × Nat) :=
  (seqBlocks s f w seq).flatMap fun y =>
    [(y.2.1 + 256 * kvDH s f.q * (y.2.2.headD 0 / 128), 256 * kvDH s f.q),
      (y.2.1 + 512 * kvDH s f.q + 256 * kvDH s f.q * (y.2.2.headD 0 / 128), 256 * kvDH s f.q)]

/-- What a sequence reads: its query rows, then the keys and the values of its blocks. -/
def seqReads (s : State) (f : Flight) (w : AttnWork) (seq : Nat) : List (Nat × Nat) :=
  ((List.range (atM f.bytes)).map fun i =>
    (bF f.cap.blk 0 6 + seq * bF f.cap.blk 32 6 + i * bF f.cap.blk 24 4, 2 * kvDH s f.q)) ++
  seqBlockReads s f w seq

/-- The output rows of a sequence. -/
def seqRows (s : State) (f : Flight) (w : AttnWork) (seq : Nat) : List (Nat × Nat) :=
  (List.range (atM f.bytes)).map fun i =>
    (bF f.cap.blk 8 6 + seq * bF f.cap.blk 40 6 + i * bF f.cap.blk 28 4, kvDH s f.q * fmtBytes w.ofmt)

/-- The looks at the stream's entry and at its pages. -/
def seqLooked (s : State) (f : Flight) (w : AttnWork) (seq : Nat) : Try :=
  kvLooks f.q (atItem f (seqItem s f seq).1).1
    ((atPages f w (seqItem s f seq).1).map fun lp => lp * kvH s f.q (atItem f (seqItem s f seq).1).1 + (seqItem s f seq).2)
    (kvRead f.q (atItem f (seqItem s f seq).1).1 (s, none))

/-- The reads of a sequence, once its requests proceed. -/
def seqRead (fid : Nat) (s : State) (f : Flight) (w : AttnWork) (seq : Nat) : State × Option Nat :=
  readAll .yard f.q (seqReads s f w seq) (proceed fid (seqLooked s f w seq).1)

/-- What a sequence gives. -/
def seqOut (s : State) (f : Flight) (w : AttnWork) (seq : Nat) : SeqOut :=
  attnSeq (snapOf s f) f w (kvDH s f.q) seq (seqBlocks s f w seq)

/-- The output of a sequence, as it is written. -/
def seqWrites (s : State) (f : Flight) (w : AttnWork) (seq : Nat) : List (Nat × List Byte) :=
  joinWrites ((seqOut s f w seq).els.map fun e => (e.1, toLE (fmtBytes w.ofmt) e.2.word))

/-- A sequence that runs, waits for nothing, meets no code and does not overflow. -/
structure SeqRuns (fid : Nat) (s : State) (f : Flight) (w : AttnWork) (seq : Nat) (rest : List Nat) (n : Nat) : Prop where
  flight : attnFlight s fid = some (f, w)
  captured : w.captured = true
  noOvf : w.ovf = false
  going : arraysStopped s = false
  left : w.left = seq :: rest
  placed : attnPlace s f seq (candidatesBy s f (bit 0 (bF f.bytes 30 2))) = some n
  free : mustWait s fid (seqReads s f w seq) (seqRows s f w seq) = false
  looked : (seqLooked s f w seq).2 = none
  read : (seqRead fid s f w seq).2 = none
  good : (seqOut s f w seq).bad = false
  fits : ((seqOut s f w seq).els.any fun e => e.2.overflow) = false
  written : (writeAll .yard f.q fid (seqWrites s f w seq) (seqRead fid s f w seq).1).2 = none

/-- The reads of a sequence's blocks are counted at their stacks. -/
def seqStacked (l : List (Nat × Nat)) (u : State) : State :=
  l.foldl (fun u y => match stacksOf y.1 y.2 with
    | k :: _ => stkCount k 4 y.2 u
    | [] => u) u

/-- The run of a sequence of `d` elements to a row is counted at its array. -/
def seqCounted (f : Flight) (seq n d : Nat) (bl : List (Nat × Nat × List Nat)) (u : State) : State :=
  if bl.isEmpty then u else
    let rows := 16 * ceilDiv (atM f.bytes) 16
    let pin := bit 0 (bF f.bytes 30 2)
    let best := attnPlace u f seq (idleArrays u f.q)
    let u := raisePoint n (countPin f pin (pinActs u f pin) best n (arrCount n 8 1 u))
    countRun n (bl.flatMap fun _ => [d, 128])
      (bl.foldl (fun u _ => countTile n (rows * d * 128) (countTile n (rows * 128 * d) u)) u)

/-- The pieces that the counts of a sequence can change. -/
def seqPieces : List Piece := [.regs .dsp, .regs .clk, .regs .ras, .regs .evr, .arrs, .stks, .evr, .freeCtr]

theorem seqStacked_reach (l : List (Nat × Nat)) {a u : State} (h : Reach seqPieces a u) : Reach seqPieces a (seqStacked l u) := by
  refine Reach.foldl (fun _ _ hx => ?_) h
  split
  · exact stkCount_reach (by decide) hx
  · exact hx

theorem seqCounted_reach (f : Flight) (seq n d : Nat) (bl : List (Nat × Nat × List Nat)) {a u : State} (h : Reach seqPieces a u) :
    Reach seqPieces a (seqCounted f seq n d bl u) := by
  unfold seqCounted
  dsimp only
  split
  · exact h
  · refine countRun_reach (by decide) (by decide) (Reach.foldl (fun _ _ hx => ?_) ?_)
    · exact countTile_reach (by decide) (countTile_reach (by decide) hx)
    · exact raisePoint_reach (by decide) (countPin_reach (by decide) (by decide) (by decide) (by decide) (by decide)
        (arrCount_reach (by decide) h))

/-- The state in which a sequence has read its inputs and counted its run. -/
def seqReady (fid : Nat) (s : State) (f : Flight) (w : AttnWork) (seq n : Nat) : State :=
  seqCounted f seq n (kvDH s f.q) (seqBlocks s f w seq) (seqStacked (seqBlockReads s f w seq) (seqRead fid s f w seq).1)

theorem seqReady_reach (fid : Nat) (s : State) (f : Flight) (w : AttnWork) (seq n : Nat) :
    Reach seqPieces (seqRead fid s f w seq).1 (seqReady fid s f w seq n) :=
  seqCounted_reach _ _ _ _ _ (seqStacked_reach _ .rfl')

/-- The writes of a sequence. -/
def seqWritten (fid : Nat) (s : State) (f : Flight) (w : AttnWork) (seq n : Nat) : State × Option Nat :=
  writeAll .yard f.q fid (seqWrites s f w seq) (seqReady fid s f w seq n)

/-- The counts do not change what the writes meet. -/
theorem seqWritten_passes {seq n : Nat} {rest : List Nat} (h : SeqRuns fid s f w seq rest n) : (seqWritten fid s f w seq n).2 = none :=
  (writeAll_access (access_of_reach (seqReady_reach ..) (by decide) (by decide)) _ _ _ _).1.trans h.written

/-- The state in which a sequence is done; after the last one the ATTN has its result. -/
def seqLeft (fid : Nat) (f : Flight) (v : AttnWork) (s : State) : State :=
  if v.left.isEmpty then attnDone f v (reworked fid (.attn v) s) else reworked fid (.attn v) s

/-- The work of an ATTN after a sequence on array `n`. -/
def AttnWork.after (w : AttnWork) (f : Flight) (d seq n : Nat) (rest : List Nat) (out : SeqOut) (bl : List (Nat × Nat × List Nat)) :
    AttnWork :=
  { w with
    left := rest
    hits := w.hits ++ out.hits.map (fun h => ((seq, h.1), h.2))
    special := tabAdd w.special n (out.els.filter fun e => e.2.special).length
    empty := w.empty + (if bl.isEmpty then atM f.bytes * d else 0) }

/-- The work of an ATTN after a sequence. -/
def seqWork (s : State) (f : Flight) (w : AttnWork) (seq n : Nat) (rest : List Nat) : AttnWork :=
  w.after f (kvDH s f.q) seq n rest (seqOut s f w seq) (seqBlocks s f w seq)

theorem attnStep_runs {seq n : Nat} {rest : List Nat} (h : SeqRuns fid s f w seq rest n) :
    attnStep fid s = seqLeft fid f (seqWork s f w seq n rest) (seqWritten fid s f w seq n).1 := by
  have hguard : ¬((!w.captured) = true ∨ w.ovf = true ∨ arraysStopped s = true) := by
    simp [h.captured, h.noOvf, h.going]
  have hwritten := seqWritten_passes h
  unfold attnStep
  simp only [h.flight]
  rw [if_neg hguard]
  simp only [h.left, List.headD_cons, h.placed]
  split
  next hwait => exact absurd (hwait.symm.trans h.free) nofun
  next =>
    split
    next e he => exact absurd (he.symm.trans h.looked) nofun
    next =>
      split
      next e he => exact absurd (he.symm.trans h.read) nofun
      next =>
        split
        next hbad => exact absurd (hbad.symm.trans h.good) nofun
        next =>
          split
          next hovf => exact absurd (hovf.symm.trans h.fits) nofun
          next =>
            split
            next e he => exact absurd (he.symm.trans hwritten) nofun
            next => rfl

/-- What a sequence leaves before its writes: memory and the descriptors in flight among other things. -/
theorem seqReady_only (fid : Nat) (s : State) (f : Flight) (w : AttnWork) (seq n : Nat) :
    Reach ([.regs .kvs, .lab, .freeCtr] ++ [.retrain] ++ readPieces ++ seqPieces) s (seqReady fid s f w seq n) := by
  have hlooked : Reach [.regs .kvs, .lab, .freeCtr] s (seqLooked s f w seq).1 :=
    (kvLooks_reach (by decide) (by decide) (by decide) (kvRead_reach (ReachP.pair_iff.mpr .rfl'))).out
  have hproceeds : Reach [.retrain] (seqLooked s f w seq).1 (proceed fid (seqLooked s f w seq).1) := proceed_reach (by decide) .rfl'
  have hread : Reach readPieces (proceed fid (seqLooked s f w seq).1) (seqRead fid s f w seq).1 := readAll_pieces ..
  exact ((hlooked.comp hproceeds).comp hread).comp (seqReady_reach fid s f w seq n)

/-- The pieces that a sequence can change. -/
def seqRunPieces : List Piece :=
  [.regs .kvs, .lab, .freeCtr] ++ [.retrain] ++ readPieces ++ seqPieces ++ memAccess

theorem seqWritten_only (fid : Nat) (s : State) (f : Flight) (w : AttnWork) (seq n : Nat) :
    Reach seqRunPieces s (seqWritten fid s f w seq n).1 := (seqReady_only fid s f w seq n).comp (writeAll_pieces ..)

theorem seqWritten_holds {seq n : Nat} {rest : List Nat} (h : SeqRuns fid s f w seq rest n) :
    MemHolds (seqWrites s f w seq) s (seqWritten fid s f w seq n).1 :=
  (writeAll_holds _ _ _ _ _ (seqWritten_passes h)).of_mem (mem_of_reach (seqReady_only ..) (by decide)) rfl

/-! ### The end of a sequence, and of a pass (R106, R169) -/

/-- The reports of an ATTN that ends. -/
def attnReported (f : Flight) (v : AttnWork) (t : State) : State :=
  let t := raiseArrays f.q 0x0A 1 v.special t
  let t := wh (v.empty != 0) (raiseV (pgKvs f.q) 0x0A 0 2 (some f.q) 0 v.empty (binLog v.empty)) t
  match v.first with
  | some pg => raiseV pg 0x08 0x40 (fmtCode v.ofmt) (some f.q) 0 v.pass (binLin v.pass) t
  | none => t

/-- The code of an ATTN that ends without overflow: OK, or OVERFLOW_REPLAYED after replays. -/
def AttnWork.code (v : AttnWork) : Nat := if v.pass = 0 then 0 else 0x40

theorem attnDone_eq (f : Flight) (v : AttnWork) (t : State) :
    attnDone f v t = finish f.fid v.code 0 (updFlight f.fid (fun f => { f with replays := v.pass }) (attnReported f v t)) := by
  unfold attnDone attnReported AttnWork.code
  cases v.first <;> rfl

theorem attnReported_flights (f : Flight) (v : AttnWork) (t : State) : (attnReported f v t).flights = t.flights := by
  have hraised : Reach [.regs .ras, .regs .evr, .evr, .freeCtr] t
      (wh (v.empty != 0) (raiseV (pgKvs f.q) 0x0A 0 2 (some f.q) 0 v.empty (binLog v.empty)) (raiseArrays f.q 0x0A 1 v.special t)) :=
    wh_reach (fun _ h => raiseV_reach (by decide) (by decide) (by decide) (by decide) h)
      (raiseArrays_reach (by decide) (by decide) (by decide) (by decide) .rfl')
  unfold attnReported
  dsimp only
  split
  · exact (raiseV_reach (by decide) (by decide) (by decide) (by decide) hraised).frame .flights (by decide)
  · exact hraised.frame .flights (by decide)

theorem attnDone_flight (hg : flightOf t f.fid = some g) (hr : g.result = none) :
    flightOf (attnDone f v t) f.fid = some { g with replays := v.pass, result := some v.code, detail := 0 } := by
  have hreported : flightOf (attnReported f v t) f.fid = some g := (flightOf_of_flights (attnReported_flights f v t) _).trans hg
  rw [attnDone_eq]
  exact finish_flight (flightOf_updFlight_eq _ hreported) hr v.code 0

/-- An ATTN after a sequence, as its descriptor shows it. -/
def seqShown (f : Flight) (v : AttnWork) : Flight :=
  if v.left.isEmpty then { f with work := .attn v, replays := v.pass, result := some v.code, detail := 0 }
  else { f with work := .attn v }

theorem seqLeft_flight (hf : flightOf t fid = some f) (hr : f.result = none) :
    flightOf (seqLeft fid f v t) fid = some (seqShown f v) := by
  have hwork := flightOf_reworked hf (.attn v)
  unfold seqLeft seqShown
  split
  · obtain rfl := (flightOf_mem hf).2
    exact attnDone_flight hwork hr
  · exact hwork

/-- The pieces that the end of a sequence can change beside its writes. -/
def seqEndPieces : List Piece := [.regs .ras, .regs .evr, .evr, .freeCtr, .flights]

theorem seqLeft_only (fid : Nat) (f : Flight) (v : AttnWork) (t : State) : Reach seqEndPieces t (seqLeft fid f v t) := by
  have hwork : Reach seqEndPieces t (reworked fid (.attn v) t) := updFlight_reach (by decide) (fun _ => ⟨fun _ => nofun, id⟩) .rfl'
  unfold seqLeft
  split
  · exact attnDone_reach (by decide) (by decide) (by decide) (by decide) (by decide) hwork
  · exact hwork

namespace SeqRuns

variable {seq n : Nat} {rest : List Nat} (h : SeqRuns fid s f w seq rest n)
include h

theorem reach : Reach (seqRunPieces ++ seqEndPieces) s (attnStep fid s) := by
  rw [attnStep_runs h]
  exact (seqWritten_only ..).comp (seqLeft_only ..)

theorem holds : MemHolds (seqWrites s f w seq) s (attnStep fid s) := by
  rw [attnStep_runs h]
  exact (seqWritten_holds h).of_mem rfl (mem_of_reach (seqLeft_only ..) (by decide))

theorem shown : flightOf (attnStep fid s) fid = some (seqShown f (seqWork s f w seq n rest)) := by
  obtain ⟨hf, -, hr, -⟩ := attnFlight_some h.flight
  rw [attnStep_runs h]
  exact seqLeft_flight ((flightOf_of_flights (flights_of_reach (seqWritten_only ..) (by decide)) fid).trans hf) hr

/-- An ATTN that runs to its end goes on after the sequence. -/
theorem goes : attnGo fid s = if rest = [] then attnStep fid s else attnGo fid (attnStep fid s) := by
  have hgo : attnGo fid s = attnAll fid rest.length (attnStep fid s) := by
    simp only [attnGo, attnCapture_captured h.flight h.captured, h.flight, h.left, List.length_cons, attnAll]
  rw [hgo]
  split
  next hlast =>
    subst hlast
    rfl
  next hmore =>
    obtain ⟨-, -, hr, -⟩ := attnFlight_some h.flight
    have hshown : seqShown f (seqWork s f w seq n rest) = { f with work := .attn (seqWork s f w seq n rest) } :=
      if_neg (by simpa [seqWork, AttnWork.after] using hmore)
    have hnext := attnFlight_goes h.flight (parts_of_reach h.reach (by decide)) h.shown (by rw [hshown]) (by rw [hshown])
      (by rw [hshown]; exact hr) (by rw [hshown])
    simp only [attnGo, attnCapture_captured hnext h.captured, hnext]
    rfl

end SeqRuns

end

end Sys2Proof.Machine
end

section
/-!
PROOFS. KVAPP and ATTN by their items and sequences (R158, R165): each step leaves what the statement says, and the whole command goes on
from where the step ends.
-/
namespace Sys2Proof.Machine

/-- What the step of an item leaves for the KVAPP: work with the item behind it, and a result after the last one. -/
theorem kvShown_progress {f g : Flight} {w : KvWork} (hfg : Continues f g) (hr : g.result = none) :
    Continues f (kvShown f g w) ∧ (kvShown f g w).work = .kvapp w ∧
      (kvShown f g w).result = if decide (bF f.bytes 24 4 ≤ w.next) then some w.code else none := by
  unfold kvShown
  split
  next hmore => exact ⟨continues_trans hfg ⟨rfl, fun _ => nofun, id⟩, rfl, by rw [hr, if_neg (by simpa using hmore)]⟩
  next hlast =>
    exact ⟨continues_trans hfg ⟨rfl, fun _ => nofun, fun _ => nofun⟩, rfl, (if_pos (by simpa using hlast)).symm⟩

theorem continues_kvStarted (f : Flight) (s : State) : Continues f (kvStarted f s) := ⟨rfl, id, id⟩

/-- What a sequence leaves for the ATTN: work with the sequence no longer left, and a result after the last one. -/
theorem seqShown_progress {f : Flight} {v : AttnWork} (hr : f.result = none) :
    Continues f (seqShown f v) ∧ (seqShown f v).work = .attn v ∧
      (seqShown f v).result = if v.left = [] then some v.code else none := by
  unfold seqShown
  split
  next hlast => exact ⟨⟨rfl, fun _ => nofun, fun _ => nofun⟩, rfl, (if_pos (List.isEmpty_iff.mp hlast)).symm⟩
  next hmore => exact ⟨⟨rfl, fun _ => nofun, id⟩, rfl, hr.trans (if_neg fun he => hmore (List.isEmpty_iff.mpr he)).symm⟩

/-- Settles O48: an item of KVAPP, the capture of ATTN and a sequence, each as its step leaves it. -/
theorem kvappItemsAndAttnSequences : Obligations.KvappItemsAndAttnSequences := by
  unfold Obligations.KvappItemsAndAttnSequences
  intro fid s hrun hc
  refine ⟨fun f hturn => ?item, fun f w hflight => ⟨fun hcap => ?captured, fun hcap hread => ?capture, ?sequence⟩⟩
  case item =>
    intro w m g s1 s2 at_ t count src resOk r code fail listed entry last
    have hfail : (w.after r.2).fail = fail := by
      clear_value r
      rfl
    refine ⟨fun hwork hwait hcode => ?step, fun hl hcount => ?empty, fun c hl hcount he hcheck => ?checked,
      fun hcount hend => ?counts⟩
    case empty => exact kvItem_empty (f := g) (n := w.next) (s := s2) hl hcount
    case checked => exact kvItem_checked (f := g) (n := w.next) (s := s2) hl hcount he hcheck
    case step =>
      have h : KvHandles fid f s := ⟨hc, hturn, by rcases hwork with e | ⟨v, e⟩ <;> rw [e] <;> exact nofun, hwait, hcode⟩
      obtain ⟨hcont, hkvapp, hresult⟩ :=
        kvShown_progress (w := w.after r.2) (continues_kvStarted f s) (kvTurn_some hturn).2.2
      refine ⟨_, exec_kvappItem hrun, mem_of_reach h.reach_item (by decide), h.reach_item.frame .kvs (by decide),
        toks_of_reach h.reach_item (by decide), ⟨_, h.flight, hcont, _, hkvapp, rfl, hfail, hresult⟩, fun hitems => ?_⟩
      rw [exec_kvapp hrun, h.runs hitems]
      by_cases hlast : bF f.bytes 24 4 ≤ (kvWork f).next + 1
      · rw [if_pos hlast, if_pos (decide_eq_true hlast)]
      · rw [if_neg hlast, if_neg (by simpa [last] using hlast), exec_kvapp (running_of_reach h.reach (by decide) hrun)]
    case counts =>
      have hregs : s2.regs = s.regs := updFlight_regs fid (fun h => { h with snap := some m }) s
      exact (kvItem_counts (f := g) (n := w.next) (s := s2) hcount hend).congr (rg_of_regs hregs ..) rfl
  case captured => exact (exec_attnCapture hrun).trans (congrArg _ (attnCapture_captured hflight hcap))
  case capture =>
    have hreach := attnCaptured_reach fid f w s
    refine ⟨_, (exec_attnCapture hrun).trans (congrArg _ (attnCapture_takes_all hflight hcap hread)), hreach.frame,
      ⟨_, attnCaptured_flight (attnFlight_some hflight).1, ⟨rfl, fun _ => nofun, id⟩, rfl, rfl⟩, ?_⟩
    rw [exec_attn hrun, exec_attn (running_of_reach hreach (by decide) hrun), attnGo_capture hflight hcap hread]
  case sequence =>
    intro seq n rest hcap hovf hgo hleft hplaced dh x t bl qr kr wr tr r out ws hwait hlooked hread hgood hfits hwritten
    have h : SeqRuns fid s f w seq rest n :=
      ⟨hflight, hcap, hovf, hgo, hleft, hplaced, hwait, hlooked, hread, hgood, hfits, hwritten⟩
    obtain ⟨hcont, hwork, hresult⟩ := seqShown_progress (v := seqWork s f w seq n rest) (attnFlight_some hflight).2.2.1
    refine ⟨_, exec_attnSequenceRun hrun, h.holds, ⟨_, _, h.shown, hcont, hwork, rfl, rfl, rfl, hresult⟩, ?_⟩
    rw [exec_attn hrun, h.goes]
    split
    next => rfl
    next => rw [exec_attn (running_of_reach h.reach (by decide) hrun)]

end Sys2Proof.Machine
end

section
/-!
PROOFS. Writes of a unit on its tables in memory (R220, R343, R371): the ownership that later accesses are checked against stays, and what
a write stores depends on memory and on the checks that it meets, and on nothing else.
-/
namespace Sys2Proof.Machine

/-! ### Ownership after a write -/

theorem base_blockWrite (l a : Nat) (bs : List Byte) (s : State) : BaseSame s (blockWrite l a bs s).1 :=
  base_of_reach (blockWrite_reach
    (L := [.regs .mem, .regs .lpd, .regs .mce, .regs .sec, .regs .ras, .regs .evr, .mem, .mce, .evr, .freeCtr])
    (by decide) (by decide) (by decide) (by decide) (by decide) (by decide) (by decide) (by decide) (by decide) (by decide)
    .rfl').out (by decide)

theorem base_poke (a : Nat) (bs : List Byte) (s : State) : BaseSame s (poke a bs s) :=
  base_of_reach (poke_reach (L := [.mem]) (by decide) .rfl') (by decide)

theorem base_writeLine (via : Via) (p fid l a : Nat) (bs : List Byte) (s : State) : BaseSame s (writeLine via p fid l a bs s).1 := by
  unfold writeLine
  split
  · exact .refl s
  · refine (access_writeState via p l (bs.length == 512) s).base.trans ?_
    dsimp only
    generalize (if via = .yard then yardWriteLine p l (bs.length == 512) s else yardKillLine l s) = y
    split
    · exact base_blockWrite ..
    · exact base_blockWrite ..
    · exact base_poke ..
    · split
      · split
        · exact (access_pageErr p 0x32 _ (some p) y).base
        · exact (base_poke ..).trans (access_leaseAccess ..).base
      · exact .refl y
    · exact .refl y

theorem base_memPut (via : Via) (p a : Nat) (bs : List Byte) (s : State) : BaseSame s (memPut via p a bs s) :=
  List.foldlRecOn (motive := fun r : State × Option Nat => BaseSame s r.1) _ _ (.refl s)
    fun _ hr _ _ => hr.trans (base_writeLine ..)

/-! ### What a write stores -/

/-- From memory `m`, an access stores all its bytes where it meets no code, and none where it meets one. -/
def StoresAll (m : List Host.Cell) (a : Nat) (bs : List Byte) (r : State × Option Nat) : Prop :=
  (r.2 = none → r.1.mem = putBytes memDefault m a bs) ∧ (r.2 ≠ none → r.1.mem = m)

theorem storesAll_stored {m : List Host.Cell} {a : Nat} {bs : List Byte} {t : State} (h : t.mem = putBytes memDefault m a bs) :
    StoresAll m a bs (t, none) := ⟨fun _ => h, fun hno => absurd rfl hno⟩

theorem storesAll_refused {m : List Host.Cell} {a c : Nat} {bs : List Byte} {t : State} (h : t.mem = m) :
    StoresAll m a bs (t, some c) := ⟨nofun, fun _ => h⟩

theorem blockWrite_stores (l a : Nat) (bs : List Byte) (s : State) : StoresAll s.mem a bs (blockWrite l a bs s) := by
  unfold blockWrite
  split
  · exact storesAll_refused (noteBlock_mem ..)
  · exact storesAll_stored ((freshen_reach (L := [.regs .mce, .mce]) (by decide) (by decide) Reach.rfl').frame .mem (by decide))

theorem writeLine_storesAll (via : Via) (p fid l a : Nat) (bs : List Byte) (s : State) :
    StoresAll s.mem a bs (writeLine via p fid l a bs s) := by
  unfold writeLine
  split
  next => exact storesAll_refused rfl
  next hstrange =>
    have hmem := yard_mem via p l (bs.length == 512) s
    have hleases := yard_leases via p l (bs.length == 512) s
    generalize (if via = .yard then yardWriteLine p l (bs.length == 512) s else yardKillLine l s) = y at hmem hleases
    have hlease (n : Nat) : leaseAt y n = leaseAt s n := by rw [leaseAt, hleases, leaseAt]
    dsimp only
    rw [← hmem]
    split
    next => exact blockWrite_stores l a bs y
    next => exact blockWrite_stores l a bs y
    next => exact storesAll_stored rfl
    next n hn =>
      split
      next =>
        split
        next => exact storesAll_refused ((pageErr_reach (L := [.regs .mem, .regs .ras, .regs .evr, .evr, .freeCtr]) (by decide)
            (by decide) (show Piece.regs .mem ∈ _ by decide) (by decide) (by decide) Reach.rfl').frame .mem (by decide))
        next => exact storesAll_stored ((leaseAccess_reach (L := [.accs, .nextTag, .ports]) (by decide) (by decide) (by decide)
            Reach.rfl').frame .mem (by decide))
      next hno => simp [strange, hn, (hlease n).symm.trans hno] at hstrange
    next hn => simp [strange, hn] at hstrange

/-- Accesses with the same outcome, from the same memory, leave the same memory. -/
theorem StoresAll.same {m : List Host.Cell} {a : Nat} {bs : List Byte} {r r' : State × Option Nat} (h : StoresAll m a bs r)
    (h' : StoresAll m a bs r') (hcode : r'.2 = r.2) : r'.1.mem = r.1.mem := by
  by_cases hr : r.2 = none
  · rw [h.1 hr, h'.1 (hcode.trans hr)]
  · rw [h.2 hr, h'.2 (hcode.trans_ne hr)]

section
variable {s t : State}

theorem memWrite_mem_same (h : AccessSame s t) (hm : t.mem = s.mem) (via : Via) (p fid a : Nat) (bs : List Byte) :
    (memWrite via p fid a bs t).1.mem = (memWrite via p fid a bs s).1.mem := by
  suffices hall : ∀ (l : List (Nat × Nat × Nat)) (x y : State × Option Nat), AccessSame x.1 y.1 → y.1.mem = x.1.mem →
      (l.foldl (fun r x => let y := writeLine via p fid x.1 x.2.1 ((bs.drop (x.2.1 - a)).take x.2.2) r.1; (y.1, r.2.or y.2)) y).1.mem =
        (l.foldl (fun r x => let y := writeLine via p fid x.1 x.2.1 ((bs.drop (x.2.1 - a)).take x.2.2) r.1; (y.1, r.2.or y.2)) x).1.mem
    from hall _ (s, none) (t, none) h hm
  intro l
  induction l with
  | nil => exact fun x y _ hxy => hxy
  | cons i l ih =>
    intro x y hx hxy
    obtain ⟨hcode, hafter⟩ := writeLine_access hx via p fid i.1 i.2.1 ((bs.drop (i.2.1 - a)).take i.2.2)
    refine ih _ _ hafter ?_
    dsimp only
    exact (writeLine_storesAll ..).same (hxy ▸ writeLine_storesAll ..) hcode

/-- Whether a check stops an access depends on what the accesses depend on, and on what is held. -/
theorem stopAt_none_same (h : AccessSame s t) (hh : HoldsSame s t) (via : Via) (w : Bool) (p a n : Nat) :
    stopAt t via w p a n = none ↔ stopAt s via w p a n = none := by
  have hheld (a n : Nat) : heldRange t a n = heldRange s a n := by rw [heldRange, hh.held, hh.zeroising, heldRange]
  have hblock (u : Nat) : blockCheck t w u = none ↔ blockCheck s w u = none := by
    rcases blockCheck_code h w u with ⟨d, e, c, ht, hs⟩ | ⟨ht, hs⟩ <;> simp [ht, hs]
  simp only [stopAt, List.findSome?_eq_none_iff, strange_same h.base, hheld, unitFailed_same h.base, h.base.fuse]
  refine forall₂_congr fun x _ => ?_
  split
  · rfl
  · split
    · rfl
    · split
      · split
        · rfl
        · simpa using hblock x.1
      · split
        · rfl
        · simpa using hblock x.1
      · rfl

theorem tryWrite_mem_same (h : AccessSame s t) (hh : HoldsSame s t) (hm : t.mem = s.mem) (via : Via) (p a : Nat) (bs : List Byte) :
    (tryWrite via p a bs (t, none)).1.mem = (tryWrite via p a bs (s, none)).1.mem := by
  have hstop := stopAt_none_same h hh via true p a bs.length
  unfold tryWrite
  dsimp only
  split
  next e he =>
    split
    next => exact hm
    next hs => exact absurd (he.symm.trans (hstop.mpr hs)) nofun
  next ht =>
    split
    next e he => exact absurd (he.symm.trans (hstop.mp ht)) nofun
    next => exact memWrite_mem_same h hm via p 0 a bs

end

/-! ### Writes into an entry of a table -/

theorem tryWrite_none {via : Via} {p a : Nat} {bs : List Byte} {r : Try} (h : (tryWrite via p a bs r).2 = none) :
    r.2 = none ∧ stopAt r.1 via true p a bs.length = none ∧ (tryWrite via p a bs r).1 = memPut via p a bs r.1 := by
  unfold tryWrite at h ⊢
  split at h
  next e he => exact absurd (he.symm.trans h) nofun
  next hr =>
    split at h
    next => cases h
    next hstop => exact ⟨hr, hstop, rfl⟩

/-- A write within an entry of 32 bytes that no check stops has stored its bytes and nothing else. -/
theorem tryWrite_entry {via : Via} {p b off : Nat} {bs : List Byte} {r : Try} (htier : ownTier b = true) (halign : b % 32 = 0)
    (hoff : off + bs.length ≤ 32) (hn : 0 < bs.length) (h : (tryWrite via p (b + off) bs r).2 = none) :
    r.2 = none ∧ MemHolds [(b + off, bs)] r.1 (tryWrite via p (b + off) bs r).1 := by
  obtain ⟨hr, hstop, hput⟩ := tryWrite_none h
  refine ⟨hr, hput ▸ memPut_holds (linesOf_one hn (by omega)) (by omega) hstop fun m hm => ?_⟩
  have hrange := regionOf_lease hm
  have hout := ownTier_not_leased htier
  omega

/-- A write leaves the bytes beside its range. -/
theorem tryWrite_beside {via : Via} {p a : Nat} {bs : List Byte} {x : Nat} (hx : x < a ∨ a + bs.length ≤ x) (r : Try) :
    rd1 (tryWrite via p a bs r).1 x = rd1 r.1 x := by
  unfold tryWrite
  split
  · rfl
  · split
    · rfl
    · exact (memWrite_rd1 via p 0 a bs r.1 x).1 hx

/-- A byte that is written last has its value, whatever was written to it before. -/
theorem MemHolds.rewritten {l : List (Nat × List Byte)} {s t t' u : State} {a : Nat} {y : Byte} (h : MemHolds l s t)
    (hbeside : ∀ x, x ≠ a → rd1 t' x = rd1 t x) (h' : MemHolds [(a, [y])] t' u) : MemHolds (l ++ [(a, [y])]) s u := fun x => by
  rw [h' x, writtenAt_append]
  by_cases hx : x = a
  · simp [writtenAt, hx]
  · have hout : writtenAt [(a, [y])] x = none := by
      simp [writtenAt]
      omega
    rw [hout, hbeside x hx, h x]
    rfl

end Sys2Proof.Machine
end

section
/-!
PROOFS. The streams of SCN (R184 to R187): the fields of the SCN page that its own steps write, the entry of a stream and its STATE,
and what the steps on the stream table and the copies between siding and slot leave.
-/
namespace Sys2Proof.Machine

/-! ### The SCN page (R184, R186) -/

/-- The fields of the SCN page that its own steps write: the status of a command, and counters. -/
def scnWorking : List Fld :=
  [Fld.SCN_CMD_STAT_CODE, Fld.SCN_CMD_STAT_BUSY, Fld.SCN_OPEN, Fld.SCN_SWAP_IN, Fld.SCN_SWAP_OUT, Fld.SCN_SWAP_WAIT,
    Fld.SCN_ADMIT_WAIT]

/-- The SCN page of a partition is the same beside the fields in `l`. -/
def ScnKept (l : List Fld) (p : Nat) (s t : State) : Prop := ∀ f, f.beside l = true → rg t (pgScn p) f = rg s (pgScn p) f

namespace ScnKept

variable {l m : List Fld} {p : Nat} {s t u : State}

theorem refl (l : List Fld) (p : Nat) (s : State) : ScnKept l p s s := fun _ _ => rfl

theorem trans (h : ScnKept l p s t) (h' : ScnKept l p t u) : ScnKept l p s u := fun f hf => (h' f hf).trans (h f hf)

theorem mono (h : ScnKept l p s t) (hl : ∀ f, f ∈ l → f ∈ m) : ScnKept m p s t := fun f hf => h f (by
  simp only [Fld.beside, Bool.and_eq_true, List.all_eq_true] at hf ⊢
  exact ⟨hf.1, fun g hg => hf.2 g (hl g hg)⟩)

theorem of_regs (h : t.regs = s.regs) : ScnKept l p s t := fun f _ => rg_of_regs h (pgScn p) f

theorem of_reach {L : List Piece} (h : Reach L s t) (hL : Piece.regs .scn ∉ L) : ScnKept l p s t :=
  fun f _ => rg_of_reach (pg := pgScn p) h hL f

theorem st {f : Fld} (hf : f ∈ l) (v : Nat) (s : State) : ScnKept l p s (st (pgScn p) f v s) :=
  fun _ hg => rg_st_beside hg hf (pgScn p) v s

theorem inc {f : Fld} (hf : f ∈ l) (n : Nat) (s : State) : ScnKept l p s (inc (pgScn p) f n s) := .st hf _ s

variable (h : ScnKept scnWorking p s t)
include h

theorem entry (k : Nat) : scEntry t p k = scEntry s p k := by rw [scEntry, h _ (by decide), h _ (by decide), scEntry]

theorem streams : scStreams t p = scStreams s p := by rw [scStreams, h _ (by decide), scStreams]

theorem heads : scH t p = scH s p := by rw [scH, h _ (by decide), scH]

theorem bytes : scSB t p = scSB s p := by
  rw [scSB, h.heads, scN, scP, h _ (by decide), h _ (by decide), scSB, scN, scP]

theorem image (k i : Nat) : scImage t p k i = scImage s p k i := by
  rw [scImage, h.bytes, h _ (by decide), h _ (by decide), scImage]

theorem scF (hm : t.mem = s.mem) (k off n : Nat) : scF t p k off n = scF s p k off n := by
  rw [Machine.scF, h.entry, rdLE, rdBytes_of_mem hm, ← rdLE, Machine.scF]

theorem state (hm : t.mem = s.mem) (k : Nat) : scState t p k = scState s p k := by rw [scState, h.scF hm, scState]

theorem siding (hm : t.mem = s.mem) (k : Nat) : scSiding t p k = scSiding s p k := by rw [scSiding, h.scF hm, scSiding]

theorem sidingOwned (hm : t.mem = s.mem) (hb : BaseSame s t) (k : Nat) : sidingOwned t p k = sidingOwned s p k := by
  simp only [Machine.sidingOwned, ownsRange, h.siding hm, h.bytes, ownsAt_same hb]

end ScnKept

/-! ### The recurrence state of a partition -/

theorem sc_of_scn {s t : State} (h : t.scn = s.scn) (p : Nat) : sc t p = sc s p := by rw [sc, h, sc]

theorem sc_of_reach {L : List Piece} {s t : State} (h : Reach L s t) (hL : Piece.scn ∉ L) (p : Nat) : sc t p = sc s p :=
  sc_of_scn (h.frame .scn hL) p

@[simp] theorem sc_setSc_same (p : Nat) (k : Scn) (s : State) : sc (setSc p k s) p = k := tabGet_tabSet_same ..

theorem setSc_only (p : Nat) (k : Scn) (s : State) : Reach [.scn] s (setSc p k s) := setSc_reach (by decide) .rfl'

/-! ### Steps on the stream table -/

namespace TableSteps

variable {r r' : Try}

theorem scRead {K : State → State → Prop} (h : TableSteps K r r') (p t : Nat) : TableSteps K r (scRead p t r') := h.read ..

theorem scPut {K : State → State → Prop} (h : TableSteps K r r') (via : Via) (p t off n v : Nat) :
    TableSteps K r (scPut via p t off n v r') := h.write ..

theorem scService (p t : Nat) (s : State) : BaseSame s (scService p t s) :=
  base_of_reach (scService_reach (L := [.stks]) (by decide) .rfl') (by decide)

theorem scStore (h : TableSteps BaseSame r r') (via : Via) (p t : Nat) : TableSteps BaseSame r (scStore via p t r') := by
  unfold Machine.scStore
  split
  · exact ((h.read ..).write ..).act (scService p t _)
  · exact h

theorem scLoad (h : TableSteps BaseSame r r') (p t : Nat) : TableSteps BaseSame r (scLoad p t r') := by
  unfold Machine.scLoad
  split
  · exact ((h.read ..).write ..).act (scService p t _)
  · exact h

/-- Steps on tables leave ownership. -/
theorem base (h : TableSteps BaseSame r r') : BaseSame r.1 r'.1 :=
  h.state .refl (fun _ _ _ => .trans) fun via p a bs s => base_memPut via p a bs s

end TableSteps

theorem scPut_only (via : Via) (p t off n v : Nat) (r : Try) : Reach memAccess r.1 (scPut via p t off n v r).1 :=
  (scPut_reach (by decide) (by decide) (by decide) (by decide) (by decide) (by decide) (by decide) (by decide) (by decide)
    (by decide) (by decide) (by decide) (by decide) (by decide) (by decide) ⟨.rfl'⟩).out

/-- What a copy between a siding and a slot can change. -/
def copyPieces : List Piece := .stks :: memAccess

theorem scStore_only (via : Via) (p t : Nat) (r : Try) : Reach copyPieces r.1 (scStore via p t r).1 :=
  (scStore_reach (by decide) (by decide) (by decide) (by decide) (by decide) (by decide) (by decide) (by decide) (by decide)
    (by decide) (by decide) (by decide) (by decide) (by decide) (by decide) (by decide) ⟨.rfl'⟩).out

theorem scLoad_only (p t : Nat) (r : Try) : Reach copyPieces r.1 (scLoad p t r).1 :=
  (scLoad_reach (by decide) (by decide) (by decide) (by decide) (by decide) (by decide) (by decide) (by decide) (by decide)
    (by decide) (by decide) (by decide) (by decide) (by decide) (by decide) (by decide) ⟨.rfl'⟩).out

theorem scRead_coded (p t : Nat) (s : State) : Coded (scRead p t (s, none)) :=
  (TableSteps.start (K := BaseSame)).scRead p t |>.coded (coded_start s)

/-! ### The entry of a stream (R186) -/

theorem scEntry_aligned (s : State) (p t : Nat) : scEntry s p t % 32 = 0 := by
  unfold scEntry
  omega

theorem scState_eq (s : State) (p t : Nat) : scState s p t = (rd1 s (scEntry s p t)).toNat % 8 := by
  simp [scState, scF, rdLE, rdBytes, ofLE]

section
variable {via : Via} {p t off n v : Nat} {r : Try}

theorem scPut_holds (htier : ownTier (scEntry r.1 p t) = true) (hoff : off + n ≤ 32) (hn : 0 < n)
    (h : (scPut via p t off n v r).2 = none) :
    r.2 = none ∧ MemHolds [(scEntry r.1 p t + off, toLE n v)] r.1 (scPut via p t off n v r).1 :=
  tryWrite_entry htier (scEntry_aligned r.1 p t) (by rwa [toLE_length]) (by rwa [toLE_length]) h

/-- STATE is the first byte of the entry. -/
theorem scPut_state_holds (htier : ownTier (scEntry r.1 p t) = true) (h : (scPut via p t 0 1 v r).2 = none) :
    r.2 = none ∧ MemHolds [(scEntry r.1 p t, toLE 1 v)] r.1 (scPut via p t 0 1 v r).1 := by
  simpa only [Nat.add_zero] using scPut_holds (off := 0) (n := 1) htier (by decide) (by decide) h

theorem scPut_kept (l : List Fld) (q : Nat) : ScnKept l q r.1 (scPut via p t off n v r).1 :=
  .of_reach (scPut_only ..) (by decide)

theorem scPut_state_beside {x : Nat} (hx : x ≠ scEntry r.1 p t) : rd1 (scPut via p t 0 1 v r).1 x = rd1 r.1 x :=
  tryWrite_beside (by rw [toLE_length]; omega) r

/-- A stream whose STATE has been written has it. -/
theorem scPut_state (hv : v < 8) (htier : ownTier (scEntry r.1 p t) = true) (h : (scPut via p t 0 1 v r).2 = none) :
    scState (scPut via p t 0 1 v r).1 p t = v := by
  rw [scState_eq, (scPut_kept scnWorking p).entry, (scPut_state_holds htier h).2]
  simp [writtenAt, toLE]
  omega

end

/-! ### Copies between siding and slot (R187) -/

theorem copyMem_holds {via : Via} {p src dst n : Nat} {r : Try} (h : (copyMem via p src dst n r).2 = none)
    (hw : (memWrite via p 0 dst (rdBytes r.1 src n) r.1).2 = none) :
    r.2 = none ∧ MemHolds [(dst, rdBytes r.1 src n)] r.1 (copyMem via p src dst n r).1 := by
  obtain ⟨hread, -, hput⟩ := tryWrite_none h
  have hr : r.2 = none := by
    unfold tryRead at hread
    split at hread
    next e he => exact absurd (he.symm.trans hread) nofun
    next hr => exact hr
  have hcopy : (copyMem via p src dst n r).1 = (memWrite via p 0 dst (rdBytes r.1 src n) r.1).1 := by
    refine hput.trans ?_
    rw [tryRead_fst, memPut]
  rw [hcopy]
  exact ⟨hr, writeAll_holds via p 0 [(dst, rdBytes r.1 src n)] r.1 hw⟩

theorem scService_mem (p t : Nat) (s : State) : (scService p t s).mem = s.mem :=
  (scService_reach (L := [.stks]) (by decide) Reach.rfl').frame .mem (by decide)

section
variable {p t : Nat} {y : ScnSlot} {r : Try}

theorem scStore_holds {via : Via} (hslot : scSlotOf r.1 p t = some y) (h : (scStore via p t r).2 = none)
    (hw : (memWrite via p 0 (scSiding r.1 p t) (rdBytes r.1 (scImage r.1 p y.slot y.cur) (scSB r.1 p)) r.1).2 = none) :
    MemHolds [(scSiding r.1 p t, rdBytes r.1 (scImage r.1 p y.slot y.cur) (scSB r.1 p))] r.1 (scStore via p t r).1 := by
  unfold scStore at h ⊢
  simp only [hslot] at h ⊢
  obtain ⟨hcopy, hdo⟩ := tryDo_ok h
  exact (copyMem_holds hcopy hw).2.of_mem rfl (by rw [hdo, scService_mem])

theorem scLoad_holds (hslot : scSlotOf r.1 p t = some y) (h : (scLoad p t r).2 = none)
    (hw : (memWrite .beside p 0 (scImage r.1 p y.slot y.cur) (rdBytes r.1 (scSiding r.1 p t) (scSB r.1 p)) r.1).2 = none) :
    MemHolds [(scImage r.1 p y.slot y.cur, rdBytes r.1 (scSiding r.1 p t) (scSB r.1 p))] r.1 (scLoad p t r).1 := by
  unfold scLoad at h ⊢
  simp only [hslot] at h ⊢
  obtain ⟨hcopy, hdo⟩ := tryDo_ok h
  exact (copyMem_holds hcopy hw).2.of_mem rfl (by rw [hdo, scService_mem])

end

/-! ### The end of a swap-out (R187, R193) -/

theorem itemDone_of_heads {s t : State} {f : Flight} (h : scH t f.q = scH s f.q) (w : ScanWork) (n : Nat) :
    itemDone t f w n = itemDone s f w n := by rw [itemDone, h, itemDone]

theorem scNeeded_same {s t : State} (hf : t.flights = s.flights) {p : Nat} (h : scH t p = scH s p) (k : Nat) :
    scNeeded t p k = scNeeded s p k := by
  unfold scNeeded
  rw [hf]
  refine List.any_congr rfl fun f => ?_
  by_cases hq : f.q = p
  · have hdone := itemDone_of_heads (f := f) (hq ▸ h)
    have hneeds : itemNeeds t f = itemNeeds s f := by
      funext w n
      simp only [itemNeeds, hdone, funext (hdone w)]
    simp only [scanNeeds, earlierScan, hf, hneeds]
  · simp only [beq_eq_false_iff_ne.mpr hq, Bool.false_and]

/-- The slots of a partition without that of a stream. -/
def slotsBut (t : Nat) (x : Scn) : Scn := { x with slots := x.slots.filter fun y => y.stream != t }

/-- The state in which a stream's slot is free. -/
def slotFreed (p t : Nat) (s : State) : State := setSc p (slotsBut t (sc s p)) s

theorem slotFreed_eq (p t : Nat) (s : State) :
    setSc p { sc s p with slots := (sc s p).slots.filter fun y => y.stream != t } s = slotFreed p t s := rfl

/-- A stream leaves its slot and becomes SIDED. -/
def slotLeft (via : Via) (p t : Nat) (s : State) : Try := scPut via p t 0 1 1 (slotFreed p t s, none)

section
variable (via : Via) (p t : Nat) (s : State)

theorem swapOutEnd_eq : swapOutEnd via p t s =
    wh (scState s p t == 3 && scNeeded s p t) (inc (pgScn p) Fld.SCN_SWAP_WAIT 1)
      (inc (pgScn p) Fld.SCN_SWAP_OUT 1 (slotLeft via p t s).1) := by
  unfold swapOutEnd slotLeft
  rw [← slotFreed_eq]

theorem slotFreed_only : Reach [.scn] s (slotFreed p t s) := setSc_only ..

theorem slotLeft_only : Reach (.scn :: memAccess) s (slotLeft via p t s).1 := by
  have hput := scPut_only via p t 0 1 1 (slotFreed p t s, none)
  unfold slotLeft
  exact ((slotFreed_only p t s).comp hput).mono (by decide)

theorem slotLeft_kept (l : List Fld) : ScnKept l p s (slotLeft via p t s).1 := .of_reach (slotLeft_only via p t s) (by decide)

theorem slotLeft_sc : sc (slotLeft via p t s).1 p = slotsBut t (sc s p) := by
  have hput := scPut_only via p t 0 1 1 (slotFreed p t s, none)
  unfold slotLeft
  rw [sc_of_reach hput (by decide) p, slotFreed, sc_setSc_same]

/-- Freeing the slot does not change what the write of STATE meets. -/
theorem slotLeft_mem : (slotLeft via p t s).1.mem = (scPut via p t 0 1 1 (s, none)).1.mem := by
  have hfreed := slotFreed_only p t s
  have hentry : scEntry (slotFreed p t s) p t = scEntry s p t := (ScnKept.of_reach hfreed (by decide)).entry t
  unfold slotLeft scPut
  dsimp only
  rw [hentry]
  exact tryWrite_mem_same (access_of_reach hfreed (by decide) (by decide)) (.of_reach hfreed (by decide))
    (mem_of_reach hfreed (by decide)) ..

theorem swapOutEnd_counts : Reach [.regs .scn] (slotLeft via p t s).1 (swapOutEnd via p t s) := by
  rw [swapOutEnd_eq]
  exact wh_reach (fun _ h => inc_reach (by simp) h) (inc_reach (by simp) .rfl')

theorem swapOutEnd_only : Reach (.regs .scn :: .scn :: memAccess) s (swapOutEnd via p t s) :=
  ((slotLeft_only via p t s).comp (swapOutEnd_counts via p t s)).mono (by decide)

theorem swapOutEnd_sc : sc (swapOutEnd via p t s) p = slotsBut t (sc s p) :=
  (sc_of_reach (swapOutEnd_counts via p t s) (by decide) p).trans (slotLeft_sc ..)

theorem swapOutEnd_mem : (swapOutEnd via p t s).mem = (scPut via p t 0 1 1 (s, none)).1.mem :=
  (mem_of_reach (swapOutEnd_counts via p t s) (by decide)).trans (slotLeft_mem ..)

theorem swapOutEnd_kept : ScnKept [Fld.SCN_SWAP_OUT, Fld.SCN_SWAP_WAIT] p s (swapOutEnd via p t s) := by
  have hout : ScnKept [Fld.SCN_SWAP_OUT, Fld.SCN_SWAP_WAIT] p (slotLeft via p t s).1 _ := .inc (f := Fld.SCN_SWAP_OUT) (by decide) 1 _
  rw [swapOutEnd_eq]
  refine (slotLeft_kept via p t s _).trans (hout.trans ?_)
  unfold wh
  split
  · exact .inc (by decide) 1 _
  · exact .refl _ p _

theorem swapOutEnd_base : BaseSame s (swapOutEnd via p t s) := by
  have hput := ((TableSteps.start (r := (slotFreed p t s, none))).scPut via p t 0 1 1).base
  have hleft : BaseSame (slotFreed p t s) (slotLeft via p t s).1 := by
    unfold slotLeft
    exact hput
  exact ((base_of_reach (slotFreed_only p t s) (by decide)).trans hleft).trans
    (base_of_reach (swapOutEnd_counts via p t s) (by decide))

theorem swapOutEnd_countsOut : CountsUp (pgScn p) Fld.SCN_SWAP_OUT 1 s (swapOutEnd via p t s) := by
  have hcount := (countsUp_inc (f := Fld.SCN_SWAP_OUT) (by decide) 1 (slotLeft via p t s).1).congr
    (slotLeft_kept via p t s [] _ (by decide)) rfl
  rw [swapOutEnd_eq, wh]
  split
  · exact hcount.congr rfl (rg_st_beside (l := [Fld.SCN_SWAP_WAIT]) (by decide) (by decide) ..)
  · exact hcount

theorem swapOutEnd_countsWait :
    CountsUp (pgScn p) Fld.SCN_SWAP_WAIT (if scState s p t == 3 && scNeeded s p t then 1 else 0) s (swapOutEnd via p t s) := by
  have hout : rg (inc (pgScn p) Fld.SCN_SWAP_OUT 1 (slotLeft via p t s).1) (pgScn p) Fld.SCN_SWAP_WAIT =
      rg s (pgScn p) Fld.SCN_SWAP_WAIT :=
    (rg_st_beside (l := [Fld.SCN_SWAP_OUT]) (by decide) (by decide) ..).trans (slotLeft_kept via p t s [] _ (by decide))
  rw [swapOutEnd_eq, wh]
  split
  · exact (countsUp_inc (by decide) 1 _).congr hout rfl
  · rw [CountsUp, hout]
    exact (Nat.mod_eq_of_lt (Nat.mod_lt _ (by decide))).symm

end

end Sys2Proof.Machine
end

section
/-!
PROOFS. The SCN commands (R199): the result, the wait and the end of a command, and the command that its page takes up.
-/
namespace Sys2Proof.Machine

/-! ### The result of a command -/

/-- A command has ended with a code. -/
def ScEnded (p code : Nat) (u : State) : Prop :=
  rg u (pgScn p) Fld.SCN_CMD_STAT_CODE = code ∧ rg u (pgScn p) Fld.SCN_CMD_STAT_BUSY = 0

/-- The fields that hold how a command stands. -/
def scnStatus : List Fld := [Fld.SCN_CMD_STAT_CODE, Fld.SCN_CMD_STAT_BUSY]

/-- The status fields with their page. -/
def scnStatusAt (p : Nat) : List (Page × Fld) := [(pgScn p, Fld.SCN_CMD_STAT_CODE), (pgScn p, Fld.SCN_CMD_STAT_BUSY)]

theorem scnResult_only (p code : Nat) (s : State) : Reach [.regs .scn] s (scnResult p code s) := scnResult_reach (by decide) .rfl'

theorem scnResult_ended {p code : Nat} (h : code < 256) (s : State) : ScEnded p code (scnResult p code s) := by
  refine ⟨?_, ?_⟩
  · rw [scnResult, rg_st_same _ _ _ _ (by decide)]
    exact Nat.mod_eq_of_lt h
  · rw [scnResult, rg_st_beside (l := [Fld.SCN_CMD_STAT_CODE]) (by decide) (by decide), rg_st_same _ _ _ _ (by decide)]
    rfl

theorem scnResult_kept (p code : Nat) (s : State) : ScnKept scnStatus p s (scnResult p code s) :=
  (ScnKept.st (by decide) 0 s).trans (.st (by decide) code _)

theorem scnResult_onlyFields (p code : Nat) (s : State) : OnlyFields (scnStatusAt p) s (scnResult p code s) :=
  (onlyFields_st 0 s (by decide) (by simp [scnStatusAt])).trans (onlyFields_st code _ (by decide) (by simp [scnStatusAt]))

/-- The state in which a command is at work. -/
def scnBusied (p : Nat) (s : State) : State := st (pgScn p) Fld.SCN_CMD_STAT_BUSY 1 s

theorem scnBusied_reach (p : Nat) (s : State) : Reach [.regs .scn] s (scnBusied p s) := st_reach (List.mem_singleton_self _) .rfl'

theorem scnBusied_kept (p : Nat) (s : State) : ScnKept scnStatus p s (scnBusied p s) := .st (by decide) 1 s

theorem rg_scnBusied_busy (p : Nat) (s : State) : rg (scnBusied p s) (pgScn p) Fld.SCN_CMD_STAT_BUSY = 1 :=
  rg_st_same _ _ _ _ (by decide)

/-- A command has ended with a code, and left everything else as it was. -/
def ScOnly (p code : Nat) (s u : State) : Prop :=
  u.bus = (0, 0) ∧ ScEnded p code u ∧ Only [.regs .scn, .bus] s u ∧ OnlyFields (scnStatusAt p) s u

theorem scOnly_refused {p code : Nat} (h : code < 256) (s : State) :
    ScOnly p code s (answerOk (scnResult p code (scnBusied p s))) := by
  refine ⟨answerOk_bus _, ?_, answerOk_only ?_ (by decide), .answerOk ?_⟩
  · simpa only [ScEnded, rg_answerOk] using scnResult_ended h (scnBusied p s)
  · exact ((scnBusied_reach p s).comp (scnResult_only p code _)).mono (by decide)
  · exact (onlyFields_st 1 s (by decide) (by simp [scnStatusAt])).trans (scnResult_onlyFields p code _)

/-! ### How a command's step ends -/

/-- A command waits: memory is as it was, and the page's state but for the command that it holds. -/
def ScWaits (p op t : Nat) (s u : State) : Prop := u.mem = s.mem ∧ sc u p = { sc s p with waiting := some (op, t) }

/-- A command's step has ended as the step `r` on the tables did: with its effect, with a wait, or with a code that leaves memory and
the streams. -/
def ScEnds (p op t : Nat) (s : State) (r : Try) (ok : State → Prop) (u : State) : Prop :=
  match r.2 with
  | none => ScEnded p 0 u ∧ u.mem = r.1.mem ∧ sc u p = sc r.1 p ∧ ok u
  | some e => if e.code = heldMark then ScWaits p op t s u else ScEnded p e.code u ∧ u.mem = s.mem ∧
      sc u p = { sc s p with waiting := (sc u p).waiting }

/-- A state that shows the memory, the streams and the registers of another one. -/
structure ScShows (v u : State) : Prop where
  mem : u.mem = v.mem
  scn : u.scn = v.scn
  regs : u.regs = v.regs

theorem scShows_self (v : State) : ScShows v v := ⟨rfl, rfl, rfl⟩

theorem scShows_answerOk (v : State) : ScShows v (answerOk v) := ⟨rfl, rfl, answerOk_regs v⟩

theorem ScShows.ended {p code : Nat} {u v : State} (h : ScShows v u) (hd : ScEnded p code v) : ScEnded p code u := by
  simpa only [ScEnded, rg_of_regs h.regs] using hd

/-- State `v` is `s` once a command of the partition has been taken up: its status and what the page holds of a command may differ. -/
structure ScTaken (p : Nat) (s v : State) : Prop where
  reach : Reach [.regs .scn, .scn] s v
  kept : ScnKept scnStatus p s v
  rest : ∀ w, { sc v p with waiting := w } = { sc s p with waiting := w }

theorem scTaken_busied (p : Nat) (s : State) : ScTaken p s (scnBusied p s) :=
  ⟨(scnBusied_reach p s).mono (by decide), scnBusied_kept p s, fun w => by rw [sc_of_reach (scnBusied_reach p s) (by decide)]⟩

/-- The state in which the page holds no command. -/
def scnCleared (p : Nat) (s : State) : State := setSc p { sc s p with waiting := none } s

theorem scTaken_cleared (p : Nat) (s : State) : ScTaken p s (scnCleared p s) :=
  ⟨(setSc_only ..).mono (by decide), .of_regs (setSc_regs ..), fun w => by rw [scnCleared, sc_setSc_same]⟩

namespace ScTaken

variable {p : Nat} {s v : State} (h : ScTaken p s v)
include h

theorem mem : v.mem = s.mem := mem_of_reach h.reach (by decide)

theorem base : BaseSame s v := base_of_reach h.reach (by decide)

theorem page : ScnKept scnWorking p s v := h.kept.mono (by decide)

theorem state (t : Nat) : scState v p t = scState s p t := h.page.state h.mem t

theorem flights : v.flights = s.flights := flights_of_reach h.reach (by decide)

theorem quiet (t : Nat) : scQuiet v p t = scQuiet s p t := by
  rw [scQuiet, scReferenced, h.flights, h.state, scQuiet, scReferenced]

theorem sidingOwned (t : Nat) : sidingOwned v p t = sidingOwned s p t := h.page.sidingOwned h.mem h.base t

theorem slots : (sc v p).slots = (sc s p).slots := by
  have hslots := congrArg Scn.slots (h.rest none)
  exact hslots

theorem slotOf (t : Nat) : scSlotOf v p t = scSlotOf s p t := by rw [scSlotOf, h.slots, scSlotOf]

theorem openChk (t : Nat) : scnOpenChk v p t = scnOpenChk s p t := by
  have hpiece : sidingPiece v p = sidingPiece s p := funext fun y => by simp only [sidingPiece, ownsAt_same h.base]
  simp only [scnOpenChk, hpiece, h.page.entry, h.page.bytes, rdBytes_of_mem h.mem]

end ScTaken

theorem scnWait_waits {p op t : Nat} {s v u : State} (hv : ScTaken p s v) (hu : ScShows (scnWait p op t v) u) :
    ScWaits p op t s u := by
  refine ⟨hu.mem.trans ((setSc_mem ..).trans hv.mem), (sc_of_scn hu.scn p).trans ?_⟩
  rw [scnWait, sc_setSc_same, hv.rest]

/-- State `u` is `t` after the result of a command: memory and the streams are the same, and the page but for its status. -/
structure ScAfter (p : Nat) (t u : State) : Prop where
  mem : u.mem = t.mem
  scn : sc u p = sc t p
  kept : ScnKept scnStatus p t u

theorem ScShows.after {p code : Nat} {t u : State} (h : ScShows (scnResult p code t) u) : ScAfter p t u :=
  ⟨h.mem.trans (mem_of_reach (scnResult_only ..) (by decide)),
    (sc_of_scn h.scn p).trans (sc_of_reach (scnResult_only ..) (by decide) p), (scnResult_kept p code t).trans (.of_regs h.regs)⟩

/-- A command's step ends as its step on the tables did. -/
theorem scnEnds_ends {p op t : Nat} {s v u : State} {r : Try} {ok : State → Prop} (hv : ScTaken p s v) (hr : Coded r)
    (hu : ScShows (scnEnds p op t v r) u) (hok : r.2 = none → ScAfter p r.1 u → ok u) : ScEnds p op t s r ok u := by
  unfold ScEnds
  unfold scnEnds at hu
  split
  next hnone =>
    rw [hnone] at hu
    have hafter : ScAfter p r.1 u := ScShows.after hu
    exact ⟨hu.ended (scnResult_ended (by decide) _), hafter.mem, hafter.scn, hok hnone hafter⟩
  next e he =>
    rw [he] at hu
    dsimp only at hu
    split
    next hheld =>
      rw [if_pos hheld] at hu
      exact scnWait_waits hv hu
    next hheld =>
      rw [if_neg hheld] at hu
      have hstop := stopped_only e v
      have hafter : ScAfter p (stopped e v) u := ScShows.after hu
      refine ⟨hu.ended (scnResult_ended ((hr e he).resolve_right hheld) _),
        hafter.mem.trans ((mem_of_reach hstop (by decide)).trans hv.mem), ?_⟩
      rw [hafter.scn, sc_of_reach hstop (by decide) p]
      exact hv.rest _

/-- A command that its page took up has answered, and stays at work where it waits. -/
def ScStarts (p op t : Nat) (s : State) (r : Try) (ok : State → Prop) (u : State) : Prop :=
  u.bus = (0, 0) ∧ ScEnds p op t s r ok u ∧
    ∀ e, r.2 = some e → e.code = heldMark → rg u (pgScn p) Fld.SCN_CMD_STAT_BUSY = 1

theorem rg_scnWait_busy (p op t : Nat) (s : State) :
    rg (scnWait p op t (scnBusied p s)) (pgScn p) Fld.SCN_CMD_STAT_BUSY = 1 :=
  (rg_of_regs (setSc_regs ..) _ _).trans (rg_scnBusied_busy p s)

theorem scnEnds_starts {p op t : Nat} {s : State} {r : Try} {ok : State → Prop} (hr : Coded r)
    (hok : ∀ u, r.2 = none → ScAfter p r.1 u → ok u) :
    ScStarts p op t s r ok (answerOk (scnEnds p op t (scnBusied p s) r)) := by
  refine ⟨answerOk_bus _, scnEnds_ends (scTaken_busied p s) hr (scShows_answerOk _) (hok _), fun e he hheld => ?_⟩
  rw [rg_answerOk, scnEnds, he]
  dsimp only
  rw [if_pos hheld, rg_scnWait_busy]

end Sys2Proof.Machine
end

section
/-!
PROOFS. What the SCN commands do (R199, Table 8.11): the command that a page takes up, the checks of OPEN, and what each command
leaves of its stream's entry, of its siding and of its slot.
-/
namespace Sys2Proof.Machine

/-! ### The commands -/

/-- The commands on a stream, each with its code. -/
def scnCmds (p t : Nat) : List (Nat × Instr) := [(1, .scnCmdOpen p t), (2, .scnCmdClose p t), (3, .scnCmdZero p t)]

theorem exec_scnCmds {p t : Nat} {s : State} (hr : Ready s) (hp : p < 16) {y : Nat × Instr} (hy : y ∈ scnCmds p t) :
    exec y.2 s = .next (answerOk (scnCommand p y.1 t s)) := by
  have hrow (op : Nat) : wh (on s) (atDone (scnRow p op t)) s = answerOk (scnCommand p op t s) := by
    rw [atDone_ready hr, scnRow, if_neg (Nat.not_le.mpr hp), answerOk]
  simp only [scnCmds, List.mem_cons, List.not_mem_nil, or_false] at hy
  rcases hy with rfl | rfl | rfl <;> exact congrArg Host.Outcome.next (hrow _)

theorem exec_scnCmdReleased {p : Nat} {s : State} (hr : Running s) : exec (.scnCmdReleased p) s = .next (scnReleased p s) :=
  congrArg Host.Outcome.next (wh_running hr _)

theorem scnCmds_op {p t : Nat} {y : Nat × Instr} (hy : y ∈ scnCmds p t) : 1 ≤ y.1 ∧ y.1 ≤ 3 := by
  simp only [scnCmds, List.mem_cons, List.not_mem_nil, or_false] at hy
  rcases hy with rfl | rfl | rfl <;> exact ⟨by simp, by simp⟩

/-- The first code of a command on a stream that does not depend on the stream's entry. -/
def scnBad (s : State) (p t : Nat) : Nat :=
  if partState s p = .torn then 0x71 else if scStreams s p ≤ t then 0x11
    else if ownStruct s p (scEntry s p t) 32 = false then 0x20 else 0

theorem scnBad_lt (s : State) (p t : Nat) : scnBad s p t < 256 := by
  unfold scnBad
  split_ifs <;> decide

theorem scnCommand_idle {p op t : Nat} {s : State} (h : rg s (pgScn p) Fld.SCN_CMD_STAT_BUSY ≠ 1) (hop : 1 ≤ op ∧ op ≤ 3) :
    scnCommand p op t s = if scnBad s p t ≠ 0 then scnResult p (scnBad s p t) (scnBusied p s)
      else scnRun p op t (scnBusied p s) := by
  have hv := scTaken_busied p s
  have hparts : partState (scnBusied p s) p = partState s p := by
    rw [partState, parts_of_reach hv.reach (by decide), partState]
  have hchecks : scnCommand p op t s = if partState (scnBusied p s) p = .torn then scnResult p 0x71 (scnBusied p s)
      else if scStreams (scnBusied p s) p ≤ t then scnResult p 0x11 (scnBusied p s)
      else if !ownStruct (scnBusied p s) p (scEntry (scnBusied p s) p t) 32 then scnResult p 0x20 (scnBusied p s)
      else scnRun p op t (scnBusied p s) := (if_neg h).trans (if_neg (by omega))
  rw [hchecks, hparts, hv.page.streams, hv.page.entry, ownStruct_same hv.base, scnBad]
  split
  · rfl
  · split
    · rfl
    · cases ownStruct s p (scEntry s p t) 32 <;> rfl

/-! ### A command on a stream of the table -/

section
variable {p op t : Nat} {v : State}

theorem scnRun_stops (h : (scRead p t (v, none)).2 ≠ none) : scnRun p op t v = scnEnds p op t v (scRead p t (v, none)) :=
  if_pos (Option.isSome_iff_ne_none.mpr h)

theorem scnRun_opens (h : (scRead p t (v, none)).2 = none) : scnRun p 1 t v =
    if scState v p t ≠ 0 then scnResult p 0x13 v
    else if chkCode (scnOpenChk v p t) ≠ 0 then scnResult p (chkCode (scnOpenChk v p t)) v
    else scnEnds p 1 t v (scnOpen p t v) := by
  simp [scnRun, h]

theorem scnRun_unused (h : (scRead p t (v, none)).2 = none) (hop : op ≠ 1) (hs : scState v p t = 0) :
    scnRun p op t v = scnResult p 0x13 v := by
  simp [scnRun, h, hop, hs]

theorem scnRun_waits (h : (scRead p t (v, none)).2 = none) (hop : op ≠ 1) (hs : scState v p t ≠ 0)
    (hq : scQuiet v p t = false) : scnRun p op t v = scnWait p op t v := by
  simp [scnRun, h, hop, hs, hq]

theorem scnRun_lost (h : (scRead p t (v, none)).2 = none) (hs : scState v p t ≠ 0) (hq : scQuiet v p t = true)
    (hop : op = 2 ∧ scState v p t = 2 ∨ op = 3 ∧ scState v p t ≠ 2) (ho : sidingOwned v p t = false) :
    scnRun p op t v = scnResult p 0x20 v := by
  rcases hop with ⟨rfl, h2⟩ | ⟨rfl, h2⟩ <;> simp [scnRun, h, hs, hq, h2, ho]

theorem scnRun_closes (h : (scRead p t (v, none)).2 = none) (hs : scState v p t ≠ 0) (hq : scQuiet v p t = true)
    (ho : scState v p t ≠ 2 ∨ sidingOwned v p t = true) : scnRun p 2 t v = scnEnds p 2 t v (scnClose p t v) := by
  rcases ho with h2 | ho
  · simp [scnRun, h, hs, hq, h2]
  · simp [scnRun, h, hs, hq, ho]

theorem scnRun_zeroes (h : (scRead p t (v, none)).2 = none) (hs : scState v p t ≠ 0) (hq : scQuiet v p t = true)
    (ho : scState v p t = 2 ∨ sidingOwned v p t = true) : scnRun p 3 t v = scnEnds p 3 t v (scnZero p t v) := by
  rcases ho with h2 | ho
  · simp [scnRun, h, hq, h2]
  · simp [scnRun, h, hs, hq, ho]

end

/-! ### The checks of OPEN (Table 8.11) -/

/-- A piece of the siding is not the partition's, or not in HBM. -/
def SidingLost (s : State) (p t : Nat) : Prop :=
  ∃ y, y ∈ piecesOf (bF (rdBytes s (scEntry s p t) 32) 8 6) (scSB s p) ∧ (ownsAt s p y = false ∨ ∀ k, regionOf y ≠ .hbm k)

/-- A field of a stream entry has a value that it may not have. -/
def StreamOdd (bs : List Byte) : Prop :=
  bF bs 0 1 / 8 ≠ 0 ∨ bF bs 1 3 ≠ 0 ∨ bF bs 14 2 ≠ 0 ∨ bF bs 24 2 / 2 ^ 13 ≠ 0 ∨ bF bs 26 6 ≠ 0

theorem sidingPiece_eq_false {s : State} {p y : Nat} :
    sidingPiece s p y = false ↔ ownsAt s p y = false ∨ ∀ k, regionOf y ≠ .hbm k := by
  unfold sidingPiece
  cases regionOf y <;> simp

section
variable {s : State} {p t : Nat}

theorem scnOpenChk_violation : (scnOpenChk s p t).violation = true ↔ SidingLost s p t := by
  simp only [scnOpenChk, Bool.not_eq_true', List.all_eq_false, SidingLost, Bool.not_eq_true, sidingPiece_eq_false]

theorem scnOpenChk_format : (scnOpenChk s p t).format = true ↔ StreamOdd (rdBytes s (scEntry s p t) 32) := by
  simp [scnOpenChk, StreamOdd, dAddrOk, zeroAt, or_assoc]

theorem scnOpenChk_shape (h : ∀ y, y ∈ piecesOf (bF (rdBytes s (scEntry s p t) 32) 8 6) (scSB s p) →
      regionOf y = regionOf (bF (rdBytes s (scEntry s p t) 32) 8 6)) : (scnOpenChk s p t).shape = false := by
  simpa [scnOpenChk] using h

/-- The code of OPEN's checks before that of the siding's stack. -/
theorem scnOpenCode_eq : chkCode (scnOpenChk s p t) = if (scnOpenChk s p t).violation then 0x20
    else if (scnOpenChk s p t).format then 0x13 else if bF (rdBytes s (scEntry s p t) 32) 8 6 % 512 ≠ 0 then 0x12
    else if (scnOpenChk s p t).shape then 0x10 else 0 := by
  have hrest : (scnOpenChk s p t).capacity = false ∧ (scnOpenChk s p t).zero = false := by
    simp only [scnOpenChk, chkNone, and_self]
  have halign : (scnOpenChk s p t).align = (bF (rdBytes s (scEntry s p t) 32) 8 6 % 512 != 0) := by simp only [scnOpenChk]
  obtain ⟨hcapacity, hzero⟩ := hrest
  rw [chkCode_eq, hcapacity, hzero, halign]
  simp only [bne_iff_ne, Bool.false_eq_true, if_false]

theorem scnOpenCode_lost (hl : SidingLost s p t) : chkCode (scnOpenChk s p t) = 0x20 := by
  rw [scnOpenCode_eq, if_pos (scnOpenChk_violation.mpr hl)]

theorem scnOpenCode_odd (hl : ¬SidingLost s p t) (ho : StreamOdd (rdBytes s (scEntry s p t) 32)) :
    chkCode (scnOpenChk s p t) = 0x13 := by
  rw [scnOpenCode_eq, if_neg (scnOpenChk_violation.not.mpr hl), if_pos (scnOpenChk_format.mpr ho)]

theorem scnOpenCode_skew (hl : ¬SidingLost s p t) (ho : ¬StreamOdd (rdBytes s (scEntry s p t) 32))
    (ha : bF (rdBytes s (scEntry s p t) 32) 8 6 % 512 ≠ 0) : chkCode (scnOpenChk s p t) = 0x12 := by
  rw [scnOpenCode_eq, if_neg (scnOpenChk_violation.not.mpr hl), if_neg (scnOpenChk_format.not.mpr ho), if_pos ha]

theorem scnOpenCode_sound (hl : ¬SidingLost s p t) (ho : ¬StreamOdd (rdBytes s (scEntry s p t) 32))
    (ha : bF (rdBytes s (scEntry s p t) 32) 8 6 % 512 = 0)
    (hs : ∀ y, y ∈ piecesOf (bF (rdBytes s (scEntry s p t) 32) 8 6) (scSB s p) →
      regionOf y = regionOf (bF (rdBytes s (scEntry s p t) 32) 8 6)) : chkCode (scnOpenChk s p t) = 0 := by
  rw [scnOpenCode_eq, if_neg (scnOpenChk_violation.not.mpr hl), if_neg (scnOpenChk_format.not.mpr ho),
    if_neg (not_not_intro ha), scnOpenChk_shape hs]
  rfl

end

/-! ### Codes -/

theorem scnOpen_steps (p t : Nat) (v : State) : TableSteps BaseSame (v, none) (scnOpen p t v) :=
  (((TableSteps.start.scPut ..).scPut ..).scPut ..).act
    (base_of_reach (L := [.regs .scn]) (inc_reach (by simp) .rfl') (by decide))

/-- The write-back with which the CLOSE of a RESIDENT stream begins. -/
def scnBack (p t : Nat) (v : State) : Try :=
  if scState v p t = 2 then tryDo (swapOutEnd .beside p t) (scStore .beside p t (v, none)) else (v, none)

theorem scnClose_eq (p t : Nat) (v : State) : scnClose p t v =
    tryDo (fun s => st (pgScn p) Fld.SCN_OPEN (rg s (pgScn p) Fld.SCN_OPEN - 1) s) (scPut .beside p t 0 1 0 (scnBack p t v)) := rfl

theorem scnBack_steps (p t : Nat) (v : State) : TableSteps BaseSame (v, none) (scnBack p t v) :=
  TableSteps.ite ((TableSteps.start.scStore .beside p t).act (swapOutEnd_base ..)) .start

theorem scnOpen_coded (p t : Nat) (v : State) : Coded (scnOpen p t v) := (scnOpen_steps p t v).coded (coded_start v)

theorem scnClose_coded (p t : Nat) (v : State) : Coded (scnClose p t v) :=
  (((scnBack_steps p t v).scPut ..).act
    (base_of_reach (L := [.regs .scn]) (st_reach (by simp) .rfl') (by decide))).coded (coded_start v)

theorem scnZero_coded (p t : Nat) (v : State) : Coded (scnZero p t v) :=
  (TableSteps.start (K := BaseSame)).write _ _ _ _ |>.coded (coded_start v)

/-! ### Effects -/

section
variable {p t : Nat} {s v u : State}

theorem ScTaken.tier (h : ScTaken p s v) (hown : ownStruct s p (scEntry s p t) 32 = true) : ownTier (scEntry v p t) = true := by
  rw [h.page.entry]
  exact ownTier_of_ownStruct (by decide) hown

theorem scnOpen_effect (hv : ScTaken p s v) (hown : ownStruct s p (scEntry s p t) 32 = true) (h : (scnOpen p t v).2 = none)
    (hu : ScAfter p (scnOpen p t v).1 u) :
    MemHolds [(scEntry s p t, [1]), (scEntry s p t + 4, toLE 4 0), (scEntry s p t + 16, toLE 8 0)] s u ∧
      CountsUp (pgScn p) Fld.SCN_OPEN 1 s u := by
  obtain ⟨hputs, hend⟩ := tryDo_ok h
  have hfirst : ScnKept [] p v (scPut .beside p t 0 1 1 (v, none)).1 := scPut_kept [] p
  have hsecond : ScnKept [] p v (scPut .beside p t 4 4 0 (scPut .beside p t 0 1 1 (v, none))).1 := hfirst.trans (scPut_kept [] p)
  have hthird : ScnKept [] p v (scPut .beside p t 16 8 0 (scPut .beside p t 4 4 0 (scPut .beside p t 0 1 1 (v, none)))).1 :=
    hsecond.trans (scPut_kept [] p)
  have htier := hv.tier hown
  have hentry {w : State} (hw : ScnKept [] p v w) : scEntry w p t = scEntry v p t := (hw.mono (m := scnWorking) nofun).entry t
  obtain ⟨hputs, hsteps⟩ := scPut_holds (by rw [hentry hsecond]; exact htier) (by decide) (by decide) hputs
  obtain ⟨hputs, hrefs⟩ := scPut_holds (by rw [hentry hfirst]; exact htier) (by decide) (by decide) hputs
  obtain ⟨-, hstate⟩ := scPut_state_holds (r := (v, none)) htier hputs
  rw [hentry hsecond, hv.page.entry] at hsteps
  rw [hentry hfirst, hv.page.entry] at hrefs
  rw [hv.page.entry] at hstate
  refine ⟨((hstate.append hrefs).append hsteps).of_mem hv.mem (by rw [hu.mem, scnOpen, hend, inc_mem]), ?_⟩
  refine (countsUp_inc (by decide) 1 _).congr ((hthird _ (by decide)).trans (hv.kept _ (by decide))) ?_
  rw [hu.kept _ (by decide), scnOpen, hend]

/-- What a write-back leaves of the SCN page. -/
theorem scnBack_kept (p t : Nat) (v : State) : ScnKept [Fld.SCN_SWAP_OUT, Fld.SCN_SWAP_WAIT] p v (scnBack p t v).1 := by
  have hstore : ScnKept [Fld.SCN_SWAP_OUT, Fld.SCN_SWAP_WAIT] p v (scStore .beside p t (v, none)).1 :=
    .of_reach (scStore_only .beside p t (v, none)) (by decide)
  unfold scnBack tryDo
  split
  · split
    · exact hstore
    · exact hstore.trans (swapOutEnd_kept .beside p t _)
  · exact .refl _ p _

/-- One stream fewer is open once a CLOSE is done. -/
theorem scnClose_fewer (hv : ScTaken p s v) (h : (scnClose p t v).2 = none) (hu : ScAfter p (scnClose p t v).1 u) :
    rg u (pgScn p) Fld.SCN_OPEN = rg s (pgScn p) Fld.SCN_OPEN - 1 := by
  rw [scnClose_eq] at h hu
  obtain ⟨-, hend⟩ := tryDo_ok h
  have hcount : rg (scPut .beside p t 0 1 0 (scnBack p t v)).1 (pgScn p) Fld.SCN_OPEN = rg s (pgScn p) Fld.SCN_OPEN :=
    (scPut_kept [] p _ (by decide)).trans ((scnBack_kept p t v _ (by decide)).trans (hv.kept _ (by decide)))
  have hlt : rg s (pgScn p) Fld.SCN_OPEN - 1 < 2 ^ 21 := Nat.lt_of_le_of_lt (Nat.sub_le _ 1) (Nat.mod_lt _ (by decide))
  rw [hu.kept _ (by decide), hend, rg_st_same _ _ _ _ (by decide), hcount]
  exact Nat.mod_eq_of_lt hlt

/-- What a CLOSE leaves after the write-back: the entry is UNUSED. -/
theorem scnClose_unused (hv : ScTaken p s v) (hown : ownStruct s p (scEntry s p t) 32 = true) (h : (scnClose p t v).2 = none)
    (hu : ScAfter p (scnClose p t v).1 u) :
    (scnBack p t v).2 = none ∧ MemHolds [(scEntry s p t, [0])] (scnBack p t v).1 u ∧ sc u p = sc (scnBack p t v).1 p := by
  rw [scnClose_eq] at h hu
  obtain ⟨hput, hend⟩ := tryDo_ok h
  have hentry : scEntry (scnBack p t v).1 p t = scEntry v p t := ((scnBack_kept p t v).mono (m := scnWorking) (by decide)).entry t
  obtain ⟨hback, hunused⟩ := scPut_state_holds (by rw [hentry]; exact hv.tier hown) hput
  rw [hentry, hv.page.entry] at hunused
  refine ⟨hback, hunused.of_mem rfl (by rw [hu.mem, hend, st_mem]), ?_⟩
  rw [hu.scn, hend, sc_of_scn (st_scn ..), sc_of_reach (scPut_only ..) (by decide)]

theorem scnBack_sided (hs : scState v p t ≠ 2) : scnBack p t v = (v, none) := if_neg hs

theorem scnBack_resident (hs : scState v p t = 2) (h : (scnBack p t v).2 = none) : (scStore .beside p t (v, none)).2 = none ∧
    (scnBack p t v).1 = swapOutEnd .beside p t (scStore .beside p t (v, none)).1 := by
  unfold scnBack at h ⊢
  rw [if_pos hs] at h ⊢
  exact tryDo_ok h

end

end Sys2Proof.Machine
end

section
/-!
PROOFS. The SCN commands as their pages take them (R199, Table 8.11): each command by the state of its stream, and a command that waited.
-/
namespace Sys2Proof.Machine

/-! ### Siding and images -/

theorem rdBytes_part (s : State) (a : Nat) {i m n : Nat} (h : i + m ≤ n) : ((rdBytes s a n).drop i).take m = rdBytes s (a + i) m := by
  refine List.ext_getElem (by simp [rdBytes]; omega) fun k _ _ => ?_
  simp [rdBytes, Nat.add_assoc]

/-- SIDING, in the bytes of the entry. -/
theorem bF_siding (s : State) (p t : Nat) : bF (rdBytes s (scEntry s p t) 32) 8 6 = scSiding s p t := by
  rw [bF, rdBytes_part s _ (by decide), scSiding, scF, rdLE]

section
variable {p t : Nat} {s v u : State} {y : ScnSlot}

/-- CLOSE of a RESIDENT stream: its slot is free, and its siding holds the image of the slot. -/
theorem scnClose_resident (hv : ScTaken p s v) (hown : ownStruct s p (scEntry s p t) 32 = true) (hs : scState s p t = 2)
    (hslot : scSlotOf s p t = some y) (h : (scnClose p t v).2 = none) (hu : ScAfter p (scnClose p t v).1 u) :
    CountsUp (pgScn p) Fld.SCN_SWAP_OUT 1 s u ∧
    sc u p = { sc v p with slots := (sc v p).slots.filter fun z => z.stream != t } ∧
    ((memWrite .beside p 0 (scSiding s p t) (rdBytes s (scImage s p y.slot y.cur) (scSB s p)) v).2 = none →
      MemHolds [(scSiding s p t, rdBytes s (scImage s p y.slot y.cur) (scSB s p)), (scEntry s p t, [0])] s u) := by
  obtain ⟨hback, hunused, hsc⟩ := scnClose_unused hv hown h hu
  obtain ⟨hstored, hended⟩ := scnBack_resident ((hv.state t).trans hs) hback
  have hstore : ScnKept [] p v (scStore .beside p t (v, none)).1 := .of_reach (scStore_only .beside p t (v, none)) (by decide)
  rw [hended] at hunused hsc
  refine ⟨?count, ?slots, fun hw => ?memory⟩
  case count =>
    have hclosed : rg u (pgScn p) Fld.SCN_SWAP_OUT = rg (scnBack p t v).1 (pgScn p) Fld.SCN_SWAP_OUT := by
      rw [scnClose_eq] at h hu
      obtain ⟨-, hend⟩ := tryDo_ok h
      rw [hu.kept _ (by decide), hend, rg_st_beside (l := [Fld.SCN_OPEN]) (by decide) (by decide),
        scPut_kept [] p _ (by decide)]
    rw [hended] at hclosed
    exact (swapOutEnd_countsOut .beside p t _).congr ((hstore _ (by decide)).trans (hv.kept _ (by decide))) hclosed
  case slots =>
    have hcopied := sc_of_reach (scStore_only .beside p t (v, none)) (by decide) p
    rw [hsc, swapOutEnd_sc, hcopied, slotsBut]
  case memory =>
    have hcopied := scStore_holds (r := (v, none)) ((hv.slotOf t).trans hslot) hstored
    simp only [hv.page.siding hv.mem, hv.page.image, hv.page.bytes, rdBytes_of_mem hv.mem] at hcopied
    refine ((hcopied hw).rewritten (fun x hx => ?_) hunused).of_mem hv.mem rfl
    rw [rd1_of_mem (swapOutEnd_mem ..)]
    refine scPut_state_beside ?_
    rwa [(hstore.mono (m := scnWorking) nofun).entry, hv.page.entry]

/-- Where ZERO clears the state of a stream: in its slot, or in its siding. -/
def zeroedAt (s : State) (p t : Nat) : Nat :=
  match scState s p t, scSlotOf s p t with
  | 2, some x => scImage s p x.slot x.cur
  | _, _ => scSiding s p t

theorem zeroedAt_resident (hs : scState s p t = 2) (hslot : scSlotOf s p t = some y) :
    zeroedAt s p t = scImage s p y.slot y.cur := by simp [zeroedAt, hs, hslot]

theorem zeroedAt_sided (hs : scState s p t ≠ 2) : zeroedAt s p t = scSiding s p t := by
  unfold zeroedAt
  split
  next h _ => exact absurd h hs
  next => rfl

theorem ScTaken.zeroedAt (hv : ScTaken p s v) (t : Nat) : zeroedAt v p t = zeroedAt s p t := by
  unfold Machine.zeroedAt
  simp only [hv.state, hv.slotOf, hv.page.siding hv.mem, hv.page.image]

theorem scnZero_eq (p t : Nat) (v : State) :
    scnZero p t v = tryWrite .beside p (zeroedAt v p t) (List.replicate (scSB v p) 0) (v, none) := rfl

theorem scnZero_effect (hv : ScTaken p s v) (h : (scnZero p t v).2 = none) (hu : ScAfter p (scnZero p t v).1 u) :
    sc u p = sc v p ∧ ((memWrite .beside p 0 (zeroedAt s p t) (List.replicate (scSB s p) 0) v).2 = none →
      MemHolds [(zeroedAt s p t, List.replicate (scSB s p) 0)] s u) := by
  rw [scnZero_eq, hv.zeroedAt, hv.page.bytes] at h hu
  obtain ⟨-, -, hput⟩ := tryWrite_none h
  rw [hput] at hu
  exact ⟨hu.scn.trans (sc_of_reach (memPut_reaches ..) (by decide) p),
    fun hw => (writeAll_holds .beside p 0 [(_, _)] v hw).of_mem hv.mem hu.mem⟩

end

/-! ### A command on a stream, taken up -/

/-- A command on stream `t` that passes the checks before its entry is read, on an idle page. -/
structure ScPasses (p t : Nat) (s : State) : Prop where
  ready : Ready s
  part : p < 16
  idle : rg s (pgScn p) Fld.SCN_CMD_STAT_BUSY ≠ 1
  good : scnBad s p t = 0

/-- The entry of the stream is read without a stop. -/
def StreamRead (p t : Nat) (s : State) : Prop := (scRead p t (scnBusied p s, none)).2 = none

namespace ScPasses

variable {p t : Nat} {s : State} (h : ScPasses p t s)
include h

theorem own : ownStruct s p (scEntry s p t) 32 = true := by
  have hgood := h.good
  unfold scnBad at hgood
  split_ifs at hgood with _ _ hown
  exact Bool.not_eq_false _ ▸ hown

theorem runs {y : Nat × Instr} (hy : y ∈ scnCmds p t) {P : State → Prop}
    (hP : P (answerOk (scnRun p y.1 t (scnBusied p s)))) : NextIs (exec y.2 s) P := by
  refine ⟨_, exec_scnCmds h.ready h.part hy, ?_⟩
  rw [scnCommand_idle h.idle (scnCmds_op hy), if_neg (not_not_intro h.good)]
  exact hP

theorem stops (hread : ¬StreamRead p t s) {y : Nat × Instr} (hy : y ∈ scnCmds p t) :
    NextIs (exec y.2 s) (ScStarts p y.1 t s (scRead p t (scnBusied p s, none)) fun _ => True) := by
  refine h.runs hy ?_
  rw [scnRun_stops hread]
  exact scnEnds_starts (scRead_coded p t _) fun _ _ _ => trivial

theorem unused (hread : StreamRead p t s) (hs : scState s p t = 0) {y : Nat × Instr} (hy : y ∈ scnCmds p t) (hop : y.1 ≠ 1) :
    NextIs (exec y.2 s) (ScOnly p 0x13 s) := by
  refine h.runs hy ?_
  rw [scnRun_unused hread hop (((scTaken_busied p s).state t).trans hs)]
  exact scOnly_refused (by decide) s

theorem openUsed (hread : StreamRead p t s) (hs : scState s p t ≠ 0) : NextIs (exec (.scnCmdOpen p t) s) (ScOnly p 0x13 s) := by
  refine h.runs (y := (1, .scnCmdOpen p t)) (by simp [scnCmds]) ?_
  rw [scnRun_opens hread, if_pos (((scTaken_busied p s).state t).trans_ne hs)]
  exact scOnly_refused (by decide) s

theorem openRefused (hread : StreamRead p t s) (hs : scState s p t = 0) {code : Nat} (hcode : chkCode (scnOpenChk s p t) = code)
    (hne : code ≠ 0) (hlt : code < 256) : NextIs (exec (.scnCmdOpen p t) s) (ScOnly p code s) := by
  have hv := scTaken_busied p s
  refine h.runs (y := (1, .scnCmdOpen p t)) (by simp [scnCmds]) ?_
  rw [scnRun_opens hread, if_neg (not_not_intro ((hv.state t).trans hs)), hv.openChk, hcode, if_pos hne]
  exact scOnly_refused hlt s

theorem opens (hread : StreamRead p t s) (hs : scState s p t = 0) (hcode : chkCode (scnOpenChk s p t) = 0) :
    NextIs (exec (.scnCmdOpen p t) s) (ScStarts p 1 t s (scnOpen p t (scnBusied p s)) fun u =>
      MemHolds [(scEntry s p t, [1]), (scEntry s p t + 4, toLE 4 0), (scEntry s p t + 16, toLE 8 0)] s u ∧
        CountsUp (pgScn p) Fld.SCN_OPEN 1 s u) := by
  have hv := scTaken_busied p s
  refine h.runs (y := (1, .scnCmdOpen p t)) (by simp [scnCmds]) ?_
  rw [scnRun_opens hread, if_neg (not_not_intro ((hv.state t).trans hs)), hv.openChk, if_neg (not_not_intro hcode)]
  exact scnEnds_starts (scnOpen_coded p t _) fun u => scnOpen_effect hv h.own

/-- CLOSE and ZERO wait while the stream is referenced or a swap of it is in progress (R199). -/
theorem waits (hread : StreamRead p t s) (hs : scState s p t ≠ 0) (hq : scQuiet s p t = false) {y : Nat × Instr}
    (hy : y ∈ scnCmds p t) (hop : y.1 ≠ 1) :
    NextIs (exec y.2 s) fun u => u.bus = (0, 0) ∧ rg u (pgScn p) Fld.SCN_CMD_STAT_BUSY = 1 ∧ ScWaits p y.1 t s u := by
  have hv := scTaken_busied p s
  refine h.runs hy ?_
  rw [scnRun_waits hread hop ((hv.state t).trans_ne hs) ((hv.quiet t).trans hq)]
  exact ⟨answerOk_bus _, (rg_answerOk ..).trans (rg_scnWait_busy ..), scnWait_waits hv (scShows_answerOk _)⟩

theorem lost (hread : StreamRead p t s) (hs : scState s p t ≠ 0) (hq : scQuiet s p t = true) {y : Nat × Instr} (hy : y ∈ scnCmds p t)
    (hop : y.1 = 2 ∧ scState s p t = 2 ∨ y.1 = 3 ∧ scState s p t ≠ 2) (ho : sidingOwned s p t = false) :
    NextIs (exec y.2 s) (ScOnly p 0x20 s) := by
  have hv := scTaken_busied p s
  refine h.runs hy ?_
  rw [scnRun_lost hread ((hv.state t).trans_ne hs) ((hv.quiet t).trans hq) (by rwa [hv.state]) ((hv.sidingOwned t).trans ho)]
  exact scOnly_refused (by decide) s

theorem closes (hread : StreamRead p t s) (hs : scState s p t ≠ 0) (hq : scQuiet s p t = true)
    (ho : scState s p t ≠ 2 ∨ sidingOwned s p t = true) {ok : State → Prop}
    (hok : ∀ u, (scnClose p t (scnBusied p s)).2 = none → ScAfter p (scnClose p t (scnBusied p s)).1 u → ok u) :
    NextIs (exec (.scnCmdClose p t) s) (ScStarts p 2 t s (scnClose p t (scnBusied p s)) ok) := by
  have hv := scTaken_busied p s
  refine h.runs (y := (2, .scnCmdClose p t)) (by simp [scnCmds]) ?_
  rw [scnRun_closes hread ((hv.state t).trans_ne hs) ((hv.quiet t).trans hq) (by rwa [hv.state, hv.sidingOwned])]
  exact scnEnds_starts (scnClose_coded p t _) hok

theorem zeroes (hread : StreamRead p t s) (hs : scState s p t ≠ 0) (hq : scQuiet s p t = true)
    (ho : scState s p t = 2 ∨ sidingOwned s p t = true) :
    NextIs (exec (.scnCmdZero p t) s) (ScStarts p 3 t s (scnZero p t (scnBusied p s)) fun u => sc u p = sc s p ∧
      ((memWrite .beside p 0 (zeroedAt s p t) (List.replicate (scSB s p) 0) (scnBusied p s)).2 = none →
        MemHolds [(zeroedAt s p t, List.replicate (scSB s p) 0)] s u)) := by
  have hv := scTaken_busied p s
  refine h.runs (y := (3, .scnCmdZero p t)) (by simp [scnCmds]) ?_
  rw [scnRun_zeroes hread ((hv.state t).trans_ne hs) ((hv.quiet t).trans hq) (by rwa [hv.state, hv.sidingOwned])]
  refine scnEnds_starts (scnZero_coded p t _) fun u hnone hu => ?_
  rw [← sc_of_reach (scnBusied_reach p s) (by decide) p]
  exact scnZero_effect hv hnone hu

end ScPasses

/-! ### A command that waited (R199) -/

section
variable {p t op k : Nat} {s : State}

theorem scnReleased_none (h : (sc s p).waiting = none) : scnReleased p s = s := by rw [scnReleased, h]

theorem scnReleased_runs (h : (sc s p).waiting = some (op, k)) : scnReleased p s = scnRun p op k (scnCleared p s) := by
  rw [scnReleased, h, scnCleared]

/-- A command that waited ends as its step on the tables does. -/
theorem scnReleased_ends (hr : Running s) (hw : (sc s p).waiting = some (op, k)) {r : Try} {ok : State → Prop}
    (hrun : scnRun p op k (scnCleared p s) = scnEnds p op k (scnCleared p s) r) (hcoded : Coded r)
    (hok : ∀ u, r.2 = none → ScAfter p r.1 u → ok u) : NextIs (exec (.scnCmdReleased p) s) (ScEnds p op k s r ok) := by
  refine ⟨_, exec_scnCmdReleased hr, ?_⟩
  rw [scnReleased_runs hw, hrun]
  exact scnEnds_ends (scTaken_cleared p s) hcoded (scShows_self _) (hok _)

/-- A command that waited on a stream that is not quiet yet goes on waiting. -/
theorem scnReleased_waits (hr : Running s) (hw : (sc s p).waiting = some (op, k))
    (hread : (scRead p k (scnCleared p s, none)).2 = none) (hop : op ≠ 1) (hs : scState s p k ≠ 0)
    (hq : scQuiet s p k = false) : NextIs (exec (.scnCmdReleased p) s) (ScWaits p op k s) := by
  have hv := scTaken_cleared p s
  refine ⟨_, exec_scnCmdReleased hr, ?_⟩
  rw [scnReleased_runs hw, scnRun_waits hread hop ((hv.state k).trans_ne hs) ((hv.quiet k).trans hq)]
  exact scnWait_waits hv (scShows_self _)

/-- A command that waited on a stream whose siding has been lost is refused (R349). -/
theorem scnReleased_lost (hr : Running s) (hw : (sc s p).waiting = some (op, k))
    (hread : (scRead p k (scnCleared p s, none)).2 = none) (hs : scState s p k ≠ 0) (hq : scQuiet s p k = true)
    (hop : op = 2 ∧ scState s p k = 2 ∨ op = 3 ∧ scState s p k ≠ 2) (ho : sidingOwned s p k = false) :
    NextIs (exec (.scnCmdReleased p) s) fun u => ScEnded p 0x20 u ∧ sc u p = { sc s p with waiting := none } ∧ u.mem = s.mem := by
  have hv := scTaken_cleared p s
  refine ⟨_, exec_scnCmdReleased hr, ?_⟩
  rw [scnReleased_runs hw, scnRun_lost hread ((hv.state k).trans_ne hs) ((hv.quiet k).trans hq) (by rwa [hv.state])
    ((hv.sidingOwned k).trans ho)]
  have hafter : ScAfter p (scnCleared p s) (scnResult p 0x20 (scnCleared p s)) := (scShows_self _).after
  exact ⟨scnResult_ended (by decide) _, hafter.scn.trans (sc_setSc_same ..), hafter.mem.trans hv.mem⟩

/-! ### The cases of the statement -/

theorem scnBusy_ignored (hr : Ready s) (hp : p < 16) (hbusy : rg s (pgScn p) Fld.SCN_CMD_STAT_BUSY = 1) {y : Nat × Instr}
    (hy : y ∈ scnCmds p t) : NextIs (exec y.2 s) fun u => u.bus = (0, 0) ∧ Only [.regs .scn, .bus] s u ∧
      OnlyFields [(pgScn p, Fld.SCN_CMD_STAT_IGNORED)] s u ∧ rg u (pgScn p) Fld.SCN_CMD_STAT_IGNORED = 1 := by
  refine ⟨_, exec_scnCmds hr hp hy, ?_⟩
  rw [scnCommand, if_pos hbusy]
  exact ⟨answerOk_bus _, answerOk_only (st_reach (by simp) .rfl') (by decide),
    (onlyFields_st 1 s (by decide) (List.mem_singleton_self _)).answerOk,
    (rg_answerOk ..).trans (rg_st_same _ _ _ _ (by decide))⟩

theorem scnBad_refuses (hr : Ready s) (hp : p < 16) (hidle : rg s (pgScn p) Fld.SCN_CMD_STAT_BUSY ≠ 1) (hbad : scnBad s p t ≠ 0)
    {y : Nat × Instr} (hy : y ∈ scnCmds p t) : NextIs (exec y.2 s) (ScOnly p (scnBad s p t) s) := by
  refine ⟨_, exec_scnCmds hr hp hy, ?_⟩
  rw [scnCommand_idle hidle (scnCmds_op hy), if_pos hbad]
  exact scOnly_refused (scnBad_lt s p t) s

end

/-- Settles O49: the commands by the state of their stream, each as a step on the stream table. -/
theorem scnCommands : Obligations.ScnCommands := by
  unfold Obligations.ScnCommands
  intro part t s hr hp pg a s1 x s2 ended only waits ends starts fewer all busy bad entry sb bs siding lost odd oneStack zeros image
  have hends : ends = fun op k => ScEnds part op k s := by
    funext op k ⟨v, o⟩ ok u
    cases o <;> rfl
  have hstarts : starts = fun op => ScStarts part op t s := by
    funext op r ok u
    exact congrArg (fun x => u.bus = (0, 0) ∧ x r ok u ∧ _) (congrFun (congrFun hends op) t)
  clear_value starts ends
  subst hstarts hends
  have hsiding : siding = scSiding s part t := bF_siding s part t
  have hwaits {y : Nat × Instr} (hy : y ∈ [(2, Instr.scnCmdClose part t), (3, .scnCmdZero part t)]) :
      y ∈ scnCmds part t ∧ y.1 ≠ 1 := by
    simp only [List.mem_cons, List.not_mem_nil, or_false] at hy
    rcases hy with rfl | rfl <;> simp [scnCmds]
  have hclose : (2, Instr.scnCmdClose part t) ∈ scnCmds part t := by simp [scnCmds]
  have hzero : (3, Instr.scnCmdZero part t) ∈ scnCmds part t := by simp [scnCmds]
  refine ⟨fun hbusy y hy => scnBusy_ignored hr hp hbusy hy, fun hidle => ⟨fun hbad y hy => scnBad_refuses hr hp hidle hbad hy, ?stops,
    ?unused, ?used, ?waiting, ?sided, ?resident⟩, fun hempty => ?empty, fun op k hw => ?released⟩
  case stops => exact fun hgood hread y hy => (ScPasses.mk hr hp hidle hgood).stops hread hy
  case unused =>
    intro hgood hread hs
    have h : ScPasses part t s := ⟨hr, hp, hidle, hgood⟩
    exact ⟨h.unused hread hs hclose nofun, h.unused hread hs hzero nofun,
      fun hlost => h.openRefused hread hs (scnOpenCode_lost hlost) (by decide) (by decide),
      fun hlost hodd => h.openRefused hread hs (scnOpenCode_odd hlost hodd) (by decide) (by decide),
      fun hlost hodd hskew => h.openRefused hread hs (scnOpenCode_skew hlost hodd hskew) (by decide) (by decide),
      fun hlost hodd halign hstack => h.opens hread hs (scnOpenCode_sound hlost hodd halign hstack)⟩
  case used => exact fun hgood hread hs => (ScPasses.mk hr hp hidle hgood).openUsed hread hs
  case waiting =>
    intro hgood hread hs hq y hy
    exact (ScPasses.mk hr hp hidle hgood).waits hread hs hq (hwaits hy).1 (hwaits hy).2
  case sided =>
    intro hgood hread hs hs2 hq
    have h : ScPasses part t s := ⟨hr, hp, hidle, hgood⟩
    have hv := scTaken_busied part s
    refine ⟨h.closes hread hs hq (.inl hs2) fun u hnone hu => ?_, fun ho => h.lost hread hs hq hzero (.inr ⟨rfl, hs2⟩) ho,
      fun ho => ?_⟩
    · obtain ⟨-, hmem, hsc⟩ := scnClose_unused hv h.own hnone hu
      rw [scnBack_sided ((hv.state t).trans_ne hs2)] at hmem hsc
      exact ⟨hmem.of_mem hv.mem rfl, hsc.trans (sc_of_reach (scnBusied_reach part s) (by decide) part),
        scnClose_fewer hv hnone hu⟩
    · have hat : zeroedAt s part t = siding := (zeroedAt_sided hs2).trans hsiding.symm
      have hzeroes := h.zeroes hread hs hq (.inr ho)
      rwa [hat] at hzeroes
  case resident =>
    intro y hgood hread hs hq hslot
    have h : ScPasses part t s := ⟨hr, hp, hidle, hgood⟩
    have hv := scTaken_busied part s
    have hs0 : scState s part t ≠ 0 := by omega
    refine ⟨fun ho => h.lost hread hs0 hq hclose (.inl ⟨rfl, hs⟩) ho,
      fun ho => h.closes hread hs0 hq (.inr ho) fun u hnone hu => ?_, ?_⟩
    · obtain ⟨hcount, hsc, hmem⟩ := scnClose_resident hv h.own hs hslot hnone hu
      rw [sc_of_reach (scnBusied_reach part s) (by decide)] at hsc
      rw [← hsiding] at hmem
      exact ⟨hcount, scnClose_fewer hv hnone hu, hsc, hmem⟩
    · have hzeroes := h.zeroes hread hs0 hq (.inl hs)
      rwa [zeroedAt_resident hs hslot] at hzeroes
  case empty => exact (exec_scnCmdReleased hr.1).trans (congrArg Host.Outcome.next (scnReleased_none hempty))
  case released =>
    have hv : ScTaken part s (scnCleared part s) := scTaken_cleared part s
    intro again
    refine ⟨fun hread => scnReleased_ends hr.1 hw (scnRun_stops hread) (scRead_coded part k s2) fun _ _ _ => trivial,
      fun hread hop hs hq => scnReleased_waits hr.1 hw hread hop hs hq,
      fun hread hs hq => ⟨?_, ?_, fun hop ho => scnReleased_lost hr.1 hw hread hs hq hop ho⟩⟩
    · rintro rfl ho
      exact scnReleased_ends hr.1 hw (scnRun_closes hread ((hv.state k).trans_ne hs) ((hv.quiet k).trans hq)
        (by rwa [hv.state, hv.sidingOwned])) (scnClose_coded part k s2) fun u => scnClose_fewer hv
    · rintro rfl ho
      exact scnReleased_ends hr.1 hw (scnRun_zeroes hread ((hv.state k).trans_ne hs) ((hv.quiet k).trans hq)
        (by rwa [hv.state, hv.sidingOwned])) (scnZero_coded part k s2) fun _ _ _ => trivial

end Sys2Proof.Machine
end

section
/-!
PROOFS. The admission of a SCAN (R191): the partition's next SCAN not admitted, what its judgement makes of it, and that a SCAN
which runs to its end goes on from there.
-/
namespace Sys2Proof.Machine

theorem exec_scanAdmit {p : Nat} {s : State} (h : Running s) : exec (.scanAdmit p) s = .next (scanAdmit p s) :=
  congrArg Host.Outcome.next (wh_running h _)

theorem exec_scan {fid : Nat} {s : State} (h : Running s) : exec (.scan fid) s = .next (scanGo fid s) :=
  congrArg Host.Outcome.next (wh_running h _)

/-- A SCAN runs to its end from its admission on. -/
theorem scanGo_eq {fid : Nat} {s : State} {f : Flight} {w : ScanWork} (h : scanFlight s fid = some (f, w)) :
    scanGo fid s = scansOn fid (if w.admitted then s else scanAdmit f.q s) := by
  unfold scanGo
  rw [h]
  rfl

/-- Descriptor `f` goes on in state `u`, as `P` says. -/
def GoesOn (f : Flight) (P : Flight → Prop) (u : State) : Prop := ∃ g, flightOf u f.fid = some g ∧ Continues f g ∧ P g

theorem finish_goesOn {f : Flight} {s : State} (hf : flightOf s f.fid = some f) (hr : f.result = none) (code detail : Nat) :
    GoesOn f (fun g => g.result = some code) (finish f.fid code detail s) :=
  ⟨_, finish_flight hf hr code detail, ⟨rfl, id, fun _ => nofun⟩, rfl⟩

theorem finish_onlyFlights (fid code detail : Nat) (s : State) : Reach [.flights] s (finish fid code detail s) :=
  finish_reach (by decide) .rfl'

/-- `f` is the partition's next SCAN not admitted, with work `w`. -/
structure ScanNext (p : Nat) (s : State) (f : Flight) (w : ScanWork) : Prop where
  next : s.flights.find? (fun f => f.q == p && dOp f.bytes == 6 && f.result.isNone && !scanAdmitted f) = some f
  flight : scanFlight s f.fid = some (f, w)

/-- The reads of the entries of some streams. -/
def scanEntries (p : Nat) (ds : List Nat) (s : State) : Try := ds.foldl (fun r t => scRead p t r) (s, none)

section
variable {p : Nat} {s : State} {f : Flight} {w : ScanWork}

/-- A step of the admission that met a stop: the SCAN waits for what is held, or ends with the code. -/
theorem scanStop_ends (hf : flightOf s f.fid = some f) (hr : f.result = none) (e : Stop) :
    (scanStop f.fid e s).mem = s.mem ∧
      GoesOn f (fun g => g.result = if e.code = heldMark then none else some e.code) (scanStop f.fid e s) := by
  unfold scanStop
  split
  next hheld =>
    have hnoted : Reach [.retrain] s (noteChans f.fid [(e.addr, 1)] s) := noteChans_reach (by decide) .rfl'
    exact ⟨mem_of_reach hnoted (by decide),
      f, (flightOf_of_flights (flights_of_reach hnoted (by decide)) _).trans hf, continues_rfl f, hr⟩
  next =>
    have hstop := stopped_only e s
    exact ⟨(mem_of_reach (finish_onlyFlights ..) (by decide)).trans (mem_of_reach hstop (by decide)),
      finish_goesOn ((flightOf_of_flights (flights_of_reach hstop (by decide)) _).trans hf) hr e.code 0⟩

namespace ScanNext

variable (h : ScanNext p s f w)
include h

theorem queue : f.q = p := by
  have hnext := List.find?_some h.next
  simp only [Bool.and_eq_true, beq_iff_eq] at hnext
  exact hnext.1.1.1

theorem waits : w.admitted = false := by
  have hnext := List.find?_some h.next
  have hflight := h.flight
  obtain ⟨hf, hop, hr, hs⟩ := scanFlight_some h.flight
  simp only [Bool.and_eq_true, Bool.not_eq_true', scanAdmitted] at hnext
  unfold scanFlight at hflight
  simp only [hf, hop, hr, hs, ne_eq, not_true_eq_false, Option.isSome_none, Bool.false_eq_true, or_self, if_false,
    Option.some.injEq, Prod.mk.injEq, true_and] at hflight
  rw [← hflight]
  split
  next hw => simpa [hw] using hnext.2
  next => rfl

theorem found : flightOf s f.fid = some f := (scanFlight_some h.flight).1

theorem noResult : f.result = none := (scanFlight_some h.flight).2.2.1

theorem judge_eq : scanAdmit p s =
    if (scDistinct f.bytes f.cap.list).any fun t => !ownStruct s p (scEntry s p t) 32 then finish f.fid 0x20 0 s else
    match (scanEntries p (scDistinct f.bytes f.cap.list) s).2 with
    | some e => scanStop f.fid e s
    | none => if (scDistinct f.bytes f.cap.list).any fun t => scState s p t == 0 then finish f.fid 0x13 0 s
        else scanTake f.fid s := by
  unfold scanAdmit
  rw [h.next]
  dsimp only
  rw [h.flight]
  rfl

theorem take_eq : scanTake f.fid s =
    if scSlots s p < scRefd s p + (scDistinct f.bytes f.cap.list).length then
      wh (!w.waited) (inc (pgScn p) Fld.SCN_ADMIT_WAIT 1) (reworked f.fid (.scan { w with waited := true }) s)
    else match (scanRefs p (scDistinct f.bytes f.cap.list) s).2 with
    | some e => scanStop f.fid e s
    | none => updFlight f.fid (fun g => { g with
        snap := some (scanRefs p (scDistinct f.bytes f.cap.list) s).1.mem
        work := .scan { w with admitted := true, d := (scDistinct f.bytes f.cap.list).length } })
        (scanRefs p (scDistinct f.bytes f.cap.list) s).1 := by
  obtain rfl := h.queue
  unfold scanTake
  rw [h.flight]
  rfl

theorem ends (code : Nat) : GoesOn f (fun g => g.result = some code) (finish f.fid code 0 s) ∧
    Only [.flights] s (finish f.fid code 0 s) := ⟨finish_goesOn h.found h.noResult code 0, (finish_onlyFlights ..).frame⟩

end ScanNext

/-- No stream of the SCAN has an entry that the partition has lost. -/
def EntriesOwned (p : Nat) (ds : List Nat) (s : State) : Prop := ∀ t, t ∈ ds → ownStruct s p (scEntry s p t) 32 = true

theorem scanAdmit_lost (h : ScanNext p s f w)
    (hl : ∃ t, t ∈ scDistinct f.bytes f.cap.list ∧ ownStruct s p (scEntry s p t) 32 = false) :
    scanAdmit p s = finish f.fid 0x20 0 s := by
  rw [h.judge_eq, if_pos (by simpa using hl)]

theorem scanAdmit_stops (h : ScanNext p s f w) (hown : EntriesOwned p (scDistinct f.bytes f.cap.list) s) {e : Stop}
    (he : (scanEntries p (scDistinct f.bytes f.cap.list) s).2 = some e) : scanAdmit p s = scanStop f.fid e s := by
  rw [h.judge_eq, if_neg (by simpa [EntriesOwned] using hown), he]

theorem scanAdmit_unused (h : ScanNext p s f w) (hown : EntriesOwned p (scDistinct f.bytes f.cap.list) s)
    (hread : (scanEntries p (scDistinct f.bytes f.cap.list) s).2 = none)
    (hu : ∃ t, t ∈ scDistinct f.bytes f.cap.list ∧ scState s p t = 0) : scanAdmit p s = finish f.fid 0x13 0 s := by
  rw [h.judge_eq, if_neg (by simpa [EntriesOwned] using hown), hread]
  exact if_pos (by simpa using hu)

/-- The next SCAN not admitted, once its entries have been read and its streams are in use. -/
structure ScanJudged (p : Nat) (s : State) (f : Flight) (w : ScanWork) : Prop extends ScanNext p s f w where
  owned : EntriesOwned p (scDistinct f.bytes f.cap.list) s
  read : (scanEntries p (scDistinct f.bytes f.cap.list) s).2 = none
  used : ¬∃ t, t ∈ scDistinct f.bytes f.cap.list ∧ scState s p t = 0

/-- The work of a SCAN that waits for slots. -/
def ScanWork.waiting (w : ScanWork) : ScanWork := { w with waited := true }

/-- The work of a SCAN that is admitted with `n` references. -/
def ScanWork.admittedWith (w : ScanWork) (n : Nat) : ScanWork :=
  { w with
    admitted := true
    d := n }

/-- The state in which a SCAN is admitted. -/
def scanTaken (p : Nat) (f : Flight) (w : ScanWork) (s : State) : State :=
  updFlight f.fid (fun g => { g with
    snap := some (scanRefs p (scDistinct f.bytes f.cap.list) s).1.mem
    work := .scan (w.admittedWith (scDistinct f.bytes f.cap.list).length) }) (scanRefs p (scDistinct f.bytes f.cap.list) s).1

theorem scanRefs_only (p : Nat) (ds : List Nat) (s : State) : Reach memAccess s (scanRefs p ds s).1 :=
  (ReachP.foldl (fun _ _ h => scPut_reach (by decide) (by decide) (by decide) (by decide) (by decide) (by decide) (by decide)
    (by decide) (by decide) (by decide) (by decide) (by decide) (by decide) (by decide) (by decide) h)
    (ReachP.pair_iff.mpr .rfl')).out

theorem scanTaken_only (p : Nat) (f : Flight) (w : ScanWork) (s : State) : Reach (memAccess ++ [.flights]) s (scanTaken p f w s) :=
  (scanRefs_only ..).comp (updFlight_reach (by decide) (fun _ => ⟨fun _ => nofun, id⟩) .rfl')

theorem scanTaken_mem (p : Nat) (f : Flight) (w : ScanWork) (s : State) :
    (scanTaken p f w s).mem = (scanRefs p (scDistinct f.bytes f.cap.list) s).1.mem := updFlight_mem ..

namespace ScanJudged

variable (h : ScanJudged p s f w)
include h

theorem takes : scanAdmit p s = scanTake f.fid s := by
  rw [h.judge_eq, if_neg (by simpa [EntriesOwned] using h.owned), h.read]
  exact if_neg (by simpa using h.used)

theorem full (hfull : scSlots s p < scRefd s p + (scDistinct f.bytes f.cap.list).length) : scanAdmit p s =
    wh (!w.waited) (inc (pgScn p) Fld.SCN_ADMIT_WAIT 1) (reworked f.fid (.scan w.waiting) s) := by
  rw [h.takes, h.take_eq, if_pos hfull]
  rfl

theorem stops (hroom : ¬scSlots s p < scRefd s p + (scDistinct f.bytes f.cap.list).length) {e : Stop}
    (he : (scanRefs p (scDistinct f.bytes f.cap.list) s).2 = some e) : scanAdmit p s = scanStop f.fid e s := by
  rw [h.takes, h.take_eq, if_neg hroom, he]

theorem admits (hroom : ¬scSlots s p < scRefd s p + (scDistinct f.bytes f.cap.list).length)
    (hrefs : (scanRefs p (scDistinct f.bytes f.cap.list) s).2 = none) : scanAdmit p s = scanTaken p f w s := by
  rw [h.takes, h.take_eq, if_neg hroom, hrefs]
  rfl

/-- A SCAN that does not fit waits, and is counted once. -/
theorem waitsCounted (hfull : scSlots s p < scRefd s p + (scDistinct f.bytes f.cap.list).length) :
    GoesOn f (fun g => g.result = none ∧ g.work = .scan w.waiting) (scanAdmit p s) ∧
      Only [.flights, .regs .scn] s (scanAdmit p s) ∧
      CountsUp (pgScn p) Fld.SCN_ADMIT_WAIT (if w.waited then 0 else 1) s (scanAdmit p s) := by
  have hwork : Reach [.flights] s (reworked f.fid (.scan w.waiting) s) :=
    updFlight_reach (by decide) (fun _ => ⟨fun _ => nofun, id⟩) .rfl'
  have hcount : Reach [.regs .scn] (reworked f.fid (.scan w.waiting) s) (scanAdmit p s) := by
    rw [h.full hfull]
    exact wh_reach (fun _ hx => inc_reach (by simp) hx) .rfl'
  refine ⟨⟨_, (flightOf_of_flights (flights_of_reach hcount (by decide)) _).trans (flightOf_reworked h.found _),
    ⟨rfl, fun _ => nofun, id⟩, h.noResult, rfl⟩, ((hwork.comp hcount).mono (by decide)).frame, ?_⟩
  have hsame := ScnKept.of_reach (l := []) (p := p) hwork (by decide) Fld.SCN_ADMIT_WAIT (by decide)
  rw [h.full hfull, wh]
  cases w.waited with
  | false => exact (countsUp_inc (by decide) 1 _).congr hsame rfl
  | true =>
    refine hsame.trans ?_
    exact (Nat.mod_eq_of_lt (Nat.mod_lt _ (by decide))).symm

theorem scanTaken_flight : flightOf (scanTaken p f w s) f.fid = some { f with
    snap := some (scanTaken p f w s).mem
    work := .scan (w.admittedWith (scDistinct f.bytes f.cap.list).length) } := by
  rw [scanTaken_mem]
  exact flightOf_updFlight_eq _ ((flightOf_of_flights (flights_of_reach (scanRefs_only ..) (by decide)) _).trans h.found)

/-- A SCAN that runs to its end goes on after its admission. -/
theorem runs (hadmits : scanAdmit p s = scanTaken p f w s) : scanGo f.fid s = scanGo f.fid (scanTaken p f w s) := by
  obtain ⟨-, hop, hr, hopen⟩ := scanFlight_some h.flight
  have hnext := scanFlight_of_work h.scanTaken_flight hop hr
    ((scratchShut_of_parts (parts_of_reach (scanTaken_only ..) (by decide)) f.q).trans hopen) rfl
  rw [scanGo_eq h.flight, h.waits, if_neg nofun, scanGo_eq hnext, if_pos (by rfl), h.queue, hadmits]

/-- The references of a SCAN on a single stream. -/
theorem refers {t : Nat} (ht : scDistinct f.bytes f.cap.list = [t]) (hrefs : (scanRefs p (scDistinct f.bytes f.cap.list) s).2 = none) :
    MemHolds [(scEntry s p t + 4, toLE 4 (scF s p t 4 4 + 1))] s (scanTaken p f w s) := by
  have htier : ownTier (scEntry s p t) = true := ownTier_of_ownStruct (by decide) (h.owned t (by simp [ht]))
  have hput : scanRefs p [t] s = scPut .beside p t 4 4 (scF s p t 4 4 + 1) (s, none) := by rw [scanRefs, List.foldl_cons, List.foldl_nil]
  rw [ht, hput] at hrefs
  refine (scPut_holds (r := (s, none)) htier (by decide) (by decide) hrefs).2.of_mem rfl ?_
  rw [scanTaken_mem, ht, hput]

end ScanJudged

/-- What the judgement of the partition's next SCAN makes of it. -/
theorem scanAdmit_judges (hrun : Running s) (h : ScanNext p s f w) :
    let ds := scDistinct f.bytes f.cap.list
    let lost := ∃ t, t ∈ ds ∧ ownStruct s p (scEntry s p t) 32 = false
    let unused := ∃ t, t ∈ ds ∧ scState s p t = 0
    let full := scSlots s p < scRefd s p + ds.length
    let go := exec (.scanAdmit p) s
    let stops (r : Try) : Prop := ∀ e, r.2 = some e → NextIs go fun u => u.mem = s.mem ∧
      GoesOn f (fun g => g.result = if e.code = heldMark then none else some e.code) u
    (lost → NextIs go fun u => GoesOn f (fun g => g.result = some 0x20) u ∧ Only [.flights] s u) ∧
    (¬lost → stops (scanEntries p ds s)) ∧
    (¬lost → (scanEntries p ds s).2 = none → unused → NextIs go fun u =>
      GoesOn f (fun g => g.result = some 0x13) u ∧ Only [.flights] s u) ∧
    (¬lost → (scanEntries p ds s).2 = none → ¬unused → full → NextIs go fun u =>
      GoesOn f (fun g => g.result = none ∧ g.work = .scan w.waiting) u ∧ Only [.flights, .regs .scn] s u ∧
      CountsUp (pgScn p) Fld.SCN_ADMIT_WAIT (if w.waited then 0 else 1) s u) ∧
    (¬lost → (scanEntries p ds s).2 = none → ¬unused → ¬full → stops (scanRefs p ds s) ∧
      ((scanRefs p ds s).2 = none → NextIs go fun u => u.mem = (scanRefs p ds s).1.mem ∧
        GoesOn f (fun g => g.result = none ∧ g.snap = some u.mem ∧ g.work = .scan (w.admittedWith ds.length)) u ∧
        (ds = [] → u.mem = s.mem) ∧ (∀ t, ds = [t] → MemHolds [(scEntry s p t + 4, toLE 4 (scF s p t 4 4 + 1))] s u) ∧
        exec (.scan f.fid) s = exec (.scan f.fid) u)) := by
  intro ds lost unused full go stops
  have hgo : go = .next (scanAdmit p s) := exec_scanAdmit hrun
  have hown (hl : ¬lost) : EntriesOwned p ds s := fun t ht => by
    by_contra hno
    exact hl ⟨t, ht, Bool.not_eq_true _ ▸ hno⟩
  refine ⟨fun hl => ⟨_, hgo, ?_⟩, fun hl e he => ⟨_, hgo, ?_⟩, fun hl hread hu => ⟨_, hgo, ?_⟩,
    fun hl hread hu hfull => ⟨_, hgo, ?_⟩, fun hl hread hu hroom => ⟨fun e he => ⟨_, hgo, ?_⟩, fun hrefs => ?_⟩⟩
  · rw [scanAdmit_lost h hl]
    exact h.ends 0x20
  · rw [scanAdmit_stops h (hown hl) he]
    exact scanStop_ends h.found h.noResult e
  · rw [scanAdmit_unused h (hown hl) hread hu]
    exact h.ends 0x13
  · exact (ScanJudged.mk h (hown hl) hread hu).waitsCounted hfull
  · rw [(ScanJudged.mk h (hown hl) hread hu).stops hroom he]
    exact scanStop_ends h.found h.noResult e
  · have hj : ScanJudged p s f w := ⟨h, hown hl, hread, hu⟩
    have hadmits := hj.admits hroom hrefs
    refine ⟨scanTaken p f w s, hgo.trans (congrArg _ hadmits), scanTaken_mem ..,
      ⟨_, hj.scanTaken_flight, ⟨rfl, fun _ => nofun, id⟩, hj.noResult, rfl, rfl⟩, fun hnone => ?_,
      fun t ht => hj.refers ht hrefs, ?_⟩
    · have hds : scDistinct f.bytes f.cap.list = [] := hnone
      rw [scanTaken_mem, hds]
      rfl
    · rw [exec_scan hrun, exec_scan (running_of_reach (scanTaken_only ..) (by decide) hrun), hj.runs hadmits]

end

end Sys2Proof.Machine
end

section
/-!
PROOFS. A chunk of a head of a SCAN (R180, R193, R195): the run that no code stops, what it leaves in memory and of the SCAN's work, and the
SCAN's result after the last chunk of all.
-/
namespace Sys2Proof.Machine

theorem exec_scanChunk {fid n h : Nat} {s : State} (hr : Running s) : exec (.scanChunk fid n h) s = .next (scanChunk fid n h s) :=
  congrArg Host.Outcome.next (wh_running hr _)

section
variable {fid n h a : Nat} {s t : State} {f : Flight} {w v : ScanWork} {sl : ScnSlot}

/-! ### The chunk (R180) -/

/-- The first row of the next chunk of a head of an item. -/
def chunkRow (f : Flight) (w : ScanWork) (n h : Nat) : Nat := (scItem f.cap.list n).2.1 + chunksDone w n h * scLc f.bytes

/-- The steps of the next chunk of a head of an item. -/
def chunkLen (f : Flight) (w : ScanWork) (n h : Nat) : Nat :=
  min (scLc f.bytes) ((scItem f.cap.list n).2.2 - chunksDone w n h * scLc f.bytes)

/-- The image that the next chunk reads: the current one for the first chunk of the stream. -/
def chunkSrc (s : State) (f : Flight) (w : ScanWork) (n h : Nat) (sl : ScnSlot) : Nat :=
  scImage s f.q sl.slot (if (earlierItems f n).isEmpty && chunksDone w n h == 0 then sl.cur else 1 - sl.cur)

/-- The image that a chunk writes. -/
def chunkDst (s : State) (f : Flight) (sl : ScnSlot) : Nat := scImage s f.q sl.slot (1 - sl.cur)

/-- The steps that the stream has counted before the next chunk. -/
def chunkSteps (s : State) (f : Flight) (w : ScanWork) (n h : Nat) : Nat :=
  scF s f.q (scItem f.cap.list n).1 16 8 + (earlierItems f n).foldl (fun b i => b + (scItem f.cap.list i).2.2) 0 +
    chunksDone w n h * scLc f.bytes

/-- What the next chunk reads. -/
def chunkInputs (s : State) (f : Flight) (w : ScanWork) (n h : Nat) (sl : ScnSlot) : List (Nat × Nat) :=
  scanReads s f h (chunkRow f w n h) (chunkLen f w n h) (chunkSrc s f w n h sl)

/-- The reads of the next chunk, once its requests proceed. -/
def chunkRead (fid : Nat) (s : State) (f : Flight) (w : ScanWork) (n h : Nat) (sl : ScnSlot) : State × Option Nat :=
  readAll .yard f.q (chunkInputs s f w n h sl) (proceed fid s)

/-- What the next chunk gives. -/
def chunkGives (s : State) (f : Flight) (w : ScanWork) (n h : Nat) (sl : ScnSlot) : ChunkOut :=
  chunkOut (snapOf s f) s.mem f w.ofmt (scFmt s f.q) (scH s f.q) (scN s f.q) (scP s f.q) h (scItem f.cap.list n).1 (chunkRow f w n h)
    (chunkLen f w n h) (chunkSteps s f w n h) (chunkSrc s f w n h sl) (chunkDst s f sl)

/-- What a chunk gives, as it is written. -/
def ChunkOut.writes (o : ChunkOut) (ofmt : Fmt) : List (Nat × List Byte) :=
  joinWrites (o.ys.map fun e => (e.1, toLE (fmtBytes ofmt) e.2.word)) ++ joinWrites (o.state.map fun e => (e.1, toLE 4 e.2))

/-- A chunk that runs on array `a`, waits for nothing, meets no code and does not overflow. -/
structure ChunkRuns (fid n h : Nat) (s : State) (f : Flight) (w : ScanWork) (sl : ScnSlot) (a : Nat) : Prop where
  flight : scanFlight s fid = some (f, w)
  ready : scanReady s f w n = true
  head : h < scH s f.q
  left : chunksDone w n h < scChunks f n
  going : arraysStopped s = false
  slot : scSlotOf s f.q (scItem f.cap.list n).1 = some sl
  free : mustWait s fid (chunkInputs s f w n h sl)
    (scanWrites s f w.ofmt h (chunkRow f w n h) (chunkLen f w n h) (chunkDst s f sl)) = false
  placed : scanPlace s f h (chunkSrc s f w n h sl) (candidatesBy s f (bit 0 (bF f.bytes 37 1))) = some a
  read : (chunkRead fid s f w n h sl).2 = none
  good : (chunkGives s f w n h sl).bad = false
  fits : ((chunkGives s f w n h sl).ys.any fun e => e.2.overflow) = false
  written : (writeAll .yard f.q fid ((chunkGives s f w n h sl).writes w.ofmt) (chunkRead fid s f w n h sl).1).2 = none

/-- The pieces that the counts of a chunk can change. -/
def chunkPieces : List Piece := [.regs .dsp, .regs .clk, .regs .ras, .regs .evr, .arrs, .evr, .freeCtr]

/-- The run of a chunk is counted at its array. -/
def chunkCounted (s : State) (f : Flight) (w : ScanWork) (n h : Nat) (sl : ScnSlot) (a : Nat) (u : State) : State :=
  countPin f (bit 0 (bF f.bytes 37 1)) (pinActs s f (bit 0 (bF f.bytes 37 1)))
    (scanPlace s f h (chunkSrc s f w n h sl) (idleArrays s f.q)) a (countChunk a (scN s f.q) (scP s f.q) (chunkLen f w n h) u)

theorem chunkCounted_reach (s : State) (f : Flight) (w : ScanWork) (n h : Nat) (sl : ScnSlot) (a : Nat) (u : State) :
    Reach chunkPieces u (chunkCounted s f w n h sl a u) :=
  countPin_reach (by decide) (by decide) (by decide) (by decide) (by decide)
    (countChunk_reach (by decide) (by decide) (by decide) .rfl')

/-- The writes of a chunk. -/
def chunkWritten (fid : Nat) (s : State) (f : Flight) (w : ScanWork) (n h : Nat) (sl : ScnSlot) (a : Nat) : State × Option Nat :=
  writeAll .yard f.q fid ((chunkGives s f w n h sl).writes w.ofmt) (chunkCounted s f w n h sl a (chunkRead fid s f w n h sl).1)

/-- The work of a SCAN after a chunk of head `h` of item `n` on array `a`. -/
def ScanWork.after (w : ScanWork) (n h a : Nat) (o : ChunkOut) : ScanWork :=
  { w with
    chunks := (w.chunks.filter fun e => e.1 != (n, h)) ++ [((n, h), chunksDone w n h + 1)]
    special := tabAdd w.special a (o.ys.filter fun e => e.2.special).length
    hand := w.hand + o.special }

/-- The work of a SCAN after a chunk. -/
def chunkWork (s : State) (f : Flight) (w : ScanWork) (n h : Nat) (sl : ScnSlot) (a : Nat) : ScanWork :=
  w.after n h a (chunkGives s f w n h sl)

/-- What a chunk leaves before its writes. -/
theorem chunkReady_only (fid : Nat) (s : State) (f : Flight) (w : ScanWork) (n h : Nat) (sl : ScnSlot) (a : Nat) :
    Reach ([.retrain] ++ readPieces ++ chunkPieces) s (chunkCounted s f w n h sl a (chunkRead fid s f w n h sl).1) := by
  have hproceeds : Reach [.retrain] s (proceed fid s) := proceed_reach (by decide) .rfl'
  have hread : Reach readPieces (proceed fid s) (chunkRead fid s f w n h sl).1 := readAll_pieces ..
  exact (hproceeds.comp hread).comp (chunkCounted_reach ..)

/-- The pieces that a chunk can change but for the SCAN itself. -/
def chunkRunPieces : List Piece := [.retrain] ++ readPieces ++ chunkPieces ++ memAccess

theorem chunkWritten_only (fid : Nat) (s : State) (f : Flight) (w : ScanWork) (n h : Nat) (sl : ScnSlot) (a : Nat) :
    Reach chunkRunPieces s (chunkWritten fid s f w n h sl a).1 := (chunkReady_only fid s f w n h sl a).comp (writeAll_pieces ..)

/-- The state in which a chunk is done. -/
def chunkLeft (fid : Nat) (s : State) (f : Flight) (w : ScanWork) (n h : Nat) (sl : ScnSlot) (a : Nat) : State :=
  reworked fid (.scan (chunkWork s f w n h sl a)) (chunkWritten fid s f w n h sl a).1

theorem chunkLeft_only (fid : Nat) (s : State) (f : Flight) (w : ScanWork) (n h : Nat) (sl : ScnSlot) (a : Nat) :
    Reach (chunkRunPieces ++ [.flights]) s (chunkLeft fid s f w n h sl a) :=
  (chunkWritten_only ..).comp (updFlight_reach (by decide) (fun _ => ⟨fun _ => nofun, id⟩) .rfl')

/-! ### The end of a SCAN (R195) -/

/-- The code of a SCAN that ends without overflow: OK, or OVERFLOW_REPLAYED after replays. -/
def ScanWork.code (w : ScanWork) : Nat := if w.pass = 0 then 0 else 0x40

/-- The reports of a SCAN that ends. -/
def scanReported (f : Flight) (w : ScanWork) (s : State) : State :=
  let s := raiseArrays f.q 0x0A 1 w.special s
  let s := wh (w.hand != 0) (raiseV (pgScn f.q) 0x0A 0 1 (some f.q) 0 w.hand (binLog w.hand)) s
  match w.first with
  | some pg => raiseV pg 0x08 0x40 (fmtCode w.ofmt) (some f.q) 0 w.pass (binLin w.pass) s
  | none => s

theorem scanReported_only (f : Flight) (w : ScanWork) (s : State) :
    Reach [.regs .ras, .regs .evr, .evr, .freeCtr] s (scanReported f w s) := by
  have hraised : Reach [.regs .ras, .regs .evr, .evr, .freeCtr] s
      (wh (w.hand != 0) (raiseV (pgScn f.q) 0x0A 0 1 (some f.q) 0 w.hand (binLog w.hand)) (raiseArrays f.q 0x0A 1 w.special s)) :=
    wh_reach (fun _ h => raiseV_reach (by decide) (by decide) (by decide) (by decide) h)
      (raiseArrays_reach (by decide) (by decide) (by decide) (by decide) .rfl')
  unfold scanReported
  dsimp only
  split
  · exact raiseV_reach (by decide) (by decide) (by decide) (by decide) hraised
  · exact hraised

theorem scanDone_ends (hflight : scanFlight s fid = some (f, w)) (hadm : w.admitted = true) (hovf : w.ovf = false)
    (hall : allBelow (scItems f.bytes) (fun i => itemDone s f w i) = true) : scanDone fid s =
      finish fid w.code 0 (updFlight fid (fun f => { f with replays := w.pass }) (scanReported f w s)) := by
  unfold scanDone
  simp only [hflight]
  rw [if_neg (by simp [hadm, hovf, hall])]
  unfold ScanWork.code scanReported
  cases w.first <;> rfl

theorem scanDone_goesOn (hflight : scanFlight s fid = some (f, w))
    (hall : allBelow (scItems f.bytes) (fun i => itemDone s f w i) = false) : scanDone fid s = s := by
  unfold scanDone
  simp only [hflight]
  exact if_pos (by simp [hall])

theorem scanDone_none (hflight : scanFlight s fid = none) : scanDone fid s = s := by rw [scanDone, hflight]

/-- The pieces that the end of a SCAN can change. -/
def scanEndPieces : List Piece := [.regs .ras, .regs .evr, .flights, .evr, .freeCtr]

theorem scanDone_only (fid : Nat) (s : State) : Reach scanEndPieces s (scanDone fid s) :=
  scanDone_reach (by decide) (by decide) (by decide) (by decide) (by decide) .rfl'

/-- A SCAN after a chunk, as its descriptor shows it; `all` says whether every item is done. -/
def scanShown (f : Flight) (v : ScanWork) (all : Bool) : Flight :=
  if all then { f with work := .scan v, replays := v.pass, result := some v.code, detail := 0 } else { f with work := .scan v }

theorem scanDone_flight (hflight : scanFlight s fid = some (f, w)) (hadm : w.admitted = true) (hovf : w.ovf = false)
    (hw : f.work = .scan w) :
    flightOf (scanDone fid s) fid = some (scanShown f w (allBelow (scItems f.bytes) fun i => itemDone s f w i)) := by
  obtain ⟨hf, -, hr, -⟩ := scanFlight_some hflight
  have hself : { f with work := .scan w } = f := by rw [← hw]
  unfold scanShown
  split
  next hall =>
    have hreported : flightOf (scanReported f w s) fid = some f :=
      (flightOf_of_flights (flights_of_reach (scanReported_only ..) (by decide)) fid).trans hf
    rw [scanDone_ends hflight hadm hovf hall]
    have hend := finish_flight (flightOf_updFlight_eq (fun f => { f with replays := w.pass }) hreported) hr w.code 0
    rw [hend, ← hw]
  next hall => rw [scanDone_goesOn hflight (Bool.not_eq_true _ ▸ hall), hf, hself]

/-! ### The chunk's effect -/

theorem scanReady_parts (h : scanReady s f w n = true) :
    w.admitted = true ∧ w.ovf = false ∧ n < scItems f.bytes ∧ scState s f.q (scItem f.cap.list n).1 = 2 := by
  simp only [scanReady, Bool.and_eq_true, Bool.not_eq_true', decide_eq_true_eq, beq_iff_eq] at h
  exact ⟨h.1.1.1.1.1, h.1.1.1.1.2, h.1.1.1.2, h.1.1.2⟩

theorem scanStore_stores (hf : f.fid = fid) {o : ChunkOut} (hgood : o.bad = false) (hfits : (o.ys.any fun e => e.2.overflow) = false)
    (hwritten : (writeAll .yard f.q fid (o.writes w.ofmt) t).2 = none) : scanStore f w a n h (chunksDone w n h) o t =
      scanDone fid (reworked fid (.scan (w.after n h a o)) (writeAll .yard f.q fid (o.writes w.ofmt) t).1) := by
  obtain rfl := hf
  unfold scanStore
  rw [hgood, hfits, if_neg nofun, if_neg nofun]
  dsimp only
  split
  next c hc => exact absurd (hc.symm.trans hwritten) nofun
  next => rfl

namespace ChunkRuns

variable (hc : ChunkRuns fid n h s f w sl a)
include hc

/-- The counts do not change what the writes meet. -/
theorem passes : (chunkWritten fid s f w n h sl a).2 = none :=
  (writeAll_access (access_of_reach (chunkCounted_reach ..) (by decide) (by decide)) _ _ _ _).1.trans hc.written

theorem step : scanChunk fid n h s = scanDone fid (chunkLeft fid s f w n h sl a) := by
  have hguard : ¬((!scanReady s f w n) = true ∨ scH s f.q ≤ h ∨ scChunks f n ≤ chunksDone w n h ∨ arraysStopped s = true) := by
    simp [hc.ready, hc.head, hc.left, hc.going]
  have hstores := scanStore_stores (n := n) (h := h) (a := a) (flightOf_mem (scanFlight_some hc.flight).1).2 hc.good hc.fits hc.passes
  have hfree := hc.free
  have hplaced := hc.placed
  have hread := hc.read
  simp only [chunkRead, chunkInputs, chunkRow, chunkLen, chunkSrc, chunkDst] at hfree hplaced hread
  unfold scanChunk
  simp only [hc.flight]
  rw [if_neg hguard]
  simp only [hc.slot, hfree, hplaced, hread, Bool.false_eq_true, if_false]
  exact hstores

theorem writes : MemHolds ((chunkGives s f w n h sl).writes w.ofmt) s (scanChunk fid n h s) := by
  have hwritten : MemHolds ((chunkGives s f w n h sl).writes w.ofmt)
      (chunkCounted s f w n h sl a (chunkRead fid s f w n h sl).1) (chunkWritten fid s f w n h sl a).1 :=
    writeAll_holds _ _ _ _ _ hc.passes
  have hready := mem_of_reach (chunkReady_only fid s f w n h sl a) (by decide)
  have hmem : (scanDone fid (chunkLeft fid s f w n h sl a)).mem = (chunkWritten fid s f w n h sl a).1.mem := by
    rw [mem_of_reach (scanDone_only ..) (by decide), chunkLeft, reworked, updFlight_mem]
  rw [hc.step]
  exact hwritten.of_mem hready hmem

theorem left_flight : flightOf (chunkLeft fid s f w n h sl a) fid = some { f with work := .scan (chunkWork s f w n h sl a) } :=
  flightOf_reworked ((flightOf_of_flights (flights_of_reach (chunkWritten_only fid s f w n h sl a) (by decide)) fid).trans
    (scanFlight_some hc.flight).1) (.scan (chunkWork s f w n h sl a))

theorem left_scan : scanFlight (chunkLeft fid s f w n h sl a) fid =
    some ({ f with work := .scan (chunkWork s f w n h sl a) }, chunkWork s f w n h sl a) := by
  obtain ⟨-, hop, hr, hopen⟩ := scanFlight_some hc.flight
  have hparts := parts_of_reach (chunkLeft_only fid s f w n h sl a) (by decide)
  exact scanFlight_of_work hc.left_flight hop hr ((scratchShut_of_parts hparts f.q).trans hopen) rfl

theorem shown : flightOf (scanChunk fid n h s) fid = some (scanShown f (chunkWork s f w n h sl a)
    (allBelow (scItems f.bytes) fun i => itemDone s f (chunkWork s f w n h sl a) i)) := by
  obtain ⟨hadm, hovf, -, -⟩ := scanReady_parts hc.ready
  have hheads : scH (chunkLeft fid s f w n h sl a) f.q = scH s f.q :=
    (ScnKept.of_reach (chunkLeft_only fid s f w n h sl a) (by decide)).heads
  have hdone := funext fun i => itemDone_of_heads (f := f) hheads (chunkWork s f w n h sl a) i
  rw [hc.step, scanDone_flight hc.left_scan hadm hovf rfl]
  exact congrArg (fun d => some (scanShown f (chunkWork s f w n h sl a) (allBelow (scItems f.bytes) d))) hdone

end ChunkRuns

/-- One chunk more of the head is done, and of no other. -/
theorem chunksDone_after (w : ScanWork) (n h a : Nat) (o : ChunkOut) :
    chunksDone (w.after n h a o) n h = chunksDone w n h + 1 ∧
      ∀ n' h', (n', h') ≠ (n, h) → chunksDone (w.after n h a o) n' h' = chunksDone w n' h' := by
  refine ⟨?_, fun n' h' hne => ?_⟩
  · have hgone : (w.chunks.filter fun e => e.1 != (n, h)).find? (fun x => x.1 == (n, h)) = none := by
      simp
    simp [chunksDone, ScanWork.after, List.find?_append, hgone]
  · have hkept : (w.chunks.filter fun e => e.1 != (n, h)).find? (fun x => x.1 == (n', h')) =
        w.chunks.find? fun x => x.1 == (n', h') := by
      rw [List.find?_filter]
      congr 1
      funext x
      by_cases hx : x.1 = (n', h') <;> simp [hx, hne]
    have hlast : [((n, h), chunksDone w n h + 1)].find? (fun x => x.1 == (n', h')) = none := by
      simpa using Ne.symm hne
    have hfind : (w.after n h a o).chunks.find? (fun x => x.1 == (n', h')) = w.chunks.find? fun x => x.1 == (n', h') := by
      rw [ScanWork.after, List.find?_append, hkept, hlast, Option.or_none]
    simp only [chunksDone, hfind]

/-- What a chunk leaves for the SCAN: work with one chunk more of the head, and a result after the last chunk of all. -/
theorem scanShown_progress (hr : f.result = none) (all : Bool) : Continues f (scanShown f v all) ∧ (scanShown f v all).work = .scan v ∧
    (scanShown f v all).result = if all then some v.code else none := by
  cases all with
  | true => exact ⟨⟨rfl, fun _ => nofun, fun _ => nofun⟩, rfl, rfl⟩
  | false => exact ⟨⟨rfl, fun _ => nofun, id⟩, rfl, hr⟩

end

end Sys2Proof.Machine
end

section
/-!
PROOFS. A SCAN of a single item with one chunk left (R193), and SCAN by its admission and its chunks.
-/
namespace Sys2Proof.Machine

/-- Steps that all leave a state leave it together. -/
theorem foldl_stays {α : Type} {g : State → α → State} {l : List α} {s : State} (h : ∀ x, x ∈ l → g s x = s) :
    l.foldl g s = s :=
  List.foldlRecOn (motive := fun t => t = s) l g rfl fun t ht x hx => by rw [ht, h x hx]

/-- Steps of which some change the state, all to one outcome, and the rest leave both. -/
theorem foldl_once {α : Type} {g : State → α → State} {c : α → Prop} {s u : State} {l : List α} (hex : ∃ x, x ∈ l ∧ c x)
    (hbeside : ∀ x, x ∈ l → ¬c x → g s x = s) (hat : ∀ x, x ∈ l → c x → g s x = u)
    (hafter : ∀ x, x ∈ l → g u x = u) : l.foldl g s = u := by
  induction l with
  | nil => simp at hex
  | cons x l ih =>
    have hrest {P : α → Prop} (h : ∀ y, y ∈ x :: l → P y) : ∀ y, y ∈ l → P y := fun y hy => h y (List.mem_cons_of_mem _ hy)
    rw [List.foldl_cons]
    by_cases hx : c x
    · rw [hat x List.mem_cons_self hx]
      exact foldl_stays (hrest hafter)
    · rw [hbeside x List.mem_cons_self hx]
      refine ih ?_ (hrest hbeside) (hrest hat) (hrest hafter)
      obtain ⟨y, hy, hcy⟩ := hex
      exact ⟨y, (List.mem_cons.mp hy).resolve_left fun he => hx (he ▸ hcy), hcy⟩

/-! ### Steps on a stream that is RESIDENT -/

section
variable {p t : Nat} {s : State}

theorem swapOutComplete_id (h : scState s p t ≠ 3) : swapOutComplete p t s = s := if_pos (.inl h)

theorem swapInComplete_id (h : scState s p t ≠ 4) : swapInComplete p t s = s := if_pos (.inl h)

theorem swapInStart_id (h : scState s p t ≠ 1) : swapInStart p t s = s := if_pos (.inl h)

theorem streamSwapIn_id (h : scState s p t ≠ 1) : streamSwapIn p t s = s := by
  rw [streamSwapIn, swapInStart_id h, ite_self]

/-- Without a swap-out in progress there is none to end. -/
theorem swapOutsEnd_id (h : ∀ y, y ∈ (sc s p).slots → scState s p y.stream ≠ 3) : swapOutsEnd p s = s :=
  foldl_stays fun y hy => if_neg (by simpa using h y hy)

theorem scBringIn_resident (hs : scState s p t = 2) (h : ∀ y, y ∈ (sc s p).slots → scState s p y.stream ≠ 3) :
    scBringIn p t s = s := by
  have hin : swapInComplete p t s = s := swapInComplete_id (by omega)
  have hstart : streamSwapIn p t s = s := streamSwapIn_id (by omega)
  unfold scBringIn
  dsimp only
  rw [swapOutComplete_id (by omega), hin, hstart, swapOutsEnd_id h, hstart, hin]

end

/-! ### Chunks that do not run -/

section
variable {fid n h : Nat} {s : State} {f : Flight} {w : ScanWork}

theorem scanChunk_none (hflight : scanFlight s fid = none) : scanChunk fid n h s = s := by rw [scanChunk, hflight]

theorem scanChunk_done (hflight : scanFlight s fid = some (f, w)) (hd : scChunks f n ≤ chunksDone w n h) :
    scanChunk fid n h s = s := by
  unfold scanChunk
  simp only [hflight]
  exact if_pos (.inr (.inr (.inl hd)))

theorem scanHead_stays (hstays : scanChunk fid n h s = s) : ∀ k, scanHead fid n h k s = s
  | 0 => rfl
  | k + 1 => by rw [scanHead, hstays, scanHead_stays hstays k]

theorem scanFlight_ended {g : Flight} {code : Nat} (hf : flightOf s fid = some g) (hr : g.result = some code) :
    scanFlight s fid = none := by simp [scanFlight, hf, hr]

/-- An item of which a chunk is left has rows. -/
theorem item_rows (hleft : 0 < scChunks f n) : (scItem f.cap.list n).2.2 ≠ 0 := fun hz => by
  simp [scChunks, hz, ceilDiv] at hleft
  omega

/-- A chunk of a head, the last one left of a SCAN of a single item. -/
structure ChunkSole (f : Flight) (w : ScanWork) (n h : Nat) (s : State) : Prop where
  single : scItems f.bytes = 1
  last : chunksDone w n h + 1 = scChunks f n
  others : ∀ k, k < scH s f.q → k ≠ h → scChunks f n ≤ chunksDone w n k
  quiet : ∀ y, y ∈ (sc s f.q).slots → scState s f.q y.stream ≠ 3

variable {sl : ScnSlot} {a : Nat}

/-- The last chunk left of a SCAN of a single item gives the SCAN its result. -/
theorem ChunkRuns.finishes (hc : ChunkRuns fid n h s f w sl a) (hs : ChunkSole f w n h s) :
    scanFlight (scanChunk fid n h s) fid = none := by
  obtain ⟨-, -, hn, -⟩ := scanReady_parts hc.ready
  obtain rfl : n = 0 := by have hsingle := hs.single; omega
  obtain ⟨hself, hother⟩ := chunksDone_after w 0 h a (chunkGives s f w 0 h sl)
  have hdone : itemDone s f (chunkWork s f w 0 h sl a) 0 = true := by
    simp only [itemDone, allBelow, List.all_eq_true, List.mem_range, decide_eq_true_eq]
    intro k hk
    by_cases hkh : k = h
    · rw [hkh, chunkWork, hself, hs.last]
    · rw [chunkWork, hother 0 k (by simpa using hkh)]
      exact hs.others k hk hkh
  have hshown := hc.shown
  rw [hs.single, show allBelow 1 (fun i => itemDone s f (chunkWork s f w 0 h sl a) i) = true by simpa [allBelow] using hdone] at hshown
  exact scanFlight_ended hshown rfl

/-- A SCAN of a single item with one chunk left does that chunk (R193). -/
theorem ChunkRuns.completes (hc : ChunkRuns fid n h s f w sl a) (hs : ChunkSole f w n h s) : scanGo fid s = scanChunk fid n h s := by
  obtain ⟨hadm, -, hn, hstate⟩ := scanReady_parts hc.ready
  have hended := hc.finishes hs
  obtain ⟨k, hk⟩ : ∃ k, scChunks f n = k + 1 := ⟨_, hs.last.symm⟩
  obtain rfl : n = 0 := by have hsingle := hs.single; omega
  have hheads : (List.range (scH s f.q)).foldl (fun s h => scanHead fid 0 h (scChunks f 0) s) s = scanChunk fid 0 h s := by
    refine foldl_once (c := fun j => j = h) ⟨h, List.mem_range.mpr hc.head, rfl⟩ (fun j hj hne => ?_) ?_
      fun j _ => scanHead_stays (scanChunk_none hended) _
    · exact scanHead_stays (scanChunk_done hc.flight (hs.others j (List.mem_range.mp hj) hne)) _
    · rintro j - rfl
      rw [hk, scanHead]
      exact scanHead_stays (scanChunk_none hended) k
  rw [scanGo_eq hc.flight, if_pos hadm, scansOn, hc.flight]
  simp only [hadm, hs.single, List.range_one, List.foldl_cons, List.foldl_nil, Bool.not_true, Bool.false_eq_true, if_false,
    item_rows (Nat.lt_of_le_of_lt (Nat.zero_le _) hc.left), scBringIn_resident hstate hs.quiet, hheads]
  exact scanDone_none hended

/-- What a chunk leaves: its rows of y and its next state in memory, and the SCAN one chunk further. -/
theorem ChunkRuns.effect (hrun : Running s) (hc : ChunkRuns fid n h s f w sl a) :
    NextIs (exec (.scanChunk fid n h) s) fun u => MemHolds ((chunkGives s f w n h sl).writes w.ofmt) s u ∧
      (∃ g v, flightOf u fid = some g ∧ Continues f g ∧ g.work = .scan v ∧ chunksDone v n h = chunksDone w n h + 1 ∧
        (∀ n' h', (n', h') ≠ (n, h) → chunksDone v n' h' = chunksDone w n' h') ∧
        g.result = if allBelow (scItems f.bytes) (fun i => itemDone s f v i) then some (if w.pass = 0 then 0 else 0x40) else none) ∧
      (ChunkSole f w n h s → exec (.scan fid) s = .next u) := by
  obtain ⟨hcont, hwork, hresult⟩ := scanShown_progress (v := chunkWork s f w n h sl a) (scanFlight_some hc.flight).2.2.1
    (allBelow (scItems f.bytes) fun i => itemDone s f (chunkWork s f w n h sl a) i)
  obtain ⟨hself, hother⟩ := chunksDone_after w n h a (chunkGives s f w n h sl)
  exact ⟨_, exec_scanChunk hrun, hc.writes, ⟨_, _, hc.shown, hcont, hwork, hself, hother, hresult⟩,
    fun hs => (exec_scan hrun).trans (congrArg _ (hc.completes hs))⟩

end

/-- Settles O51: the judgement of the next SCAN, and a chunk of a head, each as its step leaves it. -/
theorem scansAreAdmittedAndRunChunks : Obligations.ScansAreAdmittedAndRunChunks := by
  unfold Obligations.ScansAreAdmittedAndRunChunks
  intro p fid n h s hrun hcanon
  refine ⟨fun f w hnext hflight => scanAdmit_judges hrun ⟨hnext, hflight⟩, ?_⟩
  intro f w a sl hflight hready hhead hleft hgoing hslot q x dn lc row len src dst steps rd r o ws sole hfree hplaced hread hgood
    hfits hwritten
  have hc : ChunkRuns fid n h s f w sl a :=
    ⟨hflight, hready, hhead, hleft, hgoing, hslot, hfree, hplaced, hread, hgood, hfits, hwritten⟩
  obtain ⟨u, hu, hmem, hscan, hsole⟩ := hc.effect hrun
  exact ⟨u, hu, hmem, hscan, fun ⟨hsingle, hlast, hothers, hquiet⟩ => hsole ⟨hsingle, hlast, hothers, hquiet⟩⟩

end Sys2Proof.Machine
end

section
/-!
PROOFS. The start of a swap-in (R187, R197, R349): the slot that it takes, the eviction that it waits for, and what becomes of one that
cannot go on.
-/
namespace Sys2Proof.Machine

theorem exec_streamSwapIn {p t : Nat} {s : State} (h : Running s) : exec (.streamSwapIn p t) s = .next (streamSwapIn p t s) :=
  congrArg Host.Outcome.next (wh_running h _)

theorem exec_swapInComplete {p t : Nat} {s : State} (h : Running s) : exec (.swapInComplete p t) s = .next (swapInComplete p t s) :=
  congrArg Host.Outcome.next (wh_running h _)

theorem exec_swapOutComplete {p t : Nat} {s : State} (h : Running s) : exec (.swapOutComplete p t) s = .next (swapOutComplete p t s) :=
  congrArg Host.Outcome.next (wh_running h _)

/-! ### Several descriptors that end with one code -/

/-- The descriptors of a list end with a code. -/
def finishAll (code : Nat) (l : List Flight) (s : State) : State := l.foldl (fun s f => finish f.fid code 0 s) s

theorem finishAll_only (code : Nat) (l : List Flight) (s : State) : Reach [.flights] s (finishAll code l s) :=
  Reach.foldl (fun _ _ h => finish_reach (by decide) h) .rfl'

theorem flightOf_updFlight_beside {s : State} {k : Nat} {f : Flight} (g : Flight → Flight) (hk : k ≠ f.fid)
    (hf : flightOf s f.fid = some f) : flightOf (updFlight k g s) f.fid = some f := by
  have hp : ((fun x : Flight => x.fid == f.fid) ∘ updOne k g) = fun x => x.fid == f.fid := funext fun x => by simp [updOne_fid]
  rw [flightOf, updFlight_flights, List.find?_map, hp, show s.flights.find? (fun x => x.fid == f.fid) = some f from hf]
  exact congrArg some (if_neg hk.symm)

theorem finishAll_beside {code : Nat} {f : Flight} {l : List Flight} (hl : ∀ g, g ∈ l → g.fid ≠ f.fid) {s : State}
    (hf : flightOf s f.fid = some f) : flightOf (finishAll code l s) f.fid = some f :=
  List.foldlRecOn (motive := fun t => flightOf t f.fid = some f) l _ hf fun _ ht _ hg => flightOf_updFlight_beside _ (hl _ hg) ht

/-- A descriptor without a result that stands once in the list has the code. -/
theorem finishAll_result {code : Nat} {f : Flight} {l : List Flight} (hl : l.Pairwise fun g k => g.fid ≠ k.fid) (hmem : f ∈ l)
    {s : State} (hf : flightOf s f.fid = some f) (hr : f.result = none) :
    ∃ g, flightOf (finishAll code l s) f.fid = some g ∧ g.result = some code := by
  obtain ⟨as, bs, rfl⟩ := List.append_of_mem hmem
  obtain ⟨-, hbs, hcross⟩ := List.pairwise_append.mp hl
  obtain ⟨hafter, -⟩ := List.pairwise_cons.mp hbs
  have hbefore := finishAll_beside (code := code) (fun g hg => hcross g hg f List.mem_cons_self) hf
  have hend := finish_flight hbefore hr code 0
  have hlast := finishAll_beside (code := code) (f := { f with result := some code, detail := 0 }) (fun g hg => (hafter g hg).symm) hend
  exact ⟨_, by rwa [finishAll, List.foldl_append], rfl⟩

/-! ### A swap-in that cannot go on (R349) -/

/-- The recurrence state of a partition without the swap-in of a stream, which has been lost with a code. -/
def lostFor (t code : Nat) (x : Scn) : Scn :=
  { x with
    slots := x.slots.filter fun y => y.stream != t
    want := x.want.filter fun y => y != t
    lost := x.lost.filter (fun y => y.1 != t) ++ [(t, code)]
    evict := x.evict.filter fun y => y.1 != t }

/-- A stream that is INBOUND becomes SIDED again. -/
def sidedAgain (p t : Nat) (s : State) : Try := if scState s p t = 4 then scPut .beside p t 0 1 1 (s, none) else (s, none)

theorem sidedAgain_eq (p t : Nat) (s : State) :
    wh (scState s p t == 4) (fun s => (scPut .beside p t 0 1 1 (s, none)).1) s = (sidedAgain p t s).1 := by
  unfold sidedAgain wh
  split
  next h => rw [if_pos (beq_iff_eq.mp h)]
  next h => rw [if_neg fun he => h (beq_iff_eq.mpr he)]

theorem sidedAgain_only (p t : Nat) (s : State) : Reach memAccess s (sidedAgain p t s).1 := by
  unfold sidedAgain
  split
  · exact scPut_only .beside p t 0 1 1 (s, none)
  · exact .rfl'

section
variable (p t code : Nat) (s : State)

theorem swapInLost_eq : swapInLost p t code s = finishAll code (s.flights.filter fun f => f.q == p && scanNeeds s f t)
    (setSc p (lostFor t code (sc s p)) (sidedAgain p t s).1) := by
  unfold swapInLost
  rw [sidedAgain_eq]
  rfl

theorem swapInLost_finishes : Reach [.flights] (setSc p (lostFor t code (sc s p)) (sidedAgain p t s).1) (swapInLost p t code s) := by
  rw [swapInLost_eq]
  exact finishAll_only ..

theorem swapInLost_sc : sc (swapInLost p t code s) p = lostFor t code (sc s p) :=
  (sc_of_reach (swapInLost_finishes p t code s) (by decide) p).trans (sc_setSc_same ..)

theorem swapInLost_mem : (swapInLost p t code s).mem = (sidedAgain p t s).1.mem :=
  (mem_of_reach (swapInLost_finishes p t code s) (by decide)).trans (setSc_mem ..)

end

section
variable {p t : Nat} {s : State}

theorem sidedAgain_id (h : scState s p t ≠ 4) : sidedAgain p t s = (s, none) := if_neg h

/-- Every SCAN an item of which needs a stream whose siding is lost ends with the code. -/
theorem swapInLost_ends (hc : Canonical s) (h : scState s p t ≠ 4) (code : Nat) {f : Flight} (hf : f ∈ s.flights) (hq : f.q = p)
    (hneeds : scanNeeds s f t = true) : ∃ g, flightOf (swapInLost p t code s) f.fid = some g ∧ g.result = some code := by
  have hr : f.result = none := by
    unfold scanNeeds at hneeds
    split at hneeds
    next =>
      simp only [Bool.and_eq_true, Option.isNone_iff_eq_none] at hneeds
      exact hneeds.1.1.2
    next => cases hneeds
  have hflights : (setSc p (lostFor t code (sc s p)) s).flights = s.flights := flights_of_reach (setSc_only ..) (by decide)
  rw [swapInLost_eq, sidedAgain_id h]
  refine finishAll_result ((hc.flights.1.imp Nat.ne_of_lt).filter _) (List.mem_filter.mpr ⟨hf, by simp [hq, hneeds]⟩) ?_ hr
  exact (flightOf_of_flights hflights _).trans (flightOf_of_mem hc hf)

/-- A swap-in that has been lost is wanted no more. -/
theorem swapInLost_leaves (code : Nat) :
    (t, code) ∈ (sc (swapInLost p t code s) p).lost ∧ t ∉ (sc (swapInLost p t code s) p).want := by
  rw [swapInLost_sc]
  simp [lostFor]

/-- A step of a swap-in that meets a stop: held, it changes nothing; otherwise the swap-in is lost with the code. -/
def SwapStops (p t : Nat) (s : State) (o : Host.Outcome State Fault Refusal) (r : Try) : Prop :=
  ∀ e, r.2 = some e → if e.code = heldMark then o = .next s else NextIs o fun u => (t, e.code) ∈ (sc u p).lost ∧ t ∉ (sc u p).want

theorem swapStops_of_stop {o : Host.Outcome State Fault Refusal} {r : Try} (h : ∀ e, r.2 = some e → o = .next (swapInStop p t e s)) :
    SwapStops p t s o r := by
  intro e he
  have ho := h e he
  unfold swapInStop at ho
  split
  next hheld => rwa [if_pos hheld] at ho
  next hheld =>
    rw [if_neg hheld] at ho
    exact ⟨_, ho, swapInLost_leaves e.code⟩

/-! ### A free slot (R187) -/

/-- The recurrence state of a partition in which a stream has taken slot `k`. -/
def takenBy (k t : Nat) (x : Scn) : Scn :=
  { x with
    slots := x.slots ++ [⟨k, t, 0⟩]
    lost := x.lost.filter fun y => y.1 != t
    evict := x.evict.filter fun y => y.1 != t }

/-- The steps with which a stream takes slot `k`. -/
def takeSteps (p t k : Nat) (s : State) : Try := scPut .beside p t 24 2 k (scPut .beside p t 0 1 4 (scRead p t (s, none)))

/-- The steps with which a stream's STATE is written, once its entry has been read. -/
def stateSteps (p t v : Nat) (s : State) : Try := scPut .beside p t 0 1 v (scRead p t (s, none))

theorem stateSteps_only (p t v : Nat) (s : State) : Reach memAccess s (stateSteps p t v s).1 := by
  have hput := scPut_only .beside p t 0 1 v (scRead p t (s, none))
  rwa [scRead_fst] at hput

theorem stateSteps_holds {v : Nat} (hown : ownStruct s p (scEntry s p t) 32 = true) (h : (stateSteps p t v s).2 = none) :
    MemHolds [(scEntry s p t, toLE 1 v)] s (stateSteps p t v s).1 := by
  have htier : ownTier (scEntry s p t) = true := ownTier_of_ownStruct (by decide) hown
  have hput := scPut_state_holds (r := scRead p t (s, none)) (by rwa [scRead_fst]) h
  rw [scRead_fst] at hput
  exact hput.2

theorem takeSteps_only (p t k : Nat) (s : State) : Reach memAccess s (takeSteps p t k s).1 :=
  ((stateSteps_only p t 4 s).comp (scPut_only .beside p t 24 2 k (stateSteps p t 4 s))).mono (by decide)

theorem takeSteps_holds {k : Nat} (hown : ownStruct s p (scEntry s p t) 32 = true) (h : (takeSteps p t k s).2 = none) :
    MemHolds [(scEntry s p t, [4]), (scEntry s p t + 24, toLE 2 k)] s (takeSteps p t k s).1 := by
  have hentry : scEntry (stateSteps p t 4 s).1 p t = scEntry s p t := (ScnKept.of_reach (stateSteps_only p t 4 s) (by decide)).entry t
  obtain ⟨hstate, hslot⟩ := scPut_holds (r := stateSteps p t 4 s)
    (by rw [hentry]; exact ownTier_of_ownStruct (by decide) hown) (by decide) (by decide) h
  rw [hentry] at hslot
  exact (stateSteps_holds hown hstate).append hslot

theorem swapInTake_stops {k : Nat} {e : Stop} (he : (takeSteps p t k s).2 = some e) : swapInTake p t k s = swapInStop p t e s := by
  have htook : swapInTake p t k s = swapInTook p t k s (takeSteps p t k s) := rfl
  rw [htook, swapInTook, he]

theorem swapInTake_takes {k : Nat} (h : (takeSteps p t k s).2 = none) :
    swapInTake p t k s = setSc p (takenBy k t (sc s p)) (takeSteps p t k s).1 := by
  have htook : swapInTake p t k s = swapInTook p t k s (takeSteps p t k s) := rfl
  rw [htook, swapInTook, h, ← sc_of_reach (takeSteps_only p t k s) (by decide) p]
  rfl

/-! ### An eviction (R197) -/

/-- The recurrence state of a partition in which the swap-in of a stream waits for the swap-out of stream `k`. -/
def evictFor (t k : Nat) (x : Scn) : Scn := { x with evict := x.evict.filter (fun y => y.1 != t) ++ [(t, k)] }

/-- The swap-in waits for a swap-out in progress. -/
def evictWaits (p t : Nat) (s : State) : Bool := (sc s p).evict.any fun x => x.1 == t && scState s p x.2 == 3

/-- The slot of the unreferenced RESIDENT stream that has been current longest. -/
def evictSlot (p : Nat) (s : State) : Option ScnSlot :=
  (sc s p).slots.find? fun x => scState s p x.stream == 2 && !scReferenced s p x.stream

theorem evictSlot_state {y : ScnSlot} (h : evictSlot p s = some y) : scState s p y.stream = 2 := by
  have hy := List.find?_some h
  simp only [Bool.and_eq_true, beq_iff_eq] at hy
  exact hy.1

theorem swapOutStart_resident (h : scState s p t = 2) : swapOutStart p t (s, none) = stateSteps p t 3 s := if_pos h

theorem swapInEvict_waits (h : evictWaits p t s = true ∨ evictSlot p s = none) : swapInEvict p t s = s := by
  unfold swapInEvict
  split
  next => rfl
  next hno =>
    have hnone : evictSlot p s = none := h.resolve_left hno
    split
    next y hy => exact absurd (hy.symm.trans hnone) nofun
    next => rfl

section
variable {y : ScnSlot} (hwaits : evictWaits p t s = false) (hy : evictSlot p s = some y)
include hwaits hy

theorem swapInEvict_stops {e : Stop} (he : (swapOutStart p y.stream (s, none)).2 = some e) : swapInEvict p t s = swapInStop p t e s := by
  have hno : ¬((sc s p).evict.any fun x => x.1 == t && scState s p x.2 == 3) = true := Bool.not_eq_true _ ▸ hwaits
  unfold swapInEvict
  rw [if_neg hno, show (sc s p).slots.find? (fun x => scState s p x.stream == 2 && !scReferenced s p x.stream) = some y from hy]
  dsimp only
  rw [he]

theorem swapInEvict_evicts (h : (swapOutStart p y.stream (s, none)).2 = none) :
    swapInEvict p t s = setSc p (evictFor t y.stream (sc s p)) (swapOutStart p y.stream (s, none)).1 := by
  have hno : ¬((sc s p).evict.any fun x => x.1 == t && scState s p x.2 == 3) = true := Bool.not_eq_true _ ▸ hwaits
  have hreach := stateSteps_only p y.stream 3 s
  rw [← swapOutStart_resident (evictSlot_state hy)] at hreach
  unfold swapInEvict
  rw [if_neg hno, show (sc s p).slots.find? (fun x => scState s p x.stream == 2 && !scReferenced s p x.stream) = some y from hy]
  dsimp only
  rw [h]
  dsimp only
  rw [sc_of_reach hreach (by decide) p, evictFor]

end

/-! ### The start (R187, R197) -/

/-- A stream is SIDED while the scratch window is open: a swap-in of it can start. -/
structure SwapStarts (p t : Nat) (s : State) : Prop where
  sided : scState s p t = 1
  shown : scratchShut s p = false

namespace SwapStarts

variable (h : SwapStarts p t s)
include h

theorem start_eq : swapInStart p t s = if !sidingOwned s p t then swapInLost p t 0x20 s else
    match scFreeSlot s p with
    | some k => swapInTake p t k s
    | none => swapInEvict p t s := by
  unfold swapInStart
  rw [if_neg (by simp [h.sided, h.shown])] <;> rfl

theorem loses (ho : sidingOwned s p t = false) : swapInStart p t s = swapInLost p t 0x20 s := by
  rw [h.start_eq, if_pos (by simp [ho])]

theorem takes (ho : sidingOwned s p t = true) {k : Nat} (hk : scFreeSlot s p = some k) : swapInStart p t s = swapInTake p t k s := by
  rw [h.start_eq, if_neg (by simp [ho]), hk]

theorem evicts (ho : sidingOwned s p t = true) (hk : scFreeSlot s p = none) : swapInStart p t s = swapInEvict p t s := by
  rw [h.start_eq, if_neg (by simp [ho]), hk]

end SwapStarts

theorem swapInStart_shut (h : scratchShut s p = true) : swapInStart p t s = s := if_pos (.inr h)

theorem streamSwapIn_waits (h : scWanted s p t = false ∨ scState s p t ≠ 1 ∨ ¬scratchShut s p = false) : streamSwapIn p t s = s := by
  unfold streamSwapIn
  rcases h with h | h | h
  · rw [h]
    rfl
  · rw [swapInStart_id h, ite_self]
  · rw [swapInStart_shut (Bool.not_eq_false _ ▸ h), ite_self]

theorem streamSwapIn_wanted (h : scWanted s p t = true) : streamSwapIn p t s = swapInStart p t s := if_pos h

end

end Sys2Proof.Machine
end

section
/-!
PROOFS. The ends of swaps (R187, R193): what a swap-in and a swap-out that complete leave of the slot, of the siding and of the counts.
-/
namespace Sys2Proof.Machine

section
variable {p t : Nat} {s : State} {y : ScnSlot}

/-! ### The end of a swap-in -/

/-- The recurrence state of a partition in which the stream of slot `y` has become RESIDENT. -/
def residentBy (t : Nat) (y : ScnSlot) (x : Scn) : Scn :=
  { x with
    slots := x.slots.filter (fun z => z.stream != t) ++ [y]
    want := x.want.filter fun z => z != t }

/-- The copy with which a swap-in completes. -/
def loadSteps (p t : Nat) (s : State) : Try := scLoad p t (scRead p t (s, none))

/-- The steps with which a swap-in completes. -/
def inSteps (p t : Nat) (s : State) : Try := scPut .beside p t 0 1 2 (loadSteps p t s)

theorem loadSteps_only (p t : Nat) (s : State) : Reach copyPieces s (loadSteps p t s).1 := by
  have hload := scLoad_only p t (scRead p t (s, none))
  rwa [scRead_fst] at hload

theorem inSteps_only (p t : Nat) (s : State) : Reach copyPieces s (inSteps p t s).1 :=
  ((loadSteps_only p t s).comp (scPut_only .beside p t 0 1 2 (loadSteps p t s))).mono (by decide)

/-- A stream is INBOUND in slot `y` while the scratch window is open: its swap-in can complete. -/
structure InboundAt (p t : Nat) (y : ScnSlot) (s : State) : Prop where
  inbound : scState s p t = 4
  slot : scSlotOf s p t = some y
  shown : scratchShut s p = false

theorem swapInComplete_waits (h : scState s p t ≠ 4 ∨ scSlotOf s p t = none ∨ ¬scratchShut s p = false) :
    swapInComplete p t s = s := by
  unfold swapInComplete
  split
  next => rfl
  next hno =>
    have hnone : scSlotOf s p t = none := by
      rcases h with h | h | h
      · exact absurd (.inl h) hno
      · exact h
      · exact absurd (.inr (Bool.not_eq_false _ ▸ h)) hno
    split
    next x hx => exact absurd (hx.symm.trans hnone) nofun
    next => rfl

namespace InboundAt

variable (h : InboundAt p t y s)
include h

theorem complete_eq : swapInComplete p t s =
    match (inSteps p t s).2 with
    | some e => swapInStop p t e s
    | none => inc (pgScn p) Fld.SCN_SWAP_IN 1 (setSc p (residentBy t y (sc (inSteps p t s).1 p)) (inSteps p t s).1) := by
  have hno : ¬(scState s p t ≠ 4 ∨ scratchShut s p = true) := by simp [h.inbound, h.shown]
  unfold swapInComplete
  rw [if_neg hno, h.slot]
  rfl

theorem stops {e : Stop} (he : (inSteps p t s).2 = some e) : swapInComplete p t s = swapInStop p t e s := by
  rw [h.complete_eq, he]

theorem completes (hin : (inSteps p t s).2 = none) : swapInComplete p t s =
    inc (pgScn p) Fld.SCN_SWAP_IN 1 (setSc p (residentBy t y (sc s p)) (inSteps p t s).1) := by
  rw [h.complete_eq, hin, ← sc_of_reach (inSteps_only p t s) (by decide) p]

/-- The steps put the siding's bytes into the current image, and the stream is RESIDENT. -/
theorem holds (hown : ownStruct s p (scEntry s p t) 32 = true) (hin : (inSteps p t s).2 = none)
    (hw : (memWrite .beside p 0 (scImage s p y.slot y.cur) (rdBytes s (scSiding s p t) (scSB s p)) s).2 = none) :
    MemHolds [(scImage s p y.slot y.cur, rdBytes s (scSiding s p t) (scSB s p)), (scEntry s p t, [2])] s (inSteps p t s).1 := by
  have hentry : scEntry (loadSteps p t s).1 p t = scEntry s p t := (ScnKept.of_reach (loadSteps_only p t s) (by decide)).entry t
  obtain ⟨hload, hstate⟩ := scPut_state_holds (r := loadSteps p t s)
    (by rw [hentry]; exact ownTier_of_ownStruct (by decide) hown) hin
  rw [hentry] at hstate
  have hcopied := scLoad_holds (r := scRead p t (s, none)) (y := y) (by rw [scRead_fst]; exact h.slot) hload
  rw [scRead_fst] at hcopied
  exact (hcopied hw).append hstate

end InboundAt

theorem swapIn_counted (k : Scn) (v : State) :
    Reach [.regs .scn] (setSc p k v) (inc (pgScn p) Fld.SCN_SWAP_IN 1 (setSc p k v)) := inc_reach (by simp) .rfl'

theorem swapIn_countsUp (k : Scn) {v : State} (hv : ScnKept [] p s v) :
    CountsUp (pgScn p) Fld.SCN_SWAP_IN 1 s (inc (pgScn p) Fld.SCN_SWAP_IN 1 (setSc p k v)) :=
  (countsUp_inc (by decide) 1 _).congr ((rg_of_regs (setSc_regs p k v) ..).trans (hv _ (by decide))) rfl

/-! ### The end of a swap-out -/

/-- The copy with which a swap-out completes. -/
def storeSteps (p t : Nat) (s : State) : Try := scStore .beside p t (scRead p t (s, none))

theorem storeSteps_only (p t : Nat) (s : State) : Reach copyPieces s (storeSteps p t s).1 := by
  have hstore := scStore_only .beside p t (scRead p t (s, none))
  rwa [scRead_fst] at hstore

/-- A stream is OUTBOUND in slot `y`: its swap-out can complete. -/
structure OutboundAt (p t : Nat) (y : ScnSlot) (s : State) : Prop where
  outbound : scState s p t = 3
  slot : scSlotOf s p t = some y

theorem swapOutComplete_waits (h : scState s p t ≠ 3 ∨ scSlotOf s p t = none) : swapOutComplete p t s = s :=
  if_pos (h.imp_right fun hnone => by rw [hnone]; rfl)

/-- A swap-out frees the slot and is counted. -/
def SlotFreed (p t : Nat) (s u : State) : Prop :=
  sc u p = slotsBut t (sc s p) ∧ CountsUp (pgScn p) Fld.SCN_SWAP_OUT 1 s u

theorem swapOutEnd_frees {v : State} (hsc : sc v p = sc s p) (hv : ScnKept [] p s v) : SlotFreed p t s (swapOutEnd .beside p t v) := by
  refine ⟨?_, (swapOutEnd_countsOut .beside p t v).congr (hv _ (by decide)) rfl⟩
  rw [swapOutEnd_sc, hsc]

/-- An item that waits on the swap-out is counted with it (R193). -/
theorem storeSteps_countsWait (p t : Nat) (s : State) : CountsUp (pgScn p) Fld.SCN_SWAP_WAIT
    (if scState (storeSteps p t s).1 p t == 3 && scNeeded s p t then 1 else 0) s (swapOutEnd .beside p t (storeSteps p t s).1) := by
  have honly := storeSteps_only p t s
  have hkept : ScnKept [] p s (storeSteps p t s).1 := .of_reach honly (by decide)
  have hneeded : scNeeded (storeSteps p t s).1 p t = scNeeded s p t :=
    scNeeded_same (flights_of_reach honly (by decide)) (hkept.mono (m := scnWorking) nofun).heads t
  rw [← hneeded]
  exact (swapOutEnd_countsWait .beside p t _).congr (hkept _ (by decide)) rfl

namespace OutboundAt

variable (h : OutboundAt p t y s)
include h

theorem complete_eq : swapOutComplete p t s =
    match (storeSteps p t s).2 with
    | some e => if e.code = heldMark then s else swapOutEnd .beside p t (stopped e s)
    | none => swapOutEnd .beside p t (storeSteps p t s).1 := by
  have hno : ¬(scState s p t ≠ 3 ∨ (scSlotOf s p t).isNone = true) := by simp [h.outbound, h.slot]
  unfold swapOutComplete
  rw [if_neg hno]
  rfl

theorem stops {e : Stop} (he : (storeSteps p t s).2 = some e) :
    swapOutComplete p t s = if e.code = heldMark then s else swapOutEnd .beside p t (stopped e s) := by
  rw [h.complete_eq, he]

theorem completes (hout : (storeSteps p t s).2 = none) : swapOutComplete p t s = swapOutEnd .beside p t (storeSteps p t s).1 := by
  rw [h.complete_eq, hout]

/-- The siding holds the current image, and the stream is SIDED. -/
theorem holds (hown : ownStruct s p (scEntry s p t) 32 = true) (hout : (storeSteps p t s).2 = none)
    (hsided : (scPut .beside p t 0 1 1 ((storeSteps p t s).1, none)).2 = none)
    (hw : (memWrite .beside p 0 (scSiding s p t) (rdBytes s (scImage s p y.slot y.cur) (scSB s p)) s).2 = none) :
    MemHolds [(scSiding s p t, rdBytes s (scImage s p y.slot y.cur) (scSB s p)), (scEntry s p t, [1])] s
      (swapOutEnd .beside p t (storeSteps p t s).1) := by
  have hentry : scEntry (storeSteps p t s).1 p t = scEntry s p t := (ScnKept.of_reach (storeSteps_only p t s) (by decide)).entry t
  obtain ⟨-, hstate⟩ := scPut_state_holds (r := ((storeSteps p t s).1, none))
    (by rw [hentry]; exact ownTier_of_ownStruct (by decide) hown) hsided
  rw [hentry] at hstate
  have hcopied := scStore_holds (via := .beside) (r := scRead p t (s, none)) (y := y) (by rw [scRead_fst]; exact h.slot) hout
  rw [scRead_fst] at hcopied
  exact ((hcopied hw).append hstate).of_mem rfl (swapOutEnd_mem ..)

end OutboundAt

/-! ### The steps of the swaps, as the statement has them -/

variable (hrun : Running s)
include hrun

/-- What a swap-in that starts does. -/
theorem streamSwapIn_starts (hc : Canonical s) (hwanted : scWanted s p t = true) (h : SwapStarts p t s) :
    (sidingOwned s p t = false → NextIs (exec (.streamSwapIn p t) s) fun u => (t, 0x20) ∈ (sc u p).lost ∧ t ∉ (sc u p).want ∧
      u.mem = s.mem ∧ ∀ f, f ∈ s.flights → f.q = p → scanNeeds s f t = true →
        ∃ g, flightOf u f.fid = some g ∧ g.result = some 0x20) ∧
    (∀ k, sidingOwned s p t = true → scFreeSlot s p = some k →
      SwapStops p t s (exec (.streamSwapIn p t) s) (takeSteps p t k s) ∧
      ((takeSteps p t k s).2 = none → NextIs (exec (.streamSwapIn p t) s) fun u => u.mem = (takeSteps p t k s).1.mem ∧
        sc u p = takenBy k t (sc s p) ∧ (ownStruct s p (scEntry s p t) 32 = true →
          MemHolds [(scEntry s p t, [4]), (scEntry s p t + 24, toLE 2 k)] s u))) ∧
    (sidingOwned s p t = true → scFreeSlot s p = none →
      (evictWaits p t s = true ∨ evictSlot p s = none → exec (.streamSwapIn p t) s = .next s) ∧
      ∀ y, evictWaits p t s = false → evictSlot p s = some y →
        SwapStops p t s (exec (.streamSwapIn p t) s) (swapOutStart p y.stream (s, none)) ∧
        ((swapOutStart p y.stream (s, none)).2 = none → NextIs (exec (.streamSwapIn p t) s) fun u =>
          u.mem = (swapOutStart p y.stream (s, none)).1.mem ∧ sc u p = evictFor t y.stream (sc s p) ∧
          (ownStruct s p (scEntry s p y.stream) 32 = true → MemHolds [(scEntry s p y.stream, [3])] s u))) := by
  have hgo : exec (.streamSwapIn p t) s = .next (swapInStart p t s) :=
    (exec_streamSwapIn hrun).trans (congrArg _ (streamSwapIn_wanted hwanted))
  refine ⟨fun ho => ⟨_, hgo, ?_⟩, fun k ho hk => ⟨swapStops_of_stop fun e he => ?_, fun htake => ⟨_, hgo, ?_⟩⟩,
    fun ho hk => ⟨fun hw => ?_, fun y hw hy => ⟨swapStops_of_stop fun e he => ?_, fun hout => ⟨_, hgo, ?_⟩⟩⟩⟩
  · obtain ⟨hlost, hwant⟩ := swapInLost_leaves (p := p) (t := t) (s := s) 0x20
    have hsided : scState s p t ≠ 4 := by rw [h.sided]; decide
    rw [h.loses ho]
    refine ⟨hlost, hwant, ?_, fun f => swapInLost_ends hc hsided 0x20⟩
    rw [swapInLost_mem, sidedAgain_id hsided]
  · rw [hgo, h.takes ho hk, swapInTake_stops he]
  · rw [h.takes ho hk, swapInTake_takes htake]
    exact ⟨setSc_mem .., sc_setSc_same .., fun hown => (takeSteps_holds hown htake).of_mem rfl (setSc_mem ..)⟩
  · rw [hgo, h.evicts ho hk, swapInEvict_waits hw]
  · rw [hgo, h.evicts ho hk, swapInEvict_stops hw hy he]
  · rw [h.evicts ho hk, swapInEvict_evicts hw hy hout]
    refine ⟨setSc_mem .., sc_setSc_same .., fun hown => ?_⟩
    have hstart := swapOutStart_resident (evictSlot_state hy)
    rw [hstart] at hout ⊢
    exact (stateSteps_holds hown hout).of_mem rfl (setSc_mem ..)

/-- What a swap-in that completes does. -/
theorem swapInComplete_effect (h : InboundAt p t y s) : SwapStops p t s (exec (.swapInComplete p t) s) (inSteps p t s) ∧
    ((inSteps p t s).2 = none → NextIs (exec (.swapInComplete p t) s) fun u => u.mem = (inSteps p t s).1.mem ∧
      CountsUp (pgScn p) Fld.SCN_SWAP_IN 1 s u ∧ sc u p = residentBy t y (sc s p) ∧
      (ownStruct s p (scEntry s p t) 32 = true →
        (memWrite .beside p 0 (scImage s p y.slot y.cur) (rdBytes s (scSiding s p t) (scSB s p)) s).2 = none →
        MemHolds [(scImage s p y.slot y.cur, rdBytes s (scSiding s p t) (scSB s p)), (scEntry s p t, [2])] s u)) := by
  have hgo := exec_swapInComplete (p := p) (t := t) hrun
  refine ⟨swapStops_of_stop fun e he => by rw [hgo, h.stops he], fun hin => ⟨_, hgo.trans (congrArg _ (h.completes hin)), ?_⟩⟩
  have hcounted := swapIn_counted (p := p) (residentBy t y (sc s p)) (inSteps p t s).1
  have hmem := (mem_of_reach hcounted (by decide)).trans (setSc_mem ..)
  exact ⟨hmem, swapIn_countsUp _ (.of_reach (inSteps_only p t s) (by decide)),
    (sc_of_reach hcounted (by decide) p).trans (sc_setSc_same ..), fun hown hw => (h.holds hown hin hw).of_mem rfl hmem⟩

/-- What a swap-out that completes does. -/
theorem swapOutComplete_effect (h : OutboundAt p t y s) :
    (∀ e, (storeSteps p t s).2 = some e → if e.code = heldMark then exec (.swapOutComplete p t) s = .next s else
      NextIs (exec (.swapOutComplete p t) s) (SlotFreed p t s)) ∧
    ((storeSteps p t s).2 = none → NextIs (exec (.swapOutComplete p t) s) fun u => SlotFreed p t s u ∧
      u.mem = (scPut .beside p t 0 1 1 ((storeSteps p t s).1, none)).1.mem ∧
      CountsUp (pgScn p) Fld.SCN_SWAP_WAIT (if scState (storeSteps p t s).1 p t == 3 && scNeeded s p t then 1 else 0) s u ∧
      (ownStruct s p (scEntry s p t) 32 = true → (scPut .beside p t 0 1 1 ((storeSteps p t s).1, none)).2 = none →
        (memWrite .beside p 0 (scSiding s p t) (rdBytes s (scImage s p y.slot y.cur) (scSB s p)) s).2 = none →
        MemHolds [(scSiding s p t, rdBytes s (scImage s p y.slot y.cur) (scSB s p)), (scEntry s p t, [1])] s u)) := by
  have hgo := exec_swapOutComplete (p := p) (t := t) hrun
  refine ⟨fun e he => ?_, fun hout => ⟨_, hgo.trans (congrArg _ (h.completes hout)), ?_⟩⟩
  · rw [h.stops he] at hgo
    split
    next hheld => rwa [if_pos hheld] at hgo
    next hheld =>
      rw [if_neg hheld] at hgo
      have hstop := stopped_only e s
      exact ⟨_, hgo, swapOutEnd_frees (sc_of_reach hstop (by decide) p) (.of_reach hstop (by decide))⟩
  · have honly := storeSteps_only p t s
    exact ⟨swapOutEnd_frees (sc_of_reach honly (by decide) p) (.of_reach honly (by decide)), swapOutEnd_mem ..,
      storeSteps_countsWait p t s, fun hown hsided hw => h.holds hown hout hsided hw⟩

end

end Sys2Proof.Machine
end

section
/-!
PROOFS. The SWAP descriptors on a single stream (R198, Table 8.9), and the streams that swap.
-/
namespace Sys2Proof.Machine

section
variable {p t : Nat} {s : State}

/-! ### What a swap-out that completes keeps -/

/-- A swap-out that completes changes nothing, or ends after steps that keep the page and ownership. -/
theorem swapOutComplete_cases (p t : Nat) (s : State) : swapOutComplete p t s = s ∨
    ∃ v, Reach copyPieces s v ∧ BaseSame s v ∧ swapOutComplete p t s = swapOutEnd .beside p t v := by
  by_cases hwaits : scState s p t ≠ 3 ∨ scSlotOf s p t = none
  · exact .inl (swapOutComplete_waits hwaits)
  · obtain ⟨hstate, hslot⟩ := not_or.mp hwaits
    obtain ⟨y, hy⟩ := Option.ne_none_iff_exists'.mp hslot
    have h : OutboundAt p t y s := ⟨not_not.mp hstate, hy⟩
    rcases hr : (storeSteps p t s).2 with _ | e
    · have hsteps : TableSteps BaseSame (s, none) (storeSteps p t s) := (TableSteps.start.scRead p t).scStore .beside p t
      exact .inr ⟨_, storeSteps_only p t s, hsteps.base, h.completes hr⟩
    · have hstop := stopped_only e s
      have hends := h.stops hr
      split at hends
      next => exact .inl hends
      next => exact .inr ⟨_, hstop.mono (by decide), base_of_reach hstop (by decide), hends⟩

theorem swapOutComplete_base (p t : Nat) (s : State) : BaseSame s (swapOutComplete p t s) := by
  rcases swapOutComplete_cases p t s with h | ⟨v, -, hbase, h⟩
  · rw [h]
    exact .refl s
  · rw [h]
    exact hbase.trans (swapOutEnd_base .beside p t v)

theorem swapOutComplete_kept (p t : Nat) (s : State) : ScnKept scnWorking p s (swapOutComplete p t s) := by
  rcases swapOutComplete_cases p t s with h | ⟨v, hv, -, h⟩
  · rw [h]
    exact .refl _ p s
  · rw [h]
    exact (ScnKept.of_reach hv (by decide)).trans ((swapOutEnd_kept .beside p t v).mono (by decide))

theorem swapOutComplete_flights (p t : Nat) (s : State) : (swapOutComplete p t s).flights = s.flights := by
  rcases swapOutComplete_cases p t s with h | ⟨v, hv, -, h⟩
  · rw [h]
  · rw [h, flights_of_reach (swapOutEnd_only .beside p t v) (by decide), flights_of_reach hv (by decide)]

/-! ### What a swap-in that starts keeps -/

/-- State `b` is `s` once a swap-in has begun: the descriptors, the page and ownership are the same, and no more swap-ins are lost. -/
structure SwapBegun (p : Nat) (s b : State) : Prop where
  flights : b.flights = s.flights
  kept : ScnKept scnWorking p s b
  base : BaseSame s b
  lost : ∀ x, x ∈ (sc b p).lost → x ∈ (sc s p).lost

theorem swapBegun_setSc {r : Try} {k : Scn} (hsteps : TableSteps BaseSame (s, none) r) (hreach : Reach memAccess s r.1)
    (hk : ∀ x, x ∈ k.lost → x ∈ (sc s p).lost) : SwapBegun p s (setSc p k r.1) := by
  have hset := setSc_only p k r.1
  refine ⟨(flights_of_reach hset (by decide)).trans (flights_of_reach hreach (by decide)),
    (ScnKept.of_reach hreach (by decide)).trans (.of_regs (setSc_regs ..)), hsteps.base.trans (base_of_reach hset (by decide)), ?_⟩
  rwa [sc_setSc_same]

theorem stateSteps_steps (p t v : Nat) (s : State) : TableSteps BaseSame (s, none) (stateSteps p t v s) :=
  (TableSteps.start.scRead p t).scPut .beside p t 0 1 v

theorem swapInStop_cases (p t : Nat) (e : Stop) (s : State) :
    swapInStop p t e s = s ∨ swapInStop p t e s = swapInLost p t e.code (stopped e s) := by
  unfold swapInStop
  split
  · exact .inl rfl
  · exact .inr rfl

/-- A swap-in that starts changes nothing, is lost, or has begun. -/
theorem swapInStart_cases (p t : Nat) (s : State) : swapInStart p t s = s ∨
    (∃ code v, v.mem = s.mem ∧ ScnKept scnWorking p s v ∧ swapInStart p t s = swapInLost p t code v) ∨
    SwapBegun p s (swapInStart p t s) := by
  have hstop (e : Stop) (h : swapInStart p t s = swapInStop p t e s) : swapInStart p t s = s ∨
      ∃ code v, v.mem = s.mem ∧ ScnKept scnWorking p s v ∧ swapInStart p t s = swapInLost p t code v := by
    have honly := stopped_only e s
    exact (swapInStop_cases p t e s).imp h.trans fun hlost =>
      ⟨_, _, mem_of_reach honly (by decide), .of_reach honly (by decide), h.trans hlost⟩
  by_cases hwaits : scState s p t ≠ 1 ∨ scratchShut s p = true
  · exact .inl (if_pos hwaits)
  obtain ⟨hsided, hshown⟩ := not_or.mp hwaits
  have h : SwapStarts p t s := ⟨not_not.mp hsided, Bool.not_eq_true _ ▸ hshown⟩
  rcases ho : sidingOwned s p t with _ | _
  · exact .inr (.inl ⟨_, s, rfl, .refl _ p s, h.loses ho⟩)
  rcases hk : scFreeSlot s p with _ | k
  · have hevicts := h.evicts ho hk
    by_cases hw : evictWaits p t s = true ∨ evictSlot p s = none
    · exact .inl (hevicts.trans (swapInEvict_waits hw))
    obtain ⟨hwait, hslot⟩ := not_or.mp hw
    obtain ⟨y, hy⟩ := Option.ne_none_iff_exists'.mp hslot
    have hidle : evictWaits p t s = false := Bool.not_eq_true _ ▸ hwait
    have hstart := swapOutStart_resident (evictSlot_state hy)
    rcases hr : (swapOutStart p y.stream (s, none)).2 with _ | e
    · refine .inr (.inr ?_)
      rw [hevicts, swapInEvict_evicts hidle hy hr, hstart]
      exact swapBegun_setSc (stateSteps_steps p y.stream 3 s) (stateSteps_only p y.stream 3 s) fun _ hx => hx
    · exact (hstop e (hevicts.trans (swapInEvict_stops hidle hy hr))).imp_right .inl
  · have htakes := h.takes ho hk
    rcases hr : (takeSteps p t k s).2 with _ | e
    · refine .inr (.inr ?_)
      rw [htakes, swapInTake_takes hr]
      exact swapBegun_setSc ((stateSteps_steps p t 4 s).scPut .beside p t 24 2 k) (takeSteps_only p t k s)
        fun _ hx => List.mem_of_mem_filter hx
    · exact (hstop e (htakes.trans (swapInTake_stops hr))).imp_right .inl

/-- A swap-in that is lost leaves the stream SIDED, or INBOUND where the entry could not be written. -/
theorem swapInLost_state (code : Nat) : scState (swapInLost p t code s) p t = scState (sidedAgain p t s).1 p t := by
  have hset := setSc_only p (lostFor t code (sc s p)) (sidedAgain p t s).1
  have hends := swapInLost_finishes p t code s
  have hkept : ScnKept scnWorking p (sidedAgain p t s).1 (swapInLost p t code s) :=
    (ScnKept.of_reach hset (by decide)).trans (.of_reach hends (by decide))
  exact hkept.state (swapInLost_mem p t code s) t

theorem swapInStart_begun (h1 : scState s p t = 1) (h4 : scState (swapInStart p t s) p t = 4) : SwapBegun p s (swapInStart p t s) := by
  rcases swapInStart_cases p t s with h | ⟨code, v, hmem, hkept, h⟩ | h
  · rw [h, h1] at h4
    cases h4
  · have hv : scState v p t = 1 := (hkept.state hmem t).trans h1
    rw [h, swapInLost_state, sidedAgain_id (by rw [hv]; decide), hv] at h4
    cases h4
  · exact h

/-! ### A swap-in that has completed -/

/-- A write that meets a stop changes nothing. -/
theorem tryWrite_none_or_same (via : Via) (p a : Nat) (bs : List Byte) (s : State) :
    (tryWrite via p a bs (s, none)).2 = none ∨ (tryWrite via p a bs (s, none)).1 = s := by
  unfold tryWrite
  dsimp only
  split
  · exact .inr rfl
  · exact .inl rfl

theorem sidedAgain_state (hown : ownStruct s p (scEntry s p t) 32 = true) (h2 : scState s p t ≠ 2) :
    scState (sidedAgain p t s).1 p t ≠ 2 := by
  unfold sidedAgain
  split
  · have hput : (scPut .beside p t 0 1 1 (s, none)).2 = none ∨ (scPut .beside p t 0 1 1 (s, none)).1 = s := tryWrite_none_or_same ..
    rcases hput with h | h
    · rw [scPut_state (r := (s, none)) (by decide) (ownTier_of_ownStruct (by decide) hown) h]
      decide
    · rwa [h]
  · exact h2

/-- An INBOUND stream that is RESIDENT after the step has been loaded. -/
theorem swapInComplete_loaded (h4 : scState s p t = 4) (hown : ownStruct s p (scEntry s p t) 32 = true)
    (h2 : scState (swapInComplete p t s) p t = 2) : ∃ y, InboundAt p t y s ∧ (inSteps p t s).2 = none := by
  have hmoved : swapInComplete p t s ≠ s := fun h => by
    rw [h, h4] at h2
    cases h2
  have hwaits := mt swapInComplete_waits hmoved
  obtain ⟨-, hslot, hshown⟩ : _ ∧ scSlotOf s p t ≠ none ∧ scratchShut s p = false := by simpa only [not_or, not_not] using hwaits
  obtain ⟨y, hy⟩ := Option.ne_none_iff_exists'.mp hslot
  have h : InboundAt p t y s := ⟨h4, hy, hshown⟩
  refine ⟨y, h, ?_⟩
  rcases hr : (inSteps p t s).2 with _ | e
  · rfl
  · have hstop := stopped_only e s
    have hkept : ScnKept scnWorking p s (stopped e s) := .of_reach hstop (by decide)
    have hstate : scState (stopped e s) p t = 4 := (hkept.state (mem_of_reach hstop (by decide)) t).trans h4
    have hstill : ownStruct (stopped e s) p (scEntry (stopped e s) p t) 32 = true := by
      rw [hkept.entry, ownStruct_same (base_of_reach hstop (by decide)), hown]
    rw [h.stops hr] at h2 hmoved
    rw [(swapInStop_cases p t e s).resolve_left hmoved, swapInLost_state] at h2
    exact absurd h2 (sidedAgain_state hstill (by rw [hstate]; decide))

/-! ### A SWAP of one stream -/

/-- The work of a SWAP of one stream. -/
def swapOne (t : Nat) : SwapWork := ⟨[t], [], none⟩

/-- The work of a SWAP that has handled its streams and ends with a code. -/
def swapEnded (code : Nat) : SwapWork := ⟨[], [], if code = 0 then none else some code⟩

/-- The end of a SWAP's step. -/
def swapClosed (fid : Nat) (r : State × SwapWork) : State :=
  if r.2.waitFor.isEmpty && r.2.left.isEmpty then finish fid (r.2.fail.getD 0) 0 (reworked fid (.swap r.2) r.1)
  else reworked fid (.swap r.2) r.1

theorem swapGo_eq {op fid : Nat} {f : Flight} {w : SwapWork} (h : swapFlight s fid op = some (f, w)) :
    swapGo op fid s = swapClosed fid (swapsOn op f.q w s) := by
  simp only [swapGo, h, swapClosed, swapsOn, reworked]
  congr 1

theorem swapClosed_ended (fid code : Nat) (v : State) :
    swapClosed fid (v, swapEnded code) = finish fid code 0 (reworked fid (.swap (swapEnded code)) v) := by
  have hcode : (swapEnded code).fail.getD 0 = code := by
    unfold swapEnded
    split
    next h => exact h.symm
    next => rfl
  unfold swapClosed
  dsimp only
  rw [hcode]
  exact if_pos rfl

section
variable {op code : Nat} {b v : State} {own : Bool}

theorem swapCode_first (p code : Nat) (v : State) : swapCode p code ⟨[], [], none⟩ v = (v, swapEnded code) := by
  simp [swapCode, swapEnded, wh]

theorem swapTurns_ended (op p code : Nat) (v : State) : swapTurns op p (v, swapEnded code) = (v, swapEnded code) := by
  simp only [swapTurns, swapEnded, List.foldl_nil]

theorem swapTurns_one (op p : Nat) (x : Nat × Bool) (b : State) :
    swapTurns op p (b, ⟨[], [x], none⟩) =
      swapTurned p ⟨[], [], none⟩ x (swapAgain op p x.1 x.2 (swapInComplete p x.1 (swapOutsEnd p b))) := by
  unfold swapTurns
  rw [List.foldl_cons, List.foldl_nil, swapTurn]

theorem swapTurned_done (p : Nat) (x : Nat × Bool) (code : Nat) (v : State) :
    swapTurned p ⟨[], [], none⟩ x (v, .done code) = (v, swapEnded code) := by
  simp only [swapTurned, swapCode_first]

theorem swapsOn_one (op p t : Nat) (s : State) : swapsOn op p (swapOne t) s =
    swapTurns op p (swapTurns op p (swapTurns op p (swapFirst op p t ⟨[], [], none⟩ s))) := by
  unfold swapsOn swapOne
  rw [List.foldl_cons, List.foldl_nil]

theorem swapFirst_done (h : swapStream op p t s = (v, .done code)) : swapFirst op p t ⟨[], [], none⟩ s = (v, swapEnded code) := by
  simp only [swapFirst, List.isEmpty_nil, Bool.not_true, Bool.false_eq_true, if_false, h, swapCode_first]

theorem swapFirst_waits (h : swapStream op p t s = (b, .waits own)) :
    swapFirst op p t ⟨[], [], none⟩ s = (b, ⟨[], [(t, own)], none⟩) := by
  simp only [swapFirst, List.isEmpty_nil, Bool.not_true, Bool.false_eq_true, if_false, h, List.nil_append]

/-- A stream that a SWAP is done with at once. -/
theorem swapsOn_done (h : swapStream op p t s = (v, .done code)) : swapsOn op p (swapOne t) s = (v, swapEnded code) := by
  simp only [swapsOn_one, swapFirst_done h, swapTurns_ended]

/-- A stream that a SWAP is done with after a wait. -/
theorem swapsOn_waits (h : swapStream op p t s = (b, .waits own))
    (hagain : swapAgain op p t own (swapInComplete p t (swapOutsEnd p b)) = (v, .done code)) :
    swapsOn op p (swapOne t) s = (v, swapEnded code) := by
  have hturn := swapTurns_one op p (t, own) b
  rw [hagain, swapTurned_done] at hturn
  rw [swapsOn_one, swapFirst_waits h, hturn, swapTurns_ended, swapTurns_ended]

end

/-- The SWAP descriptors, each with its operation. -/
def swapOps (fid : Nat) : List (Nat × Instr) := [(0, .swapOut fid), (1, .swapIn fid), (2, .swapSync fid)]

theorem exec_swapOps {fid : Nat} {y : Nat × Instr} (hrun : Running s) (hy : y ∈ swapOps fid) :
    exec y.2 s = .next (swapGo y.1 fid s) := by
  simp only [swapOps, List.mem_cons, List.not_mem_nil, or_false] at hy
  rcases hy with rfl | rfl | rfl <;> exact congrArg Host.Outcome.next (wh_running hrun _)

theorem swapFlight_some {op fid : Nat} {f : Flight} {w : SwapWork} (h : swapFlight s fid op = some (f, w)) :
    flightOf s fid = some f ∧ f.result = none := by
  unfold swapFlight at h
  split at h
  next g hg =>
    split at h
    next => cases h
    next hok =>
      cases h
      exact ⟨hg, by simpa using fun hr => hok (.inr (.inr hr))⟩
  next => cases h

/-- A SWAP has ended with a code in state `u`, and left memory and the streams as in `v`. -/
def SwapEnds (fid : Nat) (f : Flight) (code : Nat) (v u : State) : Prop :=
  u.mem = v.mem ∧ u.scn = v.scn ∧ ∃ g, flightOf u fid = some g ∧ Continues f g ∧ g.result = some code

theorem swapGo_ends {op fid code : Nat} {f : Flight} {v : State} (hflight : swapFlight s fid op = some (f, swapOne t))
    (hon : swapsOn op f.q (swapOne t) s = (v, swapEnded code)) (hv : v.flights = s.flights) : SwapEnds fid f code v (swapGo op fid s) := by
  obtain ⟨hf, hr⟩ := swapFlight_some hflight
  have hwork : Reach [.flights] v (reworked fid (.swap (swapEnded code)) v) :=
    updFlight_reach (by decide) (fun _ => ⟨fun _ => nofun, id⟩) .rfl'
  have hend : Reach [.flights] v (finish fid code 0 (reworked fid (.swap (swapEnded code)) v)) := finish_reach (by decide) hwork
  have hflights := flightOf_reworked ((flightOf_of_flights hv fid).trans hf) (.swap (swapEnded code))
  rw [swapGo_eq hflight, hon, swapClosed_ended]
  exact ⟨mem_of_reach hend (by decide), hend.frame .scn (by decide), _, finish_flight hflights hr code 0,
    ⟨rfl, fun _ => nofun, fun _ => nofun⟩, rfl⟩

/-! ### One stream of a SWAP (Table 8.9) -/

theorem swapDenied_own {op : Nat} (h : swapDenied op p t s = false) : ownStruct s p (scEntry s p t) 32 = true := by
  simp only [swapDenied, Bool.or_eq_false_iff, Bool.not_eq_false'] at h
  exact h.1

theorem swapDenied_false {op : Nat} (hown : ownStruct s p (scEntry s p t) 32 = true) (hs : scState s p t ≠ if op = 1 then 1 else 2) :
    swapDenied op p t s = false := by
  rw [swapDenied, hown]
  by_cases hop : op = 1 <;> simp_all

/-- A SWAP may reach the stream, and reads its entry. -/
structure SwapReach (op p t : Nat) (s : State) : Prop where
  allowed : swapDenied op p t s = false
  read : (scRead p t (s, none)).2 = none

/-- The stream that a SWAP reaches is in use and not referenced. -/
structure SwapFree (op p t : Nat) (s : State) : Prop extends SwapReach op p t s where
  used : scState s p t ≠ 0
  unreferenced : scReferenced s p t = false

theorem swapStream_denied {op : Nat} (h : swapDenied op p t s = true) : swapStream op p t s = (s, .done 0x20) := if_pos h

theorem SwapReach.unused {op : Nat} (h : SwapReach op p t s) (hs : scState s p t = 0) : swapStream op p t s = (s, .done 0x13) := by
  unfold swapStream
  simp [h.allowed, h.read, hs]

theorem SwapReach.busy {op : Nat} (h : SwapReach op p t s) (hs : scState s p t ≠ 0) (href : scReferenced s p t = true) :
    swapStream op p t s = (s, .done (if op = 1 then 0 else 0x52)) := by
  unfold swapStream
  simp [h.allowed, h.read, hs, href]

/-- IN has no slot to gain: every slot is taken, by a referenced stream. -/
def SlotsTaken (p : Nat) (s : State) : Prop :=
  scFreeSlot s p = none ∧ ∀ y, y ∈ (sc s p).slots → scReferenced s p y.stream = true

namespace SwapFree

theorem out (h : SwapFree 0 p t s) (hs : scState s p t = 2) (hb : (swapOutStart p t (s, none)).2 = none) :
    swapStream 0 p t s = ((swapOutStart p t (s, none)).1, .waits true) := by
  have hstream : swapStream 0 p t s = swapTry (.waits true) s (swapOutStart p t (s, none)) := by
    unfold swapStream
    simp [h.allowed, h.read, h.unreferenced, hs]
  rw [hstream, swapTry, hb]

theorem sync (h : SwapFree 2 p t s) (hs : scState s p t = 2) (hr : (scStore .beside p t (s, none)).2 = none) :
    swapStream 2 p t s = ((scStore .beside p t (s, none)).1, .done 0) := by
  have hstream : swapStream 2 p t s = swapTry (.done 0) s (scStore .beside p t (s, none)) := by
    unfold swapStream
    simp [h.allowed, h.read, h.unreferenced, hs]
  rw [hstream, swapTry, hr]

theorem sided {op : Nat} (h : SwapFree op p t s) (hop : op ≠ 1) (hs : scState s p t = 1) : swapStream op p t s = (s, .done 0) := by
  unfold swapStream
  simp [h.allowed, h.read, h.unreferenced, hs, hop]

theorem full (h : SwapFree 1 p t s) (hs : scState s p t = 1) (hfull : SlotsTaken p s) : swapStream 1 p t s = (s, .done 0x11) := by
  obtain ⟨hfree, hall⟩ := hfull
  have htaken : ((scFreeSlot s p).isNone && (sc s p).slots.all fun x => scReferenced s p x.stream) = true := by
    simpa [hfree] using hall
  unfold swapStream
  simp [h.allowed, h.read, h.unreferenced, hs, htaken]

theorem enters (h : SwapFree 1 p t s) (hs : scState s p t = 1) (hroom : ¬SlotsTaken p s) :
    swapStream 1 p t s = (swapInStart p t (swapWant p t s), .waits true) := by
  have htaken : ((scFreeSlot s p).isNone && (sc s p).slots.all fun x => scReferenced s p x.stream) = false := by
    rw [Bool.eq_false_iff]
    intro hall
    simp only [Bool.and_eq_true, Option.isNone_iff_eq_none, List.all_eq_true] at hall
    exact hroom hall
  unfold swapStream
  simp [h.allowed, h.read, h.unreferenced, hs, htaken]

/-! ### A stream that a SWAP waits on -/

/-- The swap-outs in progress after OUT has started one: that of the stream alone. -/
theorem outsEnd (h : SwapFree 0 p t s) (hs : scState s p t = 2) (hb : (swapOutStart p t (s, none)).2 = none)
    (hv : scState (swapOutComplete p t (swapOutStart p t (s, none)).1) p t = 1)
    (hbeside : ∀ y, y ∈ (sc s p).slots → y.stream ≠ t → scState (swapOutStart p t (s, none)).1 p y.stream ≠ 3 ∧
      scState (swapOutComplete p t (swapOutStart p t (s, none)).1) p y.stream ≠ 3) :
    swapOutsEnd p (swapOutStart p t (s, none)).1 = swapOutComplete p t (swapOutStart p t (s, none)).1 := by
  rw [swapOutStart_resident hs] at hb hv hbeside ⊢
  have hsc := sc_of_reach (stateSteps_only p t 3 s) (by decide) p
  have hout : scState (stateSteps p t 3 s).1 p t = 3 := by
    have htier : ownTier (scEntry s p t) = true := ownTier_of_ownStruct (by decide) (swapDenied_own h.allowed)
    exact scPut_state (r := scRead p t (s, none)) (by decide) (by rwa [scRead_fst]) hb
  refine foldl_once (c := fun y => y.stream = t) ?_ (fun y hy hne => ?_) (fun y hy he => ?_) fun y hy => ?_
  · by_contra hno
    have hnone : scSlotOf (stateSteps p t 3 s).1 p t = none := by
      rw [scSlotOf, List.find?_eq_none]
      exact fun y hy he => hno ⟨y, hy, by simpa using he⟩
    rw [swapOutComplete_waits (.inr hnone), hout] at hv
    cases hv
  · exact if_neg (by simpa using (hbeside y (hsc ▸ hy) hne).1)
  · rw [he]
    exact if_pos (by simp [hout])
  · refine if_neg ?_
    by_cases he : y.stream = t
    · simp [he, hv]
    · simpa using (hbeside y (hsc ▸ hy) he).2

/-- OUT of a RESIDENT stream whose swap-out completes ends. -/
theorem outAgain (h : SwapFree 0 p t s) (hs : scState s p t = 2)
    (hv : scState (swapOutComplete p t (swapOutStart p t (s, none)).1) p t = 1) :
    swapAgain 0 p t true (swapInComplete p t (swapOutComplete p t (swapOutStart p t (s, none)).1)) =
      (swapOutComplete p t (swapOutStart p t (s, none)).1, .done 0) := by
  rw [swapOutStart_resident hs] at hv ⊢
  have hkept : ScnKept scnWorking p s (swapOutComplete p t (stateSteps p t 3 s).1) :=
    (ScnKept.of_reach (stateSteps_only p t 3 s) (by decide)).trans (swapOutComplete_kept p t _)
  have hbase : BaseSame s (swapOutComplete p t (stateSteps p t 3 s).1) :=
    (stateSteps_steps p t 3 s).base.trans (swapOutComplete_base ..)
  have hown : ownStruct (swapOutComplete p t (stateSteps p t 3 s).1) p
      (scEntry (swapOutComplete p t (stateSteps p t 3 s).1) p t) 32 = true := by
    rw [hkept.entry, ownStruct_same hbase, swapDenied_own h.allowed]
  rw [swapInComplete_id (by rw [hv]; decide), swapAgain, if_neg (by simp [swapDenied_false (op := 0) hown (by rw [hv]; decide)])]
  simp [hv]

theorem outDone (h : SwapFree 0 p t s) (hs : scState s p t = 2) (hb : (swapOutStart p t (s, none)).2 = none)
    (hv : scState (swapOutComplete p t (swapOutStart p t (s, none)).1) p t = 1)
    (hbeside : ∀ y, y ∈ (sc s p).slots → y.stream ≠ t → scState (swapOutStart p t (s, none)).1 p y.stream ≠ 3 ∧
      scState (swapOutComplete p t (swapOutStart p t (s, none)).1) p y.stream ≠ 3) :
    swapsOn 0 p (swapOne t) s = (swapOutComplete p t (swapOutStart p t (s, none)).1, swapEnded 0) ∧
      (swapOutComplete p t (swapOutStart p t (s, none)).1).flights = s.flights := by
  refine ⟨swapsOn_waits (h.out hs hb) ?_, ?_⟩
  · rw [h.outsEnd hs hb hv hbeside]
    exact h.outAgain hs hv
  · rw [swapOutComplete_flights, swapOutStart_resident hs]
    exact flights_of_reach (stateSteps_only p t 3 s) (by decide)

end SwapFree

/-! ### IN -/

theorem swapWant_only (p t : Nat) (s : State) : Reach [.scn] s (swapWant p t s) := setSc_only ..

theorem swapWant_lost (p t : Nat) (s : State) {x : Nat × Nat} (hx : x ∈ (sc (swapWant p t s) p).lost) : x.1 ≠ t := by
  rw [swapWant, sc_setSc_same] at hx
  simpa using (List.mem_filter.mp hx).2

/-- State `b` is `s` after the swap-in of an IN has taken a slot. -/
structure InBegun (p t : Nat) (s b : State) : Prop where
  flights : b.flights = s.flights
  own : ownStruct b p (scEntry b p t) 32 = true
  lost : ∀ x, x ∈ (sc b p).lost → x.1 ≠ t

theorem SwapFree.begins (h : SwapFree 1 p t s) (hs : scState s p t = 1) (hb : scState (swapInStart p t (swapWant p t s)) p t = 4) :
    InBegun p t s (swapInStart p t (swapWant p t s)) := by
  have hwant := swapWant_only p t s
  have hkept : ScnKept scnWorking p s (swapWant p t s) := .of_reach hwant (by decide)
  have hbegun := swapInStart_begun ((hkept.state (mem_of_reach hwant (by decide)) t).trans hs) hb
  refine ⟨hbegun.flights.trans (flights_of_reach hwant (by decide)), ?_, fun x hx => swapWant_lost p t s (hbegun.lost x hx)⟩
  rw [hbegun.kept.entry, hkept.entry, ownStruct_same hbegun.base, ownStruct_same (base_of_reach hwant (by decide)),
    swapDenied_own h.allowed]

/-- IN of a stream that has become RESIDENT ends. -/
theorem InBegun.ends {b : State} (h : InBegun p t s b) (h4 : scState b p t = 4) (h2 : scState (swapInComplete p t b) p t = 2) :
    swapAgain 1 p t true (swapInComplete p t b) = (swapInComplete p t b, .done 0) ∧ (swapInComplete p t b).flights = s.flights := by
  obtain ⟨y, hat, hin⟩ := swapInComplete_loaded h4 h.own h2
  have hsteps : TableSteps BaseSame (b, none) (inSteps p t b) := ((TableSteps.start.scRead p t).scLoad p t).scPut .beside p t 0 1 2
  have hreach := inSteps_only p t b
  have hset := setSc_only p (residentBy t y (sc b p)) (inSteps p t b).1
  have hcounted := swapIn_counted (p := p) (residentBy t y (sc b p)) (inSteps p t b).1
  have hkept : ScnKept scnWorking p b (swapInComplete p t b) := by
    rw [hat.completes hin]
    exact ((ScnKept.of_reach hreach (by decide)).trans (.of_reach hset (by decide))).trans (.inc (by decide) 1 _)
  have hbase : BaseSame b (swapInComplete p t b) := by
    rw [hat.completes hin]
    exact (hsteps.base.trans (base_of_reach hset (by decide))).trans (base_of_reach hcounted (by decide))
  have hsc : sc (swapInComplete p t b) p = residentBy t y (sc b p) := by
    rw [hat.completes hin, sc_of_reach hcounted (by decide), sc_setSc_same]
  have hown : ownStruct (swapInComplete p t b) p (scEntry (swapInComplete p t b) p t) 32 = true := by
    rw [hkept.entry, ownStruct_same hbase, h.own]
  have hwant : t ∉ (sc (swapInComplete p t b) p).want := by simp [hsc, residentBy]
  have hlost : (sc (swapInComplete p t b) p).lost.find? (fun x => x.1 == t) = none := by
    rw [hsc, List.find?_eq_none]
    exact fun x hx he => h.lost x hx (by simpa using he)
  refine ⟨?_, ?_⟩
  · rw [swapAgain, if_neg (by simp [swapDenied_false (op := 1) hown (by rw [h2]; decide)])]
    simp [h2, hwant, hlost]
  · rw [hat.completes hin, flights_of_reach hcounted (by decide), flights_of_reach hset (by decide),
      flights_of_reach hreach (by decide), h.flights]

theorem SwapFree.inDone (h : SwapFree 1 p t s) (hs : scState s p t = 1) (hroom : ¬SlotsTaken p s)
    (hb : scState (swapInStart p t (swapWant p t s)) p t = 4)
    (hv : scState (swapInComplete p t (swapInStart p t (swapWant p t s))) p t = 2)
    (hquiet : ∀ y, y ∈ (sc (swapInStart p t (swapWant p t s)) p).slots →
      scState (swapInStart p t (swapWant p t s)) p y.stream ≠ 3) :
    swapsOn 1 p (swapOne t) s = (swapInComplete p t (swapInStart p t (swapWant p t s)), swapEnded 0) ∧
      (swapInComplete p t (swapInStart p t (swapWant p t s))).flights = s.flights := by
  obtain ⟨hagain, hflights⟩ := (h.begins hs hb).ends hb hv
  exact ⟨swapsOn_waits (h.enters hs hroom) (by rw [swapOutsEnd_id hquiet, hagain]), hflights⟩

end

end Sys2Proof.Machine
end

section
/-!
PROOFS. Recurrent streams that swap (R187, R193, R197, R198): the steps of a swap, and a SWAP of one stream, as the statement has them.
-/
namespace Sys2Proof.Machine

section
variable {p t fid : Nat} {s : State} {f : Flight}

/-- What a SWAP of one stream ends with: each case with its code, and the state whose memory and streams it leaves. -/
theorem swapOne_ends (hrun : Running s) {y : Nat × Instr} (hy : y ∈ swapOps fid) (hflight : swapFlight s fid y.1 = some (f, swapOne t))
    (hq : f.q = p) :
    let ends (code : Nat) (v : State) : Prop := NextIs (exec y.2 s) (SwapEnds fid f code v)
    (swapDenied y.1 p t s = true → ends 0x20 s) ∧
    (swapDenied y.1 p t s = false → (scRead p t (s, none)).2 = none →
      (scState s p t = 0 → ends 0x13 s) ∧
      (scState s p t ≠ 0 → scReferenced s p t = true → ends (if y.1 = 1 then 0 else 0x52) s) ∧
      (scReferenced s p t = false →
        (y.1 = 0 → scState s p t = 2 →
          let b := swapOutStart p t (s, none)
          let v := swapOutComplete p t b.1
          b.2 = none → scState v p t = 1 → (∀ z, z ∈ (sc s p).slots → z.stream ≠ t → scState s p z.stream ≠ 3 ∧
            scState b.1 p z.stream ≠ 3 ∧ scState v p z.stream ≠ 3) → ends 0 v) ∧
        (y.1 = 1 → scState s p t = 1 → SlotsTaken p s → ends 0x11 s) ∧
        (y.1 = 1 → scState s p t = 1 → ¬SlotsTaken p s →
          let b := swapInStart p t (swapWant p t s)
          let v := swapInComplete p t b
          scState b p t = 4 → scState v p t = 2 → (∀ z, z ∈ (sc b p).slots → scState b p z.stream ≠ 3) → ends 0 v) ∧
        (y.1 = 2 → scState s p t = 2 → (scStore .beside p t (s, none)).2 = none → ends 0 (scStore .beside p t (s, none)).1) ∧
        (y.1 ≠ 1 → scState s p t = 1 → ends 0 s))) := by
  intro ends
  subst hq
  obtain ⟨op, c⟩ := y
  have hgo := exec_swapOps hrun hy
  have hends {code : Nat} {v : State} (hon : swapsOn op f.q (swapOne t) s = (v, swapEnded code)) (hv : v.flights = s.flights) :
      ends code v := ⟨_, hgo, swapGo_ends hflight hon hv⟩
  have hdone {code : Nat} (h : swapStream op f.q t s = (s, .done code)) : ends code s := hends (swapsOn_done h) rfl
  refine ⟨fun hdenied => hdone (swapStream_denied hdenied), fun hallowed hread => ?_⟩
  have h : SwapReach op f.q t s := ⟨hallowed, hread⟩
  have hfree (h0 : scState s f.q t ≠ 0) (href : scReferenced s f.q t = false) : SwapFree op f.q t s := ⟨h, h0, href⟩
  refine ⟨fun hs => hdone (h.unused hs), fun hs href => hdone (h.busy hs href), fun href => ⟨?out, ?full, ?enter, ?sync, ?sided⟩⟩
  case out =>
    rintro rfl hs b v hb hv hbeside
    obtain ⟨hon, hflights⟩ := (hfree (by omega) href).outDone hs hb hv fun z hz hne => (hbeside z hz hne).2
    exact hends hon hflights
  case full =>
    rintro rfl hs hfull
    exact hdone ((hfree (by omega) href).full hs hfull)
  case enter =>
    rintro rfl hs hroom b v hb hv hquiet
    obtain ⟨hon, hflights⟩ := (hfree (by omega) href).inDone hs hroom hb hv hquiet
    exact hends hon hflights
  case sync =>
    rintro rfl hs hr
    exact hends (swapsOn_done ((hfree (by omega) href).sync hs hr)) (flights_of_reach (scStore_only .beside f.q t (s, none)) (by decide))
  case sided => exact fun hop hs => hdone ((hfree (by omega) href).sided hop hs)

end

/-- Settles O50: the steps of the swaps, and the SWAP descriptors on one stream, each as its step leaves it. -/
theorem recurrentStreamsSwap : Obligations.RecurrentStreamsSwap := by
  unfold Obligations.RecurrentStreamsSwap
  intro p t s hrun hc x a sb siding rest own open_ stops inGo inEnd outEnd
  refine ⟨fun h => (exec_streamSwapIn hrun).trans (congrArg _ (streamSwapIn_waits h)),
    fun hwanted hsided hshown => streamSwapIn_starts hrun hc hwanted ⟨hsided, hshown⟩,
    fun h => (exec_swapInComplete hrun).trans (congrArg _ (swapInComplete_waits h)),
    fun y hinbound hslot hshown => swapInComplete_effect hrun ⟨hinbound, hslot, hshown⟩,
    fun h => (exec_swapOutComplete hrun).trans (congrArg _ (swapOutComplete_waits h)),
    fun y houtbound hslot => swapOutComplete_effect hrun ⟨houtbound, hslot⟩, ?_⟩
  intro fid op c f w hmem hflight hq hleft hwait hfail
  obtain ⟨left, waitFor, fail⟩ := w
  obtain ⟨rfl, rfl, rfl⟩ : left = [t] ∧ waitFor = [] ∧ fail = none := ⟨hleft, hwait, hfail⟩
  exact swapOne_ends hrun hmem hflight hq

end Sys2Proof.Machine
end

section
/-!
PROOFS. Messages between devices at a port (R235 to R238, R289, R299): a message that is taken, one that is sent, and an answer under
the key of the request.
-/
namespace Sys2Proof.Machine

/-! ### A message is taken -/

theorem takeMsg_only {p mt : Nat} {s t : State} {m : Msg} (h : takeMsg p mt s = some (m, t)) : Reach [.ports] s t :=
  (takeMsg_reach (L := [.ports]) (by decide) .rfl').useSnd h

/-! ### A message is sent (R289) -/

theorem queue_sendMsg (p q : Nat) (m : Msg) (s : State) :
    (portOf (sendMsg p m s) q).queue = if q = p then (portOf s p).queue ++ [m] else (portOf s q).queue := by
  unfold sendMsg
  rw [portOf_setPort]
  split <;> rfl

theorem mem_queue_sendMsg (p : Nat) (m : Msg) (s : State) : m ∈ (portOf (sendMsg p m s) p).queue := by
  rw [queue_sendMsg, if_pos rfl]
  exact List.mem_append_right _ List.mem_cons_self

/-- What waits at a port still waits when a further message has been sent. -/
theorem queue_sendMsg_keeps {q : Nat} {x : Msg} {s : State} (h : x ∈ (portOf s q).queue) (p : Nat) (m : Msg) :
    x ∈ (portOf (sendMsg p m s) q).queue := by
  rw [queue_sendMsg]
  split
  next e => exact List.mem_append_left _ (e ▸ h)
  next => exact h

theorem sendTo_route {peer q : Nat} {s : State} (h : route s peer = some q) (m : Msg) : sendTo peer m s = sendMsg q m s := by
  rw [sendTo, h]

theorem queue_sendTo_keeps {q : Nat} {x : Msg} {s : State} (h : x ∈ (portOf s q).queue) (peer : Nat) (m : Msg) :
    x ∈ (portOf (sendTo peer m s) q).queue := by
  unfold sendTo
  split
  next p hp => exact queue_sendMsg_keeps h p m
  next => exact h

/-- A route depends on what the ports are, not on what waits at them. -/
theorem route_congr {s t : State} (h : ∀ p, { portOf t p with queue := (portOf s p).queue } = portOf s p) (peer : Nat) :
    route t peer = route s peer := by
  have hstate (p : Nat) : (portOf t p).state = (portOf s p).state := (congrArg Port.state (h p) :)
  have hprev (p : Nat) : (portOf t p).prev = (portOf s p).prev := (congrArg Port.prev (h p) :)
  have hpartner (p : Nat) : partnerNow (portOf t p) = partnerNow (portOf s p) :=
    (congrArg partnerNow (h p) :)
  unfold route
  simp only [hstate, hprev, hpartner]

theorem route_of_ports {s t : State} (h : t.ports = s.ports) (peer : Nat) : route t peer = route s peer :=
  route_congr (fun p => by rw [portOf_of_ports h]) peer

theorem route_sendMsg (p : Nat) (m : Msg) (s : State) (peer : Nat) : route (sendMsg p m s) peer = route s peer := by
  refine route_congr (fun q => ?_) peer
  unfold sendMsg
  rw [portOf_setPort]
  split
  next e => rw [e]
  next => rfl

theorem route_sendTo (dst : Nat) (m : Msg) (s : State) (peer : Nat) : route (sendTo dst m s) peer = route s peer := by
  unfold sendTo
  split
  · exact route_sendMsg ..
  · rfl

theorem sendTo_only (peer : Nat) (m : Msg) (s : State) : Reach [.ports] s (sendTo peer m s) := sendTo_reach (by decide) .rfl'

/-! ### An answer (R235, R299) -/

theorem slotOfKey_of_secs {s t : State} (h : t.secs = s.secs) (k : Nat) : slotOfKey t k = slotOfKey s k := by
  unfold slotOfKey jobSlot
  rw [h]

/-- An answer to a message waits at a port, under the key of the message as a state holds it. -/
def Answered (z : State) (port : Nat) (m : Msg) (vl : Nat) (head body : List Byte) (u : State) : Prop :=
  ∀ p k, slotOfKey z (bF m.head 208 4) = some (p, k) → ∃ x, x ∈ (portOf u port).queue ∧ x.vl = vl ∧ x.dst = m.src ∧
    x.head = head ∧ x.body = body ∧ (x.keyPart, x.keySlot) = (p, k)

theorem reply_answered {z t : State} (h : t.secs = z.secs) {port vl : Nat} {m : Msg} {head body : List Byte} :
    Answered z port m vl head body (reply port m vl head body t) := by
  intro p k hkey
  unfold reply
  rw [slotOfKey_of_secs h, hkey]
  exact ⟨_, mem_queue_sendMsg .., rfl, rfl, rfl, rfl, rfl⟩

theorem reply_only {port vl : Nat} {m : Msg} {head body : List Byte} {s : State} :
    Reach [.ports] s (reply port m vl head body s) := reply_reach (by decide) .rfl'

section
variable (port vl : Nat) (m : Msg) (head body : List Byte) (s : State)

@[simp] theorem reply_mem : (reply port m vl head body s).mem = s.mem := reply_only.frame .mem (by decide)
@[simp] theorem reply_exts : (reply port m vl head body s).exts = s.exts := reply_only.frame .exts (by decide)
@[simp] theorem reply_lends : (reply port m vl head body s).lends = s.lends := reply_only.frame .lends (by decide)

end

end Sys2Proof.Machine
end

section
/-!
PROOFS. Leases at their lender (R235 to R238, R299): what ends a lease, the grant, and the recall of a peer's leases.
-/
namespace Sys2Proof.Machine

/-! ### Fresh memory -/

theorem tabGet_filter_gone {α : Type} (d : Nat → α) (p : Nat × α → Bool) (k : Nat) (hp : ∀ v, p (k, v) = false) (t : Tab α) :
    tabGet d (t.filter p) k = d k := by
  induction t with
  | nil => rfl
  | cons e r ih =>
    obtain ⟨a, v⟩ := e
    by_cases h : p (a, v) = true
    · have hne : a ≠ k := fun e => by simp [e, hp] at h
      rw [List.filter_cons_of_pos h, tabGet, if_neg hne, ih]
    · rw [List.filter_cons_of_neg h, ih]

theorem rd1_zeroFill (a n : Nat) (s : State) (x : Nat) : rd1 (zeroFill a n s) x = if a ≤ x ∧ x < a + n then 0 else rd1 s x := by
  unfold rd1 zeroFill
  dsimp only
  split
  next h => exact tabGet_filter_gone _ _ _ (fun v => by simp [h]) _
  next h => exact Reach.tabGet_filter _ _ _ (fun v => by simp [h]) _

theorem zeroExtent_mem (e : Nat) (s : State) : (zeroExtent e s).mem = (zeroFill (e * 2 ^ 30) (2 ^ 30) s).mem :=
  (dropLines_reach (L := [.regs .yrd, .yard]) (by decide) (by decide) .rfl').frame .mem (by decide)

theorem rd1_zeroExtent (e : Nat) (s : State) (a : Nat) : rd1 (zeroExtent e s) a = if a / 2 ^ 30 = e then 0 else rd1 s a := by
  rw [rd1_of_mem (zeroExtent_mem e s), rd1_zeroFill]
  have : (e * 2 ^ 30 ≤ a ∧ a < e * 2 ^ 30 + 2 ^ 30) ↔ a / 2 ^ 30 = e := by omega
  simp only [this]

theorem zeroExtent_only (e : Nat) (s : State) : Reach [.regs .yrd, .mem, .yard, .mce] s (zeroExtent e s) :=
  zeroExtent_reach (by decide) (by decide) (by decide) (by decide) .rfl'

/-! ### The extents of a lease that ends (R236, R238) -/

/-- An extent of a lease that ends: where it is still lent, it is zero and lendable again. -/
def takenBack (s : State) (e : Nat) : State :=
  if tabGet extDefault s.exts e = .lent then zeroExtent e (setExt e .lendable s) else s

theorem takenBack_ext (e b : Nat) (s : State) : tabGet extDefault (takenBack s e).exts b =
    if b = e ∧ tabGet extDefault s.exts b = .lent then .lendable else tabGet extDefault s.exts b := by
  unfold takenBack
  split
  next h =>
    rw [(zeroExtent_only ..).frame .exts (by decide), setExt_exts, tabGet_tabSet]
    by_cases hb : b = e
    · rw [if_pos hb, if_pos ⟨hb, hb ▸ h⟩]
    · rw [if_neg hb, if_neg (mt And.left hb)]
  next h => rw [if_neg (fun ⟨hb, hl⟩ => h (hb ▸ hl))]

theorem rd1_takenBack (e : Nat) (s : State) (a : Nat) : rd1 (takenBack s e) a =
    if a / 2 ^ 30 = e ∧ tabGet extDefault s.exts (a / 2 ^ 30) = .lent then 0 else rd1 s a := by
  unfold takenBack
  split
  next h =>
    rw [rd1_zeroExtent, rd1_of_mem (setExt_mem ..)]
    by_cases ha : a / 2 ^ 30 = e
    · rw [if_pos ha, if_pos ⟨ha, ha ▸ h⟩]
    · rw [if_neg ha, if_neg (mt And.left ha)]
  next h => rw [if_neg (fun ⟨hb, hl⟩ => h (hb ▸ hl))]

theorem lendEnd_eq (l : Lend) (s : State) :
    lendEnd l s = { l.exts.foldl takenBack s with lends := (l.exts.foldl takenBack s).lends.filter fun x => x.id != l.id } := rfl

theorem allBack_only (es : List Nat) (s : State) : Reach [.regs .yrd, .mem, .yard, .mce, .exts] s (es.foldl takenBack s) :=
  Reach.foldl (fun t e h => by
    unfold takenBack
    exact Reach.ite (zeroExtent_reach (by decide) (by decide) (by decide) (by decide) (setExt_reach (by decide) h)) h) .rfl'

theorem allBack_ext (es : List Nat) (b : Nat) (s : State) : tabGet extDefault (es.foldl takenBack s).exts b =
    if b ∈ es ∧ tabGet extDefault s.exts b = .lent then .lendable else tabGet extDefault s.exts b := by
  induction es generalizing s with
  | nil => simp
  | cons e es ih =>
    rw [List.foldl_cons, ih, takenBack_ext]
    by_cases he : b = e
    · subst he
      by_cases hb : tabGet extDefault s.exts b = .lent <;> simp [hb]
    · simp [he]

theorem rd1_allBack (es : List Nat) (a : Nat) (s : State) : rd1 (es.foldl takenBack s) a =
    if a / 2 ^ 30 ∈ es ∧ tabGet extDefault s.exts (a / 2 ^ 30) = .lent then 0 else rd1 s a := by
  induction es generalizing s with
  | nil => simp
  | cons e es ih =>
    rw [List.foldl_cons, ih, takenBack_ext, rd1_takenBack]
    generalize a / 2 ^ 30 = b
    by_cases he : b = e
    · subst he
      by_cases hb : tabGet extDefault s.exts b = .lent <;> simp [hb]
    · simp [he]

/-- An extent of a lease that is lent. -/
def LentExt (z : State) (l : Lend) (e : Nat) : Prop := e ∈ l.exts ∧ tabGet extDefault z.exts e = .lent

/-- A lease has ended at its lender: no entry of its number is left, its extents are lendable again and read as zero. -/
structure LendEnded (z : State) (l : Lend) (u : State) : Prop where
  lends : u.lends = z.lends.filter fun x => x.id != l.id
  lendable : ∀ e, LentExt z l e → tabGet extDefault u.exts e = .lendable
  others : ∀ e, ¬LentExt z l e → tabGet extDefault u.exts e = tabGet extDefault z.exts e
  zero : ∀ a, LentExt z l (a / 2 ^ 30) → rd1 u a = 0
  kept : ∀ a, ¬LentExt z l (a / 2 ^ 30) → rd1 u a = rd1 z a

theorem lendEnd_ended (l : Lend) (s : State) : LendEnded s l (lendEnd l s) where
  lends := by
    rw [lendEnd_eq]
    exact congrArg (List.filter _) ((allBack_only l.exts s).frame .lends (by decide))
  lendable e h := (allBack_ext l.exts e s).trans (if_pos h)
  others e h := (allBack_ext l.exts e s).trans (if_neg h)
  zero a h := (rd1_allBack l.exts a s).trans (if_pos h)
  kept a h := (rd1_allBack l.exts a s).trans (if_neg h)

theorem LendEnded.congr {l : Lend} {z z' u u' : State} (h : LendEnded z l u) (hz : Reach [.ports] z z')
    (hl : u'.lends = u.lends) (he : u'.exts = u.exts) (hm : u'.mem = u.mem) : LendEnded z' l u' := by
  have hzl : z'.lends = z.lends := hz.frame .lends (by decide)
  have hze : z'.exts = z.exts := hz.frame .exts (by decide)
  have hlent (e : Nat) : LentExt z' l e ↔ LentExt z l e := by rw [LentExt, LentExt, hze]
  refine ⟨by rw [hl, hzl, h.lends], fun e g => ?_, fun e g => ?_, fun a g => ?_, fun a g => ?_⟩
  · rw [he, h.lendable e ((hlent e).mp g)]
  · rw [he, hze, h.others e (mt (hlent e).mpr g)]
  · rw [rd1_of_mem hm, h.zero a ((hlent _).mp g)]
  · rw [rd1_of_mem hm, rd1_of_mem (hz.frame .mem (by decide)), h.kept a (mt (hlent _).mpr g)]

theorem lendEnd_only (l : Lend) (s : State) : Reach [.regs .yrd, .mem, .yard, .exts, .lends, .mce] s (lendEnd l s) :=
  lendEnd_reach (by decide) (by decide) (by decide) (by decide) (by decide) (by decide) .rfl'

/-! ### The grant (R235) -/

theorem mem_uniq {α : Type} [DecidableEq α] {l : List α} {x : α} : x ∈ uniq l ↔ x ∈ l := by
  unfold uniq
  rw [List.mem_reverse]
  suffices h : ∀ acc : List α, x ∈ l.foldl (fun acc x => if acc.contains x then acc else x :: acc) acc ↔ x ∈ acc ∨ x ∈ l by
    simpa using h []
  induction l with
  | nil => simp
  | cons y l ih =>
    intro acc
    rw [List.foldl_cons, ih]
    by_cases hy : y ∈ acc
    · simp only [List.contains_iff_mem, hy, if_true, List.mem_cons]
      constructor
      · rintro (h | h) <;> simp [h]
      · rintro (h | rfl | h) <;> simp [*]
    · simp only [List.contains_iff_mem, hy, if_false, List.mem_cons]
      constructor
      · rintro ((rfl | h) | h) <;> simp [*]
      · rintro (h | rfl | h) <;> simp [*]

theorem mem_grantOrder {l : List Nat} {e : Nat} (h : e ∈ grantOrder l) : e ∈ l := by
  unfold grantOrder at h
  obtain ⟨i, -, hi⟩ := List.mem_flatMap.mp h
  obtain ⟨u, -, hu⟩ := List.mem_filterMap.mp hi
  exact List.mem_of_mem_filter (List.mem_of_getElem? hu)

/-- A stack or package has at most 64 extents among the numbers of a list without repetition. -/
theorem unit_extents_le {l : List Nat} (h : l.Nodup) (u : Nat) : (l.filter fun e => e / 64 == u).length ≤ 64 := by
  have hsub : (l.filter fun e => e / 64 == u) ⊆ List.range' (64 * u) 64 := fun e he => by
    have he : e / 64 = u := by simpa using (List.mem_filter.mp he).2
    rw [List.mem_range'_1]
    omega
  simpa using ((List.subperm_of_subset (h.filter _) hsub).length_le)

/-- The order of the grant leaves no extent out. -/
theorem grantOrder_length {l : List Nat} (h : l.Nodup) : l.length ≤ (grantOrder l).length := by
  refine (List.subperm_of_subset h fun e he => ?_).length_le
  have hunit : e ∈ l.filter fun x => x / 64 == e / 64 := List.mem_filter.mpr ⟨he, by simp⟩
  obtain ⟨i, hi⟩ := List.mem_iff_getElem?.mp hunit
  have hlt : i < 64 := Nat.lt_of_lt_of_le (List.getElem?_eq_some_iff.mp hi).1 (unit_extents_le h _)
  exact List.mem_flatMap.mpr ⟨i, List.mem_range.mpr hlt,
    List.mem_filterMap.mpr ⟨e / 64, mem_uniq.mpr (List.mem_map_of_mem he), hi⟩⟩

theorem mem_lendables {s : State} {lpd : Bool} {e : Nat} (h : e ∈ lendables s lpd) :
    isExtent e = true ∧ tabGet extDefault s.exts e = .lendable ∧ (1024 ≤ e ↔ lpd = true) := by
  have hp := (List.mem_filter.mp h).2
  simp only [Bool.and_eq_true, beq_iff_eq] at hp
  obtain ⟨⟨he, hkind⟩, hfree⟩ := hp
  exact ⟨he, hfree, by rw [← hkind, decide_eq_true_eq]⟩

/-- What a grant names: as many extents as were asked for, each lendable, and of the kind asked for. -/
theorem grantOf_some {s : State} {kind count : Nat} {exts : List Nat} (h : grantOf s kind count = some exts) :
    exts.length = count ∧ ∀ e, e ∈ exts → isExtent e = true ∧ tabGet extDefault s.exts e = .lendable ∧
      (kind = 1 → e < 1024) ∧ (kind = 2 → 1024 ≤ e) := by
  unfold grantOf at h
  extract_lets hbm lpd l at h
  split at h
  next hg =>
    obtain ⟨-, -, -, hcount⟩ := hg
    obtain rfl := Option.some.inj h
    have hnodup : l.Nodup := by
      dsimp only [l]
      split
      · exact List.nodup_range.filter _
      · split
        · exact List.nodup_range.filter _
        · split <;> exact List.nodup_range.filter _
    refine ⟨by rw [List.length_take]; exact Nat.min_eq_left (hcount.trans (grantOrder_length hnodup)), fun e he => ?_⟩
    have hmem : e ∈ l := mem_grantOrder (List.mem_of_mem_take he)
    dsimp only [l] at hmem
    split at hmem
    next hk =>
      obtain ⟨hext, hfree, hunit⟩ := mem_lendables hmem
      exact ⟨hext, hfree, fun _ => Nat.lt_of_not_le fun g => Bool.false_ne_true (hunit.mp g), fun g => by omega⟩
    next hk =>
      split at hmem
      next hk2 =>
        obtain ⟨hext, hfree, hunit⟩ := mem_lendables hmem
        exact ⟨hext, hfree, fun g => absurd g hk, fun _ => hunit.mpr rfl⟩
      next hk2 =>
        have hlend : isExtent e = true ∧ tabGet extDefault s.exts e = .lendable := by
          split at hmem <;> exact ⟨(mem_lendables hmem).1, (mem_lendables hmem).2.1⟩
        exact ⟨hlend.1, hlend.2, fun g => absurd g hk, fun g => absurd g hk2⟩
  next => cases h

/-- The extents of a list are lent. -/
def allLent (es : List Nat) (s : State) : State := es.foldl (fun s e => setExt e .lent s) s

theorem allLent_only (es : List Nat) (s : State) : Reach [.exts] s (allLent es s) :=
  Reach.foldl (fun _ _ h => setExt_reach (by decide) h) .rfl'

theorem allLent_ext (es : List Nat) (b : Nat) (s : State) :
    tabGet extDefault (allLent es s).exts b = if b ∈ es then .lent else tabGet extDefault s.exts b := by
  unfold allLent
  induction es generalizing s with
  | nil => simp
  | cons e es ih =>
    rw [List.foldl_cons, ih, setExt_exts, tabGet_tabSet]
    by_cases hb : b = e <;> simp [hb]

/-- The state in which an LREQ is judged: a lease that the borrower names as new has ended here (log entry 25). -/
def staleEnded (m : Msg) (s : State) : State :=
  match lentLease s m with
  | some l => lendEnd l s
  | none => s

theorem staleEnded_only (m : Msg) (s : State) : Reach [.regs .yrd, .mem, .yard, .exts, .lends, .mce] s (staleEnded m s) := by
  unfold staleEnded
  split
  · exact lendEnd_only ..
  · exact .rfl'

/-- The lease that an LREQ is granted. -/
def grantedLend (m : Msg) (exts : List Nat) : Lend := ⟨bF m.head 4 4, bits 26 12 (bF m.head 4 4), exts, false, 1, bF m.head 208 4⟩

/-- A lease has been entered with the extents it is granted. -/
def lentOut (m : Msg) (exts : List Nat) (s : State) : State :=
  { allLent exts s with lends := (allLent exts s).lends ++ [grantedLend m exts] }

section
variable {port : Nat} {m : Msg} {s t : State}

theorem lreqIn_grants {exts : List Nat} (h : takeMsg port 1 s = some (m, t))
    (hg : grantOf (staleEnded m t) (bF m.head 1 1) (bF m.head 2 2) = some exts) :
    lreqIn port s =
      reply port m 0 (leaseMsg 2 0 exts.length (bF m.head 4 4) 0 exts) [] (lentOut m exts (staleEnded m t)) := by
  unfold lreqIn
  rw [h]
  dsimp only
  unfold staleEnded at hg
  split
  next exts' hg' =>
    obtain rfl := Option.some.inj (hg.symm.trans hg')
    rfl
  next hg' => cases hg.symm.trans hg'

theorem lreqIn_refuses (h : takeMsg port 1 s = some (m, t))
    (hg : grantOf (staleEnded m t) (bF m.head 1 1) (bF m.head 2 2) = none) :
    lreqIn port s =
      reply port m 0 (leaseMsg 3 1 0 (bF m.head 4 4) 0 []) [] (inc pgLease Fld.MEM_LEASE_REFUSED 1 (staleEnded m t)) := by
  unfold lreqIn
  rw [h]
  dsimp only
  unfold staleEnded at hg
  split
  next exts' hg' => cases hg.symm.trans hg'
  next hg' => rfl

/-- What an LREQ leaves that is granted (R235). -/
theorem lreqIn_granted {exts : List Nat} (h : takeMsg port 1 s = some (m, t))
    (hg : grantOf (staleEnded m t) (bF m.head 1 1) (bF m.head 2 2) = some exts) :
    Answered t port m 0 (leaseMsg 2 0 exts.length (bF m.head 4 4) 0 exts) [] (lreqIn port s) ∧
      (∀ e, tabGet extDefault (lreqIn port s).exts e = if e ∈ exts then .lent else tabGet extDefault (staleEnded m t).exts e) ∧
      (lreqIn port s).lends = (staleEnded m t).lends ++ [grantedLend m exts] := by
  have hstale := staleEnded_only m t
  have hlent := allLent_only exts (staleEnded m t)
  have hsecs : (lentOut m exts (staleEnded m t)).secs = t.secs :=
    (hstale.comp hlent).frame .secs (by decide)
  have hlends : (lentOut m exts (staleEnded m t)).lends = (staleEnded m t).lends ++ [grantedLend m exts] :=
    congrArg (· ++ [grantedLend m exts]) (hlent.frame .lends (by decide))
  rw [lreqIn_grants h hg]
  refine ⟨reply_answered hsecs, fun e => ?_, (reply_lends ..).trans hlends⟩
  rw [reply_exts]
  exact allLent_ext exts e _

/-- What an LREQ leaves that is refused (R235). -/
theorem lreqIn_refused (h : takeMsg port 1 s = some (m, t))
    (hg : grantOf (staleEnded m t) (bF m.head 1 1) (bF m.head 2 2) = none) :
    Answered t port m 0 (leaseMsg 3 1 0 (bF m.head 4 4) 0 []) [] (lreqIn port s) ∧
      CountsUp pgLease Fld.MEM_LEASE_REFUSED 1 s (lreqIn port s) ∧
      (lreqIn port s).lends = (staleEnded m t).lends ∧ (lreqIn port s).exts = (staleEnded m t).exts := by
  have hstale := staleEnded_only m t
  rw [lreqIn_refuses h hg]
  refine ⟨reply_answered ?_, ?_, ?_, ?_⟩
  · rw [inc_secs, hstale.frame .secs (by decide)]
  · refine (countsUp_inc (by decide) 1 (staleEnded m t)).congr ?_ (rg_of_reach reply_only (by decide) _)
    rw [rg_of_reach hstale (by decide), rg_of_reach (takeMsg_only h) (by decide)]
  · rw [reply_lends, inc_lends]
  · rw [reply_exts, inc_exts]

/-! ### LKEEP and LREL (R235, R236, R238) -/

/-- The lender has answered that it does not hold the lease of a message, and nothing of its leases has changed. -/
def ToldUnknown (z : State) (port : Nat) (m : Msg) (u : State) : Prop :=
  Answered z port m 0 (leaseMsg 8 0 0 (bF m.head 4 4) 0 []) [] u ∧ u.lends = z.lends ∧ u.exts = z.exts ∧ u.mem = z.mem

theorem sayUnknown_told (port : Nat) (m : Msg) (s : State) : ToldUnknown s port m (sayUnknown port m s) :=
  ⟨reply_answered rfl, reply_lends .., reply_exts .., reply_mem ..⟩

/-- The lends with one more message sent on a lease. -/
def keptAlive (l : Lend) (s : State) : State :=
  { s with lends := s.lends.map fun x => if x.id = l.id then { x with seq := x.seq + 1 } else x }

theorem lkeepIn_held {l : Lend} (h : takeMsg port 4 s = some (m, t)) (hl : lentLease t m = some l) :
    lkeepIn port s = reply port m 0 (leaseMsg 4 0 0 l.id l.seq []) [] (keptAlive l t) := by
  unfold lkeepIn
  rw [h]
  dsimp only
  rw [hl]
  rfl

theorem lkeepIn_unheld (h : takeMsg port 4 s = some (m, t)) (hl : lentLease t m = none) :
    lkeepIn port s = if bits 26 12 (bF m.head 4 4) = fabId t then t else sayUnknown port m t := by
  unfold lkeepIn
  rw [h]
  dsimp only
  rw [hl]

theorem lkeepIn_answered {l : Lend} (h : takeMsg port 4 s = some (m, t)) (hl : lentLease t m = some l) :
    Answered t port m 0 (leaseMsg 4 0 0 l.id l.seq []) [] (lkeepIn port s) ∧
      (lkeepIn port s).lends = s.lends.map fun x => if x.id = l.id then { x with seq := x.seq + 1 } else x := by
  rw [lkeepIn_held h hl]
  refine ⟨reply_answered (z := t) (t := keptAlive l t) rfl, ?_⟩
  rw [reply_lends, keptAlive, (takeMsg_only h).frame .lends (by decide)]

theorem lrelIn_held {l : Lend} (h : takeMsg port 5 s = some (m, t)) (hl : lentLease t m = some l) :
    lrelIn port s = reply port m 0 (leaseMsg 6 0 0 l.id l.seq []) [] (lendEnd l t) := by
  unfold lrelIn
  rw [h]
  dsimp only
  rw [hl]

theorem lrelIn_unheld (h : takeMsg port 5 s = some (m, t)) (hl : lentLease t m = none) :
    lrelIn port s = reply port m 0 (leaseMsg 6 0 0 (bF m.head 4 4) 0 []) [] t := by
  unfold lrelIn
  rw [h]
  dsimp only
  rw [hl]

theorem lrelIn_ended {l : Lend} (h : takeMsg port 5 s = some (m, t)) (hl : lentLease t m = some l) :
    LendEnded t l (lrelIn port s) ∧ Answered t port m 0 (leaseMsg 6 0 0 l.id l.seq []) [] (lrelIn port s) := by
  rw [lrelIn_held h hl]
  exact ⟨(lendEnd_ended l t).congr .rfl' (reply_lends ..) (reply_exts ..) (reply_mem ..),
    reply_answered ((lendEnd_only l t).frame .secs (by decide))⟩

/-! ### LRD and LWR (R299) -/

/-- The range of a lent extent that an access names. -/
def lentRange (s : State) (m : Msg) : Option (Nat × Nat) := (lentLease s m).bind fun l => accTarget l m

theorem lentRange_taken {mt : Nat} (h : takeMsg port mt s = some (m, t)) : lentRange s m = lentRange t m := by
  unfold lentRange lentLease
  rw [(takeMsg_only h).frame .lends (by decide)]

theorem lrdIn_unknown (h : takeMsg port 0x20 s = some (m, t)) (ha : lentRange t m = none) :
    lrdIn port s = sayUnknown port m t := by
  unfold lrdIn
  rw [h]
  dsimp only
  rw [show (lentLease s m).bind (fun l => accTarget l m) = none from (lentRange_taken h).trans ha]

theorem lrdIn_known {a n : Nat} (h : takeMsg port 0x20 s = some (m, t)) (ha : lentRange t m = some (a, n)) :
    lrdIn port s = if heldRange s a n then s else
      if (memRead .lend 0 a n t).2.isSome then (memRead .lend 0 a n t).1
      else reply port m 0 (accHead 0x21 (bF m.head 4 4) 0 0 n (bF m.head 20 4)) (padTo (ceilDiv n 256 * 256) (rdBytes t a n))
        (memRead .lend 0 a n t).1 := by
  unfold lrdIn
  rw [h]
  dsimp only
  rw [show (lentLease s m).bind (fun l => accTarget l m) = some (a, n) from (lentRange_taken h).trans ha]

theorem memRead_only (via : Via) (p a n : Nat) (s : State) :
    Reach [.regs .yrd, .regs .mem, .regs .lpd, .regs .mce, .regs .sec, .regs .ras, .regs .evr, .yard, .evr, .freeCtr] s
      (memRead via p a n s).1 :=
  (memRead_reach (by decide) (by decide) (by decide) (by decide) (by decide) (by decide) (by decide) (by decide) (by decide)
    (by decide) .rfl').out

theorem lrdIn_answered {a n : Nat} (h : takeMsg port 0x20 s = some (m, t)) (ha : lentRange t m = some (a, n))
    (hheld : heldRange s a n = false) (hr : (memRead .lend 0 a n t).2 = none) :
    (lrdIn port s).mem = s.mem ∧ (lrdIn port s).lends = s.lends ∧
      Answered t port m 0 (accHead 0x21 (bF m.head 4 4) 0 0 n (bF m.head 20 4)) (padTo (ceilDiv n 256 * 256) (rdBytes s a n))
        (lrdIn port s) := by
  have htake := takeMsg_only h
  have hread := memRead_only .lend 0 a n t
  have hbytes : rdBytes t a n = rdBytes s a n := rdBytes_of_mem (htake.frame .mem (by decide)) a n
  rw [lrdIn_known h ha, if_neg (by simp [hheld]), if_neg (by simp [hr]), hbytes]
  refine ⟨?_, ?_, reply_answered (hread.frame .secs (by decide))⟩
  · rw [reply_mem, (htake.comp hread).frame .mem (by decide)]
  · rw [reply_lends, (htake.comp hread).frame .lends (by decide)]

theorem lwrIn_unknown (h : takeMsg port 0x22 s = some (m, t)) (ha : lentRange t m = none) :
    lwrIn port s = sayUnknown port m t := by
  unfold lwrIn
  rw [h]
  dsimp only
  rw [show (lentLease s m).bind (fun l => accTarget l m) = none from (lentRange_taken h).trans ha]

theorem lwrIn_known {a n : Nat} (h : takeMsg port 0x22 s = some (m, t)) (ha : lentRange t m = some (a, n)) :
    lwrIn port s = if heldRange s a n then s else
      if (memWrite .lend 0 0 a (m.body.take n) t).2.isSome then (memWrite .lend 0 0 a (m.body.take n) t).1
      else reply port m 0 (accHead 0x23 (bF m.head 4 4) 0 0 0 (bF m.head 20 4)) [] (memWrite .lend 0 0 a (m.body.take n) t).1 := by
  unfold lwrIn
  rw [h]
  dsimp only
  rw [show (lentLease s m).bind (fun l => accTarget l m) = some (a, n) from (lentRange_taken h).trans ha]

theorem memWrite_only (via : Via) (p fid a : Nat) (bs : List Byte) (s : State) :
    Reach memAccess s (memWrite via p fid a bs s).1 :=
  (memWrite_reach (by decide) (by decide) (by decide) (by decide) (by decide) (by decide) (by decide) (by decide) (by decide)
    (by decide) (by decide) (by decide) (by decide) (by decide) (by decide) .rfl').out

theorem lwrIn_answered {a n : Nat} (h : takeMsg port 0x22 s = some (m, t)) (ha : lentRange t m = some (a, n))
    (hheld : heldRange s a n = false) (hw : (memWrite .lend 0 0 a (m.body.take n) t).2 = none) :
    MemHolds [(a, m.body.take n)] s (lwrIn port s) ∧ (lwrIn port s).lends = s.lends ∧
      Answered t port m 0 (accHead 0x23 (bF m.head 4 4) 0 0 0 (bF m.head 20 4)) [] (lwrIn port s) := by
  have htake := takeMsg_only h
  have hwrite := memWrite_only .lend 0 0 a (m.body.take n) t
  rw [lwrIn_known h ha, if_neg (by simp [hheld]), if_neg (by simp [hw])]
  refine ⟨?_, ?_, reply_answered (hwrite.frame .secs (by decide))⟩
  · exact MemHolds.of_mem (writeAll_holds .lend 0 0 [(a, m.body.take n)] t hw) (htake.frame .mem (by decide))
      (reply_mem ..)
  · rw [reply_lends, (htake.comp hwrite).frame .lends (by decide)]

end

/-! ### A lease that its borrower has left (R236, R237) -/

theorem lendLost_found {id : Nat} {l : Lend} {s : State} (h : (s.lends.find? fun x => x.id == id) = some l) :
    lendLost id s = inc pgLease Fld.MEM_LEASE_LOST 1 (lendEnd l s) := by
  unfold lendLost
  rw [h]

theorem lendLost_ended {id : Nat} {l : Lend} {s : State} (h : (s.lends.find? fun x => x.id == id) = some l) :
    LendEnded s l (lendLost id s) ∧ CountsUp pgLease Fld.MEM_LEASE_LOST 1 s (lendLost id s) ∧ (lendLost id s).ports = s.ports := by
  rw [lendLost_found h]
  refine ⟨(lendEnd_ended l s).congr .rfl' (inc_lends ..) (inc_exts ..) (inc_mem ..), ?_, ?_⟩
  · exact (countsUp_inc (by decide) 1 (lendEnd l s)).congr (rg_of_reach (lendEnd_only l s) (by decide) _) rfl
  · rw [inc_ports, (lendEnd_only l s).frame .ports (by decide)]

theorem exec_reclaimGraceEnd {id : Nat} {s : State} (h : Running s) : exec (.reclaimGraceEnd id) s =
    .next (wh (s.lends.any fun l => l.id == id && l.reclaiming) (lendLost id) s) := by
  show Host.Outcome.next (wh (on s && _) _ _) = _
  rw [on_of_running h, Bool.true_and]

/-! ### MEM_RECLAIM (R237) -/

/-- An entry after LRECL has been sent for a lease. -/
def recalled (l x : Lend) : Lend := if x.id = l.id then { x with reclaiming := true, seq := x.seq + 1 } else x

/-- An entry after LRECL has been sent for some leases. -/
def recalledBy (ls : List Lend) (x : Lend) : Lend := ls.foldl (fun x l => recalled l x) x

theorem recalled_keeps (l x : Lend) : (recalled l x).id = x.id ∧ (recalled l x).borrower = x.borrower ∧
    (recalled l x).exts = x.exts ∧ (recalled l x).keyid = x.keyid ∧ (x.reclaiming = true → (recalled l x).reclaiming = true) := by
  unfold recalled
  split
  · exact ⟨rfl, rfl, rfl, rfl, fun _ => rfl⟩
  · exact ⟨rfl, rfl, rfl, rfl, id⟩

theorem recalledBy_keeps (ls : List Lend) (x : Lend) : (recalledBy ls x).id = x.id ∧ (recalledBy ls x).borrower = x.borrower ∧
    (recalledBy ls x).exts = x.exts ∧ (recalledBy ls x).keyid = x.keyid ∧
      (x.reclaiming = true → (recalledBy ls x).reclaiming = true) := by
  unfold recalledBy
  induction ls generalizing x with
  | nil => exact ⟨rfl, rfl, rfl, rfl, id⟩
  | cons l ls ih =>
    obtain ⟨hid, hborrower, hexts, hkey, hrec⟩ := ih (recalled l x)
    obtain ⟨gid, gborrower, gexts, gkey, grec⟩ := recalled_keeps l x
    exact ⟨hid.trans gid, hborrower.trans gborrower, hexts.trans gexts, hkey.trans gkey, fun h => hrec (grec h)⟩

theorem recalledBy_other {ls : List Lend} {x : Lend} (h : ∀ l, l ∈ ls → x.id ≠ l.id) : recalledBy ls x = x := by
  unfold recalledBy
  induction ls with
  | nil => rfl
  | cons l ls ih =>
    rw [List.foldl_cons, recalled, if_neg (h l List.mem_cons_self)]
    exact ih fun k hk => h k (List.mem_cons_of_mem _ hk)

theorem recalledBy_mem {ls : List Lend} {x : Lend} (h : x ∈ ls) : (recalledBy ls x).reclaiming = true := by
  obtain ⟨as, bs, rfl⟩ := List.append_of_mem h
  have hhere : (recalled x (recalledBy as x)).reclaiming = true := by
    unfold recalled
    rw [if_pos (recalledBy_keeps as x).1]
  have hafter := (recalledBy_keeps bs (recalled x (recalledBy as x))).2.2.2.2 hhere
  rwa [recalledBy, List.foldl_append, List.foldl_cons]

/-- The message that recalls a lease. -/
def recallMsg (peer p k : Nat) (l : Lend) : Msg := ⟨0, 0, peer, 16, leaseMsg 7 0 0 l.id l.seq [], [], p, k⟩

/-- A lease is marked as being reclaimed. -/
def markRecalled (l : Lend) (s : State) : State := { s with lends := s.lends.map (recalled l) }

/-- LRECL for one lease. -/
def recallOne (peer : Nat) (s : State) (l : Lend) : State :=
  match slotOfKey (markRecalled l s) l.keyid with
  | some (p, k) => sendTo peer (recallMsg peer p k l) (markRecalled l s)
  | none => markRecalled l s

theorem recallOne_only (peer : Nat) (l : Lend) (s : State) : Reach [.ports] (markRecalled l s) (recallOne peer s l) := by
  unfold recallOne
  split
  · exact sendTo_only ..
  · exact .rfl'

theorem markRecalled_only (l : Lend) (s : State) : Reach [.lends] s (markRecalled l s) := Reach.lends .rfl' (by decide)

theorem recallAll_lends (peer : Nat) (ls : List Lend) (s : State) :
    (ls.foldl (recallOne peer) s).lends = s.lends.map (recalledBy ls) := by
  induction ls generalizing s with
  | nil => exact (List.map_id _).symm
  | cons l ls ih =>
    rw [List.foldl_cons, ih, (recallOne_only ..).frame .lends (by decide), markRecalled, List.map_map]
    rfl

theorem recallAll_only (peer : Nat) (ls : List Lend) (s : State) : Reach [.lends, .ports] s (ls.foldl (recallOne peer) s) := by
  induction ls generalizing s with
  | nil => exact .rfl'
  | cons l ls ih =>
    exact (((markRecalled_only l s).comp (recallOne_only peer l s)).comp (ih _)).mono (by decide)

theorem route_recallOne (peer : Nat) (l : Lend) (s : State) (p : Nat) : route (recallOne peer s l) p = route s p := by
  unfold recallOne
  split
  · rw [route_sendTo]
    exact route_of_ports rfl p
  · exact route_of_ports rfl p

theorem queue_recallOne_keeps {q : Nat} {x : Msg} {s : State} (h : x ∈ (portOf s q).queue) (peer : Nat) (l : Lend) :
    x ∈ (portOf (recallOne peer s l) q).queue := by
  unfold recallOne
  split
  · exact queue_sendTo_keeps (s := markRecalled l s) h _ _
  · exact h

/-- What has been sent for every lease of a list whose key is held and whose peer is reached. -/
theorem recallAll_sends {peer p k q : Nat} {ls : List Lend} {l : Lend} {s : State} (hl : l ∈ ls)
    (hkey : slotOfKey s l.keyid = some (p, k)) (hroute : route s peer = some q) :
    recallMsg peer p k l ∈ (portOf (ls.foldl (recallOne peer) s) q).queue := by
  refine foldl_establishes (P := fun t => slotOfKey t l.keyid = some (p, k) ∧ route t peer = some q)
    (Q := fun t => recallMsg peer p k l ∈ (portOf t q).queue) hl ?_ ?_ ?_ s ⟨hkey, hroute⟩
  · intro t x ⟨htkey, htroute⟩
    have hsecs : (recallOne peer t x).secs = t.secs := (recallOne_only peer x t).frame .secs (by decide)
    exact ⟨(slotOfKey_of_secs hsecs _).trans htkey, (route_recallOne peer x t peer).trans htroute⟩
  · intro t ⟨htkey, htroute⟩
    have hmarked : slotOfKey (markRecalled l t) l.keyid = some (p, k) := htkey
    have hpath : route (markRecalled l t) peer = some q := htroute
    unfold recallOne
    rw [hmarked]
    dsimp only
    rw [sendTo_route hpath]
    exact mem_queue_sendMsg ..
  · exact fun t x h => queue_recallOne_keeps h peer x

/-- The leases of a peer that are not being reclaimed. -/
def toRecall (s : State) (peer : Nat) : List Lend := s.lends.filter fun l => l.borrower == peer && !l.reclaiming

theorem mem_toRecall {s : State} {peer : Nat} {l : Lend} :
    l ∈ toRecall s peer ↔ l ∈ s.lends ∧ l.borrower = peer ∧ l.reclaiming = false := by
  simp [toRecall, List.mem_filter]

theorem memReclaim_go {data : Word} {s : State} (h : bit 31 data.toNat = true) :
    memReclaim 0 data s = (toRecall s (data.toNat % 2 ^ 15)).foldl (recallOne (data.toNat % 2 ^ 15)) (answerOk s) := by
  unfold memReclaim
  rw [if_neg (by decide), h]
  rfl

theorem exec_memReclaim {part : Nat} {data : Word} {s : State} (h : Running s) (hb : bootDone s = true) :
    exec (.memReclaim part data) s = .next (memReclaim part data s) :=
  congrArg Host.Outcome.next (atDone_ready ⟨h, hb⟩ _)

/-- What MEM_RECLAIM leaves with GO set (R237). -/
theorem memReclaim_recalls {data : Word} {s : State} (h : bit 31 data.toNat = true) {peer : Nat} (hp : data.toNat % 2 ^ 15 = peer) :
    (memReclaim 0 data s).bus = (0, 0) ∧ (memReclaim 0 data s).exts = s.exts ∧
      (∀ l, l ∈ s.lends → l.borrower = peer ∧ l.reclaiming = false →
        (∃ x, x ∈ (memReclaim 0 data s).lends ∧
          (x.id, x.borrower, x.exts, x.reclaiming, x.keyid) = (l.id, l.borrower, l.exts, true, l.keyid)) ∧
        ∀ p k q, slotOfKey s l.keyid = some (p, k) → route s peer = some q →
          recallMsg peer p k l ∈ (portOf (memReclaim 0 data s) q).queue) ∧
      (∀ l, l ∈ s.lends → (∀ y, y ∈ s.lends → y.id = l.id → ¬(y.borrower = peer ∧ y.reclaiming = false)) →
        l ∈ (memReclaim 0 data s).lends) := by
  have hgo := memReclaim_go (s := s) h
  rw [hp] at hgo
  have honly := recallAll_only peer (toRecall s peer) (answerOk s)
  have hlends := recallAll_lends peer (toRecall s peer) (answerOk s)
  rw [hgo]
  refine ⟨Eq.trans (honly.frame .bus (by decide)) (answerOk_bus s), honly.frame .exts (by decide), fun l hl hmeant => ?_,
    fun l hl hnone => ?_⟩
  · have hmem := mem_toRecall.mpr ⟨hl, hmeant⟩
    obtain ⟨hid, hborrower, hexts, hkey, -⟩ := recalledBy_keeps (toRecall s peer) l
    refine ⟨⟨recalledBy (toRecall s peer) l, hlends ▸ List.mem_map_of_mem hl, ?_⟩, fun p k q hslot hroute => ?_⟩
    · rw [hid, hborrower, hexts, hkey, recalledBy_mem hmem]
    · exact recallAll_sends hmem hslot hroute
  · have hsame : recalledBy (toRecall s peer) l = l := recalledBy_other fun y hy hid => by
      obtain ⟨hys, hy⟩ := mem_toRecall.mp hy
      exact hnone y hys hid.symm hy
    exact hlends ▸ hsame ▸ List.mem_map_of_mem hl

/-! ### The statement -/

theorem exec_lreq {port : Nat} {s : State} (h : Running s) : exec (.lreq port) s = .next (lreqIn port s) :=
  congrArg Host.Outcome.next (wh_running h _)

theorem exec_lkeep {port : Nat} {s : State} (h : Running s) : exec (.lkeep port) s = .next (lkeepIn port s) :=
  congrArg Host.Outcome.next (wh_running h _)

theorem exec_lrel {port : Nat} {s : State} (h : Running s) : exec (.lrel port) s = .next (lrelIn port s) :=
  congrArg Host.Outcome.next (wh_running h _)

theorem exec_lrd {port : Nat} {s : State} (h : Running s) : exec (.lrd port) s = .next (lrdIn port s) :=
  congrArg Host.Outcome.next (wh_running h _)

theorem exec_lwr {port : Nat} {s : State} (h : Running s) : exec (.lwr port) s = .next (lwrIn port s) :=
  congrArg Host.Outcome.next (wh_running h _)

theorem exec_lenderKeepTimeout {id : Nat} {s : State} (h : Running s) :
    exec (.lenderKeepTimeout id) s = .next (lendLost id s) :=
  congrArg Host.Outcome.next (wh_running h _)

/-- Settles O55: each message of a borrower by whether its lease is held, and the recall by the leases of the peer. -/
theorem leasesAtTheLender : Obligations.LeasesAtTheLender := by
  unfold Obligations.LeasesAtTheLender
  intro port id part data s hrun lent ended answers unknown zeros
  refine ⟨fun m t htake => ?lreq, fun m t htake => ?lkeep, fun m t htake => ?lrel, fun m t htake => ?lrd, fun m t htake => ?lwr,
    fun l hfind => ?lost, fun hnone => ?grace, fun hboot => ?reclaim⟩
  case lreq =>
    intro z kind count
    refine ⟨fun exts hgrant => ?_, fun hgrant => ?_⟩
    · obtain ⟨hanswer, hexts, hlends⟩ := lreqIn_granted htake hgrant
      obtain ⟨hcount, hlend⟩ := grantOf_some hgrant
      exact ⟨hcount, hlend, _, exec_lreq hrun, hanswer, fun e he => (hexts e).trans (if_pos he),
        fun e he => (hexts e).trans (if_neg he), hlends⟩
    · exact ⟨_, exec_lreq hrun, lreqIn_refused htake hgrant⟩
  case lkeep =>
    refine ⟨fun l hl => ⟨_, exec_lkeep hrun, lkeepIn_answered htake hl⟩, fun hl hown => ?_, fun hl hown => ?_⟩
    · have hfab : fabId t = fabId s := rg_of_reach (takeMsg_only htake) (by decide) _
      rw [exec_lkeep hrun, lkeepIn_unheld htake hl, hfab, if_pos hown]
    · have hfab : fabId t = fabId s := rg_of_reach (takeMsg_only htake) (by decide) _
      refine ⟨_, exec_lkeep hrun, ?_⟩
      rw [lkeepIn_unheld htake hl, hfab, if_neg hown]
      exact sayUnknown_told port m t
  case lrel =>
    refine ⟨fun l hl => ?_, fun hl => ?_⟩
    · obtain ⟨hended, hanswer⟩ := lrelIn_ended htake hl
      exact ⟨_, exec_lrel hrun, ⟨hended.lends, hended.lendable, hended.others, hended.zero, hended.kept⟩, hanswer⟩
    · have hport := takeMsg_only htake
      refine ⟨_, exec_lrel hrun, ?_⟩
      rw [lrelIn_unheld htake hl]
      exact ⟨(reply_lends ..).trans (hport.frame .lends (by decide) :), (reply_exts ..).trans (hport.frame .exts (by decide) :),
        (reply_mem ..).trans (hport.frame .mem (by decide) :), reply_answered rfl⟩
  case lrd =>
    refine ⟨fun hnone => ⟨_, exec_lrd hrun, ?_⟩, fun a n hat => ⟨fun hheld => ?_, fun hfree hcode => ?_, fun hfree hcode => ?_⟩⟩
    · rw [lrdIn_unknown htake hnone]
      exact sayUnknown_told port m t
    · rw [exec_lrd hrun, lrdIn_known htake hat, if_pos hheld]
    · rw [exec_lrd hrun, lrdIn_known htake hat, if_neg (Bool.not_eq_true _ ▸ hfree), if_pos (Option.isSome_iff_ne_none.mpr hcode)]
    · exact ⟨_, exec_lrd hrun, lrdIn_answered htake hat hfree hcode⟩
  case lwr =>
    refine ⟨fun hnone => ⟨_, exec_lwr hrun, ?_⟩, fun a n hat => ⟨fun hheld => ?_, fun hfree hcode => ?_, fun hfree hcode => ?_⟩⟩
    · rw [lwrIn_unknown htake hnone]
      exact sayUnknown_told port m t
    · rw [exec_lwr hrun, lwrIn_known htake hat, if_pos hheld]
    · rw [exec_lwr hrun, lwrIn_known htake hat, if_neg (Bool.not_eq_true _ ▸ hfree), if_pos (Option.isSome_iff_ne_none.mpr hcode)]
    · exact ⟨_, exec_lwr hrun, lwrIn_answered htake hat hfree hcode⟩
  case lost =>
    obtain ⟨hended, hcount, hports⟩ := lendLost_ended hfind
    have hend : ended s l (lendLost id s) := ⟨hended.lends, hended.lendable, hended.others, hended.zero, hended.kept⟩
    refine ⟨⟨_, exec_lenderKeepTimeout hrun, hend, hcount, hports⟩, fun hrec => ⟨_, ?_, hend, hcount, hports⟩⟩
    have hany : (s.lends.any fun l => l.id == id && l.reclaiming) = true :=
      List.any_eq_true.mpr ⟨l, List.mem_of_find?_eq_some hfind, by rw [List.find?_some hfind, hrec]; rfl⟩
    rw [exec_reclaimGraceEnd hrun, hany]
    rfl
  case grace =>
    have hany : (s.lends.any fun l => l.id == id && l.reclaiming) = false := List.any_eq_false.mpr fun l hl => by
      simpa using hnone l hl
    rw [exec_reclaimGraceEnd hrun, hany]
    rfl
  case reclaim =>
    intro peer meant
    refine ⟨fun hpart => ?_, fun hpart hgo => ?_, fun hpart hgo => ?_⟩
    · rw [exec_memReclaim hrun hboot, memReclaim, if_pos hpart]
    · rw [exec_memReclaim hrun hboot, memReclaim, if_neg (not_not.mpr hpart)]
      simp [hgo]
    · subst hpart
      obtain ⟨hbus, hexts, hmeant, hothers⟩ := memReclaim_recalls (s := s) hgo (rfl : _ = peer)
      refine ⟨_, exec_memReclaim hrun hboot, hbus, hexts, fun l hl hm => ?_, hothers⟩
      obtain ⟨hentry, hsent⟩ := hmeant l hl hm
      exact ⟨hentry, fun p k q hslot hroute => ⟨_, hsent p k q hslot hroute, rfl, rfl, rfl, rfl⟩⟩

end Sys2Proof.Machine
end

section
/-!
PROOFS. Register fields across pages, the code that a page records (R442), and notifications: which session has been handed one (R331,
R337).
-/
namespace Sys2Proof.Machine

/-! ### Fields across pages -/

theorem regKey_add (pg : Page) (off : Nat) (h : off < 4096) : regKey pg off = regKey pg 0 + off := by
  unfold regKey
  omega

theorem regKey_base (pg : Page) : regKey pg 0 % 4096 = 0 := by
  unfold regKey
  omega

/-- Writing a field changes no field apart from it, on any page: a page whose registers are the same ones holds the same words. -/
theorem rg_st_elsewhere (s : State) (pg g : Page) {f x : Fld} (v : Nat) (hf : f.ok = true) (hx : x.ok = true)
    (h : f.apart x = true) : rg (st pg f v s) g x = rg s g x := by
  by_cases hk : regKey g 0 = regKey pg 0
  · have hoff : x.off < 4096 := by
      simp only [Fld.ok, decide_eq_true_eq] at hx
      exact hx.2.2
    have hkey : regKey g x.off = regKey pg x.off := by rw [regKey_add g _ hoff, regKey_add pg _ hoff, hk]
    have hsame (t : State) : rg t g x = rg t pg x := by rw [rg, rg, hkey]
    rw [hsame, hsame]
    exact rg_st_apart s pg f x v hf hx h
  · apply rg_st_key
    simp only [Fld.ok, decide_eq_true_eq] at hf hx
    rw [regKey_add g _ hx.2.2, regKey_add pg _ hf.2.2]
    have hg := regKey_base g
    have hpg := regKey_base pg
    omega

theorem rg_inc_elsewhere (s : State) (pg g : Page) {f x : Fld} (n : Nat) (hf : f.ok = true) (hx : x.ok = true)
    (h : f.apart x = true) : rg (inc pg f n s) g x = rg s g x := rg_st_elsewhere s pg g _ hf hx h

/-! ### The code that a page records (R442) -/

/-- A field apart from those in which a page records a code. -/
def Fld.notErr (f : Fld) : Bool := f.ok && errFields.all fun g => g.ok && g.apart f

theorem notErr_apart {f g : Fld} (h : f.notErr = true) (hg : g ∈ errFields) : g.ok = true ∧ f.ok = true ∧ g.apart f = true := by
  simp only [Fld.notErr, Bool.and_eq_true, List.all_eq_true] at h
  obtain ⟨hf, hall⟩ := h
  exact ⟨(hall g hg).1, hf, (hall g hg).2⟩

theorem rg_st_notErr {f g : Fld} (h : f.notErr = true) (hg : g ∈ errFields) (pg p : Page) (v : Nat) (s : State) :
    rg (st pg g v s) p f = rg s p f := by
  obtain ⟨hgok, hf, hap⟩ := notErr_apart h hg
  exact rg_st_elsewhere s pg p v hgok hf hap

theorem rg_setErr_notErr {f : Fld} (h : f.notErr = true) (pg p : Page) (code detail : Nat) (s : State) :
    rg (setErr pg code detail s) p f = rg s p f := by
  unfold setErr
  split
  · rw [rg_st_notErr h (by decide), rg_st_notErr h (by decide), rg_st_notErr h (by decide)]
  · rw [rg_st_notErr h (by decide)]

theorem rg_lt (s : State) (pg : Page) (f : Fld) : rg s pg f < 2 ^ (f.hi + 1 - f.lo) := by
  unfold rg fldGet bits
  exact Nat.mod_lt _ (Nat.two_pow_pos _)

/-- A page that has been told a code says so. -/
theorem rg_setErr_err (pg : Page) (code detail : Nat) (s : State) : rg (setErr pg code detail s) pg Fld.PAGE_ERR_ERR = 1 := by
  unfold setErr
  split
  next h => exact rg_st_same _ _ _ _ (by decide)
  next h =>
    rw [rg_st_apart _ _ _ _ _ (by decide) (by decide) (by decide)]
    have hlt : rg s pg Fld.PAGE_ERR_ERR < 2 := rg_lt s pg Fld.PAGE_ERR_ERR
    omega

/-- The first code that a page is told stands on it, with its detail. -/
theorem rg_setErr_first {pg : Page} {s : State} (h : rg s pg Fld.PAGE_ERR_ERR = 0) (code detail : Nat) :
    rg (setErr pg code detail s) pg Fld.PAGE_ERR_INFO_CODE = code % 2 ^ 8 ∧
      rg (setErr pg code detail s) pg Fld.PAGE_ERR_INFO_DETAIL = detail % 2 ^ 16 := by
  unfold setErr
  rw [if_pos h]
  constructor
  · rw [rg_st_apart _ _ _ _ _ (by decide) (by decide) (by decide)]
    exact rg_st_same _ _ _ _ (by decide)
  · rw [rg_st_apart _ _ _ _ _ (by decide) (by decide) (by decide), rg_st_apart _ _ _ _ _ (by decide) (by decide) (by decide)]
    exact rg_st_same _ _ _ _ (by decide)

/-- What an operation leaves on a page that only counts a code. -/
theorem rg_pageErr {pg : Page} (h : pg.blk ≠ .ras ∧ pg.blk ≠ .evr) (code detail : Nat) (part : Option Nat) (s : State) (f : Fld) :
    rg (pageErr pg code detail part s) pg f = rg (setErr pg code detail s) pg f := by
  refine rg_of_reach (countCode_only ..) ?_ f
  simp [h.1, h.2]

/-! ### Sessions (R331) -/

theorem sessOf_of_chans {s t : State} (h : t.chans = s.chans) (c : Nat) : sessOf t c = sessOf s c := by
  rw [sessOf, sessOf, chan, chan, h]

theorem sessOf_updSess (c d : Nat) (g : Session → Session) (s : State) :
    sessOf (updSess c g s) d = if d = c then (sessOf s c).map g else sessOf s d := by
  unfold updSess
  dsimp only
  split
  next x hx =>
    have hc : sessOf s c = some x := hx
    unfold sessOf chan
    dsimp only
    rw [tabGet_tabSet]
    split
    · rw [← chan, ← sessOf, hc]
      rfl
    · rfl
  next hx =>
    have hc : sessOf s c = none := hx
    split
    next e => rw [e, hc]; rfl
    next => rfl

theorem updSess_regs (c : Nat) (g : Session → Session) (s : State) : (updSess c g s).regs = s.regs := by
  unfold updSess
  dsimp only
  split <;> rfl

theorem sendFrame_chans (port : Nat) (o : Out) (s : State) : (sendFrame port o s).chans = s.chans := rfl

theorem sessOf_sendPacket_beside {c d : Nat} (h : d ≠ c) (ptype flags seq : Nat) (body : List Byte) (s : State) :
    sessOf (sendPacket c ptype flags seq body s) d = sessOf s d := by
  unfold sendPacket
  split
  · rfl
  · rw [sessOf_of_chans (sendFrame_chans ..), sessOf_updSess, if_neg h]

theorem sessOf_pump_beside {c d : Nat} (h : d ≠ c) (s : State) : sessOf (pump c s) d = sessOf s d := by
  unfold pump
  split
  · rfl
  · refine List.foldlRecOn (motive := fun t => sessOf t d = sessOf s d) _ _ ?_ fun t ht k _ => ?_
    · rw [sessOf_updSess, if_neg h]
    · rw [sessOf_sendPacket_beside h, ht]

theorem sessOf_sendSeq_beside {c d : Nat} (h : d ≠ c) (ptype flags : Nat) (body : List Byte) (fid : Option Nat) (s : State) :
    sessOf (sendSeq c ptype flags body fid s) d = sessOf s d := by
  rw [sendSeq, sessOf_pump_beside h, sessOf_updSess, if_neg h]

theorem sessOf_notifyChan_beside {c d : Nat} (h : d ≠ c) (n : Note) (s : State) : sessOf (notifyChan n c s) d = sessOf s d := by
  have hinc (t : State) : sessOf (inc (pgCh c) Fld.HIF_CH_NOTIFY_DROP 1 t) d = sessOf t d := sessOf_of_chans rfl d
  have hwh (b : Bool) (t : State) : sessOf (wh b (inc (pgCh c) Fld.HIF_CH_NOTIFY_DROP 1) t) d = sessOf t d := by
    cases b
    · rfl
    · exact hinc t
  unfold notifyChan
  dsimp only
  split
  · split
    · split
      · rfl
      · split
        · rw [sessOf_updSess, if_neg h, sessOf_sendSeq_beside h]
        · rw [hinc, sessOf_updSess, if_neg h]
    · exact hwh ..
  · exact hwh ..

/-! ### A packet handed to a session (R330, R337) -/

/-- The session of a channel holds a NOTIFY packet with a number and a body. -/
def Handed (c seq : Nat) (body : List Byte) (t : State) : Prop :=
  ∃ y k, sessOf t c = some y ∧ k ∈ y.out ∧ k.seq = seq ∧ k.ptype = 0x30 ∧ k.body = body

/-- A change of a session keeps its packets, but for which have been sent. -/
def KeepsPackets (g : Session → Session) : Prop :=
  ∀ x k, k ∈ x.out → ∃ j, j ∈ (g x).out ∧ j.seq = k.seq ∧ j.ptype = k.ptype ∧ j.body = k.body

theorem keepsPackets_of_out {g : Session → Session} (h : ∀ x, (g x).out = x.out) : KeepsPackets g :=
  fun x k hk => ⟨k, (h x).symm ▸ hk, rfl, rfl, rfl⟩

section
variable {c seq : Nat} {body : List Byte} {t : State}

theorem Handed.of_sess {u : State} (h : Handed c seq body t) (hu : sessOf u c = sessOf t c) : Handed c seq body u := by
  obtain ⟨y, k, hy, hk⟩ := h
  exact ⟨y, k, hu.trans hy, hk⟩

theorem Handed.updSess (h : Handed c seq body t) {g : Session → Session} (hg : KeepsPackets g) (d : Nat) :
    Handed c seq body (updSess d g t) := by
  obtain ⟨y, k, hy, hk, hseq, htype, hbody⟩ := h
  by_cases e : c = d
  · subst e
    obtain ⟨j, hj, jseq, jtype, jbody⟩ := hg y k hk
    refine ⟨g y, j, ?_, hj, jseq.trans hseq, jtype.trans htype, jbody.trans hbody⟩
    rw [sessOf_updSess, if_pos rfl, hy]
    rfl
  · exact ⟨y, k, by rw [sessOf_updSess, if_neg e, hy], hk, hseq, htype, hbody⟩

theorem Handed.sendPacket (h : Handed c seq body t) (d ptype flags num : Nat) (bs : List Byte) :
    Handed c seq body (sendPacket d ptype flags num bs t) := by
  unfold Machine.sendPacket
  split
  · exact h
  · refine Handed.of_sess ?_ (sessOf_of_chans (sendFrame_chans ..) c)
    exact h.updSess (keepsPackets_of_out (by intro; rfl)) d

theorem Handed.pump (h : Handed c seq body t) (d : Nat) : Handed c seq body (pump d t) := by
  unfold Machine.pump
  split
  · exact h
  · refine List.foldlRecOn (motive := Handed c seq body) _ _ (h.updSess (fun x k hk => ?_) d) fun _ hu _ _ => hu.sendPacket ..
    refine ⟨_, List.mem_map_of_mem hk, ?_⟩
    split <;> exact ⟨rfl, rfl, rfl⟩

theorem Handed.sendSeq (h : Handed c seq body t) (d ptype flags : Nat) (bs : List Byte) (fid : Option Nat) :
    Handed c seq body (sendSeq d ptype flags bs fid t) :=
  (h.updSess (fun _ k hk => ⟨k, List.mem_append_left _ hk, rfl, rfl, rfl⟩) d).pump d

theorem Handed.notifyChan (h : Handed c seq body t) (n : Note) (d : Nat) : Handed c seq body (notifyChan n d t) := by
  have hinc {u : State} (hu : Handed c seq body u) : Handed c seq body (inc (pgCh d) Fld.HIF_CH_NOTIFY_DROP 1 u) :=
    hu.of_sess (sessOf_of_chans rfl c)
  have hwh (b : Bool) : Handed c seq body (wh b (inc (pgCh d) Fld.HIF_CH_NOTIFY_DROP 1) t) := by
    cases b
    · exact h
    · exact hinc h
  unfold Machine.notifyChan
  dsimp only
  split
  · split
    · split
      · exact h
      · split
        · exact (h.sendSeq ..).updSess (keepsPackets_of_out (by intro; rfl)) d
        · refine hinc ?_
          exact h.updSess (keepsPackets_of_out (by intro; rfl)) d
    · exact hwh ..
  · exact hwh ..

/-- A packet that is handed to a session waits in it. -/
theorem sendSeq_hands {x : Session} (h : sessOf t c = some x) (flags : Nat) (bs : List Byte) (fid : Option Nat) :
    Handed c x.txNext bs (sendSeq c 0x30 flags bs fid t) := by
  refine Handed.pump ?_ c
  unfold Handed
  rw [sessOf_updSess, if_pos rfl, h]
  exact ⟨_, ⟨x.txNext, false, 0x30, flags, bs, 0, fid⟩, rfl, List.mem_append_right _ List.mem_cons_self, rfl, rfl, rfl⟩

/-- A channel's part in a notification, where its session's mask selects it and it has room (R337). -/
theorem notifyChan_hands {x : Session} {m : Nat} {n : Note} (h : sessOf t c = some x) (hm : x.mask = some m)
    (hbit : bit (kindBit n.kind) m = true) (hroom : (x.out.filter fun k => k.ptype == 0x30).length < 1024) :
    Handed c x.txNext (noteBody n x.lost) (notifyChan n c t) := by
  have hk : (chan t c).session = some x := h
  unfold Machine.notifyChan
  dsimp only
  rw [hk]
  dsimp only
  rw [hm]
  dsimp only
  rw [hbit, if_neg (by decide), if_pos hroom]
  exact (sendSeq_hands h ..).updSess (keepsPackets_of_out (by intro; rfl)) c

end

/-! ### A notification (R337, R441) -/

theorem part_sendPacket (c ptype flags seq : Nat) (body : List Byte) (d : Nat) (s : State) :
    rg (sendPacket c ptype flags seq body s) (pgCh d) Fld.HIF_CH_CFG_PART = rg s (pgCh d) Fld.HIF_CH_CFG_PART := by
  unfold sendPacket
  split
  · rfl
  · rw [sendFrame, rg_inc_elsewhere _ _ _ _ (by decide) (by decide) (by decide)]
    exact rg_of_regs (updSess_regs ..) _ _

theorem part_updSess (c : Nat) (g : Session → Session) (d : Nat) (s : State) :
    rg (updSess c g s) (pgCh d) Fld.HIF_CH_CFG_PART = rg s (pgCh d) Fld.HIF_CH_CFG_PART :=
  rg_of_regs (updSess_regs ..) _ _

theorem part_sendSeq (c ptype flags : Nat) (body : List Byte) (fid : Option Nat) (d : Nat) (s : State) :
    rg (sendSeq c ptype flags body fid s) (pgCh d) Fld.HIF_CH_CFG_PART = rg s (pgCh d) Fld.HIF_CH_CFG_PART := by
  unfold sendSeq pump
  split
  · exact part_updSess ..
  · refine List.foldlRecOn
      (motive := fun t => rg t (pgCh d) Fld.HIF_CH_CFG_PART = rg s (pgCh d) Fld.HIF_CH_CFG_PART) _ _ ?_ fun t ht k _ => ?_
    · rw [part_updSess, part_updSess]
    · rw [part_sendPacket, ht]

/-- No notification moves a channel to another partition. -/
theorem part_notifyChan (n : Note) (c d : Nat) (s : State) :
    rg (notifyChan n c s) (pgCh d) Fld.HIF_CH_CFG_PART = rg s (pgCh d) Fld.HIF_CH_CFG_PART := by
  have hinc (t : State) : rg (inc (pgCh c) Fld.HIF_CH_NOTIFY_DROP 1 t) (pgCh d) Fld.HIF_CH_CFG_PART =
      rg t (pgCh d) Fld.HIF_CH_CFG_PART := rg_inc_elsewhere _ _ _ _ (by decide) (by decide) (by decide)
  have hwh (b : Bool) (t : State) : rg (wh b (inc (pgCh c) Fld.HIF_CH_NOTIFY_DROP 1) t) (pgCh d) Fld.HIF_CH_CFG_PART =
      rg t (pgCh d) Fld.HIF_CH_CFG_PART := by
    cases b
    · rfl
    · exact hinc t
  unfold notifyChan
  dsimp only
  split
  · split
    · split
      · rfl
      · split
        · rw [part_updSess, part_sendSeq]
        · rw [hinc, part_updSess]
    · exact hwh ..
  · exact hwh ..

/-- Every session that a notification is for has been handed it. -/
theorem notify_notified {p : Nat} {n : Note} {s : State} : Notified p n s (notify p n s) := by
  intro hen c x m hc hpart hsess hmask hbit hroom
  rw [notify, if_pos hen]
  have hcases (t : State) (d : Nat) (h : Handed c x.txNext (noteBody n x.lost) t) : Handed c x.txNext (noteBody n x.lost)
      (if rg t (pgCh d) Fld.HIF_CH_CFG_PART = p then notifyChan n d t else t) := by
    split
    · exact h.notifyChan n d
    · exact h
  refine foldl_establishes (Q := Handed c x.txNext (noteBody n x.lost))
    (P := fun t => rg t (pgCh c) Fld.HIF_CH_CFG_PART = p ∧ (sessOf t c = some x ∨ Handed c x.txNext (noteBody n x.lost) t))
    (List.mem_range.mpr hc) (fun t d ⟨ht, hstate⟩ => ⟨?_, ?_⟩) (fun t ⟨ht, hstate⟩ => ?_) hcases s ⟨hpart, .inl hsess⟩
  · split
    · rw [part_notifyChan, ht]
    · exact ht
  · rcases hstate with hx | hx
    · split
      next hd =>
        by_cases e : c = d
        · exact .inr (e ▸ notifyChan_hands hx hmask hbit hroom)
        · exact .inl ((sessOf_notifyChan_beside e n t).trans hx)
      next => exact .inl hx
    · exact .inr (hcases t d hx)
  · rcases hstate with hx | hx
    · rw [if_pos ht]
      exact notifyChan_hands hx hmask hbit hroom
    · exact hcases t c hx

/-- A notification of a state that agrees with another on what it goes by. -/
theorem Notified.from {p : Nat} {n : Note} {s s' t : State} (h : Notified p n s' t)
    (hen : rg s' (kindPage n.kind p) Fld.PAGE_NOTIFY_EN = rg s (kindPage n.kind p) Fld.PAGE_NOTIFY_EN)
    (hpart : ∀ c, rg s' (pgCh c) Fld.HIF_CH_CFG_PART = rg s (pgCh c) Fld.HIF_CH_CFG_PART) (hchans : s'.chans = s.chans) :
    Notified p n s t := fun hbit c x m hc hp hx =>
  h (hen ▸ hbit) c x m hc ((hpart c).trans hp) ((sessOf_of_chans hchans c).trans hx)

end Sys2Proof.Machine
end

section
/-!
PROOFS. A descriptor that is given up under way (R236, R243, R313, R361): the one that is given up has the code, and no other changes its
result.
-/
namespace Sys2Proof.Machine

/-! ### What stays of a descriptor -/

/-- A descriptor in flight that no collective under way belongs to. -/
def Alone (f : Flight) (t : State) : Prop := flightOf t f.fid = some f ∧ ∀ k, k ∈ t.col.ctxs → k.fid ≠ f.fid

section
variable {f : Flight} {s t : State}

theorem Alone.of_same (h : Alone f s) (hf : t.flights = s.flights) (hc : ∀ k, k ∈ t.col.ctxs → ∃ j, j ∈ s.col.ctxs ∧ j.fid = k.fid) :
    Alone f t := by
  refine ⟨(flightOf_of_flights hf _).trans h.1, fun k hk => ?_⟩
  obtain ⟨j, hj, hjk⟩ := hc k hk
  exact hjk ▸ h.2 j hj

theorem Alone.reach {L : List Piece} (h : Alone f s) (hr : Reach L s t) (hf : Piece.flights ∉ L) (hc : Piece.col ∉ L) : Alone f t := by
  have hcol : t.col = s.col := hr.frame .col hc
  exact h.of_same (flights_of_reach hr hf) fun k hk => ⟨k, hcol ▸ hk, rfl⟩

theorem Alone.updFlight (h : Alone f s) {k : Nat} (hk : k ≠ f.fid) (g : Flight → Flight) : Alone f (updFlight k g s) :=
  ⟨flightOf_updFlight_beside g hk h.1, h.2⟩

theorem Alone.finish (h : Alone f s) {k : Nat} (hk : k ≠ f.fid) (code detail : Nat) : Alone f (finish k code detail s) :=
  h.updFlight hk _

end

/-! ### A descriptor that is given up -/

/-- A descriptor has left the arrays and the stack engines. -/
def leftUnits (fid : Nat) (s : State) : State := clearArrays fid (stkLeave fid s)

theorem leftUnits_only (fid : Nat) (s : State) : Reach [.arrs, .stks, .freeCtr] s (leftUnits fid s) :=
  clearArrays_reach (by decide) (by decide) (stkLeave_reach (by decide) .rfl')

theorem abandon_flights (fid code detail : Nat) (s : State) : (abandon fid code detail s).flights = (finish fid code detail s).flights := by
  have hleft := flights_of_reach (leftUnits_only fid s) (by decide)
  unfold abandon
  dsimp only
  rw [← leftUnits, finish_eq, finish_eq, updFlight_flights, updFlight_flights, hleft]

theorem abandon_ctxs (fid code detail : Nat) (s : State) :
    (abandon fid code detail s).col.ctxs = s.col.ctxs.filter fun c => c.fid != fid := by
  have hcol : (leftUnits fid s).col = s.col := (leftUnits_only fid s).frame .col (by decide)
  unfold abandon
  dsimp only
  rw [← leftUnits, finish_eq, updFlight_col, hcol]

/-- What a COLL that ends leaves on its page and with the recorder (R319, R451). -/
def collRecorded (f : Flight) (code detail : Nat) (ovf : Bool) (clamped special : Nat) (s : State) : State :=
  let pg := pgCol f.q
  let ev (cls d sev v b : Nat) (s : State) : State := raiseV pg cls (if cls = 8 then 0x41 else 0) d (some f.q) sev v b s
  let s := wh (isF code) (pageErr pg code detail (some f.q)) s
  let s := wh (!isF code) (inc pg Fld.COL_DONE 1) s
  let s := wh (isAbort code) (inc pg Fld.COL_ABORTED 1) s
  let s := wh (code == 0x30) (inc pg Fld.COL_TIMEOUTS 1) s
  let s := wh (code == 0x33) (inc pg Fld.COL_SEQMIS 1) s
  let s := wh ovf (ev 0x08 (dOfmt f.bytes) 1 0 0) s
  let s := wh (decide (0 < clamped)) (ev 0x09 3 0 clamped (binLog clamped)) s
  wh (decide (0 < special)) (ev 0x0A 1 0 special (binLog special)) s

section
variable (f : Flight) (code detail : Nat) (ovf : Bool) (clamped special : Nat) (s : State)

theorem colFinish_eq : colFinish f code detail ovf clamped special s =
    finish f.fid code detail (collRecorded f code detail ovf clamped special s) := rfl

theorem collRecorded_only :
    Reach [.regs .col, .regs .ras, .regs .evr, .evr, .freeCtr] s (collRecorded f code detail ovf clamped special s) := by
  have hraise {t : State} (cls code d sev v b : Nat) (h : Reach [.regs .col, .regs .ras, .regs .evr, .evr, .freeCtr] s t) :
      Reach [.regs .col, .regs .ras, .regs .evr, .evr, .freeCtr] s (raiseV (pgCol f.q) cls code d (some f.q) sev v b t) :=
    raiseV_reach (by decide) (by decide) (by decide) (by decide) h
  have hinc {t : State} (x : Fld) (h : Reach [.regs .col, .regs .ras, .regs .evr, .evr, .freeCtr] s t) :
      Reach [.regs .col, .regs .ras, .regs .evr, .evr, .freeCtr] s (inc (pgCol f.q) x 1 t) := inc_reach (by simp) h
  have herr : Reach [.regs .col, .regs .ras, .regs .evr, .evr, .freeCtr] s (wh (isF code) (pageErr (pgCol f.q) code detail (some f.q)) s) :=
    .wh (fun _ => pageErr_reach (by decide) (by decide) (by simp) (by decide) (by decide)) .rfl'
  exact .wh (fun _ => hraise _ _ _ _ _ _) (.wh (fun _ => hraise _ _ _ _ _ _) (.wh (fun _ => hraise _ _ _ _ _ _)
    (.wh (fun _ => hinc _) (.wh (fun _ => hinc _) (.wh (fun _ => hinc _) (.wh (fun _ => hinc _) herr))))))

end

/-- The pieces that giving up descriptors reaches. -/
def giveUpPieces : List Piece :=
  [.regs .col, .regs .ras, .regs .evr, .mem, .flights, .arrs, .stks, .retrain, .accs, .col, .ports, .hif, .evr, .freeCtr]

theorem endFlight_only (fid code detail : Nat) (s : State) : Reach giveUpPieces s (endFlight fid code detail s) := by
  apply endFlight_reach _ _ _ _ _ _ _ _ _ _ _ _ _ _ .rfl' <;> decide

/-! ### A context of a collective (R311, R313) -/

theorem ctxOf_some {s : State} {n : Nat} {c : ColCtx} {g : Flight} (h : ctxOf s n = some (c, g)) :
    c ∈ s.col.ctxs ∧ flightOf s c.fid = some g := by
  obtain ⟨c', hc', hg⟩ := Option.bind_eq_some_iff.mp h
  obtain ⟨g', hg', hpair⟩ := Option.map_eq_some_iff.mp hg
  obtain ⟨rfl, rfl⟩ := Prod.mk.inj hpair
  exact ⟨List.mem_of_find?_eq_some hc', hg'⟩

section
variable {f : Flight} {s : State}

theorem Alone.freeCtx (h : Alone f s) (n : Nat) : Alone f (freeCtx n s) :=
  h.of_same rfl fun k hk => ⟨k, List.mem_of_mem_filter hk, rfl⟩

theorem Alone.updCtx (h : Alone f s) (n : Nat) {x : ColCtx → ColCtx} (hx : ∀ c, (x c).fid = c.fid) : Alone f (updCtx n x s) := by
  refine h.of_same rfl fun k hk => ?_
  obtain ⟨j, hj, rfl⟩ := List.mem_map.mp hk
  refine ⟨j, hj, ?_⟩
  split
  · exact (hx j).symm
  · rfl

theorem Alone.colSend (h : Alone f s) (c : ColCtx) (mt tree : Nat) (rest body : List Byte) : Alone f (colSend c mt tree rest body s) :=
  h.reach (L := [.ports]) (colSend_reach (by decide) .rfl') (by decide) (by decide)

theorem Alone.colFinish {g : Flight} (h : Alone f s) (hg : g.fid ≠ f.fid) (code detail : Nat) (ovf : Bool) (clamped special : Nat) :
    Alone f (colFinish g code detail ovf clamped special s) := by
  rw [colFinish_eq]
  exact (h.reach (collRecorded_only ..) (by decide) (by decide)).finish hg ..

theorem Alone.colEnd {g : Flight} (h : Alone f s) (hg : g.fid ≠ f.fid) (c : ColCtx) (code detail : Nat) (verdict : Bool) :
    Alone f (colEnd c g code detail verdict s) := by
  have hundef : Alone f (wh (isF code) (colUndefined g c.nmem) s) :=
    h.reach (L := [.mem, .freeCtr]) (.wh (fun _ => colUndefined_reach (by decide) (by decide)) .rfl') (by decide) (by decide)
  unfold Machine.colEnd
  refine Alone.freeCtx ?_ c.ctx
  refine Alone.reach (L := [.ports]) (hundef.colFinish hg ..) (.wh (fun _ ht => ?_) .rfl') (by decide) (by decide)
  exact colSend_reach (by decide) (colSend_reach (by decide) ht)

theorem Alone.colCause (h : Alone f s) (n code own detail : Nat) : Alone f (colCause n code own detail s) := by
  unfold Machine.colCause
  split
  next c g hctx =>
    obtain ⟨hc, hg⟩ := ctxOf_some hctx
    have hne : g.fid ≠ f.fid := (flightOf_mem hg).2 ▸ h.2 c hc
    split
    · exact h.colEnd hne ..
    · split
      · exact h
      · exact (h.updCtx n (by intro; rfl)).colSend ..
  · exact h

theorem Alone.abandon (h : Alone f s) {k : Nat} (hk : k ≠ f.fid) (code detail : Nat) : Alone f (abandon k code detail s) := by
  refine (h.finish hk code detail).of_same (abandon_flights ..) fun c hc => ⟨c, ?_, rfl⟩
  rw [abandon_ctxs] at hc
  exact List.mem_of_mem_filter hc

/-- A descriptor stays as it is when another is given up. -/
theorem Alone.endFlight (h : Alone f s) {k : Nat} (hk : k ≠ f.fid) (code detail : Nat) : Alone f (endFlight k code detail s) := by
  unfold Machine.endFlight
  split
  · exact (h.colCause ..).of_same rfl fun c hc => ⟨c, hc, rfl⟩
  · split
    next g hg =>
      have hne : g.fid ≠ f.fid := (flightOf_mem hg).2 ▸ hk
      split
      · exact (h.colFinish hne ..).abandon hk ..
      · exact h.abandon hk ..
    · exact h.abandon hk ..

/-! ### The one that is given up -/

/-- A descriptor that has a code, and that no collective under way belongs to. -/
def Ended (fid code : Nat) (t : State) : Prop := ∃ g, g.fid = fid ∧ g.result = some code ∧ Alone g t

theorem Alone.finish_self (h : Alone f s) {code : Nat} (hF : isF code = true) (hr : f.result = none ∨ f.result = some code)
    (detail : Nat) : Ended f.fid code (Machine.finish f.fid code detail s) := by
  have hfid : (updOne f.fid (finishing code detail) f).fid = f.fid := updOne_fid ..
  refine ⟨updOne f.fid (finishing code detail) f, hfid, ?_, ?_, fun k hk => ?_⟩
  · rcases hr with hr | hr <;> simp [updOne, finishing, hr, codeMax, hF]
  · rw [hfid, finish_eq]
    exact flightOf_updFlight _ h.1
  · rw [hfid]
    exact h.2 k hk

theorem Alone.abandon_self (h : Alone f s) {code : Nat} (hF : isF code = true) (hr : f.result = none ∨ f.result = some code)
    (detail : Nat) : Ended f.fid code (Machine.abandon f.fid code detail s) := by
  obtain ⟨g, hfid, hres, hg⟩ := h.finish_self hF hr detail
  refine ⟨g, hfid, hres, hg.of_same (abandon_flights ..) fun c hc => ⟨c, ?_, rfl⟩⟩
  rw [abandon_ctxs] at hc
  exact List.mem_of_mem_filter hc

/-- A descriptor that is given up has the code, unless a collective under way belongs to it (log entry 113). -/
theorem Alone.endFlight_self (h : Alone f s) {code : Nat} (hF : isF code = true) (hr : f.result = none ∨ f.result = some code)
    (detail : Nat) : Ended f.fid code (Machine.endFlight f.fid code detail s) := by
  have hnone : (s.col.ctxs.find? fun c => c.fid == f.fid) = none :=
    List.find?_eq_none.mpr fun c hc => by simpa using h.2 c hc
  unfold Machine.endFlight
  rw [hnone, h.1]
  dsimp only
  split
  · have hrecorded := h.reach (collRecorded_only f code detail false 0 0 s) (by decide) (by decide)
    obtain ⟨g, hfid, hres, hg⟩ := hrecorded.finish_self hF hr detail
    have hleft := hg.abandon_self hF (.inr hres) detail
    rwa [hfid] at hleft
  · exact h.abandon_self hF hr detail

theorem Ended.endFlight {fid code : Nat} (h : Ended fid code s) (hF : isF code = true) (k detail : Nat) :
    Ended fid code (Machine.endFlight k code detail s) := by
  obtain ⟨g, rfl, hres, hg⟩ := h
  by_cases hk : k = g.fid
  · exact hk ▸ hg.endFlight_self hF (.inr hres) detail
  · exact ⟨g, rfl, hres, hg.endFlight hk code detail⟩

/-- Where several descriptors are given up, each has the code. -/
theorem endFlights_ended {l : List Nat} {code : Nat} (hF : isF code = true) (h : Alone f s) (hr : f.result = none) (hl : f.fid ∈ l) :
    Ended f.fid code (l.foldl (fun t k => Machine.endFlight k code 0 t) s) := by
  refine foldl_establishes (P := fun t => Alone f t ∨ Ended f.fid code t) hl (fun t k ht => ?_) (fun t ht => ?_)
    (fun t k ht => ht.endFlight hF k 0) s (.inl h)
  · rcases ht with ht | ht
    · by_cases hk : k = f.fid
      · exact .inr (hk ▸ ht.endFlight_self hF (.inl hr) 0)
      · exact .inl (ht.endFlight hk code 0)
    · exact .inr (ht.endFlight hF k 0)
  · rcases ht with ht | ht
    · exact ht.endFlight_self hF (.inl hr) 0
    · exact ht.endFlight hF f.fid 0

theorem Ended.outcome {fid code : Nat} (h : Ended fid code s) : ∃ g, flightOf s fid = some g ∧ g.result = some code := by
  obtain ⟨g, rfl, hres, hg⟩ := h
  exact ⟨g, hg.1, hres⟩

end

end Sys2Proof.Machine
end

section
/-!
PROOFS. Leases at their borrower (R232 to R238, R299): what is sent, what the end of a lease completes, and a lease that is lost.
-/
namespace Sys2Proof.Machine

/-! ### Accesses that waited try again -/

theorem runTodo_idle {s : State} {c : Nat} (h : ∀ x, sessOf s c = some x → x.todo = []) : runTodo c s = s := by
  unfold runTodo
  split
  next x hx =>
    rw [h x hx]
    rfl
  next => rfl

/-- Where nothing waits, trying again changes nothing. -/
theorem kick_idle {s : State} (htodo : ∀ c x, sessOf s c = some x → x.todo = []) (hjobs : s.secJobs = []) : kick s = s := by
  have hsec : secRetry s = s := by rw [secRetry, hjobs]; rfl
  rw [kick, hsec]
  exact List.foldlRecOn (motive := fun t => t = s) _ _ rfl fun t ht c _ => by rw [ht, runTodo_idle (htodo c)]

/-! ### A message on a lease (R235) -/

theorem updLease_leases (first : Nat) (g : Lease → Lease) (s : State) :
    (updLease first g s).leases = s.leases.map fun l => if l.first = first then g l else l := rfl

/-- A message on a lease waits at the port that leads to its lender. -/
def SentOn (s : State) (l : Lease) (ty arg : Nat) (u : State) : Prop :=
  ∀ p, route s l.peer = some p → ∃ m, m ∈ (portOf u p).queue ∧ m.vl = 0 ∧ m.dst = l.peer ∧
    (m.keyPart, m.keySlot) = (l.part, l.keysel) ∧ m.head = leaseMsg ty arg l.count (leaseId s l) l.seq []

/-- The leases with one changed. -/
def Turned (s : State) (l : Lease) (g : Lease → Lease) (u : State) : Prop :=
  u.leases = s.leases.map fun x => if x.first = l.first then g x else x

section
variable {s : State} (l : Lease) (ty arg : Nat)

theorem sendTo_leases (peer : Nat) (m : Msg) (s : State) : (sendTo peer m s).leases = s.leases :=
  (sendTo_only peer m s).frame .leases (by decide)

theorem sendTo_flights (peer : Nat) (m : Msg) (s : State) : (sendTo peer m s).flights = s.flights :=
  flights_of_reach (sendTo_only peer m s) (by decide)

theorem borrowerSend_sends {ty arg : Nat} : SentOn s l ty arg (borrowerSend l ty arg l.count s) := by
  intro p hp
  have hroute : route (updLease l.first (fun l => { l with seq := l.seq + 1 }) s) l.peer = some p :=
    (route_of_ports (updLease_ports ..) _).trans hp
  unfold borrowerSend
  rw [sendTo_route hroute]
  exact ⟨_, mem_queue_sendMsg .., rfl, rfl, rfl, rfl⟩

theorem borrowerSend_turns : Turned s l (fun x => { x with seq := x.seq + 1 }) (borrowerSend l ty arg l.count s) := by
  unfold borrowerSend
  exact sendTo_leases ..

theorem borrowerSend_flights : (borrowerSend l ty arg l.count s).flights = s.flights := by
  unfold borrowerSend
  rw [sendTo_flights, updLease_flights]

/-- A message that is sent as the lease changes names the lease as it was. -/
theorem SentOn.of_updLease {g : Lease → Lease} {u : State} (h : SentOn (updLease l.first g s) l ty arg u) : SentOn s l ty arg u :=
  fun p hp => h p ((route_of_ports (updLease_ports ..) _).trans hp)

/-- Two changes of one lease. -/
theorem Turned.of_updLease {g h : Lease → Lease} {u : State} (hu : Turned (updLease l.first g s) l h u)
    (hfirst : ∀ x, (g x).first = x.first) : Turned s l (fun x => h (g x)) u := by
  rw [Turned, hu, updLease_leases, List.map_map]
  refine List.map_congr_left fun x _ => ?_
  by_cases e : x.first = l.first
  · simp [e, hfirst]
  · simp [e]

end

/-! ### A descriptor that ends -/

/-- A descriptor in flight that has no result. -/
def StillOpen (s : State) (x : Nat) : Prop := ∃ f, flightOf s x = some f ∧ f.result = none

/-- A descriptor in flight that has a code. -/
def HasCode (x code : Nat) (u : State) : Prop := ∃ h, flightOf u x = some h ∧ h.result = some code

section
variable {s t : State} {x code : Nat}

theorem StillOpen.of_flights (h : StillOpen s x) (hf : t.flights = s.flights) : StillOpen t x := by
  obtain ⟨f, hx, hr⟩ := h
  exact ⟨f, (flightOf_of_flights hf x).trans hx, hr⟩

theorem HasCode.of_flights (h : HasCode x code s) (hf : t.flights = s.flights) : HasCode x code t := by
  obtain ⟨f, hx, hr⟩ := h
  exact ⟨f, (flightOf_of_flights hf x).trans hx, hr⟩

theorem StillOpen.finish_self (h : StillOpen s x) (detail : Nat) : HasCode x code (finish x code detail s) := by
  obtain ⟨f, hx, hr⟩ := h
  exact finish_result code detail hx hr

theorem StillOpen.finish_other (h : StillOpen s x) {k : Nat} (hk : k ≠ x) (c detail : Nat) : StillOpen (finish k c detail s) x := by
  obtain ⟨f, hx, hr⟩ := h
  obtain ⟨-, rfl⟩ := flightOf_mem hx
  exact ⟨f, flightOf_updFlight_beside _ hk hx, hr⟩

/-- A code stays where the one that is put over it is weaker. -/
theorem HasCode.finish (h : HasCode x code s) {c : Nat} (hc : codeMax code c = code) (k detail : Nat) :
    HasCode x code (finish k c detail s) := by
  obtain ⟨f, hx, hr⟩ := h
  obtain ⟨-, rfl⟩ := flightOf_mem hx
  by_cases hk : k = f.fid
  · subst hk
    exact ⟨_, flightOf_updFlight _ hx, by simp [updOne, hr, hc]⟩
  · exact ⟨f, flightOf_updFlight_beside _ hk hx, hr⟩

/-- Descriptors that end with OK leave a code over which OK is weaker. -/
theorem HasCode.finishAll_ok (h : HasCode x code s) (hc : codeMax code 0 = code) (l : List Nat) :
    HasCode x code (l.foldl (fun s fid => Machine.finish fid 0 0 s) s) :=
  List.foldlRecOn (motive := HasCode x code) l _ h fun _ ht _ _ => ht.finish hc _ _

theorem StillOpen.finishAll_ok {l : List Nat} (h : StillOpen s x) (hx : x ∈ l) :
    HasCode x 0 (l.foldl (fun s fid => Machine.finish fid 0 0 s) s) := by
  refine foldl_establishes (P := fun t => StillOpen t x ∨ HasCode x 0 t) hx (fun t k ht => ?_) (fun t ht => ?_)
    (fun t k ht => ht.finish (by decide) _ _) s (.inl h)
  · rcases ht with ht | ht
    · by_cases hk : k = x
      · exact .inr (hk ▸ ht.finish_self 0)
      · exact .inl (ht.finish_other hk 0 0)
    · exact .inr (ht.finish (by decide) _ _)
  · rcases ht with ht | ht
    · exact ht.finish_self 0
    · exact ht.finish (by decide) _ _

end

/-! ### The end of a lease (R235, R238) -/

/-- The slots of a lease are free, and the RELEASEs that waited for its end have completed with OK. -/
def Released (s : State) (l : Lease) (u : State) : Prop :=
  (u.leases = s.leases.filter fun x => x.first != l.first) ∧
    ∀ x, x ∈ l.rels → l.acq ≠ some x → StillOpen s x → HasCode x 0 u

section
variable {s : State} (l : Lease) (code : Nat)

/-- The state in which the ACQUIRE of a lease that ends has its code. -/
def acquireEnds (l : Lease) (code : Nat) (s : State) : State :=
  l.acq.toList.foldl (fun s fid => finish fid code 0 s) (freeLease l.first s)

theorem leaseEnds_only : Reach [.flights, .leases] s (leaseEnds l code s) := leaseEnds_reach (by decide) (by decide) .rfl'

theorem leaseEnds_leases : (leaseEnds l code s).leases = s.leases.filter fun x => x.first != l.first := by
  have hacq : Reach [.flights] (freeLease l.first s) (acquireEnds l code s) :=
    Reach.foldl (fun _ _ h => finish_reach (by decide) h) .rfl'
  have hrels : Reach [.flights] (acquireEnds l code s) (leaseEnds l code s) :=
    Reach.foldl (fun _ _ h => finish_reach (by decide) h) .rfl'
  rw [hrels.frame .leases (by decide), hacq.frame .leases (by decide), freeLease_leases]

theorem acquireEnds_open {x : Nat} (h : StillOpen s x) (hx : l.acq ≠ some x) : StillOpen (acquireEnds l code s) x := by
  refine List.foldlRecOn (motive := fun t => StillOpen t x) _ _ (h.of_flights (freeLease_flights ..)) fun t ht k hk => ?_
  exact ht.finish_other (fun e => hx (e ▸ Option.mem_toList.mp hk)) _ _

theorem acquireEnds_code {x : Nat} (h : StillOpen s x) (hx : l.acq = some x) : HasCode x code (acquireEnds l code s) := by
  rw [acquireEnds, hx]
  exact (h.of_flights (freeLease_flights ..)).finish_self 0

/-- A lease ends: its slots are free and what waited for its end is completed. -/
theorem leaseEnds_released : Released s l (leaseEnds l code s) :=
  ⟨leaseEnds_leases l code, fun _ hx hacq hopen => (acquireEnds_open l code hopen hacq).finishAll_ok hx⟩

/-- The ACQUIRE that waited has the code. -/
theorem leaseEnds_acquire {x : Nat} (h : StillOpen s x) (hx : l.acq = some x) (hc : codeMax code 0 = code) :
    HasCode x code (leaseEnds l code s) := (acquireEnds_code l code h hx).finishAll_ok hc l.rels

theorem Released.of_taken {t u : State} {l : Lease} (h : Released t l u) (ht : Reach [.ports] s t) : Released s l u := by
  obtain ⟨hfree, hrels⟩ := h
  exact ⟨hfree.trans (congrArg (List.filter _) (ht.frame .leases (by decide))),
    fun x hx hacq hopen => hrels x hx hacq (hopen.of_flights (flights_of_reach ht (by decide)))⟩

theorem Turned.of_taken {t u : State} {l : Lease} {g : Lease → Lease} (h : Turned t l g u) (ht : Reach [.ports, .freeCtr] s t) :
    Turned s l g u := by
  have hleases : t.leases = s.leases := ht.frame .leases (by decide)
  rw [Turned, h, hleases]

end

/-! ### Descriptors of LEASE (R233, R238) -/

section
variable {s : State} {fid : Nat} {f : Flight} {l : Lease}

theorem leaseFlight_some {op : Nat} (h : leaseFlight s fid op = some (f, l)) :
    StillOpen s fid ∧ (l.acq = some fid ∨ fid ∈ l.rels) := by
  unfold leaseFlight at h
  split at h
  next g hg =>
    split at h
    next hw =>
      obtain ⟨-, hr, -⟩ := hw
      obtain ⟨l', hl', hpair⟩ := Option.map_eq_some_iff.mp h
      obtain ⟨rfl, rfl⟩ := Prod.mk.inj hpair
      refine ⟨⟨g, hg, hr⟩, ?_⟩
      simpa using List.find?_some hl'
    next => cases h
  next => cases h

theorem leaseAcquire_asks (h : leaseFlight s fid 0 = some (f, l)) (ha : l.asked = false) :
    leaseAcquire fid s = borrowerSend l 1 (bF f.bytes 17 1 % 4) l.count (updLease l.first (fun l => { l with asked := true }) s) := by
  unfold leaseAcquire
  rw [h]
  dsimp only
  rw [ha]
  rfl

theorem leaseRelease_eq (h : leaseFlight s fid 1 = some (f, l)) : leaseRelease fid s = if l.state = .lost then leaseEnds l 0 s else s := by
  unfold leaseRelease
  rw [h]

/-- RELEASE of slots that are LOST (R238). -/
theorem leaseRelease_lost (h : leaseFlight s fid 1 = some (f, l)) :
    HasCode fid 0 (leaseEnds l 0 s) ∧ Released s l (leaseEnds l 0 s) ∧ (leaseEnds l 0 s).ports = s.ports := by
  obtain ⟨hopen, hin⟩ := leaseFlight_some h
  have hreleased := leaseEnds_released (s := s) l 0
  refine ⟨?_, hreleased, (leaseEnds_only l 0).frame .ports (by decide)⟩
  by_cases ha : l.acq = some fid
  · exact leaseEnds_acquire l 0 hopen ha (by decide)
  · exact hreleased.2 fid (hin.resolve_left ha) ha hopen

end

/-! ### Answers of the lender (R235, R237, R238) -/

section
variable {port : Nat} {m : Msg} {s t : State} {l : Lease}

/-- A lease with the extents that it has been granted. -/
def asGranted (m : Msg) (count : Nat) (x : Lease) : Lease :=
  { x with
    state := if x.state = .pending then .held else x.state
    exts := (List.range count).map fun i => bF m.head (16 + 3 * i) 3 % 2 ^ 18
    acq := none }

theorem lgrantIn_eq (h : takeMsg port 2 s = some (m, t)) (hl : ownLease t m = some l) :
    lgrantIn port s = match l.acq with
      | some fid => finish fid 0 0 (updLease l.first (asGranted m l.count) t)
      | none => t := by
  unfold lgrantIn
  rw [h]
  dsimp only
  rw [hl]
  rfl

theorem lrefuseIn_eq (h : takeMsg port 3 s = some (m, t)) (hl : ownLease t m = some l) :
    lrefuseIn port s = if l.acq.isSome then leaseEnds l 0x11 t else t := by
  unfold lrefuseIn
  rw [h]
  dsimp only
  rw [hl]

theorem lrelackIn_eq (h : takeMsg port 6 s = some (m, t)) (hl : ownLease t m = some l) :
    lrelackIn port s = if l.state = .releasing then leaseEnds l 0 t else t := by
  unfold lrelackIn
  rw [h]
  dsimp only
  rw [hl]

theorem lreclIn_eq (h : takeMsg port 7 s = some (m, t)) (hl : ownLease t m = some l) :
    lreclIn port s = if l.state = .held then leaseNote 3 0 l (updLease l.first (fun l => { l with state := .reclaiming }) t) else t := by
  unfold lreclIn
  rw [h]
  dsimp only
  rw [hl]

theorem lunknownIn_eq (h : takeMsg port 8 s = some (m, t)) (hl : ownLease t m = some l) :
    lunknownIn port s = if l.state = .reclaiming then leaseLost l 2 t
      else leaseLost l (if Config.lentFailed t.freeCtr then 3 else 1) (tickFree t) := by
  unfold lunknownIn
  rw [h]
  dsimp only
  rw [hl]

theorem leaseNote_only (kind code : Nat) (l : Lease) (s : State) : Reach [.regs .hif, .chans, .out] s (leaseNote kind code l s) :=
  leaseNote_reach (by decide) (by decide) (by decide) .rfl'

/-- LRECL of a lease that is held (R237). -/
theorem recl_notifies (l : Lease) (h : Reach [.ports] s t) :
    let u := leaseNote 3 0 l (updLease l.first (fun l => { l with state := .reclaiming }) t)
    u.flights = s.flights ∧ Turned s l (fun x => { x with state := .reclaiming }) u ∧
      Notified l.part ⟨3, 0, 0xFF, 0, 0, 0, rg s (pgMemP l.part) Fld.PAGE_ERR_INFO_DETAIL, l.first⟩ s u := by
  have hupd : Reach [.ports, .leases] s (updLease l.first (fun l => { l with state := .reclaiming }) t) :=
    updLease_reach (by decide) (h.mono (by decide))
  have hnote := leaseNote_only 3 0 l (updLease l.first (fun l => { l with state := .reclaiming }) t)
  have hdetail := rg_of_reach hupd (pg := pgMemP l.part) (by simp) Fld.PAGE_ERR_INFO_DETAIL
  refine ⟨flights_of_reach (hupd.comp hnote) (by decide), ?_, ?_⟩
  · have hleases : t.leases = s.leases := h.frame .leases (by decide)
    rw [Turned, hnote.frame .leases (by decide), updLease_leases, hleases]
  · rw [← hdetail]
    exact notify_notified.from (rg_of_reach hupd (by simp [kindPage]) _) (fun c => rg_of_reach hupd (by simp) _)
      (hupd.frame .chans (by decide))

end

/-! ### A lease that is lost (R236) -/

/-- The numbers of the descriptors with accesses in flight to a lease. -/
def openOn (s : State) (l : Lease) : List Nat := uniq ((s.accs.filter fun c => c.first == l.first && !c.done).map LeaseAcc.fid)

theorem mem_openOn {s : State} {l : Lease} {c : LeaseAcc} (hc : c ∈ s.accs) (hfirst : c.first = l.first) (hdone : c.done = false) :
    c.fid ∈ openOn s l :=
  mem_uniq.mpr (List.mem_map_of_mem (List.mem_filter.mpr ⟨hc, by simp [hfirst, hdone]⟩))

/-- What is noted of the accesses of descriptors that have completed. -/
def lossNoted (l : Lease) (s : State) : State :=
  { s with lostFids := s.lostFids ++ ((openOn s l).filter fun fid => (flightOf s fid).isNone).map fun fid => (fid, 0x32) }

/-- The descriptors with accesses in flight to a lease have been given up. -/
def accessesLost (l : Lease) (s : State) : State := (openOn s l).foldl (fun s fid => endFlight fid 0x32 0 s) (lossNoted l s)

/-- A lease is LOST, and counts. -/
def markedLost (l : Lease) (detail : Nat) (s : State) : State :=
  inc pgLease Fld.MEM_LEASE_LOST 1 (updLease l.first (fun l => { l with state := .lost, detail := detail }) (accessesLost l s))

/-- The page of the borrower holds the code of a lease that is lost. -/
def lossReported (l : Lease) (detail : Nat) (s : State) : State :=
  pageErr (pgMemP l.part) 0x32 detail (some l.part) (markedLost l detail s)

theorem leaseLost_eq (l : Lease) (detail : Nat) (s : State) : leaseLost l detail s =
    if l.state ≠ .held ∧ l.state ≠ .reclaiming then accessesLost l s else leaseNote 2 0x32 l (lossReported l detail s) := rfl


theorem accessesLost_only (l : Lease) (s : State) : Reach (.lostFids :: giveUpPieces) s (accessesLost l s) := by
  have hnoted : Reach [.lostFids] s (lossNoted l s) := Reach.lostFids .rfl' (by decide)
  exact Reach.foldl (fun t fid h => (h.comp (endFlight_only fid 0x32 0 t)).mono (by decide)) (hnoted.mono (by decide))

section
variable {s : State} (l : Lease) (detail : Nat)

theorem rg_markedLost_page {x : Fld} (hx : x.ok = true) (h : Fld.MEM_LEASE_LOST.apart x = true) :
    rg (markedLost l detail s) (pgMemP l.part) x = rg s (pgMemP l.part) x := by
  rw [markedLost, rg_inc_elsewhere _ _ _ _ (by decide) hx h, rg_of_regs (updLease_regs ..)]
  exact rg_of_reach (accessesLost_only l s) (by simp [giveUpPieces]) x

theorem lossReported_only : Reach (.lostFids :: .regs .mem :: .leases :: giveUpPieces) s (lossReported l detail s) := by
  have hmarked : Reach (.lostFids :: .regs .mem :: .leases :: giveUpPieces) s (markedLost l detail s) :=
    inc_reach (by decide) (updLease_reach (by decide) ((accessesLost_only l s).mono (by decide)))
  exact pageErr_reach (by decide) (by decide) (by simp) (by decide) (by decide) hmarked

theorem lossReported_leases :
    Turned s l (fun x => { x with state := .lost, detail := detail }) (lossReported l detail s) := by
  have hacc : (accessesLost l s).leases = s.leases := (accessesLost_only l s).frame .leases (by decide)
  have herr : Reach [.regs .mem, .regs .ras, .regs .evr, .evr, .freeCtr] (markedLost l detail s) (lossReported l detail s) :=
    pageErr_reach (by decide) (by decide) (by simp) (by decide) (by decide) .rfl'
  rw [Turned, herr.frame .leases (by decide), markedLost, inc_leases, updLease_leases, hacc]

theorem lossReported_counts : CountsUp pgLease Fld.MEM_LEASE_LOST 1 s (lossReported l detail s) := by
  refine (countsUp_inc (by decide) 1 _).congr ?_ ?_ (t := markedLost l detail s)
  · rw [rg_of_regs (updLease_regs ..)]
    exact rg_of_reach (accessesLost_only l s) (by decide) _
  · rw [lossReported, pageErr, rg_of_reach (countCode_only ..) (by decide), rg_setErr_notErr (by decide)]

theorem rg_lossReported (x : Fld) :
    rg (lossReported l detail s) (pgMemP l.part) x = rg (setErr (pgMemP l.part) 0x32 detail (markedLost l detail s)) (pgMemP l.part) x :=
  rg_pageErr (pg := pgMemP l.part) (by simp) ..

/-- What the page of the borrower holds of a lease that is lost. -/
theorem lossReported_page : rg (lossReported l detail s) (pgMemP l.part) Fld.PAGE_ERR_ERR = 1 ∧
    (rg s (pgMemP l.part) Fld.PAGE_ERR_ERR = 0 → rg (lossReported l detail s) (pgMemP l.part) Fld.PAGE_ERR_INFO_CODE = 0x32 ∧
      rg (lossReported l detail s) (pgMemP l.part) Fld.PAGE_ERR_INFO_DETAIL = detail % 2 ^ 16) := by
  rw [rg_lossReported, rg_lossReported, rg_lossReported]
  refine ⟨rg_setErr_err .., fun h => rg_setErr_first ?_ ..⟩
  rw [rg_markedLost_page _ _ (by decide) (by decide), h]

theorem leaseLost_notifies : Notified l.part
    ⟨2, 0x32, 0xFF, 0, 0, 0, rg (lossReported l detail s) (pgMemP l.part) Fld.PAGE_ERR_INFO_DETAIL, l.first⟩ s
    (leaseNote 2 0x32 l (lossReported l detail s)) := by
  have honly := lossReported_only (s := s) l detail
  refine notify_notified.from ?_ (fun c => rg_of_reach honly (by simp [giveUpPieces]) _) (honly.frame .chans (by decide))
  show rg (lossReported l detail s) (pgMemP l.part) Fld.PAGE_NOTIFY_EN = _
  rw [rg_lossReported, rg_setErr_notErr (by decide), rg_markedLost_page _ _ (by decide) (by decide)]
  rfl

end

/-- A lease is lost, for a reason that the detail says. -/
def LossTold (s : State) (l : Lease) (d : Nat) (u : State) : Prop :=
  CountsUp pgLease Fld.MEM_LEASE_LOST 1 s u ∧ Turned s l (fun x => { x with state := .lost, detail := d }) u ∧
    rg u (pgMemP l.part) Fld.PAGE_ERR_ERR = 1 ∧
    (rg s (pgMemP l.part) Fld.PAGE_ERR_ERR = 0 → rg u (pgMemP l.part) Fld.PAGE_ERR_INFO_CODE = 0x32 ∧
      rg u (pgMemP l.part) Fld.PAGE_ERR_INFO_DETAIL = d) ∧
    Notified l.part ⟨2, 0x32, 0xFF, 0, 0, 0, rg u (pgMemP l.part) Fld.PAGE_ERR_INFO_DETAIL, l.first⟩ s u

/-- What the loss of a lease completes: each descriptor with an access to it in flight, but no collective that has started. -/
def LossCompletes (s : State) (l : Lease) (u : State) : Prop :=
  ∀ f c, flightOf s f.fid = some f → f.result = none → c ∈ s.accs → c.fid = f.fid → c.first = l.first → c.done = false →
    (∀ k, k ∈ s.col.ctxs → k.fid ≠ f.fid) → HasCode f.fid 0x32 u

/-- What the loss of a lease leaves, whose detail is one of some. -/
def Lost (s : State) (l : Lease) (P : Nat → Prop) (u : State) : Prop :=
  LossCompletes s l u ∧ (l.state ≠ .held → l.state ≠ .reclaiming → u.leases = s.leases) ∧
    (l.state = .held ∨ l.state = .reclaiming → ∃ d, P d ∧ LossTold s l d u)

section
variable {s t : State} (l : Lease)

theorem leaseLost_inForce {d : Nat} (h : l.state = .held ∨ l.state = .reclaiming) :
    leaseLost l d s = leaseNote 2 0x32 l (lossReported l d s) := by
  rw [leaseLost_eq, if_neg]
  rcases h with h | h <;> simp [h]

theorem leaseLost_over {d : Nat} (h : l.state ≠ .held) (h' : l.state ≠ .reclaiming) : leaseLost l d s = accessesLost l s := by
  rw [leaseLost_eq, if_pos ⟨h, h'⟩]

theorem leaseLost_flights (d : Nat) : (leaseLost l d s).flights = (accessesLost l s).flights := by
  have herr : Reach [.regs .mem, .regs .ras, .regs .evr, .evr, .freeCtr] (markedLost l d s) (lossReported l d s) :=
    pageErr_reach (by decide) (by decide) (by simp) (by decide) (by decide) .rfl'
  rw [leaseLost_eq]
  split
  · rfl
  · rw [flights_of_reach (leaseNote_only ..) (by decide), flights_of_reach herr (by decide), markedLost, inc_flights, updLease_flights]

theorem accessesLost_completes : LossCompletes s l (accessesLost l s) := by
  intro f c hf hr hc hfid hfirst hdone hctx
  have hin : f.fid ∈ openOn s l := hfid ▸ mem_openOn hc hfirst hdone
  exact (endFlights_ended (s := lossNoted l s) (by decide) ⟨hf, hctx⟩ hr hin).outcome

theorem leaseLost_told {d : Nat} (h : l.state = .held ∨ l.state = .reclaiming) (hd : d < 2 ^ 16) : LossTold s l d (leaseLost l d s) := by
  rw [leaseLost_inForce l h]
  have hnote := leaseNote_only 2 0x32 l (lossReported l d s)
  have hrg (x : Fld) := rg_of_reach hnote (pg := pgMemP l.part) (by simp) x
  obtain ⟨herr, hfirst⟩ := lossReported_page (s := s) l d
  refine ⟨(lossReported_counts l d).congr rfl (rg_of_reach hnote (by decide) _), ?_, (hrg _).trans herr, fun h0 => ?_, ?_⟩
  · rw [Turned, hnote.frame .leases (by decide)]
    exact lossReported_leases l d
  · obtain ⟨hcode, hdetail⟩ := hfirst h0
    exact ⟨(hrg _).trans hcode, ((hrg _).trans hdetail).trans (Nat.mod_eq_of_lt hd)⟩
  · rw [hrg]
    exact leaseLost_notifies l d

/-- What the loss of a lease leaves, against a state from which only a message has been taken. -/
theorem leaseLost_lost {d : Nat} {P : Nat → Prop} (h : Reach [.ports, .freeCtr] s t) (hP : P d) (hd : d < 2 ^ 16) :
    Lost s l P (leaseLost l d t) := by
  have haccs : t.accs = s.accs := h.frame .accs (by decide)
  have hcol : t.col = s.col := h.frame .col (by decide)
  have hleases : t.leases = s.leases := h.frame .leases (by decide)
  refine ⟨fun f c hf hr hc hfid hfirst hdone hctx => ?_, fun h1 h2 => ?_, fun hin => ⟨d, hP, ?_⟩⟩
  · have hcode := accessesLost_completes (s := t) l f c ((flightOf_of_flights (flights_of_reach h (by decide)) _).trans hf) hr
      (haccs ▸ hc) hfid hfirst hdone (hcol ▸ hctx)
    exact hcode.of_flights (leaseLost_flights l d)
  · rw [leaseLost_over l h1 h2, (accessesLost_only l t).frame .leases (by decide), hleases]
  · obtain ⟨hcount, hturn, herr, hfirst, hnote⟩ := leaseLost_told (s := t) l hin hd
    refine ⟨hcount.congr (rg_of_reach h (by decide) _) rfl, ?_, herr, fun h0 => hfirst ?_, ?_⟩
    · exact hturn.of_taken h
    · exact (rg_of_reach h (by simp) _).trans h0
    · exact hnote.from (rg_of_reach h (by simp [kindPage]) _) (fun c => rg_of_reach h (by simp) _) (h.frame .chans (by decide))

end

/-! ### Accesses to leased memory (R299) -/

section
variable {port : Nat} {m : Msg} {s t : State}

/-- The read that an LRDATA answers. -/
def readOf (s : State) (m : Msg) : Option LeaseAcc := s.accs.find? fun c => c.tag == bF m.head 20 4 && !c.isWrite && !c.done

/-- The bytes that a descriptor has captured, with those that have come. -/
def captured (c : LeaseAcc) (bs : List Byte) (f : Flight) : Flight :=
  { f with snap := f.snap.map fun x => putBytes memDefault x c.addr bs }

/-- The bytes of a read are in place. -/
def readServed (c : LeaseAcc) (bs : List Byte) (s : State) : State :=
  { poke c.addr bs (updFlight c.fid (captured c bs) s) with accs := s.accs.map fun d => if d = c then { c with done := true } else d }

theorem lrdataIn_eq {c : LeaseAcc} (h : takeMsg port 0x21 s = some (m, t)) (hc : readOf s m = some c) :
    lrdataIn port s = readServed c (m.body.take c.len) t := by
  have haccs : t.accs = s.accs := (takeMsg_only h).frame .accs (by decide)
  have hfind : readOf t m = some c := by rw [readOf, haccs]; exact hc
  unfold lrdataIn
  rw [h]
  dsimp only
  unfold readOf at hfind
  rw [hfind]
  rfl

theorem memHolds_poke (a : Nat) (bs : List Byte) (s : State) : MemHolds [(a, bs)] s (poke a bs s) := fun x => by
  rw [rd1_poke]
  unfold writtenAt
  dsimp only [List.foldl_cons, List.foldl_nil]
  split <;> rfl

theorem readServed_bytes (c : LeaseAcc) (bs : List Byte) (h : Reach [.ports] s t) :
    MemHolds [(c.addr, bs)] s (readServed c bs t) ∧
      (readServed c bs t).flights = s.flights.map (fun f => if f.fid = c.fid then captured c bs f else f) ∧
      (readServed c bs t).accs = s.accs.map fun d => if d = c then { c with done := true } else d := by
  have haccs : t.accs = s.accs := h.frame .accs (by decide)
  have hflights : t.flights = s.flights := flights_of_reach h (by decide)
  have hmem : t.mem = s.mem := h.frame .mem (by decide)
  refine ⟨?_, ?_, congrArg (List.map _) haccs⟩
  · exact (memHolds_poke c.addr bs (updFlight c.fid (captured c bs) t)).of_mem ((updFlight_mem ..).trans hmem) rfl
  · show t.flights.map (updOne c.fid (captured c bs)) = _
    rw [hflights]
    refine List.map_congr_left fun f _ => ?_
    unfold updOne
    split <;> rfl

theorem lwackIn_eq (h : takeMsg port 0x23 s = some (m, t)) :
    lwackIn port s = { t with accs := s.accs.filter fun c => !(c.tag == bF m.head 20 4 && c.isWrite) } := by
  have haccs : t.accs = s.accs := (takeMsg_only h).frame .accs (by decide)
  unfold lwackIn
  rw [h]
  dsimp only
  rw [haccs]

theorem colDones_idle (h : s.col.ctxs = []) : colDones s = s := by
  rw [colDones, h]
  rfl

end

/-! ### Timers (R235, R238) -/

theorem withLease_at {s : State} {slot : Nat} {l : Lease} (h : leaseAt s slot = some l) {states : List LeaseState}
    (hs : l.state ∈ states) (g : Lease → State → State) : withLease slot states g s = g l s := by
  unfold withLease
  rw [h]
  exact if_pos (List.contains_iff_mem.mpr hs)

theorem lrelSend_eq {s : State} {slot : Nat} {l : Lease} (h : leaseAt s slot = some l) (hs : l.state = .releasing)
    (hsent : l.lrelSent = false) : lrelSend slot s = if leaseQuiet s l then
      borrowerSend l 5 0 l.count (updLease l.first (fun l => { l with lrelSent := true }) s) else s := by
  unfold lrelSend
  rw [h]
  simp [hs, hsent]

/-! ### The statement -/

section
variable {s : State} (h : Running s)
include h

theorem exec_leaseAcquire {fid : Nat} : exec (.leaseAcquire fid) s = .next (leaseAcquire fid s) :=
  congrArg Host.Outcome.next (wh_running h _)

theorem exec_leaseRelease {fid : Nat} : exec (.leaseRelease fid) s = .next (leaseRelease fid s) :=
  congrArg Host.Outcome.next (wh_running h _)

theorem exec_lgrant {port : Nat} : exec (.lgrant port) s = .next (lgrantIn port s) :=
  congrArg Host.Outcome.next (wh_running h _)

theorem exec_lrefuse {port : Nat} : exec (.lrefuse port) s = .next (lrefuseIn port s) :=
  congrArg Host.Outcome.next (wh_running h _)

theorem exec_lrelack {port : Nat} : exec (.lrelack port) s = .next (lrelackIn port s) :=
  congrArg Host.Outcome.next (wh_running h _)

theorem exec_lrecl {port : Nat} : exec (.lrecl port) s = .next (lreclIn port s) :=
  congrArg Host.Outcome.next (wh_running h _)

theorem exec_lunknown {port : Nat} : exec (.lunknown port) s = .next (kick (lunknownIn port s)) :=
  congrArg Host.Outcome.next (wh_running h _)

theorem exec_lrdata {port : Nat} : exec (.lrdata port) s = .next (kick (lrdataIn port s)) :=
  congrArg Host.Outcome.next (wh_running h _)

theorem exec_lwack {port : Nat} : exec (.lwack port) s = .next (kick (colDones (lwackIn port s))) :=
  congrArg Host.Outcome.next (wh_running h _)

theorem exec_leaseAnswerTimeout {slot : Nat} : exec (.leaseAnswerTimeout slot) s =
    .next (withLease slot [.pending, .releasing] (fun l s => wh (l.asked && l.acq.isSome) (leaseEnds l 0x32) s) s) :=
  congrArg Host.Outcome.next (wh_running h _)

theorem exec_leaseKeepTimer {slot : Nat} : exec (.leaseKeepTimer slot) s =
    .next (withLease slot [.held, .reclaiming] (fun l => borrowerSend l 4 0 l.count) s) :=
  congrArg Host.Outcome.next (wh_running h _)

theorem exec_leaseLostTimeout {slot : Nat} : exec (.leaseLostTimeout slot) s =
    .next (kick (withLease slot [.held, .reclaiming] (fun l => leaseLost l 1) s)) :=
  congrArg Host.Outcome.next (wh_running h _)

theorem exec_releaseLrelSend {slot : Nat} : exec (.releaseLrelSend slot) s = .next (lrelSend slot s) :=
  congrArg Host.Outcome.next (wh_running h _)

theorem exec_releaseAckTimeout {slot : Nat} : exec (.releaseAckTimeout slot) s =
    .next (withLease slot [.releasing] (fun l s => wh l.lrelSent (leaseEnds l 0) s) s) :=
  congrArg Host.Outcome.next (wh_running h _)

end

/-- Settles O54: each command by the state of its lease; the end of a lease and its loss are lemmas of their own. -/
theorem leasesAtTheBorrower : Obligations.LeasesAtTheBorrower := by
  unfold Obligations.LeasesAtTheBorrower
  intro fid slot port s hrun outcome sends turns frees open_ released lost
  refine ⟨kick_idle, fun f l hf hasked => ?acquire, fun f l hf => ?release, fun m t l htake hl => ?grant,
    fun m t l htake hl => ?refuse, fun m t l htake hl => ?relack, fun m t l htake hl => ?recl, fun m t l htake hl => ?unknown,
    fun m t c htake hc => ?rdata, fun m t htake => ?wack, fun l hat => ?timers⟩
  case acquire =>
    refine ⟨_, exec_leaseAcquire hrun, ?_⟩
    rw [leaseAcquire_asks hf hasked]
    refine ⟨(borrowerSend_sends l).of_updLease, ?_, (borrowerSend_turns l ..).of_updLease l (by intro; rfl)⟩
    rw [borrowerSend_flights, updLease_flights]
  case release =>
    refine ⟨fun hlost => ⟨_, exec_leaseRelease hrun, ?_⟩, fun hlost => ?_⟩
    · rw [leaseRelease_eq hf, if_pos hlost]
      exact leaseRelease_lost hf
    · rw [exec_leaseRelease hrun, leaseRelease_eq hf, if_neg hlost]
  case grant =>
    have hport := takeMsg_only htake
    refine ⟨fun hacq => ?_, fun hacq hopen => ⟨_, exec_lgrant hrun, ?_⟩⟩
    · rw [exec_lgrant hrun, lgrantIn_eq htake hl, hacq]
    · have hsame : (updLease l.first (asGranted m l.count) t).flights = s.flights :=
        (updLease_flights ..).trans (flights_of_reach hport (by decide))
      rw [lgrantIn_eq htake hl, hacq]
      exact ⟨(StillOpen.of_flights hopen hsame).finish_self 0, rfl,
        Turned.of_taken (g := asGranted m l.count) rfl (hport.mono (by decide))⟩
  case refuse =>
    have hport := takeMsg_only htake
    refine ⟨fun hacq => ?_, fun hacq hopen => ⟨_, exec_lrefuse hrun, ?_⟩⟩
    · rw [exec_lrefuse hrun, lrefuseIn_eq htake hl, hacq]
      rfl
    · have hopen' : StillOpen t fid := StillOpen.of_flights hopen (flights_of_reach hport (by decide))
      rw [lrefuseIn_eq htake hl, if_pos (by rw [hacq]; rfl)]
      exact ⟨leaseEnds_acquire l 0x11 hopen' hacq (by decide), (leaseEnds_released l 0x11).of_taken hport⟩
  case relack =>
    refine ⟨fun hs => ?_, fun hs => ⟨_, exec_lrelack hrun, ?_⟩⟩
    · rw [exec_lrelack hrun, lrelackIn_eq htake hl, if_neg hs]
    · rw [lrelackIn_eq htake hl, if_pos hs]
      exact (leaseEnds_released l 0).of_taken (takeMsg_only htake)
  case recl =>
    refine ⟨fun hs => ?_, fun hs => ⟨_, exec_lrecl hrun, ?_⟩⟩
    · rw [exec_lrecl hrun, lreclIn_eq htake hl, if_neg hs]
    · rw [lreclIn_eq htake hl, if_pos hs]
      exact recl_notifies l (takeMsg_only htake)
  case unknown =>
    have hport := takeMsg_only htake
    refine ⟨_, exec_lunknown hrun, ?_⟩
    rw [lunknownIn_eq htake hl]
    split
    next hs => exact leaseLost_lost l (hport.mono (by decide)) rfl (by decide)
    next hs =>
      refine leaseLost_lost l (tickFree_reach (by decide) (hport.mono (by decide))) ?_ ?_
      · split
        · exact .inr rfl
        · exact .inl rfl
      · split <;> decide
  case rdata =>
    refine ⟨_, exec_lrdata hrun, ?_⟩
    rw [lrdataIn_eq htake hc]
    exact readServed_bytes c _ (takeMsg_only htake)
  case wack =>
    refine ⟨?_, fun hctx => colDones_idle ?_⟩
    · rw [exec_lwack hrun, lwackIn_eq htake]
    · have hcol : t.col = s.col := (takeMsg_only htake).frame .col (by decide)
      exact (congrArg Col.ctxs hcol).trans hctx
  case timers =>
    refine ⟨fun hs hasked hacq hopen => ⟨_, exec_leaseAnswerTimeout hrun, ?_⟩, fun hs => ⟨_, exec_leaseKeepTimer hrun, ?_⟩,
      fun hs => ⟨_, exec_leaseLostTimeout hrun, ?_⟩, fun hs hsent => ⟨fun hquiet => ⟨_, exec_releaseLrelSend hrun, ?_⟩, fun hquiet => ?_⟩,
      fun hs hsent => ⟨_, exec_releaseAckTimeout hrun, ?_⟩⟩
    · rw [withLease_at hat (by simpa using hs), hasked, hacq]
      exact ⟨leaseEnds_acquire l 0x32 hopen hacq (by decide), leaseEnds_released l 0x32⟩
    · rw [withLease_at hat (by simpa using hs)]
      exact ⟨borrowerSend_sends l, borrowerSend_turns l ..⟩
    · rw [withLease_at hat (by simpa using hs)]
      exact leaseLost_lost l .rfl' rfl (by decide)
    · rw [lrelSend_eq hat hs hsent, if_pos hquiet]
      exact ⟨(borrowerSend_sends l).of_updLease, (borrowerSend_turns l ..).of_updLease l (by intro; rfl)⟩
    · rw [exec_releaseLrelSend hrun, lrelSend_eq hat hs hsent, hquiet]
      rfl
    · rw [withLease_at hat (by simpa using hs), hsent]
      exact leaseEnds_released l 0

end Sys2Proof.Machine
end

section
/-!
PROOFS. What a fault and the teardowns after it leave as it is: the codes that pages have recorded, the marks of failed units, the channels
held, and what a torn partition and a held queue have become. Each operation that a fault can bring leaves it so.
-/
namespace Sys2Proof.Machine

/-! ### The relation -/

/-- The blocks on whose pages a recorded code is followed. -/
def watchedBlocks : List Block := [.prt, .mem, .lpd, .arr, .stk, .yrd, .ras, .col, .dsp]

/-- The fields of a page that hold its first code (R442). -/
def firstFields : List Fld := [Fld.PAGE_ERR_ERR, Fld.PAGE_ERR_INFO_CODE, Fld.PAGE_ERR_INFO_DETAIL]

/-- The marks that a failure leaves: what the RAS page says of the module, the fences of the arrays, the marks of failed stacks and
packages, and the modes of the yard's ways. -/
def markFields : List (Block × Fld) :=
  [(.ras, Fld.RAS_DEV_STAT_FAILED), (.ras, Fld.RAS_DEV_STAT_CAUSE), (.ras, Fld.RAS_FAIL_SRC), (.ras, Fld.RAS_FAIL_INFO),
    (.mem, Fld.MEM_STACK_STAT_FAILED), (.lpd, Fld.LPD_STAT_FAILED)] ++
  (List.range 5).map (fun i => (.ras, fldAt Fld.RAS_FENCE i)) ++ (List.range 4).map fun i => (.yrd, ⟨0x100 + 4 * i, 31, 0⟩)

/-- A page keeps the code that it has recorded. -/
def CodeStays (g : Page) (s t : State) : Prop :=
  rg s g Fld.PAGE_ERR_ERR = 1 → rg t g Fld.PAGE_ERR_ERR = 1 ∧
    rg t g Fld.PAGE_ERR_INFO_CODE = rg s g Fld.PAGE_ERR_INFO_CODE ∧ rg t g Fld.PAGE_ERR_INFO_DETAIL = rg s g Fld.PAGE_ERR_INFO_DETAIL

/-- What an operation leaves as it is when a fault has taken a unit out of service. -/
structure Steady (s t : State) : Prop where
  codes : ∀ g : Page, g.blk ∈ watchedBlocks → CodeStays g s t
  marks : ∀ (g : Page) (x : Fld), (g.blk, x) ∈ markFields → rg t g x = rg s g x
  stopped : ∀ q, rg s (pgDsp q) Fld.DSP_Q_CTRL_RUN = 0 → rg t (pgDsp q) Fld.DSP_Q_CTRL_RUN = 0
  held : t.retrain.held = s.retrain.held
  owners : ∀ f, f ∈ t.flights → ∃ g, g ∈ s.flights ∧ g.q = f.q
  queue0 : (qu s 0).held = true → (qu t 0).held = true
  torn : ∀ p, partState s p = .torn → partState t p = .torn
  curKeys : ∀ p, (secOf s p).curSet = keySetZero → (secOf t p).curSet = keySetZero
  oldKeys : ∀ p, (secOf s p).oldSet = keySetZero → (secOf t p).oldSet = keySetZero

/-- The pieces that `Steady` does not speak of. -/
def quietPiece : Piece → Bool
  | .regs b => !watchedBlocks.contains b
  | .retrain | .flights | .queues | .parts | .secs => false
  | _ => true

/-- A field with no bit in common with the codes that pages record. -/
def Fld.plain (f : Fld) : Bool := f.ok && firstFields.all fun g => g.ok && f.apart g

/-- A write of the field leaves what `Steady` speaks of on the pages of a block. -/
def leavesMarks (b : Block) (f : Fld) : Bool :=
  f.plain && ((.dsp, Fld.DSP_Q_CTRL_RUN) :: markFields).all fun x => x.2.ok && (b != x.1 || f.apart x.2)

theorem partState_of_parts {s t : State} (h : t.parts = s.parts) (p : Nat) : partState t p = partState s p := by
  rw [partState, h, partState]

theorem secOf_of_secs {s t : State} (h : t.secs = s.secs) (p : Nat) : secOf t p = secOf s p := by rw [secOf, h, secOf]

theorem CodeStays.refl (g : Page) (s : State) : CodeStays g s s := fun h => ⟨h, rfl, rfl⟩

theorem CodeStays.trans {g : Page} {s t u : State} (h : CodeStays g s t) (h' : CodeStays g t u) : CodeStays g s u := fun he => by
  obtain ⟨hterr, htcode, htdetail⟩ := h he
  obtain ⟨huerr, hucode, hudetail⟩ := h' hterr
  exact ⟨huerr, hucode.trans htcode, hudetail.trans htdetail⟩

theorem codeStays_of_fields {g : Page} {s t : State} (h : ∀ x, x ∈ firstFields → rg t g x = rg s g x) : CodeStays g s t :=
  fun he => ⟨(h _ (by decide)).trans he, h _ (by decide), h _ (by decide)⟩

namespace Steady

variable {s t u : State}

theorem refl (s : State) : Steady s s :=
  ⟨fun g _ => .refl g s, fun _ _ _ => rfl, fun _ h => h, rfl, fun f hf => ⟨f, hf, rfl⟩, id, fun _ h => h, fun _ h => h, fun _ h => h⟩

theorem trans (h : Steady s t) (h' : Steady t u) : Steady s u where
  codes g hg := (h.codes g hg).trans (h'.codes g hg)
  marks g x hx := (h'.marks g x hx).trans (h.marks g x hx)
  stopped q hq := h'.stopped q (h.stopped q hq)
  held := h'.held.trans h.held
  owners f hf := by
    obtain ⟨g, hg, hgf⟩ := h'.owners f hf
    obtain ⟨k, hk, hkg⟩ := h.owners g hg
    exact ⟨k, hk, hkg.trans hgf⟩
  queue0 hq := h'.queue0 (h.queue0 hq)
  torn p hp := h'.torn p (h.torn p hp)
  curKeys p hp := h'.curKeys p (h.curKeys p hp)
  oldKeys p hp := h'.oldKeys p (h.oldKeys p hp)

/-- An operation that changes no register of the pages watched. -/
theorem of_regs (hr : ∀ g x, g.blk ∈ watchedBlocks → rg t g x = rg s g x) (hheld : t.retrain.held = s.retrain.held)
    (hown : ∀ f, f ∈ t.flights → ∃ g, g ∈ s.flights ∧ g.q = f.q) (hqu : (qu s 0).held = true → (qu t 0).held = true)
    (hparts : t.parts = s.parts) (hsecs : t.secs = s.secs) : Steady s t where
  codes g hg := codeStays_of_fields fun x _ => hr g x hg
  marks g x hx := hr g x (by
    have hall : ∀ y ∈ markFields, y.1 ∈ watchedBlocks := by decide
    exact hall _ hx)
  stopped q hq := (hr (pgDsp q) _ (show Block.dsp ∈ watchedBlocks by decide)).trans hq
  held := hheld
  owners := hown
  queue0 := hqu
  torn p hp := (partState_of_parts hparts p).trans hp
  curKeys p hp := by rw [secOf_of_secs hsecs, hp]
  oldKeys p hp := by rw [secOf_of_secs hsecs, hp]

theorem of_reach {L : List Piece} (h : Reach L s t) (hL : L.all quietPiece = true) : Steady s t := by
  have hquiet (k : Piece) (hk : quietPiece k = false) : k ∉ L := fun hin => by
    have := List.all_eq_true.mp hL k hin
    rw [hk] at this
    cases this
  have hflights : t.flights = s.flights := h.frame .flights (hquiet _ rfl)
  refine of_regs (fun g x hg => rg_of_reach h (hquiet _ ?_) x) (congrArg Retrain.held (h.frame .retrain (hquiet _ rfl)))
    (fun f hf => ⟨f, hflights ▸ hf, rfl⟩) (fun hq => by rwa [qu_of_reach h (hquiet _ rfl)]) (h.frame .parts (hquiet _ rfl))
    (h.frame .secs (hquiet _ rfl))
  rw [quietPiece, Bool.not_eq_false', List.contains_iff_mem]
  exact hg

theorem wh {c : Bool} {f : State → State} (h : ∀ t, Steady t (f t)) (s : State) : Steady s (Machine.wh c f s) := by
  unfold Machine.wh
  split
  · exact h s
  · exact .refl s

theorem foldl {α : Type} {f : State → α → State} (h : ∀ t x, Steady t (f t x)) (l : List α) (s : State) : Steady s (l.foldl f s) :=
  List.foldlRecOn l f (refl s) fun t ht x _ => ht.trans (h t x)

theorem foldlFst {α β : Type} {f : State × β → α → State × β} (h : ∀ r x, Steady r.1 (f r x).1) (l : List α) (r : State × β) :
    Steady r.1 (l.foldl f r).1 :=
  List.foldlRecOn l f (motive := fun q => Steady r.1 q.1) (refl r.1) fun q hq x _ => hq.trans (h q x)

theorem st {pg : Page} {f : Fld} (h : leavesMarks pg.blk f = true) (v : Nat) (s : State) : Steady s (Machine.st pg f v s) := by
  simp only [leavesMarks, Fld.plain, Bool.and_eq_true, List.all_eq_true, Bool.or_eq_true, bne_iff_ne] at h
  obtain ⟨⟨hf, hplain⟩, hmarks⟩ := h
  have hkept (g : Page) (x : Fld) (hx : (g.blk, x) ∈ (.dsp, Fld.DSP_Q_CTRL_RUN) :: markFields) :
      rg (Machine.st pg f v s) g x = rg s g x := by
    obtain ⟨hok, happ⟩ := hmarks _ hx
    rcases happ with hne | happ
    · exact rg_of_reach (L := [.regs pg.blk]) (st_reach (by simp) .rfl') (by simpa using hne.symm) x
    · exact rg_st_elsewhere s pg g v hf hok happ
  refine ⟨fun g _ => codeStays_of_fields fun x hx => ?_, fun g x hx => hkept g x (List.mem_cons_of_mem _ hx), fun q hq => ?_,
    congrArg Retrain.held (st_retrain ..), fun g hg => ⟨g, st_flights .. ▸ hg, rfl⟩, fun hq => ?_, fun p hp => ?_, fun p hp => ?_,
    fun p hp => ?_⟩
  · obtain ⟨hok, happ⟩ := hplain x hx
    exact rg_st_elsewhere s pg g v hf hok happ
  · rw [hkept (pgDsp q) _ List.mem_cons_self, hq]
  · rwa [qu_st]
  · rwa [partState_of_parts (st_parts ..)]
  · rwa [secOf_of_secs (st_secs ..)]
  · rwa [secOf_of_secs (st_secs ..)]

theorem inc {pg : Page} {f : Fld} (h : leavesMarks pg.blk f = true) (n : Nat) (s : State) : Steady s (Machine.inc pg f n s) :=
  .st h _ s

end Steady

/-! ### Codes and events -/

theorem rg_setErr_page {pg g : Page} (h : regKey g 0 ≠ regKey pg 0) {x : Fld} (hx : x.ok = true) (code detail : Nat) (s : State) :
    rg (setErr pg code detail s) g x = rg s g x := by
  have hkey (f : Fld) (hf : f.ok = true) : regKey g x.off ≠ regKey pg f.off := by
    simp only [Fld.ok, decide_eq_true_eq] at hf hx
    have hg := regKey_base g
    have hpg := regKey_base pg
    rw [regKey_add g _ hx.2.2, regKey_add pg _ hf.2.2]
    omega
  unfold setErr
  split
  · rw [rg_st_key _ _ _ _ _ _ (hkey _ (by decide)), rg_st_key _ _ _ _ _ _ (hkey _ (by decide)), rg_st_key _ _ _ _ _ _ (hkey _ (by decide))]
  · rw [rg_st_key _ _ _ _ _ _ (hkey _ (by decide))]

theorem rg_same_key {pg g : Page} (h : regKey g 0 = regKey pg 0) {x : Fld} (hx : x.ok = true) (s : State) : rg s g x = rg s pg x := by
  simp only [Fld.ok, decide_eq_true_eq] at hx
  rw [rg, rg, regKey_add g _ hx.2.2, regKey_add pg _ hx.2.2, h]

theorem setErr_codeStays (pg g : Page) (code detail : Nat) (s : State) : CodeStays g s (setErr pg code detail s) := by
  have hfirst : ∀ x ∈ firstFields, x.ok = true ∧ Fld.PAGE_ERR_OVER.apart x = true := by decide
  by_cases h : regKey g 0 = regKey pg 0
  · intro he
    have hset : rg s pg Fld.PAGE_ERR_ERR ≠ 0 := by
      rw [← rg_same_key h (by decide), he]
      decide
    rw [setErr, if_neg hset]
    refine codeStays_of_fields (fun x hx => ?_) he
    exact rg_st_elsewhere s pg g 1 (by decide) (hfirst x hx).1 (hfirst x hx).2
  · exact codeStays_of_fields fun x hx => rg_setErr_page h (hfirst x hx).1 ..

theorem setErr_steady (pg : Page) (code detail : Nat) (s : State) : Steady s (setErr pg code detail s) := by
  have hmarks : ∀ x ∈ (.dsp, Fld.DSP_Q_CTRL_RUN) :: markFields, x.2.notErr = true := by decide
  have hreach : Reach [.regs pg.blk] s (setErr pg code detail s) := setErr_reach (by simp) .rfl'
  have hflights : (setErr pg code detail s).flights = s.flights := hreach.frame .flights (by simp)
  have hsecs : (setErr pg code detail s).secs = s.secs := hreach.frame .secs (by simp)
  refine ⟨fun g _ => setErr_codeStays pg g code detail s, fun g x hx => ?_, fun q hq => ?_,
    congrArg Retrain.held (hreach.frame .retrain (by simp)), fun f hf => ⟨f, hflights ▸ hf, rfl⟩, fun hq => ?_, fun p hp => ?_,
    fun p hp => ?_, fun p hp => ?_⟩
  · exact rg_setErr_notErr (hmarks _ (List.mem_cons_of_mem _ hx)) ..
  · rw [rg_setErr_notErr (hmarks _ List.mem_cons_self), hq]
  · rwa [qu_of_reach hreach (by simp)]
  · rwa [partState_of_parts (hreach.frame .parts (by simp))]
  · rwa [secOf_of_secs hsecs]
  · rwa [secOf_of_secs hsecs]

theorem coalesce_steady (k : EvKey) (a : EvAcc) (s : State) : Steady s (coalesce k a s) :=
  .of_reach (L := [.regs .evr, .evr]) (coalesce_reach (by decide) (by decide) .rfl') (by decide)

theorem rasCount_steady (cls : Nat) (s : State) : Steady s (rasCount cls s) := by
  unfold rasCount
  split
  · exact .inc rfl 1 s
  · split
    · exact .inc rfl 1 s
    · split
      · exact .inc rfl 1 s
      · exact .refl s

theorem raised_steady (cls : Nat) (k : EvKey) (a : EvAcc) (s : State) : Steady s (rasCount cls (tickFree (coalesce k a s))) :=
  ((coalesce_steady k a s).trans (.of_reach (L := [.freeCtr]) (tickFree_reach (by decide) .rfl') (by decide))).trans
    (rasCount_steady ..)

theorem raise_steady (src : Page) (cls code detail : Nat) (part : Option Nat) (sev : Nat) (s : State) :
    Steady s (raise src cls code detail part sev s) := raised_steady ..

theorem raiseV_steady (src : Page) (cls code detail : Nat) (part : Option Nat) (sev v b : Nat) (s : State) :
    Steady s (raiseV src cls code detail part sev v b s) := raised_steady ..

theorem countCode_steady (pg : Page) (code detail : Nat) (part : Option Nat) (s : State) :
    Steady s (countCode pg code detail part s) := by
  unfold countCode
  split
  · exact raise_steady ..
  · split
    · exact raise_steady ..
    · split
      · exact raise_steady ..
      · split <;> exact raise_steady ..

theorem pageErr_steady (pg : Page) (code detail : Nat) (part : Option Nat) (s : State) : Steady s (pageErr pg code detail part s) :=
  (setErr_steady ..).trans (countCode_steady ..)

/-! ### Accesses to memory -/

theorem noteBlock_steady (u code detail : Nat) (s : State) : Steady s (noteBlock u code detail s) := by
  unfold noteBlock
  split
  · exact pageErr_steady ..
  · have herr := pageErr_steady (pgMce (mceOf u)) code detail (blockOwner s u) s
    dsimp only
    generalize pageErr (pgMce (mceOf u)) code detail (blockOwner s u) s = t at herr
    have hat : Reach [.regs .mce, .regs .sec] t (st (pgMce (mceOf u)) Fld.MCE_FAIL_LO (u % 2 ^ 23)
      (st (pgMce (mceOf u)) Fld.MCE_FAIL_HI (u / 2 ^ 23) t)) := st_reach (by simp) (st_reach (by simp) .rfl')
    generalize st (pgMce (mceOf u)) Fld.MCE_FAIL_LO (u % 2 ^ 23) (st (pgMce (mceOf u)) Fld.MCE_FAIL_HI (u / 2 ^ 23) t) = v at hat
    have hcounts := wh_reach (x0 := detail == 0x0003) (x1 := inc (pgMce (mceOf u)) Fld.MCE_NODE_FAIL 1)
      (fun _ => inc_reach (by simp)) (.ite (c := code = 0x21) (inc_reach (x0 := pgMce (mceOf u)) (x1 := Fld.MCE_INTEG_FAIL)
        (x2 := 1) (by simp) hat) (inc_reach (x0 := pgMce (mceOf u)) (x1 := Fld.MCE_STALE) (x2 := 1) (by simp) hat))
    refine herr.trans (.of_reach (L := [.regs .mce, .regs .sec]) ?_ (by decide))
    split
    · exact .ite (inc_reach (by simp) hcounts) (inc_reach (by simp) hcounts)
    · exact hcounts

theorem blockWrite_steady (u a : Nat) (bs : List Byte) (s : State) : Steady s (blockWrite u a bs s).1 := by
  unfold blockWrite
  split
  · exact noteBlock_steady ..
  · exact .of_reach (L := [.regs .mce, .mce, .mem]) (freshen_reach (by decide) (by decide) (tagSet_reach (by decide)
      (poke_reach (by decide) .rfl'))) (by decide)

theorem dropLines_steady (gone : Nat × Nat × Nat → Bool) (s : State) : Steady s (dropLines gone s) := by
  unfold dropLines
  dsimp only
  split
  · exact .refl s
  · exact Steady.trans (.of_reach (L := [.yard]) (Reach.yard .rfl' (by decide)) (by decide)) (.inc rfl _ _)

theorem yardWriteLine_steady (p l : Nat) (whole : Bool) (s : State) : Steady s (yardWriteLine p l whole s) := by
  unfold yardWriteLine
  split
  · exact .refl s
  · have huse : Steady s (wh (inCache s p l || whole) (useLine p l) s) :=
      .wh (fun t => .of_reach (L := [.yard]) (useLine_reach (by decide) .rfl') (by decide)) s
    refine huse.trans ?_
    split <;> exact .inc rfl 1 _

theorem writeLine_steady (via : Via) (p fid l a : Nat) (bs : List Byte) (s : State) : Steady s (writeLine via p fid l a bs s).1 := by
  unfold writeLine
  split
  · exact .refl s
  · have hyard : Steady s (if via = .yard then yardWriteLine p l (bs.length == 512) s else yardKillLine l s) := by
      split
      · exact yardWriteLine_steady ..
      · exact dropLines_steady ..
    dsimp only
    generalize (if via = .yard then yardWriteLine p l (bs.length == 512) s else yardKillLine l s) = y at hyard
    have hpoke : Steady y (poke a bs y) := .of_reach (L := [.mem]) (poke_reach (by decide) .rfl') (by decide)
    refine hyard.trans ?_
    split
    · exact blockWrite_steady l a bs y
    · exact blockWrite_steady l a bs y
    · exact hpoke
    · split
      · split
        · exact pageErr_steady (pgMemP p) 0x32 _ (some p) y
        · exact hpoke.trans (.of_reach (L := [.accs, .nextTag, .ports]) (leaseAccess_reach (by decide) (by decide) (by decide)
            .rfl') (by decide))
      · exact .refl y
    · exact .refl y

theorem memWrite_steady (via : Via) (p fid a : Nat) (bs : List Byte) (s : State) : Steady s (memWrite via p fid a bs s).1 := by
  unfold memWrite
  refine Steady.foldlFst (fun r x => ?_) _ (s, none)
  exact writeLine_steady via p fid x.1 x.2.1 _ r.1

theorem memPut_steady (via : Via) (p a : Nat) (bs : List Byte) (s : State) : Steady s (memPut via p a bs s) := memWrite_steady ..

/-! ### What follows a final outcome (R172, R194) -/

theorem tryWrite_steady (via : Via) (p a : Nat) (bs : List Byte) (r : Try) : Steady r.1 (tryWrite via p a bs r).1 := by
  unfold tryWrite
  split
  · exact .refl _
  · split
    · exact .refl _
    · exact memPut_steady ..

theorem attnScores_steady (f : Flight) (r : Try) : Steady r.1 (attnScores f r).1 := by
  unfold attnScores
  split
  · split
    · exact .refl _
    · refine .foldlFst (fun r x => ?_) _ r
      dsimp only
      have hlook (p t e : Nat) : Steady r.1 (kvLook p t e r).1 :=
        .of_reach (L := [.regs .kvs, .lab, .freeCtr]) (kvLook_reach (by decide) (by decide) (by decide) ⟨.rfl'⟩).out (by decide)
      have hput (p t e v : Nat) (r' : Try) : Steady r'.1 (kvLeafPut p t e v r').1 := by
        unfold kvLeafPut
        split
        · exact tryWrite_steady ..
        · exact .refl _
      split
      · exact (hlook _ _ _).trans (hput _ _ _ _ _)
      · exact hlook _ _ _
  · exact .refl _

theorem scPut_steady (via : Via) (p t off n v : Nat) (r : Try) : Steady r.1 (scPut via p t off n v r).1 := tryWrite_steady ..

/-- The references of a SCAN's streams are given back, entry by entry. -/
theorem scanRefs_steady (p : Nat) (ds : List Nat) (r : Try) :
    Steady r.1 (ds.foldl (fun r t => scPut .beside p t 4 4 (scF r.1 p t 4 4 - 1) (scRead p t r)) r).1 := by
  refine .foldlFst (fun r t => ?_) _ r
  have h := scPut_steady .beside p t 4 4 (scF r.1 p t 4 4 - 1) (scRead p t r)
  rwa [scRead_fst] at h

theorem scanOutcome_steady (f : Flight) (r : Try) : Steady r.1 (scanOutcome f r).1 := by
  unfold scanOutcome
  split
  next w code _ _ =>
    split
    · exact .refl _
    · have hrefs := scanRefs_steady f.q (scDistinct f.bytes f.cap.list) r
      dsimp only
      generalize (scDistinct f.bytes f.cap.list).foldl
        (fun r t => scPut .beside f.q t 4 4 (scF r.1 f.q t 4 4 - 1) (scRead f.q t r)) r = r1 at hrefs
      split
      · exact hrefs
      · have hsteps := hrefs.trans (Steady.foldlFst (fun r t => tryWrite_steady ..) (scDistinct f.bytes f.cap.list) r1
          (f := fun r t => scPut .beside f.q t 16 8 (scF r.1 f.q t 16 8 + scanSteps f t) r))
        generalize (scDistinct f.bytes f.cap.list).foldl
          (fun r t => scPut .beside f.q t 16 8 (scF r.1 f.q t 16 8 + scanSteps f t) r) r1 = r2 at hsteps
        exact hsteps.trans (.of_reach (L := [.regs .scn, .scn]) (tryDo_reach (fun t ht => .foldl (fun _ _ =>
          scanTurn_reach (by decide)) (inc_reach (by simp) ht)) ⟨.rfl'⟩).out (by decide))
  · exact .refl _

theorem scanRelease_steady (f : Flight) (s : State) : Steady s (scanRelease f s) := by
  unfold scanRelease
  split
  · exact .foldl (fun t x => scPut_steady .beside f.q x 4 4 _ (t, none)) _ s
  · exact .refl s

/-! ### Descriptors that end -/

section
variable {s : State}

theorem updOne_q (fid : Nat) (g : Flight → Flight) (f : Flight) : (updOne fid g f).q = f.q := by
  unfold updOne
  split <;> rfl

/-- The descriptors in flight keep their queues where each is changed by itself. -/
theorem updFlight_steady (fid : Nat) (g : Flight → Flight) (s : State) : Steady s (updFlight fid g s) := by
  refine .of_regs (fun p x _ => rg_of_regs (updFlight_regs ..) p x) (congrArg Retrain.held (updFlight_retrain ..)) (fun f hf => ?_)
    (fun h => ?_) (updFlight_parts ..) (updFlight_secs ..)
  · rw [updFlight_flights] at hf
    obtain ⟨k, hk, rfl⟩ := List.mem_map.mp hf
    exact ⟨k, hk, (updOne_q fid g k).symm⟩
  · rwa [qu_of_queues (updFlight_queues ..)]

theorem finish_steady (fid code detail : Nat) (s : State) : Steady s (finish fid code detail s) := updFlight_steady ..

theorem abandon_steady (fid code detail : Nat) (s : State) : Steady s (abandon fid code detail s) := by
  have hleft : Steady s (leftUnits fid s) := .of_reach (leftUnits_only fid s) (by decide)
  have hfin := finish_steady fid code detail (leftUnits fid s)
  refine hleft.trans (hfin.trans ?_)
  unfold abandon
  dsimp only
  rw [← leftUnits]
  generalize finish fid code detail (leftUnits fid s) = t
  exact .of_regs (fun _ _ _ => rfl) rfl (fun f hf => ⟨f, hf, rfl⟩) id rfl rfl

theorem collRecorded_steady (f : Flight) (code detail : Nat) (ovf : Bool) (clamped special : Nat) (s : State) :
    Steady s (collRecorded f code detail ovf clamped special s) := by
  have hinc {x : Fld} (h : leavesMarks .col x = true) {c : Bool} (t : State) : Steady t (wh c (inc (pgCol f.q) x 1) t) :=
    .wh (fun u => .inc h 1 u) t
  have hraise {c : Bool} (cls code d sev v b : Nat) (t : State) :
      Steady t (wh c (raiseV (pgCol f.q) cls code d (some f.q) sev v b) t) := .wh (fun u => raiseV_steady ..) t
  have herr : Steady s (wh (isF code) (pageErr (pgCol f.q) code detail (some f.q)) s) := .wh (fun u => pageErr_steady ..) s
  unfold collRecorded
  dsimp only
  exact (((((((herr.trans (hinc rfl _)).trans (hinc rfl _)).trans (hinc rfl _)).trans (hinc rfl _)).trans
    (hraise _ _ _ _ _ _ _)).trans (hraise _ _ _ _ _ _ _)).trans (hraise _ _ _ _ _ _ _))

theorem colFinish_steady (f : Flight) (code detail : Nat) (ovf : Bool) (clamped special : Nat) (s : State) :
    Steady s (colFinish f code detail ovf clamped special s) := (collRecorded_steady ..).trans (finish_steady ..)

theorem colEnd_steady (c : ColCtx) (f : Flight) (code detail : Nat) (verdict : Bool) (s : State) :
    Steady s (colEnd c f code detail verdict s) := by
  have hundef : Steady s (wh (isF code) (colUndefined f c.nmem) s) :=
    .of_reach (L := [.mem, .freeCtr]) (.wh (fun _ => colUndefined_reach (by decide) (by decide)) .rfl') (by decide)
  unfold colEnd
  refine Steady.trans ?_ (.of_reach (L := [.col]) (freeCtx_reach (by decide) .rfl') (by decide))
  refine Steady.trans ?_ (.wh (fun t => .of_reach (L := [.ports]) (colSend_reach (by decide) (colSend_reach (by decide) .rfl')) (by decide)) _)
  exact hundef.trans (colFinish_steady ..)

theorem colCause_steady (n code own detail : Nat) (s : State) : Steady s (colCause n code own detail s) := by
  unfold colCause
  split
  · split
    · exact colEnd_steady ..
    · split
      · exact .refl s
      · exact .of_reach (L := [.ports, .col]) (colAbort_reach (by decide) (updCtx_reach (by decide) .rfl')) (by decide)
  · exact .refl s

theorem endFlight_steady (fid code detail : Nat) (s : State) : Steady s (endFlight fid code detail s) := by
  unfold endFlight
  split
  · exact (colCause_steady ..).trans (.of_reach (L := [.accs]) (Reach.accs .rfl' (by decide)) (by decide))
  · split
    · split
      · exact (colFinish_steady ..).trans (abandon_steady ..)
      · exact abandon_steady ..
    · exact abandon_steady ..

/-! ### The completion of a descriptor (R44, R46) -/

theorem notify_steady (q : Nat) (n : Note) (s : State) : Steady s (notify q n s) := .of_reach (notify_only q n s) (by decide)

theorem setQu_steady {q : Nat} {x : Queue} (h : (qu s q).held = true → x.held = true) : Steady s (setQu q x s) := by
  refine .of_regs (fun g y _ => rg_setQu ..) (congrArg Retrain.held (setQu_retrain ..)) (fun f hf => ⟨f, setQu_flights .. ▸ hf, rfl⟩)
    (fun h0 => ?_) (setQu_parts ..) (setQu_secs ..)
  rw [qu_setQu]
  split
  next e => exact h (e ▸ h0)
  next => exact h0

theorem hold_steady (q code entry desc tag : Nat) (s : State) : Steady s (hold q code entry desc tag s) := by
  rw [hold_eq]
  split
  · exact countCode_steady ..
  · have hat : Steady s (heldAt q code entry desc s) :=
      (((setQu_steady fun _ => rfl).trans (.st rfl ..)).trans (.st rfl ..)).trans (.st rfl ..)
    exact (hat.trans (pageErr_steady ..)).trans (notify_steady ..)

theorem replayLog_steady (f : Flight) (code : Nat) (s : State) : Steady s (replayLog f code s) := by
  unfold replayLog
  dsimp only
  split
  · exact .refl s
  · exact (memPut_steady ..).trans (.inc rfl 1 _)

theorem dropFlight_steady (f : Flight) (s : State) : Steady s (dropFlight f s) := by
  refine Steady.trans ?_ (.wh (fun t => setQu_steady (q := f.q) (x := { qu t f.q with flushing := false }) id) _)
  exact .of_regs (fun _ _ _ => rfl) rfl (fun g hg => ⟨g, List.mem_of_mem_filter hg, rfl⟩) id rfl rfl

theorem settle_steady (k : Nat) (s : State) : Steady s (settle k s) := by
  unfold settle
  generalize heldOn s k = l
  induction l generalizing s with
  | nil => exact .refl s
  | cons f l ih =>
    rw [settleList]
    split
    · refine Steady.trans (Steady.trans (.of_reach (L := [.toks]) (setTok_reach (by decide) .rfl') (by decide)) (finish_steady ..)) (ih _)
    · exact .refl s

theorem report_steady (q : Nat) (b : List Byte) (addr entry desc tag code : Nat) (s : State) :
    Steady s (report q b addr entry desc tag code s) := by
  have hwritten : Steady s (reportWritten q b addr code s) := .wh (fun _ => memPut_steady ..) s
  have hadd (t : State) : Steady t (tokAddV (dSigTok b) (dSigInc b) (some q) t) := by
    unfold tokAddV
    dsimp only
    split
    · exact .of_reach (L := [.toks]) (setTok_reach (by decide) .rfl') (by decide)
    · exact Steady.trans (.of_reach (L := [.regs .tok, .toks]) (inc_reach (by decide) (setTok_reach (by decide) .rfl')) (by decide))
        (raiseV_steady ..)
  have hsignalled (t : State) : Steady t (reportSignalled q b code t) := .wh (fun u => (hadd u).trans (settle_steady ..)) t
  have hclosed (t : State) : Steady t (reportClosed q entry desc tag code t) := by
    unfold reportClosed
    split
    · exact hold_steady ..
    · exact .wh (fun _ => countCode_steady ..) t
  rw [report_eq]
  exact ((hwritten.trans (hsignalled _)).trans (.of_reach (reportNotified_reach ..) (by decide))).trans (hclosed _)

theorem retire_steady (f : Flight) (code : Nat) (s : State) : Steady s (retire f code s) :=
  ((replayLog_steady ..).trans (dropFlight_steady ..)).trans (report_steady ..)

theorem stopped_steady (e : Stop) (s : State) : Steady s (stopped e s) := by
  unfold stopped
  split
  · exact .refl s
  · exact noteBlock_steady ..

theorem outcomeOf_steady (f : Flight) (code : Nat) (s : State) : Steady s (outcomeOf f code s).1 := by
  refine Steady.trans ?_ (scanOutcome_steady ..)
  split
  · exact .refl s
  · exact attnScores_steady f (s, none)

theorem completeFlight_steady (fid : Nat) (s : State) : Steady s (completeFlight fid s) := by
  unfold completeFlight
  split
  next f _ =>
    split
    next code _ =>
      split
      · exact .refl s
      · dsimp only
        split
        · exact (outcomeOf_steady f code s).trans (retire_steady ..)
        · split
          · exact .refl s
          · split
            · exact ((stopped_steady ..).trans (scanRelease_steady ..)).trans (retire_steady ..)
            · exact (stopped_steady ..).trans (finish_steady ..)
    next => exact .refl s
  next => exact .refl s

end

end Sys2Proof.Machine
end

section
/-!
PROOFS. Teardown (R360, R361) and a fault of partition 0 (R362): what they leave of the partition that they concern, and of every other.
-/
namespace Sys2Proof.Machine

/-! ### Pages of partitions -/

theorem regKey_prt {p q : Nat} (hp : p < 256) (hq : q < 256) (h : p ≠ q) : regKey (pgPrt p) 0 ≠ regKey (pgPrt q) 0 := by
  simp only [regKey]
  omega

theorem rg_st_page {pg g : Page} (h : regKey g 0 ≠ regKey pg 0) {f x : Fld} (hf : f.ok = true) (hx : x.ok = true) (v : Nat)
    (s : State) : rg (st pg f v s) g x = rg s g x := by
  simp only [Fld.ok, decide_eq_true_eq] at hf hx
  have hg := regKey_base g
  have hpg := regKey_base pg
  refine rg_st_key _ _ _ _ _ _ ?_
  rw [regKey_add g _ hx.2.2, regKey_add pg _ hf.2.2]
  omega

/-! ### What a partition's own state and page show -/

/-- The state of partition `p` and its PRT page are as they were. -/
structure Untouched (p : Nat) (s t : State) : Prop where
  state : partState t p = partState s p
  page : ∀ x : Fld, x.ok = true → rg t (pgPrt p) x = rg s (pgPrt p) x

namespace Untouched

variable {p : Nat} {s t u : State}

theorem refl (p : Nat) (s : State) : Untouched p s s := ⟨rfl, fun _ _ => rfl⟩

theorem trans (h : Untouched p s t) (h' : Untouched p t u) : Untouched p s u :=
  ⟨h'.state.trans h.state, fun x hx => (h'.page x hx).trans (h.page x hx)⟩

theorem of_reach {L : List Piece} (h : Reach L s t) (hparts : Piece.parts ∉ L) (hregs : Piece.regs .prt ∉ L) : Untouched p s t :=
  ⟨partState_of_parts (h.frame .parts hparts) p, fun x _ => rg_of_reach (pg := pgPrt p) h hregs x⟩

theorem st {q : Nat} (hp : p < 256) (hq : q < 256) (h : p ≠ q) {f : Fld} (hf : f.ok = true) (v : Nat) (s : State) :
    Untouched p s (Machine.st (pgPrt q) f v s) :=
  ⟨partState_of_parts (st_parts ..) p, fun _ hx => rg_st_page (regKey_prt hp hq h) hf hx v s⟩

theorem pageErr {q : Nat} (hp : p < 256) (hq : q < 256) (h : p ≠ q) (code detail : Nat) (part : Option Nat) (s : State) :
    Untouched p s (Machine.pageErr (pgPrt q) code detail part s) := by
  have hset : Reach [.regs .prt] s (setErr (pgPrt q) code detail s) := setErr_reach (by simp) .rfl'
  have hcount := countCode_only (pgPrt q) code detail part (setErr (pgPrt q) code detail s)
  refine Untouched.trans ⟨partState_of_parts (hset.frame .parts (by decide)) p, fun x hx => ?_⟩
    (.of_reach hcount (by decide) (by decide))
  exact rg_setErr_page (regKey_prt hp hq h) hx ..

theorem foldl {α : Type} {f : State → α → State} (h : ∀ t x, Untouched p t (f t x)) (l : List α) (s : State) :
    Untouched p s (l.foldl f s) :=
  List.foldlRecOn l f (refl p s) fun t ht x _ => ht.trans (h t x)

theorem wh {c : Bool} {f : State → State} (h : ∀ t, Untouched p t (f t)) (s : State) : Untouched p s (Machine.wh c f s) := by
  unfold Machine.wh
  split
  · exact h s
  · exact .refl p s

end Untouched

/-! ### The steps of a teardown -/

/-- The queue of a partition is stopped and empty (R361 step 1). -/
def queueClosed (p : Nat) (s : State) : State :=
  let s := st (pgDsp p) Fld.DSP_Q_HEAD_HEAD_ENTRY (qTail s p) (st (pgDsp p) Fld.DSP_Q_HEAD_HEAD_DESC 0 (st (pgDsp p) Fld.DSP_Q_CTRL_RUN 0 s))
  setQu p (queueDefault p) (askEnd p s)

/-- A descriptor of a partition that is torn down has ended. -/
def flightTorn (detail : Nat) (met : List Nat) (s : State) (f : Flight) : State :=
  let code := if met.contains f.fid && detail != 1 then 0x70 else 0x71
  tearByte f code (abandon f.fid code 0 s)

/-- The collectives and the descriptors of a partition have ended (R361 steps 2 and 3). -/
def flightsTorn (p detail : Nat) (met : List Nat) (s : State) : State :=
  let s := tearContexts p 0x71 (queueClosed p s)
  (s.flights.filter fun f => f.q == p).foldl (flightTorn detail met) s

/-- Nothing of a partition is left in a unit, and its keys are zero (R361 steps 4 to 7). -/
def emptied (p detail : Nat) (met : List Nat) (s : State) : State :=
  let s := tearLeases p (tearUnits p (tearCommands p (flightsTorn p detail met s)))
  zeroiseKeys p ((List.range 16).foldl (fun s k => protectWaiting p k s) s)

/-- The command of a partition that is torn down has ended (R360). -/
def commandTorn (p detail : Nat) (s : State) : State :=
  wh (rg s (pgPrt p) Fld.PRT_CMD_STAT_BUSY == 1 && detail != 1)
    (fun s => st (pgPrt p) Fld.PRT_CMD_STAT_CODE 0x71 (st (pgPrt p) Fld.PRT_CMD_STAT_BUSY 0 s)) s

/-- A partition is TORN, and its command has ended. -/
def markedTorn (p detail : Nat) (s : State) : State := setPart p ⟨.torn, false, []⟩ (commandTorn p detail s)

/-- A teardown is reported (R360). -/
def tornReported (p detail : Nat) (s : State) : State :=
  let s := inc (pgPrt p) Fld.PRT_TEARDOWNS 1 (pageErr (pgPrt p) 0x71 detail (some p) s)
  notify p ⟨4, 0x71, 0xFF, 0, 0, 0, rg s (pgPrt p) Fld.PAGE_ERR_INFO_DETAIL, 0⟩ s

theorem teardown_eq (p detail : Nat) (met : List Nat) (s : State) : teardown p detail met s =
    if p = 0 ∨ partState s p = .none ∨ partState s p = .torn then s
    else tornReported p detail (markedTorn p detail (emptied p detail met s)) := rfl

/-! ### None of these steps undoes a fault -/

theorem run_steady (p : Nat) (s : State) : Steady s (st (pgDsp p) Fld.DSP_Q_CTRL_RUN 0 s) := by
  have happ : ∀ x ∈ markFields, x.2.ok = true ∧ (Block.dsp ≠ x.1 ∨ Fld.DSP_Q_CTRL_RUN.apart x.2 = true) := by decide
  have hplain : ∀ x ∈ firstFields, x.ok = true ∧ Fld.DSP_Q_CTRL_RUN.apart x = true := by decide
  refine ⟨fun g _ => codeStays_of_fields fun x hx => ?_, fun g x hx => ?_, fun q hq => ?_, congrArg Retrain.held (st_retrain ..),
    fun f hf => ⟨f, st_flights .. ▸ hf, rfl⟩, fun h => by rwa [qu_st], fun q h => by rwa [partState_of_parts (st_parts ..)],
    fun q h => by rwa [secOf_of_secs (st_secs ..)], fun q h => by rwa [secOf_of_secs (st_secs ..)]⟩
  · exact rg_st_elsewhere s (pgDsp p) g 0 (by decide) (hplain x hx).1 (hplain x hx).2
  · obtain ⟨hok, hne | hap⟩ := happ _ hx
    · exact rg_of_reach (L := [.regs .dsp]) (st_reach (by simp) .rfl') (by simpa using fun e => hne e.symm) x
    · exact rg_st_elsewhere s (pgDsp p) g 0 (by decide) hok hap
  · by_cases hk : regKey (pgDsp q) 0 = regKey (pgDsp p) 0
    · rw [rg_same_key hk (by decide)]
      exact rg_st_same _ _ _ _ (by decide)
    · rw [rg_st_page hk (by decide) (by decide), hq]

theorem askEnd_steady (q : Nat) (s : State) : Steady s (askEnd q s) := by
  unfold askEnd
  split
  next n _ =>
    have haccs : Steady s { s with accs := s.accs.filter fun c => c.fid != n } :=
      .of_reach (L := [.accs]) (Reach.accs .rfl' (by decide)) (by decide)
    have hproceed (t : State) : Steady t (proceed n t) := .of_regs (fun _ _ _ => rfl) rfl (fun f hf => ⟨f, hf, rfl⟩) id rfl rfl
    exact (haccs.trans (setQu_steady (q := q) (x := { qu s q with ask := none }) id)).trans (hproceed _)
  next => exact .refl s

section
variable {p : Nat} (hp : p ≠ 0)
include hp

theorem queueClosed_steady (s : State) : Steady s (queueClosed p s) := by
  have hstop := ((run_steady p s).trans (Steady.st (pg := pgDsp p) (f := Fld.DSP_Q_HEAD_HEAD_DESC) rfl 0 _)).trans
    (Steady.st (pg := pgDsp p) (f := Fld.DSP_Q_HEAD_HEAD_ENTRY) rfl (qTail s p) _)
  refine (hstop.trans (askEnd_steady p _)).trans ?_
  refine .of_regs (fun g y _ => rg_setQu ..) (congrArg Retrain.held (setQu_retrain ..)) (fun f hf => ⟨f, setQu_flights .. ▸ hf, rfl⟩)
    (fun h => ?_) (setQu_parts ..) (setQu_secs ..)
  unfold queueClosed
  dsimp only
  rwa [qu_setQu_other hp.symm]

end

theorem tearContexts_steady (p code : Nat) (s : State) : Steady s (tearContexts p code s) := by
  refine .foldl (fun t c => ?_) _ s
  have habort : Steady t (if c.abortSent ∨ c.nmem = 1 then t else colAbort c code 0 t) := by
    split
    · exact .refl t
    · exact .of_reach (L := [.ports]) (colAbort_reach (by decide) .rfl') (by decide)
  refine habort.trans ?_
  dsimp only
  generalize (if c.abortSent ∨ c.nmem = 1 then t else colAbort c code 0 t) = v
  split
  · exact colEnd_steady ..
  · exact .of_reach (L := [.col]) (freeCtx_reach (by decide) .rfl') (by decide)

theorem flightTorn_steady (detail : Nat) (met : List Nat) (s : State) (f : Flight) : Steady s (flightTorn detail met s f) :=
  (abandon_steady ..).trans (.wh (fun _ => memPut_steady ..) _)

/-- The jobs of a partition in the security block end. -/
def jobsTorn (p : Nat) (s : State) : State :=
  let s := (s.secJobs.filter fun j => j.part == p).foldl (fun s j => secResult p 0x71
    { s with
      accs := s.accs.filter fun a => a.fid != j.fid
      lostFids := s.lostFids.filter fun f => f.1 != j.fid }) s
  { s with secJobs := s.secJobs.filter fun j => j.part != p }

theorem jobsTorn_only (p : Nat) (s : State) : Reach [.regs .sec, .accs, .lostFids, .secJobs] s (jobsTorn p s) :=
  Reach.secJobs (Reach.foldl (fun _ _ h => secResult_reach (by decide)
    (Reach.accs_lostFids h (by decide) (by decide))) .rfl') (by decide)

theorem tearCommands_eq (p : Nat) (s : State) : tearCommands p s =
    let s := wh (kv s p).waiting.isSome (kvResult p 0x71) s
    let s := wh (sc s p).waiting.isSome (scnResult p 0x71) s
    jobsTorn p (wh (s.col.closing.any fun x => x.1 == p) (colResult p 0x71) s) := rfl

theorem colResult_steady (p code : Nat) (s : State) : Steady s (colResult p code s) :=
  (Steady.st (pg := pgCol p) (f := Fld.COL_CMD_STAT_BUSY) rfl 0 s).trans (.st (pg := pgCol p) (f := Fld.COL_CMD_STAT_CODE) rfl code _)

theorem tearCommands_steady (p : Nat) (s : State) : Steady s (tearCommands p s) := by
  have hkvs : Steady s (wh (kv s p).waiting.isSome (kvResult p 0x71) s) :=
    .of_reach (L := [.regs .kvs]) (.wh (fun _ => kvResult_reach (by decide)) .rfl') (by decide)
  have hscn (t : State) : Steady t (wh (sc t p).waiting.isSome (scnResult p 0x71) t) :=
    .of_reach (L := [.regs .scn]) (.wh (fun _ => scnResult_reach (by decide)) .rfl') (by decide)
  rw [tearCommands_eq]
  exact ((hkvs.trans (hscn _)).trans (.wh (colResult_steady p 0x71) _)).trans (.of_reach (jobsTorn_only ..) (by decide))

theorem tearUnits_steady (p : Nat) (s : State) : Steady s (tearUnits p s) := by
  unfold tearUnits
  refine .of_regs (fun g x _ => rfl) rfl (fun f hf => ⟨f, List.mem_of_mem_filter hf, rfl⟩) id rfl rfl

theorem setSec_steady {p : Nat} {c : SecPart} {s : State} (hcur : (secOf s p).curSet = keySetZero → c.curSet = keySetZero)
    (hold : (secOf s p).oldSet = keySetZero → c.oldSet = keySetZero) : Steady s (setSec p c s) := by
  refine ⟨fun g _ => codeStays_of_fields fun _ _ => rfl, fun _ _ _ => rfl, fun _ h => h, rfl, fun f hf => ⟨f, hf, rfl⟩, id,
    fun _ h => h, fun q h => ?_, fun q h => ?_⟩
  · rw [secOf_setSec]
    split
    next e => exact hcur (e ▸ h)
    next => exact h
  · rw [secOf_setSec]
    split
    next e => exact hold (e ▸ h)
    next => exact h

theorem protectWaiting_steady (part p : Nat) (s : State) : Steady s (protectWaiting part p s) := by
  unfold protectWaiting
  refine Steady.trans (.foldlFst (fun r m => ?_) _ (s, [])) (.of_reach (L := [.ports]) (setPort_reach (by decide) .rfl') (by decide))
  split
  · exact .refl _
  · split
    · exact .refl _
    · exact setSec_steady id id

theorem emptied_steady {p : Nat} (hp : p ≠ 0) (detail : Nat) (met : List Nat) (s : State) : Steady s (emptied p detail met s) := by
  have hflights : Steady s (flightsTorn p detail met s) :=
    ((queueClosed_steady hp s).trans (tearContexts_steady ..)).trans (.foldl (flightTorn_steady detail met) _ _)
  have hleases (t : State) : Steady t (tearLeases p t) :=
    .of_reach (L := [.leases, .ports]) (tearLeases_reach (by decide) (by decide) .rfl') (by decide)
  have hunits := ((hflights.trans (tearCommands_steady p _)).trans (tearUnits_steady p _)).trans (hleases _)
  exact (hunits.trans (.foldl (fun t k => protectWaiting_steady p k t) _ _)).trans (setSec_steady (fun _ => rfl) fun _ => rfl)

theorem commandTorn_steady (p detail : Nat) (s : State) : Steady s (commandTorn p detail s) :=
  .wh (fun t => (Steady.st (pg := pgPrt p) (f := Fld.PRT_CMD_STAT_BUSY) rfl 0 t).trans
    (.st (pg := pgPrt p) (f := Fld.PRT_CMD_STAT_CODE) rfl 0x71 _)) s

theorem partState_setPart (p q : Nat) (x : Part) (s : State) :
    partState (setPart p x s) q = if q = p then x.state else partState s q := by
  unfold partState setPart
  dsimp only
  rw [tabGet_tabSet]
  split <;> rfl

theorem markedTorn_steady (p detail : Nat) (s : State) : Steady s (markedTorn p detail s) := by
  refine (commandTorn_steady p detail s).trans ?_
  refine ⟨fun g _ => codeStays_of_fields fun _ _ => rfl, fun _ _ _ => rfl, fun _ h => h, rfl, fun f hf => ⟨f, hf, rfl⟩, id,
    fun q h => ?_, fun _ h => h, fun _ h => h⟩
  rw [markedTorn, partState_setPart]
  split
  · rfl
  · exact h

theorem tornReported_steady (p detail : Nat) (s : State) : Steady s (tornReported p detail s) :=
  ((pageErr_steady ..).trans (.inc (pg := pgPrt p) (f := Fld.PRT_TEARDOWNS) rfl 1 _)).trans (notify_steady ..)

theorem teardown_steady (p detail : Nat) (met : List Nat) (s : State) : Steady s (teardown p detail met s) := by
  rw [teardown_eq]
  split
  next => exact .refl s
  next h => exact ((emptied_steady (mt .inl h) ..).trans (markedTorn_steady ..)).trans (tornReported_steady ..)

/-- The descriptors that met the error end, and complete (R362). -/
def zeroMet (met : List Nat) (s : State) : State :=
  (s.flights.filter fun f => f.q == 0 && met.contains f.fid).foldl (fun s f => completeFlight f.fid (endFlight f.fid 0x70 0 s)) s

/-- Queue 0 is held. -/
def zeroHeld (s : State) : State := wh (!(qu s 0).held) (fun s => hold 0 0x70 (qHead s 0) (qDesc s 0) 0 s) s

theorem faultZero_eq (detail : Nat) (met : List Nat) (s : State) :
    faultZero detail met s = pageErr (pgPrt 0) 0x70 detail (some 0) (zeroHeld (zeroMet met s)) := rfl

theorem zeroMet_steady (met : List Nat) (s : State) : Steady s (zeroMet met s) :=
  .foldl (fun _ _ => (endFlight_steady ..).trans (completeFlight_steady ..)) _ s

theorem zeroHeld_steady (s : State) : Steady s (zeroHeld s) := .wh (fun _ => hold_steady ..) s

theorem tearCause_steady (p detail : Nat) (met : List Nat) (s : State) : Steady s (tearCause p detail met s) := by
  unfold tearCause
  split
  · rw [faultZero_eq]
    exact ((zeroMet_steady met s).trans (zeroHeld_steady _)).trans (pageErr_steady ..)
  · exact teardown_steady ..

/-! ### What they reach -/

/-- All but the partitions' states and pages, and whom extents belong to. -/
def besidePart : List Piece := Piece.all.filter fun k => k != .parts && k != .regs .prt && k != .exts && k != .lends && k != .sec

/-- All but whom extents belong to. -/
def besideExts : List Piece := Piece.all.filter fun k => k != .exts && k != .lends && k != .sec

theorem tearCause_only (p detail : Nat) (met : List Nat) (s : State) : Reach besideExts s (tearCause p detail met s) := by
  apply tearCause_reach (h := .rfl') <;> decide

theorem zeroMet_only (met : List Nat) (s : State) : Reach besidePart s (zeroMet met s) := by
  refine Reach.foldl (fun t f h => ?_) .rfl'
  have hend : Reach besidePart s (endFlight f.fid 0x70 0 t) := (h.comp (endFlight_only f.fid 0x70 0 t)).mono (by decide)
  apply completeFlight_reach (h := hend) <;> decide

theorem zeroHeld_only (s : State) : Reach holdPieces s (zeroHeld s) :=
  .wh (fun _ => hold_reach (by decide) (by decide) (by decide) (by decide) (by decide) (by decide) (by decide) (by decide) (by decide))
    .rfl'

theorem queueClosed_only (p : Nat) (s : State) : Reach [.regs .dsp, .queues, .retrain, .accs] s (queueClosed p s) :=
  setQu_reach (by decide) (askEnd_reach (by decide) (by decide) (by decide)
    (st_reach (by simp) (st_reach (by simp) (st_reach (by simp) .rfl'))))

theorem flightTorn_only (detail : Nat) (met : List Nat) (s : State) (f : Flight) : Reach besidePart s (flightTorn detail met s f) := by
  apply tearByte_reach _ _ _ _ _ _ _ _ _ _ _ _ _ _ _ (abandon_reach _ _ _ _ _ _ _ _ .rfl') <;> decide

theorem flightsTorn_only (p detail : Nat) (met : List Nat) (s : State) : Reach besidePart s (flightsTorn p detail met s) := by
  refine Reach.foldl (fun t f h => (h.comp (flightTorn_only detail met t f)).mono (by decide)) ?_
  apply tearContexts_reach _ _ _ _ _ _ _ _ _ ((queueClosed_only p s).mono (by decide)) <;> decide

theorem emptied_only (p detail : Nat) (met : List Nat) (s : State) : Reach besidePart s (emptied p detail met s) := by
  have hcommands : Reach besidePart s (tearCommands p (flightsTorn p detail met s)) := by
    apply tearCommands_reach _ _ _ _ _ _ _ (flightsTorn_only p detail met s) <;> decide
  have hunits : Reach besidePart s (tearUnits p (tearCommands p (flightsTorn p detail met s))) := by
    apply tearUnits_reach _ _ _ _ _ _ _ hcommands <;> decide
  exact zeroiseKeys_reach (by decide) (.foldl (fun _ _ => protectWaiting_reach (by decide) (by decide))
    (tearLeases_reach (by decide) (by decide) hunits))

/-! ### The other partitions -/

section
variable {p q : Nat} (hp : p < 16) (hq : q < 16) (h : p ≠ q)
include hp hq h

/-- A teardown leaves every other partition's state and page as they were. -/
theorem teardown_untouched (detail : Nat) (met : List Nat) (s : State) : Untouched p s (teardown q detail met s) := by
  have hp' : p < 256 := by omega
  have hq' : q < 256 := by omega
  have hst {f : Fld} (hf : f.ok = true) (v : Nat) (t : State) : Untouched p t (st (pgPrt q) f v t) := .st hp' hq' h hf v t
  have hmarked (t : State) : Untouched p t (markedTorn q detail t) := by
    have hended : Untouched p t (commandTorn q detail t) := .wh (fun u => (hst (f := Fld.PRT_CMD_STAT_BUSY) (by decide) 0 u).trans
      (hst (f := Fld.PRT_CMD_STAT_CODE) (by decide) 0x71 _)) t
    refine hended.trans ⟨?_, fun _ _ => rfl⟩
    rw [markedTorn, partState_setPart, if_neg h]
  have hreported (t : State) : Untouched p t (tornReported q detail t) :=
    ((Untouched.pageErr hp' hq' h ..).trans (hst (f := Fld.PRT_TEARDOWNS) (by decide) _ _)).trans
      (.of_reach (notify_only ..) (by decide) (by decide))
  rw [teardown_eq]
  split
  · exact .refl p s
  · exact ((Untouched.of_reach (emptied_only ..) (by decide) (by decide)).trans (hmarked _)).trans (hreported _)

theorem tearCause_untouched (detail : Nat) (met : List Nat) (s : State) : Untouched p s (tearCause q detail met s) := by
  unfold tearCause
  split
  next e =>
    rw [faultZero_eq]
    have hmet : Untouched p s (zeroMet met s) := .of_reach (zeroMet_only met s) (by decide) (by decide)
    have hheld : Untouched p (zeroMet met s) (zeroHeld (zeroMet met s)) := .of_reach (zeroHeld_only _) (by decide) (by decide)
    exact (hmet.trans hheld).trans (.pageErr (by omega) (by omega) (e ▸ h) ..)
  next => exact teardown_untouched hp hq h ..

end

/-! ### The partition that is torn down -/

/-- A partition that a fault can tear down. -/
def Lives (p : Nat) (s : State) : Prop := p ≠ 0 ∧ p < 16 ∧ partState s p ≠ .none ∧ partState s p ≠ .torn

/-- Partition `p` is torn down for a reason: nothing of it runs, its keys are zero, and its page says why (R361). -/
structure TornDown (p why : Nat) (s u : State) : Prop where
  state : partState u p = .torn
  flights : ∀ f, f ∈ u.flights → f.q ≠ p
  run : rg u (pgDsp p) Fld.DSP_Q_CTRL_RUN = 0
  curKeys : (secOf u p).curSet = keySetZero
  oldKeys : (secOf u p).oldSet = keySetZero
  err : rg u (pgPrt p) Fld.PAGE_ERR_ERR = 1
  first : rg s (pgPrt p) Fld.PAGE_ERR_ERR = 0 →
    rg u (pgPrt p) Fld.PAGE_ERR_INFO_CODE = 0x71 ∧ rg u (pgPrt p) Fld.PAGE_ERR_INFO_DETAIL = why

section
variable {p why : Nat} {s s' u v : State}

theorem TornDown.steady (h : TornDown p why s u) (hv : Steady u v) : TornDown p why s v where
  state := hv.torn p h.state
  flights f hf := by
    obtain ⟨g, hg, hgf⟩ := hv.owners f hf
    exact hgf ▸ h.flights g hg
  run := hv.stopped p h.run
  curKeys := hv.curKeys p h.curKeys
  oldKeys := hv.oldKeys p h.oldKeys
  err := (hv.codes (pgPrt p) (show Block.prt ∈ watchedBlocks by decide) h.err).1
  first h0 := by
    obtain ⟨-, hcode, hdetail⟩ := hv.codes (pgPrt p) (show Block.prt ∈ watchedBlocks by decide) h.err
    obtain ⟨ucode, udetail⟩ := h.first h0
    exact ⟨hcode.trans ucode, hdetail.trans udetail⟩

theorem TornDown.from (h : TornDown p why s' u) (hs : Untouched p s s') : TornDown p why s u where
  state := h.state
  flights := h.flights
  run := h.run
  curKeys := h.curKeys
  oldKeys := h.oldKeys
  err := h.err
  first h0 := h.first ((hs.page _ (by decide)).trans h0)

theorem queueClosed_run (p : Nat) (s : State) : rg (queueClosed p s) (pgDsp p) Fld.DSP_Q_CTRL_RUN = 0 := by
  have hask : ∀ t : State, rg (setQu p (queueDefault p) (askEnd p t)) (pgDsp p) Fld.DSP_Q_CTRL_RUN = rg t (pgDsp p) Fld.DSP_Q_CTRL_RUN :=
    fun t => rg_of_reach (L := [.queues, .retrain, .accs]) (setQu_reach (by decide) (askEnd_reach (by decide) (by decide) (by decide) .rfl'))
      (by simp) _
  unfold queueClosed
  dsimp only
  rw [hask, rg_st_apart _ _ _ _ _ (by decide) (by decide) (by decide), rg_st_apart _ _ _ _ _ (by decide) (by decide) (by decide)]
  exact rg_st_same _ _ _ _ (by decide)

/-- The pieces reached once the descriptors of a partition have ended, until nothing of it is left in a unit. -/
def emptyingPieces : List Piece :=
  [.regs .kvs, .regs .scn, .regs .col, .regs .sec, .flights, .descriptors, .planners, .kvs, .lab, .scn, .col, .accs, .secJobs, .lostFids,
    .leases, .ports, .secs]

theorem emptied_run {detail : Nat} {met : List Nat} : rg (emptied p detail met s) (pgDsp p) Fld.DSP_Q_CTRL_RUN = 0 := by
  have hflights : Steady (queueClosed p s) (flightsTorn p detail met s) :=
    (tearContexts_steady ..).trans (.foldl (flightTorn_steady detail met) _ _)
  have hcommands : Reach emptyingPieces (flightsTorn p detail met s) (tearCommands p (flightsTorn p detail met s)) := by
    apply tearCommands_reach (h := .rfl') <;> decide
  have hunits : Reach emptyingPieces (flightsTorn p detail met s) (tearUnits p (tearCommands p (flightsTorn p detail met s))) := by
    apply tearUnits_reach (h := hcommands) <;> decide
  have hrest : Reach emptyingPieces (flightsTorn p detail met s) (emptied p detail met s) :=
    zeroiseKeys_reach (by decide) (.foldl (fun _ _ => protectWaiting_reach (by decide) (by decide))
      (tearLeases_reach (by decide) (by decide) hunits))
  rw [rg_of_reach (pg := pgDsp p) hrest (show Piece.regs .dsp ∉ _ by decide)]
  exact hflights.stopped p (queueClosed_run p s)

theorem emptied_flights {detail : Nat} {met : List Nat} : ∀ f, f ∈ (emptied p detail met s).flights → f.q ≠ p := by
  intro f hf
  have hrest : Reach [.leases, .ports, .secs] (tearUnits p (tearCommands p (flightsTorn p detail met s))) (emptied p detail met s) :=
    zeroiseKeys_reach (by decide) (.foldl (fun _ _ => protectWaiting_reach (by decide) (by decide))
      (tearLeases_reach (by decide) (by decide) .rfl'))
  rw [flights_of_reach hrest (by decide)] at hf
  simpa using (List.mem_filter.mp hf).2

theorem emptied_keys {detail : Nat} {met : List Nat} :
    (secOf (emptied p detail met s) p).curSet = keySetZero ∧ (secOf (emptied p detail met s) p).oldSet = keySetZero := by
  unfold emptied
  dsimp only
  generalize (List.range 16).foldl _ _ = t
  obtain ⟨-, hcur, hold, -, -⟩ := zeroiseKeys_zeroised p t
  exact ⟨hcur, hold⟩

theorem emptied_page {detail : Nat} {met : List Nat} (x : Fld) : rg (emptied p detail met s) (pgPrt p) x = rg s (pgPrt p) x :=
  rg_of_reach (pg := pgPrt p) (emptied_only p detail met s) (show Piece.regs .prt ∉ _ by decide) x

theorem markedTorn_page {x : Fld} (hx : x.ok = true) (hcode : Fld.PRT_CMD_STAT_CODE.apart x = true)
    (hbusy : Fld.PRT_CMD_STAT_BUSY.apart x = true) (detail : Nat) : rg (markedTorn p detail s) (pgPrt p) x = rg s (pgPrt p) x := by
  change rg (commandTorn p detail s) (pgPrt p) x = _
  unfold commandTorn wh
  split
  · rw [rg_st_apart _ _ _ _ _ (by decide) hx hcode, rg_st_apart _ _ _ _ _ (by decide) hx hbusy]
  · rfl

theorem markedTorn_state (p detail : Nat) (s : State) : partState (markedTorn p detail s) p = .torn := by
  rw [markedTorn, partState_setPart, if_pos rfl]

theorem tornReported_page {x : Fld} (hx : x.ok = true) (hap : Fld.PRT_TEARDOWNS.apart x = true) (detail : Nat) :
    rg (tornReported p detail s) (pgPrt p) x = rg (setErr (pgPrt p) 0x71 detail s) (pgPrt p) x := by
  unfold tornReported
  dsimp only
  rw [rg_of_reach (pg := pgPrt p) (notify_only ..) (show Piece.regs .prt ∉ _ by decide), inc, rg_st_apart _ _ _ _ _ (by decide) hx hap]
  exact rg_pageErr (pg := pgPrt p) (show Block.prt ≠ .ras ∧ Block.prt ≠ .evr by decide) ..

/-- A teardown of a partition that lives (R361). -/
theorem teardown_torn (h : Lives p s) (hwhy : why < 2 ^ 16) (met : List Nat) : TornDown p why s (teardown p why met s) := by
  obtain ⟨h0, hp, hnone, htorn⟩ := h
  have herr := emptied_page (p := p) (s := s) (detail := why) (met := met) Fld.PAGE_ERR_ERR
  obtain ⟨hcur, hold⟩ := emptied_keys (p := p) (s := s) (detail := why) (met := met)
  have hflights := emptied_flights (p := p) (s := s) (detail := why) (met := met)
  have hrun := emptied_run (p := p) (s := s) (detail := why) (met := met)
  rw [teardown_eq, if_neg (by simp [h0, hnone, htorn])]
  generalize emptied p why met s = t at herr hcur hold hflights hrun
  have hmarked := markedTorn_steady p why t
  have herr' : rg (markedTorn p why t) (pgPrt p) Fld.PAGE_ERR_ERR = rg s (pgPrt p) Fld.PAGE_ERR_ERR :=
    (markedTorn_page (by decide) (by decide) (by decide) why).trans herr
  have hstate := markedTorn_state p why t
  generalize markedTorn p why t = v at hmarked herr' hstate
  have hreported := tornReported_steady p why v
  refine ⟨hreported.torn p hstate, fun f hf => ?_, hreported.stopped p (hmarked.stopped p hrun),
    hreported.curKeys p (hmarked.curKeys p hcur), hreported.oldKeys p (hmarked.oldKeys p hold), ?_, fun hs => ?_⟩
  · obtain ⟨g, hg, hgf⟩ := (hmarked.trans hreported).owners f hf
    exact hgf ▸ hflights g hg
  · rw [tornReported_page (by decide) (by decide)]
    exact rg_setErr_err ..
  · rw [tornReported_page (by decide) (by decide), tornReported_page (by decide) (by decide)]
    obtain ⟨hcode, hdetail⟩ := rg_setErr_first (herr'.trans hs) 0x71 why
    exact ⟨hcode, hdetail.trans (Nat.mod_eq_of_lt hwhy)⟩

/-! ### The partition that a fault concerns (Table 15.5, R362) -/

/-- A partition has been torn down, or partition 0 reports the fault and its queue is held. -/
def HitBy (p why : Nat) (s u : State) : Prop :=
  (Lives p s → TornDown p why s u) ∧ (p = 0 → rg u (pgPrt 0) Fld.PAGE_ERR_ERR = 1 ∧ (qu u 0).held = true)

theorem HitBy.steady (h : HitBy p why s u) (hv : Steady u v) : HitBy p why s v := by
  refine ⟨fun hl => (h.1 hl).steady hv, fun h0 => ?_⟩
  obtain ⟨herr, hheld⟩ := h.2 h0
  exact ⟨(hv.codes (pgPrt 0) (by decide) herr).1, hv.queue0 hheld⟩

theorem HitBy.from (h : HitBy p why s' u) (hs : Untouched p s s') : HitBy p why s u := by
  refine ⟨fun ⟨h0, hp, hnone, htorn⟩ => (h.1 ⟨h0, hp, ?_, ?_⟩).from hs, h.2⟩
  · rwa [hs.state]
  · rwa [hs.state]

theorem faultZero_hit (detail : Nat) (met : List Nat) (s : State) :
    rg (faultZero detail met s) (pgPrt 0) Fld.PAGE_ERR_ERR = 1 ∧ (qu (faultZero detail met s) 0).held = true := by
  rw [faultZero_eq]
  constructor
  · rw [rg_pageErr (by decide)]
    exact rg_setErr_err ..
  · refine (pageErr_steady ..).queue0 ?_
    unfold zeroHeld wh
    split
    · rw [hold_qu]
    next h => simpa using h

theorem tearCause_hit (hwhy : why < 2 ^ 16) (p : Nat) (met : List Nat) (s : State) : HitBy p why s (tearCause p why met s) := by
  unfold tearCause
  split
  next h => exact ⟨fun hl => absurd h hl.1, fun _ => faultZero_hit ..⟩
  next h => exact ⟨fun hl => teardown_torn hl hwhy met, fun e => absurd e h⟩

/-- Some partitions are torn down. -/
def tearAll (l : List Nat) (why : Nat) (met : List Nat) (s : State) : State := l.foldl (fun s p => tearCause p why met s) s

theorem tearAll_steady (l : List Nat) (why : Nat) (met : List Nat) (s : State) : Steady s (tearAll l why met s) :=
  .foldl (fun _ _ => tearCause_steady ..) l s

theorem tearAll_only (l : List Nat) (why : Nat) (met : List Nat) (s : State) : Reach besideExts s (tearAll l why met s) :=
  Reach.foldl (fun t p h => (h.comp (tearCause_only p why met t)).mono (by decide)) .rfl'

/-- Where several partitions are torn down, each of them is. -/
theorem tearAll_hit {l : List Nat} (hl : ∀ q, q ∈ l → q < 16) (hp : p ∈ l) (hwhy : why < 2 ^ 16) (met : List Nat) (s : State) :
    HitBy p why s (tearAll l why met s) := by
  have hp16 := hl p hp
  obtain ⟨as, bs, rfl⟩ := List.append_of_mem hp
  have hbefore : Untouched p s (tearAll as why met s) ∨ HitBy p why s (tearAll as why met s) := by
    refine List.foldlRecOn (motive := fun t => Untouched p s t ∨ HitBy p why s t) as _ (.inl (.refl p s)) fun t ht q hq => ?_
    rcases ht with ht | ht
    · by_cases e : p = q
      · exact .inr (e ▸ (tearCause_hit hwhy p met t).from ht)
      · exact .inl (ht.trans (tearCause_untouched hp16 (hl q (List.mem_append_left _ hq)) e why met t))
    · exact .inr (ht.steady (tearCause_steady ..))
  have hhere : HitBy p why s (tearCause p why met (tearAll as why met s)) := by
    rcases hbefore with ht | ht
    · exact (tearCause_hit hwhy p met _).from ht
    · exact ht.steady (tearCause_steady ..)
  rw [tearAll, List.foldl_append, List.foldl_cons]
  exact hhere.steady (tearAll_steady bs why met _)

end

end Sys2Proof.Machine
end

section
/-!
PROOFS. Failure of the module (R416), the events and counters of memory retraining, of scrubs and of links that recover (R241, R242, R413,
R415).
-/
namespace Sys2Proof.Machine

/-! ### Events, and the fields beside their counters -/

/-- The counters of the RAS page that events and failures step. -/
def rasCounters : List Fld := [Fld.RAS_CORR, Fld.RAS_RECOV, Fld.RAS_UNCORR, Fld.RAS_FATAL]

/-- A field with no bit in common with them. -/
def Fld.uncounted (f : Fld) : Bool := f.ok && rasCounters.all fun g => g.ok && g.apart f

theorem rg_inc_uncounted {f x : Fld} (hf : f ∈ rasCounters) (hx : x.uncounted = true) (g : Page) (n : Nat) (s : State) :
    rg (inc pgRas f n s) g x = rg s g x := by
  simp only [Fld.uncounted, Bool.and_eq_true, List.all_eq_true] at hx
  obtain ⟨hok, hap⟩ := hx
  exact rg_inc_elsewhere s pgRas g n (hap f hf).1 hok (hap f hf).2

theorem recorded_only (k : EvKey) (a : EvAcc) (s : State) : Reach [.regs .evr, .evr, .freeCtr] s (tickFree (coalesce k a s)) :=
  tickFree_reach (by decide) (coalesce_reach (by decide) (by decide) .rfl')

theorem rg_rasCount {g : Page} {x : Fld} (hx : x.uncounted = true) (cls : Nat) (s : State) : rg (rasCount cls s) g x = rg s g x := by
  unfold rasCount
  split
  · exact rg_inc_uncounted (by decide) hx ..
  · split
    · exact rg_inc_uncounted (by decide) hx ..
    · split
      · exact rg_inc_uncounted (by decide) hx ..
      · rfl

theorem rg_raised {g : Page} {x : Fld} (hg : g.blk ≠ .evr) (hx : x.uncounted = true) (cls : Nat) (k : EvKey) (a : EvAcc) (s : State) :
    rg (rasCount cls (tickFree (coalesce k a s))) g x = rg s g x := by
  rw [rg_rasCount hx]
  exact rg_of_reach (recorded_only k a s) (by simp [hg]) x

theorem rg_raise {g : Page} {x : Fld} (hg : g.blk ≠ .evr) (hx : x.uncounted = true) (src : Page) (cls code detail : Nat)
    (part : Option Nat) (sev : Nat) (s : State) : rg (raise src cls code detail part sev s) g x = rg s g x := rg_raised hg hx ..

section
variable {k : EvKey} {sev : Nat} {s t u : State} {L : List Piece}

/-- What is counted of an event stays counted where the recorder is not reached. -/
theorem Counted.reach (h : Counted k sev s t) (hr : Reach L t u) (hevr : Piece.evr ∉ L) (hregs : Piece.regs .evr ∉ L) :
    Counted k sev s u := by
  have hkeys : keyCount u k = keyCount t k := by rw [keyCount_eq, keyCount_eq, show u.evr = t.evr from hr.frame .evr hevr]
  rw [Counted, hkeys, rg_of_reach (pg := pgEvr) hr hregs]
  exact h

theorem Counted.from (h : Counted k sev t u) (hr : Reach L s t) (hevr : Piece.evr ∉ L) (hregs : Piece.regs .evr ∉ L) :
    Counted k sev s u := by
  have hkeys : keyCount t k = keyCount s k := by rw [keyCount_eq, keyCount_eq, show t.evr = s.evr from hr.frame .evr hevr]
  rw [Counted, ← hkeys, ← rg_of_reach (pg := pgEvr) hr hregs]
  exact h

theorem raised_counted (hsev : sev < 4) (v : Option (Nat × Nat)) (stamp cls : Nat) (s : State) :
    Counted k sev s (rasCount cls (tickFree (coalesce k (accOne sev v stamp) s))) := by
  have hone := coalesce_counted (k := k) (a := accOne sev v stamp) (by rwa [accOne_sev]) (accOne_count sev v stamp) s
  rw [accOne_sev] at hone
  exact hone.reach (L := [.freeCtr, .regs .ras]) (rasCount_reach (by decide) (tickFree_reach (by decide) .rfl')) (by decide) (by decide)

theorem raise_counted (hsev : sev < 4) (src : Page) (cls code detail : Nat) (part : Option Nat) (s : State) :
    Counted ⟨src, cls, code, detail, part⟩ sev s (raise src cls code detail part sev s) :=
  raised_counted hsev ..

theorem raiseDur_counted (hsev : sev < 4) (src : Page) (cls detail : Nat) (s : State) :
    Counted ⟨src, cls, 0, detail, none⟩ sev s (raiseDur src cls detail sev s) :=
  raised_counted hsev ..

theorem raise_counts {f : Fld} {cls : Nat} (hcls : ∀ t, rasCount cls t = inc pgRas f 1 t) (hf : f.ok = true) (src : Page)
    (code detail : Nat) (part : Option Nat) (s : State) : CountsUp pgRas f 1 s (raise src cls code detail part sev s) := by
  unfold raise
  dsimp only
  rw [hcls]
  exact (countsUp_inc hf 1 _).congr (rg_of_reach (pg := pgRas) (recorded_only ..) (by decide) f) rfl

end

theorem raise_only (src : Page) (cls code detail : Nat) (part : Option Nat) (sev : Nat) (s : State) :
    Reach [.regs .ras, .regs .evr, .evr, .freeCtr] s (raise src cls code detail part sev s) :=
  raise_reach (by decide) (by decide) (by decide) (by decide) .rfl'

theorem raiseDur_only (src : Page) (cls detail sev : Nat) (s : State) :
    Reach [.regs .ras, .regs .evr, .evr, .freeCtr] s (raiseDur src cls detail sev s) :=
  raiseDur_reach (by decide) (by decide) (by decide) (by decide) .rfl'

/-! ### Failure of the module (R416) -/

/-- What the RAS page says of the first failure. -/
def failFields : List Fld := [Fld.RAS_DEV_STAT_FAILED, Fld.RAS_DEV_STAT_CAUSE, Fld.RAS_FAIL_SRC, Fld.RAS_FAIL_INFO]

/-- The module has failed for a cause that page `g` reports: the first cause describes the failure. -/
def ModuleFailed (cause : Nat) (g : Page) (code : Nat) (s u : State) : Prop := rg u g Fld.PAGE_ERR_ERR = 1 ∧
  (rg s pgRas Fld.RAS_DEV_STAT_CAUSE = 0 → rg u pgRas Fld.RAS_DEV_STAT_FAILED = 1 ∧ rg u pgRas Fld.RAS_DEV_STAT_CAUSE = cause ∧
    rg u pgRas Fld.RAS_FAIL_SRC = srcKey g ∧ rg u pgRas Fld.RAS_FAIL_INFO = 0x70 + code * 256) ∧
  (rg s pgRas Fld.RAS_DEV_STAT_CAUSE ≠ 0 → ∀ f, f ∈ failFields → rg u pgRas f = rg s pgRas f) ∧
  (rg s g Fld.PAGE_ERR_ERR = 0 → rg u g Fld.PAGE_ERR_INFO_CODE = 0x70 ∧ rg u g Fld.PAGE_ERR_INFO_DETAIL = code)

/-- The first cause describes the failure. -/
def describe (cause : Nat) (pg : Page) (code detail : Nat) (s : State) : State :=
  wh (rg s pgRas Fld.RAS_DEV_STAT_CAUSE == 0) (fun s => st pgRas Fld.RAS_DEV_STAT_FAILED 1 (st pgRas Fld.RAS_DEV_STAT_CAUSE cause
    (st pgRas Fld.RAS_FAIL_SRC (srcKey pg) (st pgRas Fld.RAS_FAIL_INFO (code + detail * 256) s)))) s

theorem moduleFail_eq (cause : Nat) (pg : Page) (code detail : Nat) (part : Option Nat) (s : State) : moduleFail cause pg code detail part s =
    raise pg 0x03 code detail part 3 (setErr pg code detail (describe cause pg code detail (inc pgRas Fld.RAS_FATAL 1 s))) := rfl

theorem describe_only (cause : Nat) (pg : Page) (code detail : Nat) (s : State) :
    Reach [.regs .ras] s (describe cause pg code detail (inc pgRas Fld.RAS_FATAL 1 s)) := by
  unfold describe
  exact .wh (fun _ h => st_reach (by simp) (st_reach (by simp) (st_reach (by simp) (st_reach (by simp) h)))) (inc_reach (by simp) .rfl')

theorem srcKey_lt {g : Page} (h : g.inst < 256) : srcKey g < 2 ^ 16 := by
  have hblk : blockCode g.blk < 256 := by cases g.blk <;> decide
  unfold srcKey
  omega

section
variable {cause detail : Nat} {g : Page} {s u v : State}

theorem rg_describe {pg : Page} {x : Fld} (hx : x.ok = true) (hap : ∀ f, f ∈ failFields → f.ok = true ∧ f.apart x = true) (code : Nat) :
    rg (describe cause pg code detail s) g x = rg s g x := by
  have hst (f : Fld) (hf : f ∈ failFields) (n : Nat) (t : State) : rg (st pgRas f n t) g x = rg t g x :=
    rg_st_elsewhere t pgRas g n (hap f hf).1 hx (hap f hf).2
  unfold describe wh
  split
  · rw [hst _ (by decide), hst _ (by decide), hst _ (by decide), hst _ (by decide)]
  · rfl

theorem describe_first (h0 : rg s pgRas Fld.RAS_DEV_STAT_CAUSE = 0) (hcause : cause < 256) (code : Nat) :
    rg (describe cause g code detail s) pgRas Fld.RAS_DEV_STAT_FAILED = 1 ∧
      rg (describe cause g code detail s) pgRas Fld.RAS_DEV_STAT_CAUSE = cause ∧
      rg (describe cause g code detail s) pgRas Fld.RAS_FAIL_SRC = srcKey g % 2 ^ 16 ∧
      rg (describe cause g code detail s) pgRas Fld.RAS_FAIL_INFO = (code + detail * 256) % 2 ^ 24 := by
  have hap {f x : Fld} (hf : f.ok = true) (hx : x.ok = true) (h : f.apart x = true) (n : Nat) (t : State) :
      rg (st pgRas f n t) pgRas x = rg t pgRas x := rg_st_apart t pgRas f x n hf hx h
  rw [describe, wh, if_pos (by simpa using h0)]
  refine ⟨rg_st_same _ _ _ _ (by decide), ?_, ?_, ?_⟩
  · rw [hap (by decide) (by decide) (by decide), rg_st_same _ _ _ _ (by decide)]
    exact Nat.mod_eq_of_lt hcause
  · rw [hap (by decide) (by decide) (by decide), hap (by decide) (by decide) (by decide)]
    exact rg_st_same _ _ _ _ (by decide)
  · rw [hap (by decide) (by decide) (by decide), hap (by decide) (by decide) (by decide), hap (by decide) (by decide) (by decide)]
    exact rg_st_same _ _ _ _ (by decide)

theorem describe_later (h0 : rg s pgRas Fld.RAS_DEV_STAT_CAUSE ≠ 0) (code : Nat) : describe cause g code detail s = s := by
  rw [describe, wh, if_neg (by simpa using h0)]

/-- After a failure the fields that describe it are as `describe` leaves them. -/
theorem moduleFail_describes {x : Fld} (hx : x ∈ failFields) (part : Option Nat) (code : Nat) :
    rg (moduleFail cause g code detail part s) pgRas x =
      rg (describe cause g code detail (inc pgRas Fld.RAS_FATAL 1 s)) pgRas x := by
  have hfields : ∀ x ∈ failFields, x.uncounted = true ∧ x.notErr = true := by decide
  rw [moduleFail_eq, rg_raise (by decide) (hfields x hx).1, rg_setErr_notErr (hfields x hx).2]

/-- A field of the page that reports a failure is as the code leaves it. -/
theorem moduleFail_reports {x : Fld} (hx : x ∈ firstFields) (hg : g.blk ≠ .evr) (part : Option Nat) (code : Nat) :
    rg (moduleFail cause g code detail part s) g x =
      rg (setErr g code detail (describe cause g code detail (inc pgRas Fld.RAS_FATAL 1 s))) g x := by
  have hfields : ∀ x ∈ firstFields, x.uncounted = true := by decide
  rw [moduleFail_eq, rg_raise hg (hfields x hx)]

theorem moduleFail_err (hg : g.blk ≠ .evr) (part : Option Nat) (code : Nat) :
    rg (moduleFail cause g code detail part s) g Fld.PAGE_ERR_ERR = 1 := by
  rw [moduleFail_reports (by decide) hg]
  exact rg_setErr_err ..

theorem moduleFail_first (h0 : rg s pgRas Fld.RAS_DEV_STAT_CAUSE = 0) (hcause : cause < 256) (part : Option Nat) (code : Nat) :
    rg (moduleFail cause g code detail part s) pgRas Fld.RAS_DEV_STAT_FAILED = 1 ∧
      rg (moduleFail cause g code detail part s) pgRas Fld.RAS_DEV_STAT_CAUSE = cause ∧
      rg (moduleFail cause g code detail part s) pgRas Fld.RAS_FAIL_SRC = srcKey g % 2 ^ 16 ∧
      rg (moduleFail cause g code detail part s) pgRas Fld.RAS_FAIL_INFO = (code + detail * 256) % 2 ^ 24 := by
  have hfatal : rg (inc pgRas Fld.RAS_FATAL 1 s) pgRas Fld.RAS_DEV_STAT_CAUSE = 0 :=
    (rg_inc_uncounted (by decide) (by decide) ..).trans h0
  rw [moduleFail_describes (by decide), moduleFail_describes (by decide), moduleFail_describes (by decide),
    moduleFail_describes (by decide)]
  exact describe_first hfatal hcause code

theorem moduleFail_later (h0 : rg s pgRas Fld.RAS_DEV_STAT_CAUSE ≠ 0) (part : Option Nat) (code : Nat) {f : Fld} (hf : f ∈ failFields) :
    rg (moduleFail cause g code detail part s) pgRas f = rg s pgRas f := by
  have hfields : ∀ x ∈ failFields, x.uncounted = true := by decide
  have hfatal (x : Fld) (hx : x ∈ failFields) : rg (inc pgRas Fld.RAS_FATAL 1 s) pgRas x = rg s pgRas x :=
    rg_inc_uncounted (by decide) (hfields x hx) ..
  rw [moduleFail_describes hf, describe_later (by rwa [hfatal _ (by decide)]), hfatal f hf]

/-- A failure of the module, as the page that met it and the RAS page show it. -/
theorem moduleFail_failed (hg : g.blk ≠ .evr) (hinst : g.inst < 256) (hcause : cause < 256) (part : Option Nat) :
    ModuleFailed cause g (detail % 65536) s (moduleFail cause g 0x70 detail part s) := by
  refine ⟨moduleFail_err hg .., fun h0 => ?_, fun h0 f hf => moduleFail_later h0 _ _ hf, fun h0 => ?_⟩
  · obtain ⟨hfailed, hwhich, hsrc, hinfo⟩ := moduleFail_first (g := g) (detail := detail) h0 hcause part 0x70
    exact ⟨hfailed, hwhich, hsrc.trans (Nat.mod_eq_of_lt (srcKey_lt hinst)), hinfo.trans (by omega)⟩
  · have hclear : rg (describe cause g 0x70 detail (inc pgRas Fld.RAS_FATAL 1 s)) g Fld.PAGE_ERR_ERR = 0 := by
      rw [rg_describe (by decide) (by decide), rg_inc_uncounted (by decide) (by decide), h0]
    rw [moduleFail_reports (by decide) hg, moduleFail_reports (by decide) hg]
    exact rg_setErr_first hclear 0x70 detail

/-- What describes the failure, and the code of its page, carry over. -/
theorem ModuleFailed.keeps {code : Nat} (h : ModuleFailed cause g code s u) (hras : ∀ f, f ∈ failFields → rg v pgRas f = rg u pgRas f)
    (hcode : CodeStays g u v) : ModuleFailed cause g code s v := by
  obtain ⟨herr, hfirst, hlater, hreport⟩ := h
  obtain ⟨hverr, hvcode, hvdetail⟩ := hcode herr
  refine ⟨hverr, fun h0 => ?_, fun h0 f hf => (hras f hf).trans (hlater h0 f hf), fun h0 => ?_⟩
  · rw [hras _ (by decide), hras _ (by decide), hras _ (by decide), hras _ (by decide)]
    exact hfirst h0
  · rw [hvcode, hvdetail]
    exact hreport h0

theorem ModuleFailed.steady {code : Nat} (h : ModuleFailed cause g code s u) (hg : g.blk ∈ watchedBlocks) (hv : Steady u v) :
    ModuleFailed cause g code s v := by
  have hmarks : ∀ f ∈ failFields, (Block.ras, f) ∈ markFields := by decide
  exact h.keeps (fun f hf => hv.marks pgRas f (hmarks f hf)) (hv.codes g hg)

theorem ModuleFailed.from {code : Nat} {s' : State} (h : ModuleFailed cause g code s' u)
    (hras : ∀ f, f ∈ failFields → rg s' pgRas f = rg s pgRas f) (herr : rg s' g Fld.PAGE_ERR_ERR = rg s g Fld.PAGE_ERR_ERR) :
    ModuleFailed cause g code s u := by
  obtain ⟨hset, hfirst, hlater, hreport⟩ := h
  refine ⟨hset, fun h0 => hfirst ?_, fun h0 f hf => (hlater ?_ f hf).trans (hras f hf), fun h0 => hreport (herr.trans h0)⟩
  · rw [hras _ (by decide), h0]
  · rwa [hras _ (by decide)]

theorem moduleFail_only (part : Option Nat) (code : Nat) :
    Reach [.regs .ras, .regs g.blk, .regs .evr, .evr, .freeCtr] s (moduleFail cause g code detail part s) :=
  moduleFail_reach (by simp) (by simp) (by simp) (by simp) (by simp) .rfl'

end

/-! ### Retraining (R241, R242) -/

/-- The retrains of a channel's unit, and those forced. -/
def retrainCnt (lpddr : Bool) : Fld := if lpddr then Fld.LPD_RETRAIN_CNT else Fld.MEM_RETRAIN_CNT

def forcedCnt (lpddr : Bool) : Fld := if lpddr then Fld.LPD_FORCED_CNT else Fld.MEM_FORCED_CNT

/-- The channel is there (Table 10.2). -/
def Channel (lpddr : Bool) (u ch : Nat) : Prop := if lpddr then u < 16 ∧ ch < 4 else u < 8 ∧ ch < 64

/-- The unit has failed. -/
def Gone (lpddr : Bool) (u : Nat) (s : State) : Prop :=
  tabGet extDefault s.exts (if lpddr then 1024 + 64 * u else 64 * u) = .failed

/-- A retrain can start now. -/
def Starts (lpddr : Bool) (u ch : Nat) (forced : Bool) (s : State) : Prop :=
  Channel lpddr u ch ∧ ¬Gone lpddr u s ∧ (⟨lpddr, u, ch⟩ : MemChan) ∉ s.retrain.held ∧ (forced = true ∨ deferOf s lpddr u ≠ 1)

section
variable {lpddr forced : Bool} {u ch cycles : Nat} {c : MemChan} {s t : State}

theorem chanExists_iff : chanExists lpddr u ch = true ↔ Channel lpddr u ch := by
  unfold chanExists Channel
  split <;> simp

theorem unitGone_iff : unitGone s lpddr u = true ↔ Gone lpddr u s := by
  rw [unitGone, Gone, beq_iff_eq]

/-- A channel is held. -/
def heldToo (c : MemChan) (s : State) : State := { s with retrain := { s.retrain with held := s.retrain.held ++ [c] } }

theorem retrainStart_idle (h : ¬Starts lpddr u ch forced s) : retrainStart lpddr u ch forced s = s := by
  have hcond : !chanExists lpddr u ch ∨ unitGone s lpddr u ∨ s.retrain.held.contains ⟨lpddr, u, ch⟩ ∨
      (!forced ∧ deferOf s lpddr u = 1) := by
    by_contra hno
    refine h ?_
    simp only [Bool.not_eq_true', not_or, Bool.not_eq_false, List.contains_iff_mem, not_and, unitGone_iff, chanExists_iff] at hno
    obtain ⟨hthere, hgone, hheld, hdefer⟩ := hno
    refine ⟨hthere, hgone, hheld, ?_⟩
    cases forced with
    | false => exact .inr (hdefer rfl)
    | true => exact .inl rfl
  exact if_pos hcond

theorem retrainStart_starts (h : Starts lpddr u ch forced s) : retrainStart lpddr u ch forced s =
    wh forced (fun s => raise (unitPage lpddr u) 0x05 0 2 none 1 (inc (unitPage lpddr u) (forcedCnt lpddr) 1 s))
      (inc (unitPage lpddr u) (retrainCnt lpddr) 1 (heldToo ⟨lpddr, u, ch⟩ s)) := by
  obtain ⟨hthere, hgone, hheld, hdefer⟩ := h
  refine if_neg ?_
  simp only [Bool.not_eq_true', not_or, Bool.not_eq_false, List.contains_iff_mem, not_and, unitGone_iff, chanExists_iff]
  refine ⟨hthere, hgone, hheld, fun hf => hdefer.resolve_left ?_⟩
  rw [hf]
  decide

theorem unitPage_blk (lpddr : Bool) (u : Nat) : (unitPage lpddr u).blk = if lpddr then .lpd else .mem := by
  unfold unitPage
  split <;> rfl

theorem unitPage_notEvr (lpddr : Bool) (u : Nat) : (unitPage lpddr u).blk ≠ .evr := by
  rw [unitPage_blk]
  split <;> decide

theorem retrainCnt_ok (lpddr : Bool) : (retrainCnt lpddr).ok = true ∧ (forcedCnt lpddr).ok = true ∧
    (forcedCnt lpddr).apart (retrainCnt lpddr) = true ∧ (retrainCnt lpddr).apart (forcedCnt lpddr) = true ∧
    (retrainCnt lpddr).uncounted = true ∧ (forcedCnt lpddr).uncounted = true := by
  cases lpddr <;> decide

/-- A retrain that starts. -/
theorem retrainStart_started (h : Starts lpddr u ch forced s) :
    (retrainStart lpddr u ch forced s).retrain = { s.retrain with held := s.retrain.held ++ [⟨lpddr, u, ch⟩] } ∧
      CountsUp (unitPage lpddr u) (retrainCnt lpddr) 1 s (retrainStart lpddr u ch forced s) ∧
      (forced = true → CountsUp (unitPage lpddr u) (forcedCnt lpddr) 1 s (retrainStart lpddr u ch forced s) ∧
        Counted ⟨unitPage lpddr u, 0x05, 0, 2, none⟩ 1 s (retrainStart lpddr u ch forced s)) := by
  obtain ⟨hok, hfok, hap, hap', hun, hfun⟩ := retrainCnt_ok lpddr
  have hblk := unitPage_notEvr lpddr u
  rw [retrainStart_starts h]
  cases forced with
  | false => exact ⟨inc_retrain .., (countsUp_inc hok 1 _).congr rfl rfl, nofun⟩
  | true =>
    simp only [wh, if_true]
    set v := inc (unitPage lpddr u) (retrainCnt lpddr) 1 (heldToo ⟨lpddr, u, ch⟩ s) with hv
    set w := inc (unitPage lpddr u) (forcedCnt lpddr) 1 v with hw
    have hcounted : Reach [.regs (unitPage lpddr u).blk, .retrain] s w :=
      inc_reach (by simp) (inc_reach (by simp) (Reach.retrain .rfl' (by simp)))
    refine ⟨?_, ?_, fun _ => ⟨?_, (raise_counted (by decide) ..).from hcounted (by simp) ?_⟩⟩
    · rw [show (raise (unitPage lpddr u) 0x05 0 2 none 1 w).retrain = w.retrain from (raise_only ..).frame .retrain (by decide), hw, inc_retrain,
        hv, inc_retrain]
      rfl
    · refine (countsUp_inc hok 1 (heldToo ⟨lpddr, u, ch⟩ s)).congr rfl ?_
      rw [rg_raise hblk hun]
      exact rg_st_apart _ _ _ _ _ hfok hok hap
    · refine (countsUp_inc hfok 1 v).congr ?_ (rg_raise hblk hfun ..)
      exact rg_st_apart _ _ _ _ _ hok hfok hap'
    · simpa using hblk.symm

/-- The retrains in a row that have failed on other channels. -/
def otherFails (c : MemChan) (s : State) : List (MemChan × Nat) := s.retrain.fails.filter fun x => x.1 != c

/-- A channel is free again, with no failure in a row. -/
def heldNoMore (c : MemChan) (s : State) : State :=
  { s with retrain := { held := s.retrain.held.filter fun x => x != c, fails := otherFails c s, waiting := s.retrain.waiting } }

/-- The longest hold that the page of a unit shows. -/
def holdNoted (c : MemChan) (cycles : Nat) (s : State) : State :=
  let pg := unitPage c.lpddr c.unit
  wh (!c.lpddr && decide (rg s pg Fld.MEM_HOLD_MAX < cycles)) (st pg Fld.MEM_HOLD_MAX (min cycles (2 ^ 24 - 1))) s

theorem retrainOk_eq (c : MemChan) (cycles : Nat) (s : State) :
    retrainOk c cycles s = raiseDur (unitPage c.lpddr c.unit) 0x04 c.ch 0 (holdNoted c cycles (heldNoMore c s)) := rfl

theorem holdNoted_only (c : MemChan) (cycles : Nat) (s : State) : Reach [.regs (unitPage c.lpddr c.unit).blk] s (holdNoted c cycles s) :=
  .wh (fun _ => st_reach (by simp)) .rfl'

theorem retrainOk_retrain (c : MemChan) (cycles : Nat) (s : State) : (retrainOk c cycles s).retrain =
    { held := s.retrain.held.filter fun x => x != c, fails := otherFails c s, waiting := s.retrain.waiting } := by
  have hraised : (retrainOk c cycles s).retrain = (holdNoted c cycles (heldNoMore c s)).retrain :=
    (raiseDur_only ..).frame .retrain (by decide)
  have hnoted : (holdNoted c cycles (heldNoMore c s)).retrain = (heldNoMore c s).retrain :=
    (holdNoted_only ..).frame .retrain (by simp)
  rw [hraised, hnoted]
  rfl

theorem retrainOk_counted (c : MemChan) (cycles : Nat) (s : State) :
    Counted ⟨unitPage c.lpddr c.unit, 0x04, 0, c.ch, none⟩ 0 s (retrainOk c cycles s) := by
  have hnoted : Reach [.retrain, .regs (unitPage c.lpddr c.unit).blk] s (holdNoted c cycles (heldNoMore c s)) :=
    ((Reach.retrain .rfl' (by simp) : Reach [.retrain] s (heldNoMore c s)).comp (holdNoted_only ..)).mono (by simp)
  rw [retrainOk_eq]
  refine (raiseDur_counted (by decide) ..).from hnoted (by simp) ?_
  simpa using (unitPage_notEvr c.lpddr c.unit).symm

theorem retrainOk_holdMax (hc : c.lpddr = false) (cycles : Nat) (s : State) :
    rg (retrainOk c cycles s) (unitPage c.lpddr c.unit) Fld.MEM_HOLD_MAX =
      if rg s (unitPage c.lpddr c.unit) Fld.MEM_HOLD_MAX < cycles then min cycles (2 ^ 24 - 1)
      else rg s (unitPage c.lpddr c.unit) Fld.MEM_HOLD_MAX := by
  rw [retrainOk_eq, raiseDur, raiseV, rg_raised (unitPage_notEvr c.lpddr c.unit) (by decide), holdNoted, hc]
  simp only [Bool.not_false, Bool.true_and]
  unfold wh
  simp only [decide_eq_true_eq]
  show (rg (if rg s (unitPage false c.unit) Fld.MEM_HOLD_MAX < cycles then _ else _) _ _) = _
  split
  · rw [rg_st_same _ _ _ _ (by decide)]
    exact Nat.mod_eq_of_lt (by show min cycles (2 ^ 24 - 1) < 2 ^ 24; omega)
  · rfl

/-- A retrain that fails and is followed by the next (R245). -/
theorem retrainFailed (c : MemChan) (n : Nat) (s : State) :
    (inc (unitPage c.lpddr c.unit) (retrainCnt c.lpddr) 1 (setFails c (n + 1) s)).retrain =
        { s.retrain with fails := otherFails c s ++ [(c, n + 1)] } ∧
      CountsUp (unitPage c.lpddr c.unit) (retrainCnt c.lpddr) 1 s
        (inc (unitPage c.lpddr c.unit) (retrainCnt c.lpddr) 1 (setFails c (n + 1) s)) :=
  ⟨inc_retrain .., (countsUp_inc (retrainCnt_ok c.lpddr).1 1 _).congr rfl rfl⟩

end

/-! ### Errors that are corrected or recovered (R413, R415) -/

theorem corrected_only (pg : Page) (s : State) : Reach [.regs .ras, .regs .evr, .evr, .freeCtr] s (corrected pg s) := raise_only ..

theorem recovered_only (pg : Page) (s : State) : Reach [.regs .ras, .regs .evr, .evr, .freeCtr] s (recovered pg s) := raise_only ..

theorem recovered_counts (pg : Page) (s : State) : CountsUp pgRas Fld.RAS_RECOV 1 s (recovered pg s) :=
  raise_counts (fun _ => rfl) (by decide) ..

theorem correctedAll_counts (n : Nat) (s : State) :
    CountsUp pgRas Fld.RAS_CORR n s ((List.range n).foldl (fun s _ => corrected pgYrd s) s) := by
  induction n with
  | zero => exact (Nat.mod_eq_of_lt (rg_lt ..)).symm
  | succ n ih =>
    have hone : CountsUp pgRas Fld.RAS_CORR 1 _ (corrected pgYrd ((List.range n).foldl (fun s _ => corrected pgYrd s) s)) :=
      raise_counts (fun _ => rfl) (by decide) ..
    rw [CountsUp] at hone ih ⊢
    rw [List.range_succ, List.foldl_append, List.foldl_cons, List.foldl_nil, hone, ih, Nat.mod_add_mod, Nat.add_assoc]

theorem scrubPass_only (n : Nat) (s : State) : Reach [.regs .ras, .regs .evr, .evr, .freeCtr] s (scrubPass n s) :=
  Reach.foldl (fun t _ h => (h.comp (corrected_only pgYrd t)).mono (by decide)) (inc_reach (by decide) .rfl')

theorem scrubPass_scrubs (n : Nat) (s : State) : CountsUp pgRas Fld.RAS_SCRUBS 1 s (scrubPass n s) := by
  refine (countsUp_inc (by decide) 1 s).congr rfl ?_
  exact List.foldlRecOn (motive := fun t => rg t pgRas Fld.RAS_SCRUBS = rg (inc pgRas Fld.RAS_SCRUBS 1 s) pgRas Fld.RAS_SCRUBS) _ _ rfl
    fun t ht _ _ => (rg_raise (by decide) (by decide) ..).trans ht

theorem scrubPass_corrects (n : Nat) (s : State) : CountsUp pgRas Fld.RAS_CORR n s (scrubPass n s) :=
  (correctedAll_counts n (inc pgRas Fld.RAS_SCRUBS 1 s)).congr
    (rg_inc_elsewhere s pgRas pgRas 1 (by decide) (by decide) (by decide)) rfl

end Sys2Proof.Machine
end

section
/-!
PROOFS. A failed stack or package (R243, R268): its extents, its held requests, its lends and the owners of its extents.
-/
namespace Sys2Proof.Machine

/-! ### Marks and codes alone -/

/-- The codes that pages have recorded and the marks of failures are as they were. -/
structure MarksStay (s t : State) : Prop where
  codes : ∀ g : Page, g.blk ∈ watchedBlocks → CodeStays g s t
  marks : ∀ (g : Page) (x : Fld), (g.blk, x) ∈ markFields → rg t g x = rg s g x

theorem Steady.marksStay {s t : State} (h : Steady s t) : MarksStay s t := ⟨h.codes, h.marks⟩

theorem MarksStay.trans {s t u : State} (h : MarksStay s t) (h' : MarksStay t u) : MarksStay s u :=
  ⟨fun g hg => (h.codes g hg).trans (h'.codes g hg), fun g x hx => (h'.marks g x hx).trans (h.marks g x hx)⟩

theorem marksStay_of_regs {s t : State} (h : t.regs = s.regs) : MarksStay s t :=
  ⟨fun g _ => codeStays_of_fields fun x _ => rg_of_regs h g x, fun g x _ => rg_of_regs h g x⟩

theorem ModuleFailed.marksStay {cause code : Nat} {g : Page} {s u v : State} (h : ModuleFailed cause g code s u)
    (hg : g.blk ∈ watchedBlocks) (hv : MarksStay u v) : ModuleFailed cause g code s v := by
  have hmarks : ∀ f ∈ failFields, (Block.ras, f) ∈ markFields := by decide
  exact h.keeps (fun f hf => hv.marks pgRas f (hmarks f hf)) (hv.codes g hg)

/-! ### The steps of a unit's failure (R243) -/

/-- The extents of a unit fail, and an operation on extents ends where none is left to fill. -/
def unitTaken (lpddr : Bool) (u : Nat) (s : State) : State := extSettle ((unitExtents lpddr u).foldl (fun s e => failExtent e s) s)

/-- Nothing is held at a unit any more. -/
def chansDropped (lpddr : Bool) (u : Nat) (s : State) : State :=
  { s with retrain := {
    held := s.retrain.held.filter fun c => !(c.lpddr == lpddr && c.unit == u)
    fails := s.retrain.fails.filter fun x => !(x.1.lpddr == lpddr && x.1.unit == u)
    waiting := s.retrain.waiting.filter fun w => !(w.1.lpddr == lpddr && w.1.unit == u) } }

/-- A lend has an extent among these. -/
def lendMeets (es : List Nat) (l : Lend) : Bool := l.exts.any fun e => es.contains e

/-- The lends of some extents end. -/
def lendsEnded (es : List Nat) (s : State) : State := (s.lends.filter (lendMeets es)).foldl (fun s l => lendLost l.id s) s

/-- The partitions that hold an extent of a unit. -/
def unitOwners (lpddr : Bool) (u : Nat) (s : State) : List Nat :=
  (List.range 16).filter fun p => (unitExtents lpddr u).any fun e => tabGet extDefault s.exts e == .assigned p

/-- What a unit's failure brings before partitions are torn down. -/
def unitLost (lpddr : Bool) (u : Nat) (s : State) : State :=
  requestsLost (unitMet s lpddr u) (lendsEnded (unitExtents lpddr u) (chansDropped lpddr u (unitTaken lpddr u s)))

theorem unitDown_eq (lpddr : Bool) (u detail : Nat) (s : State) : unitDown lpddr u detail s =
    restMet (unitMet s lpddr u) (tearAll (unitOwners lpddr u s) detail (unitMet s lpddr u) (unitLost lpddr u s)) := rfl

section
variable {lpddr : Bool} {u : Nat} {s t : State}

theorem mem_unitOwners {p : Nat} :
    p ∈ unitOwners lpddr u s ↔ p < 16 ∧ ∃ e, e ∈ unitExtents lpddr u ∧ tabGet extDefault s.exts e = .assigned p := by
  simp only [unitOwners, List.mem_filter, List.mem_range, List.any_eq_true, beq_iff_eq]

/-! ### Extents -/

theorem failExtent_ext (e b : Nat) (s : State) :
    tabGet extDefault (failExtent e s).exts b = if b = e then .failed else tabGet extDefault s.exts b := by
  unfold failExtent
  split
  · rw [setExt_exts, tabGet_tabSet, show (sweepDrop _ e s).exts = s.exts from setSec_exts ..]
  · rw [setExt_exts, tabGet_tabSet]

theorem failExtent_steady (e : Nat) (s : State) : Steady s (failExtent e s) := by
  have hext (t : State) : Steady t (setExt e .failed t) := .of_reach (L := [.exts]) (setExt_reach (by decide) .rfl') (by decide)
  have hdrop (p : Nat) : Steady s (sweepDrop p e s) := setSec_steady id id
  unfold failExtent
  split
  · exact (hdrop _).trans (hext _)
  · exact hext s

theorem failExtent_only (e : Nat) (s : State) : Reach [.exts, .secs] s (failExtent e s) := by
  unfold failExtent
  split
  · exact setExt_reach (by decide) (sweepDrop_reach (by decide) .rfl')
  · exact setExt_reach (by decide) .rfl'

theorem extSettle_only (s : State) : Reach [.regs .prt] s (extSettle s) := extSettle_reach (by decide) .rfl'

theorem extSettle_steady (s : State) : Steady s (extSettle s) := by
  unfold extSettle
  dsimp only
  split
  · exact (Steady.st (pg := pgPrtDev) (f := Fld.PRT_EXT_STAT_BUSY) rfl 0 s).trans
      (.st (pg := pgPrtDev) (f := Fld.PRT_EXT_STAT_CODE) rfl 0 _)
  · exact .refl s

theorem extSettle_untouched {p : Nat} (hp : p < 16) (s : State) : Untouched p s (extSettle s) := by
  have hst {f : Fld} (hf : f.ok = true) (t : State) : Untouched p t (st pgPrtDev f 0 t) :=
    .st (q := 16) (by omega) (by omega) (by omega) hf 0 t
  unfold extSettle
  dsimp only
  split
  · exact (hst (f := Fld.PRT_EXT_STAT_BUSY) (by decide) s).trans (hst (f := Fld.PRT_EXT_STAT_CODE) (by decide) _)
  · exact .refl p s

theorem unitTaken_ext {e : Nat} (he : e ∈ unitExtents lpddr u) (s : State) :
    tabGet extDefault (unitTaken lpddr u s).exts e = .failed := by
  rw [unitTaken, (extSettle_only _).frame .exts (by decide)]
  refine foldl_establishes (P := fun _ => True) (Q := fun t : State => tabGet extDefault t.exts e = .failed) he (fun _ _ _ => trivial)
    (fun t _ => ?_) (fun t x ht => ?_) s trivial
  · rw [failExtent_ext, if_pos rfl]
  · rw [failExtent_ext, ht, ite_self]

theorem unitTaken_steady (lpddr : Bool) (u : Nat) (s : State) : Steady s (unitTaken lpddr u s) :=
  (Steady.foldl (fun _ _ => failExtent_steady ..) _ s).trans (extSettle_steady _)

theorem unitTaken_untouched {p : Nat} (hp : p < 16) (lpddr : Bool) (u : Nat) (s : State) : Untouched p s (unitTaken lpddr u s) :=
  (Untouched.foldl (fun _ _ => .of_reach (failExtent_only ..) (by decide) (by decide)) _ s).trans (extSettle_untouched hp _)

/-! ### Lends -/

theorem takenBack_steady (s : State) (e : Nat) : Steady s (takenBack s e) := by
  have hback (t : State) : Steady t (zeroExtent e t) := by
    have hfill : Steady t (zeroFill (e * 2 ^ 30) (2 ^ 30) t) := .of_reach (L := [.mem]) (zeroFill_reach (by decide) .rfl') (by decide)
    have hmce (v : State) (x : Mce) : Steady v { v with mce := x } :=
      .of_regs (fun _ _ _ => rfl) rfl (fun f hf => ⟨f, hf, rfl⟩) id rfl rfl
    exact (hfill.trans (dropLines_steady ..)).trans (hmce _ _)
  unfold takenBack
  split
  · exact Steady.trans (.of_reach (L := [.exts]) (setExt_reach (by decide) .rfl') (by decide)) (hback _)
  · exact .refl s

theorem lendLost_lends (id : Nat) (s : State) : (lendLost id s).lends = s.lends.filter fun x => x.id != id := by
  cases h : s.lends.find? fun x => x.id == id with
  | none =>
    rw [lendLost, h]
    refine (List.filter_eq_self.mpr fun x hx => ?_).symm
    simpa using List.find?_eq_none.mp h x hx
  | some l =>
    have hid : l.id = id := by simpa using List.find?_some h
    rw [lendLost_found h, inc_lends, lendEnd_eq]
    dsimp only
    rw [(allBack_only l.exts s).frame .lends (by decide), hid]

theorem lendLost_failed {b : Nat} (hb : tabGet extDefault s.exts b = .failed) (id : Nat) :
    tabGet extDefault (lendLost id s).exts b = .failed := by
  cases h : s.lends.find? fun x => x.id == id with
  | none =>
    rw [lendLost, h]
    exact hb
  | some l =>
    rw [lendLost_found h, inc_exts, lendEnd_eq, allBack_ext, hb]
    exact if_neg (fun ⟨_, he⟩ => nomatch he)

theorem lendLost_steady (id : Nat) (s : State) : Steady s (lendLost id s) := by
  cases h : s.lends.find? fun x => x.id == id with
  | none =>
    rw [lendLost, h]
    exact .refl s
  | some l =>
    have hlends (t : State) (x : List Lend) : Steady t { t with lends := x } :=
      .of_regs (fun _ _ _ => rfl) rfl (fun f hf => ⟨f, hf, rfl⟩) (fun hq => hq) rfl rfl
    rw [lendLost_found h, lendEnd_eq]
    exact ((Steady.foldl takenBack_steady l.exts s).trans (hlends _ _)).trans (.inc (pg := pgLease) (f := Fld.MEM_LEASE_LOST) rfl 1 _)

theorem lendLost_only (id : Nat) (s : State) : Reach [.regs .mem, .regs .yrd, .mem, .yard, .exts, .lends, .mce] s (lendLost id s) := by
  apply lendLost_reach (h := .rfl') <;> decide

/-- No lend with an extent of the list is left, and none has come. -/
theorem lendsEnded_lends (es : List Nat) (s : State) : ∀ x, x ∈ (lendsEnded es s).lends → lendMeets es x = false := by
  intro x hx
  have hkeeps (t : State) (l : Lend) (hin : x ∈ (lendLost l.id t).lends) : x ∈ t.lends := by
    rw [lendLost_lends] at hin
    exact List.mem_of_mem_filter hin
  have hkept : x ∈ (lendsEnded es s).lends → x ∈ s.lends :=
    List.foldlRecOn (motive := fun t : State => x ∈ t.lends → x ∈ s.lends) _ _ id fun t ht l _ hin => ht (hkeeps t l hin)
  by_contra hmeets
  have hgone := foldl_establishes (i := x) (l := s.lends.filter (lendMeets es)) (f := fun s (l : Lend) => lendLost l.id s) (P := fun _ => True)
    (Q := fun t => x ∉ t.lends) (List.mem_filter.mpr ⟨hkept hx, by simpa using hmeets⟩) (fun _ _ _ => trivial)
    (fun t _ hin => by simp [lendLost_lends] at hin)
    (fun t l ht hin => ht (hkeeps t l hin)) s trivial
  exact hgone hx

theorem lendsEnded_failed {b : Nat} (hb : tabGet extDefault s.exts b = .failed) (es : List Nat) :
    tabGet extDefault (lendsEnded es s).exts b = .failed :=
  List.foldlRecOn (motive := fun t : State => tabGet extDefault t.exts b = .failed) _ _ hb fun _ ht l _ => lendLost_failed ht l.id

theorem lendsEnded_steady (es : List Nat) (s : State) : Steady s (lendsEnded es s) := .foldl (fun _ _ => lendLost_steady ..) _ s

theorem lendsEnded_untouched (p : Nat) (es : List Nat) (s : State) : Untouched p s (lendsEnded es s) :=
  .foldl (fun _ _ => .of_reach (lendLost_only ..) (by decide) (by decide)) _ s

/-! ### The whole failure -/

theorem requestsLost_steady (met : List Nat) (s : State) : Steady s (requestsLost met s) :=
  .of_reach (L := [.lostFids]) (Reach.lostFids .rfl' (by decide)) (by decide)

theorem restMet_steady (met : List Nat) (s : State) : Steady s (restMet met s) :=
  .foldl (fun t _ => .wh (fun _ => endFlight_steady ..) t) met s

theorem restMet_only (met : List Nat) (s : State) : Reach giveUpPieces s (restMet met s) :=
  Reach.foldl (fun t _ h => .wh (fun v hv => (hv.comp (endFlight_only ..)).mono (by decide)) h) .rfl'

theorem unitLost_held {x : MemChan} (h : x ∈ (unitLost lpddr u s).retrain.held) : ¬(x.lpddr = lpddr ∧ x.unit = u) := by
  have hafter : Steady (chansDropped lpddr u (unitTaken lpddr u s)) (unitLost lpddr u s) :=
    (lendsEnded_steady ..).trans (requestsLost_steady ..)
  rw [hafter.held] at h
  rintro ⟨hl, hu⟩
  simpa [hl, hu] using (List.mem_filter.mp h).2

theorem unitLost_ext {e : Nat} (he : e ∈ unitExtents lpddr u) (s : State) : tabGet extDefault (unitLost lpddr u s).exts e = .failed :=
  lendsEnded_failed (s := chansDropped lpddr u (unitTaken lpddr u s)) (unitTaken_ext he s) _

theorem unitLost_marks (lpddr : Bool) (u : Nat) (s : State) : MarksStay s (unitLost lpddr u s) := by
  have hdropped : MarksStay s (chansDropped lpddr u (unitTaken lpddr u s)) :=
    (unitTaken_steady lpddr u s).marksStay.trans (marksStay_of_regs rfl)
  exact hdropped.trans ((lendsEnded_steady ..).trans (requestsLost_steady ..)).marksStay

theorem unitLost_untouched {p : Nat} (hp : p < 16) (lpddr : Bool) (u : Nat) (s : State) : Untouched p s (unitLost lpddr u s) := by
  have hdropped : Untouched p s (chansDropped lpddr u (unitTaken lpddr u s)) :=
    (unitTaken_untouched hp lpddr u s).trans ⟨rfl, fun _ _ => rfl⟩
  exact (hdropped.trans (lendsEnded_untouched ..)).trans ⟨rfl, fun _ _ => rfl⟩

/-- A unit has failed: its extents, what was held at it, its lends and the owners of its extents. -/
def Down (lpddr : Bool) (k why : Nat) (s u : State) : Prop :=
  (∀ e, e ∈ unitExtents lpddr k → tabGet extDefault u.exts e = .failed) ∧
  (∀ x, x ∈ u.retrain.held → ¬(x.lpddr = lpddr ∧ x.unit = k)) ∧
  (∀ x e, x ∈ u.lends → e ∈ x.exts → e ∉ unitExtents lpddr k) ∧
  ∀ p, p < 16 → (∃ e, e ∈ unitExtents lpddr k ∧ tabGet extDefault s.exts e = .assigned p) → HitBy p why s u

/-- What follows the steps before the teardowns. -/
theorem unitDown_after (lpddr : Bool) (k why : Nat) (s : State) :
    Steady (unitLost lpddr k s) (unitDown lpddr k why s) ∧ Reach besideExts (unitLost lpddr k s) (unitDown lpddr k why s) := by
  rw [unitDown_eq]
  exact ⟨(tearAll_steady ..).trans (restMet_steady ..), ((tearAll_only ..).comp (restMet_only ..)).mono (by decide)⟩

theorem unitDown_marks (lpddr : Bool) (k why : Nat) (s : State) : MarksStay s (unitDown lpddr k why s) :=
  (unitLost_marks ..).trans (unitDown_after ..).1.marksStay

theorem unitDown_down {why : Nat} (hwhy : why < 2 ^ 16) (lpddr : Bool) (k : Nat) (s : State) :
    Down lpddr k why s (unitDown lpddr k why s) := by
  obtain ⟨hsteady, hreach⟩ := unitDown_after lpddr k why s
  refine ⟨fun e he => ?_, fun x hx => ?_, fun x e hx he hin => ?_, fun p hp hext => ?_⟩
  · rw [hreach.frame .exts (by decide)]
    exact unitLost_ext he s
  · rw [hsteady.held] at hx
    exact unitLost_held hx
  · rw [hreach.frame .lends (by decide)] at hx
    have hmeets := lendsEnded_lends (unitExtents lpddr k) (chansDropped lpddr k (unitTaken lpddr k s)) x hx
    rw [lendMeets, List.any_eq_false] at hmeets
    exact hmeets e he (List.contains_iff_mem.mpr hin)
  · rw [unitDown_eq]
    have hhit := tearAll_hit (fun q hq => (mem_unitOwners.mp hq).1) (mem_unitOwners.mpr ⟨hp, hext⟩) hwhy (unitMet s lpddr k)
      (unitLost lpddr k s)
    exact (hhit.from (unitLost_untouched hp lpddr k s)).steady (restMet_steady ..)

theorem Down.from {k why : Nat} {s s' v : State} (h : Down lpddr k why s' v) (hext : s'.exts = s.exts)
    (hs : ∀ p, p < 16 → Untouched p s s') : Down lpddr k why s v := by
  obtain ⟨hfailed, hheld, hlends, hhit⟩ := h
  exact ⟨hfailed, hheld, hlends, fun p hp he => (hhit p hp (hext ▸ he)).from (hs p hp)⟩

end

/-! ### A channel that fails for good (R243) -/

/-- The mark of a failed unit on its page. -/
def unitMark (lpddr : Bool) : Fld := if lpddr then Fld.LPD_STAT_FAILED else Fld.MEM_STACK_STAT_FAILED

/-- A channel and its unit are marked as failed. -/
def channelLost (c : MemChan) (s : State) : State :=
  let pg := unitPage c.lpddr c.unit
  if c.lpddr then
    st pg Fld.LPD_STAT_FAILED 1 (st pg Fld.LPD_STAT_FAILED_CH (rg s pg Fld.LPD_STAT_FAILED_CH ||| 2 ^ c.ch)
      (st pgDev Fld.DEV_INVENTORY_LPD_PKGS (rg s pgDev Fld.DEV_INVENTORY_LPD_PKGS - 1) s))
  else
    let f := if c.ch < 32 then Fld.MEM_PC_FAIL_LO else Fld.MEM_PC_FAIL_HI
    st pg Fld.MEM_STACK_STAT_FAILED 1 (st pg f (rg s pg f ||| 2 ^ (c.ch % 32))
      (st pgDev Fld.DEV_INVENTORY_STACKS (rg s pgDev Fld.DEV_INVENTORY_STACKS - 1) s))

/-- The failure of the module that a failed unit is. -/
def channelFailed (c : MemChan) (s : State) : State :=
  moduleFail (if c.lpddr then 4 else 3) (unitPage c.lpddr c.unit) 0x70 (0x0100 + c.ch) none (channelLost c s)

theorem stackFail_eq (c : MemChan) (s : State) :
    stackFail c s = if unitGone s c.lpddr c.unit then s else unitDown c.lpddr c.unit 3 (channelFailed c s) := rfl

section
variable (c : MemChan) (s : State)

theorem channelLost_only : Reach [.regs (unitPage c.lpddr c.unit).blk, .regs .dev] s (channelLost c s) := by
  unfold channelLost
  dsimp only
  split
  · exact st_reach (by simp) (st_reach (by simp) (st_reach (by simp) .rfl'))
  · exact st_reach (by simp) (st_reach (by simp) (st_reach (by simp) .rfl'))

theorem channelLost_mark : rg (channelLost c s) (unitPage c.lpddr c.unit) (unitMark c.lpddr) = 1 := by
  unfold channelLost unitMark
  dsimp only
  split
  · exact rg_st_same _ _ _ _ (by decide)
  · exact rg_st_same _ _ _ _ (by decide)

theorem channelLost_err : rg (channelLost c s) (unitPage c.lpddr c.unit) Fld.PAGE_ERR_ERR =
    rg s (unitPage c.lpddr c.unit) Fld.PAGE_ERR_ERR := by
  have hst (pg : Page) {f : Fld} (hf : f.ok = true) (hap : f.apart Fld.PAGE_ERR_ERR = true) (n : Nat) (t : State) :
      rg (st pg f n t) (unitPage c.lpddr c.unit) Fld.PAGE_ERR_ERR = rg t (unitPage c.lpddr c.unit) Fld.PAGE_ERR_ERR :=
    rg_st_elsewhere t pg _ n hf (by decide) hap
  unfold channelLost
  dsimp only
  split
  · rw [hst _ (by decide) (by decide), hst _ (by decide) (by decide), hst _ (by decide) (by decide)]
  · split <;> rw [hst _ (by decide) (by decide), hst _ (by decide) (by decide), hst _ (by decide) (by decide)]

theorem unitPage_notRas : (unitPage c.lpddr c.unit).blk ≠ .ras ∧ (unitPage c.lpddr c.unit).blk ≠ .prt := by
  rw [unitPage_blk]
  split <;> decide

theorem channelFailed_only : Reach [.regs (unitPage c.lpddr c.unit).blk, .regs .dev, .regs .ras, .regs .evr, .evr, .freeCtr] s (channelFailed c s) :=
  ((channelLost_only c s).comp (moduleFail_only (g := unitPage c.lpddr c.unit) ..)).mono (by simp)

theorem channelFailed_untouched (p : Nat) : Untouched p s (channelFailed c s) :=
  .of_reach (channelFailed_only c s) (by simp) (by simp [(unitPage_notRas c).2.symm])

theorem channelFailed_exts : (channelFailed c s).exts = s.exts := (channelFailed_only c s).frame .exts (by simp)

theorem channelFailed_failed (hunit : c.unit < 256) (hch : c.ch < 2 ^ 15) :
    ModuleFailed (if c.lpddr then 4 else 3) (unitPage c.lpddr c.unit) (0x0100 + c.ch) s (channelFailed c s) := by
  have hinst : (unitPage c.lpddr c.unit).inst < 256 := by
    unfold unitPage
    split <;> exact hunit
  have hfailed := moduleFail_failed (detail := 0x0100 + c.ch) (s := channelLost c s) (cause := if c.lpddr then 4 else 3)
    (unitPage_notEvr c.lpddr c.unit) hinst (by split <;> decide) none
  rw [Nat.mod_eq_of_lt (show 0x0100 + c.ch < 65536 by omega)] at hfailed
  refine hfailed.from (fun f _ => ?_) (channelLost_err c s)
  exact rg_of_reach (pg := pgRas) (channelLost_only c s) (by simp [(unitPage_notRas c).1.symm]) f

theorem channelFailed_mark : rg (channelFailed c s) (unitPage c.lpddr c.unit) (unitMark c.lpddr) = 1 := by
  have hfld (l : Bool) : (unitMark l).uncounted = true ∧ (unitMark l).notErr = true := by cases l <;> decide
  rw [channelFailed, moduleFail_eq, rg_raise (unitPage_notEvr c.lpddr c.unit) (hfld _).1, rg_setErr_notErr (hfld _).2]
  rw [rg_of_reach (describe_only ..) (by simp [(unitPage_notRas c).1])]
  exact channelLost_mark c s

end

/-- A unit that has not failed before fails (R243, R416). -/
theorem stackFail_fails {c : MemChan} {s : State} (hgone : ¬Gone c.lpddr c.unit s) (hunit : c.unit < 256) (hch : c.ch < 2 ^ 15) :
    Down c.lpddr c.unit 3 s (stackFail c s) ∧
      ModuleFailed (if c.lpddr then 4 else 3) (unitPage c.lpddr c.unit) (0x0100 + c.ch) s (stackFail c s) ∧
      rg (stackFail c s) (unitPage c.lpddr c.unit) (unitMark c.lpddr) = 1 := by
  have hblk : (unitPage c.lpddr c.unit).blk ∈ watchedBlocks := by
    rw [unitPage_blk]
    split <;> decide
  have hmark : ((unitPage c.lpddr c.unit).blk, unitMark c.lpddr) ∈ markFields := by
    rw [unitPage_blk]
    cases c.lpddr <;> decide
  have hmarks := unitDown_marks c.lpddr c.unit 3 (channelFailed c s)
  rw [stackFail_eq, if_neg (by rwa [unitGone_iff])]
  refine ⟨?_, (channelFailed_failed c s hunit hch).marksStay hblk hmarks, (hmarks.marks _ _ hmark).trans (channelFailed_mark c s)⟩
  exact (unitDown_down (by decide) ..).from (channelFailed_exts c s) fun p _ => channelFailed_untouched c s p

theorem stackFail_again {c : MemChan} {s : State} (hgone : Gone c.lpddr c.unit s) : stackFail c s = s := by
  rw [stackFail_eq, if_pos (by rwa [unitGone_iff])]

/-! ### Stack engines (R268) -/

theorem engineFault_eq {k : Nat} (hk : k < 8) (detail : Nat) (s : State) : engineFault k detail s =
    let s := moduleFail 5 (pgStk k) 0x70 detail none s
    if unitGone s false k then s
    else unitDown false k 4 (st pgDev Fld.DEV_INVENTORY_STACKS (rg s pgDev Fld.DEV_INVENTORY_STACKS - 1) s) :=
  if_neg (by omega)

section
variable {k : Nat} (detail : Nat) (s : State)

theorem engineGone : unitGone (moduleFail 5 (pgStk k) 0x70 detail none s) false k = true ↔ tabGet extDefault s.exts (64 * k) = .failed := by
  rw [unitGone_iff, Gone, (moduleFail_only (g := pgStk k) ..).frame .exts (by simp)]
  rfl

theorem engineFault_fails (hk : k < 8) (hgone : tabGet extDefault s.exts (64 * k) ≠ .failed) :
    Down false k 4 s (engineFault k detail s) ∧ ModuleFailed 5 (pgStk k) (detail % 65536) s (engineFault k detail s) := by
  have hfailed := moduleFail_failed (cause := 5) (g := pgStk k) (detail := detail) (s := s) (by simp) (by show k < 256; omega) (by decide) none
  have hgone' := mt (engineGone detail s).mp hgone
  have hreach := moduleFail_only (cause := 5) (g := pgStk k) (detail := detail) (s := s) none 0x70
  rw [engineFault_eq hk]
  dsimp only
  rw [if_neg hgone']
  generalize moduleFail 5 (pgStk k) 0x70 detail none s = t at hfailed hreach
  have hstacks : Steady t (st pgDev Fld.DEV_INVENTORY_STACKS (rg t pgDev Fld.DEV_INVENTORY_STACKS - 1) t) := .st rfl _ t
  have hwhole := hreach.comp (st_reach (L := [.regs .dev]) (x0 := pgDev) (x1 := Fld.DEV_INVENTORY_STACKS)
    (x2 := rg t pgDev Fld.DEV_INVENTORY_STACKS - 1) (by decide) (.rfl' (a := t)))
  refine ⟨(unitDown_down (by decide) ..).from (hwhole.frame .exts (by simp)) fun p _ => .of_reach hwhole (by simp) (by simp), ?_⟩
  exact hfailed.marksStay (show Block.stk ∈ watchedBlocks by decide) (hstacks.marksStay.trans (unitDown_marks ..))

theorem engineFault_again (hk : k < 8) (hgone : tabGet extDefault s.exts (64 * k) = .failed) :
    ModuleFailed 5 (pgStk k) (detail % 65536) s (engineFault k detail s) ∧ (engineFault k detail s).exts = s.exts ∧
      (engineFault k detail s).flights = s.flights := by
  have hreach := moduleFail_only (cause := 5) (g := pgStk k) (detail := detail) (s := s) none 0x70
  rw [engineFault_eq hk]
  dsimp only
  rw [if_pos ((engineGone detail s).mpr hgone)]
  exact ⟨moduleFail_failed (by simp) (by show k < 256; omega) (by decide) none, hreach.frame .exts (by simp), hreach.frame .flights (by simp)⟩

theorem engineFault_none (hk : 8 ≤ k) : engineFault k detail s = s := if_pos hk

end

end Sys2Proof.Machine
end

section
/-!
PROOFS. The uncorrected errors of arrays, of the yard's ways, of shared units and of hops (R81, R279, R413, R417).
-/
namespace Sys2Proof.Machine

/-! ### Fields of one register -/

/-- A field reads the same where its register does. -/
theorem rg_of_word {g : Page} {x : Fld} {s t : State} (h : rg t g ⟨x.off, 31, 0⟩ = rg s g ⟨x.off, 31, 0⟩) : rg t g x = rg s g x := by
  simp only [rg, fldGet, bits, Nat.pow_zero, Nat.div_one] at h
  have hword : tabGet resetWord t.regs (regKey g x.off) = tabGet resetWord s.regs (regKey g x.off) := by
    apply BitVec.eq_of_toNat_eq
    rwa [Nat.mod_eq_of_lt (BitVec.isLt _), Nat.mod_eq_of_lt (BitVec.isLt _)] at h
  rw [rg, rg, hword]

/-- The hardware's own write of a field, whatever becomes of the staging copy. -/
theorem stRws_writes (pg : Page) (f : Fld) (v : Nat) (s : State) : ∃ w, stRws pg f v s = st pg f v { s with staged := w } := by
  unfold stRws
  dsimp only
  split
  · exact ⟨_, rfl⟩
  · exact ⟨s.staged, rfl⟩

theorem rg_stRws_same (pg : Page) {f : Fld} (hf : f.ok = true) (v : Nat) (s : State) :
    rg (stRws pg f v s) pg f = v % 2 ^ (f.hi + 1 - f.lo) := by
  obtain ⟨w, h⟩ := stRws_writes pg f v s
  rw [h]
  exact rg_st_same _ _ _ _ hf

theorem rg_stRws_elsewhere (pg g : Page) {f x : Fld} (hf : f.ok = true) (hx : x.ok = true) (h : f.apart x = true) (v : Nat) (s : State) :
    rg (stRws pg f v s) g x = rg s g x := by
  obtain ⟨w, hw⟩ := stRws_writes pg f v s
  rw [hw]
  exact (rg_st_elsewhere { s with staged := w } pg g v hf hx h).trans (rg_of_regs rfl g x)

/-- What a failure reports on its page leaves every other field of a unit's page. -/
theorem rg_moduleFail {g : Page} {x : Fld} (hx : x.uncounted = true) (hx' : x.notErr = true) (hg : g.blk ≠ .ras) (hg' : g.blk ≠ .evr)
    (cause : Nat) (pg : Page) (code detail : Nat) (part : Option Nat) (s : State) : rg (moduleFail cause pg code detail part s) g x = rg s g x := by
  rw [moduleFail_eq, rg_raise hg' hx, rg_setErr_notErr hx']
  exact rg_of_reach (describe_only ..) (by simpa using hg) x

/-! ### Arrays (R81) -/

/-- The array is marked as fenced, and the inventory shows one less. -/
def arrayFenced (n : Nat) (s : State) : State :=
  st pgRas (arrBit Fld.RAS_FENCE n) 1 (st pgDev Fld.DEV_INVENTORY_ARRAYS (rg s pgDev Fld.DEV_INVENTORY_ARRAYS - 1) s)

theorem arrayError_eq (n detail : Nat) (fid : Option Nat) (s : State) : arrayError n detail fid s =
    if 160 ≤ n ∨ fenced s n then s
    else tearCause (arrOwner s n) 2 (arrWork s n detail fid)
      (arrayFenced n (moduleFail 1 (pgArr n) 0x70 detail (some (arrOwner s n)) s)) := rfl

section
variable {n : Nat} (hn : n < 160) (s : State)

theorem arrayFenced_only (n : Nat) (s : State) : Reach [.regs .ras, .regs .dev] s (arrayFenced n s) :=
  st_reach (by simp) (st_reach (by simp) .rfl')

include hn

theorem fence_ok : (arrBit Fld.RAS_FENCE n).ok = true := by
  rw [Fld.ok, decide_eq_true_eq]
  simp only [arrBit, Fld.RAS_FENCE]
  omega

/-- A fence leaves the registers before the fences as they are. -/
theorem arrayFenced_keeps {g : Page} {x : Fld} (hg : g.blk ≠ .dev) (hx : x.ok = true) (hoff : x.off < 0x110) :
    rg (arrayFenced n s) g x = rg s g x := by
  have hfence : (arrBit Fld.RAS_FENCE n).apart x = true := by
    rw [Fld.apart, decide_eq_true_eq]
    simp only [arrBit, Fld.RAS_FENCE]
    omega
  rw [arrayFenced, rg_st_elsewhere _ pgRas g 1 (fence_ok hn) hx hfence]
  exact rg_of_reach (L := [.regs .dev]) (st_reach (by decide) .rfl') (by simpa using hg) x

theorem arrayFenced_fenced {u : State} (h : Steady (arrayFenced n s) u) : fenced u n = true := by
  have hmark : ∀ i < 5, (Block.ras, fldAt Fld.RAS_FENCE i) ∈ markFields := by decide
  have hword : rg u pgRas (arrBit Fld.RAS_FENCE n) = rg (arrayFenced n s) pgRas (arrBit Fld.RAS_FENCE n) :=
    rg_of_word (h.marks pgRas (fldAt Fld.RAS_FENCE (n / 32)) (hmark _ (by omega)))
  have hone : rg (arrayFenced n s) pgRas (arrBit Fld.RAS_FENCE n) = 1 := by
    rw [arrayFenced, rg_st_same _ _ _ _ (fence_ok hn), show (arrBit Fld.RAS_FENCE n).hi + 1 - (arrBit Fld.RAS_FENCE n).lo = 1 from
      Nat.add_sub_cancel_left .., Nat.pow_one]
  rw [fenced, hword, hone]
  rfl

/-- An array that is not fenced yet is, and what holds it is torn down. -/
theorem arrayError_met (hfree : fenced s n = false) (detail : Nat) (fid : Option Nat) :
    fenced (arrayError n detail fid s) n = true ∧ ModuleFailed 1 (pgArr n) (detail % 65536) s (arrayError n detail fid s) ∧
      HitBy (arrOwner s n) 2 s (arrayError n detail fid s) := by
  have hfailed := moduleFail_failed (cause := 1) (g := pgArr n) (detail := detail) (s := s) (by simp) (by show n < 256; omega) (by decide)
    (some (arrOwner s n))
  have hreach := moduleFail_only (cause := 1) (g := pgArr n) (detail := detail) (s := s) (some (arrOwner s n)) 0x70
  rw [arrayError_eq, if_neg (by simp [hfree, hn])]
  generalize moduleFail 1 (pgArr n) 0x70 detail (some (arrOwner s n)) s = t at hfailed hreach
  have hfields : ∀ f ∈ failFields ++ firstFields, f.ok = true ∧ f.off < 0x110 := by decide
  have hkept {g : Page} (hg : g.blk ≠ .dev) {f : Fld} (hf : f ∈ failFields ++ firstFields) : rg (arrayFenced n t) g f = rg t g f :=
    arrayFenced_keeps hn t hg (hfields f hf).1 (hfields f hf).2
  have hmarked : ModuleFailed 1 (pgArr n) (detail % 65536) s (arrayFenced n t) :=
    hfailed.keeps (fun f hf => hkept (by decide) (List.mem_append_left _ hf))
      (codeStays_of_fields fun f hf => hkept (g := pgArr n) (by simp) (List.mem_append_right _ hf))
  have htorn := tearCause_steady (arrOwner s n) 2 (arrWork s n detail fid) (arrayFenced n t)
  refine ⟨arrayFenced_fenced hn t htorn, hmarked.steady (show Block.arr ∈ watchedBlocks by decide) htorn, ?_⟩
  exact (tearCause_hit (by decide) ..).from (.of_reach (hreach.comp (arrayFenced_only n t)) (by simp) (by simp))

end

theorem arrayError_idle {n : Nat} {s : State} (h : 160 ≤ n ∨ fenced s n = true) (detail : Nat) (fid : Option Nat) :
    arrayError n detail fid s = s := if_pos h

/-! ### Scratch ways (R413) -/

theorem wayFields : ∀ k < 16, (fldWayMode k).ok = true ∧ (fldWayOwner k).ok = true ∧ (fldWayMode k).uncounted = true ∧
    (fldWayMode k).notErr = true ∧ (∀ x ∈ firstFields, x.ok = true ∧ (fldWayMode k).apart x = true ∧ (fldWayOwner k).apart x = true) ∧
    (fldWayMode k).hi + 1 - (fldWayMode k).lo = 2 ∧ (Block.yrd, (⟨(fldWayMode k).off, 31, 0⟩ : Fld)) ∈ markFields := by decide

theorem setWay_frees {k : Nat} {s : State} (h : rg s pgYrd (fldWayMode k) = 2) :
    setWay k 0 0 s = clearWay k 2 0 (stRws pgYrd (fldWayMode k) 0 (stRws pgYrd (fldWayOwner k) 0 s)) := by
  unfold setWay
  dsimp only
  rw [h, if_neg (by simp), if_pos rfl]

theorem clearWay_zeroises (k : Nat) (s : State) : k ∈ (clearWay k 2 0 s).yard.zeroising := by
  show k ∈ if (s.yard.zeroising.contains k) = true then s.yard.zeroising else s.yard.zeroising ++ [k]
  split
  next h => exact List.contains_iff_mem.mp h
  next => exact List.mem_append_right _ (List.mem_singleton_self k)

theorem setWay_only (k : Nat) (s : State) : Reach [.regs .yrd, .staged, .mem, .yard] s (setWay k 0 0 s) :=
  setWay_reach (by decide) (by decide) (by decide) (by decide) .rfl'

theorem setWay_freed {k : Nat} (hk : k < 16) {s : State} (h : rg s pgYrd (fldWayMode k) = 2) :
    rg (setWay k 0 0 s) pgYrd (fldWayMode k) = 0 ∧ k ∈ (setWay k 0 0 s).yard.zeroising ∧ CodeStays pgYrd s (setWay k 0 0 s) := by
  obtain ⟨hok, hook, -, -, hfirst, -, -⟩ := wayFields k hk
  have hclear (t : State) (x : Fld) : rg (clearWay k 2 0 t) pgYrd x = rg t pgYrd x :=
    rg_of_reach (L := [.mem, .yard]) (clearWay_reach (by decide) (by decide) .rfl') (by decide) x
  rw [setWay_frees h]
  refine ⟨?_, clearWay_zeroises .., codeStays_of_fields fun x hx => ?_⟩
  · rw [hclear, rg_stRws_same _ hok, Nat.zero_mod]
  · obtain ⟨hxok, hmode, howner⟩ := hfirst x hx
    rw [hclear, rg_stRws_elsewhere _ _ hok hxok hmode, rg_stRws_elsewhere _ _ hook hxok howner]

/-- The holder of a scratch way that fails is torn down, and the module has failed. -/
def scratchTorn (k : Nat) (fid : Option Nat) (s : State) : State :=
  let p := rg s pgYrd (fldWayOwner k)
  tearCause p 5 fid.toList (moduleFail 2 pgYrd 0x70 0 (some p) s)

theorem scratchError_eq {k : Nat} (hk : k < 16) {s : State} (h : rg s pgYrd (fldWayMode k) = 2) (fid : Option Nat) :
    scratchError k fid s = wh (rg s pgYrd (fldWayOwner k) == 0) (setWay k 0 0) (scratchTorn k fid s) :=
  if_neg (by simp [hk, h])

theorem scratchError_idle {k : Nat} {s : State} (h : 16 ≤ k ∨ rg s pgYrd (fldWayMode k) ≠ 2) (fid : Option Nat) :
    scratchError k fid s = s := if_pos h

section
variable {k : Nat} (hk : k < 16) (fid : Option Nat) {s : State}

theorem scratchTorn_hit (k : Nat) (fid : Option Nat) (s : State) : HitBy (rg s pgYrd (fldWayOwner k)) 5 s (scratchTorn k fid s) :=
  (tearCause_hit (by decide) ..).from (.of_reach (moduleFail_only (g := pgYrd) ..) (by decide) (by decide))

theorem scratchTorn_failed (k : Nat) (fid : Option Nat) (s : State) : ModuleFailed 2 pgYrd 0 s (scratchTorn k fid s) :=
  (moduleFail_failed (g := pgYrd) (detail := 0) (by decide) (by decide) (by decide) _).steady (by decide) (tearCause_steady ..)

include hk

theorem scratchTorn_mode : rg (scratchTorn k fid s) pgYrd (fldWayMode k) = rg s pgYrd (fldWayMode k) := by
  obtain ⟨-, -, hun, hnot, -, -, hmark⟩ := wayFields k hk
  exact (rg_of_word ((tearCause_steady ..).marks pgYrd _ hmark)).trans (rg_moduleFail hun hnot (by decide) (by decide) ..)

theorem scratchError_met (h : rg s pgYrd (fldWayMode k) = 2) :
    ModuleFailed 2 pgYrd 0 s (scratchError k fid s) ∧ HitBy (rg s pgYrd (fldWayOwner k)) 5 s (scratchError k fid s) ∧
      (rg s pgYrd (fldWayOwner k) = 0 →
        rg (scratchError k fid s) pgYrd (fldWayMode k) = 0 ∧ k ∈ (scratchError k fid s).yard.zeroising) := by
  have hfailed := scratchTorn_failed k fid s
  have hhit := scratchTorn_hit k fid s
  have hmode := (scratchTorn_mode hk fid).trans h
  rw [scratchError_eq hk h, wh]
  by_cases hp : rg s pgYrd (fldWayOwner k) = 0
  · have hreach := setWay_only k (scratchTorn k fid s)
    obtain ⟨hfree, hzero, hcode⟩ := setWay_freed hk hmode
    obtain ⟨herr, hheld⟩ := hhit.2 hp
    rw [if_pos (by simpa using hp)]
    refine ⟨hfailed.keeps (fun f _ => rg_of_reach (pg := pgRas) hreach (by decide) f) hcode, ⟨fun hl => absurd hp hl.1, fun _ => ⟨?_, ?_⟩⟩,
      fun _ => ⟨hfree, hzero⟩⟩
    · rw [rg_of_reach (pg := pgPrt 0) hreach (by decide), herr]
    · rw [qu_of_reach hreach (by decide), hheld]
  · rw [if_neg (by simpa using hp)]
    exact ⟨hfailed, hhit, fun e => absurd e hp⟩

end

/-! ### A failed hop (R279) -/

theorem hopFail_eq {k : Nat} (hk : k < 8) (parts : Nat) (fids : List Nat) (s : State) : hopFail k parts fids s =
    tearAll ((List.range 16).filter fun p => bit p parts && partExists s p) 6 fids (moduleFail 6 pgRas 0x70 (0x0300 + k) none s) :=
  if_neg (by omega)

theorem hopFail_idle {k : Nat} (hk : 8 ≤ k) (parts : Nat) (fids : List Nat) (s : State) : hopFail k parts fids s = s := if_pos hk

theorem hopFail_met {k : Nat} (hk : k < 8) (parts : Nat) (fids : List Nat) (s : State) :
    ModuleFailed 6 pgRas (0x0300 + k) s (hopFail k parts fids s) ∧
      ∀ p, p < 16 → bit p parts = true → partState s p ≠ .none → HitBy p 6 s (hopFail k parts fids s) := by
  have hfailed := moduleFail_failed (cause := 6) (g := pgRas) (detail := 0x0300 + k) (s := s) (by decide) (by decide) (by decide) none
  rw [Nat.mod_eq_of_lt (show 0x0300 + k < 65536 by omega)] at hfailed
  rw [hopFail_eq hk]
  refine ⟨hfailed.steady (by decide) (tearAll_steady ..), fun p hp hbit hsome => ?_⟩
  refine (tearAll_hit (fun q hq => List.mem_range.mp (List.mem_of_mem_filter hq)) ?_ (by decide) ..).from
    (.of_reach (moduleFail_only (g := pgRas) ..) (by decide) (by decide))
  rw [List.mem_filter, List.mem_range, partExists]
  exact ⟨hp, by simp [hbit, hsome]⟩

end Sys2Proof.Machine
end

section
/-!
PROOFS. The uncorrected errors of shared units (R413, R417): what is reported, what is marked, and what of the device they end.
-/
namespace Sys2Proof.Machine

/-! ### The pages of shared units (Table 18.2) -/

/-- The kinds of page that a cause of a shared unit names. -/
def causeKinds : Nat → List PageKind
  | 0 => [.memStack, .lpd]
  | 6 => [.ras]
  | 7 => [.ras, .tok, .dsp, .tpl]
  | 8 => [.kvs, .scn, .col, .colDev]
  | 9 => [.secDev]
  | _ => []

theorem sharedPage_kind {cause : Nat} {pg : Page} (h : sharedPage cause pg = true) : ∃ kd, pageKind pg = some kd ∧ kd ∈ causeKinds cause := by
  unfold sharedPage at h
  split at h
  case h_13 => cases h
  all_goals exact ⟨_, ‹_›, by decide⟩

theorem cause_of_kind {cause : Nat} {kd : PageKind} (h : kd ∈ causeKinds cause) : cause < 10 := by
  unfold causeKinds at h
  split at h
  case h_6 => cases h
  all_goals decide

theorem sharedPage_cause {cause : Nat} {pg : Page} (h : sharedPage cause pg = true) : cause < 10 := by
  obtain ⟨kd, -, hkd⟩ := sharedPage_kind h
  exact cause_of_kind hkd

/-- The kind of a page of a block with one kind of page. -/
theorem kind_of_ite {c : Prop} [Decidable c] {a kd : PageKind} (h : (if c then some a else none) = some kd) : kd = a := by
  split at h
  · exact (Option.some.inj h).symm
  · cases h

/-- A page of a shared unit is no page of the event recorder. -/
theorem sharedPage_notEvr {cause : Nat} {pg : Page} (h : sharedPage cause pg = true) : pg.blk ≠ .evr := by
  obtain ⟨b, i⟩ := pg
  rintro rfl
  obtain ⟨kd, hkd, hin⟩ := sharedPage_kind h
  obtain rfl := kind_of_ite hkd
  have hnone : ∀ n < 10, PageKind.evr ∉ causeKinds n := by decide
  exact hnone cause (cause_of_kind hin) hin

theorem sharedPage_zero {pg : Page} (h : sharedPage 0 pg = true) : pg.blk ≠ .ras := by
  obtain ⟨b, i⟩ := pg
  rintro rfl
  obtain ⟨kd, hkd, hin⟩ := sharedPage_kind h
  obtain rfl := kind_of_ite hkd
  exact absurd hin (by decide)

theorem cause_eight {cause : Nat} {kd : PageKind} (h : kd ∈ causeKinds cause) (hkd : kd = .kvs ∨ kd = .scn) : cause = 8 := by
  have hall : ∀ n < 10, (PageKind.kvs ∈ causeKinds n → n = 8) ∧ (PageKind.scn ∈ causeKinds n → n = 8) := by decide
  obtain ⟨hkvs, hscn⟩ := hall cause (cause_of_kind h)
  rcases hkd with rfl | rfl
  · exact hkvs h
  · exact hscn h

section
variable {cause k : Nat}

theorem sharedPage_kvs (h : sharedPage cause (pgKvs k) = true) : cause = 8 ∧ pageKind (pgKvs k) = some .kvs := by
  obtain ⟨kd, hkd, hin⟩ := sharedPage_kind h
  obtain rfl : kd = .kvs := kind_of_ite hkd
  exact ⟨cause_eight hin (.inl rfl), hkd⟩

theorem sharedPage_scn (h : sharedPage cause (pgScn k) = true) : cause = 8 ∧ pageKind (pgScn k) = some .scn := by
  obtain ⟨kd, hkd, hin⟩ := sharedPage_kind h
  obtain rfl : kd = .scn := kind_of_ite hkd
  exact ⟨cause_eight hin (.inr rfl), hkd⟩

theorem sharedPage_dsp (h : sharedPage cause (pgDsp k) = true) : pageKind (pgDsp k) = some .dsp := by
  obtain ⟨kd, hkd, -⟩ := sharedPage_kind h
  obtain rfl : kd = .dsp := kind_of_ite hkd
  exact hkd

theorem sharedPage_tok (h : sharedPage cause ⟨.tok, k⟩ = true) : pageKind ⟨.tok, k⟩ = some .tok := by
  obtain ⟨kd, hkd, -⟩ := sharedPage_kind h
  obtain rfl : kd = .tok := kind_of_ite hkd
  exact hkd

end

/-- A page of a queue is in its block. -/
theorem blk_of_dspKind {pg : Page} (h : pageKind pg = some .dsp) : pg.blk = .dsp := by
  obtain ⟨b, i⟩ := pg
  by_contra hb
  cases b <;> simp [pageKind] at h hb
  all_goals (repeat' split at h) <;> cases h

/-! ### The steps of an error in a shared unit -/

/-- The error is reported: as a failure of the module, but for cause 0. -/
def sharedReported (cause : Nat) (pg : Page) (detail : Nat) (s : State) : State :=
  if cause = 0 then pageErr pg 0x70 (0x0200 + detail) none s
  else moduleFail cause pg 0x70 (if cause = 6 then 0x0300 + detail else detail) (sharedPart pg) s

/-- The security block has failed, or a token is poisoned. -/
def sharedMarked (cause : Nat) (pg : Page) (t : Option Nat) (s : State) : State :=
  let s := wh (cause == 9) (fun s => { s with sec := { s.sec with failed := true } }) s
  match t with
  | some n => wh (cause == 7 && pg.blk == .tok && decide (n < 8192)) (setTok n { tok s n with poisoned := true }) s
  | none => s

/-- What met the error ends. -/
def sharedEnded (cause : Nat) (pg : Page) (fid : Option Nat) (s : State) : State :=
  match fid with
  | some f => endFlight f 0x70 0 s
  | none =>
    match pageKind pg with
    | some .dsp => hold pg.inst 0x70 (qHead s pg.inst) (qDesc s pg.inst) 0 s
    | some .ras => wh (cause == 7) (fun s => { s with bus := (0x70, 0) }) s
    | some .tok => { s with bus := (0x70, 0) }
    | _ => wh (cause == 8) (commandFault pg) s

theorem sharedError_none {cause : Nat} {pg : Page} (h : sharedPage cause pg = false) (detail : Nat) (fid t : Option Nat) (s : State) :
    sharedError cause pg detail fid t s = s := if_pos (by simp [h])

theorem sharedError_eq {cause : Nat} {pg : Page} (h : sharedPage cause pg = true) (detail : Nat) (fid t : Option Nat) (s : State) :
    sharedError cause pg detail fid t s = sharedEnded cause pg fid (sharedMarked cause pg t (sharedReported cause pg detail s)) :=
  if_neg (by simp [h])

section
variable {cause detail : Nat} {pg : Page} {t fid : Option Nat} {s : State}

theorem sharedReported_only : Reach [.regs pg.blk, .regs .ras, .regs .evr, .evr, .freeCtr] s (sharedReported cause pg detail s) := by
  have hset : Reach [.regs pg.blk] s (setErr pg 0x70 (0x0200 + detail) s) := setErr_reach (by simp) .rfl'
  exact .ite ((hset.comp (countCode_only ..)).mono (by simp)) ((moduleFail_only ..).mono (by simp))

theorem sharedReported_err (h : sharedPage cause pg = true) : rg (sharedReported cause pg detail s) pg Fld.PAGE_ERR_ERR = 1 := by
  unfold sharedReported
  split
  next e =>
    rw [rg_pageErr ⟨sharedPage_zero (e ▸ h), sharedPage_notEvr h⟩]
    exact rg_setErr_err ..
  next => exact moduleFail_err (sharedPage_notEvr h) ..

theorem sharedReported_first (h : sharedPage cause pg = true) (h0 : cause ≠ 0) (hfirst : rg s pgRas Fld.RAS_DEV_STAT_CAUSE = 0) :
    rg (sharedReported cause pg detail s) pgRas Fld.RAS_DEV_STAT_FAILED = 1 ∧
      rg (sharedReported cause pg detail s) pgRas Fld.RAS_DEV_STAT_CAUSE = cause := by
  have hcause := sharedPage_cause h
  rw [sharedReported, if_neg h0]
  obtain ⟨hfailed, hwhich, -, -⟩ := moduleFail_first (g := pg) hfirst (show cause < 256 by omega) (sharedPart pg) 0x70
  exact ⟨hfailed, hwhich⟩

/-! ### Marks -/

theorem sharedMarked_only : Reach [.sec, .toks] s (sharedMarked cause pg t s) := by
  unfold sharedMarked
  have hsec : Reach [.sec, .toks] s (wh (cause == 9) (fun s => { s with sec := { s.sec with failed := true } }) s) :=
    .wh (fun _ h => Reach.sec h (by decide)) .rfl'
  dsimp only
  split
  · exact .wh (fun _ h => setTok_reach (by decide) h) hsec
  · exact hsec

theorem sharedMarked_failed (h : cause = 9) : (sharedMarked cause pg t s).sec.failed = true := by
  subst h
  unfold sharedMarked
  dsimp only
  split <;> rfl

theorem sharedMarked_poisoned {n : Nat} (ht : t = some n) (h7 : cause = 7) (hblk : pg.blk = .tok) (hn : n < 8192) :
    (tok (sharedMarked cause pg t s) n).poisoned = true := by
  subst ht h7
  unfold sharedMarked
  dsimp only
  rw [wh, if_pos (by simp [hblk, hn]), tok_setTok_same]

end

/-! ### What ends -/

/-- The pieces that a command of a station reaches when its state meets an error. -/
def stationFaultPieces : List Piece := [.regs .kvs, .regs .scn, .regs .col, .kvs, .scn, .col]

/-- The pieces that an error in a shared unit reaches after it is reported and marked. -/
def sharedPieces : List Piece := giveUpPieces ++ holdPieces ++ stationFaultPieces ++ [.bus]

section
variable {cause : Nat} {pg g : Page} {fid : Option Nat} {s : State}

theorem commandFault_only (pg : Page) (s : State) : Reach stationFaultPieces s (commandFault pg s) := by
  unfold commandFault
  dsimp only
  split
  · exact .wh (fun _ h => kvResult_reach (by decide) (setKv_reach (by decide) h)) .rfl'
  · exact .wh (fun _ h => scnResult_reach (by decide) (setSc_reach (by decide) h)) .rfl'
  · exact .wh (fun _ h => colResult_reach (by decide) (setCol_reach (by decide) h)) .rfl'
  · exact .rfl'

theorem hold_only (q code entry desc tag : Nat) (s : State) : Reach holdPieces s (hold q code entry desc tag s) :=
  hold_reach (by decide) (by decide) (by decide) (by decide) (by decide) (by decide) (by decide) (by decide) (by decide) .rfl'

theorem sharedEnded_only : Reach sharedPieces s (sharedEnded cause pg fid s) := by
  unfold sharedEnded
  split
  · exact (endFlight_only ..).mono (by decide)
  · split
    · exact (hold_only ..).mono (by decide)
    · exact .wh (fun _ h => Reach.bus h (by decide)) .rfl'
    · exact Reach.bus .rfl' (by decide)
    · exact .wh (fun t h => (h.comp (commandFault_only pg t)).mono (by decide)) .rfl'

/-- Where nothing of a page is reached, its code stays. -/
theorem codeStays_of_reach {L : List Piece} {t : State} (h : Reach L s t) (hL : Piece.regs g.blk ∉ L) : CodeStays g s t :=
  codeStays_of_fields fun x _ => rg_of_reach h hL x

/-- The pages of a piece are the recorder's, or their codes are followed. -/
def followedPiece : Piece → Bool
  | .regs b => b == .evr || watchedBlocks.contains b
  | _ => true

theorem endFlight_codeStays (hg : g.blk ≠ .evr) (f code detail : Nat) (s : State) : CodeStays g s (endFlight f code detail s) := by
  by_cases hw : g.blk ∈ watchedBlocks
  · exact (endFlight_steady ..).codes g hw
  · refine codeStays_of_reach (endFlight_only ..) fun hin => ?_
    have hall : ∀ k ∈ giveUpPieces, followedPiece k = true := by decide
    have hfollowed := hall _ hin
    simp [followedPiece, hg, hw] at hfollowed

/-- A command's result on a page leaves the codes of pages. -/
theorem codeStays_result {p : Page} {f f' : Fld} (hf : f.plain = true) (hf' : f'.plain = true) (n n' : Nat) (s : State) :
    CodeStays g s (st p f n (st p f' n' s)) := by
  simp only [Fld.plain, Bool.and_eq_true, List.all_eq_true] at hf hf'
  obtain ⟨hok, hap⟩ := hf
  obtain ⟨hok', hap'⟩ := hf'
  refine codeStays_of_fields fun x hx => ?_
  rw [rg_st_elsewhere _ p g n hok (hap x hx).1 (hap x hx).2, rg_st_elsewhere _ p g n' hok' (hap' x hx).1 (hap' x hx).2]

theorem CodeStays.wh {c : Bool} {f : State → State} (h : ∀ t, CodeStays g t (f t)) (s : State) : CodeStays g s (Machine.wh c f s) := by
  unfold Machine.wh
  split
  · exact h s
  · exact .refl g s

theorem commandFault_codeStays (pg : Page) (s : State) : CodeStays g s (commandFault pg s) := by
  have hkv (t : State) : CodeStays g t (kvResult pg.inst 0x70 t) :=
    codeStays_result (p := pgKvs _) (f := Fld.KVS_CMD_STAT_CODE) (f' := Fld.KVS_CMD_STAT_BUSY) rfl rfl _ _ t
  have hscn (t : State) : CodeStays g t (scnResult pg.inst 0x70 t) :=
    codeStays_result (p := pgScn _) (f := Fld.SCN_CMD_STAT_CODE) (f' := Fld.SCN_CMD_STAT_BUSY) rfl rfl _ _ t
  have hcol (t : State) : CodeStays g t (colResult pg.inst 0x70 t) :=
    codeStays_result (p := pgCol _) (f := Fld.COL_CMD_STAT_CODE) (f' := Fld.COL_CMD_STAT_BUSY) rfl rfl _ _ t
  unfold commandFault
  dsimp only
  split
  · exact .wh (fun t => hkv (setKv _ _ t)) s
  · exact .wh (fun t => hscn (setSc _ _ t)) s
  · exact .wh (fun t => hcol (setCol { t.col with closing := t.col.closing.filter fun x => x.1 != pg.inst } t)) s
  · exact .refl g s

theorem sharedEnded_codeStays (hg : pg.blk ≠ .evr) : CodeStays pg s (sharedEnded cause pg fid s) := by
  unfold sharedEnded
  split
  · exact endFlight_codeStays hg _ _ _ _
  · split
    next h => exact (hold_steady ..).codes pg (blk_of_dspKind h ▸ by decide)
    · exact CodeStays.wh (f := fun s => { s with bus := (0x70, 0) }) (fun _ => codeStays_of_fields fun _ _ => rfl) s
    · exact codeStays_of_fields fun _ _ => rfl
    · exact .wh (fun t => commandFault_codeStays pg t) s

/-- The description of a failure of the module stays. -/
theorem sharedEnded_describes {x : Fld} (hx : x ∈ failFields) : rg (sharedEnded cause pg fid s) pgRas x = rg s pgRas x := by
  have hmark : ∀ f ∈ failFields, (Block.ras, f) ∈ markFields := by decide
  unfold sharedEnded
  split
  · exact (endFlight_steady ..).marks pgRas x (hmark x hx)
  · split
    · exact (hold_steady ..).marks pgRas x (hmark x hx)
    · unfold wh
      split <;> rfl
    · rfl
    · unfold wh
      split
      · exact rg_of_reach (pg := pgRas) (commandFault_only pg s) (by decide) x
      · rfl

theorem sharedEnded_kvs {k : Nat} (h : sharedPage cause (pgKvs k) = true) :
    (kv (sharedEnded cause (pgKvs k) none s) k).waiting = none ∧
      ((kv s k).waiting.isSome → rg (sharedEnded cause (pgKvs k) none s) (pgKvs k) Fld.KVS_CMD_STAT_CODE = 0x70) := by
  obtain ⟨h8, hkind⟩ := sharedPage_kvs h
  subst h8
  have hended : sharedEnded 8 (pgKvs k) none s =
      wh (kv s k).waiting.isSome (fun s => kvResult k 0x70 (setKv k { kv s k with waiting := none } s)) s := by
    unfold sharedEnded commandFault
    dsimp only
    rw [hkind]
    rfl
  rw [hended, wh]
  split
  next hw =>
    refine ⟨?_, fun _ => (kvResult_done (by decide) _).1⟩
    rw [kv_of_kvs (kvResult_kvs ..), kv_setKv_same]
  next hw => exact ⟨by simpa using hw, fun e => absurd e hw⟩

theorem sharedEnded_scn {k : Nat} (h : sharedPage cause (pgScn k) = true) :
    (sc (sharedEnded cause (pgScn k) none s) k).waiting = none ∧
      ((sc s k).waiting.isSome → rg (sharedEnded cause (pgScn k) none s) (pgScn k) Fld.SCN_CMD_STAT_CODE = 0x70) := by
  obtain ⟨h8, hkind⟩ := sharedPage_scn h
  subst h8
  have hended : sharedEnded 8 (pgScn k) none s =
      wh (sc s k).waiting.isSome (fun s => scnResult k 0x70 (setSc k { sc s k with waiting := none } s)) s := by
    unfold sharedEnded commandFault
    dsimp only
    rw [hkind]
    rfl
  rw [hended, wh]
  split
  next hw =>
    refine ⟨?_, fun _ => (scnResult_ended (by decide) _).1⟩
    rw [sc_of_reach (scnResult_only ..) (by decide), sc_setSc_same]
  next hw => exact ⟨by simpa using hw, fun e => absurd e hw⟩

theorem sharedEnded_dsp {k : Nat} (h : sharedPage cause (pgDsp k) = true) : (qu (sharedEnded cause (pgDsp k) none s) k).held = true := by
  have hended : sharedEnded cause (pgDsp k) none s = hold k 0x70 (qHead s k) (qDesc s k) 0 s := by
    unfold sharedEnded
    dsimp only
    rw [sharedPage_dsp h]
  rw [hended, hold_qu]

theorem sharedEnded_tok {k : Nat} (h : sharedPage cause ⟨.tok, k⟩ = true) : (sharedEnded cause ⟨.tok, k⟩ none s).bus = (0x70, 0) := by
  unfold sharedEnded
  dsimp only
  rw [sharedPage_tok h]

end

/-! ### The whole error -/

section
variable {cause : Nat} {pg : Page} {t fid : Option Nat} {s : State} (h : sharedPage cause pg = true) (detail : Nat)

/-- What is reported and marked before anything ends. -/
theorem sharedBefore_only : Reach [.regs pg.blk, .regs .ras, .regs .evr, .evr, .freeCtr, .sec, .toks] s
    (sharedMarked cause pg t (sharedReported cause pg detail s)) := (sharedReported_only.comp sharedMarked_only).mono (by simp)

theorem sharedBefore_rg (g : Page) (x : Fld) : rg (sharedMarked cause pg t (sharedReported cause pg detail s)) g x =
    rg (sharedReported cause pg detail s) g x := rg_of_reach sharedMarked_only (by simp) x

include h

theorem sharedError_err : rg (sharedError cause pg detail fid t s) pg Fld.PAGE_ERR_ERR = 1 := by
  rw [sharedError_eq h]
  refine (sharedEnded_codeStays (sharedPage_notEvr h) ?_).1
  rw [sharedBefore_rg]
  exact sharedReported_err h

theorem sharedError_first (h0 : cause ≠ 0) (hfirst : rg s pgRas Fld.RAS_DEV_STAT_CAUSE = 0) :
    rg (sharedError cause pg detail fid t s) pgRas Fld.RAS_DEV_STAT_FAILED = 1 ∧
      rg (sharedError cause pg detail fid t s) pgRas Fld.RAS_DEV_STAT_CAUSE = cause := by
  rw [sharedError_eq h, sharedEnded_describes (by decide), sharedEnded_describes (by decide), sharedBefore_rg, sharedBefore_rg]
  exact sharedReported_first h h0 hfirst

theorem sharedError_security (h9 : cause = 9) : (sharedError cause pg detail fid t s).sec.failed = true := by
  rw [sharedError_eq h, sharedEnded_only.frame .sec (by decide)]
  exact sharedMarked_failed h9

theorem sharedError_poisons {n : Nat} (ht : t = some n) (h7 : cause = 7) (hblk : pg.blk = .tok) (hn : n < 8192) :
    (tok (sharedError cause pg detail fid t s) n).poisoned = true := by
  rw [sharedError_eq h, tok, sharedEnded_only.frame .toks (by decide)]
  exact sharedMarked_poisoned ht h7 hblk hn

/-- The descriptor that met the error ends with HW_FAULT (R417). -/
theorem sharedError_ends {x : Nat} {f : Flight} (hx : fid = some x) (hf : flightOf s x = some f) (hnone : f.result = none)
    (hctx : ∀ y, y ∈ s.col.ctxs → y.fid ≠ x) :
    ∃ g, flightOf (sharedError cause pg detail fid t s) x = some g ∧ g.result = some 0x70 := by
  obtain rfl := (flightOf_mem hf).2
  subst hx
  have halone : Alone f (sharedMarked cause pg t (sharedReported cause pg detail s)) :=
    Alone.reach ⟨hf, hctx⟩ (sharedBefore_only detail) (by simp) (by simp)
  rw [sharedError_eq h]
  exact (halone.endFlight_self (by decide) (.inl hnone) 0).outcome

end

section
variable {cause k : Nat} {t : Option Nat} {s : State} (detail : Nat)

theorem sharedError_kvs (h : sharedPage cause (pgKvs k) = true) :
    (kv (sharedError cause (pgKvs k) detail none t s) k).waiting = none ∧ ((kv s k).waiting.isSome →
      rg (sharedError cause (pgKvs k) detail none t s) (pgKvs k) Fld.KVS_CMD_STAT_CODE = 0x70) := by
  rw [sharedError_eq h, ← kv_of_reach (sharedBefore_only (cause := cause) (pg := pgKvs k) (t := t) (s := s) detail) (by simp) k]
  exact sharedEnded_kvs h

theorem sharedError_scn (h : sharedPage cause (pgScn k) = true) :
    (sc (sharedError cause (pgScn k) detail none t s) k).waiting = none ∧ ((sc s k).waiting.isSome →
      rg (sharedError cause (pgScn k) detail none t s) (pgScn k) Fld.SCN_CMD_STAT_CODE = 0x70) := by
  rw [sharedError_eq h, ← sc_of_reach (sharedBefore_only (cause := cause) (pg := pgScn k) (t := t) (s := s) detail) (by simp) k]
  exact sharedEnded_scn h

end

end Sys2Proof.Machine
end

section
/-!
PROOFS. Obligation O58: each command that brings a fault, a retrain or a scrub (R81, R241 to R243, R268, R279, R413 to R417).
-/
namespace Sys2Proof.Machine

section
variable {s : State} (h : Running s)
include h

theorem exec_memoryRetrainStart (lpddr forced : Bool) (k ch : Nat) :
    exec (.memoryRetrainStart lpddr k ch forced) s = .next (retrainStart lpddr k ch forced s) := congrArg _ (wh_running h _)

theorem exec_memoryRetrainEnd (lpddr ok declared : Bool) (k ch cycles : Nat) :
    exec (.memoryRetrainEnd lpddr k ch ok cycles declared) s = .next (freed (retrainEnd lpddr k ch ok cycles declared s)) := by
  show Host.Outcome.next (wh (on s) _ s) = _
  rw [wh_running h]

theorem exec_wayZeroiseDone (k : Nat) : exec (.wayZeroiseDone k) s = .next (wayDone k s) := by
  show Host.Outcome.next (wh (on s) _ s) = _
  rw [wh_running h]

theorem exec_yardScrub (n : Nat) : exec (.yardScrub n) s = .next (scrubPass n s) := congrArg _ (wh_running h _)

theorem exec_arrayUncorrectedError (n detail : Nat) (fid : Option Nat) :
    exec (.arrayUncorrectedError n detail fid) s = .next (arrayError n detail fid s) := congrArg _ (wh_running h _)

theorem exec_stackEngineFault (k detail : Nat) : exec (.stackEngineFault k detail) s = .next (kick (engineFault k detail s)) := by
  show Host.Outcome.next (wh (on s) _ s) = _
  rw [wh_running h]

theorem exec_stackLinkRetrainEnd (k : Nat) (ok : Bool) : exec (.stackLinkRetrainEnd k ok) s = .next (kick (linkRetrainEnd k ok s)) := by
  show Host.Outcome.next (wh (on s) _ s) = _
  rw [wh_running h]

theorem exec_yardScratchError (k : Nat) (fid : Option Nat) : exec (.yardScratchError k fid) s = .next (kick (scratchError k fid s)) := by
  show Host.Outcome.next (wh (on s) _ s) = _
  rw [wh_running h]

theorem exec_sharedUnitError {b : Block} {blk : Nat} (hb : blockOfCode blk = some b) (cause k detail : Nat) (fid t : Option Nat) :
    exec (.sharedUnitError cause blk k detail fid t) s = .next (kick (sharedError cause ⟨b, k⟩ detail fid t s)) := by
  show Host.Outcome.next (wh (on s) _ s) = _
  rw [wh_running h, hb]

theorem exec_sharedUnitError_none {blk : Nat} (hb : blockOfCode blk = none) (cause k detail : Nat) (fid t : Option Nat) :
    exec (.sharedUnitError cause blk k detail fid t) s = .next s := by
  show Host.Outcome.next (wh (on s) _ s) = _
  rw [wh_running h, hb]

theorem exec_hopStallFailure (k parts : Nat) (fids : List Nat) :
    exec (.hopStallFailure k parts fids) s = .next (hopFail k parts fids s) := congrArg _ (wh_running h _)

end

/-! ### The end of a retrain (R241, R243) -/

section
variable {lpddr ok declared : Bool} {k ch cycles : Nat} {s : State}

theorem retrainEnd_declared (hthere : Channel lpddr k ch) : retrainEnd lpddr k ch ok cycles true s = stackFail ⟨lpddr, k, ch⟩ s := by
  unfold retrainEnd
  dsimp only
  rw [chanExists_iff.mpr hthere]
  rfl

/-- The end of a retrain of a channel that is held, no failure being declared. -/
theorem retrainEnd_held (hthere : Channel lpddr k ch) (hheld : (⟨lpddr, k, ch⟩ : MemChan) ∈ s.retrain.held) :
    retrainEnd lpddr k ch ok cycles false s =
      if ok then retrainOk ⟨lpddr, k, ch⟩ cycles s
      else if 2 ≤ failsOf s ⟨lpddr, k, ch⟩ then stackFail ⟨lpddr, k, ch⟩ s
      else inc (unitPage lpddr k) (retrainCnt lpddr) 1 (setFails ⟨lpddr, k, ch⟩ (failsOf s ⟨lpddr, k, ch⟩ + 1) s) := by
  unfold retrainEnd
  dsimp only
  rw [chanExists_iff.mpr hthere, List.contains_iff_mem.mpr hheld]
  rfl

/-- A failure that is final: declared, or the third in a row. -/
theorem retrainEnd_fails (hthere : Channel lpddr k ch)
    (h : declared = true ∨ ((⟨lpddr, k, ch⟩ : MemChan) ∈ s.retrain.held ∧ ok = false ∧ 2 ≤ failsOf s ⟨lpddr, k, ch⟩)) :
    retrainEnd lpddr k ch ok cycles declared s = stackFail ⟨lpddr, k, ch⟩ s := by
  cases declared with
  | true => exact retrainEnd_declared hthere
  | false =>
    obtain ⟨hheld, rfl, hn⟩ := h.resolve_left (by decide)
    rw [retrainEnd_held hthere hheld, if_neg (by decide), if_pos hn]

theorem retrainEnd_idle (h : ¬Channel lpddr k ch ∨ (declared = false ∧ (⟨lpddr, k, ch⟩ : MemChan) ∉ s.retrain.held) ∨
    (declared = true ∧ Gone lpddr k s)) : retrainEnd lpddr k ch ok cycles declared s = s := by
  by_cases hthere : Channel lpddr k ch
  · rcases h.resolve_left (not_not_intro hthere) with ⟨rfl, hheld⟩ | ⟨rfl, hgone⟩
    · unfold retrainEnd
      dsimp only
      rw [chanExists_iff.mpr hthere, if_neg (by decide), if_neg (by decide), if_pos (by simpa using hheld)]
    · rw [retrainEnd_declared hthere, stackFail_again hgone]
  · exact if_pos (by simpa using mt chanExists_iff.mp hthere)

theorem channel_bounds (h : Channel lpddr k ch) : k < 16 ∧ ch < 64 := by
  unfold Channel at h
  split at h <;> omega

/-- A unit has failed for good: what is stated of it. -/
theorem retrainEnd_down (hthere : Channel lpddr k ch) (hgone : ¬Gone lpddr k s)
    (h : declared = true ∨ ((⟨lpddr, k, ch⟩ : MemChan) ∈ s.retrain.held ∧ ok = false ∧ 2 ≤ failsOf s ⟨lpddr, k, ch⟩)) :
    Down lpddr k 3 s (retrainEnd lpddr k ch ok cycles declared s) ∧
      ModuleFailed (if lpddr then 4 else 3) (unitPage lpddr k) (0x0100 + ch) s (retrainEnd lpddr k ch ok cycles declared s) ∧
      rg (retrainEnd lpddr k ch ok cycles declared s) (unitPage lpddr k) (unitMark lpddr) = 1 := by
  obtain ⟨hk, hch⟩ := channel_bounds hthere
  rw [retrainEnd_fails hthere h]
  exact stackFail_fails (c := ⟨lpddr, k, ch⟩) hgone (show k < 256 by omega) (show ch < 2 ^ 15 by omega)

end

/-! ### The link of a stack engine (R413) -/

theorem linkRetrainEnd_failed (k : Nat) (s : State) : linkRetrainEnd k false s = engineFault k 3 s := by
  unfold linkRetrainEnd
  split
  next h => exact (engineFault_none 3 s h).symm
  next => rfl

theorem linkRetrainEnd_good {k : Nat} (h : k < 8) (s : State) : linkRetrainEnd k true s = recovered (pgStk k) s :=
  if_neg (by omega)

theorem linkRetrainEnd_none {k : Nat} (h : 8 ≤ k) (ok : Bool) (s : State) : linkRetrainEnd k ok s = s := if_pos h

/-! ### The stated forms -/

/-- What O58 states of a partition that a fault concerns. -/
def HitStated (p why : Nat) (s u : State) : Prop :=
  (p ≠ 0 ∧ p < 16 ∧ partState s p ≠ .none ∧ partState s p ≠ .torn →
    partState u p = .torn ∧ (∀ f, f ∈ u.flights → f.q ≠ p) ∧ rg u (pgDsp p) Fld.DSP_Q_CTRL_RUN = 0 ∧
      (secOf u p).curSet = keySetZero ∧ (secOf u p).oldSet = keySetZero ∧ rg u (pgPrt p) Fld.PAGE_ERR_ERR = 1 ∧
      (rg s (pgPrt p) Fld.PAGE_ERR_ERR = 0 →
        rg u (pgPrt p) Fld.PAGE_ERR_INFO_CODE = 0x71 ∧ rg u (pgPrt p) Fld.PAGE_ERR_INFO_DETAIL = why)) ∧
    (p = 0 → rg u (pgPrt 0) Fld.PAGE_ERR_ERR = 1 ∧ (qu u 0).held = true)

theorem HitBy.stated {p why : Nat} {s u : State} (h : HitBy p why s u) : HitStated p why s u :=
  ⟨fun hl => ⟨(h.1 hl).state, (h.1 hl).flights, (h.1 hl).run, (h.1 hl).curKeys, (h.1 hl).oldKeys, (h.1 hl).err, (h.1 hl).first⟩, h.2⟩

theorem Down.stated {lpddr : Bool} {k why : Nat} {s u : State} (h : Down lpddr k why s u) :
    (∀ e, e ∈ unitExtents lpddr k → tabGet extDefault u.exts e = .failed) ∧
      (∀ x, x ∈ u.retrain.held → ¬(x.lpddr = lpddr ∧ x.unit = k)) ∧
      (∀ x e, x ∈ u.lends → e ∈ x.exts → e ∉ unitExtents lpddr k) ∧
      ∀ p, p < 16 → (∃ e, e ∈ unitExtents lpddr k ∧ tabGet extDefault s.exts e = .assigned p) → HitStated p why s u := by
  obtain ⟨hfailed, hheld, hlends, hhit⟩ := h
  exact ⟨hfailed, hheld, hlends, fun p hp he => (hhit p hp he).stated⟩

/-- Settles O58: each fault goes through the failure of the module (R416), then through the units that it takes out of service and the
teardowns of their holders; `Steady` carries what each step has established through the steps after it. -/
theorem faultsTakeUnitsOutOfService : Obligations.FaultsTakeUnitsOutOfService := by
  unfold Obligations.FaultsTakeUnitsOutOfService
  intro lpddr ok declared forced k ch cycles detail corrected cause blk parts fid t fids s hrun _ c pg torn lives hit failed down gone
    there held n goes others start stop
  have hstart : start = .next (retrainStart lpddr k ch forced s) := exec_memoryRetrainStart hrun ..
  have hstop : stop = .next (freed (retrainEnd lpddr k ch ok cycles declared s)) := exec_memoryRetrainEnd hrun ..
  have hlink (b : Bool) := exec_stackLinkRetrainEnd hrun k b
  refine ⟨fun h => ⟨_, hstart, retrainStart_started h⟩, fun h => ?_, fun hthere hdecl hheld hok => ?_, fun hthere hdecl hheld hok hn => ?_,
    fun hthere hgone h => ⟨_, hstop, ?_⟩, fun h => ?_, exec_wayZeroiseDone hrun k, ⟨_, exec_yardScrub hrun corrected, ?_⟩,
    fun hk hfree => ⟨_, exec_arrayUncorrectedError hrun .., ?_⟩, fun h => ?_, fun hk hgone => ⟨_, exec_stackEngineFault hrun .., ?_⟩,
    fun hk hgone => ⟨_, exec_stackEngineFault hrun .., engineFault_again detail s hk hgone⟩, fun hk => ?_, ?_,
    fun hk => ⟨_, (hlink true).trans (by rw [linkRetrainEnd_good hk]), recovered_counts .., (recovered_only ..).frame⟩,
    fun hk hmode => ⟨_, exec_yardScratchError hrun .., ?_⟩, fun h => ?_, fun hb => exec_sharedUnitError_none hrun hb ..,
    fun b hb => ⟨fun h => ?_, fun h => ?_⟩,
    fun hk => ⟨_, exec_hopStallFailure hrun .., ?_⟩, fun hk => ?_⟩
  · rw [hstart, retrainStart_idle h]
  · refine ⟨_, hstop, ?_⟩
    rw [hdecl, retrainEnd_held hthere hheld, hok, if_pos rfl]
    refine ⟨retrainOk_retrain .., retrainOk_counted .., fun hl => ?_⟩
    exact retrainOk_holdMax (c := c) hl cycles s
  · refine ⟨_, hstop, ?_⟩
    rw [hdecl, retrainEnd_held hthere hheld, hok, if_neg (by decide), if_neg (Nat.not_le.mpr hn)]
    exact retrainFailed c n s
  · obtain ⟨hdown, hfailed, hmark⟩ := retrainEnd_down (cycles := cycles) hthere hgone h
    exact ⟨hdown.stated, hfailed, hmark⟩
  · rw [hstop, retrainEnd_idle h]
  · exact ⟨scrubPass_scrubs .., scrubPass_corrects .., (scrubPass_only ..).frame⟩
  · obtain ⟨hfenced, hfailed, hhit⟩ := arrayError_met hk s hfree detail fid
    exact ⟨hfenced, hfailed, hhit.stated⟩
  · rw [exec_arrayUncorrectedError hrun, arrayError_idle h]
  · obtain ⟨hdown, hfailed⟩ := engineFault_fails detail s hk hgone
    exact ⟨hdown.stated, hfailed⟩
  · rw [exec_stackEngineFault hrun, hlink, engineFault_none _ _ hk, linkRetrainEnd_none hk]
    exact ⟨rfl, rfl⟩
  · rw [hlink, linkRetrainEnd_failed, exec_stackEngineFault hrun]
  · obtain ⟨hfailed, hhit, hfree⟩ := scratchError_met hk fid hmode
    exact ⟨hfailed, hhit.stated, hfree⟩
  · rw [exec_yardScratchError hrun, scratchError_idle h]
  · rw [exec_sharedUnitError hrun hb, sharedError_none h]
  · refine ⟨_, exec_sharedUnitError hrun hb .., sharedError_err h detail, sharedError_first h detail, sharedError_security h detail,
      fun x ht h7 hblk hx => sharedError_poisons h detail ht h7 hblk hx,
      fun x f hfid hf hnone hctx => sharedError_ends h detail hfid hf hnone hctx, fun hfid hblk => ?_, fun hfid hblk => ?_,
      fun hfid hblk => ?_, fun hfid hblk => ?_⟩
    · subst hfid hblk
      exact sharedError_kvs detail h
    · subst hfid hblk
      exact sharedError_scn detail h
    · subst hfid hblk
      rw [sharedError_eq h]
      exact sharedEnded_dsp h
    · subst hfid hblk
      rw [sharedError_eq h]
      exact sharedEnded_tok h
  · obtain ⟨hfailed, hhit⟩ := hopFail_met hk parts fids s
    exact ⟨hfailed, fun p hp hbit hsome => (hhit p hp hbit hsome).stated⟩
  · rw [exec_hopStallFailure hrun, hopFail_idle hk]

end Sys2Proof.Machine
end
